-- ==== Sys2Proof/Word.lean ====
section
/-!
DEFINITION. The plain words the part works in (R19, R23) and the numbers of its units (R12, R13).
-/

namespace Sys2Proof

/-- A word: 32 bits (R19). Every register is one word wide (R23). -/
abbrev Word := BitVec 32

/-- A byte. -/
abbrev Byte := BitVec 8

/-- A region number: the position it occupies, 0–7 (R3). -/
abbrev Region := Fin 8

/-- A block of a region, 0–15 (R45). -/
abbrev Block := Fin 16

/-- A cell of a block, 0–7 (R45). -/
abbrev Cell := Fin 8

/-- A context of a cell: 0–15 are workers and 16 is the supervisor context (R13). -/
abbrev Context := Fin 17

/-- A local port of a region, 0–7 (R14). -/
abbrev Port := Fin 8

/-- A host endpoint: 0 is at position 0 and 1 is at position 4 (R7). -/
abbrev Endpoint := Fin 2

/-- One cell, region.block.cell in dotted decimal (R13). -/
structure CellId where
  region : Region
  block : Block
  cell : Cell
deriving DecidableEq, Repr

/-- One context, region.block.cell.context in dotted decimal (R13). -/
structure CtxId where
  region : Region
  block : Block
  cell : Cell
  ctx : Context
deriving DecidableEq, Repr

end Sys2Proof
end

