-- ==== Sys2Proof/Messages.lean ====
section
/-!
DEFINITION. The data that commands carry and messages hold: modes, mutation records, seals, commits, lookups, packets' stamps.
-/

namespace Sys2Proof

/-- The eight modes (R57). -/
inductive Mode where
  | load | configure | strict | extended | regional | lean | drain | test
deriving DecidableEq, Repr

/-- The code of a mode (R57). -/
def Mode.code : Mode → Nat
  | .load => 0 | .configure => 1 | .strict => 2 | .extended => 3 | .regional => 4 | .lean => 5 | .drain => 6 | .test => 7

/-- The mode of a code (R57). -/
def Mode.ofCode (n : Nat) : Mode :=
  match n % 8 with
  | 0 => .load | 1 => .configure | 2 => .strict | 3 => .extended | 4 => .regional | 5 => .lean | 6 => .drain | _ => .test

/-- The run modes (R42). -/
def Mode.isRun : Mode → Bool
  | .strict | .extended | .regional | .lean | .drain => true
  | .load | .configure | .test => false

/-- CONFIGURE or TEST, the modes of direct writes (R57). -/
def Mode.isOpen : Mode → Bool
  | .configure | .test => true
  | _ => false

/-- A mutation record with its whole payload (R327); the payload's first 16 bytes lie in the record and the rest in extension slots. -/
structure Mut where
  op : Nat
  source : Nat
  table : Nat
  region : Nat
  seq : Nat
  port : Nat
  stampAge : Nat
  time : Nat
  extCount : Nat
  keyLen : Nat
  dataLen : Nat
  plen : Nat
  isStatic : Bool
  ageEn : Bool
  owner : Nat
  index : Nat
  payload : List Byte
deriving DecidableEq, Repr

/-- A number as `n` bytes, the most significant first. -/
def bytesBE : Nat → Nat → List Byte
  | 0, _ => []
  | n + 1, v => BitVec.ofNat 8 (v / 256 ^ n) :: bytesBE n v

/-- A number as `n` bytes, the least significant first (R20). -/
def bytesLE : Nat → Nat → List Byte
  | 0, _ => []
  | n + 1, v => BitVec.ofNat 8 v :: bytesLE n (v / 256)

/-- The number that bytes spell, the most significant first. -/
def ofBE (b : List Byte) : Nat := b.foldl (fun a x => a * 256 + x.toNat) 0

/-- The number that bytes spell, the least significant first (R20). -/
def ofLE : List Byte → Nat
  | [] => 0
  | x :: t => x.toNat + 256 * ofLE t

/-- Exactly `n` bytes: cut, or filled with zeros. -/
def padTo (n : Nat) (b : List Byte) : List Byte := (b ++ List.replicate n 0).take n

/-- Bytes `lo … lo + n − 1` of a list, zero beyond its end. -/
def sliceOf (b : List Byte) (lo n : Nat) : List Byte := padTo n (b.drop lo)

/-- The upper half of a record, bits [255:128] (R327). -/
def Mut.head (m : Mut) : Nat :=
  m.op % 16 * 2 ^ 124 + m.source % 16 * 2 ^ 120 + m.table % 4096 * 2 ^ 108 + m.region % 8 * 2 ^ 105
    + m.seq % 128 * 2 ^ 98 + m.port % 128 * 2 ^ 91 + m.stampAge % 16 * 2 ^ 87 + m.time % 8192 * 2 ^ 74
    + m.extCount % 4 * 2 ^ 72 + m.keyLen % 64 * 2 ^ 66 + m.dataLen % 32 * 2 ^ 61 + m.plen % 256 * 2 ^ 53
    + (if m.isStatic then 2 ^ 52 else 0) + (if m.ageEn then 2 ^ 51 else 0) + m.owner % 8 * 2 ^ 48 + m.index % 2 ^ 32

/-- The record and its extension slots as the bytes that are sent: the most significant byte first (R912). -/
def Mut.bytes (m : Mut) : List Byte := bytesBE 16 m.head ++ padTo (16 + 32 * m.extCount) m.payload

/-- Read a record from its 32 bytes and the bytes of its extension slots (R327, R912). -/
def Mut.ofBytes (b : List Byte) : Mut :=
  let h := ofBE (sliceOf b 0 16)
  let ext := h / 2 ^ 72 % 4
  { op := h / 2 ^ 124 % 16, source := h / 2 ^ 120 % 16, table := h / 2 ^ 108 % 4096, region := h / 2 ^ 105 % 8,
    seq := h / 2 ^ 98 % 128, port := h / 2 ^ 91 % 128, stampAge := h / 2 ^ 87 % 16, time := h / 2 ^ 74 % 8192,
    extCount := ext, keyLen := h / 2 ^ 66 % 64, dataLen := h / 2 ^ 61 % 32, plen := h / 2 ^ 53 % 256,
    isStatic := h / 2 ^ 52 % 2 == 1, ageEn := h / 2 ^ 51 % 2 == 1, owner := h / 2 ^ 48 % 8, index := h % 2 ^ 32,
    payload := sliceOf b 16 (16 + 32 * ext) }

/-- The reserved bits [175:160] of a record's bytes, which must be zero (R327). -/
def Mut.reservedOf (b : List Byte) : Nat := ofBE (sliceOf b 0 16) / 2 ^ 32 % 2 ^ 16

/-- One region's part in a commit: the region, its record count and its check code (R103). -/
structure Inclusion where
  region : Nat
  count : Nat
  code : Word
deriving DecidableEq, Repr

/-- A commit broadcast: its tick, the last tick committed before it, and the regions it includes (R103, R121). -/
structure Commit where
  tick : Nat
  last : Nat
  parts : List Inclusion
deriving DecidableEq, Repr

/-- The status of a fabric response (R664). -/
inductive Status where
  | ok | decode | access | poisoned | busy | timeout | fenced | unreachable
deriving DecidableEq, Repr

/-- The code of a status (R664). -/
def Status.code : Status → Nat
  | .ok => 0 | .decode => 1 | .access => 2 | .poisoned => 3 | .busy => 4 | .timeout => 5 | .fenced => 6 | .unreachable => 7

/-- A stamp: source port, traffic class, sequence number, tick and time (R161). -/
structure Stamp where
  port : Nat
  tc : Nat
  seq : Nat
  tick : Nat
  time : Nat
deriving DecidableEq, Repr

/-- A release record (R663). -/
structure ReleaseRec where
  stamp : Stamp
  transit : Nat
  copy : Nat
  host : Bool
  dest : Nat
  head : Nat
  length : Nat
  poisoned : Bool
  mirrorTail : Bool
  pkt : Nat
deriving DecidableEq, Repr

/-- The content of a fabric message, by the message types of R662. -/
inductive Msg where
  | marker (tick hops residence anchor : Nat)
  | echoReq (time : Nat)
  | echoRsp (time turn : Nat)
  | mutRecord (tick : Nat) (m : Mut)
  | seal (tick count : Nat) (code : Word)
  | commit (c : Commit)
  | repairReq (table line requester tick : Nat)
  | member (committing absent fenced recovering tick : Nat)
  | linkState (edges tick : Nat)
  | rd (addr len holder hint tag : Nat)
  | wr (addr len holder hint tag : Nat) (data : List Byte)
  | amo (swap : Bool) (addr holder hint tag operand : Nat)
  | bodyRd (handle tag : Nat)
  | rdData (status : Status) (tag : Nat) (data : List Byte)
  | wrAck (status : Status) (tag : Nat)
  | amoData (status : Status) (tag previous : Nat)
  | bodyData (status : Status) (tag descriptor : Nat) (data : List Byte)
  | poolOp (kind handle issuer holder : Nat)
  | enqOutcome (outcome : Nat) (stamp : Stamp) (copy requester : Nat)
  | releaseRec (r : ReleaseRec)
  | releaseMark (shutter : Nat)
  | irq (source count target : Nat)
  | hitNotice (table slot quantum : Nat)
  | genUpdate (holder : Nat)
  | chMsg (channel holder : Nat) (words : List Word)
  | chCredit (channel block : Nat)
  | errReport (code : Nat) (detail : List Byte)
  | mgt (info : Nat) (payload : List Byte)
  | recon (tick : Nat) (m : Mut)
  | snapshot (tick : Nat)
deriving DecidableEq, Repr

/-- A message in flight: sending region, destination region and content; what goes across one link has the neighbour for its destination.
The messages in flight stand in the order in which they were sent (R676). -/
structure Flight where
  src : Nat
  dst : Nat
  msg : Msg
deriving DecidableEq, Repr

/-- Whose lookup completes: slot `slot` of a packet's primary lookups, or the `i`-th operation that a context has outstanding. -/
inductive LookupFor where
  | packet (n slot : Nat)
  | ctx (u : CtxId) (i : Nat)
deriving DecidableEq, Repr

end Sys2Proof
end

