-- ==== Sys2Proof/Syntax.lean ====
section
/-!
DEFINITION. The commands of the part: one constructor per row of the table of operations and events, with the row's operands.
-/

namespace Sys2Proof

/-- A command. Each constructor's comment names its row and the rule that governs it. -/
inductive Instr where
  /-- SHUTTER (R96) -/
  | shutter (r : Region)
  /-- SHUTTER_MARK (R91) -/
  | shutterMark (r src : Region) (tick hops residence anchor : Nat) (m : Fin 6) (arrival : Int)
  /-- ECHO_REQ (R681) -/
  | echoReq (r : Region) (m : Fin 6) (time turn : Nat)
  /-- ECHO_RSP (R681) -/
  | echoRsp (r : Region) (m : Fin 6) (time turn now : Nat)
  /-- PPS_EDGE (R86) -/
  | ppsEdge (gap : Nat) (phase : Int)
  /-- PPS_LOCK_LOST (R88) -/
  | ppsLockLost
  /-- MUT_RECORD (R101) -/
  | mutRecord (r src : Region) (tick : Nat) (m : Mut)
  /-- SEAL (R103) -/
  | seal (src : Region) (tick count : Nat) (code : Word)
  /-- SEAL_DEADLINE (R103) -/
  | sealDeadline
  /-- COMMIT (R106) -/
  | commit (r : Region) (c : Commit) (bad : List (Nat × Nat)) (via : Option (Fin 6))
  /-- APPLY_DEADLINE (R119) -/
  | applyDeadline (r : Region)
  /-- REPAIR_REQ (R322) -/
  | repairReq (r src : Region) (table line time : Nat)
  /-- REPAIR_STALLED (R325) -/
  | repairStalled (r : Region) (table line : Nat)
  /-- MEMBER (R866) -/
  | member (r : Region) (via : Option (Fin 6)) (committing absent fenced recovering tick : Nat)
  /-- LINK_STATE (R671) -/
  | linkState (r : Region) (via : Option (Fin 6)) (edges tick : Nat)
  /-- RECON (R138) -/
  | recon (r src : Region) (tick : Nat) (m : Mut)
  /-- PANE_CTL_SWAP (R127) -/
  | paneCtlSwap
  /-- PANE_CTL_FORCE_FREE (R133) -/
  | paneCtlForceFree
  /-- PANE_WR_OPEN (R217) -/
  | paneWrOpen (r : Region) (pane : Fin 2)
  /-- PANE_WR_CLOSE (R219) -/
  | paneWrClose (r : Region)
  /-- PANE_WINDOW_WRITE (R218) -/
  | paneWindowWrite (r : Region) (pane : Fin 2) (store : Bool) (off : Nat) (data : List Byte)
  /-- PANE_CODE_DONE (R126) -/
  | paneCodeDone (r : Region) (pane : Fin 2)
  /-- CLS_DIV_WRITE (R256) -/
  | clsDivWrite (r : Region) (pane : Fin 2) (value : Word)
  /-- FRAME_RECEIVE (R160) -/
  | frameReceive (r : Region) (p : Port) (frame : List Byte) (fcsOk fecBad : Bool) (corrected time ns sec : Nat)
  /-- FRONT_END_PASS (R289) -/
  | frontEndPass (n : Nat)
  /-- FIRST_PASS_DEADLINE (R291) -/
  | firstPassDeadline (n : Nat)
  /-- RECIRC_PASS_DEADLINE (R292) -/
  | recircPassDeadline (n : Nat)
  /-- LOOKUP_COMPLETE (R317) -/
  | lookupComplete (r : Region) (who : LookupFor) (bad : List Nat)
  /-- DISPATCH_PLACEMENT (R501) -/
  | dispatchPlacement (r : Region) (wait : Nat)
  /-- PLACEMENT_DEADLINE (R503) -/
  | placementDeadline (r : Region) (waits : List Nat)
  /-- WINDOW_WRITE (R381) -/
  | windowWrite (n : Nat)
  /-- PACKET_START (R375) -/
  | packetStart (u : CtxId)
  /-- ALL_WAITING (R401) -/
  | allWaiting (cell : CellId)
  /-- RETIRE (R394) -/
  | retire (u : CtxId) (w : Word) (used : Nat)
  /-- LKUP (R389) -/
  | lkup (u : CtxId) (w : Word)
  /-- SFETCH (R388) -/
  | sfetch (u : CtxId) (w : Word)
  /-- STITCH_FETCH_COMPLETE (R391) -/
  | stitchFetchComplete (u : CtxId) (i : Nat)
  /-- MUTREQ (R331) -/
  | mutreq (u : CtxId) (w : Word)
  /-- MUTREQ_DONE (R392) -/
  | mutreqDone (u : CtxId)
  /-- WFE (R397) -/
  | wfe (u : CtxId) (w : Word)
  /-- SEV (R388) -/
  | sev (u : CtxId) (w : Word)
  /-- CHOPEN (R441) -/
  | chopen (u : CtxId) (w : Word)
  /-- CHPUT (R441) -/
  | chput (u : CtxId) (w : Word)
  /-- CHCLOSE (R441) -/
  | chclose (u : CtxId) (w : Word)
  /-- CHGET (R441) -/
  | chget (u : CtxId) (w : Word)
  /-- CH_MSG (R444) -/
  | chMsg (r : Region) (channel holder : Nat) (words : List Word)
  /-- CH_CREDIT_RETURN (R437) -/
  | chCreditReturn (r : Region) (b : Block) (channel : Nat)
  /-- CH_FLUSH (R447) -/
  | chFlush (r : Region) (b : Block) (regional : Bool) (channel : Nat)
  /-- CP_CLEAR (R471) -/
  | cpClear (u : CtxId) (w : Word)
  /-- GCM_KEYW (R471) -/
  | gcmKeyw (u : CtxId) (w : Word)
  /-- GCM_IVW (R471) -/
  | gcmIvw (u : CtxId) (w : Word)
  /-- GCM_INIT (R474) -/
  | gcmInit (u : CtxId) (w : Word)
  /-- GCM_AAD (R472) -/
  | gcmAad (u : CtxId) (w : Word)
  /-- GCM_ENC (R472) -/
  | gcmEnc (u : CtxId) (w : Word)
  /-- GCM_DEC (R472) -/
  | gcmDec (u : CtxId) (w : Word)
  /-- GCM_TAG (R472) -/
  | gcmTag (u : CtxId) (w : Word)
  /-- SHA_INIT (R474) -/
  | shaInit (u : CtxId) (w : Word)
  /-- SHA_DATA (R472) -/
  | shaData (u : CtxId) (w : Word)
  /-- SHA_FINAL (R472) -/
  | shaFinal (u : CtxId) (w : Word)
  /-- SHA_DIGEST (R472) -/
  | shaDigest (u : CtxId) (w : Word)
  /-- CRC32C_INIT (R471) -/
  | crc32cInit (u : CtxId) (w : Word)
  /-- CRC32C_DATA (R472) -/
  | crc32cData (u : CtxId) (w : Word)
  /-- CRC64_INIT (R471) -/
  | crc64Init (u : CtxId) (w : Word)
  /-- CRC64_DATA (R472) -/
  | crc64Data (u : CtxId) (w : Word)
  /-- CRC64_HI (R471) -/
  | crc64Hi (u : CtxId) (w : Word)
  /-- CSUM_INIT (R471) -/
  | csumInit (u : CtxId) (w : Word)
  /-- CSUM_DATA (R472) -/
  | csumData (u : CtxId) (w : Word)
  /-- TPZ_INIT (R471) -/
  | tpzInit (u : CtxId) (w : Word)
  /-- TPZ_DATA (R472) -/
  | tpzData (u : CtxId) (w : Word)
  /-- IDX_INIT (R471) -/
  | idxInit (u : CtxId) (w : Word)
  /-- IDX_DATA (R472) -/
  | idxData (u : CtxId) (w : Word)
  /-- IDX_RESULT (R472) -/
  | idxResult (u : CtxId) (w : Word)
  /-- CPSAVE (R475) -/
  | cpsave (u : CtxId) (w : Word)
  /-- CPRESTORE (R477) -/
  | cprestore (u : CtxId) (w : Word)
  /-- LOAD (R363) -/
  | load (u : CtxId) (w : Word) (wait : Nat)
  /-- STORE (R363) -/
  | store (u : CtxId) (w : Word) (wait : Nat)
  /-- AMOADD_W (R465) -/
  | amoaddW (u : CtxId) (w : Word) (wait : Nat)
  /-- AMOSWAP_W (R465) -/
  | amoswapW (u : CtxId) (w : Word) (wait : Nat)
  /-- LR_W (R358) -/
  | lrW (u : CtxId) (w : Word)
  /-- SC_W (R358) -/
  | scW (u : CtxId) (w : Word)
  /-- LATCH_READ (R452) -/
  | latchRead (u : CtxId) (w : Word) (wait : Nat)
  /-- LATCH_WRITE (R455) -/
  | latchWrite (u : CtxId) (w : Word) (wait : Nat)
  /-- FORCE_RELEASE_WRITE (R456) -/
  | forceReleaseWrite (u : CtxId) (w : Word) (wait : Nat)
  /-- FENCE (R544) -/
  | fence (u : CtxId) (w : Word)
  /-- FENCE_I (R359) -/
  | fenceI (u : CtxId) (w : Word)
  /-- ECALL (R360) -/
  | ecall (u : CtxId) (w : Word)
  /-- EBREAK (R404) -/
  | ebreak (u : CtxId) (w : Word)
  /-- MRET (R360) -/
  | mret (u : CtxId) (w : Word)
  /-- WFI (R360) -/
  | wfi (u : CtxId) (w : Word)
  /-- INTEGER_INSTRUCTION (R357) -/
  | integerInstruction (u : CtxId) (w : Word)
  /-- CSR_ACCESS (R361) -/
  | csrAccess (u : CtxId) (w : Word) (cycle used : Nat)
  /-- TIME_CSR_READ (R361) -/
  | timeCsrRead (u : CtxId) (w : Word)
  /-- CEL_RXTS_NS_READ (R716) -/
  | celRxtsNsRead (u : CtxId) (w : Word)
  /-- CEL_IRQ_CLAIM (R799) -/
  | celIrqClaim (u : CtxId) (w : Word)
  /-- THREAD_RESET (R407) -/
  | threadReset (u : CtxId)
  /-- THREAD_RESUME (R405) -/
  | threadResume (u : CtxId)
  /-- THREAD_HALT (R420) -/
  | threadHalt (u : CtxId)
  /-- DEBUG_HALT (R409) -/
  | debugHalt (u : CtxId)
  /-- DEBUG_RESUME (R409) -/
  | debugResume (u : CtxId)
  /-- ICACHE_INVALIDATE (R423) -/
  | icacheInvalidate (cell : CellId)
  /-- SLOT_CTL_APPLY (R369) -/
  | slotCtlApply (cell : CellId)
  /-- GEN_UPDATE (R454) -/
  | genUpdate (r src : Region) (holder : Nat)
  /-- RELEASE_REC (R182) -/
  | releaseRec (r src : Region) (x : ReleaseRec)
  /-- RELEASE_MARK (R184) -/
  | releaseMark (r src : Region) (shutter : Nat)
  /-- RELEASE_DEADLINE (R184) -/
  | releaseDeadline (r : Region)
  /-- REWRITE_COMPLETE (R191) -/
  | rewriteComplete (r : Region) (stamp : Stamp) (copy : Nat) (poisoned : Bool)
  /-- ENQ_OUTCOME (R578) -/
  | enqOutcome (r src : Region) (outcome : Nat) (stamp : Stamp) (copy requester : Nat)
  /-- SPILL_COPY_DONE (R587) -/
  | spillCopyDone (r : Region) (queue : Nat) (stamp : Stamp) (copy : Nat)
  /-- SCHEDULE_DECISION (R590) -/
  | scheduleDecision (r : Region) (p : Port)
  /-- TRANSMIT_COMPLETE (R578) -/
  | transmitComplete (r : Region) (p : Port) (ns sec : Nat)
  /-- BODY_RD (R662) -/
  | bodyRd (r src : Region) (handle tag : Nat)
  /-- BODY_DATA (R662) -/
  | bodyData (r src : Region) (status : Status) (tag descriptor : Nat) (data : List Byte)
  /-- PFC_FRAME (R722) -/
  | pfcFrame (r : Region) (p : Port) (quanta : List (Nat × Nat))
  /-- PFC_PAUSE_EXPIRY (R722) -/
  | pfcPauseExpiry (r : Region) (p : Port) (cls : Nat)
  /-- PFC_PAUSE_REPEAT (R723) -/
  | pfcPauseRepeat (r : Region) (p : Port) (cls : Nat)
  /-- STORM_DECLARE (R593) -/
  | stormDeclare (r : Region) (p : Port) (cls : Nat)
  /-- STORM_END (R593) -/
  | stormEnd (r : Region) (p : Port) (cls : Nat)
  /-- LINK_DOWN (R594) -/
  | linkDown (r : Region) (p : Port)
  /-- LINK_UP (R779) -/
  | linkUp (r : Region) (p : Port)
  /-- ALLOC (R565) -/
  | alloc (r : Region) (requester pool cls : Nat) (sizes : List Nat)
  /-- FREE (R565) -/
  | free (issuer handle : Nat) (found : Bool)
  /-- HANDOVER (R565) -/
  | handover (issuer handle dest : Nat) (found : Bool)
  /-- ADDREF (R565) -/
  | addref (issuer handle : Nat) (found : Bool)
  /-- DEREF (R565) -/
  | deref (issuer handle : Nat) (found : Bool)
  /-- RETURN (R565) -/
  | returnRef (issuer holder handle : Nat) (found : Bool)
  /-- POOL_OP (R570) -/
  | poolOp (r src : Region) (kind handle issuer holder : Nat) (found : Bool)
  /-- FREE_CACHE_REFILL (R563) -/
  | freeCacheRefill (r : Region) (requester pool : Nat) (found : Option Nat)
  /-- SP_SCRUB (R531) -/
  | spScrub (r : Region) (b : Block) (bank line found : Nat)
  /-- BLK_MEM_CLEAN (R546) -/
  | blkMemClean (r : Region) (b : Block) (value : Word)
  /-- SEC_WIPE (R536) -/
  | secWipe (r : Region) (b : Block)
  /-- SEC_SIZE_WRITE (R535) -/
  | secSizeWrite (r : Region) (b : Block) (value : Word)
  /-- SEC_LOCK (R535) -/
  | secLock (r : Region) (b : Block)
  /-- SEC_WIPE_DONE (R536) -/
  | secWipeDone (r : Region) (b : Block)
  /-- RETENTION_REQUEST (R832) -/
  | retentionRequest (r : Region) (value : Word)
  /-- RETENTION_ENTER (R538) -/
  | retentionEnter (r : Region) (b : Block)
  /-- BLOCK_WAKE_DONE (R540) -/
  | blockWakeDone (r : Region) (b : Block)
  /-- BLK_IC_INV (R553) -/
  | blkIcInv (r : Region) (b : Block) (cells : Word)
  /-- CELL_RUN_WRITE (R429) -/
  | cellRunWrite (r : Region) (b : Block) (value : Word)
  /-- BLOCK_RESET (R828) -/
  | blockReset (r : Region) (blocks : Word)
  /-- HBM_REQUEST (R620) -/
  | hbmRequest (r : Region) (port : Nat) (write : Bool) (addr len : Nat) (data : List Byte) (hint first last waits : Bool) (found latency : Nat)
  /-- HBM_NORMAL_AGE (R621) -/
  | hbmNormalAge (r : Region)
  /-- HBM_ROW_IDLE_CLOSE (R622) -/
  | hbmRowIdleClose (r : Region) (pc bank : Nat)
  /-- HBM_REFRESH_DUE (R627) -/
  | hbmRefreshDue (r : Region) (pc : Nat)
  /-- HBM_SCRUB (R616) -/
  | hbmScrub (r : Region) (addr found : Nat)
  /-- HBM_GATHER (R628) -/
  | hbmGather (r : Region) (start drift : Bool)
  /-- HBM_TEMP_SAMPLE (R629) -/
  | hbmTempSample (r : Region) (temp : Nat) (catastrophic : Bool)
  /-- HBM_RATE_WRITE (R629) -/
  | hbmRateWrite (r : Region) (rate : Nat)
  /-- HBM_FREQ_CHANGE (R631) -/
  | hbmFreqChange (r : Region)
  /-- HBM_FREQ_DONE (R631) -/
  | hbmFreqDone (r : Region)
  /-- HBM_TRAIN_RETRAIN (R640) -/
  | hbmTrainRetrain (r : Region)
  /-- HBM_RETRAIN_DONE (R640) -/
  | hbmRetrainDone (r : Region) (failed : Bool)
  /-- HBM_ORDER_WRITE (R618) -/
  | hbmOrderWrite (r : Region) (order : Nat)
  /-- HBM_INIT_DONE (R632) -/
  | hbmInitDone (r : Region)
  /-- HBM_SELF_REFRESH_EXIT (R634) -/
  | hbmSelfRefreshExit (r : Region)
  /-- DATA_FLIT (R652) -/
  | dataFlit (r : Region) (m : Fin 6) (header : Nat) (errors heads : List Nat) (waiting : List (List (List Nat)))
  /-- NAK (R653) -/
  | nak (r : Region) (m : Fin 6) (header time : Nat)
  /-- INIT (R658) -/
  | init (r : Region) (m : Fin 6) (header : Nat) (credits : List Nat)
  /-- IDLE (R652) -/
  | idle (r : Region) (m : Fin 6) (header : Nat)
  /-- MODULE_FAILED (R654) -/
  | moduleFailed (r : Region) (m : Fin 6) (time : Nat)
  /-- LANE_REPAIR (R655) -/
  | laneRepair (r : Region) (m : Fin 6) (time : Nat)
  /-- RD (R662) -/
  | rd (r src : Region) (addr len holder hint tag : Nat)
  /-- WR (R668) -/
  | wr (r src : Region) (addr len holder hint tag : Nat) (data : List Byte)
  /-- AMO (R662) -/
  | amo (r src : Region) (swap : Bool) (addr holder hint tag operand : Nat)
  /-- RD_DATA (R664) -/
  | rdData (r src : Region) (status : Status) (tag : Nat) (data : List Byte)
  /-- WR_ACK (R668) -/
  | wrAck (r src : Region) (status : Status) (tag : Nat)
  /-- AMO_DATA (R664) -/
  | amoData (r src : Region) (status : Status) (tag previous : Nat)
  /-- REQUEST_TIMEOUT (R667) -/
  | requestTimeout (r : Region) (tag : Nat)
  /-- TARGET_BUSY (R667) -/
  | targetBusy (r src : Region) (tag : Nat)
  /-- IRQ (R796) -/
  | irq (r src : Region) (source count target : Nat)
  /-- HIT_NOTICE (R342) -/
  | hitNotice (r src : Region) (table slot quantum : Nat)
  /-- ERR_REPORT (R699) -/
  | errReport (r src : Region) (code : Nat) (detail : List Byte)
  /-- MGT_MSG (R751) -/
  | mgtMsg (r src : Region) (info : Nat) (payload : List Byte)
  /-- LINK_REQ_UP (R694) -/
  | linkReqUp (r : Region) (m : Fin 6) (up : Bool)
  /-- LINK_ADMIT (R689) -/
  | linkAdmit (r : Region) (m : Fin 6) (allow : Bool)
  /-- PTS_INFO_READ (R743) -/
  | ptsInfoRead (r : Region) (p : Port)
  /-- QP_TX_DOORBELL (R731) -/
  | qpTxDoorbell (e : Endpoint) (q : Fin 512) (pi : Fin 65536)
  /-- QP_RX_DOORBELL (R731) -/
  | qpRxDoorbell (e : Endpoint) (q : Fin 512) (pi : Fin 65536)
  /-- TX_DESCRIPTOR_TAKE (R735) -/
  | txDescriptorTake (e : Endpoint)
  /-- TX_DMA_COMPLETE (R735) -/
  | txDmaComplete (e : Endpoint) (q : Fin 512) (failed : Bool) (time : Nat)
  /-- RX_PACKET_DELIVER (R736) -/
  | rxPacketDeliver (e : Endpoint) (q : Fin 512)
  /-- RX_HOLD_EXPIRY (R736) -/
  | rxHoldExpiry (e : Endpoint) (q : Fin 512)
  /-- UR_DOORBELL (R738) -/
  | urDoorbell (e : Endpoint) (ring : Fin 16) (pi : Fin 65536)
  /-- UPDATE_RING_TAKE (R333) -/
  | updateRingTake (e : Endpoint) (time : Nat)
  /-- MSIX_COALESCE_EXPIRY (R740) -/
  | msixCoalesceExpiry (e : Endpoint) (q : Fin 512)
  /-- BAR2_ACCESS (R727) -/
  | bar2Access (e : Endpoint) (addr : Nat) (write : Bool) (len : Nat) (data : List Byte)
  /-- ENDPOINT_RESET (R725) -/
  | endpointReset (e : Endpoint) (linkDown : Bool)
  /-- MB_DOORBELL (R758) -/
  | mbDoorbell (e : Endpoint) (pair : Fin 32) (value : Word)
  /-- NOP (R771) -/
  | nop (e : Endpoint) (pair : Fin 32) (elapsed : Nat)
  /-- GET_INFO (R771) -/
  | getInfo (e : Endpoint) (pair : Fin 32) (elapsed : Nat)
  /-- EVENT_RING_SET (R767) -/
  | eventRingSet (e : Endpoint) (pair : Fin 32) (elapsed : Nat)
  /-- JOB_QUERY (R766) -/
  | jobQuery (e : Endpoint) (pair : Fin 32) (elapsed : Nat)
  /-- MODE_SET (R837) -/
  | modeSet (e : Endpoint) (pair : Fin 32) (elapsed : Nat)
  /-- TICK_SET (R83) -/
  | tickSet (e : Endpoint) (pair : Fin 32) (elapsed : Nat)
  /-- PTP_LOAD (R711) -/
  | ptpLoad (e : Endpoint) (pair : Fin 32) (elapsed : Nat)
  /-- PTP_ADJUST (R713) -/
  | ptpAdjust (e : Endpoint) (pair : Fin 32) (elapsed : Nat)
  /-- UNIT_SET (R776) -/
  | unitSet (e : Endpoint) (pair : Fin 32) (elapsed : Nat)
  /-- UNIT_QUERY (R771) -/
  | unitQuery (e : Endpoint) (pair : Fin 32) (elapsed : Nat)
  /-- LEDGER_SCAN (R771) -/
  | ledgerScan (e : Endpoint) (pair : Fin 32) (elapsed : Nat)
  /-- TBL_DESC_SET (R314) -/
  | tblDescSet (e : Endpoint) (pair : Fin 32) (elapsed : Nat)
  /-- TBL_MUTATE (R773) -/
  | tblMutate (e : Endpoint) (pair : Fin 32) (elapsed : Nat) (time : Nat)
  /-- TBL_READ (R771) -/
  | tblRead (e : Endpoint) (pair : Fin 32) (elapsed : Nat)
  /-- CM_READ (R771) -/
  | cmRead (e : Endpoint) (pair : Fin 32) (elapsed : Nat)
  /-- CM_WRITE (R310) -/
  | cmWrite (e : Endpoint) (pair : Fin 32) (elapsed : Nat)
  /-- PANE_DIV_SET (R256) -/
  | paneDivSet (e : Endpoint) (pair : Fin 32) (elapsed : Nat)
  /-- PANE_OPEN (R217) -/
  | paneOpen (e : Endpoint) (pair : Fin 32) (elapsed : Nat)
  /-- PANE_WRITE (R218) -/
  | paneWrite (e : Endpoint) (pair : Fin 32) (elapsed : Nat)
  /-- PANE_CLOSE (R219) -/
  | paneClose (e : Endpoint) (pair : Fin 32) (elapsed : Nat)
  /-- PANE_SWAP (R127) -/
  | paneSwap (e : Endpoint) (pair : Fin 32) (elapsed : Nat)
  /-- PANE_FORCE_FREE (R133) -/
  | paneForceFree (e : Endpoint) (pair : Fin 32) (elapsed : Nat)
  /-- REG_READ (R771) -/
  | regRead (e : Endpoint) (pair : Fin 32) (elapsed : Nat)
  /-- REG_WRITE (R772) -/
  | regWrite (e : Endpoint) (pair : Fin 32) (elapsed : Nat)
  /-- BPM_DESC_READ (R559) -/
  | bpmDescRead (e : Endpoint) (pair : Fin 32) (elapsed : Nat)
  /-- BPM_STAT (R771) -/
  | bpmStat (e : Endpoint) (pair : Fin 32) (elapsed : Nat)
  /-- REGION_FENCE (R860) -/
  | regionFence (e : Endpoint) (pair : Fin 32) (elapsed : Nat)
  /-- REGION_REJOIN (R861) -/
  | regionRejoin (e : Endpoint) (pair : Fin 32) (elapsed : Nat)
  /-- JOURNAL_READ (R771) -/
  | journalRead (e : Endpoint) (pair : Fin 32) (elapsed : Nat)
  /-- HBM_RETRAIN (R771) -/
  | hbmRetrain (e : Endpoint) (pair : Fin 32) (elapsed : Nat)
  /-- HBM_RATE_SET (R771) -/
  | hbmRateSet (e : Endpoint) (pair : Fin 32) (elapsed : Nat)
  /-- GUEST_DESC_READ (R688) -/
  | guestDescRead (e : Endpoint) (pair : Fin 32) (elapsed : Nat)
  /-- GUEST_ROLE_SET (R690) -/
  | guestRoleSet (e : Endpoint) (pair : Fin 32) (elapsed : Nat)
  /-- GUEST_ADMIT (R771) -/
  | guestAdmit (e : Endpoint) (pair : Fin 32) (elapsed : Nat)
  /-- FW_STAGE (R771) -/
  | fwStage (e : Endpoint) (pair : Fin 32) (elapsed : Nat)
  /-- FW_ACTIVATE (R774) -/
  | fwActivate (e : Endpoint) (pair : Fin 32) (elapsed : Nat)
  /-- LC_ADVANCE (R825) -/
  | lcAdvance (e : Endpoint) (pair : Fin 32) (elapsed : Nat)
  /-- LC_ADVANCE_DONE (R826) -/
  | lcAdvanceDone
  /-- MON_SNAPSHOT (R806) -/
  | monSnapshot (e : Endpoint) (pair : Fin 32) (elapsed : Nat)
  /-- JOB_DONE (R769) -/
  | jobDone (num : Nat)
  /-- IRQ_EN_SET (R791) -/
  | irqEnSet (r : Region) (w : Fin 32) (value : Word)
  /-- IRQ_EN_CLR (R791) -/
  | irqEnClr (r : Region) (w : Fin 32) (value : Word)
  /-- IRQ_PEND_SET (R787) -/
  | irqPendSet (r : Region) (w : Fin 32) (value : Word)
  /-- IRQ_PEND_CLR (R791) -/
  | irqPendClr (r : Region) (w : Fin 32) (value : Word)
  /-- IRQ_CLAIM_MP (R798) -/
  | irqClaimMp (r : Region)
  /-- IRQ_RETARGET (R800) -/
  | irqRetarget (r : Region) (n : Fin 1024) (value : Word)
  /-- MON_SNAP_ARM (R806) -/
  | monSnapArm
  /-- MON_SNAP_CANCEL (R806) -/
  | monSnapCancel
  /-- SNAPSHOT_REPORT (R807) -/
  | snapshotReport (src : Region) (tick : Nat)
  /-- REGISTER_PAIR_LO_READ (R24) -/
  | registerPairLoRead (addr : Nat)
  /-- REGISTER_PAIR_HI_WRITE (R24) -/
  | registerPairHiWrite (addr : Nat) (value : Word)
  /-- TBL_BADLINE_READ (R349) -/
  | tblBadlineRead (r : Region)
  /-- DSP_FLAGS_SET (R499) -/
  | dspFlagsSet (r : Region) (value : Word)
  /-- DSP_FLAGS_CLR (R499) -/
  | dspFlagsClr (r : Region) (value : Word)
  /-- MODE_REQ (R837) -/
  | modeReq (value : Word)
  /-- COMPAT_WRITE (R64) -/
  | compatWrite (value : Word)
  /-- PERIOD_WRITE (R83) -/
  | periodWrite (value : Word)
  /-- PTP_CTL_LOAD (R711) -/
  | ptpCtlLoad
  /-- PTP_ADJ_WRITE (R713) -/
  | ptpAdjWrite (value : Word)
  /-- PTP_FREQ_WRITE (R714) -/
  | ptpFreqWrite (value : Word)
  /-- PARK_WRITE (R833) -/
  | parkWrite (r : Region) (value : Word)
  /-- REGION_WAKE_DONE (R831) -/
  | regionWakeDone (r : Region)
  /-- CELL_CLK_WRITE (R844) -/
  | cellClkWrite (r : Region) (value : Word)
  /-- PORT_ENABLE_WRITE (R709) -/
  | portEnableWrite (r : Region) (p : Port) (enable : Bool)
  /-- POWER_ON_RESET (R828) -/
  | powerOnReset (rail : Option (Fin 10))
  /-- VIN_BROWNOUT (R884) -/
  | vinBrownout
  /-- SYS_RST_N (R894) -/
  | sysRstN
  /-- RST_CTL_COLD (R828) -/
  | rstCtlCold (key : Fin 256)
  /-- RST_CTL_WARM (R828) -/
  | rstCtlWarm (key : Fin 256)
  /-- LDR_START (R818) -/
  | ldrStart (e : Endpoint)
  /-- READ_ID (R741) -/
  | readId
  /-- READ_STATUS (R741) -/
  | readStatus
  /-- WRITE (R741) -/
  | write (addr : Nat) (data : List Byte)
  /-- READ (R741) -/
  | read (addr len : Nat)
  /-- START (R741) -/
  | start
  /-- AUTH_COMPLETE (R820) -/
  | authComplete
  /-- LOADER_HANDOVER (R814) -/
  | loaderHandover (bist training : Nat) (bootMs : Nat)
  /-- TAMPER_SENSE (R827) -/
  | tamperSense (r : Region) (sensors : Fin 16)
  /-- THERM_SAMPLE (R897) -/
  | thermSample (temps : List Int)
  /-- MP_FAILURE (R872) -/
  | mpFailure (r : Region) (cause : Nat)
  /-- MP_RESTART_DONE (R872) -/
  | mpRestartDone (r : Region)
  /-- MISSED_SHUTTER_CHECK (R868) -/
  | missedShutterCheck (retry : Bool)
  /-- FENCE_CTL_FENCE (R860) -/
  | fenceCtlFence (region : Region)
  /-- FENCE_CTL_REJOIN (R861) -/
  | fenceCtlRejoin (region : Region)
  /-- REJOIN_RESET_DONE (R861) -/
  | rejoinResetDone
  /-- REJOIN_SYNC_DONE (R861) -/
  | rejoinSyncDone
  /-- REJOIN_COPY_DONE (R862) -/
  | rejoinCopyDone (late : Nat)
  /-- JOURNAL_SUPPRESS (R877) -/
  | journalSuppress (r : Region)
  /-- FAULT_ACK (R879) -/
  | faultAck
  /-- METER_REFILL_PASS (R309) -/
  | meterRefillPass (r : Region) (table index : Nat)
  /-- REGISTER_WRITE (R27) -/
  | registerWrite (addr : Nat) (value : Word)
  /-- LINK_TRAINING_DONE (R655) -/
  | linkTrainingDone (r : Region) (m : Fin 6) (spares time : Nat)
  /-- ENDPOINT_LINK_UP (R746) -/
  | endpointLinkUp (e : Endpoint) (gen width : Nat)
  /-- HBM_CA_PARITY_ERROR (R633) -/
  | hbmCaParityError (r : Region) (pc : Nat)
  /-- REGION_PARK_DONE (R847) -/
  | regionParkDone (r : Region)
  /-- SYS_RST_N_RELEASE (R828) -/
  | sysRstNRelease
  /-- RESET_RELEASE (R813) -/
  | resetRelease (straps : Word)
  /-- FUSE_LOAD_DONE (R814) -/
  | fuseLoadDone (failed : Bool)
  /-- GUEST_CURRENT_LIMIT (R889) -/
  | guestCurrentLimit (r : Region)
  /-- SUPPLY_SAMPLE (R904) -/
  | supplySample (vin current power : Nat) (low : Bool)
deriving DecidableEq, Repr

end Sys2Proof
end

