-- ==== Sys2Proof/Decode.lean ====
section
/-!
DEFINITION. Reading a command from a word: no row of the table of commands gives bits, so no word spells a command.
-/

namespace Sys2Proof

/-- The command that a word spells by the table's bits (none: no row gives any). -/
def decodeTableWord (nbits w : Nat) : Option Instr :=
  match nbits, w with
  | _, _ => none

end Sys2Proof
end

