-- ==== Sys2Proof/Machine/Crc.lean ====
section
/-!
DEFINITION. The check codes and hashes that the spec defines by formula: CRC-32C, CRC-64 and the index hash (R472).
-/

namespace Sys2Proof.Machine

/-- One byte into a reflected CRC with a reflected polynomial. -/
def crcByte (poly : Nat) (acc : Nat) (b : Byte) : Nat :=
  (List.range 8).foldl (fun a _ => if a % 2 = 1 then (a / 2) ^^^ poly else a / 2) (acc ^^^ b.toNat)

/-- CRC-32C of bytes into an accumulator: reflected, polynomial 0x1EDC_6F41, whose reflection is 0x82F6_3B78 (R472). -/
def crc32c (acc : Nat) (b : List Byte) : Nat := b.foldl (crcByte 0x82F63B78) acc

/-- CRC-64 of bytes into an accumulator: reflected, polynomial 0x42F0_E1EB_A9EA_3693 (R472). -/
def crc64 (acc : Nat) (b : List Byte) : Nat := b.foldl (crcByte 0xC96C5795D7870F42) acc

/-- The standard CRC-32C of bytes: initial value and final exclusive-or of all ones (R472). -/
def crc32cOf (b : List Byte) : Nat := crc32c 0xFFFFFFFF b ^^^ 0xFFFFFFFF

/-- The absorbing step of the index hash (R472). -/
def indexAbsorb (h : Nat) (b : List Byte) : Nat := b.foldl (fun h x => (h ^^^ x.toNat) * 0x01000193 % 2 ^ 32) h

/-- The finishing step of the index hash (R472). -/
def indexFinish (h : Nat) : Nat :=
  let h := (h ^^^ h / 2 ^ 15) * 0x2C1B3C6D % 2 ^ 32
  h ^^^ h / 2 ^ 12

/-- The index hash of bytes with a seed (R472). -/
def indexHash (seed : Nat) (b : List Byte) : Nat := indexFinish (indexAbsorb seed b)

end Sys2Proof.Machine
end

