-- ==== Sys2Proof/Config.lean ====
section
/-!
DEFINITION. What the spec leaves open: free values, each an uninterpreted constant, and the values an implementation fixes.
No proof can evaluate them, so a claim about one holds whatever it is.
-/

namespace Sys2Proof.Config

/-- A free number: the `i`-th open value that the command with number `n` produces (log entries name each use). -/
opaque freeNat (n i : Nat) : Nat

/-- The check code over a region's descriptor words (R314); the order in which the words enter is not stated.
It is a function of the words alone. -/
opaque tableCode (words : List (Nat × Word)) : Word

/-- The lines of its allocation that the search for a key reads in an LPM table that has taken in some prefixes (R914):
the prefixes as keys with their lengths in the order in which they came, the key, and its prefix length. -/
opaque lpmReads (prefixes : List (List Byte × Nat)) (key : List Byte) (plen : Nat) : List Nat

/-- The line of an LPM table's allocation that holds a prefix (R914): the prefixes as above, the prefix's key and length. -/
opaque lpmLine (prefixes : List (List Byte × Nat)) (key : List Byte) (plen : Nat) : Nat

/-- Whether an ECDSA P-384 signature verifies: digest, signature and public key hash as bytes (R819, R820).
The curve arithmetic is a function of these alone and the spec cites it without stating it. -/
opaque signatureValid (digest signature key : List Byte) : Bool

/-- The keys held in ROM (R820, R824), by life-cycle state: the X and Y of the public key that a state accepts. -/
opaque romKey (state : Nat) : List Byte

/-- The instruction-store contents of an image of region program images (R819, R822): pairs of an instruction-store fabric address and
its bytes; the format that the Oxzar loader produces is not stated. It is a function of the body alone. -/
opaque programParts (body : List Byte) : List (Nat × List Byte)

/-- What the maker of a guest die chooses (R688): byte `operand % 256` of the descriptor block that the guest at position
`operand / 256` shows. The spec leaves it to the maker; it is a function of the position alone. -/
opaque guestByte (operand : Nat) : Nat

end Sys2Proof.Config
end

