-- ==== Sys2Proof/Machine/Sparse.lean ====
section
/-!
DEFINITION. Sparse data by key: a list of key and value pairs in one canonical form.
The keys rise strictly, and no entry equals what an unlisted key reads as, so equal contents are equal lists.
-/

namespace Sys2Proof.Machine.Sparse

variable {α : Type}

/-- The value at key `k`; a key that is not listed reads as `d k`. -/
def get (d : Nat → α) : List (Nat × α) → Nat → α
  | [], k => d k
  | (a, v) :: t, k => if k = a then v else get d t k

/-- Put an entry at its place among rising keys. -/
def put : List (Nat × α) → Nat → α → List (Nat × α)
  | [], k, v => [(k, v)]
  | (a, w) :: t, k, v =>
    if k = a then (k, v) :: t
    else if k < a then (k, v) :: (a, w) :: t
    else (a, w) :: put t k v

/-- Remove the entries of key `k`. -/
def drop (m : List (Nat × α)) (k : Nat) : List (Nat × α) := m.filter (fun e => e.1 != k)

/-- Write `v` at key `k`; writing what an unlisted key reads as removes the entry. -/
def set [DecidableEq α] (d : Nat → α) (m : List (Nat × α)) (k : Nat) (v : α) : List (Nat × α) :=
  if v = d k then drop m k else put m k v

/-- The canonical form: strictly rising keys and no entry equal to its default. -/
abbrev Wf (d : Nat → α) (m : List (Nat × α)) : Prop :=
  m.Pairwise (fun a b => a.1 < b.1) ∧ ∀ e ∈ m, e.2 ≠ d e.1

/-- Rewrite every listed entry whose key satisfies `p` by `f`, keeping the canonical form. -/
def update [DecidableEq α] (d : Nat → α) (p : Nat → Bool) (f : Nat → α → α) (m : List (Nat × α)) :
    List (Nat × α) :=
  m.filterMap (fun e =>
    if p e.1 then (if f e.1 e.2 = d e.1 then none else some (e.1, f e.1 e.2)) else some e)

end Sys2Proof.Machine.Sparse
end

