-- ==== Sys2Proof/Machine/Regs.lean ====
section
/-!
DEFINITION. The register file's map: where each register stands, its fields, their access codes and their reset values,
as the register tables of the spec announce them (R23–R28, R66, R75–R77).
One descriptor per announced register, one address function and one field accessor per field.
-/

namespace Sys2Proof.Machine

/-- The access codes of R27. -/
inductive Access where
  | rw | ro | wo | w1s | w1c | rc
deriving DecidableEq, Repr

/-- One field of a register: its place, its access code, its reset value, and whether it keeps its value across resets (R28). -/
structure FieldDesc where
  lo : Nat
  width : Nat
  acc : Access
  reset : Nat
  keep : Bool
deriving DecidableEq, Repr

/-- One index of a repeated register: its first value, how many there are, and the distance between two. -/
structure Dim where
  first : Nat
  count : Nat
  stride : Nat
deriving DecidableEq, Repr

/-- One announced register (R26): the offset of index zero, its indexes and its fields. -/
structure RegDesc where
  name : String
  off : Nat
  dims : List Dim
  fields : List FieldDesc
deriving DecidableEq, Repr

/-- A named field of one register: the register's address, the low bit and the width. -/
structure Fld where
  addr : Nat
  lo : Nat
  width : Nat
deriving DecidableEq, Repr

/-- The address of region register offset `off` of region `r` (R75, R77). -/
def rgnReg (r off : Nat) : Nat := r * 0x100000000000 + 0x90000000000 + off

/-- The address of chip register offset `off` in the chip register set of region `a`; the anchor's set is the one in force (R79). -/
def chpReg (a off : Nat) : Nat := a * 0x100000000000 + 0xF0000000000 + off

/-- The address of block register offset `off` of block `b` of region `r` (R75, R76). -/
def blkReg (r b off : Nat) : Nat := r * 0x100000000000 + 0x80000000000 + b * 0x1000000 + 0xF00000 + off

/-- The key of BAR0 offset `off` of endpoint `e` (0 or 1); BAR0 is a space of its own beside the fabric addresses (R726). -/
def hstReg (e off : Nat) : Nat := 0x1000000000000 + e * 0x10000000 + off

/-- The key of CSR number `n` of the cell with global number `c` (R361); the cell CSRs are a space of their own. -/
def csrReg (c n : Nat) : Nat := 0x10000000000000 + c * 0x1000 + n

/-- CHP_ID (R67, 01_the_part_as_a_whole.md). -/
def CHP_ID (a : Nat) : Nat := chpReg a 0x0
def CHP_ID_family (a : Nat) : Fld := ⟨CHP_ID a, 20, 12⟩
def CHP_ID_form (a : Nat) : Fld := ⟨CHP_ID a, 16, 4⟩
def CHP_ID_temp_grade (a : Nat) : Fld := ⟨CHP_ID a, 14, 2⟩
def CHP_ID_pkg_step (a : Nat) : Fld := ⟨CHP_ID a, 4, 4⟩
def CHP_ID_die_step (a : Nat) : Fld := ⟨CHP_ID a, 0, 4⟩
/-- CHP_POPULATION (R68, 01_the_part_as_a_whole.md). -/
def CHP_POPULATION (a : Nat) : Nat := chpReg a 0x4
def CHP_POPULATION_hbm (a : Nat) : Fld := ⟨CHP_POPULATION a, 16, 8⟩
def CHP_POPULATION_guest (a : Nat) : Fld := ⟨CHP_POPULATION a, 8, 8⟩
def CHP_POPULATION_present (a : Nat) : Fld := ⟨CHP_POPULATION a, 0, 8⟩
/-- CHP_STRAPS (R69, 01_the_part_as_a_whole.md). -/
def CHP_STRAPS (a : Nat) : Nat := chpReg a 0x8
def CHP_STRAPS_test_en (a : Nat) : Fld := ⟨CHP_STRAPS a, 10, 1⟩
def CHP_STRAPS_boot_src (a : Nat) : Fld := ⟨CHP_STRAPS a, 9, 1⟩
def CHP_STRAPS_compat_a1 (a : Nat) : Fld := ⟨CHP_STRAPS a, 8, 1⟩
def CHP_STRAPS_anchor_alt (a : Nat) : Fld := ⟨CHP_STRAPS a, 4, 3⟩
def CHP_STRAPS_anchor_sel (a : Nat) : Fld := ⟨CHP_STRAPS a, 0, 3⟩
/-- CHP_COMPAT (R72, 01_the_part_as_a_whole.md). -/
def CHP_COMPAT (a : Nat) : Nat := chpReg a 0xC
def CHP_COMPAT_a1 (a : Nat) : Fld := ⟨CHP_COMPAT a, 0, 1⟩
/-- CHP_ID_ERR (R73, 01_the_part_as_a_whole.md). -/
def CHP_ID_ERR (a : Nat) : Nat := chpReg a 0x10
def CHP_ID_ERR_strap_conflict (a : Nat) : Fld := ⟨CHP_ID_ERR a, 2, 1⟩
def CHP_ID_ERR_compat_rejected (a : Nat) : Fld := ⟨CHP_ID_ERR a, 1, 1⟩
def CHP_ID_ERR_reg_addr_err (a : Nat) : Fld := ⟨CHP_ID_ERR a, 0, 1⟩
/-- CHP_SHUTTER_CTL (R141, 02_shutter_and_commit.md). -/
def CHP_SHUTTER_CTL (a : Nat) : Nat := chpReg a 0x30000
def CHP_SHUTTER_CTL_pps_edge (a : Nat) : Fld := ⟨CHP_SHUTTER_CTL a, 5, 1⟩
def CHP_SHUTTER_CTL_ptp_lock (a : Nat) : Fld := ⟨CHP_SHUTTER_CTL a, 4, 1⟩
def CHP_SHUTTER_CTL_period (a : Nat) : Fld := ⟨CHP_SHUTTER_CTL a, 0, 2⟩
/-- CHP_SHUTTER_STAT (R142, 02_shutter_and_commit.md). -/
def CHP_SHUTTER_STAT (a : Nat) : Nat := chpReg a 0x30004
def CHP_SHUTTER_STAT_failover (a : Nat) : Fld := ⟨CHP_SHUTTER_STAT a, 15, 1⟩
def CHP_SHUTTER_STAT_standby (a : Nat) : Fld := ⟨CHP_SHUTTER_STAT a, 12, 3⟩
def CHP_SHUTTER_STAT_anchor (a : Nat) : Fld := ⟨CHP_SHUTTER_STAT a, 8, 3⟩
def CHP_SHUTTER_STAT_lock_lost (a : Nat) : Fld := ⟨CHP_SHUTTER_STAT a, 2, 1⟩
def CHP_SHUTTER_STAT_locking (a : Nat) : Fld := ⟨CHP_SHUTTER_STAT a, 1, 1⟩
def CHP_SHUTTER_STAT_locked (a : Nat) : Fld := ⟨CHP_SHUTTER_STAT a, 0, 1⟩
/-- CHP_TICK_LO (R143, 02_shutter_and_commit.md). -/
def CHP_TICK_LO (a : Nat) : Nat := chpReg a 0x30008
def CHP_TICK_LO_tick (a : Nat) : Fld := ⟨CHP_TICK_LO a, 0, 32⟩
/-- CHP_TICK_HI (R143, 02_shutter_and_commit.md). -/
def CHP_TICK_HI (a : Nat) : Nat := chpReg a 0x3000C
def CHP_TICK_HI_tick (a : Nat) : Fld := ⟨CHP_TICK_HI a, 0, 16⟩
/-- CHP_PPS_TICK_LO (R144, 02_shutter_and_commit.md). -/
def CHP_PPS_TICK_LO (a : Nat) : Nat := chpReg a 0x30010
def CHP_PPS_TICK_LO_tick (a : Nat) : Fld := ⟨CHP_PPS_TICK_LO a, 0, 32⟩
/-- CHP_PPS_TICK_HI (R144, 02_shutter_and_commit.md). -/
def CHP_PPS_TICK_HI (a : Nat) : Nat := chpReg a 0x30014
def CHP_PPS_TICK_HI_tick (a : Nat) : Fld := ⟨CHP_PPS_TICK_HI a, 0, 16⟩
/-- CHP_COMMIT_MEMBERS (R145, 02_shutter_and_commit.md). -/
def CHP_COMMIT_MEMBERS (a : Nat) : Nat := chpReg a 0x30020
def CHP_COMMIT_MEMBERS_recovering (a : Nat) : Fld := ⟨CHP_COMMIT_MEMBERS a, 24, 8⟩
def CHP_COMMIT_MEMBERS_fenced (a : Nat) : Fld := ⟨CHP_COMMIT_MEMBERS a, 16, 8⟩
def CHP_COMMIT_MEMBERS_absent (a : Nat) : Fld := ⟨CHP_COMMIT_MEMBERS a, 8, 8⟩
def CHP_COMMIT_MEMBERS_committing (a : Nat) : Fld := ⟨CHP_COMMIT_MEMBERS a, 0, 8⟩
/-- CHP_COMMIT_LAST_LO (R146, 02_shutter_and_commit.md). -/
def CHP_COMMIT_LAST_LO (a : Nat) : Nat := chpReg a 0x30024
def CHP_COMMIT_LAST_LO_tick (a : Nat) : Fld := ⟨CHP_COMMIT_LAST_LO a, 0, 32⟩
/-- CHP_COMMIT_LAST_HI (R146, 02_shutter_and_commit.md). -/
def CHP_COMMIT_LAST_HI (a : Nat) : Nat := chpReg a 0x30028
def CHP_COMMIT_LAST_HI_tick (a : Nat) : Fld := ⟨CHP_COMMIT_LAST_HI a, 0, 16⟩
/-- CHP_COMMIT_ERR (R147, 02_shutter_and_commit.md). -/
def CHP_COMMIT_ERR (a : Nat) : Nat := chpReg a 0x30030
def CHP_COMMIT_ERR_cfg_rejected (a : Nat) : Fld := ⟨CHP_COMMIT_ERR a, 6, 1⟩
def CHP_COMMIT_ERR_swap_rejected (a : Nat) : Fld := ⟨CHP_COMMIT_ERR a, 5, 1⟩
def CHP_COMMIT_ERR_period_rejected (a : Nat) : Fld := ⟨CHP_COMMIT_ERR a, 4, 1⟩
def CHP_COMMIT_ERR_commit_gap (a : Nat) : Fld := ⟨CHP_COMMIT_ERR a, 3, 1⟩
def CHP_COMMIT_ERR_region_absent (a : Nat) : Fld := ⟨CHP_COMMIT_ERR a, 2, 1⟩
def CHP_COMMIT_ERR_late_seal (a : Nat) : Fld := ⟨CHP_COMMIT_ERR a, 1, 1⟩
def CHP_COMMIT_ERR_reg_addr_err (a : Nat) : Fld := ⟨CHP_COMMIT_ERR a, 0, 1⟩
/-- CHP_PANE_CTL (R148, 02_shutter_and_commit.md). -/
def CHP_PANE_CTL (a : Nat) : Nat := chpReg a 0x30040
def CHP_PANE_CTL_force_free (a : Nat) : Fld := ⟨CHP_PANE_CTL a, 1, 1⟩
def CHP_PANE_CTL_swap (a : Nat) : Fld := ⟨CHP_PANE_CTL a, 0, 1⟩
/-- CHP_PANE_AT_LO (R149, 02_shutter_and_commit.md). -/
def CHP_PANE_AT_LO (a : Nat) : Nat := chpReg a 0x30044
def CHP_PANE_AT_LO_tick (a : Nat) : Fld := ⟨CHP_PANE_AT_LO a, 0, 32⟩
/-- CHP_PANE_AT_HI (R149, 02_shutter_and_commit.md). -/
def CHP_PANE_AT_HI (a : Nat) : Nat := chpReg a 0x30048
def CHP_PANE_AT_HI_tick (a : Nat) : Fld := ⟨CHP_PANE_AT_HI a, 0, 16⟩
/-- CHP_PANE_CODE (R149, 02_shutter_and_commit.md). -/
def CHP_PANE_CODE (a : Nat) : Nat := chpReg a 0x3004C
def CHP_PANE_CODE_code (a : Nat) : Fld := ⟨CHP_PANE_CODE a, 0, 32⟩
/-- CHP_PANE_STAT (R150, 02_shutter_and_commit.md). -/
def CHP_PANE_STAT (a : Nat) : Nat := chpReg a 0x30050
def CHP_PANE_STAT_generation (a : Nat) : Fld := ⟨CHP_PANE_STAT a, 20, 8⟩
def CHP_PANE_STAT_reject_cause (a : Nat) : Fld := ⟨CHP_PANE_STAT a, 16, 4⟩
def CHP_PANE_STAT_pending (a : Nat) : Fld := ⟨CHP_PANE_STAT a, 5, 1⟩
def CHP_PANE_STAT_active (a : Nat) : Fld := ⟨CHP_PANE_STAT a, 4, 1⟩
def CHP_PANE_STAT_pane1_state (a : Nat) : Fld := ⟨CHP_PANE_STAT a, 2, 2⟩
def CHP_PANE_STAT_pane0_state (a : Nat) : Fld := ⟨CHP_PANE_STAT a, 0, 2⟩
/-- RGN_SHUTTER_STAT (R151, 02_shutter_and_commit.md). -/
def RGN_SHUTTER_STAT (r : Nat) : Nat := rgnReg r 0xB00000
def RGN_SHUTTER_STAT_offset (r : Nat) : Fld := ⟨RGN_SHUTTER_STAT r, 16, 16⟩
def RGN_SHUTTER_STAT_holdover (r : Nat) : Fld := ⟨RGN_SHUTTER_STAT r, 7, 1⟩
def RGN_SHUTTER_STAT_misaligned (r : Nat) : Fld := ⟨RGN_SHUTTER_STAT r, 6, 1⟩
def RGN_SHUTTER_STAT_tick_mismatch (r : Nat) : Fld := ⟨RGN_SHUTTER_STAT r, 5, 1⟩
def RGN_SHUTTER_STAT_parent (r : Nat) : Fld := ⟨RGN_SHUTTER_STAT r, 0, 3⟩
/-- RGN_COMMIT_CTL (R152, 02_shutter_and_commit.md). -/
def RGN_COMMIT_CTL (r : Nat) : Nat := rgnReg r 0xB00004
def RGN_COMMIT_CTL_host_reserve (r : Nat) : Fld := ⟨RGN_COMMIT_CTL r, 0, 8⟩
/-- RGN_STAGE_STAT (R153, 02_shutter_and_commit.md). -/
def RGN_STAGE_STAT (r : Nat) : Nat := rgnReg r 0xB00008
def RGN_STAGE_STAT_last_sealed (r : Nat) : Fld := ⟨RGN_STAGE_STAT r, 16, 8⟩
def RGN_STAGE_STAT_staged (r : Nat) : Fld := ⟨RGN_STAGE_STAT r, 8, 8⟩
def RGN_STAGE_STAT_late_run (r : Nat) : Fld := ⟨RGN_STAGE_STAT r, 0, 2⟩
/-- RGN_COMMIT_ERR (R154, 02_shutter_and_commit.md). -/
def RGN_COMMIT_ERR (r : Nat) : Nat := rgnReg r 0xB0000C
def RGN_COMMIT_ERR_cfg_rejected (r : Nat) : Fld := ⟨RGN_COMMIT_ERR r, 6, 1⟩
def RGN_COMMIT_ERR_commit_missing (r : Nat) : Fld := ⟨RGN_COMMIT_ERR r, 5, 1⟩
def RGN_COMMIT_ERR_record_missing (r : Nat) : Fld := ⟨RGN_COMMIT_ERR r, 4, 1⟩
def RGN_COMMIT_ERR_stage_full (r : Nat) : Fld := ⟨RGN_COMMIT_ERR r, 3, 1⟩
def RGN_COMMIT_ERR_superseded (r : Nat) : Fld := ⟨RGN_COMMIT_ERR r, 2, 1⟩
def RGN_COMMIT_ERR_late_seal (r : Nat) : Fld := ⟨RGN_COMMIT_ERR r, 1, 1⟩
def RGN_COMMIT_ERR_reg_addr_err (r : Nat) : Fld := ⟨RGN_COMMIT_ERR r, 0, 1⟩
/-- RGN_PANE_STAT (R155, 02_shutter_and_commit.md). -/
def RGN_PANE_STAT (r : Nat) : Nat := rgnReg r 0xB00010
def RGN_PANE_STAT_inflight_retiring (r : Nat) : Fld := ⟨RGN_PANE_STAT r, 16, 16⟩
def RGN_PANE_STAT_active (r : Nat) : Fld := ⟨RGN_PANE_STAT r, 4, 1⟩
def RGN_PANE_STAT_pane1_state (r : Nat) : Fld := ⟨RGN_PANE_STAT r, 2, 2⟩
def RGN_PANE_STAT_pane0_state (r : Nat) : Fld := ⟨RGN_PANE_STAT r, 0, 2⟩
/-- RGN_PANE_CODE0 (R156, 02_shutter_and_commit.md). -/
def RGN_PANE_CODE0 (r : Nat) : Nat := rgnReg r 0xB00014
def RGN_PANE_CODE0_code (r : Nat) : Fld := ⟨RGN_PANE_CODE0 r, 0, 32⟩
/-- RGN_PANE_CODE1 (R156, 02_shutter_and_commit.md). -/
def RGN_PANE_CODE1 (r : Nat) : Nat := rgnReg r 0xB00018
def RGN_PANE_CODE1_code (r : Nat) : Fld := ⟨RGN_PANE_CODE1 r, 0, 32⟩
/-- RGN_RECON_STAT (R157, 02_shutter_and_commit.md). -/
def RGN_RECON_STAT (r : Nat) : Nat := rgnReg r 0xB0001C
def RGN_RECON_STAT_backlog (r : Nat) : Fld := ⟨RGN_RECON_STAT r, 16, 16⟩
def RGN_RECON_STAT_quiet_ticks (r : Nat) : Fld := ⟨RGN_RECON_STAT r, 0, 16⟩
/-- RGN_OD_MAP (R202, 03_packet_journey_and_order.md). -/
def RGN_OD_MAP (r i : Nat) : Nat := rgnReg r (0x308000 + i * 0x4)
def RGN_OD_MAP_profile (r i : Nat) : Fld := ⟨RGN_OD_MAP r i, 0, 6⟩
/-- RGN_OD_PROFILE (R203, 03_packet_journey_and_order.md). -/
def RGN_OD_PROFILE (r i : Nat) : Nat := rgnReg r (0x308200 + i * 0x4)
def RGN_OD_PROFILE_eff_transit (r i : Nat) : Fld := ⟨RGN_OD_PROFILE r i, 16, 4⟩
def RGN_OD_PROFILE_max_passes (r i : Nat) : Fld := ⟨RGN_OD_PROFILE r i, 8, 3⟩
def RGN_OD_PROFILE_transit (r i : Nat) : Fld := ⟨RGN_OD_PROFILE r i, 0, 4⟩
/-- RGN_RECIRC_CTL (R204, 03_packet_journey_and_order.md). -/
def RGN_RECIRC_CTL (r : Nat) : Nat := rgnReg r 0x308300
def RGN_RECIRC_CTL_share (r : Nat) : Fld := ⟨RGN_RECIRC_CTL r, 0, 14⟩
/-- RGN_INFLIGHT (R205, 03_packet_journey_and_order.md). -/
def RGN_INFLIGHT (r : Nat) : Nat := rgnReg r 0x5F0000
def RGN_INFLIGHT_count (r : Nat) : Fld := ⟨RGN_INFLIGHT r, 0, 20⟩
/-- RGN_RELEASE_STAT (R206, 03_packet_journey_and_order.md). -/
def RGN_RELEASE_STAT (r : Nat) : Nat := rgnReg r 0x5F0004
def RGN_RELEASE_STAT_recirc_refused (r : Nat) : Fld := ⟨RGN_RELEASE_STAT r, 22, 8⟩
def RGN_RELEASE_STAT_recirc_limit (r : Nat) : Fld := ⟨RGN_RELEASE_STAT r, 14, 8⟩
def RGN_RELEASE_STAT_released (r : Nat) : Fld := ⟨RGN_RELEASE_STAT r, 0, 14⟩
/-- RGN_RELEASE_ERR (R207, 03_packet_journey_and_order.md). -/
def RGN_RELEASE_ERR (r : Nat) : Nat := rgnReg r 0x5F0008
def RGN_RELEASE_ERR_profile_rejected (r : Nat) : Fld := ⟨RGN_RELEASE_ERR r, 5, 1⟩
def RGN_RELEASE_ERR_oversize (r : Nat) : Fld := ⟨RGN_RELEASE_ERR r, 4, 1⟩
def RGN_RELEASE_ERR_rewrite_invalid (r : Nat) : Fld := ⟨RGN_RELEASE_ERR r, 3, 1⟩
def RGN_RELEASE_ERR_list_full (r : Nat) : Fld := ⟨RGN_RELEASE_ERR r, 2, 1⟩
def RGN_RELEASE_ERR_release_late (r : Nat) : Fld := ⟨RGN_RELEASE_ERR r, 1, 1⟩
def RGN_RELEASE_ERR_reg_addr_err (r : Nat) : Fld := ⟨RGN_RELEASE_ERR r, 0, 1⟩
/-- RGN_DROP_LO (R208, 03_packet_journey_and_order.md). -/
def RGN_DROP_LO (r i : Nat) : Nat := rgnReg r (0x5F0100 + i * 0x8)
def RGN_DROP_LO_count (r i : Nat) : Fld := ⟨RGN_DROP_LO r i, 0, 32⟩
/-- RGN_DROP_HI (R208, 03_packet_journey_and_order.md). -/
def RGN_DROP_HI (r i : Nat) : Nat := rgnReg r (0x5F0104 + i * 0x8)
def RGN_DROP_HI_count (r i : Nat) : Fld := ⟨RGN_DROP_HI r i, 0, 16⟩
/-- RGN_FE_CTL (R244, 04_pricking_parser.md). -/
def RGN_FE_CTL (r : Nat) : Nat := rgnReg r 0x300000
def RGN_FE_CTL_fe_enable (r : Nat) : Fld := ⟨RGN_FE_CTL r, 0, 4⟩
/-- RGN_FE_STAT (R245, 04_pricking_parser.md). -/
def RGN_FE_STAT (r : Nat) : Nat := rgnReg r 0x300004
def RGN_FE_STAT_spare_slots (r : Nat) : Fld := ⟨RGN_FE_STAT r, 4, 14⟩
def RGN_FE_STAT_fe_active (r : Nat) : Fld := ⟨RGN_FE_STAT r, 0, 4⟩
/-- RGN_PANE_WR (R246, 04_pricking_parser.md). -/
def RGN_PANE_WR (r : Nat) : Nat := rgnReg r 0x300008
def RGN_PANE_WR_in_progress (r : Nat) : Fld := ⟨RGN_PANE_WR r, 8, 1⟩
def RGN_PANE_WR_pane (r : Nat) : Fld := ⟨RGN_PANE_WR r, 4, 1⟩
def RGN_PANE_WR_close (r : Nat) : Fld := ⟨RGN_PANE_WR r, 1, 1⟩
def RGN_PANE_WR_open (r : Nat) : Fld := ⟨RGN_PANE_WR r, 0, 1⟩
/-- RGN_PRK_DIV (R247, 04_pricking_parser.md). -/
def RGN_PRK_DIV (r : Nat) : Nat := rgnReg r 0x30000C
def RGN_PRK_DIV_trans_limit (r : Nat) : Fld := ⟨RGN_PRK_DIV r, 0, 12⟩
/-- RGN_PRK_REJ (R248, 04_pricking_parser.md). -/
def RGN_PRK_REJ (r : Nat) : Nat := rgnReg r 0x300010
def RGN_PRK_REJ_cause (r : Nat) : Fld := ⟨RGN_PRK_REJ r, 28, 4⟩
def RGN_PRK_REJ_pane (r : Nat) : Fld := ⟨RGN_PRK_REJ r, 16, 1⟩
def RGN_PRK_REJ_kind (r : Nat) : Fld := ⟨RGN_PRK_REJ r, 12, 2⟩
def RGN_PRK_REJ_index (r : Nat) : Fld := ⟨RGN_PRK_REJ r, 0, 11⟩
/-- RGN_FE_ERR (R249, 04_pricking_parser.md). -/
def RGN_FE_ERR (r : Nat) : Nat := rgnReg r 0x300014
def RGN_FE_ERR_cfg_rejected (r : Nat) : Fld := ⟨RGN_FE_ERR r, 5, 1⟩
def RGN_FE_ERR_poisoned_read (r : Nat) : Fld := ⟨RGN_FE_ERR r, 4, 1⟩
def RGN_FE_ERR_fe_ctl_rejected (r : Nat) : Fld := ⟨RGN_FE_ERR r, 3, 1⟩
def RGN_FE_ERR_close_failed (r : Nat) : Fld := ⟨RGN_FE_ERR r, 2, 1⟩
def RGN_FE_ERR_write_rejected (r : Nat) : Fld := ⟨RGN_FE_ERR r, 1, 1⟩
def RGN_FE_ERR_reg_addr_err (r : Nat) : Fld := ⟨RGN_FE_ERR r, 0, 1⟩
/-- RGN_PARSE_CNT (R250, 04_pricking_parser.md). -/
def RGN_PARSE_CNT (r i : Nat) : Nat := rgnReg r (0x300020 + i * 0x4)
def RGN_PARSE_CNT_count (r i : Nat) : Fld := ⟨RGN_PARSE_CNT r i, 0, 32⟩
/-- RGN_CLS_DIV0 (R293, 05_classification_and_actions.md). -/
def RGN_CLS_DIV0 (r : Nat) : Nat := rgnReg r 0x300040
def RGN_CLS_DIV0_tmpl_units (r : Nat) : Fld := ⟨RGN_CLS_DIV0 r, 20, 6⟩
def RGN_CLS_DIV0_aset_units (r : Nat) : Fld := ⟨RGN_CLS_DIV0 r, 15, 5⟩
def RGN_CLS_DIV0_rule_units (r : Nat) : Fld := ⟨RGN_CLS_DIV0 r, 8, 7⟩
def RGN_CLS_DIV0_trans_units (r : Nat) : Fld := ⟨RGN_CLS_DIV0 r, 0, 4⟩
/-- RGN_CLS_DIV1 (R293, 05_classification_and_actions.md). -/
def RGN_CLS_DIV1 (r : Nat) : Nat := rgnReg r 0x300044
def RGN_CLS_DIV1_tmpl_units (r : Nat) : Fld := ⟨RGN_CLS_DIV1 r, 20, 6⟩
def RGN_CLS_DIV1_aset_units (r : Nat) : Fld := ⟨RGN_CLS_DIV1 r, 15, 5⟩
def RGN_CLS_DIV1_rule_units (r : Nat) : Fld := ⟨RGN_CLS_DIV1 r, 8, 7⟩
def RGN_CLS_DIV1_trans_units (r : Nat) : Fld := ⟨RGN_CLS_DIV1 r, 0, 4⟩
/-- RGN_CLS_REJ (R294, 05_classification_and_actions.md). -/
def RGN_CLS_REJ (r : Nat) : Nat := rgnReg r 0x300048
def RGN_CLS_REJ_cause (r : Nat) : Fld := ⟨RGN_CLS_REJ r, 28, 4⟩
def RGN_CLS_REJ_pane (r : Nat) : Fld := ⟨RGN_CLS_REJ r, 16, 1⟩
def RGN_CLS_REJ_kind (r : Nat) : Fld := ⟨RGN_CLS_REJ r, 13, 3⟩
def RGN_CLS_REJ_index (r : Nat) : Fld := ⟨RGN_CLS_REJ r, 0, 12⟩
/-- RGN_CLS_ERR (R295, 05_classification_and_actions.md). -/
def RGN_CLS_ERR (r : Nat) : Nat := rgnReg r 0x30004C
def RGN_CLS_ERR_mirror_excess (r : Nat) : Fld := ⟨RGN_CLS_ERR r, 2, 1⟩
def RGN_CLS_ERR_front_overflow (r : Nat) : Fld := ⟨RGN_CLS_ERR r, 1, 1⟩
def RGN_CLS_ERR_div_rejected (r : Nat) : Fld := ⟨RGN_CLS_ERR r, 0, 1⟩
/-- RGN_CLS_HIT (R296, 05_classification_and_actions.md). -/
def RGN_CLS_HIT (r i : Nat) : Nat := rgnReg r (0x300060 + i * 0x4)
def RGN_CLS_HIT_count (r i : Nat) : Fld := ⟨RGN_CLS_HIT r i, 0, 32⟩
/-- RGN_TBL_CODE (R346, 06_tables_and_learning.md). -/
def RGN_TBL_CODE (r : Nat) : Nat := rgnReg r 0x400000
def RGN_TBL_CODE_code (r : Nat) : Fld := ⟨RGN_TBL_CODE r, 0, 32⟩
/-- RGN_TBL_ERR (R347, 06_tables_and_learning.md). -/
def RGN_TBL_ERR (r : Nat) : Nat := rgnReg r 0x400004
def RGN_TBL_ERR_cfg_rejected (r : Nat) : Fld := ⟨RGN_TBL_ERR r, 7, 1⟩
def RGN_TBL_ERR_repair_fence (r : Nat) : Fld := ⟨RGN_TBL_ERR r, 6, 1⟩
def RGN_TBL_ERR_repair_stalled (r : Nat) : Fld := ⟨RGN_TBL_ERR r, 5, 1⟩
def RGN_TBL_ERR_bank_parity (r : Nat) : Fld := ⟨RGN_TBL_ERR r, 4, 1⟩
def RGN_TBL_ERR_parity (r : Nat) : Fld := ⟨RGN_TBL_ERR r, 3, 1⟩
def RGN_TBL_ERR_age_slow (r : Nat) : Fld := ⟨RGN_TBL_ERR r, 2, 1⟩
def RGN_TBL_ERR_desc_rejected (r : Nat) : Fld := ⟨RGN_TBL_ERR r, 1, 1⟩
def RGN_TBL_ERR_reg_addr_err (r : Nat) : Fld := ⟨RGN_TBL_ERR r, 0, 1⟩
/-- RGN_TBL_REPAIR (R348, 06_tables_and_learning.md). -/
def RGN_TBL_REPAIR (r : Nat) : Nat := rgnReg r 0x400008
def RGN_TBL_REPAIR_repaired (r : Nat) : Fld := ⟨RGN_TBL_REPAIR r, 16, 16⟩
def RGN_TBL_REPAIR_bad_lines (r : Nat) : Fld := ⟨RGN_TBL_REPAIR r, 0, 16⟩
/-- RGN_TBL_BADLINE (R349, 06_tables_and_learning.md). -/
def RGN_TBL_BADLINE (r : Nat) : Nat := rgnReg r 0x40000C
def RGN_TBL_BADLINE_line (r : Nat) : Fld := ⟨RGN_TBL_BADLINE r, 0, 29⟩
/-- RGN_TBL_BADTABLE (R350, 06_tables_and_learning.md). -/
def RGN_TBL_BADTABLE (r : Nat) : Nat := rgnReg r 0x400018
def RGN_TBL_BADTABLE_table (r : Nat) : Fld := ⟨RGN_TBL_BADTABLE r, 0, 8⟩
/-- RGN_AGE_CTL (R351, 06_tables_and_learning.md). -/
def RGN_AGE_CTL (r : Nat) : Nat := rgnReg r 0x400010
def RGN_AGE_CTL_scan_rate (r : Nat) : Fld := ⟨RGN_AGE_CTL r, 0, 13⟩
/-- RGN_AGE_STAT (R352, 06_tables_and_learning.md). -/
def RGN_AGE_STAT (r : Nat) : Nat := rgnReg r 0x400014
def RGN_AGE_STAT_sweep_ticks (r : Nat) : Fld := ⟨RGN_AGE_STAT r, 0, 32⟩
/-- RGN_TBL_TYPE (R353, 06_tables_and_learning.md). -/
def RGN_TBL_TYPE (r i : Nat) : Nat := rgnReg r (0x401000 + i * 0x10)
def RGN_TBL_TYPE_type (r i : Nat) : Fld := ⟨RGN_TBL_TYPE r i, 28, 4⟩
def RGN_TBL_TYPE_place (r i : Nat) : Fld := ⟨RGN_TBL_TYPE r i, 27, 1⟩
def RGN_TBL_TYPE_key_len (r i : Nat) : Fld := ⟨RGN_TBL_TYPE r i, 21, 6⟩
def RGN_TBL_TYPE_data_len (r i : Nat) : Fld := ⟨RGN_TBL_TYPE r i, 16, 5⟩
def RGN_TBL_TYPE_prog_ok (r i : Nat) : Fld := ⟨RGN_TBL_TYPE r i, 15, 1⟩
def RGN_TBL_TYPE_alias (r i : Nat) : Fld := ⟨RGN_TBL_TYPE r i, 0, 8⟩
/-- RGN_TBL_ALLOC (R353, 06_tables_and_learning.md). -/
def RGN_TBL_ALLOC (r i : Nat) : Nat := rgnReg r (0x401004 + i * 0x10)
def RGN_TBL_ALLOC_base (r i : Nat) : Fld := ⟨RGN_TBL_ALLOC r i, 16, 16⟩
def RGN_TBL_ALLOC_size (r i : Nat) : Fld := ⟨RGN_TBL_ALLOC r i, 0, 16⟩
/-- RGN_TBL_AGE (R353, 06_tables_and_learning.md). -/
def RGN_TBL_AGE (r i : Nat) : Nat := rgnReg r (0x401008 + i * 0x10)
def RGN_TBL_AGE_age_en (r i : Nat) : Fld := ⟨RGN_TBL_AGE r i, 31, 1⟩
def RGN_TBL_AGE_age_q (r i : Nat) : Fld := ⟨RGN_TBL_AGE r i, 26, 5⟩
def RGN_TBL_AGE_age_limit (r i : Nat) : Fld := ⟨RGN_TBL_AGE r i, 14, 12⟩
/-- RGN_TBL_SEED (R353, 06_tables_and_learning.md). -/
def RGN_TBL_SEED (r i : Nat) : Nat := rgnReg r (0x40100C + i * 0x10)
def RGN_TBL_SEED_seed (r i : Nat) : Fld := ⟨RGN_TBL_SEED r i, 0, 32⟩
/-- RGN_LEARN_CFG (R354, 06_tables_and_learning.md). -/
def RGN_LEARN_CFG (r i : Nat) : Nat := rgnReg r (0x402000 + i * 0x20)
def RGN_LEARN_CFG_learn_default (r i : Nat) : Fld := ⟨RGN_LEARN_CFG r i, 31, 1⟩
def RGN_LEARN_CFG_excess_flood (r i : Nat) : Fld := ⟨RGN_LEARN_CFG r i, 30, 1⟩
def RGN_LEARN_CFG_burst (r i : Nat) : Fld := ⟨RGN_LEARN_CFG r i, 16, 14⟩
def RGN_LEARN_CFG_rate (r i : Nat) : Fld := ⟨RGN_LEARN_CFG r i, 0, 16⟩
/-- CEL_SLOT (R414, 07_cells_and_threads.md). -/
def CEL_SLOT (c i : Nat) : Nat := csrReg c (0x7C0 + i * 0x1)
def CEL_SLOT_e3 (c i : Nat) : Fld := ⟨CEL_SLOT c i, 24, 5⟩
def CEL_SLOT_e2 (c i : Nat) : Fld := ⟨CEL_SLOT c i, 16, 5⟩
def CEL_SLOT_e1 (c i : Nat) : Fld := ⟨CEL_SLOT c i, 8, 5⟩
def CEL_SLOT_e0 (c i : Nat) : Fld := ⟨CEL_SLOT c i, 0, 5⟩
/-- CEL_SLOT_CTL (R415, 07_cells_and_threads.md). -/
def CEL_SLOT_CTL (c : Nat) : Nat := csrReg c 0x7C8
def CEL_SLOT_CTL_rejected (c : Nat) : Fld := ⟨CEL_SLOT_CTL c, 2, 1⟩
def CEL_SLOT_CTL_pending (c : Nat) : Fld := ⟨CEL_SLOT_CTL c, 1, 1⟩
def CEL_SLOT_CTL_apply (c : Nat) : Fld := ⟨CEL_SLOT_CTL c, 0, 1⟩
/-- CEL_THR_SEL (R416, 07_cells_and_threads.md). -/
def CEL_THR_SEL (c : Nat) : Nat := csrReg c 0x7C9
def CEL_THR_SEL_ctx (c : Nat) : Fld := ⟨CEL_THR_SEL c, 0, 5⟩
/-- CEL_THR_CFG (R417, 07_cells_and_threads.md). -/
def CEL_THR_CFG (c : Nat) : Nat := csrReg c 0x7CA
def CEL_THR_CFG_background (c : Nat) : Fld := ⟨CEL_THR_CFG c, 1, 1⟩
def CEL_THR_CFG_enable (c : Nat) : Fld := ⟨CEL_THR_CFG c, 0, 1⟩
/-- CEL_THR_STAT (R418, 07_cells_and_threads.md). -/
def CEL_THR_STAT (c : Nat) : Nat := csrReg c 0x7CB
def CEL_THR_STAT_generation (c : Nat) : Fld := ⟨CEL_THR_STAT c, 24, 7⟩
def CEL_THR_STAT_index (c : Nat) : Fld := ⟨CEL_THR_STAT c, 16, 2⟩
def CEL_THR_STAT_packet (c : Nat) : Fld := ⟨CEL_THR_STAT c, 15, 1⟩
def CEL_THR_STAT_state (c : Nat) : Fld := ⟨CEL_THR_STAT c, 0, 4⟩
/-- CEL_THR_PC (R419, 07_cells_and_threads.md). -/
def CEL_THR_PC (c : Nat) : Nat := csrReg c 0x7CC
def CEL_THR_PC_pc (c : Nat) : Fld := ⟨CEL_THR_PC c, 0, 32⟩
/-- CEL_THR_SP (R419, 07_cells_and_threads.md). -/
def CEL_THR_SP (c : Nat) : Nat := csrReg c 0x7CD
def CEL_THR_SP_sp (c : Nat) : Fld := ⟨CEL_THR_SP c, 0, 32⟩
/-- CEL_FAULT_TVAL (R419, 07_cells_and_threads.md). -/
def CEL_FAULT_TVAL (c : Nat) : Nat := csrReg c 0x7D0
def CEL_FAULT_TVAL_tval (c : Nat) : Fld := ⟨CEL_FAULT_TVAL c, 0, 32⟩
/-- CEL_THR_CTL (R420, 07_cells_and_threads.md). -/
def CEL_THR_CTL (c : Nat) : Nat := csrReg c 0x7CE
def CEL_THR_CTL_halt (c : Nat) : Fld := ⟨CEL_THR_CTL c, 2, 1⟩
def CEL_THR_CTL_resume (c : Nat) : Fld := ⟨CEL_THR_CTL c, 1, 1⟩
def CEL_THR_CTL_reset (c : Nat) : Fld := ⟨CEL_THR_CTL c, 0, 1⟩
/-- CEL_FAULT_PEND (R421, 07_cells_and_threads.md). -/
def CEL_FAULT_PEND (c : Nat) : Nat := csrReg c 0x7CF
def CEL_FAULT_PEND_pend (c : Nat) : Fld := ⟨CEL_FAULT_PEND c, 0, 16⟩
/-- CEL_FAULT_CAUSE (R422, 07_cells_and_threads.md). -/
def CEL_FAULT_CAUSE (c : Nat) : Nat := csrReg c 0x7D1
def CEL_FAULT_CAUSE_valid (c : Nat) : Fld := ⟨CEL_FAULT_CAUSE c, 31, 1⟩
def CEL_FAULT_CAUSE_cause (c : Nat) : Fld := ⟨CEL_FAULT_CAUSE c, 0, 8⟩
/-- CEL_ICACHE_CTL (R423, 07_cells_and_threads.md). -/
def CEL_ICACHE_CTL (c : Nat) : Nat := csrReg c 0x7D2
def CEL_ICACHE_CTL_lock (c : Nat) : Fld := ⟨CEL_ICACHE_CTL c, 1, 1⟩
def CEL_ICACHE_CTL_invalidate (c : Nat) : Fld := ⟨CEL_ICACHE_CTL c, 0, 1⟩
/-- CEL_FABWIN_LO (R425, 07_cells_and_threads.md). -/
def CEL_FABWIN_LO (c : Nat) : Nat := csrReg c 0x7D4
def CEL_FABWIN_LO_base (c : Nat) : Fld := ⟨CEL_FABWIN_LO c, 31, 1⟩
/-- CEL_FABWIN_HI (R425, 07_cells_and_threads.md). -/
def CEL_FABWIN_HI (c : Nat) : Nat := csrReg c 0x7D5
def CEL_FABWIN_HI_base (c : Nat) : Fld := ⟨CEL_FABWIN_HI c, 0, 16⟩
/-- CEL_CTX_ID (R426, 07_cells_and_threads.md). -/
def CEL_CTX_ID (c : Nat) : Nat := csrReg c 0x800
def CEL_CTX_ID_id (c : Nat) : Fld := ⟨CEL_CTX_ID c, 0, 32⟩
/-- CEL_PKT (R426, 07_cells_and_threads.md). -/
def CEL_PKT (c : Nat) : Nat := csrReg c 0x801
def CEL_PKT_pass (c : Nat) : Fld := ⟨CEL_PKT c, 20, 3⟩
def CEL_PKT_index (c : Nat) : Fld := ⟨CEL_PKT c, 16, 2⟩
def CEL_PKT_window (c : Nat) : Fld := ⟨CEL_PKT c, 0, 16⟩
/-- CEL_BUDGET (R426, 07_cells_and_threads.md). -/
def CEL_BUDGET (c : Nat) : Nat := csrReg c 0x802
def CEL_BUDGET_used (c : Nat) : Fld := ⟨CEL_BUDGET c, 16, 16⟩
def CEL_BUDGET_budget (c : Nat) : Fld := ⟨CEL_BUDGET c, 0, 16⟩
/-- CEL_EVENTS (R426, 07_cells_and_threads.md). -/
def CEL_EVENTS (c : Nat) : Nat := csrReg c 0x803
def CEL_EVENTS_events (c : Nat) : Fld := ⟨CEL_EVENTS c, 0, 32⟩
/-- CEL_STAMP0 (R426, 07_cells_and_threads.md). -/
def CEL_STAMP0 (c : Nat) : Nat := csrReg c 0x804
def CEL_STAMP0_stamp (c : Nat) : Fld := ⟨CEL_STAMP0 c, 0, 32⟩
/-- CEL_STAMP1 (R426, 07_cells_and_threads.md). -/
def CEL_STAMP1 (c : Nat) : Nat := csrReg c 0x805
def CEL_STAMP1_stamp (c : Nat) : Fld := ⟨CEL_STAMP1 c, 0, 32⟩
/-- CEL_STAMP2 (R426, 07_cells_and_threads.md). -/
def CEL_STAMP2 (c : Nat) : Nat := csrReg c 0x806
def CEL_STAMP2_stamp (c : Nat) : Fld := ⟨CEL_STAMP2 c, 0, 32⟩
/-- BLK_PKT_CFG (R427, 07_cells_and_threads.md). -/
def BLK_PKT_CFG (r b : Nat) : Nat := blkReg r b 0x0
def BLK_PKT_CFG_p_code (r b : Nat) : Fld := ⟨BLK_PKT_CFG r b, 0, 2⟩
/-- BLK_BUDGET (R428, 07_cells_and_threads.md). -/
def BLK_BUDGET (r b : Nat) : Nat := blkReg r b 0x4
def BLK_BUDGET_w_min (r b : Nat) : Fld := ⟨BLK_BUDGET r b, 16, 6⟩
def BLK_BUDGET_budget (r b : Nat) : Fld := ⟨BLK_BUDGET r b, 0, 16⟩
/-- BLK_CELL_RUN (R429, 07_cells_and_threads.md). -/
def BLK_CELL_RUN (r b : Nat) : Nat := blkReg r b 0x8
def BLK_CELL_RUN_run (r b : Nat) : Fld := ⟨BLK_CELL_RUN r b, 0, 8⟩
/-- BLK_SUP_ENTRY (R430, 07_cells_and_threads.md). -/
def BLK_SUP_ENTRY (r b : Nat) : Nat := blkReg r b 0xC
def BLK_SUP_ENTRY_entry (r b : Nat) : Fld := ⟨BLK_SUP_ENTRY r b, 0, 17⟩
/-- BLK_OVERRUN (R431, 07_cells_and_threads.md). -/
def BLK_OVERRUN (r b : Nat) : Nat := blkReg r b 0x10
def BLK_OVERRUN_detained (r b : Nat) : Fld := ⟨BLK_OVERRUN r b, 16, 16⟩
def BLK_OVERRUN_overrun (r b : Nat) : Fld := ⟨BLK_OVERRUN r b, 0, 16⟩
/-- BLK_OVER_BUDGET (R431, 07_cells_and_threads.md). -/
def BLK_OVER_BUDGET (r b : Nat) : Nat := blkReg r b 0x14
def BLK_OVER_BUDGET_count (r b : Nat) : Fld := ⟨BLK_OVER_BUDGET r b, 0, 32⟩
/-- BLK_CORE_ERR (R432, 07_cells_and_threads.md). -/
def BLK_CORE_ERR (r b : Nat) : Nat := blkReg r b 0x18
def BLK_CORE_ERR_verdict_invalid (r b : Nat) : Fld := ⟨BLK_CORE_ERR r b, 3, 1⟩
def BLK_CORE_ERR_over_budget (r b : Nat) : Fld := ⟨BLK_CORE_ERR r b, 2, 1⟩
def BLK_CORE_ERR_cfg_rejected (r b : Nat) : Fld := ⟨BLK_CORE_ERR r b, 1, 1⟩
def BLK_CORE_ERR_reg_addr_err (r b : Nat) : Fld := ⟨BLK_CORE_ERR r b, 0, 1⟩
/-- CEL_CPXEN (R480, 08_channels_latches_coprocessor.md). -/
def CEL_CPXEN (c : Nat) : Nat := csrReg c 0x7D3
def CEL_CPXEN_m_en (c : Nat) : Fld := ⟨CEL_CPXEN c, 1, 1⟩
def CEL_CPXEN_u_en (c : Nat) : Fld := ⟨CEL_CPXEN c, 0, 1⟩
/-- CEL_CPX_STAT (R481, 08_channels_latches_coprocessor.md). -/
def CEL_CPX_STAT (c : Nat) : Nat := csrReg c 0x807
def CEL_CPX_STAT_err (c : Nat) : Fld := ⟨CEL_CPX_STAT c, 31, 1⟩
def CEL_CPX_STAT_code (c : Nat) : Fld := ⟨CEL_CPX_STAT c, 0, 8⟩
/-- BLK_CH_CFG (R482, 08_channels_latches_coprocessor.md). -/
def BLK_CH_CFG (r b i : Nat) : Nat := blkReg r b (0x1000 + i * 0x8)
def BLK_CH_CFG_enable (r b i : Nat) : Fld := ⟨BLK_CH_CFG r b i, 31, 1⟩
def BLK_CH_CFG_workers_send (r b i : Nat) : Fld := ⟨BLK_CH_CFG r b i, 30, 1⟩
def BLK_CH_CFG_flush (r b i : Nat) : Fld := ⟨BLK_CH_CFG r b i, 8, 1⟩
def BLK_CH_CFG_recv_cell (r b i : Nat) : Fld := ⟨BLK_CH_CFG r b i, 5, 3⟩
def BLK_CH_CFG_recv_ctx (r b i : Nat) : Fld := ⟨BLK_CH_CFG r b i, 0, 5⟩
/-- BLK_CH_STAT (R483, 08_channels_latches_coprocessor.md). -/
def BLK_CH_STAT (r b i : Nat) : Nat := blkReg r b (0x1004 + i * 0x8)
def BLK_CH_STAT_discarded (r b i : Nat) : Fld := ⟨BLK_CH_STAT r b i, 16, 8⟩
def BLK_CH_STAT_stagers (r b i : Nat) : Fld := ⟨BLK_CH_STAT r b i, 8, 8⟩
def BLK_CH_STAT_depth (r b i : Nat) : Fld := ⟨BLK_CH_STAT r b i, 0, 5⟩
/-- BLK_CH_ERR (R484, 08_channels_latches_coprocessor.md). -/
def BLK_CH_ERR (r b : Nat) : Nat := blkReg r b 0x1400
def BLK_CH_ERR_put_stray (r b : Nat) : Fld := ⟨BLK_CH_ERR r b, 3, 1⟩
def BLK_CH_ERR_overflow (r b : Nat) : Fld := ⟨BLK_CH_ERR r b, 2, 1⟩
def BLK_CH_ERR_cfg_rejected (r b : Nat) : Fld := ⟨BLK_CH_ERR r b, 1, 1⟩
def BLK_CH_ERR_reg_addr_err (r b : Nat) : Fld := ⟨BLK_CH_ERR r b, 0, 1⟩
/-- BLK_LATCH_STAT (R485, 08_channels_latches_coprocessor.md). -/
def BLK_LATCH_STAT (r b : Nat) : Nat := blkReg r b 0x1800
def BLK_LATCH_STAT_orphan_seen (r b : Nat) : Fld := ⟨BLK_LATCH_STAT r b, 16, 16⟩
def BLK_LATCH_STAT_rejected (r b : Nat) : Fld := ⟨BLK_LATCH_STAT r b, 0, 16⟩
/-- BLK_CPX_TPZ_KEY (R486, 08_channels_latches_coprocessor.md). -/
def BLK_CPX_TPZ_KEY (r b i : Nat) : Nat := blkReg r b (0x1C00 + i * 0x4)
def BLK_CPX_TPZ_KEY_key (r b i : Nat) : Fld := ⟨BLK_CPX_TPZ_KEY r b i, 0, 32⟩
/-- RGN_TBL_LATCH_STAT (R488, 08_channels_latches_coprocessor.md). -/
def RGN_TBL_LATCH_STAT (r : Nat) : Nat := rgnReg r 0x403000
def RGN_TBL_LATCH_STAT_orphan_seen (r : Nat) : Fld := ⟨RGN_TBL_LATCH_STAT r, 16, 16⟩
def RGN_TBL_LATCH_STAT_rejected (r : Nat) : Fld := ⟨RGN_TBL_LATCH_STAT r, 0, 16⟩
/-- RGN_DSP_CTL (R510, 09_task_dispatch.md). -/
def RGN_DSP_CTL (r : Nat) : Nat := rgnReg r 0x200000
def RGN_DSP_CTL_bp_tc_mask (r : Nat) : Fld := ⟨RGN_DSP_CTL r, 16, 8⟩
def RGN_DSP_CTL_recirc_reserve (r : Nat) : Fld := ⟨RGN_DSP_CTL r, 0, 14⟩
/-- RGN_DSP_BP (R511, 09_task_dispatch.md). -/
def RGN_DSP_BP (r : Nat) : Nat := rgnReg r 0x200004
def RGN_DSP_BP_bp_hi (r : Nat) : Fld := ⟨RGN_DSP_BP r, 16, 14⟩
def RGN_DSP_BP_bp_lo (r : Nat) : Fld := ⟨RGN_DSP_BP r, 0, 14⟩
/-- RGN_DSP_STAT (R512, 09_task_dispatch.md). -/
def RGN_DSP_STAT (r : Nat) : Nat := rgnReg r 0x200008
def RGN_DSP_STAT_bp (r : Nat) : Fld := ⟨RGN_DSP_STAT r, 31, 1⟩
def RGN_DSP_STAT_bp_store (r : Nat) : Fld := ⟨RGN_DSP_STAT r, 30, 1⟩
def RGN_DSP_STAT_bp_queue (r : Nat) : Fld := ⟨RGN_DSP_STAT r, 29, 1⟩
def RGN_DSP_STAT_bp_qnum (r : Nat) : Fld := ⟨RGN_DSP_STAT r, 14, 8⟩
def RGN_DSP_STAT_reserved_now (r : Nat) : Fld := ⟨RGN_DSP_STAT r, 0, 14⟩
/-- RGN_DSP_FLAGS (R513, 09_task_dispatch.md). -/
def RGN_DSP_FLAGS (r : Nat) : Nat := rgnReg r 0x200010
def RGN_DSP_FLAGS_flags (r : Nat) : Fld := ⟨RGN_DSP_FLAGS r, 0, 32⟩
/-- RGN_DSP_FLAGS_SET (R513, 09_task_dispatch.md). -/
def RGN_DSP_FLAGS_SET (r : Nat) : Nat := rgnReg r 0x200014
def RGN_DSP_FLAGS_SET_flags (r : Nat) : Fld := ⟨RGN_DSP_FLAGS_SET r, 0, 32⟩
/-- RGN_DSP_FLAGS_CLR (R513, 09_task_dispatch.md). -/
def RGN_DSP_FLAGS_CLR (r : Nat) : Nat := rgnReg r 0x200018
def RGN_DSP_FLAGS_CLR_flags (r : Nat) : Fld := ⟨RGN_DSP_FLAGS_CLR r, 0, 32⟩
/-- RGN_DSP_ERR (R514, 09_task_dispatch.md). -/
def RGN_DSP_ERR (r : Nat) : Nat := rgnReg r 0x20001C
def RGN_DSP_ERR_unplaced (r : Nat) : Fld := ⟨RGN_DSP_ERR r, 3, 1⟩
def RGN_DSP_ERR_misrouted (r : Nat) : Fld := ⟨RGN_DSP_ERR r, 2, 1⟩
def RGN_DSP_ERR_cfg_rejected (r : Nat) : Fld := ⟨RGN_DSP_ERR r, 1, 1⟩
def RGN_DSP_ERR_reg_addr_err (r : Nat) : Fld := ⟨RGN_DSP_ERR r, 0, 1⟩
/-- RGN_DSP_UNPLACED (R515, 09_task_dispatch.md). -/
def RGN_DSP_UNPLACED (r : Nat) : Nat := rgnReg r 0x200020
def RGN_DSP_UNPLACED_count (r : Nat) : Fld := ⟨RGN_DSP_UNPLACED r, 0, 32⟩
/-- RGN_DSP_BMODE (R516, 09_task_dispatch.md). -/
def RGN_DSP_BMODE (r i : Nat) : Nat := rgnReg r (0x200100 + i * 0x40)
def RGN_DSP_BMODE_mode (r i : Nat) : Fld := ⟨RGN_DSP_BMODE r i, 1, 1⟩
def RGN_DSP_BMODE_serve_en (r i : Nat) : Fld := ⟨RGN_DSP_BMODE r i, 0, 1⟩
/-- RGN_DSP_BFMASK (R516, 09_task_dispatch.md). -/
def RGN_DSP_BFMASK (r i : Nat) : Nat := rgnReg r (0x200104 + i * 0x40)
def RGN_DSP_BFMASK_fmask (r i : Nat) : Fld := ⟨RGN_DSP_BFMASK r i, 0, 32⟩
/-- RGN_DSP_BSERVE (R516, 09_task_dispatch.md). -/
def RGN_DSP_BSERVE (r i j : Nat) : Nat := rgnReg r (0x200108 + i * 0x40 + j * 0x4)
def RGN_DSP_BSERVE_serve (r i j : Nat) : Fld := ⟨RGN_DSP_BSERVE r i j, 0, 32⟩
/-- RGN_DSP_BLOAD0 (R516, 09_task_dispatch.md). -/
def RGN_DSP_BLOAD0 (r i : Nat) : Nat := rgnReg r (0x200128 + i * 0x40)
def RGN_DSP_BLOAD0_load (r i : Nat) : Fld := ⟨RGN_DSP_BLOAD0 r i, 0, 32⟩
/-- RGN_DSP_BLOAD1 (R516, 09_task_dispatch.md). -/
def RGN_DSP_BLOAD1 (r i : Nat) : Nat := rgnReg r (0x20012C + i * 0x40)
def RGN_DSP_BLOAD1_load (r i : Nat) : Fld := ⟨RGN_DSP_BLOAD1 r i, 0, 32⟩
/-- RGN_DSP_BSLOTS (R516, 09_task_dispatch.md). -/
def RGN_DSP_BSLOTS (r i : Nat) : Nat := rgnReg r (0x200130 + i * 0x40)
def RGN_DSP_BSLOTS_placed_last (r i : Nat) : Fld := ⟨RGN_DSP_BSLOTS r i, 16, 16⟩
def RGN_DSP_BSLOTS_free_next (r i : Nat) : Fld := ⟨RGN_DSP_BSLOTS r i, 0, 16⟩
/-- RGN_DSP_QCFG (R517, 09_task_dispatch.md). -/
def RGN_DSP_QCFG (r i : Nat) : Nat := rgnReg r (0x201000 + i * 0x10)
def RGN_DSP_QCFG_enable (r i : Nat) : Fld := ⟨RGN_DSP_QCFG r i, 31, 1⟩
def RGN_DSP_QCFG_bp_en (r i : Nat) : Fld := ⟨RGN_DSP_QCFG r i, 30, 1⟩
def RGN_DSP_QCFG_prio (r i : Nat) : Fld := ⟨RGN_DSP_QCFG r i, 24, 4⟩
def RGN_DSP_QCFG_flag (r i : Nat) : Fld := ⟨RGN_DSP_QCFG r i, 16, 5⟩
/-- RGN_DSP_QTHR (R517, 09_task_dispatch.md). -/
def RGN_DSP_QTHR (r i : Nat) : Nat := rgnReg r (0x201004 + i * 0x10)
def RGN_DSP_QTHR_q_hi (r i : Nat) : Fld := ⟨RGN_DSP_QTHR r i, 16, 14⟩
def RGN_DSP_QTHR_q_lo (r i : Nat) : Fld := ⟨RGN_DSP_QTHR r i, 0, 14⟩
/-- RGN_DSP_QSTAT (R517, 09_task_dispatch.md). -/
def RGN_DSP_QSTAT (r i : Nat) : Nat := rgnReg r (0x201008 + i * 0x10)
def RGN_DSP_QSTAT_peak (r i : Nat) : Fld := ⟨RGN_DSP_QSTAT r i, 16, 14⟩
def RGN_DSP_QSTAT_depth (r i : Nat) : Fld := ⟨RGN_DSP_QSTAT r i, 0, 14⟩
/-- RGN_DSP_QWAIT (R517, 09_task_dispatch.md). -/
def RGN_DSP_QWAIT (r i : Nat) : Nat := rgnReg r (0x20100C + i * 0x10)
def RGN_DSP_QWAIT_wait_max (r i : Nat) : Fld := ⟨RGN_DSP_QWAIT r i, 0, 16⟩
/-- BLK_SP_ECC (R545, 10_block_memory.md). -/
def BLK_SP_ECC (r b : Nat) : Nat := blkReg r b 0x2000
def BLK_SP_ECC_corrected (r b : Nat) : Fld := ⟨BLK_SP_ECC r b, 16, 16⟩
def BLK_SP_ECC_poisoned (r b : Nat) : Fld := ⟨BLK_SP_ECC r b, 0, 16⟩
/-- BLK_MEM_POISON (R546, 10_block_memory.md). -/
def BLK_MEM_POISON (r b : Nat) : Nat := blkReg r b 0x2004
def BLK_MEM_POISON_valid (r b : Nat) : Fld := ⟨BLK_MEM_POISON r b, 31, 1⟩
def BLK_MEM_POISON_mem (r b : Nat) : Fld := ⟨BLK_MEM_POISON r b, 29, 2⟩
def BLK_MEM_POISON_cell (r b : Nat) : Fld := ⟨BLK_MEM_POISON r b, 26, 3⟩
def BLK_MEM_POISON_line (r b : Nat) : Fld := ⟨BLK_MEM_POISON r b, 5, 16⟩
/-- BLK_MEM_CLEAN (R546, 10_block_memory.md). -/
def BLK_MEM_CLEAN (r b : Nat) : Nat := blkReg r b 0x2008
def BLK_MEM_CLEAN_valid (r b : Nat) : Fld := ⟨BLK_MEM_CLEAN r b, 31, 1⟩
def BLK_MEM_CLEAN_mem (r b : Nat) : Fld := ⟨BLK_MEM_CLEAN r b, 29, 2⟩
def BLK_MEM_CLEAN_cell (r b : Nat) : Fld := ⟨BLK_MEM_CLEAN r b, 26, 3⟩
def BLK_MEM_CLEAN_line (r b : Nat) : Fld := ⟨BLK_MEM_CLEAN r b, 5, 16⟩
/-- BLK_SP_SCRUB (R547, 10_block_memory.md). -/
def BLK_SP_SCRUB (r b : Nat) : Nat := blkReg r b 0x200C
def BLK_SP_SCRUB_wake_pass (r b : Nat) : Fld := ⟨BLK_SP_SCRUB r b, 16, 1⟩
def BLK_SP_SCRUB_interval (r b : Nat) : Fld := ⟨BLK_SP_SCRUB r b, 0, 16⟩
/-- BLK_SEC_CTL (R548, 10_block_memory.md). -/
def BLK_SEC_CTL (r b : Nat) : Nat := blkReg r b 0x2010
def BLK_SEC_CTL_lock (r b : Nat) : Fld := ⟨BLK_SEC_CTL r b, 31, 1⟩
def BLK_SEC_CTL_wipe (r b : Nat) : Fld := ⟨BLK_SEC_CTL r b, 5, 1⟩
def BLK_SEC_CTL_worker_rd (r b : Nat) : Fld := ⟨BLK_SEC_CTL r b, 4, 1⟩
def BLK_SEC_CTL_size (r b : Nat) : Fld := ⟨BLK_SEC_CTL r b, 0, 2⟩
/-- BLK_SEC_STAT (R549, 10_block_memory.md). -/
def BLK_SEC_STAT (r b : Nat) : Nat := blkReg r b 0x2014
def BLK_SEC_STAT_wiping (r b : Nat) : Fld := ⟨BLK_SEC_STAT r b, 31, 1⟩
def BLK_SEC_STAT_wipes (r b : Nat) : Fld := ⟨BLK_SEC_STAT r b, 8, 8⟩
def BLK_SEC_STAT_cause (r b : Nat) : Fld := ⟨BLK_SEC_STAT r b, 4, 4⟩
/-- BLK_SP_REPAIR_LO (R550, 10_block_memory.md). -/
def BLK_SP_REPAIR_LO (r b : Nat) : Nat := blkReg r b 0x2018
def BLK_SP_REPAIR_LO_used (r b : Nat) : Fld := ⟨BLK_SP_REPAIR_LO r b, 0, 32⟩
/-- BLK_SP_REPAIR_HI (R550, 10_block_memory.md). -/
def BLK_SP_REPAIR_HI (r b : Nat) : Nat := blkReg r b 0x201C
def BLK_SP_REPAIR_HI_used (r b : Nat) : Fld := ⟨BLK_SP_REPAIR_HI r b, 0, 32⟩
/-- BLK_SP_ARB (R551, 10_block_memory.md). -/
def BLK_SP_ARB (r b : Nat) : Nat := blkReg r b 0x2020
def BLK_SP_ARB_bank (r b : Nat) : Fld := ⟨BLK_SP_ARB r b, 28, 4⟩
def BLK_SP_ARB_max_wait (r b : Nat) : Fld := ⟨BLK_SP_ARB r b, 0, 7⟩
/-- BLK_MEM_ERR (R552, 10_block_memory.md). -/
def BLK_MEM_ERR (r b : Nat) : Nat := blkReg r b 0x2024
def BLK_MEM_ERR_cfg_rejected (r b : Nat) : Fld := ⟨BLK_MEM_ERR r b, 6, 1⟩
def BLK_MEM_ERR_ifetch_poison (r b : Nat) : Fld := ⟨BLK_MEM_ERR r b, 5, 1⟩
def BLK_MEM_ERR_poison_store (r b : Nat) : Fld := ⟨BLK_MEM_ERR r b, 4, 1⟩
def BLK_MEM_ERR_sec_reject (r b : Nat) : Fld := ⟨BLK_MEM_ERR r b, 3, 1⟩
def BLK_MEM_ERR_uncorrectable (r b : Nat) : Fld := ⟨BLK_MEM_ERR r b, 2, 1⟩
def BLK_MEM_ERR_corrected (r b : Nat) : Fld := ⟨BLK_MEM_ERR r b, 1, 1⟩
def BLK_MEM_ERR_reg_addr_err (r b : Nat) : Fld := ⟨BLK_MEM_ERR r b, 0, 1⟩
/-- BLK_IC_INV (R553, 10_block_memory.md). -/
def BLK_IC_INV (r b : Nat) : Nat := blkReg r b 0x2028
def BLK_IC_INV_cells (r b : Nat) : Fld := ⟨BLK_IC_INV r b, 0, 8⟩
/-- RGN_BPM_CTL (R597, 11_stitches_pools_queues.md). -/
def RGN_BPM_CTL (r : Nat) : Nat := rgnReg r 0x100000
def RGN_BPM_CTL_rw_floor (r : Nat) : Fld := ⟨RGN_BPM_CTL r, 0, 18⟩
/-- RGN_BPM_FREE (R598, 11_stitches_pools_queues.md). -/
def RGN_BPM_FREE (r : Nat) : Nat := rgnReg r 0x100004
def RGN_BPM_FREE_onchip_free (r : Nat) : Fld := ⟨RGN_BPM_FREE r, 0, 18⟩
/-- RGN_DEEP_CFG (R598, 11_stitches_pools_queues.md). -/
def RGN_DEEP_CFG (r : Nat) : Nat := rgnReg r 0x100008
def RGN_DEEP_CFG_units (r : Nat) : Fld := ⟨RGN_DEEP_CFG r, 24, 8⟩
def RGN_DEEP_CFG_base (r : Nat) : Fld := ⟨RGN_DEEP_CFG r, 0, 15⟩
/-- RGN_DEEP_FREE (R598, 11_stitches_pools_queues.md). -/
def RGN_DEEP_FREE (r : Nat) : Nat := rgnReg r 0x10000C
def RGN_DEEP_FREE_deep_free (r : Nat) : Fld := ⟨RGN_DEEP_FREE r, 0, 25⟩
/-- RGN_BPM_LOW (R598, 11_stitches_pools_queues.md). -/
def RGN_BPM_LOW (r : Nat) : Nat := rgnReg r 0x100010
def RGN_BPM_LOW_low_thr (r : Nat) : Fld := ⟨RGN_BPM_LOW r, 0, 18⟩
/-- RGN_BPM_ERR (R599, 11_stitches_pools_queues.md). -/
def RGN_BPM_ERR (r : Nat) : Nat := rgnReg r 0x100014
def RGN_BPM_ERR_desc_poison (r : Nat) : Fld := ⟨RGN_BPM_ERR r, 3, 1⟩
def RGN_BPM_ERR_abuse (r : Nat) : Fld := ⟨RGN_BPM_ERR r, 2, 1⟩
def RGN_BPM_ERR_cfg_rejected (r : Nat) : Fld := ⟨RGN_BPM_ERR r, 1, 1⟩
def RGN_BPM_ERR_reg_addr_err (r : Nat) : Fld := ⟨RGN_BPM_ERR r, 0, 1⟩
/-- RGN_BPM_ABUSE_LO (R600, 11_stitches_pools_queues.md). -/
def RGN_BPM_ABUSE_LO (r : Nat) : Nat := rgnReg r 0x100018
def RGN_BPM_ABUSE_LO_handle (r : Nat) : Fld := ⟨RGN_BPM_ABUSE_LO r, 0, 32⟩
/-- RGN_BPM_ABUSE_HI (R600, 11_stitches_pools_queues.md). -/
def RGN_BPM_ABUSE_HI (r : Nat) : Nat := rgnReg r 0x10001C
def RGN_BPM_ABUSE_HI_kind (r : Nat) : Fld := ⟨RGN_BPM_ABUSE_HI r, 12, 3⟩
def RGN_BPM_ABUSE_HI_requester (r : Nat) : Fld := ⟨RGN_BPM_ABUSE_HI r, 0, 11⟩
/-- RGN_BPM_ABUSE_CNT (R600, 11_stitches_pools_queues.md). -/
def RGN_BPM_ABUSE_CNT (r : Nat) : Nat := rgnReg r 0x100020
def RGN_BPM_ABUSE_CNT_overflow (r : Nat) : Fld := ⟨RGN_BPM_ABUSE_CNT r, 24, 8⟩
def RGN_BPM_ABUSE_CNT_underflow (r : Nat) : Fld := ⟨RGN_BPM_ABUSE_CNT r, 16, 8⟩
def RGN_BPM_ABUSE_CNT_non_owner (r : Nat) : Fld := ⟨RGN_BPM_ABUSE_CNT r, 8, 8⟩
def RGN_BPM_ABUSE_CNT_double_free (r : Nat) : Fld := ⟨RGN_BPM_ABUSE_CNT r, 0, 8⟩
/-- RGN_BPM_LOST (R600, 11_stitches_pools_queues.md). -/
def RGN_BPM_LOST (r : Nat) : Nat := rgnReg r 0x100024
def RGN_BPM_LOST_lost (r : Nat) : Fld := ⟨RGN_BPM_LOST r, 0, 26⟩
/-- RGN_BPM_QUOTA (R601, 11_stitches_pools_queues.md). -/
def RGN_BPM_QUOTA (r i : Nat) : Nat := rgnReg r (0x101000 + i * 0x10)
def RGN_BPM_QUOTA_quota (r i : Nat) : Fld := ⟨RGN_BPM_QUOTA r i, 0, 26⟩
/-- RGN_BPM_USED (R601, 11_stitches_pools_queues.md). -/
def RGN_BPM_USED (r i : Nat) : Nat := rgnReg r (0x101004 + i * 0x10)
def RGN_BPM_USED_cached (r i : Nat) : Fld := ⟨RGN_BPM_USED r i, 25, 7⟩
def RGN_BPM_USED_used (r i : Nat) : Fld := ⟨RGN_BPM_USED r i, 0, 25⟩
/-- RGN_ADM_CFG (R602, 11_stitches_pools_queues.md). -/
def RGN_ADM_CFG (r i : Nat) : Nat := rgnReg r (0x102000 + i * 0x10)
def RGN_ADM_CFG_tail_deep (r i : Nat) : Fld := ⟨RGN_ADM_CFG r i, 31, 1⟩
def RGN_ADM_CFG_head_stitches (r i : Nat) : Fld := ⟨RGN_ADM_CFG r i, 0, 7⟩
/-- RGN_ADM_PFC (R602, 11_stitches_pools_queues.md). -/
def RGN_ADM_PFC (r i : Nat) : Nat := rgnReg r (0x102004 + i * 0x10)
def RGN_ADM_PFC_xoff (r i : Nat) : Fld := ⟨RGN_ADM_PFC r i, 16, 16⟩
def RGN_ADM_PFC_xon (r i : Nat) : Fld := ⟨RGN_ADM_PFC r i, 0, 16⟩
/-- RGN_EQ_CFG (R603, 11_stitches_pools_queues.md). -/
def RGN_EQ_CFG (r i : Nat) : Nat := rgnReg r (0x500000 + i * 0x10)
def RGN_EQ_CFG_enable (r i : Nat) : Fld := ⟨RGN_EQ_CFG r i, 31, 1⟩
def RGN_EQ_CFG_spill_en (r i : Nat) : Fld := ⟨RGN_EQ_CFG r i, 30, 1⟩
def RGN_EQ_CFG_group (r i : Nat) : Fld := ⟨RGN_EQ_CFG r i, 24, 6⟩
def RGN_EQ_CFG_prio (r i : Nat) : Fld := ⟨RGN_EQ_CFG r i, 21, 3⟩
def RGN_EQ_CFG_pfc_class (r i : Nat) : Fld := ⟨RGN_EQ_CFG r i, 18, 3⟩
def RGN_EQ_CFG_quantum (r i : Nat) : Fld := ⟨RGN_EQ_CFG r i, 0, 16⟩
/-- RGN_EQ_LIM (R603, 11_stitches_pools_queues.md). -/
def RGN_EQ_LIM (r i : Nat) : Nat := rgnReg r (0x500004 + i * 0x10)
def RGN_EQ_LIM_limit (r i : Nat) : Fld := ⟨RGN_EQ_LIM r i, 16, 16⟩
def RGN_EQ_LIM_spill_thr (r i : Nat) : Fld := ⟨RGN_EQ_LIM r i, 0, 16⟩
/-- RGN_EQ_SHAPE (R603, 11_stitches_pools_queues.md). -/
def RGN_EQ_SHAPE (r i : Nat) : Nat := rgnReg r (0x500008 + i * 0x10)
def RGN_EQ_SHAPE_shape_en (r i : Nat) : Fld := ⟨RGN_EQ_SHAPE r i, 31, 1⟩
def RGN_EQ_SHAPE_rate (r i : Nat) : Fld := ⟨RGN_EQ_SHAPE r i, 13, 18⟩
def RGN_EQ_SHAPE_burst (r i : Nat) : Fld := ⟨RGN_EQ_SHAPE r i, 0, 13⟩
/-- RGN_EQ_STAT (R603, 11_stitches_pools_queues.md). -/
def RGN_EQ_STAT (r i : Nat) : Nat := rgnReg r (0x50000C + i * 0x10)
def RGN_EQ_STAT_paused (r i : Nat) : Fld := ⟨RGN_EQ_STAT r i, 31, 1⟩
def RGN_EQ_STAT_spilling (r i : Nat) : Fld := ⟨RGN_EQ_STAT r i, 30, 1⟩
def RGN_EQ_STAT_depth (r i : Nat) : Fld := ⟨RGN_EQ_STAT r i, 0, 23⟩
/-- RGN_EG_CFG (R604, 11_stitches_pools_queues.md). -/
def RGN_EG_CFG (r i : Nat) : Nat := rgnReg r (0x510000 + i * 0x10)
def RGN_EG_CFG_enable (r i : Nat) : Fld := ⟨RGN_EG_CFG r i, 31, 1⟩
def RGN_EG_CFG_port (r i : Nat) : Fld := ⟨RGN_EG_CFG r i, 24, 3⟩
def RGN_EG_CFG_prio (r i : Nat) : Fld := ⟨RGN_EG_CFG r i, 16, 3⟩
def RGN_EG_CFG_quantum (r i : Nat) : Fld := ⟨RGN_EG_CFG r i, 0, 16⟩
/-- RGN_EG_SHAPE (R604, 11_stitches_pools_queues.md). -/
def RGN_EG_SHAPE (r i : Nat) : Nat := rgnReg r (0x510004 + i * 0x10)
def RGN_EG_SHAPE_shape_en (r i : Nat) : Fld := ⟨RGN_EG_SHAPE r i, 31, 1⟩
def RGN_EG_SHAPE_rate (r i : Nat) : Fld := ⟨RGN_EG_SHAPE r i, 13, 18⟩
def RGN_EG_SHAPE_burst (r i : Nat) : Fld := ⟨RGN_EG_SHAPE r i, 0, 13⟩
/-- RGN_EP_SHAPE (R604, 11_stitches_pools_queues.md). -/
def RGN_EP_SHAPE (r i : Nat) : Nat := rgnReg r (0x511000 + i * 0x10)
def RGN_EP_SHAPE_shape_en (r i : Nat) : Fld := ⟨RGN_EP_SHAPE r i, 31, 1⟩
def RGN_EP_SHAPE_rate (r i : Nat) : Fld := ⟨RGN_EP_SHAPE r i, 13, 18⟩
def RGN_EP_SHAPE_burst (r i : Nat) : Fld := ⟨RGN_EP_SHAPE r i, 0, 13⟩
/-- RGN_EP_PFC (R604, 11_stitches_pools_queues.md). -/
def RGN_EP_PFC (r i : Nat) : Nat := rgnReg r (0x511004 + i * 0x10)
def RGN_EP_PFC_storm_ticks (r i : Nat) : Fld := ⟨RGN_EP_PFC r i, 16, 16⟩
def RGN_EP_PFC_tx_mask (r i : Nat) : Fld := ⟨RGN_EP_PFC r i, 8, 8⟩
def RGN_EP_PFC_rx_mask (r i : Nat) : Fld := ⟨RGN_EP_PFC r i, 0, 8⟩
/-- RGN_EP_STAT (R604, 11_stitches_pools_queues.md). -/
def RGN_EP_STAT (r i : Nat) : Nat := rgnReg r (0x511008 + i * 0x10)
def RGN_EP_STAT_storm (r i : Nat) : Fld := ⟨RGN_EP_STAT r i, 16, 8⟩
def RGN_EP_STAT_sent (r i : Nat) : Fld := ⟨RGN_EP_STAT r i, 8, 8⟩
def RGN_EP_STAT_paused (r i : Nat) : Fld := ⟨RGN_EP_STAT r i, 0, 8⟩
/-- RGN_EQ_ERR (R605, 11_stitches_pools_queues.md). -/
def RGN_EQ_ERR (r : Nat) : Nat := rgnReg r 0x512000
def RGN_EQ_ERR_deep_refused (r : Nat) : Fld := ⟨RGN_EQ_ERR r, 3, 1⟩
def RGN_EQ_ERR_storm (r : Nat) : Fld := ⟨RGN_EQ_ERR r, 2, 1⟩
def RGN_EQ_ERR_cfg_rejected (r : Nat) : Fld := ⟨RGN_EQ_ERR r, 1, 1⟩
def RGN_EQ_ERR_reg_addr_err (r : Nat) : Fld := ⟨RGN_EQ_ERR r, 0, 1⟩
/-- RGN_MIRROR (R606, 11_stitches_pools_queues.md). -/
def RGN_MIRROR (r i : Nat) : Nat := rgnReg r (0x513000 + i * 0x4)
def RGN_MIRROR_enable (r i : Nat) : Fld := ⟨RGN_MIRROR r i, 31, 1⟩
def RGN_MIRROR_queue (r i : Nat) : Fld := ⟨RGN_MIRROR r i, 15, 15⟩
def RGN_MIRROR_trunc (r i : Nat) : Fld := ⟨RGN_MIRROR r i, 0, 14⟩
/-- RGN_EP_TCQ (R606, 11_stitches_pools_queues.md). -/
def RGN_EP_TCQ (r i j : Nat) : Nat := rgnReg r (0x514000 + i * 0x20 + j * 0x4)
def RGN_EP_TCQ_queue (r i j : Nat) : Fld := ⟨RGN_EP_TCQ r i j, 0, 12⟩
/-- RGN_REPL (R606, 11_stitches_pools_queues.md). -/
def RGN_REPL (r i j : Nat) : Nat := rgnReg r (0x520000 + i * 0x40 + j * 0x4)
def RGN_REPL_valid (r i j : Nat) : Fld := ⟨RGN_REPL r i j, 31, 1⟩
def RGN_REPL_queue (r i j : Nat) : Fld := ⟨RGN_REPL r i j, 0, 15⟩
/-- RGN_HBM_CFG (R635, 12_hbm_controller.md). -/
def RGN_HBM_CFG (r : Nat) : Nat := rgnReg r 0x600000
def RGN_HBM_CFG_rate_run (r : Nat) : Fld := ⟨RGN_HBM_CFG r, 6, 2⟩
def RGN_HBM_CFG_thermal_step (r : Nat) : Fld := ⟨RGN_HBM_CFG r, 5, 1⟩
def RGN_HBM_CFG_order (r : Nat) : Fld := ⟨RGN_HBM_CFG r, 0, 2⟩
/-- RGN_HBM_STAT (R636, 12_hbm_controller.md). -/
def RGN_HBM_STAT (r : Nat) : Nat := rgnReg r 0x600004
def RGN_HBM_STAT_temp (r : Nat) : Fld := ⟨RGN_HBM_STAT r, 24, 8⟩
def RGN_HBM_STAT_gathering (r : Nat) : Fld := ⟨RGN_HBM_STAT r, 19, 1⟩
def RGN_HBM_STAT_pend_valid (r : Nat) : Fld := ⟨RGN_HBM_STAT r, 18, 1⟩
def RGN_HBM_STAT_pend_rate (r : Nat) : Fld := ⟨RGN_HBM_STAT r, 16, 2⟩
def RGN_HBM_STAT_rate (r : Nat) : Fld := ⟨RGN_HBM_STAT r, 12, 2⟩
def RGN_HBM_STAT_state (r : Nat) : Fld := ⟨RGN_HBM_STAT r, 0, 4⟩
/-- RGN_HBM_PORT (R637, 12_hbm_controller.md). -/
def RGN_HBM_PORT (r i : Nat) : Nat := rgnReg r (0x600010 + i * 0x4)
def RGN_HBM_PORT_rt (r i : Nat) : Fld := ⟨RGN_HBM_PORT r i, 2, 1⟩
def RGN_HBM_PORT_hint_fixed (r i : Nat) : Fld := ⟨RGN_HBM_PORT r i, 1, 1⟩
def RGN_HBM_PORT_hint (r i : Nat) : Fld := ⟨RGN_HBM_PORT r i, 0, 1⟩
/-- RGN_HBM_REFRESH (R638, 12_hbm_controller.md). -/
def RGN_HBM_REFRESH (r : Nat) : Nat := rgnReg r 0x600030
def RGN_HBM_REFRESH_inserted (r : Nat) : Fld := ⟨RGN_HBM_REFRESH r, 16, 16⟩
def RGN_HBM_REFRESH_debt_max (r : Nat) : Fld := ⟨RGN_HBM_REFRESH r, 0, 4⟩
/-- RGN_HBM_ECC (R639, 12_hbm_controller.md). -/
def RGN_HBM_ECC (r : Nat) : Nat := rgnReg r 0x600034
def RGN_HBM_ECC_corrected (r : Nat) : Fld := ⟨RGN_HBM_ECC r, 16, 16⟩
def RGN_HBM_ECC_poisoned (r : Nat) : Fld := ⟨RGN_HBM_ECC r, 0, 16⟩
/-- RGN_HBM_POISON_LO (R639, 12_hbm_controller.md). -/
def RGN_HBM_POISON_LO (r : Nat) : Nat := rgnReg r 0x600038
def RGN_HBM_POISON_LO_addr (r : Nat) : Fld := ⟨RGN_HBM_POISON_LO r, 0, 32⟩
/-- RGN_HBM_POISON_HI (R639, 12_hbm_controller.md). -/
def RGN_HBM_POISON_HI (r : Nat) : Nat := rgnReg r 0x60003C
def RGN_HBM_POISON_HI_valid (r : Nat) : Fld := ⟨RGN_HBM_POISON_HI r, 31, 1⟩
def RGN_HBM_POISON_HI_addr (r : Nat) : Fld := ⟨RGN_HBM_POISON_HI r, 0, 3⟩
/-- RGN_HBM_SCRUB (R640, 12_hbm_controller.md). -/
def RGN_HBM_SCRUB (r : Nat) : Nat := rgnReg r 0x600040
def RGN_HBM_SCRUB_interval (r : Nat) : Fld := ⟨RGN_HBM_SCRUB r, 0, 16⟩
/-- RGN_HBM_TRAIN (R640, 12_hbm_controller.md). -/
def RGN_HBM_TRAIN (r : Nat) : Nat := rgnReg r 0x600044
def RGN_HBM_TRAIN_period (r : Nat) : Fld := ⟨RGN_HBM_TRAIN r, 16, 16⟩
def RGN_HBM_TRAIN_fail (r : Nat) : Fld := ⟨RGN_HBM_TRAIN r, 3, 1⟩
def RGN_HBM_TRAIN_busy (r : Nat) : Fld := ⟨RGN_HBM_TRAIN r, 2, 1⟩
def RGN_HBM_TRAIN_retrain (r : Nat) : Fld := ⟨RGN_HBM_TRAIN r, 0, 1⟩
/-- RGN_HBM_ERR (R641, 12_hbm_controller.md). -/
def RGN_HBM_ERR (r : Nat) : Nat := rgnReg r 0x600048
def RGN_HBM_ERR_poison_store (r : Nat) : Fld := ⟨RGN_HBM_ERR r, 7, 1⟩
def RGN_HBM_ERR_stack_failed (r : Nat) : Fld := ⟨RGN_HBM_ERR r, 6, 1⟩
def RGN_HBM_ERR_train_fail (r : Nat) : Fld := ⟨RGN_HBM_ERR r, 5, 1⟩
def RGN_HBM_ERR_addr_fault (r : Nat) : Fld := ⟨RGN_HBM_ERR r, 4, 1⟩
def RGN_HBM_ERR_refresh_inserted (r : Nat) : Fld := ⟨RGN_HBM_ERR r, 3, 1⟩
def RGN_HBM_ERR_freq_rejected (r : Nat) : Fld := ⟨RGN_HBM_ERR r, 2, 1⟩
def RGN_HBM_ERR_cfg_rejected (r : Nat) : Fld := ⟨RGN_HBM_ERR r, 1, 1⟩
def RGN_HBM_ERR_reg_addr_err (r : Nat) : Fld := ⟨RGN_HBM_ERR r, 0, 1⟩
/-- RGN_HBM_WAIT (R641, 12_hbm_controller.md). -/
def RGN_HBM_WAIT (r : Nat) : Nat := rgnReg r 0x60004C
def RGN_HBM_WAIT_rt_max (r : Nat) : Fld := ⟨RGN_HBM_WAIT r, 16, 16⟩
def RGN_HBM_WAIT_nrt_max (r : Nat) : Fld := ⟨RGN_HBM_WAIT r, 0, 16⟩
/-- RGN_GUEST_CTL (R691, 13_cleunfy_fabric.md). -/
def RGN_GUEST_CTL (r : Nat) : Nat := rgnReg r 0x1000
def RGN_GUEST_CTL_run (r : Nat) : Fld := ⟨RGN_GUEST_CTL r, 8, 1⟩
def RGN_GUEST_CTL_park (r : Nat) : Fld := ⟨RGN_GUEST_CTL r, 4, 1⟩
def RGN_GUEST_CTL_role (r : Nat) : Fld := ⟨RGN_GUEST_CTL r, 0, 2⟩
/-- RGN_GUEST_STAT (R692, 13_cleunfy_fabric.md). -/
def RGN_GUEST_STAT (r : Nat) : Nat := rgnReg r 0x1004
def RGN_GUEST_STAT_state (r : Nat) : Fld := ⟨RGN_GUEST_STAT r, 28, 4⟩
def RGN_GUEST_STAT_aligned (r : Nat) : Fld := ⟨RGN_GUEST_STAT r, 7, 1⟩
def RGN_GUEST_STAT_holdover (r : Nat) : Fld := ⟨RGN_GUEST_STAT r, 6, 1⟩
/-- RGN_GUEST_IRQ (R693, 13_cleunfy_fabric.md). -/
def RGN_GUEST_IRQ (r : Nat) : Nat := rgnReg r 0x1008
def RGN_GUEST_IRQ_region (r : Nat) : Fld := ⟨RGN_GUEST_IRQ r, 0, 3⟩
/-- RGN_CF_LINK (R694, 13_cleunfy_fabric.md). -/
def RGN_CF_LINK (r i : Nat) : Nat := rgnReg r (0x700000 + i * 0x10)
def RGN_CF_LINK_state (r i : Nat) : Fld := ⟨RGN_CF_LINK r i, 28, 4⟩
def RGN_CF_LINK_spares_used (r i : Nat) : Fld := ⟨RGN_CF_LINK r i, 20, 3⟩
def RGN_CF_LINK_edge (r i : Nat) : Fld := ⟨RGN_CF_LINK r i, 16, 4⟩
def RGN_CF_LINK_peer (r i : Nat) : Fld := ⟨RGN_CF_LINK r i, 13, 3⟩
def RGN_CF_LINK_peer_guest (r i : Nat) : Fld := ⟨RGN_CF_LINK r i, 12, 1⟩
def RGN_CF_LINK_admit (r i : Nat) : Fld := ⟨RGN_CF_LINK r i, 1, 1⟩
def RGN_CF_LINK_req_up (r i : Nat) : Fld := ⟨RGN_CF_LINK r i, 0, 1⟩
/-- RGN_CF_LCNT (R695, 13_cleunfy_fabric.md). -/
def RGN_CF_LCNT (r i : Nat) : Nat := rgnReg r (0x700004 + i * 0x10)
def RGN_CF_LCNT_replays (r i : Nat) : Fld := ⟨RGN_CF_LCNT r i, 16, 16⟩
def RGN_CF_LCNT_corrected (r i : Nat) : Fld := ⟨RGN_CF_LCNT r i, 0, 16⟩
/-- RGN_CF_DELAY (R695, 13_cleunfy_fabric.md). -/
def RGN_CF_DELAY (r i : Nat) : Nat := rgnReg r (0x700008 + i * 0x10)
def RGN_CF_DELAY_delay (r i : Nat) : Fld := ⟨RGN_CF_DELAY r i, 0, 16⟩
/-- RGN_CF_ROUTE (R696, 13_cleunfy_fabric.md). -/
def RGN_CF_ROUTE (r : Nat) : Nat := rgnReg r 0x700100
def RGN_CF_ROUTE_edges_up (r : Nat) : Fld := ⟨RGN_CF_ROUTE r, 16, 10⟩
def RGN_CF_ROUTE_mode (r : Nat) : Fld := ⟨RGN_CF_ROUTE r, 8, 2⟩
def RGN_CF_ROUTE_reachable (r : Nat) : Fld := ⟨RGN_CF_ROUTE r, 0, 8⟩
/-- RGN_CF_TIMEOUT (R697, 13_cleunfy_fabric.md). -/
def RGN_CF_TIMEOUT (r : Nat) : Nat := rgnReg r 0x700104
def RGN_CF_TIMEOUT_timeout (r : Nat) : Fld := ⟨RGN_CF_TIMEOUT r, 0, 7⟩
/-- RGN_CF_GACC (R697, 13_cleunfy_fabric.md). -/
def RGN_CF_GACC (r : Nat) : Nat := rgnReg r 0x700108
def RGN_CF_GACC_regs (r : Nat) : Fld := ⟨RGN_CF_GACC r, 4, 1⟩
def RGN_CF_GACC_tbl_latch (r : Nat) : Fld := ⟨RGN_CF_GACC r, 3, 1⟩
def RGN_CF_GACC_sp_latch (r : Nat) : Fld := ⟨RGN_CF_GACC r, 2, 1⟩
def RGN_CF_GACC_sp (r : Nat) : Fld := ⟨RGN_CF_GACC r, 1, 1⟩
def RGN_CF_GACC_hbm (r : Nat) : Fld := ⟨RGN_CF_GACC r, 0, 1⟩
/-- RGN_CF_TOCNT (R697, 13_cleunfy_fabric.md). -/
def RGN_CF_TOCNT (r : Nat) : Nat := rgnReg r 0x700110
def RGN_CF_TOCNT_late (r : Nat) : Fld := ⟨RGN_CF_TOCNT r, 16, 16⟩
def RGN_CF_TOCNT_timeouts (r : Nat) : Fld := ⟨RGN_CF_TOCNT r, 0, 16⟩
/-- RGN_CF_ERR (R698, 13_cleunfy_fabric.md). -/
def RGN_CF_ERR (r : Nat) : Nat := rgnReg r 0x70010C
def RGN_CF_ERR_protocol (r : Nat) : Fld := ⟨RGN_CF_ERR r, 7, 1⟩
def RGN_CF_ERR_timeout (r : Nat) : Fld := ⟨RGN_CF_ERR r, 6, 1⟩
def RGN_CF_ERR_guest_err (r : Nat) : Fld := ⟨RGN_CF_ERR r, 5, 1⟩
def RGN_CF_ERR_unreachable (r : Nat) : Fld := ⟨RGN_CF_ERR r, 4, 1⟩
def RGN_CF_ERR_edge_down (r : Nat) : Fld := ⟨RGN_CF_ERR r, 3, 1⟩
def RGN_CF_ERR_module_failed (r : Nat) : Fld := ⟨RGN_CF_ERR r, 2, 1⟩
def RGN_CF_ERR_cfg_rejected (r : Nat) : Fld := ⟨RGN_CF_ERR r, 1, 1⟩
def RGN_CF_ERR_reg_addr_err (r : Nat) : Fld := ⟨RGN_CF_ERR r, 0, 1⟩
/-- RGN_CF_GERR (R699, 13_cleunfy_fabric.md). -/
def RGN_CF_GERR (r : Nat) : Nat := rgnReg r 0x700114
def RGN_CF_GERR_region (r : Nat) : Fld := ⟨RGN_CF_GERR r, 8, 3⟩
def RGN_CF_GERR_code (r : Nat) : Fld := ⟨RGN_CF_GERR r, 0, 8⟩
/-- RGN_PORT_CFG (R743, 14_ports_and_host_links.md). -/
def RGN_PORT_CFG (r i : Nat) : Nat := rgnReg r (0x800000 + i * 0x40)
def RGN_PORT_CFG_enable (r i : Nat) : Fld := ⟨RGN_PORT_CFG r i, 31, 1⟩
def RGN_PORT_CFG_loopback (r i : Nat) : Fld := ⟨RGN_PORT_CFG r i, 28, 3⟩
def RGN_PORT_CFG_lanes (r i : Nat) : Fld := ⟨RGN_PORT_CFG r i, 24, 4⟩
def RGN_PORT_CFG_rate (r i : Nat) : Fld := ⟨RGN_PORT_CFG r i, 22, 2⟩
def RGN_PORT_CFG_max_frame (r i : Nat) : Fld := ⟨RGN_PORT_CFG r i, 0, 15⟩
/-- RGN_PORT_TC (R743, 14_ports_and_host_links.md). -/
def RGN_PORT_TC (r i : Nat) : Nat := rgnReg r (0x800004 + i * 0x40)
def RGN_PORT_TC_default_tc (r i : Nat) : Fld := ⟨RGN_PORT_TC r i, 24, 3⟩
def RGN_PORT_TC_pcp_map (r i : Nat) : Fld := ⟨RGN_PORT_TC r i, 0, 24⟩
/-- RGN_PORT_PFC (R743, 14_ports_and_host_links.md). -/
def RGN_PORT_PFC (r i : Nat) : Nat := rgnReg r (0x800008 + i * 0x40)
def RGN_PORT_PFC_pfc_quanta (r i : Nat) : Fld := ⟨RGN_PORT_PFC r i, 0, 16⟩
/-- RGN_PORT_STAT (R743, 14_ports_and_host_links.md). -/
def RGN_PORT_STAT (r i : Nat) : Nat := rgnReg r (0x80000C + i * 0x40)
def RGN_PORT_STAT_link_up (r i : Nat) : Fld := ⟨RGN_PORT_STAT r i, 31, 1⟩
def RGN_PORT_STAT_active (r i : Nat) : Fld := ⟨RGN_PORT_STAT r i, 30, 1⟩
def RGN_PORT_STAT_lane_lock (r i : Nat) : Fld := ⟨RGN_PORT_STAT r i, 0, 8⟩
/-- RGN_PORT_FEC (R743, 14_ports_and_host_links.md). -/
def RGN_PORT_FEC (r i : Nat) : Nat := rgnReg r (0x800010 + i * 0x40)
def RGN_PORT_FEC_uncorrected (r i : Nat) : Fld := ⟨RGN_PORT_FEC r i, 16, 16⟩
def RGN_PORT_FEC_corrected (r i : Nat) : Fld := ⟨RGN_PORT_FEC r i, 0, 16⟩
/-- RGN_PORT_DISC (R743, 14_ports_and_host_links.md). -/
def RGN_PORT_DISC (r i : Nat) : Nat := rgnReg r (0x800014 + i * 0x40)
def RGN_PORT_DISC_oversize (r i : Nat) : Fld := ⟨RGN_PORT_DISC r i, 16, 16⟩
def RGN_PORT_DISC_runt_ctl (r i : Nat) : Fld := ⟨RGN_PORT_DISC r i, 0, 16⟩
/-- RGN_PTS_INFO (R743, 14_ports_and_host_links.md). -/
def RGN_PTS_INFO (r i : Nat) : Nat := rgnReg r (0x800018 + i * 0x40)
def RGN_PTS_INFO_valid (r i : Nat) : Fld := ⟨RGN_PTS_INFO r i, 31, 1⟩
def RGN_PTS_INFO_msg_type (r i : Nat) : Fld := ⟨RGN_PTS_INFO r i, 24, 4⟩
def RGN_PTS_INFO_domain (r i : Nat) : Fld := ⟨RGN_PTS_INFO r i, 16, 8⟩
def RGN_PTS_INFO_seq_id (r i : Nat) : Fld := ⟨RGN_PTS_INFO r i, 0, 16⟩
/-- RGN_PTS_NS (R743, 14_ports_and_host_links.md). -/
def RGN_PTS_NS (r i : Nat) : Nat := rgnReg r (0x80001C + i * 0x40)
def RGN_PTS_NS_ns (r i : Nat) : Fld := ⟨RGN_PTS_NS r i, 0, 32⟩
/-- RGN_PTS_SEC (R743, 14_ports_and_host_links.md). -/
def RGN_PTS_SEC (r i : Nat) : Nat := rgnReg r (0x800020 + i * 0x40)
def RGN_PTS_SEC_sec (r i : Nat) : Fld := ⟨RGN_PTS_SEC r i, 0, 32⟩
/-- RGN_PTS_STAT (R743, 14_ports_and_host_links.md). -/
def RGN_PTS_STAT (r i : Nat) : Nat := rgnReg r (0x800024 + i * 0x40)
def RGN_PTS_STAT_overflow (r i : Nat) : Fld := ⟨RGN_PTS_STAT r i, 8, 8⟩
def RGN_PTS_STAT_depth (r i : Nat) : Fld := ⟨RGN_PTS_STAT r i, 0, 5⟩
/-- RGN_PORT_DRAIN (R743, 14_ports_and_host_links.md). -/
def RGN_PORT_DRAIN (r i : Nat) : Nat := rgnReg r (0x800028 + i * 0x40)
def RGN_PORT_DRAIN_drained (r i : Nat) : Fld := ⟨RGN_PORT_DRAIN r i, 0, 32⟩
/-- RGN_PORT_ERR (R743, 14_ports_and_host_links.md). -/
def RGN_PORT_ERR (r : Nat) : Nat := rgnReg r 0x800400
def RGN_PORT_ERR_cfg_rejected (r : Nat) : Fld := ⟨RGN_PORT_ERR r, 1, 1⟩
def RGN_PORT_ERR_reg_addr_err (r : Nat) : Fld := ⟨RGN_PORT_ERR r, 0, 1⟩
/-- CHP_PTP_SEC_LO (R744, 14_ports_and_host_links.md). -/
def CHP_PTP_SEC_LO (a : Nat) : Nat := chpReg a 0x30060
def CHP_PTP_SEC_LO_sec (a : Nat) : Fld := ⟨CHP_PTP_SEC_LO a, 0, 32⟩
/-- CHP_PTP_SEC_HI (R744, 14_ports_and_host_links.md). -/
def CHP_PTP_SEC_HI (a : Nat) : Nat := chpReg a 0x30064
def CHP_PTP_SEC_HI_sec (a : Nat) : Fld := ⟨CHP_PTP_SEC_HI a, 0, 16⟩
/-- CHP_PTP_NS (R744, 14_ports_and_host_links.md). -/
def CHP_PTP_NS (a : Nat) : Nat := chpReg a 0x30068
def CHP_PTP_NS_ns (a : Nat) : Fld := ⟨CHP_PTP_NS a, 0, 30⟩
/-- CHP_PTP_BASE_LO (R744, 14_ports_and_host_links.md). -/
def CHP_PTP_BASE_LO (a : Nat) : Nat := chpReg a 0x3006C
def CHP_PTP_BASE_LO_tick (a : Nat) : Fld := ⟨CHP_PTP_BASE_LO a, 0, 32⟩
/-- CHP_PTP_BASE_HI (R744, 14_ports_and_host_links.md). -/
def CHP_PTP_BASE_HI (a : Nat) : Nat := chpReg a 0x30070
def CHP_PTP_BASE_HI_tick (a : Nat) : Fld := ⟨CHP_PTP_BASE_HI a, 0, 16⟩
/-- CHP_PTP_CTL (R744, 14_ports_and_host_links.md). -/
def CHP_PTP_CTL (a : Nat) : Nat := chpReg a 0x30074
def CHP_PTP_CTL_load (a : Nat) : Fld := ⟨CHP_PTP_CTL a, 31, 1⟩
def CHP_PTP_CTL_valid (a : Nat) : Fld := ⟨CHP_PTP_CTL a, 30, 1⟩
def CHP_PTP_CTL_pps_out_en (a : Nat) : Fld := ⟨CHP_PTP_CTL a, 29, 1⟩
def CHP_PTP_CTL_load_rejected (a : Nat) : Fld := ⟨CHP_PTP_CTL a, 28, 1⟩
/-- CHP_PTP_ADJ (R744, 14_ports_and_host_links.md). -/
def CHP_PTP_ADJ (a : Nat) : Nat := chpReg a 0x30078
def CHP_PTP_ADJ_adj (a : Nat) : Fld := ⟨CHP_PTP_ADJ a, 0, 32⟩
/-- CHP_PTP_FREQ (R744, 14_ports_and_host_links.md). -/
def CHP_PTP_FREQ (a : Nat) : Nat := chpReg a 0x3007C
def CHP_PTP_FREQ_freq (a : Nat) : Fld := ⟨CHP_PTP_FREQ a, 0, 32⟩
/-- CHP_SYNCE (R744, 14_ports_and_host_links.md). -/
def CHP_SYNCE (a i : Nat) : Nat := chpReg a (0x70000 + i * 0x4)
def CHP_SYNCE_enable (a i : Nat) : Fld := ⟨CHP_SYNCE a i, 31, 1⟩
def CHP_SYNCE_squelched (a i : Nat) : Fld := ⟨CHP_SYNCE a i, 30, 1⟩
def CHP_SYNCE_region (a i : Nat) : Fld := ⟨CHP_SYNCE a i, 27, 3⟩
def CHP_SYNCE_lane (a i : Nat) : Fld := ⟨CHP_SYNCE a i, 24, 3⟩
def CHP_SYNCE_div (a i : Nat) : Fld := ⟨CHP_SYNCE a i, 0, 10⟩
/-- CHP_B2W_LO (R744, 14_ports_and_host_links.md). -/
def CHP_B2W_LO (a i j : Nat) : Nat := chpReg a (0x71000 + i * 0x400 + j * 0x10)
def CHP_B2W_LO_base (a i j : Nat) : Fld := ⟨CHP_B2W_LO a i j, 12, 20⟩
/-- CHP_B2W_HI (R744, 14_ports_and_host_links.md). -/
def CHP_B2W_HI (a i j : Nat) : Nat := chpReg a (0x71004 + i * 0x400 + j * 0x10)
def CHP_B2W_HI_base (a i j : Nat) : Fld := ⟨CHP_B2W_HI a i j, 0, 16⟩
/-- CHP_B2W_CTL (R744, 14_ports_and_host_links.md). -/
def CHP_B2W_CTL (a i j : Nat) : Nat := chpReg a (0x71008 + i * 0x400 + j * 0x10)
def CHP_B2W_CTL_enable (a i j : Nat) : Fld := ⟨CHP_B2W_CTL a i j, 31, 1⟩
def CHP_B2W_CTL_wr (a i j : Nat) : Fld := ⟨CHP_B2W_CTL a i j, 30, 1⟩
def CHP_B2W_CTL_rd (a i j : Nat) : Fld := ⟨CHP_B2W_CTL a i j, 29, 1⟩
def CHP_B2W_CTL_size (a i j : Nat) : Fld := ⟨CHP_B2W_CTL a i j, 0, 15⟩
/-- CHP_HEP_ERR (R744, 14_ports_and_host_links.md). -/
def CHP_HEP_ERR (a : Nat) : Nat := chpReg a 0x70100
def CHP_HEP_ERR_cfg_rejected (a : Nat) : Fld := ⟨CHP_HEP_ERR a, 1, 1⟩
def CHP_HEP_ERR_reg_addr_err (a : Nat) : Fld := ⟨CHP_HEP_ERR a, 0, 1⟩
/-- HST_QP_TXB_LO (R745, 14_ports_and_host_links.md). -/
def HST_QP_TXB_LO (e i : Nat) : Nat := hstReg e (0x800000 + i * 0x40)
def HST_QP_TXB_LO_base (e i : Nat) : Fld := ⟨HST_QP_TXB_LO e i, 12, 20⟩
/-- HST_QP_RXB_LO (R745, 14_ports_and_host_links.md). -/
def HST_QP_RXB_LO (e i : Nat) : Nat := hstReg e (0x800008 + i * 0x40)
def HST_QP_RXB_LO_base (e i : Nat) : Fld := ⟨HST_QP_RXB_LO e i, 12, 20⟩
/-- HST_QP_TXB_HI (R745, 14_ports_and_host_links.md). -/
def HST_QP_TXB_HI (e i : Nat) : Nat := hstReg e (0x800004 + i * 0x40)
def HST_QP_TXB_HI_base (e i : Nat) : Fld := ⟨HST_QP_TXB_HI e i, 0, 32⟩
/-- HST_QP_RXB_HI (R745, 14_ports_and_host_links.md). -/
def HST_QP_RXB_HI (e i : Nat) : Nat := hstReg e (0x80000C + i * 0x40)
def HST_QP_RXB_HI_base (e i : Nat) : Fld := ⟨HST_QP_RXB_HI e i, 0, 32⟩
/-- HST_QP_CFG (R745, 14_ports_and_host_links.md). -/
def HST_QP_CFG (e i : Nat) : Nat := hstReg e (0x800010 + i * 0x40)
def HST_QP_CFG_tx_en (e i : Nat) : Fld := ⟨HST_QP_CFG e i, 31, 1⟩
def HST_QP_CFG_rx_en (e i : Nat) : Fld := ⟨HST_QP_CFG e i, 30, 1⟩
def HST_QP_CFG_tx_log (e i : Nat) : Fld := ⟨HST_QP_CFG e i, 24, 4⟩
def HST_QP_CFG_rx_log (e i : Nat) : Fld := ⟨HST_QP_CFG e i, 20, 4⟩
def HST_QP_CFG_vector (e i : Nat) : Fld := ⟨HST_QP_CFG e i, 0, 11⟩
/-- HST_QP_COAL (R745, 14_ports_and_host_links.md). -/
def HST_QP_COAL (e i : Nat) : Nat := hstReg e (0x800014 + i * 0x40)
def HST_QP_COAL_rx_hold (e i : Nat) : Fld := ⟨HST_QP_COAL e i, 16, 16⟩
def HST_QP_COAL_coalesce (e i : Nat) : Fld := ⟨HST_QP_COAL e i, 0, 16⟩
/-- HST_QP_STAT (R745, 14_ports_and_host_links.md). -/
def HST_QP_STAT (e i : Nat) : Nat := hstReg e (0x800018 + i * 0x40)
def HST_QP_STAT_busy (e i : Nat) : Fld := ⟨HST_QP_STAT e i, 31, 1⟩
/-- HST_QP_CI (R745, 14_ports_and_host_links.md). -/
def HST_QP_CI (e i : Nat) : Nat := hstReg e (0x80001C + i * 0x40)
def HST_QP_CI_rx_ci (e i : Nat) : Fld := ⟨HST_QP_CI e i, 16, 16⟩
def HST_QP_CI_tx_ci (e i : Nat) : Fld := ⟨HST_QP_CI e i, 0, 16⟩
/-- HST_QP_TXDB (R745, 14_ports_and_host_links.md). -/
def HST_QP_TXDB (e i : Nat) : Nat := hstReg e (0x1000000 + i * 0x1000)
def HST_QP_TXDB_pi (e i : Nat) : Fld := ⟨HST_QP_TXDB e i, 0, 16⟩
/-- HST_QP_RXDB (R745, 14_ports_and_host_links.md). -/
def HST_QP_RXDB (e i : Nat) : Nat := hstReg e (0x1000004 + i * 0x1000)
def HST_QP_RXDB_pi (e i : Nat) : Fld := ⟨HST_QP_RXDB e i, 0, 16⟩
/-- HST_UR_B_LO (R745, 14_ports_and_host_links.md). -/
def HST_UR_B_LO (e i : Nat) : Nat := hstReg e (0x400000 + i * 0x40)
def HST_UR_B_LO_base (e i : Nat) : Fld := ⟨HST_UR_B_LO e i, 0, 32⟩
/-- HST_UR_B_HI (R745, 14_ports_and_host_links.md). -/
def HST_UR_B_HI (e i : Nat) : Nat := hstReg e (0x400004 + i * 0x40)
def HST_UR_B_HI_base (e i : Nat) : Fld := ⟨HST_UR_B_HI e i, 0, 32⟩
/-- HST_UR_CFG (R745, 14_ports_and_host_links.md). -/
def HST_UR_CFG (e i : Nat) : Nat := hstReg e (0x400008 + i * 0x40)
def HST_UR_CFG_enable (e i : Nat) : Fld := ⟨HST_UR_CFG e i, 31, 1⟩
def HST_UR_CFG_log (e i : Nat) : Fld := ⟨HST_UR_CFG e i, 24, 4⟩
def HST_UR_CFG_vector (e i : Nat) : Fld := ⟨HST_UR_CFG e i, 0, 11⟩
/-- HST_UR_DB (R745, 14_ports_and_host_links.md). -/
def HST_UR_DB (e i : Nat) : Nat := hstReg e (0x40000C + i * 0x40)
def HST_UR_DB_pi (e i : Nat) : Fld := ⟨HST_UR_DB e i, 0, 16⟩
/-- HST_UR_CI (R745, 14_ports_and_host_links.md). -/
def HST_UR_CI (e i : Nat) : Nat := hstReg e (0x400010 + i * 0x40)
def HST_UR_CI_ci (e i : Nat) : Fld := ⟨HST_UR_CI e i, 0, 16⟩
/-- HST_EP_STAT (R745, 14_ports_and_host_links.md). -/
def HST_EP_STAT (e : Nat) : Nat := hstReg e 0x3000000
def HST_EP_STAT_gen (e : Nat) : Fld := ⟨HST_EP_STAT e, 28, 4⟩
def HST_EP_STAT_width (e : Nat) : Fld := ⟨HST_EP_STAT e, 23, 5⟩
/-- HST_EP_ERR (R745, 14_ports_and_host_links.md). -/
def HST_EP_ERR (e : Nat) : Nat := hstReg e 0x3000004
def HST_EP_ERR_b2_refused (e : Nat) : Fld := ⟨HST_EP_ERR e, 4, 1⟩
def HST_EP_ERR_dma_err (e : Nat) : Fld := ⟨HST_EP_ERR e, 3, 1⟩
def HST_EP_ERR_ring_err (e : Nat) : Fld := ⟨HST_EP_ERR e, 2, 1⟩
def HST_EP_ERR_zero_len (e : Nat) : Fld := ⟨HST_EP_ERR e, 1, 1⟩
def HST_EP_ERR_reg_addr_err (e : Nat) : Fld := ⟨HST_EP_ERR e, 0, 1⟩
/-- HST_MB_DB (R782, 15_thody_mailboxes.md). -/
def HST_MB_DB (e i : Nat) : Nat := hstReg e (0x40000 + i * 0x10)
def HST_MB_DB_seq (e i : Nat) : Fld := ⟨HST_MB_DB e i, 0, 32⟩
/-- HST_MB_SEQ (R782, 15_thody_mailboxes.md). -/
def HST_MB_SEQ (e i : Nat) : Nat := hstReg e (0x40004 + i * 0x10)
def HST_MB_SEQ_expected (e i : Nat) : Fld := ⟨HST_MB_SEQ e i, 0, 32⟩
/-- HST_MB_STAT (R782, 15_thody_mailboxes.md). -/
def HST_MB_STAT (e i : Nat) : Nat := hstReg e (0x40008 + i * 0x10)
def HST_MB_STAT_db_ignored (e i : Nat) : Fld := ⟨HST_MB_STAT e i, 8, 8⟩
def HST_MB_STAT_state (e i : Nat) : Fld := ⟨HST_MB_STAT e i, 0, 4⟩
/-- HST_MB_CFG (R782, 15_thody_mailboxes.md). -/
def HST_MB_CFG (e i : Nat) : Nat := hstReg e (0x4000C + i * 0x10)
def HST_MB_CFG_vector (e i : Nat) : Fld := ⟨HST_MB_CFG e i, 0, 11⟩
/-- HST_EV_CI (R783, 15_thody_mailboxes.md). -/
def HST_EV_CI (e : Nat) : Nat := hstReg e 0x40800
def HST_EV_CI_ci (e : Nat) : Fld := ⟨HST_EV_CI e, 0, 16⟩
/-- HST_EV_STAT (R783, 15_thody_mailboxes.md). -/
def HST_EV_STAT (e : Nat) : Nat := hstReg e 0x40804
def HST_EV_STAT_lost (e : Nat) : Fld := ⟨HST_EV_STAT e, 16, 16⟩
def HST_EV_STAT_pi (e : Nat) : Fld := ⟨HST_EV_STAT e, 0, 16⟩
/-- HST_MB_FRAME (R783, 15_thody_mailboxes.md). -/
def HST_MB_FRAME (e : Nat) : Nat := hstReg e 0x40808
def HST_MB_FRAME_v1 (e : Nat) : Fld := ⟨HST_MB_FRAME e, 0, 1⟩
/-- RGN_LDG_SEL (R784, 15_thody_mailboxes.md). -/
def RGN_LDG_SEL (r : Nat) : Nat := rgnReg r 0xC00000
def RGN_LDG_SEL_kind (r : Nat) : Fld := ⟨RGN_LDG_SEL r, 28, 4⟩
def RGN_LDG_SEL_region (r : Nat) : Fld := ⟨RGN_LDG_SEL r, 25, 3⟩
def RGN_LDG_SEL_index (r : Nat) : Fld := ⟨RGN_LDG_SEL r, 0, 16⟩
/-- RGN_LDG_STATE (R784, 15_thody_mailboxes.md). -/
def RGN_LDG_STATE (r : Nat) : Nat := rgnReg r 0xC00004
def RGN_LDG_STATE_mismatch (r : Nat) : Fld := ⟨RGN_LDG_STATE r, 16, 8⟩
def RGN_LDG_STATE_effective (r : Nat) : Fld := ⟨RGN_LDG_STATE r, 8, 4⟩
def RGN_LDG_STATE_requested (r : Nat) : Fld := ⟨RGN_LDG_STATE r, 0, 4⟩
/-- RGN_LDG_MISMATCH (R784, 15_thody_mailboxes.md). -/
def RGN_LDG_MISMATCH (r : Nat) : Nat := rgnReg r 0xC00008
def RGN_LDG_MISMATCH_unit (r : Nat) : Fld := ⟨RGN_LDG_MISMATCH r, 0, 32⟩
/-- RGN_LDG_CNT (R784, 15_thody_mailboxes.md). -/
def RGN_LDG_CNT (r : Nat) : Nat := rgnReg r 0xC0000C
def RGN_LDG_CNT_raised (r : Nat) : Fld := ⟨RGN_LDG_CNT r, 16, 16⟩
def RGN_LDG_CNT_now (r : Nat) : Fld := ⟨RGN_LDG_CNT r, 0, 16⟩
/-- RGN_MB_PEND (R784, 15_thody_mailboxes.md). -/
def RGN_MB_PEND (r : Nat) : Nat := rgnReg r 0xC00010
def RGN_MB_PEND_pend (r : Nat) : Fld := ⟨RGN_MB_PEND r, 0, 32⟩
/-- RGN_LDG_ERR (R784, 15_thody_mailboxes.md). -/
def RGN_LDG_ERR (r : Nat) : Nat := rgnReg r 0xC00014
def RGN_LDG_ERR_sel_rejected (r : Nat) : Fld := ⟨RGN_LDG_ERR r, 1, 1⟩
def RGN_LDG_ERR_reg_addr_err (r : Nat) : Fld := ⟨RGN_LDG_ERR r, 0, 1⟩
/-- RGN_IRQ_SRC (R808, 16_interrupts_and_monitors.md). -/
def RGN_IRQ_SRC (r i : Nat) : Nat := rgnReg r (0x0 + i * 0x4)
def RGN_IRQ_SRC_count (r i : Nat) : Fld := ⟨RGN_IRQ_SRC r i, 24, 8⟩
def RGN_IRQ_SRC_region (r i : Nat) : Fld := ⟨RGN_IRQ_SRC r i, 16, 4⟩
def RGN_IRQ_SRC_target (r i : Nat) : Fld := ⟨RGN_IRQ_SRC r i, 8, 8⟩
def RGN_IRQ_SRC_prio (r i : Nat) : Fld := ⟨RGN_IRQ_SRC r i, 0, 4⟩
/-- RGN_IRQ_EN (R808, 16_interrupts_and_monitors.md). -/
def RGN_IRQ_EN (r i : Nat) : Nat := rgnReg r (0x1000 + i * 0x4)
def RGN_IRQ_EN_en (r i : Nat) : Fld := ⟨RGN_IRQ_EN r i, 0, 32⟩
/-- RGN_IRQ_EN_SET (R808, 16_interrupts_and_monitors.md). -/
def RGN_IRQ_EN_SET (r i : Nat) : Nat := rgnReg r (0x1080 + i * 0x4)
def RGN_IRQ_EN_SET_en (r i : Nat) : Fld := ⟨RGN_IRQ_EN_SET r i, 0, 32⟩
/-- RGN_IRQ_EN_CLR (R808, 16_interrupts_and_monitors.md). -/
def RGN_IRQ_EN_CLR (r i : Nat) : Nat := rgnReg r (0x1100 + i * 0x4)
def RGN_IRQ_EN_CLR_en (r i : Nat) : Fld := ⟨RGN_IRQ_EN_CLR r i, 0, 32⟩
/-- RGN_IRQ_PEND (R808, 16_interrupts_and_monitors.md). -/
def RGN_IRQ_PEND (r i : Nat) : Nat := rgnReg r (0x1180 + i * 0x4)
def RGN_IRQ_PEND_pend (r i : Nat) : Fld := ⟨RGN_IRQ_PEND r i, 0, 32⟩
/-- RGN_IRQ_PEND_SET (R808, 16_interrupts_and_monitors.md). -/
def RGN_IRQ_PEND_SET (r i : Nat) : Nat := rgnReg r (0x1200 + i * 0x4)
def RGN_IRQ_PEND_SET_set (r i : Nat) : Fld := ⟨RGN_IRQ_PEND_SET r i, 0, 32⟩
/-- RGN_IRQ_PEND_CLR (R808, 16_interrupts_and_monitors.md). -/
def RGN_IRQ_PEND_CLR (r i : Nat) : Nat := rgnReg r (0x1280 + i * 0x4)
def RGN_IRQ_PEND_CLR_clr (r i : Nat) : Fld := ⟨RGN_IRQ_PEND_CLR r i, 0, 32⟩
/-- RGN_IRQ_CLAIM_MP (R808, 16_interrupts_and_monitors.md). -/
def RGN_IRQ_CLAIM_MP (r : Nat) : Nat := rgnReg r 0x1400
def RGN_IRQ_CLAIM_MP_valid (r : Nat) : Fld := ⟨RGN_IRQ_CLAIM_MP r, 31, 1⟩
def RGN_IRQ_CLAIM_MP_source (r : Nat) : Fld := ⟨RGN_IRQ_CLAIM_MP r, 16, 13⟩
def RGN_IRQ_CLAIM_MP_count (r : Nat) : Fld := ⟨RGN_IRQ_CLAIM_MP r, 0, 8⟩
/-- RGN_IRQ_FALLBACK (R808, 16_interrupts_and_monitors.md). -/
def RGN_IRQ_FALLBACK (r : Nat) : Nat := rgnReg r 0x1404
def RGN_IRQ_FALLBACK_target (r : Nat) : Fld := ⟨RGN_IRQ_FALLBACK r, 0, 8⟩
/-- RGN_IRQ_RCFG (R808, 16_interrupts_and_monitors.md). -/
def RGN_IRQ_RCFG (r : Nat) : Nat := rgnReg r 0x1408
def RGN_IRQ_RCFG_prio (r : Nat) : Fld := ⟨RGN_IRQ_RCFG r, 0, 4⟩
/-- RGN_IRQ_INBOX (R808, 16_interrupts_and_monitors.md). -/
def RGN_IRQ_INBOX (r : Nat) : Nat := rgnReg r 0x140C
def RGN_IRQ_INBOX_lost (r : Nat) : Fld := ⟨RGN_IRQ_INBOX r, 16, 16⟩
def RGN_IRQ_INBOX_depth (r : Nat) : Fld := ⟨RGN_IRQ_INBOX r, 0, 7⟩
/-- RGN_IRQ_OVF (R808, 16_interrupts_and_monitors.md). -/
def RGN_IRQ_OVF (r : Nat) : Nat := rgnReg r 0x1410
def RGN_IRQ_OVF_lost (r : Nat) : Fld := ⟨RGN_IRQ_OVF r, 0, 32⟩
/-- RGN_IRQ_ERR (R808, 16_interrupts_and_monitors.md). -/
def RGN_IRQ_ERR (r : Nat) : Nat := rgnReg r 0x1414
def RGN_IRQ_ERR_saturated (r : Nat) : Fld := ⟨RGN_IRQ_ERR r, 4, 1⟩
def RGN_IRQ_ERR_hvec_missing (r : Nat) : Fld := ⟨RGN_IRQ_ERR r, 3, 1⟩
def RGN_IRQ_ERR_inbox_full (r : Nat) : Fld := ⟨RGN_IRQ_ERR r, 2, 1⟩
def RGN_IRQ_ERR_cfg_rejected (r : Nat) : Fld := ⟨RGN_IRQ_ERR r, 1, 1⟩
def RGN_IRQ_ERR_reg_addr_err (r : Nat) : Fld := ⟨RGN_IRQ_ERR r, 0, 1⟩
/-- RGN_IRQ_HVEC (R808, 16_interrupts_and_monitors.md). -/
def RGN_IRQ_HVEC (r i : Nat) : Nat := rgnReg r (0x8000 + i * 0x4)
def RGN_IRQ_HVEC_valid (r i : Nat) : Fld := ⟨RGN_IRQ_HVEC r i, 31, 1⟩
def RGN_IRQ_HVEC_arrivals (r i : Nat) : Fld := ⟨RGN_IRQ_HVEC r i, 16, 8⟩
def RGN_IRQ_HVEC_vector (r i : Nat) : Fld := ⟨RGN_IRQ_HVEC r i, 0, 11⟩
/-- CEL_IRQ_CLAIM (R809, 16_interrupts_and_monitors.md). -/
def CEL_IRQ_CLAIM (c : Nat) : Nat := csrReg c 0x7D6
def CEL_IRQ_CLAIM_valid (c : Nat) : Fld := ⟨CEL_IRQ_CLAIM c, 31, 1⟩
def CEL_IRQ_CLAIM_source (c : Nat) : Fld := ⟨CEL_IRQ_CLAIM c, 16, 13⟩
def CEL_IRQ_CLAIM_count (c : Nat) : Fld := ⟨CEL_IRQ_CLAIM c, 0, 8⟩
/-- BLK_MON_CFG (R810, 16_interrupts_and_monitors.md). -/
def BLK_MON_CFG (r b i : Nat) : Nat := blkReg r b (0x3000 + i * 0x20)
def BLK_MON_CFG_enable (r b i : Nat) : Fld := ⟨BLK_MON_CFG r b i, 31, 1⟩
def BLK_MON_CFG_mode (r b i : Nat) : Fld := ⟨BLK_MON_CFG r b i, 29, 2⟩
def BLK_MON_CFG_sel (r b i : Nat) : Fld := ⟨BLK_MON_CFG r b i, 19, 10⟩
def BLK_MON_CFG_region (r b i : Nat) : Fld := ⟨BLK_MON_CFG r b i, 16, 3⟩
def BLK_MON_CFG_all (r b i : Nat) : Fld := ⟨BLK_MON_CFG r b i, 12, 1⟩
def BLK_MON_CFG_qual (r b i : Nat) : Fld := ⟨BLK_MON_CFG r b i, 0, 12⟩
/-- RGN_MON_CFG (R810, 16_interrupts_and_monitors.md). -/
def RGN_MON_CFG (r i : Nat) : Nat := rgnReg r (0x900000 + i * 0x20)
def RGN_MON_CFG_enable (r i : Nat) : Fld := ⟨RGN_MON_CFG r i, 31, 1⟩
def RGN_MON_CFG_mode (r i : Nat) : Fld := ⟨RGN_MON_CFG r i, 29, 2⟩
def RGN_MON_CFG_sel (r i : Nat) : Fld := ⟨RGN_MON_CFG r i, 19, 10⟩
def RGN_MON_CFG_region (r i : Nat) : Fld := ⟨RGN_MON_CFG r i, 16, 3⟩
def RGN_MON_CFG_all (r i : Nat) : Fld := ⟨RGN_MON_CFG r i, 12, 1⟩
def RGN_MON_CFG_qual (r i : Nat) : Fld := ⟨RGN_MON_CFG r i, 0, 12⟩
/-- CHP_MON_CFG (R810, 16_interrupts_and_monitors.md). -/
def CHP_MON_CFG (a i : Nat) : Nat := chpReg a (0x20000 + i * 0x20)
def CHP_MON_CFG_enable (a i : Nat) : Fld := ⟨CHP_MON_CFG a i, 31, 1⟩
def CHP_MON_CFG_mode (a i : Nat) : Fld := ⟨CHP_MON_CFG a i, 29, 2⟩
def CHP_MON_CFG_sel (a i : Nat) : Fld := ⟨CHP_MON_CFG a i, 19, 10⟩
def CHP_MON_CFG_region (a i : Nat) : Fld := ⟨CHP_MON_CFG a i, 16, 3⟩
def CHP_MON_CFG_all (a i : Nat) : Fld := ⟨CHP_MON_CFG a i, 12, 1⟩
def CHP_MON_CFG_qual (a i : Nat) : Fld := ⟨CHP_MON_CFG a i, 0, 12⟩
/-- BLK_MON_CNT_LO (R810, 16_interrupts_and_monitors.md). -/
def BLK_MON_CNT_LO (r b i : Nat) : Nat := blkReg r b (0x3004 + i * 0x20)
def BLK_MON_CNT_LO_count (r b i : Nat) : Fld := ⟨BLK_MON_CNT_LO r b i, 0, 32⟩
/-- RGN_MON_CNT_LO (R810, 16_interrupts_and_monitors.md). -/
def RGN_MON_CNT_LO (r i : Nat) : Nat := rgnReg r (0x900004 + i * 0x20)
def RGN_MON_CNT_LO_count (r i : Nat) : Fld := ⟨RGN_MON_CNT_LO r i, 0, 32⟩
/-- CHP_MON_CNT_LO (R810, 16_interrupts_and_monitors.md). -/
def CHP_MON_CNT_LO (a i : Nat) : Nat := chpReg a (0x20004 + i * 0x20)
def CHP_MON_CNT_LO_count (a i : Nat) : Fld := ⟨CHP_MON_CNT_LO a i, 0, 32⟩
/-- BLK_MON_CNT_HI (R810, 16_interrupts_and_monitors.md). -/
def BLK_MON_CNT_HI (r b i : Nat) : Nat := blkReg r b (0x3008 + i * 0x20)
def BLK_MON_CNT_HI_count (r b i : Nat) : Fld := ⟨BLK_MON_CNT_HI r b i, 0, 16⟩
/-- RGN_MON_CNT_HI (R810, 16_interrupts_and_monitors.md). -/
def RGN_MON_CNT_HI (r i : Nat) : Nat := rgnReg r (0x900008 + i * 0x20)
def RGN_MON_CNT_HI_count (r i : Nat) : Fld := ⟨RGN_MON_CNT_HI r i, 0, 16⟩
/-- CHP_MON_CNT_HI (R810, 16_interrupts_and_monitors.md). -/
def CHP_MON_CNT_HI (a i : Nat) : Nat := chpReg a (0x20008 + i * 0x20)
def CHP_MON_CNT_HI_count (a i : Nat) : Fld := ⟨CHP_MON_CNT_HI a i, 0, 16⟩
/-- BLK_MON_THR_LO (R810, 16_interrupts_and_monitors.md). -/
def BLK_MON_THR_LO (r b i : Nat) : Nat := blkReg r b (0x300C + i * 0x20)
def BLK_MON_THR_LO_thr (r b i : Nat) : Fld := ⟨BLK_MON_THR_LO r b i, 0, 32⟩
/-- RGN_MON_THR_LO (R810, 16_interrupts_and_monitors.md). -/
def RGN_MON_THR_LO (r i : Nat) : Nat := rgnReg r (0x90000C + i * 0x20)
def RGN_MON_THR_LO_thr (r i : Nat) : Fld := ⟨RGN_MON_THR_LO r i, 0, 32⟩
/-- CHP_MON_THR_LO (R810, 16_interrupts_and_monitors.md). -/
def CHP_MON_THR_LO (a i : Nat) : Nat := chpReg a (0x2000C + i * 0x20)
def CHP_MON_THR_LO_thr (a i : Nat) : Fld := ⟨CHP_MON_THR_LO a i, 0, 32⟩
/-- BLK_MON_THR_HI (R810, 16_interrupts_and_monitors.md). -/
def BLK_MON_THR_HI (r b i : Nat) : Nat := blkReg r b (0x3010 + i * 0x20)
def BLK_MON_THR_HI_thr (r b i : Nat) : Fld := ⟨BLK_MON_THR_HI r b i, 0, 16⟩
/-- RGN_MON_THR_HI (R810, 16_interrupts_and_monitors.md). -/
def RGN_MON_THR_HI (r i : Nat) : Nat := rgnReg r (0x900010 + i * 0x20)
def RGN_MON_THR_HI_thr (r i : Nat) : Fld := ⟨RGN_MON_THR_HI r i, 0, 16⟩
/-- CHP_MON_THR_HI (R810, 16_interrupts_and_monitors.md). -/
def CHP_MON_THR_HI (a i : Nat) : Nat := chpReg a (0x20010 + i * 0x20)
def CHP_MON_THR_HI_thr (a i : Nat) : Fld := ⟨CHP_MON_THR_HI a i, 0, 16⟩
/-- BLK_MON_SNAP_LO (R810, 16_interrupts_and_monitors.md). -/
def BLK_MON_SNAP_LO (r b i : Nat) : Nat := blkReg r b (0x3014 + i * 0x20)
def BLK_MON_SNAP_LO_snap (r b i : Nat) : Fld := ⟨BLK_MON_SNAP_LO r b i, 0, 32⟩
/-- RGN_MON_SNAP_LO (R810, 16_interrupts_and_monitors.md). -/
def RGN_MON_SNAP_LO (r i : Nat) : Nat := rgnReg r (0x900014 + i * 0x20)
def RGN_MON_SNAP_LO_snap (r i : Nat) : Fld := ⟨RGN_MON_SNAP_LO r i, 0, 32⟩
/-- CHP_MON_SNAP_LO (R810, 16_interrupts_and_monitors.md). -/
def CHP_MON_SNAP_LO (a i : Nat) : Nat := chpReg a (0x20014 + i * 0x20)
def CHP_MON_SNAP_LO_snap (a i : Nat) : Fld := ⟨CHP_MON_SNAP_LO a i, 0, 32⟩
/-- BLK_MON_SNAP_HI (R810, 16_interrupts_and_monitors.md). -/
def BLK_MON_SNAP_HI (r b i : Nat) : Nat := blkReg r b (0x3018 + i * 0x20)
def BLK_MON_SNAP_HI_snap (r b i : Nat) : Fld := ⟨BLK_MON_SNAP_HI r b i, 0, 16⟩
/-- RGN_MON_SNAP_HI (R810, 16_interrupts_and_monitors.md). -/
def RGN_MON_SNAP_HI (r i : Nat) : Nat := rgnReg r (0x900018 + i * 0x20)
def RGN_MON_SNAP_HI_snap (r i : Nat) : Fld := ⟨RGN_MON_SNAP_HI r i, 0, 16⟩
/-- CHP_MON_SNAP_HI (R810, 16_interrupts_and_monitors.md). -/
def CHP_MON_SNAP_HI (a i : Nat) : Nat := chpReg a (0x20018 + i * 0x20)
def CHP_MON_SNAP_HI_snap (a i : Nat) : Fld := ⟨CHP_MON_SNAP_HI a i, 0, 16⟩
/-- BLK_MON_HIT (R811, 16_interrupts_and_monitors.md). -/
def BLK_MON_HIT (r b : Nat) : Nat := blkReg r b 0x3100
def BLK_MON_HIT_hit (r b : Nat) : Fld := ⟨BLK_MON_HIT r b, 0, 8⟩
/-- BLK_MON_ERR (R811, 16_interrupts_and_monitors.md). -/
def BLK_MON_ERR (r b : Nat) : Nat := blkReg r b 0x3104
def BLK_MON_ERR_cfg_rejected (r b : Nat) : Fld := ⟨BLK_MON_ERR r b, 1, 1⟩
def BLK_MON_ERR_reg_addr_err (r b : Nat) : Fld := ⟨BLK_MON_ERR r b, 0, 1⟩
/-- RGN_MON_HIT_LO (R811, 16_interrupts_and_monitors.md). -/
def RGN_MON_HIT_LO (r : Nat) : Nat := rgnReg r 0x900800
def RGN_MON_HIT_LO_hit (r : Nat) : Fld := ⟨RGN_MON_HIT_LO r, 0, 32⟩
/-- RGN_MON_HIT_HI (R811, 16_interrupts_and_monitors.md). -/
def RGN_MON_HIT_HI (r : Nat) : Nat := rgnReg r 0x900804
def RGN_MON_HIT_HI_hit (r : Nat) : Fld := ⟨RGN_MON_HIT_HI r, 0, 32⟩
/-- RGN_MON_ERR (R811, 16_interrupts_and_monitors.md). -/
def RGN_MON_ERR (r : Nat) : Nat := rgnReg r 0x900808
def RGN_MON_ERR_cfg_rejected (r : Nat) : Fld := ⟨RGN_MON_ERR r, 1, 1⟩
def RGN_MON_ERR_reg_addr_err (r : Nat) : Fld := ⟨RGN_MON_ERR r, 0, 1⟩
/-- CHP_MON_HIT (R811, 16_interrupts_and_monitors.md). -/
def CHP_MON_HIT (a : Nat) : Nat := chpReg a 0x20400
def CHP_MON_HIT_hit (a : Nat) : Fld := ⟨CHP_MON_HIT a, 0, 32⟩
/-- CHP_MON_SNAP_AT_LO (R811, 16_interrupts_and_monitors.md). -/
def CHP_MON_SNAP_AT_LO (a : Nat) : Nat := chpReg a 0x20410
def CHP_MON_SNAP_AT_LO_tick (a : Nat) : Fld := ⟨CHP_MON_SNAP_AT_LO a, 0, 32⟩
/-- CHP_MON_SNAP_AT_HI (R811, 16_interrupts_and_monitors.md). -/
def CHP_MON_SNAP_AT_HI (a : Nat) : Nat := chpReg a 0x20414
def CHP_MON_SNAP_AT_HI_tick (a : Nat) : Fld := ⟨CHP_MON_SNAP_AT_HI a, 0, 16⟩
/-- CHP_MON_SNAP_CTL (R811, 16_interrupts_and_monitors.md). -/
def CHP_MON_SNAP_CTL (a : Nat) : Nat := chpReg a 0x20418
def CHP_MON_SNAP_CTL_cancel (a : Nat) : Fld := ⟨CHP_MON_SNAP_CTL a, 1, 1⟩
def CHP_MON_SNAP_CTL_arm (a : Nat) : Fld := ⟨CHP_MON_SNAP_CTL a, 0, 1⟩
/-- CHP_MON_SNAP_STAT (R811, 16_interrupts_and_monitors.md). -/
def CHP_MON_SNAP_STAT (a : Nat) : Nat := chpReg a 0x2041C
def CHP_MON_SNAP_STAT_pending (a : Nat) : Fld := ⟨CHP_MON_SNAP_STAT a, 31, 1⟩
def CHP_MON_SNAP_STAT_missed (a : Nat) : Fld := ⟨CHP_MON_SNAP_STAT a, 8, 8⟩
def CHP_MON_SNAP_STAT_taken (a : Nat) : Fld := ⟨CHP_MON_SNAP_STAT a, 0, 8⟩
/-- CHP_MON_SNAP_TICK_LO (R811, 16_interrupts_and_monitors.md). -/
def CHP_MON_SNAP_TICK_LO (a : Nat) : Nat := chpReg a 0x20420
def CHP_MON_SNAP_TICK_LO_tick (a : Nat) : Fld := ⟨CHP_MON_SNAP_TICK_LO a, 0, 32⟩
/-- CHP_MON_SNAP_TICK_HI (R811, 16_interrupts_and_monitors.md). -/
def CHP_MON_SNAP_TICK_HI (a : Nat) : Nat := chpReg a 0x20424
def CHP_MON_SNAP_TICK_HI_tick (a : Nat) : Fld := ⟨CHP_MON_SNAP_TICK_HI a, 0, 16⟩
/-- CHP_MON_ERR (R811, 16_interrupts_and_monitors.md). -/
def CHP_MON_ERR (a : Nat) : Nat := chpReg a 0x20428
def CHP_MON_ERR_snap_rejected (a : Nat) : Fld := ⟨CHP_MON_ERR a, 2, 1⟩
def CHP_MON_ERR_cfg_rejected (a : Nat) : Fld := ⟨CHP_MON_ERR a, 1, 1⟩
def CHP_MON_ERR_reg_addr_err (a : Nat) : Fld := ⟨CHP_MON_ERR a, 0, 1⟩
/-- CHP_MODE_REQ (R845, 17_bringup_resets_modes.md). -/
def CHP_MODE_REQ (a : Nat) : Nat := chpReg a 0x10000
def CHP_MODE_REQ_req (a : Nat) : Fld := ⟨CHP_MODE_REQ a, 31, 1⟩
def CHP_MODE_REQ_at_en (a : Nat) : Fld := ⟨CHP_MODE_REQ a, 30, 1⟩
def CHP_MODE_REQ_lean_awake (a : Nat) : Fld := ⟨CHP_MODE_REQ a, 16, 5⟩
def CHP_MODE_REQ_target (a : Nat) : Fld := ⟨CHP_MODE_REQ a, 0, 3⟩
/-- CHP_MODE_AT_LO (R845, 17_bringup_resets_modes.md). -/
def CHP_MODE_AT_LO (a : Nat) : Nat := chpReg a 0x10004
def CHP_MODE_AT_LO_tick (a : Nat) : Fld := ⟨CHP_MODE_AT_LO a, 0, 32⟩
/-- CHP_MODE_AT_HI (R845, 17_bringup_resets_modes.md). -/
def CHP_MODE_AT_HI (a : Nat) : Nat := chpReg a 0x10008
def CHP_MODE_AT_HI_tick (a : Nat) : Fld := ⟨CHP_MODE_AT_HI a, 0, 16⟩
/-- CHP_MODE_STAT (R845, 17_bringup_resets_modes.md). -/
def CHP_MODE_STAT (a : Nat) : Nat := chpReg a 0x1000C
def CHP_MODE_STAT_pending (a : Nat) : Fld := ⟨CHP_MODE_STAT a, 31, 1⟩
def CHP_MODE_STAT_pending_target (a : Nat) : Fld := ⟨CHP_MODE_STAT a, 28, 3⟩
def CHP_MODE_STAT_reject_cause (a : Nat) : Fld := ⟨CHP_MODE_STAT a, 24, 4⟩
def CHP_MODE_STAT_detail (a : Nat) : Fld := ⟨CHP_MODE_STAT a, 8, 16⟩
def CHP_MODE_STAT_lean_awake (a : Nat) : Fld := ⟨CHP_MODE_STAT a, 3, 5⟩
def CHP_MODE_STAT_effective (a : Nat) : Fld := ⟨CHP_MODE_STAT a, 0, 3⟩
/-- CHP_MODE_ERR (R845, 17_bringup_resets_modes.md). -/
def CHP_MODE_ERR (a : Nat) : Nat := chpReg a 0x10010
def CHP_MODE_ERR_rst_key_err (a : Nat) : Fld := ⟨CHP_MODE_ERR a, 2, 1⟩
def CHP_MODE_ERR_mode_rejected (a : Nat) : Fld := ⟨CHP_MODE_ERR a, 1, 1⟩
def CHP_MODE_ERR_reg_addr_err (a : Nat) : Fld := ⟨CHP_MODE_ERR a, 0, 1⟩
/-- CHP_RST_CTL (R845, 17_bringup_resets_modes.md). -/
def CHP_RST_CTL (a : Nat) : Nat := chpReg a 0x10014
def CHP_RST_CTL_key (a : Nat) : Fld := ⟨CHP_RST_CTL a, 8, 8⟩
def CHP_RST_CTL_cold (a : Nat) : Fld := ⟨CHP_RST_CTL a, 1, 1⟩
def CHP_RST_CTL_warm (a : Nat) : Fld := ⟨CHP_RST_CTL a, 0, 1⟩
/-- CHP_RST_CAUSE (R845, 17_bringup_resets_modes.md). -/
def CHP_RST_CAUSE (a : Nat) : Nat := chpReg a 0x10018
def CHP_RST_CAUSE_cause (a : Nat) : Fld := ⟨CHP_RST_CAUSE a, 0, 4⟩
/-- CHP_BOOT_STAT (R845, 17_bringup_resets_modes.md). -/
def CHP_BOOT_STAT (a : Nat) : Nat := chpReg a 0x1001C
def CHP_BOOT_STAT_state (a : Nat) : Fld := ⟨CHP_BOOT_STAT a, 28, 4⟩
def CHP_BOOT_STAT_boot_ms (a : Nat) : Fld := ⟨CHP_BOOT_STAT a, 0, 16⟩
/-- CHP_LC_STAT (R846, 17_bringup_resets_modes.md). -/
def CHP_LC_STAT (a : Nat) : Nat := chpReg a 0x40000
def CHP_LC_STAT_state (a : Nat) : Fld := ⟨CHP_LC_STAT a, 0, 4⟩
/-- CHP_LC_KEY (R846, 17_bringup_resets_modes.md). -/
def CHP_LC_KEY (a i : Nat) : Nat := chpReg a (0x40010 + i * 0x4)
def CHP_LC_KEY_hash (a i : Nat) : Fld := ⟨CHP_LC_KEY a i, 0, 32⟩
/-- CHP_TAMPER_CTL (R846, 17_bringup_resets_modes.md). -/
def CHP_TAMPER_CTL (a : Nat) : Nat := chpReg a 0x40040
def CHP_TAMPER_CTL_lock (a : Nat) : Fld := ⟨CHP_TAMPER_CTL a, 31, 1⟩
def CHP_TAMPER_CTL_reset (a : Nat) : Fld := ⟨CHP_TAMPER_CTL a, 0, 4⟩
/-- CHP_TAMPER_STAT (R846, 17_bringup_resets_modes.md). -/
def CHP_TAMPER_STAT (a : Nat) : Nat := chpReg a 0x40044
def CHP_TAMPER_STAT_regions (a : Nat) : Fld := ⟨CHP_TAMPER_STAT a, 24, 8⟩
def CHP_TAMPER_STAT_sensors (a : Nat) : Fld := ⟨CHP_TAMPER_STAT a, 0, 4⟩
/-- CHP_LC_ERR (R846, 17_bringup_resets_modes.md). -/
def CHP_LC_ERR (a : Nat) : Nat := chpReg a 0x40048
def CHP_LC_ERR_key_rejected (a : Nat) : Fld := ⟨CHP_LC_ERR a, 1, 1⟩
def CHP_LC_ERR_reg_addr_err (a : Nat) : Fld := ⟨CHP_LC_ERR a, 0, 1⟩
/-- RGN_CLK_CFG (R847, 17_bringup_resets_modes.md). -/
def RGN_CLK_CFG (r : Nat) : Nat := rgnReg r 0xA00000
def RGN_CLK_CFG_cell_clk (r : Nat) : Fld := ⟨RGN_CLK_CFG r, 0, 2⟩
/-- RGN_PWR_RET (R847, 17_bringup_resets_modes.md). -/
def RGN_PWR_RET (r : Nat) : Nat := rgnReg r 0xA00004
def RGN_PWR_RET_ret (r : Nat) : Fld := ⟨RGN_PWR_RET r, 0, 16⟩
/-- RGN_PWR_BSTAT (R847, 17_bringup_resets_modes.md). -/
def RGN_PWR_BSTAT (r : Nat) : Nat := rgnReg r 0xA00008
def RGN_PWR_BSTAT_state (r : Nat) : Fld := ⟨RGN_PWR_BSTAT r, 0, 32⟩
/-- RGN_PWR_REGION (R847, 17_bringup_resets_modes.md). -/
def RGN_PWR_REGION (r : Nat) : Nat := rgnReg r 0xA0000C
def RGN_PWR_REGION_state (r : Nat) : Fld := ⟨RGN_PWR_REGION r, 28, 4⟩
def RGN_PWR_REGION_park (r : Nat) : Fld := ⟨RGN_PWR_REGION r, 0, 1⟩
/-- RGN_BLK_RST (R847, 17_bringup_resets_modes.md). -/
def RGN_BLK_RST (r : Nat) : Nat := rgnReg r 0xA00010
def RGN_BLK_RST_rst (r : Nat) : Fld := ⟨RGN_BLK_RST r, 0, 16⟩
/-- RGN_TEMP (R847, 17_bringup_resets_modes.md). -/
def RGN_TEMP (r : Nat) : Nat := rgnReg r 0xA00014
def RGN_TEMP_temp (r : Nat) : Fld := ⟨RGN_TEMP r, 0, 16⟩
/-- RGN_PWR_ERR (R847, 17_bringup_resets_modes.md). -/
def RGN_PWR_ERR (r : Nat) : Nat := rgnReg r 0xA00018
def RGN_PWR_ERR_park_rejected (r : Nat) : Fld := ⟨RGN_PWR_ERR r, 2, 1⟩
def RGN_PWR_ERR_cfg_rejected (r : Nat) : Fld := ⟨RGN_PWR_ERR r, 1, 1⟩
def RGN_PWR_ERR_reg_addr_err (r : Nat) : Fld := ⟨RGN_PWR_ERR r, 0, 1⟩
/-- RGN_SEC_TAMPER (R847, 17_bringup_resets_modes.md). -/
def RGN_SEC_TAMPER (r : Nat) : Nat := rgnReg r 0xD00000
def RGN_SEC_TAMPER_live (r : Nat) : Fld := ⟨RGN_SEC_TAMPER r, 0, 4⟩
/-- HST_LDR_STAT (R848, 17_bringup_resets_modes.md). -/
def HST_LDR_STAT (e : Nat) : Nat := hstReg e 0x3000010
def HST_LDR_STAT_state (e : Nat) : Fld := ⟨HST_LDR_STAT e, 28, 4⟩
def HST_LDR_STAT_reject (e : Nat) : Fld := ⟨HST_LDR_STAT e, 0, 8⟩
/-- HST_LDR_CTL (R848, 17_bringup_resets_modes.md). -/
def HST_LDR_CTL (e : Nat) : Nat := hstReg e 0x3000014
def HST_LDR_CTL_start (e : Nat) : Fld := ⟨HST_LDR_CTL e, 0, 1⟩
/-- CHP_FENCE_CTL (R880, 18_faults_and_recovery.md). -/
def CHP_FENCE_CTL (a : Nat) : Nat := chpReg a 0x50000
def CHP_FENCE_CTL_fence (a : Nat) : Fld := ⟨CHP_FENCE_CTL a, 31, 1⟩
def CHP_FENCE_CTL_rejoin (a : Nat) : Fld := ⟨CHP_FENCE_CTL a, 30, 1⟩
def CHP_FENCE_CTL_region (a : Nat) : Fld := ⟨CHP_FENCE_CTL a, 0, 3⟩
/-- CHP_REJOIN_STAT (R880, 18_faults_and_recovery.md). -/
def CHP_REJOIN_STAT (a : Nat) : Nat := chpReg a 0x50004
def CHP_REJOIN_STAT_phase (a : Nat) : Fld := ⟨CHP_REJOIN_STAT a, 28, 4⟩
def CHP_REJOIN_STAT_region (a : Nat) : Fld := ⟨CHP_REJOIN_STAT a, 24, 3⟩
def CHP_REJOIN_STAT_source (a : Nat) : Fld := ⟨CHP_REJOIN_STAT a, 20, 3⟩
def CHP_REJOIN_STAT_remaining (a : Nat) : Fld := ⟨CHP_REJOIN_STAT a, 0, 20⟩
/-- CHP_FENCE_CAUSE (R880, 18_faults_and_recovery.md). -/
def CHP_FENCE_CAUSE (a i : Nat) : Nat := chpReg a (0x50010 + i * 0x4)
def CHP_FENCE_CAUSE_fences (a i : Nat) : Fld := ⟨CHP_FENCE_CAUSE a i, 16, 16⟩
def CHP_FENCE_CAUSE_cause (a i : Nat) : Fld := ⟨CHP_FENCE_CAUSE a i, 0, 8⟩
/-- CHP_FAULT_CTL (R880, 18_faults_and_recovery.md). -/
def CHP_FAULT_CTL (a : Nat) : Nat := chpReg a 0x50030
def CHP_FAULT_CTL_fault_n (a : Nat) : Fld := ⟨CHP_FAULT_CTL a, 1, 1⟩
def CHP_FAULT_CTL_ack (a : Nat) : Fld := ⟨CHP_FAULT_CTL a, 0, 1⟩
/-- CHP_FENCE_ERR (R880, 18_faults_and_recovery.md). -/
def CHP_FENCE_ERR (a : Nat) : Nat := chpReg a 0x50034
def CHP_FENCE_ERR_rejoin_failed (a : Nat) : Fld := ⟨CHP_FENCE_ERR a, 2, 1⟩
def CHP_FENCE_ERR_fence_rejected (a : Nat) : Fld := ⟨CHP_FENCE_ERR a, 1, 1⟩
def CHP_FENCE_ERR_reg_addr_err (a : Nat) : Fld := ⟨CHP_FENCE_ERR a, 0, 1⟩
/-- RGN_JNL_HEAD (R881, 18_faults_and_recovery.md). -/
def RGN_JNL_HEAD (r : Nat) : Nat := rgnReg r 0xD00010
def RGN_JNL_HEAD_number (r : Nat) : Fld := ⟨RGN_JNL_HEAD r, 0, 32⟩
/-- RGN_JNL_STAT (R881, 18_faults_and_recovery.md). -/
def RGN_JNL_STAT (r : Nat) : Nat := rgnReg r 0xD00014
def RGN_JNL_STAT_suppressed (r : Nat) : Fld := ⟨RGN_JNL_STAT r, 16, 16⟩
def RGN_JNL_STAT_reg_addr_err (r : Nat) : Fld := ⟨RGN_JNL_STAT r, 2, 1⟩
def RGN_JNL_STAT_mram_err (r : Nat) : Fld := ⟨RGN_JNL_STAT r, 1, 1⟩
def RGN_JNL_STAT_unacked (r : Nat) : Fld := ⟨RGN_JNL_STAT r, 0, 1⟩
/-- RGN_MP_STAT (R881, 18_faults_and_recovery.md). -/
def RGN_MP_STAT (r : Nat) : Nat := rgnReg r 0xD00018
def RGN_MP_STAT_restarts (r : Nat) : Fld := ⟨RGN_MP_STAT r, 8, 8⟩
def RGN_MP_STAT_state (r : Nat) : Fld := ⟨RGN_MP_STAT r, 0, 2⟩
/-- RGN_FAILOVER_STAT (R881, 18_faults_and_recovery.md). -/
def RGN_FAILOVER_STAT (r : Nat) : Nat := rgnReg r 0xD0001C
def RGN_FAILOVER_STAT_deferred (r : Nat) : Fld := ⟨RGN_FAILOVER_STAT r, 16, 16⟩
def RGN_FAILOVER_STAT_missed (r : Nat) : Fld := ⟨RGN_FAILOVER_STAT r, 0, 3⟩
/-- CHP_VIN_STAT (R904, 19_electrical_and_package.md). -/
def CHP_VIN_STAT (a : Nat) : Nat := chpReg a 0x60000
def CHP_VIN_STAT_i_vin (a : Nat) : Fld := ⟨CHP_VIN_STAT a, 16, 16⟩
def CHP_VIN_STAT_vin (a : Nat) : Fld := ⟨CHP_VIN_STAT a, 0, 16⟩
/-- CHP_PWR_STAT (R904, 19_electrical_and_package.md). -/
def CHP_PWR_STAT (a : Nat) : Nat := chpReg a 0x60004
def CHP_PWR_STAT_peak (a : Nat) : Fld := ⟨CHP_PWR_STAT a, 16, 16⟩
def CHP_PWR_STAT_power (a : Nat) : Fld := ⟨CHP_PWR_STAT a, 0, 16⟩
/-- CHP_RAIL_STAT (R904, 19_electrical_and_package.md). -/
def CHP_RAIL_STAT (a : Nat) : Nat := chpReg a 0x60008
def CHP_RAIL_STAT_good (a : Nat) : Fld := ⟨CHP_RAIL_STAT a, 0, 10⟩
/-- CHP_THERM_CFG (R904, 19_electrical_and_package.md). -/
def CHP_THERM_CFG (a : Nat) : Nat := chpReg a 0x6000C
def CHP_THERM_CFG_warn_margin (a : Nat) : Fld := ⟨CHP_THERM_CFG a, 0, 8⟩
/-- CHP_THERM_STAT (R904, 19_electrical_and_package.md). -/
def CHP_THERM_STAT (a : Nat) : Nat := chpReg a 0x60010
def CHP_THERM_STAT_trips (a : Nat) : Fld := ⟨CHP_THERM_STAT a, 24, 8⟩
def CHP_THERM_STAT_region (a : Nat) : Fld := ⟨CHP_THERM_STAT a, 16, 3⟩
def CHP_THERM_STAT_temp (a : Nat) : Fld := ⟨CHP_THERM_STAT a, 0, 16⟩
/-- CHP_GPIO_OUT (R904, 19_electrical_and_package.md). -/
def CHP_GPIO_OUT (a : Nat) : Nat := chpReg a 0x60020
def CHP_GPIO_OUT_out (a : Nat) : Fld := ⟨CHP_GPIO_OUT a, 0, 16⟩
/-- CHP_GPIO_OE (R904, 19_electrical_and_package.md). -/
def CHP_GPIO_OE (a : Nat) : Nat := chpReg a 0x60024
def CHP_GPIO_OE_oe (a : Nat) : Fld := ⟨CHP_GPIO_OE a, 0, 16⟩
/-- CHP_GPIO_IN (R904, 19_electrical_and_package.md). -/
def CHP_GPIO_IN (a : Nat) : Nat := chpReg a 0x60028
def CHP_GPIO_IN_in (a : Nat) : Fld := ⟨CHP_GPIO_IN a, 0, 16⟩
/-- CHP_SUPPLY_ERR (R904, 19_electrical_and_package.md). -/
def CHP_SUPPLY_ERR (a : Nat) : Nat := chpReg a 0x60030
def CHP_SUPPLY_ERR_guest_limit (a : Nat) : Fld := ⟨CHP_SUPPLY_ERR a, 3, 1⟩
def CHP_SUPPLY_ERR_vin_low (a : Nat) : Fld := ⟨CHP_SUPPLY_ERR a, 2, 1⟩
def CHP_SUPPLY_ERR_cfg_rejected (a : Nat) : Fld := ⟨CHP_SUPPLY_ERR a, 1, 1⟩
def CHP_SUPPLY_ERR_reg_addr_err (a : Nat) : Fld := ⟨CHP_SUPPLY_ERR a, 0, 1⟩
/-- RGN_LEARN_LEARNED (R354, 06_tables_and_learning.md). -/
def RGN_LEARN_LEARNED (r i : Nat) : Nat := rgnReg r (0x402004 + i * 0x20)
def RGN_LEARN_LEARNED_count (r i : Nat) : Fld := ⟨RGN_LEARN_LEARNED r i, 0, 32⟩
/-- RGN_LEARN_MOVED (R354, 06_tables_and_learning.md). -/
def RGN_LEARN_MOVED (r i : Nat) : Nat := rgnReg r (0x402008 + i * 0x20)
def RGN_LEARN_MOVED_count (r i : Nat) : Fld := ⟨RGN_LEARN_MOVED r i, 0, 32⟩
/-- RGN_LEARN_LIMITED (R354, 06_tables_and_learning.md). -/
def RGN_LEARN_LIMITED (r i : Nat) : Nat := rgnReg r (0x40200C + i * 0x20)
def RGN_LEARN_LIMITED_count (r i : Nat) : Fld := ⟨RGN_LEARN_LIMITED r i, 0, 32⟩
/-- RGN_LEARN_FULL (R354, 06_tables_and_learning.md). -/
def RGN_LEARN_FULL (r i : Nat) : Nat := rgnReg r (0x402010 + i * 0x20)
def RGN_LEARN_FULL_count (r i : Nat) : Fld := ⟨RGN_LEARN_FULL r i, 0, 32⟩
/-- RGN_RCH_CFG (R487, 08_channels_latches_coprocessor.md). -/
def RGN_RCH_CFG (r i : Nat) : Nat := rgnReg r (0x7C0000 + i * 0x8)
def RGN_RCH_CFG_enable (r i : Nat) : Fld := ⟨RGN_RCH_CFG r i, 31, 1⟩
def RGN_RCH_CFG_workers_send (r i : Nat) : Fld := ⟨RGN_RCH_CFG r i, 30, 1⟩
def RGN_RCH_CFG_flush (r i : Nat) : Fld := ⟨RGN_RCH_CFG r i, 12, 1⟩
def RGN_RCH_CFG_recv_block (r i : Nat) : Fld := ⟨RGN_RCH_CFG r i, 8, 4⟩
def RGN_RCH_CFG_recv_cell (r i : Nat) : Fld := ⟨RGN_RCH_CFG r i, 5, 3⟩
def RGN_RCH_CFG_recv_ctx (r i : Nat) : Fld := ⟨RGN_RCH_CFG r i, 0, 5⟩
/-- RGN_RCH_STAT (R487, 08_channels_latches_coprocessor.md). -/
def RGN_RCH_STAT (r i : Nat) : Nat := rgnReg r (0x7C0004 + i * 0x8)
def RGN_RCH_STAT_discarded (r i : Nat) : Fld := ⟨RGN_RCH_STAT r i, 24, 8⟩
def RGN_RCH_STAT_stagers (r i : Nat) : Fld := ⟨RGN_RCH_STAT r i, 12, 12⟩
def RGN_RCH_STAT_depth (r i : Nat) : Fld := ⟨RGN_RCH_STAT r i, 0, 5⟩
/-- RGN_RCH_ERR (R487, 08_channels_latches_coprocessor.md). -/
def RGN_RCH_ERR (r : Nat) : Nat := rgnReg r 0x7C1000
def RGN_RCH_ERR_put_stray (r : Nat) : Fld := ⟨RGN_RCH_ERR r, 3, 1⟩
def RGN_RCH_ERR_overflow (r : Nat) : Fld := ⟨RGN_RCH_ERR r, 2, 1⟩
def RGN_RCH_ERR_cfg_rejected (r : Nat) : Fld := ⟨RGN_RCH_ERR r, 1, 1⟩
def RGN_RCH_ERR_reg_addr_err (r : Nat) : Fld := ⟨RGN_RCH_ERR r, 0, 1⟩
/-- CEL_RXTS_NS (R716, 14_ports_and_host_links.md). -/
def CEL_RXTS_NS (c : Nat) : Nat := csrReg c 0x808
def CEL_RXTS_NS_ns (c : Nat) : Fld := ⟨CEL_RXTS_NS c, 0, 30⟩
/-- CEL_RXTS_SEC (R716, 14_ports_and_host_links.md). -/
def CEL_RXTS_SEC (c : Nat) : Nat := csrReg c 0x809
def CEL_RXTS_SEC_sec (c : Nat) : Fld := ⟨CEL_RXTS_SEC c, 0, 32⟩

/-- The region registers of sub-block 0 (R77). -/
def irqRegs : List RegDesc := [
  ⟨"RGN_IRQ_SRC", 0x0, [⟨0, 1024, 0x4⟩], [⟨24, 8, .ro, 0x0, false⟩, ⟨16, 4, .rw, 0xF, false⟩, ⟨8, 8, .rw, 0x80, false⟩, ⟨0, 4, .rw, 0x8, false⟩]⟩,
  ⟨"RGN_IRQ_EN", 0x1000, [⟨0, 32, 0x4⟩], [⟨0, 32, .ro, 0x0, false⟩]⟩,
  ⟨"RGN_IRQ_EN_SET", 0x1080, [⟨0, 32, 0x4⟩], [⟨0, 32, .w1s, 0x0, false⟩]⟩,
  ⟨"RGN_IRQ_EN_CLR", 0x1100, [⟨0, 32, 0x4⟩], [⟨0, 32, .w1c, 0x0, false⟩]⟩,
  ⟨"RGN_IRQ_PEND", 0x1180, [⟨0, 32, 0x4⟩], [⟨0, 32, .ro, 0x0, false⟩]⟩,
  ⟨"RGN_IRQ_PEND_SET", 0x1200, [⟨0, 32, 0x4⟩], [⟨0, 32, .wo, 0x0, false⟩]⟩,
  ⟨"RGN_IRQ_PEND_CLR", 0x1280, [⟨0, 32, 0x4⟩], [⟨0, 32, .wo, 0x0, false⟩]⟩,
  ⟨"RGN_IRQ_CLAIM_MP", 0x1400, [], [⟨31, 1, .rc, 0x0, false⟩, ⟨16, 13, .rc, 0x0, false⟩, ⟨0, 8, .rc, 0x0, false⟩]⟩,
  ⟨"RGN_IRQ_FALLBACK", 0x1404, [], [⟨0, 8, .rw, 0x80, false⟩]⟩,
  ⟨"RGN_IRQ_RCFG", 0x1408, [], [⟨0, 4, .rw, 0x8, false⟩]⟩,
  ⟨"RGN_IRQ_INBOX", 0x140C, [], [⟨16, 16, .rc, 0x0, false⟩, ⟨0, 7, .ro, 0x0, false⟩]⟩,
  ⟨"RGN_IRQ_OVF", 0x1410, [], [⟨0, 32, .rc, 0x0, false⟩]⟩,
  ⟨"RGN_IRQ_ERR", 0x1414, [], [⟨4, 1, .w1c, 0x0, false⟩, ⟨3, 1, .w1c, 0x0, false⟩, ⟨2, 1, .w1c, 0x0, false⟩, ⟨1, 1, .w1c, 0x0, false⟩, ⟨0, 1, .w1c, 0x0, false⟩]⟩,
  ⟨"RGN_IRQ_HVEC", 0x8000, [⟨0, 8192, 0x4⟩], [⟨31, 1, .rw, 0x0, false⟩, ⟨16, 8, .rc, 0x0, false⟩, ⟨0, 11, .rw, 0x0, false⟩]⟩]

/-- The region registers of sub-block 1 (R77). -/
def bpmRegs : List RegDesc := [
  ⟨"RGN_BPM_CTL", 0x100000, [], [⟨0, 18, .rw, 0x1000, false⟩]⟩,
  ⟨"RGN_BPM_FREE", 0x100004, [], [⟨0, 18, .ro, 0x20000, false⟩]⟩,
  ⟨"RGN_DEEP_CFG", 0x100008, [], [⟨24, 8, .rw, 0x0, false⟩, ⟨0, 15, .rw, 0x0, false⟩]⟩,
  ⟨"RGN_DEEP_FREE", 0x10000C, [], [⟨0, 25, .ro, 0x0, false⟩]⟩,
  ⟨"RGN_BPM_LOW", 0x100010, [], [⟨0, 18, .rw, 0x2000, false⟩]⟩,
  ⟨"RGN_BPM_ERR", 0x100014, [], [⟨3, 1, .w1c, 0x0, false⟩, ⟨2, 1, .w1c, 0x0, false⟩, ⟨1, 1, .w1c, 0x0, false⟩, ⟨0, 1, .w1c, 0x0, false⟩]⟩,
  ⟨"RGN_BPM_ABUSE_LO", 0x100018, [], [⟨0, 32, .ro, 0x0, false⟩]⟩,
  ⟨"RGN_BPM_ABUSE_HI", 0x10001C, [], [⟨12, 3, .ro, 0x0, false⟩, ⟨0, 11, .ro, 0x0, false⟩]⟩,
  ⟨"RGN_BPM_ABUSE_CNT", 0x100020, [], [⟨24, 8, .rc, 0x0, false⟩, ⟨16, 8, .rc, 0x0, false⟩, ⟨8, 8, .rc, 0x0, false⟩, ⟨0, 8, .rc, 0x0, false⟩]⟩,
  ⟨"RGN_BPM_LOST", 0x100024, [], [⟨0, 26, .ro, 0x0, false⟩]⟩,
  ⟨"RGN_BPM_QUOTA", 0x101000, [⟨0, 256, 0x10⟩], [⟨0, 26, .rw, 0x4000, false⟩]⟩,
  ⟨"RGN_BPM_USED", 0x101004, [⟨0, 256, 0x10⟩], [⟨25, 7, .ro, 0x0, false⟩, ⟨0, 25, .ro, 0x0, false⟩]⟩,
  ⟨"RGN_ADM_CFG", 0x102000, [⟨0, 9, 0x10⟩], [⟨31, 1, .rw, 0x0, false⟩, ⟨0, 7, .rw, 0x8, false⟩]⟩,
  ⟨"RGN_ADM_PFC", 0x102004, [⟨0, 9, 0x10⟩], [⟨16, 16, .rw, 0x800, false⟩, ⟨0, 16, .rw, 0x400, false⟩]⟩]

/-- The region registers of sub-block 2 (R77). -/
def dspRegs : List RegDesc := [
  ⟨"RGN_DSP_CTL", 0x200000, [], [⟨16, 8, .rw, 0xFF, false⟩, ⟨0, 14, .rw, 0x100, false⟩]⟩,
  ⟨"RGN_DSP_BP", 0x200004, [], [⟨16, 14, .rw, 0x1800, false⟩, ⟨0, 14, .rw, 0x1000, false⟩]⟩,
  ⟨"RGN_DSP_STAT", 0x200008, [], [⟨31, 1, .ro, 0x0, false⟩, ⟨30, 1, .ro, 0x0, false⟩, ⟨29, 1, .ro, 0x0, false⟩, ⟨14, 8, .ro, 0x0, false⟩, ⟨0, 14, .ro, 0x0, false⟩]⟩,
  ⟨"RGN_DSP_FLAGS", 0x200010, [], [⟨0, 32, .ro, 0xFFFFFFFF, false⟩]⟩,
  ⟨"RGN_DSP_FLAGS_SET", 0x200014, [], [⟨0, 32, .w1s, 0xFFFFFFFF, false⟩]⟩,
  ⟨"RGN_DSP_FLAGS_CLR", 0x200018, [], [⟨0, 32, .w1c, 0xFFFFFFFF, false⟩]⟩,
  ⟨"RGN_DSP_ERR", 0x20001C, [], [⟨3, 1, .w1c, 0x0, false⟩, ⟨2, 1, .w1c, 0x0, false⟩, ⟨1, 1, .w1c, 0x0, false⟩, ⟨0, 1, .w1c, 0x0, false⟩]⟩,
  ⟨"RGN_DSP_UNPLACED", 0x200020, [], [⟨0, 32, .rc, 0x0, false⟩]⟩,
  ⟨"RGN_DSP_BMODE", 0x200100, [⟨0, 16, 0x40⟩], [⟨1, 1, .rw, 0x0, false⟩, ⟨0, 1, .rw, 0x1, false⟩]⟩,
  ⟨"RGN_DSP_BFMASK", 0x200104, [⟨0, 16, 0x40⟩], [⟨0, 32, .rw, 0xFFFFFFFF, false⟩]⟩,
  ⟨"RGN_DSP_BSERVE", 0x200108, [⟨0, 16, 0x40⟩, ⟨0, 8, 0x4⟩], [⟨0, 32, .rw, 0x0, false⟩]⟩,
  ⟨"RGN_DSP_BLOAD0", 0x200128, [⟨0, 16, 0x40⟩], [⟨0, 32, .ro, 0x0, false⟩]⟩,
  ⟨"RGN_DSP_BLOAD1", 0x20012C, [⟨0, 16, 0x40⟩], [⟨0, 32, .ro, 0x0, false⟩]⟩,
  ⟨"RGN_DSP_BSLOTS", 0x200130, [⟨0, 16, 0x40⟩], [⟨16, 16, .ro, 0x0, false⟩, ⟨0, 16, .ro, 0x0, false⟩]⟩,
  ⟨"RGN_DSP_QCFG", 0x201000, [⟨0, 256, 0x10⟩], [⟨31, 1, .rw, 0x1, false⟩, ⟨30, 1, .rw, 0x0, false⟩, ⟨24, 4, .rw, 0x0, false⟩, ⟨16, 5, .rw, 0x0, false⟩]⟩,
  ⟨"RGN_DSP_QTHR", 0x201004, [⟨0, 256, 0x10⟩], [⟨16, 14, .rw, 0x400, false⟩, ⟨0, 14, .rw, 0x200, false⟩]⟩,
  ⟨"RGN_DSP_QSTAT", 0x201008, [⟨0, 256, 0x10⟩], [⟨16, 14, .rc, 0x0, false⟩, ⟨0, 14, .ro, 0x0, false⟩]⟩,
  ⟨"RGN_DSP_QWAIT", 0x20100C, [⟨0, 256, 0x10⟩], [⟨0, 16, .rc, 0x0, false⟩]⟩]

/-- The region registers of sub-block 3 (R77). -/
def feRegs : List RegDesc := [
  ⟨"RGN_OD_MAP", 0x308000, [⟨0, 72, 0x4⟩], [⟨0, 6, .rw, 0x0, false⟩]⟩,
  ⟨"RGN_OD_PROFILE", 0x308200, [⟨0, 64, 0x4⟩], [⟨16, 4, .ro, 0x3, false⟩, ⟨8, 3, .rw, 0x1, false⟩, ⟨0, 4, .rw, 0x3, false⟩]⟩,
  ⟨"RGN_RECIRC_CTL", 0x308300, [], [⟨0, 14, .rw, 0x100, false⟩]⟩,
  ⟨"RGN_FE_CTL", 0x300000, [], [⟨0, 4, .rw, 0xF, false⟩]⟩,
  ⟨"RGN_FE_STAT", 0x300004, [], [⟨4, 14, .ro, 0x0, false⟩, ⟨0, 4, .ro, 0xF, false⟩]⟩,
  ⟨"RGN_PANE_WR", 0x300008, [], [⟨8, 1, .ro, 0x0, false⟩, ⟨4, 1, .rw, 0x0, false⟩, ⟨1, 1, .wo, 0x0, false⟩, ⟨0, 1, .wo, 0x0, false⟩]⟩,
  ⟨"RGN_PRK_DIV", 0x30000C, [], [⟨0, 12, .ro, 0x800, false⟩]⟩,
  ⟨"RGN_PRK_REJ", 0x300010, [], [⟨28, 4, .ro, 0x0, false⟩, ⟨16, 1, .ro, 0x0, false⟩, ⟨12, 2, .ro, 0x0, false⟩, ⟨0, 11, .ro, 0x0, false⟩]⟩,
  ⟨"RGN_FE_ERR", 0x300014, [], [⟨5, 1, .w1c, 0x0, false⟩, ⟨4, 1, .w1c, 0x0, false⟩, ⟨3, 1, .w1c, 0x0, false⟩, ⟨2, 1, .w1c, 0x0, false⟩, ⟨1, 1, .w1c, 0x0, false⟩, ⟨0, 1, .w1c, 0x0, false⟩]⟩,
  ⟨"RGN_PARSE_CNT", 0x300020, [⟨0, 4, 0x4⟩], [⟨0, 32, .rc, 0x0, false⟩]⟩,
  ⟨"RGN_CLS_DIV0", 0x300040, [], [⟨20, 6, .rw, 0x8, false⟩, ⟨15, 5, .rw, 0x10, false⟩, ⟨8, 7, .rw, 0x3F, false⟩, ⟨0, 4, .rw, 0x8, false⟩]⟩,
  ⟨"RGN_CLS_DIV1", 0x300044, [], [⟨20, 6, .rw, 0x8, false⟩, ⟨15, 5, .rw, 0x10, false⟩, ⟨8, 7, .rw, 0x3F, false⟩, ⟨0, 4, .rw, 0x8, false⟩]⟩,
  ⟨"RGN_CLS_REJ", 0x300048, [], [⟨28, 4, .ro, 0x0, false⟩, ⟨16, 1, .ro, 0x0, false⟩, ⟨13, 3, .ro, 0x0, false⟩, ⟨0, 12, .ro, 0x0, false⟩]⟩,
  ⟨"RGN_CLS_ERR", 0x30004C, [], [⟨2, 1, .w1c, 0x0, false⟩, ⟨1, 1, .w1c, 0x0, false⟩, ⟨0, 1, .w1c, 0x0, false⟩]⟩,
  ⟨"RGN_CLS_HIT", 0x300060, [⟨0, 8, 0x4⟩], [⟨0, 32, .rc, 0x0, false⟩]⟩]

/-- The region registers of sub-block 4 (R77). -/
def tblRegs : List RegDesc := [
  ⟨"RGN_TBL_CODE", 0x400000, [], [⟨0, 32, .ro, 0x0, false⟩]⟩,
  ⟨"RGN_TBL_ERR", 0x400004, [], [⟨7, 1, .w1c, 0x0, false⟩, ⟨6, 1, .w1c, 0x0, false⟩, ⟨5, 1, .w1c, 0x0, false⟩, ⟨4, 1, .w1c, 0x0, false⟩, ⟨3, 1, .w1c, 0x0, false⟩, ⟨2, 1, .w1c, 0x0, false⟩, ⟨1, 1, .w1c, 0x0, false⟩, ⟨0, 1, .w1c, 0x0, false⟩]⟩,
  ⟨"RGN_TBL_REPAIR", 0x400008, [], [⟨16, 16, .rc, 0x0, false⟩, ⟨0, 16, .ro, 0x0, false⟩]⟩,
  ⟨"RGN_TBL_BADLINE", 0x40000C, [], [⟨0, 29, .ro, 0x0, false⟩]⟩,
  ⟨"RGN_TBL_BADTABLE", 0x400018, [], [⟨0, 8, .ro, 0x0, false⟩]⟩,
  ⟨"RGN_AGE_CTL", 0x400010, [], [⟨0, 13, .rw, 0x400, false⟩]⟩,
  ⟨"RGN_AGE_STAT", 0x400014, [], [⟨0, 32, .ro, 0x0, false⟩]⟩,
  ⟨"RGN_TBL_TYPE", 0x401000, [⟨0, 256, 0x10⟩], [⟨28, 4, .rw, 0x0, false⟩, ⟨27, 1, .rw, 0x0, false⟩, ⟨21, 6, .rw, 0x0, false⟩, ⟨16, 5, .rw, 0x0, false⟩, ⟨15, 1, .rw, 0x0, false⟩, ⟨0, 8, .rw, 0x0, false⟩]⟩,
  ⟨"RGN_TBL_ALLOC", 0x401004, [⟨0, 256, 0x10⟩], [⟨16, 16, .rw, 0x0, false⟩, ⟨0, 16, .rw, 0x0, false⟩]⟩,
  ⟨"RGN_TBL_AGE", 0x401008, [⟨0, 256, 0x10⟩], [⟨31, 1, .rw, 0x0, false⟩, ⟨26, 5, .rw, 0x0, false⟩, ⟨14, 12, .rw, 0x0, false⟩]⟩,
  ⟨"RGN_TBL_SEED", 0x40100C, [⟨0, 256, 0x10⟩], [⟨0, 32, .rw, 0x0, false⟩]⟩,
  ⟨"RGN_LEARN_CFG", 0x402000, [⟨0, 9, 0x20⟩], [⟨31, 1, .rw, 0x1, false⟩, ⟨30, 1, .rw, 0x0, false⟩, ⟨16, 14, .rw, 0x40, false⟩, ⟨0, 16, .rw, 0x100, false⟩]⟩,
  ⟨"RGN_TBL_LATCH_STAT", 0x403000, [], [⟨16, 16, .rc, 0x0, false⟩, ⟨0, 16, .rc, 0x0, false⟩]⟩,
  ⟨"RGN_LEARN_LEARNED", 0x402004, [⟨0, 9, 0x20⟩], [⟨0, 32, .rc, 0x0, false⟩]⟩,
  ⟨"RGN_LEARN_MOVED", 0x402008, [⟨0, 9, 0x20⟩], [⟨0, 32, .rc, 0x0, false⟩]⟩,
  ⟨"RGN_LEARN_LIMITED", 0x40200C, [⟨0, 9, 0x20⟩], [⟨0, 32, .rc, 0x0, false⟩]⟩,
  ⟨"RGN_LEARN_FULL", 0x402010, [⟨0, 9, 0x20⟩], [⟨0, 32, .rc, 0x0, false⟩]⟩]

/-- The region registers of sub-block 5 (R77). -/
def egRegs : List RegDesc := [
  ⟨"RGN_INFLIGHT", 0x5F0000, [], [⟨0, 20, .ro, 0x0, false⟩]⟩,
  ⟨"RGN_RELEASE_STAT", 0x5F0004, [], [⟨22, 8, .rc, 0x0, false⟩, ⟨14, 8, .rc, 0x0, false⟩, ⟨0, 14, .ro, 0x0, false⟩]⟩,
  ⟨"RGN_RELEASE_ERR", 0x5F0008, [], [⟨5, 1, .w1c, 0x0, false⟩, ⟨4, 1, .w1c, 0x0, false⟩, ⟨3, 1, .w1c, 0x0, false⟩, ⟨2, 1, .w1c, 0x0, false⟩, ⟨1, 1, .w1c, 0x0, false⟩, ⟨0, 1, .w1c, 0x0, false⟩]⟩,
  ⟨"RGN_DROP_LO", 0x5F0100, [⟨1, 17, 0x8⟩], [⟨0, 32, .ro, 0x0, false⟩]⟩,
  ⟨"RGN_DROP_HI", 0x5F0104, [⟨1, 17, 0x8⟩], [⟨0, 16, .ro, 0x0, false⟩]⟩,
  ⟨"RGN_EQ_CFG", 0x500000, [⟨0, 4096, 0x10⟩], [⟨31, 1, .rw, 0x0, false⟩, ⟨30, 1, .rw, 0x0, false⟩, ⟨24, 6, .rw, 0x0, false⟩, ⟨21, 3, .rw, 0x0, false⟩, ⟨18, 3, .rw, 0x0, false⟩, ⟨0, 16, .rw, 0x800, false⟩]⟩,
  ⟨"RGN_EQ_LIM", 0x500004, [⟨0, 4096, 0x10⟩], [⟨16, 16, .rw, 0x40, false⟩, ⟨0, 16, .rw, 0x400, false⟩]⟩,
  ⟨"RGN_EQ_SHAPE", 0x500008, [⟨0, 4096, 0x10⟩], [⟨31, 1, .rw, 0x0, false⟩, ⟨13, 18, .rw, 0x0, false⟩, ⟨0, 13, .rw, 0x0, false⟩]⟩,
  ⟨"RGN_EQ_STAT", 0x50000C, [⟨0, 4096, 0x10⟩], [⟨31, 1, .ro, 0x0, false⟩, ⟨30, 1, .ro, 0x0, false⟩, ⟨0, 23, .ro, 0x0, false⟩]⟩,
  ⟨"RGN_EG_CFG", 0x510000, [⟨0, 64, 0x10⟩], [⟨31, 1, .rw, 0x0, false⟩, ⟨24, 3, .rw, 0x0, false⟩, ⟨16, 3, .rw, 0x0, false⟩, ⟨0, 16, .rw, 0x2000, false⟩]⟩,
  ⟨"RGN_EG_SHAPE", 0x510004, [⟨0, 64, 0x10⟩], [⟨31, 1, .rw, 0x0, false⟩, ⟨13, 18, .rw, 0x0, false⟩, ⟨0, 13, .rw, 0x0, false⟩]⟩,
  ⟨"RGN_EP_SHAPE", 0x511000, [⟨0, 8, 0x10⟩], [⟨31, 1, .rw, 0x0, false⟩, ⟨13, 18, .rw, 0x0, false⟩, ⟨0, 13, .rw, 0x0, false⟩]⟩,
  ⟨"RGN_EP_PFC", 0x511004, [⟨0, 8, 0x10⟩], [⟨16, 16, .rw, 0x3E8, false⟩, ⟨8, 8, .rw, 0x0, false⟩, ⟨0, 8, .rw, 0x0, false⟩]⟩,
  ⟨"RGN_EP_STAT", 0x511008, [⟨0, 8, 0x10⟩], [⟨16, 8, .ro, 0x0, false⟩, ⟨8, 8, .ro, 0x0, false⟩, ⟨0, 8, .ro, 0x0, false⟩]⟩,
  ⟨"RGN_EQ_ERR", 0x512000, [], [⟨3, 1, .w1c, 0x0, false⟩, ⟨2, 1, .w1c, 0x0, false⟩, ⟨1, 1, .w1c, 0x0, false⟩, ⟨0, 1, .w1c, 0x0, false⟩]⟩,
  ⟨"RGN_MIRROR", 0x513000, [⟨0, 64, 0x4⟩], [⟨31, 1, .rw, 0x0, false⟩, ⟨15, 15, .rw, 0x0, false⟩, ⟨0, 14, .rw, 0x0, false⟩]⟩,
  ⟨"RGN_EP_TCQ", 0x514000, [⟨0, 8, 0x20⟩, ⟨0, 8, 0x4⟩], [⟨0, 12, .rw, 0x0, false⟩]⟩,
  ⟨"RGN_REPL", 0x520000, [⟨1, 255, 0x40⟩, ⟨0, 16, 0x4⟩], [⟨31, 1, .rw, 0x0, false⟩, ⟨0, 15, .rw, 0x0, false⟩]⟩]

/-- The region registers of sub-block 6 (R77). -/
def hbmRegs : List RegDesc := [
  ⟨"RGN_HBM_CFG", 0x600000, [], [⟨6, 2, .rw, 0x0, false⟩, ⟨5, 1, .rw, 0x1, false⟩, ⟨0, 2, .rw, 0x2, false⟩]⟩,
  ⟨"RGN_HBM_STAT", 0x600004, [], [⟨24, 8, .ro, 0x0, false⟩, ⟨19, 1, .ro, 0x0, false⟩, ⟨18, 1, .ro, 0x0, false⟩, ⟨16, 2, .ro, 0x0, false⟩, ⟨12, 2, .ro, 0x0, false⟩, ⟨0, 4, .ro, 0x0, false⟩]⟩,
  ⟨"RGN_HBM_PORT", 0x600010, [⟨0, 6, 0x4⟩], [⟨2, 1, .rw, 0x0, false⟩, ⟨1, 1, .rw, 0x1, false⟩, ⟨0, 1, .rw, 0x0, false⟩]⟩,
  ⟨"RGN_HBM_REFRESH", 0x600030, [], [⟨16, 16, .rc, 0x0, false⟩, ⟨0, 4, .rc, 0x0, false⟩]⟩,
  ⟨"RGN_HBM_ECC", 0x600034, [], [⟨16, 16, .rc, 0x0, false⟩, ⟨0, 16, .rc, 0x0, false⟩]⟩,
  ⟨"RGN_HBM_POISON_LO", 0x600038, [], [⟨0, 32, .ro, 0x0, false⟩]⟩,
  ⟨"RGN_HBM_POISON_HI", 0x60003C, [], [⟨31, 1, .ro, 0x0, false⟩, ⟨0, 3, .ro, 0x0, false⟩]⟩,
  ⟨"RGN_HBM_SCRUB", 0x600040, [], [⟨0, 16, .rw, 0x1000, false⟩]⟩,
  ⟨"RGN_HBM_TRAIN", 0x600044, [], [⟨16, 16, .rw, 0x64, false⟩, ⟨3, 1, .ro, 0x0, false⟩, ⟨2, 1, .ro, 0x0, false⟩, ⟨0, 1, .wo, 0x0, false⟩]⟩,
  ⟨"RGN_HBM_ERR", 0x600048, [], [⟨7, 1, .w1c, 0x0, false⟩, ⟨6, 1, .w1c, 0x0, false⟩, ⟨5, 1, .w1c, 0x0, false⟩, ⟨4, 1, .w1c, 0x0, false⟩, ⟨3, 1, .w1c, 0x0, false⟩, ⟨2, 1, .w1c, 0x0, false⟩, ⟨1, 1, .w1c, 0x0, false⟩, ⟨0, 1, .w1c, 0x0, false⟩]⟩,
  ⟨"RGN_HBM_WAIT", 0x60004C, [], [⟨16, 16, .rc, 0x0, false⟩, ⟨0, 16, .rc, 0x0, false⟩]⟩]

/-- The region registers of sub-block 7 (R77). -/
def cfRegs : List RegDesc := [
  ⟨"RGN_CF_LINK", 0x700000, [⟨0, 6, 0x10⟩], [⟨28, 4, .ro, 0x0, false⟩, ⟨20, 3, .ro, 0x0, false⟩, ⟨16, 4, .ro, 0x0, true⟩, ⟨13, 3, .ro, 0x0, true⟩, ⟨12, 1, .ro, 0x0, true⟩, ⟨1, 1, .rw, 0x0, false⟩, ⟨0, 1, .rw, 0x1, false⟩]⟩,
  ⟨"RGN_CF_LCNT", 0x700004, [⟨0, 6, 0x10⟩], [⟨16, 16, .rc, 0x0, false⟩, ⟨0, 16, .rc, 0x0, false⟩]⟩,
  ⟨"RGN_CF_DELAY", 0x700008, [⟨0, 6, 0x10⟩], [⟨0, 16, .ro, 0x0, false⟩]⟩,
  ⟨"RGN_CF_ROUTE", 0x700100, [], [⟨16, 10, .ro, 0x0, true⟩, ⟨8, 2, .ro, 0x0, false⟩, ⟨0, 8, .ro, 0x0, true⟩]⟩,
  ⟨"RGN_CF_TIMEOUT", 0x700104, [], [⟨0, 7, .rw, 0x20, false⟩]⟩,
  ⟨"RGN_CF_GACC", 0x700108, [], [⟨4, 1, .rw, 0x0, false⟩, ⟨3, 1, .rw, 0x0, false⟩, ⟨2, 1, .rw, 0x0, false⟩, ⟨1, 1, .rw, 0x0, false⟩, ⟨0, 1, .rw, 0x0, false⟩]⟩,
  ⟨"RGN_CF_TOCNT", 0x700110, [], [⟨16, 16, .rc, 0x0, false⟩, ⟨0, 16, .rc, 0x0, false⟩]⟩,
  ⟨"RGN_CF_ERR", 0x70010C, [], [⟨7, 1, .w1c, 0x0, false⟩, ⟨6, 1, .w1c, 0x0, false⟩, ⟨5, 1, .w1c, 0x0, false⟩, ⟨4, 1, .w1c, 0x0, false⟩, ⟨3, 1, .w1c, 0x0, false⟩, ⟨2, 1, .w1c, 0x0, false⟩, ⟨1, 1, .w1c, 0x0, false⟩, ⟨0, 1, .w1c, 0x0, false⟩]⟩,
  ⟨"RGN_CF_GERR", 0x700114, [], [⟨8, 3, .ro, 0x0, false⟩, ⟨0, 8, .ro, 0x0, false⟩]⟩,
  ⟨"RGN_RCH_CFG", 0x7C0000, [⟨0, 256, 0x8⟩], [⟨31, 1, .rw, 0x0, false⟩, ⟨30, 1, .rw, 0x1, false⟩, ⟨12, 1, .wo, 0x0, false⟩, ⟨8, 4, .rw, 0x0, false⟩, ⟨5, 3, .rw, 0x0, false⟩, ⟨0, 5, .rw, 0x0, false⟩]⟩,
  ⟨"RGN_RCH_STAT", 0x7C0004, [⟨0, 256, 0x8⟩], [⟨24, 8, .rc, 0x0, false⟩, ⟨12, 12, .ro, 0x0, false⟩, ⟨0, 5, .ro, 0x0, false⟩]⟩,
  ⟨"RGN_RCH_ERR", 0x7C1000, [], [⟨3, 1, .w1c, 0x0, false⟩, ⟨2, 1, .w1c, 0x0, false⟩, ⟨1, 1, .w1c, 0x0, false⟩, ⟨0, 1, .w1c, 0x0, false⟩]⟩]

/-- The region registers of sub-block 8 (R77). -/
def portRegs : List RegDesc := [
  ⟨"RGN_PORT_CFG", 0x800000, [⟨0, 8, 0x40⟩], [⟨31, 1, .rw, 0x0, false⟩, ⟨28, 3, .rw, 0x0, false⟩, ⟨24, 4, .rw, 0x1, false⟩, ⟨22, 2, .rw, 0x0, false⟩, ⟨0, 15, .rw, 0x600, false⟩]⟩,
  ⟨"RGN_PORT_TC", 0x800004, [⟨0, 8, 0x40⟩], [⟨24, 3, .rw, 0x0, false⟩, ⟨0, 24, .rw, 0xFAC688, false⟩]⟩,
  ⟨"RGN_PORT_PFC", 0x800008, [⟨0, 8, 0x40⟩], [⟨0, 16, .rw, 0xFFFF, false⟩]⟩,
  ⟨"RGN_PORT_STAT", 0x80000C, [⟨0, 8, 0x40⟩], [⟨31, 1, .ro, 0x0, false⟩, ⟨30, 1, .ro, 0x0, false⟩, ⟨0, 8, .ro, 0x0, false⟩]⟩,
  ⟨"RGN_PORT_FEC", 0x800010, [⟨0, 8, 0x40⟩], [⟨16, 16, .rc, 0x0, false⟩, ⟨0, 16, .rc, 0x0, false⟩]⟩,
  ⟨"RGN_PORT_DISC", 0x800014, [⟨0, 8, 0x40⟩], [⟨16, 16, .rc, 0x0, false⟩, ⟨0, 16, .rc, 0x0, false⟩]⟩,
  ⟨"RGN_PTS_INFO", 0x800018, [⟨0, 8, 0x40⟩], [⟨31, 1, .rc, 0x0, false⟩, ⟨24, 4, .ro, 0x0, false⟩, ⟨16, 8, .ro, 0x0, false⟩, ⟨0, 16, .ro, 0x0, false⟩]⟩,
  ⟨"RGN_PTS_NS", 0x80001C, [⟨0, 8, 0x40⟩], [⟨0, 32, .ro, 0x0, false⟩]⟩,
  ⟨"RGN_PTS_SEC", 0x800020, [⟨0, 8, 0x40⟩], [⟨0, 32, .ro, 0x0, false⟩]⟩,
  ⟨"RGN_PTS_STAT", 0x800024, [⟨0, 8, 0x40⟩], [⟨8, 8, .rc, 0x0, false⟩, ⟨0, 5, .ro, 0x0, false⟩]⟩,
  ⟨"RGN_PORT_DRAIN", 0x800028, [⟨0, 8, 0x40⟩], [⟨0, 32, .rc, 0x0, false⟩]⟩,
  ⟨"RGN_PORT_ERR", 0x800400, [], [⟨1, 1, .w1c, 0x0, false⟩, ⟨0, 1, .w1c, 0x0, false⟩]⟩]

/-- The region registers of sub-block 9 (R77). -/
def monRegs : List RegDesc := [
  ⟨"RGN_MON_CFG", 0x900000, [⟨0, 64, 0x20⟩], [⟨31, 1, .rw, 0x0, false⟩, ⟨29, 2, .rw, 0x0, false⟩, ⟨19, 10, .rw, 0x0, false⟩, ⟨16, 3, .rw, 0x0, false⟩, ⟨12, 1, .rw, 0x0, false⟩, ⟨0, 12, .rw, 0x0, false⟩]⟩,
  ⟨"RGN_MON_CNT_LO", 0x900004, [⟨0, 64, 0x20⟩], [⟨0, 32, .rw, 0x0, false⟩]⟩,
  ⟨"RGN_MON_CNT_HI", 0x900008, [⟨0, 64, 0x20⟩], [⟨0, 16, .rw, 0x0, false⟩]⟩,
  ⟨"RGN_MON_THR_LO", 0x90000C, [⟨0, 64, 0x20⟩], [⟨0, 32, .rw, 0x0, false⟩]⟩,
  ⟨"RGN_MON_THR_HI", 0x900010, [⟨0, 64, 0x20⟩], [⟨0, 16, .rw, 0x0, false⟩]⟩,
  ⟨"RGN_MON_SNAP_LO", 0x900014, [⟨0, 64, 0x20⟩], [⟨0, 32, .ro, 0x0, false⟩]⟩,
  ⟨"RGN_MON_SNAP_HI", 0x900018, [⟨0, 64, 0x20⟩], [⟨0, 16, .ro, 0x0, false⟩]⟩,
  ⟨"RGN_MON_HIT_LO", 0x900800, [], [⟨0, 32, .w1c, 0x0, false⟩]⟩,
  ⟨"RGN_MON_HIT_HI", 0x900804, [], [⟨0, 32, .w1c, 0x0, false⟩]⟩,
  ⟨"RGN_MON_ERR", 0x900808, [], [⟨1, 1, .w1c, 0x0, false⟩, ⟨0, 1, .w1c, 0x0, false⟩]⟩]

/-- The region registers of sub-block 10 (R77). -/
def pwrRegs : List RegDesc := [
  ⟨"RGN_CLK_CFG", 0xA00000, [], [⟨0, 2, .rw, 0x0, false⟩]⟩,
  ⟨"RGN_PWR_RET", 0xA00004, [], [⟨0, 16, .rw, 0x0, false⟩]⟩,
  ⟨"RGN_PWR_BSTAT", 0xA00008, [], [⟨0, 32, .ro, 0x0, false⟩]⟩,
  ⟨"RGN_PWR_REGION", 0xA0000C, [], [⟨28, 4, .ro, 0x0, false⟩, ⟨0, 1, .rw, 0x0, false⟩]⟩,
  ⟨"RGN_BLK_RST", 0xA00010, [], [⟨0, 16, .wo, 0x0, false⟩]⟩,
  ⟨"RGN_TEMP", 0xA00014, [], [⟨0, 16, .ro, 0x0, false⟩]⟩,
  ⟨"RGN_PWR_ERR", 0xA00018, [], [⟨2, 1, .w1c, 0x0, false⟩, ⟨1, 1, .w1c, 0x0, false⟩, ⟨0, 1, .w1c, 0x0, false⟩]⟩]

/-- The region registers of sub-block 11 (R77). -/
def shtRegs : List RegDesc := [
  ⟨"RGN_SHUTTER_STAT", 0xB00000, [], [⟨16, 16, .ro, 0x0, false⟩, ⟨7, 1, .ro, 0x0, false⟩, ⟨6, 1, .w1c, 0x0, false⟩, ⟨5, 1, .w1c, 0x0, false⟩, ⟨0, 3, .ro, 0x0, false⟩]⟩,
  ⟨"RGN_COMMIT_CTL", 0xB00004, [], [⟨0, 8, .rw, 0x20, false⟩]⟩,
  ⟨"RGN_STAGE_STAT", 0xB00008, [], [⟨16, 8, .ro, 0x0, false⟩, ⟨8, 8, .ro, 0x0, false⟩, ⟨0, 2, .ro, 0x0, false⟩]⟩,
  ⟨"RGN_COMMIT_ERR", 0xB0000C, [], [⟨6, 1, .w1c, 0x0, false⟩, ⟨5, 1, .w1c, 0x0, false⟩, ⟨4, 1, .w1c, 0x0, false⟩, ⟨3, 1, .w1c, 0x0, false⟩, ⟨2, 1, .w1c, 0x0, false⟩, ⟨1, 1, .w1c, 0x0, false⟩, ⟨0, 1, .w1c, 0x0, false⟩]⟩,
  ⟨"RGN_PANE_STAT", 0xB00010, [], [⟨16, 16, .ro, 0x0, false⟩, ⟨4, 1, .ro, 0x0, false⟩, ⟨2, 2, .ro, 0x0, false⟩, ⟨0, 2, .ro, 0x1, false⟩]⟩,
  ⟨"RGN_PANE_CODE0", 0xB00014, [], [⟨0, 32, .ro, 0x0, false⟩]⟩,
  ⟨"RGN_PANE_CODE1", 0xB00018, [], [⟨0, 32, .ro, 0x0, false⟩]⟩,
  ⟨"RGN_RECON_STAT", 0xB0001C, [], [⟨16, 16, .ro, 0x0, false⟩, ⟨0, 16, .ro, 0x0, false⟩]⟩]

/-- The region registers of sub-block 12 (R77). -/
def mpRegs : List RegDesc := [
  ⟨"RGN_LDG_SEL", 0xC00000, [], [⟨28, 4, .rw, 0x1, false⟩, ⟨25, 3, .ro, 0x0, true⟩, ⟨0, 16, .rw, 0x0, false⟩]⟩,
  ⟨"RGN_LDG_STATE", 0xC00004, [], [⟨16, 8, .ro, 0x0, false⟩, ⟨8, 4, .ro, 0x0, false⟩, ⟨0, 4, .ro, 0x0, false⟩]⟩,
  ⟨"RGN_LDG_MISMATCH", 0xC00008, [], [⟨0, 32, .rc, 0x0, false⟩]⟩,
  ⟨"RGN_LDG_CNT", 0xC0000C, [], [⟨16, 16, .rc, 0x0, false⟩, ⟨0, 16, .ro, 0x0, false⟩]⟩,
  ⟨"RGN_MB_PEND", 0xC00010, [], [⟨0, 32, .ro, 0x0, false⟩]⟩,
  ⟨"RGN_LDG_ERR", 0xC00014, [], [⟨1, 1, .w1c, 0x0, false⟩, ⟨0, 1, .w1c, 0x0, false⟩]⟩]

/-- The region registers of sub-block 13 (R77). -/
def secRegs : List RegDesc := [
  ⟨"RGN_SEC_TAMPER", 0xD00000, [], [⟨0, 4, .ro, 0x0, false⟩]⟩,
  ⟨"RGN_JNL_HEAD", 0xD00010, [], [⟨0, 32, .ro, 0x0, true⟩]⟩,
  ⟨"RGN_JNL_STAT", 0xD00014, [], [⟨16, 16, .rc, 0x0, false⟩, ⟨2, 1, .w1c, 0x0, false⟩, ⟨1, 1, .w1c, 0x0, false⟩, ⟨0, 1, .ro, 0x0, false⟩]⟩,
  ⟨"RGN_MP_STAT", 0xD00018, [], [⟨8, 8, .rc, 0x0, false⟩, ⟨0, 2, .ro, 0x0, false⟩]⟩,
  ⟨"RGN_FAILOVER_STAT", 0xD0001C, [], [⟨16, 16, .rc, 0x0, false⟩, ⟨0, 3, .ro, 0x0, false⟩]⟩]

/-- The chip registers of sub-block 0 (R66). -/
def chip0Regs : List RegDesc := [
  ⟨"CHP_ID", 0x0, [], [⟨20, 12, .ro, 0xA20, false⟩, ⟨16, 4, .ro, 0x1, true⟩, ⟨14, 2, .ro, 0x1, true⟩, ⟨4, 4, .ro, 0x0, true⟩, ⟨0, 4, .ro, 0x0, true⟩]⟩,
  ⟨"CHP_POPULATION", 0x4, [], [⟨16, 8, .ro, 0xFF, true⟩, ⟨8, 8, .ro, 0x0, true⟩, ⟨0, 8, .ro, 0xFF, true⟩]⟩,
  ⟨"CHP_STRAPS", 0x8, [], [⟨10, 1, .ro, 0x0, false⟩, ⟨9, 1, .ro, 0x0, false⟩, ⟨8, 1, .ro, 0x0, false⟩, ⟨4, 3, .ro, 0x4, false⟩, ⟨0, 3, .ro, 0x0, false⟩]⟩,
  ⟨"CHP_COMPAT", 0xC, [], [⟨0, 1, .rw, 0x0, false⟩]⟩,
  ⟨"CHP_ID_ERR", 0x10, [], [⟨2, 1, .w1c, 0x0, false⟩, ⟨1, 1, .w1c, 0x0, false⟩, ⟨0, 1, .w1c, 0x0, false⟩]⟩]

/-- The chip registers of sub-block 1 (R66). -/
def chip1Regs : List RegDesc := [
  ⟨"CHP_MODE_REQ", 0x10000, [], [⟨31, 1, .wo, 0x0, false⟩, ⟨30, 1, .rw, 0x0, false⟩, ⟨16, 5, .rw, 0x10, false⟩, ⟨0, 3, .rw, 0x1, false⟩]⟩,
  ⟨"CHP_MODE_AT_LO", 0x10004, [], [⟨0, 32, .rw, 0x0, false⟩]⟩,
  ⟨"CHP_MODE_AT_HI", 0x10008, [], [⟨0, 16, .rw, 0x0, false⟩]⟩,
  ⟨"CHP_MODE_STAT", 0x1000C, [], [⟨31, 1, .ro, 0x0, false⟩, ⟨28, 3, .ro, 0x0, false⟩, ⟨24, 4, .ro, 0x0, false⟩, ⟨8, 16, .ro, 0x0, false⟩, ⟨3, 5, .ro, 0x0, false⟩, ⟨0, 3, .ro, 0x0, false⟩]⟩,
  ⟨"CHP_MODE_ERR", 0x10010, [], [⟨2, 1, .w1c, 0x0, false⟩, ⟨1, 1, .w1c, 0x0, false⟩, ⟨0, 1, .w1c, 0x0, false⟩]⟩,
  ⟨"CHP_RST_CTL", 0x10014, [], [⟨8, 8, .wo, 0x0, false⟩, ⟨1, 1, .wo, 0x0, false⟩, ⟨0, 1, .wo, 0x0, false⟩]⟩,
  ⟨"CHP_RST_CAUSE", 0x10018, [], [⟨0, 4, .ro, 0x1, false⟩]⟩,
  ⟨"CHP_BOOT_STAT", 0x1001C, [], [⟨28, 4, .ro, 0x0, false⟩, ⟨0, 16, .ro, 0x0, false⟩]⟩]

/-- The chip registers of sub-block 2 (R66). -/
def chip2Regs : List RegDesc := [
  ⟨"CHP_MON_CFG", 0x20000, [⟨0, 32, 0x20⟩], [⟨31, 1, .rw, 0x0, false⟩, ⟨29, 2, .rw, 0x0, false⟩, ⟨19, 10, .rw, 0x0, false⟩, ⟨16, 3, .rw, 0x0, false⟩, ⟨12, 1, .rw, 0x0, false⟩, ⟨0, 12, .rw, 0x0, false⟩]⟩,
  ⟨"CHP_MON_CNT_LO", 0x20004, [⟨0, 32, 0x20⟩], [⟨0, 32, .rw, 0x0, false⟩]⟩,
  ⟨"CHP_MON_CNT_HI", 0x20008, [⟨0, 32, 0x20⟩], [⟨0, 16, .rw, 0x0, false⟩]⟩,
  ⟨"CHP_MON_THR_LO", 0x2000C, [⟨0, 32, 0x20⟩], [⟨0, 32, .rw, 0x0, false⟩]⟩,
  ⟨"CHP_MON_THR_HI", 0x20010, [⟨0, 32, 0x20⟩], [⟨0, 16, .rw, 0x0, false⟩]⟩,
  ⟨"CHP_MON_SNAP_LO", 0x20014, [⟨0, 32, 0x20⟩], [⟨0, 32, .ro, 0x0, false⟩]⟩,
  ⟨"CHP_MON_SNAP_HI", 0x20018, [⟨0, 32, 0x20⟩], [⟨0, 16, .ro, 0x0, false⟩]⟩,
  ⟨"CHP_MON_HIT", 0x20400, [], [⟨0, 32, .w1c, 0x0, false⟩]⟩,
  ⟨"CHP_MON_SNAP_AT_LO", 0x20410, [], [⟨0, 32, .rw, 0x0, false⟩]⟩,
  ⟨"CHP_MON_SNAP_AT_HI", 0x20414, [], [⟨0, 16, .rw, 0x0, false⟩]⟩,
  ⟨"CHP_MON_SNAP_CTL", 0x20418, [], [⟨1, 1, .wo, 0x0, false⟩, ⟨0, 1, .wo, 0x0, false⟩]⟩,
  ⟨"CHP_MON_SNAP_STAT", 0x2041C, [], [⟨31, 1, .ro, 0x0, false⟩, ⟨8, 8, .ro, 0x0, false⟩, ⟨0, 8, .ro, 0x0, false⟩]⟩,
  ⟨"CHP_MON_SNAP_TICK_LO", 0x20420, [], [⟨0, 32, .ro, 0x0, false⟩]⟩,
  ⟨"CHP_MON_SNAP_TICK_HI", 0x20424, [], [⟨0, 16, .ro, 0x0, false⟩]⟩,
  ⟨"CHP_MON_ERR", 0x20428, [], [⟨2, 1, .w1c, 0x0, false⟩, ⟨1, 1, .w1c, 0x0, false⟩, ⟨0, 1, .w1c, 0x0, false⟩]⟩]

/-- The chip registers of sub-block 3 (R66). -/
def chip3Regs : List RegDesc := [
  ⟨"CHP_SHUTTER_CTL", 0x30000, [], [⟨5, 1, .rw, 0x0, false⟩, ⟨4, 1, .rw, 0x0, false⟩, ⟨0, 2, .rw, 0x1, false⟩]⟩,
  ⟨"CHP_SHUTTER_STAT", 0x30004, [], [⟨15, 1, .w1c, 0x0, false⟩, ⟨12, 3, .ro, 0x4, false⟩, ⟨8, 3, .ro, 0x0, false⟩, ⟨2, 1, .w1c, 0x0, false⟩, ⟨1, 1, .ro, 0x0, false⟩, ⟨0, 1, .ro, 0x0, false⟩]⟩,
  ⟨"CHP_TICK_LO", 0x30008, [], [⟨0, 32, .ro, 0x0, false⟩]⟩,
  ⟨"CHP_TICK_HI", 0x3000C, [], [⟨0, 16, .ro, 0x0, false⟩]⟩,
  ⟨"CHP_PPS_TICK_LO", 0x30010, [], [⟨0, 32, .ro, 0x0, false⟩]⟩,
  ⟨"CHP_PPS_TICK_HI", 0x30014, [], [⟨0, 16, .ro, 0x0, false⟩]⟩,
  ⟨"CHP_COMMIT_MEMBERS", 0x30020, [], [⟨24, 8, .ro, 0x0, false⟩, ⟨16, 8, .ro, 0x0, false⟩, ⟨8, 8, .ro, 0x0, false⟩, ⟨0, 8, .ro, 0xFF, true⟩]⟩,
  ⟨"CHP_COMMIT_LAST_LO", 0x30024, [], [⟨0, 32, .ro, 0x0, false⟩]⟩,
  ⟨"CHP_COMMIT_LAST_HI", 0x30028, [], [⟨0, 16, .ro, 0x0, false⟩]⟩,
  ⟨"CHP_COMMIT_ERR", 0x30030, [], [⟨6, 1, .w1c, 0x0, false⟩, ⟨5, 1, .w1c, 0x0, false⟩, ⟨4, 1, .w1c, 0x0, false⟩, ⟨3, 1, .w1c, 0x0, false⟩, ⟨2, 1, .w1c, 0x0, false⟩, ⟨1, 1, .w1c, 0x0, false⟩, ⟨0, 1, .w1c, 0x0, false⟩]⟩,
  ⟨"CHP_PANE_CTL", 0x30040, [], [⟨1, 1, .wo, 0x0, false⟩, ⟨0, 1, .wo, 0x0, false⟩]⟩,
  ⟨"CHP_PANE_AT_LO", 0x30044, [], [⟨0, 32, .rw, 0x0, false⟩]⟩,
  ⟨"CHP_PANE_AT_HI", 0x30048, [], [⟨0, 16, .rw, 0x0, false⟩]⟩,
  ⟨"CHP_PANE_CODE", 0x3004C, [], [⟨0, 32, .rw, 0x0, false⟩]⟩,
  ⟨"CHP_PANE_STAT", 0x30050, [], [⟨20, 8, .ro, 0x0, false⟩, ⟨16, 4, .ro, 0x0, false⟩, ⟨5, 1, .ro, 0x0, false⟩, ⟨4, 1, .ro, 0x0, false⟩, ⟨2, 2, .ro, 0x0, false⟩, ⟨0, 2, .ro, 0x1, false⟩]⟩,
  ⟨"CHP_PTP_SEC_LO", 0x30060, [], [⟨0, 32, .rw, 0x0, false⟩]⟩,
  ⟨"CHP_PTP_SEC_HI", 0x30064, [], [⟨0, 16, .rw, 0x0, false⟩]⟩,
  ⟨"CHP_PTP_NS", 0x30068, [], [⟨0, 30, .rw, 0x0, false⟩]⟩,
  ⟨"CHP_PTP_BASE_LO", 0x3006C, [], [⟨0, 32, .rw, 0x0, false⟩]⟩,
  ⟨"CHP_PTP_BASE_HI", 0x30070, [], [⟨0, 16, .rw, 0x0, false⟩]⟩,
  ⟨"CHP_PTP_CTL", 0x30074, [], [⟨31, 1, .wo, 0x0, false⟩, ⟨30, 1, .ro, 0x0, false⟩, ⟨29, 1, .rw, 0x0, false⟩, ⟨28, 1, .w1c, 0x0, false⟩]⟩,
  ⟨"CHP_PTP_ADJ", 0x30078, [], [⟨0, 32, .wo, 0x0, false⟩]⟩,
  ⟨"CHP_PTP_FREQ", 0x3007C, [], [⟨0, 32, .rw, 0x0, false⟩]⟩]

/-- The chip registers of sub-block 4 (R66). -/
def chip4Regs : List RegDesc := [
  ⟨"CHP_LC_STAT", 0x40000, [], [⟨0, 4, .ro, 0x1, true⟩]⟩,
  ⟨"CHP_LC_KEY", 0x40010, [⟨0, 12, 0x4⟩], [⟨0, 32, .rw, 0x0, true⟩]⟩,
  ⟨"CHP_TAMPER_CTL", 0x40040, [], [⟨31, 1, .w1s, 0x0, false⟩, ⟨0, 4, .rw, 0x8, false⟩]⟩,
  ⟨"CHP_TAMPER_STAT", 0x40044, [], [⟨24, 8, .w1c, 0x0, true⟩, ⟨0, 4, .w1c, 0x0, true⟩]⟩,
  ⟨"CHP_LC_ERR", 0x40048, [], [⟨1, 1, .w1c, 0x0, false⟩, ⟨0, 1, .w1c, 0x0, false⟩]⟩]

/-- The chip registers of sub-block 5 (R66). -/
def chip5Regs : List RegDesc := [
  ⟨"CHP_FENCE_CTL", 0x50000, [], [⟨31, 1, .wo, 0x0, false⟩, ⟨30, 1, .wo, 0x0, false⟩, ⟨0, 3, .rw, 0x0, false⟩]⟩,
  ⟨"CHP_REJOIN_STAT", 0x50004, [], [⟨28, 4, .ro, 0x0, false⟩, ⟨24, 3, .ro, 0x0, false⟩, ⟨20, 3, .ro, 0x0, false⟩, ⟨0, 20, .ro, 0x0, false⟩]⟩,
  ⟨"CHP_FENCE_CAUSE", 0x50010, [⟨0, 8, 0x4⟩], [⟨16, 16, .rc, 0x0, false⟩, ⟨0, 8, .ro, 0x0, false⟩]⟩,
  ⟨"CHP_FAULT_CTL", 0x50030, [], [⟨1, 1, .ro, 0x0, false⟩, ⟨0, 1, .wo, 0x0, false⟩]⟩,
  ⟨"CHP_FENCE_ERR", 0x50034, [], [⟨2, 1, .w1c, 0x0, false⟩, ⟨1, 1, .w1c, 0x0, false⟩, ⟨0, 1, .w1c, 0x0, false⟩]⟩]

/-- The chip registers of sub-block 6 (R66). -/
def chip6Regs : List RegDesc := [
  ⟨"CHP_VIN_STAT", 0x60000, [], [⟨16, 16, .ro, 0x0, false⟩, ⟨0, 16, .ro, 0x0, false⟩]⟩,
  ⟨"CHP_PWR_STAT", 0x60004, [], [⟨16, 16, .rc, 0x0, false⟩, ⟨0, 16, .ro, 0x0, false⟩]⟩,
  ⟨"CHP_RAIL_STAT", 0x60008, [], [⟨0, 10, .ro, 0x3FF, true⟩]⟩,
  ⟨"CHP_THERM_CFG", 0x6000C, [], [⟨0, 8, .rw, 0xA, false⟩]⟩,
  ⟨"CHP_THERM_STAT", 0x60010, [], [⟨24, 8, .ro, 0x0, true⟩, ⟨16, 3, .ro, 0x0, false⟩, ⟨0, 16, .ro, 0x0, false⟩]⟩,
  ⟨"CHP_GPIO_OUT", 0x60020, [], [⟨0, 16, .rw, 0x0, false⟩]⟩,
  ⟨"CHP_GPIO_OE", 0x60024, [], [⟨0, 16, .rw, 0x0, false⟩]⟩,
  ⟨"CHP_GPIO_IN", 0x60028, [], [⟨0, 16, .ro, 0x0, false⟩]⟩,
  ⟨"CHP_SUPPLY_ERR", 0x60030, [], [⟨3, 1, .w1c, 0x0, false⟩, ⟨2, 1, .w1c, 0x0, false⟩, ⟨1, 1, .w1c, 0x0, false⟩, ⟨0, 1, .w1c, 0x0, false⟩]⟩]

/-- The chip registers of sub-block 7 (R66). -/
def chip7Regs : List RegDesc := [
  ⟨"CHP_SYNCE", 0x70000, [⟨0, 2, 0x4⟩], [⟨31, 1, .rw, 0x0, false⟩, ⟨30, 1, .ro, 0x0, false⟩, ⟨27, 3, .rw, 0x0, false⟩, ⟨24, 3, .rw, 0x0, false⟩, ⟨0, 10, .rw, 0x2A8, false⟩]⟩,
  ⟨"CHP_B2W_LO", 0x71000, [⟨0, 2, 0x400⟩, ⟨0, 64, 0x10⟩], [⟨12, 20, .rw, 0x0, false⟩]⟩,
  ⟨"CHP_B2W_HI", 0x71004, [⟨0, 2, 0x400⟩, ⟨0, 64, 0x10⟩], [⟨0, 16, .rw, 0x0, false⟩]⟩,
  ⟨"CHP_B2W_CTL", 0x71008, [⟨0, 2, 0x400⟩, ⟨0, 64, 0x10⟩], [⟨31, 1, .rw, 0x0, false⟩, ⟨30, 1, .rw, 0x0, false⟩, ⟨29, 1, .rw, 0x0, false⟩, ⟨0, 15, .rw, 0x0, false⟩]⟩,
  ⟨"CHP_HEP_ERR", 0x70100, [], [⟨1, 1, .w1c, 0x0, false⟩, ⟨0, 1, .w1c, 0x0, false⟩]⟩]

/-- The block registers (R76). -/
def blockRegs : List RegDesc := [
  ⟨"BLK_PKT_CFG", 0x0, [], [⟨0, 2, .rw, 0x1, false⟩]⟩,
  ⟨"BLK_BUDGET", 0x4, [], [⟨16, 6, .ro, 0x2, false⟩, ⟨0, 16, .ro, 0x4E, false⟩]⟩,
  ⟨"BLK_CELL_RUN", 0x8, [], [⟨0, 8, .rw, 0x0, false⟩]⟩,
  ⟨"BLK_SUP_ENTRY", 0xC, [], [⟨0, 17, .rw, 0x0, false⟩]⟩,
  ⟨"BLK_OVERRUN", 0x10, [], [⟨16, 16, .rc, 0x0, false⟩, ⟨0, 16, .rc, 0x0, false⟩]⟩,
  ⟨"BLK_OVER_BUDGET", 0x14, [], [⟨0, 32, .rc, 0x0, false⟩]⟩,
  ⟨"BLK_CORE_ERR", 0x18, [], [⟨3, 1, .w1c, 0x0, false⟩, ⟨2, 1, .w1c, 0x0, false⟩, ⟨1, 1, .w1c, 0x0, false⟩, ⟨0, 1, .w1c, 0x0, false⟩]⟩,
  ⟨"BLK_CH_CFG", 0x1000, [⟨0, 64, 0x8⟩], [⟨31, 1, .rw, 0x0, false⟩, ⟨30, 1, .rw, 0x1, false⟩, ⟨8, 1, .wo, 0x0, false⟩, ⟨5, 3, .rw, 0x0, false⟩, ⟨0, 5, .rw, 0x0, false⟩]⟩,
  ⟨"BLK_CH_STAT", 0x1004, [⟨0, 64, 0x8⟩], [⟨16, 8, .rc, 0x0, false⟩, ⟨8, 8, .ro, 0x0, false⟩, ⟨0, 5, .ro, 0x0, false⟩]⟩,
  ⟨"BLK_CH_ERR", 0x1400, [], [⟨3, 1, .w1c, 0x0, false⟩, ⟨2, 1, .w1c, 0x0, false⟩, ⟨1, 1, .w1c, 0x0, false⟩, ⟨0, 1, .w1c, 0x0, false⟩]⟩,
  ⟨"BLK_LATCH_STAT", 0x1800, [], [⟨16, 16, .rc, 0x0, false⟩, ⟨0, 16, .rc, 0x0, false⟩]⟩,
  ⟨"BLK_CPX_TPZ_KEY", 0x1C00, [⟨0, 10, 0x4⟩], [⟨0, 32, .rw, 0x0, false⟩]⟩,
  ⟨"BLK_SP_ECC", 0x2000, [], [⟨16, 16, .rc, 0x0, false⟩, ⟨0, 16, .rc, 0x0, false⟩]⟩,
  ⟨"BLK_MEM_POISON", 0x2004, [], [⟨31, 1, .ro, 0x0, false⟩, ⟨29, 2, .ro, 0x0, false⟩, ⟨26, 3, .ro, 0x0, false⟩, ⟨5, 16, .ro, 0x0, false⟩]⟩,
  ⟨"BLK_MEM_CLEAN", 0x2008, [], [⟨31, 1, .wo, 0x0, false⟩, ⟨29, 2, .wo, 0x0, false⟩, ⟨26, 3, .wo, 0x0, false⟩, ⟨5, 16, .wo, 0x0, false⟩]⟩,
  ⟨"BLK_SP_SCRUB", 0x200C, [], [⟨16, 1, .ro, 0x0, false⟩, ⟨0, 16, .rw, 0x100, false⟩]⟩,
  ⟨"BLK_SEC_CTL", 0x2010, [], [⟨31, 1, .w1s, 0x0, false⟩, ⟨5, 1, .wo, 0x0, false⟩, ⟨4, 1, .rw, 0x0, false⟩, ⟨0, 2, .rw, 0x0, false⟩]⟩,
  ⟨"BLK_SEC_STAT", 0x2014, [], [⟨31, 1, .ro, 0x0, false⟩, ⟨8, 8, .rc, 0x0, false⟩, ⟨4, 4, .ro, 0x0, false⟩]⟩,
  ⟨"BLK_SP_REPAIR_LO", 0x2018, [], [⟨0, 32, .ro, 0x0, true⟩]⟩,
  ⟨"BLK_SP_REPAIR_HI", 0x201C, [], [⟨0, 32, .ro, 0x0, true⟩]⟩,
  ⟨"BLK_SP_ARB", 0x2020, [], [⟨28, 4, .ro, 0x0, false⟩, ⟨0, 7, .rc, 0x0, false⟩]⟩,
  ⟨"BLK_MEM_ERR", 0x2024, [], [⟨6, 1, .w1c, 0x0, false⟩, ⟨5, 1, .w1c, 0x0, false⟩, ⟨4, 1, .w1c, 0x0, false⟩, ⟨3, 1, .w1c, 0x0, false⟩, ⟨2, 1, .w1c, 0x0, false⟩, ⟨1, 1, .w1c, 0x0, false⟩, ⟨0, 1, .w1c, 0x0, false⟩]⟩,
  ⟨"BLK_IC_INV", 0x2028, [], [⟨0, 8, .wo, 0x0, false⟩]⟩,
  ⟨"BLK_MON_CFG", 0x3000, [⟨0, 8, 0x20⟩], [⟨31, 1, .rw, 0x0, false⟩, ⟨29, 2, .rw, 0x0, false⟩, ⟨19, 10, .rw, 0x0, false⟩, ⟨16, 3, .rw, 0x0, false⟩, ⟨12, 1, .rw, 0x0, false⟩, ⟨0, 12, .rw, 0x0, false⟩]⟩,
  ⟨"BLK_MON_CNT_LO", 0x3004, [⟨0, 8, 0x20⟩], [⟨0, 32, .rw, 0x0, false⟩]⟩,
  ⟨"BLK_MON_CNT_HI", 0x3008, [⟨0, 8, 0x20⟩], [⟨0, 16, .rw, 0x0, false⟩]⟩,
  ⟨"BLK_MON_THR_LO", 0x300C, [⟨0, 8, 0x20⟩], [⟨0, 32, .rw, 0x0, false⟩]⟩,
  ⟨"BLK_MON_THR_HI", 0x3010, [⟨0, 8, 0x20⟩], [⟨0, 16, .rw, 0x0, false⟩]⟩,
  ⟨"BLK_MON_SNAP_LO", 0x3014, [⟨0, 8, 0x20⟩], [⟨0, 32, .ro, 0x0, false⟩]⟩,
  ⟨"BLK_MON_SNAP_HI", 0x3018, [⟨0, 8, 0x20⟩], [⟨0, 16, .ro, 0x0, false⟩]⟩,
  ⟨"BLK_MON_HIT", 0x3100, [], [⟨0, 8, .w1c, 0x0, false⟩]⟩,
  ⟨"BLK_MON_ERR", 0x3104, [], [⟨1, 1, .w1c, 0x0, false⟩, ⟨0, 1, .w1c, 0x0, false⟩]⟩]

/-- The guest registers that the fabric fixes (R691–R693). -/
def guestRegs : List RegDesc := [
  ⟨"RGN_GUEST_CTL", 0x1000, [], [⟨8, 1, .rw, 0x0, false⟩, ⟨4, 1, .rw, 0x0, false⟩, ⟨0, 2, .rw, 0x0, false⟩]⟩,
  ⟨"RGN_GUEST_STAT", 0x1004, [], [⟨28, 4, .ro, 0x0, false⟩, ⟨7, 1, .ro, 0x0, false⟩, ⟨6, 1, .ro, 0x0, false⟩]⟩,
  ⟨"RGN_GUEST_IRQ", 0x1008, [], [⟨0, 3, .rw, 0x0, false⟩]⟩]

/-- The registers of host BAR0 (R726). -/
def bar0Regs : List RegDesc := [
  ⟨"HST_QP_TXB_LO", 0x800000, [⟨0, 512, 0x40⟩], [⟨12, 20, .rw, 0x0, false⟩]⟩,
  ⟨"HST_QP_RXB_LO", 0x800008, [⟨0, 512, 0x40⟩], [⟨12, 20, .rw, 0x0, false⟩]⟩,
  ⟨"HST_QP_TXB_HI", 0x800004, [⟨0, 512, 0x40⟩], [⟨0, 32, .rw, 0x0, false⟩]⟩,
  ⟨"HST_QP_RXB_HI", 0x80000C, [⟨0, 512, 0x40⟩], [⟨0, 32, .rw, 0x0, false⟩]⟩,
  ⟨"HST_QP_CFG", 0x800010, [⟨0, 512, 0x40⟩], [⟨31, 1, .rw, 0x0, false⟩, ⟨30, 1, .rw, 0x0, false⟩, ⟨24, 4, .rw, 0x0, false⟩, ⟨20, 4, .rw, 0x0, false⟩, ⟨0, 11, .rw, 0x0, false⟩]⟩,
  ⟨"HST_QP_COAL", 0x800014, [⟨0, 512, 0x40⟩], [⟨16, 16, .rw, 0x10, false⟩, ⟨0, 16, .rw, 0x0, false⟩]⟩,
  ⟨"HST_QP_STAT", 0x800018, [⟨0, 512, 0x40⟩], [⟨31, 1, .ro, 0x0, false⟩]⟩,
  ⟨"HST_QP_CI", 0x80001C, [⟨0, 512, 0x40⟩], [⟨16, 16, .ro, 0x0, false⟩, ⟨0, 16, .ro, 0x0, false⟩]⟩,
  ⟨"HST_QP_TXDB", 0x1000000, [⟨0, 512, 0x1000⟩], [⟨0, 16, .wo, 0x0, false⟩]⟩,
  ⟨"HST_QP_RXDB", 0x1000004, [⟨0, 512, 0x1000⟩], [⟨0, 16, .wo, 0x0, false⟩]⟩,
  ⟨"HST_UR_B_LO", 0x400000, [⟨0, 16, 0x40⟩], [⟨0, 32, .rw, 0x0, false⟩]⟩,
  ⟨"HST_UR_B_HI", 0x400004, [⟨0, 16, 0x40⟩], [⟨0, 32, .rw, 0x0, false⟩]⟩,
  ⟨"HST_UR_CFG", 0x400008, [⟨0, 16, 0x40⟩], [⟨31, 1, .rw, 0x0, false⟩, ⟨24, 4, .rw, 0x0, false⟩, ⟨0, 11, .rw, 0x0, false⟩]⟩,
  ⟨"HST_UR_DB", 0x40000C, [⟨0, 16, 0x40⟩], [⟨0, 16, .wo, 0x0, false⟩]⟩,
  ⟨"HST_UR_CI", 0x400010, [⟨0, 16, 0x40⟩], [⟨0, 16, .ro, 0x0, false⟩]⟩,
  ⟨"HST_EP_STAT", 0x3000000, [], [⟨28, 4, .ro, 0x0, false⟩, ⟨23, 5, .ro, 0x0, false⟩]⟩,
  ⟨"HST_EP_ERR", 0x3000004, [], [⟨4, 1, .w1c, 0x0, false⟩, ⟨3, 1, .w1c, 0x0, false⟩, ⟨2, 1, .w1c, 0x0, false⟩, ⟨1, 1, .w1c, 0x0, false⟩, ⟨0, 1, .w1c, 0x0, false⟩]⟩,
  ⟨"HST_MB_DB", 0x40000, [⟨0, 32, 0x10⟩], [⟨0, 32, .wo, 0x0, false⟩]⟩,
  ⟨"HST_MB_SEQ", 0x40004, [⟨0, 32, 0x10⟩], [⟨0, 32, .ro, 0x1, false⟩]⟩,
  ⟨"HST_MB_STAT", 0x40008, [⟨0, 32, 0x10⟩], [⟨8, 8, .rc, 0x0, false⟩, ⟨0, 4, .ro, 0x0, false⟩]⟩,
  ⟨"HST_MB_CFG", 0x4000C, [⟨0, 32, 0x10⟩], [⟨0, 11, .rw, 0x0, false⟩]⟩,
  ⟨"HST_EV_CI", 0x40800, [], [⟨0, 16, .rw, 0x0, false⟩]⟩,
  ⟨"HST_EV_STAT", 0x40804, [], [⟨16, 16, .rc, 0x0, false⟩, ⟨0, 16, .ro, 0x0, false⟩]⟩,
  ⟨"HST_MB_FRAME", 0x40808, [], [⟨0, 1, .ro, 0x0, false⟩]⟩,
  ⟨"HST_LDR_STAT", 0x3000010, [], [⟨28, 4, .ro, 0x0, false⟩, ⟨0, 8, .ro, 0x0, false⟩]⟩,
  ⟨"HST_LDR_CTL", 0x3000014, [], [⟨0, 1, .wo, 0x0, false⟩]⟩]

/-- The cell CSRs that hold storage or are views (R414–R426). -/
def csrRegs : List RegDesc := [
  ⟨"CEL_SLOT", 0x7C0, [⟨0, 8, 0x1⟩], [⟨24, 5, .rw, 0x0, false⟩, ⟨16, 5, .rw, 0x0, false⟩, ⟨8, 5, .rw, 0x0, false⟩, ⟨0, 5, .rw, 0x0, false⟩]⟩,
  ⟨"CEL_SLOT_CTL", 0x7C8, [], [⟨2, 1, .w1c, 0x0, false⟩, ⟨1, 1, .ro, 0x0, false⟩, ⟨0, 1, .wo, 0x0, false⟩]⟩,
  ⟨"CEL_THR_SEL", 0x7C9, [], [⟨0, 5, .rw, 0x0, false⟩]⟩,
  ⟨"CEL_THR_CFG", 0x7CA, [], [⟨1, 1, .rw, 0x0, false⟩, ⟨0, 1, .rw, 0x1, false⟩]⟩,
  ⟨"CEL_THR_STAT", 0x7CB, [], [⟨24, 7, .ro, 0x0, true⟩, ⟨16, 2, .ro, 0x0, false⟩, ⟨15, 1, .ro, 0x0, false⟩, ⟨0, 4, .ro, 0x1, false⟩]⟩,
  ⟨"CEL_THR_PC", 0x7CC, [], [⟨0, 32, .rw, 0x0, false⟩]⟩,
  ⟨"CEL_THR_SP", 0x7CD, [], [⟨0, 32, .rw, 0x0, false⟩]⟩,
  ⟨"CEL_FAULT_TVAL", 0x7D0, [], [⟨0, 32, .ro, 0x0, false⟩]⟩,
  ⟨"CEL_THR_CTL", 0x7CE, [], [⟨2, 1, .wo, 0x0, false⟩, ⟨1, 1, .wo, 0x0, false⟩, ⟨0, 1, .wo, 0x0, false⟩]⟩,
  ⟨"CEL_FAULT_PEND", 0x7CF, [], [⟨0, 16, .w1c, 0x0, false⟩]⟩,
  ⟨"CEL_FAULT_CAUSE", 0x7D1, [], [⟨31, 1, .ro, 0x0, false⟩, ⟨0, 8, .ro, 0x0, false⟩]⟩,
  ⟨"CEL_ICACHE_CTL", 0x7D2, [], [⟨1, 1, .rw, 0x0, false⟩, ⟨0, 1, .wo, 0x0, false⟩]⟩,
  ⟨"CEL_FABWIN_LO", 0x7D4, [], [⟨31, 1, .rw, 0x0, false⟩]⟩,
  ⟨"CEL_FABWIN_HI", 0x7D5, [], [⟨0, 16, .rw, 0x0, false⟩]⟩,
  ⟨"CEL_CTX_ID", 0x800, [], [⟨0, 32, .ro, 0x0, true⟩]⟩,
  ⟨"CEL_PKT", 0x801, [], [⟨20, 3, .ro, 0x0, false⟩, ⟨16, 2, .ro, 0x0, false⟩, ⟨0, 16, .ro, 0x0, false⟩]⟩,
  ⟨"CEL_BUDGET", 0x802, [], [⟨16, 16, .ro, 0x0, false⟩, ⟨0, 16, .ro, 0x0, false⟩]⟩,
  ⟨"CEL_EVENTS", 0x803, [], [⟨0, 32, .ro, 0x0, false⟩]⟩,
  ⟨"CEL_STAMP0", 0x804, [], [⟨0, 32, .ro, 0x0, false⟩]⟩,
  ⟨"CEL_STAMP1", 0x805, [], [⟨0, 32, .ro, 0x0, false⟩]⟩,
  ⟨"CEL_STAMP2", 0x806, [], [⟨0, 32, .ro, 0x0, false⟩]⟩,
  ⟨"CEL_CPXEN", 0x7D3, [], [⟨1, 1, .rw, 0x0, false⟩, ⟨0, 1, .rw, 0x0, false⟩]⟩,
  ⟨"CEL_CPX_STAT", 0x807, [], [⟨31, 1, .rc, 0x0, false⟩, ⟨0, 8, .rc, 0x0, false⟩]⟩,
  ⟨"CEL_IRQ_CLAIM", 0x7D6, [], [⟨31, 1, .rc, 0x0, false⟩, ⟨16, 13, .rc, 0x0, false⟩, ⟨0, 8, .rc, 0x0, false⟩]⟩,
  ⟨"CEL_RXTS_NS", 0x808, [], [⟨0, 30, .ro, 0x0, false⟩]⟩,
  ⟨"CEL_RXTS_SEC", 0x809, [], [⟨0, 32, .ro, 0x0, false⟩]⟩]

/-- The descriptors of region register sub-block `k` (R77). -/
def rgnRegs (k : Nat) : List RegDesc :=
  match k with
  | 0 => irqRegs | 1 => bpmRegs | 2 => dspRegs | 3 => feRegs | 4 => tblRegs | 5 => egRegs | 6 => hbmRegs
  | 7 => cfRegs | 8 => portRegs | 9 => monRegs | 10 => pwrRegs | 11 => shtRegs | 12 => mpRegs | 13 => secRegs
  | _ => []

/-- The descriptors of chip register sub-block `k` (R66). -/
def chipRegs (k : Nat) : List RegDesc :=
  match k with
  | 0 => chip0Regs | 1 => chip1Regs | 2 => chip2Regs | 3 => chip3Regs | 4 => chip4Regs | 5 => chip5Regs
  | 6 => chip6Regs | 7 => chip7Regs
  | _ => []

end Sys2Proof.Machine
end

