-- ==== Sys2Proof/Machine/RegMap.lean ====
section
/-!
DEFINITION. Finding a register by its address, its reset value, and what a read and a write do to its fields (R23–R31, R908).
-/

namespace Sys2Proof.Machine

/-! ### Fields of a word -/

/-- The value of the field of `width` bits at `lo`. -/
def fieldOf (w : Word) (lo width : Nat) : Nat := w.toNat / 2 ^ lo % 2 ^ width

/-- The word with the field of `width` bits at `lo` replaced by `v`. -/
def withField (w : Word) (lo width v : Nat) : Word :=
  BitVec.ofNat 32 (w.toNat / 2 ^ (lo + width) * 2 ^ (lo + width) + v % 2 ^ width * 2 ^ lo + w.toNat % 2 ^ lo)

/-- Bit `i` of a number. -/
def bitOf (n i : Nat) : Bool := n / 2 ^ i % 2 == 1

/-- Bits [hi:lo] of a number. -/
def bitsOf (n hi lo : Nat) : Nat := n / 2 ^ lo % 2 ^ (hi + 1 - lo)

/-- A number with bit `i` set to `b`. -/
def withBit (n i : Nat) (b : Bool) : Nat :=
  n / 2 ^ (i + 1) * 2 ^ (i + 1) + (if b then 2 ^ i else 0) + n % 2 ^ i

/-! ### Where an address lies -/

/-- What a register address names. -/
inductive Loc where
  | region (r off : Nat)
  | chip (a off : Nat)
  | block (r b off : Nat)
  | bar0 (e off : Nat)
  | csr (c n : Nat)
  | elsewhere
deriving DecidableEq, Repr

/-- Decode a register address (R74–R77, and the model's own spaces for BAR0 and the cell CSRs). -/
def locOf (a : Nat) : Loc :=
  if 0x10000000000000 ≤ a then .csr ((a - 0x10000000000000) / 0x1000) (a % 0x1000)
  else if 0x1000000000000 ≤ a then .bar0 ((a - 0x1000000000000) / 0x10000000) (a % 0x10000000)
  else
    let r := a / 0x100000000000
    let o := a % 0x100000000000
    if 0xF0000000000 ≤ o ∧ o < 0xF0000080000 then .chip r (o - 0xF0000000000)
    else if 0x90000000000 ≤ o ∧ o < 0x90000E00000 then .region r (o - 0x90000000000)
    else if 0x80000000000 ≤ o ∧ o < 0x80010000000 ∧ 0xF00000 ≤ o % 0x1000000 ∧ o % 0x1000000 < 0xF10000 then
      .block r ((o - 0x80000000000) / 0x1000000) (o % 0x1000000 - 0xF00000)
    else .elsewhere

/-- Whether offset `off` is one of the registers that a descriptor announces. -/
def RegDesc.holds (e : RegDesc) (off : Nat) : Bool :=
  e.off ≤ off &&
    match e.dims with
    | [] => off == e.off
    | [d] => (off - e.off) % d.stride == 0 && d.first ≤ (off - e.off) / d.stride
        && (off - e.off) / d.stride < d.first + d.count
    | d :: d2 :: _ =>
        let x := (off - e.off) % d.stride
        x % d2.stride == 0 && d2.first ≤ x / d2.stride && x / d2.stride < d2.first + d2.count
        && d.first ≤ (off - e.off) / d.stride && (off - e.off) / d.stride < d.first + d.count

/-- The first index of the register at offset `off`. -/
def RegDesc.index (e : RegDesc) (off : Nat) : Nat :=
  match e.dims with
  | [] => 0
  | d :: _ => (off - e.off) / d.stride

/-- The second index of the register at offset `off`. -/
def RegDesc.index2 (e : RegDesc) (off : Nat) : Nat :=
  match e.dims with
  | d :: d2 :: _ => (off - e.off) % d.stride / d2.stride
  | _ => 0

/-- The descriptors among which an address is looked for. -/
def descsAt (l : Loc) : List RegDesc :=
  match l with
  | .region _ off => rgnRegs (off / 0x100000)
  | .chip _ off => chipRegs (off / 0x10000)
  | .block _ _ _ => blockRegs
  | .bar0 _ _ => bar0Regs
  | .csr _ _ => csrRegs
  | .elsewhere => []

/-- The offset by which a place's descriptors are indexed. -/
def Loc.off (l : Loc) : Nat :=
  match l with
  | .region _ off | .chip _ off | .block _ _ off | .bar0 _ off => off
  | .csr _ n => n
  | .elsewhere => 0

/-- The descriptor of the register at an address, if one is announced there. -/
def descAt (a : Nat) : Option RegDesc :=
  let l := locOf a
  (descsAt l).find? (·.holds l.off)

/-! ### Reset values -/

/-- The word a descriptor's fields give at reset. -/
def RegDesc.resetWord (e : RegDesc) : Nat := (e.fields.map (fun f => f.reset * 2 ^ f.lo)).sum

/-- The bits of a register that keep their value across resets (R28: the mark "—"). -/
def RegDesc.keepMask (e : RegDesc) : Nat :=
  (e.fields.map (fun f => if f.keep then (2 ^ f.width - 1) * 2 ^ f.lo else 0)).sum

/-- The edge and the position that link module `m` of position `r` faces in the 2 × 4 grid, if it faces one (R644, R645). -/
def linkFacing (r m : Nat) : Option (Nat × Nat) :=
  let left := if r % 4 = 0 then none else some ((r / 4) * 3 + r % 4 - 1, r - 1)
  let right := if r % 4 = 3 then none else some ((r / 4) * 3 + r % 4, r + 1)
  let other := some (6 + r % 4, (r + 4) % 8)
  if m < 2 then left else if m < 4 then right else if m < 6 then other else none

/-- Reset values that a table gives by index rather than by field (R414, R516, R637 with R619), and the wiring of each link
module (R644, R645, R694) in the fully populated part. -/
def indexedReset (l : Loc) (e : RegDesc) : Option Nat :=
  match l, e.off with
  | .region r off, 0x700000 =>   -- RGN_CF_LINK_m
    match linkFacing r (e.index off) with
    | some (edge, peer) => some (edge * 2 ^ 16 + peer * 2 ^ 13 + 1)
    | none => some (0xF * 2 ^ 16)
  | .region _ _, 0x700100 => some (0x3FF * 2 ^ 16 + 0xFF)   -- RGN_CF_ROUTE
  | .region r _, 0xC00000 => some (2 ^ 28 + r * 2 ^ 25)   -- RGN_LDG_SEL
  | .region _ off, 0x200108 =>   -- RGN_DSP_BSERVE_b_k
    if e.index2 off = 0 then some 1 else none
  | .region _ off, 0x600010 =>   -- RGN_HBM_PORT_k
    let k := e.index off
    some (2 + (if k < 3 then 4 else 0) + (if k = 1 ∨ k = 2 ∨ k = 3 then 1 else 0))
  | .csr _ n, 0x7C0 => some (0x03020100 + 0x04040404 * (n % 4))   -- CEL_SLOTn
  | _, _ => none

/-- The value every register holds after power-on reset (R28); an address that announces no register reads as zero (R30). -/
def regDefault (a : Nat) : Word :=
  match descAt a with
  | none => 0
  | some e =>
    match indexedReset (locOf a) e with
    | some v => BitVec.ofNat 32 v
    | none => BitVec.ofNat 32 e.resetWord

/-! ### Reading and writing the fields of one register by their access codes (R27) -/

/-- What a read of one field returns: a write-only field reads as zero. -/
def FieldDesc.readBits (f : FieldDesc) (w : Word) : Nat :=
  match f.acc with
  | .wo => 0
  | _ => fieldOf w f.lo f.width * 2 ^ f.lo

/-- The word a read returns; reserved bits read as zero (R29). -/
def RegDesc.readWord (e : RegDesc) (w : Word) : Word := BitVec.ofNat 32 ((e.fields.map (·.readBits w)).sum)

/-- What a read leaves: a read-and-clear field becomes zero. -/
def RegDesc.afterRead (e : RegDesc) (w : Word) : Word :=
  e.fields.foldl (fun w f => if f.acc = .rc then withField w f.lo f.width 0 else w) w

/-- What a write of `v` makes of one field; a rejected field keeps its value (R908). -/
def FieldDesc.write (f : FieldDesc) (v : Nat) (w : Word) : Word :=
  let x := v / 2 ^ f.lo % 2 ^ f.width
  match f.acc with
  | .rw => withField w f.lo f.width x
  | .w1s => withField w f.lo f.width (fieldOf w f.lo f.width ||| x)
  | .w1c => withField w f.lo f.width (fieldOf w f.lo f.width &&& (2 ^ f.width - 1 - x))
  | .ro | .rc | .wo => w

/-- What a write of `v` makes of a register when the fields at the low bits listed in `refused` are rejected. -/
def RegDesc.writeWord (e : RegDesc) (refused : List Nat) (v : Nat) (w : Word) : Word :=
  e.fields.foldl (fun w f => if refused.contains f.lo then w else f.write v w) w

end Sys2Proof.Machine
end

