-- ==== Sys2Proof/Machine/State.lean ====
section
/-!
DEFINITION. The state of the part as plain data, every piece of it the spec names, and the machine right after reset.
The registers stand in one sparse register file by address, memory in one sparse byte memory, and what lies behind them in the
structures below. Each structure's docstring names the rules of the spec it holds state for.
-/

namespace Sys2Proof.Machine

/-! ### Shutter, commit and tables -/

/-- Who issued a staged mutation, and so where its outcome is reported (R112). -/
inductive Issuer where
  | learn (port : Nat)
  | aging
  | program (ctx : Nat)
  | repair
  | ring (e ring index : Nat)
  | mailbox (e pair handle : Nat)
deriving DecidableEq, Repr

/-- A record in a staging list (R98), with its issuer and, once known, its outcome (R112, R330). -/
structure Staged where
  mu : Mut
  issuer : Issuer
deriving DecidableEq, Repr

/-- A copy of a record received or staged, by staging tick; the one kept last for each region and sequence counts (R101). -/
structure Copy where
  tick : Nat
  mu : Mut
deriving DecidableEq, Repr

/-- A TERN or TCAM entry (R306): value, mask and data. -/
structure TernEntry where
  value : List Byte
  mask : List Byte
  data : List Byte
deriving DecidableEq, Repr

/-- A prefix of an LPM4 or LPM6 table (R305). -/
structure LpmEntry where
  table : Nat
  key : List Byte
  plen : Nat
  data : List Byte
deriving DecidableEq, Repr

/-- One change of a region's replica, as the commit overlay holds it until it becomes visible (R110); a line whose repair becomes visible is
good from then on (R323). -/
inductive TabOp where
  | bytes (addr : Nat) (b : List Byte)
  | tern (table index : Nat) (e : Option TernEntry)
  | lpm (e : LpmEntry) (present : Bool)
  | direct (table index : Nat) (valid : Bool)
  | good (table line : Nat)
deriving DecidableEq, Repr

/-- One of the two commit overlays (R110): the shutter at which it becomes visible, and its changes in order. -/
structure Overlay where
  visible : Nat
  ops : List TabOp
deriving DecidableEq, Repr

/-- The outcome of a record this region staged, held until the shutter that reports it (R112). -/
structure Outcome where
  issuer : Issuer
  code : Nat
  visible : Nat
  index : Nat
deriving DecidableEq, Repr

/-- A line that is bad in this region: table, line and the tick since which it is bad (R318, R325). -/
structure BadLine where
  table : Nat
  line : Nat
  since : Nat
deriving DecidableEq, Repr

/-- A table descriptor in effect (R313, R353): its four words. -/
structure TableDesc where
  type : Word
  alloc : Word
  age : Word
  seed : Word
deriving DecidableEq, Repr

/-- The commit state of one region behind its shutter and commit registers (R91–R140): what it staged in this tick and the last, the
records it has of each tick, the commits it holds, the overlays, the outcomes waiting for their shutter, the reconciliation records
received, the record that last wrote each entry, the direct writes of programs waiting for a shutter (R116) and the records of the direct
writes that are held for one, each with its shutter and the command that waits for its outcome (R117), the repair requests waiting for a
commit, the mode of the last tick, what was heard of the anchor since the last check (R868), the tick of the last marker, the MEMBER notices
flooded (effective tick and masks), the cause of a fence that is due (0 for none), whether the region has had its first shutter (R84), the
ticks whose apply deadline passed without their commit (R119), the anchor that the last marker named (R121), what its timer was corrected by
in all, in ps (R91), and the records that it staged in the last tick, whatever became of them (R909). -/
structure CommitState where
  staged : List Staged
  previous : List Staged
  copies : List Copy
  held : List Commit
  seen : List Nat
  lastApplied : Nat
  overlays : List Overlay
  outcomes : List Outcome
  recon : List Copy
  written : List Copy
  directOps : List (Nat × TabOp)
  repairWait : List (Nat × Nat × Nat)
  lastMode : Mode
  heard : List Nat
  markerTick : Nat
  notices : List (Nat × Nat)
  fenceDue : Nat
  directHeld : List (Nat × Mut × Option Issuer)
  started : Bool
  lapsed : List Nat
  anchorSeen : Nat
  timer : Int
  lastStaged : List Mut
deriving DecidableEq, Repr

/-- The table state of one region behind its table registers (R299–R345); `sweepOn` tells that a sweep of the scanner has begun, and
`slowSaid` that it was reported as slow (R344); `noticed` holds for a slot the quantum, plus one, and the key of its last hit notice (R342). -/
structure TableState where
  inEffect : List (Nat × TableDesc)
  pendingDesc : List Nat
  tern : List (Nat × Option TernEntry)
  lpm : List LpmEntry
  directValid : List (Nat × Bool)
  bad : List BadLine
  hits : List (Nat × Bool)
  noticed : List (Nat × Nat × List Byte)
  tokens : List (Nat × Nat)
  sweepTable : Nat
  sweepSlot : Nat
  sweepStart : Nat
  sweepOn : Bool
  slowSaid : Bool
deriving DecidableEq, Repr

/-! ### Interrupts -/

/-- An inbox entry (R796): a global source, a count and a target byte. -/
structure InboxEntry where
  source : Nat
  count : Nat
  target : Nat
deriving DecidableEq, Repr

/-! ### Stitches, packets and egress -/

/-- A stitch descriptor (R559), with the requester charged for it and the traffic class it was admitted under (R572, R592). -/
structure StitchDesc where
  alloc : Bool
  last : Bool
  poison : Bool
  refLink : Bool
  skip : Nat
  owner : Nat
  refcnt : Nat
  bytes : Nat
  next : Nat
  charged : Nat
  cls : Nat
deriving DecidableEq, Repr

/-- One of the eight free lists of a pool (R562): the stitches pushed on it, newest first, and how many of the stitches it held
at reset have been popped. -/
structure FreeList where
  stack : List Nat
  popped : Nat
deriving DecidableEq, Repr

/-- The buffer pool manager of one region behind its registers (R556–R570). Keys: a stitch by `pool × 2^25 + index`, a free list
by `pool × 8 + list`, a cache by `requester × 2 + pool`. -/
structure PoolState where
  desc : List (Nat × StitchDesc)
  lists : List (Nat × FreeList)
  caches : List (Nat × List Nat)
  lost : List (Nat × Bool)
deriving DecidableEq, Repr

/-- A packet's place on its route (R48). -/
inductive Stage where
  | stamped
  | front
  | lookups
  | queued (queue : Nat)
  | placed (ctx : Nat)
  | unplaced
  | recirc (tick : Nat)
  | verdict
deriving DecidableEq, Repr

/-- A primary lookup of a pass that is still outstanding: its slot, table and key (R283). -/
structure PrimaryLookup where
  slot : Nat
  table : Nat
  key : List Byte
deriving DecidableEq, Repr

/-- A packet in flight, from its stamp to its release (R160–R181, R238, R281). `mirrors` are the chains on which MIRR took a reference: the
copy index, the head and the length (R287, R288); `orig` is the chain with its length as received, once the packet was rewritten between
passes and goes on with another head. -/
structure Packet where
  region : Nat
  stamp : Stamp
  localPort : Nat
  head : Nat
  length : Nat
  rxTime : Nat
  rxSec : Nat
  stage : Stage
  pass : Nat
  paneKnown : Bool
  pane : Nat
  paneGen : Nat
  profile : Nat
  transit : Nat
  maxPasses : Nat
  narrowed : Bool
  flowHash : Nat
  parse : List Byte
  cls : List Byte
  front : List Nat
  results : List (List Byte)
  lookups : List PrimaryLookup
  flooded : List Nat
  learnDrop : Bool
  mirrorA : Option Nat
  mirrorB : Option Nat
  mirrors : List (Nat × Nat × Nat)
  rewrite : List Nat
  poisoned : Bool
  target : Nat
  entry : Nat
  sendBack : Bool
  task : Bool
  reserve : Bool
  copies : Nat
  consumed : Bool
  orig : Option (Nat × Nat)
deriving DecidableEq, Repr

/-- A copy bound for an egress queue or a host queue: the record, the rewrite list and pane of the packet, whether its head
segment is written and its outcome is known (R182, R579, R586); of a mirror copy, the mirror field of its packet (R281). -/
structure Copyout where
  record : ReleaseRec
  rewrite : List Nat
  parse : List Byte
  pane : Nat
  paneGen : Nat
  release : Nat
  mirror : Bool
  shared : Bool
  outcome : Option Nat
  head : Option Nat
  meta0 : Nat
  mirrorField : Nat
deriving DecidableEq, Repr

/-- An entry of an egress queue (R584–R590): its record and chain, whether its rewrite is complete, whether its spill copy is
outstanding, and whether SPILL owns its chain. -/
structure QueueEntry where
  record : ReleaseRec
  head : Nat
  stitches : Nat
  trunc : Nat
  ready : Bool
  spilling : Bool
  bySpill : Bool
deriving DecidableEq, Repr

/-- What a port and class hold for priority flow control (R591–R593, R722, R723): the peer's pause and our own. -/
structure PauseState where
  paused : Bool
  quanta : Nat
  since : Nat
  lastFrame : Nat
  storm : Bool
  sent : Bool
deriving DecidableEq, Repr

/-- A packet that a port's transmit unit sends (R578, R583, R590): its queue and entry, the stitch to be read next with the stitches
of a shared chain still to be passed over, the bytes read so far, and whether a stitch was found in error. -/
structure Sending where
  queue : Nat
  entry : QueueEntry
  next : Option Nat
  skip : Nat
  got : List Byte
  bad : Bool
deriving DecidableEq, Repr

/-- An egress timestamp in a port's FIFO (R717): messageType, domainNumber, sequenceId, ns and seconds. -/
structure PtsEntry where
  msgType : Nat
  domain : Nat
  seqId : Nat
  ns : Nat
  sec : Nat
deriving DecidableEq, Repr

/-- The egress and release state of one region behind its egress registers (R182–R190, R584–R594). Keys: a queue by its local
number, a pause state by `port × 8 + class`, a deficit and a token bucket by queue, `0x1000 + group` or `0x1100 + port`; tokens are
kept in eighths of a byte. `panes` are the states of the two panes and the generation at the releases of the last shutter (R96). -/
structure EgressState where
  records : List ReleaseRec
  markers : List Nat
  closed : Bool
  copies : List Copyout
  queues : List (Nat × List QueueEntry)
  deficits : List (Nat × Nat)
  tokens : List (Nat × Int)
  sending : List (Nat × Option Sending)
  pts : List (Nat × List PtsEntry)
  pause : List (Nat × PauseState)
  spillBacklog : Nat
  linkFlush : List Nat
  panes : Nat × Nat × Nat
deriving DecidableEq, Repr

/-! ### The state ledger -/

/-- A unit of the state ledger (R778–R781): its effective state, the consecutive shutters of disagreement, the shutter at which its
last request took effect, and whether its mismatch was raised. Its requested state stands in the register that R779 names. -/
structure LedgerUnit where
  effective : Nat
  mismatch : Nat
  since : Nat
  raised : Bool
deriving DecidableEq, Repr

/-! ### Task dispatch -/

/-- The dispatcher of one region behind its registers (R490–R507): the ready queues, oldest task first, by packet number; the entries
reserved in the general pool and in the recirculation reserve; whether back-pressure is asserted; the block last granted; the queue
each block took from last; and the placements, each a target shutter and a context, until their window has ended. -/
structure DispatchState where
  ready : List (Nat × List Nat)
  general : Nat
  recirc : Nat
  pressed : Bool
  lastBlock : Nat
  lastQueue : List (Nat × Nat)
  placements : List (Nat × Nat)
deriving DecidableEq, Repr

/-! ### Front-ends -/

/-- The front-end state of one region behind its registers (R173, R217–R220, R241, R257): the write session's pane, the panes whose check code is
being computed, the divisions that wait, the next sequence number of each source port, the recirculated
and the first passes that took a front-end slot in this tick, the first
shutter after whose releases no packet held the RETIRING pane (R131), whether the region has raised DRAIN_EMPTY (R839), and the bytes of the
ACTIVE pane as they stood before the session that is open wrote them (R220). -/
structure FrontState where
  session : Option Nat
  codeBusy : List Nat
  pendingDiv : List (Nat × Word)
  seqs : List (Nat × Nat)
  recircUsed : Nat
  firstUsed : Nat
  quiet : Option Nat
  drainSaid : Bool
  saved : List (Nat × Byte)
deriving DecidableEq, Repr

/-! ### Cells -/

/-- The state of a context (R418). -/
inductive CtxMode where
  | disabled | idle | running | waiting | fillWait | faulted | debugHalted
deriving DecidableEq, Repr

/-- A lookup or stitch fetch that a context has outstanding (R389–R391). -/
inductive Outstanding where
  | lookup (table : Nat) (key : List Byte) (result length : Nat) (live : Bool)
  | fetch (dest handle : Nat) (live : Bool)
deriving DecidableEq, Repr

/-- A context's open channel message (R438, R441). -/
structure OpenMsg where
  regional : Bool
  channel : Nat
  words : List Word
  overflow : Bool
deriving DecidableEq, Repr

/-- A packet placed on a worker: its number since the worker's reset, its program window, and whether its window is written
(R371, R375, R379, R381). -/
structure Placed where
  pkt : Nat
  number : Nat
  target : Nat
  ready : Bool
  retired : Bool
deriving DecidableEq, Repr

/-- The 256-byte coprocessor state of a context (R467, R476), by the parts of its image. -/
structure Copro where
  area : List Byte
  algorithm : Nat
  phase : Nat
  fill : Nat
  sumParity : Bool
  crc32c : Nat
  crc64 : Nat
  csum : Nat
  toeplitz : Nat
  toeplitzUsed : Nat
  index : Nat
deriving DecidableEq, Repr

/-- One context of a cell (R357–R426, R445, R467); `awaits` are the registers that a fabric response has still to write, and
`haltedFrom` the state a debug halt interrupted. -/
structure Ctx where
  mode : CtxMode
  x : List (Nat × Word)
  pc : Word
  sp : Word
  enable : Bool
  background : Bool
  generation : Nat
  faultValid : Bool
  faultCause : Nat
  tval : Word
  sticky : Nat
  waitMask : Nat
  waitRd : Nat
  placed : List Placed
  placedCount : Nat
  held : Option Nat
  heldIndex : Nat
  heldNumber : Nat
  used : Nat
  budget : Nat
  outstanding : List Outstanding
  mutRd : Option (Nat × Nat)
  instret : Nat
  mie : Bool
  mpie : Bool
  mieMask : Word
  mtvec : Word
  mscratch : Word
  mepc : Word
  mcause : Word
  mtval : Word
  timeh : Option Word
  rxSec : Option Word
  openMsg : Option OpenMsg
  copro : Copro
  cpxErr : Option Nat
  awaits : List Nat
  haltedFrom : CtxMode
deriving DecidableEq, Repr

/-- One cell: its slot table in force, whether an apply is requested, its instruction cache and the cache's lock (R364–R369, R413). -/
structure CellState where
  slots : List Nat
  applyDue : Bool
  icache : List (Nat × List Byte)
deriving DecidableEq, Repr

/-- A visible channel message (R437, R444): the sending block, the sender's holder ID and its words. -/
structure ChannelMsg where
  block : Nat
  holder : Nat
  words : List Word
deriving DecidableEq, Repr

/-! ### What leaves the part -/

/-- What the part puts on its lines and host links, in order: frames and pause frames of a port, MSI-X messages of an endpoint,
pulses of PPS_OUT, SPI answers, and completions of BAR2 reads (0 data, 1 Unsupported Request, 2 Completer Abort, 3 poisoned data). -/
inductive LineOut where
  | frame (r p : Nat) (data : List Byte)
  | pause (r p cls quanta : Nat)
  | msix (e vector : Nat)
  | ppsOut (tick : Nat)
  | spi (data : List Byte)
  | completion (e : Nat) (status : Nat) (data : List Byte)
deriving DecidableEq, Repr

/-! ### The part -/

/-- The journal unit of one region (R874–R877): the next line, the number of the last entry, the boot field, the entries written in
this millisecond and those not written in it. The lines themselves stand in memory. -/
structure JournalState where
  line : Nat
  boot : Nat
  written : Nat
  dropped : Nat
deriving DecidableEq, Repr

/-- A request that waits at a port of the HBM controller (R619–R621, R631): its port, whether it writes, its usable offset, length,
data and page hint. -/
structure HbmReq where
  port : Nat
  write : Bool
  addr : Nat
  len : Nat
  data : List Byte
  hint : Bool
deriving DecidableEq, Repr

/-- The HBM controller of one region behind its registers (R609–R634). Keys: a pseudo-channel, 0–31, or an open row by
`pseudo-channel × 48 + bank`. `bursts` counts the requests of a burst in progress, by `pseudo-channel × 6 + port`; `inserts` the
steps of a round still to be inserted into it, and `parity` the consecutive retries after command or address parity errors. `badRows`
lists the rows whose tag or metadata is wrong, by `(pseudo-channel × 48 + bank) × 16,384 + row` (R612); `stepped` says that a thermal
step holds, and `held` that a write of rate_run waits for it to end (R629). -/
structure HbmState where
  waiting : List HbmReq
  debts : List (Nat × Nat)
  bursts : List (Nat × Nat)
  inserts : List (Nat × Nat)
  rows : List (Nat × Option Nat)
  parity : List (Nat × Nat)
  badRows : List Nat
  stepped : Bool
  held : Bool
deriving DecidableEq, Repr

/-- What a fabric request that is under way will complete (R662, R664): a context's load, store or AMO, the body read of a
port's transmit unit, or an access that a host makes through BAR2. A context's request carries the pc and the address of its
instruction, for the fault that its response may bring, and whether it orders later accesses after it (R458, R544). -/
inductive Purpose where
  | load (k rd width : Nat) (signed fence : Bool) (pc addr : Word)
  | store (k : Nat) (fence : Bool) (pc addr : Word)
  | amo (k rd : Nat) (fence : Bool) (pc addr : Word)
  | body (port : Nat)
  | hostRead (e : Nat)
  | hostWrite (e : Nat)
deriving DecidableEq, Repr

/-- A fabric request that has no response yet (R667). -/
structure Request where
  tag : Nat
  dst : Nat
  purpose : Purpose
deriving DecidableEq, Repr

/-- One end of a die-to-die link behind its registers (R649–R656, R658): the sequence number of the next DATA flit to be sent, the
flits that are not yet acknowledged with the number of times each was sent, the number expected next from the peer, whether a
NAK stands and later flits are discarded, the credits held for each virtual channel, and the slots freed whose credit has still
to be returned. Of its output arbiter (R659, R660) it holds the channel whose turn it is and the slots left of its weight, by channel the
continuation slots of the message that is partly sent, and the input served last; of its receiver, by channel the continuation slots
still to come. -/
structure LinkState where
  nextSeq : Nat
  unacked : List (Nat × Nat)
  expected : Nat
  nakSent : Bool
  credits : List Nat
  owed : List Nat
  turn : Nat
  left : Nat
  partSent : List Nat
  inputs : List Nat
  partIn : List Nat
deriving DecidableEq, Repr

/-- One region. `routeDue` are the LINK_STATE notices it holds: the edges named up, and the shutter of the switch (R671); `due` are
the register words written that take effect at the next shutter (R603, R844); `relays` are, by the info of the messages, the frames of
Thody that have come in part (R751), and `wipes`, by block, the size code of the largest secure partition that a wipe in progress
covers (R535, R536). -/
structure Rgn where
  tick : Nat
  mode : Mode
  drainedFrom : Mode
  commit : CommitState
  tables : TableState
  inbox : List InboxEntry
  pool : PoolState
  egress : EgressState
  front : FrontState
  dispatch : DispatchState
  mirror : List (Nat × Nat)
  mpGeneration : Nat
  ledger : List (Nat × LedgerUnit)
  journal : JournalState
  requests : List Request
  nextTag : Nat
  hbm : HbmState
  links : List (Nat × LinkState)
  routeDue : List (Nat × Nat)
  due : List (Nat × Word)
  relays : List (Nat × List Byte)
  wipes : List (Nat × Nat)
deriving DecidableEq, Repr

/-- The holding register of a register pair and the _LO value written last (R24). -/
structure PairBuf where
  hold : Option Word
  lo : Option Word
deriving DecidableEq, Repr

/-- A seal that the anchor holds (R102, R103). -/
structure SealRec where
  region : Nat
  tick : Nat
  count : Nat
  code : Word
deriving DecidableEq, Repr

/-- A requested change of mode (R836–R838): the target, the shutter and the LEAN setting. -/
structure ModeChange where
  target : Mode
  shutter : Nat
  lean : Nat
deriving DecidableEq, Repr

/-- A rejoin under way behind CHP_REJOIN_STAT (R861–R865): the region, the copy source, the phase, the join tick once it is named, and the
job that asked for it (0 for none). -/
structure Rejoin where
  region : Nat
  source : Nat
  phase : Nat
  joinAt : Nat
  job : Nat
deriving DecidableEq, Repr

/-- What the anchor keeps (R86–R92, R103, R113, R127, R137, R711–R714, R806, R837): it passes to the standby at a failover. `move`, `slew` and `phase` are
the moves of its shutters that are still outstanding, in ps, in 10^-9 ps and in ps; `ppsSeen` tells that a PPS edge is being followed;
`snapDue` are the
regions that have still to take a snapshot at its shutter and `snapWaits` those that have still to report it; `opened` is the last shutter that any
region has reached; `drainReady` tells that the replicas had converged when it opened (R140); `lost` tells that the anchor itself was due for a fence and plays its role no more; `roles` are the changes of guests' roles that are due: the shutter, the position and whether it commits (R690). -/
structure AnchorState where
  seals : List SealRec
  lateRuns : List (Nat × Nat)
  commits : List Commit
  missedFrom : List (Nat × Nat)
  swapAt : Option Nat
  freeAt : Option Nat
  modeChange : Option ModeChange
  converging : Bool
  periodDue : Option Nat
  ptpDue : Option (Nat × Nat × Nat)
  ptpBase : Nat × Nat × Nat
  move : Int
  slew : Int
  phase : Int
  ppsSeen : Bool
  snapAt : Option Nat
  snapDue : List Nat
  snapWaits : List Nat
  opened : Option Nat
  convergedSaid : Bool
  drainReady : Bool
  lost : Bool
  takenOver : Bool
  rejoin : Option Rejoin
  roles : List (Nat × Nat × Bool)
deriving DecidableEq, Repr

/-! ### Host endpoints (R724–R784) -/

/-- An event ring in host memory (R767, R770): base, log of its size, vector, the tick its vector was last sent, and the events
not posted that EVENT_LOST still has to report. -/
structure EventRing where
  base : Nat
  log : Nat
  vector : Nat
  sentAt : Option Nat
  unsaid : Nat
deriving DecidableEq, Repr

/-- A transmit descriptor whose packet read is under way (R735): its index, host address, length and class. -/
structure TxJob where
  index : Nat
  addr : Nat
  length : Nat
  tc : Nat
deriving DecidableEq, Repr

/-- A released packet in a host receive queue (R736): its record, its bytes' chain, when it reached the head of the queue, what its
descriptor reports (R733), and whether its rewrite is complete. -/
structure RxPkt where
  record : ReleaseRec
  meta0 : Nat
  tsNs : Nat
  tsSec : Nat
  since : Nat
  ready : Bool
deriving DecidableEq, Repr

/-- What a command that was acknowledged waits for before it completes (R771–R773): nothing, a shutter, the change of mode it asked for,
the outcome of its mutation, the check code of a pane in every region, or the rate of the stacks of a set of regions; or its completion
is known, and only its response has still to be written. A command of an endpoint away from the anchor first waits for its relay to reach
the primary (R751). -/
inductive MailWait where
  | fresh
  | relay
  | shutter (n : Nat)
  | mode
  | outcome
  | pane (p : Nat)
  | rate (mask : Nat)
  | ready (status detail : Nat) (payload : List Byte)
deriving DecidableEq, Repr

/-- A mailbox pair (R752–R763): the command that runs (opcode zero for none), the last response with the number of the command it
answers, and what a command that was acknowledged waits for. -/
structure MailPair where
  opcode : Nat
  seq : Nat
  flags : Nat
  token : List Byte
  payload : List Byte
  lastSeq : Nat
  stored : List Byte
  wait : MailWait
deriving DecidableEq, Repr

/-- One endpoint (R724–R770). Keys of `producer`: a transmit ring `2q`, a receive ring `2q + 1`, an update ring `0x1000 + r`. -/
structure EndpointState where
  events : Option EventRing
  producer : List (Nat × Nat)
  txBusy : List (Nat × TxJob)
  rxq : List (Nat × List RxPkt)
  unsignalled : List (Nat × Nat)
  txTurn : Nat
  urTurn : Nat
  urBlocked : List (Nat × Bool)
  msix : List (Nat × Word)
  pba : List (Nat × Bool)
  mail : List (Nat × MailPair)
deriving DecidableEq, Repr

/-! ### Resets, life cycle and management -/

/-- What the part keeps of its resets and alarms behind the chip registers (R813, R828, R845, R879, R897, R898): the phase of a reset of
the part (0 none, 1 SYS_RST_N held, 2 its pulse runs, 3 held after a TRIP or until VIN returns), its cause, whether the temperature
stands above WARN and above CRIT, the target of a life-cycle advance under way, and the life-cycle state that governs images (R825). -/
structure ChipState where
  phase : Nat
  cause : Nat
  warnHigh : Bool
  critHigh : Bool
  advance : Option Nat
  imageState : Nat
deriving DecidableEq, Repr

/-- What a job waits for (R766, R771, R776). -/
inductive JobKind where
  | unitWait (region kind index effectAt : Nat)
  | rejoin (region : Nat)
  | retrain (region : Nat)
  | activate (length : Nat)
  | advance (target : Nat)
deriving DecidableEq, Repr

/-- A Long command's job (R766, R769). `state` is 0 while it runs, 1 when it has ended and JOB_DONE is still to be posted, and 2
once it was posted. -/
structure Job where
  num : Nat
  endpoint : Nat
  pair : Nat
  opcode : Nat
  seq : Nat
  kind : JobKind
  state : Nat
  status : Nat
  detail : Nat
  result : List Byte
  doneTick : Nat
deriving DecidableEq, Repr

/-- What Thody keeps (R766, R774, R775, R819): its jobs, the number the next one takes, the pane session's pane, endpoint and pair, and
the release of the running image. Staged image bytes stand in memory. -/
structure Thody where
  jobs : List Job
  nextJob : Nat
  session : Option (Nat × Nat × Nat)
  release : Word
deriving DecidableEq, Repr

/-- The part: every piece of state the spec gives it. `free` counts the commands for the free values; `genBase` is the number of cold
and warm resets since power-on, by which every generation of the part has risen (R830). -/
structure Dev where
  free : Nat
  genBase : Nat
  anchor : Region
  regs : List (Nat × Word)
  pairs : List (Nat × PairBuf)
  mem : List Host.Cell
  poison : List (Nat × Bool)
  wire : List Flight
  line : List LineOut
  rgn : Vector Rgn 8
  ctxs : List (Nat × Ctx)
  cells : List (Nat × CellState)
  blockCh : List (Nat × List ChannelMsg)
  regionCh : List (Nat × List ChannelMsg)
  chSpent : List (Nat × Bool)
  packets : List (Nat × Option Packet)
  nextPacket : Nat
  anchorSt : AnchorState
  endpoints : Vector EndpointState 2
  chip : ChipState
  thody : Thody
deriving DecidableEq, Repr

/-- The machine: the part, and the commands that wait, first in, first out. -/
structure State where
  dev : Dev
  pending : List Instr
deriving DecidableEq, Repr

/-! ### Reset (R28, R830): every register at its reset value, memory with nothing listed, and nothing in progress -/

/-- The commit state of a region after reset. -/
def CommitState.reset : CommitState :=
  { staged := [], previous := [], copies := [], held := [], seen := [], lastApplied := 0, overlays := [],
    outcomes := [], recon := [], written := [], directOps := [], repairWait := [], lastMode := .load, heard := [],
    markerTick := 2 ^ 48 - 1, notices := [], fenceDue := 0, directHeld := [], started := false, lapsed := [], anchorSeen := 0, timer := 0,
    lastStaged := [] }

/-- The table state of a region after reset. -/
def TableState.reset : TableState :=
  { inEffect := [], pendingDesc := [], tern := [], lpm := [], directValid := [], bad := [], hits := [], noticed := [], tokens := [],
    sweepTable := 0, sweepSlot := 0, sweepStart := 0, sweepOn := false, slowSaid := false }

/-- The egress state of a region after reset. -/
def EgressState.reset : EgressState :=
  { records := [], markers := [], closed := false, copies := [], queues := [], deficits := [], tokens := [], sending := [],
    pts := [], pause := [], spillBacklog := 0, linkFlush := [], panes := (1, 0, 0) }

/-- The HBM controller of a region after reset. -/
def HbmState.reset : HbmState :=
  { waiting := [], debts := [], bursts := [], inserts := [], rows := [], parity := [], badRows := [], stepped := false, held := false }

/-- The dispatcher of a region after reset. -/
def DispatchState.reset : DispatchState :=
  { ready := [], general := 0, recirc := 0, pressed := false, lastBlock := 15, lastQueue := [], placements := [] }

/-- A region after reset, with a generation of its MP and its journal unit. -/
def Rgn.reset (mpGeneration : Nat) (journal : JournalState) : Rgn :=
  { tick := 0, mode := .load, drainedFrom := .load, commit := .reset, tables := .reset, inbox := [],
    pool := { desc := [], lists := [], caches := [], lost := [] }, egress := .reset,
    front := { session := none, codeBusy := [], pendingDiv := [], seqs := [], recircUsed := 0, firstUsed := 0, quiet := none, drainSaid := false, saved := [] }, dispatch := .reset, mirror := [],
    mpGeneration, ledger := [], journal, requests := [], nextTag := 0, hbm := .reset, links := [], routeDue := [], due := [], relays := [],
    wipes := [] }

/-- What the anchor keeps after reset. -/
def AnchorState.reset : AnchorState :=
  { seals := [], lateRuns := [], commits := [], missedFrom := [], swapAt := none, freeAt := none, modeChange := none,
    converging := false, periodDue := none, ptpDue := none, ptpBase := (0, 0, 0), move := 0, slew := 0, phase := 0, ppsSeen := false,
    snapAt := none, snapDue := [], snapWaits := [], opened := none, convergedSaid := false, drainReady := false, lost := false, takenOver := false, rejoin := none,
    roles := [] }

/-- An endpoint after reset. -/
def EndpointState.reset : EndpointState :=
  { events := none, producer := [], txBusy := [], rxq := [], unsignalled := [], txTurn := 0, urTurn := 0, urBlocked := [], msix := [],
    pba := [], mail := [] }

/-- The part after a power-on reset, before its release (R813): the loader is in RESET, and the pulse of the reset runs. -/
def Dev.reset : Dev :=
  { free := 0, genBase := 0, anchor := 0, regs := [], pairs := [], mem := [], poison := [], wire := [], line := [],
    rgn := Vector.replicate 8 (Rgn.reset 0 ⟨256, 1, 0, 0⟩), ctxs := [], cells := [], blockCh := [], regionCh := [], chSpent := [],
    packets := [], nextPacket := 0, anchorSt := .reset, endpoints := Vector.replicate 2 .reset,
    chip := ⟨2, 1, false, false, none, 1⟩, thody := ⟨[], 1, none, 0⟩ }

/-- The machine right after reset: the part as a power-on reset leaves it, and no command waiting. -/
def State.reset : State := { dev := .reset, pending := [] }

/-- Why a command stops with a fault. -/
inductive Fault where
  /-- Raised by HBM_REQUEST and HBM_SCRUB whose range lies beyond the last byte of the stack (R75); safe: the model stops. -/
  | outsideAddressSpace
deriving DecidableEq, Repr

/-- Why a command has no meaning here. -/
inductive Refusal where
  /-- An arm whose command has no meaning yet; safe: the model stops. -/
  | notModelled (mnemonic : String)
  /-- Raised by a command that names a region, packet, context or unit that does not exist or is not in the state in which
  the event can happen at all; safe: the event cannot occur there. -/
  | noSuchUnit
  /-- Raised by an instruction command whose word is not the word that its context fetches, or spells another row; safe: the context
  cannot issue it there. -/
  | otherInstruction
  /-- Raised by an instruction command whose context cannot issue now: it waits for a result, a response or its packet (R365, R390,
  R668), and by a mailbox command while no primary serves (R765); safe: the event cannot occur there. -/
  | stalled
deriving DecidableEq, Repr

/-- What a meaning answers about the part. -/
abbrev Res := Host.Outcome Dev Fault Refusal

/-- What a command answers about the machine. -/
abbrev Out := Host.Outcome State Fault Refusal

end Sys2Proof.Machine
end

