-- ==== Sys2Proof/Machine/Ops.lean ====
section
/-!
DEFINITION. The named operations over the part: registers and their fields, memory, interrupts, monitor counters, messages.
-/

namespace Sys2Proof.Machine

/-! ### Running a command -/

/-- Run a command's effect on the part; the queue stays as it is, and the counter of free values advances. -/
def State.doing (s : State) (f : Dev → Res) : Out :=
  match f s.dev with
  | .next d => .next { s with dev := { d with free := s.dev.free + 1 } }
  | .fault e => .fault e
  | .refused e => .refused e

/-- Run a command whose effect is total. -/
def State.run (s : State) (f : Dev → Dev) : Out := .next { s with dev := { f s.dev with free := s.dev.free + 1 } }

/-- Go on only where `c` holds; otherwise the command names nothing that exists. -/
def need (c : Prop) [Decidable c] (d : Dev) : Res := if c then .next d else .refused .noSuchUnit

/-! ### Registers -/

namespace Dev

/-- The word of the register at an address. -/
def reg (d : Dev) (a : Nat) : Word := Sparse.get regDefault d.regs a

/-- The part with the register at an address holding `w`. -/
def setReg (d : Dev) (a : Nat) (w : Word) : Dev := { d with regs := Sparse.set regDefault d.regs a w }

/-- The value of a field. -/
def fld (d : Dev) (f : Fld) : Nat := fieldOf (d.reg f.addr) f.lo f.width

/-- The part with a field holding `v`. -/
def setFld (d : Dev) (f : Fld) (v : Nat) : Dev := d.setReg f.addr (withField (d.reg f.addr) f.lo f.width v)

/-- Whether a field is not zero. -/
def on (d : Dev) (f : Fld) : Bool := d.fld f != 0

/-- Set a one-bit field. -/
def setOn (d : Dev) (f : Fld) : Dev := d.setFld f 1

/-- Clear a field. -/
def clr (d : Dev) (f : Fld) : Dev := d.setFld f 0

/-- Add to a field that saturates at its largest value. -/
def addSat (d : Dev) (f : Fld) (n : Nat) : Dev := d.setFld f (min (2 ^ f.width - 1) (d.fld f + n))

/-- Raise a field that records a maximum. -/
def maxFld (d : Dev) (f : Fld) (v : Nat) : Dev := d.setFld f (max (d.fld f) (min (2 ^ f.width - 1) v))

/-- The number a register pair holds. -/
def pair (d : Dev) (lo hi : Nat) : Nat := (d.reg lo).toNat + (d.reg hi).toNat * 2 ^ 32

/-- Set both halves of a register pair. -/
def setPair (d : Dev) (lo hi v : Nat) : Dev :=
  (d.setReg lo (BitVec.ofNat 32 v)).setReg hi (BitVec.ofNat 32 (v / 2 ^ 32))

/-- The position of the anchor, as a number (R142). -/
def A (d : Dev) : Nat := d.anchor.val

/-! ### Regions -/

/-- One region. -/
def g (d : Dev) (r : Region) : Rgn := d.rgn[r.val]

/-- Change one region. -/
def modR (d : Dev) (r : Region) (f : Rgn → Rgn) : Dev := { d with rgn := d.rgn.set r.val (f (d.g r)) }

/-- The mode whose window, budgets, releases and passes a region keeps: in DRAIN, the mode drained from (R839). -/
def workMode (d : Dev) (r : Region) : Mode := if (d.g r).mode = .drain then (d.g r).drainedFrom else (d.g r).mode

/-- The population word of a position: present (R68). -/
def present (d : Dev) (r : Nat) : Bool := bitOf (d.fld (CHP_POPULATION_present d.A)) r

/-- Whether a guest die occupies a position (R68). -/
def guest (d : Dev) (r : Nat) : Bool := bitOf (d.fld (CHP_POPULATION_guest d.A)) r

/-- Whether a Mladus die occupies a position. -/
def mladus (d : Dev) (r : Nat) : Bool := d.present r && !d.guest r

/-- The regions that hold a Mladus die, in number order. -/
def mladusRegions (d : Dev) : List Region := (List.finRange 8).filter (fun r => d.mladus r.val)

/-- The populated regions, in number order. -/
def populated (d : Dev) : List Region := (List.finRange 8).filter (fun r => d.present r.val)

/-- Whether region `r` is committing, and whether it is fenced, absent or recovering (R145). -/
def committing (d : Dev) (r : Nat) : Bool := bitOf (d.fld (CHP_COMMIT_MEMBERS_committing d.A)) r
def fenced (d : Dev) (r : Nat) : Bool := bitOf (d.fld (CHP_COMMIT_MEMBERS_fenced d.A)) r
def absent (d : Dev) (r : Nat) : Bool := bitOf (d.fld (CHP_COMMIT_MEMBERS_absent d.A)) r
def recovering (d : Dev) (r : Nat) : Bool := bitOf (d.fld (CHP_COMMIT_MEMBERS_recovering d.A)) r

/-- The effective mode of the part, as the anchor reports it (R845). -/
def mode (d : Dev) : Mode := Mode.ofCode (d.fld (CHP_MODE_STAT_effective d.A))

/-- The tick count of the anchor (R143). -/
def tick (d : Dev) : Nat := (d.g d.anchor).tick

/-- The tick that a shutter in progress begins, and otherwise the present tick: what arises at a shutter belongs to the tick that it
begins (R97). -/
def eventTick (d : Dev) : Nat :=
  match d.anchorSt.opened with
  | some k => if k = (d.tick + 1) % 2 ^ 48 then k else d.tick
  | none => d.tick

/-- Do something for each member of a list in turn. -/
def each {α : Type} (d : Dev) (l : List α) (f : α → Dev → Dev) : Dev := l.foldl (fun d a => f a d) d

/-- Do something only where a condition holds. -/
def when (d : Dev) (b : Bool) (f : Dev → Dev) : Dev := if b then f d else d

/-! ### Memory -/

/-- What a byte that nothing has written reads as: zero (R830 writes memory to zero at power-on). -/
def memDefault : Nat → Byte := fun _ => 0

/-- One byte of memory. -/
def byte (d : Dev) (a : Nat) : Byte := Sparse.get memDefault d.mem a

/-- The part with one byte written. -/
def setByte (d : Dev) (a : Nat) (b : Byte) : Dev := { d with mem := Sparse.set memDefault d.mem a b }

/-- `n` bytes from an address. -/
def bytes (d : Dev) (a n : Nat) : List Byte := (List.range n).map (fun i => d.byte (a + i))

/-- Write bytes from an address upwards. -/
def setBytes (d : Dev) (a : Nat) : List Byte → Dev
  | [] => d
  | b :: t => (d.setByte a b).setBytes (a + 1) t

/-- A little-endian number of `n` bytes (R20). -/
def le (d : Dev) (a n : Nat) : Nat := ofLE (d.bytes a n)

/-- Write a little-endian number of `n` bytes (R20). -/
def setLE (d : Dev) (a n v : Nat) : Dev := d.setBytes a (bytesLE n v)

/-- Whether a 32-byte line of memory is poisoned (R530). -/
def poisoned (d : Dev) (a : Nat) : Bool := Sparse.get (fun _ => false) d.poison (a / 32)

/-- Whether any line of a range of bytes is poisoned. -/
def anyPoison (d : Dev) (a n : Nat) : Bool := (List.range n).any (fun i => d.poisoned (a + i))

/-- Mark or clean a line. -/
def setPoison (d : Dev) (a : Nat) (b : Bool) : Dev :=
  { d with poison := Sparse.set (fun _ => false) d.poison (a / 32) b }

/-- Remove every listed byte and poison mark of a range: the range reads as zero with valid check symbols. -/
def zero (d : Dev) (a n : Nat) : Dev :=
  { d with mem := d.mem.filter (fun c => c.1 < a || a + n ≤ c.1),
           poison := d.poison.filter (fun c => c.1 * 32 + 31 < a || a + n ≤ c.1 * 32) }

/-! ### Free values -/

/-- The `i`-th free value of the present command. -/
def freeNat (d : Dev) (i : Nat) : Nat := Config.freeNat d.free i

/-! ### Messages -/

/-- Send a message from one region to another. -/
def send (d : Dev) (src dst : Nat) (m : Msg) : Dev := { d with wire := d.wire ++ [⟨src, dst, m⟩] }

/-- Send a message to each of several regions. -/
def sendAll (d : Dev) (src : Nat) (dsts : List Region) (m : Msg) : Dev :=
  { d with wire := d.wire ++ dsts.map (fun r => ⟨src, r.val, m⟩) }

/-- Take a message that has arrived off the wire, if it is in flight. -/
def receive (d : Dev) (src dst : Nat) (m : Msg) : Dev := { d with wire := d.wire.erase ⟨src, dst, m⟩ }

/-- The Mladus regions other than `r`. -/
def others (d : Dev) (r : Region) : List Region := d.mladusRegions.filter (· != r)

/-! ### Ticks -/

/-- Tick numbers are compared modulo 2^48, and a tick lies in the future when it is less than 2^47 ahead (R84). -/
def ticksAhead (a b : Nat) : Nat := (a + 2 ^ 48 - b % 2 ^ 48) % 2 ^ 48

/-- Whether tick `a` lies strictly after tick `b` (R84). -/
def tickAfter (a b : Nat) : Bool := 0 < ticksAhead a b && ticksAhead a b < 2 ^ 47

/-- The tick period in picoseconds (R82). -/
def periodPs (d : Dev) : Nat := 500000 * 2 ^ d.fld (CHP_SHUTTER_CTL_period d.A)

/-- The tick period in region clocks of 0.8 ns (R22). -/
def periodClocks (d : Dev) : Nat := 625 * 2 ^ d.fld (CHP_SHUTTER_CTL_period d.A)

/-! ### Cells and contexts -/

/-- The global cell number: region × 128 + block × 8 + cell (R361). -/
def cellNo (r b c : Nat) : Nat := r * 128 + b * 8 + c

/-- The global context number: cell number × 32 + context. -/
def ctxNo (u : CtxId) : Nat := cellNo u.region.val u.block.val u.cell.val * 32 + u.ctx.val

/-- A coprocessor state with nothing in it. -/
def coproClear : Copro :=
  { area := [], algorithm := 0, phase := 0, fill := 0, sumParity := false, crc32c := 0, crc64 := 0, csum := 0,
    toeplitz := 0, toeplitzUsed := 0, index := 0 }

/-- A context at reset (R368, R417–R422, R430): workers are enabled and IDLE, and the supervisor context is RUNNING once its cell
leaves reset. -/
def ctxDefault (k : Nat) : Ctx :=
  { mode := if k % 32 = 16 then .running else .idle, x := [], pc := 0,
    sp := if k % 32 = 16 then 0 else BitVec.ofNat 32 (0x800 * (k % 32 + 1)),
    enable := k % 32 != 16, background := false, generation := 0, faultValid := false, faultCause := 0, tval := 0,
    sticky := 0, waitMask := 0, waitRd := 0, placed := [], placedCount := 0, held := none, heldIndex := 0,
    heldNumber := 0, used := 0, budget := 0, outstanding := [], mutRd := none, instret := 0,
    mie := false, mpie := false, mieMask := 0, mtvec := 0, mscratch := 0, mepc := 0, mcause := 0, mtval := 0,
    timeh := none, rxSec := none, openMsg := none, copro := coproClear, cpxErr := none,
    awaits := [], haltedFrom := .idle }

/-- A cell at reset: the slot table of R368. -/
def cellDefault : Nat → CellState := fun _ =>
  { slots := [0, 1, 2, 3, 4, 5, 6, 7, 8, 9, 10, 11, 12, 13, 14, 15, 0, 1, 2, 3, 4, 5, 6, 7, 8, 9, 10, 11, 12, 13, 14, 15],
    applyDue := false, icache := [] }

/-- The context with a global number. -/
def ctx (d : Dev) (k : Nat) : Ctx := Sparse.get ctxDefault d.ctxs k

/-- Change one context. -/
def modCtx (d : Dev) (k : Nat) (f : Ctx → Ctx) : Dev := { d with ctxs := Sparse.set ctxDefault d.ctxs k (f (d.ctx k)) }

/-- The cell with a global number. -/
def cell (d : Dev) (c : Nat) : CellState := Sparse.get cellDefault d.cells c

/-- Change one cell. -/
def modCell (d : Dev) (c : Nat) (f : CellState → CellState) : Dev :=
  { d with cells := Sparse.set cellDefault d.cells c (f (d.cell c)) }

/-- An integer register of a context; x0 reads as zero. -/
def xreg (d : Dev) (k i : Nat) : Word := if i = 0 then 0 else Sparse.get (fun _ => 0) (d.ctx k).x i

/-- Write an integer register of a context; a write of x0 is discarded. -/
def setX (d : Dev) (k i : Nat) (v : Word) : Dev :=
  if i = 0 then d else d.modCtx k (fun c => { c with x := Sparse.set (fun _ => 0) c.x i v })

/-- The region, block and cell of a global context number. -/
def ctxRegion (k : Nat) : Nat := k / 4096
def ctxBlock (k : Nat) : Nat := k / 256 % 16
def ctxCell (k : Nat) : Nat := k / 32 % 8

/-- The state of block `b` of a region: 0 awake, 1 entering, 2 retained, 3 waking (R847). -/
def blockState (d : Dev) (r b : Nat) : Nat := bitsOf (d.reg (RGN_PWR_BSTAT r)).toNat (2 * b + 1) (2 * b)

/-- Whether a cell runs: its bit of BLK_CELL_RUN (R429), in a block that is neither retained nor waking (R539). -/
def cellRuns (d : Dev) (r b c : Nat) : Bool := decide (d.blockState r b ≤ 1) && bitOf (d.fld (BLK_CELL_RUN_run r b)) c

/-- Whether a region's HBM stack is declared failed (R633, R873). -/
def stackFailed (d : Dev) (r : Nat) : Bool := d.fld (RGN_HBM_STAT_state r) == 7

end Dev

end Sys2Proof.Machine
end

