-- ==== Sys2Proof/Machine/Routes.lean ====
section
/-!
DEFINITION. The edges, the link modules' states and the routes of the fabric (R644, R645, R669–R672, R694).
-/

namespace Sys2Proof.Machine

/-- The module that faces module `m` across its edge (R645). -/
def facingModule (m : Nat) : Nat := if m < 2 then m + 2 else if m < 4 then m - 2 else m

/-! ### Routes (R669–R672) -/

/-- The edge between two neighbouring positions (R644). -/
def edgeBetween (a b : Nat) : Option Nat :=
  let lo := min a b
  let hi := max a b
  if hi = lo + 4 then some (6 + lo) else if hi = lo + 1 ∧ lo % 4 ≠ 3 then some (lo / 4 * 3 + lo % 4) else none

/-- The two positions that an edge joins (R644). -/
def edgeEnds (e : Nat) : Nat × Nat :=
  if e < 3 then (e, e + 1) else if e < 6 then (e + 1, e + 2) else (e - 6, e - 2)

/-- The neighbours of a position, in number order. -/
def neighbours (r : Nat) : List Nat := (List.range 8).filter (fun q => (edgeBetween r q).isSome)

/-- The next position on the dimension-order route (R669): along the row first, or across first towards a guest. -/
def nextHop (toGuest : Bool) (at' dst : Nat) : Nat :=
  let row := if at' % 4 < dst % 4 then at' + 1 else at' - 1
  let across := (at' + 4) % 8
  if toGuest then (if at' / 4 ≠ dst / 4 then across else row)
  else if at' % 4 ≠ dst % 4 then row else across

/-- The positions on the dimension-order route after `at'`. -/
def dimensionRoute (toGuest : Bool) (dst : Nat) : Nat → Nat → List Nat
  | 0, _ => []
  | fuel + 1, at' =>
    if at' = dst then []
    else let n := nextHop toGuest at' dst
      n :: dimensionRoute toGuest dst fuel n

namespace Dev

/-- The edges in use: both positions are populated (R644). -/
def edgesInUse (d : Dev) : List Nat :=
  (List.range 10).filter (fun e => d.present (edgeEnds e).1 && d.present (edgeEnds e).2)

/-- The edges that region `r` holds to be up. -/
def edgesUp (d : Dev) (r : Nat) : Nat := d.fld (RGN_CF_ROUTE_edges_up r)

/-- The distances from the anchor over up edges between Mladus regions (R671), by `n` rounds of widening. -/
def treeDistance (d : Dev) (edges : Nat) : Nat → Nat → Option Nat
  | 0, x => if x = d.A then some 0 else none
  | n + 1, x => match treeDistance d edges n x with
    | some k => some k
    | none =>
      if d.mladus x ∧ (neighbours x).any (fun y => d.mladus y && (match edgeBetween x y with
          | some e => bitOf edges e | none => false) && (treeDistance d edges n y).isSome)
      then some (n + 1) else none

/-- Whether a step from `a` to `b` is an up step (R671): towards the end nearer the anchor, or the lower number at equal distance. -/
def stepsUp (d : Dev) (edges a b : Nat) : Bool :=
  let x := (d.treeDistance edges 7 a).getD 99
  let y := (d.treeDistance edges 7 b).getD 99
  y < x || (y == x && b < a)

/-- A degraded route of exactly `n` steps (R671): the lowest-numbered next region first, no up step after a down step, a guest only as
the last step. -/
def degradedPath (d : Dev) (edges dst : Nat) : Nat → Bool → Nat → Option (List Nat)
  | 0, _, at' => if at' = dst then some [] else none
  | n + 1, down, at' =>
    (neighbours at').findSome? (fun q =>
      let up := d.stepsUp edges at' q
      let usable := d.present q && (match edgeBetween at' q with | some e => bitOf edges e | none => false)
        && (if d.guest q then n == 0 && q == dst else !(up && down)) && (d.mladus at')
      if usable then (degradedPath d edges dst n (down || !up) q).map (q :: ·) else none)

/-- The route from one region to another under the edges and the mode that a region has in force: the positions passed (R669, R671). -/
def routeOf (d : Dev) (mode edges src dst : Nat) : Option (List Nat) :=
  if src = dst then some []
  else if mode = 2 then
    if d.guest src then
      (neighbours src).findSome? (fun q => if d.mladus q && (match edgeBetween src q with | some e => bitOf edges e | none => false) then
        ((List.range 8).findSome? (fun n => d.degradedPath edges dst n false q)).map (q :: ·) else none)
    else (List.range 9).findSome? (fun n => d.degradedPath edges dst n false src)
  else some (dimensionRoute (d.guest dst) dst 8 src)

/-- The route that region `r` has in force from one region to another. -/
def route (d : Dev) (r src dst : Nat) : Option (List Nat) := d.routeOf (d.fld (RGN_CF_ROUTE_mode r)) (d.edgesUp r) src dst

/-- The edges that a route passes. -/
def edgesOf : Nat → List Nat → List Nat
  | _, [] => []
  | a, b :: t => (edgeBetween a b).toList ++ edgesOf b t

/-! ### Link modules and lost edges (R671, R672, R694) -/

/-- The state of a link module (R694). -/
def linkState (d : Dev) (r m : Nat) : Nat := d.fld (RGN_CF_LINK_state r m)

/-- The edge and the peer of a module, if it faces a populated position (R47, R694). -/
def facing (d : Dev) (r m : Nat) : Option (Nat × Nat) :=
  let e := d.fld (RGN_CF_LINK_edge r m)
  let p := d.fld (RGN_CF_LINK_peer r m)
  if e = 0xF ∨ !d.present p then none else some (e, p)

/-- Whether a link module takes flits: UP, or HELD towards a guest. -/
def takesFlits (d : Dev) (r m : Nat) : Bool := d.linkState r m == 2 || d.linkState r m == 5

/-- Whether both modules of an edge are failed at a region (R671). -/
def edgeLost (d : Dev) (r e : Nat) : Bool :=
  let ms := (List.range 6).filter (fun m => match d.facing r m with | some (x, _) => x == e | none => false)
  !ms.isEmpty && ms.all (fun m => d.linkState r m == 4 || d.linkState r m == 0)

/-- Whether messages between two regions are discarded: their route passes an edge that one of its regions has lost and whose loss has
not yet led to new routes (R672). -/
def routeBroken (d : Dev) (src dst : Nat) : Bool :=
  match d.route src src dst with
  | none => true
  | some path => (edgesOf src path).any (fun e => d.edgeLost (edgeEnds e).1 e || d.edgeLost (edgeEnds e).2 e)

/-- Whether a link of a region that takes flits leads to a neighbour. -/
def linked (d : Dev) (r q : Nat) : Bool :=
  (List.range 6).any (fun m => d.takesFlits r m && (d.facing r m).map (·.2) == some q)

end Dev

end Sys2Proof.Machine
end

