-- ==== Sys2Proof/Machine/Fabric.lean ====
section
/-!
DEFINITION. The fabric's nodes, the channels and lengths of its messages, the order in which it delivers them, and floods over the
links of a region (R105, R646, R657–R662, R665, R676, R680).
-/

namespace Sys2Proof.Machine

/-! ### Nodes (R646, R665) -/

/-- The nodes of a Mladus region that are no blocks and no link modules (R646). -/
def nodeMp : Nat := 0x10
def nodeFront : Nat := 0x11
def nodeTables : Nat := 0x12
def nodePool : Nat := 0x13
def nodeDispatch : Nat := 0x14
def nodeEgress : Nat := 0x15
def nodeHbm : Nat := 0x16
def nodeHost : Nat := 0x17
def nodePorts : Nat := 0x18
def nodeShutter : Nat := 0x19
def nodeIrq : Nat := 0x1A
def nodePower : Nat := 0x1B

/-- The node of a link module (R646). -/
def nodeLink (m : Nat) : Nat := 0x20 + m

/-- Whether a node number names a unit of the Mladus region at position `r`; every other number is invalid (R646). -/
def nodeExists (r n : Nat) : Bool :=
  decide (n ≤ 0x1B) && (n != nodeHost || r == 0 || r == 4) || decide (0x20 ≤ n) && decide (n ≤ 0x25)

/-- The node that serves a sub-block of region registers (R77); those of the links' modules lie at their modules.
PRESUMED: the spec names the units, not the node of every sub-block (log 132). -/
def subBlockNode (s off : Nat) : Nat :=
  match s with
  | 0 | 9 => nodeIrq
  | 1 => nodePool
  | 2 => nodeDispatch
  | 3 => nodeFront
  | 4 => nodeTables
  | 5 => nodeEgress
  | 6 => nodeHbm
  | 7 => nodeLink (if off % 2 ^ 20 < 0x60 then off % 2 ^ 20 / 16 else 0)
  | 8 => nodePorts
  | 10 | 13 => nodePower
  | 11 => nodeShutter
  | _ => nodeMp

/-- The node of a Mladus region that serves an offset of its address space (R75, R76, R665); the chip registers lie with the MP. -/
def offsetNode (off : Nat) : Nat :=
  match off / 2 ^ 40 with
  | 0 => nodeHbm
  | 8 => off / 2 ^ 24 % 16
  | 9 => subBlockNode (off / 2 ^ 20 % 16) off
  | 10 => nodeTables
  | 11 => nodePool
  | 12 => off / 2 ^ 19 % 16
  | _ => nodeMp

/-- The node of a requester, from its holder ID (R426, R686): a block, the MP, or the host endpoint, whose requests carry none. -/
def holderNode (holder : Nat) : Nat :=
  if holder = 0 then nodeHost else if bitsOf holder 13 9 = 0x1F then nodeMp else bitsOf holder 20 17

/-- The node that waits for a request's response. -/
def Purpose.node : Purpose → Nat
  | .load k _ _ _ _ _ _ | .store k _ _ _ | .amo k _ _ _ _ => Dev.ctxBlock k
  | .body _ => nodeEgress
  | .hostRead _ | .hostWrite _ => nodeHost

end Sys2Proof.Machine

namespace Sys2Proof.Msg

open Sys2Proof.Machine

/-- The code of a message type (R662); what a region reports of a snapshot is a message on CTL of a type that the table does not
list (R807). -/
def mtype : Msg → Nat
  | .marker _ _ _ _ => 0x01 | .echoReq _ => 0x02 | .echoRsp _ _ => 0x03 | .mutRecord _ _ => 0x04 | .seal _ _ _ => 0x05
  | .commit _ => 0x06 | .repairReq _ _ _ _ => 0x07 | .member _ _ _ _ _ => 0x08 | .linkState _ _ => 0x09
  | .rd _ _ _ _ _ => 0x10 | .wr _ _ _ _ _ _ => 0x11 | .amo _ _ _ _ _ _ => 0x12 | .bodyRd _ _ => 0x13
  | .rdData _ _ _ => 0x20 | .wrAck _ _ => 0x21 | .amoData _ _ _ => 0x22 | .bodyData _ _ _ _ => 0x23 | .poolOp _ _ _ _ => 0x24
  | .enqOutcome _ _ _ _ => 0x25 | .releaseRec _ => 0x30 | .releaseMark _ => 0x31
  | .irq _ _ _ => 0x38 | .hitNotice _ _ _ => 0x39 | .genUpdate _ => 0x3A | .chMsg _ _ _ => 0x3B | .errReport _ _ => 0x3C
  | .mgt _ _ => 0x3E | .recon _ _ => 0x3F | .chCredit _ _ | .snapshot _ => 0

/-- The virtual channel of a message (R657, R662, R807): 0 CTL, 1 REQ, 2 RSP, 3 PKT, 4 EVT, 5 MGT. A region channel's credit goes with
its messages. -/
def channel : Msg → Nat
  | .marker _ _ _ _ | .echoReq _ | .echoRsp _ _ | .mutRecord _ _ | .seal _ _ _ | .commit _ | .repairReq _ _ _ _
  | .member _ _ _ _ _ | .linkState _ _ | .snapshot _ => 0
  | .rd _ _ _ _ _ | .wr _ _ _ _ _ _ | .amo _ _ _ _ _ _ | .bodyRd _ _ => 1
  | .rdData _ _ _ | .wrAck _ _ | .amoData _ _ _ | .bodyData _ _ _ _ | .poolOp _ _ _ _ | .enqOutcome _ _ _ _ => 2
  | .releaseRec _ | .releaseMark _ => 3
  | .irq _ _ _ | .hitNotice _ _ _ | .genUpdate _ | .chMsg _ _ _ | .errReport _ _ | .chCredit _ _ => 4
  | .mgt _ _ | .recon _ _ => 5

/-- The continuation slots of `n` bytes that do not fit the first slot. -/
def slotsFor (n : Nat) : Nat := (n + 31) / 32

/-- The continuation slots of a message (R660–R662). -/
def cont : Msg → Nat
  | .mutRecord _ m | .recon _ m => 1 + min 2 m.extCount
  | .commit _ => 2
  | .wr _ _ _ _ _ data => min 8 (slotsFor data.length)
  | .rdData st _ data => if st = .ok then min 8 (slotsFor data.length) else 0
  | .bodyData st _ _ data => if st = .ok then min 8 (slotsFor data.length) else 0
  | .chMsg _ _ _ => 1
  | .mgt _ payload => min 8 (slotsFor (payload.length - 24))
  | _ => 0

/-- The slots of a message: its first and its continuation slots (R660). -/
def slots (m : Msg) : Nat := 1 + m.cont

/-- Whether a message goes to the neighbours across the links and is named for no region: a marker, an echo or a flood (R661). -/
def toNeighbour : Msg → Bool
  | .marker _ _ _ _ | .echoReq _ | .echoRsp _ _ | .commit _ | .member _ _ _ _ _ | .linkState _ _ => true
  | _ => false

end Sys2Proof.Msg

namespace Sys2Proof.Machine

namespace Dev

/-- The purpose of a request that a region has outstanding, by its tag. -/
def purposeOf (d : Dev) (r tag : Nat) : Option Purpose := ((d.g (Fin.ofNat 8 r)).requests.find? (·.tag == tag)).map (·.purpose)

/-- The node of a Mladus region that sends a message (R646, R662); a guest numbers its own. PRESUMED where the table of R662 names no
unit: which of a region's nodes sends each type (log 132). -/
def sourceNode (d : Dev) (src : Nat) (m : Msg) : Nat :=
  if d.guest src then 0 else
    match m with
    | .marker _ _ _ _ | .mutRecord _ _ | .seal _ _ _ | .commit _ | .member _ _ _ _ _ | .linkState _ _ => nodeShutter
    | .echoReq _ | .echoRsp _ _ => nodeLink 0
    | .repairReq _ _ _ _ | .hitNotice _ _ _ | .recon _ _ => nodeTables
    | .rd _ _ holder _ _ | .wr _ _ holder _ _ _ | .amo _ _ holder _ _ _ => holderNode holder
    | .bodyRd _ _ | .poolOp _ _ _ _ | .enqOutcome _ _ _ _ | .releaseRec _ | .releaseMark _ => nodeEgress
    | .rdData _ _ _ | .wrAck _ _ | .amoData _ _ _ => nodeMp
    | .bodyData _ _ _ _ => nodePool
    | .irq _ _ _ | .snapshot _ => nodeIrq
    | .genUpdate h => holderNode h
    | .chMsg _ h _ => holderNode h
    | .chCredit c _ => d.fld (RGN_RCH_CFG_recv_block src c)
    | .errReport _ _ | .mgt _ _ => nodeMp

/-- The node that a message is for (R646, R662, R665); 0x00 for a guest region. -/
def destNode (d : Dev) (dst : Nat) (m : Msg) : Nat :=
  if d.guest dst then 0 else
    match m with
    | .marker _ _ _ _ | .mutRecord _ _ | .seal _ _ _ | .commit _ | .member _ _ _ _ _ | .linkState _ _ => nodeShutter
    | .echoReq _ | .echoRsp _ _ => nodeLink 0
    | .repairReq _ _ _ _ | .hitNotice _ _ _ | .recon _ _ => nodeTables
    | .rd a _ _ _ _ | .wr a _ _ _ _ _ | .amo _ a _ _ _ _ => offsetNode (a % 2 ^ 44)
    | .bodyRd _ _ | .poolOp _ _ _ _ => nodePool
    | .rdData _ tag _ | .wrAck _ tag | .amoData _ tag _ | .bodyData _ tag _ _ => ((d.purposeOf dst tag).map Purpose.node).getD nodeMp
    | .enqOutcome _ _ _ _ | .releaseRec _ | .releaseMark _ => nodeEgress
    | .irq _ _ _ | .snapshot _ => nodeIrq
    | .genUpdate _ | .errReport _ _ | .mgt _ _ => nodeMp
    | .chMsg c _ _ => d.fld (RGN_RCH_CFG_recv_block dst c)
    | .chCredit _ b => b

/-! ### Delivery order (R676) -/

/-- What a message on RSP is about: the request that it answers, or the chain or copy that it names (R676). -/
def about : Msg → List Nat
  | .rdData _ tag _ | .wrAck _ tag | .amoData _ tag _ | .bodyData _ tag _ _ => [0, tag]
  | .poolOp _ handle _ _ => [1, handle]
  | .enqOutcome _ stamp copy _ => [2, stamp.port, stamp.seq, stamp.tick, stamp.time, copy]
  | _ => []

/-- Whether two messages in flight have an order under R676: those of one pair of regions on CTL and on PKT, those of one pair of nodes
on REQ, EVT and MGT, and those about one request or chain on RSP. What goes from neighbour to neighbour has none. -/
def ordered (d : Dev) (a b : Flight) : Bool :=
  a.src == b.src && a.dst == b.dst && a.msg.channel == b.msg.channel && !a.msg.toNeighbour && !b.msg.toNeighbour
    && match a.msg.channel with
      | 0 | 3 => true
      | 2 => about a.msg == about b.msg
      | _ => d.sourceNode a.src a.msg == d.sourceNode b.src b.msg && d.destNode a.dst a.msg == d.destNode b.dst b.msg

/-! ### Links and floods (R105, R680) -/

/-- The neighbours that a flood reaches, one for each link that takes flits but the one it came by (R105). -/
def floodTo (d : Dev) (r : Nat) (via : Option (Fin 6)) : List Nat :=
  (List.range 6).filterMap (fun m =>
    if via.map (·.val) = some m ∨ !d.takesFlits r m then none else (d.facing r m).map (·.2))

/-- Flood a message over every link of a region but the one it came by (R105, R680). -/
def flood (d : Dev) (r : Region) (via : Option (Fin 6)) (m : Msg) : Dev :=
  { d with wire := d.wire ++ (d.floodTo r.val via).map (fun p => ⟨r.val, p, m⟩) }

/-- The region from which what comes by a link comes: the neighbour that the link faces, or the region itself for what came by none. -/
def cameFrom (d : Dev) (r : Region) (via : Option (Fin 6)) : Nat :=
  match via with
  | some m => ((d.facing r.val m.val).map (·.2)).getD r.val
  | none => r.val

end Dev

end Sys2Proof.Machine
end

