-- ==== Sys2Proof/Machine/Signals.lean ====
section
/-!
DEFINITION. Interrupt sources, their delivery and claim, and the monitor counters' events (R786–R805), with the event bits of a
context and the completion of a wait (R396–R399), which delivery reaches.
-/

namespace Sys2Proof.Machine

/-- The local sources that their owners list (R159, R209, R251, R297, R355, R433, R518, R551, R607, R642, R700, R746, R787, R788,
R849); every other number is reserved and never arrives. -/
def sourceListed (n : Nat) : Bool :=
  n < 0x70 || (0x70 ≤ n && n ≤ 0x78) || (0x80 ≤ n && n < 0x100) || (0x100 ≤ n && n ≤ 0x102) || (0x110 ≤ n && n ≤ 0x112)
    || (0x140 ≤ n && n ≤ 0x148) || (0x180 ≤ n && n ≤ 0x183) || (0x1C0 ≤ n && n ≤ 0x1C6) || (0x200 ≤ n && n ≤ 0x203)
    || (0x2F0 ≤ n && n ≤ 0x2F3) || (0x300 ≤ n && n ≤ 0x309) || (0x340 ≤ n && n ≤ 0x349) || (0x380 ≤ n && n ≤ 0x3A0)
    || (0x3C0 ≤ n && n ≤ 0x3C5) || (0x3E0 ≤ n && n ≤ 0x3ED) || (0x3F0 ≤ n && n ≤ 0x3F8)

/-- What may be signalled inside a command: an arrival at a source of a region, or an occurrence of a monitor event. -/
inductive Signal where
  | arrive (r : Region) (n : Nat)
  | blockEvent (r : Region) (b : Nat) (sel qual n : Nat)
  | regionEvent (r : Region) (sel qual n : Nat)
  | chipEvent (sel qual n : Nat)
deriving DecidableEq, Repr

namespace Dev

/-! ### Sources and targets -/

/-- Whether a source is enabled (R789, R791). -/
def irqEnabled (d : Dev) (r n : Nat) : Bool := bitOf (d.reg (RGN_IRQ_EN r (n / 32))).toNat (n % 32)

/-- The pending count of a source (R789). -/
def irqCount (d : Dev) (r n : Nat) : Nat := d.fld (RGN_IRQ_SRC_count r n)

/-- The sources of a region whose count is not zero, in number order. -/
def irqPending (d : Dev) (r : Nat) : List Nat :=
  ((d.regs.filter (fun e => RGN_IRQ_SRC r 0 ≤ e.1 && e.1 < RGN_IRQ_SRC r 1024 && fieldOf e.2 24 8 != 0)).map
    (fun e => (e.1 - RGN_IRQ_SRC r 0) / 4))

/-- Whether a supervisor context's target byte is parked (R793). -/
def targetParked (d : Dev) (r byte : Nat) : Bool :=
  byte < 0x80 && (!d.cellRuns r (byte / 8) (byte % 8) || 2 ≤ d.blockState r (byte / 8) || d.fld (RGN_PWR_REGION_state r) == 2)

/-- The effective target of a local target byte (R793): the named target, else the fallback, else the MP. -/
def effTarget (d : Dev) (r byte : Nat) : Nat :=
  if d.targetParked r byte then
    let fb := d.fld (RGN_IRQ_FALLBACK_target r)
    if d.targetParked r fb then 0x80 else fb
  else byte

/-- Whether a source's target lies in its own region and is no host (R792). -/
def irqLocal (d : Dev) (r n : Nat) : Bool :=
  let reg := d.fld (RGN_IRQ_SRC_region r n)
  d.fld (RGN_IRQ_SRC_target r n) ≤ 0x80 && (reg == 0xF || reg == r)

/-- The sources a local target may claim: enabled, pending and effectively targeted at it (R798). -/
def claimable (d : Dev) (r target : Nat) : List Nat :=
  (d.irqPending r).filter (fun n => d.irqEnabled r n && d.irqLocal r n
    && d.effTarget r (d.fld (RGN_IRQ_SRC_target r n)) == target)

/-- The inbox entries of a local target (R796). -/
def inboxFor (d : Dev) (r : Region) (target : Nat) : List InboxEntry :=
  (d.g r).inbox.filter (fun e => d.effTarget r.val e.target == target)

/-- Whether a local target is signalled (R794). -/
def signalled (d : Dev) (r : Region) (target : Nat) : Bool :=
  !(d.claimable r.val target).isEmpty || !(d.inboxFor r target).isEmpty

/-! ### Event bits of a context (R396) -/

/-- Whether a channel's configuration word names context `k` as receiver and is enabled (R436, R482, R487). -/
def chanReceives (d : Dev) (regional : Bool) (n k : Nat) : Bool :=
  let r := ctxRegion k
  let b := ctxBlock k
  if regional then
    d.on (RGN_RCH_CFG_enable r n) && d.fld (RGN_RCH_CFG_recv_block r n) == b
      && d.fld (RGN_RCH_CFG_recv_cell r n) == ctxCell k && d.fld (RGN_RCH_CFG_recv_ctx r n) == k % 32
  else
    d.on (BLK_CH_CFG_enable r b n) && d.fld (BLK_CH_CFG_recv_cell r b n) == ctxCell k
      && d.fld (BLK_CH_CFG_recv_ctx r b n) == k % 32

/-- The visible messages of a block channel, keyed `(region × 16 + block) × 64 + n`, or region channel, `region × 256 + n`. -/
def chanMsgs (d : Dev) (regional : Bool) (r b n : Nat) : List ChannelMsg :=
  if regional then Sparse.get (fun _ => []) d.regionCh (r * 256 + n)
  else Sparse.get (fun _ => []) d.blockCh ((r * 16 + b) * 64 + n)

/-- CH_DATA: an enabled channel of which the context is receiver holds a visible message (R443). -/
def chData (d : Dev) (k : Nat) : Bool :=
  let r := ctxRegion k
  let b := ctxBlock k
  d.blockCh.any (fun e => e.1 / 64 == r * 16 + b && d.chanReceives false (e.1 % 64) k)
    || d.regionCh.any (fun e => e.1 / 256 == r && d.chanReceives true (e.1 % 256) k)

/-- Whether a channel could accept a message from a block (R443). -/
def chanRoom (d : Dev) (regional : Bool) (r b n : Nat) : Bool :=
  if regional then !Sparse.get (fun _ => false) d.chSpent ((r * 256 + n) * 16 + b)
  else (d.chanMsgs false r b n).length < 16

/-- Whether a channel is enabled. -/
def chanEnabled (d : Dev) (regional : Bool) (r b n : Nat) : Bool :=
  if regional then n < 256 && d.on (RGN_RCH_CFG_enable r n) else n < 64 && d.on (BLK_CH_CFG_enable r b n)

/-- CH_SPACE: the context's open message is on an enabled channel that could accept it (R443). -/
def chSpace (d : Dev) (k : Nat) : Bool :=
  match (d.ctx k).openMsg with
  | none => false
  | some m => d.chanEnabled m.regional (ctxRegion k) (ctxBlock k) m.channel
      && d.chanRoom m.regional (ctxRegion k) (ctxBlock k) m.channel

/-- The fault-pending bits of a cell (R421). -/
def faultPend (d : Dev) (c : Nat) : Nat := d.fld (CEL_FAULT_PEND_pend c)

/-- The sticky bits of R396. -/
def stickyMask : Nat := 0x4FF03

/-- The event bits of a context (R396). -/
def events (d : Dev) (k : Nat) : Nat :=
  ((d.ctx k).sticky &&& stickyMask)
    ||| (if d.chData k then 4 else 0) ||| (if d.chSpace k then 8 else 0)
    ||| (if k % 32 = 16 ∧ d.signalled (Fin.ofNat 8 (ctxRegion k)) (ctxBlock k * 8 + ctxCell k) then 2 ^ 16 else 0)
    ||| (if k % 32 = 16 ∧ d.faultPend (k / 32) ≠ 0 then 2 ^ 17 else 0)

/-- The interrupt bits of the supervisor context (R361): MEIP, WORKER_FAULT and ALL_WAITING. -/
def mip (d : Dev) (k : Nat) : Nat :=
  let e := d.events k
  (if bitOf e 16 then 2 ^ 11 else 0) + (if bitOf e 17 then 2 ^ 16 else 0) + (if bitOf e 18 then 2 ^ 17 else 0)

/-- Take a trap in the supervisor context (R360, R361): the pc and the cause are saved, MIE moves to MPIE, and the pc goes to mtvec. -/
def takeTrap (d : Dev) (k cause : Nat) (tval : Word) : Dev :=
  d.modCtx k (fun c => { c with mepc := c.pc, mcause := BitVec.ofNat 32 cause, mtval := tval, mpie := c.mie, mie := false,
                                pc := c.mtvec &&& ~~~3#32, mode := .running })

/-- Take the interrupt trap that the pending bits `pend` ask for and a supervisor context enables, if any (R399); MEIP is taken before
WORKER_FAULT and ALL_WAITING. -/
def trapFor (d : Dev) (k pend : Nat) : Dev :=
  let c := d.ctx k
  let on := pend &&& c.mieMask.toNat
  if k % 32 = 16 ∧ c.mie ∧ c.mode = .running ∧ on ≠ 0 then
    d.takeTrap k (2 ^ 31 + (if bitOf on 11 then 11 else if bitOf on 16 then 16 else 17)) 0
  else d

/-- Take the interrupt trap that is pending in a supervisor context now, if it is enabled. -/
def interruptTrap (d : Dev) (k : Nat) : Dev := d.trapFor k (d.mip k)

/-- The bits that complete a context's wait: its mask, and for the supervisor context those of R399. -/
def wakeBits (k mask : Nat) : Nat := mask ||| (if k % 32 = 16 then 7 * 2 ^ 16 else 0)

/-- Complete a context's WFE if an event of its mask is set (R397, R399), and take the trap that is then enabled, also for a bit that the
WFE returns and clears. -/
def wake (d : Dev) (k : Nat) : Dev :=
  let c := d.ctx k
  let got := d.events k &&& wakeBits k c.waitMask
  if c.mode = .waiting ∧ got ≠ 0 then
    ((d.modCtx k (fun c => { c with mode := .running, waitMask := 0, waitRd := 0,
                                    sticky := c.sticky - (c.sticky &&& (got &&& stickyMask)) })).setX k c.waitRd
      (BitVec.ofNat 32 got)).trapFor k (d.mip k)
  else d.interruptTrap k

/-- Set sticky event bits of a context and let them complete its wait. -/
def setEvents (d : Dev) (k bits : Nat) : Dev := (d.modCtx k (fun c => { c with sticky := c.sticky ||| bits })).wake k

/-! ### Delivery -/

/-- Let the fallback target of a region see what its parked targets leave to it (R793). -/
def wakeFallback (d : Dev) (r : Region) : Dev :=
  let fb := d.fld (RGN_IRQ_FALLBACK_target r.val)
  if fb < 0x80 then d.wake (cellNo r.val (fb / 8) (fb % 8) * 32 + 16) else d

/-- Whether a region can be sent to: populated, not fenced and reachable (R795, R696). -/
def sendable (d : Dev) (r dst : Nat) : Bool :=
  r == dst || (d.present dst && !d.fenced dst && bitOf (d.fld (RGN_CF_ROUTE_reachable r)) dst)

/-- The endpoint region that a host target byte names (R792). -/
def hostRegion (d : Dev) (byte : Nat) : Nat :=
  if byte = 0x82 then 0 else if byte = 0x83 then 4 else if d.A < 4 then 0 else 4

/-- Deliver an enabled source with a non-zero count (R794, R795): signal a local target, or send the count to a remote one. -/
def deliver (d : Dev) (r : Region) (n : Nat) : Dev :=
  let count := d.irqCount r.val n
  if d.irqEnabled r.val n && count != 0 then
    let byte := d.fld (RGN_IRQ_SRC_target r.val n)
    let reg := d.fld (RGN_IRQ_SRC_region r.val n)
    let global := r.val * 1024 + n
    if 0x81 ≤ byte then
      let dst := d.hostRegion byte
      if d.sendable r.val dst then
        (d.clr (RGN_IRQ_SRC_count r.val n)).send r.val dst (.irq global count (if dst = 0 then 0x82 else 0x83))
      else (d.clr (RGN_IRQ_SRC_count r.val n)).send r.val r.val (.irq global count (d.fld (RGN_IRQ_FALLBACK_target r.val)))
    else if reg = 0xF ∨ reg = r.val then
      let t := d.effTarget r.val byte
      if t < 0x80 then d.wake (cellNo r.val (t / 8) (t % 8) * 32 + 16) else d
    else if d.sendable r.val reg then (d.clr (RGN_IRQ_SRC_count r.val n)).send r.val reg (.irq global count byte)
    else (d.clr (RGN_IRQ_SRC_count r.val n)).send r.val r.val (.irq global count (d.fld (RGN_IRQ_FALLBACK_target r.val)))
  else d

/-! ### Monitor counters -/

/-- The counters of a bank whose configuration is enabled, selects `sel` and names the instance (R803): bank base, count. Qualifiers
are compared modulo `width`. -/
def monMatch (d : Dev) (base count : Nat) (region : Option Nat) (width sel qual : Nat) : List Nat :=
  (d.regs.filter (fun e => base ≤ e.1 && e.1 < base + count * 0x20 && (e.1 - base) % 0x20 == 0
      && fieldOf e.2 31 1 == 1 && fieldOf e.2 19 10 == sel && (fieldOf e.2 12 1 == 1 || fieldOf e.2 0 12 % width == qual % width)
      && (match region with | none => true | some r => fieldOf e.2 16 3 == r))).map (fun e => (e.1 - base) / 0x20)

/-- Add `n` to one counter at `base` (R802); whether it reached its threshold. -/
def monAdd (d : Dev) (base n : Nat) : Dev × Bool :=
  let v := d.pair (base + 4) (base + 8) % 2 ^ 48 + n
  if fieldOf (d.reg base) 29 2 = 2 then
    if d.pair (base + 0xC) (base + 0x10) % 2 ^ 48 ≤ v then (d.setPair (base + 4) (base + 8) 0, true)
    else (d.setPair (base + 4) (base + 8) v, false)
  else (d.setPair (base + 4) (base + 8) (min (2 ^ 48 - 1) v), false)

/-- Count `n` occurrences in one counter at `base` (R802), unless it counts a duration; whether it reached its threshold. -/
def monCount (d : Dev) (base n : Nat) : Dev × Bool := if fieldOf (d.reg base) 29 2 = 1 then (d, false) else d.monAdd base n

/-- Set a counter's hit bit, which a write of 1 clears (R811). -/
def setHit (d : Dev) (addr k : Nat) : Dev :=
  d.setReg (addr + k / 32 * 4) (BitVec.ofNat 32 (withBit (d.reg (addr + k / 32 * 4)).toNat (k % 32) true))

/-- Count an event in a bank of counters; the threshold source arrives once for each counter that reaches its threshold. -/
def monBank (d : Dev) (base count hitAddr : Nat) (region : Option Nat) (width sel qual n : Nat) (src : Signal) :
    Dev × List Signal :=
  (d.monMatch base count region width sel qual).foldl (fun acc k =>
    let (d', hit) := acc.1.monCount (base + k * 0x20) n
    if hit then (d'.setHit hitAddr k, acc.2 ++ [src]) else (d', acc.2)) (d, [])

/-- Count a region event in the region's counters, and in the anchor's chip counters that observe the region (R801, R803). -/
def monRegion (d : Dev) (r : Region) (sel qual n : Nat) : Dev × List Signal :=
  let (d1, s1) := d.monBank (RGN_MON_CFG r.val 0) 64 (RGN_MON_HIT_LO r.val) none 4096 sel qual n (.arrive r 0x75)
  let (d2, s2) := d1.monBank (CHP_MON_CFG d.A 0) 32 (CHP_MON_HIT d.A) (some r.val) 4096 sel qual n (.arrive d.anchor 0x76)
  (d2, s1 ++ s2)

/-- One arrival at a source (R790): counted whether or not it is enabled, saturating, then delivered. -/
def arrive (d : Dev) (r : Region) (n : Nat) : Dev × List Signal :=
  if sourceListed n then
    if d.irqCount r.val n = 255 then
      ((d.addSat (RGN_IRQ_OVF_lost r.val) 1).setOn (RGN_IRQ_ERR_saturated r.val),
        [.regionEvent r 0x170 n 1] ++ (if n = 0x70 then [] else [.arrive r 0x70]))
    else ((d.addSat (RGN_IRQ_SRC_count r.val n) 1).deliver r n, [.regionEvent r 0x170 n 1])
  else (d, [])

/-- One signal, and the signals that follow from it. -/
def signalOne (d : Dev) : Signal → Dev × List Signal
  | .arrive r n => d.arrive r n
  | .blockEvent r b sel qual n =>
    let (d1, s1) := d.monBank (BLK_MON_CFG r.val b 0) 8 (BLK_MON_HIT r.val b) none (if 0x20 ≤ sel then 4096 else 256) sel qual n
      (.arrive r 0x74)
    let (d2, s2) := d1.monRegion r sel qual n
    (d2, s1 ++ s2)
  | .regionEvent r sel qual n => d.monRegion r sel qual n
  | .chipEvent sel qual n => d.monBank (CHP_MON_CFG d.A 0) 32 (CHP_MON_HIT d.A) none 4096 sel qual n (.arrive d.anchor 0x76)

/-- Carry out signals in order, each followed by those that it causes; a chain of causes is bounded. -/
def signals : Nat → Dev → List Signal → Dev
  | 0, d, _ => d
  | _, d, [] => d
  | fuel + 1, d, s :: t =>
    let (d', more) := d.signalOne s
    signals fuel d' (more ++ t)

/-- An arrival at a source of a region. -/
def raise (d : Dev) (r : Region) (n : Nat) : Dev := signals 64 d [.arrive r n]

/-- An occurrence of a region event. -/
def event (d : Dev) (r : Region) (sel qual : Nat) (n : Nat := 1) : Dev := signals 64 d [.regionEvent r sel qual n]

/-- An occurrence of a block event of context or bank `qual`. -/
def bevent (d : Dev) (r : Region) (b sel qual : Nat) : Dev := signals 64 d [.blockEvent r b sel qual 1]

/-- An occurrence of a chip event. -/
def cevent (d : Dev) (sel qual : Nat) : Dev := signals 64 d [.chipEvent sel qual 1]

/-- Set an error bit and raise its source. -/
def err (d : Dev) (f : Fld) (r : Region) (n : Nat) : Dev := (d.setOn f).raise r n

/-- The region a fabric or register number names, read modulo 8. -/
def R (n : Nat) : Region := Fin.ofNat 8 n

/-! ### Claim (R798) -/

/-- The better of two claims: the lower priority value, then the lower global source number. -/
def better (a b : Nat × Nat × Nat) : Bool := a.1 < b.1 || (a.1 == b.1 && a.2.1 ≤ b.2.1)

/-- The candidates of a claim: priority, global source and count. -/
def claims (d : Dev) (r : Region) (target : Nat) : List (Nat × Nat × Nat) :=
  (d.claimable r.val target).map (fun n => (d.fld (RGN_IRQ_SRC_prio r.val n), r.val * 1024 + n, d.irqCount r.val n))
    ++ (d.inboxFor r target).map (fun e => (d.fld (RGN_IRQ_RCFG_prio r.val), e.source, e.count))

/-- The candidate that a claim returns. -/
def bestClaim : List (Nat × Nat × Nat) → Option (Nat × Nat × Nat)
  | [] => none
  | c :: t => match bestClaim t with
    | none => some c
    | some b => some (if better c b then c else b)

/-- Claim for a local target: the word that the claim returns, with the count made zero or the entry removed. -/
def claim (d : Dev) (r : Region) (target : Nat) : Dev × Word :=
  match bestClaim (d.claims r target) with
  | none => (d, 0)
  | some (_, src, count) =>
    let w := BitVec.ofNat 32 (2 ^ 31 + src % 2 ^ 13 * 2 ^ 16 + count % 256)
    let d' := if src / 1024 = r.val ∧ (d.claimable r.val target).contains (src % 1024) then
        d.clr (RGN_IRQ_SRC_count r.val (src % 1024))
      else
        let inbox := (d.g r).inbox.eraseP (fun e => e.source == src && d.effTarget r.val e.target == target)
        (d.modR r (fun g => { g with inbox })).setFld (RGN_IRQ_INBOX_depth r.val) inbox.length
    (d'.event r 0x171 target, w)

end Dev

end Sys2Proof.Machine
end

