-- ==== Sys2Proof/Machine/Delivery.lean ====
section
/-!
DEFINITION. How a message arrives: in the order of R676, past the links of its route (R672) and the modules that face a guest (R689).
-/

namespace Sys2Proof.Machine

namespace Dev

/-! ### What the fabric discards on the way (R672, R689) -/

/-- Discard a message under R672: unreachable is set where it was to be sent. -/
def discarded (d : Dev) (r : Region) : Dev := d.err (RGN_CF_ERR_unreachable r.val) r 0x346

/-- The response that gives a request a status other than OK; none for a message that is no request (R662, R664). -/
def responseOf (st : Status) : Msg → Option Msg
  | .rd _ _ _ _ tag => some (.rdData st tag [])
  | .wr _ _ _ _ tag _ => some (.wrAck st tag)
  | .amo _ _ _ _ tag _ => some (.amoData st tag 0)
  | .bodyRd _ tag => some (.bodyData st tag 0 [])
  | _ => none

/-- Whether an offset is one of the ranges that R685 fixes. -/
def guestFixed (o n : Nat) : Bool :=
  (decide (0x90000000000 ≤ o) && decide (o + n ≤ 0x90000000100)) || (decide (0x90000001000 ≤ o) && decide (o + n ≤ 0x90000001010))

/-- Whether some module of a Mladus region admits the traffic of the guest that it faces (R689). -/
def admits (d : Dev) (q g : Nat) : Bool :=
  (List.range 6).any (fun m => d.on (RGN_CF_LINK_admit q m) && (d.facing q m).map (·.2) == some g)

/-- Whether a module that faces a guest passes a message before it admits the guest (R689): CTL, and what the anchor's MP asks of the
ranges of R685. DEDUCED: the responses to it pass too (log 156). -/
def passesHeld (d : Dev) (f : Flight) : Bool :=
  f.msg.channel == 0 || (match f.msg with
    | .rd a len _ _ _ => f.src == d.A && d.sourceNode f.src f.msg == nodeMp && guestFixed (a % 2 ^ 44) len
    | .wr a len _ _ _ _ => f.src == d.A && d.sourceNode f.src f.msg == nodeMp && guestFixed (a % 2 ^ 44) len
    | .amo _ a _ _ _ _ => f.src == d.A && d.sourceNode f.src f.msg == nodeMp && guestFixed (a % 2 ^ 44) 4
    | .rdData _ _ _ | .wrAck _ _ | .amoData _ _ _ => f.dst == d.A && d.destNode f.dst f.msg == nodeMp
    | _ => false)

/-- Whether both modules of an edge have failed at a region, or were taken down there (R671, R694). -/
def edgeFailed (d : Dev) (r e : Nat) : Bool :=
  let ms := (List.range 6).filter (fun m => match d.facing r m with | some (x, _) => x == e | none => false)
  !ms.isEmpty && ms.all (fun m => d.linkState r m == 4 || (d.linkState r m == 0 && !d.on (RGN_CF_LINK_req_up r m)))

/-- Whether a message comes through to its region: no edge of its route has failed (R672), and the module that faces a guest passes it
(R689). What goes from neighbour to neighbour is sent on links that take flits only. -/
def passes (d : Dev) (f : Flight) : Bool :=
  f.src == f.dst || f.msg.toNeighbour || match d.route (if d.guest f.src then d.A else f.src) f.src f.dst with
    | none => false
    | some path =>
      let held (q g : Nat) : Bool := d.guest g && d.mladus q && !d.admits q g && !d.passesHeld f
      !(edgesOf f.src path).any (fun e => d.edgeFailed (edgeEnds e).1 e || d.edgeFailed (edgeEnds e).2 e)
        && !held (path.headD f.src) f.src && !held ((f.src :: path).getD (path.length - 1) f.src) f.dst

/-- Discard a message on its way: a request is answered with UNREACHABLE, and every other message is counted where it was to be sent
(R672). -/
def dropOnWay (d : Dev) (f : Flight) : Dev :=
  match responseOf .unreachable f.msg with
  | some m => d.send f.src f.src m
  | none => d.discarded (R f.src)

/-- Whether a message is next in the order of R676: no message that was sent before it, and that R676 orders before it, is still on its way. -/
def nextInOrder (d : Dev) (src dst : Nat) (m : Msg) : Bool :=
  (d.wire.takeWhile (· != ⟨src, dst, m⟩)).all (fun f => !d.ordered f ⟨src, dst, m⟩)

/-- Whether a message may arrive now: it is next in order and comes through. -/
def inTurn (d : Dev) (src dst : Nat) (m : Msg) : Bool := d.nextInOrder src dst m && d.passes ⟨src, dst, m⟩

end Dev

/-- Take a message that arrives, and act on it; one that does not come through is discarded (R672, R689), and one that would overtake
another under R676 cannot arrive yet. -/
def State.deliver (s : State) (src dst : Nat) (m : Msg) (f : Dev → Res) : Out := s.doing fun d =>
  if d.inTurn src dst m then f (d.receive src dst m)
  else if d.nextInOrder src dst m then .next ((d.receive src dst m).dropOnWay ⟨src, dst, m⟩)
  else .refused .noSuchUnit

/-- The same for an effect that is total. -/
def State.deliverAll (s : State) (src dst : Nat) (m : Msg) (f : Dev → Dev) : Out := s.deliver src dst m (fun d => .next (f d))

end Sys2Proof.Machine
end

