-- ==== Sys2Proof/Machine/Host.lean ====
section
/-!
DEFINITION. Host memory, MSI-X vectors and the event rings of the two endpoints (R739, R740, R767–R770).
-/

namespace Sys2Proof.Machine

/-- The key of a byte of host memory behind endpoint `e`; host memory is a space of its own beside the fabric addresses. -/
def hostMem (e addr : Nat) : Nat := 2 ^ 64 * (1 + e % 2) + addr % 2 ^ 64

/-- The region that holds an endpoint (R724). -/
def endpointRegion (e : Endpoint) : Region := if e.val = 0 then 0 else 4

/-- The endpoint of a region, if it holds one (R724). -/
def regionEndpoint (r : Nat) : Option Endpoint := if r = 0 then some 0 else if r = 4 then some 1 else none

/-- The word that an MSI-X table entry holds before it is written: every vector is masked (PCIe's reset value). -/
def msixDefault (k : Nat) : Word := if k % 4 = 3 then 1 else 0

namespace Dev

/-- One endpoint. -/
def ep (d : Dev) (e : Endpoint) : EndpointState := d.endpoints[e.val]

/-- Change one endpoint. -/
def modEp (d : Dev) (e : Endpoint) (f : EndpointState → EndpointState) : Dev :=
  { d with endpoints := d.endpoints.set e.val (f (d.ep e)) }

/-- Signal a vector (R739): a masked vector keeps a pending bit instead. -/
def msix (d : Dev) (e : Endpoint) (v : Nat) : Dev :=
  if (Sparse.get msixDefault (d.ep e).msix (v * 4 + 3)).toNat % 2 = 1 then
    d.modEp e (fun s => { s with pba := Sparse.set (fun _ => false) s.pba v true })
  else { d with line := d.line ++ [.msix e.val v] }

/-- Write a word of the MSI-X table; unmasking a vector sends its pending message (R739). -/
def msixWrite (d : Dev) (e : Endpoint) (k : Nat) (w : Word) : Dev :=
  let d := d.modEp e (fun s => { s with msix := Sparse.set msixDefault s.msix k w })
  if k % 4 = 3 ∧ w.toNat % 2 = 0 ∧ Sparse.get (fun _ => false) (d.ep e).pba (k / 4) then
    (d.modEp e (fun s => { s with pba := Sparse.set (fun _ => false) s.pba (k / 4) false })).msix e (k / 4)
  else d

/-- Write one event entry into a ring (R767, R768) and send the ring's vector, at most once per tick. -/
def eventWrite (d : Dev) (e : Endpoint) (ring : EventRing) (code region word tick : Nat) (detail : List Byte) : Dev :=
  let pi := d.fld (HST_EV_STAT_pi e.val)
  let size := 2 ^ ring.log
  let phase := if pi / size % 2 = 0 then 1 else 0
  let entry := bytesLE 2 code ++ bytesLE 1 0 ++ bytesLE 1 region ++ bytesLE 4 word ++ bytesLE 6 tick ++ padTo 48 detail
    ++ bytesLE 1 0 ++ bytesLE 1 phase
  let d := (d.setBytes (hostMem e.val (ring.base + pi % size * 64)) entry).setFld (HST_EV_STAT_pi e.val) (pi + 1)
  if ring.sentAt = some d.eventTick then d
  else (d.modEp e (fun s => { s with events := s.events.map (fun r => { r with sentAt := some d.eventTick }) })).msix e ring.vector

/-- Room left in an event ring. -/
def eventRoom (d : Dev) (e : Endpoint) (ring : EventRing) : Nat :=
  2 ^ ring.log - (d.fld (HST_EV_STAT_pi e.val) + 2 ^ 16 - d.fld (HST_EV_CI_ci e.val)) % 2 ^ 16

/-- Count an event that was not posted (R770). -/
def eventLost (d : Dev) (e : Endpoint) : Dev :=
  (d.addSat (HST_EV_STAT_lost e.val) 1).modEp e
    (fun s => { s with events := s.events.map (fun r => { r with unsaid := r.unsaid + 1 }) })

/-- Post an event to the ring of one endpoint, EVENT_LOST first where events were lost before it (R769, R770). -/
def postTo (d : Dev) (e : Endpoint) (code region word : Nat) (detail : List Byte) : Dev :=
  match (d.ep e).events with
  | none => d
  | some ring =>
    let d := if ring.unsaid ≠ 0 ∧ 1 ≤ d.eventRoom e ring then
        (d.eventWrite e ring 0x000A 0xFF 0 d.eventTick (bytesLE 4 ring.unsaid)).modEp e
          (fun s => { s with events := s.events.map (fun r => { r with unsaid := 0 }) })
      else d
    if 1 ≤ d.eventRoom e ring then d.eventWrite e ring code region word d.eventTick detail else d.eventLost e

/-- Post an event to every ring that is set (R769). -/
def post (d : Dev) (code region word : Nat) (detail : List Byte) : Dev :=
  (d.postTo 0 code region word detail).postTo 1 code region word detail

end Dev

end Sys2Proof.Machine
end

