-- ==== Sys2Proof/Machine/Journal.lean ====
section
/-!
DEFINITION. The fault journal of each region (R874–R879).
-/

namespace Sys2Proof.Machine

/-- The key of the first byte of journal line `line` of region `r`: the MRAM is a space of its own. -/
def jnlKey (r line : Nat) : Nat := 2 ^ 72 + r * 2 ^ 20 + line * 64

/-- The codes of journal entries and their severities (R876): 1 INFO, 2 ERROR, 3 FATAL. -/
def jnlSeverity (code : Nat) : Nat :=
  if code ∈ [0x0305, 0x0306, 0x030A, 0x0401, 0x0405, 0x0408] then 3
  else if code ∈ [0x0001, 0x0202, 0x0307, 0x0309, 0x0402, 0x0406] then 1
  else 2

/-- The unit ID of a unit (R778). -/
def unitId (kind r index : Nat) : Nat := kind * 2 ^ 28 + r * 2 ^ 25 + index

namespace Dev

/-- Change the journal state of a region. -/
def modJnl (d : Dev) (r : Region) (f : JournalState → JournalState) : Dev := d.modR r (fun g => { g with journal := f g.journal })

/-- The bytes of a fault entry (R875). -/
def jnlEntry (number code level region tick boot unit : Nat) (detail : List Byte) : List Byte :=
  let b := bytesLE 4 number ++ bytesLE 2 code ++ bytesLE 1 (jnlSeverity code) ++ bytesLE 1 (region * 32 + level * 8)
    ++ bytesLE 6 tick ++ bytesLE 2 boot ++ bytesLE 4 unit ++ padTo 36 detail ++ padTo 4 []
  b ++ bytesLE 4 (crc32cOf b)

/-- Write one entry into the next line of the ring, whatever the limit of R877. -/
def jnlWrite (d : Dev) (r : Region) (code level origin unit : Nat) (detail : List Byte) : Dev :=
  let j := (d.g r).journal
  let number := d.fld (RGN_JNL_HEAD_number r.val) + 1
  let d := d.setBytes (jnlKey r.val j.line) (jnlEntry number code level origin (if r = d.anchor then d.eventTick else (d.g r).tick) j.boot unit detail)
  let d := (d.setFld (RGN_JNL_HEAD_number r.val) number).modJnl r
    (fun j => { j with line := if j.line = 16383 then 256 else j.line + 1 })
  let d := if 2 ≤ jnlSeverity code then (d.setOn (RGN_JNL_STAT_unacked r.val)).setOn (CHP_FAULT_CTL_fault_n d.A) else d
  d.post 0x000B r.val 0 (bytesLE 4 number)

/-- Write an entry, at most 16 in each millisecond (R877). -/
def journalAs (d : Dev) (r : Region) (code level origin unit : Nat) (detail : List Byte) : Dev :=
  if (d.g r).journal.written < 16 then
    (d.jnlWrite r code level origin unit detail).modJnl r (fun j => { j with written := j.written + 1 })
  else (d.addSat (RGN_JNL_STAT_suppressed r.val) 1).modJnl r (fun j => { j with dropped := j.dropped + 1 })

/-- An entry of region level. -/
def journal (d : Dev) (r : Region) (code unit : Nat) (detail : List Byte) : Dev := d.journalAs r code 2 r.val unit detail

/-- An entry of block level. -/
def journalBlock (d : Dev) (r : Region) (b code : Nat) (detail : List Byte) : Dev :=
  d.journalAs r code 1 r.val (unitId 3 r.val b) detail

/-- A chip entry, in the anchor's journal (R874); `origin` is the region concerned. -/
def journalChip (d : Dev) (code origin unit : Nat) (detail : List Byte) : Dev :=
  d.journalAs d.anchor code 3 origin unit detail

/-- An entry of the unit REGION. -/
def journalRegion (d : Dev) (r : Region) (code : Nat) (detail : List Byte) : Dev := d.journal r code (unitId 4 r.val 0) detail

end Dev

end Sys2Proof.Machine
end

