-- ==== Sys2Proof/Machine/Pools.lean ====
section
/-!
DEFINITION. Stitches, chains and the buffer pool manager (R556–R577), with the occupancy that governs pause frames (R592, R723).
-/

namespace Sys2Proof.Machine

/-- A stitch handle (R557). -/
def handleOf (r pool index : Nat) : Nat := r * 2 ^ 29 + pool * 2 ^ 28 + index

/-- The region, pool and index of a handle (R557). -/
def handleRegion (h : Nat) : Nat := h / 2 ^ 29 % 8
def handlePool (h : Nat) : Nat := h / 2 ^ 28 % 2
def handleIndex (h : Nat) : Nat := h % 2 ^ 25

/-- The descriptor key of a handle within its region: pool × 2^25 + index. -/
def handleKey (h : Nat) : Nat := handlePool h * 2 ^ 25 + handleIndex h

/-- The requester ID of a local requester of a region (R559, R564). -/
def requesterId (r l : Nat) : Nat := r * 256 + l

/-- The local requesters that exist (R564). -/
def requesterNamed (r l : Nat) : Bool :=
  l < 8 || (l == 8 && (r == 0 || r == 4)) || l == 0x10 || (0x18 ≤ l && l < 0x20) || l == 0x20 || l == 0x28 || l == 0x29
    || l == 0x2A || l == 0x30

/-- Whether a requester ID names a requester; an operation that carries another is rejected as non-owner (R564). -/
def named (id : Nat) : Bool := requesterNamed (id / 256 % 8) (id % 256)

/-- The privileged requesters (R564). -/
def privileged (l : Nat) : Bool := l == 0x28 || l == 0x29 || l == 0x2A

/-- The allocating requesters and the pools they use (R564): on-chip, and deep for tails and spill. -/
def allocates (r l pool : Nat) : Bool :=
  if pool = 0 then l < 8 || (l == 8 && (r == 0 || r == 4)) || l == 0x10 || l == 0x30
  else l < 8 || l == 0x20

/-- A descriptor of a free stitch. -/
def descFree : Nat → StitchDesc := fun _ =>
  { alloc := false, last := false, poison := false, refLink := false, skip := 0, owner := 0, refcnt := 0, bytes := 0,
    next := 0, charged := 0, cls := 0 }

/-- A descriptor as 64 bits (R559). -/
def StitchDesc.word (e : StitchDesc) : Nat :=
  (if e.alloc then 2 ^ 63 else 0) + (if e.last then 2 ^ 62 else 0) + (if e.poison then 2 ^ 61 else 0)
    + (if e.refLink then 2 ^ 60 else 0) + e.skip % 4 * 2 ^ 58 + e.owner % 2048 * 2 ^ 47 + e.refcnt % 256 * 2 ^ 39
    + e.bytes % 512 * 2 ^ 30 + e.next % 2 ^ 26

namespace Dev

/-- The descriptor of a stitch. -/
def desc (d : Dev) (h : Nat) : StitchDesc := Sparse.get descFree (d.g (R (handleRegion h))).pool.desc (handleKey h)

/-- Change the pool state of a region. -/
def modPool (d : Dev) (r : Region) (f : PoolState → PoolState) : Dev := d.modR r (fun g => { g with pool := f g.pool })

/-- Write a stitch's descriptor. -/
def setDesc (d : Dev) (h : Nat) (e : StitchDesc) : Dev :=
  d.modPool (R (handleRegion h)) (fun p => { p with desc := Sparse.set descFree p.desc (handleKey h) e })

/-- The fabric address of a stitch's data (R556, R558, R75). -/
def stitchAddr (d : Dev) (h : Nat) : Nat :=
  let r := handleRegion h
  let i := handleIndex h
  if handlePool h = 0 then r * 2 ^ 44 + 0xB0000000000 + i * 256
  else r * 2 ^ 44 + d.fld (RGN_DEEP_CFG_base r) * 2 ^ 20 + i / 253952 * 2 ^ 26 + 2 ^ 21 + i % 253952 * 256

/-- The stitches of a pool (R556, R558, R576). -/
def poolSize (d : Dev) (r pool : Nat) : Nat :=
  if pool = 0 then 131072 else if d.stackFailed r then 0 else d.fld (RGN_DEEP_CFG_units r) * 253952

/-- The free list `k` of a pool (R562). -/
def freeList (d : Dev) (r : Region) (pool k : Nat) : FreeList :=
  Sparse.get (fun _ => ⟨[], 0⟩) (d.g r).pool.lists (pool * 8 + k)

/-- Whether a stitch was withdrawn from its pool (R569). -/
def withdrawn (d : Dev) (h : Nat) : Bool :=
  Sparse.get (fun _ => false) (d.g (R (handleRegion h))).pool.lost (handleKey h)

/-- The next of the stitches that a free list has held since reset, from the `n`-th on: those withdrawn are passed over (R569). -/
def nextFresh (d : Dev) (r : Region) (pool k n : Nat) : Nat :=
  ((List.range ((d.g r).pool.lost.length + 1)).find? (fun i => !d.withdrawn (handleOf r.val pool (k + 8 * (n + i))))).getD 0 + n

/-- The stitch at the top of a free list: the one pushed last, else the next of those it has held since reset. -/
def freeTop (d : Dev) (r : Region) (pool k : Nat) : Option Nat :=
  match d.freeList r pool k with
  | ⟨i :: _, _⟩ => some i
  | ⟨[], n⟩ =>
    let i := k + 8 * d.nextFresh r pool k n
    if i < d.poolSize r.val pool then some i else none

/-- Pop a free list. -/
def popList (d : Dev) (r : Region) (pool k : Nat) : Dev :=
  let l : FreeList := match d.freeList r pool k with
    | ⟨_ :: t, n⟩ => ⟨t, n⟩
    | ⟨[], n⟩ => ⟨[], d.nextFresh r pool k n + 1⟩
  d.modPool r (fun p => { p with lists := Sparse.set (fun _ => ⟨[], 0⟩) p.lists (pool * 8 + k) l })

/-- Push a freed stitch on its list, index modulo 8, with the handle of the next free stitch in its first bytes (R562). -/
def pushList (d : Dev) (r : Region) (pool i : Nat) : Dev :=
  let d := match d.freeTop r pool (i % 8) with
    | some n => d.setLE (d.stitchAddr (handleOf r.val pool i)) 4 (handleOf r.val pool n)
    | none => d
  let l : FreeList := ⟨i :: (d.freeList r pool (i % 8)).stack, (d.freeList r pool (i % 8)).popped⟩
  d.modPool r (fun p => { p with lists := Sparse.set (fun _ => ⟨[], 0⟩) p.lists (pool * 8 + i % 8) l })

/-- The cache of a requester for a pool (R563). -/
def cache (d : Dev) (r : Region) (l pool : Nat) : List Nat := Sparse.get (fun _ => []) (d.g r).pool.caches (l * 2 + pool)

/-- Write a requester's cache, and the count that its usage register reports (R601). -/
def setCache (d : Dev) (r : Region) (l pool : Nat) (c : List Nat) : Dev :=
  let d := d.modPool r (fun p => { p with caches := Sparse.set (fun _ => []) p.caches (l * 2 + pool) c })
  d.setFld (RGN_BPM_USED_cached r.val l) ((d.cache r l 0).length + (d.cache r l 1).length)

/-- The free stitches of a pool, caches included (R598). -/
def poolFree (d : Dev) (r pool : Nat) : Nat :=
  if pool = 0 then d.fld (RGN_BPM_FREE_onchip_free r) else d.fld (RGN_DEEP_FREE_deep_free r)

/-- The free stitches on a pool's lists, caches left out. -/
def listsHold (d : Dev) (r : Region) (pool : Nat) : Nat :=
  d.poolFree r.val pool - (((d.g r).pool.caches.filter (fun e => e.1 % 2 == pool)).map (fun e => e.2.length)).sum

/-- Whether a requester may take a stitch from the lists under the rewrite floor (R575). -/
def aboveFloor (d : Dev) (r : Region) (l pool : Nat) : Bool :=
  pool != 0 || l == 0x10 || d.fld (RGN_BPM_CTL_rw_floor r.val) < d.listsHold r pool

/-- Move one stitch from the free lists to a requester's cache (R563): the first list that holds one, counted from `start`. -/
def refillOne (d : Dev) (r : Region) (l pool start : Nat) : Dev :=
  if d.aboveFloor r l pool then
    match ((List.range 8).map (fun k => (start + k) % 8)).find? (fun k => (d.freeTop r pool k).isSome) with
    | some k => match d.freeTop r pool k with
      | some i => (d.popList r pool k).setCache r l pool (d.cache r l pool ++ [i])
      | none => d
    | none => d
  else d

/-- Fill a requester's cache up to `n` entries, as far as the lists allow; which list supplies each is left open. -/
def refill (d : Dev) (r : Region) (l pool n : Nat) : Dev :=
  (List.range (n - (d.cache r l pool).length)).foldl (fun d i => d.refillOne r l pool (d.freeNat i % 8)) d

/-- Whether a requester has a quota register (R601). -/
def hasQuota (l : Nat) : Bool := l ≤ 8 || l == 0x20 || l == 0x30

/-- Whether quotas apply in a region now (R571). -/
def quotasApply (d : Dev) (r : Region) : Bool := (d.g r).mode.isRun && !d.recovering r.val

/-- Whether an allocation of `n` stitches would pass the requester's quota (R573, R574). -/
def withinQuota (d : Dev) (r : Region) (l n : Nat) : Bool :=
  !hasQuota l || (d.fld (RGN_BPM_QUOTA_quota r.val l) != 0 &&
    (!d.quotasApply r || d.fld (RGN_BPM_USED_used r.val l) + n ≤ d.fld (RGN_BPM_QUOTA_quota r.val l)))

/-- What an allocation returns (R565). -/
inductive AllocStatus where
  | ok (head : Nat) | quota | empty
deriving DecidableEq, Repr

/-- Set the free count of a pool, and raise BPM_POOL_LOW when the on-chip count falls below its threshold (R598, R607). -/
def setPoolFree (d : Dev) (r : Region) (pool n : Nat) : Dev :=
  if pool = 0 then
    let low := d.fld (RGN_BPM_LOW_low_thr r.val)
    let was := d.poolFree r.val 0
    let d := d.setFld (RGN_BPM_FREE_onchip_free r.val) n
    if n < low && low ≤ was then d.raise r 0x1C4 else d
  else d.setFld (RGN_DEEP_FREE_deep_free r.val) n

/-- Link stitches into a chain of one owner; each stitch's byte count comes from `sizes`, and the last stitch is marked. -/
def linkChain (d : Dev) (r : Region) (l cls : Nat) (pools : List (Nat × Nat)) (sizes : List Nat) : Dev :=
  match pools, sizes with
  | (pool, i) :: t, n :: ns =>
    let nxt := match t with | (p2, j) :: _ => p2 * 2 ^ 25 + j | [] => 0
    (d.setDesc (handleOf r.val pool i)
      { alloc := true, last := t.isEmpty, poison := false, refLink := false, skip := 0, owner := requesterId r.val l,
        refcnt := 0, bytes := n, next := nxt, charged := l, cls := cls }).linkChain r l cls t ns
  | _, _ => d

/-- Take `n` stitches of one pool out of a requester's cache, filling it first (R563, R574); none where they cannot be had, or where
the free lists are down to the rewrite floor (R575). -/
def takeStitches (d : Dev) (r : Region) (l pool n : Nat) : Option (Dev × List Nat) :=
  let barred := n != 0 && !d.aboveFloor r l pool
  let d := d.refill r l pool n
  let c := d.cache r l pool
  if barred || decide (c.length < n) then none
  else some (((d.setCache r l pool (c.drop n)).setPoolFree r pool (d.poolFree r.val pool - n)), c.take n)

/-- Charge or release stitches of a requester (R572). -/
def charge (d : Dev) (r : Region) (l : Nat) (f : Nat → Nat) : Dev :=
  if hasQuota l then d.setFld (RGN_BPM_USED_used r.val l) (f (d.fld (RGN_BPM_USED_used r.val l))) else d

/-- ALLOC (R565, R574): a chain of `sizes.length` stitches of one pool, charged to the requester. -/
def alloc (d : Dev) (r : Region) (l pool cls : Nat) (sizes : List Nat) : Dev × AllocStatus :=
  if !d.withinQuota r l sizes.length then (d, .quota)
  else match d.takeStitches r l pool sizes.length with
    | none => (d, .empty)
    | some (d', is) =>
      let d' := (d'.charge r l (· + sizes.length)).linkChain r l cls (is.map (fun i => (pool, i))) sizes
      (d'.event r 0x130 l sizes.length, match is with | i :: _ => .ok (handleOf r.val pool i) | [] => .empty)

/-- Record a rejected pool operation (R567): kind 1 double free, 2 non-owner, 3 underflow, 4 overflow. -/
def abuse (d : Dev) (r : Region) (kind requester handle : Nat) : Dev :=
  let d := (d.setReg (RGN_BPM_ABUSE_LO r.val) (BitVec.ofNat 32 handle)).setReg (RGN_BPM_ABUSE_HI r.val)
    (BitVec.ofNat 32 (kind * 2 ^ 12 + requester % 2048))
  let d := d.addSat (match kind with
    | 1 => RGN_BPM_ABUSE_CNT_double_free r.val | 2 => RGN_BPM_ABUSE_CNT_non_owner r.val
    | 3 => RGN_BPM_ABUSE_CNT_underflow r.val | _ => RGN_BPM_ABUSE_CNT_overflow r.val) 1
  (((d.setOn (RGN_BPM_ERR_abuse r.val)).event r 0x132 kind).raise r (0x1BF + kind)).journalRegion r 0x0302
    (bytesLE 4 handle ++ bytesLE 4 (kind * 2 ^ 12 + requester % 2048))

/-- The handles of a chain from a head, over at most `fuel` stitches: the chain's own stitches, and the shared chain at which
it goes on, if its last stitch links one (R559). -/
def chain (d : Dev) : Nat → Nat → List Nat
  | 0, _ => []
  | fuel + 1, h =>
    let e := d.desc h
    if e.last then [h]
    else if e.refLink then [h]
    else h :: d.chain fuel (handleOf (handleRegion h) (e.next / 2 ^ 25) (e.next % 2 ^ 25))

/-- The stitches charged to a port's admission for frames of one class (R592). -/
def occupancy (d : Dev) (r : Region) (p cls : Nat) : Nat :=
  ((d.g r).pool.desc.filter (fun e => e.2.alloc && e.2.charged == p && e.2.cls == cls)).length

/-- The pause state of a port and class. -/
def pause (d : Dev) (r : Region) (p cls : Nat) : PauseState :=
  Sparse.get (fun _ => ⟨false, 0, 0, 0, false, false⟩) (d.g r).egress.pause (p * 8 + cls)

/-- Change the egress state of a region. -/
def modEgress (d : Dev) (r : Region) (f : EgressState → EgressState) : Dev :=
  d.modR r (fun g => { g with egress := f g.egress })

/-- Write the pause state of a port and class. -/
def setPause (d : Dev) (r : Region) (p cls : Nat) (s : PauseState) : Dev :=
  d.modEgress r (fun e => { e with pause := Sparse.set (fun _ => ⟨false, 0, 0, 0, false, false⟩) e.pause (p * 8 + cls) s })

/-- Put something on the lines of the part. -/
def emit (d : Dev) (o : LineOut) : Dev := { d with line := d.line ++ [o] }

/-- Send pause when a class's occupancy reaches xoff and resume when it falls below xon (R592, R723); with xon 0 only when it is empty
(R608). -/
def pfcCheck (d : Dev) (r : Region) (p cls : Nat) : Dev :=
  let n := d.occupancy r p cls
  let s := d.pause r p cls
  if !s.sent && d.fld (RGN_ADM_PFC_xoff r.val p) ≤ n && bitOf (d.fld (RGN_EP_PFC_tx_mask r.val p)) cls then
    ((d.setPause r p cls { s with sent := true }).setFld (RGN_EP_STAT_sent r.val p)
      (withBit (d.fld (RGN_EP_STAT_sent r.val p)) cls true)).emit (.pause r.val p cls (d.fld (RGN_PORT_PFC_pfc_quanta r.val p)))
  else if s.sent && n < max 1 (d.fld (RGN_ADM_PFC_xon r.val p)) then
    ((d.setPause r p cls { s with sent := false }).setFld (RGN_EP_STAT_sent r.val p)
      (withBit (d.fld (RGN_EP_STAT_sent r.val p)) cls false)).emit (.pause r.val p cls 0)
  else d

/-- Whether a stitch's descriptor says that it is allocated; one that was withdrawn says nothing that can be read (R568, R569). -/
def held (d : Dev) (h : Nat) : Bool := (d.desc h).alloc && !d.withdrawn h

/-- Whether a free stitch is counted as free: it lies in its pool and was not withdrawn. -/
def countsFree (d : Dev) (h : Nat) : Bool :=
  decide (handleIndex h < d.poolSize (handleRegion h) (handlePool h)) && !(d.desc h).alloc && !d.withdrawn h

/-- The four stitches whose descriptors share a line with that of a stitch (R569). -/
def lineMates (h : Nat) : List Nat :=
  (List.range 4).map (fun i => handleOf (handleRegion h) (handlePool h) (handleIndex h / 4 * 4 + i))

/-- Take one stitch out of its free list and out of the caches. -/
def forgetFree (p : PoolState) (pool i : Nat) : PoolState :=
  { p with lists := p.lists.map (fun e => if e.1 / 8 = pool then (e.1, { e.2 with stack := e.2.stack.filter (· != i) }) else e),
           caches := p.caches.map (fun e => if e.1 % 2 = pool then (e.1, e.2.filter (· != i)) else e) }

/-- Withdraw one stitch: free or allocated, it does not return before the reset of its region (R569). -/
def withdrawOne (d : Dev) (r : Region) (h : Nat) : Dev :=
  if d.withdrawn h then d
  else
    let d := if d.countsFree h then d.setPoolFree r (handlePool h) (d.poolFree r.val (handlePool h) - 1) else d
    let d := d.modPool r (fun p => { forgetFree p (handlePool h) (handleIndex h) with
      lost := Sparse.set (fun _ => false) p.lost (handleKey h) true })
    let ls := ((d.g r).pool.caches.map (fun e => e.1 / 2)).dedup
    (d.each ls (fun l d => d.setFld (RGN_BPM_USED_cached r.val l) ((d.cache r l 0).length + (d.cache r l 1).length))).addSat
      (RGN_BPM_LOST_lost r.val) 1

/-- A line of descriptors is found uncorrectable: its four stitches are withdrawn from the pool, and the journal says how many (R569). -/
def withdrawLine (d : Dev) (h : Nat) : Dev :=
  let r := R (handleRegion h)
  if d.withdrawn h then d
  else
    let n := ((lineMates h).filter (fun x => !d.withdrawn x)).length
    ((d.each (lineMates h) (fun x d => d.withdrawOne r x)).err (RGN_BPM_ERR_desc_poison r.val) r 0x1C5).journalRegion r 0x0303 (bytesLE 4 n)

/-- What an operation finds as it reads the descriptor of a stitch: where `found` holds, its line is uncorrectable (R569). -/
def readDesc (d : Dev) (h : Nat) (found : Bool) : Dev := d.when found (·.withdrawLine h)

/-- Free the stitches of a walk in order; the walk stops at one that is already free, which is reported as a double free, and the
stitches that would have followed it are lost (R568). The result also names the shared chain that the last stitch links. -/
def freeWalk (d : Dev) (r : Region) (issuer : Nat) : List Nat → Dev × Option Nat
  | [] => (d, none)
  | h :: t =>
    let e := d.desc h
    if !d.held h then
      ((d.abuse r 1 issuer h).addSat (RGN_BPM_LOST_lost r.val) t.length, none)
    else
      let pool := handlePool h
      let d := (d.setDesc h (descFree 0)).pushList r pool (handleIndex h)
      let d := ((d.setPoolFree r pool (d.poolFree r.val pool + 1)).charge r e.charged (· - 1)).event r 0x131 e.charged
      let d := if e.charged < 8 then d.pfcCheck r e.charged e.cls else d
      if e.refLink then (d, some (handleOf r.val (e.next / 2 ^ 25) (e.next % 2 ^ 25))) else freeWalk d r issuer t

/-- Free a whole chain. -/
def freeChain (d : Dev) (r : Region) (issuer h : Nat) : Dev × Option Nat := d.freeWalk r issuer (d.chain 512 h)

/-- DEREF by a privileged requester (R565): at zero, a SHARED chain is freed; the result names the chain that it links, if it was. -/
def derefOne (d : Dev) (issuer h : Nat) : Dev × Option Nat :=
  let r := R (handleRegion h)
  let e := d.desc h
  if !privileged (issuer % 256) then (d.abuse r 2 issuer h, none)
  else if e.refcnt = 0 || !d.held h then (d.abuse r 3 issuer h, none)
  else
    let d := d.setDesc h { e with refcnt := e.refcnt - 1 }
    if e.refcnt = 1 ∧ e.owner % 256 = 0xFF then d.freeChain r issuer h else (d, none)

/-- DEREF of a chain, and the RETURN recorded for each shared chain that a chain freed by it links (R565, R580). -/
def derefs : Nat → Dev → Nat → Nat → Dev
  | 0, d, _, _ => d
  | fuel + 1, d, issuer, h => match d.derefOne issuer h with
    | (d', some shared) => derefs fuel d' (requesterId (handleRegion h) 0x28) shared
    | (d', none) => d'

/-- DEREF by a privileged requester (R565): a packet is rewritten at most four times, so at most so many chains link one another. -/
def deref (d : Dev) (issuer h : Nat) : Dev := derefs 8 d issuer h

/-- FREE by the owner (R565): frees the chain, or leaves it SHARED while references are held; a shared chain that its last stitch
links gets the RETURN recorded for it, with holder MREP (R580). -/
def free' (d : Dev) (issuer h : Nat) : Dev :=
  let r := R (handleRegion h)
  let e := d.desc h
  if !named issuer then d.abuse r 2 issuer h
  else if !d.held h then d.abuse r 1 issuer h
  else if e.owner ≠ issuer then d.abuse r 2 issuer h
  else if e.refcnt ≠ 0 then d.setDesc h { e with owner := requesterId r.val 0xFF }
  else match d.freeChain r issuer h with
    | (d', some shared) => d'.deref (requesterId r.val 0x28) shared
    | (d', none) => d'

/-- HANDOVER by the owner (R565). -/
def handover (d : Dev) (issuer h dest : Nat) : Dev :=
  let r := R (handleRegion h)
  let e := d.desc h
  if !named issuer then d.abuse r 2 issuer h
  else if !d.held h then d.abuse r 1 issuer h
  else if e.owner ≠ issuer then d.abuse r 2 issuer h
  else d.setDesc h { e with owner := dest }

/-- ADDREF by a privileged requester (R565). -/
def addref (d : Dev) (issuer h : Nat) : Dev :=
  let r := R (handleRegion h)
  let e := d.desc h
  if !privileged (issuer % 256) then d.abuse r 2 issuer h
  else if !d.held h then d.abuse r 1 issuer h
  else if e.refcnt = 255 then d.abuse r 4 issuer h
  else d.setDesc h { e with refcnt := e.refcnt + 1 }

/-- Free a packet's chain by PKT of its region (R578). -/
def freePkt (d : Dev) (r : Region) (h : Nat) : Dev := d.free' (requesterId r.val 0x10) h

/-- Check every port and class of a region (R592). -/
def pfcCheckAll (d : Dev) (r : Region) : Dev :=
  (List.range 64).foldl (fun d i => d.pfcCheck r (i / 8) (i % 8)) d

end Dev

end Sys2Proof.Machine
end

