-- ==== Sys2Proof/Machine/Parser.lean ====
section
/-!
DEFINITION. The pricking and its walk (R211–R240): pane memory, the node's fields, the length checks and the parse result.
-/

namespace Sys2Proof.Machine

/-! ### Pane memory -/

/-- The fabric address of the pricking window of a pane (R213). -/
def prickBase (r p : Nat) : Nat := rgnReg r (0x310000 + p * 0x10000)

/-- The fabric address of the pane store window of a pane (R259). -/
def paneBase (r p : Nat) : Nat := rgnReg r (0x340000 + p * 0x60000)

namespace Dev

/-- The division word of a pane (R293). -/
def divWord (d : Dev) (r p : Nat) : Word := d.reg (if p = 0 then RGN_CLS_DIV0 r else RGN_CLS_DIV1 r)

/-- The units of each part of a pane (R253). -/
def transUnits (d : Dev) (r p : Nat) : Nat := fieldOf (d.divWord r p) 0 4
def ruleUnits (d : Dev) (r p : Nat) : Nat := fieldOf (d.divWord r p) 8 7
def asetUnits (d : Dev) (r p : Nat) : Nat := fieldOf (d.divWord r p) 15 5
def tmplUnits (d : Dev) (r p : Nat) : Nat := fieldOf (d.divWord r p) 20 6

/-- The transition entries of a pane (R255). -/
def transLimit (d : Dev) (r p : Nat) : Nat := 256 * d.transUnits r p

/-- Node record `n` (R213, R224). -/
def node (d : Dev) (r p n : Nat) : Nat := d.le (prickBase r p + n * 0x20) 32

/-- Transition entry `i` (R213, R226). -/
def transition (d : Dev) (r p i : Nat) : Nat := d.le (prickBase r p + 0x8000 + i * 0x10) 16

/-- The pricking header (R213, R221). -/
def prickHeader (d : Dev) (r p : Nat) : Nat := d.le (prickBase r p + 0x2000) 8

/-- The bytes of a chain, stitch by stitch; a chain that links a shared chain goes on at that chain's stitch `skip` (R559). -/
def chainData (d : Dev) : Nat → Nat → Nat → List Byte
  | 0, _, _ => []
  | fuel + 1, skip, h =>
    let e := d.desc h
    let own := if skip = 0 then d.bytes (d.stitchAddr h) e.bytes else []
    let nxt := handleOf (handleRegion h) (e.next / 2 ^ 25) (e.next % 2 ^ 25)
    if e.last then own
    else if e.refLink then own ++ d.chainData fuel e.skip nxt
    else own ++ d.chainData fuel (skip - 1) nxt

/-- The bytes of the packet that a chain holds. -/
def packetData (d : Dev) (h : Nat) : List Byte := d.chainData 512 0 h

/-- The stitches that hold the bytes of a packet, in order, over shared links (R559). -/
def stitches (d : Dev) : Nat → Nat → Nat → List Nat
  | 0, _, _ => []
  | fuel + 1, skip, h =>
    let e := d.desc h
    let own := if skip = 0 then [h] else []
    let nxt := handleOf (handleRegion h) (e.next / 2 ^ 25) (e.next % 2 ^ 25)
    if e.last then own
    else if e.refLink then own ++ d.stitches fuel e.skip nxt
    else own ++ d.stitches fuel (skip - 1) nxt

/-- How many stitches of a list hold its first `n` bytes. -/
def covering (d : Dev) : Nat → List Nat → Nat
  | _, [] => 0
  | n, h :: t => if n = 0 then 0 else 1 + d.covering (n - (d.desc h).bytes) t

/-- Whether a stitch is in error: its descriptor is not to be read, it is marked poisoned, or a line of its bytes is uncorrectable. -/
def stitchBad (d : Dev) (h : Nat) : Bool := d.withdrawn h || (d.desc h).poison || d.anyPoison (d.stitchAddr h) (d.desc h).bytes

/-- Whether any line of the first `n` bytes of a chain is uncorrectable, or a stitch is marked poisoned (R232, R559). -/
def chainPoisoned (d : Dev) (h n : Nat) : Bool :=
  let l := d.stitches 512 0 h
  (l.take (d.covering n l)).any d.stitchBad

end Dev

/-! ### The walk -/

/-- A field specification: byte offset, shift and width (R222). -/
structure FieldSpec where
  off : Nat
  shift : Nat
  width : Nat
deriving DecidableEq, Repr

/-- The value of a field of the header at `pos` (R222): the four bytes from the offset as a big-endian word, shifted and cut. -/
def FieldSpec.value (f : FieldSpec) (frame : List Byte) (pos : Nat) : Nat :=
  ofBE (sliceOf frame (pos + f.off) 4) / 2 ^ f.shift % 2 ^ f.width

/-- The first and last byte that a field uses (R223); none for a width of zero. -/
def FieldSpec.used (f : FieldSpec) (pos : Nat) : Option (Nat × Nat) :=
  if f.width = 0 then none
  else some (pos + f.off + (32 - f.shift - f.width) / 8, pos + f.off + 3 - f.shift / 8)

/-- The select, advance and check fields of a node (R224); the advance field of a FIXED node is not read (R225). -/
def nodeSelect (n : Nat) : FieldSpec := ⟨bitsOf n 7 0, bitsOf n 12 8, bitsOf n 18 13⟩
def nodeAdvance (n : Nat) : FieldSpec := ⟨bitsOf n 71 64, bitsOf n 76 72, if bitsOf n 20 19 = 1 then bitsOf n 82 77 else 0⟩
def nodeCheck (n : Nat) : FieldSpec := ⟨bitsOf n 135 128, bitsOf n 140 136, bitsOf n 146 141⟩

/-- What a walk has found so far (R228, R238, R239). -/
structure Walk where
  pos : Nat
  depth : Nat
  next : Nat
  insts : List (Nat × Nat)
  saved : Nat
  isSaved : Bool
  depthExceeded : Bool
  window : Bool
  lenShort : Bool
  lenLong : Bool
  unknownEnd : Bool
  lenStop : Bool
  flagNode : Nat
  drop : Bool
deriving DecidableEq, Repr

/-- Set LEN_LONG and LEN_STOP at a node, the drop of len_action 0b10 included (R228). -/
def Walk.runsOut (w : Walk) (node lenAction : Nat) : Walk :=
  { w with lenLong := true, lenStop := true, drop := lenAction == 2,
           flagNode := if w.lenShort || w.lenLong then w.flagNode else node }

/-- The length checks of R233 for one visit: LEN_SHORT and LEN_LONG. -/
def lengthChecks (n adv : Nat) (claim remaining : Nat) : Bool × Bool :=
  let computed := bitsOf n 20 19 == 1
  let chk := bitsOf n 146 141 != 0
  ((computed && adv == 0) || (computed && adv < bitsOf n 119 112) || (chk && claim == 0) || (chk && claim < adv),
   chk && remaining < claim)

/-- The walk of R228 from a next-node value. -/
def walk (nodeAt transAt : Nat → Nat) (frame : List Byte) (len limit : Nat) : Nat → Walk → Walk
  | 0, w => w
  | fuel + 1, w =>
    if w.next = 1 then w
    else if w.next < 256 then { w with unknownEnd := true }
    else if w.depth = limit then { w with depthExceeded := true }
    else
      let idx := w.next - 256
      let n := nodeAt idx
      let act := bitsOf n 22 21
      let w := { w with depth := w.depth + 1 }
      let used := [nodeSelect n, nodeAdvance n, nodeCheck n].filterMap (·.used w.pos)
      if used.any (fun u => len ≤ u.2) then w.runsOut idx act
      else if w.pos = 512 ∨ used.any (fun u => 512 ≤ u.2) then { w with depthExceeded := true, window := true }
      else
        let sel := (nodeSelect n).value frame w.pos
        let w := if bitOf n 31 then { w with insts := w.insts ++ [(bitsOf n 30 24, w.pos)] } else w
        let w := if bitOf n 23 then { w with saved := sel, isSaved := true } else w
        let adv := if bitsOf n 20 19 = 1 then (nodeAdvance n).value frame w.pos * bitsOf n 87 83 + bitsOf n 127 120
          else bitsOf n 95 88
        let claim := (nodeCheck n).value frame w.pos * bitsOf n 151 147 + bitsOf n 159 152
        let (short, long) := lengthChecks n adv claim (len - w.pos)
        let w := { w with flagNode := if (short || long) && !(w.lenShort || w.lenLong) then idx else w.flagNode,
                          lenShort := w.lenShort || short, lenLong := w.lenLong || long }
        if (short || long) && act == 2 then { w with drop := true }
        else if (short || long) && act == 1 then { w with lenStop := true }
        else
          let hit := (List.range (bitsOf n 54 50)).find? (fun i =>
            let t := transAt (bitsOf n 49 39 + i)
            (sel ^^^ t % 2 ^ 32) &&& (t / 2 ^ 32 % 2 ^ 32) == 0)
          let nxt := match hit with
            | some i => bitsOf (transAt (bitsOf n 49 39 + i)) 72 64
            | none => bitsOf n 63 55
          if len < w.pos + adv then w.runsOut idx act
          else if 512 < w.pos + adv then { w with depthExceeded := true, window := true }
          else walk nodeAt transAt frame len limit fuel { w with pos := w.pos + adv, next := nxt }

/-- Which start value of the pricking header a pass takes (R221). -/
def startValue (header : Nat) (host recirc : Bool) : Nat :=
  if recirc then bitsOf header 26 18 else if host then bitsOf header 17 9 else bitsOf header 8 0

/-- The flags field of the parse result (R239). -/
def Walk.flags (w : Walk) : Nat :=
  (if w.depthExceeded then 1 else 0) + (if w.window then 2 else 0) + (if w.lenShort then 4 else 0)
    + (if w.lenLong then 8 else 0) + (if w.unknownEnd then 16 else 0) + (if w.lenStop then 32 else 0)
    + (if w.isSaved then 64 else 0)

/-- The 64-byte parse result (R238). -/
def Walk.result (w : Walk) (len pass pane gen : Nat) : List Byte :=
  padTo 48 (w.insts.flatMap (fun i => bytesLE 2 (i.1 * 512 + i.2)))
    ++ bytesLE 4 (if w.isSaved then w.saved else 0) ++ bytesLE 2 len
    ++ bytesLE 2 w.pos ++ bytesLE 2 w.flags
    ++ bytesLE 2 (w.next % 512 + w.depth % 32 * 512) ++ bytesLE 1 w.insts.length
    ++ bytesLE 1 (if w.lenShort || w.lenLong then w.flagNode else 0) ++ bytesLE 1 gen
    ++ bytesLE 1 (pane * 128 + pass * 16)

/-- Parse a frame of `len` bytes with the pricking of a pane (R228). -/
def Dev.parse (d : Dev) (r p : Nat) (frame : List Byte) (len : Nat) (host recirc : Bool) : Walk :=
  let h := d.prickHeader r p
  walk (d.node r p) (d.transition r p) frame len (bitsOf h 31 27) 33
    { pos := 0, depth := 0, next := startValue h host recirc, insts := [], saved := 0, isSaved := false,
      depthExceeded := false, window := false, lenShort := false, lenLong := false, unknownEnd := false,
      lenStop := false, flagNode := 0, drop := false }

/-- The header instances of a parse result: type and start (R238). -/
def parseInsts (parse : List Byte) : List (Nat × Nat) :=
  (List.range (bitsOf (ofLE (sliceOf parse 60 1)) 4 0)).map (fun i =>
    let v := ofLE (sliceOf parse (2 * i) 2)
    (v / 512, v % 512))

/-- The frame length of a parse result (R238). -/
def parseLen (parse : List Byte) : Nat := ofLE (sliceOf parse 52 2) % 2 ^ 15

end Sys2Proof.Machine
end

