-- ==== Sys2Proof/Machine/Classify.lean ====
section
/-!
DEFINITION. Classification (R263–R281): keys, rules, the chain of tables, the actions and the classification result.
-/

namespace Sys2Proof.Machine

/-- A 64-byte item of a pane store, as the number its little-endian bytes hold, split in a high and a low half where needed. -/
abbrev PaneItem := Nat

namespace Dev

/-- Table descriptor `t` of a pane (R259, R265). -/
def clsTable (d : Dev) (r p t : Nat) : PaneItem := d.le (paneBase r p + 0x200 + t * 0x40) 64

/-- The classifier header of a pane (R264). -/
def clsHeader (d : Dev) (r p : Nat) : Nat := d.le (paneBase r p) 8

/-- Lookup set `n` of a pane: its four entries (R259, R283). -/
def lookupEntry (d : Dev) (r p n k : Nat) : Nat := d.le (paneBase r p + 0x800 + n * 0x40 + k * 16) 16

/-- Rule `i` of a pane (R259, R270). -/
def rule (d : Dev) (r p i : Nat) : PaneItem := d.le (paneBase r p + 0x1000 + i * 0x80) 128

/-- Entry `e` of action set `k` of a pane (R259, R273). -/
def action (d : Dev) (r p k e : Nat) : Nat :=
  d.le (paneBase r p + 0x1000 + d.ruleUnits r p * 0x1000 + k * 0x40 + e * 8) 8

/-- Template `j` of a pane: 64 bytes in wire order (R263). -/
def template (d : Dev) (r p j : Nat) : List Byte :=
  d.bytes (paneBase r p + 0x1000 + (d.ruleUnits r p + d.asetUnits r p) * 0x1000 + j * 0x40) 64

end Dev

/-! ### Keys -/

/-- What keys are built from: the frame, its length, the instances, the parse result, the stamp and the metadata (R266). -/
structure KeyView where
  frame : List Byte
  len : Nat
  parse : List Byte
  stamp : List Byte
  meta' : List Nat
deriving DecidableEq, Repr

/-- A stamp as its 12 bytes, bits [95:88] first (R161, R266). -/
def stampBytes (s : Stamp) : List Byte :=
  bytesBE 12 (s.tick % 2 ^ 48 * 2 ^ 48 + s.time % 2 ^ 13 * 2 ^ 35 + s.port % 128 * 2 ^ 28 + s.tc % 8 * 2 ^ 25
    + s.seq % 2 ^ 16 * 2 ^ 9)

/-- The bytes a key segment takes, and whether any of them is absent (R266–R268). -/
def segBytes (v : KeyView) (seg : Nat) : List Byte × Bool :=
  let off := bitsOf seg 15 8
  let n := bitsOf seg 2 0
  let fromFrame (start : Nat) : List Byte × Bool :=
    ((List.range n).map (fun i => let a := start + off + i; if a < v.len ∧ a < 512 then sliceOf v.frame a 1 else [0]) |>.flatten,
     (List.range n).any (fun i => v.len ≤ start + off + i || 512 ≤ start + off + i))
  match bitsOf seg 31 28 with
  | 1 =>
    let found := (parseInsts v.parse).filter (fun i => i.1 == bitsOf seg 27 21)
    let occ := bitsOf seg 20 16
    match (if occ = 0x1F then found.getLast? else found[occ]?) with
    | some i => fromFrame i.2
    | none => (List.replicate n 0, true)
  | 2 => (sliceOf v.parse off n, false)
  | 3 => (sliceOf v.stamp off n, false)
  | 4 => (sliceOf (v.meta'.flatMap (bytesBE 4)) off n, false)
  | 5 => fromFrame 0
  | _ => ([], false)

/-- Key segment `s` of a table descriptor (R265). -/
def keySeg (t : Nat) (s : Nat) : Nat := bitsOf t (383 - 32 * s) (352 - 32 * s)

/-- The 48-byte key of a table, and whether a segment was absent (R267, R268). -/
def buildKey (v : KeyView) (t : Nat) : List Byte × Bool :=
  let segs := (List.range 12).map (fun s => segBytes v (keySeg t s))
  (segs.flatMap (fun x => padTo 4 x.1), segs.any (·.2))

/-- Whether a rule matches a key (R271): value and mask are the upper 96 bytes, key byte 0 first. -/
def ruleMatches (rule : Nat) (key : List Byte) : Bool :=
  bitOf rule 31 && ((ofBE key ^^^ bitsOf rule 1023 640) &&& bitsOf rule 639 256) == 0

/-! ### The classification state (R276, R277) -/

/-- How a chain ends (R275, R278, R279). -/
inductive Disposition where
  | thread | recirc
deriving DecidableEq, Repr

/-- The classification state of a pass (R276). -/
structure Cls where
  dest : Nat
  prog : Option (Nat × Nat)
  disp : Disposition
  learn : Nat
  profile : Nat
  narrowed : Bool
  flowHash : Nat
  meta' : List Nat
  front : List Nat
  mirrorA : Option Nat
  mirrorB : Option Nat
  newMirrors : Nat
  excess : Bool
  dropped : Bool
  overflow : Bool
  absent : Bool
  hits : List (Nat × Nat)
  keys : List (Nat × List Byte)
deriving DecidableEq, Repr

/-- Append a rewrite entry to the front list; a ninth ends the chain as a drop (R279). -/
def Cls.append (c : Cls) (e : Nat) : Cls :=
  if c.front.length < 8 then { c with front := c.front ++ [e] } else { c with overflow := true, dropped := true }

/-- A rewrite entry from its fields (R194). -/
def rewriteEntry (op anchor off len fold operand : Nat) : Nat :=
  op * 2 ^ 60 + anchor % 32 * 2 ^ 55 + off % 256 * 2 ^ 47 + len % 128 * 2 ^ 40 + fold % 2 * 2 ^ 39 + operand % 2 ^ 32

/-- One action (R274, R275); `key` is the key of the table that applies the set, `first` whether this is a first pass. -/
def Cls.act (c : Cls) (a : Nat) (key : List Byte) (first : Bool) : Cls :=
  let anchor := bitsOf a 55 51
  let off := bitsOf a 50 43
  match bitsOf a 63 56 with
  | 0x02 => { c with dest := 2 ^ 30 + bitsOf a 14 0 }
  | 0x03 => { c with dropped := true }
  | 0x04 => { c with dest := 2 * 2 ^ 30 + bitsOf a 8 0 }
  | 0x05 => match c.mirrorA, c.mirrorB with
    | none, _ => { c with mirrorA := some (0x80 + bitsOf a 6 0), newMirrors := c.newMirrors + 1 }
    | some _, none => { c with mirrorB := some (0x80 + bitsOf a 6 0), newMirrors := c.newMirrors + 1 }
    | some _, some _ => { c with excess := true }
  | 0x06 =>
    let w := bitsOf a 55 53
    let sh := if bitOf a 52 then 16 else 0
    let old := c.meta'.getD w 0
    let half := (old / 2 ^ sh % 2 ^ 16 &&& (2 ^ 16 - 1 - bitsOf a 31 16)) ||| (bitsOf a 15 0 &&& bitsOf a 31 16)
    { c with meta' := c.meta'.set w (old - old / 2 ^ sh % 2 ^ 16 * 2 ^ sh + half * 2 ^ sh) }
  | 0x07 => c.append (rewriteEntry 1 anchor off (bitsOf a 42 40) (bitsOf a 39 39) (bitsOf a 31 0))
  | 0x08 => c.append (rewriteEntry 2 anchor off (bitsOf a 42 36) 0 (bitsOf a 31 20 * 2 ^ 20 + bitsOf a 19 14 * 2 ^ 14))
  | 0x09 => c.append (rewriteEntry 3 anchor off (bitsOf a 42 36) 0 0)
  | 0x0A => c.append (rewriteEntry 4 anchor off 2 0 0)
  | 0x0B => { c with prog := some (bitsOf a 16 0, bitsOf a 22 17), disp := .thread }
  | 0x0C => { c with disp := .recirc }
  | 0x0D => { c with dest := 3 * 2 ^ 30 + bitsOf a 9 0 }
  | 0x0E => { c with learn := bitsOf a 1 0 }
  | 0x0F =>
    if first then
      { c with profile := bitsOf a 5 0, narrowed := bitOf a 6,
               flowHash := if bitOf a 6 then crc32cOf key % 2 ^ 16 else 0 }
    else c
  | _ => c

/-- Apply an action set's entries up to END, or to the end of the chain where an entry ends it (R273); the last NEXT wins. -/
def applySet (entries : List Nat) (key : List Byte) (first : Bool) (c : Cls) (nxt : Option Nat) : Cls × Option Nat :=
  match entries with
  | [] => (c, nxt)
  | a :: t =>
    if bitsOf a 63 56 = 0 then (c, nxt)
    else
      let c' := c.act a key first
      if c'.dropped then (c', none)
      else applySet t key first c' (if bitsOf a 63 56 = 1 then some (bitsOf a 2 0) else nxt)

/-- The chain of tables from table `t` (R269–R272). -/
def chainTables (d : Dev) (r p : Nat) (view : List Nat → KeyView) (first : Bool) : Nat → Nat → Cls → Cls
  | 0, _, c => c
  | fuel + 1, t, c =>
    let desc := d.clsTable r p t
    let (key, miss) := buildKey (view c.meta') desc
    let c := { c with keys := c.keys ++ [(t, key)], absent := c.absent || miss }
    let base := bitsOf desc 495 484
    let hit := (List.range (bitsOf desc 471 460)).find? (fun i => ruleMatches (d.rule r p (base + i)) key)
    let c := match hit with | some i => { c with hits := c.hits ++ [(t, base + i)] } | none => c
    let set : Option Nat := match hit with
      | some i => some (bitsOf (d.rule r p (base + i)) 9 0)
      | none => if bitOf desc 510 then some (bitsOf desc 509 500) else none
    match set with
    | none => c
    | some k =>
      match applySet ((List.range 8).map (d.action r p k)) key first c none with
      | (c', some t') => if c'.dropped then c' else chainTables d r p view first fuel t' c'
      | (c', none) => c'

/-- Classify a pass (R272): the chain from table 0, then the keys of the enabled tables it did not reach (R269). -/
def Dev.classify (d : Dev) (r p : Nat) (view : List Nat → KeyView) (first : Bool) (c : Cls) : Cls :=
  let c := if bitOf (d.clsTable r p 0) 511 then chainTables d r p view first 8 0 c else c
  (List.range 8).foldl (fun c t =>
    if bitOf (d.clsTable r p t) 511 && !(c.keys.any (fun k => k.1 == t)) then
      let (key, miss) := buildKey (view c.meta') (d.clsTable r p t)
      { c with keys := c.keys ++ [(t, key)], absent := c.absent || miss }
    else c) c

/-- The program entry and lookup set in force (R282, R281). -/
def Cls.entry (c : Cls) (header : Nat) : Nat × Nat :=
  match c.prog with
  | some e => e
  | none => (bitsOf header 16 0, bitsOf header 22 17)

/-- The 64-byte classification result (R281). -/
def Cls.result (c : Cls) (header : Nat) : List Byte :=
  let (entry, lset) := c.entry header
  c.meta'.flatMap (bytesLE 4) ++ bytesLE 4 c.dest ++ bytesLE 4 (lset * 2 ^ 17 + entry)
    ++ bytesLE 2 (if c.narrowed then c.flowHash else 0)
    ++ bytesLE 1 ((if c.narrowed then 64 else 0) + c.profile)
    ++ bytesLE 1 ((if c.absent then 2 else 0) + (if c.prog.isNone then 1 else 0))
    ++ bytesLE 1 (c.mirrorA.getD 0) ++ bytesLE 1 (c.mirrorB.getD 0)
    ++ bytesLE 1 (c.front.length * 4 + c.learn)
    ++ bytesLE 1 ((c.hits.map (fun h => 2 ^ h.1)).sum)
    ++ (List.range 8).flatMap (fun t => match c.hits.find? (·.1 == t) with
        | some h => bytesLE 2 (2 ^ 15 + h.2) | none => bytesLE 2 0)

end Sys2Proof.Machine
end

