-- ==== Sys2Proof/Machine/Tables.lean ====
section
/-!
DEFINITION. Lookup tables (R299–R345): descriptors, storage, lookups, counters and meters, mutation records and their application,
staging, repair, learning and aging.
-/

namespace Sys2Proof.Machine

/-! ### Descriptors in effect (R300, R353) -/

/-- A descriptor that names no table. -/
def noTable : Nat → TableDesc := fun _ => ⟨0, 0, 0, 0⟩

namespace TableDesc

def kind (t : TableDesc) : Nat := fieldOf t.type 28 4
def place (t : TableDesc) : Nat := fieldOf t.type 27 1
def keyLen (t : TableDesc) : Nat := fieldOf t.type 21 6
def dataLen (t : TableDesc) : Nat := fieldOf t.type 16 5
def progOk (t : TableDesc) : Bool := fieldOf t.type 15 1 == 1
def viewOf (t : TableDesc) : Nat := fieldOf t.type 0 8
def base (t : TableDesc) : Nat := fieldOf t.alloc 16 16
def size (t : TableDesc) : Nat := fieldOf t.alloc 0 16
def ageEn (t : TableDesc) : Bool := fieldOf t.age 31 1 == 1
def ageQ (t : TableDesc) : Nat := fieldOf t.age 26 5
def ageLimit (t : TableDesc) : Nat := fieldOf t.age 14 12

/-- A length rounded up to a multiple of 8. -/
def up8 (n : Nat) : Nat := (n + 7) / 8 * 8

/-- Storage per entry (R300, R302). -/
def slotSize (t : TableDesc) : Nat :=
  match t.kind with
  | 1 => if up8 t.keyLen + up8 t.dataLen + 8 ≤ 32 then 32 else 64
  | 2 => 16 | 4 => 24 | 5 => 48 | 6 => 128 | 7 => 64 | 8 => up8 t.dataLen | 9 => 16 | 10 => 32 | _ => 0

/-- Bytes of the allocation: units of 64 KiB of table SRAM, 1 MiB of HBM, or 1,024 rows of the ternary match array (R311). -/
def allocBytes (t : TableDesc) : Nat :=
  if t.kind = 7 then t.size * 1024 * 64 else if t.place = 1 then t.size * 2 ^ 20 else t.size * 2 ^ 16

/-- Entries of the table (R300). -/
def entries (t : TableDesc) : Nat :=
  let n := if t.slotSize = 0 then 0 else t.allocBytes / t.slotSize
  match t.kind with
  | 1 => if t.place = 1 then min n 268435456 else n
  | 2 => min n 1048576
  | 6 => min n 65536
  | 8 => min n (2 ^ (8 * t.keyLen))
  | 9 | 10 => min n (2 ^ (8 * t.keyLen))
  | _ => n

/-- Whether the type is one of the hashed ones with a control word. -/
def hashed (t : TableDesc) : Bool := t.kind == 1 || t.kind == 2

/-- Whether the type is replicated shared lookup state that holds entries of its own (R301). -/
def replicated (t : TableDesc) : Bool := [1, 2, 4, 5, 6, 7, 8].contains t.kind

/-- Offset of the control word in a slot (R302, R304). -/
def ctlOff (t : TableDesc) : Nat := if t.kind = 2 then 8 else up8 t.keyLen + up8 t.dataLen

/-- Buckets of four slots: those of the whole allocation (R303). -/
def buckets (t : TableDesc) : Nat := if t.slotSize = 0 then 0 else t.allocBytes / t.slotSize / 4

/-- Slots that the scanner visits: every slot of every bucket (R343). -/
def slots (t : TableDesc) : Nat := t.buckets * 4

/-- The two candidate buckets of a key (R303). -/
def candidates (t : TableDesc) (key : List Byte) : Nat × Nat :=
  let seed := t.seed.toNat
  let n := t.buckets
  let h1 := indexHash seed key
  let h2 := indexHash (seed * 2 ^ 16 % 2 ^ 32 + seed / 2 ^ 16) key
  if n = 0 then (0, 0)
  else if h1 % n = h2 % n then (h1 % n, (h1 + 1) % n) else (h1 % n, h2 % n)

/-- The age quantum of a tick (R341). -/
def quantum (t : TableDesc) (tick : Nat) : Nat := tick / 2 ^ t.ageQ % 4096

end TableDesc

namespace Dev

/-- The descriptor of table `n` in effect in a region (R313); a number above 255 names none (R299). -/
def table (d : Dev) (r : Region) (n : Nat) : TableDesc :=
  if n ≤ 255 then Sparse.get noTable (d.g r).tables.inEffect n else noTable 0

/-- Change the table state of a region. -/
def modTables (d : Dev) (r : Region) (f : TableState → TableState) : Dev :=
  d.modR r (fun g => { g with tables := f g.tables })

/-- Change the commit state of a region. -/
def modCommit (d : Dev) (r : Region) (f : CommitState → CommitState) : Dev :=
  d.modR r (fun g => { g with commit := f g.commit })

/-- The fabric address of byte `off` of a table's storage (R75, R311). -/
def tableAddr (r : Region) (t : TableDesc) (off : Nat) : Nat :=
  r.val * 2 ^ 44 + (if t.place = 1 then t.base * 2 ^ 20 else 0xA0000000000 + t.base * 2 ^ 16) + off

/-- The line that holds byte `off` of a table's storage; a TCAM row is one line (R318). -/
def lineOf (t : TableDesc) (index off : Nat) : Nat := if t.kind = 7 then index else (index * t.slotSize + off) / 64

/-- Whether a line is bad in a region (R318). -/
def lineBad (d : Dev) (r : Region) (table line : Nat) : Bool :=
  (d.g r).tables.bad.any (fun b => b.table == table && b.line == line)

/-- Whether any line of a slot is bad. -/
def slotBad (d : Dev) (r : Region) (n : Nat) (t : TableDesc) (slot : Nat) : Bool :=
  (List.range ((t.slotSize + 63) / 64)).any (fun i => d.lineBad r n (lineOf t slot (i * 64)))

/-- Whether any line of a table is bad. -/
def tableBad (d : Dev) (r : Region) (n : Nat) : Bool := (d.g r).tables.bad.any (·.table == n)

/-- The prefixes of an LPM table, as keys with their lengths, in the order in which they came. -/
def lpmPrefixes (d : Dev) (r : Region) (n : Nat) : List (List Byte × Nat) :=
  ((d.g r).tables.lpm.filter (·.table == n)).map (fun e => (e.key, e.plen))

/-- The lines of a slot. -/
def slotLines (t : TableDesc) (slot : Nat) : List Nat :=
  ((List.range ((t.slotSize + 63) / 64)).map (fun i => lineOf t slot (i * 64))).dedup

/-- The lines of a table in HBM whose reading meets an uncorrectable word, among some lines (R318). -/
def poisonedLines (d : Dev) (r : Region) (t : TableDesc) (l : List Nat) : List Nat :=
  if t.place = 1 ∧ t.kind ≠ 7 then l.filter (fun i => d.anyPoison (tableAddr r t (i * 64)) 64) else []

/-- The key, data and control word of a slot (R302, R304). -/
def slotKey (d : Dev) (r : Region) (t : TableDesc) (slot : Nat) : List Byte :=
  d.bytes (tableAddr r t (slot * t.slotSize)) t.keyLen
def slotData (d : Dev) (r : Region) (t : TableDesc) (slot : Nat) : List Byte :=
  if t.kind = 2 then d.bytes (tableAddr r t (slot * 16 + 8)) 8
  else d.bytes (tableAddr r t (slot * t.slotSize + TableDesc.up8 t.keyLen)) t.dataLen
def slotCtl (d : Dev) (r : Region) (t : TableDesc) (slot : Nat) : Nat :=
  d.le (tableAddr r t (slot * t.slotSize + t.ctlOff)) 8

/-- The slots of a key's two candidate buckets, first bucket first (R303). -/
def candidateSlots (t : TableDesc) (key : List Byte) : List Nat :=
  let (a, b) := t.candidates key
  (List.range 4).map (a * 4 + ·) ++ (List.range 4).map (b * 4 + ·)

/-- The good slot that holds a key, if any (R303, R319). -/
def findSlot (d : Dev) (r : Region) (n : Nat) (t : TableDesc) (key : List Byte) : Option Nat :=
  (candidateSlots t key).find? (fun s => !d.slotBad r n t s && bitOf (d.slotCtl r t s) 63 && d.slotKey r t s == key)

/-- Whether a key's search reads a bad line. -/
def searchBad (d : Dev) (r : Region) (n : Nat) (t : TableDesc) (key : List Byte) : Bool :=
  (candidateSlots t key).any (d.slotBad r n t)

/-- The first free good slot of a key's buckets (R303, R334). -/
def freeSlot (d : Dev) (r : Region) (n : Nat) (t : TableDesc) (key : List Byte) : Option Nat :=
  (candidateSlots t key).find? (fun s => !d.slotBad r n t s && !bitOf (d.slotCtl r t s) 63)

/-- A TERN or TCAM entry (R306). -/
def ternAt (d : Dev) (r : Region) (n index : Nat) : Option TernEntry :=
  Sparse.get (fun _ => none) (d.g r).tables.tern (n * 2 ^ 32 + index)

/-- Whether an entry matches a key (R306). -/
def ternMatches (e : TernEntry) (key : List Byte) : Bool := ((ofBE key ^^^ ofBE e.value) &&& ofBE e.mask) == 0

/-- The lowest-numbered matching valid entry on a good line (R306, R319); entries are listed by rising index. -/
def ternFind (d : Dev) (r : Region) (n : Nat) (t : TableDesc) (key : List Byte) : Option (Nat × TernEntry) :=
  ((d.g r).tables.tern.filterMap (fun e =>
    if e.1 / 2 ^ 32 = n then e.2.map (fun x => (e.1 % 2 ^ 32, x)) else none)).find?
    (fun e => ternMatches e.2 key && !d.slotBad r n t e.1)

/-- Whether a prefix covers a key: VRF and the first `plen` bits of the address (R305). -/
def lpmCovers (e : LpmEntry) (key : List Byte) : Bool :=
  let bits := 8 * (key.length - 2)
  let a := ofBE (key.drop 2)
  let b := ofBE (e.key.drop 2)
  e.key.take 2 == key.take 2 && e.key.length == key.length && a / 2 ^ (bits - e.plen) == b / 2 ^ (bits - e.plen)

/-- The longest prefix that covers a key (R305). -/
def lpmFind (d : Dev) (r : Region) (n : Nat) (key : List Byte) : Option LpmEntry :=
  ((d.g r).tables.lpm.filter (fun e => e.table == n && lpmCovers e key)).foldl (fun best e =>
    match best with
    | some b => if b.plen < e.plen then some e else best
    | none => some e) none

/-- The line of an LPM table that holds a prefix (R914). -/
def lpmLine (d : Dev) (r : Region) (n : Nat) (key : List Byte) (plen : Nat) : Nat := Config.lpmLine (d.lpmPrefixes r n) key plen

/-- The lines that a search for a key of some prefix length reads in an LPM table, the line of the prefix that it finds among them: at most 8
in LPM4 and 16 in LPM6 (R914). -/
def lpmPath (d : Dev) (r : Region) (n : Nat) (key : List Byte) (plen : Nat) (found : Option LpmEntry) : List Nat :=
  (found.toList.map (fun e => d.lpmLine r n e.key e.plen) ++ Config.lpmReads (d.lpmPrefixes r n) key plen).take
    (if key.length = 6 then 8 else 16)

/-- The lines that a lookup of an LPM table reads. -/
def lpmLookupLines (d : Dev) (r : Region) (n : Nat) (key : List Byte) : List Nat :=
  d.lpmPath r n key (8 * (key.length - 2)) (d.lpmFind r n key)

/-- Whether a DIRECT entry is valid. -/
def directValid (d : Dev) (r : Region) (n index : Nat) : Bool :=
  Sparse.get (fun _ => false) (d.g r).tables.directValid (n * 2 ^ 32 + index)

end Dev

/-! ### Lookup results (R317) -/

/-- A lookup result. -/
structure LookupResult where
  hit : Bool
  errLine : Bool
  forcedMiss : Bool
  errKey : Bool
  aux : Nat
  table : Nat
  index : Nat
  data : List Byte
deriving DecidableEq, Repr

/-- A miss on a table. -/
def LookupResult.miss (table : Nat) (errLine errKey : Bool) : LookupResult :=
  { hit := false, errLine, forcedMiss := false, errKey, aux := 0, table, index := 0, data := [] }

/-- The 32 bytes of a result (R317). -/
def LookupResult.bytes (x : LookupResult) : List Byte :=
  bytesLE 1 (128 + (if x.hit then 64 else 0) + (if x.errLine then 32 else 0) + (if x.forcedMiss then 16 else 0)
      + (if x.errKey then 8 else 0))
    ++ bytesLE 1 x.aux ++ bytesLE 2 (x.table % 4096) ++ bytesLE 4 x.index ++ padTo 24 x.data

/-! ### Meters (R309) -/

/-- A meter's marking: token counts in 1/256 byte and the colour. -/
structure Meter where
  cir : Nat
  pir : Nat
  cbs : Nat
  pbs : Nat
  tc : Nat
  tp : Nat
  last : Nat
  mode : Nat
deriving DecidableEq, Repr

/-- What a bucket of a meter holds at most, in 1/256 byte: its burst, as far as its 32 bits reach (R309). -/
def bucketCap (burst : Nat) : Nat := min (burst * 256) (2 ^ 32 - 1)

/-- Refill a meter for the ticks since its last update (RFC 2697: overflow of the committed bucket goes to the excess bucket;
RFC 2698: each bucket has its own rate). -/
def Meter.refill (m : Meter) (tick : Nat) : Meter :=
  let dt := (tick + 2 ^ 32 - m.last) % 2 ^ 32
  if m.mode % 4 = 1 then
    { m with tc := min (bucketCap m.cbs) (m.tc + m.cir * dt), tp := min (bucketCap m.pbs) (m.tp + m.pir * dt), last := tick % 2 ^ 32 }
  else
    let sum := m.tc + m.cir * dt
    { m with tc := min (bucketCap m.cbs) sum, tp := min (bucketCap m.pbs) (m.tp + (sum - bucketCap m.cbs)), last := tick % 2 ^ 32 }

/-- Mark a packet of `bytes` bytes that arrives with colour `pre` (green for a colour-blind meter): 0 green, 1 yellow, 2 red. -/
def Meter.mark (m : Meter) (bytes pre : Nat) : Meter × Nat :=
  let b := bytes * 256
  if m.mode % 4 = 1 then
    if pre = 2 ∨ m.tp < b then (m, 2)
    else if pre = 1 ∨ m.tc < b then ({ m with tp := m.tp - b }, 1)
    else ({ m with tp := m.tp - b, tc := m.tc - b }, 0)
  else
    if pre = 0 ∧ b ≤ m.tc then ({ m with tc := m.tc - b }, 0)
    else if pre ≤ 1 ∧ b ≤ m.tp then ({ m with tp := m.tp - b }, 1)
    else (m, 2)

namespace Dev

/-- Read a meter (R309). -/
def meterAt (d : Dev) (a : Nat) : Meter :=
  { cir := d.le a 4, pir := d.le (a + 4) 4, cbs := d.le (a + 8) 4, pbs := d.le (a + 12) 4, tc := d.le (a + 16) 4,
    tp := d.le (a + 20) 4, last := d.le (a + 24) 4, mode := d.le (a + 28) 1 }

/-- Write the parts of a meter that marking and refill change (R309). -/
def setMeter (d : Dev) (a : Nat) (m : Meter) : Dev :=
  ((d.setLE (a + 16) 4 m.tc).setLE (a + 20) 4 m.tp).setLE (a + 24) 4 m.last

/-! ### Bad lines -/

/-- Record the number of bad lines (R348). -/
def countBad (d : Dev) (r : Region) : Dev := d.setFld (RGN_TBL_REPAIR_bad_lines r.val) (d.g r).tables.bad.length

/-- Whether a table's lines are repaired or rewritten when they become bad; those of counters and meters are zeroed (R320). -/
def mended (d : Dev) (r : Region) (table : Nat) : Bool := (d.table r table).kind != 9 && (d.table r table).kind != 10

/-- A line becomes bad in a region (R318–R320, R326, R349, R350). -/
def markBad (d : Dev) (r : Region) (table line : Nat) : Dev :=
  if d.lineBad r table line then d
  else
    let d := (d.modTables r (fun t => { t with bad := t.bad ++ [⟨table, line, (d.g r).tick⟩] })).countBad r
    let d := (d.setReg (RGN_TBL_BADLINE r.val) (BitVec.ofNat 32 (line % 2 ^ 29))).setReg (RGN_TBL_BADTABLE r.val)
      (BitVec.ofNat 32 (table % 256))
    let d := d.err (RGN_TBL_ERR_parity r.val) r 0x141
    if (d.g r).mode = .regional ∧ d.mended r table = true then d.raise r 0x144 else d

/-- A line becomes good again. -/
def markGood (d : Dev) (r : Region) (table line : Nat) : Dev :=
  (d.modTables r (fun t => { t with bad := t.bad.filter (fun b => !(b.table == table && b.line == line)) })).countBad r

/-- The repair sibling of a region (R321): the region whose number differs in bit 2, or the lowest-numbered other Mladus region that
is committing and neither absent, fenced nor recovering. -/
def sibling (d : Dev) (r : Region) : Option Region :=
  let fit (q : Region) : Bool := d.mladus q.val && d.committing q.val && !d.absent q.val && !d.fenced q.val
    && !d.recovering q.val
  let q := R ((r.val + 4) % 8)
  if fit q then some q else (d.others r).find? fit

/-- The modes in which damaged lines are repaired from a sibling (R321, R326). -/
def repairsIn : Mode → Bool
  | .strict | .extended | .lean | .drain => true
  | _ => false

/-- Ask for the repair of a line (R321), in the modes that repair from a sibling; a counter's or a meter's is not repaired (R320). -/
def requestRepair (d : Dev) (r : Region) (table line : Nat) : Dev :=
  if repairsIn (d.g r).mode && d.mended r table then
    match d.sibling r with
    | some q => d.send r.val q.val (.repairReq table line r.val (d.g r).tick)
    | none => d
  else d

/-- Ask for the repair of every line that is held bad, as a region does once every tick (R321, R325). -/
def requestRepairs (d : Dev) (r : Region) : Dev := d.each (d.g r).tables.bad (fun b d => d.requestRepair r b.table b.line)

/-! ### Lookups -/

/-- Record a hit for aging (R342): the hit bit, and a notice to the owner when another region owns the entry. -/
def recordHit (d : Dev) (r : Region) (n : Nat) (t : TableDesc) (slot : Nat) : Dev :=
  if !t.ageEn then d
  else
    let key := n * 2 ^ 32 + slot
    let d := d.modTables r (fun s => { s with hits := Sparse.set (fun _ => false) s.hits key true })
    let owner := bitsOf (d.slotCtl r t slot) 60 58
    let q := t.quantum (d.g r).tick
    let said := ((d.g r).tick / 2 ^ t.ageQ + 1, d.slotKey r t slot)
    if owner ≠ r.val ∧ (d.g r).mode.isRun ∧ Sparse.get (fun _ => (0, [])) (d.g r).tables.noticed key ≠ said then
      (d.modTables r (fun s => { s with noticed := Sparse.set (fun _ => (0, [])) s.noticed key said })).send r.val owner
        (.hitNotice n slot q)
    else d

/-- A hashed lookup (R303, R319): the slot found, or a miss. -/
def hashedLookup (d : Dev) (r : Region) (n : Nat) (t : TableDesc) (key : List Byte) : LookupResult :=
  match d.findSlot r n t key with
  | some s => { hit := true, errLine := false, forcedMiss := false, errKey := false, aux := 0, table := n, index := s,
                data := d.slotData r t s }
  | none => .miss n (d.searchBad r n t key) false

/-- A COUNTER lookup (R308, R320). -/
def counterLookup (d : Dev) (r : Region) (n : Nat) (t : TableDesc) (i length : Nat) : Dev × LookupResult :=
  let a := tableAddr r t (i * 16)
  if t.entries ≤ i then (d, .miss n false false)
  else if d.slotBad r n t i then
    (((d.zero (tableAddr r t (i * 16 / 64 * 64)) 64).markGood r n (lineOf t i 0)).err (RGN_TBL_ERR_bank_parity r.val) r 0x145,
      .miss n true false)
  else
    let p := (d.le a 8 + 1) % 2 ^ 64
    let b := (d.le (a + 8) 8 + length) % 2 ^ 64
    ((d.setLE a 8 p).setLE (a + 8) 8 b,
      { hit := true, errLine := false, forcedMiss := false, errKey := false, aux := 0, table := n, index := i,
        data := bytesLE 8 p ++ bytesLE 8 b })

/-- A METER lookup (R309, R320); the colour a packet brings to a colour-aware meter is left open, a primary lookup is colour-blind. -/
def meterLookup (d : Dev) (r : Region) (n : Nat) (t : TableDesc) (i length : Nat) (primary : Bool) :
    Dev × LookupResult :=
  let a := tableAddr r t (i * 32)
  if t.entries ≤ i then (d, .miss n false false)
  else if d.slotBad r n t i then
    (((d.zero (tableAddr r t (i * 32 / 64 * 64)) 64).markGood r n (lineOf t i 0)).err (RGN_TBL_ERR_bank_parity r.val) r 0x145,
      .miss n true false)
  else
    let m := (d.meterAt a).refill (d.g r).tick
    let pre := if m.mode / 4 % 2 = 1 && !primary then d.freeNat 40 % 3 else 0
    let (m', colour) := m.mark length pre
    (d.setMeter a m', { hit := true, errLine := false, forcedMiss := false, errKey := false, aux := colour, table := n,
                        index := i, data := [] })

/-- A lookup on table `n` with a key (R305–R309, R315, R319, R914): `length` is the byte length charged; `primary` as issued by a front-end. -/
def lookup (d : Dev) (r : Region) (n : Nat) (key : List Byte) (length : Nat) (primary : Bool) : Dev × LookupResult :=
  let t := d.table r n
  let d := d.event r 0x120 n
  if t.kind = 0 ∨ key.length ≠ t.keyLen then (d, .miss n false true)
  else if d.stackFailed r.val ∧ (if t.kind = 3 then (d.table r t.viewOf).place else t.place) = 1 then (d, .miss n true false)
  else
    let (d, x) : Dev × LookupResult := match t.kind with
      | 1 =>
        let x := d.hashedLookup r n t key
        (if x.hit then d.recordHit r n t x.index else d, x)
      | 2 => (d, d.hashedLookup r n t key)
      | 3 =>
        let m := d.table r t.viewOf
        (d, { d.hashedLookup r t.viewOf m key with table := n })
      | 4 | 5 =>
        match d.lpmFind r n key with
          | some e =>
            if d.lineBad r n (d.lpmLine r n e.key e.plen) then (d, .miss n true false)
            else (d, { hit := true, errLine := false, forcedMiss := false, errKey := false, aux := e.plen, table := n,
                       index := 0, data := e.data })
          | none => (d, .miss n ((d.lpmLookupLines r n key).any (d.lineBad r n)) false)
      | 6 | 7 => match d.ternFind r n t key with
          | some (i, e) => (d, { hit := true, errLine := false, forcedMiss := false, errKey := false, aux := 0, table := n,
                                 index := i, data := e.data })
          | none => (d, .miss n (d.tableBad r n) false)
      | 8 =>
        let i := ofBE key
        if t.entries ≤ i then (d, .miss n false false)
        else if d.slotBad r n t i then (d, .miss n true false)
        else if d.directValid r n i then
          (d, { hit := true, errLine := false, forcedMiss := false, errKey := false, aux := 0, table := n, index := i,
                data := d.bytes (tableAddr r t (i * t.slotSize)) t.dataLen })
        else (d, .miss n false false)
      | 9 => d.counterLookup r n t (ofBE key) length
      | _ => d.meterLookup r n t (ofBE key) length primary
    (if x.hit then d.event r 0x121 n else d, x)

end Dev

end Sys2Proof.Machine
end

