-- ==== Sys2Proof/Machine/Records.lean ====
section
/-!
DEFINITION. Mutation records (R98–R121, R322–R345): their validity, staging, order, application to a replica and outcomes.
-/

namespace Sys2Proof.Machine

/-! ### A record and its table -/

/-- The table a record addresses: a MAC_SRC record addresses its aliased MAC table (R329). -/
def Dev.recTable (d : Dev) (r : Region) (m : Mut) : Nat × TableDesc :=
  let t := d.table r m.table
  if t.kind = 3 then (t.viewOf, d.table r t.viewOf) else (m.table, t)

end Sys2Proof.Machine

namespace Sys2Proof.Mut

open Sys2Proof.Machine

/-- The mask's length: TERN and TCAM carry a mask of the key's length (R327). -/
def maskLen (m : Mut) (t : TableDesc) : Nat := if t.kind = 6 ∨ t.kind = 7 then m.keyLen else 0

def key (m : Mut) : List Byte := sliceOf m.payload 0 m.keyLen
def mask (m : Mut) (t : TableDesc) : List Byte := sliceOf m.payload m.keyLen (m.maskLen t)
def data (m : Mut) (t : TableDesc) : List Byte := sliceOf m.payload (m.keyLen + m.maskLen t) m.dataLen

/-- The data length that an operation carries on a table (R327). -/
def dataFor (op : Nat) (t : TableDesc) : Nat :=
  if op = 1 ∨ op = 2 ∨ op = 3 then (if t.kind = 2 then 8 else t.dataLen) else 0

/-- Whether an operation applies to a table type (R328). -/
def opFits (op : Nat) (t : TableDesc) : Bool :=
  match op with
  | 1 | 2 => [1, 2, 4, 5].contains t.kind
  | 3 | 4 => t.replicated
  | 5 | 6 => t.kind == 1 || t.kind == 2
  | _ => false

/-- Whether the bits of an LPM address beyond its prefix are zero, and the prefix length lies in its range (R327, R330). -/
def prefixOk (m : Mut) (t : TableDesc) : Bool :=
  if t.kind = 4 ∨ t.kind = 5 then
    let bits := if t.kind = 4 then 32 else 128
    m.plen ≤ bits && ofBE (m.key.drop 2) % 2 ^ (bits - m.plen) == 0
  else m.plen == 0

/-- Whether the image of a MAC control word in a record's data keeps to R913, and the bridge domain and the port to R304. -/
def macOk (m : Mut) (t : TableDesc) : Bool :=
  t.kind != 2 || (ofBE (sliceOf m.key 0 2) < 2 ^ 14
    && (m.dataLen == 0 || (ofBE (m.data t) / 2 ^ 46 == 0 && ofBE (m.data t) / 2 ^ 32 % 2 ^ 7 == 0
      && decide (ofBE (m.data t) / 2 ^ 39 % 2 ^ 7 ≤ 0x41))))

/-- Whether a record's source is a host (R108): host ring or mailbox. -/
def fromHost (m : Mut) : Bool := m.source == 4 || m.source == 5

/-- The place of a record in the commit order, as one number: class, key-2 tick and time, port, region, sequence (R108). -/
def rank (m : Mut) : Nat :=
  ((((if m.fromHost then 0 else 1) * 16 + (15 - m.stampAge)) * 2 ^ 13 + m.time) * 128 + m.port) * 1024 + m.region * 128 + m.seq

end Sys2Proof.Mut

namespace Sys2Proof.Machine

/-- Whether a record issued by software keeps its table's definition (R328, R330, R913); a NOP and a REPAIR never pass. -/
def Dev.recordOk (d : Dev) (r : Region) (m : Mut) (reserved : Nat) : Bool :=
  let t := (d.recTable r m).2
  reserved == 0 && m.table ≤ 255 && Mut.opFits m.op t
    && m.keyLen == (if t.kind = 8 then 0 else t.keyLen) && m.dataLen == Mut.dataFor m.op t
    && m.extCount ≤ 2 && m.keyLen + m.maskLen t + m.dataLen ≤ 16 + 32 * m.extCount
    && m.prefixOk t && m.macOk t
    && (t.hashed || (!m.isStatic && !m.ageEn))
    && (match t.kind with
        | 6 | 7 | 8 => m.index < t.entries
        | _ => if m.op = 6 then m.index < 4096 else m.index == 0)

/-- Whether two records address the same entry (R329). -/
def Dev.sameEntry (d : Dev) (r : Region) (a b : Mut) : Bool :=
  let (n, t) := d.recTable r a
  n == (d.recTable r b).1 &&
    match t.kind with
    | 1 | 2 => a.key == b.key
    | 4 | 5 => a.key == b.key && a.plen == b.plen
    | _ => a.index == b.index

/-! ### Commit order (R108) -/

/-- Insert a record at its place. -/
def insertRec (m : Mut) : List Mut → List Mut
  | [] => [m]
  | a :: t => if m.rank < a.rank then m :: a :: t else a :: insertRec m t

/-- Records in commit order. -/
def commitOrder : List Mut → List Mut
  | [] => []
  | m :: t => insertRec m (commitOrder t)

/-- The check code over records in staging order (R102). -/
def recordsCode (l : List Mut) : Word := BitVec.ofNat 32 (crc32cOf (l.flatMap Mut.bytes))

/-! ### Applying one record to a replica (R328) -/

/-- One change of a replica. -/
def Dev.applyOp (d : Dev) (r : Region) : TabOp → Dev
  | .bytes a b => d.setBytes a b
  | .tern n i e => d.modTables r (fun t => { t with tern := Sparse.set (fun _ => none) t.tern (n * 2 ^ 32 + i) e })
  | .lpm e p => d.modTables r (fun t =>
      let rest := t.lpm.filter (fun x => !(x.table == e.table && x.key == e.key && x.plen == e.plen))
      { t with lpm := if p then rest ++ [e] else rest })
  | .direct n i v => d.modTables r (fun t => { t with directValid := Sparse.set (fun _ => false) t.directValid (n * 2 ^ 32 + i) v })
  | .good n l => d.markGood r n l

/-- Changes in order. -/
def Dev.applyOps (d : Dev) (r : Region) (ops : List TabOp) : Dev := ops.foldl (fun d o => d.applyOp r o) d

/-- What applying a record gives: its changes, its outcome, the slot or entry written, and whether it met lines it may not read. -/
structure Applied where
  ops : List TabOp
  code : Nat
  index : Nat
  bad : Bool
deriving DecidableEq, Repr

/-- The control word that a write gives an entry (R304, R338, R913). -/
def controlWord (t : TableDesc) (m : Mut) (tick : Nat) : Nat :=
  2 ^ 63 + (if m.isStatic then 2 ^ 62 else 0) + (if m.ageEn then 2 ^ 61 else 0) + m.owner % 8 * 2 ^ 58
    + t.quantum tick * 2 ^ 46
    + (if t.kind = 2 then ofBE (m.data t) % 2 ^ 46 / 2 ^ 39 * 2 ^ 39 + ofBE (m.data t) % 2 ^ 32 else 0)

/-- The bytes of a slot that holds a record's entry (R302). -/
def slotBytes (t : TableDesc) (m : Mut) (tick : Nat) : List Byte :=
  if t.kind = 2 then padTo 8 m.key ++ bytesLE 8 (controlWord t m tick)
  else padTo (TableDesc.up8 t.keyLen) m.key ++ padTo (TableDesc.up8 t.dataLen) (m.data t) ++ bytesLE 8 (controlWord t m tick)

namespace Dev

/-- Apply a record to an EXACT or MAC table (R303, R324, R328). A record is applied whatever made it: a learn that was staged before a
static entry became visible rewrites that entry, DESIGN CHOICE (log 135). -/
def applyHashed (d : Dev) (r : Region) (n : Nat) (t : TableDesc) (m : Mut) (tick : Nat) : Applied :=
  let found := d.findSlot r n t m.key
  let write (s code : Nat) : Applied := ⟨[.bytes (tableAddr r t (s * t.slotSize)) (slotBytes t m tick)], code, s, false⟩
  let setCtl (s v : Nat) : Applied :=
    ⟨[.bytes (tableAddr r t (s * t.slotSize + t.ctlOff)) (bytesLE 8 v)], 0, s, false⟩
  if d.searchBad r n t m.key then ⟨[], 0xB, 0, true⟩
  else match m.op, found with
    | 1, some _ => ⟨[], 7, 0, false⟩
    | 1, none => match d.freeSlot r n t m.key with
        | some s => write s 0
        | none => ⟨[], 8, 0, false⟩
    | 2, some s => write s 0
    | 3, some s => write s 0
    | 3, none => match d.freeSlot r n t m.key with
        | some s => write s 0
        | none => ⟨[], 8, 0, false⟩
    | 4, some s => setCtl s (d.slotCtl r t s % 2 ^ 63)
    | 5, some s =>
      let c := d.slotCtl r t s
      setCtl s (c / 2 ^ 58 * 2 ^ 58 + t.quantum tick * 2 ^ 46 + c % 2 ^ 46)
    | 6, some s =>
      if bitsOf (d.slotCtl r t s) 57 46 = m.index then setCtl s (d.slotCtl r t s % 2 ^ 63) else ⟨[], 6, 0, false⟩
    | _, _ => ⟨[], 6, 0, false⟩

/-- Apply a record to an LPM table (R305, R324, R328, R914): which lines it reads is left open. -/
def applyLpm (d : Dev) (r : Region) (n : Nat) (t : TableDesc) (m : Mut) : Applied :=
  let present := (d.g r).tables.lpm.any (fun e => e.table == n && e.key == m.key && e.plen == m.plen)
  let room := ((d.g r).tables.lpm.filter (fun e => e.table == n)).length < t.entries
  let e : LpmEntry := ⟨n, m.key, m.plen, m.data t⟩
  if (d.lpmPath r n m.key m.plen none).any (d.lineBad r n) || d.lineBad r n (d.lpmLine r n m.key m.plen) then ⟨[], 0xB, 0, true⟩
  else match m.op with
    | 1 => if present then ⟨[], 7, 0, false⟩ else if room then ⟨[.lpm e true], 0, 0, false⟩ else ⟨[], 8, 0, false⟩
    | 2 => if present then ⟨[.lpm e true], 0, 0, false⟩ else ⟨[], 6, 0, false⟩
    | 3 => if present || room then ⟨[.lpm e true], 0, 0, false⟩ else ⟨[], 8, 0, false⟩
    | _ => if present then ⟨[.lpm e false], 0, 0, false⟩ else ⟨[], 6, 0, false⟩

/-- Apply a record to a TERN or TCAM table (R306, R324, R328). -/
def applyTern (d : Dev) (r : Region) (n : Nat) (t : TableDesc) (m : Mut) : Applied :=
  if t.kind = 6 ∧ d.slotBad r n t m.index then ⟨[], 0xB, 0, true⟩
  else if m.op = 3 then ⟨[.tern n m.index (some ⟨m.key, m.mask t, m.data t⟩)], 0, m.index, false⟩
  else if (d.ternAt r n m.index).isSome then ⟨[.tern n m.index none], 0, m.index, false⟩
  else ⟨[], 6, 0, false⟩

/-- Apply a record to a DIRECT table (R307, R328). -/
def applyDirect (d : Dev) (r : Region) (n : Nat) (t : TableDesc) (m : Mut) : Applied :=
  if m.op = 3 then
    ⟨[.bytes (tableAddr r t (m.index * t.slotSize)) (padTo t.slotSize (m.data t)), .direct n m.index true], 0, m.index, false⟩
  else if d.directValid r n m.index then ⟨[.direct n m.index false], 0, m.index, false⟩
  else ⟨[], 6, 0, false⟩

/-- Apply a record to the replica that `d` shows (R328). -/
def applyRecord (d : Dev) (r : Region) (m : Mut) (tick : Nat) : Applied :=
  let (n, t) := d.recTable r m
  if t.place = 1 ∧ d.stackFailed r.val then ⟨[], 0xB, 0, false⟩
  else match t.kind with
  | 1 | 2 => d.applyHashed r n t m tick
  | 4 | 5 => d.applyLpm r n t m
  | 6 | 7 => d.applyTern r n t m
  | 8 => d.applyDirect r n t m
  | _ => ⟨[], 6, 0, false⟩

/-- The lines that a record reads: those of both candidate buckets, of the path of its prefix, or of the indexed entry (R324, R914). -/
def recordLines (d : Dev) (r : Region) (m : Mut) : List (Nat × Nat) :=
  let (n, t) := d.recTable r m
  let lines := match t.kind with
    | 1 | 2 => (candidateSlots t m.key).flatMap (slotLines t)
    | 4 | 5 => d.lpmPath r n m.key m.plen none ++ [d.lpmLine r n m.key m.plen]
    | 6 | 7 | 8 => slotLines t m.index
    | _ => []
  (lines.map (fun l => (n, l))).dedup

/-! ### Outcomes (R112) -/

/-- The learning block of a global port: local ports 0–7, or 8 for host-injected packets (R354). -/
def learnBlock (port : Nat) : Nat := if port = 0x40 ∨ port = 0x41 then 8 else port % 8

/-- Count one in a learning counter, raising its source when it rises from zero (R354, R355). -/
def countLearn (d : Dev) (r : Region) (f : Fld) (src : Option Nat) : Dev :=
  let was := d.fld f
  let d := d.addSat f 1
  match src with
  | some n => if was = 0 then d.raise r n else d
  | none => d

/-- Record an outcome of a record that region `r` staged: it is counted at once, and reported at the shutter `visible` (R112). -/
def outcome (d : Dev) (r : Region) (i : Issuer) (code visible index : Nat) : Dev :=
  let d := d.modCommit r (fun c => { c with outcomes := c.outcomes ++ [⟨i, code, visible, index⟩] })
  let d := d.event r 0x126 code
  let d := match i with
    | .learn p => if code = 8 then d.countLearn r (RGN_LEARN_FULL_count r.val (learnBlock p)) (some 0x148) else d
    | _ => d
  if code = 1 then d.err (RGN_COMMIT_ERR_superseded r.val) r 0x3E9 else d

/-! ### Staging (R98–R101) -/

/-- The regions that receive the commit records of region `r` (R101). -/
def committers (d : Dev) (r : Region) : List Region :=
  (List.finRange 8).filter (fun q => q != r && d.committing q.val && !d.fenced q.val)

/-- Stage a mutation, or refuse it for want of a slot (R98–R101); in REGIONAL a hardware record is not sent (R135). -/
def stage (d : Dev) (r : Region) (m : Mut) (i : Issuer) : Dev × Bool :=
  let st := (d.g r).commit.staged
  let host := m.fromHost
  let hw := (st.filter (fun x => !x.mu.fromHost)).length
  if 128 ≤ st.length ∨ (!host ∧ 128 - d.fld (RGN_COMMIT_CTL_host_reserve r.val) ≤ hw) then
    (d.err (RGN_COMMIT_ERR_stage_full r.val) r 0x3E8, false)
  else
    let m := { m with region := r.val, seq := st.length }
    let d := (d.modCommit r (fun c => { c with staged := c.staged ++ [⟨m, i⟩] })).setFld (RGN_STAGE_STAT_staged r.val) (st.length + 1)
    let d := d.event r 0x125 m.source
    (if (d.g r).mode = .regional ∧ !host then d else d.sendAll r.val (d.committers r) (.mutRecord (d.g r).tick m), true)

/-- Replace a staged record in its slot and send it again (R101, R345). -/
def restage (d : Dev) (r : Region) (seq : Nat) (m : Mut) : Dev :=
  let m := { m with region := r.val, seq }
  let d := d.modCommit r (fun c => { c with staged := c.staged.map (fun x => if x.mu.seq = seq then { x with mu := m } else x) })
  if (d.g r).mode = .regional then d else d.sendAll r.val (d.committers r) (.mutRecord (d.g r).tick m)

/-- The key-2 fields of a record that arises in the current tick at `time` region clocks (R108, R327). -/
def nowFields (m : Mut) (source port time : Nat) : Mut := { m with source, port, stampAge := 0, time := time % 8192 }

/-! ### Direct writes (R55, R116, R117) -/

/-- The lines that the changes of a record write over, as becoming good with them (R326): those of the slot or entry that an INSERT, UPDATE or
UPSERT writes, or the line of its prefix. A part of a line that is written counts for all of it, DESIGN CHOICE (log 136). -/
def coverOps (d : Dev) (r : Region) (m : Mut) (a : Applied) : List TabOp :=
  let (n, t) := d.recTable r m
  if a.ops = [] ∨ 3 < m.op then []
  else match t.kind with
    | 1 | 2 | 6 | 7 | 8 => (slotLines t a.index).map (.good n ·)
    | 4 | 5 => [.good n (d.lpmLine r n m.key m.plen)]
    | _ => []

/-- The part with the bad marks of a table left out of one region, as a write that need not read sees it. -/
def ignoringBad (d : Dev) (r : Region) (n : Nat) : Dev :=
  d.modTables r (fun t => { t with bad := t.bad.filter (fun b => b.table != n) })

/-- The replica as it will be when the direct writes that wait for the next shutter are done (R116). -/
def withDirect (d : Dev) (r : Region) : Dev := d.applyOps r ((d.g r).commit.directOps.map (·.2))

/-- What a direct write of a record changes in a region (R55, R326): it sees the direct writes before it, and no bad mark. -/
def directChange (d : Dev) (q : Region) (m : Mut) : Applied :=
  let a := ((d.withDirect q).ignoringBad q (d.recTable q m).1).applyRecord q m (d.g q).tick
  { a with ops := a.ops ++ d.coverOps q m a }

/-- Whether a direct write that reaches a region now is held for its shutter: the tick before was a run mode's (R117). -/
def holdsDirect (d : Dev) (q : Region) : Bool := (d.g q).commit.lastMode.isRun

/-- Write one replica directly (R55): the change shows at once, or from the next shutter where `later` holds (R116). A write that is held
(R117) waits as its record, and its outcome goes to `i` once it is performed. -/
def directWrite (d : Dev) (q : Region) (m : Mut) (later : Bool) (i : Option Issuer) : Dev × Applied :=
  let at' := ((d.g q).tick + 1) % 2 ^ 48
  if d.holdsDirect q then (d.modCommit q (fun c => { c with directHeld := c.directHeld ++ [(at', m, i)] }), ⟨[], 0, 0, false⟩)
  else
    let a := d.directChange q m
    if later then (d.modCommit q (fun c => { c with directOps := c.directOps ++ a.ops.map (fun o => (at', o)) }), a)
    else (d.applyOps q a.ops, a)

/-- Write every Mladus replica directly; the answer is that of region `r`, and so is the outcome of a write that is held. -/
def directAll (d : Dev) (r : Region) (m : Mut) (later : Bool) (i : Issuer) : Dev × Applied :=
  d.mladusRegions.foldl (fun acc q =>
    let (d', a) := acc.1.directWrite q m later (if q = r then some i else none)
    (d', if q = r then a else acc.2)) (d, ⟨[], 6, 0, false⟩)

/-! ### Commit (R106–R111, R121–R324) -/

/-- Make a fence of a region due at its next shutter, for a cause of R857; a cause already due stands. -/
def dueFence (d : Dev) (r : Region) (cause : Nat) : Dev :=
  d.modCommit r (fun c => { c with fenceDue := if c.fenceDue = 0 then cause else c.fenceDue })

/-- The copies that a region holds of another region's records of a tick, in staging order (R101): for each sequence the last. -/
def copiesOf (d : Dev) (r : Region) (tick q : Nat) : List Mut :=
  let l := ((d.g r).commit.copies.filter (fun c => c.tick == tick && c.mu.region == q)).map (·.mu)
  (List.range 128).filterMap (fun s => (l.filter (·.seq == s)).getLast?)

/-- Whether a region holds every record that a commit lists, with its code (R111). -/
def holdsAll (d : Dev) (r : Region) (c : Commit) : Bool :=
  c.parts.all (fun p =>
    let l := d.copiesOf r c.tick p.region
    l.length == p.count && recordsCode l == p.code)

/-- The records of a commit, merged in commit order (R106, R108). -/
def merged (d : Dev) (r : Region) (c : Commit) : List Mut :=
  commitOrder (c.parts.flatMap (fun p => d.copiesOf r c.tick p.region))

/-- Split off the records that a record earlier in commit order supersedes (R107). -/
def supersede (d : Dev) (r : Region) : List Mut → List Mut → List Mut × List Mut
  | _, [] => ([], [])
  | kept, m :: t =>
    if kept.any (fun k => d.sameEntry r k m) then
      let (a, b) := d.supersede r kept t
      (a, m :: b)
    else
      let (a, b) := d.supersede r (kept ++ [m]) t
      (m :: a, b)

/-- Whether damaged lines of a region are repaired from a sibling in its mode (R321, R326). -/
def repairs (d : Dev) (r : Region) : Bool := repairsIn (d.g r).mode

/-- Whether the records that a region applies now keep to the rule of R324: they were staged in a mode that repairs (R115). -/
def repairedThen (d : Dev) (r : Region) : Bool := repairsIn (d.g r).commit.lastMode

/-- The issuer of a record this region staged. -/
def issuerOf (d : Dev) (r : Region) (m : Mut) : Option Issuer :=
  (((d.g r).commit.previous ++ (d.g r).commit.staged).find? (fun x => x.mu == m)).map (·.issuer)

/-- Install the image of a REPAIR record (R323); TERN, TCAM and LPM contents lie in structures of their own and come with it. -/
def repairOps (d : Dev) (r : Region) (m : Mut) : List TabOp :=
  let t := d.table r m.table
  if t.kind = 1 ∨ t.kind = 2 ∨ t.kind = 8 then [.bytes (tableAddr r t (m.index * 64)) (sliceOf m.payload 0 64)] else []

/-- Whether a record is refused for bad lines by marking more of them: one on an EXACT or MAC table (R324). -/
def spreads (d : Dev) (r : Region) (m : Mut) : Bool := (d.recTable r m).2.hashed

/-- A record that would read a bad line (R324): every line of its buckets is bad from now on, and its repair is asked for; one on an LPM or
TERN table makes the region due for a fence. -/
def badRecord (d : Dev) (r : Region) (m : Mut) : Dev :=
  if d.spreads r m then (d.recordLines r m).foldl (fun d l => (d.markBad r l.1 l.2).requestRepair r l.1 l.2) d
  else (d.err (RGN_TBL_ERR_repair_fence r.val) r 0x142).dueFence r 0x05

/-- The marks alone, in the view of the replica that the records after it are applied to. -/
def badView (w : Dev) (r : Region) (m : Mut) : Dev :=
  if w.spreads r m then (w.recordLines r m).foldl (fun w l => w.markBad r l.1 l.2) w else w

/-- The lines of a record that reading finds uncorrectable become bad (R318). -/
def meetErrors (d : Dev) (r : Region) (m : Mut) : Dev :=
  let (n, t) := d.recTable r m
  (d.poisonedLines r t ((d.recordLines r m).map (·.2))).foldl (fun d l => (d.markBad r n l).requestRepair r n l) d

/-- Note the record that last wrote an entry (R138). -/
def noteWrite (d : Dev) (r : Region) (tick : Nat) (m : Mut) : Dev :=
  d.modCommit r (fun c => { c with written := c.written.filter (fun w => !(d.sameEntry r w.mu m)) ++ [⟨tick, m⟩] })

/-- Apply records in order: `w` shows the replica as the records before have left it; the changes and outcomes are collected. In REGIONAL,
where lines are not repaired, a record that would read a bad line is applied as if the line were good, DESIGN CHOICE (log 137). -/
def applyAll (r : Region) (tick visible : Nat) : Dev → Dev → List TabOp → List Mut → Dev × List TabOp
  | d, _, ops, [] => (d, ops)
  | d, w, ops, m :: t =>
    let d := d.meetErrors r m
    let w := w.meetErrors r m
    let v := if d.repairedThen r then w else w.ignoringBad r (d.recTable r m).1
    let a := v.applyRecord r m tick
    let d := if a.bad then d.badRecord r m else d
    let w := if a.bad then w.badView r m else w
    let more := a.ops ++ (if d.repairedThen r then [] else v.coverOps r m a)
    let d := if a.code = 0 then d.noteWrite r tick m else d
    let d := if m.region = r.val then
        match d.issuerOf r m with
        | some i => d.outcome r i a.code visible a.index
        | none => d
      else d
    applyAll r tick visible d (w.applyOps r more) (ops ++ more) t

/-- The replica as it will be when every overlay is visible. -/
def withOverlays (d : Dev) (r : Region) : Dev :=
  (d.g r).commit.overlays.foldl (fun d o => d.applyOps r o.ops) d

/-- Put a list of merged records into an overlay that shows at shutter `tick + 2` (R107, R109, R110, R323): a line that a REPAIR record
mends is good for the records that follow, and for lookups once the overlay shows. -/
def applyList (d : Dev) (r : Region) (tick : Nat) (l : List Mut) : Dev :=
  let visible := (tick + 2) % 2 ^ 48
  let mine := l.filter (fun m => m.source == 3 && m.owner == r.val && d.lineBad r m.table m.index)
  let rops := mine.flatMap (fun m => d.repairOps r m ++ [.good m.table m.index])
  let w := (d.withOverlays r).applyOps r rops
  let d := d.each mine (fun _ d => d.addSat (RGN_TBL_REPAIR_repaired r.val) 1)
  let (first, gone) := d.supersede r [] (l.filter (fun m => m.source != 3))
  let (d, ops) := applyAll r tick visible d w rops first
  let d := gone.foldl (fun d m => if m.region = r.val then
      match d.issuerOf r m with
      | some i => d.outcome r i 1 visible 0
      | none => d
    else d) d
  d.modCommit r (fun c => { c with overlays := c.overlays ++ [⟨visible, ops⟩] })

/-- The records of a tick that region `r` staged and whose outcome is still awaited. -/
def awaited (d : Dev) (r : Region) (tick : Nat) : List Staged :=
  if tick = ((d.g r).tick + 2 ^ 48 - 1) % 2 ^ 48 then (d.g r).commit.previous else []

/-- Report one outcome for every record of a tick that region `r` staged for the commit (R104, R112, R120, R121). -/
def outcomeAll (d : Dev) (r : Region) (tick code : Nat) : Dev :=
  (((d.awaited r tick).filter (fun x => x.mu.source != 3 && (x.mu.fromHost || (d.g r).commit.lastMode != .regional))).foldl
    (fun d x => d.outcome r x.issuer code ((d.g r).tick + 1) 0) d)

/-- The line image that a sibling sends (R322): the bytes of its replica; the layout of TERN and LPM lines is left open. -/
def lineImage (d : Dev) (q : Region) (n line : Nat) : List Byte :=
  let t := d.table q n
  let w := d.withOverlays q
  match t.kind with
  | 1 | 2 | 8 => w.bytes (tableAddr q t (line * 64)) 64
  | 7 => match w.ternAt q n line with
    | some e => padTo 20 e.value ++ padTo 20 e.mask ++ padTo 24 e.data
    | none => List.replicate 64 0
  | _ => bytesLE 64 (d.freeNat 50)

/-- Stage a REPAIR record for a line (R322, R323). -/
def stageRepair (d : Dev) (q : Region) (requester n line time : Nat) : Dev :=
  let m : Mut := { op := 7, source := 3, table := n, region := 0, seq := 0, port := 0x7E, stampAge := 0, time := time % 8192,
                   extCount := 2, keyLen := 0, dataLen := 0, plen := 0, isStatic := false, ageEn := false, owner := requester,
                   index := line, payload := padTo 80 (d.lineImage q n line) }
  (d.stage q m .repair).1

/-- Stage the repairs that waited for a commit (R322). -/
def stageWaiting (d : Dev) (r : Region) : Dev :=
  (d.g r).commit.repairWait.foldl (fun d w => d.stageRepair r w.2.2 w.1 w.2.1 (d.freeNat 51))
    (d.modCommit r (fun c => { c with repairWait := [] }))

/-- Apply a commit that a region holds whole (R106, R110), then stage the repairs that waited for it (R322). -/
def applyCommit (d : Dev) (r : Region) (c : Commit) : Dev :=
  let d := d.applyList r c.tick (d.merged r c)
  (d.modCommit r (fun s => { s with lastApplied := c.tick, held := s.held.filter (·.tick != c.tick) })).stageWaiting r

end Dev

end Sys2Proof.Machine
end

