-- ==== Sys2Proof/Machine/Commit.lean ====
section
/-!
DEFINITION. The commands of the commit (R98–R121, R135–R138, R322–R325, R342, R345).
-/

namespace Sys2Proof.Machine

namespace Dev

/-- Change what the anchor keeps. -/
def modA (d : Dev) (f : AnchorState → AnchorState) : Dev := { d with anchorSt := f d.anchorSt }

/-- Whether the anchor plays its role: its MP runs, and no condition of a fence was met at it (R867). -/
def anchorLive (d : Dev) : Bool := d.fld (RGN_MP_STAT_state d.A) == 0 && !d.anchorSt.lost

/-- The regions whose seals the anchor waits for (R103). -/
def sealers (d : Dev) : List Region :=
  (List.finRange 8).filter (fun q => d.committing q.val && !d.absent q.val && !d.fenced q.val)

/-- The seals that the anchor holds for a tick, in region order. -/
def sealsFor (d : Dev) (tick : Nat) : List SealRec :=
  (List.range 8).filterMap (fun q => d.anchorSt.seals.find? (fun x => x.region == q && x.tick == tick))

/-- The last tick for which a commit was broadcast (R146). -/
def lastCommit (d : Dev) : Nat := d.pair (CHP_COMMIT_LAST_LO d.A) (CHP_COMMIT_LAST_HI d.A)

/-- Broadcast the commit of a tick (R103, R105, R121): it goes out on every link of the anchor, and to the anchor's own region. The
first after a gap is journalled with the ticks that were lost (R876). -/
def broadcast (d : Dev) (tick : Nat) : Dev :=
  let last := d.lastCommit
  let c : Commit := ⟨tick, last, (d.sealsFor tick).map (fun x => ⟨x.region, x.count, x.code⟩)⟩
  let gap := d.anchorSt.takenOver && (last + 1) % 2 ^ 48 != tick
  let d := (d.setPair (CHP_COMMIT_LAST_LO d.A) (CHP_COMMIT_LAST_HI d.A) tick).modA (fun a =>
    { a with seals := a.seals.filter (·.tick != tick), takenOver := false,
             commits := (a.commits.filter (fun x => ticksAhead tick x.tick < 64)) ++ [c] })
  let d := d.when gap (fun d => (d.setOn (CHP_COMMIT_ERR_commit_gap d.A)).journalChip 0x0407 d.A 0
    (bytesLE 6 ((last + 1) % 2 ^ 48) ++ bytesLE 6 ((tick + 2 ^ 48 - 1) % 2 ^ 48)))
  ((d.send d.A d.A (.commit c)).flood d.anchor none (.commit c)).cevent 0x300 0

/-- Broadcast once every awaited seal of a tick is held (R103). -/
def broadcastIfWhole (d : Dev) (tick : Nat) : Dev :=
  if d.sealers.all (fun q => (d.sealsFor tick).any (·.region == q.val)) && tickAfter tick d.lastCommit then d.broadcast tick else d

/-- Replay the host commits that an absent region missed in REGIONAL (R137): the commits of the last 64 ticks with their records,
or the event HOST_REPLAY_LOST where it missed more. -/
def replay (d : Dev) (q : Region) : Dev :=
  match d.anchorSt.missedFrom.find? (·.1 == q.val) with
  | none => d
  | some (_, from') =>
    let d := (d.modA (fun a => { a with missedFrom := a.missedFrom.filter (·.1 != q.val) })).setFld
      (CHP_COMMIT_MEMBERS_absent d.A) (withBit (d.fld (CHP_COMMIT_MEMBERS_absent d.A)) q.val false)
    let d := if 64 < ticksAhead d.tick from' then d.post 0x0006 q.val 0 (bytesLE 6 from') else d
    (d.anchorSt.commits.filter (fun c => !tickAfter from' c.tick)).foldl (fun d c =>
      (c.parts.foldl (fun d p => (d.copiesOf d.anchor c.tick p.region).foldl
        (fun d m => d.send d.A q.val (.mutRecord c.tick m)) d) d).send d.A q.val (.commit c)) d

end Dev

/-- MUT_RECORD (R101): the copy received last for each region and staging sequence is kept. -/
def execMutRecord (r src : Region) (tick : Nat) (m : Mut) (s : State) : Out := s.deliverAll src.val r.val (.mutRecord tick m) fun d =>
  let d := d.modCommit r (fun c => { c with copies := c.copies ++ [⟨tick, m⟩] })
  match (d.g r).commit.held.find? (·.tick == tick) with
  | some c => if d.holdsAll r c then d.applyCommit r c else d
  | none => d

/-- The region that a seal of `src` reaches: the one that it was sent to (R121), or the anchor for one of a guest. -/
def Dev.sealTo (d : Dev) (src : Region) (m : Msg) : Nat := ((d.wire.find? (fun f => f.src == src.val && f.msg == m)).map (·.dst)).getD d.A

/-- SEAL (R103, R104, R114, R115, R137, R867): a seal counts towards its commit unless that commit was broadcast; one that was sent to a
former anchor counts for nothing (R121). -/
def execSeal (src : Region) (tick count : Nat) (code : Word) (s : State) : Out :=
  let dst := s.dev.sealTo src (.seal tick count code)
  s.deliverAll src.val dst (.seal tick count code) fun d =>
  if dst ≠ d.A ∨ !d.anchorLive || d.fenced src.val || !d.committing src.val || !Dev.tickAfter tick d.lastCommit then d
  else
    let back := d.absent src.val && (d.g src).commit.lastMode == Mode.regional
    let d := (d.modA (fun a => { a with
        seals := a.seals.filter (fun x => !(x.region == src.val && x.tick == tick)) ++ [⟨src.val, tick, count, code⟩],
        lateRuns := a.lateRuns.filter (·.1 != src.val) })).clr (RGN_STAGE_STAT_late_run src.val)
    let d := d.when back (·.replay src)
    d.broadcastIfWhole tick

/-- SEAL_DEADLINE (R103, R104, R113, R136, R867): the commit of the tick before is broadcast without the seals that are missing. -/
def execSealDeadline (s : State) : Out := s.run fun d =>
  let tick := (d.tick + 2 ^ 48 - 1) % 2 ^ 48
  if !d.anchorLive || !(d.g d.anchor).commit.lastMode.isRun || !Dev.tickAfter tick d.lastCommit then d
  else
    let missing := d.sealers.filter (fun q => !(d.sealsFor tick).any (·.region == q.val))
    let d := d.each missing (fun q d =>
      let run := ((d.anchorSt.lateRuns.find? (·.1 == q.val)).map (·.2)).getD 0 + 1
      let d := ((d.modA (fun a => { a with lateRuns := a.lateRuns.filter (·.1 != q.val) ++ [(q.val, run)] })).setOn
        (CHP_COMMIT_ERR_late_seal d.A)).cevent 0x301 q.val
      if 2 ≤ run then
        let d := ((d.setFld (CHP_COMMIT_MEMBERS_absent d.A)
          (withBit (d.fld (CHP_COMMIT_MEMBERS_absent d.A)) q.val true)).err (CHP_COMMIT_ERR_region_absent d.A) d.anchor 0x3E5).cevent
          0x302 q.val
        if (d.g q).commit.lastMode = .regional then
          d.modA (fun a => { a with missedFrom := a.missedFrom.filter (·.1 != q.val) ++ [(q.val, (tick + 2 ^ 48 - (run - 1)) % 2 ^ 48)] })
        else d.dueFence q 0x01
      else d)
    d.broadcast tick

/-- Whether a commit is a replay (R137): in REGIONAL, of an earlier tick than the one that is committed now. -/
def Dev.replayed (d : Dev) (r : Region) (c : Commit) : Bool :=
  (d.g r).commit.lastMode == Mode.regional && c.tick != ((d.g r).tick + 2 ^ 48 - 1) % 2 ^ 48

/-- COMMIT (R104–R110, R119, R121, R868): the first copy is forwarded on every link but the one it came by; the region applies it, keeps
it until its records are there, or is due for a fence where it names another last tick. One whose apply deadline has passed is only
forwarded. -/
def execCommit (r : Region) (c : Commit) (bad : List (Nat × Nat)) (via : Option (Fin 6)) (s : State) : Out :=
  s.deliverAll (s.dev.cameFrom r via) r.val (.commit c) fun d =>
  let d := d.modCommit r (fun x => { x with heard := [(d.g r).tick] })
  if (d.g r).commit.seen.contains c.tick || !d.present r.val then d
  else
    let d := (d.modCommit r (fun x => { x with seen := x.seen ++ [c.tick] })).when (d.mladus r.val && via.isSome) (·.flood r via (.commit c))
    if !d.committing r.val || d.fenced r.val || (d.g r).commit.lapsed.contains c.tick then d
    else
      let d := d.each bad (fun l d => (d.markBad r l.1 l.2).requestRepair r l.1 l.2)
      let here := c.parts.any (·.region == r.val)
      let d := if here then d.clr (RGN_STAGE_STAT_late_run r.val)
        else
          let d := ((d.setFld (RGN_STAGE_STAT_late_run r.val) (min 2 (d.fld (RGN_STAGE_STAT_late_run r.val) + 1))).err
            (RGN_COMMIT_ERR_late_seal r.val) r 0x3E4).outcomeAll r c.tick 3
          d.modCommit r (fun x => { x with previous := [] })
      if c.last ≠ (d.g r).commit.lastApplied ∧ d.replayed r c = false then
        (d.when here (fun d => (d.outcomeAll r c.tick 0xB).modCommit r (fun x => { x with previous := [] }))).dueFence r 0x04
      else if d.holdsAll r c then d.applyCommit r c
      else d.modCommit r (fun x => { x with held := x.held ++ [c] })

/-- APPLY_DEADLINE (R109, R111, R119, R120): a region without the commit of the tick before freezes, and applies nothing for that tick
any more; one that lacks a listed record
is due for a fence. -/
def execApplyDeadline (r : Region) (s : State) : Out := s.run fun d =>
  let tick := ((d.g r).tick + 2 ^ 48 - 1) % 2 ^ 48
  let c := (d.g r).commit
  if !c.lastMode.isRun || !d.committing r.val || d.fenced r.val || c.lastApplied == tick then d
  else match c.held.find? (·.tick == tick) with
    | some k =>
      if d.holdsAll r k then d.applyCommit r k
      else (((d.err (RGN_COMMIT_ERR_record_missing r.val) r 0x3E7).dueFence r 0x03)).modCommit r
        (fun x => { x with held := x.held.filter (·.tick != tick) })
    | none =>
      if c.seen.contains tick then d
      else
        let d := ((d.err (RGN_COMMIT_ERR_commit_missing r.val) r 0x3E6).outcomeAll r tick 4)
        d.modCommit r (fun x => { x with previous := [], lapsed := x.lapsed ++ [tick] })

/-- A repair request for a line that is on its way, in the words in which it was sent. -/
def Dev.repairSent (d : Dev) (r src : Region) (table line : Nat) : Msg :=
  let mine (f : Flight) : Bool := f.src == src.val && f.dst == r.val && (match f.msg with
    | .repairReq t l _ _ => t == table && l == line
    | _ => false)
  ((d.wire.find? mine).map (·.msg)).getD (.repairReq table line src.val (d.g src).tick)

/-- REPAIR_REQ (R322): the sibling stages the line's image once it has applied the commit of the tick before. A sibling that itself holds
the line bad stages nothing: it has no image to send, DESIGN CHOICE (log 138). -/
def execRepairReq (r src : Region) (table line time : Nat) (s : State) : Out :=
  s.deliverAll src.val r.val (s.dev.repairSent r src table line) fun d =>
  if !d.repairs r || d.lineBad r table line then d
  else if (d.g r).commit.lastApplied = ((d.g r).tick + 2 ^ 48 - 1) % 2 ^ 48 then d.stageRepair r src.val table line time
  else d.modCommit r (fun c => { c with repairWait := c.repairWait ++ [(table, line, src.val)] })

/-- REPAIR_STALLED (R325): a line that has stayed bad for 16 ticks. -/
def execRepairStalled (r : Region) (table line : Nat) (s : State) : Out := s.run fun d =>
  match (d.g r).tables.bad.find? (fun b => b.table == table && b.line == line) with
  | some b =>
    if 16 ≤ Dev.ticksAhead (d.g r).tick b.since then
      ((d.err (RGN_TBL_ERR_repair_stalled r.val) r 0x143).journal r 0x0301 (unitId 6 r.val table) (bytesLE 4 line)).requestRepair
        r table line
    else d
  | none => d

/-- RECON (R138): a reconciliation record waits for the next shutter, and counts as acknowledged at its sender. -/
def execRecon (r src : Region) (tick : Nat) (m : Mut) (s : State) : Out := s.deliverAll src.val r.val (.recon tick m) fun d =>
  (d.modCommit r (fun c => { c with recon := c.recon ++ [⟨tick, m⟩] })).setFld
    (RGN_RECON_STAT_backlog src.val) (d.fld (RGN_RECON_STAT_backlog src.val) - 1)

/-- A hit in the tick in which the scanner staged EXPIRE for the entry: the scanner's EXPIRE becomes a REFRESH in its slot (R345). -/
def Dev.hitWins (d : Dev) (r : Region) (n slot : Nat) : Dev :=
  let key := d.slotKey r (d.table r n) slot
  match (d.g r).commit.staged.find? (fun x => x.mu.op == 6 && x.mu.source == 1 && x.mu.table == n && x.mu.key == key) with
  | some x => d.restage r x.mu.seq { x.mu with op := 5, index := 0 }
  | none => d

/-- HIT_NOTICE (R342, R345): the owner's hit bit is set, and an EXPIRE staged in this tick becomes a REFRESH. -/
def execHitNotice (r src : Region) (table slot quantum : Nat) (s : State) : Out :=
  s.deliverAll src.val r.val (.hitNotice table slot quantum) fun d =>
  let d := d.modTables r
    (fun t => { t with hits := Sparse.set (fun _ => false) t.hits (table * 2 ^ 32 + slot) true })
  d.hitWins r table slot

end Sys2Proof.Machine
end

