-- ==== Sys2Proof/Machine/Panes.lean ====
section
/-!
DEFINITION. Panes (R122–R134, R217–R220, R253–R262, R915–R917): write sessions, the checks of writes and of closes, check codes,
the division of pane memory, swaps and the forced freeing of a pane.
-/

namespace Sys2Proof.Machine

namespace Dev

/-- The state of a pane in a region (R123, R155): 0 FREE, 1 ACTIVE, 2 RETIRING. -/
def paneState (d : Dev) (r p : Nat) : Nat :=
  if p = 0 then d.fld (RGN_PANE_STAT_pane0_state r) else d.fld (RGN_PANE_STAT_pane1_state r)

/-- Set the state of a pane in a region. -/
def setPaneState (d : Dev) (r p v : Nat) : Dev :=
  if p = 0 then d.setFld (RGN_PANE_STAT_pane0_state r) v else d.setFld (RGN_PANE_STAT_pane1_state r) v

/-- Whether R123 permits writes to a pane in a region's effective mode. -/
def paneWritable (d : Dev) (r : Region) (p : Nat) : Bool :=
  match d.paneState r.val p with
  | 0 => (d.g r).mode != .load
  | 1 => (d.g r).mode.isOpen
  | _ => false

/-- Change the front-end state of a region. -/
def modFront (d : Dev) (r : Region) (f : FrontState → FrontState) : Dev := d.modR r (fun g => { g with front := f g.front })

/-- The pane that RGN_PANE_WR reads (R246): the pane of the session or check-code computation in progress, and otherwise the one written. -/
def shownPane (d : Dev) (r : Region) : Nat :=
  match (d.g r).front.session, (d.g r).front.codeBusy with
  | some p, _ => p
  | none, p :: _ => p
  | none, [] => d.fld (RGN_PANE_WR_pane r.val)

/-- Keep RGN_PANE_WR.in_progress: a session is open, or a check code is computed (R246). -/
def showSession (d : Dev) (r : Region) : Dev :=
  d.setFld (RGN_PANE_WR_in_progress r.val) (if (d.g r).front.session.isSome || (d.g r).front.codeBusy != [] then 1 else 0)

/-- Start the computation of a pane's check code (R126). -/
def startCode (d : Dev) (r : Region) (p : Nat) : Dev :=
  (d.modFront r (fun f => { f with codeBusy := f.codeBusy.filter (· != p) ++ [p] })).showSession r

/-- A pane's contents as a region holds it (R126, R258): its division word, then the bytes of its pricking window and of its pane store
window, lowest address first, DESIGN CHOICE (log 139): the spec names what the code covers and not the order. -/
def paneContents (d : Dev) (r p : Nat) : List Byte :=
  bytesLE 4 (d.divWord r p).toNat ++ d.bytes (prickBase r p) 0x10000 ++ d.bytes (paneBase r p) 0x60000

/-- Write bytes of a pane's windows; those of the ACTIVE pane are kept as they stood, until the session closes (R220). -/
def paneBytes (d : Dev) (r : Region) (p a : Nat) (data : List Byte) : Dev :=
  let new := (List.range data.length).filter (fun i => !(d.g r).front.saved.any (·.1 == a + i))
  let d := d.when (d.paneState r.val p == 1)
    (fun d => d.modFront r (fun f => { f with saved := f.saved ++ new.map (fun i => (a + i, d.byte (a + i))) }))
  d.setBytes a data

/-- The part as a front-end pass reads its pane: what a session that is still open wrote to the ACTIVE pane is not there yet (R220). -/
def passView (d : Dev) (r : Region) : Dev := (d.g r).front.saved.foldl (fun d c => d.setBytes c.1 [c.2]) d

/-! ### Rejections (R248, R294) -/

/-- Record a rejection in RGN_PRK_REJ and set `f` (R217–R219, R917). -/
def prkRej (d : Dev) (r : Region) (f : Fld) (cause pane kind index : Nat) : Dev :=
  (d.setReg (RGN_PRK_REJ r.val) (BitVec.ofNat 32 (cause * 2 ^ 28 + pane % 2 * 2 ^ 16 + kind % 4 * 2 ^ 12 + index % 2 ^ 11))).err f r 0x100

/-- Record a rejection in RGN_CLS_REJ (R254, R261, R262, R294). -/
def clsRej (d : Dev) (r : Region) (cause pane kind index : Nat) : Dev :=
  d.setReg (RGN_CLS_REJ r.val) (BitVec.ofNat 32 (cause * 2 ^ 28 + pane % 2 * 2 ^ 16 + kind % 8 * 2 ^ 13 + index % 2 ^ 12))

end Dev

/-! ### Values a window accepts at write (R218, R916) -/

/-- Whether a next-node value is defined (R216). -/
def nextOk (v : Nat) : Bool := v == 0 || v == 1 || 256 ≤ v

/-- Whether a node record holds no undefined value (R224, R916). -/
def nodeOk (n : Nat) : Bool :=
  bitsOf n 255 160 == 0 && bitsOf n 146 141 ≤ 32 && bitsOf n 111 96 == 0 && bitsOf n 82 77 ≤ 32 && nextOk (bitsOf n 63 55)
    && bitsOf n 54 50 ≤ 16 && bitsOf n 38 32 == 0 && bitsOf n 22 21 != 3 && bitsOf n 20 19 ≤ 1 && bitsOf n 18 13 ≤ 32

/-- Whether a transition entry holds no undefined value (R226). -/
def transitionOk (t : Nat) : Bool := bitsOf t 127 73 == 0 && nextOk (bitsOf t 72 64)

/-- Whether the pricking header holds no undefined value (R221); the depth limit is judged at close. -/
def prickHeaderOk (h : Nat) : Bool := nextOk (bitsOf h 26 18) && nextOk (bitsOf h 17 9) && nextOk (bitsOf h 8 0)

/-- Whether a lookup set number is defined (R264, R274). -/
def lsetOk (v : Nat) : Bool := v < 0x20 || v == 0x3F

/-- Whether a key segment holds no undefined value (R266); its range is judged at close. -/
def segOk (s : Nat) : Bool :=
  let src := bitsOf s 31 28
  src ≤ 5 && bitsOf s 7 3 == 0
    && (if src = 1 then 1 ≤ bitsOf s 27 21 && (bitsOf s 20 16 ≤ 23 || bitsOf s 20 16 == 31) else bitsOf s 27 16 == 0)
    && (if src = 0 then bitsOf s 2 0 == 0 else 1 ≤ bitsOf s 2 0 && bitsOf s 2 0 ≤ 4)

/-- Whether a table descriptor holds no undefined value (R265). -/
def clsTableOk (t : Nat) : Bool :=
  bitsOf t 499 496 == 0 && bitsOf t 483 472 == 0 && bitsOf t 471 460 ≤ 2976 && bitsOf t 459 384 == 0
    && (List.range 12).all (fun s => segOk (keySeg t s))

/-- Whether a rule holds no undefined value (R270). -/
def ruleOk (r : Nat) : Bool := bitsOf r 255 32 == 0 && bitsOf r 30 10 == 0

/-- Whether a rewrite anchor is defined (R194). -/
def anchorOk (v : Nat) : Bool := v ≤ 23 || v == 31

/-- Whether an action entry holds no undefined value (R274). -/
def actionOk (a : Nat) : Bool :=
  let place := anchorOk (bitsOf a 55 51)
  match bitsOf a 63 56 with
  | 0x00 | 0x03 | 0x0C => bitsOf a 55 0 == 0
  | 0x01 => bitsOf a 55 3 == 0 && 1 ≤ bitsOf a 2 0
  | 0x02 => bitsOf a 55 15 == 0
  | 0x04 => bitsOf a 55 9 == 0
  | 0x05 => bitsOf a 55 7 == 0
  | 0x06 => bitsOf a 51 32 == 0
  | 0x07 => place && 1 ≤ bitsOf a 42 40 && bitsOf a 42 40 ≤ 4 && bitsOf a 38 32 == 0
  | 0x08 => place && 1 ≤ bitsOf a 42 36 && bitsOf a 42 36 ≤ 64 && bitsOf a 35 32 == 0 && bitsOf a 13 0 == 0
  | 0x09 => place && 1 ≤ bitsOf a 42 36 && bitsOf a 42 36 ≤ 64 && bitsOf a 35 0 == 0
  | 0x0A => place && bitsOf a 42 0 == 0
  | 0x0B => bitsOf a 55 23 == 0 && lsetOk (bitsOf a 22 17)
  | 0x0D => bitsOf a 55 10 == 0
  | 0x0E => bitsOf a 55 2 == 0 && (bitsOf a 1 0 == 1 || bitsOf a 1 0 == 2)
  | 0x0F => bitsOf a 55 7 == 0
  | _ => false

/-- Whether a lookup set entry holds no undefined value (R283, R915). -/
def lookupEntryOk (e : Nat) : Bool :=
  bitsOf e 126 123 == 0 && bitsOf e 107 92 == 0 && bitsOf e 79 0 == 0
    && (!bitOf e 127 || (bitsOf e 119 114 ≤ 47 && 1 ≤ bitsOf e 113 108 && bitsOf e 113 108 ≤ 48))

namespace Dev

/-- The item of a pricking window that holds an offset: kind, index, start and size; none where nothing is assigned (R213). -/
def prickItem (d : Dev) (r p off : Nat) : Option (Nat × Nat × Nat × Nat) :=
  if off < 0x2000 then some (0, off / 0x20, off / 0x20 * 0x20, 0x20)
  else if off < 0x2008 then some (2, 0, 0x2000, 8)
  else if 0x8000 ≤ off ∧ off < 0x8000 + d.transLimit r p * 16 then some (1, (off - 0x8000) / 16, off / 16 * 16, 16)
  else none

/-- The item of a pane store window that holds an offset (R259). -/
def storeItem (d : Dev) (r p off : Nat) : Option (Nat × Nat × Nat × Nat) :=
  let acts := 0x1000 + d.ruleUnits r p * 0x1000
  let tmpl := acts + d.asetUnits r p * 0x1000
  if off < 8 then some (0, 0, 0, 8)
  else if 0x200 ≤ off ∧ off < 0x400 then some (1, (off - 0x200) / 0x40, off / 0x40 * 0x40, 0x40)
  else if 0x800 ≤ off ∧ off < 0x1000 then some (2, (off - 0x800) / 0x40, off / 0x40 * 0x40, 0x40)
  else if 0x1000 ≤ off ∧ off < acts then some (3, (off - 0x1000) / 0x80, off / 0x80 * 0x80, 0x80)
  else if acts ≤ off ∧ off < tmpl then some (4, (off - acts) / 0x40, off / 0x40 * 0x40, 0x40)
  else if tmpl ≤ off ∧ off < tmpl + d.tmplUnits r p * 0x1000 then some (5, (off - tmpl) / 0x40, off / 0x40 * 0x40, 0x40)
  else none

/-- The item of a pane's window that holds an offset. -/
def paneItem (d : Dev) (r p : Nat) (store : Bool) (off : Nat) : Option (Nat × Nat × Nat × Nat) :=
  if store then d.storeItem r p off else d.prickItem r p off

/-- Whether every one of `n` offsets of a pane's window is assigned (R213, R214, R259, R260). -/
def paneAssigned (d : Dev) (r p : Nat) (store : Bool) (off n : Nat) : Bool :=
  (List.range n).all (fun i => (d.paneItem r p store (off + i)).isSome)

/-- Whether an item of a window, as it would read after a write, holds no undefined value (R218, R916). -/
def itemOk (store : Bool) (kind v : Nat) : Bool :=
  if store then
    match kind with
    | 0 => bitsOf v 63 23 == 0 && lsetOk (bitsOf v 22 17)
    | 1 => clsTableOk v
    | 2 => (List.range 4).all (fun k => lookupEntryOk (bitsOf v (128 * k + 127) (128 * k)))
    | 3 => ruleOk v
    | 4 => (List.range 8).all (fun k => actionOk (bitsOf v (64 * k + 63) (64 * k)))
    | _ => true
  else
    match kind with
    | 0 => nodeOk v
    | 1 => transitionOk v
    | _ => prickHeaderOk v

/-- What a write to a pane window answers. -/
inductive PaneAnswer where
  | done | rejected | decode
deriving DecidableEq, Repr

/-- Write bytes to a pane window (R218, R261): all of them or, where one is refused, none; R214, R260 for offsets not assigned. -/
def paneWrite (d : Dev) (r : Region) (p : Nat) (store : Bool) (off : Nat) (data : List Byte) : Dev × PaneAnswer :=
  let base := if store then paneBase r.val p else prickBase r.val p
  let items := ((List.range data.length).map (fun i => d.paneItem r.val p store (off + i))).dedup
  let reject (cause : Nat) (it : Nat × Nat × Nat × Nat) : Dev × PaneAnswer :=
    (if store then (d.clsRej r cause p it.1 it.2.1).err (RGN_FE_ERR_write_rejected r.val) r 0x100
      else d.prkRej r (RGN_FE_ERR_write_rejected r.val) cause p it.1 it.2.1, .rejected)
  match items.find? (·.isNone), items.filterMap id with
  | some _, _ => (d, .decode)
  | none, [] => (d, .done)
  | none, first :: rest =>
    if (d.g r).front.session ≠ some p then reject 2 first
    else if !d.paneWritable r p then reject 5 first
    else
      let d' := d.paneBytes r p (base + off) data
      match (first :: rest).find? (fun it => !itemOk store it.1 (d'.le (base + it.2.2.1) it.2.2.2)) with
      | some it => reject 1 it
      | none => (d', .done)

/-! ### Sessions -/

/-- Open a write session (R217, R128); the answer says whether it was accepted. -/
def paneOpen (d : Dev) (r : Region) (p : Nat) : Dev × Bool :=
  if (d.g r).front.session.isSome || !d.paneWritable r p
      || (d.anchorSt.swapAt.isSome && d.paneState r.val p == 0) then
    (d.prkRej r (RGN_FE_ERR_write_rejected r.val) 4 p 0 0, false)
  else ((d.modFront r (fun f => { f with session := some p })).showSession r, true)

/-- Whether a field specification lies in its word (R219). -/
def specOk (f : FieldSpec) : Bool := f.width == 0 || f.shift + f.width ≤ 32

/-- Whether a node passes the checks of a close (R219). -/
def nodeCloses (limit n : Nat) : Bool :=
  let adv : FieldSpec := ⟨bitsOf n 71 64, bitsOf n 76 72, bitsOf n 82 77⟩
  specOk (nodeSelect n) && specOk adv && specOk (nodeCheck n)
    && ((bitsOf n 54 50 == 0 && !bitOf n 23) || bitsOf n 18 13 != 0)
    && (bitsOf n 20 19 != 1 || (bitsOf n 82 77 != 0 && bitsOf n 87 83 != 0))
    && (bitsOf n 146 141 == 0 || bitsOf n 151 147 != 0)
    && (!bitOf n 31 || bitsOf n 30 24 != 0)
    && bitsOf n 49 39 + bitsOf n 54 50 ≤ limit

/-- The item of the pricking that fails a close, if any (R219): kind and index, nodes before the header. -/
def prickFails (d : Dev) (r p : Nat) : Option (Nat × Nat) :=
  match (List.range 256).find? (fun i => !nodeCloses (d.transLimit r p) (d.node r p i)) with
  | some i => some (0, i)
  | none =>
    let depth := bitsOf (d.prickHeader r p) 31 27
    if 1 ≤ depth ∧ depth ≤ 24 then none else some (2, 0)

/-- Whether a segment's range lies in its view (R266). -/
def segRange (s : Nat) : Bool :=
  let top := bitsOf s 15 8 + bitsOf s 2 0
  match bitsOf s 31 28 with
  | 2 => top ≤ 64
  | 3 => top ≤ 12
  | 4 => top ≤ 32
  | _ => true

/-- The enabled tables of a pane. -/
def clsEnabled (d : Dev) (r p : Nat) : List Nat := (List.range 8).filter (fun t => bitOf (d.clsTable r p t) 511)

/-- The rules of a table's range that are valid. -/
def validRules (d : Dev) (r p t : Nat) : List Nat :=
  let desc := d.clsTable r p t
  ((List.range (bitsOf desc 471 460)).map (bitsOf desc 495 484 + ·)).filter (fun i => bitOf (d.rule r p i) 31)

/-- The action sets that a table applies (R262). -/
def setsOf (d : Dev) (r p t : Nat) : List Nat :=
  let desc := d.clsTable r p t
  (d.validRules r p t).map (fun i => bitsOf (d.rule r p i) 9 0) ++ (if bitOf desc 510 then [bitsOf desc 509 500] else [])

/-- The first of a list of numbered items by rising number, of those that fail. Items of two kinds under one condition are ranked by
their bare numbers, and of two with one number the first in the list comes first, DESIGN CHOICE (log 140). -/
def lowest (l : List (Nat × Nat)) : Option (Nat × Nat) :=
  l.foldl (fun best x => match best with
    | none => some x
    | some b => if x.2 < b.2 then some x else some b) none

/-- Whether a queue's or port's region holds a Mladus die that is populated. -/
def actionTarget (d : Dev) (a : Nat) : Bool :=
  match bitsOf a 63 56 with
  | 0x02 => d.mladus (bitsOf a 14 0 / 4096)
  | 0x04 => d.mladus (bitsOf a 5 0 / 8)
  | _ => true

/-- The item of the pane store that fails a close, if any (R262): kind and number, first condition in table order. -/
def storeFails (d : Dev) (r p : Nat) : Option (Nat × Nat) :=
  let tabs := d.clsEnabled r p
  let rules := 32 * d.ruleUnits r p
  let asets := 64 * d.asetUnits r p
  let tmpls := 64 * d.tmplUnits r p
  let range (t : Nat) := (bitsOf (d.clsTable r p t) 495 484, bitsOf (d.clsTable r p t) 471 460)
  let reach := (tabs.flatMap (d.setsOf r p)).dedup
  let acts (k : Nat) := (List.range 8).map (d.action r p k)
  let c1 := lowest ((tabs.filter (fun t => (List.range 12).any (fun s => !segRange (keySeg (d.clsTable r p t) s)))).map (1, ·))
  let c2 := lowest ((tabs.filter (fun t => rules < (range t).1 + (range t).2
      || tabs.any (fun u => u != t && (range u).2 != 0 && (range t).2 != 0 && (range u).1 < (range t).1 + (range t).2 && (range t).1 < (range u).1 + (range u).2))).map (1, ·))
  let c3 := lowest (tabs.flatMap (fun t =>
      ((d.validRules r p t).filter (fun i => asets ≤ bitsOf (d.rule r p i) 9 0)).map (3, ·)
        ++ (if bitOf (d.clsTable r p t) 510 && asets ≤ bitsOf (d.clsTable r p t) 509 500 then [(1, t)] else [])))
  let c4 := lowest (tabs.flatMap (fun t => ((d.setsOf r p t).filter (fun k => (acts k).any (fun a =>
      bitsOf a 63 56 == 1 && (bitsOf a 2 0 ≤ t || !tabs.contains (bitsOf a 2 0))))).map (4, ·)))
  let c5 := lowest ((reach.filter (fun k => (acts k).any (fun a => !d.actionTarget a))).map (4, ·))
  let c6 := lowest ((reach.filter (fun k => (acts k).any (fun a => bitsOf a 63 56 == 8
      && (tmpls ≤ bitsOf a 31 20 || 64 < bitsOf a 19 14 + bitsOf a 42 36)))).map (4, ·))
  let sets := bitsOf (d.clsHeader r p) 22 17 :: reach.flatMap (fun k => (acts k).filterMap (fun a =>
      if bitsOf a 63 56 = 0x0B then some (bitsOf a 22 17) else none))
  let c7 := lowest ((sets.filter (fun n => n != 0x3F && (0x20 ≤ n || (List.range 4).any (fun k =>
      let e := d.lookupEntry r p n k
      bitOf e 127 && (!tabs.contains (bitsOf e 122 120) || 48 < bitsOf e 119 114 + bitsOf e 113 108))))).map (2, ·))
  [c1, c2, c3, c4, c5, c6, c7].findSome? id

/-- Close a write session (R219, R262, R917); the answer says whether it was accepted. -/
def paneClose (d : Dev) (r : Region) : Dev × Bool :=
  match (d.g r).front.session with
  | none => (d.prkRej r (RGN_FE_ERR_write_rejected r.val) 6 (d.shownPane r) 0 0, false)
  | some p =>
    match d.prickFails r.val p with
    | some (kind, i) => (d.prkRej r (RGN_FE_ERR_close_failed r.val) 3 p kind i, false)
    | none => match d.storeFails r.val p with
      | some (kind, i) => ((d.clsRej r 3 p kind i).err (RGN_FE_ERR_close_failed r.val) r 0x100, false)
      | none => ((d.modFront r (fun f => { f with session := none, saved := [] })).startCode r p, true)

/-- Write a division (R254, R256): it waits for the next shutter, or is rejected; the answer says whether it was accepted. -/
def divWrite (d : Dev) (r : Region) (p : Nat) (v : Word) : Dev × Bool :=
  let f := (d.g r).front
  let inRange := 1 ≤ fieldOf v 0 4 && fieldOf v 0 4 ≤ 8 && fieldOf v 8 7 ≤ 93 && 1 ≤ fieldOf v 15 5 && fieldOf v 15 5 ≤ 16
    && fieldOf v 20 6 ≤ 32 && 1 + fieldOf v 0 4 + fieldOf v 8 7 + fieldOf v 15 5 + fieldOf v 20 6 ≤ 96
  let quiet := f.session != some p && !f.codeBusy.contains p
  let time := (d.g r).mode == .configure || ((d.g r).mode == .drain && d.paneState r.val p == 0)
  if inRange && quiet && time then
    (d.modFront r (fun f => { f with pendingDiv := f.pendingDiv.filter (·.1 != p) ++ [(p, v &&& 0x03FFFF0F#32)] }), true)
  else ((d.clsRej r 4 p 6 0).err (RGN_CLS_ERR_div_rejected r.val) r 0x110, false)

/-! ### Swaps (R127–R133) -/

/-- The pane that is not ACTIVE. -/
def otherPane (d : Dev) : Nat := 1 - d.fld (CHP_PANE_STAT_active d.A)

/-- The state of a pane as the anchor reports it (R150). -/
def chipPane (d : Dev) (p : Nat) : Nat :=
  if p = 0 then d.fld (CHP_PANE_STAT_pane0_state d.A) else d.fld (CHP_PANE_STAT_pane1_state d.A)

/-- The cause for which a swap at a shutter with an expected code is rejected; 0 where it is accepted (R127). -/
def swapCause (d : Dev) (at' : Nat) (code : Word) : Nat :=
  let q := d.otherPane
  if d.mode = .load ∨ (d.anchorSt.modeChange.map (·.shutter)) = some at' then 4
  else if d.anchorSt.swapAt.isSome then 5
  else if d.chipPane q = 2 then 3
  else if ticksAhead at' d.tick < 3 ∨ 2 ^ 47 ≤ ticksAhead at' d.tick then 1
  else if d.mladusRegions.any (fun r => (d.g r).front.session.isSome || !(d.g r).front.codeBusy.isEmpty) then 6
  else if d.mladusRegions.any (fun r => d.reg (if q = 0 then RGN_PANE_CODE0 r.val else RGN_PANE_CODE1 r.val) != code) then 2
  else 0

/-- Report a swap as rejected or cancelled (R97, R127). -/
def swapRejected (d : Dev) (cause : Nat) : Dev :=
  (d.setFld (CHP_PANE_STAT_reject_cause d.A) cause).err (CHP_COMMIT_ERR_swap_rejected d.A) d.anchor 0x3EC

/-- Request a swap (R127); the answer is the reject cause, 0 where it is scheduled. -/
def swapRequest (d : Dev) : Dev × Nat :=
  let at' := d.pair (CHP_PANE_AT_LO d.A) (CHP_PANE_AT_HI d.A)
  let cause := d.swapCause at' (d.reg (CHP_PANE_CODE d.A))
  if cause = 0 then ((d.modA (fun a => { a with swapAt := some at' })).setOn (CHP_PANE_STAT_pending d.A), 0)
  else (d.swapRejected cause, cause)

/-- Request that the RETIRING pane become FREE at the next shutter (R133). -/
def forceFree (d : Dev) : Dev := d.modA (fun a => { a with freeAt := some ((d.tick + 1) % 2 ^ 48) })

end Dev

/-! ### The commands -/

/-- PANE_CTL_SWAP (R127): a write of 1 to CHP_PANE_CTL.swap. -/
def execPaneCtlSwap (s : State) : Out := s.run fun d => d.swapRequest.1

/-- PANE_CTL_FORCE_FREE (R133): a write of 1 to CHP_PANE_CTL.force_free. -/
def execPaneCtlForceFree (s : State) : Out := s.run fun d => d.forceFree

/-- PANE_WR_OPEN (R217): a write to RGN_PANE_WR that names `pane` and sets open. -/
def execPaneWrOpen (r : Region) (pane : Fin 2) (s : State) : Out := s.run fun d =>
  let d := if (d.g r).front.session.isNone ∧ (d.g r).front.codeBusy = [] then d.setFld (RGN_PANE_WR_pane r.val) pane.val else d
  (d.paneOpen r (d.shownPane r)).1

/-- PANE_WR_CLOSE (R219, R262, R917): a write of 1 to RGN_PANE_WR.close. -/
def execPaneWrClose (r : Region) (s : State) : Out := s.run fun d => (d.paneClose r).1

/-- PANE_WINDOW_WRITE (R218, R261): a write to the pricking window or the pane store window of a pane. -/
def execPaneWindowWrite (r : Region) (pane : Fin 2) (store : Bool) (off : Nat) (data : List Byte) (s : State) : Out :=
  s.run fun d => (d.paneWrite r pane.val store off data).1

/-- PANE_CODE_DONE (R126): a region reports the check code of a pane, and in_progress clears with it (R219). -/
def execPaneCodeDone (r : Region) (pane : Fin 2) (s : State) : Out := s.run fun d =>
  if (d.g r).front.codeBusy.contains pane.val then
    let code := BitVec.ofNat 32 (crc32cOf (d.paneContents r.val pane.val))
    ((d.setReg (if pane.val = 0 then RGN_PANE_CODE0 r.val else RGN_PANE_CODE1 r.val) code).modFront r
      (fun f => { f with codeBusy := f.codeBusy.filter (· != pane.val) })).showSession r
  else d

/-- CLS_DIV_WRITE (R254, R256): a write to the division word of a pane. -/
def execClsDivWrite (r : Region) (pane : Fin 2) (value : Word) (s : State) : Out := s.run fun d => (d.divWrite r pane.val value).1

end Sys2Proof.Machine
end

