-- ==== Sys2Proof/Machine/Packets.lean ====
section
/-!
DEFINITION. Packets in flight (R48, R160–R201, R280–R288, R578–R586): drops, rewrite lists, verdicts, release records, enqueue.
-/

namespace Sys2Proof.Machine

/-- The traffic requesters of a region (R564): the packet engine, the host DMA, the replicator, the mirror unit, spill. -/
def reqPkt : Nat := 0x10
def reqHdma : Nat := 0x2A
def reqMrep : Nat := 0x28
def reqMirr : Nat := 0x29
def reqSpill : Nat := 0x20
/-- The transmit unit of a port. -/
def reqTx (p : Nat) : Nat := 0x18 + p

/-! ### Rewrite lists (R194–R197) -/

/-- The fields of a rewrite entry (R194). -/
structure Edit where
  op : Nat
  anchor : Nat
  off : Nat
  len : Nat
  fold : Bool
  operand : Nat
deriving DecidableEq, Repr

/-- An entry's fields from its 64 bits. -/
def editOf (e : Nat) : Edit :=
  ⟨bitsOf e 63 60, bitsOf e 59 55, bitsOf e 54 47, bitsOf e 46 40, bitOf e 39, bitsOf e 31 0⟩

/-- Whether the fields of an entry hold valid values (R194, R197). -/
def editOk (e : Nat) : Bool :=
  let x := editOf e
  bitsOf e 38 32 == 0 && anchorOk x.anchor &&
    match x.op with
    | 1 => 1 ≤ x.len && x.len ≤ 4
    | 2 => 1 ≤ x.len && x.len ≤ 64 && !x.fold && x.operand % 2 ^ 14 == 0 && bitsOf e 19 14 + x.len ≤ 64
    | 3 => 1 ≤ x.len && x.len ≤ 64 && !x.fold && x.operand == 0
    | 4 => x.len == 2 && !x.fold && x.operand == 0
    | _ => false

/-- The position of an entry in the packet (R194, R196); none where its anchor was not recorded. -/
def Edit.pos (x : Edit) (insts : List (Nat × Nat)) : Option Nat :=
  if x.anchor = 31 then some x.off else (insts[x.anchor]?).map (fun i => i.2 + x.off)

/-- The bytes a list pushes, and the bytes it pops. -/
def pushed (l : List Edit) : Nat := ((l.filter (·.op == 2)).map (·.len)).sum
def popped (l : List Edit) : Nat := ((l.filter (·.op == 3)).map (·.len)).sum

/-- Whether two ranges overlap. -/
def overlaps (a n b m : Nat) : Bool := a < b + m && b < a + n

/-- Whether every pair of a list's items satisfies a test. -/
def pairwiseAll {α : Type} (f : α → α → Bool) : List α → Bool
  | [] => true
  | a :: t => t.all (f a) && pairwiseAll f t

/-- Whether each folded SET has a CSUM after it (R197). -/
def foldsFollowed : List Edit → Bool
  | [] => true
  | x :: t => (!(x.op == 1 && x.fold) || t.any (·.op == 4)) && foldsFollowed t

/-- Whether a rewrite list passes R197 on a packet. -/
def listOk (entries : List Nat) (insts : List (Nat × Nat)) (len templates : Nat) : Bool :=
  let l := entries.map editOf
  let placed := l.filterMap (fun x => (x.pos insts).map (fun p => (x, p)))
  let ranges := placed.filter (fun x => x.1.op != 2)
  entries.length ≤ 16 && entries.all editOk && placed.length == l.length
    && pairwiseAll (fun a b => !overlaps a.2 a.1.len b.2 b.1.len) ranges
    && placed.all (fun x =>
        if x.1.op = 2 then
          x.2 ≤ len && x.2 ≤ 512 && x.1.operand / 2 ^ 20 < templates
            && ranges.all (fun y => y.1.op != 3 || !(y.2 < x.2 && x.2 < y.2 + y.1.len))
        else x.2 + x.1.len ≤ len && x.2 + x.1.len ≤ 512)
    && l.all (fun x => !(x.op == 1 && x.fold) || (x.off % 2 == 0 && x.len % 2 == 0))
    && foldsFollowed l
    && pushed l ≤ 256 + popped l

/-- The length of a packet after a list (R198). -/
def lengthAfter (entries : List Nat) (len : Nat) : Nat :=
  len + pushed (entries.map editOf) - popped (entries.map editOf)

/-- A one's-complement checksum updated for one 16-bit word that changed (RFC 1624). -/
def csumUpdate (c old new : Nat) : Nat :=
  let s := (65535 - c) + (65535 - old) + new
  let s := s % 65536 + s / 65536
  65535 - (s % 65536 + s / 65536)

/-- The bytes that a SET writes. -/
def setBytesOf (x : Edit) : List Byte := (bytesBE 4 x.operand).take x.len

/-- The checksum that each CSUM entry writes (R195): `folds` collects the folded SETs since the CSUM before. -/
def csums (orig : List Byte) (insts : List (Nat × Nat)) : List Edit → List (Nat × Edit) → List (Nat × List Byte)
  | [], _ => []
  | x :: t, folds =>
    match x.pos insts with
    | none => csums orig insts t folds
    | some p =>
      if x.op = 1 ∧ x.fold then csums orig insts t (folds ++ [(p, x)])
      else if x.op = 4 then
        let c := folds.foldl (fun c f => (List.range (f.2.len / 2)).foldl (fun c i =>
          csumUpdate c (ofBE (sliceOf orig (f.1 + 2 * i) 2)) (ofBE (sliceOf (setBytesOf f.2) (2 * i) 2))) c)
          (ofBE (sliceOf orig p 2))
        (p, bytesBE 2 c) :: csums orig insts t []
      else csums orig insts t folds

/-- A list applied to the first `n` bytes of a packet (R195, R196). -/
def rewriteHead (templateAt : Nat → List Byte) (entries : List Nat) (insts : List (Nat × Nat)) (orig : List Byte) (n : Nat) :
    List Byte :=
  let l := entries.map editOf
  let placed := l.filterMap (fun x => (x.pos insts).map (fun p => (x, p)))
  let writes := (placed.filter (fun x => x.1.op == 1)).map (fun x => (x.2, setBytesOf x.1)) ++ csums orig insts l []
  let pushAt (p : Nat) := (placed.filter (fun x => x.1.op == 2 && x.2 == p)).flatMap (fun x =>
    sliceOf (templateAt (x.1.operand / 2 ^ 20)) (x.1.operand / 2 ^ 14 % 64) x.1.len)
  let gone (p : Nat) := placed.any (fun x => x.1.op == 3 && x.2 ≤ p && p < x.2 + x.1.len)
  let byteAt (p : Nat) := match writes.find? (fun w => w.1 ≤ p && p < w.1 + w.2.length) with
    | some w => sliceOf w.2 (p - w.1) 1
    | none => sliceOf orig p 1
  (List.range n).flatMap (fun p => pushAt p ++ (if gone p then [] else byteAt p)) ++ pushAt n

namespace Dev

/-! ### Packets -/

/-- The packet with a number, if it is in flight. -/
def pkt (d : Dev) (n : Nat) : Option Packet := Sparse.get (fun _ => none) d.packets n

/-- Write or remove a packet. -/
def setPkt (d : Dev) (n : Nat) (p : Option Packet) : Dev := { d with packets := Sparse.set (fun _ => none) d.packets n p }

/-- Change a packet. -/
def modPkt (d : Dev) (n : Nat) (f : Packet → Packet) : Dev :=
  match d.pkt n with
  | some p => d.setPkt n (some (f p))
  | none => d

/-- Change the dispatcher of a region. -/
def modDsp (d : Dev) (r : Region) (f : DispatchState → DispatchState) : Dev := d.modR r (fun g => { g with dispatch := f g.dispatch })

/-- Count a drop of a code once, in the region that takes it (R201, R208). -/
def dropCount (d : Dev) (r : Region) (code : Nat) : Dev :=
  let n := min (2 ^ 48 - 1) (d.pair (RGN_DROP_LO r.val code) (RGN_DROP_HI r.val code) + 1)
  (d.setPair (RGN_DROP_LO r.val code) (RGN_DROP_HI r.val code) n).event r 0x101 code

/-- Take one packet off the in-flight counts (R131, R205). -/
def leaveFlight (d : Dev) (r : Region) (p : Packet) : Dev :=
  let d := d.setFld (RGN_INFLIGHT_count r.val) (d.fld (RGN_INFLIGHT_count r.val) - 1)
  if p.paneKnown && d.paneState r.val p.pane == 2 then
    d.setFld (RGN_PANE_STAT_inflight_retiring r.val) (d.fld (RGN_PANE_STAT_inflight_retiring r.val) - 1)
  else d

/-- The generation of the pane that is ACTIVE in a region (R124, R129): the chip's, or one more or less between the shutters of the anchor and
of the region. -/
def paneGeneration (d : Dev) (r : Region) : Nat :=
  let gen := d.fld (CHP_PANE_STAT_generation d.A)
  if d.fld (RGN_PANE_STAT_active r.val) = d.fld (CHP_PANE_STAT_active d.A) then gen
  else if d.anchorSt.swapAt = some (d.g r).tick then (gen + 1) % 256
  else (gen + 255) % 256

/-- Whether a pane in a state, beside the generation of the ACTIVE pane, is no longer ACTIVE or RETIRING under a tag's generation (R133). -/
def tagGone (state generation gen : Nat) : Bool :=
  match state with
  | 1 => gen != generation
  | 2 => (gen + 1) % 256 != generation
  | _ => true

/-- Whether the pane of a packet's tag is no longer ACTIVE or RETIRING under the tag's generation (R133). -/
def paneGone (d : Dev) (r : Region) (pane gen : Nat) : Bool := tagGone (d.paneState r.val pane) (d.paneGeneration r) gen

/-- The same at the releases of the last shutter, which come before the panes of that shutter change (R96). -/
def paneGoneThen (d : Dev) (r : Region) (pane gen : Nat) : Bool :=
  let s := (d.g r).egress.panes
  tagGone (if pane = 0 then s.1 else s.2.1) s.2.2 gen

/-! ### Task entries and back-pressure (R490–R492, R505) -/

/-- The ready queues with back-pressure enabled whose depth is at least the threshold `f` of theirs. -/
def pressingQueues (d : Dev) (r : Region) (f : Nat → Nat) : List Nat :=
  ((d.g r).dispatch.ready.filter (fun e => d.on (RGN_DSP_QCFG_bp_en r.val e.1) && f e.1 ≤ e.2.length)).map (·.1)

/-- Bring the back-pressure state and RGN_DSP_STAT up to date (R505, R512, R518). -/
def pressure (d : Dev) (r : Region) : Dev :=
  let x := (d.g r).dispatch
  let store := d.fld (RGN_DSP_BP_bp_hi r.val) ≤ x.general
  let high := d.pressingQueues r (fun q => d.fld (RGN_DSP_QTHR_q_hi r.val q))
  let low := d.pressingQueues r (fun q => d.fld (RGN_DSP_QTHR_q_lo r.val q))
  let now := if x.pressed then !(x.general < d.fld (RGN_DSP_BP_bp_lo r.val) && low.isEmpty) else store || !high.isEmpty
  let d := d.modDsp r (fun x => { x with pressed := now })
  let d := d.setReg (RGN_DSP_STAT r.val) (BitVec.ofNat 32 ((if now then 2 ^ 31 else 0) + (if store then 2 ^ 30 else 0)
    + (if high.isEmpty then 0 else 2 ^ 29) + (high.head?.getD 0) * 2 ^ 14 + (x.general + x.recirc) % 2 ^ 14))
  if now && !x.pressed then (d.event r 0x112 0).raise r 0x180 else d

/-- Free a packet's task entry (R492). -/
def freeEntry (d : Dev) (n : Nat) : Dev :=
  match d.pkt n with
  | some p =>
    if p.task then
      ((d.modPkt n (fun p => { p with task := false })).modDsp (R p.region) (fun x =>
        if p.reserve then { x with recirc := x.recirc - 1 } else { x with general := x.general - 1 })).pressure (R p.region)
    else d
  | none => d

/-- Take a packet out of its ready queue; the depth that ends now counts for the peak, which a read may have cleared since (R517). -/
def unqueue (d : Dev) (r : Region) (q n : Nat) : Dev :=
  let d := d.maxFld (RGN_DSP_QSTAT_peak r.val q) (d.fld (RGN_DSP_QSTAT_depth r.val q))
  let l := (Sparse.get (fun _ => []) (d.g r).dispatch.ready q).filter (· != n)
  (d.modDsp r (fun x => { x with ready := Sparse.set (fun _ => []) x.ready q l })).setFld (RGN_DSP_QSTAT_depth r.val q) l.length

/-! ### Mirrors (R287, R288, R583) -/

/-- Whether a mirror field produces its copy for a dropped packet; the field is 0x80 + on_drop × 64 + session (R281). -/
def onDrop (m : Nat) : Bool := bitOf m 6

/-- The region that a record goes to (R182, R187). -/
def recordRegion (rr : ReleaseRec) : Region :=
  if rr.host then (if rr.dest / 512 % 2 = 0 then 0 else 4) else R (rr.dest / 4096)

/-- The records a region may accept per shutter (R186): four for each nanosecond of the period. -/
def recordLimit (d : Dev) : Nat := 2000 * 2 ^ d.fld (CHP_SHUTTER_CTL_period d.A)

/-- The shutter at which a record is released. -/
def releaseAt (rr : ReleaseRec) : Nat := (rr.stamp.tick + rr.transit) % 2 ^ 48

/-- What a region holds for the releases of a shutter (R186): the copies that it made, and the packets that a list between two passes
rewrites then. -/
def holdingCount (d : Dev) (r : Region) (shutter : Nat) : Nat :=
  ((d.g r).egress.copies.filter (fun c => c.release == shutter && c.outcome != some 3)).length
    + (d.packets.filter (fun e => e.2.any (fun p => p.region == r.val && p.rewrite != [] && p.stage == .recirc shutter))).length

/-- A release record is refused, or a rewrite (R186, R207, R209). -/
def listFull (d : Dev) (r : Region) : Dev := d.err (RGN_RELEASE_ERR_list_full r.val) r 0x2F1

/-- Why a release record is refused at handoff, if it is (R186, R188): the drop code. -/
def refusesRecord (d : Dev) (r : Region) (rr : ReleaseRec) : Option Nat :=
  let e := recordRegion rr
  if d.fenced e.val then some 0x0F
  else if d.recordLimit ≤ d.holdingCount r (releaseAt rr)
      ∨ d.recordLimit ≤ ((d.g e).egress.records.filter (fun x => releaseAt x == releaseAt rr)).length then some 0x0A
  else none

/-- The packets handed to a region from others whose records satisfy a test (R205): a packet counts once however many copies it has. -/
def handed (d : Dev) (r : Region) (f : ReleaseRec → Bool) : Nat :=
  (((d.g r).egress.records.filter (fun x => handleRegion x.head != r.val && f x)).map (fun x => (x.stamp, x.pkt))).dedup.length

/-- Put a record in the list of its egress region, or send it there (R182). -/
def handRecord (d : Dev) (r : Region) (rr : ReleaseRec) : Dev :=
  let e := recordRegion rr
  if e = r then d.modEgress e (fun x => { x with records := x.records ++ [rr] }) else d.send r.val e.val (.releaseRec rr)

/-- Send the mirror copies of a packet (R287, R288, R583): all of them at a verdict, those with on_drop at a drop; MIRR returns its
reference for the others. -/
def sendMirror (d : Dev) (n : Nat) (p : Packet) (dropped : Bool) (copy : Nat) (m : Option Nat) : Dev :=
  match m with
  | none => d
  | some v =>
    let r := R p.region
    let ses := v % 64
    let (head, length) := ((p.mirrors.find? (·.1 == copy)).map (·.2)).getD (p.head, p.length)
    let rr : ReleaseRec := {
      stamp := p.stamp, transit := p.transit, copy, host := false,
      dest := d.fld (RGN_MIRROR_queue r.val ses), head, length, poisoned := p.poisoned,
      mirrorTail := true, pkt := n }
    let out : Copyout := {
      record := rr, rewrite := [], parse := p.parse, pane := p.pane, paneGen := p.paneGen,
      release := releaseAt rr, mirror := true, shared := false, outcome := none, head := none, meta0 := 0, mirrorField := v }
    if dropped && !onDrop v then d.deref (requesterId r.val reqMirr) head
    else if !d.on (RGN_MIRROR_enable r.val ses) then
      d.modEgress r (fun x => { x with copies := x.copies ++ [{ out with outcome := some 3 }] })
    else match d.refusesRecord r rr with
      | some code => ((d.when (code == 0x0A) (·.listFull r)).dropCount r code).deref (requesterId r.val reqMirr) head
      | none => (d.modEgress r (fun x => { x with copies := x.copies ++ [out] })).handRecord r rr

/-- Both mirrors of a packet. -/
def sendMirrors (d : Dev) (n : Nat) (p : Packet) (dropped : Bool) : Dev :=
  (d.sendMirror n p dropped 1 p.mirrorA).sendMirror n p dropped 2 p.mirrorB

/-! ### Head segments (R191, R192, R579, R580) -/

/-- Where the head segment of a rewritten copy ends (R579, R580): it holds the whole packet, or the bytes of its first stitches and goes on
with the packet's own next stitch, or with a shared chain that the packet links, from a stitch of that chain on. -/
inductive HeadCut where
  | whole
  | own (n : Nat)
  | shared (head skip n : Nat)
deriving DecidableEq, Repr

/-- The cut of a packet: at the first end of a stitch at or after byte 512, which is original stitch 2 in a packet that was not rewritten
before. In one that was rewritten between passes its stitches may be shorter; no cut is made where a link cannot name it, a link passing over
at most three stitches: DESIGN CHOICE (log 72). `many` holds where the chain stays and each copy links it. -/
def headCut (d : Dev) (p : Packet) (many : Bool) : HeadCut :=
  let l := d.stitches 512 0 p.head
  let own := d.chain 512 p.head
  let n := d.covering 512 l
  if p.length ≤ 512 ∨ l.length ≤ n then .whole
  else if n < own.length then (if many && decide (3 < n) then .whole else .own n)
  else
    let e := d.desc (own.getLastD p.head)
    let head := handleOf (handleRegion p.head) (e.next / 2 ^ 25) (e.next % 2 ^ 25)
    let skip := e.skip + (n - own.length)
    if skip ≤ 3 ∧ skip < (d.chain 512 head).length then .shared head skip n else .whole

/-- How many of the packet's stitches a cut leaves to the head segment, and none where it holds them all. -/
def HeadCut.stitches : HeadCut → Option Nat
  | .whole => none
  | .own n => some n
  | .shared _ _ n => some n

/-- Whether a copy's head segment goes on with stitches of the packet's chain (R580). -/
def plainHead (d : Dev) (p : Packet) : Bool := (HeadCut.stitches (d.headCut p false)).isSome

/-- The bytes of a packet that its head segment holds, before its list is applied. -/
def headBytes (d : Dev) (p : Packet) (many : Bool) : Nat :=
  match HeadCut.stitches (d.headCut p many) with
  | some n => (((d.stitches 512 0 p.head).take n).map (fun h => (d.desc h).bytes)).sum
  | none => p.length

/-- The head segment of a rewritten copy (R579): its bytes up to the cut, with the list applied. -/
def headSegment (d : Dev) (r : Region) (p : Packet) (entries : List Nat) (many : Bool) : List Byte :=
  rewriteHead (d.template r.val p.pane) entries (parseInsts p.parse) (d.packetData p.head) (d.headBytes p many)

/-- The byte counts of the stitches of `n` bytes. -/
def stitchSizes (n : Nat) : List Nat := (List.range ((n + 255) / 256)).map (fun i => min 256 (n - 256 * i))

/-- Write bytes into the stitches of a chain, 256 to each. -/
def writeChain (d : Dev) : List Nat → List Byte → Dev
  | [], _ => d
  | h :: t, b => writeChain (d.setBytes (d.stitchAddr h) (b.take 256)) t (b.drop 256)

/-- Write a head segment for a copy of a packet and link it (R192, R579, R580): none where PKT finds no stitch under the rewrite floor.
`many` holds where the packet has two or more rewritten copies, and where mirror copies hold references on its chain (R583): the chain
stays, and MREP takes a reference for each copy. A sole copy takes over the stitches, or the reference, that it goes on with. -/
def makeHead (d : Dev) (r : Region) (p : Packet) (entries : List Nat) (many : Bool) : Dev × Option Nat :=
  let bytes := d.headSegment r p entries many
  let cut := d.headCut p many
  let own := d.chain 512 p.head
  match d.alloc r reqPkt 0 p.stamp.tc (stitchSizes bytes.length) with
  | (d, .ok h) =>
    let seg := d.chain 512 h
    let d := d.writeChain seg bytes
    let last := seg.getLastD h
    let e := d.desc last
    let share (d : Dev) (head skip : Nat) : Dev :=
      d.setDesc last { e with last := false, refLink := true, skip, next := handleKey head % 2 ^ 26 }
    match cut, many with
    | .whole, _ => (d, some h)
    | .own n, true => ((share d p.head n).addref (requesterId r.val reqMrep) p.head, some h)
    | .shared head skip _, true => ((share d head skip).addref (requesterId r.val reqMrep) head, some h)
    | .own n, false =>
      (((d.setDesc last { e with last := false, next := handleKey (own.getD n h) % 2 ^ 26 }).freeWalk r (requesterId r.val reqPkt)
        (own.take n)).1, some h)
    | .shared head skip _, false => (((share d head skip).freeWalk r (requesterId r.val reqPkt) own).1, some h)
  | (d, _) => (d, none)

/-- The stitches of a copy's chain once its head segment of `bytes` bytes is linked. -/
def copyStitches (d : Dev) (p : Packet) (bytes : Nat) (many : Bool) : Nat :=
  (bytes + 255) / 256 + (match HeadCut.stitches (d.headCut p many) with
    | some n => (d.stitches 512 0 p.head).length - n
    | none => 0)

/-! ### Enqueue (R185, R198, R586, R587) -/

/-- The ledger key of a unit in its region (R778). -/
def unitKey (kind index : Nat) : Nat := kind * 2 ^ 16 + index

/-- The units' effective states at reset (R779): every unit is at zero. -/
def unitDefault : Nat → LedgerUnit := fun _ => ⟨0, 0, 0, false⟩

/-- A unit of the ledger. -/
def unit (d : Dev) (r : Region) (kind index : Nat) : LedgerUnit := Sparse.get unitDefault (d.g r).ledger (unitKey kind index)

/-- A job that waits for a unit, as a write of the unit's requested state at shutter `since` supersedes it (R776). -/
def supersedeJob (r kind index since : Nat) (j : Job) : Job :=
  match j.kind with
  | .unitWait q k i s => if q = r ∧ k = kind ∧ i = index ∧ s = since then { j with kind := .unitWait q k i ((s + 2 ^ 48 - 1) % 2 ^ 48) } else j
  | _ => j

/-- A write of a unit's requested state restarts its count of consecutive shutters; it takes effect at the next shutter (R781), and an
earlier job that waits for the unit is superseded (R776). -/
def noteRequest (d : Dev) (r : Region) (kind index : Nat) : Dev :=
  let u := d.unit r kind index
  let since := ((d.g r).tick + 1) % 2 ^ 48
  let u : LedgerUnit := { u with mismatch := 0, since }
  let d := { d with thody := { d.thody with jobs := d.thody.jobs.map (supersedeJob r.val kind index since) } }
  d.modR r (fun g => { g with ledger := Sparse.set unitDefault g.ledger (unitKey kind index) u })

/-- The port that serves a local queue (R584). -/
def queuePort (d : Dev) (e : Region) (q : Nat) : Nat := d.fld (RGN_EG_CFG_port e.val (d.fld (RGN_EQ_CFG_group e.val q)))

/-- Whether a port's link is up. -/
def linkUp (d : Dev) (e : Region) (p : Nat) : Bool := d.on (RGN_PORT_STAT_link_up e.val p)

/-- The entries of a queue. -/
def queue (d : Dev) (e : Region) (q : Nat) : List QueueEntry := Sparse.get (fun _ => []) (d.g e).egress.queues q

/-- Write the entries of a queue, and the depth and spilling bit that its status reports (R603). -/
def setQueue (d : Dev) (e : Region) (q : Nat) (l : List QueueEntry) : Dev :=
  ((d.modEgress e (fun x => { x with queues := Sparse.set (fun _ => []) x.queues q l })).setFld (RGN_EQ_STAT_depth e.val q)
    ((l.map (·.stitches)).sum)).setFld (RGN_EQ_STAT_spilling e.val q) (if l.any (·.spilling) then 1 else 0)

/-- A copy that a holding region still has to settle. -/
def copyout (d : Dev) (r : Region) (stamp : Stamp) (copy : Nat) : Option Copyout :=
  (d.g r).egress.copies.find? (fun c => c.record.stamp == stamp && c.record.copy == copy)

/-- Change or remove a copy of a holding region. -/
def modCopyout (d : Dev) (r : Region) (stamp : Stamp) (copy : Nat) (f : Copyout → Option Copyout) : Dev :=
  d.modEgress r (fun x => { x with copies := x.copies.filterMap (fun c =>
    if c.record.stamp = stamp ∧ c.record.copy = copy then f c else some c) })

/-- Free the chain of a packet as received, where it was kept beside a rewritten one for the mirrors that may still be taken (R287). -/
def freeOrig (d : Dev) (r : Region) (p : Packet) : Dev :=
  match p.orig with
  | some (h, _) => d.freePkt r h
  | none => d

/-- One copy of a packet is settled; with the last, the packet is gone and PKT frees what is left of the original chain. -/
def copyDone (d : Dev) (r : Region) (n : Nat) : Dev :=
  match d.pkt n with
  | none => d
  | some p =>
    if p.copies ≤ 1 then
      ((if p.consumed then d else d.freePkt r p.head).freeOrig r p).setPkt n none
    else d.setPkt n (some { p with copies := p.copies - 1 })

/-- Settle a copy whose outcome is known and whose head segment, where it has one, is written (R578, R583). -/
def settle (d : Dev) (r : Region) (stamp : Stamp) (copy requester : Nat) : Dev :=
  match d.copyout r stamp copy with
  | none => d
  | some c =>
    let gone := fun d : Dev => d.modCopyout r stamp copy (fun _ => none)
    match c.outcome, c.head, c.mirror with
    | some 2, _, true => gone (d.deref (requesterId r.val reqMirr) c.record.head)
    | some _, _, true => gone d
    | some 2, some h, false => ((gone d).freePkt r h).copyDone r c.record.pkt
    | some 2, none, false => (gone d).copyDone r c.record.pkt
    | some _, some h, false =>
      let d := if c.record.host then (d.addref (requesterId r.val reqHdma) h).freePkt r h
        else d.handover (requesterId r.val reqPkt) h requester
      (gone d).copyDone r c.record.pkt
    | _, _, _ => d

/-- The outcome of an enqueue reaches the holding region (R578): 0 accepted, 1 accepted for spill, 2 refused. -/
def noteOutcome (d : Dev) (r : Region) (stamp : Stamp) (copy outcome requester : Nat) : Dev :=
  (d.modCopyout r stamp copy (fun c => some { c with outcome := some outcome })).settle r stamp copy requester

/-- Report the outcome of an enqueue to the holding region, at once or by ENQ_OUTCOME (R578). -/
def reportOutcome (d : Dev) (e : Region) (rr : ReleaseRec) (outcome requester : Nat) : Dev :=
  let h := R (handleRegion rr.head)
  if h = e then d.noteOutcome h rr.stamp rr.copy outcome requester
  else d.send e.val h.val (.enqOutcome outcome rr.stamp rr.copy requester)

/-- Refuse a record at enqueue with a drop code (R185). -/
def refuse (d : Dev) (e : Region) (rr : ReleaseRec) (code : Nat) : Dev :=
  (d.dropCount e code).reportOutcome e rr 2 0

/-- The stitches that a record's copy takes in its queue (R586). -/
def recordStitches (d : Dev) (rr : ReleaseRec) : Nat :=
  let r := R (handleRegion rr.head)
  match d.pkt rr.pkt, d.copyout r rr.stamp rr.copy with
  | some p, some c =>
    if rr.mirrorTail then (rr.length + 255) / 256 else d.copyStitches p (d.headSegment r p c.rewrite c.shared).length c.shared
  | _, _ => (rr.length + 255) / 256

/-- Put a released host packet in its receive queue (R187, R736). -/
def enqueueHost (d : Dev) (e : Region) (rr : ReleaseRec) : Dev :=
  match regionEndpoint e.val with
  | none => d.refuse e rr 0x0A
  | some ep =>
    let q := rr.dest % 512
    let l := Sparse.get (fun _ => []) (d.ep ep).rxq q
    if !d.on (HST_QP_CFG_rx_en ep.val q) || 256 ≤ l.length then (d.refuse e rr 0x0A).raise e 0x3C5
    else
      let r := R (handleRegion rr.head)
      let (m, ns, sec) := match d.copyout r rr.stamp rr.copy, d.pkt rr.pkt with
        | some c, some p => (c.meta0, p.rxTime, p.rxSec)
        | _, _ => (0, 0, 0)
      let x : RxPkt := ⟨rr, m, ns, sec, (d.g e).tick, false⟩
      (d.modEp ep (fun s => { s with rxq := Sparse.set (fun _ => []) s.rxq q (l ++ [x]) })).reportOutcome e rr 0
        (requesterId e.val reqHdma)

/-- Enqueue one released record (R133, R185, R188, R198, R586, R587). A copy for a mirror with on_drop goes its way though the tag of its packet
names a pane that is gone (R288); without on_drop it is given back uncounted, its packet being the one that drops. -/
def enqueue (d : Dev) (e : Region) (rr : ReleaseRec) : Dev :=
  let r := R (handleRegion rr.head)
  let q := rr.dest % 4096
  let p := d.queuePort e q
  let field := ((d.copyout r rr.stamp rr.copy).map (·.mirrorField)).getD 0
  let retired := match d.copyout r rr.stamp rr.copy with
    | some c => d.paneGoneThen r c.pane c.paneGen && (d.g r).mode.isRun && !(c.mirror && onDrop field)
    | none => false
  if d.fenced r.val then d.refuse e rr 0x0F
  else if retired then (if rr.mirrorTail then d.reportOutcome e rr 2 0 else d.refuse e rr 0x11)
  else if rr.host then d.enqueueHost e rr
  else if d.fld (RGN_PORT_CFG_max_frame e.val p) < rr.length then
    (d.setOn (RGN_RELEASE_ERR_oversize e.val)).refuse e rr 0x07
  else if (d.unit e 2 q).effective ≠ 1 ∨ !d.linkUp e p
      ∨ d.fld (RGN_EQ_LIM_limit e.val q) * 64 ≤ d.fld (RGN_EQ_STAT_depth e.val q) then d.refuse e rr 0x0A
  else
    let n := d.recordStitches rr
    let onchip := ((d.queue e q).filter (fun x => !x.spilling && handlePool x.head == 0)).map (·.stitches)
    let wants := d.on (RGN_EQ_CFG_spill_en e.val q) && !d.stackFailed e.val && d.fld (RGN_EQ_LIM_spill_thr e.val q) ≤ onchip.sum
      && (d.g e).egress.spillBacklog < 4096
    let room := n ≤ d.fld (RGN_DEEP_FREE_deep_free e.val)
    let spill := wants && room
    let d := if wants && !room then d.err (RGN_EQ_ERR_deep_refused e.val) e 0x202 else d
    let entry : QueueEntry := {
      record := rr, head := rr.head, stitches := n,
      trunc := if rr.mirrorTail then d.fld (RGN_MIRROR_trunc r.val (field % 64)) else 0,
      ready := rr.mirrorTail, spilling := spill, bySpill := spill }
    let d := (d.setQueue e q (d.queue e q ++ [entry])).event e 0x140 q
    let d := if spill then (d.modEgress e (fun x => { x with spillBacklog := x.spillBacklog + n })).event e 0x142 q else d
    d.reportOutcome e rr (if spill then 1 else 0) (requesterId e.val (if spill then reqSpill else reqTx p))

/-- The stamp order (R164), copies after one another: one number to compare, the ticks as they lie about the tick `now` (R84). -/
def stampRank (now : Nat) (x : ReleaseRec) : Nat :=
  (((ticksAhead (x.stamp.tick + 2 ^ 47) now * 2 ^ 13 + x.stamp.time) * 128 + x.stamp.port) * 2 ^ 16 + x.stamp.seq) * 32 + x.copy

/-- Insert a record in stamp order. -/
def insertRecord (now : Nat) (m : ReleaseRec) : List ReleaseRec → List ReleaseRec
  | [] => [m]
  | a :: t => if stampRank now m < stampRank now a then m :: a :: t else a :: insertRecord now m t

/-- Records in stamp order. -/
def inStampOrder (now : Nat) : List ReleaseRec → List ReleaseRec
  | [] => []
  | m :: t => insertRecord now m (inStampOrder now t)

/-- Close the release list of a region for a shutter: its packets are enqueued in stamp order (R185). -/
def closeList (d : Dev) (e : Region) (shutter : Nat) : Dev :=
  let due := inStampOrder shutter ((d.g e).egress.records.filter (fun x => releaseAt x == shutter))
  let d := d.modEgress e (fun x => { x with closed := true, records := x.records.filter (fun x => releaseAt x != shutter) })
  (d.setFld (RGN_RELEASE_STAT_released e.val) due.length).each due (fun rr d => d.enqueue e rr)

/-- Enqueue at once the records of a packet that has no transit, as on a loopback port outside the run modes (R56). -/
def releaseRecords (d : Dev) (n : Nat) (stamp : Stamp) : Dev :=
  let mine (x : ReleaseRec) : Bool := x.pkt == n && x.stamp == stamp
  (List.finRange 8).foldl (fun d e =>
    let l := (d.g e).egress.records.filter mine
    (d.modEgress e (fun x => { x with records := x.records.filter (fun y => !mine y) })).each l (fun rr d => d.enqueue e rr)) d

/-! ### Drops (R175, R201) -/

/-- A packet that no copy leaves is gone (R201, R288): its mirrors are kept where they stand, and PKT frees its chain. -/
def endDropped (d : Dev) (n : Nat) (p : Packet) : Dev :=
  let r := R p.region
  let d := d.sendMirrors n p true
  let d := (((d.leaveFlight r p).freePkt r p.head).freeOrig r p).setPkt n none
  if (d.g r).mode.isRun then d else d.releaseRecords n p.stamp

/-- Drop a packet between its stamp and its release: counted once, its entry and chain freed, its mirrors kept where they stand. -/
def dropPacket (d : Dev) (n code : Nat) : Dev :=
  match d.pkt n with
  | none => d
  | some p =>
    let r := R p.region
    let d := (d.dropCount r code).freeEntry n
    let d := match p.stage with
      | .queued q => d.unqueue r q n
      | _ => d
    d.endDropped n p

/-! ### Verdicts (R181–R188, R284, R285, R581) -/

/-- Where a destination word leads (R281, R585): host, and the global queue or the endpoint with its host queue; none for no kind. -/
def destination (d : Dev) (dest : Nat) : Option (Bool × Nat) :=
  match dest / 2 ^ 30 with
  | 1 => some (false, dest % 2 ^ 15)
  | 2 =>
    let g := dest % 64
    some (false, g / 8 * 4096 + d.fld (RGN_EP_TCQ_queue (g / 8) (g % 8) (dest / 64 % 8)))
  | 3 => some (true, dest % 1024)
  | _ => none

/-- The valid entries of a replication list: copy index and global queue (R581). -/
def replicas (d : Dev) (r l : Nat) : List (Nat × Nat) :=
  (List.range 16).filterMap (fun k => if d.on (RGN_REPL_valid r l k) then some (3 + k, d.fld (RGN_REPL_queue r l k)) else none)

/-- Set rewrite_invalid (R197). -/
def rewriteInvalid (d : Dev) (r : Region) : Dev := d.err (RGN_RELEASE_ERR_rewrite_invalid r.val) r 0x2F2

/-- Whether a list passes R197 on a packet. -/
def listFits (d : Dev) (r : Region) (p : Packet) (entries : List Nat) : Bool :=
  listOk entries (parseInsts p.parse) p.length (64 * d.tmplUnits r.val p.pane)

/-- One copy of a forward or host verdict: its record is handed on, or refused with a drop (R182, R186, R188). Of a packet with more
copies, each one that is refused counts as a drop, DESIGN CHOICE (log 141). -/
def sendCopy (d : Dev) (n : Nat) (p : Packet) (entries : List Nat) (host : Bool) (meta0 : Nat) (many : Bool) (c : Nat × Nat) :
    Dev × Bool :=
  let r := R p.region
  let rr : ReleaseRec := {
    stamp := p.stamp, transit := p.transit, copy := c.1, host, dest := c.2, head := p.head,
    length := lengthAfter entries p.length, poisoned := p.poisoned, mirrorTail := false, pkt := n }
  match d.refusesRecord r rr with
  | some code => ((d.when (code == 0x0A) (·.listFull r)).dropCount r code, false)
  | none =>
    let out : Copyout := {
      record := rr, rewrite := entries, parse := p.parse, pane := p.pane,
      paneGen := p.paneGen, release := releaseAt rr, mirror := false, shared := many, outcome := none, head := none, meta0, mirrorField := 0 }
    ((d.modEgress r (fun x => { x with copies := x.copies ++ [out] })).handRecord r rr, true)

/-- Release a packet without transit, as on a loopback port outside the run modes (R56): its records are enqueued at once. -/
def releaseNow (d : Dev) (n : Nat) : Dev :=
  match d.pkt n with
  | none => d
  | some p => (d.leaveFlight (R p.region) p).releaseRecords n p.stamp

/-- Take a forward or host verdict (R182, R284, R285, R581): the list is checked, and a record goes out for each copy. Its mirrors go with
them: one without on_drop is not held back for a copy that its queue refuses later, DESIGN CHOICE (log 142). -/
def forward (d : Dev) (n : Nat) (dest : Nat) (entries : List Nat) (meta0 repl : Nat) : Dev :=
  match d.pkt n with
  | none => d
  | some p =>
    let r := R p.region
    if !d.listFits r p entries then (d.rewriteInvalid r).dropPacket n 0x07
    else
      let copies : List (Nat × Nat) × Bool :=
        if repl ≠ 0 then (d.replicas r.val repl, false)
        else match d.destination dest with
          | some (host, q) => ([(0, q)], host)
          | none => ([], false)
      if copies.1 = [] then d.dropPacket n 0x07
      else
        let (d, k) := copies.1.foldl (fun acc c =>
          let (d', ok) := acc.1.sendCopy n p entries copies.2 meta0 (2 ≤ copies.1.length || (!p.mirrors.isEmpty && p.orig.isNone)) c
          (d', if ok then acc.2 + 1 else acc.2)) (d, 0)
        let d := d.freeEntry n
        if k = 0 then d.endDropped n p
        else
          let d := (d.sendMirrors n p false).modPkt n (fun p => { p with stage := .verdict, copies := k, rewrite := entries })
          if (d.g r).mode.isRun then d else d.releaseNow n

/-- Send a packet to its next pass (R178–R181, R186, R286): the list is checked now and applied at the shutter that ends the pass. Of a packet in
its last permitted pass the list is checked first, and the records that its region may hold for a shutter last, DESIGN CHOICE (log 143). -/
def recirculate (d : Dev) (n : Nat) (entries : List Nat) : Dev :=
  match d.pkt n with
  | none => d
  | some p =>
    let r := R p.region
    let ends := (p.stamp.tick + 2 * p.pass + 1) % 2 ^ 48
    if !d.listFits r p entries then (d.rewriteInvalid r).dropPacket n 0x07
    else if p.maxPasses ≤ p.pass then
      ((d.addSat (RGN_RELEASE_STAT_recirc_limit r.val) 1).event r 0x103 0).dropPacket n 0x0B
    else if entries ≠ [] ∧ d.recordLimit ≤ d.holdingCount r ends then (d.listFull r).dropPacket n 0x0A
    else (d.freeEntry n).modPkt n (fun p => { p with stage := .recirc ends, rewrite := entries })

/-- Refuse a recirculated pass for want of share (R180, R292, R507). -/
def shareRefusal (d : Dev) (n : Nat) : Dev :=
  match d.pkt n with
  | none => d
  | some p =>
    ((d.addSat (RGN_RELEASE_STAT_recirc_refused p.region) 1).event (R p.region) 0x103 1).dropPacket n 0x0B

end Dev

end Sys2Proof.Machine
end

