-- ==== Sys2Proof/Machine/Front.lean ====
section
/-!
DEFINITION. From the port to a worker's window (R160–R181, R228–R296, R334–R345, R379–R385, R490–R507, R703–R715): reception and
admission, the front-end pass, the primary lookups with learning, placement, and the write of the packet window.
-/

namespace Sys2Proof.Machine

namespace Dev

/-! ### Admission (R161–R167, R561, R708) -/

/-- The traffic class of a frame (R708). -/
def frameClass (d : Dev) (r : Region) (p : Nat) (f : List Byte) : Nat :=
  let tpid := ofBE (sliceOf f 12 2)
  if tpid = 0x8100 ∨ tpid = 0x88A8 then
    let pcp := (ofBE (sliceOf f 14 1)) / 32
    bitsOf (d.fld (RGN_PORT_TC_pcp_map r.val p)) (3 * pcp + 2) (3 * pcp)
  else d.fld (RGN_PORT_TC_default_tc r.val p)

/-- Take the first `n` stitches of a frame for an admission requester (R561): those after the head stitches from the deep pool where the
port says so, and from the on-chip pool where that refuses them; the host admission uses the on-chip pool only (R564). The result lists
each with its pool. -/
def takeFrame (d : Dev) (r : Region) (l n : Nat) : Option (Dev × List (Nat × Nat)) :=
  let k := if decide (l < 8) && d.on (RGN_ADM_CFG_tail_deep r.val l) && !d.stackFailed r.val then min n (d.fld (RGN_ADM_CFG_head_stitches r.val l)) else n
  match d.takeStitches r l 0 k with
  | none => none
  | some (d1, heads) =>
    let heads := heads.map (fun i => (0, i))
    if k = n then some (d1, heads)
    else match d1.takeStitches r l 1 (n - k) with
      | some (d2, t) => some (d2, heads ++ t.map (fun i => (1, i)))
      | none =>
        let d1 := d1.err (RGN_EQ_ERR_deep_refused r.val) r 0x202
        (d1.takeStitches r l 0 (n - k)).map (fun x => (x.1, heads ++ x.2.map (fun i => (0, i))))

/-- The stitches that a requester may take before its quota is exhausted, up to `n` (R573). -/
def quotaRoom (d : Dev) (r : Region) (l n : Nat) : Nat := (List.range n).foldl (fun a k => if d.withinQuota r l k then k else a) 0

/-- Allocate the stitches of a frame (R165, R561): one that cannot be had drops the frame, for the quota where that is exhausted before the
pool is empty. -/
def takeIn (d : Dev) (r : Region) (l cls len : Nat) : Dev × AllocStatus :=
  let sizes := stitchSizes len
  let n := sizes.length
  if !d.withinQuota r l n then (d, if (d.takeFrame r l (d.quotaRoom r l n)).isSome then .quota else .empty)
  else match d.takeFrame r l n with
    | none => (d, .empty)
    | some (d2, is) =>
      let d3 := (d2.charge r l (· + n)).linkChain r l cls is sizes
      (d3.event r 0x130 l n, match is with | (p, i) :: _ => .ok (handleOf r.val p i) | [] => .empty)

/-- The sequence number that the next frame of a source port takes in this tick (R162). -/
def nextSeq (d : Dev) (r : Region) (port : Nat) : Nat := Sparse.get (fun _ => 0) (d.g r).front.seqs port

/-- The order profile that a source takes (R169). -/
def sourceProfile (d : Dev) (r : Region) (l tc : Nat) : Nat := d.fld (RGN_OD_MAP_profile r.val (l * 8 + tc))

/-- The effective transit of a profile (R170, R171), and its passes. -/
def profilePasses (d : Dev) (r : Region) (p : Nat) : Nat :=
  if d.workMode r = .extended then 1 else d.fld (RGN_OD_PROFILE_max_passes r.val p)
def profileTransit (d : Dev) (r : Region) (p : Nat) : Nat :=
  d.fld (RGN_OD_PROFILE_transit r.val p) + 2 * (d.profilePasses r p - 1)

/-- The entries of the general pool of the task store (R491). -/
def generalPool (d : Dev) (r : Region) : Nat := 8192 - d.fld (RGN_DSP_CTL_recirc_reserve r.val)

/-- Stamp an admitted packet (R160–R163, R491, R578): PKT takes its chain, and it enters flight with its task entry. -/
def stampPacket (d : Dev) (r : Region) (l port tc head len time ns sec : Nat) (reserved : Bool) : Dev :=
  let seq := d.nextSeq r port
  let d := d.modFront r (fun f => { f with seqs := Sparse.set (fun _ => 0) f.seqs port (seq + 1) })
  let d := d.handover (requesterId r.val l) head (requesterId r.val reqPkt)
  let d := if reserved then d else (d.modDsp r (fun x => { x with general := x.general + 1 })).pressure r
  let stamp : Stamp := ⟨port, tc, seq, (d.g r).tick, time % 2 ^ 13⟩
  let p : Packet := {
    region := r.val, stamp, localPort := l, head, length := len, rxTime := ns, rxSec := sec, stage := .stamped,
    pass := 0, paneKnown := false, pane := 0, paneGen := 0, profile := d.sourceProfile r l tc, transit := 0,
    maxPasses := 1, narrowed := false, flowHash := 0, parse := [], cls := [], front := [], results := [], lookups := [],
    flooded := [], learnDrop := false, mirrorA := none, mirrorB := none, mirrors := [], rewrite := [], poisoned := false, target := 0,
    entry := 0, sendBack := false, task := true, reserve := false, copies := 0, consumed := false, orig := none }
  let d := { d.setPkt d.nextPacket (some p) with nextPacket := d.nextPacket + 1 }
  (d.setFld (RGN_INFLIGHT_count r.val) (d.fld (RGN_INFLIGHT_count r.val) + 1)).event r 0x100 l

/-- Whether a port takes frames now: UP in a run mode, or in loopback in LOAD, CONFIGURE and TEST (R56, R709, R779). -/
def portTakes (d : Dev) (r : Region) (p : Nat) : Bool :=
  (d.unit r 1 p).effective == 2 && !d.fenced r.val
    && ((d.g r).mode.isRun || d.fld (RGN_PORT_CFG_loopback r.val p) != 0)

/-- Whether a frame is a MAC control frame, and whether it is a PFC frame (R707). -/
def macControl (f : List Byte) : Bool := ofBE (sliceOf f 12 2) == 0x8808
def isPfc (f : List Byte) : Bool := macControl f && ofBE (sliceOf f 14 2) == 0x0101

/-- The admission and the stamp of a frame that the MAC accepts (R165–R167, R506, R507). -/
def admitFrame (d : Dev) (r : Region) (p : Nat) (frame : List Byte) (good : Bool) (time ns sec : Nat) : Dev :=
  let tc := d.frameClass r p frame
  match d.takeIn r p tc frame.length with
  | (d, .quota) => d.dropCount r 0x02
  | (d, .empty) => d.dropCount r 0x01
  | (d, .ok h) =>
    let d := d.writeChain (d.chain 512 h) frame
    let free (d : Dev) := d.free' (requesterId r.val p) h
    let d := d.pfcCheck r p tc
    if !good then free (d.dropCount r 0x0D)
    else if ((d.g r).dispatch.pressed && bitOf (d.fld (RGN_DSP_CTL_bp_tc_mask r.val)) tc)
        || d.generalPool r ≤ (d.g r).dispatch.general then free (d.dropCount r 0x03)
    else d.stampPacket r p (r.val * 8 + p) tc h frame.length time ns sec false

end Dev

/-- FRAME_RECEIVE (R160–R167, R506, R507, R706–R708, R715): the last byte of a frame arrives at a port. -/
def execFrameReceive (r : Region) (p : Port) (frame : List Byte) (fcsOk fecBad : Bool) (corrected time ns sec : Nat)
    (s : State) : Out :=
  s.run fun d =>
    if !d.portTakes r p.val then d
    else
      let d := d.addSat (RGN_PORT_FEC_corrected r.val p.val) corrected
      let d := if fecBad then
          (d.addSat (RGN_PORT_FEC_uncorrected r.val p.val) 1).raise r (0x380 + p.val * 4 + 1)
        else d
      if frame.length < 60 || (Dev.macControl frame && !Dev.isPfc frame) then d.addSat (RGN_PORT_DISC_runt_ctl r.val p.val) 1
      else if d.fld (RGN_PORT_CFG_max_frame r.val p.val) < frame.length then d.addSat (RGN_PORT_DISC_oversize r.val p.val) 1
      else if Dev.isPfc frame && fcsOk && !fecBad then d
      else if (d.g r).mode = .drain then d.addSat (RGN_PORT_DRAIN_drained r.val p.val) 1
      else d.admitFrame r p.val frame (fcsOk && !fecBad) time ns sec

namespace Dev

/-! ### The front-end pass (R173, R228–R296) -/

/-- The pane tag of a first pass (R124): the pane ACTIVE in the front-end tick, even where that tick has not begun. -/
def paneTag (d : Dev) (r : Region) (p : Packet) : Nat × Nat :=
  let act := d.fld (RGN_PANE_STAT_active r.val)
  let gen := d.paneGeneration r
  let now := (d.g r).tick
  let chip := d.fld (CHP_PANE_STAT_active d.A)
  if now ≠ p.stamp.tick then (act, gen)
  else if d.anchorSt.swapAt = some ((now + 1) % 2 ^ 48) then (1 - act, (gen + 1) % 256)
  else if act ≠ chip ∧ d.anchorSt.swapAt ≠ some now then (chip, d.fld (CHP_PANE_STAT_generation d.A))
  else (act, gen)

/-- Count one in a parse or hit counter that raises its source when it saturates (R251, R297). -/
def countTo (d : Dev) (f : Fld) (r : Region) (src : Nat) : Dev :=
  let d' := d.addSat f 1
  if d.fld f = 2 ^ 32 - 2 then d'.raise r src else d'

/-- Count the flags of a parse (R237, R250). -/
def countFlags (d : Dev) (r : Region) (w : Walk) : Dev :=
  ([(w.depthExceeded, 0), (w.lenShort, 1), (w.lenLong, 2), (w.unknownEnd, 3)].filter (·.1)).foldl
    (fun d x => d.countTo (RGN_PARSE_CNT_count r.val x.2) r 0x102) d

/-- The classification state at the start of a pass (R276). -/
def clsStart (p : Packet) (first : Bool) : Cls :=
  { dest := 0, prog := none, disp := .thread, learn := 0, profile := p.profile, narrowed := p.narrowed,
    flowHash := p.flowHash,
    meta' := if first then List.replicate 8 0 else (List.range 8).map (fun i => ofLE (sliceOf p.cls (4 * i) 4)),
    front := [], mirrorA := p.mirrorA, mirrorB := p.mirrorB, newMirrors := 0, excess := false, dropped := false,
    overflow := false, absent := false, hits := [], keys := [] }

/-- Put a packet's task in its ready queue (R494, R517). -/
def enqueueTask (d : Dev) (n : Nat) : Dev :=
  match d.pkt n with
  | none => d
  | some p =>
    let r := R p.region
    let named := ofLE (sliceOf p.cls 28 1)
    let off := named != 0 && !d.on (RGN_DSP_QCFG_enable r.val named)
    let d := if off then d.err (RGN_DSP_ERR_misrouted r.val) r 0x182 else d
    let q := if off then 0 else named
    let l := Sparse.get (fun _ => []) (d.g r).dispatch.ready q ++ [n]
    let d := (d.modDsp r (fun x => { x with ready := Sparse.set (fun _ => []) x.ready q l })).modPkt n
      (fun p => { p with stage := .queued q })
    let d := ((d.setFld (RGN_DSP_QSTAT_depth r.val q) l.length).maxFld (RGN_DSP_QSTAT_peak r.val q) l.length).pressure r
    if l.length = d.fld (RGN_DSP_QTHR_q_hi r.val q) then d.event r 0x113 q else d

/-- End a front-end pass once its lookups are complete (R282, R286, R910). -/
def endPass (d : Dev) (n : Nat) : Dev :=
  match d.pkt n with
  | none => d
  | some p =>
    if p.learnDrop then d.dropPacket n 0x0C
    else if p.sendBack then d.recirculate n p.front
    else d.enqueueTask n

/-- The lookups that a pass issues: slot, table and key (R283). -/
def issued (d : Dev) (r p lset : Nat) (keys : List (Nat × List Byte)) : List PrimaryLookup :=
  if lset = 0x3F then []
  else (List.range 4).filterMap (fun k =>
    let e := d.lookupEntry r p lset k
    if bitOf e 127 then
      let key := ((keys.find? (·.1 == bitsOf e 122 120)).map (·.2)).getD []
      some ⟨k, bitsOf e 91 80, sliceOf key (bitsOf e 119 114) (bitsOf e 113 108)⟩
    else none)

/-- Classify, take the mirrors of the packet as received, issue the lookups and end the pass (R220, R272–R288). -/
def classifyPass (d : Dev) (n : Nat) (p : Packet) (r : Region) (frame : List Byte) (parse : List Byte) (first : Bool) : Dev :=
  let view (m : List Nat) : KeyView := ⟨frame, p.length, parse, stampBytes p.stamp, m⟩
  let c := (d.passView r).classify r.val p.pane view first (clsStart p first)
  let header := (d.passView r).clsHeader r.val p.pane
  let d := c.hits.foldl (fun d h => d.countTo (RGN_CLS_HIT_count r.val h.1) r 0x112) d
  let d := if c.excess then d.setOn (RGN_CLS_ERR_mirror_excess r.val) else d
  let d := if c.overflow then d.err (RGN_CLS_ERR_front_overflow r.val) r 0x111 else d
  let (head, length) := p.orig.getD (p.head, p.length)
  let d := (List.range c.newMirrors).foldl (fun d _ => d.addref (requesterId r.val reqMirr) head) d
  let look := if c.dropped then [] else (d.passView r).issued r.val p.pane (c.entry header).2 c.keys
  let p := { p with
    parse, cls := c.result header, front := c.front, mirrorA := c.mirrorA, mirrorB := c.mirrorB,
    mirrors := p.mirrors ++ (if c.mirrorA.isSome && p.mirrorA.isNone then [(1, head, length)] else [])
      ++ (if c.mirrorB.isSome && p.mirrorB.isNone then [(2, head, length)] else []),
    profile := c.profile, narrowed := c.narrowed, flowHash := c.flowHash,
    transit := if first then (if (d.g r).mode.isRun then d.profileTransit r c.profile else 0) else p.transit,
    maxPasses := if first then d.profilePasses r c.profile else p.maxPasses,
    results := (List.range 4).map (fun _ => List.replicate 32 0), lookups := look, flooded := [], learnDrop := false,
    stage := .lookups, entry := (c.entry header).1, sendBack := c.disp == .recirc }
  let d := d.setPkt n (some p)
  if c.dropped then d.dropPacket n 0x06
  else if look = [] then d.endPass n
  else d

/-- Run a front-end pass of a packet (R228–R289): parse, classify, issue the lookups. -/
def runPass (d : Dev) (n : Nat) (p : Packet) (first : Bool) : Dev :=
  let r := R p.region
  let k := p.pass + 1
  let tag := if first then d.paneTag r p else (p.pane, p.paneGen)
  let p := { p with
    pass := k, paneKnown := true, pane := tag.1, paneGen := tag.2,
    target := (p.stamp.tick + 2 * k) % 2 ^ 48 }
  let d := (d.setPkt n (some p)).event r 0x102 k
  let frame := (d.packetData p.head).take 512
  if !first && d.paneGone r p.pane p.paneGen then d.dropPacket n 0x11
  else if d.chainPoisoned p.head (min 512 p.length) then
    (d.err (RGN_FE_ERR_poisoned_read r.val) r 0x101).dropPacket n 0x0E
  else
    let w := (d.passView r).parse r.val p.pane frame p.length (p.localPort == 8) (!first)
    let d := d.countFlags r w
    if w.depthExceeded && d.on (CHP_COMPAT_a1 d.A) then d.dropPacket n 0x04
    else if w.drop then d.dropPacket n 0x05
    else d.classifyPass n p r frame (w.result p.length k p.pane p.paneGen) first

end Dev

namespace Dev

/-- The stamp order of two packets (R164). -/
def stampBefore (now : Nat) (a b : Packet) : Bool :=
  let rank (p : Packet) := (((ticksAhead (p.stamp.tick + 2 ^ 47) now * 2 ^ 13 + p.stamp.time) * 128 + p.stamp.port) * 2 ^ 16 + p.stamp.seq)
  decide (rank a < rank b)

/-- Where a packet stands among those that wait for a front-end (R241, R291): a first pass of an Ethernet frame, one of a host packet, a
recirculated pass; none where it waits for no pass. -/
def passClass (p : Packet) : Option Nat :=
  match p.stage with
  | .stamped => some (if p.localPort = 8 then 1 else 0)
  | .front => some 2
  | _ => none

/-- Whether the next free slot of a front-end goes to a packet (R241): its class is the first that waits, and it is the first of its class. -/
def passNext (d : Dev) (r : Region) (n : Nat) (p : Packet) : Bool :=
  d.packets.all (fun e => e.1 == n || !e.2.any (fun q => q.region == r.val && (match passClass q, passClass p with
    | some a, some b => decide (a < b) || (a == b && stampBefore (d.g r).tick q p)
    | _, _ => false)))

/-- Whether a front-end has a slot left in this tick (R241): each that is enabled starts one packet every two region clocks. -/
def slotLeft (d : Dev) (r : Region) : Bool :=
  let on := ((List.range 4).filter (bitOf (d.fld (RGN_FE_STAT_fe_active r.val)))).length
  decide ((d.g r).front.firstUsed + (d.g r).front.recircUsed < on * d.periodClocks / 2)

end Dev

/-- FRONT_END_PASS (R173, R178–R180, R228–R291, R491): a front-end with a free slot takes the packet `n`, which is next, for its first or its
next pass. -/
def execFrontEndPass (n : Nat) (s : State) : Out := s.doing fun d =>
  match d.pkt n with
  | none => .refused .noSuchUnit
  | some p =>
    let r := Dev.R p.region
    if d.passNext r n p = false ∨ d.slotLeft r = false then .refused .noSuchUnit
    else match p.stage with
    | .stamped => .next ((d.modFront r (fun f => { f with firstUsed := f.firstUsed + 1 })).runPass n p true)
    | .front =>
      if d.fld (RGN_RECIRC_CTL_share r.val) ≤ (d.g r).front.recircUsed
          ∨ d.fld (RGN_DSP_CTL_recirc_reserve r.val) ≤ (d.g r).dispatch.recirc then .next (d.shareRefusal n)
      else
        let d := d.modFront r (fun f => { f with recircUsed := f.recircUsed + 1 })
        let d := (d.modDsp r (fun x => { x with recirc := x.recirc + 1 })).pressure r
        .next (d.runPass n { p with task := true, reserve := true } false)
    | _ => .refused .noSuchUnit

/-- FIRST_PASS_DEADLINE (R291): a first pass that can no longer start in time is not started. -/
def execFirstPassDeadline (n : Nat) (s : State) : Out := s.run fun d =>
  match d.pkt n with
  | some p => if p.stage = .stamped then d.dropPacket n 0x03 else d
  | none => d

/-- RECIRC_PASS_DEADLINE (R292): a recirculated pass that can no longer start in time is refused for want of share. -/
def execRecircPassDeadline (n : Nat) (s : State) : Out := s.run fun d =>
  match d.pkt n with
  | some p => if p.stage = .front then d.shareRefusal n else d
  | none => d

namespace Dev

/-! ### Learning (R334–R339, R909) -/

/-- A port's token bucket, in units of 1/256 event; it is full at reset (R336). -/
def tokens (d : Dev) (r : Region) (l : Nat) : Nat := Sparse.get (fun _ => 0x4000) (d.g r).tables.tokens l

/-- Write a port's token bucket. -/
def setTokens (d : Dev) (r : Region) (l v : Nat) : Dev :=
  d.modTables r (fun t => { t with tokens := Sparse.set (fun _ => 0x4000) t.tokens l v })

/-- Record a hit in a region; in the owner it wins over an EXPIRE staged in this tick (R342, R345). -/
def hit (d : Dev) (r : Region) (n : Nat) (slot : Nat) : Dev :=
  let t := d.table r n
  let d := d.recordHit r n t slot
  if t.ageEn && (bitsOf (d.slotCtl r t slot) 60 58 == r.val || (d.g r).mode == .regional) then d.hitWins r n slot else d

/-- The record of a learned entry (R338). -/
def learnRecord (d : Dev) (r : Region) (n : Nat) (key : List Byte) (p : Packet) : Mut :=
  { op := 3, source := 0, table := n, region := r.val, seq := 0, port := p.stamp.port,
    stampAge := ticksAhead (d.g r).tick p.stamp.tick % 16, time := p.stamp.time, extCount := 0, keyLen := 8, dataLen := 8,
    plen := 0, isStatic := false, ageEn := (d.table r n).ageEn, owner := r.val, index := 0,
    payload := key ++ bytesBE 8 (p.stamp.port * 2 ^ 39) }

/-- The learn outcome of a source lookup on MAC table `n` (R334, R909), and the part after it; nothing is learned while a change from
REGIONAL to DRAIN waits (R140). -/
def learn (d : Dev) (r : Region) (n : Nat) (key : List Byte) (x : LookupResult) (p : Packet) (control : Nat) : Dev × Nat :=
  let t := d.table r n
  let l := p.localPort
  let ctl := if x.hit then d.slotCtl r t x.index else 0
  let flood := d.on (RGN_LEARN_CFG_excess_flood r.val l)
  let staged := (d.g r).commit.staged.map (·.mu) ++ (d.g r).commit.lastStaged
  if x.hit ∧ bitsOf ctl 45 39 = p.stamp.port then (d.hit r n x.index, 0)
  else if x.hit && bitOf ctl 62 then (d, 9)
  else if control = 2 ∨ (control = 0 ∧ !d.on (RGN_LEARN_CFG_learn_default r.val l)) ∨ !(d.g r).mode.isRun
      ∨ ((d.g r).mode = .regional ∧ d.anchorSt.converging) then (d, 3)
  else if staged.any (fun m => m.source == 0 && m.table == n && m.key == key && m.port == p.stamp.port) then (d, 8)
  else if !x.hit ∧ (d.freeSlot r n t key).isNone then (d, 6)
  else if d.tokens r l < 256 then (d, if flood then 5 else 4)
  else match d.stage r (d.learnRecord r n key p) (.learn p.stamp.port) with
    | (d, false) => (d, 7)
    | (d, true) => (d.setTokens r l (d.tokens r l - 256), if x.hit then 2 else 1)

/-- Count a learn outcome (R354, R804). -/
def countOutcome (d : Dev) (r : Region) (l out : Nat) : Dev :=
  let d := d.event r 0x127 (l * 16 + out)
  match out with
  | 1 => d.countLearn r (RGN_LEARN_LEARNED_count r.val l) none
  | 2 | 9 => d.countLearn r (RGN_LEARN_MOVED_count r.val l) none
  | 4 | 5 | 7 => d.countLearn r (RGN_LEARN_LIMITED_count r.val l) (some 0x147)
  | 6 => d.countLearn r (RGN_LEARN_FULL_count r.val l) (some 0x148)
  | _ => d

/-- The fabric address of a byte of a cell's local memory (R76). -/
def clmAddr (c off : Nat) : Nat := c / 128 * 2 ^ 44 + 0x80000000000 + c / 8 % 16 * 0x1000000 + 0xC00000 + c % 8 * 0x10000 + off

/-- The cell address of a packet's frame (R379). -/
def frameOff (ctx number : Nat) : Nat := 0x8000 + (ctx % 32 * 4 + number % 4) * 0x200

/-- The forced miss of a flooded lookup (R335). -/
def forcedMiss (n : Nat) : List Byte := ({ LookupResult.miss n false false with forcedMiss := true } : LookupResult).bytes

/-- Put a primary lookup's result in its slot; a MAC table that the pass floods reads as a forced miss (R335). -/
def setResult (d : Dev) (n slot table : Nat) (b : List Byte) : Dev :=
  d.modPkt n (fun p =>
    let b := if p.flooded.contains table then forcedMiss table else b
    { p with results := p.results.set slot b, lookups := p.lookups.filter (·.slot != slot) })

/-- Flood a packet on a MAC table: results already written are misses too (R335). -/
def floodOn (d : Dev) (n table : Nat) : Dev :=
  d.modPkt n (fun p => { p with
    flooded := p.flooded ++ [table],
    results := p.results.map (fun b => if b.headD 0 != 0 ∧ ofLE (sliceOf b 2 2) % 4096 = table then forcedMiss table else b) })

/-- Mark the lines that a search found in error bad, and ask for their repair (R319–R321, R326). -/
def readErrors (d : Dev) (r : Region) (table : Nat) (bad : List Nat) : Dev :=
  bad.foldl (fun d l => (d.markBad r table l).requestRepair r table l) d

/-- The table whose storage a lookup reads. -/
def storageTable (d : Dev) (r : Region) (n : Nat) : Nat :=
  let t := d.table r n
  if t.kind = 3 then t.viewOf else n

/-- The lines that a lookup of a key reads (R303–R307, R914): none where it finds no table, or not of its key's length (R315). -/
def searchLines (d : Dev) (r : Region) (n : Nat) (key : List Byte) : List Nat :=
  let m := d.storageTable r n
  let t := d.table r m
  if (d.table r n).kind = 0 ∨ key.length ≠ (d.table r n).keyLen ∨ (t.place = 1 ∧ d.stackFailed r.val = true) then []
  else match t.kind with
    | 1 | 2 => ((candidateSlots t key).flatMap (slotLines t)).dedup
    | 4 | 5 => d.lpmLookupLines r m key
    | 8 | 9 | 10 => if ofBE key < t.entries then slotLines t (ofBE key) else []
    | 6 | 7 => List.range ((t.allocBytes + 63) / 64)
    | _ => []

/-- The lines that a lookup finds in error (R318): of those that it reads, the ones named, and the ones of HBM that hold an uncorrectable
word. -/
def searchErrors (d : Dev) (r : Region) (n : Nat) (key : List Byte) (bad : List Nat) : Dev :=
  let m := d.storageTable r n
  let l := d.searchLines r n key
  d.readErrors r m (bad.dedup.filter l.contains ++ d.poisonedLines r (d.table r m) l)

/-- Complete a primary lookup (R317, R334, R909, R910): its result, and for a source lookup its learn outcome. -/
def primary (d : Dev) (n : Nat) (p : Packet) (k : PrimaryLookup) : Dev :=
  let r := R p.region
  let t := d.table r k.table
  let (d, x) := d.lookup r k.table k.key p.length true
  let d := if t.kind = 1 ∧ x.hit then d.hit r k.table x.index else d
  let d := if t.kind = 3 ∧ !x.errKey then
      let control := ofLE (sliceOf p.cls 46 1) % 4
      let (d, out) := d.learn r t.viewOf k.key x p control
      let d := d.countOutcome r p.localPort out
      let floods := out == 5 || out == 6 || (out == 7 && d.on (RGN_LEARN_CFG_excess_flood r.val p.localPort))
      let drops := out == 4 || (out == 7 && !floods)
      let d := if floods then d.floodOn n t.viewOf else d
      let d := if drops then d.modPkt n (fun p => { p with learnDrop := true }) else d
      d.setResult n k.slot k.table ({ x with aux := out } : LookupResult).bytes
    else d.setResult n k.slot k.table x.bytes
  match d.pkt n with
  | some p => if p.lookups = [] then d.endPass n else d
  | none => d

/-- Complete a lookup of a program (R315, R389, R390): the result goes to the context's memory, and LOOKUP_DONE is set. -/
def programLookup (d : Dev) (k : Nat) (i : Nat) (r : Region) : Dev :=
  match (d.ctx k).outstanding[i]? with
  | some (.lookup table key result length live) =>
    let d := d.modCtx k (fun c => { c with outstanding := c.outstanding.eraseIdx i })
    let t := d.table r table
    let (d, x) := d.lookup r table key length false
    let d := if t.kind = 1 ∧ x.hit then d.hit r table x.index else d
    if live then ((d.setBytes (clmAddr (k / 32) result) x.bytes).setPoison (clmAddr (k / 32) result) false).setEvents k 1 else d
  | _ => d

end Dev

/-- LOOKUP_COMPLETE (R305–R320, R334–R345, R389, R909, R910): a lookup engine writes a result; `bad` are the lines that its search
found in error. -/
def execLookupComplete (r : Region) (who : LookupFor) (bad : List Nat) (s : State) : Out := s.doing fun d =>
  match who with
  | .packet n slot =>
    match d.pkt n with
    | some p =>
      match p.lookups.find? (·.slot == slot) with
      | some k =>
        .next ((d.searchErrors r k.table k.key bad).primary n p k)
      | none => .refused .noSuchUnit
    | none => .refused .noSuchUnit
  | .ctx u i =>
    let k := Dev.ctxNo u
    match (d.ctx k).outstanding[i]? with
    | some (.lookup table key _ _ _) =>
      .next ((d.searchErrors r table key bad).programLookup k i r)
    | _ => .refused .noSuchUnit

namespace Dev

/-! ### Placement (R370, R371, R497–R503) -/

/-- The program window in ticks (R173). -/
def windowTicks (d : Dev) (r : Region) : Nat := if d.workMode r = .extended then 4 else 1

/-- The slot-table entries that a context owns (R364). -/
def owned (d : Dev) (k : Nat) : Nat := ((d.cell (k / 32)).slots.filter (· == k % 32)).length

/-- Whether a worker is guaranteed (R365). -/
def guaranteed (d : Dev) (k : Nat) : Bool := k % 32 < 16 && (d.ctx k).enable && !(d.ctx k).background && d.owned k != 0

/-- The workers of a block, by global context number. -/
def blockWorkers (r b : Nat) : List Nat := (List.range 128).map (fun i => cellNo r b (i / 16) * 32 + i % 16)

/-- The smallest number of entries owned by a guaranteed worker of a block (R372); zero where there is none. -/
def wMin (d : Dev) (r b : Nat) : Nat :=
  match ((blockWorkers r b).filter d.guaranteed).map d.owned with
  | [] => 0
  | x :: t => t.foldl min x

/-- The packets that a worker takes per window (R370). -/
def packetsPer (d : Dev) (r b : Nat) : Nat := 2 ^ d.fld (BLK_PKT_CFG_p_code r b)

/-- Whether a worker is eligible for the window that begins at shutter `s` (R500). -/
def eligible (d : Dev) (r : Region) (k s : Nat) : Bool :=
  d.guaranteed k && d.cellRuns (ctxRegion k) (ctxBlock k) (ctxCell k) && (d.ctx k).mode != .faulted
    && (d.ctx k).mode != .debugHalted && d.wMin (ctxRegion k) (ctxBlock k) != 0
    && (d.workMode r != .extended || k % 4 == s % 4)

/-- The tasks placed on a worker for the window that begins at shutter `s`. -/
def placedFor (d : Dev) (r : Region) (k s : Nat) : Nat := ((d.g r).dispatch.placements.filter (fun x => x.1 == s && x.2 == k)).length

/-- The tasks placed on a cell for a window. -/
def cellPlaced (d : Dev) (r : Region) (c s : Nat) : Nat :=
  ((d.g r).dispatch.placements.filter (fun x => x.1 == s && x.2 / 32 == c)).length

/-- Whether a block is to be retained at a shutter at or before `s` (R841). -/
def leanStops (d : Dev) (b s : Nat) : Bool :=
  match d.anchorSt.modeChange with
  | some c => c.target == .lean && c.lean % 32 ≤ b && !tickAfter c.shutter s
  | none => false

/-- The workers of a block with a free packet slot for a window. -/
def openSlots (d : Dev) (r : Region) (b s : Nat) : List Nat :=
  if d.leanStops b s || d.blockState r.val b != 0 then []
  else (blockWorkers r.val b).filter (fun k => d.eligible r k s && d.placedFor r k s < d.packetsPer r.val b)

/-- The least-loaded open worker of a block (R501): fewest tasks on the cell, then on the worker, then the lower number. -/
def leastLoaded (d : Dev) (r : Region) (b s : Nat) : Option Nat :=
  (d.openSlots r b s).foldl (fun best k => match best with
    | none => some k
    | some j =>
      let a := (d.cellPlaced r (k / 32) s, d.placedFor r k s)
      let b := (d.cellPlaced r (j / 32) s, d.placedFor r j s)
      if k / 32 = j / 32 then (if a.2 < b.2 then some k else some j)
      else if a.1 < b.1 then some k else some j) none

/-- The head task of a ready queue. -/
def headTask (d : Dev) (r : Region) (q : Nat) : Option Nat := (Sparse.get (fun _ => []) (d.g r).dispatch.ready q).head?

/-- The ready queues that a block serves and whose head task is of the class considered: its target begun or still to come (R501). -/
def offered (d : Dev) (r : Region) (b : Nat) (late : Bool) : List Nat :=
  ((d.g r).dispatch.ready.map (·.1)).filter (fun q =>
    bitOf (d.fld (RGN_DSP_BSERVE_serve r.val b (q / 32))) (q % 32) &&
      match (d.headTask r q).bind d.pkt with
      | some p => (!tickAfter p.target (d.g r).tick) == late
      | none => false)

/-- The queue that a block selects under its readiness mode (R497, R498). -/
def selects (d : Dev) (r : Region) (b : Nat) (late : Bool) : Option Nat :=
  let l := d.offered r b late
  if !d.on (RGN_DSP_BMODE_serve_en r.val b) then none
  else if d.on (RGN_DSP_BMODE_mode r.val b) then
    let flags := d.fld (RGN_DSP_FLAGS_flags r.val) &&& d.fld (RGN_DSP_BFMASK_fmask r.val b)
    let l := l.filter (fun q => bitOf flags (d.fld (RGN_DSP_QCFG_flag r.val q)))
    let last := Sparse.get (fun _ => 255) (d.g r).dispatch.lastQueue b
    match l.find? (fun q => last < q) with
    | some q => some q
    | none => l.head?
  else l.foldl (fun best q => match best with
    | none => some q
    | some j => if d.fld (RGN_DSP_QCFG_prio r.val q) < d.fld (RGN_DSP_QCFG_prio r.val j) then some q else some j) none

/-- The placement that the dispatcher makes next, if any (R501): block, queue, packet and worker. -/
def nextPlacement (d : Dev) (r : Region) : Option (Nat × Nat × Nat × Nat) :=
  let order := (List.range 16).map (fun i => ((d.g r).dispatch.lastBlock + 1 + i) % 16)
  ([true, false].flatMap (fun late => order.map (fun b => (late, b)))).findSome? (fun x =>
    match d.selects r x.2 x.1 with
    | none => none
    | some q => match d.headTask r q with
      | none => none
      | some n => match d.pkt n with
        | none => none
        | some p => (d.leastLoaded r x.2 p.target).map (fun k => (x.2, q, n, k)))

/-- Place a task on a worker (R492, R502, R504). -/
def place (d : Dev) (r : Region) (b q n k wait : Nat) : Dev :=
  match d.pkt n with
  | none => d
  | some p =>
    let d := (d.unqueue r q n).freeEntry n
    let num := (d.ctx k).placedCount
    let d := d.modCtx k (fun c => { c with
      placed := c.placed ++ [⟨n, num, p.target, false, false⟩], placedCount := c.placedCount + 1 })
    let d := d.modPkt n (fun p => { p with stage := .placed k })
    let d := d.modDsp r (fun x => { x with
      lastBlock := b, lastQueue := Sparse.set (fun _ => 255) x.lastQueue b q, placements := x.placements ++ [(p.target, k)] })
    ((d.maxFld (RGN_DSP_QWAIT_wait_max r.val q) wait).event r 0x110 q).event r 0x110 (0x100 + b)

/-- Remove a task at its deadline, after a wait (R503, R517). -/
def unplace (d : Dev) (r : Region) (q n wait : Nat) : Dev :=
  let d := (((d.unqueue r q n).freeEntry n).modPkt n (fun p => { p with stage := .unplaced })).addSat (RGN_DSP_UNPLACED_count r.val) 1
  ((d.maxFld (RGN_DSP_QWAIT_wait_max r.val q) wait).err (RGN_DSP_ERR_unplaced r.val) r 0x181).event r 0x111 q

end Dev

/-- DISPATCH_PLACEMENT (R497–R502): the dispatcher grants one placement; the task has waited `wait` region clocks. -/
def execDispatchPlacement (r : Region) (wait : Nat) (s : State) : Out := s.run fun d =>
  match d.nextPlacement r with
  | some (b, q, n, k) => d.place r b q n k wait
  | none => d

/-- PLACEMENT_DEADLINE (R503, R517): the tasks whose window ends at the next shutter and that are still queued are removed; `waits` says
how many region clocks each has waited, queue by queue in number order. -/
def execPlacementDeadline (r : Region) (waits : List Nat) (s : State) : Out := s.run fun d =>
  let gone := (d.g r).dispatch.ready.flatMap (fun e => (e.2.filter (fun n => match d.pkt n with
    | some p => (p.target + d.windowTicks r) % 2 ^ 48 == ((d.g r).tick + 1) % 2 ^ 48
    | none => false)).map (fun n => (e.1, n)))
  d.each gone.zipIdx (fun x d => d.unplace r x.1.1 x.1.2 (waits.getD x.2 0))

namespace Dev

/-- The 512 bytes of a packet's window (R380). -/
def windowBytes (d : Dev) (p : Packet) : List Byte :=
  padTo 256 (d.packetData p.head) ++ padTo 64 p.parse ++ padTo 64 p.cls ++ (List.range 4).flatMap (fun i => padTo 32 (p.results.getD i []))

/-- Whether a placed packet's frame is free: no earlier packet of the same frame is still to retire (R381). -/
def frameFree (d : Dev) (k : Nat) (x : Placed) : Bool :=
  (d.ctx k).placed.all (fun y => !(y.number % 4 == x.number % 4 && y.number < x.number && !y.retired))

end Dev

/-- WINDOW_WRITE (R381, R382, R543): the region writes the window of the packet `n` into its frame. -/
def execWindowWrite (n : Nat) (s : State) : Out := s.doing fun d =>
  match d.pkt n with
  | some p =>
    match p.stage with
    | .placed k =>
      match (d.ctx k).placed.find? (·.pkt == n) with
      | some x =>
        if x.ready || !d.frameFree k x then .refused .noSuchUnit
        else
          let a := Dev.clmAddr (k / 32) (Dev.frameOff k x.number)
          let d := (d.setBytes a (d.windowBytes p)).each (List.range 16) (fun i d => d.setPoison (a + 32 * i) false)
          let d := d.modCtx k (fun c => { c with
            placed := c.placed.map (fun y => if y.pkt = n then { y with ready := true } else y) })
          .next (d.modCtx k (fun c =>
            if c.held ≠ some n then c
            else if c.mode = .fillWait then { c with mode := .running }
            else if c.mode = .debugHalted ∧ c.haltedFrom = .fillWait then { c with haltedFrom := .running }
            else c))
      | none => .refused .noSuchUnit
    | _ => .refused .noSuchUnit
  | none => .refused .noSuchUnit

/-! ### Release (R182–R185, R191, R578, R579) -/

/-- RELEASE_REC (R182, R184): a release record arrives; one that comes after its list has closed is dropped. -/
def execReleaseRec (r src : Region) (x : ReleaseRec) (s : State) : Out := s.deliverAll src.val r.val (.releaseRec x) fun d =>
  let e := (d.g r).egress
  if x.transit = 0 then d.enqueue r x
  else if !Dev.tickAfter (Dev.releaseAt x) (d.g r).tick && (e.closed || Dev.releaseAt x != (d.g r).tick) then
    (d.err (RGN_RELEASE_ERR_release_late r.val) r 0x2F0).refuse r x 0x08
  else
    let was := d.handed r (fun y => Dev.releaseAt y == Dev.releaseAt x)
    let d := d.modEgress r (fun e => { e with records := e.records ++ [x] })
    if Dev.releaseAt x = (d.g r).tick then d
    else d.setFld (RGN_INFLIGHT_count r.val)
      (d.fld (RGN_INFLIGHT_count r.val) + (d.handed r (fun y => Dev.releaseAt y == Dev.releaseAt x) - was))

/-- RELEASE_MARK (R183–R185): a marker arrives, and the list closes once every marker is there. -/
def execReleaseMark (r src : Region) (shutter : Nat) (s : State) : Out := s.deliverAll src.val r.val (.releaseMark shutter) fun d =>
  let d := d.modEgress r (fun e => { e with
    markers := if shutter = (d.g r).tick ∧ !e.markers.contains src.val then e.markers ++ [src.val] else e.markers })
  let e := (d.g r).egress
  if shutter = (d.g r).tick ∧ !e.closed ∧ (d.others r).all (fun q => d.fenced q.val || e.markers.contains q.val) then
    d.closeList r shutter
  else d

/-- RELEASE_DEADLINE (R184, R185): the list of the present shutter closes whatever markers are missing. -/
def execReleaseDeadline (r : Region) (s : State) : Out := s.run fun d =>
  if (d.g r).egress.closed then d else d.closeList r (d.g r).tick

/-- Note the head segment of a copy in its queue entry, which may then be sent (R191). -/
def Dev.entryReady (d : Dev) (e : Region) (x : ReleaseRec) (head : Nat) (poisoned : Bool) : Dev :=
  let mine (y : ReleaseRec) : Bool := y.stamp == x.stamp && y.copy == x.copy
  match x.host, regionEndpoint e.val with
  | true, some ep => d.modEp ep (fun s => { s with
      rxq := s.rxq.map (fun q => (q.1, q.2.map (fun y =>
        if mine y.record then { y with ready := true, record := { y.record with head, poisoned := y.record.poisoned || poisoned } }
        else y))) })
  | _, _ => d.modEgress e (fun g => { g with
      queues := g.queues.map (fun q => (q.1, q.2.map (fun y =>
        if mine y.record then
          { y with head, ready := true, record := { y.record with poisoned := y.record.poisoned || poisoned } }
        else y))) })

/-- Take a copy out of its egress or host queue and drop it with a code. -/
def Dev.dropEntry (d : Dev) (e : Region) (x : ReleaseRec) : Dev :=
  let d := (d.g e).egress.queues.foldl (fun d q =>
    if q.2.any (fun y => y.record.stamp == x.stamp && y.record.copy == x.copy) then
      d.setQueue e q.1 (q.2.filter (fun y => !(y.record.stamp == x.stamp && y.record.copy == x.copy)))
    else d) d
  match x.host, regionEndpoint e.val with
  | true, some ep => d.modEp ep (fun s => { s with
      rxq := (s.rxq.map (fun q => (q.1, q.2.filter (fun y => !(y.record.stamp == x.stamp && y.record.copy == x.copy))))).filter
        (fun q => q.2 != []) })
  | _, _ => d

/-- Take the record of a copy out of the list of its egress region, and off the way there (R201). -/
def Dev.recallRecord (d : Dev) (e : Region) (x : ReleaseRec) : Dev :=
  let mine (y : ReleaseRec) : Bool := y.stamp == x.stamp && y.copy == x.copy
  let d := { d with wire := d.wire.filter (fun f => match f.msg with | .releaseRec y => !mine y | _ => true) }
  d.modEgress e (fun g => { g with records := g.records.filter (fun y => !mine y) })

/-- Whether the rewrite engine has a copy's head segment to write: its shutter has come (R191, R579). -/
def Dev.rewriteDue (d : Dev) (r : Region) (c : Copyout) : Bool := !c.mirror && c.head.isNone && !Dev.tickAfter c.release (d.g r).tick

/-- Whether the rewrite engine takes a copy next: those of an earlier shutter go before it, and those of its own in stamp order (R191). -/
def Dev.rewriteNext (d : Dev) (r : Region) (c : Copyout) : Bool :=
  let now := (d.g r).tick
  (d.g r).egress.copies.all (fun y => !d.rewriteDue r y || (y.record.stamp == c.record.stamp && y.record.copy == c.record.copy)
    || (!Dev.tickAfter c.release y.release && (y.release != c.release || decide (Dev.stampRank now c.record ≤ Dev.stampRank now y.record))))

/-- REWRITE_COMPLETE (R191, R192, R199, R201, R575, R579, R580): the rewrite engine finishes a copy's head segment, or drops the copy where PKT
finds no stitch for it; `poisoned` where it read a head stitch and found it uncorrectable. The holding region counts that drop, as the
region whose pool had no stitch, DESIGN CHOICE (log 144). -/
def execRewriteComplete (r : Region) (stamp : Stamp) (copy : Nat) (poisoned : Bool) (s : State) : Out := s.doing fun d =>
  match d.copyout r stamp copy with
  | none => .refused .noSuchUnit
  | some c =>
    match d.pkt c.record.pkt with
    | none => .refused .noSuchUnit
    | some p =>
      if d.rewriteDue r c = false ∨ d.rewriteNext r c = false then .refused .noSuchUnit
      else
        let e := Dev.recordRegion c.record
        let bad := poisoned || d.chainPoisoned p.head (min 512 p.length)
        let plain := d.plainHead p
        match d.makeHead r p c.rewrite c.shared with
        | (d, none) =>
          let d := ((d.dropCount r 0x0A).dropEntry e c.record).recallRecord e c.record
          .next ((d.modCopyout r stamp copy (fun _ => none)).copyDone r c.record.pkt)
        | (d, some h) =>
          let d := (d.modPkt c.record.pkt (fun p => { p with consumed := p.consumed || (plain && !c.shared) })).modCopyout
            r stamp copy (fun c => some { c with head := some h })
          let d := d.entryReady e c.record h bad
          let port := d.queuePort e (c.record.dest % 4096)
          .next (d.settle r stamp copy (requesterId e.val (if c.outcome = some 1 then reqSpill else reqTx port)))

/-- ENQ_OUTCOME (R578): the outcome of an enqueue reaches the holding region. -/
def execEnqOutcome (r src : Region) (outcome : Nat) (stamp : Stamp) (copy requester : Nat) (s : State) : Out :=
  s.deliverAll src.val r.val (.enqOutcome outcome stamp copy requester) fun d => d.noteOutcome r stamp copy outcome requester

end Sys2Proof.Machine
end

