-- ==== Sys2Proof/Machine/Egress.lean ====
section
/-!
DEFINITION. The egress side: spilling, scheduling, transmission with its body reads, priority flow control, links of the ports, and the
pool operations as commands (R565–R570, R578–R594, R717, R722, R723).
-/

namespace Sys2Proof.Machine

namespace Dev

/-! ### Fabric requests (R664–R667) -/

/-- Note a request that a region sends, under the next tag (R661). -/
def request (d : Dev) (r : Region) (dst : Nat) (p : Purpose) : Dev × Nat :=
  let tag := (d.g r).nextTag
  (d.modR r (fun g => { g with requests := g.requests ++ [⟨tag, dst, p⟩], nextTag := (tag + 1) % 4096 }), tag)

/-- The request that a response answers, taken off the outstanding ones; a late response finds none (R667). -/
def answered (d : Dev) (r : Region) (tag : Nat) : Option (Dev × Purpose) :=
  match (d.g r).requests.find? (fun q => q.tag == tag) with
  | none => none
  | some q => some (d.modR r (fun g => { g with requests := g.requests.erase q }), q.purpose)

/-- A response that arrives after its request has timed out is discarded and counted (R667, R700). -/
def lateRsp (d : Dev) (r : Region) : Dev :=
  let first := d.fld (RGN_CF_TOCNT_late r.val) == 0
  let d := d.addSat (RGN_CF_TOCNT_late r.val) 1
  if first then d.raise r 0x345 else d

/-- A message whose fields break R662 is discarded and counted as a protocol error. -/
def protoErr (d : Dev) (r : Region) : Dev := d.err (RGN_CF_ERR_protocol r.val) r 0x347

/-! ### Giving a chain back (R578, R580, R583) -/

/-- The requester that owns an entry's chain: SPILL or the transmit unit of its port. -/
def chainOwner (d : Dev) (e : Region) (q : Nat) (x : QueueEntry) : Nat :=
  requesterId e.val (if x.bySpill then reqSpill else reqTx (d.queuePort e q))

/-- FREE of an entry's chain, or RETURN for a mirror copy without a head segment; a remote chain is freed by POOL_OP (R570). -/
def giveBack (d : Dev) (e : Region) (q : Nat) (x : QueueEntry) : Dev :=
  let owner := d.chainOwner e q x
  let h := handleRegion x.head
  if h = e.val then if x.record.mirrorTail then d.deref (requesterId h reqMirr) x.head else d.free' owner x.head
  else if x.record.mirrorTail then d.send e.val h (.poolOp 3 x.head owner reqMirr)
  else d.send e.val h (.poolOp 1 x.head owner 0)

/-- Drop an entry that leaves its queue: its chain is given back, or the holding region is told where the rewrite is not complete. -/
def dropQueued (d : Dev) (e : Region) (q code : Nat) (x : QueueEntry) : Dev :=
  let d := d.dropCount e code
  if x.ready then d.giveBack e q x else d.reportOutcome e x.record 2 0

/-- Flush a queue (R593, R594). -/
def flushQueue (d : Dev) (e : Region) (q code : Nat) : Dev :=
  let l := d.queue e q
  let late := ((l.filter (·.spilling)).map (·.stitches)).sum
  let d := (d.setQueue e q []).modEgress e (fun x => { x with spillBacklog := x.spillBacklog - late })
  d.each l (fun x d => d.dropQueued e q code x)

/-- The queues of a port that hold packets. -/
def portQueues (d : Dev) (e : Region) (p : Nat) : List Nat :=
  ((d.g e).egress.queues.map (·.1)).filter (fun q => d.queuePort e q == p)

/-! ### Scheduling (R588–R591) -/

/-- A token bucket, in eighths of a byte. -/
def bucket (d : Dev) (e : Region) (k : Nat) : Int := Sparse.get (fun _ => 0) (d.g e).egress.tokens k

/-- Write a token bucket. -/
def setBucket (d : Dev) (e : Region) (k : Nat) (v : Int) : Dev :=
  d.modEgress e (fun x => { x with tokens := Sparse.set (fun _ => 0) x.tokens k v })

/-- Whether a shaper lets a packet go (R589): a shaper that is off always does. -/
def shaperOpen (d : Dev) (e : Region) (on : Fld) (k : Nat) : Bool := !d.on on || decide (0 < d.bucket e k)

/-- Take the wire length of a packet out of a bucket that is shaped. -/
def spend (d : Dev) (e : Region) (on : Fld) (k wire : Nat) : Dev :=
  if d.on on then d.setBucket e k (d.bucket e k - 8 * wire) else d

/-- Fill one bucket for a tick: rate × 10 Mb/s over the tick period, up to burst × 256 bytes (R589). -/
def fillBucket (d : Dev) (e : Region) (reg k : Nat) : Dev :=
  let rate := fieldOf (d.reg reg) 13 18
  let burst := fieldOf (d.reg reg) 0 13
  if fieldOf (d.reg reg) 31 1 = 1 then
    d.setBucket e k (min (burst * 256 * 8 : Nat) (d.bucket e k + (rate * 5 * 2 ^ d.fld (CHP_SHUTTER_CTL_period d.A) : Nat)))
  else d

/-- The shaped queues, groups and ports of a region: their shaper registers and the keys of their buckets. -/
def shapers (d : Dev) (e : Region) : List (Nat × Nat) :=
  (d.regs.filterMap (fun w =>
    if RGN_EQ_SHAPE e.val 0 ≤ w.1 ∧ w.1 ≤ RGN_EQ_SHAPE e.val 4095 ∧ w.1 % 16 = 8 then some (w.1, (w.1 - RGN_EQ_SHAPE e.val 0) / 16)
    else none))
    ++ (List.range 64).map (fun g => (RGN_EG_SHAPE e.val g, 0x1000 + g))
    ++ (List.range 8).map (fun p => (RGN_EP_SHAPE e.val p, 0x1100 + p))

/-- Fill every shaped bucket of a region for one tick. -/
def fillBuckets (d : Dev) (e : Region) : Dev := d.each (d.shapers e) (fun x d => d.fillBucket e x.1 x.2)

/-- Whether the peer's pause holds a class of a port (R591). -/
def classPaused (d : Dev) (e : Region) (p cls : Nat) : Bool :=
  (d.pause e p cls).paused && bitOf (d.fld (RGN_EP_PFC_rx_mask e.val p)) cls

/-- The bytes of the copy that an entry sends: the whole of it, or its first `trunc` bytes (R583). -/
def sentLength (x : QueueEntry) : Nat := if x.trunc = 0 then x.record.length else min x.trunc x.record.length

/-- The wire length of an entry's packet: the frame with FCS, padded to the minimum of 60 bytes without it (R198), plus 20 bytes (R589). -/
def wireLength (x : QueueEntry) : Nat := max 60 (sentLength x) + 4 + 20

/-- Whether a queue is eligible (R588): its head is ready and not waiting for its spill copy, its class is not paused, its group is
enabled, and its own shaper and those above it hold tokens. -/
def queueEligible (d : Dev) (e : Region) (p q : Nat) : Bool :=
  let g := d.fld (RGN_EQ_CFG_group e.val q)
  (match d.queue e q with | x :: _ => x.ready && !x.spilling | [] => false)
    && d.on (RGN_EG_CFG_enable e.val g) && !d.classPaused e p (d.fld (RGN_EQ_CFG_pfc_class e.val q))
    && d.shaperOpen e (RGN_EQ_SHAPE_shape_en e.val q) q && d.shaperOpen e (RGN_EG_SHAPE_shape_en e.val g) (0x1000 + g)
    && d.shaperOpen e (RGN_EP_SHAPE_shape_en e.val p) (0x1100 + p)

/-- A member of a strict-priority and deficit-weighted round robin: its number, priority, quantum, deficit key and the wire length of
its head packet. -/
structure Member where
  id : Nat
  prio : Nat
  quantum : Nat
  key : Nat
  need : Nat

/-- The deficit of a member. -/
def deficit (d : Dev) (e : Region) (k : Nat) : Nat := Sparse.get (fun _ => 0) (d.g e).egress.deficits k

/-- Write the deficit of a member. -/
def setDeficit (d : Dev) (e : Region) (k v : Nat) : Dev :=
  d.modEgress e (fun x => { x with deficits := Sparse.set (fun _ => 0) x.deficits k v })

/-- The rounds until a member's deficit covers its packet. -/
def rounds (d : Dev) (e : Region) (m : Member) : Nat :=
  (m.need - d.deficit e m.key + (max 1 m.quantum - 1)) / max 1 m.quantum

/-- Choose among members (R588): the highest priority, then the first whose deficit covers its packet after the fewest rounds. -/
def choose (d : Dev) (e : Region) (ms : List Member) : Option (Dev × Nat) :=
  let best := ms.foldl (fun a m => min a m.prio) 8
  let cand := ms.filter (fun m => m.prio == best)
  match cand with
  | [] => none
  | m0 :: t =>
    let k := t.foldl (fun a m => min a (d.rounds e m)) (d.rounds e m0)
    match cand.find? (fun m => d.rounds e m == k) with
    | none => none
    | some w =>
      let d := d.each cand (fun m d => d.setDeficit e m.key (d.deficit e m.key + k * m.quantum))
      some (d.setDeficit e w.key (d.deficit e w.key - w.need), w.id)

/-- The queue that a group would serve, with the wire length of its head packet. -/
def chooseQueue (d : Dev) (e : Region) (p g : Nat) : Option (Dev × Nat × Nat) :=
  let qs := (d.portQueues e p).filter (fun q => d.fld (RGN_EQ_CFG_group e.val q) == g && d.queueEligible e p q)
  let need (q : Nat) : Nat := match d.queue e q with | x :: _ => wireLength x | [] => 0
  match d.choose e (qs.map (fun q => ⟨q, d.fld (RGN_EQ_CFG_prio e.val q), d.fld (RGN_EQ_CFG_quantum e.val q), q, need q⟩)) with
  | none => none
  | some (d', q) => some (d', q, need q)

/-- The queue that a port serves next (R588). -/
def nextQueue (d : Dev) (e : Region) (p : Nat) : Option (Dev × Nat) :=
  let offers := (List.range 64).filterMap (fun g => (d.chooseQueue e p g).map (fun x => (g, x.2.2)))
  match d.choose e (offers.map (fun x =>
    ⟨x.1, d.fld (RGN_EG_CFG_prio e.val x.1), d.fld (RGN_EG_CFG_quantum e.val x.1), 0x1000 + x.1, x.2⟩)) with
  | none => none
  | some (d', g) => match d'.chooseQueue e p g with
    | none => none
    | some (d'', q, _) => some (d'', q)

/-- Drop the poisoned packets that stand at the head of a queue (R199). -/
def dropPoisoned (d : Dev) (e : Region) (q : Nat) : Dev :=
  let l := d.queue e q
  let bad := l.takeWhile (fun x => x.ready && !x.spilling && x.record.poisoned)
  if bad.isEmpty then d
  else (d.setQueue e q (l.drop bad.length)).each bad (fun x d => d.dropQueued e q 0x0E x)

/-! ### Reading the body (R590, R662) -/

/-- What a port's transmit unit sends now. -/
def sending (d : Dev) (e : Region) (p : Nat) : Option Sending := Sparse.get (fun _ => none) (d.g e).egress.sending p

/-- Write what a port's transmit unit sends. -/
def setSending (d : Dev) (e : Region) (p : Nat) (s : Option Sending) : Dev :=
  d.modEgress e (fun x => { x with sending := Sparse.set (fun _ => none) x.sending p s })

/-- What a holding region answers a body read with (R569, R662, R854): a stitch in error, or of a stack that failed, reads as poisoned. -/
def readStitch (d : Dev) (h : Nat) : Status × StitchDesc × List Byte :=
  let e := d.desc h
  let r := handleRegion h
  if e.poison || d.withdrawn h || d.anyPoison (d.stitchAddr h) 256 || (handlePool h == 1 && d.stackFailed r) then
    (.poisoned, e, [])
  else (.ok, e, d.bytes (d.stitchAddr h) e.bytes)

/-- The next stitch after one with descriptor `e` in region `h`. -/
def follow (h : Nat) (e : StitchDesc) : Option Nat :=
  if e.last then none else some (handleOf h (e.next / 2 ^ 25) (e.next % 2 ^ 25))

/-- The stitches still to be passed over behind one that was read with `skip` of them to go (R559): those that a shared link names. -/
def skipAfter (skip : Nat) (e : StitchDesc) : Nat := if e.refLink && !e.last then e.skip else skip - 1

/-- A stitch arrives at the transmit unit: its bytes are added, or passed over, and the next stitch is known. -/
def takeStitch (s : Sending) (status : Status) (e : StitchDesc) (b : List Byte) : Sending :=
  let h := handleRegion (s.next.getD 0)
  let got := if s.skip = 0 then s.got ++ b else s.got
  let next := follow h e
  let enough := s.entry.trunc != 0 && decide (s.entry.trunc ≤ got.length)
  { s with got, bad := s.bad || decide (status ≠ .ok), next := if status ≠ .ok ∨ enough then none else next,
           skip := skipAfter s.skip e }

/-- Read stitches while they lie in the port's own region; send a body read for one that does not. -/
def readBody (d : Dev) (e : Region) (p : Nat) : Nat → Dev
  | 0 => d
  | fuel + 1 => match d.sending e p with
    | none => d
    | some s => match s.next with
      | none => d
      | some h =>
        if handleRegion h = e.val then
          let (st, ds, b) := d.readStitch h
          (d.setSending e p (some (takeStitch s st ds b))).readBody e p fuel
        else
          let (d, tag) := d.request e (handleRegion h) (.body p)
          d.send e.val (handleRegion h) (.bodyRd h tag)

/-- The whole bytes of a chain from its head, over shared links. -/
def chainBytes (d : Dev) : Nat → Nat → Nat → List Byte × Bool
  | 0, _, _ => ([], false)
  | fuel + 1, h, skip =>
    let (st, e, b) := d.readStitch h
    let next := follow (handleRegion h) e
    let here := if skip = 0 then b else []
    match st, next with
    | .ok, some n =>
      let (rest, bad) := d.chainBytes fuel n (skipAfter skip e)
      (here ++ rest, bad)
    | .ok, none => (here, false)
    | _, _ => (here, true)

/-- Start a packet: it leaves its queue, its wire length is spent, and its body is read. -/
def startSending (d : Dev) (e : Region) (p q : Nat) : Dev :=
  match d.queue e q with
  | [] => d
  | x :: t =>
    let g := d.fld (RGN_EQ_CFG_group e.val q)
    let w := wireLength x
    let d := ((d.spend e (RGN_EQ_SHAPE_shape_en e.val q) q w).spend e (RGN_EG_SHAPE_shape_en e.val g) (0x1000 + g) w).spend e
      (RGN_EP_SHAPE_shape_en e.val p) (0x1100 + p) w
    ((d.setQueue e q t).setSending e p (some ⟨q, x, some x.head, 0, [], false⟩)).readBody e p 200

/-! ### Egress timestamps (R717) -/

/-- The PTP message of a frame: behind at most two tags, over EtherType 0x88F7 or over UDP port 319. -/
def ptpMessage (f : List Byte) : Option (List Byte) :=
  let tagged (n : Nat) : Bool := ofBE (sliceOf f n 2) == 0x8100 || ofBE (sliceOf f n 2) == 0x88A8
  let o := if tagged 12 then if tagged 16 then 20 else 16 else 12
  let ty := ofBE (sliceOf f o 2)
  let ip := o + 2
  if ty = 0x88F7 then some (f.drop ip)
  else if ty = 0x0800 ∧ ofBE (sliceOf f (ip + 9) 1) = 17 then
    let udp := ip + ofBE (sliceOf f ip 1) % 16 * 4
    if ofBE (sliceOf f (udp + 2) 2) = 319 then some (f.drop (udp + 8)) else none
  else if ty = 0x86DD ∧ ofBE (sliceOf f (ip + 6) 1) = 17 ∧ ofBE (sliceOf f (ip + 42) 2) = 319 then some (f.drop (ip + 48))
  else none

/-- The timestamps that a port's FIFO holds. -/
def ptsFifo (d : Dev) (e : Region) (p : Nat) : List PtsEntry := Sparse.get (fun _ => []) (d.g e).egress.pts p

/-- Write a port's timestamp FIFO, with its depth. -/
def setPts (d : Dev) (e : Region) (p : Nat) (l : List PtsEntry) : Dev :=
  (d.modEgress e (fun x => { x with pts := Sparse.set (fun _ => []) x.pts p l })).setFld (RGN_PTS_STAT_depth e.val p) l.length

/-- Capture the egress timestamp of a PTP event message (R717). -/
def capture (d : Dev) (e : Region) (p : Nat) (f : List Byte) (ns sec : Nat) : Dev :=
  match ptpMessage f with
  | none => d
  | some m =>
    let ty := ofBE (sliceOf m 0 1) % 16
    if 3 < ty then d
    else
      let l := d.ptsFifo e p
      if 16 ≤ l.length then (d.addSat (RGN_PTS_STAT_overflow e.val p) 1).raise e (0x383 + p * 4)
      else
        let d := d.setPts e p (l ++ [⟨ty, ofBE (sliceOf m 4 1), ofBE (sliceOf m 30 2), ns, sec⟩])
        if l.isEmpty then d.raise e (0x382 + p * 4) else d

/-- Set the pause bit that the port's status reports. -/
def setPaused (d : Dev) (e : Region) (p cls : Nat) (b : Bool) : Dev :=
  d.setFld (RGN_EP_STAT_paused e.val p) (withBit (d.fld (RGN_EP_STAT_paused e.val p)) cls b)

end Dev

/-! ### The commands -/

/-- SPILL_COPY_DONE (R587): the copy in deep stitches takes the place of the chain, SPILL frees the original, and TX_p owns the copy. -/
def execSpillCopyDone (r : Region) (queue : Nat) (stamp : Stamp) (copy : Nat) (s : State) : Out := s.doing fun d =>
  let mine (x : QueueEntry) : Bool := x.record.stamp == stamp && x.record.copy == copy
  match (d.queue r queue).find? (fun x => mine x && x.spilling && x.ready) with
  | none => .refused .noSuchUnit
  | some x =>
    let (b, bad) := d.chainBytes 512 x.head 0
    let b := b.take (Dev.sentLength x)
    let d := d.modEgress r (fun g => { g with spillBacklog := g.spillBacklog - x.stitches })
    let put (d : Dev) (y : QueueEntry) : Dev := d.setQueue r queue ((d.queue r queue).map (fun z => if mine z then y else z))
    match d.alloc r reqSpill 1 (d.fld (RGN_EQ_CFG_pfc_class r.val queue)) (Dev.stitchSizes b.length) with
    | (d, .ok h) =>
      let d := (d.writeChain (d.chain 512 h) b).handover (requesterId r.val reqSpill) h (requesterId r.val (reqTx (d.queuePort r queue)))
      let d := d.giveBack r queue x
      let record := { x.record with mirrorTail := false, poisoned := x.record.poisoned || bad, length := b.length }
      .next (put d { x with head := h, spilling := false, bySpill := false, trunc := 0, record, stitches := (b.length + 255) / 256 })
    | (d, .empty) => .next (put (d.err (RGN_EQ_ERR_deep_refused r.val) r 0x202) { x with spilling := false })
    | (d, .quota) => .next (put d { x with spilling := false })

/-- Whether a port carries frames in a region's mode (R57): in LOAD, CONFIGURE and TEST only in loopback. -/
def Dev.portTrades (d : Dev) (r : Region) (p : Nat) : Bool := (d.g r).mode.isRun || d.fld (RGN_PORT_CFG_loopback r.val p) != 0

/-- SCHEDULE_DECISION (R57, R588–R590): a port whose transmit unit is idle takes the packet that its groups and queues select. -/
def execScheduleDecision (r : Region) (p : Port) (s : State) : Out := s.run fun d =>
  let d := d.each (d.portQueues r p.val) (fun q d => d.dropPoisoned r q)
  if (d.sending r p.val).isSome ∨ (d.unit r 1 p.val).effective = 0 ∨ !d.linkUp r p.val ∨ d.portTrades r p.val = false then d
  else match d.nextQueue r p.val with
    | none => d
    | some (d, q) => d.startSending r p.val q

/-- TRANSMIT_COMPLETE (R578, R717): the frame has left the port, without its FCS here, and padded by the MAC with
bytes that the spec does not state (R198); TX_p frees the chain or returns it. -/
def execTransmitComplete (r : Region) (p : Port) (ns sec : Nat) (s : State) : Out := s.doing fun d =>
  match d.sending r p.val with
  | none => .refused .noSuchUnit
  | some x =>
    if x.next.isSome then .refused .noSuchUnit
    else
      let d := d.setSending r p.val none
      if x.bad then .next (d.dropQueued r x.queue 0x0E x.entry)
      else
        let f := x.got.take (Dev.sentLength x.entry)
        let f := f ++ bytesLE (60 - f.length) (d.freeNat 80)
        let d := ((d.emit (.frame r.val p.val f)).event r 0x141 p.val (Dev.wireLength x.entry)).capture r p.val f ns sec
        .next (d.giveBack r x.queue x.entry)

/-- The descriptor that a 64-bit word spells (R559). -/
def descOfWord (w : Nat) : StitchDesc :=
  { alloc := bitOf w 63, last := bitOf w 62, poison := bitOf w 61, refLink := bitOf w 60, skip := bitsOf w 59 58,
    owner := bitsOf w 57 47, refcnt := bitsOf w 46 39, bytes := bitsOf w 38 30, next := bitsOf w 25 0, charged := 0, cls := 0 }

/-- BODY_DATA (R662): a stitch reaches the transmit unit that asked for it; a late one is counted and discarded (R667). -/
def execBodyData (r src : Region) (status : Status) (tag descriptor : Nat) (data : List Byte) (s : State) : Out :=
  s.deliverAll src.val r.val (.bodyData status tag descriptor data) fun d =>
  match d.answered r tag with
  | some (d, .body p) => match d.sending r p with
    | some x => (d.setSending r p (some (Dev.takeStitch x status (descOfWord descriptor) data))).readBody r p 200
    | none => d
  | _ => d.lateRsp r

/-- PFC_FRAME (R591, R593, R722): the classes a frame names are paused for their quanta, or resumed at zero. -/
def execPfcFrame (r : Region) (p : Port) (quanta : List (Nat × Nat)) (s : State) : Out := s.run fun d =>
  d.each quanta fun (cls, q) d =>
    let x := d.pause r p.val cls
    if 8 ≤ cls ∨ !bitOf (d.fld (RGN_EP_PFC_rx_mask r.val p.val)) cls then d
    else if x.storm then if q = 0 then d else d.setPause r p.val cls { x with lastFrame := (d.g r).tick }
    else if q = 0 then (d.setPause r p.val cls { x with paused := false, quanta := 0 }).setPaused r p.val cls false
    else ((d.setPause r p.val cls
        { x with paused := true, quanta := q % 65536, since := if x.paused then x.since else (d.g r).tick,
                 lastFrame := (d.g r).tick }).setPaused r p.val cls true).when (!x.paused) (·.event r 0x143 (p.val * 8 + cls))

/-- PFC_PAUSE_EXPIRY (R722): the pause of a class runs out. -/
def execPfcPauseExpiry (r : Region) (p : Port) (cls : Nat) (s : State) : Out := s.run fun d =>
  let x := d.pause r p.val cls
  if x.paused then (d.setPause r p.val cls { x with paused := false, quanta := 0 }).setPaused r p.val cls false else d

/-- PFC_PAUSE_REPEAT (R723): the pause frame is sent again while the occupancy stays at or above xon. -/
def execPfcPauseRepeat (r : Region) (p : Port) (cls : Nat) (s : State) : Out := s.run fun d =>
  if (d.pause r p.val cls).sent ∧ max 1 (d.fld (RGN_ADM_PFC_xon r.val p.val)) ≤ d.occupancy r p.val cls then
    d.emit (.pause r.val p.val cls (d.fld (RGN_PORT_PFC_pfc_quanta r.val p.val)))
  else d

/-- STORM_DECLARE (R593): a class paused for storm_ticks ticks without a break is declared a storm, and its queues are flushed. -/
def execStormDeclare (r : Region) (p : Port) (cls : Nat) (s : State) : Out := s.doing fun d =>
  let x := d.pause r p.val cls
  if !x.paused || x.storm || Dev.ticksAhead (d.g r).tick x.since < d.fld (RGN_EP_PFC_storm_ticks r.val p.val) then
    .refused .noSuchUnit
  else
    let d := (d.setPause r p.val cls { x with paused := false, quanta := 0, storm := true, lastFrame := (d.g r).tick }).setPaused r
      p.val cls false
    let d := d.setFld (RGN_EP_STAT_storm r.val p.val) (withBit (d.fld (RGN_EP_STAT_storm r.val p.val)) cls true)
    let d := d.each ((d.portQueues r p.val).filter (fun q => d.fld (RGN_EQ_CFG_pfc_class r.val q) == cls))
      (fun q d => d.flushQueue r q 0x10)
    .next (d.err (RGN_EQ_ERR_storm r.val) r 0x200)

/-- STORM_END (R593): storm_ticks consecutive ticks without a pause frame for the class end the storm. -/
def execStormEnd (r : Region) (p : Port) (cls : Nat) (s : State) : Out := s.doing fun d =>
  let x := d.pause r p.val cls
  if !x.storm || Dev.ticksAhead (d.g r).tick x.lastFrame < d.fld (RGN_EP_PFC_storm_ticks r.val p.val) then .refused .noSuchUnit
  else .next ((d.setPause r p.val cls { x with storm := false }).setFld (RGN_EP_STAT_storm r.val p.val)
    (withBit (d.fld (RGN_EP_STAT_storm r.val p.val)) cls false))

/-- LINK_DOWN (R586, R594): the port's link goes down; its queues are flushed at the next shutter. -/
def execLinkDown (r : Region) (p : Port) (s : State) : Out := s.run fun d =>
  if d.linkUp r p.val then
    (((d.clr (RGN_PORT_STAT_link_up r.val p.val)).clr (RGN_PORT_STAT_lane_lock r.val p.val)).modEgress r
      (fun x => { x with linkFlush := if x.linkFlush.contains p.val then x.linkFlush else x.linkFlush ++ [p.val] })).raise r (0x380 + p.val * 4)
  else d

/-- LINK_UP (R746, R779): the port's link comes up; its effective state follows at the next shutter. -/
def execLinkUp (r : Region) (p : Port) (s : State) : Out := s.doing fun d =>
  if (d.unit r 1 p.val).effective = 0 then .refused .noSuchUnit
  else if d.linkUp r p.val then .next d
  else .next (((d.setOn (RGN_PORT_STAT_link_up r.val p.val)).setFld (RGN_PORT_STAT_lane_lock r.val p.val)
      (2 ^ d.fld (RGN_PORT_CFG_lanes r.val p.val) - 1)).raise r (0x380 + p.val * 4))

/-- ALLOC (R565, R573, R574): an allocating requester takes 1–64 stitches of a pool that it uses; `sizes` are the bytes each will hold. -/
def execAlloc (r : Region) (requester pool cls : Nat) (sizes : List Nat) (s : State) : Out := s.doing fun d =>
  if 64 < sizes.length ∨ sizes.any (fun n => n == 0 || 256 < n) ∨ !allocates r.val requester pool then .refused .noSuchUnit
  else if sizes = [] then .next d
  else .next (d.alloc r requester pool cls sizes).1

/-- FREE (R565, R568); `found` where the descriptor's line is uncorrectable (R569). -/
def execFree (issuer handle : Nat) (found : Bool) (s : State) : Out := s.run fun d => (d.readDesc handle found).free' issuer handle

/-- HANDOVER (R565, R569). -/
def execHandover (issuer handle dest : Nat) (found : Bool) (s : State) : Out := s.run fun d =>
  (d.readDesc handle found).handover issuer handle dest

/-- ADDREF (R565, R569). -/
def execAddref (issuer handle : Nat) (found : Bool) (s : State) : Out := s.run fun d => (d.readDesc handle found).addref issuer handle

/-- DEREF (R565, R569). -/
def execDeref (issuer handle : Nat) (found : Bool) (s : State) : Out := s.run fun d => (d.readDesc handle found).deref issuer handle

/-- RETURN by a transmit unit on behalf of a privileged holder; any other issuer is rejected as non-owner (R564, R565). -/
def Dev.returnRef (d : Dev) (issuer holder handle : Nat) : Dev :=
  if 0x18 ≤ issuer % 256 ∧ issuer % 256 < 0x20 ∨ issuer % 256 = reqSpill then
    d.deref (requesterId (handleRegion handle) (holder % 256)) handle
  else d.abuse (Dev.R (handleRegion handle)) 2 issuer handle

/-- RETURN (R565, R569). -/
def execReturnRef (issuer holder handle : Nat) (found : Bool) (s : State) : Out := s.run fun d =>
  (d.readDesc handle found).returnRef issuer holder handle

/-- POOL_OP (R569, R570): a remote FREE, DEREF or RETURN arrives and is performed. -/
def execPoolOp (r src : Region) (kind handle issuer holder : Nat) (found : Bool) (s : State) : Out :=
  s.deliverAll src.val r.val (.poolOp kind handle issuer holder) fun d =>
  match kind with
  | 1 => (d.readDesc handle found).free' issuer handle
  | 2 => (d.readDesc handle found).deref issuer handle
  | 3 => (d.readDesc handle found).returnRef issuer holder handle
  | _ => d.protoErr r

/-- FREE_CACHE_REFILL (R563, R569): a requester's cache that holds fewer than 32 entries is filled up to 64; `found` is a stitch of the pool
whose descriptor's line the refill finds uncorrectable. -/
def execFreeCacheRefill (r : Region) (requester pool : Nat) (found : Option Nat) (s : State) : Out := s.doing fun d =>
  if !allocates r.val requester pool then .refused .noSuchUnit
  else
    let d := match found with
      | some i => d.when (decide (i < d.poolSize r.val pool)) (·.withdrawLine (handleOf r.val pool i))
      | none => d
    if (d.cache r requester pool).length < 32 then .next (d.refill r requester pool 64) else .next d

end Sys2Proof.Machine
end

