-- ==== Sys2Proof/Machine/Mem.lean ====
section
/-!
DEFINITION. The memories of a region by fabric offset, who may reach them, the secure partition, poisoned lines and latch words
(R54, R74–R81, R450–R466, R520–R544, R907).
-/

namespace Sys2Proof.Machine

/-- Who makes an access (R81): a supervisor context, a region's MP, the host through an endpoint's BAR2, or a guest. -/
inductive Who where
  | sup (k : Nat)
  | mp (r : Nat)
  | host (e : Nat)
  | guest (r : Nat)
deriving DecidableEq, Repr

/-- What an offset within a Mladus region names (R75, R76). -/
inductive Place where
  | hbm (x : Nat)
  | pad (b x : Nat)
  | padLatch (b x : Nat)
  | padForce (b x : Nat)
  | cellMem (b c x : Nat)
  | blockReg (b x : Nat)
  | regionReg (x : Nat)
  | sram (x : Nat)
  | sramLatch (x : Nat)
  | sramForce (x : Nat)
  | packets (x : Nat)
  | istore (b x : Nat)
  | chip (x : Nat)
  | nowhere
deriving DecidableEq, Repr

/-- Decode the offset of a fabric address within a Mladus region (R75, R76). -/
def placeOf (o : Nat) : Place :=
  if o < 0x00540000000 then .hbm o
  else if 0x80000000000 ≤ o ∧ o < 0x80010000000 then
    let b := (o - 0x80000000000) / 0x1000000
    let x := o % 0x1000000
    if x < 0x200000 then .pad b x
    else if x < 0x400000 then .padLatch b (x - 0x200000)
    else if x < 0x600000 then .padForce b (x - 0x400000)
    else if 0xC00000 ≤ x ∧ x < 0xC80000 then .cellMem b ((x - 0xC00000) / 0x10000) (x % 0x10000)
    else if 0xF00000 ≤ x ∧ x < 0xF10000 then .blockReg b (x - 0xF00000)
    else .nowhere
  else if 0x90000000000 ≤ o ∧ o < 0x90000E00000 then .regionReg (o - 0x90000000000)
  else if 0xA0000000000 ≤ o ∧ o < 0xA0003000000 then .sram (o - 0xA0000000000)
  else if 0xA8000000000 ≤ o ∧ o < 0xA8003000000 then .sramLatch (o - 0xA8000000000)
  else if 0xAC000000000 ≤ o ∧ o < 0xAC003000000 then .sramForce (o - 0xAC000000000)
  else if 0xB0000000000 ≤ o ∧ o < 0xB0002000000 then .packets (o - 0xB0000000000)
  else if 0xC0000000000 ≤ o ∧ o < 0xC0000800000 then .istore ((o - 0xC0000000000) / 0x80000) (o % 0x80000)
  else if 0xF0000000000 ≤ o ∧ o < 0xF0000080000 then .chip (o - 0xF0000000000)
  else .nowhere

/-- The fabric addresses of a byte of a block's scratchpad, of its instruction store, and of table SRAM. -/
def padAddr (r b x : Nat) : Nat := r * 2 ^ 44 + 0x80000000000 + b * 0x1000000 + x
def istoreAddr (r b x : Nat) : Nat := r * 2 ^ 44 + 0xC0000000000 + b * 0x80000 + x
def sramAddr (r x : Nat) : Nat := r * 2 ^ 44 + 0xA0000000000 + x

/-- A holder ID (R426, R451). -/
def holderId (r b c ctx gen : Nat) : Nat := gen % 128 * 2 ^ 24 + r * 2 ^ 21 + b * 2 ^ 17 + c * 2 ^ 14 + ctx * 2 ^ 9 + 1

namespace Dev

/-! ### Permission (R81, R666) -/

/-- Who may make a plain access to a place (R81); latch aliases are dealt with apart. -/
def permits (d : Dev) (w : Who) (r : Region) (p : Place) (write : Bool) : Bool :=
  let m := (d.g r).mode
  match w, p with
  | _, .nowhere => false
  | .guest _, .hbm _ => d.on (RGN_CF_GACC_hbm r.val)
  | .guest _, .pad _ _ => d.on (RGN_CF_GACC_sp r.val)
  | .guest _, .padLatch _ _ | .guest _, .padForce _ _ => d.on (RGN_CF_GACC_sp_latch r.val)
  | .guest _, .sramLatch _ | .guest _, .sramForce _ => d.on (RGN_CF_GACC_tbl_latch r.val)
  | .guest _, .regionReg _ => d.on (RGN_CF_GACC_regs r.val)
  | .guest _, _ => false
  | .sup k, .cellMem b c _ => ctxRegion k == r.val && ctxBlock k == b && ctxCell k == c
  | .sup k, .blockReg b _ => ctxRegion k == r.val && ctxBlock k == b
  | .sup _, .packets _ => !write
  | .sup _, .istore _ _ => !write || m == .load || m == .configure || m == .drain || m == .test
  | .sup _, .chip _ => !write
  | .host _, .padLatch _ _ | .host _, .padForce _ _ | .host _, .cellMem _ _ _ | .host _, .blockReg _ _ => false
  | .host _, .sramLatch _ | .host _, .sramForce _ | .host _, .packets _ => false
  | .host _, _ => true
  | _, .sram _ => !write || m.isOpen
  | .mp _, _ => true
  | .sup _, _ => true

/-! ### The secure partition (R533–R536) -/

/-- The size code of the largest partition of a block that a wipe in progress covers (R535, R536). -/
def wipeSize (d : Dev) (r b : Nat) : Nat := Sparse.get (fun _ => 0) (d.g (R r)).wipes b

/-- The first byte of a block's secure partition; while a wipe is in progress, of what it covers. -/
def secBase (d : Dev) (r b : Nat) : Nat :=
  match max (d.fld (BLK_SEC_CTL_size r b)) (d.wipeSize r b) with
  | 0 => 0x200000 | 1 => 0x1F0000 | 2 => 0x1E0000 | _ => 0x1C0000

/-- Whether an access of `n` bytes touches the secure partition. -/
def inSecure (d : Dev) (r b x n : Nat) : Bool := decide (d.secBase r b < x + n) && decide (x < 0x200000)

/-- Whether a requester of the fabric may reach the partition (R534): supervisor contexts of the block and the MP of its region. -/
def secPermits (d : Dev) (w : Who) (r b : Nat) : Bool :=
  !d.on (BLK_SEC_STAT_wiping r b) &&
    match w with
    | .sup k => ctxRegion k == r && ctxBlock k == b
    | .mp q => q == r
    | _ => false

/-- Refuse a partition access (R534). -/
def secReject (d : Dev) (r : Region) (b : Nat) : Dev := d.err (BLK_MEM_ERR_sec_reject r.val b) r (0x87 + b * 8)

/-! ### Poisoned lines (R529, R530) -/

/-- The memory that a poison record names, with its cell: scratchpad 0, instruction store 1, cell-local memory 2 (R546). -/
def poisonWord (mem cell x : Nat) : Nat := 2 ^ 31 + mem * 2 ^ 29 + cell * 2 ^ 26 + x / 32 * 32 % 2 ^ 21

/-- Poison a line of a block's memories that was found uncorrectable (R529, R876). -/
def poisonLine (d : Dev) (r : Region) (b mem cell x addr : Nat) : Dev :=
  let w := poisonWord mem cell x
  let d := ((d.setPoison addr true).addSat (BLK_SP_ECC_poisoned r.val b) (if mem = 0 then 1 else 0)).setReg (BLK_MEM_POISON r.val b)
    (BitVec.ofNat 32 w)
  let d := (d.err (BLK_MEM_ERR_uncorrectable r.val b) r (0x84 + b * 8)).journalBlock r b 0x0201 (bytesLE 4 w)
  if mem = 0 then d.bevent r b 0x025 (x / 32 % 16) else d

/-- A write of less than a whole line to a poisoned line is discarded (R530). -/
def poisonStore (d : Dev) (r : Region) (b : Nat) : Dev := d.err (BLK_MEM_ERR_poison_store r.val b) r (0x84 + b * 8)

/-- Write bytes line by line: a whole line clears its poison, part of a poisoned line is discarded. The result says whether any part
was discarded. -/
def writeLines (d : Dev) : Nat → Nat → List Byte → Dev × Bool
  | 0, _, _ => (d, false)
  | fuel + 1, a, b =>
    if b = [] then (d, false)
    else
      let n := min b.length (32 - a % 32)
      let part := b.take n
      let d1 := if n = 32 then (d.setBytes a part).setPoison a false else if d.poisoned a then d else d.setBytes a part
      let lost := n != 32 && d.poisoned a
      let (d2, more) := writeLines d1 fuel (a + n) (b.drop n)
      (d2, lost || more)

/-! ### Table SRAM outside every table (R54, R312) -/

/-- Whether a table in effect uses the 64 KiB unit of table SRAM at an offset. -/
def sramUsed (d : Dev) (r : Region) (x : Nat) : Bool :=
  (d.g r).tables.inEffect.any (fun e => let t := e.2
    t.kind != 0 && t.kind != 3 && t.kind != 7 && t.place == 0 && decide (t.base ≤ x / 65536) && decide (x / 65536 < t.base + t.size))

/-! ### Latch words (R450–R463, R907) -/

/-- The key under which a mirror keeps the generation of a holder: a context, an MP or a guest requester. -/
def holderKey (id : Nat) : Nat := id % 2 ^ 24

/-- Whether an ID names a context or MP of a populated Mladus region, or a requester of a guest region (R451, R686, R907). -/
def holderNamed (d : Dev) (id : Nat) : Bool :=
  let r := bitsOf id 23 21
  let c := bitsOf id 13 9
  if bitsOf id 8 1 ≠ 0 then false
  else if d.guest r then d.present r && decide (0x11 ≤ c) && decide (c ≤ 0x1E)
  else d.mladus r && (decide (c ≤ 16) || (c == 0x1F && bitsOf id 20 14 == 0))

/-- The generation at which the holder that an ID names began: that of the part's last reset; a guest counts its own. -/
def holderBase (d : Dev) (id : Nat) : Nat := if d.guest (bitsOf id 23 21) then 0 else d.genBase % 128

/-- Whether a region's mirror holds the generation of an ID as current (R452, R454); a mirror counts from the part's last reset. -/
def holderLive (d : Dev) (r : Region) (id : Nat) : Bool :=
  d.holderNamed id && (Sparse.get (fun _ => 0) (d.g r).mirror (holderKey id) + d.holderBase id) % 128 == bitsOf id 30 24

/-- Note a generation in a region's mirror. -/
def setMirror (d : Dev) (r : Region) (id : Nat) : Dev :=
  let gen := (bitsOf id 30 24 + 128 - d.holderBase id) % 128
  d.modR r (fun g => { g with mirror := Sparse.set (fun _ => 0) g.mirror (holderKey id) gen })

/-- A new generation reaches the mirror of its own region at once, and every other one by GEN_UPDATE (R454). -/
def announce (d : Dev) (r : Region) (id : Nat) : Dev := (d.setMirror r id).sendAll r.val (d.others r) (.genUpdate id)

/-- The holder ID of a context. -/
def ctxHolder (d : Dev) (k : Nat) : Nat := holderId (ctxRegion k) (ctxBlock k) (ctxCell k) (k % 32)
  (d.genBase + (d.ctx k).generation)

/-- The holder ID of a requester; the host has none. -/
def whoHolder (d : Dev) : Who → Nat
  | .sup k => d.ctxHolder k
  | .mp r => holderId r 0 0 0x1F (d.genBase + (d.g (R r)).mpGeneration)
  | .host _ => 0
  | .guest _ => 0

/-- Count a latch event of a scratchpad bank, or of table SRAM: acquired 0, rejected 1, orphan seen 2 (R463, R485, R488, R804). -/
def latchCount (d : Dev) (r : Region) (pad : Option (Nat × Nat)) (what : Nat) : Dev :=
  match pad with
  | some (b, x) =>
    let d := if what = 1 then d.addSat (BLK_LATCH_STAT_rejected r.val b) 1
      else if what = 2 then d.addSat (BLK_LATCH_STAT_orphan_seen r.val b) 1 else d
    d.bevent r b (0x020 + what) (x / 32 % 16)
  | none =>
    let d := if what = 1 then d.addSat (RGN_TBL_LATCH_STAT_rejected r.val) 1
      else if what = 2 then d.addSat (RGN_TBL_LATCH_STAT_orphan_seen r.val) 1 else d
    d.event r (0x122 + what) 0

/-- A read through a latch alias by the holder `id` (R452, R453, R907): the value returned, and the word it leaves. -/
def latchRead (d : Dev) (r : Region) (addr id : Nat) (pad : Option (Nat × Nat)) : Dev × Word :=
  let w := d.le addr 4
  let orphan := bitOf w 31 || (bitOf w 0 && !d.holderLive r w && w != id)
  if w = 0 ∨ (orphan ∧ d.on (CHP_COMPAT_a1 d.A)) then ((d.setLE addr 4 id).latchCount r pad 0, 0)
  else if w = id then (d, BitVec.ofNat 32 w)
  else if orphan then
    let w' := w % 2 ^ 31 + 2 ^ 31
    ((d.setLE addr 4 w').latchCount r pad 2, BitVec.ofNat 32 w')
  else (d, BitVec.ofNat 32 w)

/-- A write through a latch alias by the holder `id` (R455): a release that meets a poisoned word is discarded. -/
def latchWrite (d : Dev) (r : Region) (addr id v : Nat) (pad : Option (Nat × Nat)) : Dev :=
  if v = 0 ∧ d.poisoned addr = true then
    match pad with
    | some (b, _) => d.poisonStore r b
    | none => d
  else if v = 0 ∧ d.le addr 4 = id ∧ id ≠ 0 then d.setLE addr 4 0 else d.latchCount r pad 1

end Dev

end Sys2Proof.Machine
end

