-- ==== Sys2Proof/Machine/Threads.lean ====
section
/-!
DEFINITION. Contexts and their states: faults, packet starts, thread resets, debug halts, budgets and slot tables (R364–R410, R414–R433).
-/

namespace Sys2Proof.Machine

namespace Dev

/-- The qualifier of a block event of a context (R804). -/
def ctxQual (k : Nat) : Nat := ctxBlock k * 256 + ctxCell k * 32 + k % 32

/-- The global cell number of a cell. -/
def cellOf (c : CellId) : Nat := cellNo c.region.val c.block.val c.cell.val

/-- Whether a context exists and its cell is out of reset. -/
def ctxRuns (d : Dev) (k : Nat) : Bool :=
  k % 32 ≤ 16 && d.mladus (ctxRegion k) && d.cellRuns (ctxRegion k) (ctxBlock k) (ctxCell k)

/-! ### Faults (R360, R403–R406) -/

/-- A worker fault (R403): the worker stops before the instruction takes effect, its pc at that instruction. -/
def workerFault (d : Dev) (k cause : Nat) (tval : Word) : Dev :=
  let r := R (ctxRegion k)
  let b := ctxBlock k
  let d := d.modCtx k (fun c => { c with mode := .faulted, faultValid := true, faultCause := cause, tval, waitMask := 0, waitRd := 0 })
  let d := d.setFld (CEL_FAULT_PEND_pend (k / 32)) (withBit (d.faultPend (k / 32)) (k % 32) true)
  ((d.raise r (0x82 + b * 8)).bevent r b 0x016 (ctxQual k)).wake (k / 32 * 32 + 16)

/-- An exception of a context: a worker faults, and the supervisor context traps to its own handler (R360, R404). -/
def except (d : Dev) (k cause : Nat) (tval : Word) : Dev :=
  if k % 32 = 16 then d.takeTrap k cause tval else d.workerFault k cause tval

/-! ### Budgets (R372) -/

/-- The cell clock in MHz (R844, R847). -/
def cellMHz (d : Dev) (r : Nat) : Nat :=
  match d.fld (RGN_CLK_CFG_cell_clk r) with
  | 0 => 2500 | 1 => 2000 | _ => 1250

/-- The whole slot-table rounds in a tick (R372). -/
def rounds32 (d : Dev) (r : Nat) : Nat := (d.periodPs * d.cellMHz r / 1000000 - 2) / 32

/-- Recompute w and B of a block (R372, R428). -/
def refreshBudget (d : Dev) (r : Region) (b : Nat) : Dev :=
  let w := d.wMin r.val b
  (d.setFld (BLK_BUDGET_w_min r.val b) w).setFld (BLK_BUDGET_budget r.val b)
    (d.windowTicks r * d.rounds32 r.val * w / d.packetsPer r.val b)

/-- Recompute the budgets of a region. -/
def refreshBudgets (d : Dev) (r : Region) : Dev := d.each (List.range 16) (fun b d => d.refreshBudget r b)

/-! ### Packets on a worker (R371–R384) -/

/-- The placed packet that a worker starts next: the lowest number whose window has begun and has not ended. A background worker carries
none (R367). -/
def nextStart (d : Dev) (k : Nat) : Option Placed :=
  let r := R (ctxRegion k)
  if (d.ctx k).background then none else ((d.ctx k).placed.filter (fun x => !x.retired && !tickAfter x.target (d.g r).tick
    && ticksAhead (d.g r).tick x.target < d.windowTicks r)).foldl (fun best x => match best with
      | none => some x
      | some y => if x.number < y.number then some x else some y) none

/-- The place of a placed packet within its window, 0–3. -/
def indexOf (d : Dev) (k : Nat) (x : Placed) : Nat :=
  ((d.ctx k).placed.filter (fun y => y.target == x.target && decide (y.number < x.number))).length % 4

/-- The value of CEL_PKT (R426). -/
def pktWord (d : Dev) (k : Nat) : Word :=
  match (d.ctx k).held.bind d.pkt with
  | some p => BitVec.ofNat 32 (p.pass % 8 * 2 ^ 20 + (d.ctx k).heldIndex % 4 * 2 ^ 16 + frameOff k (d.ctx k).heldNumber)
  | none => 0

/-- Start a packet on a worker (R375, R384). -/
def startPacket (d : Dev) (k : Nat) (x : Placed) (p : Packet) : Dev :=
  let r := R (ctxRegion k)
  let d := d.modCtx k (fun c => { c with
    mode := if x.ready then .running else .fillWait, held := some x.pkt, heldIndex := d.indexOf k x, heldNumber := x.number,
    used := 0, budget := d.fld (BLK_BUDGET_budget r.val (ctxBlock k)), pc := BitVec.ofNat 32 (p.entry * 4),
    sticky := c.sticky &&& 0x40000 })
  let d := (d.setX k 2 (d.ctx k).sp).setX k 10 (BitVec.ofNat 32 (frameOff k x.number))
  let d := (d.setX k 11 (d.pktWord k)).bevent r (ctxBlock k) 0x012 (ctxQual k)
  if x.ready then d else d.bevent r (ctxBlock k) 0x01D (ctxQual k)

/-- A worker's packet is over: the worker holds none, and its frame is free (R379, R381, R395). -/
def endHeld (d : Dev) (k : Nat) : Dev :=
  match (d.ctx k).held with
  | none => d
  | some n => d.modCtx k (fun c => { c with
      held := none, heldIndex := 0, used := 0, budget := 0,
      placed := c.placed.map (fun y => if y.pkt = n then { y with retired := true } else y),
      outstanding := c.outstanding.map (fun o => match o with
        | .lookup t key res len _ => .lookup t key res len false
        | .fetch a h _ => .fetch a h false) })

/-! ### Staging areas (R438, R445, R446, R483) -/

/-- Count the contexts with a message open on a channel. -/
def stagersOf (d : Dev) (regional : Bool) (r b n : Nat) : Nat :=
  (d.ctxs.filter (fun e => ctxRegion e.1 == r && (regional || ctxBlock e.1 == b) && match e.2.openMsg with
    | some m => m.regional == regional && m.channel == n
    | none => false)).length

/-- Refresh the stager count that a channel's status reports. -/
def refreshStagers (d : Dev) (regional : Bool) (r b n : Nat) : Dev :=
  if regional then d.setFld ⟨RGN_RCH_STAT r n, 12, 12⟩ (d.stagersOf true r b n)
  else d.setFld (BLK_CH_STAT_stagers r b n) (d.stagersOf false r b n)

/-- Set or discard a context's open message. -/
def setOpen (d : Dev) (k : Nat) (m : Option OpenMsg) : Dev :=
  let old := (d.ctx k).openMsg
  let d := d.modCtx k (fun c => { c with openMsg := m })
  let upd (d : Dev) (o : Option OpenMsg) : Dev := match o with
    | some x => d.refreshStagers x.regional (ctxRegion k) (ctxBlock k) x.channel
    | none => d
  upd (upd d old) m

/-! ### Resets (R407, R408, R429, R430, R446) -/

/-- The next generation of a context, announced to every mirror (R408, R454). -/
def bumpGeneration (d : Dev) (k : Nat) : Dev :=
  let d := d.modCtx k (fun c => { c with generation := (c.generation + 1) % 128 })
  d.announce (R (ctxRegion k)) (d.ctxHolder k)

/-- A thread reset of a worker (R407): its packet stays counted and is retired at the end of its window; the packets placed on it
that have not started are numbered again from 0 (R379). -/
def threadReset (d : Dev) (k : Nat) : Dev :=
  let d := (d.endHeld k).setOpen k none
  let d := d.modCtx k (fun c =>
    let rest := c.placed.filter (fun y => !y.retired)
    { c with
      mode := if c.enable then .idle else .disabled, sticky := 0, waitMask := 0, waitRd := 0, mutRd := none,
      copro := coproClear, cpxErr := none, faultValid := false, faultCause := 0, haltedFrom := .idle,
      placed := (List.range rest.length).zipWith (fun i y => { y with number := i, ready := false }) rest,
      placedCount := rest.length })
  let d := d.setFld (CEL_FAULT_PEND_pend (k / 32)) (withBit (d.faultPend (k / 32)) (k % 32) false)
  d.bumpGeneration k

/-- Reset every context of a cell and the cell's own state; generations rise by one (R408, R429, R446). -/
def resetCell (d : Dev) (c : Nat) : Dev :=
  let d := d.each (List.range 17) (fun i d =>
    let k := c * 32 + i
    let d := (d.setOpen k none).modCtx k (fun x => { ctxDefault k with generation := x.generation })
    d.bumpGeneration k)
  let ours (q : Request) : Bool := match q.purpose with
    | .load k _ _ _ _ _ _ | .store k _ _ _ | .amo k _ _ _ _ => k / 32 == c
    | .body _ | .hostRead _ | .hostWrite _ => false
  let d := d.modR (R (c / 128)) (fun g => { g with requests := g.requests.filter (fun q => !ours q) })
  { d with cells := Sparse.drop d.cells c,
           regs := d.regs.filter (fun e => e.1 < csrReg c 0 || csrReg c 0xFFF < e.1),
           pairs := d.pairs.filter (fun e => e.1 < csrReg c 0 || csrReg c 0xFFF < e.1) }

/-- Let a cell leave reset: its supervisor context starts in M mode at BLK_SUP_ENTRY.entry × 4 (R430). -/
def startCell (d : Dev) (r b c : Nat) : Dev :=
  d.modCtx (cellNo r b c * 32 + 16) (fun x => { x with
    mode := .running, pc := BitVec.ofNat 32 (d.fld (BLK_SUP_ENTRY_entry r b) * 4) })

/-- Set which cells of a block run (R429): a cell held is reset, a cell released starts. -/
def setCellRun (d : Dev) (r : Region) (b v : Nat) : Dev :=
  let was := d.fld (BLK_CELL_RUN_run r.val b)
  let d := d.setFld (BLK_CELL_RUN_run r.val b) v
  let d := d.each (List.range 8) (fun c d =>
    if bitOf was c && !bitOf v c then d.resetCell (cellNo r.val b c)
    else if !bitOf was c && bitOf v c then d.startCell r.val b c
    else d)
  (d.refreshBudget r b).wakeFallback r

/-! ### Halting and resuming (R405, R409, R420) -/

/-- Halt a context as the debugger does. -/
def haltCtx (d : Dev) (k : Nat) : Dev :=
  match (d.ctx k).mode with
  | .disabled | .debugHalted => d
  | m => d.modCtx k (fun c => { c with mode := .debugHalted, haltedFrom := m })

/-- The state in which a worker that holds no packet goes on: a background worker runs, another is idle. -/
def restState (d : Dev) (k : Nat) : CtxMode :=
  let c := d.ctx k
  if !c.enable && k % 32 != 16 then .disabled else if k % 32 = 16 ∨ c.background then .running else .idle

/-- Resume a halted context; one whose packet was retired meanwhile is idle (R409, R410). -/
def resumeHalted (d : Dev) (k : Nat) : Dev :=
  let c := d.ctx k
  if c.mode != .debugHalted then d
  else
    let m := match c.haltedFrom with
      | .faulted => CtxMode.faulted
      | .waiting => if c.held.isSome ∨ c.background ∨ k % 32 = 16 then .waiting else .idle
      | .fillWait => if c.held.isSome then .fillWait else .idle
      | _ => if c.held.isSome then .running else d.restState k
    let d := d.modCtx k (fun c => { c with mode := m, haltedFrom := .idle })
    (d.when (m == .waiting || m == .fillWait) (·.bevent (R (ctxRegion k)) (ctxBlock k) 0x01D (ctxQual k))).wake k

/-- End a fault (R405): the worker goes on at CEL_THR_PC, or is idle where its packet was retired meanwhile. -/
def resumeFaulted (d : Dev) (k : Nat) : Dev :=
  let m := if (d.ctx k).held.isSome then .running else d.restState k
  let d := d.modCtx k (fun c => { c with mode := m, faultValid := false, faultCause := 0 })
  d.setFld (CEL_FAULT_PEND_pend (k / 32)) (withBit (d.faultPend (k / 32)) (k % 32) false)

/-- CEL_THR_CTL (R405, R420): reset comes before resume, and resume before halt, where one write asks for several. -/
def thrCtl (d : Dev) (k : Nat) (reset resume halt : Bool) : Dev :=
  let d := if reset then d.threadReset k else d
  let d := if resume then (match (d.ctx k).mode with
    | .faulted => d.resumeFaulted k
    | .debugHalted => d.resumeHalted k
    | _ => d) else d
  if halt then d.haltCtx k else d

/-! ### Slot tables (R364–R369) -/

/-- The shadow slot table of a cell. -/
def shadowSlots (d : Dev) (c : Nat) : List Nat :=
  (List.range 32).map (fun i => fieldOf (d.reg (CEL_SLOT c (i / 4))) (i % 4 * 8) 5)

/-- Whether the shadow table would change, in a run mode, the number of entries that a guaranteed worker of a cell owns (R369). -/
def slotsBarred (d : Dev) (r : Region) (c : Nat) : Bool :=
  let now := (d.cell c).slots
  let new := d.shadowSlots c
  (d.g r).mode.isRun && (List.range 16).any (fun i => d.guaranteed (c * 32 + i)
    && (now.filter (· == i)).length != (new.filter (· == i)).length)

/-- Reject an apply of a slot table (R369): the table stays. -/
def slotsReject (d : Dev) (r : Region) (b c : Nat) : Dev := (d.setOn (CEL_SLOT_CTL_rejected c)).raise r (0x83 + b * 8)

/-- Request the shadow table for the next shutter (R369): in a run mode it may not change what a guaranteed worker owns. -/
def slotApply (d : Dev) (r : Region) (b c : Nat) : Dev × Bool :=
  if d.slotsBarred r c then (d.slotsReject r b c, false)
  else ((d.setOn (CEL_SLOT_CTL_pending c)).modCell c (fun x => { x with applyDue := true }), true)

/-- Take the shadow tables that were requested, at a shutter (R369). The shadow table as it then stands is what is copied, so it is
judged again, and one that would by then change what a guaranteed worker owns is rejected there (DEDUCED, log 145). -/
def takeSlots (d : Dev) (r : Region) : Dev :=
  d.each ((d.cells.filter (fun e => e.1 / 128 == r.val && e.2.applyDue)).map (·.1)) (fun c d =>
    let d := (d.modCell c (fun x => { x with applyDue := false })).clr (CEL_SLOT_CTL_pending c)
    if d.slotsBarred r c then d.slotsReject r (c / 8 % 16) c
    else (d.modCell c (fun x => { x with slots := d.shadowSlots c })).refreshBudget r (c / 8 % 16))

/-- Invalidate a cell's instruction cache, locked lines included (R423, R553). -/
def dropIcache (d : Dev) (c : Nat) : Dev := d.modCell c (fun x => { x with icache := [] })

/-! ### All-waiting (R401) -/

/-- Whether an enabled source of any Mladus region is targeted at a local target of region `r` (R401, R792): its target region is `r`,
and the target that its byte leads to there. -/
def sourceTargets (d : Dev) (r target : Nat) : Bool :=
  d.mladusRegions.any (fun q => (List.range 32).any (fun w =>
    let en := (d.reg (RGN_IRQ_EN q.val w)).toNat
    en != 0 && (List.range 32).any (fun i =>
      let n := w * 32 + i
      let byte := d.fld (RGN_IRQ_SRC_target q.val n)
      let reg := d.fld (RGN_IRQ_SRC_region q.val n)
      bitOf en i && decide (byte ≤ 0x80) && (reg == r || (reg == 0xF && q.val == r)) && d.effTarget r byte == target)))

/-- Whether something outside a cell can still set a bit that one of its waiting contexts waits for (R401). -/
def outsideCanWake (d : Dev) (k : Nat) : Bool :=
  let c := d.ctx k
  let m := wakeBits k c.waitMask
  let cell := k / 32
  let r := ctxRegion k
  let b := ctxBlock k
  let senderOutside := d.ctxs.any (fun e => e.1 / 32 != cell && match e.2.openMsg with
    | some o => ctxRegion e.1 == r && (o.regional || ctxBlock e.1 == b) && d.chanReceives o.regional o.channel k
    | none => false)
  let receiverOutside := match c.openMsg with
    | none => false
    | some o => if o.regional then
        d.fld (RGN_RCH_CFG_recv_block r o.channel) != b || d.fld (RGN_RCH_CFG_recv_cell r o.channel) != ctxCell k
      else d.fld (BLK_CH_CFG_recv_cell r b o.channel) != ctxCell k
  let source := bitOf m 16 && d.sourceTargets r (b * 8 + ctxCell k)
  (bitOf m 0 || bitOf m 1) && c.outstanding.any (fun o => match o with
      | .lookup _ _ _ _ live => live && bitOf m 0
      | .fetch _ _ live => live && bitOf m 1)
    || bitOf m 2 && senderOutside || bitOf m 3 && receiverOutside || source

/-- Whether a cell is all-waiting (R401). -/
def allWaiting (d : Dev) (c : Nat) : Bool :=
  let ks := (List.range 17).map (fun i => c * 32 + i)
  let is (m : CtxMode) (k : Nat) : Bool := (d.ctx k).mode == m
  ks.any (is .waiting) && ks.all (fun k => !(is .running k || is .idle k || is .fillWait k))
    && (ks.filter (is .waiting)).all (fun k => !d.outsideCanWake k)

end Dev

/-! ### The commands -/

/-- PACKET_START (R375, R382, R384): a worker that is idle starts the next packet placed on it. -/
def execPacketStart (u : CtxId) (s : State) : Out := s.doing fun d =>
  let k := Dev.ctxNo u
  if !d.ctxRuns k || k % 32 = 16 || (d.ctx k).mode != .idle || (d.ctx k).held.isSome then .refused .noSuchUnit
  else match d.nextStart k with
    | none => .refused .noSuchUnit
    | some x => match d.pkt x.pkt with
      | none => .refused .noSuchUnit
      | some p => .next (d.startPacket k x p)

/-- ALL_WAITING (R401): a cell that has been all-waiting for 64 cell cycles wakes its supervisor context. -/
def execAllWaiting (cell : CellId) (s : State) : Out := s.doing fun d =>
  if d.allWaiting (Dev.cellOf cell) then .next (d.setEvents (Dev.cellOf cell * 32 + 16) (2 ^ 18)) else .refused .noSuchUnit

/-- A CEL_THR_CTL action addressed to the supervisor context is rejected (R420, R906). -/
def Dev.thrAction (d : Dev) (u : CtxId) (f : Nat → Dev) : Res :=
  let k := Dev.ctxNo u
  if !d.ctxRuns k then .refused .noSuchUnit
  else if k % 32 = 16 then .next (d.err (BLK_CORE_ERR_cfg_rejected u.region.val u.block.val) u.region (0x83 + u.block.val * 8))
  else .next (f k)

/-- THREAD_RESET (R407, R420). -/
def execThreadReset (u : CtxId) (s : State) : Out := s.doing fun d => d.thrAction u (fun k => d.thrCtl k true false false)

/-- THREAD_RESUME (R405, R420). -/
def execThreadResume (u : CtxId) (s : State) : Out := s.doing fun d => d.thrAction u (fun k => d.thrCtl k false true false)

/-- THREAD_HALT (R420). -/
def execThreadHalt (u : CtxId) (s : State) : Out := s.doing fun d => d.thrAction u (fun k => d.thrCtl k false false true)

/-- DEBUG_HALT (R409): the debugger halts one context. -/
def execDebugHalt (u : CtxId) (s : State) : Out := s.doing fun d =>
  if d.ctxRuns (Dev.ctxNo u) then .next (d.haltCtx (Dev.ctxNo u)) else .refused .noSuchUnit

/-- DEBUG_RESUME (R409): the debugger resumes one context. -/
def execDebugResume (u : CtxId) (s : State) : Out := s.doing fun d =>
  if d.ctxRuns (Dev.ctxNo u) then .next (d.resumeHalted (Dev.ctxNo u)) else .refused .noSuchUnit

/-- ICACHE_INVALIDATE (R423): every line of a cell's cache, locked or not, becomes invalid. -/
def execIcacheInvalidate (cell : CellId) (s : State) : Out := s.run fun d => d.dropIcache (Dev.cellOf cell)

/-- SLOT_CTL_APPLY (R369): the shadow slot table is requested for the next shutter. -/
def execSlotCtlApply (cell : CellId) (s : State) : Out := s.run fun d =>
  (d.slotApply cell.region cell.block.val (Dev.cellOf cell)).1

/-- GEN_UPDATE (R454, R686): a generation reaches a region's mirror. -/
def execGenUpdate (r src : Region) (holder : Nat) (s : State) : Out :=
  s.deliverAll src.val r.val (.genUpdate holder) fun d => d.setMirror r holder

end Sys2Proof.Machine
end

