-- ==== Sys2Proof/Machine/Channels.lean ====
section
/-!
DEFINITION. Block and region channels (R435–R449, R482–R487).
-/

namespace Sys2Proof.Machine

/-- A channel selector (R439). -/
structure Sel where
  reserved : Nat
  abort : Bool
  any : Bool
  regional : Bool
  channel : Nat
  dest : Nat
deriving DecidableEq, Repr

/-- Read a selector. -/
def selOf (w : Word) : Sel :=
  let n := w.toNat
  { reserved := bitsOf n 31 27, abort := bitOf n 26, any := bitOf n 25, regional := bitOf n 24, channel := bitsOf n 23 16,
    dest := bitsOf n 15 0 }

/-- The word that a channel instruction writes (R440). -/
def chWord (status : Nat) (regional : Bool) (channel count : Nat) : Word :=
  BitVec.ofNat 32 (status * 2 ^ 28 + (if regional then 2 ^ 24 else 0) + channel % 256 * 2 ^ 16 + count % 16)

namespace Dev

/-- The context that receives on a channel. -/
def receiver (d : Dev) (regional : Bool) (r b n : Nat) : Nat :=
  if regional then
    cellNo r (d.fld (RGN_RCH_CFG_recv_block r n)) (d.fld (RGN_RCH_CFG_recv_cell r n)) * 32 + d.fld (RGN_RCH_CFG_recv_ctx r n)
  else cellNo r b (d.fld (BLK_CH_CFG_recv_cell r b n)) * 32 + d.fld (BLK_CH_CFG_recv_ctx r b n)

/-- Write a channel's visible messages, with the depth that its status reports. -/
def setMsgs (d : Dev) (regional : Bool) (r b n : Nat) (l : List ChannelMsg) : Dev :=
  if regional then
    { d with regionCh := Sparse.set (fun _ => []) d.regionCh (r * 256 + n) l }.setFld (RGN_RCH_STAT_depth r n) l.length
  else
    { d with blockCh := Sparse.set (fun _ => []) d.blockCh ((r * 16 + b) * 64 + n) l }.setFld (BLK_CH_STAT_depth r b n) l.length

/-- Let the contexts of a region that have a message open on a channel see its CH_SPACE (R443). -/
def wakeSpace (d : Dev) (regional : Bool) (r b n : Nat) : Dev :=
  d.each ((d.ctxs.filter (fun e => ctxRegion e.1 == r && ctxBlock e.1 == b && match e.2.openMsg with
    | some m => m.regional == regional && m.channel == n
    | none => false)).map (·.1)) (fun k d => d.wake k)

/-- Set or clear a block's use of its credit for a region channel (R437). -/
def setSpent (d : Dev) (r n b : Nat) (v : Bool) : Dev :=
  { d with chSpent := Sparse.set (fun _ => false) d.chSpent ((r * 256 + n) * 16 + b) v }

/-- Discard the visible messages of a channel, counted, with the credits they hold on their way back (R447). -/
def flushChannel (d : Dev) (regional : Bool) (r b n : Nat) : Dev :=
  let l := d.chanMsgs regional r b n
  let d := d.setMsgs regional r b n []
  if regional then
    (d.addSat (RGN_RCH_STAT_discarded r n) l.length).each l (fun m d => d.send r r (.chCredit n m.block))
  else (d.addSat (BLK_CH_STAT_discarded r b n) l.length).wakeSpace false r b n

/-- The staging error bits of a channel's scope (R484, R487). -/
def putStray (d : Dev) (regional : Bool) (r b : Nat) : Dev :=
  d.setOn (if regional then RGN_RCH_ERR_put_stray r else BLK_CH_ERR_put_stray r b)
def chOverflow (d : Dev) (regional : Bool) (r b : Nat) : Dev :=
  d.setOn (if regional then RGN_RCH_ERR_overflow r else BLK_CH_ERR_overflow r b)

/-- CHOPEN (R440, R441). -/
def chOpen (d : Dev) (k : Nat) (s : Sel) : Dev × Word :=
  let r := ctxRegion k
  let b := ctxBlock k
  let sends := if s.regional then d.on (RGN_RCH_CFG_workers_send r s.channel) else d.on (BLK_CH_CFG_workers_send r b s.channel)
  if s.reserved ≠ 0 ∨ s.abort ∨ s.any ∨ s.dest ≠ 0 then (d, chWord 8 s.regional s.channel 0)
  else if !d.chanEnabled s.regional r b s.channel then (d, chWord 4 s.regional s.channel 0)
  else if k % 32 ≠ 16 ∧ !sends then (d, chWord 5 s.regional s.channel 0)
  else match (d.ctx k).openMsg with
    | some m => (d, chWord 3 m.regional m.channel 0)
    | none => (d.setOpen k (some ⟨s.regional, s.channel, [], false⟩), chWord 0 s.regional s.channel 0)

/-- CHPUT (R441). -/
def chPut (d : Dev) (k : Nat) (s : Sel) (v : Word) : Dev :=
  match (d.ctx k).openMsg with
  | some m =>
    if m.regional = s.regional ∧ m.channel = s.channel then
      d.modCtx k (fun c => { c with openMsg := some (if m.words.length < 8 then { m with words := m.words ++ [v] }
        else { m with overflow := true }) })
    else d.putStray s.regional (ctxRegion k) (ctxBlock k)
  | none => d.putStray s.regional (ctxRegion k) (ctxBlock k)

/-- CHCLOSE (R437, R440, R441, R444). -/
def chClose (d : Dev) (k : Nat) (s : Sel) : Dev × Word :=
  let r := ctxRegion k
  let b := ctxBlock k
  let word (c : Nat) : Word := chWord c s.regional s.channel 0
  if s.reserved ≠ 0 ∨ s.any ∨ s.dest ≠ 0 then (d, word 8)
  else if !d.chanEnabled s.regional r b s.channel then (d, word 4)
  else match (d.ctx k).openMsg with
    | none => (d, word 6)
    | some m =>
      if m.regional ≠ s.regional ∨ m.channel ≠ s.channel then (d, word 6)
      else if s.abort then (d.setOpen k none, word 0)
      else if m.overflow then ((d.setOpen k none).chOverflow s.regional r b, word 7)
      else if !d.chanRoom s.regional r b s.channel then (d.bevent (R r) b 0x01B (ctxQual k), word 1)
      else
        let d := (d.setOpen k none).bevent (R r) b 0x01A (ctxQual k)
        if s.regional then
          ((d.setSpent r s.channel b true).send r r (.chMsg s.channel (d.ctxHolder k) m.words), word 0)
        else
          let l := d.chanMsgs false r b s.channel ++ [⟨b, d.ctxHolder k, m.words⟩]
          ((d.setMsgs false r b s.channel l).wake (d.receiver false r b s.channel), word 0)

/-- The first channel of which a context is receiver that holds a message: block channels first, each in ascending number (R441). -/
def anyChannel (d : Dev) (k : Nat) : Option (Bool × Nat) :=
  let r := ctxRegion k
  let b := ctxBlock k
  match (List.range 64).find? (fun n => d.chanReceives false n k && !(d.chanMsgs false r b n).isEmpty) with
  | some n => some (false, n)
  | none => ((List.range 256).find? (fun n => d.chanReceives true n k && !(d.chanMsgs true r b n).isEmpty)).map (fun n => (true, n))

/-- Take the message at the head of a channel: its words go to `dest` with zeros after them, and its place is free (R441). -/
def takeMsg (d : Dev) (k : Nat) (regional : Bool) (n dest : Nat) : Dev × Word :=
  let r := ctxRegion k
  let b := ctxBlock k
  match d.chanMsgs regional r b n with
  | [] => (d, chWord 2 regional n 0)
  | m :: t =>
    let d := d.setMsgs regional r b n t
    let d := (d.setBytes (clmAddr (k / 32) dest) (padTo 32 (m.words.flatMap (fun w => bytesLE 4 w.toNat)))).setPoison
      (clmAddr (k / 32) dest) false
    let d := if regional then d.send r r (.chCredit n m.block) else d.wakeSpace false r b n
    (d, chWord 0 regional n m.words.length)

/-- CHGET (R440, R441). -/
def chGet (d : Dev) (k : Nat) (s : Sel) : Dev × Word :=
  if s.reserved ≠ 0 ∨ s.abort ∨ (s.any ∧ s.channel ≠ 0) then (d, chWord 8 s.regional s.channel 0)
  else if s.any then
    match d.anyChannel k with
    | some (reg, n) => d.takeMsg k reg n s.dest
    | none => (d, chWord 2 s.regional 0 0)
  else if !d.chanEnabled s.regional (ctxRegion k) (ctxBlock k) s.channel then (d, chWord 4 s.regional s.channel 0)
  else if !d.chanReceives s.regional s.channel k then (d, chWord 5 s.regional s.channel 0)
  else d.takeMsg k s.regional s.channel s.dest

end Dev

/-- CH_MSG (R444, R447): a region channel message reaches its home, where it becomes visible, or is discarded where the channel is
disabled. -/
def execChMsg (r : Region) (channel holder : Nat) (words : List Word) (s : State) : Out :=
  s.deliverAll r.val r.val (.chMsg channel holder words) fun d =>
  let b := bitsOf holder 20 17
  if !d.chanEnabled true r.val 0 channel then
    (d.addSat (RGN_RCH_STAT_discarded r.val channel) 1).send r.val r.val (.chCredit channel b)
  else (d.setMsgs true r.val 0 channel (d.chanMsgs true r.val 0 channel ++ [⟨b, holder, words⟩])).wake (d.receiver true r.val 0 channel)

/-- CH_CREDIT_RETURN (R437, R443): a block regains its credit for a region channel. -/
def execChCreditReturn (r : Region) (b : Block) (channel : Nat) (s : State) : Out :=
  s.deliverAll r.val r.val (.chCredit channel b.val) fun d =>
  (d.setSpent r.val channel b.val false).wakeSpace true r.val b.val channel

/-- CH_FLUSH (R447): a write of 1 to a channel's flush bit discards its visible messages. -/
def execChFlush (r : Region) (b : Block) (regional : Bool) (channel : Nat) (s : State) : Out := s.run fun d =>
  if (if regional then channel < 256 else channel < 64) then d.flushChannel regional r.val b.val channel else d

end Sys2Proof.Machine
end

