-- ==== Sys2Proof/Machine/BlockMem.lean ====
section
/-!
DEFINITION. Block memory beside its use: scrubbing, cleaning, the secure partition, retention, and the resets of a block and of its cells
(R429, R531–R543, R546–R553, R828–R832).
-/

namespace Sys2Proof.Machine

namespace Dev

/-! ### Registers at a reset (R28, R830) -/

/-- Put every register whose address satisfies `p` to its reset value; the fields that keep their value across resets stay. -/
def resetRegs (d : Dev) (p : Nat → Bool) : Dev :=
  { d with regs := Sparse.update regDefault p (fun a w => match descAt a with
      | some e => let m := BitVec.ofNat 32 e.keepMask; (regDefault a &&& ~~~m) ||| (w &&& m)
      | none => regDefault a) d.regs }

/-- Drop the pair snapshots of the registers whose address satisfies `p` (R24). -/
def resetPairs (d : Dev) (p : Nat → Bool) : Dev := { d with pairs := d.pairs.filter (fun e => !p e.1) }

/-- Poison a range of whole lines: their contents are lost until written (R539, R830). -/
def loseRange (d : Dev) (a n : Nat) : Dev :=
  let lo := a / 32
  let hi := (a + n) / 32
  { d with poison := d.poison.filter (fun e => e.1 < lo) ++ (List.range (hi - lo)).map (fun i => (lo + i, true))
                      ++ d.poison.filter (fun e => hi ≤ e.1),
           mem := d.mem.filter (fun c => c.1 < lo * 32 || hi * 32 ≤ c.1) }

/-! ### The secure partition (R535–R537, R549) -/

/-- Note the size code of the largest partition that a wipe of a block covers; 0 once it is complete. -/
def setWipe (d : Dev) (r : Region) (b size : Nat) : Dev := d.modR r (fun g => { g with wipes := Sparse.set (fun _ => 0) g.wipes b size })

/-- Start a wipe (R536): every access to the partition is refused until it is complete; the first trigger is recorded. -/
def wipe (d : Dev) (r : Region) (b cause : Nat) : Dev :=
  let base := d.secBase r.val b
  let d := (d.zero (padAddr r.val b base) (0x200000 - base)).setWipe r b (max (d.fld (BLK_SEC_CTL_size r.val b)) (d.wipeSize r.val b))
  if d.on (BLK_SEC_STAT_wiping r.val b) then d
  else (d.setOn (BLK_SEC_STAT_wiping r.val b)).setFld (BLK_SEC_STAT_cause r.val b) cause

/-- Wipe every secure partition of the part (R826, R827). -/
def wipeAll (d : Dev) (cause : Nat) : Dev :=
  d.each d.mladusRegions (fun r d => d.each (List.range 16) (fun b d => d.wipe r b cause))

/-- The life-cycle state (R824). -/
def lifeCycle (d : Dev) : Nat := d.fld (CHP_LC_STAT_state d.A)

/-- Write size and worker_rd while lock is 0 (R535); a change of size wipes the old partition and the new one first. In RETURNED the
size is held at zero (R824). -/
def secSize (d : Dev) (r : Region) (b size workerRd : Nat) : Dev :=
  if d.on (BLK_SEC_CTL_lock r.val b) then d
  else
    let size := if d.lifeCycle = 4 then 0 else size % 4
    let d := if size = d.fld (BLK_SEC_CTL_size r.val b) then d
      else ((d.wipe r b 3).setFld (BLK_SEC_CTL_size r.val b) size).wipe r b 3
    d.setFld (BLK_SEC_CTL_worker_rd r.val b) workerRd

/-- A write of BLK_SEC_CTL (R535, R536, R548). -/
def secCtlWrite (d : Dev) (r : Region) (b v : Nat) : Dev :=
  let d := d.secSize r b (bitsOf v 1 0) (bitsOf v 4 4)
  let d := if bitOf v 5 then d.wipe r b 4 else d
  if bitOf v 31 then d.setOn (BLK_SEC_CTL_lock r.val b) else d

/-! ### Cleaning a line (R546) -/

/-- The address of the line that a BLK_MEM_CLEAN value names, if it names one. -/
def cleanLine (r b v : Nat) : Option Nat :=
  let mem := bitsOf v 30 29
  let cell := bitsOf v 28 26
  let x := bitsOf v 20 5 * 32
  if !bitOf v 31 || bitsOf v 25 21 != 0 || bitsOf v 4 0 != 0 then none
  else if mem = 0 ∧ cell = 0 then some (padAddr r b x)
  else if mem = 1 ∧ cell = 0 ∧ x < 0x80000 then some (istoreAddr r b x)
  else if mem = 2 ∧ x < 0x10000 then some (clmAddr (cellNo r b cell) x)
  else none

/-- A write of BLK_MEM_CLEAN (R546, R906). -/
def memClean (d : Dev) (r : Region) (b v : Nat) : Dev :=
  match cleanLine r.val b v with
  | some a => d.zero a 32
  | none => d.setOn (BLK_MEM_ERR_cfg_rejected r.val b)

/-! ### Retention (R538–R540, R832) -/

/-- Set the state of a block: 0 awake, 1 entering, 2 retained, 3 waking (R847). -/
def setBlockState (d : Dev) (r : Region) (b v : Nat) : Dev := d.setFld ⟨RGN_PWR_BSTAT r.val, 2 * b, 2⟩ v

/-- A retention request for a block (R538, R540): a block that is waking or awake enters; a cleared request wakes it. -/
def requestBlock (d : Dev) (r : Region) (b : Nat) (on : Bool) : Dev :=
  match d.blockState r.val b, on with
  | 0, true => d.setBlockState r b 1
  | 1, false => d.setBlockState r b 0
  | 2, false => d.setBlockState r b 3
  | 3, true => d.setBlockState r b 1
  | _, _ => d

/-- Whether a region is parked, or on its way there (R833, R847). -/
def parked (d : Dev) (r : Nat) : Bool := d.fld (RGN_PWR_REGION_state r) == 1 || d.fld (RGN_PWR_REGION_state r) == 2

/-- Whether LEAN or a park holds a block in retention whatever its request. -/
def heldAsleep (d : Dev) (r : Region) (b : Nat) : Bool :=
  d.parked r.val || ((d.g r).mode == .lean && d.on (CHP_MODE_STAT_lean_awake d.A) && decide (d.fld (CHP_MODE_STAT_lean_awake d.A) ≤ b))

/-- A write of RGN_PWR_RET (R832): each block's request is taken on its own; one for a block that serves is rejected in a run mode. -/
def retWrite (d : Dev) (r : Region) (v : Nat) : Dev :=
  d.each (List.range 16) (fun b d =>
    let was := bitOf (d.fld (RGN_PWR_RET_ret r.val)) b
    let now := bitOf v b
    let m := (d.g r).mode
    let bars := m == .strict || m == .extended || m == .regional || m == .drain
    if was == now then d
    else if now && bars && d.on (RGN_DSP_BMODE_serve_en r.val b) then d.err (RGN_PWR_ERR_cfg_rejected r.val) r 0x3F8
    else
      let d := d.setFld (RGN_PWR_RET_ret r.val) (withBit (d.fld (RGN_PWR_RET_ret r.val)) b now)
      let d := d.noteRequest r 3 b
      if !now && d.heldAsleep r b then d else d.requestBlock r b now)

/-- Discard the messages of the channels whose home is a block, with the staging of its contexts (R446, R539). -/
def dropChannels (d : Dev) (r : Region) (b : Nat) : Dev :=
  let d := d.each (List.range 64) (fun n d => d.setMsgs false r.val b n [])
  d.each ((List.range 256).filter (fun n => d.fld (RGN_RCH_CFG_recv_block r.val n) == b)) (fun n d =>
    let l := d.chanMsgs true r.val b n
    (d.setMsgs true r.val b n []).each l (fun m d => d.send r.val r.val (.chCredit n m.block)))

/-- Reset every cell of a block; its cells are held in reset afterwards (R430, R539, R830). -/
def resetCells (d : Dev) (r : Region) (b : Nat) : Dev :=
  (d.each (List.range 8) (fun c d => d.resetCell (cellNo r.val b c))).clr (BLK_CELL_RUN_run r.val b)

/-- What a block loses when it enters retention (R539, R830). -/
def enterRetention (d : Dev) (r : Region) (b : Nat) : Dev :=
  let d := (d.resetCells r b).dropChannels r b
  (d.each (List.range 8) (fun c d => d.loseRange (clmAddr (cellNo r.val b c) 0) 0x10000)).wakeFallback r

/-- Reset a block (R536, R828, R830): its registers, cells, cell-local memories and channels; the secure partition is wiped. -/
def resetBlock (d : Dev) (r : Region) (b : Nat) : Dev :=
  let d := d.wipe r b 5
  let d := ((d.resetCells r b).dropChannels r b).resetRegs (fun a => blkReg r.val b 0 ≤ a && a < blkReg r.val b 0x10000)
  let d := d.resetPairs (fun a => blkReg r.val b 0 ≤ a && a < blkReg r.val b 0x10000)
  let d := d.each (List.range 8) (fun c d => d.zero (clmAddr (cellNo r.val b c) 0) 0x10000)
  ((((d.setOn (BLK_SEC_STAT_wiping r.val b)).setFld (BLK_SEC_STAT_cause r.val b) 5).setBlockState r b 0).refreshBudget r b).wakeFallback r

/-- A write of RGN_BLK_RST (R828, R847). -/
def blkRstWrite (d : Dev) (r : Region) (v : Nat) : Dev :=
  d.each ((List.range 16).filter (bitOf v)) (fun b d => d.resetBlock r b)

/-- A write of BLK_IC_INV (R553). -/
def icInvWrite (d : Dev) (r : Region) (b v : Nat) : Dev :=
  d.each ((List.range 8).filter (bitOf v)) (fun c d => d.dropIcache (cellNo r.val b c))

end Dev

/-! ### The commands -/

/-- SP_SCRUB (R529, R531): the scrubber reads one line of a bank; `found` is 0 for a good line, 1 for one symbol in error, and 2 for an
uncorrectable line. The pass after a wake ends with the last line of the last bank. -/
def execSpScrub (r : Region) (b : Block) (bank line found : Nat) (s : State) : Out := s.doing fun d =>
  if 16 ≤ bank ∨ 4096 ≤ line ∨ d.blockState r.val b.val = 2 then .refused .noSuchUnit
  else
    let x := line * 512 + bank * 32
    let a := padAddr r.val b.val x
    let d :=
      if found = 0 ∨ d.poisoned a then d
      else if found = 1 then
        let first := d.fld (BLK_SP_ECC_corrected r.val b.val) == 0
        let d := ((d.addSat (BLK_SP_ECC_corrected r.val b.val) 1).setOn (BLK_MEM_ERR_corrected r.val b.val)).bevent r b.val 0x024 bank
        if first then d.raise r (0x85 + b.val * 8) else d
      else d.poisonLine r b.val 0 0 x a
    .next (if bank = 15 ∧ line = 4095 then d.clr (BLK_SP_SCRUB_wake_pass r.val b.val) else d)

/-- BLK_MEM_CLEAN (R546). -/
def execBlkMemClean (r : Region) (b : Block) (value : Word) (s : State) : Out := s.run fun d => d.memClean r b.val value.toNat

/-- SEC_WIPE (R536): a write of 1 to wipe. -/
def execSecWipe (r : Region) (b : Block) (s : State) : Out := s.run fun d => d.wipe r b.val 4

/-- SEC_SIZE_WRITE (R535): size and worker_rd are written. -/
def execSecSizeWrite (r : Region) (b : Block) (value : Word) (s : State) : Out := s.run fun d =>
  d.secSize r b.val (bitsOf value.toNat 1 0) (bitsOf value.toNat 4 4)

/-- SEC_LOCK (R535): size and worker_rd become read-only until the next reset of the block. -/
def execSecLock (r : Region) (b : Block) (s : State) : Out := s.run fun d => d.setOn (BLK_SEC_CTL_lock r.val b.val)

/-- SEC_WIPE_DONE (R536, R549, R876): a wipe completes. -/
def execSecWipeDone (r : Region) (b : Block) (s : State) : Out := s.doing fun d =>
  if !d.on (BLK_SEC_STAT_wiping r.val b.val) || d.blockState r.val b.val == 2 then .refused .noSuchUnit
  else
    let d := ((d.setWipe r b.val 0).clr (BLK_SEC_STAT_wiping r.val b.val)).addSat (BLK_SEC_STAT_wipes r.val b.val) 1
    .next ((d.raise r (0x86 + b.val * 8)).journalBlock r b.val 0x0202 (bytesLE 1 (d.fld (BLK_SEC_STAT_cause r.val b.val))))

/-- RETENTION_REQUEST (R538, R832): RGN_PWR_RET is written. -/
def execRetentionRequest (r : Region) (value : Word) (s : State) : Out := s.run fun d => d.retWrite r value.toNat

/-- RETENTION_ENTER (R538, R539, R849): a block whose bank queues are empty enters retention. -/
def execRetentionEnter (r : Region) (b : Block) (s : State) : Out := s.doing fun d =>
  if d.blockState r.val b.val ≠ 1 then .refused .noSuchUnit
  else .next (((d.enterRetention r b.val).setBlockState r b.val 2).raise r 0x3F7)

/-- BLOCK_WAKE_DONE (R537, R540, R779, R849): a block whose partition is not being wiped is awake again with its cells held in reset, and
the scrub pass starts; where RUN was requested meanwhile, its cells start. -/
def execBlockWakeDone (r : Region) (b : Block) (s : State) : Out := s.doing fun d =>
  if d.blockState r.val b.val ≠ 3 ∨ d.on (BLK_SEC_STAT_wiping r.val b.val) then .refused .noSuchUnit
  else
    let d := (d.setBlockState r b.val 0).setOn (BLK_SP_SCRUB_wake_pass r.val b.val)
    let d := d.each ((List.range 8).filter (bitOf (d.fld (BLK_CELL_RUN_run r.val b.val)))) (fun c d => d.startCell r.val b.val c)
    .next ((d.refreshBudget r b.val).raise r 0x3F7)

/-- BLK_IC_INV (R553). -/
def execBlkIcInv (r : Region) (b : Block) (cells : Word) (s : State) : Out := s.run fun d => d.icInvWrite r b.val cells.toNat

/-- CELL_RUN_WRITE (R429, R430, R830): cells whose bit falls are reset, with their local memory written to zero; cells whose bit rises
start. -/
def Dev.cellRunWrite (d : Dev) (r : Region) (b v : Nat) : Dev :=
  let was := d.fld (BLK_CELL_RUN_run r.val b)
  ((d.setCellRun r b (v % 256)).noteRequest r 3 b).each ((List.range 8).filter (fun c => bitOf was c && !bitOf v c))
    (fun c d => d.zero (clmAddr (cellNo r.val b c) 0) 0x10000)

/-- CELL_RUN_WRITE (R429): a command to a block that is not awake is refused by the block (R538). -/
def execCellRunWrite (r : Region) (b : Block) (value : Word) (s : State) : Out := s.run fun d =>
  if d.blockState r.val b.val = 0 then d.cellRunWrite r b.val value.toNat else d

/-- BLOCK_RESET (R828): RGN_BLK_RST is written. -/
def execBlockReset (r : Region) (blocks : Word) (s : State) : Out := s.run fun d => d.blkRstWrite r blocks.toNat

end Sys2Proof.Machine
end

