-- ==== Sys2Proof/Machine/Crypto.lean ====
section
/-!
DEFINITION. The ciphers and hashes that R472 cites: AES (FIPS 197), the GCM product (NIST SP 800-38D), SHA-256 and SHA-384 (FIPS 180-4),
and the Toeplitz hash. Their constants are computed from their definitions.
-/

namespace Sys2Proof.Machine.Crypto

/-! ### AES -/

/-- Twice a field element of GF(2^8). -/
def xtime (a : Nat) : Nat := if 128 ≤ a then (2 * a) ^^^ 0x11B else 2 * a

/-- The product in GF(2^8). -/
def gmul (a b : Nat) : Nat :=
  ((List.range 8).foldl (fun (acc : Nat × Nat) i => (if b / 2 ^ i % 2 = 1 then acc.1 ^^^ acc.2 else acc.1, xtime acc.2)) (0, a)).1

/-- The inverse in GF(2^8), a^254; zero maps to zero. -/
def ginv (a : Nat) : Nat :=
  ((List.range 7).foldl (fun (acc : Nat × Nat) _ => let s := gmul acc.2 acc.2; (gmul acc.1 s, s)) (1, a)).1

/-- A byte rotated left. -/
def rotl8 (x n : Nat) : Nat := (x * 2 ^ n) % 256 + x / 2 ^ (8 - n)

/-- The substitution box. -/
def sbox (x : Nat) : Nat :=
  let b := ginv x
  b ^^^ rotl8 b 1 ^^^ rotl8 b 2 ^^^ rotl8 b 3 ^^^ rotl8 b 4 ^^^ 0x63

/-- Exclusive or of byte lists. -/
def xorBytes (a b : List Nat) : List Nat := List.zipWith (· ^^^ ·) a b

/-- The bytes `i … i + n − 1` of a list. -/
def cut (l : List Nat) (i n : Nat) : List Nat := (l.drop i).take n

/-- The expanded key, 16 bytes for each of the rounds + 1 round keys. -/
def expandKey (key : List Nat) (rounds : Nat) : List Nat :=
  let nk := key.length / 4
  ((List.range (4 * (rounds + 1) - nk)).foldl (fun (acc : List Nat × Nat) j =>
    let i := j + nk
    let prev := cut acc.1 (4 * i - 4) 4
    let t := if i % nk = 0 then
        xorBytes (((prev.drop 1) ++ prev.take 1).map sbox) [acc.2, 0, 0, 0]
      else if 6 < nk ∧ i % nk = 4 then prev.map sbox else prev
    (acc.1 ++ xorBytes (cut acc.1 (4 * i - 4 * nk) 4) t, if i % nk = 0 then xtime acc.2 else acc.2)) (key, 1)).1

/-- Rows of the state shifted; the state is held by columns. -/
def shiftRows (s : List Nat) : List Nat := (List.range 16).map (fun i => s.getD ((i + 4 * (i % 4)) % 16) 0)

/-- The columns of the state mixed. -/
def mixColumns (s : List Nat) : List Nat :=
  (List.range 16).map (fun i =>
    let c := i / 4 * 4
    let at' (j : Nat) : Nat := s.getD (c + (i + j) % 4) 0
    xtime (at' 0) ^^^ (xtime (at' 1) ^^^ at' 1) ^^^ at' 2 ^^^ at' 3)

/-- AES of one block under a key of 16 or 32 bytes. -/
def aes (key block : List Nat) : List Nat :=
  let rounds := key.length / 4 + 6
  let w := expandKey key rounds
  (List.range rounds).foldl (fun s j =>
    let t := shiftRows (s.map sbox)
    xorBytes (if j + 1 = rounds then t else mixColumns t) (cut w (16 * (j + 1)) 16)) (xorBytes block (cut w 0 16))

/-! ### GCM -/

/-- The product of GHASH on numbers whose most significant bit is the first of the block. -/
def gfmul (x h : Nat) : Nat :=
  ((List.range 128).foldl (fun (acc : Nat × Nat) i =>
    (if x / 2 ^ (127 - i) % 2 = 1 then acc.1 ^^^ acc.2 else acc.1,
     if acc.2 % 2 = 1 then acc.2 / 2 ^^^ (0xE1 * 2 ^ 120) else acc.2 / 2)) (0, h)).1

/-! ### SHA-2 -/

/-- The first primes, as many as the round constants of SHA-512 need. -/
def primes (n : Nat) : List Nat :=
  ((List.range 412).filter (fun p => 2 ≤ p && (List.range p).all (fun d => d < 2 || p % d != 0))).take n

/-- The integer cube root, bit by bit from `2^k`. -/
def cbrt (n : Nat) : Nat → Nat → Nat
  | 0, a => a
  | k + 1, a => cbrt n k (if (a + 2 ^ k) ^ 3 ≤ n then a + 2 ^ k else a)

/-- The round constants: the first `w` bits of the fractional parts of the cube roots of primes. -/
def shaK (w n : Nat) : List Nat := (primes n).map (fun p => cbrt (p * 2 ^ (3 * w)) (w + 3) 0 % 2 ^ w)

/-- The square root's fractional bits, for the initial values. -/
def sqrtFrac (w p : Nat) : Nat := Nat.sqrt (p * 2 ^ (2 * w)) % 2 ^ w

/-- The initial state of SHA-256 (`w = 32`) or SHA-384 (`w = 64`). -/
def shaInit (w : Nat) : List Nat :=
  if w = 32 then (primes 8).map (sqrtFrac 32) else ((primes 16).drop 8).map (sqrtFrac 64)

/-- A word of `w` bits rotated right. -/
def ror (w x n : Nat) : Nat := x / 2 ^ n + x % 2 ^ n * 2 ^ (w - n)

/-- One compression of SHA-2 over words of `w` bits; `rot` are the rotation counts of the four sigma functions. -/
def compress (w rounds : Nat) (rot : List Nat) (k : List Nat) (h block : List Nat) : List Nat :=
  let r (i : Nat) : Nat := rot.getD i 0
  let big (a b c x : Nat) : Nat := ror w x a ^^^ ror w x b ^^^ ror w x c
  let small (a b c x : Nat) : Nat := ror w x a ^^^ ror w x b ^^^ x / 2 ^ c
  let m := 2 ^ w
  let ws := (List.range (rounds - 16)).foldl (fun ws j =>
    let i := j + 16
    ws ++ [(small (r 9) (r 10) (r 11) (ws.getD (i - 2) 0) + ws.getD (i - 7) 0 + small (r 6) (r 7) (r 8) (ws.getD (i - 15) 0)
      + ws.getD (i - 16) 0) % m]) block
  let out := (List.range rounds).foldl (fun (v : List Nat) i =>
    let g (j : Nat) : Nat := v.getD j 0
    let ch := (g 4 &&& g 5) ^^^ ((m - 1 - g 4) &&& g 6)
    let maj := (g 0 &&& g 1) ^^^ (g 0 &&& g 2) ^^^ (g 1 &&& g 2)
    let t1 := g 7 + big (r 3) (r 4) (r 5) (g 4) + ch + k.getD i 0 + ws.getD i 0
    let t2 := big (r 0) (r 1) (r 2) (g 0) + maj
    [(t1 + t2) % m, g 0, g 1, g 2, (g 3 + t1) % m, g 4, g 5, g 6]) h
  List.zipWith (fun a b => (a + b) % m) h out

/-- One block of SHA-256 (64 bytes) or SHA-384 (128 bytes) into a state. -/
def shaBlock (w : Nat) (h : List Nat) (b : List Byte) : List Nat :=
  let words := (List.range 16).map (fun i => ofBE (sliceOf b (i * (w / 8)) (w / 8)))
  if w = 32 then compress 32 64 [2, 13, 22, 6, 11, 25, 7, 18, 3, 17, 19, 10] (shaK 32 64) h words
  else compress 64 80 [28, 34, 39, 14, 18, 41, 1, 8, 7, 19, 61, 6] (shaK 64 80) h words

/-- The blocks of a byte list, each of `n` bytes. -/
def blocks (n : Nat) (b : List Byte) : List (List Byte) := (List.range (b.length / n)).map (fun i => sliceOf b (i * n) n)

/-- The padding of a message of `len` bytes whose blocks have `n` bytes. -/
def shaPad (n len : Nat) : List Byte :=
  let l := n / 8
  let z := (2 * n - 1 - l - len % n) % n
  [0x80] ++ List.replicate z 0 ++ bytesBE l (8 * len)

/-- The digest of a message. -/
def sha (w : Nat) (b : List Byte) : List Byte :=
  let n := 2 * w
  let h := (blocks n (b ++ shaPad n b.length)).foldl (shaBlock w) (shaInit w)
  if w = 32 then h.flatMap (bytesBE 4) else (h.flatMap (bytesBE 8)).take 48

/-! ### Toeplitz -/

/-- The Toeplitz hash of one byte at offset `i` of the input, with a 40-byte key as a number whose most significant bit is first. -/
def toeplitzByte (key i b : Nat) : Nat :=
  (List.range 8).foldl (fun a j => if b / 2 ^ (7 - j) % 2 = 1 then a ^^^ (key / 2 ^ (288 - (8 * i + j)) % 2 ^ 32) else a) 0

end Sys2Proof.Machine.Crypto
end

