-- ==== Sys2Proof/Machine/Hbm.lean ====
section
/-!
DEFINITION. The HBM controller of a region (R609–R642, R835, R873).
-/

namespace Sys2Proof.Machine

/-- Where a column lies in the stack: pseudo-channel, bank and row (R617). -/
def hbmPlace (order addr : Nat) : Nat × Nat × Nat :=
  let n := addr / 32
  match order with
  | 0 => (n / 28 % 32, n / (28 * 32) % 48, n / (28 * 32 * 48) % 16384)
  | 1 => (n / (4 * 48 * 7) % 32, n / 4 % 48, n / (4 * 48 * 7 * 32) % 16384)
  | 2 => (n / 4 % 32, n / (4 * 32 * 7) % 48, n / (4 * 32 * 7 * 48) % 16384)
  | _ =>
    let pc := n / 4 % 32
    let bank := n / (4 * 32 * 7) % 48
    let row := n / (4 * 32 * 7 * 48) % 16384
    (pc ^^^ (row % 32) ^^^ (bank % 32), (bank + row) % 48, row)

namespace Dev

/-- Change the HBM state of a region. -/
def modHbm (d : Dev) (r : Region) (f : HbmState → HbmState) : Dev := d.modR r (fun g => { g with hbm := f g.hbm })

/-- The state of the controller (R636). -/
def hbmState (d : Dev) (r : Nat) : Nat := d.fld (RGN_HBM_STAT_state r)

/-- A rejected write of the controller's registers (R641, R642). -/
def hbmReject (d : Dev) (r : Region) : Dev := d.err (RGN_HBM_ERR_cfg_rejected r.val) r 0x309

/-- A numbered value of a pseudo-channel. -/
def pcGet (l : List (Nat × Nat)) (pc : Nat) : Nat := Sparse.get (fun _ => 0) l pc
def pcSet (l : List (Nat × Nat)) (pc v : Nat) : List (Nat × Nat) := Sparse.set (fun _ => 0) l pc v

/-! ### Failure (R633, R873) -/

/-- Whether a region holds a table in HBM (R835). -/
def tablesInHbm (d : Dev) (r : Region) : Bool := (d.g r).tables.inEffect.any (fun e => e.2.kind != 0 && e.2.kind != 3 && e.2.place == 1)

/-- Declare the stack failed: cause 1 training, 2 parity, 3 temperature; the region loses its deep pool. -/
def failStack (d : Dev) (r : Region) (cause : Nat) : Dev :=
  if d.stackFailed r.val then d
  else
    let d := (((d.setFld (RGN_HBM_STAT_state r.val) 7).clr (RGN_HBM_STAT_pend_valid r.val)).clr (RGN_HBM_STAT_gathering r.val)).clr
      (RGN_HBM_TRAIN_busy r.val)
    let d := (d.err (RGN_HBM_ERR_stack_failed r.val) r 0x308).setFld (RGN_DEEP_FREE_deep_free r.val) 0
    (d.modHbm r (fun h => { h with waiting := [] })).journalRegion r 0x0305 (bytesLE 1 cause)

/-! ### Frequency (R629–R631) -/

/-- A request for a rate (R629, R630): the newest stands, one for the rate in force cancels, and 9.6 Gb/s is rejected while the stack is
hot after a thermal step. -/
def requestRate (d : Dev) (r : Region) (rate : Nat) : Dev :=
  if d.stackFailed r.val then d
  else if rate = 0 ∧ (d.g r).hbm.stepped ∧ 90 ≤ d.fld (RGN_HBM_STAT_temp r.val) then d.err (RGN_HBM_ERR_freq_rejected r.val) r 0x309
  else if rate = d.fld (RGN_HBM_STAT_rate r.val) ∧ d.hbmState r.val ≠ 5 then
    (d.clr (RGN_HBM_STAT_pend_valid r.val)).clr (RGN_HBM_STAT_pend_rate r.val)
  else (d.setOn (RGN_HBM_STAT_pend_valid r.val)).setFld (RGN_HBM_STAT_pend_rate r.val) rate

/-- The rate that the mode calls for (R629, R840, R841). -/
def modeRate (d : Dev) (r : Region) : Nat := if (d.g r).mode = .lean then 2 else d.fld (RGN_HBM_CFG_rate_run r.val)

/-- A write of rate_run (R624, R629): outside LEAN it requests the rate, which waits while the stack is hot after a thermal step;
0b10 and 0b11 are rejected. -/
def rateWrite (d : Dev) (r : Region) (rate : Nat) : Dev :=
  if 2 ≤ rate then d.hbmReject r
  else
    let d := d.setFld (RGN_HBM_CFG_rate_run r.val) rate
    let hot := rate = 0 ∧ (d.g r).hbm.stepped ∧ 90 ≤ d.fld (RGN_HBM_STAT_temp r.val)
    let d := d.modHbm r (fun h => { h with held := decide hot })
    if (d.g r).mode = .lean then d else d.requestRate r rate

/-- The stack has cooled below 90 °C after a thermal step: a write of rate_run that was made meanwhile takes effect (R629). -/
def coolDown (d : Dev) (r : Region) : Dev :=
  let held := (d.g r).hbm.held
  let d := d.modHbm r (fun h => { h with stepped := false, held := false })
  if held && (d.g r).mode != .lean then d.requestRate r (d.fld (RGN_HBM_CFG_rate_run r.val)) else d

/-! ### Serving requests (R613–R623, R626, R627) -/

/-- The first deep stitch whose descriptor lies in a column of a region's HBM, if the column lies in a table of descriptors (R558). -/
def descColumn (d : Dev) (r : Region) (addr : Nat) : Option Nat :=
  let base := d.fld (RGN_DEEP_CFG_base r.val) * 2 ^ 20
  let x := addr / 32 * 32 - base
  let i := x % 2 ^ 26 / 8
  if base ≤ addr / 32 * 32 ∧ x / 2 ^ 26 < d.fld (RGN_DEEP_CFG_units r.val) ∧ i < 253952 then
    some (handleOf r.val 1 (x / 2 ^ 26 * 253952 + i)) else none

/-- The number of the row in which a column lies. -/
def rowKey (d : Dev) (r : Region) (addr : Nat) : Nat :=
  let (pc, bank, row) := hbmPlace (d.fld (RGN_HBM_CFG_order r.val)) addr
  (pc * 48 + bank) * 16384 + row

/-- Whether the tag or the metadata of a column's row was found wrong: the row is uncorrectable in every column (R612). -/
def rowBad (d : Dev) (r : Region) (addr : Nat) : Bool := (d.g r).hbm.badRows.contains (d.rowKey r addr)

/-- Note that a row's tag or metadata is wrong. -/
def noteRow (d : Dev) (r : Region) (addr : Nat) : Dev :=
  let k := d.rowKey r addr
  d.modHbm r (fun h => { h with badRows := if h.badRows.contains k then h.badRows else h.badRows ++ [k] })

/-- Find a column in error (R612, R614): 1 corrected, 2 uncorrectable, 3 a row whose tag or metadata is wrong, as every later column of
that row is. A line of deep stitch descriptors that is uncorrectable withdraws its stitches (R569). -/
def findColumn (d : Dev) (r : Region) (addr found : Nat) : Dev :=
  let a := r.val * 2 ^ 44 + addr / 32 * 32
  let found := if d.rowBad r addr then 3 else found
  if found = 0 ∨ d.poisoned a then d
  else if found = 1 then
    let first := d.fld (RGN_HBM_ECC_corrected r.val) == 0
    let d := d.addSat (RGN_HBM_ECC_corrected r.val) 1
    if first then d.raise r 0x300 else d
  else
    let d := if found = 3 then (d.noteRow r addr).err (RGN_HBM_ERR_addr_fault r.val) r 0x302 else d
    let d := (d.setPoison a true).addSat (RGN_HBM_ECC_poisoned r.val) 1
    let d := (d.setReg (RGN_HBM_POISON_LO r.val) (BitVec.ofNat 32 (addr / 32 * 32))).setReg (RGN_HBM_POISON_HI r.val)
      (BitVec.ofNat 32 (2 ^ 31 + addr / 2 ^ 32 % 8))
    let d := (d.raise r 0x301).journalRegion r 0x0304 (bytesLE 8 (addr / 32 * 32))
    match d.descColumn r addr with
    | some h => d.withdrawLine h
    | none => d

/-- Whether a write covers a part of a column only, and so reads it first (R613). -/
def partWrite (addr len : Nat) : Bool := len != 0 && (addr % 32 != 0 || (addr + len) % 32 != 0)

/-- The column that a part write reads: the first that it covers in part. -/
def partColumn (addr len : Nat) : Nat := if addr % 32 = 0 then addr + len - 1 else addr

/-- What a request finds in the column that it reads: a read its first column, a write one that it covers in part. -/
def findFor (d : Dev) (r : Region) (write : Bool) (addr len found : Nat) : Dev :=
  if !write then d.findColumn r addr found
  else if partWrite addr len then d.findColumn r (partColumn addr len) found else d

/-- Write to HBM in whole columns: part of a poisoned column is discarded (R613). -/
def hbmWrite (d : Dev) (r : Region) (addr : Nat) (data : List Byte) : Dev :=
  let (d, lost) := d.writeLines (data.length + 1) (r.val * 2 ^ 44 + addr) data
  if lost then d.err (RGN_HBM_ERR_poison_store r.val) r 0x301 else d

/-- The columns that a request covers. -/
def columns (addr len : Nat) : Nat := if len = 0 then 0 else (addr + len - 1) / 32 - addr / 32 + 1

/-- Perform a request: memory, the monitors' columns, and the row that stays open under its hint (R613, R622, R804). -/
def serveHbm (d : Dev) (r : Region) (q : HbmReq) : Dev :=
  let (pc, bank, row) := hbmPlace (d.fld (RGN_HBM_CFG_order r.val)) q.addr
  let opens := if d.on (RGN_HBM_PORT_hint_fixed r.val q.port) then d.on (RGN_HBM_PORT_hint r.val q.port) else q.hint
  let d := d.modHbm r (fun h => { h with
    rows := Sparse.set (fun _ => none) h.rows (pc * 48 + bank) (if opens then some row else none), parity := pcSet h.parity pc 0 })
  let d := if q.write then d.hbmWrite r q.addr q.data else d
  d.event r (if q.write then 0x151 else 0x150) q.port (columns q.addr (if q.write then q.data.length else q.len))

/-- The field of RGN_HBM_WAIT that a port's latencies count in (R641). -/
def waitFld (d : Dev) (r : Region) (port : Nat) : Fld :=
  if d.on (RGN_HBM_PORT_rt r.val port) then RGN_HBM_WAIT_rt_max r.val else RGN_HBM_WAIT_nrt_max r.val

/-- Perform a request that waited at its port; how long it waited is not stated. -/
def serveWaiting (d : Dev) (r : Region) (q : HbmReq) : Dev :=
  (d.serveHbm r q).maxFld (d.waitFld r q.port) (d.freeNat (if d.on (RGN_HBM_PORT_rt r.val q.port) then 61 else 62))

/-- Perform the requests that waited while the controller could not serve, in order (R631, R632). -/
def releaseHeld (d : Dev) (r : Region) : Dev :=
  let l := (d.g r).hbm.waiting
  (d.modHbm r (fun h => { h with waiting := [] })).each l (fun q d => d.serveWaiting r q)

/-- Whether a burst is in progress on a pseudo-channel (R626). -/
def bursting (d : Dev) (r : Region) (pc : Nat) : Bool := (List.range 6).any (fun p => pcGet (d.g r).hbm.bursts (pc * 6 + p) != 0)

/-- The owed rounds of a pseudo-channel enter its queue: their steps need its banks, so their rows close (R622, R627). -/
def enterRounds (d : Dev) (r : Region) (pc : Nat) : Dev :=
  d.modHbm r (fun h => { h with
    debts := pcSet h.debts pc 0, inserts := pcSet h.inserts pc 0, rows := h.rows.filter (fun e => e.1 / 48 != pc) })

/-- A round's steps that are still to be inserted into a burst: one before each further access (R627); the bank that a step needs
is not stated. -/
def insertStep (d : Dev) (r : Region) (pc : Nat) : Dev :=
  let n := pcGet (d.g r).hbm.inserts pc
  if n = 0 then d
  else
    let d := ((d.addSat (RGN_HBM_REFRESH_inserted r.val) 1).err (RGN_HBM_ERR_refresh_inserted r.val) r 0x303).event r 0x152 0
    d.modHbm r (fun h => { h with
      inserts := pcSet h.inserts pc (n - 1), debts := if n = 1 then pcSet h.debts pc 7 else h.debts,
      rows := Sparse.set (fun _ => none) h.rows (pc * 48 + d.freeNat 60 % 48) none })

/-- Follow the marks of a real-time request: the burst of its port grows to at most 64 requests; when no burst is left on the
pseudo-channel the owed rounds enter (R626, R627). -/
def followBurst (d : Dev) (r : Region) (port pc : Nat) (first last : Bool) : Dev :=
  let n := pcGet (d.g r).hbm.bursts (pc * 6 + port)
  let rt := d.on (RGN_HBM_PORT_rt r.val port)
  let d := if n ≠ 0 then d.insertStep r pc else d
  let n' := if n ≠ 0 then (if last || n = 64 then 0 else n + 1) else if rt && first && !last then 1 else 0
  let d := d.modHbm r (fun h => { h with bursts := pcSet h.bursts (pc * 6 + port) n' })
  if n ≠ 0 ∧ !d.bursting r pc then d.enterRounds r pc else d

/-- The pseudo-channel of a waiting request. -/
def reqPc (d : Dev) (r : Region) (q : HbmReq) : Nat := (hbmPlace (d.fld (RGN_HBM_CFG_order r.val)) q.addr).1

/-- Perform the requests of a port that wait for a pseudo-channel, before a later one of that port (R620, R621). -/
def serveEarlier (d : Dev) (r : Region) (port pc : Nat) : Dev :=
  let l := (d.g r).hbm.waiting.filter (fun q => q.port == port && d.reqPc r q == pc)
  (d.modHbm r (fun h => { h with waiting := h.waiting.filter (fun q => !l.contains q) })).each l (fun q d => d.serveWaiting r q)

/-- Start the initialisation pass (R632): every row of the stack is written to zero. -/
def startInit (d : Dev) (r : Region) : Dev :=
  ((d.zero (r.val * 2 ^ 44) 0x00540000000).setFld (RGN_HBM_STAT_state r.val) 2).modHbm r (fun h => { h with
    rows := [], debts := [], bursts := [], inserts := [], parity := [], badRows := [] })

/-- A write of order (R618): an accepted change runs the initialisation pass. -/
def orderWrite (d : Dev) (r : Region) (order : Nat) : Dev :=
  let m := (d.g r).mode
  if m == .load || m.isOpen then
    if order % 4 = d.fld (RGN_HBM_CFG_order r.val) then d
    else
      let d := d.setFld (RGN_HBM_CFG_order r.val) order
      if d.hbmState r.val = 0 || d.stackFailed r.val then d else d.startInit r
  else d.hbmReject r

/-- Start a full retrain where step 1 of its procedure holds (R640). -/
def retrain (d : Dev) (r : Region) : Dev :=
  let m := (d.g r).mode
  if (m.isOpen || (m == .drain && (d.reg (RGN_INFLIGHT r.val)).toNat == 0)) && d.hbmState r.val == 3 then
    (d.setFld (RGN_HBM_STAT_state r.val) 6).setOn (RGN_HBM_TRAIN_busy r.val)
  else d.hbmReject r

/-- The state to which the controller returns, with the held requests served. -/
def becomeReady (d : Dev) (r : Region) : Dev := (d.setFld (RGN_HBM_STAT_state r.val) 3).releaseHeld r

end Dev

/-! ### The commands -/

/-- HBM_REQUEST (R613–R627): a request reaches the controller at a port. One that the controller cannot admit (`waits`), or that comes
while it cannot serve, waits at the port; `found` says what its read of a column finds, and `latency` is its latency in region
clocks. A failed stack does nothing, and in a parked region only port LKP of a stack that stays in service is served (R633, R834, R835). -/
def execHbmRequest (r : Region) (port : Nat) (write : Bool) (addr len : Nat) (data : List Byte) (hint first last waits : Bool)
    (found latency : Nat) (s : State) : Out := s.doing fun d =>
  if 6 ≤ port then .refused .noSuchUnit
  else if 0x00540000000 < addr + (if write then data.length else len) then .fault .outsideAddressSpace
  else if d.stackFailed r.val ∨ (d.parked r.val ∧ (port ≠ 0 ∨ d.hbmState r.val = 4)) then .next d
  else
    let q : HbmReq := ⟨port, write, addr, len, data, hint⟩
    let rt := d.on (RGN_HBM_PORT_rt r.val port)
    if d.hbmState r.val ≠ 3 ∨ (waits ∧ !rt) then .next (d.modHbm r (fun h => { h with waiting := h.waiting ++ [q] }))
    else
      let (pc, _, _) := hbmPlace (d.fld (RGN_HBM_CFG_order r.val)) addr
      let d := (d.serveEarlier r port pc).followBurst r port pc first last
      let d := d.findFor r write addr data.length found
      let d := d.serveHbm r q
      .next (d.maxFld (d.waitFld r port) latency)

/-- HBM_NORMAL_AGE (R621): the oldest normal request that waits is admitted. -/
def execHbmNormalAge (r : Region) (s : State) : Out := s.doing fun d =>
  match (d.g r).hbm.waiting.find? (fun q => !d.on (RGN_HBM_PORT_rt r.val q.port)) with
  | none => .refused .noSuchUnit
  | some q =>
    if d.hbmState r.val ≠ 3 then .refused .noSuchUnit
    else .next (((d.modHbm r (fun h => { h with waiting := h.waiting.erase q })).serveHbm r q).maxFld
      (RGN_HBM_WAIT_nrt_max r.val) 2048)

/-- HBM_ROW_IDLE_CLOSE (R622): a row without access for 64 region clocks is closed. -/
def execHbmRowIdleClose (r : Region) (pc bank : Nat) (s : State) : Out := s.run fun d =>
  d.modHbm r (fun h => { h with rows := Sparse.set (fun _ => none) h.rows (pc % 32 * 48 + bank % 48) none })

/-- HBM_REFRESH_DUE (R627): a round falls due on a pseudo-channel. -/
def execHbmRefreshDue (r : Region) (pc : Nat) (s : State) : Out := s.run fun d =>
  let h := (d.g r).hbm
  let debt := min 8 (Dev.pcGet h.debts pc + 1)
  let d := d.maxFld (RGN_HBM_REFRESH_debt_max r.val) debt
  if !d.bursting r pc then d.enterRounds r pc
  else d.modHbm r (fun h => { h with
    debts := Dev.pcSet h.debts pc debt,
    inserts := if debt = 8 ∧ Dev.pcGet h.inserts pc = 0 then Dev.pcSet h.inserts pc 48 else h.inserts })

/-- HBM_SCRUB (R614, R616): the scrubber reads one data column of a pseudo-channel for which no request waits. -/
def execHbmScrub (r : Region) (addr found : Nat) (s : State) : Out := s.doing fun d =>
  if 0x00540000000 ≤ addr then .fault .outsideAddressSpace
  else if d.hbmState r.val ≠ 3 ∨ d.fld (RGN_HBM_SCRUB_interval r.val) = 0 ∨
      (d.g r).hbm.waiting.any (fun q => d.reqPc r q == d.rowKey r addr / (48 * 16384)) then .refused .noSuchUnit
  else .next (d.findColumn r addr found)

/-- HBM_GATHER (R628, R630): a periodic gathering starts, or ends and shows whether drift is beyond correction. -/
def execHbmGather (r : Region) (start drift : Bool) (s : State) : Out := s.doing fun d =>
  if start then
    if d.hbmState r.val ≠ 3 ∨ d.fld (RGN_HBM_TRAIN_period r.val) = 0 then .refused .noSuchUnit
    else .next (d.setOn (RGN_HBM_STAT_gathering r.val))
  else if !d.on (RGN_HBM_STAT_gathering r.val) then .refused .noSuchUnit
  else
    let d := d.clr (RGN_HBM_STAT_gathering r.val)
    .next (if drift then ((d.err (RGN_HBM_ERR_train_fail r.val) r 0x306).setOn (RGN_HBM_TRAIN_fail r.val)).failStack r 1 else d)

/-- HBM_TEMP_SAMPLE (R629, R633): the stack's temperature in °C; a thermal step, its end, or the catastrophic flag may follow. -/
def execHbmTempSample (r : Region) (temp : Nat) (catastrophic : Bool) (s : State) : Out := s.run fun d =>
  let was := d.fld (RGN_HBM_STAT_temp r.val)
  let d := d.setFld (RGN_HBM_STAT_temp r.val) (min 255 temp)
  let d := if 95 ≤ temp ∧ was < 95 then d.raise r 0x307 else d
  if catastrophic then d.failStack r 3
  else if 95 ≤ temp ∧ d.fld (RGN_HBM_STAT_rate r.val) = 0 ∧ d.on (RGN_HBM_CFG_thermal_step r.val) then
    (d.requestRate r 1).modHbm r (fun h => { h with stepped := true })
  else if temp < 90 ∧ (d.g r).hbm.stepped then d.coolDown r
  else d

/-- HBM_RATE_WRITE (R624, R629): rate_run is written. -/
def execHbmRateWrite (r : Region) (rate : Nat) (s : State) : Out := s.run fun d => d.rateWrite r rate

/-- HBM_FREQ_CHANGE (R630, R631): the pending request is applied; requests are held at the ports meanwhile. -/
def execHbmFreqChange (r : Region) (s : State) : Out := s.doing fun d =>
  if d.hbmState r.val ≠ 3 ∨ d.on (RGN_HBM_STAT_gathering r.val) ∨ !d.on (RGN_HBM_STAT_pend_valid r.val) then .refused .noSuchUnit
  else
    let d := (d.setFld (RGN_HBM_STAT_rate r.val) (d.fld (RGN_HBM_STAT_pend_rate r.val))).setFld (RGN_HBM_STAT_state r.val) 5
    .next (((d.clr (RGN_HBM_STAT_pend_valid r.val)).clr (RGN_HBM_STAT_pend_rate r.val)).modHbm r (fun h => { h with rows := [] }))

/-- HBM_FREQ_DONE (R631): the change is complete, and the held requests follow in order. -/
def execHbmFreqDone (r : Region) (s : State) : Out := s.doing fun d =>
  if d.hbmState r.val ≠ 5 then .refused .noSuchUnit else .next ((d.becomeReady r).raise r 0x304)

/-- HBM_TRAIN_RETRAIN (R640): a full retrain is started. -/
def execHbmTrainRetrain (r : Region) (s : State) : Out := s.run fun d => d.retrain r

/-- HBM_RETRAIN_DONE (R633, R640): a full retrain completes, its contents kept, or fails the stack. -/
def execHbmRetrainDone (r : Region) (failed : Bool) (s : State) : Out := s.doing fun d =>
  if d.hbmState r.val ≠ 6 then .refused .noSuchUnit
  else
    let d := ((d.clr (RGN_HBM_TRAIN_busy r.val)).setFld (RGN_HBM_TRAIN_fail r.val) (if failed then 1 else 0)).raise r 0x305
    .next (if failed then (d.err (RGN_HBM_ERR_train_fail r.val) r 0x306).failStack r 1 else d.becomeReady r)

/-- HBM_ORDER_WRITE (R618): the address order is written. -/
def execHbmOrderWrite (r : Region) (order : Nat) (s : State) : Out := s.run fun d => d.orderWrite r order

/-- HBM_SELF_REFRESH_EXIT (R634): the stack leaves self-refresh; a request that was pending is applied before READY. -/
def execHbmSelfRefreshExit (r : Region) (s : State) : Out := s.doing fun d =>
  if d.hbmState r.val ≠ 4 then .refused .noSuchUnit
  else
    let d := if d.on (RGN_HBM_STAT_pend_valid r.val) then
        ((d.setFld (RGN_HBM_STAT_rate r.val) (d.fld (RGN_HBM_STAT_pend_rate r.val))).clr (RGN_HBM_STAT_pend_valid r.val)).clr
          (RGN_HBM_STAT_pend_rate r.val)
      else d
    .next (d.becomeReady r)

/-- HBM_CA_PARITY_ERROR (R633): a retry of a pseudo-channel meets a parity error; the third in a row fails the stack. -/
def execHbmCaParityError (r : Region) (pc : Nat) (s : State) : Out := s.run fun d =>
  let n := Dev.pcGet (d.g r).hbm.parity pc + 1
  let d := d.modHbm r (fun h => { h with parity := Dev.pcSet h.parity pc n })
  if 3 ≤ n then d.failStack r 2 else d

end Sys2Proof.Machine
end

