-- ==== Sys2Proof/Machine/Rings.lean ====
section
/-!
DEFINITION. The PCIe endpoints: queue pairs, update rings, completion interrupts, resets of an endpoint, and the egress timestamp
FIFO of a port (R163, R187, R332, R333, R717, R724–R740, R743–R746).
-/

namespace Sys2Proof.Machine

namespace Dev

/-! ### Rings (R730–R734) -/

/-- The position of an endpoint, as a number. -/
def epPos (e : Endpoint) : Nat := (endpointRegion e).val

/-- Set an error bit of an endpoint and raise a source of its region. -/
def epErr (d : Dev) (e : Endpoint) (f : Fld) (n : Nat) : Dev := d.err f (endpointRegion e) n

/-- The queue pairs of an endpoint whose enable at bit `b` is set, in number order. -/
def enabledPairs (d : Dev) (e : Endpoint) (b : Nat) : List Nat :=
  (d.regs.filter (fun x => HST_QP_CFG e.val 0 ≤ x.1 && x.1 < HST_QP_CFG e.val 512 && (x.1 - HST_QP_CFG e.val 0) % 0x40 == 0
    && fieldOf x.2 b 1 == 1)).map (fun x => (x.1 - HST_QP_CFG e.val 0) / 0x40)

/-- The producer index that the host posted last for a ring. -/
def producer (d : Dev) (e : Endpoint) (k : Nat) : Nat := Sparse.get (fun _ => 0) (d.ep e).producer k

/-- How far producer index `pi` lies ahead of consumer index `ci` (R731). -/
def ringAhead (pi ci : Nat) : Nat := (pi + 65536 - ci % 65536) % 65536

/-- A doorbell: the producer index is recorded, unless it lies more than the ring's size ahead (R731). -/
def doorbell (d : Dev) (e : Endpoint) (k pi ci size : Nat) : Dev :=
  if size < ringAhead pi ci then d.epErr e (HST_EP_ERR_ring_err e.val) 0x3C3
  else d.modEp e (fun s => { s with producer := Sparse.set (fun _ => 0) s.producer k pi })

/-- The transmit work of a queue pair, and its receive descriptors not yet used. -/
def txWork (d : Dev) (e : Endpoint) (q : Nat) : Nat := ringAhead (d.producer e (2 * q)) (d.fld (HST_QP_CI_tx_ci e.val q))
def rxWork (d : Dev) (e : Endpoint) (q : Nat) : Nat := ringAhead (d.producer e (2 * q + 1)) (d.fld (HST_QP_CI_rx_ci e.val q))

/-- The host memory key of a descriptor of a transmit or receive ring (R730, R731). -/
def txDesc (d : Dev) (e : Endpoint) (q i : Nat) : Nat :=
  hostMem e.val (d.pair (HST_QP_TXB_LO e.val q) (HST_QP_TXB_HI e.val q) + i % 2 ^ d.fld (HST_QP_CFG_tx_log e.val q) * 32)
def rxDesc (d : Dev) (e : Endpoint) (q i : Nat) : Nat :=
  hostMem e.val (d.pair (HST_QP_RXB_LO e.val q) (HST_QP_RXB_HI e.val q) + i % 2 ^ d.fld (HST_QP_CFG_rx_log e.val q) * 32)

/-- Signal a completion of a queue pair, at once or when its coalescing time has passed (R740). -/
def signalPair (d : Dev) (e : Endpoint) (q : Nat) : Dev :=
  if d.fld (HST_QP_COAL_coalesce e.val q) = 0 then d.msix e (d.fld (HST_QP_CFG_vector e.val q))
  else d.modEp e (fun s => { s with
    unsignalled := if s.unsignalled.any (·.1 == q) then s.unsignalled
      else Sparse.put s.unsignalled q (d.g (endpointRegion e)).tick })

/-- The status and error of a descriptor of zero length or size (R62, R734). -/
def zeroStatus (d : Dev) (e : Endpoint) : Dev × Nat :=
  if d.on (CHP_COMPAT_a1 d.A) then (d.epErr e (HST_EP_ERR_zero_len e.val) 0x3C3, 2) else (d, 1)

/-! ### Transmit (R735) -/

/-- Complete a transmit descriptor (R732): its bytes 24–31, and the consumer index moves on. -/
def txComplete (d : Dev) (e : Endpoint) (q i tick seq reason status : Nat) : Dev :=
  let d := d.setBytes (d.txDesc e q i + 24) (bytesLE 4 tick ++ bytesLE 2 seq ++ bytesLE 1 reason ++ bytesLE 1 (0x80 + status))
  ((d.setFld (HST_QP_CI_tx_ci e.val q) (i + 1)).clr (HST_QP_STAT_busy e.val q)).signalPair e q

/-- The first of a list of rings from `start` onwards, in turn. -/
def ringTurn (start : Nat) (l : List Nat) : Option Nat := (l.find? (start ≤ ·)).or l.head?

/-- Whether host packets are admitted: in a mode that admits traffic, so not in DRAIN, and not into a fenced region (R57, R839, R858). -/
def hostAdmits (d : Dev) (r : Region) : Bool := (d.g r).mode.isRun && (d.g r).mode != .drain && !d.fenced r.val

/-- Whether a front-end slot is free for a host packet (R291, R735): the front-ends have one left in this tick and no Ethernet frame
waits for it. -/
def hostSlot (d : Dev) (r : Region) : Bool :=
  d.slotLeft r && d.packets.all (fun e => !e.2.any (fun q => q.region == r.val && passClass q == some 0))

/-- Take the descriptor at the head of a transmit ring: it completes at once where there is nothing to read (R734). -/
def takeTx (d : Dev) (e : Endpoint) (q : Nat) : Dev :=
  let i := d.fld (HST_QP_CI_tx_ci e.val q)
  let a := d.txDesc e q i
  let len := d.le (a + 8) 2
  let d := d.modEp e (fun s => { s with txTurn := q + 1 })
  if len = 0 then
    let (d, st) := d.zeroStatus e
    d.txComplete e q i 0 0 0 st
  else if 16384 < len then d.txComplete e q i 0 0 0 3
  else
    let job : TxJob := ⟨i, d.le a 8, len, d.le (a + 10) 1 % 8⟩
    let d := (d.modEp e (fun s => { s with txBusy := Sparse.put s.txBusy q job })).setOn (HST_QP_STAT_busy e.val q)
    (d.modDsp (endpointRegion e) (fun x => { x with general := x.general + 1 })).pressure (endpointRegion e)

/-- The transmit job of a queue pair. -/
def txJob (d : Dev) (e : Endpoint) (q : Nat) : Option TxJob := ((d.ep e).txBusy.find? (·.1 == q)).map (·.2)

/-- Give back the task entry that a transmit job reserved. -/
def dropReserve (d : Dev) (r : Region) : Dev := (d.modDsp r (fun x => { x with general := x.general - 1 })).pressure r

/-- T of the shutter that begins tick `s`, in ns: base_time + (s − base_tick) × the tick period (R711). -/
def ptpTime (d : Dev) (s : Nat) : Int :=
  let (tick, sec, ns) := d.anchorSt.ptpBase
  let ahead : Int := if tickAfter tick s then -(ticksAhead tick s : Int) else ticksAhead s tick
  ((sec * 10 ^ 9 + ns : Nat) : Int) + ahead * (d.periodPs / 1000 : Nat)

/-- The time of a stamp taken `time` region clocks of 0.8 ns into the present tick, which a host-injected packet reads (R711, R716): ns and
seconds. -/
def stampTime (d : Dev) (r : Region) (time : Nat) : Nat × Nat :=
  let n := (d.ptpTime (d.g r).tick + (time * 4 / 5 : Nat)).toNat
  (n % 10 ^ 9, n / 10 ^ 9)

/-- End a transmit job: the read failed, or its packet meets admission and is stamped (R163, R735). -/
def endTx (d : Dev) (e : Endpoint) (q : Nat) (j : TxJob) (failed : Bool) (time : Nat) : Dev :=
  let r := endpointRegion e
  let d := d.modEp e (fun s => { s with txBusy := Sparse.drop s.txBusy q })
  if failed then ((d.dropReserve r).epErr e (HST_EP_ERR_dma_err e.val) 0x3C2).txComplete e q j.index 0 0 0 4
  else match d.takeIn r 8 j.tc j.length with
    | (d, .quota) => ((d.dropCount r 0x02).dropReserve r).txComplete e q j.index 0 0 0x02 5
    | (d, .empty) => ((d.dropCount r 0x01).dropReserve r).txComplete e q j.index 0 0 0x01 5
    | (d, .ok h) =>
      let port := 0x40 + e.val
      let seq := d.nextSeq r port
      let d := d.writeChain (d.chain 512 h) (d.bytes (hostMem e.val j.addr) j.length)
      (d.stampPacket r 8 port j.tc h j.length time (d.stampTime r time).1 (d.stampTime r time).2 true).txComplete e q j.index ((d.g r).tick % 2 ^ 32) seq 0 0

/-! ### Receive (R733, R736) -/

/-- A host receive queue. -/
def rxQueue (d : Dev) (e : Endpoint) (q : Nat) : List RxPkt := Sparse.get (fun _ => []) (d.ep e).rxq q

/-- Write a host receive queue; the packet that comes to its head starts to wait now. -/
def setRxQueue (d : Dev) (e : Endpoint) (q : Nat) (l : List RxPkt) : Dev :=
  let now := (d.g (endpointRegion e)).tick
  let l := match l with
    | x :: t => { x with since := now } :: t
    | [] => []
  d.modEp e (fun s => { s with rxq := Sparse.set (fun _ => []) s.rxq q l })

/-- HDMA returns its reference to a host packet's chain, or the holding region is told where the rewrite is not complete (R578). -/
def rxGiveBack (d : Dev) (e : Endpoint) (x : RxPkt) : Dev :=
  let r := endpointRegion e
  let h := x.record.head
  if !x.ready then d.reportOutcome r x.record 2 0
  else if handleRegion h = r.val then d.deref (requesterId r.val reqHdma) h
  else d.send r.val (handleRegion h) (.poolOp 2 h (requesterId r.val reqHdma) 0)

/-- Drop a packet of a host receive queue. -/
def dropRx (d : Dev) (e : Endpoint) (code : Nat) (x : RxPkt) : Dev := (d.dropCount (endpointRegion e) code).rxGiveBack e x

/-- The descriptors that a packet of `len` bytes fills from index `i`, of the `n` that the ring holds: index and bytes for each, a
descriptor of size zero taking none; `none` where they do not hold the packet. -/
def rxPlan (d : Dev) (e : Endpoint) (q : Nat) : Nat → Nat → Nat → Option (List (Nat × Nat))
  | _, _, 0 => some []
  | 0, _, _ => none
  | n + 1, i, len =>
    let size := d.le (d.rxDesc e q i + 8) 2
    let take := min size len
    ((d.rxPlan e q n (i + 1) (len - take)).map ((i, take) :: ·))

/-- Write the parts of a packet into their descriptors' buffers and complete the descriptors (R733, R734). -/
def rxWrite (d : Dev) (e : Endpoint) (q : Nat) (x : RxPkt) (first : Bool) : List (Nat × Nat) → List Byte → Dev
  | [], _ => d
  | (i, n) :: t, b =>
    let a := d.rxDesc e q i
    if d.le (a + 8) 2 = 0 then
      let (d, st) := d.zeroStatus e
      ((d.setBytes (a + 16) (List.replicate 15 0 ++ bytesLE 1 (0x80 + st))).setFld (HST_QP_CI_rx_ci e.val q) (i + 1)).rxWrite
        e q x first t b
    else
      let more := t.any (·.2 != 0)
      let d := d.setBytes (hostMem e.val (d.le a 8)) (b.take n)
      let flags := (if more then 0x80 else 0) + (if first then 0x40 else 0) + x.record.stamp.tc % 8
      let d := d.setBytes (a + 16) (bytesLE 2 n ++ bytesLE 1 x.record.stamp.port ++ bytesLE 1 flags ++ bytesLE 4 x.meta0
        ++ bytesLE 4 (if first then x.tsNs % 2 ^ 30 else 0) ++ bytesLE 2 (if first then x.tsSec else 0) ++ bytesLE 1 0 ++ bytesLE 1 0x80)
      (d.setFld (HST_QP_CI_rx_ci e.val q) (i + 1)).rxWrite e q x false t (b.drop n)

/-! ### Update rings (R332, R333, R738) -/

/-- The update rings of an endpoint that are enabled. -/
def enabledRings (d : Dev) (e : Endpoint) : List Nat :=
  (List.range 16).filter (fun k => d.on (HST_UR_CFG_enable e.val k))

/-- The entries of an update ring not yet taken. -/
def urWork (d : Dev) (e : Endpoint) (k : Nat) : Nat := ringAhead (d.producer e (0x1000 + k)) (d.fld (HST_UR_CI_ci e.val k))

/-- The host memory key of an update ring entry. -/
def urEntry (d : Dev) (e : Endpoint) (k i : Nat) : Nat :=
  hostMem e.val (d.pair (HST_UR_B_LO e.val k) (HST_UR_B_HI e.val k) + i % 2 ^ d.fld (HST_UR_CFG_log e.val k) * 128)

/-- Complete an update ring entry in place, its byte 97 last, and send the ring's vector (R332, R738, R740). -/
def urComplete (d : Dev) (e : Endpoint) (k i code visible index : Nat) : Dev :=
  (d.setBytes (d.urEntry e k i + 96) (bytesLE 2 (0x8000 + code) ++ bytesLE 6 (if code = 0 then visible else 0) ++ bytesLE 4 index)).msix
    e (d.fld (HST_UR_CFG_vector e.val k))

/-- A record that host software issues, with the fields that the region fills (R108, R327). -/
def hostRecord (b : List Byte) (source port time : Nat) : Mut := nowFields (Mut.ofBytes b) source port time

/-- Take the entry at the head of an update ring (R330, R333): a NOP or an invalid entry completes at the next shutter, and a record
that finds no staging slot stays at the head. -/
def takeUpdate (d : Dev) (e : Endpoint) (k time : Nat) : Dev :=
  let r := endpointRegion e
  let i := d.fld (HST_UR_CI_ci e.val k)
  let b := d.bytes (d.urEntry e k i) 96
  let m := hostRecord b 4 (0x40 + e.val) time
  let d := d.modEp e (fun s => { s with urTurn := k + 1 })
  let next := (d.g r).tick + 1
  let took (d : Dev) : Dev := d.setFld (HST_UR_CI_ci e.val k) (i + 1)
  if m.op = 0 then (took d).outcome r (.ring e.val k i) 0xA next 0
  else if !d.recordOk r m (Mut.reservedOf b) then (took d).outcome r (.ring e.val k i) 9 next 0
  else match d.stage r m (.ring e.val k i) with
    | (d, true) => took d
    | (d, false) => d.modEp e (fun s => { s with urBlocked := Sparse.set (fun _ => false) s.urBlocked k true })

/-! ### Endpoint resets (R725) -/

/-- Disable every queue pair and update ring of an endpoint and drop what its host queues hold. -/
def resetEndpoint (d : Dev) (e : Endpoint) : Dev :=
  let r := endpointRegion e
  let qs := d.regs.filter (fun x => HST_QP_CFG e.val 0 ≤ x.1 && x.1 < HST_QP_CFG e.val 512 && (x.1 - HST_QP_CFG e.val 0) % 0x40 == 0)
  let d := d.each qs (fun x d => d.setReg x.1 (withField x.2 30 2 0))
  let d := d.each (d.enabledRings e) (fun k d => d.clr (HST_UR_CFG_enable e.val k))
  let d := d.each (d.ep e).txBusy (fun x d => (d.dropReserve r).clr (HST_QP_STAT_busy e.val x.1))
  let held := (d.ep e).rxq.flatMap (·.2)
  let d := d.modEp e (fun s => { s with txBusy := [], rxq := [], unsignalled := [], urBlocked := [] })
  d.each held (fun x d => d.dropRx e 0x0A x)

/-! ### Egress timestamps (R717, R743) -/

/-- Read RGN_PTS_INFO: the entry at the head of the FIFO is popped, and its time shows in the two registers behind it. -/
def ptsRead (d : Dev) (r : Region) (p : Nat) : Dev × Word :=
  match d.ptsFifo r p with
  | [] => (d, 0)
  | x :: t =>
    let d := (((d.setPts r p t).setReg (RGN_PTS_NS r.val p) (BitVec.ofNat 32 x.ns)).setReg (RGN_PTS_SEC r.val p)
      (BitVec.ofNat 32 x.sec))
    (d, BitVec.ofNat 32 (2 ^ 31 + x.msgType % 16 * 2 ^ 24 + x.domain % 256 * 2 ^ 16 + x.seqId % 65536))

end Dev

/-- QP_TX_DOORBELL (R731): the host posts a transmit producer index. -/
def execQpTxDoorbell (e : Endpoint) (q : Fin 512) (pi : Fin 65536) (s : State) : Out := s.run fun d =>
  d.doorbell e (2 * q.val) pi.val (d.fld (HST_QP_CI_tx_ci e.val q.val)) (2 ^ d.fld (HST_QP_CFG_tx_log e.val q.val))

/-- QP_RX_DOORBELL (R731): the host posts a receive producer index. -/
def execQpRxDoorbell (e : Endpoint) (q : Fin 512) (pi : Fin 65536) (s : State) : Out := s.run fun d =>
  d.doorbell e (2 * q.val + 1) pi.val (d.fld (HST_QP_CI_rx_ci e.val q.val)) (2 ^ d.fld (HST_QP_CFG_rx_log e.val q.val))

/-- TX_DESCRIPTOR_TAKE (R291, R735): the endpoint takes the next descriptor in turn, where a front-end slot is free, back-pressure is clear
and the general pool of the task store holds a free entry. -/
def execTxDescriptorTake (e : Endpoint) (s : State) : Out := s.run fun d =>
  let r := endpointRegion e
  let busy := (d.ep e).txBusy.map (·.1)
  let work := (d.enabledPairs e 31).filter (fun q => !busy.contains q && d.txWork e q != 0)
  if !d.hostAdmits r || !d.hostSlot r || (d.g r).dispatch.pressed || decide (d.generalPool r ≤ (d.g r).dispatch.general) then d
  else match Dev.ringTurn (d.ep e).txTurn work with
    | some q => d.takeTx e q
    | none => d

/-- TX_DMA_COMPLETE (R163, R735): the packet read of a queue pair completes, or failed. -/
def execTxDmaComplete (e : Endpoint) (q : Fin 512) (failed : Bool) (time : Nat) (s : State) : Out := s.doing fun d =>
  match d.txJob e q.val with
  | none => .refused .noSuchUnit
  | some j => .next (d.endTx e q.val j failed time)

/-- RX_PACKET_DELIVER (R733, R736, R854): the packet at the head of a host queue is written into descriptors of its ring, or dropped where
its bytes are found poisoned. -/
def execRxPacketDeliver (e : Endpoint) (q : Fin 512) (s : State) : Out := s.doing fun d =>
  match d.rxQueue e q.val with
  | [] => .refused .noSuchUnit
  | x :: t =>
    let (b, bad) := d.chainBytes 512 x.record.head 0
    let b := b.take x.record.length
    if !x.ready || !d.on (HST_QP_CFG_rx_en e.val q.val) then .refused .noSuchUnit
    else if bad || x.record.poisoned then .next ((d.setRxQueue e q.val t).dropRx e 0x0E x)
    else match d.rxPlan e q.val (d.rxWork e q.val) (d.fld (HST_QP_CI_rx_ci e.val q.val)) b.length with
      | none => .refused .noSuchUnit
      | some plan => .next ((((d.setRxQueue e q.val t).rxWrite e q.val x true plan b).rxGiveBack e x).signalPair e q.val)

/-- Whether the descriptors of a receive ring hold a packet. -/
def Dev.rxHolds (d : Dev) (e : Endpoint) (q : Nat) (x : RxPkt) : Bool :=
  d.on (HST_QP_CFG_rx_en e.val q)
    && (d.rxPlan e q (d.rxWork e q) (d.fld (HST_QP_CI_rx_ci e.val q)) x.record.length).isSome

/-- RX_HOLD_EXPIRY (R736): a packet that waited rx_hold ticks at the head of its queue without a descriptor is dropped. -/
def execRxHoldExpiry (e : Endpoint) (q : Fin 512) (s : State) : Out := s.doing fun d =>
  let r := endpointRegion e
  match d.rxQueue e q.val with
  | [] => .refused .noSuchUnit
  | x :: t =>
    if Dev.ticksAhead (d.g r).tick x.since < d.fld (HST_QP_COAL_rx_hold e.val q.val) ∨ d.rxHolds e q.val x then .refused .noSuchUnit
    else .next (((d.setRxQueue e q.val t).dropRx e 0x0A x).raise r 0x3C5)

/-- UR_DOORBELL (R731, R738): the host posts an update ring producer index. -/
def execUrDoorbell (e : Endpoint) (ring : Fin 16) (pi : Fin 65536) (s : State) : Out := s.run fun d =>
  d.doorbell e (0x1000 + ring.val) pi.val (d.fld (HST_UR_CI_ci e.val ring.val)) (2 ^ d.fld (HST_UR_CFG_log e.val ring.val))

/-- UPDATE_RING_TAKE (R116, R333): the endpoint region takes one entry in turn, and stages it; outside the run modes nothing is staged
and no entry is taken. -/
def execUpdateRingTake (e : Endpoint) (time : Nat) (s : State) : Out := s.run fun d =>
  let work := (d.enabledRings e).filter (fun k =>
    d.urWork e k != 0 && !Sparse.get (fun _ => false) (d.ep e).urBlocked k)
  if !(d.g (endpointRegion e)).mode.isRun || d.fenced (endpointRegion e).val then d
  else match Dev.ringTurn (d.ep e).urTurn work with
    | some k => d.takeUpdate e k time
    | none => d

/-- MSIX_COALESCE_EXPIRY (R740): the coalescing time of a queue pair has passed since its first completion not yet signalled. -/
def execMsixCoalesceExpiry (e : Endpoint) (q : Fin 512) (s : State) : Out := s.doing fun d =>
  match (d.ep e).unsignalled.find? (·.1 == q.val) with
  | none => .refused .noSuchUnit
  | some x =>
    if Dev.ticksAhead (d.g (endpointRegion e)).tick x.2 < d.fld (HST_QP_COAL_coalesce e.val q.val) then .refused .noSuchUnit
    else .next ((d.modEp e (fun s => { s with unsignalled := Sparse.drop s.unsignalled q.val })).msix e
      (d.fld (HST_QP_CFG_vector e.val q.val)))

/-- ENDPOINT_RESET (R725, R746): FLR, hot reset or link-down of an endpoint. -/
def execEndpointReset (e : Endpoint) (linkDown : Bool) (s : State) : Out := s.run fun d =>
  let r := endpointRegion e
  let d := (d.resetEndpoint e).raise r 0x3C1
  if linkDown then
    ((d.setFld (HST_EP_STAT_gen e.val) 0).setFld (HST_EP_STAT_width e.val) 0).raise r 0x3C0
  else d

/-- ENDPOINT_LINK_UP (R724, R745, R746): the endpoint's link trains up at a rate and a width. -/
def execEndpointLinkUp (e : Endpoint) (gen width : Nat) (s : State) : Out := s.doing fun d =>
  if gen = 0 ∨ 6 < gen ∨ !([1, 2, 4, 8, 16].contains width) then .refused .noSuchUnit
  else .next (((d.setFld (HST_EP_STAT_gen e.val) gen).setFld (HST_EP_STAT_width e.val) width).raise (endpointRegion e) 0x3C0)

/-- PTS_INFO_READ (R717, R743): a read of RGN_PTS_INFO_p pops a timestamp. -/
def execPtsInfoRead (r : Region) (p : Port) (s : State) : Out := s.run fun d => (d.ptsRead r p.val).1

end Sys2Proof.Machine
end

