-- ==== Sys2Proof/Machine/Arbiter.lean ====
section
/-!
DEFINITION. The slots of a flit: the output arbiter that fills them from the messages that wait, and the receiver that puts the messages
together again (R650, R657–R661).
-/

namespace Sys2Proof.Machine

/-! ### Flit headers (R650) -/

/-- The fields of a flit header. -/
def flitType (h : Nat) : Nat := bitsOf h 127 124
def flitSeq (h : Nat) : Nat := bitsOf h 123 116
def flitAck (h : Nat) : Nat := bitsOf h 115 108
def flitAckValid (h : Nat) : Bool := bitOf h 107
def flitTag (h k : Nat) : Nat := bitsOf h (103 - 4 * k) (100 - 4 * k)
def flitCredit (h v : Nat) : Nat := bitsOf h (75 - 4 * v) (72 - 4 * v)

/-- The tags of a flit's seven slots. -/
def flitTags (h : Nat) : List Nat := (List.range 7).map (flitTag h)

/-- The slots of a flit that travel on virtual channel `v` (R650, R657). -/
def flitSlots (h v : Nat) : Nat := ((List.range 7).filter (fun k => flitTag h k % 8 == v)).length

/-- A link module's state right after training: nothing sent, nothing expected but flit 0, no credit held, and the first turn of the
output arbiter not yet begun. -/
def linkDefault : Nat → LinkState := fun _ =>
  { nextSeq := 0, unacked := [], expected := 0, nakSent := false, credits := [0, 0, 0, 0, 0, 0], owed := [0, 0, 0, 0, 0, 0],
    turn := 0, left := 0, partSent := [], inputs := [], partIn := [] }

/-! ### The output arbiter (R657–R660) -/

/-- The messages that wait at an output: by channel, by input, in order. A message is written as its number of continuation slots, and a
pool operation on RSP as 16. -/
abbrev Waiting := List (List (List Nat))

/-- The channels that the weighted round robin serves, with their weights in slots (R659); the order of the turns is a DESIGN CHOICE
(log 146). -/
def wrrWeights : List (Nat × Nat) := [(2, 8), (3, 4), (1, 4), (4, 1), (5, 1)]

/-- The credits of a channel that a slot may not use up: the last 16 of RSP are for pool operations (R658). -/
def creditFloor (v msg : Nat) : Nat := if v = 2 ∧ msg ≠ 16 then 16 else 0

/-- The messages that wait for a channel at each input. -/
def waitingAt (w : Waiting) (v : Nat) : List (List Nat) := w.getD v []

/-- The input of a channel that is served next (R659): the first after the one served last whose message may go. -/
def nextInput (x : LinkState) (w : Waiting) (v : Nat) : Option Nat :=
  let n := (waitingAt w v).length
  ((List.range n).map (fun i => (x.inputs.getD v 0 + 1 + i) % n)).find? (fun i =>
    match ((waitingAt w v).getD i []) with
    | m :: _ => decide (creditFloor v m < x.credits.getD v 0)
    | [] => false)

/-- Whether a channel has a slot ready and a credit for it: a message partly sent goes on, or one that waits may start (R659, R660). -/
def slotReady (x : LinkState) (w : Waiting) (v : Nat) : Bool :=
  if x.partSent.getD v 0 ≠ 0 then decide (creditFloor v 0 < x.credits.getD v 0) else (nextInput x w v).isSome

/-- The turn of the weighted round robin that is served next, with the slots that are left of it; a channel that is not ready is passed
over (R659). -/
def nextTurn (x : LinkState) (w : Waiting) : Option (Nat × Nat) :=
  let ready (t : Nat) : Bool := slotReady x w (wrrWeights.getD t (0, 0)).1
  if ready x.turn ∧ x.left ≠ 0 then some (x.turn, x.left)
  else (((List.range 5).map (fun i => (x.turn + 1 + i) % 5)).find? ready).map (fun t => (t, (wrrWeights.getD t (0, 0)).2))

/-- Replace the entry at `i` of a list by channel. -/
def putAt (l : List Nat) (i v : Nat) : List Nat := (List.range 6).map (fun k => if k = i then v else l.getD k 0)

/-- What the next slot of an output carries, on a channel that is ready: the slot's tag, the continuation slots of the message that
starts in it, if one does, and what is left to be sent. -/
def sendSlot (x : LinkState) (w : Waiting) (v : Nat) : Nat × Option Nat × LinkState × Waiting :=
  let x := { x with credits := putAt x.credits v (x.credits.getD v 0 - 1) }
  if x.partSent.getD v 0 ≠ 0 then (v, none, { x with partSent := putAt x.partSent v (x.partSent.getD v 0 - 1) }, w)
  else
    let i := (nextInput { x with credits := putAt x.credits v (x.credits.getD v 0 + 1) } w v).getD 0
    let msg := ((waitingAt w v).getD i []).headD 0
    (8 + v, some (msg % 16), { x with partSent := putAt x.partSent v (msg % 16), inputs := putAt x.inputs v i },
      w.set v ((waitingAt w v).set i (((waitingAt w v).getD i []).drop 1)))

/-- The next slot of an output (R659): CTL before every other channel, and the others by weighted round robin; none where nothing may
go. -/
def nextSlot (x : LinkState) (w : Waiting) : Option (Nat × Option Nat × LinkState × Waiting) :=
  if slotReady x w 0 then some (sendSlot x w 0)
  else (nextTurn x w).map (fun t => sendSlot { x with turn := t.1, left := t.2 - 1 } w (wrrWeights.getD t.1 (0, 0)).1)

/-- Fill `n` slots: their tags, the continuation slots of the messages that start in them, and the output's state after them. An empty
slot has tag 7 (R650). -/
def fillSlots : Nat → LinkState → Waiting → List Nat × List Nat × LinkState
  | 0, x, _ => ([], [], x)
  | n + 1, x, w => match nextSlot x w with
    | none => let r := fillSlots n x w; (7 :: r.1, r.2.1, r.2.2)
    | some (tag, c, x', w') => let r := fillSlots n x' w'; (tag :: r.1, c.toList ++ r.2.1, r.2.2)

/-! ### The receiver (R650, R657, R660, R661) -/

/-- Take the slots of a flit: `open'` are, by channel, the continuation slots still to come, and `conts` those of the messages that start
in the flit, in slot order. The answer is what is still to come, and whether every slot keeps the rules: a first slot of at most eight
continuation slots while no message of its channel is partly received, and a continuation slot only of one that is. -/
def takeSlotsIn : List Nat → List Nat → List Nat → List Nat × Bool
  | [], _, open' => (open', true)
  | t :: ts, conts, open' =>
    let v := t % 8
    if t = 7 then takeSlotsIn ts conts open'
    else if 6 ≤ v then ((takeSlotsIn ts conts open').1, false)
    else if 8 ≤ t then
      let c := conts.headD 0
      let r := takeSlotsIn ts (conts.drop 1) (putAt open' v c)
      (r.1, r.2 && open'.getD v 0 == 0 && decide (c ≤ 8))
    else
      let r := takeSlotsIn ts conts (putAt open' v (open'.getD v 0 - 1))
      (r.1, r.2 && open'.getD v 0 != 0)

/-! ### Message headers (R646, R661, R662) -/

/-- The fields of a message header. -/
def headType (h : Nat) : Nat := bitsOf h 63 58
def headCont (h : Nat) : Nat := bitsOf h 57 54
def headSrc (h : Nat) : Nat := bitsOf h 53 50
def headDst (h : Nat) : Nat := bitsOf h 49 46
def headSrcNode (h : Nat) : Nat := bitsOf h 45 38
def headDstNode (h : Nat) : Nat := bitsOf h 37 30
def headTag (h : Nat) : Nat := bitsOf h 29 18
def headInfo (h : Nat) : Nat := bitsOf h 15 0

/-- The channel of a message type that a link may carry (R662); a message of a region channel never leaves its region. -/
def typeChannel (t : Nat) : Option Nat :=
  if 0x01 ≤ t ∧ t ≤ 0x09 then some 0
  else if 0x10 ≤ t ∧ t ≤ 0x13 then some 1
  else if 0x20 ≤ t ∧ t ≤ 0x25 then some 2
  else if t = 0x30 ∨ t = 0x31 then some 3
  else if t = 0x38 ∨ t = 0x39 ∨ t = 0x3A ∨ t = 0x3C then some 4
  else if t = 0x3E ∨ t = 0x3F then some 5 else none

/-- Whether a message of a type may have `c` continuation slots beside `info` (R662). -/
def contOk (t c info : Nat) : Bool :=
  match t with
  | 0x04 | 0x3F => 1 ≤ c && c ≤ 3
  | 0x06 => c == 2
  | 0x11 => c == (info + 31) / 32
  | 0x20 | 0x23 => c ≤ 8 && (c == 0 || info == 0)
  | 0x3E => c ≤ 8
  | _ => c == 0

/-- Whether a message of a type may carry an info (R662, R664). -/
def infoOk (t info : Nat) : Bool :=
  match t with
  | 0x01 | 0x38 | 0x39 | 0x3C | 0x3E => true
  | 0x10 | 0x11 => 1 ≤ info && info ≤ 256
  | 0x12 => info == 1 || info == 2
  | 0x20 | 0x21 | 0x22 | 0x23 => info ≤ 7
  | 0x24 => 1 ≤ info && info ≤ 3
  | 0x25 => info ≤ 2
  | _ => info == 0

/-- The types that go to the neighbour across the link and name no region (R661). -/
def typeToNeighbour (t : Nat) : Bool := t == 0x01 || t == 0x02 || t == 0x03 || t == 0x06 || t == 0x08 || t == 0x09

/-- Whether a node number is one of a region's (R646, R661): a guest numbers its own, and is sent to at node 0x00. -/
def Dev.nodeOk (d : Dev) (sends : Bool) (q node : Nat) : Bool :=
  if d.guest q then (if sends then node < 0x20 else node == 0) else d.mladus q && nodeExists q node

/-- Whether the header of a message that region `r` receives on channel `v` keeps to the tables of R661 and R662. -/
def Dev.headOk (d : Dev) (r v h : Nat) : Bool :=
  let t := headType h
  typeChannel t == some v && contOk t (headCont h) (headInfo h) && infoOk t (headInfo h) && bitsOf h 17 16 == 0
    && (v == 1 || v == 2 || headTag h == 0) && d.nodeOk true (headSrc h) (headSrcNode h)
    && (if typeToNeighbour t then headDst h == 0xF && d.nodeOk false r (headDstNode h)
        else headDst h < 8 && d.nodeOk false (headDst h) (headDstNode h))

/-- Whether the headers of the messages that start in a flit keep to the tables, each on the channel of its slot. -/
def Dev.headsOk (d : Dev) (r : Nat) (tags heads : List Nat) : Bool :=
  let starts := tags.filter (fun t => 8 ≤ t && t % 8 < 6)
  starts.length == heads.length && (starts.zip heads).all (fun x => d.headOk r (x.1 % 8) x.2)

end Sys2Proof.Machine
end

