-- ==== Sys2Proof/Machine/Links.lean ====
section
/-!
DEFINITION. The die-to-die links of the fabric: their protocol, failure and repair, and their notices (R648–R660, R670–R672, R679–R682,
R689, R694–R700).
-/

namespace Sys2Proof.Machine

namespace Dev

/-! ### Link modules -/

/-- Set the state of a link module. -/
def setLinkState (d : Dev) (r m v : Nat) : Dev := d.setFld (RGN_CF_LINK_state r m) v

/-- The sibling of a module on its edge (R645). -/
def siblingModule (m : Nat) : Nat := if m % 2 = 0 then m + 1 else m - 1

/-- The protocol state of a link module. -/
def link (d : Dev) (r : Region) (m : Nat) : LinkState := Sparse.get linkDefault (d.g r).links m

/-- Change the protocol state of a link module. -/
def modLink (d : Dev) (r : Region) (m : Nat) (f : LinkState → LinkState) : Dev :=
  d.modR r (fun g => { g with links := Sparse.set linkDefault g.links m (f (Sparse.get linkDefault g.links m)) })

/-- The module of a region that carries the messages of an edge to a neighbour on the sibling chosen by parity (R670). -/
def carrier (d : Dev) (r q parity : Nat) : Option Nat :=
  let ms := (List.range 6).filter (fun m => match d.facing r m with
    | some (_, p) => p == q && d.linkState r m == 2
    | none => false)
  (ms.find? (· % 2 == parity % 2)).or ms.head?

/-- The parent module of a region: the one on which the route from the anchor arrives (R679). -/
def parentModule (d : Dev) (r : Nat) : Option Nat :=
  match d.route r d.A r with
  | some path => if r = d.A then none else d.carrier r ((d.A :: path).getD (path.length - 1) d.A) 0
  | none => none

/-- Bring RGN_SHUTTER_STAT.parent up to date. -/
def setParent (d : Dev) (r : Nat) : Dev :=
  match d.parentModule r with
  | some m => d.setFld (RGN_SHUTTER_STAT_parent r) m
  | none => d

/-- The edges in use, as a mask. -/
def edgeMask (d : Dev) : Nat := d.edgesInUse.foldl (fun a e => a + 2 ^ e) 0

/-- The routes that a region has in force as it starts: every edge in use is up, and every populated position is reachable (R644, R669). -/
def firstRoute (d : Dev) (r : Nat) : Dev :=
  let d := (d.setFld (RGN_CF_ROUTE_edges_up r) d.edgeMask).setFld (RGN_CF_ROUTE_reachable r) (d.fld (CHP_POPULATION_present d.A))
  (d.setFld (RGN_CF_ROUTE_mode r) (if d.fld (CHP_POPULATION_guest d.A) = 0 then 0 else 1)).setParent r

/-- The neighbours to which a region forwards a marker: those whose route from the anchor passes through it (R679). -/
def children (d : Dev) (r : Region) : List Region :=
  (List.finRange 8).filter (fun q => (edgeBetween r.val q.val).isSome && d.present q.val && q.val != d.A
    && (match d.route r.val d.A q.val with
        | some path => (d.A :: path).getD (path.length - 1) d.A == r.val
        | none => false))

/-- The first shutter that falls at least 1 µs after an instant `time` region clocks into the present tick (R671). -/
def noticeTick (d : Dev) (r : Region) (time : Nat) : Nat :=
  ((d.g r).tick + max 1 ((1000000 + time * 800 + d.periodPs - 1) / d.periodPs)) % 2 ^ 48

/-- Hold a LINK_STATE notice that came by link `via`, if it is new and its shutter has not come, and flood it (R671, R680). -/
def noteRoute (d : Dev) (r : Region) (via : Option (Fin 6)) (edges tick : Nat) : Dev :=
  if (d.g r).routeDue.contains (edges, tick) || !tickAfter tick (d.g r).tick || !d.mladus r.val then d
  else (d.modR r (fun g => { g with routeDue := g.routeDue ++ [(edges, tick)] })).flood r via (.linkState edges tick)

/-- Discard every message on the wire that a lost edge would carry: a request is answered with UNREACHABLE where it was to be sent, and
every other message is counted (R672). -/
def discardLost (d : Dev) : Dev :=
  let lost (f : Flight) : Bool := f.src != f.dst && (if f.msg.toNeighbour then !d.linked f.src f.dst else d.routeBroken f.src f.dst)
  let gone := d.wire.filter lost
  ({ d with wire := d.wire.filter (fun f => !lost f) }).each gone (fun f d => d.dropOnWay f)

/-- Move a lost module's unacknowledged flits to its sibling (R656). -/
def moveTraffic (d : Dev) (r : Region) (m : Nat) : Dev :=
  let s := siblingModule m
  let l := (d.link r m).unacked
  (d.modLink r s (fun x => { x with
    unacked := x.unacked ++ (List.range l.length).map (fun i => ((x.nextSeq + i) % 256, 1)),
    nextSeq := (x.nextSeq + l.length) % 256 })).modLink r m (fun x => { x with unacked := [], nextSeq := 0 })

/-- The flits that the modules of a lost edge keep unacknowledged are lost with it (R672). -/
def dropUnacked (d : Dev) (r : Region) (m : Nat) : Dev :=
  (d.modLink r m (fun x => { x with unacked := [] })).modLink r (siblingModule m) (fun x => { x with unacked := [] })

/-- The flits that a module still has to get across as it returns to UP: its own, and those of a sibling that has failed or is in REPAIR
(R656). -/
def leftOver (d : Dev) (r : Region) (m : Nat) : Nat :=
  let s := siblingModule m
  (d.link r m).unacked.length
    + if d.linkState r.val s = 3 ∨ d.linkState r.val s = 4 then (d.link r s).unacked.length else 0

/-- Start a trained module anew: it sends again, under new sequence numbers, the flits that no module has got across (R656, R658). -/
def restartLink (d : Dev) (r : Region) (m : Nat) : Dev :=
  let n := d.leftOver r m
  let s := siblingModule m
  let d := if d.linkState r.val s = 3 ∨ d.linkState r.val s = 4 then d.modLink r s (fun x => { x with unacked := [] }) else d
  d.modLink r m (fun _ => { linkDefault 0 with
    nextSeq := n % 256, unacked := (List.range n).map (fun i => (i % 256, 1)) })

/-- A module is failed (R654, R656, R671): its sibling takes over its traffic, or the edge is lost. -/
def failModule (d : Dev) (r : Region) (m time : Nat) : Dev :=
  match d.facing r.val m with
  | none => d
  | some (e, _) =>
    let d := ((d.setLinkState r.val m 4).err (RGN_CF_ERR_module_failed r.val) r 0x340).journal r 0x0308 (unitId 5 r.val m)
      (bytesLE 2 (d.fld (RGN_CF_LCNT_replays r.val m)))
    if d.linkState r.val (siblingModule m) = 2 then d.moveTraffic r m
    else if d.edgeLost r.val e ∧ bitOf (d.edgesUp r.val) e then
      let d := (d.err (RGN_CF_ERR_edge_down r.val) r 0x342).journalChip 0x0404 r.val 0 (bytesLE 1 e)
      ((d.dropUnacked r m).noteRoute r none (withBit (d.edgesUp r.val) e false) (d.noticeTick r time)).discardLost
    else d

/-- Take the acknowledgement and the credits that a flit carries (R650, R652, R653, R658). -/
def takeAck (d : Dev) (r : Region) (m h : Nat) : Dev :=
  let d := d.modLink r m (fun x =>
    let rest := if flitAckValid h ∧ x.unacked.any (·.1 == flitAck h) then
        (x.unacked.dropWhile (·.1 != flitAck h)).drop 1 else x.unacked
    { x with unacked := rest, credits := (List.range 6).map (fun v => x.credits.getD v 0 + flitCredit h v) })
  match d.facing r.val m with
  | some (_, p) =>
    if d.mladus p then d.modLink (R p) (facingModule m) (fun x => { x with
      owed := (List.range 6).map (fun v => x.owed.getD v 0 - flitCredit h v) }) else d
  | none => d

/-- The sender's side of a DATA flit (R653, R658–R660): a new flit carries the slots that the output arbiter chooses among the messages
that wait, enters the replay buffer and spends their credits; one that was sent before was sent once more. `none` where the sender could
not have sent it. -/
def sentFlit (d : Dev) (p : Region) (m h : Nat) (heads : List Nat) (w : Waiting) : Option Dev :=
  let x := d.link p m
  let seq := flitSeq h
  let f := fillSlots 7 x w
  if x.unacked.any (·.1 == seq) then some d
  else if seq ≠ x.nextSeq ∨ 64 ≤ x.unacked.length ∨ flitTags h ≠ f.1 ∨ heads.map headCont ≠ f.2.1 then none
  else some ((d.modLink p m (fun _ => { f.2.2 with
    unacked := x.unacked ++ [(seq, 1)], nextSeq := (seq + 1) % 256 })).event p 0x160 m)

/-- The receiver's side of a DATA flit in sequence (R652, R658, R660–R662): its slots come in; a slot that breaks the rules of slots, or a
message whose header breaks the tables, is a protocol error. -/
def tookFlit (d : Dev) (r : Region) (m h : Nat) (heads : List Nat) : Dev :=
  let s := takeSlotsIn (flitTags h) (heads.map headCont) (d.link r m).partIn
  let ok := s.2 && d.headsOk r.val (flitTags h) heads
  let d := d.modLink r m (fun x => { x with
    expected := (x.expected + 1) % 256, nakSent := false, partIn := s.1,
    owed := (List.range 6).map (fun v => x.owed.getD v 0 + flitSlots h v) })
  d.when (!ok) (·.protoErr r)

end Dev

/-- DATA_FLIT (R651–R653, R658–R662): a flit with the symbols in error of each codeword, the headers of the messages that start in it,
and the messages that wait at the sender's output; it is accepted in sequence, or discarded with a NAK. -/
def execDataFlit (r : Region) (m : Fin 6) (header : Nat) (errors heads : List Nat) (waiting : List (List (List Nat))) (s : State) : Out :=
  s.doing fun d =>
  match d.facing r.val m.val with
  | none => .refused .noSuchUnit
  | some (_, p) =>
    let sender := if d.mladus p then d.sentFlit (Dev.R p) (facingModule m.val) header heads waiting else some d
    match sender with
    | none => .refused .noSuchUnit
    | some d =>
      if flitType header ≠ 1 ∨ !d.takesFlits r.val m.val then .refused .noSuchUnit
      else
        let d := if errors.contains 1 then d.addSat (RGN_CF_LCNT_corrected r.val m.val) 1 else d
        if errors.any (2 ≤ ·) ∨ flitSeq header ≠ (d.link r m.val).expected then
          .next (d.modLink r m.val (fun x => { x with nakSent := true }))
        else .next ((d.tookFlit r m.val header heads).takeAck r m.val header)

/-- NAK (R652–R654): the sender replays the flits after the one that ack names; a flit sent eight times fails the module. -/
def execNak (r : Region) (m : Fin 6) (header time : Nat) (s : State) : Out := s.doing fun d =>
  if flitType header ≠ 2 ∨ !d.takesFlits r.val m.val then .refused .noSuchUnit
  else
    let d := d.takeAck r m.val header
    let n := (d.link r m.val).unacked.length
    let d := d.modLink r m.val (fun x => { x with unacked := x.unacked.map (fun f => (f.1, f.2 + 1)) })
    let d := if n = 0 then d else (d.addSat (RGN_CF_LCNT_replays r.val m.val) n).event r 0x161 m.val n
    .next (if (d.link r m.val).unacked.any (8 ≤ ·.2) then d.failModule r m.val time else d)

/-- The slots that a Mladus receiver advertises for each virtual channel (R658). -/
def mladusCredits : List Nat := [32, 96, 160, 96, 32, 32]

/-- INIT (R650, R658): after training, the peer advertises its credits; a Mladus peer those of the table. -/
def execInit (r : Region) (m : Fin 6) (header : Nat) (credits : List Nat) (s : State) : Out := s.doing fun d =>
  let toMladus := ((d.facing r.val m.val).map (fun x => d.mladus x.2)).getD false
  if flitType header ≠ 3 ∨ credits.length ≠ 6 ∨ !d.takesFlits r.val m.val ∨ (toMladus ∧ credits ≠ mladusCredits) then .refused .noSuchUnit
  else .next (d.modLink r m.val (fun x => { x with credits }))

/-- IDLE (R652): a flit that carries only ack and credit. -/
def execIdle (r : Region) (m : Fin 6) (header : Nat) (s : State) : Out := s.doing fun d =>
  if flitType header ≠ 0 ∨ !d.takesFlits r.val m.val then .refused .noSuchUnit
  else .next (d.takeAck r m.val header)

/-- MODULE_FAILED (R654, R656, R671): a module is declared failed. -/
def execModuleFailed (r : Region) (m : Fin 6) (time : Nat) (s : State) : Out := s.doing fun d =>
  if d.facing r.val m.val = none then .refused .noSuchUnit else .next (d.failModule r m.val time)

/-- LANE_REPAIR (R655, R656): a module with excess corrected symbols goes into REPAIR with one more spare, or fails for want of one. -/
def execLaneRepair (r : Region) (m : Fin 6) (time : Nat) (s : State) : Out := s.doing fun d =>
  if d.linkState r.val m.val ≠ 2 then .refused .noSuchUnit
  else
    let k := d.fld (RGN_CF_LINK_spares_used r.val m.val)
    if 4 ≤ k then .next (d.failModule r m.val time)
    else
      let d := (d.setFld (RGN_CF_LINK_spares_used r.val m.val) (k + 1)).setLinkState r.val m.val 3
      .next (if d.linkState r.val (Dev.siblingModule m.val) = 2 then d.moveTraffic r m.val else d)

/-- LINK_TRAINING_DONE (R655, R656, R671, R681, R689): a module leaves TRAINING or REPAIR for UP, or HELD towards a guest not yet admitted;
it sends again what was not acknowledged, an echo measures the delay of one that is UP, and a lost edge returns. -/
def execLinkTrainingDone (r : Region) (m : Fin 6) (spares time : Nat) (s : State) : Out := s.doing fun d =>
  match d.facing r.val m.val with
  | none => .refused .noSuchUnit
  | some (e, p) =>
    let was := d.linkState r.val m.val
    if was ≠ 1 ∧ was ≠ 3 then .refused .noSuchUnit
    else if 4 < spares then .next (d.failModule r m.val time)
    else
      let held := d.guest p && !d.on (RGN_CF_LINK_admit r.val m.val)
      let d := ((d.setLinkState r.val m.val (if held then 5 else 2)).setFld (RGN_CF_LINK_spares_used r.val m.val) spares).restartLink r
        m.val
      let d := if was = 3 then (d.raise r 0x341).journal r 0x0309 (unitId 5 r.val m.val) (bytesLE 1 spares) else d
      let d := (if held then d else d.send r.val p (.echoReq (d.freeNat 0))).setParent r.val
      .next (if bitOf (d.edgesUp r.val) e then d else d.noteRoute r none (withBit (d.edgesUp r.val) e true) (d.noticeTick r time))

/-- LINK_STATE (R671, R680): a notice of an edge lost or returned, which came by link `via`, is held for its shutter and flooded. -/
def execLinkState (r : Region) (via : Option (Fin 6)) (edges tick : Nat) (s : State) : Out := s.run fun d =>
  (d.receive (d.cameFrom r via) r.val (.linkState edges tick)).noteRoute r via edges tick

/-- ECHO_REQ (R681): a link module answers at once with its turnaround. -/
def execEchoReq (r : Region) (m : Fin 6) (time turn : Nat) (s : State) : Out := s.doing fun d =>
  match d.facing r.val m.val with
  | none => .refused .noSuchUnit
  | some (_, p) => .next ((d.receive p r.val (.echoReq time)).send r.val p (.echoRsp time turn))

/-- ECHO_RSP (R681, R695): half of the round trip less the turnaround is the link's one-way delay. -/
def execEchoRsp (r : Region) (m : Fin 6) (time turn now : Nat) (s : State) : Out := s.doing fun d =>
  match d.facing r.val m.val with
  | none => .refused .noSuchUnit
  | some (_, p) => .next ((d.receive p r.val (.echoRsp time turn)).setFld (RGN_CF_DELAY_delay r.val m.val) ((now - time - turn) / 2))

namespace Dev

/-- A write of req_up (R694, R779, R781): it takes effect at the next shutter; a module that faces no position ignores it. -/
def reqUpWrite (d : Dev) (r : Region) (m : Nat) (up : Bool) : Dev :=
  if d.facing r.val m = none then d
  else
    let d := d.setFld (RGN_CF_LINK_req_up r.val m) (if up then 1 else 0)
    d.noteRequest r 5 m

/-- A write of admit (R689, R694): ignored where the module faces no guest. -/
def admitWrite (d : Dev) (r : Region) (m : Nat) (allow : Bool) : Dev :=
  match d.facing r.val m with
  | none => d
  | some (_, p) =>
    if !d.guest p then d
    else
      let d := d.setFld (RGN_CF_LINK_admit r.val m) (if allow then 1 else 0)
      match allow, d.linkState r.val m with
      | true, 5 => d.setLinkState r.val m 2
      | false, 2 => d.setLinkState r.val m 5
      | _, _ => d

end Dev

/-- LINK_REQ_UP (R694): a write of req_up. -/
def execLinkReqUp (r : Region) (m : Fin 6) (up : Bool) (s : State) : Out := s.run fun d => d.reqUpWrite r m.val up

/-- LINK_ADMIT (R689, R694): a write of admit. -/
def execLinkAdmit (r : Region) (m : Fin 6) (allow : Bool) (s : State) : Out := s.run fun d => d.admitWrite r m.val allow

end Sys2Proof.Machine
end

