-- ==== Sys2Proof/Machine/Intr.lean ====
section
/-!
DEFINITION. The interrupt controller's writes and claims (R786–R800), snapshots (R806, R807), register pairs (R24), the dispatcher
flags (R499), and the messages IRQ and ERR_REPORT (R662, R699, R796, R797).
-/

namespace Sys2Proof.Machine

/-- The numbers of the bits of a word that are 1, in rising order. -/
def setBits (w : Nat) : List Nat := (List.range 32).filter (fun i => bitOf w i)

namespace Dev

/-! ### Set and clear registers (R791) -/

/-- Enable sources of word `w`; an enabled source with a count is delivered. -/
def irqEnable (d : Dev) (r : Region) (w v : Nat) : Dev :=
  let d := d.setReg (RGN_IRQ_EN r.val w) (BitVec.ofNat 32 ((d.reg (RGN_IRQ_EN r.val w)).toNat ||| v))
  d.each (setBits v) (fun i d => d.deliver r (w * 32 + i))

/-- Disable sources of word `w`. -/
def irqDisable (d : Dev) (r : Region) (w v : Nat) : Dev :=
  d.setReg (RGN_IRQ_EN r.val w) (d.reg (RGN_IRQ_EN r.val w) &&& ~~~(BitVec.ofNat 32 v))

/-- Add one arrival to each named source of word `w`. -/
def irqPend (d : Dev) (r : Region) (w v : Nat) : Dev := d.each (setBits v) (fun i d => d.raise r (w * 32 + i))

/-- Make the counts of the named sources of word `w` zero. -/
def irqUnpend (d : Dev) (r : Region) (w v : Nat) : Dev := d.each (setBits v) (fun i d => d.clr (RGN_IRQ_SRC_count r.val (w * 32 + i)))

/-- Set cfg_rejected of the interrupt controller (R792, R803). -/
def irqCfgRejected (d : Dev) (r : Region) : Dev := d.err (RGN_IRQ_ERR_cfg_rejected r.val) r 0x72

/-- Whether a write of a source names a target region and a target byte that are defined (R792). -/
def regionOk (d : Dev) (v : Nat) : Bool := bitsOf v 19 16 == 0xF || (bitsOf v 19 16 < 8 && d.mladus (bitsOf v 19 16))
def targetOk (v : Nat) : Bool := bitsOf v 15 8 ≤ 0x83

/-- A write of a source's target region, target byte and priority (R792, R800): an undefined target byte, and a region that is
unpopulated, a guest or undefined, are rejected field by field; the source's count then follows its target. -/
def retarget (d : Dev) (r : Region) (n v : Nat) : Dev :=
  let okR := d.regionOk v
  let okT := targetOk v
  let d := d.setFld (RGN_IRQ_SRC_prio r.val n) (bitsOf v 3 0)
  let d := if okR then d.setFld (RGN_IRQ_SRC_region r.val n) (bitsOf v 19 16) else d
  let d := if okT then d.setFld (RGN_IRQ_SRC_target r.val n) (bitsOf v 15 8) else d
  (if okR && okT then d else d.irqCfgRejected r).deliver r n

/-! ### IRQ messages (R795–R797) -/

/-- Arrivals for a local target come into the inbox: they join the entry of their source and target, or take a new one of the 64. -/
def inboxTake (d : Dev) (r : Region) (source count target : Nat) : Dev :=
  let box := (d.g r).inbox
  let same := fun (e : InboxEntry) => e.source == source && e.target == target
  if box.any same || box.length < 64 then
    let box := if box.any same then box.map (fun e => if same e then { e with count := min 255 (e.count + count) } else e)
      else box ++ [⟨source, count, target⟩]
    let d := (d.modR r (fun g => { g with inbox := box })).setFld (RGN_IRQ_INBOX_depth r.val) box.length
    let t := d.effTarget r.val target
    if t < 0x80 then d.wake (cellNo r.val (t / 8) (t % 8) * 32 + 16) else d
  else (d.addSat (RGN_IRQ_INBOX_lost r.val) count).err (RGN_IRQ_ERR_inbox_full r.val) r 0x71

/-- Arrivals for a host: the vector of the global source at this region's endpoint (R797). -/
def hostVector (d : Dev) (r : Region) (e : Endpoint) (source count : Nat) : Dev :=
  if d.on (RGN_IRQ_HVEC_valid r.val source) then
    (d.addSat (RGN_IRQ_HVEC_arrivals r.val source) count).msix e (d.fld (RGN_IRQ_HVEC_vector r.val source))
  else d.err (RGN_IRQ_ERR_hvec_missing r.val) r 0x73

/-! ### Snapshots -/

/-- Whether a tick lies two or more after the one that is current, as a tick that a snapshot, a load of PTP time or a mode change names
must (R806, R711, R837). -/
def snapAhead (at' now : Nat) : Bool := tickAfter at' now && decide (2 ≤ ticksAhead at' now)

/-- Arm a snapshot at the shutter that CHP_MON_SNAP_AT names (R806). -/
def snapArm (d : Dev) (at' : Nat) : Dev × Bool :=
  if snapAhead at' d.tick then
    ((d.modA (fun x => { x with snapAt := some at' })).setOn (CHP_MON_SNAP_STAT_pending d.A), true)
  else (d.setOn (CHP_MON_ERR_snap_rejected d.A), false)

/-- Withdraw the pending snapshot (R806). -/
def snapCancel (d : Dev) : Dev := (d.modA (fun x => { x with snapAt := none })).clr (CHP_MON_SNAP_STAT_pending d.A)

/-- The tick that CHP_MON_SNAP_AT names. -/
def snapNamed (d : Dev) : Nat := d.pair (CHP_MON_SNAP_AT_LO d.A) (CHP_MON_SNAP_AT_HI d.A) % 2 ^ 48

/-! ### Register pairs (R24) -/

/-- The buffer of a pair, by the address of its lower register. -/
def pairBuf (d : Dev) (lo : Nat) : PairBuf := Sparse.get (fun _ => ⟨none, none⟩) d.pairs lo

/-- Change the buffer of a pair. -/
def modPair (d : Dev) (lo : Nat) (f : PairBuf → PairBuf) : Dev :=
  { d with pairs := Sparse.set (fun _ => ⟨none, none⟩) d.pairs lo (f (d.pairBuf lo)) }

/-- Load a pair's holding register. -/
def holdUpper (d : Dev) (lo : Nat) (w : Word) : Dev := d.modPair lo (fun b => { b with hold := some w })

/-- What a read of a pair's upper register returns: its holding register, or the live upper half where nothing was held since reset. -/
def upperRead (d : Dev) (lo : Nat) (live : Word) : Word := ((d.pairBuf lo).hold).getD live

/-- A read of RGN_TBL_BADLINE snapshots RGN_TBL_BADTABLE (R349). -/
def badlineRead (d : Dev) (r : Region) : Dev × Word :=
  (d.holdUpper (RGN_TBL_BADLINE r.val) (d.reg (RGN_TBL_BADTABLE r.val)), d.reg (RGN_TBL_BADLINE r.val))

/-! ### Dispatcher flags (R499) -/

/-- Set the dispatcher flags, which three registers show (R513). -/
def setFlags (d : Dev) (r : Region) (w : Word) : Dev :=
  ((d.setReg (RGN_DSP_FLAGS r.val) w).setReg (RGN_DSP_FLAGS_SET r.val) w).setReg (RGN_DSP_FLAGS_CLR r.val) w

end Dev

/-! ### Commands -/

/-- IRQ_EN_SET (R791). -/
def execIrqEnSet (r : Region) (w : Fin 32) (value : Word) (s : State) : Out := s.run fun d => d.irqEnable r w.val value.toNat

/-- IRQ_EN_CLR (R791). -/
def execIrqEnClr (r : Region) (w : Fin 32) (value : Word) (s : State) : Out := s.run fun d => d.irqDisable r w.val value.toNat

/-- IRQ_PEND_SET (R787, R791). -/
def execIrqPendSet (r : Region) (w : Fin 32) (value : Word) (s : State) : Out := s.run fun d => d.irqPend r w.val value.toNat

/-- IRQ_PEND_CLR (R791). -/
def execIrqPendClr (r : Region) (w : Fin 32) (value : Word) (s : State) : Out := s.run fun d => d.irqUnpend r w.val value.toNat

/-- IRQ_CLAIM_MP (R798). -/
def execIrqClaimMp (r : Region) (s : State) : Out := s.run fun d => (d.claim r 0x80).1

/-- IRQ_RETARGET (R792, R800). -/
def execIrqRetarget (r : Region) (n : Fin 1024) (value : Word) (s : State) : Out := s.run fun d => d.retarget r n.val value.toNat

/-- IRQ (R796, R797, R812): a count of zero, and a target byte that the region cannot have, are discarded as protocol errors. -/
def execIrq (r src : Region) (source count target : Nat) (s : State) : Out :=
  s.deliverAll src.val r.val (.irq source count target) fun d =>
  if count = 0 ∨ 255 < count ∨ 8192 ≤ source then d.protoErr r
  else if target ≤ 0x80 then d.inboxTake r source count target
  else match regionEndpoint r.val with
    | some e => if target = (if r.val = 0 then 0x82 else 0x83) then d.hostVector r e source count else d.protoErr r
    | none => d.protoErr r

/-- MON_SNAP_ARM (R806). -/
def execMonSnapArm (s : State) : Out := s.run fun d => (d.snapArm d.snapNamed).1

/-- MON_SNAP_CANCEL (R806). -/
def execMonSnapCancel (s : State) : Out := s.run fun d => d.snapCancel

/-- SNAPSHOT_REPORT (R807): the anchor notes the region and the tick; after the last populated Mladus region the snapshot is done. -/
def execSnapshotReport (src : Region) (tick : Nat) (s : State) : Out :=
  s.deliverAll src.val s.dev.A (.snapshot tick) fun d =>
  let a := d.A
  if (d.anchorSt.snapWaits).contains src.val then
    let d := d.modA (fun x => { x with snapWaits := x.snapWaits.erase src.val })
    let d := d.setFld (CHP_MON_SNAP_STAT_taken a) (withBit (d.fld (CHP_MON_SNAP_STAT_taken a)) src.val true)
    let d := d.setPair (CHP_MON_SNAP_TICK_LO a) (CHP_MON_SNAP_TICK_HI a) (tick % 2 ^ 48)
    d.when (d.mladusRegions.all (fun q => bitOf (d.fld (CHP_MON_SNAP_STAT_taken a)) q.val)) (fun d => d.raise d.anchor 0x77)
  else d

/-- TBL_BADLINE_READ (R349). -/
def execTblBadlineRead (r : Region) (s : State) : Out := s.run fun d => (d.badlineRead r).1

/-- DSP_FLAGS_SET (R499). -/
def execDspFlagsSet (r : Region) (value : Word) (s : State) : Out := s.run fun d =>
  d.setFlags r (d.reg (RGN_DSP_FLAGS r.val) ||| value)

/-- DSP_FLAGS_CLR (R499). -/
def execDspFlagsClr (r : Region) (value : Word) (s : State) : Out := s.run fun d =>
  d.setFlags r (d.reg (RGN_DSP_FLAGS r.val) &&& ~~~value)

/-- ERR_REPORT (R684, R699): a guest reports an error; the region that receives it records it, raises CF_GUEST_ERR and journals it. -/
def execErrReport (r src : Region) (code : Nat) (detail : List Byte) (s : State) : Out :=
  s.deliverAll src.val r.val (.errReport code detail) fun d =>
  if !d.guest src.val then d.protoErr r
  else
    let d := (d.setFld (RGN_CF_GERR_region r.val) src.val).setFld (RGN_CF_GERR_code r.val) code
    (d.err (RGN_CF_ERR_guest_err r.val) r 0x348).journal r 0x030B (unitId 4 src.val 0) (bytesLE 1 code ++ detail)

end Sys2Proof.Machine
end

