-- ==== Sys2Proof/Machine/Resets.lean ====
section
/-!
DEFINITION. The resets of the part and of a region (R40, R63, R828–R830), power-on and SYS_RST_N (R884, R887, R894), with what survives each.
-/

namespace Sys2Proof.Machine

/-- The first key of the fault journals and the key after their last: MRAM (R874). -/
def mramFirst : Nat := 2 ^ 72
def mramLast : Nat := 2 ^ 72 + 2 ^ 23

/-- Whether a key of memory names a byte of host memory or of the MRAM journals, which no reset touches. -/
def outsideReset (k : Nat) : Bool := (2 ^ 64 ≤ k && k < 3 * 2 ^ 64) || (mramFirst ≤ k && k < mramLast)

/-- Whether a key of memory names a byte of some region's HBM. -/
def inHbm (k : Nat) : Bool := k < 2 ^ 47 && k % 2 ^ 44 < 0x00540000000

/-- Chip registers that a power-on reset keeps as they are: fused fields, the life-cycle state and the owner key (R830). -/
def fusedChip (off : Nat) : Bool :=
  off == 0 || off == 4 || off == 0x40000 || (0x40010 ≤ off && off < 0x40040)

/-- Whether a register keeps its word across a power-on reset (R830). -/
def fused (a : Nat) : Bool :=
  match locOf a with
  | .chip _ off => fusedChip off
  | .region _ off => off == 0xD00010
  | .block _ _ off => off == 0x2018 || off == 0x201C
  | _ => false

/-- Whether a register keeps its word across a cold or warm reset whatever its fields: CHP_STRAPS (R69, R830). -/
def strapReg (a : Nat) : Bool :=
  match locOf a with
  | .chip _ off => off == 8
  | _ => false

namespace Dev

/-- Every region's copy of a chip register, in region order: an update of fused or latched state reaches each (R814). -/
def eachChip (d : Dev) (f : Nat → Dev → Dev) : Dev := d.each (List.range 8) f

/-- Take the generation updates that are under way into the mirrors they are bound for (R454). -/
def settleMirrors (d : Dev) : Dev :=
  d.each d.wire (fun f d => match f.msg with
    | .genUpdate id => d.setMirror (R f.dst) id
    | _ => d)

/-- The registers after a reset of the part (R28, R830). -/
def resetAllRegs (d : Dev) (powerOn : Bool) : Dev :=
  if powerOn then { d with regs := d.regs.filter (fun e => fused e.1) } else d.resetRegs (fun a => !strapReg a)

/-- The memory after a reset of the part (R830): every memory reads as zero with valid check symbols; a warm reset keeps the HBM. -/
def resetMemory (d : Dev) (warm : Bool) : Dev :=
  { d with mem := d.mem.filter (fun c => outsideReset c.1 || (warm && inHbm c.1)),
           poison := d.poison.filter (fun e => warm && inHbm (e.1 * 32)) }

/-- The contexts after a reset of the part: at reset, with their generations, which the part's reset raises by one (R408, R830). -/
def resetContexts (d : Dev) (powerOn : Bool) : Dev :=
  if powerOn then { d with ctxs := [], genBase := 0 }
  else { d with
    ctxs := d.ctxs.filterMap (fun e => if e.2.generation = 0 then none else some (e.1, { ctxDefault e.1 with generation := e.2.generation })),
    genBase := d.genBase + 1 }

/-- Everything but the registers, the memories and the contexts after a reset of the part: each region's own state is `rgn`, and the part
is in the phase that the end of the reset waits for. -/
def blank (d : Dev) (rgn : Vector Rgn 8) (cause phase : Nat) : Dev :=
  { d with
    pairs := [], wire := [], rgn, cells := [], blockCh := [], regionCh := [], chSpent := [], packets := [], anchorSt := .reset,
    endpoints := Vector.replicate 2 .reset, thody := ⟨[], 1, none, 0⟩,
    chip := { d.chip with phase, cause, warnHigh := false, critHigh := false } }

/-- The regions' own state after a reset of the part (R830, R874). -/
def resetRegions (d : Dev) (powerOn : Bool) : Vector Rgn 8 :=
  d.rgn.map (fun g =>
    { Rgn.reset (if powerOn then 0 else g.mpGeneration) { g.journal with written := 0, dropped := 0 } with
      mirror := if powerOn then [] else g.mirror })

/-- A reset of the part (R828–R830): its cause is 1 power-on, 2 SYS_RST_N, 3 cold by register, 4 warm, 5 tamper or 6 life cycle, and
`phase` says what its end waits for. The part lands in LOAD with the loader in RESET. -/
def partReset (d : Dev) (cause phase : Nat) : Dev :=
  let powerOn := cause == 1
  let warm := cause == 4
  let running := (List.finRange 8).filter (fun r => d.hbmState r.val != 0 && d.hbmState r.val != 7)
  let failed := (List.finRange 8).filter (fun r => d.stackFailed r.val)
  let d := d.settleMirrors
  let d := (((d.resetContexts powerOn).resetAllRegs powerOn).resetMemory warm).blank (d.resetRegions powerOn) cause phase
  if warm then
    (d.each running (fun r d => d.setFld (RGN_HBM_STAT_state r.val) 4)).each failed (fun r d => d.setFld (RGN_HBM_STAT_state r.val) 7)
  else d

/-! ### The reset of a region (R828, R830, R859) -/

/-- Whether a register lies in a region, its blocks or its cells; the chip registers belong to the part. -/
def regOf (r a : Nat) : Bool :=
  match locOf a with
  | .region q _ => q == r
  | .block q _ _ => q == r
  | .csr c _ => c / 128 == r
  | _ => false

/-- Whether a message in flight is one of a region's channels, or a credit of one (R437, R446). -/
def ofChannels (r : Nat) (f : Flight) : Bool :=
  f.dst == r && match f.msg with
    | .chMsg _ _ _ | .chCredit _ _ => true
    | _ => false

/-- What lies on the way in a region goes with its reset: its packets and the messages of its channels, those closed but not yet visible
among them (R446). -/
def dropTraffic (d : Dev) (r : Region) : Dev :=
  { d with
    wire := d.wire.filter (fun f => !ofChannels r.val f),
    packets := d.packets.filter (fun e => (e.2.map Packet.region) != some r.val),
    blockCh := d.blockCh.filter (fun e => e.1 / 1024 != r.val), regionCh := d.regionCh.filter (fun e => e.1 / 256 != r.val),
    chSpent := d.chSpent.filter (fun e => e.1 / 4096 != r.val) }

/-- A region's own state after its reset: the tick count with its timer and the anchor that it follows, the mode and the mirrors of
generations stand. -/
def resetRegion (g : Rgn) : Rgn :=
  { Rgn.reset ((g.mpGeneration + 1) % 128) g.journal with
    tick := g.tick, mode := g.mode, drainedFrom := g.drainedFrom, mirror := g.mirror, wipes := g.wipes,
    commit := { CommitState.reset with
      lastMode := g.commit.lastMode, started := g.commit.started, anchorSeen := g.commit.anchorSeen, timer := g.commit.timer } }

/-- The cells, the registers, the pads and the traffic of a region at its reset; its secure partitions are wiped. -/
def clearRegion (d : Dev) (r : Region) : Dev :=
  let d := d.each (List.range 16) (fun b d => d.wipe r b 5)
  let d := d.each (List.range 128) (fun c d => d.resetCell (r.val * 128 + c))
  let d := (d.resetRegs (regOf r.val)).resetPairs (regOf r.val)
  ((d.zero (r.val * 2 ^ 44 + 0x00540000000) (2 ^ 44 - 0x00540000000)).dropTraffic r).modR r resetRegion

/-- The reset of a Mladus region: its registers, cells, pools, queues, tables, panes and memories; HBM keeps its contents in self-refresh,
and its secure partitions are wiped. The tick count and the effective mode stand. -/
def regionReset (d : Dev) (r : Region) : Dev :=
  let hbm := d.hbmState r.val
  let d := d.clearRegion r
  let d := d.announce r (d.whoHolder (.mp r.val))
  let d := d.each (List.range 16) (fun b d => (d.setOn (BLK_SEC_STAT_wiping r.val b)).setFld (BLK_SEC_STAT_cause r.val b) 5)
  d.setFld (RGN_HBM_STAT_state r.val) (if hbm = 7 then 7 else if hbm = 0 then 0 else 4)

/-- A write of CHP_RST_CTL (R828, R829, R845): a wrong key is ignored and sets rst_key_err; cold wins over warm. -/
def rstCtl (d : Dev) (key : Nat) (cold warm : Bool) : Dev :=
  if key = 0xA2 then
    if cold then d.partReset 3 2 else if warm then d.partReset 4 2 else d
  else d.setOn (CHP_MODE_ERR_rst_key_err d.A)

end Dev

/-! ### The forms of the part (R4, R5, R9, R67, R68) -/

/-- The ordering codes. -/
inductive Form where
  | a2_8d | a2_4d | a2_2d | a2_6d2g
deriving DecidableEq, Repr

/-- The fused code, the populated positions, those that hold a guest and those with a stack, as masks: the code of CHP_ID.form and the
fields of CHP_POPULATION. -/
def Form.population : Form → Nat × Nat × Nat × Nat
  | .a2_8d => (1, 0xFF, 0, 0xFF)
  | .a2_4d => (2, 0x33, 0, 0x33)
  | .a2_2d => (3, 0x11, 0, 0x11)
  | .a2_6d2g => (4, 0xFF, 0x88, 0x77)

/-- The part of a form right after power-on: every region holds the fused words. -/
def Dev.ofForm (f : Form) : Dev :=
  let (code, present, guest, hbm) := f.population
  Dev.reset.each (List.range 8) (fun r d =>
    ((((d.setFld (CHP_ID_form r) code).setFld (CHP_POPULATION_present r) present).setFld (CHP_POPULATION_guest r) guest).setFld
      (CHP_POPULATION_hbm r) hbm).setFld (CHP_COMMIT_MEMBERS_committing r) (present &&& (0xFF - guest)))

/-- The machine of a form right after reset; State.reset is the A2-8D's. -/
def State.ofForm (f : Form) : State := ⟨Dev.ofForm f, []⟩

/-! ### Commands -/

/-- POWER_ON_RESET (R828, R887, R904): VIN has stayed in its range, the regulators sequence, and the part resets. A rail that fails to
reach regulation stops the sequence: the rails before it are good, and the part stays in reset until VIN has been removed. -/
def execPowerOnReset (rail : Option (Fin 10)) (s : State) : Out := s.run fun d =>
  let good := match rail with | some k => 2 ^ k.val - 1 | none => 0x3FF
  (d.partReset 1 (if rail.isSome then 3 else 2)).eachChip (fun r d => d.setFld (CHP_RAIL_STAT_good r) good)

/-- VIN_BROWNOUT (R884): a power-on reset, which lasts until VIN returns and the regulators sequence again. -/
def execVinBrownout (s : State) : Out := s.run fun d => d.partReset 1 3

/-- SYS_RST_N (R828, R894): its assertion causes a cold reset, held while the signal is. -/
def execSysRstN (s : State) : Out := s.run fun d =>
  if d.chip.cause = 1 ∧ d.chip.phase ≠ 0 then d else d.partReset 2 1

/-- SYS_RST_N_RELEASE (R828): the 5 ms interval begins. -/
def execSysRstNRelease (s : State) : Out := s.doing fun d =>
  if d.chip.phase = 1 then .next { d with chip := { d.chip with phase := 2 } } else .refused .noSuchUnit

/-- RST_CTL_COLD (R828, R845). -/
def execRstCtlCold (key : Fin 256) (s : State) : Out := s.run fun d => d.rstCtl key.val true false

/-- RST_CTL_WARM (R828, R845). -/
def execRstCtlWarm (key : Fin 256) (s : State) : Out := s.run fun d => d.rstCtl key.val false true

end Sys2Proof.Machine
end

