-- ==== Sys2Proof/Machine/Modes.lean ====
section
/-!
DEFINITION. Requests of mode changes (R836–R843), the tick period (R83), PTP time (R86–R89, R711–R714), park (R833), the cell clock
(R844), compatibility (R64) and a port's configuration (R704, R709, R710).
-/

namespace Sys2Proof.Machine

/-- The changes of mode that R836 admits; LOAD is left by the handover alone. -/
def modeMay : Mode → Mode → Bool
  | .configure, t => t == .strict || t == .extended || t == .regional || t == .lean || t == .test
  | .strict, t => t == .drain || t == .lean
  | .extended, t | .regional, t => t == .drain
  | .lean, t => t == .drain || t == .strict
  | .drain, t => t == .configure || t == .strict || t == .extended || t == .regional || t == .lean || t == .test
  | .test, t => t == .configure
  | .load, _ => false

namespace Dev

/-! ### Mode changes -/

/-- The Mladus regions that are not fenced: those that hold a replica in force. -/
def standing (d : Dev) : List Region := d.mladusRegions.filter (fun r => !d.fenced r.val)

/-- The code of the ACTIVE pane in a region. -/
def activeCode (d : Dev) (r : Nat) : Word := if d.fld (RGN_PANE_STAT_active r) = 0 then d.reg (RGN_PANE_CODE0 r) else d.reg (RGN_PANE_CODE1 r)

/-- Whether block `b` serves ready queue `q` (R496, R516). -/
def blockServes (d : Dev) (r b q : Nat) : Bool :=
  d.on (RGN_DSP_BMODE_serve_en r b) && bitOf (d.fld (RGN_DSP_BSERVE_serve r b (q / 32))) (q % 32)

/-- An enabled ready queue that only blocks at or above `awake` would serve (R838). -/
def strandedQueue (d : Dev) (r awake : Nat) : Option Nat :=
  (List.range 256).find? (fun q => d.on (RGN_DSP_QCFG_enable r q)
    && (List.range 16).any (fun b => awake ≤ b && d.blockServes r b q) && !(List.range awake).any (fun b => d.blockServes r b q))

/-- The order profiles of a region's order domains, by rising number (R61, R168, R169, R202): those that RGN_OD_MAP gives its sources, and
those that an applied action set of the ACTIVE pane names. -/
def profilesInUse (d : Dev) (r : Region) : List Nat :=
  let pane := d.fld (RGN_PANE_STAT_active r.val)
  let mapped := (List.range (if r.val = 0 ∨ r.val = 4 then 72 else 64)).map (fun n => d.fld (RGN_OD_MAP_profile r.val n))
  let acts := ((d.clsEnabled r.val pane).flatMap (d.setsOf r.val pane)).flatMap (fun k => (List.range 8).map (d.action r.val pane k))
  let named := acts.filterMap (fun a => if bitsOf a 63 56 = 0x0F then some (bitsOf a 5 0) else none)
  (List.range 64).filter (fun p => mapped.contains p || named.contains p)

/-- A condition that some standing region fails, with what the lowest of them reports. -/
def failing (d : Dev) (f : Nat → Option Nat) : Option Nat := d.standing.findSome? (fun r => (f r.val).map (fun x => r.val * 256 + x))

/-- The reject cause and detail of a change of mode, apart from causes 0x2 and 0x9 (R838, R314); none where it passes. The lowest cause
number is reported. `inflight` are the regions whose in-flight count is not zero. -/
def modeCheckWith (d : Dev) (inflight : Nat) (target : Mode) (lean : Nat) : Option (Nat × Nat) :=
  let now := d.mode
  let code := d.reg (RGN_TBL_CODE d.A)
  if !modeMay now target then some (1, 0)
  else if now = .drain ∧ inflight ≠ 0 then some (3, inflight)
  else if (now = .configure ∨ target.isRun) ∧ d.standing.any (fun r => d.reg (RGN_TBL_CODE r.val) != code) then some (4, 0)
  else if !target.isRun then (if target = .test ∧ !d.on (CHP_STRAPS_test_en d.A) ∧ !(d.lifeCycle = 1 ∨ d.lifeCycle = 2 ∨ d.lifeCycle = 4)
    then some (10, 0) else none)
  else match d.failing (fun r => (List.range 8).find? (fun p => d.on (RGN_PORT_CFG_loopback r p))) with
    | some x => some (5, x)
    | none =>
      match d.failing (fun r => if target = .extended then (d.profilesInUse (R r)).find? (fun p => d.fld (RGN_OD_PROFILE_transit r p) < 6) else none) with
      | some x => some (6, x)
      | none =>
        match d.failing (fun r => if (d.g (R r)).front.session.isSome || d.activeCode r != d.activeCode d.A then some 0 else none) with
        | some x => some (7, x)
        | none =>
          if target = .lean then
            if lean = 0 ∨ 16 < lean then some (8, 0) else (d.failing (fun r => d.strandedQueue r lean)).map (8, ·)
          else none

/-- The mask of the standing regions that satisfy a test. -/
def standingMask (d : Dev) (f : Region → Bool) : Nat := (d.standing.filter f).foldl (fun a r => a + 2 ^ r.val) 0

/-- The check at the time of a request. -/
def modeCheck (d : Dev) (target : Mode) (lean : Nat) : Option (Nat × Nat) :=
  d.modeCheckWith (d.standingMask (fun r => d.on (RGN_INFLIGHT_count r.val))) target lean

/-- Record a rejected or cancelled change (R837). -/
def modeRejected (d : Dev) (cause detail : Nat) : Dev :=
  ((d.setFld (CHP_MODE_STAT_reject_cause d.A) cause).setFld (CHP_MODE_STAT_detail d.A) detail).err (CHP_MODE_ERR_mode_rejected d.A)
    d.anchor 0x3F4

/-- Cancel the swap that is scheduled for a shutter, because a mode change takes it (R97). -/
def cancelSwapAt (d : Dev) (shutter : Nat) : Dev :=
  if d.anchorSt.swapAt = some shutter then
    ((d.modA (fun a => { a with swapAt := none })).clr (CHP_PANE_STAT_pending d.A)).swapRejected 4
  else d

/-- The cause and detail for which a request for a mode at a shutter is rejected, or none (R837): an undefined setting first, then a shutter
that is not far enough ahead, then a change that is already scheduled, then the other checks. -/
def modeCause (d : Dev) (target : Mode) (shutter lean : Nat) : Option (Nat × Nat) :=
  match d.modeCheck target lean with
  | some (1, x) => some (1, x)
  | c =>
    if !snapAhead shutter d.tick then some (2, 0)
    else match c with
      | some (10, _) => if d.anchorSt.modeChange.isSome then some (9, 0) else c
      | some _ => c
      | none => if d.anchorSt.modeChange.isSome then some (9, 0) else none

/-- Request a change of mode at a shutter (R837): the answer is the reject cause and detail, or none where it is scheduled. -/
def modeRequest (d : Dev) (target : Mode) (shutter lean : Nat) : Dev × Option (Nat × Nat) :=
  match d.modeCause target shutter lean with
  | some (c, x) => (d.modeRejected c x, some (c, x))
  | none =>
    let d := (d.modA (fun a => { a with modeChange := some ⟨target, shutter, lean⟩ })).cancelSwapAt shutter
    ((d.setOn (CHP_MODE_STAT_pending d.A)).setFld (CHP_MODE_STAT_pending_target d.A) target.code, none)

/-- Whether the LEAN setting of a write of CHP_MODE_REQ is one of 1–16 (R837). -/
def leanOk (v : Nat) : Bool := 1 ≤ bitsOf v 20 16 && bitsOf v 20 16 ≤ 16

/-- The fields of CHP_MODE_REQ that a write leaves: a LEAN setting outside 1–16 keeps the former one. -/
def modeReqFields (d : Dev) (v : Nat) : Dev :=
  ((d.setFld (CHP_MODE_REQ_at_en d.A) (bitsOf v 30 30)).setFld (CHP_MODE_REQ_lean_awake d.A)
    (if leanOk v then bitsOf v 20 16 else d.fld (CHP_MODE_REQ_lean_awake d.A))).setFld (CHP_MODE_REQ_target d.A) (bitsOf v 2 0)

/-- The shutter that a request by register names: the one of CHP_MODE_AT, or the second from now. -/
def modeReqShutter (d : Dev) (v : Nat) : Nat :=
  if bitOf v 30 then d.pair (CHP_MODE_AT_LO d.A) (CHP_MODE_AT_HI d.A) % 2 ^ 48 else (d.tick + 2) % 2 ^ 48

/-- The request that a write of CHP_MODE_REQ with go makes; the answer says whether it was accepted. -/
def modeReqGo (d : Dev) (v : Nat) : Dev × Bool :=
  let x := d.modeRequest (Mode.ofCode (bitsOf v 2 0)) (d.modeReqShutter v) (bitsOf v 20 16)
  (x.1, x.2.isNone)

/-- A write of CHP_MODE_REQ (R837, R845, R906); the answer says whether it was accepted whole. A LEAN setting outside 1–16 keeps the former
one and is reported, whatever the write requests beside it. -/
def modeReqWrite (d : Dev) (v : Nat) : Dev × Bool :=
  let x := if bitOf v 31 then (d.modeReqFields v).modeReqGo v else (d.modeReqFields v, true)
  if leanOk v then x else (x.1.setOn (CHP_MODE_ERR_mode_rejected d.A), false)

/-! ### Compatibility (R62–R65) -/

/-- Set CHP_COMPAT.a1, which also selects the mailbox framing (R754). -/
def setCompat (d : Dev) (b : Nat) : Dev :=
  ((d.setFld (CHP_COMPAT_a1 d.A) b).setFld (HST_MB_FRAME_v1 0) b).setFld (HST_MB_FRAME_v1 1) b

/-- A write of CHP_COMPAT (R64). -/
def compatWrite (d : Dev) (v : Nat) : Dev :=
  if d.mode = .load then d.setCompat (v % 2) else d.setOn (CHP_ID_ERR_compat_rejected d.A)

/-! ### The tick period (R83, R712) and PTP time (R711) -/

/-- Set the base of PTP time, which its registers then read (R711, R712). -/
def setPtpBase (d : Dev) (tick : Nat) (ns : Int) : Dev :=
  let n := ns.toNat
  let a := d.A
  let d := d.modA (fun x => { x with ptpBase := (tick % 2 ^ 48, n / 10 ^ 9 % 2 ^ 48, n % 10 ^ 9) })
  let d := (d.setPair (CHP_PTP_SEC_LO a) (CHP_PTP_SEC_HI a) (n / 10 ^ 9 % 2 ^ 48)).setFld (CHP_PTP_NS_ns a) (n % 10 ^ 9)
  (d.setPair (CHP_PTP_BASE_LO a) (CHP_PTP_BASE_HI a) (tick % 2 ^ 48)).setOn (CHP_PTP_CTL_valid a)

/-- A load of the PTP base at a shutter that lies at least 2 ticks ahead (R711); the answer says whether it was accepted. -/
def ptpLoad (d : Dev) (tick sec ns : Nat) : Dev × Bool :=
  if snapAhead tick d.tick then (d.modA (fun x => { x with ptpDue := some (tick, sec, ns) }), true)
  else (d.setOn (CHP_PTP_CTL_load_rejected d.A), false)

/-- A load from the registers. -/
def ptpCtlLoad (d : Dev) : Dev × Bool :=
  let a := d.A
  d.ptpLoad (d.pair (CHP_PTP_BASE_LO a) (CHP_PTP_BASE_HI a) % 2 ^ 48) (d.pair (CHP_PTP_SEC_LO a) (CHP_PTP_SEC_HI a) % 2 ^ 48)
    (d.fld (CHP_PTP_NS_ns a))

/-- A 32-bit word as a signed number. -/
def signed32 (v : Nat) : Int := if v % 2 ^ 32 < 2 ^ 31 then ((v % 2 ^ 32 : Nat) : Int) else ((v % 2 ^ 32 : Nat) : Int) - 2 ^ 32

/-- A write of CHP_PTP_ADJ (R713): the move replaces what is outstanding of an earlier one. -/
def ptpAdjust (d : Dev) (ns : Int) : Dev := d.modA (fun x => { x with move := ns * 1000 })

/-- A write of CHP_PTP_FREQ (R714): a value outside ±50,000 is rejected; the answer says whether it was accepted. -/
def ptpFreq (d : Dev) (v : Nat) : Dev × Bool :=
  if (signed32 v).natAbs ≤ 50000 then (d.setFld (CHP_PTP_FREQ_freq d.A) v, true) else (d.setOn (CHP_COMMIT_ERR_cfg_rejected d.A), false)

/-- A write of CHP_SHUTTER_CTL (R83, R86, R908): pps_edge and ptp_lock at any time, period in CONFIGURE; it takes effect at the next
shutter. Without ptp_lock the part is neither locked nor locking. -/
def shutterCtlWrite (d : Dev) (v : Nat) : Dev :=
  let a := d.A
  let d := (d.setFld (CHP_SHUTTER_CTL_pps_edge a) (bitsOf v 5 5)).setFld (CHP_SHUTTER_CTL_ptp_lock a) (bitsOf v 4 4)
  let d := if bitOf v 4 then d else ((d.clr (CHP_SHUTTER_STAT_locked a)).clr (CHP_SHUTTER_STAT_locking a)).modA (fun x => { x with phase := 0 })
  if d.mode = .configure then d.modA (fun x => { x with periodDue := some (v % 4) }) else d.setOn (CHP_COMMIT_ERR_period_rejected a)

/-! ### Park and the cell clock (R833, R844) -/

/-- Whether a port's effective state is DISABLED. -/
def portDisabled (d : Dev) (r : Region) (p : Nat) : Bool := (d.unit r 1 p).effective == 0

/-- The position of the standby in force (R142). -/
def standby (d : Dev) : Nat := d.fld (CHP_SHUTTER_STAT_standby d.A)

/-- A write of RGN_PWR_REGION.park (R833); the answer says whether it was accepted. -/
def parkWrite (d : Dev) (r : Region) (park : Bool) : Dev × Bool :=
  if park && (d.mode == .load || r.val == d.A || r.val == d.standby || (List.range 8).any (fun p => !d.portDisabled r p)) then
    (d.err (RGN_PWR_ERR_park_rejected r.val) r 0x3F8, false)
  else ((d.setFld (RGN_PWR_REGION_park r.val) (if park then 1 else 0)).noteRequest r 4 0, true)

/-- Let a register word take effect at the next shutter. -/
def delay (d : Dev) (r : Region) (a : Nat) (w : Word) : Dev :=
  d.modR r (fun g => { g with due := g.due.filter (fun e => e.1 != a) ++ [(a, w)] })

/-- The word written last to a register that waits for the next shutter, or the word in force. -/
def latest (d : Dev) (r : Region) (a : Nat) : Word := ((((d.g r).due.find? (fun e => e.1 == a)).map (·.2)).getD (d.reg a))

/-- A write of RGN_CLK_CFG (R844). -/
def cellClkWrite (d : Dev) (r : Region) (v : Nat) : Dev :=
  if (d.g r).mode.isOpen ∧ v % 4 ≠ 3 then d.delay r (RGN_CLK_CFG r.val) (BitVec.ofNat 32 (v % 4))
  else d.err (RGN_PWR_ERR_cfg_rejected r.val) r 0x3F8

/-! ### Ports (R703, R704, R709, R710) -/

/-- Whether two ports, given by first lane and lane count, share a lane. -/
def lanesMeet (p n q m : Nat) : Bool := p < q + m && q < p + n

/-- Whether port `p` with `n` lanes would share a lane with another enabled port. -/
def portsMeet (d : Dev) (r : Region) (p n : Nat) : Bool :=
  (List.range 8).any (fun q => q != p && d.on (RGN_PORT_CFG_enable r.val q) && lanesMeet p n q (d.fld (RGN_PORT_CFG_lanes r.val q)))

/-- Set cfg_rejected of the ports. -/
def portRejected (d : Dev) (r : Region) : Dev := d.err (RGN_PORT_ERR_cfg_rejected r.val) r 0x3A0

/-- A write of a port's requested state (R704, R709). -/
def portEnable (d : Dev) (r : Region) (p : Nat) (on : Bool) : Dev × Bool :=
  if on && d.portsMeet r p (d.fld (RGN_PORT_CFG_lanes r.val p)) then (d.portRejected r, false)
  else ((d.setFld (RGN_PORT_CFG_enable r.val p) (if on then 1 else 0)).noteRequest r 1 p, true)

/-- A write of RGN_PORT_CFG (R703, R704, R709, R710, R908): lanes, rate and max_frame in CONFIGURE or TEST, loopback there or zero, and
enable at any time. -/
def portCfgWrite (d : Dev) (r : Region) (p v : Nat) : Dev × Bool :=
  let isOpen := (d.g r).mode.isOpen
  let lanes := bitsOf v 27 24
  let on := bitOf v 31
  let okL := isOpen && [1, 2, 4, 8].contains lanes && p % lanes == 0 && !(on && d.portsMeet r p lanes)
  let okR := isOpen && bitsOf v 23 22 != 3
  let okM := isOpen && 60 ≤ bitsOf v 14 0 && bitsOf v 14 0 ≤ 16384
  let okB := bitsOf v 30 28 == 0 || (isOpen && bitsOf v 30 28 ≤ 2)
  let d := if okL then d.setFld (RGN_PORT_CFG_lanes r.val p) lanes else d
  let d := if okR then d.setFld (RGN_PORT_CFG_rate r.val p) (bitsOf v 23 22) else d
  let d := if okM then d.setFld (RGN_PORT_CFG_max_frame r.val p) (bitsOf v 14 0) else d
  let d := if okB then d.setFld (RGN_PORT_CFG_loopback r.val p) (bitsOf v 30 28) else d
  let (d, okE) := d.portEnable r p on
  let ok := okL && okR && okM && okB
  (if ok || !okE then d else d.portRejected r, ok && okE)

end Dev

/-! ### Commands -/

/-- MODE_REQ (R837): a write of CHP_MODE_REQ. -/
def execModeReq (value : Word) (s : State) : Out := s.run fun d => (d.modeReqWrite value.toNat).1

/-- COMPAT_WRITE (R64). -/
def execCompatWrite (value : Word) (s : State) : Out := s.run fun d => d.compatWrite value.toNat

/-- PERIOD_WRITE (R83): a write of CHP_SHUTTER_CTL. -/
def execPeriodWrite (value : Word) (s : State) : Out := s.run fun d => d.shutterCtlWrite value.toNat

/-- PTP_CTL_LOAD (R711). -/
def execPtpCtlLoad (s : State) : Out := s.run fun d => d.ptpCtlLoad.1

/-- PTP_ADJ_WRITE (R713). -/
def execPtpAdjWrite (value : Word) (s : State) : Out := s.run fun d => d.ptpAdjust (Dev.signed32 value.toNat)

/-- PTP_FREQ_WRITE (R714). -/
def execPtpFreqWrite (value : Word) (s : State) : Out := s.run fun d => (d.ptpFreq value.toNat).1

/-- PPS_EDGE (R86–R89, R711, R804): an edge `gap` ps after the last valid one, `phase` ps after the shutter that began the present tick,
or before the next one where it is negative. A valid edge starts or keeps the lock; while locked it sets the PTP base. -/
def execPpsEdge (gap : Nat) (phase : Int) (s : State) : Out := s.run fun d =>
  let a := d.A
  let valid := !d.anchorSt.ppsSeen || (10 ^ 12 ≤ gap + 10 ^ 6 && gap ≤ 10 ^ 12 + 10 ^ 6)
  if !valid then d
  else
    let d := (d.modA (fun x => { x with ppsSeen := true })).cevent 0x306 0
    if !d.on (CHP_SHUTTER_CTL_ptp_lock a) then d
    else
      let d := d.modA (fun x => { x with phase })
      if d.on (CHP_SHUTTER_STAT_locked a) then
        let tick := if phase < 0 then (d.tick + 1) % 2 ^ 48 else d.tick
        let d := d.setPair (CHP_PPS_TICK_LO a) (CHP_PPS_TICK_HI a) tick
        d.setPtpBase tick ((d.ptpTime tick + 5 * 10 ^ 8) / 10 ^ 9 * 10 ^ 9)
      else if phase = 0 then (d.setOn (CHP_SHUTTER_STAT_locked a)).clr (CHP_SHUTTER_STAT_locking a)
      else d.setOn (CHP_SHUTTER_STAT_locking a)

/-- PPS_LOCK_LOST (R88). -/
def execPpsLockLost (s : State) : Out := s.run fun d =>
  let a := d.A
  let d := d.modA (fun x => { x with ppsSeen := false, phase := 0 })
  if d.on (CHP_SHUTTER_STAT_locked a) || d.on (CHP_SHUTTER_STAT_locking a) then
    (((d.clr (CHP_SHUTTER_STAT_locked a)).clr (CHP_SHUTTER_STAT_locking a)).setOn (CHP_SHUTTER_STAT_lock_lost a)).raise d.anchor 0x3E3
  else d

/-- PARK_WRITE (R833): a write of RGN_PWR_REGION. -/
def execParkWrite (r : Region) (value : Word) (s : State) : Out := s.run fun d => (d.parkWrite r (bitOf value.toNat 0)).1

/-- REGION_PARK_DONE (R847, R849): a parking region is parked; its blocks are retained and what they lose is lost. -/
def execRegionParkDone (r : Region) (s : State) : Out := s.doing fun d =>
  if d.fld (RGN_PWR_REGION_state r.val) = 1 then
    let d := d.each ((List.range 16).filter (fun b => d.blockState r.val b == 1)) (fun b d => (d.enterRetention r b).setBlockState r b 2)
    .next ((d.setFld (RGN_PWR_REGION_state r.val) 2).raise r 0x3F7)
  else .refused .noSuchUnit

/-- REGION_WAKE_DONE (R539, R831, R835, R849): a waking region, its stack back in service at the rate that its mode calls for, runs again; a block whose retention is still requested stays retained. -/
def execRegionWakeDone (r : Region) (s : State) : Out := s.doing fun d =>
  if d.fld (RGN_PWR_REGION_state r.val) = 3 ∧ d.hbmState r.val ≠ 4 ∧ d.hbmState r.val ≠ 5 ∧ !d.on (RGN_HBM_STAT_pend_valid r.val) then
    .next ((d.clr (RGN_PWR_REGION_state r.val)).raise r 0x3F7)
  else .refused .noSuchUnit

/-- CELL_CLK_WRITE (R844): a write of RGN_CLK_CFG. -/
def execCellClkWrite (r : Region) (value : Word) (s : State) : Out := s.run fun d => d.cellClkWrite r value.toNat

/-- PORT_ENABLE_WRITE (R704, R709). -/
def execPortEnableWrite (r : Region) (p : Port) (enable : Bool) (s : State) : Out := s.run fun d => (d.portEnable r p.val enable).1

end Sys2Proof.Machine
end

