-- ==== Sys2Proof/Machine/Mail.lean ====
section
/-!
DEFINITION. Mailbox pairs: doorbells, framing, responses (R752–R763, R772, R777), the messages between MPs (R749–R751), and Thody's jobs
(R766, R769).
-/

namespace Sys2Proof.Machine

/-- The mailbox opcodes (R771). -/
def knownOpcode (op : Nat) : Bool :=
  [0x0001, 0x0002, 0x0003, 0x0004, 0x0101, 0x0102, 0x0103, 0x0104, 0x0201, 0x0202, 0x0203, 0x0301, 0x0302, 0x0303, 0x0304, 0x0305,
    0x0401, 0x0402, 0x0403, 0x0404, 0x0405, 0x0406, 0x0501, 0x0502, 0x0601, 0x0602, 0x0701, 0x0702, 0x0703, 0x0801, 0x0802, 0x0901,
    0x0902, 0x0903, 0x0A01, 0x0A02, 0x0A03, 0x0B01].contains op

/-- The status codes of R777. -/
def stOk : Nat := 0x0000
def stBadOpcode : Nat := 0x0001
def stBadLength : Nat := 0x0002
def stBadField : Nat := 0x0003
def stBadMode : Nat := 0x0004
def stBusy : Nat := 0x0005
def stSeqError : Nat := 0x0006
def stCheckError : Nat := 0x0007
def stBadVersion : Nat := 0x0008
def stRejected : Nat := 0x0009
def stNotPresent : Nat := 0x000A
def stRegionFenced : Nat := 0x000B
def stFailover : Nat := 0x000C
def stAuthFail : Nat := 0x000D
def stNoJob : Nat := 0x000E
def stUnitMismatch : Nat := 0x000F

/-- A pair with no command and no response. -/
def mailDefault : Nat → MailPair := fun _ => ⟨0, 0, 0, [], [], 0, [], .fresh⟩

/-- The first byte of a pair's command area, and of its response area (R752). -/
def mbCommand (e : Endpoint) (n : Nat) : Nat := hstReg e.val (n * 0x2000)
def mbResponse (e : Endpoint) (n : Nat) : Nat := hstReg e.val (n * 0x2000 + 0x1000)

/-- The bytes of a response (R756, R757). -/
def responseBytes (v1 : Bool) (m : MailPair) (phase status detail elapsed : Nat) (payload : List Byte) : List Byte :=
  let head := bytesLE 1 (if v1 then 1 else 2) ++ bytesLE 1 phase ++ bytesLE 2 m.opcode ++ bytesLE 4 (if v1 then 0 else m.seq)
    ++ bytesLE 4 payload.length ++ bytesLE 2 status ++ bytesLE 2 detail ++ padTo 8 m.token ++ bytesLE 4 (min (2 ^ 32 - 1) elapsed)
  if v1 then head ++ padTo 36 [] ++ payload else head ++ bytesLE 4 (crc32cOf (head ++ payload)) ++ payload

/-- How a command that has run answers: it completes, opens a job, or is acknowledged and waits. -/
inductive Reply where
  | done (status detail : Nat) (payload : List Byte)
  | pending (k : JobKind)
  | ack (w : MailWait)
deriving DecidableEq, Repr

namespace Dev

/-- One mailbox pair. -/
def mail (d : Dev) (e : Endpoint) (n : Nat) : MailPair := Sparse.get mailDefault (d.ep e).mail n

/-- Change one mailbox pair. -/
def modMail (d : Dev) (e : Endpoint) (n : Nat) (f : MailPair → MailPair) : Dev :=
  d.modEp e (fun s => { s with mail := Sparse.set mailDefault s.mail n (f (Sparse.get mailDefault s.mail n)) })

/-- The state of a pair: 0 OFFLINE, 1 IDLE, 2 BUSY, 3 ACKED (R782). -/
def mbState (d : Dev) (e : Endpoint) (n : Nat) : Nat := d.fld (HST_MB_STAT_state e.val n)
def setMbState (d : Dev) (e : Endpoint) (n v : Nat) : Dev := d.setFld (HST_MB_STAT_state e.val n) v

/-- Whether v1 framing is in force (R754). -/
def framesV1 (d : Dev) : Bool := d.on (CHP_COMPAT_a1 d.A)

/-- The largest payload of a command or response (R755, R757). -/
def mbLargest (d : Dev) : Nat := if d.framesV1 then 4032 else 4064

/-- Mark or clear a doorbell that awaits Thody (R784). -/
def mbPend (d : Dev) (e : Endpoint) (n : Nat) (b : Bool) : Dev :=
  d.setFld (RGN_MB_PEND_pend (epPos e)) (withBit (d.fld (RGN_MB_PEND_pend (epPos e))) n b)

/-- Write a response to a pair's area (R756–R758, R763): its byte 1 is the phase, which is 1 for an acknowledgement, 2 for DONE and 3 for
PENDING. A command that runs to DONE or PENDING moves the sequence number on and its response is kept; a pair that is OFFLINE stays so. -/
def writeResponse (d : Dev) (e : Endpoint) (n : Nat) (b : List Byte) (ran : Bool) : Dev :=
  let m := d.mail e n
  let phase := (b.getD 1 0).toNat
  let d := (d.setBytes (mbResponse e n) b).mbPend e n false
  let next := if phase = 1 then 3 else 1
  let d := if d.mbState e n = 0 then d else d.setMbState e n next
  let d := if phase = 1 then d
    else
      let d := d.modMail e n (fun x => { x with opcode := 0, token := [], payload := [], wait := .fresh })
      if ran && !d.framesV1 then
        (d.setFld (HST_MB_SEQ_expected e.val n) (if m.seq = 2 ^ 32 - 1 then 1 else m.seq + 1)).modMail e n
          (fun x => { x with lastSeq := m.seq, stored := b })
      else d
  d.when (bitOf m.flags (if phase = 2 then 2 else 1)) (fun d => d.msix e (d.fld (HST_MB_CFG_vector e.val n)))

/-- The bytes of a pair's response. -/
def responseOn (d : Dev) (e : Endpoint) (n phase status detail : Nat) (payload : List Byte) (elapsed : Nat) : List Byte :=
  responseBytes d.framesV1 (d.mail e n) phase status detail elapsed (payload.take d.mbLargest)

/-- Write a response where the pair is served. -/
def respond (d : Dev) (e : Endpoint) (n phase status detail : Nat) (payload : List Byte) (elapsed : Nat) (ran : Bool) : Dev :=
  d.writeResponse e n (d.responseOn e n phase status detail payload elapsed) ran

/-! ### Messages between MPs (R749–R751) -/

/-- The info of a message between MPs: its kind, and the pair it is about with the endpoint in bit 5 (R751). -/
def relayInfo (kind : Nat) (e : Endpoint) (n : Nat) : Nat := kind * 256 + e.val * 32 + n % 32

/-- The messages that carry a frame: each begins with the segment number and the segment count, high byte first (R649, R751), and holds
as many bytes of the frame as then fit in the 280 of a message. -/
def segments (frame : List Byte) : List (List Byte) :=
  let n := max 1 ((frame.length + 275) / 276)
  (List.range n).map (fun i => bytesBE 2 i ++ bytesBE 2 n ++ sliceOf frame (i * 276) (min 276 (frame.length - i * 276)))

/-- Send a frame from the MP of one region to that of another. -/
def sendFrame (d : Dev) (src dst kind : Nat) (e : Endpoint) (n : Nat) (frame : List Byte) : Dev :=
  { d with wire := d.wire ++ (segments frame).map (fun b => ⟨src, dst, .mgt (relayInfo kind e n) b⟩) }

/-- Whether the primary and the agent that serves an endpoint's mailboxes are one MP (R749, R750). -/
def servedHere (d : Dev) (e : Endpoint) : Bool := (endpointRegion e).val == d.A

/-- Whether a relay of a pair's command or of its response is on its way. -/
def relaying (d : Dev) (e : Endpoint) (n : Nat) : Bool :=
  d.wire.any (fun f => match f.msg with
    | .mgt info _ => info == relayInfo 1 e n || info == relayInfo 2 e n
    | _ => false)

/-- Answer a command that has run: the primary writes the response itself, or relays it to the agent of the endpoint (R750, R751). -/
def reply (d : Dev) (e : Endpoint) (n phase status detail : Nat) (payload : List Byte) (elapsed : Nat) : Dev :=
  if d.servedHere e then d.respond e n phase status detail payload elapsed true
  else d.sendFrame d.A (endpointRegion e).val 2 e n (d.responseOn e n phase status detail payload elapsed)

/-- The payload of the command that stands in a pair's command area. -/
def commandPayload (d : Dev) (e : Endpoint) (n : Nat) : List Byte :=
  let head := if d.framesV1 then 64 else 32
  d.bytes (mbCommand e n + head) (min (d.le (mbCommand e n + 8) 4) (0x1000 - head))

/-- Hand a pair's command to the primary, which may be the MP that serves the pair (R750, R751). -/
def relayCommand (d : Dev) (e : Endpoint) (n : Nat) : Dev :=
  if d.servedHere e then d.modMail e n (fun x => { x with payload := d.commandPayload e n, wait := .fresh })
  else
    let head := if d.framesV1 then 64 else 32
    (d.modMail e n (fun x => { x with payload := [], wait := .relay })).sendFrame (endpointRegion e).val d.A 1 e n
      (d.bytes (mbCommand e n) head ++ d.commandPayload e n)

/-- Write the stored response once more (R759). -/
def replayResponse (d : Dev) (e : Endpoint) (n : Nat) : Dev :=
  let m := d.mail e n
  let phase := ((m.stored.drop 1).headD 0).toNat
  let d := (d.setBytes (mbResponse e n) m.stored).modMail e n (fun x => { x with opcode := 0, token := [], payload := [] })
  d.when (bitOf m.flags (if phase = 2 then 2 else 1)) (fun d => d.msix e (d.fld (HST_MB_CFG_vector e.val n)))

/-- A doorbell (R754, R758–R762, R777): ignored and counted, answered at once where its header keeps it from running, or the pair is
BUSY. -/
def mbDoorbell (d : Dev) (e : Endpoint) (n value : Nat) : Dev :=
  if value = 0 ∨ d.mbState e n ≠ 1 then d.addSat (HST_MB_STAT_db_ignored e.val n) 1
  else
    let a := mbCommand e n
    let v1 := d.framesV1
    let version := (d.byte a).toNat
    let flags := (d.byte (a + 1)).toNat
    let op := d.le (a + 2) 2
    let seq := d.le (a + 4) 4
    let length := d.le (a + 8) 4
    let payload := d.commandPayload e n
    let check := d.le (a + 28) 4
    let expected := d.fld (HST_MB_SEQ_expected e.val n)
    let bad := crc32cOf (d.bytes a 28 ++ payload) ≠ check
    let d := (d.setByte (mbResponse e n + 1) 0).modMail e n (fun x => { x with
      opcode := op, seq, flags, token := d.bytes (a + 16) 8, payload := [], wait := .fresh })
    let d := d.event (R (epPos e)) 0x180 n
    let us := d.freeNat 0
    if version ≠ (if v1 then 1 else 2) then d.respond e n 2 stBadVersion 0 [] us false
    else if !v1 ∧ ¬(value = seq ∧ seq = expected) then
      if value = seq ∧ seq = (d.mail e n).lastSeq then d.replayResponse e n
      else d.respond e n 2 stSeqError 0 (bytesLE 4 expected) us false
    else if d.mbLargest < length then d.respond e n 2 stBadLength 0 [] us true
    else if !v1 ∧ bitOf flags 0 ∧ bad then d.respond e n 2 stCheckError 0 [] us true
    else if !knownOpcode op then d.respond e n 2 stBadOpcode 0 [] us true
    else ((d.setMbState e n 2).mbPend e n true).relayCommand e n

/-! ### Jobs (R766, R769) -/

/-- Change one job. -/
def modJob (d : Dev) (num : Nat) (f : Job → Job) : Dev :=
  { d with thody := { d.thody with jobs := d.thody.jobs.map (fun j => if j.num = num then f j else j) } }

/-- The jobs that run. -/
def runningJobs (d : Dev) : List Job := d.thody.jobs.filter (·.state == 0)

/-- Open a job for the command of a pair; the answer is its number. -/
def openJob (d : Dev) (e : Endpoint) (n : Nat) (k : JobKind) : Dev × Nat :=
  let num := d.thody.nextJob
  let m := d.mail e n
  let job : Job := ⟨num, e.val, n, m.opcode, m.seq, k, 0, 0, 0, [], 0⟩
  let next := if num = 2 ^ 32 - 1 then 1 else num + 1
  ({ d with thody := { d.thody with jobs := d.thody.jobs ++ [job], nextJob := next } }, num)

/-- End a job that runs: its status, detail and result, which JOB_DONE then posts. -/
def endJob (d : Dev) (num status detail : Nat) (result : List Byte) : Dev :=
  d.modJob num (fun j => if j.state = 0 then { j with state := 1, status, detail, result } else j)

/-- The detail of a job's JOB_DONE (R769). -/
def jobDetail (j : Job) : List Byte :=
  bytesLE 2 j.opcode ++ bytesLE 2 j.status ++ bytesLE 2 j.detail ++ bytesLE 4 j.seq ++ bytesLE 1 j.endpoint ++ bytesLE 1 j.pair ++ j.result

/-- Post JOB_DONE for a job that has ended at once (R769). -/
def jobPosted (d : Dev) (j : Job) : Dev :=
  (d.modJob j.num (fun x => { x with state := 2, doneTick := d.eventTick })).postTo (Fin.ofNat 2 j.endpoint) 0x0001 0xFF j.num (jobDetail j)

/-- Post JOB_DONE for a job that has ended (R751, R769): the primary posts it itself, or sends it to the agent of the endpoint. -/
def jobPost (d : Dev) (j : Job) : Dev :=
  let e : Endpoint := Fin.ofNat 2 j.endpoint
  if d.servedHere e then d.jobPosted j
  else (d.modJob j.num (fun x => { x with state := 2, doneTick := d.eventTick })).sendFrame d.A (endpointRegion e).val 4 e j.pair
    (bytesLE 4 j.num ++ jobDetail j)

/-! ### Serving a command -/

/-- Answer a command that has run. -/
def answer (d : Dev) (e : Endpoint) (n elapsed : Nat) : Reply → Dev
  | .done status detail payload => d.reply e n 2 status detail payload elapsed
  | .pending k =>
    let (d, num) := d.openJob e n k
    d.reply e n 3 stOk 0 (bytesLE 4 num) elapsed
  | .ack w => (d.modMail e n (fun x => { x with wait := w })).reply e n 1 0 0 [] elapsed

/-- What an acknowledged command completes with once what it waits for has come. -/
def waited (d : Dev) : MailWait → Option (Nat × Nat × List Byte)
  | .ready status detail payload => some (status, detail, payload)
  | .shutter k => if tickAfter k d.tick then none else some (stOk, 0, bytesLE 6 k)
  | _ => none

/-- Serve the command with an opcode on a pair (R750, R762, R772): the primary runs it once its relay has come, in a mode that its row
admits and with a payload of its length, and answers; a command that was acknowledged completes when `finish` says so. -/
def serve (d : Dev) (e : Endpoint) (n op elapsed : Nat) (modes : Mode → Bool) (fits : List Byte → Bool)
    (start : Dev → List Byte → Dev × Reply) (finish : Dev → List Byte → MailWait → Option (Nat × Nat × List Byte)) : Res :=
  let m := d.mail e n
  if m.opcode ≠ op ∨ m.wait = .relay ∨ d.relaying e n = true then .refused .noSuchUnit
  else if d.fld (RGN_MP_STAT_state d.A) ≠ 0 then .refused .stalled
  else if d.mbState e n = 2 then
    if !modes d.mode then .next (d.reply e n 2 stBadMode d.mode.code [] elapsed)
    else if !fits m.payload then .next (d.reply e n 2 stBadLength 0 [] elapsed)
    else
      let (d, a) := start d m.payload
      .next (d.answer e n elapsed a)
  else if d.mbState e n = 3 then
    match finish d m.payload m.wait with
    | some (status, detail, payload) => .next (d.reply e n 2 status detail payload elapsed)
    | none => .refused .noSuchUnit
  else .refused .noSuchUnit

/-- Serve a command that completes when it runs, or when what it waits for has come. -/
def serveSoon (d : Dev) (e : Endpoint) (n op elapsed : Nat) (modes : Mode → Bool) (fits : List Byte → Bool)
    (start : Dev → List Byte → Dev × Reply) : Res := d.serve e n op elapsed modes fits start (fun d _ w => d.waited w)

/-- Every pair of both endpoints. -/
def allPairs : List (Endpoint × Nat) := (List.finRange 2).flatMap (fun e => (List.range 32).map (fun n => (e, n)))

/-- Take the pairs of an endpoint OFFLINE; their commands wait. -/
def mailOffline (d : Dev) (e : Endpoint) : Dev := d.each (List.range 32) (fun n d => d.setMbState e n 0)

/-- Bring the pairs of an endpoint back: IDLE, or where their commands stand. -/
def mailOnline (d : Dev) (e : Endpoint) : Dev :=
  d.each (List.range 32) (fun n d => d.setMbState e n
    (if (d.mail e n).opcode = 0 then 1 else if (d.mail e n).wait = .fresh ∨ (d.mail e n).wait = .relay then 2 else 3))

/-- The pairs as Thody starts (R758, R782): IDLE, nothing run, the sequence at one. -/
def mailStart (d : Dev) (e : Endpoint) : Dev :=
  let d := d.modEp e (fun s => { s with mail := [] })
  (d.each (List.range 32) (fun n d => (d.setMbState e n 1).setFld (HST_MB_SEQ_expected e.val n) 1)).setFld
    (RGN_MB_PEND_pend (epPos e)) 0

/-- Complete what waits on a mode change (R837): its response is ready. -/
def mailModeDone (d : Dev) (status detail : Nat) (payload : List Byte) : Dev :=
  d.each allPairs (fun x d => if (d.mail x.1 x.2).wait = .mode then
    d.modMail x.1 x.2 (fun m => { m with wait := .ready status detail payload }) else d)

/-- The role of the anchor passes (R749, R765): acknowledged commands complete and jobs end with FAILOVER, and the agents hand the commands
that were not acknowledged to the new primary. What was on its way to or from the former one goes no further. -/
def mailFailover (d : Dev) : Dev :=
  let d := { d with wire := d.wire.filter (fun f => match f.msg with | .mgt _ _ => false | _ => true) }
  let d := d.each allPairs (fun x d =>
    if (d.mail x.1 x.2).opcode = 0 then d
    else if (d.mail x.1 x.2).wait = .fresh ∨ (d.mail x.1 x.2).wait = .relay then d.relayCommand x.1 x.2
    else d.respond x.1 x.2 2 stFailover 0 [] (d.freeNat (300 + x.1.val * 32 + x.2)) true)
  d.runningJobs.foldl (fun d j => d.endJob j.num stFailover 0 []) d

/-- Act on a frame that has come whole (R750, R751): a command reaches the primary, a response or a job's completion the agent of the
endpoint. An agent's report changes nothing by itself. -/
def tookFrame (d : Dev) (r : Region) (kind : Nat) (e : Endpoint) (n : Nat) (frame : List Byte) : Dev :=
  if kind = 1 ∧ r.val = d.A ∧ (d.mail e n).wait = .relay then
    d.modMail e n (fun x => { x with payload := frame.drop (if d.framesV1 then 64 else 32), wait := .fresh })
  else if kind = 2 ∧ r = endpointRegion e then d.writeResponse e n frame true
  else if kind = 4 ∧ r = endpointRegion e then d.postTo e 0x0001 0xFF (ofLE (frame.take 4)) (frame.drop 4)
  else d

/-- A message between MPs (R751): its segment joins those of its frame that came before it, and the last one completes the frame. -/
def tookRelay (d : Dev) (r : Region) (info : Nat) (payload : List Byte) : Dev :=
  let i := ofBE (payload.take 2)
  let n := ofBE ((payload.drop 2).take 2)
  let frame := (if i = 0 then [] else Sparse.get (fun _ => []) (d.g r).relays info) ++ payload.drop 4
  let keep (d : Dev) (l : List Byte) : Dev := d.modR r (fun g => { g with relays := Sparse.set (fun _ => []) g.relays info l })
  if i + 1 < n then keep d frame
  else (keep d []).tookFrame r (info / 256) (Fin.ofNat 2 (info / 32)) (info % 32) frame

end Dev

/-- MGT_MSG (R662, R751): a message of Thody reaches the region's MP; one longer than a message holds is discarded as a protocol error, and
what a guest sends is its firmware's own. -/
def execMgtMsg (r src : Region) (info : Nat) (payload : List Byte) (s : State) : Out :=
  s.deliverAll src.val r.val (.mgt info payload) fun d =>
  if 280 < payload.length ∨ 65536 ≤ info then d.protoErr r
  else if d.guest src.val then d
  else d.tookRelay r info payload

/-- MB_DOORBELL (R758–R761): a write of HST_MB_DB. -/
def execMbDoorbell (e : Endpoint) (pair : Fin 32) (value : Word) (s : State) : Out := s.run fun d => d.mbDoorbell e pair.val value.toNat

end Sys2Proof.Machine
end

