-- ==== Sys2Proof/Machine/Faults.lean ====
section
/-!
DEFINITION. Fences and rejoin (R857–R865), the loss of the anchor (R866–R871), the management processors (R872), the journal's limit and
the acknowledgement of faults (R877, R879), and a guest's current limit (R889).
-/

namespace Sys2Proof.Machine

namespace Dev

/-! ### The standby (R871) -/

/-- Whether a region may be the standby, apart from being parked. -/
def maySucceed (d : Dev) (q : Nat) : Bool :=
  d.mladus q && d.committing q && !d.fenced q && !d.absent q && q != d.A

/-- Whether a region is parked, about to park or waking. -/
def sleeping (d : Dev) (q : Nat) : Bool := d.on (RGN_PWR_REGION_park q) || d.fld (RGN_PWR_REGION_state q) != 0

/-- The region that becomes the standby: the lowest-numbered one that may succeed and runs. -/
def successor (d : Dev) : Option Nat := (List.range 8).find? (fun q => d.maySucceed q && !d.sleeping q)

/-- The lowest-numbered region that may succeed, parked or not. -/
def sleepingSuccessor (d : Dev) : Option Nat := (List.range 8).find? (fun q => d.maySucceed q)

/-- The mark of a missed standby goes when another is chosen. -/
def clearMissed (d : Dev) : Dev := if d.standby = d.A then d else d.clr (RGN_FAILOVER_STAT_missed d.standby)

/-- With no running region that may succeed, the lowest parked one is woken. -/
def wakeSuccessor (d : Dev) : Dev :=
  match d.sleepingSuccessor with
  | some q => if d.on (RGN_PWR_REGION_park q) then (d.clr (RGN_PWR_REGION_park q)).noteRequest (R q) 4 0 else d
  | none => d

/-- Choose the standby: the lowest-numbered region that may be it; where only parked regions may, the lowest of them is woken, and until
it runs there is none, which the anchor's own position says. -/
def chooseStandby (d : Dev) : Dev :=
  match d.clearMissed.successor with
  | some q => d.clearMissed.setFld (CHP_SHUTTER_STAT_standby d.A) q
  | none => (d.clearMissed.setFld (CHP_SHUTTER_STAT_standby d.A) d.A).wakeSuccessor

/-! ### Rejoin (R861–R865) -/

/-- Show the phase of the rejoin. -/
def rejoinPhase (d : Dev) (phase : Nat) : Dev :=
  (d.modA (fun a => { a with rejoin := a.rejoin.map (fun x => { x with phase }) })).setFld (CHP_REJOIN_STAT_phase d.A) phase

/-- End the job of a rejoin, if a command asked for it. -/
def rejoinJob (d : Dev) (x : Rejoin) (status detail : Nat) (result : List Byte) : Dev :=
  if x.job = 0 then d else d.endJob x.job status detail result

/-- A rejoin fails (R864): the region stays fenced with cause REJOIN_FAILED. -/
def rejoinFail (d : Dev) : Dev :=
  match d.anchorSt.rejoin with
  | none => d
  | some x =>
    let d := (d.modA (fun a => { a with rejoin := none })).setFld (CHP_REJOIN_STAT_phase d.A) 7
    let d := (d.setFld (CHP_FENCE_CAUSE_cause d.A x.region) 0x0A).setOn (CHP_FENCE_ERR_rejoin_failed d.A)
    (d.journalChip 0x0403 x.region (unitId 4 x.region 0) (bytesLE 1 x.phase)).rejoinJob x stRejected x.phase []

/-- Start the rejoin of a fenced Mladus region, with the job that asked for it (R861); the answer says whether it started. -/
def rejoinStart (d : Dev) (q : Region) (job : Nat) : Dev × Bool :=
  match d.anchorSt.rejoin, d.sibling q with
  | none, some s =>
    if d.mladus q.val && d.fenced q.val then
      let d := (d.regionReset q).modA (fun a => { a with rejoin := some ⟨q.val, s.val, 1, 0, job⟩ })
      let a := d.A
      ((((d.setFld (CHP_REJOIN_STAT_phase a) 1).setFld (CHP_REJOIN_STAT_region a) q.val).setFld (CHP_REJOIN_STAT_source a) s.val).setFld
        (CHP_REJOIN_STAT_remaining a) 0, true)
    else (d, false)
  | _, _ => (d, false)

/-- Copy the bytes of `n` addresses from `src` as `w` shows them to `dst`, with nothing else left there. -/
def copyRange (d w : Dev) (src dst n : Nat) : Dev :=
  (d.zero dst n).each (w.mem.filter (fun c => src ≤ c.1 && c.1 < src + n)) (fun c d => d.setByte (c.1 - src + dst) c.2)

/-- Copy registers word by word. -/
def copyRegs (d : Dev) (l : List (Nat × Nat)) : Dev := d.each l (fun x d => d.setReg x.2 (d.reg x.1))

/-- The registers that a rejoining region takes over: table descriptors and their code, the panes' divisions, codes and states. -/
def replicaRegs (s q : Nat) : List (Nat × Nat) :=
  (List.range 256).flatMap (fun n => [(RGN_TBL_TYPE s n, RGN_TBL_TYPE q n), (RGN_TBL_ALLOC s n, RGN_TBL_ALLOC q n),
    (RGN_TBL_AGE s n, RGN_TBL_AGE q n), (RGN_TBL_SEED s n, RGN_TBL_SEED q n)])
  ++ [(RGN_TBL_CODE s, RGN_TBL_CODE q), (RGN_CLS_DIV0 s, RGN_CLS_DIV0 q), (RGN_CLS_DIV1 s, RGN_CLS_DIV1 q),
    (RGN_PANE_CODE0 s, RGN_PANE_CODE0 q), (RGN_PANE_CODE1 s, RGN_PANE_CODE1 q), (RGN_PANE_STAT s, RGN_PANE_STAT q)]

/-- A rejoining region holds its source's replica as of the last commit before its join (R861–R863): every change of the source's overlays
is in it, and its own counters and meters start at zero. Of table SRAM the units that a table uses are copied; latch words lie in the others
and stay each region's own (R53, R312). -/
def copyReplica (d : Dev) (s q : Region) : Dev :=
  let w := d.withOverlays s
  let stored := (w.g s).tables.inEffect.filter (fun e => e.2.kind != 0 && e.2.kind != 3 && e.2.kind != 7)
  let d := d.each stored (fun e d => d.copyRange w (tableAddr s e.2 0) (tableAddr q e.2 0) e.2.allocBytes)
  let d := d.each [0, 1] (fun p d =>
    (d.copyRange w (prickBase s.val p) (prickBase q.val p) 0x10000).copyRange w (paneBase s.val p) (paneBase q.val p) 0x60000)
  let d := d.copyRegs (replicaRegs s.val q.val)
  let tables : TableState := { (w.g s).tables with
    hits := [], noticed := [], tokens := (d.g q).tables.tokens, sweepTable := 0, sweepSlot := 0, sweepStart := 0, pendingDesc := [] }
  let d := (d.modTables q (fun _ => tables)).modCommit q (fun c => { c with written := (w.g s).commit.written })
  let d := d.modFront q (fun f => { f with quiet := (w.g s).front.quiet })
  d.each ((w.g s).tables.inEffect.filter (fun e => e.2.kind == 9 || e.2.kind == 10)) (fun e d => d.zero (tableAddr q e.2 0) e.2.allocBytes)

/-- The region of the rejoin joins at the shutter that the anchor named: it stages and seals from now, commit k is the first that it
applies itself (R863), and the budgets of its blocks follow the mode and the period in force (R372). -/
def rejoinJoin (d : Dev) (q : Region) (k : Nat) : Dev :=
  let before := (k + 2 ^ 48 - 1) % 2 ^ 48
  let d := d.setFld (CHP_COMMIT_MEMBERS_fenced d.A) (withBit (d.fld (CHP_COMMIT_MEMBERS_fenced d.A)) q.val false)
  let d := d.setFld (CHP_COMMIT_MEMBERS_absent d.A) (withBit (d.fld (CHP_COMMIT_MEMBERS_absent d.A)) q.val false)
  (d.modCommit q (fun c => { c with lastApplied := before, seen := c.seen ++ [before] })).refreshBudgets q

/-- The region of the rejoin forwards again, and is marked recovering (R863). -/
def rejoinRecover (d : Dev) (q : Region) : Dev :=
  (d.setFld (CHP_COMMIT_MEMBERS_recovering d.A) (withBit (d.fld (CHP_COMMIT_MEMBERS_recovering d.A)) q.val true)).rejoinPhase 5

/-- Whether every requester's charge in a region is at or below its quota (R865). -/
def withinQuotas (d : Dev) (q : Nat) : Bool :=
  d.regs.all (fun e => !(RGN_BPM_USED q 0 ≤ e.1 && e.1 ≤ RGN_BPM_USED q 255 && (e.1 - RGN_BPM_USED q 0) % 16 == 0)
    || fieldOf e.2 0 25 ≤ d.fld (RGN_BPM_QUOTA_quota q ((e.1 - RGN_BPM_USED q 0) / 16)))

/-- The recovering mark is cleared, and the rejoin is done (R865). -/
def rejoinDone (d : Dev) (x : Rejoin) : Dev :=
  let d := d.setFld (CHP_COMMIT_MEMBERS_recovering d.A) (withBit (d.fld (CHP_COMMIT_MEMBERS_recovering d.A)) x.region false)
  let d := (d.modA (fun a => { a with rejoin := none })).setFld (CHP_REJOIN_STAT_phase d.A) 6
  let d := (d.journalChip 0x0402 x.region (unitId 4 x.region 0) (bytesLE 6 x.joinAt)).post 0x0004 x.region 0 []
  d.rejoinJob x stOk 0 (bytesLE 6 x.joinAt)

/-! ### Fences (R857–R860) -/

/-- The completion of a mutation (R332). -/
def completion (o : Outcome) : List Byte :=
  bytesLE 2 (0x8000 + o.code) ++ bytesLE 6 (if o.code = 0 then o.visible else 0) ++ bytesLE 4 o.index

/-- Report an outcome to its issuer (R112, R332, R771). -/
def report (d : Dev) (o : Outcome) : Dev :=
  match o.issuer with
  | .ring e ring i => d.urComplete (Fin.ofNat 2 e) ring i o.code o.visible o.index
  | .mailbox e pair handle =>
    let e : Endpoint := Fin.ofNat 2 e
    if (d.mail e pair).wait = .outcome ∧ (d.mail e pair).seq = handle then
      d.modMail e pair (fun m => { m with wait := .ready (0x20 + o.code) 0 (completion o) })
    else d
  | _ => d

/-- The records of hosts that a region staged and whose commit has not come when it is fenced (R112): its own and those of the tick before,
and the direct writes that wait for it. -/
def fencedRecords (d : Dev) (q : Region) : List Issuer :=
  let c := (d.g q).commit
  let old := if c.lastApplied = ((d.g q).tick + 2 ^ 48 - 1) % 2 ^ 48 then [] else c.previous
  ((old ++ c.staged).filter (·.mu.fromHost)).map (·.issuer) ++ c.directHeld.filterMap (·.2.2)

/-- The outcomes of a region that is fenced (R112): those already known are reported, and what its commit would have settled is FENCED. -/
def fenceOutcomes (d : Dev) (q : Region) : Dev :=
  let c := (d.g q).commit
  (d.each c.outcomes (fun o d => d.report o)).each (d.fencedRecords q) (fun i d => (d.event q 0x126 5).report ⟨i, 5, 0, 0⟩)

/-- What other regions hand to a region that is fenced (R188, R858): a record that it has not enqueued drops with REGION_FENCED in the region
that holds the packet, and no copy bound for it waits any more. -/
def fenceRecords (d : Dev) (q : Region) : Dev :=
  let d := { d with wire := d.wire.filter (fun f => !(f.dst == q.val && match f.msg with | .releaseRec _ => true | _ => false)) }
  d.each (d.mladusRegions.filter (· != q)) (fun r d =>
    d.each ((d.g r).egress.copies.filter (fun c => recordRegion c.record == q && c.outcome != some 3)) (fun c d =>
      (d.when (c.outcome == none) (·.dropCount r 0x0F)).noteOutcome r c.record.stamp c.record.copy 2 0))

/-- What lies on the way to a region when it is fenced, but for CTL and the release records (R672, R858): a request is answered with FENCED,
and every other message is discarded and counted. -/
def fenceFlights (d : Dev) (q : Region) : Dev :=
  let caught (f : Flight) : Bool := f.dst == q.val && f.src != q.val && f.msg.channel != 0 && f.msg.channel != 3
  let l := d.wire.filter caught
  { d with wire := d.wire.filter (fun f => !caught f) }.each l (fun f d =>
    match responseOf .fenced f.msg with
    | some m => d.send f.src f.src m
    | none => d.discarded (R f.src))

/-- Set the effective state of a unit. -/
def setEffective (d : Dev) (r : Region) (kind index v : Nat) : Dev :=
  let u : LedgerUnit := { d.unit r kind index with effective := v }
  d.modR r (fun g => { g with ledger := Sparse.set unitDefault g.ledger (unitKey kind index) u })

/-- The modules of the neighbours of a guest behave as though admit were 0 (R859). -/
def closeGuest (d : Dev) (q : Region) : Dev :=
  d.each (List.finRange 8) (fun r d => d.each (List.range 6) (fun m d =>
    if d.mladus r.val ∧ (d.facing r.val m).map (·.2) = some q.val then d.admitWrite r m false else d))

/-- A fence of a region takes effect at a shutter (R857–R859). -/
def fenceRegion (d : Dev) (q : Region) (cause : Nat) : Dev :=
  let a := d.A
  let guest := d.guest q.val
  let d := d.setFld (CHP_COMMIT_MEMBERS_fenced a) (withBit (d.fld (CHP_COMMIT_MEMBERS_fenced a)) q.val true)
  let d := d.setFld (CHP_COMMIT_MEMBERS_recovering a) (withBit (d.fld (CHP_COMMIT_MEMBERS_recovering a)) q.val false)
  let d := (d.setFld (CHP_FENCE_CAUSE_cause a q.val) cause).addSat (CHP_FENCE_CAUSE_fences a q.val) 1
  let d := if guest then
      ((d.setFld (CHP_COMMIT_MEMBERS_committing a) (withBit (d.fld (CHP_COMMIT_MEMBERS_committing a)) q.val false)).closeGuest q).modCommit q
        (fun c => { c with fenceDue := 0 })
    else ((d.fenceOutcomes q).fenceRecords q).regionReset q
  let d := ((d.fenceFlights q).each (List.range 8) (fun p d => d.setEffective q 1 p 0)).setEffective q 4 0 2
  let d := ((d.post 0x0003 q.val 0 (bytesLE 1 cause)).journalChip 0x0401 q.val (unitId 4 q.val 0) (bytesLE 1 cause)).cevent 0x303 q.val
  let d := match regionEndpoint q.val with
    | some e => d.mailOffline e
    | none => d
  let d := match d.anchorSt.rejoin with
    | some x => if x.region = q.val ∨ (x.source = q.val ∧ x.phase < 5) then d.rejoinFail else d
    | none => d
  if q.val = d.standby then d.chooseStandby else d

/-- Ask for the fence of a region at its next shutter with cause COMMAND (R860): that of the anchor, and of an empty position, is rejected;
a region that is fenced stays so, and its rejoin fails. -/
def fenceRequest (d : Dev) (q : Region) : Dev × Bool :=
  if q.val = d.A ∨ !d.present q.val then (d.setOn (CHP_FENCE_ERR_fence_rejected d.A), false)
  else if d.fenced q.val && (d.anchorSt.rejoin.map (·.region)) != some q.val then (d, true)
  else (d.dueFence q 0x08, true)

/-! ### The management processors (R872) -/

/-- The primary resets a failed MP and reloads it: its generation rises (R408, R872). -/
def mpRestart (d : Dev) (r : Region) : Dev :=
  let d := (d.setFld (RGN_MP_STAT_state r.val) 2).modR r (fun g => { g with mpGeneration := (g.mpGeneration + 1) % 128 })
  d.announce r (d.whoHolder (.mp r.val))

/-! ### Failover (R866–R871) -/

/-- The fields of the chip registers that the standby takes over with the role: what every region knows of the part. -/
def chipFacts (a b : Nat) : List (Fld × Fld) :=
  [(CHP_COMPAT_a1 a, CHP_COMPAT_a1 b), (CHP_MODE_STAT_lean_awake a, CHP_MODE_STAT_lean_awake b), (CHP_MODE_STAT_effective a, CHP_MODE_STAT_effective b),
   (CHP_SHUTTER_CTL_period a, CHP_SHUTTER_CTL_period b), (CHP_COMMIT_MEMBERS_recovering a, CHP_COMMIT_MEMBERS_recovering b),
   (CHP_COMMIT_MEMBERS_fenced a, CHP_COMMIT_MEMBERS_fenced b), (CHP_COMMIT_MEMBERS_absent a, CHP_COMMIT_MEMBERS_absent b),
   (CHP_COMMIT_MEMBERS_committing a, CHP_COMMIT_MEMBERS_committing b), (CHP_PANE_STAT_generation a, CHP_PANE_STAT_generation b),
   (CHP_PANE_STAT_active a, CHP_PANE_STAT_active b), (CHP_PANE_STAT_pane1_state a, CHP_PANE_STAT_pane1_state b),
   (CHP_PANE_STAT_pane0_state a, CHP_PANE_STAT_pane0_state b), (CHP_PTP_SEC_LO_sec a, CHP_PTP_SEC_LO_sec b),
   (CHP_PTP_SEC_HI_sec a, CHP_PTP_SEC_HI_sec b), (CHP_PTP_NS_ns a, CHP_PTP_NS_ns b), (CHP_PTP_BASE_LO_tick a, CHP_PTP_BASE_LO_tick b),
   (CHP_PTP_BASE_HI_tick a, CHP_PTP_BASE_HI_tick b), (CHP_PTP_CTL_valid a, CHP_PTP_CTL_valid b), (CHP_FAULT_CTL_fault_n a, CHP_FAULT_CTL_fault_n b),
   (CHP_BOOT_STAT_state a, CHP_BOOT_STAT_state b), (CHP_BOOT_STAT_boot_ms a, CHP_BOOT_STAT_boot_ms b)]

/-- The anchor's role passes to a region: what the former anchor had scheduled is cancelled, and PTP time goes on. The new anchor seals to
itself; every other region does so from the first marker that it receives from it (R121). -/
def passRole (d : Dev) (new : Region) : Dev :=
  ({ d with anchor := new, anchorSt := { AnchorState.reset with ptpBase := d.anchorSt.ptpBase, takenOver := true } }).modCommit new
    (fun c => { c with anchorSeen := new.val })

/-- The chip registers of the new anchor become those of the part; it is no absent member of its own. -/
def copyChip (d : Dev) (old new : Region) : Dev :=
  (d.each (chipFacts old.val new.val) (fun x d => d.setFld x.2 (d.fld x.1))).setFld (CHP_COMMIT_MEMBERS_absent new.val)
    (withBit (d.fld (CHP_COMMIT_MEMBERS_absent old.val)) new.val false)

/-- What the registers of the new anchor say of its role: its last commit is the last tick that it applied itself. -/
def showRole (d : Dev) (new : Region) : Dev :=
  (((d.setPair (CHP_COMMIT_LAST_LO new.val) (CHP_COMMIT_LAST_HI new.val) (d.g new).commit.lastApplied).setOn
    (CHP_SHUTTER_STAT_failover new.val)).setFld (CHP_SHUTTER_STAT_anchor new.val) new.val).setFld
    (CHP_SHUTTER_STAT_standby new.val) new.val

/-- The links, the journal and the mailbox after the anchor's role has passed; the MPs that are down are restarted. -/
def afterFailover (d : Dev) (old new : Region) : Dev :=
  let last := (d.g new).commit.lastApplied
  let d := (d.each d.mladusRegions (fun r d => d.setParent r.val)).each (List.finRange 8) (fun r d => d.modCommit r (fun c => { c with heard := [] }))
  let d := (d.journalChip 0x0405 new.val 0 (bytesLE 1 new.val ++ bytesLE 1 old.val ++ bytesLE 6 last)).post 0x0005 0xFF 0
    (bytesLE 1 new.val ++ bytesLE 1 old.val)
  let d := (d.cevent 0x305 0).mailFailover
  let d := { d with thody := { d.thody with session := none } }
  d.each (d.mladusRegions.filter (fun r => d.fld (RGN_MP_STAT_state r.val) == 1)) (fun r d => d.mpRestart r)

/-- The standby takes the anchor role at its shutter (R869–R871): its chip registers become those of the part, what the former anchor had
scheduled is cancelled, its first commit will name the last tick that it applied itself, and its MP is the primary. -/
def failover (d : Dev) : Dev :=
  let old := d.anchor
  let new := R d.standby
  ((((((d.rejoinFail).copyChip old new).passRole new).showRole new).chooseStandby).clr
    (RGN_FAILOVER_STAT_missed new.val)).afterFailover old new

end Dev

/-! ### Commands -/

/-- FENCE_CTL_FENCE (R860). -/
def execFenceCtlFence (region : Region) (s : State) : Out := s.run fun d => (d.fenceRequest region).1

/-- FENCE_CTL_REJOIN (R861). -/
def execFenceCtlRejoin (region : Region) (s : State) : Out := s.run fun d => (d.rejoinStart region 0).1

/-- REJOIN_RESET_DONE (R859, R861): the reset of the region is released, its MP runs and its links train. -/
def execRejoinResetDone (s : State) : Out := s.doing fun d =>
  match d.anchorSt.rejoin with
  | some x =>
    if x.phase ≠ 1 then .refused .noSuchUnit
    else
      let d := d.each ((List.range 6).filter (fun m => (d.facing x.region m).isSome)) (fun m d => d.setLinkState x.region m 1)
      let d := match regionEndpoint x.region with
        | some e => d.mailOnline e
        | none => d
      .next (d.rejoinPhase 2)
  | none => .refused .noSuchUnit

/-- REJOIN_SYNC_DONE (R861): the region has followed the markers for 1,024 ticks, and the copy starts. -/
def execRejoinSyncDone (s : State) : Out := s.doing fun d =>
  match d.anchorSt.rejoin with
  | some x =>
    if x.phase ≠ 2 then .refused .noSuchUnit
    else .next ((d.rejoinPhase 3).setFld (CHP_REJOIN_STAT_remaining d.A) (d.freeNat 0))
  | none => .refused .noSuchUnit

/-- REJOIN_COPY_DONE (R861–R864): every line is copied, `late` change images being not yet installed; the anchor names the join tick. -/
def execRejoinCopyDone (late : Nat) (s : State) : Out := s.doing fun d =>
  match d.anchorSt.rejoin with
  | some x =>
    if x.phase ≠ 3 then .refused .noSuchUnit
    else if 4096 < late then .next d.rejoinFail
    else
      let joinAt := (d.tick + 2) % 2 ^ 48
      .next (((d.rejoinPhase 4).clr (CHP_REJOIN_STAT_remaining d.A)).modA (fun a => { a with rejoin := some { x with phase := 4, joinAt } }))
  | none => .refused .noSuchUnit

/-- MISSED_SHUTTER_CHECK (R868): 200 ns after a shutter, the standby counts it as missed where nothing of the anchor has reached it, unless
one of its modules trains, is in REPAIR or is within a retry episode. -/
def execMissedShutterCheck (retry : Bool) (s : State) : Out := s.doing fun d =>
  let q := Dev.R d.standby
  if d.standby = d.A then .refused .noSuchUnit
  else if (d.g q).commit.heard ≠ [] then
    .next ((d.clr (RGN_FAILOVER_STAT_missed q.val)).modCommit q (fun c => { c with heard := [] }))
  else if retry || (List.range 6).any (fun m => d.linkState q.val m == 1 || d.linkState q.val m == 3) then
    let d := d.addSat (RGN_FAILOVER_STAT_deferred q.val) 1
    .next (d.journalAs q 0x0406 3 q.val 0 (bytesLE 1 (d.fld (RGN_FAILOVER_STAT_deferred q.val))))
  else .next (d.setFld (RGN_FAILOVER_STAT_missed q.val) (min 4 (d.fld (RGN_FAILOVER_STAT_missed q.val) + 1)))

/-- MP_FAILURE (R872): an MP halts, cause 1 lockstep or 2 SRAM; the primary resets it, or the anchor's role ends where it is the anchor's. -/
def execMpFailure (r : Region) (cause : Nat) (s : State) : Out := s.doing fun d =>
  if !d.mladus r.val || d.fld (RGN_MP_STAT_state r.val) != 0 then .refused .noSuchUnit
  else
    let live := d.anchorLive && r.val != d.A
    let d := (d.setFld (RGN_MP_STAT_state r.val) 1).journalRegion r 0x0306 (bytesLE 1 cause)
    let d := match regionEndpoint r.val with
      | some e => d.mailOffline e
      | none => d
    .next (if live then d.mpRestart r else d)

/-- MP_RESTART_DONE (R872): the MP runs as an agent again. -/
def execMpRestartDone (r : Region) (s : State) : Out := s.doing fun d =>
  if d.fld (RGN_MP_STAT_state r.val) ≠ 2 then .refused .noSuchUnit
  else
    let d := ((d.clr (RGN_MP_STAT_state r.val)).addSat (RGN_MP_STAT_restarts r.val) 1).journalRegion r 0x0307 []
    .next (match regionEndpoint r.val with
      | some e => d.mailOnline e
      | none => d)

/-- JOURNAL_SUPPRESS (R877): a millisecond ends; one entry counts those that were not written in it. -/
def execJournalSuppress (r : Region) (s : State) : Out := s.run fun d =>
  let n := (d.g r).journal.dropped
  let d := d.modJnl r (fun j => { j with written := 0, dropped := 0 })
  if n = 0 then d else d.jnlWrite r 0x0001 2 r.val 0 (bytesLE 4 n)

/-- FAULT_ACK (R879): a write of 1 to CHP_FAULT_CTL.ack acknowledges the entries written so far. -/
def Dev.faultAck (d : Dev) : Dev :=
  (d.clr (CHP_FAULT_CTL_fault_n d.A)).each (List.finRange 8) (fun r d => d.clr (RGN_JNL_STAT_unacked r.val))

/-- FAULT_ACK (R879). -/
def execFaultAck (s : State) : Out := s.run fun d => d.faultAck

/-- GUEST_CURRENT_LIMIT (R889): a guest die that draws too much is fenced with cause GUEST_CONTRACT. -/
def execGuestCurrentLimit (r : Region) (s : State) : Out := s.doing fun d =>
  if d.guest r.val && d.present r.val then .next ((d.setOn (CHP_SUPPLY_ERR_guest_limit d.A)).dueFence r 0x09) else .refused .noSuchUnit

end Sys2Proof.Machine
end

