-- ==== Sys2Proof/Machine/Boot.lean ====
section
/-!
DEFINITION. Bring-up: reset release, fuses, the ROM loader and its image (R741, R813–R823), the life cycle (R824–R826), tamper (R827), and the
thermal and supply samples (R897, R898, R904).
-/

namespace Sys2Proof.Machine

namespace Dev

/-! ### The loader's state (R816) -/

/-- The loader's state, which three registers show. -/
def loader (d : Dev) : Nat := d.fld (CHP_BOOT_STAT_state d.A)
def setLoader (d : Dev) (v : Nat) : Dev :=
  ((d.eachChip (fun r d => d.setFld (CHP_BOOT_STAT_state r) v)).setFld (HST_LDR_STAT_state 0) v).setFld (HST_LDR_STAT_state 1) v

/-- Record why an image was rejected; 0 for none. -/
def setReject (d : Dev) (v : Nat) : Dev := (d.setFld (HST_LDR_STAT_reject 0) v).setFld (HST_LDR_STAT_reject 1) v

/-- The fabric address of a byte of the image space: the anchor's packet buffer (R817). -/
def imageAddr (d : Dev) (x : Nat) : Nat := d.A * 2 ^ 44 + 0xB0000000000 + x

/-- Whether the SPI port takes the loader's commands (R741). -/
def spiLoads (d : Dev) : Bool := d.mode == .load && d.on (CHP_STRAPS_boot_src d.A) && d.lifeCycle != 5

/-- Whether the image space may be written (R816). -/
def imageOpen (d : Dev) : Bool := d.loader == 2 || d.loader == 0xE

/-- START from a source: PCIe or the SPI port, as BOOT_SRC selects (R818). -/
def bootStart (d : Dev) (spi : Bool) : Dev :=
  if d.on (CHP_STRAPS_boot_src d.A) = spi ∧ d.imageOpen then (d.setReject 0).setLoader 3 else d

/-! ### Images (R819, R820) -/

/-- The bytes of the owner key hash (R846). -/
def ownerHash (d : Dev) : List Byte := (List.range 12).flatMap (fun k => bytesLE 4 (d.reg (CHP_LC_KEY d.A k)).toNat)

/-- Whether the life-cycle state that governs images accepts a key (R820, R824). -/
def keyAccepted (d : Dev) (key : List Byte) : Bool :=
  match d.chip.imageState with
  | 1 => key == Config.romKey 1
  | 2 | 3 => Crypto.sha 64 key == d.ownerHash
  | 4 => key == Config.romKey 4
  | _ => false

/-- The reject cause of the image at an address, 0 where it is accepted (R819, R820): a Thody image or region program images. -/
def imageCheck (d : Dev) (a : Nat) (programs : Bool) : Nat :=
  let length := d.le (a + 0xC) 4
  let flags := d.le (a + 0x10) 4
  let key := d.bytes (a + 0x18) 96
  let digest := Crypto.sha 64 (d.bytes a 0x78 ++ d.bytes (a + 0xD8) 0x28 ++ d.bytes (a + 0x100) length)
  if d.chip.imageState = 5 then 5
  else if d.le a 4 ≠ 0x59444854 ∨ d.le (a + 4) 4 ≠ 2 ∨ d.bytes (a + 0xD8) 0x28 ≠ padTo 0x28 [] then 1
  else if length = 0 ∨ 16776960 < length ∨ flags % 4 = 3 ∨ 8 ≤ flags ∨ bitOf flags 2 ≠ programs ∨ length ≤ d.le (a + 0x14) 4 then 2
  else if !d.keyAccepted key then 3
  else if !Config.signatureValid digest (d.bytes (a + 0x78) 96) key then 4
  else 0

/-- Load the region program images into the instruction stores (R822). -/
def loadPrograms (d : Dev) (body : List Byte) : Dev :=
  d.each (Config.programParts body) (fun part d =>
    (List.range part.2.length).foldl (fun d i =>
      let a := part.1 + i
      match placeOf (a % 2 ^ 44) with
      | .istore _ _ => if a < 2 ^ 47 ∧ d.mladus (a / 2 ^ 44) then d.setByte a (part.2.getD i 0) else d
      | _ => d) d)

/-- Take the optional image of region program images (R822): one that fails leaves the instruction stores as they are, and the failure is
journalled with an entry code that the spec does not state. -/
def takePrograms (d : Dev) : Dev :=
  let a := d.imageAddr 0x1000000
  if d.le a 4 ≠ 0x59444854 then d
  else if d.imageCheck a true = 0 ∧ d.bytes (a + 0x18) 96 = d.bytes (d.imageAddr 0x18) 96 then
    d.loadPrograms (d.bytes (a + 0x100) (d.le (a + 0xC) 4))
  else d.journalChip (d.freeNat 0) d.A (d.freeNat 1) []

/-! ### Reset release (R813, R874, R898) -/

/-- The boot field of the last entry of a region's journal, plus one (R875). -/
def bootNumber (d : Dev) (r : Region) : Nat :=
  let line := (d.g r).journal.line
  let last := if line = 256 then 16383 else line - 1
  if d.fld (RGN_JNL_HEAD_number r.val) = 0 then 1 else (d.le (jnlKey r.val last + 14) 2 + 1) % 2 ^ 16

/-- The highest trip count of the journals (R898). -/
def tripCount (d : Dev) : Nat := (d.mladusRegions.map (fun r => (d.byte (jnlKey r.val 255)).toNat)).foldl max 0

/-- The end of a reset of the part (R813): straps latched at power-on, the cause written, the journals found, the loader reads the fuses. -/
def release (d : Dev) (straps : Nat) : Dev :=
  let cause := d.chip.cause
  let d := if cause = 1 then
      let trips := d.tripCount
      d.eachChip (fun r d => (d.setReg (CHP_STRAPS r) (BitVec.ofNat 32 straps &&& 0x777#32)).setFld (CHP_THERM_STAT_trips r) trips)
    else d
  let a1 := d.fld (CHP_STRAPS_compat_a1 d.A)
  let d := d.eachChip (fun r d => (d.setFld (CHP_RST_CAUSE_cause r) cause).setFld (CHP_COMPAT_a1 r) a1)
  let d := (d.setFld (HST_MB_FRAME_v1 0) a1).setFld (HST_MB_FRAME_v1 1) a1
  let d := d.each d.mladusRegions (fun r d => d.modJnl r (fun j => { j with boot := d.bootNumber r }))
  { d with chip := { d.chip with phase := 0 } }.setLoader 1

/-! ### The life cycle (R824–R826) -/

/-- A life-cycle record in lines 0–254 of the anchor's journal (R826, R874): its line and its bytes are left open. -/
def lcRecord (d : Dev) (i : Nat) : Dev := d.setBytes (jnlKey d.A (d.freeNat i % 255)) (bytesLE 64 (d.freeNat (i + 1)))

/-- A life-cycle state is in force; in RETURNED the size of every secure partition is held at zero (R824). -/
def setLifeCycle (d : Dev) (v : Nat) : Dev :=
  let d := d.eachChip (fun r d => d.setFld (CHP_LC_STAT_state r) v)
  if v = 4 then
    d.each d.mladusRegions (fun r d => d.each (List.range 16) (fun b d => d.clr (BLK_SEC_CTL_size r.val b)))
  else d

/-- An advance is complete (R825, R826). -/
def advanceDone (d : Dev) (v : Nat) : Dev :=
  let d := { (d.setLifeCycle v).lcRecord 0 with chip := { d.chip with advance := none } }
  d.raise d.anchor 0x3F6

/-! ### Tamper (R827) -/

/-- A sensing of tamper in a region. -/
def tamper (d : Dev) (r : Region) (sensors : Nat) : Dev :=
  let resets := sensors &&& d.fld (CHP_TAMPER_CTL_reset d.A)
  let d := (d.wipeAll 1).eachChip (fun q d =>
    (d.setFld (CHP_TAMPER_STAT_sensors q) (d.fld (CHP_TAMPER_STAT_sensors q) ||| sensors)).setFld (CHP_TAMPER_STAT_regions q)
      (withBit (d.fld (CHP_TAMPER_STAT_regions q)) r.val true))
  let d := d.setFld (RGN_SEC_TAMPER_live r.val) (d.fld (RGN_SEC_TAMPER_live r.val) ||| sensors)
  let d := d.each d.mladusRegions (fun q d => d.raise q 0x3F0)
  let detail := bytesLE 1 sensors ++ bytesLE 1 (2 ^ r.val)
  let d := d.journalAs r 0x0408 3 r.val 0 detail
  let d := if r = d.anchor then d else d.journalChip 0x0408 r.val 0 detail
  let d := d.setOn (CHP_FAULT_CTL_fault_n d.A)
  if resets ≠ 0 then d.partReset 5 2 else d

/-! ### Temperature (R897, R898), in units of 0.125 °C -/

/-- The top and the bottom of the part's grade (R8, R67). -/
def gradeTop (d : Dev) : Int := if d.fld (CHP_ID_temp_grade d.A) = 2 then 110 * 8 else 105 * 8
def gradeBottom (d : Dev) : Int := if d.fld (CHP_ID_temp_grade d.A) = 2 then -5 * 8 else 0

/-- A signed 16-bit field's bits. -/
def bits16 (x : Int) : Nat := (x % 2 ^ 16).toNat

/-- The region with the highest temperature of a sample, the lowest number where several have it. -/
def hottest (d : Dev) (temps : List Int) : Option (Region × Int) :=
  d.mladusRegions.foldl (fun best r =>
    let t := temps.getD r.val 0
    match best with
    | some b => if b.2 < t then some (r, t) else best
    | none => some (r, t)) none

/-- Add one to the trip count of every Mladus region's journal (R898). -/
def countTrip (d : Dev) : Dev :=
  d.each d.mladusRegions (fun r d => d.setByte (jnlKey r.val 255) (BitVec.ofNat 8 (min 255 ((d.byte (jnlKey r.val 255)).toNat + 1))))

/-- Sense the temperature of each region: a sensing begins where a region leaves the range, and lasts while it is outside. -/
def senseTemps (d : Dev) (temps : List Int) : Dev :=
  d.each d.mladusRegions (fun r d =>
    let t := temps.getD r.val 0
    let out := d.gradeTop + 80 < t || t < d.gradeBottom - 80
    let was := bitOf (d.fld (RGN_SEC_TAMPER_live r.val)) 2
    let d := d.setFld (RGN_SEC_TAMPER_live r.val) (if out then 4 else 0)
    if out && !was then d.tamper r 4 else d)

/-- The registers that show a sample: every region's temperature, and the hottest region with its own. -/
def showTemps (d : Dev) (temps : List Int) (r : Region) (t : Int) : Dev :=
  ((d.each d.mladusRegions (fun q d => d.setFld (RGN_TEMP_temp q.val) (bits16 (temps.getD q.val 0)))).setFld
    (CHP_THERM_STAT_region d.A) r.val).setFld (CHP_THERM_STAT_temp d.A) (bits16 t)

/-- Whether a temperature has reached the warning level, and the critical one, which it leaves 5 °C below its rise. -/
def warnAt (d : Dev) (t : Int) : Bool := decide (d.gradeTop - 8 * (d.fld (CHP_THERM_CFG_warn_margin d.A) : Int) ≤ t)
def critAt (d : Dev) (t : Int) : Bool := decide (d.gradeTop ≤ t) || (d.chip.critHigh && decide (d.gradeTop - 40 ≤ t))

/-- The warning and the critical level, each of which interrupts as it is entered. -/
def thermLevels (d : Dev) (warn crit : Bool) : Dev :=
  let d := d.when (warn && !d.chip.warnHigh) (·.raise d.anchor 0x3F1)
  let d := d.when (crit && !d.chip.critHigh) (·.raise d.anchor 0x3F2)
  { d with chip := { d.chip with warnHigh := warn, critHigh := crit } }

/-- One sample of the junction temperatures. -/
def thermSample (d : Dev) (temps : List Int) : Dev :=
  match d.hottest temps with
  | none => d
  | some (r, t) =>
    let d := d.showTemps temps r t
    let d := d.thermLevels (d.warnAt t) (d.critAt t)
    if d.gradeTop + 120 ≤ t then d.countTrip.partReset 1 3 else d.senseTemps temps

end Dev

/-! ### Commands -/

/-- RESET_RELEASE (R813): t0. The operand is the levels of the straps, as CHP_STRAPS shows them. -/
def execResetRelease (straps : Word) (s : State) : Out := s.doing fun d =>
  if d.chip.phase = 2 then .next (d.release straps.toNat) else .refused .noSuchUnit

/-- FUSE_LOAD_DONE (R71, R814, R816, R825, R826): the fuses are loaded, the anchor and the standby are fixed, and the loader waits for an image. -/
def execFuseLoadDone (failed : Bool) (s : State) : Out := s.doing fun d =>
  if d.loader ≠ 1 ∨ d.chip.phase ≠ 0 then .refused .noSuchUnit
  else if failed then .next (d.setLoader 0xF)
  else
    let sel := d.fld (CHP_STRAPS_anchor_sel 0)
    let alt := d.fld (CHP_STRAPS_anchor_alt 0)
    let okA := d.mladus sel
    let anchor := if okA then sel else 0
    let okB := d.mladus alt && alt != anchor
    let standby := if okB then alt else if anchor = 4 then 0 else 4
    let d := ({ d with anchor := Dev.R anchor }).each (List.finRange 8) (fun r d => d.modCommit r (fun c => { c with anchorSeen := anchor }))
    let d := d.eachChip (fun r d => (d.setFld (CHP_SHUTTER_STAT_anchor r) anchor).setFld (CHP_SHUTTER_STAT_standby r) standby)
    let d := d.when (!(okA && okB)) (fun d => d.setOn (CHP_ID_ERR_strap_conflict d.A))
    let mask := (d.mladusRegions.map (fun r => 2 ^ r.val)).sum
    let d := d.when (d.chip.cause == 1) (·.eachChip (fun r d => d.setFld (CHP_COMMIT_MEMBERS_committing r) mask))   -- R145, R830
    let d := match d.chip.advance with
      | some v => if d.freeNat 2 % 2 = 1 then { (d.setLifeCycle v).lcRecord 0 with chip := { d.chip with advance := none } }
          else { d.lcRecord 0 with chip := { d.chip with advance := none } }
      | none => d
    let d := { d with chip := { d.chip with imageState := d.lifeCycle } }
    let d := d.each d.mladusRegions (fun r d => d.each ((List.range 6).filter (fun m => (d.facing r.val m).isSome))
      (fun m d => if d.on (RGN_CF_LINK_req_up r.val m) then d.setLinkState r.val m 1 else d))
    .next ((d.each d.mladusRegions (fun r d => d.firstRoute r.val)).setLoader 2)

/-- LDR_START (R818, R848): a write of 1 to HST_LDR_CTL.start. -/
def execLdrStart (e : Endpoint) (s : State) : Out := s.run fun d =>
  if d.present (Dev.epPos e) then d.bootStart false else d

/-- START (R741, R818): the SPI command. -/
def execStart (s : State) : Out := s.run fun d => if d.spiLoads then d.bootStart true else d

/-- READ_ID (R741): CHP_ID, the most significant byte first. -/
def execReadId (s : State) : Out := s.run fun d => d.emit (.spi (bytesBE 4 (d.reg (CHP_ID d.A)).toNat))

/-- READ_STATUS (R741, R816): busy, accepted, rejected and the loader's state. -/
def execReadStatus (s : State) : Out := s.run fun d =>
  let v := d.loader
  d.emit (.spi (bytesLE 1 (v * 16 + (if v = 3 then 1 else 0) + (if 4 ≤ v ∧ v ≤ 6 then 2 else 0) + (if v = 0xE then 4 else 0))))

/-- WRITE (R741): the bytes of one 256-byte page of the image space. -/
def execWrite (addr : Nat) (data : List Byte) (s : State) : Out := s.run fun d =>
  if d.spiLoads && d.imageOpen && addr < 0x2000000 then d.setBytes (d.imageAddr addr) (data.take (256 - addr % 256)) else d

/-- READ (R741): bytes of the image space; what lies beyond it is left open. -/
def execRead (addr len : Nat) (s : State) : Out := s.run fun d =>
  if d.spiLoads then
    d.emit (.spi ((List.range len).map (fun i =>
      if addr + i < 0x2000000 then d.byte (d.imageAddr (addr + i)) else BitVec.ofNat 8 (d.freeNat i))))
  else d

/-- AUTH_COMPLETE (R819–R821): the image at address 0 is accepted, and CHP_COMPAT follows its flags, or it is rejected. -/
def execAuthComplete (s : State) : Out := s.doing fun d =>
  if d.loader ≠ 3 then .refused .noSuchUnit
  else
    let a := d.imageAddr 0
    let cause := d.imageCheck a false
    if cause ≠ 0 then .next ((d.setReject cause).setLoader 0xE)
    else
      let d := { d with thody := { d.thody with release := BitVec.ofNat 32 (d.le (a + 8) 4) } }
      let d := match d.le (a + 0x10) 4 % 4 with
        | 1 => d.setCompat 0
        | 2 => d.setCompat 1
        | _ => d
      .next (d.setLoader 4)

/-- HBM_INIT_DONE (R632, R814, R816): the initialisation pass is complete. While the loader starts the part the training goes before it, and
the loader is in its self-test (DEDUCED, log entry 158). -/
def execHbmInitDone (r : Region) (s : State) : Out := s.doing fun d =>
  if d.hbmState r.val = 2 then .next (d.becomeReady r)
  else if (d.loader = 4 ∨ d.loader = 5) ∧ d.hbmState r.val < 2 ∧ bitOf (d.fld (CHP_POPULATION_hbm d.A)) r.val ∧ d.mladus r.val then
    .next ((d.becomeReady r).setLoader 5)
  else .refused .noSuchUnit

/-- LOADER_HANDOVER (R814, R816, R821–R823): the masks name the regions that failed BIST and the stacks that failed training; the effective
mode becomes CONFIGURE and Thody serves its mailboxes. -/
def execLoaderHandover (bist training : Nat) (bootMs : Nat) (s : State) : Out := s.doing fun d =>
  if d.loader ≠ 4 ∧ d.loader ≠ 5 then .refused .noSuchUnit
  else if bitOf bist d.A then .next (d.setLoader 0xF)
  else
    let d := d.takePrograms
    let d := d.each d.mladusRegions (fun r d =>
      if !bitOf (d.fld (CHP_POPULATION_hbm d.A)) r.val || d.stackFailed r.val then d
      else if bitOf training r.val then d.failStack r 1 else d.setFld (RGN_HBM_STAT_state r.val) 3)
    let d := d.each (d.mladusRegions.filter (fun r => bitOf bist r.val)) (fun r d =>
      (d.fenceRegion r 7).journal r 0x030A (unitId 4 r.val 0) (bytesLE 4 (d.freeNat (10 + r.val))))
    let d := (d.each (List.finRange 8) (fun r d => d.modR r (fun g => { g with mode := .configure }))).setFld (CHP_MODE_STAT_effective d.A) 1
    let d := (d.setLoader 6).setFld (CHP_BOOT_STAT_boot_ms d.A) (min 0xFFFF bootMs)
    .next (d.each ((List.finRange 2).filter (fun e => d.mladus (Dev.epPos e) && !d.fenced (Dev.epPos e))) (fun e d => d.mailStart e))

namespace Dev

/-- A temperature that no die gives (R742). -/
def noTemp : List Byte := bytesLE 2 0x8000

/-- What the SMBus port answers to a read or a write of a command code (R742): the bytes of a read, the low byte of a word first, and `none` for
a NACK. It answers reads alone, from the release of a reset on, in every mode. The order of a block's bytes is not stated; it is that of
R20 (DEDUCED, log entry 131). -/
def smbus (d : Dev) (write : Bool) (code : Nat) : Option (List Byte) :=
  if write ∨ d.chip.phase ≠ 0 then none
  else match code with
    | 0x01 => some (bytesLE 4 (d.reg (CHP_ID d.A)).toNat)
    | 0x02 => some (bytesLE 2 (d.mode.code + d.A * 2 ^ 8 + d.fld (CHP_FAULT_CTL_fault_n d.A) * 2 ^ 15))
    | 0x03 => some (bytesLE 2 (d.fld (CHP_THERM_STAT_temp d.A)))
    | 0x20 => some (bytesLE 2 (d.fld (CHP_VIN_STAT_vin d.A)))
    | 0x21 => some (bytesLE 2 (d.fld (CHP_VIN_STAT_i_vin d.A)))
    | 0x22 => some (bytesLE 2 (d.fld (CHP_PWR_STAT_power d.A)))
    | 0x23 => some (bytesLE 2 d.lifeCycle)
    | 0x24 => some (bytesLE 2 (d.fld (CHP_COMMIT_MEMBERS_fenced d.A) + d.fld (CHP_COMMIT_MEMBERS_absent d.A) * 2 ^ 8))
    | c =>
      if 0x10 ≤ c ∧ c < 0x18 then some (if d.present (c - 0x10) then bytesLE 2 (d.fld (RGN_TEMP_temp (c - 0x10))) else noTemp)
      else if 0x18 ≤ c ∧ c < 0x20 then
        some (if bitOf (d.fld (CHP_POPULATION_hbm d.A)) (c - 0x18) then bytesLE 2 (8 * d.fld (RGN_HBM_STAT_temp (c - 0x18))) else noTemp)
      else none

end Dev

/-- TAMPER_SENSE (R827): a region senses tamper; bit 0 VIN, 1 clock, 2 temperature, 3 crack. -/
def execTamperSense (r : Region) (sensors : Fin 16) (s : State) : Out := s.doing fun d =>
  if d.mladus r.val && sensors.val != 0 && d.chip.phase == 0 then .next (d.tamper r sensors.val) else .refused .noSuchUnit

/-- THERM_SAMPLE (R897, R898): the highest junction temperature of each region. -/
def execThermSample (temps : List Int) (s : State) : Out := s.run fun d => if d.chip.phase = 0 then d.thermSample temps else d

/-- SUPPLY_SAMPLE (R904): VIN in mV, I_VIN in 0.1 A, package power in W; `low` is a dip of VIN below 1.746 V without a reset. -/
def execSupplySample (vin current power : Nat) (low : Bool) (s : State) : Out := s.run fun d =>
  let a := d.A
  let d := ((d.setFld (CHP_VIN_STAT_vin a) (min 0xFFFF vin)).setFld (CHP_VIN_STAT_i_vin a) (min 0xFFFF current)).setFld (CHP_PWR_STAT_power a)
    (min 0xFFFF power)
  (d.maxFld (CHP_PWR_STAT_peak a) power).when low (fun d => d.setOn (CHP_SUPPLY_ERR_vin_low d.A))

/-- LC_ADVANCE_DONE (R825, R826): the advance that runs is complete; one to DECOMMISSIONED ends with a cold reset. -/
def execLcAdvanceDone (s : State) : Out := s.doing fun d =>
  match d.chip.advance with
  | none => .refused .noSuchUnit
  | some v =>
    let d := d.advanceDone v
    let jobs := d.runningJobs.filter (fun j => j.kind == .advance v)
    let d := d.each jobs (fun j d => d.endJob j.num stOk 0 (bytesLE 1 v))
    .next (if v = 5 then (d.each (d.thody.jobs.filter (·.state == 1)) (fun j d => d.jobPosted j)).partReset 6 2 else d)

end Sys2Proof.Machine
end

