-- ==== Sys2Proof/Machine/RegWrite.lean ====
section
/-!
DEFINITION. What a write and a read of any register do: the access codes, the conditions and ranges of every field, the reports of
rejected writes, register pairs, and the registers that show something computed (R24–R31, R906, R908).
-/

namespace Sys2Proof.Machine

/-- What a register write answers: the part, and whether the register took the write (R772). -/
abbrev Wr := Dev × Bool

/-! ### Register pairs (R24) -/

/-- The pairs of a space: the offsets of the lower and of the upper register. -/
def pairsOf (l : Loc) : List (Nat × Nat) :=
  match l with
  | .region _ _ => [(0x100018, 0x10001C), (0x40000C, 0x400018), (0x5F0100, 0x5F0104), (0x600038, 0x60003C), (0x900004, 0x900008),
      (0x90000C, 0x900010), (0x900014, 0x900018), (0x900800, 0x900804)]
  | .chip _ _ => [(0x10004, 0x10008), (0x20004, 0x20008), (0x2000C, 0x20010), (0x20014, 0x20018), (0x20410, 0x20414),
      (0x20420, 0x20424), (0x30008, 0x3000C), (0x30010, 0x30014), (0x30024, 0x30028), (0x30044, 0x30048), (0x30060, 0x30064),
      (0x3006C, 0x30070), (0x71000, 0x71004)]
  | .block _ _ _ => [(0x2018, 0x201C), (0x3004, 0x3008), (0x300C, 0x3010), (0x3014, 0x3018)]
  | .bar0 _ _ => [(0x400000, 0x400004), (0x800000, 0x800004), (0x800008, 0x80000C)]
  | .csr _ _ => [(0x7D4, 0x7D5)]
  | .elsewhere => []

/-- The address of the upper register of the pair whose lower register stands at `a`. -/
def upperOf (a : Nat) (e : RegDesc) : Option Nat := ((pairsOf (locOf a)).find? (fun p => p.1 == e.off)).map (fun p => a + (p.2 - p.1))

/-- The address of the lower register of the pair whose upper register stands at `a`. -/
def lowerOf (a : Nat) (e : RegDesc) : Option Nat := ((pairsOf (locOf a)).find? (fun p => p.2 == e.off)).map (fun p => a - (p.2 - p.1))

/-! ### What an address announces -/

/-- The rows of an indexed register that a region has: requesters with a quota, and the host's vectors, order profiles and learning port
(R202, R354, R601, R808). The rows that it lacks read zero and ignore writes; whether such a write also sets reg_addr_err the spec leaves
open, and no bit is set here (DESIGN CHOICE, log entry 129). -/
def announcedAt (l : Loc) (e : RegDesc) : Bool :=
  match l with
  | .region r off =>
    match e.off with
    | 0x8000 => r == 0 || r == 4
    | 0x101000 | 0x101004 => Dev.hasQuota (e.index off)
    | 0x308000 => decide (e.index off < 64) || r == 0 || r == 4
    | 0x402000 | 0x402004 | 0x402008 | 0x40200C | 0x402010 => e.index off != 8 || r == 0 || r == 4
    | _ => true
  | _ => true

/-- The descriptor of the register that an address announces. -/
def announced (a : Nat) : Option RegDesc := (descAt a).filter (announcedAt (locOf a))

/-- The low bits of the fields that are refused. -/
def lows (l : List (Bool × Nat)) : List Nat := (l.filter (·.1)).map (·.2)

/-- The highest index of a unit kind, plus one; zero for an invalid kind (R778). -/
def unitLimit (kind : Nat) : Nat :=
  match kind with
  | 1 => 8 | 2 => 4096 | 3 => 16 | 4 => 1 | 5 => 6 | 6 => 256 | _ => 0

/-- Whether a counter of a level (0 block, 1 region, 2 chip) may select an event with a qualifier (R803, R804); the events of
mailboxes exist in regions 0 and 4. With `all` set the qualifier is ignored; an event without a qualifier takes only zero. -/
def monDefined (level r sel qual : Nat) (all : Bool) : Bool :=
  let q (b : Bool) : Bool := all || b
  let c := q (qual % 256 / 32 < 8 && qual % 32 ≤ 16)
  let block (b : Bool) : Bool := b
  let region (b : Bool) : Bool := level ≥ 1 && b
  let chip (b : Bool) : Bool := level == 2 && b
  let ok := match sel with
    | 0x000 | 0x001 | 0x002 => q (qual == 0)
    | 0x010 | 0x011 | 0x012 | 0x013 | 0x014 | 0x015 | 0x016 | 0x017 | 0x018 | 0x019 | 0x01A | 0x01B | 0x01C | 0x01D | 0x01E => block c
    | 0x020 | 0x021 | 0x022 | 0x023 | 0x024 | 0x025 | 0x026 => block (q (qual < 16))
    | 0x100 => region (q (qual ≤ 8))
    | 0x101 => region (q (1 ≤ qual && qual ≤ 0x11))
    | 0x102 => region (q (1 ≤ qual && qual ≤ 4))
    | 0x103 => region (q (qual ≤ 1))
    | 0x110 | 0x111 => region (q (qual < 0x110))
    | 0x113 | 0x120 | 0x121 => region (q (qual < 256))
    | 0x112 | 0x122 | 0x123 | 0x124 | 0x152 | 0x162 => region (q (qual == 0))
    | 0x125 => region (q (qual ≤ 5))
    | 0x126 => region (q (qual ≤ 0xB))
    | 0x127 => region (q (qual / 16 ≤ 8 && qual % 16 ≤ 9))
    | 0x130 | 0x131 => region (q (qual < 2048 && requesterNamed (qual / 256) (qual % 256)))
    | 0x132 => region (q (1 ≤ qual && qual ≤ 4))
    | 0x140 | 0x142 => region true
    | 0x141 => region (q (qual < 8))
    | 0x143 => region (q (qual < 64))
    | 0x150 | 0x151 | 0x160 | 0x161 => region (q (qual < 6))
    | 0x170 => region (q (qual < 1024))
    | 0x171 => region (q (qual ≤ 0x80))
    | 0x180 => region ((r == 0 || r == 4) && q (qual < 32))
    | 0x300 | 0x304 | 0x305 | 0x306 => chip (q (qual == 0))
    | 0x301 | 0x302 | 0x303 => chip (q (qual < 8))
    | _ => false
  ok

/-- The events that are conditions, which alone DURATION counts (R802, R804). -/
def monCondition (sel : Nat) : Bool := [0x001, 0x01D, 0x026, 0x112, 0x113, 0x143].contains sel

namespace Dev

/-! ### Reports (R906) -/

/-- The bit that a write to an unassigned offset sets. -/
def addrErr (d : Dev) (l : Loc) : Dev :=
  match l with
  | .region r off =>
    match off / 0x100000 with
    | 0 => d.setOn (RGN_IRQ_ERR_reg_addr_err r)
    | 1 => d.setOn (RGN_BPM_ERR_reg_addr_err r)
    | 2 => d.setOn (RGN_DSP_ERR_reg_addr_err r)
    | 3 => d.setOn (RGN_FE_ERR_reg_addr_err r)
    | 4 => d.setOn (RGN_TBL_ERR_reg_addr_err r)
    | 5 => d.setOn (if off < 0x5F0000 then RGN_EQ_ERR_reg_addr_err r else RGN_RELEASE_ERR_reg_addr_err r)
    | 6 => d.setOn (RGN_HBM_ERR_reg_addr_err r)
    | 7 => d.setOn (if 0x7C0000 ≤ off ∧ off < 0x7C2000 then RGN_RCH_ERR_reg_addr_err r else RGN_CF_ERR_reg_addr_err r)
    | 8 => d.setOn (RGN_PORT_ERR_reg_addr_err r)
    | 9 => d.setOn (RGN_MON_ERR_reg_addr_err r)
    | 10 => d.setOn (RGN_PWR_ERR_reg_addr_err r)
    | 11 => d.setOn (RGN_COMMIT_ERR_reg_addr_err r)
    | 12 => d.setOn (RGN_LDG_ERR_reg_addr_err r)
    | _ => d.setOn (RGN_JNL_STAT_reg_addr_err r)
  | .chip a off =>
    match off / 0x10000 with
    | 0 => d.setOn (CHP_ID_ERR_reg_addr_err a)
    | 1 => d.setOn (CHP_MODE_ERR_reg_addr_err a)
    | 2 => d.setOn (CHP_MON_ERR_reg_addr_err a)
    | 3 => d.setOn (CHP_COMMIT_ERR_reg_addr_err a)
    | 4 => d.setOn (CHP_LC_ERR_reg_addr_err a)
    | 5 => d.setOn (CHP_FENCE_ERR_reg_addr_err a)
    | 6 => d.setOn (CHP_SUPPLY_ERR_reg_addr_err a)
    | _ => d.setOn (CHP_HEP_ERR_reg_addr_err a)
  | .block r b off =>
    match off / 0x1000 with
    | 1 => d.setOn (BLK_CH_ERR_reg_addr_err r b)
    | 2 => d.setOn (BLK_MEM_ERR_reg_addr_err r b)
    | 3 => d.setOn (BLK_MON_ERR_reg_addr_err r b)
    | _ => d.setOn (BLK_CORE_ERR_reg_addr_err r b)
  | .bar0 e _ => d.setOn (HST_EP_ERR_reg_addr_err e)
  | .csr _ _ | .elsewhere => d

/-- The reports of a rejected field value, with the source that the owning chapter raises for it. -/
def coreRejected (d : Dev) (r : Region) (b : Nat) : Dev := d.err (BLK_CORE_ERR_cfg_rejected r.val b) r (0x83 + b * 8)
def bpmRejected (d : Dev) (r : Region) : Dev := d.err (RGN_BPM_ERR_cfg_rejected r.val) r 0x1C6
def dspRejected (d : Dev) (r : Region) : Dev := d.err (RGN_DSP_ERR_cfg_rejected r.val) r 0x183
def feRejected (d : Dev) (r : Region) : Dev := d.setOn (RGN_FE_ERR_cfg_rejected r.val)
def odRejected (d : Dev) (r : Region) : Dev := d.err (RGN_RELEASE_ERR_profile_rejected r.val) r 0x2F3
def tblRejected (d : Dev) (r : Region) : Dev := d.setOn (RGN_TBL_ERR_cfg_rejected r.val)
def descRejected (d : Dev) (r : Region) : Dev := d.err (RGN_TBL_ERR_desc_rejected r.val) r 0x140
def eqRejected (d : Dev) (r : Region) : Dev := d.err (RGN_EQ_ERR_cfg_rejected r.val) r 0x201
def cfRejected (d : Dev) (r : Region) : Dev := d.err (RGN_CF_ERR_cfg_rejected r.val) r 0x349
def pwrRejected (d : Dev) (r : Region) : Dev := d.err (RGN_PWR_ERR_cfg_rejected r.val) r 0x3F8
def monRejected (d : Dev) (f : Fld) (r : Region) : Dev := (d.setOn f).irqCfgRejected r

/-! ### Plain writes -/

/-- Write a register by its access codes, without the fields refused; where one is refused, report it. -/
def put (d : Dev) (a : Nat) (e : RegDesc) (v : Nat) (refused : List Nat) (report : Dev → Dev) : Wr :=
  let d := d.setReg a (e.writeWord refused v (d.reg a))
  if refused = [] then (d, true) else (report d, false)

/-- Reject a write as a whole. -/
def reject (d : Dev) (report : Dev → Dev) : Wr := (report d, false)

/-- Write a register where the whole write passes, and reject it otherwise. -/
def putIf (ok : Bool) (d : Dev) (a : Nat) (e : RegDesc) (v : Nat) (report : Dev → Dev) : Wr :=
  if ok then d.put a e v [] id else d.reject report

/-- Go on after an accepted write only. -/
def thenIf (w : Wr) (f : Dev → Dev) : Wr := if w.2 then (f w.1, true) else w

/-- CONFIGURE or TEST, or DRAIN with no packet in flight (R172, R378, R509, R582). -/
def settled (d : Dev) (r : Region) : Bool :=
  (d.g r).mode.isOpen || ((d.g r).mode == .drain && (d.reg (RGN_INFLIGHT r.val)).toNat == 0)

/-- Write a monitor configuration (R801–R805): the enable, the mode and the selection are judged each on its own (R908). The mode is judged
with the event that then stands and with the counter's threshold (R812); an event that is no condition is rejected beside a DURATION that
stays (DESIGN CHOICE, log entry 130). -/
def monCfgWrite (d : Dev) (level r a : Nat) (e : RegDesc) (v : Nat) (report : Dev → Dev) : Wr :=
  let was := (d.reg a).toNat
  let region := if level = 2 then bitsOf v 18 16 else r
  let selOk := monDefined level region (bitsOf v 28 19) (bitsOf v 11 0) (bitOf v 12)
  let sel := if selOk then bitsOf v 28 19 else bitsOf was 28 19
  let mode := bitsOf v 30 29
  let modeOk := mode != 3 && (mode != 1 || monCondition sel) && (mode != 2 || d.pair (a + 0xC) (a + 0x10) != 0)
  let badSel := !selOk || (!modeOk && bitsOf was 30 29 == 1 && !monCondition sel)
  d.put a e v (lows [(!modeOk, 29), (badSel, 19), (badSel, 16), (badSel, 12), (badSel, 0)]) report

/-! ### The regions' sub-blocks -/

/-- The interrupt controller (R787–R808). -/
def irqWrite (d : Dev) (r : Region) (off a : Nat) (e : RegDesc) (v : Nat) : Wr :=
  match e.off with
  | 0x0 => (d.retarget r (e.index off) v, d.regionOk v && targetOk v)
  | 0x1080 => (d.irqEnable r (e.index off) v, true)
  | 0x1100 => (d.irqDisable r (e.index off) v, true)
  | 0x1200 => (d.irqPend r (e.index off) v, true)
  | 0x1280 => (d.irqUnpend r (e.index off) v, true)
  | 0x1404 =>
    thenIf (putIf (v % 256 ≤ 0x80) d a e v (·.irqCfgRejected r)) (fun d => d.each (d.irqPending r.val) (fun n d => d.deliver r n))
  | _ => d.put a e v [] id

/-- Whether a range of the HBM, in MiB, meets the deep pool (R311, R576). -/
def meetsDeep (d : Dev) (r : Nat) (base size : Nat) : Bool :=
  let b := d.fld (RGN_DEEP_CFG_base r)
  let n := 64 * d.fld (RGN_DEEP_CFG_units r)
  n != 0 && decide (base < b + n) && decide (b < base + size)

/-- The deep pool's place (R576): a change makes the pool whole again. -/
def deepWrite (d : Dev) (r : Region) (a : Nat) (e : RegDesc) (v : Nat) : Wr :=
  let badUnits := decide (128 < bitsOf v 31 24)
  let badBase := bitsOf v 14 0 % 64 != 0
  let units := if badUnits then d.fld (RGN_DEEP_CFG_units r.val) else bitsOf v 31 24
  let base := if badBase then d.fld (RGN_DEEP_CFG_base r.val) else bitsOf v 14 0
  let overlap := (List.range 256).any (fun n =>
    let t : TableDesc := ⟨d.reg (RGN_TBL_TYPE r.val n), d.reg (RGN_TBL_ALLOC r.val n), 0, 0⟩
    t.kind != 0 && t.kind != 3 && t.place == 1 && decide (t.base < base + 64 * units) && decide (base < t.base + t.size))
  let whole := !((d.g r).mode.isOpen && base + 64 * units ≤ 21504 && !(units != 0 && overlap))
  let same := units == d.fld (RGN_DEEP_CFG_units r.val) && base == d.fld (RGN_DEEP_CFG_base r.val)
  let w := d.put a e v (lows [(whole || badUnits, 24), (whole || badBase, 0)]) (·.bpmRejected r)
  (w.1.when (!whole && !same) (fun d => (d.modPool r (fun p => { p with
      desc := p.desc.filter (fun x => x.1 < 2 ^ 25), lists := p.lists.filter (fun x => x.1 < 8),
      caches := p.caches.filter (fun x => x.1 % 2 == 0), lost := p.lost.filter (fun x => x.1 < 2 ^ 25) })).setFld
      (RGN_DEEP_FREE_deep_free r.val) (d.poolSize r.val 1)), w.2)

/-- The buffer pool manager (R572, R576, R597–R602). -/
def bpmWrite (d : Dev) (r : Region) (a : Nat) (e : RegDesc) (v : Nat) : Wr :=
  match e.off with
  | 0x100000 => d.put a e v (lows [(131072 < v % 2 ^ 18, 0)]) (·.bpmRejected r)
  | 0x100008 => d.deepWrite r a e v
  | 0x102000 =>
    let opened := (d.g r).mode.isOpen
    d.put a e v (lows [(!opened, 31), (!opened || v % 128 < 1 || 64 < v % 128, 0)]) (·.bpmRejected r)
  | 0x102004 => thenIf (putIf (v % 2 ^ 16 < bitsOf v 31 16) d a e v (·.bpmRejected r)) (·.pfcCheckAll r)
  | _ => d.put a e v [] id

/-- The dispatcher (R499, R508–R517). -/
def dspWrite (d : Dev) (r : Region) (off a : Nat) (e : RegDesc) (v : Nat) : Wr :=
  let rep (d : Dev) : Dev := d.dspRejected r
  let closed := !d.settled r
  match e.off with
  | 0x200000 =>
    let w := d.put a e v (lows [(closed || 2048 < v % 2 ^ 14, 0)]) rep
    (w.1.pressure r, w.2)
  | 0x200004 =>
    let hi := bitsOf v 29 16
    thenIf (putIf (1 ≤ hi && hi ≤ d.generalPool r && v % 2 ^ 14 < hi) d a e v rep) (·.pressure r)
  | 0x200014 => (d.setFlags r (d.reg (RGN_DSP_FLAGS r.val) ||| BitVec.ofNat 32 v), true)
  | 0x200018 => (d.setFlags r (d.reg (RGN_DSP_FLAGS r.val) &&& ~~~(BitVec.ofNat 32 v)), true)
  | 0x200100 => d.put a e v (lows [(closed, 1), (closed, 0)]) rep
  | 0x200104 | 0x200108 => d.put a e v (lows [(closed, 0)]) rep
  | 0x201000 => thenIf (putIf (!closed) d a e (if e.index off = 0 then v % 2 ^ 31 + 2 ^ 31 else v) rep) (·.pressure r)
  | 0x201004 =>
    let hi := bitsOf v 29 16
    let depth := d.fld (RGN_DSP_QSTAT_depth r.val (e.index off))
    let rises := decide (hi ≤ depth) && decide (depth < d.fld (RGN_DSP_QTHR_q_hi r.val (e.index off)))
    thenIf (putIf (1 ≤ hi && hi ≤ 8192 && v % 2 ^ 14 < hi) d a e v rep) (fun d =>
      (d.when rises (·.event r 0x113 (e.index off))).pressure r)
  | _ => d.put a e v [] id

/-- RGN_PANE_WR (R217–R219, R246): the pane field is ignored while a session is open or a check code is computed; close comes before open. -/
def paneWrWrite (d : Dev) (r : Region) (v : Nat) : Wr :=
  let busy := (d.g r).front.session.isSome || (d.g r).front.codeBusy != []
  let d := if busy then d else d.setFld (RGN_PANE_WR_pane r.val) (bitsOf v 4 4)
  let (d, ok1) := if bitOf v 1 then d.paneClose r else (d, true)
  let (d, ok2) := if bitOf v 0 then d.paneOpen r (d.shownPane r) else (d, true)
  (d, ok1 && ok2)

/-- The front-end, order-profile and recirculation registers (R172, R203, R204, R243–R256). -/
def feWrite (d : Dev) (r : Region) (a : Nat) (e : RegDesc) (v : Nat) : Wr :=
  match e.off with
  | 0x300000 =>
    thenIf (putIf ((d.g r).mode.isOpen && v % 16 != 0) d a e v (·.setOn (RGN_FE_ERR_fe_ctl_rejected r.val)))
      (·.setFld (RGN_FE_STAT_fe_active r.val) (v % 16))
  | 0x300008 => d.paneWrWrite r v
  | 0x300040 => d.divWrite r 0 (BitVec.ofNat 32 v)
  | 0x300044 => d.divWrite r 1 (BitVec.ofNat 32 v)
  | 0x308000 => putIf (d.settled r) d a e v (·.odRejected r)
  | 0x308200 =>
    if !d.settled r then d.reject (·.odRejected r)
    else d.put a e v (lows [(v % 16 < 3 || 8 < v % 16, 0), (bitsOf v 10 8 < 1 || 4 < bitsOf v 10 8, 8)]) (·.feRejected r)
  | 0x308300 => d.put a e v (lows [(16000 < v % 2 ^ 14, 0)]) (·.feRejected r)
  | _ => d.put a e v [] id

/-! ### Table descriptors (R300–R314, R353) -/

/-- A descriptor as written, but for a field whose value no rule defines whatever the other fields hold, which stays as it was: a type
from 0xB and a quantum above 24 (R31, R300, R353). -/
def definedDesc (was t : TableDesc) : TableDesc :=
  { t with type := if 10 < t.kind then withField t.type 28 4 was.kind else t.type,
           age := if 24 < t.ageQ then withField t.age 26 5 was.ageQ else t.age }

/-- Whether the fields of a descriptor hold values that its type defines (R300, R353, R356): a type NONE bounds no length and no size. A
zero data_len is rejected for TCAM by R356, although R300 lists 0–24, DESIGN CHOICE (log 148). -/
def tableShape (t : TableDesc) : Bool :=
  let lens (k0 k1 v0 v1 : Nat) : Bool := decide (k0 ≤ t.keyLen ∧ t.keyLen ≤ k1) && decide (v0 ≤ t.dataLen ∧ t.dataLen ≤ v1)
  let hashedAge := t.kind == 1 || t.kind == 2
  decide (t.kind ≤ 10)
    && (match t.kind with
      | 1 => lens 1 48 0 24
      | 2 => lens 8 8 8 8
      | 3 => lens 8 8 0 0
      | 4 => lens 6 6 8 8
      | 5 => lens 18 18 8 8
      | 6 => lens 1 24 0 24
      | 7 => lens 1 20 1 24
      | 8 => lens 1 4 1 24
      | 9 | 10 => lens 1 4 0 0
      | _ => true)
    && ((t.place == 0 && !t.progOk) || t.kind == 1 || t.kind == 8)
    && (t.kind == 3 || t.viewOf == 0)
    && (t.kind == 0 || t.kind == 3 || t.size != 0)
    && (!t.ageEn || ((hashedAge || t.kind == 0) && t.ageLimit != 0)) && decide (t.ageQ ≤ 24)

/-- Whether a descriptor's slot holds its key and data (R302), and its place among the MAC tables and their views is admitted (R911): a
view has no allocation and names a MAC table, and a MAC table that a view names stays one. -/
def viewsOk (d : Dev) (r n : Nat) (t : TableDesc) : Bool :=
  let kindOf (m : Nat) : Nat := fieldOf (d.reg (RGN_TBL_TYPE r m)) 28 4
  (t.kind != 1 || decide (TableDesc.up8 t.keyLen + TableDesc.up8 t.dataLen + 8 ≤ 64))
    && (t.kind != 3 || (t.alloc == 0 && kindOf t.viewOf == 2))
    && !(kindOf n == 2 && t.kind != 2
      && (List.range 256).any (fun m => kindOf m == 3 && fieldOf (d.reg (RGN_TBL_TYPE r m)) 0 8 == n))

/-- The store of a table: 0 table SRAM, 1 HBM, 2 the ternary match array; 3 for a table without storage. -/
def tableStore (t : TableDesc) : Nat := if t.kind = 0 ∨ t.kind = 3 then 3 else if t.kind = 7 then 2 else t.place

/-- Whether a descriptor's range lies in its store, apart from every other table's and from the deep pool (R311). -/
def tableRange (d : Dev) (r n : Nat) (t : TableDesc) : Bool :=
  let s := tableStore t
  let room := match s with
    | 0 => 768 | 1 => 21504 | _ => 64
  s == 3 || (decide (t.base + t.size ≤ room)
    && !(List.range 256).any (fun m => m != n &&
      (let u : TableDesc := ⟨d.reg (RGN_TBL_TYPE r m), d.reg (RGN_TBL_ALLOC r m), 0, 0⟩
       tableStore u == s && decide (t.base < u.base + u.size) && decide (u.base < t.base + t.size)))
    && !(s == 1 && d.meetsDeep r t.base t.size))

/-- The check code over a region's descriptor words: zero while every type is NONE (R314, R346). -/
def tableCode (d : Dev) (r : Nat) : Word :=
  let ns := (List.range 256).filter (fun n => fieldOf (d.reg (RGN_TBL_TYPE r n)) 28 4 != 0)
  if ns = [] then 0
  else Config.tableCode ((List.range 1024).filterMap (fun i =>
    let w := d.reg (rgnReg r (0x401000 + i * 4))
    if w = 0 then none else some (i, w)))

/-- The words of descriptor `n` as its registers read. -/
def descNow (d : Dev) (r n : Nat) : TableDesc :=
  ⟨d.reg (RGN_TBL_TYPE r n), d.reg (RGN_TBL_ALLOC r n), d.reg (RGN_TBL_AGE r n), d.reg (RGN_TBL_SEED r n)⟩

/-- Write the words of descriptor `n` (R302, R311, R313, R314, R911); the answer says whether all of it was accepted. It takes effect at
the next shutter. A field value that no rule defines leaves that field as it was, and the conditions that tie fields together reject the
write as a whole (R908); both set cfg_rejected, and desc_rejected tells of R302, R311, R313 and R911 (log 148). -/
def descWrite (d : Dev) (r : Region) (n : Nat) (t : TableDesc) : Wr :=
  if !(d.g r).mode.isOpen then d.reject (·.descRejected r) else
  let x := definedDesc (d.descNow r.val n) t
  let undefined := x.type != t.type || x.age != t.age
  let d := d.when undefined (·.tblRejected r)
  if !tableShape x then d.reject (·.tblRejected r)
  else if d.viewsOk r.val n x && d.tableRange r.val n x then
    let t := x
    let d := (((d.setReg (RGN_TBL_TYPE r.val n) (t.type &&& 0xFFFF80FF#32)).setReg (RGN_TBL_ALLOC r.val n) t.alloc).setReg
      (RGN_TBL_AGE r.val n) (t.age &&& 0xFFFFC000#32)).setReg (RGN_TBL_SEED r.val n) t.seed
    let d := d.modTables r (fun x => { x with pendingDesc := x.pendingDesc.filter (· != n) ++ [n] })
    ((d.setReg (RGN_TBL_CODE r.val) (d.tableCode r.val)).noteRequest r 6 n, !undefined)
  else d.reject (·.descRejected r)

/-- The words of descriptor `n` with one of them written. -/
def descWith (d : Dev) (r n k : Nat) (w : Word) : TableDesc :=
  let t := d.descNow r n
  match k with
  | 0 => { t with type := w }
  | 1 => { t with alloc := w }
  | 2 => { t with age := w }
  | _ => { t with seed := w }

/-- The tables (R336, R346–R354): a write of burst cuts what the port's bucket holds. -/
def tblWrite (d : Dev) (r : Region) (off a : Nat) (e : RegDesc) (v : Nat) : Wr :=
  match e.off with
  | 0x400010 => d.put a e v (lows [(4096 < v % 2 ^ 13, 0)]) (·.tblRejected r)
  | 0x402000 =>
    let (d, ok) := d.put a e v [] id
    let p := e.index off
    (d.setTokens r p (min (d.tokens r p) (bitsOf v 29 16 * 256)), ok)
  | 0x401000 | 0x401004 | 0x401008 | 0x40100C =>
    let n := e.index off
    d.descWrite r n (d.descWith r.val n (off % 16 / 4) (BitVec.ofNat 32 v))
  | _ => d.put a e v [] id

/-! ### Egress (R582, R603–R606) -/

/-- Whether the structural fields of some queues may be written now (R603, R604). -/
def queuesOpen (d : Dev) (r : Region) (qs : List Nat) : Bool :=
  (d.g r).mode.isOpen || ((d.g r).mode == .drain && qs.all (fun q => (d.queue r q).isEmpty))

/-- A shaper's word (R603): while shape_en is 1 neither its rate nor its burst may be zero. -/
def shapeOk (v : Nat) : Bool := !bitOf v 31 || (bitsOf v 30 13 != 0 && v % 2 ^ 13 != 0)

/-- RGN_EQ_CFG (R603): the quantum takes effect at the next shutter. -/
def eqCfgWrite (d : Dev) (r : Region) (q a v : Nat) : Wr :=
  let okS := d.queuesOpen r [q]
  let okQ := v % 2 ^ 16 != 0
  let was := (d.latest r a).toNat
  let new := (if okS then v / 2 ^ 18 * 2 ^ 18 else was / 2 ^ 18 * 2 ^ 18) + (if okQ then v % 2 ^ 16 else was % 2 ^ 16)
  let d := d.setReg a (BitVec.ofNat 32 (new / 2 ^ 18 * 2 ^ 18 + (d.reg a).toNat % 2 ^ 16))
  let d := d.delay r a (BitVec.ofNat 32 new)
  let d := if okS then d.noteRequest r 2 q else d
  if okS && okQ then (d, true) else d.reject (·.eqRejected r)

/-- Egress (R582, R603–R606, R205–R208). -/
def egressWrite (d : Dev) (r : Region) (off a : Nat) (e : RegDesc) (v : Nat) : Wr :=
  let rep (d : Dev) : Dev := d.eqRejected r
  match e.off with
  | 0x500000 => d.eqCfgWrite r (e.index off) a v
  | 0x500004 => (d.delay r a (BitVec.ofNat 32 v), true)
  | 0x500008 => if shapeOk v then (d.delay r a (BitVec.ofNat 32 v), true) else d.reject rep
  | 0x510000 =>
    let qs := (List.range 4096).filter (fun q => d.fld (RGN_EQ_CFG_group r.val q) == e.index off)
    let closed := !(d.g r).mode.isOpen && !d.queuesOpen r qs
    d.put a e v (lows [(closed, 31), (closed, 24), (v % 2 ^ 16 == 0, 0)]) rep
  | 0x510004 | 0x511000 => putIf (shapeOk v) d a e v rep
  | 0x511004 =>
    let w := d.put a e v (lows [(bitsOf v 31 16 == 0, 16)]) rep
    (w.1.pfcCheckAll r, w.2)
  | 0x513000 =>
    if !d.settled r then d.reject rep else d.put a e v (lows [(1 ≤ v % 2 ^ 14 && v % 2 ^ 14 < 64, 0)]) rep
  | 0x520000 => putIf (d.settled r) d a e v rep
  | _ => d.put a e v [] id

/-! ### The HBM controller, the fabric, the ports (R609–R743) -/

/-- The HBM controller (R618, R624, R629, R635–R641). -/
def hbmRegWrite (d : Dev) (r : Region) (a : Nat) (e : RegDesc) (v : Nat) : Wr :=
  match e.off with
  | 0x600000 =>
    let m := (d.g r).mode
    let d := d.setFld (RGN_HBM_CFG_thermal_step r.val) (bitsOf v 5 5)
    ((d.rateWrite r (bitsOf v 7 6)).orderWrite r (v % 4), bitsOf v 7 6 < 2 && (m == .load || m.isOpen))
  | 0x600010 => putIf (d.g r).mode.isOpen d a e v (·.hbmReject r)
  | 0x600044 =>
    let (d, _) := d.put a e v [] id
    if bitOf v 0 then
      let d' := d.retrain r
      (d', d.hbmState r.val == 3 && d'.hbmState r.val == 6)
    else (d, true)
  | _ => d.put a e v [] id

/-- A channel configuration (R436, R447, R448, R482, R487). -/
def chCfgWrite (d : Dev) (regional : Bool) (r : Region) (b n a : Nat) (e : RegDesc) (v : Nat) : Wr :=
  let rep (d : Dev) : Dev := d.setOn (if regional then RGN_RCH_ERR_cfg_rejected r.val else BLK_CH_ERR_cfg_rejected r.val b)
  let was := (d.reg a).toNat
  let recvBits := if regional then 12 else 8
  let home := if regional then d.fld (RGN_RCH_CFG_recv_block r.val n) else b
  let ctxOk := v % 32 ≤ 16
  let new := (if ctxOk then v % 32 else was % 32) + v / 32 * 32
  if bitOf was 31 && new % 2 ^ recvBits != was % 2 ^ recvBits then d.reject rep
  else
    let flush := bitOf v (if regional then 12 else 8) || (bitOf was 31 && !bitOf v 31)
    let d := if flush then d.flushChannel regional r.val home n else d
    let (d, ok) := d.put a e v (lows [(!ctxOk, 0)]) rep
    let d := d.wake (d.receiver regional r.val b n)
    (d.each (if regional then List.range 16 else [b]) (fun b d => d.wakeSpace regional r.val b n), ok)

/-- Cleunfy (R487, R689, R694–R699). -/
def cfWrite (d : Dev) (r : Region) (off a : Nat) (e : RegDesc) (v : Nat) : Wr :=
  match e.off with
  | 0x700000 =>
    let m := e.index off
    ((d.reqUpWrite r m (bitOf v 0)).admitWrite r m (bitOf v 1), true)
  | 0x700104 => d.put a e v (lows [(v % 128 < 1 || 64 < v % 128, 0)]) (·.cfRejected r)
  | 0x700108 => putIf (d.g r).mode.isOpen d a e v (·.cfRejected r)
  | 0x7C0000 => d.chCfgWrite true r 0 (e.index off) a e v
  | _ => d.put a e v [] id

/-- Power and clocks (R828, R832, R833, R844, R847). -/
def pwrWrite (d : Dev) (r : Region) (a : Nat) (e : RegDesc) (v : Nat) : Wr :=
  match e.off with
  | 0xA00000 => (d.cellClkWrite r v, (d.g r).mode.isOpen && v % 4 != 3)
  | 0xA00004 =>
    let d := d.retWrite r v
    (d, d.fld (RGN_PWR_RET_ret r.val) == v % 2 ^ 16)
  | 0xA0000C => d.parkWrite r (bitOf v 0)
  | 0xA00010 => (d.blkRstWrite r v, true)
  | _ => d.put a e v [] id

/-- RGN_LDG_SEL (R778, R783, R908): an invalid kind is rejected and keeps its value, and so is an index that the kind which then stands does not
have; where the index that would stay is none of the new kind's, the kind is rejected too (DESIGN CHOICE, log entry 130). -/
def ldgSelWrite (d : Dev) (r : Region) (a : Nat) (e : RegDesc) (v : Nat) : Wr :=
  let was := (d.reg a).toNat
  let kindOk := unitLimit (bitsOf v 31 28) != 0
  let limit := unitLimit (bitsOf (if kindOk then v else was) 31 28)
  let indexOk := decide (v % 2 ^ 16 < limit)
  let keeps := indexOk || decide (was % 2 ^ 16 < limit)
  d.put a e v (lows [(!kindOk || !keeps, 28), (!indexOk, 0)]) (·.setOn (RGN_LDG_ERR_sel_rejected r.val))

/-- A register of a Mladus region, by sub-block (R66, R77). -/
def rgnWrite (d : Dev) (r : Region) (off a : Nat) (e : RegDesc) (v : Nat) : Wr :=
  match off / 0x100000 with
  | 0 => d.irqWrite r off a e v
  | 1 => d.bpmWrite r a e v
  | 2 => d.dspWrite r off a e v
  | 3 => d.feWrite r a e v
  | 4 => d.tblWrite r off a e v
  | 5 => d.egressWrite r off a e v
  | 6 => d.hbmRegWrite r a e v
  | 7 => d.cfWrite r off a e v
  | 8 =>
    if e.off = 0x800000 then d.portCfgWrite r (e.index off) v
    else d.put a e v (lows [(e.off = 0x800008 && v % 2 ^ 16 == 0, 0)]) (·.portRejected r)
  | 9 => if e.off = 0x900000 then d.monCfgWrite 1 r.val a e v (·.monRejected (RGN_MON_ERR_cfg_rejected r.val) r) else d.put a e v [] id
  | 10 => d.pwrWrite r a e v
  | 11 => d.put a e v (lows [(e.off = 0xB00004 && 128 < v % 256, 0)]) (·.setOn (RGN_COMMIT_ERR_cfg_rejected r.val))
  | 12 => if e.off = 0xC00000 then d.ldgSelWrite r a e v else d.put a e v [] id
  | _ => d.put a e v [] id

/-! ### Chip registers -/

/-- Whether a BAR2 window stays within one region (R744). -/
def windowOk (base size : Nat) : Bool := base % 2 ^ 44 + size * 4096 ≤ 2 ^ 44

/-- Life cycle, tamper, fence and fault registers (R846, R880). -/
def chipSafetyWrite (d : Dev) (a : Nat) (e : RegDesc) (v : Nat) : Wr :=
  match e.off with
  | 0x40010 => putIf (d.mode == .configure && d.lifeCycle == 1) d a e v (·.setOn (CHP_LC_ERR_key_rejected d.A))
  | 0x40040 =>
    let locked := d.on (CHP_TAMPER_CTL_lock d.A)
    (d.setReg a (e.writeWord (lows [(locked, 0)]) v (d.reg a)), true)
  | 0x50000 =>
    let d := d.setFld (CHP_FENCE_CTL_region d.A) (v % 8)
    let (d, ok1) := if bitOf v 31 then d.fenceRequest (R v) else (d, true)
    let (d, ok2) := if bitOf v 30 then d.rejoinStart (R v) 0 else (d, true)
    (d, ok1 && ok2)
  | 0x50030 => (if bitOf v 0 then d.faultAck else d, true)
  | _ => d.put a e v [] id

/-- Shutter, commit, pane and PTP registers (R141–R150, R744). -/
def chipShutterWrite (d : Dev) (a : Nat) (e : RegDesc) (v : Nat) : Wr :=
  match e.off with
  | 0x30000 => (d.shutterCtlWrite v, d.mode == .configure)
  | 0x30040 =>
    let d := if bitOf v 1 then d.forceFree else d
    if bitOf v 0 then (let (d, cause) := d.swapRequest; (d, cause == 0)) else (d, true)
  | 0x30074 =>
    let (d, _) := d.put a e v [] id
    if bitOf v 31 then d.ptpCtlLoad else (d, true)
  | 0x30078 => (d.ptpAdjust (signed32 v), true)
  | 0x3007C => d.ptpFreq v
  | _ => d.put a e v [] id

/-- A chip register of the anchor, by sub-block (R66). -/
def chipWrite (d : Dev) (off a : Nat) (e : RegDesc) (v : Nat) : Wr :=
  match off / 0x10000 with
  | 0 => if e.off = 0xC then (d.compatWrite v, d.mode == .load) else d.put a e v [] id
  | 1 =>
    if e.off = 0x10000 then d.modeReqWrite v
    else if e.off = 0x10014 then (d.rstCtl (bitsOf v 15 8) (bitOf v 1) (bitOf v 0), true) else d.put a e v [] id
  | 2 =>
    if e.off = 0x20000 then d.monCfgWrite 2 0 a e v (·.monRejected (CHP_MON_ERR_cfg_rejected d.A) d.anchor)
    else if e.off = 0x20418 then
      let d := if bitOf v 1 then d.snapCancel else d
      if bitOf v 0 then d.snapArm d.snapNamed else (d, true)
    else d.put a e v [] id
  | 3 => d.chipShutterWrite a e v
  | 4 | 5 => d.chipSafetyWrite a e v
  | 6 =>
    d.put a e v (lows [(e.off = 0x6000C && (v % 256 < 1 || decide (d.gradeTop / 8 - 60 < ((v % 256 : Nat) : Int))), 0)])
      (·.setOn (CHP_SUPPLY_ERR_cfg_rejected d.A))
  | _ =>
    let rep (d : Dev) : Dev := d.setOn (CHP_HEP_ERR_cfg_rejected d.A)
    if e.off = 0x70000 then d.put a e v (lows [(v % 1024 == 0, 0)]) rep
    else if e.off = 0x71008 then
      let size := v % 2 ^ 15
      let bad := (size = 0 && bitOf v 31) || 16384 < size
      let size := if bad then fieldOf (d.reg a) 0 15 else size
      if windowOk (d.pair (a - 8) (a - 4)) size then d.put a e v (lows [(bad, 0), (bitOf v 31 && size = 0, 31)]) rep else d.reject rep
    else d.put a e v [] id

/-! ### Block registers (R427–R433, R482–R486, R545–R553, R810) -/

def blockWrite (d : Dev) (r : Region) (b off a : Nat) (e : RegDesc) (v : Nat) : Wr :=
  match e.off with
  | 0x0 => thenIf (putIf (d.settled r && v % 4 != 3) d a e v (·.coreRejected r b)) (·.refreshBudget r b)
  | 0x8 => (d.cellRunWrite r b v, true)
  | 0x1000 => d.chCfgWrite false r b (e.index off) a e v
  | 0x2008 => (d.memClean r b v, (cleanLine r.val b v).isSome)
  | 0x2010 => (d.secCtlWrite r b v, true)
  | 0x2028 => (d.icInvWrite r b v, true)
  | 0x3000 => d.monCfgWrite 0 r.val a e v (·.monRejected (BLK_MON_ERR_cfg_rejected r.val b) r)
  | _ => d.put a e v [] id

/-! ### BAR0 (R726, R731, R745, R782, R783, R848) -/

/-- The log of a ring's size, from 4 to 12 (R745). -/
def ringLog (n : Nat) : Bool := decide (4 ≤ n) && decide (n ≤ 12)

/-- The fields that a ring's configuration refuses (R745, R747, R908): a log out of its range, at `lo`, keeps its value, and the enable at `en`
is refused where the log that then stands is out of range (DESIGN CHOICE, log entry 130). `strict` tells that a log other than zero is
judged while the ring is off, too. -/
def ringRefused (strict : Bool) (was v en lo : Nat) : List (Bool × Nat) :=
  let log := bitsOf v (lo + 3) lo
  let bad := !ringLog log && (bitOf v en || (strict && log != 0))
  [(bad, lo), (bitOf v en && !ringLog (if bad then bitsOf was (lo + 3) lo else log), en)]

/-- A register of BAR0 (R726, R731, R745, R782, R783, R848). -/
def bar0Write (d : Dev) (e : Endpoint) (off a : Nat) (t : RegDesc) (v : Nat) : Wr :=
  let rep (d : Dev) : Dev := d.epErr e (HST_EP_ERR_ring_err e.val) 0x3C3
  let n := t.index off
  match t.off with
  | 0x40000 => (d.mbDoorbell e n v, true)
  | 0x400008 => d.put a t v (lows (ringRefused true (d.reg a).toNat v 31 24)) rep
  | 0x40000C => (d.doorbell e (0x1000 + n) (v % 65536) (d.fld (HST_UR_CI_ci e.val n)) (2 ^ d.fld (HST_UR_CFG_log e.val n)), true)
  | 0x800010 => d.put a t v (lows (ringRefused false (d.reg a).toNat v 31 24 ++ ringRefused false (d.reg a).toNat v 30 20)) rep
  | 0x800014 => d.put a t v (lows [(bitsOf v 31 16 == 0, 16)]) rep
  | 0x1000000 => (d.doorbell e (2 * n) (v % 65536) (d.fld (HST_QP_CI_tx_ci e.val n)) (2 ^ d.fld (HST_QP_CFG_tx_log e.val n)), true)
  | 0x1000004 => (d.doorbell e (2 * n + 1) (v % 65536) (d.fld (HST_QP_CI_rx_ci e.val n)) (2 ^ d.fld (HST_QP_CFG_rx_log e.val n)), true)
  | 0x3000014 => (if bitOf v 0 then d.bootStart false else d, true)
  | _ => d.put a t v [] id

/-! ### Cell CSRs (R361, R414–R425, R480) -/

/-- The context that CEL_THR_SEL names. -/
def selected (d : Dev) (c : Nat) : Nat := c * 32 + d.fld (CEL_THR_SEL_ctx c)

/-- CEL_THR_CFG (R367, R417): a disabled worker is DISABLED; an enabled one is idle, and a background worker that is halted and resumed runs. -/
def thrCfgWrite (d : Dev) (k : Nat) (enable background : Bool) : Dev :=
  let d := d.modCtx k (fun c => { c with
    enable, background,
    mode := if !enable then .disabled
      else if c.mode == .disabled then .idle
      else if !background && c.background && c.mode == .running && c.held.isNone then .idle
      else c.mode })
  d.refreshBudget (R (ctxRegion k)) (ctxBlock k)

/-- A cell-level CSR (R414–R425, R480). -/
def cellWrite (d : Dev) (c n a : Nat) (e : RegDesc) (v : Nat) : Wr :=
  let r := R (c / 128)
  let b := c / 8 % 16
  let k := d.selected c
  let rep (d : Dev) : Dev := d.coreRejected r b
  match e.off with
  | 0x7C0 => d.put a e v (lows ((List.range 4).map (fun i => (16 < v / 2 ^ (8 * i) % 32 && v / 2 ^ (8 * i) % 32 != 31, 8 * i)))) rep
  | 0x7C8 =>
    let (d, _) := d.put a e v [] id
    if bitOf v 0 then d.slotApply r b c else (d, true)
  | 0x7C9 => d.put a e v (lows [(16 < v % 32, 0)]) rep
  | 0x7CA => if k % 32 = 16 || !d.settled r then d.reject rep else (d.thrCfgWrite k (bitOf v 0) (bitOf v 1), true)
  | 0x7CC =>
    if (d.ctx k).mode = .faulted ∨ (d.ctx k).mode = .debugHalted then (d.modCtx k (fun x => { x with pc := BitVec.ofNat 32 v }), true)
    else d.reject rep
  | 0x7CD => if k % 32 = 16 then d.reject rep else (d.modCtx k (fun x => { x with sp := BitVec.ofNat 32 v }), true)
  | 0x7CE =>
    if v % 8 = 0 then (d, true)
    else if k % 32 = 16 then d.reject rep else (d.thrCtl k (bitOf v 0) (bitOf v 1) (bitOf v 2), true)
  | 0x7D2 =>
    let (d, _) := d.put a e v [] id
    (if bitOf v 0 then d.dropIcache c else d, true)
  | _ => if n ≤ 0x7D6 then d.put a e v [] id else (d, false)

/-! ### Any register -/

/-- Whether the region that an address names can take the write at all: a position without a Mladus die holds no register. -/
def regThere (d : Dev) (l : Loc) : Bool :=
  match l with
  | .region r _ => d.mladus r
  | .chip a _ => a == d.A
  | .block r b _ => d.mladus r && d.blockState r b == 0
  | .bar0 e _ => e < 2 && d.present (4 * e)
  | .csr c _ => decide (c < 1024) && d.cellRuns (c / 128) (c / 8 % 16) (c % 8)
  | .elsewhere => false

/-- Write one register that an address announces. -/
def writeAt (d : Dev) (a : Nat) (e : RegDesc) (v : Nat) : Wr :=
  match locOf a with
  | .region r off => d.rgnWrite (R r) off a e v
  | .chip _ off => d.chipWrite off a e v
  | .block r b off => d.blockWrite (R r) b off a e v
  | .bar0 x off => d.bar0Write (Fin.ofNat 2 x) off a e v
  | .csr c n => d.cellWrite c n a e v
  | .elsewhere => (d, false)

/-- Whether a pair is committed by a write of its upper register: both halves have writable fields (R24, R27). -/
def paired (lo hi : RegDesc) : Bool :=
  let writable (f : FieldDesc) : Bool := f.acc == .rw || f.acc == .w1c
  lo.fields.any writable && hi.fields.any writable

/-- Commit a pair (R24): the lower half is the value written most recently, and the holding register takes the upper half. A BAR2 window
whose end would cross into another region is rejected (R744), and so is a threshold of zero while its counter's mode is THRESHOLD (R812). -/
def pairCommit (d : Dev) (lo hi : Nat) (el eh : RegDesc) (v : Nat) : Wr :=
  let wl := match (d.pairBuf lo).lo with
    | some w => el.writeWord [] w.toNat (d.reg lo)
    | none => d.reg lo
  let wh := eh.writeWord [] v (d.reg hi)
  let crosses := match locOf lo, el.off with
    | .chip _ _, 0x71000 => !windowOk (wl.toNat + wh.toNat * 2 ^ 32) (fieldOf (d.reg (hi + 4)) 0 15)
    | _, _ => false
  let zero := wl = 0 && wh = 0 && fieldOf (d.reg (lo - 0xC)) 29 2 == 2
  if crosses then d.reject (·.setOn (CHP_HEP_ERR_cfg_rejected d.A))
  else match zero, locOf lo, el.off with
  | true, .region r _, 0x90000C => d.reject (·.monRejected (RGN_MON_ERR_cfg_rejected r) (R r))
  | true, .block r b _, 0x300C => d.reject (·.monRejected (BLK_MON_ERR_cfg_rejected r b) (R r))
  | true, .chip _ _, 0x2000C => d.reject (·.monRejected (CHP_MON_ERR_cfg_rejected d.A) d.anchor)
  | _, _, _ => (((d.setReg lo wl).setReg hi wh).holdUpper lo wh, true)

/-- A guest's registers (R691–R693), which lie where a Mladus region has others: role 0b11 is rejected. -/
def guestWrite (d : Dev) (r off v : Nat) : Wr :=
  match off with
  | 0x1000 =>
    let d := (d.setFld (RGN_GUEST_CTL_run r) (bitsOf v 8 8)).setFld (RGN_GUEST_CTL_park r) (bitsOf v 4 4)
    if v % 4 = 3 then (d, false) else (d.setFld (RGN_GUEST_CTL_role r) (v % 4), true)
  | 0x1008 => (d.setFld (RGN_GUEST_IRQ_region r) (v % 8), true)
  | _ => (d, off == 0x1004)

/-- What BAR0 holds beside registers (R726, R739, R753, R817): the mailbox areas, of which the host writes the command areas only, and the
MSI-X table with its pending bits. In LOAD it answers only the loader and endpoint status registers. -/
def bar0Place (d : Dev) (off : Nat) : Nat :=
  if d.mode = .load ∧ off < 0x3000000 then 0
  else if off < 0x40000 then (if off % 0x2000 < 0x1000 then 1 else 2)
  else if 0x2000000 ≤ off ∧ off < 0x2008000 then 3
  else if 0x2010000 ≤ off ∧ off < 0x2010100 then 4
  else 5

/-- A write to BAR0 outside its registers. -/
def bar0AreaWrite (d : Dev) (e : Endpoint) (off a v : Nat) : Wr :=
  match d.bar0Place off with
  | 1 => (d.setLE (a / 4 * 4) 4 v, true)
  | 3 => (d.msixWrite e ((off - 0x2000000) / 4) (BitVec.ofNat 32 v), true)
  | _ => (d, false)

/-- A read of BAR0 outside its registers. -/
def bar0AreaRead (d : Dev) (e : Endpoint) (off a : Nat) : Word :=
  match d.bar0Place off with
  | 1 | 2 => BitVec.ofNat 32 (d.le (a / 4 * 4) 4)
  | 3 => Sparse.get msixDefault (d.ep e).msix ((off - 0x2000000) / 4)
  | 4 => BitVec.ofNat 32 ((List.range 32).foldl (fun w i =>
      w + if Sparse.get (fun _ => false) (d.ep e).pba ((off - 0x2010000) / 4 * 32 + i) then 2 ^ i else 0) 0)
  | _ => 0

/-- A write of a register by its address (R27–R31, R906, R908); the answer says whether the register took it. -/
def writeReg (d : Dev) (a : Nat) (v : Nat) : Wr :=
  let v := v % 2 ^ 32
  let l := locOf a
  match l with
  | .region r off => if d.guest r && d.present r then d.guestWrite r off v else go l v
  | .bar0 e off => if d.bar0Place off = 5 ∨ !d.regThere l then go l v else d.bar0AreaWrite (Fin.ofNat 2 e) off a v
  | _ => go l v
where
  go (l : Loc) (v : Nat) : Wr :=
    if !d.regThere l then (d, false)
    else match announced a with
      | none => if (descAt a).isSome then (d, true) else (d.addrErr l, false)
      | some e =>
        match upperOf a e, lowerOf a e with
        | some hi, _ =>
          match announced hi with
          | some eh => if paired e eh then (d.modPair a (fun b => { b with lo := some (BitVec.ofNat 32 v) }), true) else d.writeAt a e v
          | none => d.writeAt a e v
        | none, some lo =>
          match announced lo with
          | some el => if paired el e then d.pairCommit lo a el e v else d.writeAt a e v
          | none => d.writeAt a e v
        | none, none => d.writeAt a e v

/-! ### Reads -/

/-- The requested state of a unit of the ledger (R779). -/
def unitRequested (d : Dev) (r : Region) (kind i : Nat) : Nat :=
  match kind with
  | 1 => if d.on (RGN_PORT_CFG_enable r.val i) then 2 else 0
  | 2 => d.fld (RGN_EQ_CFG_enable r.val i)
  | 3 => if bitOf (d.fld (RGN_PWR_RET_ret r.val)) i || d.heldAsleep r i then 2 else if d.on (BLK_CELL_RUN_run r.val i) then 1 else 0
  | 4 => d.fld (RGN_PWR_REGION_park r.val)
  | 5 => d.fld (RGN_CF_LINK_req_up r.val i)
  | 6 => if fieldOf (d.reg (RGN_TBL_TYPE r.val i)) 28 4 = 0 then 0 else 1
  | _ => 0

/-- Four bytes of cell loads (R516): the tasks placed on each cell for the window begun at the last shutter. -/
def cellLoads (d : Dev) (r : Region) (b c : Nat) : Nat :=
  ((List.range 4).map (fun i => d.cellPlaced r (cellNo r.val b (c + i)) (d.g r).tick * 2 ^ (8 * i))).sum

/-- What RGN_CF_LINK reads (R694): admit reads one where no guest is faced, and req_up zero where the module is OFF. -/
def linkWord (d : Dev) (r : Region) (m : Nat) (w : Word) : Word :=
  match d.facing r.val m with
  | none => withField (withField w 0 1 0) 1 1 1
  | some (_, p) => if d.guest p then withField w 12 1 1 else withField (withField w 12 1 0) 1 1 1

/-- The word behind a register of a region, where it shows something computed. -/
def regionWord (d : Dev) (r : Region) (off a : Nat) (e : RegDesc) : Word :=
  let n := e.index off
  match e.off with
  | 0x1080 | 0x1100 => d.reg (RGN_IRQ_EN r.val n)
  | 0x1180 => BitVec.ofNat 32 ((List.range 32).foldl (fun w i => w + if d.irqCount r.val (n * 32 + i) = 0 then 0 else 2 ^ i) 0)
  | 0x30000C => BitVec.ofNat 32 (256 * d.transUnits r.val (d.shownPane r))
  | 0x300008 => withField (d.reg a) 4 1 (d.shownPane r)
  | 0x200128 => BitVec.ofNat 32 (d.cellLoads r n 0)
  | 0x20012C => BitVec.ofNat 32 (d.cellLoads r n 4)
  | 0x200130 =>
    let free := ((d.openSlots r n (((d.g r).tick + 1) % 2 ^ 48)).map (fun k => d.packetsPer r.val n - d.placedFor r k (((d.g r).tick + 1) % 2 ^ 48))).sum
    BitVec.ofNat 32 (((List.range 8).map (fun c => d.cellPlaced r (cellNo r.val n c) (d.g r).tick)).sum * 2 ^ 16 + free)
  | 0x308200 => withField (d.reg a) 16 4 (d.profileTransit r n)
  | 0x500000 | 0x500004 | 0x500008 | 0xA00000 => d.latest r a
  | 0x50000C => withField (d.reg a) 31 1 (if d.classPaused r (d.queuePort r n) (d.fld (RGN_EQ_CFG_pfc_class r.val n)) then 1 else 0)
  | 0x80000C => withField (d.reg a) 30 1 (if (d.unit r 1 n).effective = 0 then 0 else 1)   -- RGN_PORT_STAT.active
  | 0x700000 => d.linkWord r n (d.reg a)
  | 0xC00004 =>
    let kind := d.fld (RGN_LDG_SEL_kind r.val)
    let i := d.fld (RGN_LDG_SEL_index r.val)
    let u := d.unit r kind i
    BitVec.ofNat 32 (min 255 u.mismatch * 2 ^ 16 + u.effective % 16 * 2 ^ 8 + d.unitRequested r kind i)
  | _ => d.reg a

/-- The word behind a chip register, where it shows something computed; the level of a GPIO ball that the part does not drive is a
free value (R904). -/
def chipWord (d : Dev) (off a : Nat) (e : RegDesc) : Word :=
  match e.off with
  | 0x30008 => BitVec.ofNat 32 d.tick
  | 0x3000C => BitVec.ofNat 32 (d.tick / 2 ^ 32)
  | 0x60028 =>
    let oe := d.fld (CHP_GPIO_OE_oe d.A)
    BitVec.ofNat 32 ((d.fld (CHP_GPIO_OUT_out d.A) &&& oe) + (d.freeNat 0 % 65536 &&& (65535 - oe)))
  | 0x70000 =>
    let i := e.index off
    let r := d.fld (CHP_SYNCE_region d.A i)
    let lane := d.fld (CHP_SYNCE_lane d.A i)
    let lock := (List.range 8).any (fun p => decide (p ≤ lane) && decide (lane < p + d.fld (RGN_PORT_CFG_lanes r p))
      && bitOf (d.fld (RGN_PORT_STAT_lane_lock r p)) (lane - p))
    withField (d.reg a) 30 1 (if d.on (CHP_SYNCE_enable d.A i) && !lock then 1 else 0)
  | _ => d.reg a

/-- The word of a cell CSR that shows the context which CEL_THR_SEL names (R417–R422). -/
def cellWord (d : Dev) (c a : Nat) (e : RegDesc) : Word :=
  let k := d.selected c
  let x := d.ctx k
  match e.off with
  | 0x7CA => if k % 32 = 16 then 0 else BitVec.ofNat 32 ((if x.background then 2 else 0) + if x.enable then 1 else 0)
  | 0x7CB =>
    let st := match x.mode with
      | .disabled => 0 | .idle => 1 | .running => 2 | .waiting => 3 | .fillWait => 4 | .faulted => 5 | .debugHalted => 6
    BitVec.ofNat 32 ((d.genBase + x.generation) % 128 * 2 ^ 24 + x.heldIndex % 4 * 2 ^ 16 + (if x.held.isSome then 2 ^ 15 else 0) + st)
  | 0x7CC => x.pc
  | 0x7CD => if k % 32 = 16 then 0 else x.sp
  | 0x7D0 => x.tval
  | 0x7D1 => BitVec.ofNat 32 ((if x.faultValid then 2 ^ 31 else 0) + x.faultCause % 256)
  | _ => d.reg a

/-- The word behind any register. -/
def wordAt (d : Dev) (a : Nat) (e : RegDesc) : Word :=
  match locOf a with
  | .region r off => d.regionWord (R r) off a e
  | .chip _ off => d.chipWord off a e
  | .csr c _ => d.cellWord c a e
  | .bar0 _ _ => if e.off = 0x40004 && d.framesV1 then 0 else d.reg a
    -- HST_MB_SEQ reads zero under v1 (R782)
  | _ => (d.reg a)

/-- A read of a register by its address (R24, R27, R30). -/
def readReg (d : Dev) (a : Nat) : Dev × Word :=
  match locOf a with
  | .region r off =>
    if d.guest r && d.present r then (d, if off = 0x1000 ∨ off = 0x1004 ∨ off = 0x1008 then d.reg a else 0) else go
  | .bar0 e off => if d.bar0Place off = 5 ∨ !d.regThere (locOf a) then go else (d, d.bar0AreaRead (Fin.ofNat 2 e) off a)
  | _ => go
where
  go : Dev × Word :=
    if !d.regThere (locOf a) then (d, 0)
    else match announced a with
      | none => (d, 0)
      | some e =>
        match locOf a, e.off with
        | .region r _, 0x1400 => d.claim (R r) 0x80
        | .region r _, 0x40000C => d.badlineRead (R r)
        | .region r off, 0x800018 => d.ptsRead (R r) (e.index off)
        | _, _ =>
          let w := e.readWord (d.wordAt a e)
          match upperOf a e, lowerOf a e with
          | some hi, _ =>
            match announced hi with
            | some eh => (d.holdUpper a (eh.readWord (d.wordAt hi eh)), w)
            | none => (d, w)
          | none, some lo => (d, d.upperRead lo w)
          | none, none => (d.setReg a (e.afterRead (d.reg a)), w)

end Dev

/-! ### The commands -/

/-- A register address with region 0xF, or of the chip registers, as the anchor's own (R74, R79). -/
def Dev.normal (d : Dev) (a : Nat) : Nat :=
  if a < 2 ^ 48 ∧ a / 2 ^ 44 = 0xF then d.A * 2 ^ 44 + a % 2 ^ 44 else a

/-- REGISTER_PAIR_LO_READ (R24): a read of the lower register of a pair copies the upper half into the holding register. -/
def execRegisterPairLoRead (addr : Nat) (s : State) : Out := s.doing fun d =>
  let a := d.normal addr
  match (announced a).bind (upperOf a) with
  | some _ => .next (d.readReg a).1
  | none => .refused .noSuchUnit

/-- REGISTER_PAIR_HI_WRITE (R24): a write of the upper register of a pair commits it. -/
def execRegisterPairHiWrite (addr : Nat) (value : Word) (s : State) : Out := s.doing fun d =>
  let a := d.normal addr
  match (announced a).bind (lowerOf a) with
  | some _ => .next (d.writeReg a value.toNat).1
  | none => .refused .noSuchUnit

/-- REGISTER_WRITE (R27–R31, R906, R908): any requester that may write a register writes it. -/
def execRegisterWrite (addr : Nat) (value : Word) (s : State) : Out := s.run fun d => (d.writeReg (d.normal addr) value.toNat).1

end Sys2Proof.Machine
end

