-- ==== Sys2Proof/Machine/Bus.lean ====
section
/-!
DEFINITION. Fabric accesses: where an address leads, what a Mladus region answers, the requests and responses of Cleunfy, and the host's
accesses through BAR2 (R74–R81, R450–R466, R520–R544, R612–R619, R661–R672, R685–R688, R727–R729, R817).
-/

namespace Sys2Proof.Machine

/-- The name of the memory or unit that an offset leads to: an access may not run out of it. -/
def Place.home : Place → Nat
  | .hbm _ => 1
  | .pad b _ => 0x100 + b
  | .padLatch b _ => 0x200 + b
  | .padForce b _ => 0x300 + b
  | .cellMem b c _ => 0x400 + b * 8 + c
  | .blockReg b _ => 0x500 + b
  | .regionReg _ => 2
  | .sram _ => 3
  | .sramLatch _ => 4
  | .sramForce _ => 5
  | .packets _ => 6
  | .istore b _ => 0x600 + b
  | .chip _ => 7
  | .nowhere => 0

/-- The block whose window or instruction store an offset lies in. -/
def Place.blockOf : Place → Option Nat
  | .pad b _ | .padLatch b _ | .padForce b _ | .cellMem b _ _ | .blockReg b _ | .istore b _ => some b
  | _ => none

/-- Whether an offset is that of a chip register (R75). -/
def isChip (o : Nat) : Bool := decide (0xF0000000000 ≤ o) && decide (o < 0xF0000080000)

/-- Whether a region register offset lies in a pane window, and the pane, window and offset there (R66, R218, R261). -/
def paneWindow (x : Nat) : Option (Nat × Bool × Nat) :=
  if 0x310000 ≤ x ∧ x < 0x330000 then some ((x - 0x310000) / 0x10000, false, x % 0x10000)
  else if 0x340000 ≤ x ∧ x < 0x400000 then some ((x - 0x340000) / 0x60000, true, (x - 0x340000) % 0x60000)
  else none

namespace Dev

/-! ### Where an address leads (R74, R79, R665) -/

/-- The region and the offset of a fabric address, for a requester of region `own`. -/
def resolve (d : Dev) (own addr : Nat) : Nat × Nat :=
  let o := addr % 2 ^ 44
  let q := addr / 2 ^ 44 % 16
  (if q = 15 then (if isChip o then d.A else own) else q, o)

/-- The status with which the sending node answers at once, if it does (R665, R671, R672). -/
def sendStatus (d : Dev) (own q : Nat) : Option Status :=
  if 8 ≤ q ∨ !d.present q then some .decode
  else if q = own then none
  else if d.fenced q then some .fenced
  else if !bitOf (d.fld (RGN_CF_ROUTE_reachable own)) q ∨ d.routeBroken own q then some .unreachable
  else none

/-- The requester that a message from a region names by its holder ID; the host has none (R451, R686). -/
def whoOf (d : Dev) (src holder : Nat) : Who :=
  if d.guest src then .guest src
  else if holder = 0 then .host (src / 4)
  else if bitsOf holder 13 9 = 0x1F then .mp (bitsOf holder 23 21)
  else .sup (cellNo (bitsOf holder 23 21) (bitsOf holder 20 17) (bitsOf holder 16 14) * 32 + bitsOf holder 13 9)

/-! ### What a Mladus region refuses (R78, R81, R538, R666) -/

/-- Whether an access of the HBM must wait for the controller (R613, R631); in a parked region it completes with BUSY (R834). -/
def hbmWaits (d : Dev) (q o : Nat) : Bool :=
  match placeOf o with
  | .hbm _ => d.hbmState q != 3 && d.hbmState q != 7 && !d.parked q
  | _ => false

/-- Whether a table in effect uses a byte of table SRAM or HBM. -/
def inTable (d : Dev) (q : Region) : Place → Bool
  | .sram x => d.sramUsed q x
  | .hbm x => (d.g q).tables.inEffect.any (fun e => e.2.kind != 0 && e.2.kind != 3 && e.2.place == 1
      && decide (e.2.base ≤ x / 2 ^ 20) && decide (x / 2 ^ 20 < e.2.base + e.2.size))
  | _ => false

/-- The status that refuses an access of `n` bytes at an offset, if one does. In a run mode table state changes by mutation alone. -/
def refuses (d : Dev) (w : Who) (q : Region) (o n : Nat) (write : Bool) : Option Status :=
  let p := placeOf o
  if p = .nowhere ∨ p.home ≠ (placeOf (o + n - 1)).home then some .decode
  else if isChip o ∧ q.val ≠ d.A then some .decode
  else if !d.permits w q p write then some .access
  else if write && (d.g q).mode.isRun && (d.inTable q p || d.inTable q (placeOf (o + n - 1))) then some .access
  else match p.blockOf with
    | some b => if d.blockState q.val b = 0 then none else some .access
    | none => none

/-- Whether an access that goes through a latch or force-release alias is an aligned word (R457, R527). -/
def wordAccess (x n : Nat) : Bool := n == 4 && x % 4 == 0

/-! ### Serving an access (R75, R76, R452–R457, R529, R530, R534) -/

/-- Read consecutive registers; only whole words are read. -/
def readRegs (d : Dev) (a : Nat) : Nat → Dev × List Byte
  | 0 => (d, [])
  | n + 1 =>
    let (d, w) := d.readReg a
    let (d, rest) := d.readRegs (a + 4) n
    (d, bytesLE 4 w.toNat ++ rest)

/-- Write consecutive registers; only whole words are written. The answer says whether each took its word. -/
def writeRegs (d : Dev) (a : Nat) : Nat → List Byte → Wr
  | 0, _ => (d, true)
  | n + 1, b =>
    let (d, ok) := d.writeReg a (ofLE (b.take 4))
    let (d, more) := d.writeRegs (a + 4) n (b.drop 4)
    (d, ok && more)

/-- The memory address of a place that is plain memory. -/
def plainAddr (q : Nat) : Place → Nat
  | .hbm x => q * 2 ^ 44 + x
  | .pad b x | .padLatch b x | .padForce b x => padAddr q b x
  | .cellMem b c x => clmAddr (cellNo q b c) x
  | .sram x | .sramLatch x | .sramForce x => sramAddr q x
  | .packets x => q * 2 ^ 44 + 0xB0000000000 + x
  | .istore b x => istoreAddr q b x
  | .regionReg x => rgnReg q x
  | .blockReg b x => blkReg q b x
  | .chip x => chpReg q x
  | .nowhere => 0

/-- Refuse an access to the secure partition of a block from the fabric, where it touches the partition (R534). -/
def securePart (d : Dev) (w : Who) (q : Region) : Place → Nat → Option Dev
  | .pad b x, n | .padLatch b x, n | .padForce b x, n =>
    if d.inSecure q.val b x n && !d.secPermits w q.val b then some (d.secReject q b) else none
  | _, _ => none

/-- Whether an alias access is one that its memory refuses: not an aligned word, or a word of table SRAM within a table (R54, R457). -/
def aliasRefused (d : Dev) (q : Region) (n : Nat) : Place → Bool
  | .padLatch _ x | .padForce _ x => !wordAccess x n
  | .sramLatch x | .sramForce x => !wordAccess x n || d.sramUsed q x
  | _ => false

/-- The block and offset of a scratchpad latch word; none in table SRAM. -/
def padOf : Place → Option (Nat × Nat)
  | .padLatch b x => some (b, x)
  | _ => none

/-- A read of `n` bytes at an offset of a Mladus region, by a requester whose holder ID is `id`. -/
def serveRead (d : Dev) (w : Who) (id : Nat) (q : Region) (o n : Nat) : Dev × Status × List Byte :=
  let p := placeOf o
  let a := plainAddr q.val p
  match d.refuses w q o n false, d.securePart w q p n with
  | some st, _ => (d, st, [])
  | none, some d => (d, .access, [])
  | none, none =>
    if d.aliasRefused q n p then (d, .access, [])
    else match p with
      | .regionReg x =>
        match paneWindow x with
        | some (pane, store, off) => if d.paneAssigned q.val pane store off n then (d, .ok, d.bytes a n) else (d, .decode, [])
        | none => if n % 4 = 0 ∧ x % 4 = 0 then (let (d, b) := d.readRegs a (n / 4); (d, .ok, b)) else (d, .access, [])
      | .blockReg _ x | .chip x =>
        if n % 4 = 0 ∧ x % 4 = 0 then (let (d, b) := d.readRegs a (n / 4); (d, .ok, b)) else (d, .access, [])
      | .hbm x =>
        if d.stackFailed q.val then (d, .poisoned, [])
        else if d.parked q.val then (d, .busy, [])
        else
          let bad := d.anyPoison a n
          let b := d.bytes a n
          (d.serveHbm q ⟨5, false, x, n, [], false⟩, if bad then .poisoned else .ok, if bad then [] else b)
      | .padLatch _ _ | .sramLatch _ =>
        if d.poisoned a then (d, .poisoned, [])
        else (let (d, v) := d.latchRead q a id (padOf p); (d, .ok, bytesLE 4 v.toNat))
      | _ => if d.anyPoison a n then (d, .poisoned, []) else (d, .ok, d.bytes a n)

/-- A write of bytes at an offset of a Mladus region, by a requester whose holder ID is `id`. -/
def serveWrite (d : Dev) (w : Who) (id : Nat) (q : Region) (o : Nat) (data : List Byte) : Dev × Status :=
  let p := placeOf o
  let n := data.length
  let a := plainAddr q.val p
  match d.refuses w q o n true, d.securePart w q p n with
  | some st, _ => (d, st)
  | none, some d => (d, .access)
  | none, none =>
    if d.aliasRefused q n p then (d, .access)
    else match p with
      | .regionReg x =>
        match paneWindow x with
        | some (pane, store, off) => match d.paneWrite q pane store off data with
          | (d, .decode) => (d, .decode)
          | (d, _) => (d, .ok)
        | none => if n % 4 = 0 ∧ x % 4 = 0 then ((d.writeRegs a (n / 4) data).1, .ok) else (d, .access)
      | .blockReg _ x | .chip x => if n % 4 = 0 ∧ x % 4 = 0 then ((d.writeRegs a (n / 4) data).1, .ok) else (d, .access)
      | .hbm x =>
        if d.stackFailed q.val then (d, .poisoned) else if d.parked q.val then (d, .busy) else (d.serveHbm q ⟨5, true, x, 0, data, false⟩, .ok)
      | .padLatch _ _ | .sramLatch _ => (d.latchWrite q a id (ofLE data) (padOf p), .ok)
      | .pad b _ | .padForce b _ | .cellMem b _ _ | .istore b _ =>
        let (d, lost) := d.writeLines (n + 1) a data
        (if lost then d.poisonStore q b else d, .ok)
      | _ => ((d.writeLines (n + 1) a data).1, .ok)

/-- The value that an AMO writes (R464). -/
def amoValue (swap : Bool) (old v : Nat) : Nat := if swap then v else (old + v) % 2 ^ 32

/-- An AMO at an offset of a Mladus region: only a scratchpad takes one (R464–R466). -/
def serveAmo (d : Dev) (w : Who) (q : Region) (o : Nat) (swap : Bool) (v : Nat) : Dev × Status × Nat :=
  match placeOf o with
  | .pad b x =>
    let a := padAddr q.val b x
    match d.refuses w q o 4 true, d.securePart w q (.pad b x) 4 with
    | some st, _ => (d, st, 0)
    | none, some d => (d, .access, 0)
    | none, none =>
      if x % 4 ≠ 0 then (d, .access, 0)
      else if d.poisoned a then (d, .poisoned, 0)
      else ((d.setLE a 4 (amoValue swap (d.le a 4) v)).bevent q b 0x023 (x / 32 % 16), .ok, d.le a 4)
  | .nowhere => (d, .decode, 0)
  | _ => (d, .access, 0)

/-! ### A guest region (R80, R685, R688) -/

/-- The descriptor block of a guest: its magic number and version as R688 gives them, what its maker assigns, and its check code. -/
def guestBlock (r : Nat) : List Byte :=
  let b := bytesLE 4 0x464E4C43 ++ bytesLE 4 0x00010000
    ++ (List.range 56).map (fun i => BitVec.ofNat 8 (Config.guestByte (r * 256 + i))) ++ List.replicate 188 0
  b ++ bytesLE 4 (crc32cOf b)

/-- A read of the fixed ranges of a guest. -/
def guestRead (d : Dev) (r o n : Nat) : List Byte :=
  if o < 0x90000001000 then sliceOf (guestBlock r) (o - 0x90000000000) n
  else sliceOf (bytesLE 4 (d.reg (RGN_GUEST_CTL r)).toNat ++ bytesLE 4 (d.reg (RGN_GUEST_STAT r)).toNat
    ++ bytesLE 4 (d.reg (RGN_GUEST_IRQ r)).toNat) (o - 0x90000001000) n

/-! ### Completion at the requester (R364, R664, R728) -/

/-- A fault that a response brings to a context: its instruction's own pc and address are reported. -/
def responseFault (d : Dev) (k cause : Nat) (pc addr : Word) : Dev :=
  let halted := (d.ctx k).mode == .debugHalted
  let d := (d.modCtx k (fun c => { c with pc })).except k cause addr
  if halted then d.modCtx k (fun c => { c with mode := .debugHalted, haltedFrom := .running }) else d

/-- The value that a load of `width` bytes puts into its register. -/
def extend (width : Nat) (signed : Bool) (v : Nat) : Word :=
  let v := v % 2 ^ (8 * width)
  if signed && bitOf v (8 * width - 1) then BitVec.ofNat 32 (v + 2 ^ 32 - 2 ^ (8 * width)) else BitVec.ofNat 32 v

/-- The cause of a failed access: poisoned data, or the access fault of its kind (R664). -/
def failCause (st : Status) (store : Bool) : Nat := if st = .poisoned then 0x19 else if store then 7 else 5

/-- What BAR2 makes of a status (R728): b2_refused with its source where the access failed. -/
def hostStatus (d : Dev) (e : Nat) (st : Status) : Dev :=
  if st = .ok then d else d.epErr (Fin.ofNat 2 e) (HST_EP_ERR_b2_refused e) 0x3C4

/-- Complete a host's read (R728): data, Completer Abort, or poisoned data, whose bytes are a free value. -/
def hostComplete (d : Dev) (e : Nat) (st : Status) (data : List Byte) : Dev :=
  let d := d.hostStatus e st
  d.emit (.completion e (if st = .ok then 0 else if st = .poisoned then 3 else 2) data)

/-- Complete what a request was for, with its status and the data that came (R664). -/
def complete (d : Dev) (p : Purpose) (st : Status) (data : List Byte) : Dev :=
  match p with
  | .load k rd width signed _ pc addr =>
    let d := d.modCtx k (fun c => { c with awaits := c.awaits.filter (· != rd) })
    if st = .ok then d.setX k rd (extend width signed (ofLE data)) else d.responseFault k (failCause st false) pc addr
  | .store k _ pc addr => if st = .ok then d else d.responseFault k (failCause st true) pc addr
  | .amo k rd _ pc addr =>
    let d := d.modCtx k (fun c => { c with awaits := c.awaits.filter (· != rd) })
    if st = .ok then d.setX k rd (BitVec.ofNat 32 (ofLE data)) else d.responseFault k (failCause st true) pc addr
  | .hostRead e => d.hostComplete e st data
  | .hostWrite e => d.hostStatus e st
  | .body _ => d

/-- Begin a read, a write (`some data`) or an AMO of a requester of region `own`; what it is for is completed at once where the target is
the region itself or the sending node answers (R665, R668). -/
def startRead (d : Dev) (own : Region) (w : Who) (addr len : Nat) (p : Purpose) : Dev :=
  let (q, o) := d.resolve own.val addr
  match d.sendStatus own.val q with
  | some st => d.complete p st []
  | none =>
    if q = own.val ∧ !d.hbmWaits q o then
      let (d, st, b) := d.serveRead w (d.whoHolder w) (R q) o len
      d.complete p st b
    else
      let (d, tag) := d.request own q p
      d.send own.val q (.rd (q * 2 ^ 44 + o) len (d.whoHolder w) 0 tag)

def startWrite (d : Dev) (own : Region) (w : Who) (addr : Nat) (data : List Byte) (p : Purpose) : Dev :=
  let (q, o) := d.resolve own.val addr
  match d.sendStatus own.val q with
  | some st => d.complete p st []
  | none =>
    if q = own.val ∧ !d.hbmWaits q o then
      let (d, st) := d.serveWrite w (d.whoHolder w) (R q) o data
      d.complete p st []
    else
      let (d, tag) := d.request own q p
      d.send own.val q (.wr (q * 2 ^ 44 + o) data.length (d.whoHolder w) 0 tag data)

def startAmo (d : Dev) (own : Region) (w : Who) (addr : Nat) (swap : Bool) (v : Nat) (p : Purpose) : Dev :=
  let (q, o) := d.resolve own.val addr
  match d.sendStatus own.val q with
  | some st => d.complete p st []
  | none =>
    if q = own.val then
      let (d, st, old) := d.serveAmo w (R q) o swap v
      d.complete p st (bytesLE 4 old)
    else
      let (d, tag) := d.request own q p
      d.send own.val q (.amo swap (q * 2 ^ 44 + o) (d.whoHolder w) 0 tag v)

/-- Complete the request that a response answers, or count the response as late (R667). -/
def respondTo (d : Dev) (r : Region) (tag : Nat) (st : Status) (data : List Byte) : Dev :=
  match d.answered r tag with
  | some (d, .body p) => match d.sending r p with
    | some x => (d.setSending r p (some (takeStitch x st descFree' data))).readBody r p 200
    | none => d
  | some (d, p) => d.complete p st data
  | none => d.lateRsp r
where
  descFree' : StitchDesc := descFree 0

/-! ### BAR2 (R727–R729, R817) -/

/-- Whether no window may reach an offset (R729): host endpoint common control and the security sub-blocks. -/
def windowBarred (o : Nat) : Bool :=
  (isChip o && ((o - 0xF0000000000) / 0x10000 == 7 || (o - 0xF0000000000) / 0x10000 == 4))
    || (decide (0x90000D00000 ≤ o) && decide (o < 0x90000E00000))

/-- The fabric address that a BAR2 access reaches, if its window lets it through (R727, R729). -/
def windowAddr (d : Dev) (e : Endpoint) (addr len : Nat) (write : Bool) : Option Nat :=
  let n := addr / 2 ^ 26
  let x := addr % 2 ^ 26
  let a := d.A
  let base := d.pair (CHP_B2W_LO a e.val n) (CHP_B2W_HI a e.val n)
  let f := base + x
  if n < 16 && d.on (CHP_B2W_CTL_enable a e.val n) && decide (x + len ≤ d.fld (CHP_B2W_CTL_size a e.val n) * 4096)
      && (if write then d.on (CHP_B2W_CTL_wr a e.val n) else d.on (CHP_B2W_CTL_rd a e.val n))
      && !windowBarred (f % 2 ^ 44) then some f else none

/-- Refuse a BAR2 access (R728): a read completes with Unsupported Request, and a write is discarded. -/
def bar2Refuse (d : Dev) (e : Endpoint) (write : Bool) : Dev :=
  let d := d.epErr e (HST_EP_ERR_b2_refused e.val) 0x3C4
  if write then d else d.emit (.completion e.val 1 [])

/-- The pieces of at most 256 bytes in which an access of `n` bytes is made, by offset and length (R662); at least one. DEDUCED: each is
a request and completes by itself (log 157). -/
def pieces (n : Nat) : List (Nat × Nat) := (List.range (max 1 ((n + 255) / 256))).map (fun i => (i * 256, min 256 (n - i * 256)))

/-- A BAR2 access. -/
def bar2 (d : Dev) (e : Endpoint) (addr : Nat) (write : Bool) (len : Nat) (data : List Byte) : Dev :=
  let n := if write then data.length else len
  let own := endpointRegion e
  if d.mode = .load then
    if addr + n ≤ 0x2000000 ∧ n ≠ 0 then
      if write then (if d.imageOpen then d.setBytes (d.imageAddr addr) data else d)
      else d.emit (.completion e.val 0 (d.bytes (d.imageAddr addr) len))
    else d.bar2Refuse e write
  else match d.windowAddr e addr n write with
    | none => d.bar2Refuse e write
    | some f => d.each (pieces n) (fun p d =>
        if write then d.startWrite own (.host e.val) (f + p.1) (sliceOf data p.1 p.2) (.hostWrite e.val)
        else d.startRead own (.host e.val) (f + p.1) p.2 (.hostRead e.val))

/-- The response message in flight to a target's requester. -/
def answerTo (d : Dev) (r src : Region) (m : Msg) : Dev := d.send r.val src.val m

/-- The link module by which a message of a region leaves for another (R669–R671): its nodes choose between the two of an edge (R670). -/
def exitModule (d : Dev) (r q : Region) (m : Msg) : Option Nat :=
  match d.route r.val r.val q.val with
  | some (n :: _) => d.carrier r.val n ((d.sourceNode r.val m ^^^ d.destNode q.val m) % 2)
  | _ => none

/-- Whether a region holds the RSP credit for a response (R658, R674): its slots, beside the 16 that only pool operations use, at the link by
which it leaves. A guest counts its own credits, and a region that no link carries the response from waits for none. -/
def rspRoom (d : Dev) (r src : Region) (m : Msg) : Bool :=
  r == src || d.guest r.val || match d.exitModule r src m with
    | some k => decide (m.slots + 16 ≤ (d.link r k).credits.getD 2 0)
    | none => true

end Dev

/-- Serve a request that reaches its target (R674, R676): it stays in flight where the target cannot serve it yet. -/
def State.serveReq (s : State) (r src : Region) (m : Msg) (waits : Dev → Bool) (f : Dev → Dev) : Out := s.doing fun d =>
  if d.nextInOrder src.val r.val m = false then .refused .noSuchUnit
  else if d.inTurn src.val r.val m = false then .next ((d.receive src.val r.val m).dropOnWay ⟨src.val, r.val, m⟩)
  else .next (if waits d then d else f (d.receive src.val r.val m))

/-! ### The commands -/

/-- Whether a read or write of `len` bytes keeps to R662. -/
def lenOk (len : Nat) : Bool := 1 ≤ len && len ≤ 256

/-- RD (R662, R664, R666, R674, R685): a read request reaches its target. One that the HBM cannot serve yet, or for whose response the target
holds no credit, stays in flight. -/
def execRd (r src : Region) (addr len holder hint tag : Nat) (s : State) : Out :=
  let o := addr % 2 ^ 44
  s.serveReq r src (.rd addr len holder hint tag)
    (fun d => lenOk len && (d.hbmWaits r.val o && !d.guest r.val || !d.rspRoom r src (.rdData .ok tag (List.replicate len 0)))) fun d =>
  if lenOk len = false then d.protoErr r
  else if d.guest r.val then
    if Dev.guestFixed o len then d.answerTo r src (.rdData .ok tag (d.guestRead r.val o len)) else d
  else
    let (d, st, b) := d.serveRead (d.whoOf src.val holder) holder r o len
    d.answerTo r src (.rdData st tag b)

/-- WR (R662, R668, R674): a write request reaches its target, which acknowledges it once it is written. -/
def execWr (r src : Region) (addr len holder hint tag : Nat) (data : List Byte) (s : State) : Out :=
  let o := addr % 2 ^ 44
  let fits := lenOk len && data.length == len
  s.serveReq r src (.wr addr len holder hint tag data)
    (fun d => fits && (d.hbmWaits r.val o && !d.guest r.val || !d.rspRoom r src (.wrAck .ok tag))) fun d =>
  if fits = false then d.protoErr r
  else if d.guest r.val then
    if Dev.guestFixed o len then
      if 0x90000001000 ≤ o ∧ len % 4 = 0 ∧ o % 4 = 0 then
        (d.writeRegs (rgnReg r.val (o - 0x90000000000)) (len / 4) data).1.answerTo r src (.wrAck .ok tag)
      else d.answerTo r src (.wrAck .access tag)
    else d
  else
    let (d, st) := d.serveWrite (d.whoOf src.val holder) holder r o data
    d.answerTo r src (.wrAck st tag)

/-- AMO (R464, R662, R674): an AMO request reaches its target. -/
def execAmo (r src : Region) (swap : Bool) (addr holder hint tag operand : Nat) (s : State) : Out :=
  s.serveReq r src (.amo swap addr holder hint tag operand) (fun d => !d.rspRoom r src (.amoData .ok tag 0)) fun d =>
  if d.guest r.val then d
  else
    let (d, st, old) := d.serveAmo (d.whoOf src.val holder) r (addr % 2 ^ 44) swap operand
    d.answerTo r src (.amoData st tag old)

/-- BODY_RD (R662, R674): the holding region serves one stitch. -/
def execBodyRd (r src : Region) (handle tag : Nat) (s : State) : Out :=
  s.serveReq r src (.bodyRd handle tag) (fun d => !d.rspRoom r src (.bodyData .ok tag 0 (List.replicate 256 0))) fun d =>
  let (st, e, b) := d.readStitch handle
  d.answerTo r src (.bodyData st tag e.word b)

/-- RD_DATA (R664, R667). -/
def execRdData (r src : Region) (status : Status) (tag : Nat) (data : List Byte) (s : State) : Out :=
  s.deliverAll src.val r.val (.rdData status tag data) fun d => d.respondTo r tag status data

/-- WR_ACK (R664, R667, R668). -/
def execWrAck (r src : Region) (status : Status) (tag : Nat) (s : State) : Out :=
  s.deliverAll src.val r.val (.wrAck status tag) fun d => d.respondTo r tag status []

/-- AMO_DATA (R664, R667). -/
def execAmoData (r src : Region) (status : Status) (tag previous : Nat) (s : State) : Out :=
  s.deliverAll src.val r.val (.amoData status tag previous) fun d => d.respondTo r tag status (bytesLE 4 previous)

/-- REQUEST_TIMEOUT (R667): no response came within RGN_CF_TIMEOUT. -/
def execRequestTimeout (r : Region) (tag : Nat) (s : State) : Out := s.doing fun d =>
  if (d.g r).requests.any (fun q => q.tag == tag) then
    let d := ((d.addSat (RGN_CF_TOCNT_timeouts r.val) 1).err (RGN_CF_ERR_timeout r.val) r 0x344).event r 0x162 0
    .next (d.respondTo r tag .timeout [])
  else .refused .noSuchUnit

/-- TARGET_BUSY (R667): a request that a Mladus target has not served within 20 µs is answered with BUSY, and nothing was done. -/
def execTargetBusy (r src : Region) (tag : Nat) (s : State) : Out := s.doing fun d =>
  let busy (m : Msg) : Option Msg := match m with
    | .rd _ _ _ _ t | .wr _ _ _ _ t _ | .amo _ _ _ _ t _ | .bodyRd _ t => if t = tag then Dev.responseOf .busy m else none
    | _ => none
  match d.wire.find? (fun f => f.src == src.val && f.dst == r.val && (busy f.msg).isSome) with
  | some f => match busy f.msg with
    | some m => .next (({ d with wire := d.wire.erase f }).answerTo r src m)
    | none => .refused .noSuchUnit
  | none => .refused .noSuchUnit

/-- BAR2_ACCESS (R727–R729, R817): a host reads or writes through its endpoint. -/
def execBar2Access (e : Endpoint) (addr : Nat) (write : Bool) (len : Nat) (data : List Byte) (s : State) : Out := s.run fun d =>
  d.bar2 e addr write len data

end Sys2Proof.Machine
end

