-- ==== Sys2Proof/Machine/Copro.lean ====
section
/-!
DEFINITION. The coprocessor of a cell (R467–R481): one 256-byte state for each context, its operations, and its image.
-/

namespace Sys2Proof.Machine

namespace Copro

/-- Bytes of the algorithm area as numbers. -/
def nats (b : List Byte) : List Nat := b.map (·.toNat)

/-- Numbers as bytes. -/
def toBytes (l : List Nat) : List Byte := l.map (BitVec.ofNat 8)

/-- Bytes `lo … lo + n − 1` of the area. -/
def at' (c : Copro) (lo n : Nat) : List Byte := sliceOf c.area lo n

/-- The state with bytes of the area replaced. -/
def put (c : Copro) (lo : Nat) (b : List Byte) : Copro :=
  { c with area := padTo lo c.area ++ b ++ sliceOf c.area (lo + b.length) (208 - lo - b.length) }

/-- Whether the state holds a GCM or a SHA computation. -/
def isGcm (c : Copro) : Bool := c.algorithm == 1 || c.algorithm == 2
def isSha (c : Copro) : Bool := c.algorithm == 3 || c.algorithm == 4

/-! ### GCM: key 0, H 32, counter block 48, GHASH accumulator 64, AAD bits 80, data bits 88, partial block 96, keystream 112 -/

/-- The key of a GCM state: 16 or 32 bytes. -/
def key (c : Copro) : List Nat := nats (c.at' 0 (if c.algorithm = 1 then 16 else 32))

/-- Leave the phase in which key and IV are given: H is computed and the counter starts at one. -/
def begin' (c : Copro) (phase : Nat) : Copro :=
  if c.phase = 0 then
    ({ (c.put 32 (toBytes (Crypto.aes c.key (List.replicate 16 0)))) with phase }).put 60 (bytesBE 4 1)
  else { c with phase }

/-- Take one whole block into the GHASH accumulator. -/
def absorb (c : Copro) (b : List Byte) : Copro :=
  c.put 64 (bytesBE 16 (Crypto.gfmul (ofBE (c.at' 64 16) ^^^ ofBE b) (ofBE (c.at' 32 16))))

/-- Pad the partial block with zeros and take it. -/
def flush (c : Copro) : Copro :=
  if c.fill = 0 then c else { (c.absorb (padTo 16 (c.at' 96 c.fill))).put 96 (padTo 16 []) with fill := 0 }

/-- Add one byte to the partial block. -/
def pushByte (c : Copro) (b : Byte) : Copro :=
  let c := { c.put (96 + c.fill) [b] with fill := c.fill + 1 }
  if c.fill = 16 then c.flush else c

/-- Add to one of the two bit lengths. -/
def addBits (c : Copro) (lo n : Nat) : Copro := c.put lo (bytesLE 8 (ofLE (c.at' lo 8) + 8 * n))

/-- The keystream for the next data byte: a new block of it where none is held. -/
def keystream (c : Copro) : Copro :=
  if c.fill = 0 then
    let ctr := (ofBE (c.at' 60 4) + 1) % 2 ^ 32
    let c := c.put 60 (bytesBE 4 ctr)
    c.put 112 (toBytes (Crypto.aes c.key (nats (c.at' 48 16))))
  else c

/-- One data byte: the byte returned, with the ciphertext byte taken into the tag. -/
def cryptByte (c : Copro) (decrypt : Bool) (b : Byte) : Copro × Byte :=
  let c := c.keystream
  let o := b ^^^ (c.at' (112 + c.fill) 1).headD 0
  (c.pushByte (if decrypt then b else o), o)

/-- Data bytes in order. -/
def crypt (decrypt : Bool) : List Byte → Copro → Copro × List Byte
  | [], c => (c, [])
  | b :: t, c =>
    let (c, o) := c.cryptByte decrypt b
    let (c, os) := crypt decrypt t c
    (c, o :: os)

/-- Complete the tag, which then stands in the place of the GHASH accumulator. -/
def complete (c : Copro) : Copro :=
  let c := (c.begin' (max 1 c.phase)).flush
  let c := c.absorb (bytesBE 8 (ofLE (c.at' 80 8)) ++ bytesBE 8 (ofLE (c.at' 88 8)))
  let j0 := c.at' 48 12 ++ bytesBE 4 1
  { c.put 64 (toBytes (Crypto.xorBytes (nats (c.at' 64 16)) (Crypto.aes c.key (nats j0)))) with phase := 3 }

/-! ### SHA: state 0, block buffer 64, message bits 192 -/

/-- The word length of the SHA in use, and the bytes of its block. -/
def shaW (c : Copro) : Nat := if c.algorithm = 3 then 32 else 64
def shaN (c : Copro) : Nat := 2 * c.shaW

/-- The state words, little-endian numbers in the image. -/
def shaState (c : Copro) : List Nat := (List.range 8).map (fun i => ofLE (c.at' (i * (c.shaW / 8)) (c.shaW / 8)))

/-- Write the state words. -/
def setShaState (c : Copro) (h : List Nat) : Copro := c.put 0 (h.flatMap (bytesLE (c.shaW / 8)))

/-- One byte of a message. -/
def shaByte (c : Copro) (b : Byte) : Copro :=
  let c := { c.put (64 + c.fill) [b] with fill := c.fill + 1 }
  if c.fill = c.shaN then
    { ((c.setShaState (Crypto.shaBlock c.shaW c.shaState (c.at' 64 c.shaN))).put 64 (List.replicate 128 0)) with fill := 0 }
  else c

/-- Pad and finish a message. -/
def shaFinish (c : Copro) : Copro :=
  let c := (Crypto.shaPad c.shaN (ofLE (c.at' 192 16) / 8)).foldl shaByte c
  { c with phase := 3 }

/-- The digest of a finished message. -/
def digest (c : Copro) : List Byte := c.shaState.flatMap (bytesBE (c.shaW / 8))

/-! ### Sums -/

/-- Fold a sum to 16 bits with end-around carry. -/
def fold16 (n : Nat) : Nat := let a := n / 65536 + n % 65536; a / 65536 + a % 65536

/-- One byte into the checksum (R472). -/
def sumByte (c : Copro) (b : Byte) : Copro :=
  { c with csum := fold16 (c.csum + (if c.sumParity then b.toNat else b.toNat * 256)), sumParity := !c.sumParity }

/-! ### The image (R476, R477) -/

/-- The 256 bytes of the image. -/
def image (c : Copro) : List Byte :=
  let mode := (if c.sumParity then 2 ^ 16 else 0) + c.fill * 256 + c.phase * 16 + c.algorithm
  let b := padTo 208 c.area ++ bytesLE 4 mode ++ bytesLE 4 c.crc32c ++ bytesLE 8 c.crc64 ++ bytesLE 4 c.csum ++ bytesLE 4 c.toeplitz
    ++ bytesLE 2 c.toeplitzUsed ++ padTo 2 [] ++ bytesLE 4 c.index ++ padTo 12 []
  b ++ bytesLE 4 (crc32cOf b)

/-- The state that an image spells; none where its check code or its mode word is wrong. -/
def ofImage (b : List Byte) : Option Copro :=
  let mode := ofLE (sliceOf b 208 4)
  let alg := mode % 16
  let fill := bitsOf mode 15 8
  let top := match alg with | 0 => 0 | 1 | 2 => 15 | 3 => 63 | _ => 127
  if crc32cOf (b.take 252) ≠ ofLE (sliceOf b 252 4) ∨ 2 ^ 17 ≤ mode ∨ 4 < alg ∨ 3 < bitsOf mode 7 4 ∨ top < fill then none
  else some {
    area := b.take 208, algorithm := alg, phase := bitsOf mode 7 4, fill := fill, sumParity := bitOf mode 16,
    crc32c := ofLE (sliceOf b 212 4), crc64 := ofLE (sliceOf b 216 8), csum := ofLE (sliceOf b 224 4),
    toeplitz := ofLE (sliceOf b 228 4), toeplitzUsed := ofLE (sliceOf b 232 2), index := ofLE (sliceOf b 236 4) }

/-! ### The operations (R471–R474) -/

/-- What an operation answers: the new state and rd, or an error code that leaves the state as it is (R473). -/
abbrev Answer := Except Nat (Copro × Nat)

/-- The valid bytes of a data operand (R470). -/
def operand (a n : Word) : List Byte := (bytesLE 4 a.toNat).take n.toNat

/-- A data operation: no bytes return the current result `cur`, and more than four are out of range (R470, R473). -/
def data (cur : Nat) (a n : Word) (c : Copro) (f : List Byte → Answer) : Answer :=
  if n = 0 then .ok (c, cur) else if 4 < n.toNat then .error 3 else f (operand a n)

def cpClear (_ _ : Word) (_ : Copro) : Answer := .ok (Dev.coproClear, 0)

/-- GCM_KEYW and GCM_IVW are accepted after GCM_INIT, before any data (R473, R474). -/
def gcmKeyw (a b : Word) (c : Copro) : Answer :=
  if !c.isGcm then .error 1 else if 8 ≤ a.toNat then .error 3 else if c.phase ≠ 0 then .error 2
  else .ok (c.put (4 * a.toNat) (bytesLE 4 b.toNat), 0)
def gcmIvw (a b : Word) (c : Copro) : Answer :=
  if !c.isGcm then .error 1 else if 3 ≤ a.toNat then .error 3 else if c.phase ≠ 0 then .error 2
  else .ok (c.put (48 + 4 * a.toNat) (bytesLE 4 b.toNat), 0)
def gcmInit (a _ : Word) (c : Copro) : Answer :=
  if 2 ≤ a.toNat then .error 3 else .ok ({ c with area := [], algorithm := 1 + a.toNat, phase := 0, fill := 0 }, 0)
def gcmAad (a n : Word) (c : Copro) : Answer :=
  data 0 a n c fun b =>
    if !c.isGcm then .error 1 else if 2 ≤ c.phase ∨ c.fill % 4 ≠ 0 then .error 2
    else .ok (b.foldl pushByte ((c.begin' 1).addBits 80 b.length), 0)

/-- GCM_ENC and GCM_DEC: data starts after the AAD, whose last block is padded; a short word ends the data (R472). -/
def gcmCrypt (decrypt : Bool) (a n : Word) (c : Copro) : Answer :=
  data 0 a n c fun b =>
    if !c.isGcm then .error 1 else if c.phase = 3 ∨ (c.phase = 2 ∧ c.fill % 4 ≠ 0) then .error 2
    else
      let c := if c.phase = 2 then c else (c.begin' 2).flush
      let (c, o) := crypt decrypt b (c.addBits 88 b.length)
      .ok (c, ofLE o)
def gcmEnc := gcmCrypt false
def gcmDec := gcmCrypt true
def gcmTag (a _ : Word) (c : Copro) : Answer :=
  if !c.isGcm then .error 1 else if 4 ≤ a.toNat then .error 3
  else
    let c := if c.phase = 3 then c else c.complete
    .ok (c, ofLE (c.at' (64 + 4 * a.toNat) 4))
def shaInit (a _ : Word) (c : Copro) : Answer :=
  if 2 ≤ a.toNat then .error 3
  else
    let c := { c with area := [], algorithm := 3 + a.toNat, phase := 0, fill := 0 }
    .ok (c.setShaState (Crypto.shaInit c.shaW), 0)
def shaData (a n : Word) (c : Copro) : Answer :=
  data 0 a n c fun b =>
    if !c.isSha then .error 1 else if c.phase = 3 then .error 2
    else .ok (b.foldl shaByte (c.put 192 (bytesLE 16 (ofLE (c.at' 192 16) + 8 * b.length))), 0)
def shaFinal (_ _ : Word) (c : Copro) : Answer :=
  if !c.isSha then .error 1 else if c.phase = 3 then .error 2 else .ok (c.shaFinish, 0)
def shaDigest (a _ : Word) (c : Copro) : Answer :=
  if !c.isSha then .error 1 else if (if c.algorithm = 3 then 8 else 12) ≤ a.toNat then .error 3
  else if c.phase ≠ 3 then .error 2 else .ok (c, ofLE (sliceOf c.digest (4 * a.toNat) 4))
def crc32cInit (a _ : Word) (c : Copro) : Answer := .ok ({ c with crc32c := a.toNat }, 0)
def crc32cData (a n : Word) (c : Copro) : Answer :=
  data c.crc32c a n c fun b => let v := Machine.crc32c c.crc32c b; .ok ({ c with crc32c := v }, v)
def crc64Init (a b : Word) (c : Copro) : Answer := .ok ({ c with crc64 := a.toNat + b.toNat * 2 ^ 32 }, 0)
def crc64Data (a n : Word) (c : Copro) : Answer :=
  data (c.crc64 % 2 ^ 32) a n c fun b => let v := Machine.crc64 c.crc64 b; .ok ({ c with crc64 := v }, v % 2 ^ 32)
def crc64Hi (_ _ : Word) (c : Copro) : Answer := .ok (c, c.crc64 / 2 ^ 32)
def csumInit (a _ : Word) (c : Copro) : Answer := .ok ({ c with csum := a.toNat % 65536, sumParity := false }, 0)
def csumData (a n : Word) (c : Copro) : Answer :=
  data c.csum a n c fun b => let c := b.foldl sumByte c; .ok (c, c.csum)
def tpzInit (_ _ : Word) (c : Copro) : Answer := .ok ({ c with toeplitz := 0, toeplitzUsed := 0 }, 0)

/-- TPZ_DATA with the block's 40-byte key (R472, R486). -/
def tpzData (key : Nat) (a n : Word) (c : Copro) : Answer :=
  data c.toeplitz a n c fun b =>
    if 36 < c.toeplitzUsed + b.length then .error 4
    else
      let c := b.foldl (fun (c : Copro) x =>
        { c with toeplitz := c.toeplitz ^^^ Crypto.toeplitzByte key c.toeplitzUsed x.toNat, toeplitzUsed := c.toeplitzUsed + 1 }) c
      .ok (c, c.toeplitz)
def idxInit (a _ : Word) (c : Copro) : Answer := .ok ({ c with index := a.toNat }, 0)
def idxData (a n : Word) (c : Copro) : Answer :=
  data 0 a n c fun b => .ok ({ c with index := indexAbsorb c.index b }, 0)
def idxResult (_ _ : Word) (c : Copro) : Answer := .ok (c, indexFinish c.index)

/-- The functions by their code (R471); none for a code that the table does not hold. -/
def function (key : Nat) (code : Nat) : Option (Word → Word → Copro → Answer) :=
  match code with
  | 0x00 => some cpClear | 0x01 => some gcmKeyw | 0x02 => some gcmIvw | 0x03 => some gcmInit | 0x04 => some gcmAad
  | 0x05 => some gcmEnc | 0x06 => some gcmDec | 0x07 => some gcmTag | 0x10 => some shaInit | 0x11 => some shaData
  | 0x12 => some shaFinal | 0x13 => some shaDigest | 0x20 => some crc32cInit | 0x21 => some crc32cData | 0x22 => some crc64Init
  | 0x23 => some crc64Data | 0x24 => some crc64Hi | 0x30 => some csumInit | 0x31 => some csumData | 0x40 => some tpzInit
  | 0x41 => some (tpzData key) | 0x50 => some idxInit | 0x51 => some idxData | 0x52 => some idxResult | _ => none

end Copro

namespace Dev

/-- The Toeplitz key of a block as one number (R486). -/
def tpzKey (d : Dev) (r b : Nat) : Nat := (List.range 10).foldl (fun a i => a * 2 ^ 32 + (d.reg (BLK_CPX_TPZ_KEY r b i)).toNat) 0

/-- Perform a coprocessor operation for a context: its result, with an error recorded where it is refused (R473). -/
def cpOp (d : Dev) (k : Nat) (f : Word → Word → Copro → Copro.Answer) (a b : Word) : Dev × Word :=
  match f a b (d.ctx k).copro with
  | .ok (c, v) => (d.modCtx k (fun x => { x with copro := c }), BitVec.ofNat 32 v)
  | .error e => (d.modCtx k (fun x => { x with cpxErr := some e }), 0)

/-- Load an image (R477): a bad one clears the state and records error 0x5. -/
def cpLoad (d : Dev) (k : Nat) (b : List Byte) : Dev :=
  match Copro.ofImage b with
  | some c => d.modCtx k (fun x => { x with copro := c })
  | none => d.modCtx k (fun x => { x with copro := coproClear, cpxErr := some 5 })

end Dev

end Sys2Proof.Machine
end

