-- ==== Sys2Proof/Machine/Isa.lean ====
section
/-!
DEFINITION. The instructions of a cell: RV32I with M, C, the two AMOs, Zicsr, and the Picot packet extension (R357–R361, R386, R387).
-/

namespace Sys2Proof.Machine

/-- What an instruction does. -/
inductive Op where
  | lui | auipc | jal | jalr | branch | load | store | alu | aluImm
  | fence | fenceI | ecall | ebreak | mret | wfi | csr | amoadd | amoswap | lr | sc
  | wfe | sev | retire | lkup | sfetch | mutreq | chopen | chput | chclose | chget | cpop | cpsave | cprestore
  | illegal
deriving DecidableEq, Repr

/-- A decoded instruction. `code` is funct3 of a load, store, branch or CSR instruction, funct7 × 8 + funct3 of an arithmetic one, the
function code of CPOP, and the aq and rl bits of an AMO; `imm` is the immediate, or the CSR number with an immediate operand above it. -/
structure Insn where
  op : Op
  rd : Nat := 0
  rs1 : Nat := 0
  rs2 : Nat := 0
  rs3 : Nat := 0
  code : Nat := 0
  imm : Word := 0
deriving DecidableEq, Repr

/-- A number of `n` bits read as signed, as a word. -/
def sx (n v : Nat) : Word := if bitOf v (n - 1) then BitVec.ofNat 32 (v + 2 ^ 32 - 2 ^ n) else BitVec.ofNat 32 v

/-- The function codes of CPOP (R471). -/
def cpCodes : List Nat :=
  [0x00, 0x01, 0x02, 0x03, 0x04, 0x05, 0x06, 0x07, 0x10, 0x11, 0x12, 0x13, 0x20, 0x21, 0x22, 0x23, 0x24, 0x30, 0x31, 0x40, 0x41,
   0x50, 0x51, 0x52]

/-- An encoding that raises illegal instruction. -/
def Insn.bad : Insn := { op := .illegal }

/-- The Picot instructions (R386, R387). -/
def decodePicot (w : Nat) : Insn :=
  let rd := bitsOf w 11 7
  let f3 := bitsOf w 14 12
  let rs1 := bitsOf w 19 15
  let rs2 := bitsOf w 24 20
  let f7 := bitsOf w 31 25
  let i (op : Op) : Insn := { op, rd, rs1, rs2 }
  let only (b : Bool) (op : Op) : Insn := if b && f7 == 0 then i op else .bad
  match bitsOf w 6 0, f3 with
  | 0x0B, 0 => only (rs2 == 0) .wfe
  | 0x0B, 1 => only (rd == 0) .sev
  | 0x0B, 2 => if rd = 0 ∧ bitsOf w 26 25 = 0 then { op := .retire, rs1, rs2, rs3 := bitsOf w 31 27 } else .bad
  | 0x2B, 0 => only (rs2 == 0) .lkup
  | 0x2B, 1 => only true .sfetch
  | 0x2B, 2 => only (rs2 == 0) .mutreq
  | 0x5B, 0 => only (rs2 == 0) .chopen
  | 0x5B, 1 => only (rd == 0) .chput
  | 0x5B, 2 => only (rs2 == 0) .chclose
  | 0x5B, 3 => only (rs2 == 0) .chget
  | 0x7B, 0 => if cpCodes.contains f7 then { i .cpop with code := f7 } else .bad
  | 0x7B, 1 => only (rd == 0 && rs2 == 0) .cpsave
  | 0x7B, 2 => only (rd == 0 && rs2 == 0) .cprestore
  | _, _ => .bad

/-- A 32-bit encoding (R357–R361). -/
def decode32 (w : Nat) : Insn :=
  let rd := bitsOf w 11 7
  let f3 := bitsOf w 14 12
  let rs1 := bitsOf w 19 15
  let rs2 := bitsOf w 24 20
  let f7 := bitsOf w 31 25
  let immI := sx 12 (bitsOf w 31 20)
  match bitsOf w 6 0 with
  | 0x37 => { op := .lui, rd, imm := BitVec.ofNat 32 (w / 4096 * 4096) }
  | 0x17 => { op := .auipc, rd, imm := BitVec.ofNat 32 (w / 4096 * 4096) }
  | 0x6F => { op := .jal, rd, imm := sx 21 (bitsOf w 31 31 * 2 ^ 20 + bitsOf w 19 12 * 2 ^ 12 + bitsOf w 20 20 * 2 ^ 11
      + bitsOf w 30 21 * 2) }
  | 0x67 => if f3 = 0 then { op := .jalr, rd, rs1, imm := immI } else .bad
  | 0x63 =>
    if f3 = 2 ∨ f3 = 3 then .bad
    else { op := .branch, rs1, rs2, code := f3, imm := sx 13 (bitsOf w 31 31 * 2 ^ 12 + bitsOf w 7 7 * 2 ^ 11 + bitsOf w 30 25 * 2 ^ 5
      + bitsOf w 11 8 * 2) }
  | 0x03 => if f3 = 3 ∨ 6 ≤ f3 then .bad else { op := .load, rd, rs1, code := f3, imm := immI }
  | 0x23 => if 3 ≤ f3 then .bad else { op := .store, rs1, rs2, code := f3, imm := sx 12 (f7 * 32 + rd) }
  | 0x13 =>
    if f3 = 1 then (if f7 = 0 then { op := .aluImm, rd, rs1, code := 1, imm := BitVec.ofNat 32 rs2 } else .bad)
    else if f3 = 5 then
      (if f7 = 0 ∨ f7 = 0x20 then { op := .aluImm, rd, rs1, code := f7 * 8 + 5, imm := BitVec.ofNat 32 rs2 } else .bad)
    else { op := .aluImm, rd, rs1, code := f3, imm := immI }
  | 0x33 =>
    if f7 = 0 ∨ f7 = 1 ∨ (f7 = 0x20 ∧ (f3 = 0 ∨ f3 = 5)) then { op := .alu, rd, rs1, rs2, code := f7 * 8 + f3 } else .bad
  | 0x0F => if f3 = 0 then { op := .fence } else if f3 = 1 then { op := .fenceI } else .bad
  | 0x73 =>
    if f3 = 0 then
      match w with
      | 0x00000073 => { op := .ecall }
      | 0x00100073 => { op := .ebreak }
      | 0x30200073 => { op := .mret }
      | 0x10500073 => { op := .wfi }
      | _ => .bad
    else if f3 = 4 then .bad
    else if f3 < 4 then { op := .csr, rd, rs1, code := f3, imm := BitVec.ofNat 32 (bitsOf w 31 20) }
    else { op := .csr, rd, code := f3, imm := BitVec.ofNat 32 (bitsOf w 31 20 + rs1 * 4096) }
  | 0x2F =>
    if f3 ≠ 2 then .bad
    else
      let a (op : Op) : Insn := { op, rd, rs1, rs2, code := f7 % 4 }
      match f7 / 4 with
      | 0 => a .amoadd
      | 1 => a .amoswap
      | 2 => a .lr
      | 3 => a .sc
      | _ => .bad
  | _ => decodePicot w

/-- A 16-bit encoding of the C extension. -/
def decode16 (h : Nat) : Insn :=
  let f3 := bitsOf h 15 13
  let r := bitsOf h 11 7
  let r2 := bitsOf h 6 2
  let p1 := bitsOf h 9 7 + 8
  let p2 := bitsOf h 4 2 + 8
  let imm6 := bitsOf h 12 12 * 32 + r2
  let lw := bitsOf h 5 5 * 64 + bitsOf h 12 10 * 8 + bitsOf h 6 6 * 4
  let jump := sx 12 (bitsOf h 12 12 * 2 ^ 11 + bitsOf h 8 8 * 2 ^ 10 + bitsOf h 10 9 * 2 ^ 8 + bitsOf h 6 6 * 2 ^ 7 + bitsOf h 7 7 * 2 ^ 6
    + bitsOf h 2 2 * 2 ^ 5 + bitsOf h 11 11 * 2 ^ 4 + bitsOf h 5 3 * 2)
  let br := sx 9 (bitsOf h 12 12 * 2 ^ 8 + bitsOf h 6 5 * 2 ^ 6 + bitsOf h 2 2 * 2 ^ 5 + bitsOf h 11 10 * 2 ^ 3 + bitsOf h 4 3 * 2)
  match bitsOf h 1 0, f3 with
  | 0, 0 =>
    let imm := bitsOf h 10 7 * 64 + bitsOf h 12 11 * 16 + bitsOf h 5 5 * 8 + bitsOf h 6 6 * 4
    if imm = 0 then .bad else { op := .aluImm, rd := p2, rs1 := 2, imm := BitVec.ofNat 32 imm }
  | 0, 2 => { op := .load, rd := p2, rs1 := p1, code := 2, imm := BitVec.ofNat 32 lw }
  | 0, 6 => { op := .store, rs1 := p1, rs2 := p2, code := 2, imm := BitVec.ofNat 32 lw }
  | 1, 0 => { op := .aluImm, rd := r, rs1 := r, imm := sx 6 imm6 }
  | 1, 1 => { op := .jal, rd := 1, imm := jump }
  | 1, 2 => { op := .aluImm, rd := r, imm := sx 6 imm6 }
  | 1, 3 =>
    if r = 2 then
      let imm := bitsOf h 12 12 * 512 + bitsOf h 4 3 * 128 + bitsOf h 5 5 * 64 + bitsOf h 2 2 * 32 + bitsOf h 6 6 * 16
      if imm = 0 then .bad else { op := .aluImm, rd := 2, rs1 := 2, imm := sx 10 imm }
    else if imm6 = 0 then .bad else { op := .lui, rd := r, imm := sx 18 (imm6 * 4096) }
  | 1, 4 =>
    match bitsOf h 11 10 with
    | 0 => if bitOf h 12 then .bad else { op := .aluImm, rd := p1, rs1 := p1, code := 5, imm := BitVec.ofNat 32 r2 }
    | 1 => if bitOf h 12 then .bad else { op := .aluImm, rd := p1, rs1 := p1, code := 0x105, imm := BitVec.ofNat 32 r2 }
    | 2 => { op := .aluImm, rd := p1, rs1 := p1, code := 7, imm := sx 6 imm6 }
    | _ =>
      if bitOf h 12 then .bad
      else { op := .alu, rd := p1, rs1 := p1, rs2 := p2, code := (match bitsOf h 6 5 with | 0 => 0x100 | 1 => 4 | 2 => 6 | _ => 7) }
  | 1, 5 => { op := .jal, rd := 0, imm := jump }
  | 1, 6 => { op := .branch, rs1 := p1, code := 0, imm := br }
  | 1, 7 => { op := .branch, rs1 := p1, code := 1, imm := br }
  | 2, 0 => if bitOf h 12 then .bad else { op := .aluImm, rd := r, rs1 := r, code := 1, imm := BitVec.ofNat 32 r2 }
  | 2, 2 =>
    if r = 0 then .bad
    else { op := .load, rd := r, rs1 := 2, code := 2,
           imm := BitVec.ofNat 32 (bitsOf h 3 2 * 64 + bitsOf h 12 12 * 32 + bitsOf h 6 4 * 4) }
  | 2, 4 =>
    if bitOf h 12 then
      if r2 ≠ 0 then { op := .alu, rd := r, rs1 := r, rs2 := r2 }
      else if r = 0 then { op := .ebreak } else { op := .jalr, rd := 1, rs1 := r }
    else if r2 ≠ 0 then { op := .alu, rd := r, rs2 := r2 }
    else if r = 0 then .bad else { op := .jalr, rs1 := r }
  | 2, 6 =>
    { op := .store, rs1 := 2, rs2 := r2, code := 2, imm := BitVec.ofNat 32 (bitsOf h 8 7 * 64 + bitsOf h 12 9 * 4) }
  | _, _ => .bad

/-- The instruction that the bits fetched spell: two bytes where the low bits of the first are not 0b11, else four. -/
def decodeInsn (w : Nat) : Insn := if w % 4 = 3 then decode32 w else decode16 w

/-- The arithmetic of RV32I and M, by funct7 × 8 + funct3. -/
def aluOp (code : Nat) (a b : Word) : Word :=
  match code with
  | 0x000 => a + b
  | 0x100 => a - b
  | 0x001 => a <<< (b.toNat % 32)
  | 0x002 => if a.slt b then 1 else 0
  | 0x003 => if a.ult b then 1 else 0
  | 0x004 => a ^^^ b
  | 0x005 => a >>> (b.toNat % 32)
  | 0x105 => a.sshiftRight (b.toNat % 32)
  | 0x006 => a ||| b
  | 0x007 => a &&& b
  | 0x008 => a * b
  | 0x009 => BitVec.ofInt 32 (a.toInt * b.toInt / 2 ^ 32)
  | 0x00A => BitVec.ofInt 32 (a.toInt * b.toNat / 2 ^ 32)
  | 0x00B => BitVec.ofNat 32 (a.toNat * b.toNat / 2 ^ 32)
  | 0x00C => if b = 0 then BitVec.allOnes 32 else a.sdiv b
  | 0x00D => if b = 0 then BitVec.allOnes 32 else a.udiv b
  | 0x00E => if b = 0 then a else a.srem b
  | _ => if b = 0 then a else a.umod b

/-- Whether a branch is taken, by funct3. -/
def branchTaken (code : Nat) (a b : Word) : Bool :=
  match code with
  | 0 => a == b
  | 1 => a != b
  | 4 => a.slt b
  | 5 => !a.slt b
  | 6 => a.ult b
  | _ => !a.ult b

end Sys2Proof.Machine
end

