-- ==== Sys2Proof/Machine/Cells.lean ====
section
/-!
DEFINITION. How a cell fetches and issues an instruction, and how its contexts reach memory (R362, R363, R387, R413, R450–R466, R520–R544).
-/

namespace Sys2Proof.Machine

namespace Dev

/-! ### Fetch (R362, R413, R530, R541, R542) -/

/-- Two bytes of the instruction store at a byte offset, through the cell's cache of 64-byte lines, and the misses met; none where the
line to be filled is poisoned. Which line a fill evicts is left open; a locked cache allocates none. -/
def fetchHalf (d : Dev) (k pc : Nat) : Dev × Option Nat × Nat :=
  let r := ctxRegion k
  let b := ctxBlock k
  let c := k / 32
  match (d.cell c).icache.find? (·.1 == pc / 64) with
  | some l => (d, some (ofLE (sliceOf l.2 (pc % 64) 2)), 0)
  | none =>
    let base := istoreAddr r b (pc / 64 * 64)
    if d.on (CEL_ICACHE_CTL_lock c) then
      (d, if d.poisoned (base + pc % 64) then none else some (d.le (base + pc % 64) 2), 1)
    else if d.anyPoison base 64 then (d, none, 1)
    else
      let line := (pc / 64, d.bytes base 64)
      (d.modCell c (fun x => { x with icache := x.icache.eraseIdx (d.freeNat 70 % 256) ++ [line] }), some (d.le (base + pc % 64) 2), 1)

/-- What a fetch gives, with the misses met: an instruction's bits, or the fault that it raises, and whether a poisoned line does. -/
inductive Fetched where
  | bits (d : Dev) (w misses : Nat)
  | fault (d : Dev) (poison : Bool) (misses : Nat)

/-- A fetch from a poisoned line (R530). -/
def fetchPoison (d : Dev) (k : Nat) : Dev :=
  d.err (BLK_MEM_ERR_ifetch_poison (ctxRegion k) (ctxBlock k)) (R (ctxRegion k)) (0x84 + ctxBlock k * 8)

/-- Fetch the instruction at a context's pc: two bytes, or four where the low bits of the first are 0b11. -/
def fetch (d : Dev) (k : Nat) : Fetched :=
  let pc := (d.ctx k).pc.toNat / 2 * 2
  if 2 ^ 19 ≤ pc then .fault d false 0
  else match d.fetchHalf k pc with
    | (d, none, m) => .fault d true m
    | (d, some lo, m) =>
      if lo % 4 ≠ 3 then .bits d lo m
      else if 2 ^ 19 ≤ pc + 2 then .fault d false m
      else
        let two (n : Nat) : Nat := if pc / 64 = (pc + 2) / 64 then m else m + n
        match d.fetchHalf k (pc + 2) with
        | (d, none, n) => .fault d true (two n)
        | (d, some hi, n) => .bits d (hi * 65536 + lo) (two n)

/-! ### Issue (R357, R387, R399, R411, R412) -/

/-- An instruction of a context has its effect and retires: the pc goes to the instruction after it. -/
def advance (d : Dev) (k len : Nat) : Dev :=
  d.modCtx k (fun c => { c with pc := c.pc + BitVec.ofNat 32 len, instret := (c.instret + 1) % 2 ^ 64 })

/-- An instruction's block events, counted after its effect: what they cause interrupts the context behind the instruction. -/
def counted (d : Dev) (k misses : Nat) (sels : List Nat) : Dev :=
  d.each (List.replicate misses 0x01E ++ sels) (fun sel d => d.bevent (R (ctxRegion k)) (ctxBlock k) sel (ctxQual k))

/-- Issue the instruction `w` of a context, if that is what it fetches and `row` takes it: a fetch may fault instead, and an
instruction whose operands a response or a mutation request has still to write waits. -/
def issue (d : Dev) (u : CtxId) (w : Word) (row : Dev → Nat → Insn → Bool) (f : Dev → Nat → Insn → Nat → Res) : Res :=
  let k := ctxNo u
  if !d.ctxRuns k then .refused .noSuchUnit
  else if (d.ctx k).mode ≠ .running ∨ (d.ctx k).mutRd.isSome ∨ d.blockState u.region.val u.block.val ≠ 0 then .refused .stalled
  else match d.fetch k with
    | .fault d poison m =>
      let e := d.except k 1 (d.ctx k).pc
      .next ((if poison then e.fetchPoison k else e).counted k m [])
    | .bits d x m =>
      let i := decodeInsn x
      if BitVec.ofNat 32 x ≠ w || !row d k i then .refused .otherInstruction
      else if [i.rd, i.rs1, i.rs2, i.rs3].any (fun n => n != 0 && (d.ctx k).awaits.contains n) then .refused .stalled
      else match f d k i (if x % 4 = 3 then 4 else 2) with
        | .next e => .next (e.counted k m [0x010])
        | r => r

/-- A row that takes one kind of instruction. -/
def only (op : Op) (_ : Dev) (_ : Nat) (i : Insn) : Bool := i.op == op

/-- The trap value of an illegal instruction or a breakpoint, which the spec does not give: a free value. -/
def openTval (d : Dev) : Word := BitVec.ofNat 32 (d.freeNat 90)

/-- Raise illegal instruction (R387, R404). -/
def illegal (d : Dev) (k : Nat) : Dev := d.except k 2 d.openTval

/-- Whether a context is a worker that holds a packet (R386). -/
def holdsPacket (d : Dev) (k : Nat) : Bool := k % 32 != 16 && (d.ctx k).held.isSome

/-- Whether a context's coprocessor instructions are enabled (R469, R480). -/
def cpEnabled (d : Dev) (k : Nat) : Bool := if k % 32 = 16 then d.on (CEL_CPXEN_m_en (k / 32)) else d.on (CEL_CPXEN_u_en (k / 32))

/-! ### Data addresses (R363) -/

/-- What a cell's data address names. -/
inductive Area where
  | clm (x : Nat)
  | pad (x : Nat)
  | padLatch (x : Nat)
  | padForce (x : Nat)
  | sramLatch (x : Nat)
  | window (a : Nat)
deriving DecidableEq, Repr

/-- Whether a context may use a byte of its cell's memory (R363): the data area, and of the frames a worker its own. -/
def clmMay (k x : Nat) : Bool :=
  decide (x < 0x8000) || k % 32 == 16 && decide (x < 0x10000)
    || decide (0x8000 + k % 32 * 0x800 ≤ x) && decide (x < 0x8000 + (k % 32 + 1) * 0x800)

/-- Whether a byte of a cell's memory lies in the data area or in the context's own window frames, which only workers have (R379, R442,
R475). -/
def ownArea (k x : Nat) : Bool :=
  decide (x < 0x8000) || k % 32 != 16 && decide (0x8000 + k % 32 * 0x800 ≤ x) && decide (x < 0x8000 + (k % 32 + 1) * 0x800)

/-- The base of a cell's fabric window (R425). -/
def fabWin (d : Dev) (c : Nat) : Nat := d.pair (CEL_FABWIN_LO c) (CEL_FABWIN_HI c)

/-- Decode a data address of `n` bytes for a context; none where no row of R363 holds it or the row shuts the context out. -/
def areaOf (d : Dev) (k a n : Nat) : Option Area :=
  let z := a + n - 1
  if z < 0x10000 then (if clmMay k a && clmMay k z then some (.clm a) else none)
  else if 0x10000000 ≤ a ∧ z < 0x10200000 then some (.pad (a - 0x10000000))
  else if 0x10200000 ≤ a ∧ z < 0x10400000 then some (.padLatch (a - 0x10200000))
  else if 0x10400000 ≤ a ∧ z < 0x10600000 then (if k % 32 = 16 then some (.padForce (a - 0x10400000)) else none)
  else if 0x20000000 ≤ a ∧ z < 0x23000000 then some (.sramLatch (a - 0x20000000))
  else if 0x80000000 ≤ a ∧ z < 2 ^ 32 ∧ k % 32 = 16 then some (.window ((d.fabWin (k / 32) + (a - 0x80000000)) % 2 ^ 48))
  else none

/-- Whether an address lies in a latch alias, and in the force-release alias. -/
def latchAddr (a : Nat) : Bool :=
  decide (0x10200000 ≤ a) && decide (a < 0x10400000) || decide (0x20000000 ≤ a) && decide (a < 0x23000000)
def forceAddr (a : Nat) : Bool := decide (0x10400000 ≤ a) && decide (a < 0x10600000)

/-- Whether a context may reach bytes of its block's scratchpad (R534, R536). -/
def padMay (d : Dev) (k x n : Nat) (write : Bool) : Bool :=
  let r := ctxRegion k
  let b := ctxBlock k
  !d.inSecure r b x n || (!d.on (BLK_SEC_STAT_wiping r b) && (k % 32 == 16 || (!write && d.on (BLK_SEC_CTL_worker_rd r b))))

/-- Raise an access fault that the secure partition causes (R534). -/
def secFault (d : Dev) (k cause : Nat) (a : Word) : Dev := (d.except k cause a).secReject (R (ctxRegion k)) (ctxBlock k)

/-- Record the wait of a scratchpad access at its bank's arbiter (R523, R551). -/
def arbWait (d : Dev) (k x wait : Nat) : Dev :=
  let r := ctxRegion k
  let b := ctxBlock k
  if d.fld (BLK_SP_ARB_max_wait r b) < min wait 72 then
    (d.setFld (BLK_SP_ARB_max_wait r b) (min wait 72)).setFld (BLK_SP_ARB_bank r b) (x / 32 % 16)
  else d

/-- The bytes of memory that a Picot instruction reads or writes at a cell address: their fabric address, or the fault (R363, R389,
R394). -/
def spanOf (d : Dev) (k a n : Nat) (write : Bool) : Dev ⊕ Nat :=
  let cause := if write then 7 else 5
  match d.areaOf k a n with
  | some (.clm x) => .inr (clmAddr (k / 32) x)
  | some (.pad x) =>
    if d.padMay k x n write then .inr (padAddr (ctxRegion k) (ctxBlock k) x) else .inl (d.secFault k cause (BitVec.ofNat 32 a))
  | _ => .inl (d.except k cause (BitVec.ofNat 32 a))

/-- Read bytes for a Picot instruction: the data, or the part after the fault that the read raises. -/
def readSpan (d : Dev) (k a n : Nat) : Dev ⊕ List Byte :=
  match d.spanOf k a n false with
  | .inl d => .inl d
  | .inr x => if d.anyPoison x n then .inl (d.except k 0x19 (BitVec.ofNat 32 a)) else .inr (d.bytes x n)

/-- Write bytes in the memory of a block: what meets a poisoned line in part is discarded there (R530). -/
def writeSpan (d : Dev) (k x : Nat) (b : List Byte) : Dev :=
  let (d, lost) := d.writeLines (b.length + 1) x b
  if lost then d.poisonStore (R (ctxRegion k)) (ctxBlock k) else d

/-! ### Order (R458, R544, R668) -/

/-- Whether a context has accesses outstanding in the fabric. -/
def accessesOut (d : Dev) (k : Nat) : Bool :=
  (d.g (R (ctxRegion k))).requests.any (fun q => match q.purpose with
    | .load j _ _ _ _ _ _ | .store j _ _ _ | .amo j _ _ _ _ => j == k
    | _ => false)

/-- Whether a context has writes outstanding in the fabric. -/
def writesOut (d : Dev) (k : Nat) : Bool :=
  (d.g (R (ctxRegion k))).requests.any (fun q => match q.purpose with
    | .store j _ _ _ | .amo j _ _ _ _ => j == k
    | _ => false)

/-- Whether an ordered AMO, or an access to a latch alias, of a context still holds back its later accesses (R458, R544). -/
def heldBack (d : Dev) (k : Nat) : Bool :=
  (d.g (R (ctxRegion k))).requests.any (fun q => match q.purpose with
    | .load j _ _ _ fence _ _ | .store j fence _ _ | .amo j _ fence _ _ => j == k && fence
    | _ => false)

/-- Issue a memory instruction: it waits while an ordered access holds it back, or, where it is ordered itself, while any access of its
context is outstanding. -/
def memory (d : Dev) (k : Nat) (ordered : Bool) (f : Dev → Dev) : Res :=
  if d.heldBack k || (ordered && d.accessesOut k) then .refused .stalled else .next (f d)

/-! ### Loads and stores (R363, R456, R525–R530) -/

/-- The bytes of a load or store, by its funct3. -/
def widthOf (code : Nat) : Nat := 2 ^ (code % 4)

/-- A load completes: its value goes to its register. -/
def loaded (d : Dev) (k : Nat) (i : Insn) (len x : Nat) : Dev :=
  let n := widthOf i.code
  (d.advance k len).setX k i.rd (extend n (decide (i.code < 4)) (d.le x n))

/-- Whether a fabric address lies in a latch alias of a Mladus region (R75, R76). -/
def latchAlias (f : Nat) : Bool := match placeOf (f % 2 ^ 44) with
  | .padLatch _ _ | .sramLatch _ => true
  | _ => false

/-- The address of a load, store or AMO: an AMO has no offset. -/
def addrOf (d : Dev) (k : Nat) (i : Insn) : Word := d.xreg k i.rs1 + i.imm

/-- Mark a register as one that a response has still to write. -/
def await (d : Dev) (k rd : Nat) : Dev :=
  if rd = 0 then d else d.modCtx k (fun c => { c with awaits := c.awaits ++ [rd] })

/-- A load from any address but a latch alias. -/
def loadAt (d : Dev) (k : Nat) (i : Insn) (len wait : Nat) : Dev :=
  let a := d.addrOf k i
  let n := widthOf i.code
  match d.areaOf k a.toNat n with
  | some (.clm x) =>
    let y := clmAddr (k / 32) x
    if d.anyPoison y n then d.except k 0x19 a else d.loaded k i len y
  | some (.pad x) =>
    let y := padAddr (ctxRegion k) (ctxBlock k) x
    if !d.padMay k x n false then d.secFault k 5 a
    else if d.anyPoison y n then (d.arbWait k x wait).except k 0x19 a
    else (d.arbWait k x wait).loaded k i len y
  | some (.padForce x) =>
    let y := padAddr (ctxRegion k) (ctxBlock k) x
    if n ≠ 4 then d.except k 5 a
    else if x % 4 ≠ 0 then d.except k 4 a
    else if !d.padMay k x n false then d.secFault k 5 a
    else if d.anyPoison y n then (d.arbWait k x wait).except k 0x19 a
    else (d.arbWait k x wait).loaded k i len y
  | some (.window f) =>
    if a.toNat % n ≠ 0 then d.except k 4 a
    else ((d.advance k len).await k i.rd).startRead (R (ctxRegion k)) (.sup k) f n
      (.load k i.rd n (decide (i.code < 4)) (latchAlias f) (d.ctx k).pc a)
  | _ => d.except k 5 a

/-- A store to any address but an alias. -/
def storeAt (d : Dev) (k : Nat) (i : Insn) (len wait : Nat) : Dev :=
  let a := d.addrOf k i
  let n := widthOf i.code
  let v := bytesLE n (d.xreg k i.rs2).toNat
  match d.areaOf k a.toNat n with
  | some (.clm x) => (d.advance k len).writeSpan k (clmAddr (k / 32) x) v
  | some (.pad x) =>
    if !d.padMay k x n true then d.secFault k 7 a
    else ((d.arbWait k x wait).advance k len).writeSpan k (padAddr (ctxRegion k) (ctxBlock k) x) v
  | some (.window f) =>
    if a.toNat % n ≠ 0 then d.except k 6 a
    else (d.advance k len).startWrite (R (ctxRegion k)) (.sup k) f v (.store k (latchAlias f) (d.ctx k).pc a)
  | _ => d.except k 7 a

/-- A write through the force-release alias (R456, R457). -/
def forceAt (d : Dev) (k : Nat) (i : Insn) (len wait : Nat) : Dev :=
  let a := d.addrOf k i
  let n := widthOf i.code
  match d.areaOf k a.toNat n with
  | some (.padForce x) =>
    if n ≠ 4 then d.except k 7 a
    else if x % 4 ≠ 0 then d.except k 6 a
    else if !d.padMay k x n true then d.secFault k 7 a
    else ((d.arbWait k x wait).advance k len).writeSpan k (padAddr (ctxRegion k) (ctxBlock k) x) (bytesLE 4 (d.xreg k i.rs2).toNat)
  | _ => d.except k 7 a

/-! ### Latch words (R450–R458) -/

/-- A read through a latch alias. -/
def latchReadAt (d : Dev) (k : Nat) (i : Insn) (len wait : Nat) : Dev :=
  let r := R (ctxRegion k)
  let b := ctxBlock k
  let a := d.addrOf k i
  if widthOf i.code ≠ 4 then d.except k 5 a
  else if a.toNat % 4 ≠ 0 then d.except k 4 a
  else match d.areaOf k a.toNat 4 with
    | some (.padLatch x) =>
      let y := padAddr r.val b x
      if !d.padMay k x 4 false then d.secFault k 5 a
      else if d.poisoned y then (d.arbWait k x wait).except k 0x19 a
      else
        let (d, v) := ((d.arbWait k x wait).advance k len).latchRead r y (d.ctxHolder k) (some (b, x))
        d.setX k i.rd v
    | some (.sramLatch x) =>
      if d.sramUsed r x then d.except k 5 a
      else if d.poisoned (sramAddr r.val x) then d.except k 0x19 a
      else
        let (d, v) := (d.advance k len).latchRead r (sramAddr r.val x) (d.ctxHolder k) none
        d.setX k i.rd v
    | _ => d.except k 5 a

/-- A write through a latch alias. -/
def latchWriteAt (d : Dev) (k : Nat) (i : Insn) (len wait : Nat) : Dev :=
  let r := R (ctxRegion k)
  let b := ctxBlock k
  let a := d.addrOf k i
  let v := (d.xreg k i.rs2).toNat
  if widthOf i.code ≠ 4 then d.except k 7 a
  else if a.toNat % 4 ≠ 0 then d.except k 6 a
  else match d.areaOf k a.toNat 4 with
    | some (.padLatch x) =>
      let y := padAddr r.val b x
      if !d.padMay k x 4 true then d.secFault k 7 a
      else ((d.arbWait k x wait).advance k len).latchWrite r y (d.ctxHolder k) v (some (b, x))
    | some (.sramLatch x) =>
      if d.sramUsed r x then d.except k 7 a
      else (d.advance k len).latchWrite r (sramAddr r.val x) (d.ctxHolder k) v none
    | _ => d.except k 7 a

/-! ### AMOs (R464–R466) -/

/-- AMOADD.W, or AMOSWAP.W where `swap` holds. -/
def amoAt (d : Dev) (k : Nat) (i : Insn) (len wait : Nat) (swap : Bool) : Dev :=
  let a := d.addrOf k i
  let v := (d.xreg k i.rs2).toNat
  let done (d : Dev) (y : Nat) : Dev :=
    ((d.setLE y 4 (amoValue swap (d.le y 4) v)).advance k len).setX k i.rd (BitVec.ofNat 32 (d.le y 4))
  if a.toNat % 4 ≠ 0 then d.except k 6 a
  else match d.areaOf k a.toNat 4 with
    | some (.clm x) =>
      let y := clmAddr (k / 32) x
      if d.poisoned y then d.except k 0x19 a else done d y
    | some (.pad x) =>
      let y := padAddr (ctxRegion k) (ctxBlock k) x
      if !d.padMay k x 4 true then d.secFault k 7 a
      else
        let d := d.arbWait k x wait
        (if d.poisoned y then d.except k 0x19 a else done d y).bevent (R (ctxRegion k)) (ctxBlock k) 0x023 (x / 32 % 16)
    | some (.window f) =>
      ((d.advance k len).await k i.rd).startAmo (R (ctxRegion k)) (.sup k) f swap v
        (.amo k i.rd (i.code != 0) (d.ctx k).pc a)
    | _ => d.except k 7 a

end Dev

end Sys2Proof.Machine
end

