-- ==== Sys2Proof/Machine/Insns.lean ====
section
/-!
DEFINITION. The instructions of the RV32IMAC core and its CSRs as commands (R357–R363, R397–R430, R450–R466, R544, R716, R799).
-/

namespace Sys2Proof.Machine

namespace Dev

/-! ### Integer instructions (R357) -/

/-- Go to an address: the instruction retires there. -/
def jump (d : Dev) (k : Nat) (pc : Word) : Dev := d.modCtx k (fun c => { c with pc, instret := (c.instret + 1) % 2 ^ 64 })

/-- Whether an instruction is one of INTEGER_INSTRUCTION: computational, a branch or jump, or an encoding that no row takes. -/
def isInteger (_ : Dev) (_ : Nat) (i : Insn) : Bool :=
  match i.op with
  | .lui | .auipc | .jal | .jalr | .branch | .alu | .aluImm | .illegal => true
  | _ => false

/-- An integer instruction. -/
def integer (d : Dev) (k : Nat) (i : Insn) (len : Nat) : Dev :=
  let a := d.xreg k i.rs1
  let b := d.xreg k i.rs2
  let pc := (d.ctx k).pc
  let next := pc + BitVec.ofNat 32 len
  match i.op with
  | .lui => (d.advance k len).setX k i.rd i.imm
  | .auipc => (d.advance k len).setX k i.rd (pc + i.imm)
  | .jal => (d.jump k (pc + i.imm)).setX k i.rd next
  | .jalr => (d.jump k ((a + i.imm) &&& ~~~1#32)).setX k i.rd next
  | .branch => if branchTaken i.code a b then d.jump k (pc + i.imm) else d.advance k len
  | .alu => (d.advance k len).setX k i.rd (aluOp i.code a b)
  | .aluImm => (d.advance k len).setX k i.rd (aluOp i.code a i.imm)
  | _ => d.illegal k

/-! ### Waiting and events (R396–R399) -/

/-- WFE with a mask: complete at once where an event is set or the mask is zero, or wait. -/
def waitFor (d : Dev) (k len : Nat) (mask : Nat) (rd : Nat) : Dev :=
  let d := d.advance k len
  let got := d.events k &&& wakeBits k mask
  if mask = 0 ∨ got ≠ 0 then
    (d.modCtx k (fun c => { c with sticky := c.sticky - (c.sticky &&& (got &&& stickyMask)) })).setX k rd (BitVec.ofNat 32 (got ||| 2 ^ 31))
  else (d.modCtx k (fun c => { c with mode := .waiting, waitMask := mask, waitRd := rd })).bevent (R (ctxRegion k)) (ctxBlock k) 0x01D
    (ctxQual k)

/-! ### CSRs (R361, R414–R426, R480, R481, R716, R799) -/

/-- The CSRs that a U-mode context may read, and those that the supervisor context may reach besides. -/
def userCsr (n : Nat) : Bool := [0xC00, 0xC01, 0xC02, 0xC80, 0xC81, 0xC82].contains n || decide (0x800 ≤ n) && decide (n ≤ 0x809)
def machineCsr (n : Nat) : Bool :=
  [0x300, 0x301, 0x304, 0x305, 0x340, 0x341, 0x342, 0x343, 0x344, 0xF11, 0xF12, 0xF13, 0xF14].contains n
    || decide (0x7C0 ≤ n) && decide (n ≤ 0x7D6)

/-- The CSRs that are read-only (R361, R418, R419, R422, R426, R716); a register that a read clears is not (R27). -/
def readOnlyCsr (n : Nat) : Bool :=
  [0x301, 0x344, 0x7CB, 0x7D0, 0x7D1, 0x808, 0x809].contains n || decide (0x800 ≤ n) && decide (n ≤ 0x806) || decide (0xC00 ≤ n)

/-- Whether a context may make a CSR access: the number exists in its privilege level, and is not read-only where it writes. -/
def csrMay (k n : Nat) (write : Bool) : Bool :=
  (userCsr n || k % 32 == 16 && machineCsr n) && !(write && readOnlyCsr n)

/-- Whether a load or store goes to a latch alias through its cell's fabric window (R425, R458). -/
def windowLatch (d : Dev) (k : Nat) (i : Insn) : Bool :=
  match d.areaOf k (d.addrOf k i).toNat (widthOf i.code) with
  | some (.window f) => latchAlias f
  | _ => false

/-- The stamp of the held packet as one number (R161); zero without a packet. -/
def heldStamp (d : Dev) (k : Nat) : Nat :=
  match (d.ctx k).held.bind d.pkt with
  | some p => ofBE (stampBytes p.stamp)
  | none => 0

/-- The ingress timestamp of the held packet, ns and seconds (R716). -/
def heldTime (d : Dev) (k : Nat) : Nat × Nat :=
  match (d.ctx k).held.bind d.pkt with
  | some p => (p.rxTime % 2 ^ 30, p.rxSec)
  | none => (0, 0)

/-- Read a CSR but CEL_IRQ_CLAIM: `cycle` is the cell's cycle count since its reset, and `used` the cycles charged to the held packet. -/
def csrRead (d : Dev) (k n cycle used : Nat) : Dev × Word :=
  let c := d.ctx k
  let now := (d.g (R (ctxRegion k))).tick
  let w (v : Nat) : Dev × Word := (d, BitVec.ofNat 32 v)
  match n with
  | 0x300 => w (0x1800 + (if c.mie then 8 else 0) + (if c.mpie then 0x80 else 0))
  | 0x301 => w 0x40901105
  | 0x304 => (d, c.mieMask)
  | 0x305 => (d, c.mtvec)
  | 0x340 => (d, c.mscratch)
  | 0x341 => (d, c.mepc)
  | 0x342 => (d, c.mcause)
  | 0x343 => (d, c.mtval)
  | 0x344 => w (d.mip k)
  | 0xF13 => w (d.fld (CHP_ID_die_step d.A))
  | 0xF14 => w (k / 32)
  | 0xC00 => w cycle
  | 0xC80 => w (cycle / 2 ^ 32)
  | 0xC01 => (d.modCtx k (fun c => { c with timeh := some (BitVec.ofNat 32 (now / 2 ^ 32 % 65536)) }), BitVec.ofNat 32 now)
  | 0xC81 => (d, c.timeh.getD (BitVec.ofNat 32 (now / 2 ^ 32 % 65536)))
  | 0xC02 => w c.instret
  | 0xC82 => w (c.instret / 2 ^ 32)
  | 0x800 => w (d.ctxHolder k)
  | 0x801 => (d, d.pktWord k)
  | 0x802 => if c.held.isSome then w (min used 65535 * 65536 + c.budget % 65536) else w 0
  | 0x803 => w (d.events k)
  | 0x804 => w (d.heldStamp k)
  | 0x805 => w (d.heldStamp k / 2 ^ 32)
  | 0x806 => w (d.heldStamp k / 2 ^ 64)
  | 0x807 => (d.modCtx k (fun c => { c with cpxErr := none }), match c.cpxErr with
    | some e => BitVec.ofNat 32 (2 ^ 31 + e % 256)
    | none => 0)
  | 0x808 => (d.modCtx k (fun c => { c with rxSec := some (BitVec.ofNat 32 (d.heldTime k).2) }), BitVec.ofNat 32 (d.heldTime k).1)
  | 0x809 => (d, c.rxSec.getD (BitVec.ofNat 32 (d.heldTime k).2))
  | _ => if 0x7C0 ≤ n ∧ n ≤ 0x7D5 then d.readReg (csrReg (k / 32) n) else (d, 0)

/-- Write a CSR; a write of one that a read clears is ignored (R27). -/
def csrWrite (d : Dev) (k n : Nat) (v : Word) : Dev :=
  match n with
  | 0x300 => (d.modCtx k (fun c => { c with mie := bitOf v.toNat 3, mpie := bitOf v.toNat 7 })).interruptTrap k
  | 0x304 => (d.modCtx k (fun c => { c with mieMask := v &&& 0x30800#32 })).interruptTrap k
  | 0x305 => d.modCtx k (fun c => { c with mtvec := v &&& ~~~3#32 })
  | 0x340 => d.modCtx k (fun c => { c with mscratch := v })
  | 0x341 => d.modCtx k (fun c => { c with mepc := v &&& ~~~1#32 })
  | 0x342 => d.modCtx k (fun c => { c with mcause := v })
  | 0x343 => d.modCtx k (fun c => { c with mtval := v })
  | _ => if 0x7C0 ≤ n ∧ n ≤ 0x7D5 then (d.writeReg (csrReg (k / 32) n) v.toNat).1 else d

/-- The number of a CSR instruction. -/
def csrNumber (i : Insn) : Nat := i.imm.toNat % 4096

/-- Whether an instruction accesses one of a set of CSRs. -/
def onCsr (p : Nat → Bool) (_ : Dev) (_ : Nat) (i : Insn) : Bool := i.op == .csr && p (csrNumber i)

/-- The CSRs whose reads are commands of their own. -/
def ownRow (n : Nat) : Bool := n == 0xC01 || n == 0x808 || n == 0x7D6

/-- A CSR instruction: CSRRW always writes, the others write where their operand is not x0 or zero, and CSRRW with rd x0 does not read. -/
def csrAccess (d : Dev) (k : Nat) (i : Insn) (len cycle used : Nat) : Dev :=
  let n := csrNumber i
  let z := i.imm.toNat / 4096
  let src := if i.code < 4 then d.xreg k i.rs1 else BitVec.ofNat 32 z
  let swaps := i.code % 4 = 1
  let writes := decide swaps || (if i.code < 4 then i.rs1 != 0 else z != 0)
  if !csrMay k n writes then d.illegal k
  else
    let (d, old) : Dev × Word :=
      if swaps ∧ i.rd = 0 then (d.advance k len, 0)
      else if n = 0x7D6 then (d.advance k len).claim (R (ctxRegion k)) (ctxBlock k * 8 + ctxCell k)
      else let (d, v) := d.csrRead k n cycle used; (d.advance k len, v)
    let v := match i.code % 4 with
      | 1 => src
      | 2 => old ||| src
      | _ => old &&& ~~~src
    let d := d.setX k i.rd old
    if writes then d.csrWrite k n v else d

end Dev

/-! ### The commands -/

/-- INTEGER_INSTRUCTION (R357, R387). -/
def execIntegerInstruction (u : CtxId) (w : Word) (s : State) : Out := s.doing fun d =>
  d.issue u w Dev.isInteger fun d k i len => .next (d.integer k i len)

/-- LOAD (R363, R456, R458, R525–R530): a load from any address of the cell's map but a latch alias. -/
def execLoad (u : CtxId) (w : Word) (wait : Nat) (s : State) : Out := s.doing fun d =>
  d.issue u w (fun d k i => i.op == .load && !Dev.latchAddr (d.addrOf k i).toNat) fun d k i len =>
    d.memory k (d.windowLatch k i) (fun d => d.loadAt k i len wait)

/-- STORE (R363, R458, R525–R530): a store to any address of the cell's map but an alias. -/
def execStore (u : CtxId) (w : Word) (wait : Nat) (s : State) : Out := s.doing fun d =>
  d.issue u w (fun d k i => let a := (d.addrOf k i).toNat
    i.op == .store && !Dev.latchAddr a && !Dev.forceAddr a) fun d k i len =>
      d.memory k (d.windowLatch k i) (fun d => d.storeAt k i len wait)

/-- AMOADD_W (R464–R466). -/
def execAmoaddW (u : CtxId) (w : Word) (wait : Nat) (s : State) : Out := s.doing fun d =>
  d.issue u w (Dev.only .amoadd) fun d k i len => d.memory k (i.code != 0) (fun d => d.amoAt k i len wait false)

/-- AMOSWAP_W (R464–R466). -/
def execAmoswapW (u : CtxId) (w : Word) (wait : Nat) (s : State) : Out := s.doing fun d =>
  d.issue u w (Dev.only .amoswap) fun d k i len => d.memory k (i.code != 0) (fun d => d.amoAt k i len wait true)

/-- LR_W (R358): illegal. -/
def execLrW (u : CtxId) (w : Word) (s : State) : Out := s.doing fun d =>
  d.issue u w (Dev.only .lr) fun d k _ _ => .next (d.illegal k)

/-- SC_W (R358): illegal. -/
def execScW (u : CtxId) (w : Word) (s : State) : Out := s.doing fun d =>
  d.issue u w (Dev.only .sc) fun d k _ _ => .next (d.illegal k)

/-- LATCH_READ (R452, R453, R457, R458). -/
def execLatchRead (u : CtxId) (w : Word) (wait : Nat) (s : State) : Out := s.doing fun d =>
  d.issue u w (fun d k i => i.op == .load && Dev.latchAddr (d.addrOf k i).toNat) fun d k i len =>
    d.memory k true (fun d => d.latchReadAt k i len wait)

/-- LATCH_WRITE (R455, R457, R458). -/
def execLatchWrite (u : CtxId) (w : Word) (wait : Nat) (s : State) : Out := s.doing fun d =>
  d.issue u w (fun d k i => i.op == .store && Dev.latchAddr (d.addrOf k i).toNat) fun d k i len =>
    d.memory k true (fun d => d.latchWriteAt k i len wait)

/-- FORCE_RELEASE_WRITE (R456, R457). -/
def execForceReleaseWrite (u : CtxId) (w : Word) (wait : Nat) (s : State) : Out := s.doing fun d =>
  d.issue u w (fun d k i => i.op == .store && Dev.forceAddr (d.addrOf k i).toNat) fun d k i len =>
    d.memory k false (fun d => d.forceAt k i len wait)

/-- FENCE (R544, R668): it waits until every earlier access of the context is performed. -/
def execFence (u : CtxId) (w : Word) (s : State) : Out := s.doing fun d =>
  d.issue u w (Dev.only .fence) fun d k _ len => d.memory k true (fun d => d.advance k len)

/-- FENCE_I (R359): illegal. -/
def execFenceI (u : CtxId) (w : Word) (s : State) : Out := s.doing fun d =>
  d.issue u w (Dev.only .fenceI) fun d k _ _ => .next (d.illegal k)

/-- ECALL (R360): cause 8 in a worker, 11 in the supervisor context. -/
def execEcall (u : CtxId) (w : Word) (s : State) : Out := s.doing fun d =>
  d.issue u w (Dev.only .ecall) fun d k _ _ => .next (d.except k (if k % 32 = 16 then 11 else 8) 0)

/-- EBREAK (R404): cause 3, with no debugger attached. -/
def execEbreak (u : CtxId) (w : Word) (s : State) : Out := s.doing fun d =>
  d.issue u w (Dev.only .ebreak) fun d k _ _ => .next (d.except k 3 d.openTval)

/-- MRET (R360, R361): the supervisor context returns from a trap; illegal in a worker. -/
def execMret (u : CtxId) (w : Word) (s : State) : Out := s.doing fun d =>
  d.issue u w (Dev.only .mret) fun d k _ _ =>
    if k % 32 ≠ 16 then .next (d.illegal k)
    else .next (((d.jump k (d.ctx k).mepc).modCtx k (fun c => { c with mie := c.mpie, mpie := true })).interruptTrap k)

/-- WFI (R360): WFE with the mask 0x0007_0000 in the supervisor context; illegal in a worker. -/
def execWfi (u : CtxId) (w : Word) (s : State) : Out := s.doing fun d =>
  d.issue u w (Dev.only .wfi) fun d k _ len =>
    if k % 32 ≠ 16 then .next (d.illegal k) else .next (d.waitFor k len 0x70000 0)

/-- CSR_ACCESS (R361, R414–R426, R480, R481): every CSR but those whose reads are commands of their own. -/
def execCsrAccess (u : CtxId) (w : Word) (cycle used : Nat) (s : State) : Out := s.doing fun d =>
  d.issue u w (Dev.onCsr (fun n => !Dev.ownRow n)) fun d k i len => .next (d.csrAccess k i len cycle used)

/-- TIME_CSR_READ (R361). -/
def execTimeCsrRead (u : CtxId) (w : Word) (s : State) : Out := s.doing fun d =>
  d.issue u w (Dev.onCsr (· == 0xC01)) fun d k i len => .next (d.csrAccess k i len 0 0)

/-- CEL_RXTS_NS_READ (R716). -/
def execCelRxtsNsRead (u : CtxId) (w : Word) (s : State) : Out := s.doing fun d =>
  d.issue u w (Dev.onCsr (· == 0x808)) fun d k i len => .next (d.csrAccess k i len 0 0)

/-- CEL_IRQ_CLAIM (R798, R799). -/
def execCelIrqClaim (u : CtxId) (w : Word) (s : State) : Out := s.doing fun d =>
  d.issue u w (Dev.onCsr (· == 0x7D6)) fun d k i len => .next (d.csrAccess k i len 0 0)

/-- WFE (R397–R399). -/
def execWfe (u : CtxId) (w : Word) (s : State) : Out := s.doing fun d =>
  d.issue u w (Dev.only .wfe) fun d k i len => .next (d.waitFor k len (d.xreg k i.rs1).toNat i.rd)

/-- SEV (R388, R544): bits of a context of the same cell, once the sender's earlier writes are performed. -/
def execSev (u : CtxId) (w : Word) (s : State) : Out := s.doing fun d =>
  d.issue u w (Dev.only .sev) fun d k i len =>
    if d.heldBack k || d.writesOut k then .refused .stalled
    else
      let n := (d.xreg k i.rs1).toNat % 32
      let bits := (d.xreg k i.rs2).toNat % 256 * 256
      let d := d.advance k len
      .next (if n ≤ 16 then d.setEvents (k / 32 * 32 + n) bits else d)

end Sys2Proof.Machine
end

