-- ==== Sys2Proof/Machine/Picot.lean ====
section
/-!
DEFINITION. The Picot packet instructions as commands: verdicts, lookups, stitch fetches, mutation requests, channels and the coprocessor
(R331, R376–R395, R435–R449, R467–R481).
-/

namespace Sys2Proof.Machine

namespace Dev

/-- Issue an instruction that only a worker holding a packet may execute (R386, R387). -/
def packetOp (d : Dev) (u : CtxId) (w : Word) (op : Op) (f : Dev → Nat → Nat → Packet → Insn → Nat → Res) : Res :=
  d.issue u w (only op) fun d k i len =>
    if k % 32 = 16 then .next (d.illegal k)
    else match (d.ctx k).held with
      | none => .next (d.illegal k)
      | some n => match d.pkt n with
        | none => .next (d.illegal k)
        | some p => f d k n p i len

/-! ### Verdicts (R376, R385, R393–R395) -/

/-- Whether a verdict word is valid: its kind, its reserved bits and its count (R393, R394). -/
def verdictOk (v : Nat) : Bool := 1 ≤ v / 2 ^ 28 && v / 2 ^ 28 ≤ 4 && bitsOf v 26 5 == 0 && v % 32 ≤ 16

/-- Record a packet that used more than its budget (R376). -/
def overBudget (d : Dev) (k used : Nat) : Dev :=
  let r := ctxRegion k
  let b := ctxBlock k
  if (d.ctx k).budget < used then
    ((d.addSat (BLK_OVER_BUDGET_count r b) 1).err (BLK_CORE_ERR_over_budget r b) (R r) (0x81 + b * 8)).bevent (R r) b 0x015 (ctxQual k)
  else d

/-- Take a verdict on packet `n` with its rewrite entries; `window` are the metadata that its window holds (R391, R394, R581). The list of
a DROP is checked too (R394); a poisoned packet is dropped as POISONED before its list is looked at, DESIGN CHOICE (log 86). -/
def verdict (d : Dev) (k n : Nat) (p : Packet) (v dest : Nat) (entries : List Nat) (window : List Byte) : Dev :=
  let kind := v / 2 ^ 28
  let list := (if bitOf v 27 then [] else p.front) ++ entries
  let dest := if dest / 2 ^ 30 = 0 then ofLE (sliceOf p.cls 32 4) else dest
  let meta0 := ofLE (sliceOf window 0 4)
  if !verdictOk v then (d.setOn (BLK_CORE_ERR_verdict_invalid (ctxRegion k) (ctxBlock k))).dropPacket n 0x07
  else if kind = 2 then (if d.listFits (R p.region) p list then d else d.rewriteInvalid (R p.region)).dropPacket n 0x07
  else if p.poisoned then d.dropPacket n 0x0E
  else if kind = 3 then (d.modPkt n (fun p => { p with cls := padTo 32 window ++ p.cls.drop 32 })).recirculate n list
  else if kind = 4 then
    (if dest / 2 ^ 30 = 3 then d.forward n dest list meta0 0
     else (if d.listFits (R p.region) p list then d else d.rewriteInvalid (R p.region)).dropPacket n 0x07)
  else d.forward n dest list meta0 (ofLE (sliceOf window 24 4) % 256)

/-- The 64-bit entries of a rewrite list. -/
def entriesOf (b : List Byte) : List Nat := (List.range (b.length / 8)).map (fun i => ofLE (sliceOf b (8 * i) 8))

/-- End the packet that a worker holds with a verdict: the worker is idle until its next packet starts (R395). -/
def retirePacket (d : Dev) (k n : Nat) (p : Packet) (v dest used : Nat) (entries : List Nat) : Dev :=
  let window := d.bytes (clmAddr (k / 32) (frameOff k (d.ctx k).heldNumber + 0x140)) 32
  let d := (d.overBudget k used).endHeld k
  (d.modCtx k (fun c => { c with mode := d.restState k })).verdict k n p v dest entries window

/-! ### Lookups and stitch fetches (R316, R388–R391) -/

/-- The lookups that a context, and a block, have outstanding. -/
def lookupsOf (c : Ctx) : Nat := (c.outstanding.filter (fun o => match o with
  | .lookup _ _ _ _ _ => true
  | .fetch _ _ _ => false)).length
def fetchesOf (c : Ctx) : Nat := c.outstanding.length - lookupsOf c
def blockLookups (d : Dev) (r b : Nat) : Nat :=
  ((d.ctxs.filter (fun e => ctxRegion e.1 == r && ctxBlock e.1 == b)).map (fun e => lookupsOf e.2)).sum

/-- Issue the lookup whose request lies at a cell address (R389, R390). -/
def lookupAt (d : Dev) (k : Nat) (i : Insn) (len : Nat) : Dev :=
  let a := (d.xreg k i.rs1).toNat
  let fault (cause x : Nat) : Dev := d.except k cause (BitVec.ofNat 32 x)
  if a % 8 ≠ 0 then fault 5 a
  else match d.readSpan k a 8 with
    | .inl d => d
    | .inr h =>
      let table := ofLE (sliceOf h 0 2)
      let keyLen := ofLE (sliceOf h 2 1)
      let result := ofLE (sliceOf h 4 2)
      if keyLen = 0 ∨ 48 < keyLen then (d.advance k len).setX k i.rd 9
      else match d.readSpan k (a + 8) keyLen with
        | .inl d => d
        | .inr key =>
          if result % 32 ≠ 0 then fault 7 result
          else match d.spanOf k result 32 true with
            | .inl d => d
            | .inr x =>
              let d := (d.writeSpan k x [0]).modCtx k (fun c => { c with
                outstanding := c.outstanding ++ [.lookup table key result (ofLE (sliceOf h 6 2)) true] })
              ((d.bevent (R (ctxRegion k)) (ctxBlock k) 0x017 (ctxQual k)).advance k len).setX k i.rd 0

/-- Issue the fetch of stitch rs2 of a packet's chain to a cell address (R388, R390). -/
def fetchAt (d : Dev) (k : Nat) (p : Packet) (i : Insn) (len : Nat) : Dev :=
  let a := (d.xreg k i.rs1).toNat
  let s := (d.xreg k i.rs2).toNat
  if a % 64 ≠ 0 then d.except k 7 (BitVec.ofNat 32 a)
  else match d.spanOf k a 256 true with
    | .inl d => d
    | .inr _ =>
      match (d.stitches 512 0 p.head)[s]? with
      | none => (d.advance k len).setX k i.rd 0
      | some h =>
        let d := d.modCtx k (fun c => { c with outstanding := c.outstanding ++ [.fetch a h true] })
        ((d.bevent (R (ctxRegion k)) (ctxBlock k) 0x018 (ctxQual k)).advance k len).setX k i.rd (BitVec.ofNat 32 (d.desc h).bytes)

/-- Complete a stitch fetch (R385, R391): its bytes go to the destination, or zeros where they are uncorrectable, and the packet is
then poisoned. -/
def fetchDone (d : Dev) (k dest h : Nat) : Dev :=
  let st := (d.readStitch h).1
  let b := if st = Status.ok then d.bytes (d.stitchAddr h) 256 else List.replicate 256 0
  let d := match d.areaOf k dest 256 with
    | some (.clm x) => d.writeSpan k (clmAddr (k / 32) x) b
    | some (.pad x) => d.writeSpan k (padAddr (ctxRegion k) (ctxBlock k) x) b
    | _ => d
  let d := match (d.ctx k).held with
    | some n => if st = Status.ok then d else d.modPkt n (fun p => { p with poisoned := true })
    | none => d
  d.setEvents k 2

/-! ### Mutation requests (R116, R330, R331, R392) -/

/-- The record of a request, with the fields that its region fills (R327). -/
def programRecord (d : Dev) (r : Region) (p : Packet) (m : Mut) : Mut :=
  { m with source := 2, region := r.val, seq := 0, port := p.stamp.port,
           stampAge := ticksAhead (d.g r).tick p.stamp.tick % 16, time := p.stamp.time,
           owner := if (d.table r m.table).kind = 1 then r.val else m.owner }

/-- Request a mutation: the part after it and the issue outcome (R331). Outside the run modes it is a direct write (R116). -/
def request' (d : Dev) (k : Nat) (p : Packet) (b : List Byte) : Dev × Nat :=
  let r := R (ctxRegion k)
  let m := Mut.ofBytes b
  let t := d.table r m.table
  if (t.kind ≠ 1 ∧ t.kind ≠ 8) ∨ !t.progOk ∨ m.op = 0 ∨ m.op = 7 ∨ !d.recordOk r m (Mut.reservedOf b) then (d, 9)
  else
    let m := d.programRecord r p m
    if (d.g r).mode.isRun then
      match d.stage r m (.program k) with
      | (d, true) => (d, 0)
      | (d, false) => (d, 2)
    else
      let held := d.holdsDirect r
      let (d, x) := d.directAll r m true (.program k)
      (d.when (!held) (·.event r 0x126 x.code), 0)

/-- Issue the mutation request whose record lies at a cell address: its outcome reaches rd with MUTREQ_DONE. -/
def mutationAt (d : Dev) (k : Nat) (p : Packet) (i : Insn) (len : Nat) : Dev :=
  let a := (d.xreg k i.rs1).toNat
  match d.readSpan k a 32 with
  | .inl d => d
  | .inr h => match d.readSpan k a (32 + 32 * (Mut.ofBytes h).extCount) with
    | .inl d => d
    | .inr b =>
      let (d, v) := d.request' k p b
      let d := (d.bevent (R (ctxRegion k)) (ctxBlock k) 0x019 (ctxQual k)).advance k len
      d.modCtx k (fun c => { c with mutRd := some (i.rd, v) })

/-! ### The coprocessor (R467–R481) -/

/-- Issue a coprocessor instruction of a context that CEL_CPXEN enables (R469, R387). -/
def copro (d : Dev) (u : CtxId) (w : Word) (row : Insn → Bool) (f : Dev → Nat → Insn → Nat → Dev) : Res :=
  d.issue u w (fun _ _ i => row i) fun d k i len =>
    if !d.cpEnabled k then .next (d.except k 0x18 d.openTval)
    else .next ((f d k i len).counted k 0 [0x01C])

/-- CPOP with one function code. -/
def cpRow (d : Dev) (u : CtxId) (w : Word) (code : Nat) (f : Word → Word → Copro → Copro.Answer) : Res :=
  d.copro u w (fun i => i.op == .cpop && i.code == code) fun d k i len =>
    let (d, v) := d.cpOp k f (d.xreg k i.rs1) (d.xreg k i.rs2)
    (d.advance k len).setX k i.rd v

/-- The address of an image: 64-byte aligned, in the data area or the context's own frames (R475). -/
def imageSpan (d : Dev) (k a : Nat) : Option Nat :=
  if a % 64 ≠ 0 ∨ ownArea k a = false then none
  else match d.areaOf k a 256 with
    | some (.clm x) => some (clmAddr (k / 32) x)
    | _ => none

end Dev

/-! ### The commands -/

/-- RETIRE (R376, R393–R395): the rewrite entries are 8-byte aligned in memory that the worker may read; `used` is the packet's used
count (R374). -/
def execRetire (u : CtxId) (w : Word) (used : Nat) (s : State) : Out := s.doing fun d =>
  d.packetOp u w .retire fun d k n p i len =>
    let v := (d.xreg k i.rs1).toNat
    let dest := (d.xreg k i.rs2).toNat
    let a := (d.xreg k i.rs3).toNat
    let count := v % 32
    if !Dev.verdictOk v ∨ count = 0 then .next ((d.advance k len).retirePacket k n p v dest used [])
    else if a % 8 ≠ 0 then .next (d.except k 5 (BitVec.ofNat 32 a))
    else match d.readSpan k a (8 * count) with
      | .inl d => .next d
      | .inr b => .next ((d.advance k len).retirePacket k n p v dest used (Dev.entriesOf b))

/-- LKUP (R316, R389, R390): it waits while its worker has four lookups outstanding, or its block sixteen. -/
def execLkup (u : CtxId) (w : Word) (s : State) : Out := s.doing fun d =>
  d.packetOp u w .lkup fun d k _ _ i len =>
    if 4 ≤ Dev.lookupsOf (d.ctx k) ∨ 16 ≤ d.blockLookups u.region.val u.block.val then .refused .stalled
    else .next (d.lookupAt k i len)

/-- SFETCH (R388, R390): it waits while its worker has two fetches outstanding. -/
def execSfetch (u : CtxId) (w : Word) (s : State) : Out := s.doing fun d =>
  d.packetOp u w .sfetch fun d k _ p i len =>
    if 2 ≤ Dev.fetchesOf (d.ctx k) then .refused .stalled else .next (d.fetchAt k p i len)

/-- STITCH_FETCH_COMPLETE (R385, R391): the `i`-th operation that a context has outstanding, a stitch fetch, completes. -/
def execStitchFetchComplete (u : CtxId) (i : Nat) (s : State) : Out := s.doing fun d =>
  let k := Dev.ctxNo u
  match (d.ctx k).outstanding[i]? with
  | some (.fetch dest h live) =>
    let d := d.modCtx k (fun c => { c with outstanding := c.outstanding.eraseIdx i })
    .next (if live then d.fetchDone k dest h else d)
  | _ => .refused .noSuchUnit

/-- MUTREQ (R331, R392). -/
def execMutreq (u : CtxId) (w : Word) (s : State) : Out := s.doing fun d =>
  d.packetOp u w .mutreq fun d k _ p i len => .next (d.mutationAt k p i len)

/-- MUTREQ_DONE (R392): rd takes the issue outcome, and the worker goes on. -/
def execMutreqDone (u : CtxId) (s : State) : Out := s.doing fun d =>
  let k := Dev.ctxNo u
  match (d.ctx k).mutRd with
  | some (rd, v) => .next ((d.modCtx k (fun c => { c with mutRd := none })).setX k rd (BitVec.ofNat 32 v))
  | none => .refused .noSuchUnit

/-- CHOPEN (R440, R441). -/
def execChopen (u : CtxId) (w : Word) (s : State) : Out := s.doing fun d =>
  d.issue u w (Dev.only .chopen) fun d k i len =>
    let (d, v) := (d.advance k len).chOpen k (selOf (d.xreg k i.rs1))
    .next (d.setX k i.rd v)

/-- CHPUT (R441). -/
def execChput (u : CtxId) (w : Word) (s : State) : Out := s.doing fun d =>
  d.issue u w (Dev.only .chput) fun d k i len => .next ((d.advance k len).chPut k (selOf (d.xreg k i.rs1)) (d.xreg k i.rs2))

/-- CHCLOSE (R437, R440, R441, R544): it takes effect once the context's earlier writes are performed. -/
def execChclose (u : CtxId) (w : Word) (s : State) : Out := s.doing fun d =>
  d.issue u w (Dev.only .chclose) fun d k i len =>
    if d.heldBack k || d.writesOut k then .refused .stalled
    else
      let (d, v) := (d.advance k len).chClose k (selOf (d.xreg k i.rs1))
      .next (d.setX k i.rd v)

/-- CHGET (R440–R442): its destination is 32-byte aligned in the data area or the context's own frames. -/
def execChget (u : CtxId) (w : Word) (s : State) : Out := s.doing fun d =>
  d.issue u w (Dev.only .chget) fun d k i len =>
    let sel := selOf (d.xreg k i.rs1)
    if sel.dest % 32 ≠ 0 || !Dev.ownArea k sel.dest then .next (d.except k 7 (BitVec.ofNat 32 sel.dest))
    else
      let (d, v) := (d.advance k len).chGet k sel
      .next (d.setX k i.rd v)

/-- CP_CLEAR (R471). -/
def execCpClear (u : CtxId) (w : Word) (s : State) : Out := s.doing fun d => d.cpRow u w 0x00 Copro.cpClear

/-- GCM_KEYW (R471). -/
def execGcmKeyw (u : CtxId) (w : Word) (s : State) : Out := s.doing fun d => d.cpRow u w 0x01 Copro.gcmKeyw

/-- GCM_IVW (R471). -/
def execGcmIvw (u : CtxId) (w : Word) (s : State) : Out := s.doing fun d => d.cpRow u w 0x02 Copro.gcmIvw

/-- GCM_INIT (R474). -/
def execGcmInit (u : CtxId) (w : Word) (s : State) : Out := s.doing fun d => d.cpRow u w 0x03 Copro.gcmInit

/-- GCM_AAD (R472). -/
def execGcmAad (u : CtxId) (w : Word) (s : State) : Out := s.doing fun d => d.cpRow u w 0x04 Copro.gcmAad

/-- GCM_ENC (R472). -/
def execGcmEnc (u : CtxId) (w : Word) (s : State) : Out := s.doing fun d => d.cpRow u w 0x05 Copro.gcmEnc

/-- GCM_DEC (R472). -/
def execGcmDec (u : CtxId) (w : Word) (s : State) : Out := s.doing fun d => d.cpRow u w 0x06 Copro.gcmDec

/-- GCM_TAG (R472). -/
def execGcmTag (u : CtxId) (w : Word) (s : State) : Out := s.doing fun d => d.cpRow u w 0x07 Copro.gcmTag

/-- SHA_INIT (R474). -/
def execShaInit (u : CtxId) (w : Word) (s : State) : Out := s.doing fun d => d.cpRow u w 0x10 Copro.shaInit

/-- SHA_DATA (R472). -/
def execShaData (u : CtxId) (w : Word) (s : State) : Out := s.doing fun d => d.cpRow u w 0x11 Copro.shaData

/-- SHA_FINAL (R472). -/
def execShaFinal (u : CtxId) (w : Word) (s : State) : Out := s.doing fun d => d.cpRow u w 0x12 Copro.shaFinal

/-- SHA_DIGEST (R472). -/
def execShaDigest (u : CtxId) (w : Word) (s : State) : Out := s.doing fun d => d.cpRow u w 0x13 Copro.shaDigest

/-- CRC32C_INIT (R471). -/
def execCrc32cInit (u : CtxId) (w : Word) (s : State) : Out := s.doing fun d => d.cpRow u w 0x20 Copro.crc32cInit

/-- CRC32C_DATA (R472). -/
def execCrc32cData (u : CtxId) (w : Word) (s : State) : Out := s.doing fun d => d.cpRow u w 0x21 Copro.crc32cData

/-- CRC64_INIT (R471). -/
def execCrc64Init (u : CtxId) (w : Word) (s : State) : Out := s.doing fun d => d.cpRow u w 0x22 Copro.crc64Init

/-- CRC64_DATA (R472). -/
def execCrc64Data (u : CtxId) (w : Word) (s : State) : Out := s.doing fun d => d.cpRow u w 0x23 Copro.crc64Data

/-- CRC64_HI (R471). -/
def execCrc64Hi (u : CtxId) (w : Word) (s : State) : Out := s.doing fun d => d.cpRow u w 0x24 Copro.crc64Hi

/-- CSUM_INIT (R471). -/
def execCsumInit (u : CtxId) (w : Word) (s : State) : Out := s.doing fun d => d.cpRow u w 0x30 Copro.csumInit

/-- CSUM_DATA (R472). -/
def execCsumData (u : CtxId) (w : Word) (s : State) : Out := s.doing fun d => d.cpRow u w 0x31 Copro.csumData

/-- TPZ_INIT (R471). -/
def execTpzInit (u : CtxId) (w : Word) (s : State) : Out := s.doing fun d => d.cpRow u w 0x40 Copro.tpzInit

/-- TPZ_DATA (R472). -/
def execTpzData (u : CtxId) (w : Word) (s : State) : Out := s.doing fun d => d.cpRow u w 0x41 (Copro.tpzData (d.tpzKey u.region.val u.block.val))

/-- IDX_INIT (R471). -/
def execIdxInit (u : CtxId) (w : Word) (s : State) : Out := s.doing fun d => d.cpRow u w 0x50 Copro.idxInit

/-- IDX_DATA (R472). -/
def execIdxData (u : CtxId) (w : Word) (s : State) : Out := s.doing fun d => d.cpRow u w 0x51 Copro.idxData

/-- IDX_RESULT (R472). -/
def execIdxResult (u : CtxId) (w : Word) (s : State) : Out := s.doing fun d => d.cpRow u w 0x52 Copro.idxResult

/-- CPSAVE (R475, R476). -/
def execCpsave (u : CtxId) (w : Word) (s : State) : Out := s.doing fun d =>
  d.copro u w (·.op == .cpsave) fun d k i len =>
    let a := d.xreg k i.rs1
    match d.imageSpan k a.toNat with
    | none => d.except k 7 a
    | some x => (d.advance k len).writeSpan k x (d.ctx k).copro.image

/-- CPRESTORE (R475, R477). -/
def execCprestore (u : CtxId) (w : Word) (s : State) : Out := s.doing fun d =>
  d.copro u w (·.op == .cprestore) fun d k i len =>
    let a := d.xreg k i.rs1
    match d.imageSpan k a.toNat with
    | none => d.except k 5 a
    | some x => if d.anyPoison x 256 then d.except k 0x19 a else (d.cpLoad k (d.bytes x 256)).advance k len

end Sys2Proof.Machine
end

