-- ==== Sys2Proof/Machine/Ledger.lean ====
section
/-!
DEFINITION. Step 6 of the shutter (R96): what was written takes effect (R257, R313, R369, R603, R833, R844), routes switch (R671), links
follow their requests (R694), queues of a lost link are flushed (R594), and the unit states of the ledger are set and compared
(R776–R781).
-/

namespace Sys2Proof.Machine

/-- Whether a shutter has come: `a` is not after `k` (R84). -/
def reached (a k : Nat) : Bool := !Dev.tickAfter a k

namespace Dev

/-! ### What was written takes effect -/

/-- The register words that were to wait for this shutter (R603, R844). -/
def takeDue (d : Dev) (r : Region) : Dev :=
  let l := (d.g r).due
  (d.modR r (fun g => { g with due := [] })).each l (fun x d => d.setReg x.1 x.2)

/-- The divisions accepted (R257): the pane's memory becomes zero, and its check code is computed again. The node records and the pricking
header, which the list of R253 does not name, are zeroed with the rest of the pricking window, DESIGN CHOICE (log 147). -/
def takeDivs (d : Dev) (r : Region) : Dev :=
  let l := (d.g r).front.pendingDiv
  (d.modFront r (fun f => { f with pendingDiv := [], saved := if l = [] then f.saved else [] })).each l (fun x d =>
    let d := d.setReg (if x.1 = 0 then RGN_CLS_DIV0 r.val else RGN_CLS_DIV1 r.val) x.2
    ((d.zero (prickBase r.val x.1) 0x10000).zero (paneBase r.val x.1) 0x60000).startCode r x.1)

/-- One table descriptor takes effect (R313): every entry of the table becomes invalid, and its counters and meters become zero. -/
def takeDesc (d : Dev) (r : Region) (n : Nat) : Dev :=
  let t : TableDesc := ⟨d.reg (RGN_TBL_TYPE r.val n), d.reg (RGN_TBL_ALLOC r.val n), d.reg (RGN_TBL_AGE r.val n), d.reg (RGN_TBL_SEED r.val n)⟩
  let keep (k : Nat) : Bool := k / 2 ^ 32 != n
  let d := d.modCommit r (fun c => { c with written := c.written.filter (fun w => (d.recTable r w.mu).1 != n) })
  let d := d.modTables r (fun s => { s with
    inEffect := Sparse.set noTable s.inEffect n t, tern := s.tern.filter (fun e => keep e.1), lpm := s.lpm.filter (·.table != n),
    directValid := s.directValid.filter (fun e => keep e.1), bad := s.bad.filter (·.table != n),
    hits := s.hits.filter (fun e => keep e.1), noticed := s.noticed.filter (fun e => keep e.1) })
  (if t.kind = 0 ∨ t.kind = 3 ∨ t.kind = 7 then d else d.zero (tableAddr r t 0) t.allocBytes).countBad r

/-- The table descriptors accepted. -/
def takeDescs (d : Dev) (r : Region) : Dev :=
  let l := (d.g r).tables.pendingDesc
  (d.modTables r (fun s => { s with pendingDesc := [] })).each l (fun n d => d.takeDesc r n)

/-- A region parks (R833, R835): its blocks enter retention, and its stack goes into self-refresh, or stays in service at 6.4 Gb/s where
it holds a table. -/
def parkRegion (d : Dev) (r : Region) : Dev :=
  let d := d.setFld (RGN_PWR_REGION_state r.val) 1
  let d := d.each (List.range 16) (fun b d => d.requestBlock r b true)
  if d.tablesInHbm r then d.requestRate r 2
  else if [3, 5, 6].contains (d.hbmState r.val) then d.setFld (RGN_HBM_STAT_state r.val) 4 else d

/-- A parked region wakes (R831, R835): the blocks whose retention is not requested wake, and a stack kept in service returns to its rate. -/
def wakeRegion (d : Dev) (r : Region) : Dev :=
  let d := d.setFld (RGN_PWR_REGION_state r.val) 3
  let d := d.each ((List.range 16).filter (fun b => !bitOf (d.fld (RGN_PWR_RET_ret r.val)) b && !d.heldAsleep r b))
    (fun b d => d.requestBlock r b false)
  if d.hbmState r.val = 4 then d else d.requestRate r (d.modeRate r)

/-- Park as requested (R833): a region that is parking or waking ends that first. -/
def takePark (d : Dev) (r : Region) : Dev :=
  match d.on (RGN_PWR_REGION_park r.val), d.fld (RGN_PWR_REGION_state r.val) with
  | true, 0 => d.parkRegion r
  | false, 2 => d.wakeRegion r
  | _, _ => d

/-! ### Links and routes -/

/-- A module that is taken down: its sibling takes its traffic over, or the edge is lost. -/
def downModule (d : Dev) (r : Region) (m : Nat) : Dev :=
  let d := d.setLinkState r.val m 0
  match d.facing r.val m with
  | none => d
  | some (e, _) =>
    if d.linkState r.val (siblingModule m) = 2 then d.moveTraffic r m
    else if d.edgeLost r.val e && bitOf (d.edgesUp r.val) e then
      (d.noteRoute r none (withBit (d.edgesUp r.val) e false) (d.noticeTick r 0)).discardLost
    else d

/-- The modules follow req_up (R694, R779). -/
def takeLinks (d : Dev) (r : Region) : Dev :=
  d.each ((List.range 6).filter (fun m => (d.facing r.val m).isSome)) (fun m d =>
    match d.on (RGN_CF_LINK_req_up r.val m), d.linkState r.val m with
    | true, 0 => d.setLinkState r.val m 1
    | false, 0 => d
    | false, _ => d.downModule r m
    | true, _ => d)

/-- The edges up once the notices that name a shutter are applied together (R671): an edge that some notice loses is lost, and one that some
notice returns is up again. -/
def mergeEdges (was : Nat) (l : List Nat) : Nat :=
  (List.range 10).foldl (fun a e => if bitOf was e then withBit a e (l.all (fun x => bitOf x e)) else withBit a e (l.any (fun x => bitOf x e))) was

/-- The routes switch at the shutter that a notice names (R671, R672): a region that no route reaches any more is due for a fence. -/
def takeRoutes (d : Dev) (r : Region) (k : Nat) : Dev :=
  let l := (d.g r).routeDue.filter (fun x => reached x.2 k)
  if l.isEmpty then d
  else
    let d := (d.modR r (fun g => { g with routeDue := g.routeDue.filter (fun x => !reached x.2 k) })).discardLost
    let edges := mergeEdges (d.edgesUp r.val) (l.map (·.1))
    let whole := d.edgesInUse.all (fun e => bitOf edges e)
    let mode := if whole then (if d.fld (CHP_POPULATION_guest d.A) = 0 then 0 else 1) else 2
    let d := (d.setFld (RGN_CF_ROUTE_edges_up r.val) edges).setFld (RGN_CF_ROUTE_mode r.val) mode
    let was := d.fld (RGN_CF_ROUTE_reachable r.val)
    let now := ((List.range 8).filter (fun q => d.present q && (d.route r.val r.val q).isSome)).foldl (fun a q => a + 2 ^ q) 0
    let d := ((d.setFld (RGN_CF_ROUTE_reachable r.val) now).setParent r.val).raise r 0x343
    if r = d.anchor then
      d.each ((List.finRange 8).filter (fun q => bitOf was q.val && !bitOf now q.val)) (fun q d => d.dueFence q 0x06)
    else d

/-- The queues of the ports whose link went down are flushed (R594). -/
def takeFlush (d : Dev) (r : Region) : Dev :=
  let l := (d.g r).egress.linkFlush
  (d.modEgress r (fun x => { x with linkFlush := [] })).each l (fun p d =>
    (d.each (d.portQueues r p) (fun q d => d.flushQueue r q 0x0A)).raise r 0x203)

/-! ### The ledger -/

/-- Whether a region's ports are held DISABLED: it is fenced, or has not forwarded since its rejoin (R858, R863). -/
def portsHeld (d : Dev) (r : Region) : Bool :=
  d.fenced r.val || (match d.anchorSt.rejoin with | some x => x.region == r.val && x.phase != 5 | none => false)

/-- The effective state that a unit has now (R779). -/
def effectiveNow (d : Dev) (r : Region) (kind i : Nat) : Nat :=
  match kind with
  | 1 => if !d.on (RGN_PORT_CFG_enable r.val i) || d.portsHeld r then 0 else if d.linkUp r i then 2 else 1
  | 2 => if !d.on (RGN_EQ_CFG_enable r.val i) then 0 else if d.linkUp r (d.queuePort r i) then 1 else 2
  | 3 => match d.blockState r.val i with
    | 2 => 2
    | 3 => 3
    | _ => if d.on (BLK_CELL_RUN_run r.val i) then 1 else 0
  | 4 =>
    if d.fenced r.val then 2 else if d.recovering r.val then 3
    else match d.fld (RGN_PWR_REGION_state r.val) with
      | 0 => 0
      | 3 => 4
      | _ => 1
  | 5 => match d.linkState r.val i with
    | 0 => 0 | 1 => 5 | 2 => 1 | 3 => 2 | 4 => 3 | _ => 4
  | 6 => if (d.table r i).kind = 0 then 0 else 1
  | _ => 0

/-- The bound of a transitional state, in ps, where an effective state leads to the requested one (R779). -/
def transitional (kind requested effective : Nat) : Option Nat :=
  match kind, requested, effective with
  | 1, 2, 1 => some (500 * 10 ^ 9)
  | 3, 1, 3 => some (6 * 10 ^ 6)
  | 4, 0, 4 => some (2 * 10 ^ 9)
  | 5, 1, 5 => some (10 * 10 ^ 9)
  | 5, _, 2 => some (8 * 10 ^ 6)
  | _, _, _ => none

/-- The units of a region that may differ from a unit at rest: every port, block and link module, the region, and the queues and tables
that a register, a descriptor or the ledger knows. -/
def units (d : Dev) (r : Region) : List (Nat × Nat) :=
  let known (kind : Nat) : List Nat := ((d.g r).ledger.filter (fun e => e.1 / 2 ^ 16 == kind)).map (·.1 % 2 ^ 16)
  let queues := (d.regs.filter (fun e => RGN_EQ_CFG r.val 0 ≤ e.1 && e.1 ≤ RGN_EQ_CFG r.val 4095 && (e.1 - RGN_EQ_CFG r.val 0) % 16 == 0)).map
    (fun e => (e.1 - RGN_EQ_CFG r.val 0) / 16)
  let tables := (List.range 256).filter (fun n => (d.table r n).kind != 0 || fieldOf (d.reg (RGN_TBL_TYPE r.val n)) 28 4 != 0)
  (List.range 8).map (fun i => (1, i)) ++ (queues ++ known 2).dedup.map (fun i => (2, i)) ++ (List.range 16).map (fun i => (3, i))
    ++ [(4, 0)] ++ (((List.range 6).filter (fun m => (d.facing r.val m).isSome)).map (fun i => (5, i)))
    ++ (tables ++ known 6).dedup.map (fun i => (6, i))

/-- A port whose effective state becomes DISABLED drops its link, and its queues are flushed at the next shutter (R594). -/
def portFalls (d : Dev) (r : Region) (p : Nat) : Dev :=
  if d.linkUp r p then
    ((d.clr (RGN_PORT_STAT_link_up r.val p)).clr (RGN_PORT_STAT_lane_lock r.val p)).modEgress r
      (fun x => { x with linkFlush := if x.linkFlush.contains p then x.linkFlush else x.linkFlush ++ [p] })
  else d

/-- Raise the disagreement of a unit (R780). -/
def raiseUnit (d : Dev) (r : Region) (kind i requested effective : Nat) : Dev :=
  let id := unitId kind r.val i
  let d := if d.reg (RGN_LDG_MISMATCH r.val) = 0 then d.setReg (RGN_LDG_MISMATCH r.val) (BitVec.ofNat 32 id) else d
  (d.addSat (RGN_LDG_CNT_raised r.val) 1).post 0x0002 r.val id (bytesLE 1 requested ++ bytesLE 1 effective)

/-- Write a unit of the ledger. -/
def setUnit (d : Dev) (r : Region) (kind i : Nat) (u : LedgerUnit) : Dev :=
  d.modR r (fun g => { g with ledger := Sparse.set unitDefault g.ledger (unitKey kind i) u })

/-- Set the effective state of a unit and compare it with the requested state (R780, R781). -/
def updateUnit (d : Dev) (r : Region) (k kind i : Nat) : Dev :=
  let u := d.unit r kind i
  let v := d.effectiveNow r kind i
  let q := d.unitRequested r kind i
  let d := if kind = 1 ∧ v = 0 ∧ u.effective ≠ 0 then d.portFalls r i else d
  let passing := match transitional kind q v with
    | some b => decide (ticksAhead k u.since * d.periodPs < b)
    | none => false
  if v = q ∨ passing = true then
    d.setUnit r kind i { u with effective := v, mismatch := 0, raised := if v = q then false else u.raised }
  else
    let n := min 255 (u.mismatch + 1)
    let d := d.setUnit r kind i { u with effective := v, mismatch := n, raised := u.raised || decide (3 ≤ n) }
    if 3 ≤ n ∧ !u.raised then d.raiseUnit r kind i q v else d

/-- The units that disagree now (R784). -/
def countUnits (d : Dev) (r : Region) : Dev :=
  d.setFld (RGN_LDG_CNT_now r.val) (((d.g r).ledger.filter (fun e => e.2.mismatch != 0)).length)

/-- End the jobs that wait for a unit of this region (R776). -/
def unitJobs (d : Dev) (r : Region) (k : Nat) : Dev :=
  d.each d.runningJobs (fun j d => match j.kind with
    | .unitWait q kind i at' =>
      if q ≠ r.val ∨ !reached at' k then d
      else
        let u := d.unit r kind i
        let result := bytesLE 6 k ++ bytesLE 1 u.effective
        if u.since ≠ at' ∧ reached u.since k then d.endJob j.num stUnitMismatch u.effective result
        else if u.effective = d.unitRequested r kind i then d.endJob j.num stOk 0 result
        else if 3 ≤ u.mismatch then d.endJob j.num stUnitMismatch u.effective result
        else d
    | _ => d)

/-- Step 6: what was written takes effect, and the ledger follows. -/
def takeUnits (d : Dev) (r : Region) (k : Nat) : Dev :=
  let clk := d.fld (RGN_CLK_CFG_cell_clk r.val)
  let d := (((d.takeDue r).takeDivs r).takeDescs r).takeSlots r
  let d := if d.fld (RGN_CLK_CFG_cell_clk r.val) = clk then d else d.refreshBudgets r
  let d := ((((d.takePark r).takeLinks r).takeRoutes r k).takeFlush r)
  ((d.each (d.units r) (fun x d => d.updateUnit r k x.1 x.2)).countUnits r).unitJobs r k

end Dev

end Sys2Proof.Machine
end

