-- ==== Sys2Proof/Machine/Shutter.lean ====
section
/-!
DEFINITION. The shutter (R85–R97) with all that its ten steps hold, markers and MEMBER notices (R90–R95, R866), and the refill of
meters (R309).
-/

namespace Sys2Proof.Machine

namespace Dev

/-! ### What the anchor does as a shutter opens -/

/-- Copy one counter into its snapshot registers. -/
def snapOne (d : Dev) (cfg : Nat) : Dev := (d.setReg (cfg + 0x14) (d.reg (cfg + 4))).setReg (cfg + 0x18) (d.reg (cfg + 8))

/-- The regions that have not reported the snapshot before are marked as missed, and the snapshot named for this shutter begins (R807). -/
def openSnapshot (d : Dev) (k : Nat) : Dev :=
  let a := d.A
  let late := d.anchorSt.snapWaits
  let d := (d.modA (fun x => { x with snapWaits := [] })).each late (fun q d =>
    (d.setFld (CHP_MON_SNAP_STAT_missed a) (withBit (d.fld (CHP_MON_SNAP_STAT_missed a)) q true)).raise d.anchor 0x78)
  if d.anchorSt.snapAt = some k then
    let l := d.standing.map (·.val)
    let d := d.each (List.range 32) (fun i d => d.snapOne (CHP_MON_CFG a i))
    (((d.clr (CHP_MON_SNAP_STAT_pending a)).clr (CHP_MON_SNAP_STAT_taken a)).clr (CHP_MON_SNAP_STAT_missed a)).modA
      (fun x => { x with snapAt := none, snapDue := l, snapWaits := l })
  else d

/-- The fences that are due take effect together (R857–R860); one that is due for the region of a rejoin wins over it. -/
def openFences (d : Dev) : Dev :=
  d.each ((List.finRange 8).filter (fun q => (d.g q).commit.fenceDue != 0)) (fun q d =>
    let cause := (d.g q).commit.fenceDue
    let d := if (d.anchorSt.rejoin.map (·.region)) = some q.val then d.rejoinFail else d
    if d.fenced q.val || !d.present q.val then d.modCommit q (fun c => { c with fenceDue := 0 }) else d.fenceRegion q cause)

/-- A new tick period and a load of the PTP base take effect (R83, R711, R712). -/
def openTime (d : Dev) (k : Nat) : Dev :=
  let a := d.A
  let d := match d.anchorSt.periodDue with
    | some p =>
      let valid := d.fld (CHP_PTP_CTL_valid a)
      let d := ((d.setPtpBase k (d.ptpTime k)).setFld (CHP_PTP_CTL_valid a) valid).setFld (CHP_SHUTTER_CTL_period a) p
      (d.modA (fun x => { x with periodDue := none })).each d.mladusRegions (fun r d => d.refreshBudgets r)
    | none => d
  match d.anchorSt.ptpDue with
  | some (tick, sec, ns) =>
    if reached tick k then (d.modA (fun x => { x with ptpDue := none })).setPtpBase tick ((sec * 10 ^ 9 + ns : Nat) : Int) else d
  | none => d

/-- The guests' roles that are due change (R690); a guest that becomes committing holds the replica as of the last commit (R687). -/
def openRoles (d : Dev) (k : Nat) : Dev :=
  let l := d.anchorSt.roles.filter (fun x => reached x.1 k)
  (d.modA (fun x => { x with roles := x.roles.filter (fun y => !reached y.1 k) })).each l (fun x d =>
    (d.setFld (CHP_COMMIT_MEMBERS_committing d.A) (withBit (d.fld (CHP_COMMIT_MEMBERS_committing d.A)) x.2.1 x.2.2)).modCommit (R x.2.1)
      (fun c => { c with lastApplied := d.lastCommit }))

/-- A rejoin reaches its join tick, or the quotas under which it is done (R863, R865). -/
def openRejoin (d : Dev) (k : Nat) : Dev :=
  match d.anchorSt.rejoin with
  | some x =>
    if x.phase = 4 ∧ x.joinAt = k then d.rejoinJoin (R x.region) k
    else if x.phase = 5 ∧ 64 ≤ ticksAhead k x.joinAt ∧ d.withinQuotas x.region = true then d.rejoinDone x
    else d
  | none => d

/-- What the anchor does once at a shutter, as the first region reaches it: an anchor that is itself due for a fence plays its role no
more, and the standby takes over (R867). -/
def openShutter (d : Dev) (k : Nat) : Dev :=
  if d.anchorSt.opened = some k ∨ d.anchorLive = false then d
  else
    let d := d.modA (fun x => { x with opened := some k, drainReady := x.convergedSaid })
    if (d.g d.anchor).commit.fenceDue ≠ 0 then d.modA (fun x => { x with lost := true })
    else
      let d := (((((d.openSnapshot k).openFences).openRejoin k).openTime k).openRoles k)
      let d := if d.standby = d.A then d.chooseStandby else d
      match d.anchorSt.modeChange with
      | some m => if m.target = .drain ∧ d.mode = .regional then d.modA (fun x => { x with converging := true }) else d
      | none => d

/-! ### Step 1: the tick begins -/

/-- Refill the learn buckets (R336). -/
def refillLearn (d : Dev) (r : Region) : Dev :=
  d.each (List.range 9) (fun p d => d.setTokens r p
    (min (d.fld (RGN_LEARN_CFG_burst r.val p) * 256) (d.tokens r p + d.fld (RGN_LEARN_CFG_rate r.val p))))

/-- RGN_FE_STAT.spare_slots of the tick that ends (R241, R245): a front-end has a slot in every second region clock. -/
def spareSlots (d : Dev) (r : Region) : Dev :=
  let on := ((List.range 4).filter (bitOf (d.fld (RGN_FE_STAT_fe_active r.val)))).length
  d.setFld (RGN_FE_STAT_spare_slots r.val) (on * d.periodClocks / 2 - (d.g r).front.firstUsed)

/-- The tick count and the lists of a tick move on (R98–R101): what was staged awaits its commit, and what lies 64 ticks back is
forgotten. -/
def commitTick (d : Dev) (r : Region) (k : Nat) : Dev :=
  let before := (d.g r).tick
  let was := (d.g r).mode
  let d := d.modR r (fun g => { g with tick := k })
  let near (t : Nat) : Bool := decide (ticksAhead k t < 64)
  d.modCommit r (fun c =>
    let own := (c.staged.filter (fun x => was != Mode.regional || x.mu.fromHost)).map (fun x => (⟨before, x.mu⟩ : Copy))
    { c with started := true, lastMode := was, previous := c.staged, staged := [], lastStaged := c.staged.map (·.mu),
             copies := (c.copies ++ own).filter (fun x => near x.tick), seen := c.seen.filter near, lapsed := c.lapsed.filter near,
             held := c.held.filter (fun x => near x.tick), notices := c.notices.filter (fun x => near x.1) })

/-- Step 1 in a Mladus region. -/
def nextTick (d : Dev) (r : Region) (k : Nat) : Dev :=
  let d := (d.commitTick r k).clr (RGN_STAGE_STAT_staged r.val)
  let d := d.modEgress r (fun x => { x with markers := [], closed := false })
  let d := (d.spareSlots r).modFront r (fun f => { f with recircUsed := 0, firstUsed := 0, seqs := [] })
  let d := (d.refillLearn r).fillBuckets r
  match regionEndpoint r.val with
  | some e => d.modEp e (fun s => { s with urBlocked := [] })
  | none => d

/-- A region that received no marker for the tick is in holdover (R95). -/
def holdover (d : Dev) (r : Region) (k : Nat) : Dev :=
  if r = d.anchor then d
  else if (d.g r).commit.markerTick = (k + 2 ^ 48 - 1) % 2 ^ 48 then d.clr (RGN_SHUTTER_STAT_holdover r.val)
  else d.err (RGN_SHUTTER_STAT_holdover r.val) r 0x3E2

/-- The counters of the region and its blocks go into their snapshot registers, and the region reports (R807). -/
def snapRegion (d : Dev) (r : Region) (k : Nat) : Dev :=
  if d.anchorSt.snapDue.contains r.val then
    let d := d.each (List.range 64) (fun i d => d.snapOne (RGN_MON_CFG r.val i))
    let d := d.each (List.range 16) (fun b d => d.each (List.range 8) (fun i d => d.snapOne (BLK_MON_CFG r.val b i)))
    (d.modA (fun x => { x with snapDue := x.snapDue.filter (· != r.val) })).send r.val d.A (.snapshot k)
  else d

/-- The blocks of a region that are not retained, whose counters count (R805). -/
def countingBlocks (d : Dev) (r : Region) : List Nat := (List.range 16).filter (fun b => d.blockState r.val b != 2)

/-- The monitor event SHUTTER, which blocks, the region and the part may count (R804). -/
def shutterEvent (d : Dev) (r : Region) : Dev :=
  let (d, l) := (d.countingBlocks r).foldl (fun acc b =>
    let (d', l) := acc.1.monBank (BLK_MON_CFG r.val b 0) 8 (BLK_MON_HIT r.val b) none 4096 0x002 0 1 (.arrive r 0x74)
    (d', acc.2 ++ l)) (d, ([] : List Signal))
  signals 64 d (l ++ [.regionEvent r 0x002 0 1])

/-- Whether a counter counts what time brings: the clocks in which a condition is true, or an event that no command shows, owned cycles
released and accesses that wait in a bank queue (R366, R802, R804). -/
def countsTime (w : Word) : Bool :=
  fieldOf w 31 1 == 1 && (fieldOf w 29 2 == 1 || fieldOf w 19 10 == 0x011 || fieldOf w 19 10 == 0x026)

/-- What a counter that counts time counts in a tick (R802): CLOCK is true in every region clock, one instance of a condition in at most
as many, and how often the others occur is not stated by any command. -/
def tickCount (d : Dev) (base : Nat) : Nat :=
  let w := d.reg base
  if fieldOf w 19 10 = 1 then d.periodClocks
  else if fieldOf w 29 2 = 1 ∧ fieldOf w 12 1 = 0 then d.freeNat base % (d.periodClocks + 1)
  else d.freeNat base

/-- Count a tick in the counters of a bank that count time. -/
def tickBank (d : Dev) (base count hitAddr : Nat) (region : Option Nat) (src : Signal) : Dev × List Signal :=
  let ks := (d.regs.filter (fun e => base ≤ e.1 && e.1 < base + count * 0x20 && (e.1 - base) % 0x20 == 0 && countsTime e.2
    && (match region with | none => true | some r => fieldOf e.2 16 3 == r))).map (fun e => (e.1 - base) / 0x20)
  ks.foldl (fun acc k =>
    let (d', hit) := acc.1.monAdd (base + k * 0x20) (acc.1.tickCount (base + k * 0x20))
    if hit then (d'.setHit hitAddr k, acc.2 ++ [src]) else (d', acc.2)) (d, [])

/-- Count the tick that ends in the counters of a region, of its blocks that are not retained, and of the anchor's chip counters that
observe the region. -/
def tickMonitors (d : Dev) (r : Region) : Dev :=
  let (d, l) := (d.countingBlocks r).foldl (fun acc b =>
    let (d', l) := acc.1.tickBank (BLK_MON_CFG r.val b 0) 8 (BLK_MON_HIT r.val b) none (.arrive r 0x74)
    (d', acc.2 ++ l)) (d, ([] : List Signal))
  let (d, m) := d.tickBank (RGN_MON_CFG r.val 0) 64 (RGN_MON_HIT_LO r.val) none (.arrive r 0x75)
  let (d, n) := d.tickBank (CHP_MON_CFG d.A 0) 32 (CHP_MON_HIT d.A) (some r.val) (.arrive d.anchor 0x76)
  signals 64 d (l ++ m ++ n)

/-! ### Step 2: program windows end (R175, R178–R181, R406, R409, R410) -/

/-- The packets of a region in flight, by number. -/
def packetsOf (d : Dev) (r : Region) : List (Nat × Packet) :=
  d.packets.filterMap (fun e => e.2.bind (fun p => if p.region = r.val then some (e.1, p) else none))

/-- The shutter that ends the program window of a packet's pass; none once it has its verdict. -/
def windowEnd (d : Dev) (r : Region) (p : Packet) : Option Nat :=
  match p.stage with
  | .verdict | .recirc _ => none
  | .stamped | .front => some ((p.stamp.tick + 2 * (p.pass + 1) + d.windowTicks r) % 2 ^ 48)
  | _ => some ((p.stamp.tick + 2 * p.pass + d.windowTicks r) % 2 ^ 48)

/-- Whether a packet's window ends now; in TEST a worker halted by the debugger keeps its packet (R410). -/
def overruns (d : Dev) (r : Region) (k n : Nat) (p : Packet) : Bool :=
  (match d.windowEnd r p with | some e => reached e k | none => false)
    && (match p.stage with
        | .placed c => !((d.g r).mode == .test && (d.ctx c).mode == .debugHalted && (d.ctx c).held == some n)
        | _ => true)

/-- Take a packet away from the worker that it was placed on: a worker that held it has none now. -/
def leaveWorker (d : Dev) (c n : Nat) : Dev :=
  let held := (d.ctx c).held == some n
  let d := if held then d.endHeld c else d
  let rest := d.restState c
  d.modCtx c (fun x => { x with
    placed := x.placed.filter (·.pkt != n),
    mode := if held && (x.mode == .running || x.mode == .waiting || x.mode == .fillWait) then rest else x.mode,
    waitMask := if held then 0 else x.waitMask, waitRd := if held then 0 else x.waitRd })

/-- Retire a packet whose window ends: as DETAINED where its thread is debug-halted in a run mode, and as OVERRUN otherwise (R175). -/
def overrun (d : Dev) (r : Region) (n : Nat) (p : Packet) : Dev :=
  match p.stage with
  | .placed c =>
    let b := ctxBlock c
    let detained := (d.ctx c).mode == .debugHalted && (d.g r).mode.isRun
    let d := (d.leaveWorker c n).addSat (if detained then BLK_OVERRUN_detained r.val b else BLK_OVERRUN_overrun r.val b) 1
    let d := (d.raise r (0x80 + b * 8)).bevent r b (if detained then 0x014 else 0x013) (ctxQual c)
    d.dropPacket n (if detained then 0x09 else 0x08)
  | _ => d.dropPacket n 0x08

/-- Send a recirculated packet to its next pass, with the list of its verdict applied (R178, R181, R192). The first such list leaves the
chain as received in place, since a mirror may still be taken of it (R287): the head segment links it, and both go together at the end. -/
def endPassOf (d : Dev) (r : Region) (n : Nat) (p : Packet) : Dev :=
  if p.rewrite = [] then d.modPkt n (fun p => { p with stage := .front })
  else
    let many := p.orig.isNone
    let plain := d.plainHead p
    let bad := d.chainPoisoned p.head (min 512 p.length)
    match d.makeHead r p p.rewrite many with
    | (d, none) => d.dropPacket n 0x0A
    | (d, some h) =>
      let d := if many || plain then d else d.freePkt r p.head
      d.modPkt n (fun x => { x with
        head := h, length := lengthAfter p.rewrite p.length, rewrite := [], stage := .front, poisoned := x.poisoned || bad,
        orig := if many then some (p.head, p.length) else x.orig })

/-- Whether the packet of a placement has left its window for good. -/
def placementGone (r : Region) (w k : Nat) (c : Nat) (y : Placed) : Bool :=
  ctxRegion c == r.val && y.retired && reached ((y.target + w) % 2 ^ 48) k

/-- Step 2: windows and passes end. -/
def endWindows (d : Dev) (r : Region) (k : Nat) : Dev :=
  let d := d.each ((d.packetsOf r).filter (fun x => d.overruns r k x.1 x.2)) (fun x d => d.overrun r x.1 x.2)
  let d := d.each ((d.packetsOf r).filter (fun x => match x.2.stage with | .recirc t => reached t k | _ => false))
    (fun x d => d.endPassOf r x.1 x.2)
  let w := d.windowTicks r
  let ks := (d.ctxs.filter (fun e => e.2.placed.any (placementGone r w k e.1))).map (·.1)
  let d := d.each ks (fun c d => d.modCtx c (fun x => { x with placed := x.placed.filter (fun y => !placementGone r w k c y) }))
  d.modDsp r (fun x => { x with placements := x.placements.filter (fun y => !reached ((y.1 + w) % 2 ^ 48) k) })

/-! ### Step 3: releases (R182–R185) -/

/-- Whether a packet with its verdict is released now. -/
def releasesAt (k : Nat) (p : Packet) : Bool := p.stage == .verdict && (p.stamp.tick + p.transit) % 2 ^ 48 == k

/-- The states of the panes and their generation as the releases of a shutter find them (R96, R133). -/
def keepPanes (d : Dev) (r : Region) : Dev :=
  d.modEgress r (fun x => { x with panes := (d.paneState r.val 0, d.paneState r.val 1, d.paneGeneration r) })

/-- Step 3: packets leave flight, mirrors of a session that is off are given back, and the release marker goes out. -/
def releases (d : Dev) (r : Region) (k : Nat) : Dev :=
  let d := d.keepPanes r
  let d := d.each ((d.packetsOf r).filter (fun x => releasesAt k x.2)) (fun x d => d.leaveFlight r x.2)
  let d := d.setFld (RGN_INFLIGHT_count r.val) (d.fld (RGN_INFLIGHT_count r.val) - d.handed r (fun x => releaseAt x == k))
  let off (c : Copyout) : Bool := c.mirror && c.outcome == some 3 && reached c.release k
  let gone := (d.g r).egress.copies.filter off
  let d := (d.modEgress r (fun x => { x with copies := x.copies.filter (fun c => !off c) })).each gone (fun c d =>
    d.deref (requesterId r.val reqMirr) c.record.head)
  let dsts := (d.others r).filter (fun q => !d.fenced q.val)
  if dsts.isEmpty then d.closeList r k else d.sendAll r.val dsts (.releaseMark k)

/-! ### Step 4: mutations become visible (R107–R117, R135, R138) -/

/-- Perform a direct write that was held for a shutter (R117): it finds the replica as the commit has left it, and its outcome is known. -/
def performHeld (d : Dev) (r : Region) (k : Nat) (m : Mut) (i : Option Issuer) : Dev :=
  let a := d.directChange r m
  let d := d.applyOps r a.ops
  match i with
  | some i => d.outcome r i a.code k a.index
  | none => d

/-- The overlays and direct writes that are due become visible, and the direct writes that were held are performed (R110, R116, R117). -/
def showCommits (d : Dev) (r : Region) (k : Nat) : Dev :=
  let c := (d.g r).commit
  let d := d.modCommit r (fun c => { c with
    overlays := c.overlays.filter (fun o => !reached o.visible k), directOps := c.directOps.filter (fun x => !reached x.1 k),
    directHeld := c.directHeld.filter (fun x => !reached x.1 k) })
  let d := (c.overlays.filter (fun o => reached o.visible k)).foldl (fun d o => d.applyOps r o.ops) d
  let d := d.applyOps r ((c.directOps.filter (fun x => reached x.1 k)).map (·.2))
  d.each (c.directHeld.filter (fun x => reached x.1 k)) (fun x d => d.performHeld r k x.2.1 x.2.2)

/-- In REGIONAL, the records of the last tick that no host issued are applied here alone, and sent to every other region (R135, R138). Those
of learning and aging end the quiet ticks (R157). -/
def applyLocal (d : Dev) (r : Region) (k : Nat) : Dev :=
  let before := (k + 2 ^ 48 - 1) % 2 ^ 48
  let l := ((d.g r).commit.previous.filter (fun x => !x.mu.fromHost && x.mu.source != 3)).map (·.mu)
  if (d.g r).commit.lastMode ≠ .regional ∨ l = [] then d.addSat (RGN_RECON_STAT_quiet_ticks r.val) 1
  else
    let d := d.applyList r before (commitOrder l)
    let done := ((d.g r).commit.written.filter (fun w => w.tick == before && w.mu.region == r.val && l.contains w.mu)).map (·.mu)
    let d := done.foldl (fun d m => d.sendAll r.val (d.others r) (.recon before m)) d
    let d := d.addSat (RGN_RECON_STAT_backlog r.val) (done.length * (d.others r).length)
    if done.any (fun m => m.source ≤ 1) then d.clr (RGN_RECON_STAT_quiet_ticks r.val) else d.addSat (RGN_RECON_STAT_quiet_ticks r.val) 1

/-- Whether a region's own entry was written later than a reconciliation record, or in the same tick by an earlier record (R138). -/
def ownLater (d : Dev) (r : Region) (x : Copy) : Bool :=
  (d.g r).commit.written.any (fun w => d.sameEntry r w.mu x.mu
    && (tickAfter w.tick x.tick || (w.tick == x.tick && decide (w.mu.rank < x.mu.rank))))

/-- Apply a reconciliation record (R138): it is visible from this shutter, and it stands behind the changes that are still to become visible,
where there are any. -/
def applyRecon (d : Dev) (r : Region) (x : Copy) : Dev :=
  if d.ownLater r x then d
  else
    let v := (d.withOverlays r).ignoringBad r (d.recTable r x.mu).1
    let a := v.applyRecord r x.mu x.tick
    let ops := a.ops ++ v.coverOps r x.mu a
    let d := (d.applyOps r ops).modCommit r (fun c => match c.overlays.getLast? with
      | some o => { c with overlays := c.overlays.dropLast ++ [{ o with ops := o.ops ++ ops }] }
      | none => c)
    if a.code = 0 then d.noteWrite r x.tick x.mu else d

/-- The reconciliation records received since the last shutter. -/
def applyRecons (d : Dev) (r : Region) : Dev :=
  let l := (d.g r).commit.recon
  (d.modCommit r (fun c => { c with recon := [] })).each l (fun x d => d.applyRecon r x)

/-- The outcomes whose shutter has come. -/
def reports (d : Dev) (r : Region) (k : Nat) : Dev :=
  let l := (d.g r).commit.outcomes.filter (fun o => reached o.visible k)
  (d.modCommit r (fun c => { c with outcomes := c.outcomes.filter (fun o => !reached o.visible k) })).each l (fun o d => d.report o)

/-! ### Step 5: panes (R129–R133) -/

/-- The packets in flight that are tagged with a pane, once this shutter's releases are done. -/
def taggedWith (d : Dev) (r : Region) (k pane : Nat) : Nat :=
  ((d.packetsOf r).filter (fun x => x.2.paneKnown && x.2.pane == pane
    && !(x.2.stage == .verdict && reached ((x.2.stamp.tick + x.2.transit) % 2 ^ 48) k))).length

/-- The swap takes effect in a region (R129–R131). -/
def swapHere (d : Dev) (r : Region) (k : Nat) : Dev :=
  let old := d.fld (RGN_PANE_STAT_active r.val)
  let isOpen := (d.g r).mode.isOpen
  let count := if isOpen then 0 else d.taggedWith r k old
  let d := ((d.setPaneState r.val (1 - old) 1).setPaneState r.val old (if isOpen then 0 else 2)).setFld (RGN_PANE_STAT_active r.val) (1 - old)
  let d := (d.setFld (RGN_PANE_STAT_inflight_retiring r.val) count).modFront r (fun f => { f with quiet := if count = 0 then some k else none })
  d.raise r 0x3EA

/-- Whether every region held no packet of the RETIRING pane after the releases of an earlier shutter (R131). -/
def allQuiet (d : Dev) (k : Nat) : Bool :=
  d.standing.all (fun q => match (d.g q).front.quiet with | some t => tickAfter k t | none => false)

/-- The RETIRING pane of a region, if it has one. -/
def retiring (d : Dev) (r : Nat) : Option Nat := [0, 1].find? (fun p => d.paneState r p == 2)

/-- The RETIRING pane waits, or becomes FREE: under R131, or because it is forced (R133). -/
def retireHere (d : Dev) (r : Region) (k : Nat) : Dev :=
  match d.retiring r.val with
  | none => d
  | some p =>
    let d := if d.fld (RGN_PANE_STAT_inflight_retiring r.val) = 0 ∧ (d.g r).front.quiet = none then
        d.modFront r (fun f => { f with quiet := some k }) else d
    if d.allQuiet k then (d.setPaneState r.val p 0).raise r 0x3EB
    else if d.anchorSt.freeAt = some k ∨ (d.chipPane p = 0 ∧ d.fld (RGN_PANE_STAT_active r.val) = d.fld (CHP_PANE_STAT_active d.A)) then
      (d.setPaneState r.val p 0).clr (RGN_PANE_STAT_inflight_retiring r.val)
    else d

/-- The anchor's registers follow its region (R150), and Thody posts the change (R769). -/
def chipPanes (d : Dev) (swapped : Bool) : Dev :=
  let a := d.A
  let freed := (d.retiring a).isNone && (d.chipPane 0 == 2 || d.chipPane 1 == 2)
  let pane := if d.chipPane 0 = 2 then 0 else 1
  let d := (d.setFld (CHP_PANE_STAT_pane0_state a) (d.paneState a 0)).setFld (CHP_PANE_STAT_pane1_state a) (d.paneState a 1)
  if swapped then
    let act := d.fld (RGN_PANE_STAT_active a)
    let gen := (d.fld (CHP_PANE_STAT_generation a) + 1) % 256
    let d := (d.setFld (CHP_PANE_STAT_active a) act).setFld (CHP_PANE_STAT_generation a) gen
    let d := (d.clr (CHP_PANE_STAT_pending a)).modA (fun x => { x with swapAt := none })
    (d.cevent 0x304 0).post 0x0008 0xFF 0 (bytesLE 1 act ++ bytesLE 1 gen)
  else if freed then d.post 0x0009 0xFF 0 (bytesLE 1 pane)
  else d

/-- Step 5. -/
def panes (d : Dev) (r : Region) (k : Nat) : Dev :=
  let swap := d.anchorSt.swapAt == some k
    || (d.fld (RGN_PANE_STAT_active r.val) != d.fld (CHP_PANE_STAT_active d.A) && d.anchorSt.swapAt == none)
  let d := if swap then d.swapHere r k else d.retireHere r k
  if r = d.anchor then d.chipPanes swap else d

/-! ### Step 7: the mode (R837–R841) -/

/-- Whether a packet stays in flight beyond a shutter. -/
def staysAfter (d : Dev) (k : Nat) (x : Nat × Packet) : Bool :=
  let r := R x.2.region
  !(x.2.stage == .verdict && reached ((x.2.stamp.tick + x.2.transit) % 2 ^ 48) k) && !d.overruns r k x.1 x.2

/-- The check at the named shutter, whose own releases count as done. -/
def modeCheckAt (d : Dev) (k : Nat) (m : ModeChange) : Option (Nat × Nat) :=
  d.modeCheckWith (d.standingMask (fun r => (d.packetsOf r).any (d.staysAfter k) || d.handed r (fun x => !reached (releaseAt x) k) != 0)) m.target m.lean

/-- The anchor checks a change of mode again at its shutter (R837); from REGIONAL to DRAIN it waits for the shutter by which the replicas
have converged, which is one for every region (R140). -/
def decideMode (d : Dev) (k : Nat) : Dev :=
  match d.anchorSt.modeChange with
  | none => d
  | some m =>
    let waits := d.mode == .regional && m.target == .drain && !d.anchorSt.drainReady
    if !d.anchorLive || !reached m.shutter k || waits then d
    else
      let a := d.A
      let cause := d.modeCheckAt k m
      let d := (d.modA (fun x => { x with modeChange := none, converging := false })).clr (CHP_MODE_STAT_pending a)
      let d := d.clr (CHP_MODE_STAT_pending_target a)
      match cause with
      | some (c, x) => (d.modeRejected c x).mailModeDone stRejected c []
      | none =>
        let d := d.setFld (CHP_MODE_STAT_effective a) m.target.code
        let d := d.setFld (CHP_MODE_STAT_lean_awake a) (if m.target = .lean then m.lean else 0)
        (d.modA (fun x => { x with convergedSaid := false, drainReady := false })).mailModeDone stOk 0 (bytesLE 6 k)

/-- A region enters LEAN: the blocks from lean_awake on enter retention, and its stack runs at 6.4 Gb/s (R841). -/
def enterLean (d : Dev) (r : Region) : Dev :=
  let n := d.fld (CHP_MODE_STAT_lean_awake d.A)
  (d.each ((List.range 16).filter (n ≤ ·)) (fun b d => (d.requestBlock r b true).noteRequest r 3 b)).requestRate r 2

/-- A region leaves LEAN: every block that is not to be retained wakes, and the stack's rate is requested (R840). -/
def leaveLean (d : Dev) (r : Region) : Dev :=
  let d := d.each ((List.range 16).filter (fun b => !bitOf (d.fld (RGN_PWR_RET_ret r.val)) b && !d.heldAsleep r b))
    (fun b d => (d.requestBlock r b false).noteRequest r 3 b)
  d.requestRate r (d.modeRate r)

/-- The mode of the part becomes the region's (R837, R839). -/
def takeMode (d : Dev) (r : Region) : Dev :=
  let was := (d.g r).mode
  let now := d.mode
  if was = now then d
  else
    let d := d.modR r (fun g => { g with mode := now, drainedFrom := if now = .drain then was else g.drainedFrom })
    let d := (d.raise r 0x3F3).modFront r (fun f => { f with drainSaid := false })
    let d := if now = .lean then d.enterLean r else if was = .lean then d.leaveLean r else d
    d.refreshBudgets r

/-! ### Step 9: aging (R341–R345) -/

/-- The tables that age, in number order. -/
def agingTables (d : Dev) (r : Region) : List (Nat × TableDesc) :=
  (d.g r).tables.inEffect.filter (fun e => e.2.hashed && e.2.ageEn)

/-- The first slot of the sweep at or after a place. -/
def sweepFrom (l : List (Nat × TableDesc)) (table slot : Nat) : Option (Nat × TableDesc × Nat) :=
  l.findSome? (fun e => if e.1 = table ∧ slot < e.2.slots then some (e.1, e.2, slot)
    else if table < e.1 ∧ 0 < e.2.slots then some (e.1, e.2, 0) else none)

/-- A record of the scanner (R108, R327). -/
def ageRecord (table op index : Nat) (key : List Byte) : Mut :=
  { op, source := 1, table, region := 0, seq := 0, port := 0x7F, stampAge := 0, time := 0,
    extCount := (key.length - 16 + 31) / 32, keyLen := key.length, dataLen := 0, plen := 0, isStatic := false, ageEn := false, owner := 0,
    index, payload := key }

/-- Evaluate one slot (R343). -/
def ageSlot (d : Dev) (r : Region) (k n : Nat) (t : TableDesc) (slot : Nat) : Dev :=
  let c := d.slotCtl r t slot
  let mine := bitsOf c 60 58 == r.val || (d.g r).mode == .regional
  if d.slotBad r n t slot || !bitOf c 63 || !bitOf c 61 || !mine then d
  else
    let key := n * 2 ^ 32 + slot
    let ts := bitsOf c 57 46
    let q := t.quantum k
    let clear (d : Dev) : Dev := d.modTables r (fun s => { s with hits := Sparse.set (fun _ => false) s.hits key false })
    if Sparse.get (fun _ => false) (d.g r).tables.hits key then
      if ts = q then clear d
      else match d.stage r (ageRecord n 5 0 (d.slotKey r t slot)) .aging with
        | (d, true) => clear d
        | (d, false) => d
    else if t.ageLimit ≤ (q + 4096 - ts) % 4096 then (d.stage r (ageRecord n 6 ts (d.slotKey r t slot)) .aging).1
    else d

/-- Evaluate up to `n` slots from a place; the answer is where the sweep goes on, or none where it has ended. -/
def sweep (d : Dev) (r : Region) (k : Nat) : Nat → Nat → Nat → Dev × Option (Nat × Nat)
  | 0, table, slot => (d, (sweepFrom (d.agingTables r) table slot).map (fun x => (x.1, x.2.2)))
  | n + 1, table, slot =>
    match sweepFrom (d.agingTables r) table slot with
    | none => (d, none)
    | some (t, desc, s) => sweep (d.ageSlot r k t desc s) r k n t (s + 1)

/-- Step 9: the scanner goes on with its sweep in the run modes; one that takes longer than 2^q ticks is reported (R116, R140, R343,
R344). -/
def aging (d : Dev) (r : Region) (k : Nat) : Dev :=
  let t := (d.g r).tables
  let ended (s : TableState) : TableState :=
    { s with sweepTable := 0, sweepSlot := 0, sweepStart := 0, sweepOn := false, slowSaid := false }
  if !(d.g r).mode.isRun || d.agingTables r = [] then d.modTables r ended
  else if d.anchorSt.converging then d
  else
    let start := if t.sweepOn then t.sweepStart else k
    let took := ticksAhead k start + 1
    let q := (d.agingTables r).foldl (fun a e => min a e.2.ageQ) 31
    let (d, next) := d.sweep r k (d.fld (RGN_AGE_CTL_scan_rate r.val)) t.sweepTable t.sweepSlot
    let slow := decide (2 ^ q < took)
    let d := if slow && !t.slowSaid then d.err (RGN_TBL_ERR_age_slow r.val) r 0x146 else d
    match next with
    | some (n, s) => d.modTables r (fun x => { x with
        sweepTable := n, sweepSlot := s, sweepStart := start, sweepOn := true, slowSaid := t.slowSaid || slow })
    | none => (d.setFld (RGN_AGE_STAT_sweep_ticks r.val) (min (2 ^ (RGN_AGE_STAT_sweep_ticks r.val).width - 1) took)).modTables r ended

/-! ### Step 10: the seal (R102, R136) -/

/-- Send the seal of the last tick, to the anchor whose marker came last (R121). -/
def sendSeal (d : Dev) (r : Region) (k : Nat) : Dev :=
  let c := (d.g r).commit
  let joins := match d.anchorSt.rejoin with | some x => x.region == r.val && x.joinAt == k && x.phase == 4 | none => false
  if !c.lastMode.isRun || !d.committing r.val || d.fenced r.val || joins then d
  else
    let before := (k + 2 ^ 48 - 1) % 2 ^ 48
    let l := (c.previous.map (·.mu)).filter (fun m => c.lastMode != .regional || m.fromHost)
    (d.send r.val (if r = d.anchor then d.A else c.anchorSeen) (.seal before l.length (recordsCode l))).setFld (RGN_STAGE_STAT_last_sealed r.val) l.length

/-! ### The anchor's own part (R86–R92, R139, R711–R718, R866) -/

/-- A move toward zero by at most `limit`: what is moved and what is left. -/
def slewBy (limit : Nat) (x : Int) : Int × Int :=
  let m : Int := if limit < x.natAbs then (if x < 0 then -(limit : Int) else limit) else x
  (m, x - m)

/-- The anchor's moves of its shutters (R87, R92, R713, R714): within 0.25 ns in each tick, or half the tick period in CONFIGURE, the rate
first, then the phase, then the move that was written. -/
def slewShutter (d : Dev) : Dev :=
  let a := d.A
  let locked := d.on (CHP_SHUTTER_CTL_ptp_lock a) && d.on (CHP_SHUTTER_STAT_locked a)
  let limit := if d.mode = .configure then d.periodPs / 2 else 250
  let x := d.anchorSt
  let rate : Int := if locked then 0 else x.slew + (d.periodPs : Int) * signed32 (d.fld (CHP_PTP_FREQ_freq a))
  let ps := rate.tdiv (10 ^ 9)
  let (byPhase, phase) := slewBy (limit - ps.natAbs) x.phase
  let (_, move) := slewBy (limit - ps.natAbs - byPhase.natAbs) x.move
  let d := d.modA (fun x => { x with slew := if locked then x.slew else rate - ps * 10 ^ 9, phase, move })
  if d.on (CHP_SHUTTER_STAT_locking a) ∧ x.phase ≠ 0 ∧ phase = 0 then
    (d.setOn (CHP_SHUTTER_STAT_locked a)).clr (CHP_SHUTTER_STAT_locking a)
  else d

/-- PPS_OUT rises at a whole second (R718). -/
def ppsOut (d : Dev) (k : Nat) : Dev :=
  if d.on (CHP_PTP_CTL_pps_out_en d.A) && d.on (CHP_PTP_CTL_valid d.A) && d.ptpTime k % 10 ^ 9 == 0 then d.emit (.ppsOut k) else d

/-- Whether every standing region shows convergence (R139), and its rise. -/
def noteConverged (d : Dev) : Dev :=
  let all := d.mode == .regional && d.standing.all (fun q =>
    decide (64 ≤ d.fld (RGN_RECON_STAT_quiet_ticks q.val)) && d.fld (RGN_RECON_STAT_backlog q.val) == 0)
  let rises := all && !d.anchorSt.convergedSaid
  let d := d.modA (fun x => { x with convergedSaid := all })
  if rises then d.raise d.anchor 0x3ED else d

/-- The membership in force as a MEMBER notice. -/
def memberNotice (d : Dev) (k : Nat) : Msg :=
  let a := d.A
  .member (d.fld (CHP_COMMIT_MEMBERS_committing a)) (d.fld (CHP_COMMIT_MEMBERS_absent a)) (d.fld (CHP_COMMIT_MEMBERS_fenced a))
    (d.fld (CHP_COMMIT_MEMBERS_recovering a)) k

/-- What the anchor does at its own shutter: the marker, the MEMBER notice, its moves, PPS_OUT and the convergence. -/
def anchorPart (d : Dev) (k : Nat) : Dev :=
  let d := (d.sendAll d.A (d.children d.anchor) (.marker k 0 0 d.A)).flood d.anchor none (d.memberNotice k)
  ((d.slewShutter).ppsOut k).noteConverged

/-- The echoes of every 1,024 ticks (R681). -/
def echoes (d : Dev) (r : Region) (k : Nat) : Dev :=
  if k % 1024 ≠ 0 then d
  else d.each (List.range 6) (fun m d => match d.facing r.val m with
    | some (_, p) => if d.linkState r.val m = 2 then d.send r.val p (.echoReq (d.freeNat (600 + m))) else d
    | none => d)

/-- DRAIN_EMPTY, once in a stay in DRAIN (R839). -/
def drainEmpty (d : Dev) (r : Region) : Dev :=
  if (d.g r).mode == .drain && !(d.g r).front.drainSaid && d.fld (RGN_INFLIGHT_count r.val) == 0 then
    (d.modFront r (fun f => { f with drainSaid := true })).raise r 0x3F5
  else d

/-! ### The shutter of a region -/

/-- Whether a rejoining region follows the shutters (R861): from SYNC on. -/
def follows (d : Dev) (r : Region) : Bool :=
  match d.anchorSt.rejoin with
  | some x => x.region == r.val && decide (2 ≤ x.phase)
  | none => false

/-- The copy of the replica and the return of the ports at the two shutters after a join (R863). -/
def rejoinSteps (d : Dev) (r : Region) (k : Nat) : Dev :=
  match d.anchorSt.rejoin with
  | some x =>
    if x.region ≠ r.val ∨ x.phase ≠ 4 then d
    else
      let after := ticksAhead k x.joinAt
      if after = 1 then d.copyReplica (R x.source) r else if after = 2 then d.rejoinRecover r else d
  | none => d

/-- The ten steps of R96 in a region that is not fenced. -/
def shutterOf (d : Dev) (r : Region) (k : Nat) : Dev :=
  let d := ((d.tickMonitors r).snapRegion r k).shutterEvent r
  let d := (d.rejoinSteps r k).nextTick r k
  let d := d.holdover r k
  let d := d.endWindows r k
  let d := d.releases r k
  let d := (((d.showCommits r k).applyLocal r k).applyRecons r).reports r k
  let d := if d.anchorLive then d.panes r k else d
  let d := d.takeUnits r k
  let d := (d.decideMode k).takeMode r
  let d := (d.aging r k).requestRepairs r
  let d := d.sendSeal r k
  let d := if r = d.anchor ∧ d.anchorLive = true then d.anchorPart k else d
  (d.echoes r k).drainEmpty r

/-- The shutter of a committing guest, as far as the spec gives it (R84, R95, R118, R684, R687, R692): the tick count, what it holds of the
commits, and whether it had a marker for the last tick. What else a guest die does at a shutter is its maker's. -/
def guestShutter (d : Dev) (r : Region) (k : Nat) : Dev :=
  let d := (d.commitTick r k).showCommits r k
  (d.setFld (RGN_GUEST_STAT_holdover r.val) (if (d.g r).commit.markerTick = (k + 2 ^ 48 - 1) % 2 ^ 48 then 0 else 1)).modR r
    (fun g => { g with mode := d.mode })

/-- The shutter that a region reaches next (R84): the count is zero at the first. -/
def nextShutter (d : Dev) (r : Region) : Nat := if (d.g r).commit.started then ((d.g r).tick + 1) % 2 ^ 48 else 0

/-- Whether the standby takes the anchor role at its shutter (R868). -/
def takesOver (d : Dev) (r : Region) : Bool := r.val == d.standby && r.val != d.A && d.fld (RGN_FAILOVER_STAT_missed r.val) == 4

end Dev

/-! ### The commands -/

/-- SHUTTER (R84, R85, R95, R96, R118, R861, R869): a region's local timer expires. A fenced region is held in reset, and one that rejoins
counts the ticks, with the budgets of the mode in force, and holds no replica yet. -/
def execShutter (r : Region) (s : State) : Out := s.doing fun d =>
  if d.chip.phase ≠ 0 ∨ d.present r.val = false ∨ (d.fenced r.val && !d.follows r) then .refused .noSuchUnit
  else
    let k := d.nextShutter r
    let d := if d.takesOver r then d.failover else d
    let d := d.openShutter k
    if d.fenced r.val then
      .next (if d.follows r then
          ((d.modR r (fun g => { g with tick := k, mode := d.mode })).holdover r k).refreshBudgets r
        else d)
    else .next (if d.guest r.val then d.guestShutter r k else d.shutterOf r k)

/-- The offset in ps of a region's last shutter from the anchor's, by a marker that came `arrival` ps after that shutter (R682): the
anchor's shutter lies before the arrival by the marker's residence and the delay of the link. -/
def Dev.shutterOffset (d : Dev) (r : Region) (m residence : Nat) (arrival : Int) : Int :=
  (residence : Int) + (d.fld (RGN_CF_DELAY_delay r.val m) : Int) - arrival

/-- The correction of a timer against an offset: at most 0.25 ns (R91). -/
def correction (offset : Int) : Int := if 250 < offset then 250 else if offset < -250 then -250 else offset

/-- A region follows a marker (R91, R93, R94, R121): its timer is corrected, its offset shown, and its count held against the marker's. -/
def Dev.followMarker (d : Dev) (r : Region) (tick anchor : Nat) (offset : Int) : Dev :=
  let d := d.modCommit r (fun c => { c with
    markerTick := tick, heard := [tick], anchorSeen := anchor, timer := c.timer - correction offset })
  let d := if d.guest r.val then d.setFld (RGN_GUEST_STAT_aligned r.val) (if offset.natAbs ≤ 4000 then 1 else 0)
    else
      let d := d.setFld (RGN_SHUTTER_STAT_offset r.val) ((offset % 2 ^ 16).toNat)
      if 4000 < offset.natAbs then d.err (RGN_SHUTTER_STAT_misaligned r.val) r 0x3E0 else d
  if tick = (d.g r).tick then d
  else if d.follows r && d.fenced r.val then d.modR r (fun g => { g with tick })
  else (d.when (d.mladus r.val) (·.err (RGN_SHUTTER_STAT_tick_mismatch r.val) r 0x3E1)).dueFence r 0x02

/-- SHUTTER_MARK (R90, R91, R93, R94, R118, R679, R682): a marker reaches a region on a module, `arrival` ps after its own shutter. One on
the parent module goes on to the regions behind, with the time that it stayed and the delay of its link added; a guest forwards none. -/
def execShutterMark (r src : Region) (tick hops residence anchor : Nat) (m : Fin 6) (arrival : Int) (s : State) : Out := s.run fun d =>
  let d := d.receive src.val r.val (.marker tick hops residence anchor)
  let astray := d.mladus r.val && m.val != d.fld (RGN_SHUTTER_STAT_parent r.val)
  if !d.present r.val || astray || (d.fenced r.val && !d.follows r) then d
  else
    let stayed := (residence + d.freeNat 0 + d.fld (RGN_CF_DELAY_delay r.val m.val)) % 2 ^ 32
    let d := d.when (d.mladus r.val) (fun d => d.sendAll r.val (d.children r) (.marker tick ((hops + 1) % 256) stayed anchor))
    d.followMarker r tick anchor (d.shutterOffset r m.val residence arrival)

/-- MEMBER (R105, R680, R866, R868): the first copy of a notice, which came by link `via`, is noted and flooded on every other link; a guest
forwards none. -/
def execMember (r : Region) (via : Option (Fin 6)) (committing absent fenced recovering tick : Nat) (s : State) : Out := s.run fun d =>
  let m : Msg := .member committing absent fenced recovering tick
  let masks := ((committing * 256 + absent) * 256 + fenced) * 256 + recovering
  let d := (d.receive (d.cameFrom r via) r.val m).modCommit r (fun c => { c with heard := [(d.g r).tick] })
  if (d.g r).commit.notices.contains (tick, masks) || !d.mladus r.val then d
  else (d.modCommit r (fun c => { c with notices := c.notices ++ [(tick, masks)] })).flood r via m

/-- METER_REFILL_PASS (R309): a background pass refills a meter for the ticks since its last update. -/
def execMeterRefillPass (r : Region) (table index : Nat) (s : State) : Out := s.doing fun d =>
  let t := d.table r table
  if t.kind ≠ 10 ∨ t.entries ≤ index ∨ d.mladus r.val = false then .refused .noSuchUnit
  else if d.slotBad r table t index || (t.place == 1 && d.stackFailed r.val) then .next d
  else
    let a := Dev.tableAddr r t (index * 32)
    .next (d.setMeter a ((d.meterAt a).refill (d.g r).tick))

end Sys2Proof.Machine
end

