-- ==== Sys2Proof/Machine/Thody.lean ====
section
/-!
DEFINITION. The mailbox commands of Thody (R764–R781) and the end of its jobs (R766, R769).
-/

namespace Sys2Proof.Machine

/-! ### Payloads and answers -/

/-- A field of a payload: `n` bytes at byte `i` (R771). -/
def payOf (p : List Byte) (i n : Nat) : Nat := ofLE (sliceOf p i n)

/-- A command that completes with a status and nothing else. -/
def failWith (status : Nat) : Reply := .done status 0 []

/-- A check that a command fails with an answer where `ok` does not hold. -/
def ensure (ok : Bool) (r : Reply) : Option Reply := if ok then none else some r

/-- A field at payload byte `i` outside its range (R772). -/
def fieldOk (ok : Bool) (i : Nat) : Option Reply := ensure ok (.done stBadField i [])

/-- The completion of a command that has nothing to return. -/
def doneOk : Reply := .done stOk 0 []

/-- Every mode in which Thody serves commands (R771). -/
def anyMode (m : Mode) : Bool := m != .load

/-- The modes of the commands that change a configuration. -/
def configureMode (m : Mode) : Bool := m == .configure
def openMode (m : Mode) : Bool := m.isOpen

/-- At least the fixed fields of a request (R772). -/
def atLeast (n : Nat) (p : List Byte) : Bool := decide (n ≤ p.length)

namespace Dev

/-- Go on with a command only where every check passes: the first that fails answers it (R772, R777). -/
def checked (d : Dev) (l : List (Option Reply)) (go : Dev → Dev × Reply) : Dev × Reply :=
  match l.findSome? id with
  | some a => (d, a)
  | none => go d

/-- A region that a command names at payload byte `i`: it holds a Mladus die and is not fenced (R777). -/
def namedRegion (d : Dev) (q i : Nat) : Option Reply :=
  if 8 ≤ q then some (.done stBadField i [])
  else if !d.mladus q then some (failWith stNotPresent)
  else if d.fenced q then some (failWith stRegionFenced)
  else none

/-- The position of a guest that a command names at payload byte `i`. -/
def guestOk (d : Dev) (q i : Nat) : Option Reply :=
  if 8 ≤ q then some (.done stBadField i [])
  else if !(d.present q && d.guest q) then some (failWith stNotPresent)
  else if d.fenced q then some (failWith stRegionFenced)
  else none

/-- The regions of a mask, in number order. -/
def inMask (mask : Nat) : List Region := (List.finRange 8).filter (fun q => bitOf mask q.val)

/-- Every region of a mask that a command names. -/
def maskOk (d : Dev) (mask : Nat) : Option Reply := (inMask mask).findSome? (fun q => d.namedRegion q.val 0)

/-- Room for one more job (R766). -/
def jobRoom (d : Dev) : Option Reply := ensure (decide (d.runningJobs.length < 16)) (failWith stBusy)

/-- No rejoin under way: pane and table descriptor commands wait for its end (R864). -/
def noRejoin (d : Dev) : Option Reply := ensure d.anchorSt.rejoin.isNone (failWith stBusy)

/-- The tick that the next shutter of the anchor begins. -/
def dueTick (d : Dev) : Nat := (d.tick + 1) % 2 ^ 48

/-- Write each of several regions in ascending order, until one refuses: the part, and the region that refused (R772). -/
def eachRegion (l : List Region) (f : Region → Dev → Dev × Bool) (d : Dev) : Dev × Option Region :=
  l.foldl (fun acc q => match acc.2 with
    | some x => (acc.1, some x)
    | none =>
      let (d, ok) := f q acc.1
      (d, if ok then none else some q)) (d, none)

/-! ### General commands -/

/-- The payload of GET_INFO (R771). -/
def infoBytes (d : Dev) : List Byte :=
  bytesLE 4 (d.reg (CHP_ID d.A)).toNat ++ bytesLE 4 (d.reg (CHP_POPULATION d.A)).toNat ++ bytesLE 4 d.thody.release.toNat ++ bytesLE 1 d.A
    ++ bytesLE 1 d.standby ++ bytesLE 1 d.mode.code ++ bytesLE 1 d.lifeCycle ++ bytesLE 6 d.tick ++ bytesLE 2 d.mbLargest

/-- EVENT_RING_SET (R767, R770, R785): a new ring starts empty with phase 1; a log of zero stops the ring. -/
def ringSet (d : Dev) (e : Endpoint) (p : List Byte) : Dev × Reply :=
  let base := payOf p 0 8
  let log := payOf p 8 1
  let vector := payOf p 10 2
  if log = 0 then (d.modEp e (fun s => { s with events := none }), doneOk)
  else d.checked [fieldOk (base % 4096 == 0) 0, fieldOk (decide (4 ≤ log) && decide (log ≤ 12)) 8, fieldOk (decide (vector < 2048)) 10]
    (fun d =>
      let unsaid := match (d.ep e).events with
        | some r => r.unsaid
        | none => 0
      let d := d.modEp e (fun s => { s with events := some ⟨base, log, vector, none, unsaid⟩ })
      ((d.setFld (HST_EV_CI_ci e.val) 0).setFld (HST_EV_STAT_pi e.val) 0, doneOk))

/-- Whether the result of a job has lapsed: 1,024 ticks after its JOB_DONE (R766). -/
def jobLapsed (d : Dev) (j : Job) : Bool := j.state == 2 && decide (1024 < ticksAhead d.tick j.doneTick)

/-- JOB_QUERY (R766, R771). -/
def jobAnswer (d : Dev) (num : Nat) : Reply :=
  match d.thody.jobs.find? (fun j => j.num == num && !d.jobLapsed j) with
  | none => failWith stNoJob
  | some j =>
    if j.state = 2 then .done stOk 0 (bytesLE 1 2 ++ bytesLE 1 0 ++ bytesLE 2 j.status ++ bytesLE 2 j.detail ++ bytesLE 2 0 ++ j.result)
    else .done stOk 0 (bytesLE 1 1 ++ padTo 7 [])

/-! ### Mode, tick and time -/

/-- MODE_SET (R771, R837): the command completes when the mode takes effect, or with the cause for which the request was refused. -/
def modeSet (d : Dev) (p : List Byte) : Dev × Reply :=
  let target := payOf p 0 1
  let at' := payOf p 1 1
  let lean := payOf p 8 2
  d.checked [fieldOk (decide (target ≤ 7)) 0, fieldOk (decide (at' ≤ 1)) 1,
      fieldOk (if Mode.ofCode target = .lean then decide (1 ≤ lean) && decide (lean ≤ 16) else lean == 0) 8]
    (fun d =>
      let shutter := if at' = 1 then payOf p 2 6 else (d.tick + 2) % 2 ^ 48
      match d.modeRequest (Mode.ofCode target) shutter lean with
      | (d, some (cause, _)) => (d, .done stRejected cause [])
      | (d, none) => (d, .ack .mode))

/-- TICK_SET (R83, R771): the period takes effect at the next shutter. -/
def tickSet (d : Dev) (p : List Byte) : Dev × Reply :=
  d.checked [fieldOk (decide (payOf p 0 1 ≤ 3)) 0]
    (fun d => (d.modA (fun x => { x with periodDue := some (payOf p 0 1) }), .ack (.shutter d.dueTick)))

/-- PTP_LOAD (R711): the base registers take the three fields, and the load is requested. -/
def ptpSet (d : Dev) (p : List Byte) : Dev × Reply :=
  let sec := payOf p 0 6
  let ns := payOf p 6 4
  let tick := payOf p 10 6
  d.checked [fieldOk (decide (ns < 10 ^ 9)) 6] (fun d =>
    let a := d.A
    let d := (d.setPair (CHP_PTP_SEC_LO a) (CHP_PTP_SEC_HI a) sec).setFld (CHP_PTP_NS_ns a) ns
    match (d.setPair (CHP_PTP_BASE_LO a) (CHP_PTP_BASE_HI a) tick).ptpLoad tick sec ns with
    | (d, true) => (d, doneOk)
    | (d, false) => (d, failWith stRejected))

/-- PTP_ADJUST (R713, R714): a rate that is refused refuses the command before its step. -/
def ptpMove (d : Dev) (p : List Byte) : Dev × Reply :=
  let what := payOf p 0 1
  d.checked [fieldOk (decide (what ≤ 3)) 0] (fun d =>
    let (d, ok) := if bitOf what 1 then d.ptpFreq (payOf p 8 4) else (d, true)
    if !ok then (d, failWith stRejected)
    else (if bitOf what 0 then d.ptpAdjust (signed32 (payOf p 4 4)) else d, doneOk))

/-! ### The ledger (R771, R776–R781) -/

/-- The requested values of a kind (R779). -/
def requestable (kind v : Nat) : Bool :=
  match kind with
  | 1 => v == 0 || v == 2
  | 3 => v ≤ 2
  | _ => v ≤ 1

/-- A unit ID at payload bytes 0–3: its layout, its region and its index (R778). -/
def unitOk (d : Dev) (id : Nat) : Option Reply :=
  let kind := id / 2 ^ 28
  if kind = 0 ∨ 6 < kind ∨ id / 2 ^ 16 % 2 ^ 9 ≠ 0 ∨ unitLimit kind ≤ id % 2 ^ 16 then some (.done stBadField 0 [])
  else if !d.mladus (id / 2 ^ 25 % 8) then some (failWith stNotPresent)
  else none

/-- Request a state of a block (R779, R832): its retention first, then its cells; the cells of a block that sleeps start when it wakes. -/
def requestCells (d : Dev) (r : Region) (b want : Nat) : Dev × Bool :=
  let d := d.retWrite r (withBit (d.fld (RGN_PWR_RET_ret r.val)) b (want == 2))
  if bitOf (d.fld (RGN_PWR_RET_ret r.val)) b != (want == 2) then (d, false)
  else if want = 2 then (d.noteRequest r 3 b, true)
  else
    let v := if want = 1 then 0xFF else 0
    if d.blockState r.val b = 0 then (d.cellRunWrite r b v, true)
    else ((d.setFld (BLK_CELL_RUN_run r.val b) v).noteRequest r 3 b, true)

/-- Write the requested state of a unit to the register that holds it (R779); the answer says whether its own conditions took it. -/
def requestUnit (d : Dev) (r : Region) (kind i want : Nat) : Dev × Bool :=
  match kind with
  | 1 => d.portEnable r i (want == 2)
  | 2 => d.writeReg (RGN_EQ_CFG r.val i) (withField (d.latest r (RGN_EQ_CFG r.val i)) 31 1 want).toNat
  | 3 => d.requestCells r i want
  | 4 => d.parkWrite r (want == 1)
  | 5 => (d.reqUpWrite r i (want == 1), true)
  | _ =>
    let t := d.descWith r.val i 4 (d.reg (RGN_TBL_SEED r.val i))
    if want = 0 then d.descWrite r i { t with type := 0 }
    else if t.kind = 0 then (d, false)
    else (d.noteRequest r 6 i, true)

/-- UNIT_SET (R771, R776, R779). -/
def unitSet (d : Dev) (p : List Byte) : Dev × Reply :=
  let id := payOf p 0 4
  let kind := id / 2 ^ 28
  let r := R (id / 2 ^ 25)
  let i := id % 2 ^ 16
  let want := payOf p 4 1
  let wait := payOf p 5 1
  d.checked [d.unitOk id, fieldOk (requestable kind want) 4, fieldOk (decide (wait ≤ 1)) 5,
      ensure (kind != 5 || (d.facing r.val i).isSome) (failWith stNotPresent), d.namedRegion r.val 0,
      if wait = 1 then d.jobRoom else none]
    (fun d =>
      let since := ((d.g r).tick + 1) % 2 ^ 48
      match d.requestUnit r kind i want with
      | (d, false) => (d, failWith stRejected)
      | (d, true) => (d, if wait = 1 then .pending (.unitWait r.val kind i since) else .done stOk 0 (bytesLE 6 since)))

/-- The eight bytes that report a unit (R771). -/
def unitBytes (d : Dev) (r : Region) (kind i : Nat) : List Byte :=
  let u := d.unit r kind i
  bytesLE 4 (unitId kind r.val i) ++ bytesLE 1 (d.unitRequested r kind i) ++ bytesLE 1 u.effective ++ bytesLE 1 (min 255 u.mismatch) ++ bytesLE 1 0

/-- UNIT_QUERY (R771). -/
def unitQuery (d : Dev) (p : List Byte) : Dev × Reply :=
  let id := payOf p 0 4
  let count := payOf p 4 2
  let kind := id / 2 ^ 28
  let i := id % 2 ^ 16
  d.checked [d.unitOk id, fieldOk (decide (1 ≤ count) && decide (count ≤ 500) && decide (i + count ≤ unitLimit kind)) 4]
    (fun d => (d, .done stOk 0 ((List.range count).flatMap (fun j => d.unitBytes (R (id / 2 ^ 25)) kind (i + j)))))

/-- LEDGER_SCAN (R771): the units that disagree now. -/
def ledgerScan (d : Dev) (p : List Byte) : Dev × Reply :=
  let qs := inMask (payOf p 0 1)
  d.checked [ensure (qs.all (fun q => d.mladus q.val)) (failWith stNotPresent)] (fun d =>
    let units := (qs.flatMap (fun q => ((d.g q).ledger.filter (fun x => x.2.mismatch != 0)).map (fun x => (q, x.1)))).take 500
    (d, .done stOk 0 (bytesLE 2 units.length ++ units.flatMap (fun x => d.unitBytes x.1 (x.2 / 2 ^ 16) (x.2 % 2 ^ 16)))))

/-! ### Tables (R771–R773) -/

/-- The code that every standing region reports alike, if they agree. -/
def agreed (d : Dev) (f : Nat → Word) : Option Word :=
  match d.standing.map (fun r => f r.val) with
  | [] => none
  | w :: l => if l.all (· == w) then some w else none

/-- TBL_DESC_SET (R313, R314, R772): every region takes the write alike. -/
def tblDescSet (d : Dev) (p : List Byte) : Dev × Reply :=
  let word (k : Nat) : Word := BitVec.ofNat 32 (payOf p (4 + 4 * k) 4)
  d.checked [d.noRejoin] (fun d =>
    match d.standing.foldl (fun acc q =>
        let (d, ok) := acc.1.descWrite q (payOf p 0 1) ⟨word 0, word 1, word 2, word 3⟩
        (d, acc.2 && ok)) (d, true) with
    | (d, false) => (d, failWith stRejected)
    | (d, true) => (d, .ack (.shutter d.dueTick)))

/-- What TBL_DESC_SET returns once the descriptors are in effect: the code that every region agrees on. -/
def tblDescDone (d : Dev) (w : MailWait) : Option (Nat × Nat × List Byte) :=
  (d.waited w).map (fun _ => match d.agreed (fun r => d.reg (RGN_TBL_CODE r)) with
    | some c => (stOk, 0, bytesLE 4 c.toNat)
    | none => (stRejected, 0, []))

/-- TBL_MUTATE (R100, R117, R328, R773): staged in the endpoint's region, or written to every replica directly; one that is held for a
shutter completes when it is performed. -/
def tblMutate (d : Dev) (e : Endpoint) (n time : Nat) (p : List Byte) : Dev × Reply :=
  let r := endpointRegion e
  let b := p.take 96
  let m := hostRecord b 5 (0x40 + e.val) time
  let i : Issuer := .mailbox e.val n (d.mail e n).seq
  let next := ((d.g r).tick + 1) % 2 ^ 48
  if d.mode.isOpen then
    if !d.recordOk r m (Mut.reservedOf b) then (d, .done 0x29 0 (completion ⟨i, 9, 0, 0⟩))
    else
      let held := d.holdsDirect r
      let shown := (d.g r).tick
      let (d, a) := d.directAll r m false i
      (d, if held then .ack .outcome else .done (0x20 + a.code) 0 (completion ⟨i, a.code, shown, a.index⟩))
  else if !d.recordOk r m (Mut.reservedOf b) then (d.outcome r i 9 next 0, .ack .outcome)
  else match d.stage r m i with
    | (d, true) => (d, .ack .outcome)
    | (d, false) => (d, .done 0x22 0 (completion ⟨i, 2, 0, 0⟩))

/-- The result of a lookup by key that learns, counts and meters nothing (R317, R771): a counter as it stands, and a colour left open. -/
def quietLookup (d : Dev) (r : Region) (n : Nat) (key : List Byte) : LookupResult :=
  let t := d.table r n
  let i := ofBE key
  if (t.kind ≠ 9 ∧ t.kind ≠ 10) ∨ key.length ≠ t.keyLen then (d.lookup r n key 0 true).2
  else if t.entries ≤ i then .miss n false false
  else if d.slotBad r n t i then .miss n true false
  else
    { hit := true, errLine := false, forcedMiss := false, errKey := false, aux := if t.kind = 10 then d.freeNat 52 % 3 else 0, table := n,
      index := i, data := if t.kind = 9 then d.bytes (tableAddr r t (i * 16)) 16 else [] }

/-- The result that stands for the entry with an index (R317, R771). -/
def indexLookup (d : Dev) (r : Region) (n i : Nat) : LookupResult :=
  let (m, t) := if (d.table r n).kind = 3 then ((d.table r n).viewOf, d.table r (d.table r n).viewOf) else (n, d.table r n)
  let hit (data : List Byte) : LookupResult :=
    { hit := true, errLine := false, forcedMiss := false, errKey := false, aux := 0, table := n, index := i, data }
  if (t.place = 1 ∧ d.stackFailed r.val) ∨ d.slotBad r m t i then .miss n true false
  else match t.kind with
    | 1 | 2 => if bitOf (d.slotCtl r t i) 63 then hit (d.slotData r t i) else .miss n false false
    | 6 | 7 => match d.ternAt r m i with
      | some x => hit x.data
      | none => .miss n false false
    | 8 => if d.directValid r m i then hit (d.bytes (tableAddr r t (i * t.slotSize)) t.dataLen) else .miss n false false
    | 9 => hit (d.bytes (tableAddr r t (i * 16)) 16)
    | 10 => { hit [] with aux := d.freeNat 52 % 3 }
    | _ => .miss n false false

/-- The line that holds an entry; what it shows for an entry without a line of its own is left open. -/
def entryLine (d : Dev) (r : Region) (n : Nat) (x : LookupResult) : List Byte :=
  let t := d.table r n
  let t := if t.kind = 3 then d.table r t.viewOf else t
  if !x.hit then bytesLE 64 (d.freeNat 53)
  else match t.kind with
    | 1 | 2 | 8 | 9 | 10 => d.bytes (tableAddr r t (lineOf t x.index 0 * 64)) 64
    | _ => d.lineImage r n (lineOf t x.index 0)

/-- TBL_READ (R317, R771). -/
def tblRead (d : Dev) (p : List Byte) : Dev × Reply :=
  let n := payOf p 0 1
  let q := payOf p 1 1
  let how := payOf p 2 1
  let len := payOf p 3 1
  let i := payOf p 4 4
  let t := d.table (R q) n
  let entries := if t.kind = 3 then (d.table (R q) t.viewOf).entries else t.entries
  d.checked [d.namedRegion q 1, fieldOk (how == 1 || how == 2) 2, fieldOk (how == 1 || decide (len ≤ 48)) 3,
      ensure (how == 1 || decide (8 + len ≤ p.length)) (failWith stBadLength), ensure (t.kind != 0) (failWith stNotPresent),
      fieldOk (!(how == 1 && (t.kind == 4 || t.kind == 5))) 2, fieldOk (how == 2 || decide (i < entries)) 4]
    (fun d =>
      let x := if how = 2 then d.quietLookup (R q) n (sliceOf p 8 len) else d.indexLookup (R q) n i
      (d, .done stOk 0 (x.bytes ++ d.entryLine (R q) n x)))

/-- CM_READ (R308, R309, R771). -/
def cmRead (d : Dev) (p : List Byte) : Dev × Reply :=
  let n := payOf p 0 1
  let q := payOf p 1 1
  let i := payOf p 4 4
  let count := payOf p 8 2
  let t := d.table (R q) n
  d.checked [d.namedRegion q 1, ensure (t.kind != 0) (failWith stNotPresent), fieldOk (t.kind == 9 || t.kind == 10) 0,
      fieldOk (decide (1 ≤ count) && decide (count ≤ (if t.kind = 9 then 250 else 125))) 8, fieldOk (decide (i + count ≤ t.entries)) 4]
    (fun d => (d, .done stOk 0 (d.bytes (tableAddr (R q) t (i * t.slotSize)) (count * t.slotSize))))

/-- CM_WRITE (R309, R310): the image is written at the next shutter. -/
def cmWrite (d : Dev) (p : List Byte) : Dev × Reply :=
  let n := payOf p 0 1
  let q := payOf p 1 1
  let i := payOf p 4 4
  let qs := if q = 0xFF then d.standing else [R q]
  let t := d.table (if q = 0xFF then d.anchor else R q) n
  d.checked [if q = 0xFF then none else d.namedRegion q 1, ensure (t.kind != 0) (failWith stNotPresent), fieldOk (t.kind == 9 || t.kind == 10) 0,
      ensure (decide (8 + t.slotSize ≤ p.length)) (failWith stBadLength), fieldOk (decide (i < t.entries)) 4,
      fieldOk (t.kind == 9 || (payOf p 36 1 ≤ 5 && payOf p 36 1 % 4 ≤ 1)) 36, fieldOk (t.kind == 9 || payOf p 37 3 == 0) 37]
    (fun d => (d.each qs (fun r d => d.modCommit r (fun c => { c with directOps := c.directOps
        ++ [(((d.g r).tick + 1) % 2 ^ 48, .bytes (tableAddr r t (i * t.slotSize)) (sliceOf p 8 t.slotSize))] })), .ack (.shutter d.dueTick)))

/-! ### Panes (R775) -/

/-- A pane command of another pair than the one that owns the pane's session (R775). -/
def paneOwner (d : Dev) (e : Endpoint) (n pane : Nat) : Option Reply :=
  match d.thody.session with
  | some (x, f, k) => ensure (x != pane || (f == e.val && k == n)) (failWith stBusy)
  | none => none

/-- An open session on a pane: the mode that PANE_WRITE and PANE_CLOSE ask for (R771, R772). -/
def sessionOpen (d : Dev) (pane : Nat) : Option Reply :=
  ensure (match d.thody.session with | some (x, _, _) => x == pane | none => false) (.done stBadMode d.mode.code [])

/-- Set the pane session. -/
def setSession (d : Dev) (x : Option (Nat × Nat × Nat)) : Dev := { d with thody := { d.thody with session := x } }

/-- What every command on one pane checks first. -/
def paneChecks (d : Dev) (e : Endpoint) (n pane : Nat) : List (Option Reply) :=
  [fieldOk (decide (pane < 2)) 0, d.noRejoin, d.paneOwner e n pane]

/-- What a refused pane write or close returns: the region and its rejection register (R771). -/
def paneRejection (d : Dev) (q : Region) (store : Bool) : Reply :=
  let w := d.reg (if store then RGN_CLS_REJ q.val else RGN_PRK_REJ q.val)
  .done stRejected (w.toNat / 2 ^ 28) (bytesLE 4 q.val ++ bytesLE 4 w.toNat)

/-- PANE_DIV_SET (R256, R771). -/
def paneDivSet (d : Dev) (e : Endpoint) (n : Nat) (p : List Byte) : Dev × Reply :=
  let pane := payOf p 0 1
  d.checked (d.paneChecks e n pane) (fun d =>
    match eachRegion d.standing (fun q d => d.divWrite q pane (BitVec.ofNat 32 (payOf p 4 4))) d with
    | (d, some _) => (d, .done stRejected 4 [])
    | (d, none) => (d, .ack (.shutter d.dueTick)))

/-- PANE_OPEN (R217, R775). -/
def paneOpenAll (d : Dev) (e : Endpoint) (n : Nat) (p : List Byte) : Dev × Reply :=
  let pane := payOf p 0 1
  d.checked (d.paneChecks e n pane) (fun d =>
    match eachRegion d.standing (fun q d => d.paneOpen q pane) d with
    | (d, some q) => (d, .done stRejected ((d.reg (RGN_PRK_REJ q.val)).toNat / 2 ^ 28) [])
    | (d, none) => (d.setSession (some (pane, e.val, n)), doneOk))

/-- PANE_WRITE (R218, R261, R771). -/
def paneWriteAll (d : Dev) (e : Endpoint) (n : Nat) (p : List Byte) : Dev × Reply :=
  let pane := payOf p 0 1
  let window := payOf p 1 1
  let off := payOf p 4 4
  let len := payOf p 8 4
  let data := sliceOf p 12 len
  let store := window == 2
  d.checked (d.paneChecks e n pane ++ [d.sessionOpen pane, fieldOk (window == 1 || store) 1,
      fieldOk (len % 8 == 0 && decide (8 ≤ len) && decide (len ≤ (if d.framesV1 then 4016 else 4048))) 8])
    (fun d =>
      match eachRegion d.standing (fun q d =>
          let (d, a) := d.paneWrite q pane store off data
          (d, a == .done)) d with
      | (d, some q) =>
        (d, if (d.paneWrite q pane store off data).2 = .decode then .done stBadField 4 [] else d.paneRejection q store)
      | (d, none) => (d, doneOk))

/-- PANE_CLOSE (R219, R262, R771): a region whose session is closed already is passed over. -/
def paneCloseAll (d : Dev) (e : Endpoint) (n : Nat) (p : List Byte) : Dev × Reply :=
  let pane := payOf p 0 1
  d.checked (d.paneChecks e n pane ++ [d.sessionOpen pane]) (fun d =>
    match eachRegion (d.standing.filter (fun q => (d.g q).front.session == some pane)) (fun q d => d.paneClose q) d with
    | (d, some q) => (d, d.paneRejection q (d.prickFails q.val pane).isNone)
    | (d, none) => (d.setSession none, .ack (.pane pane)))

/-- What PANE_CLOSE returns once every region has computed its code: the code that they agree on. -/
def paneCloseDone (d : Dev) : MailWait → Option (Nat × Nat × List Byte)
  | .pane pane =>
    if d.standing.any (fun q => (d.g q).front.codeBusy.contains pane) then none
    else match d.agreed (fun r => d.reg (if pane = 0 then RGN_PANE_CODE0 r else RGN_PANE_CODE1 r)) with
      | some c => some (stOk, 0, bytesLE 4 c.toNat)
      | none => some (stRejected, 0, [])
  | w => d.waited w

/-- PANE_SWAP (R127, R771). -/
def paneSwapAt (d : Dev) (p : List Byte) : Dev × Reply :=
  d.checked [d.noRejoin] (fun d =>
    let a := d.A
    let d := (d.setPair (CHP_PANE_AT_LO a) (CHP_PANE_AT_HI a) (payOf p 0 6)).setReg (CHP_PANE_CODE a) (BitVec.ofNat 32 (payOf p 8 4))
    match d.swapRequest with
    | (d, 0) => (d, .done stOk 0 (bytesLE 1 d.otherPane))
    | (d, c) => (d, .done stRejected c []))

/-! ### Registers, buffers and regions -/

/-- Read one word at a fabric address as the anchor's MP does (R74, R664, R666); a guest answers outside the fixed ranges as it likes. -/
def mpReadWord (d : Dev) (a i : Nat) : Dev × Status × List Byte :=
  let (q, o) := d.resolve d.A a
  match d.sendStatus d.A q with
  | some st => (d, st, [])
  | none =>
    if d.guest q then (d, .ok, if guestFixed o 4 then d.guestRead q o 4 else bytesLE 4 (d.freeNat (60 + i)))
    else d.serveRead (.mp d.A) (d.whoHolder (.mp d.A)) (R q) o 4

/-- Read consecutive words until one fails. -/
def mpReadWords (d : Dev) (a : Nat) : Nat → Nat → Dev × Status × List Byte
  | _, 0 => (d, .ok, [])
  | i, k + 1 =>
    match d.mpReadWord (a + 4 * i) i with
    | (d, .ok, b) => match d.mpReadWords a (i + 1) k with
      | (d, .ok, rest) => (d, .ok, b ++ rest)
      | (d, st, _) => (d, st, [])
    | (d, st, _) => (d, st, [])

/-- REG_READ (R771): a word that cannot be read refuses the command with the status of R664. -/
def regRead (d : Dev) (p : List Byte) : Dev × Reply :=
  let a := payOf p 0 6
  let count := payOf p 6 2
  d.checked [fieldOk (a % 4 == 0) 0, fieldOk (decide (1 ≤ count) && decide (count ≤ 1000)) 6,
      ensure (d.present (d.resolve d.A a).1) (failWith stNotPresent), ensure (!d.fenced (d.resolve d.A a).1) (failWith stRegionFenced)]
    (fun d => match d.mpReadWords a 0 count with
      | (d, .ok, b) => (d, .done stOk 0 b)
      | (d, st, _) => (d, .done stRejected st.code []))

/-- Write one word at an offset of a region as the anchor's MP does; the answer says whether it was taken. -/
def mpWriteWord (d : Dev) (q : Region) (o : Nat) (b : List Byte) : Dev × Bool :=
  let isReg := match placeOf o with
    | .regionReg x => (paneWindow x).isNone
    | .blockReg _ _ | .chip _ => true
    | _ => false
  if isReg then
    match d.refuses (.mp d.A) q o 4 true with
    | some _ => (d, false)
    | none => d.writeReg (plainAddr q.val (placeOf o)) (ofLE b)
  else match placeOf o with
    | .regionReg x => match paneWindow x with
      | some (pane, store, off) =>
        let (d, a) := d.paneWrite q pane store off b
        (d, a == .done)
      | none => (d, false)
    | _ =>
      let (d, st) := d.serveWrite (.mp d.A) (d.whoHolder (.mp d.A)) q o b
      (d, st == .ok)

/-- Write consecutive words until one is refused: the part, and the offset of the first word refused. -/
def mpWriteWords (d : Dev) (q : Region) (o : Nat) : List Byte → Nat → Dev × Option Nat
  | _, 0 => (d, none)
  | b, k + 1 =>
    match d.mpWriteWord q o (b.take 4) with
    | (d, true) => d.mpWriteWords q (o + 4) (b.drop 4) k
    | (d, false) => (d, some o)

/-- REG_WRITE (R771, R772): the words in each named region in turn; the first word refused ends the command. -/
def regWriteAll (d : Dev) (p : List Byte) : Dev × Reply :=
  let mask := payOf p 0 1
  let o := payOf p 2 6 % 2 ^ 44
  let count := payOf p 8 2
  d.checked [fieldOk (o % 4 == 0) 2, fieldOk (decide (1 ≤ count) && decide (count ≤ 1000)) 8, d.maskOk mask] (fun d =>
    (inMask mask).foldl (fun acc q => match acc.2 with
      | .done 0 _ _ => match acc.1.mpWriteWords q o (p.drop 12) count with
        | (d, none) => (d, doneOk)
        | (d, some x) => (d, .done stRejected 0 (bytesLE 4 q.val ++ bytesLE 4 x))
      | r => (acc.1, r)) (d, doneOk))

/-- BPM_DESC_READ (R559, R771). -/
def bpmDescRead (d : Dev) (p : List Byte) : Dev × Reply :=
  let h := payOf p 0 4
  let count := payOf p 4 2
  let size := d.poolSize (handleRegion h) (handlePool h)
  d.checked [d.namedRegion (handleRegion h) 0, fieldOk (h / 2 ^ 25 % 8 == 0 && decide (handleIndex h < size)) 0,
      fieldOk (decide (1 ≤ count) && decide (count ≤ 500) && decide (handleIndex h + count ≤ size)) 4]
    (fun d => (d, .done stOk 0 ((List.range count).flatMap (fun i => bytesLE 8 (d.desc (h + i)).word))))

/-- BPM_STAT (R600, R771). -/
def bpmStat (d : Dev) (p : List Byte) : Dev × Reply :=
  let q := payOf p 0 1
  d.checked [d.namedRegion q 0] (fun d => (d, .done stOk 0 (bytesLE 4 (d.fld (RGN_BPM_FREE_onchip_free q))
    ++ bytesLE 4 (d.fld (RGN_DEEP_FREE_deep_free q)) ++ bytesLE 4 (d.fld (RGN_BPM_LOST_lost q))
    ++ bytesLE 4 (d.reg (RGN_BPM_ABUSE_CNT q)).toNat)))

/-- The modes of REGION_FENCE and REGION_REJOIN (R771). -/
def fenceMode (m : Mode) : Bool := m.isRun || m == .drain

/-- REGION_FENCE (R857, R860). -/
def regionFence (d : Dev) (p : List Byte) : Dev × Reply :=
  let q := payOf p 0 1
  d.checked [fieldOk (decide (q < 8)) 0, ensure (d.present q) (failWith stNotPresent),
      ensure (!d.fenced q || (d.anchorSt.rejoin.map (·.region)) == some q) (failWith stRegionFenced)]
    (fun d => match d.fenceRequest (R q) with
      | (d, true) => (d, .ack (.shutter (((d.g (R q)).tick + 1) % 2 ^ 48)))
      | (d, false) => (d, failWith stRejected))

/-- REGION_REJOIN (R861). -/
def regionRejoin (d : Dev) (p : List Byte) : Dev × Reply :=
  let q := payOf p 0 1
  d.checked [fieldOk (decide (q < 8)) 0, ensure (d.present q) (failWith stNotPresent), d.noRejoin, d.jobRoom] (fun d =>
    match d.rejoinStart (R q) d.thody.nextJob with
    | (d, true) => (d, .pending (.rejoin q))
    | (d, false) => (d, failWith stRejected))

/-- The journal line in which entry `n` of a region stands, of the entries that the ring still holds (R874). -/
def journalLine (d : Dev) (r : Region) (n : Nat) : Option Nat :=
  let head := d.fld (RGN_JNL_HEAD_number r.val)
  if n = 0 ∨ head < n ∨ 16128 ≤ head - n then none
  else some (256 + ((d.g r).journal.line - 256 + 2 * 16128 - 1 - (head - n)) % 16128)

/-- One journal entry, where its line holds it with a valid check code; one whose code fails sets mram_err (R875). -/
def journalEntry (d : Dev) (r : Region) (n : Nat) : Dev × List Byte :=
  match d.journalLine r n with
  | none => (d, [])
  | some l =>
    let b := d.bytes (jnlKey r.val l) 64
    if ofLE (b.take 4) ≠ n then (d, [])
    else if ofLE (b.drop 60) ≠ crc32cOf (b.take 60) then (d.setOn (RGN_JNL_STAT_mram_err r.val), [])
    else (d, b)

/-- JOURNAL_READ (R771, R875): the entries of the range that the ring holds. -/
def journalRead (d : Dev) (p : List Byte) : Dev × Reply :=
  let q := payOf p 0 1
  let first := payOf p 4 4
  let count := payOf p 8 2
  d.checked [d.namedRegion q 0, fieldOk (decide (1 ≤ count) && decide (count ≤ 63)) 8] (fun d =>
    let (d, b) := (List.range count).foldl (fun acc i =>
      let (d, b) := acc.1.journalEntry (R q) (first + i)
      (d, acc.2 ++ b)) (d, [])
    (d, .done stOk 0 b))

/-! ### The HBM and guests -/

/-- HBM_RETRAIN (R640, R771). -/
def hbmRetrain (d : Dev) (p : List Byte) : Dev × Reply :=
  let q := payOf p 0 1
  d.checked [d.namedRegion q 0, d.jobRoom] (fun d =>
    let was := d.hbmState q
    let d := d.retrain (R q)
    (d, if was != 6 && d.hbmState q == 6 then .pending (.retrain q) else failWith stRejected))

/-- Whether every stack of a mask runs at its rate_run: the completion of HBM_RATE_SET, or its refusal by a stack that failed. -/
def rateDone (d : Dev) (mask : Nat) : Option (Nat × Nat × List Byte) :=
  let qs := inMask mask
  if qs.any (fun q => d.stackFailed q.val) then some (stRejected, 0, [])
  else if qs.all (fun q => d.fld (RGN_HBM_STAT_rate q.val) == d.fld (RGN_HBM_CFG_rate_run q.val) && d.hbmState q.val != 5) then some (stOk, 0, [])
  else none

/-- HBM_RATE_SET (R624, R629, R771). -/
def hbmRateSet (d : Dev) (p : List Byte) : Dev × Reply :=
  let q := payOf p 0 1
  let qs := if q = 0xFF then d.standing.filter (fun r => bitOf (d.fld (CHP_POPULATION_hbm d.A)) r.val) else [R q]
  let mask := qs.foldl (fun a r => a + 2 ^ r.val) 0
  d.checked [if q = 0xFF then none else d.namedRegion q 0, fieldOk (decide (payOf p 1 1 ≤ 1)) 1] (fun d =>
    let d := d.each qs (fun r d => d.rateWrite r (payOf p 1 1))
    (d, match d.rateDone mask with
      | some (st, detail, b) => .done st detail b
      | none => .ack (.rate mask)))

/-- The completion of HBM_RATE_SET. -/
def hbmRateDone (d : Dev) : MailWait → Option (Nat × Nat × List Byte)
  | .rate mask => d.rateDone mask
  | w => d.waited w

/-- GUEST_DESC_READ (R688). -/
def guestDescRead (d : Dev) (p : List Byte) : Dev × Reply :=
  d.checked [d.guestOk (payOf p 0 1) 0] (fun d => (d, .done stOk 0 (guestBlock (payOf p 0 1))))

/-- GUEST_ROLE_SET (R690, R691, R693): the registers of the guest at once, its commit membership at the shutter named. -/
def guestRoleSet (d : Dev) (p : List Byte) : Dev × Reply :=
  let q := payOf p 0 1
  let role := payOf p 1 1
  let irq := payOf p 2 1
  let at' := payOf p 8 6
  d.checked [d.guestOk q 0, fieldOk (decide (role ≤ 2)) 1, fieldOk (decide (irq < 8)) 2, ensure (d.mladus irq) (failWith stNotPresent),
      ensure (tickAfter at' d.tick) (failWith stRejected)]
    (fun d =>
      let d := (d.setFld (RGN_GUEST_CTL_role q) role).setFld (RGN_GUEST_IRQ_region q) irq
      (d.modA (fun x => { x with roles := x.roles.filter (fun y => y.2.1 != q) ++ [(at', q, role == 1)] }), .ack (.shutter at')))

/-- GUEST_ADMIT (R666, R689, R697): the permissions of each named region, whose modules that face the guest then admit it. -/
def guestAdmit (d : Dev) (p : List Byte) : Dev × Reply :=
  let q := payOf p 0 1
  let bits := payOf p 1 1
  let mask := payOf p 2 1
  d.checked [d.guestOk q 0, fieldOk (decide (bits < 32)) 1, d.maskOk mask] (fun d =>
    match eachRegion (inMask mask) (fun r d =>
        let (d, ok) := d.writeReg (RGN_CF_GACC r.val) bits
        (d.each ((List.range 6).filter (fun m => (d.facing r.val m).map (·.2) == some q)) (fun m d => d.admitWrite r m true), ok)) d with
    | (d, some _) => (d, failWith stRejected)
    | (d, none) => (d, doneOk))

/-! ### The running image and the life cycle -/

/-- The first byte of the staging area of a Thody image (R771). -/
def stagingBase : Nat := 2 ^ 73

/-- FW_STAGE (R771). -/
def fwStage (d : Dev) (p : List Byte) : Dev × Reply :=
  let off := payOf p 0 4
  let len := payOf p 4 4
  d.checked [fieldOk (decide (1 ≤ len) && decide (len ≤ 4048)) 4, fieldOk (decide (off + len ≤ 2 ^ 24)) 0]
    (fun d => (d.setBytes (stagingBase + off) (sliceOf p 8 len), doneOk))

/-- FW_ACTIVATE (R774): the mailboxes go OFFLINE while the image is authenticated and started. -/
def fwActivate (d : Dev) (p : List Byte) : Dev × Reply :=
  let len := payOf p 0 4
  d.checked [fieldOk (decide (1 ≤ len) && decide (len ≤ 2 ^ 24)) 0, ensure d.runningJobs.isEmpty (failWith stBusy)]
    (fun d => ((d.mailOffline 0).mailOffline 1, .pending (.activate len)))

/-- Bring the mailboxes of the endpoints back. -/
def mailBack (d : Dev) (f : Dev → Endpoint → Dev) : Dev :=
  d.each ((List.finRange 2).filter (fun e => d.mladus (epPos e) && !d.fenced (epPos e))) (fun e d => f d e)

/-- The end of FW_ACTIVATE (R774, R819, R820): an image that fails leaves the running one; else every MP restarts on it. -/
def activateDone (d : Dev) (num len : Nat) : Dev :=
  if len < 256 + d.le (stagingBase + 0xC) 4 ∨ d.imageCheck stagingBase false ≠ 0 then (d.mailBack mailOnline).endJob num stAuthFail 0 []
  else
    let release := d.le (stagingBase + 8) 4
    let d := d.each (d.mladusRegions.filter (fun r => !d.fenced r.val)) (fun r d =>
      (d.modR r (fun g => { g with mpGeneration := (g.mpGeneration + 1) % 128 })).announce r (d.whoHolder (.mp r.val)))
    let d := { d with thody := { d.thody with release := BitVec.ofNat 32 release, session := none } }
    (d.mailBack mailStart).endJob num stOk 0 (bytesLE 4 release)

/-- LC_ADVANCE (R825, R826): a record of intent is written and every secure partition is wiped; the advance itself ends later. -/
def lcAdvance (d : Dev) (p : List Byte) : Dev × Reply :=
  let target := payOf p 0 1
  let staged := (List.range 12).any (fun k => d.on (CHP_LC_KEY_hash d.A k))
  d.checked [ensure d.chip.advance.isNone (failWith stBusy), ensure (target == d.lifeCycle + 1 && decide (target ≤ 5)) (failWith stRejected),
      ensure (d.lifeCycle != 1 || staged) (failWith stRejected), d.jobRoom]
    (fun d =>
      let d := (d.lcRecord 0).wipeAll 2
      ({ d with chip := { d.chip with advance := some target } }, .pending (.advance target)))

/-- MON_SNAPSHOT (R806). -/
def monSnapshotAt (d : Dev) (p : List Byte) : Dev × Reply :=
  let at' := payOf p 0 6
  match (d.setPair (CHP_MON_SNAP_AT_LO d.A) (CHP_MON_SNAP_AT_HI d.A) at').snapArm at' with
  | (d, true) => (d, doneOk)
  | (d, false) => (d, failWith stRejected)

/-! ### Jobs -/

/-- End a job whose work was complete before its command says so: a retrain, and the activation of an image. -/
def settleJob (d : Dev) (j : Job) : Dev :=
  match j.kind with
  | .retrain q =>
    if j.state = 0 ∧ !d.on (RGN_HBM_TRAIN_busy q) then d.endJob j.num stOk 0 (bytesLE 1 (d.fld (RGN_HBM_TRAIN_fail q))) else d
  | .activate len => if j.state = 0 then d.activateDone j.num len else d
  | _ => d

/-- Forget the jobs whose results have lapsed (R766). -/
def forgetJobs (d : Dev) : Dev := { d with thody := { d.thody with jobs := d.thody.jobs.filter (fun j => !d.jobLapsed j) } }

/-- JOB_DONE for a job (R766, R769): a job that has not ended cannot be posted. -/
def jobDone (d : Dev) (num : Nat) : Res :=
  match d.thody.jobs.find? (fun j => j.num == num) with
  | none => .refused .noSuchUnit
  | some j =>
    let d := d.settleJob j
    match d.thody.jobs.find? (fun j => j.num == num) with
    | some j => if j.state = 1 then .next (d.jobPost j).forgetJobs else .refused .noSuchUnit
    | none => .refused .noSuchUnit

end Dev

/-! ### The commands -/

/-- NOP. -/
def execNop (e : Endpoint) (pair : Fin 32) (elapsed : Nat) (s : State) : Out := s.doing fun d =>
  d.serveSoon e pair.val 0x0001 elapsed anyMode (atLeast 0) (fun d _ => (d, doneOk))

/-- GET_INFO. -/
def execGetInfo (e : Endpoint) (pair : Fin 32) (elapsed : Nat) (s : State) : Out := s.doing fun d =>
  d.serveSoon e pair.val 0x0002 elapsed anyMode (atLeast 0) (fun d _ => (d, .done stOk 0 d.infoBytes))

/-- EVENT_RING_SET. -/
def execEventRingSet (e : Endpoint) (pair : Fin 32) (elapsed : Nat) (s : State) : Out := s.doing fun d =>
  d.serveSoon e pair.val 0x0003 elapsed anyMode (atLeast 12) (fun d p => d.ringSet e p)

/-- JOB_QUERY. -/
def execJobQuery (e : Endpoint) (pair : Fin 32) (elapsed : Nat) (s : State) : Out := s.doing fun d =>
  d.serveSoon e pair.val 0x0004 elapsed anyMode (atLeast 4) (fun d p => (d, d.jobAnswer (payOf p 0 4)))

/-- MODE_SET. -/
def execModeSet (e : Endpoint) (pair : Fin 32) (elapsed : Nat) (s : State) : Out := s.doing fun d =>
  d.serveSoon e pair.val 0x0101 elapsed anyMode (atLeast 10) Dev.modeSet

/-- TICK_SET. -/
def execTickSet (e : Endpoint) (pair : Fin 32) (elapsed : Nat) (s : State) : Out := s.doing fun d =>
  d.serveSoon e pair.val 0x0102 elapsed configureMode (atLeast 1) Dev.tickSet

/-- PTP_LOAD. -/
def execPtpLoad (e : Endpoint) (pair : Fin 32) (elapsed : Nat) (s : State) : Out := s.doing fun d =>
  d.serveSoon e pair.val 0x0103 elapsed anyMode (atLeast 16) Dev.ptpSet

/-- PTP_ADJUST. -/
def execPtpAdjust (e : Endpoint) (pair : Fin 32) (elapsed : Nat) (s : State) : Out := s.doing fun d =>
  d.serveSoon e pair.val 0x0104 elapsed anyMode (atLeast 12) Dev.ptpMove

/-- UNIT_SET. -/
def execUnitSet (e : Endpoint) (pair : Fin 32) (elapsed : Nat) (s : State) : Out := s.doing fun d =>
  d.serveSoon e pair.val 0x0201 elapsed anyMode (atLeast 6) Dev.unitSet

/-- UNIT_QUERY. -/
def execUnitQuery (e : Endpoint) (pair : Fin 32) (elapsed : Nat) (s : State) : Out := s.doing fun d =>
  d.serveSoon e pair.val 0x0202 elapsed anyMode (atLeast 6) Dev.unitQuery

/-- LEDGER_SCAN. -/
def execLedgerScan (e : Endpoint) (pair : Fin 32) (elapsed : Nat) (s : State) : Out := s.doing fun d =>
  d.serveSoon e pair.val 0x0203 elapsed anyMode (atLeast 1) Dev.ledgerScan

/-- TBL_DESC_SET. -/
def execTblDescSet (e : Endpoint) (pair : Fin 32) (elapsed : Nat) (s : State) : Out := s.doing fun d =>
  d.serve e pair.val 0x0301 elapsed openMode (atLeast 20) Dev.tblDescSet (fun d _ w => d.tblDescDone w)

/-- TBL_MUTATE; `time` is the record's arrival in its tick, in region clocks. -/
def execTblMutate (e : Endpoint) (pair : Fin 32) (elapsed time : Nat) (s : State) : Out := s.doing fun d =>
  d.serveSoon e pair.val 0x0302 elapsed anyMode (atLeast 96) (fun d p => d.tblMutate e pair.val time p)

/-- TBL_READ. -/
def execTblRead (e : Endpoint) (pair : Fin 32) (elapsed : Nat) (s : State) : Out := s.doing fun d =>
  d.serveSoon e pair.val 0x0303 elapsed anyMode (atLeast 8) Dev.tblRead

/-- CM_READ. -/
def execCmRead (e : Endpoint) (pair : Fin 32) (elapsed : Nat) (s : State) : Out := s.doing fun d =>
  d.serveSoon e pair.val 0x0304 elapsed anyMode (atLeast 10) Dev.cmRead

/-- CM_WRITE. -/
def execCmWrite (e : Endpoint) (pair : Fin 32) (elapsed : Nat) (s : State) : Out := s.doing fun d =>
  d.serveSoon e pair.val 0x0305 elapsed anyMode (atLeast 24) Dev.cmWrite

/-- PANE_DIV_SET. -/
def execPaneDivSet (e : Endpoint) (pair : Fin 32) (elapsed : Nat) (s : State) : Out := s.doing fun d =>
  d.serveSoon e pair.val 0x0401 elapsed anyMode (atLeast 8) (fun d p => d.paneDivSet e pair.val p)

/-- PANE_OPEN. -/
def execPaneOpen (e : Endpoint) (pair : Fin 32) (elapsed : Nat) (s : State) : Out := s.doing fun d =>
  d.serveSoon e pair.val 0x0402 elapsed anyMode (atLeast 1) (fun d p => d.paneOpenAll e pair.val p)

/-- PANE_WRITE. -/
def execPaneWrite (e : Endpoint) (pair : Fin 32) (elapsed : Nat) (s : State) : Out := s.doing fun d =>
  d.serveSoon e pair.val 0x0403 elapsed anyMode (fun p => atLeast 12 p && p.length == 12 + payOf p 8 4)
    (fun d p => d.paneWriteAll e pair.val p)

/-- PANE_CLOSE. -/
def execPaneClose (e : Endpoint) (pair : Fin 32) (elapsed : Nat) (s : State) : Out := s.doing fun d =>
  d.serve e pair.val 0x0404 elapsed anyMode (atLeast 1) (fun d p => d.paneCloseAll e pair.val p) (fun d _ w => d.paneCloseDone w)

/-- PANE_SWAP. -/
def execPaneSwap (e : Endpoint) (pair : Fin 32) (elapsed : Nat) (s : State) : Out := s.doing fun d =>
  d.serveSoon e pair.val 0x0405 elapsed anyMode (atLeast 12) Dev.paneSwapAt

/-- PANE_FORCE_FREE. -/
def execPaneForceFree (e : Endpoint) (pair : Fin 32) (elapsed : Nat) (s : State) : Out := s.doing fun d =>
  d.serveSoon e pair.val 0x0406 elapsed anyMode (atLeast 0) (fun d _ => d.checked [d.noRejoin] (fun d => (d.forceFree, doneOk)))

/-- REG_READ. -/
def execRegRead (e : Endpoint) (pair : Fin 32) (elapsed : Nat) (s : State) : Out := s.doing fun d =>
  d.serveSoon e pair.val 0x0501 elapsed anyMode (atLeast 8) Dev.regRead

/-- REG_WRITE. -/
def execRegWrite (e : Endpoint) (pair : Fin 32) (elapsed : Nat) (s : State) : Out := s.doing fun d =>
  d.serveSoon e pair.val 0x0502 elapsed anyMode (fun p => atLeast 12 p && p.length == 12 + 4 * payOf p 8 2) Dev.regWriteAll

/-- BPM_DESC_READ. -/
def execBpmDescRead (e : Endpoint) (pair : Fin 32) (elapsed : Nat) (s : State) : Out := s.doing fun d =>
  d.serveSoon e pair.val 0x0601 elapsed anyMode (atLeast 6) Dev.bpmDescRead

/-- BPM_STAT. -/
def execBpmStat (e : Endpoint) (pair : Fin 32) (elapsed : Nat) (s : State) : Out := s.doing fun d =>
  d.serveSoon e pair.val 0x0602 elapsed anyMode (atLeast 1) Dev.bpmStat

/-- REGION_FENCE. -/
def execRegionFence (e : Endpoint) (pair : Fin 32) (elapsed : Nat) (s : State) : Out := s.doing fun d =>
  d.serveSoon e pair.val 0x0701 elapsed Dev.fenceMode (atLeast 1) Dev.regionFence

/-- REGION_REJOIN. -/
def execRegionRejoin (e : Endpoint) (pair : Fin 32) (elapsed : Nat) (s : State) : Out := s.doing fun d =>
  d.serveSoon e pair.val 0x0702 elapsed Dev.fenceMode (atLeast 1) Dev.regionRejoin

/-- JOURNAL_READ. -/
def execJournalRead (e : Endpoint) (pair : Fin 32) (elapsed : Nat) (s : State) : Out := s.doing fun d =>
  d.serveSoon e pair.val 0x0703 elapsed anyMode (atLeast 10) Dev.journalRead

/-- HBM_RETRAIN. -/
def execHbmRetrain (e : Endpoint) (pair : Fin 32) (elapsed : Nat) (s : State) : Out := s.doing fun d =>
  d.serveSoon e pair.val 0x0801 elapsed (fun m => m.isOpen || m == .drain) (atLeast 1) Dev.hbmRetrain

/-- HBM_RATE_SET. -/
def execHbmRateSet (e : Endpoint) (pair : Fin 32) (elapsed : Nat) (s : State) : Out := s.doing fun d =>
  d.serve e pair.val 0x0802 elapsed (fun m => anyMode m && m != .lean) (atLeast 2) Dev.hbmRateSet (fun d _ w => d.hbmRateDone w)

/-- GUEST_DESC_READ. -/
def execGuestDescRead (e : Endpoint) (pair : Fin 32) (elapsed : Nat) (s : State) : Out := s.doing fun d =>
  d.serveSoon e pair.val 0x0901 elapsed anyMode (atLeast 1) Dev.guestDescRead

/-- GUEST_ROLE_SET. -/
def execGuestRoleSet (e : Endpoint) (pair : Fin 32) (elapsed : Nat) (s : State) : Out := s.doing fun d =>
  d.serveSoon e pair.val 0x0902 elapsed configureMode (atLeast 14) Dev.guestRoleSet

/-- GUEST_ADMIT. -/
def execGuestAdmit (e : Endpoint) (pair : Fin 32) (elapsed : Nat) (s : State) : Out := s.doing fun d =>
  d.serveSoon e pair.val 0x0903 elapsed openMode (atLeast 3) Dev.guestAdmit

/-- FW_STAGE. -/
def execFwStage (e : Endpoint) (pair : Fin 32) (elapsed : Nat) (s : State) : Out := s.doing fun d =>
  d.serveSoon e pair.val 0x0A01 elapsed anyMode (fun p => atLeast 8 p && p.length == 8 + payOf p 4 4) Dev.fwStage

/-- FW_ACTIVATE. -/
def execFwActivate (e : Endpoint) (pair : Fin 32) (elapsed : Nat) (s : State) : Out := s.doing fun d =>
  d.serveSoon e pair.val 0x0A02 elapsed (· == .drain) (atLeast 4) Dev.fwActivate

/-- LC_ADVANCE. -/
def execLcAdvance (e : Endpoint) (pair : Fin 32) (elapsed : Nat) (s : State) : Out := s.doing fun d =>
  d.serveSoon e pair.val 0x0A03 elapsed configureMode (atLeast 1) Dev.lcAdvance

/-- MON_SNAPSHOT. -/
def execMonSnapshot (e : Endpoint) (pair : Fin 32) (elapsed : Nat) (s : State) : Out := s.doing fun d =>
  d.serveSoon e pair.val 0x0B01 elapsed anyMode (atLeast 6) Dev.monSnapshotAt

/-- JOB_DONE. -/
def execJobDone (num : Nat) (s : State) : Out := s.doing fun d => d.jobDone num

end Sys2Proof.Machine
end

