-- ==== Sys2Proof/Machine/Dispatch.lean ====
section
/-!
DEFINITION. One arm per command: a direct call of its meaning.
-/

namespace Sys2Proof.Machine

def exec (i : Instr) (s : State) : Host.Outcome State Fault Refusal :=
  match i with
  | .shutter r => Sys2Proof.Machine.execShutter r s
  | .shutterMark r src tick hops residence anchor m arrival => Sys2Proof.Machine.execShutterMark r src tick hops residence anchor m arrival s
  | .echoReq r m time turn => Sys2Proof.Machine.execEchoReq r m time turn s
  | .echoRsp r m time turn now => Sys2Proof.Machine.execEchoRsp r m time turn now s
  | .ppsEdge gap phase => Sys2Proof.Machine.execPpsEdge gap phase s
  | .ppsLockLost => Sys2Proof.Machine.execPpsLockLost s
  | .mutRecord r src tick m => Sys2Proof.Machine.execMutRecord r src tick m s
  | .seal src tick count code => Sys2Proof.Machine.execSeal src tick count code s
  | .sealDeadline => Sys2Proof.Machine.execSealDeadline s
  | .commit r c bad via => Sys2Proof.Machine.execCommit r c bad via s
  | .applyDeadline r => Sys2Proof.Machine.execApplyDeadline r s
  | .repairReq r src table line time => Sys2Proof.Machine.execRepairReq r src table line time s
  | .repairStalled r table line => Sys2Proof.Machine.execRepairStalled r table line s
  | .member r via committing absent fenced recovering tick => Sys2Proof.Machine.execMember r via committing absent fenced recovering tick s
  | .linkState r via edges tick => Sys2Proof.Machine.execLinkState r via edges tick s
  | .recon r src tick m => Sys2Proof.Machine.execRecon r src tick m s
  | .paneCtlSwap => Sys2Proof.Machine.execPaneCtlSwap s
  | .paneCtlForceFree => Sys2Proof.Machine.execPaneCtlForceFree s
  | .paneWrOpen r pane => Sys2Proof.Machine.execPaneWrOpen r pane s
  | .paneWrClose r => Sys2Proof.Machine.execPaneWrClose r s
  | .paneWindowWrite r pane store off data => Sys2Proof.Machine.execPaneWindowWrite r pane store off data s
  | .paneCodeDone r pane => Sys2Proof.Machine.execPaneCodeDone r pane s
  | .clsDivWrite r pane value => Sys2Proof.Machine.execClsDivWrite r pane value s
  | .frameReceive r p frame fcsOk fecBad corrected time ns sec => Sys2Proof.Machine.execFrameReceive r p frame fcsOk fecBad corrected time ns sec s
  | .frontEndPass n => Sys2Proof.Machine.execFrontEndPass n s
  | .firstPassDeadline n => Sys2Proof.Machine.execFirstPassDeadline n s
  | .recircPassDeadline n => Sys2Proof.Machine.execRecircPassDeadline n s
  | .lookupComplete r who bad => Sys2Proof.Machine.execLookupComplete r who bad s
  | .dispatchPlacement r wait => Sys2Proof.Machine.execDispatchPlacement r wait s
  | .placementDeadline r waits => Sys2Proof.Machine.execPlacementDeadline r waits s
  | .windowWrite n => Sys2Proof.Machine.execWindowWrite n s
  | .packetStart u => Sys2Proof.Machine.execPacketStart u s
  | .allWaiting cell => Sys2Proof.Machine.execAllWaiting cell s
  | .retire u w used => Sys2Proof.Machine.execRetire u w used s
  | .lkup u w => Sys2Proof.Machine.execLkup u w s
  | .sfetch u w => Sys2Proof.Machine.execSfetch u w s
  | .stitchFetchComplete u i_ => Sys2Proof.Machine.execStitchFetchComplete u i_ s
  | .mutreq u w => Sys2Proof.Machine.execMutreq u w s
  | .mutreqDone u => Sys2Proof.Machine.execMutreqDone u s
  | .wfe u w => Sys2Proof.Machine.execWfe u w s
  | .sev u w => Sys2Proof.Machine.execSev u w s
  | .chopen u w => Sys2Proof.Machine.execChopen u w s
  | .chput u w => Sys2Proof.Machine.execChput u w s
  | .chclose u w => Sys2Proof.Machine.execChclose u w s
  | .chget u w => Sys2Proof.Machine.execChget u w s
  | .chMsg r channel holder words => Sys2Proof.Machine.execChMsg r channel holder words s
  | .chCreditReturn r b channel => Sys2Proof.Machine.execChCreditReturn r b channel s
  | .chFlush r b regional channel => Sys2Proof.Machine.execChFlush r b regional channel s
  | .cpClear u w => Sys2Proof.Machine.execCpClear u w s
  | .gcmKeyw u w => Sys2Proof.Machine.execGcmKeyw u w s
  | .gcmIvw u w => Sys2Proof.Machine.execGcmIvw u w s
  | .gcmInit u w => Sys2Proof.Machine.execGcmInit u w s
  | .gcmAad u w => Sys2Proof.Machine.execGcmAad u w s
  | .gcmEnc u w => Sys2Proof.Machine.execGcmEnc u w s
  | .gcmDec u w => Sys2Proof.Machine.execGcmDec u w s
  | .gcmTag u w => Sys2Proof.Machine.execGcmTag u w s
  | .shaInit u w => Sys2Proof.Machine.execShaInit u w s
  | .shaData u w => Sys2Proof.Machine.execShaData u w s
  | .shaFinal u w => Sys2Proof.Machine.execShaFinal u w s
  | .shaDigest u w => Sys2Proof.Machine.execShaDigest u w s
  | .crc32cInit u w => Sys2Proof.Machine.execCrc32cInit u w s
  | .crc32cData u w => Sys2Proof.Machine.execCrc32cData u w s
  | .crc64Init u w => Sys2Proof.Machine.execCrc64Init u w s
  | .crc64Data u w => Sys2Proof.Machine.execCrc64Data u w s
  | .crc64Hi u w => Sys2Proof.Machine.execCrc64Hi u w s
  | .csumInit u w => Sys2Proof.Machine.execCsumInit u w s
  | .csumData u w => Sys2Proof.Machine.execCsumData u w s
  | .tpzInit u w => Sys2Proof.Machine.execTpzInit u w s
  | .tpzData u w => Sys2Proof.Machine.execTpzData u w s
  | .idxInit u w => Sys2Proof.Machine.execIdxInit u w s
  | .idxData u w => Sys2Proof.Machine.execIdxData u w s
  | .idxResult u w => Sys2Proof.Machine.execIdxResult u w s
  | .cpsave u w => Sys2Proof.Machine.execCpsave u w s
  | .cprestore u w => Sys2Proof.Machine.execCprestore u w s
  | .load u w wait => Sys2Proof.Machine.execLoad u w wait s
  | .store u w wait => Sys2Proof.Machine.execStore u w wait s
  | .amoaddW u w wait => Sys2Proof.Machine.execAmoaddW u w wait s
  | .amoswapW u w wait => Sys2Proof.Machine.execAmoswapW u w wait s
  | .lrW u w => Sys2Proof.Machine.execLrW u w s
  | .scW u w => Sys2Proof.Machine.execScW u w s
  | .latchRead u w wait => Sys2Proof.Machine.execLatchRead u w wait s
  | .latchWrite u w wait => Sys2Proof.Machine.execLatchWrite u w wait s
  | .forceReleaseWrite u w wait => Sys2Proof.Machine.execForceReleaseWrite u w wait s
  | .fence u w => Sys2Proof.Machine.execFence u w s
  | .fenceI u w => Sys2Proof.Machine.execFenceI u w s
  | .ecall u w => Sys2Proof.Machine.execEcall u w s
  | .ebreak u w => Sys2Proof.Machine.execEbreak u w s
  | .mret u w => Sys2Proof.Machine.execMret u w s
  | .wfi u w => Sys2Proof.Machine.execWfi u w s
  | .integerInstruction u w => Sys2Proof.Machine.execIntegerInstruction u w s
  | .csrAccess u w cycle used => Sys2Proof.Machine.execCsrAccess u w cycle used s
  | .timeCsrRead u w => Sys2Proof.Machine.execTimeCsrRead u w s
  | .celRxtsNsRead u w => Sys2Proof.Machine.execCelRxtsNsRead u w s
  | .celIrqClaim u w => Sys2Proof.Machine.execCelIrqClaim u w s
  | .threadReset u => Sys2Proof.Machine.execThreadReset u s
  | .threadResume u => Sys2Proof.Machine.execThreadResume u s
  | .threadHalt u => Sys2Proof.Machine.execThreadHalt u s
  | .debugHalt u => Sys2Proof.Machine.execDebugHalt u s
  | .debugResume u => Sys2Proof.Machine.execDebugResume u s
  | .icacheInvalidate cell => Sys2Proof.Machine.execIcacheInvalidate cell s
  | .slotCtlApply cell => Sys2Proof.Machine.execSlotCtlApply cell s
  | .genUpdate r src holder => Sys2Proof.Machine.execGenUpdate r src holder s
  | .releaseRec r src x => Sys2Proof.Machine.execReleaseRec r src x s
  | .releaseMark r src shutter => Sys2Proof.Machine.execReleaseMark r src shutter s
  | .releaseDeadline r => Sys2Proof.Machine.execReleaseDeadline r s
  | .rewriteComplete r stamp copy poisoned => Sys2Proof.Machine.execRewriteComplete r stamp copy poisoned s
  | .enqOutcome r src outcome stamp copy requester => Sys2Proof.Machine.execEnqOutcome r src outcome stamp copy requester s
  | .spillCopyDone r queue stamp copy => Sys2Proof.Machine.execSpillCopyDone r queue stamp copy s
  | .scheduleDecision r p => Sys2Proof.Machine.execScheduleDecision r p s
  | .transmitComplete r p ns sec => Sys2Proof.Machine.execTransmitComplete r p ns sec s
  | .bodyRd r src handle tag => Sys2Proof.Machine.execBodyRd r src handle tag s
  | .bodyData r src status tag descriptor data => Sys2Proof.Machine.execBodyData r src status tag descriptor data s
  | .pfcFrame r p quanta => Sys2Proof.Machine.execPfcFrame r p quanta s
  | .pfcPauseExpiry r p cls => Sys2Proof.Machine.execPfcPauseExpiry r p cls s
  | .pfcPauseRepeat r p cls => Sys2Proof.Machine.execPfcPauseRepeat r p cls s
  | .stormDeclare r p cls => Sys2Proof.Machine.execStormDeclare r p cls s
  | .stormEnd r p cls => Sys2Proof.Machine.execStormEnd r p cls s
  | .linkDown r p => Sys2Proof.Machine.execLinkDown r p s
  | .linkUp r p => Sys2Proof.Machine.execLinkUp r p s
  | .alloc r requester pool cls sizes => Sys2Proof.Machine.execAlloc r requester pool cls sizes s
  | .free issuer handle found => Sys2Proof.Machine.execFree issuer handle found s
  | .handover issuer handle dest found => Sys2Proof.Machine.execHandover issuer handle dest found s
  | .addref issuer handle found => Sys2Proof.Machine.execAddref issuer handle found s
  | .deref issuer handle found => Sys2Proof.Machine.execDeref issuer handle found s
  | .returnRef issuer holder handle found => Sys2Proof.Machine.execReturnRef issuer holder handle found s
  | .poolOp r src kind handle issuer holder found => Sys2Proof.Machine.execPoolOp r src kind handle issuer holder found s
  | .freeCacheRefill r requester pool found => Sys2Proof.Machine.execFreeCacheRefill r requester pool found s
  | .spScrub r b bank line found => Sys2Proof.Machine.execSpScrub r b bank line found s
  | .blkMemClean r b value => Sys2Proof.Machine.execBlkMemClean r b value s
  | .secWipe r b => Sys2Proof.Machine.execSecWipe r b s
  | .secSizeWrite r b value => Sys2Proof.Machine.execSecSizeWrite r b value s
  | .secLock r b => Sys2Proof.Machine.execSecLock r b s
  | .secWipeDone r b => Sys2Proof.Machine.execSecWipeDone r b s
  | .retentionRequest r value => Sys2Proof.Machine.execRetentionRequest r value s
  | .retentionEnter r b => Sys2Proof.Machine.execRetentionEnter r b s
  | .blockWakeDone r b => Sys2Proof.Machine.execBlockWakeDone r b s
  | .blkIcInv r b cells => Sys2Proof.Machine.execBlkIcInv r b cells s
  | .cellRunWrite r b value => Sys2Proof.Machine.execCellRunWrite r b value s
  | .blockReset r blocks => Sys2Proof.Machine.execBlockReset r blocks s
  | .hbmRequest r port write addr len data hint first last waits found latency => Sys2Proof.Machine.execHbmRequest r port write addr len data hint first last waits found latency s
  | .hbmNormalAge r => Sys2Proof.Machine.execHbmNormalAge r s
  | .hbmRowIdleClose r pc bank => Sys2Proof.Machine.execHbmRowIdleClose r pc bank s
  | .hbmRefreshDue r pc => Sys2Proof.Machine.execHbmRefreshDue r pc s
  | .hbmScrub r addr found => Sys2Proof.Machine.execHbmScrub r addr found s
  | .hbmGather r start drift => Sys2Proof.Machine.execHbmGather r start drift s
  | .hbmTempSample r temp catastrophic => Sys2Proof.Machine.execHbmTempSample r temp catastrophic s
  | .hbmRateWrite r rate => Sys2Proof.Machine.execHbmRateWrite r rate s
  | .hbmFreqChange r => Sys2Proof.Machine.execHbmFreqChange r s
  | .hbmFreqDone r => Sys2Proof.Machine.execHbmFreqDone r s
  | .hbmTrainRetrain r => Sys2Proof.Machine.execHbmTrainRetrain r s
  | .hbmRetrainDone r failed => Sys2Proof.Machine.execHbmRetrainDone r failed s
  | .hbmOrderWrite r order => Sys2Proof.Machine.execHbmOrderWrite r order s
  | .hbmInitDone r => Sys2Proof.Machine.execHbmInitDone r s
  | .hbmSelfRefreshExit r => Sys2Proof.Machine.execHbmSelfRefreshExit r s
  | .dataFlit r m header errors heads waiting => Sys2Proof.Machine.execDataFlit r m header errors heads waiting s
  | .nak r m header time => Sys2Proof.Machine.execNak r m header time s
  | .init r m header credits => Sys2Proof.Machine.execInit r m header credits s
  | .idle r m header => Sys2Proof.Machine.execIdle r m header s
  | .moduleFailed r m time => Sys2Proof.Machine.execModuleFailed r m time s
  | .laneRepair r m time => Sys2Proof.Machine.execLaneRepair r m time s
  | .rd r src addr len holder hint tag => Sys2Proof.Machine.execRd r src addr len holder hint tag s
  | .wr r src addr len holder hint tag data => Sys2Proof.Machine.execWr r src addr len holder hint tag data s
  | .amo r src swap addr holder hint tag operand => Sys2Proof.Machine.execAmo r src swap addr holder hint tag operand s
  | .rdData r src status tag data => Sys2Proof.Machine.execRdData r src status tag data s
  | .wrAck r src status tag => Sys2Proof.Machine.execWrAck r src status tag s
  | .amoData r src status tag previous => Sys2Proof.Machine.execAmoData r src status tag previous s
  | .requestTimeout r tag => Sys2Proof.Machine.execRequestTimeout r tag s
  | .targetBusy r src tag => Sys2Proof.Machine.execTargetBusy r src tag s
  | .irq r src source count target => Sys2Proof.Machine.execIrq r src source count target s
  | .hitNotice r src table slot quantum => Sys2Proof.Machine.execHitNotice r src table slot quantum s
  | .errReport r src code detail => Sys2Proof.Machine.execErrReport r src code detail s
  | .mgtMsg r src info payload => Sys2Proof.Machine.execMgtMsg r src info payload s
  | .linkReqUp r m up => Sys2Proof.Machine.execLinkReqUp r m up s
  | .linkAdmit r m allow => Sys2Proof.Machine.execLinkAdmit r m allow s
  | .ptsInfoRead r p => Sys2Proof.Machine.execPtsInfoRead r p s
  | .qpTxDoorbell e q pi => Sys2Proof.Machine.execQpTxDoorbell e q pi s
  | .qpRxDoorbell e q pi => Sys2Proof.Machine.execQpRxDoorbell e q pi s
  | .txDescriptorTake e => Sys2Proof.Machine.execTxDescriptorTake e s
  | .txDmaComplete e q failed time => Sys2Proof.Machine.execTxDmaComplete e q failed time s
  | .rxPacketDeliver e q => Sys2Proof.Machine.execRxPacketDeliver e q s
  | .rxHoldExpiry e q => Sys2Proof.Machine.execRxHoldExpiry e q s
  | .urDoorbell e ring pi => Sys2Proof.Machine.execUrDoorbell e ring pi s
  | .updateRingTake e time => Sys2Proof.Machine.execUpdateRingTake e time s
  | .msixCoalesceExpiry e q => Sys2Proof.Machine.execMsixCoalesceExpiry e q s
  | .bar2Access e addr write len data => Sys2Proof.Machine.execBar2Access e addr write len data s
  | .endpointReset e linkDown => Sys2Proof.Machine.execEndpointReset e linkDown s
  | .mbDoorbell e pair value => Sys2Proof.Machine.execMbDoorbell e pair value s
  | .nop e pair elapsed => Sys2Proof.Machine.execNop e pair elapsed s
  | .getInfo e pair elapsed => Sys2Proof.Machine.execGetInfo e pair elapsed s
  | .eventRingSet e pair elapsed => Sys2Proof.Machine.execEventRingSet e pair elapsed s
  | .jobQuery e pair elapsed => Sys2Proof.Machine.execJobQuery e pair elapsed s
  | .modeSet e pair elapsed => Sys2Proof.Machine.execModeSet e pair elapsed s
  | .tickSet e pair elapsed => Sys2Proof.Machine.execTickSet e pair elapsed s
  | .ptpLoad e pair elapsed => Sys2Proof.Machine.execPtpLoad e pair elapsed s
  | .ptpAdjust e pair elapsed => Sys2Proof.Machine.execPtpAdjust e pair elapsed s
  | .unitSet e pair elapsed => Sys2Proof.Machine.execUnitSet e pair elapsed s
  | .unitQuery e pair elapsed => Sys2Proof.Machine.execUnitQuery e pair elapsed s
  | .ledgerScan e pair elapsed => Sys2Proof.Machine.execLedgerScan e pair elapsed s
  | .tblDescSet e pair elapsed => Sys2Proof.Machine.execTblDescSet e pair elapsed s
  | .tblMutate e pair elapsed time => Sys2Proof.Machine.execTblMutate e pair elapsed time s
  | .tblRead e pair elapsed => Sys2Proof.Machine.execTblRead e pair elapsed s
  | .cmRead e pair elapsed => Sys2Proof.Machine.execCmRead e pair elapsed s
  | .cmWrite e pair elapsed => Sys2Proof.Machine.execCmWrite e pair elapsed s
  | .paneDivSet e pair elapsed => Sys2Proof.Machine.execPaneDivSet e pair elapsed s
  | .paneOpen e pair elapsed => Sys2Proof.Machine.execPaneOpen e pair elapsed s
  | .paneWrite e pair elapsed => Sys2Proof.Machine.execPaneWrite e pair elapsed s
  | .paneClose e pair elapsed => Sys2Proof.Machine.execPaneClose e pair elapsed s
  | .paneSwap e pair elapsed => Sys2Proof.Machine.execPaneSwap e pair elapsed s
  | .paneForceFree e pair elapsed => Sys2Proof.Machine.execPaneForceFree e pair elapsed s
  | .regRead e pair elapsed => Sys2Proof.Machine.execRegRead e pair elapsed s
  | .regWrite e pair elapsed => Sys2Proof.Machine.execRegWrite e pair elapsed s
  | .bpmDescRead e pair elapsed => Sys2Proof.Machine.execBpmDescRead e pair elapsed s
  | .bpmStat e pair elapsed => Sys2Proof.Machine.execBpmStat e pair elapsed s
  | .regionFence e pair elapsed => Sys2Proof.Machine.execRegionFence e pair elapsed s
  | .regionRejoin e pair elapsed => Sys2Proof.Machine.execRegionRejoin e pair elapsed s
  | .journalRead e pair elapsed => Sys2Proof.Machine.execJournalRead e pair elapsed s
  | .hbmRetrain e pair elapsed => Sys2Proof.Machine.execHbmRetrain e pair elapsed s
  | .hbmRateSet e pair elapsed => Sys2Proof.Machine.execHbmRateSet e pair elapsed s
  | .guestDescRead e pair elapsed => Sys2Proof.Machine.execGuestDescRead e pair elapsed s
  | .guestRoleSet e pair elapsed => Sys2Proof.Machine.execGuestRoleSet e pair elapsed s
  | .guestAdmit e pair elapsed => Sys2Proof.Machine.execGuestAdmit e pair elapsed s
  | .fwStage e pair elapsed => Sys2Proof.Machine.execFwStage e pair elapsed s
  | .fwActivate e pair elapsed => Sys2Proof.Machine.execFwActivate e pair elapsed s
  | .lcAdvance e pair elapsed => Sys2Proof.Machine.execLcAdvance e pair elapsed s
  | .lcAdvanceDone => Sys2Proof.Machine.execLcAdvanceDone s
  | .monSnapshot e pair elapsed => Sys2Proof.Machine.execMonSnapshot e pair elapsed s
  | .jobDone num => Sys2Proof.Machine.execJobDone num s
  | .irqEnSet r w value => Sys2Proof.Machine.execIrqEnSet r w value s
  | .irqEnClr r w value => Sys2Proof.Machine.execIrqEnClr r w value s
  | .irqPendSet r w value => Sys2Proof.Machine.execIrqPendSet r w value s
  | .irqPendClr r w value => Sys2Proof.Machine.execIrqPendClr r w value s
  | .irqClaimMp r => Sys2Proof.Machine.execIrqClaimMp r s
  | .irqRetarget r n value => Sys2Proof.Machine.execIrqRetarget r n value s
  | .monSnapArm => Sys2Proof.Machine.execMonSnapArm s
  | .monSnapCancel => Sys2Proof.Machine.execMonSnapCancel s
  | .snapshotReport src tick => Sys2Proof.Machine.execSnapshotReport src tick s
  | .registerPairLoRead addr => Sys2Proof.Machine.execRegisterPairLoRead addr s
  | .registerPairHiWrite addr value => Sys2Proof.Machine.execRegisterPairHiWrite addr value s
  | .tblBadlineRead r => Sys2Proof.Machine.execTblBadlineRead r s
  | .dspFlagsSet r value => Sys2Proof.Machine.execDspFlagsSet r value s
  | .dspFlagsClr r value => Sys2Proof.Machine.execDspFlagsClr r value s
  | .modeReq value => Sys2Proof.Machine.execModeReq value s
  | .compatWrite value => Sys2Proof.Machine.execCompatWrite value s
  | .periodWrite value => Sys2Proof.Machine.execPeriodWrite value s
  | .ptpCtlLoad => Sys2Proof.Machine.execPtpCtlLoad s
  | .ptpAdjWrite value => Sys2Proof.Machine.execPtpAdjWrite value s
  | .ptpFreqWrite value => Sys2Proof.Machine.execPtpFreqWrite value s
  | .parkWrite r value => Sys2Proof.Machine.execParkWrite r value s
  | .regionWakeDone r => Sys2Proof.Machine.execRegionWakeDone r s
  | .cellClkWrite r value => Sys2Proof.Machine.execCellClkWrite r value s
  | .portEnableWrite r p enable => Sys2Proof.Machine.execPortEnableWrite r p enable s
  | .powerOnReset rail => Sys2Proof.Machine.execPowerOnReset rail s
  | .vinBrownout => Sys2Proof.Machine.execVinBrownout s
  | .sysRstN => Sys2Proof.Machine.execSysRstN s
  | .rstCtlCold key => Sys2Proof.Machine.execRstCtlCold key s
  | .rstCtlWarm key => Sys2Proof.Machine.execRstCtlWarm key s
  | .ldrStart e => Sys2Proof.Machine.execLdrStart e s
  | .readId => Sys2Proof.Machine.execReadId s
  | .readStatus => Sys2Proof.Machine.execReadStatus s
  | .write addr data => Sys2Proof.Machine.execWrite addr data s
  | .read addr len => Sys2Proof.Machine.execRead addr len s
  | .start => Sys2Proof.Machine.execStart s
  | .authComplete => Sys2Proof.Machine.execAuthComplete s
  | .loaderHandover bist training bootMs => Sys2Proof.Machine.execLoaderHandover bist training bootMs s
  | .tamperSense r sensors => Sys2Proof.Machine.execTamperSense r sensors s
  | .thermSample temps => Sys2Proof.Machine.execThermSample temps s
  | .mpFailure r cause => Sys2Proof.Machine.execMpFailure r cause s
  | .mpRestartDone r => Sys2Proof.Machine.execMpRestartDone r s
  | .missedShutterCheck retry => Sys2Proof.Machine.execMissedShutterCheck retry s
  | .fenceCtlFence region => Sys2Proof.Machine.execFenceCtlFence region s
  | .fenceCtlRejoin region => Sys2Proof.Machine.execFenceCtlRejoin region s
  | .rejoinResetDone => Sys2Proof.Machine.execRejoinResetDone s
  | .rejoinSyncDone => Sys2Proof.Machine.execRejoinSyncDone s
  | .rejoinCopyDone late => Sys2Proof.Machine.execRejoinCopyDone late s
  | .journalSuppress r => Sys2Proof.Machine.execJournalSuppress r s
  | .faultAck => Sys2Proof.Machine.execFaultAck s
  | .meterRefillPass r table index => Sys2Proof.Machine.execMeterRefillPass r table index s
  | .registerWrite addr value => Sys2Proof.Machine.execRegisterWrite addr value s
  | .linkTrainingDone r m spares time => Sys2Proof.Machine.execLinkTrainingDone r m spares time s
  | .endpointLinkUp e gen width => Sys2Proof.Machine.execEndpointLinkUp e gen width s
  | .hbmCaParityError r pc => Sys2Proof.Machine.execHbmCaParityError r pc s
  | .regionParkDone r => Sys2Proof.Machine.execRegionParkDone r s
  | .sysRstNRelease => Sys2Proof.Machine.execSysRstNRelease s
  | .resetRelease straps => Sys2Proof.Machine.execResetRelease straps s
  | .fuseLoadDone failed => Sys2Proof.Machine.execFuseLoadDone failed s
  | .guestCurrentLimit r => Sys2Proof.Machine.execGuestCurrentLimit r s
  | .supplySample vin current power low => Sys2Proof.Machine.execSupplySample vin current power low s

end Sys2Proof.Machine
end

