-- ==== Sys2Proof/WellFormed.lean ====
section
/-!
DEFINITION. When the operands of a command are those that its message, register or field can carry.
-/

namespace Sys2Proof

/-- A tick number (R84). -/
def tickFits (t : Nat) : Bool := decide (t < 2 ^ 48)

/-- A region mask. -/
def maskFits (m : Nat) : Bool := decide (m < 256)

/-- A fabric address (R74). -/
def addrFits (a : Nat) : Bool := decide (a < 2 ^ 48)

/-- A local requester, a requester ID and a stitch handle (R557, R572). -/
def requesterFits (l : Nat) : Bool := decide (l < 256)
def requesterIdFits (l : Nat) : Bool := decide (l < 2 ^ 11)
def handleFits (h : Nat) : Bool := decide (h < 2 ^ 32)

/-- The operands of a request message (R662). -/
def requestFits (addr len holder hint tag : Nat) : Bool :=
  addrFits addr && decide (1 ≤ len) && decide (len ≤ 256) && decide (holder < 2 ^ 32) && decide (hint < 256) && decide (tag < 2 ^ 12)

/-- A stamp's fields (R161). -/
def Stamp.fits (s : Stamp) : Bool :=
  decide (s.port ≤ 0x41) && decide (s.tc < 8) && decide (s.seq < 2 ^ 16) && tickFits s.tick && decide (s.time ≤ 7500)

/-- A mutation record's fields (R327): its payload fills the record and its extension slots. -/
def Mut.fits (m : Mut) : Bool :=
  decide (m.op < 16) && decide (m.source ≤ 5) && decide (m.table ≤ 255) && decide (m.region < 8) && decide (m.seq < 128)
    && decide (m.port < 128) && decide (m.stampAge < 16) && decide (m.time < 8192) && decide (m.extCount ≤ 2) && decide (m.keyLen < 64)
    && decide (m.dataLen < 32) && decide (m.plen ≤ 128) && decide (m.owner < 8) && decide (m.index < 2 ^ 32)
    && decide (m.payload.length = 16 + 32 * m.extCount)

/-- A release record's fields (R663). -/
def ReleaseRec.fits (x : ReleaseRec) : Bool :=
  x.stamp.fits && decide (3 ≤ x.transit) && decide (x.transit ≤ 14) && decide (x.copy ≤ 18) && decide (x.dest < 2 ^ 15)
    && handleFits x.head && decide (x.length ≤ 16640)

/-- A commit's fields (R103, R662). -/
def Commit.fits (c : Commit) : Bool :=
  tickFits c.tick && tickFits c.last && c.parts.all (fun p => decide (p.region < 8) && decide (p.count ≤ 128))

/-- A pseudo-channel of a stack (R610). -/
def pcFits (pc : Nat) : Bool := decide (pc < 32)

namespace Instr

/-- Whether the operands of a command fit. A command without a restricted operand always fits. -/
def wellFormed : Instr → Bool
  | .shutterMark _ _ tick hops residence anchor _ _ => tickFits tick && decide (hops < 256) && decide (residence < 2 ^ 32) && decide (anchor < 8)
  | .echoReq _ _ time turn | .echoRsp _ _ time turn _ => decide (time < 2 ^ 64) && decide (turn < 2 ^ 32)
  | .mutRecord _ _ tick m | .recon _ _ tick m => tickFits tick && m.fits
  | .seal _ tick count _ => tickFits tick && decide (count ≤ 128)
  | .commit _ c _ _ => c.fits
  | .repairReq _ _ table line _ | .repairStalled _ table line => decide (table ≤ 255) && decide (line < 2 ^ 29)
  | .member _ _ a b c x tick => maskFits a && maskFits b && maskFits c && maskFits x && tickFits tick
  | .linkState _ _ edges tick => decide (edges < 2 ^ 10) && tickFits tick
  | .paneWindowWrite _ _ inStore off data => decide (off + data.length ≤ if inStore then 0x60000 else 0x10000)
  | .frameReceive _ _ frame _ _ _ time ns sec =>
    decide (frame.length ≤ 16384) && decide (time ≤ 7500) && decide (ns < 10 ^ 9) && decide (sec < 2 ^ 48)
  | .txDmaComplete _ _ _ time => decide (time ≤ 7500)
  | .chMsg _ channel holder words => decide (channel < 256) && decide (holder < 2 ^ 32) && decide (words.length ≤ 8)
  | .chCreditReturn _ _ channel => decide (channel < 256)
  | .chFlush _ _ wide channel => decide (channel < if wide then 256 else 64)
  | .genUpdate _ _ holder => decide (holder < 2 ^ 32)
  | .releaseRec _ _ x => x.fits
  | .releaseMark _ _ s => tickFits s
  | .rewriteComplete _ stamp copy _ => stamp.fits && decide (copy ≤ 18)
  | .enqOutcome _ _ outcome stamp copy requester => decide (outcome ≤ 2) && stamp.fits && decide (copy ≤ 18) && requesterFits requester
  | .spillCopyDone _ queue stamp copy => decide (queue < 4096) && stamp.fits && decide (copy ≤ 18)
  | .bodyRd _ _ handle tag => handleFits handle && decide (tag < 2 ^ 12)
  | .bodyData _ _ _ tag _ data => decide (tag < 2 ^ 12) && decide (data.length ≤ 256)
  | .pfcFrame _ _ quanta => quanta.all (fun q => decide (q.1 < 8) && decide (q.2 < 2 ^ 16))
  | .pfcPauseExpiry _ _ cls | .pfcPauseRepeat _ _ cls | .stormDeclare _ _ cls | .stormEnd _ _ cls => decide (cls < 8)
  | .alloc _ requester pool cls sizes => requesterFits requester && decide (pool < 2) && decide (cls < 8) && sizes.all (fun n => decide (n ≤ 256))
  | .free issuer handle _ | .addref issuer handle _ | .deref issuer handle _ => requesterIdFits issuer && handleFits handle
  | .handover issuer handle dest _ => requesterIdFits issuer && handleFits handle && requesterIdFits dest
  | .returnRef issuer holder handle _ => requesterIdFits issuer && requesterFits holder && handleFits handle
  | .poolOp _ _ kind handle issuer holder _ => decide (1 ≤ kind) && decide (kind ≤ 3) && handleFits handle && requesterIdFits issuer && requesterFits holder
  | .freeCacheRefill _ requester pool _ => requesterFits requester && decide (pool < 2)
  | .spScrub _ _ bank line found => decide (bank < 16) && decide (line < 4096) && decide (found ≤ 2)
  | .hbmRequest _ port _ addr len data _ _ _ _ found _ =>
    decide (port ≤ 5) && decide (addr < 2 ^ 35) && decide (len ≤ 256) && decide (data.length ≤ 256) && decide (found ≤ 2)
  | .hbmRowIdleClose _ pc bank => pcFits pc && decide (bank < 48)
  | .hbmRefreshDue _ pc | .hbmCaParityError _ pc => pcFits pc
  | .hbmScrub _ addr found => decide (addr < 2 ^ 35) && decide (found ≤ 2)
  | .hbmTempSample _ temp _ => decide (temp < 256)
  | .hbmRateWrite _ rate | .hbmOrderWrite _ rate => decide (rate < 4)
  | .dataFlit _ _ header _ heads _ => decide (header < 2 ^ 128) && heads.all (fun h => decide (h < 2 ^ 64))
  | .nak _ _ header _ | .init _ _ header _ | .idle _ _ header => decide (header < 2 ^ 128)
  | .rd _ _ addr len holder hint tag => requestFits addr len holder hint tag
  | .wr _ _ addr len holder hint tag data => requestFits addr len holder hint tag && decide (data.length = len)
  | .amo _ _ _ addr holder hint tag operand => requestFits addr 4 holder hint tag && decide (operand < 2 ^ 32)
  | .rdData _ _ _ tag data => decide (tag < 2 ^ 12) && decide (data.length ≤ 256)
  | .wrAck _ _ _ tag | .requestTimeout _ tag | .targetBusy _ _ tag => decide (tag < 2 ^ 12)
  | .amoData _ _ _ tag previous => decide (tag < 2 ^ 12) && decide (previous < 2 ^ 32)
  | .irq _ _ source count target => decide (source < 2 ^ 13) && decide (count < 256) && decide (target < 256)
  | .hitNotice _ _ table slot quantum => decide (table ≤ 255) && decide (slot < 2 ^ 32) && decide (quantum < 4096)
  | .errReport _ _ code detail => decide (code < 2 ^ 16) && decide (detail.length ≤ 16)
  | .mgtMsg _ _ info payload => decide (info < 2 ^ 16) && decide (payload.length ≤ 256)
  | .bar2Access _ addr _ len data => decide (addr < 2 ^ 30) && decide (len ≤ 4096) && decide (data.length ≤ 4096)
  | .registerPairLoRead addr => decide (addr % 4 = 0)
  | .registerPairHiWrite addr _ | .registerWrite addr _ => decide (addr % 4 = 0)
  | .write addr data => decide (addr < 2 ^ 32) && decide (data.length ≤ 256)
  | .read addr _ => decide (addr < 2 ^ 32)
  | .loaderHandover bist training _ => maskFits bist && maskFits training
  | .thermSample temps => decide (temps.length = 8)
  | .endpointLinkUp _ gen width => decide (gen < 8) && decide (width ≤ 16)
  | .snapshotReport _ tick => tickFits tick
  | .linkTrainingDone _ _ spares _ => decide (spares < 8)
  | .shutter _ | .ppsEdge _ _ | .ppsLockLost | .sealDeadline | .applyDeadline _ | .paneCtlSwap | .paneCtlForceFree | .paneWrOpen _ _
  | .paneWrClose _ | .paneCodeDone _ _ | .clsDivWrite _ _ _ | .frontEndPass _ | .firstPassDeadline _ | .recircPassDeadline _
  | .lookupComplete _ _ _ | .dispatchPlacement _ _ | .placementDeadline _ _ | .windowWrite _ | .packetStart _ | .allWaiting _
  | .retire _ _ _ | .lkup _ _ | .sfetch _ _ | .stitchFetchComplete _ _ | .mutreq _ _ | .mutreqDone _ | .wfe _ _ | .sev _ _
  | .chopen _ _ | .chput _ _ | .chclose _ _ | .chget _ _ | .cpClear _ _ | .gcmKeyw _ _ | .gcmIvw _ _ | .gcmInit _ _ | .gcmAad _ _
  | .gcmEnc _ _ | .gcmDec _ _ | .gcmTag _ _ | .shaInit _ _ | .shaData _ _ | .shaFinal _ _ | .shaDigest _ _ | .crc32cInit _ _
  | .crc32cData _ _ | .crc64Init _ _ | .crc64Data _ _ | .crc64Hi _ _ | .csumInit _ _ | .csumData _ _ | .tpzInit _ _ | .tpzData _ _
  | .idxInit _ _ | .idxData _ _ | .idxResult _ _ | .cpsave _ _ | .cprestore _ _ | .load _ _ _ | .store _ _ _ | .amoaddW _ _ _
  | .amoswapW _ _ _ | .lrW _ _ | .scW _ _ | .latchRead _ _ _ | .latchWrite _ _ _ | .forceReleaseWrite _ _ _ | .fence _ _ | .fenceI _ _
  | .ecall _ _ | .ebreak _ _ | .mret _ _ | .wfi _ _ | .integerInstruction _ _ | .csrAccess _ _ _ _ | .timeCsrRead _ _
  | .celRxtsNsRead _ _ | .celIrqClaim _ _ | .threadReset _ | .threadResume _ | .threadHalt _ | .debugHalt _ | .debugResume _
  | .icacheInvalidate _ | .slotCtlApply _ | .releaseDeadline _ | .scheduleDecision _ _ | .transmitComplete _ _ _ _ | .linkDown _ _
  | .linkUp _ _ | .blkMemClean _ _ _ | .secWipe _ _ | .secSizeWrite _ _ _ | .secLock _ _ | .secWipeDone _ _ | .retentionRequest _ _
  | .retentionEnter _ _ | .blockWakeDone _ _ | .blkIcInv _ _ _ | .cellRunWrite _ _ _ | .blockReset _ _ | .hbmNormalAge _
  | .hbmGather _ _ _ | .hbmFreqChange _ | .hbmFreqDone _ | .hbmTrainRetrain _ | .hbmRetrainDone _ _ | .hbmInitDone _
  | .hbmSelfRefreshExit _ | .moduleFailed _ _ _ | .laneRepair _ _ _ | .linkReqUp _ _ _ | .linkAdmit _ _ _ | .ptsInfoRead _ _
  | .qpTxDoorbell _ _ _ | .qpRxDoorbell _ _ _ | .txDescriptorTake _ | .rxPacketDeliver _ _
  | .rxHoldExpiry _ _ | .urDoorbell _ _ _ | .updateRingTake _ _ | .msixCoalesceExpiry _ _ | .endpointReset _ _ | .mbDoorbell _ _ _
  | .nop _ _ _ | .getInfo _ _ _ | .eventRingSet _ _ _ | .jobQuery _ _ _ | .modeSet _ _ _ | .tickSet _ _ _ | .ptpLoad _ _ _
  | .ptpAdjust _ _ _ | .unitSet _ _ _ | .unitQuery _ _ _ | .ledgerScan _ _ _ | .tblDescSet _ _ _ | .tblMutate _ _ _ _ | .tblRead _ _ _
  | .cmRead _ _ _ | .cmWrite _ _ _ | .paneDivSet _ _ _ | .paneOpen _ _ _ | .paneWrite _ _ _ | .paneClose _ _ _ | .paneSwap _ _ _
  | .paneForceFree _ _ _ | .regRead _ _ _ | .regWrite _ _ _ | .bpmDescRead _ _ _ | .bpmStat _ _ _ | .regionFence _ _ _
  | .regionRejoin _ _ _ | .journalRead _ _ _ | .hbmRetrain _ _ _ | .hbmRateSet _ _ _ | .guestDescRead _ _ _ | .guestRoleSet _ _ _
  | .guestAdmit _ _ _ | .fwStage _ _ _ | .fwActivate _ _ _ | .lcAdvance _ _ _ | .lcAdvanceDone | .monSnapshot _ _ _ | .jobDone _
  | .irqEnSet _ _ _ | .irqEnClr _ _ _ | .irqPendSet _ _ _ | .irqPendClr _ _ _ | .irqClaimMp _ | .irqRetarget _ _ _ | .monSnapArm
  | .monSnapCancel | .tblBadlineRead _ | .dspFlagsSet _ _ | .dspFlagsClr _ _ | .modeReq _ | .compatWrite _ | .periodWrite _
  | .ptpCtlLoad | .ptpAdjWrite _ | .ptpFreqWrite _ | .parkWrite _ _ | .regionWakeDone _ | .cellClkWrite _ _ | .portEnableWrite _ _ _
  | .powerOnReset _ | .vinBrownout | .sysRstN | .rstCtlCold _ | .rstCtlWarm _ | .ldrStart _ | .readId | .readStatus | .start
  | .authComplete | .tamperSense _ _ | .mpFailure _ _ | .mpRestartDone _ | .missedShutterCheck _ | .fenceCtlFence _ | .fenceCtlRejoin _
  | .rejoinResetDone | .rejoinSyncDone | .rejoinCopyDone _ | .journalSuppress _ | .faultAck | .meterRefillPass _ _ _ | .regionParkDone _
  | .sysRstNRelease | .resetRelease _ | .fuseLoadDone _ | .guestCurrentLimit _ | .supplySample _ _ _ _ => true

end Instr

end Sys2Proof
end

