-- ==== Sys2Proof/Safety.lean ====
section
/-!
DEFINITION. What counts as a sound state and as a safe run, and what a command leaves unchanged, in the terms that claims use.
-/

namespace Sys2Proof.Machine

/-- The canonical form of a byte memory: addresses rise strictly, and no entry equals what an unlisted address reads as. -/
abbrev Memory.wf (m : List Host.Cell) : Prop := Sparse.Wf Dev.memDefault m

/-- The canonical forms of the part's sparse stores: memory, poison marks, registers, contexts and cells. -/
abbrev Dev.Canonical (d : Dev) : Prop :=
  Memory.wf d.mem ∧ Sparse.Wf (fun _ => false) d.poison ∧ Sparse.Wf regDefault d.regs ∧ Sparse.Wf Dev.ctxDefault d.ctxs
    ∧ Sparse.Wf Dev.cellDefault d.cells

/-- Every command that waits is well-formed. -/
abbrev State.QueueFits (s : State) : Prop := ∀ c ∈ s.pending, c.wellFormed = true

/-- A run of `k` steps that meets no fault. -/
def SafeRun (k : Nat) (s : State) : Prop := ∀ f, Host.Core.run core k s ≠ .fault f

/-! ### Frames -/

/-- A part of the state that a command can leave alone: a field of the part as a whole, or a field of its regions. -/
inductive Part where
  | free | genBase | anchor | regs | pairs | mem | poison | wire | line | ctxs | cells | blockCh | regionCh | chSpent
  | packets | nextPacket | anchorSt | endpoints | chip | thody
  | tick | mode | drainedFrom | commit | tables | inbox | pool | egress | front | dispatch | mirror | mpGeneration | ledger
  | journal | requests | nextTag | hbm | links | routeDue | due | relays | wipes
deriving DecidableEq, Repr

/-- Whether two states of the part agree in one of its parts. -/
def Part.same (d e : Dev) : Part → Prop
  | .free => e.free = d.free
  | .genBase => e.genBase = d.genBase
  | .anchor => e.anchor = d.anchor
  | .regs => e.regs = d.regs
  | .pairs => e.pairs = d.pairs
  | .mem => e.mem = d.mem
  | .poison => e.poison = d.poison
  | .wire => e.wire = d.wire
  | .line => e.line = d.line
  | .ctxs => e.ctxs = d.ctxs
  | .cells => e.cells = d.cells
  | .blockCh => e.blockCh = d.blockCh
  | .regionCh => e.regionCh = d.regionCh
  | .chSpent => e.chSpent = d.chSpent
  | .packets => e.packets = d.packets
  | .nextPacket => e.nextPacket = d.nextPacket
  | .anchorSt => e.anchorSt = d.anchorSt
  | .endpoints => e.endpoints = d.endpoints
  | .chip => e.chip = d.chip
  | .thody => e.thody = d.thody
  | .tick => ∀ r, (e.g r).tick = (d.g r).tick
  | .mode => ∀ r, (e.g r).mode = (d.g r).mode
  | .drainedFrom => ∀ r, (e.g r).drainedFrom = (d.g r).drainedFrom
  | .commit => ∀ r, (e.g r).commit = (d.g r).commit
  | .tables => ∀ r, (e.g r).tables = (d.g r).tables
  | .inbox => ∀ r, (e.g r).inbox = (d.g r).inbox
  | .pool => ∀ r, (e.g r).pool = (d.g r).pool
  | .egress => ∀ r, (e.g r).egress = (d.g r).egress
  | .front => ∀ r, (e.g r).front = (d.g r).front
  | .dispatch => ∀ r, (e.g r).dispatch = (d.g r).dispatch
  | .mirror => ∀ r, (e.g r).mirror = (d.g r).mirror
  | .mpGeneration => ∀ r, (e.g r).mpGeneration = (d.g r).mpGeneration
  | .ledger => ∀ r, (e.g r).ledger = (d.g r).ledger
  | .journal => ∀ r, (e.g r).journal = (d.g r).journal
  | .requests => ∀ r, (e.g r).requests = (d.g r).requests
  | .nextTag => ∀ r, (e.g r).nextTag = (d.g r).nextTag
  | .hbm => ∀ r, (e.g r).hbm = (d.g r).hbm
  | .links => ∀ r, (e.g r).links = (d.g r).links
  | .routeDue => ∀ r, (e.g r).routeDue = (d.g r).routeDue
  | .due => ∀ r, (e.g r).due = (d.g r).due
  | .relays => ∀ r, (e.g r).relays = (d.g r).relays
  | .wipes => ∀ r, (e.g r).wipes = (d.g r).wipes

/-- Everything but the listed parts is as before. -/
def Dev.OnlyIn (l : List Part) (d e : Dev) : Prop := ∀ p, p ∉ l → p.same d e

/-- Every register outside a set of addresses is as before. -/
def Dev.RegsBut (own : Nat → Prop) (d e : Dev) : Prop := ∀ a, ¬ own a → e.reg a = d.reg a

/-- Every register outside a list of addresses is as before. -/
def Dev.RegsIn (l : List Nat) (d e : Dev) : Prop := d.RegsBut (· ∈ l) e

/-- A field holds a value, and the other bits of its register are as before. -/
def Dev.Wrote (f : Fld) (v : Nat) (d e : Dev) : Prop :=
  e.fld f = v ∧ ∀ i, i < f.lo ∨ f.lo + f.width ≤ i → (e.reg f.addr).getLsbD i = (d.reg f.addr).getLsbD i

/-- The registers that interrupts and monitor events change: a region's interrupt registers, and the monitor counters of a region, of a
block and of the part (R75, R76, R786–R805). -/
def signalReg (a : Nat) : Prop :=
  a < 2 ^ 47 ∧
    ((0x90000000000 ≤ a % 2 ^ 44 ∧ a % 2 ^ 44 < 0x90000100000)
      ∨ (0x90000900000 ≤ a % 2 ^ 44 ∧ a % 2 ^ 44 < 0x90000A00000)
      ∨ (0xF0000020000 ≤ a % 2 ^ 44 ∧ a % 2 ^ 44 < 0xF0000030000)
      ∨ (0x80000000000 ≤ a % 2 ^ 44 ∧ a % 2 ^ 44 < 0x90000000000 ∧ 0xF03000 ≤ a % 2 ^ 24 ∧ a % 2 ^ 24 < 0xF04000))

/-- Every register outside a list of addresses is as before, but for those that interrupts and monitor events change. -/
def Dev.RegsSig (l : List Nat) (d e : Dev) : Prop := d.RegsBut (fun a => a ∈ l ∨ signalReg a) e

/-- The two states differ at most by what interrupts and monitor events change: their registers, the contexts that they wake and the
interrupt messages that they send. -/
def Dev.Signalled (d e : Dev) : Prop := d.OnlyIn [.regs, .ctxs, .wire] e ∧ d.RegsBut signalReg e

/-- The part after one of its resets: the cause and what its end waits for are recorded; every region is in LOAD at tick 0 without traffic;
no message, packet, cell state, channel message or open register pair is left; and host memory and the fault journals are as they were. -/
def Dev.Restarted (cause phase : Nat) (d e : Dev) : Prop :=
  e.chip.cause = cause ∧ e.chip.phase = phase
    ∧ (∀ r, (e.g r).mode = .load ∧ (e.g r).tick = 0 ∧ (e.g r).requests = [] ∧ (e.g r).due = [] ∧ (e.g r).inbox = [])
    ∧ e.wire = [] ∧ e.packets = [] ∧ e.cells = [] ∧ e.blockCh = [] ∧ e.regionCh = [] ∧ e.pairs = []
    ∧ ∀ a, outsideReset a = true → e.byte a = d.byte a

/-- A command is carried out: it answers a next state whose queue is as it was, with one more command counted, that differs from the
state before in the listed parts at most, and whose part satisfies `P`. -/
def Carried (c : Instr) (s : State) (l : List Part) (P : Dev → Prop) : Prop :=
  ∃ t, exec c s = .next t ∧ t.pending = s.pending ∧ t.dev.free = s.dev.free + 1 ∧ s.dev.OnlyIn (.free :: l) t.dev ∧ P t.dev

/-! ### Mailbox answers -/

/-- The command with an opcode that a doorbell started stands on a pair, its relay has come, and the primary serves: the pair is BUSY (R750,
R762, R765, R782). -/
abbrev Dev.Waits (d : Dev) (ep : Endpoint) (n op : Nat) : Prop :=
  (d.mail ep n).opcode = op ∧ (d.mail ep n).wait ≠ .relay ∧ d.relaying ep n = false
    ∧ d.fld (RGN_MP_STAT_state d.A) = 0 ∧ d.mbState ep n = 2

/-- The response area of a pair shows a phase, a status and a detail for the pair's command, with a payload behind the header
(R756, R757). -/
def Dev.Shows (ep : Endpoint) (n phase status detail : Nat) (payload : List Byte) (d e : Dev) : Prop :=
  e.byte (mbResponse ep n) = (if d.framesV1 then 1 else 2) ∧ e.byte (mbResponse ep n + 1) = BitVec.ofNat 8 phase
    ∧ e.le (mbResponse ep n + 2) 2 = (d.mail ep n).opcode % 2 ^ 16
    ∧ e.le (mbResponse ep n + 8) 4 = min payload.length d.mbLargest
    ∧ e.le (mbResponse ep n + 12) 2 = status % 2 ^ 16 ∧ e.le (mbResponse ep n + 14) 2 = detail % 2 ^ 16
    ∧ ∀ i < min payload.length d.mbLargest,
        e.byte (mbResponse ep n + (if d.framesV1 then 64 else 32) + i) = payload.getD i 0

/-- The primary relays a response to the MP that serves the pair's endpoint: its bytes go out in messages of kind 2, behind what was sent
before, and the pair stands as it did (R750, R751). -/
def Dev.Relayed (ep : Endpoint) (n phase status detail : Nat) (payload : List Byte) (d e : Dev) : Prop :=
  ∃ sent elapsed, d.wire <+: sent ∧ e.wire = sent ++ (Dev.segments (d.responseOn ep n phase status detail payload elapsed)).map
    (fun b => ⟨d.A, (endpointRegion ep).val, .mgt (Dev.relayInfo 2 ep n) b⟩)

/-- A pair's command is over: where the primary serves the pair, the response shows it, and without v1 framing the next sequence number is
expected (R758); elsewhere the response is on its way, and the pair's command stands (R750). -/
def Dev.Answered (ep : Endpoint) (n phase status detail : Nat) (payload : List Byte) (d e : Dev) : Prop :=
  if d.servedHere ep then
    d.Shows ep n phase status detail payload e ∧ (e.mail ep n).opcode = 0
      ∧ (d.framesV1 = false → e.fld (HST_MB_SEQ_expected ep.val n)
          = if (d.mail ep n).seq = 2 ^ 32 - 1 then 1 else ((d.mail ep n).seq + 1) % 2 ^ 32)
  else d.Relayed ep n phase status detail payload e ∧ e.mail ep n = d.mail ep n

/-- The state of a pair behind a response: the one named where the primary serves the pair, else as before (R750, R782). -/
def Dev.Stands (ep : Endpoint) (n state : Nat) (d e : Dev) : Prop :=
  e.mbState ep n = if d.servedHere ep then state else d.mbState ep n

/-- A pair's command is answered and the pair is IDLE again, or the answer is on its way there (R750, R756–R758). -/
def Dev.Done (ep : Endpoint) (n status detail : Nat) (payload : List Byte) (d e : Dev) : Prop :=
  d.Answered ep n 2 status detail payload e ∧ d.Stands ep n 1 e

/-- A pair's command is acknowledged and waits (R756, R782). -/
def Dev.Acked (ep : Endpoint) (n : Nat) (w : MailWait) (d e : Dev) : Prop :=
  (if d.servedHere ep then d.Shows ep n 1 0 0 [] e else d.Relayed ep n 1 0 0 [] e) ∧ d.Stands ep n 3 e
    ∧ e.mail ep n = { d.mail ep n with wait := w }

/-- Nothing is on the wire that was not there but what relays a response (R750). -/
def Dev.Quiet (ep : Endpoint) (d e : Dev) : Prop :=
  if d.servedHere ep then e.wire = d.wire
  else ∃ l : List (List Byte), ∃ n, e.wire = d.wire ++ l.map (fun b => ⟨d.A, (endpointRegion ep).val, .mgt (Dev.relayInfo 2 ep n) b⟩)

/-- A job is open for a pair's command, under the next number, which the response gives (R766). -/
def Dev.JobOpened (ep : Endpoint) (n : Nat) (k : JobKind) (d e : Dev) : Prop :=
  d.Answered ep n 3 0 0 (bytesLE 4 d.thody.nextJob) e
    ∧ e.thody.jobs = d.thody.jobs ++ [⟨d.thody.nextJob, ep.val, n, (d.mail ep n).opcode, (d.mail ep n).seq, k, 0, 0, 0, [], 0⟩]
    ∧ e.thody.nextJob = if d.thody.nextJob = 2 ^ 32 - 1 then 1 else d.thody.nextJob + 1

/-! ### Contexts and instructions -/

/-- Every context but those of a list is as before. -/
def Dev.OtherCtx (l : List Nat) (d e : Dev) : Prop := ∀ j, j ∉ l → e.ctx j = d.ctx j

/-- Every worker context but those of a list is as before; an interrupt may reach a supervisor context at any time (R399). -/
def Dev.OtherWorkers (l : List Nat) (d e : Dev) : Prop := ∀ j, j ∉ l → j % 32 ≠ 16 → e.ctx j = d.ctx j

/-- No cell has another slot table, and no cell but that of context `k` another cache line. -/
def Dev.OtherCells (k : Nat) (d e : Dev) : Prop := ∀ c, (e.cell c).slots = (d.cell c).slots ∧ (c ≠ k / 32 → e.cell c = d.cell c)

/-- The bits that a context fetches at its pc, where the fetch meets no fault (R362, R413). -/
def Dev.fetched (d : Dev) (k : Nat) : Option Nat :=
  match d.fetch k with
  | .bits _ x _ => some x
  | .fault _ _ _ => none

/-- The instruction that a word spells. -/
abbrev insnOf (w : Word) : Insn := decodeInsn w.toNat

/-- The length in bytes of the instruction that a word spells, as a word (R357). -/
abbrev lenOf (w : Word) : Word := if w.toNat % 4 = 3 then 4 else 2

/-- The word that context `u` issues: its cell and block run, the context is RUNNING, it fetches the word at its pc, and no register that
the instruction names waits for a response (R357, R362, R387, R392, R411). -/
abbrev Dev.Issues (d : Dev) (u : CtxId) (w : Word) : Prop :=
  d.ctxRuns (Dev.ctxNo u) = true ∧ (d.ctx (Dev.ctxNo u)).mode = .running ∧ (d.ctx (Dev.ctxNo u)).mutRd = none
    ∧ d.blockState u.region.val u.block.val = 0 ∧ d.fetched (Dev.ctxNo u) = some w.toNat
    ∧ ∀ n ∈ [(insnOf w).rd, (insnOf w).rs1, (insnOf w).rs2, (insnOf w).rs3], n = 0 ∨ n ∉ (d.ctx (Dev.ctxNo u)).awaits

/-- The integer registers of a context are as before, but for `rd`, which holds `v`; x0 stays zero (R357). -/
def Dev.Sets (k rd : Nat) (v : Word) (d e : Dev) : Prop := ∀ j, e.xreg k j = if j = rd ∧ rd ≠ 0 then v else d.xreg k j

/-- An instruction of context `k` retires and the context goes on at `pc`; a supervisor context may already be in its interrupt handler,
which returns there (R357, R361, R399). -/
def Dev.GoesTo (k : Nat) (pc : Word) (d e : Dev) : Prop :=
  ((e.ctx k).pc = pc ∨ k % 32 = 16 ∧ (e.ctx k).mepc = pc) ∧ (e.ctx k).instret = ((d.ctx k).instret + 1) % 2 ^ 64

/-- An instruction of context `k` writes `v` to `rd` and retires, and the context goes on at `pc`; every other worker context, and every
register that neither a list nor interrupts and monitors name, is as before. -/
def Dev.Retires (k rd : Nat) (v pc : Word) (l : List Nat) (d e : Dev) : Prop :=
  Dev.Sets k rd v d e ∧ Dev.GoesTo k pc d e ∧ d.OtherWorkers [k] e ∧ Dev.OtherCells k d e ∧ d.RegsSig l e

/-- Context `k` takes an exception at its pc: a worker is FAULTED with the cause and the value, and its bit of CEL_FAULT_PEND is set; the
supervisor context is in its own handler (R360, R403, R404, R421). -/
def Dev.Excepts (k cause : Nat) (tval : Word) (l : List Nat) (d e : Dev) : Prop :=
  e.ctx k = (if k % 32 = 16 then
      { d.ctx k with mepc := (d.ctx k).pc, mcause := BitVec.ofNat 32 cause, mtval := tval, mpie := (d.ctx k).mie, mie := false,
                     pc := (d.ctx k).mtvec &&& ~~~3#32, mode := .running }
    else { d.ctx k with mode := .faulted, faultValid := true, faultCause := cause, tval := tval, waitMask := 0, waitRd := 0 })
    ∧ (k % 32 ≠ 16 → bitOf (e.faultPend (k / 32)) (k % 32) = true)
    ∧ d.OtherWorkers [k] e ∧ Dev.OtherCells k d e ∧ d.RegsSig (CEL_FAULT_PEND (k / 32) :: l) e

/-- The command of a coprocessor function code (R471). -/
def cpCommand (u : CtxId) (w : Word) : Nat → Option Instr
  | 0x00 => some (.cpClear u w)
  | 0x01 => some (.gcmKeyw u w)
  | 0x02 => some (.gcmIvw u w)
  | 0x03 => some (.gcmInit u w)
  | 0x04 => some (.gcmAad u w)
  | 0x05 => some (.gcmEnc u w)
  | 0x06 => some (.gcmDec u w)
  | 0x07 => some (.gcmTag u w)
  | 0x10 => some (.shaInit u w)
  | 0x11 => some (.shaData u w)
  | 0x12 => some (.shaFinal u w)
  | 0x13 => some (.shaDigest u w)
  | 0x20 => some (.crc32cInit u w)
  | 0x21 => some (.crc32cData u w)
  | 0x22 => some (.crc64Init u w)
  | 0x23 => some (.crc64Data u w)
  | 0x24 => some (.crc64Hi u w)
  | 0x30 => some (.csumInit u w)
  | 0x31 => some (.csumData u w)
  | 0x40 => some (.tpzInit u w)
  | 0x41 => some (.tpzData u w)
  | 0x50 => some (.idxInit u w)
  | 0x51 => some (.idxData u w)
  | 0x52 => some (.idxResult u w)
  | _ => none

/-- What an answer of the coprocessor makes of a context: its new state and rd, or zero in rd with the error noted and the state as it was
(R473). -/
def Dev.Computes (k rd : Nat) (a : Copro.Answer) (d e : Dev) : Prop :=
  match a with
  | .ok (q, v) => (e.ctx k).copro = q ∧ (e.ctx k).cpxErr = (d.ctx k).cpxErr ∧ Dev.Sets k rd (BitVec.ofNat 32 v) d e
  | .error c => (e.ctx k).copro = (d.ctx k).copro ∧ (e.ctx k).cpxErr = some c ∧ Dev.Sets k rd 0 d e

end Sys2Proof.Machine
end

