-- ==== Sys2Proof/Certificates/Slice0/Obligations.lean ====
section
/-!
DEFINITION. What is claimed of the part: how a step takes a command, what reset leaves, what each command does and leaves alone, and what
every command keeps.
-/

open Sys2Proof Sys2Proof.Machine

/-! ### The queue and reset -/

/-- For every command c, queue rest and state s whose queue is c followed by rest, step s is exec c on s with the queue rest. That
commands wait in a queue is the model's choice (assumption log, entries 2 and 3). -/
def Obligations.StepRunsTheFrontCommand : Prop :=
  ∀ (c : Instr) (rest : List Instr) (s : State), s.pending = c :: rest → step s = exec c { s with pending := rest }

/-- A step on a state with an empty queue answers that state. This is the model's choice (assumption log, entry 1): every event that time
brings is a command. -/
def Obligations.StepIdlesOnAnEmptyQueue : Prop :=
  ∀ s : State, s.pending = [] → step s = .next s

/-- The state after reset has no command waiting; every region is in LOAD at tick 0 with no request, packet, table record or link message
of its own; the loader is in RESET; every byte of memory reads zero and no line is poisoned; every register reads the reset value of
its table; no context has left its reset state. -/
def Obligations.ResetLeavesThePartInLoad : Prop :=
  State.reset.pending = []
  ∧ (∀ r : Region, (State.reset.dev.g r).mode = Mode.load ∧ (State.reset.dev.g r).tick = 0 ∧ (State.reset.dev.g r).requests = []
      ∧ (State.reset.dev.g r).due = [] ∧ (State.reset.dev.g r).inbox = [])
  ∧ State.reset.dev.loader = 0
  ∧ (∀ a, State.reset.dev.byte a = 0 ∧ State.reset.dev.poisoned a = false)
  ∧ (∀ a, State.reset.dev.reg a = regDefault a)
  ∧ (∀ k, State.reset.dev.ctx k = Dev.ctxDefault k)
  ∧ State.reset.dev.wire = [] ∧ State.reset.dev.packets = [] ∧ State.reset.dev.chip.cause = 1

/-- The memory, the poison marks, the registers, the contexts and the cells of the state after reset are in canonical form: keys rise
strictly and no entry equals what an unlisted key reads as. -/
def Obligations.ResetIsCanonical : Prop :=
  State.reset.dev.Canonical

/-- For every state whose sparse stores are in canonical form, every step that answers a next state leaves them in canonical form: keys
rise strictly, no key is listed twice, and no entry equals what an unlisted key reads as, so that equal memories and register files
are equal data. -/
def Obligations.EveryStepKeepsTheCanonicalForms : Prop :=
  ∀ s t : State, s.dev.Canonical → step s = .next t → t.dev.Canonical

/-- Where a command waits, a step that answers a next state leaves the queue's rest as the queue, whatever the command does, and counts
one more command; the count is the model's own and only tells free values apart (assumption log, entry 5). -/
def Obligations.EveryStepTakesOneCommand : Prop :=
  ∀ (c : Instr) (rest : List Instr) (s t : State), s.pending = c :: rest → step s = .next t →
    t.pending = rest ∧ t.dev.free = s.dev.free + 1

/-- If a command faults, it is HBM_REQUEST with a range that ends beyond byte 0x00540000000 of its stack, or HBM_SCRUB with an address at
or beyond it; every other command answers a next state or is refused because its event cannot occur. -/
def Obligations.OnlyAccessesBeyondTheStackFault : Prop :=
  ∀ (c : Instr) (s : State) (f : Fault), exec c s = .fault f →
    (∃ r port write addr len data hint first last waits found latency,
        c = .hbmRequest r port write addr len data hint first last waits found latency
          ∧ 0x00540000000 < addr + (if write then data.length else len))
      ∨ ∃ r addr found, c = .hbmScrub r addr found ∧ 0x00540000000 ≤ addr

/-- For every command and every state, a refusal is one of three: the unit or packet is not at the point where the event happens, the
context does not fetch that instruction, or the context or mailbox cannot act now (assumption log, entry 8). No command is refused
because it is not modelled. -/
def Obligations.EveryRefusalNamesAnAbsentEvent : Prop :=
  ∀ (c : Instr) (s : State) (e : Refusal), exec c s = .refused e →
    e = .noSuchUnit ∨ e = .otherInstruction ∨ e = .stalled

/-! ### Resets and bring-up -/

/-- POWER_ON_RESET, VIN_BROWNOUT and SYS_RST_N (outside a power-on in progress) restart the part with causes 1, 1 and 2; a write of
CHP_RST_CTL with key 0xA2 restarts it with cause 3 (cold) or 4 (warm). After each, every region is in LOAD at tick 0 with no traffic,
and host memory and the journals are as before; a warm reset keeps every byte of HBM, every other reset leaves HBM zero. With any key
but 0xA2, a cold or a warm request sets CHP_MODE_ERR.rst_key_err and changes no other field of that register, no other register and
nothing else of the part. -/
def Obligations.ResetsOfThePartRestartIt : Prop :=
  (∀ (rail : Option (Fin 10)) (s : State), ∃ t, exec (.powerOnReset rail) s = .next t ∧ t.pending = s.pending
      ∧ s.dev.Restarted 1 (if rail.isSome then 3 else 2) t.dev
      ∧ (∀ a, inHbm a = true → t.dev.byte a = 0)
      ∧ (∀ r < 8, t.dev.fld (CHP_RAIL_STAT_good r) = match rail with | some k => 2 ^ k.val - 1 | none => 0x3FF))
  ∧ (∀ s : State, ∃ t, exec .vinBrownout s = .next t ∧ t.pending = s.pending ∧ s.dev.Restarted 1 3 t.dev
      ∧ ∀ a, inHbm a = true → t.dev.byte a = 0)
  ∧ (∀ s : State, ¬ (s.dev.chip.cause = 1 ∧ s.dev.chip.phase ≠ 0) →
      ∃ t, exec .sysRstN s = .next t ∧ t.pending = s.pending ∧ s.dev.Restarted 2 1 t.dev ∧ ∀ a, inHbm a = true → t.dev.byte a = 0)
  ∧ (∀ s : State, ∃ t, exec (.rstCtlCold 0xA2) s = .next t ∧ t.pending = s.pending ∧ s.dev.Restarted 3 2 t.dev
      ∧ ∀ a, inHbm a = true → t.dev.byte a = 0)
  ∧ (∀ s : State, ∃ t, exec (.rstCtlWarm 0xA2) s = .next t ∧ t.pending = s.pending ∧ s.dev.Restarted 4 2 t.dev
      ∧ ∀ a, inHbm a = true → t.dev.byte a = s.dev.byte a)
  ∧ (∀ (key : Fin 256) (s : State), key ≠ 0xA2 → ∀ c ∈ [Instr.rstCtlCold key, Instr.rstCtlWarm key],
    Carried c s [.regs] (fun e => e.fld (CHP_MODE_ERR_rst_key_err e.A) = 1
      ∧ e.reg (CHP_MODE_ERR_rst_key_err e.A).addr
          = withField (s.dev.reg (CHP_MODE_ERR_rst_key_err s.dev.A).addr) (CHP_MODE_ERR_rst_key_err 0).lo (CHP_MODE_ERR_rst_key_err 0).width 1
      ∧ s.dev.RegsBut (fun a => a = (CHP_MODE_ERR_rst_key_err s.dev.A).addr) e))

/-! ### Compatibility, the tick period, PTP time and modes -/

/-- COMPAT_WRITE while the effective mode is LOAD leaves CHP_COMPAT.a1 at bit 0 of the value, and the mailbox framing that it selects in
both endpoints (R754) with it; at any other time it sets CHP_ID_ERR.compat_rejected. No other register and nothing else of the part
changes. -/
def Obligations.CompatIsWrittenInLoadAlone : Prop :=
  (∀ (value : Word) (s : State), s.dev.mode = .load → Carried (.compatWrite value) s [.regs] (fun e => s.dev.Wrote (CHP_COMPAT_a1 s.dev.A) (value.toNat % 2) e ∧ s.dev.RegsIn [CHP_COMPAT s.dev.A, HST_MB_FRAME 0, HST_MB_FRAME 1] e))
  ∧ (∀ (value : Word) (s : State), s.dev.mode ≠ .load → Carried (.compatWrite value) s [.regs] (fun e => s.dev.Wrote (CHP_ID_ERR_compat_rejected s.dev.A) 1 e ∧ s.dev.RegsIn [CHP_ID_ERR s.dev.A] e))

/-- MODE_REQ with req 1 and at_en 0: in TEST with no change pending, a request for CONFIGURE is accepted and named for the second shutter
from now, and CHP_MODE_STAT shows it pending; in every mode a request for LOAD is rejected with cause 0x1 and detail zero, sets
mode_rejected, and leaves any pending change as it was. CHP_MODE_ERR changes in an accepted request only where its LEAN setting is not
1–16. The effective mode, every region's mode and every register but CHP_MODE_REQ, CHP_MODE_STAT, CHP_MODE_ERR, those of a swap that
the change cancels and those of interrupts and monitors are as before. -/
def Obligations.ModeRequestsByRegister : Prop :=
  (∀ (value : Word) (s : State), bitOf value.toNat 31 = true → bitOf value.toNat 30 = false → value.toNat % 8 = 1 → s.dev.mode = .test → s.dev.anchorSt.modeChange = none → Carried (.modeReq value) s [.regs, .wire, .ctxs, .anchorSt] (fun e => e.anchorSt.modeChange = some ⟨.configure, (s.dev.tick + 2) % 2 ^ 48, bitsOf value.toNat 20 16⟩
        ∧ e.on (CHP_MODE_STAT_pending s.dev.A) = true ∧ e.fld (CHP_MODE_STAT_pending_target s.dev.A) = 1 ∧ e.mode = .test
        ∧ (Dev.leanOk value.toNat = true → e.reg (CHP_MODE_ERR s.dev.A) = s.dev.reg (CHP_MODE_ERR s.dev.A))
        ∧ s.dev.RegsSig [CHP_MODE_REQ s.dev.A, CHP_MODE_STAT s.dev.A, CHP_MODE_ERR s.dev.A, CHP_PANE_STAT s.dev.A, CHP_COMMIT_ERR s.dev.A] e))
  ∧ (∀ (value : Word) (s : State), bitOf value.toNat 31 = true → value.toNat % 8 = 0 → Carried (.modeReq value) s [.regs, .wire, .ctxs, .anchorSt] (fun e => e.fld (CHP_MODE_STAT_reject_cause s.dev.A) = 1 ∧ e.fld (CHP_MODE_STAT_detail s.dev.A) = 0 ∧ e.on (CHP_MODE_ERR_mode_rejected s.dev.A) = true
        ∧ e.anchorSt = s.dev.anchorSt ∧ e.mode = s.dev.mode
        ∧ s.dev.RegsSig [CHP_MODE_REQ s.dev.A, CHP_MODE_STAT s.dev.A, CHP_MODE_ERR s.dev.A] e))

/-- PERIOD_WRITE takes pps_edge and ptp_lock at any time; without ptp_lock the part is neither locked nor locking. In CONFIGURE the period
waits for the next shutter, and the period in force stands; at any other time it is rejected with period_rejected, and no period is
due that was not due before. No register but CHP_SHUTTER_CTL, CHP_SHUTTER_STAT and CHP_COMMIT_ERR changes. -/
def Obligations.ShutterControlIsWritten : Prop :=
  ∀ (value : Word) (s : State), Carried (.periodWrite value) s [.regs, .anchorSt] (fun e => e.fld (CHP_SHUTTER_CTL_pps_edge s.dev.A) = bitsOf value.toNat 5 5 ∧ e.fld (CHP_SHUTTER_CTL_ptp_lock s.dev.A) = bitsOf value.toNat 4 4
        ∧ e.fld (CHP_SHUTTER_CTL_period s.dev.A) = s.dev.fld (CHP_SHUTTER_CTL_period s.dev.A)
        ∧ (bitOf value.toNat 4 = false → e.on (CHP_SHUTTER_STAT_locked s.dev.A) = false ∧ e.on (CHP_SHUTTER_STAT_locking s.dev.A) = false)
        ∧ (s.dev.mode = .configure → e.anchorSt.periodDue = some (value.toNat % 4)
            ∧ s.dev.RegsIn [CHP_SHUTTER_CTL s.dev.A, CHP_SHUTTER_STAT s.dev.A] e)
        ∧ (s.dev.mode ≠ .configure → e.anchorSt.periodDue = s.dev.anchorSt.periodDue ∧ e.on (CHP_COMMIT_ERR_period_rejected s.dev.A) = true
            ∧ s.dev.RegsIn [CHP_SHUTTER_CTL s.dev.A, CHP_SHUTTER_STAT s.dev.A, CHP_COMMIT_ERR s.dev.A] e))

/-- PTP_CTL_LOAD with a base tick 2 or more ticks ahead (and less than 2^47) leaves the load due at that shutter, and otherwise sets
load_rejected; PTP_ADJ_WRITE makes the signed number of ns the outstanding move, in place of an earlier one; PTP_FREQ_WRITE takes a
rate within ±50,000 and rejects any other. Nothing else changes. -/
def Obligations.PtpTimeIsLoadedAndMoved : Prop :=
  (∀ (s : State), 2 ≤ Dev.ticksAhead (s.dev.pair (CHP_PTP_BASE_LO s.dev.A) (CHP_PTP_BASE_HI s.dev.A) % 2 ^ 48) s.dev.tick → Dev.ticksAhead (s.dev.pair (CHP_PTP_BASE_LO s.dev.A) (CHP_PTP_BASE_HI s.dev.A) % 2 ^ 48) s.dev.tick < 2 ^ 47 → Carried (.ptpCtlLoad) s [.regs, .anchorSt] (fun e => e.anchorSt = { s.dev.anchorSt with ptpDue := some (s.dev.pair (CHP_PTP_BASE_LO s.dev.A) (CHP_PTP_BASE_HI s.dev.A) % 2 ^ 48,
            s.dev.pair (CHP_PTP_SEC_LO s.dev.A) (CHP_PTP_SEC_HI s.dev.A) % 2 ^ 48, s.dev.fld (CHP_PTP_NS_ns s.dev.A)) }
        ∧ ∀ a, e.reg a = s.dev.reg a))
  ∧ (∀ (s : State), Dev.ticksAhead (s.dev.pair (CHP_PTP_BASE_LO s.dev.A) (CHP_PTP_BASE_HI s.dev.A) % 2 ^ 48) s.dev.tick < 2 → Carried (.ptpCtlLoad) s [.regs, .anchorSt] (fun e => e.anchorSt = s.dev.anchorSt ∧ s.dev.Wrote (CHP_PTP_CTL_load_rejected s.dev.A) 1 e ∧ s.dev.RegsIn [CHP_PTP_CTL s.dev.A] e))
  ∧ (∀ (value : Word) (s : State), Carried (.ptpAdjWrite value) s [.anchorSt] (fun e => e.anchorSt = { s.dev.anchorSt with move := value.toInt * 1000 }))
  ∧ (∀ (value : Word) (s : State), value.toInt.natAbs ≤ 50000 → Carried (.ptpFreqWrite value) s [.regs] (fun e => e.reg (CHP_PTP_FREQ s.dev.A) = value ∧ s.dev.RegsIn [CHP_PTP_FREQ s.dev.A] e))
  ∧ (∀ (value : Word) (s : State), 50000 < value.toInt.natAbs → Carried (.ptpFreqWrite value) s [.regs] (fun e => s.dev.Wrote (CHP_COMMIT_ERR_cfg_rejected s.dev.A) 1 e ∧ s.dev.RegsIn [CHP_COMMIT_ERR s.dev.A] e))

/-- PPS_EDGE: an edge outside 1 s ± 1 µs of the last valid one, 10^12 ± 10^6 ps, changes nothing; a valid one at or after its shutter,
while ptp_lock and locked are 1, leaves in CHP_PPS_TICK_LO and _HI the tick of that shutter, which becomes the base tick, with base
nanoseconds zero. PPS_LOCK_LOST while locked clears locked, sets lock_lost, and forgets the edge that was followed. -/
def Obligations.PpsEdgesAndTheirLoss : Prop :=
  (∀ (gap : Nat) (phase : Int) (s : State), s.dev.anchorSt.ppsSeen = true → (gap + 10 ^ 6 < 10 ^ 12 ∨ 10 ^ 12 + 10 ^ 6 < gap) → Carried (.ppsEdge gap phase) s [] (fun e => True))
  ∧ (∀ (gap : Nat) (phase : Int) (s : State), (s.dev.anchorSt.ppsSeen = false ∨ (10 ^ 12 ≤ gap + 10 ^ 6 ∧ gap ≤ 10 ^ 12 + 10 ^ 6)) → 0 ≤ phase → s.dev.on (CHP_SHUTTER_CTL_ptp_lock s.dev.A) = true → s.dev.on (CHP_SHUTTER_STAT_locked s.dev.A) = true → Carried (.ppsEdge gap phase) s [.regs, .wire, .ctxs, .anchorSt] (fun e => e.reg (CHP_PPS_TICK_LO s.dev.A) = BitVec.ofNat 32 s.dev.tick ∧ e.reg (CHP_PPS_TICK_HI s.dev.A) = BitVec.ofNat 32 (s.dev.tick / 2 ^ 32)
        ∧ e.anchorSt.ptpBase.1 = s.dev.tick % 2 ^ 48 ∧ e.anchorSt.ptpBase.2.2 = 0 ∧ e.anchorSt.ppsSeen = true
        ∧ e.on (CHP_SHUTTER_STAT_locked s.dev.A) = true))
  ∧ (∀ (s : State), s.dev.on (CHP_SHUTTER_STAT_locked s.dev.A) = true → Carried (.ppsLockLost) s [.regs, .wire, .ctxs, .anchorSt] (fun e => e.on (CHP_SHUTTER_STAT_locked s.dev.A) = false ∧ e.on (CHP_SHUTTER_STAT_locking s.dev.A) = false ∧ e.on (CHP_SHUTTER_STAT_lock_lost s.dev.A) = true
        ∧ e.anchorSt = { s.dev.anchorSt with ppsSeen := false, phase := 0 } ∧ s.dev.RegsSig [CHP_SHUTTER_STAT s.dev.A] e))

/-- PORT_ENABLE_WRITE disabling a port always leaves enable 0; enabling it leaves enable 1 where no other enabled port has a lane in
common with its lanes, and otherwise leaves the request as it was and sets cfg_rejected. The registers changed are the port's own, or
the error register and those of interrupts and monitors; the effective state of every unit stands until the next shutter. -/
def Obligations.PortsTakeTheirRequestedState : Prop :=
  (∀ (r : Region) (p : Port) (s : State), Carried (.portEnableWrite r p false) s [.regs, .thody, .ledger] (fun e => s.dev.Wrote (RGN_PORT_CFG_enable r.val p.val) 0 e ∧ s.dev.RegsIn [RGN_PORT_CFG r.val p.val] e))
  ∧ (∀ (r : Region) (p : Port) (s : State), (∀ q < 8, q ≠ p.val → s.dev.on (RGN_PORT_CFG_enable r.val q) = true → p.val + s.dev.fld (RGN_PORT_CFG_lanes r.val p.val) ≤ q ∨ q + s.dev.fld (RGN_PORT_CFG_lanes r.val q) ≤ p.val) → Carried (.portEnableWrite r p true) s [.regs, .thody, .ledger] (fun e => s.dev.Wrote (RGN_PORT_CFG_enable r.val p.val) 1 e ∧ s.dev.RegsIn [RGN_PORT_CFG r.val p.val] e
        ∧ ∀ k i, (e.unit r k i).effective = (s.dev.unit r k i).effective))
  ∧ (∀ (r : Region) (p : Port) (q : Nat) (s : State), q < 8 → q ≠ p.val → s.dev.on (RGN_PORT_CFG_enable r.val q) = true → q < p.val + s.dev.fld (RGN_PORT_CFG_lanes r.val p.val) → p.val < q + s.dev.fld (RGN_PORT_CFG_lanes r.val q) → Carried (.portEnableWrite r p true) s [.regs, .wire, .ctxs] (fun e => e.on (RGN_PORT_ERR_cfg_rejected r.val) = true ∧ s.dev.RegsSig [RGN_PORT_ERR r.val] e))

/-! ### Bring-up, life cycle and sensors -/

/-- SYS_RST_N_RELEASE while the signal is held starts the interval; RESET_RELEASE at its end leaves the loader in FUSE, writes the cause,
takes the straps after a power-on alone, and takes CHP_COMPAT.a1 from the strap; FUSE_LOAD_DONE in FUSE makes the position that
ANCHOR_SEL names the anchor, where a Mladus die lies there, and leaves the loader in WAIT_IMAGE, or in FAILED where the load failed. -/
def Obligations.ResetEndsAndFusesLoad : Prop :=
  (∀ (s : State), s.dev.chip.phase = 1 → Carried (.sysRstNRelease) s [.chip] (fun e => e.chip = { s.dev.chip with phase := 2 } ∧ ∀ a, e.reg a = s.dev.reg a))
  ∧ (∀ (straps : Word) (s : State), s.dev.chip.phase = 2 → Carried (.resetRelease straps) s [.regs, .chip, .journal] (fun e => e.chip = { s.dev.chip with phase := 0 } ∧ e.loader = 1 ∧ e.fld (CHP_RST_CAUSE_cause s.dev.A) = s.dev.chip.cause % 16
        ∧ e.reg (CHP_STRAPS s.dev.A) = (if s.dev.chip.cause = 1 then straps &&& 0x777#32 else s.dev.reg (CHP_STRAPS s.dev.A))
        ∧ e.fld (CHP_COMPAT_a1 s.dev.A) = e.fld (CHP_STRAPS_compat_a1 s.dev.A)))
  ∧ (∀ (s : State), s.dev.chip.phase = 0 → s.dev.loader = 1 → s.dev.mladus (s.dev.fld (CHP_STRAPS_anchor_sel 0)) = true → Carried (.fuseLoadDone false) s [.anchor, .regs, .mem, .chip, .commit] (fun e => e.anchor.val = s.dev.fld (CHP_STRAPS_anchor_sel 0) ∧ e.loader = 2
        ∧ ∀ r < 8, e.fld (CHP_SHUTTER_STAT_anchor r) = s.dev.fld (CHP_STRAPS_anchor_sel 0)))
  ∧ (∀ (s : State), s.dev.chip.phase = 0 → s.dev.loader = 1 → Carried (.fuseLoadDone true) s [.regs] (fun e => e.loader = 0xF ∧ e.chip = s.dev.chip))

/-- LDR_START and START begin authentication in WAIT_IMAGE or REJECTED from the source that BOOT_SRC selects, and are ignored from the
other; READ_ID and READ_STATUS answer CHP_ID and the loader's state; WRITE and READ through an open SPI port write and read bytes of
the image space, a write within its 256-byte page alone. -/
def Obligations.TheLoaderTakesItsImage : Prop :=
  (∀ (ep : Endpoint) (s : State), s.dev.present (Dev.epPos ep) = true → s.dev.on (CHP_STRAPS_boot_src s.dev.A) = false → (s.dev.loader = 2 ∨ s.dev.loader = 0xE) → Carried (.ldrStart ep) s [.regs] (fun e => e.loader = 3 ∧ e.fld (HST_LDR_STAT_reject 0) = 0 ∧ e.fld (HST_LDR_STAT_reject 1) = 0))
  ∧ (∀ (ep : Endpoint) (s : State), s.dev.on (CHP_STRAPS_boot_src s.dev.A) = true → Carried (.ldrStart ep) s [] (fun e => True))
  ∧ (∀ (s : State), s.dev.mode = .load → s.dev.on (CHP_STRAPS_boot_src s.dev.A) = true → s.dev.lifeCycle ≠ 5 → (s.dev.loader = 2 ∨ s.dev.loader = 0xE) → Carried (.start) s [.regs] (fun e => e.loader = 3))
  ∧ (∀ (s : State), s.dev.on (CHP_STRAPS_boot_src s.dev.A) = false → Carried (.start) s [] (fun e => True))
  ∧ (∀ (s : State), Carried (.readId) s [.line] (fun e => e.line = s.dev.line ++ [.spi (bytesBE 4 (s.dev.reg (CHP_ID s.dev.A)).toNat)]))
  ∧ (∀ (s : State), s.dev.loader = 3 → Carried (.readStatus) s [.line] (fun e => e.line = s.dev.line ++ [.spi [0x31]]))
  ∧ (∀ (s : State), s.dev.loader = 0xE → Carried (.readStatus) s [.line] (fun e => e.line = s.dev.line ++ [.spi [0xE4]]))
  ∧ (∀ (addr : Nat) (data : List Byte) (s : State), s.dev.spiLoads = true → s.dev.imageOpen = true → addr < 0x2000000 → Carried (.write addr data) s [.mem] (fun e => ∀ a, e.byte a = if s.dev.imageAddr addr ≤ a ∧ a < s.dev.imageAddr addr + min data.length (256 - addr % 256)
        then data.getD (a - s.dev.imageAddr addr) 0 else s.dev.byte a))
  ∧ (∀ (addr len : Nat) (s : State), s.dev.spiLoads = true → addr + len ≤ 0x2000000 → Carried (.read addr len) s [.line] (fun e => e.line = s.dev.line ++ [.spi (s.dev.bytes (s.dev.imageAddr addr) len)]))

/-- AUTH_COMPLETE in AUTH leaves the loader in MP_START, with the image's release as the running one, where the checks of R819 and R820
find no cause, and otherwise in REJECTED with the cause recorded; a wrong magic is cause 1 (unless the part is RETIRED).
LOADER_HANDOVER with every region sound leaves the loader in HANDED_OVER and every region in CONFIGURE; an anchor that failed leaves
it in FAILED. LC_ADVANCE_DONE leaves the new state in CHP_LC_STAT and no advance under way. -/
def Obligations.TheImageIsAuthenticatedAndHandedOver : Prop :=
  (∀ (s : State), s.dev.loader = 3 → Carried (.authComplete) s [.regs, .thody] (fun e => (s.dev.imageCheck (s.dev.imageAddr 0) false = 0 → e.loader = 4 ∧ e.thody.release = BitVec.ofNat 32 (s.dev.le (s.dev.imageAddr 0 + 8) 4))
        ∧ (s.dev.chip.imageState ≠ 5 → s.dev.le (s.dev.imageAddr 0) 4 ≠ 0x59444854 →
            e.loader = 0xE ∧ e.fld (HST_LDR_STAT_reject 0) = 1 ∧ e.fld (HST_LDR_STAT_reject 1) = 1)))
  ∧ (∀ (bootMs : Nat) (s : State), (s.dev.loader = 4 ∨ s.dev.loader = 5) → Carried (.loaderHandover 0 0 bootMs) s [.regs, .mem, .line, .endpoints, .journal, .mode] (fun e => e.loader = 6 ∧ e.mode = .configure ∧ (∀ r, (e.g r).mode = .configure) ∧ e.fld (CHP_BOOT_STAT_boot_ms s.dev.A) = min 0xFFFF bootMs))
  ∧ (∀ (bist training bootMs : Nat) (s : State), (s.dev.loader = 4 ∨ s.dev.loader = 5) → bitOf bist s.dev.A = true → Carried (.loaderHandover bist training bootMs) s [.regs] (fun e => e.loader = 0xF ∧ e.mode = s.dev.mode))
  ∧ (∀ (v : Nat) (s : State), s.dev.chip.advance = some v → v < 5 → Carried (.lcAdvanceDone) s [.regs, .mem, .wire, .line, .ctxs, .endpoints, .chip, .thody, .journal] (fun e => e.fld (CHP_LC_STAT_state s.dev.A) = v ∧ e.chip = { s.dev.chip with advance := none }))

/-- TAMPER_SENSE by a sensor without a reset sets fault_n and starts the wipe of every block's secure partition in every Mladus region; by
one with its reset bit, the part resets with cause 5. THERM_SAMPLE with every region at one temperature inside the grade's range shows
it; at 15 °C above the grade's top the part resets as at a power-on and stays held (phase 3). SUPPLY_SAMPLE shows voltage, current and
power, and the peak never falls. -/
def Obligations.SensorsAreSampled : Prop :=
  (∀ (r : Region) (sensors : Fin 16) (s : State), s.dev.mladus r.val = true → sensors.val ≠ 0 → s.dev.chip.phase = 0 → sensors.val &&& s.dev.fld (CHP_TAMPER_CTL_reset s.dev.A) = 0 → Carried (.tamperSense r sensors) s [.regs, .mem, .poison, .wire, .line, .ctxs, .endpoints, .journal, .wipes] (fun e => e.on (CHP_FAULT_CTL_fault_n s.dev.A) = true ∧ e.chip = s.dev.chip
        ∧ ∀ q ∈ s.dev.mladusRegions, ∀ b < 16, e.on (BLK_SEC_STAT_wiping q.val b) = true))
  ∧ (∀ (r : Region) (sensors : Fin 16) (s : State), s.dev.mladus r.val = true → s.dev.chip.phase = 0 → sensors.val &&& s.dev.fld (CHP_TAMPER_CTL_reset s.dev.A) ≠ 0 → ∃ t, exec (.tamperSense r sensors) s = .next t ∧ t.pending = s.pending ∧ t.dev.chip.cause = 5 ∧ t.dev.chip.phase = 2 ∧ t.dev.loader = 0)
  ∧ (∀ (temps : List Int) (t : Int) (s : State), s.dev.chip.phase = 0 → (∀ r : Region, temps.getD r.val 0 = t) → s.dev.mladusRegions ≠ [] → s.dev.gradeBottom ≤ t → t < s.dev.gradeTop → Carried (.thermSample temps) s [.regs, .wire, .ctxs, .chip] (fun e => e.fld (CHP_THERM_STAT_temp s.dev.A) = Dev.bits16 t ∧ (∀ q ∈ s.dev.mladusRegions, e.fld (RGN_TEMP_temp q.val) = Dev.bits16 t) ∧ e.chip.phase = 0))
  ∧ (∀ (temps : List Int) (t : Int) (s : State), s.dev.chip.phase = 0 → (∀ r : Region, temps.getD r.val 0 = t) → s.dev.mladusRegions ≠ [] → s.dev.gradeTop + 120 ≤ t → ∃ u, exec (.thermSample temps) s = .next u ∧ u.pending = s.pending ∧ u.dev.chip.cause = 1 ∧ u.dev.chip.phase = 3 ∧ u.dev.loader = 0)
  ∧ (∀ (vin current power : Nat) (low : Bool) (s : State), Carried (.supplySample vin current power low) s [.regs] (fun e => e.fld (CHP_VIN_STAT_vin s.dev.A) = min 0xFFFF vin ∧ e.fld (CHP_VIN_STAT_i_vin s.dev.A) = min 0xFFFF current
        ∧ e.fld (CHP_PWR_STAT_power s.dev.A) = min 0xFFFF power ∧ e.fld (CHP_PWR_STAT_peak s.dev.A) = max (s.dev.fld (CHP_PWR_STAT_peak s.dev.A)) (min 0xFFFF power)
        ∧ (low = true → e.on (CHP_SUPPLY_ERR_vin_low s.dev.A) = true)
        ∧ s.dev.RegsIn [CHP_VIN_STAT s.dev.A, CHP_PWR_STAT s.dev.A, CHP_SUPPLY_ERR s.dev.A] e))

/-! ### Panes -/

/-- CLS_DIV_WRITE with trans_units outside 1–8, rule_units above 93, aset_units outside 1–16, tmpl_units above 32, or 1 plus their sum
above 96 sets div_rejected and records cause 0x4 in RGN_CLS_REJ, in every state; no division waits that did not wait before, and only
those two registers and those of interrupts and monitors change. -/
def Obligations.DivisionOutsideItsRangesIsRejected : Prop :=
  ∀ (r : Region) (pane : Fin 2) (value : Word) (s : State), (¬ (1 ≤ fieldOf value 0 4 ∧ fieldOf value 0 4 ≤ 8 ∧ fieldOf value 8 7 ≤ 93 ∧ 1 ≤ fieldOf value 15 5 ∧ fieldOf value 15 5 ≤ 16 ∧ fieldOf value 20 6 ≤ 32 ∧ 1 + fieldOf value 0 4 + fieldOf value 8 7 + fieldOf value 15 5 + fieldOf value 20 6 ≤ 96)) → Carried (.clsDivWrite r pane value) s [.regs, .wire, .ctxs] (fun e => e.on (RGN_CLS_ERR_div_rejected r.val) = true ∧ e.fld (RGN_CLS_REJ_cause r.val) = 4 ∧ e.fld (RGN_CLS_REJ_pane r.val) = pane.val
        ∧ s.dev.RegsSig [RGN_CLS_REJ r.val, RGN_CLS_ERR r.val] e)

/-- CLS_DIV_WRITE in CONFIGURE with every field in range and no session or check code on the pane leaves the division waiting for the next
shutter and no register changed. PANE_WR_OPEN on a pane that may be written, with no session, no check code and no swap in the way,
opens the session. PANE_WR_CLOSE closes a session whose pricking and store pass, and the pane's check code is computed; where a node
or the header fails the session stays and RGN_PRK_REJ names it with cause 0x3; without a session it is rejected with cause 0x6. -/
def Obligations.PanesAreDividedOpenedAndClosed : Prop :=
  (∀ (r : Region) (pane : Fin 2) (value : Word) (s : State), (1 ≤ fieldOf value 0 4 ∧ fieldOf value 0 4 ≤ 8 ∧ fieldOf value 8 7 ≤ 93 ∧ 1 ≤ fieldOf value 15 5 ∧ fieldOf value 15 5 ≤ 16 ∧ fieldOf value 20 6 ≤ 32 ∧ 1 + fieldOf value 0 4 + fieldOf value 8 7 + fieldOf value 15 5 + fieldOf value 20 6 ≤ 96) → (s.dev.g r).mode = .configure → (s.dev.g r).front.session ≠ some pane.val → pane.val ∉ (s.dev.g r).front.codeBusy → Carried (.clsDivWrite r pane value) s [.front] (fun e => (pane.val, value &&& 0x03FFFF0F#32) ∈ (e.g r).front.pendingDiv ∧ ∀ a, e.reg a = s.dev.reg a))
  ∧ (∀ (r : Region) (pane : Fin 2) (s : State), (s.dev.g r).front.session = none → (s.dev.g r).front.codeBusy = [] → s.dev.paneWritable r pane.val = true → s.dev.anchorSt.swapAt = none → Carried (.paneWrOpen r pane) s [.regs, .front] (fun e => (e.g r).front = { (s.dev.g r).front with session := some pane.val } ∧ e.fld (RGN_PANE_WR_pane r.val) = pane.val
        ∧ e.on (RGN_PANE_WR_in_progress r.val) = true ∧ s.dev.RegsIn [RGN_PANE_WR r.val] e))
  ∧ (∀ (r : Region) (pane : Nat) (s : State), (s.dev.g r).front.session = some pane → s.dev.prickFails r.val pane = none → s.dev.storeFails r.val pane = none → Carried (.paneWrClose r) s [.regs, .front] (fun e => (e.g r).front.session = none ∧ pane ∈ (e.g r).front.codeBusy ∧ e.on (RGN_PANE_WR_in_progress r.val) = true ∧ s.dev.RegsIn [RGN_PANE_WR r.val] e))
  ∧ (∀ (r : Region) (pane kind i : Nat) (s : State), (s.dev.g r).front.session = some pane → s.dev.prickFails r.val pane = some (kind, i) → kind < 4 → i < 2048 → Carried (.paneWrClose r) s [.regs, .wire, .ctxs] (fun e => e.on (RGN_FE_ERR_close_failed r.val) = true ∧ e.fld (RGN_PRK_REJ_cause r.val) = 3 ∧ e.fld (RGN_PRK_REJ_kind r.val) = kind
        ∧ e.fld (RGN_PRK_REJ_index r.val) = i ∧ s.dev.RegsSig [RGN_PRK_REJ r.val, RGN_FE_ERR r.val] e))
  ∧ (∀ (r : Region) (s : State), (s.dev.g r).front.session = none → Carried (.paneWrClose r) s [.regs, .wire, .ctxs] (fun e => e.on (RGN_FE_ERR_write_rejected r.val) = true ∧ e.fld (RGN_PRK_REJ_cause r.val) = 6 ∧ s.dev.RegsSig [RGN_PRK_REJ r.val, RGN_FE_ERR r.val] e))

/-- PANE_WINDOW_WRITE inside the templates of the pane whose session is open writes those bytes and no others, and what stood there is
kept for the passes of an ACTIVE pane until the session closes (R220); at an offset past the templates it changes nothing.
PANE_CODE_DONE leaves the CRC-32C of the pane's contents in its register and ends its computation. PANE_CTL_SWAP is scheduled for the
shutter of CHP_PANE_AT where R127 has no cause, and with one pending is rejected with cause 0x5; PANE_CTL_FORCE_FREE frees the
RETIRING pane at the next shutter. -/
def Obligations.PaneWindowsAndSwaps : Prop :=
  (∀ (r : Region) (pane : Fin 2) (off : Nat) (data : List Byte) (s : State), (s.dev.g r).front.session = some pane.val → s.dev.paneWritable r pane.val = true → 0x1000 * (1 + s.dev.ruleUnits r.val pane.val + s.dev.asetUnits r.val pane.val) ≤ off → off + data.length ≤ 0x1000 * (1 + s.dev.ruleUnits r.val pane.val + s.dev.asetUnits r.val pane.val + s.dev.tmplUnits r.val pane.val) → Carried (.paneWindowWrite r pane true off data) s [.mem, .front] (fun e => (∀ a, e.byte a = if paneBase r.val pane.val + off ≤ a ∧ a < paneBase r.val pane.val + off + data.length
        then data.getD (a - (paneBase r.val pane.val + off)) 0 else s.dev.byte a)
        ∧ (s.dev.paneState r.val pane.val ≠ 1 → (e.g r).front = (s.dev.g r).front)
        ∧ ∀ q, { (e.g q).front with saved := (s.dev.g q).front.saved } = (s.dev.g q).front))
  ∧ (∀ (r : Region) (pane : Fin 2) (off : Nat) (data : List Byte) (s : State), data ≠ [] → 0x1000 * (1 + s.dev.ruleUnits r.val pane.val + s.dev.asetUnits r.val pane.val + s.dev.tmplUnits r.val pane.val) < off + data.length → Carried (.paneWindowWrite r pane true off data) s [] (fun e => True))
  ∧ (∀ (r : Region) (pane : Fin 2) (s : State), pane.val ∈ (s.dev.g r).front.codeBusy → Carried (.paneCodeDone r pane) s [.regs, .front] (fun e => e.reg (if pane = 0 then RGN_PANE_CODE0 r.val else RGN_PANE_CODE1 r.val) = BitVec.ofNat 32 (crc32cOf (s.dev.paneContents r.val pane.val))
        ∧ (e.g r).front = { (s.dev.g r).front with codeBusy := (s.dev.g r).front.codeBusy.filter (· != pane.val) }
        ∧ s.dev.RegsIn [RGN_PANE_CODE0 r.val, RGN_PANE_CODE1 r.val, RGN_PANE_WR r.val] e))
  ∧ (∀ (s : State), s.dev.swapCause (s.dev.pair (CHP_PANE_AT_LO s.dev.A) (CHP_PANE_AT_HI s.dev.A)) (s.dev.reg (CHP_PANE_CODE s.dev.A)) = 0 → Carried (.paneCtlSwap) s [.regs, .anchorSt] (fun e => e.anchorSt = { s.dev.anchorSt with swapAt := some (s.dev.pair (CHP_PANE_AT_LO s.dev.A) (CHP_PANE_AT_HI s.dev.A)) }
        ∧ s.dev.Wrote (CHP_PANE_STAT_pending s.dev.A) 1 e ∧ s.dev.RegsIn [CHP_PANE_STAT s.dev.A] e))
  ∧ (∀ (s : State), s.dev.mode ≠ .load → s.dev.anchorSt.modeChange = none → s.dev.anchorSt.swapAt ≠ none → Carried (.paneCtlSwap) s [.regs, .wire, .ctxs] (fun e => e.fld (CHP_PANE_STAT_reject_cause s.dev.A) = 5 ∧ e.on (CHP_COMMIT_ERR_swap_rejected s.dev.A) = true
        ∧ s.dev.RegsSig [CHP_PANE_STAT s.dev.A, CHP_COMMIT_ERR s.dev.A] e))
  ∧ (∀ (s : State), Carried (.paneCtlForceFree) s [.anchorSt] (fun e => e.anchorSt = { s.dev.anchorSt with freeAt := some ((s.dev.tick + 1) % 2 ^ 48) }))

/-! ### Interrupts, snapshots and registers -/

/-- IRQ_EN_SET and IRQ_EN_CLR enable and disable the sources whose bits are 1; IRQ_PEND_SET of one listed source that is disabled and
below 255 adds one arrival; IRQ_PEND_CLR makes the counts of the named sources zero and leaves the others; IRQ_CLAIM_MP with nothing
to claim changes nothing, and otherwise makes the count of the claimable source of least priority value, then least number, zero;
IRQ_RETARGET to a lawful target writes region, byte and priority, and a target byte above 0x83 is rejected with cfg_rejected. -/
def Obligations.InterruptSourcesAreSetClearedAndClaimed : Prop :=
  (∀ (r : Region) (w : Fin 32) (value : Word) (s : State), Carried (.irqEnSet r w value) s [.regs, .wire, .ctxs] (fun e => (∀ v < 32, e.reg (RGN_IRQ_EN r.val v) = if v = w.val then s.dev.reg (RGN_IRQ_EN r.val w.val) ||| value else s.dev.reg (RGN_IRQ_EN r.val v))
        ∧ s.dev.RegsBut (fun a => a = RGN_IRQ_EN r.val w.val ∨ ∃ i < 32, a = RGN_IRQ_SRC r.val (w.val * 32 + i)) e))
  ∧ (∀ (r : Region) (w : Fin 32) (value : Word) (s : State), Carried (.irqEnClr r w value) s [.regs] (fun e => e.reg (RGN_IRQ_EN r.val w.val) = s.dev.reg (RGN_IRQ_EN r.val w.val) &&& ~~~value ∧ s.dev.RegsIn [RGN_IRQ_EN r.val w.val] e))
  ∧ (∀ (r : Region) (w i : Fin 32) (s : State), sourceListed (w.val * 32 + i.val) = true → w.val * 32 + i.val ∉ [0x70, 0x75, 0x76] → s.dev.irqEnabled r.val (w.val * 32 + i.val) = false → s.dev.irqCount r.val (w.val * 32 + i.val) < 255 → Carried (.irqPendSet r w (BitVec.ofNat 32 (2 ^ i.val))) s [.regs, .wire, .ctxs] (fun e => e.irqCount r.val (w.val * 32 + i.val) = s.dev.irqCount r.val (w.val * 32 + i.val) + 1 ∧ s.dev.RegsSig [] e))
  ∧ (∀ (r : Region) (w : Fin 32) (value : Word) (s : State), Carried (.irqPendClr r w value) s [.regs] (fun e => (∀ i < 32, e.irqCount r.val (w.val * 32 + i) = if bitOf value.toNat i then 0 else s.dev.irqCount r.val (w.val * 32 + i))
        ∧ s.dev.RegsBut (fun a => ∃ i < 32, a = RGN_IRQ_SRC r.val (w.val * 32 + i)) e))
  ∧ (∀ (r : Region) (s : State), s.dev.claims r 0x80 = [] → Carried (.irqClaimMp r) s [] (fun e => True))
  ∧ (∀ (r : Region) (n : Nat) (s : State), n ∈ s.dev.claimable r.val 0x80 → n ∉ [0x70, 0x75, 0x76] → (∀ c ∈ s.dev.claims r 0x80, s.dev.fld (RGN_IRQ_SRC_prio r.val n) < c.1 ∨ s.dev.fld (RGN_IRQ_SRC_prio r.val n) = c.1 ∧ r.val * 1024 + n ≤ c.2.1) → Carried (.irqClaimMp r) s [.regs, .wire, .ctxs] (fun e => e.irqCount r.val n = 0 ∧ s.dev.RegsSig [] e))
  ∧ (∀ (r : Region) (n : Fin 1024) (value : Word) (s : State), bitsOf value.toNat 15 8 ≤ 0x83 → (bitsOf value.toNat 19 16 = 0xF ∨ (bitsOf value.toNat 19 16 < 8 ∧ s.dev.mladus (bitsOf value.toNat 19 16) = true)) → Carried (.irqRetarget r n value) s [.regs, .wire, .ctxs] (fun e => e.fld (RGN_IRQ_SRC_target r.val n.val) = bitsOf value.toNat 15 8 ∧ e.fld (RGN_IRQ_SRC_region r.val n.val) = bitsOf value.toNat 19 16
        ∧ e.fld (RGN_IRQ_SRC_prio r.val n.val) = value.toNat % 16 ∧ s.dev.RegsIn [RGN_IRQ_SRC r.val n.val] e))
  ∧ (∀ (r : Region) (n : Fin 1024) (value : Word) (s : State), 0x83 < bitsOf value.toNat 15 8 → Carried (.irqRetarget r n value) s [.regs, .wire, .ctxs] (fun e => e.fld (RGN_IRQ_SRC_target r.val n.val) = s.dev.fld (RGN_IRQ_SRC_target r.val n.val) ∧ e.on (RGN_IRQ_ERR_cfg_rejected r.val) = true
        ∧ s.dev.RegsSig [] e))

/-- IRQ with a local target: it adds its count to the entry of its source and target, saturating at 255, or takes a new one of 64; with
the inbox full it is lost and sets inbox_full. IRQ for the host at its endpoint's region with a valid vector entry counts its
arrivals. A count of zero leaves inbox and endpoints as they were and sets RGN_CF_ERR.protocol. -/
def Obligations.InterruptMessagesReachTheInbox : Prop :=
  (∀ (r src : Region) (source count target : Nat) (s : State), s.dev.inTurn src.val r.val (.irq source count target) = true → 0 < count → count ≤ 255 → source < 8192 → target ≤ 0x80 → (s.dev.g r).inbox.length < 64 → (∀ x ∈ (s.dev.g r).inbox, ¬ (x.source = source ∧ x.target = target)) → Carried (.irq r src source count target) s [.regs, .wire, .ctxs, .inbox] (fun e => (e.g r).inbox = (s.dev.g r).inbox ++ [⟨source, count, target⟩] ∧ e.fld (RGN_IRQ_INBOX_depth r.val) = (s.dev.g r).inbox.length + 1
        ∧ s.dev.RegsIn [RGN_IRQ_INBOX r.val] e))
  ∧ (∀ (r src : Region) (source count target : Nat) (s : State), s.dev.inTurn src.val r.val (.irq source count target) = true → 0 < count → count ≤ 255 → source < 8192 → target ≤ 0x80 → (∃ x ∈ (s.dev.g r).inbox, x.source = source ∧ x.target = target) → Carried (.irq r src source count target) s [.regs, .wire, .ctxs, .inbox] (fun e => (e.g r).inbox = (s.dev.g r).inbox.map (fun x => if x.source = source ∧ x.target = target then { x with count := min 255 (x.count + count) } else x)))
  ∧ (∀ (r src : Region) (source count target : Nat) (s : State), s.dev.inTurn src.val r.val (.irq source count target) = true → 0 < count → count ≤ 255 → source < 8192 → target ≤ 0x80 → 64 ≤ (s.dev.g r).inbox.length → (∀ x ∈ (s.dev.g r).inbox, ¬ (x.source = source ∧ x.target = target)) → Carried (.irq r src source count target) s [.regs, .wire, .ctxs] (fun e => e.on (RGN_IRQ_ERR_inbox_full r.val) = true ∧ s.dev.RegsSig [] e))
  ∧ (∀ (src : Region) (source count : Nat) (s : State), s.dev.inTurn src.val (0 : Region).val (.irq source count 0x82) = true → 0 < count → count ≤ 255 → source < 8192 → s.dev.on (RGN_IRQ_HVEC_valid 0 source) = true → Carried (.irq 0 src source count 0x82) s [.regs, .wire, .line, .endpoints] (fun e => e.fld (RGN_IRQ_HVEC_arrivals 0 source) = min 255 (s.dev.fld (RGN_IRQ_HVEC_arrivals 0 source) + count) ∧ s.dev.RegsIn [RGN_IRQ_HVEC 0 source] e))
  ∧ (∀ (r src : Region) (source target : Nat) (s : State), s.dev.inTurn src.val r.val (.irq source 0 target) = true → Carried (.irq r src source 0 target) s [.regs, .wire, .ctxs] (fun e => e.on (RGN_CF_ERR_protocol r.val) = true))

/-- MON_SNAP_ARM naming a shutter 2 or more ticks ahead leaves the snapshot pending there, and otherwise sets snap_rejected;
MON_SNAP_CANCEL withdraws it. SNAPSHOT_REPORT from a region that is awaited marks it as taken and shows the tick; a region that is not
awaited changes nothing but the wire. -/
def Obligations.SnapshotsAreArmedAndReported : Prop :=
  (∀ (s : State), 2 ≤ Dev.ticksAhead s.dev.snapNamed s.dev.tick → Dev.ticksAhead s.dev.snapNamed s.dev.tick < 2 ^ 47 → Carried (.monSnapArm) s [.regs, .anchorSt] (fun e => e.anchorSt = { s.dev.anchorSt with snapAt := some s.dev.snapNamed } ∧ s.dev.Wrote (CHP_MON_SNAP_STAT_pending s.dev.A) 1 e
        ∧ s.dev.RegsIn [CHP_MON_SNAP_STAT s.dev.A] e))
  ∧ (∀ (s : State), Dev.ticksAhead s.dev.snapNamed s.dev.tick < 2 → Carried (.monSnapArm) s [.regs, .anchorSt] (fun e => e.anchorSt = s.dev.anchorSt ∧ s.dev.Wrote (CHP_MON_ERR_snap_rejected s.dev.A) 1 e ∧ s.dev.RegsIn [CHP_MON_ERR s.dev.A] e))
  ∧ (∀ (s : State), Carried (.monSnapCancel) s [.regs, .anchorSt] (fun e => e.anchorSt = { s.dev.anchorSt with snapAt := none } ∧ s.dev.Wrote (CHP_MON_SNAP_STAT_pending s.dev.A) 0 e ∧ s.dev.RegsIn [CHP_MON_SNAP_STAT s.dev.A] e))
  ∧ (∀ (src q : Region) (tick : Nat) (s : State), s.dev.inTurn src.val s.dev.A (.snapshot tick) = true → src.val ∈ s.dev.anchorSt.snapWaits → q ∈ s.dev.mladusRegions → q ≠ src → bitOf (s.dev.fld (CHP_MON_SNAP_STAT_taken s.dev.A)) q.val = false → Carried (.snapshotReport src tick) s [.regs, .wire, .anchorSt] (fun e => e.anchorSt = { s.dev.anchorSt with snapWaits := s.dev.anchorSt.snapWaits.erase src.val } ∧ bitOf (e.fld (CHP_MON_SNAP_STAT_taken s.dev.A)) src.val = true
        ∧ e.pair (CHP_MON_SNAP_TICK_LO s.dev.A) (CHP_MON_SNAP_TICK_HI s.dev.A) = tick % 2 ^ 48
        ∧ s.dev.RegsIn [CHP_MON_SNAP_STAT s.dev.A, CHP_MON_SNAP_TICK_LO s.dev.A, CHP_MON_SNAP_TICK_HI s.dev.A] e))
  ∧ (∀ (src : Region) (tick : Nat) (s : State), s.dev.inTurn src.val s.dev.A (.snapshot tick) = true → src.val ∉ s.dev.anchorSt.snapWaits → Carried (.snapshotReport src tick) s [.wire] (fun e => True))

/-- REGISTER_WRITE of RGN_FE_CTL of a Mladus region: in CONFIGURE or TEST a value with fe_enable not zero is taken, and fe_active follows
it; at any other time, and with fe_enable zero, the register stands and fe_ctl_rejected is set. Nothing else changes. -/
def Obligations.FrontEndsAreEnabledWhileOpen : Prop :=
  (∀ (r : Region) (value : Word) (s : State), s.dev.mladus r.val = true → ((s.dev.g r).mode = .configure ∨ (s.dev.g r).mode = .test) → value.toNat % 16 ≠ 0 → Carried (.registerWrite (RGN_FE_CTL r.val) value) s [.regs] (fun e => e.fld (RGN_FE_CTL_fe_enable r.val) = value.toNat % 16 ∧ e.fld (RGN_FE_STAT_fe_active r.val) = value.toNat % 16
        ∧ s.dev.RegsIn [RGN_FE_CTL r.val, RGN_FE_STAT r.val] e))
  ∧ (∀ (r : Region) (value : Word) (s : State), s.dev.mladus r.val = true → (¬ ((s.dev.g r).mode = .configure ∨ (s.dev.g r).mode = .test) ∨ value.toNat % 16 = 0) → Carried (.registerWrite (RGN_FE_CTL r.val) value) s [.regs] (fun e => s.dev.Wrote (RGN_FE_ERR_fe_ctl_rejected r.val) 1 e ∧ s.dev.RegsIn [RGN_FE_ERR r.val] e))

/-- REGISTER_PAIR_LO_READ of CHP_PPS_TICK_LO leaves the upper half in the pair's holding register and every register as it was;
REGISTER_WRITE of CHP_PANE_AT_LO changes no register, and REGISTER_PAIR_HI_WRITE of CHP_PANE_AT_HI then commits both halves.
TBL_BADLINE_READ holds RGN_TBL_BADTABLE with RGN_TBL_BADLINE. DSP_FLAGS_SET and DSP_FLAGS_CLR set and clear the flags whose bits are
1, and a 0 changes nothing. -/
def Obligations.RegisterPairsAndFlags : Prop :=
  (∀ (s : State), Carried (.registerPairLoRead (CHP_PPS_TICK_LO s.dev.A)) s [.pairs] (fun e => (∃ w, (e.pairBuf (CHP_PPS_TICK_LO s.dev.A)).hold = some w ∧ fieldOf w 0 16 = s.dev.fld (CHP_PPS_TICK_HI_tick s.dev.A))
        ∧ ∀ a, a ≠ CHP_PPS_TICK_LO s.dev.A → e.pairBuf a = s.dev.pairBuf a))
  ∧ (∀ (value : Word) (s : State), Carried (.registerWrite (CHP_PANE_AT_LO s.dev.A) value) s [.pairs] (fun e => (e.pairBuf (CHP_PANE_AT_LO s.dev.A)).lo = some value ∧ ∀ a, a ≠ CHP_PANE_AT_LO s.dev.A → e.pairBuf a = s.dev.pairBuf a))
  ∧ (∀ (value w : Word) (s : State), (s.dev.pairBuf (CHP_PANE_AT_LO s.dev.A)).lo = some w → Carried (.registerPairHiWrite (CHP_PANE_AT_HI s.dev.A) value) s [.regs, .pairs] (fun e => e.fld (CHP_PANE_AT_LO_tick s.dev.A) = w.toNat ∧ e.fld (CHP_PANE_AT_HI_tick s.dev.A) = value.toNat % 2 ^ 16
        ∧ s.dev.RegsIn [CHP_PANE_AT_LO s.dev.A, CHP_PANE_AT_HI s.dev.A] e))
  ∧ (∀ (r : Region) (s : State), Carried (.tblBadlineRead r) s [.pairs] (fun e => (e.pairBuf (RGN_TBL_BADLINE r.val)).hold = some (s.dev.reg (RGN_TBL_BADTABLE r.val)) ∧ ∀ a, a ≠ RGN_TBL_BADLINE r.val → e.pairBuf a = s.dev.pairBuf a))
  ∧ (∀ (r : Region) (value : Word) (s : State), Carried (.dspFlagsSet r value) s [.regs] (fun e => e.reg (RGN_DSP_FLAGS r.val) = s.dev.reg (RGN_DSP_FLAGS r.val) ||| value
        ∧ s.dev.RegsIn [RGN_DSP_FLAGS r.val, RGN_DSP_FLAGS_SET r.val, RGN_DSP_FLAGS_CLR r.val] e))
  ∧ (∀ (r : Region) (value : Word) (s : State), Carried (.dspFlagsClr r value) s [.regs] (fun e => e.reg (RGN_DSP_FLAGS r.val) = s.dev.reg (RGN_DSP_FLAGS r.val) &&& ~~~value
        ∧ s.dev.RegsIn [RGN_DSP_FLAGS r.val, RGN_DSP_FLAGS_SET r.val, RGN_DSP_FLAGS_CLR r.val] e))

/-! ### Shutters, markers and notices -/

/-- SHUTTER of a Mladus region that is not fenced, with no reset, no fence due, no rejoin under way and no failover at it: it answers a
next state in which the region's tick count is one more modulo 2^48 and its mode is the part's; every other region's tick count, the
queue and the anchor are as before. At the region's first shutter after its release the count is zero instead. -/
def Obligations.ShuttersAdvanceTheTick : Prop :=
  (∀ (r : Region) (s : State), s.dev.chip.phase = 0 → s.dev.mladus r.val = true → s.dev.fenced r.val = false → s.dev.takesOver r = false → (∀ q, (s.dev.g q).commit.fenceDue = 0) → s.dev.anchorSt.rejoin = none → (s.dev.g r).commit.started = true → ∃ t, exec (.shutter r) s = .next t ∧ t.pending = s.pending ∧ (t.dev.g r).tick = ((s.dev.g r).tick + 1) % 2 ^ 48
        ∧ (t.dev.g r).mode = t.dev.mode ∧ t.dev.anchor = s.dev.anchor ∧ ∀ q, q ≠ r → (t.dev.g q).tick = (s.dev.g q).tick)
  ∧ (∀ (r : Region) (s : State), s.dev.chip.phase = 0 → s.dev.mladus r.val = true → s.dev.fenced r.val = false → s.dev.takesOver r = false → (∀ q, (s.dev.g q).commit.fenceDue = 0) → s.dev.anchorSt.rejoin = none → (s.dev.g r).commit.started = false → ∃ t, exec (.shutter r) s = .next t ∧ t.pending = s.pending ∧ (t.dev.g r).tick = 0 ∧ (t.dev.g r).commit.started = true
        ∧ (t.dev.g r).mode = t.dev.mode ∧ ∀ q, q ≠ r → (t.dev.g q).tick = (s.dev.g q).tick)

/-- SHUTTER_MARK on the region's parent module forwards the marker with one more hop and the link's delay added, records the offset of the
region's shutter from the anchor's modulo 2^16, the tick and the anchor, and corrects the timer by at most 250 ps; on another module
it is only taken off the wire; with a tick that is not the region's it sets tick_mismatch and makes a fence of cause 2 due. MEMBER and
LINK_STATE notices that are new (the latter for a later shutter) are kept and flooded once. ECHO_REQ is answered by ECHO_RSP; ECHO_RSP
writes half of the round trip less the turnaround. GEN_UPDATE writes the mirror of the region that receives it. -/
def Obligations.MarkersMembersAndEchoesAreTaken : Prop :=
  (∀ (r src : Region) (tick hops residence anchor : Nat) (m : Fin 6) (arrival off : Int) (s : State), s.dev.mladus r.val = true → s.dev.fenced r.val = false → m.val = s.dev.fld (RGN_SHUTTER_STAT_parent r.val) → off = residence + s.dev.fld (RGN_CF_DELAY_delay r.val m.val) - arrival → off.natAbs ≤ 4000 → tick = (s.dev.g r).tick → Carried (.shutterMark r src tick hops residence anchor m arrival) s [.regs, .wire, .commit] (fun e => (e.fld (RGN_SHUTTER_STAT_offset r.val) : Int) = off % 2 ^ 16 ∧ s.dev.RegsIn [RGN_SHUTTER_STAT r.val] e
        ∧ (e.g r).commit = { (s.dev.g r).commit with
            markerTick := tick, heard := [tick], anchorSeen := anchor, timer := (s.dev.g r).commit.timer - max (-250) (min 250 off) }
        ∧ (∀ q, q ≠ r → (e.g q).commit = (s.dev.g q).commit)
        ∧ e.wire = s.dev.wire.erase ⟨src.val, r.val, .marker tick hops residence anchor⟩
            ++ (s.dev.children r).map (fun q => ⟨r.val, q.val, .marker tick ((hops + 1) % 256)
                ((residence + s.dev.freeNat 0 + s.dev.fld (RGN_CF_DELAY_delay r.val m.val)) % 2 ^ 32) anchor⟩)))
  ∧ (∀ (r src : Region) (tick hops residence anchor : Nat) (m : Fin 6) (arrival : Int) (s : State), s.dev.mladus r.val = true → m.val ≠ s.dev.fld (RGN_SHUTTER_STAT_parent r.val) → Carried (.shutterMark r src tick hops residence anchor m arrival) s [.wire] (fun e => e.wire = s.dev.wire.erase ⟨src.val, r.val, .marker tick hops residence anchor⟩))
  ∧ (∀ (r src : Region) (tick hops residence anchor : Nat) (m : Fin 6) (arrival : Int) (s : State), s.dev.mladus r.val = true → s.dev.fenced r.val = false → m.val = s.dev.fld (RGN_SHUTTER_STAT_parent r.val) → tick ≠ (s.dev.g r).tick → (s.dev.g r).commit.fenceDue = 0 → Carried (.shutterMark r src tick hops residence anchor m arrival) s [.regs, .wire, .ctxs, .commit] (fun e => e.on (RGN_SHUTTER_STAT_tick_mismatch r.val) = true ∧ (e.g r).commit.fenceDue = 2 ∧ s.dev.RegsSig [RGN_SHUTTER_STAT r.val] e))
  ∧ (∀ (r : Region) (via : Option (Fin 6)) (committing absent fenced recovering tick : Nat) (s : State), s.dev.mladus r.val = true → (tick, ((committing * 256 + absent) * 256 + fenced) * 256 + recovering) ∉ (s.dev.g r).commit.notices → Carried (.member r via committing absent fenced recovering tick) s [.wire, .commit] (fun e => (e.g r).commit = { (s.dev.g r).commit with
          heard := [(s.dev.g r).tick],
          notices := (s.dev.g r).commit.notices ++ [(tick, ((committing * 256 + absent) * 256 + fenced) * 256 + recovering)] }
        ∧ (∀ q, q ≠ r → (e.g q).commit = (s.dev.g q).commit)
        ∧ e.wire = s.dev.wire.erase ⟨s.dev.cameFrom r via, r.val, .member committing absent fenced recovering tick⟩
            ++ (s.dev.floodTo r.val via).map (fun p => ⟨r.val, p, .member committing absent fenced recovering tick⟩)))
  ∧ (∀ (r : Region) (via : Option (Fin 6)) (edges tick : Nat) (s : State), s.dev.mladus r.val = true → (edges, tick) ∉ (s.dev.g r).routeDue → Dev.tickAfter tick (s.dev.g r).tick = true → Carried (.linkState r via edges tick) s [.wire, .routeDue] (fun e => (e.g r).routeDue = (s.dev.g r).routeDue ++ [(edges, tick)] ∧ (∀ q, q ≠ r → (e.g q).routeDue = (s.dev.g q).routeDue)
        ∧ e.wire = s.dev.wire.erase ⟨s.dev.cameFrom r via, r.val, .linkState edges tick⟩
            ++ (s.dev.floodTo r.val via).map (fun p => ⟨r.val, p, .linkState edges tick⟩)))
  ∧ (∀ (r : Region) (m : Fin 6) (x p time turn : Nat) (s : State), s.dev.facing r.val m.val = some (x, p) → Carried (.echoReq r m time turn) s [.wire] (fun e => e.wire = s.dev.wire.erase ⟨p, r.val, .echoReq time⟩ ++ [⟨r.val, p, .echoRsp time turn⟩]))
  ∧ (∀ (r : Region) (m : Fin 6) (x p time turn now : Nat) (s : State), s.dev.facing r.val m.val = some (x, p) → Carried (.echoRsp r m time turn now) s [.regs, .wire] (fun e => e.fld (RGN_CF_DELAY_delay r.val m.val) = (now - time - turn) / 2 % 2 ^ (RGN_CF_DELAY_delay r.val m.val).width
        ∧ e.wire = s.dev.wire.erase ⟨p, r.val, .echoRsp time turn⟩ ∧ s.dev.RegsIn [RGN_CF_DELAY r.val m.val] e))
  ∧ (∀ (r src : Region) (holder : Nat) (s : State), s.dev.inTurn src.val r.val (.genUpdate holder) = true → Carried (.genUpdate r src holder) s [.wire, .mirror] (fun e => Sparse.get (fun _ => 0) (e.g r).mirror (Dev.holderKey holder) = (bitsOf holder 30 24 + 128 - s.dev.holderBase holder) % 128
        ∧ (∀ k, k ≠ Dev.holderKey holder → Sparse.get (fun _ => 0) (e.g r).mirror k = Sparse.get (fun _ => 0) (s.dev.g r).mirror k)
        ∧ ∀ q, q ≠ r → (e.g q).mirror = (s.dev.g q).mirror))

/-- MGT_MSG from a Mladus region, of at most 280 bytes: a segment that is not the last is kept behind those before it, under the message's
info; the last segment of kind 1 at the primary, for a pair whose command is being relayed, gives the pair the payload of the frame,
and it waits to be served. A message above 280 bytes is a protocol error and is discarded. The size of a segment and that the segment
number and count come high byte first are the model's choice (assumption log, entry 149). METER_REFILL_PASS of a meter of a METER
table on good lines writes last as the tick modulo 2^32 and the token counts, and no byte outside the meter's tc, tp and last; cir,
pir, cbs, pbs and mode stand. ERR_REPORT of a guest leaves its region and code in RGN_CF_GERR and sets guest_err; from a Mladus region
it is a protocol error. -/
def Obligations.MpMessagesGuestReportsAndMeters : Prop :=
  (∀ (r src : Region) (info : Nat) (payload : List Byte) (s : State), s.dev.inTurn src.val r.val (.mgt info payload) = true → s.dev.guest src.val = false → payload.length ≤ 280 → info < 65536 → ofBE (payload.take 2) + 1 < ofBE ((payload.drop 2).take 2) → Carried (.mgtMsg r src info payload) s [.wire, .relays] (fun e => Sparse.get (fun _ => []) (e.g r).relays info
          = (if ofBE (payload.take 2) = 0 then [] else Sparse.get (fun _ => []) (s.dev.g r).relays info) ++ payload.drop 4
        ∧ (∀ k, k ≠ info → Sparse.get (fun _ => []) (e.g r).relays k = Sparse.get (fun _ => []) (s.dev.g r).relays k)
        ∧ (∀ q, q ≠ r → (e.g q).relays = (s.dev.g q).relays)
        ∧ e.wire = s.dev.wire.erase ⟨src.val, r.val, .mgt info payload⟩))
  ∧ (∀ (r src : Region) (ep : Endpoint) (pair : Fin 32) (payload : List Byte) (s : State), s.dev.inTurn src.val r.val (.mgt (Dev.relayInfo 1 ep pair.val) payload) = true → s.dev.guest src.val = false → payload.length ≤ 280 → ofBE ((payload.drop 2).take 2) ≤ ofBE (payload.take 2) + 1 → r.val = s.dev.A → (s.dev.mail ep pair.val).wait = .relay → Carried (.mgtMsg r src (Dev.relayInfo 1 ep pair.val) payload) s [.wire, .endpoints, .relays] (fun e => e.mail ep pair.val = { s.dev.mail ep pair.val with
          wait := .fresh,
          payload := ((if ofBE (payload.take 2) = 0 then [] else Sparse.get (fun _ => []) (s.dev.g r).relays (Dev.relayInfo 1 ep pair.val))
            ++ payload.drop 4).drop (if s.dev.framesV1 then 64 else 32) }
        ∧ Sparse.get (fun _ => []) (e.g r).relays (Dev.relayInfo 1 ep pair.val) = []))
  ∧ (∀ (r src : Region) (info : Nat) (payload : List Byte) (s : State), s.dev.inTurn src.val r.val (.mgt info payload) = true → 280 < payload.length → Carried (.mgtMsg r src info payload) s [.regs, .wire, .ctxs] (fun e => e.on (RGN_CF_ERR_protocol r.val) = true ∧ s.dev.RegsSig [RGN_CF_ERR r.val] e))
  ∧ (∀ (r : Region) (table index : Nat) (s : State), (s.dev.table r table).kind = 10 → index < (s.dev.table r table).entries → s.dev.mladus r.val = true → s.dev.slotBad r table (s.dev.table r table) index = false → ((s.dev.table r table).place = 1 → s.dev.stackFailed r.val = false) → Carried (.meterRefillPass r table index) s [.mem] (fun e => e.meterAt (Dev.tableAddr r (s.dev.table r table) (index * 32))
          = (let m := (s.dev.meterAt (Dev.tableAddr r (s.dev.table r table) (index * 32))).refill (s.dev.g r).tick
             { m with tc := m.tc % 2 ^ 32, tp := m.tp % 2 ^ 32 })
        ∧ ∀ a, a < Dev.tableAddr r (s.dev.table r table) (index * 32) + 16 ∨ Dev.tableAddr r (s.dev.table r table) (index * 32) + 28 ≤ a → e.byte a = s.dev.byte a))
  ∧ (∀ (r src : Region) (code : Nat) (detail : List Byte) (s : State), s.dev.inTurn src.val r.val (.errReport code detail) = true → s.dev.guest src.val = true → code < 256 → Carried (.errReport r src code detail) s [.regs, .mem, .wire, .line, .ctxs, .endpoints, .journal] (fun e => e.fld (RGN_CF_GERR_region r.val) = src.val ∧ e.fld (RGN_CF_GERR_code r.val) = code ∧ e.on (RGN_CF_ERR_guest_err r.val) = true))
  ∧ (∀ (r src : Region) (code : Nat) (detail : List Byte) (s : State), s.dev.inTurn src.val r.val (.errReport code detail) = true → s.dev.guest src.val = false → Carried (.errReport r src code detail) s [.regs, .wire, .ctxs] (fun e => e.on (RGN_CF_ERR_protocol r.val) = true ∧ s.dev.RegsSig [RGN_CF_ERR r.val] e))

/-! ### Mutations, seals and commits -/

/-- MUT_RECORD adds the copy to those of its region and changes nothing else where no commit of its tick is held. SEAL from a fenced or
non-committing region, or for a tick already broadcast, changes nothing but the wire; on time it is held and clears the region's
late_run, and the last awaited seal broadcasts the commit, which names its tick and the last tick before it. SEAL_DEADLINE broadcasts
the commit of the tick before from the seals held, and sets late_seal if one that is awaited is missing. -/
def Obligations.RecordsAndSealsAreGathered : Prop :=
  (∀ (r src : Region) (tick : Nat) (m : Mut) (s : State), s.dev.inTurn src.val r.val (.mutRecord tick m) = true → (∀ c ∈ (s.dev.g r).commit.held, c.tick ≠ tick) → Carried (.mutRecord r src tick m) s [.wire, .commit] (fun e => (e.g r).commit = { (s.dev.g r).commit with copies := (s.dev.g r).commit.copies ++ [⟨tick, m⟩] } ∧ (∀ q, q ≠ r → (e.g q).commit = (s.dev.g q).commit)
        ∧ e.wire = s.dev.wire.erase ⟨src.val, r.val, .mutRecord tick m⟩))
  ∧ (∀ (src dst : Region) (tick count : Nat) (code : Word) (s : State), s.dev.sealTo src (.seal tick count code) = dst.val → s.dev.inTurn src.val dst.val (.seal tick count code) = true → (s.dev.fenced src.val = true ∨ s.dev.committing src.val = false ∨ Dev.tickAfter tick s.dev.lastCommit = false ∨ dst.val ≠ s.dev.A) → Carried (.seal src tick count code) s [.wire] (fun e => e.wire = s.dev.wire.erase ⟨src.val, dst.val, .seal tick count code⟩))
  ∧ (∀ (src q : Region) (tick count : Nat) (code : Word) (s : State), s.dev.inTurn src.val s.dev.A (.seal tick count code) = true → s.dev.sealTo src (.seal tick count code) = s.dev.A → s.dev.anchorLive = true → s.dev.fenced src.val = false → s.dev.committing src.val = true → s.dev.absent src.val = false → Dev.tickAfter tick s.dev.lastCommit = true → q ∈ s.dev.sealers → q ≠ src → (∀ x ∈ s.dev.anchorSt.seals, ¬ (x.region = q.val ∧ x.tick = tick)) → Carried (.seal src tick count code) s [.regs, .wire, .anchorSt] (fun e => e.anchorSt.seals = s.dev.anchorSt.seals.filter (fun x => !(x.region == src.val && x.tick == tick)) ++ [⟨src.val, tick, count, code⟩]
        ∧ e.fld (RGN_STAGE_STAT_late_run src.val) = 0 ∧ s.dev.RegsIn [RGN_STAGE_STAT src.val] e))
  ∧ (∀ (src : Region) (tick count : Nat) (code : Word) (s : State), s.dev.inTurn src.val s.dev.A (.seal tick count code) = true → s.dev.sealTo src (.seal tick count code) = s.dev.A → s.dev.anchorLive = true → s.dev.fenced src.val = false → s.dev.committing src.val = true → s.dev.absent src.val = false → tick < 2 ^ 48 → Dev.tickAfter tick s.dev.lastCommit = true → (∀ q ∈ s.dev.sealers, q ≠ src → ∃ x ∈ s.dev.anchorSt.seals, x.region = q.val ∧ x.tick = tick) → Carried (.seal src tick count code) s [.regs, .mem, .wire, .line, .anchorSt, .ctxs, .endpoints, .journal] (fun e => e.lastCommit = tick ∧ ∃ c : Commit, ⟨s.dev.A, s.dev.A, .commit c⟩ ∈ e.wire ∧ c.tick = tick ∧ c.last = s.dev.lastCommit
        ∧ ⟨src.val, count, code⟩ ∈ c.parts ∧ ∀ q ∈ s.dev.sealers, q.val ∈ c.parts.map (·.region)))
  ∧ (∀ (s : State), s.dev.anchorLive = true → (s.dev.g s.dev.anchor).commit.lastMode.isRun = true → 0 < s.dev.tick → s.dev.tick < 2 ^ 48 → Dev.tickAfter (s.dev.tick - 1) s.dev.lastCommit = true → Carried (.sealDeadline) s [.regs, .mem, .wire, .line, .anchorSt, .ctxs, .endpoints, .commit, .journal] (fun e => e.lastCommit = s.dev.tick - 1
        ∧ (∃ c : Commit, ⟨s.dev.A, s.dev.A, .commit c⟩ ∈ e.wire ∧ c.tick = s.dev.tick - 1 ∧ c.last = s.dev.lastCommit
            ∧ ∀ p ∈ c.parts, ∃ x ∈ s.dev.anchorSt.seals, x.region = p.region ∧ x.tick = s.dev.tick - 1 ∧ x.count = p.count ∧ x.code = p.code)
        ∧ ((∃ q ∈ s.dev.sealers, ∀ x ∈ s.dev.anchorSt.seals, ¬ (x.region = q.val ∧ x.tick = s.dev.tick - 1)) → e.on (CHP_COMMIT_ERR_late_seal s.dev.A) = true)))

/-- COMMIT seen before changes nothing but the wire and what was heard, and one whose apply deadline has passed is only forwarded. A new
one in a committing region that includes it, with no line found bad: whole and naming the region's last applied tick, it is applied:
lastApplied is its tick and one overlay becomes visible two ticks later; not whole, it is held; naming another tick (outside
REGIONAL), a fence of cause 4 is due. APPLY_DEADLINE without the commit sets commit_missing and drops the staged records; with one
that lacks a record, it sets record_missing and a fence of cause 3 is due. -/
def Obligations.CommitsAreAppliedOrMissed : Prop :=
  (∀ (r : Region) (c : Commit) (bad : List (Nat × Nat)) (via : Option (Fin 6)) (s : State), s.dev.inTurn (s.dev.cameFrom r via) r.val (.commit c) = true → c.tick ∈ (s.dev.g r).commit.seen → Carried (.commit r c bad via) s [.wire, .commit] (fun e => (e.g r).commit = { (s.dev.g r).commit with heard := [(s.dev.g r).tick] } ∧ (∀ q, q ≠ r → (e.g q).commit = (s.dev.g q).commit)
        ∧ e.wire = s.dev.wire.erase ⟨s.dev.cameFrom r via, r.val, .commit c⟩))
  ∧ (∀ (r : Region) (c : Commit) (via : Option (Fin 6)) (s : State), s.dev.inTurn (s.dev.cameFrom r via) r.val (.commit c) = true → c.tick ∉ (s.dev.g r).commit.seen → c.tick ∉ (s.dev.g r).commit.lapsed → s.dev.mladus r.val = true → s.dev.committing r.val = true → s.dev.fenced r.val = false → (∃ p ∈ c.parts, p.region = r.val) → c.last = (s.dev.g r).commit.lastApplied → s.dev.holdsAll r c = true → (s.dev.g r).commit.repairWait = [] → Carried (.commit r c [] via) s [.regs, .wire, .ctxs, .commit, .tables] (fun e => (e.g r).commit.lastApplied = c.tick ∧ (e.g r).commit.seen = (s.dev.g r).commit.seen ++ [c.tick]
        ∧ (∃ ops, (e.g r).commit.overlays = (s.dev.g r).commit.overlays ++ [⟨(c.tick + 2) % 2 ^ 48, ops⟩])
        ∧ e.fld (RGN_STAGE_STAT_late_run r.val) = 0 ∧ (∀ p ∈ s.dev.floodTo r.val via, via.isSome = true → ⟨r.val, p, .commit c⟩ ∈ e.wire)
        ∧ ∀ q, q ≠ r → (e.g q).commit = (s.dev.g q).commit))
  ∧ (∀ (r : Region) (c : Commit) (bad : List (Nat × Nat)) (via : Option (Fin 6)) (s : State), s.dev.inTurn (s.dev.cameFrom r via) r.val (.commit c) = true → c.tick ∉ (s.dev.g r).commit.seen → s.dev.present r.val = true → c.tick ∈ (s.dev.g r).commit.lapsed → Carried (.commit r c bad via) s [.wire, .commit] (fun e => (e.g r).commit = { (s.dev.g r).commit with heard := [(s.dev.g r).tick], seen := (s.dev.g r).commit.seen ++ [c.tick] }
        ∧ ∀ q, q ≠ r → (e.g q).commit = (s.dev.g q).commit))
  ∧ (∀ (r : Region) (c : Commit) (via : Option (Fin 6)) (s : State), s.dev.inTurn (s.dev.cameFrom r via) r.val (.commit c) = true → c.tick ∉ (s.dev.g r).commit.seen → c.tick ∉ (s.dev.g r).commit.lapsed → s.dev.mladus r.val = true → s.dev.committing r.val = true → s.dev.fenced r.val = false → (∃ p ∈ c.parts, p.region = r.val) → c.last = (s.dev.g r).commit.lastApplied → s.dev.holdsAll r c = false → Carried (.commit r c [] via) s [.regs, .wire, .commit] (fun e => (e.g r).commit = { (s.dev.g r).commit with
          heard := [(s.dev.g r).tick], seen := (s.dev.g r).commit.seen ++ [c.tick], held := (s.dev.g r).commit.held ++ [c] }
        ∧ s.dev.RegsIn [RGN_STAGE_STAT r.val] e))
  ∧ (∀ (r : Region) (c : Commit) (via : Option (Fin 6)) (s : State), s.dev.inTurn (s.dev.cameFrom r via) r.val (.commit c) = true → c.tick ∉ (s.dev.g r).commit.seen → c.tick ∉ (s.dev.g r).commit.lapsed → s.dev.mladus r.val = true → s.dev.committing r.val = true → s.dev.fenced r.val = false → (∃ p ∈ c.parts, p.region = r.val) → c.last ≠ (s.dev.g r).commit.lastApplied → (s.dev.g r).commit.lastMode ≠ .regional → (s.dev.g r).commit.fenceDue = 0 → Carried (.commit r c [] via) s [.regs, .wire, .ctxs, .commit] (fun e => (e.g r).commit.fenceDue = 4 ∧ (e.g r).commit.lastApplied = (s.dev.g r).commit.lastApplied ∧ (e.g r).commit.overlays = (s.dev.g r).commit.overlays))
  ∧ (∀ (r : Region) (s : State), (s.dev.g r).commit.lastMode.isRun = true → s.dev.committing r.val = true → s.dev.fenced r.val = false → 0 < (s.dev.g r).tick → (s.dev.g r).tick < 2 ^ 48 → (s.dev.g r).commit.lastApplied ≠ (s.dev.g r).tick - 1 → (∀ c ∈ (s.dev.g r).commit.held, c.tick ≠ (s.dev.g r).tick - 1) → (s.dev.g r).tick - 1 ∉ (s.dev.g r).commit.seen → Carried (.applyDeadline r) s [.regs, .wire, .ctxs, .commit] (fun e => e.on (RGN_COMMIT_ERR_commit_missing r.val) = true ∧ (e.g r).commit.previous = [] ∧ (e.g r).commit.lapsed = (s.dev.g r).commit.lapsed ++ [(s.dev.g r).tick - 1]
        ∧ (e.g r).commit.lastApplied = (s.dev.g r).commit.lastApplied
        ∧ (e.g r).commit.overlays = (s.dev.g r).commit.overlays ∧ s.dev.RegsSig [RGN_COMMIT_ERR r.val] e))
  ∧ (∀ (r : Region) (s : State), (s.dev.g r).commit.lastMode.isRun = true → s.dev.committing r.val = true → s.dev.fenced r.val = false → 0 < (s.dev.g r).tick → (s.dev.g r).tick < 2 ^ 48 → (s.dev.g r).commit.lastApplied ≠ (s.dev.g r).tick - 1 → (∃ c ∈ (s.dev.g r).commit.held, c.tick = (s.dev.g r).tick - 1) → (∀ c ∈ (s.dev.g r).commit.held, s.dev.holdsAll r c = false) → (s.dev.g r).commit.fenceDue = 0 → Carried (.applyDeadline r) s [.regs, .wire, .ctxs, .commit] (fun e => e.on (RGN_COMMIT_ERR_record_missing r.val) = true ∧ (e.g r).commit.fenceDue = 3
        ∧ (∀ c ∈ (e.g r).commit.held, c.tick ≠ (s.dev.g r).tick - 1) ∧ s.dev.RegsSig [RGN_COMMIT_ERR r.val] e))

/-- REPAIR_REQ for a line that is good here, in a mode that repairs: it waits where the commit of the tick before is not applied; else one
REPAIR record for the requester and line is staged at the end, where staging has room. REPAIR_STALLED of a line bad for 16 ticks sets
repair_stalled, and of one bad for less changes nothing. RECON is kept for the next shutter, and its sender's backlog falls by one.
HIT_NOTICE sets the slot's hit bit, and no other, where no EXPIRE is staged. -/
def Obligations.RepairsNoticesAndReconciliation : Prop :=
  (∀ (r src : Region) (table line time : Nat) (s : State), s.dev.inTurn src.val r.val (s.dev.repairSent r src table line) = true → s.dev.repairs r = true → s.dev.lineBad r table line = false → (s.dev.g r).commit.lastApplied ≠ ((s.dev.g r).tick + 2 ^ 48 - 1) % 2 ^ 48 → Carried (.repairReq r src table line time) s [.wire, .commit] (fun e => (e.g r).commit = { (s.dev.g r).commit with repairWait := (s.dev.g r).commit.repairWait ++ [(table, line, src.val)] }
        ∧ ∀ q, q ≠ r → (e.g q).commit = (s.dev.g q).commit))
  ∧ (∀ (r src : Region) (table line time : Nat) (s : State), s.dev.inTurn src.val r.val (s.dev.repairSent r src table line) = true → s.dev.repairs r = true → s.dev.lineBad r table line = false → (s.dev.g r).commit.lastApplied = ((s.dev.g r).tick + 2 ^ 48 - 1) % 2 ^ 48 → (s.dev.g r).commit.staged.length + s.dev.fld (RGN_COMMIT_CTL_host_reserve r.val) < 128 → Carried (.repairReq r src table line time) s [.regs, .wire, .ctxs, .commit] (fun e => (∃ x, (e.g r).commit.staged = (s.dev.g r).commit.staged ++ [x] ∧ x.issuer = .repair ∧ x.mu.op = 7 ∧ x.mu.table = table ∧ x.mu.index = line
          ∧ x.mu.owner = src.val ∧ x.mu.region = r.val ∧ x.mu.seq = (s.dev.g r).commit.staged.length)
        ∧ (e.g r).commit.repairWait = (s.dev.g r).commit.repairWait ∧ s.dev.RegsSig [RGN_STAGE_STAT r.val] e))
  ∧ (∀ (r : Region) (table line : Nat) (b : BadLine) (s : State), (s.dev.g r).tables.bad.find? (fun b => b.table == table && b.line == line) = some b → 16 ≤ Dev.ticksAhead (s.dev.g r).tick b.since → Carried (.repairStalled r table line) s [.regs, .mem, .wire, .line, .ctxs, .endpoints, .journal] (fun e => e.on (RGN_TBL_ERR_repair_stalled r.val) = true ∧ (e.g r).tables.bad = (s.dev.g r).tables.bad))
  ∧ (∀ (r : Region) (table line : Nat) (s : State), (∀ b ∈ (s.dev.g r).tables.bad, b.table = table → b.line = line → Dev.ticksAhead (s.dev.g r).tick b.since < 16) → Carried (.repairStalled r table line) s [] (fun e => True))
  ∧ (∀ (r src : Region) (tick : Nat) (m : Mut) (s : State), s.dev.inTurn src.val r.val (.recon tick m) = true → Carried (.recon r src tick m) s [.regs, .wire, .commit] (fun e => (e.g r).commit = { (s.dev.g r).commit with recon := (s.dev.g r).commit.recon ++ [⟨tick, m⟩] } ∧ (∀ q, q ≠ r → (e.g q).commit = (s.dev.g q).commit)
        ∧ s.dev.Wrote (RGN_RECON_STAT_backlog src.val) (s.dev.fld (RGN_RECON_STAT_backlog src.val) - 1) e ∧ s.dev.RegsIn [RGN_RECON_STAT src.val] e))
  ∧ (∀ (r src : Region) (table slot quantum : Nat) (s : State), s.dev.inTurn src.val r.val (.hitNotice table slot quantum) = true → (∀ x ∈ (s.dev.g r).commit.staged, x.mu.op ≠ 6) → Carried (.hitNotice r src table slot quantum) s [.wire, .tables] (fun e => Sparse.get (fun _ => false) (e.g r).tables.hits (table * 2 ^ 32 + slot) = true
        ∧ ∀ k, k ≠ table * 2 ^ 32 + slot → Sparse.get (fun _ => false) (e.g r).tables.hits k = Sparse.get (fun _ => false) (s.dev.g r).tables.hits k))

/-! ### Power states and cells -/

/-- PARK_WRITE of 1 in LOAD, of the anchor, or with a port in service is rejected with park_rejected; one that R833 does not reject, and
every write of 0, writes park and restarts the unit's count. REGION_PARK_DONE of a parking region leaves it parked with every entering
block retained; REGION_WAKE_DONE of a waking region with its stack in service and no rate pending leaves it running. CELL_CLK_WRITE of
a lawful code in CONFIGURE or TEST waits for the next shutter, and otherwise sets cfg_rejected. -/
def Obligations.ParksAndClocksAreRequested : Prop :=
  (∀ (r : Region) (value : Word) (s : State), (bitOf value.toNat 0 = true → s.dev.mode ≠ .load ∧ r.val ≠ s.dev.A ∧ r.val ≠ s.dev.standby ∧ ∀ p < 8, s.dev.portDisabled r p = true) → Carried (.parkWrite r value) s [.regs, .thody, .ledger] (fun e => s.dev.Wrote (RGN_PWR_REGION_park r.val) (if bitOf value.toNat 0 then 1 else 0) e ∧ s.dev.RegsIn [RGN_PWR_REGION r.val] e
        ∧ (e.unit r 4 0).mismatch = 0 ∧ (e.unit r 4 0).since = ((s.dev.g r).tick + 1) % 2 ^ 48))
  ∧ (∀ (r : Region) (value : Word) (s : State), bitOf value.toNat 0 = true → (s.dev.mode = .load ∨ r.val = s.dev.A ∨ r.val = s.dev.standby ∨ ∃ p < 8, s.dev.portDisabled r p = false) → Carried (.parkWrite r value) s [.regs, .wire, .ctxs] (fun e => e.on (RGN_PWR_ERR_park_rejected r.val) = true ∧ s.dev.RegsSig [RGN_PWR_ERR r.val] e))
  ∧ (∀ (r : Region) (s : State), s.dev.fld (RGN_PWR_REGION_state r.val) = 1 → Carried (.regionParkDone r) s [.regs, .pairs, .mem, .poison, .wire, .ctxs, .cells, .blockCh, .regionCh, .mirror, .requests] (fun e => e.fld (RGN_PWR_REGION_state r.val) = 2 ∧ ∀ b < 16, e.blockState r.val b = if s.dev.blockState r.val b = 1 then 2 else s.dev.blockState r.val b))
  ∧ (∀ (r : Region) (s : State), s.dev.fld (RGN_PWR_REGION_state r.val) = 3 → s.dev.hbmState r.val ≠ 4 → s.dev.hbmState r.val ≠ 5 → s.dev.on (RGN_HBM_STAT_pend_valid r.val) = false → Carried (.regionWakeDone r) s [.regs, .wire, .ctxs] (fun e => e.fld (RGN_PWR_REGION_state r.val) = 0 ∧ s.dev.RegsSig [RGN_PWR_REGION r.val] e))
  ∧ (∀ (r : Region) (value : Word) (s : State), (s.dev.g r).mode.isOpen = true → value.toNat % 4 ≠ 3 → Carried (.cellClkWrite r value) s [.due] (fun e => (e.g r).due = (s.dev.g r).due.filter (fun x => x.1 != RGN_CLK_CFG r.val) ++ [(RGN_CLK_CFG r.val, BitVec.ofNat 32 (value.toNat % 4))]
        ∧ ∀ q, q ≠ r → (e.g q).due = (s.dev.g q).due))
  ∧ (∀ (r : Region) (value : Word) (s : State), ((s.dev.g r).mode.isOpen = false ∨ value.toNat % 4 = 3) → Carried (.cellClkWrite r value) s [.regs, .wire, .ctxs] (fun e => e.on (RGN_PWR_ERR_cfg_rejected r.val) = true ∧ s.dev.RegsSig [RGN_PWR_ERR r.val] e))

/-- RETENTION_REQUEST outside STRICT, EXTENDED, REGIONAL and DRAIN writes the requests, and a block awake whose request rises begins to
enter; in those modes a request for serving blocks alone is rejected whole. RETENTION_ENTER leaves the block retained with its cells
held, their memories poisoned and its scratchpad kept; BLOCK_WAKE_DONE, once no wipe of its partition is in progress, leaves it awake
with the scrub pass on. BLOCK_RESET wipes the partition with cause 5, holds the cells and zeroes their memories. CELL_RUN_WRITE to a
block not awake changes nothing; otherwise it writes run, starts the risen supervisors, whose interrupts a reset left off, at entry x
4, and zeroes the memories of fallen cells. -/
def Obligations.BlocksAreRetainedResetAndStarted : Prop :=
  (∀ (r : Region) (value : Word) (s : State), (s.dev.g r).mode ∉ [Mode.strict, .extended, .regional, .drain] → Carried (.retentionRequest r value) s [.regs, .thody, .ledger] (fun e => e.fld (RGN_PWR_RET_ret r.val) = value.toNat % 2 ^ 16
        ∧ (∀ b < 16, bitOf value.toNat b = true → bitOf (s.dev.fld (RGN_PWR_RET_ret r.val)) b = false → s.dev.blockState r.val b = 0 → e.blockState r.val b = 1)
        ∧ (∀ b < 16, bitOf value.toNat b = bitOf (s.dev.fld (RGN_PWR_RET_ret r.val)) b → e.blockState r.val b = s.dev.blockState r.val b)
        ∧ s.dev.RegsIn [RGN_PWR_RET r.val, RGN_PWR_BSTAT r.val] e))
  ∧ (∀ (r : Region) (value : Word) (s : State), (s.dev.g r).mode ∈ [Mode.strict, .extended, .regional, .drain] → (∃ b < 16, bitOf value.toNat b ≠ bitOf (s.dev.fld (RGN_PWR_RET_ret r.val)) b) → (∀ b < 16, bitOf value.toNat b ≠ bitOf (s.dev.fld (RGN_PWR_RET_ret r.val)) b → bitOf value.toNat b = true ∧ s.dev.on (RGN_DSP_BMODE_serve_en r.val b) = true) → Carried (.retentionRequest r value) s [.regs, .wire, .ctxs] (fun e => e.on (RGN_PWR_ERR_cfg_rejected r.val) = true ∧ s.dev.RegsSig [RGN_PWR_ERR r.val] e))
  ∧ (∀ (r : Region) (b : Block) (s : State), s.dev.blockState r.val b.val = 1 → Carried (.retentionEnter r b) s [.regs, .pairs, .mem, .poison, .wire, .ctxs, .cells, .blockCh, .regionCh, .mirror, .requests] (fun e => e.blockState r.val b.val = 2 ∧ e.fld (BLK_CELL_RUN_run r.val b.val) = 0
        ∧ (∀ c < 8, ∀ x < 0x10000, e.poisoned (Dev.clmAddr (Dev.cellNo r.val b.val c) x) = true)
        ∧ ∀ x < 0x200000, e.byte (padAddr r.val b.val x) = s.dev.byte (padAddr r.val b.val x)
            ∧ e.poisoned (padAddr r.val b.val x) = s.dev.poisoned (padAddr r.val b.val x)))
  ∧ (∀ (r : Region) (b : Block) (s : State), s.dev.blockState r.val b.val = 3 → s.dev.on (BLK_SEC_STAT_wiping r.val b.val) = false → Carried (.blockWakeDone r b) s [.regs, .wire, .ctxs] (fun e => e.blockState r.val b.val = 0 ∧ e.on (BLK_SP_SCRUB_wake_pass r.val b.val) = true
        ∧ s.dev.RegsSig [RGN_PWR_BSTAT r.val, BLK_SP_SCRUB r.val b.val, BLK_BUDGET r.val b.val] e))
  ∧ (∀ (r : Region) (blocks : Word) (s : State), Carried (.blockReset r blocks) s [.regs, .pairs, .mem, .poison, .wire, .ctxs, .cells, .blockCh, .regionCh, .mirror, .requests, .wipes] (fun e => ∀ b < 16, bitOf blocks.toNat b = true → e.on (BLK_SEC_STAT_wiping r.val b) = true ∧ e.fld (BLK_SEC_STAT_cause r.val b) = 5 ∧ e.blockState r.val b = 0
        ∧ e.fld (BLK_CELL_RUN_run r.val b) = 0 ∧ e.fld (BLK_SEC_CTL_size r.val b) = 0 ∧ ∀ c < 8, ∀ x < 0x10000, e.byte (Dev.clmAddr (Dev.cellNo r.val b c) x) = 0))
  ∧ (∀ (r : Region) (b : Block) (value : Word) (s : State), s.dev.blockState r.val b.val ≠ 0 → Carried (.cellRunWrite r b value) s [] (fun e => True))
  ∧ (∀ (r : Region) (b : Block) (value : Word) (s : State), s.dev.blockState r.val b.val = 0 → Carried (.cellRunWrite r b value) s [.regs, .pairs, .mem, .poison, .wire, .ctxs, .cells, .thody, .mirror, .ledger, .requests] (fun e => e.fld (BLK_CELL_RUN_run r.val b.val) = value.toNat % 256
        ∧ (∀ c < 8, bitOf value.toNat c = true → bitOf (s.dev.fld (BLK_CELL_RUN_run r.val b.val)) c = false →
            (s.dev.ctx (Dev.cellNo r.val b.val c * 32 + 16)).mie = false →
            (e.ctx (Dev.cellNo r.val b.val c * 32 + 16)).mode = .running
              ∧ (e.ctx (Dev.cellNo r.val b.val c * 32 + 16)).pc = BitVec.ofNat 32 (s.dev.fld (BLK_SUP_ENTRY_entry r.val b.val) * 4))
        ∧ ∀ c < 8, bitOf value.toNat c = false → bitOf (s.dev.fld (BLK_CELL_RUN_run r.val b.val)) c = true →
            ∀ x < 0x10000, e.byte (Dev.clmAddr (Dev.cellNo r.val b.val c) x) = 0))

/-! ### Block memory -/

/-- SP_SCRUB of a good line changes nothing, but ends the pass after a wake at the last line of the last bank; one symbol in error counts
as corrected, and an uncorrectable line is poisoned and named by BLK_MEM_POISON. BLK_MEM_CLEAN of a scratchpad line zeroes its 32
bytes and clears its poison, and leaves every other byte and mark; a value whose valid bit is 0 sets cfg_rejected. BLK_IC_INV empties
the caches of the cells whose bits are 1 and changes no other cell. SEC_WIPE zeroes every byte of the partition and no other, sets
wiping, and records cause 4 unless a wipe was in progress. SEC_SIZE_WRITE with lock 0 outside RETURNED writes size and worker_rd, and
a changed size wipes the old partition and the new one with cause 3; with lock 1 it changes nothing. SEC_LOCK sets lock. SEC_WIPE_DONE
clears wiping and counts the wipe, saturating at 0xFF. -/
def Obligations.ScratchpadsAndSecurePartitions : Prop :=
  (∀ (r : Region) (b : Block) (bank line : Nat) (s : State), bank < 16 → line < 4096 → s.dev.blockState r.val b.val ≠ 2 → (bank ≠ 15 ∨ line ≠ 4095) → Carried (.spScrub r b bank line 0) s [] (fun e => True))
  ∧ (∀ (r : Region) (b : Block) (s : State), s.dev.blockState r.val b.val ≠ 2 → Carried (.spScrub r b 15 4095 0) s [.regs] (fun e => s.dev.Wrote (BLK_SP_SCRUB_wake_pass r.val b.val) 0 e ∧ s.dev.RegsIn [BLK_SP_SCRUB r.val b.val] e))
  ∧ (∀ (r : Region) (b : Block) (bank line : Nat) (s : State), bank < 16 → line < 4096 → s.dev.blockState r.val b.val ≠ 2 → s.dev.poisoned (padAddr r.val b.val (line * 512 + bank * 32)) = false → Carried (.spScrub r b bank line 1) s [.regs, .wire, .ctxs] (fun e => e.fld (BLK_SP_ECC_corrected r.val b.val) = min (2 ^ (BLK_SP_ECC_corrected r.val b.val).width - 1) (s.dev.fld (BLK_SP_ECC_corrected r.val b.val) + 1)
        ∧ e.on (BLK_MEM_ERR_corrected r.val b.val) = true ∧ s.dev.RegsSig [BLK_SP_ECC r.val b.val, BLK_MEM_ERR r.val b.val, BLK_SP_SCRUB r.val b.val] e))
  ∧ (∀ (r : Region) (b : Block) (bank line : Nat) (s : State), bank < 16 → line < 4096 → s.dev.blockState r.val b.val ≠ 2 → s.dev.poisoned (padAddr r.val b.val (line * 512 + bank * 32)) = false → Carried (.spScrub r b bank line 2) s [.regs, .mem, .poison, .wire, .line, .ctxs, .endpoints, .journal] (fun e => e.poisoned (padAddr r.val b.val (line * 512 + bank * 32)) = true ∧ e.on (BLK_MEM_ERR_uncorrectable r.val b.val) = true
        ∧ e.reg (BLK_MEM_POISON r.val b.val) = BitVec.ofNat 32 (2 ^ 31 + line * 512 + bank * 32)
        ∧ ∀ a < 2 ^ 64, e.byte a = s.dev.byte a))
  ∧ (∀ (r : Region) (b : Block) (line : Nat) (s : State), line < 65536 → Carried (.blkMemClean r b (BitVec.ofNat 32 (2 ^ 31 + line * 32))) s [.mem, .poison] (fun e => (∀ a, e.byte a = if padAddr r.val b.val (line * 32) ≤ a ∧ a < padAddr r.val b.val (line * 32) + 32 then 0 else s.dev.byte a)
        ∧ ∀ a, e.poisoned a = if padAddr r.val b.val (line * 32) ≤ a ∧ a < padAddr r.val b.val (line * 32) + 32 then false else s.dev.poisoned a))
  ∧ (∀ (r : Region) (b : Block) (value : Word) (s : State), bitOf value.toNat 31 = false → Carried (.blkMemClean r b value) s [.regs] (fun e => s.dev.Wrote (BLK_MEM_ERR_cfg_rejected r.val b.val) 1 e ∧ s.dev.RegsIn [BLK_MEM_ERR r.val b.val] e))
  ∧ (∀ (r : Region) (b : Block) (cells : Word) (s : State), Carried (.blkIcInv r b cells) s [.cells] (fun e => ∀ c, e.cell c = if (List.range 8).any (fun i => bitOf cells.toNat i && c == Dev.cellNo r.val b.val i) then { s.dev.cell c with icache := [] } else s.dev.cell c))
  ∧ (∀ (r : Region) (b : Block) (s : State), Carried (.secWipe r b) s [.regs, .mem, .poison, .wipes] (fun e => (∀ a, e.byte a = if padAddr r.val b.val (s.dev.secBase r.val b.val) ≤ a ∧ a < padAddr r.val b.val 0x200000 then 0 else s.dev.byte a)
        ∧ e.on (BLK_SEC_STAT_wiping r.val b.val) = true
        ∧ e.fld (BLK_SEC_STAT_cause r.val b.val) = (if s.dev.on (BLK_SEC_STAT_wiping r.val b.val) then s.dev.fld (BLK_SEC_STAT_cause r.val b.val) else 4)
        ∧ e.secBase r.val b.val = s.dev.secBase r.val b.val ∧ s.dev.RegsIn [BLK_SEC_STAT r.val b.val] e))
  ∧ (∀ (r : Region) (b : Block) (value : Word) (s : State), s.dev.on (BLK_SEC_CTL_lock r.val b.val) = true → Carried (.secSizeWrite r b value) s [] (fun e => True))
  ∧ (∀ (r : Region) (b : Block) (value : Word) (s : State), s.dev.on (BLK_SEC_CTL_lock r.val b.val) = false → s.dev.lifeCycle ≠ 4 → value.toNat % 4 ≠ s.dev.fld (BLK_SEC_CTL_size r.val b.val) → Carried (.secSizeWrite r b value) s [.regs, .mem, .poison, .wipes] (fun e => e.fld (BLK_SEC_CTL_size r.val b.val) = value.toNat % 4 ∧ e.fld (BLK_SEC_CTL_worker_rd r.val b.val) = bitsOf value.toNat 4 4
        ∧ (∀ a, e.byte a = if padAddr r.val b.val (min (s.dev.secBase r.val b.val) (e.secBase r.val b.val)) ≤ a ∧ a < padAddr r.val b.val 0x200000 then 0 else s.dev.byte a)
        ∧ e.on (BLK_SEC_STAT_wiping r.val b.val) = true ∧ s.dev.RegsIn [BLK_SEC_CTL r.val b.val, BLK_SEC_STAT r.val b.val] e))
  ∧ (∀ (r : Region) (b : Block) (value : Word) (s : State), s.dev.on (BLK_SEC_CTL_lock r.val b.val) = false → s.dev.lifeCycle ≠ 4 → value.toNat % 4 = s.dev.fld (BLK_SEC_CTL_size r.val b.val) → Carried (.secSizeWrite r b value) s [.regs] (fun e => s.dev.Wrote (BLK_SEC_CTL_worker_rd r.val b.val) (bitsOf value.toNat 4 4) e ∧ s.dev.RegsIn [BLK_SEC_CTL r.val b.val] e))
  ∧ (∀ (r : Region) (b : Block) (s : State), Carried (.secLock r b) s [.regs] (fun e => s.dev.Wrote (BLK_SEC_CTL_lock r.val b.val) 1 e ∧ s.dev.RegsIn [BLK_SEC_CTL r.val b.val] e))
  ∧ (∀ (r : Region) (b : Block) (s : State), s.dev.on (BLK_SEC_STAT_wiping r.val b.val) = true → s.dev.blockState r.val b.val ≠ 2 → Carried (.secWipeDone r b) s [.regs, .mem, .wire, .line, .ctxs, .endpoints, .journal, .wipes] (fun e => e.on (BLK_SEC_STAT_wiping r.val b.val) = false ∧ e.fld (BLK_SEC_STAT_wipes r.val b.val) = min 255 (s.dev.fld (BLK_SEC_STAT_wipes r.val b.val) + 1)
        ∧ e.fld (BLK_SEC_STAT_cause r.val b.val) = s.dev.fld (BLK_SEC_STAT_cause r.val b.val) ∧ e.wipeSize r.val b.val = 0))

/-! ### HBM -/

/-- HBM_REQUEST in READY that is admitted is performed after the ones that wait at its port for its pseudo-channel, which leave the queue:
where none waits, a write over unpoisoned columns that meets no error leaves exactly its bytes changed, and a read of good columns
leaves every byte. One that must wait joins the queue, and at a failed stack, or in a parked region that does not serve it, nothing
changes. HBM_NORMAL_AGE takes the oldest waiting normal request. HBM_ROW_IDLE_CLOSE closes one row. HBM_REFRESH_DUE outside a burst
leaves no debt and no row of the pseudo-channel open, and within one adds a round up to 8. HBM_SCRUB, run where it is on and no
request waits for the pseudo-channel, changes nothing at a good column, and poisons an uncorrectable one, names it, and withdraws the
stitches whose descriptors it holds. The third HBM_CA_PARITY_ERROR in a row on a pseudo-channel fails the stack. -/
def Obligations.HbmRequestsAreServed : Prop :=
  (∀ (r : Region) (port addr : Nat) (data : List Byte) (hint first last waits : Bool) (found latency : Nat) (s : State), port < 6 → addr + data.length ≤ 0x00540000000 → s.dev.hbmState r.val = 3 → (waits = true → s.dev.on (RGN_HBM_PORT_rt r.val port) = true) → (∀ i < data.length, s.dev.poisoned (r.val * 2 ^ 44 + addr + i) = false) → (Dev.partWrite addr data.length = false ∨ (found = 0 ∧ s.dev.rowBad r (Dev.partColumn addr data.length) = false)) → (∀ q ∈ (s.dev.g r).hbm.waiting, q.port ≠ port) → (s.dev.parked r.val = true → port = 0) → Carried (.hbmRequest r port true addr 0 data hint first last waits found latency) s [.regs, .mem, .poison, .wire, .ctxs, .hbm] (fun e => (∀ a, e.byte a = if r.val * 2 ^ 44 + addr ≤ a ∧ a < r.val * 2 ^ 44 + addr + data.length then data.getD (a - (r.val * 2 ^ 44 + addr)) 0 else s.dev.byte a)
        ∧ (e.g r).hbm.waiting = (s.dev.g r).hbm.waiting ∧ s.dev.RegsSig [RGN_HBM_REFRESH r.val, RGN_HBM_ERR r.val, RGN_HBM_WAIT r.val] e))
  ∧ (∀ (r : Region) (port addr len : Nat) (hint first last waits : Bool) (latency : Nat) (s : State), port < 6 → addr + len ≤ 0x00540000000 → s.dev.hbmState r.val = 3 → (waits = true → s.dev.on (RGN_HBM_PORT_rt r.val port) = true) → s.dev.rowBad r addr = false → (∀ q ∈ (s.dev.g r).hbm.waiting, q.port ≠ port) → (s.dev.parked r.val = true → port = 0) → Carried (.hbmRequest r port false addr len [] hint first last waits 0 latency) s [.regs, .wire, .ctxs, .hbm] (fun e => min 0xFFFF latency ≤ e.fld (if s.dev.on (RGN_HBM_PORT_rt r.val port) then RGN_HBM_WAIT_rt_max r.val else RGN_HBM_WAIT_nrt_max r.val)
        ∧ (e.g r).hbm.waiting = (s.dev.g r).hbm.waiting ∧ s.dev.RegsSig [RGN_HBM_REFRESH r.val, RGN_HBM_ERR r.val, RGN_HBM_WAIT r.val] e))
  ∧ (∀ (r : Region) (port : Nat) (write : Bool) (addr len : Nat) (data : List Byte) (hint first last waits : Bool) (found latency : Nat) (s : State), port < 6 → addr + (if write then data.length else len) ≤ 0x00540000000 → s.dev.hbmState r.val = 3 → (waits = true → s.dev.on (RGN_HBM_PORT_rt r.val port) = true) → (s.dev.parked r.val = true → port = 0) → Carried (.hbmRequest r port write addr len data hint first last waits found latency) s [.regs, .mem, .poison, .wire, .line, .ctxs, .endpoints, .pool, .journal, .hbm] (fun e => (e.g r).hbm.waiting = (s.dev.g r).hbm.waiting.filter (fun q =>
          !(q.port == port && s.dev.reqPc r q == (hbmPlace (s.dev.fld (RGN_HBM_CFG_order r.val)) addr).1))
        ∧ ∀ q, q ≠ r → (e.g q).hbm = (s.dev.g q).hbm))
  ∧ (∀ (r : Region) (port : Nat) (write : Bool) (addr len : Nat) (data : List Byte) (hint first last waits : Bool) (found latency : Nat) (s : State), port < 6 → addr + (if write then data.length else len) ≤ 0x00540000000 → s.dev.hbmState r.val ≠ 7 → (s.dev.hbmState r.val ≠ 3 ∨ (waits = true ∧ s.dev.on (RGN_HBM_PORT_rt r.val port) = false)) → (s.dev.parked r.val = true → port = 0 ∧ s.dev.hbmState r.val ≠ 4) → Carried (.hbmRequest r port write addr len data hint first last waits found latency) s [.hbm] (fun e => (e.g r).hbm = { (s.dev.g r).hbm with waiting := (s.dev.g r).hbm.waiting ++ [⟨port, write, addr, len, data, hint⟩] }
        ∧ ∀ q, q ≠ r → (e.g q).hbm = (s.dev.g q).hbm))
  ∧ (∀ (r : Region) (port : Nat) (write : Bool) (addr len : Nat) (data : List Byte) (hint first last waits : Bool) (found latency : Nat) (s : State), port < 6 → addr + (if write then data.length else len) ≤ 0x00540000000 → (s.dev.hbmState r.val = 7 ∨ (s.dev.parked r.val = true ∧ (port ≠ 0 ∨ s.dev.hbmState r.val = 4))) → Carried (.hbmRequest r port write addr len data hint first last waits found latency) s [] (fun e => True))
  ∧ (∀ (r : Region) (q : HbmReq) (s : State), s.dev.hbmState r.val = 3 → (s.dev.g r).hbm.waiting.find? (fun q => !s.dev.on (RGN_HBM_PORT_rt r.val q.port)) = some q → Carried (.hbmNormalAge r) s [.regs, .mem, .poison, .wire, .ctxs, .hbm] (fun e => (e.g r).hbm.waiting = (s.dev.g r).hbm.waiting.erase q ∧ 2048 ≤ e.fld (RGN_HBM_WAIT_nrt_max r.val) ∧ (q.write = false → ∀ a, e.byte a = s.dev.byte a)
        ∧ s.dev.RegsSig [RGN_HBM_ERR r.val, RGN_HBM_WAIT r.val] e))
  ∧ (∀ (r : Region) (pc bank : Nat) (s : State), pc < 32 → bank < 48 → Carried (.hbmRowIdleClose r pc bank) s [.hbm] (fun e => Sparse.get (fun _ => none) (e.g r).hbm.rows (pc * 48 + bank) = none
        ∧ (∀ k, k ≠ pc * 48 + bank → Sparse.get (fun _ => none) (e.g r).hbm.rows k = Sparse.get (fun _ => none) (s.dev.g r).hbm.rows k)
        ∧ (e.g r).hbm.waiting = (s.dev.g r).hbm.waiting ∧ (e.g r).hbm.debts = (s.dev.g r).hbm.debts))
  ∧ (∀ (r : Region) (pc : Nat) (s : State), s.dev.bursting r pc = false → Carried (.hbmRefreshDue r pc) s [.regs, .hbm] (fun e => Dev.pcGet (e.g r).hbm.debts pc = 0 ∧ (∀ b < 48, Sparse.get (fun _ => none) (e.g r).hbm.rows (pc * 48 + b) = none) ∧ s.dev.RegsIn [RGN_HBM_REFRESH r.val] e))
  ∧ (∀ (r : Region) (pc : Nat) (s : State), s.dev.bursting r pc = true → Carried (.hbmRefreshDue r pc) s [.regs, .hbm] (fun e => Dev.pcGet (e.g r).hbm.debts pc = min 8 (Dev.pcGet (s.dev.g r).hbm.debts pc + 1) ∧ min 8 (Dev.pcGet (s.dev.g r).hbm.debts pc + 1) ≤ e.fld (RGN_HBM_REFRESH_debt_max r.val)
        ∧ (∀ k, k ≠ pc → Dev.pcGet (e.g r).hbm.debts k = Dev.pcGet (s.dev.g r).hbm.debts k) ∧ s.dev.RegsIn [RGN_HBM_REFRESH r.val] e))
  ∧ (∀ (r : Region) (addr : Nat) (s : State), addr < 0x00540000000 → s.dev.hbmState r.val = 3 → s.dev.fld (RGN_HBM_SCRUB_interval r.val) ≠ 0 → (∀ q ∈ (s.dev.g r).hbm.waiting, s.dev.reqPc r q ≠ s.dev.rowKey r addr / (48 * 16384)) → s.dev.rowBad r addr = false → Carried (.hbmScrub r addr 0) s [] (fun e => True))
  ∧ (∀ (r : Region) (addr : Nat) (s : State), addr < 0x00540000000 → s.dev.hbmState r.val = 3 → s.dev.fld (RGN_HBM_SCRUB_interval r.val) ≠ 0 → (∀ q ∈ (s.dev.g r).hbm.waiting, s.dev.reqPc r q ≠ s.dev.rowKey r addr / (48 * 16384)) → s.dev.poisoned (r.val * 2 ^ 44 + addr / 32 * 32) = false → Carried (.hbmScrub r addr 2) s [.regs, .mem, .poison, .wire, .line, .ctxs, .endpoints, .pool, .journal, .hbm] (fun e => e.poisoned (r.val * 2 ^ 44 + addr) = true ∧ e.reg (RGN_HBM_POISON_LO r.val) = BitVec.ofNat 32 (addr / 32 * 32)
        ∧ e.reg (RGN_HBM_POISON_HI r.val) = BitVec.ofNat 32 (2 ^ 31 + addr / 2 ^ 32) ∧ (∀ a < 2 ^ 64, e.byte a = s.dev.byte a)
        ∧ ∀ h, s.dev.descColumn r addr = some h → e.withdrawn h = true))
  ∧ (∀ (r : Region) (pc : Nat) (s : State), Dev.pcGet (s.dev.g r).hbm.parity pc < 2 → Carried (.hbmCaParityError r pc) s [.hbm] (fun e => Dev.pcGet (e.g r).hbm.parity pc = Dev.pcGet (s.dev.g r).hbm.parity pc + 1
        ∧ ∀ k, k ≠ pc → Dev.pcGet (e.g r).hbm.parity k = Dev.pcGet (s.dev.g r).hbm.parity k))
  ∧ (∀ (r : Region) (pc : Nat) (s : State), Dev.pcGet (s.dev.g r).hbm.parity pc = 2 → s.dev.hbmState r.val ≠ 7 → Carried (.hbmCaParityError r pc) s [.regs, .mem, .wire, .line, .ctxs, .endpoints, .journal, .hbm] (fun e => e.hbmState r.val = 7 ∧ e.on (RGN_HBM_ERR_stack_failed r.val) = true ∧ (e.g r).hbm.waiting = [] ∧ e.fld (RGN_DEEP_FREE_deep_free r.val) = 0))

/-- HBM_GATHER starts a gathering in READY, and its end without drift clears it, with drift fails the stack. HBM_TEMP_SAMPLE below 95
shows the temperature, and below 90 ends a thermal step; at 95 or more at 9.6 Gb/s with thermal_step it requests 8.0; with the
catastrophic flag it fails the stack. HBM_RATE_WRITE outside LEAN writes rate_run and requests the rate; 2 and above are rejected.
HBM_FREQ_CHANGE applies the pending rate; HBM_FREQ_DONE, HBM_INIT_DONE, HBM_SELF_REFRESH_EXIT and HBM_RETRAIN_DONE return to READY
with no request waiting; HBM_INIT_DONE while the loader starts the part shows its self-test (the model, log entry 158).
HBM_TRAIN_RETRAIN is accepted in CONFIGURE and TEST from READY; HBM_ORDER_WRITE of another order in LOAD, CONFIGURE or TEST zeroes the
stack. -/
def Obligations.HbmRatesOrderAndTraining : Prop :=
  (∀ (r : Region) (drift : Bool) (s : State), s.dev.hbmState r.val = 3 → s.dev.fld (RGN_HBM_TRAIN_period r.val) ≠ 0 → Carried (.hbmGather r true drift) s [.regs] (fun e => s.dev.Wrote (RGN_HBM_STAT_gathering r.val) 1 e ∧ s.dev.RegsIn [RGN_HBM_STAT r.val] e))
  ∧ (∀ (r : Region) (s : State), s.dev.on (RGN_HBM_STAT_gathering r.val) = true → Carried (.hbmGather r false false) s [.regs] (fun e => s.dev.Wrote (RGN_HBM_STAT_gathering r.val) 0 e ∧ s.dev.RegsIn [RGN_HBM_STAT r.val] e))
  ∧ (∀ (r : Region) (s : State), s.dev.on (RGN_HBM_STAT_gathering r.val) = true → s.dev.hbmState r.val ≠ 7 → Carried (.hbmGather r false true) s [.regs, .mem, .wire, .line, .ctxs, .endpoints, .journal, .hbm] (fun e => e.hbmState r.val = 7 ∧ e.on (RGN_HBM_ERR_train_fail r.val) = true ∧ e.on (RGN_HBM_TRAIN_fail r.val) = true ∧ (e.g r).hbm.waiting = []))
  ∧ (∀ (r : Region) (temp : Nat) (s : State), temp < 95 → (s.dev.g r).hbm.stepped = false → Carried (.hbmTempSample r temp false) s [.regs] (fun e => s.dev.Wrote (RGN_HBM_STAT_temp r.val) temp e ∧ s.dev.RegsIn [RGN_HBM_STAT r.val] e))
  ∧ (∀ (r : Region) (temp : Nat) (s : State), temp < 90 → (s.dev.g r).hbm.stepped = true → Carried (.hbmTempSample r temp false) s [.regs, .hbm] (fun e => e.fld (RGN_HBM_STAT_temp r.val) = temp ∧ (e.g r).hbm = { (s.dev.g r).hbm with stepped := false, held := false } ∧ s.dev.RegsIn [RGN_HBM_STAT r.val] e
        ∧ ((s.dev.g r).hbm.held = true → (s.dev.g r).mode ≠ .lean → s.dev.hbmState r.val ≠ 7 → s.dev.fld (RGN_HBM_CFG_rate_run r.val) ≠ s.dev.fld (RGN_HBM_STAT_rate r.val)
          → e.on (RGN_HBM_STAT_pend_valid r.val) = true ∧ e.fld (RGN_HBM_STAT_pend_rate r.val) = s.dev.fld (RGN_HBM_CFG_rate_run r.val))))
  ∧ (∀ (r : Region) (temp : Nat) (s : State), 95 ≤ temp → s.dev.fld (RGN_HBM_STAT_rate r.val) = 0 → s.dev.on (RGN_HBM_CFG_thermal_step r.val) = true → s.dev.hbmState r.val ≠ 7 → Carried (.hbmTempSample r temp false) s [.regs, .wire, .ctxs, .hbm] (fun e => e.fld (RGN_HBM_STAT_temp r.val) = min 255 temp ∧ e.fld (RGN_HBM_STAT_pend_rate r.val) = 1 ∧ e.on (RGN_HBM_STAT_pend_valid r.val) = true
        ∧ (e.g r).hbm = { (s.dev.g r).hbm with stepped := true } ∧ s.dev.RegsSig [RGN_HBM_STAT r.val] e))
  ∧ (∀ (r : Region) (temp : Nat) (s : State), s.dev.hbmState r.val ≠ 7 → Carried (.hbmTempSample r temp true) s [.regs, .mem, .wire, .line, .ctxs, .endpoints, .journal, .hbm] (fun e => e.hbmState r.val = 7 ∧ e.on (RGN_HBM_ERR_stack_failed r.val) = true))
  ∧ (∀ (r : Region) (rate : Nat) (s : State), rate < 2 → (s.dev.g r).mode ≠ .lean → s.dev.hbmState r.val ≠ 7 → rate ≠ s.dev.fld (RGN_HBM_STAT_rate r.val) → (rate = 0 → (s.dev.g r).hbm.stepped = false ∨ s.dev.fld (RGN_HBM_STAT_temp r.val) < 90) → Carried (.hbmRateWrite r rate) s [.regs, .hbm] (fun e => e.fld (RGN_HBM_CFG_rate_run r.val) = rate ∧ e.fld (RGN_HBM_STAT_pend_rate r.val) = rate ∧ e.on (RGN_HBM_STAT_pend_valid r.val) = true
        ∧ (e.g r).hbm = { (s.dev.g r).hbm with held := false } ∧ s.dev.RegsIn [RGN_HBM_CFG r.val, RGN_HBM_STAT r.val] e))
  ∧ (∀ (r : Region) (rate : Nat) (s : State), 2 ≤ rate → Carried (.hbmRateWrite r rate) s [.regs, .wire, .ctxs] (fun e => e.on (RGN_HBM_ERR_cfg_rejected r.val) = true ∧ s.dev.RegsSig [RGN_HBM_ERR r.val] e))
  ∧ (∀ (r : Region) (s : State), s.dev.hbmState r.val = 3 → s.dev.on (RGN_HBM_STAT_gathering r.val) = false → s.dev.on (RGN_HBM_STAT_pend_valid r.val) = true → Carried (.hbmFreqChange r) s [.regs, .hbm] (fun e => e.fld (RGN_HBM_STAT_rate r.val) = s.dev.fld (RGN_HBM_STAT_pend_rate r.val) ∧ e.hbmState r.val = 5 ∧ e.on (RGN_HBM_STAT_pend_valid r.val) = false
        ∧ (e.g r).hbm = { (s.dev.g r).hbm with rows := [] } ∧ s.dev.RegsIn [RGN_HBM_STAT r.val] e))
  ∧ (∀ (r : Region) (s : State), s.dev.hbmState r.val = 5 → Carried (.hbmFreqDone r) s [.regs, .mem, .poison, .wire, .ctxs, .hbm] (fun e => e.hbmState r.val = 3 ∧ (e.g r).hbm.waiting = []))
  ∧ (∀ (r : Region) (s : State), (s.dev.g r).mode.isOpen = true → s.dev.hbmState r.val = 3 → Carried (.hbmTrainRetrain r) s [.regs] (fun e => e.hbmState r.val = 6 ∧ e.on (RGN_HBM_TRAIN_busy r.val) = true ∧ s.dev.RegsIn [RGN_HBM_STAT r.val, RGN_HBM_TRAIN r.val] e))
  ∧ (∀ (r : Region) (s : State), s.dev.hbmState r.val ≠ 3 → Carried (.hbmTrainRetrain r) s [.regs, .wire, .ctxs] (fun e => e.on (RGN_HBM_ERR_cfg_rejected r.val) = true ∧ s.dev.RegsSig [RGN_HBM_ERR r.val] e))
  ∧ (∀ (r : Region) (s : State), s.dev.hbmState r.val = 6 → Carried (.hbmRetrainDone r false) s [.regs, .mem, .poison, .wire, .line, .ctxs, .endpoints, .journal, .hbm] (fun e => e.hbmState r.val = 3 ∧ e.on (RGN_HBM_TRAIN_busy r.val) = false ∧ e.on (RGN_HBM_TRAIN_fail r.val) = false ∧ (e.g r).hbm.waiting = []))
  ∧ (∀ (r : Region) (s : State), s.dev.hbmState r.val = 6 → Carried (.hbmRetrainDone r true) s [.regs, .mem, .poison, .wire, .line, .ctxs, .endpoints, .journal, .hbm] (fun e => e.hbmState r.val = 7 ∧ e.on (RGN_HBM_TRAIN_busy r.val) = false ∧ e.on (RGN_HBM_TRAIN_fail r.val) = true ∧ (e.g r).hbm.waiting = []))
  ∧ (∀ (r : Region) (order : Nat) (s : State), ((s.dev.g r).mode = .load ∨ (s.dev.g r).mode.isOpen = true) → order % 4 ≠ s.dev.fld (RGN_HBM_CFG_order r.val) → s.dev.hbmState r.val ≠ 0 → s.dev.hbmState r.val ≠ 7 → Carried (.hbmOrderWrite r order) s [.regs, .mem, .poison, .hbm] (fun e => e.fld (RGN_HBM_CFG_order r.val) = order % 4 ∧ e.hbmState r.val = 2 ∧ (∀ a, e.byte a = if r.val * 2 ^ 44 ≤ a ∧ a < r.val * 2 ^ 44 + 0x00540000000 then 0 else s.dev.byte a)
        ∧ (e.g r).hbm.rows = [] ∧ s.dev.RegsIn [RGN_HBM_CFG r.val, RGN_HBM_STAT r.val] e))
  ∧ (∀ (r : Region) (order : Nat) (s : State), (s.dev.g r).mode ≠ .load → (s.dev.g r).mode.isOpen = false → Carried (.hbmOrderWrite r order) s [.regs, .wire, .ctxs] (fun e => e.on (RGN_HBM_ERR_cfg_rejected r.val) = true ∧ s.dev.RegsSig [RGN_HBM_ERR r.val] e))
  ∧ (∀ (r : Region) (s : State), s.dev.hbmState r.val = 2 → Carried (.hbmInitDone r) s [.regs, .mem, .poison, .wire, .ctxs, .hbm] (fun e => e.hbmState r.val = 3 ∧ (e.g r).hbm.waiting = []))
  ∧ (∀ (r : Region) (s : State), (s.dev.loader = 4 ∨ s.dev.loader = 5) → s.dev.hbmState r.val < 2 → bitOf (s.dev.fld (CHP_POPULATION_hbm s.dev.A)) r.val = true → s.dev.mladus r.val = true → Carried (.hbmInitDone r) s [.regs, .mem, .poison, .wire, .ctxs, .hbm] (fun e => e.hbmState r.val = 3 ∧ (e.g r).hbm.waiting = [] ∧ e.loader = 5))
  ∧ (∀ (r : Region) (s : State), s.dev.hbmState r.val = 4 → Carried (.hbmSelfRefreshExit r) s [.regs, .mem, .poison, .wire, .ctxs, .hbm] (fun e => e.hbmState r.val = 3 ∧ (e.g r).hbm.waiting = [] ∧ e.on (RGN_HBM_STAT_pend_valid r.val) = false
        ∧ e.fld (RGN_HBM_STAT_rate r.val) = s.dev.fld (if s.dev.on (RGN_HBM_STAT_pend_valid r.val) then RGN_HBM_STAT_pend_rate r.val else RGN_HBM_STAT_rate r.val)))

/-! ### Die-to-die links -/

/-- DATA_FLIT that its sender can send, on a link that takes flits: with no uncorrectable codeword and the expected sequence number, the
next number modulo 256 is expected, no NAK stands, and its slots come in; slots that break the rules of slots, or message headers that
break the tables, are a protocol error; otherwise it is discarded, a NAK stands and the same number is expected. IDLE and INIT change
the link states alone: IDLE without a valid ack adds its credits and leaves what is unacknowledged, INIT sets the six credits, which
are those of the table where a Mladus region sends them. NAK without a valid ack sends every unacknowledged flit once more and counts
the replays; where one has then been sent eight times, the module is FAILED. -/
def Obligations.FlitsAreAcceptedAcknowledgedAndReplayed : Prop :=
  (∀ (r : Region) (m : Fin 6) (header x p : Nat) (errors heads : List Nat) (waiting : List (List (List Nat))) (s : State), s.dev.facing r.val m.val = some (x, p) → (s.dev.mladus p = true → (s.dev.sentFlit (Dev.R p) (facingModule m.val) header heads waiting).isSome = true) → flitType header = 1 → s.dev.takesFlits r.val m.val = true → (∀ e ∈ errors, e < 2) → flitSeq header = (s.dev.link r m.val).expected → Carried (.dataFlit r m header errors heads waiting) s [.regs, .wire, .ctxs, .links] (fun e => (e.link r m.val).expected = (flitSeq header + 1) % 256 ∧ (e.link r m.val).nakSent = false
        ∧ (e.link r m.val).partIn = (takeSlotsIn (flitTags header) (heads.map headCont) (s.dev.link r m.val).partIn).1
        ∧ ((takeSlotsIn (flitTags header) (heads.map headCont) (s.dev.link r m.val).partIn).2 = false ∨ s.dev.headsOk r.val (flitTags header) heads = false → e.on (RGN_CF_ERR_protocol r.val) = true)
        ∧ s.dev.RegsSig [RGN_CF_LCNT r.val m.val, RGN_CF_ERR r.val] e))
  ∧ (∀ (r : Region) (m : Fin 6) (header x p : Nat) (errors heads : List Nat) (waiting : List (List (List Nat))) (s : State), s.dev.facing r.val m.val = some (x, p) → (s.dev.mladus p = true → (s.dev.sentFlit (Dev.R p) (facingModule m.val) header heads waiting).isSome = true) → flitType header = 1 → s.dev.takesFlits r.val m.val = true → ((∃ e ∈ errors, 2 ≤ e) ∨ flitSeq header ≠ (s.dev.link r m.val).expected) → Carried (.dataFlit r m header errors heads waiting) s [.regs, .wire, .ctxs, .links] (fun e => (e.link r m.val).expected = (s.dev.link r m.val).expected ∧ (e.link r m.val).nakSent = true ∧ s.dev.RegsSig [RGN_CF_LCNT r.val m.val] e))
  ∧ (∀ (r : Region) (m : Fin 6) (header : Nat) (s : State), flitType header = 0 → s.dev.takesFlits r.val m.val = true → flitAckValid header = false → Carried (.idle r m header) s [.links] (fun e => (∀ v < 6, (e.link r m.val).credits.getD v 0 = (s.dev.link r m.val).credits.getD v 0 + flitCredit header v)
        ∧ (e.link r m.val).unacked = (s.dev.link r m.val).unacked ∧ (e.link r m.val).nextSeq = (s.dev.link r m.val).nextSeq))
  ∧ (∀ (r : Region) (m : Fin 6) (header : Nat) (credits : List Nat) (s : State), flitType header = 3 → credits.length = 6 → s.dev.takesFlits r.val m.val = true → (((s.dev.facing r.val m.val).map (fun x => s.dev.mladus x.2)).getD false = true → credits = mladusCredits) → Carried (.init r m header credits) s [.links] (fun e => e.link r m.val = { s.dev.link r m.val with credits := credits } ∧ ∀ q i, (q, i) ≠ (r, m.val) → e.link q i = s.dev.link q i))
  ∧ (∀ (r : Region) (m : Fin 6) (header time : Nat) (s : State), flitType header = 2 → s.dev.takesFlits r.val m.val = true → flitAckValid header = false → (∀ f ∈ (s.dev.link r m.val).unacked, f.2 < 7) → Carried (.nak r m header time) s [.regs, .wire, .ctxs, .links] (fun e => (e.link r m.val).unacked = (s.dev.link r m.val).unacked.map (fun f => (f.1, f.2 + 1))
        ∧ e.fld (RGN_CF_LCNT_replays r.val m.val) = min 0xFFFF (s.dev.fld (RGN_CF_LCNT_replays r.val m.val) + (s.dev.link r m.val).unacked.length)
        ∧ s.dev.RegsSig [RGN_CF_LCNT r.val m.val] e))
  ∧ (∀ (r : Region) (m : Fin 6) (header time : Nat) (s : State), flitType header = 2 → s.dev.takesFlits r.val m.val = true → flitAckValid header = false → (∃ f ∈ (s.dev.link r m.val).unacked, 7 ≤ f.2) → (s.dev.facing r.val m.val).isSome = true → Carried (.nak r m header time) s [.regs, .mem, .wire, .line, .ctxs, .endpoints, .journal, .links, .routeDue] (fun e => e.linkState r.val m.val = 4 ∧ e.on (RGN_CF_ERR_module_failed r.val) = true))

/-- MODULE_FAILED of a module that faces a position leaves it FAILED with module_failed set, and where its sibling is UP, the sibling has
its unacknowledged flits. LANE_REPAIR of a module that is UP takes one more spare and leaves it in REPAIR, or FAILED where four are in
use. LINK_TRAINING_DONE from TRAINING or REPAIR with at most four spares leaves it UP, or HELD towards a guest that is not admitted,
with fresh link state in which the flits not yet acknowledged are sent anew, and, where it is UP, an echo on its way. LINK_REQ_UP
writes the request of a module that faces a position and is ignored otherwise. LINK_ADMIT moves a module to a guest between HELD and
UP, and is ignored towards a Mladus region. -/
def Obligations.ModulesFailTrainAndFollowRequests : Prop :=
  (∀ (r : Region) (m : Fin 6) (time : Nat) (s : State), (s.dev.facing r.val m.val).isSome = true → Carried (.moduleFailed r m time) s [.regs, .mem, .wire, .line, .ctxs, .endpoints, .journal, .links, .routeDue] (fun e => e.linkState r.val m.val = 4 ∧ e.on (RGN_CF_ERR_module_failed r.val) = true
        ∧ (s.dev.linkState r.val (Dev.siblingModule m.val) = 2 → (e.link r m.val).unacked = []
            ∧ (e.link r (Dev.siblingModule m.val)).unacked.length = (s.dev.link r (Dev.siblingModule m.val)).unacked.length + (s.dev.link r m.val).unacked.length)))
  ∧ (∀ (r : Region) (m : Fin 6) (time : Nat) (s : State), s.dev.linkState r.val m.val = 2 → s.dev.fld (RGN_CF_LINK_spares_used r.val m.val) < 4 → Carried (.laneRepair r m time) s [.regs, .links] (fun e => e.linkState r.val m.val = 3 ∧ e.fld (RGN_CF_LINK_spares_used r.val m.val) = s.dev.fld (RGN_CF_LINK_spares_used r.val m.val) + 1
        ∧ s.dev.RegsIn [RGN_CF_LINK r.val m.val] e))
  ∧ (∀ (r : Region) (m : Fin 6) (time : Nat) (s : State), s.dev.linkState r.val m.val = 2 → 4 ≤ s.dev.fld (RGN_CF_LINK_spares_used r.val m.val) → (s.dev.facing r.val m.val).isSome = true → Carried (.laneRepair r m time) s [.regs, .mem, .wire, .line, .ctxs, .endpoints, .journal, .links, .routeDue] (fun e => e.linkState r.val m.val = 4 ∧ e.on (RGN_CF_ERR_module_failed r.val) = true))
  ∧ (∀ (r : Region) (m : Fin 6) (spares time x p : Nat) (s : State), s.dev.facing r.val m.val = some (x, p) → (s.dev.linkState r.val m.val = 1 ∨ s.dev.linkState r.val m.val = 3) → spares ≤ 4 → Carried (.linkTrainingDone r m spares time) s [.regs, .mem, .wire, .line, .ctxs, .endpoints, .journal, .links, .routeDue] (fun e => e.linkState r.val m.val = (if s.dev.guest p = true ∧ s.dev.on (RGN_CF_LINK_admit r.val m.val) = false then 5 else 2)
        ∧ e.fld (RGN_CF_LINK_spares_used r.val m.val) = spares ∧ e.link r m.val = { linkDefault 0 with
            nextSeq := s.dev.leftOver r m.val % 256, unacked := (List.range (s.dev.leftOver r m.val)).map (fun i => (i % 256, 1)) }
        ∧ (s.dev.guest p = false ∨ s.dev.on (RGN_CF_LINK_admit r.val m.val) = true → ⟨r.val, p, .echoReq (s.dev.freeNat 0)⟩ ∈ e.wire)))
  ∧ (∀ (r : Region) (m : Fin 6) (spares time x p : Nat) (s : State), s.dev.facing r.val m.val = some (x, p) → (s.dev.linkState r.val m.val = 1 ∨ s.dev.linkState r.val m.val = 3) → 4 < spares → Carried (.linkTrainingDone r m spares time) s [.regs, .mem, .wire, .line, .ctxs, .endpoints, .journal, .links, .routeDue] (fun e => e.linkState r.val m.val = 4 ∧ e.on (RGN_CF_ERR_module_failed r.val) = true))
  ∧ (∀ (r : Region) (m : Fin 6) (up : Bool) (s : State), (s.dev.facing r.val m.val).isSome = true → Carried (.linkReqUp r m up) s [.regs, .thody, .ledger] (fun e => s.dev.Wrote (RGN_CF_LINK_req_up r.val m.val) (if up then 1 else 0) e ∧ s.dev.RegsIn [RGN_CF_LINK r.val m.val] e ∧ (e.unit r 5 m.val).mismatch = 0))
  ∧ (∀ (r : Region) (m : Fin 6) (up : Bool) (s : State), s.dev.facing r.val m.val = none → Carried (.linkReqUp r m up) s [] (fun e => True))
  ∧ (∀ (r : Region) (m : Fin 6) (allow : Bool) (x p : Nat) (s : State), s.dev.facing r.val m.val = some (x, p) → s.dev.guest p = true → Carried (.linkAdmit r m allow) s [.regs] (fun e => e.fld (RGN_CF_LINK_admit r.val m.val) = (if allow then 1 else 0) ∧ s.dev.RegsIn [RGN_CF_LINK r.val m.val] e
        ∧ e.linkState r.val m.val = (if allow = true ∧ s.dev.linkState r.val m.val = 5 then 2
            else if allow = false ∧ s.dev.linkState r.val m.val = 2 then 5 else s.dev.linkState r.val m.val)))
  ∧ (∀ (r : Region) (m : Fin 6) (allow : Bool) (x p : Nat) (s : State), s.dev.facing r.val m.val = some (x, p) → s.dev.guest p = false → Carried (.linkAdmit r m allow) s [] (fun e => True))

/-! ### Fabric and host accesses -/

/-- RD and WR of 1 to 256 bytes for the host in the open part of the scratchpad of a block that is awake, over unpoisoned lines: RD
answers OK with the bytes and changes nothing else; WR writes exactly its bytes and acknowledges with OK. A length of zero or above
256 is a protocol error. AMO on an aligned unpoisoned word adds or swaps it, answers with the previous value and changes no other
byte. A request for whose response the target holds no RSP credit stays in flight and changes nothing. TARGET_BUSY takes an unserved
RD off the wire and answers BUSY. -/
def Obligations.RequestsAreServedAtTheirTarget : Prop :=
  (∀ (r src : Region) (b : Block) (x len hint tag : Nat) (s : State), s.dev.guest r.val = false → s.dev.guest src.val = false → 0 < len → len ≤ 256 → x + len ≤ s.dev.secBase r.val b.val → s.dev.blockState r.val b.val = 0 → (∀ i < len, s.dev.poisoned (padAddr r.val b.val x + i) = false) → s.dev.inTurn src.val r.val (.rd (padAddr r.val b.val x) len 0 hint tag) = true → s.dev.rspRoom r src (.rdData .ok tag (List.replicate len 0)) = true → Carried (.rd r src (padAddr r.val b.val x) len 0 hint tag) s [.wire] (fun e => e.wire = s.dev.wire.erase ⟨src.val, r.val, .rd (padAddr r.val b.val x) len 0 hint tag⟩
        ++ [⟨r.val, src.val, .rdData .ok tag (s.dev.bytes (padAddr r.val b.val x) len)⟩]))
  ∧ (∀ (r src : Region) (addr len holder hint tag : Nat) (s : State), (len = 0 ∨ 256 < len) → s.dev.inTurn src.val r.val (.rd addr len holder hint tag) = true → Carried (.rd r src addr len holder hint tag) s [.regs, .wire, .ctxs] (fun e => e.on (RGN_CF_ERR_protocol r.val) = true ∧ s.dev.RegsSig [RGN_CF_ERR r.val] e))
  ∧ (∀ (r src : Region) (addr len holder hint tag : Nat) (s : State), (1 ≤ len ∧ len ≤ 256) → s.dev.inTurn src.val r.val (.rd addr len holder hint tag) = true → s.dev.rspRoom r src (.rdData .ok tag (List.replicate len 0)) = false → Carried (.rd r src addr len holder hint tag) s [] (fun e => True))
  ∧ (∀ (r src : Region) (b : Block) (x len hint tag : Nat) (data : List Byte) (s : State), s.dev.guest r.val = false → s.dev.guest src.val = false → 0 < len → len ≤ 256 → x + len ≤ s.dev.secBase r.val b.val → s.dev.blockState r.val b.val = 0 → data.length = len → (∀ i < len, s.dev.poisoned (padAddr r.val b.val x + i) = false) → s.dev.inTurn src.val r.val (.wr (padAddr r.val b.val x) len 0 hint tag data) = true → s.dev.rspRoom r src (.wrAck .ok tag) = true → Carried (.wr r src (padAddr r.val b.val x) len 0 hint tag data) s [.mem, .poison, .wire] (fun e => (∀ a, e.byte a = if padAddr r.val b.val x ≤ a ∧ a < padAddr r.val b.val x + len then data.getD (a - padAddr r.val b.val x) 0 else s.dev.byte a)
        ∧ e.wire = s.dev.wire.erase ⟨src.val, r.val, .wr (padAddr r.val b.val x) len 0 hint tag data⟩ ++ [⟨r.val, src.val, .wrAck .ok tag⟩]))
  ∧ (∀ (r src : Region) (b : Block) (x hint tag operand : Nat) (swap : Bool) (s : State), s.dev.guest r.val = false → s.dev.guest src.val = false → x % 4 = 0 → x + 4 ≤ s.dev.secBase r.val b.val → s.dev.blockState r.val b.val = 0 → s.dev.poisoned (padAddr r.val b.val x) = false → operand < 2 ^ 32 → s.dev.inTurn src.val r.val (.amo swap (padAddr r.val b.val x) 0 hint tag operand) = true → s.dev.rspRoom r src (.amoData .ok tag 0) = true → Carried (.amo r src swap (padAddr r.val b.val x) 0 hint tag operand) s [.regs, .mem, .wire, .ctxs] (fun e => e.le (padAddr r.val b.val x) 4 = (if swap then operand else (s.dev.le (padAddr r.val b.val x) 4 + operand) % 2 ^ 32)
        ∧ (∀ a, a < padAddr r.val b.val x ∨ padAddr r.val b.val x + 4 ≤ a → e.byte a = s.dev.byte a)
        ∧ ⟨r.val, src.val, .amoData .ok tag (s.dev.le (padAddr r.val b.val x) 4)⟩ ∈ e.wire ∧ s.dev.RegsSig [] e))
  ∧ (∀ (r src : Region) (addr len holder hint tag : Nat) (l m : List Flight) (s : State), s.dev.wire = l ++ ⟨src.val, r.val, .rd addr len holder hint tag⟩ :: m → (∀ f ∈ l, ¬ (f.src = src.val ∧ f.dst = r.val)) → Carried (.targetBusy r src tag) s [.wire] (fun e => e.wire = l ++ m ++ [⟨r.val, src.val, .rdData .busy tag []⟩]))

/-- RD_DATA with OK writes the loaded value, extended, into the register of the context whose load has the tag; AMO_DATA the previous
value; WR_ACK with OK changes no context; each takes the request off the outstanding ones. A response without a request is counted as
late, whatever its kind. REQUEST_TIMEOUT of a host's read counts the timeout and completes the read with Completer Abort. BAR2_ACCESS
in LOAD reads and writes the image space; outside LOAD without an enabled window it is refused with Unsupported Request. -/
def Obligations.ResponsesCompleteTheirRequests : Prop :=
  (∀ (r src : Region) (tag dst k rd width : Nat) (signed fence : Bool) (pc addr : Word) (data : List Byte) (s : State), (s.dev.g r).requests.find? (fun q => q.tag == tag) = some ⟨tag, dst, .load k rd width signed fence pc addr⟩ → rd ≠ 0 → s.dev.inTurn src.val r.val (.rdData .ok tag data) = true → Carried (.rdData r src .ok tag data) s [.wire, .ctxs, .requests] (fun e => e.xreg k rd = Dev.extend width signed (ofLE data) ∧ (∀ i, i ≠ rd → e.xreg k i = s.dev.xreg k i) ∧ (∀ j, j ≠ k → e.ctx j = s.dev.ctx j)
        ∧ (e.g r).requests = (s.dev.g r).requests.erase ⟨tag, dst, .load k rd width signed fence pc addr⟩))
  ∧ (∀ (r src : Region) (tag dst k rd previous : Nat) (order : Bool) (pc addr : Word) (s : State), (s.dev.g r).requests.find? (fun q => q.tag == tag) = some ⟨tag, dst, .amo k rd order pc addr⟩ → rd ≠ 0 → previous < 2 ^ 32 → s.dev.inTurn src.val r.val (.amoData .ok tag previous) = true → Carried (.amoData r src .ok tag previous) s [.wire, .ctxs, .requests] (fun e => e.xreg k rd = BitVec.ofNat 32 previous ∧ (∀ i, i ≠ rd → e.xreg k i = s.dev.xreg k i) ∧ (∀ j, j ≠ k → e.ctx j = s.dev.ctx j)
        ∧ (e.g r).requests = (s.dev.g r).requests.erase ⟨tag, dst, .amo k rd order pc addr⟩))
  ∧ (∀ (r src : Region) (tag dst k : Nat) (fence : Bool) (pc addr : Word) (s : State), (s.dev.g r).requests.find? (fun q => q.tag == tag) = some ⟨tag, dst, .store k fence pc addr⟩ → s.dev.inTurn src.val r.val (.wrAck .ok tag) = true → Carried (.wrAck r src .ok tag) s [.wire, .requests] (fun e => (e.g r).requests = (s.dev.g r).requests.erase ⟨tag, dst, .store k fence pc addr⟩ ∧ e.wire = s.dev.wire.erase ⟨src.val, r.val, .wrAck .ok tag⟩))
  ∧ (∀ (r src : Region) (st : Status) (tag previous : Nat) (data : List Byte) (c : Instr) (m : Msg) (s : State), (∀ q ∈ (s.dev.g r).requests, q.tag ≠ tag) → (c, m) ∈ [(Instr.rdData r src st tag data, Msg.rdData st tag data), (.wrAck r src st tag, .wrAck st tag), (.amoData r src st tag previous, .amoData st tag previous)] → s.dev.inTurn src.val r.val (m) = true → Carried c s [.regs, .wire, .ctxs] (fun e => e.fld (RGN_CF_TOCNT_late r.val) = min 0xFFFF (s.dev.fld (RGN_CF_TOCNT_late r.val) + 1) ∧ s.dev.RegsSig [RGN_CF_TOCNT r.val] e))
  ∧ (∀ (r : Region) (tag dst ep : Nat) (s : State), (s.dev.g r).requests.find? (fun q => q.tag == tag) = some ⟨tag, dst, .hostRead ep⟩ → ep < 2 → Carried (.requestTimeout r tag) s [.regs, .wire, .line, .ctxs, .endpoints, .requests] (fun e => e.fld (RGN_CF_TOCNT_timeouts r.val) = min 0xFFFF (s.dev.fld (RGN_CF_TOCNT_timeouts r.val) + 1) ∧ e.on (RGN_CF_ERR_timeout r.val) = true
        ∧ .completion ep 2 [] ∈ e.line ∧ (e.g r).requests = (s.dev.g r).requests.erase ⟨tag, dst, .hostRead ep⟩))
  ∧ (∀ (ep : Endpoint) (addr len : Nat) (s : State), s.dev.mode = .load → 0 < len → addr + len ≤ 0x2000000 → Carried (.bar2Access ep addr false len []) s [.line] (fun e => e.line = s.dev.line ++ [.completion ep.val 0 (s.dev.bytes (s.dev.imageAddr addr) len)]))
  ∧ (∀ (ep : Endpoint) (addr : Nat) (data : List Byte) (s : State), s.dev.mode = .load → data ≠ [] → addr + data.length ≤ 0x2000000 → s.dev.imageOpen = true → Carried (.bar2Access ep addr true 0 data) s [.mem] (fun e => ∀ a, e.byte a = if s.dev.imageAddr addr ≤ a ∧ a < s.dev.imageAddr addr + data.length then data.getD (a - s.dev.imageAddr addr) 0 else s.dev.byte a))
  ∧ (∀ (ep : Endpoint) (addr len : Nat) (s : State), s.dev.mode ≠ .load → (∀ n < 16, s.dev.on (CHP_B2W_CTL_enable s.dev.A ep.val n) = false) → Carried (.bar2Access ep addr false len []) s [.regs, .wire, .line, .ctxs, .endpoints] (fun e => e.on (HST_EP_ERR_b2_refused ep.val) = true ∧ .completion ep.val 1 [] ∈ e.line ∧ s.dev.RegsSig [HST_EP_ERR ep.val] e))

/-! ### The front-ends and placement -/

/-- FRAME_RECEIVE at a port that is not in service changes nothing. A frame below 60 bytes is discarded and counted in runt_ctl; in DRAIN
a frame in the size range is counted in drained. A good frame that the pool and the task store take becomes the next packet: its stamp
holds the source port, its class, the next sequence number of the port, the tick and the time of arrival; its chain is the one taken;
and the port's sequence number advances. -/
def Obligations.FramesAreCountedOrStamped : Prop :=
  (∀ (r : Region) (p : Port) (frame : List Byte) (fcsOk fecBad : Bool) (corrected time ns sec : Nat) (s : State), s.dev.portTakes r p.val = false → Carried (.frameReceive r p frame fcsOk fecBad corrected time ns sec) s [] (fun _ => True))
  ∧ (∀ (r : Region) (p : Port) (frame : List Byte) (fcsOk fecBad : Bool) (corrected time ns sec : Nat) (s : State), s.dev.portTakes r p.val = true → frame.length < 60 → Carried (.frameReceive r p frame fcsOk fecBad corrected time ns sec) s [.regs, .wire, .ctxs] (fun e => e.fld (RGN_PORT_DISC_runt_ctl r.val p.val) = min 0xFFFF (s.dev.fld (RGN_PORT_DISC_runt_ctl r.val p.val) + 1)
        ∧ e.fld (RGN_PORT_FEC_corrected r.val p.val) = min 0xFFFF (s.dev.fld (RGN_PORT_FEC_corrected r.val p.val) + corrected)
        ∧ s.dev.RegsSig [RGN_PORT_DISC r.val p.val, RGN_PORT_FEC r.val p.val] e))
  ∧ (∀ (r : Region) (p : Port) (frame : List Byte) (fcsOk fecBad : Bool) (corrected time ns sec : Nat) (s : State), s.dev.portTakes r p.val = true → 60 ≤ frame.length → Dev.macControl frame = false → frame.length ≤ s.dev.fld (RGN_PORT_CFG_max_frame r.val p.val) → (s.dev.g r).mode = .drain → Carried (.frameReceive r p frame fcsOk fecBad corrected time ns sec) s [.regs, .wire, .ctxs] (fun e => e.fld (RGN_PORT_DRAIN_drained r.val p.val) = min 0xFFFFFFFF (s.dev.fld (RGN_PORT_DRAIN_drained r.val p.val) + 1)
        ∧ s.dev.RegsSig [RGN_PORT_DRAIN r.val p.val, RGN_PORT_FEC r.val p.val] e))
  ∧ (∀ (r : Region) (p : Port) (frame : List Byte) (corrected time ns sec h : Nat) (s : State), s.dev.portTakes r p.val = true → 60 ≤ frame.length → Dev.macControl frame = false → frame.length ≤ s.dev.fld (RGN_PORT_CFG_max_frame r.val p.val) → (s.dev.g r).mode ≠ .drain → (Dev.takeIn (s.dev.addSat (RGN_PORT_FEC_corrected r.val p.val) corrected) r p.val (s.dev.frameClass r p.val frame) frame.length).2 = .ok h → (s.dev.g r).dispatch.pressed = false → (s.dev.g r).dispatch.general < s.dev.generalPool r → Carried (.frameReceive r p frame true false corrected time ns sec) s [.regs, .mem, .wire, .line, .ctxs, .packets, .nextPacket, .endpoints, .pool, .egress, .front, .dispatch, .journal] (fun e => e.nextPacket = s.dev.nextPacket + 1 ∧ (∀ m, m ≠ s.dev.nextPacket → e.pkt m = s.dev.pkt m)
        ∧ e.nextSeq r (r.val * 8 + p.val) = s.dev.nextSeq r (r.val * 8 + p.val) + 1
        ∧ ∃ q, e.pkt s.dev.nextPacket = some q ∧ q.stage = .stamped ∧ q.length = frame.length ∧ q.head = h
          ∧ q.stamp = ⟨r.val * 8 + p.val, s.dev.frameClass r p.val frame, s.dev.nextSeq r (r.val * 8 + p.val), (s.dev.g r).tick, time % 2 ^ 13⟩))

/-- FRONT_END_PASS of the packet that is next, where a front-end has a slot left: of a stamped packet it takes a first-pass slot; unless
the pass drops the packet, it keeps its stamp and has one pass more, the tag of the pane in force and the target two ticks after its
stamp for each pass. Of a packet recirculated, it takes a slot of the share while share and reserve hold one, and otherwise drops the
packet. FIRST_PASS_DEADLINE and RECIRC_PASS_DEADLINE drop the packet they find waiting, and in a run mode leave every other packet
alone. -/
def Obligations.PassesAndTheirDeadlinesAreServed : Prop :=
  (∀ (n : Nat) (p : Packet) (s : State), s.dev.pkt n = some p → p.stage = .stamped → s.dev.passNext (Dev.R p.region) n p = true → s.dev.slotLeft (Dev.R p.region) = true → Carried (.frontEndPass n) s [.regs, .mem, .wire, .line, .ctxs, .packets, .endpoints, .commit, .pool, .egress, .front, .dispatch, .journal] (fun e => (e.g (Dev.R p.region)).front.firstUsed = (s.dev.g (Dev.R p.region)).front.firstUsed + 1
        ∧ (∀ q, e.pkt n = some q → q.stamp = p.stamp ∧ q.pass = p.pass + 1 ∧ (q.pane, q.paneGen) = s.dev.paneTag (Dev.R p.region) p
          ∧ q.paneKnown = true ∧ q.target = (p.stamp.tick + 2 * (p.pass + 1)) % 2 ^ 48)
        ∧ ((s.dev.g (Dev.R p.region)).mode.isRun = true → ∀ m, m ≠ n → e.pkt m = s.dev.pkt m)))
  ∧ (∀ (n : Nat) (p : Packet) (s : State), s.dev.pkt n = some p → p.stage = .front → s.dev.passNext (Dev.R p.region) n p = true → s.dev.slotLeft (Dev.R p.region) = true → (s.dev.g (Dev.R p.region)).front.recircUsed < s.dev.fld (RGN_RECIRC_CTL_share (Dev.R p.region).val) → (s.dev.g (Dev.R p.region)).dispatch.recirc < s.dev.fld (RGN_DSP_CTL_recirc_reserve (Dev.R p.region).val) → Carried (.frontEndPass n) s [.regs, .mem, .wire, .line, .ctxs, .packets, .endpoints, .commit, .pool, .egress, .front, .dispatch, .journal] (fun e => (e.g (Dev.R p.region)).front.recircUsed = (s.dev.g (Dev.R p.region)).front.recircUsed + 1
        ∧ (∀ q, e.pkt n = some q → q.stamp = p.stamp ∧ q.pass = p.pass + 1 ∧ q.pane = p.pane ∧ q.paneGen = p.paneGen
          ∧ q.target = (p.stamp.tick + 2 * (p.pass + 1)) % 2 ^ 48)
        ∧ ((s.dev.g (Dev.R p.region)).mode.isRun = true → ∀ m, m ≠ n → e.pkt m = s.dev.pkt m)))
  ∧ (∀ (n : Nat) (p : Packet) (s : State), s.dev.pkt n = some p → p.stage = .front → s.dev.passNext (Dev.R p.region) n p = true → s.dev.slotLeft (Dev.R p.region) = true → s.dev.fld (RGN_RECIRC_CTL_share (Dev.R p.region).val) ≤ (s.dev.g (Dev.R p.region)).front.recircUsed → Carried (.frontEndPass n) s [.regs, .mem, .wire, .line, .ctxs, .packets, .endpoints, .commit, .pool, .egress, .front, .dispatch, .journal] (fun e => e.pkt n = none ∧ ((s.dev.g (Dev.R p.region)).mode.isRun = true → ∀ m, m ≠ n → e.pkt m = s.dev.pkt m)))
  ∧ (∀ (n : Nat) (s : State), Carried (.firstPassDeadline n) s [.regs, .mem, .wire, .line, .ctxs, .packets, .endpoints, .commit, .pool, .egress, .dispatch, .journal] (fun e => e.pkt n = (if (s.dev.pkt n).map (·.stage) = some .stamped then none else s.dev.pkt n)
        ∧ ((s.dev.pkt n).map (·.stage) ≠ some .stamped → ∀ m, e.pkt m = s.dev.pkt m)
        ∧ ((∀ p, s.dev.pkt n = some p → (s.dev.g (Dev.R p.region)).mode.isRun = true) → ∀ m, m ≠ n → e.pkt m = s.dev.pkt m)))
  ∧ (∀ (n : Nat) (s : State), Carried (.recircPassDeadline n) s [.regs, .mem, .wire, .line, .ctxs, .packets, .endpoints, .commit, .pool, .egress, .dispatch, .journal] (fun e => e.pkt n = (if (s.dev.pkt n).map (·.stage) = some .front then none else s.dev.pkt n)
        ∧ ((s.dev.pkt n).map (·.stage) ≠ some .front → ∀ m, e.pkt m = s.dev.pkt m)
        ∧ ((∀ p, s.dev.pkt n = some p → (s.dev.g (Dev.R p.region)).mode.isRun = true) → ∀ m, m ≠ n → e.pkt m = s.dev.pkt m)))

/-- LOOKUP_COMPLETE of a program takes the lookup off its context and writes a valid result line, unpoisoned, for a live one; of a packet
it takes the lookup off the packet. DISPATCH_PLACEMENT puts the task chosen last among those placed on the chosen worker, with the
next number. PLACEMENT_DEADLINE unplaces exactly the queued packets whose window ends at the next shutter. WINDOW_WRITE writes the 512
bytes of a placed packet's window into its frame and nothing else, and a worker that waits for them runs, or will run when it is no
longer halted. PACKET_START gives an idle worker its next packet, at the packet's entry with the block's budget. -/
def Obligations.LookupsAndPlacementsReachTheirWorker : Prop :=
  (∀ (r : Region) (u : CtxId) (i : Nat) (bad : List Nat) (table result length : Nat) (key : List Byte) (s : State), (s.dev.ctx (Dev.ctxNo u)).outstanding[i]? = some (.lookup table key result length true) → Carried (.lookupComplete r (.ctx u i) bad) s [.regs, .mem, .poison, .wire, .line, .ctxs, .packets, .endpoints, .commit, .tables, .pool, .egress, .dispatch, .journal] (fun e => (e.ctx (Dev.ctxNo u)).outstanding = (s.dev.ctx (Dev.ctxNo u)).outstanding.eraseIdx i ∧ e.poisoned (Dev.clmAddr ((Dev.ctxNo u) / 32) result) = false
        ∧ 128 ≤ (e.byte (Dev.clmAddr ((Dev.ctxNo u) / 32) result)).toNat))
  ∧ (∀ (r : Region) (n slot : Nat) (bad : List Nat) (p : Packet) (s : State), s.dev.pkt n = some p → (∃ k ∈ p.lookups, k.slot = slot) → Carried (.lookupComplete r (.packet n slot) bad) s [.regs, .mem, .poison, .wire, .line, .ctxs, .packets, .endpoints, .commit, .tables, .pool, .egress, .dispatch, .journal] (fun e => (∀ q, e.pkt n = some q → q.stamp = p.stamp ∧ ∀ k ∈ q.lookups, k.slot ≠ slot) ∧ ((s.dev.g (Dev.R p.region)).mode.isRun = true → ∀ m, m ≠ n → e.pkt m = s.dev.pkt m)))
  ∧ (∀ (r : Region) (wait b q n k : Nat) (p : Packet) (s : State), s.dev.nextPlacement r = some (b, q, n, k) → s.dev.pkt n = some p → Carried (.dispatchPlacement r wait) s [.regs, .wire, .ctxs, .packets, .dispatch] (fun e => (e.ctx k).placed = (s.dev.ctx k).placed ++ [⟨n, (s.dev.ctx k).placedCount, p.target, false, false⟩]
        ∧ (e.pkt n).map (·.stage) = some (.placed k) ∧ (e.g r).dispatch.lastBlock = b
        ∧ (e.g r).dispatch.placements = (s.dev.g r).dispatch.placements ++ [(p.target, k)]
        ∧ ∀ m, m ≠ n → e.pkt m = s.dev.pkt m))
  ∧ (∀ (r : Region) (waits : List Nat) (s : State), Carried (.placementDeadline r waits) s [.regs, .wire, .ctxs, .packets, .dispatch] (fun e => ∀ n p, s.dev.pkt n = some p →
        if (p.target + s.dev.windowTicks r) % 2 ^ 48 = ((s.dev.g r).tick + 1) % 2 ^ 48 ∧ (∃ x ∈ (s.dev.g r).dispatch.ready, n ∈ x.2)
        then (e.pkt n).map (·.stage) = some .unplaced else e.pkt n = some p))
  ∧ (∀ (n k : Nat) (p : Packet) (x : Placed) (s : State), s.dev.pkt n = some p → p.stage = .placed k → (s.dev.ctx k).placed.find? (·.pkt == n) = some x → x.ready = false → s.dev.frameFree k x = true → Carried (.windowWrite n) s [.mem, .poison, .ctxs] (fun e => (∀ a, e.byte a = if Dev.clmAddr (k / 32) (Dev.frameOff k x.number) ≤ a ∧ a < Dev.clmAddr (k / 32) (Dev.frameOff k x.number) + 512
          then (s.dev.windowBytes p).getD (a - Dev.clmAddr (k / 32) (Dev.frameOff k x.number)) 0 else s.dev.byte a)
        ∧ (e.ctx k).placed.find? (·.pkt == n) = some { x with ready := true }
        ∧ (e.ctx k).mode = (if (s.dev.ctx k).mode = .fillWait ∧ (s.dev.ctx k).held = some n then .running else (s.dev.ctx k).mode)
        ∧ (e.ctx k).haltedFrom = (if (s.dev.ctx k).mode = .debugHalted ∧ (s.dev.ctx k).held = some n ∧ (s.dev.ctx k).haltedFrom = .fillWait
            then .running else (s.dev.ctx k).haltedFrom)))
  ∧ (∀ (u : CtxId) (x : Placed) (p : Packet) (s : State), s.dev.ctxRuns (Dev.ctxNo u) = true → u.ctx.val ≠ 16 → (s.dev.ctx (Dev.ctxNo u)).mode = .idle → (s.dev.ctx (Dev.ctxNo u)).held = none → s.dev.nextStart (Dev.ctxNo u) = some x → s.dev.pkt x.pkt = some p → Carried (.packetStart u) s [.regs, .wire, .ctxs] (fun e => (e.ctx (Dev.ctxNo u)).held = some x.pkt ∧ (e.ctx (Dev.ctxNo u)).mode = (if x.ready then .running else .fillWait) ∧ (e.ctx (Dev.ctxNo u)).pc = BitVec.ofNat 32 (p.entry * 4)
        ∧ (e.ctx (Dev.ctxNo u)).budget = s.dev.fld (BLK_BUDGET_budget u.region.val u.block.val) ∧ e.xreg (Dev.ctxNo u) 2 = (s.dev.ctx (Dev.ctxNo u)).sp
        ∧ e.xreg (Dev.ctxNo u) 10 = BitVec.ofNat 32 (Dev.frameOff (Dev.ctxNo u) x.number)))

/-! ### Release, rewrite and transmission -/

/-- RELEASE_REC of a shutter still to come joins the records of its region; one whose list has closed or whose shutter is past sets
release_late. RELEASE_MARK notes a marker for the present shutter and none for another, and the last one missing closes the list;
RELEASE_DEADLINE closes an open list whatever is missing: no record of that shutter is left. REWRITE_COMPLETE of the copy that is next
writes its head segment, where its outcome is still open. ENQ_OUTCOME notes the outcome of a copy not rewritten yet; a refusal settles
the copy and counts it off its packet; an accepted rewritten copy is handed to the requester named. -/
def Obligations.ReleaseListsCloseAndCopiesSettle : Prop :=
  (∀ (r src : Region) (x : ReleaseRec) (s : State), x.transit ≠ 0 → Dev.tickAfter (Dev.releaseAt x) (s.dev.g r).tick = true → s.dev.inTurn src.val r.val (.releaseRec x) = true → Carried (.releaseRec r src x) s [.regs, .wire, .egress] (fun e => (e.g r).egress.records = (s.dev.g r).egress.records ++ [x] ∧ e.wire = s.dev.wire.erase ⟨src.val, r.val, .releaseRec x⟩
        ∧ s.dev.RegsIn [RGN_INFLIGHT r.val] e))
  ∧ (∀ (r src : Region) (x : ReleaseRec) (s : State), x.transit ≠ 0 → Dev.tickAfter (Dev.releaseAt x) (s.dev.g r).tick = false → ((s.dev.g r).egress.closed = true ∨ Dev.releaseAt x ≠ (s.dev.g r).tick) → s.dev.inTurn src.val r.val (.releaseRec x) = true → Carried (.releaseRec r src x) s [.regs, .mem, .wire, .line, .ctxs, .packets, .endpoints, .commit, .pool, .egress, .journal] (fun e => e.on (RGN_RELEASE_ERR_release_late r.val) = true ∧ (e.g r).egress.records = (s.dev.g r).egress.records))
  ∧ (∀ (r src : Region) (s : State), src.val ∉ (s.dev.g r).egress.markers → (∃ q ∈ s.dev.others r, s.dev.fenced q.val = false ∧ q ≠ src ∧ q.val ∉ (s.dev.g r).egress.markers) → s.dev.inTurn src.val r.val (.releaseMark (s.dev.g r).tick) = true → Carried (.releaseMark r src (s.dev.g r).tick) s [.wire, .egress] (fun e => (e.g r).egress.markers = (s.dev.g r).egress.markers ++ [src.val] ∧ (e.g r).egress.closed = (s.dev.g r).egress.closed
        ∧ e.wire = s.dev.wire.erase ⟨src.val, r.val, .releaseMark (s.dev.g r).tick⟩))
  ∧ (∀ (r src : Region) (s : State), (s.dev.g r).egress.closed = false → (∀ q ∈ s.dev.others r, s.dev.fenced q.val = false → q ≠ src → q.val ∈ (s.dev.g r).egress.markers) → s.dev.inTurn src.val r.val (.releaseMark (s.dev.g r).tick) = true → Carried (.releaseMark r src (s.dev.g r).tick) s [.regs, .mem, .wire, .line, .ctxs, .packets, .endpoints, .commit, .pool, .egress, .journal] (fun e => (e.g r).egress.closed = true ∧ (e.g r).egress.records = (s.dev.g r).egress.records.filter (fun x => Dev.releaseAt x != (s.dev.g r).tick)))
  ∧ (∀ (r src : Region) (shutter : Nat) (s : State), shutter ≠ (s.dev.g r).tick → s.dev.inTurn src.val r.val (.releaseMark shutter) = true → Carried (.releaseMark r src shutter) s [.wire] (fun e => e.wire = s.dev.wire.erase ⟨src.val, r.val, .releaseMark shutter⟩))
  ∧ (∀ (r : Region) (s : State), Carried (.releaseDeadline r) s [.regs, .mem, .wire, .line, .ctxs, .packets, .endpoints, .commit, .pool, .egress, .journal] (fun e => (e.g r).egress.closed = true ∧ (e.g r).egress.records = if (s.dev.g r).egress.closed then (s.dev.g r).egress.records
        else (s.dev.g r).egress.records.filter (fun x => Dev.releaseAt x != (s.dev.g r).tick)))
  ∧ (∀ (r : Region) (stamp : Stamp) (copy h : Nat) (poisoned : Bool) (c : Copyout) (p : Packet) (s : State), s.dev.copyout r stamp copy = some c → s.dev.pkt c.record.pkt = some p → c.mirror = false → c.head = none → c.outcome = none → s.dev.rewriteDue r c = true → s.dev.rewriteNext r c = true → (s.dev.makeHead r p c.rewrite c.shared).2 = some h → Carried (.rewriteComplete r stamp copy poisoned) s [.regs, .mem, .wire, .line, .ctxs, .packets, .endpoints, .commit, .pool, .egress, .journal] (fun e => e.copyout r stamp copy = some { c with head := some h } ∧ e.pkt c.record.pkt = some { p with consumed := p.consumed || (s.dev.plainHead p && !c.shared) }
        ∧ ∀ m, m ≠ c.record.pkt → e.pkt m = s.dev.pkt m))
  ∧ (∀ (r src : Region) (outcome : Nat) (stamp : Stamp) (copy requester : Nat) (c : Copyout) (s : State), s.dev.copyout r stamp copy = some c → c.mirror = false → c.head = none → outcome ≠ 2 → s.dev.inTurn src.val r.val (.enqOutcome outcome stamp copy requester) = true → Carried (.enqOutcome r src outcome stamp copy requester) s [.wire, .egress] (fun e => e.copyout r stamp copy = some { c with outcome := some outcome } ∧ e.wire = s.dev.wire.erase ⟨src.val, r.val, .enqOutcome outcome stamp copy requester⟩))
  ∧ (∀ (r src : Region) (stamp : Stamp) (copy requester : Nat) (c : Copyout) (p : Packet) (s : State), s.dev.copyout r stamp copy = some c → s.dev.pkt c.record.pkt = some p → c.mirror = false → s.dev.inTurn src.val r.val (.enqOutcome 2 stamp copy requester) = true → Carried (.enqOutcome r src 2 stamp copy requester) s [.regs, .mem, .wire, .line, .ctxs, .packets, .endpoints, .commit, .pool, .egress, .journal] (fun e => e.copyout r stamp copy = none ∧ e.pkt c.record.pkt = if p.copies ≤ 1 then none else some { p with copies := p.copies - 1 }))
  ∧ (∀ (r src : Region) (outcome : Nat) (stamp : Stamp) (copy requester h : Nat) (c : Copyout) (p : Packet) (s : State), s.dev.copyout r stamp copy = some c → s.dev.pkt c.record.pkt = some p → c.mirror = false → c.head = some h → outcome ≠ 2 → c.record.host = false → 1 < p.copies → s.dev.held h = true → (s.dev.desc h).owner = requesterId r.val reqPkt → s.dev.inTurn src.val r.val (.enqOutcome outcome stamp copy requester) = true → Carried (.enqOutcome r src outcome stamp copy requester) s [.wire, .egress, .packets, .pool] (fun e => e.copyout r stamp copy = none ∧ e.desc h = { s.dev.desc h with owner := requester } ∧ (∀ x, handleRegion x ≠ handleRegion h ∨ handleKey x ≠ handleKey h → e.desc x = s.dev.desc x)
        ∧ e.pkt c.record.pkt = some { p with copies := p.copies - 1 }))

/-- SPILL_COPY_DONE with a deep chain puts the copy in the place of the original and ends its backlog. SCHEDULE_DECISION of an idle port
with its link up and no poisoned head takes the head of the queue selected. BODY_RD answers with the stitch at the handle, its
descriptor and its bytes. BODY_DATA of the last stitch is taken by the transmit unit that asked. TRANSMIT_COMPLETE sends the bytes
gathered, padded to 60, and frees the unit; a frame in error is dropped with code 0x0E. -/
def Obligations.FramesAreScheduledReadAndSent : Prop :=
  (∀ (r : Region) (queue : Nat) (stamp : Stamp) (copy h : Nat) (x : QueueEntry) (s : State), (s.dev.queue r queue).find? (fun x => (x.record.stamp == stamp && x.record.copy == copy) && x.spilling && x.ready) = some x → ((s.dev.modEgress r fun g => { g with spillBacklog := g.spillBacklog - x.stitches }).alloc r reqSpill 1 (s.dev.fld (RGN_EQ_CFG_pfc_class r.val queue)) (Dev.stitchSizes (min (Dev.sentLength x) (s.dev.chainBytes 512 x.head 0).1.length))).2 = .ok h → Carried (.spillCopyDone r queue stamp copy) s [.regs, .mem, .wire, .line, .ctxs, .endpoints, .pool, .egress, .journal] (fun e => (∃ y ∈ e.queue r queue, y.head = h ∧ y.spilling = false ∧ y.bySpill = false ∧ y.record.stamp = stamp ∧ y.record.copy = copy)
        ∧ (e.g r).egress.spillBacklog = (s.dev.g r).egress.spillBacklog - x.stitches))
  ∧ (∀ (r : Region) (p : Port) (q : Nat) (x : QueueEntry) (t : List QueueEntry) (s : State), s.dev.sending r p.val = none → (s.dev.unit r 1 p.val).effective ≠ 0 → s.dev.linkUp r p.val = true → s.dev.portTrades r p.val = true → (∀ k ∈ s.dev.portQueues r p.val, ∀ y ∈ (s.dev.queue r k).head?, y.record.poisoned = false) → (s.dev.nextQueue r p.val).map (·.2) = some q → s.dev.queue r q = x :: t → Carried (.scheduleDecision r p) s [.regs, .wire, .egress, .requests, .nextTag] (fun e => e.queue r q = t ∧ (∃ y, e.sending r p.val = some y ∧ y.queue = q ∧ y.entry = x) ∧ ∀ k, k ≠ q → e.queue r k = s.dev.queue r k))
  ∧ (∀ (r : Region) (p : Port) (ns sec : Nat) (x : Sending) (s : State), s.dev.sending r p.val = some x → x.next = none → x.bad = false → Carried (.transmitComplete r p ns sec) s [.regs, .mem, .wire, .line, .ctxs, .packets, .endpoints, .commit, .pool, .egress, .journal] (fun e => e.sending r p.val = none ∧ ∃ pad : List Byte, pad.length = 60 - (x.got.take (Dev.sentLength x.entry)).length
        ∧ .frame r.val p.val (x.got.take (Dev.sentLength x.entry) ++ pad) ∈ e.line))
  ∧ (∀ (r : Region) (p : Port) (ns sec : Nat) (x : Sending) (s : State), s.dev.sending r p.val = some x → x.next = none → x.bad = true → Carried (.transmitComplete r p ns sec) s [.regs, .mem, .wire, .line, .ctxs, .packets, .endpoints, .commit, .pool, .egress, .journal] (fun e => e.sending r p.val = none ∧ e.pair (RGN_DROP_LO r.val 0x0E) (RGN_DROP_HI r.val 0x0E) = min (2 ^ 48 - 1) (s.dev.pair (RGN_DROP_LO r.val 0x0E) (RGN_DROP_HI r.val 0x0E) + 1)))
  ∧ (∀ (r src : Region) (handle tag : Nat) (s : State), s.dev.inTurn src.val r.val (.bodyRd handle tag) = true → s.dev.rspRoom r src (.bodyData .ok tag 0 (List.replicate 256 0)) = true → Carried (.bodyRd r src handle tag) s [.wire] (fun e => e.wire = s.dev.wire.erase ⟨src.val, r.val, .bodyRd handle tag⟩
        ++ [⟨r.val, src.val, .bodyData (s.dev.readStitch handle).1 tag (s.dev.desc handle).word (s.dev.readStitch handle).2.2⟩]))
  ∧ (∀ (r src : Region) (tag descriptor dst p : Nat) (data : List Byte) (x : Sending) (s : State), (s.dev.g r).requests.find? (fun q => q.tag == tag) = some ⟨tag, dst, .body p⟩ → s.dev.sending r p = some x → bitOf descriptor 62 = true → s.dev.inTurn src.val r.val (.bodyData .ok tag descriptor data) = true → Carried (.bodyData r src .ok tag descriptor data) s [.wire, .egress, .requests] (fun e => e.sending r p = some (Dev.takeStitch x .ok (descOfWord descriptor) data) ∧ (e.g r).requests = (s.dev.g r).requests.erase ⟨tag, dst, .body p⟩
        ∧ ∀ k, k ≠ p → e.sending r k = s.dev.sending r k))

/-! ### Pauses, storms and port links -/

/-- PFC_FRAME over distinct classes pauses or resumes each class the port honours that is not in a storm, and no other. PFC_PAUSE_EXPIRY
resumes its class. PFC_PAUSE_REPEAT sends the pause again while the class is sent and its stitches have not fallen below xon, or to
none. STORM_DECLARE after storm_ticks ticks flushes the port's queues of the class, sets the storm bit and raises the error; STORM_END
ends it. LINK_DOWN and LINK_UP set the link's status; a link down is to be flushed. PTS_INFO_READ pops the oldest timestamp into its
registers. -/
def Obligations.PausesStormsAndPortLinks : Prop :=
  (∀ (r : Region) (p : Port) (quanta : List (Nat × Nat)) (s : State), (quanta.map (·.1)).Nodup → Carried (.pfcFrame r p quanta) s [.regs, .wire, .ctxs, .egress] (fun e => (∀ x ∈ quanta, x.1 < 8 → bitOf (s.dev.fld (RGN_EP_PFC_rx_mask r.val p.val)) x.1 = true → (s.dev.pause r p.val x.1).storm = false →
          (e.pause r p.val x.1).paused = decide (x.2 ≠ 0) ∧ (e.pause r p.val x.1).quanta = x.2 % 65536
            ∧ bitOf (e.fld (RGN_EP_STAT_paused r.val p.val)) x.1 = decide (x.2 ≠ 0))
        ∧ (∀ c < 8, c ∉ quanta.map (·.1) → e.pause r p.val c = s.dev.pause r p.val c)
        ∧ s.dev.RegsSig [RGN_EP_STAT r.val p.val] e))
  ∧ (∀ (r : Region) (p : Port) (cls : Nat) (s : State), (s.dev.pause r p.val cls).paused = true → cls < 8 → Carried (.pfcPauseExpiry r p cls) s [.regs, .egress] (fun e => e.pause r p.val cls = { s.dev.pause r p.val cls with paused := false, quanta := 0 } ∧ bitOf (e.fld (RGN_EP_STAT_paused r.val p.val)) cls = false
        ∧ s.dev.RegsIn [RGN_EP_STAT r.val p.val] e))
  ∧ (∀ (r : Region) (p : Port) (cls : Nat) (s : State), Carried (.pfcPauseRepeat r p cls) s [.line] (fun e => e.line = s.dev.line ++ if (s.dev.pause r p.val cls).sent = true ∧ max 1 (s.dev.fld (RGN_ADM_PFC_xon r.val p.val)) ≤ s.dev.occupancy r p.val cls
        then [.pause r.val p.val cls (s.dev.fld (RGN_PORT_PFC_pfc_quanta r.val p.val))] else []))
  ∧ (∀ (r : Region) (p : Port) (cls : Nat) (s : State), (s.dev.pause r p.val cls).paused = true → (s.dev.pause r p.val cls).storm = false → s.dev.fld (RGN_EP_PFC_storm_ticks r.val p.val) ≤ Dev.ticksAhead (s.dev.g r).tick (s.dev.pause r p.val cls).since → Carried (.stormDeclare r p cls) s [.regs, .mem, .wire, .line, .ctxs, .packets, .endpoints, .commit, .pool, .egress, .journal] (fun e => (e.pause r p.val cls).storm = true ∧ (e.pause r p.val cls).paused = false ∧ e.on (RGN_EQ_ERR_storm r.val) = true
        ∧ ∀ q ∈ s.dev.portQueues r p.val, s.dev.fld (RGN_EQ_CFG_pfc_class r.val q) = cls → e.queue r q = []))
  ∧ (∀ (r : Region) (p : Port) (cls : Nat) (s : State), (s.dev.pause r p.val cls).storm = true → s.dev.fld (RGN_EP_PFC_storm_ticks r.val p.val) ≤ Dev.ticksAhead (s.dev.g r).tick (s.dev.pause r p.val cls).lastFrame → cls < 8 → Carried (.stormEnd r p cls) s [.regs, .egress] (fun e => e.pause r p.val cls = { s.dev.pause r p.val cls with storm := false } ∧ bitOf (e.fld (RGN_EP_STAT_storm r.val p.val)) cls = false
        ∧ s.dev.RegsIn [RGN_EP_STAT r.val p.val] e))
  ∧ (∀ (r : Region) (p : Port) (s : State), s.dev.linkUp r p.val = true → Carried (.linkDown r p) s [.regs, .wire, .ctxs, .egress] (fun e => e.linkUp r p.val = false ∧ e.fld (RGN_PORT_STAT_lane_lock r.val p.val) = 0 ∧ p.val ∈ (e.g r).egress.linkFlush ∧ s.dev.RegsSig [RGN_PORT_STAT r.val p.val] e))
  ∧ (∀ (r : Region) (p : Port) (s : State), (s.dev.unit r 1 p.val).effective ≠ 0 → s.dev.linkUp r p.val = false → Carried (.linkUp r p) s [.regs, .wire, .ctxs] (fun e => e.linkUp r p.val = true ∧ e.fld (RGN_PORT_STAT_lane_lock r.val p.val) = (2 ^ s.dev.fld (RGN_PORT_CFG_lanes r.val p.val) - 1) % 256
        ∧ s.dev.RegsSig [RGN_PORT_STAT r.val p.val] e))
  ∧ (∀ (r : Region) (p : Port) (x : PtsEntry) (t : List PtsEntry) (s : State), s.dev.ptsFifo r p.val = x :: t → Carried (.ptsInfoRead r p) s [.regs, .egress] (fun e => e.ptsFifo r p.val = t ∧ e.reg (RGN_PTS_NS r.val p.val) = BitVec.ofNat 32 x.ns ∧ e.reg (RGN_PTS_SEC r.val p.val) = BitVec.ofNat 32 x.sec
        ∧ s.dev.RegsIn [RGN_PTS_STAT r.val p.val, RGN_PTS_NS r.val p.val, RGN_PTS_SEC r.val p.val] e))

/-! ### Pools -/

/-- ALLOC within quota, with the lists above the rewrite floor, takes the stitches at the front of the requester's cache, links them as
one chain that it owns with the byte counts asked for, and lowers the free count; beyond the quota it changes nothing. FREE by the
owner frees every stitch of an unreferenced chain and leaves a referenced one SHARED; an issuer that is no requester or another one is
counted and reported as abuse, and no descriptor changes. HANDOVER by the owner names the new owner. ADDREF and DEREF of a privileged
requester, and RETURN of a transmit unit for one, move the reference count by one. POOL_OP performs the remote FREE, DEREF or RETURN
that it carries. FREE_CACHE_REFILL fills a cache below 32 entries up to 64 behind the entries it holds. Where one of them finds the
descriptor's line uncorrectable, its four stitches are withdrawn, and out of the caches, and desc_poison is set. -/
def Obligations.PoolOperationsActOnChains : Prop :=
  (∀ (r : Region) (l pool cls : Nat) (sizes : List Nat) (s : State), sizes ≠ [] → sizes.length ≤ 64 → (∀ n ∈ sizes, 0 < n ∧ n ≤ 256) → allocates r.val l pool = true → pool ≤ 1 → s.dev.withinQuota r l sizes.length = true → s.dev.aboveFloor r l pool = true → sizes.length ≤ (s.dev.cache r l pool).length → ((s.dev.cache r l pool).take sizes.length).Nodup → (∀ i ∈ s.dev.cache r l pool, i < 2 ^ 25) → Carried (.alloc r l pool cls sizes) s [.regs, .wire, .ctxs, .pool] (fun e => e.cache r l pool = (s.dev.cache r l pool).drop sizes.length ∧ e.poolFree r.val pool = s.dev.poolFree r.val pool - sizes.length
        ∧ ∀ i < sizes.length, let x := e.desc (handleOf r.val pool ((s.dev.cache r l pool).getD i 0))
          x.alloc = true ∧ x.owner = requesterId r.val l ∧ x.bytes = sizes.getD i 0 ∧ x.refcnt = 0 ∧ x.last = decide (i + 1 = sizes.length)))
  ∧ (∀ (r : Region) (l pool cls : Nat) (sizes : List Nat) (s : State), sizes ≠ [] → sizes.length ≤ 64 → (∀ n ∈ sizes, 0 < n ∧ n ≤ 256) → allocates r.val l pool = true → s.dev.withinQuota r l sizes.length = false → Carried (.alloc r l pool cls sizes) s [] (fun _ => True))
  ∧ (∀ (issuer h : Nat) (s : State), named issuer = true → (s.dev.desc h).owner = issuer → (s.dev.desc h).refcnt = 0 → (∀ x ∈ h :: s.dev.chain 512 h, s.dev.held x = true) → Carried (.free issuer h false) s [.regs, .mem, .wire, .line, .ctxs, .endpoints, .pool, .egress, .journal] (fun e => ∀ x ∈ s.dev.chain 512 h, (e.desc x).alloc = false))
  ∧ (∀ (issuer h : Nat) (s : State), named issuer = true → s.dev.held h = true → (s.dev.desc h).owner = issuer → (s.dev.desc h).refcnt ≠ 0 → Carried (.free issuer h false) s [.pool] (fun e => e.desc h = { s.dev.desc h with owner := requesterId (handleRegion h) 0xFF } ∧ ∀ x, handleRegion x ≠ handleRegion h ∨ handleKey x ≠ handleKey h → e.desc x = s.dev.desc x))
  ∧ (∀ (issuer h : Nat) (s : State), (named issuer = false ∨ (s.dev.held h = true ∧ (s.dev.desc h).owner ≠ issuer)) → Carried (.free issuer h false) s [.regs, .mem, .wire, .line, .ctxs, .endpoints, .journal] (fun e => e.fld (RGN_BPM_ABUSE_CNT_non_owner (handleRegion h)) = min 0xFF (s.dev.fld (RGN_BPM_ABUSE_CNT_non_owner (handleRegion h)) + 1)
        ∧ e.on (RGN_BPM_ERR_abuse (handleRegion h)) = true ∧ e.reg (RGN_BPM_ABUSE_LO (handleRegion h)) = BitVec.ofNat 32 h))
  ∧ (∀ (issuer h dest : Nat) (s : State), named issuer = true → s.dev.held h = true → (s.dev.desc h).owner = issuer → Carried (.handover issuer h dest false) s [.pool] (fun e => e.desc h = { s.dev.desc h with owner := dest } ∧ ∀ x, handleRegion x ≠ handleRegion h ∨ handleKey x ≠ handleKey h → e.desc x = s.dev.desc x))
  ∧ (∀ (issuer h : Nat) (s : State), privileged (issuer % 256) = true → s.dev.held h = true → (s.dev.desc h).refcnt ≠ 255 → Carried (.addref issuer h false) s [.pool] (fun e => e.desc h = { s.dev.desc h with refcnt := (s.dev.desc h).refcnt + 1 } ∧ ∀ x, handleRegion x ≠ handleRegion h ∨ handleKey x ≠ handleKey h → e.desc x = s.dev.desc x))
  ∧ (∀ (issuer h : Nat) (s : State), privileged (issuer % 256) = true → s.dev.held h = true → 1 < (s.dev.desc h).refcnt → Carried (.deref issuer h false) s [.pool] (fun e => e.desc h = { s.dev.desc h with refcnt := (s.dev.desc h).refcnt - 1 } ∧ ∀ x, handleRegion x ≠ handleRegion h ∨ handleKey x ≠ handleKey h → e.desc x = s.dev.desc x))
  ∧ (∀ (issuer holder h : Nat) (s : State), 0x18 ≤ issuer % 256 → issuer % 256 ≤ 0x20 → privileged (holder % 256) = true → s.dev.held h = true → 1 < (s.dev.desc h).refcnt → Carried (.returnRef issuer holder h false) s [.pool] (fun e => e.desc h = { s.dev.desc h with refcnt := (s.dev.desc h).refcnt - 1 } ∧ ∀ x, handleRegion x ≠ handleRegion h ∨ handleKey x ≠ handleKey h → e.desc x = s.dev.desc x))
  ∧ (∀ (r src : Region) (kind h issuer holder : Nat) (s : State), (kind = 2 ∧ privileged (issuer % 256) = true ∨ kind = 3 ∧ 0x18 ≤ issuer % 256 ∧ issuer % 256 ≤ 0x20 ∧ privileged (holder % 256) = true) → s.dev.held h = true → 1 < (s.dev.desc h).refcnt → s.dev.inTurn src.val r.val (.poolOp kind h issuer holder) = true → Carried (.poolOp r src kind h issuer holder false) s [.wire, .pool] (fun e => e.wire = s.dev.wire.erase ⟨src.val, r.val, .poolOp kind h issuer holder⟩ ∧ e.desc h = { s.dev.desc h with refcnt := (s.dev.desc h).refcnt - 1 } ∧ ∀ x, handleRegion x ≠ handleRegion h ∨ handleKey x ≠ handleKey h → e.desc x = s.dev.desc x))
  ∧ (∀ (r src : Region) (h issuer holder : Nat) (s : State), named issuer = true → (s.dev.desc h).owner = issuer → (s.dev.desc h).refcnt = 0 → (∀ x ∈ h :: s.dev.chain 512 h, s.dev.held x = true) → s.dev.inTurn src.val r.val (.poolOp 1 h issuer holder) = true → Carried (.poolOp r src 1 h issuer holder false) s [.regs, .mem, .wire, .line, .ctxs, .endpoints, .pool, .egress, .journal] (fun e => ∀ x ∈ s.dev.chain 512 h, (e.desc x).alloc = false))
  ∧ (∀ (r : Region) (l pool : Nat) (s : State), allocates r.val l pool = true → (pool = 1 ∨ l = 0x10 ∧ pool = 0) → (s.dev.cache r l pool).length < 32 → (∀ k < 8, k + 8 * ((s.dev.freeList r pool k).popped + 64 + (s.dev.g r).pool.lost.length) < min (2 ^ 25) (s.dev.poolSize r.val pool)) → Carried (.freeCacheRefill r l pool none) s [.regs, .mem, .wire, .line, .ctxs, .endpoints, .pool, .journal] (fun e => (e.cache r l pool).length = 64 ∧ s.dev.cache r l pool <+: e.cache r l pool ∧ s.dev.RegsIn [RGN_BPM_USED r.val l] e))
  ∧ (∀ (r : Region) (l pool : Nat) (s : State), allocates r.val l pool = true → 32 ≤ (s.dev.cache r l pool).length → Carried (.freeCacheRefill r l pool none) s [] (fun _ => True))
  ∧ (∀ (issuer holder h dest : Nat) (c : Instr) (s : State), s.dev.withdrawn h = false → c ∈ [Instr.free issuer h true, .handover issuer h dest true, .addref issuer h true, .deref issuer h true, .returnRef issuer holder h true] → Carried c s [.ctxs, .egress, .endpoints, .journal, .line, .mem, .pool, .regs, .wire] (fun e => e.on (RGN_BPM_ERR_desc_poison (handleRegion h)) = true ∧ (∀ x ∈ Dev.lineMates h, e.withdrawn x = true) ∧ ∀ x, e.desc x = s.dev.desc x))
  ∧ (∀ (r src : Region) (kind h issuer holder : Nat) (s : State), s.dev.withdrawn h = false → (1 ≤ kind ∧ kind ≤ 3) → s.dev.inTurn src.val r.val (.poolOp kind h issuer holder) = true → Carried (.poolOp r src kind h issuer holder true) s [.regs, .mem, .wire, .line, .ctxs, .endpoints, .pool, .egress, .journal] (fun e => e.on (RGN_BPM_ERR_desc_poison (handleRegion h)) = true ∧ (∀ x ∈ Dev.lineMates h, e.withdrawn x = true) ∧ ∀ x, e.desc x = s.dev.desc x))
  ∧ (∀ (r : Region) (l pool i : Nat) (s : State), allocates r.val l pool = true → pool ≤ 1 → i < s.dev.poolSize r.val pool → i < 2 ^ 25 → s.dev.withdrawn (handleOf r.val pool i) = false → Carried (.freeCacheRefill r l pool (some i)) s [.regs, .mem, .wire, .line, .ctxs, .endpoints, .pool, .journal] (fun e => e.on (RGN_BPM_ERR_desc_poison r.val) = true ∧ (∀ x ∈ Dev.lineMates (handleOf r.val pool i), e.withdrawn x = true)
        ∧ i ∉ e.cache r l pool))

/-! ### Rings of the host -/

/-- QP_TX_DOORBELL, QP_RX_DOORBELL and UR_DOORBELL record a producer index at most the ring size ahead of the consumer index, and no
other; one further ahead is ignored and sets ring_err. TX_DESCRIPTOR_TAKE without admission, or without a front-end slot left over for
it, changes nothing; with it, the pair whose turn it is starts the read its descriptor names and takes a task entry, and a descriptor
of zero length completes at once with NOOP, or ZERO_LENGTH under A1 compatibility. TX_DMA_COMPLETE of a failed read completes the
descriptor with DMA and sets dma_err; of a good one that admission takes, a packet of the endpoint's port is stamped and the
descriptor completes with OK. -/
def Obligations.DoorbellsAndTransmitDescriptors : Prop :=
  (∀ (ep : Endpoint) (q : Fin 512) (pi : Fin 65536) (s : State), Dev.ringAhead pi.val (s.dev.fld (HST_QP_CI_tx_ci ep.val q.val)) ≤ 2 ^ s.dev.fld (HST_QP_CFG_tx_log ep.val q.val) → Carried (.qpTxDoorbell ep q pi) s [.endpoints] (fun e => ∀ k, e.producer ep k = if k = 2 * q.val then pi.val else s.dev.producer ep k))
  ∧ (∀ (ep : Endpoint) (q : Fin 512) (pi : Fin 65536) (s : State), Dev.ringAhead pi.val (s.dev.fld (HST_QP_CI_rx_ci ep.val q.val)) ≤ 2 ^ s.dev.fld (HST_QP_CFG_rx_log ep.val q.val) → Carried (.qpRxDoorbell ep q pi) s [.endpoints] (fun e => ∀ k, e.producer ep k = if k = 2 * q.val + 1 then pi.val else s.dev.producer ep k))
  ∧ (∀ (ep : Endpoint) (k : Fin 16) (pi : Fin 65536) (s : State), Dev.ringAhead pi.val (s.dev.fld (HST_UR_CI_ci ep.val k.val)) ≤ 2 ^ s.dev.fld (HST_UR_CFG_log ep.val k.val) → Carried (.urDoorbell ep k pi) s [.endpoints] (fun e => ∀ x, e.producer ep x = if x = 0x1000 + k.val then pi.val else s.dev.producer ep x))
  ∧ (∀ (ep : Endpoint) (q : Fin 512) (k : Fin 16) (pi : Fin 65536) (c : Instr) (s : State), (c = .qpTxDoorbell ep q pi ∧ 2 ^ s.dev.fld (HST_QP_CFG_tx_log ep.val q.val) < Dev.ringAhead pi.val (s.dev.fld (HST_QP_CI_tx_ci ep.val q.val))
        ∨ c = .qpRxDoorbell ep q pi ∧ 2 ^ s.dev.fld (HST_QP_CFG_rx_log ep.val q.val) < Dev.ringAhead pi.val (s.dev.fld (HST_QP_CI_rx_ci ep.val q.val))
        ∨ c = .urDoorbell ep k pi ∧ 2 ^ s.dev.fld (HST_UR_CFG_log ep.val k.val) < Dev.ringAhead pi.val (s.dev.fld (HST_UR_CI_ci ep.val k.val))) → Carried c s [.regs, .wire, .ctxs] (fun e => e.on (HST_EP_ERR_ring_err ep.val) = true ∧ s.dev.RegsSig [HST_EP_ERR ep.val] e))
  ∧ (∀ (ep : Endpoint) (s : State), (s.dev.hostAdmits (endpointRegion ep) = false ∨ s.dev.hostSlot (endpointRegion ep) = false ∨ (s.dev.g (endpointRegion ep)).dispatch.pressed = true ∨ s.dev.generalPool (endpointRegion ep) ≤ (s.dev.g (endpointRegion ep)).dispatch.general) → Carried (.txDescriptorTake ep) s [] (fun _ => True))
  ∧ (∀ (ep : Endpoint) (q : Nat) (s : State), s.dev.hostAdmits (endpointRegion ep) = true → s.dev.hostSlot (endpointRegion ep) = true → (s.dev.g (endpointRegion ep)).dispatch.pressed = false → (s.dev.g (endpointRegion ep)).dispatch.general < s.dev.generalPool (endpointRegion ep) → Dev.ringTurn (s.dev.ep ep).txTurn ((s.dev.enabledPairs ep 31).filter (fun k => !((s.dev.ep ep).txBusy.map (·.1)).contains k && s.dev.txWork ep k != 0)) = some q → Carried (.txDescriptorTake ep) s [.regs, .mem, .wire, .line, .ctxs, .endpoints, .dispatch] (fun e => let a := s.dev.txDesc ep q (s.dev.fld (HST_QP_CI_tx_ci ep.val q))
      (e.ep ep).txTurn = q + 1
        ∧ if s.dev.le (a + 8) 2 = 0 then
            e.byte (a + 31) = (if s.dev.on (CHP_COMPAT_a1 s.dev.A) then 0x82 else 0x81) ∧ e.txJob ep q = s.dev.txJob ep q
              ∧ e.fld (HST_QP_CI_tx_ci ep.val q) = (s.dev.fld (HST_QP_CI_tx_ci ep.val q) + 1) % 2 ^ 16
          else if s.dev.le (a + 8) 2 ≤ 16384 then
            e.txJob ep q = some ⟨s.dev.fld (HST_QP_CI_tx_ci ep.val q), s.dev.le a 8, s.dev.le (a + 8) 2, s.dev.le (a + 10) 1 % 8⟩
              ∧ (e.g (endpointRegion ep)).dispatch.general = (s.dev.g (endpointRegion ep)).dispatch.general + 1
          else e.byte (a + 31) = 0x83))
  ∧ (∀ (ep : Endpoint) (q : Fin 512) (time : Nat) (j : TxJob) (s : State), s.dev.txJob ep q.val = some j → Carried (.txDmaComplete ep q true time) s [.regs, .mem, .wire, .line, .ctxs, .packets, .nextPacket, .endpoints, .pool, .front, .dispatch, .journal] (fun e => e.txJob ep q.val = none ∧ e.byte (s.dev.txDesc ep q.val j.index + 31) = 0x84 ∧ e.on (HST_EP_ERR_dma_err ep.val) = true
        ∧ e.fld (HST_QP_CI_tx_ci ep.val q.val) = (j.index + 1) % 2 ^ 16 ∧ e.packets = s.dev.packets))
  ∧ (∀ (ep : Endpoint) (q : Fin 512) (time h : Nat) (j : TxJob) (s : State), s.dev.txJob ep q.val = some j → ((s.dev.modEp ep fun x => { x with txBusy := Sparse.drop x.txBusy q.val }).takeIn (endpointRegion ep) 8 j.tc j.length).2 = .ok h → Carried (.txDmaComplete ep q false time) s [.regs, .mem, .wire, .line, .ctxs, .packets, .nextPacket, .endpoints, .pool, .front, .dispatch, .journal] (fun e => e.txJob ep q.val = none ∧ e.byte (s.dev.txDesc ep q.val j.index + 31) = 0x80 ∧ e.nextPacket = s.dev.nextPacket + 1
        ∧ (∃ p, e.pkt s.dev.nextPacket = some p ∧ p.stage = .stamped ∧ p.length = j.length ∧ p.head = h ∧ (p.rxTime, p.rxSec) = s.dev.stampTime (endpointRegion ep) time
          ∧ p.stamp = ⟨0x40 + ep.val, j.tc, s.dev.nextSeq (endpointRegion ep) (0x40 + ep.val), (s.dev.g (endpointRegion ep)).tick, time % 2 ^ 13⟩)
        ∧ ∀ m, m ≠ s.dev.nextPacket → e.pkt m = s.dev.pkt m))

/-- RX_PACKET_DELIVER of a sound packet that the ring's descriptors hold takes it off its queue and moves the consumer index over them; a
chain held elsewhere filling one descriptor leaves the bytes written there. RX_HOLD_EXPIRY drops the head packet, which its
descriptors do not hold, with code 0x0A. UPDATE_RING_TAKE outside the run modes changes nothing; it takes a NOP, and an entry that is
staged, off its ring, and blocks a ring whose entry finds no slot. MSIX_COALESCE_EXPIRY signals the pair's vector, or keeps it pending
where masked. ENDPOINT_RESET empties the host queues and disables every pair and ring; ENDPOINT_LINK_UP sets generation and width. -/
def Obligations.ReceiveUpdateAndEndpointRings : Prop :=
  (∀ (ep : Endpoint) (q : Fin 512) (x : RxPkt) (t : List RxPkt) (plan : List (Nat × Nat)) (s : State), s.dev.rxQueue ep q.val = x :: t → x.ready = true → s.dev.on (HST_QP_CFG_rx_en ep.val q.val) = true → (s.dev.chainBytes 512 x.record.head 0).2 = false → x.record.poisoned = false → s.dev.rxPlan ep q.val (s.dev.rxWork ep q.val) (s.dev.fld (HST_QP_CI_rx_ci ep.val q.val)) ((s.dev.chainBytes 512 x.record.head 0).1.take x.record.length).length = some plan → Carried (.rxPacketDeliver ep q) s [.regs, .mem, .wire, .line, .ctxs, .packets, .endpoints, .commit, .pool, .egress, .journal] (fun e => (e.rxQueue ep q.val).map (·.record) = t.map (·.record)
        ∧ e.fld (HST_QP_CI_rx_ci ep.val q.val) = (s.dev.fld (HST_QP_CI_rx_ci ep.val q.val) + plan.length) % 2 ^ 16
        ∧ ∀ i n, plan = [(i, n)] → n ≠ 0 → handleRegion x.record.head ≠ (endpointRegion ep).val →
            e.le (s.dev.rxDesc ep q.val i + 16) 2 = n ∧ e.byte (s.dev.rxDesc ep q.val i + 31) = 0x80))
  ∧ (∀ (ep : Endpoint) (q : Fin 512) (x : RxPkt) (t : List RxPkt) (s : State), s.dev.rxQueue ep q.val = x :: t → s.dev.rxHolds ep q.val x = false → s.dev.fld (HST_QP_COAL_rx_hold ep.val q.val) ≤ Dev.ticksAhead (s.dev.g (endpointRegion ep)).tick x.since → Carried (.rxHoldExpiry ep q) s [.regs, .mem, .wire, .line, .ctxs, .packets, .endpoints, .commit, .pool, .egress, .journal] (fun e => (e.rxQueue ep q.val).map (·.record) = t.map (·.record)
        ∧ e.pair (RGN_DROP_LO (endpointRegion ep).val 0x0A) (RGN_DROP_HI (endpointRegion ep).val 0x0A)
          = min (2 ^ 48 - 1) (s.dev.pair (RGN_DROP_LO (endpointRegion ep).val 0x0A) (RGN_DROP_HI (endpointRegion ep).val 0x0A) + 1)))
  ∧ (∀ (ep : Endpoint) (time : Nat) (s : State), ((s.dev.g (endpointRegion ep)).mode.isRun = false ∨ s.dev.fenced (endpointRegion ep).val = true) → Carried (.updateRingTake ep time) s [] (fun _ => True))
  ∧ (∀ (ep : Endpoint) (time k : Nat) (s : State), (s.dev.g (endpointRegion ep)).mode.isRun = true → s.dev.fenced (endpointRegion ep).val = false → Dev.ringTurn (s.dev.ep ep).urTurn ((s.dev.enabledRings ep).filter (fun x => s.dev.urWork ep x != 0 && !Sparse.get (fun _ => false) (s.dev.ep ep).urBlocked x)) = some k → Carried (.updateRingTake ep time) s [.regs, .wire, .ctxs, .endpoints, .commit] (fun e => let b := s.dev.bytes (s.dev.urEntry ep k (s.dev.fld (HST_UR_CI_ci ep.val k))) 96
      let m := Dev.hostRecord b 4 (0x40 + ep.val) time
      (e.ep ep).urTurn = k + 1
        ∧ if m.op = 0 ∨ s.dev.recordOk (endpointRegion ep) m (Mut.reservedOf b) = false ∨ (s.dev.stage (endpointRegion ep) m (.ring ep.val k (s.dev.fld (HST_UR_CI_ci ep.val k)))).2 = true
          then e.fld (HST_UR_CI_ci ep.val k) = (s.dev.fld (HST_UR_CI_ci ep.val k) + 1) % 2 ^ 16
          else e.fld (HST_UR_CI_ci ep.val k) = s.dev.fld (HST_UR_CI_ci ep.val k) ∧ Sparse.get (fun _ => false) (e.ep ep).urBlocked k = true))
  ∧ (∀ (ep : Endpoint) (q : Fin 512) (x : Nat × Nat) (s : State), (s.dev.ep ep).unsignalled.find? (·.1 == q.val) = some x → s.dev.fld (HST_QP_COAL_coalesce ep.val q.val) ≤ Dev.ticksAhead (s.dev.g (endpointRegion ep)).tick x.2 → Carried (.msixCoalesceExpiry ep q) s [.line, .endpoints] (fun e => let v := s.dev.fld (HST_QP_CFG_vector ep.val q.val)
      (e.ep ep).unsignalled = (s.dev.ep ep).unsignalled.filter (fun y => y.1 != q.val)
        ∧ if (Sparse.get msixDefault (s.dev.ep ep).msix (v * 4 + 3)).toNat % 2 = 1 then e.line = s.dev.line ∧ Sparse.get (fun _ => false) (e.ep ep).pba v = true
          else e.line = s.dev.line ++ [.msix ep.val v]))
  ∧ (∀ (ep : Endpoint) (down : Bool) (s : State), Carried (.endpointReset ep down) s [.regs, .mem, .wire, .line, .ctxs, .packets, .endpoints, .commit, .pool, .egress, .dispatch, .journal] (fun e => (e.ep ep).txBusy = [] ∧ (e.ep ep).rxq = [] ∧ (e.ep ep).unsignalled = [] ∧ e.enabledRings ep = []
        ∧ (∀ q < 512, e.on (HST_QP_CFG_tx_en ep.val q) = false ∧ e.on (HST_QP_CFG_rx_en ep.val q) = false)
        ∧ (down = true → e.fld (HST_EP_STAT_gen ep.val) = 0 ∧ e.fld (HST_EP_STAT_width ep.val) = 0)))
  ∧ (∀ (ep : Endpoint) (gen width : Nat) (s : State), 1 ≤ gen → gen ≤ 6 → width ∈ [1, 2, 4, 8, 16] → Carried (.endpointLinkUp ep gen width) s [.regs, .wire, .ctxs] (fun e => e.fld (HST_EP_STAT_gen ep.val) = gen ∧ e.fld (HST_EP_STAT_width ep.val) = width ∧ s.dev.RegsSig [HST_EP_STAT ep.val] e))

/-! ### Mailbox commands -/

/-- MB_DOORBELL of an IDLE pair whose v2 header is sound leaves the command on the pair, which is BUSY, its response phase cleared, and
relays the frame to the primary where another MP serves the endpoint; a doorbell of zero or at a pair that is not IDLE is ignored and
counted. NOP, GET_INFO, JOB_QUERY, UNIT_QUERY, LEDGER_SCAN, TBL_READ by index, CM_READ, REG_READ, BPM_DESC_READ, BPM_STAT,
JOURNAL_READ and GUEST_DESC_READ on a pair that is BUSY, with fields in range, end with phase DONE, status OK and the payload of their
row (in the response area, or in the messages that relay the response to the endpoint's MP), and but for what REG_READ reads change
nothing else; JOB_QUERY of a job unknown ends with NO_JOB. -/
def Obligations.MailboxQueriesAreAnswered : Prop :=
  (∀ (ep : Endpoint) (n : Fin 32) (value : Word) (s : State), (value = 0 ∨ s.dev.mbState ep n.val ≠ 1) → Carried (.mbDoorbell ep n value) s [.regs] (fun e => e.fld (HST_MB_STAT_db_ignored ep.val n.val) = min (2 ^ (HST_MB_STAT_db_ignored ep.val n.val).width - 1) (s.dev.fld (HST_MB_STAT_db_ignored ep.val n.val) + 1)
        ∧ s.dev.RegsIn [HST_MB_STAT ep.val n.val] e))
  ∧ (∀ (ep : Endpoint) (n : Fin 32) (value : Word) (s : State), value ≠ 0 → s.dev.mbState ep n.val = 1 → s.dev.framesV1 = false → s.dev.byte (mbCommand ep n.val) = 2 → s.dev.le (mbCommand ep n.val + 4) 4 = value.toNat → s.dev.fld (HST_MB_SEQ_expected ep.val n.val) = value.toNat → s.dev.le (mbCommand ep n.val + 8) 4 ≤ 4064 → bitOf (s.dev.byte (mbCommand ep n.val + 1)).toNat 0 = false → knownOpcode (s.dev.le (mbCommand ep n.val + 2) 2) = true → Carried (.mbDoorbell ep n value) s [.regs, .mem, .wire, .ctxs, .endpoints] (fun e => e.mbState ep n.val = 2 ∧ (e.mail ep n.val).opcode = s.dev.le (mbCommand ep n.val + 2) 2 ∧ (e.mail ep n.val).seq = value.toNat
        ∧ (if s.dev.servedHere ep then (e.mail ep n.val).payload = s.dev.bytes (mbCommand ep n.val + 32) (s.dev.le (mbCommand ep n.val + 8) 4) ∧ (e.mail ep n.val).wait = .fresh
          else (e.mail ep n.val).wait = .relay ∧ ∃ l, e.wire = l ++ (Dev.segments (s.dev.bytes (mbCommand ep n.val) 32
            ++ s.dev.bytes (mbCommand ep n.val + 32) (s.dev.le (mbCommand ep n.val + 8) 4))).map
              (fun b => ⟨(endpointRegion ep).val, s.dev.A, .mgt (Dev.relayInfo 1 ep n.val) b⟩))
        ∧ (e.mail ep n.val).token = s.dev.bytes (mbCommand ep n.val + 16) 8
        ∧ e.byte (mbResponse ep n.val + 1) = 0 ∧ bitOf (e.fld (RGN_MB_PEND_pend (Dev.epPos ep))) n.val = true))
  ∧ (∀ (ep : Endpoint) (n : Fin 32) (elapsed : Nat) (s : State), s.dev.Waits ep n.val 0x0001 → s.dev.mode ≠ .load → Carried (.nop ep n elapsed) s [.regs, .mem, .line, .endpoints, .wire] (fun e => s.dev.Quiet ep e ∧ s.dev.Done ep n.val 0 0 ([]) e))
  ∧ (∀ (ep : Endpoint) (n : Fin 32) (elapsed : Nat) (s : State), s.dev.Waits ep n.val 0x0002 → s.dev.mode ≠ .load → Carried (.getInfo ep n elapsed) s [.regs, .mem, .line, .endpoints, .wire] (fun e => s.dev.Quiet ep e ∧ s.dev.Done ep n.val 0 0 (s.dev.infoBytes) e))
  ∧ (∀ (ep : Endpoint) (n : Fin 32) (elapsed : Nat) (s : State), s.dev.Waits ep n.val 0x0004 → s.dev.mode ≠ .load → 4 ≤ (s.dev.mail ep n.val).payload.length → (∀ j ∈ s.dev.thody.jobs, j.num = payOf (s.dev.mail ep n.val).payload 0 4 → s.dev.jobLapsed j = true) → Carried (.jobQuery ep n elapsed) s [.regs, .mem, .line, .endpoints, .wire] (fun e => s.dev.Quiet ep e ∧ s.dev.Done ep n.val 0x000E 0 [] e))
  ∧ (∀ (ep : Endpoint) (n : Fin 32) (elapsed : Nat) (j : Job) (s : State), s.dev.Waits ep n.val 0x0004 → s.dev.mode ≠ .load → 4 ≤ (s.dev.mail ep n.val).payload.length → s.dev.thody.jobs.find? (fun j => j.num == payOf (s.dev.mail ep n.val).payload 0 4 && !s.dev.jobLapsed j) = some j → Carried (.jobQuery ep n elapsed) s [.regs, .mem, .line, .endpoints, .wire] (fun e => s.dev.Quiet ep e ∧ s.dev.Done ep n.val 0 0 (if j.state = 2 then bytesLE 1 2 ++ bytesLE 1 0 ++ bytesLE 2 j.status ++ bytesLE 2 j.detail ++ bytesLE 2 0 ++ j.result else bytesLE 1 1 ++ List.replicate 7 0) e))
  ∧ (∀ (ep : Endpoint) (n : Fin 32) (elapsed : Nat) (s : State), s.dev.Waits ep n.val 0x0202 → s.dev.mode ≠ .load → 6 ≤ (s.dev.mail ep n.val).payload.length → s.dev.unitOk (payOf (s.dev.mail ep n.val).payload 0 4) = none → 1 ≤ payOf (s.dev.mail ep n.val).payload 4 2 → payOf (s.dev.mail ep n.val).payload 4 2 ≤ 500 → payOf (s.dev.mail ep n.val).payload 0 4 % 2 ^ 16 + payOf (s.dev.mail ep n.val).payload 4 2 ≤ unitLimit (payOf (s.dev.mail ep n.val).payload 0 4 / 2 ^ 28) → Carried (.unitQuery ep n elapsed) s [.regs, .mem, .line, .endpoints, .wire] (fun e => s.dev.Quiet ep e ∧ s.dev.Done ep n.val 0 0 ((List.range (payOf (s.dev.mail ep n.val).payload 4 2)).flatMap (fun j => s.dev.unitBytes (Dev.R (payOf (s.dev.mail ep n.val).payload 0 4 / 2 ^ 25)) (payOf (s.dev.mail ep n.val).payload 0 4 / 2 ^ 28) (payOf (s.dev.mail ep n.val).payload 0 4 % 2 ^ 16 + j))) e))
  ∧ (∀ (ep : Endpoint) (n : Fin 32) (elapsed : Nat) (units : List (Region × Nat)) (s : State), s.dev.Waits ep n.val 0x0203 → s.dev.mode ≠ .load → 1 ≤ (s.dev.mail ep n.val).payload.length → (∀ q ∈ Dev.inMask (payOf (s.dev.mail ep n.val).payload 0 1), s.dev.mladus q.val = true) → ((Dev.inMask (payOf (s.dev.mail ep n.val).payload 0 1)).flatMap (fun q => ((s.dev.g q).ledger.filter (fun x => x.2.mismatch != 0)).map (fun x => (q, x.1)))).take 500 = units → Carried (.ledgerScan ep n elapsed) s [.regs, .mem, .line, .endpoints, .wire] (fun e => s.dev.Quiet ep e ∧ s.dev.Done ep n.val 0 0 (bytesLE 2 units.length ++ units.flatMap (fun x => s.dev.unitBytes x.1 (x.2 / 2 ^ 16) (x.2 % 2 ^ 16))) e))
  ∧ (∀ (ep : Endpoint) (n : Fin 32) (elapsed : Nat) (s : State), s.dev.Waits ep n.val 0x0303 → s.dev.mode ≠ .load → 8 ≤ (s.dev.mail ep n.val).payload.length → s.dev.namedRegion (payOf (s.dev.mail ep n.val).payload 1 1) 1 = none → payOf (s.dev.mail ep n.val).payload 2 1 = 1 → (s.dev.table (Dev.R (payOf (s.dev.mail ep n.val).payload 1 1)) (payOf (s.dev.mail ep n.val).payload 0 1)).kind ∉ [0, 3, 4, 5] → payOf (s.dev.mail ep n.val).payload 4 4 < (s.dev.table (Dev.R (payOf (s.dev.mail ep n.val).payload 1 1)) (payOf (s.dev.mail ep n.val).payload 0 1)).entries → Carried (.tblRead ep n elapsed) s [.regs, .mem, .line, .endpoints, .wire] (fun e => s.dev.Quiet ep e ∧ s.dev.Done ep n.val 0 0 ((s.dev.indexLookup (Dev.R (payOf (s.dev.mail ep n.val).payload 1 1)) (payOf (s.dev.mail ep n.val).payload 0 1) (payOf (s.dev.mail ep n.val).payload 4 4)).bytes ++ s.dev.entryLine (Dev.R (payOf (s.dev.mail ep n.val).payload 1 1)) (payOf (s.dev.mail ep n.val).payload 0 1) (s.dev.indexLookup (Dev.R (payOf (s.dev.mail ep n.val).payload 1 1)) (payOf (s.dev.mail ep n.val).payload 0 1) (payOf (s.dev.mail ep n.val).payload 4 4))) e))
  ∧ (∀ (ep : Endpoint) (n : Fin 32) (elapsed : Nat) (t : TableDesc) (s : State), s.dev.Waits ep n.val 0x0304 → s.dev.mode ≠ .load → 10 ≤ (s.dev.mail ep n.val).payload.length → s.dev.namedRegion (payOf (s.dev.mail ep n.val).payload 1 1) 1 = none → s.dev.table (Dev.R (payOf (s.dev.mail ep n.val).payload 1 1)) (payOf (s.dev.mail ep n.val).payload 0 1) = t → (t.kind = 9 ∨ t.kind = 10) → 1 ≤ payOf (s.dev.mail ep n.val).payload 8 2 → payOf (s.dev.mail ep n.val).payload 8 2 ≤ (if t.kind = 9 then 250 else 125) → payOf (s.dev.mail ep n.val).payload 4 4 + payOf (s.dev.mail ep n.val).payload 8 2 ≤ t.entries → Carried (.cmRead ep n elapsed) s [.regs, .mem, .line, .endpoints, .wire] (fun e => s.dev.Quiet ep e ∧ s.dev.Done ep n.val 0 0 (s.dev.bytes (Dev.tableAddr (Dev.R (payOf (s.dev.mail ep n.val).payload 1 1)) t (payOf (s.dev.mail ep n.val).payload 4 4 * t.slotSize)) (payOf (s.dev.mail ep n.val).payload 8 2 * t.slotSize)) e))
  ∧ (∀ (ep : Endpoint) (n : Fin 32) (elapsed : Nat) (b : List Byte) (s : State), s.dev.Waits ep n.val 0x0501 → s.dev.mode ≠ .load → 8 ≤ (s.dev.mail ep n.val).payload.length → payOf (s.dev.mail ep n.val).payload 0 6 % 4 = 0 → 1 ≤ payOf (s.dev.mail ep n.val).payload 6 2 → payOf (s.dev.mail ep n.val).payload 6 2 ≤ 1000 → s.dev.present (s.dev.resolve s.dev.A (payOf (s.dev.mail ep n.val).payload 0 6)).1 = true → s.dev.fenced (s.dev.resolve s.dev.A (payOf (s.dev.mail ep n.val).payload 0 6)).1 = false → (s.dev.mpReadWords (payOf (s.dev.mail ep n.val).payload 0 6) 0 (payOf (s.dev.mail ep n.val).payload 6 2)).2 = (.ok, b) → Carried (.regRead ep n elapsed) s [.regs, .pairs, .mem, .poison, .wire, .line, .ctxs, .endpoints, .thody, .inbox, .egress, .hbm] (fun e => s.dev.Done ep n.val 0 0 (b) e))
  ∧ (∀ (ep : Endpoint) (n : Fin 32) (elapsed : Nat) (h count : Nat) (s : State), s.dev.Waits ep n.val 0x0601 → s.dev.mode ≠ .load → 6 ≤ (s.dev.mail ep n.val).payload.length → payOf (s.dev.mail ep n.val).payload 0 4 = h → payOf (s.dev.mail ep n.val).payload 4 2 = count → s.dev.namedRegion (handleRegion h) 0 = none → h / 2 ^ 25 % 8 = 0 → 1 ≤ count → count ≤ 500 → handleIndex h + count ≤ s.dev.poolSize (handleRegion h) (handlePool h) → Carried (.bpmDescRead ep n elapsed) s [.regs, .mem, .line, .endpoints, .wire] (fun e => s.dev.Quiet ep e ∧ s.dev.Done ep n.val 0 0 ((List.range count).flatMap (fun i => bytesLE 8 (s.dev.desc (h + i)).word)) e))
  ∧ (∀ (ep : Endpoint) (n : Fin 32) (elapsed : Nat) (q : Nat) (s : State), s.dev.Waits ep n.val 0x0602 → s.dev.mode ≠ .load → 1 ≤ (s.dev.mail ep n.val).payload.length → payOf (s.dev.mail ep n.val).payload 0 1 = q → s.dev.namedRegion q 0 = none → Carried (.bpmStat ep n elapsed) s [.regs, .mem, .line, .endpoints, .wire] (fun e => s.dev.Quiet ep e ∧ s.dev.Done ep n.val 0 0 (bytesLE 4 (s.dev.fld (RGN_BPM_FREE_onchip_free q)) ++ bytesLE 4 (s.dev.fld (RGN_DEEP_FREE_deep_free q)) ++ bytesLE 4 (s.dev.fld (RGN_BPM_LOST_lost q)) ++ bytesLE 4 (s.dev.reg (RGN_BPM_ABUSE_CNT q)).toNat) e))
  ∧ (∀ (ep : Endpoint) (n : Fin 32) (elapsed : Nat) (q : Nat) (s : State), s.dev.Waits ep n.val 0x0703 → s.dev.mode ≠ .load → 10 ≤ (s.dev.mail ep n.val).payload.length → payOf (s.dev.mail ep n.val).payload 0 1 = q → s.dev.namedRegion q 0 = none → 1 ≤ payOf (s.dev.mail ep n.val).payload 8 2 → payOf (s.dev.mail ep n.val).payload 8 2 ≤ 63 → (∀ i < payOf (s.dev.mail ep n.val).payload 8 2, s.dev.journalLine (Dev.R q) (payOf (s.dev.mail ep n.val).payload 4 4 + i) = none) → Carried (.journalRead ep n elapsed) s [.regs, .mem, .line, .endpoints, .wire] (fun e => s.dev.Quiet ep e ∧ s.dev.Done ep n.val 0 0 ([]) e))
  ∧ (∀ (ep : Endpoint) (n : Fin 32) (elapsed : Nat) (q l : Nat) (s : State), s.dev.Waits ep n.val 0x0703 → s.dev.mode ≠ .load → 10 ≤ (s.dev.mail ep n.val).payload.length → payOf (s.dev.mail ep n.val).payload 0 1 = q → s.dev.namedRegion q 0 = none → payOf (s.dev.mail ep n.val).payload 8 2 = 1 → s.dev.journalLine (Dev.R q) (payOf (s.dev.mail ep n.val).payload 4 4) = some l → s.dev.le (jnlKey (Dev.R q).val l) 4 = payOf (s.dev.mail ep n.val).payload 4 4 → s.dev.le (jnlKey (Dev.R q).val l + 60) 4 = crc32cOf (s.dev.bytes (jnlKey (Dev.R q).val l) 60) → Carried (.journalRead ep n elapsed) s [.regs, .mem, .line, .endpoints, .wire] (fun e => s.dev.Quiet ep e ∧ s.dev.Done ep n.val 0 0 (s.dev.bytes (jnlKey (Dev.R q).val l) 64) e))
  ∧ (∀ (ep : Endpoint) (n : Fin 32) (elapsed : Nat) (q : Nat) (s : State), s.dev.Waits ep n.val 0x0901 → s.dev.mode ≠ .load → 1 ≤ (s.dev.mail ep n.val).payload.length → payOf (s.dev.mail ep n.val).payload 0 1 = q → s.dev.guestOk q 0 = none → Carried (.guestDescRead ep n elapsed) s [.regs, .mem, .line, .endpoints, .wire] (fun e => s.dev.Quiet ep e ∧ s.dev.Done ep n.val 0 0 (Dev.guestBlock q) e))

/-- On a BUSY pair with fields in range: EVENT_RING_SET starts an empty ring or stops it; MODE_SET, TICK_SET, TBL_DESC_SET, TBL_MUTATE,
CM_WRITE, PANE_DIV_SET, PANE_CLOSE, REGION_FENCE, HBM_RATE_SET and GUEST_ROLE_SET are acknowledged and leave what their shutter or
outcome is to bring; PTP_LOAD, PTP_ADJUST, UNIT_SET, PANE_OPEN, PANE_WRITE, PANE_SWAP, PANE_FORCE_FREE, REG_WRITE, GUEST_ADMIT,
FW_STAGE and MON_SNAPSHOT have their effect and end with OK. A command acknowledged for a shutter ends with OK and that shutter once
it has come. -/
def Obligations.MailboxSettingsTakeEffect : Prop :=
  (∀ (ep : Endpoint) (n : Fin 32) (elapsed : Nat) (s : State), s.dev.Waits ep n.val 0x0003 → s.dev.mode ≠ .load → 12 ≤ (s.dev.mail ep n.val).payload.length → payOf (s.dev.mail ep n.val).payload 8 1 = 0 → Carried (.eventRingSet ep n elapsed) s [.regs, .mem, .line, .endpoints, .wire] (fun e => s.dev.Quiet ep e ∧ s.dev.Done ep n.val 0 0 ([]) e ∧ (e.ep ep).events = none))
  ∧ (∀ (ep : Endpoint) (n : Fin 32) (elapsed : Nat) (s : State), s.dev.Waits ep n.val 0x0003 → s.dev.mode ≠ .load → 12 ≤ (s.dev.mail ep n.val).payload.length → payOf (s.dev.mail ep n.val).payload 0 8 % 4096 = 0 → 4 ≤ payOf (s.dev.mail ep n.val).payload 8 1 → payOf (s.dev.mail ep n.val).payload 8 1 ≤ 12 → payOf (s.dev.mail ep n.val).payload 10 2 < 2048 → Carried (.eventRingSet ep n elapsed) s [.regs, .mem, .line, .endpoints, .wire] (fun e => s.dev.Quiet ep e ∧ s.dev.Done ep n.val 0 0 ([]) e
      ∧ (∃ unsaid, (e.ep ep).events = some ⟨payOf (s.dev.mail ep n.val).payload 0 8, payOf (s.dev.mail ep n.val).payload 8 1, payOf (s.dev.mail ep n.val).payload 10 2, none, unsaid⟩) ∧ e.fld (HST_EV_CI_ci ep.val) = 0 ∧ e.fld (HST_EV_STAT_pi ep.val) = 0))
  ∧ (∀ (ep : Endpoint) (n : Fin 32) (elapsed : Nat) (s : State), s.dev.Waits ep n.val 0x0101 → s.dev.mode ≠ .load → 10 ≤ (s.dev.mail ep n.val).payload.length → payOf (s.dev.mail ep n.val).payload 0 1 ≤ 7 → payOf (s.dev.mail ep n.val).payload 1 1 ≤ 1 → (if Mode.ofCode (payOf (s.dev.mail ep n.val).payload 0 1) = .lean then 1 ≤ payOf (s.dev.mail ep n.val).payload 8 2 ∧ payOf (s.dev.mail ep n.val).payload 8 2 ≤ 16 else payOf (s.dev.mail ep n.val).payload 8 2 = 0) → s.dev.modeCause (Mode.ofCode (payOf (s.dev.mail ep n.val).payload 0 1)) (if payOf (s.dev.mail ep n.val).payload 1 1 = 1 then payOf (s.dev.mail ep n.val).payload 2 6 else (s.dev.tick + 2) % 2 ^ 48) (payOf (s.dev.mail ep n.val).payload 8 2) = none → Carried (.modeSet ep n elapsed) s [.regs, .mem, .wire, .line, .ctxs, .anchorSt, .endpoints] (fun e => s.dev.Acked ep n.val (.mode) e
      ∧ e.anchorSt.modeChange = some ⟨Mode.ofCode (payOf (s.dev.mail ep n.val).payload 0 1), (if payOf (s.dev.mail ep n.val).payload 1 1 = 1 then payOf (s.dev.mail ep n.val).payload 2 6 else (s.dev.tick + 2) % 2 ^ 48), payOf (s.dev.mail ep n.val).payload 8 2⟩ ∧ e.on (CHP_MODE_STAT_pending s.dev.A) = true))
  ∧ (∀ (ep : Endpoint) (n : Fin 32) (elapsed : Nat) (s : State), s.dev.Waits ep n.val 0x0102 → s.dev.mode = .configure → 1 ≤ (s.dev.mail ep n.val).payload.length → payOf (s.dev.mail ep n.val).payload 0 1 ≤ 3 → Carried (.tickSet ep n elapsed) s [.regs, .mem, .line, .endpoints, .anchorSt, .wire] (fun e => s.dev.Quiet ep e ∧ s.dev.Acked ep n.val (.shutter s.dev.dueTick) e ∧ e.anchorSt = { s.dev.anchorSt with periodDue := some (payOf (s.dev.mail ep n.val).payload 0 1) }))
  ∧ (∀ (ep : Endpoint) (n : Fin 32) (elapsed : Nat) (s : State), s.dev.Waits ep n.val 0x0103 → s.dev.mode ≠ .load → 16 ≤ (s.dev.mail ep n.val).payload.length → payOf (s.dev.mail ep n.val).payload 6 4 < 10 ^ 9 → Dev.snapAhead (payOf (s.dev.mail ep n.val).payload 10 6) s.dev.tick = true → Carried (.ptpLoad ep n elapsed) s [.regs, .mem, .line, .endpoints, .anchorSt, .wire] (fun e => s.dev.Quiet ep e ∧ s.dev.Done ep n.val 0 0 ([]) e
      ∧ e.anchorSt = { s.dev.anchorSt with ptpDue := some (payOf (s.dev.mail ep n.val).payload 10 6, payOf (s.dev.mail ep n.val).payload 0 6, payOf (s.dev.mail ep n.val).payload 6 4) }))
  ∧ (∀ (ep : Endpoint) (n : Fin 32) (elapsed : Nat) (s : State), s.dev.Waits ep n.val 0x0104 → s.dev.mode ≠ .load → 12 ≤ (s.dev.mail ep n.val).payload.length → payOf (s.dev.mail ep n.val).payload 0 1 ≤ 3 → (bitOf (payOf (s.dev.mail ep n.val).payload 0 1) 1 = true → (Dev.signed32 (payOf (s.dev.mail ep n.val).payload 8 4)).natAbs ≤ 50000) → Carried (.ptpAdjust ep n elapsed) s [.regs, .mem, .line, .endpoints, .anchorSt, .wire] (fun e => s.dev.Quiet ep e ∧ s.dev.Done ep n.val 0 0 ([]) e
      ∧ e.anchorSt = (if bitOf (payOf (s.dev.mail ep n.val).payload 0 1) 0 then { s.dev.anchorSt with move := Dev.signed32 (payOf (s.dev.mail ep n.val).payload 4 4) * 1000 } else s.dev.anchorSt)
      ∧ e.reg (CHP_PTP_FREQ s.dev.A) = if bitOf (payOf (s.dev.mail ep n.val).payload 0 1) 1 then BitVec.ofNat 32 (payOf (s.dev.mail ep n.val).payload 8 4) else s.dev.reg (CHP_PTP_FREQ s.dev.A)))
  ∧ (∀ (ep : Endpoint) (n : Fin 32) (elapsed : Nat) (s : State), s.dev.Waits ep n.val 0x0201 → s.dev.mode ≠ .load → 6 ≤ (s.dev.mail ep n.val).payload.length → s.dev.unitOk (payOf (s.dev.mail ep n.val).payload 0 4) = none → payOf (s.dev.mail ep n.val).payload 0 4 / 2 ^ 28 = 4 → payOf (s.dev.mail ep n.val).payload 4 1 = 0 → payOf (s.dev.mail ep n.val).payload 5 1 = 0 → s.dev.namedRegion (Dev.R (payOf (s.dev.mail ep n.val).payload 0 4 / 2 ^ 25)).val 0 = none → Carried (.unitSet ep n elapsed) s [.regs, .mem, .line, .endpoints, .thody, .ledger, .wire] (fun e => s.dev.Quiet ep e ∧ s.dev.Done ep n.val 0 0 (bytesLE 6 (((s.dev.g (Dev.R (payOf (s.dev.mail ep n.val).payload 0 4 / 2 ^ 25))).tick + 1) % 2 ^ 48)) e
      ∧ e.fld (RGN_PWR_REGION_park (Dev.R (payOf (s.dev.mail ep n.val).payload 0 4 / 2 ^ 25)).val) = 0))
  ∧ (∀ (ep : Endpoint) (n : Fin 32) (elapsed : Nat) (s : State), s.dev.Waits ep n.val 0x0301 → s.dev.mode.isOpen = true → 20 ≤ (s.dev.mail ep n.val).payload.length → s.dev.anchorSt.rejoin = none → (∀ q, q ∈ s.dev.standing → (s.dev.descWrite q (payOf (s.dev.mail ep n.val).payload 0 1) ⟨BitVec.ofNat 32 (payOf (s.dev.mail ep n.val).payload 4 4), BitVec.ofNat 32 (payOf (s.dev.mail ep n.val).payload 8 4), BitVec.ofNat 32 (payOf (s.dev.mail ep n.val).payload 12 4), BitVec.ofNat 32 (payOf (s.dev.mail ep n.val).payload 16 4)⟩).2 = true) → Carried (.tblDescSet ep n elapsed) s [.regs, .mem, .line, .endpoints, .thody, .tables, .ledger, .wire] (fun e => s.dev.Quiet ep e ∧ s.dev.Acked ep n.val (.shutter s.dev.dueTick) e
      ∧ ∀ q, q ∈ s.dev.standing → payOf (s.dev.mail ep n.val).payload 0 1 ∈ (e.g q).tables.pendingDesc ∧ e.reg (RGN_TBL_SEED q.val (payOf (s.dev.mail ep n.val).payload 0 1)) = BitVec.ofNat 32 (payOf (s.dev.mail ep n.val).payload 16 4)))
  ∧ (∀ (ep : Endpoint) (n : Fin 32) (elapsed : Nat) (time : Nat) (s : State), s.dev.Waits ep n.val 0x0302 → s.dev.mode.isRun = true → 96 ≤ (s.dev.mail ep n.val).payload.length → s.dev.recordOk (endpointRegion ep) (Dev.hostRecord ((s.dev.mail ep n.val).payload.take 96) 5 (0x40 + ep.val) time) (Mut.reservedOf ((s.dev.mail ep n.val).payload.take 96)) = true → (s.dev.stage (endpointRegion ep) (Dev.hostRecord ((s.dev.mail ep n.val).payload.take 96) 5 (0x40 + ep.val) time) (.mailbox ep.val n.val (s.dev.mail ep n.val).seq)).2 = true → Carried (.tblMutate ep n elapsed time) s [.regs, .mem, .line, .endpoints, .wire, .ctxs, .commit] (fun e => s.dev.Acked ep n.val (.outcome) e
      ∧ (e.g (endpointRegion ep)).commit.staged.length = (s.dev.g (endpointRegion ep)).commit.staged.length + 1))
  ∧ (∀ (ep : Endpoint) (n : Fin 32) (elapsed : Nat) (q : Region) (t : TableDesc) (s : State), s.dev.Waits ep n.val 0x0305 → s.dev.mode ≠ .load → 24 ≤ (s.dev.mail ep n.val).payload.length → payOf (s.dev.mail ep n.val).payload 1 1 = q.val → s.dev.namedRegion q.val 1 = none → s.dev.table q (payOf (s.dev.mail ep n.val).payload 0 1) = t → t.kind = 9 → 8 + t.slotSize ≤ (s.dev.mail ep n.val).payload.length → payOf (s.dev.mail ep n.val).payload 4 4 < t.entries → Carried (.cmWrite ep n elapsed) s [.regs, .mem, .line, .endpoints, .commit, .wire] (fun e => s.dev.Quiet ep e ∧ s.dev.Acked ep n.val (.shutter s.dev.dueTick) e
      ∧ (e.g q).commit.directOps = (s.dev.g q).commit.directOps
        ++ [(((s.dev.g q).tick + 1) % 2 ^ 48, .bytes (Dev.tableAddr q t (payOf (s.dev.mail ep n.val).payload 4 4 * t.slotSize)) (sliceOf (s.dev.mail ep n.val).payload 8 t.slotSize))] ∧ ∀ x, x ≠ q → (e.g x).commit = (s.dev.g x).commit))
  ∧ (∀ (ep : Endpoint) (n : Fin 32) (elapsed : Nat) (v : Word) (s : State), s.dev.Waits ep n.val 0x0401 → s.dev.mode ≠ .load → 8 ≤ (s.dev.mail ep n.val).payload.length → payOf (s.dev.mail ep n.val).payload 0 1 < 2 → BitVec.ofNat 32 (payOf (s.dev.mail ep n.val).payload 4 4) = v → s.dev.anchorSt.rejoin = none → (∀ x, s.dev.thody.session = some x → x.1 ≠ payOf (s.dev.mail ep n.val).payload 0 1 ∨ x.2 = (ep.val, n.val)) → (∀ q, q ∈ s.dev.standing → (s.dev.divWrite q (payOf (s.dev.mail ep n.val).payload 0 1) v).2 = true) → Carried (.paneDivSet ep n elapsed) s [.regs, .mem, .line, .endpoints, .front, .wire] (fun e => s.dev.Quiet ep e ∧ s.dev.Acked ep n.val (.shutter s.dev.dueTick) e
      ∧ ∀ q, q ∈ s.dev.standing → (payOf (s.dev.mail ep n.val).payload 0 1, v &&& 0x03FFFF0F#32) ∈ (e.g q).front.pendingDiv))
  ∧ (∀ (ep : Endpoint) (n : Fin 32) (elapsed : Nat) (s : State), s.dev.Waits ep n.val 0x0402 → s.dev.mode ≠ .load → 1 ≤ (s.dev.mail ep n.val).payload.length → payOf (s.dev.mail ep n.val).payload 0 1 < 2 → s.dev.anchorSt.rejoin = none → (∀ x, s.dev.thody.session = some x → x.1 ≠ payOf (s.dev.mail ep n.val).payload 0 1 ∨ x.2 = (ep.val, n.val)) → (∀ q, q ∈ s.dev.standing → (s.dev.paneOpen q (payOf (s.dev.mail ep n.val).payload 0 1)).2 = true) → Carried (.paneOpen ep n elapsed) s [.regs, .mem, .line, .endpoints, .thody, .front, .wire] (fun e => s.dev.Quiet ep e ∧ s.dev.Done ep n.val 0 0 ([]) e
      ∧ e.thody.session = some (payOf (s.dev.mail ep n.val).payload 0 1, ep.val, n.val) ∧ ∀ q, q ∈ s.dev.standing → (e.g q).front.session = some (payOf (s.dev.mail ep n.val).payload 0 1)))
  ∧ (∀ (ep : Endpoint) (n : Fin 32) (elapsed : Nat) (s : State), s.dev.Waits ep n.val 0x0403 → s.dev.mode ≠ .load → 12 ≤ (s.dev.mail ep n.val).payload.length → (s.dev.mail ep n.val).payload.length = 12 + payOf (s.dev.mail ep n.val).payload 8 4 → payOf (s.dev.mail ep n.val).payload 0 1 < 2 → s.dev.anchorSt.rejoin = none → s.dev.thody.session = some (payOf (s.dev.mail ep n.val).payload 0 1, ep.val, n.val) → (payOf (s.dev.mail ep n.val).payload 1 1 = 1 ∨ payOf (s.dev.mail ep n.val).payload 1 1 = 2) → payOf (s.dev.mail ep n.val).payload 8 4 % 8 = 0 → 8 ≤ payOf (s.dev.mail ep n.val).payload 8 4 → payOf (s.dev.mail ep n.val).payload 8 4 ≤ 4016 → (∀ q, q ∈ s.dev.standing → (s.dev.paneWrite q (payOf (s.dev.mail ep n.val).payload 0 1) (payOf (s.dev.mail ep n.val).payload 1 1 == 2) (payOf (s.dev.mail ep n.val).payload 4 4) (sliceOf (s.dev.mail ep n.val).payload 12 (payOf (s.dev.mail ep n.val).payload 8 4))).2 = .done) → Carried (.paneWrite ep n elapsed) s [.regs, .mem, .line, .endpoints, .front, .wire] (fun e => s.dev.Quiet ep e ∧ s.dev.Done ep n.val 0 0 ([]) e
      ∧ ∀ q, q ∈ s.dev.standing → e.bytes ((if payOf (s.dev.mail ep n.val).payload 1 1 = 2 then paneBase q.val (payOf (s.dev.mail ep n.val).payload 0 1) else prickBase q.val (payOf (s.dev.mail ep n.val).payload 0 1)) + payOf (s.dev.mail ep n.val).payload 4 4) (payOf (s.dev.mail ep n.val).payload 8 4) = sliceOf (s.dev.mail ep n.val).payload 12 (payOf (s.dev.mail ep n.val).payload 8 4)))
  ∧ (∀ (ep : Endpoint) (n : Fin 32) (elapsed : Nat) (s : State), s.dev.Waits ep n.val 0x0404 → s.dev.mode ≠ .load → 1 ≤ (s.dev.mail ep n.val).payload.length → payOf (s.dev.mail ep n.val).payload 0 1 < 2 → s.dev.anchorSt.rejoin = none → s.dev.thody.session = some (payOf (s.dev.mail ep n.val).payload 0 1, ep.val, n.val) → (∀ q, q ∈ s.dev.standing → (s.dev.g q).front.session = some (payOf (s.dev.mail ep n.val).payload 0 1) → (s.dev.paneClose q).2 = true) → Carried (.paneClose ep n elapsed) s [.regs, .mem, .line, .endpoints, .thody, .front, .wire] (fun e => s.dev.Quiet ep e ∧ s.dev.Acked ep n.val (.pane (payOf (s.dev.mail ep n.val).payload 0 1)) e
      ∧ e.thody.session = none ∧ ∀ q, q ∈ s.dev.standing → (e.g q).front.session ≠ some (payOf (s.dev.mail ep n.val).payload 0 1)))
  ∧ (∀ (ep : Endpoint) (n : Fin 32) (elapsed : Nat) (s : State), s.dev.Waits ep n.val 0x0405 → s.dev.mode ≠ .load → 12 ≤ (s.dev.mail ep n.val).payload.length → s.dev.anchorSt.rejoin = none → s.dev.swapCause (payOf (s.dev.mail ep n.val).payload 0 6) (BitVec.ofNat 32 (payOf (s.dev.mail ep n.val).payload 8 4)) = 0 → Carried (.paneSwap ep n elapsed) s [.regs, .mem, .line, .endpoints, .anchorSt, .wire] (fun e => s.dev.Quiet ep e ∧ s.dev.Done ep n.val 0 0 (bytesLE 1 s.dev.otherPane) e
      ∧ e.anchorSt = { s.dev.anchorSt with swapAt := some (payOf (s.dev.mail ep n.val).payload 0 6) } ∧ e.on (CHP_PANE_STAT_pending s.dev.A) = true))
  ∧ (∀ (ep : Endpoint) (n : Fin 32) (elapsed : Nat) (s : State), s.dev.Waits ep n.val 0x0406 → s.dev.mode ≠ .load → s.dev.anchorSt.rejoin = none → Carried (.paneForceFree ep n elapsed) s [.regs, .mem, .line, .endpoints, .anchorSt, .wire] (fun e => s.dev.Quiet ep e ∧ s.dev.Done ep n.val 0 0 ([]) e ∧ e.anchorSt = { s.dev.anchorSt with freeAt := some ((s.dev.tick + 1) % 2 ^ 48) }))
  ∧ (∀ (ep : Endpoint) (n : Fin 32) (elapsed : Nat) (q : Region) (b : Block) (x : Nat) (s : State), s.dev.Waits ep n.val 0x0502 → s.dev.mode ≠ .load → 12 ≤ (s.dev.mail ep n.val).payload.length → (s.dev.mail ep n.val).payload.length = 12 + 4 → payOf (s.dev.mail ep n.val).payload 8 2 = 1 → Dev.inMask (payOf (s.dev.mail ep n.val).payload 0 1) = [q] → s.dev.namedRegion q.val 0 = none → payOf (s.dev.mail ep n.val).payload 2 6 % 2 ^ 44 = padAddr 0 b.val x → x % 4 = 0 → x + 4 ≤ s.dev.secBase q.val b.val → s.dev.blockState q.val b.val = 0 → s.dev.poisoned (padAddr q.val b.val x) = false → Carried (.regWrite ep n elapsed) s [.regs, .mem, .line, .endpoints, .wire] (fun e => s.dev.Quiet ep e ∧ s.dev.Done ep n.val 0 0 ([]) e
      ∧ e.bytes (padAddr q.val b.val x) 4 = (s.dev.mail ep n.val).payload.drop 12 ∧ ∀ a, (a < padAddr q.val b.val x ∨ padAddr q.val b.val x + 4 ≤ a) → (a < mbResponse ep n.val ∨ mbResponse ep n.val + 0x1000 ≤ a) → e.byte a = s.dev.byte a))
  ∧ (∀ (ep : Endpoint) (n : Fin 32) (elapsed : Nat) (q : Region) (s : State), s.dev.Waits ep n.val 0x0701 → (s.dev.mode.isRun = true ∨ s.dev.mode = .drain) → 1 ≤ (s.dev.mail ep n.val).payload.length → payOf (s.dev.mail ep n.val).payload 0 1 = q.val → s.dev.present q.val = true → s.dev.fenced q.val = false → q.val ≠ s.dev.A → Carried (.regionFence ep n elapsed) s [.regs, .mem, .line, .endpoints, .commit, .wire] (fun e => s.dev.Quiet ep e ∧ s.dev.Acked ep n.val (.shutter (((s.dev.g q).tick + 1) % 2 ^ 48)) e
      ∧ (e.g q).commit.fenceDue = if (s.dev.g q).commit.fenceDue = 0 then 8 else (s.dev.g q).commit.fenceDue))
  ∧ (∀ (ep : Endpoint) (n : Fin 32) (elapsed : Nat) (q : Region) (s : State), s.dev.Waits ep n.val 0x0802 → s.dev.mode ≠ .load → 2 ≤ (s.dev.mail ep n.val).payload.length → payOf (s.dev.mail ep n.val).payload 0 1 = q.val → s.dev.namedRegion q.val 0 = none → s.dev.mode ≠ .lean → payOf (s.dev.mail ep n.val).payload 1 1 ≤ 1 → (s.dev.g q).mode ≠ .lean → s.dev.hbmState q.val ≠ 7 → payOf (s.dev.mail ep n.val).payload 1 1 ≠ s.dev.fld (RGN_HBM_STAT_rate q.val) → (payOf (s.dev.mail ep n.val).payload 1 1 = 0 → (s.dev.g q).hbm.stepped = false) → Carried (.hbmRateSet ep n elapsed) s [.regs, .mem, .line, .endpoints, .hbm, .wire] (fun e => s.dev.Quiet ep e ∧ s.dev.Acked ep n.val (.rate (2 ^ q.val)) e
      ∧ e.fld (RGN_HBM_CFG_rate_run q.val) = payOf (s.dev.mail ep n.val).payload 1 1 ∧ e.fld (RGN_HBM_STAT_pend_rate q.val) = payOf (s.dev.mail ep n.val).payload 1 1 ∧ e.on (RGN_HBM_STAT_pend_valid q.val) = true))
  ∧ (∀ (ep : Endpoint) (n : Fin 32) (elapsed : Nat) (q : Nat) (s : State), s.dev.Waits ep n.val 0x0902 → s.dev.mode = .configure → 14 ≤ (s.dev.mail ep n.val).payload.length → payOf (s.dev.mail ep n.val).payload 0 1 = q → s.dev.guestOk q 0 = none → payOf (s.dev.mail ep n.val).payload 1 1 ≤ 2 → payOf (s.dev.mail ep n.val).payload 2 1 < 8 → s.dev.mladus (payOf (s.dev.mail ep n.val).payload 2 1) = true → Dev.tickAfter (payOf (s.dev.mail ep n.val).payload 8 6) s.dev.tick = true → Carried (.guestRoleSet ep n elapsed) s [.regs, .mem, .line, .endpoints, .anchorSt, .wire] (fun e => s.dev.Quiet ep e ∧ s.dev.Acked ep n.val (.shutter (payOf (s.dev.mail ep n.val).payload 8 6)) e
      ∧ e.fld (RGN_GUEST_CTL_role q) = payOf (s.dev.mail ep n.val).payload 1 1 ∧ e.fld (RGN_GUEST_IRQ_region q) = payOf (s.dev.mail ep n.val).payload 2 1
      ∧ e.anchorSt = { s.dev.anchorSt with roles := s.dev.anchorSt.roles.filter (fun y => y.2.1 != q) ++ [(payOf (s.dev.mail ep n.val).payload 8 6, q, payOf (s.dev.mail ep n.val).payload 1 1 == 1)] }))
  ∧ (∀ (ep : Endpoint) (n : Fin 32) (elapsed : Nat) (q : Nat) (x : Region) (s : State), s.dev.Waits ep n.val 0x0903 → s.dev.mode.isOpen = true → 3 ≤ (s.dev.mail ep n.val).payload.length → payOf (s.dev.mail ep n.val).payload 0 1 = q → s.dev.guestOk q 0 = none → payOf (s.dev.mail ep n.val).payload 1 1 < 32 → Dev.inMask (payOf (s.dev.mail ep n.val).payload 2 1) = [x] → s.dev.namedRegion x.val 0 = none → (s.dev.writeReg (RGN_CF_GACC x.val) (payOf (s.dev.mail ep n.val).payload 1 1)).2 = true → ∃ t, exec (.guestAdmit ep n elapsed) s = .next t ∧ t.pending = s.pending ∧ s.dev.Done ep n.val 0 0 [] t.dev
        ∧ fieldOf (t.dev.reg (RGN_CF_GACC x.val)) 0 5 = payOf (s.dev.mail ep n.val).payload 1 1)
  ∧ (∀ (ep : Endpoint) (n : Fin 32) (elapsed : Nat) (s : State), s.dev.Waits ep n.val 0x0A01 → s.dev.mode ≠ .load → 8 ≤ (s.dev.mail ep n.val).payload.length → (s.dev.mail ep n.val).payload.length = 8 + payOf (s.dev.mail ep n.val).payload 4 4 → 1 ≤ payOf (s.dev.mail ep n.val).payload 4 4 → payOf (s.dev.mail ep n.val).payload 4 4 ≤ 4048 → payOf (s.dev.mail ep n.val).payload 0 4 + payOf (s.dev.mail ep n.val).payload 4 4 ≤ 2 ^ 24 → Carried (.fwStage ep n elapsed) s [.regs, .mem, .line, .endpoints, .wire] (fun e => s.dev.Quiet ep e ∧ s.dev.Done ep n.val 0 0 ([]) e
      ∧ e.bytes (Dev.stagingBase + payOf (s.dev.mail ep n.val).payload 0 4) (payOf (s.dev.mail ep n.val).payload 4 4) = (s.dev.mail ep n.val).payload.drop 8))
  ∧ (∀ (ep : Endpoint) (n : Fin 32) (elapsed : Nat) (s : State), s.dev.Waits ep n.val 0x0B01 → s.dev.mode ≠ .load → 6 ≤ (s.dev.mail ep n.val).payload.length → Dev.snapAhead (payOf (s.dev.mail ep n.val).payload 0 6) s.dev.tick = true → Carried (.monSnapshot ep n elapsed) s [.regs, .mem, .line, .endpoints, .anchorSt, .wire] (fun e => s.dev.Quiet ep e ∧ s.dev.Done ep n.val 0 0 ([]) e ∧ e.anchorSt = { s.dev.anchorSt with snapAt := some (payOf (s.dev.mail ep n.val).payload 0 6) } ∧ e.on (CHP_MON_SNAP_STAT_pending s.dev.A) = true))
  ∧ (∀ (ep : Endpoint) (n : Fin 32) (elapsed k : Nat) (c : Instr) (s : State), (c, (s.dev.mail ep n.val).opcode) ∈ [(Instr.tickSet ep n elapsed, 0x0102), (.cmWrite ep n elapsed, 0x0305), (.paneDivSet ep n elapsed, 0x0401),
        (.regionFence ep n elapsed, 0x0701), (.guestRoleSet ep n elapsed, 0x0902)] → s.dev.fld (RGN_MP_STAT_state s.dev.A) = 0 → s.dev.mbState ep n.val = 3 → s.dev.relaying ep n.val = false → (s.dev.mail ep n.val).wait = .shutter k → Dev.tickAfter k s.dev.tick = false → Carried c s [.regs, .mem, .wire, .line, .endpoints] (fun e => s.dev.Done ep n.val 0 0 (bytesLE 6 k) e ∧ s.dev.Quiet ep e))

/-- On a BUSY pair with fields in range and room for a job, UNIT_SET with wait, HBM_RETRAIN and LC_ADVANCE begin their work and open a job
under the next number, with which the response is PENDING; REGION_REJOIN records the rejoin under the job's number and opens it;
FW_ACTIVATE opens its job and takes every pair OFFLINE. JOB_DONE of a job that has ended posts it. -/
def Obligations.JobsAreOpenedAndEnd : Prop :=
  (∀ (ep : Endpoint) (n : Fin 32) (elapsed : Nat) (s : State), s.dev.Waits ep n.val 0x0201 → s.dev.mode ≠ .load → 6 ≤ (s.dev.mail ep n.val).payload.length → s.dev.unitOk (payOf (s.dev.mail ep n.val).payload 0 4) = none → payOf (s.dev.mail ep n.val).payload 0 4 / 2 ^ 28 = 4 → payOf (s.dev.mail ep n.val).payload 4 1 = 0 → payOf (s.dev.mail ep n.val).payload 5 1 = 1 → s.dev.namedRegion (Dev.R (payOf (s.dev.mail ep n.val).payload 0 4 / 2 ^ 25)).val 0 = none → s.dev.thody.jobs = [] → Carried (.unitSet ep n elapsed) s [.regs, .mem, .line, .endpoints, .thody, .ledger, .wire] (fun e => s.dev.Quiet ep e ∧ s.dev.JobOpened ep n.val (.unitWait (Dev.R (payOf (s.dev.mail ep n.val).payload 0 4 / 2 ^ 25)).val 4 (payOf (s.dev.mail ep n.val).payload 0 4 % 2 ^ 16) (((s.dev.g (Dev.R (payOf (s.dev.mail ep n.val).payload 0 4 / 2 ^ 25))).tick + 1) % 2 ^ 48)) e ∧ s.dev.Stands ep n.val 1 e
        ∧ e.fld (RGN_PWR_REGION_park (Dev.R (payOf (s.dev.mail ep n.val).payload 0 4 / 2 ^ 25)).val) = 0))
  ∧ (∀ (ep : Endpoint) (n : Fin 32) (elapsed : Nat) (q x : Region) (s : State), s.dev.Waits ep n.val 0x0702 → (s.dev.mode.isRun = true ∨ s.dev.mode = .drain) → 1 ≤ (s.dev.mail ep n.val).payload.length → payOf (s.dev.mail ep n.val).payload 0 1 = q.val → s.dev.mladus q.val = true → s.dev.fenced q.val = true → s.dev.anchorSt.rejoin = none → s.dev.sibling q = some x → s.dev.runningJobs.length < 16 → q ≠ endpointRegion ep → ∃ t, exec (.regionRejoin ep n elapsed) s = .next t ∧ t.pending = s.pending ∧ t.dev.anchorSt = { s.dev.anchorSt with rejoin := some ⟨q.val, x.val, 1, 0, s.dev.thody.nextJob⟩ }
        ∧ s.dev.JobOpened ep n.val (.rejoin q.val) t.dev ∧ s.dev.Stands ep n.val 1 t.dev)
  ∧ (∀ (ep : Endpoint) (n : Fin 32) (elapsed : Nat) (q : Region) (s : State), s.dev.Waits ep n.val 0x0801 → s.dev.mode.isOpen = true → 1 ≤ (s.dev.mail ep n.val).payload.length → payOf (s.dev.mail ep n.val).payload 0 1 = q.val → s.dev.namedRegion q.val 0 = none → s.dev.runningJobs.length < 16 → (s.dev.g q).mode.isOpen = true → s.dev.hbmState q.val = 3 → Carried (.hbmRetrain ep n elapsed) s [.regs, .mem, .line, .endpoints, .thody, .wire] (fun e => s.dev.Quiet ep e ∧ s.dev.JobOpened ep n.val (.retrain q.val) e ∧ s.dev.Stands ep n.val 1 e ∧ e.hbmState q.val = 6 ∧ e.on (RGN_HBM_TRAIN_busy q.val) = true))
  ∧ (∀ (ep : Endpoint) (n : Fin 32) (elapsed : Nat) (s : State), s.dev.Waits ep n.val 0x0A02 → s.dev.mode = .drain → 4 ≤ (s.dev.mail ep n.val).payload.length → 1 ≤ payOf (s.dev.mail ep n.val).payload 0 4 → payOf (s.dev.mail ep n.val).payload 0 4 ≤ 2 ^ 24 → s.dev.runningJobs = [] → Carried (.fwActivate ep n elapsed) s [.regs, .mem, .line, .endpoints, .thody, .wire] (fun e => s.dev.Quiet ep e ∧ s.dev.JobOpened ep n.val (.activate (payOf (s.dev.mail ep n.val).payload 0 4)) e ∧ ∀ (f : Endpoint) (k : Fin 32), e.mbState f k.val = 0))
  ∧ (∀ (ep : Endpoint) (n : Fin 32) (elapsed : Nat) (s : State), s.dev.Waits ep n.val 0x0A03 → s.dev.mode = .configure → 1 ≤ (s.dev.mail ep n.val).payload.length → s.dev.chip.advance = none → payOf (s.dev.mail ep n.val).payload 0 1 = s.dev.lifeCycle + 1 → payOf (s.dev.mail ep n.val).payload 0 1 ≤ 5 → s.dev.lifeCycle ≠ 1 → s.dev.runningJobs.length < 16 → Carried (.lcAdvance ep n elapsed) s [.regs, .mem, .line, .endpoints, .poison, .ctxs, .chip, .thody, .wipes, .wire] (fun e => s.dev.Quiet ep e ∧ s.dev.JobOpened ep n.val (.advance (payOf (s.dev.mail ep n.val).payload 0 1)) e ∧ s.dev.Stands ep n.val 1 e ∧ e.chip = { s.dev.chip with advance := some (payOf (s.dev.mail ep n.val).payload 0 1) }))
  ∧ (∀ (num : Nat) (j : Job) (s : State), s.dev.thody.jobs.find? (fun j => j.num == num) = some j → j.state = 1 → Carried (.jobDone num) s [.regs, .mem, .wire, .line, .endpoints, .thody] (fun e => (∀ x ∈ e.thody.jobs, x.num = num → x.state = 2) ∧ e.thody.nextJob = s.dev.thody.nextJob))

/-! ### Faults, fences and rejoin -/

/-- MISSED_SHUTTER_CHECK of a standby that heard the anchor clears its count; in a retry episode, or with a module in TRAINING or REPAIR,
it counts a deferral; else the count rises by one, to at most 4. MP_FAILURE of an agent under a live primary raises the MP generation
and leaves the MP RESTARTING; of the anchor, or with no live primary, FAILED, with the pairs of its endpoint OFFLINE. MP_RESTART_DONE
leaves the MP running, counts, and brings its pairs back. FENCE_CTL_FENCE makes a fence fall due at the region's next shutter, of the
anchor or an empty position it is rejected, and a fenced region without a rejoin stays as it is. FENCE_CTL_REJOIN records the rejoin
with its source; REJOIN_RESET_DONE, REJOIN_SYNC_DONE and REJOIN_COPY_DONE go to phases 2, 3 and 4, the last naming the join tick two
ticks ahead; above 4,096 late images the rejoin fails. JOURNAL_SUPPRESS ends the millisecond and writes one entry where some were
suppressed. FAULT_ACK clears fault_n and every unacked bit. GUEST_CURRENT_LIMIT sets guest_limit and makes the fence of the guest fall
due. -/
def Obligations.FencesRejoinsAndTheLossOfProcessors : Prop :=
  (∀ (retry : Bool) (s : State), s.dev.standby ≠ s.dev.A → (s.dev.g (Dev.R s.dev.standby)).commit.heard ≠ [] → Carried (.missedShutterCheck retry) s [.regs, .commit] (fun e => e.fld (RGN_FAILOVER_STAT_missed (Dev.R s.dev.standby).val) = 0 ∧ (e.g (Dev.R s.dev.standby)).commit.heard = [] ∧ s.dev.RegsIn [RGN_FAILOVER_STAT (Dev.R s.dev.standby).val] e))
  ∧ (∀ (retry : Bool) (s : State), s.dev.standby ≠ s.dev.A → (s.dev.g (Dev.R s.dev.standby)).commit.heard = [] → (retry = true ∨ ∃ m < 6, s.dev.linkState (Dev.R s.dev.standby).val m = 1 ∨ s.dev.linkState (Dev.R s.dev.standby).val m = 3) → Carried (.missedShutterCheck retry) s [.regs, .mem, .line, .endpoints, .commit, .journal] (fun e => e.fld (RGN_FAILOVER_STAT_deferred (Dev.R s.dev.standby).val) = min 0xFFFF (s.dev.fld (RGN_FAILOVER_STAT_deferred (Dev.R s.dev.standby).val) + 1) ∧ e.fld (RGN_FAILOVER_STAT_missed (Dev.R s.dev.standby).val) = s.dev.fld (RGN_FAILOVER_STAT_missed (Dev.R s.dev.standby).val)))
  ∧ (∀ (s : State), s.dev.standby ≠ s.dev.A → (s.dev.g (Dev.R s.dev.standby)).commit.heard = [] → (∀ m < 6, s.dev.linkState (Dev.R s.dev.standby).val m ≠ 1 ∧ s.dev.linkState (Dev.R s.dev.standby).val m ≠ 3) → Carried (.missedShutterCheck false) s [.regs] (fun e => s.dev.Wrote (RGN_FAILOVER_STAT_missed (Dev.R s.dev.standby).val) (min 4 (s.dev.fld (RGN_FAILOVER_STAT_missed (Dev.R s.dev.standby).val) + 1)) e ∧ s.dev.RegsIn [RGN_FAILOVER_STAT (Dev.R s.dev.standby).val] e))
  ∧ (∀ (r : Region) (cause : Nat) (s : State), s.dev.mladus r.val = true → s.dev.fld (RGN_MP_STAT_state r.val) = 0 → s.dev.anchorLive = true → r.val ≠ s.dev.A → Carried (.mpFailure r cause) s [.regs, .mem, .wire, .line, .endpoints, .mirror, .mpGeneration, .journal] (fun e => e.fld (RGN_MP_STAT_state r.val) = 2 ∧ (e.g r).mpGeneration = ((s.dev.g r).mpGeneration + 1) % 128
        ∧ (∀ q, q ≠ r → (e.g q).mpGeneration = (s.dev.g q).mpGeneration)
        ∧ ∀ (ep : Endpoint) (n : Fin 32), endpointRegion ep = r → e.mbState ep n.val = 0))
  ∧ (∀ (r : Region) (cause : Nat) (s : State), s.dev.mladus r.val = true → s.dev.fld (RGN_MP_STAT_state r.val) = 0 → (s.dev.anchorLive = false ∨ r.val = s.dev.A) → Carried (.mpFailure r cause) s [.regs, .mem, .line, .endpoints, .journal] (fun e => e.fld (RGN_MP_STAT_state r.val) = 1 ∧ ∀ (ep : Endpoint) (n : Fin 32), endpointRegion ep = r → e.mbState ep n.val = 0))
  ∧ (∀ (r : Region) (s : State), s.dev.fld (RGN_MP_STAT_state r.val) = 2 → Carried (.mpRestartDone r) s [.regs, .mem, .line, .endpoints, .journal] (fun e => e.fld (RGN_MP_STAT_state r.val) = 0 ∧ e.fld (RGN_MP_STAT_restarts r.val) = min 0xFF (s.dev.fld (RGN_MP_STAT_restarts r.val) + 1)
        ∧ ∀ (ep : Endpoint) (n : Fin 32), endpointRegion ep = r → e.mbState ep n.val = (if (s.dev.mail ep n.val).opcode = 0 then 1
            else if (s.dev.mail ep n.val).wait = .fresh ∨ (s.dev.mail ep n.val).wait = .relay then 2 else 3)))
  ∧ (∀ (q : Region) (s : State), q.val ≠ s.dev.A → s.dev.present q.val = true → (s.dev.fenced q.val = false ∨ (s.dev.anchorSt.rejoin.map (·.region)) = some q.val) → Carried (.fenceCtlFence q) s [.commit] (fun e => (e.g q).commit = { (s.dev.g q).commit with fenceDue := if (s.dev.g q).commit.fenceDue = 0 then 8 else (s.dev.g q).commit.fenceDue }
        ∧ ∀ x, x ≠ q → (e.g x).commit = (s.dev.g x).commit))
  ∧ (∀ (q : Region) (s : State), (q.val = s.dev.A ∨ s.dev.present q.val = false) → Carried (.fenceCtlFence q) s [.regs] (fun e => s.dev.Wrote (CHP_FENCE_ERR_fence_rejected s.dev.A) 1 e ∧ s.dev.RegsIn [CHP_FENCE_ERR s.dev.A] e))
  ∧ (∀ (q : Region) (s : State), q.val ≠ s.dev.A → s.dev.fenced q.val = true → s.dev.present q.val = true → (s.dev.anchorSt.rejoin.map (·.region)) ≠ some q.val → Carried (.fenceCtlFence q) s [] (fun e => True))
  ∧ (∀ (q x : Region) (s : State), s.dev.mladus q.val = true → s.dev.fenced q.val = true → s.dev.anchorSt.rejoin = none → s.dev.sibling q = some x → ∃ t, exec (.fenceCtlRejoin q) s = .next t ∧ t.pending = s.pending
        ∧ t.dev.anchorSt = { s.dev.anchorSt with rejoin := some ⟨q.val, x.val, 1, 0, 0⟩ } ∧ t.dev.fld (CHP_REJOIN_STAT_phase s.dev.A) = 1
        ∧ t.dev.fld (CHP_REJOIN_STAT_region s.dev.A) = q.val ∧ t.dev.fld (CHP_REJOIN_STAT_source s.dev.A) = x.val)
  ∧ (∀ (q : Region) (s : State), (s.dev.mladus q.val = false ∨ s.dev.fenced q.val = false ∨ s.dev.anchorSt.rejoin ≠ none ∨ s.dev.sibling q = none) → Carried (.fenceCtlRejoin q) s [] (fun e => True))
  ∧ (∀ (x : Rejoin) (s : State), s.dev.anchorSt.rejoin = some x → x.phase = 1 → x.region < 8 → Carried (.rejoinResetDone) s [.regs, .anchorSt] (fun e => e.anchorSt = { s.dev.anchorSt with rejoin := some { x with phase := 2 } } ∧ e.fld (CHP_REJOIN_STAT_phase s.dev.A) = 2
        ∧ ∀ m < 6, (s.dev.facing x.region m).isSome = true → e.linkState x.region m = 1))
  ∧ (∀ (x : Rejoin) (s : State), s.dev.anchorSt.rejoin = some x → x.phase = 2 → Carried (.rejoinSyncDone) s [.regs, .anchorSt] (fun e => e.anchorSt = { s.dev.anchorSt with rejoin := some { x with phase := 3 } } ∧ e.fld (CHP_REJOIN_STAT_phase s.dev.A) = 3
        ∧ s.dev.RegsIn [CHP_REJOIN_STAT s.dev.A] e))
  ∧ (∀ (late : Nat) (x : Rejoin) (s : State), s.dev.anchorSt.rejoin = some x → x.phase = 3 → late ≤ 4096 → Carried (.rejoinCopyDone late) s [.regs, .anchorSt] (fun e => e.anchorSt = { s.dev.anchorSt with rejoin := some { x with phase := 4, joinAt := (s.dev.tick + 2) % 2 ^ 48 } } ∧ e.fld (CHP_REJOIN_STAT_phase s.dev.A) = 4
        ∧ e.fld (CHP_REJOIN_STAT_remaining s.dev.A) = 0 ∧ s.dev.RegsIn [CHP_REJOIN_STAT s.dev.A] e))
  ∧ (∀ (late : Nat) (x : Rejoin) (s : State), s.dev.anchorSt.rejoin = some x → x.phase = 3 → 4096 < late → x.region < 8 → Carried (.rejoinCopyDone late) s [.regs, .mem, .line, .anchorSt, .endpoints, .thody, .journal] (fun e => e.anchorSt = { s.dev.anchorSt with rejoin := none } ∧ e.fld (CHP_REJOIN_STAT_phase s.dev.A) = 7 ∧ e.fld (CHP_FENCE_CAUSE_cause s.dev.A x.region) = 0x0A
        ∧ e.on (CHP_FENCE_ERR_rejoin_failed s.dev.A) = true))
  ∧ (∀ (r : Region) (s : State), (s.dev.g r).journal.dropped = 0 → Carried (.journalSuppress r) s [.journal] (fun e => (e.g r).journal = { (s.dev.g r).journal with written := 0 } ∧ ∀ q, q ≠ r → (e.g q).journal = (s.dev.g q).journal))
  ∧ (∀ (r : Region) (s : State), (s.dev.g r).journal.dropped ≠ 0 → Carried (.journalSuppress r) s [.regs, .mem, .line, .endpoints, .journal] (fun e => (e.g r).journal = { (s.dev.g r).journal with written := 0, dropped := 0, line := if (s.dev.g r).journal.line = 16383 then 256 else (s.dev.g r).journal.line + 1 }
        ∧ e.fld (RGN_JNL_HEAD_number r.val) = (s.dev.fld (RGN_JNL_HEAD_number r.val) + 1) % 2 ^ 32))
  ∧ (∀ (s : State), Carried (.faultAck) s [.regs] (fun e => e.fld (CHP_FAULT_CTL_fault_n s.dev.A) = 0 ∧ (∀ r : Region, e.fld (RGN_JNL_STAT_unacked r.val) = 0)
        ∧ s.dev.RegsBut (fun a => a = CHP_FAULT_CTL s.dev.A ∨ ∃ r : Region, a = RGN_JNL_STAT r.val) e))
  ∧ (∀ (r : Region) (s : State), s.dev.guest r.val = true → s.dev.present r.val = true → Carried (.guestCurrentLimit r) s [.regs, .commit] (fun e => s.dev.Wrote (CHP_SUPPLY_ERR_guest_limit s.dev.A) 1 e ∧ s.dev.RegsIn [CHP_SUPPLY_ERR s.dev.A] e
        ∧ (e.g r).commit = { (s.dev.g r).commit with fenceDue := if (s.dev.g r).commit.fenceDue = 0 then 9 else (s.dev.g r).commit.fenceDue }
        ∧ ∀ q, q ≠ r → (e.g q).commit = (s.dev.g q).commit))

/-! ### Contexts, slots and channels -/

/-- ALL_WAITING of an all-waiting cell whose supervisor context waits makes it RUNNING, clears bit 18, gives bit 18 in rd, and it traps
where mie bit 17 and MIE are set; otherwise bit 18 of its events is set. THREAD_RESET of a worker whose cell runs leaves it idle, or
disabled, without packet, open message, event, pending mutation request, fault, coprocessor state or error, its placed packets
unstarted, its generation one higher and its registers as they were; THREAD_RESUME of a FAULTED worker lets it go on where it holds a
packet, and clears its fault; of a halted one ends the halt, and of any other does nothing. THREAD_HALT and DEBUG_HALT halt a context
that is neither disabled nor halted and note the state it had; DEBUG_RESUME ends the halt. The three THREAD commands of a supervisor
context set cfg_rejected. ICACHE_INVALIDATE empties one cell's cache. SLOT_CTL_APPLY makes the shadow slot table due at the next
shutter, unless it would change what a guaranteed worker owns in a run mode: then rejected is set. -/
def Obligations.ContextsAreResetHaltedResumedAndWoken : Prop :=
  (∀ (cell : CellId) (s : State), s.dev.allWaiting (Dev.cellOf cell) = true → (s.dev.ctx (Dev.cellOf cell * 32 + 16)).mode = .waiting → Carried (.allWaiting cell) s [.ctxs] (fun e => (e.ctx (Dev.cellOf cell * 32 + 16)).mode = .running ∧ (e.ctx (Dev.cellOf cell * 32 + 16)).waitMask = 0 ∧ (e.ctx (Dev.cellOf cell * 32 + 16)).waitRd = 0 ∧ bitOf (e.ctx (Dev.cellOf cell * 32 + 16)).sticky 18 = false
        ∧ ((s.dev.ctx (Dev.cellOf cell * 32 + 16)).waitRd ≠ 0 → bitOf (e.xreg (Dev.cellOf cell * 32 + 16) (s.dev.ctx (Dev.cellOf cell * 32 + 16)).waitRd).toNat 18 = true)
        ∧ ((s.dev.ctx (Dev.cellOf cell * 32 + 16)).mie = true → bitOf (s.dev.ctx (Dev.cellOf cell * 32 + 16)).mieMask.toNat 17 = true → (e.ctx (Dev.cellOf cell * 32 + 16)).pc = (s.dev.ctx (Dev.cellOf cell * 32 + 16)).mtvec &&& ~~~3#32)
        ∧ s.dev.OtherCtx [(Dev.cellOf cell * 32 + 16)] e))
  ∧ (∀ (cell : CellId) (s : State), s.dev.allWaiting (Dev.cellOf cell) = true → (s.dev.ctx (Dev.cellOf cell * 32 + 16)).mode ≠ .waiting → Carried (.allWaiting cell) s [.ctxs] (fun e => e.ctx (Dev.cellOf cell * 32 + 16) = { s.dev.ctx (Dev.cellOf cell * 32 + 16) with sticky := (s.dev.ctx (Dev.cellOf cell * 32 + 16)).sticky ||| 2 ^ 18 } ∧ s.dev.OtherCtx [(Dev.cellOf cell * 32 + 16)] e))
  ∧ (∀ (u : CtxId) (s : State), u.ctx.val ≠ 16 → s.dev.ctxRuns (Dev.ctxNo u) = true → Carried (.threadReset u) s [.regs, .mem, .poison, .wire, .ctxs, .tables, .pool, .mirror] (fun e => (e.ctx (Dev.ctxNo u)).mode = (if (s.dev.ctx (Dev.ctxNo u)).enable then .idle else .disabled) ∧ (e.ctx (Dev.ctxNo u)).held = none ∧ (e.ctx (Dev.ctxNo u)).openMsg = none
        ∧ (e.ctx (Dev.ctxNo u)).sticky = 0 ∧ (e.ctx (Dev.ctxNo u)).mutRd = none ∧ (e.ctx (Dev.ctxNo u)).copro = Dev.coproClear ∧ (e.ctx (Dev.ctxNo u)).cpxErr = none
        ∧ (e.ctx (Dev.ctxNo u)).faultValid = false ∧ (∀ x ∈ (e.ctx (Dev.ctxNo u)).placed, x.retired = false ∧ x.ready = false)
        ∧ (e.ctx (Dev.ctxNo u)).generation = ((s.dev.ctx (Dev.ctxNo u)).generation + 1) % 128 ∧ (∀ j, e.xreg (Dev.ctxNo u) j = s.dev.xreg (Dev.ctxNo u) j)
        ∧ bitOf (e.faultPend (Dev.ctxNo u / 32)) (Dev.ctxNo u % 32) = false ∧ s.dev.OtherCtx [Dev.ctxNo u] e))
  ∧ (∀ (u : CtxId) (s : State), u.ctx.val ≠ 16 → s.dev.ctxRuns (Dev.ctxNo u) = true → (s.dev.ctx (Dev.ctxNo u)).mode = .faulted → Carried (.threadResume u) s [.regs, .ctxs] (fun e => (e.ctx (Dev.ctxNo u)) = { s.dev.ctx (Dev.ctxNo u) with mode := if (s.dev.ctx (Dev.ctxNo u)).held.isSome then .running else s.dev.restState (Dev.ctxNo u), faultValid := false, faultCause := 0 }
        ∧ bitOf (e.faultPend (Dev.ctxNo u / 32)) (Dev.ctxNo u % 32) = false ∧ s.dev.OtherCtx [Dev.ctxNo u] e ∧ s.dev.RegsIn [CEL_FAULT_PEND (Dev.ctxNo u / 32)] e))
  ∧ (∀ (u : CtxId) (m : CtxMode) (s : State) (c : Instr), u.ctx.val ≠ 16 → s.dev.ctxRuns (Dev.ctxNo u) = true → (s.dev.ctx (Dev.ctxNo u)).mode = .debugHalted → (s.dev.ctx (Dev.ctxNo u)).haltedFrom ≠ .waiting → m ≠ .fillWait → (c = .threadResume u ∨ c = .debugResume u) → m = (if (s.dev.ctx (Dev.ctxNo u)).haltedFrom = .faulted then .faulted else if (s.dev.ctx (Dev.ctxNo u)).held.isSome then (if (s.dev.ctx (Dev.ctxNo u)).haltedFrom = .fillWait then .fillWait else .running) else if (s.dev.ctx (Dev.ctxNo u)).haltedFrom = .fillWait then .idle else s.dev.restState (Dev.ctxNo u)) → Carried c s [.ctxs] (fun e =>
      e.ctx (Dev.ctxNo u) = { s.dev.ctx (Dev.ctxNo u) with mode := m, haltedFrom := .idle } ∧ s.dev.OtherCtx [Dev.ctxNo u] e))
  ∧ (∀ (u : CtxId) (s : State) (c : Instr), u.ctx.val ≠ 16 → s.dev.ctxRuns (Dev.ctxNo u) = true → (s.dev.ctx (Dev.ctxNo u)).mode = .debugHalted → (s.dev.ctx (Dev.ctxNo u)).haltedFrom = .fillWait → (s.dev.ctx (Dev.ctxNo u)).held.isSome = true → (c = .threadResume u ∨ c = .debugResume u) → Carried c s [.regs, .wire, .ctxs] (fun e =>
      e.ctx (Dev.ctxNo u) = { s.dev.ctx (Dev.ctxNo u) with mode := .fillWait, haltedFrom := .idle } ∧ s.dev.OtherWorkers [Dev.ctxNo u] e ∧ s.dev.RegsSig [] e))
  ∧ (∀ (u : CtxId) (s : State) (c : Instr), s.dev.ctxRuns (Dev.ctxNo u) = true → (s.dev.ctx (Dev.ctxNo u)).mode = .debugHalted → ((s.dev.ctx (Dev.ctxNo u)).haltedFrom = .waiting ∨ u.ctx.val = 16) → (c = .debugResume u ∨ (u.ctx.val ≠ 16 ∧ c = .threadResume u)) → Carried c s [.regs, .wire, .ctxs] (fun e =>
      (e.ctx (Dev.ctxNo u)).mode ≠ .debugHalted ∧ s.dev.OtherWorkers [Dev.ctxNo u] e ∧ s.dev.RegsSig [] e))
  ∧ (∀ (u : CtxId) (s : State) (c : Instr), s.dev.ctxRuns (Dev.ctxNo u) = true → (s.dev.ctx (Dev.ctxNo u)).mode ≠ .debugHalted → (c = .debugResume u ∨ (u.ctx.val ≠ 16 ∧ (s.dev.ctx (Dev.ctxNo u)).mode ≠ .faulted ∧ c = .threadResume u)) → Carried c s [] (fun _ => True))
  ∧ (∀ (u : CtxId) (s : State) (c : Instr), s.dev.ctxRuns (Dev.ctxNo u) = true → (s.dev.ctx (Dev.ctxNo u)).mode ≠ .disabled → (s.dev.ctx (Dev.ctxNo u)).mode ≠ .debugHalted → (c = .debugHalt u ∨ (u.ctx.val ≠ 16 ∧ c = .threadHalt u)) → Carried c s [.ctxs] (fun e =>
      e.ctx (Dev.ctxNo u) = { s.dev.ctx (Dev.ctxNo u) with mode := .debugHalted, haltedFrom := (s.dev.ctx (Dev.ctxNo u)).mode } ∧ s.dev.OtherCtx [Dev.ctxNo u] e))
  ∧ (∀ (u : CtxId) (s : State) (c : Instr), s.dev.ctxRuns (Dev.ctxNo u) = true → ((s.dev.ctx (Dev.ctxNo u)).mode = .disabled ∨ (s.dev.ctx (Dev.ctxNo u)).mode = .debugHalted) → (c = .debugHalt u ∨ (u.ctx.val ≠ 16 ∧ c = .threadHalt u)) → Carried c s [] (fun _ => True))
  ∧ (∀ (u : CtxId) (s : State) (c : Instr), u.ctx.val = 16 → s.dev.ctxRuns (Dev.ctxNo u) = true → c ∈ [Instr.threadReset u, Instr.threadResume u, Instr.threadHalt u] → Carried c s [.regs, .wire, .ctxs] (fun e =>
      e.on (BLK_CORE_ERR_cfg_rejected u.region.val u.block.val) = true ∧ s.dev.OtherWorkers [] e ∧ s.dev.RegsSig [BLK_CORE_ERR u.region.val u.block.val] e))
  ∧ (∀ (cell : CellId) (s : State), Carried (.icacheInvalidate cell) s [.cells] (fun e => e.cell (Dev.cellOf cell) = { s.dev.cell (Dev.cellOf cell) with icache := [] } ∧ ∀ c, c ≠ Dev.cellOf cell → e.cell c = s.dev.cell c))
  ∧ (∀ (cell : CellId) (s : State), s.dev.slotsBarred cell.region (Dev.cellOf cell) = false → Carried (.slotCtlApply cell) s [.regs, .cells] (fun e => e.cell (Dev.cellOf cell) = { s.dev.cell (Dev.cellOf cell) with applyDue := true } ∧ (∀ c, c ≠ Dev.cellOf cell → e.cell c = s.dev.cell c)
        ∧ s.dev.Wrote (CEL_SLOT_CTL_pending (Dev.cellOf cell)) 1 e ∧ s.dev.RegsIn [CEL_SLOT_CTL (Dev.cellOf cell)] e))
  ∧ (∀ (cell : CellId) (s : State), s.dev.slotsBarred cell.region (Dev.cellOf cell) = true → Carried (.slotCtlApply cell) s [.regs, .wire, .ctxs] (fun e => e.on (CEL_SLOT_CTL_rejected (Dev.cellOf cell)) = true ∧ s.dev.RegsSig [CEL_SLOT_CTL (Dev.cellOf cell)] e))

/-- CHOPEN of an enabled channel that the context may send on, with none open, opens a message and writes OK; of one that is not enabled
it writes NOT_ENABLED, and with a message open, BUSY. CHPUT adds rs2 to the open message of its channel, up to eight words, a ninth is
an overflow, and a put that no open message of the channel takes sets put_stray. CHCLOSE of an open message: with abort it is
discarded; a block channel with fewer than 16 messages takes it, its depth one more; with none of that room the message stays open and
FULL is written. CHGET at an enabled channel that the context receives on takes the oldest message, whose words go to the destination
with zeros to 32 bytes, or writes EMPTY; a destination that is not aligned, or lies outside the data area and the context's own
frames, is a store access fault. CH_MSG at its home makes the message visible, or, with the channel disabled, discards and counts it
and returns the credit. CH_CREDIT_RETURN gives the block its credit back. CH_FLUSH discards every visible message of a channel that
exists, and counts them. -/
def Obligations.ChannelsCarryMessages : Prop :=
  (∀ (u : CtxId) (w : Word) (s : State), s.dev.Issues u w → (insnOf w).op = .chopen → (selOf (s.dev.xreg (Dev.ctxNo u) (insnOf w).rs1)).reserved = 0 → (selOf (s.dev.xreg (Dev.ctxNo u) (insnOf w).rs1)).abort = false → (selOf (s.dev.xreg (Dev.ctxNo u) (insnOf w).rs1)).any = false → (selOf (s.dev.xreg (Dev.ctxNo u) (insnOf w).rs1)).dest = 0 → s.dev.chanEnabled (selOf (s.dev.xreg (Dev.ctxNo u) (insnOf w).rs1)).regional u.region.val u.block.val (selOf (s.dev.xreg (Dev.ctxNo u) (insnOf w).rs1)).channel = true → (u.ctx.val = 16 ∨ s.dev.on (if (selOf (s.dev.xreg (Dev.ctxNo u) (insnOf w).rs1)).regional then RGN_RCH_CFG_workers_send u.region.val (selOf (s.dev.xreg (Dev.ctxNo u) (insnOf w).rs1)).channel else BLK_CH_CFG_workers_send u.region.val u.block.val (selOf (s.dev.xreg (Dev.ctxNo u) (insnOf w).rs1)).channel) = true) → (s.dev.ctx (Dev.ctxNo u)).openMsg = none → Carried (.chopen u w) s [.regs, .wire, .ctxs, .cells] (fun e => (e.ctx (Dev.ctxNo u)).openMsg = some ⟨(selOf (s.dev.xreg (Dev.ctxNo u) (insnOf w).rs1)).regional, (selOf (s.dev.xreg (Dev.ctxNo u) (insnOf w).rs1)).channel, [], false⟩ ∧ Dev.Sets (Dev.ctxNo u) (insnOf w).rd (chWord 0 (selOf (s.dev.xreg (Dev.ctxNo u) (insnOf w).rs1)).regional (selOf (s.dev.xreg (Dev.ctxNo u) (insnOf w).rs1)).channel 0) s.dev e
        ∧ Dev.GoesTo (Dev.ctxNo u) ((s.dev.ctx (Dev.ctxNo u)).pc + lenOf w) s.dev e ∧ s.dev.OtherWorkers [Dev.ctxNo u] e))
  ∧ (∀ (u : CtxId) (w code : Word) (s : State), s.dev.Issues u w → (insnOf w).op = .chopen → (selOf (s.dev.xreg (Dev.ctxNo u) (insnOf w).rs1)).reserved = 0 → (selOf (s.dev.xreg (Dev.ctxNo u) (insnOf w).rs1)).abort = false → (selOf (s.dev.xreg (Dev.ctxNo u) (insnOf w).rs1)).any = false → (selOf (s.dev.xreg (Dev.ctxNo u) (insnOf w).rs1)).dest = 0 → ((s.dev.chanEnabled (selOf (s.dev.xreg (Dev.ctxNo u) (insnOf w).rs1)).regional u.region.val u.block.val (selOf (s.dev.xreg (Dev.ctxNo u) (insnOf w).rs1)).channel = false ∧ code = chWord 4 (selOf (s.dev.xreg (Dev.ctxNo u) (insnOf w).rs1)).regional (selOf (s.dev.xreg (Dev.ctxNo u) (insnOf w).rs1)).channel 0) ∨ (s.dev.chanEnabled (selOf (s.dev.xreg (Dev.ctxNo u) (insnOf w).rs1)).regional u.region.val u.block.val (selOf (s.dev.xreg (Dev.ctxNo u) (insnOf w).rs1)).channel = true ∧ u.ctx.val = 16 ∧ ∃ m, (s.dev.ctx (Dev.ctxNo u)).openMsg = some m ∧ code = chWord 3 m.regional m.channel 0)) → Carried (.chopen u w) s [.regs, .wire, .ctxs, .cells] (fun e => Dev.Retires (Dev.ctxNo u) (insnOf w).rd code ((s.dev.ctx (Dev.ctxNo u)).pc + lenOf w) [] s.dev e ∧ (e.ctx (Dev.ctxNo u)).openMsg = (s.dev.ctx (Dev.ctxNo u)).openMsg))
  ∧ (∀ (u : CtxId) (w : Word) (m : OpenMsg) (s : State), s.dev.Issues u w → (insnOf w).op = .chput → (s.dev.ctx (Dev.ctxNo u)).openMsg = some m → m.regional = (selOf (s.dev.xreg (Dev.ctxNo u) (insnOf w).rs1)).regional → m.channel = (selOf (s.dev.xreg (Dev.ctxNo u) (insnOf w).rs1)).channel → Carried (.chput u w) s [.regs, .wire, .ctxs, .cells] (fun e => (e.ctx (Dev.ctxNo u)).openMsg = some (if m.words.length < 8 then { m with words := m.words ++ [s.dev.xreg (Dev.ctxNo u) (insnOf w).rs2] } else { m with overflow := true })
        ∧ Dev.Retires (Dev.ctxNo u) 0 0 ((s.dev.ctx (Dev.ctxNo u)).pc + lenOf w) [] s.dev e))
  ∧ (∀ (u : CtxId) (w : Word) (s : State), s.dev.Issues u w → (insnOf w).op = .chput → (∀ m, (s.dev.ctx (Dev.ctxNo u)).openMsg = some m → ¬ (m.regional = (selOf (s.dev.xreg (Dev.ctxNo u) (insnOf w).rs1)).regional ∧ m.channel = (selOf (s.dev.xreg (Dev.ctxNo u) (insnOf w).rs1)).channel)) → Carried (.chput u w) s [.regs, .wire, .ctxs, .cells] (fun e => e.on (if (selOf (s.dev.xreg (Dev.ctxNo u) (insnOf w).rs1)).regional then RGN_RCH_ERR_put_stray u.region.val else BLK_CH_ERR_put_stray u.region.val u.block.val) = true
        ∧ Dev.Retires (Dev.ctxNo u) 0 0 ((s.dev.ctx (Dev.ctxNo u)).pc + lenOf w) [RGN_RCH_ERR u.region.val, BLK_CH_ERR u.region.val u.block.val] s.dev e))
  ∧ (∀ (u : CtxId) (w : Word) (m : OpenMsg) (s : State), s.dev.Issues u w → (insnOf w).op = .chclose → s.dev.heldBack (Dev.ctxNo u) = false → s.dev.writesOut (Dev.ctxNo u) = false → (selOf (s.dev.xreg (Dev.ctxNo u) (insnOf w).rs1)).reserved = 0 → (selOf (s.dev.xreg (Dev.ctxNo u) (insnOf w).rs1)).any = false → (selOf (s.dev.xreg (Dev.ctxNo u) (insnOf w).rs1)).dest = 0 → (s.dev.ctx (Dev.ctxNo u)).openMsg = some m → m.regional = false → (selOf (s.dev.xreg (Dev.ctxNo u) (insnOf w).rs1)).regional = false → m.channel = (selOf (s.dev.xreg (Dev.ctxNo u) (insnOf w).rs1)).channel → s.dev.chanEnabled false u.region.val u.block.val m.channel = true → (selOf (s.dev.xreg (Dev.ctxNo u) (insnOf w).rs1)).abort = false → m.overflow = false → (s.dev.chanMsgs false u.region.val u.block.val m.channel).length < 16 → Carried (.chclose u w) s [.regs, .wire, .ctxs, .cells, .blockCh] (fun e => e.chanMsgs false u.region.val u.block.val m.channel = s.dev.chanMsgs false u.region.val u.block.val m.channel ++ [⟨u.block.val, s.dev.ctxHolder (Dev.ctxNo u), m.words⟩]
        ∧ e.fld (BLK_CH_STAT_depth u.region.val u.block.val m.channel) = (s.dev.chanMsgs false u.region.val u.block.val m.channel).length + 1
        ∧ (e.ctx (Dev.ctxNo u)).openMsg = none ∧ Dev.GoesTo (Dev.ctxNo u) ((s.dev.ctx (Dev.ctxNo u)).pc + lenOf w) s.dev e))
  ∧ (∀ (u : CtxId) (w : Word) (m : OpenMsg) (s : State), s.dev.Issues u w → (insnOf w).op = .chclose → s.dev.heldBack (Dev.ctxNo u) = false → s.dev.writesOut (Dev.ctxNo u) = false → (selOf (s.dev.xreg (Dev.ctxNo u) (insnOf w).rs1)).reserved = 0 → (selOf (s.dev.xreg (Dev.ctxNo u) (insnOf w).rs1)).any = false → (selOf (s.dev.xreg (Dev.ctxNo u) (insnOf w).rs1)).dest = 0 → (s.dev.ctx (Dev.ctxNo u)).openMsg = some m → m.regional = (selOf (s.dev.xreg (Dev.ctxNo u) (insnOf w).rs1)).regional → m.channel = (selOf (s.dev.xreg (Dev.ctxNo u) (insnOf w).rs1)).channel → s.dev.chanEnabled (selOf (s.dev.xreg (Dev.ctxNo u) (insnOf w).rs1)).regional u.region.val u.block.val m.channel = true → Carried (.chclose u w) s [.regs, .wire, .ctxs, .cells, .blockCh, .chSpent] (fun e => ((selOf (s.dev.xreg (Dev.ctxNo u) (insnOf w).rs1)).abort = true → (e.ctx (Dev.ctxNo u)).openMsg = none ∧ Dev.Sets (Dev.ctxNo u) (insnOf w).rd (chWord 0 (selOf (s.dev.xreg (Dev.ctxNo u) (insnOf w).rs1)).regional m.channel 0) s.dev e)
        ∧ ((selOf (s.dev.xreg (Dev.ctxNo u) (insnOf w).rs1)).abort = false → m.overflow = false → s.dev.chanRoom (selOf (s.dev.xreg (Dev.ctxNo u) (insnOf w).rs1)).regional u.region.val u.block.val m.channel = false →
          (e.ctx (Dev.ctxNo u)).openMsg = some m ∧ Dev.Sets (Dev.ctxNo u) (insnOf w).rd (chWord 1 (selOf (s.dev.xreg (Dev.ctxNo u) (insnOf w).rs1)).regional m.channel 0) s.dev e)
        ∧ Dev.GoesTo (Dev.ctxNo u) ((s.dev.ctx (Dev.ctxNo u)).pc + lenOf w) s.dev e))
  ∧ (∀ (u : CtxId) (w : Word) (m : ChannelMsg) (t : List ChannelMsg) (s : State), s.dev.Issues u w → (insnOf w).op = .chget → (selOf (s.dev.xreg (Dev.ctxNo u) (insnOf w).rs1)).dest % 32 = 0 → Dev.ownArea (Dev.ctxNo u) (selOf (s.dev.xreg (Dev.ctxNo u) (insnOf w).rs1)).dest = true → (selOf (s.dev.xreg (Dev.ctxNo u) (insnOf w).rs1)).reserved = 0 → (selOf (s.dev.xreg (Dev.ctxNo u) (insnOf w).rs1)).abort = false → (selOf (s.dev.xreg (Dev.ctxNo u) (insnOf w).rs1)).any = false → (selOf (s.dev.xreg (Dev.ctxNo u) (insnOf w).rs1)).regional = false → s.dev.chanEnabled false u.region.val u.block.val (selOf (s.dev.xreg (Dev.ctxNo u) (insnOf w).rs1)).channel = true → s.dev.chanReceives false (selOf (s.dev.xreg (Dev.ctxNo u) (insnOf w).rs1)).channel (Dev.ctxNo u) = true → s.dev.chanMsgs false u.region.val u.block.val (selOf (s.dev.xreg (Dev.ctxNo u) (insnOf w).rs1)).channel = m :: t → m.words.length ≤ 8 → Carried (.chget u w) s [.regs, .wire, .ctxs, .cells, .mem, .poison, .blockCh] (fun e => e.chanMsgs false u.region.val u.block.val (selOf (s.dev.xreg (Dev.ctxNo u) (insnOf w).rs1)).channel = t ∧ e.bytes (Dev.clmAddr (Dev.ctxNo u / 32) (selOf (s.dev.xreg (Dev.ctxNo u) (insnOf w).rs1)).dest) 32 = padTo 32 (m.words.flatMap (fun v => bytesLE 4 v.toNat))
        ∧ (∀ a, a < Dev.clmAddr (Dev.ctxNo u / 32) (selOf (s.dev.xreg (Dev.ctxNo u) (insnOf w).rs1)).dest ∨ Dev.clmAddr (Dev.ctxNo u / 32) (selOf (s.dev.xreg (Dev.ctxNo u) (insnOf w).rs1)).dest + 32 ≤ a → e.byte a = s.dev.byte a)
        ∧ Dev.Sets (Dev.ctxNo u) (insnOf w).rd (chWord 0 false (selOf (s.dev.xreg (Dev.ctxNo u) (insnOf w).rs1)).channel m.words.length) s.dev e ∧ Dev.GoesTo (Dev.ctxNo u) ((s.dev.ctx (Dev.ctxNo u)).pc + lenOf w) s.dev e))
  ∧ (∀ (u : CtxId) (w : Word) (s : State), s.dev.Issues u w → (insnOf w).op = .chget → (selOf (s.dev.xreg (Dev.ctxNo u) (insnOf w).rs1)).dest % 32 = 0 → Dev.ownArea (Dev.ctxNo u) (selOf (s.dev.xreg (Dev.ctxNo u) (insnOf w).rs1)).dest = true → (selOf (s.dev.xreg (Dev.ctxNo u) (insnOf w).rs1)).reserved = 0 → (selOf (s.dev.xreg (Dev.ctxNo u) (insnOf w).rs1)).abort = false → (selOf (s.dev.xreg (Dev.ctxNo u) (insnOf w).rs1)).any = false → (selOf (s.dev.xreg (Dev.ctxNo u) (insnOf w).rs1)).regional = false → s.dev.chanEnabled false u.region.val u.block.val (selOf (s.dev.xreg (Dev.ctxNo u) (insnOf w).rs1)).channel = true → s.dev.chanReceives false (selOf (s.dev.xreg (Dev.ctxNo u) (insnOf w).rs1)).channel (Dev.ctxNo u) = true → s.dev.chanMsgs false u.region.val u.block.val (selOf (s.dev.xreg (Dev.ctxNo u) (insnOf w).rs1)).channel = [] → Carried (.chget u w) s [.regs, .wire, .ctxs, .cells] (fun e => Dev.Retires (Dev.ctxNo u) (insnOf w).rd (chWord 2 false (selOf (s.dev.xreg (Dev.ctxNo u) (insnOf w).rs1)).channel 0) ((s.dev.ctx (Dev.ctxNo u)).pc + lenOf w) [] s.dev e))
  ∧ (∀ (u : CtxId) (w : Word) (s : State), s.dev.Issues u w → (insnOf w).op = .chget → ((selOf (s.dev.xreg (Dev.ctxNo u) (insnOf w).rs1)).dest % 32 ≠ 0 ∨ Dev.ownArea (Dev.ctxNo u) (selOf (s.dev.xreg (Dev.ctxNo u) (insnOf w).rs1)).dest = false) → Carried (.chget u w) s [.regs, .wire, .ctxs, .cells] (fun e => Dev.Excepts (Dev.ctxNo u) 7 (BitVec.ofNat 32 (selOf (s.dev.xreg (Dev.ctxNo u) (insnOf w).rs1)).dest) [] s.dev e))
  ∧ (∀ (r : Region) (channel holder : Nat) (words : List Word) (s : State), s.dev.inTurn r.val r.val (.chMsg channel holder words) = true → s.dev.chanEnabled true r.val 0 channel = true → (s.dev.chanMsgs true r.val 0 channel).length < 31 → Carried (.chMsg r channel holder words) s [.regs, .wire, .ctxs, .regionCh] (fun e => e.chanMsgs true r.val 0 channel = (s.dev.chanMsgs true r.val 0 channel) ++ [⟨bitsOf holder 20 17, holder, words⟩] ∧ (∀ n, n ≠ channel → e.chanMsgs true r.val 0 n = s.dev.chanMsgs true r.val 0 n)
        ∧ e.fld (RGN_RCH_STAT_depth r.val channel) = (s.dev.chanMsgs true r.val 0 channel).length + 1 ∧ s.dev.RegsIn [RGN_RCH_STAT r.val channel] e
        ∧ s.dev.OtherCtx [s.dev.receiver true r.val 0 channel] e))
  ∧ (∀ (r : Region) (channel holder : Nat) (words : List Word) (s : State), s.dev.inTurn r.val r.val (.chMsg channel holder words) = true → s.dev.chanEnabled true r.val 0 channel = false → Carried (.chMsg r channel holder words) s [.regs, .wire] (fun e => e.fld (RGN_RCH_STAT_discarded r.val channel) = min 255 (s.dev.fld (RGN_RCH_STAT_discarded r.val channel) + 1)
        ∧ s.dev.RegsIn [RGN_RCH_STAT r.val channel] e ∧ ∃ l, e.wire = l ++ [⟨r.val, r.val, .chCredit channel (bitsOf holder 20 17)⟩]))
  ∧ (∀ (r : Region) (b : Block) (channel : Nat) (s : State), s.dev.inTurn r.val r.val (.chCredit channel b.val) = true → Sparse.Wf Dev.ctxDefault s.dev.ctxs → Carried (.chCreditReturn r b channel) s [.wire, .ctxs, .chSpent] (fun e => (∀ n, Sparse.get (fun _ => false) e.chSpent n = if n = (r.val * 256 + channel) * 16 + b.val then false else Sparse.get (fun _ => false) s.dev.chSpent n)
        ∧ ∀ j, (s.dev.ctx j).openMsg = none → e.ctx j = s.dev.ctx j))
  ∧ (∀ (r : Region) (b : Block) (channel : Nat) (s : State), channel < 256 → Carried (.chFlush r b true channel) s [.regs, .wire, .regionCh] (fun e => e.chanMsgs true r.val b.val channel = [] ∧ e.fld (RGN_RCH_STAT_depth r.val channel) = 0
        ∧ e.fld (RGN_RCH_STAT_discarded r.val channel) = min 255 (s.dev.fld (RGN_RCH_STAT_discarded r.val channel) + (s.dev.chanMsgs true r.val b.val channel).length)
        ∧ e.wire = s.dev.wire ++ (s.dev.chanMsgs true r.val b.val channel).map (fun m => ⟨r.val, r.val, .chCredit channel m.block⟩)
        ∧ (∀ n, n ≠ channel → e.chanMsgs true r.val b.val n = s.dev.chanMsgs true r.val b.val n)))
  ∧ (∀ (r : Region) (b : Block) (channel : Nat) (s : State), channel < 64 → Sparse.Wf Dev.ctxDefault s.dev.ctxs → Carried (.chFlush r b false channel) s [.regs, .ctxs, .blockCh] (fun e => e.chanMsgs false r.val b.val channel = [] ∧ e.fld (BLK_CH_STAT_depth r.val b.val channel) = 0
        ∧ e.fld (BLK_CH_STAT_discarded r.val b.val channel) = min 255 (s.dev.fld (BLK_CH_STAT_discarded r.val b.val channel) + (s.dev.chanMsgs false r.val b.val channel).length)
        ∧ (∀ j, (s.dev.ctx j).openMsg = none → e.ctx j = s.dev.ctx j)))
  ∧ (∀ (r : Region) (b : Block) (regional : Bool) (channel : Nat) (s : State), ¬ (if regional then channel < 256 else channel < 64) → Carried (.chFlush r b regional channel) s [] (fun e => True))

/-! ### Instructions -/

/-- Said of a word that a running context fetches and whose registers are there. An integer instruction writes rd as RV32IM computes it,
LUI and AUIPC the immediate, jumps the address after them, and a branch is taken as its condition says; other registers, contexts of
workers and registers of the part stand, but for those of interrupts and monitors. An encoding that no row takes, LR.W, SC.W, FENCE.I,
MRET, WFI and a claim in a worker, and a CSR that does not exist for the context or is written though read-only, raise illegal
instruction; ECALL raises 8 or 11, EBREAK 3, a pc outside the instruction store 1. A worker is FAULTED at its pc, the supervisor
context enters its handler. MRET returns to mepc with MIE as MPIE was. WFE and WFI complete at once where an event of the mask (for
the supervisor context also INTERRUPT, WORKER_FAULT, ALL_WAITING) is set, clear the sticky bits they return, or wait. SEV sets bits
[15:8] of a context of the cell. FENCE completes with no access out. Counter, identity, trap and stamp CSRs read as listed; mie, mtvec
and mscratch are written; time snapshots timeh, CEL_RXTS_NS the seconds; a claim takes the best source. -/
def Obligations.InstructionsComputeJumpWaitAndTrap : Prop :=
  (∀ (u : CtxId) (w : Word) (s : State), s.dev.Issues u w → ((insnOf w).op = .alu ∨ (insnOf w).op = .aluImm) → Carried (.integerInstruction u w) s [.regs, .wire, .ctxs, .cells] (fun e => Dev.Retires (Dev.ctxNo u) (insnOf w).rd (aluOp (insnOf w).code (s.dev.xreg (Dev.ctxNo u) (insnOf w).rs1) (if (insnOf w).op = .alu then (s.dev.xreg (Dev.ctxNo u) (insnOf w).rs2) else (insnOf w).imm)) ((s.dev.ctx (Dev.ctxNo u)).pc + lenOf w) [] s.dev e))
  ∧ (∀ (u : CtxId) (w : Word) (s : State), s.dev.Issues u w → ((insnOf w).op = .lui ∨ (insnOf w).op = .auipc) → Carried (.integerInstruction u w) s [.regs, .wire, .ctxs, .cells] (fun e => Dev.Retires (Dev.ctxNo u) (insnOf w).rd ((if (insnOf w).op = .lui then 0 else (s.dev.ctx (Dev.ctxNo u)).pc) + (insnOf w).imm) ((s.dev.ctx (Dev.ctxNo u)).pc + lenOf w) [] s.dev e))
  ∧ (∀ (u : CtxId) (w : Word) (s : State), s.dev.Issues u w → ((insnOf w).op = .jal ∨ (insnOf w).op = .jalr) → Carried (.integerInstruction u w) s [.regs, .wire, .ctxs, .cells] (fun e => Dev.Retires (Dev.ctxNo u) (insnOf w).rd ((s.dev.ctx (Dev.ctxNo u)).pc + lenOf w) (if (insnOf w).op = .jal then (s.dev.ctx (Dev.ctxNo u)).pc + (insnOf w).imm else ((s.dev.xreg (Dev.ctxNo u) (insnOf w).rs1) + (insnOf w).imm) &&& ~~~1#32) [] s.dev e))
  ∧ (∀ (u : CtxId) (w : Word) (s : State), s.dev.Issues u w → (insnOf w).op = .branch → Carried (.integerInstruction u w) s [.regs, .wire, .ctxs, .cells] (fun e => Dev.Retires (Dev.ctxNo u) 0 0 (if branchTaken (insnOf w).code (s.dev.xreg (Dev.ctxNo u) (insnOf w).rs1) (s.dev.xreg (Dev.ctxNo u) (insnOf w).rs2) then (s.dev.ctx (Dev.ctxNo u)).pc + (insnOf w).imm else ((s.dev.ctx (Dev.ctxNo u)).pc + lenOf w)) [] s.dev e))
  ∧ (∀ (u : CtxId) (w : Word) (s : State), s.dev.Issues u w → (insnOf w).op = .illegal → Carried (.integerInstruction u w) s [.regs, .wire, .ctxs, .cells] (fun e => ∃ tval, Dev.Excepts (Dev.ctxNo u) 2 tval [] s.dev e))
  ∧ (∀ (u : CtxId) (w : Word) (s : State), s.dev.ctxRuns (Dev.ctxNo u) = true → (s.dev.ctx (Dev.ctxNo u)).mode = .running → (s.dev.ctx (Dev.ctxNo u)).mutRd = none → s.dev.blockState u.region.val u.block.val = 0 → 2 ^ 19 ≤ (s.dev.ctx (Dev.ctxNo u)).pc.toNat → Carried (.integerInstruction u w) s [.regs, .wire, .ctxs, .cells] (fun e => Dev.Excepts (Dev.ctxNo u) 1 (s.dev.ctx (Dev.ctxNo u)).pc [] s.dev e))
  ∧ (∀ (u : CtxId) (w : Word) (s : State), s.dev.Issues u w → (insnOf w).op = .lr → Carried (.lrW u w) s [.regs, .wire, .ctxs, .cells] (fun e => ∃ tval, Dev.Excepts (Dev.ctxNo u) 2 tval [] s.dev e))
  ∧ (∀ (u : CtxId) (w : Word) (s : State), s.dev.Issues u w → (insnOf w).op = .sc → Carried (.scW u w) s [.regs, .wire, .ctxs, .cells] (fun e => ∃ tval, Dev.Excepts (Dev.ctxNo u) 2 tval [] s.dev e))
  ∧ (∀ (u : CtxId) (w : Word) (s : State), s.dev.Issues u w → (insnOf w).op = .fenceI → Carried (.fenceI u w) s [.regs, .wire, .ctxs, .cells] (fun e => ∃ tval, Dev.Excepts (Dev.ctxNo u) 2 tval [] s.dev e))
  ∧ (∀ (u : CtxId) (w : Word) (s : State), s.dev.Issues u w → (insnOf w).op = .ecall → Carried (.ecall u w) s [.regs, .wire, .ctxs, .cells] (fun e => Dev.Excepts (Dev.ctxNo u) (if u.ctx.val = 16 then 11 else 8) 0 [] s.dev e))
  ∧ (∀ (u : CtxId) (w : Word) (s : State), s.dev.Issues u w → (insnOf w).op = .ebreak → Carried (.ebreak u w) s [.regs, .wire, .ctxs, .cells] (fun e => ∃ tval, Dev.Excepts (Dev.ctxNo u) 3 tval [] s.dev e))
  ∧ (∀ (u : CtxId) (w : Word) (s : State), s.dev.Issues u w → (insnOf w).op = .mret → u.ctx.val = 16 → Carried (.mret u w) s [.regs, .wire, .ctxs, .cells] (fun e => (e.ctx (Dev.ctxNo u)).mpie = true ∧ ((e.ctx (Dev.ctxNo u)).mie = (s.dev.ctx (Dev.ctxNo u)).mpie ∧ (e.ctx (Dev.ctxNo u)).pc = (s.dev.ctx (Dev.ctxNo u)).mepc
          ∨ (s.dev.ctx (Dev.ctxNo u)).mpie = true ∧ (e.ctx (Dev.ctxNo u)).mie = false ∧ (e.ctx (Dev.ctxNo u)).mepc = (s.dev.ctx (Dev.ctxNo u)).mepc ∧ (e.ctx (Dev.ctxNo u)).pc = (s.dev.ctx (Dev.ctxNo u)).mtvec &&& ~~~3#32)
        ∧ Dev.Retires (Dev.ctxNo u) 0 0 (s.dev.ctx (Dev.ctxNo u)).mepc [] s.dev e))
  ∧ (∀ (u : CtxId) (w : Word) (s : State) (c : Instr), s.dev.Issues u w → u.ctx.val ≠ 16 → (((insnOf w).op = .mret ∧ c = .mret u w) ∨ ((insnOf w).op = .wfi ∧ c = .wfi u w) ∨ ((insnOf w).op = .csr ∧ Dev.csrNumber (insnOf w) = 0x7D6 ∧ c = .celIrqClaim u w)) → Carried c s [.regs, .wire, .ctxs, .cells] (fun e => ∃ tval, Dev.Excepts (Dev.ctxNo u) 2 tval [] s.dev e))
  ∧ (∀ (u : CtxId) (w : Word) (s : State), s.dev.Issues u w → (insnOf w).op = .wfi → u.ctx.val = 16 → (s.dev.events (Dev.ctxNo u) &&& 7 * 2 ^ 16) ≠ 0 → Carried (.wfi u w) s [.regs, .wire, .ctxs, .cells] (fun e => Dev.Retires (Dev.ctxNo u) 0 0 ((s.dev.ctx (Dev.ctxNo u)).pc + lenOf w) [] s.dev e ∧ (e.ctx (Dev.ctxNo u)).mode = .running ∧ (e.ctx (Dev.ctxNo u)).sticky = (s.dev.ctx (Dev.ctxNo u)).sticky - ((s.dev.ctx (Dev.ctxNo u)).sticky &&& ((s.dev.events (Dev.ctxNo u) &&& 7 * 2 ^ 16) &&& 0x4FF03))))
  ∧ (∀ (u : CtxId) (w : Word) (s : State), s.dev.Issues u w → (insnOf w).op = .wfi → u.ctx.val = 16 → (s.dev.events (Dev.ctxNo u) &&& 7 * 2 ^ 16) = 0 → Carried (.wfi u w) s [.regs, .wire, .ctxs, .cells] (fun e => ((e.ctx (Dev.ctxNo u)).mode = .waiting ∧ (e.ctx (Dev.ctxNo u)).waitMask = 0x70000 ∧ (e.ctx (Dev.ctxNo u)).waitRd = 0 ∨ (e.ctx (Dev.ctxNo u)).mode = .running) ∧ Dev.Retires (Dev.ctxNo u) 0 0 ((s.dev.ctx (Dev.ctxNo u)).pc + lenOf w) [] s.dev e))
  ∧ (∀ (u : CtxId) (w : Word) (s : State), s.dev.Issues u w → (insnOf w).op = .wfe → ((s.dev.xreg (Dev.ctxNo u) (insnOf w).rs1) = 0 ∨ (s.dev.events (Dev.ctxNo u) &&& ((s.dev.xreg (Dev.ctxNo u) (insnOf w).rs1).toNat ||| (if u.ctx.val = 16 then 7 * 2 ^ 16 else 0))) ≠ 0) → Carried (.wfe u w) s [.regs, .wire, .ctxs, .cells] (fun e => Dev.Retires (Dev.ctxNo u) (insnOf w).rd (BitVec.ofNat 32 ((s.dev.events (Dev.ctxNo u) &&& ((s.dev.xreg (Dev.ctxNo u) (insnOf w).rs1).toNat ||| (if u.ctx.val = 16 then 7 * 2 ^ 16 else 0))) ||| 2 ^ 31)) ((s.dev.ctx (Dev.ctxNo u)).pc + lenOf w) [] s.dev e
        ∧ (e.ctx (Dev.ctxNo u)).sticky = (s.dev.ctx (Dev.ctxNo u)).sticky - ((s.dev.ctx (Dev.ctxNo u)).sticky &&& ((s.dev.events (Dev.ctxNo u) &&& ((s.dev.xreg (Dev.ctxNo u) (insnOf w).rs1).toNat ||| (if u.ctx.val = 16 then 7 * 2 ^ 16 else 0))) &&& 0x4FF03)) ∧ (e.ctx (Dev.ctxNo u)).mode = .running))
  ∧ (∀ (u : CtxId) (w : Word) (s : State), s.dev.Issues u w → (insnOf w).op = .wfe → (s.dev.xreg (Dev.ctxNo u) (insnOf w).rs1) ≠ 0 → (s.dev.events (Dev.ctxNo u) &&& ((s.dev.xreg (Dev.ctxNo u) (insnOf w).rs1).toNat ||| (if u.ctx.val = 16 then 7 * 2 ^ 16 else 0))) = 0 → u.ctx.val ≠ 16 → Carried (.wfe u w) s [.regs, .wire, .ctxs, .cells] (fun e => e.ctx (Dev.ctxNo u) = { s.dev.ctx (Dev.ctxNo u) with pc := ((s.dev.ctx (Dev.ctxNo u)).pc + lenOf w), instret := ((s.dev.ctx (Dev.ctxNo u)).instret + 1) % 2 ^ 64, mode := .waiting, waitMask := (s.dev.xreg (Dev.ctxNo u) (insnOf w).rs1).toNat, waitRd := (insnOf w).rd } ∧ s.dev.OtherWorkers [Dev.ctxNo u] e))
  ∧ (∀ (u : CtxId) (w : Word) (s : State), s.dev.Issues u w → (insnOf w).op = .wfe → (s.dev.xreg (Dev.ctxNo u) (insnOf w).rs1) ≠ 0 → (s.dev.events (Dev.ctxNo u) &&& ((s.dev.xreg (Dev.ctxNo u) (insnOf w).rs1).toNat ||| (if u.ctx.val = 16 then 7 * 2 ^ 16 else 0))) = 0 → u.ctx.val = 16 → Carried (.wfe u w) s [.regs, .wire, .ctxs, .cells] (fun e => ((e.ctx (Dev.ctxNo u)).mode = .waiting ∧ (e.ctx (Dev.ctxNo u)).waitMask = (s.dev.xreg (Dev.ctxNo u) (insnOf w).rs1).toNat ∧ (e.ctx (Dev.ctxNo u)).waitRd = (insnOf w).rd ∨ (e.ctx (Dev.ctxNo u)).mode = .running) ∧ Dev.GoesTo (Dev.ctxNo u) ((s.dev.ctx (Dev.ctxNo u)).pc + lenOf w) s.dev e))
  ∧ (∀ (u : CtxId) (w : Word) (s : State), s.dev.Issues u w → (insnOf w).op = .sev → s.dev.heldBack (Dev.ctxNo u) = false → s.dev.writesOut (Dev.ctxNo u) = false → 16 < (s.dev.xreg (Dev.ctxNo u) (insnOf w).rs1).toNat % 32 → Carried (.sev u w) s [.regs, .wire, .ctxs, .cells] (fun e => Dev.Retires (Dev.ctxNo u) 0 0 ((s.dev.ctx (Dev.ctxNo u)).pc + lenOf w) [] s.dev e))
  ∧ (∀ (u : CtxId) (w : Word) (s : State), s.dev.Issues u w → (insnOf w).op = .sev → s.dev.heldBack (Dev.ctxNo u) = false → s.dev.writesOut (Dev.ctxNo u) = false → (s.dev.xreg (Dev.ctxNo u) (insnOf w).rs1).toNat % 32 < 16 → (Dev.ctxNo u / 32 * 32 + (s.dev.xreg (Dev.ctxNo u) (insnOf w).rs1).toNat % 32) ≠ Dev.ctxNo u → Carried (.sev u w) s [.regs, .wire, .ctxs, .cells] (fun e => ((s.dev.ctx (Dev.ctxNo u / 32 * 32 + (s.dev.xreg (Dev.ctxNo u) (insnOf w).rs1).toNat % 32)).mode ≠ .waiting → e.ctx (Dev.ctxNo u / 32 * 32 + (s.dev.xreg (Dev.ctxNo u) (insnOf w).rs1).toNat % 32) = { s.dev.ctx (Dev.ctxNo u / 32 * 32 + (s.dev.xreg (Dev.ctxNo u) (insnOf w).rs1).toNat % 32) with sticky := (s.dev.ctx (Dev.ctxNo u / 32 * 32 + (s.dev.xreg (Dev.ctxNo u) (insnOf w).rs1).toNat % 32)).sticky ||| ((s.dev.xreg (Dev.ctxNo u) (insnOf w).rs2).toNat % 256 * 256) })
        ∧ ((s.dev.ctx (Dev.ctxNo u / 32 * 32 + (s.dev.xreg (Dev.ctxNo u) (insnOf w).rs1).toNat % 32)).mode = .waiting → ((s.dev.xreg (Dev.ctxNo u) (insnOf w).rs2).toNat % 256 * 256) &&& (s.dev.ctx (Dev.ctxNo u / 32 * 32 + (s.dev.xreg (Dev.ctxNo u) (insnOf w).rs1).toNat % 32)).waitMask ≠ 0 → (e.ctx (Dev.ctxNo u / 32 * 32 + (s.dev.xreg (Dev.ctxNo u) (insnOf w).rs1).toNat % 32)).mode = .running ∧ (e.ctx (Dev.ctxNo u / 32 * 32 + (s.dev.xreg (Dev.ctxNo u) (insnOf w).rs1).toNat % 32)).waitRd = 0
          ∧ ((s.dev.ctx (Dev.ctxNo u / 32 * 32 + (s.dev.xreg (Dev.ctxNo u) (insnOf w).rs1).toNat % 32)).waitRd ≠ 0 → (e.xreg (Dev.ctxNo u / 32 * 32 + (s.dev.xreg (Dev.ctxNo u) (insnOf w).rs1).toNat % 32) (s.dev.ctx (Dev.ctxNo u / 32 * 32 + (s.dev.xreg (Dev.ctxNo u) (insnOf w).rs1).toNat % 32)).waitRd).toNat &&& (((s.dev.xreg (Dev.ctxNo u) (insnOf w).rs2).toNat % 256 * 256) &&& (s.dev.ctx (Dev.ctxNo u / 32 * 32 + (s.dev.xreg (Dev.ctxNo u) (insnOf w).rs1).toNat % 32)).waitMask) = ((s.dev.xreg (Dev.ctxNo u) (insnOf w).rs2).toNat % 256 * 256) &&& (s.dev.ctx (Dev.ctxNo u / 32 * 32 + (s.dev.xreg (Dev.ctxNo u) (insnOf w).rs1).toNat % 32)).waitMask))
        ∧ Dev.Sets (Dev.ctxNo u) 0 0 s.dev e ∧ Dev.GoesTo (Dev.ctxNo u) ((s.dev.ctx (Dev.ctxNo u)).pc + lenOf w) s.dev e ∧ s.dev.OtherWorkers [Dev.ctxNo u, (Dev.ctxNo u / 32 * 32 + (s.dev.xreg (Dev.ctxNo u) (insnOf w).rs1).toNat % 32)] e ∧ s.dev.RegsSig [] e))
  ∧ (∀ (u : CtxId) (w : Word) (s : State), s.dev.Issues u w → (insnOf w).op = .fence → s.dev.accessesOut (Dev.ctxNo u) = false → s.dev.heldBack (Dev.ctxNo u) = false → Carried (.fence u w) s [.regs, .wire, .ctxs, .cells] (fun e => Dev.Retires (Dev.ctxNo u) 0 0 ((s.dev.ctx (Dev.ctxNo u)).pc + lenOf w) [] s.dev e))
  ∧ (∀ (u : CtxId) (w : Word) (cycle used : Nat) (s : State), s.dev.Issues u w → (insnOf w).op = .csr → Dev.ownRow (Dev.csrNumber (insnOf w)) = false → Dev.csrMay (Dev.ctxNo u) (Dev.csrNumber (insnOf w)) (decide ((insnOf w).code % 4 = 1) || (if (insnOf w).code < 4 then (insnOf w).rs1 != 0 else (insnOf w).imm.toNat / 4096 != 0)) = false → Carried (.csrAccess u w cycle used) s [.regs, .wire, .ctxs, .cells] (fun e => ∃ tval, Dev.Excepts (Dev.ctxNo u) 2 tval [] s.dev e))
  ∧ (∀ (u : CtxId) (w v : Word) (cycle used : Nat) (s : State), s.dev.Issues u w → (insnOf w).op = .csr → (insnOf w).code % 4 ≠ 1 → (if (insnOf w).code < 4 then (insnOf w).rs1 else (insnOf w).imm.toNat / 4096) = 0 → ((Dev.csrNumber (insnOf w), v) ∈ [(0xC00, BitVec.ofNat 32 cycle), (0xC80, BitVec.ofNat 32 (cycle / 2 ^ 32)), (0xC02, BitVec.ofNat 32 (s.dev.ctx (Dev.ctxNo u)).instret),
        (0xC82, BitVec.ofNat 32 ((s.dev.ctx (Dev.ctxNo u)).instret / 2 ^ 32)), (0x800, BitVec.ofNat 32 (s.dev.ctxHolder (Dev.ctxNo u))), (0x803, BitVec.ofNat 32 (s.dev.events (Dev.ctxNo u))),
        (0x804, BitVec.ofNat 32 (s.dev.heldStamp (Dev.ctxNo u)))]
        ∨ u.ctx.val = 16 ∧ (Dev.csrNumber (insnOf w), v) ∈ [(0x301, 0x40901105), (0x304, (s.dev.ctx (Dev.ctxNo u)).mieMask), (0x305, (s.dev.ctx (Dev.ctxNo u)).mtvec), (0x340, (s.dev.ctx (Dev.ctxNo u)).mscratch), (0x341, (s.dev.ctx (Dev.ctxNo u)).mepc), (0x342, (s.dev.ctx (Dev.ctxNo u)).mcause),
        (0x343, (s.dev.ctx (Dev.ctxNo u)).mtval), (0x344, BitVec.ofNat 32 (s.dev.mip (Dev.ctxNo u))), (0xF11, 0), (0xF12, 0), (0xF14, BitVec.ofNat 32 (Dev.ctxNo u / 32))]) → Carried (.csrAccess u w cycle used) s [.regs, .wire, .ctxs, .cells] (fun e => Dev.Retires (Dev.ctxNo u) (insnOf w).rd v ((s.dev.ctx (Dev.ctxNo u)).pc + lenOf w) [] s.dev e))
  ∧ (∀ (u : CtxId) (w : Word) (cycle used : Nat) (s : State), s.dev.Issues u w → (insnOf w).op = .csr → (insnOf w).code = 1 → u.ctx.val = 16 → Dev.csrNumber (insnOf w) ∈ [0x304, 0x305, 0x340] → Carried (.csrAccess u w cycle used) s [.regs, .wire, .ctxs, .cells] (fun e => (e.ctx (Dev.ctxNo u)).mscratch = (if Dev.csrNumber (insnOf w) = 0x340 then (s.dev.xreg (Dev.ctxNo u) (insnOf w).rs1) else (s.dev.ctx (Dev.ctxNo u)).mscratch)
        ∧ (e.ctx (Dev.ctxNo u)).mtvec = (if Dev.csrNumber (insnOf w) = 0x305 then (s.dev.xreg (Dev.ctxNo u) (insnOf w).rs1) &&& ~~~3#32 else (s.dev.ctx (Dev.ctxNo u)).mtvec)
        ∧ (e.ctx (Dev.ctxNo u)).mieMask = (if Dev.csrNumber (insnOf w) = 0x304 then (s.dev.xreg (Dev.ctxNo u) (insnOf w).rs1) &&& 0x30800#32 else (s.dev.ctx (Dev.ctxNo u)).mieMask)
        ∧ Dev.Sets (Dev.ctxNo u) (insnOf w).rd (if Dev.csrNumber (insnOf w) = 0x304 then (s.dev.ctx (Dev.ctxNo u)).mieMask else if Dev.csrNumber (insnOf w) = 0x305 then (s.dev.ctx (Dev.ctxNo u)).mtvec else (s.dev.ctx (Dev.ctxNo u)).mscratch) s.dev e
        ∧ Dev.GoesTo (Dev.ctxNo u) ((s.dev.ctx (Dev.ctxNo u)).pc + lenOf w) s.dev e))
  ∧ (∀ (u : CtxId) (w : Word) (s : State), s.dev.Issues u w → (insnOf w).op = .csr → Dev.csrNumber (insnOf w) = 0xC01 → (insnOf w).code % 4 ≠ 1 → (if (insnOf w).code < 4 then (insnOf w).rs1 else (insnOf w).imm.toNat / 4096) = 0 → Carried (.timeCsrRead u w) s [.regs, .wire, .ctxs, .cells] (fun e => Dev.Retires (Dev.ctxNo u) (insnOf w).rd (BitVec.ofNat 32 (s.dev.g u.region).tick) ((s.dev.ctx (Dev.ctxNo u)).pc + lenOf w) [] s.dev e ∧ (e.ctx (Dev.ctxNo u)).timeh = some (BitVec.ofNat 32 ((s.dev.g u.region).tick / 2 ^ 32 % 65536))))
  ∧ (∀ (u : CtxId) (w : Word) (n : Nat) (p : Packet) (s : State), s.dev.Issues u w → (insnOf w).op = .csr → Dev.csrNumber (insnOf w) = 0x808 → (insnOf w).code % 4 ≠ 1 → (if (insnOf w).code < 4 then (insnOf w).rs1 else (insnOf w).imm.toNat / 4096) = 0 → (s.dev.ctx (Dev.ctxNo u)).held = some n → s.dev.pkt n = some p → Carried (.celRxtsNsRead u w) s [.regs, .wire, .ctxs, .cells] (fun e => Dev.Retires (Dev.ctxNo u) (insnOf w).rd (BitVec.ofNat 32 (p.rxTime % 2 ^ 30)) ((s.dev.ctx (Dev.ctxNo u)).pc + lenOf w) [] s.dev e ∧ (e.ctx (Dev.ctxNo u)).rxSec = some (BitVec.ofNat 32 p.rxSec)))
  ∧ (∀ (u : CtxId) (w : Word) (s : State) (c : Instr), s.dev.Issues u w → (insnOf w).op = .csr → (decide ((insnOf w).code % 4 = 1) || (if (insnOf w).code < 4 then (insnOf w).rs1 != 0 else (insnOf w).imm.toNat / 4096 != 0)) = true → ((Dev.csrNumber (insnOf w) = 0xC01 ∧ c = .timeCsrRead u w) ∨ (Dev.csrNumber (insnOf w) = 0x808 ∧ c = .celRxtsNsRead u w)) → Carried c s [.regs, .wire, .ctxs, .cells] (fun e => ∃ tval, Dev.Excepts (Dev.ctxNo u) 2 tval [] s.dev e))
  ∧ (∀ (u : CtxId) (w : Word) (s : State), s.dev.Issues u w → (insnOf w).op = .csr → Dev.csrNumber (insnOf w) = 0x7D6 → (insnOf w).code % 4 ≠ 1 → (if (insnOf w).code < 4 then (insnOf w).rs1 else (insnOf w).imm.toNat / 4096) = 0 → u.ctx.val = 16 → s.dev.claims u.region (u.block.val * 8 + u.cell.val) = [] → Carried (.celIrqClaim u w) s [.regs, .wire, .ctxs, .cells] (fun e => Dev.Retires (Dev.ctxNo u) (insnOf w).rd 0 ((s.dev.ctx (Dev.ctxNo u)).pc + lenOf w) [] s.dev e))
  ∧ (∀ (u : CtxId) (w : Word) (n : Nat) (s : State), s.dev.Issues u w → (insnOf w).op = .csr → Dev.csrNumber (insnOf w) = 0x7D6 → (insnOf w).code % 4 ≠ 1 → (if (insnOf w).code < 4 then (insnOf w).rs1 else (insnOf w).imm.toNat / 4096) = 0 → u.ctx.val = 16 → n ∈ s.dev.claimable u.region.val (u.block.val * 8 + u.cell.val) → n ∉ [0x70, 0x74, 0x75, 0x76] → (∀ c ∈ s.dev.claims u.region (u.block.val * 8 + u.cell.val), s.dev.fld (RGN_IRQ_SRC_prio u.region.val n) < c.1 ∨ s.dev.fld (RGN_IRQ_SRC_prio u.region.val n) = c.1 ∧ u.region.val * 1024 + n ≤ c.2.1) → Carried (.celIrqClaim u w) s [.regs, .wire, .ctxs, .cells] (fun e => e.irqCount u.region.val n = 0 ∧ Dev.Retires (Dev.ctxNo u) (insnOf w).rd (BitVec.ofNat 32 (2 ^ 31 + (u.region.val * 1024 + n) * 2 ^ 16 + s.dev.irqCount u.region.val n)) ((s.dev.ctx (Dev.ctxNo u)).pc + lenOf w) [] s.dev e))

/-- Said of an instruction that its context issues with nothing that holds it back. A load of cell memory or scratchpad gives rd the
value, extended; a poisoned line raises 0x19; an address that no row of the map gives the context 5, the secure partition 5, a
misaligned window address 4, and an aligned window access goes to the fabric. A store writes its own bytes and no other, or, within a
poisoned line, none, with poison_store set; its faults are 7, 7 and 6. AMOADD.W and AMOSWAP.W give rd the old word and write the sum
or rs2; misaligned they raise 6, of a poisoned line 0x19, elsewhere 7. A latch read of a free word takes it and gives 0; of one that
the context or a live holder has it gives the word and changes nothing; of an orphan it sets and returns bit 31. A latch access other
than a word raises 5 or 7, a misaligned one 4 or 6. A write of 0 by the holder frees the word; any other write changes no byte. A
write through the force-release alias by the supervisor context writes the word; by a worker it raises 7. The scratchpad's wait
register may change; every other register of the part stands but for those of interrupts and monitors. -/
def Obligations.LoadsStoresAndLatchesReachTheirMemory : Prop :=
  (∀ (u : CtxId) (w : Word) (wait x : Nat) (s : State), s.dev.Issues u w → (insnOf w).op = .load → s.dev.heldBack (Dev.ctxNo u) = false → s.dev.areaOf (Dev.ctxNo u) ((s.dev.xreg (Dev.ctxNo u) (insnOf w).rs1) + (insnOf w).imm).toNat (Dev.widthOf (insnOf w).code) = some (.clm x) → s.dev.anyPoison (Dev.clmAddr (Dev.ctxNo u / 32) x) (Dev.widthOf (insnOf w).code) = false → Carried (.load u w wait) s [.regs, .wire, .ctxs, .cells] (fun e => Dev.Retires (Dev.ctxNo u) (insnOf w).rd (Dev.extend (Dev.widthOf (insnOf w).code) (decide ((insnOf w).code < 4)) (s.dev.le (Dev.clmAddr (Dev.ctxNo u / 32) x) (Dev.widthOf (insnOf w).code))) ((s.dev.ctx (Dev.ctxNo u)).pc + lenOf w) [] s.dev e))
  ∧ (∀ (u : CtxId) (w : Word) (wait x : Nat) (s : State), s.dev.Issues u w → (insnOf w).op = .load → s.dev.heldBack (Dev.ctxNo u) = false → s.dev.areaOf (Dev.ctxNo u) ((s.dev.xreg (Dev.ctxNo u) (insnOf w).rs1) + (insnOf w).imm).toNat (Dev.widthOf (insnOf w).code) = some (.pad x) → s.dev.padMay (Dev.ctxNo u) x (Dev.widthOf (insnOf w).code) false = true → s.dev.anyPoison (padAddr u.region.val u.block.val x) (Dev.widthOf (insnOf w).code) = false → Carried (.load u w wait) s [.regs, .wire, .ctxs, .cells] (fun e => Dev.Retires (Dev.ctxNo u) (insnOf w).rd (Dev.extend (Dev.widthOf (insnOf w).code) (decide ((insnOf w).code < 4)) (s.dev.le (padAddr u.region.val u.block.val x) (Dev.widthOf (insnOf w).code))) ((s.dev.ctx (Dev.ctxNo u)).pc + lenOf w) [BLK_SP_ARB u.region.val u.block.val] s.dev e))
  ∧ (∀ (u : CtxId) (w : Word) (wait x : Nat) (s : State), s.dev.Issues u w → (insnOf w).op = .load → s.dev.heldBack (Dev.ctxNo u) = false → s.dev.areaOf (Dev.ctxNo u) ((s.dev.xreg (Dev.ctxNo u) (insnOf w).rs1) + (insnOf w).imm).toNat (Dev.widthOf (insnOf w).code) = some (.padForce x) → (Dev.widthOf (insnOf w).code) = 4 → x % 4 = 0 → s.dev.padMay (Dev.ctxNo u) x 4 false = true → s.dev.anyPoison (padAddr u.region.val u.block.val x) 4 = false → Carried (.load u w wait) s [.regs, .wire, .ctxs, .cells] (fun e => Dev.Retires (Dev.ctxNo u) (insnOf w).rd (BitVec.ofNat 32 (s.dev.le (padAddr u.region.val u.block.val x) 4)) ((s.dev.ctx (Dev.ctxNo u)).pc + lenOf w) [BLK_SP_ARB u.region.val u.block.val] s.dev e))
  ∧ (∀ (u : CtxId) (w : Word) (wait x : Nat) (s : State) (y : Nat), s.dev.Issues u w → (insnOf w).op = .load → s.dev.heldBack (Dev.ctxNo u) = false → ((s.dev.areaOf (Dev.ctxNo u) ((s.dev.xreg (Dev.ctxNo u) (insnOf w).rs1) + (insnOf w).imm).toNat (Dev.widthOf (insnOf w).code) = some (.clm x) ∧ y = Dev.clmAddr (Dev.ctxNo u / 32) x) ∨ (s.dev.areaOf (Dev.ctxNo u) ((s.dev.xreg (Dev.ctxNo u) (insnOf w).rs1) + (insnOf w).imm).toNat (Dev.widthOf (insnOf w).code) = some (.pad x) ∧ s.dev.padMay (Dev.ctxNo u) x (Dev.widthOf (insnOf w).code) false = true ∧ y = padAddr u.region.val u.block.val x)) → s.dev.anyPoison y (Dev.widthOf (insnOf w).code) = true → Carried (.load u w wait) s [.regs, .wire, .ctxs, .cells] (fun e => Dev.Excepts (Dev.ctxNo u) 0x19 ((s.dev.xreg (Dev.ctxNo u) (insnOf w).rs1) + (insnOf w).imm) [BLK_SP_ARB u.region.val u.block.val] s.dev e))
  ∧ (∀ (u : CtxId) (w : Word) (wait : Nat) (s : State), s.dev.Issues u w → (insnOf w).op = .load → s.dev.heldBack (Dev.ctxNo u) = false → s.dev.areaOf (Dev.ctxNo u) ((s.dev.xreg (Dev.ctxNo u) (insnOf w).rs1) + (insnOf w).imm).toNat (Dev.widthOf (insnOf w).code) = none → Dev.latchAddr ((s.dev.xreg (Dev.ctxNo u) (insnOf w).rs1) + (insnOf w).imm).toNat = false → Carried (.load u w wait) s [.regs, .wire, .ctxs, .cells] (fun e => Dev.Excepts (Dev.ctxNo u) 5 ((s.dev.xreg (Dev.ctxNo u) (insnOf w).rs1) + (insnOf w).imm) [] s.dev e))
  ∧ (∀ (u : CtxId) (w : Word) (wait x : Nat) (s : State) (c : Instr), s.dev.Issues u w → s.dev.heldBack (Dev.ctxNo u) = false → s.dev.areaOf (Dev.ctxNo u) ((s.dev.xreg (Dev.ctxNo u) (insnOf w).rs1) + (insnOf w).imm).toNat (Dev.widthOf (insnOf w).code) = some (.pad x) → ((insnOf w).op = .load ∧ c = .load u w wait ∧ s.dev.padMay (Dev.ctxNo u) x (Dev.widthOf (insnOf w).code) false = false ∨ (insnOf w).op = .store ∧ c = .store u w wait ∧ s.dev.padMay (Dev.ctxNo u) x (Dev.widthOf (insnOf w).code) true = false) → Carried c s [.regs, .wire, .ctxs, .cells] (fun e => Dev.Excepts (Dev.ctxNo u) (if (insnOf w).op = .load then 5 else 7) ((s.dev.xreg (Dev.ctxNo u) (insnOf w).rs1) + (insnOf w).imm) [BLK_MEM_ERR u.region.val u.block.val] s.dev e))
  ∧ (∀ (u : CtxId) (w : Word) (wait x : Nat) (s : State) (c : Instr), s.dev.Issues u w → s.dev.heldBack (Dev.ctxNo u) = false → s.dev.accessesOut (Dev.ctxNo u) = false → s.dev.areaOf (Dev.ctxNo u) ((s.dev.xreg (Dev.ctxNo u) (insnOf w).rs1) + (insnOf w).imm).toNat (Dev.widthOf (insnOf w).code) = some (.window x) → ((s.dev.xreg (Dev.ctxNo u) (insnOf w).rs1) + (insnOf w).imm).toNat % (Dev.widthOf (insnOf w).code) ≠ 0 → ((insnOf w).op = .load ∧ c = .load u w wait ∨ (insnOf w).op = .store ∧ c = .store u w wait) → Carried c s [.regs, .wire, .ctxs, .cells] (fun e => Dev.Excepts (Dev.ctxNo u) (if (insnOf w).op = .load then 4 else 6) ((s.dev.xreg (Dev.ctxNo u) (insnOf w).rs1) + (insnOf w).imm) [] s.dev e))
  ∧ (∀ (u : CtxId) (w : Word) (wait x : Nat) (s : State) (c : Instr), s.dev.Issues u w → s.dev.heldBack (Dev.ctxNo u) = false → s.dev.accessesOut (Dev.ctxNo u) = false → s.dev.areaOf (Dev.ctxNo u) ((s.dev.xreg (Dev.ctxNo u) (insnOf w).rs1) + (insnOf w).imm).toNat (Dev.widthOf (insnOf w).code) = some (.window x) → ((s.dev.xreg (Dev.ctxNo u) (insnOf w).rs1) + (insnOf w).imm).toNat % (Dev.widthOf (insnOf w).code) = 0 → ((insnOf w).op = .load ∧ c = .load u w wait ∨ (insnOf w).op = .store ∧ c = .store u w wait) → ∃ t, exec c s = .next t ∧ t.pending = s.pending)
  ∧ (∀ (u : CtxId) (w : Word) (wait x : Nat) (s : State) (y : Nat), s.dev.Issues u w → (insnOf w).op = .store → s.dev.heldBack (Dev.ctxNo u) = false → ((s.dev.areaOf (Dev.ctxNo u) ((s.dev.xreg (Dev.ctxNo u) (insnOf w).rs1) + (insnOf w).imm).toNat (Dev.widthOf (insnOf w).code) = some (.clm x) ∧ y = Dev.clmAddr (Dev.ctxNo u / 32) x) ∨ (s.dev.areaOf (Dev.ctxNo u) ((s.dev.xreg (Dev.ctxNo u) (insnOf w).rs1) + (insnOf w).imm).toNat (Dev.widthOf (insnOf w).code) = some (.pad x) ∧ s.dev.padMay (Dev.ctxNo u) x (Dev.widthOf (insnOf w).code) true = true ∧ y = padAddr u.region.val u.block.val x)) → s.dev.anyPoison y (Dev.widthOf (insnOf w).code) = false → Carried (.store u w wait) s [.regs, .wire, .ctxs, .cells, .mem, .poison] (fun e => (∀ a, e.byte a = if y ≤ a ∧ a < y + (Dev.widthOf (insnOf w).code) then (bytesLE (Dev.widthOf (insnOf w).code) (s.dev.xreg (Dev.ctxNo u) (insnOf w).rs2).toNat).getD (a - y) 0 else s.dev.byte a) ∧ (∀ a, e.poisoned a = s.dev.poisoned a) ∧ Dev.Retires (Dev.ctxNo u) 0 0 ((s.dev.ctx (Dev.ctxNo u)).pc + lenOf w) [BLK_SP_ARB u.region.val u.block.val] s.dev e))
  ∧ (∀ (u : CtxId) (w : Word) (wait x : Nat) (s : State) (y : Nat), s.dev.Issues u w → (insnOf w).op = .store → s.dev.heldBack (Dev.ctxNo u) = false → ((s.dev.areaOf (Dev.ctxNo u) ((s.dev.xreg (Dev.ctxNo u) (insnOf w).rs1) + (insnOf w).imm).toNat (Dev.widthOf (insnOf w).code) = some (.clm x) ∧ y = Dev.clmAddr (Dev.ctxNo u / 32) x) ∨ (s.dev.areaOf (Dev.ctxNo u) ((s.dev.xreg (Dev.ctxNo u) (insnOf w).rs1) + (insnOf w).imm).toNat (Dev.widthOf (insnOf w).code) = some (.pad x) ∧ s.dev.padMay (Dev.ctxNo u) x (Dev.widthOf (insnOf w).code) true = true ∧ y = padAddr u.region.val u.block.val x)) → y % 32 + (Dev.widthOf (insnOf w).code) ≤ 32 → s.dev.poisoned y = true → Carried (.store u w wait) s [.regs, .wire, .ctxs, .cells, .mem, .poison] (fun e => e.on (BLK_MEM_ERR_poison_store u.region.val u.block.val) = true ∧ (∀ a, e.byte a = s.dev.byte a) ∧ Dev.Retires (Dev.ctxNo u) 0 0 ((s.dev.ctx (Dev.ctxNo u)).pc + lenOf w) [BLK_SP_ARB u.region.val u.block.val, BLK_MEM_ERR u.region.val u.block.val] s.dev e))
  ∧ (∀ (u : CtxId) (w : Word) (wait : Nat) (s : State), s.dev.Issues u w → (insnOf w).op = .store → s.dev.heldBack (Dev.ctxNo u) = false → s.dev.areaOf (Dev.ctxNo u) ((s.dev.xreg (Dev.ctxNo u) (insnOf w).rs1) + (insnOf w).imm).toNat (Dev.widthOf (insnOf w).code) = none → Dev.latchAddr ((s.dev.xreg (Dev.ctxNo u) (insnOf w).rs1) + (insnOf w).imm).toNat = false → Dev.forceAddr ((s.dev.xreg (Dev.ctxNo u) (insnOf w).rs1) + (insnOf w).imm).toNat = false → Carried (.store u w wait) s [.regs, .wire, .ctxs, .cells] (fun e => Dev.Excepts (Dev.ctxNo u) 7 ((s.dev.xreg (Dev.ctxNo u) (insnOf w).rs1) + (insnOf w).imm) [] s.dev e))
  ∧ (∀ (u : CtxId) (w : Word) (wait x : Nat) (s : State) (y : Nat), s.dev.Issues u w → (insnOf w).op = .amoadd → s.dev.heldBack (Dev.ctxNo u) = false → ((insnOf w).code = 0 ∨ s.dev.accessesOut (Dev.ctxNo u) = false) → ((s.dev.xreg (Dev.ctxNo u) (insnOf w).rs1) + (insnOf w).imm).toNat % 4 = 0 → ((s.dev.areaOf (Dev.ctxNo u) ((s.dev.xreg (Dev.ctxNo u) (insnOf w).rs1) + (insnOf w).imm).toNat 4 = some (.clm x) ∧ y = Dev.clmAddr (Dev.ctxNo u / 32) x) ∨ (s.dev.areaOf (Dev.ctxNo u) ((s.dev.xreg (Dev.ctxNo u) (insnOf w).rs1) + (insnOf w).imm).toNat 4 = some (.pad x) ∧ s.dev.padMay (Dev.ctxNo u) x 4 true = true ∧ y = padAddr u.region.val u.block.val x)) → s.dev.poisoned y = false → Carried (.amoaddW u w wait) s [.regs, .wire, .ctxs, .cells, .mem, .poison] (fun e => (∀ a, e.byte a = if y ≤ a ∧ a < y + 4 then (bytesLE 4 ((s.dev.le y 4 + (s.dev.xreg (Dev.ctxNo u) (insnOf w).rs2).toNat) % 2 ^ 32)).getD (a - y) 0 else s.dev.byte a) ∧ Dev.Retires (Dev.ctxNo u) (insnOf w).rd (BitVec.ofNat 32 (s.dev.le y 4)) ((s.dev.ctx (Dev.ctxNo u)).pc + lenOf w) [BLK_SP_ARB u.region.val u.block.val] s.dev e))
  ∧ (∀ (u : CtxId) (w : Word) (wait x : Nat) (s : State) (y : Nat), s.dev.Issues u w → (insnOf w).op = .amoadd → s.dev.heldBack (Dev.ctxNo u) = false → ((insnOf w).code = 0 ∨ s.dev.accessesOut (Dev.ctxNo u) = false) → ((s.dev.xreg (Dev.ctxNo u) (insnOf w).rs1) + (insnOf w).imm).toNat % 4 = 0 → ((s.dev.areaOf (Dev.ctxNo u) ((s.dev.xreg (Dev.ctxNo u) (insnOf w).rs1) + (insnOf w).imm).toNat 4 = some (.clm x) ∧ y = Dev.clmAddr (Dev.ctxNo u / 32) x) ∨ (s.dev.areaOf (Dev.ctxNo u) ((s.dev.xreg (Dev.ctxNo u) (insnOf w).rs1) + (insnOf w).imm).toNat 4 = some (.pad x) ∧ s.dev.padMay (Dev.ctxNo u) x 4 true = true ∧ y = padAddr u.region.val u.block.val x)) → s.dev.poisoned y = true → Carried (.amoaddW u w wait) s [.regs, .wire, .ctxs, .cells, .mem, .poison] (fun e => Dev.Excepts (Dev.ctxNo u) 0x19 ((s.dev.xreg (Dev.ctxNo u) (insnOf w).rs1) + (insnOf w).imm) [BLK_SP_ARB u.region.val u.block.val] s.dev e))
  ∧ (∀ (u : CtxId) (w : Word) (wait : Nat) (s : State), s.dev.Issues u w → (insnOf w).op = .amoadd → s.dev.heldBack (Dev.ctxNo u) = false → ((insnOf w).code = 0 ∨ s.dev.accessesOut (Dev.ctxNo u) = false) → ((s.dev.xreg (Dev.ctxNo u) (insnOf w).rs1) + (insnOf w).imm).toNat % 4 ≠ 0 → Carried (.amoaddW u w wait) s [.regs, .wire, .ctxs, .cells] (fun e => Dev.Excepts (Dev.ctxNo u) 6 ((s.dev.xreg (Dev.ctxNo u) (insnOf w).rs1) + (insnOf w).imm) [] s.dev e))
  ∧ (∀ (u : CtxId) (w : Word) (wait : Nat) (s : State), s.dev.Issues u w → (insnOf w).op = .amoadd → s.dev.heldBack (Dev.ctxNo u) = false → ((insnOf w).code = 0 ∨ s.dev.accessesOut (Dev.ctxNo u) = false) → ((s.dev.xreg (Dev.ctxNo u) (insnOf w).rs1) + (insnOf w).imm).toNat % 4 = 0 → s.dev.areaOf (Dev.ctxNo u) ((s.dev.xreg (Dev.ctxNo u) (insnOf w).rs1) + (insnOf w).imm).toNat 4 = none → Carried (.amoaddW u w wait) s [.regs, .wire, .ctxs, .cells] (fun e => Dev.Excepts (Dev.ctxNo u) 7 ((s.dev.xreg (Dev.ctxNo u) (insnOf w).rs1) + (insnOf w).imm) [] s.dev e))
  ∧ (∀ (u : CtxId) (w : Word) (wait x : Nat) (s : State) (y : Nat), s.dev.Issues u w → (insnOf w).op = .amoswap → s.dev.heldBack (Dev.ctxNo u) = false → ((insnOf w).code = 0 ∨ s.dev.accessesOut (Dev.ctxNo u) = false) → ((s.dev.xreg (Dev.ctxNo u) (insnOf w).rs1) + (insnOf w).imm).toNat % 4 = 0 → ((s.dev.areaOf (Dev.ctxNo u) ((s.dev.xreg (Dev.ctxNo u) (insnOf w).rs1) + (insnOf w).imm).toNat 4 = some (.clm x) ∧ y = Dev.clmAddr (Dev.ctxNo u / 32) x) ∨ (s.dev.areaOf (Dev.ctxNo u) ((s.dev.xreg (Dev.ctxNo u) (insnOf w).rs1) + (insnOf w).imm).toNat 4 = some (.pad x) ∧ s.dev.padMay (Dev.ctxNo u) x 4 true = true ∧ y = padAddr u.region.val u.block.val x)) → s.dev.poisoned y = false → Carried (.amoswapW u w wait) s [.regs, .wire, .ctxs, .cells, .mem, .poison] (fun e => (∀ a, e.byte a = if y ≤ a ∧ a < y + 4 then (bytesLE 4 ((s.dev.xreg (Dev.ctxNo u) (insnOf w).rs2).toNat)).getD (a - y) 0 else s.dev.byte a) ∧ Dev.Retires (Dev.ctxNo u) (insnOf w).rd (BitVec.ofNat 32 (s.dev.le y 4)) ((s.dev.ctx (Dev.ctxNo u)).pc + lenOf w) [BLK_SP_ARB u.region.val u.block.val] s.dev e))
  ∧ (∀ (u : CtxId) (w : Word) (wait x : Nat) (s : State) (y : Nat), s.dev.Issues u w → (insnOf w).op = .amoswap → s.dev.heldBack (Dev.ctxNo u) = false → ((insnOf w).code = 0 ∨ s.dev.accessesOut (Dev.ctxNo u) = false) → ((s.dev.xreg (Dev.ctxNo u) (insnOf w).rs1) + (insnOf w).imm).toNat % 4 = 0 → ((s.dev.areaOf (Dev.ctxNo u) ((s.dev.xreg (Dev.ctxNo u) (insnOf w).rs1) + (insnOf w).imm).toNat 4 = some (.clm x) ∧ y = Dev.clmAddr (Dev.ctxNo u / 32) x) ∨ (s.dev.areaOf (Dev.ctxNo u) ((s.dev.xreg (Dev.ctxNo u) (insnOf w).rs1) + (insnOf w).imm).toNat 4 = some (.pad x) ∧ s.dev.padMay (Dev.ctxNo u) x 4 true = true ∧ y = padAddr u.region.val u.block.val x)) → s.dev.poisoned y = true → Carried (.amoswapW u w wait) s [.regs, .wire, .ctxs, .cells, .mem, .poison] (fun e => Dev.Excepts (Dev.ctxNo u) 0x19 ((s.dev.xreg (Dev.ctxNo u) (insnOf w).rs1) + (insnOf w).imm) [BLK_SP_ARB u.region.val u.block.val] s.dev e))
  ∧ (∀ (u : CtxId) (w : Word) (wait : Nat) (s : State), s.dev.Issues u w → (insnOf w).op = .amoswap → s.dev.heldBack (Dev.ctxNo u) = false → ((insnOf w).code = 0 ∨ s.dev.accessesOut (Dev.ctxNo u) = false) → ((s.dev.xreg (Dev.ctxNo u) (insnOf w).rs1) + (insnOf w).imm).toNat % 4 ≠ 0 → Carried (.amoswapW u w wait) s [.regs, .wire, .ctxs, .cells] (fun e => Dev.Excepts (Dev.ctxNo u) 6 ((s.dev.xreg (Dev.ctxNo u) (insnOf w).rs1) + (insnOf w).imm) [] s.dev e))
  ∧ (∀ (u : CtxId) (w : Word) (wait : Nat) (s : State), s.dev.Issues u w → (insnOf w).op = .amoswap → s.dev.heldBack (Dev.ctxNo u) = false → ((insnOf w).code = 0 ∨ s.dev.accessesOut (Dev.ctxNo u) = false) → ((s.dev.xreg (Dev.ctxNo u) (insnOf w).rs1) + (insnOf w).imm).toNat % 4 = 0 → s.dev.areaOf (Dev.ctxNo u) ((s.dev.xreg (Dev.ctxNo u) (insnOf w).rs1) + (insnOf w).imm).toNat 4 = none → Carried (.amoswapW u w wait) s [.regs, .wire, .ctxs, .cells] (fun e => Dev.Excepts (Dev.ctxNo u) 7 ((s.dev.xreg (Dev.ctxNo u) (insnOf w).rs1) + (insnOf w).imm) [] s.dev e))
  ∧ (∀ (u : CtxId) (w : Word) (wait x : Nat) (s : State) (y : Nat), s.dev.Issues u w → (insnOf w).op = .load → s.dev.heldBack (Dev.ctxNo u) = false → s.dev.accessesOut (Dev.ctxNo u) = false → (Dev.widthOf (insnOf w).code) = 4 → ((s.dev.xreg (Dev.ctxNo u) (insnOf w).rs1) + (insnOf w).imm).toNat % 4 = 0 → ((s.dev.areaOf (Dev.ctxNo u) ((s.dev.xreg (Dev.ctxNo u) (insnOf w).rs1) + (insnOf w).imm).toNat 4 = some (.padLatch x) ∧ s.dev.padMay (Dev.ctxNo u) x 4 false = true ∧ y = padAddr u.region.val u.block.val x) ∨ (s.dev.areaOf (Dev.ctxNo u) ((s.dev.xreg (Dev.ctxNo u) (insnOf w).rs1) + (insnOf w).imm).toNat 4 = some (.sramLatch x) ∧ s.dev.sramUsed u.region x = false ∧ y = sramAddr u.region.val x)) → s.dev.poisoned y = false → s.dev.le y 4 = 0 → Carried (.latchRead u w wait) s [.regs, .wire, .ctxs, .cells, .mem, .poison] (fun e => (∀ a, e.byte a = if y ≤ a ∧ a < y + 4 then (bytesLE 4 (s.dev.ctxHolder (Dev.ctxNo u))).getD (a - y) 0 else s.dev.byte a) ∧ Dev.Retires (Dev.ctxNo u) (insnOf w).rd 0 ((s.dev.ctx (Dev.ctxNo u)).pc + lenOf w) [BLK_SP_ARB u.region.val u.block.val, BLK_LATCH_STAT u.region.val u.block.val, RGN_TBL_LATCH_STAT u.region.val] s.dev e))
  ∧ (∀ (u : CtxId) (w : Word) (wait x : Nat) (s : State) (y : Nat), s.dev.Issues u w → (insnOf w).op = .load → s.dev.heldBack (Dev.ctxNo u) = false → s.dev.accessesOut (Dev.ctxNo u) = false → (Dev.widthOf (insnOf w).code) = 4 → ((s.dev.xreg (Dev.ctxNo u) (insnOf w).rs1) + (insnOf w).imm).toNat % 4 = 0 → ((s.dev.areaOf (Dev.ctxNo u) ((s.dev.xreg (Dev.ctxNo u) (insnOf w).rs1) + (insnOf w).imm).toNat 4 = some (.padLatch x) ∧ s.dev.padMay (Dev.ctxNo u) x 4 false = true ∧ y = padAddr u.region.val u.block.val x) ∨ (s.dev.areaOf (Dev.ctxNo u) ((s.dev.xreg (Dev.ctxNo u) (insnOf w).rs1) + (insnOf w).imm).toNat 4 = some (.sramLatch x) ∧ s.dev.sramUsed u.region x = false ∧ y = sramAddr u.region.val x)) → s.dev.poisoned y = false → s.dev.le y 4 ≠ 0 → bitOf (s.dev.le y 4) 31 = false → (bitOf (s.dev.le y 4) 0 = false ∨ s.dev.holderLive u.region (s.dev.le y 4) = true ∨ s.dev.le y 4 = (s.dev.ctxHolder (Dev.ctxNo u))) → Carried (.latchRead u w wait) s [.regs, .wire, .ctxs, .cells, .mem, .poison] (fun e => (∀ a, e.byte a = s.dev.byte a) ∧ Dev.Retires (Dev.ctxNo u) (insnOf w).rd (BitVec.ofNat 32 (s.dev.le y 4)) ((s.dev.ctx (Dev.ctxNo u)).pc + lenOf w) [BLK_SP_ARB u.region.val u.block.val, BLK_LATCH_STAT u.region.val u.block.val, RGN_TBL_LATCH_STAT u.region.val] s.dev e))
  ∧ (∀ (u : CtxId) (w : Word) (wait x : Nat) (s : State) (y : Nat), s.dev.Issues u w → (insnOf w).op = .load → s.dev.heldBack (Dev.ctxNo u) = false → s.dev.accessesOut (Dev.ctxNo u) = false → (Dev.widthOf (insnOf w).code) = 4 → ((s.dev.xreg (Dev.ctxNo u) (insnOf w).rs1) + (insnOf w).imm).toNat % 4 = 0 → ((s.dev.areaOf (Dev.ctxNo u) ((s.dev.xreg (Dev.ctxNo u) (insnOf w).rs1) + (insnOf w).imm).toNat 4 = some (.padLatch x) ∧ s.dev.padMay (Dev.ctxNo u) x 4 false = true ∧ y = padAddr u.region.val u.block.val x) ∨ (s.dev.areaOf (Dev.ctxNo u) ((s.dev.xreg (Dev.ctxNo u) (insnOf w).rs1) + (insnOf w).imm).toNat 4 = some (.sramLatch x) ∧ s.dev.sramUsed u.region x = false ∧ y = sramAddr u.region.val x)) → s.dev.poisoned y = false → s.dev.on (CHP_COMPAT_a1 s.dev.A) = false → s.dev.le y 4 ≠ (s.dev.ctxHolder (Dev.ctxNo u)) → (bitOf (s.dev.le y 4) 31 = true ∨ bitOf (s.dev.le y 4) 0 = true ∧ s.dev.holderLive u.region (s.dev.le y 4) = false) → Carried (.latchRead u w wait) s [.regs, .wire, .ctxs, .cells, .mem, .poison] (fun e => e.le y 4 = s.dev.le y 4 % 2 ^ 31 + 2 ^ 31 ∧ (∀ a, a < y ∨ y + 4 ≤ a → e.byte a = s.dev.byte a) ∧ Dev.Retires (Dev.ctxNo u) (insnOf w).rd (BitVec.ofNat 32 (s.dev.le y 4 % 2 ^ 31 + 2 ^ 31)) ((s.dev.ctx (Dev.ctxNo u)).pc + lenOf w) [BLK_SP_ARB u.region.val u.block.val, BLK_LATCH_STAT u.region.val u.block.val, RGN_TBL_LATCH_STAT u.region.val] s.dev e))
  ∧ (∀ (u : CtxId) (w : Word) (wait : Nat) (s : State) (c : Instr), s.dev.Issues u w → s.dev.heldBack (Dev.ctxNo u) = false → s.dev.accessesOut (Dev.ctxNo u) = false → Dev.latchAddr ((s.dev.xreg (Dev.ctxNo u) (insnOf w).rs1) + (insnOf w).imm).toNat = true → ((Dev.widthOf (insnOf w).code) ≠ 4 ∨ ((s.dev.xreg (Dev.ctxNo u) (insnOf w).rs1) + (insnOf w).imm).toNat % 4 ≠ 0) → ((insnOf w).op = .load ∧ c = .latchRead u w wait ∨ (insnOf w).op = .store ∧ c = .latchWrite u w wait) → Carried c s [.regs, .wire, .ctxs, .cells] (fun e => Dev.Excepts (Dev.ctxNo u) ((if (insnOf w).op = .load then 4 else 6) + (if (Dev.widthOf (insnOf w).code) = 4 then 0 else 1)) ((s.dev.xreg (Dev.ctxNo u) (insnOf w).rs1) + (insnOf w).imm) [] s.dev e))
  ∧ (∀ (u : CtxId) (w : Word) (wait x : Nat) (s : State) (y : Nat), s.dev.Issues u w → (insnOf w).op = .store → s.dev.heldBack (Dev.ctxNo u) = false → s.dev.accessesOut (Dev.ctxNo u) = false → (Dev.widthOf (insnOf w).code) = 4 → ((s.dev.xreg (Dev.ctxNo u) (insnOf w).rs1) + (insnOf w).imm).toNat % 4 = 0 → ((s.dev.areaOf (Dev.ctxNo u) ((s.dev.xreg (Dev.ctxNo u) (insnOf w).rs1) + (insnOf w).imm).toNat 4 = some (.padLatch x) ∧ s.dev.padMay (Dev.ctxNo u) x 4 true = true ∧ y = padAddr u.region.val u.block.val x) ∨ (s.dev.areaOf (Dev.ctxNo u) ((s.dev.xreg (Dev.ctxNo u) (insnOf w).rs1) + (insnOf w).imm).toNat 4 = some (.sramLatch x) ∧ s.dev.sramUsed u.region x = false ∧ y = sramAddr u.region.val x)) → (s.dev.xreg (Dev.ctxNo u) (insnOf w).rs2) = 0 → s.dev.le y 4 = (s.dev.ctxHolder (Dev.ctxNo u)) → s.dev.poisoned y = false → Carried (.latchWrite u w wait) s [.regs, .wire, .ctxs, .cells, .mem, .poison] (fun e => (∀ a, e.byte a = if y ≤ a ∧ a < y + 4 then (bytesLE 4 0).getD (a - y) 0 else s.dev.byte a) ∧ Dev.Retires (Dev.ctxNo u) 0 0 ((s.dev.ctx (Dev.ctxNo u)).pc + lenOf w) [BLK_SP_ARB u.region.val u.block.val, BLK_LATCH_STAT u.region.val u.block.val, RGN_TBL_LATCH_STAT u.region.val] s.dev e))
  ∧ (∀ (u : CtxId) (w : Word) (wait x : Nat) (s : State) (y : Nat), s.dev.Issues u w → (insnOf w).op = .store → s.dev.heldBack (Dev.ctxNo u) = false → s.dev.accessesOut (Dev.ctxNo u) = false → (Dev.widthOf (insnOf w).code) = 4 → ((s.dev.xreg (Dev.ctxNo u) (insnOf w).rs1) + (insnOf w).imm).toNat % 4 = 0 → ((s.dev.areaOf (Dev.ctxNo u) ((s.dev.xreg (Dev.ctxNo u) (insnOf w).rs1) + (insnOf w).imm).toNat 4 = some (.padLatch x) ∧ s.dev.padMay (Dev.ctxNo u) x 4 true = true ∧ y = padAddr u.region.val u.block.val x) ∨ (s.dev.areaOf (Dev.ctxNo u) ((s.dev.xreg (Dev.ctxNo u) (insnOf w).rs1) + (insnOf w).imm).toNat 4 = some (.sramLatch x) ∧ s.dev.sramUsed u.region x = false ∧ y = sramAddr u.region.val x)) → ((s.dev.xreg (Dev.ctxNo u) (insnOf w).rs2) ≠ 0 ∨ s.dev.le y 4 ≠ (s.dev.ctxHolder (Dev.ctxNo u)) ∧ s.dev.poisoned y = false) → Carried (.latchWrite u w wait) s [.regs, .wire, .ctxs, .cells, .mem, .poison] (fun e => (∀ a, e.byte a = s.dev.byte a) ∧ Dev.Retires (Dev.ctxNo u) 0 0 ((s.dev.ctx (Dev.ctxNo u)).pc + lenOf w) [BLK_SP_ARB u.region.val u.block.val, BLK_LATCH_STAT u.region.val u.block.val, RGN_TBL_LATCH_STAT u.region.val] s.dev e))
  ∧ (∀ (u : CtxId) (w : Word) (wait x : Nat) (s : State), s.dev.Issues u w → (insnOf w).op = .store → s.dev.heldBack (Dev.ctxNo u) = false → (Dev.widthOf (insnOf w).code) = 4 → x % 4 = 0 → s.dev.areaOf (Dev.ctxNo u) ((s.dev.xreg (Dev.ctxNo u) (insnOf w).rs1) + (insnOf w).imm).toNat 4 = some (.padForce x) → s.dev.padMay (Dev.ctxNo u) x 4 true = true → s.dev.poisoned (padAddr u.region.val u.block.val x) = false → Carried (.forceReleaseWrite u w wait) s [.regs, .wire, .ctxs, .cells, .mem, .poison] (fun e => (∀ a, e.byte a = if padAddr u.region.val u.block.val x ≤ a ∧ a < padAddr u.region.val u.block.val x + 4 then (bytesLE 4 (s.dev.xreg (Dev.ctxNo u) (insnOf w).rs2).toNat).getD (a - padAddr u.region.val u.block.val x) 0 else s.dev.byte a) ∧ Dev.Retires (Dev.ctxNo u) 0 0 ((s.dev.ctx (Dev.ctxNo u)).pc + lenOf w) [BLK_SP_ARB u.region.val u.block.val] s.dev e))
  ∧ (∀ (u : CtxId) (w : Word) (wait : Nat) (s : State), s.dev.Issues u w → (insnOf w).op = .store → s.dev.heldBack (Dev.ctxNo u) = false → Dev.forceAddr ((s.dev.xreg (Dev.ctxNo u) (insnOf w).rs1) + (insnOf w).imm).toNat = true → u.ctx.val ≠ 16 → Carried (.forceReleaseWrite u w wait) s [.regs, .wire, .ctxs, .cells] (fun e => Dev.Excepts (Dev.ctxNo u) 7 ((s.dev.xreg (Dev.ctxNo u) (insnOf w).rs1) + (insnOf w).imm) [] s.dev e))

/-- RETIRE by a worker that holds a packet leaves it without one, at rest, behind the instruction; DROP, and an invalid verdict, which
sets verdict_invalid, end the packet; a list at an address that is not a multiple of 8 raises 5. LKUP with a key of 1 to 48 bytes puts
the lookup among those outstanding, writes 0 to the result's first byte, and gives 0; another key length gives 9; a request not 8-byte
aligned raises 5. SFETCH of a stitch of the chain puts the fetch among those outstanding and gives its bytes, beyond the chain 0; a
destination not 64-byte aligned raises 7. A stitch fetch completes with its 256 bytes at the destination and bit 1; for a packet that
is over it only leaves the list. MUTREQ leaves an issue outcome for rd: 9 for a record or table that may not be mutated so, else 0 or
2; MUTREQ_DONE writes it. A context without a packet raises illegal instruction. A coprocessor instruction that is not enabled raises
0x18. Enabled, each CPOP function, CP_CLEAR to IDX_RESULT, writes rd and the state as its function says, or gives 0, notes the code of
R473 and leaves the state; initial values, lengths, indexes and phases are stated apart. CPSAVE writes the image and nothing else;
CPRESTORE takes a good image, or clears the state with error 5; a bad address raises 7 or 5, a poisoned image 0x19. -/
def Obligations.PacketInstructionsAndTheCoprocessor : Prop :=
  (∀ (u : CtxId) (w : Word) (n : Nat) (p : Packet) (used : Nat) (s : State), s.dev.Issues u w → (insnOf w).op = .retire → u.ctx.val ≠ 16 → (s.dev.ctx (Dev.ctxNo u)).held = some n → s.dev.pkt n = some p → (s.dev.xreg (Dev.ctxNo u) (insnOf w).rs1).toNat / 2 ^ 28 = 2 → bitsOf (s.dev.xreg (Dev.ctxNo u) (insnOf w).rs1).toNat 26 5 = 0 → (s.dev.xreg (Dev.ctxNo u) (insnOf w).rs1).toNat % 32 = 0 → ∃ t, exec (.retire u w used) s = .next t ∧ t.pending = s.pending ∧ (fun e : Dev => (e.ctx (Dev.ctxNo u)).held = none ∧ (e.ctx (Dev.ctxNo u)).mode = s.dev.restState (Dev.ctxNo u) ∧ Dev.GoesTo (Dev.ctxNo u) ((s.dev.ctx (Dev.ctxNo u)).pc + lenOf w) s.dev e ∧ e.pkt n = none) t.dev)
  ∧ (∀ (u : CtxId) (w : Word) (n : Nat) (p : Packet) (used : Nat) (s : State), s.dev.Issues u w → (insnOf w).op = .retire → u.ctx.val ≠ 16 → (s.dev.ctx (Dev.ctxNo u)).held = some n → s.dev.pkt n = some p → ((s.dev.xreg (Dev.ctxNo u) (insnOf w).rs1).toNat / 2 ^ 28 = 0 ∨ 4 < (s.dev.xreg (Dev.ctxNo u) (insnOf w).rs1).toNat / 2 ^ 28 ∨ bitsOf (s.dev.xreg (Dev.ctxNo u) (insnOf w).rs1).toNat 26 5 ≠ 0 ∨ 16 < (s.dev.xreg (Dev.ctxNo u) (insnOf w).rs1).toNat % 32) → ∃ t, exec (.retire u w used) s = .next t ∧ t.pending = s.pending ∧ (fun e : Dev => (e.ctx (Dev.ctxNo u)).held = none ∧ (e.ctx (Dev.ctxNo u)).mode = s.dev.restState (Dev.ctxNo u) ∧ Dev.GoesTo (Dev.ctxNo u) ((s.dev.ctx (Dev.ctxNo u)).pc + lenOf w) s.dev e ∧ e.pkt n = none ∧ e.on (BLK_CORE_ERR_verdict_invalid u.region.val u.block.val) = true) t.dev)
  ∧ (∀ (u : CtxId) (w : Word) (n : Nat) (p : Packet) (used x : Nat) (s : State), s.dev.Issues u w → (insnOf w).op = .retire → u.ctx.val ≠ 16 → (s.dev.ctx (Dev.ctxNo u)).held = some n → s.dev.pkt n = some p → Dev.verdictOk (s.dev.xreg (Dev.ctxNo u) (insnOf w).rs1).toNat = true → ((s.dev.xreg (Dev.ctxNo u) (insnOf w).rs1).toNat % 32 = 0 ∨ ((s.dev.xreg (Dev.ctxNo u) (insnOf w).rs3).toNat % 8 = 0 ∧ s.dev.spanOf (Dev.ctxNo u) (s.dev.xreg (Dev.ctxNo u) (insnOf w).rs3).toNat (8 * ((s.dev.xreg (Dev.ctxNo u) (insnOf w).rs1).toNat % 32)) false = .inr x ∧ s.dev.anyPoison x (8 * ((s.dev.xreg (Dev.ctxNo u) (insnOf w).rs1).toNat % 32)) = false)) → ∃ t, exec (.retire u w used) s = .next t ∧ t.pending = s.pending ∧ (fun e : Dev => (e.ctx (Dev.ctxNo u)).held = none ∧ (e.ctx (Dev.ctxNo u)).mode = s.dev.restState (Dev.ctxNo u) ∧ Dev.GoesTo (Dev.ctxNo u) ((s.dev.ctx (Dev.ctxNo u)).pc + lenOf w) s.dev e) t.dev)
  ∧ (∀ (u : CtxId) (w : Word) (n : Nat) (p : Packet) (used : Nat) (s : State), s.dev.Issues u w → (insnOf w).op = .retire → u.ctx.val ≠ 16 → (s.dev.ctx (Dev.ctxNo u)).held = some n → s.dev.pkt n = some p → Dev.verdictOk (s.dev.xreg (Dev.ctxNo u) (insnOf w).rs1).toNat = true → (s.dev.xreg (Dev.ctxNo u) (insnOf w).rs1).toNat % 32 ≠ 0 → (s.dev.xreg (Dev.ctxNo u) (insnOf w).rs3).toNat % 8 ≠ 0 → Carried (.retire u w used) s [.regs, .wire, .ctxs, .cells] (fun e => Dev.Excepts (Dev.ctxNo u) 5 (s.dev.xreg (Dev.ctxNo u) (insnOf w).rs3) [] s.dev e))
  ∧ (∀ (u : CtxId) (w : Word) (n : Nat) (p : Packet) (y z : Nat) (s : State), s.dev.Issues u w → (insnOf w).op = .lkup → u.ctx.val ≠ 16 → (s.dev.ctx (Dev.ctxNo u)).held = some n → s.dev.pkt n = some p → Dev.lookupsOf (s.dev.ctx (Dev.ctxNo u)) < 4 → s.dev.blockLookups u.region.val u.block.val < 16 → (s.dev.xreg (Dev.ctxNo u) (insnOf w).rs1).toNat % 8 = 0 → s.dev.spanOf (Dev.ctxNo u) (s.dev.xreg (Dev.ctxNo u) (insnOf w).rs1).toNat 8 false = .inr y → s.dev.anyPoison y 8 = false → 1 ≤ (s.dev.le (y + 2) 1) → (s.dev.le (y + 2) 1) ≤ 48 → s.dev.spanOf (Dev.ctxNo u) ((s.dev.xreg (Dev.ctxNo u) (insnOf w).rs1).toNat + 8) (s.dev.le (y + 2) 1) false = .inr (y + 8) → s.dev.anyPoison (y + 8) (s.dev.le (y + 2) 1) = false → (s.dev.le (y + 4) 2) % 32 = 0 → s.dev.spanOf (Dev.ctxNo u) (s.dev.le (y + 4) 2) 32 true = .inr z → s.dev.poisoned z = false → Carried (.lkup u w) s [.regs, .wire, .ctxs, .cells, .mem] (fun e => (e.ctx (Dev.ctxNo u)).outstanding = (s.dev.ctx (Dev.ctxNo u)).outstanding ++ [.lookup (s.dev.le y 2) (s.dev.bytes (y + 8) (s.dev.le (y + 2) 1)) (s.dev.le (y + 4) 2) (s.dev.le (y + 6) 2) true]
        ∧ (∀ a, e.byte a = if a = z then 0 else s.dev.byte a) ∧ Dev.Retires (Dev.ctxNo u) (insnOf w).rd 0 ((s.dev.ctx (Dev.ctxNo u)).pc + lenOf w) [] s.dev e))
  ∧ (∀ (u : CtxId) (w : Word) (n : Nat) (p : Packet) (y : Nat) (s : State), s.dev.Issues u w → (insnOf w).op = .lkup → u.ctx.val ≠ 16 → (s.dev.ctx (Dev.ctxNo u)).held = some n → s.dev.pkt n = some p → Dev.lookupsOf (s.dev.ctx (Dev.ctxNo u)) < 4 → s.dev.blockLookups u.region.val u.block.val < 16 → (s.dev.xreg (Dev.ctxNo u) (insnOf w).rs1).toNat % 8 = 0 → s.dev.spanOf (Dev.ctxNo u) (s.dev.xreg (Dev.ctxNo u) (insnOf w).rs1).toNat 8 false = .inr y → s.dev.anyPoison y 8 = false → ((s.dev.le (y + 2) 1) = 0 ∨ 48 < (s.dev.le (y + 2) 1)) → Carried (.lkup u w) s [.regs, .wire, .ctxs, .cells] (fun e => (e.ctx (Dev.ctxNo u)).outstanding = (s.dev.ctx (Dev.ctxNo u)).outstanding ∧ Dev.Retires (Dev.ctxNo u) (insnOf w).rd 9 ((s.dev.ctx (Dev.ctxNo u)).pc + lenOf w) [] s.dev e))
  ∧ (∀ (u : CtxId) (w : Word) (n : Nat) (p : Packet) (s : State), s.dev.Issues u w → (insnOf w).op = .lkup → u.ctx.val ≠ 16 → (s.dev.ctx (Dev.ctxNo u)).held = some n → s.dev.pkt n = some p → Dev.lookupsOf (s.dev.ctx (Dev.ctxNo u)) < 4 → s.dev.blockLookups u.region.val u.block.val < 16 → (s.dev.xreg (Dev.ctxNo u) (insnOf w).rs1).toNat % 8 ≠ 0 → Carried (.lkup u w) s [.regs, .wire, .ctxs, .cells] (fun e => Dev.Excepts (Dev.ctxNo u) 5 (s.dev.xreg (Dev.ctxNo u) (insnOf w).rs1) [] s.dev e))
  ∧ (∀ (u : CtxId) (w : Word) (n : Nat) (p : Packet) (y h : Nat) (s : State), s.dev.Issues u w → (insnOf w).op = .sfetch → u.ctx.val ≠ 16 → (s.dev.ctx (Dev.ctxNo u)).held = some n → s.dev.pkt n = some p → Dev.fetchesOf (s.dev.ctx (Dev.ctxNo u)) < 2 → (s.dev.xreg (Dev.ctxNo u) (insnOf w).rs1).toNat % 64 = 0 → s.dev.spanOf (Dev.ctxNo u) (s.dev.xreg (Dev.ctxNo u) (insnOf w).rs1).toNat 256 true = .inr y → (s.dev.stitches 512 0 p.head)[(s.dev.xreg (Dev.ctxNo u) (insnOf w).rs2).toNat]? = some h → Carried (.sfetch u w) s [.regs, .wire, .ctxs, .cells] (fun e => (e.ctx (Dev.ctxNo u)).outstanding = (s.dev.ctx (Dev.ctxNo u)).outstanding ++ [.fetch (s.dev.xreg (Dev.ctxNo u) (insnOf w).rs1).toNat h true] ∧ Dev.Retires (Dev.ctxNo u) (insnOf w).rd (BitVec.ofNat 32 (s.dev.desc h).bytes) ((s.dev.ctx (Dev.ctxNo u)).pc + lenOf w) [] s.dev e))
  ∧ (∀ (u : CtxId) (w : Word) (n : Nat) (p : Packet) (y : Nat) (s : State), s.dev.Issues u w → (insnOf w).op = .sfetch → u.ctx.val ≠ 16 → (s.dev.ctx (Dev.ctxNo u)).held = some n → s.dev.pkt n = some p → Dev.fetchesOf (s.dev.ctx (Dev.ctxNo u)) < 2 → (s.dev.xreg (Dev.ctxNo u) (insnOf w).rs1).toNat % 64 = 0 → s.dev.spanOf (Dev.ctxNo u) (s.dev.xreg (Dev.ctxNo u) (insnOf w).rs1).toNat 256 true = .inr y → (s.dev.stitches 512 0 p.head)[(s.dev.xreg (Dev.ctxNo u) (insnOf w).rs2).toNat]? = none → Carried (.sfetch u w) s [.regs, .wire, .ctxs, .cells] (fun e => (e.ctx (Dev.ctxNo u)).outstanding = (s.dev.ctx (Dev.ctxNo u)).outstanding ∧ Dev.Retires (Dev.ctxNo u) (insnOf w).rd 0 ((s.dev.ctx (Dev.ctxNo u)).pc + lenOf w) [] s.dev e))
  ∧ (∀ (u : CtxId) (w : Word) (n : Nat) (p : Packet) (s : State), s.dev.Issues u w → (insnOf w).op = .sfetch → u.ctx.val ≠ 16 → (s.dev.ctx (Dev.ctxNo u)).held = some n → s.dev.pkt n = some p → Dev.fetchesOf (s.dev.ctx (Dev.ctxNo u)) < 2 → (s.dev.xreg (Dev.ctxNo u) (insnOf w).rs1).toNat % 64 ≠ 0 → Carried (.sfetch u w) s [.regs, .wire, .ctxs, .cells] (fun e => Dev.Excepts (Dev.ctxNo u) 7 (s.dev.xreg (Dev.ctxNo u) (insnOf w).rs1) [] s.dev e))
  ∧ (∀ (u : CtxId) (i dest h : Nat) (s : State), (s.dev.ctx (Dev.ctxNo u)).outstanding[i]? = some (.fetch dest h false) → Carried (.stitchFetchComplete u i) s [.ctxs] (fun e => e.ctx (Dev.ctxNo u) = { s.dev.ctx (Dev.ctxNo u) with outstanding := (s.dev.ctx (Dev.ctxNo u)).outstanding.eraseIdx i } ∧ s.dev.OtherCtx [Dev.ctxNo u] e))
  ∧ (∀ (u : CtxId) (i dest h : Nat) (s : State), u.ctx.val ≠ 16 → (s.dev.ctx (Dev.ctxNo u)).outstanding[i]? = some (.fetch dest h true) → (s.dev.readStitch h).1 = .ok → dest % 64 = 0 → s.dev.areaOf (Dev.ctxNo u) dest 256 = some (.clm dest) → (s.dev.ctx (Dev.ctxNo u)).mode ≠ .waiting → Carried (.stitchFetchComplete u i) s [.mem, .poison, .ctxs] (fun e => e.bytes (Dev.clmAddr (Dev.ctxNo u / 32) dest) 256 = s.dev.bytes (s.dev.stitchAddr h) 256
        ∧ (∀ a, a < Dev.clmAddr (Dev.ctxNo u / 32) dest ∨ Dev.clmAddr (Dev.ctxNo u / 32) dest + 256 ≤ a → e.byte a = s.dev.byte a)
        ∧ e.ctx (Dev.ctxNo u) = { s.dev.ctx (Dev.ctxNo u) with outstanding := (s.dev.ctx (Dev.ctxNo u)).outstanding.eraseIdx i, sticky := (s.dev.ctx (Dev.ctxNo u)).sticky ||| 2 } ∧ s.dev.OtherCtx [Dev.ctxNo u] e))
  ∧ (∀ (u : CtxId) (w : Word) (n : Nat) (p : Packet) (y : Nat) (s : State), s.dev.Issues u w → (insnOf w).op = .mutreq → u.ctx.val ≠ 16 → (s.dev.ctx (Dev.ctxNo u)).held = some n → s.dev.pkt n = some p → s.dev.spanOf (Dev.ctxNo u) (s.dev.xreg (Dev.ctxNo u) (insnOf w).rs1).toNat 32 false = .inr y → s.dev.spanOf (Dev.ctxNo u) (s.dev.xreg (Dev.ctxNo u) (insnOf w).rs1).toNat (32 + 32 * (Mut.ofBytes (s.dev.bytes y 32)).extCount) false = .inr y → s.dev.anyPoison y (32 + 32 * (Mut.ofBytes (s.dev.bytes y 32)).extCount) = false → ∃ t v, exec (.mutreq u w) s = .next t ∧ t.pending = s.pending ∧ (t.dev.ctx (Dev.ctxNo u)).mutRd = some ((insnOf w).rd, v) ∧ (v = 9 ↔ (((s.dev.table u.region (Mut.ofBytes (s.dev.bytes y (32 + 32 * (Mut.ofBytes (s.dev.bytes y 32)).extCount))).table).kind ≠ 1 ∧ (s.dev.table u.region (Mut.ofBytes (s.dev.bytes y (32 + 32 * (Mut.ofBytes (s.dev.bytes y 32)).extCount))).table).kind ≠ 8) ∨ (s.dev.table u.region (Mut.ofBytes (s.dev.bytes y (32 + 32 * (Mut.ofBytes (s.dev.bytes y 32)).extCount))).table).progOk = false ∨ (Mut.ofBytes (s.dev.bytes y (32 + 32 * (Mut.ofBytes (s.dev.bytes y 32)).extCount))).op = 0 ∨ (Mut.ofBytes (s.dev.bytes y (32 + 32 * (Mut.ofBytes (s.dev.bytes y 32)).extCount))).op = 7 ∨ s.dev.recordOk u.region (Mut.ofBytes (s.dev.bytes y (32 + 32 * (Mut.ofBytes (s.dev.bytes y 32)).extCount))) (Mut.reservedOf (s.dev.bytes y (32 + 32 * (Mut.ofBytes (s.dev.bytes y 32)).extCount))) = false)) ∧ v ∈ [0, 2, 9]
        ∧ Dev.Sets (Dev.ctxNo u) 0 0 s.dev t.dev ∧ Dev.GoesTo (Dev.ctxNo u) ((s.dev.ctx (Dev.ctxNo u)).pc + lenOf w) s.dev t.dev)
  ∧ (∀ (u : CtxId) (rd v : Nat) (s : State), (s.dev.ctx (Dev.ctxNo u)).mutRd = some (rd, v) → Carried (.mutreqDone u) s [.ctxs] (fun e => (e.ctx (Dev.ctxNo u)).mutRd = none ∧ Dev.Sets (Dev.ctxNo u) rd (BitVec.ofNat 32 v) s.dev e ∧ (e.ctx (Dev.ctxNo u)).pc = (s.dev.ctx (Dev.ctxNo u)).pc ∧ (e.ctx (Dev.ctxNo u)).mode = (s.dev.ctx (Dev.ctxNo u)).mode ∧ s.dev.OtherCtx [Dev.ctxNo u] e))
  ∧ (∀ (u : CtxId) (w : Word) (used : Nat) (s : State) (c : Instr), s.dev.Issues u w → (u.ctx.val = 16 ∨ (s.dev.ctx (Dev.ctxNo u)).held = none) → ((insnOf w).op = .retire ∧ c = .retire u w used ∨ (insnOf w).op = .lkup ∧ c = .lkup u w ∨ (insnOf w).op = .sfetch ∧ c = .sfetch u w ∨ (insnOf w).op = .mutreq ∧ c = .mutreq u w) → Carried c s [.regs, .wire, .ctxs, .cells] (fun e => ∃ tval, Dev.Excepts (Dev.ctxNo u) 2 tval [] s.dev e))
  ∧ (∀ (u : CtxId) (w : Word) (s : State) (c : Instr), s.dev.Issues u w → s.dev.cpEnabled (Dev.ctxNo u) = false → ((insnOf w).op = .cpop ∧ cpCommand u w (insnOf w).code = some c ∨ (insnOf w).op = .cpsave ∧ c = .cpsave u w ∨ (insnOf w).op = .cprestore ∧ c = .cprestore u w) → Carried c s [.regs, .wire, .ctxs, .cells] (fun e => ∃ tval, Dev.Excepts (Dev.ctxNo u) 0x18 tval [] s.dev e))
  ∧ (∀ (u : CtxId) (w : Word) (s : State) (c : Instr), s.dev.Issues u w → s.dev.cpEnabled (Dev.ctxNo u) = true → (insnOf w).op = .cpop → cpCommand u w (insnOf w).code = some c → Carried c s [.regs, .wire, .ctxs, .cells] (fun e => Dev.GoesTo (Dev.ctxNo u) ((s.dev.ctx (Dev.ctxNo u)).pc + lenOf w) s.dev e ∧ s.dev.OtherWorkers [Dev.ctxNo u] e ∧ Dev.OtherCells (Dev.ctxNo u) s.dev e ∧ s.dev.RegsSig [] e
        ∧ match Copro.function (s.dev.tpzKey u.region.val u.block.val) (insnOf w).code with
          | some f => Dev.Computes (Dev.ctxNo u) (insnOf w).rd (f (s.dev.xreg (Dev.ctxNo u) (insnOf w).rs1) (s.dev.xreg (Dev.ctxNo u) (insnOf w).rs2) ((s.dev.ctx (Dev.ctxNo u)).copro)) s.dev e
          | none => False))
  ∧ (∀ (u : CtxId) (w : Word) (s : State), s.dev.Issues u w → s.dev.cpEnabled (Dev.ctxNo u) = true → (insnOf w).op = .cpop → (insnOf w).code = 0x00 → Carried (.cpClear u w) s [.regs, .wire, .ctxs, .cells] (fun e => Dev.Computes (Dev.ctxNo u) (insnOf w).rd (.ok (Dev.coproClear, 0)) s.dev e))
  ∧ (∀ (u : CtxId) (w : Word) (s : State), s.dev.Issues u w → s.dev.cpEnabled (Dev.ctxNo u) = true → (insnOf w).op = .cpop → (insnOf w).code = 0x01 → (((s.dev.ctx (Dev.ctxNo u)).copro.algorithm = 1 ∨ (s.dev.ctx (Dev.ctxNo u)).copro.algorithm = 2)) → 8 ≤ (s.dev.xreg (Dev.ctxNo u) (insnOf w).rs1).toNat → Carried (.gcmKeyw u w) s [.regs, .wire, .ctxs, .cells] (fun e => Dev.Computes (Dev.ctxNo u) (insnOf w).rd (.error 3) s.dev e))
  ∧ (∀ (u : CtxId) (w : Word) (s : State), s.dev.Issues u w → s.dev.cpEnabled (Dev.ctxNo u) = true → (insnOf w).op = .cpop → (insnOf w).code = 0x02 → (s.dev.ctx (Dev.ctxNo u)).copro.algorithm ≠ 1 → (s.dev.ctx (Dev.ctxNo u)).copro.algorithm ≠ 2 → Carried (.gcmIvw u w) s [.regs, .wire, .ctxs, .cells] (fun e => Dev.Computes (Dev.ctxNo u) (insnOf w).rd (.error 1) s.dev e))
  ∧ (∀ (u : CtxId) (w : Word) (s : State), s.dev.Issues u w → s.dev.cpEnabled (Dev.ctxNo u) = true → (insnOf w).op = .cpop → (insnOf w).code = 0x03 → (s.dev.xreg (Dev.ctxNo u) (insnOf w).rs1).toNat < 2 → Carried (.gcmInit u w) s [.regs, .wire, .ctxs, .cells] (fun e => Dev.Computes (Dev.ctxNo u) (insnOf w).rd (.ok ({ (s.dev.ctx (Dev.ctxNo u)).copro with area := [], algorithm := 1 + (s.dev.xreg (Dev.ctxNo u) (insnOf w).rs1).toNat, phase := 0, fill := 0 }, 0)) s.dev e))
  ∧ (∀ (u : CtxId) (w : Word) (s : State), s.dev.Issues u w → s.dev.cpEnabled (Dev.ctxNo u) = true → (insnOf w).op = .cpop → (insnOf w).code = 0x04 → (((s.dev.ctx (Dev.ctxNo u)).copro.algorithm = 1 ∨ (s.dev.ctx (Dev.ctxNo u)).copro.algorithm = 2)) → ((s.dev.ctx (Dev.ctxNo u)).copro.phase = 2 ∨ (s.dev.ctx (Dev.ctxNo u)).copro.phase = 3) → 1 ≤ (s.dev.xreg (Dev.ctxNo u) (insnOf w).rs2).toNat → (s.dev.xreg (Dev.ctxNo u) (insnOf w).rs2).toNat ≤ 4 → Carried (.gcmAad u w) s [.regs, .wire, .ctxs, .cells] (fun e => Dev.Computes (Dev.ctxNo u) (insnOf w).rd (.error 2) s.dev e))
  ∧ (∀ (u : CtxId) (w : Word) (s : State), s.dev.Issues u w → s.dev.cpEnabled (Dev.ctxNo u) = true → (insnOf w).op = .cpop → (insnOf w).code = 0x05 → (s.dev.xreg (Dev.ctxNo u) (insnOf w).rs2) = 0 → Carried (.gcmEnc u w) s [.regs, .wire, .ctxs, .cells] (fun e => Dev.Computes (Dev.ctxNo u) (insnOf w).rd (.ok ((s.dev.ctx (Dev.ctxNo u)).copro, 0)) s.dev e))
  ∧ (∀ (u : CtxId) (w : Word) (s : State), s.dev.Issues u w → s.dev.cpEnabled (Dev.ctxNo u) = true → (insnOf w).op = .cpop → (insnOf w).code = 0x06 → 4 < (s.dev.xreg (Dev.ctxNo u) (insnOf w).rs2).toNat → Carried (.gcmDec u w) s [.regs, .wire, .ctxs, .cells] (fun e => Dev.Computes (Dev.ctxNo u) (insnOf w).rd (.error 3) s.dev e))
  ∧ (∀ (u : CtxId) (w : Word) (s : State), s.dev.Issues u w → s.dev.cpEnabled (Dev.ctxNo u) = true → (insnOf w).op = .cpop → (insnOf w).code = 0x07 → (((s.dev.ctx (Dev.ctxNo u)).copro.algorithm = 1 ∨ (s.dev.ctx (Dev.ctxNo u)).copro.algorithm = 2)) → 4 ≤ (s.dev.xreg (Dev.ctxNo u) (insnOf w).rs1).toNat → Carried (.gcmTag u w) s [.regs, .wire, .ctxs, .cells] (fun e => Dev.Computes (Dev.ctxNo u) (insnOf w).rd (.error 3) s.dev e))
  ∧ (∀ (u : CtxId) (w : Word) (s : State), s.dev.Issues u w → s.dev.cpEnabled (Dev.ctxNo u) = true → (insnOf w).op = .cpop → (insnOf w).code = 0x10 → 2 ≤ (s.dev.xreg (Dev.ctxNo u) (insnOf w).rs1).toNat → Carried (.shaInit u w) s [.regs, .wire, .ctxs, .cells] (fun e => Dev.Computes (Dev.ctxNo u) (insnOf w).rd (.error 3) s.dev e))
  ∧ (∀ (u : CtxId) (w : Word) (s : State), s.dev.Issues u w → s.dev.cpEnabled (Dev.ctxNo u) = true → (insnOf w).op = .cpop → (insnOf w).code = 0x11 → (s.dev.ctx (Dev.ctxNo u)).copro.algorithm ≠ 3 → (s.dev.ctx (Dev.ctxNo u)).copro.algorithm ≠ 4 → 1 ≤ (s.dev.xreg (Dev.ctxNo u) (insnOf w).rs2).toNat → (s.dev.xreg (Dev.ctxNo u) (insnOf w).rs2).toNat ≤ 4 → Carried (.shaData u w) s [.regs, .wire, .ctxs, .cells] (fun e => Dev.Computes (Dev.ctxNo u) (insnOf w).rd (.error 1) s.dev e))
  ∧ (∀ (u : CtxId) (w : Word) (s : State), s.dev.Issues u w → s.dev.cpEnabled (Dev.ctxNo u) = true → (insnOf w).op = .cpop → (insnOf w).code = 0x12 → (s.dev.ctx (Dev.ctxNo u)).copro.algorithm ≠ 3 → (s.dev.ctx (Dev.ctxNo u)).copro.algorithm ≠ 4 → Carried (.shaFinal u w) s [.regs, .wire, .ctxs, .cells] (fun e => Dev.Computes (Dev.ctxNo u) (insnOf w).rd (.error 1) s.dev e))
  ∧ (∀ (u : CtxId) (w : Word) (s : State), s.dev.Issues u w → s.dev.cpEnabled (Dev.ctxNo u) = true → (insnOf w).op = .cpop → (insnOf w).code = 0x13 → (s.dev.ctx (Dev.ctxNo u)).copro.algorithm = 3 → 8 ≤ (s.dev.xreg (Dev.ctxNo u) (insnOf w).rs1).toNat → Carried (.shaDigest u w) s [.regs, .wire, .ctxs, .cells] (fun e => Dev.Computes (Dev.ctxNo u) (insnOf w).rd (.error 3) s.dev e))
  ∧ (∀ (u : CtxId) (w : Word) (s : State), s.dev.Issues u w → s.dev.cpEnabled (Dev.ctxNo u) = true → (insnOf w).op = .cpop → (insnOf w).code = 0x20 → Carried (.crc32cInit u w) s [.regs, .wire, .ctxs, .cells] (fun e => Dev.Computes (Dev.ctxNo u) (insnOf w).rd (.ok ({ (s.dev.ctx (Dev.ctxNo u)).copro with crc32c := (s.dev.xreg (Dev.ctxNo u) (insnOf w).rs1).toNat }, 0)) s.dev e))
  ∧ (∀ (u : CtxId) (w : Word) (s : State), s.dev.Issues u w → s.dev.cpEnabled (Dev.ctxNo u) = true → (insnOf w).op = .cpop → (insnOf w).code = 0x22 → Carried (.crc64Init u w) s [.regs, .wire, .ctxs, .cells] (fun e => Dev.Computes (Dev.ctxNo u) (insnOf w).rd (.ok ({ (s.dev.ctx (Dev.ctxNo u)).copro with crc64 := (s.dev.xreg (Dev.ctxNo u) (insnOf w).rs1).toNat + (s.dev.xreg (Dev.ctxNo u) (insnOf w).rs2).toNat * 2 ^ 32 }, 0)) s.dev e))
  ∧ (∀ (u : CtxId) (w : Word) (s : State), s.dev.Issues u w → s.dev.cpEnabled (Dev.ctxNo u) = true → (insnOf w).op = .cpop → (insnOf w).code = 0x24 → Carried (.crc64Hi u w) s [.regs, .wire, .ctxs, .cells] (fun e => Dev.Computes (Dev.ctxNo u) (insnOf w).rd (.ok ((s.dev.ctx (Dev.ctxNo u)).copro, (s.dev.ctx (Dev.ctxNo u)).copro.crc64 / 2 ^ 32)) s.dev e))
  ∧ (∀ (u : CtxId) (w : Word) (s : State), s.dev.Issues u w → s.dev.cpEnabled (Dev.ctxNo u) = true → (insnOf w).op = .cpop → (insnOf w).code = 0x30 → Carried (.csumInit u w) s [.regs, .wire, .ctxs, .cells] (fun e => Dev.Computes (Dev.ctxNo u) (insnOf w).rd (.ok ({ (s.dev.ctx (Dev.ctxNo u)).copro with csum := (s.dev.xreg (Dev.ctxNo u) (insnOf w).rs1).toNat % 65536, sumParity := false }, 0)) s.dev e))
  ∧ (∀ (u : CtxId) (w : Word) (s : State), s.dev.Issues u w → s.dev.cpEnabled (Dev.ctxNo u) = true → (insnOf w).op = .cpop → (insnOf w).code = 0x40 → Carried (.tpzInit u w) s [.regs, .wire, .ctxs, .cells] (fun e => Dev.Computes (Dev.ctxNo u) (insnOf w).rd (.ok ({ (s.dev.ctx (Dev.ctxNo u)).copro with toeplitz := 0, toeplitzUsed := 0 }, 0)) s.dev e))
  ∧ (∀ (u : CtxId) (w : Word) (s : State), s.dev.Issues u w → s.dev.cpEnabled (Dev.ctxNo u) = true → (insnOf w).op = .cpop → (insnOf w).code = 0x41 → 1 ≤ (s.dev.xreg (Dev.ctxNo u) (insnOf w).rs2).toNat → (s.dev.xreg (Dev.ctxNo u) (insnOf w).rs2).toNat ≤ 4 → 36 < (s.dev.ctx (Dev.ctxNo u)).copro.toeplitzUsed + (s.dev.xreg (Dev.ctxNo u) (insnOf w).rs2).toNat → Carried (.tpzData u w) s [.regs, .wire, .ctxs, .cells] (fun e => Dev.Computes (Dev.ctxNo u) (insnOf w).rd (.error 4) s.dev e))
  ∧ (∀ (u : CtxId) (w : Word) (s : State), s.dev.Issues u w → s.dev.cpEnabled (Dev.ctxNo u) = true → (insnOf w).op = .cpop → (insnOf w).code = 0x50 → Carried (.idxInit u w) s [.regs, .wire, .ctxs, .cells] (fun e => Dev.Computes (Dev.ctxNo u) (insnOf w).rd (.ok ({ (s.dev.ctx (Dev.ctxNo u)).copro with index := (s.dev.xreg (Dev.ctxNo u) (insnOf w).rs1).toNat }, 0)) s.dev e))
  ∧ (∀ (u : CtxId) (w : Word) (s : State), s.dev.Issues u w → s.dev.cpEnabled (Dev.ctxNo u) = true → (insnOf w).op = .cpop → (insnOf w).code = 0x01 → (((s.dev.ctx (Dev.ctxNo u)).copro.algorithm = 1 ∨ (s.dev.ctx (Dev.ctxNo u)).copro.algorithm = 2)) → (s.dev.xreg (Dev.ctxNo u) (insnOf w).rs1).toNat < 8 → (s.dev.ctx (Dev.ctxNo u)).copro.phase = 0 → Carried (.gcmKeyw u w) s [.regs, .wire, .ctxs, .cells] (fun e => Dev.Computes (Dev.ctxNo u) (insnOf w).rd (.ok (Copro.put (s.dev.ctx (Dev.ctxNo u)).copro (4 * (s.dev.xreg (Dev.ctxNo u) (insnOf w).rs1).toNat) (bytesLE 4 (s.dev.xreg (Dev.ctxNo u) (insnOf w).rs2).toNat), 0)) s.dev e))
  ∧ (∀ (u : CtxId) (w : Word) (s : State), s.dev.Issues u w → s.dev.cpEnabled (Dev.ctxNo u) = true → (insnOf w).op = .cpop → (insnOf w).code = 0x02 → (((s.dev.ctx (Dev.ctxNo u)).copro.algorithm = 1 ∨ (s.dev.ctx (Dev.ctxNo u)).copro.algorithm = 2)) → (s.dev.xreg (Dev.ctxNo u) (insnOf w).rs1).toNat < 3 → (s.dev.ctx (Dev.ctxNo u)).copro.phase = 0 → Carried (.gcmIvw u w) s [.regs, .wire, .ctxs, .cells] (fun e => Dev.Computes (Dev.ctxNo u) (insnOf w).rd (.ok (Copro.put (s.dev.ctx (Dev.ctxNo u)).copro (48 + 4 * (s.dev.xreg (Dev.ctxNo u) (insnOf w).rs1).toNat) (bytesLE 4 (s.dev.xreg (Dev.ctxNo u) (insnOf w).rs2).toNat), 0)) s.dev e))
  ∧ (∀ (u : CtxId) (w : Word) (s : State), s.dev.Issues u w → s.dev.cpEnabled (Dev.ctxNo u) = true → (insnOf w).op = .cpop → (insnOf w).code = 0x12 → ((s.dev.ctx (Dev.ctxNo u)).copro.algorithm = 3 ∨ (s.dev.ctx (Dev.ctxNo u)).copro.algorithm = 4) → (s.dev.ctx (Dev.ctxNo u)).copro.phase ≠ 3 → Carried (.shaFinal u w) s [.regs, .wire, .ctxs, .cells] (fun e => Dev.Computes (Dev.ctxNo u) (insnOf w).rd (.ok (Copro.shaFinish (s.dev.ctx (Dev.ctxNo u)).copro, 0)) s.dev e))
  ∧ (∀ (u : CtxId) (w : Word) (s : State), s.dev.Issues u w → s.dev.cpEnabled (Dev.ctxNo u) = true → (insnOf w).op = .cpop → (insnOf w).code = 0x21 → 1 ≤ (s.dev.xreg (Dev.ctxNo u) (insnOf w).rs2).toNat → (s.dev.xreg (Dev.ctxNo u) (insnOf w).rs2).toNat ≤ 4 → Carried (.crc32cData u w) s [.regs, .wire, .ctxs, .cells] (fun e => Dev.Computes (Dev.ctxNo u) (insnOf w).rd (.ok ({ (s.dev.ctx (Dev.ctxNo u)).copro with crc32c := crc32c (s.dev.ctx (Dev.ctxNo u)).copro.crc32c (Copro.operand (s.dev.xreg (Dev.ctxNo u) (insnOf w).rs1) (s.dev.xreg (Dev.ctxNo u) (insnOf w).rs2)) }, crc32c (s.dev.ctx (Dev.ctxNo u)).copro.crc32c (Copro.operand (s.dev.xreg (Dev.ctxNo u) (insnOf w).rs1) (s.dev.xreg (Dev.ctxNo u) (insnOf w).rs2)))) s.dev e))
  ∧ (∀ (u : CtxId) (w : Word) (s : State), s.dev.Issues u w → s.dev.cpEnabled (Dev.ctxNo u) = true → (insnOf w).op = .cpop → (insnOf w).code = 0x23 → 1 ≤ (s.dev.xreg (Dev.ctxNo u) (insnOf w).rs2).toNat → (s.dev.xreg (Dev.ctxNo u) (insnOf w).rs2).toNat ≤ 4 → Carried (.crc64Data u w) s [.regs, .wire, .ctxs, .cells] (fun e => Dev.Computes (Dev.ctxNo u) (insnOf w).rd (.ok ({ (s.dev.ctx (Dev.ctxNo u)).copro with crc64 := crc64 (s.dev.ctx (Dev.ctxNo u)).copro.crc64 (Copro.operand (s.dev.xreg (Dev.ctxNo u) (insnOf w).rs1) (s.dev.xreg (Dev.ctxNo u) (insnOf w).rs2)) }, crc64 (s.dev.ctx (Dev.ctxNo u)).copro.crc64 (Copro.operand (s.dev.xreg (Dev.ctxNo u) (insnOf w).rs1) (s.dev.xreg (Dev.ctxNo u) (insnOf w).rs2)) % 2 ^ 32)) s.dev e))
  ∧ (∀ (u : CtxId) (w : Word) (s : State), s.dev.Issues u w → s.dev.cpEnabled (Dev.ctxNo u) = true → (insnOf w).op = .cpop → (insnOf w).code = 0x31 → (s.dev.xreg (Dev.ctxNo u) (insnOf w).rs2) = 0 → Carried (.csumData u w) s [.regs, .wire, .ctxs, .cells] (fun e => Dev.Computes (Dev.ctxNo u) (insnOf w).rd (.ok ((s.dev.ctx (Dev.ctxNo u)).copro, (s.dev.ctx (Dev.ctxNo u)).copro.csum)) s.dev e))
  ∧ (∀ (u : CtxId) (w : Word) (s : State), s.dev.Issues u w → s.dev.cpEnabled (Dev.ctxNo u) = true → (insnOf w).op = .cpop → (insnOf w).code = 0x51 → 1 ≤ (s.dev.xreg (Dev.ctxNo u) (insnOf w).rs2).toNat → (s.dev.xreg (Dev.ctxNo u) (insnOf w).rs2).toNat ≤ 4 → Carried (.idxData u w) s [.regs, .wire, .ctxs, .cells] (fun e => Dev.Computes (Dev.ctxNo u) (insnOf w).rd (.ok ({ (s.dev.ctx (Dev.ctxNo u)).copro with index := indexAbsorb (s.dev.ctx (Dev.ctxNo u)).copro.index (Copro.operand (s.dev.xreg (Dev.ctxNo u) (insnOf w).rs1) (s.dev.xreg (Dev.ctxNo u) (insnOf w).rs2)) }, 0)) s.dev e))
  ∧ (∀ (u : CtxId) (w : Word) (s : State), s.dev.Issues u w → s.dev.cpEnabled (Dev.ctxNo u) = true → (insnOf w).op = .cpop → (insnOf w).code = 0x52 → Carried (.idxResult u w) s [.regs, .wire, .ctxs, .cells] (fun e => Dev.Computes (Dev.ctxNo u) (insnOf w).rd (.ok ((s.dev.ctx (Dev.ctxNo u)).copro, indexFinish (s.dev.ctx (Dev.ctxNo u)).copro.index)) s.dev e))
  ∧ (∀ (u : CtxId) (w : Word) (x : Nat) (s : State), s.dev.Issues u w → s.dev.cpEnabled (Dev.ctxNo u) = true → (insnOf w).op = .cpsave → s.dev.imageSpan (Dev.ctxNo u) (s.dev.xreg (Dev.ctxNo u) (insnOf w).rs1).toNat = some x → Carried (.cpsave u w) s [.regs, .wire, .ctxs, .cells, .mem, .poison] (fun e => e.bytes x 256 = Copro.image (s.dev.ctx (Dev.ctxNo u)).copro ∧ (∀ a, a < x ∨ x + 256 ≤ a → e.byte a = s.dev.byte a) ∧ e.anyPoison x 256 = false ∧ Dev.Retires (Dev.ctxNo u) 0 0 ((s.dev.ctx (Dev.ctxNo u)).pc + lenOf w) [] s.dev e))
  ∧ (∀ (u : CtxId) (w : Word) (x : Nat) (s : State), s.dev.Issues u w → s.dev.cpEnabled (Dev.ctxNo u) = true → (insnOf w).op = .cprestore → s.dev.imageSpan (Dev.ctxNo u) (s.dev.xreg (Dev.ctxNo u) (insnOf w).rs1).toNat = some x → s.dev.anyPoison x 256 = false → Carried (.cprestore u w) s [.regs, .wire, .ctxs, .cells] (fun e => (e.ctx (Dev.ctxNo u)).copro = (match Copro.ofImage (s.dev.bytes x 256) with | some q => q | none => Dev.coproClear)
        ∧ (e.ctx (Dev.ctxNo u)).cpxErr = (if Copro.ofImage (s.dev.bytes x 256) = none then some 5 else (s.dev.ctx (Dev.ctxNo u)).cpxErr) ∧ Dev.Retires (Dev.ctxNo u) 0 0 ((s.dev.ctx (Dev.ctxNo u)).pc + lenOf w) [] s.dev e))
  ∧ (∀ (u : CtxId) (w : Word) (x : Nat) (s : State), s.dev.Issues u w → s.dev.cpEnabled (Dev.ctxNo u) = true → (insnOf w).op = .cprestore → s.dev.imageSpan (Dev.ctxNo u) (s.dev.xreg (Dev.ctxNo u) (insnOf w).rs1).toNat = some x → s.dev.anyPoison x 256 = true → Carried (.cprestore u w) s [.regs, .wire, .ctxs, .cells] (fun e => Dev.Excepts (Dev.ctxNo u) 0x19 (s.dev.xreg (Dev.ctxNo u) (insnOf w).rs1) [] s.dev e))
  ∧ (∀ (u : CtxId) (w : Word) (s : State) (c : Instr), s.dev.Issues u w → s.dev.cpEnabled (Dev.ctxNo u) = true → s.dev.imageSpan (Dev.ctxNo u) (s.dev.xreg (Dev.ctxNo u) (insnOf w).rs1).toNat = none → ((insnOf w).op = .cpsave ∧ c = .cpsave u w ∨ (insnOf w).op = .cprestore ∧ c = .cprestore u w) → Carried c s [.regs, .wire, .ctxs, .cells] (fun e => Dev.Excepts (Dev.ctxNo u) (if (insnOf w).op = .cpsave then 7 else 5) (s.dev.xreg (Dev.ctxNo u) (insnOf w).rs1) [] s.dev e))
end

