-- ==== Sys2Proof/Laws/Sparse.lean ====
section
/-!
SUPPORT. Sparse data by key: a read after a write, and every operation keeps the canonical form.
-/

namespace Sys2Proof.Machine.Sparse

variable {α : Type} (d : Nat → α)

/-- A read of the key just put gives the value put. -/
theorem get_put_same (m : List (Nat × α)) (k : Nat) (v : α) : get d (put m k v) k = v := by
  induction m with
  | nil => simp [put, get]
  | cons e t ih =>
    obtain ⟨a, w⟩ := e
    unfold put
    split_ifs with h1 h2
    · simp [get]
    · simp [get]
    · simp [get, h1, ih]

/-- A read of another key is as before a put. -/
theorem get_put_ne (m : List (Nat × α)) (k j : Nat) (v : α) (h : j ≠ k) : get d (put m k v) j = get d m j := by
  induction m with
  | nil => simp [put, get, h]
  | cons e t ih =>
    obtain ⟨a, w⟩ := e
    unfold put
    split_ifs with h1 h2
    · subst h1; simp [get, h]
    · simp [get, h]
    · by_cases hj : j = a
      · simp [get, hj]
      · simp [get, hj, ih]

/-- A dropped key reads as its default. -/
theorem get_drop_same (m : List (Nat × α)) (k : Nat) : get d (drop m k) k = d k := by
  induction m with
  | nil => rfl
  | cons e t ih =>
    obtain ⟨a, w⟩ := e
    by_cases h : a = k
    · simpa [drop, h] using ih
    · have : (a != k) = true := by simpa using h
      simp only [drop, List.filter, this, get]
      rw [if_neg (fun e => h e.symm)]
      exact ih

/-- A read of another key is as before a drop. -/
theorem get_drop_ne (m : List (Nat × α)) (k j : Nat) (h : j ≠ k) : get d (drop m k) j = get d m j := by
  induction m with
  | nil => rfl
  | cons e t ih =>
    obtain ⟨a, w⟩ := e
    by_cases ha : a = k
    · have hf : (a != k) = false := by simpa using ha
      simp only [drop, List.filter, hf, get]
      rw [if_neg (by omega)]
      exact ih
    · have hf : (a != k) = true := by simpa using ha
      simp only [drop, List.filter, hf, get]
      split_ifs
      · rfl
      · exact ih

variable [DecidableEq α]

/-- A read of the key just written gives the value written. -/
@[simp] theorem get_set_same (m : List (Nat × α)) (k : Nat) (v : α) : get d (set d m k v) k = v := by
  unfold set
  split_ifs with h
  · rw [get_drop_same, h]
  · exact get_put_same d m k v

/-- A write leaves every other key alone. -/
theorem get_set_ne (m : List (Nat × α)) (k j : Nat) (v : α) (h : j ≠ k) : get d (set d m k v) j = get d m j := by
  unfold set
  split_ifs
  · exact get_drop_ne d m k j h
  · exact get_put_ne d m k j v h

/-- What a read gives after a write, whichever the keys. -/
theorem get_set (m : List (Nat × α)) (k j : Nat) (v : α) :
    get d (set d m k v) j = if j = k then v else get d m j := by
  split_ifs with h
  · rw [h, get_set_same]
  · exact get_set_ne d m k j v h

omit [DecidableEq α] in
/-- The keys of a put are those of the list and the key put. -/
theorem mem_put {m : List (Nat × α)} {k : Nat} {v : α} {e : Nat × α} (h : e ∈ put m k v) : e = (k, v) ∨ e ∈ m := by
  induction m with
  | nil => simpa [put] using h
  | cons x t ih =>
    obtain ⟨a, w⟩ := x
    unfold put at h
    split_ifs at h with h1 h2
    · rcases List.mem_cons.1 h with h | h
      · exact .inl h
      · exact .inr (List.mem_cons_of_mem _ h)
    · rcases List.mem_cons.1 h with h | h
      · exact .inl h
      · exact .inr h
    · rcases List.mem_cons.1 h with h | h
      · exact .inr (h ▸ List.mem_cons_self ..)
      · exact (ih h).imp_right (List.mem_cons_of_mem _)

omit [DecidableEq α] in
/-- A put keeps rising keys rising. -/
theorem rising_put {m : List (Nat × α)} (k : Nat) (v : α) (h : m.Pairwise (fun a b => a.1 < b.1)) :
    (put m k v).Pairwise (fun a b => a.1 < b.1) := by
  induction m with
  | nil => simp [put]
  | cons x t ih =>
    obtain ⟨a, w⟩ := x
    obtain ⟨h1, h2⟩ := List.pairwise_cons.1 h
    unfold put
    split_ifs with e1 e2
    · exact List.pairwise_cons.2 ⟨fun b hb => e1 ▸ h1 b hb, h2⟩
    · refine List.pairwise_cons.2 ⟨fun b hb => ?_, h⟩
      rcases List.mem_cons.1 hb with hb | hb
      · exact hb ▸ e2
      · exact Nat.lt_trans e2 (h1 b hb)
    · refine List.pairwise_cons.2 ⟨fun b hb => ?_, ih h2⟩
      rcases mem_put hb with hb | hb
      · subst hb
        change a < k
        omega
      · exact h1 b hb

/-- A write keeps the canonical form. -/
theorem wf_set {m : List (Nat × α)} (k : Nat) (v : α) (h : Wf d m) : Wf d (set d m k v) := by
  unfold set
  split_ifs with hv
  · exact ⟨h.1.filter _, fun e he => h.2 e (List.mem_filter.1 he).1⟩
  · refine ⟨rising_put k v h.1, fun e he => ?_⟩
    rcases mem_put he with he | he
    · subst he; exact hv
    · exact h.2 e he

omit [DecidableEq α] in
/-- Leaving entries out keeps the canonical form. -/
theorem wf_filter {m : List (Nat × α)} (p : Nat × α → Bool) (h : Wf d m) : Wf d (m.filter p) :=
  ⟨h.1.filter _, fun e he => h.2 e (List.mem_filter.1 he).1⟩

omit [DecidableEq α] in
/-- The empty list is canonical. -/
theorem wf_nil : Wf d [] := ⟨List.Pairwise.nil, fun _ he => by cases he⟩

/-- Rewriting entries keeps the canonical form. -/
theorem wf_update {m : List (Nat × α)} (p : Nat → Bool) (f : Nat → α → α) (h : Wf d m) : Wf d (update d p f m) := by
  induction m with
  | nil => exact wf_nil d
  | cons x t ih =>
    obtain ⟨a, w⟩ := x
    have ht : Wf d t := ⟨(List.pairwise_cons.1 h.1).2, fun e he => h.2 e (List.mem_cons_of_mem _ he)⟩
    have key : ∀ e ∈ update d p f t, a < e.1 := by
      intro e he
      unfold update at he
      obtain ⟨y, hy, hye⟩ := List.mem_filterMap.1 he
      have : e.1 = y.1 := by
        try dsimp only at hye
        split_ifs at hye <;> simp_all <;> (subst hye; rfl)
      rw [this]; exact (List.pairwise_cons.1 h.1).1 y hy
    unfold update
    rw [List.filterMap_cons]
    split
    · exact ih ht
    · rename_i b hb
      have hb1 : b.1 = a ∧ b.2 ≠ d b.1 := by
        try dsimp only at hb
        have hw := h.2 (a, w) (List.mem_cons_self ..)
        split_ifs at hb <;> simp_all <;> (subst hb; simp_all)
      refine ⟨List.pairwise_cons.2 ⟨fun e he => hb1.1 ▸ key e he, (ih ht).1⟩, fun e he => ?_⟩
      rcases List.mem_cons.1 he with he | he
      · exact he ▸ hb1.2
      · exact (ih ht).2 e he

end Sys2Proof.Machine.Sparse
end

