-- ==== Sys2Proof/Laws/Regs.lean ====
section
/-!
SUPPORT. Registers and their fields: a field read after a field is written, in the same register or another.
-/

namespace Sys2Proof.Machine

/-- The number whose field is replaced, bit by bit. -/
theorem testBit_replaced (n lo wd v j : Nat) :
    (n / 2 ^ (lo + wd) * 2 ^ (lo + wd) + v % 2 ^ wd * 2 ^ lo + n % 2 ^ lo).testBit j
      = if lo ≤ j ∧ j < lo + wd then v.testBit (j - lo) else n.testBit j := by
  have hlow : n % 2 ^ lo < 2 ^ lo := Nat.mod_lt _ (by positivity)
  have hmid : v % 2 ^ wd < 2 ^ wd := Nat.mod_lt _ (by positivity)
  have hml : 2 ^ lo * (v % 2 ^ wd) + n % 2 ^ lo < 2 ^ (lo + wd) := by
    calc 2 ^ lo * (v % 2 ^ wd) + n % 2 ^ lo < 2 ^ lo * (v % 2 ^ wd) + 2 ^ lo := by omega
      _ = 2 ^ lo * (v % 2 ^ wd + 1) := by ring
      _ ≤ 2 ^ lo * 2 ^ wd := Nat.mul_le_mul_left _ hmid
      _ = 2 ^ (lo + wd) := by rw [pow_add]
  have e : n / 2 ^ (lo + wd) * 2 ^ (lo + wd) + v % 2 ^ wd * 2 ^ lo + n % 2 ^ lo
      = 2 ^ (lo + wd) * (n / 2 ^ (lo + wd)) + (2 ^ lo * (v % 2 ^ wd) + n % 2 ^ lo) := by ring
  rw [e, Nat.testBit_two_pow_mul_add _ hml, Nat.testBit_two_pow_mul_add _ hlow]
  by_cases h1 : j < lo + wd
  · by_cases h2 : j < lo
    · simp [h1, h2, Nat.not_le.2 h2, Nat.testBit_mod_two_pow]
    · have h3 : j - lo < wd := by omega
      simp [h1, h2, Nat.not_lt.1 h2, Nat.testBit_mod_two_pow, h3]
  · have h2 : j - (lo + wd) + (lo + wd) = j := by omega
    simp [h1, Nat.testBit_div_two_pow, h2]

/-- A replaced field within 32 bits leaves a 32-bit number. -/
theorem replaced_lt (n lo wd v : Nat) (hn : n < 2 ^ 32) (h : lo + wd ≤ 32) :
    n / 2 ^ (lo + wd) * 2 ^ (lo + wd) + v % 2 ^ wd * 2 ^ lo + n % 2 ^ lo < 2 ^ 32 := by
  refine Nat.lt_pow_two_of_testBit _ fun j hj => ?_
  rw [testBit_replaced, if_neg (by omega)]
  exact Nat.testBit_lt_two_pow (Nat.lt_of_lt_of_le hn (Nat.pow_le_pow_right (by decide) hj))

/-- The word with a field replaced, as a number. -/
theorem withField_toNat (w : Word) (lo wd v : Nat) (h : lo + wd ≤ 32) :
    (withField w lo wd v).toNat = w.toNat / 2 ^ (lo + wd) * 2 ^ (lo + wd) + v % 2 ^ wd * 2 ^ lo + w.toNat % 2 ^ lo := by
  unfold withField
  rw [BitVec.toNat_ofNat, Nat.mod_eq_of_lt (replaced_lt _ _ _ _ w.isLt h)]

/-- The field just replaced holds the value, modulo its width. -/
theorem fieldOf_withField (w : Word) (lo wd v : Nat) (h : lo + wd ≤ 32) :
    fieldOf (withField w lo wd v) lo wd = v % 2 ^ wd := by
  unfold fieldOf
  rw [withField_toNat _ _ _ _ h]
  refine Nat.eq_of_testBit_eq fun i => ?_
  rw [Nat.testBit_mod_two_pow, Nat.testBit_div_two_pow, testBit_replaced, Nat.testBit_mod_two_pow]
  by_cases hi : i < wd
  · rw [if_pos (by omega)]
    simp [hi]
  · simp [hi]

/-- Another field of the word is as before. -/
theorem fieldOf_withField_of_disjoint (w : Word) (lo wd v lo' wd' : Nat) (h : lo + wd ≤ 32)
    (hd : lo' + wd' ≤ lo ∨ lo + wd ≤ lo') :
    fieldOf (withField w lo wd v) lo' wd' = fieldOf w lo' wd' := by
  unfold fieldOf
  rw [withField_toNat _ _ _ _ h]
  refine Nat.eq_of_testBit_eq fun i => ?_
  rw [Nat.testBit_mod_two_pow, Nat.testBit_div_two_pow, testBit_replaced, Nat.testBit_mod_two_pow, Nat.testBit_div_two_pow]
  by_cases hi : i < wd'
  · rw [if_neg (by omega)]
  · simp [hi]

/-- A field is smaller than its width allows. -/
theorem fieldOf_lt (w : Word) (lo wd : Nat) : fieldOf w lo wd < 2 ^ wd := Nat.mod_lt _ (by positivity)

namespace Dev

/-- The register just written holds the word. -/
@[simp] theorem reg_setReg_same (d : Dev) (a : Nat) (w : Word) : (d.setReg a w).reg a = w := by
  simp [setReg, reg]

/-- Every other register is as before. -/
theorem reg_setReg_ne (d : Dev) (a b : Nat) (w : Word) (h : b ≠ a) : (d.setReg a w).reg b = d.reg b :=
  Sparse.get_set_ne _ _ _ _ _ h

/-- Every register, after one is written. -/
theorem reg_setReg (d : Dev) (a b : Nat) (w : Word) : (d.setReg a w).reg b = if b = a then w else d.reg b :=
  Sparse.get_set ..

/-- Every register, after a field is written. -/
theorem reg_setFld (d : Dev) (f : Fld) (v b : Nat) :
    (d.setFld f v).reg b = if b = f.addr then withField (d.reg f.addr) f.lo f.width v else d.reg b :=
  reg_setReg ..

/-- The field just written holds the value, modulo its width. -/
theorem fld_setFld_same (d : Dev) (f : Fld) (v : Nat) (h : f.lo + f.width ≤ 32) :
    (d.setFld f v).fld f = v % 2 ^ f.width := by
  simp [fld, reg_setFld, fieldOf_withField _ _ _ _ h]

/-- A field of another register is as before. -/
theorem fld_setFld_ne (d : Dev) (f e : Fld) (v : Nat) (h : e.addr ≠ f.addr) : (d.setFld f v).fld e = d.fld e := by
  simp [fld, reg_setFld, h]

/-- Another field of the same register is as before. -/
theorem fld_setFld_beside (d : Dev) (f e : Fld) (v : Nat) (h : f.lo + f.width ≤ 32)
    (hd : e.lo + e.width ≤ f.lo ∨ f.lo + f.width ≤ e.lo) : (d.setFld f v).fld e = d.fld e := by
  by_cases ha : e.addr = f.addr
  · simp [fld, reg_setFld, ha, fieldOf_withField_of_disjoint _ _ _ _ _ _ h hd]
  · exact fld_setFld_ne d f e v ha

/-- A field read after another field is written: the value where they are one, and otherwise as before where they do not overlap. -/
theorem fld_setFld (d : Dev) (f e : Fld) (v : Nat) (h : f.lo + f.width ≤ 32)
    (hd : e = f ∨ e.addr ≠ f.addr ∨ e.lo + e.width ≤ f.lo ∨ f.lo + f.width ≤ e.lo) :
    (d.setFld f v).fld e = if e = f then v % 2 ^ f.width else d.fld e := by
  split_ifs with he
  · rw [he]; exact fld_setFld_same d f v h
  · rcases hd with hd | hd | hd
    · exact absurd hd he
    · exact fld_setFld_ne d f e v hd
    · exact fld_setFld_beside d f e v h hd

/-- A field holds less than its width allows. -/
theorem fld_lt (d : Dev) (f : Fld) : d.fld f < 2 ^ f.width := fieldOf_lt ..

/-- Equal registers have equal fields. -/
theorem fld_congr {d e : Dev} (f : Fld) (h : d.reg f.addr = e.reg f.addr) : d.fld f = e.fld f := by
  simp [fld, h]

end Dev

end Sys2Proof.Machine
end

