-- ==== Sys2Proof/Laws/State.lean ====
section
/-!
SUPPORT. What each update of the part's state leaves alone, field by field, and what running a command adds around its effect.
-/

namespace Sys2Proof.Machine

/-! ### Running a command -/

/-- A total command answers a next state. -/
theorem State.run_eq (s : State) (f : Dev → Dev) :
    s.run f = .next { s with dev := { f s.dev with free := s.dev.free + 1 } } := rfl

/-- A command whose effect answers a part answers the state with that part. -/
theorem State.doing_next {s : State} {f : Dev → Res} {d : Dev} (h : f s.dev = .next d) :
    s.doing f = .next { s with dev := { d with free := s.dev.free + 1 } } := by
  simp [State.doing, h]

/-- A command whose effect refuses is refused. -/
theorem State.doing_refused {s : State} {f : Dev → Res} {e : Refusal} (h : f s.dev = .refused e) : s.doing f = .refused e := by
  simp [State.doing, h]

/-- A command whose effect faults faults. -/
theorem State.doing_fault {s : State} {f : Dev → Res} {e : Fault} (h : f s.dev = .fault e) : s.doing f = .fault e := by
  simp [State.doing, h]

/-- What a next state of a command is: the queue as it was, and one more command counted. -/
theorem State.doing_cases {s t : State} {f : Dev → Res} (h : s.doing f = .next t) :
    ∃ d, f s.dev = .next d ∧ t = { s with dev := { d with free := s.dev.free + 1 } } := by
  unfold State.doing at h
  split at h
  · rename_i d hd
    exact ⟨d, hd, by injection h with h; exact h.symm⟩
  · cases h
  · cases h

/-- A command whose effect may refuse answers no fault where its effect answers none. -/
theorem State.doing_no_fault {s : State} {f : Dev → Res} {e : Fault} (h : ∀ d, f d ≠ .fault e) : s.doing f ≠ .fault e := by
  unfold State.doing
  split
  · simp
  · rename_i x hx
    intro hc
    injection hc with hc
    exact h _ (hc ▸ hx)
  · simp

namespace Dev

/-! ### Field by field -/

@[simp] theorem setReg_free (d : Dev) (a : Nat) (w : Word) : (d.setReg a w).free = d.free := rfl
@[simp] theorem setReg_genBase (d : Dev) (a : Nat) (w : Word) : (d.setReg a w).genBase = d.genBase := rfl
@[simp] theorem setReg_anchor (d : Dev) (a : Nat) (w : Word) : (d.setReg a w).anchor = d.anchor := rfl
@[simp] theorem setReg_pairs (d : Dev) (a : Nat) (w : Word) : (d.setReg a w).pairs = d.pairs := rfl
@[simp] theorem setReg_mem (d : Dev) (a : Nat) (w : Word) : (d.setReg a w).mem = d.mem := rfl
@[simp] theorem setReg_poison (d : Dev) (a : Nat) (w : Word) : (d.setReg a w).poison = d.poison := rfl
@[simp] theorem setReg_wire (d : Dev) (a : Nat) (w : Word) : (d.setReg a w).wire = d.wire := rfl
@[simp] theorem setReg_line (d : Dev) (a : Nat) (w : Word) : (d.setReg a w).line = d.line := rfl
@[simp] theorem setReg_rgn (d : Dev) (a : Nat) (w : Word) : (d.setReg a w).rgn = d.rgn := rfl
@[simp] theorem setReg_ctxs (d : Dev) (a : Nat) (w : Word) : (d.setReg a w).ctxs = d.ctxs := rfl
@[simp] theorem setReg_cells (d : Dev) (a : Nat) (w : Word) : (d.setReg a w).cells = d.cells := rfl
@[simp] theorem setReg_blockCh (d : Dev) (a : Nat) (w : Word) : (d.setReg a w).blockCh = d.blockCh := rfl
@[simp] theorem setReg_regionCh (d : Dev) (a : Nat) (w : Word) : (d.setReg a w).regionCh = d.regionCh := rfl
@[simp] theorem setReg_chSpent (d : Dev) (a : Nat) (w : Word) : (d.setReg a w).chSpent = d.chSpent := rfl
@[simp] theorem setReg_packets (d : Dev) (a : Nat) (w : Word) : (d.setReg a w).packets = d.packets := rfl
@[simp] theorem setReg_nextPacket (d : Dev) (a : Nat) (w : Word) : (d.setReg a w).nextPacket = d.nextPacket := rfl
@[simp] theorem setReg_anchorSt (d : Dev) (a : Nat) (w : Word) : (d.setReg a w).anchorSt = d.anchorSt := rfl
@[simp] theorem setReg_endpoints (d : Dev) (a : Nat) (w : Word) : (d.setReg a w).endpoints = d.endpoints := rfl
@[simp] theorem setReg_chip (d : Dev) (a : Nat) (w : Word) : (d.setReg a w).chip = d.chip := rfl
@[simp] theorem setReg_thody (d : Dev) (a : Nat) (w : Word) : (d.setReg a w).thody = d.thody := rfl

@[simp] theorem setFld_free (d : Dev) (f : Fld) (v : Nat) : (d.setFld f v).free = d.free := rfl
@[simp] theorem setFld_genBase (d : Dev) (f : Fld) (v : Nat) : (d.setFld f v).genBase = d.genBase := rfl
@[simp] theorem setFld_anchor (d : Dev) (f : Fld) (v : Nat) : (d.setFld f v).anchor = d.anchor := rfl
@[simp] theorem setFld_pairs (d : Dev) (f : Fld) (v : Nat) : (d.setFld f v).pairs = d.pairs := rfl
@[simp] theorem setFld_mem (d : Dev) (f : Fld) (v : Nat) : (d.setFld f v).mem = d.mem := rfl
@[simp] theorem setFld_poison (d : Dev) (f : Fld) (v : Nat) : (d.setFld f v).poison = d.poison := rfl
@[simp] theorem setFld_wire (d : Dev) (f : Fld) (v : Nat) : (d.setFld f v).wire = d.wire := rfl
@[simp] theorem setFld_line (d : Dev) (f : Fld) (v : Nat) : (d.setFld f v).line = d.line := rfl
@[simp] theorem setFld_rgn (d : Dev) (f : Fld) (v : Nat) : (d.setFld f v).rgn = d.rgn := rfl
@[simp] theorem setFld_ctxs (d : Dev) (f : Fld) (v : Nat) : (d.setFld f v).ctxs = d.ctxs := rfl
@[simp] theorem setFld_cells (d : Dev) (f : Fld) (v : Nat) : (d.setFld f v).cells = d.cells := rfl
@[simp] theorem setFld_blockCh (d : Dev) (f : Fld) (v : Nat) : (d.setFld f v).blockCh = d.blockCh := rfl
@[simp] theorem setFld_regionCh (d : Dev) (f : Fld) (v : Nat) : (d.setFld f v).regionCh = d.regionCh := rfl
@[simp] theorem setFld_chSpent (d : Dev) (f : Fld) (v : Nat) : (d.setFld f v).chSpent = d.chSpent := rfl
@[simp] theorem setFld_packets (d : Dev) (f : Fld) (v : Nat) : (d.setFld f v).packets = d.packets := rfl
@[simp] theorem setFld_nextPacket (d : Dev) (f : Fld) (v : Nat) : (d.setFld f v).nextPacket = d.nextPacket := rfl
@[simp] theorem setFld_anchorSt (d : Dev) (f : Fld) (v : Nat) : (d.setFld f v).anchorSt = d.anchorSt := rfl
@[simp] theorem setFld_endpoints (d : Dev) (f : Fld) (v : Nat) : (d.setFld f v).endpoints = d.endpoints := rfl
@[simp] theorem setFld_chip (d : Dev) (f : Fld) (v : Nat) : (d.setFld f v).chip = d.chip := rfl
@[simp] theorem setFld_thody (d : Dev) (f : Fld) (v : Nat) : (d.setFld f v).thody = d.thody := rfl

@[simp] theorem setByte_free (d : Dev) (a : Nat) (b : Byte) : (d.setByte a b).free = d.free := rfl
@[simp] theorem setByte_genBase (d : Dev) (a : Nat) (b : Byte) : (d.setByte a b).genBase = d.genBase := rfl
@[simp] theorem setByte_anchor (d : Dev) (a : Nat) (b : Byte) : (d.setByte a b).anchor = d.anchor := rfl
@[simp] theorem setByte_regs (d : Dev) (a : Nat) (b : Byte) : (d.setByte a b).regs = d.regs := rfl
@[simp] theorem setByte_pairs (d : Dev) (a : Nat) (b : Byte) : (d.setByte a b).pairs = d.pairs := rfl
@[simp] theorem setByte_poison (d : Dev) (a : Nat) (b : Byte) : (d.setByte a b).poison = d.poison := rfl
@[simp] theorem setByte_wire (d : Dev) (a : Nat) (b : Byte) : (d.setByte a b).wire = d.wire := rfl
@[simp] theorem setByte_line (d : Dev) (a : Nat) (b : Byte) : (d.setByte a b).line = d.line := rfl
@[simp] theorem setByte_rgn (d : Dev) (a : Nat) (b : Byte) : (d.setByte a b).rgn = d.rgn := rfl
@[simp] theorem setByte_ctxs (d : Dev) (a : Nat) (b : Byte) : (d.setByte a b).ctxs = d.ctxs := rfl
@[simp] theorem setByte_cells (d : Dev) (a : Nat) (b : Byte) : (d.setByte a b).cells = d.cells := rfl
@[simp] theorem setByte_blockCh (d : Dev) (a : Nat) (b : Byte) : (d.setByte a b).blockCh = d.blockCh := rfl
@[simp] theorem setByte_regionCh (d : Dev) (a : Nat) (b : Byte) : (d.setByte a b).regionCh = d.regionCh := rfl
@[simp] theorem setByte_chSpent (d : Dev) (a : Nat) (b : Byte) : (d.setByte a b).chSpent = d.chSpent := rfl
@[simp] theorem setByte_packets (d : Dev) (a : Nat) (b : Byte) : (d.setByte a b).packets = d.packets := rfl
@[simp] theorem setByte_nextPacket (d : Dev) (a : Nat) (b : Byte) : (d.setByte a b).nextPacket = d.nextPacket := rfl
@[simp] theorem setByte_anchorSt (d : Dev) (a : Nat) (b : Byte) : (d.setByte a b).anchorSt = d.anchorSt := rfl
@[simp] theorem setByte_endpoints (d : Dev) (a : Nat) (b : Byte) : (d.setByte a b).endpoints = d.endpoints := rfl
@[simp] theorem setByte_chip (d : Dev) (a : Nat) (b : Byte) : (d.setByte a b).chip = d.chip := rfl
@[simp] theorem setByte_thody (d : Dev) (a : Nat) (b : Byte) : (d.setByte a b).thody = d.thody := rfl

@[simp] theorem setPoison_free (d : Dev) (a : Nat) (b : Bool) : (d.setPoison a b).free = d.free := rfl
@[simp] theorem setPoison_genBase (d : Dev) (a : Nat) (b : Bool) : (d.setPoison a b).genBase = d.genBase := rfl
@[simp] theorem setPoison_anchor (d : Dev) (a : Nat) (b : Bool) : (d.setPoison a b).anchor = d.anchor := rfl
@[simp] theorem setPoison_regs (d : Dev) (a : Nat) (b : Bool) : (d.setPoison a b).regs = d.regs := rfl
@[simp] theorem setPoison_pairs (d : Dev) (a : Nat) (b : Bool) : (d.setPoison a b).pairs = d.pairs := rfl
@[simp] theorem setPoison_mem (d : Dev) (a : Nat) (b : Bool) : (d.setPoison a b).mem = d.mem := rfl
@[simp] theorem setPoison_wire (d : Dev) (a : Nat) (b : Bool) : (d.setPoison a b).wire = d.wire := rfl
@[simp] theorem setPoison_line (d : Dev) (a : Nat) (b : Bool) : (d.setPoison a b).line = d.line := rfl
@[simp] theorem setPoison_rgn (d : Dev) (a : Nat) (b : Bool) : (d.setPoison a b).rgn = d.rgn := rfl
@[simp] theorem setPoison_ctxs (d : Dev) (a : Nat) (b : Bool) : (d.setPoison a b).ctxs = d.ctxs := rfl
@[simp] theorem setPoison_cells (d : Dev) (a : Nat) (b : Bool) : (d.setPoison a b).cells = d.cells := rfl
@[simp] theorem setPoison_blockCh (d : Dev) (a : Nat) (b : Bool) : (d.setPoison a b).blockCh = d.blockCh := rfl
@[simp] theorem setPoison_regionCh (d : Dev) (a : Nat) (b : Bool) : (d.setPoison a b).regionCh = d.regionCh := rfl
@[simp] theorem setPoison_chSpent (d : Dev) (a : Nat) (b : Bool) : (d.setPoison a b).chSpent = d.chSpent := rfl
@[simp] theorem setPoison_packets (d : Dev) (a : Nat) (b : Bool) : (d.setPoison a b).packets = d.packets := rfl
@[simp] theorem setPoison_nextPacket (d : Dev) (a : Nat) (b : Bool) : (d.setPoison a b).nextPacket = d.nextPacket := rfl
@[simp] theorem setPoison_anchorSt (d : Dev) (a : Nat) (b : Bool) : (d.setPoison a b).anchorSt = d.anchorSt := rfl
@[simp] theorem setPoison_endpoints (d : Dev) (a : Nat) (b : Bool) : (d.setPoison a b).endpoints = d.endpoints := rfl
@[simp] theorem setPoison_chip (d : Dev) (a : Nat) (b : Bool) : (d.setPoison a b).chip = d.chip := rfl
@[simp] theorem setPoison_thody (d : Dev) (a : Nat) (b : Bool) : (d.setPoison a b).thody = d.thody := rfl

@[simp] theorem modR_free (d : Dev) (r : Region) (f : Rgn → Rgn) : (d.modR r f).free = d.free := rfl
@[simp] theorem modR_genBase (d : Dev) (r : Region) (f : Rgn → Rgn) : (d.modR r f).genBase = d.genBase := rfl
@[simp] theorem modR_anchor (d : Dev) (r : Region) (f : Rgn → Rgn) : (d.modR r f).anchor = d.anchor := rfl
@[simp] theorem modR_regs (d : Dev) (r : Region) (f : Rgn → Rgn) : (d.modR r f).regs = d.regs := rfl
@[simp] theorem modR_pairs (d : Dev) (r : Region) (f : Rgn → Rgn) : (d.modR r f).pairs = d.pairs := rfl
@[simp] theorem modR_mem (d : Dev) (r : Region) (f : Rgn → Rgn) : (d.modR r f).mem = d.mem := rfl
@[simp] theorem modR_poison (d : Dev) (r : Region) (f : Rgn → Rgn) : (d.modR r f).poison = d.poison := rfl
@[simp] theorem modR_wire (d : Dev) (r : Region) (f : Rgn → Rgn) : (d.modR r f).wire = d.wire := rfl
@[simp] theorem modR_line (d : Dev) (r : Region) (f : Rgn → Rgn) : (d.modR r f).line = d.line := rfl
@[simp] theorem modR_ctxs (d : Dev) (r : Region) (f : Rgn → Rgn) : (d.modR r f).ctxs = d.ctxs := rfl
@[simp] theorem modR_cells (d : Dev) (r : Region) (f : Rgn → Rgn) : (d.modR r f).cells = d.cells := rfl
@[simp] theorem modR_blockCh (d : Dev) (r : Region) (f : Rgn → Rgn) : (d.modR r f).blockCh = d.blockCh := rfl
@[simp] theorem modR_regionCh (d : Dev) (r : Region) (f : Rgn → Rgn) : (d.modR r f).regionCh = d.regionCh := rfl
@[simp] theorem modR_chSpent (d : Dev) (r : Region) (f : Rgn → Rgn) : (d.modR r f).chSpent = d.chSpent := rfl
@[simp] theorem modR_packets (d : Dev) (r : Region) (f : Rgn → Rgn) : (d.modR r f).packets = d.packets := rfl
@[simp] theorem modR_nextPacket (d : Dev) (r : Region) (f : Rgn → Rgn) : (d.modR r f).nextPacket = d.nextPacket := rfl
@[simp] theorem modR_anchorSt (d : Dev) (r : Region) (f : Rgn → Rgn) : (d.modR r f).anchorSt = d.anchorSt := rfl
@[simp] theorem modR_endpoints (d : Dev) (r : Region) (f : Rgn → Rgn) : (d.modR r f).endpoints = d.endpoints := rfl
@[simp] theorem modR_chip (d : Dev) (r : Region) (f : Rgn → Rgn) : (d.modR r f).chip = d.chip := rfl
@[simp] theorem modR_thody (d : Dev) (r : Region) (f : Rgn → Rgn) : (d.modR r f).thody = d.thody := rfl

@[simp] theorem modCtx_free (d : Dev) (k : Nat) (f : Ctx → Ctx) : (d.modCtx k f).free = d.free := rfl
@[simp] theorem modCtx_genBase (d : Dev) (k : Nat) (f : Ctx → Ctx) : (d.modCtx k f).genBase = d.genBase := rfl
@[simp] theorem modCtx_anchor (d : Dev) (k : Nat) (f : Ctx → Ctx) : (d.modCtx k f).anchor = d.anchor := rfl
@[simp] theorem modCtx_regs (d : Dev) (k : Nat) (f : Ctx → Ctx) : (d.modCtx k f).regs = d.regs := rfl
@[simp] theorem modCtx_pairs (d : Dev) (k : Nat) (f : Ctx → Ctx) : (d.modCtx k f).pairs = d.pairs := rfl
@[simp] theorem modCtx_mem (d : Dev) (k : Nat) (f : Ctx → Ctx) : (d.modCtx k f).mem = d.mem := rfl
@[simp] theorem modCtx_poison (d : Dev) (k : Nat) (f : Ctx → Ctx) : (d.modCtx k f).poison = d.poison := rfl
@[simp] theorem modCtx_wire (d : Dev) (k : Nat) (f : Ctx → Ctx) : (d.modCtx k f).wire = d.wire := rfl
@[simp] theorem modCtx_line (d : Dev) (k : Nat) (f : Ctx → Ctx) : (d.modCtx k f).line = d.line := rfl
@[simp] theorem modCtx_rgn (d : Dev) (k : Nat) (f : Ctx → Ctx) : (d.modCtx k f).rgn = d.rgn := rfl
@[simp] theorem modCtx_cells (d : Dev) (k : Nat) (f : Ctx → Ctx) : (d.modCtx k f).cells = d.cells := rfl
@[simp] theorem modCtx_blockCh (d : Dev) (k : Nat) (f : Ctx → Ctx) : (d.modCtx k f).blockCh = d.blockCh := rfl
@[simp] theorem modCtx_regionCh (d : Dev) (k : Nat) (f : Ctx → Ctx) : (d.modCtx k f).regionCh = d.regionCh := rfl
@[simp] theorem modCtx_chSpent (d : Dev) (k : Nat) (f : Ctx → Ctx) : (d.modCtx k f).chSpent = d.chSpent := rfl
@[simp] theorem modCtx_packets (d : Dev) (k : Nat) (f : Ctx → Ctx) : (d.modCtx k f).packets = d.packets := rfl
@[simp] theorem modCtx_nextPacket (d : Dev) (k : Nat) (f : Ctx → Ctx) : (d.modCtx k f).nextPacket = d.nextPacket := rfl
@[simp] theorem modCtx_anchorSt (d : Dev) (k : Nat) (f : Ctx → Ctx) : (d.modCtx k f).anchorSt = d.anchorSt := rfl
@[simp] theorem modCtx_endpoints (d : Dev) (k : Nat) (f : Ctx → Ctx) : (d.modCtx k f).endpoints = d.endpoints := rfl
@[simp] theorem modCtx_chip (d : Dev) (k : Nat) (f : Ctx → Ctx) : (d.modCtx k f).chip = d.chip := rfl
@[simp] theorem modCtx_thody (d : Dev) (k : Nat) (f : Ctx → Ctx) : (d.modCtx k f).thody = d.thody := rfl

@[simp] theorem modCell_free (d : Dev) (c : Nat) (f : CellState → CellState) : (d.modCell c f).free = d.free := rfl
@[simp] theorem modCell_genBase (d : Dev) (c : Nat) (f : CellState → CellState) : (d.modCell c f).genBase = d.genBase := rfl
@[simp] theorem modCell_anchor (d : Dev) (c : Nat) (f : CellState → CellState) : (d.modCell c f).anchor = d.anchor := rfl
@[simp] theorem modCell_regs (d : Dev) (c : Nat) (f : CellState → CellState) : (d.modCell c f).regs = d.regs := rfl
@[simp] theorem modCell_pairs (d : Dev) (c : Nat) (f : CellState → CellState) : (d.modCell c f).pairs = d.pairs := rfl
@[simp] theorem modCell_mem (d : Dev) (c : Nat) (f : CellState → CellState) : (d.modCell c f).mem = d.mem := rfl
@[simp] theorem modCell_poison (d : Dev) (c : Nat) (f : CellState → CellState) : (d.modCell c f).poison = d.poison := rfl
@[simp] theorem modCell_wire (d : Dev) (c : Nat) (f : CellState → CellState) : (d.modCell c f).wire = d.wire := rfl
@[simp] theorem modCell_line (d : Dev) (c : Nat) (f : CellState → CellState) : (d.modCell c f).line = d.line := rfl
@[simp] theorem modCell_rgn (d : Dev) (c : Nat) (f : CellState → CellState) : (d.modCell c f).rgn = d.rgn := rfl
@[simp] theorem modCell_ctxs (d : Dev) (c : Nat) (f : CellState → CellState) : (d.modCell c f).ctxs = d.ctxs := rfl
@[simp] theorem modCell_blockCh (d : Dev) (c : Nat) (f : CellState → CellState) : (d.modCell c f).blockCh = d.blockCh := rfl
@[simp] theorem modCell_regionCh (d : Dev) (c : Nat) (f : CellState → CellState) : (d.modCell c f).regionCh = d.regionCh := rfl
@[simp] theorem modCell_chSpent (d : Dev) (c : Nat) (f : CellState → CellState) : (d.modCell c f).chSpent = d.chSpent := rfl
@[simp] theorem modCell_packets (d : Dev) (c : Nat) (f : CellState → CellState) : (d.modCell c f).packets = d.packets := rfl
@[simp] theorem modCell_nextPacket (d : Dev) (c : Nat) (f : CellState → CellState) : (d.modCell c f).nextPacket = d.nextPacket := rfl
@[simp] theorem modCell_anchorSt (d : Dev) (c : Nat) (f : CellState → CellState) : (d.modCell c f).anchorSt = d.anchorSt := rfl
@[simp] theorem modCell_endpoints (d : Dev) (c : Nat) (f : CellState → CellState) : (d.modCell c f).endpoints = d.endpoints := rfl
@[simp] theorem modCell_chip (d : Dev) (c : Nat) (f : CellState → CellState) : (d.modCell c f).chip = d.chip := rfl
@[simp] theorem modCell_thody (d : Dev) (c : Nat) (f : CellState → CellState) : (d.modCell c f).thody = d.thody := rfl

@[simp] theorem send_free (d : Dev) (p q : Nat) (m : Msg) : (d.send p q m).free = d.free := rfl
@[simp] theorem send_genBase (d : Dev) (p q : Nat) (m : Msg) : (d.send p q m).genBase = d.genBase := rfl
@[simp] theorem send_anchor (d : Dev) (p q : Nat) (m : Msg) : (d.send p q m).anchor = d.anchor := rfl
@[simp] theorem send_regs (d : Dev) (p q : Nat) (m : Msg) : (d.send p q m).regs = d.regs := rfl
@[simp] theorem send_pairs (d : Dev) (p q : Nat) (m : Msg) : (d.send p q m).pairs = d.pairs := rfl
@[simp] theorem send_mem (d : Dev) (p q : Nat) (m : Msg) : (d.send p q m).mem = d.mem := rfl
@[simp] theorem send_poison (d : Dev) (p q : Nat) (m : Msg) : (d.send p q m).poison = d.poison := rfl
@[simp] theorem send_line (d : Dev) (p q : Nat) (m : Msg) : (d.send p q m).line = d.line := rfl
@[simp] theorem send_rgn (d : Dev) (p q : Nat) (m : Msg) : (d.send p q m).rgn = d.rgn := rfl
@[simp] theorem send_ctxs (d : Dev) (p q : Nat) (m : Msg) : (d.send p q m).ctxs = d.ctxs := rfl
@[simp] theorem send_cells (d : Dev) (p q : Nat) (m : Msg) : (d.send p q m).cells = d.cells := rfl
@[simp] theorem send_blockCh (d : Dev) (p q : Nat) (m : Msg) : (d.send p q m).blockCh = d.blockCh := rfl
@[simp] theorem send_regionCh (d : Dev) (p q : Nat) (m : Msg) : (d.send p q m).regionCh = d.regionCh := rfl
@[simp] theorem send_chSpent (d : Dev) (p q : Nat) (m : Msg) : (d.send p q m).chSpent = d.chSpent := rfl
@[simp] theorem send_packets (d : Dev) (p q : Nat) (m : Msg) : (d.send p q m).packets = d.packets := rfl
@[simp] theorem send_nextPacket (d : Dev) (p q : Nat) (m : Msg) : (d.send p q m).nextPacket = d.nextPacket := rfl
@[simp] theorem send_anchorSt (d : Dev) (p q : Nat) (m : Msg) : (d.send p q m).anchorSt = d.anchorSt := rfl
@[simp] theorem send_endpoints (d : Dev) (p q : Nat) (m : Msg) : (d.send p q m).endpoints = d.endpoints := rfl
@[simp] theorem send_chip (d : Dev) (p q : Nat) (m : Msg) : (d.send p q m).chip = d.chip := rfl
@[simp] theorem send_thody (d : Dev) (p q : Nat) (m : Msg) : (d.send p q m).thody = d.thody := rfl

@[simp] theorem sendAll_free (d : Dev) (p : Nat) (l : List Region) (m : Msg) : (d.sendAll p l m).free = d.free := rfl
@[simp] theorem sendAll_genBase (d : Dev) (p : Nat) (l : List Region) (m : Msg) : (d.sendAll p l m).genBase = d.genBase := rfl
@[simp] theorem sendAll_anchor (d : Dev) (p : Nat) (l : List Region) (m : Msg) : (d.sendAll p l m).anchor = d.anchor := rfl
@[simp] theorem sendAll_regs (d : Dev) (p : Nat) (l : List Region) (m : Msg) : (d.sendAll p l m).regs = d.regs := rfl
@[simp] theorem sendAll_pairs (d : Dev) (p : Nat) (l : List Region) (m : Msg) : (d.sendAll p l m).pairs = d.pairs := rfl
@[simp] theorem sendAll_mem (d : Dev) (p : Nat) (l : List Region) (m : Msg) : (d.sendAll p l m).mem = d.mem := rfl
@[simp] theorem sendAll_poison (d : Dev) (p : Nat) (l : List Region) (m : Msg) : (d.sendAll p l m).poison = d.poison := rfl
@[simp] theorem sendAll_line (d : Dev) (p : Nat) (l : List Region) (m : Msg) : (d.sendAll p l m).line = d.line := rfl
@[simp] theorem sendAll_rgn (d : Dev) (p : Nat) (l : List Region) (m : Msg) : (d.sendAll p l m).rgn = d.rgn := rfl
@[simp] theorem sendAll_ctxs (d : Dev) (p : Nat) (l : List Region) (m : Msg) : (d.sendAll p l m).ctxs = d.ctxs := rfl
@[simp] theorem sendAll_cells (d : Dev) (p : Nat) (l : List Region) (m : Msg) : (d.sendAll p l m).cells = d.cells := rfl
@[simp] theorem sendAll_blockCh (d : Dev) (p : Nat) (l : List Region) (m : Msg) : (d.sendAll p l m).blockCh = d.blockCh := rfl
@[simp] theorem sendAll_regionCh (d : Dev) (p : Nat) (l : List Region) (m : Msg) : (d.sendAll p l m).regionCh = d.regionCh := rfl
@[simp] theorem sendAll_chSpent (d : Dev) (p : Nat) (l : List Region) (m : Msg) : (d.sendAll p l m).chSpent = d.chSpent := rfl
@[simp] theorem sendAll_packets (d : Dev) (p : Nat) (l : List Region) (m : Msg) : (d.sendAll p l m).packets = d.packets := rfl
@[simp] theorem sendAll_nextPacket (d : Dev) (p : Nat) (l : List Region) (m : Msg) : (d.sendAll p l m).nextPacket = d.nextPacket := rfl
@[simp] theorem sendAll_anchorSt (d : Dev) (p : Nat) (l : List Region) (m : Msg) : (d.sendAll p l m).anchorSt = d.anchorSt := rfl
@[simp] theorem sendAll_endpoints (d : Dev) (p : Nat) (l : List Region) (m : Msg) : (d.sendAll p l m).endpoints = d.endpoints := rfl
@[simp] theorem sendAll_chip (d : Dev) (p : Nat) (l : List Region) (m : Msg) : (d.sendAll p l m).chip = d.chip := rfl
@[simp] theorem sendAll_thody (d : Dev) (p : Nat) (l : List Region) (m : Msg) : (d.sendAll p l m).thody = d.thody := rfl

@[simp] theorem receive_free (d : Dev) (p q : Nat) (m : Msg) : (d.receive p q m).free = d.free := rfl
@[simp] theorem receive_genBase (d : Dev) (p q : Nat) (m : Msg) : (d.receive p q m).genBase = d.genBase := rfl
@[simp] theorem receive_anchor (d : Dev) (p q : Nat) (m : Msg) : (d.receive p q m).anchor = d.anchor := rfl
@[simp] theorem receive_regs (d : Dev) (p q : Nat) (m : Msg) : (d.receive p q m).regs = d.regs := rfl
@[simp] theorem receive_pairs (d : Dev) (p q : Nat) (m : Msg) : (d.receive p q m).pairs = d.pairs := rfl
@[simp] theorem receive_mem (d : Dev) (p q : Nat) (m : Msg) : (d.receive p q m).mem = d.mem := rfl
@[simp] theorem receive_poison (d : Dev) (p q : Nat) (m : Msg) : (d.receive p q m).poison = d.poison := rfl
@[simp] theorem receive_line (d : Dev) (p q : Nat) (m : Msg) : (d.receive p q m).line = d.line := rfl
@[simp] theorem receive_rgn (d : Dev) (p q : Nat) (m : Msg) : (d.receive p q m).rgn = d.rgn := rfl
@[simp] theorem receive_ctxs (d : Dev) (p q : Nat) (m : Msg) : (d.receive p q m).ctxs = d.ctxs := rfl
@[simp] theorem receive_cells (d : Dev) (p q : Nat) (m : Msg) : (d.receive p q m).cells = d.cells := rfl
@[simp] theorem receive_blockCh (d : Dev) (p q : Nat) (m : Msg) : (d.receive p q m).blockCh = d.blockCh := rfl
@[simp] theorem receive_regionCh (d : Dev) (p q : Nat) (m : Msg) : (d.receive p q m).regionCh = d.regionCh := rfl
@[simp] theorem receive_chSpent (d : Dev) (p q : Nat) (m : Msg) : (d.receive p q m).chSpent = d.chSpent := rfl
@[simp] theorem receive_packets (d : Dev) (p q : Nat) (m : Msg) : (d.receive p q m).packets = d.packets := rfl
@[simp] theorem receive_nextPacket (d : Dev) (p q : Nat) (m : Msg) : (d.receive p q m).nextPacket = d.nextPacket := rfl
@[simp] theorem receive_anchorSt (d : Dev) (p q : Nat) (m : Msg) : (d.receive p q m).anchorSt = d.anchorSt := rfl
@[simp] theorem receive_endpoints (d : Dev) (p q : Nat) (m : Msg) : (d.receive p q m).endpoints = d.endpoints := rfl
@[simp] theorem receive_chip (d : Dev) (p q : Nat) (m : Msg) : (d.receive p q m).chip = d.chip := rfl
@[simp] theorem receive_thody (d : Dev) (p q : Nat) (m : Msg) : (d.receive p q m).thody = d.thody := rfl

/-! ### Frames -/

/-- Nothing changed. -/
theorem OnlyIn.refl (l : List Part) (d : Dev) : d.OnlyIn l d := fun p _ => by cases p <;> first | rfl | exact fun _ => rfl

/-- Two changes in turn. -/
theorem OnlyIn.trans {l : List Part} {d e f : Dev} (h : d.OnlyIn l e) (k : e.OnlyIn l f) : d.OnlyIn l f := fun p hp => by
  have a := h p hp
  have b := k p hp
  cases p <;> first | exact Eq.trans b a | exact fun r => (b r).trans (a r)

/-- More parts may be listed. -/
theorem OnlyIn.mono {l m : List Part} {d e : Dev} (h : d.OnlyIn l e) (k : ∀ p ∈ l, p ∈ m) : d.OnlyIn m e :=
  fun p hp => h p (fun hl => hp (k p hl))

/-- Nothing changed. -/
theorem RegsBut.refl (own : Nat → Prop) (d : Dev) : d.RegsBut own d := fun _ _ => rfl

/-- Two changes in turn. -/
theorem RegsBut.trans {own : Nat → Prop} {d e f : Dev} (h : d.RegsBut own e) (k : e.RegsBut own f) : d.RegsBut own f :=
  fun a ha => (k a ha).trans (h a ha)

/-- More registers may be named. -/
theorem RegsBut.mono {own more : Nat → Prop} {d e : Dev} (h : d.RegsBut own e) (k : ∀ a, own a → more a) : d.RegsBut more e :=
  fun a ha => h a (fun hl => ha (k a hl))

/-- A change that leaves the register file alone. -/
theorem RegsBut.of_regs {own : Nat → Prop} {d e : Dev} (h : e.regs = d.regs) : d.RegsBut own e := fun a _ => by
  simp [reg, h]

/-- A register write changes that register alone. -/
theorem regsBut_setReg {own : Nat → Prop} (d : Dev) (a : Nat) (w : Word) (h : own a) : d.RegsBut own (d.setReg a w) := fun b hb => by
  have : b ≠ a := fun e => hb (e ▸ h)
  unfold setReg reg
  exact Sparse.get_set_ne _ _ _ _ _ this

/-- A field write changes that register alone. -/
theorem regsBut_setFld {own : Nat → Prop} (d : Dev) (f : Fld) (v : Nat) (h : own f.addr) : d.RegsBut own (d.setFld f v) :=
  regsBut_setReg d f.addr _ h

/-- A region that was just changed. -/
@[simp] theorem g_modR_same (d : Dev) (r : Region) (f : Rgn → Rgn) : (d.modR r f).g r = f (d.g r) := by
  simp [modR, g]

/-- Another region is as before. -/
theorem g_modR_ne (d : Dev) (r q : Region) (f : Rgn → Rgn) (h : q ≠ r) : (d.modR r f).g q = d.g q := by
  have : r.val ≠ q.val := fun e => h (Fin.ext e.symm)
  simp [modR, g, Vector.getElem_set_ne, this]

/-- Any region, after one is changed. -/
theorem g_modR (d : Dev) (r q : Region) (f : Rgn → Rgn) : (d.modR r f).g q = if q = r then f (d.g r) else d.g q := by
  split_ifs with h
  · rw [h, g_modR_same]
  · exact g_modR_ne d r q f h

end Dev

end Sys2Proof.Machine
end

