-- ==== Sys2Proof/Laws/Signals.lean ====
section
/-!
SUPPORT. Interrupt sources and monitor events: all that they can change is their own registers, the contexts that they wake and the
interrupt messages that they send.
-/

namespace Sys2Proof.Machine.Dev

/-! ### The relation -/

/-- Nothing changed. -/
theorem Signalled.refl (d : Dev) : d.Signalled d := ⟨.refl _ _, .refl _ _⟩

/-- Two changes in turn. -/
theorem Signalled.trans {d e f : Dev} (h : d.Signalled e) (k : e.Signalled f) : d.Signalled f :=
  ⟨h.1.trans k.1, h.2.trans k.2⟩

/-- A register of another kind is as before. -/
theorem Signalled.reg {d e : Dev} (h : d.Signalled e) {a : Nat} (ha : ¬ signalReg a) : e.reg a = d.reg a := h.2 a ha

/-- A field of a register of another kind is as before. -/
theorem Signalled.fld {d e : Dev} (h : d.Signalled e) {f : Fld} (ha : ¬ signalReg f.addr) : e.fld f = d.fld f :=
  fld_congr f (h.2 _ ha)

theorem Signalled.mem {d e : Dev} (h : d.Signalled e) : e.mem = d.mem := h.1 .mem (by decide)
theorem Signalled.poison {d e : Dev} (h : d.Signalled e) : e.poison = d.poison := h.1 .poison (by decide)
theorem Signalled.cells {d e : Dev} (h : d.Signalled e) : e.cells = d.cells := h.1 .cells (by decide)
theorem Signalled.packets {d e : Dev} (h : d.Signalled e) : e.packets = d.packets := h.1 .packets (by decide)
theorem Signalled.anchor {d e : Dev} (h : d.Signalled e) : e.anchor = d.anchor := h.1 .anchor (by decide)
theorem Signalled.anchorSt {d e : Dev} (h : d.Signalled e) : e.anchorSt = d.anchorSt := h.1 .anchorSt (by decide)
theorem Signalled.chip {d e : Dev} (h : d.Signalled e) : e.chip = d.chip := h.1 .chip (by decide)
theorem Signalled.endpoints {d e : Dev} (h : d.Signalled e) : e.endpoints = d.endpoints := h.1 .endpoints (by decide)
theorem Signalled.thody {d e : Dev} (h : d.Signalled e) : e.thody = d.thody := h.1 .thody (by decide)
theorem Signalled.line {d e : Dev} (h : d.Signalled e) : e.line = d.line := h.1 .line (by decide)
theorem Signalled.free {d e : Dev} (h : d.Signalled e) : e.free = d.free := h.1 .free (by decide)
theorem Signalled.genBase {d e : Dev} (h : d.Signalled e) : e.genBase = d.genBase := h.1 .genBase (by decide)

/-- A byte is as before. -/
theorem Signalled.byte {d e : Dev} (h : d.Signalled e) (a : Nat) : e.byte a = d.byte a := by
  simp only [Dev.byte, h.mem]

/-- A change of the contexts alone. -/
theorem signalled_modCtx (d : Dev) (k : Nat) (f : Ctx → Ctx) : d.Signalled (d.modCtx k f) :=
  ⟨by intro p hp; cases p <;> first | rfl | exact fun _ => rfl | exact absurd (by decide) hp, .of_regs rfl⟩

/-- A message sent. -/
theorem signalled_send (d : Dev) (p q : Nat) (m : Msg) : d.Signalled (d.send p q m) :=
  ⟨by intro p hp; cases p <;> first | rfl | exact fun _ => rfl | exact absurd (by decide) hp, .of_regs rfl⟩

/-- A field of an interrupt or monitor register written. -/
theorem signalled_setReg (d : Dev) (a : Nat) (w : Word) (h : signalReg a) : d.Signalled (d.setReg a w) :=
  ⟨by intro p hp; cases p <;> first | rfl | exact fun _ => rfl | exact absurd (by decide) hp, regsBut_setReg d a w h⟩

/-- A field of an interrupt or monitor register written. -/
theorem signalled_setFld (d : Dev) (f : Fld) (v : Nat) (h : signalReg f.addr) : d.Signalled (d.setFld f v) :=
  signalled_setReg d f.addr _ h

/-! ### The operations -/

/-- Writing an integer register of a context. -/
theorem signalled_setX (d : Dev) (k i : Nat) (v : Word) : d.Signalled (d.setX k i v) := by
  unfold setX
  split_ifs
  · exact .refl d
  · exact signalled_modCtx ..

/-- A trap taken. -/
theorem signalled_trapFor (d : Dev) (k pend : Nat) : d.Signalled (d.trapFor k pend) := by
  unfold trapFor takeTrap
  dsimp only
  split_ifs <;> first | exact .refl d | exact signalled_modCtx ..

/-- The pending interrupt trap of a context taken. -/
theorem signalled_interruptTrap (d : Dev) (k : Nat) : d.Signalled (d.interruptTrap k) := signalled_trapFor d k _

/-- A context woken. -/
theorem signalled_wake (d : Dev) (k : Nat) : d.Signalled (d.wake k) := by
  unfold wake
  dsimp only
  split_ifs
  · exact ((signalled_modCtx d k _).trans (signalled_setX _ k _ _)).trans (signalled_trapFor _ k _)
  · exact signalled_interruptTrap ..

/-- Event bits set. -/
theorem signalled_setEvents (d : Dev) (k bits : Nat) : d.Signalled (d.setEvents k bits) :=
  (signalled_modCtx d k _).trans (signalled_wake _ k)

/-- A source delivered. -/
theorem signalled_deliver (d : Dev) (r : Region) (n : Nat) (h : n < 1024) : d.Signalled (d.deliver r n) := by
  have hc : signalReg (RGN_IRQ_SRC_count r.val n).addr := by
    have := r.isLt
    simp only [signalReg, RGN_IRQ_SRC_count, RGN_IRQ_SRC, rgnReg]
    omega
  unfold deliver clr
  dsimp only
  split_ifs <;>
    first
    | exact .refl d
    | exact signalled_wake ..
    | exact (signalled_setFld d _ _ hc).trans (signalled_send ..)

/-- A counter's register pair written. -/
theorem signalled_setPair (d : Dev) (a b v : Nat) (ha : signalReg a) (hb : signalReg b) : d.Signalled (d.setPair a b v) :=
  (signalled_setReg d a _ ha).trans (signalled_setReg _ b _ hb)

/-- What is added to one counter. -/
theorem signalled_monAdd (d : Dev) (base n : Nat) (h4 : signalReg (base + 4)) (h8 : signalReg (base + 8)) :
    d.Signalled (d.monAdd base n).1 := by
  unfold monAdd
  dsimp only
  split_ifs <;> exact signalled_setPair _ _ _ _ h4 h8

/-- One counter counts. -/
theorem signalled_monCount (d : Dev) (base n : Nat) (h4 : signalReg (base + 4)) (h8 : signalReg (base + 8)) :
    d.Signalled (d.monCount base n).1 := by
  unfold monCount
  split_ifs
  · exact .refl d
  · exact signalled_monAdd _ _ _ h4 h8

/-- The counters that match lie in the bank. -/
theorem monMatch_lt (d : Dev) (base count : Nat) (region : Option Nat) (width sel qual k : Nat)
    (h : k ∈ d.monMatch base count region width sel qual) : k < count := by
  unfold monMatch at h
  obtain ⟨e, he, rfl⟩ := List.mem_map.1 h
  have hf := (List.mem_filter.1 he).2
  simp only [Bool.and_eq_true, decide_eq_true_eq] at hf
  omega

/-- A bank of counters counts. -/
theorem signalled_monBank (d : Dev) (base count hit : Nat) (region : Option Nat) (width sel qual n : Nat) (src : Signal)
    (hb : ∀ k, k < count → signalReg (base + k * 0x20 + 4) ∧ signalReg (base + k * 0x20 + 8))
    (hh : ∀ k, k < count → signalReg (hit + k / 32 * 4)) :
    d.Signalled (d.monBank base count hit region width sel qual n src).1 := by
  unfold monBank
  have hm : ∀ k ∈ d.monMatch base count region width sel qual, k < count := fun k hk => monMatch_lt d _ _ _ _ _ _ k hk
  suffices H : ∀ (l : List Nat) (acc : Dev × List Signal), (∀ k ∈ l, k < count) → d.Signalled acc.1 →
      d.Signalled (l.foldl (fun acc k =>
        let (d', hit') := acc.1.monCount (base + k * 0x20) n
        if hit' then (d'.setHit hit k, acc.2 ++ [src]) else (d', acc.2)) acc).1 from H _ (d, []) hm (.refl d)
  intro l
  induction l with
  | nil => intro acc _ h; exact h
  | cons k t ih =>
    intro acc hk h
    rw [List.foldl_cons]
    refine ih _ (fun j hj => hk j (List.mem_cons_of_mem _ hj)) ?_
    have hkc := hk k (List.mem_cons_self ..)
    have h1 := h.trans (signalled_monCount acc.1 (base + k * 0x20) n (hb k hkc).1 (hb k hkc).2)
    dsimp only
    split_ifs
    · exact h1.trans (signalled_setReg _ _ _ (hh k hkc))
    · exact h1

/-- A region's event counted. -/
theorem signalled_monRegion (d : Dev) (r : Region) (sel qual n : Nat) : d.Signalled (d.monRegion r sel qual n).1 := by
  unfold monRegion
  dsimp only
  have := r.isLt
  have := d.anchor.isLt
  refine (signalled_monBank d _ 64 _ none 4096 sel qual n _ ?_ ?_).trans (signalled_monBank _ _ 32 _ _ 4096 sel qual n _ ?_ ?_)
  · intro k hk
    constructor <;> (simp only [signalReg, RGN_MON_CFG, rgnReg]; omega)
  · intro k hk
    simp only [signalReg, RGN_MON_HIT_LO, rgnReg]
    omega
  · intro k hk
    constructor <;> (simp only [signalReg, CHP_MON_CFG, chpReg, A]; omega)
  · intro k hk
    simp only [signalReg, CHP_MON_HIT, chpReg, A]
    omega

/-- A listed source has a number below 1,024. -/
theorem sourceListed_lt {n : Nat} (h : sourceListed n = true) : n < 1024 := by
  unfold sourceListed at h
  simp only [Bool.or_eq_true, Bool.and_eq_true, decide_eq_true_eq] at h
  omega

/-- One arrival. -/
theorem signalled_arrive (d : Dev) (r : Region) (n : Nat) : d.Signalled (d.arrive r n).1 := by
  have hr := r.isLt
  unfold arrive
  by_cases hs : sourceListed n = true
  · have hn := sourceListed_lt hs
    rw [if_pos hs]
    by_cases h : d.irqCount r.val n = 255
    · rw [if_pos h]
      refine (signalled_setFld d (RGN_IRQ_OVF_lost r.val) _ ?_).trans (signalled_setFld _ (RGN_IRQ_ERR_saturated r.val) 1 ?_)
      · simp only [signalReg, RGN_IRQ_OVF_lost, RGN_IRQ_OVF, rgnReg]
        omega
      · simp only [signalReg, RGN_IRQ_ERR_saturated, RGN_IRQ_ERR, rgnReg]
        omega
    · rw [if_neg h]
      refine (signalled_setFld d (RGN_IRQ_SRC_count r.val n) _ ?_).trans (signalled_deliver _ r n hn)
      simp only [signalReg, RGN_IRQ_SRC_count, RGN_IRQ_SRC, rgnReg]
      omega
  · rw [if_neg hs]
    exact .refl d

/-- One signal, which names a block below 16 where it names one. -/
theorem signalled_signalOne (d : Dev) (x : Signal) (h : ∀ r b sel q n, x = .blockEvent r b sel q n → b < 4096) :
    d.Signalled (d.signalOne x).1 := by
  have := d.anchor.isLt
  cases x with
  | arrive r n => exact signalled_arrive d r n
  | regionEvent r sel qual n => exact signalled_monRegion d r sel qual n
  | chipEvent sel qual n =>
    refine signalled_monBank d _ 32 _ _ 4096 sel qual n _ ?_ ?_
    · intro k hk
      constructor <;> (simp only [signalReg, CHP_MON_CFG, chpReg, A]; omega)
    · intro k hk
      simp only [signalReg, CHP_MON_HIT, chpReg, A]
      omega
  | blockEvent r b sel qual n =>
    have hb := h r b sel qual n rfl
    have := r.isLt
    unfold signalOne
    dsimp only
    refine (signalled_monBank d _ 8 _ none _ sel qual n _ ?_ ?_).trans (signalled_monRegion _ r sel qual n)
    · intro k hk
      constructor <;> (simp only [signalReg, BLK_MON_CFG, blkReg]; omega)
    · intro k hk
      simp only [signalReg, BLK_MON_HIT, blkReg]
      omega

/-- A signal that follows from another names no block. -/
def Signal.plain : Signal → Prop
  | .blockEvent _ b _ _ _ => b < 4096
  | _ => True

/-- The signals that follow from a bank's counting are its threshold source. -/
theorem plain_monBank (d : Dev) (base count hit : Nat) (region : Option Nat) (width sel qual n : Nat) (src : Signal)
    (h : Signal.plain src) : ∀ x ∈ (d.monBank base count hit region width sel qual n src).2, Signal.plain x := by
  unfold monBank
  suffices H : ∀ (l : List Nat) (acc : Dev × List Signal), (∀ x ∈ acc.2, Signal.plain x) →
      ∀ x ∈ (l.foldl (fun acc k =>
        let (d', hit') := acc.1.monCount (base + k * 0x20) n
        if hit' then (d'.setHit hit k, acc.2 ++ [src]) else (d', acc.2)) acc).2, Signal.plain x from
    H _ (d, []) (by simp)
  intro l
  induction l with
  | nil => intro acc h; exact h
  | cons k t ih =>
    intro acc ha
    rw [List.foldl_cons]
    refine ih _ ?_
    dsimp only
    split_ifs
    · intro x hx
      rcases List.mem_append.1 hx with hx | hx
      · exact ha x hx
      · rw [List.mem_singleton.1 hx]; exact h
    · exact ha

/-- The signals that follow from one signal. -/
theorem plain_signalOne (d : Dev) (x : Signal) : ∀ y ∈ (d.signalOne x).2, Signal.plain y := by
  have hr : ∀ (e : Dev) r sel qual n, ∀ y ∈ (e.monRegion r sel qual n).2, Signal.plain y := by
    intro e r sel qual n y hy
    unfold monRegion at hy
    dsimp only at hy
    rcases List.mem_append.1 hy with hy | hy
    · exact plain_monBank _ _ _ _ _ _ _ _ _ (.arrive r 0x75) trivial y hy
    · exact plain_monBank _ _ _ _ _ _ _ _ _ (.arrive e.anchor 0x76) trivial y hy
  cases x with
  | arrive r n =>
    intro y hy
    change y ∈ (d.arrive r n).2 at hy
    unfold arrive at hy
    split_ifs at hy <;> simp at hy
    · subst hy; trivial
    · rcases hy with hy | hy <;> subst hy <;> trivial
    · subst hy; trivial
  | regionEvent r sel qual n => exact hr d r sel qual n
  | chipEvent sel qual n => exact plain_monBank _ _ _ _ _ _ _ _ _ (.arrive d.anchor 0x76) trivial
  | blockEvent r b sel qual n =>
    intro y hy
    unfold signalOne at hy
    dsimp only at hy
    rcases List.mem_append.1 hy with hy | hy
    · exact plain_monBank _ _ _ _ _ _ _ _ _ (.arrive r 0x74) trivial y hy
    · exact hr _ _ _ _ _ y hy

/-- Signals in turn. -/
theorem signalled_signals (n : Nat) (d : Dev) (l : List Signal) (h : ∀ x ∈ l, Signal.plain x) : d.Signalled (signals n d l) := by
  induction n generalizing d l with
  | zero => cases l <;> exact .refl d
  | succ n ih =>
    cases l with
    | nil => exact .refl d
    | cons x t =>
      unfold signals
      dsimp only
      refine (signalled_signalOne d x ?_).trans (ih _ _ ?_)
      · intro r b sel q m hx
        have := h x (List.mem_cons_self ..)
        rw [hx] at this
        exact this
      · intro y hy
        rcases List.mem_append.1 hy with hy | hy
        · exact plain_signalOne d x y hy
        · exact h y (List.mem_cons_of_mem _ hy)

/-- An arrival at a source. -/
theorem signalled_raise (d : Dev) (r : Region) (n : Nat) : d.Signalled (d.raise r n) :=
  signalled_signals _ _ _ (by simp [Signal.plain])

/-- A region's event. -/
theorem signalled_event (d : Dev) (r : Region) (sel qual n : Nat) : d.Signalled (d.event r sel qual n) :=
  signalled_signals _ _ _ (by simp [Signal.plain])

/-- A block's event. -/
theorem signalled_bevent (d : Dev) (r : Region) (b sel qual : Nat) (h : b < 4096) : d.Signalled (d.bevent r b sel qual) :=
  signalled_signals _ _ _ (by simp [Signal.plain, h])

/-- The part's event. -/
theorem signalled_cevent (d : Dev) (sel qual : Nat) : d.Signalled (d.cevent sel qual) :=
  signalled_signals _ _ _ (by simp [Signal.plain])

/-- An error bit set and its source raised: the register of the bit, and what its source changes. -/
theorem err_frame (d : Dev) (f : Fld) (r : Region) (n : Nat) : (d.setFld f 1).Signalled (d.err f r n) :=
  signalled_raise (d.setOn f) r n

end Sys2Proof.Machine.Dev
end

