-- ==== Sys2Proof/Laws/Kept.lean ====
section
/-!
SUPPORT. What an operation on the part can do at most: the parts of the state that it can change, and that it keeps the canonical forms.
One lemma for each primitive operation; the files of Laws/ named after the operations' own files cite them.
-/

namespace Sys2Proof.Machine

/-- Every part. -/
def Part.all : List Part :=
  [.free, .genBase, .anchor, .regs, .pairs, .mem, .poison, .wire, .line, .ctxs, .cells, .blockCh, .regionCh, .chSpent]
    ++ [.packets, .nextPacket, .anchorSt, .endpoints, .chip, .thody, .tick, .mode, .drainedFrom, .commit, .tables, .inbox]
    ++ [.pool, .egress, .front, .dispatch, .mirror, .mpGeneration, .ledger, .journal, .requests, .nextTag, .hbm, .links, .routeDue, .due, .relays, .wipes]

theorem Part.mem_all (p : Part) : p ∈ Part.all := by cases p <;> decide

/-- Whether two regions agree in a part; a part that is none of theirs does not count. -/
def Part.sameR (g h : Rgn) : Part → Prop
  | .tick => h.tick = g.tick
  | .mode => h.mode = g.mode
  | .drainedFrom => h.drainedFrom = g.drainedFrom
  | .commit => h.commit = g.commit
  | .tables => h.tables = g.tables
  | .inbox => h.inbox = g.inbox
  | .pool => h.pool = g.pool
  | .egress => h.egress = g.egress
  | .front => h.front = g.front
  | .dispatch => h.dispatch = g.dispatch
  | .mirror => h.mirror = g.mirror
  | .mpGeneration => h.mpGeneration = g.mpGeneration
  | .ledger => h.ledger = g.ledger
  | .journal => h.journal = g.journal
  | .requests => h.requests = g.requests
  | .nextTag => h.nextTag = g.nextTag
  | .hbm => h.hbm = g.hbm
  | .links => h.links = g.links
  | .routeDue => h.routeDue = g.routeDue
  | .due => h.due = g.due
  | .relays => h.relays = g.relays
  | .wipes => h.wipes = g.wipes
  | _ => True

namespace Dev

/-- An operation changes at most the listed parts, and keeps the canonical forms. -/
def Kept (ps : List Part) (d e : Dev) : Prop := d.OnlyIn ps e ∧ (d.Canonical → e.Canonical)

variable {ps qs : List Part} {d0 d e : Dev}

theorem Kept.refl (ps : List Part) (d : Dev) : d.Kept ps d := ⟨.refl _ _, id⟩

theorem Kept.id_ (ps : List Part) (d : Dev) : d.Kept ps (id d) := .refl _ _

theorem Kept.then (h : d0.Kept ps d) (k : d.Kept qs e) (hs : ∀ p ∈ qs, p ∈ ps) : d0.Kept ps e :=
  ⟨h.1.trans (k.1.mono hs), fun c => k.2 (h.2 c)⟩

theorem Kept.mono (h : d.Kept qs e) (hs : ∀ p ∈ qs, p ∈ ps) : d.Kept ps e := ⟨h.1.mono hs, h.2⟩

/-- Any update that leaves the other parts alone and keeps the canonical forms. -/
theorem Kept.upd (h : d0.Kept ps d) (hp : ∀ p, p ∉ ps → p.same d e) (hc : d.Canonical → e.Canonical) : d0.Kept ps e :=
  h.then ⟨hp, hc⟩ fun _ => id

/-- A register written. -/
theorem setReg_kept (d : Dev) (a : Nat) (w : Word) : d.Kept [.regs] (d.setReg a w) :=
  ⟨by intro p hp; cases p <;> first | rfl | exact fun _ => rfl | exact absurd (by decide) hp,
    fun ⟨h1, h2, h3, h4, h5⟩ => ⟨h1, h2, Sparse.wf_set _ _ _ h3, h4, h5⟩⟩

theorem setFld_kept (d : Dev) (f : Fld) (v : Nat) : d.Kept [.regs] (d.setFld f v) := setReg_kept ..
theorem setOn_kept (d : Dev) (f : Fld) : d.Kept [.regs] (d.setOn f) := setReg_kept ..
theorem clr_kept (d : Dev) (f : Fld) : d.Kept [.regs] (d.clr f) := setReg_kept ..
theorem addSat_kept (d : Dev) (f : Fld) (n : Nat) : d.Kept [.regs] (d.addSat f n) := setReg_kept ..
theorem maxFld_kept (d : Dev) (f : Fld) (n : Nat) : d.Kept [.regs] (d.maxFld f n) := setReg_kept ..
theorem setPair_kept (d : Dev) (a b v : Nat) : d.Kept [.regs] (d.setPair a b v) :=
  (setReg_kept d a _).then (setReg_kept _ b _) (by decide)

/-- A byte written. -/
theorem setByte_kept (d : Dev) (a : Nat) (b : Byte) : d.Kept [.mem] (d.setByte a b) :=
  ⟨by intro p hp; cases p <;> first | rfl | exact fun _ => rfl | exact absurd (by decide) hp,
    fun ⟨h1, h2, h3, h4, h5⟩ => ⟨Sparse.wf_set _ _ _ h1, h2, h3, h4, h5⟩⟩

theorem setBytes_kept (d : Dev) (a : Nat) (l : List Byte) : d.Kept [.mem] (d.setBytes a l) := by
  induction l generalizing d a with
  | nil => exact .refl _ d
  | cons b t ih => exact (setByte_kept d a b).then (ih _ _) (by decide)

theorem setLE_kept (d : Dev) (a n v : Nat) : d.Kept [.mem] (d.setLE a n v) := setBytes_kept ..

/-- A line marked or cleaned. -/
theorem setPoison_kept (d : Dev) (a : Nat) (b : Bool) : d.Kept [.poison] (d.setPoison a b) :=
  ⟨by intro p hp; cases p <;> first | rfl | exact fun _ => rfl | exact absurd (by decide) hp,
    fun ⟨h1, h2, h3, h4, h5⟩ => ⟨h1, Sparse.wf_set _ _ _ h2, h3, h4, h5⟩⟩

/-- A range zeroed. -/
theorem zero_kept (d : Dev) (a n : Nat) : d.Kept [.mem, .poison] (d.zero a n) :=
  ⟨by intro p hp; cases p <;> first | rfl | exact fun _ => rfl | exact absurd (by decide) hp,
    fun ⟨h1, h2, h3, h4, h5⟩ => ⟨Sparse.wf_filter _ _ h1, Sparse.wf_filter _ _ h2, h3, h4, h5⟩⟩

/-- A context changed. -/
theorem modCtx_kept (d : Dev) (k : Nat) (f : Ctx → Ctx) : d.Kept [.ctxs] (d.modCtx k f) :=
  ⟨by intro p hp; cases p <;> first | rfl | exact fun _ => rfl | exact absurd (by decide) hp,
    fun ⟨h1, h2, h3, h4, h5⟩ => ⟨h1, h2, h3, Sparse.wf_set _ _ _ h4, h5⟩⟩

theorem setX_kept (d : Dev) (k i : Nat) (v : Word) : d.Kept [.ctxs] (d.setX k i v) := by
  unfold setX
  split_ifs
  · exact .refl _ d
  · exact modCtx_kept ..

/-- A cell changed. -/
theorem modCell_kept (d : Dev) (c : Nat) (f : CellState → CellState) : d.Kept [.cells] (d.modCell c f) :=
  ⟨by intro p hp; cases p <;> first | rfl | exact fun _ => rfl | exact absurd (by decide) hp,
    fun ⟨h1, h2, h3, h4, h5⟩ => ⟨h1, h2, h3, h4, Sparse.wf_set _ _ _ h5⟩⟩

/-- A message sent or taken off the wire. -/
theorem send_kept (d : Dev) (p q : Nat) (m : Msg) : d.Kept [.wire] (d.send p q m) :=
  ⟨by intro p hp; cases p <;> first | rfl | exact fun _ => rfl | exact absurd (by decide) hp, id⟩
theorem flood_kept (d : Dev) (r : Region) (via : Option (Fin 6)) (m : Msg) : d.Kept [.wire] (d.flood r via m) :=
  ⟨by intro p hp; cases p <;> first | rfl | exact fun _ => rfl | exact absurd (by decide) hp, id⟩
theorem sendAll_kept (d : Dev) (p : Nat) (l : List Region) (m : Msg) : d.Kept [.wire] (d.sendAll p l m) :=
  ⟨by intro p hp; cases p <;> first | rfl | exact fun _ => rfl | exact absurd (by decide) hp, id⟩
theorem receive_kept (d : Dev) (p q : Nat) (m : Msg) : d.Kept [.wire] (d.receive p q m) :=
  ⟨by intro p hp; cases p <;> first | rfl | exact fun _ => rfl | exact absurd (by decide) hp, id⟩

/-- A region changed. -/
theorem modR_kept (d : Dev) (r : Region) (f : Rgn → Rgn) (hf : ∀ g p, p ∉ ps → p.sameR g (f g)) : d.Kept ps (d.modR r f) := by
  refine ⟨?_, id⟩
  intro p hp
  have h := hf (d.g r) p hp
  cases p <;>
    first
    | rfl
    | (intro q
       rw [g_modR]
       split_ifs with e
       · subst e; exact h
       · rfl)

/-- Something done for each member of a list. -/
theorem Kept.each {α : Type} {f : α → Dev → Dev} {l : List α} (h : d0.Kept ps d) (hf : ∀ a (e : Dev), e.Kept ps (f a e)) :
    d0.Kept ps (d.each l f) := by
  unfold Dev.each
  induction l generalizing d with
  | nil => exact h
  | cons a t ih => exact ih (h.then (hf a d) fun _ => id)

theorem Kept.foldl {α : Type} {f : Dev → α → Dev} {l : List α} (h : d0.Kept ps d) (hf : ∀ (e : Dev) a, e.Kept ps (f e a)) :
    d0.Kept ps (l.foldl f d) := by
  induction l generalizing d with
  | nil => exact h
  | cons a t ih => exact ih (h.then (hf d a) fun _ => id)

theorem Kept.foldl_fst {α β : Type} {f : Dev × β → α → Dev × β} {l : List α} {x : Dev × β} (h : d0.Kept ps x.1)
    (hf : ∀ (e : Dev × β) a, e.1.Kept ps (f e a).1) : d0.Kept ps (l.foldl f x).1 := by
  induction l generalizing x with
  | nil => exact h
  | cons a t ih => exact ih (h.then (hf x a) fun _ => id)

/-- Something done where a condition holds. -/
theorem Kept.when {b : Bool} {f : Dev → Dev} (h : d0.Kept ps d) (hf : ∀ e : Dev, e.Kept ps (f e)) : d0.Kept ps (d.when b f) := by
  unfold Dev.when
  split_ifs
  · exact h.then (hf d) fun _ => id
  · exact h

/-! ### The primitive operations, one after another -/

theorem Kept.setReg {a w} (h : d0.Kept ps d) (hs : ∀ p ∈ [Part.regs], p ∈ ps) : d0.Kept ps (d.setReg a w) :=
  h.then (setReg_kept ..) hs
theorem Kept.setFld {f v} (h : d0.Kept ps d) (hs : ∀ p ∈ [Part.regs], p ∈ ps) : d0.Kept ps (d.setFld f v) :=
  h.then (setFld_kept ..) hs
theorem Kept.setOn {f} (h : d0.Kept ps d) (hs : ∀ p ∈ [Part.regs], p ∈ ps) : d0.Kept ps (d.setOn f) :=
  h.then (setOn_kept ..) hs
theorem Kept.clr {f} (h : d0.Kept ps d) (hs : ∀ p ∈ [Part.regs], p ∈ ps) : d0.Kept ps (d.clr f) :=
  h.then (clr_kept ..) hs
theorem Kept.addSat {f n} (h : d0.Kept ps d) (hs : ∀ p ∈ [Part.regs], p ∈ ps) : d0.Kept ps (d.addSat f n) :=
  h.then (addSat_kept ..) hs
theorem Kept.maxFld {f n} (h : d0.Kept ps d) (hs : ∀ p ∈ [Part.regs], p ∈ ps) : d0.Kept ps (d.maxFld f n) :=
  h.then (maxFld_kept ..) hs
theorem Kept.setPair {a b v} (h : d0.Kept ps d) (hs : ∀ p ∈ [Part.regs], p ∈ ps) : d0.Kept ps (d.setPair a b v) :=
  h.then (setPair_kept ..) hs
theorem Kept.setByte {a b} (h : d0.Kept ps d) (hs : ∀ p ∈ [Part.mem], p ∈ ps) : d0.Kept ps (d.setByte a b) :=
  h.then (setByte_kept ..) hs
theorem Kept.setBytes {a l} (h : d0.Kept ps d) (hs : ∀ p ∈ [Part.mem], p ∈ ps) : d0.Kept ps (d.setBytes a l) :=
  h.then (setBytes_kept ..) hs
theorem Kept.setLE {a n v} (h : d0.Kept ps d) (hs : ∀ p ∈ [Part.mem], p ∈ ps) : d0.Kept ps (d.setLE a n v) :=
  h.then (setLE_kept ..) hs
theorem Kept.setPoison {a b} (h : d0.Kept ps d) (hs : ∀ p ∈ [Part.poison], p ∈ ps) : d0.Kept ps (d.setPoison a b) :=
  h.then (setPoison_kept ..) hs
theorem Kept.zero {a n} (h : d0.Kept ps d) (hs : ∀ p ∈ [Part.mem, Part.poison], p ∈ ps) : d0.Kept ps (d.zero a n) :=
  h.then (zero_kept ..) hs
theorem Kept.modCtx {k f} (h : d0.Kept ps d) (hs : ∀ p ∈ [Part.ctxs], p ∈ ps) : d0.Kept ps (d.modCtx k f) :=
  h.then (modCtx_kept ..) hs
theorem Kept.setX {k i v} (h : d0.Kept ps d) (hs : ∀ p ∈ [Part.ctxs], p ∈ ps) : d0.Kept ps (d.setX k i v) :=
  h.then (setX_kept ..) hs
theorem Kept.modCell {c f} (h : d0.Kept ps d) (hs : ∀ p ∈ [Part.cells], p ∈ ps) : d0.Kept ps (d.modCell c f) :=
  h.then (modCell_kept ..) hs
theorem Kept.send {p q m} (h : d0.Kept ps d) (hs : ∀ p ∈ [Part.wire], p ∈ ps) : d0.Kept ps (d.send p q m) :=
  h.then (send_kept ..) hs
theorem Kept.flood {p via m} (h : d0.Kept ps d) (hs : ∀ p ∈ [Part.wire], p ∈ ps) : d0.Kept ps (d.flood p via m) :=
  h.then (flood_kept ..) hs
theorem Kept.sendAll {p l m} (h : d0.Kept ps d) (hs : ∀ p ∈ [Part.wire], p ∈ ps) : d0.Kept ps (d.sendAll p l m) :=
  h.then (sendAll_kept ..) hs
theorem Kept.receive {p q m} (h : d0.Kept ps d) (hs : ∀ p ∈ [Part.wire], p ∈ ps) : d0.Kept ps (d.receive p q m) :=
  h.then (receive_kept ..) hs
theorem Kept.modR {r : Region} {f : Rgn → Rgn} (h : d0.Kept ps d) (hf : ∀ g p, p ∉ ps → p.sameR g (f g)) : d0.Kept ps (d.modR r f) :=
  h.then (modR_kept d r f hf) fun _ => id
theorem Kept.ite {c : Prop} [Decidable c] (h : d0.Kept ps d) (k : d0.Kept ps e) : d0.Kept ps (if c then d else e) := by
  split_ifs
  · exact h
  · exact k
theorem Kept.ite_fst {α : Type} {c : Prop} [Decidable c] {x y : Dev × α} (h : d0.Kept ps x.1) (k : d0.Kept ps y.1) :
    d0.Kept ps (if c then x else y).1 := by
  split_ifs
  · exact h
  · exact k

theorem Kept.of_fst_eq {α : Type} {x : Dev × α} {a : α} (hx : x = (d, a)) (h : d0.Kept ps x.1) : d0.Kept ps d := by
  rw [hx] at h
  exact h

/-! ### Register writes, which answer whether they were taken -/

/-- A write that answers keeps the canonical forms; it may change any part. -/
def KeptW (d0 : Dev) (x : Dev × Bool) : Prop := d0.Kept Part.all x.1

theorem KeptW.mk {b : Bool} (h : d0.Kept Part.all d) : d0.KeptW (d, b) := h
theorem KeptW.of {x : Dev × Bool} (h : d0.Kept Part.all x.1) : d0.KeptW x := h
theorem KeptW.fst {x : Dev × Bool} (h : d0.KeptW x) : d0.Kept Part.all x.1 := h
theorem KeptW.ite {c : Prop} [Decidable c] {x y : Dev × Bool} (h : d0.KeptW x) (k : d0.KeptW y) : d0.KeptW (if c then x else y) := by
  split_ifs
  · exact h
  · exact k

/-! ### A field given a value -/

theorem Kept.set_free {x} (h : d0.Kept ps d) (hp : Part.free ∈ ps) : d0.Kept ps { d with free := x } :=
  h.then (qs := [Part.free]) ⟨by intro p hp; cases p <;> first | rfl | exact fun _ => rfl | exact absurd (by decide) hp, id⟩ (by simpa using hp)

theorem Kept.set_genBase {x} (h : d0.Kept ps d) (hp : Part.genBase ∈ ps) : d0.Kept ps { d with genBase := x } :=
  h.then (qs := [Part.genBase]) ⟨by intro p hp; cases p <;> first | rfl | exact fun _ => rfl | exact absurd (by decide) hp, id⟩ (by simpa using hp)

theorem Kept.set_anchor {x} (h : d0.Kept ps d) (hp : Part.anchor ∈ ps) : d0.Kept ps { d with anchor := x } :=
  h.then (qs := [Part.anchor]) ⟨by intro p hp; cases p <;> first | rfl | exact fun _ => rfl | exact absurd (by decide) hp, id⟩ (by simpa using hp)

theorem Kept.set_pairs {x} (h : d0.Kept ps d) (hp : Part.pairs ∈ ps) : d0.Kept ps { d with pairs := x } :=
  h.then (qs := [Part.pairs]) ⟨by intro p hp; cases p <;> first | rfl | exact fun _ => rfl | exact absurd (by decide) hp, id⟩ (by simpa using hp)

theorem Kept.set_wire {x} (h : d0.Kept ps d) (hp : Part.wire ∈ ps) : d0.Kept ps { d with wire := x } :=
  h.then (qs := [Part.wire]) ⟨by intro p hp; cases p <;> first | rfl | exact fun _ => rfl | exact absurd (by decide) hp, id⟩ (by simpa using hp)

theorem Kept.set_line {x} (h : d0.Kept ps d) (hp : Part.line ∈ ps) : d0.Kept ps { d with line := x } :=
  h.then (qs := [Part.line]) ⟨by intro p hp; cases p <;> first | rfl | exact fun _ => rfl | exact absurd (by decide) hp, id⟩ (by simpa using hp)

theorem Kept.set_blockCh {x} (h : d0.Kept ps d) (hp : Part.blockCh ∈ ps) : d0.Kept ps { d with blockCh := x } :=
  h.then (qs := [Part.blockCh]) ⟨by intro p hp; cases p <;> first | rfl | exact fun _ => rfl | exact absurd (by decide) hp, id⟩ (by simpa using hp)

theorem Kept.set_regionCh {x} (h : d0.Kept ps d) (hp : Part.regionCh ∈ ps) : d0.Kept ps { d with regionCh := x } :=
  h.then (qs := [Part.regionCh]) ⟨by intro p hp; cases p <;> first | rfl | exact fun _ => rfl | exact absurd (by decide) hp, id⟩ (by simpa using hp)

theorem Kept.set_chSpent {x} (h : d0.Kept ps d) (hp : Part.chSpent ∈ ps) : d0.Kept ps { d with chSpent := x } :=
  h.then (qs := [Part.chSpent]) ⟨by intro p hp; cases p <;> first | rfl | exact fun _ => rfl | exact absurd (by decide) hp, id⟩ (by simpa using hp)

theorem Kept.set_packets {x} (h : d0.Kept ps d) (hp : Part.packets ∈ ps) : d0.Kept ps { d with packets := x } :=
  h.then (qs := [Part.packets]) ⟨by intro p hp; cases p <;> first | rfl | exact fun _ => rfl | exact absurd (by decide) hp, id⟩ (by simpa using hp)

theorem Kept.set_nextPacket {x} (h : d0.Kept ps d) (hp : Part.nextPacket ∈ ps) : d0.Kept ps { d with nextPacket := x } :=
  h.then (qs := [Part.nextPacket]) ⟨by intro p hp; cases p <;> first | rfl | exact fun _ => rfl | exact absurd (by decide) hp, id⟩ (by simpa using hp)

theorem Kept.set_anchorSt {x} (h : d0.Kept ps d) (hp : Part.anchorSt ∈ ps) : d0.Kept ps { d with anchorSt := x } :=
  h.then (qs := [Part.anchorSt]) ⟨by intro p hp; cases p <;> first | rfl | exact fun _ => rfl | exact absurd (by decide) hp, id⟩ (by simpa using hp)

theorem Kept.set_endpoints {x} (h : d0.Kept ps d) (hp : Part.endpoints ∈ ps) : d0.Kept ps { d with endpoints := x } :=
  h.then (qs := [Part.endpoints]) ⟨by intro p hp; cases p <;> first | rfl | exact fun _ => rfl | exact absurd (by decide) hp, id⟩ (by simpa using hp)

theorem Kept.set_chip {x} (h : d0.Kept ps d) (hp : Part.chip ∈ ps) : d0.Kept ps { d with chip := x } :=
  h.then (qs := [Part.chip]) ⟨by intro p hp; cases p <;> first | rfl | exact fun _ => rfl | exact absurd (by decide) hp, id⟩ (by simpa using hp)

theorem Kept.set_thody {x} (h : d0.Kept ps d) (hp : Part.thody ∈ ps) : d0.Kept ps { d with thody := x } :=
  h.then (qs := [Part.thody]) ⟨by intro p hp; cases p <;> first | rfl | exact fun _ => rfl | exact absurd (by decide) hp, id⟩ (by simpa using hp)

theorem Kept.set_mem {x} (h : d0.Kept ps d) (hp : Part.mem ∈ ps) (hx : Sparse.Wf memDefault d.mem → Sparse.Wf memDefault x) :
    d0.Kept ps { d with mem := x } :=
  h.then (qs := [Part.mem]) ⟨by intro p hp; cases p <;> first | rfl | exact fun _ => rfl | exact absurd (by decide) hp,
    fun ⟨h1, h2, h3, h4, h5⟩ => ⟨(hx h1), h2, h3, h4, h5⟩⟩ (by simpa using hp)

theorem Kept.set_poison {x} (h : d0.Kept ps d) (hp : Part.poison ∈ ps) (hx : Sparse.Wf (fun _ => false) d.poison → Sparse.Wf (fun _ => false) x) :
    d0.Kept ps { d with poison := x } :=
  h.then (qs := [Part.poison]) ⟨by intro p hp; cases p <;> first | rfl | exact fun _ => rfl | exact absurd (by decide) hp,
    fun ⟨h1, h2, h3, h4, h5⟩ => ⟨h1, (hx h2), h3, h4, h5⟩⟩ (by simpa using hp)

theorem Kept.set_regs {x} (h : d0.Kept ps d) (hp : Part.regs ∈ ps) (hx : Sparse.Wf regDefault d.regs → Sparse.Wf regDefault x) :
    d0.Kept ps { d with regs := x } :=
  h.then (qs := [Part.regs]) ⟨by intro p hp; cases p <;> first | rfl | exact fun _ => rfl | exact absurd (by decide) hp,
    fun ⟨h1, h2, h3, h4, h5⟩ => ⟨h1, h2, (hx h3), h4, h5⟩⟩ (by simpa using hp)

theorem Kept.set_ctxs {x} (h : d0.Kept ps d) (hp : Part.ctxs ∈ ps) (hx : Sparse.Wf ctxDefault d.ctxs → Sparse.Wf ctxDefault x) :
    d0.Kept ps { d with ctxs := x } :=
  h.then (qs := [Part.ctxs]) ⟨by intro p hp; cases p <;> first | rfl | exact fun _ => rfl | exact absurd (by decide) hp,
    fun ⟨h1, h2, h3, h4, h5⟩ => ⟨h1, h2, h3, (hx h4), h5⟩⟩ (by simpa using hp)

theorem Kept.set_cells {x} (h : d0.Kept ps d) (hp : Part.cells ∈ ps) (hx : Sparse.Wf cellDefault d.cells → Sparse.Wf cellDefault x) :
    d0.Kept ps { d with cells := x } :=
  h.then (qs := [Part.cells]) ⟨by intro p hp; cases p <;> first | rfl | exact fun _ => rfl | exact absurd (by decide) hp,
    fun ⟨h1, h2, h3, h4, h5⟩ => ⟨h1, h2, h3, h4, (hx h5)⟩⟩ (by simpa using hp)

end Dev

end Sys2Proof.Machine
end

