-- ==== Sys2Proof/Laws/SignalsKept.lean ====
section
/-!
SUPPORT. What each operation of Machine/Signals.lean can change at most, and that it keeps the canonical forms.
-/

namespace Sys2Proof.Machine.Dev

/-- What `takeTrap` can change. -/
theorem Kept.takeTrap {ps : List Part} {d0 d : Dev} {k cause : Nat} {tval : Word} (hk : d0.Kept ps d) (hsub : ∀ p ∈ ([.ctxs] : List Part), p ∈ ps) :
    d0.Kept ps (Dev.takeTrap d k cause tval) := by
  refine hk.then (qs := [.ctxs]) ?_ hsub
  unfold Dev.takeTrap
  try dsimp only
  repeat' first
    | with_reducible exact Kept.refl _ _
    | decide
    | with_reducible apply Kept.modCtx
    | with_reducible refine Kept.of_fst_eq (by assumption) ?_
    | split
    | dsimp only

/-- What `trapFor` can change. -/
theorem Kept.trapFor {ps : List Part} {d0 d : Dev} {k pend : Nat} (hk : d0.Kept ps d) (hsub : ∀ p ∈ ([.ctxs] : List Part), p ∈ ps) :
    d0.Kept ps (Dev.trapFor d k pend) := by
  refine hk.then (qs := [.ctxs]) ?_ hsub
  unfold Dev.trapFor
  try dsimp only
  repeat' first
    | with_reducible exact Kept.refl _ _
    | decide
    | with_reducible apply Kept.ite
    | with_reducible apply Kept.takeTrap
    | with_reducible refine Kept.of_fst_eq (by assumption) ?_
    | split
    | dsimp only

/-- What `interruptTrap` can change. -/
theorem Kept.interruptTrap {ps : List Part} {d0 d : Dev} {k : Nat} (hk : d0.Kept ps d) (hsub : ∀ p ∈ ([.ctxs] : List Part), p ∈ ps) :
    d0.Kept ps (Dev.interruptTrap d k) := by
  refine hk.then (qs := [.ctxs]) ?_ hsub
  unfold Dev.interruptTrap
  try dsimp only
  repeat' first
    | with_reducible exact Kept.refl _ _
    | decide
    | with_reducible apply Kept.trapFor
    | with_reducible refine Kept.of_fst_eq (by assumption) ?_
    | split
    | dsimp only

/-- What `wake` can change. -/
theorem Kept.wake {ps : List Part} {d0 d : Dev} {k : Nat} (hk : d0.Kept ps d) (hsub : ∀ p ∈ ([.ctxs] : List Part), p ∈ ps) :
    d0.Kept ps (Dev.wake d k) := by
  refine hk.then (qs := [.ctxs]) ?_ hsub
  unfold Dev.wake
  try dsimp only
  repeat' first
    | with_reducible exact Kept.refl _ _
    | decide
    | with_reducible apply Kept.ite
    | with_reducible apply Kept.interruptTrap
    | with_reducible apply Kept.trapFor
    | with_reducible apply Kept.setX
    | with_reducible apply Kept.modCtx
    | with_reducible refine Kept.of_fst_eq (by assumption) ?_
    | split
    | dsimp only

/-- What `setEvents` can change. -/
theorem Kept.setEvents {ps : List Part} {d0 d : Dev} {k bits : Nat} (hk : d0.Kept ps d) (hsub : ∀ p ∈ ([.ctxs] : List Part), p ∈ ps) :
    d0.Kept ps (Dev.setEvents d k bits) := by
  refine hk.then (qs := [.ctxs]) ?_ hsub
  unfold Dev.setEvents
  try dsimp only
  repeat' first
    | with_reducible exact Kept.refl _ _
    | decide
    | with_reducible apply Kept.wake
    | with_reducible apply Kept.modCtx
    | with_reducible refine Kept.of_fst_eq (by assumption) ?_
    | split
    | dsimp only

/-- What `wakeFallback` can change. -/
theorem Kept.wakeFallback {ps : List Part} {d0 d : Dev} {r : Region} (hk : d0.Kept ps d) (hsub : ∀ p ∈ ([.ctxs] : List Part), p ∈ ps) :
    d0.Kept ps (Dev.wakeFallback d r) := by
  refine hk.then (qs := [.ctxs]) ?_ hsub
  unfold Dev.wakeFallback
  try dsimp only
  repeat' first
    | with_reducible exact Kept.refl _ _
    | decide
    | with_reducible apply Kept.ite
    | with_reducible apply Kept.wake
    | with_reducible refine Kept.of_fst_eq (by assumption) ?_
    | split
    | dsimp only

/-- What `deliver` can change. -/
theorem Kept.deliver {ps : List Part} {d0 d : Dev} {r : Region} {n : Nat} (hk : d0.Kept ps d) (hsub : ∀ p ∈ ([.regs, .wire, .ctxs] : List Part), p ∈ ps) :
    d0.Kept ps (Dev.deliver d r n) := by
  refine hk.then (qs := [.regs, .wire, .ctxs]) ?_ hsub
  unfold Dev.deliver
  try dsimp only
  repeat' first
    | with_reducible exact Kept.refl _ _
    | decide
    | with_reducible apply Kept.ite
    | with_reducible apply Kept.wake
    | with_reducible apply Kept.send
    | with_reducible apply Kept.clr
    | with_reducible refine Kept.of_fst_eq (by assumption) ?_
    | split
    | dsimp only

/-- What `monAdd` can change. -/
theorem Kept.monAdd {ps : List Part} {d0 d : Dev} {base n : Nat} (hk : d0.Kept ps d) (hsub : ∀ p ∈ ([.regs] : List Part), p ∈ ps) :
    d0.Kept ps (Dev.monAdd d base n).1 := by
  refine hk.then (qs := [.regs]) ?_ hsub
  unfold Dev.monAdd
  try dsimp only
  repeat' first
    | with_reducible exact Kept.refl _ _
    | decide
    | with_reducible apply Kept.ite
    | with_reducible apply Kept.ite_fst
    | with_reducible apply Kept.setPair
    | with_reducible refine Kept.of_fst_eq (by assumption) ?_
    | split
    | dsimp only

/-- What `monCount` can change. -/
theorem Kept.monCount {ps : List Part} {d0 d : Dev} {base n : Nat} (hk : d0.Kept ps d) (hsub : ∀ p ∈ ([.regs] : List Part), p ∈ ps) :
    d0.Kept ps (Dev.monCount d base n).1 := by
  refine hk.then (qs := [.regs]) ?_ hsub
  unfold Dev.monCount
  try dsimp only
  repeat' first
    | with_reducible exact Kept.refl _ _
    | decide
    | with_reducible apply Kept.ite
    | with_reducible apply Kept.ite_fst
    | with_reducible apply Kept.monAdd
    | with_reducible refine Kept.of_fst_eq (by assumption) ?_
    | split
    | dsimp only

/-- What `setHit` can change. -/
theorem Kept.setHit {ps : List Part} {d0 d : Dev} {addr k : Nat} (hk : d0.Kept ps d) (hsub : ∀ p ∈ ([.regs] : List Part), p ∈ ps) :
    d0.Kept ps (Dev.setHit d addr k) := by
  refine hk.then (qs := [.regs]) ?_ hsub
  unfold Dev.setHit
  try dsimp only
  repeat' first
    | with_reducible exact Kept.refl _ _
    | decide
    | with_reducible apply Kept.setReg
    | with_reducible refine Kept.of_fst_eq (by assumption) ?_
    | split
    | dsimp only

/-- What `monBank` can change. -/
theorem Kept.monBank {ps : List Part} {d0 d : Dev} {base count hitAddr : Nat} {region : Option Nat} {width sel qual n : Nat} {src : Signal} (hk : d0.Kept ps d) (hsub : ∀ p ∈ ([.regs] : List Part), p ∈ ps) :
    d0.Kept ps (Dev.monBank d base count hitAddr region width sel qual n src).1 := by
  refine hk.then (qs := [.regs]) ?_ hsub
  unfold Dev.monBank
  try dsimp only
  repeat' first
    | with_reducible exact Kept.refl _ _
    | decide
    | with_reducible apply Kept.ite
    | with_reducible apply Kept.ite_fst
    | with_reducible apply Kept.foldl
    | with_reducible apply Kept.foldl_fst
    | with_reducible apply Kept.setHit
    | with_reducible apply Kept.monCount
    | (intro _)
    | with_reducible refine Kept.of_fst_eq (by assumption) ?_
    | split
    | dsimp only

/-- What `monRegion` can change. -/
theorem Kept.monRegion {ps : List Part} {d0 d : Dev} {r : Region} {sel qual n : Nat} (hk : d0.Kept ps d) (hsub : ∀ p ∈ ([.regs] : List Part), p ∈ ps) :
    d0.Kept ps (Dev.monRegion d r sel qual n).1 := by
  refine hk.then (qs := [.regs]) ?_ hsub
  unfold Dev.monRegion
  try dsimp only
  repeat' first
    | with_reducible exact Kept.refl _ _
    | decide
    | with_reducible apply Kept.monBank
    | with_reducible refine Kept.of_fst_eq (by assumption) ?_
    | split
    | dsimp only

/-- What `arrive` can change. -/
theorem Kept.arrive {ps : List Part} {d0 d : Dev} {r : Region} {n : Nat} (hk : d0.Kept ps d) (hsub : ∀ p ∈ ([.regs, .wire, .ctxs] : List Part), p ∈ ps) :
    d0.Kept ps (Dev.arrive d r n).1 := by
  refine hk.then (qs := [.regs, .wire, .ctxs]) ?_ hsub
  unfold Dev.arrive
  try dsimp only
  repeat' first
    | with_reducible exact Kept.refl _ _
    | decide
    | with_reducible apply Kept.ite
    | with_reducible apply Kept.ite_fst
    | with_reducible apply Kept.deliver
    | with_reducible apply Kept.setOn
    | with_reducible apply Kept.addSat
    | with_reducible refine Kept.of_fst_eq (by assumption) ?_
    | split
    | dsimp only

/-- What one signal can change. -/
theorem Kept.signalOne {ps : List Part} {d0 d : Dev} {x : Signal} (hk : d0.Kept ps d) (hsub : ∀ p ∈ ([.regs, .wire, .ctxs] : List Part), p ∈ ps) :
    d0.Kept ps (d.signalOne x).1 := by
  refine hk.then (qs := [.regs, .wire, .ctxs]) ?_ hsub
  unfold Dev.signalOne
  split
  · exact (Kept.refl _ d).arrive (by decide)
  · dsimp only
    exact ((Kept.refl _ d).monBank (by decide)).monRegion (by decide)
  · exact (Kept.refl _ d).monRegion (by decide)
  · exact (Kept.refl _ d).monBank (by decide)

/-- What signals in turn can change. -/
theorem Kept.signals {ps : List Part} {d0 d : Dev} {n : Nat} {l : List Signal} (hk : d0.Kept ps d)
    (hsub : ∀ p ∈ ([.regs, .wire, .ctxs] : List Part), p ∈ ps) : d0.Kept ps (signals n d l) := by
  induction n generalizing d l with
  | zero => cases l <;> exact hk
  | succ n ih =>
    cases l with
    | nil => exact hk
    | cons x t => exact ih (hk.signalOne hsub)

/-- What `raise` can change. -/
theorem Kept.raise {ps : List Part} {d0 d : Dev} {r : Region} {n : Nat} (hk : d0.Kept ps d) (hsub : ∀ p ∈ ([.regs, .wire, .ctxs] : List Part), p ∈ ps) :
    d0.Kept ps (Dev.raise d r n) := by
  refine hk.then (qs := [.regs, .wire, .ctxs]) ?_ hsub
  unfold Dev.raise
  try dsimp only
  repeat' first
    | with_reducible exact Kept.refl _ _
    | decide
    | with_reducible apply Kept.signals
    | with_reducible apply Kept.arrive
    | with_reducible refine Kept.of_fst_eq (by assumption) ?_
    | split
    | dsimp only

/-- What `event` can change. -/
theorem Kept.event {ps : List Part} {d0 d : Dev} {r : Region} {sel qual : Nat} {n : Nat} (hk : d0.Kept ps d) (hsub : ∀ p ∈ ([.regs, .wire, .ctxs] : List Part), p ∈ ps) :
    d0.Kept ps (Dev.event d r sel qual n) := by
  refine hk.then (qs := [.regs, .wire, .ctxs]) ?_ hsub
  unfold Dev.event
  try dsimp only
  repeat' first
    | with_reducible exact Kept.refl _ _
    | decide
    | with_reducible apply Kept.signals
    | with_reducible refine Kept.of_fst_eq (by assumption) ?_
    | split
    | dsimp only

/-- What `bevent` can change. -/
theorem Kept.bevent {ps : List Part} {d0 d : Dev} {r : Region} {b sel qual : Nat} (hk : d0.Kept ps d) (hsub : ∀ p ∈ ([.regs, .wire, .ctxs] : List Part), p ∈ ps) :
    d0.Kept ps (Dev.bevent d r b sel qual) := by
  refine hk.then (qs := [.regs, .wire, .ctxs]) ?_ hsub
  unfold Dev.bevent
  try dsimp only
  repeat' first
    | with_reducible exact Kept.refl _ _
    | decide
    | with_reducible apply Kept.signals
    | with_reducible refine Kept.of_fst_eq (by assumption) ?_
    | split
    | dsimp only

/-- What `cevent` can change. -/
theorem Kept.cevent {ps : List Part} {d0 d : Dev} {sel qual : Nat} (hk : d0.Kept ps d) (hsub : ∀ p ∈ ([.regs, .wire, .ctxs] : List Part), p ∈ ps) :
    d0.Kept ps (Dev.cevent d sel qual) := by
  refine hk.then (qs := [.regs, .wire, .ctxs]) ?_ hsub
  unfold Dev.cevent
  try dsimp only
  repeat' first
    | with_reducible exact Kept.refl _ _
    | decide
    | with_reducible apply Kept.signals
    | with_reducible refine Kept.of_fst_eq (by assumption) ?_
    | split
    | dsimp only

/-- What `err` can change. -/
theorem Kept.err {ps : List Part} {d0 d : Dev} {f : Fld} {r : Region} {n : Nat} (hk : d0.Kept ps d) (hsub : ∀ p ∈ ([.regs, .wire, .ctxs] : List Part), p ∈ ps) :
    d0.Kept ps (Dev.err d f r n) := by
  refine hk.then (qs := [.regs, .wire, .ctxs]) ?_ hsub
  unfold Dev.err
  try dsimp only
  repeat' first
    | with_reducible exact Kept.refl _ _
    | decide
    | with_reducible apply Kept.raise
    | with_reducible apply Kept.setOn
    | with_reducible refine Kept.of_fst_eq (by assumption) ?_
    | split
    | dsimp only

/-- What `claim` can change. -/
theorem Kept.claim {ps : List Part} {d0 d : Dev} {r : Region} {target : Nat} (hk : d0.Kept ps d) (hsub : ∀ p ∈ ([.regs, .wire, .ctxs, .inbox] : List Part), p ∈ ps) :
    d0.Kept ps (Dev.claim d r target).1 := by
  refine hk.then (qs := [.regs, .wire, .ctxs, .inbox]) ?_ hsub
  unfold Dev.claim
  try dsimp only
  repeat' first
    | with_reducible exact Kept.refl _ _
    | decide
    | with_reducible apply Kept.ite
    | with_reducible apply Kept.ite_fst
    | with_reducible apply Kept.event
    | with_reducible apply Kept.setFld
    | with_reducible apply Kept.clr
    | with_reducible apply Kept.modR
    | (intro g p hp; cases p <;> first | trivial | rfl | exact absurd (by decide) hp)
    | with_reducible refine Kept.of_fst_eq (by assumption) ?_
    | split
    | dsimp only

end Sys2Proof.Machine.Dev
end

