-- ==== Sys2Proof/Laws/DeliveryKept.lean ====
section
/-!
SUPPORT. What each operation of Machine/Delivery.lean can change at most, and that it keeps the canonical forms.
-/

namespace Sys2Proof.Machine.Dev

/-- What `discarded` can change. -/
theorem Kept.discarded {ps : List Part} {d0 d : Dev} {r : Region} (hk : d0.Kept ps d) (hsub : ∀ p ∈ ([.regs, .wire, .ctxs] : List Part), p ∈ ps) :
    d0.Kept ps (Dev.discarded d r) := by
  refine hk.then (qs := [.regs, .wire, .ctxs]) ?_ hsub
  unfold Dev.discarded
  try dsimp only
  repeat' first
    | with_reducible exact Kept.refl _ _
    | decide
    | with_reducible apply Kept.err
    | with_reducible refine Kept.of_fst_eq (by assumption) ?_
    | split
    | dsimp only

/-- What `dropOnWay` can change. -/
theorem Kept.dropOnWay {ps : List Part} {d0 d : Dev} {f : Flight} (hk : d0.Kept ps d) (hsub : ∀ p ∈ ([.regs, .wire, .ctxs] : List Part), p ∈ ps) :
    d0.Kept ps (Dev.dropOnWay d f) := by
  refine hk.then (qs := [.regs, .wire, .ctxs]) ?_ hsub
  unfold Dev.dropOnWay
  try dsimp only
  repeat' first
    | with_reducible exact Kept.refl _ _
    | decide
    | with_reducible apply Kept.discarded
    | with_reducible apply Kept.send
    | with_reducible refine Kept.of_fst_eq (by assumption) ?_
    | split
    | dsimp only

end Sys2Proof.Machine.Dev
end

