-- ==== Sys2Proof/Laws/HostKept.lean ====
section
/-!
SUPPORT. What each operation of Machine/Host.lean can change at most, and that it keeps the canonical forms.
-/

namespace Sys2Proof.Machine.Dev

/-- What `modEp` can change. -/
theorem Kept.modEp {ps : List Part} {d0 d : Dev} {e : Endpoint} {f : EndpointState → EndpointState} (hk : d0.Kept ps d) (hsub : ∀ p ∈ ([.endpoints] : List Part), p ∈ ps) :
    d0.Kept ps (Dev.modEp d e f) := by
  refine hk.then (qs := [.endpoints]) ?_ hsub
  unfold Dev.modEp
  try dsimp only
  repeat' first
    | with_reducible exact Kept.refl _ _
    | decide
    | with_reducible apply Kept.set_endpoints
    | with_reducible refine Kept.of_fst_eq (by assumption) ?_
    | split
    | dsimp only

/-- What `msix` can change. -/
theorem Kept.msix {ps : List Part} {d0 d : Dev} {e : Endpoint} {v : Nat} (hk : d0.Kept ps d) (hsub : ∀ p ∈ ([.line, .endpoints] : List Part), p ∈ ps) :
    d0.Kept ps (Dev.msix d e v) := by
  refine hk.then (qs := [.line, .endpoints]) ?_ hsub
  unfold Dev.msix
  try dsimp only
  repeat' first
    | with_reducible exact Kept.refl _ _
    | decide
    | with_reducible apply Kept.ite
    | with_reducible apply Kept.modEp
    | with_reducible apply Kept.set_line
    | with_reducible refine Kept.of_fst_eq (by assumption) ?_
    | split
    | dsimp only

/-- What `msixWrite` can change. -/
theorem Kept.msixWrite {ps : List Part} {d0 d : Dev} {e : Endpoint} {k : Nat} {w : Word} (hk : d0.Kept ps d) (hsub : ∀ p ∈ ([.line, .endpoints] : List Part), p ∈ ps) :
    d0.Kept ps (Dev.msixWrite d e k w) := by
  refine hk.then (qs := [.line, .endpoints]) ?_ hsub
  unfold Dev.msixWrite
  try dsimp only
  repeat' first
    | with_reducible exact Kept.refl _ _
    | decide
    | with_reducible apply Kept.ite
    | with_reducible apply Kept.msix
    | with_reducible apply Kept.modEp
    | with_reducible refine Kept.of_fst_eq (by assumption) ?_
    | split
    | dsimp only

/-- What `eventWrite` can change. -/
theorem Kept.eventWrite {ps : List Part} {d0 d : Dev} {e : Endpoint} {ring : EventRing} {code region word tick : Nat} {detail : List Byte} (hk : d0.Kept ps d) (hsub : ∀ p ∈ ([.regs, .mem, .line, .endpoints] : List Part), p ∈ ps) :
    d0.Kept ps (Dev.eventWrite d e ring code region word tick detail) := by
  refine hk.then (qs := [.regs, .mem, .line, .endpoints]) ?_ hsub
  unfold Dev.eventWrite
  try dsimp only
  repeat' first
    | with_reducible exact Kept.refl _ _
    | decide
    | with_reducible apply Kept.ite
    | with_reducible apply Kept.msix
    | with_reducible apply Kept.modEp
    | with_reducible apply Kept.setBytes
    | with_reducible apply Kept.setFld
    | with_reducible refine Kept.of_fst_eq (by assumption) ?_
    | split
    | dsimp only

/-- What `eventLost` can change. -/
theorem Kept.eventLost {ps : List Part} {d0 d : Dev} {e : Endpoint} (hk : d0.Kept ps d) (hsub : ∀ p ∈ ([.regs, .endpoints] : List Part), p ∈ ps) :
    d0.Kept ps (Dev.eventLost d e) := by
  refine hk.then (qs := [.regs, .endpoints]) ?_ hsub
  unfold Dev.eventLost
  try dsimp only
  repeat' first
    | with_reducible exact Kept.refl _ _
    | decide
    | with_reducible apply Kept.modEp
    | with_reducible apply Kept.addSat
    | with_reducible refine Kept.of_fst_eq (by assumption) ?_
    | split
    | dsimp only

/-- What `postTo` can change. -/
theorem Kept.postTo {ps : List Part} {d0 d : Dev} {e : Endpoint} {code region word : Nat} {detail : List Byte} (hk : d0.Kept ps d) (hsub : ∀ p ∈ ([.regs, .mem, .line, .endpoints] : List Part), p ∈ ps) :
    d0.Kept ps (Dev.postTo d e code region word detail) := by
  refine hk.then (qs := [.regs, .mem, .line, .endpoints]) ?_ hsub
  unfold Dev.postTo
  try dsimp only
  repeat' first
    | with_reducible exact Kept.refl _ _
    | decide
    | with_reducible apply Kept.ite
    | with_reducible apply Kept.eventLost
    | with_reducible apply Kept.eventWrite
    | with_reducible apply Kept.modEp
    | with_reducible refine Kept.of_fst_eq (by assumption) ?_
    | split
    | dsimp only

/-- What `post` can change. -/
theorem Kept.post {ps : List Part} {d0 d : Dev} {code region word : Nat} {detail : List Byte} (hk : d0.Kept ps d) (hsub : ∀ p ∈ ([.regs, .mem, .line, .endpoints] : List Part), p ∈ ps) :
    d0.Kept ps (Dev.post d code region word detail) := by
  refine hk.then (qs := [.regs, .mem, .line, .endpoints]) ?_ hsub
  unfold Dev.post
  try dsimp only
  repeat' first
    | with_reducible exact Kept.refl _ _
    | decide
    | with_reducible apply Kept.postTo
    | with_reducible refine Kept.of_fst_eq (by assumption) ?_
    | split
    | dsimp only

end Sys2Proof.Machine.Dev
end

