-- ==== Sys2Proof/Laws/JournalKept.lean ====
section
/-!
SUPPORT. What each operation of Machine/Journal.lean can change at most, and that it keeps the canonical forms.
-/

namespace Sys2Proof.Machine.Dev

/-- What `modJnl` can change. -/
theorem Kept.modJnl {ps : List Part} {d0 d : Dev} {r : Region} {f : JournalState → JournalState} (hk : d0.Kept ps d) (hsub : ∀ p ∈ ([.journal] : List Part), p ∈ ps) :
    d0.Kept ps (Dev.modJnl d r f) := by
  refine hk.then (qs := [.journal]) ?_ hsub
  unfold Dev.modJnl
  try dsimp only
  repeat' first
    | with_reducible exact Kept.refl _ _
    | decide
    | with_reducible apply Kept.modR
    | (intro g p hp; cases p <;> first | trivial | rfl | exact absurd (by decide) hp)
    | with_reducible refine Kept.of_fst_eq (by assumption) ?_
    | split
    | dsimp only

/-- What `jnlWrite` can change. -/
theorem Kept.jnlWrite {ps : List Part} {d0 d : Dev} {r : Region} {code level origin unit : Nat} {detail : List Byte} (hk : d0.Kept ps d) (hsub : ∀ p ∈ ([.regs, .mem, .line, .endpoints, .journal] : List Part), p ∈ ps) :
    d0.Kept ps (Dev.jnlWrite d r code level origin unit detail) := by
  refine hk.then (qs := [.regs, .mem, .line, .endpoints, .journal]) ?_ hsub
  unfold Dev.jnlWrite
  try dsimp only
  repeat' first
    | with_reducible exact Kept.refl _ _
    | decide
    | with_reducible apply Kept.ite
    | with_reducible apply Kept.modJnl
    | with_reducible apply Kept.post
    | with_reducible apply Kept.setOn
    | with_reducible apply Kept.setBytes
    | with_reducible apply Kept.setFld
    | with_reducible refine Kept.of_fst_eq (by assumption) ?_
    | split
    | dsimp only

/-- What `journalAs` can change. -/
theorem Kept.journalAs {ps : List Part} {d0 d : Dev} {r : Region} {code level origin unit : Nat} {detail : List Byte} (hk : d0.Kept ps d) (hsub : ∀ p ∈ ([.regs, .mem, .line, .endpoints, .journal] : List Part), p ∈ ps) :
    d0.Kept ps (Dev.journalAs d r code level origin unit detail) := by
  refine hk.then (qs := [.regs, .mem, .line, .endpoints, .journal]) ?_ hsub
  unfold Dev.journalAs
  try dsimp only
  repeat' first
    | with_reducible exact Kept.refl _ _
    | decide
    | with_reducible apply Kept.ite
    | with_reducible apply Kept.jnlWrite
    | with_reducible apply Kept.modJnl
    | with_reducible apply Kept.addSat
    | with_reducible refine Kept.of_fst_eq (by assumption) ?_
    | split
    | dsimp only

/-- What `journal` can change. -/
theorem Kept.journal {ps : List Part} {d0 d : Dev} {r : Region} {code unit : Nat} {detail : List Byte} (hk : d0.Kept ps d) (hsub : ∀ p ∈ ([.regs, .mem, .line, .endpoints, .journal] : List Part), p ∈ ps) :
    d0.Kept ps (Dev.journal d r code unit detail) := by
  refine hk.then (qs := [.regs, .mem, .line, .endpoints, .journal]) ?_ hsub
  unfold Dev.journal
  try dsimp only
  repeat' first
    | with_reducible exact Kept.refl _ _
    | decide
    | with_reducible apply Kept.journalAs
    | with_reducible refine Kept.of_fst_eq (by assumption) ?_
    | split
    | dsimp only

/-- What `journalBlock` can change. -/
theorem Kept.journalBlock {ps : List Part} {d0 d : Dev} {r : Region} {b code : Nat} {detail : List Byte} (hk : d0.Kept ps d) (hsub : ∀ p ∈ ([.regs, .mem, .line, .endpoints, .journal] : List Part), p ∈ ps) :
    d0.Kept ps (Dev.journalBlock d r b code detail) := by
  refine hk.then (qs := [.regs, .mem, .line, .endpoints, .journal]) ?_ hsub
  unfold Dev.journalBlock
  try dsimp only
  repeat' first
    | with_reducible exact Kept.refl _ _
    | decide
    | with_reducible apply Kept.journalAs
    | with_reducible refine Kept.of_fst_eq (by assumption) ?_
    | split
    | dsimp only

/-- What `journalChip` can change. -/
theorem Kept.journalChip {ps : List Part} {d0 d : Dev} {code origin unit : Nat} {detail : List Byte} (hk : d0.Kept ps d) (hsub : ∀ p ∈ ([.regs, .mem, .line, .endpoints, .journal] : List Part), p ∈ ps) :
    d0.Kept ps (Dev.journalChip d code origin unit detail) := by
  refine hk.then (qs := [.regs, .mem, .line, .endpoints, .journal]) ?_ hsub
  unfold Dev.journalChip
  try dsimp only
  repeat' first
    | with_reducible exact Kept.refl _ _
    | decide
    | with_reducible apply Kept.journalAs
    | with_reducible refine Kept.of_fst_eq (by assumption) ?_
    | split
    | dsimp only

/-- What `journalRegion` can change. -/
theorem Kept.journalRegion {ps : List Part} {d0 d : Dev} {r : Region} {code : Nat} {detail : List Byte} (hk : d0.Kept ps d) (hsub : ∀ p ∈ ([.regs, .mem, .line, .endpoints, .journal] : List Part), p ∈ ps) :
    d0.Kept ps (Dev.journalRegion d r code detail) := by
  refine hk.then (qs := [.regs, .mem, .line, .endpoints, .journal]) ?_ hsub
  unfold Dev.journalRegion
  try dsimp only
  repeat' first
    | with_reducible exact Kept.refl _ _
    | decide
    | with_reducible apply Kept.journal
    | with_reducible refine Kept.of_fst_eq (by assumption) ?_
    | split
    | dsimp only

end Sys2Proof.Machine.Dev
end

