-- ==== Sys2Proof/Laws/PoolsKept.lean ====
section
/-!
SUPPORT. What each operation of Machine/Pools.lean can change at most, and that it keeps the canonical forms.
-/

namespace Sys2Proof.Machine.Dev

/-- What `modPool` can change. -/
theorem Kept.modPool {ps : List Part} {d0 d : Dev} {r : Region} {f : PoolState → PoolState} (hk : d0.Kept ps d) (hsub : ∀ p ∈ ([.pool] : List Part), p ∈ ps) :
    d0.Kept ps (Dev.modPool d r f) := by
  refine hk.then (qs := [.pool]) ?_ hsub
  unfold Dev.modPool
  try dsimp only
  repeat' first
    | with_reducible exact Kept.refl _ _
    | decide
    | with_reducible apply Kept.modR
    | (intro g p hp; cases p <;> first | trivial | rfl | exact absurd (by decide) hp)
    | with_reducible refine Kept.of_fst_eq (by assumption) ?_
    | split
    | dsimp only

/-- What `setDesc` can change. -/
theorem Kept.setDesc {ps : List Part} {d0 d : Dev} {h : Nat} {e : StitchDesc} (hk : d0.Kept ps d) (hsub : ∀ p ∈ ([.pool] : List Part), p ∈ ps) :
    d0.Kept ps (Dev.setDesc d h e) := by
  refine hk.then (qs := [.pool]) ?_ hsub
  unfold Dev.setDesc
  try dsimp only
  repeat' first
    | with_reducible exact Kept.refl _ _
    | decide
    | with_reducible apply Kept.modPool
    | with_reducible refine Kept.of_fst_eq (by assumption) ?_
    | split
    | dsimp only

/-- What `popList` can change. -/
theorem Kept.popList {ps : List Part} {d0 d : Dev} {r : Region} {pool k : Nat} (hk : d0.Kept ps d) (hsub : ∀ p ∈ ([.pool] : List Part), p ∈ ps) :
    d0.Kept ps (Dev.popList d r pool k) := by
  refine hk.then (qs := [.pool]) ?_ hsub
  unfold Dev.popList
  try dsimp only
  repeat' first
    | with_reducible exact Kept.refl _ _
    | decide
    | with_reducible apply Kept.modPool
    | with_reducible refine Kept.of_fst_eq (by assumption) ?_
    | split
    | dsimp only

/-- What `pushList` can change. -/
theorem Kept.pushList {ps : List Part} {d0 d : Dev} {r : Region} {pool i : Nat} (hk : d0.Kept ps d) (hsub : ∀ p ∈ ([.mem, .pool] : List Part), p ∈ ps) :
    d0.Kept ps (Dev.pushList d r pool i) := by
  refine hk.then (qs := [.mem, .pool]) ?_ hsub
  unfold Dev.pushList
  try dsimp only
  repeat' first
    | with_reducible exact Kept.refl _ _
    | decide
    | with_reducible apply Kept.modPool
    | with_reducible apply Kept.setLE
    | with_reducible refine Kept.of_fst_eq (by assumption) ?_
    | split
    | dsimp only

/-- What `setCache` can change. -/
theorem Kept.setCache {ps : List Part} {d0 d : Dev} {r : Region} {l pool : Nat} {c : List Nat} (hk : d0.Kept ps d) (hsub : ∀ p ∈ ([.regs, .pool] : List Part), p ∈ ps) :
    d0.Kept ps (Dev.setCache d r l pool c) := by
  refine hk.then (qs := [.regs, .pool]) ?_ hsub
  unfold Dev.setCache
  try dsimp only
  repeat' first
    | with_reducible exact Kept.refl _ _
    | decide
    | with_reducible apply Kept.modPool
    | with_reducible apply Kept.setFld
    | with_reducible refine Kept.of_fst_eq (by assumption) ?_
    | split
    | dsimp only

/-- What `refillOne` can change. -/
theorem Kept.refillOne {ps : List Part} {d0 d : Dev} {r : Region} {l pool start : Nat} (hk : d0.Kept ps d) (hsub : ∀ p ∈ ([.regs, .pool] : List Part), p ∈ ps) :
    d0.Kept ps (Dev.refillOne d r l pool start) := by
  refine hk.then (qs := [.regs, .pool]) ?_ hsub
  unfold Dev.refillOne
  try dsimp only
  repeat' first
    | with_reducible exact Kept.refl _ _
    | decide
    | with_reducible apply Kept.ite
    | with_reducible apply Kept.setCache
    | with_reducible apply Kept.popList
    | with_reducible refine Kept.of_fst_eq (by assumption) ?_
    | split
    | dsimp only

/-- What `refill` can change. -/
theorem Kept.refill {ps : List Part} {d0 d : Dev} {r : Region} {l pool n : Nat} (hk : d0.Kept ps d) (hsub : ∀ p ∈ ([.regs, .pool] : List Part), p ∈ ps) :
    d0.Kept ps (Dev.refill d r l pool n) := by
  refine hk.then (qs := [.regs, .pool]) ?_ hsub
  unfold Dev.refill
  try dsimp only
  repeat' first
    | with_reducible exact Kept.refl _ _
    | decide
    | with_reducible apply Kept.foldl
    | with_reducible apply Kept.foldl_fst
    | with_reducible apply Kept.refillOne
    | (intro _)
    | with_reducible refine Kept.of_fst_eq (by assumption) ?_
    | split
    | dsimp only

/-- What `setPoolFree` can change. -/
theorem Kept.setPoolFree {ps : List Part} {d0 d : Dev} {r : Region} {pool n : Nat} (hk : d0.Kept ps d) (hsub : ∀ p ∈ ([.regs, .wire, .ctxs] : List Part), p ∈ ps) :
    d0.Kept ps (Dev.setPoolFree d r pool n) := by
  refine hk.then (qs := [.regs, .wire, .ctxs]) ?_ hsub
  unfold Dev.setPoolFree
  try dsimp only
  repeat' first
    | with_reducible exact Kept.refl _ _
    | decide
    | with_reducible apply Kept.ite
    | with_reducible apply Kept.raise
    | with_reducible apply Kept.setFld
    | with_reducible refine Kept.of_fst_eq (by assumption) ?_
    | split
    | dsimp only

/-- What `linkChain` can change. -/
theorem Kept.linkChain {ps : List Part} {d0 d : Dev} {r : Region} {l cls : Nat} {pools : List (Nat × Nat)} {sizes : List Nat}
    (hk : d0.Kept ps d) (hsub : ∀ p ∈ ([.pool] : List Part), p ∈ ps) : d0.Kept ps (Dev.linkChain d r l cls pools sizes) := by
  induction pools generalizing d sizes with
  | nil => unfold Dev.linkChain; exact hk
  | cons a t ih =>
    obtain ⟨pool, i⟩ := a
    cases sizes with
    | nil => unfold Dev.linkChain; exact hk
    | cons n ns =>
      unfold Dev.linkChain
      dsimp only
      exact ih (hk.setDesc hsub)

/-- What `takeStitches` can change. -/
theorem Kept.takeStitches {ps : List Part} {d0 d : Dev} {r : Region} {l pool n : Nat} {d' : Dev} {y} (heq : Dev.takeStitches d r l pool n = some (d', y)) (hk : d0.Kept ps d) (hsub : ∀ p ∈ ([.regs, .wire, .ctxs, .pool] : List Part), p ∈ ps) :
    d0.Kept ps d' := by
  refine hk.then (qs := [.regs, .wire, .ctxs, .pool]) ?_ hsub
  unfold Dev.takeStitches at heq
  try dsimp only at heq
  repeat' split at heq
  all_goals first | (cases heq; done) | cases heq
  all_goals try dsimp only
  all_goals repeat' first
    | with_reducible exact Kept.refl _ _
    | decide
    | with_reducible apply Kept.ite
    | with_reducible apply Kept.ite_fst
    | with_reducible apply Kept.setPoolFree
    | with_reducible apply Kept.refill
    | with_reducible apply Kept.setCache
    | with_reducible refine Kept.of_fst_eq (by assumption) ?_
    | split
    | dsimp only

/-- What `charge` can change. -/
theorem Kept.charge {ps : List Part} {d0 d : Dev} {r : Region} {l : Nat} {f : Nat → Nat} (hk : d0.Kept ps d) (hsub : ∀ p ∈ ([.regs] : List Part), p ∈ ps) :
    d0.Kept ps (Dev.charge d r l f) := by
  refine hk.then (qs := [.regs]) ?_ hsub
  unfold Dev.charge
  try dsimp only
  repeat' first
    | with_reducible exact Kept.refl _ _
    | decide
    | with_reducible apply Kept.ite
    | with_reducible apply Kept.setFld
    | with_reducible refine Kept.of_fst_eq (by assumption) ?_
    | split
    | dsimp only

/-- What `alloc` can change. -/
theorem Kept.alloc {ps : List Part} {d0 d : Dev} {r : Region} {l pool cls : Nat} {sizes : List Nat} (hk : d0.Kept ps d) (hsub : ∀ p ∈ ([.regs, .wire, .ctxs, .pool] : List Part), p ∈ ps) :
    d0.Kept ps (Dev.alloc d r l pool cls sizes).1 := by
  refine hk.then (qs := [.regs, .wire, .ctxs, .pool]) ?_ hsub
  unfold Dev.alloc
  try dsimp only
  repeat' first
    | with_reducible exact Kept.refl _ _
    | decide
    | with_reducible apply Kept.ite
    | with_reducible apply Kept.ite_fst
    | with_reducible apply Kept.charge
    | with_reducible refine Kept.takeStitches (by assumption) ?_ ?_
    | with_reducible apply Kept.linkChain
    | with_reducible apply Kept.event
    | with_reducible refine Kept.of_fst_eq (by assumption) ?_
    | split
    | dsimp only

/-- What `abuse` can change. -/
theorem Kept.abuse {ps : List Part} {d0 d : Dev} {r : Region} {kind requester handle : Nat} (hk : d0.Kept ps d) (hsub : ∀ p ∈ ([.regs, .mem, .wire, .line, .ctxs, .endpoints, .journal] : List Part), p ∈ ps) :
    d0.Kept ps (Dev.abuse d r kind requester handle) := by
  refine hk.then (qs := [.regs, .mem, .wire, .line, .ctxs, .endpoints, .journal]) ?_ hsub
  unfold Dev.abuse
  try dsimp only
  repeat' first
    | with_reducible exact Kept.refl _ _
    | decide
    | with_reducible apply Kept.journalRegion
    | with_reducible apply Kept.event
    | with_reducible apply Kept.raise
    | with_reducible apply Kept.setOn
    | with_reducible apply Kept.addSat
    | with_reducible apply Kept.setReg
    | with_reducible refine Kept.of_fst_eq (by assumption) ?_
    | split
    | dsimp only

/-- What `modEgress` can change. -/
theorem Kept.modEgress {ps : List Part} {d0 d : Dev} {r : Region} {f : EgressState → EgressState} (hk : d0.Kept ps d) (hsub : ∀ p ∈ ([.egress] : List Part), p ∈ ps) :
    d0.Kept ps (Dev.modEgress d r f) := by
  refine hk.then (qs := [.egress]) ?_ hsub
  unfold Dev.modEgress
  try dsimp only
  repeat' first
    | with_reducible exact Kept.refl _ _
    | decide
    | with_reducible apply Kept.modR
    | (intro g p hp; cases p <;> first | trivial | rfl | exact absurd (by decide) hp)
    | with_reducible refine Kept.of_fst_eq (by assumption) ?_
    | split
    | dsimp only

/-- What `setPause` can change. -/
theorem Kept.setPause {ps : List Part} {d0 d : Dev} {r : Region} {p cls : Nat} {s : PauseState} (hk : d0.Kept ps d) (hsub : ∀ p ∈ ([.egress] : List Part), p ∈ ps) :
    d0.Kept ps (Dev.setPause d r p cls s) := by
  refine hk.then (qs := [.egress]) ?_ hsub
  unfold Dev.setPause
  try dsimp only
  repeat' first
    | with_reducible exact Kept.refl _ _
    | decide
    | with_reducible apply Kept.modEgress
    | with_reducible refine Kept.of_fst_eq (by assumption) ?_
    | split
    | dsimp only

/-- What `emit` can change. -/
theorem Kept.emit {ps : List Part} {d0 d : Dev} {o : LineOut} (hk : d0.Kept ps d) (hsub : ∀ p ∈ ([.line] : List Part), p ∈ ps) :
    d0.Kept ps (Dev.emit d o) := by
  refine hk.then (qs := [.line]) ?_ hsub
  unfold Dev.emit
  try dsimp only
  repeat' first
    | with_reducible exact Kept.refl _ _
    | decide
    | with_reducible apply Kept.set_line
    | with_reducible refine Kept.of_fst_eq (by assumption) ?_
    | split
    | dsimp only

/-- What `pfcCheck` can change. -/
theorem Kept.pfcCheck {ps : List Part} {d0 d : Dev} {r : Region} {p cls : Nat} (hk : d0.Kept ps d) (hsub : ∀ p ∈ ([.regs, .line, .egress] : List Part), p ∈ ps) :
    d0.Kept ps (Dev.pfcCheck d r p cls) := by
  refine hk.then (qs := [.regs, .line, .egress]) ?_ hsub
  unfold Dev.pfcCheck
  try dsimp only
  repeat' first
    | with_reducible exact Kept.refl _ _
    | decide
    | with_reducible apply Kept.ite
    | with_reducible apply Kept.emit
    | with_reducible apply Kept.setPause
    | with_reducible apply Kept.setFld
    | with_reducible refine Kept.of_fst_eq (by assumption) ?_
    | split
    | dsimp only

/-- What `withdrawOne` can change. -/
theorem Kept.withdrawOne {ps : List Part} {d0 d : Dev} {r : Region} {h : Nat} (hk : d0.Kept ps d) (hsub : ∀ p ∈ ([.regs, .wire, .ctxs, .pool] : List Part), p ∈ ps) :
    d0.Kept ps (Dev.withdrawOne d r h) := by
  refine hk.then (qs := [.regs, .wire, .ctxs, .pool]) ?_ hsub
  unfold Dev.withdrawOne
  try dsimp only
  repeat' first
    | with_reducible exact Kept.refl _ _
    | decide
    | with_reducible apply Kept.ite
    | with_reducible apply Kept.each
    | with_reducible apply Kept.setPoolFree
    | with_reducible apply Kept.modPool
    | with_reducible apply Kept.addSat
    | with_reducible apply Kept.setFld
    | (intro _)
    | with_reducible refine Kept.of_fst_eq (by assumption) ?_
    | split
    | dsimp only

/-- What `withdrawLine` can change. -/
theorem Kept.withdrawLine {ps : List Part} {d0 d : Dev} {h : Nat} (hk : d0.Kept ps d) (hsub : ∀ p ∈ ([.regs, .mem, .wire, .line, .ctxs, .endpoints, .pool, .journal] : List Part), p ∈ ps) :
    d0.Kept ps (Dev.withdrawLine d h) := by
  refine hk.then (qs := [.regs, .mem, .wire, .line, .ctxs, .endpoints, .pool, .journal]) ?_ hsub
  unfold Dev.withdrawLine
  try dsimp only
  repeat' first
    | with_reducible exact Kept.refl _ _
    | decide
    | with_reducible apply Kept.ite
    | with_reducible apply Kept.each
    | with_reducible apply Kept.withdrawOne
    | with_reducible apply Kept.journalRegion
    | with_reducible apply Kept.err
    | (intro _)
    | with_reducible refine Kept.of_fst_eq (by assumption) ?_
    | split
    | dsimp only

/-- What `readDesc` can change. -/
theorem Kept.readDesc {ps : List Part} {d0 d : Dev} {h : Nat} {found : Bool} (hk : d0.Kept ps d) (hsub : ∀ p ∈ ([.regs, .mem, .wire, .line, .ctxs, .endpoints, .pool, .journal] : List Part), p ∈ ps) :
    d0.Kept ps (Dev.readDesc d h found) := by
  refine hk.then (qs := [.regs, .mem, .wire, .line, .ctxs, .endpoints, .pool, .journal]) ?_ hsub
  unfold Dev.readDesc
  try dsimp only
  repeat' first
    | with_reducible exact Kept.refl _ _
    | decide
    | with_reducible apply Kept.ite
    | with_reducible apply Kept.when
    | with_reducible apply Kept.withdrawLine
    | (intro _)
    | with_reducible refine Kept.of_fst_eq (by assumption) ?_
    | split
    | dsimp only

/-- What `freeWalk` can change. -/
theorem Kept.freeWalk {ps : List Part} {d0 d : Dev} {r : Region} {issuer : Nat} {x1 : List Nat} (hk : d0.Kept ps d) (hsub : ∀ p ∈ ([.regs, .mem, .wire, .line, .ctxs, .endpoints, .pool, .egress, .journal] : List Part), p ∈ ps) :
    d0.Kept ps (Dev.freeWalk d r issuer x1).1 := by
  refine hk.then (qs := [.regs, .mem, .wire, .line, .ctxs, .endpoints, .pool, .egress, .journal]) ?_ hsub
  clear hk
  induction x1 generalizing d r issuer with
  | nil =>
    unfold Dev.freeWalk
    try dsimp only
    repeat' first
      | with_reducible exact Kept.refl _ _
      | decide
      | with_reducible apply Kept.ite
      | with_reducible apply Kept.ite_fst
      | with_reducible apply Kept.pfcCheck
      | with_reducible apply Kept.abuse
      | with_reducible apply Kept.charge
      | with_reducible apply Kept.setPoolFree
      | with_reducible apply Kept.pushList
      | with_reducible apply Kept.setDesc
      | with_reducible apply Kept.event
      | with_reducible apply Kept.addSat
      | with_reducible refine Kept.of_fst_eq (by assumption) ?_
      | split
      | dsimp only
  | cons a t ih =>
    replace ih : ∀ {d1 d : Dev} {r : Region} {issuer : Nat}, d1.Kept [.regs, .mem, .wire, .line, .ctxs, .endpoints, .pool, .egress, .journal] d → d1.Kept [.regs, .mem, .wire, .line, .ctxs, .endpoints, .pool, .egress, .journal] (Dev.freeWalk d r issuer t).1 :=
      fun h => h.then ih (fun _ => id)
    unfold Dev.freeWalk
    try dsimp only
    repeat' first
      | with_reducible exact Kept.refl _ _
      | decide
      | with_reducible apply Kept.ite
      | with_reducible apply Kept.ite_fst
      | with_reducible apply ih
      | with_reducible apply Kept.pfcCheck
      | with_reducible apply Kept.abuse
      | with_reducible apply Kept.charge
      | with_reducible apply Kept.setPoolFree
      | with_reducible apply Kept.pushList
      | with_reducible apply Kept.setDesc
      | with_reducible apply Kept.event
      | with_reducible apply Kept.addSat
      | with_reducible refine Kept.of_fst_eq (by assumption) ?_
      | split
      | dsimp only

/-- What `freeChain` can change. -/
theorem Kept.freeChain {ps : List Part} {d0 d : Dev} {r : Region} {issuer h : Nat} (hk : d0.Kept ps d) (hsub : ∀ p ∈ ([.regs, .mem, .wire, .line, .ctxs, .endpoints, .pool, .egress, .journal] : List Part), p ∈ ps) :
    d0.Kept ps (Dev.freeChain d r issuer h).1 := by
  refine hk.then (qs := [.regs, .mem, .wire, .line, .ctxs, .endpoints, .pool, .egress, .journal]) ?_ hsub
  unfold Dev.freeChain
  try dsimp only
  repeat' first
    | with_reducible exact Kept.refl _ _
    | decide
    | with_reducible apply Kept.freeWalk
    | with_reducible refine Kept.of_fst_eq (by assumption) ?_
    | split
    | dsimp only

/-- What `derefOne` can change. -/
theorem Kept.derefOne {ps : List Part} {d0 d : Dev} {issuer h : Nat} (hk : d0.Kept ps d) (hsub : ∀ p ∈ ([.regs, .mem, .wire, .line, .ctxs, .endpoints, .pool, .egress, .journal] : List Part), p ∈ ps) :
    d0.Kept ps (Dev.derefOne d issuer h).1 := by
  refine hk.then (qs := [.regs, .mem, .wire, .line, .ctxs, .endpoints, .pool, .egress, .journal]) ?_ hsub
  unfold Dev.derefOne
  try dsimp only
  repeat' first
    | with_reducible exact Kept.refl _ _
    | decide
    | with_reducible apply Kept.ite
    | with_reducible apply Kept.ite_fst
    | with_reducible apply Kept.freeChain
    | with_reducible apply Kept.abuse
    | with_reducible apply Kept.setDesc
    | with_reducible refine Kept.of_fst_eq (by assumption) ?_
    | split
    | dsimp only

/-- What `derefs` can change. -/
theorem Kept.derefs {ps : List Part} {d0 d : Dev} {n issuer h : Nat} (hk : d0.Kept ps d)
    (hsub : ∀ p ∈ ([.regs, .mem, .wire, .line, .ctxs, .endpoints, .pool, .egress, .journal] : List Part), p ∈ ps) :
    d0.Kept ps (Dev.derefs n d issuer h) := by
  induction n generalizing d issuer h with
  | zero => exact hk
  | succ n ih =>
    unfold Dev.derefs
    split
    · rename_i d' shared heq
      exact ih (Kept.of_fst_eq heq (hk.derefOne hsub))
    · rename_i d' heq
      exact Kept.of_fst_eq heq (hk.derefOne hsub)

/-- What `deref` can change. -/
theorem Kept.deref {ps : List Part} {d0 d : Dev} {issuer h : Nat} (hk : d0.Kept ps d) (hsub : ∀ p ∈ ([.regs, .mem, .wire, .line, .ctxs, .endpoints, .pool, .egress, .journal] : List Part), p ∈ ps) :
    d0.Kept ps (Dev.deref d issuer h) := by
  refine hk.then (qs := [.regs, .mem, .wire, .line, .ctxs, .endpoints, .pool, .egress, .journal]) ?_ hsub
  unfold Dev.deref
  try dsimp only
  repeat' first
    | with_reducible exact Kept.refl _ _
    | decide
    | with_reducible apply Kept.derefs
    | with_reducible refine Kept.of_fst_eq (by assumption) ?_
    | split
    | dsimp only

/-- What `free'` can change. -/
theorem Kept.free' {ps : List Part} {d0 d : Dev} {issuer h : Nat} (hk : d0.Kept ps d) (hsub : ∀ p ∈ ([.regs, .mem, .wire, .line, .ctxs, .endpoints, .pool, .egress, .journal] : List Part), p ∈ ps) :
    d0.Kept ps (Dev.free' d issuer h) := by
  refine hk.then (qs := [.regs, .mem, .wire, .line, .ctxs, .endpoints, .pool, .egress, .journal]) ?_ hsub
  unfold Dev.free'
  try dsimp only
  repeat' first
    | with_reducible exact Kept.refl _ _
    | decide
    | with_reducible apply Kept.ite
    | with_reducible apply Kept.deref
    | with_reducible apply Kept.freeChain
    | with_reducible apply Kept.abuse
    | with_reducible apply Kept.setDesc
    | with_reducible refine Kept.of_fst_eq (by assumption) ?_
    | split
    | dsimp only

/-- What `handover` can change. -/
theorem Kept.handover {ps : List Part} {d0 d : Dev} {issuer h dest : Nat} (hk : d0.Kept ps d) (hsub : ∀ p ∈ ([.regs, .mem, .wire, .line, .ctxs, .endpoints, .pool, .journal] : List Part), p ∈ ps) :
    d0.Kept ps (Dev.handover d issuer h dest) := by
  refine hk.then (qs := [.regs, .mem, .wire, .line, .ctxs, .endpoints, .pool, .journal]) ?_ hsub
  unfold Dev.handover
  try dsimp only
  repeat' first
    | with_reducible exact Kept.refl _ _
    | decide
    | with_reducible apply Kept.ite
    | with_reducible apply Kept.abuse
    | with_reducible apply Kept.setDesc
    | with_reducible refine Kept.of_fst_eq (by assumption) ?_
    | split
    | dsimp only

/-- What `addref` can change. -/
theorem Kept.addref {ps : List Part} {d0 d : Dev} {issuer h : Nat} (hk : d0.Kept ps d) (hsub : ∀ p ∈ ([.regs, .mem, .wire, .line, .ctxs, .endpoints, .pool, .journal] : List Part), p ∈ ps) :
    d0.Kept ps (Dev.addref d issuer h) := by
  refine hk.then (qs := [.regs, .mem, .wire, .line, .ctxs, .endpoints, .pool, .journal]) ?_ hsub
  unfold Dev.addref
  try dsimp only
  repeat' first
    | with_reducible exact Kept.refl _ _
    | decide
    | with_reducible apply Kept.ite
    | with_reducible apply Kept.abuse
    | with_reducible apply Kept.setDesc
    | with_reducible refine Kept.of_fst_eq (by assumption) ?_
    | split
    | dsimp only

/-- What `freePkt` can change. -/
theorem Kept.freePkt {ps : List Part} {d0 d : Dev} {r : Region} {h : Nat} (hk : d0.Kept ps d) (hsub : ∀ p ∈ ([.regs, .mem, .wire, .line, .ctxs, .endpoints, .pool, .egress, .journal] : List Part), p ∈ ps) :
    d0.Kept ps (Dev.freePkt d r h) := by
  refine hk.then (qs := [.regs, .mem, .wire, .line, .ctxs, .endpoints, .pool, .egress, .journal]) ?_ hsub
  unfold Dev.freePkt
  try dsimp only
  repeat' first
    | with_reducible exact Kept.refl _ _
    | decide
    | with_reducible apply Kept.free'
    | with_reducible refine Kept.of_fst_eq (by assumption) ?_
    | split
    | dsimp only

/-- What `pfcCheckAll` can change. -/
theorem Kept.pfcCheckAll {ps : List Part} {d0 d : Dev} {r : Region} (hk : d0.Kept ps d) (hsub : ∀ p ∈ ([.regs, .line, .egress] : List Part), p ∈ ps) :
    d0.Kept ps (Dev.pfcCheckAll d r) := by
  refine hk.then (qs := [.regs, .line, .egress]) ?_ hsub
  unfold Dev.pfcCheckAll
  try dsimp only
  repeat' first
    | with_reducible exact Kept.refl _ _
    | decide
    | with_reducible apply Kept.foldl
    | with_reducible apply Kept.foldl_fst
    | with_reducible apply Kept.pfcCheck
    | (intro _)
    | with_reducible refine Kept.of_fst_eq (by assumption) ?_
    | split
    | dsimp only

end Sys2Proof.Machine.Dev
end

