-- ==== Sys2Proof/Laws/TablesKept.lean ====
section
/-!
SUPPORT. What each operation of Machine/Tables.lean can change at most, and that it keeps the canonical forms.
-/

namespace Sys2Proof.Machine.Dev

/-- What `modTables` can change. -/
theorem Kept.modTables {ps : List Part} {d0 d : Dev} {r : Region} {f : TableState → TableState} (hk : d0.Kept ps d) (hsub : ∀ p ∈ ([.tables] : List Part), p ∈ ps) :
    d0.Kept ps (Dev.modTables d r f) := by
  refine hk.then (qs := [.tables]) ?_ hsub
  unfold Dev.modTables
  try dsimp only
  repeat' first
    | with_reducible exact Kept.refl _ _
    | decide
    | with_reducible apply Kept.modR
    | (intro g p hp; cases p <;> first | trivial | rfl | exact absurd (by decide) hp)
    | with_reducible refine Kept.of_fst_eq (by assumption) ?_
    | split
    | dsimp only

/-- What `modCommit` can change. -/
theorem Kept.modCommit {ps : List Part} {d0 d : Dev} {r : Region} {f : CommitState → CommitState} (hk : d0.Kept ps d) (hsub : ∀ p ∈ ([.commit] : List Part), p ∈ ps) :
    d0.Kept ps (Dev.modCommit d r f) := by
  refine hk.then (qs := [.commit]) ?_ hsub
  unfold Dev.modCommit
  try dsimp only
  repeat' first
    | with_reducible exact Kept.refl _ _
    | decide
    | with_reducible apply Kept.modR
    | (intro g p hp; cases p <;> first | trivial | rfl | exact absurd (by decide) hp)
    | with_reducible refine Kept.of_fst_eq (by assumption) ?_
    | split
    | dsimp only

/-- What `setMeter` can change. -/
theorem Kept.setMeter {ps : List Part} {d0 d : Dev} {a : Nat} {m : Meter} (hk : d0.Kept ps d) (hsub : ∀ p ∈ ([.mem] : List Part), p ∈ ps) :
    d0.Kept ps (Dev.setMeter d a m) := by
  refine hk.then (qs := [.mem]) ?_ hsub
  unfold Dev.setMeter
  try dsimp only
  repeat' first
    | with_reducible exact Kept.refl _ _
    | decide
    | with_reducible apply Kept.setLE
    | with_reducible refine Kept.of_fst_eq (by assumption) ?_
    | split
    | dsimp only

/-- What `countBad` can change. -/
theorem Kept.countBad {ps : List Part} {d0 d : Dev} {r : Region} (hk : d0.Kept ps d) (hsub : ∀ p ∈ ([.regs] : List Part), p ∈ ps) :
    d0.Kept ps (Dev.countBad d r) := by
  refine hk.then (qs := [.regs]) ?_ hsub
  unfold Dev.countBad
  try dsimp only
  repeat' first
    | with_reducible exact Kept.refl _ _
    | decide
    | with_reducible apply Kept.setFld
    | with_reducible refine Kept.of_fst_eq (by assumption) ?_
    | split
    | dsimp only

/-- What `markBad` can change. -/
theorem Kept.markBad {ps : List Part} {d0 d : Dev} {r : Region} {table line : Nat} (hk : d0.Kept ps d) (hsub : ∀ p ∈ ([.regs, .wire, .ctxs, .tables] : List Part), p ∈ ps) :
    d0.Kept ps (Dev.markBad d r table line) := by
  refine hk.then (qs := [.regs, .wire, .ctxs, .tables]) ?_ hsub
  unfold Dev.markBad
  try dsimp only
  repeat' first
    | with_reducible exact Kept.refl _ _
    | decide
    | with_reducible apply Kept.ite
    | with_reducible apply Kept.countBad
    | with_reducible apply Kept.modTables
    | with_reducible apply Kept.err
    | with_reducible apply Kept.raise
    | with_reducible apply Kept.setReg
    | with_reducible refine Kept.of_fst_eq (by assumption) ?_
    | split
    | dsimp only

/-- What `markGood` can change. -/
theorem Kept.markGood {ps : List Part} {d0 d : Dev} {r : Region} {table line : Nat} (hk : d0.Kept ps d) (hsub : ∀ p ∈ ([.regs, .tables] : List Part), p ∈ ps) :
    d0.Kept ps (Dev.markGood d r table line) := by
  refine hk.then (qs := [.regs, .tables]) ?_ hsub
  unfold Dev.markGood
  try dsimp only
  repeat' first
    | with_reducible exact Kept.refl _ _
    | decide
    | with_reducible apply Kept.countBad
    | with_reducible apply Kept.modTables
    | with_reducible refine Kept.of_fst_eq (by assumption) ?_
    | split
    | dsimp only

/-- What `requestRepair` can change. -/
theorem Kept.requestRepair {ps : List Part} {d0 d : Dev} {r : Region} {table line : Nat} (hk : d0.Kept ps d) (hsub : ∀ p ∈ ([.wire] : List Part), p ∈ ps) :
    d0.Kept ps (Dev.requestRepair d r table line) := by
  refine hk.then (qs := [.wire]) ?_ hsub
  unfold Dev.requestRepair
  try dsimp only
  repeat' first
    | with_reducible exact Kept.refl _ _
    | decide
    | with_reducible apply Kept.ite
    | with_reducible apply Kept.send
    | with_reducible refine Kept.of_fst_eq (by assumption) ?_
    | split
    | dsimp only

/-- What `requestRepairs` can change. -/
theorem Kept.requestRepairs {ps : List Part} {d0 d : Dev} {r : Region} (hk : d0.Kept ps d) (hsub : ∀ p ∈ ([.wire] : List Part), p ∈ ps) :
    d0.Kept ps (Dev.requestRepairs d r) := by
  refine hk.then (qs := [.wire]) ?_ hsub
  unfold Dev.requestRepairs
  try dsimp only
  repeat' first
    | with_reducible exact Kept.refl _ _
    | decide
    | with_reducible apply Kept.each
    | with_reducible apply Kept.requestRepair
    | (intro _)
    | with_reducible refine Kept.of_fst_eq (by assumption) ?_
    | split
    | dsimp only

/-- What `recordHit` can change. -/
theorem Kept.recordHit {ps : List Part} {d0 d : Dev} {r : Region} {n : Nat} {t : TableDesc} {slot : Nat} (hk : d0.Kept ps d) (hsub : ∀ p ∈ ([.wire, .tables] : List Part), p ∈ ps) :
    d0.Kept ps (Dev.recordHit d r n t slot) := by
  refine hk.then (qs := [.wire, .tables]) ?_ hsub
  unfold Dev.recordHit
  try dsimp only
  repeat' first
    | with_reducible exact Kept.refl _ _
    | decide
    | with_reducible apply Kept.ite
    | with_reducible apply Kept.modTables
    | with_reducible apply Kept.send
    | with_reducible refine Kept.of_fst_eq (by assumption) ?_
    | split
    | dsimp only

/-- What `counterLookup` can change. -/
theorem Kept.counterLookup {ps : List Part} {d0 d : Dev} {r : Region} {n : Nat} {t : TableDesc} {i length : Nat} (hk : d0.Kept ps d) (hsub : ∀ p ∈ ([.regs, .mem, .poison, .wire, .ctxs, .tables] : List Part), p ∈ ps) :
    d0.Kept ps (Dev.counterLookup d r n t i length).1 := by
  refine hk.then (qs := [.regs, .mem, .poison, .wire, .ctxs, .tables]) ?_ hsub
  unfold Dev.counterLookup
  try dsimp only
  repeat' first
    | with_reducible exact Kept.refl _ _
    | decide
    | with_reducible apply Kept.ite
    | with_reducible apply Kept.ite_fst
    | with_reducible apply Kept.markGood
    | with_reducible apply Kept.err
    | with_reducible apply Kept.zero
    | with_reducible apply Kept.setLE
    | with_reducible refine Kept.of_fst_eq (by assumption) ?_
    | split
    | dsimp only

/-- What `meterLookup` can change. -/
theorem Kept.meterLookup {ps : List Part} {d0 d : Dev} {r : Region} {n : Nat} {t : TableDesc} {i length : Nat} {primary : Bool} (hk : d0.Kept ps d) (hsub : ∀ p ∈ ([.regs, .mem, .poison, .wire, .ctxs, .tables, .pool] : List Part), p ∈ ps) :
    d0.Kept ps (Dev.meterLookup d r n t i length primary).1 := by
  refine hk.then (qs := [.regs, .mem, .poison, .wire, .ctxs, .tables, .pool]) ?_ hsub
  unfold Dev.meterLookup
  try dsimp only
  repeat' first
    | with_reducible exact Kept.refl _ _
    | decide
    | with_reducible apply Kept.ite
    | with_reducible apply Kept.ite_fst
    | with_reducible apply Kept.markGood
    | with_reducible apply Kept.setMeter
    | with_reducible apply Kept.refill
    | with_reducible apply Kept.err
    | with_reducible apply Kept.zero
    | with_reducible refine Kept.of_fst_eq (by assumption) ?_
    | split
    | dsimp only

/-- What `lookup` can change. -/
theorem Kept.lookup {ps : List Part} {d0 d : Dev} {r : Region} {n : Nat} {key : List Byte} {length : Nat} {primary : Bool} (hk : d0.Kept ps d) (hsub : ∀ p ∈ ([.regs, .mem, .poison, .wire, .ctxs, .tables, .pool] : List Part), p ∈ ps) :
    d0.Kept ps (Dev.lookup d r n key length primary).1 := by
  refine hk.then (qs := [.regs, .mem, .poison, .wire, .ctxs, .tables, .pool]) ?_ hsub
  unfold Dev.lookup
  try dsimp only
  repeat' first
    | with_reducible exact Kept.refl _ _
    | decide
    | with_reducible apply Kept.ite
    | with_reducible apply Kept.ite_fst
    | with_reducible apply Kept.meterLookup
    | with_reducible apply Kept.counterLookup
    | with_reducible apply Kept.recordHit
    | with_reducible apply Kept.event
    | with_reducible refine Kept.of_fst_eq (by assumption) ?_
    | split
    | dsimp only

end Sys2Proof.Machine.Dev
end

