-- ==== Sys2Proof/Laws/RecordsKept.lean ====
section
/-!
SUPPORT. What each operation of Machine/Records.lean can change at most, and that it keeps the canonical forms.
-/

namespace Sys2Proof.Machine.Dev

/-- What `applyOp` can change. -/
theorem Kept.applyOp {ps : List Part} {d0 d : Dev} {r : Region} {x1 : TabOp} (hk : d0.Kept ps d) (hsub : ∀ p ∈ ([.regs, .mem, .tables] : List Part), p ∈ ps) :
    d0.Kept ps (Dev.applyOp d r x1) := by
  refine hk.then (qs := [.regs, .mem, .tables]) ?_ hsub
  unfold Dev.applyOp
  try dsimp only
  repeat' first
    | with_reducible exact Kept.refl _ _
    | decide
    | with_reducible apply Kept.ite
    | with_reducible apply Kept.markGood
    | with_reducible apply Kept.modTables
    | with_reducible apply Kept.setBytes
    | with_reducible refine Kept.of_fst_eq (by assumption) ?_
    | split
    | dsimp only

/-- What `applyOps` can change. -/
theorem Kept.applyOps {ps : List Part} {d0 d : Dev} {r : Region} {ops : List TabOp} (hk : d0.Kept ps d) (hsub : ∀ p ∈ ([.regs, .mem, .tables] : List Part), p ∈ ps) :
    d0.Kept ps (Dev.applyOps d r ops) := by
  refine hk.then (qs := [.regs, .mem, .tables]) ?_ hsub
  unfold Dev.applyOps
  try dsimp only
  repeat' first
    | with_reducible exact Kept.refl _ _
    | decide
    | with_reducible apply Kept.foldl
    | with_reducible apply Kept.foldl_fst
    | with_reducible apply Kept.applyOp
    | (intro _)
    | with_reducible refine Kept.of_fst_eq (by assumption) ?_
    | split
    | dsimp only

/-- What `countLearn` can change. -/
theorem Kept.countLearn {ps : List Part} {d0 d : Dev} {r : Region} {f : Fld} {src : Option Nat} (hk : d0.Kept ps d) (hsub : ∀ p ∈ ([.regs, .wire, .ctxs] : List Part), p ∈ ps) :
    d0.Kept ps (Dev.countLearn d r f src) := by
  refine hk.then (qs := [.regs, .wire, .ctxs]) ?_ hsub
  unfold Dev.countLearn
  try dsimp only
  repeat' first
    | with_reducible exact Kept.refl _ _
    | decide
    | with_reducible apply Kept.ite
    | with_reducible apply Kept.raise
    | with_reducible apply Kept.addSat
    | with_reducible refine Kept.of_fst_eq (by assumption) ?_
    | split
    | dsimp only

/-- What `outcome` can change. -/
theorem Kept.outcome {ps : List Part} {d0 d : Dev} {r : Region} {i : Issuer} {code visible index : Nat} (hk : d0.Kept ps d) (hsub : ∀ p ∈ ([.regs, .wire, .ctxs, .commit] : List Part), p ∈ ps) :
    d0.Kept ps (Dev.outcome d r i code visible index) := by
  refine hk.then (qs := [.regs, .wire, .ctxs, .commit]) ?_ hsub
  unfold Dev.outcome
  try dsimp only
  repeat' first
    | with_reducible exact Kept.refl _ _
    | decide
    | with_reducible apply Kept.ite
    | with_reducible apply Kept.countLearn
    | with_reducible apply Kept.modCommit
    | with_reducible apply Kept.err
    | with_reducible apply Kept.event
    | with_reducible refine Kept.of_fst_eq (by assumption) ?_
    | split
    | dsimp only

/-- What `stage` can change. -/
theorem Kept.stage {ps : List Part} {d0 d : Dev} {r : Region} {m : Mut} {i : Issuer} (hk : d0.Kept ps d) (hsub : ∀ p ∈ ([.regs, .wire, .ctxs, .commit] : List Part), p ∈ ps) :
    d0.Kept ps (Dev.stage d r m i).1 := by
  refine hk.then (qs := [.regs, .wire, .ctxs, .commit]) ?_ hsub
  unfold Dev.stage
  try dsimp only
  repeat' first
    | with_reducible exact Kept.refl _ _
    | decide
    | with_reducible apply Kept.ite
    | with_reducible apply Kept.ite_fst
    | with_reducible apply Kept.modCommit
    | with_reducible apply Kept.err
    | with_reducible apply Kept.event
    | with_reducible apply Kept.sendAll
    | with_reducible apply Kept.setFld
    | with_reducible refine Kept.of_fst_eq (by assumption) ?_
    | split
    | dsimp only

/-- What `restage` can change. -/
theorem Kept.restage {ps : List Part} {d0 d : Dev} {r : Region} {seq : Nat} {m : Mut} (hk : d0.Kept ps d) (hsub : ∀ p ∈ ([.wire, .commit] : List Part), p ∈ ps) :
    d0.Kept ps (Dev.restage d r seq m) := by
  refine hk.then (qs := [.wire, .commit]) ?_ hsub
  unfold Dev.restage
  try dsimp only
  repeat' first
    | with_reducible exact Kept.refl _ _
    | decide
    | with_reducible apply Kept.ite
    | with_reducible apply Kept.modCommit
    | with_reducible apply Kept.sendAll
    | with_reducible refine Kept.of_fst_eq (by assumption) ?_
    | split
    | dsimp only

/-- What `ignoringBad` can change. -/
theorem Kept.ignoringBad {ps : List Part} {d0 d : Dev} {r : Region} {n : Nat} (hk : d0.Kept ps d) (hsub : ∀ p ∈ ([.tables] : List Part), p ∈ ps) :
    d0.Kept ps (Dev.ignoringBad d r n) := by
  refine hk.then (qs := [.tables]) ?_ hsub
  unfold Dev.ignoringBad
  try dsimp only
  repeat' first
    | with_reducible exact Kept.refl _ _
    | decide
    | with_reducible apply Kept.modTables
    | with_reducible refine Kept.of_fst_eq (by assumption) ?_
    | split
    | dsimp only

/-- What `withDirect` can change. -/
theorem Kept.withDirect {ps : List Part} {d0 d : Dev} {r : Region} (hk : d0.Kept ps d) (hsub : ∀ p ∈ ([.regs, .mem, .tables] : List Part), p ∈ ps) :
    d0.Kept ps (Dev.withDirect d r) := by
  refine hk.then (qs := [.regs, .mem, .tables]) ?_ hsub
  unfold Dev.withDirect
  try dsimp only
  repeat' first
    | with_reducible exact Kept.refl _ _
    | decide
    | with_reducible apply Kept.applyOps
    | with_reducible refine Kept.of_fst_eq (by assumption) ?_
    | split
    | dsimp only

/-- What `directWrite` can change. -/
theorem Kept.directWrite {ps : List Part} {d0 d : Dev} {q : Region} {m : Mut} {later : Bool} {i : Option Issuer} (hk : d0.Kept ps d) (hsub : ∀ p ∈ ([.regs, .mem, .commit, .tables] : List Part), p ∈ ps) :
    d0.Kept ps (Dev.directWrite d q m later i).1 := by
  refine hk.then (qs := [.regs, .mem, .commit, .tables]) ?_ hsub
  unfold Dev.directWrite
  try dsimp only
  repeat' first
    | with_reducible exact Kept.refl _ _
    | decide
    | with_reducible apply Kept.ite
    | with_reducible apply Kept.ite_fst
    | with_reducible apply Kept.applyOps
    | with_reducible apply Kept.modCommit
    | with_reducible refine Kept.of_fst_eq (by assumption) ?_
    | split
    | dsimp only

/-- What `directAll` can change. -/
theorem Kept.directAll {ps : List Part} {d0 d : Dev} {r : Region} {m : Mut} {later : Bool} {i : Issuer} (hk : d0.Kept ps d) (hsub : ∀ p ∈ ([.regs, .mem, .commit, .tables] : List Part), p ∈ ps) :
    d0.Kept ps (Dev.directAll d r m later i).1 := by
  refine hk.then (qs := [.regs, .mem, .commit, .tables]) ?_ hsub
  unfold Dev.directAll
  try dsimp only
  repeat' first
    | with_reducible exact Kept.refl _ _
    | decide
    | with_reducible apply Kept.ite
    | with_reducible apply Kept.ite_fst
    | with_reducible apply Kept.foldl
    | with_reducible apply Kept.foldl_fst
    | with_reducible apply Kept.directWrite
    | (intro _)
    | with_reducible refine Kept.of_fst_eq (by assumption) ?_
    | split
    | dsimp only

/-- What `dueFence` can change. -/
theorem Kept.dueFence {ps : List Part} {d0 d : Dev} {r : Region} {cause : Nat} (hk : d0.Kept ps d) (hsub : ∀ p ∈ ([.commit] : List Part), p ∈ ps) :
    d0.Kept ps (Dev.dueFence d r cause) := by
  refine hk.then (qs := [.commit]) ?_ hsub
  unfold Dev.dueFence
  try dsimp only
  repeat' first
    | with_reducible exact Kept.refl _ _
    | decide
    | with_reducible apply Kept.ite
    | with_reducible apply Kept.modCommit
    | with_reducible refine Kept.of_fst_eq (by assumption) ?_
    | split
    | dsimp only

/-- What `badRecord` can change. -/
theorem Kept.badRecord {ps : List Part} {d0 d : Dev} {r : Region} {m : Mut} (hk : d0.Kept ps d) (hsub : ∀ p ∈ ([.regs, .wire, .ctxs, .commit, .tables] : List Part), p ∈ ps) :
    d0.Kept ps (Dev.badRecord d r m) := by
  refine hk.then (qs := [.regs, .wire, .ctxs, .commit, .tables]) ?_ hsub
  unfold Dev.badRecord
  try dsimp only
  repeat' first
    | with_reducible exact Kept.refl _ _
    | decide
    | with_reducible apply Kept.ite
    | with_reducible apply Kept.foldl
    | with_reducible apply Kept.foldl_fst
    | with_reducible apply Kept.dueFence
    | with_reducible apply Kept.requestRepair
    | with_reducible apply Kept.markBad
    | with_reducible apply Kept.err
    | (intro _)
    | with_reducible refine Kept.of_fst_eq (by assumption) ?_
    | split
    | dsimp only

/-- What `badView` can change. -/
theorem Kept.badView {ps : List Part} {d0 w : Dev} {r : Region} {m : Mut} (hk : d0.Kept ps w) (hsub : ∀ p ∈ ([.regs, .wire, .ctxs, .tables] : List Part), p ∈ ps) :
    d0.Kept ps (Dev.badView w r m) := by
  refine hk.then (qs := [.regs, .wire, .ctxs, .tables]) ?_ hsub
  unfold Dev.badView
  try dsimp only
  repeat' first
    | with_reducible exact Kept.refl _ _
    | decide
    | with_reducible apply Kept.ite
    | with_reducible apply Kept.foldl
    | with_reducible apply Kept.foldl_fst
    | with_reducible apply Kept.markBad
    | (intro _)
    | with_reducible refine Kept.of_fst_eq (by assumption) ?_
    | split
    | dsimp only

/-- What `meetErrors` can change. -/
theorem Kept.meetErrors {ps : List Part} {d0 d : Dev} {r : Region} {m : Mut} (hk : d0.Kept ps d) (hsub : ∀ p ∈ ([.regs, .wire, .ctxs, .tables] : List Part), p ∈ ps) :
    d0.Kept ps (Dev.meetErrors d r m) := by
  refine hk.then (qs := [.regs, .wire, .ctxs, .tables]) ?_ hsub
  unfold Dev.meetErrors
  try dsimp only
  repeat' first
    | with_reducible exact Kept.refl _ _
    | decide
    | with_reducible apply Kept.foldl
    | with_reducible apply Kept.foldl_fst
    | with_reducible apply Kept.requestRepair
    | with_reducible apply Kept.markBad
    | (intro _)
    | with_reducible refine Kept.of_fst_eq (by assumption) ?_
    | split
    | dsimp only

/-- What `noteWrite` can change. -/
theorem Kept.noteWrite {ps : List Part} {d0 d : Dev} {r : Region} {tick : Nat} {m : Mut} (hk : d0.Kept ps d) (hsub : ∀ p ∈ ([.commit] : List Part), p ∈ ps) :
    d0.Kept ps (Dev.noteWrite d r tick m) := by
  refine hk.then (qs := [.commit]) ?_ hsub
  unfold Dev.noteWrite
  try dsimp only
  repeat' first
    | with_reducible exact Kept.refl _ _
    | decide
    | with_reducible apply Kept.modCommit
    | with_reducible refine Kept.of_fst_eq (by assumption) ?_
    | split
    | dsimp only

/-- What `applyAll` can change. -/
theorem Kept.applyAll {ps : List Part} {d0 d : Dev} {r : Region} {tick visible : Nat} {w : Dev} {ops : List TabOp} {l : List Mut}
    (hk : d0.Kept ps d) (hsub : ∀ p ∈ ([.regs, .wire, .ctxs, .commit, .tables] : List Part), p ∈ ps) :
    d0.Kept ps (Dev.applyAll r tick visible d w ops l).1 := by
  induction l generalizing d w ops with
  | nil => unfold Dev.applyAll; exact hk
  | cons m t ih =>
    unfold Dev.applyAll
    dsimp only
    apply ih
    clear ih
    refine hk.then (qs := [.regs, .wire, .ctxs, .commit, .tables]) ?_ hsub
    repeat' first
      | with_reducible exact Kept.refl _ _
      | decide
      | with_reducible apply Kept.ite
      | with_reducible apply Kept.badRecord
      | with_reducible apply Kept.meetErrors
      | with_reducible apply Kept.noteWrite
      | with_reducible apply Kept.outcome
      | split

/-- What `withOverlays` can change. -/
theorem Kept.withOverlays {ps : List Part} {d0 d : Dev} {r : Region} (hk : d0.Kept ps d) (hsub : ∀ p ∈ ([.regs, .mem, .tables] : List Part), p ∈ ps) :
    d0.Kept ps (Dev.withOverlays d r) := by
  refine hk.then (qs := [.regs, .mem, .tables]) ?_ hsub
  unfold Dev.withOverlays
  try dsimp only
  repeat' first
    | with_reducible exact Kept.refl _ _
    | decide
    | with_reducible apply Kept.foldl
    | with_reducible apply Kept.foldl_fst
    | with_reducible apply Kept.applyOps
    | (intro _)
    | with_reducible refine Kept.of_fst_eq (by assumption) ?_
    | split
    | dsimp only

/-- What `applyList` can change. -/
theorem Kept.applyList {ps : List Part} {d0 d : Dev} {r : Region} {tick : Nat} {l : List Mut} (hk : d0.Kept ps d) (hsub : ∀ p ∈ ([.regs, .wire, .ctxs, .commit, .tables] : List Part), p ∈ ps) :
    d0.Kept ps (Dev.applyList d r tick l) := by
  refine hk.then (qs := [.regs, .wire, .ctxs, .commit, .tables]) ?_ hsub
  unfold Dev.applyList
  try dsimp only
  repeat' first
    | with_reducible exact Kept.refl _ _
    | decide
    | with_reducible apply Kept.ite
    | with_reducible apply Kept.each
    | with_reducible apply Kept.foldl
    | with_reducible apply Kept.foldl_fst
    | with_reducible apply Kept.applyAll
    | with_reducible apply Kept.outcome
    | with_reducible apply Kept.modCommit
    | with_reducible apply Kept.addSat
    | (intro _)
    | with_reducible refine Kept.of_fst_eq (by assumption) ?_
    | split
    | dsimp only

/-- What `outcomeAll` can change. -/
theorem Kept.outcomeAll {ps : List Part} {d0 d : Dev} {r : Region} {tick code : Nat} (hk : d0.Kept ps d) (hsub : ∀ p ∈ ([.regs, .wire, .ctxs, .commit] : List Part), p ∈ ps) :
    d0.Kept ps (Dev.outcomeAll d r tick code) := by
  refine hk.then (qs := [.regs, .wire, .ctxs, .commit]) ?_ hsub
  unfold Dev.outcomeAll
  try dsimp only
  repeat' first
    | with_reducible exact Kept.refl _ _
    | decide
    | with_reducible apply Kept.foldl
    | with_reducible apply Kept.foldl_fst
    | with_reducible apply Kept.outcome
    | (intro _)
    | with_reducible refine Kept.of_fst_eq (by assumption) ?_
    | split
    | dsimp only

/-- What `stageRepair` can change. -/
theorem Kept.stageRepair {ps : List Part} {d0 d : Dev} {q : Region} {requester n line time : Nat} (hk : d0.Kept ps d) (hsub : ∀ p ∈ ([.regs, .wire, .ctxs, .commit] : List Part), p ∈ ps) :
    d0.Kept ps (Dev.stageRepair d q requester n line time) := by
  refine hk.then (qs := [.regs, .wire, .ctxs, .commit]) ?_ hsub
  unfold Dev.stageRepair
  try dsimp only
  repeat' first
    | with_reducible exact Kept.refl _ _
    | decide
    | with_reducible apply Kept.stage
    | with_reducible refine Kept.of_fst_eq (by assumption) ?_
    | split
    | dsimp only

/-- What `stageWaiting` can change. -/
theorem Kept.stageWaiting {ps : List Part} {d0 d : Dev} {r : Region} (hk : d0.Kept ps d) (hsub : ∀ p ∈ ([.regs, .wire, .ctxs, .commit] : List Part), p ∈ ps) :
    d0.Kept ps (Dev.stageWaiting d r) := by
  refine hk.then (qs := [.regs, .wire, .ctxs, .commit]) ?_ hsub
  unfold Dev.stageWaiting
  try dsimp only
  repeat' first
    | with_reducible exact Kept.refl _ _
    | decide
    | with_reducible apply Kept.foldl
    | with_reducible apply Kept.foldl_fst
    | with_reducible apply Kept.stageRepair
    | with_reducible apply Kept.modCommit
    | (intro _)
    | with_reducible refine Kept.of_fst_eq (by assumption) ?_
    | split
    | dsimp only

/-- What `applyCommit` can change. -/
theorem Kept.applyCommit {ps : List Part} {d0 d : Dev} {r : Region} {c : Commit} (hk : d0.Kept ps d) (hsub : ∀ p ∈ ([.regs, .wire, .ctxs, .commit, .tables] : List Part), p ∈ ps) :
    d0.Kept ps (Dev.applyCommit d r c) := by
  refine hk.then (qs := [.regs, .wire, .ctxs, .commit, .tables]) ?_ hsub
  unfold Dev.applyCommit
  try dsimp only
  repeat' first
    | with_reducible exact Kept.refl _ _
    | decide
    | with_reducible apply Kept.stageWaiting
    | with_reducible apply Kept.applyList
    | with_reducible apply Kept.modCommit
    | with_reducible refine Kept.of_fst_eq (by assumption) ?_
    | split
    | dsimp only

end Sys2Proof.Machine.Dev
end

