-- ==== Sys2Proof/Laws/CommitKept.lean ====
section
/-!
SUPPORT. What each operation of Machine/Commit.lean can change at most, and that it keeps the canonical forms.
-/

namespace Sys2Proof.Machine.Dev

/-- What `modA` can change. -/
theorem Kept.modA {ps : List Part} {d0 d : Dev} {f : AnchorState → AnchorState} (hk : d0.Kept ps d) (hsub : ∀ p ∈ ([.anchorSt] : List Part), p ∈ ps) :
    d0.Kept ps (Dev.modA d f) := by
  refine hk.then (qs := [.anchorSt]) ?_ hsub
  unfold Dev.modA
  try dsimp only
  repeat' first
    | with_reducible exact Kept.refl _ _
    | decide
    | with_reducible apply Kept.set_anchorSt
    | with_reducible refine Kept.of_fst_eq (by assumption) ?_
    | split
    | dsimp only

/-- What `broadcast` can change. -/
theorem Kept.broadcast {ps : List Part} {d0 d : Dev} {tick : Nat} (hk : d0.Kept ps d) (hsub : ∀ p ∈ ([.regs, .mem, .wire, .line, .ctxs, .anchorSt, .endpoints, .journal] : List Part), p ∈ ps) :
    d0.Kept ps (Dev.broadcast d tick) := by
  refine hk.then (qs := [.regs, .mem, .wire, .line, .ctxs, .anchorSt, .endpoints, .journal]) ?_ hsub
  unfold Dev.broadcast
  try dsimp only
  repeat' first
    | with_reducible exact Kept.refl _ _
    | decide
    | with_reducible apply Kept.ite
    | with_reducible apply Kept.when
    | with_reducible apply Kept.modA
    | with_reducible apply Kept.journalChip
    | with_reducible apply Kept.cevent
    | with_reducible apply Kept.flood
    | with_reducible apply Kept.send
    | with_reducible apply Kept.setOn
    | with_reducible apply Kept.setPair
    | (intro _)
    | with_reducible refine Kept.of_fst_eq (by assumption) ?_
    | split
    | dsimp only

/-- What `broadcastIfWhole` can change. -/
theorem Kept.broadcastIfWhole {ps : List Part} {d0 d : Dev} {tick : Nat} (hk : d0.Kept ps d) (hsub : ∀ p ∈ ([.regs, .mem, .wire, .line, .ctxs, .anchorSt, .endpoints, .journal] : List Part), p ∈ ps) :
    d0.Kept ps (Dev.broadcastIfWhole d tick) := by
  refine hk.then (qs := [.regs, .mem, .wire, .line, .ctxs, .anchorSt, .endpoints, .journal]) ?_ hsub
  unfold Dev.broadcastIfWhole
  try dsimp only
  repeat' first
    | with_reducible exact Kept.refl _ _
    | decide
    | with_reducible apply Kept.ite
    | with_reducible apply Kept.broadcast
    | with_reducible refine Kept.of_fst_eq (by assumption) ?_
    | split
    | dsimp only

/-- What `replay` can change. -/
theorem Kept.replay {ps : List Part} {d0 d : Dev} {q : Region} (hk : d0.Kept ps d) (hsub : ∀ p ∈ ([.regs, .mem, .wire, .line, .anchorSt, .endpoints] : List Part), p ∈ ps) :
    d0.Kept ps (Dev.replay d q) := by
  refine hk.then (qs := [.regs, .mem, .wire, .line, .anchorSt, .endpoints]) ?_ hsub
  unfold Dev.replay
  try dsimp only
  repeat' first
    | with_reducible exact Kept.refl _ _
    | decide
    | with_reducible apply Kept.ite
    | with_reducible apply Kept.foldl
    | with_reducible apply Kept.foldl_fst
    | with_reducible apply Kept.modA
    | with_reducible apply Kept.post
    | with_reducible apply Kept.send
    | with_reducible apply Kept.setFld
    | (intro _)
    | with_reducible refine Kept.of_fst_eq (by assumption) ?_
    | split
    | dsimp only

/-- What `hitWins` can change. -/
theorem Kept.hitWins {ps : List Part} {d0 d : Dev} {r : Region} {n slot : Nat} (hk : d0.Kept ps d) (hsub : ∀ p ∈ ([.wire, .commit] : List Part), p ∈ ps) :
    d0.Kept ps (Dev.hitWins d r n slot) := by
  refine hk.then (qs := [.wire, .commit]) ?_ hsub
  unfold Dev.hitWins
  try dsimp only
  repeat' first
    | with_reducible exact Kept.refl _ _
    | decide
    | with_reducible apply Kept.restage
    | with_reducible refine Kept.of_fst_eq (by assumption) ?_
    | split
    | dsimp only

end Sys2Proof.Machine.Dev
end

