-- ==== Sys2Proof/Laws/PanesKept.lean ====
section
/-!
SUPPORT. What each operation of Machine/Panes.lean can change at most, and that it keeps the canonical forms.
-/

namespace Sys2Proof.Machine.Dev

/-- What `setPaneState` can change. -/
theorem Kept.setPaneState {ps : List Part} {d0 d : Dev} {r p v : Nat} (hk : d0.Kept ps d) (hsub : ∀ p ∈ ([.regs] : List Part), p ∈ ps) :
    d0.Kept ps (Dev.setPaneState d r p v) := by
  refine hk.then (qs := [.regs]) ?_ hsub
  unfold Dev.setPaneState
  try dsimp only
  repeat' first
    | with_reducible exact Kept.refl _ _
    | decide
    | with_reducible apply Kept.ite
    | with_reducible apply Kept.setFld
    | with_reducible refine Kept.of_fst_eq (by assumption) ?_
    | split
    | dsimp only

/-- What `modFront` can change. -/
theorem Kept.modFront {ps : List Part} {d0 d : Dev} {r : Region} {f : FrontState → FrontState} (hk : d0.Kept ps d) (hsub : ∀ p ∈ ([.front] : List Part), p ∈ ps) :
    d0.Kept ps (Dev.modFront d r f) := by
  refine hk.then (qs := [.front]) ?_ hsub
  unfold Dev.modFront
  try dsimp only
  repeat' first
    | with_reducible exact Kept.refl _ _
    | decide
    | with_reducible apply Kept.modR
    | (intro g p hp; cases p <;> first | trivial | rfl | exact absurd (by decide) hp)
    | with_reducible refine Kept.of_fst_eq (by assumption) ?_
    | split
    | dsimp only

/-- What `showSession` can change. -/
theorem Kept.showSession {ps : List Part} {d0 d : Dev} {r : Region} (hk : d0.Kept ps d) (hsub : ∀ p ∈ ([.regs] : List Part), p ∈ ps) :
    d0.Kept ps (Dev.showSession d r) := by
  refine hk.then (qs := [.regs]) ?_ hsub
  unfold Dev.showSession
  try dsimp only
  repeat' first
    | with_reducible exact Kept.refl _ _
    | decide
    | with_reducible apply Kept.ite
    | with_reducible apply Kept.setFld
    | with_reducible refine Kept.of_fst_eq (by assumption) ?_
    | split
    | dsimp only

/-- What `startCode` can change. -/
theorem Kept.startCode {ps : List Part} {d0 d : Dev} {r : Region} {p : Nat} (hk : d0.Kept ps d) (hsub : ∀ p ∈ ([.regs, .front] : List Part), p ∈ ps) :
    d0.Kept ps (Dev.startCode d r p) := by
  refine hk.then (qs := [.regs, .front]) ?_ hsub
  unfold Dev.startCode
  try dsimp only
  repeat' first
    | with_reducible exact Kept.refl _ _
    | decide
    | with_reducible apply Kept.showSession
    | with_reducible apply Kept.modFront
    | with_reducible refine Kept.of_fst_eq (by assumption) ?_
    | split
    | dsimp only

/-- What `paneBytes` can change. -/
theorem Kept.paneBytes {ps : List Part} {d0 d : Dev} {r : Region} {p a : Nat} {data : List Byte} (hk : d0.Kept ps d) (hsub : ∀ p ∈ ([.mem, .front] : List Part), p ∈ ps) :
    d0.Kept ps (Dev.paneBytes d r p a data) := by
  refine hk.then (qs := [.mem, .front]) ?_ hsub
  unfold Dev.paneBytes
  try dsimp only
  repeat' first
    | with_reducible exact Kept.refl _ _
    | decide
    | with_reducible apply Kept.ite
    | with_reducible apply Kept.when
    | with_reducible apply Kept.modFront
    | with_reducible apply Kept.setBytes
    | (intro _)
    | with_reducible refine Kept.of_fst_eq (by assumption) ?_
    | split
    | dsimp only

/-- What `passView` can change. -/
theorem Kept.passView {ps : List Part} {d0 d : Dev} {r : Region} (hk : d0.Kept ps d) (hsub : ∀ p ∈ ([.mem] : List Part), p ∈ ps) :
    d0.Kept ps (Dev.passView d r) := by
  refine hk.then (qs := [.mem]) ?_ hsub
  unfold Dev.passView
  try dsimp only
  repeat' first
    | with_reducible exact Kept.refl _ _
    | decide
    | with_reducible apply Kept.foldl
    | with_reducible apply Kept.foldl_fst
    | with_reducible apply Kept.setBytes
    | (intro _)
    | with_reducible refine Kept.of_fst_eq (by assumption) ?_
    | split
    | dsimp only

/-- What `prkRej` can change. -/
theorem Kept.prkRej {ps : List Part} {d0 d : Dev} {r : Region} {f : Fld} {cause pane kind index : Nat} (hk : d0.Kept ps d) (hsub : ∀ p ∈ ([.regs, .wire, .ctxs] : List Part), p ∈ ps) :
    d0.Kept ps (Dev.prkRej d r f cause pane kind index) := by
  refine hk.then (qs := [.regs, .wire, .ctxs]) ?_ hsub
  unfold Dev.prkRej
  try dsimp only
  repeat' first
    | with_reducible exact Kept.refl _ _
    | decide
    | with_reducible apply Kept.err
    | with_reducible apply Kept.setReg
    | with_reducible refine Kept.of_fst_eq (by assumption) ?_
    | split
    | dsimp only

/-- What `clsRej` can change. -/
theorem Kept.clsRej {ps : List Part} {d0 d : Dev} {r : Region} {cause pane kind index : Nat} (hk : d0.Kept ps d) (hsub : ∀ p ∈ ([.regs] : List Part), p ∈ ps) :
    d0.Kept ps (Dev.clsRej d r cause pane kind index) := by
  refine hk.then (qs := [.regs]) ?_ hsub
  unfold Dev.clsRej
  try dsimp only
  repeat' first
    | with_reducible exact Kept.refl _ _
    | decide
    | with_reducible apply Kept.setReg
    | with_reducible refine Kept.of_fst_eq (by assumption) ?_
    | split
    | dsimp only

/-- What `paneWrite` can change. -/
theorem Kept.paneWrite {ps : List Part} {d0 d : Dev} {r : Region} {p : Nat} {store : Bool} {off : Nat} {data : List Byte} (hk : d0.Kept ps d) (hsub : ∀ p ∈ ([.regs, .mem, .wire, .ctxs, .front] : List Part), p ∈ ps) :
    d0.Kept ps (Dev.paneWrite d r p store off data).1 := by
  refine hk.then (qs := [.regs, .mem, .wire, .ctxs, .front]) ?_ hsub
  unfold Dev.paneWrite
  try dsimp only
  repeat' first
    | with_reducible exact Kept.refl _ _
    | decide
    | with_reducible apply Kept.ite
    | with_reducible apply Kept.ite_fst
    | with_reducible apply Kept.clsRej
    | with_reducible apply Kept.prkRej
    | with_reducible apply Kept.paneBytes
    | with_reducible apply Kept.err
    | with_reducible refine Kept.of_fst_eq (by assumption) ?_
    | split
    | dsimp only

/-- What `paneOpen` can change. -/
theorem Kept.paneOpen {ps : List Part} {d0 d : Dev} {r : Region} {p : Nat} (hk : d0.Kept ps d) (hsub : ∀ p ∈ ([.regs, .wire, .ctxs, .front] : List Part), p ∈ ps) :
    d0.Kept ps (Dev.paneOpen d r p).1 := by
  refine hk.then (qs := [.regs, .wire, .ctxs, .front]) ?_ hsub
  unfold Dev.paneOpen
  try dsimp only
  repeat' first
    | with_reducible exact Kept.refl _ _
    | decide
    | with_reducible apply Kept.ite
    | with_reducible apply Kept.ite_fst
    | with_reducible apply Kept.prkRej
    | with_reducible apply Kept.showSession
    | with_reducible apply Kept.modFront
    | with_reducible refine Kept.of_fst_eq (by assumption) ?_
    | split
    | dsimp only

/-- What `paneClose` can change. -/
theorem Kept.paneClose {ps : List Part} {d0 d : Dev} {r : Region} (hk : d0.Kept ps d) (hsub : ∀ p ∈ ([.regs, .wire, .ctxs, .front] : List Part), p ∈ ps) :
    d0.Kept ps (Dev.paneClose d r).1 := by
  refine hk.then (qs := [.regs, .wire, .ctxs, .front]) ?_ hsub
  unfold Dev.paneClose
  try dsimp only
  repeat' first
    | with_reducible exact Kept.refl _ _
    | decide
    | with_reducible apply Kept.clsRej
    | with_reducible apply Kept.prkRej
    | with_reducible apply Kept.startCode
    | with_reducible apply Kept.modFront
    | with_reducible apply Kept.err
    | with_reducible refine Kept.of_fst_eq (by assumption) ?_
    | split
    | dsimp only

/-- What `divWrite` can change. -/
theorem Kept.divWrite {ps : List Part} {d0 d : Dev} {r : Region} {p : Nat} {v : Word} (hk : d0.Kept ps d) (hsub : ∀ p ∈ ([.regs, .wire, .ctxs, .front] : List Part), p ∈ ps) :
    d0.Kept ps (Dev.divWrite d r p v).1 := by
  refine hk.then (qs := [.regs, .wire, .ctxs, .front]) ?_ hsub
  unfold Dev.divWrite
  try dsimp only
  repeat' first
    | with_reducible exact Kept.refl _ _
    | decide
    | with_reducible apply Kept.ite
    | with_reducible apply Kept.ite_fst
    | with_reducible apply Kept.clsRej
    | with_reducible apply Kept.modFront
    | with_reducible apply Kept.err
    | with_reducible refine Kept.of_fst_eq (by assumption) ?_
    | split
    | dsimp only

/-- What `swapRejected` can change. -/
theorem Kept.swapRejected {ps : List Part} {d0 d : Dev} {cause : Nat} (hk : d0.Kept ps d) (hsub : ∀ p ∈ ([.regs, .wire, .ctxs] : List Part), p ∈ ps) :
    d0.Kept ps (Dev.swapRejected d cause) := by
  refine hk.then (qs := [.regs, .wire, .ctxs]) ?_ hsub
  unfold Dev.swapRejected
  try dsimp only
  repeat' first
    | with_reducible exact Kept.refl _ _
    | decide
    | with_reducible apply Kept.err
    | with_reducible apply Kept.setFld
    | with_reducible refine Kept.of_fst_eq (by assumption) ?_
    | split
    | dsimp only

/-- What `swapRequest` can change. -/
theorem Kept.swapRequest {ps : List Part} {d0 d : Dev} (hk : d0.Kept ps d) (hsub : ∀ p ∈ ([.regs, .wire, .ctxs, .anchorSt] : List Part), p ∈ ps) :
    d0.Kept ps (Dev.swapRequest d).1 := by
  refine hk.then (qs := [.regs, .wire, .ctxs, .anchorSt]) ?_ hsub
  unfold Dev.swapRequest
  try dsimp only
  repeat' first
    | with_reducible exact Kept.refl _ _
    | decide
    | with_reducible apply Kept.ite
    | with_reducible apply Kept.ite_fst
    | with_reducible apply Kept.swapRejected
    | with_reducible apply Kept.modA
    | with_reducible apply Kept.setOn
    | with_reducible refine Kept.of_fst_eq (by assumption) ?_
    | split
    | dsimp only

/-- What `forceFree` can change. -/
theorem Kept.forceFree {ps : List Part} {d0 d : Dev} (hk : d0.Kept ps d) (hsub : ∀ p ∈ ([.anchorSt] : List Part), p ∈ ps) :
    d0.Kept ps (Dev.forceFree d) := by
  refine hk.then (qs := [.anchorSt]) ?_ hsub
  unfold Dev.forceFree
  try dsimp only
  repeat' first
    | with_reducible exact Kept.refl _ _
    | decide
    | with_reducible apply Kept.modA
    | with_reducible refine Kept.of_fst_eq (by assumption) ?_
    | split
    | dsimp only

end Sys2Proof.Machine.Dev
end

