-- ==== Sys2Proof/Laws/PacketsKept.lean ====
section
/-!
SUPPORT. What each operation of Machine/Packets.lean can change at most, and that it keeps the canonical forms.
-/

namespace Sys2Proof.Machine.Dev

/-- What `setPkt` can change. -/
theorem Kept.setPkt {ps : List Part} {d0 d : Dev} {n : Nat} {p : Option Packet} (hk : d0.Kept ps d) (hsub : ∀ p ∈ ([.packets] : List Part), p ∈ ps) :
    d0.Kept ps (Dev.setPkt d n p) := by
  refine hk.then (qs := [.packets]) ?_ hsub
  unfold Dev.setPkt
  try dsimp only
  repeat' first
    | with_reducible exact Kept.refl _ _
    | decide
    | with_reducible apply Kept.set_packets
    | with_reducible refine Kept.of_fst_eq (by assumption) ?_
    | split
    | dsimp only

/-- What `modPkt` can change. -/
theorem Kept.modPkt {ps : List Part} {d0 d : Dev} {n : Nat} {f : Packet → Packet} (hk : d0.Kept ps d) (hsub : ∀ p ∈ ([.packets] : List Part), p ∈ ps) :
    d0.Kept ps (Dev.modPkt d n f) := by
  refine hk.then (qs := [.packets]) ?_ hsub
  unfold Dev.modPkt
  try dsimp only
  repeat' first
    | with_reducible exact Kept.refl _ _
    | decide
    | with_reducible apply Kept.setPkt
    | with_reducible refine Kept.of_fst_eq (by assumption) ?_
    | split
    | dsimp only

/-- What `modDsp` can change. -/
theorem Kept.modDsp {ps : List Part} {d0 d : Dev} {r : Region} {f : DispatchState → DispatchState} (hk : d0.Kept ps d) (hsub : ∀ p ∈ ([.dispatch] : List Part), p ∈ ps) :
    d0.Kept ps (Dev.modDsp d r f) := by
  refine hk.then (qs := [.dispatch]) ?_ hsub
  unfold Dev.modDsp
  try dsimp only
  repeat' first
    | with_reducible exact Kept.refl _ _
    | decide
    | with_reducible apply Kept.modR
    | (intro g p hp; cases p <;> first | trivial | rfl | exact absurd (by decide) hp)
    | with_reducible refine Kept.of_fst_eq (by assumption) ?_
    | split
    | dsimp only

/-- What `dropCount` can change. -/
theorem Kept.dropCount {ps : List Part} {d0 d : Dev} {r : Region} {code : Nat} (hk : d0.Kept ps d) (hsub : ∀ p ∈ ([.regs, .wire, .ctxs] : List Part), p ∈ ps) :
    d0.Kept ps (Dev.dropCount d r code) := by
  refine hk.then (qs := [.regs, .wire, .ctxs]) ?_ hsub
  unfold Dev.dropCount
  try dsimp only
  repeat' first
    | with_reducible exact Kept.refl _ _
    | decide
    | with_reducible apply Kept.event
    | with_reducible apply Kept.setPair
    | with_reducible refine Kept.of_fst_eq (by assumption) ?_
    | split
    | dsimp only

/-- What `leaveFlight` can change. -/
theorem Kept.leaveFlight {ps : List Part} {d0 d : Dev} {r : Region} {p : Packet} (hk : d0.Kept ps d) (hsub : ∀ p ∈ ([.regs] : List Part), p ∈ ps) :
    d0.Kept ps (Dev.leaveFlight d r p) := by
  refine hk.then (qs := [.regs]) ?_ hsub
  unfold Dev.leaveFlight
  try dsimp only
  repeat' first
    | with_reducible exact Kept.refl _ _
    | decide
    | with_reducible apply Kept.ite
    | with_reducible apply Kept.setFld
    | with_reducible refine Kept.of_fst_eq (by assumption) ?_
    | split
    | dsimp only

/-- What `pressure` can change. -/
theorem Kept.pressure {ps : List Part} {d0 d : Dev} {r : Region} (hk : d0.Kept ps d) (hsub : ∀ p ∈ ([.regs, .wire, .ctxs, .dispatch] : List Part), p ∈ ps) :
    d0.Kept ps (Dev.pressure d r) := by
  refine hk.then (qs := [.regs, .wire, .ctxs, .dispatch]) ?_ hsub
  unfold Dev.pressure
  try dsimp only
  repeat' first
    | with_reducible exact Kept.refl _ _
    | decide
    | with_reducible apply Kept.ite
    | with_reducible apply Kept.modDsp
    | with_reducible apply Kept.event
    | with_reducible apply Kept.raise
    | with_reducible apply Kept.setReg
    | with_reducible refine Kept.of_fst_eq (by assumption) ?_
    | split
    | dsimp only

/-- What `freeEntry` can change. -/
theorem Kept.freeEntry {ps : List Part} {d0 d : Dev} {n : Nat} (hk : d0.Kept ps d) (hsub : ∀ p ∈ ([.regs, .wire, .ctxs, .packets, .dispatch] : List Part), p ∈ ps) :
    d0.Kept ps (Dev.freeEntry d n) := by
  refine hk.then (qs := [.regs, .wire, .ctxs, .packets, .dispatch]) ?_ hsub
  unfold Dev.freeEntry
  try dsimp only
  repeat' first
    | with_reducible exact Kept.refl _ _
    | decide
    | with_reducible apply Kept.ite
    | with_reducible apply Kept.pressure
    | with_reducible apply Kept.modDsp
    | with_reducible apply Kept.modPkt
    | with_reducible refine Kept.of_fst_eq (by assumption) ?_
    | split
    | dsimp only

/-- What `unqueue` can change. -/
theorem Kept.unqueue {ps : List Part} {d0 d : Dev} {r : Region} {q n : Nat} (hk : d0.Kept ps d) (hsub : ∀ p ∈ ([.regs, .dispatch] : List Part), p ∈ ps) :
    d0.Kept ps (Dev.unqueue d r q n) := by
  refine hk.then (qs := [.regs, .dispatch]) ?_ hsub
  unfold Dev.unqueue
  try dsimp only
  repeat' first
    | with_reducible exact Kept.refl _ _
    | decide
    | with_reducible apply Kept.modDsp
    | with_reducible apply Kept.setFld
    | with_reducible apply Kept.maxFld
    | with_reducible refine Kept.of_fst_eq (by assumption) ?_
    | split
    | dsimp only

/-- What `listFull` can change. -/
theorem Kept.listFull {ps : List Part} {d0 d : Dev} {r : Region} (hk : d0.Kept ps d) (hsub : ∀ p ∈ ([.regs, .wire, .ctxs] : List Part), p ∈ ps) :
    d0.Kept ps (Dev.listFull d r) := by
  refine hk.then (qs := [.regs, .wire, .ctxs]) ?_ hsub
  unfold Dev.listFull
  try dsimp only
  repeat' first
    | with_reducible exact Kept.refl _ _
    | decide
    | with_reducible apply Kept.err
    | with_reducible refine Kept.of_fst_eq (by assumption) ?_
    | split
    | dsimp only

/-- What `handRecord` can change. -/
theorem Kept.handRecord {ps : List Part} {d0 d : Dev} {r : Region} {rr : ReleaseRec} (hk : d0.Kept ps d) (hsub : ∀ p ∈ ([.wire, .egress] : List Part), p ∈ ps) :
    d0.Kept ps (Dev.handRecord d r rr) := by
  refine hk.then (qs := [.wire, .egress]) ?_ hsub
  unfold Dev.handRecord
  try dsimp only
  repeat' first
    | with_reducible exact Kept.refl _ _
    | decide
    | with_reducible apply Kept.ite
    | with_reducible apply Kept.modEgress
    | with_reducible apply Kept.send
    | with_reducible refine Kept.of_fst_eq (by assumption) ?_
    | split
    | dsimp only

/-- What `sendMirror` can change. -/
theorem Kept.sendMirror {ps : List Part} {d0 d : Dev} {n : Nat} {p : Packet} {dropped : Bool} {copy : Nat} {m : Option Nat} (hk : d0.Kept ps d) (hsub : ∀ p ∈ ([.regs, .mem, .wire, .line, .ctxs, .endpoints, .pool, .egress, .journal] : List Part), p ∈ ps) :
    d0.Kept ps (Dev.sendMirror d n p dropped copy m) := by
  refine hk.then (qs := [.regs, .mem, .wire, .line, .ctxs, .endpoints, .pool, .egress, .journal]) ?_ hsub
  unfold Dev.sendMirror
  try dsimp only
  repeat' first
    | with_reducible exact Kept.refl _ _
    | decide
    | with_reducible apply Kept.ite
    | with_reducible apply Kept.when
    | with_reducible apply Kept.handRecord
    | with_reducible apply Kept.listFull
    | with_reducible apply Kept.dropCount
    | with_reducible apply Kept.deref
    | with_reducible apply Kept.modEgress
    | (intro _)
    | with_reducible refine Kept.of_fst_eq (by assumption) ?_
    | split
    | dsimp only

/-- What `sendMirrors` can change. -/
theorem Kept.sendMirrors {ps : List Part} {d0 d : Dev} {n : Nat} {p : Packet} {dropped : Bool} (hk : d0.Kept ps d) (hsub : ∀ p ∈ ([.regs, .mem, .wire, .line, .ctxs, .endpoints, .pool, .egress, .journal] : List Part), p ∈ ps) :
    d0.Kept ps (Dev.sendMirrors d n p dropped) := by
  refine hk.then (qs := [.regs, .mem, .wire, .line, .ctxs, .endpoints, .pool, .egress, .journal]) ?_ hsub
  unfold Dev.sendMirrors
  try dsimp only
  repeat' first
    | with_reducible exact Kept.refl _ _
    | decide
    | with_reducible apply Kept.sendMirror
    | with_reducible refine Kept.of_fst_eq (by assumption) ?_
    | split
    | dsimp only

/-- What `writeChain` can change. -/
theorem Kept.writeChain {ps : List Part} {d0 d : Dev} {x1 : List Nat} {x2 : List Byte} (hk : d0.Kept ps d) (hsub : ∀ p ∈ ([.mem] : List Part), p ∈ ps) :
    d0.Kept ps (Dev.writeChain d x1 x2) := by
  refine hk.then (qs := [.mem]) ?_ hsub
  clear hk
  induction x1 generalizing d x2 with
  | nil =>
    unfold Dev.writeChain
    try dsimp only
    repeat' first
      | with_reducible exact Kept.refl _ _
      | decide
      | with_reducible apply Kept.setBytes
      | with_reducible refine Kept.of_fst_eq (by assumption) ?_
      | split
      | dsimp only
  | cons a t ih =>
    replace ih : ∀ {d1 d : Dev} {x2 : List Byte}, d1.Kept [.mem] d → d1.Kept [.mem] (Dev.writeChain d t x2) :=
      fun h => h.then ih (fun _ => id)
    unfold Dev.writeChain
    try dsimp only
    repeat' first
      | with_reducible exact Kept.refl _ _
      | decide
      | with_reducible apply ih
      | with_reducible apply Kept.setBytes
      | with_reducible refine Kept.of_fst_eq (by assumption) ?_
      | split
      | dsimp only

/-- What `makeHead` can change. -/
theorem Kept.makeHead {ps : List Part} {d0 d : Dev} {r : Region} {p : Packet} {entries : List Nat} {many : Bool} (hk : d0.Kept ps d) (hsub : ∀ p ∈ ([.regs, .mem, .wire, .line, .ctxs, .endpoints, .pool, .egress, .journal] : List Part), p ∈ ps) :
    d0.Kept ps (Dev.makeHead d r p entries many).1 := by
  refine hk.then (qs := [.regs, .mem, .wire, .line, .ctxs, .endpoints, .pool, .egress, .journal]) ?_ hsub
  unfold Dev.makeHead
  try dsimp only
  repeat' first
    | with_reducible exact Kept.refl _ _
    | decide
    | with_reducible apply Kept.writeChain
    | with_reducible apply Kept.addref
    | with_reducible apply Kept.freeWalk
    | with_reducible apply Kept.alloc
    | with_reducible apply Kept.setDesc
    | with_reducible refine Kept.of_fst_eq (by assumption) ?_
    | split
    | dsimp only

/-- What `noteRequest` can change. -/
theorem Kept.noteRequest {ps : List Part} {d0 d : Dev} {r : Region} {kind index : Nat} (hk : d0.Kept ps d) (hsub : ∀ p ∈ ([.thody, .ledger] : List Part), p ∈ ps) :
    d0.Kept ps (Dev.noteRequest d r kind index) := by
  refine hk.then (qs := [.thody, .ledger]) ?_ hsub
  unfold Dev.noteRequest
  try dsimp only
  repeat' first
    | with_reducible exact Kept.refl _ _
    | decide
    | with_reducible apply Kept.modR
    | (intro g p hp; cases p <;> first | trivial | rfl | exact absurd (by decide) hp)
    | with_reducible apply Kept.set_thody
    | with_reducible refine Kept.of_fst_eq (by assumption) ?_
    | split
    | dsimp only

/-- What `setQueue` can change. -/
theorem Kept.setQueue {ps : List Part} {d0 d : Dev} {e : Region} {q : Nat} {l : List QueueEntry} (hk : d0.Kept ps d) (hsub : ∀ p ∈ ([.regs, .egress] : List Part), p ∈ ps) :
    d0.Kept ps (Dev.setQueue d e q l) := by
  refine hk.then (qs := [.regs, .egress]) ?_ hsub
  unfold Dev.setQueue
  try dsimp only
  repeat' first
    | with_reducible exact Kept.refl _ _
    | decide
    | with_reducible apply Kept.ite
    | with_reducible apply Kept.modEgress
    | with_reducible apply Kept.setFld
    | with_reducible refine Kept.of_fst_eq (by assumption) ?_
    | split
    | dsimp only

/-- What `modCopyout` can change. -/
theorem Kept.modCopyout {ps : List Part} {d0 d : Dev} {r : Region} {stamp : Stamp} {copy : Nat} {f : Copyout → Option Copyout} (hk : d0.Kept ps d) (hsub : ∀ p ∈ ([.egress] : List Part), p ∈ ps) :
    d0.Kept ps (Dev.modCopyout d r stamp copy f) := by
  refine hk.then (qs := [.egress]) ?_ hsub
  unfold Dev.modCopyout
  try dsimp only
  repeat' first
    | with_reducible exact Kept.refl _ _
    | decide
    | with_reducible apply Kept.ite
    | with_reducible apply Kept.modEgress
    | with_reducible refine Kept.of_fst_eq (by assumption) ?_
    | split
    | dsimp only

/-- What `freeOrig` can change. -/
theorem Kept.freeOrig {ps : List Part} {d0 d : Dev} {r : Region} {p : Packet} (hk : d0.Kept ps d) (hsub : ∀ p ∈ ([.regs, .mem, .wire, .line, .ctxs, .endpoints, .pool, .egress, .journal] : List Part), p ∈ ps) :
    d0.Kept ps (Dev.freeOrig d r p) := by
  refine hk.then (qs := [.regs, .mem, .wire, .line, .ctxs, .endpoints, .pool, .egress, .journal]) ?_ hsub
  unfold Dev.freeOrig
  try dsimp only
  repeat' first
    | with_reducible exact Kept.refl _ _
    | decide
    | with_reducible apply Kept.freePkt
    | with_reducible refine Kept.of_fst_eq (by assumption) ?_
    | split
    | dsimp only

/-- What `copyDone` can change. -/
theorem Kept.copyDone {ps : List Part} {d0 d : Dev} {r : Region} {n : Nat} (hk : d0.Kept ps d) (hsub : ∀ p ∈ ([.regs, .mem, .wire, .line, .ctxs, .packets, .endpoints, .pool, .egress, .journal] : List Part), p ∈ ps) :
    d0.Kept ps (Dev.copyDone d r n) := by
  refine hk.then (qs := [.regs, .mem, .wire, .line, .ctxs, .packets, .endpoints, .pool, .egress, .journal]) ?_ hsub
  unfold Dev.copyDone
  try dsimp only
  repeat' first
    | with_reducible exact Kept.refl _ _
    | decide
    | with_reducible apply Kept.ite
    | with_reducible apply Kept.freeOrig
    | with_reducible apply Kept.setPkt
    | with_reducible apply Kept.freePkt
    | with_reducible refine Kept.of_fst_eq (by assumption) ?_
    | split
    | dsimp only

/-- What `settle` can change. -/
theorem Kept.settle {ps : List Part} {d0 d : Dev} {r : Region} {stamp : Stamp} {copy requester : Nat} (hk : d0.Kept ps d) (hsub : ∀ p ∈ ([.regs, .mem, .wire, .line, .ctxs, .packets, .endpoints, .pool, .egress, .journal] : List Part), p ∈ ps) :
    d0.Kept ps (Dev.settle d r stamp copy requester) := by
  refine hk.then (qs := [.regs, .mem, .wire, .line, .ctxs, .packets, .endpoints, .pool, .egress, .journal]) ?_ hsub
  unfold Dev.settle
  try dsimp only
  repeat' first
    | with_reducible exact Kept.refl _ _
    | decide
    | with_reducible apply Kept.ite
    | with_reducible apply Kept.copyDone
    | with_reducible apply Kept.modCopyout
    | with_reducible apply Kept.freePkt
    | with_reducible apply Kept.addref
    | with_reducible apply Kept.handover
    | with_reducible apply Kept.deref
    | with_reducible refine Kept.of_fst_eq (by assumption) ?_
    | split
    | dsimp only

/-- What `noteOutcome` can change. -/
theorem Kept.noteOutcome {ps : List Part} {d0 d : Dev} {r : Region} {stamp : Stamp} {copy outcome requester : Nat} (hk : d0.Kept ps d) (hsub : ∀ p ∈ ([.regs, .mem, .wire, .line, .ctxs, .packets, .endpoints, .commit, .pool, .egress, .journal] : List Part), p ∈ ps) :
    d0.Kept ps (Dev.noteOutcome d r stamp copy outcome requester) := by
  refine hk.then (qs := [.regs, .mem, .wire, .line, .ctxs, .packets, .endpoints, .commit, .pool, .egress, .journal]) ?_ hsub
  unfold Dev.noteOutcome
  try dsimp only
  repeat' first
    | with_reducible exact Kept.refl _ _
    | decide
    | with_reducible apply Kept.settle
    | with_reducible apply Kept.modCopyout
    | with_reducible apply Kept.outcome
    | with_reducible refine Kept.of_fst_eq (by assumption) ?_
    | split
    | dsimp only

/-- What `reportOutcome` can change. -/
theorem Kept.reportOutcome {ps : List Part} {d0 d : Dev} {e : Region} {rr : ReleaseRec} {outcome requester : Nat} (hk : d0.Kept ps d) (hsub : ∀ p ∈ ([.regs, .mem, .wire, .line, .ctxs, .packets, .endpoints, .commit, .pool, .egress, .journal] : List Part), p ∈ ps) :
    d0.Kept ps (Dev.reportOutcome d e rr outcome requester) := by
  refine hk.then (qs := [.regs, .mem, .wire, .line, .ctxs, .packets, .endpoints, .commit, .pool, .egress, .journal]) ?_ hsub
  unfold Dev.reportOutcome
  try dsimp only
  repeat' first
    | with_reducible exact Kept.refl _ _
    | decide
    | with_reducible apply Kept.ite
    | with_reducible apply Kept.noteOutcome
    | with_reducible apply Kept.outcome
    | with_reducible apply Kept.send
    | with_reducible refine Kept.of_fst_eq (by assumption) ?_
    | split
    | dsimp only

/-- What `refuse` can change. -/
theorem Kept.refuse {ps : List Part} {d0 d : Dev} {e : Region} {rr : ReleaseRec} {code : Nat} (hk : d0.Kept ps d) (hsub : ∀ p ∈ ([.regs, .mem, .wire, .line, .ctxs, .packets, .endpoints, .commit, .pool, .egress, .journal] : List Part), p ∈ ps) :
    d0.Kept ps (Dev.refuse d e rr code) := by
  refine hk.then (qs := [.regs, .mem, .wire, .line, .ctxs, .packets, .endpoints, .commit, .pool, .egress, .journal]) ?_ hsub
  unfold Dev.refuse
  try dsimp only
  repeat' first
    | with_reducible exact Kept.refl _ _
    | decide
    | with_reducible apply Kept.reportOutcome
    | with_reducible apply Kept.dropCount
    | with_reducible refine Kept.of_fst_eq (by assumption) ?_
    | split
    | dsimp only

/-- What `enqueueHost` can change. -/
theorem Kept.enqueueHost {ps : List Part} {d0 d : Dev} {e : Region} {rr : ReleaseRec} (hk : d0.Kept ps d) (hsub : ∀ p ∈ ([.regs, .mem, .wire, .line, .ctxs, .packets, .endpoints, .commit, .pool, .egress, .journal] : List Part), p ∈ ps) :
    d0.Kept ps (Dev.enqueueHost d e rr) := by
  refine hk.then (qs := [.regs, .mem, .wire, .line, .ctxs, .packets, .endpoints, .commit, .pool, .egress, .journal]) ?_ hsub
  unfold Dev.enqueueHost
  try dsimp only
  repeat' first
    | with_reducible exact Kept.refl _ _
    | decide
    | with_reducible apply Kept.ite
    | with_reducible apply Kept.refuse
    | with_reducible apply Kept.reportOutcome
    | with_reducible apply Kept.modEp
    | with_reducible apply Kept.raise
    | with_reducible refine Kept.of_fst_eq (by assumption) ?_
    | split
    | dsimp only

/-- What `enqueue` can change. -/
theorem Kept.enqueue {ps : List Part} {d0 d : Dev} {e : Region} {rr : ReleaseRec} (hk : d0.Kept ps d) (hsub : ∀ p ∈ ([.regs, .mem, .wire, .line, .ctxs, .packets, .endpoints, .commit, .pool, .egress, .journal] : List Part), p ∈ ps) :
    d0.Kept ps (Dev.enqueue d e rr) := by
  refine hk.then (qs := [.regs, .mem, .wire, .line, .ctxs, .packets, .endpoints, .commit, .pool, .egress, .journal]) ?_ hsub
  unfold Dev.enqueue
  try dsimp only
  repeat' first
    | with_reducible exact Kept.refl _ _
    | decide
    | with_reducible apply Kept.ite
    | with_reducible apply Kept.enqueueHost
    | with_reducible apply Kept.refuse
    | with_reducible apply Kept.reportOutcome
    | with_reducible apply Kept.setQueue
    | with_reducible apply Kept.modEgress
    | with_reducible apply Kept.err
    | with_reducible apply Kept.event
    | with_reducible apply Kept.setOn
    | with_reducible refine Kept.of_fst_eq (by assumption) ?_
    | split
    | dsimp only

/-- What `closeList` can change. -/
theorem Kept.closeList {ps : List Part} {d0 d : Dev} {e : Region} {shutter : Nat} (hk : d0.Kept ps d) (hsub : ∀ p ∈ ([.regs, .mem, .wire, .line, .ctxs, .packets, .endpoints, .commit, .pool, .egress, .journal] : List Part), p ∈ ps) :
    d0.Kept ps (Dev.closeList d e shutter) := by
  refine hk.then (qs := [.regs, .mem, .wire, .line, .ctxs, .packets, .endpoints, .commit, .pool, .egress, .journal]) ?_ hsub
  unfold Dev.closeList
  try dsimp only
  repeat' first
    | with_reducible exact Kept.refl _ _
    | decide
    | with_reducible apply Kept.each
    | with_reducible apply Kept.enqueue
    | with_reducible apply Kept.modEgress
    | with_reducible apply Kept.setFld
    | (intro _)
    | with_reducible refine Kept.of_fst_eq (by assumption) ?_
    | split
    | dsimp only

/-- What `releaseRecords` can change. -/
theorem Kept.releaseRecords {ps : List Part} {d0 d : Dev} {n : Nat} {stamp : Stamp} (hk : d0.Kept ps d) (hsub : ∀ p ∈ ([.regs, .mem, .wire, .line, .ctxs, .packets, .endpoints, .commit, .pool, .egress, .journal] : List Part), p ∈ ps) :
    d0.Kept ps (Dev.releaseRecords d n stamp) := by
  refine hk.then (qs := [.regs, .mem, .wire, .line, .ctxs, .packets, .endpoints, .commit, .pool, .egress, .journal]) ?_ hsub
  unfold Dev.releaseRecords
  try dsimp only
  repeat' first
    | with_reducible exact Kept.refl _ _
    | decide
    | with_reducible apply Kept.each
    | with_reducible apply Kept.foldl
    | with_reducible apply Kept.foldl_fst
    | with_reducible apply Kept.enqueue
    | with_reducible apply Kept.modEgress
    | (intro _)
    | with_reducible refine Kept.of_fst_eq (by assumption) ?_
    | split
    | dsimp only

/-- What `endDropped` can change. -/
theorem Kept.endDropped {ps : List Part} {d0 d : Dev} {n : Nat} {p : Packet} (hk : d0.Kept ps d) (hsub : ∀ p ∈ ([.regs, .mem, .wire, .line, .ctxs, .packets, .endpoints, .commit, .pool, .egress, .journal] : List Part), p ∈ ps) :
    d0.Kept ps (Dev.endDropped d n p) := by
  refine hk.then (qs := [.regs, .mem, .wire, .line, .ctxs, .packets, .endpoints, .commit, .pool, .egress, .journal]) ?_ hsub
  unfold Dev.endDropped
  try dsimp only
  repeat' first
    | with_reducible exact Kept.refl _ _
    | decide
    | with_reducible apply Kept.ite
    | with_reducible apply Kept.releaseRecords
    | with_reducible apply Kept.freeOrig
    | with_reducible apply Kept.sendMirrors
    | with_reducible apply Kept.leaveFlight
    | with_reducible apply Kept.setPkt
    | with_reducible apply Kept.freePkt
    | with_reducible refine Kept.of_fst_eq (by assumption) ?_
    | split
    | dsimp only

/-- What `dropPacket` can change. -/
theorem Kept.dropPacket {ps : List Part} {d0 d : Dev} {n code : Nat} (hk : d0.Kept ps d) (hsub : ∀ p ∈ ([.regs, .mem, .wire, .line, .ctxs, .packets, .endpoints, .commit, .pool, .egress, .dispatch, .journal] : List Part), p ∈ ps) :
    d0.Kept ps (Dev.dropPacket d n code) := by
  refine hk.then (qs := [.regs, .mem, .wire, .line, .ctxs, .packets, .endpoints, .commit, .pool, .egress, .dispatch, .journal]) ?_ hsub
  unfold Dev.dropPacket
  try dsimp only
  repeat' first
    | with_reducible exact Kept.refl _ _
    | decide
    | with_reducible apply Kept.endDropped
    | with_reducible apply Kept.unqueue
    | with_reducible apply Kept.freeEntry
    | with_reducible apply Kept.dropCount
    | with_reducible refine Kept.of_fst_eq (by assumption) ?_
    | split
    | dsimp only

/-- What `rewriteInvalid` can change. -/
theorem Kept.rewriteInvalid {ps : List Part} {d0 d : Dev} {r : Region} (hk : d0.Kept ps d) (hsub : ∀ p ∈ ([.regs, .wire, .ctxs] : List Part), p ∈ ps) :
    d0.Kept ps (Dev.rewriteInvalid d r) := by
  refine hk.then (qs := [.regs, .wire, .ctxs]) ?_ hsub
  unfold Dev.rewriteInvalid
  try dsimp only
  repeat' first
    | with_reducible exact Kept.refl _ _
    | decide
    | with_reducible apply Kept.err
    | with_reducible refine Kept.of_fst_eq (by assumption) ?_
    | split
    | dsimp only

/-- What `sendCopy` can change. -/
theorem Kept.sendCopy {ps : List Part} {d0 d : Dev} {n : Nat} {p : Packet} {entries : List Nat} {host : Bool} {meta0 : Nat} {many : Bool} {c : Nat × Nat} (hk : d0.Kept ps d) (hsub : ∀ p ∈ ([.regs, .wire, .ctxs, .egress] : List Part), p ∈ ps) :
    d0.Kept ps (Dev.sendCopy d n p entries host meta0 many c).1 := by
  refine hk.then (qs := [.regs, .wire, .ctxs, .egress]) ?_ hsub
  unfold Dev.sendCopy
  try dsimp only
  repeat' first
    | with_reducible exact Kept.refl _ _
    | decide
    | with_reducible apply Kept.ite
    | with_reducible apply Kept.ite_fst
    | with_reducible apply Kept.when
    | with_reducible apply Kept.handRecord
    | with_reducible apply Kept.listFull
    | with_reducible apply Kept.dropCount
    | with_reducible apply Kept.modEgress
    | (intro _)
    | with_reducible refine Kept.of_fst_eq (by assumption) ?_
    | split
    | dsimp only

/-- What `releaseNow` can change. -/
theorem Kept.releaseNow {ps : List Part} {d0 d : Dev} {n : Nat} (hk : d0.Kept ps d) (hsub : ∀ p ∈ ([.regs, .mem, .wire, .line, .ctxs, .packets, .endpoints, .commit, .pool, .egress, .journal] : List Part), p ∈ ps) :
    d0.Kept ps (Dev.releaseNow d n) := by
  refine hk.then (qs := [.regs, .mem, .wire, .line, .ctxs, .packets, .endpoints, .commit, .pool, .egress, .journal]) ?_ hsub
  unfold Dev.releaseNow
  try dsimp only
  repeat' first
    | with_reducible exact Kept.refl _ _
    | decide
    | with_reducible apply Kept.releaseRecords
    | with_reducible apply Kept.leaveFlight
    | with_reducible refine Kept.of_fst_eq (by assumption) ?_
    | split
    | dsimp only

/-- What `forward` can change. -/
theorem Kept.forward {ps : List Part} {d0 d : Dev} {n : Nat} {dest : Nat} {entries : List Nat} {meta0 repl : Nat} (hk : d0.Kept ps d) (hsub : ∀ p ∈ ([.regs, .mem, .wire, .line, .ctxs, .packets, .endpoints, .commit, .pool, .egress, .dispatch, .journal] : List Part), p ∈ ps) :
    d0.Kept ps (Dev.forward d n dest entries meta0 repl) := by
  refine hk.then (qs := [.regs, .mem, .wire, .line, .ctxs, .packets, .endpoints, .commit, .pool, .egress, .dispatch, .journal]) ?_ hsub
  unfold Dev.forward
  try dsimp only
  repeat' first
    | with_reducible exact Kept.refl _ _
    | decide
    | with_reducible apply Kept.ite
    | with_reducible apply Kept.foldl
    | with_reducible apply Kept.foldl_fst
    | with_reducible apply Kept.releaseNow
    | with_reducible apply Kept.sendCopy
    | with_reducible apply Kept.rewriteInvalid
    | with_reducible apply Kept.dropPacket
    | with_reducible apply Kept.endDropped
    | with_reducible apply Kept.sendMirrors
    | with_reducible apply Kept.freeEntry
    | with_reducible apply Kept.modPkt
    | (intro _)
    | with_reducible refine Kept.of_fst_eq (by assumption) ?_
    | split
    | dsimp only

/-- What `recirculate` can change. -/
theorem Kept.recirculate {ps : List Part} {d0 d : Dev} {n : Nat} {entries : List Nat} (hk : d0.Kept ps d) (hsub : ∀ p ∈ ([.regs, .mem, .wire, .line, .ctxs, .packets, .endpoints, .commit, .pool, .egress, .dispatch, .journal] : List Part), p ∈ ps) :
    d0.Kept ps (Dev.recirculate d n entries) := by
  refine hk.then (qs := [.regs, .mem, .wire, .line, .ctxs, .packets, .endpoints, .commit, .pool, .egress, .dispatch, .journal]) ?_ hsub
  unfold Dev.recirculate
  try dsimp only
  repeat' first
    | with_reducible exact Kept.refl _ _
    | decide
    | with_reducible apply Kept.ite
    | with_reducible apply Kept.rewriteInvalid
    | with_reducible apply Kept.dropPacket
    | with_reducible apply Kept.listFull
    | with_reducible apply Kept.freeEntry
    | with_reducible apply Kept.modPkt
    | with_reducible apply Kept.event
    | with_reducible apply Kept.addSat
    | with_reducible refine Kept.of_fst_eq (by assumption) ?_
    | split
    | dsimp only

/-- What `shareRefusal` can change. -/
theorem Kept.shareRefusal {ps : List Part} {d0 d : Dev} {n : Nat} (hk : d0.Kept ps d) (hsub : ∀ p ∈ ([.regs, .mem, .wire, .line, .ctxs, .packets, .endpoints, .commit, .pool, .egress, .dispatch, .journal] : List Part), p ∈ ps) :
    d0.Kept ps (Dev.shareRefusal d n) := by
  refine hk.then (qs := [.regs, .mem, .wire, .line, .ctxs, .packets, .endpoints, .commit, .pool, .egress, .dispatch, .journal]) ?_ hsub
  unfold Dev.shareRefusal
  try dsimp only
  repeat' first
    | with_reducible exact Kept.refl _ _
    | decide
    | with_reducible apply Kept.dropPacket
    | with_reducible apply Kept.event
    | with_reducible apply Kept.addSat
    | with_reducible refine Kept.of_fst_eq (by assumption) ?_
    | split
    | dsimp only

end Sys2Proof.Machine.Dev
end

