-- ==== Sys2Proof/Laws/FrontKept.lean ====
section
/-!
SUPPORT. What each operation of Machine/Front.lean can change at most, and that it keeps the canonical forms.
-/

namespace Sys2Proof.Machine.Dev

/-- What `takeFrame` can change. -/
theorem Kept.takeFrame {ps : List Part} {d0 d : Dev} {r : Region} {l n : Nat} {d' : Dev} {y} (heq : Dev.takeFrame d r l n = some (d', y))
    (hk : d0.Kept ps d) (hsub : ∀ p ∈ ([.regs, .wire, .ctxs, .pool] : List Part), p ∈ ps) : d0.Kept ps d' := by
  refine hk.then (qs := [.regs, .wire, .ctxs, .pool]) ?_ hsub
  have key : ∀ {e e' : Dev} {pool n : Nat} {x}, d.Kept [.regs, .wire, .ctxs, .pool] e → e.takeStitches r l pool n = some (e', x) →
      d.Kept [.regs, .wire, .ctxs, .pool] e' := fun h heq => Kept.takeStitches heq h (by decide)
  unfold Dev.takeFrame at heq
  dsimp only at heq
  generalize (if (decide (l < 8) && d.on (RGN_ADM_CFG_tail_deep r.val l) && !d.stackFailed r.val) = true then
      min n (d.fld (RGN_ADM_CFG_head_stitches r.val l)) else n) = k at heq
  split at heq
  · cases heq
  · rename_i d1 heads h1
    have k1 := key (.refl _ d) h1
    split at heq
    · cases heq
      exact k1
    · split at heq
      · rename_i h3
        cases heq
        exact key k1 h3
      · obtain ⟨x, hx, hx2⟩ := Option.map_eq_some_iff.1 heq
        obtain ⟨x1, x2⟩ := x
        cases hx2
        exact key (k1.err (by decide)) hx

/-- What `takeIn` can change. -/
theorem Kept.takeIn {ps : List Part} {d0 d : Dev} {r : Region} {l cls len : Nat} (hk : d0.Kept ps d)
    (hsub : ∀ p ∈ ([.regs, .wire, .ctxs, .pool] : List Part), p ∈ ps) : d0.Kept ps (Dev.takeIn d r l cls len).1 := by
  refine hk.then (qs := [.regs, .wire, .ctxs, .pool]) ?_ hsub
  unfold Dev.takeIn
  dsimp only
  split
  · exact .refl _ _
  · split
    · exact .refl _ _
    · rename_i d2 is h2
      exact (((Kept.takeFrame h2 (.refl _ d) (by decide)).charge (by decide)).linkChain (by decide)).event (by decide)

/-- What `stampPacket` can change. -/
theorem Kept.stampPacket {ps : List Part} {d0 d : Dev} {r : Region} {l port tc head len time ns sec : Nat} {reserved : Bool} (hk : d0.Kept ps d) (hsub : ∀ p ∈ ([.regs, .mem, .wire, .line, .ctxs, .packets, .nextPacket, .endpoints, .pool, .front, .dispatch, .journal] : List Part), p ∈ ps) :
    d0.Kept ps (Dev.stampPacket d r l port tc head len time ns sec reserved) := by
  refine hk.then (qs := [.regs, .mem, .wire, .line, .ctxs, .packets, .nextPacket, .endpoints, .pool, .front, .dispatch, .journal]) ?_ hsub
  unfold Dev.stampPacket
  try dsimp only
  repeat' first
    | with_reducible exact Kept.refl _ _
    | decide
    | with_reducible apply Kept.ite
    | with_reducible apply Kept.pressure
    | with_reducible apply Kept.modDsp
    | with_reducible apply Kept.setPkt
    | with_reducible apply Kept.modFront
    | with_reducible apply Kept.handover
    | with_reducible apply Kept.event
    | with_reducible apply Kept.setFld
    | with_reducible apply Kept.set_nextPacket
    | with_reducible refine Kept.of_fst_eq (by assumption) ?_
    | split
    | dsimp only

/-- What `admitFrame` can change. -/
theorem Kept.admitFrame {ps : List Part} {d0 d : Dev} {r : Region} {p : Nat} {frame : List Byte} {good : Bool} {time ns sec : Nat} (hk : d0.Kept ps d) (hsub : ∀ p ∈ ([.regs, .mem, .wire, .line, .ctxs, .packets, .nextPacket, .endpoints, .pool, .egress, .front, .dispatch, .journal] : List Part), p ∈ ps) :
    d0.Kept ps (Dev.admitFrame d r p frame good time ns sec) := by
  refine hk.then (qs := [.regs, .mem, .wire, .line, .ctxs, .packets, .nextPacket, .endpoints, .pool, .egress, .front, .dispatch, .journal]) ?_ hsub
  unfold Dev.admitFrame
  try dsimp only
  repeat' first
    | with_reducible exact Kept.refl _ _
    | decide
    | with_reducible apply Kept.ite
    | with_reducible apply Kept.stampPacket
    | with_reducible apply Kept.takeIn
    | with_reducible apply Kept.writeChain
    | with_reducible apply Kept.dropCount
    | with_reducible apply Kept.free'
    | with_reducible apply Kept.pfcCheck
    | with_reducible refine Kept.of_fst_eq (by assumption) ?_
    | split
    | dsimp only

/-- What `countTo` can change. -/
theorem Kept.countTo {ps : List Part} {d0 d : Dev} {f : Fld} {r : Region} {src : Nat} (hk : d0.Kept ps d) (hsub : ∀ p ∈ ([.regs, .wire, .ctxs] : List Part), p ∈ ps) :
    d0.Kept ps (Dev.countTo d f r src) := by
  refine hk.then (qs := [.regs, .wire, .ctxs]) ?_ hsub
  unfold Dev.countTo
  try dsimp only
  repeat' first
    | with_reducible exact Kept.refl _ _
    | decide
    | with_reducible apply Kept.ite
    | with_reducible apply Kept.raise
    | with_reducible apply Kept.addSat
    | with_reducible refine Kept.of_fst_eq (by assumption) ?_
    | split
    | dsimp only

/-- What `countFlags` can change. -/
theorem Kept.countFlags {ps : List Part} {d0 d : Dev} {r : Region} {w : Walk} (hk : d0.Kept ps d) (hsub : ∀ p ∈ ([.regs, .wire, .ctxs] : List Part), p ∈ ps) :
    d0.Kept ps (Dev.countFlags d r w) := by
  refine hk.then (qs := [.regs, .wire, .ctxs]) ?_ hsub
  unfold Dev.countFlags
  try dsimp only
  repeat' first
    | with_reducible exact Kept.refl _ _
    | decide
    | with_reducible apply Kept.foldl
    | with_reducible apply Kept.foldl_fst
    | with_reducible apply Kept.countTo
    | (intro _)
    | with_reducible refine Kept.of_fst_eq (by assumption) ?_
    | split
    | dsimp only

/-- What `enqueueTask` can change. -/
theorem Kept.enqueueTask {ps : List Part} {d0 d : Dev} {n : Nat} (hk : d0.Kept ps d) (hsub : ∀ p ∈ ([.regs, .wire, .ctxs, .packets, .dispatch] : List Part), p ∈ ps) :
    d0.Kept ps (Dev.enqueueTask d n) := by
  refine hk.then (qs := [.regs, .wire, .ctxs, .packets, .dispatch]) ?_ hsub
  unfold Dev.enqueueTask
  try dsimp only
  repeat' first
    | with_reducible exact Kept.refl _ _
    | decide
    | with_reducible apply Kept.ite
    | with_reducible apply Kept.pressure
    | with_reducible apply Kept.modDsp
    | with_reducible apply Kept.modPkt
    | with_reducible apply Kept.err
    | with_reducible apply Kept.event
    | with_reducible apply Kept.setFld
    | with_reducible apply Kept.maxFld
    | with_reducible refine Kept.of_fst_eq (by assumption) ?_
    | split
    | dsimp only

/-- What `endPass` can change. -/
theorem Kept.endPass {ps : List Part} {d0 d : Dev} {n : Nat} (hk : d0.Kept ps d) (hsub : ∀ p ∈ ([.regs, .mem, .wire, .line, .ctxs, .packets, .endpoints, .commit, .pool, .egress, .dispatch, .journal] : List Part), p ∈ ps) :
    d0.Kept ps (Dev.endPass d n) := by
  refine hk.then (qs := [.regs, .mem, .wire, .line, .ctxs, .packets, .endpoints, .commit, .pool, .egress, .dispatch, .journal]) ?_ hsub
  unfold Dev.endPass
  try dsimp only
  repeat' first
    | with_reducible exact Kept.refl _ _
    | decide
    | with_reducible apply Kept.ite
    | with_reducible apply Kept.enqueueTask
    | with_reducible apply Kept.recirculate
    | with_reducible apply Kept.dropPacket
    | with_reducible refine Kept.of_fst_eq (by assumption) ?_
    | split
    | dsimp only

/-- What `classifyPass` can change. -/
theorem Kept.classifyPass {ps : List Part} {d0 d : Dev} {n : Nat} {p : Packet} {r : Region} {frame : List Byte} {parse : List Byte} {first : Bool} (hk : d0.Kept ps d) (hsub : ∀ p ∈ ([.regs, .mem, .wire, .line, .ctxs, .packets, .endpoints, .commit, .pool, .egress, .dispatch, .journal] : List Part), p ∈ ps) :
    d0.Kept ps (Dev.classifyPass d n p r frame parse first) := by
  refine hk.then (qs := [.regs, .mem, .wire, .line, .ctxs, .packets, .endpoints, .commit, .pool, .egress, .dispatch, .journal]) ?_ hsub
  unfold Dev.classifyPass
  try dsimp only
  repeat' first
    | with_reducible exact Kept.refl _ _
    | decide
    | with_reducible apply Kept.ite
    | with_reducible apply Kept.foldl
    | with_reducible apply Kept.foldl_fst
    | with_reducible apply Kept.endPass
    | with_reducible apply Kept.countTo
    | with_reducible apply Kept.dropPacket
    | with_reducible apply Kept.setPkt
    | with_reducible apply Kept.passView
    | with_reducible apply Kept.addref
    | with_reducible apply Kept.err
    | with_reducible apply Kept.setOn
    | (intro _)
    | with_reducible refine Kept.of_fst_eq (by assumption) ?_
    | split
    | dsimp only

/-- What `runPass` can change. -/
theorem Kept.runPass {ps : List Part} {d0 d : Dev} {n : Nat} {p : Packet} {first : Bool} (hk : d0.Kept ps d) (hsub : ∀ p ∈ ([.regs, .mem, .wire, .line, .ctxs, .packets, .endpoints, .commit, .pool, .egress, .dispatch, .journal] : List Part), p ∈ ps) :
    d0.Kept ps (Dev.runPass d n p first) := by
  refine hk.then (qs := [.regs, .mem, .wire, .line, .ctxs, .packets, .endpoints, .commit, .pool, .egress, .dispatch, .journal]) ?_ hsub
  unfold Dev.runPass
  try dsimp only
  repeat' first
    | with_reducible exact Kept.refl _ _
    | decide
    | with_reducible apply Kept.ite
    | with_reducible apply Kept.classifyPass
    | with_reducible apply Kept.countFlags
    | with_reducible apply Kept.dropPacket
    | with_reducible apply Kept.setPkt
    | with_reducible apply Kept.passView
    | with_reducible apply Kept.err
    | with_reducible apply Kept.event
    | with_reducible refine Kept.of_fst_eq (by assumption) ?_
    | split
    | dsimp only

/-- What `setTokens` can change. -/
theorem Kept.setTokens {ps : List Part} {d0 d : Dev} {r : Region} {l v : Nat} (hk : d0.Kept ps d) (hsub : ∀ p ∈ ([.tables] : List Part), p ∈ ps) :
    d0.Kept ps (Dev.setTokens d r l v) := by
  refine hk.then (qs := [.tables]) ?_ hsub
  unfold Dev.setTokens
  try dsimp only
  repeat' first
    | with_reducible exact Kept.refl _ _
    | decide
    | with_reducible apply Kept.modTables
    | with_reducible refine Kept.of_fst_eq (by assumption) ?_
    | split
    | dsimp only

/-- What `hit` can change. -/
theorem Kept.hit {ps : List Part} {d0 d : Dev} {r : Region} {n : Nat} {slot : Nat} (hk : d0.Kept ps d) (hsub : ∀ p ∈ ([.wire, .commit, .tables] : List Part), p ∈ ps) :
    d0.Kept ps (Dev.hit d r n slot) := by
  refine hk.then (qs := [.wire, .commit, .tables]) ?_ hsub
  unfold Dev.hit
  try dsimp only
  repeat' first
    | with_reducible exact Kept.refl _ _
    | decide
    | with_reducible apply Kept.ite
    | with_reducible apply Kept.hitWins
    | with_reducible apply Kept.recordHit
    | with_reducible refine Kept.of_fst_eq (by assumption) ?_
    | split
    | dsimp only

/-- What `learn` can change. -/
theorem Kept.learn {ps : List Part} {d0 d : Dev} {r : Region} {n : Nat} {key : List Byte} {x : LookupResult} {p : Packet} {control : Nat} (hk : d0.Kept ps d) (hsub : ∀ p ∈ ([.regs, .wire, .ctxs, .commit, .tables] : List Part), p ∈ ps) :
    d0.Kept ps (Dev.learn d r n key x p control).1 := by
  refine hk.then (qs := [.regs, .wire, .ctxs, .commit, .tables]) ?_ hsub
  unfold Dev.learn
  try dsimp only
  repeat' first
    | with_reducible exact Kept.refl _ _
    | decide
    | with_reducible apply Kept.ite
    | with_reducible apply Kept.ite_fst
    | with_reducible apply Kept.hit
    | with_reducible apply Kept.setTokens
    | with_reducible apply Kept.stage
    | with_reducible apply Kept.flood
    | with_reducible refine Kept.of_fst_eq (by assumption) ?_
    | split
    | dsimp only

/-- What `countOutcome` can change. -/
theorem Kept.countOutcome {ps : List Part} {d0 d : Dev} {r : Region} {l out : Nat} (hk : d0.Kept ps d) (hsub : ∀ p ∈ ([.regs, .wire, .ctxs] : List Part), p ∈ ps) :
    d0.Kept ps (Dev.countOutcome d r l out) := by
  refine hk.then (qs := [.regs, .wire, .ctxs]) ?_ hsub
  unfold Dev.countOutcome
  try dsimp only
  repeat' first
    | with_reducible exact Kept.refl _ _
    | decide
    | with_reducible apply Kept.countLearn
    | with_reducible apply Kept.event
    | with_reducible refine Kept.of_fst_eq (by assumption) ?_
    | split
    | dsimp only

/-- What `setResult` can change. -/
theorem Kept.setResult {ps : List Part} {d0 d : Dev} {n slot table : Nat} {b : List Byte} (hk : d0.Kept ps d) (hsub : ∀ p ∈ ([.packets] : List Part), p ∈ ps) :
    d0.Kept ps (Dev.setResult d n slot table b) := by
  refine hk.then (qs := [.packets]) ?_ hsub
  unfold Dev.setResult
  try dsimp only
  repeat' first
    | with_reducible exact Kept.refl _ _
    | decide
    | with_reducible apply Kept.ite
    | with_reducible apply Kept.modPkt
    | with_reducible refine Kept.of_fst_eq (by assumption) ?_
    | split
    | dsimp only

/-- What `floodOn` can change. -/
theorem Kept.floodOn {ps : List Part} {d0 d : Dev} {n table : Nat} (hk : d0.Kept ps d) (hsub : ∀ p ∈ ([.packets] : List Part), p ∈ ps) :
    d0.Kept ps (Dev.floodOn d n table) := by
  refine hk.then (qs := [.packets]) ?_ hsub
  unfold Dev.floodOn
  try dsimp only
  repeat' first
    | with_reducible exact Kept.refl _ _
    | decide
    | with_reducible apply Kept.ite
    | with_reducible apply Kept.modPkt
    | with_reducible refine Kept.of_fst_eq (by assumption) ?_
    | split
    | dsimp only

/-- What `readErrors` can change. -/
theorem Kept.readErrors {ps : List Part} {d0 d : Dev} {r : Region} {table : Nat} {bad : List Nat} (hk : d0.Kept ps d) (hsub : ∀ p ∈ ([.regs, .wire, .ctxs, .tables] : List Part), p ∈ ps) :
    d0.Kept ps (Dev.readErrors d r table bad) := by
  refine hk.then (qs := [.regs, .wire, .ctxs, .tables]) ?_ hsub
  unfold Dev.readErrors
  try dsimp only
  repeat' first
    | with_reducible exact Kept.refl _ _
    | decide
    | with_reducible apply Kept.foldl
    | with_reducible apply Kept.foldl_fst
    | with_reducible apply Kept.requestRepair
    | with_reducible apply Kept.markBad
    | (intro _)
    | with_reducible refine Kept.of_fst_eq (by assumption) ?_
    | split
    | dsimp only

/-- What `searchErrors` can change. -/
theorem Kept.searchErrors {ps : List Part} {d0 d : Dev} {r : Region} {n : Nat} {key : List Byte} {bad : List Nat} (hk : d0.Kept ps d) (hsub : ∀ p ∈ ([.regs, .wire, .ctxs, .tables] : List Part), p ∈ ps) :
    d0.Kept ps (Dev.searchErrors d r n key bad) := by
  refine hk.then (qs := [.regs, .wire, .ctxs, .tables]) ?_ hsub
  unfold Dev.searchErrors
  try dsimp only
  repeat' first
    | with_reducible exact Kept.refl _ _
    | decide
    | with_reducible apply Kept.readErrors
    | with_reducible refine Kept.of_fst_eq (by assumption) ?_
    | split
    | dsimp only

/-- What `primary` can change. -/
theorem Kept.primary {ps : List Part} {d0 d : Dev} {n : Nat} {p : Packet} {k : PrimaryLookup} (hk : d0.Kept ps d) (hsub : ∀ p ∈ ([.regs, .mem, .poison, .wire, .line, .ctxs, .packets, .endpoints, .commit, .tables, .pool, .egress, .dispatch, .journal] : List Part), p ∈ ps) :
    d0.Kept ps (Dev.primary d n p k) := by
  refine hk.then (qs := [.regs, .mem, .poison, .wire, .line, .ctxs, .packets, .endpoints, .commit, .tables, .pool, .egress, .dispatch, .journal]) ?_ hsub
  unfold Dev.primary
  try dsimp only
  repeat' first
    | with_reducible exact Kept.refl _ _
    | decide
    | with_reducible apply Kept.ite
    | with_reducible apply Kept.floodOn
    | with_reducible apply Kept.setResult
    | with_reducible apply Kept.countOutcome
    | with_reducible apply Kept.learn
    | with_reducible apply Kept.hit
    | with_reducible apply Kept.endPass
    | with_reducible apply Kept.modPkt
    | with_reducible apply Kept.lookup
    | with_reducible refine Kept.of_fst_eq (by assumption) ?_
    | split
    | dsimp only

/-- What `programLookup` can change. -/
theorem Kept.programLookup {ps : List Part} {d0 d : Dev} {k : Nat} {i : Nat} {r : Region} (hk : d0.Kept ps d) (hsub : ∀ p ∈ ([.regs, .mem, .poison, .wire, .ctxs, .commit, .tables, .pool] : List Part), p ∈ ps) :
    d0.Kept ps (Dev.programLookup d k i r) := by
  refine hk.then (qs := [.regs, .mem, .poison, .wire, .ctxs, .commit, .tables, .pool]) ?_ hsub
  unfold Dev.programLookup
  try dsimp only
  repeat' first
    | with_reducible exact Kept.refl _ _
    | decide
    | with_reducible apply Kept.ite
    | with_reducible apply Kept.hit
    | with_reducible apply Kept.lookup
    | with_reducible apply Kept.setEvents
    | with_reducible apply Kept.modCtx
    | with_reducible apply Kept.setPoison
    | with_reducible apply Kept.setBytes
    | with_reducible refine Kept.of_fst_eq (by assumption) ?_
    | split
    | dsimp only

/-- What `place` can change. -/
theorem Kept.place {ps : List Part} {d0 d : Dev} {r : Region} {b q n k wait : Nat} (hk : d0.Kept ps d) (hsub : ∀ p ∈ ([.regs, .wire, .ctxs, .packets, .dispatch] : List Part), p ∈ ps) :
    d0.Kept ps (Dev.place d r b q n k wait) := by
  refine hk.then (qs := [.regs, .wire, .ctxs, .packets, .dispatch]) ?_ hsub
  unfold Dev.place
  try dsimp only
  repeat' first
    | with_reducible exact Kept.refl _ _
    | decide
    | with_reducible apply Kept.unqueue
    | with_reducible apply Kept.freeEntry
    | with_reducible apply Kept.modDsp
    | with_reducible apply Kept.modPkt
    | with_reducible apply Kept.event
    | with_reducible apply Kept.modCtx
    | with_reducible apply Kept.maxFld
    | with_reducible refine Kept.of_fst_eq (by assumption) ?_
    | split
    | dsimp only

/-- What `unplace` can change. -/
theorem Kept.unplace {ps : List Part} {d0 d : Dev} {r : Region} {q n wait : Nat} (hk : d0.Kept ps d) (hsub : ∀ p ∈ ([.regs, .wire, .ctxs, .packets, .dispatch] : List Part), p ∈ ps) :
    d0.Kept ps (Dev.unplace d r q n wait) := by
  refine hk.then (qs := [.regs, .wire, .ctxs, .packets, .dispatch]) ?_ hsub
  unfold Dev.unplace
  try dsimp only
  repeat' first
    | with_reducible exact Kept.refl _ _
    | decide
    | with_reducible apply Kept.unqueue
    | with_reducible apply Kept.freeEntry
    | with_reducible apply Kept.modPkt
    | with_reducible apply Kept.err
    | with_reducible apply Kept.event
    | with_reducible apply Kept.addSat
    | with_reducible apply Kept.maxFld
    | with_reducible refine Kept.of_fst_eq (by assumption) ?_
    | split
    | dsimp only

/-- What `entryReady` can change. -/
theorem Kept.entryReady {ps : List Part} {d0 d : Dev} {e : Region} {x : ReleaseRec} {head : Nat} {poisoned : Bool} (hk : d0.Kept ps d) (hsub : ∀ p ∈ ([.endpoints, .egress] : List Part), p ∈ ps) :
    d0.Kept ps (Dev.entryReady d e x head poisoned) := by
  refine hk.then (qs := [.endpoints, .egress]) ?_ hsub
  unfold Dev.entryReady
  try dsimp only
  repeat' first
    | with_reducible exact Kept.refl _ _
    | decide
    | with_reducible apply Kept.ite
    | with_reducible apply Kept.modEgress
    | with_reducible apply Kept.modEp
    | with_reducible refine Kept.of_fst_eq (by assumption) ?_
    | split
    | dsimp only

/-- What `dropEntry` can change. -/
theorem Kept.dropEntry {ps : List Part} {d0 d : Dev} {e : Region} {x : ReleaseRec} (hk : d0.Kept ps d) (hsub : ∀ p ∈ ([.regs, .endpoints, .egress] : List Part), p ∈ ps) :
    d0.Kept ps (Dev.dropEntry d e x) := by
  refine hk.then (qs := [.regs, .endpoints, .egress]) ?_ hsub
  unfold Dev.dropEntry
  try dsimp only
  repeat' first
    | with_reducible exact Kept.refl _ _
    | decide
    | with_reducible apply Kept.ite
    | with_reducible apply Kept.foldl
    | with_reducible apply Kept.foldl_fst
    | with_reducible apply Kept.setQueue
    | with_reducible apply Kept.modEp
    | (intro _)
    | with_reducible refine Kept.of_fst_eq (by assumption) ?_
    | split
    | dsimp only

/-- What `recallRecord` can change. -/
theorem Kept.recallRecord {ps : List Part} {d0 d : Dev} {e : Region} {x : ReleaseRec} (hk : d0.Kept ps d) (hsub : ∀ p ∈ ([.wire, .egress] : List Part), p ∈ ps) :
    d0.Kept ps (Dev.recallRecord d e x) := by
  refine hk.then (qs := [.wire, .egress]) ?_ hsub
  unfold Dev.recallRecord
  try dsimp only
  repeat' first
    | with_reducible exact Kept.refl _ _
    | decide
    | with_reducible apply Kept.modEgress
    | with_reducible apply Kept.set_wire
    | with_reducible refine Kept.of_fst_eq (by assumption) ?_
    | split
    | dsimp only

end Sys2Proof.Machine.Dev
end

