-- ==== Sys2Proof/Laws/EgressKept.lean ====
section
/-!
SUPPORT. What each operation of Machine/Egress.lean can change at most, and that it keeps the canonical forms.
-/

namespace Sys2Proof.Machine.Dev

/-- What `request` can change. -/
theorem Kept.request {ps : List Part} {d0 d : Dev} {r : Region} {dst : Nat} {p : Purpose} (hk : d0.Kept ps d) (hsub : ∀ p ∈ ([.requests, .nextTag] : List Part), p ∈ ps) :
    d0.Kept ps (Dev.request d r dst p).1 := by
  refine hk.then (qs := [.requests, .nextTag]) ?_ hsub
  unfold Dev.request
  try dsimp only
  repeat' first
    | with_reducible exact Kept.refl _ _
    | decide
    | with_reducible apply Kept.modR
    | (intro g p hp; cases p <;> first | trivial | rfl | exact absurd (by decide) hp)
    | with_reducible refine Kept.of_fst_eq (by assumption) ?_
    | split
    | dsimp only

/-- What `answered` can change. -/
theorem Kept.answered {ps : List Part} {d0 d : Dev} {r : Region} {tag : Nat} {d' : Dev} {y} (heq : Dev.answered d r tag = some (d', y)) (hk : d0.Kept ps d) (hsub : ∀ p ∈ ([.requests] : List Part), p ∈ ps) :
    d0.Kept ps d' := by
  refine hk.then (qs := [.requests]) ?_ hsub
  unfold Dev.answered at heq
  try dsimp only at heq
  repeat' split at heq
  all_goals first | (cases heq; done) | cases heq
  all_goals try dsimp only
  all_goals repeat' first
    | with_reducible exact Kept.refl _ _
    | decide
    | with_reducible apply Kept.modR
    | (intro g p hp; cases p <;> first | trivial | rfl | exact absurd (by decide) hp)
    | with_reducible refine Kept.of_fst_eq (by assumption) ?_
    | split
    | dsimp only

/-- What `lateRsp` can change. -/
theorem Kept.lateRsp {ps : List Part} {d0 d : Dev} {r : Region} (hk : d0.Kept ps d) (hsub : ∀ p ∈ ([.regs, .wire, .ctxs] : List Part), p ∈ ps) :
    d0.Kept ps (Dev.lateRsp d r) := by
  refine hk.then (qs := [.regs, .wire, .ctxs]) ?_ hsub
  unfold Dev.lateRsp
  try dsimp only
  repeat' first
    | with_reducible exact Kept.refl _ _
    | decide
    | with_reducible apply Kept.ite
    | with_reducible apply Kept.raise
    | with_reducible apply Kept.addSat
    | with_reducible refine Kept.of_fst_eq (by assumption) ?_
    | split
    | dsimp only

/-- What `protoErr` can change. -/
theorem Kept.protoErr {ps : List Part} {d0 d : Dev} {r : Region} (hk : d0.Kept ps d) (hsub : ∀ p ∈ ([.regs, .wire, .ctxs] : List Part), p ∈ ps) :
    d0.Kept ps (Dev.protoErr d r) := by
  refine hk.then (qs := [.regs, .wire, .ctxs]) ?_ hsub
  unfold Dev.protoErr
  try dsimp only
  repeat' first
    | with_reducible exact Kept.refl _ _
    | decide
    | with_reducible apply Kept.err
    | with_reducible refine Kept.of_fst_eq (by assumption) ?_
    | split
    | dsimp only

/-- What `giveBack` can change. -/
theorem Kept.giveBack {ps : List Part} {d0 d : Dev} {e : Region} {q : Nat} {x : QueueEntry} (hk : d0.Kept ps d) (hsub : ∀ p ∈ ([.regs, .mem, .wire, .line, .ctxs, .endpoints, .pool, .egress, .journal] : List Part), p ∈ ps) :
    d0.Kept ps (Dev.giveBack d e q x) := by
  refine hk.then (qs := [.regs, .mem, .wire, .line, .ctxs, .endpoints, .pool, .egress, .journal]) ?_ hsub
  unfold Dev.giveBack
  try dsimp only
  repeat' first
    | with_reducible exact Kept.refl _ _
    | decide
    | with_reducible apply Kept.ite
    | with_reducible apply Kept.free'
    | with_reducible apply Kept.deref
    | with_reducible apply Kept.send
    | with_reducible refine Kept.of_fst_eq (by assumption) ?_
    | split
    | dsimp only

/-- What `dropQueued` can change. -/
theorem Kept.dropQueued {ps : List Part} {d0 d : Dev} {e : Region} {q code : Nat} {x : QueueEntry} (hk : d0.Kept ps d) (hsub : ∀ p ∈ ([.regs, .mem, .wire, .line, .ctxs, .packets, .endpoints, .commit, .pool, .egress, .journal] : List Part), p ∈ ps) :
    d0.Kept ps (Dev.dropQueued d e q code x) := by
  refine hk.then (qs := [.regs, .mem, .wire, .line, .ctxs, .packets, .endpoints, .commit, .pool, .egress, .journal]) ?_ hsub
  unfold Dev.dropQueued
  try dsimp only
  repeat' first
    | with_reducible exact Kept.refl _ _
    | decide
    | with_reducible apply Kept.ite
    | with_reducible apply Kept.giveBack
    | with_reducible apply Kept.reportOutcome
    | with_reducible apply Kept.dropCount
    | with_reducible refine Kept.of_fst_eq (by assumption) ?_
    | split
    | dsimp only

/-- What `flushQueue` can change. -/
theorem Kept.flushQueue {ps : List Part} {d0 d : Dev} {e : Region} {q code : Nat} (hk : d0.Kept ps d) (hsub : ∀ p ∈ ([.regs, .mem, .wire, .line, .ctxs, .packets, .endpoints, .commit, .pool, .egress, .journal] : List Part), p ∈ ps) :
    d0.Kept ps (Dev.flushQueue d e q code) := by
  refine hk.then (qs := [.regs, .mem, .wire, .line, .ctxs, .packets, .endpoints, .commit, .pool, .egress, .journal]) ?_ hsub
  unfold Dev.flushQueue
  try dsimp only
  repeat' first
    | with_reducible exact Kept.refl _ _
    | decide
    | with_reducible apply Kept.each
    | with_reducible apply Kept.dropQueued
    | with_reducible apply Kept.setQueue
    | with_reducible apply Kept.modEgress
    | (intro _)
    | with_reducible refine Kept.of_fst_eq (by assumption) ?_
    | split
    | dsimp only

/-- What `setBucket` can change. -/
theorem Kept.setBucket {ps : List Part} {d0 d : Dev} {e : Region} {k : Nat} {v : Int} (hk : d0.Kept ps d) (hsub : ∀ p ∈ ([.egress] : List Part), p ∈ ps) :
    d0.Kept ps (Dev.setBucket d e k v) := by
  refine hk.then (qs := [.egress]) ?_ hsub
  unfold Dev.setBucket
  try dsimp only
  repeat' first
    | with_reducible exact Kept.refl _ _
    | decide
    | with_reducible apply Kept.modEgress
    | with_reducible refine Kept.of_fst_eq (by assumption) ?_
    | split
    | dsimp only

/-- What `spend` can change. -/
theorem Kept.spend {ps : List Part} {d0 d : Dev} {e : Region} {on : Fld} {k wire : Nat} (hk : d0.Kept ps d) (hsub : ∀ p ∈ ([.egress] : List Part), p ∈ ps) :
    d0.Kept ps (Dev.spend d e on k wire) := by
  refine hk.then (qs := [.egress]) ?_ hsub
  unfold Dev.spend
  try dsimp only
  repeat' first
    | with_reducible exact Kept.refl _ _
    | decide
    | with_reducible apply Kept.ite
    | with_reducible apply Kept.setBucket
    | with_reducible refine Kept.of_fst_eq (by assumption) ?_
    | split
    | dsimp only

/-- What `fillBucket` can change. -/
theorem Kept.fillBucket {ps : List Part} {d0 d : Dev} {e : Region} {reg k : Nat} (hk : d0.Kept ps d) (hsub : ∀ p ∈ ([.egress] : List Part), p ∈ ps) :
    d0.Kept ps (Dev.fillBucket d e reg k) := by
  refine hk.then (qs := [.egress]) ?_ hsub
  unfold Dev.fillBucket
  try dsimp only
  repeat' first
    | with_reducible exact Kept.refl _ _
    | decide
    | with_reducible apply Kept.ite
    | with_reducible apply Kept.setBucket
    | with_reducible refine Kept.of_fst_eq (by assumption) ?_
    | split
    | dsimp only

/-- What `fillBuckets` can change. -/
theorem Kept.fillBuckets {ps : List Part} {d0 d : Dev} {e : Region} (hk : d0.Kept ps d) (hsub : ∀ p ∈ ([.egress] : List Part), p ∈ ps) :
    d0.Kept ps (Dev.fillBuckets d e) := by
  refine hk.then (qs := [.egress]) ?_ hsub
  unfold Dev.fillBuckets
  try dsimp only
  repeat' first
    | with_reducible exact Kept.refl _ _
    | decide
    | with_reducible apply Kept.each
    | with_reducible apply Kept.fillBucket
    | (intro _)
    | with_reducible refine Kept.of_fst_eq (by assumption) ?_
    | split
    | dsimp only

/-- What `setDeficit` can change. -/
theorem Kept.setDeficit {ps : List Part} {d0 d : Dev} {e : Region} {k v : Nat} (hk : d0.Kept ps d) (hsub : ∀ p ∈ ([.egress] : List Part), p ∈ ps) :
    d0.Kept ps (Dev.setDeficit d e k v) := by
  refine hk.then (qs := [.egress]) ?_ hsub
  unfold Dev.setDeficit
  try dsimp only
  repeat' first
    | with_reducible exact Kept.refl _ _
    | decide
    | with_reducible apply Kept.modEgress
    | with_reducible refine Kept.of_fst_eq (by assumption) ?_
    | split
    | dsimp only

/-- What `choose` can change. -/
theorem Kept.choose {ps : List Part} {d0 d : Dev} {e : Region} {ms : List Member} {d' : Dev} {y} (heq : Dev.choose d e ms = some (d', y)) (hk : d0.Kept ps d) (hsub : ∀ p ∈ ([.egress] : List Part), p ∈ ps) :
    d0.Kept ps d' := by
  refine hk.then (qs := [.egress]) ?_ hsub
  unfold Dev.choose at heq
  try dsimp only at heq
  repeat' split at heq
  all_goals first | (cases heq; done) | cases heq
  all_goals try dsimp only
  all_goals repeat' first
    | with_reducible exact Kept.refl _ _
    | decide
    | with_reducible apply Kept.each
    | with_reducible apply Kept.foldl
    | with_reducible apply Kept.foldl_fst
    | with_reducible apply Kept.setDeficit
    | (intro _)
    | with_reducible refine Kept.of_fst_eq (by assumption) ?_
    | split
    | dsimp only

/-- What `chooseQueue` can change. -/
theorem Kept.chooseQueue {ps : List Part} {d0 d : Dev} {e : Region} {p g : Nat} {d' : Dev} {y} (heq : Dev.chooseQueue d e p g = some (d', y)) (hk : d0.Kept ps d) (hsub : ∀ p ∈ ([.egress] : List Part), p ∈ ps) :
    d0.Kept ps d' := by
  refine hk.then (qs := [.egress]) ?_ hsub
  unfold Dev.chooseQueue at heq
  try dsimp only at heq
  repeat' split at heq
  all_goals first | (cases heq; done) | cases heq
  all_goals try dsimp only
  all_goals repeat' first
    | with_reducible exact Kept.refl _ _
    | decide
    | with_reducible refine Kept.choose (by assumption) ?_ ?_
    | with_reducible refine Kept.of_fst_eq (by assumption) ?_
    | split
    | dsimp only

/-- What `nextQueue` can change. -/
theorem Kept.nextQueue {ps : List Part} {d0 d : Dev} {e : Region} {p : Nat} {d' : Dev} {y} (heq : Dev.nextQueue d e p = some (d', y)) (hk : d0.Kept ps d) (hsub : ∀ p ∈ ([.egress] : List Part), p ∈ ps) :
    d0.Kept ps d' := by
  refine hk.then (qs := [.egress]) ?_ hsub
  unfold Dev.nextQueue at heq
  try dsimp only at heq
  repeat' split at heq
  all_goals first | (cases heq; done) | cases heq
  all_goals try dsimp only
  all_goals repeat' first
    | with_reducible exact Kept.refl _ _
    | decide
    | with_reducible refine Kept.chooseQueue (by assumption) ?_ ?_
    | with_reducible refine Kept.choose (by assumption) ?_ ?_
    | with_reducible refine Kept.of_fst_eq (by assumption) ?_
    | split
    | dsimp only

/-- What `dropPoisoned` can change. -/
theorem Kept.dropPoisoned {ps : List Part} {d0 d : Dev} {e : Region} {q : Nat} (hk : d0.Kept ps d) (hsub : ∀ p ∈ ([.regs, .mem, .wire, .line, .ctxs, .packets, .endpoints, .commit, .pool, .egress, .journal] : List Part), p ∈ ps) :
    d0.Kept ps (Dev.dropPoisoned d e q) := by
  refine hk.then (qs := [.regs, .mem, .wire, .line, .ctxs, .packets, .endpoints, .commit, .pool, .egress, .journal]) ?_ hsub
  unfold Dev.dropPoisoned
  try dsimp only
  repeat' first
    | with_reducible exact Kept.refl _ _
    | decide
    | with_reducible apply Kept.ite
    | with_reducible apply Kept.each
    | with_reducible apply Kept.dropQueued
    | with_reducible apply Kept.setQueue
    | (intro _)
    | with_reducible refine Kept.of_fst_eq (by assumption) ?_
    | split
    | dsimp only

/-- What `setSending` can change. -/
theorem Kept.setSending {ps : List Part} {d0 d : Dev} {e : Region} {p : Nat} {s : Option Sending} (hk : d0.Kept ps d) (hsub : ∀ p ∈ ([.egress] : List Part), p ∈ ps) :
    d0.Kept ps (Dev.setSending d e p s) := by
  refine hk.then (qs := [.egress]) ?_ hsub
  unfold Dev.setSending
  try dsimp only
  repeat' first
    | with_reducible exact Kept.refl _ _
    | decide
    | with_reducible apply Kept.modEgress
    | with_reducible refine Kept.of_fst_eq (by assumption) ?_
    | split
    | dsimp only

/-- What `readBody` can change. -/
theorem Kept.readBody {ps : List Part} {d0 d : Dev} {e : Region} {p : Nat} {x1 : Nat} (hk : d0.Kept ps d) (hsub : ∀ p ∈ ([.wire, .egress, .requests, .nextTag] : List Part), p ∈ ps) :
    d0.Kept ps (Dev.readBody d e p x1) := by
  refine hk.then (qs := [.wire, .egress, .requests, .nextTag]) ?_ hsub
  clear hk
  induction x1 generalizing d e p with
  | zero =>
    unfold Dev.readBody
    try dsimp only
    repeat' first
      | with_reducible exact Kept.refl _ _
      | decide
      | with_reducible apply Kept.ite
      | with_reducible apply Kept.setSending
      | with_reducible apply Kept.request
      | with_reducible apply Kept.send
      | with_reducible refine Kept.of_fst_eq (by assumption) ?_
      | split
      | dsimp only
  | succ n ih =>
    replace ih : ∀ {d1 d : Dev} {e : Region} {p : Nat}, d1.Kept [.wire, .egress, .requests, .nextTag] d → d1.Kept [.wire, .egress, .requests, .nextTag] (Dev.readBody d e p n) :=
      fun h => h.then ih (fun _ => id)
    unfold Dev.readBody
    try dsimp only
    repeat' first
      | with_reducible exact Kept.refl _ _
      | decide
      | with_reducible apply Kept.ite
      | with_reducible apply ih
      | with_reducible apply Kept.setSending
      | with_reducible apply Kept.request
      | with_reducible apply Kept.send
      | with_reducible refine Kept.of_fst_eq (by assumption) ?_
      | split
      | dsimp only

/-- What `startSending` can change. -/
theorem Kept.startSending {ps : List Part} {d0 d : Dev} {e : Region} {p q : Nat} (hk : d0.Kept ps d) (hsub : ∀ p ∈ ([.regs, .wire, .egress, .requests, .nextTag] : List Part), p ∈ ps) :
    d0.Kept ps (Dev.startSending d e p q) := by
  refine hk.then (qs := [.regs, .wire, .egress, .requests, .nextTag]) ?_ hsub
  unfold Dev.startSending
  try dsimp only
  repeat' first
    | with_reducible exact Kept.refl _ _
    | decide
    | with_reducible apply Kept.readBody
    | with_reducible apply Kept.setSending
    | with_reducible apply Kept.spend
    | with_reducible apply Kept.setQueue
    | with_reducible refine Kept.of_fst_eq (by assumption) ?_
    | split
    | dsimp only

/-- What `setPts` can change. -/
theorem Kept.setPts {ps : List Part} {d0 d : Dev} {e : Region} {p : Nat} {l : List PtsEntry} (hk : d0.Kept ps d) (hsub : ∀ p ∈ ([.regs, .egress] : List Part), p ∈ ps) :
    d0.Kept ps (Dev.setPts d e p l) := by
  refine hk.then (qs := [.regs, .egress]) ?_ hsub
  unfold Dev.setPts
  try dsimp only
  repeat' first
    | with_reducible exact Kept.refl _ _
    | decide
    | with_reducible apply Kept.modEgress
    | with_reducible apply Kept.setFld
    | with_reducible refine Kept.of_fst_eq (by assumption) ?_
    | split
    | dsimp only

/-- What `capture` can change. -/
theorem Kept.capture {ps : List Part} {d0 d : Dev} {e : Region} {p : Nat} {f : List Byte} {ns sec : Nat} (hk : d0.Kept ps d) (hsub : ∀ p ∈ ([.regs, .wire, .ctxs, .egress] : List Part), p ∈ ps) :
    d0.Kept ps (Dev.capture d e p f ns sec) := by
  refine hk.then (qs := [.regs, .wire, .ctxs, .egress]) ?_ hsub
  unfold Dev.capture
  try dsimp only
  repeat' first
    | with_reducible exact Kept.refl _ _
    | decide
    | with_reducible apply Kept.ite
    | with_reducible apply Kept.setPts
    | with_reducible apply Kept.raise
    | with_reducible apply Kept.addSat
    | with_reducible refine Kept.of_fst_eq (by assumption) ?_
    | split
    | dsimp only

/-- What `setPaused` can change. -/
theorem Kept.setPaused {ps : List Part} {d0 d : Dev} {e : Region} {p cls : Nat} {b : Bool} (hk : d0.Kept ps d) (hsub : ∀ p ∈ ([.regs] : List Part), p ∈ ps) :
    d0.Kept ps (Dev.setPaused d e p cls b) := by
  refine hk.then (qs := [.regs]) ?_ hsub
  unfold Dev.setPaused
  try dsimp only
  repeat' first
    | with_reducible exact Kept.refl _ _
    | decide
    | with_reducible apply Kept.setFld
    | with_reducible refine Kept.of_fst_eq (by assumption) ?_
    | split
    | dsimp only

/-- What `returnRef` can change. -/
theorem Kept.returnRef {ps : List Part} {d0 d : Dev} {issuer holder handle : Nat} (hk : d0.Kept ps d) (hsub : ∀ p ∈ ([.regs, .mem, .wire, .line, .ctxs, .endpoints, .pool, .egress, .journal] : List Part), p ∈ ps) :
    d0.Kept ps (Dev.returnRef d issuer holder handle) := by
  refine hk.then (qs := [.regs, .mem, .wire, .line, .ctxs, .endpoints, .pool, .egress, .journal]) ?_ hsub
  unfold Dev.returnRef
  try dsimp only
  repeat' first
    | with_reducible exact Kept.refl _ _
    | decide
    | with_reducible apply Kept.ite
    | with_reducible apply Kept.deref
    | with_reducible apply Kept.abuse
    | with_reducible refine Kept.of_fst_eq (by assumption) ?_
    | split
    | dsimp only

end Sys2Proof.Machine.Dev
end

