-- ==== Sys2Proof/Laws/MemKept.lean ====
section
/-!
SUPPORT. What each operation of Machine/Mem.lean can change at most, and that it keeps the canonical forms.
-/

namespace Sys2Proof.Machine.Dev

/-- What `secReject` can change. -/
theorem Kept.secReject {ps : List Part} {d0 d : Dev} {r : Region} {b : Nat} (hk : d0.Kept ps d) (hsub : ∀ p ∈ ([.regs, .wire, .ctxs] : List Part), p ∈ ps) :
    d0.Kept ps (Dev.secReject d r b) := by
  refine hk.then (qs := [.regs, .wire, .ctxs]) ?_ hsub
  unfold Dev.secReject
  try dsimp only
  repeat' first
    | with_reducible exact Kept.refl _ _
    | decide
    | with_reducible apply Kept.err
    | with_reducible refine Kept.of_fst_eq (by assumption) ?_
    | split
    | dsimp only

/-- What `poisonLine` can change. -/
theorem Kept.poisonLine {ps : List Part} {d0 d : Dev} {r : Region} {b mem cell x addr : Nat} (hk : d0.Kept ps d) (hsub : ∀ p ∈ ([.regs, .mem, .poison, .wire, .line, .ctxs, .endpoints, .journal] : List Part), p ∈ ps) :
    d0.Kept ps (Dev.poisonLine d r b mem cell x addr) := by
  refine hk.then (qs := [.regs, .mem, .poison, .wire, .line, .ctxs, .endpoints, .journal]) ?_ hsub
  unfold Dev.poisonLine
  try dsimp only
  repeat' first
    | with_reducible exact Kept.refl _ _
    | decide
    | with_reducible apply Kept.ite
    | with_reducible apply Kept.journalBlock
    | with_reducible apply Kept.err
    | with_reducible apply Kept.bevent
    | with_reducible apply Kept.addSat
    | with_reducible apply Kept.setReg
    | with_reducible apply Kept.setPoison
    | with_reducible refine Kept.of_fst_eq (by assumption) ?_
    | split
    | dsimp only

/-- What `poisonStore` can change. -/
theorem Kept.poisonStore {ps : List Part} {d0 d : Dev} {r : Region} {b : Nat} (hk : d0.Kept ps d) (hsub : ∀ p ∈ ([.regs, .wire, .ctxs] : List Part), p ∈ ps) :
    d0.Kept ps (Dev.poisonStore d r b) := by
  refine hk.then (qs := [.regs, .wire, .ctxs]) ?_ hsub
  unfold Dev.poisonStore
  try dsimp only
  repeat' first
    | with_reducible exact Kept.refl _ _
    | decide
    | with_reducible apply Kept.err
    | with_reducible refine Kept.of_fst_eq (by assumption) ?_
    | split
    | dsimp only

/-- What `writeLines` can change. -/
theorem Kept.writeLines {ps : List Part} {d0 d : Dev} {x1 : Nat} {x2 : Nat} {x3 : List Byte} (hk : d0.Kept ps d) (hsub : ∀ p ∈ ([.mem, .poison] : List Part), p ∈ ps) :
    d0.Kept ps (Dev.writeLines d x1 x2 x3).1 := by
  refine hk.then (qs := [.mem, .poison]) ?_ hsub
  clear hk
  induction x1 generalizing d x2 x3 with
  | zero =>
    unfold Dev.writeLines
    try dsimp only
    repeat' first
      | with_reducible exact Kept.refl _ _
      | decide
      | with_reducible apply Kept.ite
      | with_reducible apply Kept.ite_fst
      | with_reducible apply Kept.setPoison
      | with_reducible apply Kept.setBytes
      | with_reducible refine Kept.of_fst_eq (by assumption) ?_
      | split
      | dsimp only
  | succ n ih =>
    replace ih : ∀ {d1 d : Dev} {x2 : Nat} {x3 : List Byte}, d1.Kept [.mem, .poison] d → d1.Kept [.mem, .poison] (Dev.writeLines d n x2 x3).1 :=
      fun h => h.then ih (fun _ => id)
    unfold Dev.writeLines
    try dsimp only
    repeat' first
      | with_reducible exact Kept.refl _ _
      | decide
      | with_reducible apply Kept.ite
      | with_reducible apply Kept.ite_fst
      | with_reducible apply ih
      | with_reducible apply Kept.setPoison
      | with_reducible apply Kept.setBytes
      | with_reducible refine Kept.of_fst_eq (by assumption) ?_
      | split
      | dsimp only

/-- What `setMirror` can change. -/
theorem Kept.setMirror {ps : List Part} {d0 d : Dev} {r : Region} {id : Nat} (hk : d0.Kept ps d) (hsub : ∀ p ∈ ([.mirror] : List Part), p ∈ ps) :
    d0.Kept ps (Dev.setMirror d r id) := by
  refine hk.then (qs := [.mirror]) ?_ hsub
  unfold Dev.setMirror
  try dsimp only
  repeat' first
    | with_reducible exact Kept.refl _ _
    | decide
    | with_reducible apply Kept.modR
    | (intro g p hp; cases p <;> first | trivial | rfl | exact absurd (by decide) hp)
    | with_reducible refine Kept.of_fst_eq (by assumption) ?_
    | split
    | dsimp only

/-- What `announce` can change. -/
theorem Kept.announce {ps : List Part} {d0 d : Dev} {r : Region} {id : Nat} (hk : d0.Kept ps d) (hsub : ∀ p ∈ ([.wire, .mirror] : List Part), p ∈ ps) :
    d0.Kept ps (Dev.announce d r id) := by
  refine hk.then (qs := [.wire, .mirror]) ?_ hsub
  unfold Dev.announce
  try dsimp only
  repeat' first
    | with_reducible exact Kept.refl _ _
    | decide
    | with_reducible apply Kept.setMirror
    | with_reducible apply Kept.sendAll
    | with_reducible refine Kept.of_fst_eq (by assumption) ?_
    | split
    | dsimp only

/-- What `latchCount` can change. -/
theorem Kept.latchCount {ps : List Part} {d0 d : Dev} {r : Region} {pad : Option (Nat × Nat)} {what : Nat} (hk : d0.Kept ps d) (hsub : ∀ p ∈ ([.regs, .wire, .ctxs] : List Part), p ∈ ps) :
    d0.Kept ps (Dev.latchCount d r pad what) := by
  refine hk.then (qs := [.regs, .wire, .ctxs]) ?_ hsub
  unfold Dev.latchCount
  try dsimp only
  repeat' first
    | with_reducible exact Kept.refl _ _
    | decide
    | with_reducible apply Kept.ite
    | with_reducible apply Kept.bevent
    | with_reducible apply Kept.event
    | with_reducible apply Kept.addSat
    | with_reducible refine Kept.of_fst_eq (by assumption) ?_
    | split
    | dsimp only

/-- What `latchRead` can change. -/
theorem Kept.latchRead {ps : List Part} {d0 d : Dev} {r : Region} {addr id : Nat} {pad : Option (Nat × Nat)} (hk : d0.Kept ps d) (hsub : ∀ p ∈ ([.regs, .mem, .wire, .ctxs] : List Part), p ∈ ps) :
    d0.Kept ps (Dev.latchRead d r addr id pad).1 := by
  refine hk.then (qs := [.regs, .mem, .wire, .ctxs]) ?_ hsub
  unfold Dev.latchRead
  try dsimp only
  repeat' first
    | with_reducible exact Kept.refl _ _
    | decide
    | with_reducible apply Kept.ite
    | with_reducible apply Kept.ite_fst
    | with_reducible apply Kept.latchCount
    | with_reducible apply Kept.setLE
    | with_reducible refine Kept.of_fst_eq (by assumption) ?_
    | split
    | dsimp only

/-- What `latchWrite` can change. -/
theorem Kept.latchWrite {ps : List Part} {d0 d : Dev} {r : Region} {addr id v : Nat} {pad : Option (Nat × Nat)} (hk : d0.Kept ps d) (hsub : ∀ p ∈ ([.regs, .mem, .wire, .ctxs] : List Part), p ∈ ps) :
    d0.Kept ps (Dev.latchWrite d r addr id v pad) := by
  refine hk.then (qs := [.regs, .mem, .wire, .ctxs]) ?_ hsub
  unfold Dev.latchWrite
  try dsimp only
  repeat' first
    | with_reducible exact Kept.refl _ _
    | decide
    | with_reducible apply Kept.ite
    | with_reducible apply Kept.latchCount
    | with_reducible apply Kept.poisonStore
    | with_reducible apply Kept.setLE
    | with_reducible refine Kept.of_fst_eq (by assumption) ?_
    | split
    | dsimp only

end Sys2Proof.Machine.Dev
end

