-- ==== Sys2Proof/Laws/ThreadsKept.lean ====
section
/-!
SUPPORT. What each operation of Machine/Threads.lean can change at most, and that it keeps the canonical forms.
-/

namespace Sys2Proof.Machine.Dev

/-- What `workerFault` can change. -/
theorem Kept.workerFault {ps : List Part} {d0 d : Dev} {k cause : Nat} {tval : Word} (hk : d0.Kept ps d) (hsub : ∀ p ∈ ([.regs, .wire, .ctxs] : List Part), p ∈ ps) :
    d0.Kept ps (Dev.workerFault d k cause tval) := by
  refine hk.then (qs := [.regs, .wire, .ctxs]) ?_ hsub
  unfold Dev.workerFault
  try dsimp only
  repeat' first
    | with_reducible exact Kept.refl _ _
    | decide
    | with_reducible apply Kept.bevent
    | with_reducible apply Kept.raise
    | with_reducible apply Kept.wake
    | with_reducible apply Kept.modCtx
    | with_reducible apply Kept.setFld
    | with_reducible refine Kept.of_fst_eq (by assumption) ?_
    | split
    | dsimp only

/-- What `except` can change. -/
theorem Kept.except {ps : List Part} {d0 d : Dev} {k cause : Nat} {tval : Word} (hk : d0.Kept ps d) (hsub : ∀ p ∈ ([.regs, .wire, .ctxs] : List Part), p ∈ ps) :
    d0.Kept ps (Dev.except d k cause tval) := by
  refine hk.then (qs := [.regs, .wire, .ctxs]) ?_ hsub
  unfold Dev.except
  try dsimp only
  repeat' first
    | with_reducible exact Kept.refl _ _
    | decide
    | with_reducible apply Kept.ite
    | with_reducible apply Kept.workerFault
    | with_reducible apply Kept.takeTrap
    | with_reducible refine Kept.of_fst_eq (by assumption) ?_
    | split
    | dsimp only

/-- What `refreshBudget` can change. -/
theorem Kept.refreshBudget {ps : List Part} {d0 d : Dev} {r : Region} {b : Nat} (hk : d0.Kept ps d) (hsub : ∀ p ∈ ([.regs] : List Part), p ∈ ps) :
    d0.Kept ps (Dev.refreshBudget d r b) := by
  refine hk.then (qs := [.regs]) ?_ hsub
  unfold Dev.refreshBudget
  try dsimp only
  repeat' first
    | with_reducible exact Kept.refl _ _
    | decide
    | with_reducible apply Kept.setFld
    | with_reducible refine Kept.of_fst_eq (by assumption) ?_
    | split
    | dsimp only

/-- What `refreshBudgets` can change. -/
theorem Kept.refreshBudgets {ps : List Part} {d0 d : Dev} {r : Region} (hk : d0.Kept ps d) (hsub : ∀ p ∈ ([.regs] : List Part), p ∈ ps) :
    d0.Kept ps (Dev.refreshBudgets d r) := by
  refine hk.then (qs := [.regs]) ?_ hsub
  unfold Dev.refreshBudgets
  try dsimp only
  repeat' first
    | with_reducible exact Kept.refl _ _
    | decide
    | with_reducible apply Kept.each
    | with_reducible apply Kept.refreshBudget
    | (intro _)
    | with_reducible refine Kept.of_fst_eq (by assumption) ?_
    | split
    | dsimp only

/-- What `startPacket` can change. -/
theorem Kept.startPacket {ps : List Part} {d0 d : Dev} {k : Nat} {x : Placed} {p : Packet} (hk : d0.Kept ps d) (hsub : ∀ p ∈ ([.regs, .wire, .ctxs] : List Part), p ∈ ps) :
    d0.Kept ps (Dev.startPacket d k x p) := by
  refine hk.then (qs := [.regs, .wire, .ctxs]) ?_ hsub
  unfold Dev.startPacket
  try dsimp only
  repeat' first
    | with_reducible exact Kept.refl _ _
    | decide
    | with_reducible apply Kept.ite
    | with_reducible apply Kept.bevent
    | with_reducible apply Kept.modCtx
    | with_reducible apply Kept.setX
    | with_reducible refine Kept.of_fst_eq (by assumption) ?_
    | split
    | dsimp only

/-- What `endHeld` can change. -/
theorem Kept.endHeld {ps : List Part} {d0 d : Dev} {k : Nat} (hk : d0.Kept ps d) (hsub : ∀ p ∈ ([.regs, .mem, .poison, .wire, .ctxs, .tables, .pool] : List Part), p ∈ ps) :
    d0.Kept ps (Dev.endHeld d k) := by
  refine hk.then (qs := [.regs, .mem, .poison, .wire, .ctxs, .tables, .pool]) ?_ hsub
  unfold Dev.endHeld
  try dsimp only
  repeat' first
    | with_reducible exact Kept.refl _ _
    | decide
    | with_reducible apply Kept.ite
    | with_reducible apply Kept.lookup
    | with_reducible apply Kept.modCtx
    | with_reducible refine Kept.of_fst_eq (by assumption) ?_
    | split
    | dsimp only

/-- What `refreshStagers` can change. -/
theorem Kept.refreshStagers {ps : List Part} {d0 d : Dev} {regional : Bool} {r b n : Nat} (hk : d0.Kept ps d) (hsub : ∀ p ∈ ([.regs] : List Part), p ∈ ps) :
    d0.Kept ps (Dev.refreshStagers d regional r b n) := by
  refine hk.then (qs := [.regs]) ?_ hsub
  unfold Dev.refreshStagers
  try dsimp only
  repeat' first
    | with_reducible exact Kept.refl _ _
    | decide
    | with_reducible apply Kept.ite
    | with_reducible apply Kept.setFld
    | with_reducible refine Kept.of_fst_eq (by assumption) ?_
    | split
    | dsimp only

/-- What `setOpen` can change. -/
theorem Kept.setOpen {ps : List Part} {d0 d : Dev} {k : Nat} {m : Option OpenMsg} (hk : d0.Kept ps d) (hsub : ∀ p ∈ ([.regs, .ctxs] : List Part), p ∈ ps) :
    d0.Kept ps (Dev.setOpen d k m) := by
  refine hk.then (qs := [.regs, .ctxs]) ?_ hsub
  unfold Dev.setOpen
  try dsimp only
  repeat' first
    | with_reducible exact Kept.refl _ _
    | decide
    | with_reducible apply Kept.refreshStagers
    | with_reducible apply Kept.modCtx
    | with_reducible refine Kept.of_fst_eq (by assumption) ?_
    | split
    | dsimp only

/-- What `bumpGeneration` can change. -/
theorem Kept.bumpGeneration {ps : List Part} {d0 d : Dev} {k : Nat} (hk : d0.Kept ps d) (hsub : ∀ p ∈ ([.wire, .ctxs, .mirror] : List Part), p ∈ ps) :
    d0.Kept ps (Dev.bumpGeneration d k) := by
  refine hk.then (qs := [.wire, .ctxs, .mirror]) ?_ hsub
  unfold Dev.bumpGeneration
  try dsimp only
  repeat' first
    | with_reducible exact Kept.refl _ _
    | decide
    | with_reducible apply Kept.announce
    | with_reducible apply Kept.modCtx
    | with_reducible refine Kept.of_fst_eq (by assumption) ?_
    | split
    | dsimp only

/-- What `threadReset` can change. -/
theorem Kept.threadReset {ps : List Part} {d0 d : Dev} {k : Nat} (hk : d0.Kept ps d) (hsub : ∀ p ∈ ([.regs, .mem, .poison, .wire, .ctxs, .tables, .pool, .mirror] : List Part), p ∈ ps) :
    d0.Kept ps (Dev.threadReset d k) := by
  refine hk.then (qs := [.regs, .mem, .poison, .wire, .ctxs, .tables, .pool, .mirror]) ?_ hsub
  unfold Dev.threadReset
  try dsimp only
  repeat' first
    | with_reducible exact Kept.refl _ _
    | decide
    | with_reducible apply Kept.ite
    | with_reducible apply Kept.bumpGeneration
    | with_reducible apply Kept.setOpen
    | with_reducible apply Kept.endHeld
    | with_reducible apply Kept.modCtx
    | with_reducible apply Kept.setFld
    | with_reducible refine Kept.of_fst_eq (by assumption) ?_
    | split
    | dsimp only

/-- What `resetCell` can change. -/
theorem Kept.resetCell {ps : List Part} {d0 d : Dev} {c : Nat} (hk : d0.Kept ps d)
    (hsub : ∀ p ∈ ([.regs, .pairs, .wire, .ctxs, .cells, .mirror, .requests] : List Part), p ∈ ps) : d0.Kept ps (Dev.resetCell d c) := by
  refine hk.then (qs := [.regs, .pairs, .wire, .ctxs, .cells, .mirror, .requests]) ?_ hsub
  have two : ∀ {e : Dev} {x y z}, d.Kept [.regs, .pairs, .wire, .ctxs, .cells, .mirror, .requests] e →
      (Sparse.Wf cellDefault e.cells → Sparse.Wf cellDefault x) → (Sparse.Wf regDefault e.regs → Sparse.Wf regDefault y) →
      d.Kept [.regs, .pairs, .wire, .ctxs, .cells, .mirror, .requests] { e with cells := x, regs := y, pairs := z } := fun {e x y z} h hx hy =>
    Kept.set_pairs (d := { e with cells := x, regs := y }) (Kept.set_regs (d := { e with cells := x }) (h.set_cells (by decide) hx) (by decide) hy) (by decide)
  unfold Dev.resetCell
  dsimp only
  refine two ?_ (fun h => Sparse.wf_filter _ _ h) (fun h => Sparse.wf_filter _ _ h)
  repeat' first
    | with_reducible exact Kept.refl _ _
    | decide
    | with_reducible apply Kept.modR
    | (intro g p hp; cases p <;> first | trivial | rfl | exact absurd (by decide) hp)
    | with_reducible apply Kept.each
    | (intro _)
    | with_reducible apply Kept.bumpGeneration
    | with_reducible apply Kept.modCtx
    | with_reducible apply Kept.setOpen
    | dsimp only

/-- What `startCell` can change. -/
theorem Kept.startCell {ps : List Part} {d0 d : Dev} {r b c : Nat} (hk : d0.Kept ps d) (hsub : ∀ p ∈ ([.ctxs] : List Part), p ∈ ps) :
    d0.Kept ps (Dev.startCell d r b c) := by
  refine hk.then (qs := [.ctxs]) ?_ hsub
  unfold Dev.startCell
  try dsimp only
  repeat' first
    | with_reducible exact Kept.refl _ _
    | decide
    | with_reducible apply Kept.modCtx
    | with_reducible refine Kept.of_fst_eq (by assumption) ?_
    | split
    | dsimp only

/-- What `setCellRun` can change. -/
theorem Kept.setCellRun {ps : List Part} {d0 d : Dev} {r : Region} {b v : Nat} (hk : d0.Kept ps d) (hsub : ∀ p ∈ ([.regs, .pairs, .wire, .ctxs, .cells, .mirror, .requests] : List Part), p ∈ ps) :
    d0.Kept ps (Dev.setCellRun d r b v) := by
  refine hk.then (qs := [.regs, .pairs, .wire, .ctxs, .cells, .mirror, .requests]) ?_ hsub
  unfold Dev.setCellRun
  try dsimp only
  repeat' first
    | with_reducible exact Kept.refl _ _
    | decide
    | with_reducible apply Kept.ite
    | with_reducible apply Kept.each
    | with_reducible apply Kept.startCell
    | with_reducible apply Kept.resetCell
    | with_reducible apply Kept.refreshBudget
    | with_reducible apply Kept.wakeFallback
    | with_reducible apply Kept.setFld
    | (intro _)
    | with_reducible refine Kept.of_fst_eq (by assumption) ?_
    | split
    | dsimp only

/-- What `haltCtx` can change. -/
theorem Kept.haltCtx {ps : List Part} {d0 d : Dev} {k : Nat} (hk : d0.Kept ps d) (hsub : ∀ p ∈ ([.ctxs] : List Part), p ∈ ps) :
    d0.Kept ps (Dev.haltCtx d k) := by
  refine hk.then (qs := [.ctxs]) ?_ hsub
  unfold Dev.haltCtx
  try dsimp only
  repeat' first
    | with_reducible exact Kept.refl _ _
    | decide
    | with_reducible apply Kept.modCtx
    | with_reducible refine Kept.of_fst_eq (by assumption) ?_
    | split
    | dsimp only

/-- What `resumeHalted` can change. -/
theorem Kept.resumeHalted {ps : List Part} {d0 d : Dev} {k : Nat} (hk : d0.Kept ps d) (hsub : ∀ p ∈ ([.regs, .wire, .ctxs] : List Part), p ∈ ps) :
    d0.Kept ps (Dev.resumeHalted d k) := by
  refine hk.then (qs := [.regs, .wire, .ctxs]) ?_ hsub
  unfold Dev.resumeHalted
  try dsimp only
  repeat' first
    | with_reducible exact Kept.refl _ _
    | decide
    | with_reducible apply Kept.ite
    | with_reducible apply Kept.when
    | with_reducible apply Kept.bevent
    | with_reducible apply Kept.wake
    | with_reducible apply Kept.modCtx
    | (intro _)
    | with_reducible refine Kept.of_fst_eq (by assumption) ?_
    | split
    | dsimp only

/-- What `resumeFaulted` can change. -/
theorem Kept.resumeFaulted {ps : List Part} {d0 d : Dev} {k : Nat} (hk : d0.Kept ps d) (hsub : ∀ p ∈ ([.regs, .ctxs] : List Part), p ∈ ps) :
    d0.Kept ps (Dev.resumeFaulted d k) := by
  refine hk.then (qs := [.regs, .ctxs]) ?_ hsub
  unfold Dev.resumeFaulted
  try dsimp only
  repeat' first
    | with_reducible exact Kept.refl _ _
    | decide
    | with_reducible apply Kept.ite
    | with_reducible apply Kept.setFld
    | with_reducible apply Kept.modCtx
    | with_reducible refine Kept.of_fst_eq (by assumption) ?_
    | split
    | dsimp only

/-- What `thrCtl` can change. -/
theorem Kept.thrCtl {ps : List Part} {d0 d : Dev} {k : Nat} {reset resume halt : Bool} (hk : d0.Kept ps d) (hsub : ∀ p ∈ ([.regs, .mem, .poison, .wire, .ctxs, .tables, .pool, .mirror] : List Part), p ∈ ps) :
    d0.Kept ps (Dev.thrCtl d k reset resume halt) := by
  refine hk.then (qs := [.regs, .mem, .poison, .wire, .ctxs, .tables, .pool, .mirror]) ?_ hsub
  unfold Dev.thrCtl
  try dsimp only
  repeat' first
    | with_reducible exact Kept.refl _ _
    | decide
    | with_reducible apply Kept.ite
    | with_reducible apply Kept.resumeFaulted
    | with_reducible apply Kept.resumeHalted
    | with_reducible apply Kept.haltCtx
    | with_reducible apply Kept.threadReset
    | with_reducible refine Kept.of_fst_eq (by assumption) ?_
    | split
    | dsimp only

/-- What `slotsReject` can change. -/
theorem Kept.slotsReject {ps : List Part} {d0 d : Dev} {r : Region} {b c : Nat} (hk : d0.Kept ps d) (hsub : ∀ p ∈ ([.regs, .wire, .ctxs] : List Part), p ∈ ps) :
    d0.Kept ps (Dev.slotsReject d r b c) := by
  refine hk.then (qs := [.regs, .wire, .ctxs]) ?_ hsub
  unfold Dev.slotsReject
  try dsimp only
  repeat' first
    | with_reducible exact Kept.refl _ _
    | decide
    | with_reducible apply Kept.raise
    | with_reducible apply Kept.setOn
    | with_reducible refine Kept.of_fst_eq (by assumption) ?_
    | split
    | dsimp only

/-- What `slotApply` can change. -/
theorem Kept.slotApply {ps : List Part} {d0 d : Dev} {r : Region} {b c : Nat} (hk : d0.Kept ps d) (hsub : ∀ p ∈ ([.regs, .wire, .ctxs, .cells] : List Part), p ∈ ps) :
    d0.Kept ps (Dev.slotApply d r b c).1 := by
  refine hk.then (qs := [.regs, .wire, .ctxs, .cells]) ?_ hsub
  unfold Dev.slotApply
  try dsimp only
  repeat' first
    | with_reducible exact Kept.refl _ _
    | decide
    | with_reducible apply Kept.ite
    | with_reducible apply Kept.ite_fst
    | with_reducible apply Kept.slotsReject
    | with_reducible apply Kept.setOn
    | with_reducible apply Kept.modCell
    | with_reducible refine Kept.of_fst_eq (by assumption) ?_
    | split
    | dsimp only

/-- What `takeSlots` can change. -/
theorem Kept.takeSlots {ps : List Part} {d0 d : Dev} {r : Region} (hk : d0.Kept ps d) (hsub : ∀ p ∈ ([.regs, .wire, .ctxs, .cells] : List Part), p ∈ ps) :
    d0.Kept ps (Dev.takeSlots d r) := by
  refine hk.then (qs := [.regs, .wire, .ctxs, .cells]) ?_ hsub
  unfold Dev.takeSlots
  try dsimp only
  repeat' first
    | with_reducible exact Kept.refl _ _
    | decide
    | with_reducible apply Kept.ite
    | with_reducible apply Kept.each
    | with_reducible apply Kept.slotsReject
    | with_reducible apply Kept.refreshBudget
    | with_reducible apply Kept.modCell
    | with_reducible apply Kept.clr
    | (intro _)
    | with_reducible refine Kept.of_fst_eq (by assumption) ?_
    | split
    | dsimp only

/-- What `dropIcache` can change. -/
theorem Kept.dropIcache {ps : List Part} {d0 d : Dev} {c : Nat} (hk : d0.Kept ps d) (hsub : ∀ p ∈ ([.cells] : List Part), p ∈ ps) :
    d0.Kept ps (Dev.dropIcache d c) := by
  refine hk.then (qs := [.cells]) ?_ hsub
  unfold Dev.dropIcache
  try dsimp only
  repeat' first
    | with_reducible exact Kept.refl _ _
    | decide
    | with_reducible apply Kept.modCell
    | with_reducible refine Kept.of_fst_eq (by assumption) ?_
    | split
    | dsimp only

-- MANUAL thrAction : Res

end Sys2Proof.Machine.Dev
end

