-- ==== Sys2Proof/Laws/ChannelsKept.lean ====
section
/-!
SUPPORT. What each operation of Machine/Channels.lean can change at most, and that it keeps the canonical forms.
-/

namespace Sys2Proof.Machine.Dev

/-- What `setMsgs` can change. -/
theorem Kept.setMsgs {ps : List Part} {d0 d : Dev} {regional : Bool} {r b n : Nat} {l : List ChannelMsg} (hk : d0.Kept ps d) (hsub : ∀ p ∈ ([.regs, .blockCh, .regionCh] : List Part), p ∈ ps) :
    d0.Kept ps (Dev.setMsgs d regional r b n l) := by
  refine hk.then (qs := [.regs, .blockCh, .regionCh]) ?_ hsub
  unfold Dev.setMsgs
  try dsimp only
  repeat' first
    | with_reducible exact Kept.refl _ _
    | decide
    | with_reducible apply Kept.ite
    | with_reducible apply Kept.setFld
    | with_reducible apply Kept.set_blockCh
    | with_reducible apply Kept.set_regionCh
    | with_reducible refine Kept.of_fst_eq (by assumption) ?_
    | split
    | dsimp only

/-- What `wakeSpace` can change. -/
theorem Kept.wakeSpace {ps : List Part} {d0 d : Dev} {regional : Bool} {r b n : Nat} (hk : d0.Kept ps d) (hsub : ∀ p ∈ ([.ctxs] : List Part), p ∈ ps) :
    d0.Kept ps (Dev.wakeSpace d regional r b n) := by
  refine hk.then (qs := [.ctxs]) ?_ hsub
  unfold Dev.wakeSpace
  try dsimp only
  repeat' first
    | with_reducible exact Kept.refl _ _
    | decide
    | with_reducible apply Kept.each
    | with_reducible apply Kept.wake
    | (intro _)
    | with_reducible refine Kept.of_fst_eq (by assumption) ?_
    | split
    | dsimp only

/-- What `setSpent` can change. -/
theorem Kept.setSpent {ps : List Part} {d0 d : Dev} {r n b : Nat} {v : Bool} (hk : d0.Kept ps d) (hsub : ∀ p ∈ ([.chSpent] : List Part), p ∈ ps) :
    d0.Kept ps (Dev.setSpent d r n b v) := by
  refine hk.then (qs := [.chSpent]) ?_ hsub
  unfold Dev.setSpent
  try dsimp only
  repeat' first
    | with_reducible exact Kept.refl _ _
    | decide
    | with_reducible apply Kept.set_chSpent
    | with_reducible refine Kept.of_fst_eq (by assumption) ?_
    | split
    | dsimp only

/-- What `flushChannel` can change. -/
theorem Kept.flushChannel {ps : List Part} {d0 d : Dev} {regional : Bool} {r b n : Nat} (hk : d0.Kept ps d) (hsub : ∀ p ∈ ([.regs, .wire, .ctxs, .blockCh, .regionCh] : List Part), p ∈ ps) :
    d0.Kept ps (Dev.flushChannel d regional r b n) := by
  refine hk.then (qs := [.regs, .wire, .ctxs, .blockCh, .regionCh]) ?_ hsub
  unfold Dev.flushChannel
  try dsimp only
  repeat' first
    | with_reducible exact Kept.refl _ _
    | decide
    | with_reducible apply Kept.ite
    | with_reducible apply Kept.each
    | with_reducible apply Kept.wakeSpace
    | with_reducible apply Kept.setMsgs
    | with_reducible apply Kept.send
    | with_reducible apply Kept.addSat
    | (intro _)
    | with_reducible refine Kept.of_fst_eq (by assumption) ?_
    | split
    | dsimp only

/-- What `putStray` can change. -/
theorem Kept.putStray {ps : List Part} {d0 d : Dev} {regional : Bool} {r b : Nat} (hk : d0.Kept ps d) (hsub : ∀ p ∈ ([.regs] : List Part), p ∈ ps) :
    d0.Kept ps (Dev.putStray d regional r b) := by
  refine hk.then (qs := [.regs]) ?_ hsub
  unfold Dev.putStray
  try dsimp only
  repeat' first
    | with_reducible exact Kept.refl _ _
    | decide
    | with_reducible apply Kept.ite
    | with_reducible apply Kept.setOn
    | with_reducible refine Kept.of_fst_eq (by assumption) ?_
    | split
    | dsimp only

/-- What `chOverflow` can change. -/
theorem Kept.chOverflow {ps : List Part} {d0 d : Dev} {regional : Bool} {r b : Nat} (hk : d0.Kept ps d) (hsub : ∀ p ∈ ([.regs] : List Part), p ∈ ps) :
    d0.Kept ps (Dev.chOverflow d regional r b) := by
  refine hk.then (qs := [.regs]) ?_ hsub
  unfold Dev.chOverflow
  try dsimp only
  repeat' first
    | with_reducible exact Kept.refl _ _
    | decide
    | with_reducible apply Kept.ite
    | with_reducible apply Kept.setOn
    | with_reducible refine Kept.of_fst_eq (by assumption) ?_
    | split
    | dsimp only

/-- What `chOpen` can change. -/
theorem Kept.chOpen {ps : List Part} {d0 d : Dev} {k : Nat} {s : Sel} (hk : d0.Kept ps d) (hsub : ∀ p ∈ ([.regs, .ctxs] : List Part), p ∈ ps) :
    d0.Kept ps (Dev.chOpen d k s).1 := by
  refine hk.then (qs := [.regs, .ctxs]) ?_ hsub
  unfold Dev.chOpen
  try dsimp only
  repeat' first
    | with_reducible exact Kept.refl _ _
    | decide
    | with_reducible apply Kept.ite
    | with_reducible apply Kept.ite_fst
    | with_reducible apply Kept.setOpen
    | with_reducible refine Kept.of_fst_eq (by assumption) ?_
    | split
    | dsimp only

/-- What `chPut` can change. -/
theorem Kept.chPut {ps : List Part} {d0 d : Dev} {k : Nat} {s : Sel} {v : Word} (hk : d0.Kept ps d) (hsub : ∀ p ∈ ([.regs, .ctxs] : List Part), p ∈ ps) :
    d0.Kept ps (Dev.chPut d k s v) := by
  refine hk.then (qs := [.regs, .ctxs]) ?_ hsub
  unfold Dev.chPut
  try dsimp only
  repeat' first
    | with_reducible exact Kept.refl _ _
    | decide
    | with_reducible apply Kept.ite
    | with_reducible apply Kept.putStray
    | with_reducible apply Kept.modCtx
    | with_reducible refine Kept.of_fst_eq (by assumption) ?_
    | split
    | dsimp only

/-- What `chClose` can change. -/
theorem Kept.chClose {ps : List Part} {d0 d : Dev} {k : Nat} {s : Sel} (hk : d0.Kept ps d) (hsub : ∀ p ∈ ([.regs, .wire, .ctxs, .blockCh, .regionCh, .chSpent] : List Part), p ∈ ps) :
    d0.Kept ps (Dev.chClose d k s).1 := by
  refine hk.then (qs := [.regs, .wire, .ctxs, .blockCh, .regionCh, .chSpent]) ?_ hsub
  unfold Dev.chClose
  try dsimp only
  repeat' first
    | with_reducible exact Kept.refl _ _
    | decide
    | with_reducible apply Kept.ite
    | with_reducible apply Kept.ite_fst
    | with_reducible apply Kept.chOverflow
    | with_reducible apply Kept.setSpent
    | with_reducible apply Kept.setMsgs
    | with_reducible apply Kept.setOpen
    | with_reducible apply Kept.bevent
    | with_reducible apply Kept.wake
    | with_reducible apply Kept.send
    | with_reducible refine Kept.of_fst_eq (by assumption) ?_
    | split
    | dsimp only

/-- What `takeMsg` can change. -/
theorem Kept.takeMsg {ps : List Part} {d0 d : Dev} {k : Nat} {regional : Bool} {n dest : Nat} (hk : d0.Kept ps d) (hsub : ∀ p ∈ ([.regs, .mem, .poison, .wire, .ctxs, .blockCh, .regionCh] : List Part), p ∈ ps) :
    d0.Kept ps (Dev.takeMsg d k regional n dest).1 := by
  refine hk.then (qs := [.regs, .mem, .poison, .wire, .ctxs, .blockCh, .regionCh]) ?_ hsub
  unfold Dev.takeMsg
  try dsimp only
  repeat' first
    | with_reducible exact Kept.refl _ _
    | decide
    | with_reducible apply Kept.ite
    | with_reducible apply Kept.ite_fst
    | with_reducible apply Kept.wakeSpace
    | with_reducible apply Kept.setMsgs
    | with_reducible apply Kept.setPoison
    | with_reducible apply Kept.send
    | with_reducible apply Kept.setBytes
    | with_reducible refine Kept.of_fst_eq (by assumption) ?_
    | split
    | dsimp only

/-- What `chGet` can change. -/
theorem Kept.chGet {ps : List Part} {d0 d : Dev} {k : Nat} {s : Sel} (hk : d0.Kept ps d) (hsub : ∀ p ∈ ([.regs, .mem, .poison, .wire, .ctxs, .blockCh, .regionCh] : List Part), p ∈ ps) :
    d0.Kept ps (Dev.chGet d k s).1 := by
  refine hk.then (qs := [.regs, .mem, .poison, .wire, .ctxs, .blockCh, .regionCh]) ?_ hsub
  unfold Dev.chGet
  try dsimp only
  repeat' first
    | with_reducible exact Kept.refl _ _
    | decide
    | with_reducible apply Kept.ite
    | with_reducible apply Kept.ite_fst
    | with_reducible apply Kept.takeMsg
    | with_reducible refine Kept.of_fst_eq (by assumption) ?_
    | split
    | dsimp only

end Sys2Proof.Machine.Dev
end

