-- ==== Sys2Proof/Laws/BlockMemKept.lean ====
section
/-!
SUPPORT. What each operation of Machine/BlockMem.lean can change at most, and that it keeps the canonical forms.
-/

namespace Sys2Proof.Machine.Dev

/-- What `resetRegs` can change. -/
theorem Kept.resetRegs {ps : List Part} {d0 d : Dev} {p : Nat → Bool} (hk : d0.Kept ps d)
    (hsub : ∀ p ∈ ([.regs] : List Part), p ∈ ps) : d0.Kept ps (Dev.resetRegs d p) :=
  hk.set_regs (hsub _ (by decide)) (Sparse.wf_update _ _ _)

/-- What `resetPairs` can change. -/
theorem Kept.resetPairs {ps : List Part} {d0 d : Dev} {p : Nat → Bool} (hk : d0.Kept ps d) (hsub : ∀ p ∈ ([.pairs] : List Part), p ∈ ps) :
    d0.Kept ps (Dev.resetPairs d p) := by
  refine hk.then (qs := [.pairs]) ?_ hsub
  unfold Dev.resetPairs
  try dsimp only
  repeat' first
    | with_reducible exact Kept.refl _ _
    | decide
    | with_reducible apply Kept.set_pairs
    | with_reducible refine Kept.of_fst_eq (by assumption) ?_
    | split
    | dsimp only

/-- What `loseRange` can change. -/
theorem Kept.loseRange {ps : List Part} {d0 d : Dev} {a n : Nat} (hk : d0.Kept ps d)
    (hsub : ∀ p ∈ ([.mem, .poison] : List Part), p ∈ ps) : d0.Kept ps (Dev.loseRange d a n) := by
  have two : ∀ {x y}, (Sparse.Wf (fun _ => false) d.poison → Sparse.Wf (fun _ => false) y) →
      (Memory.wf d.mem → Memory.wf x) → d0.Kept ps { d with mem := x, poison := y } := fun {x y} hy hx =>
    Kept.set_mem (d := { d with poison := y }) (hk.set_poison (hsub _ (by decide)) hy) (hsub _ (by decide)) hx
  unfold Dev.loseRange
  refine two ?_ (fun h => Sparse.wf_filter _ _ h)
  intro h
  have hle : a / 32 ≤ (a + n) / 32 := Nat.div_le_div_right (by omega)
  have hmid : Sparse.Wf (fun _ => false) ((List.range ((a + n) / 32 - a / 32)).map (fun i => (a / 32 + i, true))) := by
    refine ⟨?_, ?_⟩
    · rw [List.pairwise_map]
      exact List.pairwise_lt_range.imp (fun h => by omega)
    · intro e he
      obtain ⟨i, _, rfl⟩ := List.mem_map.1 he
      simp
  refine ⟨?_, ?_⟩
  · rw [List.pairwise_append, List.pairwise_append]
    refine ⟨⟨h.1.filter _, hmid.1, ?_⟩, h.1.filter _, ?_⟩
    · intro x hx y hy
      have h1 := (List.mem_filter.1 hx).2
      obtain ⟨i, _, rfl⟩ := List.mem_map.1 hy
      simp only [decide_eq_true_eq] at h1
      dsimp only
      omega
    · intro x hx y hy
      have h1 := (List.mem_filter.1 hy).2
      simp only [decide_eq_true_eq] at h1
      rcases List.mem_append.1 hx with hx | hx
      · have h2 := (List.mem_filter.1 hx).2
        simp only [decide_eq_true_eq] at h2
        omega
      · obtain ⟨i, hi, rfl⟩ := List.mem_map.1 hx
        have := List.mem_range.1 hi
        dsimp only
        omega
  · intro e he
    rcases List.mem_append.1 he with he | he
    · rcases List.mem_append.1 he with he | he
      · exact h.2 e (List.mem_filter.1 he).1
      · exact hmid.2 e he
    · exact h.2 e (List.mem_filter.1 he).1

/-- What `setWipe` can change. -/
theorem Kept.setWipe {ps : List Part} {d0 d : Dev} {r : Region} {b size : Nat} (hk : d0.Kept ps d) (hsub : ∀ p ∈ ([.wipes] : List Part), p ∈ ps) :
    d0.Kept ps (Dev.setWipe d r b size) := by
  refine hk.then (qs := [.wipes]) ?_ hsub
  unfold Dev.setWipe
  try dsimp only
  repeat' first
    | with_reducible exact Kept.refl _ _
    | decide
    | with_reducible apply Kept.modR
    | (intro g p hp; cases p <;> first | trivial | rfl | exact absurd (by decide) hp)
    | with_reducible refine Kept.of_fst_eq (by assumption) ?_
    | split
    | dsimp only

/-- What `wipe` can change. -/
theorem Kept.wipe {ps : List Part} {d0 d : Dev} {r : Region} {b cause : Nat} (hk : d0.Kept ps d) (hsub : ∀ p ∈ ([.regs, .mem, .poison, .wipes] : List Part), p ∈ ps) :
    d0.Kept ps (Dev.wipe d r b cause) := by
  refine hk.then (qs := [.regs, .mem, .poison, .wipes]) ?_ hsub
  unfold Dev.wipe
  try dsimp only
  repeat' first
    | with_reducible exact Kept.refl _ _
    | decide
    | with_reducible apply Kept.ite
    | with_reducible apply Kept.setWipe
    | with_reducible apply Kept.setOn
    | with_reducible apply Kept.setFld
    | with_reducible apply Kept.zero
    | with_reducible refine Kept.of_fst_eq (by assumption) ?_
    | split
    | dsimp only

/-- What `wipeAll` can change. -/
theorem Kept.wipeAll {ps : List Part} {d0 d : Dev} {cause : Nat} (hk : d0.Kept ps d) (hsub : ∀ p ∈ ([.regs, .mem, .poison, .wipes] : List Part), p ∈ ps) :
    d0.Kept ps (Dev.wipeAll d cause) := by
  refine hk.then (qs := [.regs, .mem, .poison, .wipes]) ?_ hsub
  unfold Dev.wipeAll
  try dsimp only
  repeat' first
    | with_reducible exact Kept.refl _ _
    | decide
    | with_reducible apply Kept.each
    | with_reducible apply Kept.wipe
    | (intro _)
    | with_reducible refine Kept.of_fst_eq (by assumption) ?_
    | split
    | dsimp only

/-- What `secSize` can change. -/
theorem Kept.secSize {ps : List Part} {d0 d : Dev} {r : Region} {b size workerRd : Nat} (hk : d0.Kept ps d) (hsub : ∀ p ∈ ([.regs, .mem, .poison, .wipes] : List Part), p ∈ ps) :
    d0.Kept ps (Dev.secSize d r b size workerRd) := by
  refine hk.then (qs := [.regs, .mem, .poison, .wipes]) ?_ hsub
  unfold Dev.secSize
  try dsimp only
  repeat' first
    | with_reducible exact Kept.refl _ _
    | decide
    | with_reducible apply Kept.ite
    | with_reducible apply Kept.wipe
    | with_reducible apply Kept.setFld
    | with_reducible refine Kept.of_fst_eq (by assumption) ?_
    | split
    | dsimp only

/-- What `secCtlWrite` can change. -/
theorem Kept.secCtlWrite {ps : List Part} {d0 d : Dev} {r : Region} {b v : Nat} (hk : d0.Kept ps d) (hsub : ∀ p ∈ ([.regs, .mem, .poison, .wipes] : List Part), p ∈ ps) :
    d0.Kept ps (Dev.secCtlWrite d r b v) := by
  refine hk.then (qs := [.regs, .mem, .poison, .wipes]) ?_ hsub
  unfold Dev.secCtlWrite
  try dsimp only
  repeat' first
    | with_reducible exact Kept.refl _ _
    | decide
    | with_reducible apply Kept.ite
    | with_reducible apply Kept.secSize
    | with_reducible apply Kept.wipe
    | with_reducible apply Kept.setOn
    | with_reducible refine Kept.of_fst_eq (by assumption) ?_
    | split
    | dsimp only

/-- What `memClean` can change. -/
theorem Kept.memClean {ps : List Part} {d0 d : Dev} {r : Region} {b v : Nat} (hk : d0.Kept ps d) (hsub : ∀ p ∈ ([.regs, .mem, .poison] : List Part), p ∈ ps) :
    d0.Kept ps (Dev.memClean d r b v) := by
  refine hk.then (qs := [.regs, .mem, .poison]) ?_ hsub
  unfold Dev.memClean
  try dsimp only
  repeat' first
    | with_reducible exact Kept.refl _ _
    | decide
    | with_reducible apply Kept.setOn
    | with_reducible apply Kept.zero
    | with_reducible refine Kept.of_fst_eq (by assumption) ?_
    | split
    | dsimp only

/-- What `setBlockState` can change. -/
theorem Kept.setBlockState {ps : List Part} {d0 d : Dev} {r : Region} {b v : Nat} (hk : d0.Kept ps d) (hsub : ∀ p ∈ ([.regs] : List Part), p ∈ ps) :
    d0.Kept ps (Dev.setBlockState d r b v) := by
  refine hk.then (qs := [.regs]) ?_ hsub
  unfold Dev.setBlockState
  try dsimp only
  repeat' first
    | with_reducible exact Kept.refl _ _
    | decide
    | with_reducible apply Kept.setFld
    | with_reducible refine Kept.of_fst_eq (by assumption) ?_
    | split
    | dsimp only

/-- What `requestBlock` can change. -/
theorem Kept.requestBlock {ps : List Part} {d0 d : Dev} {r : Region} {b : Nat} {on : Bool} (hk : d0.Kept ps d) (hsub : ∀ p ∈ ([.regs] : List Part), p ∈ ps) :
    d0.Kept ps (Dev.requestBlock d r b on) := by
  refine hk.then (qs := [.regs]) ?_ hsub
  unfold Dev.requestBlock
  try dsimp only
  repeat' first
    | with_reducible exact Kept.refl _ _
    | decide
    | with_reducible apply Kept.setBlockState
    | with_reducible refine Kept.of_fst_eq (by assumption) ?_
    | split
    | dsimp only

/-- What `retWrite` can change. -/
theorem Kept.retWrite {ps : List Part} {d0 d : Dev} {r : Region} {v : Nat} (hk : d0.Kept ps d) (hsub : ∀ p ∈ ([.regs, .wire, .ctxs, .thody, .ledger] : List Part), p ∈ ps) :
    d0.Kept ps (Dev.retWrite d r v) := by
  refine hk.then (qs := [.regs, .wire, .ctxs, .thody, .ledger]) ?_ hsub
  unfold Dev.retWrite
  try dsimp only
  repeat' first
    | with_reducible exact Kept.refl _ _
    | decide
    | with_reducible apply Kept.ite
    | with_reducible apply Kept.each
    | with_reducible apply Kept.requestBlock
    | with_reducible apply Kept.noteRequest
    | with_reducible apply Kept.err
    | with_reducible apply Kept.setFld
    | (intro _)
    | with_reducible refine Kept.of_fst_eq (by assumption) ?_
    | split
    | dsimp only

/-- What `dropChannels` can change. -/
theorem Kept.dropChannels {ps : List Part} {d0 d : Dev} {r : Region} {b : Nat} (hk : d0.Kept ps d) (hsub : ∀ p ∈ ([.regs, .wire, .blockCh, .regionCh] : List Part), p ∈ ps) :
    d0.Kept ps (Dev.dropChannels d r b) := by
  refine hk.then (qs := [.regs, .wire, .blockCh, .regionCh]) ?_ hsub
  unfold Dev.dropChannels
  try dsimp only
  repeat' first
    | with_reducible exact Kept.refl _ _
    | decide
    | with_reducible apply Kept.each
    | with_reducible apply Kept.setMsgs
    | with_reducible apply Kept.send
    | (intro _)
    | with_reducible refine Kept.of_fst_eq (by assumption) ?_
    | split
    | dsimp only

/-- What `resetCells` can change. -/
theorem Kept.resetCells {ps : List Part} {d0 d : Dev} {r : Region} {b : Nat} (hk : d0.Kept ps d) (hsub : ∀ p ∈ ([.regs, .pairs, .wire, .ctxs, .cells, .mirror, .requests] : List Part), p ∈ ps) :
    d0.Kept ps (Dev.resetCells d r b) := by
  refine hk.then (qs := [.regs, .pairs, .wire, .ctxs, .cells, .mirror, .requests]) ?_ hsub
  unfold Dev.resetCells
  try dsimp only
  repeat' first
    | with_reducible exact Kept.refl _ _
    | decide
    | with_reducible apply Kept.each
    | with_reducible apply Kept.resetCell
    | with_reducible apply Kept.clr
    | (intro _)
    | with_reducible refine Kept.of_fst_eq (by assumption) ?_
    | split
    | dsimp only

/-- What `enterRetention` can change. -/
theorem Kept.enterRetention {ps : List Part} {d0 d : Dev} {r : Region} {b : Nat} (hk : d0.Kept ps d) (hsub : ∀ p ∈ ([.regs, .pairs, .mem, .poison, .wire, .ctxs, .cells, .blockCh, .regionCh, .mirror, .requests] : List Part), p ∈ ps) :
    d0.Kept ps (Dev.enterRetention d r b) := by
  refine hk.then (qs := [.regs, .pairs, .mem, .poison, .wire, .ctxs, .cells, .blockCh, .regionCh, .mirror, .requests]) ?_ hsub
  unfold Dev.enterRetention
  try dsimp only
  repeat' first
    | with_reducible exact Kept.refl _ _
    | decide
    | with_reducible apply Kept.each
    | with_reducible apply Kept.resetCells
    | with_reducible apply Kept.dropChannels
    | with_reducible apply Kept.loseRange
    | with_reducible apply Kept.wakeFallback
    | (intro _)
    | with_reducible refine Kept.of_fst_eq (by assumption) ?_
    | split
    | dsimp only

/-- What `resetBlock` can change. -/
theorem Kept.resetBlock {ps : List Part} {d0 d : Dev} {r : Region} {b : Nat} (hk : d0.Kept ps d) (hsub : ∀ p ∈ ([.regs, .pairs, .mem, .poison, .wire, .ctxs, .cells, .blockCh, .regionCh, .mirror, .requests, .wipes] : List Part), p ∈ ps) :
    d0.Kept ps (Dev.resetBlock d r b) := by
  refine hk.then (qs := [.regs, .pairs, .mem, .poison, .wire, .ctxs, .cells, .blockCh, .regionCh, .mirror, .requests, .wipes]) ?_ hsub
  unfold Dev.resetBlock
  try dsimp only
  repeat' first
    | with_reducible exact Kept.refl _ _
    | decide
    | with_reducible apply Kept.each
    | with_reducible apply Kept.resetCells
    | with_reducible apply Kept.dropChannels
    | with_reducible apply Kept.setBlockState
    | with_reducible apply Kept.wipe
    | with_reducible apply Kept.resetPairs
    | with_reducible apply Kept.resetRegs
    | with_reducible apply Kept.refreshBudget
    | with_reducible apply Kept.wakeFallback
    | with_reducible apply Kept.setOn
    | with_reducible apply Kept.setFld
    | with_reducible apply Kept.zero
    | (intro _)
    | with_reducible refine Kept.of_fst_eq (by assumption) ?_
    | split
    | dsimp only

/-- What `blkRstWrite` can change. -/
theorem Kept.blkRstWrite {ps : List Part} {d0 d : Dev} {r : Region} {v : Nat} (hk : d0.Kept ps d) (hsub : ∀ p ∈ ([.regs, .pairs, .mem, .poison, .wire, .ctxs, .cells, .blockCh, .regionCh, .mirror, .requests, .wipes] : List Part), p ∈ ps) :
    d0.Kept ps (Dev.blkRstWrite d r v) := by
  refine hk.then (qs := [.regs, .pairs, .mem, .poison, .wire, .ctxs, .cells, .blockCh, .regionCh, .mirror, .requests, .wipes]) ?_ hsub
  unfold Dev.blkRstWrite
  try dsimp only
  repeat' first
    | with_reducible exact Kept.refl _ _
    | decide
    | with_reducible apply Kept.each
    | with_reducible apply Kept.resetBlock
    | (intro _)
    | with_reducible refine Kept.of_fst_eq (by assumption) ?_
    | split
    | dsimp only

/-- What `icInvWrite` can change. -/
theorem Kept.icInvWrite {ps : List Part} {d0 d : Dev} {r : Region} {b v : Nat} (hk : d0.Kept ps d) (hsub : ∀ p ∈ ([.cells] : List Part), p ∈ ps) :
    d0.Kept ps (Dev.icInvWrite d r b v) := by
  refine hk.then (qs := [.cells]) ?_ hsub
  unfold Dev.icInvWrite
  try dsimp only
  repeat' first
    | with_reducible exact Kept.refl _ _
    | decide
    | with_reducible apply Kept.each
    | with_reducible apply Kept.dropIcache
    | (intro _)
    | with_reducible refine Kept.of_fst_eq (by assumption) ?_
    | split
    | dsimp only

/-- What `cellRunWrite` can change. -/
theorem Kept.cellRunWrite {ps : List Part} {d0 d : Dev} {r : Region} {b v : Nat} (hk : d0.Kept ps d) (hsub : ∀ p ∈ ([.regs, .pairs, .mem, .poison, .wire, .ctxs, .cells, .thody, .mirror, .ledger, .requests] : List Part), p ∈ ps) :
    d0.Kept ps (Dev.cellRunWrite d r b v) := by
  refine hk.then (qs := [.regs, .pairs, .mem, .poison, .wire, .ctxs, .cells, .thody, .mirror, .ledger, .requests]) ?_ hsub
  unfold Dev.cellRunWrite
  try dsimp only
  repeat' first
    | with_reducible exact Kept.refl _ _
    | decide
    | with_reducible apply Kept.each
    | with_reducible apply Kept.setCellRun
    | with_reducible apply Kept.noteRequest
    | with_reducible apply Kept.zero
    | (intro _)
    | with_reducible refine Kept.of_fst_eq (by assumption) ?_
    | split
    | dsimp only

end Sys2Proof.Machine.Dev
end

