-- ==== Sys2Proof/Laws/HbmKept.lean ====
section
/-!
SUPPORT. What each operation of Machine/Hbm.lean can change at most, and that it keeps the canonical forms.
-/

namespace Sys2Proof.Machine.Dev

/-- What `modHbm` can change. -/
theorem Kept.modHbm {ps : List Part} {d0 d : Dev} {r : Region} {f : HbmState → HbmState} (hk : d0.Kept ps d) (hsub : ∀ p ∈ ([.hbm] : List Part), p ∈ ps) :
    d0.Kept ps (Dev.modHbm d r f) := by
  refine hk.then (qs := [.hbm]) ?_ hsub
  unfold Dev.modHbm
  try dsimp only
  repeat' first
    | with_reducible exact Kept.refl _ _
    | decide
    | with_reducible apply Kept.modR
    | (intro g p hp; cases p <;> first | trivial | rfl | exact absurd (by decide) hp)
    | with_reducible refine Kept.of_fst_eq (by assumption) ?_
    | split
    | dsimp only

/-- What `hbmReject` can change. -/
theorem Kept.hbmReject {ps : List Part} {d0 d : Dev} {r : Region} (hk : d0.Kept ps d) (hsub : ∀ p ∈ ([.regs, .wire, .ctxs] : List Part), p ∈ ps) :
    d0.Kept ps (Dev.hbmReject d r) := by
  refine hk.then (qs := [.regs, .wire, .ctxs]) ?_ hsub
  unfold Dev.hbmReject
  try dsimp only
  repeat' first
    | with_reducible exact Kept.refl _ _
    | decide
    | with_reducible apply Kept.err
    | with_reducible refine Kept.of_fst_eq (by assumption) ?_
    | split
    | dsimp only

/-- What `failStack` can change. -/
theorem Kept.failStack {ps : List Part} {d0 d : Dev} {r : Region} {cause : Nat} (hk : d0.Kept ps d) (hsub : ∀ p ∈ ([.regs, .mem, .wire, .line, .ctxs, .endpoints, .journal, .hbm] : List Part), p ∈ ps) :
    d0.Kept ps (Dev.failStack d r cause) := by
  refine hk.then (qs := [.regs, .mem, .wire, .line, .ctxs, .endpoints, .journal, .hbm]) ?_ hsub
  unfold Dev.failStack
  try dsimp only
  repeat' first
    | with_reducible exact Kept.refl _ _
    | decide
    | with_reducible apply Kept.ite
    | with_reducible apply Kept.modHbm
    | with_reducible apply Kept.journalRegion
    | with_reducible apply Kept.err
    | with_reducible apply Kept.setFld
    | with_reducible apply Kept.clr
    | with_reducible refine Kept.of_fst_eq (by assumption) ?_
    | split
    | dsimp only

/-- What `requestRate` can change. -/
theorem Kept.requestRate {ps : List Part} {d0 d : Dev} {r : Region} {rate : Nat} (hk : d0.Kept ps d) (hsub : ∀ p ∈ ([.regs, .wire, .ctxs] : List Part), p ∈ ps) :
    d0.Kept ps (Dev.requestRate d r rate) := by
  refine hk.then (qs := [.regs, .wire, .ctxs]) ?_ hsub
  unfold Dev.requestRate
  try dsimp only
  repeat' first
    | with_reducible exact Kept.refl _ _
    | decide
    | with_reducible apply Kept.ite
    | with_reducible apply Kept.err
    | with_reducible apply Kept.setOn
    | with_reducible apply Kept.clr
    | with_reducible apply Kept.setFld
    | with_reducible refine Kept.of_fst_eq (by assumption) ?_
    | split
    | dsimp only

/-- What `rateWrite` can change. -/
theorem Kept.rateWrite {ps : List Part} {d0 d : Dev} {r : Region} {rate : Nat} (hk : d0.Kept ps d) (hsub : ∀ p ∈ ([.regs, .wire, .ctxs, .hbm] : List Part), p ∈ ps) :
    d0.Kept ps (Dev.rateWrite d r rate) := by
  refine hk.then (qs := [.regs, .wire, .ctxs, .hbm]) ?_ hsub
  unfold Dev.rateWrite
  try dsimp only
  repeat' first
    | with_reducible exact Kept.refl _ _
    | decide
    | with_reducible apply Kept.ite
    | with_reducible apply Kept.requestRate
    | with_reducible apply Kept.hbmReject
    | with_reducible apply Kept.modHbm
    | with_reducible apply Kept.setFld
    | with_reducible refine Kept.of_fst_eq (by assumption) ?_
    | split
    | dsimp only

/-- What `coolDown` can change. -/
theorem Kept.coolDown {ps : List Part} {d0 d : Dev} {r : Region} (hk : d0.Kept ps d) (hsub : ∀ p ∈ ([.regs, .wire, .ctxs, .hbm] : List Part), p ∈ ps) :
    d0.Kept ps (Dev.coolDown d r) := by
  refine hk.then (qs := [.regs, .wire, .ctxs, .hbm]) ?_ hsub
  unfold Dev.coolDown
  try dsimp only
  repeat' first
    | with_reducible exact Kept.refl _ _
    | decide
    | with_reducible apply Kept.ite
    | with_reducible apply Kept.requestRate
    | with_reducible apply Kept.modHbm
    | with_reducible refine Kept.of_fst_eq (by assumption) ?_
    | split
    | dsimp only

/-- What `noteRow` can change. -/
theorem Kept.noteRow {ps : List Part} {d0 d : Dev} {r : Region} {addr : Nat} (hk : d0.Kept ps d) (hsub : ∀ p ∈ ([.hbm] : List Part), p ∈ ps) :
    d0.Kept ps (Dev.noteRow d r addr) := by
  refine hk.then (qs := [.hbm]) ?_ hsub
  unfold Dev.noteRow
  try dsimp only
  repeat' first
    | with_reducible exact Kept.refl _ _
    | decide
    | with_reducible apply Kept.ite
    | with_reducible apply Kept.modHbm
    | with_reducible refine Kept.of_fst_eq (by assumption) ?_
    | split
    | dsimp only

/-- What `findColumn` can change. -/
theorem Kept.findColumn {ps : List Part} {d0 d : Dev} {r : Region} {addr found : Nat} (hk : d0.Kept ps d) (hsub : ∀ p ∈ ([.regs, .mem, .poison, .wire, .line, .ctxs, .endpoints, .pool, .journal, .hbm] : List Part), p ∈ ps) :
    d0.Kept ps (Dev.findColumn d r addr found) := by
  refine hk.then (qs := [.regs, .mem, .poison, .wire, .line, .ctxs, .endpoints, .pool, .journal, .hbm]) ?_ hsub
  unfold Dev.findColumn
  try dsimp only
  repeat' first
    | with_reducible exact Kept.refl _ _
    | decide
    | with_reducible apply Kept.ite
    | with_reducible apply Kept.noteRow
    | with_reducible apply Kept.withdrawLine
    | with_reducible apply Kept.journalRegion
    | with_reducible apply Kept.err
    | with_reducible apply Kept.raise
    | with_reducible apply Kept.setReg
    | with_reducible apply Kept.setPoison
    | with_reducible apply Kept.addSat
    | with_reducible refine Kept.of_fst_eq (by assumption) ?_
    | split
    | dsimp only

/-- What `findFor` can change. -/
theorem Kept.findFor {ps : List Part} {d0 d : Dev} {r : Region} {write : Bool} {addr len found : Nat} (hk : d0.Kept ps d) (hsub : ∀ p ∈ ([.regs, .mem, .poison, .wire, .line, .ctxs, .endpoints, .pool, .journal, .hbm] : List Part), p ∈ ps) :
    d0.Kept ps (Dev.findFor d r write addr len found) := by
  refine hk.then (qs := [.regs, .mem, .poison, .wire, .line, .ctxs, .endpoints, .pool, .journal, .hbm]) ?_ hsub
  unfold Dev.findFor
  try dsimp only
  repeat' first
    | with_reducible exact Kept.refl _ _
    | decide
    | with_reducible apply Kept.ite
    | with_reducible apply Kept.findColumn
    | with_reducible refine Kept.of_fst_eq (by assumption) ?_
    | split
    | dsimp only

/-- What `hbmWrite` can change. -/
theorem Kept.hbmWrite {ps : List Part} {d0 d : Dev} {r : Region} {addr : Nat} {data : List Byte} (hk : d0.Kept ps d) (hsub : ∀ p ∈ ([.regs, .mem, .poison, .wire, .ctxs] : List Part), p ∈ ps) :
    d0.Kept ps (Dev.hbmWrite d r addr data) := by
  refine hk.then (qs := [.regs, .mem, .poison, .wire, .ctxs]) ?_ hsub
  unfold Dev.hbmWrite
  try dsimp only
  repeat' first
    | with_reducible exact Kept.refl _ _
    | decide
    | with_reducible apply Kept.ite
    | with_reducible apply Kept.writeLines
    | with_reducible apply Kept.err
    | with_reducible refine Kept.of_fst_eq (by assumption) ?_
    | split
    | dsimp only

/-- What `serveHbm` can change. -/
theorem Kept.serveHbm {ps : List Part} {d0 d : Dev} {r : Region} {q : HbmReq} (hk : d0.Kept ps d) (hsub : ∀ p ∈ ([.regs, .mem, .poison, .wire, .ctxs, .hbm] : List Part), p ∈ ps) :
    d0.Kept ps (Dev.serveHbm d r q) := by
  refine hk.then (qs := [.regs, .mem, .poison, .wire, .ctxs, .hbm]) ?_ hsub
  unfold Dev.serveHbm
  try dsimp only
  repeat' first
    | with_reducible exact Kept.refl _ _
    | decide
    | with_reducible apply Kept.ite
    | with_reducible apply Kept.hbmWrite
    | with_reducible apply Kept.modHbm
    | with_reducible apply Kept.event
    | with_reducible refine Kept.of_fst_eq (by assumption) ?_
    | split
    | dsimp only

/-- What `serveWaiting` can change. -/
theorem Kept.serveWaiting {ps : List Part} {d0 d : Dev} {r : Region} {q : HbmReq} (hk : d0.Kept ps d) (hsub : ∀ p ∈ ([.regs, .mem, .poison, .wire, .ctxs, .hbm] : List Part), p ∈ ps) :
    d0.Kept ps (Dev.serveWaiting d r q) := by
  refine hk.then (qs := [.regs, .mem, .poison, .wire, .ctxs, .hbm]) ?_ hsub
  unfold Dev.serveWaiting
  try dsimp only
  repeat' first
    | with_reducible exact Kept.refl _ _
    | decide
    | with_reducible apply Kept.ite
    | with_reducible apply Kept.serveHbm
    | with_reducible apply Kept.maxFld
    | with_reducible refine Kept.of_fst_eq (by assumption) ?_
    | split
    | dsimp only

/-- What `releaseHeld` can change. -/
theorem Kept.releaseHeld {ps : List Part} {d0 d : Dev} {r : Region} (hk : d0.Kept ps d) (hsub : ∀ p ∈ ([.regs, .mem, .poison, .wire, .ctxs, .hbm] : List Part), p ∈ ps) :
    d0.Kept ps (Dev.releaseHeld d r) := by
  refine hk.then (qs := [.regs, .mem, .poison, .wire, .ctxs, .hbm]) ?_ hsub
  unfold Dev.releaseHeld
  try dsimp only
  repeat' first
    | with_reducible exact Kept.refl _ _
    | decide
    | with_reducible apply Kept.each
    | with_reducible apply Kept.serveWaiting
    | with_reducible apply Kept.modHbm
    | (intro _)
    | with_reducible refine Kept.of_fst_eq (by assumption) ?_
    | split
    | dsimp only

/-- What `enterRounds` can change. -/
theorem Kept.enterRounds {ps : List Part} {d0 d : Dev} {r : Region} {pc : Nat} (hk : d0.Kept ps d) (hsub : ∀ p ∈ ([.hbm] : List Part), p ∈ ps) :
    d0.Kept ps (Dev.enterRounds d r pc) := by
  refine hk.then (qs := [.hbm]) ?_ hsub
  unfold Dev.enterRounds
  try dsimp only
  repeat' first
    | with_reducible exact Kept.refl _ _
    | decide
    | with_reducible apply Kept.modHbm
    | with_reducible refine Kept.of_fst_eq (by assumption) ?_
    | split
    | dsimp only

/-- What `insertStep` can change. -/
theorem Kept.insertStep {ps : List Part} {d0 d : Dev} {r : Region} {pc : Nat} (hk : d0.Kept ps d) (hsub : ∀ p ∈ ([.regs, .wire, .ctxs, .hbm] : List Part), p ∈ ps) :
    d0.Kept ps (Dev.insertStep d r pc) := by
  refine hk.then (qs := [.regs, .wire, .ctxs, .hbm]) ?_ hsub
  unfold Dev.insertStep
  try dsimp only
  repeat' first
    | with_reducible exact Kept.refl _ _
    | decide
    | with_reducible apply Kept.ite
    | with_reducible apply Kept.modHbm
    | with_reducible apply Kept.err
    | with_reducible apply Kept.event
    | with_reducible apply Kept.addSat
    | with_reducible refine Kept.of_fst_eq (by assumption) ?_
    | split
    | dsimp only

/-- What `followBurst` can change. -/
theorem Kept.followBurst {ps : List Part} {d0 d : Dev} {r : Region} {port pc : Nat} {first last : Bool} (hk : d0.Kept ps d) (hsub : ∀ p ∈ ([.regs, .wire, .ctxs, .hbm] : List Part), p ∈ ps) :
    d0.Kept ps (Dev.followBurst d r port pc first last) := by
  refine hk.then (qs := [.regs, .wire, .ctxs, .hbm]) ?_ hsub
  unfold Dev.followBurst
  try dsimp only
  repeat' first
    | with_reducible exact Kept.refl _ _
    | decide
    | with_reducible apply Kept.ite
    | with_reducible apply Kept.insertStep
    | with_reducible apply Kept.enterRounds
    | with_reducible apply Kept.modHbm
    | with_reducible refine Kept.of_fst_eq (by assumption) ?_
    | split
    | dsimp only

/-- What `serveEarlier` can change. -/
theorem Kept.serveEarlier {ps : List Part} {d0 d : Dev} {r : Region} {port pc : Nat} (hk : d0.Kept ps d) (hsub : ∀ p ∈ ([.regs, .mem, .poison, .wire, .ctxs, .hbm] : List Part), p ∈ ps) :
    d0.Kept ps (Dev.serveEarlier d r port pc) := by
  refine hk.then (qs := [.regs, .mem, .poison, .wire, .ctxs, .hbm]) ?_ hsub
  unfold Dev.serveEarlier
  try dsimp only
  repeat' first
    | with_reducible exact Kept.refl _ _
    | decide
    | with_reducible apply Kept.each
    | with_reducible apply Kept.serveWaiting
    | with_reducible apply Kept.modHbm
    | (intro _)
    | with_reducible refine Kept.of_fst_eq (by assumption) ?_
    | split
    | dsimp only

/-- What `startInit` can change. -/
theorem Kept.startInit {ps : List Part} {d0 d : Dev} {r : Region} (hk : d0.Kept ps d) (hsub : ∀ p ∈ ([.regs, .mem, .poison, .hbm] : List Part), p ∈ ps) :
    d0.Kept ps (Dev.startInit d r) := by
  refine hk.then (qs := [.regs, .mem, .poison, .hbm]) ?_ hsub
  unfold Dev.startInit
  try dsimp only
  repeat' first
    | with_reducible exact Kept.refl _ _
    | decide
    | with_reducible apply Kept.modHbm
    | with_reducible apply Kept.setFld
    | with_reducible apply Kept.zero
    | with_reducible refine Kept.of_fst_eq (by assumption) ?_
    | split
    | dsimp only

/-- What `orderWrite` can change. -/
theorem Kept.orderWrite {ps : List Part} {d0 d : Dev} {r : Region} {order : Nat} (hk : d0.Kept ps d) (hsub : ∀ p ∈ ([.regs, .mem, .poison, .wire, .ctxs, .hbm] : List Part), p ∈ ps) :
    d0.Kept ps (Dev.orderWrite d r order) := by
  refine hk.then (qs := [.regs, .mem, .poison, .wire, .ctxs, .hbm]) ?_ hsub
  unfold Dev.orderWrite
  try dsimp only
  repeat' first
    | with_reducible exact Kept.refl _ _
    | decide
    | with_reducible apply Kept.ite
    | with_reducible apply Kept.startInit
    | with_reducible apply Kept.hbmReject
    | with_reducible apply Kept.setFld
    | with_reducible refine Kept.of_fst_eq (by assumption) ?_
    | split
    | dsimp only

/-- What `retrain` can change. -/
theorem Kept.retrain {ps : List Part} {d0 d : Dev} {r : Region} (hk : d0.Kept ps d) (hsub : ∀ p ∈ ([.regs, .wire, .ctxs] : List Part), p ∈ ps) :
    d0.Kept ps (Dev.retrain d r) := by
  refine hk.then (qs := [.regs, .wire, .ctxs]) ?_ hsub
  unfold Dev.retrain
  try dsimp only
  repeat' first
    | with_reducible exact Kept.refl _ _
    | decide
    | with_reducible apply Kept.ite
    | with_reducible apply Kept.hbmReject
    | with_reducible apply Kept.setOn
    | with_reducible apply Kept.setFld
    | with_reducible refine Kept.of_fst_eq (by assumption) ?_
    | split
    | dsimp only

/-- What `becomeReady` can change. -/
theorem Kept.becomeReady {ps : List Part} {d0 d : Dev} {r : Region} (hk : d0.Kept ps d) (hsub : ∀ p ∈ ([.regs, .mem, .poison, .wire, .ctxs, .hbm] : List Part), p ∈ ps) :
    d0.Kept ps (Dev.becomeReady d r) := by
  refine hk.then (qs := [.regs, .mem, .poison, .wire, .ctxs, .hbm]) ?_ hsub
  unfold Dev.becomeReady
  try dsimp only
  repeat' first
    | with_reducible exact Kept.refl _ _
    | decide
    | with_reducible apply Kept.releaseHeld
    | with_reducible apply Kept.setFld
    | with_reducible refine Kept.of_fst_eq (by assumption) ?_
    | split
    | dsimp only

end Sys2Proof.Machine.Dev
end

