-- ==== Sys2Proof/Laws/RingsKept.lean ====
section
/-!
SUPPORT. What each operation of Machine/Rings.lean can change at most, and that it keeps the canonical forms.
-/

namespace Sys2Proof.Machine.Dev

/-- What `epErr` can change. -/
theorem Kept.epErr {ps : List Part} {d0 d : Dev} {e : Endpoint} {f : Fld} {n : Nat} (hk : d0.Kept ps d) (hsub : ∀ p ∈ ([.regs, .wire, .ctxs] : List Part), p ∈ ps) :
    d0.Kept ps (Dev.epErr d e f n) := by
  refine hk.then (qs := [.regs, .wire, .ctxs]) ?_ hsub
  unfold Dev.epErr
  try dsimp only
  repeat' first
    | with_reducible exact Kept.refl _ _
    | decide
    | with_reducible apply Kept.err
    | with_reducible refine Kept.of_fst_eq (by assumption) ?_
    | split
    | dsimp only

/-- What `doorbell` can change. -/
theorem Kept.doorbell {ps : List Part} {d0 d : Dev} {e : Endpoint} {k pi ci size : Nat} (hk : d0.Kept ps d) (hsub : ∀ p ∈ ([.regs, .wire, .ctxs, .endpoints] : List Part), p ∈ ps) :
    d0.Kept ps (Dev.doorbell d e k pi ci size) := by
  refine hk.then (qs := [.regs, .wire, .ctxs, .endpoints]) ?_ hsub
  unfold Dev.doorbell
  try dsimp only
  repeat' first
    | with_reducible exact Kept.refl _ _
    | decide
    | with_reducible apply Kept.ite
    | with_reducible apply Kept.epErr
    | with_reducible apply Kept.modEp
    | with_reducible refine Kept.of_fst_eq (by assumption) ?_
    | split
    | dsimp only

/-- What `signalPair` can change. -/
theorem Kept.signalPair {ps : List Part} {d0 d : Dev} {e : Endpoint} {q : Nat} (hk : d0.Kept ps d) (hsub : ∀ p ∈ ([.line, .endpoints] : List Part), p ∈ ps) :
    d0.Kept ps (Dev.signalPair d e q) := by
  refine hk.then (qs := [.line, .endpoints]) ?_ hsub
  unfold Dev.signalPair
  try dsimp only
  repeat' first
    | with_reducible exact Kept.refl _ _
    | decide
    | with_reducible apply Kept.ite
    | with_reducible apply Kept.msix
    | with_reducible apply Kept.modEp
    | with_reducible refine Kept.of_fst_eq (by assumption) ?_
    | split
    | dsimp only

/-- What `zeroStatus` can change. -/
theorem Kept.zeroStatus {ps : List Part} {d0 d : Dev} {e : Endpoint} (hk : d0.Kept ps d) (hsub : ∀ p ∈ ([.regs, .wire, .ctxs] : List Part), p ∈ ps) :
    d0.Kept ps (Dev.zeroStatus d e).1 := by
  refine hk.then (qs := [.regs, .wire, .ctxs]) ?_ hsub
  unfold Dev.zeroStatus
  try dsimp only
  repeat' first
    | with_reducible exact Kept.refl _ _
    | decide
    | with_reducible apply Kept.ite
    | with_reducible apply Kept.ite_fst
    | with_reducible apply Kept.epErr
    | with_reducible refine Kept.of_fst_eq (by assumption) ?_
    | split
    | dsimp only

/-- What `txComplete` can change. -/
theorem Kept.txComplete {ps : List Part} {d0 d : Dev} {e : Endpoint} {q i tick seq reason status : Nat} (hk : d0.Kept ps d) (hsub : ∀ p ∈ ([.regs, .mem, .line, .endpoints] : List Part), p ∈ ps) :
    d0.Kept ps (Dev.txComplete d e q i tick seq reason status) := by
  refine hk.then (qs := [.regs, .mem, .line, .endpoints]) ?_ hsub
  unfold Dev.txComplete
  try dsimp only
  repeat' first
    | with_reducible exact Kept.refl _ _
    | decide
    | with_reducible apply Kept.signalPair
    | with_reducible apply Kept.setBytes
    | with_reducible apply Kept.setFld
    | with_reducible apply Kept.clr
    | with_reducible refine Kept.of_fst_eq (by assumption) ?_
    | split
    | dsimp only

/-- What `takeTx` can change. -/
theorem Kept.takeTx {ps : List Part} {d0 d : Dev} {e : Endpoint} {q : Nat} (hk : d0.Kept ps d) (hsub : ∀ p ∈ ([.regs, .mem, .wire, .line, .ctxs, .endpoints, .dispatch] : List Part), p ∈ ps) :
    d0.Kept ps (Dev.takeTx d e q) := by
  refine hk.then (qs := [.regs, .mem, .wire, .line, .ctxs, .endpoints, .dispatch]) ?_ hsub
  unfold Dev.takeTx
  try dsimp only
  repeat' first
    | with_reducible exact Kept.refl _ _
    | decide
    | with_reducible apply Kept.ite
    | with_reducible apply Kept.txComplete
    | with_reducible apply Kept.zeroStatus
    | with_reducible apply Kept.pressure
    | with_reducible apply Kept.modDsp
    | with_reducible apply Kept.modEp
    | with_reducible apply Kept.setOn
    | with_reducible refine Kept.of_fst_eq (by assumption) ?_
    | split
    | dsimp only

/-- What `dropReserve` can change. -/
theorem Kept.dropReserve {ps : List Part} {d0 d : Dev} {r : Region} (hk : d0.Kept ps d) (hsub : ∀ p ∈ ([.regs, .wire, .ctxs, .dispatch] : List Part), p ∈ ps) :
    d0.Kept ps (Dev.dropReserve d r) := by
  refine hk.then (qs := [.regs, .wire, .ctxs, .dispatch]) ?_ hsub
  unfold Dev.dropReserve
  try dsimp only
  repeat' first
    | with_reducible exact Kept.refl _ _
    | decide
    | with_reducible apply Kept.pressure
    | with_reducible apply Kept.modDsp
    | with_reducible refine Kept.of_fst_eq (by assumption) ?_
    | split
    | dsimp only

/-- What `endTx` can change. -/
theorem Kept.endTx {ps : List Part} {d0 d : Dev} {e : Endpoint} {q : Nat} {j : TxJob} {failed : Bool} {time : Nat} (hk : d0.Kept ps d) (hsub : ∀ p ∈ ([.regs, .mem, .wire, .line, .ctxs, .packets, .nextPacket, .endpoints, .pool, .front, .dispatch, .journal] : List Part), p ∈ ps) :
    d0.Kept ps (Dev.endTx d e q j failed time) := by
  refine hk.then (qs := [.regs, .mem, .wire, .line, .ctxs, .packets, .nextPacket, .endpoints, .pool, .front, .dispatch, .journal]) ?_ hsub
  unfold Dev.endTx
  try dsimp only
  repeat' first
    | with_reducible exact Kept.refl _ _
    | decide
    | with_reducible apply Kept.ite
    | with_reducible apply Kept.dropReserve
    | with_reducible apply Kept.txComplete
    | with_reducible apply Kept.epErr
    | with_reducible apply Kept.stampPacket
    | with_reducible apply Kept.takeIn
    | with_reducible apply Kept.writeChain
    | with_reducible apply Kept.dropCount
    | with_reducible apply Kept.modEp
    | with_reducible refine Kept.of_fst_eq (by assumption) ?_
    | split
    | dsimp only

/-- What `setRxQueue` can change. -/
theorem Kept.setRxQueue {ps : List Part} {d0 d : Dev} {e : Endpoint} {q : Nat} {l : List RxPkt} (hk : d0.Kept ps d) (hsub : ∀ p ∈ ([.endpoints] : List Part), p ∈ ps) :
    d0.Kept ps (Dev.setRxQueue d e q l) := by
  refine hk.then (qs := [.endpoints]) ?_ hsub
  unfold Dev.setRxQueue
  try dsimp only
  repeat' first
    | with_reducible exact Kept.refl _ _
    | decide
    | with_reducible apply Kept.modEp
    | with_reducible refine Kept.of_fst_eq (by assumption) ?_
    | split
    | dsimp only

/-- What `rxGiveBack` can change. -/
theorem Kept.rxGiveBack {ps : List Part} {d0 d : Dev} {e : Endpoint} {x : RxPkt} (hk : d0.Kept ps d) (hsub : ∀ p ∈ ([.regs, .mem, .wire, .line, .ctxs, .packets, .endpoints, .commit, .pool, .egress, .journal] : List Part), p ∈ ps) :
    d0.Kept ps (Dev.rxGiveBack d e x) := by
  refine hk.then (qs := [.regs, .mem, .wire, .line, .ctxs, .packets, .endpoints, .commit, .pool, .egress, .journal]) ?_ hsub
  unfold Dev.rxGiveBack
  try dsimp only
  repeat' first
    | with_reducible exact Kept.refl _ _
    | decide
    | with_reducible apply Kept.ite
    | with_reducible apply Kept.reportOutcome
    | with_reducible apply Kept.deref
    | with_reducible apply Kept.send
    | with_reducible refine Kept.of_fst_eq (by assumption) ?_
    | split
    | dsimp only

/-- What `dropRx` can change. -/
theorem Kept.dropRx {ps : List Part} {d0 d : Dev} {e : Endpoint} {code : Nat} {x : RxPkt} (hk : d0.Kept ps d) (hsub : ∀ p ∈ ([.regs, .mem, .wire, .line, .ctxs, .packets, .endpoints, .commit, .pool, .egress, .journal] : List Part), p ∈ ps) :
    d0.Kept ps (Dev.dropRx d e code x) := by
  refine hk.then (qs := [.regs, .mem, .wire, .line, .ctxs, .packets, .endpoints, .commit, .pool, .egress, .journal]) ?_ hsub
  unfold Dev.dropRx
  try dsimp only
  repeat' first
    | with_reducible exact Kept.refl _ _
    | decide
    | with_reducible apply Kept.rxGiveBack
    | with_reducible apply Kept.dropCount
    | with_reducible refine Kept.of_fst_eq (by assumption) ?_
    | split
    | dsimp only

/-- What `rxWrite` can change. -/
theorem Kept.rxWrite {ps : List Part} {d0 d : Dev} {e : Endpoint} {q : Nat} {x : RxPkt} {first : Bool} {x1 : List (Nat × Nat)} {x2 : List Byte} (hk : d0.Kept ps d) (hsub : ∀ p ∈ ([.regs, .mem, .wire, .ctxs] : List Part), p ∈ ps) :
    d0.Kept ps (Dev.rxWrite d e q x first x1 x2) := by
  refine hk.then (qs := [.regs, .mem, .wire, .ctxs]) ?_ hsub
  clear hk
  induction x1 generalizing d e q x first x2 with
  | nil =>
    unfold Dev.rxWrite
    try dsimp only
    repeat' first
      | with_reducible exact Kept.refl _ _
      | decide
      | with_reducible apply Kept.ite
      | with_reducible apply Kept.zeroStatus
      | with_reducible apply Kept.setBytes
      | with_reducible apply Kept.setFld
      | with_reducible refine Kept.of_fst_eq (by assumption) ?_
      | split
      | dsimp only
  | cons a t ih =>
    replace ih : ∀ {d1 d : Dev} {e : Endpoint} {q : Nat} {x : RxPkt} {first : Bool} {x2 : List Byte}, d1.Kept [.regs, .mem, .wire, .ctxs] d → d1.Kept [.regs, .mem, .wire, .ctxs] (Dev.rxWrite d e q x first t x2) :=
      fun h => h.then ih (fun _ => id)
    unfold Dev.rxWrite
    try dsimp only
    repeat' first
      | with_reducible exact Kept.refl _ _
      | decide
      | with_reducible apply Kept.ite
      | with_reducible apply ih
      | with_reducible apply Kept.zeroStatus
      | with_reducible apply Kept.setBytes
      | with_reducible apply Kept.setFld
      | with_reducible refine Kept.of_fst_eq (by assumption) ?_
      | split
      | dsimp only

/-- What `urComplete` can change. -/
theorem Kept.urComplete {ps : List Part} {d0 d : Dev} {e : Endpoint} {k i code visible index : Nat} (hk : d0.Kept ps d) (hsub : ∀ p ∈ ([.mem, .line, .endpoints] : List Part), p ∈ ps) :
    d0.Kept ps (Dev.urComplete d e k i code visible index) := by
  refine hk.then (qs := [.mem, .line, .endpoints]) ?_ hsub
  unfold Dev.urComplete
  try dsimp only
  repeat' first
    | with_reducible exact Kept.refl _ _
    | decide
    | with_reducible apply Kept.ite
    | with_reducible apply Kept.msix
    | with_reducible apply Kept.setBytes
    | with_reducible refine Kept.of_fst_eq (by assumption) ?_
    | split
    | dsimp only

/-- What `takeUpdate` can change. -/
theorem Kept.takeUpdate {ps : List Part} {d0 d : Dev} {e : Endpoint} {k time : Nat} (hk : d0.Kept ps d) (hsub : ∀ p ∈ ([.regs, .wire, .ctxs, .endpoints, .commit] : List Part), p ∈ ps) :
    d0.Kept ps (Dev.takeUpdate d e k time) := by
  refine hk.then (qs := [.regs, .wire, .ctxs, .endpoints, .commit]) ?_ hsub
  unfold Dev.takeUpdate
  try dsimp only
  repeat' first
    | with_reducible exact Kept.refl _ _
    | decide
    | with_reducible apply Kept.ite
    | with_reducible apply Kept.stage
    | with_reducible apply Kept.outcome
    | with_reducible apply Kept.modEp
    | with_reducible apply Kept.setFld
    | with_reducible refine Kept.of_fst_eq (by assumption) ?_
    | split
    | dsimp only

/-- What `resetEndpoint` can change. -/
theorem Kept.resetEndpoint {ps : List Part} {d0 d : Dev} {e : Endpoint} (hk : d0.Kept ps d) (hsub : ∀ p ∈ ([.regs, .mem, .wire, .line, .ctxs, .packets, .endpoints, .commit, .pool, .egress, .dispatch, .journal] : List Part), p ∈ ps) :
    d0.Kept ps (Dev.resetEndpoint d e) := by
  refine hk.then (qs := [.regs, .mem, .wire, .line, .ctxs, .packets, .endpoints, .commit, .pool, .egress, .dispatch, .journal]) ?_ hsub
  unfold Dev.resetEndpoint
  try dsimp only
  repeat' first
    | with_reducible exact Kept.refl _ _
    | decide
    | with_reducible apply Kept.each
    | with_reducible apply Kept.dropRx
    | with_reducible apply Kept.dropReserve
    | with_reducible apply Kept.modEp
    | with_reducible apply Kept.setReg
    | with_reducible apply Kept.clr
    | (intro _)
    | with_reducible refine Kept.of_fst_eq (by assumption) ?_
    | split
    | dsimp only

/-- What `ptsRead` can change. -/
theorem Kept.ptsRead {ps : List Part} {d0 d : Dev} {r : Region} {p : Nat} (hk : d0.Kept ps d) (hsub : ∀ p ∈ ([.regs, .egress] : List Part), p ∈ ps) :
    d0.Kept ps (Dev.ptsRead d r p).1 := by
  refine hk.then (qs := [.regs, .egress]) ?_ hsub
  unfold Dev.ptsRead
  try dsimp only
  repeat' first
    | with_reducible exact Kept.refl _ _
    | decide
    | with_reducible apply Kept.setPts
    | with_reducible apply Kept.setReg
    | with_reducible refine Kept.of_fst_eq (by assumption) ?_
    | split
    | dsimp only

end Sys2Proof.Machine.Dev
end

