-- ==== Sys2Proof/Laws/LinksKept.lean ====
section
/-!
SUPPORT. What each operation of Machine/Links.lean can change at most, and that it keeps the canonical forms.
-/

namespace Sys2Proof.Machine.Dev

/-- What `setLinkState` can change. -/
theorem Kept.setLinkState {ps : List Part} {d0 d : Dev} {r m v : Nat} (hk : d0.Kept ps d) (hsub : ∀ p ∈ ([.regs] : List Part), p ∈ ps) :
    d0.Kept ps (Dev.setLinkState d r m v) := by
  refine hk.then (qs := [.regs]) ?_ hsub
  unfold Dev.setLinkState
  try dsimp only
  repeat' first
    | with_reducible exact Kept.refl _ _
    | decide
    | with_reducible apply Kept.setFld
    | with_reducible refine Kept.of_fst_eq (by assumption) ?_
    | split
    | dsimp only

/-- What `modLink` can change. -/
theorem Kept.modLink {ps : List Part} {d0 d : Dev} {r : Region} {m : Nat} {f : LinkState → LinkState} (hk : d0.Kept ps d) (hsub : ∀ p ∈ ([.links] : List Part), p ∈ ps) :
    d0.Kept ps (Dev.modLink d r m f) := by
  refine hk.then (qs := [.links]) ?_ hsub
  unfold Dev.modLink
  try dsimp only
  repeat' first
    | with_reducible exact Kept.refl _ _
    | decide
    | with_reducible apply Kept.modR
    | (intro g p hp; cases p <;> first | trivial | rfl | exact absurd (by decide) hp)
    | with_reducible refine Kept.of_fst_eq (by assumption) ?_
    | split
    | dsimp only

/-- What `setParent` can change. -/
theorem Kept.setParent {ps : List Part} {d0 d : Dev} {r : Nat} (hk : d0.Kept ps d) (hsub : ∀ p ∈ ([.regs] : List Part), p ∈ ps) :
    d0.Kept ps (Dev.setParent d r) := by
  refine hk.then (qs := [.regs]) ?_ hsub
  unfold Dev.setParent
  try dsimp only
  repeat' first
    | with_reducible exact Kept.refl _ _
    | decide
    | with_reducible apply Kept.setFld
    | with_reducible refine Kept.of_fst_eq (by assumption) ?_
    | split
    | dsimp only

/-- What `firstRoute` can change. -/
theorem Kept.firstRoute {ps : List Part} {d0 d : Dev} {r : Nat} (hk : d0.Kept ps d) (hsub : ∀ p ∈ ([.regs] : List Part), p ∈ ps) :
    d0.Kept ps (Dev.firstRoute d r) := by
  refine hk.then (qs := [.regs]) ?_ hsub
  unfold Dev.firstRoute
  try dsimp only
  repeat' first
    | with_reducible exact Kept.refl _ _
    | decide
    | with_reducible apply Kept.ite
    | with_reducible apply Kept.setParent
    | with_reducible apply Kept.setFld
    | with_reducible refine Kept.of_fst_eq (by assumption) ?_
    | split
    | dsimp only

/-- What `noteRoute` can change. -/
theorem Kept.noteRoute {ps : List Part} {d0 d : Dev} {r : Region} {via : Option (Fin 6)} {edges tick : Nat} (hk : d0.Kept ps d) (hsub : ∀ p ∈ ([.wire, .routeDue] : List Part), p ∈ ps) :
    d0.Kept ps (Dev.noteRoute d r via edges tick) := by
  refine hk.then (qs := [.wire, .routeDue]) ?_ hsub
  unfold Dev.noteRoute
  try dsimp only
  repeat' first
    | with_reducible exact Kept.refl _ _
    | decide
    | with_reducible apply Kept.ite
    | with_reducible apply Kept.flood
    | with_reducible apply Kept.modR
    | (intro g p hp; cases p <;> first | trivial | rfl | exact absurd (by decide) hp)
    | with_reducible refine Kept.of_fst_eq (by assumption) ?_
    | split
    | dsimp only

/-- What `discardLost` can change. -/
theorem Kept.discardLost {ps : List Part} {d0 d : Dev} (hk : d0.Kept ps d) (hsub : ∀ p ∈ ([.regs, .wire, .ctxs] : List Part), p ∈ ps) :
    d0.Kept ps (Dev.discardLost d) := by
  refine hk.then (qs := [.regs, .wire, .ctxs]) ?_ hsub
  unfold Dev.discardLost
  try dsimp only
  repeat' first
    | with_reducible exact Kept.refl _ _
    | decide
    | with_reducible apply Kept.ite
    | with_reducible apply Kept.each
    | with_reducible apply Kept.dropOnWay
    | (intro _)
    | with_reducible apply Kept.set_wire
    | with_reducible refine Kept.of_fst_eq (by assumption) ?_
    | split
    | dsimp only

/-- What `moveTraffic` can change. -/
theorem Kept.moveTraffic {ps : List Part} {d0 d : Dev} {r : Region} {m : Nat} (hk : d0.Kept ps d) (hsub : ∀ p ∈ ([.links] : List Part), p ∈ ps) :
    d0.Kept ps (Dev.moveTraffic d r m) := by
  refine hk.then (qs := [.links]) ?_ hsub
  unfold Dev.moveTraffic
  try dsimp only
  repeat' first
    | with_reducible exact Kept.refl _ _
    | decide
    | with_reducible apply Kept.modLink
    | with_reducible refine Kept.of_fst_eq (by assumption) ?_
    | split
    | dsimp only

/-- What `dropUnacked` can change. -/
theorem Kept.dropUnacked {ps : List Part} {d0 d : Dev} {r : Region} {m : Nat} (hk : d0.Kept ps d) (hsub : ∀ p ∈ ([.links] : List Part), p ∈ ps) :
    d0.Kept ps (Dev.dropUnacked d r m) := by
  refine hk.then (qs := [.links]) ?_ hsub
  unfold Dev.dropUnacked
  try dsimp only
  repeat' first
    | with_reducible exact Kept.refl _ _
    | decide
    | with_reducible apply Kept.modLink
    | with_reducible refine Kept.of_fst_eq (by assumption) ?_
    | split
    | dsimp only

/-- What `restartLink` can change. -/
theorem Kept.restartLink {ps : List Part} {d0 d : Dev} {r : Region} {m : Nat} (hk : d0.Kept ps d) (hsub : ∀ p ∈ ([.links] : List Part), p ∈ ps) :
    d0.Kept ps (Dev.restartLink d r m) := by
  refine hk.then (qs := [.links]) ?_ hsub
  unfold Dev.restartLink
  try dsimp only
  repeat' first
    | with_reducible exact Kept.refl _ _
    | decide
    | with_reducible apply Kept.ite
    | with_reducible apply Kept.modLink
    | with_reducible refine Kept.of_fst_eq (by assumption) ?_
    | split
    | dsimp only

/-- What `failModule` can change. -/
theorem Kept.failModule {ps : List Part} {d0 d : Dev} {r : Region} {m time : Nat} (hk : d0.Kept ps d) (hsub : ∀ p ∈ ([.regs, .mem, .wire, .line, .ctxs, .endpoints, .journal, .links, .routeDue] : List Part), p ∈ ps) :
    d0.Kept ps (Dev.failModule d r m time) := by
  refine hk.then (qs := [.regs, .mem, .wire, .line, .ctxs, .endpoints, .journal, .links, .routeDue]) ?_ hsub
  unfold Dev.failModule
  try dsimp only
  repeat' first
    | with_reducible exact Kept.refl _ _
    | decide
    | with_reducible apply Kept.ite
    | with_reducible apply Kept.dropUnacked
    | with_reducible apply Kept.moveTraffic
    | with_reducible apply Kept.discardLost
    | with_reducible apply Kept.noteRoute
    | with_reducible apply Kept.setLinkState
    | with_reducible apply Kept.journalChip
    | with_reducible apply Kept.journal
    | with_reducible apply Kept.err
    | with_reducible refine Kept.of_fst_eq (by assumption) ?_
    | split
    | dsimp only

/-- What `takeAck` can change. -/
theorem Kept.takeAck {ps : List Part} {d0 d : Dev} {r : Region} {m h : Nat} (hk : d0.Kept ps d) (hsub : ∀ p ∈ ([.links] : List Part), p ∈ ps) :
    d0.Kept ps (Dev.takeAck d r m h) := by
  refine hk.then (qs := [.links]) ?_ hsub
  unfold Dev.takeAck
  try dsimp only
  repeat' first
    | with_reducible exact Kept.refl _ _
    | decide
    | with_reducible apply Kept.ite
    | with_reducible apply Kept.modLink
    | with_reducible refine Kept.of_fst_eq (by assumption) ?_
    | split
    | dsimp only

/-- What `sentFlit` can change. -/
theorem Kept.sentFlit {ps : List Part} {d0 d : Dev} {p : Region} {m h : Nat} {heads : List Nat} {w : Waiting} {d' : Dev} (heq : Dev.sentFlit d p m h heads w = some d') (hk : d0.Kept ps d) (hsub : ∀ p ∈ ([.regs, .wire, .ctxs, .links] : List Part), p ∈ ps) :
    d0.Kept ps d' := by
  refine hk.then (qs := [.regs, .wire, .ctxs, .links]) ?_ hsub
  unfold Dev.sentFlit at heq
  try dsimp only at heq
  repeat' split at heq
  all_goals first | (cases heq; done) | cases heq
  all_goals try dsimp only
  all_goals repeat' first
    | with_reducible exact Kept.refl _ _
    | decide
    | with_reducible apply Kept.ite
    | with_reducible apply Kept.ite_fst
    | with_reducible apply Kept.modLink
    | with_reducible apply Kept.event
    | with_reducible refine Kept.of_fst_eq (by assumption) ?_
    | split
    | dsimp only

/-- What `tookFlit` can change. -/
theorem Kept.tookFlit {ps : List Part} {d0 d : Dev} {r : Region} {m h : Nat} {heads : List Nat} (hk : d0.Kept ps d) (hsub : ∀ p ∈ ([.regs, .wire, .ctxs, .links] : List Part), p ∈ ps) :
    d0.Kept ps (Dev.tookFlit d r m h heads) := by
  refine hk.then (qs := [.regs, .wire, .ctxs, .links]) ?_ hsub
  unfold Dev.tookFlit
  try dsimp only
  repeat' first
    | with_reducible exact Kept.refl _ _
    | decide
    | with_reducible apply Kept.ite
    | with_reducible apply Kept.when
    | with_reducible apply Kept.modLink
    | with_reducible apply Kept.protoErr
    | (intro _)
    | with_reducible refine Kept.of_fst_eq (by assumption) ?_
    | split
    | dsimp only

/-- What `reqUpWrite` can change. -/
theorem Kept.reqUpWrite {ps : List Part} {d0 d : Dev} {r : Region} {m : Nat} {up : Bool} (hk : d0.Kept ps d) (hsub : ∀ p ∈ ([.regs, .thody, .ledger] : List Part), p ∈ ps) :
    d0.Kept ps (Dev.reqUpWrite d r m up) := by
  refine hk.then (qs := [.regs, .thody, .ledger]) ?_ hsub
  unfold Dev.reqUpWrite
  try dsimp only
  repeat' first
    | with_reducible exact Kept.refl _ _
    | decide
    | with_reducible apply Kept.ite
    | with_reducible apply Kept.noteRequest
    | with_reducible apply Kept.setFld
    | with_reducible refine Kept.of_fst_eq (by assumption) ?_
    | split
    | dsimp only

/-- What `admitWrite` can change. -/
theorem Kept.admitWrite {ps : List Part} {d0 d : Dev} {r : Region} {m : Nat} {allow : Bool} (hk : d0.Kept ps d) (hsub : ∀ p ∈ ([.regs] : List Part), p ∈ ps) :
    d0.Kept ps (Dev.admitWrite d r m allow) := by
  refine hk.then (qs := [.regs]) ?_ hsub
  unfold Dev.admitWrite
  try dsimp only
  repeat' first
    | with_reducible exact Kept.refl _ _
    | decide
    | with_reducible apply Kept.ite
    | with_reducible apply Kept.setLinkState
    | with_reducible apply Kept.setFld
    | with_reducible refine Kept.of_fst_eq (by assumption) ?_
    | split
    | dsimp only

end Sys2Proof.Machine.Dev
end

