-- ==== Sys2Proof/Laws/IntrKept.lean ====
section
/-!
SUPPORT. What each operation of Machine/Intr.lean can change at most, and that it keeps the canonical forms.
-/

namespace Sys2Proof.Machine.Dev

/-- What `irqEnable` can change. -/
theorem Kept.irqEnable {ps : List Part} {d0 d : Dev} {r : Region} {w v : Nat} (hk : d0.Kept ps d) (hsub : ∀ p ∈ ([.regs, .wire, .ctxs] : List Part), p ∈ ps) :
    d0.Kept ps (Dev.irqEnable d r w v) := by
  refine hk.then (qs := [.regs, .wire, .ctxs]) ?_ hsub
  unfold Dev.irqEnable
  try dsimp only
  repeat' first
    | with_reducible exact Kept.refl _ _
    | decide
    | with_reducible apply Kept.each
    | with_reducible apply Kept.deliver
    | with_reducible apply Kept.setReg
    | (intro _)
    | with_reducible refine Kept.of_fst_eq (by assumption) ?_
    | split
    | dsimp only

/-- What `irqDisable` can change. -/
theorem Kept.irqDisable {ps : List Part} {d0 d : Dev} {r : Region} {w v : Nat} (hk : d0.Kept ps d) (hsub : ∀ p ∈ ([.regs] : List Part), p ∈ ps) :
    d0.Kept ps (Dev.irqDisable d r w v) := by
  refine hk.then (qs := [.regs]) ?_ hsub
  unfold Dev.irqDisable
  try dsimp only
  repeat' first
    | with_reducible exact Kept.refl _ _
    | decide
    | with_reducible apply Kept.setReg
    | with_reducible refine Kept.of_fst_eq (by assumption) ?_
    | split
    | dsimp only

/-- What `irqPend` can change. -/
theorem Kept.irqPend {ps : List Part} {d0 d : Dev} {r : Region} {w v : Nat} (hk : d0.Kept ps d) (hsub : ∀ p ∈ ([.regs, .wire, .ctxs] : List Part), p ∈ ps) :
    d0.Kept ps (Dev.irqPend d r w v) := by
  refine hk.then (qs := [.regs, .wire, .ctxs]) ?_ hsub
  unfold Dev.irqPend
  try dsimp only
  repeat' first
    | with_reducible exact Kept.refl _ _
    | decide
    | with_reducible apply Kept.each
    | with_reducible apply Kept.raise
    | (intro _)
    | with_reducible refine Kept.of_fst_eq (by assumption) ?_
    | split
    | dsimp only

/-- What `irqUnpend` can change. -/
theorem Kept.irqUnpend {ps : List Part} {d0 d : Dev} {r : Region} {w v : Nat} (hk : d0.Kept ps d) (hsub : ∀ p ∈ ([.regs] : List Part), p ∈ ps) :
    d0.Kept ps (Dev.irqUnpend d r w v) := by
  refine hk.then (qs := [.regs]) ?_ hsub
  unfold Dev.irqUnpend
  try dsimp only
  repeat' first
    | with_reducible exact Kept.refl _ _
    | decide
    | with_reducible apply Kept.each
    | with_reducible apply Kept.clr
    | (intro _)
    | with_reducible refine Kept.of_fst_eq (by assumption) ?_
    | split
    | dsimp only

/-- What `irqCfgRejected` can change. -/
theorem Kept.irqCfgRejected {ps : List Part} {d0 d : Dev} {r : Region} (hk : d0.Kept ps d) (hsub : ∀ p ∈ ([.regs, .wire, .ctxs] : List Part), p ∈ ps) :
    d0.Kept ps (Dev.irqCfgRejected d r) := by
  refine hk.then (qs := [.regs, .wire, .ctxs]) ?_ hsub
  unfold Dev.irqCfgRejected
  try dsimp only
  repeat' first
    | with_reducible exact Kept.refl _ _
    | decide
    | with_reducible apply Kept.err
    | with_reducible refine Kept.of_fst_eq (by assumption) ?_
    | split
    | dsimp only

/-- What `retarget` can change. -/
theorem Kept.retarget {ps : List Part} {d0 d : Dev} {r : Region} {n v : Nat} (hk : d0.Kept ps d) (hsub : ∀ p ∈ ([.regs, .wire, .ctxs] : List Part), p ∈ ps) :
    d0.Kept ps (Dev.retarget d r n v) := by
  refine hk.then (qs := [.regs, .wire, .ctxs]) ?_ hsub
  unfold Dev.retarget
  try dsimp only
  repeat' first
    | with_reducible exact Kept.refl _ _
    | decide
    | with_reducible apply Kept.ite
    | with_reducible apply Kept.irqCfgRejected
    | with_reducible apply Kept.deliver
    | with_reducible apply Kept.setFld
    | with_reducible refine Kept.of_fst_eq (by assumption) ?_
    | split
    | dsimp only

/-- What `inboxTake` can change. -/
theorem Kept.inboxTake {ps : List Part} {d0 d : Dev} {r : Region} {source count target : Nat} (hk : d0.Kept ps d) (hsub : ∀ p ∈ ([.regs, .wire, .ctxs, .inbox] : List Part), p ∈ ps) :
    d0.Kept ps (Dev.inboxTake d r source count target) := by
  refine hk.then (qs := [.regs, .wire, .ctxs, .inbox]) ?_ hsub
  unfold Dev.inboxTake
  try dsimp only
  repeat' first
    | with_reducible exact Kept.refl _ _
    | decide
    | with_reducible apply Kept.ite
    | with_reducible apply Kept.err
    | with_reducible apply Kept.wake
    | with_reducible apply Kept.setFld
    | with_reducible apply Kept.addSat
    | with_reducible apply Kept.modR
    | (intro g p hp; cases p <;> first | trivial | rfl | exact absurd (by decide) hp)
    | with_reducible refine Kept.of_fst_eq (by assumption) ?_
    | split
    | dsimp only

/-- What `hostVector` can change. -/
theorem Kept.hostVector {ps : List Part} {d0 d : Dev} {r : Region} {e : Endpoint} {source count : Nat} (hk : d0.Kept ps d) (hsub : ∀ p ∈ ([.regs, .wire, .line, .ctxs, .endpoints] : List Part), p ∈ ps) :
    d0.Kept ps (Dev.hostVector d r e source count) := by
  refine hk.then (qs := [.regs, .wire, .line, .ctxs, .endpoints]) ?_ hsub
  unfold Dev.hostVector
  try dsimp only
  repeat' first
    | with_reducible exact Kept.refl _ _
    | decide
    | with_reducible apply Kept.ite
    | with_reducible apply Kept.msix
    | with_reducible apply Kept.err
    | with_reducible apply Kept.addSat
    | with_reducible refine Kept.of_fst_eq (by assumption) ?_
    | split
    | dsimp only

/-- What `snapArm` can change. -/
theorem Kept.snapArm {ps : List Part} {d0 d : Dev} {at' : Nat} (hk : d0.Kept ps d) (hsub : ∀ p ∈ ([.regs, .anchorSt] : List Part), p ∈ ps) :
    d0.Kept ps (Dev.snapArm d at').1 := by
  refine hk.then (qs := [.regs, .anchorSt]) ?_ hsub
  have h1 : ∀ f : AnchorState → AnchorState, d.Kept [.regs, .anchorSt] ((d.modA f).setOn (CHP_MON_SNAP_STAT_pending d.A)) :=
    fun _ => Kept.setOn (Kept.modA (Kept.refl _ _) (by decide)) (by decide)
  have h2 : d.Kept [.regs, .anchorSt] (d.setOn (CHP_MON_ERR_snap_rejected d.A)) := Kept.setOn (Kept.refl _ _) (by decide)
  unfold Dev.snapArm
  split
  · exact h1 _
  · exact h2

/-- What `snapCancel` can change. -/
theorem Kept.snapCancel {ps : List Part} {d0 d : Dev} (hk : d0.Kept ps d) (hsub : ∀ p ∈ ([.regs, .anchorSt] : List Part), p ∈ ps) :
    d0.Kept ps (Dev.snapCancel d) := by
  refine hk.then (qs := [.regs, .anchorSt]) ?_ hsub
  unfold Dev.snapCancel
  try dsimp only
  repeat' first
    | with_reducible exact Kept.refl _ _
    | decide
    | with_reducible apply Kept.modA
    | with_reducible apply Kept.clr
    | with_reducible refine Kept.of_fst_eq (by assumption) ?_
    | split
    | dsimp only

/-- What `modPair` can change. -/
theorem Kept.modPair {ps : List Part} {d0 d : Dev} {lo : Nat} {f : PairBuf → PairBuf} (hk : d0.Kept ps d) (hsub : ∀ p ∈ ([.pairs] : List Part), p ∈ ps) :
    d0.Kept ps (Dev.modPair d lo f) := by
  refine hk.then (qs := [.pairs]) ?_ hsub
  unfold Dev.modPair
  try dsimp only
  repeat' first
    | with_reducible exact Kept.refl _ _
    | decide
    | with_reducible apply Kept.set_pairs
    | with_reducible refine Kept.of_fst_eq (by assumption) ?_
    | split
    | dsimp only

/-- What `holdUpper` can change. -/
theorem Kept.holdUpper {ps : List Part} {d0 d : Dev} {lo : Nat} {w : Word} (hk : d0.Kept ps d) (hsub : ∀ p ∈ ([.pairs] : List Part), p ∈ ps) :
    d0.Kept ps (Dev.holdUpper d lo w) := by
  refine hk.then (qs := [.pairs]) ?_ hsub
  unfold Dev.holdUpper
  try dsimp only
  repeat' first
    | with_reducible exact Kept.refl _ _
    | decide
    | with_reducible apply Kept.modPair
    | with_reducible refine Kept.of_fst_eq (by assumption) ?_
    | split
    | dsimp only

/-- What `badlineRead` can change. -/
theorem Kept.badlineRead {ps : List Part} {d0 d : Dev} {r : Region} (hk : d0.Kept ps d) (hsub : ∀ p ∈ ([.pairs] : List Part), p ∈ ps) :
    d0.Kept ps (Dev.badlineRead d r).1 := by
  refine hk.then (qs := [.pairs]) ?_ hsub
  unfold Dev.badlineRead
  try dsimp only
  repeat' first
    | with_reducible exact Kept.refl _ _
    | decide
    | with_reducible apply Kept.holdUpper
    | with_reducible refine Kept.of_fst_eq (by assumption) ?_
    | split
    | dsimp only

/-- What `setFlags` can change. -/
theorem Kept.setFlags {ps : List Part} {d0 d : Dev} {r : Region} {w : Word} (hk : d0.Kept ps d) (hsub : ∀ p ∈ ([.regs] : List Part), p ∈ ps) :
    d0.Kept ps (Dev.setFlags d r w) := by
  refine hk.then (qs := [.regs]) ?_ hsub
  unfold Dev.setFlags
  try dsimp only
  repeat' first
    | with_reducible exact Kept.refl _ _
    | decide
    | with_reducible apply Kept.setReg
    | with_reducible refine Kept.of_fst_eq (by assumption) ?_
    | split
    | dsimp only

end Sys2Proof.Machine.Dev
end

