-- ==== Sys2Proof/Laws/ResetsKept.lean ====
section
/-!
SUPPORT. What each operation of Machine/Resets.lean can change at most, and that it keeps the canonical forms.
-/

namespace Sys2Proof.Machine.Dev

/-- What `eachChip` can change. -/
theorem Kept.eachChip {ps : List Part} {d0 d : Dev} {f : Nat → Dev → Dev} (hk : d0.Kept ps d) (hf : ∀ r (e : Dev), e.Kept ps (f r e)) :
    d0.Kept ps (Dev.eachChip d f) := Kept.each hk hf

/-- What `settleMirrors` can change. -/
theorem Kept.settleMirrors {ps : List Part} {d0 d : Dev} (hk : d0.Kept ps d) (hsub : ∀ p ∈ ([.mirror] : List Part), p ∈ ps) :
    d0.Kept ps (Dev.settleMirrors d) := by
  refine hk.then (qs := [.mirror]) ?_ hsub
  unfold Dev.settleMirrors
  try dsimp only
  repeat' first
    | with_reducible exact Kept.refl _ _
    | decide
    | with_reducible apply Kept.each
    | with_reducible apply Kept.setMirror
    | (intro _)
    | with_reducible refine Kept.of_fst_eq (by assumption) ?_
    | split
    | dsimp only

/-- What `resetAllRegs` can change. -/
theorem Kept.resetAllRegs {ps : List Part} {d0 d : Dev} {powerOn : Bool} (hk : d0.Kept ps d)
    (hsub : ∀ p ∈ ([.regs] : List Part), p ∈ ps) : d0.Kept ps (Dev.resetAllRegs d powerOn) := by
  unfold Dev.resetAllRegs
  split
  · exact hk.set_regs (hsub _ (by decide)) (fun h => Sparse.wf_filter _ _ h)
  · exact hk.resetRegs hsub

/-- What `resetMemory` can change. -/
theorem Kept.resetMemory {ps : List Part} {d0 d : Dev} {warm : Bool} (hk : d0.Kept ps d)
    (hsub : ∀ p ∈ ([.mem, .poison] : List Part), p ∈ ps) : d0.Kept ps (Dev.resetMemory d warm) :=
  Kept.set_poison (d := { d with mem := _ }) (hk.set_mem (hsub _ (by decide)) (fun h => Sparse.wf_filter _ _ h)) (hsub _ (by decide))
    (fun h => Sparse.wf_filter _ _ h)

/-- What `resetContexts` can change. -/
theorem Kept.resetContexts {ps : List Part} {d0 d : Dev} {powerOn : Bool} (hk : d0.Kept ps d)
    (hsub : ∀ p ∈ ([.genBase, .ctxs] : List Part), p ∈ ps) : d0.Kept ps (Dev.resetContexts d powerOn) := by
  have two : ∀ {x y}, (Sparse.Wf ctxDefault d.ctxs → Sparse.Wf ctxDefault x) → d0.Kept ps { d with ctxs := x, genBase := y } :=
    fun {x y} h => Kept.set_genBase (d := { d with ctxs := x }) (hk.set_ctxs (hsub _ (by decide)) h) (hsub _ (by decide))
  unfold Dev.resetContexts
  split
  · exact two fun _ => Sparse.wf_nil _
  · refine two ?_
    intro h
    generalize d.ctxs = l at h
    induction l with
    | nil => exact Sparse.wf_nil _
    | cons x t ih =>
      have ht : Sparse.Wf ctxDefault t := ⟨(List.pairwise_cons.1 h.1).2, fun e he => h.2 e (List.mem_cons_of_mem _ he)⟩
      rw [List.filterMap_cons]
      split
      · exact ih ht
      · rename_i b hb
        split at hb
        · cases hb
        · rename_i hg
          injection hb with hb
          subst hb
          refine ⟨List.pairwise_cons.2 ⟨?_, (ih ht).1⟩, ?_⟩
          · intro e he
            obtain ⟨y, hy, hye⟩ := List.mem_filterMap.1 he
            split at hye
            · cases hye
            · injection hye with hye
              subst hye
              exact (List.pairwise_cons.1 h.1).1 y hy
          · intro e he
            rcases List.mem_cons.1 he with he | he
            · subst he
              intro hc
              have := congrArg Ctx.generation hc
              exact hg this
            · exact (ih ht).2 e he

/-- What `blank` can change. -/
theorem Kept.blank {ps : List Part} {d0 d : Dev} {rgn : Vector Rgn 8} {cause phase : Nat} (hk : d0.Kept ps d)
    (hsub : ∀ p ∈ Part.all, p ∈ ps) : d0.Kept ps (Dev.blank d rgn cause phase) :=
  hk.upd (fun p hp => absurd (hsub p (Part.mem_all p)) hp) (fun ⟨h1, h2, h3, h4, _⟩ => ⟨h1, h2, h3, h4, Sparse.wf_nil _⟩)

/-- What `partReset` can change. -/
theorem Kept.partReset {ps : List Part} {d0 d : Dev} {cause phase : Nat} (hk : d0.Kept ps d) (hsub : ∀ p ∈ Part.all, p ∈ ps) :
    d0.Kept ps (Dev.partReset d cause phase) := by
  have h : ∀ rgn, d0.Kept ps ((((d.settleMirrors.resetContexts (cause == 1)).resetAllRegs (cause == 1)).resetMemory (cause == 4)).blank
      rgn cause phase) := fun _ =>
    (((hk.settleMirrors fun p _ => hsub p (Part.mem_all p)).resetContexts fun p _ => hsub p (Part.mem_all p)).resetAllRegs
      fun p _ => hsub p (Part.mem_all p)).resetMemory (fun p _ => hsub p (Part.mem_all p)) |>.blank hsub
  unfold Dev.partReset
  dsimp only
  split
  · refine Kept.each (Kept.each (h (d.settleMirrors.resetRegions (cause == 1))) ?_) ?_
    all_goals exact fun _ _ => Kept.setFld (Kept.refl _ _) fun p _ => hsub p (Part.mem_all p)
  · exact h (d.settleMirrors.resetRegions (cause == 1))

/-- What `dropTraffic` can change. -/
theorem Kept.dropTraffic {ps : List Part} {d0 d : Dev} {r : Region} (hk : d0.Kept ps d)
    (hsub : ∀ p ∈ ([.wire, .blockCh, .regionCh, .chSpent, .packets] : List Part), p ∈ ps) : d0.Kept ps (Dev.dropTraffic d r) :=
  hk.then (qs := [.wire, .blockCh, .regionCh, .chSpent, .packets])
    ⟨by intro p hp; cases p <;> first | rfl | exact fun _ => rfl | exact absurd (by decide) hp, fun h => h⟩ hsub

/-- What `clearRegion` can change. -/
theorem Kept.clearRegion {ps : List Part} {d0 d : Dev} {r : Region} (hk : d0.Kept ps d) (hsub : ∀ p ∈ Part.all, p ∈ ps) :
    d0.Kept ps (Dev.clearRegion d r) := by
  have sub : ∀ {l : List Part}, ∀ p ∈ l, p ∈ ps := fun p _ => hsub p (Part.mem_all p)
  unfold Dev.clearRegion
  exact Kept.modR (Kept.dropTraffic (Kept.zero (Kept.resetPairs (Kept.resetRegs (Kept.each
    (Kept.each hk fun _ _ => Kept.wipe (Kept.refl _ _) sub) fun _ _ => Kept.resetCell (Kept.refl _ _) sub) sub) sub) sub) sub)
    fun _ p hp => absurd (hsub p (Part.mem_all p)) hp

/-- What `regionReset` can change. -/
theorem Kept.regionReset {ps : List Part} {d0 d : Dev} {r : Region} (hk : d0.Kept ps d) (hsub : ∀ p ∈ Part.all, p ∈ ps) :
    d0.Kept ps (Dev.regionReset d r) := by
  have sub : ∀ {l : List Part}, ∀ p ∈ l, p ∈ ps := fun p _ => hsub p (Part.mem_all p)
  unfold Dev.regionReset
  exact Kept.setFld (Kept.each (Kept.announce (Kept.clearRegion hk hsub) sub)
    fun _ _ => Kept.setFld (Kept.setOn (Kept.refl _ _) sub) sub) sub

/-- What `rstCtl` can change. -/
theorem Kept.rstCtl {ps : List Part} {d0 d : Dev} {key : Nat} {cold warm : Bool} (hk : d0.Kept ps d) (hsub : ∀ p ∈ Part.all, p ∈ ps) :
    d0.Kept ps (Dev.rstCtl d key cold warm) := by
  refine hk.then (qs := Part.all) ?_ hsub
  unfold Dev.rstCtl
  try dsimp only
  repeat' first
    | with_reducible exact Kept.refl _ _
    | with_reducible exact fun p _ => Part.mem_all p
    | with_reducible exact fun _ p hp => absurd (Part.mem_all p) hp
    | with_reducible apply Kept.ite
    | with_reducible apply Kept.partReset
    | with_reducible apply Kept.setOn
    | with_reducible refine Kept.of_fst_eq (by assumption) ?_
    | split
    | dsimp only

-- MANUAL ofForm : Dev

end Sys2Proof.Machine.Dev
end

