-- ==== Sys2Proof/Laws/ModesKept.lean ====
section
/-!
SUPPORT. What each operation of Machine/Modes.lean can change at most, and that it keeps the canonical forms.
-/

namespace Sys2Proof.Machine.Dev

/-- What `modeRejected` can change. -/
theorem Kept.modeRejected {ps : List Part} {d0 d : Dev} {cause detail : Nat} (hk : d0.Kept ps d) (hsub : ∀ p ∈ ([.regs, .wire, .ctxs] : List Part), p ∈ ps) :
    d0.Kept ps (Dev.modeRejected d cause detail) := by
  refine hk.then (qs := [.regs, .wire, .ctxs]) ?_ hsub
  unfold Dev.modeRejected
  try dsimp only
  repeat' first
    | with_reducible exact Kept.refl _ _
    | decide
    | with_reducible apply Kept.err
    | with_reducible apply Kept.setFld
    | with_reducible refine Kept.of_fst_eq (by assumption) ?_
    | split
    | dsimp only

/-- What `cancelSwapAt` can change. -/
theorem Kept.cancelSwapAt {ps : List Part} {d0 d : Dev} {shutter : Nat} (hk : d0.Kept ps d) (hsub : ∀ p ∈ ([.regs, .wire, .ctxs, .anchorSt] : List Part), p ∈ ps) :
    d0.Kept ps (Dev.cancelSwapAt d shutter) := by
  refine hk.then (qs := [.regs, .wire, .ctxs, .anchorSt]) ?_ hsub
  unfold Dev.cancelSwapAt
  try dsimp only
  repeat' first
    | with_reducible exact Kept.refl _ _
    | decide
    | with_reducible apply Kept.ite
    | with_reducible apply Kept.swapRejected
    | with_reducible apply Kept.modA
    | with_reducible apply Kept.clr
    | with_reducible refine Kept.of_fst_eq (by assumption) ?_
    | split
    | dsimp only

/-- What `modeRequest` can change. -/
theorem Kept.modeRequest {ps : List Part} {d0 d : Dev} {target : Mode} {shutter lean : Nat} (hk : d0.Kept ps d) (hsub : ∀ p ∈ ([.regs, .wire, .ctxs, .anchorSt] : List Part), p ∈ ps) :
    d0.Kept ps (Dev.modeRequest d target shutter lean).1 := by
  refine hk.then (qs := [.regs, .wire, .ctxs, .anchorSt]) ?_ hsub
  unfold Dev.modeRequest
  try dsimp only
  repeat' first
    | with_reducible exact Kept.refl _ _
    | decide
    | with_reducible apply Kept.cancelSwapAt
    | with_reducible apply Kept.modeRejected
    | with_reducible apply Kept.modA
    | with_reducible apply Kept.setFld
    | with_reducible apply Kept.setOn
    | with_reducible refine Kept.of_fst_eq (by assumption) ?_
    | split
    | dsimp only

/-- What `modeReqFields` can change. -/
theorem Kept.modeReqFields {ps : List Part} {d0 d : Dev} {v : Nat} (hk : d0.Kept ps d) (hsub : ∀ p ∈ ([.regs] : List Part), p ∈ ps) :
    d0.Kept ps (Dev.modeReqFields d v) := by
  refine hk.then (qs := [.regs]) ?_ hsub
  unfold Dev.modeReqFields
  try dsimp only
  repeat' first
    | with_reducible exact Kept.refl _ _
    | decide
    | with_reducible apply Kept.ite
    | with_reducible apply Kept.setFld
    | with_reducible refine Kept.of_fst_eq (by assumption) ?_
    | split
    | dsimp only

/-- What `modeReqGo` can change. -/
theorem Kept.modeReqGo {ps : List Part} {d0 d : Dev} {v : Nat} (hk : d0.Kept ps d) (hsub : ∀ p ∈ ([.regs, .wire, .ctxs, .anchorSt] : List Part), p ∈ ps) :
    d0.Kept ps (Dev.modeReqGo d v).1 := by
  refine hk.then (qs := [.regs, .wire, .ctxs, .anchorSt]) ?_ hsub
  unfold Dev.modeReqGo
  try dsimp only
  repeat' first
    | with_reducible exact Kept.refl _ _
    | decide
    | with_reducible apply Kept.modeRequest
    | with_reducible refine Kept.of_fst_eq (by assumption) ?_
    | split
    | dsimp only

/-- What `modeReqWrite` can change. -/
theorem Kept.modeReqWrite {ps : List Part} {d0 d : Dev} {v : Nat} (hk : d0.Kept ps d) (hsub : ∀ p ∈ ([.regs, .wire, .ctxs, .anchorSt] : List Part), p ∈ ps) :
    d0.Kept ps (Dev.modeReqWrite d v).1 := by
  refine hk.then (qs := [.regs, .wire, .ctxs, .anchorSt]) ?_ hsub
  unfold Dev.modeReqWrite
  try dsimp only
  repeat' first
    | with_reducible exact Kept.refl _ _
    | decide
    | with_reducible apply Kept.ite
    | with_reducible apply Kept.ite_fst
    | with_reducible apply Kept.modeReqGo
    | with_reducible apply Kept.modeReqFields
    | with_reducible apply Kept.setOn
    | with_reducible refine Kept.of_fst_eq (by assumption) ?_
    | split
    | dsimp only

/-- What `setCompat` can change. -/
theorem Kept.setCompat {ps : List Part} {d0 d : Dev} {b : Nat} (hk : d0.Kept ps d) (hsub : ∀ p ∈ ([.regs] : List Part), p ∈ ps) :
    d0.Kept ps (Dev.setCompat d b) := by
  refine hk.then (qs := [.regs]) ?_ hsub
  unfold Dev.setCompat
  try dsimp only
  repeat' first
    | with_reducible exact Kept.refl _ _
    | decide
    | with_reducible apply Kept.setFld
    | with_reducible refine Kept.of_fst_eq (by assumption) ?_
    | split
    | dsimp only

/-- What `compatWrite` can change. -/
theorem Kept.compatWrite {ps : List Part} {d0 d : Dev} {v : Nat} (hk : d0.Kept ps d) (hsub : ∀ p ∈ ([.regs] : List Part), p ∈ ps) :
    d0.Kept ps (Dev.compatWrite d v) := by
  refine hk.then (qs := [.regs]) ?_ hsub
  unfold Dev.compatWrite
  try dsimp only
  repeat' first
    | with_reducible exact Kept.refl _ _
    | decide
    | with_reducible apply Kept.ite
    | with_reducible apply Kept.setCompat
    | with_reducible apply Kept.setOn
    | with_reducible refine Kept.of_fst_eq (by assumption) ?_
    | split
    | dsimp only

/-- What `setPtpBase` can change. -/
theorem Kept.setPtpBase {ps : List Part} {d0 d : Dev} {tick : Nat} {ns : Int} (hk : d0.Kept ps d) (hsub : ∀ p ∈ ([.regs, .anchorSt] : List Part), p ∈ ps) :
    d0.Kept ps (Dev.setPtpBase d tick ns) := by
  refine hk.then (qs := [.regs, .anchorSt]) ?_ hsub
  unfold Dev.setPtpBase
  try dsimp only
  repeat' first
    | with_reducible exact Kept.refl _ _
    | decide
    | with_reducible apply Kept.modA
    | with_reducible apply Kept.setOn
    | with_reducible apply Kept.setFld
    | with_reducible apply Kept.setPair
    | with_reducible refine Kept.of_fst_eq (by assumption) ?_
    | split
    | dsimp only

/-- What `ptpLoad` can change. -/
theorem Kept.ptpLoad {ps : List Part} {d0 d : Dev} {tick sec ns : Nat} (hk : d0.Kept ps d) (hsub : ∀ p ∈ ([.regs, .anchorSt] : List Part), p ∈ ps) :
    d0.Kept ps (Dev.ptpLoad d tick sec ns).1 := by
  refine hk.then (qs := [.regs, .anchorSt]) ?_ hsub
  unfold Dev.ptpLoad
  try dsimp only
  repeat' first
    | with_reducible exact Kept.refl _ _
    | decide
    | with_reducible apply Kept.ite
    | with_reducible apply Kept.ite_fst
    | with_reducible apply Kept.modA
    | with_reducible apply Kept.setOn
    | with_reducible refine Kept.of_fst_eq (by assumption) ?_
    | split
    | dsimp only

/-- What `ptpCtlLoad` can change. -/
theorem Kept.ptpCtlLoad {ps : List Part} {d0 d : Dev} (hk : d0.Kept ps d) (hsub : ∀ p ∈ ([.regs, .anchorSt] : List Part), p ∈ ps) :
    d0.Kept ps (Dev.ptpCtlLoad d).1 := by
  rw [Dev.ptpCtlLoad]
  exact Kept.ptpLoad hk hsub

/-- What `ptpAdjust` can change. -/
theorem Kept.ptpAdjust {ps : List Part} {d0 d : Dev} {ns : Int} (hk : d0.Kept ps d) (hsub : ∀ p ∈ ([.anchorSt] : List Part), p ∈ ps) :
    d0.Kept ps (Dev.ptpAdjust d ns) := by
  refine hk.then (qs := [.anchorSt]) ?_ hsub
  unfold Dev.ptpAdjust
  try dsimp only
  repeat' first
    | with_reducible exact Kept.refl _ _
    | decide
    | with_reducible apply Kept.modA
    | with_reducible refine Kept.of_fst_eq (by assumption) ?_
    | split
    | dsimp only

/-- What `ptpFreq` can change. -/
theorem Kept.ptpFreq {ps : List Part} {d0 d : Dev} {v : Nat} (hk : d0.Kept ps d) (hsub : ∀ p ∈ ([.regs] : List Part), p ∈ ps) :
    d0.Kept ps (Dev.ptpFreq d v).1 := by
  refine hk.then (qs := [.regs]) ?_ hsub
  unfold Dev.ptpFreq
  try dsimp only
  repeat' first
    | with_reducible exact Kept.refl _ _
    | decide
    | with_reducible apply Kept.ite
    | with_reducible apply Kept.ite_fst
    | with_reducible apply Kept.setOn
    | with_reducible apply Kept.setFld
    | with_reducible refine Kept.of_fst_eq (by assumption) ?_
    | split
    | dsimp only

/-- What `shutterCtlWrite` can change. -/
theorem Kept.shutterCtlWrite {ps : List Part} {d0 d : Dev} {v : Nat} (hk : d0.Kept ps d) (hsub : ∀ p ∈ ([.regs, .anchorSt] : List Part), p ∈ ps) :
    d0.Kept ps (Dev.shutterCtlWrite d v) := by
  refine hk.then (qs := [.regs, .anchorSt]) ?_ hsub
  unfold Dev.shutterCtlWrite
  try dsimp only
  repeat' first
    | with_reducible exact Kept.refl _ _
    | decide
    | with_reducible apply Kept.ite
    | with_reducible apply Kept.modA
    | with_reducible apply Kept.setOn
    | with_reducible apply Kept.clr
    | with_reducible apply Kept.setFld
    | with_reducible refine Kept.of_fst_eq (by assumption) ?_
    | split
    | dsimp only

/-- What `parkWrite` can change. -/
theorem Kept.parkWrite {ps : List Part} {d0 d : Dev} {r : Region} {park : Bool} (hk : d0.Kept ps d) (hsub : ∀ p ∈ ([.regs, .wire, .ctxs, .thody, .ledger] : List Part), p ∈ ps) :
    d0.Kept ps (Dev.parkWrite d r park).1 := by
  refine hk.then (qs := [.regs, .wire, .ctxs, .thody, .ledger]) ?_ hsub
  unfold Dev.parkWrite
  try dsimp only
  repeat' first
    | with_reducible exact Kept.refl _ _
    | decide
    | with_reducible apply Kept.ite
    | with_reducible apply Kept.ite_fst
    | with_reducible apply Kept.noteRequest
    | with_reducible apply Kept.err
    | with_reducible apply Kept.setFld
    | with_reducible refine Kept.of_fst_eq (by assumption) ?_
    | split
    | dsimp only

/-- What `delay` can change. -/
theorem Kept.delay {ps : List Part} {d0 d : Dev} {r : Region} {a : Nat} {w : Word} (hk : d0.Kept ps d) (hsub : ∀ p ∈ ([.due] : List Part), p ∈ ps) :
    d0.Kept ps (Dev.delay d r a w) := by
  refine hk.then (qs := [.due]) ?_ hsub
  unfold Dev.delay
  try dsimp only
  repeat' first
    | with_reducible exact Kept.refl _ _
    | decide
    | with_reducible apply Kept.modR
    | (intro g p hp; cases p <;> first | trivial | rfl | exact absurd (by decide) hp)
    | with_reducible refine Kept.of_fst_eq (by assumption) ?_
    | split
    | dsimp only

/-- What `cellClkWrite` can change. -/
theorem Kept.cellClkWrite {ps : List Part} {d0 d : Dev} {r : Region} {v : Nat} (hk : d0.Kept ps d) (hsub : ∀ p ∈ ([.regs, .wire, .ctxs, .due] : List Part), p ∈ ps) :
    d0.Kept ps (Dev.cellClkWrite d r v) := by
  refine hk.then (qs := [.regs, .wire, .ctxs, .due]) ?_ hsub
  unfold Dev.cellClkWrite
  try dsimp only
  repeat' first
    | with_reducible exact Kept.refl _ _
    | decide
    | with_reducible apply Kept.ite
    | with_reducible apply Kept.delay
    | with_reducible apply Kept.err
    | with_reducible refine Kept.of_fst_eq (by assumption) ?_
    | split
    | dsimp only

/-- What `portRejected` can change. -/
theorem Kept.portRejected {ps : List Part} {d0 d : Dev} {r : Region} (hk : d0.Kept ps d) (hsub : ∀ p ∈ ([.regs, .wire, .ctxs] : List Part), p ∈ ps) :
    d0.Kept ps (Dev.portRejected d r) := by
  refine hk.then (qs := [.regs, .wire, .ctxs]) ?_ hsub
  unfold Dev.portRejected
  try dsimp only
  repeat' first
    | with_reducible exact Kept.refl _ _
    | decide
    | with_reducible apply Kept.err
    | with_reducible refine Kept.of_fst_eq (by assumption) ?_
    | split
    | dsimp only

/-- What `portEnable` can change. -/
theorem Kept.portEnable {ps : List Part} {d0 d : Dev} {r : Region} {p : Nat} {on : Bool} (hk : d0.Kept ps d) (hsub : ∀ p ∈ ([.regs, .wire, .ctxs, .thody, .ledger] : List Part), p ∈ ps) :
    d0.Kept ps (Dev.portEnable d r p on).1 := by
  refine hk.then (qs := [.regs, .wire, .ctxs, .thody, .ledger]) ?_ hsub
  unfold Dev.portEnable
  try dsimp only
  repeat' first
    | with_reducible exact Kept.refl _ _
    | decide
    | with_reducible apply Kept.ite
    | with_reducible apply Kept.ite_fst
    | with_reducible apply Kept.portRejected
    | with_reducible apply Kept.noteRequest
    | with_reducible apply Kept.setFld
    | with_reducible refine Kept.of_fst_eq (by assumption) ?_
    | split
    | dsimp only

/-- What `portCfgWrite` can change. -/
theorem Kept.portCfgWrite {ps : List Part} {d0 d : Dev} {r : Region} {p v : Nat} (hk : d0.Kept ps d) (hsub : ∀ p ∈ ([.regs, .wire, .ctxs, .thody, .ledger] : List Part), p ∈ ps) :
    d0.Kept ps (Dev.portCfgWrite d r p v).1 := by
  refine hk.then (qs := [.regs, .wire, .ctxs, .thody, .ledger]) ?_ hsub
  unfold Dev.portCfgWrite
  try dsimp only
  repeat' first
    | with_reducible exact Kept.refl _ _
    | decide
    | with_reducible apply Kept.ite
    | with_reducible apply Kept.ite_fst
    | with_reducible apply Kept.portEnable
    | with_reducible apply Kept.portRejected
    | with_reducible apply Kept.setFld
    | with_reducible refine Kept.of_fst_eq (by assumption) ?_
    | split
    | dsimp only

end Sys2Proof.Machine.Dev
end

