-- ==== Sys2Proof/Laws/MailKept.lean ====
section
/-!
SUPPORT. What each operation of Machine/Mail.lean can change at most, and that it keeps the canonical forms.
-/

namespace Sys2Proof.Machine.Dev

/-- What `modMail` can change. -/
theorem Kept.modMail {ps : List Part} {d0 d : Dev} {e : Endpoint} {n : Nat} {f : MailPair → MailPair} (hk : d0.Kept ps d) (hsub : ∀ p ∈ ([.endpoints] : List Part), p ∈ ps) :
    d0.Kept ps (Dev.modMail d e n f) := by
  refine hk.then (qs := [.endpoints]) ?_ hsub
  unfold Dev.modMail
  try dsimp only
  repeat' first
    | with_reducible exact Kept.refl _ _
    | decide
    | with_reducible apply Kept.modEp
    | with_reducible refine Kept.of_fst_eq (by assumption) ?_
    | split
    | dsimp only

/-- What `setMbState` can change. -/
theorem Kept.setMbState {ps : List Part} {d0 d : Dev} {e : Endpoint} {n v : Nat} (hk : d0.Kept ps d) (hsub : ∀ p ∈ ([.regs] : List Part), p ∈ ps) :
    d0.Kept ps (Dev.setMbState d e n v) := by
  refine hk.then (qs := [.regs]) ?_ hsub
  unfold Dev.setMbState
  try dsimp only
  repeat' first
    | with_reducible exact Kept.refl _ _
    | decide
    | with_reducible apply Kept.setFld
    | with_reducible refine Kept.of_fst_eq (by assumption) ?_
    | split
    | dsimp only

/-- What `mbPend` can change. -/
theorem Kept.mbPend {ps : List Part} {d0 d : Dev} {e : Endpoint} {n : Nat} {b : Bool} (hk : d0.Kept ps d) (hsub : ∀ p ∈ ([.regs] : List Part), p ∈ ps) :
    d0.Kept ps (Dev.mbPend d e n b) := by
  refine hk.then (qs := [.regs]) ?_ hsub
  unfold Dev.mbPend
  try dsimp only
  repeat' first
    | with_reducible exact Kept.refl _ _
    | decide
    | with_reducible apply Kept.setFld
    | with_reducible refine Kept.of_fst_eq (by assumption) ?_
    | split
    | dsimp only

/-- What `writeResponse` can change. -/
theorem Kept.writeResponse {ps : List Part} {d0 d : Dev} {e : Endpoint} {n : Nat} {b : List Byte} {ran : Bool} (hk : d0.Kept ps d) (hsub : ∀ p ∈ ([.regs, .mem, .line, .endpoints] : List Part), p ∈ ps) :
    d0.Kept ps (Dev.writeResponse d e n b ran) := by
  refine hk.then (qs := [.regs, .mem, .line, .endpoints]) ?_ hsub
  unfold Dev.writeResponse
  try dsimp only
  repeat' first
    | with_reducible exact Kept.refl _ _
    | decide
    | with_reducible apply Kept.ite
    | with_reducible apply Kept.when
    | with_reducible apply Kept.mbPend
    | with_reducible apply Kept.setMbState
    | with_reducible apply Kept.modMail
    | with_reducible apply Kept.msix
    | with_reducible apply Kept.setFld
    | with_reducible apply Kept.setBytes
    | (intro _)
    | with_reducible refine Kept.of_fst_eq (by assumption) ?_
    | split
    | dsimp only

/-- What `respond` can change. -/
theorem Kept.respond {ps : List Part} {d0 d : Dev} {e : Endpoint} {n phase status detail : Nat} {payload : List Byte} {elapsed : Nat} {ran : Bool} (hk : d0.Kept ps d) (hsub : ∀ p ∈ ([.regs, .mem, .line, .endpoints] : List Part), p ∈ ps) :
    d0.Kept ps (Dev.respond d e n phase status detail payload elapsed ran) := by
  refine hk.then (qs := [.regs, .mem, .line, .endpoints]) ?_ hsub
  unfold Dev.respond
  try dsimp only
  repeat' first
    | with_reducible exact Kept.refl _ _
    | decide
    | with_reducible apply Kept.writeResponse
    | with_reducible refine Kept.of_fst_eq (by assumption) ?_
    | split
    | dsimp only

/-- What `sendFrame` can change. -/
theorem Kept.sendFrame {ps : List Part} {d0 d : Dev} {src dst kind : Nat} {e : Endpoint} {n : Nat} {frame : List Byte} (hk : d0.Kept ps d) (hsub : ∀ p ∈ ([.wire] : List Part), p ∈ ps) :
    d0.Kept ps (Dev.sendFrame d src dst kind e n frame) := by
  refine hk.then (qs := [.wire]) ?_ hsub
  unfold Dev.sendFrame
  try dsimp only
  repeat' first
    | with_reducible exact Kept.refl _ _
    | decide
    | with_reducible apply Kept.set_wire
    | with_reducible refine Kept.of_fst_eq (by assumption) ?_
    | split
    | dsimp only

/-- What `reply` can change. -/
theorem Kept.reply {ps : List Part} {d0 d : Dev} {e : Endpoint} {n phase status detail : Nat} {payload : List Byte} {elapsed : Nat} (hk : d0.Kept ps d) (hsub : ∀ p ∈ ([.regs, .mem, .wire, .line, .endpoints] : List Part), p ∈ ps) :
    d0.Kept ps (Dev.reply d e n phase status detail payload elapsed) := by
  refine hk.then (qs := [.regs, .mem, .wire, .line, .endpoints]) ?_ hsub
  unfold Dev.reply
  try dsimp only
  repeat' first
    | with_reducible exact Kept.refl _ _
    | decide
    | with_reducible apply Kept.ite
    | with_reducible apply Kept.sendFrame
    | with_reducible apply Kept.respond
    | with_reducible refine Kept.of_fst_eq (by assumption) ?_
    | split
    | dsimp only

/-- What `relayCommand` can change. -/
theorem Kept.relayCommand {ps : List Part} {d0 d : Dev} {e : Endpoint} {n : Nat} (hk : d0.Kept ps d) (hsub : ∀ p ∈ ([.wire, .endpoints] : List Part), p ∈ ps) :
    d0.Kept ps (Dev.relayCommand d e n) := by
  refine hk.then (qs := [.wire, .endpoints]) ?_ hsub
  unfold Dev.relayCommand
  try dsimp only
  repeat' first
    | with_reducible exact Kept.refl _ _
    | decide
    | with_reducible apply Kept.ite
    | with_reducible apply Kept.sendFrame
    | with_reducible apply Kept.modMail
    | with_reducible refine Kept.of_fst_eq (by assumption) ?_
    | split
    | dsimp only

/-- What `replayResponse` can change. -/
theorem Kept.replayResponse {ps : List Part} {d0 d : Dev} {e : Endpoint} {n : Nat} (hk : d0.Kept ps d) (hsub : ∀ p ∈ ([.mem, .line, .endpoints] : List Part), p ∈ ps) :
    d0.Kept ps (Dev.replayResponse d e n) := by
  refine hk.then (qs := [.mem, .line, .endpoints]) ?_ hsub
  unfold Dev.replayResponse
  try dsimp only
  repeat' first
    | with_reducible exact Kept.refl _ _
    | decide
    | with_reducible apply Kept.ite
    | with_reducible apply Kept.when
    | with_reducible apply Kept.modMail
    | with_reducible apply Kept.msix
    | with_reducible apply Kept.setBytes
    | (intro _)
    | with_reducible refine Kept.of_fst_eq (by assumption) ?_
    | split
    | dsimp only

/-- What `mbDoorbell` can change. -/
theorem Kept.mbDoorbell {ps : List Part} {d0 d : Dev} {e : Endpoint} {n value : Nat} (hk : d0.Kept ps d) (hsub : ∀ p ∈ ([.regs, .mem, .wire, .line, .ctxs, .endpoints] : List Part), p ∈ ps) :
    d0.Kept ps (Dev.mbDoorbell d e n value) := by
  refine hk.then (qs := [.regs, .mem, .wire, .line, .ctxs, .endpoints]) ?_ hsub
  unfold Dev.mbDoorbell
  try dsimp only
  repeat' first
    | with_reducible exact Kept.refl _ _
    | decide
    | with_reducible apply Kept.ite
    | with_reducible apply Kept.replayResponse
    | with_reducible apply Kept.relayCommand
    | with_reducible apply Kept.respond
    | with_reducible apply Kept.mbPend
    | with_reducible apply Kept.setMbState
    | with_reducible apply Kept.modMail
    | with_reducible apply Kept.event
    | with_reducible apply Kept.setByte
    | with_reducible apply Kept.addSat
    | with_reducible refine Kept.of_fst_eq (by assumption) ?_
    | split
    | dsimp only

/-- What `modJob` can change. -/
theorem Kept.modJob {ps : List Part} {d0 d : Dev} {num : Nat} {f : Job → Job} (hk : d0.Kept ps d) (hsub : ∀ p ∈ ([.thody] : List Part), p ∈ ps) :
    d0.Kept ps (Dev.modJob d num f) := by
  refine hk.then (qs := [.thody]) ?_ hsub
  unfold Dev.modJob
  try dsimp only
  repeat' first
    | with_reducible exact Kept.refl _ _
    | decide
    | with_reducible apply Kept.ite
    | with_reducible apply Kept.set_thody
    | with_reducible refine Kept.of_fst_eq (by assumption) ?_
    | split
    | dsimp only

/-- What `openJob` can change. -/
theorem Kept.openJob {ps : List Part} {d0 d : Dev} {e : Endpoint} {n : Nat} {k : JobKind} (hk : d0.Kept ps d) (hsub : ∀ p ∈ ([.thody] : List Part), p ∈ ps) :
    d0.Kept ps (Dev.openJob d e n k).1 := by
  refine hk.then (qs := [.thody]) ?_ hsub
  unfold Dev.openJob
  try dsimp only
  repeat' first
    | with_reducible exact Kept.refl _ _
    | decide
    | with_reducible apply Kept.ite
    | with_reducible apply Kept.ite_fst
    | with_reducible apply Kept.set_thody
    | with_reducible refine Kept.of_fst_eq (by assumption) ?_
    | split
    | dsimp only

/-- What `endJob` can change. -/
theorem Kept.endJob {ps : List Part} {d0 d : Dev} {num status detail : Nat} {result : List Byte} (hk : d0.Kept ps d) (hsub : ∀ p ∈ ([.thody] : List Part), p ∈ ps) :
    d0.Kept ps (Dev.endJob d num status detail result) := by
  refine hk.then (qs := [.thody]) ?_ hsub
  unfold Dev.endJob
  try dsimp only
  repeat' first
    | with_reducible exact Kept.refl _ _
    | decide
    | with_reducible apply Kept.ite
    | with_reducible apply Kept.modJob
    | with_reducible refine Kept.of_fst_eq (by assumption) ?_
    | split
    | dsimp only

/-- What `jobPosted` can change. -/
theorem Kept.jobPosted {ps : List Part} {d0 d : Dev} {j : Job} (hk : d0.Kept ps d) (hsub : ∀ p ∈ ([.regs, .mem, .line, .endpoints, .thody] : List Part), p ∈ ps) :
    d0.Kept ps (Dev.jobPosted d j) := by
  refine hk.then (qs := [.regs, .mem, .line, .endpoints, .thody]) ?_ hsub
  unfold Dev.jobPosted
  try dsimp only
  repeat' first
    | with_reducible exact Kept.refl _ _
    | decide
    | with_reducible apply Kept.modJob
    | with_reducible apply Kept.postTo
    | with_reducible refine Kept.of_fst_eq (by assumption) ?_
    | split
    | dsimp only

/-- What `jobPost` can change. -/
theorem Kept.jobPost {ps : List Part} {d0 d : Dev} {j : Job} (hk : d0.Kept ps d) (hsub : ∀ p ∈ ([.regs, .mem, .wire, .line, .endpoints, .thody] : List Part), p ∈ ps) :
    d0.Kept ps (Dev.jobPost d j) := by
  refine hk.then (qs := [.regs, .mem, .wire, .line, .endpoints, .thody]) ?_ hsub
  unfold Dev.jobPost
  try dsimp only
  repeat' first
    | with_reducible exact Kept.refl _ _
    | decide
    | with_reducible apply Kept.ite
    | with_reducible apply Kept.jobPosted
    | with_reducible apply Kept.modJob
    | with_reducible apply Kept.sendFrame
    | with_reducible refine Kept.of_fst_eq (by assumption) ?_
    | split
    | dsimp only

/-- What `answer` can change. -/
theorem Kept.answer {ps : List Part} {d0 d : Dev} {e : Endpoint} {n elapsed : Nat} {x1 : Reply} (hk : d0.Kept ps d) (hsub : ∀ p ∈ ([.regs, .mem, .wire, .line, .endpoints, .thody] : List Part), p ∈ ps) :
    d0.Kept ps (Dev.answer d e n elapsed x1) := by
  refine hk.then (qs := [.regs, .mem, .wire, .line, .endpoints, .thody]) ?_ hsub
  unfold Dev.answer
  try dsimp only
  repeat' first
    | with_reducible exact Kept.refl _ _
    | decide
    | with_reducible apply Kept.openJob
    | with_reducible apply Kept.reply
    | with_reducible apply Kept.modMail
    | with_reducible refine Kept.of_fst_eq (by assumption) ?_
    | split
    | dsimp only

-- MANUAL serve : Res

-- MANUAL serveSoon : Res

/-- What `mailOffline` can change. -/
theorem Kept.mailOffline {ps : List Part} {d0 d : Dev} {e : Endpoint} (hk : d0.Kept ps d) (hsub : ∀ p ∈ ([.regs] : List Part), p ∈ ps) :
    d0.Kept ps (Dev.mailOffline d e) := by
  refine hk.then (qs := [.regs]) ?_ hsub
  unfold Dev.mailOffline
  try dsimp only
  repeat' first
    | with_reducible exact Kept.refl _ _
    | decide
    | with_reducible apply Kept.each
    | with_reducible apply Kept.setMbState
    | (intro _)
    | with_reducible refine Kept.of_fst_eq (by assumption) ?_
    | split
    | dsimp only

/-- What `mailOnline` can change. -/
theorem Kept.mailOnline {ps : List Part} {d0 d : Dev} {e : Endpoint} (hk : d0.Kept ps d) (hsub : ∀ p ∈ ([.regs] : List Part), p ∈ ps) :
    d0.Kept ps (Dev.mailOnline d e) := by
  refine hk.then (qs := [.regs]) ?_ hsub
  unfold Dev.mailOnline
  try dsimp only
  repeat' first
    | with_reducible exact Kept.refl _ _
    | decide
    | with_reducible apply Kept.ite
    | with_reducible apply Kept.each
    | with_reducible apply Kept.setMbState
    | (intro _)
    | with_reducible refine Kept.of_fst_eq (by assumption) ?_
    | split
    | dsimp only

/-- What `mailStart` can change. -/
theorem Kept.mailStart {ps : List Part} {d0 d : Dev} {e : Endpoint} (hk : d0.Kept ps d) (hsub : ∀ p ∈ ([.regs, .endpoints] : List Part), p ∈ ps) :
    d0.Kept ps (Dev.mailStart d e) := by
  refine hk.then (qs := [.regs, .endpoints]) ?_ hsub
  unfold Dev.mailStart
  try dsimp only
  repeat' first
    | with_reducible exact Kept.refl _ _
    | decide
    | with_reducible apply Kept.each
    | with_reducible apply Kept.setMbState
    | with_reducible apply Kept.modEp
    | with_reducible apply Kept.setFld
    | (intro _)
    | with_reducible refine Kept.of_fst_eq (by assumption) ?_
    | split
    | dsimp only

/-- What `mailModeDone` can change. -/
theorem Kept.mailModeDone {ps : List Part} {d0 d : Dev} {status detail : Nat} {payload : List Byte} (hk : d0.Kept ps d) (hsub : ∀ p ∈ ([.endpoints] : List Part), p ∈ ps) :
    d0.Kept ps (Dev.mailModeDone d status detail payload) := by
  refine hk.then (qs := [.endpoints]) ?_ hsub
  unfold Dev.mailModeDone
  try dsimp only
  repeat' first
    | with_reducible exact Kept.refl _ _
    | decide
    | with_reducible apply Kept.ite
    | with_reducible apply Kept.each
    | with_reducible apply Kept.modMail
    | (intro _)
    | with_reducible refine Kept.of_fst_eq (by assumption) ?_
    | split
    | dsimp only

/-- What `mailFailover` can change. -/
theorem Kept.mailFailover {ps : List Part} {d0 d : Dev} (hk : d0.Kept ps d) (hsub : ∀ p ∈ ([.regs, .mem, .wire, .line, .endpoints, .thody] : List Part), p ∈ ps) :
    d0.Kept ps (Dev.mailFailover d) := by
  refine hk.then (qs := [.regs, .mem, .wire, .line, .endpoints, .thody]) ?_ hsub
  unfold Dev.mailFailover
  try dsimp only
  repeat' first
    | with_reducible exact Kept.refl _ _
    | decide
    | with_reducible apply Kept.ite
    | with_reducible apply Kept.each
    | with_reducible apply Kept.foldl
    | with_reducible apply Kept.foldl_fst
    | with_reducible apply Kept.endJob
    | with_reducible apply Kept.relayCommand
    | with_reducible apply Kept.respond
    | (intro _)
    | with_reducible apply Kept.set_wire
    | with_reducible refine Kept.of_fst_eq (by assumption) ?_
    | split
    | dsimp only

/-- What `tookFrame` can change. -/
theorem Kept.tookFrame {ps : List Part} {d0 d : Dev} {r : Region} {kind : Nat} {e : Endpoint} {n : Nat} {frame : List Byte} (hk : d0.Kept ps d) (hsub : ∀ p ∈ ([.regs, .mem, .line, .endpoints] : List Part), p ∈ ps) :
    d0.Kept ps (Dev.tookFrame d r kind e n frame) := by
  refine hk.then (qs := [.regs, .mem, .line, .endpoints]) ?_ hsub
  unfold Dev.tookFrame
  try dsimp only
  repeat' first
    | with_reducible exact Kept.refl _ _
    | decide
    | with_reducible apply Kept.ite
    | with_reducible apply Kept.writeResponse
    | with_reducible apply Kept.modMail
    | with_reducible apply Kept.postTo
    | with_reducible refine Kept.of_fst_eq (by assumption) ?_
    | split
    | dsimp only

/-- What `tookRelay` can change. -/
theorem Kept.tookRelay {ps : List Part} {d0 d : Dev} {r : Region} {info : Nat} {payload : List Byte} (hk : d0.Kept ps d) (hsub : ∀ p ∈ ([.regs, .mem, .line, .endpoints, .relays] : List Part), p ∈ ps) :
    d0.Kept ps (Dev.tookRelay d r info payload) := by
  refine hk.then (qs := [.regs, .mem, .line, .endpoints, .relays]) ?_ hsub
  unfold Dev.tookRelay
  try dsimp only
  repeat' first
    | with_reducible exact Kept.refl _ _
    | decide
    | with_reducible apply Kept.ite
    | with_reducible apply Kept.tookFrame
    | with_reducible apply Kept.modR
    | (intro g p hp; cases p <;> first | trivial | rfl | exact absurd (by decide) hp)
    | with_reducible refine Kept.of_fst_eq (by assumption) ?_
    | split
    | dsimp only

end Sys2Proof.Machine.Dev
end

