-- ==== Sys2Proof/Laws/FaultsKept.lean ====
section
/-!
SUPPORT. What each operation of Machine/Faults.lean can change at most, and that it keeps the canonical forms.
-/

namespace Sys2Proof.Machine.Dev

/-- What `clearMissed` can change. -/
theorem Kept.clearMissed {ps : List Part} {d0 d : Dev} (hk : d0.Kept ps d) (hsub : ∀ p ∈ ([.regs] : List Part), p ∈ ps) :
    d0.Kept ps (Dev.clearMissed d) := by
  refine hk.then (qs := [.regs]) ?_ hsub
  unfold Dev.clearMissed
  try dsimp only
  repeat' first
    | with_reducible exact Kept.refl _ _
    | decide
    | with_reducible apply Kept.ite
    | with_reducible apply Kept.clr
    | with_reducible refine Kept.of_fst_eq (by assumption) ?_
    | split
    | dsimp only

/-- What `wakeSuccessor` can change. -/
theorem Kept.wakeSuccessor {ps : List Part} {d0 d : Dev} (hk : d0.Kept ps d) (hsub : ∀ p ∈ ([.regs, .thody, .ledger] : List Part), p ∈ ps) :
    d0.Kept ps (Dev.wakeSuccessor d) := by
  refine hk.then (qs := [.regs, .thody, .ledger]) ?_ hsub
  unfold Dev.wakeSuccessor
  try dsimp only
  repeat' first
    | with_reducible exact Kept.refl _ _
    | decide
    | with_reducible apply Kept.ite
    | with_reducible apply Kept.noteRequest
    | with_reducible apply Kept.clr
    | with_reducible refine Kept.of_fst_eq (by assumption) ?_
    | split
    | dsimp only

/-- What `chooseStandby` can change. -/
theorem Kept.chooseStandby {ps : List Part} {d0 d : Dev} (hk : d0.Kept ps d) (hsub : ∀ p ∈ ([.regs, .thody, .ledger] : List Part), p ∈ ps) :
    d0.Kept ps (Dev.chooseStandby d) := by
  refine hk.then (qs := [.regs, .thody, .ledger]) ?_ hsub
  unfold Dev.chooseStandby
  try dsimp only
  repeat' first
    | with_reducible exact Kept.refl _ _
    | decide
    | with_reducible apply Kept.wakeSuccessor
    | with_reducible apply Kept.clearMissed
    | with_reducible apply Kept.setFld
    | with_reducible refine Kept.of_fst_eq (by assumption) ?_
    | split
    | dsimp only

/-- What `rejoinPhase` can change. -/
theorem Kept.rejoinPhase {ps : List Part} {d0 d : Dev} {phase : Nat} (hk : d0.Kept ps d) (hsub : ∀ p ∈ ([.regs, .anchorSt] : List Part), p ∈ ps) :
    d0.Kept ps (Dev.rejoinPhase d phase) := by
  refine hk.then (qs := [.regs, .anchorSt]) ?_ hsub
  unfold Dev.rejoinPhase
  try dsimp only
  repeat' first
    | with_reducible exact Kept.refl _ _
    | decide
    | with_reducible apply Kept.modA
    | with_reducible apply Kept.setFld
    | with_reducible refine Kept.of_fst_eq (by assumption) ?_
    | split
    | dsimp only

/-- What `rejoinJob` can change. -/
theorem Kept.rejoinJob {ps : List Part} {d0 d : Dev} {x : Rejoin} {status detail : Nat} {result : List Byte} (hk : d0.Kept ps d) (hsub : ∀ p ∈ ([.thody] : List Part), p ∈ ps) :
    d0.Kept ps (Dev.rejoinJob d x status detail result) := by
  refine hk.then (qs := [.thody]) ?_ hsub
  unfold Dev.rejoinJob
  try dsimp only
  repeat' first
    | with_reducible exact Kept.refl _ _
    | decide
    | with_reducible apply Kept.ite
    | with_reducible apply Kept.endJob
    | with_reducible refine Kept.of_fst_eq (by assumption) ?_
    | split
    | dsimp only

/-- What `rejoinFail` can change. -/
theorem Kept.rejoinFail {ps : List Part} {d0 d : Dev} (hk : d0.Kept ps d) (hsub : ∀ p ∈ ([.regs, .mem, .line, .anchorSt, .endpoints, .thody, .journal] : List Part), p ∈ ps) :
    d0.Kept ps (Dev.rejoinFail d) := by
  refine hk.then (qs := [.regs, .mem, .line, .anchorSt, .endpoints, .thody, .journal]) ?_ hsub
  unfold Dev.rejoinFail
  try dsimp only
  repeat' first
    | with_reducible exact Kept.refl _ _
    | decide
    | with_reducible apply Kept.rejoinJob
    | with_reducible apply Kept.modA
    | with_reducible apply Kept.journalChip
    | with_reducible apply Kept.setFld
    | with_reducible apply Kept.setOn
    | with_reducible refine Kept.of_fst_eq (by assumption) ?_
    | split
    | dsimp only

/-- What `rejoinStart` can change. -/
theorem Kept.rejoinStart {ps : List Part} {d0 d : Dev} {q : Region} {job : Nat} (hk : d0.Kept ps d) (hsub : ∀ p ∈ Part.all, p ∈ ps) :
    d0.Kept ps (Dev.rejoinStart d q job).1 := by
  refine hk.then (qs := Part.all) ?_ hsub
  unfold Dev.rejoinStart
  try dsimp only
  repeat' first
    | with_reducible exact Kept.refl _ _
    | with_reducible exact fun p _ => Part.mem_all p
    | with_reducible exact fun _ p hp => absurd (Part.mem_all p) hp
    | with_reducible apply Kept.ite
    | with_reducible apply Kept.ite_fst
    | with_reducible apply Kept.regionReset
    | with_reducible apply Kept.modA
    | with_reducible apply Kept.setFld
    | with_reducible refine Kept.of_fst_eq (by assumption) ?_
    | split
    | dsimp only

/-- What `copyRange` can change. -/
theorem Kept.copyRange {ps : List Part} {d0 d : Dev} {w : Dev} {src dst n : Nat} (hk : d0.Kept ps d) (hsub : ∀ p ∈ ([.mem, .poison] : List Part), p ∈ ps) :
    d0.Kept ps (Dev.copyRange d w src dst n) := by
  refine hk.then (qs := [.mem, .poison]) ?_ hsub
  unfold Dev.copyRange
  try dsimp only
  repeat' first
    | with_reducible exact Kept.refl _ _
    | decide
    | with_reducible apply Kept.each
    | with_reducible apply Kept.zero
    | with_reducible apply Kept.setByte
    | (intro _)
    | with_reducible refine Kept.of_fst_eq (by assumption) ?_
    | split
    | dsimp only

/-- What `copyRegs` can change. -/
theorem Kept.copyRegs {ps : List Part} {d0 d : Dev} {l : List (Nat × Nat)} (hk : d0.Kept ps d) (hsub : ∀ p ∈ ([.regs] : List Part), p ∈ ps) :
    d0.Kept ps (Dev.copyRegs d l) := by
  refine hk.then (qs := [.regs]) ?_ hsub
  unfold Dev.copyRegs
  try dsimp only
  repeat' first
    | with_reducible exact Kept.refl _ _
    | decide
    | with_reducible apply Kept.each
    | with_reducible apply Kept.setReg
    | (intro _)
    | with_reducible refine Kept.of_fst_eq (by assumption) ?_
    | split
    | dsimp only

/-- What `copyReplica` can change. -/
theorem Kept.copyReplica {ps : List Part} {d0 d : Dev} {s q : Region} (hk : d0.Kept ps d) (hsub : ∀ p ∈ ([.regs, .mem, .poison, .commit, .tables, .front] : List Part), p ∈ ps) :
    d0.Kept ps (Dev.copyReplica d s q) := by
  refine hk.then (qs := [.regs, .mem, .poison, .commit, .tables, .front]) ?_ hsub
  unfold Dev.copyReplica
  try dsimp only
  repeat' first
    | with_reducible exact Kept.refl _ _
    | decide
    | with_reducible apply Kept.each
    | with_reducible apply Kept.copyRegs
    | with_reducible apply Kept.copyRange
    | with_reducible apply Kept.modFront
    | with_reducible apply Kept.withOverlays
    | with_reducible apply Kept.modCommit
    | with_reducible apply Kept.modTables
    | with_reducible apply Kept.zero
    | (intro _)
    | with_reducible refine Kept.of_fst_eq (by assumption) ?_
    | split
    | dsimp only

/-- What `rejoinJoin` can change. -/
theorem Kept.rejoinJoin {ps : List Part} {d0 d : Dev} {q : Region} {k : Nat} (hk : d0.Kept ps d) (hsub : ∀ p ∈ ([.regs, .commit] : List Part), p ∈ ps) :
    d0.Kept ps (Dev.rejoinJoin d q k) := by
  refine hk.then (qs := [.regs, .commit]) ?_ hsub
  unfold Dev.rejoinJoin
  try dsimp only
  repeat' first
    | with_reducible exact Kept.refl _ _
    | decide
    | with_reducible apply Kept.refreshBudgets
    | with_reducible apply Kept.modCommit
    | with_reducible apply Kept.setFld
    | with_reducible refine Kept.of_fst_eq (by assumption) ?_
    | split
    | dsimp only

/-- What `rejoinRecover` can change. -/
theorem Kept.rejoinRecover {ps : List Part} {d0 d : Dev} {q : Region} (hk : d0.Kept ps d) (hsub : ∀ p ∈ ([.regs, .anchorSt] : List Part), p ∈ ps) :
    d0.Kept ps (Dev.rejoinRecover d q) := by
  refine hk.then (qs := [.regs, .anchorSt]) ?_ hsub
  unfold Dev.rejoinRecover
  try dsimp only
  repeat' first
    | with_reducible exact Kept.refl _ _
    | decide
    | with_reducible apply Kept.rejoinPhase
    | with_reducible apply Kept.setFld
    | with_reducible refine Kept.of_fst_eq (by assumption) ?_
    | split
    | dsimp only

/-- What `rejoinDone` can change. -/
theorem Kept.rejoinDone {ps : List Part} {d0 d : Dev} {x : Rejoin} (hk : d0.Kept ps d) (hsub : ∀ p ∈ ([.regs, .mem, .line, .anchorSt, .endpoints, .thody, .journal] : List Part), p ∈ ps) :
    d0.Kept ps (Dev.rejoinDone d x) := by
  refine hk.then (qs := [.regs, .mem, .line, .anchorSt, .endpoints, .thody, .journal]) ?_ hsub
  unfold Dev.rejoinDone
  try dsimp only
  repeat' first
    | with_reducible exact Kept.refl _ _
    | decide
    | with_reducible apply Kept.rejoinJob
    | with_reducible apply Kept.modA
    | with_reducible apply Kept.journalChip
    | with_reducible apply Kept.post
    | with_reducible apply Kept.setFld
    | with_reducible refine Kept.of_fst_eq (by assumption) ?_
    | split
    | dsimp only

/-- What `report` can change. -/
theorem Kept.report {ps : List Part} {d0 d : Dev} {o : Outcome} (hk : d0.Kept ps d) (hsub : ∀ p ∈ ([.regs, .mem, .wire, .line, .ctxs, .endpoints, .commit] : List Part), p ∈ ps) :
    d0.Kept ps (Dev.report d o) := by
  refine hk.then (qs := [.regs, .mem, .wire, .line, .ctxs, .endpoints, .commit]) ?_ hsub
  unfold Dev.report
  try dsimp only
  repeat' first
    | with_reducible exact Kept.refl _ _
    | decide
    | with_reducible apply Kept.ite
    | with_reducible apply Kept.modMail
    | with_reducible apply Kept.urComplete
    | with_reducible apply Kept.outcome
    | with_reducible refine Kept.of_fst_eq (by assumption) ?_
    | split
    | dsimp only

/-- What `fenceOutcomes` can change. -/
theorem Kept.fenceOutcomes {ps : List Part} {d0 d : Dev} {q : Region} (hk : d0.Kept ps d) (hsub : ∀ p ∈ ([.regs, .mem, .wire, .line, .ctxs, .endpoints, .commit] : List Part), p ∈ ps) :
    d0.Kept ps (Dev.fenceOutcomes d q) := by
  refine hk.then (qs := [.regs, .mem, .wire, .line, .ctxs, .endpoints, .commit]) ?_ hsub
  unfold Dev.fenceOutcomes
  try dsimp only
  repeat' first
    | with_reducible exact Kept.refl _ _
    | decide
    | with_reducible apply Kept.each
    | with_reducible apply Kept.report
    | with_reducible apply Kept.event
    | (intro _)
    | with_reducible refine Kept.of_fst_eq (by assumption) ?_
    | split
    | dsimp only

/-- What `fenceRecords` can change. -/
theorem Kept.fenceRecords {ps : List Part} {d0 d : Dev} {q : Region} (hk : d0.Kept ps d) (hsub : ∀ p ∈ ([.regs, .mem, .wire, .line, .ctxs, .packets, .endpoints, .commit, .pool, .egress, .journal] : List Part), p ∈ ps) :
    d0.Kept ps (Dev.fenceRecords d q) := by
  refine hk.then (qs := [.regs, .mem, .wire, .line, .ctxs, .packets, .endpoints, .commit, .pool, .egress, .journal]) ?_ hsub
  unfold Dev.fenceRecords
  try dsimp only
  repeat' first
    | with_reducible exact Kept.refl _ _
    | decide
    | with_reducible apply Kept.ite
    | with_reducible apply Kept.each
    | with_reducible apply Kept.when
    | with_reducible apply Kept.noteOutcome
    | with_reducible apply Kept.dropCount
    | (intro _)
    | with_reducible apply Kept.set_wire
    | with_reducible refine Kept.of_fst_eq (by assumption) ?_
    | split
    | dsimp only

/-- What `fenceFlights` can change. -/
theorem Kept.fenceFlights {ps : List Part} {d0 d : Dev} {q : Region} (hk : d0.Kept ps d)
    (hsub : ∀ p ∈ ([.regs, .wire, .ctxs] : List Part), p ∈ ps) : d0.Kept ps (Dev.fenceFlights d q) := by
  refine hk.then (qs := [.regs, .wire, .ctxs]) ?_ hsub
  unfold Dev.fenceFlights
  refine Kept.each (Kept.set_wire (Kept.refl _ _) (by decide)) (fun f e => ?_)
  split
  · exact Kept.send (Kept.refl _ _) (by decide)
  · exact Kept.discarded (Kept.refl _ _) (by decide)

/-- What `setEffective` can change. -/
theorem Kept.setEffective {ps : List Part} {d0 d : Dev} {r : Region} {kind index v : Nat} (hk : d0.Kept ps d) (hsub : ∀ p ∈ ([.ledger] : List Part), p ∈ ps) :
    d0.Kept ps (Dev.setEffective d r kind index v) := by
  refine hk.then (qs := [.ledger]) ?_ hsub
  unfold Dev.setEffective
  try dsimp only
  repeat' first
    | with_reducible exact Kept.refl _ _
    | decide
    | with_reducible apply Kept.modR
    | (intro g p hp; cases p <;> first | trivial | rfl | exact absurd (by decide) hp)
    | with_reducible refine Kept.of_fst_eq (by assumption) ?_
    | split
    | dsimp only

/-- What `closeGuest` can change. -/
theorem Kept.closeGuest {ps : List Part} {d0 d : Dev} {q : Region} (hk : d0.Kept ps d) (hsub : ∀ p ∈ ([.regs] : List Part), p ∈ ps) :
    d0.Kept ps (Dev.closeGuest d q) := by
  refine hk.then (qs := [.regs]) ?_ hsub
  unfold Dev.closeGuest
  try dsimp only
  repeat' first
    | with_reducible exact Kept.refl _ _
    | decide
    | with_reducible apply Kept.ite
    | with_reducible apply Kept.each
    | with_reducible apply Kept.admitWrite
    | (intro _)
    | with_reducible refine Kept.of_fst_eq (by assumption) ?_
    | split
    | dsimp only

/-- What `fenceRegion` can change. -/
theorem Kept.fenceRegion {ps : List Part} {d0 d : Dev} {q : Region} {cause : Nat} (hk : d0.Kept ps d) (hsub : ∀ p ∈ Part.all, p ∈ ps) :
    d0.Kept ps (Dev.fenceRegion d q cause) := by
  refine hk.then (qs := Part.all) ?_ hsub
  unfold Dev.fenceRegion
  try dsimp only
  repeat' first
    | with_reducible exact Kept.refl _ _
    | with_reducible exact fun p _ => Part.mem_all p
    | with_reducible exact fun _ p hp => absurd (Part.mem_all p) hp
    | with_reducible apply Kept.ite
    | with_reducible apply Kept.each
    | with_reducible apply Kept.closeGuest
    | with_reducible apply Kept.setEffective
    | with_reducible apply Kept.fenceFlights
    | with_reducible apply Kept.fenceRecords
    | with_reducible apply Kept.fenceOutcomes
    | with_reducible apply Kept.rejoinFail
    | with_reducible apply Kept.chooseStandby
    | with_reducible apply Kept.mailOffline
    | with_reducible apply Kept.regionReset
    | with_reducible apply Kept.modCommit
    | with_reducible apply Kept.journalChip
    | with_reducible apply Kept.post
    | with_reducible apply Kept.cevent
    | with_reducible apply Kept.addSat
    | with_reducible apply Kept.setFld
    | (intro _)
    | with_reducible refine Kept.of_fst_eq (by assumption) ?_
    | split
    | dsimp only

/-- What `fenceRequest` can change. -/
theorem Kept.fenceRequest {ps : List Part} {d0 d : Dev} {q : Region} (hk : d0.Kept ps d) (hsub : ∀ p ∈ ([.regs, .commit] : List Part), p ∈ ps) :
    d0.Kept ps (Dev.fenceRequest d q).1 := by
  refine hk.then (qs := [.regs, .commit]) ?_ hsub
  unfold Dev.fenceRequest
  try dsimp only
  repeat' first
    | with_reducible exact Kept.refl _ _
    | decide
    | with_reducible apply Kept.ite
    | with_reducible apply Kept.ite_fst
    | with_reducible apply Kept.dueFence
    | with_reducible apply Kept.setOn
    | with_reducible refine Kept.of_fst_eq (by assumption) ?_
    | split
    | dsimp only

/-- What `mpRestart` can change. -/
theorem Kept.mpRestart {ps : List Part} {d0 d : Dev} {r : Region} (hk : d0.Kept ps d) (hsub : ∀ p ∈ ([.regs, .wire, .mirror, .mpGeneration] : List Part), p ∈ ps) :
    d0.Kept ps (Dev.mpRestart d r) := by
  refine hk.then (qs := [.regs, .wire, .mirror, .mpGeneration]) ?_ hsub
  unfold Dev.mpRestart
  try dsimp only
  repeat' first
    | with_reducible exact Kept.refl _ _
    | decide
    | with_reducible apply Kept.announce
    | with_reducible apply Kept.setFld
    | with_reducible apply Kept.modR
    | (intro g p hp; cases p <;> first | trivial | rfl | exact absurd (by decide) hp)
    | with_reducible refine Kept.of_fst_eq (by assumption) ?_
    | split
    | dsimp only

/-- What `passRole` can change. -/
theorem Kept.passRole {ps : List Part} {d0 d : Dev} {new : Region} (hk : d0.Kept ps d)
    (hsub : ∀ p ∈ ([.anchor, .anchorSt, .commit] : List Part), p ∈ ps) : d0.Kept ps (Dev.passRole d new) := by
  unfold Dev.passRole
  refine Kept.modCommit ?_ fun p hp => hsub p (by revert p; decide)
  exact hk.then (qs := [.anchor, .anchorSt])
    ⟨by intro p hp; cases p <;> first | rfl | exact fun _ => rfl | exact absurd (by decide) hp, fun h => h⟩
    fun p hp => hsub p (by revert p; decide)

/-- What `copyChip` can change. -/
theorem Kept.copyChip {ps : List Part} {d0 d : Dev} {old new : Region} (hk : d0.Kept ps d) (hsub : ∀ p ∈ ([.regs] : List Part), p ∈ ps) :
    d0.Kept ps (Dev.copyChip d old new) := by
  refine hk.then (qs := [.regs]) ?_ hsub
  unfold Dev.copyChip
  try dsimp only
  repeat' first
    | with_reducible exact Kept.refl _ _
    | decide
    | with_reducible apply Kept.each
    | with_reducible apply Kept.setFld
    | (intro _)
    | with_reducible refine Kept.of_fst_eq (by assumption) ?_
    | split
    | dsimp only

/-- What `showRole` can change. -/
theorem Kept.showRole {ps : List Part} {d0 d : Dev} {new : Region} (hk : d0.Kept ps d) (hsub : ∀ p ∈ ([.regs] : List Part), p ∈ ps) :
    d0.Kept ps (Dev.showRole d new) := by
  refine hk.then (qs := [.regs]) ?_ hsub
  unfold Dev.showRole
  try dsimp only
  repeat' first
    | with_reducible exact Kept.refl _ _
    | decide
    | with_reducible apply Kept.setOn
    | with_reducible apply Kept.setFld
    | with_reducible apply Kept.setPair
    | with_reducible refine Kept.of_fst_eq (by assumption) ?_
    | split
    | dsimp only

/-- What `afterFailover` can change. -/
theorem Kept.afterFailover {ps : List Part} {d0 d : Dev} {old new : Region} (hk : d0.Kept ps d) (hsub : ∀ p ∈ ([.regs, .mem, .wire, .line, .ctxs, .endpoints, .thody, .commit, .mirror, .mpGeneration, .journal] : List Part), p ∈ ps) :
    d0.Kept ps (Dev.afterFailover d old new) := by
  refine hk.then (qs := [.regs, .mem, .wire, .line, .ctxs, .endpoints, .thody, .commit, .mirror, .mpGeneration, .journal]) ?_ hsub
  unfold Dev.afterFailover
  try dsimp only
  repeat' first
    | with_reducible exact Kept.refl _ _
    | decide
    | with_reducible apply Kept.each
    | with_reducible apply Kept.mpRestart
    | with_reducible apply Kept.mailFailover
    | with_reducible apply Kept.setParent
    | with_reducible apply Kept.modCommit
    | with_reducible apply Kept.journalChip
    | with_reducible apply Kept.post
    | with_reducible apply Kept.cevent
    | (intro _)
    | with_reducible apply Kept.set_thody
    | with_reducible refine Kept.of_fst_eq (by assumption) ?_
    | split
    | dsimp only

/-- What `failover` can change. -/
theorem Kept.failover {ps : List Part} {d0 d : Dev} (hk : d0.Kept ps d) (hsub : ∀ p ∈ ([.anchor, .regs, .mem, .wire, .line, .ctxs, .anchorSt, .endpoints, .thody, .commit, .mirror, .mpGeneration, .ledger, .journal] : List Part), p ∈ ps) :
    d0.Kept ps (Dev.failover d) := by
  refine hk.then (qs := [.anchor, .regs, .mem, .wire, .line, .ctxs, .anchorSt, .endpoints, .thody, .commit, .mirror, .mpGeneration, .ledger, .journal]) ?_ hsub
  unfold Dev.failover
  try dsimp only
  repeat' first
    | with_reducible exact Kept.refl _ _
    | decide
    | with_reducible apply Kept.afterFailover
    | with_reducible apply Kept.showRole
    | with_reducible apply Kept.copyChip
    | with_reducible apply Kept.passRole
    | with_reducible apply Kept.rejoinFail
    | with_reducible apply Kept.chooseStandby
    | with_reducible apply Kept.clr
    | with_reducible refine Kept.of_fst_eq (by assumption) ?_
    | split
    | dsimp only

/-- What `faultAck` can change. -/
theorem Kept.faultAck {ps : List Part} {d0 d : Dev} (hk : d0.Kept ps d) (hsub : ∀ p ∈ ([.regs] : List Part), p ∈ ps) :
    d0.Kept ps (Dev.faultAck d) := by
  refine hk.then (qs := [.regs]) ?_ hsub
  unfold Dev.faultAck
  try dsimp only
  repeat' first
    | with_reducible exact Kept.refl _ _
    | decide
    | with_reducible apply Kept.each
    | with_reducible apply Kept.clr
    | (intro _)
    | with_reducible refine Kept.of_fst_eq (by assumption) ?_
    | split
    | dsimp only

end Sys2Proof.Machine.Dev
end

