-- ==== Sys2Proof/Laws/BootKept.lean ====
section
/-!
SUPPORT. What each operation of Machine/Boot.lean can change at most, and that it keeps the canonical forms.
-/

namespace Sys2Proof.Machine.Dev

/-- What `setLoader` can change. -/
theorem Kept.setLoader {ps : List Part} {d0 d : Dev} {v : Nat} (hk : d0.Kept ps d) (hsub : ∀ p ∈ ([.regs, .wire, .blockCh, .regionCh, .chSpent, .packets] : List Part), p ∈ ps) :
    d0.Kept ps (Dev.setLoader d v) := by
  refine hk.then (qs := [.regs, .wire, .blockCh, .regionCh, .chSpent, .packets]) ?_ hsub
  unfold Dev.setLoader
  try dsimp only
  repeat' first
    | with_reducible exact Kept.refl _ _
    | decide
    | with_reducible apply Kept.each
    | with_reducible apply Kept.eachChip
    | with_reducible apply Kept.setFld
    | (intro _)
    | with_reducible refine Kept.of_fst_eq (by assumption) ?_
    | split
    | dsimp only

/-- What `setReject` can change. -/
theorem Kept.setReject {ps : List Part} {d0 d : Dev} {v : Nat} (hk : d0.Kept ps d) (hsub : ∀ p ∈ ([.regs] : List Part), p ∈ ps) :
    d0.Kept ps (Dev.setReject d v) := by
  refine hk.then (qs := [.regs]) ?_ hsub
  unfold Dev.setReject
  try dsimp only
  repeat' first
    | with_reducible exact Kept.refl _ _
    | decide
    | with_reducible apply Kept.setFld
    | with_reducible refine Kept.of_fst_eq (by assumption) ?_
    | split
    | dsimp only

/-- What `bootStart` can change. -/
theorem Kept.bootStart {ps : List Part} {d0 d : Dev} {spi : Bool} (hk : d0.Kept ps d) (hsub : ∀ p ∈ ([.regs, .wire, .blockCh, .regionCh, .chSpent, .packets] : List Part), p ∈ ps) :
    d0.Kept ps (Dev.bootStart d spi) := by
  refine hk.then (qs := [.regs, .wire, .blockCh, .regionCh, .chSpent, .packets]) ?_ hsub
  unfold Dev.bootStart
  try dsimp only
  repeat' first
    | with_reducible exact Kept.refl _ _
    | decide
    | with_reducible apply Kept.ite
    | with_reducible apply Kept.setReject
    | with_reducible apply Kept.setLoader
    | with_reducible refine Kept.of_fst_eq (by assumption) ?_
    | split
    | dsimp only

/-- What `loadPrograms` can change. -/
theorem Kept.loadPrograms {ps : List Part} {d0 d : Dev} {body : List Byte} (hk : d0.Kept ps d) (hsub : ∀ p ∈ ([.mem] : List Part), p ∈ ps) :
    d0.Kept ps (Dev.loadPrograms d body) := by
  refine hk.then (qs := [.mem]) ?_ hsub
  unfold Dev.loadPrograms
  try dsimp only
  repeat' first
    | with_reducible exact Kept.refl _ _
    | decide
    | with_reducible apply Kept.ite
    | with_reducible apply Kept.each
    | with_reducible apply Kept.foldl
    | with_reducible apply Kept.foldl_fst
    | with_reducible apply Kept.setByte
    | (intro _)
    | with_reducible refine Kept.of_fst_eq (by assumption) ?_
    | split
    | dsimp only

/-- What `takePrograms` can change. -/
theorem Kept.takePrograms {ps : List Part} {d0 d : Dev} (hk : d0.Kept ps d) (hsub : ∀ p ∈ ([.regs, .mem, .line, .endpoints, .journal] : List Part), p ∈ ps) :
    d0.Kept ps (Dev.takePrograms d) := by
  refine hk.then (qs := [.regs, .mem, .line, .endpoints, .journal]) ?_ hsub
  unfold Dev.takePrograms
  try dsimp only
  repeat' first
    | with_reducible exact Kept.refl _ _
    | decide
    | with_reducible apply Kept.ite
    | with_reducible apply Kept.loadPrograms
    | with_reducible apply Kept.journalChip
    | with_reducible refine Kept.of_fst_eq (by assumption) ?_
    | split
    | dsimp only

/-- What `release` can change. -/
theorem Kept.release {ps : List Part} {d0 d : Dev} {straps : Nat} (hk : d0.Kept ps d) (hsub : ∀ p ∈ ([.regs, .wire, .blockCh, .regionCh, .chSpent, .packets, .chip, .journal] : List Part), p ∈ ps) :
    d0.Kept ps (Dev.release d straps) := by
  refine hk.then (qs := [.regs, .wire, .blockCh, .regionCh, .chSpent, .packets, .chip, .journal]) ?_ hsub
  unfold Dev.release
  try dsimp only
  repeat' first
    | with_reducible exact Kept.refl _ _
    | decide
    | with_reducible apply Kept.ite
    | with_reducible apply Kept.each
    | with_reducible apply Kept.setLoader
    | with_reducible apply Kept.eachChip
    | with_reducible apply Kept.modJnl
    | with_reducible apply Kept.setFld
    | with_reducible apply Kept.setReg
    | (intro _)
    | with_reducible apply Kept.set_chip
    | with_reducible refine Kept.of_fst_eq (by assumption) ?_
    | split
    | dsimp only

/-- What `lcRecord` can change. -/
theorem Kept.lcRecord {ps : List Part} {d0 d : Dev} {i : Nat} (hk : d0.Kept ps d) (hsub : ∀ p ∈ ([.mem] : List Part), p ∈ ps) :
    d0.Kept ps (Dev.lcRecord d i) := by
  refine hk.then (qs := [.mem]) ?_ hsub
  unfold Dev.lcRecord
  try dsimp only
  repeat' first
    | with_reducible exact Kept.refl _ _
    | decide
    | with_reducible apply Kept.setBytes
    | with_reducible refine Kept.of_fst_eq (by assumption) ?_
    | split
    | dsimp only

/-- What `setLifeCycle` can change. -/
theorem Kept.setLifeCycle {ps : List Part} {d0 d : Dev} {v : Nat} (hk : d0.Kept ps d) (hsub : ∀ p ∈ ([.regs, .wire, .blockCh, .regionCh, .chSpent, .packets] : List Part), p ∈ ps) :
    d0.Kept ps (Dev.setLifeCycle d v) := by
  refine hk.then (qs := [.regs, .wire, .blockCh, .regionCh, .chSpent, .packets]) ?_ hsub
  unfold Dev.setLifeCycle
  try dsimp only
  repeat' first
    | with_reducible exact Kept.refl _ _
    | decide
    | with_reducible apply Kept.ite
    | with_reducible apply Kept.each
    | with_reducible apply Kept.eachChip
    | with_reducible apply Kept.clr
    | with_reducible apply Kept.setFld
    | (intro _)
    | with_reducible refine Kept.of_fst_eq (by assumption) ?_
    | split
    | dsimp only

/-- What `advanceDone` can change. -/
theorem Kept.advanceDone {ps : List Part} {d0 d : Dev} {v : Nat} (hk : d0.Kept ps d) (hsub : ∀ p ∈ ([.regs, .mem, .wire, .ctxs, .blockCh, .regionCh, .chSpent, .packets, .chip] : List Part), p ∈ ps) :
    d0.Kept ps (Dev.advanceDone d v) := by
  refine hk.then (qs := [.regs, .mem, .wire, .ctxs, .blockCh, .regionCh, .chSpent, .packets, .chip]) ?_ hsub
  unfold Dev.advanceDone
  try dsimp only
  repeat' first
    | with_reducible exact Kept.refl _ _
    | decide
    | with_reducible apply Kept.setLifeCycle
    | with_reducible apply Kept.lcRecord
    | with_reducible apply Kept.raise
    | with_reducible apply Kept.set_chip
    | with_reducible refine Kept.of_fst_eq (by assumption) ?_
    | split
    | dsimp only

/-- What `tamper` can change. -/
theorem Kept.tamper {ps : List Part} {d0 d : Dev} {r : Region} {sensors : Nat} (hk : d0.Kept ps d) (hsub : ∀ p ∈ Part.all, p ∈ ps) :
    d0.Kept ps (Dev.tamper d r sensors) := by
  refine hk.then (qs := Part.all) ?_ hsub
  unfold Dev.tamper
  try dsimp only
  repeat' first
    | with_reducible exact Kept.refl _ _
    | with_reducible exact fun p _ => Part.mem_all p
    | with_reducible exact fun _ p hp => absurd (Part.mem_all p) hp
    | with_reducible apply Kept.ite
    | with_reducible apply Kept.each
    | with_reducible apply Kept.partReset
    | with_reducible apply Kept.eachChip
    | with_reducible apply Kept.wipeAll
    | with_reducible apply Kept.journalChip
    | with_reducible apply Kept.journalAs
    | with_reducible apply Kept.raise
    | with_reducible apply Kept.setFld
    | with_reducible apply Kept.setOn
    | (intro _)
    | with_reducible refine Kept.of_fst_eq (by assumption) ?_
    | split
    | dsimp only

/-- What `countTrip` can change. -/
theorem Kept.countTrip {ps : List Part} {d0 d : Dev} (hk : d0.Kept ps d) (hsub : ∀ p ∈ ([.mem] : List Part), p ∈ ps) :
    d0.Kept ps (Dev.countTrip d) := by
  refine hk.then (qs := [.mem]) ?_ hsub
  unfold Dev.countTrip
  try dsimp only
  repeat' first
    | with_reducible exact Kept.refl _ _
    | decide
    | with_reducible apply Kept.each
    | with_reducible apply Kept.setByte
    | (intro _)
    | with_reducible refine Kept.of_fst_eq (by assumption) ?_
    | split
    | dsimp only

/-- What `senseTemps` can change. -/
theorem Kept.senseTemps {ps : List Part} {d0 d : Dev} {temps : List Int} (hk : d0.Kept ps d) (hsub : ∀ p ∈ Part.all, p ∈ ps) :
    d0.Kept ps (Dev.senseTemps d temps) := by
  refine hk.then (qs := Part.all) ?_ hsub
  unfold Dev.senseTemps
  try dsimp only
  repeat' first
    | with_reducible exact Kept.refl _ _
    | with_reducible exact fun p _ => Part.mem_all p
    | with_reducible exact fun _ p hp => absurd (Part.mem_all p) hp
    | with_reducible apply Kept.ite
    | with_reducible apply Kept.each
    | with_reducible apply Kept.tamper
    | with_reducible apply Kept.setFld
    | (intro _)
    | with_reducible refine Kept.of_fst_eq (by assumption) ?_
    | split
    | dsimp only

/-- What `showTemps` can change. -/
theorem Kept.showTemps {ps : List Part} {d0 d : Dev} {temps : List Int} {r : Region} {t : Int} (hk : d0.Kept ps d) (hsub : ∀ p ∈ ([.regs] : List Part), p ∈ ps) :
    d0.Kept ps (Dev.showTemps d temps r t) := by
  refine hk.then (qs := [.regs]) ?_ hsub
  unfold Dev.showTemps
  try dsimp only
  repeat' first
    | with_reducible exact Kept.refl _ _
    | decide
    | with_reducible apply Kept.each
    | with_reducible apply Kept.setFld
    | (intro _)
    | with_reducible refine Kept.of_fst_eq (by assumption) ?_
    | split
    | dsimp only

/-- What `thermLevels` can change. -/
theorem Kept.thermLevels {ps : List Part} {d0 d : Dev} {warn crit : Bool} (hk : d0.Kept ps d) (hsub : ∀ p ∈ ([.regs, .wire, .ctxs, .chip] : List Part), p ∈ ps) :
    d0.Kept ps (Dev.thermLevels d warn crit) := by
  refine hk.then (qs := [.regs, .wire, .ctxs, .chip]) ?_ hsub
  unfold Dev.thermLevels
  try dsimp only
  repeat' first
    | with_reducible exact Kept.refl _ _
    | decide
    | with_reducible apply Kept.ite
    | with_reducible apply Kept.when
    | with_reducible apply Kept.raise
    | (intro _)
    | with_reducible apply Kept.set_chip
    | with_reducible refine Kept.of_fst_eq (by assumption) ?_
    | split
    | dsimp only

/-- What `thermSample` can change. -/
theorem Kept.thermSample {ps : List Part} {d0 d : Dev} {temps : List Int} (hk : d0.Kept ps d) (hsub : ∀ p ∈ Part.all, p ∈ ps) :
    d0.Kept ps (Dev.thermSample d temps) := by
  refine hk.then (qs := Part.all) ?_ hsub
  unfold Dev.thermSample
  try dsimp only
  repeat' first
    | with_reducible exact Kept.refl _ _
    | with_reducible exact fun p _ => Part.mem_all p
    | with_reducible exact fun _ p hp => absurd (Part.mem_all p) hp
    | with_reducible apply Kept.ite
    | with_reducible apply Kept.thermLevels
    | with_reducible apply Kept.showTemps
    | with_reducible apply Kept.senseTemps
    | with_reducible apply Kept.countTrip
    | with_reducible apply Kept.partReset
    | with_reducible refine Kept.of_fst_eq (by assumption) ?_
    | split
    | dsimp only

end Sys2Proof.Machine.Dev
end

