-- ==== Sys2Proof/Laws/Carried.lean ====
section
/-!
SUPPORT. How a command is shown to be carried out: from what its effect answers and what it leaves alone.
-/

namespace Sys2Proof.Machine

/-- A total command is carried out. -/
theorem Carried.run {c : Instr} {s : State} {l : List Part} {P : Dev → Prop} {f : Dev → Dev} (hx : exec c s = s.run f)
    (ho : s.dev.OnlyIn l (f s.dev)) (hp : P { f s.dev with free := s.dev.free + 1 }) : Carried c s l P :=
  ⟨_, hx.trans (State.run_eq s f), rfl, rfl, by
    intro p hp'
    have h := ho p (fun hl => hp' (List.mem_cons_of_mem _ hl))
    cases p <;> first | exact h | exact absurd List.mem_cons_self hp', hp⟩

/-- A command whose effect answers a part is carried out. -/
theorem Carried.doing {c : Instr} {s : State} {l : List Part} {P : Dev → Prop} {f : Dev → Res} {d : Dev} (hx : exec c s = s.doing f)
    (hf : f s.dev = .next d) (ho : s.dev.OnlyIn l d) (hp : P { d with free := s.dev.free + 1 }) : Carried c s l P :=
  ⟨_, hx.trans (State.doing_next hf), rfl, rfl, by
    intro p hp'
    have h := ho p (fun hl => hp' (List.mem_cons_of_mem _ hl))
    cases p <;> first | exact h | exact absurd List.mem_cons_self hp', hp⟩

namespace Dev

/-! ### Counting a command changes nothing that is read -/

@[simp] theorem reg_counted (d : Dev) (n a : Nat) : ({ d with free := n } : Dev).reg a = d.reg a := rfl
@[simp] theorem fld_counted (d : Dev) (n : Nat) (f : Fld) : ({ d with free := n } : Dev).fld f = d.fld f := rfl
@[simp] theorem on_counted (d : Dev) (n : Nat) (f : Fld) : ({ d with free := n } : Dev).on f = d.on f := rfl
@[simp] theorem g_counted (d : Dev) (n : Nat) (r : Region) : ({ d with free := n } : Dev).g r = d.g r := rfl
@[simp] theorem ctx_counted (d : Dev) (n k : Nat) : ({ d with free := n } : Dev).ctx k = d.ctx k := rfl
@[simp] theorem byte_counted (d : Dev) (n a : Nat) : ({ d with free := n } : Dev).byte a = d.byte a := rfl
@[simp] theorem A_counted (d : Dev) (n : Nat) : ({ d with free := n } : Dev).A = d.A := rfl

/-! ### A field that a command writes -/

/-- A field written holds its value, and the bits beside it stand. -/
theorem wrote_setFld (d : Dev) (f : Fld) (v : Nat) (h : f.lo + f.width ≤ 32) (hv : v < 2 ^ f.width) : Dev.Wrote f v d (d.setFld f v) := by
  refine ⟨by rw [fld_setFld_same _ _ _ h, Nat.mod_eq_of_lt hv], fun i hi => ?_⟩
  rw [reg_setFld, if_pos rfl, ← BitVec.testBit_toNat, ← BitVec.testBit_toNat, withField_toNat _ _ _ _ h, testBit_replaced, if_neg (by omega)]

/-- A later change that leaves the field's register as it is. -/
theorem Wrote.then {f : Fld} {v : Nat} {d e e' : Dev} (h : Dev.Wrote f v d e) (he : e'.reg f.addr = e.reg f.addr) : Dev.Wrote f v d e' :=
  ⟨(fld_congr f he).trans h.1, fun i hi => by rw [he]; exact h.2 i hi⟩

/-- Only the written register changes. -/
theorem regsIn_setReg (d : Dev) (a : Nat) (w : Word) (l : List Nat) (h : a ∈ l) : d.RegsIn l (d.setReg a w) :=
  fun b hb => reg_setReg_ne _ _ _ _ (fun e => hb (e ▸ h))

theorem RegsIn.trans {l : List Nat} {d e f : Dev} (h : d.RegsIn l e) (k : e.RegsIn l f) : d.RegsIn l f :=
  fun a ha => (k a ha).trans (h a ha)

end Dev

end Sys2Proof.Machine
end

