-- ==== Sys2Proof/Laws/CoproKept.lean ====
section
/-!
SUPPORT. What each operation of Machine/Copro.lean can change at most, and that it keeps the canonical forms.
-/

namespace Sys2Proof.Machine.Dev

/-- What `cpOp` can change. -/
theorem Kept.cpOp {ps : List Part} {d0 d : Dev} {k : Nat} {f : Word → Word → Copro → Copro.Answer} {a b : Word} (hk : d0.Kept ps d) (hsub : ∀ p ∈ ([.ctxs] : List Part), p ∈ ps) :
    d0.Kept ps (Dev.cpOp d k f a b).1 := by
  refine hk.then (qs := [.ctxs]) ?_ hsub
  unfold Dev.cpOp
  try dsimp only
  repeat' first
    | with_reducible exact Kept.refl _ _
    | decide
    | with_reducible apply Kept.modCtx
    | with_reducible refine Kept.of_fst_eq (by assumption) ?_
    | split
    | dsimp only

/-- What `cpLoad` can change. -/
theorem Kept.cpLoad {ps : List Part} {d0 d : Dev} {k : Nat} {b : List Byte} (hk : d0.Kept ps d) (hsub : ∀ p ∈ ([.ctxs] : List Part), p ∈ ps) :
    d0.Kept ps (Dev.cpLoad d k b) := by
  refine hk.then (qs := [.ctxs]) ?_ hsub
  unfold Dev.cpLoad
  try dsimp only
  repeat' first
    | with_reducible exact Kept.refl _ _
    | decide
    | with_reducible apply Kept.modCtx
    | with_reducible refine Kept.of_fst_eq (by assumption) ?_
    | split
    | dsimp only

end Sys2Proof.Machine.Dev
end

