-- ==== Sys2Proof/Tests/Slice0.lean ====
section
/-!
SUPPORT. Ill-formed commands that the checks refuse, and concrete states that meet the hypotheses of the obligations.
-/

namespace Sys2Proof.Tests

open Sys2Proof Sys2Proof.Machine

set_option Elab.async false

/-- The part right after reset. -/
def d0 : Dev := State.reset.dev

/-- A state with nothing waiting. -/
def at_ (d : Dev) : State := ⟨d, []⟩

/-- A packet of the last region at a stage. -/
def pk (stage : Stage) : Packet :=
  { region := 7, stamp := ⟨56, 0, 0, 0, 0⟩, localPort := 0, head := 7 * 2 ^ 29, length := 60, rxTime := 0, rxSec := 0, stage,
    pass := 0, paneKnown := false, pane := 0, paneGen := 0, profile := 0, transit := 1, maxPasses := 1, narrowed := false, flowHash := 0,
    parse := [], cls := [], front := [], results := [], lookups := [], flooded := [], learnDrop := false, mirrorA := none,
    mirrorB := none, mirrors := [], rewrite := [], poisoned := false, target := 0, entry := 0, sendBack := false, task := false,
    reserve := false, copies := 1, consumed := false, orig := none }

/-- The release record of such a packet. -/
def rec0 : ReleaseRec :=
  { stamp := ⟨56, 0, 0, 0, 0⟩, transit := 1, copy := 0, host := false, dest := 0x7FFF, head := 7 * 2 ^ 29, length := 60,
    poisoned := false, mirrorTail := false, pkt := 0 }

/-- Its copy, held until it is settled. -/
def copy0 : Copyout :=
  { record := rec0, rewrite := [], parse := [], pane := 0, paneGen := 0, release := 1, mirror := false, shared := false,
    outcome := none, head := none, meta0 := 0, mirrorField := 0 }

/-- Its entry in a queue. -/
def entry0 : QueueEntry :=
  { record := rec0, head := 7 * 2 ^ 29, stitches := 1, trunc := 0, ready := true, spilling := false, bySpill := false }

/-- A stitch with a frame of 60 bytes, owned by a requester. -/
def stitch (owner : Nat) : StitchDesc :=
  { alloc := true, last := true, poison := false, refLink := false, skip := 0, owner, refcnt := 0, bytes := 60, next := 0,
    charged := 0, cls := 0 }

/-- The part with packet 0 at a stage. -/
def dp (stage : Stage) : Dev := d0.setPkt 0 (some (pk stage))

/-- The part in STRICT with the last port of the last region in service. -/
def up7 : Dev := d0.modR 7 fun g => { g with mode := .strict, ledger := [(65543, ⟨2, 0, 0, false⟩)] }

/-- The part with packet 0 at the head of ready queue 255 of the last region, whose last block serves it with its last worker. -/
def dq7 : Dev :=
  (((((dp (.queued 255)).modDsp 7 fun x => { x with ready := [(255, [0])] }).modCell 1023 fun c => { c with slots := [15] }).modCtx
    32751 fun c => { c with enable := true, mode := .idle }).setFld (BLK_CELL_RUN_run 7 15) 0x80).setFld
    (RGN_DSP_BSERVE_serve 7 15 7) 0x80000000 |>.setOn (RGN_DSP_BMODE_serve_en 7 15)

/-- The last cell runs, and its context `i` is RUNNING at the instruction `w`, with integer registers `x`. -/
def run7 (i w : Nat) (x : List (Nat × Word)) (f : Ctx → Ctx := id) (d : Dev := d0) : Dev :=
  ((d.setFld (BLK_CELL_RUN_run 7 15) 0x80).modCell 1023 fun c => { c with icache := [(0, bytesLE 4 w)] }).modCtx (32736 + i)
    fun c => f { c with mode := .running, x := x }

/-- The part outside LOAD with work on the last transmit ring of the second endpoint. -/
def tx7 : Dev :=
  ((d0.modR 4 fun g => { g with mode := .strict }).modEp 1 fun x => { x with producer := [(1022, 1)] }).setOn (HST_QP_CFG_tx_en 1 511)

/-- The part in CONFIGURE with a command on the last mailbox pair of the second endpoint. -/
def mb7 (op : Nat) (p : List Byte) : Dev :=
  ((d0.setFld (CHP_MODE_STAT_effective 0) 1).setFld (HST_MB_STAT_state 1 31) 2).modMail 1 31 fun m => { m with opcode := op, payload := p }

theorem test_ill_formed_shutterMark :
    (.shutterMark 0 0 (2 ^ 48) 0 0 0 0 0 : Instr).wellFormed = false
    ∧ (.shutterMark 0 0 0 256 0 0 0 0 : Instr).wellFormed = false
    ∧ (.shutterMark 0 0 0 0 (2 ^ 32) 0 0 0 : Instr).wellFormed = false
    ∧ (.shutterMark 0 0 0 0 0 8 0 0 : Instr).wellFormed = false := by decide

theorem test_ill_formed_echoReq :
    (.echoReq 0 0 (2 ^ 64) 0 : Instr).wellFormed = false
    ∧ (.echoReq 0 0 0 (2 ^ 32) : Instr).wellFormed = false := by decide

theorem test_ill_formed_echoRsp :
    (.echoRsp 0 0 (2 ^ 64) 0 0 : Instr).wellFormed = false
    ∧ (.echoRsp 0 0 0 (2 ^ 32) 0 : Instr).wellFormed = false := by decide

theorem test_ill_formed_mutRecord :
    (.mutRecord 0 0 (2 ^ 48) ⟨1, 0, 0, 0, 0, 0, 0, 0, 0, 8, 8, 0, false, false, 0, 0, (List.replicate 16 0)⟩ : Instr).wellFormed = false
    ∧ (.mutRecord 0 0 0 ⟨16, 0, 0, 0, 0, 0, 0, 0, 0, 8, 8, 0, false, false, 0, 0, (List.replicate 16 0)⟩ : Instr).wellFormed = false
    ∧ (.mutRecord 0 0 0 ⟨1, 6, 0, 0, 0, 0, 0, 0, 0, 8, 8, 0, false, false, 0, 0, (List.replicate 16 0)⟩ : Instr).wellFormed = false
    ∧ (.mutRecord 0 0 0 ⟨1, 0, 256, 0, 0, 0, 0, 0, 0, 8, 8, 0, false, false, 0, 0, (List.replicate 16 0)⟩ : Instr).wellFormed = false
    ∧ (.mutRecord 0 0 0 ⟨1, 0, 0, 8, 0, 0, 0, 0, 0, 8, 8, 0, false, false, 0, 0, (List.replicate 16 0)⟩ : Instr).wellFormed = false
    ∧ (.mutRecord 0 0 0 ⟨1, 0, 0, 0, 128, 0, 0, 0, 0, 8, 8, 0, false, false, 0, 0, (List.replicate 16 0)⟩ : Instr).wellFormed = false
    ∧ (.mutRecord 0 0 0 ⟨1, 0, 0, 0, 0, 128, 0, 0, 0, 8, 8, 0, false, false, 0, 0, (List.replicate 16 0)⟩ : Instr).wellFormed = false
    ∧ (.mutRecord 0 0 0 ⟨1, 0, 0, 0, 0, 0, 16, 0, 0, 8, 8, 0, false, false, 0, 0, (List.replicate 16 0)⟩ : Instr).wellFormed = false
    ∧ (.mutRecord 0 0 0 ⟨1, 0, 0, 0, 0, 0, 0, 8192, 0, 8, 8, 0, false, false, 0, 0, (List.replicate 16 0)⟩ : Instr).wellFormed = false
    ∧ (.mutRecord 0 0 0 ⟨1, 0, 0, 0, 0, 0, 0, 0, 3, 8, 8, 0, false, false, 0, 0, (List.replicate 16 0)⟩ : Instr).wellFormed = false
    ∧ (.mutRecord 0 0 0 ⟨1, 0, 0, 0, 0, 0, 0, 0, 0, 64, 8, 0, false, false, 0, 0, (List.replicate 16 0)⟩ : Instr).wellFormed = false
    ∧ (.mutRecord 0 0 0 ⟨1, 0, 0, 0, 0, 0, 0, 0, 0, 8, 32, 0, false, false, 0, 0, (List.replicate 16 0)⟩ : Instr).wellFormed = false
    ∧ (.mutRecord 0 0 0 ⟨1, 0, 0, 0, 0, 0, 0, 0, 0, 8, 8, 129, false, false, 0, 0, (List.replicate 16 0)⟩ : Instr).wellFormed = false
    ∧ (.mutRecord 0 0 0 ⟨1, 0, 0, 0, 0, 0, 0, 0, 0, 8, 8, 0, false, false, 8, 0, (List.replicate 16 0)⟩ : Instr).wellFormed = false
    ∧ (.mutRecord 0 0 0 ⟨1, 0, 0, 0, 0, 0, 0, 0, 0, 8, 8, 0, false, false, 0, (2 ^ 32), (List.replicate 16 0)⟩ : Instr).wellFormed = false
    ∧ (.mutRecord 0 0 0 ⟨1, 0, 0, 0, 0, 0, 0, 0, 0, 8, 8, 0, false, false, 0, 0, []⟩ : Instr).wellFormed = false := by decide

theorem test_ill_formed_recon :
    (.recon 0 0 (2 ^ 48) ⟨1, 0, 0, 0, 0, 0, 0, 0, 0, 8, 8, 0, false, false, 0, 0, (List.replicate 16 0)⟩ : Instr).wellFormed = false
    ∧ (.recon 0 0 0 ⟨16, 0, 0, 0, 0, 0, 0, 0, 0, 8, 8, 0, false, false, 0, 0, (List.replicate 16 0)⟩ : Instr).wellFormed = false := by simp only [Instr.wellFormed, requestFits, addrFits, List.length_replicate]; decide

theorem test_ill_formed_seal :
    (.seal 0 (2 ^ 48) 0 0 : Instr).wellFormed = false
    ∧ (.seal 0 0 129 0 : Instr).wellFormed = false := by decide

theorem test_ill_formed_commit :
    (.commit 0 ⟨2 ^ 48, 0, []⟩ [] none : Instr).wellFormed = false
    ∧ (.commit 0 ⟨0, 2 ^ 48, []⟩ [] none : Instr).wellFormed = false
    ∧ (.commit 0 ⟨0, 0, [⟨8, 0, 0⟩]⟩ [] none : Instr).wellFormed = false
    ∧ (.commit 0 ⟨0, 0, [⟨0, 129, 0⟩]⟩ [] none : Instr).wellFormed = false := by decide

theorem test_ill_formed_repairReq :
    (.repairReq 0 0 256 0 0 : Instr).wellFormed = false
    ∧ (.repairReq 0 0 0 (2 ^ 29) 0 : Instr).wellFormed = false := by decide

theorem test_ill_formed_repairStalled :
    (.repairStalled 0 256 0 : Instr).wellFormed = false
    ∧ (.repairStalled 0 0 (2 ^ 29) : Instr).wellFormed = false := by decide

theorem test_ill_formed_member :
    (.member 0 none 256 0 0 0 0 : Instr).wellFormed = false
    ∧ (.member 0 none 0 256 0 0 0 : Instr).wellFormed = false
    ∧ (.member 0 none 0 0 256 0 0 : Instr).wellFormed = false
    ∧ (.member 0 none 0 0 0 256 0 : Instr).wellFormed = false
    ∧ (.member 0 none 0 0 0 0 (2 ^ 48) : Instr).wellFormed = false := by decide

theorem test_ill_formed_linkState :
    (.linkState 0 none 1024 0 : Instr).wellFormed = false
    ∧ (.linkState 0 none 0 (2 ^ 48) : Instr).wellFormed = false := by decide

theorem test_ill_formed_paneWindowWrite :
    (.paneWindowWrite 0 0 true 0x60000 [0] : Instr).wellFormed = false
    ∧ (.paneWindowWrite 0 0 false 0x10000 [0] : Instr).wellFormed = false := by decide

theorem test_ill_formed_frameReceive :
    (.frameReceive 0 0 [] true false 0 0 (10 ^ 9) 0 : Instr).wellFormed = false
    ∧ (.frameReceive 0 0 [] true false 0 7501 0 0 : Instr).wellFormed = false
    ∧ (.frameReceive 0 0 [] true false 0 0 0 (2 ^ 48) : Instr).wellFormed = false := by decide

theorem test_ill_formed_txDmaComplete :
    (.txDmaComplete 0 0 false 7501 : Instr).wellFormed = false := by decide

theorem test_ill_formed_chMsg :
    (.chMsg 0 256 0 [] : Instr).wellFormed = false
    ∧ (.chMsg 0 0 (2 ^ 32) [] : Instr).wellFormed = false
    ∧ (.chMsg 0 0 0 (List.replicate 9 0) : Instr).wellFormed = false := by simp only [Instr.wellFormed, requestFits, addrFits, List.length_replicate]; decide

theorem test_ill_formed_chCreditReturn :
    (.chCreditReturn 0 0 256 : Instr).wellFormed = false := by decide

theorem test_ill_formed_chFlush :
    (.chFlush 0 0 false 64 : Instr).wellFormed = false
    ∧ (.chFlush 0 0 true 256 : Instr).wellFormed = false := by decide

theorem test_ill_formed_genUpdate :
    (.genUpdate 0 0 (2 ^ 32) : Instr).wellFormed = false := by decide

theorem test_ill_formed_releaseRec :
    (.releaseRec 0 0 ⟨⟨0x42, 0, 0, 0, 0⟩, 3, 0, false, 0, 0, 64, false, false, 0⟩ : Instr).wellFormed = false
    ∧ (.releaseRec 0 0 ⟨⟨0, 8, 0, 0, 0⟩, 3, 0, false, 0, 0, 64, false, false, 0⟩ : Instr).wellFormed = false
    ∧ (.releaseRec 0 0 ⟨⟨0, 0, 65536, 0, 0⟩, 3, 0, false, 0, 0, 64, false, false, 0⟩ : Instr).wellFormed = false
    ∧ (.releaseRec 0 0 ⟨⟨0, 0, 0, 2 ^ 48, 0⟩, 3, 0, false, 0, 0, 64, false, false, 0⟩ : Instr).wellFormed = false
    ∧ (.releaseRec 0 0 ⟨⟨0, 0, 0, 0, 7501⟩, 3, 0, false, 0, 0, 64, false, false, 0⟩ : Instr).wellFormed = false
    ∧ (.releaseRec 0 0 ⟨⟨0, 0, 0, 0, 0⟩, 2, 0, false, 0, 0, 64, false, false, 0⟩ : Instr).wellFormed = false
    ∧ (.releaseRec 0 0 ⟨⟨0, 0, 0, 0, 0⟩, 15, 0, false, 0, 0, 64, false, false, 0⟩ : Instr).wellFormed = false
    ∧ (.releaseRec 0 0 ⟨⟨0, 0, 0, 0, 0⟩, 3, 19, false, 0, 0, 64, false, false, 0⟩ : Instr).wellFormed = false
    ∧ (.releaseRec 0 0 ⟨⟨0, 0, 0, 0, 0⟩, 3, 0, false, 2 ^ 15, 0, 64, false, false, 0⟩ : Instr).wellFormed = false
    ∧ (.releaseRec 0 0 ⟨⟨0, 0, 0, 0, 0⟩, 3, 0, false, 0, 2 ^ 32, 64, false, false, 0⟩ : Instr).wellFormed = false
    ∧ (.releaseRec 0 0 ⟨⟨0, 0, 0, 0, 0⟩, 3, 0, false, 0, 0, 16641, false, false, 0⟩ : Instr).wellFormed = false := by decide

theorem test_ill_formed_releaseMark :
    (.releaseMark 0 0 (2 ^ 48) : Instr).wellFormed = false := by decide

theorem test_ill_formed_rewriteComplete :
    (.rewriteComplete 0 ⟨0, 8, 0, 0, 0⟩ 0 false : Instr).wellFormed = false
    ∧ (.rewriteComplete 0 ⟨0, 0, 0, 0, 0⟩ 19 false : Instr).wellFormed = false := by decide

theorem test_ill_formed_enqOutcome :
    (.enqOutcome 0 0 3 ⟨0, 0, 0, 0, 0⟩ 0 0 : Instr).wellFormed = false
    ∧ (.enqOutcome 0 0 0 ⟨0, 8, 0, 0, 0⟩ 0 0 : Instr).wellFormed = false
    ∧ (.enqOutcome 0 0 0 ⟨0, 0, 0, 0, 0⟩ 19 0 : Instr).wellFormed = false
    ∧ (.enqOutcome 0 0 0 ⟨0, 0, 0, 0, 0⟩ 0 256 : Instr).wellFormed = false := by decide

theorem test_ill_formed_spillCopyDone :
    (.spillCopyDone 0 4096 ⟨0, 0, 0, 0, 0⟩ 0 : Instr).wellFormed = false
    ∧ (.spillCopyDone 0 0 ⟨0, 8, 0, 0, 0⟩ 0 : Instr).wellFormed = false
    ∧ (.spillCopyDone 0 0 ⟨0, 0, 0, 0, 0⟩ 19 : Instr).wellFormed = false := by decide

theorem test_ill_formed_bodyRd :
    (.bodyRd 0 0 (2 ^ 32) 0 : Instr).wellFormed = false
    ∧ (.bodyRd 0 0 0 4096 : Instr).wellFormed = false := by decide

theorem test_ill_formed_bodyData :
    (.bodyData 0 0 .ok 4096 0 [] : Instr).wellFormed = false
    ∧ (.bodyData 0 0 .ok 0 0 (List.replicate 257 0) : Instr).wellFormed = false := by simp only [Instr.wellFormed, requestFits, addrFits, List.length_replicate]; decide

theorem test_ill_formed_pfcFrame :
    (.pfcFrame 0 0 [(8, 0)] : Instr).wellFormed = false
    ∧ (.pfcFrame 0 0 [(0, 65536)] : Instr).wellFormed = false := by decide

theorem test_ill_formed_pfcPauseExpiry :
    (.pfcPauseExpiry 0 0 8 : Instr).wellFormed = false := by decide

theorem test_ill_formed_pfcPauseRepeat :
    (.pfcPauseRepeat 0 0 8 : Instr).wellFormed = false := by decide

theorem test_ill_formed_stormDeclare :
    (.stormDeclare 0 0 8 : Instr).wellFormed = false := by decide

theorem test_ill_formed_stormEnd :
    (.stormEnd 0 0 8 : Instr).wellFormed = false := by decide

theorem test_ill_formed_alloc :
    (.alloc 0 256 0 0 [] : Instr).wellFormed = false
    ∧ (.alloc 0 0 2 0 [] : Instr).wellFormed = false
    ∧ (.alloc 0 0 0 8 [] : Instr).wellFormed = false
    ∧ (.alloc 0 0 0 0 [257] : Instr).wellFormed = false := by decide

theorem test_ill_formed_free :
    (.free 2048 0 false : Instr).wellFormed = false
    ∧ (.free 0 (2 ^ 32) false : Instr).wellFormed = false := by decide

theorem test_ill_formed_addref :
    (.addref 2048 0 false : Instr).wellFormed = false
    ∧ (.addref 0 (2 ^ 32) false : Instr).wellFormed = false := by decide

theorem test_ill_formed_deref :
    (.deref 2048 0 false : Instr).wellFormed = false
    ∧ (.deref 0 (2 ^ 32) false : Instr).wellFormed = false := by decide

theorem test_ill_formed_handover :
    (.handover 2048 0 0 false : Instr).wellFormed = false
    ∧ (.handover 0 (2 ^ 32) 0 false : Instr).wellFormed = false
    ∧ (.handover 0 0 2048 false : Instr).wellFormed = false := by decide

theorem test_ill_formed_returnRef :
    (.returnRef 2048 0 0 false : Instr).wellFormed = false
    ∧ (.returnRef 0 256 0 false : Instr).wellFormed = false
    ∧ (.returnRef 0 0 (2 ^ 32) false : Instr).wellFormed = false := by decide

theorem test_ill_formed_poolOp :
    (.poolOp 0 0 0 0 0 0 false : Instr).wellFormed = false
    ∧ (.poolOp 0 0 4 0 0 0 false : Instr).wellFormed = false
    ∧ (.poolOp 0 0 1 (2 ^ 32) 0 0 false : Instr).wellFormed = false
    ∧ (.poolOp 0 0 1 0 2048 0 false : Instr).wellFormed = false
    ∧ (.poolOp 0 0 1 0 0 256 false : Instr).wellFormed = false := by decide

theorem test_ill_formed_freeCacheRefill :
    (.freeCacheRefill 0 256 0 none : Instr).wellFormed = false
    ∧ (.freeCacheRefill 0 0 2 none : Instr).wellFormed = false := by decide

theorem test_ill_formed_spScrub :
    (.spScrub 0 0 16 0 0 : Instr).wellFormed = false
    ∧ (.spScrub 0 0 0 4096 0 : Instr).wellFormed = false
    ∧ (.spScrub 0 0 0 0 3 : Instr).wellFormed = false := by decide

theorem test_ill_formed_hbmRequest :
    (.hbmRequest 0 6 false 0 1 [] false false false false 0 0 : Instr).wellFormed = false
    ∧ (.hbmRequest 0 0 false (2 ^ 35) 1 [] false false false false 0 0 : Instr).wellFormed = false
    ∧ (.hbmRequest 0 0 false 0 257 [] false false false false 0 0 : Instr).wellFormed = false
    ∧ (.hbmRequest 0 0 true 0 0 (List.replicate 257 0) false false false false 0 0 : Instr).wellFormed = false
    ∧ (.hbmRequest 0 0 false 0 1 [] false false false false 3 0 : Instr).wellFormed = false := by simp only [Instr.wellFormed, requestFits, addrFits, List.length_replicate]; decide

theorem test_ill_formed_hbmRowIdleClose :
    (.hbmRowIdleClose 0 32 0 : Instr).wellFormed = false
    ∧ (.hbmRowIdleClose 0 0 48 : Instr).wellFormed = false := by decide

theorem test_ill_formed_hbmRefreshDue :
    (.hbmRefreshDue 0 32 : Instr).wellFormed = false := by decide

theorem test_ill_formed_hbmCaParityError :
    (.hbmCaParityError 0 32 : Instr).wellFormed = false := by decide

theorem test_ill_formed_hbmScrub :
    (.hbmScrub 0 (2 ^ 35) 0 : Instr).wellFormed = false
    ∧ (.hbmScrub 0 0 3 : Instr).wellFormed = false := by decide

theorem test_ill_formed_hbmTempSample :
    (.hbmTempSample 0 256 false : Instr).wellFormed = false := by decide

theorem test_ill_formed_hbmRateWrite :
    (.hbmRateWrite 0 4 : Instr).wellFormed = false := by decide

theorem test_ill_formed_hbmOrderWrite :
    (.hbmOrderWrite 0 4 : Instr).wellFormed = false := by decide

theorem test_ill_formed_dataFlit :
    (.dataFlit 0 0 (2 ^ 128) [] [] [] : Instr).wellFormed = false
    ∧ (.dataFlit 0 0 0 [] [2 ^ 64] [] : Instr).wellFormed = false := by decide

theorem test_ill_formed_nak :
    (.nak 0 0 (2 ^ 128) 0 : Instr).wellFormed = false := by decide

theorem test_ill_formed_init :
    (.init 0 0 (2 ^ 128) [] : Instr).wellFormed = false := by decide

theorem test_ill_formed_idle :
    (.idle 0 0 (2 ^ 128) : Instr).wellFormed = false := by decide

theorem test_ill_formed_rd :
    (.rd 0 0 (2 ^ 48) 1 0 0 0 : Instr).wellFormed = false
    ∧ (.rd 0 0 0 0 0 0 0 : Instr).wellFormed = false
    ∧ (.rd 0 0 0 257 0 0 0 : Instr).wellFormed = false
    ∧ (.rd 0 0 0 1 (2 ^ 32) 0 0 : Instr).wellFormed = false
    ∧ (.rd 0 0 0 1 0 256 0 : Instr).wellFormed = false
    ∧ (.rd 0 0 0 1 0 0 4096 : Instr).wellFormed = false := by decide

theorem test_ill_formed_wr :
    (.wr 0 0 (2 ^ 48) 1 0 0 0 [0] : Instr).wellFormed = false
    ∧ (.wr 0 0 0 2 0 0 0 [0] : Instr).wellFormed = false := by decide

theorem test_ill_formed_amo :
    (.amo 0 0 false (2 ^ 48) 0 0 0 0 : Instr).wellFormed = false
    ∧ (.amo 0 0 false 0 0 0 0 (2 ^ 32) : Instr).wellFormed = false := by decide

theorem test_ill_formed_rdData :
    (.rdData 0 0 .ok 4096 [] : Instr).wellFormed = false
    ∧ (.rdData 0 0 .ok 0 (List.replicate 257 0) : Instr).wellFormed = false := by simp only [Instr.wellFormed, requestFits, addrFits, List.length_replicate]; decide

theorem test_ill_formed_wrAck :
    (.wrAck 0 0 .ok 4096 : Instr).wellFormed = false := by decide

theorem test_ill_formed_requestTimeout :
    (.requestTimeout 0 4096 : Instr).wellFormed = false := by decide

theorem test_ill_formed_targetBusy :
    (.targetBusy 0 0 4096 : Instr).wellFormed = false := by decide

theorem test_ill_formed_amoData :
    (.amoData 0 0 .ok 4096 0 : Instr).wellFormed = false
    ∧ (.amoData 0 0 .ok 0 (2 ^ 32) : Instr).wellFormed = false := by decide

theorem test_ill_formed_irq :
    (.irq 0 0 8192 1 0 : Instr).wellFormed = false
    ∧ (.irq 0 0 0 256 0 : Instr).wellFormed = false
    ∧ (.irq 0 0 0 1 256 : Instr).wellFormed = false := by decide

theorem test_ill_formed_hitNotice :
    (.hitNotice 0 0 256 0 0 : Instr).wellFormed = false
    ∧ (.hitNotice 0 0 0 (2 ^ 32) 0 : Instr).wellFormed = false
    ∧ (.hitNotice 0 0 0 0 4096 : Instr).wellFormed = false := by decide

theorem test_ill_formed_errReport :
    (.errReport 0 0 65536 [] : Instr).wellFormed = false
    ∧ (.errReport 0 0 0 (List.replicate 17 0) : Instr).wellFormed = false := by simp only [Instr.wellFormed, requestFits, addrFits, List.length_replicate]; decide

theorem test_ill_formed_mgtMsg :
    (.mgtMsg 0 0 65536 [] : Instr).wellFormed = false
    ∧ (.mgtMsg 0 0 0 (List.replicate 257 0) : Instr).wellFormed = false := by simp only [Instr.wellFormed, requestFits, addrFits, List.length_replicate]; decide

theorem test_ill_formed_bar2Access :
    (.bar2Access 0 (2 ^ 30) false 4 [] : Instr).wellFormed = false
    ∧ (.bar2Access 0 0 false 4097 [] : Instr).wellFormed = false
    ∧ (.bar2Access 0 0 true 0 (List.replicate 4097 0) : Instr).wellFormed = false := by simp only [Instr.wellFormed, requestFits, addrFits, List.length_replicate]; decide

theorem test_ill_formed_registerPairLoRead :
    (.registerPairLoRead 1 : Instr).wellFormed = false := by decide

theorem test_ill_formed_registerPairHiWrite :
    (.registerPairHiWrite 2 0 : Instr).wellFormed = false := by decide

theorem test_ill_formed_registerWrite :
    (.registerWrite 3 0 : Instr).wellFormed = false := by decide

theorem test_ill_formed_write :
    (.write (2 ^ 32) [] : Instr).wellFormed = false
    ∧ (.write 0 (List.replicate 257 0) : Instr).wellFormed = false := by simp only [Instr.wellFormed, requestFits, addrFits, List.length_replicate]; decide

theorem test_ill_formed_read :
    (.read (2 ^ 32) 1 : Instr).wellFormed = false := by decide

theorem test_ill_formed_loaderHandover :
    (.loaderHandover 256 0 0 : Instr).wellFormed = false
    ∧ (.loaderHandover 0 256 0 : Instr).wellFormed = false := by decide

theorem test_ill_formed_thermSample :
    (.thermSample [] : Instr).wellFormed = false := by decide

theorem test_ill_formed_endpointLinkUp :
    (.endpointLinkUp 0 8 16 : Instr).wellFormed = false
    ∧ (.endpointLinkUp 0 1 17 : Instr).wellFormed = false := by decide

theorem test_ill_formed_snapshotReport :
    (.snapshotReport 0 (2 ^ 48) : Instr).wellFormed = false := by decide

theorem test_ill_formed_linkTrainingDone :
    (.linkTrainingDone 0 0 8 0 : Instr).wellFormed = false := by decide

theorem test_ill_formed_frameReceive_length (f : List Byte) (h : f.length = 16385) :
    (.frameReceive 0 0 f true false 0 0 0 0 : Instr).wellFormed = false := by
  simp [Instr.wellFormed, h]

/-! ### States that the obligations are about -/

/-- A state in which SYS_RST_N resets the part. -/
theorem test_ResetsOfThePartRestartIt_1 : ∃ s : State, ¬ (s.dev.chip.cause = 1 ∧ s.dev.chip.phase ≠ 0) :=
  ⟨at_ { d0 with chip := { d0.chip with phase := 0 } }, by decide⟩

/-- A key that is wrong. -/
theorem test_ResetsOfThePartRestartIt_2 : ∃ key : Fin 256, key ≠ 0xA2 := ⟨0xA3, by decide⟩

/-- States and operands that clause 1 of CompatIsWrittenInLoadAlone is about. -/
theorem test_CompatIsWrittenInLoadAlone_1 : ∃ (value : Word) (s : State), s.dev.mode = .load :=
  ⟨1#32, at_ d0, by decide +kernel⟩

/-- States and operands that clause 2 of CompatIsWrittenInLoadAlone is about. -/
theorem test_CompatIsWrittenInLoadAlone_2 : ∃ (value : Word) (s : State), s.dev.mode ≠ .load :=
  ⟨1#32, at_ (d0.setFld (CHP_MODE_STAT_effective 0) 2), by decide +kernel⟩

/-- States and operands that clause 1 of ModeRequestsByRegister is about. -/
theorem test_ModeRequestsByRegister_1 : ∃ (value : Word) (s : State), bitOf value.toNat 31 = true ∧ bitOf value.toNat 30 = false ∧ value.toNat % 8 = 1 ∧ s.dev.mode = .test ∧ s.dev.anchorSt.modeChange = none :=
  ⟨0x80000001#32, at_ (d0.setFld (CHP_MODE_STAT_effective 0) 7), by decide +kernel⟩

/-- States and operands that clause 2 of ModeRequestsByRegister is about. -/
theorem test_ModeRequestsByRegister_2 : ∃ (value : Word) (s : State), bitOf value.toNat 31 = true ∧ value.toNat % 8 = 0 :=
  ⟨0x80000000#32, at_ d0, by decide +kernel⟩

/-- States and operands that clause 1 of PtpTimeIsLoadedAndMoved is about. -/
theorem test_PtpTimeIsLoadedAndMoved_1 : ∃ (s : State), 2 ≤ Dev.ticksAhead (s.dev.pair (CHP_PTP_BASE_LO s.dev.A) (CHP_PTP_BASE_HI s.dev.A) % 2 ^ 48) s.dev.tick ∧ Dev.ticksAhead (s.dev.pair (CHP_PTP_BASE_LO s.dev.A) (CHP_PTP_BASE_HI s.dev.A) % 2 ^ 48) s.dev.tick < 2 ^ 47 :=
  ⟨at_ (d0.setReg (CHP_PTP_BASE_LO 0) 2), by decide +kernel⟩

/-- States and operands that clause 2 of PtpTimeIsLoadedAndMoved is about. -/
theorem test_PtpTimeIsLoadedAndMoved_2 : ∃ (s : State), Dev.ticksAhead (s.dev.pair (CHP_PTP_BASE_LO s.dev.A) (CHP_PTP_BASE_HI s.dev.A) % 2 ^ 48) s.dev.tick < 2 :=
  ⟨at_ (d0.setReg (CHP_PTP_BASE_LO 0) 1), by decide +kernel⟩

/-- States and operands that clause 3 of PtpTimeIsLoadedAndMoved is about. -/
theorem test_PtpTimeIsLoadedAndMoved_3 : ∃ (value : Word) (s : State), value.toInt.natAbs ≤ 50000 :=
  ⟨50000#32, at_ d0, by decide +kernel⟩

/-- States and operands that clause 4 of PtpTimeIsLoadedAndMoved is about. -/
theorem test_PtpTimeIsLoadedAndMoved_4 : ∃ (value : Word) (s : State), 50000 < value.toInt.natAbs :=
  ⟨50001#32, at_ d0, by decide +kernel⟩

/-- States and operands that clause 1 of PpsEdgesAndTheirLoss is about. -/
theorem test_PpsEdgesAndTheirLoss_1 : ∃ (gap : Nat) (phase : Int) (s : State), s.dev.anchorSt.ppsSeen = true ∧ (gap + 10 ^ 6 < 10 ^ 12 ∨ 10 ^ 12 + 10 ^ 6 < gap) :=
  ⟨999998999999, 0, at_ (d0.modA fun a => { a with ppsSeen := true }), by decide +kernel⟩

/-- States and operands that clause 2 of PpsEdgesAndTheirLoss is about. -/
theorem test_PpsEdgesAndTheirLoss_2 : ∃ (gap : Nat) (phase : Int) (s : State), (s.dev.anchorSt.ppsSeen = false ∨ (10 ^ 12 ≤ gap + 10 ^ 6 ∧ gap ≤ 10 ^ 12 + 10 ^ 6)) ∧ 0 ≤ phase ∧ s.dev.on (CHP_SHUTTER_CTL_ptp_lock s.dev.A) = true ∧ s.dev.on (CHP_SHUTTER_STAT_locked s.dev.A) = true :=
  ⟨10 ^ 12 + 10 ^ 6, 0, at_ ((d0.setOn (CHP_SHUTTER_CTL_ptp_lock 0)).setOn (CHP_SHUTTER_STAT_locked 0)), by decide +kernel⟩

/-- States and operands that clause 3 of PpsEdgesAndTheirLoss is about. -/
theorem test_PpsEdgesAndTheirLoss_3 : ∃ (s : State), s.dev.on (CHP_SHUTTER_STAT_locked s.dev.A) = true :=
  ⟨at_ (d0.setOn (CHP_SHUTTER_STAT_locked 0)), by decide +kernel⟩

/-- States and operands that clause 1 of PortsTakeTheirRequestedState is about. -/
theorem test_PortsTakeTheirRequestedState_1 : ∃ (r : Region) (p : Port) (s : State), (∀ q < 8, q ≠ p.val → s.dev.on (RGN_PORT_CFG_enable r.val q) = true → p.val + s.dev.fld (RGN_PORT_CFG_lanes r.val p.val) ≤ q ∨ q + s.dev.fld (RGN_PORT_CFG_lanes r.val q) ≤ p.val) :=
  ⟨7, 7, at_ d0, by decide +kernel⟩

/-- States and operands that clause 2 of PortsTakeTheirRequestedState is about. -/
theorem test_PortsTakeTheirRequestedState_2 : ∃ (r : Region) (p : Port) (q : Nat) (s : State), q < 8 ∧ q ≠ p.val ∧ s.dev.on (RGN_PORT_CFG_enable r.val q) = true ∧ q < p.val + s.dev.fld (RGN_PORT_CFG_lanes r.val p.val) ∧ p.val < q + s.dev.fld (RGN_PORT_CFG_lanes r.val q) :=
  ⟨3, 4, 5, at_ ((d0.setFld (RGN_PORT_CFG_lanes 3 4) 2).setOn (RGN_PORT_CFG_enable 3 5)), by decide +kernel⟩

/-- States and operands that clause 1 of ResetEndsAndFusesLoad is about. -/
theorem test_ResetEndsAndFusesLoad_1 : ∃ (s : State), s.dev.chip.phase = 1 :=
  ⟨at_ { d0 with chip := { d0.chip with phase := 1 } }, by decide +kernel⟩

/-- States and operands that clause 2 of ResetEndsAndFusesLoad is about. -/
theorem test_ResetEndsAndFusesLoad_2 : ∃ (straps : Word) (s : State), s.dev.chip.phase = 2 :=
  ⟨0x777#32, at_ d0, by decide +kernel⟩

/-- States and operands that clause 3 of ResetEndsAndFusesLoad is about. -/
theorem test_ResetEndsAndFusesLoad_3 : ∃ (s : State), s.dev.chip.phase = 0 ∧ s.dev.loader = 1 ∧ s.dev.mladus (s.dev.fld (CHP_STRAPS_anchor_sel 0)) = true :=
  ⟨at_ ({ d0 with chip := { d0.chip with phase := 0 } }.setLoader 1), by decide +kernel⟩

/-- States and operands that clause 4 of ResetEndsAndFusesLoad is about. -/
theorem test_ResetEndsAndFusesLoad_4 : ∃ (s : State), s.dev.chip.phase = 0 ∧ s.dev.loader = 1 :=
  ⟨at_ ({ d0 with chip := { d0.chip with phase := 0 } }.setLoader 1), by decide +kernel⟩

/-- States and operands that clause 1 of TheLoaderTakesItsImage is about. -/
theorem test_TheLoaderTakesItsImage_1 : ∃ (ep : Endpoint) (s : State), s.dev.present (Dev.epPos ep) = true ∧ s.dev.on (CHP_STRAPS_boot_src s.dev.A) = false ∧ (s.dev.loader = 2 ∨ s.dev.loader = 0xE) :=
  ⟨0, at_ (d0.setLoader 2), by decide +kernel⟩

/-- States and operands that clause 2 of TheLoaderTakesItsImage is about. -/
theorem test_TheLoaderTakesItsImage_2 : ∃ (ep : Endpoint) (s : State), s.dev.on (CHP_STRAPS_boot_src s.dev.A) = true :=
  ⟨0, at_ ((d0.setOn (CHP_STRAPS_boot_src 0)).setLoader 2), by decide +kernel⟩

/-- States and operands that clause 3 of TheLoaderTakesItsImage is about. -/
theorem test_TheLoaderTakesItsImage_3 : ∃ (s : State), s.dev.mode = .load ∧ s.dev.on (CHP_STRAPS_boot_src s.dev.A) = true ∧ s.dev.lifeCycle ≠ 5 ∧ (s.dev.loader = 2 ∨ s.dev.loader = 0xE) :=
  ⟨at_ ((d0.setOn (CHP_STRAPS_boot_src 0)).setLoader 2), by decide +kernel⟩

/-- States and operands that clause 4 of TheLoaderTakesItsImage is about. -/
theorem test_TheLoaderTakesItsImage_4 : ∃ (s : State), s.dev.on (CHP_STRAPS_boot_src s.dev.A) = false :=
  ⟨at_ d0, by decide +kernel⟩

/-- States and operands that clause 5 of TheLoaderTakesItsImage is about. -/
theorem test_TheLoaderTakesItsImage_5 : ∃ (s : State), s.dev.loader = 3 :=
  ⟨at_ (d0.setLoader 3), by decide +kernel⟩

/-- States and operands that clause 6 of TheLoaderTakesItsImage is about. -/
theorem test_TheLoaderTakesItsImage_6 : ∃ (s : State), s.dev.loader = 0xE :=
  ⟨at_ (d0.setLoader 0xE), by decide +kernel⟩

/-- States and operands that clause 7 of TheLoaderTakesItsImage is about. -/
theorem test_TheLoaderTakesItsImage_7 : ∃ (addr : Nat) (data : List Byte) (s : State), s.dev.spiLoads = true ∧ s.dev.imageOpen = true ∧ addr < 0x2000000 :=
  ⟨0x1FFFFFF, [1, 2], at_ ((d0.setOn (CHP_STRAPS_boot_src 0)).setLoader 2), by decide +kernel⟩

/-- States and operands that clause 8 of TheLoaderTakesItsImage is about. -/
theorem test_TheLoaderTakesItsImage_8 : ∃ (addr len : Nat) (s : State), s.dev.spiLoads = true ∧ addr + len ≤ 0x2000000 :=
  ⟨0x1FFFFFF, 1, at_ ((d0.setOn (CHP_STRAPS_boot_src 0)).setLoader 2), by decide +kernel⟩

/-- States and operands that clause 1 of TheImageIsAuthenticatedAndHandedOver is about. -/
theorem test_TheImageIsAuthenticatedAndHandedOver_1 : ∃ (s : State), s.dev.loader = 3 :=
  ⟨at_ (d0.setLoader 3), by decide +kernel⟩

/-- States and operands that clause 2 of TheImageIsAuthenticatedAndHandedOver is about. -/
theorem test_TheImageIsAuthenticatedAndHandedOver_2 : ∃ (bootMs : Nat) (s : State), (s.dev.loader = 4 ∨ s.dev.loader = 5) :=
  ⟨65536, at_ (d0.setLoader 5), by decide +kernel⟩

/-- States and operands that clause 3 of TheImageIsAuthenticatedAndHandedOver is about. -/
theorem test_TheImageIsAuthenticatedAndHandedOver_3 : ∃ (bist training bootMs : Nat) (s : State), (s.dev.loader = 4 ∨ s.dev.loader = 5) ∧ bitOf bist s.dev.A = true :=
  ⟨1, 0, 0, at_ (d0.setLoader 5), by decide +kernel⟩

/-- States and operands that clause 4 of TheImageIsAuthenticatedAndHandedOver is about. -/
theorem test_TheImageIsAuthenticatedAndHandedOver_4 : ∃ (v : Nat) (s : State), s.dev.chip.advance = some v ∧ v < 5 :=
  ⟨4, at_ { d0 with chip := { d0.chip with advance := some 4 } }, by decide +kernel⟩

/-- States and operands that clause 1 of SensorsAreSampled is about. -/
theorem test_SensorsAreSampled_1 : ∃ (r : Region) (sensors : Fin 16) (s : State), s.dev.mladus r.val = true ∧ sensors.val ≠ 0 ∧ s.dev.chip.phase = 0 ∧ sensors.val &&& s.dev.fld (CHP_TAMPER_CTL_reset s.dev.A) = 0 :=
  ⟨7, 15, at_ ({ d0 with chip := { d0.chip with phase := 0 } }.setFld (CHP_TAMPER_CTL_reset 0) 0), by decide +kernel⟩

/-- States and operands that clause 2 of SensorsAreSampled is about. -/
theorem test_SensorsAreSampled_2 : ∃ (r : Region) (sensors : Fin 16) (s : State), s.dev.mladus r.val = true ∧ s.dev.chip.phase = 0 ∧ sensors.val &&& s.dev.fld (CHP_TAMPER_CTL_reset s.dev.A) ≠ 0 :=
  ⟨7, 8, at_ ({ d0 with chip := { d0.chip with phase := 0 } }.setFld (CHP_TAMPER_CTL_reset 0) 8), by decide +kernel⟩

/-- States and operands that clause 3 of SensorsAreSampled is about. -/
theorem test_SensorsAreSampled_3 : ∃ (temps : List Int) (t : Int) (s : State), s.dev.chip.phase = 0 ∧ (∀ r : Region, temps.getD r.val 0 = t) ∧ s.dev.mladusRegions ≠ [] ∧ s.dev.gradeBottom ≤ t ∧ t < s.dev.gradeTop :=
  ⟨List.replicate 8 0, 0, at_ { d0 with chip := { d0.chip with phase := 0 } }, by decide +kernel⟩

/-- States and operands that clause 4 of SensorsAreSampled is about. -/
theorem test_SensorsAreSampled_4 : ∃ (temps : List Int) (t : Int) (s : State), s.dev.chip.phase = 0 ∧ (∀ r : Region, temps.getD r.val 0 = t) ∧ s.dev.mladusRegions ≠ [] ∧ s.dev.gradeTop + 120 ≤ t :=
  ⟨List.replicate 8 960, 960, at_ { d0 with chip := { d0.chip with phase := 0 } }, by decide +kernel⟩

/-- States and operands that clause 1 of DivisionOutsideItsRangesIsRejected is about. -/
theorem test_DivisionOutsideItsRangesIsRejected_1 : ∃ (r : Region) (pane : Fin 2) (value : Word) (s : State), ¬ (1 ≤ fieldOf value 0 4 ∧ fieldOf value 0 4 ≤ 8 ∧ fieldOf value 8 7 ≤ 93 ∧ 1 ≤ fieldOf value 15 5 ∧ fieldOf value 15 5 ≤ 16 ∧ fieldOf value 20 6 ≤ 32 ∧ 1 + fieldOf value 0 4 + fieldOf value 8 7 + fieldOf value 15 5 + fieldOf value 20 6 ≤ 96) :=
  ⟨7, 1, 0x00108109#32, at_ d0, by decide +kernel⟩

/-- States and operands that clause 1 of PanesAreDividedOpenedAndClosed is about. -/
theorem test_PanesAreDividedOpenedAndClosed_1 : ∃ (r : Region) (pane : Fin 2) (value : Word) (s : State), 1 ≤ fieldOf value 0 4 ∧ fieldOf value 0 4 ≤ 8 ∧ fieldOf value 8 7 ≤ 93 ∧ 1 ≤ fieldOf value 15 5 ∧ fieldOf value 15 5 ≤ 16 ∧ fieldOf value 20 6 ≤ 32 ∧ 1 + fieldOf value 0 4 + fieldOf value 8 7 + fieldOf value 15 5 + fieldOf value 20 6 ≤ 96 ∧ (s.dev.g r).mode = .configure ∧ (s.dev.g r).front.session ≠ some pane.val ∧ pane.val ∉ (s.dev.g r).front.codeBusy :=
  ⟨7, 1, 0x02080108#32, at_ (d0.modR 7 fun g => { g with mode := .configure }), by decide +kernel⟩

/-- States and operands that clause 2 of PanesAreDividedOpenedAndClosed is about. -/
theorem test_PanesAreDividedOpenedAndClosed_2 : ∃ (r : Region) (pane : Fin 2) (s : State), (s.dev.g r).front.session = none ∧ (s.dev.g r).front.codeBusy = [] ∧ s.dev.paneWritable r pane.val = true ∧ s.dev.anchorSt.swapAt = none :=
  ⟨7, 1, at_ (d0.modR 7 fun g => { g with mode := .configure }), by decide +kernel⟩

/-- States and operands that clause 3 of PanesAreDividedOpenedAndClosed is about. -/
theorem test_PanesAreDividedOpenedAndClosed_3 : ∃ (r : Region) (pane : Nat) (s : State), (s.dev.g r).front.session = some pane ∧ s.dev.prickFails r.val pane = none ∧ s.dev.storeFails r.val pane = none :=
  ⟨7, 0, at_ ((d0.modFront 7 fun f => { f with session := some 0 }).setLE (prickBase 7 0 + 0x2000) 4 0x08000000), by decide +kernel⟩

/-- States and operands that clause 4 of PanesAreDividedOpenedAndClosed is about. -/
theorem test_PanesAreDividedOpenedAndClosed_4 : ∃ (r : Region) (pane kind i : Nat) (s : State), (s.dev.g r).front.session = some pane ∧ s.dev.prickFails r.val pane = some (kind, i) ∧ kind < 4 ∧ i < 2048 :=
  ⟨7, 0, 2, 0, at_ (d0.modFront 7 fun f => { f with session := some 0 }), by decide +kernel⟩

/-- States and operands that clause 5 of PanesAreDividedOpenedAndClosed is about. -/
theorem test_PanesAreDividedOpenedAndClosed_5 : ∃ (r : Region) (s : State), (s.dev.g r).front.session = none :=
  ⟨7, at_ d0, by decide +kernel⟩

/-- States and operands that clause 1 of PaneWindowsAndSwaps is about. -/
theorem test_PaneWindowsAndSwaps_1 : ∃ (r : Region) (pane : Fin 2) (off : Nat) (data : List Byte) (s : State), (s.dev.g r).front.session = some pane.val ∧ s.dev.paneWritable r pane.val = true ∧ 0x1000 * (1 + s.dev.ruleUnits r.val pane.val + s.dev.asetUnits r.val pane.val) ≤ off ∧ off + data.length ≤ 0x1000 * (1 + s.dev.ruleUnits r.val pane.val + s.dev.asetUnits r.val pane.val + s.dev.tmplUnits r.val pane.val) :=
  ⟨7, 1, 0x2FFF, [7], at_ (((d0.modR 7 fun g => { g with mode := .configure }).modFront 7 fun f => { f with session := some 1 }).setReg (RGN_CLS_DIV1 7) 0x00108001), by decide +kernel⟩

/-- States and operands that clause 2 of PaneWindowsAndSwaps is about. -/
theorem test_PaneWindowsAndSwaps_2 : ∃ (r : Region) (pane : Fin 2) (off : Nat) (data : List Byte) (s : State), data ≠ [] ∧ 0x1000 * (1 + s.dev.ruleUnits r.val pane.val + s.dev.asetUnits r.val pane.val + s.dev.tmplUnits r.val pane.val) < off + data.length :=
  ⟨7, 1, 0x2FFF, [7, 8], at_ (d0.setReg (RGN_CLS_DIV1 7) 0x00108001), by decide +kernel⟩

/-- States and operands that clause 3 of PaneWindowsAndSwaps is about. -/
theorem test_PaneWindowsAndSwaps_3 : ∃ (r : Region) (pane : Fin 2) (s : State), pane.val ∈ (s.dev.g r).front.codeBusy :=
  ⟨7, 1, at_ (d0.modFront 7 fun f => { f with codeBusy := [1] }), by decide +kernel⟩

/-- States and operands that clause 4 of PaneWindowsAndSwaps is about. -/
theorem test_PaneWindowsAndSwaps_4 : ∃ (s : State), s.dev.swapCause (s.dev.pair (CHP_PANE_AT_LO s.dev.A) (CHP_PANE_AT_HI s.dev.A)) (s.dev.reg (CHP_PANE_CODE s.dev.A)) = 0 :=
  ⟨at_ ((d0.setFld (CHP_MODE_STAT_effective 0) 2).setReg (CHP_PANE_AT_LO 0) 3), by decide +kernel⟩

/-- States and operands that clause 5 of PaneWindowsAndSwaps is about. -/
theorem test_PaneWindowsAndSwaps_5 : ∃ (s : State), s.dev.mode ≠ .load ∧ s.dev.anchorSt.modeChange = none ∧ s.dev.anchorSt.swapAt ≠ none :=
  ⟨at_ ((d0.setFld (CHP_MODE_STAT_effective 0) 2).modA fun a => { a with swapAt := some 5 }), by decide +kernel⟩

/-- States and operands that clause 1 of InterruptSourcesAreSetClearedAndClaimed is about. -/
theorem test_InterruptSourcesAreSetClearedAndClaimed_1 : ∃ (r : Region) (w i : Fin 32) (s : State), sourceListed (w.val * 32 + i.val) = true ∧ w.val * 32 + i.val ∉ [0x70, 0x75, 0x76] ∧ s.dev.irqEnabled r.val (w.val * 32 + i.val) = false ∧ s.dev.irqCount r.val (w.val * 32 + i.val) < 255 :=
  ⟨7, 31, 24, at_ (d0.setFld (RGN_IRQ_SRC_count 7 1016) 254), by decide +kernel⟩

/-- States and operands that clause 2 of InterruptSourcesAreSetClearedAndClaimed is about. -/
theorem test_InterruptSourcesAreSetClearedAndClaimed_2 : ∃ (r : Region) (s : State), s.dev.claims r 0x80 = [] :=
  ⟨7, at_ d0, by decide +kernel⟩

/-- States and operands that clause 3 of InterruptSourcesAreSetClearedAndClaimed is about. -/
theorem test_InterruptSourcesAreSetClearedAndClaimed_3 : ∃ (r : Region) (n : Nat) (s : State), n ∈ s.dev.claimable r.val 0x80 ∧ n ∉ [0x70, 0x75, 0x76] ∧ (∀ c ∈ s.dev.claims r 0x80, s.dev.fld (RGN_IRQ_SRC_prio r.val n) < c.1 ∨ s.dev.fld (RGN_IRQ_SRC_prio r.val n) = c.1 ∧ r.val * 1024 + n ≤ c.2.1) :=
  ⟨7, 0x3F8, at_ (((d0.setFld (RGN_IRQ_SRC_count 7 0x3F8) 3).setFld (RGN_IRQ_SRC_target 7 0x3F8) 0x80).setReg (RGN_IRQ_EN 7 31) 0x01000000), by decide +kernel⟩

/-- States and operands that clause 4 of InterruptSourcesAreSetClearedAndClaimed is about. -/
theorem test_InterruptSourcesAreSetClearedAndClaimed_4 : ∃ (r : Region) (n : Fin 1024) (value : Word) (s : State), bitsOf value.toNat 15 8 ≤ 0x83 ∧ (bitsOf value.toNat 19 16 = 0xF ∨ (bitsOf value.toNat 19 16 < 8 ∧ s.dev.mladus (bitsOf value.toNat 19 16) = true)) :=
  ⟨7, 1023, 0x00078300#32, at_ d0, by decide +kernel⟩

/-- States and operands that clause 5 of InterruptSourcesAreSetClearedAndClaimed is about. -/
theorem test_InterruptSourcesAreSetClearedAndClaimed_5 : ∃ (r : Region) (n : Fin 1024) (value : Word) (s : State), 0x83 < bitsOf value.toNat 15 8 :=
  ⟨7, 1023, 0x00078400#32, at_ d0, by decide +kernel⟩

/-- States and operands that clause 1 of InterruptMessagesReachTheInbox is about. -/
theorem test_InterruptMessagesReachTheInbox_1 : ∃ (r src : Region) (source count target : Nat) (s : State), s.dev.inTurn src.val r.val (.irq source count target) = true ∧ 0 < count ∧ count ≤ 255 ∧ source < 8192 ∧ target ≤ 0x80 ∧ (s.dev.g r).inbox.length < 64 ∧ (∀ x ∈ (s.dev.g r).inbox, ¬ (x.source = source ∧ x.target = target)) :=
  ⟨7, 0, 8191, 255, 0x80, at_ d0, by decide +kernel⟩

/-- States and operands that clause 2 of InterruptMessagesReachTheInbox is about. -/
theorem test_InterruptMessagesReachTheInbox_2 : ∃ (r src : Region) (source count target : Nat) (s : State), s.dev.inTurn src.val r.val (.irq source count target) = true ∧ 0 < count ∧ count ≤ 255 ∧ source < 8192 ∧ target ≤ 0x80 ∧ (∃ x ∈ (s.dev.g r).inbox, x.source = source ∧ x.target = target) :=
  ⟨7, 0, 8191, 255, 0x80, at_ (d0.modR 7 fun g => { g with inbox := [⟨8191, 1, 0x80⟩] }), by decide +kernel⟩

/-- States and operands that clause 3 of InterruptMessagesReachTheInbox is about. -/
theorem test_InterruptMessagesReachTheInbox_3 : ∃ (r src : Region) (source count target : Nat) (s : State), s.dev.inTurn src.val r.val (.irq source count target) = true ∧ 0 < count ∧ count ≤ 255 ∧ source < 8192 ∧ target ≤ 0x80 ∧ 64 ≤ (s.dev.g r).inbox.length ∧ (∀ x ∈ (s.dev.g r).inbox, ¬ (x.source = source ∧ x.target = target)) :=
  ⟨7, 0, 8191, 1, 0x80, at_ (d0.modR 7 fun g => { g with inbox := List.replicate 64 ⟨1, 1, 0⟩ }), by decide +kernel⟩

/-- States and operands that clause 4 of InterruptMessagesReachTheInbox is about. -/
theorem test_InterruptMessagesReachTheInbox_4 : ∃ (src : Region) (source count : Nat) (s : State), s.dev.inTurn src.val (0 : Region).val (.irq source count 0x82) = true ∧ 0 < count ∧ count ≤ 255 ∧ source < 8192 ∧ s.dev.on (RGN_IRQ_HVEC_valid 0 source) = true :=
  ⟨4, 8191, 255, at_ (d0.setOn (RGN_IRQ_HVEC_valid 0 8191)), by decide +kernel⟩

/-- States and operands that clause 5 of InterruptMessagesReachTheInbox is about. -/
theorem test_InterruptMessagesReachTheInbox_5 : ∃ (r src : Region) (source target : Nat) (s : State), s.dev.inTurn src.val r.val (.irq source 0 target) = true :=
  ⟨7, 0, 8191, 0x80, at_ d0, by decide +kernel⟩

/-- States and operands that clause 1 of SnapshotsAreArmedAndReported is about. -/
theorem test_SnapshotsAreArmedAndReported_1 : ∃ (s : State), 2 ≤ Dev.ticksAhead s.dev.snapNamed s.dev.tick ∧ Dev.ticksAhead s.dev.snapNamed s.dev.tick < 2 ^ 47 :=
  ⟨at_ (d0.setReg (CHP_MON_SNAP_AT_LO 0) 2), by decide +kernel⟩

/-- States and operands that clause 2 of SnapshotsAreArmedAndReported is about. -/
theorem test_SnapshotsAreArmedAndReported_2 : ∃ (s : State), Dev.ticksAhead s.dev.snapNamed s.dev.tick < 2 :=
  ⟨at_ (d0.setReg (CHP_MON_SNAP_AT_LO 0) 1), by decide +kernel⟩

/-- States and operands that clause 3 of SnapshotsAreArmedAndReported is about. -/
theorem test_SnapshotsAreArmedAndReported_3 : ∃ (src q : Region) (tick : Nat) (s : State), s.dev.inTurn src.val s.dev.A (.snapshot tick) = true ∧ src.val ∈ s.dev.anchorSt.snapWaits ∧ q ∈ s.dev.mladusRegions ∧ q ≠ src ∧ bitOf (s.dev.fld (CHP_MON_SNAP_STAT_taken s.dev.A)) q.val = false :=
  ⟨7, 0, 2 ^ 48 - 1, at_ (d0.modA fun a => { a with snapWaits := [7] }), by decide +kernel⟩

/-- States and operands that clause 4 of SnapshotsAreArmedAndReported is about. -/
theorem test_SnapshotsAreArmedAndReported_4 : ∃ (src : Region) (tick : Nat) (s : State), s.dev.inTurn src.val s.dev.A (.snapshot tick) = true ∧ src.val ∉ s.dev.anchorSt.snapWaits :=
  ⟨7, 0, at_ d0, by decide +kernel⟩

/-- States and operands that clause 1 of FrontEndsAreEnabledWhileOpen is about. -/
theorem test_FrontEndsAreEnabledWhileOpen_1 : ∃ (r : Region) (value : Word) (s : State), s.dev.mladus r.val = true ∧ ((s.dev.g r).mode = .configure ∨ (s.dev.g r).mode = .test) ∧ value.toNat % 16 ≠ 0 :=
  ⟨7, 8#32, at_ (d0.modR 7 fun g => { g with mode := .test }), by decide +kernel⟩

/-- States and operands that clause 2 of FrontEndsAreEnabledWhileOpen is about. -/
theorem test_FrontEndsAreEnabledWhileOpen_2 : ∃ (r : Region) (value : Word) (s : State), s.dev.mladus r.val = true ∧ (¬ ((s.dev.g r).mode = .configure ∨ (s.dev.g r).mode = .test) ∨ value.toNat % 16 = 0) :=
  ⟨7, 8#32, at_ d0, by decide +kernel⟩

/-- States and operands that clause 1 of RegisterPairsAndFlags is about. -/
theorem test_RegisterPairsAndFlags_1 : ∃ (value w : Word) (s : State), (s.dev.pairBuf (CHP_PANE_AT_LO s.dev.A)).lo = some w :=
  ⟨0xFFFF#32, 5#32, at_ (d0.modPair (CHP_PANE_AT_LO 0) fun b => { b with lo := some 5 }), by decide +kernel⟩

/-- States and operands that clause 1 of ShuttersAdvanceTheTick is about. -/
theorem test_ShuttersAdvanceTheTick_1 : ∃ (r : Region) (s : State), s.dev.chip.phase = 0 ∧ s.dev.mladus r.val = true ∧ s.dev.fenced r.val = false ∧ s.dev.takesOver r = false ∧ (∀ q, (s.dev.g q).commit.fenceDue = 0) ∧ s.dev.anchorSt.rejoin = none ∧ (s.dev.g r).commit.started = true :=
  ⟨7, at_ ({ d0 with chip := { d0.chip with phase := 0 } }.modR 7 fun g => { g with tick := 2 ^ 48 - 1, commit := { g.commit with started := true } }), by decide +kernel⟩

/-- States and operands that clause 2 of ShuttersAdvanceTheTick is about. -/
theorem test_ShuttersAdvanceTheTick_2 : ∃ (r : Region) (s : State), s.dev.chip.phase = 0 ∧ s.dev.mladus r.val = true ∧ s.dev.fenced r.val = false ∧ s.dev.takesOver r = false ∧ (∀ q, (s.dev.g q).commit.fenceDue = 0) ∧ s.dev.anchorSt.rejoin = none ∧ (s.dev.g r).commit.started = false :=
  ⟨7, at_ { d0 with chip := { d0.chip with phase := 0 } }, by decide +kernel⟩

/-- States and operands that clause 1 of MarkersMembersAndEchoesAreTaken is about. -/
theorem test_MarkersMembersAndEchoesAreTaken_1 : ∃ (r src : Region) (tick hops residence anchor : Nat) (m : Fin 6) (arrival off : Int) (s : State), s.dev.mladus r.val = true ∧ s.dev.fenced r.val = false ∧ m.val = s.dev.fld (RGN_SHUTTER_STAT_parent r.val) ∧ off = residence + s.dev.fld (RGN_CF_DELAY_delay r.val m.val) - arrival ∧ off.natAbs ≤ 4000 ∧ tick = (s.dev.g r).tick :=
  ⟨7, 3, 0, 0, 0, 0, ⟨d0.fld (RGN_SHUTTER_STAT_parent 7) % 6, by omega⟩, 4000, -4000, at_ d0, by decide +kernel⟩

/-- States and operands that clause 2 of MarkersMembersAndEchoesAreTaken is about. -/
theorem test_MarkersMembersAndEchoesAreTaken_2 : ∃ (r src : Region) (tick hops residence anchor : Nat) (m : Fin 6) (arrival : Int) (s : State), s.dev.mladus r.val = true ∧ m.val ≠ s.dev.fld (RGN_SHUTTER_STAT_parent r.val) :=
  ⟨7, 3, 0, 0, 0, 0, ⟨(d0.fld (RGN_SHUTTER_STAT_parent 7) + 1) % 6, by omega⟩, 0, at_ d0, by decide +kernel⟩

/-- States and operands that clause 3 of MarkersMembersAndEchoesAreTaken is about. -/
theorem test_MarkersMembersAndEchoesAreTaken_3 : ∃ (r src : Region) (tick hops residence anchor : Nat) (m : Fin 6) (arrival : Int) (s : State), s.dev.mladus r.val = true ∧ s.dev.fenced r.val = false ∧ m.val = s.dev.fld (RGN_SHUTTER_STAT_parent r.val) ∧ tick ≠ (s.dev.g r).tick ∧ (s.dev.g r).commit.fenceDue = 0 :=
  ⟨7, 3, 1, 0, 0, 0, ⟨d0.fld (RGN_SHUTTER_STAT_parent 7) % 6, by omega⟩, 0, at_ d0, by decide +kernel⟩

/-- States and operands that clause 4 of MarkersMembersAndEchoesAreTaken is about. -/
theorem test_MarkersMembersAndEchoesAreTaken_4 : ∃ (r : Region) (via : Option (Fin 6)) (committing absent fenced recovering tick : Nat) (s : State), s.dev.mladus r.val = true ∧ (tick, ((committing * 256 + absent) * 256 + fenced) * 256 + recovering) ∉ (s.dev.g r).commit.notices :=
  ⟨7, some 5, 255, 0, 0, 0, 2 ^ 48 - 1, at_ d0, by decide +kernel⟩

/-- States and operands that clause 5 of MarkersMembersAndEchoesAreTaken is about. -/
theorem test_MarkersMembersAndEchoesAreTaken_5 : ∃ (r : Region) (via : Option (Fin 6)) (edges tick : Nat) (s : State), s.dev.mladus r.val = true ∧ (edges, tick) ∉ (s.dev.g r).routeDue ∧ Dev.tickAfter tick (s.dev.g r).tick = true :=
  ⟨7, some 5, 1023, 1, at_ d0, by decide +kernel⟩

/-- States and operands that clause 6 of MarkersMembersAndEchoesAreTaken is about. -/
theorem test_MarkersMembersAndEchoesAreTaken_6 : ∃ (r : Region) (m : Fin 6) (x p time turn : Nat) (s : State), s.dev.facing r.val m.val = some (x, p) :=
  ⟨1, 0, (d0.facing 1 0).get!.1, (d0.facing 1 0).get!.2, 0, 0, at_ d0, by decide +kernel⟩

/-- States and operands that clause 7 of MarkersMembersAndEchoesAreTaken is about. -/
theorem test_MarkersMembersAndEchoesAreTaken_7 : ∃ (r : Region) (m : Fin 6) (x p time turn now : Nat) (s : State), s.dev.facing r.val m.val = some (x, p) :=
  ⟨1, 0, (d0.facing 1 0).get!.1, (d0.facing 1 0).get!.2, 0, 0, 7, at_ d0, by decide +kernel⟩

/-- States and operands that clause 8 of MarkersMembersAndEchoesAreTaken is about. -/
theorem test_MarkersMembersAndEchoesAreTaken_8 : ∃ (r src : Region) (holder : Nat) (s : State), s.dev.inTurn src.val r.val (.genUpdate holder) = true :=
  ⟨7, 3, 0x80000000, at_ d0, by decide +kernel⟩

/-- States and operands that clause 1 of MpMessagesGuestReportsAndMeters is about. -/
theorem test_MpMessagesGuestReportsAndMeters_1 : ∃ (r src : Region) (info : Nat) (payload : List Byte) (s : State), s.dev.inTurn src.val r.val (.mgt info payload) = true ∧ s.dev.guest src.val = false ∧ payload.length ≤ 280 ∧ info < 65536 ∧ ofBE (payload.take 2) + 1 < ofBE ((payload.drop 2).take 2) :=
  ⟨7, 3, 0x0125, [0, 0, 0, 2, 7], at_ d0, by decide +kernel⟩

/-- States and operands that clause 2 of MpMessagesGuestReportsAndMeters is about. -/
theorem test_MpMessagesGuestReportsAndMeters_2 : ∃ (r src : Region) (ep : Endpoint) (pair : Fin 32) (payload : List Byte) (s : State), s.dev.inTurn src.val r.val (.mgt (Dev.relayInfo 1 ep pair.val) payload) = true ∧ s.dev.guest src.val = false ∧ payload.length ≤ 280 ∧ ofBE ((payload.drop 2).take 2) ≤ ofBE (payload.take 2) + 1 ∧ r.val = s.dev.A ∧ (s.dev.mail ep pair.val).wait = .relay :=
  ⟨0, 4, 1, 31, [0, 0, 0, 1], at_ (d0.modMail 1 31 fun m => { m with wait := .relay }), by decide +kernel⟩

/-- States and operands that clause 3 of MpMessagesGuestReportsAndMeters is about. -/
theorem test_MpMessagesGuestReportsAndMeters_3 : ∃ (r src : Region) (info : Nat) (payload : List Byte) (s : State), s.dev.inTurn src.val r.val (.mgt info payload) = true ∧ 280 < payload.length :=
  ⟨7, 3, 0, List.replicate 281 0, at_ d0, by decide +kernel⟩

/-- States and operands that clause 4 of MpMessagesGuestReportsAndMeters is about. -/
theorem test_MpMessagesGuestReportsAndMeters_4 : ∃ (r : Region) (table index : Nat) (s : State), (s.dev.table r table).kind = 10 ∧ index < (s.dev.table r table).entries ∧ s.dev.mladus r.val = true ∧ s.dev.slotBad r table (s.dev.table r table) index = false ∧ ((s.dev.table r table).place = 1 → s.dev.stackFailed r.val = false) :=
  ⟨7, 3, 255, at_ (d0.modR 7 fun g => { g with tables := { g.tables with inEffect := [(3, ⟨0xA0200000, 0x00010001, 0, 0⟩)] } }), by decide +kernel⟩

/-- States and operands that clause 5 of MpMessagesGuestReportsAndMeters is about. -/
theorem test_MpMessagesGuestReportsAndMeters_5 : ∃ (r src : Region) (code : Nat) (detail : List Byte) (s : State), s.dev.inTurn src.val r.val (.errReport code detail) = true ∧ s.dev.guest src.val = true ∧ code < 256 :=
  ⟨7, 6, 255, [], at_ ((d0.setFld (CHP_POPULATION_guest 0) 0x40).setOn (RGN_CF_LINK_admit 7 0)), by decide +kernel⟩

/-- States and operands that clause 6 of MpMessagesGuestReportsAndMeters is about. -/
theorem test_MpMessagesGuestReportsAndMeters_6 : ∃ (r src : Region) (code : Nat) (detail : List Byte) (s : State), s.dev.inTurn src.val r.val (.errReport code detail) = true ∧ s.dev.guest src.val = false :=
  ⟨7, 6, 255, [], at_ d0, by decide +kernel⟩

/-- States and operands that clause 1 of RecordsAndSealsAreGathered is about. -/
theorem test_RecordsAndSealsAreGathered_1 : ∃ (r src : Region) (tick : Nat) (m : Mut) (s : State), s.dev.inTurn src.val r.val (.mutRecord tick m) = true ∧ (∀ c ∈ (s.dev.g r).commit.held, c.tick ≠ tick) :=
  ⟨7, 0, 5, ⟨0,0,0,0,0,0,0,0,0,0,0,0,false,false,0,0,[]⟩, at_ d0, by decide +kernel⟩

/-- States and operands that clause 2 of RecordsAndSealsAreGathered is about. -/
theorem test_RecordsAndSealsAreGathered_2 : ∃ (src dst : Region) (tick count : Nat) (code : Word) (s : State), s.dev.sealTo src (.seal tick count code) = dst.val ∧ s.dev.inTurn src.val dst.val (.seal tick count code) = true ∧ (s.dev.fenced src.val = true ∨ s.dev.committing src.val = false ∨ Dev.tickAfter tick s.dev.lastCommit = false ∨ dst.val ≠ s.dev.A) :=
  ⟨7, 0, 0, 0, 0, at_ d0, by decide +kernel⟩

/-- States and operands that clause 3 of RecordsAndSealsAreGathered is about. -/
theorem test_RecordsAndSealsAreGathered_3 : ∃ (src q : Region) (tick count : Nat) (code : Word) (s : State), s.dev.inTurn src.val s.dev.A (.seal tick count code) = true ∧ s.dev.sealTo src (.seal tick count code) = s.dev.A ∧ s.dev.anchorLive = true ∧ s.dev.fenced src.val = false ∧ s.dev.committing src.val = true ∧ s.dev.absent src.val = false ∧ Dev.tickAfter tick s.dev.lastCommit = true ∧ q ∈ s.dev.sealers ∧ q ≠ src ∧ (∀ x ∈ s.dev.anchorSt.seals, ¬ (x.region = q.val ∧ x.tick = tick)) :=
  ⟨7, 1, 5, 0, 0, at_ (d0.setReg (CHP_COMMIT_MEMBERS 0) 0x000000FF#32), by decide +kernel⟩

/-- States and operands that clause 4 of RecordsAndSealsAreGathered is about. -/
theorem test_RecordsAndSealsAreGathered_4 : ∃ (src : Region) (tick count : Nat) (code : Word) (s : State), s.dev.inTurn src.val s.dev.A (.seal tick count code) = true ∧ s.dev.sealTo src (.seal tick count code) = s.dev.A ∧ s.dev.anchorLive = true ∧ s.dev.fenced src.val = false ∧ s.dev.committing src.val = true ∧ s.dev.absent src.val = false ∧ tick < 2 ^ 48 ∧ Dev.tickAfter tick s.dev.lastCommit = true ∧ (∀ q ∈ s.dev.sealers, q ≠ src → ∃ x ∈ s.dev.anchorSt.seals, x.region = q.val ∧ x.tick = tick) :=
  ⟨7, 5, 0, 0, at_ ((d0.modA fun a => { a with seals := (List.range 7).map fun q => ⟨q, 5, 0, 0⟩ }).setReg (CHP_COMMIT_MEMBERS 0) 0x000000FF#32), by decide +kernel⟩

/-- States and operands that clause 5 of RecordsAndSealsAreGathered is about. -/
theorem test_RecordsAndSealsAreGathered_5 : ∃ (s : State), s.dev.anchorLive = true ∧ (s.dev.g s.dev.anchor).commit.lastMode.isRun = true ∧ 0 < s.dev.tick ∧ s.dev.tick < 2 ^ 48 ∧ Dev.tickAfter (s.dev.tick - 1) s.dev.lastCommit = true :=
  ⟨at_ (d0.modR 0 fun g => { g with tick := 5, commit := { g.commit with lastMode := .strict } }), by decide +kernel⟩

/-- States and operands that clause 1 of CommitsAreAppliedOrMissed is about. -/
theorem test_CommitsAreAppliedOrMissed_1 : ∃ (r : Region) (c : Commit) (bad : List (Nat × Nat)) (via : Option (Fin 6)) (s : State), s.dev.inTurn (s.dev.cameFrom r via) r.val (.commit c) = true ∧ c.tick ∈ (s.dev.g r).commit.seen :=
  ⟨7, ⟨5, 0, [⟨7, 0, recordsCode []⟩]⟩, [], some 5, at_ (d0.modR 7 fun g => { g with commit := { g.commit with seen := [5] } }), by decide +kernel⟩

/-- States and operands that clause 2 of CommitsAreAppliedOrMissed is about. -/
theorem test_CommitsAreAppliedOrMissed_2 : ∃ (r : Region) (c : Commit) (via : Option (Fin 6)) (s : State), s.dev.inTurn (s.dev.cameFrom r via) r.val (.commit c) = true ∧ c.tick ∉ (s.dev.g r).commit.seen ∧ c.tick ∉ (s.dev.g r).commit.lapsed ∧ s.dev.mladus r.val = true ∧ s.dev.committing r.val = true ∧ s.dev.fenced r.val = false ∧ (∃ p ∈ c.parts, p.region = r.val) ∧ c.last = (s.dev.g r).commit.lastApplied ∧ s.dev.holdsAll r c = true ∧ (s.dev.g r).commit.repairWait = [] :=
  ⟨7, ⟨5, 0, [⟨7, 0, recordsCode []⟩]⟩, some 5, at_ (d0.setReg (CHP_COMMIT_MEMBERS 0) 0x000000FF#32), by decide +kernel⟩

/-- States and operands that clause 3 of CommitsAreAppliedOrMissed is about. -/
theorem test_CommitsAreAppliedOrMissed_3 : ∃ (r : Region) (c : Commit) (bad : List (Nat × Nat)) (via : Option (Fin 6)) (s : State), s.dev.inTurn (s.dev.cameFrom r via) r.val (.commit c) = true ∧ c.tick ∉ (s.dev.g r).commit.seen ∧ s.dev.present r.val = true ∧ c.tick ∈ (s.dev.g r).commit.lapsed :=
  ⟨7, ⟨5, 0, [⟨7, 0, recordsCode []⟩]⟩, [], some 5, at_ ((d0.setReg (CHP_COMMIT_MEMBERS 0) 0x000000FF#32).modR 7 fun g => { g with commit := { g.commit with lapsed := [5] } }), by decide +kernel⟩

/-- States and operands that clause 4 of CommitsAreAppliedOrMissed is about. -/
theorem test_CommitsAreAppliedOrMissed_4 : ∃ (r : Region) (c : Commit) (via : Option (Fin 6)) (s : State), s.dev.inTurn (s.dev.cameFrom r via) r.val (.commit c) = true ∧ c.tick ∉ (s.dev.g r).commit.seen ∧ c.tick ∉ (s.dev.g r).commit.lapsed ∧ s.dev.mladus r.val = true ∧ s.dev.committing r.val = true ∧ s.dev.fenced r.val = false ∧ (∃ p ∈ c.parts, p.region = r.val) ∧ c.last = (s.dev.g r).commit.lastApplied ∧ s.dev.holdsAll r c = false :=
  ⟨7, ⟨5, 0, [⟨7, 1, 0⟩]⟩, some 5, at_ (d0.setReg (CHP_COMMIT_MEMBERS 0) 0x000000FF#32), by decide +kernel⟩

/-- States and operands that clause 5 of CommitsAreAppliedOrMissed is about. -/
theorem test_CommitsAreAppliedOrMissed_5 : ∃ (r : Region) (c : Commit) (via : Option (Fin 6)) (s : State), s.dev.inTurn (s.dev.cameFrom r via) r.val (.commit c) = true ∧ c.tick ∉ (s.dev.g r).commit.seen ∧ c.tick ∉ (s.dev.g r).commit.lapsed ∧ s.dev.mladus r.val = true ∧ s.dev.committing r.val = true ∧ s.dev.fenced r.val = false ∧ (∃ p ∈ c.parts, p.region = r.val) ∧ c.last ≠ (s.dev.g r).commit.lastApplied ∧ (s.dev.g r).commit.lastMode ≠ .regional ∧ (s.dev.g r).commit.fenceDue = 0 :=
  ⟨7, ⟨5, 3, [⟨7, 0, 0⟩]⟩, some 5, at_ (d0.setReg (CHP_COMMIT_MEMBERS 0) 0x000000FF#32), by decide +kernel⟩

/-- States and operands that clause 6 of CommitsAreAppliedOrMissed is about. -/
theorem test_CommitsAreAppliedOrMissed_6 : ∃ (r : Region) (s : State), (s.dev.g r).commit.lastMode.isRun = true ∧ s.dev.committing r.val = true ∧ s.dev.fenced r.val = false ∧ 0 < (s.dev.g r).tick ∧ (s.dev.g r).tick < 2 ^ 48 ∧ (s.dev.g r).commit.lastApplied ≠ (s.dev.g r).tick - 1 ∧ (∀ c ∈ (s.dev.g r).commit.held, c.tick ≠ (s.dev.g r).tick - 1) ∧ (s.dev.g r).tick - 1 ∉ (s.dev.g r).commit.seen :=
  ⟨7, at_ ((d0.setReg (CHP_COMMIT_MEMBERS 0) 0x000000FF#32).modR 7 fun g => { g with tick := 7, commit := { g.commit with lastMode := .strict } }), by decide +kernel⟩

/-- States and operands that clause 7 of CommitsAreAppliedOrMissed is about. -/
theorem test_CommitsAreAppliedOrMissed_7 : ∃ (r : Region) (s : State), (s.dev.g r).commit.lastMode.isRun = true ∧ s.dev.committing r.val = true ∧ s.dev.fenced r.val = false ∧ 0 < (s.dev.g r).tick ∧ (s.dev.g r).tick < 2 ^ 48 ∧ (s.dev.g r).commit.lastApplied ≠ (s.dev.g r).tick - 1 ∧ (∃ c ∈ (s.dev.g r).commit.held, c.tick = (s.dev.g r).tick - 1) ∧ (∀ c ∈ (s.dev.g r).commit.held, s.dev.holdsAll r c = false) ∧ (s.dev.g r).commit.fenceDue = 0 :=
  ⟨7, at_ ((d0.setReg (CHP_COMMIT_MEMBERS 0) 0x000000FF#32).modR 7 fun g => { g with tick := 7, commit := { g.commit with lastMode := .strict, held := [⟨6, 0, [⟨7, 1, 0⟩]⟩] } }), by decide +kernel⟩

/-- States and operands that clause 1 of RepairsNoticesAndReconciliation is about. -/
theorem test_RepairsNoticesAndReconciliation_1 : ∃ (r src : Region) (table line time : Nat) (s : State), s.dev.inTurn src.val r.val (s.dev.repairSent r src table line) = true ∧ s.dev.repairs r = true ∧ s.dev.lineBad r table line = false ∧ (s.dev.g r).commit.lastApplied ≠ ((s.dev.g r).tick + 2 ^ 48 - 1) % 2 ^ 48 :=
  ⟨7, 3, 255, 9, 0, at_ (d0.modR 7 fun g => { g with mode := .strict }), by decide +kernel⟩

/-- States and operands that clause 2 of RepairsNoticesAndReconciliation is about. -/
theorem test_RepairsNoticesAndReconciliation_2 : ∃ (r src : Region) (table line time : Nat) (s : State), s.dev.inTurn src.val r.val (s.dev.repairSent r src table line) = true ∧ s.dev.repairs r = true ∧ s.dev.lineBad r table line = false ∧ (s.dev.g r).commit.lastApplied = ((s.dev.g r).tick + 2 ^ 48 - 1) % 2 ^ 48 ∧ (s.dev.g r).commit.staged.length + s.dev.fld (RGN_COMMIT_CTL_host_reserve r.val) < 128 :=
  ⟨7, 3, 255, 9, 0, at_ ((d0.modR 7 fun g => { g with mode := .strict, tick := 1 }).setFld (RGN_COMMIT_CTL_host_reserve 7) 0), by decide +kernel⟩

/-- States and operands that clause 3 of RepairsNoticesAndReconciliation is about. -/
theorem test_RepairsNoticesAndReconciliation_3 : ∃ (r : Region) (table line : Nat) (b : BadLine) (s : State), (s.dev.g r).tables.bad.find? (fun b => b.table == table && b.line == line) = some b ∧ 16 ≤ Dev.ticksAhead (s.dev.g r).tick b.since :=
  ⟨7, 3, 9, ⟨3, 9, 0⟩, at_ (d0.modR 7 fun g => { g with tick := 16, tables := { g.tables with bad := [⟨3, 9, 0⟩] } }), by decide +kernel⟩

/-- States and operands that clause 4 of RepairsNoticesAndReconciliation is about. -/
theorem test_RepairsNoticesAndReconciliation_4 : ∃ (r : Region) (table line : Nat) (s : State), (∀ b ∈ (s.dev.g r).tables.bad, b.table = table → b.line = line → Dev.ticksAhead (s.dev.g r).tick b.since < 16) :=
  ⟨7, 3, 9, at_ (d0.modR 7 fun g => { g with tick := 15, tables := { g.tables with bad := [⟨3, 9, 0⟩] } }), by decide +kernel⟩

/-- States and operands that clause 5 of RepairsNoticesAndReconciliation is about. -/
theorem test_RepairsNoticesAndReconciliation_5 : ∃ (r src : Region) (tick : Nat) (m : Mut) (s : State), s.dev.inTurn src.val r.val (.recon tick m) = true :=
  ⟨7, 0, 5, ⟨0,0,0,0,0,0,0,0,0,0,0,0,false,false,0,0,[]⟩, at_ d0, by decide +kernel⟩

/-- States and operands that clause 6 of RepairsNoticesAndReconciliation is about. -/
theorem test_RepairsNoticesAndReconciliation_6 : ∃ (r src : Region) (table slot quantum : Nat) (s : State), s.dev.inTurn src.val r.val (.hitNotice table slot quantum) = true ∧ (∀ x ∈ (s.dev.g r).commit.staged, x.mu.op ≠ 6) :=
  ⟨7, 3, 255, 9, 0, at_ d0, by decide +kernel⟩

/-- States and operands that clause 1 of ParksAndClocksAreRequested is about. -/
theorem test_ParksAndClocksAreRequested_1 : ∃ (r : Region) (value : Word) (s : State), (bitOf value.toNat 0 = true → s.dev.mode ≠ .load ∧ r.val ≠ s.dev.A ∧ r.val ≠ s.dev.standby ∧ ∀ p < 8, s.dev.portDisabled r p = true) :=
  ⟨3, 1, at_ (d0.setFld (CHP_MODE_STAT_effective 0) 1), by decide +kernel⟩

/-- States and operands that clause 2 of ParksAndClocksAreRequested is about. -/
theorem test_ParksAndClocksAreRequested_2 : ∃ (r : Region) (value : Word) (s : State), bitOf value.toNat 0 = true ∧ (s.dev.mode = .load ∨ r.val = s.dev.A ∨ r.val = s.dev.standby ∨ ∃ p < 8, s.dev.portDisabled r p = false) :=
  ⟨3, 1, at_ d0, by decide +kernel⟩

/-- States and operands that clause 3 of ParksAndClocksAreRequested is about. -/
theorem test_ParksAndClocksAreRequested_3 : ∃ (r : Region) (s : State), s.dev.fld (RGN_PWR_REGION_state r.val) = 1 :=
  ⟨7, at_ (d0.setFld (RGN_PWR_REGION_state 7) 1), by decide +kernel⟩

/-- States and operands that clause 4 of ParksAndClocksAreRequested is about. -/
theorem test_ParksAndClocksAreRequested_4 : ∃ (r : Region) (s : State), s.dev.fld (RGN_PWR_REGION_state r.val) = 3 ∧ s.dev.hbmState r.val ≠ 4 ∧ s.dev.hbmState r.val ≠ 5 ∧ s.dev.on (RGN_HBM_STAT_pend_valid r.val) = false :=
  ⟨7, at_ (d0.setFld (RGN_PWR_REGION_state 7) 3), by decide +kernel⟩

/-- States and operands that clause 5 of ParksAndClocksAreRequested is about. -/
theorem test_ParksAndClocksAreRequested_5 : ∃ (r : Region) (value : Word) (s : State), (s.dev.g r).mode.isOpen = true ∧ value.toNat % 4 ≠ 3 :=
  ⟨7, 2, at_ (d0.modR 7 fun g => { g with mode := .test }), by decide +kernel⟩

/-- States and operands that clause 6 of ParksAndClocksAreRequested is about. -/
theorem test_ParksAndClocksAreRequested_6 : ∃ (r : Region) (value : Word) (s : State), ((s.dev.g r).mode.isOpen = false ∨ value.toNat % 4 = 3) :=
  ⟨7, 3, at_ d0, by decide +kernel⟩

/-- States and operands that clause 1 of BlocksAreRetainedResetAndStarted is about. -/
theorem test_BlocksAreRetainedResetAndStarted_1 : ∃ (r : Region) (value : Word) (s : State), (s.dev.g r).mode ∉ [Mode.strict, .extended, .regional, .drain] :=
  ⟨7, 0xFFFF#32, at_ d0, by decide +kernel⟩

/-- States and operands that clause 2 of BlocksAreRetainedResetAndStarted is about. -/
theorem test_BlocksAreRetainedResetAndStarted_2 : ∃ (r : Region) (value : Word) (s : State), (s.dev.g r).mode ∈ [Mode.strict, .extended, .regional, .drain] ∧ (∃ b < 16, bitOf value.toNat b ≠ bitOf (s.dev.fld (RGN_PWR_RET_ret r.val)) b) ∧ (∀ b < 16, bitOf value.toNat b ≠ bitOf (s.dev.fld (RGN_PWR_RET_ret r.val)) b → bitOf value.toNat b = true ∧ s.dev.on (RGN_DSP_BMODE_serve_en r.val b) = true) :=
  ⟨7, 0x8000#32, at_ ((d0.modR 7 fun g => { g with mode := .strict }).setOn (RGN_DSP_BMODE_serve_en 7 15)), by decide +kernel⟩

/-- States and operands that clause 3 of BlocksAreRetainedResetAndStarted is about. -/
theorem test_BlocksAreRetainedResetAndStarted_3 : ∃ (r : Region) (b : Block) (s : State), s.dev.blockState r.val b.val = 1 :=
  ⟨7, 15, at_ (d0.setFld ⟨RGN_PWR_BSTAT 7, 30, 2⟩ 1), by decide +kernel⟩

/-- States and operands that clause 4 of BlocksAreRetainedResetAndStarted is about. -/
theorem test_BlocksAreRetainedResetAndStarted_4 : ∃ (r : Region) (b : Block) (s : State), s.dev.blockState r.val b.val = 3 ∧ s.dev.on (BLK_SEC_STAT_wiping r.val b.val) = false :=
  ⟨7, 15, at_ (d0.setFld ⟨RGN_PWR_BSTAT 7, 30, 2⟩ 3), by decide +kernel⟩

/-- States and operands that clause 5 of BlocksAreRetainedResetAndStarted is about. -/
theorem test_BlocksAreRetainedResetAndStarted_5 : ∃ (r : Region) (b : Block) (value : Word) (s : State), s.dev.blockState r.val b.val ≠ 0 :=
  ⟨7, 15, 1, at_ (d0.setFld ⟨RGN_PWR_BSTAT 7, 30, 2⟩ 2), by decide +kernel⟩

/-- States and operands that clause 6 of BlocksAreRetainedResetAndStarted is about. -/
theorem test_BlocksAreRetainedResetAndStarted_6 : ∃ (r : Region) (b : Block) (value : Word) (s : State), s.dev.blockState r.val b.val = 0 :=
  ⟨7, 15, 0xFF#32, at_ d0, by decide +kernel⟩

/-- States and operands that clause 1 of ScratchpadsAndSecurePartitions is about. -/
theorem test_ScratchpadsAndSecurePartitions_1 : ∃ (r : Region) (b : Block) (bank line : Nat) (s : State), bank < 16 ∧ line < 4096 ∧ s.dev.blockState r.val b.val ≠ 2 ∧ (bank ≠ 15 ∨ line ≠ 4095) :=
  ⟨7, 15, 15, 4094, at_ d0, by decide +kernel⟩

/-- States and operands that clause 2 of ScratchpadsAndSecurePartitions is about. -/
theorem test_ScratchpadsAndSecurePartitions_2 : ∃ (r : Region) (b : Block) (s : State), s.dev.blockState r.val b.val ≠ 2 :=
  ⟨7, 15, at_ d0, by decide +kernel⟩

/-- States and operands that clause 3 of ScratchpadsAndSecurePartitions is about. -/
theorem test_ScratchpadsAndSecurePartitions_3 : ∃ (r : Region) (b : Block) (bank line : Nat) (s : State), bank < 16 ∧ line < 4096 ∧ s.dev.blockState r.val b.val ≠ 2 ∧ s.dev.poisoned (padAddr r.val b.val (line * 512 + bank * 32)) = false :=
  ⟨7, 15, 15, 4095, at_ d0, by decide +kernel⟩

/-- States and operands that clause 4 of ScratchpadsAndSecurePartitions is about. -/
theorem test_ScratchpadsAndSecurePartitions_4 : ∃ (r : Region) (b : Block) (bank line : Nat) (s : State), bank < 16 ∧ line < 4096 ∧ s.dev.blockState r.val b.val ≠ 2 ∧ s.dev.poisoned (padAddr r.val b.val (line * 512 + bank * 32)) = false :=
  ⟨7, 15, 15, 4095, at_ d0, by decide +kernel⟩

/-- States and operands that clause 5 of ScratchpadsAndSecurePartitions is about. -/
theorem test_ScratchpadsAndSecurePartitions_5 : ∃ (r : Region) (b : Block) (line : Nat) (s : State), line < 65536 :=
  ⟨7, 15, 65535, at_ d0, by decide +kernel⟩

/-- States and operands that clause 6 of ScratchpadsAndSecurePartitions is about. -/
theorem test_ScratchpadsAndSecurePartitions_6 : ∃ (r : Region) (b : Block) (value : Word) (s : State), bitOf value.toNat 31 = false :=
  ⟨7, 15, 0x7FFFFFE0#32, at_ d0, by decide +kernel⟩

/-- States and operands that clause 7 of ScratchpadsAndSecurePartitions is about. -/
theorem test_ScratchpadsAndSecurePartitions_7 : ∃ (r : Region) (b : Block) (value : Word) (s : State), s.dev.on (BLK_SEC_CTL_lock r.val b.val) = true :=
  ⟨7, 15, 3, at_ (d0.setOn (BLK_SEC_CTL_lock 7 15)), by decide +kernel⟩

/-- States and operands that clause 8 of ScratchpadsAndSecurePartitions is about. -/
theorem test_ScratchpadsAndSecurePartitions_8 : ∃ (r : Region) (b : Block) (value : Word) (s : State), s.dev.on (BLK_SEC_CTL_lock r.val b.val) = false ∧ s.dev.lifeCycle ≠ 4 ∧ value.toNat % 4 ≠ s.dev.fld (BLK_SEC_CTL_size r.val b.val) :=
  ⟨7, 15, 0x13#32, at_ d0, by decide +kernel⟩

/-- States and operands that clause 9 of ScratchpadsAndSecurePartitions is about. -/
theorem test_ScratchpadsAndSecurePartitions_9 : ∃ (r : Region) (b : Block) (value : Word) (s : State), s.dev.on (BLK_SEC_CTL_lock r.val b.val) = false ∧ s.dev.lifeCycle ≠ 4 ∧ value.toNat % 4 = s.dev.fld (BLK_SEC_CTL_size r.val b.val) :=
  ⟨7, 15, 0x10#32, at_ d0, by decide +kernel⟩

/-- States and operands that clause 10 of ScratchpadsAndSecurePartitions is about. -/
theorem test_ScratchpadsAndSecurePartitions_10 : ∃ (r : Region) (b : Block) (s : State), s.dev.on (BLK_SEC_STAT_wiping r.val b.val) = true ∧ s.dev.blockState r.val b.val ≠ 2 :=
  ⟨7, 15, at_ (d0.setOn (BLK_SEC_STAT_wiping 7 15)), by decide +kernel⟩

/-- States and operands that clause 1 of HbmRequestsAreServed is about. -/
theorem test_HbmRequestsAreServed_1 : ∃ (r : Region) (port addr : Nat) (data : List Byte) (hint first last waits : Bool) (found latency : Nat) (s : State), port < 6 ∧ addr + data.length ≤ 0x00540000000 ∧ s.dev.hbmState r.val = 3 ∧ (waits = true → s.dev.on (RGN_HBM_PORT_rt r.val port) = true) ∧ (∀ i < data.length, s.dev.poisoned (r.val * 2 ^ 44 + addr + i) = false) ∧ (Dev.partWrite addr data.length = false ∨ (found = 0 ∧ s.dev.rowBad r (Dev.partColumn addr data.length) = false)) ∧ (∀ q ∈ (s.dev.g r).hbm.waiting, q.port ≠ port) ∧ (s.dev.parked r.val = true → port = 0) :=
  ⟨7, 5, 0x0053FFFFFFE, [1, 2], false, false, false, false, 0, 0, at_ (d0.setFld (RGN_HBM_STAT_state 7) 3), by decide +kernel⟩

/-- States and operands that clause 2 of HbmRequestsAreServed is about. -/
theorem test_HbmRequestsAreServed_2 : ∃ (r : Region) (port addr len : Nat) (hint first last waits : Bool) (latency : Nat) (s : State), port < 6 ∧ addr + len ≤ 0x00540000000 ∧ s.dev.hbmState r.val = 3 ∧ (waits = true → s.dev.on (RGN_HBM_PORT_rt r.val port) = true) ∧ s.dev.rowBad r addr = false ∧ (∀ q ∈ (s.dev.g r).hbm.waiting, q.port ≠ port) ∧ (s.dev.parked r.val = true → port = 0) :=
  ⟨7, 5, 0x0053FFFFFFF, 1, false, false, false, false, 65536, at_ (d0.setFld (RGN_HBM_STAT_state 7) 3), by decide +kernel⟩

/-- States and operands that clause 3 of HbmRequestsAreServed is about. -/
theorem test_HbmRequestsAreServed_3 : ∃ (r : Region) (port : Nat) (write : Bool) (addr len : Nat) (data : List Byte) (hint first last waits : Bool) (found latency : Nat) (s : State), port < 6 ∧ addr + (if write then data.length else len) ≤ 0x00540000000 ∧ s.dev.hbmState r.val = 3 ∧ (waits = true → s.dev.on (RGN_HBM_PORT_rt r.val port) = true) ∧ (s.dev.parked r.val = true → port = 0) :=
  ⟨7, 5, true, 0, 0, [1], false, false, false, false, 0, 0, at_ ((d0.setFld (RGN_HBM_STAT_state 7) 3).modHbm 7 fun h => { h with waiting := [⟨5, false, 0, 32, [], true⟩, ⟨5, false, 128, 32, [], true⟩] }), by decide +kernel⟩

/-- States and operands that clause 4 of HbmRequestsAreServed is about. -/
theorem test_HbmRequestsAreServed_4 : ∃ (r : Region) (port : Nat) (write : Bool) (addr len : Nat) (data : List Byte) (hint first last waits : Bool) (found latency : Nat) (s : State), port < 6 ∧ addr + (if write then data.length else len) ≤ 0x00540000000 ∧ s.dev.hbmState r.val ≠ 7 ∧ (s.dev.hbmState r.val ≠ 3 ∨ (waits = true ∧ s.dev.on (RGN_HBM_PORT_rt r.val port) = false)) ∧ (s.dev.parked r.val = true → port = 0 ∧ s.dev.hbmState r.val ≠ 4) :=
  ⟨7, 5, true, 0, 0, [1], false, false, false, true, 0, 0, at_ (d0.setFld (RGN_HBM_STAT_state 7) 3), by decide +kernel⟩

/-- States and operands that clause 5 of HbmRequestsAreServed is about. -/
theorem test_HbmRequestsAreServed_5 : ∃ (r : Region) (port : Nat) (write : Bool) (addr len : Nat) (data : List Byte) (hint first last waits : Bool) (found latency : Nat) (s : State), port < 6 ∧ addr + (if write then data.length else len) ≤ 0x00540000000 ∧ (s.dev.hbmState r.val = 7 ∨ (s.dev.parked r.val = true ∧ (port ≠ 0 ∨ s.dev.hbmState r.val = 4))) :=
  ⟨7, 5, true, 0, 0, [1], false, false, false, true, 0, 0, at_ (d0.setFld (RGN_PWR_REGION_state 7) 2), by decide +kernel⟩

/-- States and operands that clause 6 of HbmRequestsAreServed is about. -/
theorem test_HbmRequestsAreServed_6 : ∃ (r : Region) (q : HbmReq) (s : State), s.dev.hbmState r.val = 3 ∧ (s.dev.g r).hbm.waiting.find? (fun q => !s.dev.on (RGN_HBM_PORT_rt r.val q.port)) = some q :=
  ⟨7, ⟨5, false, 0, 32, [], true⟩, at_ (((d0.setFld (RGN_HBM_STAT_state 7) 3).modHbm 7 fun h => { h with waiting := [⟨5, false, 0, 32, [], true⟩] }).setFld (RGN_HBM_PORT_rt 7 5) 0), by decide +kernel⟩

/-- States and operands that clause 7 of HbmRequestsAreServed is about. -/
theorem test_HbmRequestsAreServed_7 : ∃ (r : Region) (pc bank : Nat) (s : State), pc < 32 ∧ bank < 48 :=
  ⟨7, 31, 47, at_ d0, by decide +kernel⟩

/-- States and operands that clause 8 of HbmRequestsAreServed is about. -/
theorem test_HbmRequestsAreServed_8 : ∃ (r : Region) (pc : Nat) (s : State), s.dev.bursting r pc = false :=
  ⟨7, 31, at_ d0, by decide +kernel⟩

/-- States and operands that clause 9 of HbmRequestsAreServed is about. -/
theorem test_HbmRequestsAreServed_9 : ∃ (r : Region) (pc : Nat) (s : State), s.dev.bursting r pc = true :=
  ⟨7, 31, at_ (d0.modHbm 7 fun h => { h with bursts := [(31 * 6 + 3, 3)], debts := [(31, 7)] }), by decide +kernel⟩

/-- States and operands that clause 10 of HbmRequestsAreServed is about. -/
theorem test_HbmRequestsAreServed_10 : ∃ (r : Region) (addr : Nat) (s : State), addr < 0x00540000000 ∧ s.dev.hbmState r.val = 3 ∧ s.dev.fld (RGN_HBM_SCRUB_interval r.val) ≠ 0 ∧ (∀ q ∈ (s.dev.g r).hbm.waiting, s.dev.reqPc r q ≠ s.dev.rowKey r addr / (48 * 16384)) ∧ s.dev.rowBad r addr = false :=
  ⟨7, 0x0053FFFFFFF, at_ ((d0.setFld (RGN_HBM_STAT_state 7) 3).setFld (RGN_HBM_SCRUB_interval 7) 1), by decide +kernel⟩

/-- States and operands that clause 11 of HbmRequestsAreServed is about. -/
theorem test_HbmRequestsAreServed_11 : ∃ (r : Region) (addr : Nat) (s : State), addr < 0x00540000000 ∧ s.dev.hbmState r.val = 3 ∧ s.dev.fld (RGN_HBM_SCRUB_interval r.val) ≠ 0 ∧ (∀ q ∈ (s.dev.g r).hbm.waiting, s.dev.reqPc r q ≠ s.dev.rowKey r addr / (48 * 16384)) ∧ s.dev.poisoned (r.val * 2 ^ 44 + addr / 32 * 32) = false :=
  ⟨7, 0x0053FFFFFFF, at_ ((d0.setFld (RGN_HBM_STAT_state 7) 3).setFld (RGN_HBM_SCRUB_interval 7) 1), by decide +kernel⟩

/-- States and operands that clause 12 of HbmRequestsAreServed is about. -/
theorem test_HbmRequestsAreServed_12 : ∃ (r : Region) (pc : Nat) (s : State), Dev.pcGet (s.dev.g r).hbm.parity pc < 2 :=
  ⟨7, 31, at_ (d0.modHbm 7 fun h => { h with parity := [(31, 1)] }), by decide +kernel⟩

/-- States and operands that clause 13 of HbmRequestsAreServed is about. -/
theorem test_HbmRequestsAreServed_13 : ∃ (r : Region) (pc : Nat) (s : State), Dev.pcGet (s.dev.g r).hbm.parity pc = 2 ∧ s.dev.hbmState r.val ≠ 7 :=
  ⟨7, 31, at_ (d0.modHbm 7 fun h => { h with parity := [(31, 2)] }), by decide +kernel⟩

/-- States and operands that clause 1 of HbmRatesOrderAndTraining is about. -/
theorem test_HbmRatesOrderAndTraining_1 : ∃ (r : Region) (drift : Bool) (s : State), s.dev.hbmState r.val = 3 ∧ s.dev.fld (RGN_HBM_TRAIN_period r.val) ≠ 0 :=
  ⟨7, false, at_ (d0.setFld (RGN_HBM_STAT_state 7) 3), by decide +kernel⟩

/-- States and operands that clause 2 of HbmRatesOrderAndTraining is about. -/
theorem test_HbmRatesOrderAndTraining_2 : ∃ (r : Region) (s : State), s.dev.on (RGN_HBM_STAT_gathering r.val) = true :=
  ⟨7, at_ (d0.setOn (RGN_HBM_STAT_gathering 7)), by decide +kernel⟩

/-- States and operands that clause 3 of HbmRatesOrderAndTraining is about. -/
theorem test_HbmRatesOrderAndTraining_3 : ∃ (r : Region) (s : State), s.dev.on (RGN_HBM_STAT_gathering r.val) = true ∧ s.dev.hbmState r.val ≠ 7 :=
  ⟨7, at_ (d0.setOn (RGN_HBM_STAT_gathering 7)), by decide +kernel⟩

/-- States and operands that clause 4 of HbmRatesOrderAndTraining is about. -/
theorem test_HbmRatesOrderAndTraining_4 : ∃ (r : Region) (temp : Nat) (s : State), temp < 95 ∧ (s.dev.g r).hbm.stepped = false :=
  ⟨7, 94, at_ d0, by decide +kernel⟩

/-- States and operands that clause 5 of HbmRatesOrderAndTraining is about. -/
theorem test_HbmRatesOrderAndTraining_5 : ∃ (r : Region) (temp : Nat) (s : State), temp < 90 ∧ (s.dev.g r).hbm.stepped = true :=
  ⟨7, 89, at_ (d0.modHbm 7 fun h => { h with stepped := true, held := true }), by decide +kernel⟩

/-- States and operands that clause 6 of HbmRatesOrderAndTraining is about. -/
theorem test_HbmRatesOrderAndTraining_6 : ∃ (r : Region) (temp : Nat) (s : State), 95 ≤ temp ∧ s.dev.fld (RGN_HBM_STAT_rate r.val) = 0 ∧ s.dev.on (RGN_HBM_CFG_thermal_step r.val) = true ∧ s.dev.hbmState r.val ≠ 7 :=
  ⟨7, 95, at_ (d0.setOn (RGN_HBM_CFG_thermal_step 7)), by decide +kernel⟩

/-- States and operands that clause 7 of HbmRatesOrderAndTraining is about. -/
theorem test_HbmRatesOrderAndTraining_7 : ∃ (r : Region) (temp : Nat) (s : State), s.dev.hbmState r.val ≠ 7 :=
  ⟨7, 0, at_ d0, by decide +kernel⟩

/-- States and operands that clause 8 of HbmRatesOrderAndTraining is about. -/
theorem test_HbmRatesOrderAndTraining_8 : ∃ (r : Region) (rate : Nat) (s : State), rate < 2 ∧ (s.dev.g r).mode ≠ .lean ∧ s.dev.hbmState r.val ≠ 7 ∧ rate ≠ s.dev.fld (RGN_HBM_STAT_rate r.val) ∧ (rate = 0 → (s.dev.g r).hbm.stepped = false ∨ s.dev.fld (RGN_HBM_STAT_temp r.val) < 90) :=
  ⟨7, 1, at_ d0, by decide +kernel⟩

/-- States and operands that clause 9 of HbmRatesOrderAndTraining is about. -/
theorem test_HbmRatesOrderAndTraining_9 : ∃ (r : Region) (rate : Nat) (s : State), 2 ≤ rate :=
  ⟨7, 2, at_ d0, by decide +kernel⟩

/-- States and operands that clause 10 of HbmRatesOrderAndTraining is about. -/
theorem test_HbmRatesOrderAndTraining_10 : ∃ (r : Region) (s : State), s.dev.hbmState r.val = 3 ∧ s.dev.on (RGN_HBM_STAT_gathering r.val) = false ∧ s.dev.on (RGN_HBM_STAT_pend_valid r.val) = true :=
  ⟨7, at_ ((d0.setFld (RGN_HBM_STAT_state 7) 3).setOn (RGN_HBM_STAT_pend_valid 7)), by decide +kernel⟩

/-- States and operands that clause 11 of HbmRatesOrderAndTraining is about. -/
theorem test_HbmRatesOrderAndTraining_11 : ∃ (r : Region) (s : State), s.dev.hbmState r.val = 5 :=
  ⟨7, at_ (d0.setFld (RGN_HBM_STAT_state 7) 5), by decide +kernel⟩

/-- States and operands that clause 12 of HbmRatesOrderAndTraining is about. -/
theorem test_HbmRatesOrderAndTraining_12 : ∃ (r : Region) (s : State), (s.dev.g r).mode.isOpen = true ∧ s.dev.hbmState r.val = 3 :=
  ⟨7, at_ ((d0.setFld (RGN_HBM_STAT_state 7) 3).modR 7 fun g => { g with mode := .test }), by decide +kernel⟩

/-- States and operands that clause 13 of HbmRatesOrderAndTraining is about. -/
theorem test_HbmRatesOrderAndTraining_13 : ∃ (r : Region) (s : State), s.dev.hbmState r.val ≠ 3 :=
  ⟨7, at_ d0, by decide +kernel⟩

/-- States and operands that clause 14 of HbmRatesOrderAndTraining is about. -/
theorem test_HbmRatesOrderAndTraining_14 : ∃ (r : Region) (s : State), s.dev.hbmState r.val = 6 :=
  ⟨7, at_ (d0.setFld (RGN_HBM_STAT_state 7) 6), by decide +kernel⟩

/-- States and operands that clause 15 of HbmRatesOrderAndTraining is about. -/
theorem test_HbmRatesOrderAndTraining_15 : ∃ (r : Region) (s : State), s.dev.hbmState r.val = 6 :=
  ⟨7, at_ (d0.setFld (RGN_HBM_STAT_state 7) 6), by decide +kernel⟩

/-- States and operands that clause 16 of HbmRatesOrderAndTraining is about. -/
theorem test_HbmRatesOrderAndTraining_16 : ∃ (r : Region) (order : Nat) (s : State), ((s.dev.g r).mode = .load ∨ (s.dev.g r).mode.isOpen = true) ∧ order % 4 ≠ s.dev.fld (RGN_HBM_CFG_order r.val) ∧ s.dev.hbmState r.val ≠ 0 ∧ s.dev.hbmState r.val ≠ 7 :=
  ⟨7, (d0.fld (RGN_HBM_CFG_order 7) + 1), at_ (d0.setFld (RGN_HBM_STAT_state 7) 3), by decide +kernel⟩

/-- States and operands that clause 17 of HbmRatesOrderAndTraining is about. -/
theorem test_HbmRatesOrderAndTraining_17 : ∃ (r : Region) (order : Nat) (s : State), (s.dev.g r).mode ≠ .load ∧ (s.dev.g r).mode.isOpen = false :=
  ⟨7, 0, at_ (d0.modR 7 fun g => { g with mode := .strict }), by decide +kernel⟩

/-- States and operands that clause 18 of HbmRatesOrderAndTraining is about. -/
theorem test_HbmRatesOrderAndTraining_18 : ∃ (r : Region) (s : State), s.dev.hbmState r.val = 2 :=
  ⟨7, at_ (d0.setFld (RGN_HBM_STAT_state 7) 2), by decide +kernel⟩

/-- States and operands that clause 19 of HbmRatesOrderAndTraining is about. -/
theorem test_HbmRatesOrderAndTraining_19 : ∃ (r : Region) (s : State), (s.dev.loader = 4 ∨ s.dev.loader = 5) ∧ s.dev.hbmState r.val < 2 ∧ bitOf (s.dev.fld (CHP_POPULATION_hbm s.dev.A)) r.val = true ∧ s.dev.mladus r.val = true :=
  ⟨7, at_ (d0.setLoader 4), by decide +kernel⟩

/-- States and operands that clause 20 of HbmRatesOrderAndTraining is about. -/
theorem test_HbmRatesOrderAndTraining_20 : ∃ (r : Region) (s : State), s.dev.hbmState r.val = 4 :=
  ⟨7, at_ (d0.setFld (RGN_HBM_STAT_state 7) 4), by decide +kernel⟩

/-- States and operands that clause 1 of FlitsAreAcceptedAcknowledgedAndReplayed is about. -/
theorem test_FlitsAreAcceptedAcknowledgedAndReplayed_1 : ∃ (r : Region) (m : Fin 6) (header x p : Nat) (errors heads : List Nat) (waiting : List (List (List Nat))) (s : State), s.dev.facing r.val m.val = some (x, p) ∧ (s.dev.mladus p = true → (s.dev.sentFlit (Dev.R p) (facingModule m.val) header heads waiting).isSome = true) ∧ flitType header = 1 ∧ s.dev.takesFlits r.val m.val = true ∧ (∀ e ∈ errors, e < 2) ∧ flitSeq header = (s.dev.link r m.val).expected :=
  ⟨1, 0, 2 ^ 124 + 10 * 2 ^ 100 + 10 * 2 ^ 96 + 2 * 2 ^ 92 + 2 * 2 ^ 88 + 2 * 2 ^ 84 + 2 * 2 ^ 80 + 2 * 2 ^ 76, 0, 0, [1], [0x21 * 2 ^ 58, 0x20 * 2 ^ 58 + 8 * 2 ^ 54], [[], [], [[8], [0]]], at_ ((((d0.setFld (RGN_CF_LINK_state 1 0) 2).setFld (RGN_CF_LINK_edge 1 0) 0).setFld (RGN_CF_LINK_peer 1 0) 0).modLink 0 2 fun x => { x with credits := [9, 9, 40, 9, 9, 9] }), by decide +kernel⟩

/-- States and operands that clause 2 of FlitsAreAcceptedAcknowledgedAndReplayed is about. -/
theorem test_FlitsAreAcceptedAcknowledgedAndReplayed_2 : ∃ (r : Region) (m : Fin 6) (header x p : Nat) (errors heads : List Nat) (waiting : List (List (List Nat))) (s : State), s.dev.facing r.val m.val = some (x, p) ∧ (s.dev.mladus p = true → (s.dev.sentFlit (Dev.R p) (facingModule m.val) header heads waiting).isSome = true) ∧ flitType header = 1 ∧ s.dev.takesFlits r.val m.val = true ∧ ((∃ e ∈ errors, 2 ≤ e) ∨ flitSeq header ≠ (s.dev.link r m.val).expected) :=
  ⟨1, 0, 2 ^ 124 + 7 * 2 ^ 100 + 7 * 2 ^ 96 + 7 * 2 ^ 92 + 7 * 2 ^ 88 + 7 * 2 ^ 84 + 7 * 2 ^ 80 + 7 * 2 ^ 76, 0, 0, [2], [], [], at_ ((((d0.setFld (RGN_CF_LINK_state 1 0) 2).setFld (RGN_CF_LINK_edge 1 0) 0).setFld (RGN_CF_LINK_peer 1 0) 0).modLink 0 2 fun x => { x with credits := [9, 9, 40, 9, 9, 9] }), by decide +kernel⟩

/-- States and operands that clause 3 of FlitsAreAcceptedAcknowledgedAndReplayed is about. -/
theorem test_FlitsAreAcceptedAcknowledgedAndReplayed_3 : ∃ (r : Region) (m : Fin 6) (header : Nat) (s : State), flitType header = 0 ∧ s.dev.takesFlits r.val m.val = true ∧ flitAckValid header = false :=
  ⟨1, 0, 2 ^ 72, at_ (((d0.setFld (RGN_CF_LINK_state 1 0) 2).setFld (RGN_CF_LINK_edge 1 0) 0).setFld (RGN_CF_LINK_peer 1 0) 0), by decide +kernel⟩

/-- States and operands that clause 4 of FlitsAreAcceptedAcknowledgedAndReplayed is about. -/
theorem test_FlitsAreAcceptedAcknowledgedAndReplayed_4 : ∃ (r : Region) (m : Fin 6) (header : Nat) (credits : List Nat) (s : State), flitType header = 3 ∧ credits.length = 6 ∧ s.dev.takesFlits r.val m.val = true ∧ (((s.dev.facing r.val m.val).map (fun x => s.dev.mladus x.2)).getD false = true → credits = mladusCredits) :=
  ⟨1, 0, 3 * 2 ^ 124, [32, 96, 160, 96, 32, 32], at_ (((d0.setFld (RGN_CF_LINK_state 1 0) 2).setFld (RGN_CF_LINK_edge 1 0) 0).setFld (RGN_CF_LINK_peer 1 0) 0), by decide +kernel⟩

/-- States and operands that clause 5 of FlitsAreAcceptedAcknowledgedAndReplayed is about. -/
theorem test_FlitsAreAcceptedAcknowledgedAndReplayed_5 : ∃ (r : Region) (m : Fin 6) (header time : Nat) (s : State), flitType header = 2 ∧ s.dev.takesFlits r.val m.val = true ∧ flitAckValid header = false ∧ (∀ f ∈ (s.dev.link r m.val).unacked, f.2 < 7) :=
  ⟨1, 0, 2 * 2 ^ 124, 0, at_ ((((d0.setFld (RGN_CF_LINK_state 1 0) 2).setFld (RGN_CF_LINK_edge 1 0) 0).setFld (RGN_CF_LINK_peer 1 0) 0).modLink 1 0 fun x => { x with unacked := [(3, 6)] }), by decide +kernel⟩

/-- States and operands that clause 6 of FlitsAreAcceptedAcknowledgedAndReplayed is about. -/
theorem test_FlitsAreAcceptedAcknowledgedAndReplayed_6 : ∃ (r : Region) (m : Fin 6) (header time : Nat) (s : State), flitType header = 2 ∧ s.dev.takesFlits r.val m.val = true ∧ flitAckValid header = false ∧ (∃ f ∈ (s.dev.link r m.val).unacked, 7 ≤ f.2) ∧ (s.dev.facing r.val m.val).isSome = true :=
  ⟨1, 0, 2 * 2 ^ 124, 0, at_ ((((d0.setFld (RGN_CF_LINK_state 1 0) 2).setFld (RGN_CF_LINK_edge 1 0) 0).setFld (RGN_CF_LINK_peer 1 0) 0).modLink 1 0 fun x => { x with unacked := [(3, 7)] }), by decide +kernel⟩

/-- States and operands that clause 1 of ModulesFailTrainAndFollowRequests is about. -/
theorem test_ModulesFailTrainAndFollowRequests_1 : ∃ (r : Region) (m : Fin 6) (time : Nat) (s : State), (s.dev.facing r.val m.val).isSome = true :=
  ⟨1, 0, 0, at_ (((d0.setFld (RGN_CF_LINK_state 1 0) 2).setFld (RGN_CF_LINK_edge 1 0) 0).setFld (RGN_CF_LINK_peer 1 0) 0), by decide +kernel⟩

/-- States and operands that clause 2 of ModulesFailTrainAndFollowRequests is about. -/
theorem test_ModulesFailTrainAndFollowRequests_2 : ∃ (r : Region) (m : Fin 6) (time : Nat) (s : State), s.dev.linkState r.val m.val = 2 ∧ s.dev.fld (RGN_CF_LINK_spares_used r.val m.val) < 4 :=
  ⟨1, 0, 0, at_ ((((d0.setFld (RGN_CF_LINK_state 1 0) 2).setFld (RGN_CF_LINK_edge 1 0) 0).setFld (RGN_CF_LINK_peer 1 0) 0).setFld (RGN_CF_LINK_spares_used 1 0) 3), by decide +kernel⟩

/-- States and operands that clause 3 of ModulesFailTrainAndFollowRequests is about. -/
theorem test_ModulesFailTrainAndFollowRequests_3 : ∃ (r : Region) (m : Fin 6) (time : Nat) (s : State), s.dev.linkState r.val m.val = 2 ∧ 4 ≤ s.dev.fld (RGN_CF_LINK_spares_used r.val m.val) ∧ (s.dev.facing r.val m.val).isSome = true :=
  ⟨1, 0, 0, at_ ((((d0.setFld (RGN_CF_LINK_state 1 0) 2).setFld (RGN_CF_LINK_edge 1 0) 0).setFld (RGN_CF_LINK_peer 1 0) 0).setFld (RGN_CF_LINK_spares_used 1 0) 4), by decide +kernel⟩

/-- States and operands that clause 4 of ModulesFailTrainAndFollowRequests is about. -/
theorem test_ModulesFailTrainAndFollowRequests_4 : ∃ (r : Region) (m : Fin 6) (spares time x p : Nat) (s : State), s.dev.facing r.val m.val = some (x, p) ∧ (s.dev.linkState r.val m.val = 1 ∨ s.dev.linkState r.val m.val = 3) ∧ spares ≤ 4 :=
  ⟨1, 0, 4, 0, 0, 0, at_ ((((d0.setFld (RGN_CF_LINK_state 1 0) 2).setFld (RGN_CF_LINK_edge 1 0) 0).setFld (RGN_CF_LINK_peer 1 0) 0).setFld (RGN_CF_LINK_state 1 0) 1), by decide +kernel⟩

/-- States and operands that clause 5 of ModulesFailTrainAndFollowRequests is about. -/
theorem test_ModulesFailTrainAndFollowRequests_5 : ∃ (r : Region) (m : Fin 6) (spares time x p : Nat) (s : State), s.dev.facing r.val m.val = some (x, p) ∧ (s.dev.linkState r.val m.val = 1 ∨ s.dev.linkState r.val m.val = 3) ∧ 4 < spares :=
  ⟨1, 0, 5, 0, 0, 0, at_ ((((d0.setFld (RGN_CF_LINK_state 1 0) 2).setFld (RGN_CF_LINK_edge 1 0) 0).setFld (RGN_CF_LINK_peer 1 0) 0).setFld (RGN_CF_LINK_state 1 0) 3), by decide +kernel⟩

/-- States and operands that clause 6 of ModulesFailTrainAndFollowRequests is about. -/
theorem test_ModulesFailTrainAndFollowRequests_6 : ∃ (r : Region) (m : Fin 6) (up : Bool) (s : State), (s.dev.facing r.val m.val).isSome = true :=
  ⟨1, 0, false, at_ (((d0.setFld (RGN_CF_LINK_state 1 0) 2).setFld (RGN_CF_LINK_edge 1 0) 0).setFld (RGN_CF_LINK_peer 1 0) 0), by decide +kernel⟩

/-- States and operands that clause 7 of ModulesFailTrainAndFollowRequests is about. -/
theorem test_ModulesFailTrainAndFollowRequests_7 : ∃ (r : Region) (m : Fin 6) (up : Bool) (s : State), s.dev.facing r.val m.val = none :=
  ⟨1, 0, false, at_ ((((d0.setFld (RGN_CF_LINK_state 1 0) 2).setFld (RGN_CF_LINK_edge 1 0) 0).setFld (RGN_CF_LINK_peer 1 0) 0).setFld (RGN_CF_LINK_edge 1 0) 15), by decide +kernel⟩

/-- States and operands that clause 8 of ModulesFailTrainAndFollowRequests is about. -/
theorem test_ModulesFailTrainAndFollowRequests_8 : ∃ (r : Region) (m : Fin 6) (allow : Bool) (x p : Nat) (s : State), s.dev.facing r.val m.val = some (x, p) ∧ s.dev.guest p = true :=
  ⟨1, 0, true, 0, 0, at_ ((((d0.setFld (RGN_CF_LINK_state 1 0) 2).setFld (RGN_CF_LINK_edge 1 0) 0).setFld (RGN_CF_LINK_peer 1 0) 0).setFld (CHP_POPULATION_guest 0) 1), by decide +kernel⟩

/-- States and operands that clause 9 of ModulesFailTrainAndFollowRequests is about. -/
theorem test_ModulesFailTrainAndFollowRequests_9 : ∃ (r : Region) (m : Fin 6) (allow : Bool) (x p : Nat) (s : State), s.dev.facing r.val m.val = some (x, p) ∧ s.dev.guest p = false :=
  ⟨1, 0, true, 0, 0, at_ (((d0.setFld (RGN_CF_LINK_state 1 0) 2).setFld (RGN_CF_LINK_edge 1 0) 0).setFld (RGN_CF_LINK_peer 1 0) 0), by decide +kernel⟩

/-- States and operands that clause 1 of RequestsAreServedAtTheirTarget is about. -/
theorem test_RequestsAreServedAtTheirTarget_1 : ∃ (r src : Region) (b : Block) (x len hint tag : Nat) (s : State), s.dev.guest r.val = false ∧ s.dev.guest src.val = false ∧ 0 < len ∧ len ≤ 256 ∧ x + len ≤ s.dev.secBase r.val b.val ∧ s.dev.blockState r.val b.val = 0 ∧ (∀ i < len, s.dev.poisoned (padAddr r.val b.val x + i) = false) ∧ s.dev.inTurn src.val r.val (.rd (padAddr r.val b.val x) len 0 hint tag) = true ∧ s.dev.rspRoom r src (.rdData .ok tag (List.replicate len 0)) = true :=
  ⟨7, 0, 15, 0x1FFFFF, 1, 0, 4095, at_ d0, by decide +kernel⟩

/-- States and operands that clause 2 of RequestsAreServedAtTheirTarget is about. -/
theorem test_RequestsAreServedAtTheirTarget_2 : ∃ (r src : Region) (addr len holder hint tag : Nat) (s : State), (len = 0 ∨ 256 < len) ∧ s.dev.inTurn src.val r.val (.rd addr len holder hint tag) = true :=
  ⟨7, 0, 0, 257, 0, 0, 0, at_ d0, by decide +kernel⟩

/-- States and operands that clause 3 of RequestsAreServedAtTheirTarget is about. -/
theorem test_RequestsAreServedAtTheirTarget_3 : ∃ (r src : Region) (addr len holder hint tag : Nat) (s : State), 1 ≤ len ∧ len ≤ 256 ∧ s.dev.inTurn src.val r.val (.rd addr len holder hint tag) = true ∧ s.dev.rspRoom r src (.rdData .ok tag (List.replicate len 0)) = false :=
  ⟨1, 0, 0, 256, 0, 0, 0, at_ (((((d0.firstRoute 1).setFld (RGN_CF_LINK_state 1 0) 2).setFld (RGN_CF_LINK_edge 1 0) 0).setFld (RGN_CF_LINK_peer 1 0) 0).modLink 1 0 fun x => { x with credits := [0, 0, 24, 0, 0, 0] }), by decide +kernel⟩

/-- States and operands that clause 4 of RequestsAreServedAtTheirTarget is about. -/
theorem test_RequestsAreServedAtTheirTarget_4 : ∃ (r src : Region) (b : Block) (x len hint tag : Nat) (data : List Byte) (s : State), s.dev.guest r.val = false ∧ s.dev.guest src.val = false ∧ 0 < len ∧ len ≤ 256 ∧ x + len ≤ s.dev.secBase r.val b.val ∧ s.dev.blockState r.val b.val = 0 ∧ data.length = len ∧ (∀ i < len, s.dev.poisoned (padAddr r.val b.val x + i) = false) ∧ s.dev.inTurn src.val r.val (.wr (padAddr r.val b.val x) len 0 hint tag data) = true ∧ s.dev.rspRoom r src (.wrAck .ok tag) = true :=
  ⟨7, 0, 15, 0x1FFFFE, 2, 0, 4095, [1, 2], at_ d0, by decide +kernel⟩

/-- States and operands that clause 5 of RequestsAreServedAtTheirTarget is about. -/
theorem test_RequestsAreServedAtTheirTarget_5 : ∃ (r src : Region) (b : Block) (x hint tag operand : Nat) (swap : Bool) (s : State), s.dev.guest r.val = false ∧ s.dev.guest src.val = false ∧ x % 4 = 0 ∧ x + 4 ≤ s.dev.secBase r.val b.val ∧ s.dev.blockState r.val b.val = 0 ∧ s.dev.poisoned (padAddr r.val b.val x) = false ∧ operand < 2 ^ 32 ∧ s.dev.inTurn src.val r.val (.amo swap (padAddr r.val b.val x) 0 hint tag operand) = true ∧ s.dev.rspRoom r src (.amoData .ok tag 0) = true :=
  ⟨7, 0, 15, 0x1FFFFC, 0, 0, 0xFFFFFFFF, false, at_ d0, by decide +kernel⟩

/-- States and operands that clause 6 of RequestsAreServedAtTheirTarget is about. -/
theorem test_RequestsAreServedAtTheirTarget_6 : ∃ (r src : Region) (addr len holder hint tag : Nat) (l m : List Flight) (s : State), s.dev.wire = l ++ ⟨src.val, r.val, .rd addr len holder hint tag⟩ :: m ∧ (∀ f ∈ l, ¬ (f.src = src.val ∧ f.dst = r.val)) :=
  ⟨7, 0, 0, 1, 0, 0, 9, [], [], at_ { d0 with wire := [⟨0, 7, .rd 0 1 0 0 9⟩] }, by decide +kernel⟩

/-- States and operands that clause 1 of ResponsesCompleteTheirRequests is about. -/
theorem test_ResponsesCompleteTheirRequests_1 : ∃ (r src : Region) (tag dst k rd width : Nat) (signed fence : Bool) (pc addr : Word) (data : List Byte) (s : State), (s.dev.g r).requests.find? (fun q => q.tag == tag) = some ⟨tag, dst, .load k rd width signed fence pc addr⟩ ∧ rd ≠ 0 ∧ s.dev.inTurn src.val r.val (.rdData .ok tag data) = true :=
  ⟨7, 0, 9, 0, 30000, 31, 1, true, false, 0, 0, [0x80], at_ (d0.modR 7 fun g => { g with requests := [⟨9, 0, .load 30000 31 1 true false 0 0⟩] }), by decide +kernel⟩

/-- States and operands that clause 2 of ResponsesCompleteTheirRequests is about. -/
theorem test_ResponsesCompleteTheirRequests_2 : ∃ (r src : Region) (tag dst k rd previous : Nat) (order : Bool) (pc addr : Word) (s : State), (s.dev.g r).requests.find? (fun q => q.tag == tag) = some ⟨tag, dst, .amo k rd order pc addr⟩ ∧ rd ≠ 0 ∧ previous < 2 ^ 32 ∧ s.dev.inTurn src.val r.val (.amoData .ok tag previous) = true :=
  ⟨7, 0, 9, 0, 30000, 31, 0xFFFFFFFF, true, 0, 0, at_ (d0.modR 7 fun g => { g with requests := [⟨9, 0, .amo 30000 31 true 0 0⟩] }), by decide +kernel⟩

/-- States and operands that clause 3 of ResponsesCompleteTheirRequests is about. -/
theorem test_ResponsesCompleteTheirRequests_3 : ∃ (r src : Region) (tag dst k : Nat) (fence : Bool) (pc addr : Word) (s : State), (s.dev.g r).requests.find? (fun q => q.tag == tag) = some ⟨tag, dst, .store k fence pc addr⟩ ∧ s.dev.inTurn src.val r.val (.wrAck .ok tag) = true :=
  ⟨7, 0, 9, 0, 30000, true, 0, 0, at_ (d0.modR 7 fun g => { g with requests := [⟨9, 0, .store 30000 true 0 0⟩] }), by decide +kernel⟩

/-- States and operands that clause 4 of ResponsesCompleteTheirRequests is about. -/
theorem test_ResponsesCompleteTheirRequests_4 : ∃ (r src : Region) (st : Status) (tag previous : Nat) (data : List Byte) (c : Instr) (m : Msg) (s : State), (∀ q ∈ (s.dev.g r).requests, q.tag ≠ tag) ∧ (c, m) ∈ [(Instr.rdData r src st tag data, Msg.rdData st tag data), (.wrAck r src st tag, .wrAck st tag), (.amoData r src st tag previous, .amoData st tag previous)] ∧ s.dev.inTurn src.val r.val (m) = true :=
  ⟨7, 0, .ok, 9, 0, [], .wrAck 7 0 .ok 9, .wrAck .ok 9, at_ d0, by decide +kernel⟩

/-- States and operands that clause 5 of ResponsesCompleteTheirRequests is about. -/
theorem test_ResponsesCompleteTheirRequests_5 : ∃ (r : Region) (tag dst ep : Nat) (s : State), (s.dev.g r).requests.find? (fun q => q.tag == tag) = some ⟨tag, dst, .hostRead ep⟩ ∧ ep < 2 :=
  ⟨7, 9, 0, 1, at_ (d0.modR 7 fun g => { g with requests := [⟨9, 0, .hostRead 1⟩] }), by decide +kernel⟩

/-- States and operands that clause 6 of ResponsesCompleteTheirRequests is about. -/
theorem test_ResponsesCompleteTheirRequests_6 : ∃ (ep : Endpoint) (addr len : Nat) (s : State), s.dev.mode = .load ∧ 0 < len ∧ addr + len ≤ 0x2000000 :=
  ⟨1, 0x1FFFFFF, 1, at_ d0, by decide +kernel⟩

/-- States and operands that clause 7 of ResponsesCompleteTheirRequests is about. -/
theorem test_ResponsesCompleteTheirRequests_7 : ∃ (ep : Endpoint) (addr : Nat) (data : List Byte) (s : State), s.dev.mode = .load ∧ data ≠ [] ∧ addr + data.length ≤ 0x2000000 ∧ s.dev.imageOpen = true :=
  ⟨1, 0x1FFFFFF, [7], at_ (d0.setLoader 2), by decide +kernel⟩

/-- States and operands that clause 8 of ResponsesCompleteTheirRequests is about. -/
theorem test_ResponsesCompleteTheirRequests_8 : ∃ (ep : Endpoint) (addr len : Nat) (s : State), s.dev.mode ≠ .load ∧ (∀ n < 16, s.dev.on (CHP_B2W_CTL_enable s.dev.A ep.val n) = false) :=
  ⟨1, 0x3FFFFFFF, 4, at_ (d0.setFld (CHP_MODE_STAT_effective 0) 1), by decide +kernel⟩

/-- States and operands that clause 1 of FramesAreCountedOrStamped is about. -/
theorem test_FramesAreCountedOrStamped_1 : ∃ (r : Region) (p : Port) (frame : List Byte) (fcsOk fecBad : Bool) (corrected time ns sec : Nat) (s : State), s.dev.portTakes r p.val = false :=
  ⟨7, 7, [], true, false, 0, 0, 0, 0, at_ d0, by decide +kernel⟩

/-- States and operands that clause 2 of FramesAreCountedOrStamped is about. -/
theorem test_FramesAreCountedOrStamped_2 : ∃ (r : Region) (p : Port) (frame : List Byte) (fcsOk fecBad : Bool) (corrected time ns sec : Nat) (s : State), s.dev.portTakes r p.val = true ∧ frame.length < 60 :=
  ⟨7, 7, [], true, true, 9, 0, 0, 0, at_ up7, by decide +kernel⟩

/-- States and operands that clause 3 of FramesAreCountedOrStamped is about. -/
theorem test_FramesAreCountedOrStamped_3 : ∃ (r : Region) (p : Port) (frame : List Byte) (fcsOk fecBad : Bool) (corrected time ns sec : Nat) (s : State), s.dev.portTakes r p.val = true ∧ 60 ≤ frame.length ∧ Dev.macControl frame = false ∧ frame.length ≤ s.dev.fld (RGN_PORT_CFG_max_frame r.val p.val) ∧ (s.dev.g r).mode = .drain :=
  ⟨7, 7, List.replicate 60 0, true, true, 9, 0, 0, 0, at_ (up7.modR 7 fun g => { g with mode := .drain }), by decide +kernel⟩

/-- States and operands that clause 4 of FramesAreCountedOrStamped is about. -/
theorem test_FramesAreCountedOrStamped_4 : ∃ (r : Region) (p : Port) (frame : List Byte) (corrected time ns sec h : Nat) (s : State), s.dev.portTakes r p.val = true ∧ 60 ≤ frame.length ∧ Dev.macControl frame = false ∧ frame.length ≤ s.dev.fld (RGN_PORT_CFG_max_frame r.val p.val) ∧ (s.dev.g r).mode ≠ .drain ∧ (Dev.takeIn (s.dev.addSat (RGN_PORT_FEC_corrected r.val p.val) corrected) r p.val (s.dev.frameClass r p.val frame) frame.length).2 = .ok h ∧ (s.dev.g r).dispatch.pressed = false ∧ (s.dev.g r).dispatch.general < s.dev.generalPool r :=
  ⟨7, 7, List.replicate 60 0, 9, 8193, 0, 0, 7 * 2 ^ 29 + 9, at_ ((((up7.setFld (RGN_PORT_CFG_loopback 7 7) 1).modPool 7 fun p => { p with caches := [(14, [9])] }).setFld (RGN_BPM_QUOTA_quota 7 7) 1).setFld (RGN_PORT_CFG_max_frame 7 7) 60), by decide +kernel⟩

/-- States and operands that clause 1 of PassesAndTheirDeadlinesAreServed is about. -/
theorem test_PassesAndTheirDeadlinesAreServed_1 : ∃ (n : Nat) (p : Packet) (s : State), s.dev.pkt n = some p ∧ p.stage = .stamped ∧ s.dev.passNext (Dev.R p.region) n p = true ∧ s.dev.slotLeft (Dev.R p.region) = true :=
  ⟨0, pk .stamped, at_ (dp .stamped), by decide +kernel⟩

/-- States and operands that clause 2 of PassesAndTheirDeadlinesAreServed is about. -/
theorem test_PassesAndTheirDeadlinesAreServed_2 : ∃ (n : Nat) (p : Packet) (s : State), s.dev.pkt n = some p ∧ p.stage = .front ∧ s.dev.passNext (Dev.R p.region) n p = true ∧ s.dev.slotLeft (Dev.R p.region) = true ∧ (s.dev.g (Dev.R p.region)).front.recircUsed < s.dev.fld (RGN_RECIRC_CTL_share (Dev.R p.region).val) ∧ (s.dev.g (Dev.R p.region)).dispatch.recirc < s.dev.fld (RGN_DSP_CTL_recirc_reserve (Dev.R p.region).val) :=
  ⟨0, pk .front, at_ (((dp .front).setFld (RGN_RECIRC_CTL_share 7) 1).setFld (RGN_DSP_CTL_recirc_reserve 7) 1), by decide +kernel⟩

/-- States and operands that clause 3 of PassesAndTheirDeadlinesAreServed is about. -/
theorem test_PassesAndTheirDeadlinesAreServed_3 : ∃ (n : Nat) (p : Packet) (s : State), s.dev.pkt n = some p ∧ p.stage = .front ∧ s.dev.passNext (Dev.R p.region) n p = true ∧ s.dev.slotLeft (Dev.R p.region) = true ∧ s.dev.fld (RGN_RECIRC_CTL_share (Dev.R p.region).val) ≤ (s.dev.g (Dev.R p.region)).front.recircUsed :=
  ⟨0, pk .front, at_ ((dp .front).setFld (RGN_RECIRC_CTL_share 7) 0), by decide +kernel⟩

/-- States and operands that clause 1 of LookupsAndPlacementsReachTheirWorker is about. -/
theorem test_LookupsAndPlacementsReachTheirWorker_1 : ∃ (r : Region) (u : CtxId) (i : Nat) (bad : List Nat) (table result length : Nat) (key : List Byte) (s : State), (s.dev.ctx (Dev.ctxNo u)).outstanding[i]? = some (.lookup table key result length true) :=
  ⟨7, ⟨7, 15, 7, 15⟩, 0, [], 4095, 0x7FE0, 64, [], at_ (d0.modCtx 32751 fun c => { c with outstanding := [.lookup 4095 [] 0x7FE0 64 true] }), by decide +kernel⟩

/-- States and operands that clause 2 of LookupsAndPlacementsReachTheirWorker is about. -/
theorem test_LookupsAndPlacementsReachTheirWorker_2 : ∃ (r : Region) (n slot : Nat) (bad : List Nat) (p : Packet) (s : State), s.dev.pkt n = some p ∧ (∃ k ∈ p.lookups, k.slot = slot) :=
  ⟨7, 0, 3, [], { pk .lookups with lookups := [⟨3, 4095, []⟩] }, at_ (d0.setPkt 0 (some { pk .lookups with lookups := [⟨3, 4095, []⟩] })), by decide +kernel⟩

/-- States and operands that clause 3 of LookupsAndPlacementsReachTheirWorker is about. -/
theorem test_LookupsAndPlacementsReachTheirWorker_3 : ∃ (r : Region) (wait b q n k : Nat) (p : Packet) (s : State), s.dev.nextPlacement r = some (b, q, n, k) ∧ s.dev.pkt n = some p :=
  ⟨7, 5, 15, 255, 0, 32751, pk (.queued 255), at_ dq7, by decide +kernel⟩

/-- States and operands that clause 4 of LookupsAndPlacementsReachTheirWorker is about. -/
theorem test_LookupsAndPlacementsReachTheirWorker_4 : ∃ (n k : Nat) (p : Packet) (x : Placed) (s : State), s.dev.pkt n = some p ∧ p.stage = .placed k ∧ (s.dev.ctx k).placed.find? (·.pkt == n) = some x ∧ x.ready = false ∧ s.dev.frameFree k x = true :=
  ⟨0, 32751, pk (.placed 32751), ⟨0, 7, 0, false, false⟩, at_ ((dp (.placed 32751)).modCtx 32751 fun c => { c with placed := [⟨0, 7, 0, false, false⟩], mode := .fillWait, held := some 0 }), by decide +kernel⟩

/-- States and operands that clause 5 of LookupsAndPlacementsReachTheirWorker is about. -/
theorem test_LookupsAndPlacementsReachTheirWorker_5 : ∃ (u : CtxId) (x : Placed) (p : Packet) (s : State), s.dev.ctxRuns (Dev.ctxNo u) = true ∧ u.ctx.val ≠ 16 ∧ (s.dev.ctx (Dev.ctxNo u)).mode = .idle ∧ (s.dev.ctx (Dev.ctxNo u)).held = none ∧ s.dev.nextStart (Dev.ctxNo u) = some x ∧ s.dev.pkt x.pkt = some p :=
  ⟨⟨7, 15, 7, 15⟩, ⟨0, 0, 0, true, false⟩, pk (.placed 32751), at_ (((dp (.placed 32751)).setFld (BLK_CELL_RUN_run 7 15) 0x80).modCtx 32751 fun c => { c with mode := .idle, placed := [⟨0, 0, 0, true, false⟩] }), by decide +kernel⟩

/-- States and operands that clause 1 of ReleaseListsCloseAndCopiesSettle is about. -/
theorem test_ReleaseListsCloseAndCopiesSettle_1 : ∃ (r src : Region) (x : ReleaseRec) (s : State), x.transit ≠ 0 ∧ Dev.tickAfter (Dev.releaseAt x) (s.dev.g r).tick = true ∧ s.dev.inTurn src.val r.val (.releaseRec x) = true :=
  ⟨7, 0, rec0, at_ d0, by decide +kernel⟩

/-- States and operands that clause 2 of ReleaseListsCloseAndCopiesSettle is about. -/
theorem test_ReleaseListsCloseAndCopiesSettle_2 : ∃ (r src : Region) (x : ReleaseRec) (s : State), x.transit ≠ 0 ∧ Dev.tickAfter (Dev.releaseAt x) (s.dev.g r).tick = false ∧ ((s.dev.g r).egress.closed = true ∨ Dev.releaseAt x ≠ (s.dev.g r).tick) ∧ s.dev.inTurn src.val r.val (.releaseRec x) = true :=
  ⟨7, 0, rec0, at_ (d0.modR 7 fun g => { g with tick := 1, egress := { g.egress with closed := true } }), by decide +kernel⟩

/-- States and operands that clause 3 of ReleaseListsCloseAndCopiesSettle is about. -/
theorem test_ReleaseListsCloseAndCopiesSettle_3 : ∃ (r src : Region) (s : State), src.val ∉ (s.dev.g r).egress.markers ∧ (∃ q ∈ s.dev.others r, s.dev.fenced q.val = false ∧ q ≠ src ∧ q.val ∉ (s.dev.g r).egress.markers) ∧ s.dev.inTurn src.val r.val (.releaseMark (s.dev.g r).tick) = true :=
  ⟨7, 0, at_ d0, by decide +kernel⟩

/-- States and operands that clause 4 of ReleaseListsCloseAndCopiesSettle is about. -/
theorem test_ReleaseListsCloseAndCopiesSettle_4 : ∃ (r src : Region) (s : State), (s.dev.g r).egress.closed = false ∧ (∀ q ∈ s.dev.others r, s.dev.fenced q.val = false → q ≠ src → q.val ∈ (s.dev.g r).egress.markers) ∧ s.dev.inTurn src.val r.val (.releaseMark (s.dev.g r).tick) = true :=
  ⟨7, 0, at_ (d0.modR 7 fun g => { g with egress := { g.egress with markers := [1, 2, 3, 4, 5, 6] } }), by decide +kernel⟩

/-- States and operands that clause 5 of ReleaseListsCloseAndCopiesSettle is about. -/
theorem test_ReleaseListsCloseAndCopiesSettle_5 : ∃ (r src : Region) (shutter : Nat) (s : State), shutter ≠ (s.dev.g r).tick ∧ s.dev.inTurn src.val r.val (.releaseMark shutter) = true :=
  ⟨7, 0, 1, at_ d0, by decide +kernel⟩

/-- States and operands that clause 6 of ReleaseListsCloseAndCopiesSettle is about. -/
theorem test_ReleaseListsCloseAndCopiesSettle_6 : ∃ (r : Region) (stamp : Stamp) (copy h : Nat) (poisoned : Bool) (c : Copyout) (p : Packet) (s : State), s.dev.copyout r stamp copy = some c ∧ s.dev.pkt c.record.pkt = some p ∧ c.mirror = false ∧ c.head = none ∧ c.outcome = none ∧ s.dev.rewriteDue r c = true ∧ s.dev.rewriteNext r c = true ∧ (s.dev.makeHead r p c.rewrite c.shared).2 = some h :=
  ⟨7, ⟨56, 0, 0, 0, 0⟩, 0, 7 * 2 ^ 29 + 9, false, copy0, pk .verdict, at_ (((dp .verdict).modEgress 7 fun x => { x with copies := [copy0] }).modR 7 fun g => { g with tick := 1, pool :=
      { g.pool with desc := [(0, stitch 0x710)], caches := [(32, [9])] } }), by decide +kernel⟩

/-- States and operands that clause 7 of ReleaseListsCloseAndCopiesSettle is about. -/
theorem test_ReleaseListsCloseAndCopiesSettle_7 : ∃ (r src : Region) (outcome : Nat) (stamp : Stamp) (copy requester : Nat) (c : Copyout) (s : State), s.dev.copyout r stamp copy = some c ∧ c.mirror = false ∧ c.head = none ∧ outcome ≠ 2 ∧ s.dev.inTurn src.val r.val (.enqOutcome outcome stamp copy requester) = true :=
  ⟨7, 0, 1, ⟨56, 0, 0, 0, 0⟩, 0, 0, copy0, at_ ((dp .verdict).modEgress 7 fun x => { x with copies := [copy0] }), by decide +kernel⟩

/-- States and operands that clause 8 of ReleaseListsCloseAndCopiesSettle is about. -/
theorem test_ReleaseListsCloseAndCopiesSettle_8 : ∃ (r src : Region) (stamp : Stamp) (copy requester : Nat) (c : Copyout) (p : Packet) (s : State), s.dev.copyout r stamp copy = some c ∧ s.dev.pkt c.record.pkt = some p ∧ c.mirror = false ∧ s.dev.inTurn src.val r.val (.enqOutcome 2 stamp copy requester) = true :=
  ⟨7, 0, ⟨56, 0, 0, 0, 0⟩, 0, 0, copy0, pk .verdict, at_ ((dp .verdict).modEgress 7 fun x => { x with copies := [copy0] }), by decide +kernel⟩

/-- States and operands that clause 9 of ReleaseListsCloseAndCopiesSettle is about. -/
theorem test_ReleaseListsCloseAndCopiesSettle_9 : ∃ (r src : Region) (outcome : Nat) (stamp : Stamp) (copy requester h : Nat) (c : Copyout) (p : Packet) (s : State), s.dev.copyout r stamp copy = some c ∧ s.dev.pkt c.record.pkt = some p ∧ c.mirror = false ∧ c.head = some h ∧ outcome ≠ 2 ∧ c.record.host = false ∧ 1 < p.copies ∧ s.dev.held h = true ∧ (s.dev.desc h).owner = requesterId r.val reqPkt ∧ s.dev.inTurn src.val r.val (.enqOutcome outcome stamp copy requester) = true :=
  ⟨7, 0, 0, ⟨56, 0, 0, 0, 0⟩, 0, 0x71F, 7 * 2 ^ 29, { copy0 with head := some (7 * 2 ^ 29) }, { pk .verdict with copies := 2 }, at_ (((d0.setPkt 0 (some { pk .verdict with copies := 2 })).modEgress 7 fun x => { x with copies := [{ copy0 with head := some (7 * 2 ^ 29) }] }).setDesc (7 * 2 ^ 29) (stitch 0x710)), by decide +kernel⟩

/-- States and operands that clause 1 of FramesAreScheduledReadAndSent is about. -/
theorem test_FramesAreScheduledReadAndSent_1 : ∃ (r : Region) (queue : Nat) (stamp : Stamp) (copy h : Nat) (x : QueueEntry) (s : State), (s.dev.queue r queue).find? (fun x => (x.record.stamp == stamp && x.record.copy == copy) && x.spilling && x.ready) = some x ∧ ((s.dev.modEgress r fun g => { g with spillBacklog := g.spillBacklog - x.stitches }).alloc r reqSpill 1 (s.dev.fld (RGN_EQ_CFG_pfc_class r.val queue)) (Dev.stitchSizes (min (Dev.sentLength x) (s.dev.chainBytes 512 x.head 0).1.length))).2 = .ok h :=
  ⟨7, 4095, ⟨56, 0, 0, 0, 0⟩, 0, 7 * 2 ^ 29 + 2 ^ 28 + 9, { entry0 with spilling := true }, at_ (((d0.modEgress 7 fun x => { x with spillBacklog := 1, queues := [(4095, [{ entry0 with spilling := true }])] }).modPool 7 fun p =>
      { p with desc := [(0, stitch 0x71F)], caches := [(65, [9])] }).setFld (RGN_BPM_QUOTA_quota 7 0x20) 4), by decide +kernel⟩

/-- States and operands that clause 2 of FramesAreScheduledReadAndSent is about. -/
theorem test_FramesAreScheduledReadAndSent_2 : ∃ (r : Region) (p : Port) (q : Nat) (x : QueueEntry) (t : List QueueEntry) (s : State), s.dev.sending r p.val = none ∧ (s.dev.unit r 1 p.val).effective ≠ 0 ∧ s.dev.linkUp r p.val = true ∧ s.dev.portTrades r p.val = true ∧ (∀ k ∈ s.dev.portQueues r p.val, ∀ y ∈ (s.dev.queue r k).head?, y.record.poisoned = false) ∧ (s.dev.nextQueue r p.val).map (·.2) = some q ∧ s.dev.queue r q = x :: t :=
  ⟨7, 0, 4095, entry0, [], at_ ((((((d0.modR 7 fun g => { g with ledger := [(65536, ⟨2, 0, 0, false⟩)] }).modEgress 7 fun x => { x with queues := [(4095, [entry0])] }).setOn
      (RGN_PORT_STAT_link_up 7 0)).setFld (RGN_PORT_CFG_loopback 7 0) 1).setOn (RGN_EG_CFG_enable 7 0)).modPool 7 fun p => { p with desc := [(0, stitch 0x718)] }), by decide +kernel⟩

/-- States and operands that clause 3 of FramesAreScheduledReadAndSent is about. -/
theorem test_FramesAreScheduledReadAndSent_3 : ∃ (r : Region) (p : Port) (ns sec : Nat) (x : Sending) (s : State), s.dev.sending r p.val = some x ∧ x.next = none ∧ x.bad = false :=
  ⟨7, 7, 0, 0, ⟨4095, entry0, none, 0, List.replicate 60 1, false⟩, at_ (d0.setSending 7 7 (some ⟨4095, entry0, none, 0, List.replicate 60 1, false⟩)), by decide +kernel⟩

/-- States and operands that clause 4 of FramesAreScheduledReadAndSent is about. -/
theorem test_FramesAreScheduledReadAndSent_4 : ∃ (r : Region) (p : Port) (ns sec : Nat) (x : Sending) (s : State), s.dev.sending r p.val = some x ∧ x.next = none ∧ x.bad = true :=
  ⟨7, 7, 0, 0, ⟨4095, entry0, none, 0, [], true⟩, at_ (d0.setSending 7 7 (some ⟨4095, entry0, none, 0, [], true⟩)), by decide +kernel⟩

/-- States and operands that clause 5 of FramesAreScheduledReadAndSent is about. -/
theorem test_FramesAreScheduledReadAndSent_5 : ∃ (r src : Region) (handle tag : Nat) (s : State), s.dev.inTurn src.val r.val (.bodyRd handle tag) = true ∧ s.dev.rspRoom r src (.bodyData .ok tag 0 (List.replicate 256 0)) = true :=
  ⟨7, 0, 7 * 2 ^ 29, 9, at_ d0, by decide +kernel⟩

/-- States and operands that clause 6 of FramesAreScheduledReadAndSent is about. -/
theorem test_FramesAreScheduledReadAndSent_6 : ∃ (r src : Region) (tag descriptor dst p : Nat) (data : List Byte) (x : Sending) (s : State), (s.dev.g r).requests.find? (fun q => q.tag == tag) = some ⟨tag, dst, .body p⟩ ∧ s.dev.sending r p = some x ∧ bitOf descriptor 62 = true ∧ s.dev.inTurn src.val r.val (.bodyData .ok tag descriptor data) = true :=
  ⟨7, 0, 9, 2 ^ 62, 0, 7, [1], ⟨4095, entry0, none, 0, List.replicate 60 1, false⟩, at_ ((d0.setSending 7 7 (some ⟨4095, entry0, none, 0, List.replicate 60 1, false⟩)).modR 7 fun g => { g with requests := [⟨9, 0, .body 7⟩] }), by decide +kernel⟩

/-- States and operands that clause 1 of PausesStormsAndPortLinks is about. -/
theorem test_PausesStormsAndPortLinks_1 : ∃ (r : Region) (p : Port) (quanta : List (Nat × Nat)) (s : State), (quanta.map (·.1)).Nodup :=
  ⟨7, 7, [(7, 0x10001), (0, 0)], at_ d0, by decide +kernel⟩

/-- States and operands that clause 2 of PausesStormsAndPortLinks is about. -/
theorem test_PausesStormsAndPortLinks_2 : ∃ (r : Region) (p : Port) (cls : Nat) (s : State), (s.dev.pause r p.val cls).paused = true ∧ cls < 8 :=
  ⟨7, 7, 7, at_ (d0.setPause 7 7 7 ⟨true, 5, 0, 0, false, false⟩), by decide +kernel⟩

/-- States and operands that clause 3 of PausesStormsAndPortLinks is about. -/
theorem test_PausesStormsAndPortLinks_3 : ∃ (r : Region) (p : Port) (cls : Nat) (s : State), (s.dev.pause r p.val cls).paused = true ∧ (s.dev.pause r p.val cls).storm = false ∧ s.dev.fld (RGN_EP_PFC_storm_ticks r.val p.val) ≤ Dev.ticksAhead (s.dev.g r).tick (s.dev.pause r p.val cls).since :=
  ⟨7, 7, 7, at_ ((d0.setPause 7 7 7 ⟨true, 5, 0, 0, false, false⟩).modR 7 fun g => { g with tick := 0xFFFFF }), by decide +kernel⟩

/-- States and operands that clause 4 of PausesStormsAndPortLinks is about. -/
theorem test_PausesStormsAndPortLinks_4 : ∃ (r : Region) (p : Port) (cls : Nat) (s : State), (s.dev.pause r p.val cls).storm = true ∧ s.dev.fld (RGN_EP_PFC_storm_ticks r.val p.val) ≤ Dev.ticksAhead (s.dev.g r).tick (s.dev.pause r p.val cls).lastFrame ∧ cls < 8 :=
  ⟨7, 7, 7, at_ ((d0.setPause 7 7 7 ⟨false, 0, 0, 0, true, false⟩).modR 7 fun g => { g with tick := 0xFFFFF }), by decide +kernel⟩

/-- States and operands that clause 5 of PausesStormsAndPortLinks is about. -/
theorem test_PausesStormsAndPortLinks_5 : ∃ (r : Region) (p : Port) (s : State), s.dev.linkUp r p.val = true :=
  ⟨7, 7, at_ (d0.setOn (RGN_PORT_STAT_link_up 7 7)), by decide +kernel⟩

/-- States and operands that clause 6 of PausesStormsAndPortLinks is about. -/
theorem test_PausesStormsAndPortLinks_6 : ∃ (r : Region) (p : Port) (s : State), (s.dev.unit r 1 p.val).effective ≠ 0 ∧ s.dev.linkUp r p.val = false :=
  ⟨7, 7, at_ up7, by decide +kernel⟩

/-- States and operands that clause 7 of PausesStormsAndPortLinks is about. -/
theorem test_PausesStormsAndPortLinks_7 : ∃ (r : Region) (p : Port) (x : PtsEntry) (t : List PtsEntry) (s : State), s.dev.ptsFifo r p.val = x :: t :=
  ⟨7, 7, ⟨3, 1, 0xFFFF, 9, 9⟩, [], at_ (d0.setPts 7 7 [⟨3, 1, 0xFFFF, 9, 9⟩]), by decide +kernel⟩

/-- States and operands that clause 1 of PoolOperationsActOnChains is about. -/
theorem test_PoolOperationsActOnChains_1 : ∃ (r : Region) (l pool cls : Nat) (sizes : List Nat) (s : State), sizes ≠ [] ∧ sizes.length ≤ 64 ∧ (∀ n ∈ sizes, 0 < n ∧ n ≤ 256) ∧ allocates r.val l pool = true ∧ pool ≤ 1 ∧ s.dev.withinQuota r l sizes.length = true ∧ s.dev.aboveFloor r l pool = true ∧ sizes.length ≤ (s.dev.cache r l pool).length ∧ ((s.dev.cache r l pool).take sizes.length).Nodup ∧ (∀ i ∈ s.dev.cache r l pool, i < 2 ^ 25) :=
  ⟨7, 0x10, 0, 7, [256, 1], at_ (d0.modPool 7 fun p => { p with caches := [(32, [0x1FFFF, 0, 3])] }), by decide +kernel⟩

/-- States and operands that clause 2 of PoolOperationsActOnChains is about. -/
theorem test_PoolOperationsActOnChains_2 : ∃ (r : Region) (l pool cls : Nat) (sizes : List Nat) (s : State), sizes ≠ [] ∧ sizes.length ≤ 64 ∧ (∀ n ∈ sizes, 0 < n ∧ n ≤ 256) ∧ allocates r.val l pool = true ∧ s.dev.withinQuota r l sizes.length = false :=
  ⟨7, 7, 1, 7, [256], at_ (d0.setFld (RGN_BPM_QUOTA_quota 7 7) 0), by decide +kernel⟩

/-- States and operands that clause 3 of PoolOperationsActOnChains is about. -/
theorem test_PoolOperationsActOnChains_3 : ∃ (issuer h : Nat) (s : State), named issuer = true ∧ (s.dev.desc h).owner = issuer ∧ (s.dev.desc h).refcnt = 0 ∧ (∀ x ∈ h :: s.dev.chain 512 h, s.dev.held x = true) :=
  ⟨0x710, 7 * 2 ^ 29 + 2 ^ 25 - 1, at_ (d0.setDesc (7 * 2 ^ 29 + 2 ^ 25 - 1) { stitch 0x710 with refcnt := 0 }), by decide +kernel⟩

/-- States and operands that clause 4 of PoolOperationsActOnChains is about. -/
theorem test_PoolOperationsActOnChains_4 : ∃ (issuer h : Nat) (s : State), named issuer = true ∧ s.dev.held h = true ∧ (s.dev.desc h).owner = issuer ∧ (s.dev.desc h).refcnt ≠ 0 :=
  ⟨0x710, 7 * 2 ^ 29 + 2 ^ 25 - 1, at_ (d0.setDesc (7 * 2 ^ 29 + 2 ^ 25 - 1) { stitch 0x710 with refcnt := 255 }), by decide +kernel⟩

/-- States and operands that clause 5 of PoolOperationsActOnChains is about. -/
theorem test_PoolOperationsActOnChains_5 : ∃ (issuer h : Nat) (s : State), (named issuer = false ∨ (s.dev.held h = true ∧ (s.dev.desc h).owner ≠ issuer)) :=
  ⟨0x711, 7 * 2 ^ 29 + 2 ^ 25 - 1, at_ (d0.setDesc (7 * 2 ^ 29 + 2 ^ 25 - 1) { stitch 0x710 with refcnt := 255 }), by decide +kernel⟩

/-- States and operands that clause 6 of PoolOperationsActOnChains is about. -/
theorem test_PoolOperationsActOnChains_6 : ∃ (issuer h dest : Nat) (s : State), named issuer = true ∧ s.dev.held h = true ∧ (s.dev.desc h).owner = issuer :=
  ⟨0x710, 7 * 2 ^ 29 + 2 ^ 25 - 1, 0x71F, at_ (d0.setDesc (7 * 2 ^ 29 + 2 ^ 25 - 1) { stitch 0x710 with refcnt := 255 }), by decide +kernel⟩

/-- States and operands that clause 7 of PoolOperationsActOnChains is about. -/
theorem test_PoolOperationsActOnChains_7 : ∃ (issuer h : Nat) (s : State), privileged (issuer % 256) = true ∧ s.dev.held h = true ∧ (s.dev.desc h).refcnt ≠ 255 :=
  ⟨0x72A, 7 * 2 ^ 29 + 2 ^ 25 - 1, at_ (d0.setDesc (7 * 2 ^ 29 + 2 ^ 25 - 1) { stitch 0x710 with refcnt := 254 }), by decide +kernel⟩

/-- States and operands that clause 8 of PoolOperationsActOnChains is about. -/
theorem test_PoolOperationsActOnChains_8 : ∃ (issuer h : Nat) (s : State), privileged (issuer % 256) = true ∧ s.dev.held h = true ∧ 1 < (s.dev.desc h).refcnt :=
  ⟨0x729, 7 * 2 ^ 29 + 2 ^ 25 - 1, at_ (d0.setDesc (7 * 2 ^ 29 + 2 ^ 25 - 1) { stitch 0x710 with refcnt := 2 }), by decide +kernel⟩

/-- States and operands that clause 9 of PoolOperationsActOnChains is about. -/
theorem test_PoolOperationsActOnChains_9 : ∃ (issuer holder h : Nat) (s : State), 0x18 ≤ issuer % 256 ∧ issuer % 256 ≤ 0x20 ∧ privileged (holder % 256) = true ∧ s.dev.held h = true ∧ 1 < (s.dev.desc h).refcnt :=
  ⟨0x71F, 0x28, 7 * 2 ^ 29 + 2 ^ 25 - 1, at_ (d0.setDesc (7 * 2 ^ 29 + 2 ^ 25 - 1) { stitch 0x710 with refcnt := 255 }), by decide +kernel⟩

/-- States and operands that clause 10 of PoolOperationsActOnChains is about. -/
theorem test_PoolOperationsActOnChains_10 : ∃ (r src : Region) (kind h issuer holder : Nat) (s : State), (kind = 2 ∧ privileged (issuer % 256) = true ∨ kind = 3 ∧ 0x18 ≤ issuer % 256 ∧ issuer % 256 ≤ 0x20 ∧ privileged (holder % 256) = true) ∧ s.dev.held h = true ∧ 1 < (s.dev.desc h).refcnt ∧ s.dev.inTurn src.val r.val (.poolOp kind h issuer holder) = true :=
  ⟨7, 0, 3, 7 * 2 ^ 29 + 2 ^ 25 - 1, 0x71F, 0x28, at_ (d0.setDesc (7 * 2 ^ 29 + 2 ^ 25 - 1) { stitch 0x710 with refcnt := 255 }), by decide +kernel⟩

/-- States and operands that clause 11 of PoolOperationsActOnChains is about. -/
theorem test_PoolOperationsActOnChains_11 : ∃ (r src : Region) (h issuer holder : Nat) (s : State), named issuer = true ∧ (s.dev.desc h).owner = issuer ∧ (s.dev.desc h).refcnt = 0 ∧ (∀ x ∈ h :: s.dev.chain 512 h, s.dev.held x = true) ∧ s.dev.inTurn src.val r.val (.poolOp 1 h issuer holder) = true :=
  ⟨7, 0, 7 * 2 ^ 29 + 2 ^ 25 - 1, 0x710, 0, at_ (d0.setDesc (7 * 2 ^ 29 + 2 ^ 25 - 1) { stitch 0x710 with refcnt := 0 }), by decide +kernel⟩

/-- States and operands that clause 12 of PoolOperationsActOnChains is about. -/
theorem test_PoolOperationsActOnChains_12 : ∃ (r : Region) (l pool : Nat) (s : State), allocates r.val l pool = true ∧ (pool = 1 ∨ l = 0x10 ∧ pool = 0) ∧ (s.dev.cache r l pool).length < 32 ∧ (∀ k < 8, k + 8 * ((s.dev.freeList r pool k).popped + 64 + (s.dev.g r).pool.lost.length) < min (2 ^ 25) (s.dev.poolSize r.val pool)) :=
  ⟨7, 0x10, 0, at_ d0, by decide +kernel⟩

/-- States and operands that clause 13 of PoolOperationsActOnChains is about. -/
theorem test_PoolOperationsActOnChains_13 : ∃ (r : Region) (l pool : Nat) (s : State), allocates r.val l pool = true ∧ 32 ≤ (s.dev.cache r l pool).length :=
  ⟨7, 7, 1, at_ (d0.modPool 7 fun p => { p with caches := [(15, List.replicate 32 0)] }), by decide +kernel⟩

/-- States and operands that clause 14 of PoolOperationsActOnChains is about. -/
theorem test_PoolOperationsActOnChains_14 : ∃ (issuer holder h dest : Nat) (c : Instr) (s : State), s.dev.withdrawn h = false ∧ c ∈ [Instr.free issuer h true, .handover issuer h dest true, .addref issuer h true, .deref issuer h true, .returnRef issuer holder h true] :=
  ⟨0x710, 0x28, 7 * 2 ^ 29 + 2 ^ 25 - 1, 0, .deref 0x710 (7 * 2 ^ 29 + 2 ^ 25 - 1) true, at_ (d0.setDesc (7 * 2 ^ 29 + 2 ^ 25 - 1) { stitch 0x710 with refcnt := 1 }), by decide +kernel⟩

/-- States and operands that clause 15 of PoolOperationsActOnChains is about. -/
theorem test_PoolOperationsActOnChains_15 : ∃ (r src : Region) (kind h issuer holder : Nat) (s : State), s.dev.withdrawn h = false ∧ 1 ≤ kind ∧ kind ≤ 3 ∧ s.dev.inTurn src.val r.val (.poolOp kind h issuer holder) = true :=
  ⟨7, 0, 3, 7 * 2 ^ 29 + 2 ^ 25 - 1, 0x71F, 0x28, at_ (d0.setDesc (7 * 2 ^ 29 + 2 ^ 25 - 1) { stitch 0x710 with refcnt := 255 }), by decide +kernel⟩

/-- States and operands that clause 16 of PoolOperationsActOnChains is about. -/
theorem test_PoolOperationsActOnChains_16 : ∃ (r : Region) (l pool i : Nat) (s : State), allocates r.val l pool = true ∧ pool ≤ 1 ∧ i < s.dev.poolSize r.val pool ∧ i < 2 ^ 25 ∧ s.dev.withdrawn (handleOf r.val pool i) = false :=
  ⟨7, 7, 0, 131071, at_ (d0.modPool 7 fun p => { p with caches := [(14, List.replicate 32 131069)] }), by decide +kernel⟩

/-- States and operands that clause 1 of DoorbellsAndTransmitDescriptors is about. -/
theorem test_DoorbellsAndTransmitDescriptors_1 : ∃ (ep : Endpoint) (q : Fin 512) (pi : Fin 65536) (s : State), Dev.ringAhead pi.val (s.dev.fld (HST_QP_CI_tx_ci ep.val q.val)) ≤ 2 ^ s.dev.fld (HST_QP_CFG_tx_log ep.val q.val) :=
  ⟨1, 511, 1, at_ d0, by decide +kernel⟩

/-- States and operands that clause 2 of DoorbellsAndTransmitDescriptors is about. -/
theorem test_DoorbellsAndTransmitDescriptors_2 : ∃ (ep : Endpoint) (q : Fin 512) (pi : Fin 65536) (s : State), Dev.ringAhead pi.val (s.dev.fld (HST_QP_CI_rx_ci ep.val q.val)) ≤ 2 ^ s.dev.fld (HST_QP_CFG_rx_log ep.val q.val) :=
  ⟨1, 511, 1, at_ d0, by decide +kernel⟩

/-- States and operands that clause 3 of DoorbellsAndTransmitDescriptors is about. -/
theorem test_DoorbellsAndTransmitDescriptors_3 : ∃ (ep : Endpoint) (k : Fin 16) (pi : Fin 65536) (s : State), Dev.ringAhead pi.val (s.dev.fld (HST_UR_CI_ci ep.val k.val)) ≤ 2 ^ s.dev.fld (HST_UR_CFG_log ep.val k.val) :=
  ⟨1, 15, 1, at_ d0, by decide +kernel⟩

/-- States and operands that clause 4 of DoorbellsAndTransmitDescriptors is about. -/
theorem test_DoorbellsAndTransmitDescriptors_4 : ∃ (ep : Endpoint) (q : Fin 512) (k : Fin 16) (pi : Fin 65536) (c : Instr) (s : State), (c = .qpTxDoorbell ep q pi ∧ 2 ^ s.dev.fld (HST_QP_CFG_tx_log ep.val q.val) < Dev.ringAhead pi.val (s.dev.fld (HST_QP_CI_tx_ci ep.val q.val))
      ∨ c = .qpRxDoorbell ep q pi ∧ 2 ^ s.dev.fld (HST_QP_CFG_rx_log ep.val q.val) < Dev.ringAhead pi.val (s.dev.fld (HST_QP_CI_rx_ci ep.val q.val))
      ∨ c = .urDoorbell ep k pi ∧ 2 ^ s.dev.fld (HST_UR_CFG_log ep.val k.val) < Dev.ringAhead pi.val (s.dev.fld (HST_UR_CI_ci ep.val k.val))) :=
  ⟨1, 511, 15, 65535, .qpRxDoorbell 1 511 65535, at_ d0, by decide +kernel⟩

/-- States and operands that clause 5 of DoorbellsAndTransmitDescriptors is about. -/
theorem test_DoorbellsAndTransmitDescriptors_5 : ∃ (ep : Endpoint) (s : State), (s.dev.hostAdmits (endpointRegion ep) = false ∨ s.dev.hostSlot (endpointRegion ep) = false ∨ (s.dev.g (endpointRegion ep)).dispatch.pressed = true ∨ s.dev.generalPool (endpointRegion ep) ≤ (s.dev.g (endpointRegion ep)).dispatch.general) :=
  ⟨1, at_ d0, by decide +kernel⟩

/-- States and operands that clause 6 of DoorbellsAndTransmitDescriptors is about. -/
theorem test_DoorbellsAndTransmitDescriptors_6 : ∃ (ep : Endpoint) (q : Nat) (s : State), s.dev.hostAdmits (endpointRegion ep) = true ∧ s.dev.hostSlot (endpointRegion ep) = true ∧ (s.dev.g (endpointRegion ep)).dispatch.pressed = false ∧ (s.dev.g (endpointRegion ep)).dispatch.general < s.dev.generalPool (endpointRegion ep) ∧ Dev.ringTurn (s.dev.ep ep).txTurn ((s.dev.enabledPairs ep 31).filter (fun k => !((s.dev.ep ep).txBusy.map (·.1)).contains k && s.dev.txWork ep k != 0)) = some q :=
  ⟨1, 511, at_ tx7, by decide +kernel⟩

/-- States and operands that clause 7 of DoorbellsAndTransmitDescriptors is about. -/
theorem test_DoorbellsAndTransmitDescriptors_7 : ∃ (ep : Endpoint) (q : Fin 512) (time : Nat) (j : TxJob) (s : State), s.dev.txJob ep q.val = some j :=
  ⟨1, 511, 0, ⟨65535, 0, 64, 7⟩, at_ (d0.modEp 1 fun x => { x with txBusy := [(511, ⟨65535, 0, 64, 7⟩)] }), by decide +kernel⟩

/-- States and operands that clause 8 of DoorbellsAndTransmitDescriptors is about. -/
theorem test_DoorbellsAndTransmitDescriptors_8 : ∃ (ep : Endpoint) (q : Fin 512) (time h : Nat) (j : TxJob) (s : State), s.dev.txJob ep q.val = some j ∧ ((s.dev.modEp ep fun x => { x with txBusy := Sparse.drop x.txBusy q.val }).takeIn (endpointRegion ep) 8 j.tc j.length).2 = .ok h :=
  ⟨1, 511, 0, 4 * 2 ^ 29 + 9, ⟨65535, 0, 64, 7⟩, at_ (((d0.modEp 1 fun x => { x with txBusy := [(511, ⟨65535, 0, 64, 7⟩)] }).modPool 4 fun p => { p with caches := [(16, [9])] }).setFld (RGN_BPM_QUOTA_quota 4 8) 4), by decide +kernel⟩

/-- States and operands that clause 1 of ReceiveUpdateAndEndpointRings is about. -/
theorem test_ReceiveUpdateAndEndpointRings_1 : ∃ (ep : Endpoint) (q : Fin 512) (x : RxPkt) (t : List RxPkt) (plan : List (Nat × Nat)) (s : State), s.dev.rxQueue ep q.val = x :: t ∧ x.ready = true ∧ s.dev.on (HST_QP_CFG_rx_en ep.val q.val) = true ∧ (s.dev.chainBytes 512 x.record.head 0).2 = false ∧ x.record.poisoned = false ∧ s.dev.rxPlan ep q.val (s.dev.rxWork ep q.val) (s.dev.fld (HST_QP_CI_rx_ci ep.val q.val)) ((s.dev.chainBytes 512 x.record.head 0).1.take x.record.length).length = some plan :=
  ⟨1, 511, ⟨{ rec0 with head := 0, length := 1 }, 0, 0, 0, 0, true⟩, [], [(0, 1)], at_ ((((d0.modEp 1 fun x => { x with rxq := [(511, [⟨{ rec0 with head := 0, length := 1 }, 0, 0, 0, 0, true⟩])], producer := [(1023, 1)] }).setOn (HST_QP_CFG_rx_en 1 511)).setDesc 0 (stitch 0x42A)).setLE
      (d0.rxDesc 1 511 0 + 8) 2 64), by decide +kernel⟩

/-- States and operands that clause 2 of ReceiveUpdateAndEndpointRings is about. -/
theorem test_ReceiveUpdateAndEndpointRings_2 : ∃ (ep : Endpoint) (q : Fin 512) (x : RxPkt) (t : List RxPkt) (s : State), s.dev.rxQueue ep q.val = x :: t ∧ s.dev.rxHolds ep q.val x = false ∧ s.dev.fld (HST_QP_COAL_rx_hold ep.val q.val) ≤ Dev.ticksAhead (s.dev.g (endpointRegion ep)).tick x.since :=
  ⟨1, 511, ⟨{ rec0 with head := 0, length := 1 }, 0, 0, 0, 0, true⟩, [], at_ ((d0.modEp 1 fun x => { x with rxq := [(511, [⟨{ rec0 with head := 0, length := 1 }, 0, 0, 0, 0, true⟩])] }).modR 4 fun g => { g with tick := 0xFFFFF }), by decide +kernel⟩

/-- States and operands that clause 3 of ReceiveUpdateAndEndpointRings is about. -/
theorem test_ReceiveUpdateAndEndpointRings_3 : ∃ (ep : Endpoint) (time : Nat) (s : State), ((s.dev.g (endpointRegion ep)).mode.isRun = false ∨ s.dev.fenced (endpointRegion ep).val = true) :=
  ⟨1, 0, at_ d0, by decide +kernel⟩

/-- States and operands that clause 4 of ReceiveUpdateAndEndpointRings is about. -/
theorem test_ReceiveUpdateAndEndpointRings_4 : ∃ (ep : Endpoint) (time k : Nat) (s : State), (s.dev.g (endpointRegion ep)).mode.isRun = true ∧ s.dev.fenced (endpointRegion ep).val = false ∧ Dev.ringTurn (s.dev.ep ep).urTurn ((s.dev.enabledRings ep).filter (fun x => s.dev.urWork ep x != 0 && !Sparse.get (fun _ => false) (s.dev.ep ep).urBlocked x)) = some k :=
  ⟨1, 0, 15, at_ (((d0.modR 4 fun g => { g with mode := .strict }).modEp 1 fun x => { x with producer := [(0x100F, 1)] }).setOn (HST_UR_CFG_enable 1 15)), by decide +kernel⟩

/-- States and operands that clause 5 of ReceiveUpdateAndEndpointRings is about. -/
theorem test_ReceiveUpdateAndEndpointRings_5 : ∃ (ep : Endpoint) (q : Fin 512) (x : Nat × Nat) (s : State), (s.dev.ep ep).unsignalled.find? (·.1 == q.val) = some x ∧ s.dev.fld (HST_QP_COAL_coalesce ep.val q.val) ≤ Dev.ticksAhead (s.dev.g (endpointRegion ep)).tick x.2 :=
  ⟨1, 511, (511, 0), at_ ((d0.modEp 1 fun x => { x with unsignalled := [(511, 0)] }).modR 4 fun g => { g with tick := 0xFFFFF }), by decide +kernel⟩

/-- States and operands that clause 6 of ReceiveUpdateAndEndpointRings is about. -/
theorem test_ReceiveUpdateAndEndpointRings_6 : ∃ (ep : Endpoint) (gen width : Nat) (s : State), 1 ≤ gen ∧ gen ≤ 6 ∧ width ∈ [1, 2, 4, 8, 16] :=
  ⟨1, 6, 16, at_ d0, by decide +kernel⟩

/-- States and operands that clause 1 of MailboxQueriesAreAnswered is about. -/
theorem test_MailboxQueriesAreAnswered_1 : ∃ (ep : Endpoint) (n : Fin 32) (value : Word) (s : State), (value = 0 ∨ s.dev.mbState ep n.val ≠ 1) :=
  ⟨1, 31, 0, at_ d0, by decide +kernel⟩

/-- States and operands that clause 2 of MailboxQueriesAreAnswered is about. -/
theorem test_MailboxQueriesAreAnswered_2 : ∃ (ep : Endpoint) (n : Fin 32) (value : Word) (s : State), value ≠ 0 ∧ s.dev.mbState ep n.val = 1 ∧ s.dev.framesV1 = false ∧ s.dev.byte (mbCommand ep n.val) = 2 ∧ s.dev.le (mbCommand ep n.val + 4) 4 = value.toNat ∧ s.dev.fld (HST_MB_SEQ_expected ep.val n.val) = value.toNat ∧ s.dev.le (mbCommand ep n.val + 8) 4 ≤ 4064 ∧ bitOf (s.dev.byte (mbCommand ep n.val + 1)).toNat 0 = false ∧ knownOpcode (s.dev.le (mbCommand ep n.val + 2) 2) = true :=
  ⟨1, 31, 0xFFFFFFFF, at_ (((d0.setFld (HST_MB_STAT_state 1 31) 1).setFld (HST_MB_SEQ_expected 1 31) 0xFFFFFFFF).setLE (mbCommand 1 31) 8 0xFFFFFFFF00010002), by decide +kernel⟩

/-- States and operands that clause 3 of MailboxQueriesAreAnswered is about. -/
theorem test_MailboxQueriesAreAnswered_3 : ∃ (ep : Endpoint) (n : Fin 32) (elapsed : Nat) (s : State), s.dev.Waits ep n.val 0x0001 ∧ s.dev.mode ≠ .load :=
  ⟨1, 31, 0, at_ (mb7 0x0001 []), by decide +kernel⟩

/-- States and operands that clause 4 of MailboxQueriesAreAnswered is about. -/
theorem test_MailboxQueriesAreAnswered_4 : ∃ (ep : Endpoint) (n : Fin 32) (elapsed : Nat) (s : State), s.dev.Waits ep n.val 0x0002 ∧ s.dev.mode ≠ .load :=
  ⟨1, 31, 0, at_ (mb7 0x0002 []), by decide +kernel⟩

/-- States and operands that clause 5 of MailboxQueriesAreAnswered is about. -/
theorem test_MailboxQueriesAreAnswered_5 : ∃ (ep : Endpoint) (n : Fin 32) (elapsed : Nat) (s : State), s.dev.Waits ep n.val 0x0004 ∧ s.dev.mode ≠ .load ∧ 4 ≤ (s.dev.mail ep n.val).payload.length ∧ (∀ j ∈ s.dev.thody.jobs, j.num = payOf (s.dev.mail ep n.val).payload 0 4 → s.dev.jobLapsed j = true) :=
  ⟨1, 31, 0, at_ (mb7 0x0004 [255, 255, 255, 255]), by decide +kernel⟩

/-- States and operands that clause 6 of MailboxQueriesAreAnswered is about. -/
theorem test_MailboxQueriesAreAnswered_6 : ∃ (ep : Endpoint) (n : Fin 32) (elapsed : Nat) (j : Job) (s : State), s.dev.Waits ep n.val 0x0004 ∧ s.dev.mode ≠ .load ∧ 4 ≤ (s.dev.mail ep n.val).payload.length ∧ s.dev.thody.jobs.find? (fun j => j.num == payOf (s.dev.mail ep n.val).payload 0 4 && !s.dev.jobLapsed j) = some j :=
  ⟨1, 31, 0, ⟨1, 0, 0, 0, 0, .rejoin 7, 2, 0, 0, [], 0⟩, at_ { (mb7 0x0004 [1, 0, 0, 0]) with thody := ⟨[⟨1, 0, 0, 0, 0, .rejoin 7, 2, 0, 0, [], 0⟩], 2, none, 0⟩ }, by decide +kernel⟩

/-- States and operands that clause 7 of MailboxQueriesAreAnswered is about. -/
theorem test_MailboxQueriesAreAnswered_7 : ∃ (ep : Endpoint) (n : Fin 32) (elapsed : Nat) (s : State), s.dev.Waits ep n.val 0x0202 ∧ s.dev.mode ≠ .load ∧ 6 ≤ (s.dev.mail ep n.val).payload.length ∧ s.dev.unitOk (payOf (s.dev.mail ep n.val).payload 0 4) = none ∧ 1 ≤ payOf (s.dev.mail ep n.val).payload 4 2 ∧ payOf (s.dev.mail ep n.val).payload 4 2 ≤ 500 ∧ payOf (s.dev.mail ep n.val).payload 0 4 % 2 ^ 16 + payOf (s.dev.mail ep n.val).payload 4 2 ≤ unitLimit (payOf (s.dev.mail ep n.val).payload 0 4 / 2 ^ 28) :=
  ⟨1, 31, 0, at_ (mb7 0x0202 [0xFE, 0, 0, 0x6E, 2, 0]), by decide +kernel⟩

/-- States and operands that clause 8 of MailboxQueriesAreAnswered is about. -/
theorem test_MailboxQueriesAreAnswered_8 : ∃ (ep : Endpoint) (n : Fin 32) (elapsed : Nat) (units : List (Region × Nat)) (s : State), s.dev.Waits ep n.val 0x0203 ∧ s.dev.mode ≠ .load ∧ 1 ≤ (s.dev.mail ep n.val).payload.length ∧ (∀ q ∈ Dev.inMask (payOf (s.dev.mail ep n.val).payload 0 1), s.dev.mladus q.val = true) ∧ ((Dev.inMask (payOf (s.dev.mail ep n.val).payload 0 1)).flatMap (fun q => ((s.dev.g q).ledger.filter (fun x => x.2.mismatch != 0)).map (fun x => (q, x.1)))).take 500 = units :=
  ⟨1, 31, 0, [], at_ (mb7 0x0203 [0x81]), by decide +kernel⟩

/-- States and operands that clause 9 of MailboxQueriesAreAnswered is about. -/
theorem test_MailboxQueriesAreAnswered_9 : ∃ (ep : Endpoint) (n : Fin 32) (elapsed : Nat) (s : State), s.dev.Waits ep n.val 0x0303 ∧ s.dev.mode ≠ .load ∧ 8 ≤ (s.dev.mail ep n.val).payload.length ∧ s.dev.namedRegion (payOf (s.dev.mail ep n.val).payload 1 1) 1 = none ∧ payOf (s.dev.mail ep n.val).payload 2 1 = 1 ∧ (s.dev.table (Dev.R (payOf (s.dev.mail ep n.val).payload 1 1)) (payOf (s.dev.mail ep n.val).payload 0 1)).kind ∉ [0, 3, 4, 5] ∧ payOf (s.dev.mail ep n.val).payload 4 4 < (s.dev.table (Dev.R (payOf (s.dev.mail ep n.val).payload 1 1)) (payOf (s.dev.mail ep n.val).payload 0 1)).entries :=
  ⟨1, 31, 0, at_ ((mb7 0x0303 [255, 7, 1, 0, 0, 0, 0, 0]).modTables 7 fun t => { t with inEffect := [(255, ⟨0x90000000, 0x7FFFFFFF, 0, 0⟩)] }), by decide +kernel⟩

/-- States and operands that clause 10 of MailboxQueriesAreAnswered is about. -/
theorem test_MailboxQueriesAreAnswered_10 : ∃ (ep : Endpoint) (n : Fin 32) (elapsed : Nat) (t : TableDesc) (s : State), s.dev.Waits ep n.val 0x0304 ∧ s.dev.mode ≠ .load ∧ 10 ≤ (s.dev.mail ep n.val).payload.length ∧ s.dev.namedRegion (payOf (s.dev.mail ep n.val).payload 1 1) 1 = none ∧ s.dev.table (Dev.R (payOf (s.dev.mail ep n.val).payload 1 1)) (payOf (s.dev.mail ep n.val).payload 0 1) = t ∧ (t.kind = 9 ∨ t.kind = 10) ∧ 1 ≤ payOf (s.dev.mail ep n.val).payload 8 2 ∧ payOf (s.dev.mail ep n.val).payload 8 2 ≤ (if t.kind = 9 then 250 else 125) ∧ payOf (s.dev.mail ep n.val).payload 4 4 + payOf (s.dev.mail ep n.val).payload 8 2 ≤ t.entries :=
  ⟨1, 31, 0, ⟨0x90000000, 0x7FFFFFFF, 0, 0⟩, at_ ((mb7 0x0304 [255, 7, 0, 0, 0, 0, 0, 0, 1, 0]).modTables 7 fun t => { t with inEffect := [(255, ⟨0x90000000, 0x7FFFFFFF, 0, 0⟩)] }), by decide +kernel⟩

/-- States and operands that clause 11 of MailboxQueriesAreAnswered is about. -/
theorem test_MailboxQueriesAreAnswered_11 : ∃ (ep : Endpoint) (n : Fin 32) (elapsed : Nat) (b : List Byte) (s : State), s.dev.Waits ep n.val 0x0501 ∧ s.dev.mode ≠ .load ∧ 8 ≤ (s.dev.mail ep n.val).payload.length ∧ payOf (s.dev.mail ep n.val).payload 0 6 % 4 = 0 ∧ 1 ≤ payOf (s.dev.mail ep n.val).payload 6 2 ∧ payOf (s.dev.mail ep n.val).payload 6 2 ≤ 1000 ∧ s.dev.present (s.dev.resolve s.dev.A (payOf (s.dev.mail ep n.val).payload 0 6)).1 = true ∧ s.dev.fenced (s.dev.resolve s.dev.A (payOf (s.dev.mail ep n.val).payload 0 6)).1 = false ∧ (s.dev.mpReadWords (payOf (s.dev.mail ep n.val).payload 0 6) 0 (payOf (s.dev.mail ep n.val).payload 6 2)).2 = (.ok, b) :=
  ⟨1, 31, 0, [0, 0, 0, 0], at_ (mb7 0x0501 (bytesLE 6 (padAddr 0 15 0) ++ [1, 0])), by decide +kernel⟩

/-- States and operands that clause 12 of MailboxQueriesAreAnswered is about. -/
theorem test_MailboxQueriesAreAnswered_12 : ∃ (ep : Endpoint) (n : Fin 32) (elapsed : Nat) (h count : Nat) (s : State), s.dev.Waits ep n.val 0x0601 ∧ s.dev.mode ≠ .load ∧ 6 ≤ (s.dev.mail ep n.val).payload.length ∧ payOf (s.dev.mail ep n.val).payload 0 4 = h ∧ payOf (s.dev.mail ep n.val).payload 4 2 = count ∧ s.dev.namedRegion (handleRegion h) 0 = none ∧ h / 2 ^ 25 % 8 = 0 ∧ 1 ≤ count ∧ count ≤ 500 ∧ handleIndex h + count ≤ s.dev.poolSize (handleRegion h) (handlePool h) :=
  ⟨1, 31, 0, 7 * 2 ^ 29 + 0x1FFFF, 1, at_ (mb7 0x0601 (bytesLE 4 (7 * 2 ^ 29 + 0x1FFFF) ++ [1, 0])), by decide +kernel⟩

/-- States and operands that clause 13 of MailboxQueriesAreAnswered is about. -/
theorem test_MailboxQueriesAreAnswered_13 : ∃ (ep : Endpoint) (n : Fin 32) (elapsed : Nat) (q : Nat) (s : State), s.dev.Waits ep n.val 0x0602 ∧ s.dev.mode ≠ .load ∧ 1 ≤ (s.dev.mail ep n.val).payload.length ∧ payOf (s.dev.mail ep n.val).payload 0 1 = q ∧ s.dev.namedRegion q 0 = none :=
  ⟨1, 31, 0, 7, at_ (mb7 0x0602 [7]), by decide +kernel⟩

/-- States and operands that clause 14 of MailboxQueriesAreAnswered is about. -/
theorem test_MailboxQueriesAreAnswered_14 : ∃ (ep : Endpoint) (n : Fin 32) (elapsed : Nat) (q : Nat) (s : State), s.dev.Waits ep n.val 0x0703 ∧ s.dev.mode ≠ .load ∧ 10 ≤ (s.dev.mail ep n.val).payload.length ∧ payOf (s.dev.mail ep n.val).payload 0 1 = q ∧ s.dev.namedRegion q 0 = none ∧ 1 ≤ payOf (s.dev.mail ep n.val).payload 8 2 ∧ payOf (s.dev.mail ep n.val).payload 8 2 ≤ 63 ∧ (∀ i < payOf (s.dev.mail ep n.val).payload 8 2, s.dev.journalLine (Dev.R q) (payOf (s.dev.mail ep n.val).payload 4 4 + i) = none) :=
  ⟨1, 31, 0, 7, at_ (mb7 0x0703 [7, 0, 0, 0, 1, 0, 0, 0, 63, 0]), by decide +kernel⟩

/-- States and operands that clause 15 of MailboxQueriesAreAnswered is about. -/
theorem test_MailboxQueriesAreAnswered_15 : ∃ (ep : Endpoint) (n : Fin 32) (elapsed : Nat) (q l : Nat) (s : State), s.dev.Waits ep n.val 0x0703 ∧ s.dev.mode ≠ .load ∧ 10 ≤ (s.dev.mail ep n.val).payload.length ∧ payOf (s.dev.mail ep n.val).payload 0 1 = q ∧ s.dev.namedRegion q 0 = none ∧ payOf (s.dev.mail ep n.val).payload 8 2 = 1 ∧ s.dev.journalLine (Dev.R q) (payOf (s.dev.mail ep n.val).payload 4 4) = some l ∧ s.dev.le (jnlKey (Dev.R q).val l) 4 = payOf (s.dev.mail ep n.val).payload 4 4 ∧ s.dev.le (jnlKey (Dev.R q).val l + 60) 4 = crc32cOf (s.dev.bytes (jnlKey (Dev.R q).val l) 60) :=
  ⟨1, 31, 0, 7, 256, at_ (((((mb7 0x0703 [7, 0, 0, 0, 1, 0, 0, 0, 1, 0]).setFld (RGN_JNL_HEAD_number 7) 1).modJnl 7 fun j => { j with line := 257 }).setBytes (jnlKey 7 256) (bytesLE 60 1)).setLE (jnlKey 7 256 + 60) 4 (crc32cOf (bytesLE 60 1))), by decide +kernel⟩

/-- States and operands that clause 16 of MailboxQueriesAreAnswered is about. -/
theorem test_MailboxQueriesAreAnswered_16 : ∃ (ep : Endpoint) (n : Fin 32) (elapsed : Nat) (q : Nat) (s : State), s.dev.Waits ep n.val 0x0901 ∧ s.dev.mode ≠ .load ∧ 1 ≤ (s.dev.mail ep n.val).payload.length ∧ payOf (s.dev.mail ep n.val).payload 0 1 = q ∧ s.dev.guestOk q 0 = none :=
  ⟨1, 31, 0, 6, at_ ((mb7 0x0901 [6]).setFld (CHP_POPULATION_guest 0) 0x40), by decide +kernel⟩

/-- States and operands that clause 1 of MailboxSettingsTakeEffect is about. -/
theorem test_MailboxSettingsTakeEffect_1 : ∃ (ep : Endpoint) (n : Fin 32) (elapsed : Nat) (s : State), s.dev.Waits ep n.val 0x0003 ∧ s.dev.mode ≠ .load ∧ 12 ≤ (s.dev.mail ep n.val).payload.length ∧ payOf (s.dev.mail ep n.val).payload 8 1 = 0 :=
  ⟨1, 31, 0, at_ (mb7 0x0003 [0, 0, 0, 0, 0, 0, 0, 0, 0, 0, 0, 0]), by decide +kernel⟩

/-- States and operands that clause 2 of MailboxSettingsTakeEffect is about. -/
theorem test_MailboxSettingsTakeEffect_2 : ∃ (ep : Endpoint) (n : Fin 32) (elapsed : Nat) (s : State), s.dev.Waits ep n.val 0x0003 ∧ s.dev.mode ≠ .load ∧ 12 ≤ (s.dev.mail ep n.val).payload.length ∧ payOf (s.dev.mail ep n.val).payload 0 8 % 4096 = 0 ∧ 4 ≤ payOf (s.dev.mail ep n.val).payload 8 1 ∧ payOf (s.dev.mail ep n.val).payload 8 1 ≤ 12 ∧ payOf (s.dev.mail ep n.val).payload 10 2 < 2048 :=
  ⟨1, 31, 0, at_ (mb7 0x0003 [0, 16, 0, 0, 0, 0, 0, 0, 12, 0, 255, 7]), by decide +kernel⟩

/-- States and operands that clause 3 of MailboxSettingsTakeEffect is about. -/
theorem test_MailboxSettingsTakeEffect_3 : ∃ (ep : Endpoint) (n : Fin 32) (elapsed : Nat) (s : State), s.dev.Waits ep n.val 0x0101 ∧ s.dev.mode ≠ .load ∧ 10 ≤ (s.dev.mail ep n.val).payload.length ∧ payOf (s.dev.mail ep n.val).payload 0 1 ≤ 7 ∧ payOf (s.dev.mail ep n.val).payload 1 1 ≤ 1 ∧ if Mode.ofCode (payOf (s.dev.mail ep n.val).payload 0 1) = .lean then 1 ≤ payOf (s.dev.mail ep n.val).payload 8 2 ∧ payOf (s.dev.mail ep n.val).payload 8 2 ≤ 16 else payOf (s.dev.mail ep n.val).payload 8 2 = 0 ∧ s.dev.modeCause (Mode.ofCode (payOf (s.dev.mail ep n.val).payload 0 1)) (if payOf (s.dev.mail ep n.val).payload 1 1 = 1 then payOf (s.dev.mail ep n.val).payload 2 6 else (s.dev.tick + 2) % 2 ^ 48) (payOf (s.dev.mail ep n.val).payload 8 2) = none :=
  ⟨1, 31, 0, at_ ((mb7 0x0101 [1, 0, 0, 0, 0, 0, 0, 0, 0, 0]).setFld (CHP_MODE_STAT_effective 0) 7), by decide +kernel⟩

/-- States and operands that clause 4 of MailboxSettingsTakeEffect is about. -/
theorem test_MailboxSettingsTakeEffect_4 : ∃ (ep : Endpoint) (n : Fin 32) (elapsed : Nat) (s : State), s.dev.Waits ep n.val 0x0102 ∧ s.dev.mode = .configure ∧ 1 ≤ (s.dev.mail ep n.val).payload.length ∧ payOf (s.dev.mail ep n.val).payload 0 1 ≤ 3 :=
  ⟨1, 31, 0, at_ (mb7 0x0102 [3]), by decide +kernel⟩

/-- States and operands that clause 5 of MailboxSettingsTakeEffect is about. -/
theorem test_MailboxSettingsTakeEffect_5 : ∃ (ep : Endpoint) (n : Fin 32) (elapsed : Nat) (s : State), s.dev.Waits ep n.val 0x0103 ∧ s.dev.mode ≠ .load ∧ 16 ≤ (s.dev.mail ep n.val).payload.length ∧ payOf (s.dev.mail ep n.val).payload 6 4 < 10 ^ 9 ∧ Dev.snapAhead (payOf (s.dev.mail ep n.val).payload 10 6) s.dev.tick = true :=
  ⟨1, 31, 0, at_ (mb7 0x0103 [0, 0, 0, 0, 0, 0, 0, 0, 0, 0, 2, 0, 0, 0, 0, 0]), by decide +kernel⟩

/-- States and operands that clause 6 of MailboxSettingsTakeEffect is about. -/
theorem test_MailboxSettingsTakeEffect_6 : ∃ (ep : Endpoint) (n : Fin 32) (elapsed : Nat) (s : State), s.dev.Waits ep n.val 0x0104 ∧ s.dev.mode ≠ .load ∧ 12 ≤ (s.dev.mail ep n.val).payload.length ∧ payOf (s.dev.mail ep n.val).payload 0 1 ≤ 3 ∧ (bitOf (payOf (s.dev.mail ep n.val).payload 0 1) 1 = true → (Dev.signed32 (payOf (s.dev.mail ep n.val).payload 8 4)).natAbs ≤ 50000) :=
  ⟨1, 31, 0, at_ (mb7 0x0104 [3, 0, 0, 0, 255, 255, 255, 255, 0x50, 0xC3, 0, 0]), by decide +kernel⟩

/-- States and operands that clause 7 of MailboxSettingsTakeEffect is about. -/
theorem test_MailboxSettingsTakeEffect_7 : ∃ (ep : Endpoint) (n : Fin 32) (elapsed : Nat) (s : State), s.dev.Waits ep n.val 0x0201 ∧ s.dev.mode ≠ .load ∧ 6 ≤ (s.dev.mail ep n.val).payload.length ∧ s.dev.unitOk (payOf (s.dev.mail ep n.val).payload 0 4) = none ∧ payOf (s.dev.mail ep n.val).payload 0 4 / 2 ^ 28 = 4 ∧ payOf (s.dev.mail ep n.val).payload 4 1 = 0 ∧ payOf (s.dev.mail ep n.val).payload 5 1 = 0 ∧ s.dev.namedRegion (Dev.R (payOf (s.dev.mail ep n.val).payload 0 4 / 2 ^ 25)).val 0 = none :=
  ⟨1, 31, 0, at_ (mb7 0x0201 [0, 0, 0, 0x4E, 0, 0]), by decide +kernel⟩

/-- States and operands that clause 8 of MailboxSettingsTakeEffect is about. -/
theorem test_MailboxSettingsTakeEffect_8 : ∃ (ep : Endpoint) (n : Fin 32) (elapsed : Nat) (s : State), s.dev.Waits ep n.val 0x0301 ∧ s.dev.mode.isOpen = true ∧ 20 ≤ (s.dev.mail ep n.val).payload.length ∧ s.dev.anchorSt.rejoin = none ∧ (∀ q, q ∈ s.dev.standing → (s.dev.descWrite q (payOf (s.dev.mail ep n.val).payload 0 1) ⟨BitVec.ofNat 32 (payOf (s.dev.mail ep n.val).payload 4 4), BitVec.ofNat 32 (payOf (s.dev.mail ep n.val).payload 8 4), BitVec.ofNat 32 (payOf (s.dev.mail ep n.val).payload 12 4), BitVec.ofNat 32 (payOf (s.dev.mail ep n.val).payload 16 4)⟩).2 = true) :=
  ⟨1, 31, 0, at_ { (mb7 0x0301 (255 :: List.replicate 19 0)) with rgn := d0.rgn.map fun g => { g with mode := .configure } }, by decide +kernel⟩

/-- States and operands that clause 9 of MailboxSettingsTakeEffect is about. -/
theorem test_MailboxSettingsTakeEffect_9 : ∃ (ep : Endpoint) (n : Fin 32) (elapsed : Nat) (time : Nat) (s : State), s.dev.Waits ep n.val 0x0302 ∧ s.dev.mode.isRun = true ∧ 96 ≤ (s.dev.mail ep n.val).payload.length ∧ s.dev.recordOk (endpointRegion ep) (Dev.hostRecord ((s.dev.mail ep n.val).payload.take 96) 5 (0x40 + ep.val) time) (Mut.reservedOf ((s.dev.mail ep n.val).payload.take 96)) = true ∧ (s.dev.stage (endpointRegion ep) (Dev.hostRecord ((s.dev.mail ep n.val).payload.take 96) 5 (0x40 + ep.val) time) (.mailbox ep.val n.val (s.dev.mail ep n.val).seq)).2 = true :=
  ⟨1, 31, 0, 0, at_ (((mb7 0x0302 (0x60 :: List.replicate 95 0)).setFld (CHP_MODE_STAT_effective 0) 2).modTables 4 fun t => { t with inEffect := [(0, ⟨0x10000000, 0, 0, 0⟩)] }), by decide +kernel⟩

/-- States and operands that clause 10 of MailboxSettingsTakeEffect is about. -/
theorem test_MailboxSettingsTakeEffect_10 : ∃ (ep : Endpoint) (n : Fin 32) (elapsed : Nat) (q : Region) (t : TableDesc) (s : State), s.dev.Waits ep n.val 0x0305 ∧ s.dev.mode ≠ .load ∧ 24 ≤ (s.dev.mail ep n.val).payload.length ∧ payOf (s.dev.mail ep n.val).payload 1 1 = q.val ∧ s.dev.namedRegion q.val 1 = none ∧ s.dev.table q (payOf (s.dev.mail ep n.val).payload 0 1) = t ∧ t.kind = 9 ∧ 8 + t.slotSize ≤ (s.dev.mail ep n.val).payload.length ∧ payOf (s.dev.mail ep n.val).payload 4 4 < t.entries :=
  ⟨1, 31, 0, 7, ⟨0x90000000, 0x7FFFFFFF, 0, 0⟩, at_ ((mb7 0x0305 (255 :: 7 :: List.replicate 22 0)).modTables 7 fun t => { t with inEffect := [(255, ⟨0x90000000, 0x7FFFFFFF, 0, 0⟩)] }), by decide +kernel⟩

/-- States and operands that clause 11 of MailboxSettingsTakeEffect is about. -/
theorem test_MailboxSettingsTakeEffect_11 : ∃ (ep : Endpoint) (n : Fin 32) (elapsed : Nat) (v : Word) (s : State), s.dev.Waits ep n.val 0x0401 ∧ s.dev.mode ≠ .load ∧ 8 ≤ (s.dev.mail ep n.val).payload.length ∧ payOf (s.dev.mail ep n.val).payload 0 1 < 2 ∧ BitVec.ofNat 32 (payOf (s.dev.mail ep n.val).payload 4 4) = v ∧ s.dev.anchorSt.rejoin = none ∧ (∀ x, s.dev.thody.session = some x → x.1 ≠ payOf (s.dev.mail ep n.val).payload 0 1 ∨ x.2 = (ep.val, n.val)) ∧ (∀ q, q ∈ s.dev.standing → (s.dev.divWrite q (payOf (s.dev.mail ep n.val).payload 0 1) v).2 = true) :=
  ⟨1, 31, 0, 0x02080108, at_ { (mb7 0x0401 [1, 0, 0, 0, 8, 1, 8, 2]) with rgn := d0.rgn.map fun g => { g with mode := .configure } }, by decide +kernel⟩

/-- States and operands that clause 12 of MailboxSettingsTakeEffect is about. -/
theorem test_MailboxSettingsTakeEffect_12 : ∃ (ep : Endpoint) (n : Fin 32) (elapsed : Nat) (s : State), s.dev.Waits ep n.val 0x0402 ∧ s.dev.mode ≠ .load ∧ 1 ≤ (s.dev.mail ep n.val).payload.length ∧ payOf (s.dev.mail ep n.val).payload 0 1 < 2 ∧ s.dev.anchorSt.rejoin = none ∧ (∀ x, s.dev.thody.session = some x → x.1 ≠ payOf (s.dev.mail ep n.val).payload 0 1 ∨ x.2 = (ep.val, n.val)) ∧ (∀ q, q ∈ s.dev.standing → (s.dev.paneOpen q (payOf (s.dev.mail ep n.val).payload 0 1)).2 = true) :=
  ⟨1, 31, 0, at_ { (mb7 0x0402 [1]) with rgn := d0.rgn.map fun g => { g with mode := .configure } }, by decide +kernel⟩

/-- States and operands that clause 13 of MailboxSettingsTakeEffect is about. -/
theorem test_MailboxSettingsTakeEffect_13 : ∃ (ep : Endpoint) (n : Fin 32) (elapsed : Nat) (s : State), s.dev.Waits ep n.val 0x0403 ∧ s.dev.mode ≠ .load ∧ 12 ≤ (s.dev.mail ep n.val).payload.length ∧ (s.dev.mail ep n.val).payload.length = 12 + payOf (s.dev.mail ep n.val).payload 8 4 ∧ payOf (s.dev.mail ep n.val).payload 0 1 < 2 ∧ s.dev.anchorSt.rejoin = none ∧ s.dev.thody.session = some (payOf (s.dev.mail ep n.val).payload 0 1, ep.val, n.val) ∧ (payOf (s.dev.mail ep n.val).payload 1 1 = 1 ∨ payOf (s.dev.mail ep n.val).payload 1 1 = 2) ∧ payOf (s.dev.mail ep n.val).payload 8 4 % 8 = 0 ∧ 8 ≤ payOf (s.dev.mail ep n.val).payload 8 4 ∧ payOf (s.dev.mail ep n.val).payload 8 4 ≤ 4016 ∧ (∀ q, q ∈ s.dev.standing → (s.dev.paneWrite q (payOf (s.dev.mail ep n.val).payload 0 1) (payOf (s.dev.mail ep n.val).payload 1 1 == 2) (payOf (s.dev.mail ep n.val).payload 4 4) (sliceOf (s.dev.mail ep n.val).payload 12 (payOf (s.dev.mail ep n.val).payload 8 4))).2 = .done) :=
  ⟨1, 31, 0, at_ { (mb7 0x0403 ([1, 1, 0, 0, 0, 0x20, 0, 0, 8, 0, 0, 0] ++ [0, 0, 0, 8, 0, 0, 0, 0])) with rgn := d0.rgn.map (fun g => { g with mode := .configure, front := { g.front with session := some 1 } }), thody := ⟨[], 1, some (1, 1, 31), 0⟩ }, by decide +kernel⟩

/-- States and operands that clause 14 of MailboxSettingsTakeEffect is about. -/
theorem test_MailboxSettingsTakeEffect_14 : ∃ (ep : Endpoint) (n : Fin 32) (elapsed : Nat) (s : State), s.dev.Waits ep n.val 0x0404 ∧ s.dev.mode ≠ .load ∧ 1 ≤ (s.dev.mail ep n.val).payload.length ∧ payOf (s.dev.mail ep n.val).payload 0 1 < 2 ∧ s.dev.anchorSt.rejoin = none ∧ s.dev.thody.session = some (payOf (s.dev.mail ep n.val).payload 0 1, ep.val, n.val) ∧ (∀ q, q ∈ s.dev.standing → (s.dev.g q).front.session = some (payOf (s.dev.mail ep n.val).payload 0 1) → (s.dev.paneClose q).2 = true) :=
  ⟨1, 31, 0, at_ { (mb7 0x0404 [1]) with thody := ⟨[], 1, some (1, 1, 31), 0⟩ }, by decide +kernel⟩

/-- States and operands that clause 15 of MailboxSettingsTakeEffect is about. -/
theorem test_MailboxSettingsTakeEffect_15 : ∃ (ep : Endpoint) (n : Fin 32) (elapsed : Nat) (s : State), s.dev.Waits ep n.val 0x0405 ∧ s.dev.mode ≠ .load ∧ 12 ≤ (s.dev.mail ep n.val).payload.length ∧ s.dev.anchorSt.rejoin = none ∧ s.dev.swapCause (payOf (s.dev.mail ep n.val).payload 0 6) (BitVec.ofNat 32 (payOf (s.dev.mail ep n.val).payload 8 4)) = 0 :=
  ⟨1, 31, 0, at_ (mb7 0x0405 [3, 0, 0, 0, 0, 0, 0, 0, 0, 0, 0, 0]), by decide +kernel⟩

/-- States and operands that clause 16 of MailboxSettingsTakeEffect is about. -/
theorem test_MailboxSettingsTakeEffect_16 : ∃ (ep : Endpoint) (n : Fin 32) (elapsed : Nat) (s : State), s.dev.Waits ep n.val 0x0406 ∧ s.dev.mode ≠ .load ∧ s.dev.anchorSt.rejoin = none :=
  ⟨1, 31, 0, at_ (mb7 0x0406 []), by decide +kernel⟩

/-- States and operands that clause 17 of MailboxSettingsTakeEffect is about. -/
theorem test_MailboxSettingsTakeEffect_17 : ∃ (ep : Endpoint) (n : Fin 32) (elapsed : Nat) (q : Region) (b : Block) (x : Nat) (s : State), s.dev.Waits ep n.val 0x0502 ∧ s.dev.mode ≠ .load ∧ 12 ≤ (s.dev.mail ep n.val).payload.length ∧ (s.dev.mail ep n.val).payload.length = 12 + 4 ∧ payOf (s.dev.mail ep n.val).payload 8 2 = 1 ∧ Dev.inMask (payOf (s.dev.mail ep n.val).payload 0 1) = [q] ∧ s.dev.namedRegion q.val 0 = none ∧ payOf (s.dev.mail ep n.val).payload 2 6 % 2 ^ 44 = padAddr 0 b.val x ∧ x % 4 = 0 ∧ x + 4 ≤ s.dev.secBase q.val b.val ∧ s.dev.blockState q.val b.val = 0 ∧ s.dev.poisoned (padAddr q.val b.val x) = false :=
  ⟨1, 31, 0, 7, 15, 0x1FFFFC, at_ (mb7 0x0502 ([0x80, 0] ++ bytesLE 6 (padAddr 15 15 0x1FFFFC) ++ [1, 0, 0, 0] ++ [1, 2, 3, 4])), by decide +kernel⟩

/-- States and operands that clause 18 of MailboxSettingsTakeEffect is about. -/
theorem test_MailboxSettingsTakeEffect_18 : ∃ (ep : Endpoint) (n : Fin 32) (elapsed : Nat) (q : Region) (s : State), s.dev.Waits ep n.val 0x0701 ∧ (s.dev.mode.isRun = true ∨ s.dev.mode = .drain) ∧ 1 ≤ (s.dev.mail ep n.val).payload.length ∧ payOf (s.dev.mail ep n.val).payload 0 1 = q.val ∧ s.dev.present q.val = true ∧ s.dev.fenced q.val = false ∧ q.val ≠ s.dev.A :=
  ⟨1, 31, 0, 7, at_ ((mb7 0x0701 [7]).setFld (CHP_MODE_STAT_effective 0) 2), by decide +kernel⟩

/-- States and operands that clause 19 of MailboxSettingsTakeEffect is about. -/
theorem test_MailboxSettingsTakeEffect_19 : ∃ (ep : Endpoint) (n : Fin 32) (elapsed : Nat) (q : Region) (s : State), s.dev.Waits ep n.val 0x0802 ∧ s.dev.mode ≠ .load ∧ 2 ≤ (s.dev.mail ep n.val).payload.length ∧ payOf (s.dev.mail ep n.val).payload 0 1 = q.val ∧ s.dev.namedRegion q.val 0 = none ∧ s.dev.mode ≠ .lean ∧ payOf (s.dev.mail ep n.val).payload 1 1 ≤ 1 ∧ (s.dev.g q).mode ≠ .lean ∧ s.dev.hbmState q.val ≠ 7 ∧ payOf (s.dev.mail ep n.val).payload 1 1 ≠ s.dev.fld (RGN_HBM_STAT_rate q.val) ∧ (payOf (s.dev.mail ep n.val).payload 1 1 = 0 → (s.dev.g q).hbm.stepped = false) :=
  ⟨1, 31, 0, 7, at_ (mb7 0x0802 [7, 1]), by decide +kernel⟩

/-- States and operands that clause 20 of MailboxSettingsTakeEffect is about. -/
theorem test_MailboxSettingsTakeEffect_20 : ∃ (ep : Endpoint) (n : Fin 32) (elapsed : Nat) (q : Nat) (s : State), s.dev.Waits ep n.val 0x0902 ∧ s.dev.mode = .configure ∧ 14 ≤ (s.dev.mail ep n.val).payload.length ∧ payOf (s.dev.mail ep n.val).payload 0 1 = q ∧ s.dev.guestOk q 0 = none ∧ payOf (s.dev.mail ep n.val).payload 1 1 ≤ 2 ∧ payOf (s.dev.mail ep n.val).payload 2 1 < 8 ∧ s.dev.mladus (payOf (s.dev.mail ep n.val).payload 2 1) = true ∧ Dev.tickAfter (payOf (s.dev.mail ep n.val).payload 8 6) s.dev.tick = true :=
  ⟨1, 31, 0, 6, at_ ((mb7 0x0902 [6, 1, 7, 0, 0, 0, 0, 0, 1, 0, 0, 0, 0, 0]).setFld (CHP_POPULATION_guest 0) 0x40), by decide +kernel⟩

/-- States and operands that clause 21 of MailboxSettingsTakeEffect is about. -/
theorem test_MailboxSettingsTakeEffect_21 : ∃ (ep : Endpoint) (n : Fin 32) (elapsed : Nat) (q : Nat) (x : Region) (s : State), s.dev.Waits ep n.val 0x0903 ∧ s.dev.mode.isOpen = true ∧ 3 ≤ (s.dev.mail ep n.val).payload.length ∧ payOf (s.dev.mail ep n.val).payload 0 1 = q ∧ s.dev.guestOk q 0 = none ∧ payOf (s.dev.mail ep n.val).payload 1 1 < 32 ∧ Dev.inMask (payOf (s.dev.mail ep n.val).payload 2 1) = [x] ∧ s.dev.namedRegion x.val 0 = none ∧ (s.dev.writeReg (RGN_CF_GACC x.val) (payOf (s.dev.mail ep n.val).payload 1 1)).2 = true :=
  ⟨1, 31, 0, 6, 7, at_ (((mb7 0x0903 [6, 0x1F, 0x80]).setFld (CHP_POPULATION_guest 0) 0x40).modR 7 fun g => { g with mode := .configure }), by decide +kernel⟩

/-- States and operands that clause 22 of MailboxSettingsTakeEffect is about. -/
theorem test_MailboxSettingsTakeEffect_22 : ∃ (ep : Endpoint) (n : Fin 32) (elapsed : Nat) (s : State), s.dev.Waits ep n.val 0x0A01 ∧ s.dev.mode ≠ .load ∧ 8 ≤ (s.dev.mail ep n.val).payload.length ∧ (s.dev.mail ep n.val).payload.length = 8 + payOf (s.dev.mail ep n.val).payload 4 4 ∧ 1 ≤ payOf (s.dev.mail ep n.val).payload 4 4 ∧ payOf (s.dev.mail ep n.val).payload 4 4 ≤ 4048 ∧ payOf (s.dev.mail ep n.val).payload 0 4 + payOf (s.dev.mail ep n.val).payload 4 4 ≤ 2 ^ 24 :=
  ⟨1, 31, 0, at_ (mb7 0x0A01 [255, 255, 255, 0, 1, 0, 0, 0, 7]), by decide +kernel⟩

/-- States and operands that clause 23 of MailboxSettingsTakeEffect is about. -/
theorem test_MailboxSettingsTakeEffect_23 : ∃ (ep : Endpoint) (n : Fin 32) (elapsed : Nat) (s : State), s.dev.Waits ep n.val 0x0B01 ∧ s.dev.mode ≠ .load ∧ 6 ≤ (s.dev.mail ep n.val).payload.length ∧ Dev.snapAhead (payOf (s.dev.mail ep n.val).payload 0 6) s.dev.tick = true :=
  ⟨1, 31, 0, at_ (mb7 0x0B01 [2, 0, 0, 0, 0, 0]), by decide +kernel⟩

/-- States and operands that clause 24 of MailboxSettingsTakeEffect is about. -/
theorem test_MailboxSettingsTakeEffect_24 : ∃ (ep : Endpoint) (n : Fin 32) (elapsed k : Nat) (c : Instr) (s : State), (c, (s.dev.mail ep n.val).opcode) ∈ [(Instr.tickSet ep n elapsed, 0x0102), (.cmWrite ep n elapsed, 0x0305), (.paneDivSet ep n elapsed, 0x0401),
      (.regionFence ep n elapsed, 0x0701), (.guestRoleSet ep n elapsed, 0x0902)] ∧ s.dev.fld (RGN_MP_STAT_state s.dev.A) = 0 ∧ s.dev.mbState ep n.val = 3 ∧ s.dev.relaying ep n.val = false ∧ (s.dev.mail ep n.val).wait = .shutter k ∧ Dev.tickAfter k s.dev.tick = false :=
  ⟨1, 31, 0, 0, .regionFence 1 31 0, at_ (((mb7 0x0701 []).setFld (HST_MB_STAT_state 1 31) 3).modMail 1 31 fun m => { m with wait := .shutter 0 }), by decide +kernel⟩

/-- States and operands that clause 1 of JobsAreOpenedAndEnd is about. -/
theorem test_JobsAreOpenedAndEnd_1 : ∃ (ep : Endpoint) (n : Fin 32) (elapsed : Nat) (s : State), s.dev.Waits ep n.val 0x0201 ∧ s.dev.mode ≠ .load ∧ 6 ≤ (s.dev.mail ep n.val).payload.length ∧ s.dev.unitOk (payOf (s.dev.mail ep n.val).payload 0 4) = none ∧ payOf (s.dev.mail ep n.val).payload 0 4 / 2 ^ 28 = 4 ∧ payOf (s.dev.mail ep n.val).payload 4 1 = 0 ∧ payOf (s.dev.mail ep n.val).payload 5 1 = 1 ∧ s.dev.namedRegion (Dev.R (payOf (s.dev.mail ep n.val).payload 0 4 / 2 ^ 25)).val 0 = none ∧ s.dev.thody.jobs = [] :=
  ⟨1, 31, 0, at_ (mb7 0x0201 [0, 0, 0, 0x4E, 0, 1]), by decide +kernel⟩

/-- States and operands that clause 2 of JobsAreOpenedAndEnd is about. -/
theorem test_JobsAreOpenedAndEnd_2 : ∃ (ep : Endpoint) (n : Fin 32) (elapsed : Nat) (q x : Region) (s : State), s.dev.Waits ep n.val 0x0702 ∧ (s.dev.mode.isRun = true ∨ s.dev.mode = .drain) ∧ 1 ≤ (s.dev.mail ep n.val).payload.length ∧ payOf (s.dev.mail ep n.val).payload 0 1 = q.val ∧ s.dev.mladus q.val = true ∧ s.dev.fenced q.val = true ∧ s.dev.anchorSt.rejoin = none ∧ s.dev.sibling q = some x ∧ s.dev.runningJobs.length < 16 ∧ q ≠ endpointRegion ep :=
  ⟨1, 31, 0, 7, 3, at_ (((mb7 0x0702 [7]).setFld (CHP_MODE_STAT_effective 0) 2).setFld (CHP_COMMIT_MEMBERS_fenced 0) 0x80), by decide +kernel⟩

/-- States and operands that clause 3 of JobsAreOpenedAndEnd is about. -/
theorem test_JobsAreOpenedAndEnd_3 : ∃ (ep : Endpoint) (n : Fin 32) (elapsed : Nat) (q : Region) (s : State), s.dev.Waits ep n.val 0x0801 ∧ s.dev.mode.isOpen = true ∧ 1 ≤ (s.dev.mail ep n.val).payload.length ∧ payOf (s.dev.mail ep n.val).payload 0 1 = q.val ∧ s.dev.namedRegion q.val 0 = none ∧ s.dev.runningJobs.length < 16 ∧ (s.dev.g q).mode.isOpen = true ∧ s.dev.hbmState q.val = 3 :=
  ⟨1, 31, 0, 7, at_ (((mb7 0x0801 [7]).modR 7 fun g => { g with mode := .configure }).setFld (RGN_HBM_STAT_state 7) 3), by decide +kernel⟩

/-- States and operands that clause 4 of JobsAreOpenedAndEnd is about. -/
theorem test_JobsAreOpenedAndEnd_4 : ∃ (ep : Endpoint) (n : Fin 32) (elapsed : Nat) (s : State), s.dev.Waits ep n.val 0x0A02 ∧ s.dev.mode = .drain ∧ 4 ≤ (s.dev.mail ep n.val).payload.length ∧ 1 ≤ payOf (s.dev.mail ep n.val).payload 0 4 ∧ payOf (s.dev.mail ep n.val).payload 0 4 ≤ 2 ^ 24 ∧ s.dev.runningJobs = [] :=
  ⟨1, 31, 0, at_ ((mb7 0x0A02 [1, 0, 0, 0]).setFld (CHP_MODE_STAT_effective 0) 6), by decide +kernel⟩

/-- States and operands that clause 5 of JobsAreOpenedAndEnd is about. -/
theorem test_JobsAreOpenedAndEnd_5 : ∃ (ep : Endpoint) (n : Fin 32) (elapsed : Nat) (s : State), s.dev.Waits ep n.val 0x0A03 ∧ s.dev.mode = .configure ∧ 1 ≤ (s.dev.mail ep n.val).payload.length ∧ s.dev.chip.advance = none ∧ payOf (s.dev.mail ep n.val).payload 0 1 = s.dev.lifeCycle + 1 ∧ payOf (s.dev.mail ep n.val).payload 0 1 ≤ 5 ∧ s.dev.lifeCycle ≠ 1 ∧ s.dev.runningJobs.length < 16 :=
  ⟨1, 31, 0, at_ ((mb7 0x0A03 [3]).setFld (CHP_LC_STAT_state 0) 2), by decide +kernel⟩

/-- States and operands that clause 6 of JobsAreOpenedAndEnd is about. -/
theorem test_JobsAreOpenedAndEnd_6 : ∃ (num : Nat) (j : Job) (s : State), s.dev.thody.jobs.find? (fun j => j.num == num) = some j ∧ j.state = 1 :=
  ⟨9, ⟨9, 1, 31, 0x0702, 1, .rejoin 7, 1, 0, 0, [], 0⟩, at_ { d0 with thody := ⟨[⟨9, 1, 31, 0x0702, 1, .rejoin 7, 1, 0, 0, [], 0⟩], 10, none, 0⟩ }, by decide +kernel⟩

/-- States and operands that clause 1 of FencesRejoinsAndTheLossOfProcessors is about. -/
theorem test_FencesRejoinsAndTheLossOfProcessors_1 : ∃ (retry : Bool) (s : State), s.dev.standby ≠ s.dev.A ∧ (s.dev.g (Dev.R s.dev.standby)).commit.heard ≠ [] :=
  ⟨true, at_ ((d0.setFld (CHP_SHUTTER_STAT_standby 0) 7).modCommit 7 fun c => { c with heard := [1] }), by decide +kernel⟩

/-- States and operands that clause 2 of FencesRejoinsAndTheLossOfProcessors is about. -/
theorem test_FencesRejoinsAndTheLossOfProcessors_2 : ∃ (retry : Bool) (s : State), s.dev.standby ≠ s.dev.A ∧ (s.dev.g (Dev.R s.dev.standby)).commit.heard = [] ∧ (retry = true ∨ ∃ m < 6, s.dev.linkState (Dev.R s.dev.standby).val m = 1 ∨ s.dev.linkState (Dev.R s.dev.standby).val m = 3) :=
  ⟨false, at_ ((d0.setFld (CHP_SHUTTER_STAT_standby 0) 7).setFld (RGN_CF_LINK_state 7 5) 3), by decide +kernel⟩

/-- States and operands that clause 3 of FencesRejoinsAndTheLossOfProcessors is about. -/
theorem test_FencesRejoinsAndTheLossOfProcessors_3 : ∃ (s : State), s.dev.standby ≠ s.dev.A ∧ (s.dev.g (Dev.R s.dev.standby)).commit.heard = [] ∧ (∀ m < 6, s.dev.linkState (Dev.R s.dev.standby).val m ≠ 1 ∧ s.dev.linkState (Dev.R s.dev.standby).val m ≠ 3) :=
  ⟨at_ (d0.setFld (CHP_SHUTTER_STAT_standby 0) 7), by decide +kernel⟩

/-- States and operands that clause 4 of FencesRejoinsAndTheLossOfProcessors is about. -/
theorem test_FencesRejoinsAndTheLossOfProcessors_4 : ∃ (r : Region) (cause : Nat) (s : State), s.dev.mladus r.val = true ∧ s.dev.fld (RGN_MP_STAT_state r.val) = 0 ∧ s.dev.anchorLive = true ∧ r.val ≠ s.dev.A :=
  ⟨7, 2, at_ d0, by decide +kernel⟩

/-- States and operands that clause 5 of FencesRejoinsAndTheLossOfProcessors is about. -/
theorem test_FencesRejoinsAndTheLossOfProcessors_5 : ∃ (r : Region) (cause : Nat) (s : State), s.dev.mladus r.val = true ∧ s.dev.fld (RGN_MP_STAT_state r.val) = 0 ∧ (s.dev.anchorLive = false ∨ r.val = s.dev.A) :=
  ⟨0, 1, at_ d0, by decide +kernel⟩

/-- States and operands that clause 6 of FencesRejoinsAndTheLossOfProcessors is about. -/
theorem test_FencesRejoinsAndTheLossOfProcessors_6 : ∃ (r : Region) (s : State), s.dev.fld (RGN_MP_STAT_state r.val) = 2 :=
  ⟨4, at_ (d0.setFld (RGN_MP_STAT_state 4) 2), by decide +kernel⟩

/-- States and operands that clause 7 of FencesRejoinsAndTheLossOfProcessors is about. -/
theorem test_FencesRejoinsAndTheLossOfProcessors_7 : ∃ (q : Region) (s : State), q.val ≠ s.dev.A ∧ s.dev.present q.val = true ∧ (s.dev.fenced q.val = false ∨ (s.dev.anchorSt.rejoin.map (·.region)) = some q.val) :=
  ⟨7, at_ d0, by decide +kernel⟩

/-- States and operands that clause 8 of FencesRejoinsAndTheLossOfProcessors is about. -/
theorem test_FencesRejoinsAndTheLossOfProcessors_8 : ∃ (q : Region) (s : State), (q.val = s.dev.A ∨ s.dev.present q.val = false) :=
  ⟨0, at_ d0, by decide +kernel⟩

/-- States and operands that clause 9 of FencesRejoinsAndTheLossOfProcessors is about. -/
theorem test_FencesRejoinsAndTheLossOfProcessors_9 : ∃ (q : Region) (s : State), q.val ≠ s.dev.A ∧ s.dev.fenced q.val = true ∧ s.dev.present q.val = true ∧ (s.dev.anchorSt.rejoin.map (·.region)) ≠ some q.val :=
  ⟨7, at_ (d0.setFld (CHP_COMMIT_MEMBERS_fenced 0) 0x80), by decide +kernel⟩

/-- States and operands that clause 10 of FencesRejoinsAndTheLossOfProcessors is about. -/
theorem test_FencesRejoinsAndTheLossOfProcessors_10 : ∃ (q x : Region) (s : State), s.dev.mladus q.val = true ∧ s.dev.fenced q.val = true ∧ s.dev.anchorSt.rejoin = none ∧ s.dev.sibling q = some x :=
  ⟨7, 3, at_ (d0.setFld (CHP_COMMIT_MEMBERS_fenced 0) 0x80), by decide +kernel⟩

/-- States and operands that clause 11 of FencesRejoinsAndTheLossOfProcessors is about. -/
theorem test_FencesRejoinsAndTheLossOfProcessors_11 : ∃ (q : Region) (s : State), (s.dev.mladus q.val = false ∨ s.dev.fenced q.val = false ∨ s.dev.anchorSt.rejoin ≠ none ∨ s.dev.sibling q = none) :=
  ⟨7, at_ d0, by decide +kernel⟩

/-- States and operands that clause 12 of FencesRejoinsAndTheLossOfProcessors is about. -/
theorem test_FencesRejoinsAndTheLossOfProcessors_12 : ∃ (x : Rejoin) (s : State), s.dev.anchorSt.rejoin = some x ∧ x.phase = 1 ∧ x.region < 8 :=
  ⟨⟨7, 3, 1, 0, 0⟩, at_ { d0 with anchorSt := { d0.anchorSt with rejoin := some ⟨7, 3, 1, 0, 0⟩ } }, by decide +kernel⟩

/-- States and operands that clause 13 of FencesRejoinsAndTheLossOfProcessors is about. -/
theorem test_FencesRejoinsAndTheLossOfProcessors_13 : ∃ (x : Rejoin) (s : State), s.dev.anchorSt.rejoin = some x ∧ x.phase = 2 :=
  ⟨⟨7, 3, 2, 0, 0⟩, at_ { d0 with anchorSt := { d0.anchorSt with rejoin := some ⟨7, 3, 2, 0, 0⟩ } }, by decide +kernel⟩

/-- States and operands that clause 14 of FencesRejoinsAndTheLossOfProcessors is about. -/
theorem test_FencesRejoinsAndTheLossOfProcessors_14 : ∃ (late : Nat) (x : Rejoin) (s : State), s.dev.anchorSt.rejoin = some x ∧ x.phase = 3 ∧ late ≤ 4096 :=
  ⟨4096, ⟨7, 3, 3, 0, 0⟩, at_ { d0 with anchorSt := { d0.anchorSt with rejoin := some ⟨7, 3, 3, 0, 0⟩ } }, by decide +kernel⟩

/-- States and operands that clause 15 of FencesRejoinsAndTheLossOfProcessors is about. -/
theorem test_FencesRejoinsAndTheLossOfProcessors_15 : ∃ (late : Nat) (x : Rejoin) (s : State), s.dev.anchorSt.rejoin = some x ∧ x.phase = 3 ∧ 4096 < late ∧ x.region < 8 :=
  ⟨4097, ⟨7, 3, 3, 0, 0⟩, at_ { d0 with anchorSt := { d0.anchorSt with rejoin := some ⟨7, 3, 3, 0, 0⟩ } }, by decide +kernel⟩

/-- States and operands that clause 16 of FencesRejoinsAndTheLossOfProcessors is about. -/
theorem test_FencesRejoinsAndTheLossOfProcessors_16 : ∃ (r : Region) (s : State), (s.dev.g r).journal.dropped = 0 :=
  ⟨7, at_ (d0.modJnl 7 fun j => { j with written := 16 }), by decide +kernel⟩

/-- States and operands that clause 17 of FencesRejoinsAndTheLossOfProcessors is about. -/
theorem test_FencesRejoinsAndTheLossOfProcessors_17 : ∃ (r : Region) (s : State), (s.dev.g r).journal.dropped ≠ 0 :=
  ⟨7, at_ (d0.modJnl 7 fun j => { j with written := 16, dropped := 9 }), by decide +kernel⟩

/-- States and operands that clause 18 of FencesRejoinsAndTheLossOfProcessors is about. -/
theorem test_FencesRejoinsAndTheLossOfProcessors_18 : ∃ (r : Region) (s : State), s.dev.guest r.val = true ∧ s.dev.present r.val = true :=
  ⟨6, at_ ((d0.setFld (CHP_POPULATION_guest 0) 0x40).setFld (CHP_POPULATION_present 0) 0xFF), by decide +kernel⟩

/-- States and operands that clause 1 of ContextsAreResetHaltedResumedAndWoken is about. -/
theorem test_ContextsAreResetHaltedResumedAndWoken_1 : ∃ (cell : CellId) (s : State), s.dev.allWaiting (Dev.cellOf cell) = true ∧ (s.dev.ctx (Dev.cellOf cell * 32 + 16)).mode = .waiting :=
  ⟨⟨7, 15, 7⟩, at_ (((List.range 16).foldl (fun d i => d.modCtx (32736 + i) (fun c => { c with mode := .disabled })) d0).modCtx 32752 (fun c => { c with mode := .waiting, waitRd := 31 })), by decide +kernel⟩

/-- States and operands that clause 2 of ContextsAreResetHaltedResumedAndWoken is about. -/
theorem test_ContextsAreResetHaltedResumedAndWoken_2 : ∃ (cell : CellId) (s : State), s.dev.allWaiting (Dev.cellOf cell) = true ∧ (s.dev.ctx (Dev.cellOf cell * 32 + 16)).mode ≠ .waiting :=
  ⟨⟨7, 15, 7⟩, at_ ((((List.range 16).foldl (fun d i => d.modCtx (32736 + i) (fun c => { c with mode := .disabled })) d0).modCtx 32751 (fun c => { c with mode := .waiting, waitMask := 4 })).modCtx 32752 (fun c => { c with mode := .debugHalted })), by decide +kernel⟩

/-- States and operands that clause 3 of ContextsAreResetHaltedResumedAndWoken is about. -/
theorem test_ContextsAreResetHaltedResumedAndWoken_3 : ∃ (u : CtxId) (s : State), u.ctx.val ≠ 16 ∧ s.dev.ctxRuns (Dev.ctxNo u) = true :=
  ⟨⟨7, 15, 7, 15⟩, at_ ((d0.setFld (BLK_CELL_RUN_run 7 15) 0x80).modCtx 32751 (fun c => { c with mode := .faulted, enable := true })), by decide +kernel⟩

/-- States and operands that clause 4 of ContextsAreResetHaltedResumedAndWoken is about. -/
theorem test_ContextsAreResetHaltedResumedAndWoken_4 : ∃ (u : CtxId) (s : State), u.ctx.val ≠ 16 ∧ s.dev.ctxRuns (Dev.ctxNo u) = true ∧ (s.dev.ctx (Dev.ctxNo u)).mode = .faulted :=
  ⟨⟨7, 15, 7, 15⟩, at_ ((d0.setFld (BLK_CELL_RUN_run 7 15) 0x80).modCtx 32751 (fun c => { c with mode := .faulted, held := some 0 })), by decide +kernel⟩

/-- States and operands that clause 5 of ContextsAreResetHaltedResumedAndWoken is about. -/
theorem test_ContextsAreResetHaltedResumedAndWoken_5 : ∃ (u : CtxId) (m : CtxMode) (s : State) (c : Instr), u.ctx.val ≠ 16 ∧ s.dev.ctxRuns (Dev.ctxNo u) = true ∧ (s.dev.ctx (Dev.ctxNo u)).mode = .debugHalted ∧ (s.dev.ctx (Dev.ctxNo u)).haltedFrom ≠ .waiting ∧ m ≠ .fillWait ∧ (c = .threadResume u ∨ c = .debugResume u) ∧ m = (if (s.dev.ctx (Dev.ctxNo u)).haltedFrom = .faulted then .faulted else if (s.dev.ctx (Dev.ctxNo u)).held.isSome then (if (s.dev.ctx (Dev.ctxNo u)).haltedFrom = .fillWait then .fillWait else .running) else if (s.dev.ctx (Dev.ctxNo u)).haltedFrom = .fillWait then .idle else s.dev.restState (Dev.ctxNo u)) :=
  ⟨⟨7, 15, 7, 15⟩, .idle, at_ ((d0.setFld (BLK_CELL_RUN_run 7 15) 0x80).modCtx 32751 (fun c => { c with mode := .debugHalted, haltedFrom := .running, enable := true })), .debugResume ⟨7, 15, 7, 15⟩, by decide +kernel⟩

/-- States and operands that clause 6 of ContextsAreResetHaltedResumedAndWoken is about. -/
theorem test_ContextsAreResetHaltedResumedAndWoken_6 : ∃ (u : CtxId) (s : State) (c : Instr), u.ctx.val ≠ 16 ∧ s.dev.ctxRuns (Dev.ctxNo u) = true ∧ (s.dev.ctx (Dev.ctxNo u)).mode = .debugHalted ∧ (s.dev.ctx (Dev.ctxNo u)).haltedFrom = .fillWait ∧ (s.dev.ctx (Dev.ctxNo u)).held.isSome = true ∧ (c = .threadResume u ∨ c = .debugResume u) :=
  ⟨⟨7, 15, 7, 15⟩, at_ ((d0.setFld (BLK_CELL_RUN_run 7 15) 0x80).modCtx 32751 (fun c => { c with mode := .debugHalted, haltedFrom := .fillWait, held := some 0 })), .threadResume ⟨7, 15, 7, 15⟩, by decide +kernel⟩

/-- States and operands that clause 7 of ContextsAreResetHaltedResumedAndWoken is about. -/
theorem test_ContextsAreResetHaltedResumedAndWoken_7 : ∃ (u : CtxId) (s : State) (c : Instr), s.dev.ctxRuns (Dev.ctxNo u) = true ∧ (s.dev.ctx (Dev.ctxNo u)).mode = .debugHalted ∧ ((s.dev.ctx (Dev.ctxNo u)).haltedFrom = .waiting ∨ u.ctx.val = 16) ∧ (c = .debugResume u ∨ (u.ctx.val ≠ 16 ∧ c = .threadResume u)) :=
  ⟨⟨7, 15, 7, 16⟩, at_ ((d0.setFld (BLK_CELL_RUN_run 7 15) 0x80).modCtx 32752 (fun c => { c with mode := .debugHalted, haltedFrom := .running })), .debugResume ⟨7, 15, 7, 16⟩, by decide +kernel⟩

/-- States and operands that clause 8 of ContextsAreResetHaltedResumedAndWoken is about. -/
theorem test_ContextsAreResetHaltedResumedAndWoken_8 : ∃ (u : CtxId) (s : State) (c : Instr), s.dev.ctxRuns (Dev.ctxNo u) = true ∧ (s.dev.ctx (Dev.ctxNo u)).mode ≠ .debugHalted ∧ (c = .debugResume u ∨ (u.ctx.val ≠ 16 ∧ (s.dev.ctx (Dev.ctxNo u)).mode ≠ .faulted ∧ c = .threadResume u)) :=
  ⟨⟨7, 15, 7, 16⟩, at_ (d0.setFld (BLK_CELL_RUN_run 7 15) 0x80), .debugResume ⟨7, 15, 7, 16⟩, by decide +kernel⟩

/-- States and operands that clause 9 of ContextsAreResetHaltedResumedAndWoken is about. -/
theorem test_ContextsAreResetHaltedResumedAndWoken_9 : ∃ (u : CtxId) (s : State) (c : Instr), s.dev.ctxRuns (Dev.ctxNo u) = true ∧ (s.dev.ctx (Dev.ctxNo u)).mode ≠ .disabled ∧ (s.dev.ctx (Dev.ctxNo u)).mode ≠ .debugHalted ∧ (c = .debugHalt u ∨ (u.ctx.val ≠ 16 ∧ c = .threadHalt u)) :=
  ⟨⟨7, 15, 7, 16⟩, at_ ((d0.setFld (BLK_CELL_RUN_run 7 15) 0x80).modCtx 32752 (fun c => { c with mode := .running })), .debugHalt ⟨7, 15, 7, 16⟩, by decide +kernel⟩

/-- States and operands that clause 10 of ContextsAreResetHaltedResumedAndWoken is about. -/
theorem test_ContextsAreResetHaltedResumedAndWoken_10 : ∃ (u : CtxId) (s : State) (c : Instr), s.dev.ctxRuns (Dev.ctxNo u) = true ∧ ((s.dev.ctx (Dev.ctxNo u)).mode = .disabled ∨ (s.dev.ctx (Dev.ctxNo u)).mode = .debugHalted) ∧ (c = .debugHalt u ∨ (u.ctx.val ≠ 16 ∧ c = .threadHalt u)) :=
  ⟨⟨7, 15, 7, 15⟩, at_ ((d0.setFld (BLK_CELL_RUN_run 7 15) 0x80).modCtx 32751 (fun c => { c with mode := .disabled })), .threadHalt ⟨7, 15, 7, 15⟩, by decide +kernel⟩

/-- States and operands that clause 11 of ContextsAreResetHaltedResumedAndWoken is about. -/
theorem test_ContextsAreResetHaltedResumedAndWoken_11 : ∃ (u : CtxId) (s : State) (c : Instr), u.ctx.val = 16 ∧ s.dev.ctxRuns (Dev.ctxNo u) = true ∧ c ∈ [Instr.threadReset u, Instr.threadResume u, Instr.threadHalt u] :=
  ⟨⟨7, 15, 7, 16⟩, at_ (d0.setFld (BLK_CELL_RUN_run 7 15) 0x80), .threadHalt ⟨7, 15, 7, 16⟩, by decide +kernel⟩

/-- States and operands that clause 12 of ContextsAreResetHaltedResumedAndWoken is about. -/
theorem test_ContextsAreResetHaltedResumedAndWoken_12 : ∃ (cell : CellId) (s : State), s.dev.slotsBarred cell.region (Dev.cellOf cell) = false :=
  ⟨⟨7, 15, 7⟩, at_ d0, by decide +kernel⟩

/-- States and operands that clause 13 of ContextsAreResetHaltedResumedAndWoken is about. -/
theorem test_ContextsAreResetHaltedResumedAndWoken_13 : ∃ (cell : CellId) (s : State), s.dev.slotsBarred cell.region (Dev.cellOf cell) = true :=
  ⟨⟨7, 15, 7⟩, at_ (((d0.modR 7 fun g => { g with mode := .strict }).modCell 1023 fun c => { c with slots := [15] }).modCtx 32751 fun c => { c with enable := true }), by decide +kernel⟩

/-- States and operands that clause 1 of ChannelsCarryMessages is about. -/
theorem test_ChannelsCarryMessages_1 : ∃ (u : CtxId) (w : Word) (s : State), s.dev.Issues u w ∧ (insnOf w).op = .chopen ∧ (selOf (s.dev.xreg (Dev.ctxNo u) (insnOf w).rs1)).reserved = 0 ∧ (selOf (s.dev.xreg (Dev.ctxNo u) (insnOf w).rs1)).abort = false ∧ (selOf (s.dev.xreg (Dev.ctxNo u) (insnOf w).rs1)).any = false ∧ (selOf (s.dev.xreg (Dev.ctxNo u) (insnOf w).rs1)).dest = 0 ∧ s.dev.chanEnabled (selOf (s.dev.xreg (Dev.ctxNo u) (insnOf w).rs1)).regional u.region.val u.block.val (selOf (s.dev.xreg (Dev.ctxNo u) (insnOf w).rs1)).channel = true ∧ (u.ctx.val = 16 ∨ s.dev.on (if (selOf (s.dev.xreg (Dev.ctxNo u) (insnOf w).rs1)).regional then RGN_RCH_CFG_workers_send u.region.val (selOf (s.dev.xreg (Dev.ctxNo u) (insnOf w).rs1)).channel else BLK_CH_CFG_workers_send u.region.val u.block.val (selOf (s.dev.xreg (Dev.ctxNo u) (insnOf w).rs1)).channel) = true) ∧ (s.dev.ctx (Dev.ctxNo u)).openMsg = none :=
  ⟨⟨7, 15, 7, 16⟩, 0x00028FDB#32, at_ (run7 16 0x00028FDB [(5, 0x003F0000#32)] (d := d0.setOn (BLK_CH_CFG_enable 7 15 63))), by decide +kernel⟩

/-- States and operands that clause 2 of ChannelsCarryMessages is about. -/
theorem test_ChannelsCarryMessages_2 : ∃ (u : CtxId) (w code : Word) (s : State), s.dev.Issues u w ∧ (insnOf w).op = .chopen ∧ (selOf (s.dev.xreg (Dev.ctxNo u) (insnOf w).rs1)).reserved = 0 ∧ (selOf (s.dev.xreg (Dev.ctxNo u) (insnOf w).rs1)).abort = false ∧ (selOf (s.dev.xreg (Dev.ctxNo u) (insnOf w).rs1)).any = false ∧ (selOf (s.dev.xreg (Dev.ctxNo u) (insnOf w).rs1)).dest = 0 ∧ ((s.dev.chanEnabled (selOf (s.dev.xreg (Dev.ctxNo u) (insnOf w).rs1)).regional u.region.val u.block.val (selOf (s.dev.xreg (Dev.ctxNo u) (insnOf w).rs1)).channel = false ∧ code = chWord 4 (selOf (s.dev.xreg (Dev.ctxNo u) (insnOf w).rs1)).regional (selOf (s.dev.xreg (Dev.ctxNo u) (insnOf w).rs1)).channel 0) ∨ (s.dev.chanEnabled (selOf (s.dev.xreg (Dev.ctxNo u) (insnOf w).rs1)).regional u.region.val u.block.val (selOf (s.dev.xreg (Dev.ctxNo u) (insnOf w).rs1)).channel = true ∧ u.ctx.val = 16 ∧ ∃ m, (s.dev.ctx (Dev.ctxNo u)).openMsg = some m ∧ code = chWord 3 m.regional m.channel 0)) :=
  ⟨⟨7, 15, 7, 16⟩, 0x00028FDB#32, chWord 4 false 63 0, at_ (run7 16 0x00028FDB [(5, 0x003F0000#32)]), by decide +kernel⟩

/-- States and operands that clause 3 of ChannelsCarryMessages is about. -/
theorem test_ChannelsCarryMessages_3 : ∃ (u : CtxId) (w : Word) (m : OpenMsg) (s : State), s.dev.Issues u w ∧ (insnOf w).op = .chput ∧ (s.dev.ctx (Dev.ctxNo u)).openMsg = some m ∧ m.regional = (selOf (s.dev.xreg (Dev.ctxNo u) (insnOf w).rs1)).regional ∧ m.channel = (selOf (s.dev.xreg (Dev.ctxNo u) (insnOf w).rs1)).channel :=
  ⟨⟨7, 15, 7, 16⟩, 0x0062905B#32, ⟨false, 63, [], false⟩, at_ (run7 16 0x0062905B [(5, 0x003F0000#32), (6, 7)] (f := fun c => { c with openMsg := some ⟨false, 63, [], false⟩ })), by decide +kernel⟩

/-- States and operands that clause 4 of ChannelsCarryMessages is about. -/
theorem test_ChannelsCarryMessages_4 : ∃ (u : CtxId) (w : Word) (s : State), s.dev.Issues u w ∧ (insnOf w).op = .chput ∧ (∀ m, (s.dev.ctx (Dev.ctxNo u)).openMsg = some m → ¬ (m.regional = (selOf (s.dev.xreg (Dev.ctxNo u) (insnOf w).rs1)).regional ∧ m.channel = (selOf (s.dev.xreg (Dev.ctxNo u) (insnOf w).rs1)).channel)) :=
  ⟨⟨7, 15, 7, 16⟩, 0x0062905B#32, at_ (run7 16 0x0062905B [(5, 0x003F0000#32), (6, 7)]), by decide +kernel⟩

/-- States and operands that clause 5 of ChannelsCarryMessages is about. -/
theorem test_ChannelsCarryMessages_5 : ∃ (u : CtxId) (w : Word) (m : OpenMsg) (s : State), s.dev.Issues u w ∧ (insnOf w).op = .chclose ∧ s.dev.heldBack (Dev.ctxNo u) = false ∧ s.dev.writesOut (Dev.ctxNo u) = false ∧ (selOf (s.dev.xreg (Dev.ctxNo u) (insnOf w).rs1)).reserved = 0 ∧ (selOf (s.dev.xreg (Dev.ctxNo u) (insnOf w).rs1)).any = false ∧ (selOf (s.dev.xreg (Dev.ctxNo u) (insnOf w).rs1)).dest = 0 ∧ (s.dev.ctx (Dev.ctxNo u)).openMsg = some m ∧ m.regional = false ∧ (selOf (s.dev.xreg (Dev.ctxNo u) (insnOf w).rs1)).regional = false ∧ m.channel = (selOf (s.dev.xreg (Dev.ctxNo u) (insnOf w).rs1)).channel ∧ s.dev.chanEnabled false u.region.val u.block.val m.channel = true ∧ (selOf (s.dev.xreg (Dev.ctxNo u) (insnOf w).rs1)).abort = false ∧ m.overflow = false ∧ (s.dev.chanMsgs false u.region.val u.block.val m.channel).length < 16 :=
  ⟨⟨7, 15, 7, 16⟩, 0x0002AFDB#32, ⟨false, 63, [7], false⟩, at_ (run7 16 0x0002AFDB [(5, 0x003F0000#32)] (f := fun c => { c with openMsg := some ⟨false, 63, [7], false⟩ }) (d := d0.setOn (BLK_CH_CFG_enable 7 15 63))), by decide +kernel⟩

/-- States and operands that clause 6 of ChannelsCarryMessages is about. -/
theorem test_ChannelsCarryMessages_6 : ∃ (u : CtxId) (w : Word) (m : OpenMsg) (s : State), s.dev.Issues u w ∧ (insnOf w).op = .chclose ∧ s.dev.heldBack (Dev.ctxNo u) = false ∧ s.dev.writesOut (Dev.ctxNo u) = false ∧ (selOf (s.dev.xreg (Dev.ctxNo u) (insnOf w).rs1)).reserved = 0 ∧ (selOf (s.dev.xreg (Dev.ctxNo u) (insnOf w).rs1)).any = false ∧ (selOf (s.dev.xreg (Dev.ctxNo u) (insnOf w).rs1)).dest = 0 ∧ (s.dev.ctx (Dev.ctxNo u)).openMsg = some m ∧ m.regional = (selOf (s.dev.xreg (Dev.ctxNo u) (insnOf w).rs1)).regional ∧ m.channel = (selOf (s.dev.xreg (Dev.ctxNo u) (insnOf w).rs1)).channel ∧ s.dev.chanEnabled (selOf (s.dev.xreg (Dev.ctxNo u) (insnOf w).rs1)).regional u.region.val u.block.val m.channel = true :=
  ⟨⟨7, 15, 7, 16⟩, 0x0002AFDB#32, ⟨true, 255, [7], false⟩, at_ (run7 16 0x0002AFDB [(5, 0x01FF0000#32)] (f := fun c => { c with openMsg := some ⟨true, 255, [7], false⟩ }) (d := d0.setOn (RGN_RCH_CFG_enable 7 255))), by decide +kernel⟩

/-- States and operands that clause 7 of ChannelsCarryMessages is about. -/
theorem test_ChannelsCarryMessages_7 : ∃ (u : CtxId) (w : Word) (m : ChannelMsg) (t : List ChannelMsg) (s : State), s.dev.Issues u w ∧ (insnOf w).op = .chget ∧ (selOf (s.dev.xreg (Dev.ctxNo u) (insnOf w).rs1)).dest % 32 = 0 ∧ Dev.ownArea (Dev.ctxNo u) (selOf (s.dev.xreg (Dev.ctxNo u) (insnOf w).rs1)).dest = true ∧ (selOf (s.dev.xreg (Dev.ctxNo u) (insnOf w).rs1)).reserved = 0 ∧ (selOf (s.dev.xreg (Dev.ctxNo u) (insnOf w).rs1)).abort = false ∧ (selOf (s.dev.xreg (Dev.ctxNo u) (insnOf w).rs1)).any = false ∧ (selOf (s.dev.xreg (Dev.ctxNo u) (insnOf w).rs1)).regional = false ∧ s.dev.chanEnabled false u.region.val u.block.val (selOf (s.dev.xreg (Dev.ctxNo u) (insnOf w).rs1)).channel = true ∧ s.dev.chanReceives false (selOf (s.dev.xreg (Dev.ctxNo u) (insnOf w).rs1)).channel (Dev.ctxNo u) = true ∧ s.dev.chanMsgs false u.region.val u.block.val (selOf (s.dev.xreg (Dev.ctxNo u) (insnOf w).rs1)).channel = m :: t ∧ m.words.length ≤ 8 :=
  ⟨⟨7, 15, 7, 16⟩, 0x0002BFDB#32, ⟨15, 1, [7]⟩, [], at_ (run7 16 0x0002BFDB [(5, 0x003F7FE0#32)] (d := (((d0.setOn (BLK_CH_CFG_enable 7 15 63)).setFld (BLK_CH_CFG_recv_cell 7 15 63) 7).setFld (BLK_CH_CFG_recv_ctx 7 15 63) 16).setMsgs false 7 15 63 [⟨15, 1, [7]⟩])), by decide +kernel⟩

/-- States and operands that clause 8 of ChannelsCarryMessages is about. -/
theorem test_ChannelsCarryMessages_8 : ∃ (u : CtxId) (w : Word) (s : State), s.dev.Issues u w ∧ (insnOf w).op = .chget ∧ (selOf (s.dev.xreg (Dev.ctxNo u) (insnOf w).rs1)).dest % 32 = 0 ∧ Dev.ownArea (Dev.ctxNo u) (selOf (s.dev.xreg (Dev.ctxNo u) (insnOf w).rs1)).dest = true ∧ (selOf (s.dev.xreg (Dev.ctxNo u) (insnOf w).rs1)).reserved = 0 ∧ (selOf (s.dev.xreg (Dev.ctxNo u) (insnOf w).rs1)).abort = false ∧ (selOf (s.dev.xreg (Dev.ctxNo u) (insnOf w).rs1)).any = false ∧ (selOf (s.dev.xreg (Dev.ctxNo u) (insnOf w).rs1)).regional = false ∧ s.dev.chanEnabled false u.region.val u.block.val (selOf (s.dev.xreg (Dev.ctxNo u) (insnOf w).rs1)).channel = true ∧ s.dev.chanReceives false (selOf (s.dev.xreg (Dev.ctxNo u) (insnOf w).rs1)).channel (Dev.ctxNo u) = true ∧ s.dev.chanMsgs false u.region.val u.block.val (selOf (s.dev.xreg (Dev.ctxNo u) (insnOf w).rs1)).channel = [] :=
  ⟨⟨7, 15, 7, 16⟩, 0x0002BFDB#32, at_ (run7 16 0x0002BFDB [(5, 0x003F7FE0#32)] (d := ((d0.setOn (BLK_CH_CFG_enable 7 15 63)).setFld (BLK_CH_CFG_recv_cell 7 15 63) 7).setFld (BLK_CH_CFG_recv_ctx 7 15 63) 16)), by decide +kernel⟩

/-- States and operands that clause 9 of ChannelsCarryMessages is about. -/
theorem test_ChannelsCarryMessages_9 : ∃ (u : CtxId) (w : Word) (s : State), s.dev.Issues u w ∧ (insnOf w).op = .chget ∧ ((selOf (s.dev.xreg (Dev.ctxNo u) (insnOf w).rs1)).dest % 32 ≠ 0 ∨ Dev.ownArea (Dev.ctxNo u) (selOf (s.dev.xreg (Dev.ctxNo u) (insnOf w).rs1)).dest = false) :=
  ⟨⟨7, 15, 7, 16⟩, 0x0002BFDB#32, at_ (run7 16 0x0002BFDB [(5, 0x003F8000#32)]), by decide +kernel⟩

/-- States and operands that clause 10 of ChannelsCarryMessages is about. -/
theorem test_ChannelsCarryMessages_10 : ∃ (r : Region) (channel holder : Nat) (words : List Word) (s : State), s.dev.inTurn r.val r.val (.chMsg channel holder words) = true ∧ s.dev.chanEnabled true r.val 0 channel = true ∧ (s.dev.chanMsgs true r.val 0 channel).length < 31 :=
  ⟨7, 255, 0x1C0000, [7], at_ (d0.setOn (RGN_RCH_CFG_enable 7 255)), by decide +kernel⟩

/-- States and operands that clause 11 of ChannelsCarryMessages is about. -/
theorem test_ChannelsCarryMessages_11 : ∃ (r : Region) (channel holder : Nat) (words : List Word) (s : State), s.dev.inTurn r.val r.val (.chMsg channel holder words) = true ∧ s.dev.chanEnabled true r.val 0 channel = false :=
  ⟨7, 255, 0x1C0000, [7], at_ d0, by decide +kernel⟩

/-- States and operands that clause 12 of ChannelsCarryMessages is about. -/
theorem test_ChannelsCarryMessages_12 : ∃ (r : Region) (b : Block) (channel : Nat) (s : State), s.dev.inTurn r.val r.val (.chCredit channel b.val) = true ∧ Sparse.Wf Dev.ctxDefault s.dev.ctxs :=
  ⟨7, 15, 255, at_ (d0.setSpent 7 255 15 true), by decide +kernel⟩

/-- States and operands that clause 13 of ChannelsCarryMessages is about. -/
theorem test_ChannelsCarryMessages_13 : ∃ (r : Region) (b : Block) (channel : Nat) (s : State), channel < 256 :=
  ⟨7, 15, 255, at_ d0, by decide +kernel⟩

/-- States and operands that clause 14 of ChannelsCarryMessages is about. -/
theorem test_ChannelsCarryMessages_14 : ∃ (r : Region) (b : Block) (channel : Nat) (s : State), channel < 64 ∧ Sparse.Wf Dev.ctxDefault s.dev.ctxs :=
  ⟨7, 15, 63, at_ d0, by decide +kernel⟩

/-- States and operands that clause 15 of ChannelsCarryMessages is about. -/
theorem test_ChannelsCarryMessages_15 : ∃ (r : Region) (b : Block) (regional : Bool) (channel : Nat) (s : State), ¬ (if regional then channel < 256 else channel < 64) :=
  ⟨7, 15, false, 64, at_ d0, by decide +kernel⟩

/-- States and operands that clause 1 of InstructionsComputeJumpWaitAndTrap is about. -/
theorem test_InstructionsComputeJumpWaitAndTrap_1 : ∃ (u : CtxId) (w : Word) (s : State), s.dev.Issues u w ∧ ((insnOf w).op = .alu ∨ (insnOf w).op = .aluImm) :=
  ⟨⟨7, 15, 7, 16⟩, 0x40628FB3#32, at_ (run7 16 0x40628FB3 [(5, 3), (6, 5)]), by decide +kernel⟩

/-- States and operands that clause 2 of InstructionsComputeJumpWaitAndTrap is about. -/
theorem test_InstructionsComputeJumpWaitAndTrap_2 : ∃ (u : CtxId) (w : Word) (s : State), s.dev.Issues u w ∧ ((insnOf w).op = .lui ∨ (insnOf w).op = .auipc) :=
  ⟨⟨7, 15, 7, 16⟩, 0xFFFFFF97#32, at_ (run7 16 0xFFFFFF97 []), by decide +kernel⟩

/-- States and operands that clause 3 of InstructionsComputeJumpWaitAndTrap is about. -/
theorem test_InstructionsComputeJumpWaitAndTrap_3 : ∃ (u : CtxId) (w : Word) (s : State), s.dev.Issues u w ∧ ((insnOf w).op = .jal ∨ (insnOf w).op = .jalr) :=
  ⟨⟨7, 15, 7, 16⟩, 0xFFFF8FE7#32, at_ (run7 16 0xFFFF8FE7 [(31, 9)]), by decide +kernel⟩

/-- States and operands that clause 4 of InstructionsComputeJumpWaitAndTrap is about. -/
theorem test_InstructionsComputeJumpWaitAndTrap_4 : ∃ (u : CtxId) (w : Word) (s : State), s.dev.Issues u w ∧ (insnOf w).op = .branch :=
  ⟨⟨7, 15, 7, 16⟩, 0x0062E463#32, at_ (run7 16 0x0062E463 [(5, 3), (6, 0xFFFFFFFF)]), by decide +kernel⟩

/-- States and operands that clause 5 of InstructionsComputeJumpWaitAndTrap is about. -/
theorem test_InstructionsComputeJumpWaitAndTrap_5 : ∃ (u : CtxId) (w : Word) (s : State), s.dev.Issues u w ∧ (insnOf w).op = .illegal :=
  ⟨⟨7, 15, 7, 16⟩, 0xFFFFFFFF#32, at_ (run7 16 0xFFFFFFFF []), by decide +kernel⟩

/-- States and operands that clause 6 of InstructionsComputeJumpWaitAndTrap is about. -/
theorem test_InstructionsComputeJumpWaitAndTrap_6 : ∃ (u : CtxId) (w : Word) (s : State), s.dev.ctxRuns (Dev.ctxNo u) = true ∧ (s.dev.ctx (Dev.ctxNo u)).mode = .running ∧ (s.dev.ctx (Dev.ctxNo u)).mutRd = none ∧ s.dev.blockState u.region.val u.block.val = 0 ∧ 2 ^ 19 ≤ (s.dev.ctx (Dev.ctxNo u)).pc.toNat :=
  ⟨⟨7, 15, 7, 15⟩, 0, at_ (run7 15 0x00000000 [] (f := fun c => { c with pc := 0xFFFFFFFE })), by decide +kernel⟩

/-- States and operands that clause 7 of InstructionsComputeJumpWaitAndTrap is about. -/
theorem test_InstructionsComputeJumpWaitAndTrap_7 : ∃ (u : CtxId) (w : Word) (s : State), s.dev.Issues u w ∧ (insnOf w).op = .lr :=
  ⟨⟨7, 15, 7, 16⟩, 0x1000202F#32, at_ (run7 16 0x1000202F []), by decide +kernel⟩

/-- States and operands that clause 8 of InstructionsComputeJumpWaitAndTrap is about. -/
theorem test_InstructionsComputeJumpWaitAndTrap_8 : ∃ (u : CtxId) (w : Word) (s : State), s.dev.Issues u w ∧ (insnOf w).op = .sc :=
  ⟨⟨7, 15, 7, 16⟩, 0x1800202F#32, at_ (run7 16 0x1800202F []), by decide +kernel⟩

/-- States and operands that clause 9 of InstructionsComputeJumpWaitAndTrap is about. -/
theorem test_InstructionsComputeJumpWaitAndTrap_9 : ∃ (u : CtxId) (w : Word) (s : State), s.dev.Issues u w ∧ (insnOf w).op = .fenceI :=
  ⟨⟨7, 15, 7, 16⟩, 0x0000100F#32, at_ (run7 16 0x0000100F []), by decide +kernel⟩

/-- States and operands that clause 10 of InstructionsComputeJumpWaitAndTrap is about. -/
theorem test_InstructionsComputeJumpWaitAndTrap_10 : ∃ (u : CtxId) (w : Word) (s : State), s.dev.Issues u w ∧ (insnOf w).op = .ecall :=
  ⟨⟨7, 15, 7, 15⟩, 0x00000073#32, at_ (run7 15 0x00000073 []), by decide +kernel⟩

/-- States and operands that clause 11 of InstructionsComputeJumpWaitAndTrap is about. -/
theorem test_InstructionsComputeJumpWaitAndTrap_11 : ∃ (u : CtxId) (w : Word) (s : State), s.dev.Issues u w ∧ (insnOf w).op = .ebreak :=
  ⟨⟨7, 15, 7, 16⟩, 0x00100073#32, at_ (run7 16 0x00100073 []), by decide +kernel⟩

/-- States and operands that clause 12 of InstructionsComputeJumpWaitAndTrap is about. -/
theorem test_InstructionsComputeJumpWaitAndTrap_12 : ∃ (u : CtxId) (w : Word) (s : State), s.dev.Issues u w ∧ (insnOf w).op = .mret ∧ u.ctx.val = 16 :=
  ⟨⟨7, 15, 7, 16⟩, 0x30200073#32, at_ (run7 16 0x30200073 [] (f := fun c => { c with mpie := true, mepc := 64 })), by decide +kernel⟩

/-- States and operands that clause 13 of InstructionsComputeJumpWaitAndTrap is about. -/
theorem test_InstructionsComputeJumpWaitAndTrap_13 : ∃ (u : CtxId) (w : Word) (s : State) (c : Instr), s.dev.Issues u w ∧ u.ctx.val ≠ 16 ∧ (((insnOf w).op = .mret ∧ c = .mret u w) ∨ ((insnOf w).op = .wfi ∧ c = .wfi u w) ∨ ((insnOf w).op = .csr ∧ Dev.csrNumber (insnOf w) = 0x7D6 ∧ c = .celIrqClaim u w)) :=
  ⟨⟨7, 15, 7, 15⟩, 0x10500073#32, at_ (run7 15 0x10500073 []), .wfi ⟨7, 15, 7, 15⟩ 0x10500073#32, by decide +kernel⟩

/-- States and operands that clause 14 of InstructionsComputeJumpWaitAndTrap is about. -/
theorem test_InstructionsComputeJumpWaitAndTrap_14 : ∃ (u : CtxId) (w : Word) (s : State), s.dev.Issues u w ∧ (insnOf w).op = .wfi ∧ u.ctx.val = 16 ∧ (s.dev.events (Dev.ctxNo u) &&& 7 * 2 ^ 16) ≠ 0 :=
  ⟨⟨7, 15, 7, 16⟩, 0x10500073#32, at_ (run7 16 0x10500073 [] (f := fun c => { c with sticky := 2 ^ 18 })), by decide +kernel⟩

/-- States and operands that clause 15 of InstructionsComputeJumpWaitAndTrap is about. -/
theorem test_InstructionsComputeJumpWaitAndTrap_15 : ∃ (u : CtxId) (w : Word) (s : State), s.dev.Issues u w ∧ (insnOf w).op = .wfi ∧ u.ctx.val = 16 ∧ (s.dev.events (Dev.ctxNo u) &&& 7 * 2 ^ 16) = 0 :=
  ⟨⟨7, 15, 7, 16⟩, 0x10500073#32, at_ (run7 16 0x10500073 []), by decide +kernel⟩

/-- States and operands that clause 16 of InstructionsComputeJumpWaitAndTrap is about. -/
theorem test_InstructionsComputeJumpWaitAndTrap_16 : ∃ (u : CtxId) (w : Word) (s : State), s.dev.Issues u w ∧ (insnOf w).op = .wfe ∧ ((s.dev.xreg (Dev.ctxNo u) (insnOf w).rs1) = 0 ∨ (s.dev.events (Dev.ctxNo u) &&& ((s.dev.xreg (Dev.ctxNo u) (insnOf w).rs1).toNat ||| (if u.ctx.val = 16 then 7 * 2 ^ 16 else 0))) ≠ 0) :=
  ⟨⟨7, 15, 7, 15⟩, 0x00028F8B#32, at_ (run7 15 0x00028F8B [(5, 0x8000)] (f := fun c => { c with sticky := 0x8100 })), by decide +kernel⟩

/-- States and operands that clause 17 of InstructionsComputeJumpWaitAndTrap is about. -/
theorem test_InstructionsComputeJumpWaitAndTrap_17 : ∃ (u : CtxId) (w : Word) (s : State), s.dev.Issues u w ∧ (insnOf w).op = .wfe ∧ (s.dev.xreg (Dev.ctxNo u) (insnOf w).rs1) ≠ 0 ∧ (s.dev.events (Dev.ctxNo u) &&& ((s.dev.xreg (Dev.ctxNo u) (insnOf w).rs1).toNat ||| (if u.ctx.val = 16 then 7 * 2 ^ 16 else 0))) = 0 ∧ u.ctx.val ≠ 16 :=
  ⟨⟨7, 15, 7, 15⟩, 0x00028F8B#32, at_ (run7 15 0x00028F8B [(5, 0x8000)] (f := fun c => { c with sticky := 0x100 })), by decide +kernel⟩

/-- States and operands that clause 18 of InstructionsComputeJumpWaitAndTrap is about. -/
theorem test_InstructionsComputeJumpWaitAndTrap_18 : ∃ (u : CtxId) (w : Word) (s : State), s.dev.Issues u w ∧ (insnOf w).op = .wfe ∧ (s.dev.xreg (Dev.ctxNo u) (insnOf w).rs1) ≠ 0 ∧ (s.dev.events (Dev.ctxNo u) &&& ((s.dev.xreg (Dev.ctxNo u) (insnOf w).rs1).toNat ||| (if u.ctx.val = 16 then 7 * 2 ^ 16 else 0))) = 0 ∧ u.ctx.val = 16 :=
  ⟨⟨7, 15, 7, 16⟩, 0x00028F8B#32, at_ (run7 16 0x00028F8B [(5, 0x8000)] (f := fun c => { c with sticky := 0x100 })), by decide +kernel⟩

/-- States and operands that clause 19 of InstructionsComputeJumpWaitAndTrap is about. -/
theorem test_InstructionsComputeJumpWaitAndTrap_19 : ∃ (u : CtxId) (w : Word) (s : State), s.dev.Issues u w ∧ (insnOf w).op = .sev ∧ s.dev.heldBack (Dev.ctxNo u) = false ∧ s.dev.writesOut (Dev.ctxNo u) = false ∧ 16 < (s.dev.xreg (Dev.ctxNo u) (insnOf w).rs1).toNat % 32 :=
  ⟨⟨7, 15, 7, 16⟩, 0x0062900B#32, at_ (run7 16 0x0062900B [(5, 17), (6, 1)]), by decide +kernel⟩

/-- States and operands that clause 20 of InstructionsComputeJumpWaitAndTrap is about. -/
theorem test_InstructionsComputeJumpWaitAndTrap_20 : ∃ (u : CtxId) (w : Word) (s : State), s.dev.Issues u w ∧ (insnOf w).op = .sev ∧ s.dev.heldBack (Dev.ctxNo u) = false ∧ s.dev.writesOut (Dev.ctxNo u) = false ∧ (s.dev.xreg (Dev.ctxNo u) (insnOf w).rs1).toNat % 32 < 16 ∧ (Dev.ctxNo u / 32 * 32 + (s.dev.xreg (Dev.ctxNo u) (insnOf w).rs1).toNat % 32) ≠ Dev.ctxNo u :=
  ⟨⟨7, 15, 7, 16⟩, 0x0062900B#32, at_ (run7 16 0x0062900B [(5, 15), (6, 0xFF)]), by decide +kernel⟩

/-- States and operands that clause 21 of InstructionsComputeJumpWaitAndTrap is about. -/
theorem test_InstructionsComputeJumpWaitAndTrap_21 : ∃ (u : CtxId) (w : Word) (s : State), s.dev.Issues u w ∧ (insnOf w).op = .fence ∧ s.dev.accessesOut (Dev.ctxNo u) = false ∧ s.dev.heldBack (Dev.ctxNo u) = false :=
  ⟨⟨7, 15, 7, 16⟩, 0x0FF0000F#32, at_ (run7 16 0x0FF0000F []), by decide +kernel⟩

/-- States and operands that clause 22 of InstructionsComputeJumpWaitAndTrap is about. -/
theorem test_InstructionsComputeJumpWaitAndTrap_22 : ∃ (u : CtxId) (w : Word) (cycle used : Nat) (s : State), s.dev.Issues u w ∧ (insnOf w).op = .csr ∧ Dev.ownRow (Dev.csrNumber (insnOf w)) = false ∧ Dev.csrMay (Dev.ctxNo u) (Dev.csrNumber (insnOf w)) (decide ((insnOf w).code % 4 = 1) || (if (insnOf w).code < 4 then (insnOf w).rs1 != 0 else (insnOf w).imm.toNat / 4096 != 0)) = false :=
  ⟨⟨7, 15, 7, 16⟩, 0x34429073#32, 0, 0, at_ (run7 16 0x34429073 []), by decide +kernel⟩

/-- States and operands that clause 23 of InstructionsComputeJumpWaitAndTrap is about. -/
theorem test_InstructionsComputeJumpWaitAndTrap_23 : ∃ (u : CtxId) (w v : Word) (cycle used : Nat) (s : State), s.dev.Issues u w ∧ (insnOf w).op = .csr ∧ (insnOf w).code % 4 ≠ 1 ∧ (if (insnOf w).code < 4 then (insnOf w).rs1 else (insnOf w).imm.toNat / 4096) = 0 ∧ ((Dev.csrNumber (insnOf w), v) ∈ [(0xC00, BitVec.ofNat 32 cycle), (0xC80, BitVec.ofNat 32 (cycle / 2 ^ 32)), (0xC02, BitVec.ofNat 32 (s.dev.ctx (Dev.ctxNo u)).instret),
      (0xC82, BitVec.ofNat 32 ((s.dev.ctx (Dev.ctxNo u)).instret / 2 ^ 32)), (0x800, BitVec.ofNat 32 (s.dev.ctxHolder (Dev.ctxNo u))), (0x803, BitVec.ofNat 32 (s.dev.events (Dev.ctxNo u))),
      (0x804, BitVec.ofNat 32 (s.dev.heldStamp (Dev.ctxNo u)))]
      ∨ u.ctx.val = 16 ∧ (Dev.csrNumber (insnOf w), v) ∈ [(0x301, 0x40901105), (0x304, (s.dev.ctx (Dev.ctxNo u)).mieMask), (0x305, (s.dev.ctx (Dev.ctxNo u)).mtvec), (0x340, (s.dev.ctx (Dev.ctxNo u)).mscratch), (0x341, (s.dev.ctx (Dev.ctxNo u)).mepc), (0x342, (s.dev.ctx (Dev.ctxNo u)).mcause),
      (0x343, (s.dev.ctx (Dev.ctxNo u)).mtval), (0x344, BitVec.ofNat 32 (s.dev.mip (Dev.ctxNo u))), (0xF11, 0), (0xF12, 0), (0xF14, BitVec.ofNat 32 (Dev.ctxNo u / 32))]) :=
  ⟨⟨7, 15, 7, 16⟩, 0xF1402FF3#32, 1023, 0, 0, at_ (run7 16 0xF1402FF3 []), by decide +kernel⟩

/-- States and operands that clause 24 of InstructionsComputeJumpWaitAndTrap is about. -/
theorem test_InstructionsComputeJumpWaitAndTrap_24 : ∃ (u : CtxId) (w : Word) (cycle used : Nat) (s : State), s.dev.Issues u w ∧ (insnOf w).op = .csr ∧ (insnOf w).code = 1 ∧ u.ctx.val = 16 ∧ Dev.csrNumber (insnOf w) ∈ [0x304, 0x305, 0x340] :=
  ⟨⟨7, 15, 7, 16⟩, 0x30529FF3#32, 0, 0, at_ (run7 16 0x30529FF3 [(5, 0xFFFFFFFF)]), by decide +kernel⟩

/-- States and operands that clause 25 of InstructionsComputeJumpWaitAndTrap is about. -/
theorem test_InstructionsComputeJumpWaitAndTrap_25 : ∃ (u : CtxId) (w : Word) (s : State), s.dev.Issues u w ∧ (insnOf w).op = .csr ∧ Dev.csrNumber (insnOf w) = 0xC01 ∧ (insnOf w).code % 4 ≠ 1 ∧ (if (insnOf w).code < 4 then (insnOf w).rs1 else (insnOf w).imm.toNat / 4096) = 0 :=
  ⟨⟨7, 15, 7, 15⟩, 0xC0102FF3#32, at_ (run7 15 0xC0102FF3 []), by decide +kernel⟩

/-- States and operands that clause 26 of InstructionsComputeJumpWaitAndTrap is about. -/
theorem test_InstructionsComputeJumpWaitAndTrap_26 : ∃ (u : CtxId) (w : Word) (n : Nat) (p : Packet) (s : State), s.dev.Issues u w ∧ (insnOf w).op = .csr ∧ Dev.csrNumber (insnOf w) = 0x808 ∧ (insnOf w).code % 4 ≠ 1 ∧ (if (insnOf w).code < 4 then (insnOf w).rs1 else (insnOf w).imm.toNat / 4096) = 0 ∧ (s.dev.ctx (Dev.ctxNo u)).held = some n ∧ s.dev.pkt n = some p :=
  ⟨⟨7, 15, 7, 15⟩, 0x80802FF3#32, 0, (pk (.placed 32751)), at_ (run7 15 0x80802FF3 [] (f := fun c => { c with held := some 0 }) (d := dp (.placed 32751))), by decide +kernel⟩

/-- States and operands that clause 27 of InstructionsComputeJumpWaitAndTrap is about. -/
theorem test_InstructionsComputeJumpWaitAndTrap_27 : ∃ (u : CtxId) (w : Word) (s : State) (c : Instr), s.dev.Issues u w ∧ (insnOf w).op = .csr ∧ (decide ((insnOf w).code % 4 = 1) || (if (insnOf w).code < 4 then (insnOf w).rs1 != 0 else (insnOf w).imm.toNat / 4096 != 0)) = true ∧ ((Dev.csrNumber (insnOf w) = 0xC01 ∧ c = .timeCsrRead u w) ∨ (Dev.csrNumber (insnOf w) = 0x808 ∧ c = .celRxtsNsRead u w)) :=
  ⟨⟨7, 15, 7, 16⟩, 0x80829FF3#32, at_ (run7 16 0x80829FF3 []), .celRxtsNsRead ⟨7, 15, 7, 16⟩ 0x80829FF3#32, by decide +kernel⟩

/-- States and operands that clause 28 of InstructionsComputeJumpWaitAndTrap is about. -/
theorem test_InstructionsComputeJumpWaitAndTrap_28 : ∃ (u : CtxId) (w : Word) (s : State), s.dev.Issues u w ∧ (insnOf w).op = .csr ∧ Dev.csrNumber (insnOf w) = 0x7D6 ∧ (insnOf w).code % 4 ≠ 1 ∧ (if (insnOf w).code < 4 then (insnOf w).rs1 else (insnOf w).imm.toNat / 4096) = 0 ∧ u.ctx.val = 16 ∧ s.dev.claims u.region (u.block.val * 8 + u.cell.val) = [] :=
  ⟨⟨7, 15, 7, 16⟩, 0x7D602FF3#32, at_ (run7 16 0x7D602FF3 []), by decide +kernel⟩

/-- States and operands that clause 29 of InstructionsComputeJumpWaitAndTrap is about. -/
theorem test_InstructionsComputeJumpWaitAndTrap_29 : ∃ (u : CtxId) (w : Word) (n : Nat) (s : State), s.dev.Issues u w ∧ (insnOf w).op = .csr ∧ Dev.csrNumber (insnOf w) = 0x7D6 ∧ (insnOf w).code % 4 ≠ 1 ∧ (if (insnOf w).code < 4 then (insnOf w).rs1 else (insnOf w).imm.toNat / 4096) = 0 ∧ u.ctx.val = 16 ∧ n ∈ s.dev.claimable u.region.val (u.block.val * 8 + u.cell.val) ∧ n ∉ [0x70, 0x74, 0x75, 0x76] ∧ (∀ c ∈ s.dev.claims u.region (u.block.val * 8 + u.cell.val), s.dev.fld (RGN_IRQ_SRC_prio u.region.val n) < c.1 ∨ s.dev.fld (RGN_IRQ_SRC_prio u.region.val n) = c.1 ∧ u.region.val * 1024 + n ≤ c.2.1) :=
  ⟨⟨7, 15, 7, 16⟩, 0x7D602FF3#32, 0x3F8, at_ (run7 16 0x7D602FF3 [] (d := ((d0.setFld (RGN_IRQ_SRC_count 7 0x3F8) 3).setFld (RGN_IRQ_SRC_target 7 0x3F8) 0x7F).setReg (RGN_IRQ_EN 7 31) 0x01000000)), by decide +kernel⟩

/-- States and operands that clause 1 of LoadsStoresAndLatchesReachTheirMemory is about. -/
theorem test_LoadsStoresAndLatchesReachTheirMemory_1 : ∃ (u : CtxId) (w : Word) (wait x : Nat) (s : State), s.dev.Issues u w ∧ (insnOf w).op = .load ∧ s.dev.heldBack (Dev.ctxNo u) = false ∧ s.dev.areaOf (Dev.ctxNo u) ((s.dev.xreg (Dev.ctxNo u) (insnOf w).rs1) + (insnOf w).imm).toNat (Dev.widthOf (insnOf w).code) = some (.clm x) ∧ s.dev.anyPoison (Dev.clmAddr (Dev.ctxNo u / 32) x) (Dev.widthOf (insnOf w).code) = false :=
  ⟨⟨7, 15, 7, 15⟩, 0xFFF28F83#32, 200, 0xFFFF, at_ (run7 15 0xFFF28F83 [(5, 0x10000)]), by decide +kernel⟩

/-- States and operands that clause 2 of LoadsStoresAndLatchesReachTheirMemory is about. -/
theorem test_LoadsStoresAndLatchesReachTheirMemory_2 : ∃ (u : CtxId) (w : Word) (wait x : Nat) (s : State), s.dev.Issues u w ∧ (insnOf w).op = .load ∧ s.dev.heldBack (Dev.ctxNo u) = false ∧ s.dev.areaOf (Dev.ctxNo u) ((s.dev.xreg (Dev.ctxNo u) (insnOf w).rs1) + (insnOf w).imm).toNat (Dev.widthOf (insnOf w).code) = some (.pad x) ∧ s.dev.padMay (Dev.ctxNo u) x (Dev.widthOf (insnOf w).code) false = true ∧ s.dev.anyPoison (padAddr u.region.val u.block.val x) (Dev.widthOf (insnOf w).code) = false :=
  ⟨⟨7, 15, 7, 15⟩, 0xFFF28F83#32, 200, 0x1FFFFF, at_ (run7 15 0xFFF28F83 [(5, 0x10200000)]), by decide +kernel⟩

/-- States and operands that clause 3 of LoadsStoresAndLatchesReachTheirMemory is about. -/
theorem test_LoadsStoresAndLatchesReachTheirMemory_3 : ∃ (u : CtxId) (w : Word) (wait x : Nat) (s : State), s.dev.Issues u w ∧ (insnOf w).op = .load ∧ s.dev.heldBack (Dev.ctxNo u) = false ∧ s.dev.areaOf (Dev.ctxNo u) ((s.dev.xreg (Dev.ctxNo u) (insnOf w).rs1) + (insnOf w).imm).toNat (Dev.widthOf (insnOf w).code) = some (.padForce x) ∧ (Dev.widthOf (insnOf w).code) = 4 ∧ x % 4 = 0 ∧ s.dev.padMay (Dev.ctxNo u) x 4 false = true ∧ s.dev.anyPoison (padAddr u.region.val u.block.val x) 4 = false :=
  ⟨⟨7, 15, 7, 16⟩, 0xFFC2AF83#32, 200, 0x1FFFFC, at_ (run7 16 0xFFC2AF83 [(5, 0x10600000)]), by decide +kernel⟩

/-- States and operands that clause 4 of LoadsStoresAndLatchesReachTheirMemory is about. -/
theorem test_LoadsStoresAndLatchesReachTheirMemory_4 : ∃ (u : CtxId) (w : Word) (wait x : Nat) (s : State) (y : Nat), s.dev.Issues u w ∧ (insnOf w).op = .load ∧ s.dev.heldBack (Dev.ctxNo u) = false ∧ ((s.dev.areaOf (Dev.ctxNo u) ((s.dev.xreg (Dev.ctxNo u) (insnOf w).rs1) + (insnOf w).imm).toNat (Dev.widthOf (insnOf w).code) = some (.clm x) ∧ y = Dev.clmAddr (Dev.ctxNo u / 32) x) ∨ (s.dev.areaOf (Dev.ctxNo u) ((s.dev.xreg (Dev.ctxNo u) (insnOf w).rs1) + (insnOf w).imm).toNat (Dev.widthOf (insnOf w).code) = some (.pad x) ∧ s.dev.padMay (Dev.ctxNo u) x (Dev.widthOf (insnOf w).code) false = true ∧ y = padAddr u.region.val u.block.val x)) ∧ s.dev.anyPoison y (Dev.widthOf (insnOf w).code) = true :=
  ⟨⟨7, 15, 7, 15⟩, 0xFFF28F83#32, 200, 0xFFFF, at_ (run7 15 0xFFF28F83 [(5, 0x10000)] (d := d0.setPoison (Dev.clmAddr 1023 0xFFFF) true)), (Dev.clmAddr 1023 0xFFFF), by decide +kernel⟩

/-- States and operands that clause 5 of LoadsStoresAndLatchesReachTheirMemory is about. -/
theorem test_LoadsStoresAndLatchesReachTheirMemory_5 : ∃ (u : CtxId) (w : Word) (wait : Nat) (s : State), s.dev.Issues u w ∧ (insnOf w).op = .load ∧ s.dev.heldBack (Dev.ctxNo u) = false ∧ s.dev.areaOf (Dev.ctxNo u) ((s.dev.xreg (Dev.ctxNo u) (insnOf w).rs1) + (insnOf w).imm).toNat (Dev.widthOf (insnOf w).code) = none ∧ Dev.latchAddr ((s.dev.xreg (Dev.ctxNo u) (insnOf w).rs1) + (insnOf w).imm).toNat = false :=
  ⟨⟨7, 15, 7, 15⟩, 0xFFC2AF83#32, 0, at_ (run7 15 0xFFC2AF83 [(5, 0x80000000)]), by decide +kernel⟩

/-- States and operands that clause 6 of LoadsStoresAndLatchesReachTheirMemory is about. -/
theorem test_LoadsStoresAndLatchesReachTheirMemory_6 : ∃ (u : CtxId) (w : Word) (wait x : Nat) (s : State) (c : Instr), s.dev.Issues u w ∧ s.dev.heldBack (Dev.ctxNo u) = false ∧ s.dev.areaOf (Dev.ctxNo u) ((s.dev.xreg (Dev.ctxNo u) (insnOf w).rs1) + (insnOf w).imm).toNat (Dev.widthOf (insnOf w).code) = some (.pad x) ∧ ((insnOf w).op = .load ∧ c = .load u w wait ∧ s.dev.padMay (Dev.ctxNo u) x (Dev.widthOf (insnOf w).code) false = false ∨ (insnOf w).op = .store ∧ c = .store u w wait ∧ s.dev.padMay (Dev.ctxNo u) x (Dev.widthOf (insnOf w).code) true = false) :=
  ⟨⟨7, 15, 7, 15⟩, 0x0062A023#32, 200, 0x1FFFFC, at_ (run7 15 0x0062A023 [(5, 0x101FFFFC)] (d := d0.setFld (BLK_SEC_CTL_size 7 15) 3)), .store ⟨7, 15, 7, 15⟩ 0x0062A023#32 200, by decide +kernel⟩

/-- States and operands that clause 7 of LoadsStoresAndLatchesReachTheirMemory is about. -/
theorem test_LoadsStoresAndLatchesReachTheirMemory_7 : ∃ (u : CtxId) (w : Word) (wait x : Nat) (s : State) (c : Instr), s.dev.Issues u w ∧ s.dev.heldBack (Dev.ctxNo u) = false ∧ s.dev.accessesOut (Dev.ctxNo u) = false ∧ s.dev.areaOf (Dev.ctxNo u) ((s.dev.xreg (Dev.ctxNo u) (insnOf w).rs1) + (insnOf w).imm).toNat (Dev.widthOf (insnOf w).code) = some (.window x) ∧ ((s.dev.xreg (Dev.ctxNo u) (insnOf w).rs1) + (insnOf w).imm).toNat % (Dev.widthOf (insnOf w).code) ≠ 0 ∧ ((insnOf w).op = .load ∧ c = .load u w wait ∨ (insnOf w).op = .store ∧ c = .store u w wait) :=
  ⟨⟨7, 15, 7, 16⟩, 0x0062A023#32, 200, 1, at_ (run7 16 0x0062A023 [(5, 0x80000001)]), .store ⟨7, 15, 7, 16⟩ 0x0062A023#32 200, by decide +kernel⟩

/-- States and operands that clause 8 of LoadsStoresAndLatchesReachTheirMemory is about. -/
theorem test_LoadsStoresAndLatchesReachTheirMemory_8 : ∃ (u : CtxId) (w : Word) (wait x : Nat) (s : State) (c : Instr), s.dev.Issues u w ∧ s.dev.heldBack (Dev.ctxNo u) = false ∧ s.dev.accessesOut (Dev.ctxNo u) = false ∧ s.dev.areaOf (Dev.ctxNo u) ((s.dev.xreg (Dev.ctxNo u) (insnOf w).rs1) + (insnOf w).imm).toNat (Dev.widthOf (insnOf w).code) = some (.window x) ∧ ((s.dev.xreg (Dev.ctxNo u) (insnOf w).rs1) + (insnOf w).imm).toNat % (Dev.widthOf (insnOf w).code) = 0 ∧ ((insnOf w).op = .load ∧ c = .load u w wait ∨ (insnOf w).op = .store ∧ c = .store u w wait) :=
  ⟨⟨7, 15, 7, 16⟩, 0x0062A023#32, 200, 4, at_ (run7 16 0x0062A023 [(5, 0x80000004)]), .store ⟨7, 15, 7, 16⟩ 0x0062A023#32 200, by decide +kernel⟩

/-- States and operands that clause 9 of LoadsStoresAndLatchesReachTheirMemory is about. -/
theorem test_LoadsStoresAndLatchesReachTheirMemory_9 : ∃ (u : CtxId) (w : Word) (wait x : Nat) (s : State) (y : Nat), s.dev.Issues u w ∧ (insnOf w).op = .store ∧ s.dev.heldBack (Dev.ctxNo u) = false ∧ ((s.dev.areaOf (Dev.ctxNo u) ((s.dev.xreg (Dev.ctxNo u) (insnOf w).rs1) + (insnOf w).imm).toNat (Dev.widthOf (insnOf w).code) = some (.clm x) ∧ y = Dev.clmAddr (Dev.ctxNo u / 32) x) ∨ (s.dev.areaOf (Dev.ctxNo u) ((s.dev.xreg (Dev.ctxNo u) (insnOf w).rs1) + (insnOf w).imm).toNat (Dev.widthOf (insnOf w).code) = some (.pad x) ∧ s.dev.padMay (Dev.ctxNo u) x (Dev.widthOf (insnOf w).code) true = true ∧ y = padAddr u.region.val u.block.val x)) ∧ s.dev.anyPoison y (Dev.widthOf (insnOf w).code) = false :=
  ⟨⟨7, 15, 7, 15⟩, 0x0062A023#32, 200, 0x1FFFFC, at_ (run7 15 0x0062A023 [(5, 0x101FFFFC), (6, 0x12345678)]), (padAddr 7 15 0x1FFFFC), by decide +kernel⟩

/-- States and operands that clause 10 of LoadsStoresAndLatchesReachTheirMemory is about. -/
theorem test_LoadsStoresAndLatchesReachTheirMemory_10 : ∃ (u : CtxId) (w : Word) (wait x : Nat) (s : State) (y : Nat), s.dev.Issues u w ∧ (insnOf w).op = .store ∧ s.dev.heldBack (Dev.ctxNo u) = false ∧ ((s.dev.areaOf (Dev.ctxNo u) ((s.dev.xreg (Dev.ctxNo u) (insnOf w).rs1) + (insnOf w).imm).toNat (Dev.widthOf (insnOf w).code) = some (.clm x) ∧ y = Dev.clmAddr (Dev.ctxNo u / 32) x) ∨ (s.dev.areaOf (Dev.ctxNo u) ((s.dev.xreg (Dev.ctxNo u) (insnOf w).rs1) + (insnOf w).imm).toNat (Dev.widthOf (insnOf w).code) = some (.pad x) ∧ s.dev.padMay (Dev.ctxNo u) x (Dev.widthOf (insnOf w).code) true = true ∧ y = padAddr u.region.val u.block.val x)) ∧ y % 32 + (Dev.widthOf (insnOf w).code) ≤ 32 ∧ s.dev.poisoned y = true :=
  ⟨⟨7, 15, 7, 15⟩, 0x0062A023#32, 200, 0x1FFFFC, at_ (run7 15 0x0062A023 [(5, 0x101FFFFC), (6, 0x12345678)] (d := d0.setPoison (padAddr 7 15 0x1FFFFC) true)), (padAddr 7 15 0x1FFFFC), by decide +kernel⟩

/-- States and operands that clause 11 of LoadsStoresAndLatchesReachTheirMemory is about. -/
theorem test_LoadsStoresAndLatchesReachTheirMemory_11 : ∃ (u : CtxId) (w : Word) (wait : Nat) (s : State), s.dev.Issues u w ∧ (insnOf w).op = .store ∧ s.dev.heldBack (Dev.ctxNo u) = false ∧ s.dev.areaOf (Dev.ctxNo u) ((s.dev.xreg (Dev.ctxNo u) (insnOf w).rs1) + (insnOf w).imm).toNat (Dev.widthOf (insnOf w).code) = none ∧ Dev.latchAddr ((s.dev.xreg (Dev.ctxNo u) (insnOf w).rs1) + (insnOf w).imm).toNat = false ∧ Dev.forceAddr ((s.dev.xreg (Dev.ctxNo u) (insnOf w).rs1) + (insnOf w).imm).toNat = false :=
  ⟨⟨7, 15, 7, 15⟩, 0x0062A023#32, 0, at_ (run7 15 0x0062A023 [(5, 0x80000000)]), by decide +kernel⟩

/-- States and operands that clause 12 of LoadsStoresAndLatchesReachTheirMemory is about. -/
theorem test_LoadsStoresAndLatchesReachTheirMemory_12 : ∃ (u : CtxId) (w : Word) (wait x : Nat) (s : State) (y : Nat), s.dev.Issues u w ∧ (insnOf w).op = .amoadd ∧ s.dev.heldBack (Dev.ctxNo u) = false ∧ ((insnOf w).code = 0 ∨ s.dev.accessesOut (Dev.ctxNo u) = false) ∧ ((s.dev.xreg (Dev.ctxNo u) (insnOf w).rs1) + (insnOf w).imm).toNat % 4 = 0 ∧ ((s.dev.areaOf (Dev.ctxNo u) ((s.dev.xreg (Dev.ctxNo u) (insnOf w).rs1) + (insnOf w).imm).toNat 4 = some (.clm x) ∧ y = Dev.clmAddr (Dev.ctxNo u / 32) x) ∨ (s.dev.areaOf (Dev.ctxNo u) ((s.dev.xreg (Dev.ctxNo u) (insnOf w).rs1) + (insnOf w).imm).toNat 4 = some (.pad x) ∧ s.dev.padMay (Dev.ctxNo u) x 4 true = true ∧ y = padAddr u.region.val u.block.val x)) ∧ s.dev.poisoned y = false :=
  ⟨⟨7, 15, 7, 15⟩, 0x0062AFAF#32, 200, 0x1FFFFC, at_ (run7 15 0x0062AFAF [(5, 0x101FFFFC), (6, 0xFFFFFFFF)]), (padAddr 7 15 0x1FFFFC), by decide +kernel⟩

/-- States and operands that clause 13 of LoadsStoresAndLatchesReachTheirMemory is about. -/
theorem test_LoadsStoresAndLatchesReachTheirMemory_13 : ∃ (u : CtxId) (w : Word) (wait x : Nat) (s : State) (y : Nat), s.dev.Issues u w ∧ (insnOf w).op = .amoadd ∧ s.dev.heldBack (Dev.ctxNo u) = false ∧ ((insnOf w).code = 0 ∨ s.dev.accessesOut (Dev.ctxNo u) = false) ∧ ((s.dev.xreg (Dev.ctxNo u) (insnOf w).rs1) + (insnOf w).imm).toNat % 4 = 0 ∧ ((s.dev.areaOf (Dev.ctxNo u) ((s.dev.xreg (Dev.ctxNo u) (insnOf w).rs1) + (insnOf w).imm).toNat 4 = some (.clm x) ∧ y = Dev.clmAddr (Dev.ctxNo u / 32) x) ∨ (s.dev.areaOf (Dev.ctxNo u) ((s.dev.xreg (Dev.ctxNo u) (insnOf w).rs1) + (insnOf w).imm).toNat 4 = some (.pad x) ∧ s.dev.padMay (Dev.ctxNo u) x 4 true = true ∧ y = padAddr u.region.val u.block.val x)) ∧ s.dev.poisoned y = true :=
  ⟨⟨7, 15, 7, 15⟩, 0x0062AFAF#32, 200, 0x7FFC, at_ (run7 15 0x0062AFAF [(5, 0x7FFC), (6, 1)] (d := d0.setPoison (Dev.clmAddr 1023 0x7FFC) true)), (Dev.clmAddr 1023 0x7FFC), by decide +kernel⟩

/-- States and operands that clause 14 of LoadsStoresAndLatchesReachTheirMemory is about. -/
theorem test_LoadsStoresAndLatchesReachTheirMemory_14 : ∃ (u : CtxId) (w : Word) (wait : Nat) (s : State), s.dev.Issues u w ∧ (insnOf w).op = .amoadd ∧ s.dev.heldBack (Dev.ctxNo u) = false ∧ ((insnOf w).code = 0 ∨ s.dev.accessesOut (Dev.ctxNo u) = false) ∧ ((s.dev.xreg (Dev.ctxNo u) (insnOf w).rs1) + (insnOf w).imm).toNat % 4 ≠ 0 :=
  ⟨⟨7, 15, 7, 15⟩, 0x0062AFAF#32, 0, at_ (run7 15 0x0062AFAF [(5, 2)]), by decide +kernel⟩

/-- States and operands that clause 15 of LoadsStoresAndLatchesReachTheirMemory is about. -/
theorem test_LoadsStoresAndLatchesReachTheirMemory_15 : ∃ (u : CtxId) (w : Word) (wait : Nat) (s : State), s.dev.Issues u w ∧ (insnOf w).op = .amoadd ∧ s.dev.heldBack (Dev.ctxNo u) = false ∧ ((insnOf w).code = 0 ∨ s.dev.accessesOut (Dev.ctxNo u) = false) ∧ ((s.dev.xreg (Dev.ctxNo u) (insnOf w).rs1) + (insnOf w).imm).toNat % 4 = 0 ∧ s.dev.areaOf (Dev.ctxNo u) ((s.dev.xreg (Dev.ctxNo u) (insnOf w).rs1) + (insnOf w).imm).toNat 4 = none :=
  ⟨⟨7, 15, 7, 15⟩, 0x0062AFAF#32, 0, at_ (run7 15 0x0062AFAF [(5, 0x30000000)]), by decide +kernel⟩

/-- States and operands that clause 16 of LoadsStoresAndLatchesReachTheirMemory is about. -/
theorem test_LoadsStoresAndLatchesReachTheirMemory_16 : ∃ (u : CtxId) (w : Word) (wait x : Nat) (s : State) (y : Nat), s.dev.Issues u w ∧ (insnOf w).op = .amoswap ∧ s.dev.heldBack (Dev.ctxNo u) = false ∧ ((insnOf w).code = 0 ∨ s.dev.accessesOut (Dev.ctxNo u) = false) ∧ ((s.dev.xreg (Dev.ctxNo u) (insnOf w).rs1) + (insnOf w).imm).toNat % 4 = 0 ∧ ((s.dev.areaOf (Dev.ctxNo u) ((s.dev.xreg (Dev.ctxNo u) (insnOf w).rs1) + (insnOf w).imm).toNat 4 = some (.clm x) ∧ y = Dev.clmAddr (Dev.ctxNo u / 32) x) ∨ (s.dev.areaOf (Dev.ctxNo u) ((s.dev.xreg (Dev.ctxNo u) (insnOf w).rs1) + (insnOf w).imm).toNat 4 = some (.pad x) ∧ s.dev.padMay (Dev.ctxNo u) x 4 true = true ∧ y = padAddr u.region.val u.block.val x)) ∧ s.dev.poisoned y = false :=
  ⟨⟨7, 15, 7, 15⟩, 0x0862AFAF#32, 200, 0x1FFFFC, at_ (run7 15 0x0862AFAF [(5, 0x101FFFFC), (6, 0xFFFFFFFF)]), (padAddr 7 15 0x1FFFFC), by decide +kernel⟩

/-- States and operands that clause 17 of LoadsStoresAndLatchesReachTheirMemory is about. -/
theorem test_LoadsStoresAndLatchesReachTheirMemory_17 : ∃ (u : CtxId) (w : Word) (wait x : Nat) (s : State) (y : Nat), s.dev.Issues u w ∧ (insnOf w).op = .amoswap ∧ s.dev.heldBack (Dev.ctxNo u) = false ∧ ((insnOf w).code = 0 ∨ s.dev.accessesOut (Dev.ctxNo u) = false) ∧ ((s.dev.xreg (Dev.ctxNo u) (insnOf w).rs1) + (insnOf w).imm).toNat % 4 = 0 ∧ ((s.dev.areaOf (Dev.ctxNo u) ((s.dev.xreg (Dev.ctxNo u) (insnOf w).rs1) + (insnOf w).imm).toNat 4 = some (.clm x) ∧ y = Dev.clmAddr (Dev.ctxNo u / 32) x) ∨ (s.dev.areaOf (Dev.ctxNo u) ((s.dev.xreg (Dev.ctxNo u) (insnOf w).rs1) + (insnOf w).imm).toNat 4 = some (.pad x) ∧ s.dev.padMay (Dev.ctxNo u) x 4 true = true ∧ y = padAddr u.region.val u.block.val x)) ∧ s.dev.poisoned y = true :=
  ⟨⟨7, 15, 7, 15⟩, 0x0862AFAF#32, 200, 0x7FFC, at_ (run7 15 0x0862AFAF [(5, 0x7FFC), (6, 1)] (d := d0.setPoison (Dev.clmAddr 1023 0x7FFC) true)), (Dev.clmAddr 1023 0x7FFC), by decide +kernel⟩

/-- States and operands that clause 18 of LoadsStoresAndLatchesReachTheirMemory is about. -/
theorem test_LoadsStoresAndLatchesReachTheirMemory_18 : ∃ (u : CtxId) (w : Word) (wait : Nat) (s : State), s.dev.Issues u w ∧ (insnOf w).op = .amoswap ∧ s.dev.heldBack (Dev.ctxNo u) = false ∧ ((insnOf w).code = 0 ∨ s.dev.accessesOut (Dev.ctxNo u) = false) ∧ ((s.dev.xreg (Dev.ctxNo u) (insnOf w).rs1) + (insnOf w).imm).toNat % 4 ≠ 0 :=
  ⟨⟨7, 15, 7, 15⟩, 0x0862AFAF#32, 0, at_ (run7 15 0x0862AFAF [(5, 2)]), by decide +kernel⟩

/-- States and operands that clause 19 of LoadsStoresAndLatchesReachTheirMemory is about. -/
theorem test_LoadsStoresAndLatchesReachTheirMemory_19 : ∃ (u : CtxId) (w : Word) (wait : Nat) (s : State), s.dev.Issues u w ∧ (insnOf w).op = .amoswap ∧ s.dev.heldBack (Dev.ctxNo u) = false ∧ ((insnOf w).code = 0 ∨ s.dev.accessesOut (Dev.ctxNo u) = false) ∧ ((s.dev.xreg (Dev.ctxNo u) (insnOf w).rs1) + (insnOf w).imm).toNat % 4 = 0 ∧ s.dev.areaOf (Dev.ctxNo u) ((s.dev.xreg (Dev.ctxNo u) (insnOf w).rs1) + (insnOf w).imm).toNat 4 = none :=
  ⟨⟨7, 15, 7, 15⟩, 0x0862AFAF#32, 0, at_ (run7 15 0x0862AFAF [(5, 0x30000000)]), by decide +kernel⟩

/-- States and operands that clause 20 of LoadsStoresAndLatchesReachTheirMemory is about. -/
theorem test_LoadsStoresAndLatchesReachTheirMemory_20 : ∃ (u : CtxId) (w : Word) (wait x : Nat) (s : State) (y : Nat), s.dev.Issues u w ∧ (insnOf w).op = .load ∧ s.dev.heldBack (Dev.ctxNo u) = false ∧ s.dev.accessesOut (Dev.ctxNo u) = false ∧ (Dev.widthOf (insnOf w).code) = 4 ∧ ((s.dev.xreg (Dev.ctxNo u) (insnOf w).rs1) + (insnOf w).imm).toNat % 4 = 0 ∧ ((s.dev.areaOf (Dev.ctxNo u) ((s.dev.xreg (Dev.ctxNo u) (insnOf w).rs1) + (insnOf w).imm).toNat 4 = some (.padLatch x) ∧ s.dev.padMay (Dev.ctxNo u) x 4 false = true ∧ y = padAddr u.region.val u.block.val x) ∨ (s.dev.areaOf (Dev.ctxNo u) ((s.dev.xreg (Dev.ctxNo u) (insnOf w).rs1) + (insnOf w).imm).toNat 4 = some (.sramLatch x) ∧ s.dev.sramUsed u.region x = false ∧ y = sramAddr u.region.val x)) ∧ s.dev.poisoned y = false ∧ s.dev.le y 4 = 0 :=
  ⟨⟨7, 15, 7, 15⟩, 0x0002AF83#32, 200, 0x1FFFFC, at_ (run7 15 0x0002AF83 [(5, 0x103FFFFC)]), (padAddr 7 15 0x1FFFFC), by decide +kernel⟩

/-- States and operands that clause 21 of LoadsStoresAndLatchesReachTheirMemory is about. -/
theorem test_LoadsStoresAndLatchesReachTheirMemory_21 : ∃ (u : CtxId) (w : Word) (wait x : Nat) (s : State) (y : Nat), s.dev.Issues u w ∧ (insnOf w).op = .load ∧ s.dev.heldBack (Dev.ctxNo u) = false ∧ s.dev.accessesOut (Dev.ctxNo u) = false ∧ (Dev.widthOf (insnOf w).code) = 4 ∧ ((s.dev.xreg (Dev.ctxNo u) (insnOf w).rs1) + (insnOf w).imm).toNat % 4 = 0 ∧ ((s.dev.areaOf (Dev.ctxNo u) ((s.dev.xreg (Dev.ctxNo u) (insnOf w).rs1) + (insnOf w).imm).toNat 4 = some (.padLatch x) ∧ s.dev.padMay (Dev.ctxNo u) x 4 false = true ∧ y = padAddr u.region.val u.block.val x) ∨ (s.dev.areaOf (Dev.ctxNo u) ((s.dev.xreg (Dev.ctxNo u) (insnOf w).rs1) + (insnOf w).imm).toNat 4 = some (.sramLatch x) ∧ s.dev.sramUsed u.region x = false ∧ y = sramAddr u.region.val x)) ∧ s.dev.poisoned y = false ∧ s.dev.le y 4 ≠ 0 ∧ bitOf (s.dev.le y 4) 31 = false ∧ (bitOf (s.dev.le y 4) 0 = false ∨ s.dev.holderLive u.region (s.dev.le y 4) = true ∨ s.dev.le y 4 = (s.dev.ctxHolder (Dev.ctxNo u))) :=
  ⟨⟨7, 15, 7, 15⟩, 0x0002AF83#32, 200, 0x2FFFFFC, at_ (run7 15 0x0002AF83 [(5, 0x22FFFFFC)] (d := d0.setByte (sramAddr 7 0x2FFFFFC) 2)), (sramAddr 7 0x2FFFFFC), by decide +kernel⟩

/-- States and operands that clause 22 of LoadsStoresAndLatchesReachTheirMemory is about. -/
theorem test_LoadsStoresAndLatchesReachTheirMemory_22 : ∃ (u : CtxId) (w : Word) (wait x : Nat) (s : State) (y : Nat), s.dev.Issues u w ∧ (insnOf w).op = .load ∧ s.dev.heldBack (Dev.ctxNo u) = false ∧ s.dev.accessesOut (Dev.ctxNo u) = false ∧ (Dev.widthOf (insnOf w).code) = 4 ∧ ((s.dev.xreg (Dev.ctxNo u) (insnOf w).rs1) + (insnOf w).imm).toNat % 4 = 0 ∧ ((s.dev.areaOf (Dev.ctxNo u) ((s.dev.xreg (Dev.ctxNo u) (insnOf w).rs1) + (insnOf w).imm).toNat 4 = some (.padLatch x) ∧ s.dev.padMay (Dev.ctxNo u) x 4 false = true ∧ y = padAddr u.region.val u.block.val x) ∨ (s.dev.areaOf (Dev.ctxNo u) ((s.dev.xreg (Dev.ctxNo u) (insnOf w).rs1) + (insnOf w).imm).toNat 4 = some (.sramLatch x) ∧ s.dev.sramUsed u.region x = false ∧ y = sramAddr u.region.val x)) ∧ s.dev.poisoned y = false ∧ s.dev.on (CHP_COMPAT_a1 s.dev.A) = false ∧ s.dev.le y 4 ≠ (s.dev.ctxHolder (Dev.ctxNo u)) ∧ (bitOf (s.dev.le y 4) 31 = true ∨ bitOf (s.dev.le y 4) 0 = true ∧ s.dev.holderLive u.region (s.dev.le y 4) = false) :=
  ⟨⟨7, 15, 7, 15⟩, 0x0002AF83#32, 200, 0x2FFFFFC, at_ (run7 15 0x0002AF83 [(5, 0x22FFFFFC)] (d := d0.setByte (sramAddr 7 0x2FFFFFF) 0x80)), (sramAddr 7 0x2FFFFFC), by decide +kernel⟩

/-- States and operands that clause 23 of LoadsStoresAndLatchesReachTheirMemory is about. -/
theorem test_LoadsStoresAndLatchesReachTheirMemory_23 : ∃ (u : CtxId) (w : Word) (wait : Nat) (s : State) (c : Instr), s.dev.Issues u w ∧ s.dev.heldBack (Dev.ctxNo u) = false ∧ s.dev.accessesOut (Dev.ctxNo u) = false ∧ Dev.latchAddr ((s.dev.xreg (Dev.ctxNo u) (insnOf w).rs1) + (insnOf w).imm).toNat = true ∧ ((Dev.widthOf (insnOf w).code) ≠ 4 ∨ ((s.dev.xreg (Dev.ctxNo u) (insnOf w).rs1) + (insnOf w).imm).toNat % 4 ≠ 0) ∧ ((insnOf w).op = .load ∧ c = .latchRead u w wait ∨ (insnOf w).op = .store ∧ c = .latchWrite u w wait) :=
  ⟨⟨7, 15, 7, 15⟩, 0xFFF28F83#32, 0, at_ (run7 15 0xFFF28F83 [(5, 0x10200001)]), .latchRead ⟨7, 15, 7, 15⟩ 0xFFF28F83#32 0, by decide +kernel⟩

/-- States and operands that clause 24 of LoadsStoresAndLatchesReachTheirMemory is about. -/
theorem test_LoadsStoresAndLatchesReachTheirMemory_24 : ∃ (u : CtxId) (w : Word) (wait x : Nat) (s : State) (y : Nat), s.dev.Issues u w ∧ (insnOf w).op = .store ∧ s.dev.heldBack (Dev.ctxNo u) = false ∧ s.dev.accessesOut (Dev.ctxNo u) = false ∧ (Dev.widthOf (insnOf w).code) = 4 ∧ ((s.dev.xreg (Dev.ctxNo u) (insnOf w).rs1) + (insnOf w).imm).toNat % 4 = 0 ∧ ((s.dev.areaOf (Dev.ctxNo u) ((s.dev.xreg (Dev.ctxNo u) (insnOf w).rs1) + (insnOf w).imm).toNat 4 = some (.padLatch x) ∧ s.dev.padMay (Dev.ctxNo u) x 4 true = true ∧ y = padAddr u.region.val u.block.val x) ∨ (s.dev.areaOf (Dev.ctxNo u) ((s.dev.xreg (Dev.ctxNo u) (insnOf w).rs1) + (insnOf w).imm).toNat 4 = some (.sramLatch x) ∧ s.dev.sramUsed u.region x = false ∧ y = sramAddr u.region.val x)) ∧ (s.dev.xreg (Dev.ctxNo u) (insnOf w).rs2) = 0 ∧ s.dev.le y 4 = (s.dev.ctxHolder (Dev.ctxNo u)) ∧ s.dev.poisoned y = false :=
  ⟨⟨7, 15, 7, 15⟩, 0x0062A023#32, 200, 0x1FFFFC, at_ (run7 15 0x0062A023 [(5, 0x103FFFFC)] (d := (d0.setLE (padAddr 7 15 0x1FFFFC) 4 (d0.ctxHolder 32751)))), (padAddr 7 15 0x1FFFFC), by decide +kernel⟩

/-- States and operands that clause 25 of LoadsStoresAndLatchesReachTheirMemory is about. -/
theorem test_LoadsStoresAndLatchesReachTheirMemory_25 : ∃ (u : CtxId) (w : Word) (wait x : Nat) (s : State) (y : Nat), s.dev.Issues u w ∧ (insnOf w).op = .store ∧ s.dev.heldBack (Dev.ctxNo u) = false ∧ s.dev.accessesOut (Dev.ctxNo u) = false ∧ (Dev.widthOf (insnOf w).code) = 4 ∧ ((s.dev.xreg (Dev.ctxNo u) (insnOf w).rs1) + (insnOf w).imm).toNat % 4 = 0 ∧ ((s.dev.areaOf (Dev.ctxNo u) ((s.dev.xreg (Dev.ctxNo u) (insnOf w).rs1) + (insnOf w).imm).toNat 4 = some (.padLatch x) ∧ s.dev.padMay (Dev.ctxNo u) x 4 true = true ∧ y = padAddr u.region.val u.block.val x) ∨ (s.dev.areaOf (Dev.ctxNo u) ((s.dev.xreg (Dev.ctxNo u) (insnOf w).rs1) + (insnOf w).imm).toNat 4 = some (.sramLatch x) ∧ s.dev.sramUsed u.region x = false ∧ y = sramAddr u.region.val x)) ∧ ((s.dev.xreg (Dev.ctxNo u) (insnOf w).rs2) ≠ 0 ∨ s.dev.le y 4 ≠ (s.dev.ctxHolder (Dev.ctxNo u)) ∧ s.dev.poisoned y = false) :=
  ⟨⟨7, 15, 7, 15⟩, 0x0062A023#32, 200, 0x1FFFFC, at_ (run7 15 0x0062A023 [(5, 0x103FFFFC), (6, 1)]), (padAddr 7 15 0x1FFFFC), by decide +kernel⟩

/-- States and operands that clause 26 of LoadsStoresAndLatchesReachTheirMemory is about. -/
theorem test_LoadsStoresAndLatchesReachTheirMemory_26 : ∃ (u : CtxId) (w : Word) (wait x : Nat) (s : State), s.dev.Issues u w ∧ (insnOf w).op = .store ∧ s.dev.heldBack (Dev.ctxNo u) = false ∧ (Dev.widthOf (insnOf w).code) = 4 ∧ x % 4 = 0 ∧ s.dev.areaOf (Dev.ctxNo u) ((s.dev.xreg (Dev.ctxNo u) (insnOf w).rs1) + (insnOf w).imm).toNat 4 = some (.padForce x) ∧ s.dev.padMay (Dev.ctxNo u) x 4 true = true ∧ s.dev.poisoned (padAddr u.region.val u.block.val x) = false :=
  ⟨⟨7, 15, 7, 16⟩, 0x0062A023#32, 200, 0x1FFFFC, at_ (run7 16 0x0062A023 [(5, 0x105FFFFC), (6, 1)]), by decide +kernel⟩

/-- States and operands that clause 27 of LoadsStoresAndLatchesReachTheirMemory is about. -/
theorem test_LoadsStoresAndLatchesReachTheirMemory_27 : ∃ (u : CtxId) (w : Word) (wait : Nat) (s : State), s.dev.Issues u w ∧ (insnOf w).op = .store ∧ s.dev.heldBack (Dev.ctxNo u) = false ∧ Dev.forceAddr ((s.dev.xreg (Dev.ctxNo u) (insnOf w).rs1) + (insnOf w).imm).toNat = true ∧ u.ctx.val ≠ 16 :=
  ⟨⟨7, 15, 7, 15⟩, 0x0062A023#32, 0, at_ (run7 15 0x0062A023 [(5, 0x10400000)]), by decide +kernel⟩

/-- States and operands that clause 1 of PacketInstructionsAndTheCoprocessor is about. -/
theorem test_PacketInstructionsAndTheCoprocessor_1 : ∃ (u : CtxId) (w : Word) (n : Nat) (p : Packet) (used : Nat) (s : State), s.dev.Issues u w ∧ (insnOf w).op = .retire ∧ u.ctx.val ≠ 16 ∧ (s.dev.ctx (Dev.ctxNo u)).held = some n ∧ s.dev.pkt n = some p ∧ (s.dev.xreg (Dev.ctxNo u) (insnOf w).rs1).toNat / 2 ^ 28 = 2 ∧ bitsOf (s.dev.xreg (Dev.ctxNo u) (insnOf w).rs1).toNat 26 5 = 0 ∧ (s.dev.xreg (Dev.ctxNo u) (insnOf w).rs1).toNat % 32 = 0 :=
  ⟨⟨7, 15, 7, 15⟩, 0x3862A00B#32, 0, (pk (.placed 32751)), 78, at_ (run7 15 0x3862A00B [(5, 0x20000000)] (f := fun c => { c with held := some 0 }) (d := (dp (.placed 32751)))), by decide +kernel⟩

/-- States and operands that clause 2 of PacketInstructionsAndTheCoprocessor is about. -/
theorem test_PacketInstructionsAndTheCoprocessor_2 : ∃ (u : CtxId) (w : Word) (n : Nat) (p : Packet) (used : Nat) (s : State), s.dev.Issues u w ∧ (insnOf w).op = .retire ∧ u.ctx.val ≠ 16 ∧ (s.dev.ctx (Dev.ctxNo u)).held = some n ∧ s.dev.pkt n = some p ∧ ((s.dev.xreg (Dev.ctxNo u) (insnOf w).rs1).toNat / 2 ^ 28 = 0 ∨ 4 < (s.dev.xreg (Dev.ctxNo u) (insnOf w).rs1).toNat / 2 ^ 28 ∨ bitsOf (s.dev.xreg (Dev.ctxNo u) (insnOf w).rs1).toNat 26 5 ≠ 0 ∨ 16 < (s.dev.xreg (Dev.ctxNo u) (insnOf w).rs1).toNat % 32) :=
  ⟨⟨7, 15, 7, 15⟩, 0x3862A00B#32, 0, (pk (.placed 32751)), 78, at_ (run7 15 0x3862A00B [(5, 0x10000011)] (f := fun c => { c with held := some 0 }) (d := (dp (.placed 32751)))), by decide +kernel⟩

/-- States and operands that clause 3 of PacketInstructionsAndTheCoprocessor is about. -/
theorem test_PacketInstructionsAndTheCoprocessor_3 : ∃ (u : CtxId) (w : Word) (n : Nat) (p : Packet) (used x : Nat) (s : State), s.dev.Issues u w ∧ (insnOf w).op = .retire ∧ u.ctx.val ≠ 16 ∧ (s.dev.ctx (Dev.ctxNo u)).held = some n ∧ s.dev.pkt n = some p ∧ Dev.verdictOk (s.dev.xreg (Dev.ctxNo u) (insnOf w).rs1).toNat = true ∧ ((s.dev.xreg (Dev.ctxNo u) (insnOf w).rs1).toNat % 32 = 0 ∨ ((s.dev.xreg (Dev.ctxNo u) (insnOf w).rs3).toNat % 8 = 0 ∧ s.dev.spanOf (Dev.ctxNo u) (s.dev.xreg (Dev.ctxNo u) (insnOf w).rs3).toNat (8 * ((s.dev.xreg (Dev.ctxNo u) (insnOf w).rs1).toNat % 32)) false = .inr x ∧ s.dev.anyPoison x (8 * ((s.dev.xreg (Dev.ctxNo u) (insnOf w).rs1).toNat % 32)) = false)) :=
  ⟨⟨7, 15, 7, 15⟩, 0x3862A00B#32, 0, (pk (.placed 32751)), 78, (Dev.clmAddr 1023 0x7F80), at_ (run7 15 0x3862A00B [(5, 0x10000010), (6, 0x40007FFF), (7, 0x7F80)] (f := fun c => { c with held := some 0 }) (d := (dp (.placed 32751)))), by decide +kernel⟩

/-- States and operands that clause 4 of PacketInstructionsAndTheCoprocessor is about. -/
theorem test_PacketInstructionsAndTheCoprocessor_4 : ∃ (u : CtxId) (w : Word) (n : Nat) (p : Packet) (used : Nat) (s : State), s.dev.Issues u w ∧ (insnOf w).op = .retire ∧ u.ctx.val ≠ 16 ∧ (s.dev.ctx (Dev.ctxNo u)).held = some n ∧ s.dev.pkt n = some p ∧ Dev.verdictOk (s.dev.xreg (Dev.ctxNo u) (insnOf w).rs1).toNat = true ∧ (s.dev.xreg (Dev.ctxNo u) (insnOf w).rs1).toNat % 32 ≠ 0 ∧ (s.dev.xreg (Dev.ctxNo u) (insnOf w).rs3).toNat % 8 ≠ 0 :=
  ⟨⟨7, 15, 7, 15⟩, 0x3862A00B#32, 0, (pk (.placed 32751)), 0, at_ (run7 15 0x3862A00B [(5, 0x10000001), (7, 4)] (f := fun c => { c with held := some 0 }) (d := (dp (.placed 32751)))), by decide +kernel⟩

/-- States and operands that clause 5 of PacketInstructionsAndTheCoprocessor is about. -/
theorem test_PacketInstructionsAndTheCoprocessor_5 : ∃ (u : CtxId) (w : Word) (n : Nat) (p : Packet) (y z : Nat) (s : State), s.dev.Issues u w ∧ (insnOf w).op = .lkup ∧ u.ctx.val ≠ 16 ∧ (s.dev.ctx (Dev.ctxNo u)).held = some n ∧ s.dev.pkt n = some p ∧ Dev.lookupsOf (s.dev.ctx (Dev.ctxNo u)) < 4 ∧ s.dev.blockLookups u.region.val u.block.val < 16 ∧ (s.dev.xreg (Dev.ctxNo u) (insnOf w).rs1).toNat % 8 = 0 ∧ s.dev.spanOf (Dev.ctxNo u) (s.dev.xreg (Dev.ctxNo u) (insnOf w).rs1).toNat 8 false = .inr y ∧ s.dev.anyPoison y 8 = false ∧ 1 ≤ (s.dev.le (y + 2) 1) ∧ (s.dev.le (y + 2) 1) ≤ 48 ∧ s.dev.spanOf (Dev.ctxNo u) ((s.dev.xreg (Dev.ctxNo u) (insnOf w).rs1).toNat + 8) (s.dev.le (y + 2) 1) false = .inr (y + 8) ∧ s.dev.anyPoison (y + 8) (s.dev.le (y + 2) 1) = false ∧ (s.dev.le (y + 4) 2) % 32 = 0 ∧ s.dev.spanOf (Dev.ctxNo u) (s.dev.le (y + 4) 2) 32 true = .inr z ∧ s.dev.poisoned z = false :=
  ⟨⟨7, 15, 7, 15⟩, 0x00028FAB#32, 0, (pk (.placed 32751)), (Dev.clmAddr 1023 0x7FC0), (Dev.clmAddr 1023 0x7F00), at_ (run7 15 0x00028FAB [(5, 0x7FC0)] (f := fun c => { c with held := some 0 }) (d := (((dp (.placed 32751)).setByte (Dev.clmAddr 1023 0x7FC2) 48).setByte (Dev.clmAddr 1023 0x7FC5) 0x7F))), by decide +kernel⟩

/-- States and operands that clause 6 of PacketInstructionsAndTheCoprocessor is about. -/
theorem test_PacketInstructionsAndTheCoprocessor_6 : ∃ (u : CtxId) (w : Word) (n : Nat) (p : Packet) (y : Nat) (s : State), s.dev.Issues u w ∧ (insnOf w).op = .lkup ∧ u.ctx.val ≠ 16 ∧ (s.dev.ctx (Dev.ctxNo u)).held = some n ∧ s.dev.pkt n = some p ∧ Dev.lookupsOf (s.dev.ctx (Dev.ctxNo u)) < 4 ∧ s.dev.blockLookups u.region.val u.block.val < 16 ∧ (s.dev.xreg (Dev.ctxNo u) (insnOf w).rs1).toNat % 8 = 0 ∧ s.dev.spanOf (Dev.ctxNo u) (s.dev.xreg (Dev.ctxNo u) (insnOf w).rs1).toNat 8 false = .inr y ∧ s.dev.anyPoison y 8 = false ∧ ((s.dev.le (y + 2) 1) = 0 ∨ 48 < (s.dev.le (y + 2) 1)) :=
  ⟨⟨7, 15, 7, 15⟩, 0x00028FAB#32, 0, (pk (.placed 32751)), (Dev.clmAddr 1023 0x7FF8), at_ (run7 15 0x00028FAB [(5, 0x7FF8)] (f := fun c => { c with held := some 0 }) (d := ((dp (.placed 32751)).setByte (Dev.clmAddr 1023 0x7FFA) 49))), by decide +kernel⟩

/-- States and operands that clause 7 of PacketInstructionsAndTheCoprocessor is about. -/
theorem test_PacketInstructionsAndTheCoprocessor_7 : ∃ (u : CtxId) (w : Word) (n : Nat) (p : Packet) (s : State), s.dev.Issues u w ∧ (insnOf w).op = .lkup ∧ u.ctx.val ≠ 16 ∧ (s.dev.ctx (Dev.ctxNo u)).held = some n ∧ s.dev.pkt n = some p ∧ Dev.lookupsOf (s.dev.ctx (Dev.ctxNo u)) < 4 ∧ s.dev.blockLookups u.region.val u.block.val < 16 ∧ (s.dev.xreg (Dev.ctxNo u) (insnOf w).rs1).toNat % 8 ≠ 0 :=
  ⟨⟨7, 15, 7, 15⟩, 0x00028FAB#32, 0, (pk (.placed 32751)), at_ (run7 15 0x00028FAB [(5, 4)] (f := fun c => { c with held := some 0 }) (d := (dp (.placed 32751)))), by decide +kernel⟩

/-- States and operands that clause 8 of PacketInstructionsAndTheCoprocessor is about. -/
theorem test_PacketInstructionsAndTheCoprocessor_8 : ∃ (u : CtxId) (w : Word) (n : Nat) (p : Packet) (y h : Nat) (s : State), s.dev.Issues u w ∧ (insnOf w).op = .sfetch ∧ u.ctx.val ≠ 16 ∧ (s.dev.ctx (Dev.ctxNo u)).held = some n ∧ s.dev.pkt n = some p ∧ Dev.fetchesOf (s.dev.ctx (Dev.ctxNo u)) < 2 ∧ (s.dev.xreg (Dev.ctxNo u) (insnOf w).rs1).toNat % 64 = 0 ∧ s.dev.spanOf (Dev.ctxNo u) (s.dev.xreg (Dev.ctxNo u) (insnOf w).rs1).toNat 256 true = .inr y ∧ (s.dev.stitches 512 0 p.head)[(s.dev.xreg (Dev.ctxNo u) (insnOf w).rs2).toNat]? = some h :=
  ⟨⟨7, 15, 7, 15⟩, 0x00629FAB#32, 0, (pk (.placed 32751)), (Dev.clmAddr 1023 0x7F00), (7 * 2 ^ 29), at_ (run7 15 0x00629FAB [(5, 0x7F00), (6, 0)] (f := fun c => { c with held := some 0 }) (d := ((dp (.placed 32751)).setDesc (7 * 2 ^ 29) (stitch 1)))), by decide +kernel⟩

/-- States and operands that clause 9 of PacketInstructionsAndTheCoprocessor is about. -/
theorem test_PacketInstructionsAndTheCoprocessor_9 : ∃ (u : CtxId) (w : Word) (n : Nat) (p : Packet) (y : Nat) (s : State), s.dev.Issues u w ∧ (insnOf w).op = .sfetch ∧ u.ctx.val ≠ 16 ∧ (s.dev.ctx (Dev.ctxNo u)).held = some n ∧ s.dev.pkt n = some p ∧ Dev.fetchesOf (s.dev.ctx (Dev.ctxNo u)) < 2 ∧ (s.dev.xreg (Dev.ctxNo u) (insnOf w).rs1).toNat % 64 = 0 ∧ s.dev.spanOf (Dev.ctxNo u) (s.dev.xreg (Dev.ctxNo u) (insnOf w).rs1).toNat 256 true = .inr y ∧ (s.dev.stitches 512 0 p.head)[(s.dev.xreg (Dev.ctxNo u) (insnOf w).rs2).toNat]? = none :=
  ⟨⟨7, 15, 7, 15⟩, 0x00629FAB#32, 0, (pk (.placed 32751)), (Dev.clmAddr 1023 0x7F00), at_ (run7 15 0x00629FAB [(5, 0x7F00), (6, 1)] (f := fun c => { c with held := some 0 }) (d := ((dp (.placed 32751)).setDesc (7 * 2 ^ 29) (stitch 1)))), by decide +kernel⟩

/-- States and operands that clause 10 of PacketInstructionsAndTheCoprocessor is about. -/
theorem test_PacketInstructionsAndTheCoprocessor_10 : ∃ (u : CtxId) (w : Word) (n : Nat) (p : Packet) (s : State), s.dev.Issues u w ∧ (insnOf w).op = .sfetch ∧ u.ctx.val ≠ 16 ∧ (s.dev.ctx (Dev.ctxNo u)).held = some n ∧ s.dev.pkt n = some p ∧ Dev.fetchesOf (s.dev.ctx (Dev.ctxNo u)) < 2 ∧ (s.dev.xreg (Dev.ctxNo u) (insnOf w).rs1).toNat % 64 ≠ 0 :=
  ⟨⟨7, 15, 7, 15⟩, 0x00629FAB#32, 0, (pk (.placed 32751)), at_ (run7 15 0x00629FAB [(5, 32)] (f := fun c => { c with held := some 0 }) (d := (dp (.placed 32751)))), by decide +kernel⟩

/-- States and operands that clause 11 of PacketInstructionsAndTheCoprocessor is about. -/
theorem test_PacketInstructionsAndTheCoprocessor_11 : ∃ (u : CtxId) (i dest h : Nat) (s : State), (s.dev.ctx (Dev.ctxNo u)).outstanding[i]? = some (.fetch dest h false) :=
  ⟨⟨7, 15, 7, 15⟩, 0, 0x7F00, (7 * 2 ^ 29), at_ (d0.modCtx 32751 fun c => { c with outstanding := [.fetch 0x7F00 (7 * 2 ^ 29) false] }), by decide +kernel⟩

/-- States and operands that clause 12 of PacketInstructionsAndTheCoprocessor is about. -/
theorem test_PacketInstructionsAndTheCoprocessor_12 : ∃ (u : CtxId) (i dest h : Nat) (s : State), u.ctx.val ≠ 16 ∧ (s.dev.ctx (Dev.ctxNo u)).outstanding[i]? = some (.fetch dest h true) ∧ (s.dev.readStitch h).1 = .ok ∧ dest % 64 = 0 ∧ s.dev.areaOf (Dev.ctxNo u) dest 256 = some (.clm dest) ∧ (s.dev.ctx (Dev.ctxNo u)).mode ≠ .waiting :=
  ⟨⟨7, 15, 7, 15⟩, 0, 0x7F00, (7 * 2 ^ 29), at_ (d0.modCtx 32751 fun c => { c with outstanding := [.fetch 0x7F00 (7 * 2 ^ 29) true] }), by decide +kernel⟩

/-- States and operands that clause 13 of PacketInstructionsAndTheCoprocessor is about. -/
theorem test_PacketInstructionsAndTheCoprocessor_13 : ∃ (u : CtxId) (w : Word) (n : Nat) (p : Packet) (y : Nat) (s : State), s.dev.Issues u w ∧ (insnOf w).op = .mutreq ∧ u.ctx.val ≠ 16 ∧ (s.dev.ctx (Dev.ctxNo u)).held = some n ∧ s.dev.pkt n = some p ∧ s.dev.spanOf (Dev.ctxNo u) (s.dev.xreg (Dev.ctxNo u) (insnOf w).rs1).toNat 32 false = .inr y ∧ s.dev.spanOf (Dev.ctxNo u) (s.dev.xreg (Dev.ctxNo u) (insnOf w).rs1).toNat (32 + 32 * (Mut.ofBytes (s.dev.bytes y 32)).extCount) false = .inr y ∧ s.dev.anyPoison y (32 + 32 * (Mut.ofBytes (s.dev.bytes y 32)).extCount) = false :=
  ⟨⟨7, 15, 7, 15⟩, 0x0002AFAB#32, 0, (pk (.placed 32751)), (Dev.clmAddr 1023 0x7FE0), at_ (run7 15 0x0002AFAB [(5, 0x7FE0)] (f := fun c => { c with held := some 0 }) (d := (dp (.placed 32751)))), by decide +kernel⟩

/-- States and operands that clause 14 of PacketInstructionsAndTheCoprocessor is about. -/
theorem test_PacketInstructionsAndTheCoprocessor_14 : ∃ (u : CtxId) (rd v : Nat) (s : State), (s.dev.ctx (Dev.ctxNo u)).mutRd = some (rd, v) :=
  ⟨⟨7, 15, 7, 15⟩, 31, 9, at_ (d0.modCtx 32751 fun c => { c with mutRd := some (31, 9) }), by decide +kernel⟩

/-- States and operands that clause 15 of PacketInstructionsAndTheCoprocessor is about. -/
theorem test_PacketInstructionsAndTheCoprocessor_15 : ∃ (u : CtxId) (w : Word) (used : Nat) (s : State) (c : Instr), s.dev.Issues u w ∧ (u.ctx.val = 16 ∨ (s.dev.ctx (Dev.ctxNo u)).held = none) ∧ ((insnOf w).op = .retire ∧ c = .retire u w used ∨ (insnOf w).op = .lkup ∧ c = .lkup u w ∨ (insnOf w).op = .sfetch ∧ c = .sfetch u w ∨ (insnOf w).op = .mutreq ∧ c = .mutreq u w) :=
  ⟨⟨7, 15, 7, 16⟩, 0x00028FAB#32, 0, at_ (run7 16 0x00028FAB []), .lkup ⟨7, 15, 7, 16⟩ 0x00028FAB#32, by decide +kernel⟩

/-- States and operands that clause 16 of PacketInstructionsAndTheCoprocessor is about. -/
theorem test_PacketInstructionsAndTheCoprocessor_16 : ∃ (u : CtxId) (w : Word) (s : State) (c : Instr), s.dev.Issues u w ∧ s.dev.cpEnabled (Dev.ctxNo u) = false ∧ ((insnOf w).op = .cpop ∧ cpCommand u w (insnOf w).code = some c ∨ (insnOf w).op = .cpsave ∧ c = .cpsave u w ∨ (insnOf w).op = .cprestore ∧ c = .cprestore u w) :=
  ⟨⟨7, 15, 7, 15⟩, 0xA4628FFB#32, at_ (run7 15 0xA4628FFB []), .idxResult ⟨7, 15, 7, 15⟩ 0xA4628FFB#32, by decide +kernel⟩

/-- States and operands that clause 17 of PacketInstructionsAndTheCoprocessor is about. -/
theorem test_PacketInstructionsAndTheCoprocessor_17 : ∃ (u : CtxId) (w : Word) (s : State) (c : Instr), s.dev.Issues u w ∧ s.dev.cpEnabled (Dev.ctxNo u) = true ∧ (insnOf w).op = .cpop ∧ cpCommand u w (insnOf w).code = some c :=
  ⟨⟨7, 15, 7, 15⟩, 0xA4628FFB#32, at_ (run7 15 0xA4628FFB [] (d := (d0.setFld (CEL_CPXEN_u_en 1023) 1))), .idxResult ⟨7, 15, 7, 15⟩ 0xA4628FFB#32, by decide +kernel⟩

/-- States and operands that clause 18 of PacketInstructionsAndTheCoprocessor is about. -/
theorem test_PacketInstructionsAndTheCoprocessor_18 : ∃ (u : CtxId) (w : Word) (s : State), s.dev.Issues u w ∧ s.dev.cpEnabled (Dev.ctxNo u) = true ∧ (insnOf w).op = .cpop ∧ (insnOf w).code = 0x00 :=
  ⟨⟨7, 15, 7, 15⟩, 0x00628FFB#32, at_ (run7 15 0x00628FFB [] (d := (d0.setFld (CEL_CPXEN_u_en 1023) 1))), by decide +kernel⟩

/-- States and operands that clause 19 of PacketInstructionsAndTheCoprocessor is about. -/
theorem test_PacketInstructionsAndTheCoprocessor_19 : ∃ (u : CtxId) (w : Word) (s : State), s.dev.Issues u w ∧ s.dev.cpEnabled (Dev.ctxNo u) = true ∧ (insnOf w).op = .cpop ∧ (insnOf w).code = 0x01 ∧ (((s.dev.ctx (Dev.ctxNo u)).copro.algorithm = 1 ∨ (s.dev.ctx (Dev.ctxNo u)).copro.algorithm = 2)) ∧ 8 ≤ (s.dev.xreg (Dev.ctxNo u) (insnOf w).rs1).toNat :=
  ⟨⟨7, 15, 7, 15⟩, 0x02628FFB#32, at_ (run7 15 0x02628FFB [(5, 8)] (f := fun c => { c with copro := { c.copro with algorithm := 2 } }) (d := (d0.setFld (CEL_CPXEN_u_en 1023) 1))), by decide +kernel⟩

/-- States and operands that clause 20 of PacketInstructionsAndTheCoprocessor is about. -/
theorem test_PacketInstructionsAndTheCoprocessor_20 : ∃ (u : CtxId) (w : Word) (s : State), s.dev.Issues u w ∧ s.dev.cpEnabled (Dev.ctxNo u) = true ∧ (insnOf w).op = .cpop ∧ (insnOf w).code = 0x02 ∧ (s.dev.ctx (Dev.ctxNo u)).copro.algorithm ≠ 1 ∧ (s.dev.ctx (Dev.ctxNo u)).copro.algorithm ≠ 2 :=
  ⟨⟨7, 15, 7, 15⟩, 0x04628FFB#32, at_ (run7 15 0x04628FFB [(5, 2)] (d := (d0.setFld (CEL_CPXEN_u_en 1023) 1))), by decide +kernel⟩

/-- States and operands that clause 21 of PacketInstructionsAndTheCoprocessor is about. -/
theorem test_PacketInstructionsAndTheCoprocessor_21 : ∃ (u : CtxId) (w : Word) (s : State), s.dev.Issues u w ∧ s.dev.cpEnabled (Dev.ctxNo u) = true ∧ (insnOf w).op = .cpop ∧ (insnOf w).code = 0x03 ∧ (s.dev.xreg (Dev.ctxNo u) (insnOf w).rs1).toNat < 2 :=
  ⟨⟨7, 15, 7, 15⟩, 0x06628FFB#32, at_ (run7 15 0x06628FFB [(5, 1)] (d := (d0.setFld (CEL_CPXEN_u_en 1023) 1))), by decide +kernel⟩

/-- States and operands that clause 22 of PacketInstructionsAndTheCoprocessor is about. -/
theorem test_PacketInstructionsAndTheCoprocessor_22 : ∃ (u : CtxId) (w : Word) (s : State), s.dev.Issues u w ∧ s.dev.cpEnabled (Dev.ctxNo u) = true ∧ (insnOf w).op = .cpop ∧ (insnOf w).code = 0x04 ∧ (((s.dev.ctx (Dev.ctxNo u)).copro.algorithm = 1 ∨ (s.dev.ctx (Dev.ctxNo u)).copro.algorithm = 2)) ∧ ((s.dev.ctx (Dev.ctxNo u)).copro.phase = 2 ∨ (s.dev.ctx (Dev.ctxNo u)).copro.phase = 3) ∧ 1 ≤ (s.dev.xreg (Dev.ctxNo u) (insnOf w).rs2).toNat ∧ (s.dev.xreg (Dev.ctxNo u) (insnOf w).rs2).toNat ≤ 4 :=
  ⟨⟨7, 15, 7, 15⟩, 0x08628FFB#32, at_ (run7 15 0x08628FFB [(6, 4)] (f := fun c => { c with copro := { c.copro with algorithm := 2, phase := 2 } }) (d := (d0.setFld (CEL_CPXEN_u_en 1023) 1))), by decide +kernel⟩

/-- States and operands that clause 23 of PacketInstructionsAndTheCoprocessor is about. -/
theorem test_PacketInstructionsAndTheCoprocessor_23 : ∃ (u : CtxId) (w : Word) (s : State), s.dev.Issues u w ∧ s.dev.cpEnabled (Dev.ctxNo u) = true ∧ (insnOf w).op = .cpop ∧ (insnOf w).code = 0x05 ∧ (s.dev.xreg (Dev.ctxNo u) (insnOf w).rs2) = 0 :=
  ⟨⟨7, 15, 7, 15⟩, 0x0A628FFB#32, at_ (run7 15 0x0A628FFB [(5, 7)] (d := (d0.setFld (CEL_CPXEN_u_en 1023) 1))), by decide +kernel⟩

/-- States and operands that clause 24 of PacketInstructionsAndTheCoprocessor is about. -/
theorem test_PacketInstructionsAndTheCoprocessor_24 : ∃ (u : CtxId) (w : Word) (s : State), s.dev.Issues u w ∧ s.dev.cpEnabled (Dev.ctxNo u) = true ∧ (insnOf w).op = .cpop ∧ (insnOf w).code = 0x06 ∧ 4 < (s.dev.xreg (Dev.ctxNo u) (insnOf w).rs2).toNat :=
  ⟨⟨7, 15, 7, 15⟩, 0x0C628FFB#32, at_ (run7 15 0x0C628FFB [(6, 5)] (d := (d0.setFld (CEL_CPXEN_u_en 1023) 1))), by decide +kernel⟩

/-- States and operands that clause 25 of PacketInstructionsAndTheCoprocessor is about. -/
theorem test_PacketInstructionsAndTheCoprocessor_25 : ∃ (u : CtxId) (w : Word) (s : State), s.dev.Issues u w ∧ s.dev.cpEnabled (Dev.ctxNo u) = true ∧ (insnOf w).op = .cpop ∧ (insnOf w).code = 0x07 ∧ (((s.dev.ctx (Dev.ctxNo u)).copro.algorithm = 1 ∨ (s.dev.ctx (Dev.ctxNo u)).copro.algorithm = 2)) ∧ 4 ≤ (s.dev.xreg (Dev.ctxNo u) (insnOf w).rs1).toNat :=
  ⟨⟨7, 15, 7, 15⟩, 0x0E628FFB#32, at_ (run7 15 0x0E628FFB [(5, 4)] (f := fun c => { c with copro := { c.copro with algorithm := 2 } }) (d := (d0.setFld (CEL_CPXEN_u_en 1023) 1))), by decide +kernel⟩

/-- States and operands that clause 26 of PacketInstructionsAndTheCoprocessor is about. -/
theorem test_PacketInstructionsAndTheCoprocessor_26 : ∃ (u : CtxId) (w : Word) (s : State), s.dev.Issues u w ∧ s.dev.cpEnabled (Dev.ctxNo u) = true ∧ (insnOf w).op = .cpop ∧ (insnOf w).code = 0x10 ∧ 2 ≤ (s.dev.xreg (Dev.ctxNo u) (insnOf w).rs1).toNat :=
  ⟨⟨7, 15, 7, 15⟩, 0x20628FFB#32, at_ (run7 15 0x20628FFB [(5, 2)] (d := (d0.setFld (CEL_CPXEN_u_en 1023) 1))), by decide +kernel⟩

/-- States and operands that clause 27 of PacketInstructionsAndTheCoprocessor is about. -/
theorem test_PacketInstructionsAndTheCoprocessor_27 : ∃ (u : CtxId) (w : Word) (s : State), s.dev.Issues u w ∧ s.dev.cpEnabled (Dev.ctxNo u) = true ∧ (insnOf w).op = .cpop ∧ (insnOf w).code = 0x11 ∧ (s.dev.ctx (Dev.ctxNo u)).copro.algorithm ≠ 3 ∧ (s.dev.ctx (Dev.ctxNo u)).copro.algorithm ≠ 4 ∧ 1 ≤ (s.dev.xreg (Dev.ctxNo u) (insnOf w).rs2).toNat ∧ (s.dev.xreg (Dev.ctxNo u) (insnOf w).rs2).toNat ≤ 4 :=
  ⟨⟨7, 15, 7, 15⟩, 0x22628FFB#32, at_ (run7 15 0x22628FFB [(6, 4)] (d := (d0.setFld (CEL_CPXEN_u_en 1023) 1))), by decide +kernel⟩

/-- States and operands that clause 28 of PacketInstructionsAndTheCoprocessor is about. -/
theorem test_PacketInstructionsAndTheCoprocessor_28 : ∃ (u : CtxId) (w : Word) (s : State), s.dev.Issues u w ∧ s.dev.cpEnabled (Dev.ctxNo u) = true ∧ (insnOf w).op = .cpop ∧ (insnOf w).code = 0x12 ∧ (s.dev.ctx (Dev.ctxNo u)).copro.algorithm ≠ 3 ∧ (s.dev.ctx (Dev.ctxNo u)).copro.algorithm ≠ 4 :=
  ⟨⟨7, 15, 7, 15⟩, 0x24628FFB#32, at_ (run7 15 0x24628FFB [] (d := (d0.setFld (CEL_CPXEN_u_en 1023) 1))), by decide +kernel⟩

/-- States and operands that clause 29 of PacketInstructionsAndTheCoprocessor is about. -/
theorem test_PacketInstructionsAndTheCoprocessor_29 : ∃ (u : CtxId) (w : Word) (s : State), s.dev.Issues u w ∧ s.dev.cpEnabled (Dev.ctxNo u) = true ∧ (insnOf w).op = .cpop ∧ (insnOf w).code = 0x13 ∧ (s.dev.ctx (Dev.ctxNo u)).copro.algorithm = 3 ∧ 8 ≤ (s.dev.xreg (Dev.ctxNo u) (insnOf w).rs1).toNat :=
  ⟨⟨7, 15, 7, 15⟩, 0x26628FFB#32, at_ (run7 15 0x26628FFB [(5, 8)] (f := fun c => { c with copro := { c.copro with algorithm := 3 } }) (d := (d0.setFld (CEL_CPXEN_u_en 1023) 1))), by decide +kernel⟩

/-- States and operands that clause 30 of PacketInstructionsAndTheCoprocessor is about. -/
theorem test_PacketInstructionsAndTheCoprocessor_30 : ∃ (u : CtxId) (w : Word) (s : State), s.dev.Issues u w ∧ s.dev.cpEnabled (Dev.ctxNo u) = true ∧ (insnOf w).op = .cpop ∧ (insnOf w).code = 0x20 :=
  ⟨⟨7, 15, 7, 15⟩, 0x40628FFB#32, at_ (run7 15 0x40628FFB [] (d := (d0.setFld (CEL_CPXEN_u_en 1023) 1))), by decide +kernel⟩

/-- States and operands that clause 31 of PacketInstructionsAndTheCoprocessor is about. -/
theorem test_PacketInstructionsAndTheCoprocessor_31 : ∃ (u : CtxId) (w : Word) (s : State), s.dev.Issues u w ∧ s.dev.cpEnabled (Dev.ctxNo u) = true ∧ (insnOf w).op = .cpop ∧ (insnOf w).code = 0x22 :=
  ⟨⟨7, 15, 7, 15⟩, 0x44628FFB#32, at_ (run7 15 0x44628FFB [] (d := (d0.setFld (CEL_CPXEN_u_en 1023) 1))), by decide +kernel⟩

/-- States and operands that clause 32 of PacketInstructionsAndTheCoprocessor is about. -/
theorem test_PacketInstructionsAndTheCoprocessor_32 : ∃ (u : CtxId) (w : Word) (s : State), s.dev.Issues u w ∧ s.dev.cpEnabled (Dev.ctxNo u) = true ∧ (insnOf w).op = .cpop ∧ (insnOf w).code = 0x24 :=
  ⟨⟨7, 15, 7, 15⟩, 0x48628FFB#32, at_ (run7 15 0x48628FFB [] (d := (d0.setFld (CEL_CPXEN_u_en 1023) 1))), by decide +kernel⟩

/-- States and operands that clause 33 of PacketInstructionsAndTheCoprocessor is about. -/
theorem test_PacketInstructionsAndTheCoprocessor_33 : ∃ (u : CtxId) (w : Word) (s : State), s.dev.Issues u w ∧ s.dev.cpEnabled (Dev.ctxNo u) = true ∧ (insnOf w).op = .cpop ∧ (insnOf w).code = 0x30 :=
  ⟨⟨7, 15, 7, 15⟩, 0x60628FFB#32, at_ (run7 15 0x60628FFB [] (d := (d0.setFld (CEL_CPXEN_u_en 1023) 1))), by decide +kernel⟩

/-- States and operands that clause 34 of PacketInstructionsAndTheCoprocessor is about. -/
theorem test_PacketInstructionsAndTheCoprocessor_34 : ∃ (u : CtxId) (w : Word) (s : State), s.dev.Issues u w ∧ s.dev.cpEnabled (Dev.ctxNo u) = true ∧ (insnOf w).op = .cpop ∧ (insnOf w).code = 0x40 :=
  ⟨⟨7, 15, 7, 15⟩, 0x80628FFB#32, at_ (run7 15 0x80628FFB [] (d := (d0.setFld (CEL_CPXEN_u_en 1023) 1))), by decide +kernel⟩

/-- States and operands that clause 35 of PacketInstructionsAndTheCoprocessor is about. -/
theorem test_PacketInstructionsAndTheCoprocessor_35 : ∃ (u : CtxId) (w : Word) (s : State), s.dev.Issues u w ∧ s.dev.cpEnabled (Dev.ctxNo u) = true ∧ (insnOf w).op = .cpop ∧ (insnOf w).code = 0x41 ∧ 1 ≤ (s.dev.xreg (Dev.ctxNo u) (insnOf w).rs2).toNat ∧ (s.dev.xreg (Dev.ctxNo u) (insnOf w).rs2).toNat ≤ 4 ∧ 36 < (s.dev.ctx (Dev.ctxNo u)).copro.toeplitzUsed + (s.dev.xreg (Dev.ctxNo u) (insnOf w).rs2).toNat :=
  ⟨⟨7, 15, 7, 15⟩, 0x82628FFB#32, at_ (run7 15 0x82628FFB [(6, 4)] (f := fun c => { c with copro := { c.copro with toeplitzUsed := 33 } }) (d := (d0.setFld (CEL_CPXEN_u_en 1023) 1))), by decide +kernel⟩

/-- States and operands that clause 36 of PacketInstructionsAndTheCoprocessor is about. -/
theorem test_PacketInstructionsAndTheCoprocessor_36 : ∃ (u : CtxId) (w : Word) (s : State), s.dev.Issues u w ∧ s.dev.cpEnabled (Dev.ctxNo u) = true ∧ (insnOf w).op = .cpop ∧ (insnOf w).code = 0x50 :=
  ⟨⟨7, 15, 7, 15⟩, 0xA0628FFB#32, at_ (run7 15 0xA0628FFB [] (d := (d0.setFld (CEL_CPXEN_u_en 1023) 1))), by decide +kernel⟩

/-- States and operands that clause 37 of PacketInstructionsAndTheCoprocessor is about. -/
theorem test_PacketInstructionsAndTheCoprocessor_37 : ∃ (u : CtxId) (w : Word) (s : State), s.dev.Issues u w ∧ s.dev.cpEnabled (Dev.ctxNo u) = true ∧ (insnOf w).op = .cpop ∧ (insnOf w).code = 0x01 ∧ (((s.dev.ctx (Dev.ctxNo u)).copro.algorithm = 1 ∨ (s.dev.ctx (Dev.ctxNo u)).copro.algorithm = 2)) ∧ (s.dev.xreg (Dev.ctxNo u) (insnOf w).rs1).toNat < 8 ∧ (s.dev.ctx (Dev.ctxNo u)).copro.phase = 0 :=
  ⟨⟨7, 15, 7, 15⟩, 0x02628FFB#32, at_ (run7 15 0x02628FFB [(5, 7)] (f := fun c => { c with copro := { c.copro with algorithm := 2 } }) (d := (d0.setFld (CEL_CPXEN_u_en 1023) 1))), by decide +kernel⟩

/-- States and operands that clause 38 of PacketInstructionsAndTheCoprocessor is about. -/
theorem test_PacketInstructionsAndTheCoprocessor_38 : ∃ (u : CtxId) (w : Word) (s : State), s.dev.Issues u w ∧ s.dev.cpEnabled (Dev.ctxNo u) = true ∧ (insnOf w).op = .cpop ∧ (insnOf w).code = 0x02 ∧ (((s.dev.ctx (Dev.ctxNo u)).copro.algorithm = 1 ∨ (s.dev.ctx (Dev.ctxNo u)).copro.algorithm = 2)) ∧ (s.dev.xreg (Dev.ctxNo u) (insnOf w).rs1).toNat < 3 ∧ (s.dev.ctx (Dev.ctxNo u)).copro.phase = 0 :=
  ⟨⟨7, 15, 7, 15⟩, 0x04628FFB#32, at_ (run7 15 0x04628FFB [(5, 2)] (f := fun c => { c with copro := { c.copro with algorithm := 2 } }) (d := (d0.setFld (CEL_CPXEN_u_en 1023) 1))), by decide +kernel⟩

/-- States and operands that clause 39 of PacketInstructionsAndTheCoprocessor is about. -/
theorem test_PacketInstructionsAndTheCoprocessor_39 : ∃ (u : CtxId) (w : Word) (s : State), s.dev.Issues u w ∧ s.dev.cpEnabled (Dev.ctxNo u) = true ∧ (insnOf w).op = .cpop ∧ (insnOf w).code = 0x12 ∧ ((s.dev.ctx (Dev.ctxNo u)).copro.algorithm = 3 ∨ (s.dev.ctx (Dev.ctxNo u)).copro.algorithm = 4) ∧ (s.dev.ctx (Dev.ctxNo u)).copro.phase ≠ 3 :=
  ⟨⟨7, 15, 7, 15⟩, 0x24628FFB#32, at_ (run7 15 0x24628FFB [] (f := fun c => { c with copro := { c.copro with algorithm := 4 } }) (d := (d0.setFld (CEL_CPXEN_u_en 1023) 1))), by decide +kernel⟩

/-- States and operands that clause 40 of PacketInstructionsAndTheCoprocessor is about. -/
theorem test_PacketInstructionsAndTheCoprocessor_40 : ∃ (u : CtxId) (w : Word) (s : State), s.dev.Issues u w ∧ s.dev.cpEnabled (Dev.ctxNo u) = true ∧ (insnOf w).op = .cpop ∧ (insnOf w).code = 0x21 ∧ 1 ≤ (s.dev.xreg (Dev.ctxNo u) (insnOf w).rs2).toNat ∧ (s.dev.xreg (Dev.ctxNo u) (insnOf w).rs2).toNat ≤ 4 :=
  ⟨⟨7, 15, 7, 15⟩, 0x42628FFB#32, at_ (run7 15 0x42628FFB [(6, 4)] (d := (d0.setFld (CEL_CPXEN_u_en 1023) 1))), by decide +kernel⟩

/-- States and operands that clause 41 of PacketInstructionsAndTheCoprocessor is about. -/
theorem test_PacketInstructionsAndTheCoprocessor_41 : ∃ (u : CtxId) (w : Word) (s : State), s.dev.Issues u w ∧ s.dev.cpEnabled (Dev.ctxNo u) = true ∧ (insnOf w).op = .cpop ∧ (insnOf w).code = 0x23 ∧ 1 ≤ (s.dev.xreg (Dev.ctxNo u) (insnOf w).rs2).toNat ∧ (s.dev.xreg (Dev.ctxNo u) (insnOf w).rs2).toNat ≤ 4 :=
  ⟨⟨7, 15, 7, 15⟩, 0x46628FFB#32, at_ (run7 15 0x46628FFB [(6, 4)] (d := (d0.setFld (CEL_CPXEN_u_en 1023) 1))), by decide +kernel⟩

/-- States and operands that clause 42 of PacketInstructionsAndTheCoprocessor is about. -/
theorem test_PacketInstructionsAndTheCoprocessor_42 : ∃ (u : CtxId) (w : Word) (s : State), s.dev.Issues u w ∧ s.dev.cpEnabled (Dev.ctxNo u) = true ∧ (insnOf w).op = .cpop ∧ (insnOf w).code = 0x31 ∧ (s.dev.xreg (Dev.ctxNo u) (insnOf w).rs2) = 0 :=
  ⟨⟨7, 15, 7, 15⟩, 0x62628FFB#32, at_ (run7 15 0x62628FFB [] (d := (d0.setFld (CEL_CPXEN_u_en 1023) 1))), by decide +kernel⟩

/-- States and operands that clause 43 of PacketInstructionsAndTheCoprocessor is about. -/
theorem test_PacketInstructionsAndTheCoprocessor_43 : ∃ (u : CtxId) (w : Word) (s : State), s.dev.Issues u w ∧ s.dev.cpEnabled (Dev.ctxNo u) = true ∧ (insnOf w).op = .cpop ∧ (insnOf w).code = 0x51 ∧ 1 ≤ (s.dev.xreg (Dev.ctxNo u) (insnOf w).rs2).toNat ∧ (s.dev.xreg (Dev.ctxNo u) (insnOf w).rs2).toNat ≤ 4 :=
  ⟨⟨7, 15, 7, 15⟩, 0xA2628FFB#32, at_ (run7 15 0xA2628FFB [(6, 1)] (d := (d0.setFld (CEL_CPXEN_u_en 1023) 1))), by decide +kernel⟩

/-- States and operands that clause 44 of PacketInstructionsAndTheCoprocessor is about. -/
theorem test_PacketInstructionsAndTheCoprocessor_44 : ∃ (u : CtxId) (w : Word) (s : State), s.dev.Issues u w ∧ s.dev.cpEnabled (Dev.ctxNo u) = true ∧ (insnOf w).op = .cpop ∧ (insnOf w).code = 0x52 :=
  ⟨⟨7, 15, 7, 15⟩, 0xA4628FFB#32, at_ (run7 15 0xA4628FFB [] (d := (d0.setFld (CEL_CPXEN_u_en 1023) 1))), by decide +kernel⟩

/-- States and operands that clause 45 of PacketInstructionsAndTheCoprocessor is about. -/
theorem test_PacketInstructionsAndTheCoprocessor_45 : ∃ (u : CtxId) (w : Word) (x : Nat) (s : State), s.dev.Issues u w ∧ s.dev.cpEnabled (Dev.ctxNo u) = true ∧ (insnOf w).op = .cpsave ∧ s.dev.imageSpan (Dev.ctxNo u) (s.dev.xreg (Dev.ctxNo u) (insnOf w).rs1).toNat = some x :=
  ⟨⟨7, 15, 7, 15⟩, 0x0002907B#32, (Dev.clmAddr 1023 0xFF00), at_ (run7 15 0x0002907B [(5, 0xFF00)] (d := (d0.setFld (CEL_CPXEN_u_en 1023) 1))), by decide +kernel⟩

/-- States and operands that clause 46 of PacketInstructionsAndTheCoprocessor is about. -/
theorem test_PacketInstructionsAndTheCoprocessor_46 : ∃ (u : CtxId) (w : Word) (x : Nat) (s : State), s.dev.Issues u w ∧ s.dev.cpEnabled (Dev.ctxNo u) = true ∧ (insnOf w).op = .cprestore ∧ s.dev.imageSpan (Dev.ctxNo u) (s.dev.xreg (Dev.ctxNo u) (insnOf w).rs1).toNat = some x ∧ s.dev.anyPoison x 256 = false :=
  ⟨⟨7, 15, 7, 15⟩, 0x0002A07B#32, (Dev.clmAddr 1023 0xFF00), at_ (run7 15 0x0002A07B [(5, 0xFF00)] (d := (d0.setFld (CEL_CPXEN_u_en 1023) 1))), by decide +kernel⟩

/-- States and operands that clause 47 of PacketInstructionsAndTheCoprocessor is about. -/
theorem test_PacketInstructionsAndTheCoprocessor_47 : ∃ (u : CtxId) (w : Word) (x : Nat) (s : State), s.dev.Issues u w ∧ s.dev.cpEnabled (Dev.ctxNo u) = true ∧ (insnOf w).op = .cprestore ∧ s.dev.imageSpan (Dev.ctxNo u) (s.dev.xreg (Dev.ctxNo u) (insnOf w).rs1).toNat = some x ∧ s.dev.anyPoison x 256 = true :=
  ⟨⟨7, 15, 7, 15⟩, 0x0002A07B#32, (Dev.clmAddr 1023 0xFF00), at_ (run7 15 0x0002A07B [(5, 0xFF00)] (d := ((d0.setFld (CEL_CPXEN_u_en 1023) 1).setPoison (Dev.clmAddr 1023 0xFFFF) true))), by decide +kernel⟩

/-- States and operands that clause 48 of PacketInstructionsAndTheCoprocessor is about. -/
theorem test_PacketInstructionsAndTheCoprocessor_48 : ∃ (u : CtxId) (w : Word) (s : State) (c : Instr), s.dev.Issues u w ∧ s.dev.cpEnabled (Dev.ctxNo u) = true ∧ s.dev.imageSpan (Dev.ctxNo u) (s.dev.xreg (Dev.ctxNo u) (insnOf w).rs1).toNat = none ∧ ((insnOf w).op = .cpsave ∧ c = .cpsave u w ∨ (insnOf w).op = .cprestore ∧ c = .cprestore u w) :=
  ⟨⟨7, 15, 7, 15⟩, 0x0002907B#32, at_ (run7 15 0x0002907B [(5, 0x8000)] (d := (d0.setFld (CEL_CPXEN_u_en 1023) 1))), .cpsave ⟨7, 15, 7, 15⟩ 0x0002907B#32, by decide +kernel⟩

end Sys2Proof.Tests
end

/-! # Every operation and every command keeps the canonical forms

`d0.Kept Part.all d` says that `d` has its stores in canonical form if `d0` has. One lemma per operation of the model
composes the lemmas of the operations it calls; one lemma per command then says the same of the command's answer; and
every step carries out the command at the front of the queue. -/

namespace Sys2Proof.Machine

/-- The parts an operation may change are among all parts, whichever they are. -/
theorem allParts {qs : List Part} : ∀ p ∈ qs, p ∈ Part.all := fun p _ => p.mem_all

namespace Dev

/-- A pair whose first component is a part that is kept. It is a predicate of its own so that the kernel compares two
such pairs as they stand, and never evaluates the operation that answers one to find its first component. -/
def KeptFst {α : Type} (d0 : Dev) (x : Dev × α) : Prop := d0.Kept Part.all x.1

theorem KeptFst.mk {α : Type} {d0 d : Dev} {a : α} (h : d0.Kept Part.all d) : d0.KeptFst (d, a) := h

/-- An answer keeps the canonical forms where it answers a part. -/
def KeptR (d0 : Dev) : Res → Prop
  | .next d => d0.Kept Part.all d
  | .fault _ | .refused _ => True

section
variable {d0 d : Dev} (h : d0.Kept Part.all d)
include h

theorem Kept.modRegion {r : Region} {f : Rgn → Rgn} : d0.Kept Part.all (d.modR r f) :=
  h.modR fun _ p hp => absurd p.mem_all hp

theorem Kept.each_of {α : Type} {f : α → Dev → Dev} {l : List α}
    (hf : ∀ a e, d0.Kept Part.all e → d0.Kept Part.all (f a e)) : d0.Kept Part.all (d.each l f) := by
  unfold Dev.each
  induction l generalizing d with
  | nil => exact h
  | cons a t ih => exact ih (hf a d h)

theorem Kept.foldl_of {α : Type} {f : Dev → α → Dev} {l : List α}
    (hf : ∀ e a, d0.Kept Part.all e → d0.Kept Part.all (f e a)) : d0.Kept Part.all (l.foldl f d) := by
  induction l generalizing d with
  | nil => exact h
  | cons a t ih => exact ih (hf d a h)

theorem Kept.when_of {b : Bool} {f : Dev → Dev} (hf : ∀ e, d0.Kept Part.all e → d0.Kept Part.all (f e)) :
    d0.Kept Part.all (d.when b f) := by
  unfold Dev.when
  exact .ite (hf d h) h

end

theorem Kept.foldl_fst_of {d0 : Dev} {α β : Type} {f : Dev × β → α → Dev × β} {l : List α} {x : Dev × β}
    (h : d0.Kept Part.all x.1) (hf : ∀ (e : Dev × β) a, d0.Kept Part.all e.1 → d0.Kept Part.all (f e a).1) :
    d0.Kept Part.all (l.foldl f x).1 := by
  induction l generalizing x with
  | nil => exact h
  | cons a t ih => exact ih (hf x a h)

theorem KeptR.next {d0 d : Dev} (h : d0.Kept Part.all d) : d0.KeptR (.next d) := h
theorem KeptR.refused {d0 : Dev} {e : Refusal} : d0.KeptR (.refused e) := trivial
theorem KeptR.fault {d0 : Dev} {e : Fault} : d0.KeptR (.fault e) := trivial
theorem KeptR.ite {d0 : Dev} {c : Prop} [Decidable c] {x y : Res} (h : d0.KeptR x) (k : d0.KeptR y) :
    d0.KeptR (if c then x else y) := by
  split_ifs
  · exact h
  · exact k

end Dev

/-- A command's outcome keeps the canonical forms where it answers a next state. -/
def State.Keeps (s : State) : Out → Prop
  | .next t => s.dev.Kept Part.all t.dev
  | .fault _ | .refused _ => True

theorem State.Keeps.run {s : State} {f : Dev → Dev}
    (hf : ∀ d, s.dev.Kept Part.all d → s.dev.Kept Part.all (f d)) :
    s.Keeps (s.run f) :=
  (hf s.dev (.refl ..)).set_free (Part.mem_all _)

theorem State.Keeps.doing {s : State} {f : Dev → Res} (hf : ∀ d, s.dev.Kept Part.all d → s.dev.KeptR (f d)) :
    s.Keeps (s.doing f) := by
  have h := hf s.dev (.refl ..)
  unfold State.doing
  generalize f s.dev = x at h ⊢
  cases x with
  | next d => exact Dev.Kept.set_free h (Part.mem_all _)
  | fault e => trivial
  | refused e => trivial

end Sys2Proof.Machine

namespace Sys2Proof.Machine.Dev

section
variable {d0 d : Dev} (h : d0.Kept Part.all d)
include h

/-! ### The operations of Machine/Threads.lean -/

theorem Kept.thrAction {u : CtxId} {f : Nat → Dev} (hf : ∀ x, d0.Kept Part.all (f x)) :
    d0.KeptR (d.thrAction u f) :=
  .ite .refused (.ite (.next (h.err allParts)) (.next (hf _)))

/-! ### The operations of Machine/Mail.lean -/

theorem Kept.serve {e : Endpoint} {n op elapsed : Nat} {modes : Mode → Bool} {fits : List Byte → Bool}
    {start : Dev → List Byte → Dev × Reply}
    {finish : Dev → List Byte → MailWait → Option (Nat × Nat × List Byte)}
    (hf : ∀ e y, d0.Kept Part.all e → d0.Kept Part.all (start e y).1) :
    d0.KeptR (d.serve e n op elapsed modes fits start finish) := by
  unfold Dev.serve
  refine .ite .refused <|
    .ite .refused <|
    .ite (.ite (.next (h.reply allParts)) (.ite (.next (h.reply allParts)) (.next ((hf _ _ h).answer allParts)))) <|
    .ite ?_ .refused
  split
  · exact .next (h.reply allParts)
  · exact .refused

theorem Kept.serveSoon {e : Endpoint} {n op elapsed : Nat} {modes : Mode → Bool} {fits : List Byte → Bool}
    {start : Dev → List Byte → Dev × Reply} (hf : ∀ e y, d0.Kept Part.all e → d0.Kept Part.all (start e y).1) :
    d0.KeptR (d.serveSoon e n op elapsed modes fits start) :=
  h.serve hf

/-! ### The operations of Machine/RegWrite.lean -/

theorem Kept.addrErr {l : Loc} : d0.Kept Part.all (d.addrErr l) := by
  unfold Dev.addrErr
  split
  · split <;> exact h.setOn allParts
  · split <;> exact h.setOn allParts
  · split <;> exact h.setOn allParts
  · exact h.setOn allParts
  · exact h
  · exact h

theorem Kept.coreRejected {r : Region} {b : Nat} : d0.Kept Part.all (d.coreRejected r b) :=
  h.err allParts

theorem Kept.bpmRejected {r : Region} : d0.Kept Part.all (d.bpmRejected r) :=
  h.err allParts

theorem Kept.dspRejected {r : Region} : d0.Kept Part.all (d.dspRejected r) :=
  h.err allParts

theorem Kept.feRejected {r : Region} : d0.Kept Part.all (d.feRejected r) :=
  h.setOn allParts

theorem Kept.odRejected {r : Region} : d0.Kept Part.all (d.odRejected r) := h.err allParts

theorem Kept.tblRejected {r : Region} : d0.Kept Part.all (d.tblRejected r) :=
  h.setOn allParts

theorem Kept.descRejected {r : Region} : d0.Kept Part.all (d.descRejected r) :=
  h.err allParts

theorem Kept.eqRejected {r : Region} : d0.Kept Part.all (d.eqRejected r) := h.err allParts

theorem Kept.cfRejected {r : Region} : d0.Kept Part.all (d.cfRejected r) := h.err allParts

theorem Kept.monRejected {f : Fld} {r : Region} : d0.Kept Part.all (d.monRejected f r) :=
  (h.setOn allParts).irqCfgRejected allParts

theorem Kept.put {a : Nat} {e : RegDesc} {v : Nat} {refused : List Nat} {report : Dev → Dev}
    (hf : ∀ e, d0.Kept Part.all e → d0.Kept Part.all (report e)) :
    d0.Kept Part.all (d.put a e v refused report).1 :=
  have h := h.setReg allParts
  .ite_fst h (hf _ h)

theorem Kept.reject {report : Dev → Dev} (hf : ∀ e, d0.Kept Part.all e → d0.Kept Part.all (report e)) :
    d0.Kept Part.all (d.reject report).1 :=
  hf _ h

theorem Kept.putIf {ok : Bool} {a : Nat} {e : RegDesc} {v : Nat} {report : Dev → Dev}
    (hf : ∀ e, d0.Kept Part.all e → d0.Kept Part.all (report e)) :
    d0.Kept Part.all (putIf ok d a e v report).1 :=
  .ite_fst (h.put (fun _ h => h)) (h.reject hf)

omit h in
theorem Kept.thenIf {w : Wr} {f : Dev → Dev} (h : d0.Kept Part.all w.1)
    (hf : ∀ e, d0.Kept Part.all e → d0.Kept Part.all (f e)) : d0.Kept Part.all (thenIf w f).1 :=
  .ite_fst (hf _ h) h

theorem Kept.monCfgWrite {level r a : Nat} {e : RegDesc} {v : Nat} {report : Dev → Dev}
    (hf : ∀ e, d0.Kept Part.all e → d0.Kept Part.all (report e)) :
    d0.Kept Part.all (d.monCfgWrite level r a e v report).1 :=
  h.put hf

theorem Kept.irqWrite {r : Region} {off a : Nat} {e : RegDesc} {v : Nat} :
    d0.Kept Part.all (d.irqWrite r off a e v).1 := by
  unfold Dev.irqWrite
  split
  · exact h.retarget allParts
  · exact h.irqEnable allParts
  · exact h.irqDisable allParts
  · exact h.irqPend allParts
  · exact h.irqUnpend allParts
  · exact
      (h.putIf (fun _ h => h.irqCfgRejected allParts)).thenIf (fun _ h => h.each_of (fun _ _ h => h.deliver allParts))
  · exact h.put (fun _ h => h)

theorem Kept.deepWrite {r : Region} {a : Nat} {e : RegDesc} {v : Nat} : d0.Kept Part.all (d.deepWrite r a e v).1 :=
  (h.put (fun _ h => h.bpmRejected)).when_of (fun _ h => (h.modPool allParts).setFld allParts)

theorem Kept.bpmWrite {r : Region} {a : Nat} {e : RegDesc} {v : Nat} : d0.Kept Part.all (d.bpmWrite r a e v).1 := by
  unfold Dev.bpmWrite
  split
  · exact h.put (fun _ h => h.bpmRejected)
  · exact h.deepWrite
  · exact h.put (fun _ h => h.bpmRejected)
  · exact (h.putIf (fun _ h => h.bpmRejected)).thenIf (fun _ h => h.pfcCheckAll allParts)
  · exact h.put (fun _ h => h)

theorem Kept.dspWrite {r : Region} {off a : Nat} {e : RegDesc} {v : Nat} :
    d0.Kept Part.all (d.dspWrite r off a e v).1 := by
  unfold Dev.dspWrite
  dsimp only
  split
  · exact (h.put (fun _ h => h.dspRejected)).pressure allParts
  · exact (h.putIf (fun _ h => h.dspRejected)).thenIf (fun _ h => h.pressure allParts)
  · exact h.setFlags allParts
  · exact h.setFlags allParts
  · exact h.put (fun _ h => h.dspRejected)
  · exact h.put (fun _ h => h.dspRejected)
  · exact h.put (fun _ h => h.dspRejected)
  · exact (h.putIf (fun _ h => h.dspRejected)).thenIf (fun _ h => h.pressure allParts)
  · exact h.putIf (fun _ h => h.dspRejected)
        |>.thenIf (fun _ h => (h.when_of (fun _ h => h.event allParts)).pressure allParts)
  · exact h.put (fun _ h => h)

theorem Kept.paneWrWrite {r : Region} {v : Nat} : d0.Kept Part.all (d.paneWrWrite r v).1 :=
  have h := Kept.ite h (h.setFld allParts)
  .ite_fst (.paneOpen (.ite_fst (h.paneClose allParts) h) allParts) (.ite_fst (h.paneClose allParts) h)

theorem Kept.feWrite {r : Region} {a : Nat} {e : RegDesc} {v : Nat} : d0.Kept Part.all (d.feWrite r a e v).1 := by
  unfold Dev.feWrite
  split
  · exact (h.putIf (fun _ h => h.setOn allParts)).thenIf (fun _ h => h.setFld allParts)
  · exact h.paneWrWrite
  · exact h.divWrite allParts
  · exact h.divWrite allParts
  · exact h.putIf (fun _ h => h.odRejected)
  · exact .ite_fst (h.reject (fun _ h => h.odRejected)) (h.put (fun _ h => h.feRejected))
  · exact h.put (fun _ h => h.feRejected)
  · exact h.put (fun _ h => h)

theorem Kept.descWrite {r : Region} {n : Nat} {t : TableDesc} : d0.Kept Part.all (d.descWrite r n t).1 :=
  .ite_fst (h.reject (fun _ h => h.descRejected)) <|
  have h := h.when_of (fun _ h => h.tblRejected)
  .ite_fst (h.reject (fun _ h => h.tblRejected)) <|
  .ite_fst
    (have h := (((h.setReg allParts).setReg allParts).setReg allParts).setReg allParts
     ((h.modTables allParts).setReg allParts).noteRequest allParts)
    (h.reject (fun _ h => h.descRejected))

theorem Kept.tblWrite {r : Region} {off a : Nat} {e : RegDesc} {v : Nat} :
    d0.Kept Part.all (d.tblWrite r off a e v).1 := by
  unfold Dev.tblWrite
  split
  any_goals exact h.descWrite
  · exact h.put (fun _ h => h.tblRejected)
  · exact (h.put (fun _ h => h)).setTokens allParts
  · exact h.put (fun _ h => h)

theorem Kept.eqCfgWrite {r : Region} {q a v : Nat} : d0.Kept Part.all (d.eqCfgWrite r q a v).1 :=
  have h := (h.setReg allParts).delay allParts
  have h := Kept.ite (h.noteRequest allParts) h
  .ite_fst h (h.reject (fun _ h => h.eqRejected))

theorem Kept.egressWrite {r : Region} {off a : Nat} {e : RegDesc} {v : Nat} :
    d0.Kept Part.all (d.egressWrite r off a e v).1 := by
  change d0.KeptW _
  unfold Dev.egressWrite
  extract_lets rep
  have hrep (e : Dev) (h : d0.Kept Part.all e) : d0.Kept Part.all (rep e) := h.eqRejected
  split
  · exact .of h.eqCfgWrite
  · exact .mk (h.delay allParts)
  · exact .ite (.mk (h.delay allParts)) (.of (h.reject hrep))
  · exact .of (h.put hrep)
  · exact .of (h.putIf hrep)
  · exact .of (h.putIf hrep)
  · exact .mk ((h.put hrep).pfcCheckAll allParts)
  · exact .ite (.of (h.reject hrep)) (.of (h.put hrep))
  · exact .of (h.putIf hrep)
  · exact .of (h.put (fun _ h => h))

theorem Kept.hbmRegWrite {r : Region} {a : Nat} {e : RegDesc} {v : Nat} :
    d0.Kept Part.all (d.hbmRegWrite r a e v).1 := by
  change d0.KeptW _
  unfold Dev.hbmRegWrite
  split
  · exact .mk (((h.setFld allParts).rateWrite allParts).orderWrite allParts)
  · exact .of (h.putIf (fun _ h => h.hbmReject allParts))
  · split
    next heq =>
      have h := Kept.of_fst_eq heq (h.put (fun _ h => h))
      exact .ite (.mk (h.retrain allParts)) (.mk h)
  · exact .of (h.put (fun _ h => h))

theorem Kept.chCfgWrite {regional : Bool} {r : Region} {b n a : Nat} {e : RegDesc} {v : Nat} :
    d0.Kept Part.all (d.chCfgWrite regional r b n a e v).1 :=
  .ite_fst (h.reject (fun _ h => h.setOn allParts)) <|
  have h := Kept.ite (h.flushChannel allParts) h
  ((h.put (fun _ h => h.setOn allParts)).wake allParts).each_of (fun _ _ h => h.wakeSpace allParts)

theorem Kept.cfWrite {r : Region} {off a : Nat} {e : RegDesc} {v : Nat} :
    d0.Kept Part.all (d.cfWrite r off a e v).1 := by
  unfold Dev.cfWrite
  split
  · exact (h.reqUpWrite allParts).admitWrite allParts
  · exact h.put (fun _ h => h.cfRejected)
  · exact h.putIf (fun _ h => h.cfRejected)
  · exact h.chCfgWrite
  · exact h.put (fun _ h => h)

theorem Kept.pwrWrite {r : Region} {a : Nat} {e : RegDesc} {v : Nat} : d0.Kept Part.all (d.pwrWrite r a e v).1 := by
  unfold Dev.pwrWrite
  split
  · exact h.cellClkWrite allParts
  · exact h.retWrite allParts
  · exact h.parkWrite allParts
  · exact h.blkRstWrite allParts
  · exact h.put (fun _ h => h)

theorem Kept.ldgSelWrite {r : Region} {a : Nat} {e : RegDesc} {v : Nat} :
    d0.Kept Part.all (d.ldgSelWrite r a e v).1 :=
  h.put (fun _ h => h.setOn allParts)

theorem Kept.rgnWrite {r : Region} {off a : Nat} {e : RegDesc} {v : Nat} :
    d0.Kept Part.all (d.rgnWrite r off a e v).1 := by
  unfold Dev.rgnWrite
  split
  · exact h.irqWrite
  · exact h.bpmWrite
  · exact h.dspWrite
  · exact h.feWrite
  · exact h.tblWrite
  · exact h.egressWrite
  · exact h.hbmRegWrite
  · exact h.cfWrite
  · exact .ite_fst (h.portCfgWrite allParts) (h.put (fun _ h => h.portRejected allParts))
  · exact .ite_fst (h.monCfgWrite (fun _ h => h.monRejected)) (h.put (fun _ h => h))
  · exact h.pwrWrite
  · exact h.put (fun _ h => h.setOn allParts)
  · exact .ite_fst h.ldgSelWrite (h.put (fun _ h => h))
  · exact h.put (fun _ h => h)

theorem Kept.chipSafetyWrite {a : Nat} {e : RegDesc} {v : Nat} : d0.Kept Part.all (d.chipSafetyWrite a e v).1 := by
  unfold Dev.chipSafetyWrite
  split
  · exact h.putIf (fun _ h => h.setOn allParts)
  · exact h.setReg allParts
  · exact
      have h := h.setFld allParts
      .ite_fst (.rejoinStart (.ite_fst (h.fenceRequest allParts) h) allParts) (.ite_fst (h.fenceRequest allParts) h)
  · exact .ite (h.faultAck allParts) h
  · exact h.put (fun _ h => h)

theorem Kept.chipShutterWrite {a : Nat} {e : RegDesc} {v : Nat} : d0.Kept Part.all (d.chipShutterWrite a e v).1 := by
  change d0.KeptW _
  unfold Dev.chipShutterWrite
  split
  · exact .mk (h.shutterCtlWrite allParts)
  · extract_lets d₁
    have h₁ : d0.Kept Part.all d₁ := .ite (h.forceFree allParts) h
    refine .ite ?_ (.mk h₁)
    split
    next heq => exact .mk (.of_fst_eq heq (h₁.swapRequest allParts))
  · split
    next heq =>
      have h := Kept.of_fst_eq heq (h.put (fun _ h => h))
      exact .ite (.of (h.ptpCtlLoad allParts)) (.mk h)
  · exact .mk (h.ptpAdjust allParts)
  · exact .of (h.ptpFreq allParts)
  · exact .of (h.put (fun _ h => h))

theorem Kept.chipWrite {off a : Nat} {e : RegDesc} {v : Nat} : d0.Kept Part.all (d.chipWrite off a e v).1 := by
  change d0.KeptW _
  unfold Dev.chipWrite
  split
  · exact .ite (.mk (h.compatWrite allParts)) (.of (h.put (fun _ h => h)))
  · exact .ite (.of (h.modeReqWrite allParts)) (.ite (.mk (h.rstCtl allParts)) (.of (h.put (fun _ h => h))))
  · extract_lets d₁
    have h₁ : d0.Kept Part.all d₁ := .ite (h.snapCancel allParts) h
    exact .ite (.of (h.monCfgWrite (fun _ h => h.monRejected))) <|
      .ite (.ite (.of (h₁.snapArm allParts)) (.mk h₁)) (.of (h.put (fun _ h => h)))
  · exact .of h.chipShutterWrite
  · exact .of h.chipSafetyWrite
  · exact .of h.chipSafetyWrite
  · exact .of (h.put (fun _ h => h.setOn allParts))
  · extract_lets rep
    have hrep (e : Dev) (h : d0.Kept Part.all e) : d0.Kept Part.all (rep e) := h.setOn allParts
    exact .ite (.of (h.put hrep)) <|
      .ite (.ite (.of (h.put hrep)) (.of (h.reject hrep))) (.of (h.put (fun _ h => h)))

theorem Kept.blockWrite {r : Region} {b off a : Nat} {e : RegDesc} {v : Nat} :
    d0.Kept Part.all (d.blockWrite r b off a e v).1 := by
  unfold Dev.blockWrite
  split
  · exact (h.putIf (fun _ h => h.coreRejected)).thenIf (fun _ h => h.refreshBudget allParts)
  · exact h.cellRunWrite allParts
  · exact h.chCfgWrite
  · exact h.memClean allParts
  · exact h.secCtlWrite allParts
  · exact h.icInvWrite allParts
  · exact h.monCfgWrite (fun _ h => h.monRejected)
  · exact h.put (fun _ h => h)

theorem Kept.bar0Write {e : Endpoint} {off a : Nat} {t : RegDesc} {v : Nat} :
    d0.Kept Part.all (d.bar0Write e off a t v).1 := by
  unfold Dev.bar0Write
  dsimp only
  split
  · exact h.mbDoorbell allParts
  · exact h.put (fun _ h => h.epErr allParts)
  · exact h.doorbell allParts
  · exact h.put (fun _ h => h.epErr allParts)
  · exact h.put (fun _ h => h.epErr allParts)
  · exact h.doorbell allParts
  · exact h.doorbell allParts
  · exact .ite (h.bootStart allParts) h
  · exact h.put (fun _ h => h)

theorem Kept.thrCfgWrite {k : Nat} {enable background : Bool} :
    d0.Kept Part.all (d.thrCfgWrite k enable background) :=
  (h.modCtx allParts).refreshBudget allParts

theorem Kept.cellWrite {c n a : Nat} {e : RegDesc} {v : Nat} : d0.Kept Part.all (d.cellWrite c n a e v).1 := by
  unfold Dev.cellWrite
  dsimp only
  split
  · exact h.put (fun _ h => h.coreRejected)
  · exact .ite_fst ((h.put (fun _ h => h)).slotApply allParts) (h.put (fun _ h => h))
  · exact h.put (fun _ h => h.coreRejected)
  · exact .ite_fst (h.reject (fun _ h => h.coreRejected)) h.thrCfgWrite
  · exact .ite_fst (h.modCtx allParts) (h.reject (fun _ h => h.coreRejected))
  · exact .ite_fst (h.reject (fun _ h => h.coreRejected)) (h.modCtx allParts)
  · exact .ite_fst h (.ite_fst (h.reject (fun _ h => h.coreRejected)) (h.thrCtl allParts))
  · exact .ite ((h.put (fun _ h => h)).dropIcache allParts) (h.put (fun _ h => h))
  · exact .ite_fst (h.put (fun _ h => h)) h

theorem Kept.writeAt {a : Nat} {e : RegDesc} {v : Nat} : d0.Kept Part.all (d.writeAt a e v).1 := by
  unfold Dev.writeAt
  split
  · exact h.rgnWrite
  · exact h.chipWrite
  · exact h.blockWrite
  · exact h.bar0Write
  · exact h.cellWrite
  · exact h

theorem Kept.pairCommit {lo hi : Nat} {el eh : RegDesc} {v : Nat} :
    d0.Kept Part.all (d.pairCommit lo hi el eh v).1 := by
  unfold Dev.pairCommit
  refine .ite_fst (h.reject (fun _ h => h.setOn allParts)) ?_
  split
  · exact h.reject (fun _ h => h.monRejected)
  · exact h.reject (fun _ h => h.monRejected)
  · exact h.reject (fun _ h => h.monRejected)
  · exact ((h.setReg allParts).setReg allParts).holdUpper allParts

theorem Kept.guestWrite {r off v : Nat} : d0.Kept Part.all (d.guestWrite r off v).1 := by
  unfold Dev.guestWrite
  split
  · exact
      have h := (h.setFld allParts).setFld allParts
      .ite_fst h (h.setFld allParts)
  · exact h.setFld allParts
  · exact h

theorem Kept.bar0AreaWrite {e : Endpoint} {off a v : Nat} : d0.Kept Part.all (d.bar0AreaWrite e off a v).1 := by
  unfold Dev.bar0AreaWrite
  split
  · exact h.setLE allParts
  · exact h.msixWrite allParts
  · exact h

theorem Kept.writeReg_go {a : Nat} {l : Loc} {v : Nat} : d0.Kept Part.all (writeReg.go d a l v).1 := by
  unfold Dev.writeReg.go
  refine .ite_fst h ?_
  split
  · exact .ite_fst h h.addrErr
  · split
    · split
      · exact .ite_fst (h.modPair allParts) h.writeAt
      · exact h.writeAt
    · split
      · exact .ite_fst h.pairCommit h.writeAt
      · exact h.writeAt
    · exact h.writeAt

theorem Kept.writeReg {a v : Nat} : d0.Kept Part.all (d.writeReg a v).1 := by
  unfold Dev.writeReg
  dsimp only
  split
  · exact .ite_fst h.guestWrite h.writeReg_go
  · exact .ite_fst h.writeReg_go h.bar0AreaWrite
  · exact h.writeReg_go

theorem Kept.readReg_go {a : Nat} : d0.Kept Part.all (readReg.go d a).1 := by
  unfold Dev.readReg.go
  refine .ite_fst h ?_
  split
  · exact h
  · split
    · exact h.claim allParts
    · exact h.badlineRead allParts
    · exact h.ptsRead allParts
    · dsimp only
      split
      · split
        · exact h.holdUpper allParts
        · exact h
      · exact h
      · exact h.setReg allParts

theorem Kept.readReg {a : Nat} : d0.Kept Part.all (d.readReg a).1 := by
  unfold Dev.readReg
  split
  · exact .ite_fst h h.readReg_go
  · exact .ite_fst h.readReg_go h
  · exact h.readReg_go

/-! ### The operations of Machine/Bus.lean -/

theorem Kept.readRegs {a n : Nat} : d0.Kept Part.all (d.readRegs a n).1 := by
  induction n generalizing d a with
  | zero => exact h
  | succ n ih => exact ih h.readReg

theorem Kept.writeRegs {a n : Nat} {b : List Byte} : d0.Kept Part.all (d.writeRegs a n b).1 := by
  induction n generalizing d a b with
  | zero => exact h
  | succ n ih => exact ih h.writeReg

theorem Kept.securePart {w : Who} {q : Region} {p : Place} {n : Nat} {e : Dev}
    (heq : d.securePart w q p n = some e) : d0.Kept Part.all e := by
  unfold Dev.securePart at heq
  split at heq
  on_goal 4 => cases heq
  all_goals
    split_ifs at heq
    cases heq
    exact h.secReject allParts

theorem Kept.serveRead {w : Who} {id : Nat} {q : Region} {o n : Nat} : d0.Kept Part.all (d.serveRead w id q o n).1 := by
  unfold Dev.serveRead
  dsimp only
  split
  · exact h
  next heq =>
    exact h.securePart heq
  · refine .ite_fst h ?_
    split
    · split
      · exact .ite_fst h h
      · exact .ite_fst h.readRegs h
    · exact .ite_fst h.readRegs h
    · exact .ite_fst h.readRegs h
    · exact .ite_fst h (.ite_fst h (h.serveHbm allParts))
    · exact .ite_fst h (h.latchRead allParts)
    · exact .ite_fst h (h.latchRead allParts)
    · exact .ite_fst h h

theorem Kept.serveWrite {w : Who} {id : Nat} {q : Region} {o : Nat} {data : List Byte} :
    d0.Kept Part.all (d.serveWrite w id q o data).1 := by
  unfold Dev.serveWrite
  dsimp only
  split
  · exact h
  next heq => exact h.securePart heq
  · refine .ite_fst h ?_
    split
    · split
      · split <;> next heq => exact .of_fst_eq heq (h.paneWrite allParts)
      · exact .ite_fst h.writeRegs h
    · exact .ite_fst h.writeRegs h
    · exact .ite_fst h.writeRegs h
    · exact .ite_fst h (.ite_fst h (h.serveHbm allParts))
    · exact h.latchWrite allParts
    · exact h.latchWrite allParts
    iterate 4 exact .ite ((h.writeLines allParts).poisonStore allParts) (h.writeLines allParts)
    · exact h.writeLines allParts

theorem Kept.serveAmo {w : Who} {q : Region} {o : Nat} {swap : Bool} {v : Nat} :
    d0.Kept Part.all (d.serveAmo w q o swap v).1 := by
  unfold Dev.serveAmo
  split
  · dsimp only
    split
    · exact h
    next heq2 =>
      exact h.securePart heq2
    · exact .ite_fst h (.ite_fst h ((h.setLE allParts).bevent allParts))
  · exact h
  · exact h

theorem Kept.responseFault {k cause : Nat} {pc addr : Word} : d0.Kept Part.all (d.responseFault k cause pc addr) :=
  have h := (h.modCtx allParts).except allParts
  .ite (h.modCtx allParts) h

theorem Kept.hostStatus {e : Nat} {st : Status} : d0.Kept Part.all (d.hostStatus e st) :=
  .ite h (h.epErr allParts)

theorem Kept.hostComplete {e : Nat} {st : Status} {data : List Byte} : d0.Kept Part.all (d.hostComplete e st data) :=
  h.hostStatus.emit allParts

theorem Kept.complete {p : Purpose} {st : Status} {data : List Byte} : d0.Kept Part.all (d.complete p st data) := by
  unfold Dev.complete
  split
  · exact
      have h := h.modCtx allParts
      .ite (h.setX allParts) h.responseFault
  · exact .ite h h.responseFault
  · exact
      have h := h.modCtx allParts
      .ite (h.setX allParts) h.responseFault
  · exact h.hostComplete
  · exact h.hostStatus
  · exact h

theorem Kept.startRead {own : Region} {w : Who} {addr len : Nat} {p : Purpose} :
    d0.Kept Part.all (d.startRead own w addr len p) := by
  unfold Dev.startRead
  dsimp only
  split
  · exact h.complete
  · exact .ite h.serveRead.complete ((h.request allParts).send allParts)

theorem Kept.startWrite {own : Region} {w : Who} {addr : Nat} {data : List Byte} {p : Purpose} :
    d0.Kept Part.all (d.startWrite own w addr data p) := by
  unfold Dev.startWrite
  dsimp only
  split
  · exact h.complete
  · exact .ite h.serveWrite.complete ((h.request allParts).send allParts)

theorem Kept.startAmo {own : Region} {w : Who} {addr : Nat} {swap : Bool} {v : Nat} {p : Purpose} :
    d0.Kept Part.all (d.startAmo own w addr swap v p) := by
  unfold Dev.startAmo
  dsimp only
  split
  · exact h.complete
  · exact .ite h.serveAmo.complete ((h.request allParts).send allParts)

theorem Kept.respondTo {r : Region} {tag : Nat} {st : Status} {data : List Byte} :
    d0.Kept Part.all (d.respondTo r tag st data) := by
  unfold Dev.respondTo
  split
  next heq =>
    split
    · exact ((Kept.answered heq h allParts).setSending allParts).readBody allParts
    · exact Kept.answered heq h allParts
  next heq =>
    exact (Kept.answered heq h allParts).complete
  · exact h.lateRsp allParts

theorem Kept.bar2Refuse {e : Endpoint} {write : Bool} : d0.Kept Part.all (d.bar2Refuse e write) :=
  have h := h.epErr allParts
  .ite h (h.emit allParts)

theorem Kept.bar2 {e : Endpoint} {addr : Nat} {write : Bool} {len : Nat} {data : List Byte} :
    d0.Kept Part.all (d.bar2 e addr write len data) := by
  unfold Dev.bar2
  refine .ite (.ite (.ite (.ite (h.setBytes allParts) h) (h.emit allParts)) h.bar2Refuse) ?_
  split
  · exact h.bar2Refuse
  · exact h.each_of (fun _ _ h => .ite h.startWrite h.startRead)

theorem Kept.answerTo {r src : Region} {m : Msg} : d0.Kept Part.all (d.answerTo r src m) :=
  h.send allParts

/-! ### The operations of Machine/Cells.lean -/

theorem Kept.fetchHalf {k pc : Nat} : d0.Kept Part.all (d.fetchHalf k pc).1 := by
  unfold Dev.fetchHalf
  dsimp only
  split
  · exact h
  · exact .ite_fst h (.ite_fst h (h.modCell allParts))

theorem Kept.fetchPoison {k : Nat} : d0.Kept Part.all (d.fetchPoison k) := h.err allParts

/-- The part as a fetch leaves it, whether or not the instruction was got. -/
def Fetched.part : Fetched → Dev
  | .bits d _ _ | .fault d _ _ => d

theorem Kept.fetch {k : Nat} : d0.Kept Part.all (d.fetch k).part := by
  unfold Dev.fetch
  extract_lets pc
  split
  · exact h
  · split
    next heq => exact .of_fst_eq heq (h.fetchHalf)
    next heq =>
      have h₁ := Kept.of_fst_eq heq (h.fetchHalf)
      split
      · exact h₁
      · split
        · exact h₁
        · extract_lets two
          split <;> rename_i heq₂ <;> exact .of_fst_eq heq₂ (h₁.fetchHalf)

theorem Kept.advance {k len : Nat} : d0.Kept Part.all (d.advance k len) :=
  h.modCtx allParts

theorem Kept.counted {k misses : Nat} {sels : List Nat} : d0.Kept Part.all (d.counted k misses sels) :=
  h.each_of (fun _ _ h => h.bevent allParts)

theorem Kept.issue {u : CtxId} {w : Word} {row : Dev → Nat → Insn → Bool}
    {f : Dev → Nat → Insn → Nat → Res}
    (hf : ∀ e k i len, d0.Kept Part.all e → d0.KeptR (f e k i len)) : d0.KeptR (d.issue u w row f) := by
  unfold Dev.issue
  extract_lets k
  refine .ite .refused (.ite .refused ?_)
  have hd : d0.Kept Part.all (d.fetch k).part := h.fetch
  split
  next heq =>
    rw [heq] at hd
    exact
      have h := Kept.except hd allParts
      .next (.counted (.ite h.fetchPoison h))
  next heq =>
    rw [heq] at hd
    refine .ite .refused (.ite .refused ?_)
    split
    next heq =>
      have hr : d0.KeptR (.next _) := heq ▸ hf _ _ _ _ hd
      exact Kept.counted hr
    · exact hf _ _ _ _ hd

theorem Kept.illegal {k : Nat} : d0.Kept Part.all (d.illegal k) := h.except allParts

theorem Kept.secFault {k cause : Nat} {a : Word} : d0.Kept Part.all (d.secFault k cause a) :=
  (h.except allParts).secReject allParts

theorem Kept.arbWait {k x wait : Nat} : d0.Kept Part.all (d.arbWait k x wait) :=
  .ite ((h.setFld allParts).setFld allParts) h

theorem Kept.spanOf {k a n : Nat} {write : Bool} {e : Dev} (heq : d.spanOf k a n write = .inl e) :
    d0.Kept Part.all e := by
  unfold Dev.spanOf at heq
  extract_lets cause at heq
  split at heq
  · cases heq
  · split_ifs at heq
    cases heq
    exact h.secFault
  · cases heq
    exact h.except allParts

theorem Kept.readSpan {k a n : Nat} {e : Dev} (heq : d.readSpan k a n = .inl e) : d0.Kept Part.all e := by
  unfold Dev.readSpan at heq
  split at heq
  next hs =>
    cases heq
    exact h.spanOf hs
  next x hs =>
    split_ifs at heq
    cases heq
    exact h.except allParts

theorem Kept.writeSpan {k x : Nat} {b : List Byte} : d0.Kept Part.all (d.writeSpan k x b) := by
  unfold Dev.writeSpan
  split
  next heq =>
    have h := Kept.of_fst_eq heq (h.writeLines allParts)
    exact .ite (h.poisonStore allParts) h

theorem Kept.memory {k : Nat} {ordered : Bool} {f : Dev → Dev} (hf : ∀ e, d0.Kept Part.all e → d0.Kept Part.all
    (f e)) :
    d0.KeptR (d.memory k ordered f) :=
  .ite .refused (.next (hf _ h))

theorem Kept.loaded {k : Nat} {i : Insn} {len x : Nat} : d0.Kept Part.all (d.loaded k i len x) :=
  h.advance.setX allParts

theorem Kept.await {k rd : Nat} : d0.Kept Part.all (d.await k rd) :=
  .ite h (h.modCtx allParts)

theorem Kept.loadAt {k : Nat} {i : Insn} {len wait : Nat} : d0.Kept Part.all (d.loadAt k i len wait) := by
  unfold Dev.loadAt
  dsimp only
  split
  · exact .ite (h.except allParts) h.loaded
  · exact .ite h.secFault (.ite (h.arbWait.except allParts) h.arbWait.loaded)
  · exact .ite (h.except allParts) <|
      .ite (h.except allParts) (.ite h.secFault (.ite (h.arbWait.except allParts) h.arbWait.loaded))
  · exact .ite (h.except allParts) h.advance.await.startRead
  · exact h.except allParts

theorem Kept.storeAt {k : Nat} {i : Insn} {len wait : Nat} : d0.Kept Part.all (d.storeAt k i len wait) := by
  unfold Dev.storeAt
  dsimp only
  split
  · exact h.advance.writeSpan
  · exact .ite h.secFault h.arbWait.advance.writeSpan
  · exact .ite (h.except allParts) h.advance.startWrite
  · exact h.except allParts

theorem Kept.forceAt {k : Nat} {i : Insn} {len wait : Nat} : d0.Kept Part.all (d.forceAt k i len wait) := by
  unfold Dev.forceAt
  dsimp only
  split
  · exact .ite (h.except allParts) (.ite (h.except allParts) (.ite h.secFault h.arbWait.advance.writeSpan))
  · exact h.except allParts

theorem Kept.latchReadAt {k : Nat} {i : Insn} {len wait : Nat} : d0.Kept Part.all (d.latchReadAt k i len wait) := by
  unfold Dev.latchReadAt
  refine .ite (h.except allParts) (.ite (h.except allParts) ?_)
  dsimp only
  split
  · exact .ite h.secFault (.ite (h.arbWait.except allParts) ((h.arbWait.advance.latchRead allParts).setX allParts))
  · exact .ite (h.except allParts) (.ite (h.except allParts) ((h.advance.latchRead allParts).setX allParts))
  · exact h.except allParts

theorem Kept.latchWriteAt {k : Nat} {i : Insn} {len wait : Nat} : d0.Kept Part.all (d.latchWriteAt k i len wait) := by
  unfold Dev.latchWriteAt
  refine .ite (h.except allParts) (.ite (h.except allParts) ?_)
  dsimp only
  split
  · exact .ite h.secFault (h.arbWait.advance.latchWrite allParts)
  · exact .ite (h.except allParts) (h.advance.latchWrite allParts)
  · exact h.except allParts

theorem Kept.amoAt {k : Nat} {i : Insn} {len wait : Nat} {swap : Bool} :
    d0.Kept Part.all (d.amoAt k i len wait swap) := by
  unfold Dev.amoAt
  refine .ite (h.except allParts) ?_
  dsimp only
  split
  · exact .ite (h.except allParts) ((h.setLE allParts).advance.setX allParts)
  · exact .ite h.secFault <|
      have h := h.arbWait
      .bevent (.ite (h.except allParts) ((h.setLE allParts).advance.setX allParts)) allParts
  · exact h.advance.await.startAmo
  · exact h.except allParts

/-! ### The operations of Machine/Insns.lean -/

theorem Kept.jump {k : Nat} {pc : Word} : d0.Kept Part.all (d.jump k pc) :=
  h.modCtx allParts

theorem Kept.integer {k : Nat} {i : Insn} {len : Nat} : d0.Kept Part.all (d.integer k i len) := by
  unfold Dev.integer
  dsimp only
  split
  · exact h.advance.setX allParts
  · exact h.advance.setX allParts
  · exact h.jump.setX allParts
  · exact h.jump.setX allParts
  · exact .ite h.jump h.advance
  · exact h.advance.setX allParts
  · exact h.advance.setX allParts
  · exact h.illegal

theorem Kept.waitFor {k len mask rd : Nat} : d0.Kept Part.all (d.waitFor k len mask rd) :=
  have h := h.advance
  .ite ((h.modCtx allParts).setX allParts) ((h.modCtx allParts).bevent allParts)

theorem Kept.csrRead {k n cycle used : Nat} : d0.Kept Part.all (d.csrRead k n cycle used).1 := by
  unfold Dev.csrRead
  dsimp only
  split
  any_goals exact h
  · exact h.modCtx allParts
  · exact .ite_fst h h
  · exact h.modCtx allParts
  · exact h.modCtx allParts
  · exact .ite_fst h.readReg h

theorem Kept.csrWrite {k n : Nat} {v : Word} : d0.Kept Part.all (d.csrWrite k n v) := by
  unfold Dev.csrWrite
  split
  any_goals exact h.modCtx allParts
  · exact (h.modCtx allParts).interruptTrap allParts
  · exact (h.modCtx allParts).interruptTrap allParts
  · exact .ite h.writeReg h

theorem Kept.csrAccess {k : Nat} {i : Insn} {len cycle used : Nat} :
    d0.Kept Part.all (d.csrAccess k i len cycle used) :=
  .ite h.illegal <|
  .ite (.csrWrite (.setX (.ite_fst h.advance (.ite_fst (h.advance.claim allParts) h.csrRead.advance)) allParts)) <|
  .setX (.ite_fst h.advance (.ite_fst (h.advance.claim allParts) h.csrRead.advance)) allParts

/-! ### The operations of Machine/Picot.lean -/

theorem Kept.packetOp {u : CtxId} {w : Word} {op : Op} {f : Dev → Nat → Nat → Packet → Insn → Nat → Res}
    (hf : ∀ e y z w' x4 x5, d0.Kept Part.all e → d0.KeptR (f e y z w' x4 x5)) :
    d0.KeptR (d.packetOp u w op f) := by
  unfold Dev.packetOp
  refine h.issue (fun _ _ _ _ h => .ite (.next h.illegal) ?_)
  split
  · exact .next h.illegal
  · split
    · exact .next h.illegal
    · exact hf _ _ _ _ _ _ h

theorem Kept.overBudget {k used : Nat} : d0.Kept Part.all (d.overBudget k used) :=
  .ite (((h.addSat allParts).err allParts).bevent allParts) h

theorem Kept.verdict {k n : Nat} {p : Packet} {v dest : Nat} {entries : List Nat} {window : List Byte} :
    d0.Kept Part.all (d.verdict k n p v dest entries window) :=
  .ite ((h.setOn allParts).dropPacket allParts) <|
  .ite (.dropPacket (.ite h (h.rewriteInvalid allParts)) allParts) <|
  .ite (h.dropPacket allParts) <|
  .ite ((h.modPkt allParts).recirculate allParts) <|
  .ite (.ite (h.forward allParts) (.dropPacket (.ite h (h.rewriteInvalid allParts)) allParts)) (h.forward allParts)

theorem Kept.retirePacket {k n : Nat} {p : Packet} {v dest used : Nat} {entries : List Nat} :
    d0.Kept Part.all (d.retirePacket k n p v dest used entries) :=
  ((h.overBudget.endHeld allParts).modCtx allParts).verdict

theorem Kept.lookupAt {k : Nat} {i : Insn} {len : Nat} : d0.Kept Part.all (d.lookupAt k i len) := by
  unfold Dev.lookupAt
  refine .ite (h.except allParts) ?_
  dsimp only
  split
  next heq =>
    exact h.readSpan heq
  · refine .ite (h.advance.setX allParts) ?_
    split
    next heq2 =>
      exact h.readSpan heq2
    · refine .ite (h.except allParts) ?_
      split
      next heq3 =>
        exact h.spanOf heq3
      · exact ((h.writeSpan.modCtx allParts).bevent allParts).advance.setX allParts

theorem Kept.fetchAt {k : Nat} {p : Packet} {i : Insn} {len : Nat} : d0.Kept Part.all (d.fetchAt k p i len) := by
  unfold Dev.fetchAt
  refine .ite (h.except allParts) ?_
  dsimp only
  split
  next heq =>
    exact h.spanOf heq
  · split
    · exact h.advance.setX allParts
    · exact ((h.modCtx allParts).bevent allParts).advance.setX allParts

theorem Kept.fetchDone {k dest x : Nat} : d0.Kept Part.all (d.fetchDone k dest x) := by
  unfold Dev.fetchDone
  extract_lets st b d₁ d₂
  have h₁ : d0.Kept Part.all d₁ := by
    unfold d₁
    split
    · exact h.writeSpan
    · exact h.writeSpan
    · exact h
  have h₂ : d0.Kept Part.all d₂ := by
    unfold d₂
    split
    · exact .ite h₁ (h₁.modPkt allParts)
    · exact h₁
  exact h₂.setEvents allParts

theorem Kept.request' {k : Nat} {p : Packet} {b : List Byte} : d0.Kept Part.all (d.request' k p b).1 := by
  unfold Dev.request'
  refine .ite_fst h (.ite_fst ?_ ((h.directAll allParts).when_of (fun _ h => h.event allParts)))
  split
  next heq =>
    exact .of_fst_eq heq (h.stage allParts)
  next heq =>
    exact .of_fst_eq heq (h.stage allParts)

theorem Kept.mutationAt {k : Nat} {p : Packet} {i : Insn} {len : Nat} : d0.Kept Part.all (d.mutationAt k p i len) := by
  unfold Dev.mutationAt
  dsimp only
  split
  next heq =>
    exact h.readSpan heq
  · split
    next heq2 =>
      exact h.readSpan heq2
    · exact (h.request'.bevent allParts).advance.modCtx allParts

theorem Kept.copro {u : CtxId} {w : Word} {row : Insn → Bool} {f : Dev → Nat → Insn → Nat → Dev}
    (hf : ∀ e y z w', d0.Kept Part.all e → d0.Kept Part.all (f e y z w')) :
    d0.KeptR (d.copro u w row f) :=
  h.issue (fun _ _ _ _ h => .ite (.next (h.except allParts)) (.next (hf _ _ _ _ h).counted))

theorem Kept.cpRow {u : CtxId} {w : Word} {code : Nat} {f : Word → Word → Copro → Copro.Answer} :
    d0.KeptR (d.cpRow u w code f) :=
  h.copro (fun _ _ _ _ h => (h.cpOp allParts).advance.setX allParts)

/-! ### The operations of Machine/Ledger.lean -/

theorem Kept.takeDue {r : Region} : d0.Kept Part.all (d.takeDue r) :=
  h.modRegion.each_of (fun _ _ h => h.setReg allParts)

theorem Kept.takeDivs {r : Region} : d0.Kept Part.all (d.takeDivs r) :=
  (h.modFront allParts).each_of (fun _ _ h => (((h.setReg allParts).zero allParts).zero allParts).startCode allParts)

theorem Kept.takeDesc {r : Region} {n : Nat} : d0.Kept Part.all (d.takeDesc r n) :=
  have h := (h.modCommit allParts).modTables allParts
  .countBad (.ite h (h.zero allParts)) allParts

theorem Kept.takeDescs {r : Region} : d0.Kept Part.all (d.takeDescs r) :=
  (h.modTables allParts).each_of (fun _ _ h => h.takeDesc)

theorem Kept.parkRegion {r : Region} : d0.Kept Part.all (d.parkRegion r) :=
  have h := (h.setFld allParts).each_of (fun _ _ h => h.requestBlock allParts)
  .ite (h.requestRate allParts) (.ite (h.setFld allParts) h)

theorem Kept.wakeRegion {r : Region} : d0.Kept Part.all (d.wakeRegion r) :=
  have h := (h.setFld allParts).each_of (fun _ _ h => h.requestBlock allParts)
  .ite h (h.requestRate allParts)

theorem Kept.takePark {r : Region} : d0.Kept Part.all (d.takePark r) := by
  unfold Dev.takePark
  split
  · exact h.parkRegion
  · exact h.wakeRegion
  · exact h

/-- The operation is opened as a constant and `Dev.facing` named, so that the match on what a module faces is split as
it stands. -/
theorem Kept.downModule {r : Region} {m : Nat} : d0.Kept Part.all (d.downModule r m) := by
  rw [show @Dev.downModule = _ by delta Dev.downModule; exact rfl]
  generalize Dev.facing = facing
  extract_lets d₁
  have h₁ : d0.Kept Part.all d₁ := h.setLinkState allParts
  split
  · exact h₁
  · exact .ite (h₁.moveTraffic allParts) (.ite ((h₁.noteRoute allParts).discardLost allParts) h₁)

theorem Kept.takeLinks {r : Region} : d0.Kept Part.all (d.takeLinks r) := by
  unfold Dev.takeLinks
  refine h.each_of (fun _ _ h => ?_)
  split
  · exact h.setLinkState allParts
  · exact h
  · exact h.downModule
  · exact h

theorem Kept.takeRoutes {r : Region} {k : Nat} : d0.Kept Part.all (d.takeRoutes r k) :=
  .ite h <|
  have h := ((h.modRegion.discardLost allParts).setFld allParts).setFld allParts
  have h := ((h.setFld allParts).setParent allParts).raise allParts
  .ite (h.each_of (fun _ _ h => h.dueFence allParts)) h

theorem Kept.takeFlush {r : Region} : d0.Kept Part.all (d.takeFlush r) :=
  (h.modEgress allParts).each_of (fun _ _ h => (h.each_of (fun _ _ h => h.flushQueue allParts)).raise allParts)

theorem Kept.portFalls {r : Region} {p : Nat} : d0.Kept Part.all (d.portFalls r p) :=
  .ite (((h.clr allParts).clr allParts).modEgress allParts) h

theorem Kept.raiseUnit {r : Region} {kind i requested effective : Nat} :
    d0.Kept Part.all (d.raiseUnit r kind i requested effective) :=
  have h := Kept.ite (h.setReg allParts) h
  (h.addSat allParts).post allParts

theorem Kept.setUnit {r : Region} {kind i : Nat} {u : LedgerUnit} : d0.Kept Part.all (d.setUnit r kind i u) :=
  h.modRegion

theorem Kept.updateUnit {r : Region} {k kind i : Nat} : d0.Kept Part.all (d.updateUnit r k kind i) :=
  have h := Kept.ite h.portFalls h
  .ite h.setUnit <|
  have h := h.setUnit
  .ite h.raiseUnit h

theorem Kept.countUnits {r : Region} : d0.Kept Part.all (d.countUnits r) :=
  h.setFld allParts

theorem Kept.unitJobs {r : Region} {k : Nat} : d0.Kept Part.all (d.unitJobs r k) := by
  unfold Dev.unitJobs
  refine h.each_of (fun _ _ h => ?_)
  split
  · exact .ite h (.ite (h.endJob allParts) (.ite (h.endJob allParts) (.ite (h.endJob allParts) h)))
  · exact h

theorem Kept.takeUnits {r : Region} {k : Nat} : d0.Kept Part.all (d.takeUnits r k) :=
  have h := h.takeDue.takeDivs.takeDescs.takeSlots allParts
  have h := Kept.ite h (h.refreshBudgets allParts)
  (h.takePark.takeLinks.takeRoutes.takeFlush.each_of (fun _ _ h => h.updateUnit)).countUnits.unitJobs

/-! ### The operations of Machine/Shutter.lean -/

theorem Kept.snapOne {cfg : Nat} : d0.Kept Part.all (d.snapOne cfg) :=
  (h.setReg allParts).setReg allParts

theorem Kept.openSnapshot {k : Nat} : d0.Kept Part.all (d.openSnapshot k) :=
  have h := (h.modA allParts).each_of (fun _ _ h => (h.setFld allParts).raise allParts)
  .ite (((((h.each_of (fun _ _ h => h.snapOne)).clr allParts).clr allParts).clr allParts).modA allParts) h

theorem Kept.openFences : d0.Kept Part.all d.openFences :=
  h.each_of fun _ _ h =>
    have h := Kept.ite (h.rejoinFail allParts) h
    .ite (h.modCommit allParts) (h.fenceRegion allParts)

theorem Kept.openTime {k : Nat} : d0.Kept Part.all (d.openTime k) := by
  unfold Dev.openTime
  extract_lets a _ d₁
  have h₁ : d0.Kept Part.all d₁ := by
    unfold d₁
    split
    · exact
        have h := ((h.setPtpBase allParts).setFld allParts).setFld allParts
        (h.modA allParts).each_of fun _ _ h => h.refreshBudgets allParts
    · exact h
  split
  · exact .ite ((h₁.modA allParts).setPtpBase allParts) h₁
  · exact h₁

theorem Kept.openRoles {k : Nat} : d0.Kept Part.all (d.openRoles k) :=
  (h.modA allParts).each_of (fun _ _ h => (h.setFld allParts).modCommit allParts)

theorem Kept.openRejoin {k : Nat} : d0.Kept Part.all (d.openRejoin k) := by
  unfold Dev.openRejoin
  split
  · exact .ite (h.rejoinJoin allParts) (.ite (h.rejoinDone allParts) h)
  · exact h

theorem Kept.openShutter {k : Nat} : d0.Kept Part.all (d.openShutter k) := by
  unfold Dev.openShutter
  extract_lets d₁ d₂ d₃
  have h₁ : d0.Kept Part.all d₁ := h.modA allParts
  have h₃ : d0.Kept Part.all d₃ :=
    have h := h₁.openSnapshot.openFences.openRejoin.openTime.openRoles
    .ite (h.chooseStandby allParts) h
  refine .ite h (.ite (h₁.modA allParts) ?_)
  split
  · exact .ite (h₃.modA allParts) h₃
  · exact h₃

theorem Kept.refillLearn {r : Region} : d0.Kept Part.all (d.refillLearn r) :=
  h.each_of (fun _ _ h => h.setTokens allParts)

theorem Kept.spareSlots {r : Region} : d0.Kept Part.all (d.spareSlots r) :=
  h.setFld allParts

theorem Kept.commitTick {r : Region} {k : Nat} : d0.Kept Part.all (d.commitTick r k) :=
  h.modRegion.modCommit allParts

theorem Kept.nextTick {r : Region} {k : Nat} : d0.Kept Part.all (d.nextTick r k) := by
  unfold Dev.nextTick
  extract_lets d₁ d₂ d₃ d₄
  have h₄ : d0.Kept Part.all d₄ :=
    have h := ((h.commitTick.clr allParts).modEgress allParts).spareSlots
    (h.modFront allParts).refillLearn.fillBuckets allParts
  split
  · exact h₄.modEp allParts
  · exact h₄

theorem Kept.holdover {r : Region} {k : Nat} : d0.Kept Part.all (d.holdover r k) :=
  .ite h (.ite (h.clr allParts) (h.err allParts))

theorem Kept.snapRegion {r : Region} {k : Nat} : d0.Kept Part.all (d.snapRegion r k) :=
  .ite
    (have h := h.each_of (fun _ _ h => h.snapOne)
     ((h.each_of (fun _ _ h => h.each_of (fun _ _ h => h.snapOne))).modA allParts).send allParts)
    h

theorem Kept.shutterEvent {r : Region} : d0.Kept Part.all (d.shutterEvent r) := by
  unfold Dev.shutterEvent
  split
  next heq =>
    have h := Kept.of_fst_eq heq (h.foldl_fst_of (fun _ _ h => h.monBank allParts))
    exact h.signals allParts

theorem Kept.tickBank {base count hitAddr : Nat} {region : Option Nat} {src : Signal} :
    d0.Kept Part.all (d.tickBank base count hitAddr region src).1 :=
  h.foldl_fst_of (fun _ _ h => .ite_fst ((h.monAdd allParts).setHit allParts) (h.monAdd allParts))

theorem Kept.tickMonitors {r : Region} : d0.Kept Part.all (d.tickMonitors r) := by
  unfold Dev.tickMonitors
  split
  next heq =>
    have h := Kept.of_fst_eq heq (h.foldl_fst_of (fun _ _ h => h.tickBank))
    split
    next heq =>
      have h := Kept.of_fst_eq heq h.tickBank
      split
      next heq => exact .signals (.of_fst_eq heq h.tickBank) allParts

theorem Kept.leaveWorker {c n : Nat} : d0.Kept Part.all (d.leaveWorker c n) :=
  have h := Kept.ite (h.endHeld allParts) h
  h.modCtx allParts

theorem Kept.overrun {r : Region} {n : Nat} {p : Packet} : d0.Kept Part.all (d.overrun r n p) := by
  unfold Dev.overrun
  split
  · exact (((h.leaveWorker.addSat allParts).raise allParts).bevent allParts).dropPacket allParts
  · exact h.dropPacket allParts

theorem Kept.endPassOf {r : Region} {n : Nat} {p : Packet} : d0.Kept Part.all (d.endPassOf r n p) := by
  unfold Dev.endPassOf
  extract_lets many
  refine .ite (h.modPkt allParts) ?_
  split
  next heq => exact .dropPacket (.of_fst_eq heq (h.makeHead allParts)) allParts
  next heq =>
    have h := Kept.of_fst_eq heq (h.makeHead allParts)
    exact .modPkt (.ite h (h.freePkt allParts)) allParts

theorem Kept.endWindows {r : Region} {k : Nat} : d0.Kept Part.all (d.endWindows r k) :=
  have h := h.each_of (fun _ _ h => h.overrun)
  ((h.each_of (fun _ _ h => h.endPassOf)).each_of (fun _ _ h => h.modCtx allParts)).modDsp allParts

theorem Kept.keepPanes {r : Region} : d0.Kept Part.all (d.keepPanes r) :=
  h.modEgress allParts

theorem Kept.releases {r : Region} {k : Nat} : d0.Kept Part.all (d.releases r k) :=
  have h := h.keepPanes.each_of (fun _ _ h => h.leaveFlight allParts)
  have h := ((h.setFld allParts).modEgress allParts).each_of (fun _ _ h => h.deref allParts)
  .ite (h.closeList allParts) (h.sendAll allParts)

theorem Kept.performHeld {r : Region} {k : Nat} {m : Mut} {i : Option Issuer} :
    d0.Kept Part.all (d.performHeld r k m i) := by
  unfold Dev.performHeld
  dsimp only
  split
  · exact (h.applyOps allParts).outcome allParts
  · exact h.applyOps allParts

theorem Kept.showCommits {r : Region} {k : Nat} : d0.Kept Part.all (d.showCommits r k) :=
  have h := h.modCommit allParts
  ((h.foldl_of (fun _ _ h => h.applyOps allParts)).applyOps allParts).each_of (fun _ _ h => h.performHeld)

theorem Kept.applyLocal {r : Region} {k : Nat} : d0.Kept Part.all (d.applyLocal r k) :=
  .ite (h.addSat allParts) <|
  have h := ((h.applyList allParts).foldl_of (fun _ _ h => h.sendAll allParts)).addSat allParts
  .ite (h.clr allParts) (h.addSat allParts)

theorem Kept.applyRecon {r : Region} {x : Copy} : d0.Kept Part.all (d.applyRecon r x) :=
  .ite h <|
  have h := (h.applyOps allParts).modCommit allParts
  .ite (h.noteWrite allParts) h

theorem Kept.applyRecons {r : Region} : d0.Kept Part.all (d.applyRecons r) :=
  (h.modCommit allParts).each_of (fun _ _ h => h.applyRecon)

theorem Kept.reports {r : Region} {k : Nat} : d0.Kept Part.all (d.reports r k) :=
  (h.modCommit allParts).each_of (fun _ _ h => h.report allParts)

theorem Kept.swapHere {r : Region} {k : Nat} : d0.Kept Part.all (d.swapHere r k) :=
  have h := ((h.setPaneState allParts).setPaneState allParts).setFld allParts
  ((h.setFld allParts).modFront allParts).raise allParts

theorem Kept.retireHere {r : Region} {k : Nat} : d0.Kept Part.all (d.retireHere r k) := by
  unfold Dev.retireHere
  split
  · exact h
  · exact
      have h := Kept.ite (h.modFront allParts) h
      .ite ((h.setPaneState allParts).raise allParts) (.ite ((h.setPaneState allParts).clr allParts) h)

theorem Kept.chipPanes {swapped : Bool} : d0.Kept Part.all (d.chipPanes swapped) :=
  have h := (h.setFld allParts).setFld allParts
  .ite ((((((h.setFld allParts).setFld allParts).clr allParts).modA allParts).cevent allParts).post allParts) <|
  .ite (h.post allParts) h

theorem Kept.panes {r : Region} {k : Nat} : d0.Kept Part.all (d.panes r k) :=
  have h := Kept.ite h.swapHere h.retireHere
  .ite h.chipPanes h

theorem Kept.decideMode {k : Nat} : d0.Kept Part.all (d.decideMode k) := by
  unfold Dev.decideMode
  split
  · exact h
  · extract_lets _ _ cause d₁ d₂
    have h₂ : d0.Kept Part.all d₂ := ((h.modA allParts).clr allParts).clr allParts
    clear_value cause
    refine .ite h ?_
    split
    · exact (h₂.modeRejected allParts).mailModeDone allParts
    · exact (((h₂.setFld allParts).setFld allParts).modA allParts).mailModeDone allParts

theorem Kept.enterLean {r : Region} : d0.Kept Part.all (d.enterLean r) :=
  (h.each_of (fun _ _ h => (h.requestBlock allParts).noteRequest allParts)).requestRate allParts

theorem Kept.leaveLean {r : Region} : d0.Kept Part.all (d.leaveLean r) :=
  (h.each_of (fun _ _ h => (h.requestBlock allParts).noteRequest allParts)).requestRate allParts

theorem Kept.takeMode {r : Region} : d0.Kept Part.all (d.takeMode r) :=
  .ite h <|
  have h := (h.modRegion.raise allParts).modFront allParts
  have h := Kept.ite h.enterLean (.ite h.leaveLean h)
  h.refreshBudgets allParts

theorem Kept.ageSlot {r : Region} {k n : Nat} {t : TableDesc} {slot : Nat} :
    d0.Kept Part.all (d.ageSlot r k n t slot) := by
  unfold Dev.ageSlot
  refine .ite h (.ite (.ite (h.modTables allParts) ?_) (.ite (h.stage allParts) h))
  dsimp only
  split
  next heq =>
    exact .modTables (.of_fst_eq heq (h.stage allParts)) allParts
  next heq =>
    exact .of_fst_eq heq (h.stage allParts)

theorem Kept.sweep {r : Region} {k n table slot : Nat} : d0.Kept Part.all (d.sweep r k n table slot).1 := by
  induction n generalizing d table slot with
  | zero => exact h
  | succ n ih =>
    unfold Dev.sweep
    split
    · exact h
    · exact ih h.ageSlot

theorem Kept.aging {r : Region} {k : Nat} : d0.Kept Part.all (d.aging r k) := by
  unfold Dev.aging
  extract_lets
  refine .ite (h.modTables allParts) (.ite h ?_)
  split
  next heq =>
    have h := Kept.of_fst_eq heq h.sweep
    extract_lets d₁
    have h₁ : d0.Kept Part.all d₁ := .ite (h.err allParts) h
    split
    · exact h₁.modTables allParts
    · exact (h₁.setFld allParts).modTables allParts

theorem Kept.sendSeal {r : Region} {k : Nat} : d0.Kept Part.all (d.sendSeal r k) :=
  .ite h ((h.send allParts).setFld allParts)

theorem Kept.slewShutter : d0.Kept Part.all d.slewShutter :=
  .ite (((h.modA allParts).setOn allParts).clr allParts) (h.modA allParts)

theorem Kept.ppsOut {k : Nat} : d0.Kept Part.all (d.ppsOut k) := .ite (h.emit allParts) h

theorem Kept.noteConverged : d0.Kept Part.all d.noteConverged :=
  have h := h.modA allParts
  .ite (h.raise allParts) h

theorem Kept.anchorPart {k : Nat} : d0.Kept Part.all (d.anchorPart k) :=
  ((h.sendAll allParts).flood allParts).slewShutter.ppsOut.noteConverged

theorem Kept.echoes {r : Region} {k : Nat} : d0.Kept Part.all (d.echoes r k) := by
  unfold Dev.echoes
  refine .ite h (h.each_of (fun _ _ h => ?_))
  split
  · exact .ite (h.send allParts) h
  · exact h

theorem Kept.drainEmpty {r : Region} : d0.Kept Part.all (d.drainEmpty r) :=
  .ite ((h.modFront allParts).raise allParts) h

theorem Kept.rejoinSteps {r : Region} {k : Nat} : d0.Kept Part.all (d.rejoinSteps r k) := by
  unfold Dev.rejoinSteps
  split
  · exact .ite h (.ite (h.copyReplica allParts) (.ite (h.rejoinRecover allParts) h))
  · exact h

theorem Kept.shutterOf {r : Region} {k : Nat} : d0.Kept Part.all (d.shutterOf r k) :=
  have h := h.tickMonitors.snapRegion.shutterEvent.rejoinSteps.nextTick
  have h := h.holdover.endWindows.releases.showCommits.applyLocal.applyRecons.reports
  have h := Kept.ite h.panes h
  have h := (h.takeUnits.decideMode.takeMode.aging.requestRepairs allParts).sendSeal
  have h := Kept.ite h.anchorPart h
  h.echoes.drainEmpty

theorem Kept.guestShutter {r : Region} {k : Nat} : d0.Kept Part.all (d.guestShutter r k) :=
  (h.commitTick.showCommits.setFld allParts).modRegion

theorem Kept.followMarker {r : Region} {tick anchor : Nat} {offset : Int} :
    d0.Kept Part.all (d.followMarker r tick anchor offset) :=
  have h := h.modCommit allParts
  have h :=
    Kept.ite (h.setFld allParts) <|
    have h := h.setFld allParts
    .ite (h.err allParts) h
  .ite h (.ite h.modRegion ((h.when_of (fun _ h => h.err allParts)).dueFence allParts))

/-! ### The operations of Machine/Thody.lean -/

theorem Kept.checked {l : List (Option Reply)} {go : Dev → Dev × Reply}
    (hf : ∀ e, d0.Kept Part.all e → d0.Kept Part.all (go e).1) :
    d0.Kept Part.all (d.checked l go).1 := by
  unfold Dev.checked
  split
  · exact h
  · exact hf _ h

theorem KeptFst.checked {l : List (Option Reply)} {go : Dev → Dev × Reply}
    (hf : ∀ e, d0.Kept Part.all e → d0.KeptFst (go e)) : d0.KeptFst (d.checked l go) :=
  h.checked hf

theorem Kept.eachRegion {l : List Region} {f : Region → Dev → Dev × Bool}
    (hf : ∀ x e, d0.Kept Part.all e → d0.Kept Part.all (f x e).1) :
    d0.Kept Part.all (eachRegion l f d).1 := by
  unfold Dev.eachRegion
  refine h.foldl_fst_of (fun _ _ h => ?_)
  split
  · exact h
  · exact hf _ _ h

theorem KeptFst.eachRegion {l : List Region} {f : Region → Dev → Dev × Bool}
    (hf : ∀ q e, d0.Kept Part.all e → d0.KeptFst (f q e)) : d0.KeptFst (eachRegion l f d) :=
  h.eachRegion hf

theorem Kept.ringSet {e : Endpoint} {p : List Byte} : d0.Kept Part.all (d.ringSet e p).1 :=
  .ite_fst (h.modEp allParts) (h.checked (fun _ h => ((h.modEp allParts).setFld allParts).setFld allParts))

theorem Kept.modeSet {p : List Byte} : d0.Kept Part.all (d.modeSet p).1 := by
  unfold Dev.modeSet
  refine h.checked (fun _ h => ?_)
  dsimp only
  split <;> next heq => exact .of_fst_eq heq (h.modeRequest allParts)

theorem Kept.tickSet {p : List Byte} : d0.Kept Part.all (d.tickSet p).1 :=
  h.checked (fun _ h => h.modA allParts)

/-- Shown of the pair (`KeptFst`), since the command's first component would be evaluated through its matches. -/
theorem Kept.ptpSet {p : List Byte} : d0.Kept Part.all (d.ptpSet p).1 := by
  change d0.KeptFst _
  unfold Dev.ptpSet
  refine KeptFst.checked h (fun _ h => ?_)
  extract_lets
  split <;> next heq =>
    exact .of_fst_eq heq ((((h.setPair allParts).setFld allParts).setPair allParts).ptpLoad allParts)

theorem Kept.ptpMove {p : List Byte} : d0.Kept Part.all (d.ptpMove p).1 :=
  h.checked fun _ h =>
    .ite_fst (.ite_fst (h.ptpFreq allParts) h) <|
    .ite (.ptpAdjust (.ite_fst (h.ptpFreq allParts) h) allParts) (.ite_fst (h.ptpFreq allParts) h)

theorem Kept.requestCells {r : Region} {b want : Nat} : d0.Kept Part.all (d.requestCells r b want).1 :=
  have h := h.retWrite allParts
  .ite_fst h <|
  .ite_fst (h.noteRequest allParts) (.ite_fst (h.cellRunWrite allParts) ((h.setFld allParts).noteRequest allParts))

theorem Kept.requestUnit {r : Region} {kind i want : Nat} : d0.Kept Part.all (d.requestUnit r kind i want).1 := by
  unfold Dev.requestUnit
  split
  · exact h.portEnable allParts
  · exact h.writeReg
  · exact h.requestCells
  · exact h.parkWrite allParts
  · exact h.reqUpWrite allParts
  · exact .ite_fst h.descWrite (.ite_fst h (h.noteRequest allParts))

theorem Kept.unitSet {p : List Byte} : d0.Kept Part.all (d.unitSet p).1 := by
  unfold Dev.unitSet
  refine h.checked (fun _ h => ?_)
  dsimp only
  split
  next heq =>
    exact .of_fst_eq heq h.requestUnit
  next heq =>
    exact .of_fst_eq heq h.requestUnit

theorem Kept.unitQuery {p : List Byte} : d0.Kept Part.all (d.unitQuery p).1 :=
  h.checked (fun _ h => h)

theorem Kept.ledgerScan {p : List Byte} : d0.Kept Part.all (d.ledgerScan p).1 :=
  h.checked (fun _ h => h)

theorem Kept.tblDescSet {p : List Byte} : d0.Kept Part.all (d.tblDescSet p).1 := by
  unfold Dev.tblDescSet
  refine h.checked (fun _ h => ?_)
  dsimp only
  split
  next heq =>
    exact .of_fst_eq heq (h.foldl_fst_of (fun _ _ h => h.descWrite))
  next heq =>
    exact .of_fst_eq heq (h.foldl_fst_of (fun _ _ h => h.descWrite))

theorem Kept.tblMutate {e : Endpoint} {n time : Nat} {p : List Byte} : d0.Kept Part.all (d.tblMutate e n time p).1 := by
  unfold Dev.tblMutate
  refine .ite_fst (.ite_fst h (h.directAll allParts)) (.ite_fst (h.outcome allParts) ?_)
  split
  next heq =>
    exact .of_fst_eq heq (h.stage allParts)
  next heq =>
    exact .of_fst_eq heq (h.stage allParts)

theorem Kept.tblRead {p : List Byte} : d0.Kept Part.all (d.tblRead p).1 :=
  h.checked (fun _ h => h)

theorem Kept.cmRead {p : List Byte} : d0.Kept Part.all (d.cmRead p).1 :=
  h.checked (fun _ h => h)

theorem Kept.cmWrite {p : List Byte} : d0.Kept Part.all (d.cmWrite p).1 :=
  h.checked (fun _ h => h.each_of (fun _ _ h => h.modCommit allParts))

theorem Kept.setSession {x : Option (Nat × Nat × Nat)} : d0.Kept Part.all (d.setSession x) :=
  h.set_thody (Part.mem_all _)

theorem Kept.paneDivSet {e : Endpoint} {n : Nat} {p : List Byte} : d0.Kept Part.all (d.paneDivSet e n p).1 := by
  unfold Dev.paneDivSet
  refine h.checked (fun _ h => ?_)
  split
  next heq =>
    exact .of_fst_eq heq (h.eachRegion (fun _ _ h => h.divWrite allParts))
  next heq =>
    exact .of_fst_eq heq (h.eachRegion (fun _ _ h => h.divWrite allParts))

theorem Kept.paneOpenAll {e : Endpoint} {n : Nat} {p : List Byte} : d0.Kept Part.all (d.paneOpenAll e n p).1 := by
  unfold Dev.paneOpenAll
  refine h.checked (fun _ h => ?_)
  split
  next heq =>
    exact .of_fst_eq heq (h.eachRegion (fun _ _ h => h.paneOpen allParts))
  next heq =>
    exact .setSession (.of_fst_eq heq (h.eachRegion (fun _ _ h => h.paneOpen allParts)))

theorem Kept.paneWriteAll {e : Endpoint} {n : Nat} {p : List Byte} : d0.Kept Part.all (d.paneWriteAll e n p).1 := by
  unfold Dev.paneWriteAll
  refine h.checked (fun _ h => ?_)
  dsimp only
  split
  next heq =>
    exact .of_fst_eq heq (h.eachRegion (fun _ _ h => h.paneWrite allParts))
  next heq =>
    exact .of_fst_eq heq (h.eachRegion (fun _ _ h => h.paneWrite allParts))

theorem Kept.paneCloseAll {e : Endpoint} {n : Nat} {p : List Byte} : d0.Kept Part.all (d.paneCloseAll e n p).1 := by
  unfold Dev.paneCloseAll
  refine h.checked (fun _ h => ?_)
  split
  next heq =>
    exact .of_fst_eq heq (h.eachRegion (fun _ _ h => h.paneClose allParts))
  next heq =>
    exact .setSession (.of_fst_eq heq (h.eachRegion (fun _ _ h => h.paneClose allParts)))

/-- Shown of the pair (`KeptFst`), since the command's first component would be evaluated through its matches. -/
theorem Kept.paneSwapAt {p : List Byte} : d0.Kept Part.all (d.paneSwapAt p).1 := by
  change d0.KeptFst _
  unfold Dev.paneSwapAt
  refine KeptFst.checked h (fun _ h => ?_)
  extract_lets
  split <;> next heq => exact .of_fst_eq heq (((h.setPair allParts).setReg allParts).swapRequest allParts)

theorem Kept.mpReadWord {a i : Nat} : d0.Kept Part.all (d.mpReadWord a i).1 := by
  unfold Dev.mpReadWord
  dsimp only
  split
  · exact h
  · exact .ite_fst h h.serveRead

theorem Kept.mpReadWords {a i n : Nat} : d0.Kept Part.all (d.mpReadWords a i n).1 := by
  induction n generalizing d i with
  | zero => exact h
  | succ n ih =>
    unfold Dev.mpReadWords
    split
    next heq =>
      have h := ih (i := i + 1) (.of_fst_eq heq h.mpReadWord)
      split
      next heq => exact .of_fst_eq heq h
      next heq => exact .of_fst_eq heq h
    next heq => exact .of_fst_eq heq h.mpReadWord

theorem Kept.regRead {p : List Byte} : d0.Kept Part.all (d.regRead p).1 := by
  unfold Dev.regRead
  refine h.checked (fun _ h => ?_)
  split
  next heq =>
    exact .of_fst_eq heq h.mpReadWords
  next heq =>
    exact .of_fst_eq heq h.mpReadWords

theorem Kept.mpWriteWord {q : Region} {o : Nat} {b : List Byte} : d0.Kept Part.all (d.mpWriteWord q o b).1 := by
  unfold Dev.mpWriteWord
  refine .ite_fst ?_ ?_
  · split
    · exact h
    · exact h.writeReg
  · dsimp only
    split
    · split
      · exact h.paneWrite allParts
      · exact h
    · exact h.serveWrite

theorem Kept.mpWriteWords {q : Region} {o n : Nat} {b : List Byte} : d0.Kept Part.all (d.mpWriteWords q o b n).1 := by
  induction n generalizing d o b with
  | zero => exact h
  | succ n ih =>
    unfold Dev.mpWriteWords
    split
    next heq => exact ih (.of_fst_eq heq h.mpWriteWord)
    next heq => exact .of_fst_eq heq h.mpWriteWord

theorem Kept.regWriteAll {p : List Byte} : d0.Kept Part.all (d.regWriteAll p).1 := by
  unfold Dev.regWriteAll
  refine h.checked (fun _ h => h.foldl_fst_of (fun _ _ h => ?_))
  split
  · split
    next heq2 =>
      exact .of_fst_eq heq2 h.mpWriteWords
    next heq2 =>
      exact .of_fst_eq heq2 h.mpWriteWords
  · exact h

theorem Kept.bpmDescRead {p : List Byte} : d0.Kept Part.all (d.bpmDescRead p).1 :=
  h.checked (fun _ h => h)

theorem Kept.bpmStat {p : List Byte} : d0.Kept Part.all (d.bpmStat p).1 :=
  h.checked (fun _ h => h)

theorem Kept.regionFence {p : List Byte} : d0.Kept Part.all (d.regionFence p).1 := by
  unfold Dev.regionFence
  refine h.checked (fun _ h => ?_)
  split
  next heq =>
    exact .of_fst_eq heq (h.fenceRequest allParts)
  next heq =>
    exact .of_fst_eq heq (h.fenceRequest allParts)

theorem Kept.regionRejoin {p : List Byte} : d0.Kept Part.all (d.regionRejoin p).1 := by
  unfold Dev.regionRejoin
  refine h.checked (fun _ h => ?_)
  split
  next heq =>
    exact .of_fst_eq heq (h.rejoinStart allParts)
  next heq =>
    exact .of_fst_eq heq (h.rejoinStart allParts)

theorem Kept.journalEntry {r : Region} {n : Nat} : d0.Kept Part.all (d.journalEntry r n).1 := by
  unfold Dev.journalEntry
  split
  · exact h
  · exact .ite_fst h (.ite_fst (h.setOn allParts) h)

theorem Kept.journalRead {p : List Byte} : d0.Kept Part.all (d.journalRead p).1 :=
  h.checked (fun _ h => h.foldl_fst_of (fun _ _ h => h.journalEntry))

theorem Kept.hbmRetrain {p : List Byte} : d0.Kept Part.all (d.hbmRetrain p).1 :=
  h.checked (fun _ h => h.retrain allParts)

theorem Kept.hbmRateSet {p : List Byte} : d0.Kept Part.all (d.hbmRateSet p).1 :=
  h.checked (fun _ h => h.each_of (fun _ _ h => h.rateWrite allParts))

theorem Kept.guestDescRead {p : List Byte} : d0.Kept Part.all (d.guestDescRead p).1 :=
  h.checked (fun _ h => h)

theorem Kept.guestRoleSet {p : List Byte} : d0.Kept Part.all (d.guestRoleSet p).1 :=
  h.checked (fun _ h => ((h.setFld allParts).setFld allParts).modA allParts)

/-- Shown of the pair (`KeptFst`), since the command's first component would be evaluated through its matches. -/
theorem Kept.guestAdmit {p : List Byte} : d0.Kept Part.all (d.guestAdmit p).1 := by
  change d0.KeptFst _
  unfold Dev.guestAdmit
  refine KeptFst.checked h (fun _ h => ?_)
  split <;> next heq =>
    refine .mk (.of_fst_eq heq (KeptFst.eachRegion h (fun _ _ h => ?_)))
    split
    next heq => exact .mk (.each_of (.of_fst_eq heq h.writeReg) (fun _ _ h => h.admitWrite allParts))

theorem Kept.fwStage {p : List Byte} : d0.Kept Part.all (d.fwStage p).1 :=
  h.checked (fun _ h => h.setBytes allParts)

theorem Kept.fwActivate {p : List Byte} : d0.Kept Part.all (d.fwActivate p).1 :=
  h.checked (fun _ h => (h.mailOffline allParts).mailOffline allParts)

theorem Kept.mailBack {f : Dev → Endpoint → Dev} (hf : ∀ e y, d0.Kept Part.all e → d0.Kept Part.all (f e y)) :
    d0.Kept Part.all (d.mailBack f) :=
  h.each_of fun _ _ h => hf _ _ h

theorem Kept.activateDone {num len : Nat} : d0.Kept Part.all (d.activateDone num len) :=
  .ite ((h.mailBack (fun _ _ h => h.mailOnline allParts)).endJob allParts) <|
  have h := h.each_of (fun _ _ h => h.modRegion.announce allParts)
  ((h.set_thody (Part.mem_all _)).mailBack (fun _ _ h => h.mailStart allParts)).endJob allParts

theorem Kept.lcAdvance {p : List Byte} : d0.Kept Part.all (d.lcAdvance p).1 :=
  h.checked (fun _ h => ((h.lcRecord allParts).wipeAll allParts).set_chip (Part.mem_all _))

/-- Shown of the pair (`KeptFst`), with the operation opened as a constant. -/
theorem Kept.monSnapshotAt {p : List Byte} : d0.Kept Part.all (d.monSnapshotAt p).1 := by
  change d0.KeptFst _
  rw [show @Dev.monSnapshotAt = _ by delta Dev.monSnapshotAt; exact rfl]
  extract_lets
  split <;> next heq => exact .of_fst_eq heq ((h.setPair allParts).snapArm allParts)

theorem Kept.settleJob {j : Job} : d0.Kept Part.all (d.settleJob j) := by
  unfold Dev.settleJob
  split
  · exact .ite (h.endJob allParts) h
  · exact .ite h.activateDone h
  · exact h

theorem Kept.forgetJobs : d0.Kept Part.all d.forgetJobs := h.set_thody (Part.mem_all _)

theorem Kept.jobDone {num : Nat} : d0.KeptR (d.jobDone num) := by
  unfold Dev.jobDone
  split
  · exact .refused
  · dsimp only
    split
    · exact .ite (.next (h.settleJob.jobPost allParts).forgetJobs) .refused
    · exact .refused

end

end Sys2Proof.Machine.Dev

namespace Sys2Proof.Machine
open Dev

section
variable {s : State}

/-! ### The commands of Machine/Delivery.lean -/

theorem State.Keeps.deliver {src dst : Nat} {m : Msg} {f : Dev → Res}
    (hf : ∀ e, s.dev.Kept Part.all e → s.dev.KeptR (f e)) :
    s.Keeps (State.deliver s src dst m f) :=
  .doing fun _ h =>
    .ite (hf _ (h.receive allParts)) (.ite (.next ((h.receive allParts).dropOnWay allParts)) .refused)

theorem State.Keeps.deliverAll {src dst : Nat} {m : Msg} {f : Dev → Dev}
    (hf : ∀ e, s.dev.Kept Part.all e → s.dev.Kept Part.all (f e)) :
    s.Keeps (State.deliverAll s src dst m f) :=
  .deliver (fun _ h => .next (hf _ h))

/-! ### The commands of Machine/Commit.lean -/

@[simp] theorem execMutRecord_keeps {r src : Region} {tick : Nat} {m : Mut} :
    s.Keeps (execMutRecord r src tick m s) := by
  unfold execMutRecord
  refine .deliverAll (fun _ h => ?_)
  dsimp only
  split
  · exact .ite ((h.modCommit allParts).applyCommit allParts) (h.modCommit allParts)
  · exact h.modCommit allParts

@[simp] theorem execSeal_keeps {src : Region} {tick count : Nat} {code : Word} :
    s.Keeps (execSeal src tick count code s) :=
  .deliverAll fun _ h =>
    .ite h ((((h.modA allParts).clr allParts).when_of (fun _ h => h.replay allParts)).broadcastIfWhole allParts)

@[simp] theorem execSealDeadline_keeps : s.Keeps (execSealDeadline s) :=
  .run fun _ h =>
    .ite h <|
    have h :=
      h.each_of fun _ _ h =>
        have h := ((h.modA allParts).setOn allParts).cevent allParts
        .ite
          (have h := ((h.setFld allParts).err allParts).cevent allParts
           .ite (h.modA allParts) (h.dueFence allParts))
          h
    h.broadcast allParts

@[simp] theorem execCommit_keeps {r : Region} {c : Commit} {bad : List (Nat × Nat)} {via : Option (Fin 6)}
    :
    s.Keeps (execCommit r c bad via s) :=
  .deliverAll fun _ h =>
    have h := h.modCommit allParts
    .ite h <|
    have h := (h.modCommit allParts).when_of (fun _ h => h.flood allParts)
    .ite h <|
    have h := h.each_of (fun _ _ h => (h.markBad allParts).requestRepair allParts)
    have h := Kept.ite (h.clr allParts) ((((h.setFld allParts).err allParts).outcomeAll allParts).modCommit allParts)
    .ite ((h.when_of (fun _ h => (h.outcomeAll allParts).modCommit allParts)).dueFence allParts) <|
    .ite (h.applyCommit allParts) (h.modCommit allParts)

@[simp] theorem execApplyDeadline_keeps {r : Region} : s.Keeps (execApplyDeadline r s) := by
  unfold execApplyDeadline
  refine .run (fun _ h => .ite h ?_)
  dsimp only
  split
  · exact .ite (h.applyCommit allParts) (((h.err allParts).dueFence allParts).modCommit allParts)
  · exact .ite h (((h.err allParts).outcomeAll allParts).modCommit allParts)

@[simp] theorem execRepairReq_keeps {r src : Region} {table line time : Nat} :
    s.Keeps (execRepairReq r src table line time s) :=
  .deliverAll (fun _ h => .ite h (.ite (h.stageRepair allParts) (h.modCommit allParts)))

@[simp] theorem execRepairStalled_keeps {r : Region} {table line : Nat} :
    s.Keeps (execRepairStalled r table line s) := by
  unfold execRepairStalled
  refine .run (fun _ h => ?_)
  split
  · exact .ite (((h.err allParts).journal allParts).requestRepair allParts) h
  · exact h

@[simp] theorem execRecon_keeps {r src : Region} {tick : Nat} {m : Mut} :
    s.Keeps (execRecon r src tick m s) :=
  .deliverAll (fun _ h => (h.modCommit allParts).setFld allParts)

@[simp] theorem execHitNotice_keeps {r src : Region} {table slot quantum : Nat} :
    s.Keeps (execHitNotice r src table slot quantum s) :=
  .deliverAll (fun _ h => (h.modTables allParts).hitWins allParts)

/-! ### The commands of Machine/Panes.lean -/

@[simp] theorem execPaneCtlSwap_keeps : s.Keeps (execPaneCtlSwap s) :=
  .run (fun _ h => h.swapRequest allParts)

@[simp] theorem execPaneCtlForceFree_keeps : s.Keeps (execPaneCtlForceFree s) :=
  .run (fun _ h => h.forceFree allParts)

@[simp] theorem execPaneWrOpen_keeps {r : Region} {pane : Fin 2} : s.Keeps (execPaneWrOpen r pane s) :=
  .run fun _ h =>
    have h := Kept.ite (h.setFld allParts) h
    h.paneOpen allParts

@[simp] theorem execPaneWrClose_keeps {r : Region} : s.Keeps (execPaneWrClose r s) :=
  .run (fun _ h => h.paneClose allParts)

@[simp] theorem execPaneWindowWrite_keeps {r : Region} {pane : Fin 2} {store : Bool} {off : Nat} {data : List Byte}
    :
    s.Keeps (execPaneWindowWrite r pane store off data s) :=
  .run (fun _ h => h.paneWrite allParts)

@[simp] theorem execPaneCodeDone_keeps {r : Region} {pane : Fin 2} :
    s.Keeps (execPaneCodeDone r pane s) :=
  .run (fun _ h => .ite (((h.setReg allParts).modFront allParts).showSession allParts) h)

@[simp] theorem execClsDivWrite_keeps {r : Region} {pane : Fin 2} {value : Word} :
    s.Keeps (execClsDivWrite r pane value s) :=
  .run (fun _ h => h.divWrite allParts)

/-! ### The commands of Machine/Front.lean -/

@[simp] theorem execFrameReceive_keeps {r : Region} {p : Port} {frame : List Byte} {fcsOk fecBad : Bool}
    {corrected time ns sec : Nat} :
    s.Keeps (execFrameReceive r p frame fcsOk fecBad corrected time ns sec s) :=
  .run fun _ h =>
    .ite h <|
    have h := h.addSat allParts
    have h := Kept.ite ((h.addSat allParts).raise allParts) h
    .ite (h.addSat allParts) (.ite (h.addSat allParts) (.ite h (.ite (h.addSat allParts) (h.admitFrame allParts))))

@[simp] theorem execFrontEndPass_keeps {n : Nat} : s.Keeps (execFrontEndPass n s) := by
  unfold execFrontEndPass
  refine .doing (fun _ h => ?_)
  split
  · exact .refused
  · refine .ite .refused ?_
    dsimp only
    split
    · exact .next ((h.modFront allParts).runPass allParts)
    · exact .ite (.next (h.shareRefusal allParts)) <|
        .next ((((h.modFront allParts).modDsp allParts).pressure allParts).runPass allParts)
    · exact .refused

@[simp] theorem execFirstPassDeadline_keeps {n : Nat} : s.Keeps (execFirstPassDeadline n s) := by
  unfold execFirstPassDeadline
  refine .run (fun _ h => ?_)
  split
  · exact .ite (h.dropPacket allParts) h
  · exact h

@[simp] theorem execRecircPassDeadline_keeps {n : Nat} : s.Keeps (execRecircPassDeadline n s) := by
  unfold execRecircPassDeadline
  refine .run (fun _ h => ?_)
  split
  · exact .ite (h.shareRefusal allParts) h
  · exact h

@[simp] theorem execLookupComplete_keeps {r : Region} {who : LookupFor} {bad : List Nat} :
    s.Keeps (execLookupComplete r who bad s) := by
  unfold execLookupComplete
  refine .doing (fun _ h => ?_)
  split
  · split
    · split
      · exact .next ((h.searchErrors allParts).primary allParts)
      · exact .refused
    · exact .refused
  · dsimp only
    split
    · exact .next ((h.searchErrors allParts).programLookup allParts)
    · exact .refused

@[simp] theorem execDispatchPlacement_keeps {r : Region} {wait : Nat} :
    s.Keeps (execDispatchPlacement r wait s) := by
  unfold execDispatchPlacement
  refine .run (fun _ h => ?_)
  split
  · exact h.place allParts
  · exact h

@[simp] theorem execPlacementDeadline_keeps {r : Region} {waits : List Nat} :
    s.Keeps (execPlacementDeadline r waits s) :=
  .run (fun _ h => h.each_of (fun _ _ h => h.unplace allParts))

@[simp] theorem execWindowWrite_keeps {n : Nat} : s.Keeps (execWindowWrite n s) := by
  unfold execWindowWrite
  refine .doing (fun _ h => ?_)
  split
  · split
    · split
      · exact .ite .refused <|
          .next <|
          (((h.setBytes allParts).each_of (fun _ _ h => h.setPoison allParts)).modCtx allParts).modCtx allParts
      · exact .refused
    · exact .refused
  · exact .refused

@[simp] theorem execReleaseRec_keeps {r src : Region} {x : ReleaseRec} :
    s.Keeps (execReleaseRec r src x s) :=
  .deliverAll fun _ h =>
    .ite (h.enqueue allParts) <|
    .ite ((h.err allParts).refuse allParts) <|
    have h := h.modEgress allParts
    .ite h (h.setFld allParts)

@[simp] theorem execReleaseMark_keeps {r src : Region} {shutter : Nat} :
    s.Keeps (execReleaseMark r src shutter s) :=
  .deliverAll fun _ h =>
    have h := h.modEgress allParts
    .ite (h.closeList allParts) h

@[simp] theorem execReleaseDeadline_keeps {r : Region} : s.Keeps (execReleaseDeadline r s) :=
  .run (fun _ h => .ite h (h.closeList allParts))

@[simp] theorem execRewriteComplete_keeps {r : Region} {stamp : Stamp} {copy : Nat} {poisoned : Bool} :
    s.Keeps (execRewriteComplete r stamp copy poisoned s) := by
  unfold execRewriteComplete
  refine .doing (fun _ h => ?_)
  split
  · exact .refused
  · split
    · exact .refused
    · refine .ite .refused ?_
      dsimp only
      split
      next heq3 =>
        exact
          have h :=
            Kept.recallRecord (.dropEntry (.dropCount (.of_fst_eq heq3 (h.makeHead allParts)) allParts) allParts) <|
            allParts
          .next ((h.modCopyout allParts).copyDone allParts)
      next heq3 =>
        exact
          have h := Kept.modCopyout (.modPkt (.of_fst_eq heq3 (h.makeHead allParts)) allParts) allParts
          .next ((h.entryReady allParts).settle allParts)

@[simp] theorem execEnqOutcome_keeps {r src : Region} {outcome : Nat} {stamp : Stamp} {copy requester : Nat}
    :
    s.Keeps (execEnqOutcome r src outcome stamp copy requester s) :=
  .deliverAll (fun _ h => h.noteOutcome allParts)

/-! ### The commands of Machine/Egress.lean -/

@[simp] theorem execSpillCopyDone_keeps {r : Region} {queue : Nat} {stamp : Stamp} {copy : Nat} :
    s.Keeps (execSpillCopyDone r queue stamp copy s) := by
  unfold execSpillCopyDone
  refine .doing (fun _ h => ?_)
  dsimp only
  split
  · exact .refused
  · split
    next heq2 =>
      exact
        have h :=
          Kept.handover (.writeChain (.of_fst_eq heq2 ((h.modEgress allParts).alloc allParts)) allParts) allParts
        .next ((h.giveBack allParts).setQueue allParts)
    next heq2 =>
      exact .next (.setQueue (.err (.of_fst_eq heq2 ((h.modEgress allParts).alloc allParts)) allParts) allParts)
    next heq2 =>
      exact .next (.setQueue (.of_fst_eq heq2 ((h.modEgress allParts).alloc allParts)) allParts)

@[simp] theorem execScheduleDecision_keeps {r : Region} {p : Port} :
    s.Keeps (execScheduleDecision r p s) := by
  unfold execScheduleDecision
  refine .run (fun _ h => .ite (h.each_of (fun _ _ h => h.dropPoisoned allParts)) ?_)
  split
  · exact h.each_of (fun _ _ h => h.dropPoisoned allParts)
  next heq =>
    exact (Kept.nextQueue heq (h.each_of (fun _ _ h => h.dropPoisoned allParts)) allParts).startSending allParts

@[simp] theorem execTransmitComplete_keeps {r : Region} {p : Port} {ns sec : Nat} :
    s.Keeps (execTransmitComplete r p ns sec s) := by
  unfold execTransmitComplete
  refine .doing (fun _ h => ?_)
  split
  · exact .refused
  · exact .ite .refused <|
      have h := h.setSending allParts
      .ite (.next (h.dropQueued allParts)) <|
      .next ((((h.emit allParts).event allParts).capture allParts).giveBack allParts)

@[simp] theorem execBodyData_keeps {r src : Region} {status : Status} {tag descriptor : Nat} {data : List Byte}
    :
    s.Keeps (execBodyData r src status tag descriptor data s) := by
  unfold execBodyData
  refine .deliverAll (fun _ h => ?_)
  split
  next heq =>
    split
    · exact ((Kept.answered heq h allParts).setSending allParts).readBody allParts
    · exact Kept.answered heq h allParts
  · exact h.lateRsp allParts

@[simp] theorem execPfcFrame_keeps {r : Region} {p : Port} {quanta : List (Nat × Nat)} :
    s.Keeps (execPfcFrame r p quanta s) :=
  .run fun _ h =>
    h.each_of fun _ _ h =>
      .ite h <|
      .ite (.ite h (h.setPause allParts)) <|
      .ite ((h.setPause allParts).setPaused allParts) <|
      ((h.setPause allParts).setPaused allParts).when_of (fun _ h => h.event allParts)

@[simp] theorem execPfcPauseExpiry_keeps {r : Region} {p : Port} {cls : Nat} :
    s.Keeps (execPfcPauseExpiry r p cls s) :=
  .run (fun _ h => .ite ((h.setPause allParts).setPaused allParts) h)

@[simp] theorem execPfcPauseRepeat_keeps {r : Region} {p : Port} {cls : Nat} :
    s.Keeps (execPfcPauseRepeat r p cls s) :=
  .run (fun _ h => .ite (h.emit allParts) h)

@[simp] theorem execStormDeclare_keeps {r : Region} {p : Port} {cls : Nat} :
    s.Keeps (execStormDeclare r p cls s) :=
  .doing fun _ h =>
    .ite .refused <|
    have h := (h.setPause allParts).setPaused allParts
    .next (((h.setFld allParts).each_of (fun _ _ h => h.flushQueue allParts)).err allParts)

@[simp] theorem execStormEnd_keeps {r : Region} {p : Port} {cls : Nat} :
    s.Keeps (execStormEnd r p cls s) :=
  .doing (fun _ h => .ite .refused (.next ((h.setPause allParts).setFld allParts)))

@[simp] theorem execLinkDown_keeps {r : Region} {p : Port} : s.Keeps (execLinkDown r p s) :=
  .run (fun _ h => .ite ((((h.clr allParts).clr allParts).modEgress allParts).raise allParts) h)

@[simp] theorem execLinkUp_keeps {r : Region} {p : Port} : s.Keeps (execLinkUp r p s) :=
  .doing (fun _ h => .ite .refused (.ite (.next h) (.next (((h.setOn allParts).setFld allParts).raise allParts))))

@[simp] theorem execAlloc_keeps {r : Region} {requester pool cls : Nat} {sizes : List Nat} :
    s.Keeps (execAlloc r requester pool cls sizes s) :=
  .doing (fun _ h => .ite .refused (.ite (.next h) (.next (h.alloc allParts))))

@[simp] theorem execFree_keeps {issuer handle : Nat} {found : Bool} :
    s.Keeps (execFree issuer handle found s) :=
  .run (fun _ h => (h.readDesc allParts).free' allParts)

@[simp] theorem execHandover_keeps {issuer handle dest : Nat} {found : Bool} :
    s.Keeps (execHandover issuer handle dest found s) :=
  .run (fun _ h => (h.readDesc allParts).handover allParts)

@[simp] theorem execAddref_keeps {issuer handle : Nat} {found : Bool} :
    s.Keeps (execAddref issuer handle found s) :=
  .run (fun _ h => (h.readDesc allParts).addref allParts)

@[simp] theorem execDeref_keeps {issuer handle : Nat} {found : Bool} :
    s.Keeps (execDeref issuer handle found s) :=
  .run (fun _ h => (h.readDesc allParts).deref allParts)

@[simp] theorem execReturnRef_keeps {issuer holder handle : Nat} {found : Bool} :
    s.Keeps (execReturnRef issuer holder handle found s) :=
  .run (fun _ h => (h.readDesc allParts).returnRef allParts)

@[simp] theorem execPoolOp_keeps {r src : Region} {kind handle issuer holder : Nat} {found : Bool} :
    s.Keeps (execPoolOp r src kind handle issuer holder found s) := by
  unfold execPoolOp
  refine .deliverAll (fun _ h => ?_)
  split
  · exact (h.readDesc allParts).free' allParts
  · exact (h.readDesc allParts).deref allParts
  · exact (h.readDesc allParts).returnRef allParts
  · exact h.protoErr allParts

@[simp] theorem execFreeCacheRefill_keeps {r : Region} {requester pool : Nat} {found : Option Nat} :
    s.Keeps (execFreeCacheRefill r requester pool found s) := by
  unfold execFreeCacheRefill
  refine .doing (fun _ h => .ite .refused (.ite (.next (.refill ?_ allParts)) (.next ?_)))
  · split
    · exact h.when_of (fun _ h => h.withdrawLine allParts)
    · exact h
  · split
    · exact h.when_of (fun _ h => h.withdrawLine allParts)
    · exact h

/-! ### The commands of Machine/Threads.lean -/

@[simp] theorem execPacketStart_keeps {u : CtxId} : s.Keeps (execPacketStart u s) := by
  unfold execPacketStart
  refine .doing (fun _ h => .ite .refused ?_)
  split
  · exact .refused
  · split
    · exact .refused
    · exact .next (h.startPacket allParts)

@[simp] theorem execAllWaiting_keeps {cell : CellId} : s.Keeps (execAllWaiting cell s) :=
  .doing (fun _ h => .ite (.next (h.setEvents allParts)) .refused)

@[simp] theorem execThreadReset_keeps {u : CtxId} : s.Keeps (execThreadReset u s) :=
  .doing (fun _ h => h.thrAction (fun _ => h.thrCtl allParts))

@[simp] theorem execThreadResume_keeps {u : CtxId} : s.Keeps (execThreadResume u s) :=
  .doing (fun _ h => h.thrAction (fun _ => h.thrCtl allParts))

@[simp] theorem execThreadHalt_keeps {u : CtxId} : s.Keeps (execThreadHalt u s) :=
  .doing (fun _ h => h.thrAction (fun _ => h.thrCtl allParts))

@[simp] theorem execDebugHalt_keeps {u : CtxId} : s.Keeps (execDebugHalt u s) :=
  .doing (fun _ h => .ite (.next (h.haltCtx allParts)) .refused)

@[simp] theorem execDebugResume_keeps {u : CtxId} : s.Keeps (execDebugResume u s) :=
  .doing (fun _ h => .ite (.next (h.resumeHalted allParts)) .refused)

@[simp] theorem execIcacheInvalidate_keeps {cell : CellId} : s.Keeps (execIcacheInvalidate cell s) :=
  .run (fun _ h => h.dropIcache allParts)

@[simp] theorem execSlotCtlApply_keeps {cell : CellId} : s.Keeps (execSlotCtlApply cell s) :=
  .run (fun _ h => h.slotApply allParts)

@[simp] theorem execGenUpdate_keeps {r src : Region} {holder : Nat} :
    s.Keeps (execGenUpdate r src holder s) :=
  .deliverAll (fun _ h => h.setMirror allParts)

/-! ### The commands of Machine/Channels.lean -/

@[simp] theorem execChMsg_keeps {r : Region} {channel holder : Nat} {words : List Word} :
    s.Keeps (execChMsg r channel holder words s) :=
  .deliverAll (fun _ h => .ite ((h.addSat allParts).send allParts) ((h.setMsgs allParts).wake allParts))

@[simp] theorem execChCreditReturn_keeps {r : Region} {b : Block} {channel : Nat} :
    s.Keeps (execChCreditReturn r b channel s) :=
  .deliverAll (fun _ h => (h.setSpent allParts).wakeSpace allParts)

@[simp] theorem execChFlush_keeps {r : Region} {b : Block} {regional : Bool} {channel : Nat} :
    s.Keeps (execChFlush r b regional channel s) :=
  .run (fun _ h => .ite (h.flushChannel allParts) h)

/-! ### The commands of Machine/BlockMem.lean -/

@[simp] theorem execSpScrub_keeps {r : Region} {b : Block} {bank line found : Nat} :
    s.Keeps (execSpScrub r b bank line found s) :=
  .doing fun _ h =>
    .ite .refused <|
    have h :=
      Kept.ite h <|
      .ite
        (have h := ((h.addSat allParts).setOn allParts).bevent allParts
         .ite (h.raise allParts) h)
        (h.poisonLine allParts)
    .next (.ite (h.clr allParts) h)

@[simp] theorem execBlkMemClean_keeps {r : Region} {b : Block} {value : Word} :
    s.Keeps (execBlkMemClean r b value s) :=
  .run (fun _ h => h.memClean allParts)

@[simp] theorem execSecWipe_keeps {r : Region} {b : Block} : s.Keeps (execSecWipe r b s) :=
  .run (fun _ h => h.wipe allParts)

@[simp] theorem execSecSizeWrite_keeps {r : Region} {b : Block} {value : Word} :
    s.Keeps (execSecSizeWrite r b value s) :=
  .run (fun _ h => h.secSize allParts)

@[simp] theorem execSecLock_keeps {r : Region} {b : Block} : s.Keeps (execSecLock r b s) :=
  .run (fun _ h => h.setOn allParts)

@[simp] theorem execSecWipeDone_keeps {r : Region} {b : Block} : s.Keeps (execSecWipeDone r b s) :=
  .doing fun _ h =>
    .ite .refused <|
    .next (((((h.setWipe allParts).clr allParts).addSat allParts).raise allParts).journalBlock allParts)

@[simp] theorem execRetentionRequest_keeps {r : Region} {value : Word} :
    s.Keeps (execRetentionRequest r value s) :=
  .run (fun _ h => h.retWrite allParts)

@[simp] theorem execRetentionEnter_keeps {r : Region} {b : Block} : s.Keeps (execRetentionEnter r b s) :=
  .doing (fun _ h => .ite .refused (.next (((h.enterRetention allParts).setBlockState allParts).raise allParts)))

@[simp] theorem execBlockWakeDone_keeps {r : Region} {b : Block} : s.Keeps (execBlockWakeDone r b s) :=
  .doing fun _ h =>
    .ite .refused <|
    have h := (h.setBlockState allParts).setOn allParts
    .next (((h.each_of (fun _ _ h => h.startCell allParts)).refreshBudget allParts).raise allParts)

@[simp] theorem execBlkIcInv_keeps {r : Region} {b : Block} {cells : Word} :
    s.Keeps (execBlkIcInv r b cells s) :=
  .run (fun _ h => h.icInvWrite allParts)

@[simp] theorem execCellRunWrite_keeps {r : Region} {b : Block} {value : Word} :
    s.Keeps (execCellRunWrite r b value s) :=
  .run (fun _ h => .ite (h.cellRunWrite allParts) h)

@[simp] theorem execBlockReset_keeps {r : Region} {blocks : Word} : s.Keeps (execBlockReset r blocks s) :=
  .run (fun _ h => h.blkRstWrite allParts)

/-! ### The commands of Machine/Hbm.lean -/

@[simp] theorem execHbmRequest_keeps {r : Region} {port : Nat} {write : Bool} {addr len : Nat} {data : List Byte}
    {hint first last waits : Bool} {found latency : Nat} :
    s.Keeps (execHbmRequest r port write addr len data hint first last waits found latency s) :=
  .doing fun _ h =>
    .ite .refused <|
    .ite .fault <|
    .ite (.next h) <|
    .ite (.next (h.modHbm allParts)) <|
    .next (((((h.serveEarlier allParts).followBurst allParts).findFor allParts).serveHbm allParts).maxFld allParts)

@[simp] theorem execHbmNormalAge_keeps {r : Region} : s.Keeps (execHbmNormalAge r s) := by
  unfold execHbmNormalAge
  refine .doing (fun _ h => ?_)
  split
  · exact .refused
  · exact .ite .refused (.next (((h.modHbm allParts).serveHbm allParts).maxFld allParts))

@[simp] theorem execHbmRowIdleClose_keeps {r : Region} {pc bank : Nat} :
    s.Keeps (execHbmRowIdleClose r pc bank s) :=
  .run (fun _ h => h.modHbm allParts)

@[simp] theorem execHbmRefreshDue_keeps {r : Region} {pc : Nat} : s.Keeps (execHbmRefreshDue r pc s) :=
  .run fun _ h =>
    have h := h.maxFld allParts
    .ite (h.enterRounds allParts) (h.modHbm allParts)

@[simp] theorem execHbmScrub_keeps {r : Region} {addr found : Nat} :
    s.Keeps (execHbmScrub r addr found s) :=
  .doing (fun _ h => .ite .fault (.ite .refused (.next (h.findColumn allParts))))

@[simp] theorem execHbmGather_keeps {r : Region} {start drift : Bool} :
    s.Keeps (execHbmGather r start drift s) :=
  .doing fun _ h =>
    .ite (.ite .refused (.next (h.setOn allParts))) <|
    .ite .refused <|
    have h := h.clr allParts
    .next (.ite (((h.err allParts).setOn allParts).failStack allParts) h)

@[simp] theorem execHbmTempSample_keeps {r : Region} {temp : Nat} {catastrophic : Bool} :
    s.Keeps (execHbmTempSample r temp catastrophic s) :=
  .run fun _ h =>
    have h := h.setFld allParts
    have h := Kept.ite (h.raise allParts) h
    .ite (h.failStack allParts) (.ite ((h.requestRate allParts).modHbm allParts) (.ite (h.coolDown allParts) h))

@[simp] theorem execHbmRateWrite_keeps {r : Region} {rate : Nat} : s.Keeps (execHbmRateWrite r rate s) :=
  .run (fun _ h => h.rateWrite allParts)

@[simp] theorem execHbmFreqChange_keeps {r : Region} : s.Keeps (execHbmFreqChange r s) :=
  .doing fun _ h =>
    .ite .refused (.next (((((h.setFld allParts).setFld allParts).clr allParts).clr allParts).modHbm allParts))

@[simp] theorem execHbmFreqDone_keeps {r : Region} : s.Keeps (execHbmFreqDone r s) :=
  .doing (fun _ h => .ite .refused (.next ((h.becomeReady allParts).raise allParts)))

@[simp] theorem execHbmTrainRetrain_keeps {r : Region} : s.Keeps (execHbmTrainRetrain r s) :=
  .run (fun _ h => h.retrain allParts)

@[simp] theorem execHbmRetrainDone_keeps {r : Region} {failed : Bool} :
    s.Keeps (execHbmRetrainDone r failed s) :=
  .doing fun _ h =>
    .ite .refused <|
    have h := ((h.clr allParts).setFld allParts).raise allParts
    .next (.ite ((h.err allParts).failStack allParts) (h.becomeReady allParts))

@[simp] theorem execHbmOrderWrite_keeps {r : Region} {order : Nat} :
    s.Keeps (execHbmOrderWrite r order s) :=
  .run (fun _ h => h.orderWrite allParts)

@[simp] theorem execHbmSelfRefreshExit_keeps {r : Region} : s.Keeps (execHbmSelfRefreshExit r s) :=
  .doing fun _ h =>
    .ite .refused <|
    have h := Kept.ite (((h.setFld allParts).clr allParts).clr allParts) h
    .next (h.becomeReady allParts)

@[simp] theorem execHbmCaParityError_keeps {r : Region} {pc : Nat} :
    s.Keeps (execHbmCaParityError r pc s) :=
  .run fun _ h =>
    have h := h.modHbm allParts
    .ite (h.failStack allParts) h

/-! ### The commands of Machine/Rings.lean -/

@[simp] theorem execQpTxDoorbell_keeps {e : Endpoint} {q : Fin 512} {pi : Fin 65536} :
    s.Keeps (execQpTxDoorbell e q pi s) :=
  .run (fun _ h => h.doorbell allParts)

@[simp] theorem execQpRxDoorbell_keeps {e : Endpoint} {q : Fin 512} {pi : Fin 65536} :
    s.Keeps (execQpRxDoorbell e q pi s) :=
  .run (fun _ h => h.doorbell allParts)

@[simp] theorem execTxDescriptorTake_keeps {e : Endpoint} : s.Keeps (execTxDescriptorTake e s) := by
  unfold execTxDescriptorTake
  refine .run (fun _ h => .ite h ?_)
  split
  · exact h.takeTx allParts
  · exact h

@[simp] theorem execTxDmaComplete_keeps {e : Endpoint} {q : Fin 512} {failed : Bool} {time : Nat} :
    s.Keeps (execTxDmaComplete e q failed time s) := by
  unfold execTxDmaComplete
  refine .doing (fun _ h => ?_)
  split
  · exact .refused
  · exact .next (h.endTx allParts)

@[simp] theorem execRxPacketDeliver_keeps {e : Endpoint} {q : Fin 512} :
    s.Keeps (execRxPacketDeliver e q s) := by
  unfold execRxPacketDeliver
  refine .doing (fun _ h => ?_)
  split
  · exact .refused
  · refine .ite .refused (.ite (.next ((h.setRxQueue allParts).dropRx allParts)) ?_)
    split
    · exact .refused
    · exact .next ((((h.setRxQueue allParts).rxWrite allParts).rxGiveBack allParts).signalPair allParts)

@[simp] theorem execRxHoldExpiry_keeps {e : Endpoint} {q : Fin 512} : s.Keeps (execRxHoldExpiry e q s) := by
  unfold execRxHoldExpiry
  refine .doing (fun _ h => ?_)
  dsimp only
  split
  · exact .refused
  · exact .ite .refused (.next (((h.setRxQueue allParts).dropRx allParts).raise allParts))

@[simp] theorem execUrDoorbell_keeps {e : Endpoint} {ring : Fin 16} {pi : Fin 65536} :
    s.Keeps (execUrDoorbell e ring pi s) :=
  .run (fun _ h => h.doorbell allParts)

@[simp] theorem execUpdateRingTake_keeps {e : Endpoint} {time : Nat} :
    s.Keeps (execUpdateRingTake e time s) := by
  unfold execUpdateRingTake
  refine .run (fun _ h => .ite h ?_)
  split
  · exact h.takeUpdate allParts
  · exact h

@[simp] theorem execMsixCoalesceExpiry_keeps {e : Endpoint} {q : Fin 512} :
    s.Keeps (execMsixCoalesceExpiry e q s) := by
  unfold execMsixCoalesceExpiry
  refine .doing (fun _ h => ?_)
  split
  · exact .refused
  · exact .ite .refused (.next ((h.modEp allParts).msix allParts))

@[simp] theorem execEndpointReset_keeps {e : Endpoint} {linkDown : Bool} :
    s.Keeps (execEndpointReset e linkDown s) :=
  .run fun _ h =>
    have h := (h.resetEndpoint allParts).raise allParts
    .ite (((h.setFld allParts).setFld allParts).raise allParts) h

@[simp] theorem execEndpointLinkUp_keeps {e : Endpoint} {gen width : Nat} :
    s.Keeps (execEndpointLinkUp e gen width s) :=
  .doing (fun _ h => .ite .refused (.next (((h.setFld allParts).setFld allParts).raise allParts)))

@[simp] theorem execPtsInfoRead_keeps {r : Region} {p : Port} : s.Keeps (execPtsInfoRead r p s) :=
  .run (fun _ h => h.ptsRead allParts)

/-! ### The commands of Machine/Links.lean -/

@[simp] theorem execDataFlit_keeps {r : Region} {m : Fin 6} {header : Nat} {errors heads : List Nat}
    {waiting : List (List (List Nat))} :
    s.Keeps (execDataFlit r m header errors heads waiting s) := by
  unfold execDataFlit
  refine .doing (fun d h => ?_)
  split
  · exact .refused
  next p _ =>
    extract_lets sender
    have hs : ∀ e, sender = some e → s.dev.Kept Part.all e := fun e he => by
      unfold sender at he
      split_ifs at he
      · exact Kept.sentFlit he h allParts
      · cases he
        exact h
    clear_value sender
    split
    · exact .refused
    next e =>
      have h := hs e rfl
      exact .ite .refused <|
        have h := Kept.ite (h.addSat allParts) h
        .ite (.next (h.modLink allParts)) (.next ((h.tookFlit allParts).takeAck allParts))

@[simp] theorem execNak_keeps {r : Region} {m : Fin 6} {header time : Nat} :
    s.Keeps (execNak r m header time s) :=
  .doing fun _ h =>
    .ite .refused <|
    have h := (h.takeAck allParts).modLink allParts
    have h := Kept.ite h ((h.addSat allParts).event allParts)
    .next (.ite (h.failModule allParts) h)

@[simp] theorem execInit_keeps {r : Region} {m : Fin 6} {header : Nat} {credits : List Nat} :
    s.Keeps (execInit r m header credits s) :=
  .doing (fun _ h => .ite .refused (.next (h.modLink allParts)))

@[simp] theorem execIdle_keeps {r : Region} {m : Fin 6} {header : Nat} :
    s.Keeps (execIdle r m header s) :=
  .doing (fun _ h => .ite .refused (.next (h.takeAck allParts)))

@[simp] theorem execModuleFailed_keeps {r : Region} {m : Fin 6} {time : Nat} :
    s.Keeps (execModuleFailed r m time s) :=
  .doing (fun _ h => .ite .refused (.next (h.failModule allParts)))

@[simp] theorem execLaneRepair_keeps {r : Region} {m : Fin 6} {time : Nat} :
    s.Keeps (execLaneRepair r m time s) :=
  .doing fun _ h =>
    .ite .refused <|
    .ite (.next (h.failModule allParts)) <|
    have h := (h.setFld allParts).setLinkState allParts
    .next (.ite (h.moveTraffic allParts) h)

@[simp] theorem execLinkTrainingDone_keeps {r : Region} {m : Fin 6} {spares time : Nat} :
    s.Keeps (execLinkTrainingDone r m spares time s) := by
  unfold execLinkTrainingDone
  refine .doing (fun _ h => ?_)
  split
  · exact .refused
  · exact .ite .refused <|
      .ite (.next (h.failModule allParts)) <|
      have h := ((h.setLinkState allParts).setFld allParts).restartLink allParts
      have h := Kept.ite ((h.raise allParts).journal allParts) h
      have h := Kept.setParent (.ite h (h.send allParts)) allParts
      .next (.ite h (h.noteRoute allParts))

@[simp] theorem execLinkState_keeps {r : Region} {via : Option (Fin 6)} {edges tick : Nat} :
    s.Keeps (execLinkState r via edges tick s) :=
  .run (fun _ h => (h.receive allParts).noteRoute allParts)

@[simp] theorem execEchoReq_keeps {r : Region} {m : Fin 6} {time turn : Nat} :
    s.Keeps (execEchoReq r m time turn s) := by
  unfold execEchoReq
  refine .doing (fun _ h => ?_)
  split
  · exact .refused
  · exact .next ((h.receive allParts).send allParts)

@[simp] theorem execEchoRsp_keeps {r : Region} {m : Fin 6} {time turn now : Nat} :
    s.Keeps (execEchoRsp r m time turn now s) := by
  unfold execEchoRsp
  refine .doing (fun _ h => ?_)
  split
  · exact .refused
  · exact .next ((h.receive allParts).setFld allParts)

@[simp] theorem execLinkReqUp_keeps {r : Region} {m : Fin 6} {up : Bool} :
    s.Keeps (execLinkReqUp r m up s) :=
  .run (fun _ h => h.reqUpWrite allParts)

@[simp] theorem execLinkAdmit_keeps {r : Region} {m : Fin 6} {allow : Bool} :
    s.Keeps (execLinkAdmit r m allow s) :=
  .run (fun _ h => h.admitWrite allParts)

/-! ### The commands of Machine/Intr.lean -/

@[simp] theorem execIrqEnSet_keeps {r : Region} {w : Fin 32} {value : Word} :
    s.Keeps (execIrqEnSet r w value s) :=
  .run (fun _ h => h.irqEnable allParts)

@[simp] theorem execIrqEnClr_keeps {r : Region} {w : Fin 32} {value : Word} :
    s.Keeps (execIrqEnClr r w value s) :=
  .run (fun _ h => h.irqDisable allParts)

@[simp] theorem execIrqPendSet_keeps {r : Region} {w : Fin 32} {value : Word} :
    s.Keeps (execIrqPendSet r w value s) :=
  .run (fun _ h => h.irqPend allParts)

@[simp] theorem execIrqPendClr_keeps {r : Region} {w : Fin 32} {value : Word} :
    s.Keeps (execIrqPendClr r w value s) :=
  .run (fun _ h => h.irqUnpend allParts)

@[simp] theorem execIrqClaimMp_keeps {r : Region} : s.Keeps (execIrqClaimMp r s) :=
  .run (fun _ h => h.claim allParts)

@[simp] theorem execIrqRetarget_keeps {r : Region} {n : Fin 1024} {value : Word} :
    s.Keeps (execIrqRetarget r n value s) :=
  .run (fun _ h => h.retarget allParts)

@[simp] theorem execIrq_keeps {r src : Region} {source count target : Nat} :
    s.Keeps (execIrq r src source count target s) := by
  unfold execIrq
  refine .deliverAll (fun _ h => .ite (h.protoErr allParts) (.ite (h.inboxTake allParts) ?_))
  split
  · exact .ite (h.hostVector allParts) (h.protoErr allParts)
  · exact h.protoErr allParts

@[simp] theorem execMonSnapArm_keeps : s.Keeps (execMonSnapArm s) :=
  .run (fun _ h => h.snapArm allParts)

@[simp] theorem execMonSnapCancel_keeps : s.Keeps (execMonSnapCancel s) :=
  .run (fun _ h => h.snapCancel allParts)

@[simp] theorem execSnapshotReport_keeps {src : Region} {tick : Nat} :
    s.Keeps (execSnapshotReport src tick s) :=
  .deliverAll fun _ h =>
    .ite ((((h.modA allParts).setFld allParts).setPair allParts).when_of (fun _ h => h.raise allParts)) h

@[simp] theorem execTblBadlineRead_keeps {r : Region} : s.Keeps (execTblBadlineRead r s) :=
  .run (fun _ h => h.badlineRead allParts)

@[simp] theorem execDspFlagsSet_keeps {r : Region} {value : Word} : s.Keeps (execDspFlagsSet r value s) :=
  .run (fun _ h => h.setFlags allParts)

@[simp] theorem execDspFlagsClr_keeps {r : Region} {value : Word} : s.Keeps (execDspFlagsClr r value s) :=
  .run (fun _ h => h.setFlags allParts)

@[simp] theorem execErrReport_keeps {r src : Region} {code : Nat} {detail : List Byte} :
    s.Keeps (execErrReport r src code detail s) :=
  .deliverAll fun _ h =>
    .ite (h.protoErr allParts) ((((h.setFld allParts).setFld allParts).err allParts).journal allParts)

/-! ### The commands of Machine/Resets.lean -/

@[simp] theorem execPowerOnReset_keeps {rail : Option (Fin 10)} : s.Keeps (execPowerOnReset rail s) :=
  .run (fun _ h => (h.partReset allParts).each_of (fun _ _ h => h.setFld allParts))

@[simp] theorem execVinBrownout_keeps : s.Keeps (execVinBrownout s) :=
  .run (fun _ h => h.partReset allParts)

@[simp] theorem execSysRstN_keeps : s.Keeps (execSysRstN s) :=
  .run (fun _ h => .ite h (h.partReset allParts))

@[simp] theorem execSysRstNRelease_keeps : s.Keeps (execSysRstNRelease s) :=
  .doing (fun _ h => .ite (.next (h.set_chip (Part.mem_all _))) .refused)

@[simp] theorem execRstCtlCold_keeps {key : Fin 256} : s.Keeps (execRstCtlCold key s) :=
  .run (fun _ h => h.rstCtl allParts)

@[simp] theorem execRstCtlWarm_keeps {key : Fin 256} : s.Keeps (execRstCtlWarm key s) :=
  .run (fun _ h => h.rstCtl allParts)

/-! ### The commands of Machine/Modes.lean -/

@[simp] theorem execModeReq_keeps {value : Word} : s.Keeps (execModeReq value s) :=
  .run (fun _ h => h.modeReqWrite allParts)

@[simp] theorem execCompatWrite_keeps {value : Word} : s.Keeps (execCompatWrite value s) :=
  .run (fun _ h => h.compatWrite allParts)

@[simp] theorem execPeriodWrite_keeps {value : Word} : s.Keeps (execPeriodWrite value s) :=
  .run (fun _ h => h.shutterCtlWrite allParts)

@[simp] theorem execPtpCtlLoad_keeps : s.Keeps (execPtpCtlLoad s) :=
  .run (fun _ h => h.ptpCtlLoad allParts)

@[simp] theorem execPtpAdjWrite_keeps {value : Word} : s.Keeps (execPtpAdjWrite value s) :=
  .run (fun _ h => h.ptpAdjust allParts)

@[simp] theorem execPtpFreqWrite_keeps {value : Word} : s.Keeps (execPtpFreqWrite value s) :=
  .run (fun _ h => h.ptpFreq allParts)

@[simp] theorem execPpsEdge_keeps {gap : Nat} {phase : Int} : s.Keeps (execPpsEdge gap phase s) :=
  .run fun _ h =>
    .ite h <|
    have h := (h.modA allParts).cevent allParts
    .ite h <|
    have h := h.modA allParts
    .ite ((h.setPair allParts).setPtpBase allParts) (.ite ((h.setOn allParts).clr allParts) (h.setOn allParts))

@[simp] theorem execPpsLockLost_keeps : s.Keeps (execPpsLockLost s) :=
  .run fun _ h =>
    have h := h.modA allParts
    .ite ((((h.clr allParts).clr allParts).setOn allParts).raise allParts) h

@[simp] theorem execParkWrite_keeps {r : Region} {value : Word} : s.Keeps (execParkWrite r value s) :=
  .run (fun _ h => h.parkWrite allParts)

@[simp] theorem execRegionParkDone_keeps {r : Region} : s.Keeps (execRegionParkDone r s) :=
  .doing fun _ h =>
    .ite
      (have h := h.each_of (fun _ _ h => (h.enterRetention allParts).setBlockState allParts)
       .next ((h.setFld allParts).raise allParts))
      .refused

@[simp] theorem execRegionWakeDone_keeps {r : Region} : s.Keeps (execRegionWakeDone r s) :=
  .doing (fun _ h => .ite (.next ((h.clr allParts).raise allParts)) .refused)

@[simp] theorem execCellClkWrite_keeps {r : Region} {value : Word} :
    s.Keeps (execCellClkWrite r value s) :=
  .run (fun _ h => h.cellClkWrite allParts)

@[simp] theorem execPortEnableWrite_keeps {r : Region} {p : Port} {enable : Bool} :
    s.Keeps (execPortEnableWrite r p enable s) :=
  .run (fun _ h => h.portEnable allParts)

/-! ### The commands of Machine/Mail.lean -/

@[simp] theorem execMgtMsg_keeps {r src : Region} {info : Nat} {payload : List Byte} :
    s.Keeps (execMgtMsg r src info payload s) :=
  .deliverAll (fun _ h => .ite (h.protoErr allParts) (.ite h (h.tookRelay allParts)))

@[simp] theorem execMbDoorbell_keeps {e : Endpoint} {pair : Fin 32} {value : Word} :
    s.Keeps (execMbDoorbell e pair value s) :=
  .run (fun _ h => h.mbDoorbell allParts)

/-! ### The commands of Machine/Faults.lean -/

@[simp] theorem execFenceCtlFence_keeps {region : Region} : s.Keeps (execFenceCtlFence region s) :=
  .run (fun _ h => h.fenceRequest allParts)

@[simp] theorem execFenceCtlRejoin_keeps {region : Region} : s.Keeps (execFenceCtlRejoin region s) :=
  .run (fun _ h => h.rejoinStart allParts)

@[simp] theorem execRejoinResetDone_keeps : s.Keeps (execRejoinResetDone s) := by
  unfold execRejoinResetDone
  refine .doing (fun _ h => ?_)
  split
  · refine .ite .refused (.next (.rejoinPhase ?_ allParts))
    split
    · exact (h.each_of (fun _ _ h => h.setLinkState allParts)).mailOnline allParts
    · exact h.each_of (fun _ _ h => h.setLinkState allParts)
  · exact .refused

@[simp] theorem execRejoinSyncDone_keeps : s.Keeps (execRejoinSyncDone s) := by
  unfold execRejoinSyncDone
  refine .doing (fun _ h => ?_)
  split
  · exact .ite .refused (.next ((h.rejoinPhase allParts).setFld allParts))
  · exact .refused

@[simp] theorem execRejoinCopyDone_keeps {late : Nat} : s.Keeps (execRejoinCopyDone late s) := by
  unfold execRejoinCopyDone
  refine .doing (fun _ h => ?_)
  split
  · exact .ite .refused <|
      .ite (.next (h.rejoinFail allParts)) (.next (((h.rejoinPhase allParts).clr allParts).modA allParts))
  · exact .refused

@[simp] theorem execMissedShutterCheck_keeps {retry : Bool} : s.Keeps (execMissedShutterCheck retry s) :=
  .doing fun _ h =>
    .ite .refused <|
    .ite (.next ((h.clr allParts).modCommit allParts)) <|
    .ite (.next ((h.addSat allParts).journalAs allParts)) (.next (h.setFld allParts))

@[simp] theorem execMpFailure_keeps {r : Region} {cause : Nat} : s.Keeps (execMpFailure r cause s) := by
  unfold execMpFailure
  refine .doing (fun _ h => .ite .refused (.next (.ite (.mpRestart ?_ allParts) ?_)))
  · split
    · exact ((h.setFld allParts).journalRegion allParts).mailOffline allParts
    · exact (h.setFld allParts).journalRegion allParts
  · split
    · exact ((h.setFld allParts).journalRegion allParts).mailOffline allParts
    · exact (h.setFld allParts).journalRegion allParts

@[simp] theorem execMpRestartDone_keeps {r : Region} : s.Keeps (execMpRestartDone r s) := by
  unfold execMpRestartDone
  refine .doing (fun _ h => .ite .refused (.next ?_))
  split
  · exact (((h.clr allParts).addSat allParts).journalRegion allParts).mailOnline allParts
  · exact ((h.clr allParts).addSat allParts).journalRegion allParts

@[simp] theorem execJournalSuppress_keeps {r : Region} : s.Keeps (execJournalSuppress r s) :=
  .run fun _ h =>
    have h := h.modJnl allParts
    .ite h (h.jnlWrite allParts)

@[simp] theorem execFaultAck_keeps : s.Keeps (execFaultAck s) :=
  .run (fun _ h => h.faultAck allParts)

@[simp] theorem execGuestCurrentLimit_keeps {r : Region} : s.Keeps (execGuestCurrentLimit r s) :=
  .doing (fun _ h => .ite (.next ((h.setOn allParts).dueFence allParts)) .refused)

/-! ### The commands of Machine/Boot.lean -/

@[simp] theorem execResetRelease_keeps {straps : Word} : s.Keeps (execResetRelease straps s) :=
  .doing (fun _ h => .ite (.next (h.release allParts)) .refused)

@[simp] theorem execFuseLoadDone_keeps {failed : Bool} : s.Keeps (execFuseLoadDone failed s) := by
  unfold execFuseLoadDone
  refine .doing fun _ h =>
      .ite .refused <|
      .ite (.next (h.setLoader allParts)) <|
      .next <|
      .setLoader
        (.each_of
           (.each_of (.set_chip ?_ (Part.mem_all _)) fun _ _ h =>
              h.each_of (fun _ _ h => .ite (h.setLinkState allParts) h))
           (fun _ _ h => h.firstRoute allParts))
        allParts
  dsimp only
  split
  · exact .ite
        (have h :=
           (h.set_anchor (Part.mem_all _)).each_of (fun _ _ h => h.modCommit allParts)
             |>.each_of (fun _ _ h => (h.setFld allParts).setFld allParts) |>.when_of (fun _ h => h.setOn allParts)
             |>.when_of (fun _ h => h.each_of (fun _ _ h => h.setFld allParts)) |>.setLifeCycle allParts
             |>.lcRecord allParts
         h.set_chip (Part.mem_all _))
        (have h :=
           (h.set_anchor (Part.mem_all _)).each_of (fun _ _ h => h.modCommit allParts)
             |>.each_of (fun _ _ h => (h.setFld allParts).setFld allParts) |>.when_of (fun _ h => h.setOn allParts)
             |>.when_of (fun _ h => h.each_of (fun _ _ h => h.setFld allParts)) |>.lcRecord allParts
         h.set_chip (Part.mem_all _))
  · exact (h.set_anchor (Part.mem_all _)).each_of (fun _ _ h => h.modCommit allParts)
        |>.each_of (fun _ _ h => (h.setFld allParts).setFld allParts) |>.when_of (fun _ h => h.setOn allParts)
        |>.when_of (fun _ h => h.each_of (fun _ _ h => h.setFld allParts))

@[simp] theorem execLdrStart_keeps {e : Endpoint} : s.Keeps (execLdrStart e s) :=
  .run (fun _ h => .ite (h.bootStart allParts) h)

@[simp] theorem execStart_keeps : s.Keeps (execStart s) :=
  .run (fun _ h => .ite (h.bootStart allParts) h)

@[simp] theorem execReadId_keeps : s.Keeps (execReadId s) :=
  .run (fun _ h => h.emit allParts)

@[simp] theorem execReadStatus_keeps : s.Keeps (execReadStatus s) :=
  .run (fun _ h => h.emit allParts)

@[simp] theorem execWrite_keeps {addr : Nat} {data : List Byte} : s.Keeps (execWrite addr data s) :=
  .run (fun _ h => .ite (h.setBytes allParts) h)

@[simp] theorem execRead_keeps {addr len : Nat} : s.Keeps (execRead addr len s) :=
  .run (fun _ h => .ite (h.emit allParts) h)

@[simp] theorem execAuthComplete_keeps : s.Keeps (execAuthComplete s) := by
  unfold execAuthComplete
  refine .doing fun _ h =>
      .ite .refused (.ite (.next ((h.setReject allParts).setLoader allParts)) (.next (.setLoader ?_ allParts)))
  dsimp only
  split
  · exact (h.set_thody (Part.mem_all _)).setCompat allParts
  · exact (h.set_thody (Part.mem_all _)).setCompat allParts
  · exact h.set_thody (Part.mem_all _)

@[simp] theorem execHbmInitDone_keeps {r : Region} : s.Keeps (execHbmInitDone r s) :=
  .doing fun _ h =>
    .ite (.next (h.becomeReady allParts)) (.ite (.next ((h.becomeReady allParts).setLoader allParts)) .refused)

@[simp] theorem execLoaderHandover_keeps {bist training bootMs : Nat} :
    s.Keeps (execLoaderHandover bist training bootMs s) :=
  .doing fun _ h =>
    .ite .refused <|
    .ite (.next (h.setLoader allParts)) <|
    have h := h.takePrograms allParts
    have h := h.each_of (fun _ _ h => .ite h (.ite (h.failStack allParts) (h.setFld allParts)))
    have h := h.each_of (fun _ _ h => (h.fenceRegion allParts).journal allParts)
    have h := (h.each_of (fun _ _ h => h.modRegion)).setFld allParts
    .next (((h.setLoader allParts).setFld allParts).each_of (fun _ _ h => h.mailStart allParts))

@[simp] theorem execTamperSense_keeps {r : Region} {sensors : Fin 16} :
    s.Keeps (execTamperSense r sensors s) :=
  .doing (fun _ h => .ite (.next (h.tamper allParts)) .refused)

@[simp] theorem execThermSample_keeps {temps : List Int} : s.Keeps (execThermSample temps s) :=
  .run (fun _ h => .ite (h.thermSample allParts) h)

@[simp] theorem execSupplySample_keeps {vin current power : Nat} {low : Bool} :
    s.Keeps (execSupplySample vin current power low s) :=
  .run fun _ h =>
    ((((h.setFld allParts).setFld allParts).setFld allParts).maxFld allParts).when_of (fun _ h => h.setOn allParts)

@[simp] theorem execLcAdvanceDone_keeps : s.Keeps (execLcAdvanceDone s) := by
  unfold execLcAdvanceDone
  refine .doing (fun _ h => ?_)
  split
  · exact .refused
  · exact
      have h := (h.advanceDone allParts).each_of (fun _ _ h => h.endJob allParts)
      .next (.ite ((h.each_of (fun _ _ h => h.jobPosted allParts)).partReset allParts) h)

/-! ### The commands of Machine/RegWrite.lean -/

@[simp] theorem execRegisterPairLoRead_keeps {addr : Nat} : s.Keeps (execRegisterPairLoRead addr s) := by
  unfold execRegisterPairLoRead
  refine .doing (fun _ h => ?_)
  dsimp only
  split
  · exact .next h.readReg
  · exact .refused

@[simp] theorem execRegisterPairHiWrite_keeps {addr : Nat} {value : Word} :
    s.Keeps (execRegisterPairHiWrite addr value s) := by
  unfold execRegisterPairHiWrite
  refine .doing (fun _ h => ?_)
  dsimp only
  split
  · exact .next h.writeReg
  · exact .refused

@[simp] theorem execRegisterWrite_keeps {addr : Nat} {value : Word} :
    s.Keeps (execRegisterWrite addr value s) :=
  .run (fun _ h => h.writeReg)

/-! ### The commands of Machine/Bus.lean -/

theorem State.Keeps.serveReq {r src : Region} {m : Msg} {waits : Dev → Bool} {f : Dev → Dev}
    (hf : ∀ e, s.dev.Kept Part.all e → s.dev.Kept Part.all (f e)) :
    s.Keeps (State.serveReq s r src m waits f) :=
  .doing fun _ h =>
    .ite .refused <|
    .ite (.next ((h.receive allParts).dropOnWay allParts)) (.next (.ite h (hf _ (h.receive allParts))))

@[simp] theorem execRd_keeps {r src : Region} {addr len holder hint tag : Nat} :
    s.Keeps (execRd r src addr len holder hint tag s) := by
  unfold execRd
  refine .serveReq fun _ h => .ite (h.protoErr allParts) (.ite (.ite h.answerTo h) ?_)
  split
  next heq => exact (Kept.of_fst_eq heq h.serveRead).answerTo

@[simp] theorem execWr_keeps {r src : Region} {addr len holder hint tag : Nat} {data : List Byte} :
    s.Keeps (execWr r src addr len holder hint tag data s) := by
  unfold execWr
  refine .serveReq fun _ h =>
    .ite (h.protoErr allParts) (.ite (.ite (.ite h.writeRegs.answerTo h.answerTo) h) ?_)
  split
  next heq => exact (Kept.of_fst_eq heq h.serveWrite).answerTo

@[simp] theorem execAmo_keeps {r src : Region} {swap : Bool} {addr holder hint tag operand : Nat} :
    s.Keeps (execAmo r src swap addr holder hint tag operand s) :=
  .serveReq (fun _ h => .ite h h.serveAmo.answerTo)

@[simp] theorem execBodyRd_keeps {r src : Region} {handle tag : Nat} :
    s.Keeps (execBodyRd r src handle tag s) :=
  .serveReq (fun _ h => h.answerTo)

@[simp] theorem execRdData_keeps {r src : Region} {status : Status} {tag : Nat} {data : List Byte} :
    s.Keeps (execRdData r src status tag data s) :=
  .deliverAll (fun _ h => h.respondTo)

@[simp] theorem execWrAck_keeps {r src : Region} {status : Status} {tag : Nat} :
    s.Keeps (execWrAck r src status tag s) :=
  .deliverAll (fun _ h => h.respondTo)

@[simp] theorem execAmoData_keeps {r src : Region} {status : Status} {tag previous : Nat} :
    s.Keeps (execAmoData r src status tag previous s) :=
  .deliverAll (fun _ h => h.respondTo)

@[simp] theorem execRequestTimeout_keeps {r : Region} {tag : Nat} :
    s.Keeps (execRequestTimeout r tag s) :=
  .doing (fun _ h => .ite (.next (((h.addSat allParts).err allParts).event allParts).respondTo) .refused)

@[simp] theorem execTargetBusy_keeps {r src : Region} {tag : Nat} :
    s.Keeps (execTargetBusy r src tag s) := by
  unfold execTargetBusy
  refine .doing (fun _ h => ?_)
  dsimp only
  split
  · split
    · exact .next (h.set_wire (Part.mem_all _)).answerTo
    · exact .refused
  · exact .refused

@[simp] theorem execBar2Access_keeps {e : Endpoint} {addr : Nat} {write : Bool} {len : Nat} {data : List Byte}
    :
    s.Keeps (execBar2Access e addr write len data s) :=
  .run (fun _ h => h.bar2)

/-! ### The commands of Machine/Insns.lean -/

@[simp] theorem execIntegerInstruction_keeps {u : CtxId} {w : Word} :
    s.Keeps (execIntegerInstruction u w s) :=
  .doing (fun _ h => h.issue (fun _ _ _ _ h => .next h.integer))

@[simp] theorem execLoad_keeps {u : CtxId} {w : Word} {wait : Nat} : s.Keeps (execLoad u w wait s) :=
  .doing (fun _ h => h.issue (fun _ _ _ _ h => h.memory (fun _ h => h.loadAt)))

@[simp] theorem execStore_keeps {u : CtxId} {w : Word} {wait : Nat} : s.Keeps (execStore u w wait s) :=
  .doing (fun _ h => h.issue (fun _ _ _ _ h => h.memory (fun _ h => h.storeAt)))

@[simp] theorem execAmoaddW_keeps {u : CtxId} {w : Word} {wait : Nat} :
    s.Keeps (execAmoaddW u w wait s) :=
  .doing (fun _ h => h.issue (fun _ _ _ _ h => h.memory (fun _ h => h.amoAt)))

@[simp] theorem execAmoswapW_keeps {u : CtxId} {w : Word} {wait : Nat} :
    s.Keeps (execAmoswapW u w wait s) :=
  .doing (fun _ h => h.issue (fun _ _ _ _ h => h.memory (fun _ h => h.amoAt)))

@[simp] theorem execLrW_keeps {u : CtxId} {w : Word} : s.Keeps (execLrW u w s) :=
  .doing (fun _ h => h.issue (fun _ _ _ _ h => .next h.illegal))

@[simp] theorem execScW_keeps {u : CtxId} {w : Word} : s.Keeps (execScW u w s) :=
  .doing (fun _ h => h.issue (fun _ _ _ _ h => .next h.illegal))

@[simp] theorem execLatchRead_keeps {u : CtxId} {w : Word} {wait : Nat} :
    s.Keeps (execLatchRead u w wait s) :=
  .doing (fun _ h => h.issue (fun _ _ _ _ h => h.memory (fun _ h => h.latchReadAt)))

@[simp] theorem execLatchWrite_keeps {u : CtxId} {w : Word} {wait : Nat} :
    s.Keeps (execLatchWrite u w wait s) :=
  .doing (fun _ h => h.issue (fun _ _ _ _ h => h.memory (fun _ h => h.latchWriteAt)))

@[simp] theorem execForceReleaseWrite_keeps {u : CtxId} {w : Word} {wait : Nat} :
    s.Keeps (execForceReleaseWrite u w wait s) :=
  .doing (fun _ h => h.issue (fun _ _ _ _ h => h.memory (fun _ h => h.forceAt)))

@[simp] theorem execFence_keeps {u : CtxId} {w : Word} : s.Keeps (execFence u w s) :=
  .doing (fun _ h => h.issue (fun _ _ _ _ h => h.memory (fun _ h => h.advance)))

@[simp] theorem execFenceI_keeps {u : CtxId} {w : Word} : s.Keeps (execFenceI u w s) :=
  .doing (fun _ h => h.issue (fun _ _ _ _ h => .next h.illegal))

@[simp] theorem execEcall_keeps {u : CtxId} {w : Word} : s.Keeps (execEcall u w s) :=
  .doing (fun _ h => h.issue (fun _ _ _ _ h => .next (h.except allParts)))

@[simp] theorem execEbreak_keeps {u : CtxId} {w : Word} : s.Keeps (execEbreak u w s) :=
  .doing (fun _ h => h.issue (fun _ _ _ _ h => .next (h.except allParts)))

@[simp] theorem execMret_keeps {u : CtxId} {w : Word} : s.Keeps (execMret u w s) :=
  .doing fun _ h =>
    h.issue (fun _ _ _ _ h => .ite (.next h.illegal) (.next ((h.jump.modCtx allParts).interruptTrap allParts)))

@[simp] theorem execWfi_keeps {u : CtxId} {w : Word} : s.Keeps (execWfi u w s) :=
  .doing (fun _ h => h.issue (fun _ _ _ _ h => .ite (.next h.illegal) (.next h.waitFor)))

@[simp] theorem execCsrAccess_keeps {u : CtxId} {w : Word} {cycle used : Nat} :
    s.Keeps (execCsrAccess u w cycle used s) :=
  .doing (fun _ h => h.issue (fun _ _ _ _ h => .next h.csrAccess))

@[simp] theorem execTimeCsrRead_keeps {u : CtxId} {w : Word} : s.Keeps (execTimeCsrRead u w s) :=
  .doing (fun _ h => h.issue (fun _ _ _ _ h => .next h.csrAccess))

@[simp] theorem execCelRxtsNsRead_keeps {u : CtxId} {w : Word} : s.Keeps (execCelRxtsNsRead u w s) :=
  .doing (fun _ h => h.issue (fun _ _ _ _ h => .next h.csrAccess))

@[simp] theorem execCelIrqClaim_keeps {u : CtxId} {w : Word} : s.Keeps (execCelIrqClaim u w s) :=
  .doing (fun _ h => h.issue (fun _ _ _ _ h => .next h.csrAccess))

@[simp] theorem execWfe_keeps {u : CtxId} {w : Word} : s.Keeps (execWfe u w s) :=
  .doing (fun _ h => h.issue (fun _ _ _ _ h => .next h.waitFor))

@[simp] theorem execSev_keeps {u : CtxId} {w : Word} : s.Keeps (execSev u w s) :=
  .doing fun _ h =>
    h.issue fun _ _ _ _ h =>
      .ite .refused <|
      have h := h.advance
      .next (.ite (h.setEvents allParts) h)

/-! ### The commands of Machine/Picot.lean -/

@[simp] theorem execRetire_keeps {u : CtxId} {w : Word} {used : Nat} : s.Keeps (execRetire u w used s) := by
  unfold execRetire
  refine .doing fun _ h =>
      h.packetOp (fun _ _ _ _ _ _ h => .ite (.next h.advance.retirePacket) (.ite (.next (h.except allParts)) ?_))
  split
  next heq =>
    exact .next (h.readSpan heq)
  · exact .next h.advance.retirePacket

@[simp] theorem execLkup_keeps {u : CtxId} {w : Word} : s.Keeps (execLkup u w s) :=
  .doing (fun _ h => h.packetOp (fun _ _ _ _ _ _ h => .ite .refused (.next h.lookupAt)))

@[simp] theorem execSfetch_keeps {u : CtxId} {w : Word} : s.Keeps (execSfetch u w s) :=
  .doing (fun _ h => h.packetOp (fun _ _ _ _ _ _ h => .ite .refused (.next h.fetchAt)))

@[simp] theorem execStitchFetchComplete_keeps {u : CtxId} {i : Nat} :
    s.Keeps (execStitchFetchComplete u i s) := by
  unfold execStitchFetchComplete
  refine .doing (fun _ h => ?_)
  dsimp only
  split
  · exact
      have h := h.modCtx allParts
      .next (.ite h.fetchDone h)
  · exact .refused

@[simp] theorem execMutreq_keeps {u : CtxId} {w : Word} : s.Keeps (execMutreq u w s) :=
  .doing (fun _ h => h.packetOp (fun _ _ _ _ _ _ h => .next h.mutationAt))

@[simp] theorem execMutreqDone_keeps {u : CtxId} : s.Keeps (execMutreqDone u s) := by
  unfold execMutreqDone
  refine .doing (fun _ h => ?_)
  dsimp only
  split
  · exact .next ((h.modCtx allParts).setX allParts)
  · exact .refused

@[simp] theorem execChopen_keeps {u : CtxId} {w : Word} : s.Keeps (execChopen u w s) :=
  .doing (fun _ h => h.issue (fun _ _ _ _ h => .next ((h.advance.chOpen allParts).setX allParts)))

@[simp] theorem execChput_keeps {u : CtxId} {w : Word} : s.Keeps (execChput u w s) :=
  .doing (fun _ h => h.issue (fun _ _ _ _ h => .next (h.advance.chPut allParts)))

@[simp] theorem execChclose_keeps {u : CtxId} {w : Word} : s.Keeps (execChclose u w s) :=
  .doing (fun _ h => h.issue (fun _ _ _ _ h => .ite .refused (.next ((h.advance.chClose allParts).setX allParts))))

@[simp] theorem execChget_keeps {u : CtxId} {w : Word} : s.Keeps (execChget u w s) :=
  .doing fun _ h =>
    h.issue (fun _ _ _ _ h => .ite (.next (h.except allParts)) (.next ((h.advance.chGet allParts).setX allParts)))

@[simp] theorem execCpClear_keeps {u : CtxId} {w : Word} : s.Keeps (execCpClear u w s) :=
  .doing (fun _ h => h.cpRow)

@[simp] theorem execGcmKeyw_keeps {u : CtxId} {w : Word} : s.Keeps (execGcmKeyw u w s) :=
  .doing (fun _ h => h.cpRow)

@[simp] theorem execGcmIvw_keeps {u : CtxId} {w : Word} : s.Keeps (execGcmIvw u w s) :=
  .doing (fun _ h => h.cpRow)

@[simp] theorem execGcmInit_keeps {u : CtxId} {w : Word} : s.Keeps (execGcmInit u w s) :=
  .doing (fun _ h => h.cpRow)

@[simp] theorem execGcmAad_keeps {u : CtxId} {w : Word} : s.Keeps (execGcmAad u w s) :=
  .doing (fun _ h => h.cpRow)

@[simp] theorem execGcmEnc_keeps {u : CtxId} {w : Word} : s.Keeps (execGcmEnc u w s) :=
  .doing (fun _ h => h.cpRow)

@[simp] theorem execGcmDec_keeps {u : CtxId} {w : Word} : s.Keeps (execGcmDec u w s) :=
  .doing (fun _ h => h.cpRow)

@[simp] theorem execGcmTag_keeps {u : CtxId} {w : Word} : s.Keeps (execGcmTag u w s) :=
  .doing (fun _ h => h.cpRow)

@[simp] theorem execShaInit_keeps {u : CtxId} {w : Word} : s.Keeps (execShaInit u w s) :=
  .doing (fun _ h => h.cpRow)

@[simp] theorem execShaData_keeps {u : CtxId} {w : Word} : s.Keeps (execShaData u w s) :=
  .doing (fun _ h => h.cpRow)

@[simp] theorem execShaFinal_keeps {u : CtxId} {w : Word} : s.Keeps (execShaFinal u w s) :=
  .doing (fun _ h => h.cpRow)

@[simp] theorem execShaDigest_keeps {u : CtxId} {w : Word} : s.Keeps (execShaDigest u w s) :=
  .doing (fun _ h => h.cpRow)

@[simp] theorem execCrc32cInit_keeps {u : CtxId} {w : Word} : s.Keeps (execCrc32cInit u w s) :=
  .doing (fun _ h => h.cpRow)

@[simp] theorem execCrc32cData_keeps {u : CtxId} {w : Word} : s.Keeps (execCrc32cData u w s) :=
  .doing (fun _ h => h.cpRow)

@[simp] theorem execCrc64Init_keeps {u : CtxId} {w : Word} : s.Keeps (execCrc64Init u w s) :=
  .doing (fun _ h => h.cpRow)

@[simp] theorem execCrc64Data_keeps {u : CtxId} {w : Word} : s.Keeps (execCrc64Data u w s) :=
  .doing (fun _ h => h.cpRow)

@[simp] theorem execCrc64Hi_keeps {u : CtxId} {w : Word} : s.Keeps (execCrc64Hi u w s) :=
  .doing (fun _ h => h.cpRow)

@[simp] theorem execCsumInit_keeps {u : CtxId} {w : Word} : s.Keeps (execCsumInit u w s) :=
  .doing (fun _ h => h.cpRow)

@[simp] theorem execCsumData_keeps {u : CtxId} {w : Word} : s.Keeps (execCsumData u w s) :=
  .doing (fun _ h => h.cpRow)

@[simp] theorem execTpzInit_keeps {u : CtxId} {w : Word} : s.Keeps (execTpzInit u w s) :=
  .doing (fun _ h => h.cpRow)

@[simp] theorem execTpzData_keeps {u : CtxId} {w : Word} : s.Keeps (execTpzData u w s) :=
  .doing (fun _ h => h.cpRow)

@[simp] theorem execIdxInit_keeps {u : CtxId} {w : Word} : s.Keeps (execIdxInit u w s) :=
  .doing (fun _ h => h.cpRow)

@[simp] theorem execIdxData_keeps {u : CtxId} {w : Word} : s.Keeps (execIdxData u w s) :=
  .doing (fun _ h => h.cpRow)

@[simp] theorem execIdxResult_keeps {u : CtxId} {w : Word} : s.Keeps (execIdxResult u w s) :=
  .doing (fun _ h => h.cpRow)

@[simp] theorem execCpsave_keeps {u : CtxId} {w : Word} : s.Keeps (execCpsave u w s) := by
  unfold execCpsave
  refine .doing (fun _ h => h.copro (fun _ _ _ _ h => ?_))
  dsimp only
  split
  · exact h.except allParts
  · exact h.advance.writeSpan

@[simp] theorem execCprestore_keeps {u : CtxId} {w : Word} : s.Keeps (execCprestore u w s) := by
  unfold execCprestore
  refine .doing (fun _ h => h.copro (fun _ _ _ _ h => ?_))
  dsimp only
  split
  · exact h.except allParts
  · exact .ite (h.except allParts) (h.cpLoad allParts).advance

/-! ### The commands of Machine/Shutter.lean -/

@[simp] theorem execShutter_keeps {r : Region} : s.Keeps (execShutter r s) :=
  .doing fun _ h =>
    .ite .refused <|
    have h := Kept.ite (h.failover allParts) h
    have h := h.openShutter
    .ite (.next (.ite (h.modRegion.holdover.refreshBudgets allParts) h)) (.next (.ite h.guestShutter h.shutterOf))

@[simp] theorem execShutterMark_keeps {r src : Region} {tick hops residence anchor : Nat} {m : Fin 6} {arrival : Int}
    :
    s.Keeps (execShutterMark r src tick hops residence anchor m arrival s) :=
  .run fun _ h =>
    have h := h.receive allParts
    .ite h (h.when_of (fun _ h => h.sendAll allParts)).followMarker

@[simp] theorem execMember_keeps {r : Region} {via : Option (Fin 6)} {committing absent fenced recovering tick : Nat}
    :
    s.Keeps (execMember r via committing absent fenced recovering tick s) :=
  .run fun _ h =>
    have h := (h.receive allParts).modCommit allParts
    .ite h ((h.modCommit allParts).flood allParts)

@[simp] theorem execMeterRefillPass_keeps {r : Region} {table index : Nat} :
    s.Keeps (execMeterRefillPass r table index s) :=
  .doing (fun _ h => .ite .refused (.ite (.next h) (.next (h.setMeter allParts))))

/-! ### The commands of Machine/Thody.lean -/

@[simp] theorem execNop_keeps {e : Endpoint} {pair : Fin 32} {elapsed : Nat} :
    s.Keeps (execNop e pair elapsed s) :=
  .doing (fun _ h => h.serveSoon (fun _ _ h => h))

@[simp] theorem execGetInfo_keeps {e : Endpoint} {pair : Fin 32} {elapsed : Nat} :
    s.Keeps (execGetInfo e pair elapsed s) :=
  .doing (fun _ h => h.serveSoon (fun _ _ h => h))

@[simp] theorem execEventRingSet_keeps {e : Endpoint} {pair : Fin 32} {elapsed : Nat} :
    s.Keeps (execEventRingSet e pair elapsed s) :=
  .doing (fun _ h => h.serveSoon (fun _ _ h => h.ringSet))

@[simp] theorem execJobQuery_keeps {e : Endpoint} {pair : Fin 32} {elapsed : Nat} :
    s.Keeps (execJobQuery e pair elapsed s) :=
  .doing (fun _ h => h.serveSoon (fun _ _ h => h))

@[simp] theorem execModeSet_keeps {e : Endpoint} {pair : Fin 32} {elapsed : Nat} :
    s.Keeps (execModeSet e pair elapsed s) :=
  .doing (fun _ h => h.serveSoon (fun _ _ h => h.modeSet))

@[simp] theorem execTickSet_keeps {e : Endpoint} {pair : Fin 32} {elapsed : Nat} :
    s.Keeps (execTickSet e pair elapsed s) :=
  .doing (fun _ h => h.serveSoon (fun _ _ h => h.tickSet))

@[simp] theorem execPtpLoad_keeps {e : Endpoint} {pair : Fin 32} {elapsed : Nat} :
    s.Keeps (execPtpLoad e pair elapsed s) :=
  .doing (fun _ h => h.serveSoon (fun _ _ h => h.ptpSet))

@[simp] theorem execPtpAdjust_keeps {e : Endpoint} {pair : Fin 32} {elapsed : Nat} :
    s.Keeps (execPtpAdjust e pair elapsed s) :=
  .doing (fun _ h => h.serveSoon (fun _ _ h => h.ptpMove))

@[simp] theorem execUnitSet_keeps {e : Endpoint} {pair : Fin 32} {elapsed : Nat} :
    s.Keeps (execUnitSet e pair elapsed s) :=
  .doing (fun _ h => h.serveSoon (fun _ _ h => h.unitSet))

@[simp] theorem execUnitQuery_keeps {e : Endpoint} {pair : Fin 32} {elapsed : Nat} :
    s.Keeps (execUnitQuery e pair elapsed s) :=
  .doing (fun _ h => h.serveSoon (fun _ _ h => h.unitQuery))

@[simp] theorem execLedgerScan_keeps {e : Endpoint} {pair : Fin 32} {elapsed : Nat} :
    s.Keeps (execLedgerScan e pair elapsed s) :=
  .doing (fun _ h => h.serveSoon (fun _ _ h => h.ledgerScan))

@[simp] theorem execTblDescSet_keeps {e : Endpoint} {pair : Fin 32} {elapsed : Nat} :
    s.Keeps (execTblDescSet e pair elapsed s) :=
  .doing (fun _ h => h.serve (fun _ _ h => h.tblDescSet))

@[simp] theorem execTblMutate_keeps {e : Endpoint} {pair : Fin 32} {elapsed time : Nat} :
    s.Keeps (execTblMutate e pair elapsed time s) :=
  .doing (fun _ h => h.serveSoon (fun _ _ h => h.tblMutate))

@[simp] theorem execTblRead_keeps {e : Endpoint} {pair : Fin 32} {elapsed : Nat} :
    s.Keeps (execTblRead e pair elapsed s) :=
  .doing (fun _ h => h.serveSoon (fun _ _ h => h.tblRead))

@[simp] theorem execCmRead_keeps {e : Endpoint} {pair : Fin 32} {elapsed : Nat} :
    s.Keeps (execCmRead e pair elapsed s) :=
  .doing (fun _ h => h.serveSoon (fun _ _ h => h.cmRead))

@[simp] theorem execCmWrite_keeps {e : Endpoint} {pair : Fin 32} {elapsed : Nat} :
    s.Keeps (execCmWrite e pair elapsed s) :=
  .doing (fun _ h => h.serveSoon (fun _ _ h => h.cmWrite))

@[simp] theorem execPaneDivSet_keeps {e : Endpoint} {pair : Fin 32} {elapsed : Nat} :
    s.Keeps (execPaneDivSet e pair elapsed s) :=
  .doing (fun _ h => h.serveSoon (fun _ _ h => h.paneDivSet))

@[simp] theorem execPaneOpen_keeps {e : Endpoint} {pair : Fin 32} {elapsed : Nat} :
    s.Keeps (execPaneOpen e pair elapsed s) :=
  .doing (fun _ h => h.serveSoon (fun _ _ h => h.paneOpenAll))

@[simp] theorem execPaneWrite_keeps {e : Endpoint} {pair : Fin 32} {elapsed : Nat} :
    s.Keeps (execPaneWrite e pair elapsed s) :=
  .doing (fun _ h => h.serveSoon (fun _ _ h => h.paneWriteAll))

@[simp] theorem execPaneClose_keeps {e : Endpoint} {pair : Fin 32} {elapsed : Nat} :
    s.Keeps (execPaneClose e pair elapsed s) :=
  .doing (fun _ h => h.serve (fun _ _ h => h.paneCloseAll))

@[simp] theorem execPaneSwap_keeps {e : Endpoint} {pair : Fin 32} {elapsed : Nat} :
    s.Keeps (execPaneSwap e pair elapsed s) :=
  .doing (fun _ h => h.serveSoon (fun _ _ h => h.paneSwapAt))

@[simp] theorem execPaneForceFree_keeps {e : Endpoint} {pair : Fin 32} {elapsed : Nat} :
    s.Keeps (execPaneForceFree e pair elapsed s) :=
  .doing (fun _ h => h.serveSoon (fun _ _ h => h.checked (fun _ h => h.forceFree allParts)))

@[simp] theorem execRegRead_keeps {e : Endpoint} {pair : Fin 32} {elapsed : Nat} :
    s.Keeps (execRegRead e pair elapsed s) :=
  .doing (fun _ h => h.serveSoon (fun _ _ h => h.regRead))

@[simp] theorem execRegWrite_keeps {e : Endpoint} {pair : Fin 32} {elapsed : Nat} :
    s.Keeps (execRegWrite e pair elapsed s) :=
  .doing (fun _ h => h.serveSoon (fun _ _ h => h.regWriteAll))

@[simp] theorem execBpmDescRead_keeps {e : Endpoint} {pair : Fin 32} {elapsed : Nat} :
    s.Keeps (execBpmDescRead e pair elapsed s) :=
  .doing (fun _ h => h.serveSoon (fun _ _ h => h.bpmDescRead))

@[simp] theorem execBpmStat_keeps {e : Endpoint} {pair : Fin 32} {elapsed : Nat} :
    s.Keeps (execBpmStat e pair elapsed s) :=
  .doing (fun _ h => h.serveSoon (fun _ _ h => h.bpmStat))

@[simp] theorem execRegionFence_keeps {e : Endpoint} {pair : Fin 32} {elapsed : Nat} :
    s.Keeps (execRegionFence e pair elapsed s) :=
  .doing (fun _ h => h.serveSoon (fun _ _ h => h.regionFence))

@[simp] theorem execRegionRejoin_keeps {e : Endpoint} {pair : Fin 32} {elapsed : Nat} :
    s.Keeps (execRegionRejoin e pair elapsed s) :=
  .doing (fun _ h => h.serveSoon (fun _ _ h => h.regionRejoin))

@[simp] theorem execJournalRead_keeps {e : Endpoint} {pair : Fin 32} {elapsed : Nat} :
    s.Keeps (execJournalRead e pair elapsed s) :=
  .doing (fun _ h => h.serveSoon (fun _ _ h => h.journalRead))

@[simp] theorem execHbmRetrain_keeps {e : Endpoint} {pair : Fin 32} {elapsed : Nat} :
    s.Keeps (execHbmRetrain e pair elapsed s) :=
  .doing (fun _ h => h.serveSoon (fun _ _ h => h.hbmRetrain))

@[simp] theorem execHbmRateSet_keeps {e : Endpoint} {pair : Fin 32} {elapsed : Nat} :
    s.Keeps (execHbmRateSet e pair elapsed s) :=
  .doing (fun _ h => h.serve (fun _ _ h => h.hbmRateSet))

@[simp] theorem execGuestDescRead_keeps {e : Endpoint} {pair : Fin 32} {elapsed : Nat} :
    s.Keeps (execGuestDescRead e pair elapsed s) :=
  .doing (fun _ h => h.serveSoon (fun _ _ h => h.guestDescRead))

@[simp] theorem execGuestRoleSet_keeps {e : Endpoint} {pair : Fin 32} {elapsed : Nat} :
    s.Keeps (execGuestRoleSet e pair elapsed s) :=
  .doing (fun _ h => h.serveSoon (fun _ _ h => h.guestRoleSet))

@[simp] theorem execGuestAdmit_keeps {e : Endpoint} {pair : Fin 32} {elapsed : Nat} :
    s.Keeps (execGuestAdmit e pair elapsed s) :=
  .doing (fun _ h => h.serveSoon (fun _ _ h => h.guestAdmit))

@[simp] theorem execFwStage_keeps {e : Endpoint} {pair : Fin 32} {elapsed : Nat} :
    s.Keeps (execFwStage e pair elapsed s) :=
  .doing (fun _ h => h.serveSoon (fun _ _ h => h.fwStage))

@[simp] theorem execFwActivate_keeps {e : Endpoint} {pair : Fin 32} {elapsed : Nat} :
    s.Keeps (execFwActivate e pair elapsed s) :=
  .doing (fun _ h => h.serveSoon (fun _ _ h => h.fwActivate))

@[simp] theorem execLcAdvance_keeps {e : Endpoint} {pair : Fin 32} {elapsed : Nat} :
    s.Keeps (execLcAdvance e pair elapsed s) :=
  .doing (fun _ h => h.serveSoon (fun _ _ h => h.lcAdvance))

@[simp] theorem execMonSnapshot_keeps {e : Endpoint} {pair : Fin 32} {elapsed : Nat} :
    s.Keeps (execMonSnapshot e pair elapsed s) :=
  .doing (fun _ h => h.serveSoon (fun _ _ h => h.monSnapshotAt))

@[simp] theorem execJobDone_keeps {num : Nat} : s.Keeps (execJobDone num s) :=
  .doing (fun _ h => h.jobDone)

end

end Sys2Proof.Machine

namespace Sys2Proof.Machine

theorem exec_keeps (c : Instr) (s : State) : s.Keeps (exec c s) := by
  cases c <;> simp [exec]

/-- Settles O5: a step runs one command of the queue, and every command keeps the canonical forms. -/
theorem everyStepKeepsTheCanonicalForms : Obligations.EveryStepKeepsTheCanonicalForms := by
  unfold Obligations.EveryStepKeepsTheCanonicalForms
  intro s t hs h
  unfold step at h
  split at h
  · cases h
    exact hs
  next c rest _ =>
    have hk := exec_keeps c { s with pending := rest }
    rw [h] at hk
    exact hk.2 hs

end Sys2Proof.Machine

namespace Sys2Proof.Machine

/-! ### Chip registers by their address -/

/-- A chip register's address leads to its offset in the chip registers of its position (R74). -/
theorem locOf_chpReg {a off : Nat} (ha : a < 8) (ho : off < 0x80000) : locOf (chpReg a off) = .chip a off := by
  have hr : chpReg a off / 0x100000000000 = a := by unfold chpReg; omega
  have hm : chpReg a off % 0x100000000000 = 0xF0000000000 + off := by unfold chpReg; omega
  have hlt : chpReg a off < 0x1000000000000 := by unfold chpReg; omega
  unfold locOf
  rw [if_neg (by omega), if_neg (by omega)]
  simp only [hr, hm]
  rw [if_pos (by omega), Nat.add_sub_cancel_left]

section
variable {a x off : Nat} (hl : locOf a = .chip x off)
include hl

/-- A chip address announces the register whose offset it is. -/
theorem announced_of_chip : announced a = (chipRegs (off / 0x10000)).find? (·.holds off) := by
  unfold announced descAt
  rw [hl]
  change Option.filter (fun _ => true) ((chipRegs (off / 0x10000)).find? (·.holds off)) = _
  cases (chipRegs (off / 0x10000)).find? (·.holds off) <;> rfl

/-- The upper register of a pair of the chip registers. -/
theorem upperOf_of_chip {e : RegDesc} {lo hi b : Nat}
    (hp : (pairsOf (.chip x off)).find? (·.1 == e.off) = some (lo, hi)) (hb : a + (hi - lo) = b) :
    upperOf a e = some b := by
  unfold upperOf
  rw [hl, hp, ← hb]
  rfl

/-- The lower register of a pair of the chip registers. -/
theorem lowerOf_of_chip {e : RegDesc} {lo hi b : Nat}
    (hp : (pairsOf (.chip x off)).find? (·.2 == e.off) = some (lo, hi)) (hb : a - (hi - lo) = b) :
    lowerOf a e = some b := by
  unfold lowerOf
  rw [hl, hp, ← hb]
  rfl

/-- A register that is the lower one of no pair. -/
theorem upperOf_of_chip_none {e : RegDesc} (hp : (pairsOf (.chip x off)).find? (·.1 == e.off) = none) :
    upperOf a e = none := by
  unfold upperOf
  rw [hl, hp]
  rfl

namespace Dev

/-- A chip register below the GPIO levels that is not the tick reads as it stands. -/
theorem wordAt_of_chip (d : Dev) {e : RegDesc} (he : e.off ∉ [0x30008, 0x3000C, 0x60028, 0x70000]) :
    d.wordAt a e = d.reg a := by
  simp only [List.mem_cons, List.not_mem_nil, or_false, not_or] at he
  simp [wordAt, hl, chipWord, he]

/-- A pair of the chip other than a BAR2 window and a monitor threshold takes both halves. -/
theorem pairCommit_of_chip (d : Dev) {el eh : RegDesc} (he : el.off ∉ [0x71000, 0x2000C]) {w : Word}
    (hw : (d.pairBuf a).lo = some w) (hi v : Nat) :
    (d.pairCommit a hi el eh v).1 = ((d.setReg a (el.writeWord [] w.toNat (d.reg a))).setReg hi
      (eh.writeWord [] v (d.reg hi))).holdUpper a (eh.writeWord [] v (d.reg hi)) := by
  simp only [List.mem_cons, List.not_mem_nil, or_false, not_or] at he
  obtain ⟨h1, h2⟩ := he
  simp [pairCommit, hl, hw, h1, h2]

variable {d : Dev} (ht : d.regThere (.chip x off) = true) {e : RegDesc} (he : announced a = some e)
include ht he

/-- A read of the lower register of a pair holds what a read of the upper register shows. -/
theorem readReg_lower {hi : Nat} {eh : RegDesc} (hu : upperOf a e = some hi) (hh : announced hi = some eh) :
    (d.readReg a).1 = d.holdUpper a (eh.readWord (d.wordAt hi eh)) := by
  simp [readReg, readReg.go, hl, ht, he, hu, hh]

/-- A write of the lower register of a pair that is written is kept until the upper register is written. -/
theorem writeReg_lower {hi : Nat} {eh : RegDesc} (hu : upperOf a e = some hi) (hh : announced hi = some eh)
    (hp : paired e eh = true) (v : Word) :
    (d.writeReg a v.toNat).1 = d.modPair a (fun b => { b with lo := some v }) := by
  simp [writeReg, writeReg.go, hl, ht, he, hu, hh, hp, Nat.mod_eq_of_lt v.isLt]

/-- A write of the upper register of a pair that is written commits the pair. -/
theorem writeReg_upper {lo : Nat} {el : RegDesc} (hu : upperOf a e = none)
    (hlo : lowerOf a e = some lo) (hh : announced lo = some el) (hp : paired el e = true) (v : Word) :
    d.writeReg a v.toNat = d.pairCommit lo a el e v.toNat := by
  simp [writeReg, writeReg.go, hl, ht, he, hu, hlo, hh, hp, Nat.mod_eq_of_lt v.isLt]

end Dev
end

namespace Dev

theorem A_lt (d : Dev) : d.A < 8 := d.anchor.isLt

theorem normal_chpReg (d : Dev) {off : Nat} (ho : off < 0x80000) : d.normal (chpReg d.A off) = chpReg d.A off := by
  have hA := d.A_lt
  refine if_neg fun h => ?_
  unfold chpReg at h
  omega

theorem regThere_chip (d : Dev) (off : Nat) : d.regThere (.chip d.A off) = true := by simp [regThere]

/-- Every register beside the field's is as before. -/
theorem reg_setFld_ne (d : Dev) (f : Fld) (v b : Nat) (h : b ≠ f.addr) : (d.setFld f v).reg b = d.reg b :=
  reg_setReg_ne _ _ _ _ h

/-! ### The buffers of the pairs -/

@[simp] theorem pairBuf_modPair_same (d : Dev) (lo : Nat) (f : PairBuf → PairBuf) :
    (d.modPair lo f).pairBuf lo = f (d.pairBuf lo) := by simp [modPair, pairBuf]

theorem pairBuf_modPair_ne (d : Dev) {lo a : Nat} (f : PairBuf → PairBuf) (h : a ≠ lo) :
    (d.modPair lo f).pairBuf a = d.pairBuf a := Sparse.get_set_ne _ _ _ _ _ h

theorem hold_holdUpper_same (d : Dev) (lo : Nat) (w : Word) : ((d.holdUpper lo w).pairBuf lo).hold = some w := by
  simp [holdUpper]

theorem pairBuf_holdUpper_ne (d : Dev) {lo a : Nat} (w : Word) (h : a ≠ lo) :
    (d.holdUpper lo w).pairBuf a = d.pairBuf a := d.pairBuf_modPair_ne _ h

@[simp] theorem pairBuf_counted (d : Dev) (n a : Nat) : ({ d with free := n } : Dev).pairBuf a = d.pairBuf a := rfl

@[simp] theorem reg_holdUpper (d : Dev) (lo a : Nat) (w : Word) : (d.holdUpper lo w).reg a = d.reg a := rfl
@[simp] theorem fld_holdUpper (d : Dev) (lo : Nat) (w : Word) (f : Fld) : (d.holdUpper lo w).fld f = d.fld f := rfl

/-! ### CHP_PPS_TICK and CHP_PANE_AT -/

section
variable {a : Nat} (ha : a < 8)
include ha

theorem locOf_ppsTickLo : locOf (CHP_PPS_TICK_LO a) = .chip a 0x30010 := locOf_chpReg ha (by decide)
theorem locOf_ppsTickHi : locOf (CHP_PPS_TICK_HI a) = .chip a 0x30014 := locOf_chpReg ha (by decide)
theorem locOf_paneAtLo : locOf (CHP_PANE_AT_LO a) = .chip a 0x30044 := locOf_chpReg ha (by decide)
theorem locOf_paneAtHi : locOf (CHP_PANE_AT_HI a) = .chip a 0x30048 := locOf_chpReg ha (by decide)

theorem announced_ppsTickLo :
    announced (CHP_PPS_TICK_LO a) = some ⟨"CHP_PPS_TICK_LO", 0x30010, [], [⟨0, 32, .ro, 0, false⟩]⟩ :=
  (announced_of_chip (locOf_ppsTickLo ha)).trans rfl

theorem announced_ppsTickHi :
    announced (CHP_PPS_TICK_HI a) = some ⟨"CHP_PPS_TICK_HI", 0x30014, [], [⟨0, 16, .ro, 0, false⟩]⟩ :=
  (announced_of_chip (locOf_ppsTickHi ha)).trans rfl

theorem announced_paneAtLo :
    announced (CHP_PANE_AT_LO a) = some ⟨"CHP_PANE_AT_LO", 0x30044, [], [⟨0, 32, .rw, 0, false⟩]⟩ :=
  (announced_of_chip (locOf_paneAtLo ha)).trans rfl

theorem announced_paneAtHi :
    announced (CHP_PANE_AT_HI a) = some ⟨"CHP_PANE_AT_HI", 0x30048, [], [⟨0, 16, .rw, 0, false⟩]⟩ :=
  (announced_of_chip (locOf_paneAtHi ha)).trans rfl

theorem upperOf_ppsTickLo :
    upperOf (CHP_PPS_TICK_LO a) ⟨"CHP_PPS_TICK_LO", 0x30010, [], [⟨0, 32, .ro, 0, false⟩]⟩ =
      some (CHP_PPS_TICK_HI a) :=
  upperOf_of_chip (locOf_ppsTickLo ha) (lo := 0x30010) (hi := 0x30014) rfl
    (by unfold CHP_PPS_TICK_LO CHP_PPS_TICK_HI chpReg; omega)

theorem upperOf_paneAtLo :
    upperOf (CHP_PANE_AT_LO a) ⟨"CHP_PANE_AT_LO", 0x30044, [], [⟨0, 32, .rw, 0, false⟩]⟩ =
      some (CHP_PANE_AT_HI a) :=
  upperOf_of_chip (locOf_paneAtLo ha) (lo := 0x30044) (hi := 0x30048) rfl
    (by unfold CHP_PANE_AT_LO CHP_PANE_AT_HI chpReg; omega)

theorem upperOf_paneAtHi :
    upperOf (CHP_PANE_AT_HI a) ⟨"CHP_PANE_AT_HI", 0x30048, [], [⟨0, 16, .rw, 0, false⟩]⟩ = none :=
  upperOf_of_chip_none (locOf_paneAtHi ha) rfl

theorem lowerOf_paneAtHi :
    lowerOf (CHP_PANE_AT_HI a) ⟨"CHP_PANE_AT_HI", 0x30048, [], [⟨0, 16, .rw, 0, false⟩]⟩ =
      some (CHP_PANE_AT_LO a) :=
  lowerOf_of_chip (locOf_paneAtHi ha) (lo := 0x30044) (hi := 0x30048) rfl
    (by unfold CHP_PANE_AT_LO CHP_PANE_AT_HI chpReg; omega)

end

/-! ### The commands -/

/-- A read of CHP_PPS_TICK_LO holds the upper half. -/
theorem readReg_ppsTickLo (d : Dev) : (d.readReg (CHP_PPS_TICK_LO d.A)).1
    = d.holdUpper (CHP_PPS_TICK_LO d.A) (BitVec.ofNat 32 (d.fld (CHP_PPS_TICK_HI_tick d.A))) := by
  have hA := d.A_lt
  rw [readReg_lower (locOf_ppsTickLo hA) (d.regThere_chip _) (announced_ppsTickLo hA)
    (upperOf_ppsTickLo hA) (announced_ppsTickHi hA), wordAt_of_chip (locOf_ppsTickHi hA) d (by decide)]
  simp [RegDesc.readWord, FieldDesc.readBits, fld, CHP_PPS_TICK_HI_tick]

/-- A write of CHP_PANE_AT_LO is kept in the pair's buffer. -/
theorem writeReg_paneAtLo (d : Dev) (v : Word) : (d.writeReg (CHP_PANE_AT_LO d.A) v.toNat).1
    = d.modPair (CHP_PANE_AT_LO d.A) (fun b => { b with lo := some v }) :=
  have hA := d.A_lt
  writeReg_lower (locOf_paneAtLo hA) (d.regThere_chip _) (announced_paneAtLo hA)
    (upperOf_paneAtLo hA) (announced_paneAtHi hA) rfl v

/-- A register of one writable field at bit 0 takes the value written into that field. -/
theorem writeWord_rw {name : String} {off width reset v : Nat} {dims : List Dim} {keep : Bool} (w : Word) :
    (RegDesc.mk name off dims [⟨0, width, .rw, reset, keep⟩]).writeWord [] v w = withField w 0 width v := by
  simp [RegDesc.writeWord, FieldDesc.write, withField]

theorem paneAt_ne (a : Nat) : CHP_PANE_AT_HI a ≠ CHP_PANE_AT_LO a := by
  unfold CHP_PANE_AT_LO CHP_PANE_AT_HI chpReg
  omega

/-- A write of CHP_PANE_AT_HI writes both halves, the lower one with the value that was kept. -/
theorem writeReg_paneAtHi (d : Dev) (v : Word) {w : Word} (hw : (d.pairBuf (CHP_PANE_AT_LO d.A)).lo = some w) :
    (d.writeReg (CHP_PANE_AT_HI d.A) v.toNat).1
      = ((d.setFld (CHP_PANE_AT_LO_tick d.A) w.toNat).setFld (CHP_PANE_AT_HI_tick d.A) v.toNat).holdUpper
          (CHP_PANE_AT_LO d.A) (withField (d.reg (CHP_PANE_AT_HI d.A)) 0 16 v.toNat) := by
  have hA := d.A_lt
  have hr (x : Word) : (d.setReg (CHP_PANE_AT_LO d.A) x).reg (CHP_PANE_AT_HI d.A) = d.reg (CHP_PANE_AT_HI d.A) :=
    reg_setReg_ne _ _ _ _ (paneAt_ne _)
  rw [writeReg_upper (locOf_paneAtHi hA) (d.regThere_chip _) (announced_paneAtHi hA)
    (upperOf_paneAtHi hA) (lowerOf_paneAtHi hA) (announced_paneAtLo hA) rfl v,
    pairCommit_of_chip (locOf_paneAtLo hA) d (by decide) hw, writeWord_rw, writeWord_rw]
  simp only [setFld, CHP_PANE_AT_LO_tick, CHP_PANE_AT_HI_tick, hr]

end Dev

/-! ### Register commands by what the register operation does -/

section
variable {s : State} {d : Dev} {l : List Part} {P : Dev → Prop} {addr b : Nat} {value : Word}

/-- A read of a pair's lower register is carried out by the read of the register. -/
theorem Carried.registerPairLoRead (hb : (announced (s.dev.normal addr)).bind (upperOf (s.dev.normal addr)) = some b)
    (hr : (s.dev.readReg (s.dev.normal addr)).1 = d) (ho : s.dev.OnlyIn l d)
    (hp : P { d with free := s.dev.free + 1 }) : Carried (.registerPairLoRead addr) s l P := by
  have hx : exec (.registerPairLoRead addr) s = execRegisterPairLoRead addr s := rfl
  unfold execRegisterPairLoRead at hx
  refine .doing hx ?_ ho hp
  simp only [hb, hr]

/-- A write of a pair's upper register is carried out by the write of the register. -/
theorem Carried.registerPairHiWrite (hb : (announced (s.dev.normal addr)).bind (lowerOf (s.dev.normal addr)) = some b)
    (hr : (s.dev.writeReg (s.dev.normal addr) value.toNat).1 = d) (ho : s.dev.OnlyIn l d)
    (hp : P { d with free := s.dev.free + 1 }) : Carried (.registerPairHiWrite addr value) s l P := by
  have hx : exec (.registerPairHiWrite addr value) s = execRegisterPairHiWrite addr value s := rfl
  unfold execRegisterPairHiWrite at hx
  refine .doing hx ?_ ho hp
  simp only [hb, hr]

/-- A register write is carried out by the write of the register. -/
theorem Carried.registerWrite (hr : (s.dev.writeReg (s.dev.normal addr) value.toNat).1 = d) (ho : s.dev.OnlyIn l d)
    (hp : P { d with free := s.dev.free + 1 }) : Carried (.registerWrite addr value) s l P := by
  subst hr
  exact .run (f := fun d => (d.writeReg (d.normal addr) value.toNat).1) rfl ho hp

end

/-! ### The clauses of O27 -/

section
variable (s : State)

/-- Reading the lower half of CHP_PPS_TICK holds its upper half. -/
theorem ppsTickLo_carried : Carried (.registerPairLoRead (CHP_PPS_TICK_LO s.dev.A)) s [.pairs] fun e =>
    (∃ w, (e.pairBuf (CHP_PPS_TICK_LO s.dev.A)).hold = some w
        ∧ fieldOf w 0 16 = s.dev.fld (CHP_PPS_TICK_HI_tick s.dev.A))
      ∧ ∀ a, a ≠ CHP_PPS_TICK_LO s.dev.A → e.pairBuf a = s.dev.pairBuf a := by
  have hA := s.dev.A_lt
  have hn : s.dev.normal (CHP_PPS_TICK_LO s.dev.A) = CHP_PPS_TICK_LO s.dev.A := s.dev.normal_chpReg (by decide)
  have hf : s.dev.fld (CHP_PPS_TICK_HI_tick s.dev.A) < 2 ^ 16 := s.dev.fld_lt _
  refine .registerPairLoRead (b := CHP_PPS_TICK_HI s.dev.A) ?_
    ((congrArg (fun a => (s.dev.readReg a).1) hn).trans s.dev.readReg_ppsTickLo)
    ((Dev.Kept.refl _ _).holdUpper fun _ => id).1
    ⟨⟨_, s.dev.hold_holdUpper_same .., ?_⟩, fun a ha => s.dev.pairBuf_holdUpper_ne _ ha⟩
  · rw [hn, Dev.announced_ppsTickLo hA, Option.bind_some, Dev.upperOf_ppsTickLo hA]
  · simp only [fieldOf, BitVec.toNat_ofNat]
    omega

/-- A write of the lower half of CHP_PANE_AT waits in the pair's buffer. -/
theorem paneAtLo_carried (value : Word) : Carried (.registerWrite (CHP_PANE_AT_LO s.dev.A) value) s [.pairs] fun e =>
    (e.pairBuf (CHP_PANE_AT_LO s.dev.A)).lo = some value
      ∧ ∀ a, a ≠ CHP_PANE_AT_LO s.dev.A → e.pairBuf a = s.dev.pairBuf a := by
  have hn : s.dev.normal (CHP_PANE_AT_LO s.dev.A) = CHP_PANE_AT_LO s.dev.A := s.dev.normal_chpReg (by decide)
  refine .registerWrite
    ((congrArg (fun a => (s.dev.writeReg a value.toNat).1) hn).trans (s.dev.writeReg_paneAtLo value))
    ((Dev.Kept.refl _ _).modPair fun _ => id).1 ⟨?_, fun a ha => ?_⟩
  · rw [Dev.pairBuf_counted, Dev.pairBuf_modPair_same]
  · rw [Dev.pairBuf_counted, Dev.pairBuf_modPair_ne _ _ ha]

/-- A write of the upper half of CHP_PANE_AT commits both halves. -/
theorem paneAtHi_carried (value : Word) {w : Word} (hw : (s.dev.pairBuf (CHP_PANE_AT_LO s.dev.A)).lo = some w) :
    Carried (.registerPairHiWrite (CHP_PANE_AT_HI s.dev.A) value) s [.regs, .pairs] fun e =>
      e.fld (CHP_PANE_AT_LO_tick s.dev.A) = w.toNat ∧ e.fld (CHP_PANE_AT_HI_tick s.dev.A) = value.toNat % 2 ^ 16
        ∧ s.dev.RegsIn [CHP_PANE_AT_LO s.dev.A, CHP_PANE_AT_HI s.dev.A] e := by
  have hA := s.dev.A_lt
  have hn : s.dev.normal (CHP_PANE_AT_HI s.dev.A) = CHP_PANE_AT_HI s.dev.A := s.dev.normal_chpReg (by decide)
  refine .registerPairHiWrite (b := CHP_PANE_AT_LO s.dev.A) ?_
    ((congrArg (fun a => (s.dev.writeReg a value.toNat).1) hn).trans (s.dev.writeReg_paneAtHi value hw))
    (((Dev.Kept.refl _ _).setFld (by decide)).setFld (by decide) |>.holdUpper (by decide)).1
    ⟨?_, ?_, fun a ha => ?_⟩
  · rw [hn, Dev.announced_paneAtHi hA, Option.bind_some, Dev.lowerOf_paneAtHi hA]
  · rw [Dev.fld_counted, Dev.fld_holdUpper, Dev.fld_setFld_ne _ _ _ _ (Dev.paneAt_ne _).symm,
      Dev.fld_setFld_same _ _ _ (by simp [CHP_PANE_AT_LO_tick])]
    exact Nat.mod_eq_of_lt w.isLt
  · rw [Dev.fld_counted, Dev.fld_holdUpper, Dev.fld_setFld_same _ _ _ (by simp [CHP_PANE_AT_HI_tick])]
    rfl
  · simp only [List.mem_cons, List.not_mem_nil, or_false, not_or] at ha
    obtain ⟨hlo, hhi⟩ := ha
    rw [Dev.reg_counted, Dev.reg_holdUpper, Dev.reg_setFld_ne _ _ _ _ hhi, Dev.reg_setFld_ne _ _ _ _ hlo]

/-- A read of RGN_TBL_BADLINE holds RGN_TBL_BADTABLE. -/
theorem tblBadlineRead_carried (r : Region) : Carried (.tblBadlineRead r) s [.pairs] fun e =>
    (e.pairBuf (RGN_TBL_BADLINE r.val)).hold = some (s.dev.reg (RGN_TBL_BADTABLE r.val))
      ∧ ∀ a, a ≠ RGN_TBL_BADLINE r.val → e.pairBuf a = s.dev.pairBuf a :=
  .run (f := fun d => (d.badlineRead r).1) rfl ((Dev.Kept.refl _ _).badlineRead fun _ => id).1
    ⟨s.dev.hold_holdUpper_same .., fun _ ha => s.dev.pairBuf_holdUpper_ne _ ha⟩

end

namespace Dev
variable (d : Dev) (r : Region) (w : Word)

/-- Setting the dispatcher flags shows them in RGN_DSP_FLAGS. -/
theorem reg_setFlags : (d.setFlags r w).reg (RGN_DSP_FLAGS r.val) = w := by
  have h1 : RGN_DSP_FLAGS r.val ≠ RGN_DSP_FLAGS_SET r.val := by unfold RGN_DSP_FLAGS RGN_DSP_FLAGS_SET rgnReg; omega
  have h2 : RGN_DSP_FLAGS r.val ≠ RGN_DSP_FLAGS_CLR r.val := by unfold RGN_DSP_FLAGS RGN_DSP_FLAGS_CLR rgnReg; omega
  rw [setFlags, reg_setReg_ne _ _ _ _ h2, reg_setReg_ne _ _ _ _ h1, reg_setReg_same]

/-- Setting the dispatcher flags changes the three registers that show them alone. -/
theorem regsIn_setFlags :
    d.RegsIn [RGN_DSP_FLAGS r.val, RGN_DSP_FLAGS_SET r.val, RGN_DSP_FLAGS_CLR r.val] (d.setFlags r w) :=
  ((regsIn_setReg _ _ _ _ (by simp)).trans (regsIn_setReg _ _ _ _ (by simp))).trans (regsIn_setReg _ _ _ _ (by simp))

end Dev

/-- The flags whose bits are 1 are set. -/
theorem dspFlagsSet_carried (s : State) (r : Region) (value : Word) : Carried (.dspFlagsSet r value) s [.regs] fun e =>
    e.reg (RGN_DSP_FLAGS r.val) = s.dev.reg (RGN_DSP_FLAGS r.val) ||| value
      ∧ s.dev.RegsIn [RGN_DSP_FLAGS r.val, RGN_DSP_FLAGS_SET r.val, RGN_DSP_FLAGS_CLR r.val] e := by
  refine .run (f := fun d => d.setFlags r (d.reg (RGN_DSP_FLAGS r.val) ||| value)) rfl
    ((Dev.Kept.refl _ _).setFlags fun _ => id).1 ⟨?_, fun a ha => ?_⟩
  · rw [Dev.reg_counted, Dev.reg_setFlags]
  · rw [Dev.reg_counted, Dev.regsIn_setFlags _ _ _ a ha]

/-- The flags whose bits are 1 are cleared. -/
theorem dspFlagsClr_carried (s : State) (r : Region) (value : Word) : Carried (.dspFlagsClr r value) s [.regs] fun e =>
    e.reg (RGN_DSP_FLAGS r.val) = s.dev.reg (RGN_DSP_FLAGS r.val) &&& ~~~value
      ∧ s.dev.RegsIn [RGN_DSP_FLAGS r.val, RGN_DSP_FLAGS_SET r.val, RGN_DSP_FLAGS_CLR r.val] e := by
  refine .run (f := fun d => d.setFlags r (d.reg (RGN_DSP_FLAGS r.val) &&& ~~~value)) rfl
    ((Dev.Kept.refl _ _).setFlags fun _ => id).1 ⟨?_, fun a ha => ?_⟩
  · rw [Dev.reg_counted, Dev.reg_setFlags]
  · rw [Dev.reg_counted, Dev.regsIn_setFlags _ _ _ a ha]

/-- Settles O27, clause by clause. -/
theorem registerPairsAndFlags : Obligations.RegisterPairsAndFlags :=
  ⟨ppsTickLo_carried, fun value s => paneAtLo_carried s value, fun value _ s hw => paneAtHi_carried s value hw,
    fun r s => tblBadlineRead_carried s r, fun r value s => dspFlagsSet_carried s r value,
    fun r value s => dspFlagsClr_carried s r value⟩

end Sys2Proof.Machine

namespace Sys2Proof.Machine

/-! ### Addresses of chip and region registers -/

theorem chpReg_inj {a x y : Nat} : chpReg a x = chpReg a y ↔ x = y := by simp [chpReg]

theorem rgnReg_inj {r x y : Nat} : rgnReg r x = rgnReg r y ↔ x = y := by simp [rgnReg]

theorem chpReg_ne_rgnReg {a r x y : Nat} (hx : x < 2 ^ 24) (hy : y < 2 ^ 24) : chpReg a x ≠ rgnReg r y := by
  unfold chpReg rgnReg
  omega

/-- A chip register is one that monitors change exactly where it lies among the chip's monitor registers. -/
theorem signalReg_chpReg {a x : Nat} (ha : a < 8) (hx : x < 2 ^ 20) : signalReg (chpReg a x) ↔ 0x20000 ≤ x ∧ x < 0x30000 := by
  unfold signalReg chpReg
  omega

/-- A region register is one that interrupts and monitors change exactly where it lies in sub-block 0 or 9. -/
theorem signalReg_rgnReg {r x : Nat} (hr : r < 8) (hx : x < 2 ^ 24) :
    signalReg (rgnReg r x) ↔ x < 0x100000 ∨ 0x900000 ≤ x ∧ x < 0xA00000 := by
  unfold signalReg rgnReg
  omega

theorem not_bnot_eq_true {b : Bool} (h : b = true) : ¬ (!b) = true := by simp [h]

namespace Dev

/-! ### What an update leaves as it was

These are proved so that a rewrite with them is a step of the proof: the kernel is never asked to compare two register files, which at a
concrete address would make it compute the address's default. -/

section
variable (d : Dev) (a : Nat) (w : Word) (f : Fld) (v : Nat) (r : Region)

@[simp] theorem A_setFld : (d.setFld f v).A = d.A := (rfl)
@[simp] theorem wire_setFld : (d.setFld f v).wire = d.wire := (rfl)
@[simp] theorem anchorSt_setFld : (d.setFld f v).anchorSt = d.anchorSt := (rfl)
@[simp] theorem anchor_setFld : (d.setFld f v).anchor = d.anchor := (rfl)
@[simp] theorem g_setReg : (d.setReg a w).g r = d.g r := (rfl)
@[simp] theorem g_setFld : (d.setFld f v).g r = d.g r := (rfl)

@[simp] theorem reg_modA (h : AnchorState → AnchorState) : (d.modA h).reg a = d.reg a := (rfl)
@[simp] theorem fld_modA (h : AnchorState → AnchorState) : (d.modA h).fld f = d.fld f := (rfl)
@[simp] theorem on_modA (h : AnchorState → AnchorState) : (d.modA h).on f = d.on f := (rfl)
@[simp] theorem A_modA (h : AnchorState → AnchorState) : (d.modA h).A = d.A := (rfl)
@[simp] theorem anchorSt_modA (h : AnchorState → AnchorState) : (d.modA h).anchorSt = h d.anchorSt := (rfl)
@[simp] theorem A_setOn : (d.setOn f).A = d.A := (rfl)
@[simp] theorem A_clr : (d.clr f).A = d.A := (rfl)
@[simp] theorem reg_modR (h : Rgn → Rgn) : (d.modR r h).reg a = d.reg a := (rfl)
@[simp] theorem fld_modR (h : Rgn → Rgn) : (d.modR r h).fld f = d.fld f := (rfl)
@[simp] theorem A_modR (h : Rgn → Rgn) : (d.modR r h).A = d.A := (rfl)
@[simp] theorem wire_modR (h : Rgn → Rgn) : (d.modR r h).wire = d.wire := (rfl)

theorem setOn_eq : d.setOn f = d.setFld f 1 := (rfl)
theorem clr_eq : d.clr f = d.setFld f 0 := (rfl)

end

/-- Whether a field is on, in terms of what it holds. -/
theorem on_eq_true {d : Dev} {f : Fld} : d.on f = true ↔ d.fld f ≠ 0 := by simp [on]

theorem on_eq_false {d : Dev} {f : Fld} : d.on f = false ↔ d.fld f = 0 := by simp [on]

/-- A one-bit field that was just set is on. -/
theorem on_setFld_one (d : Dev) (f : Fld) (h : f.lo + f.width ≤ 32) (hw : 0 < f.width) : (d.setFld f 1).on f = true := by
  rw [on_eq_true, fld_setFld_same _ _ _ h, Nat.mod_eq_of_lt (Nat.one_lt_two_pow (by omega))]
  exact one_ne_zero

/-! ### Frames of registers, one write after another -/

section
variable {own : Nat → Prop} {d0 d e : Dev} (h : d0.RegsBut own d)
include h

theorem RegsBut.setReg {a : Nat} {w : Word} (ha : own a) : d0.RegsBut own (d.setReg a w) := h.trans (regsBut_setReg d a w ha)
theorem RegsBut.setFld {f : Fld} {v : Nat} (ha : own f.addr) : d0.RegsBut own (d.setFld f v) := h.setReg ha
theorem RegsBut.setOn {f : Fld} (ha : own f.addr) : d0.RegsBut own (d.setOn f) := h.setReg ha
theorem RegsBut.clr {f : Fld} (ha : own f.addr) : d0.RegsBut own (d.clr f) := h.setReg ha
theorem RegsBut.setPair {a b v : Nat} (ha : own a) (hb : own b) : d0.RegsBut own (d.setPair a b v) := (h.setReg ha).setReg hb
theorem RegsBut.regs (he : e.regs = d.regs) : d0.RegsBut own e := h.trans (.of_regs he)
theorem RegsBut.modA {f : AnchorState → AnchorState} : d0.RegsBut own (d.modA f) := h
theorem RegsBut.modR {r : Region} {f : Rgn → Rgn} : d0.RegsBut own (d.modR r f) := h
theorem RegsBut.signalled (he : d.Signalled e) (ho : ∀ a, signalReg a → own a) : d0.RegsBut own e := h.trans (he.2.mono ho)

theorem RegsBut.ite {c : Prop} [Decidable c] (k : d0.RegsBut own e) : d0.RegsBut own (if c then d else e) := by
  split_ifs
  · exact h
  · exact k

theorem RegsBut.when {b : Bool} {f : Dev → Dev} (k : d0.RegsBut own (f d)) : d0.RegsBut own (d.when b f) := .ite k h

/-- An error bit set and its source raised. -/
theorem RegsBut.err {f : Fld} {r : Region} {n : Nat} (ha : own f.addr) (ho : ∀ a, signalReg a → own a) :
    d0.RegsBut own (d.err f r n) := (h.setFld ha).signalled (err_frame d f r n) ho

/-- A field of a register outside the set is as before. -/
theorem RegsBut.fld {f : Fld} (ha : ¬ own f.addr) : d.fld f = d0.fld f := fld_congr f (h _ ha)

end

/-- More registers may be listed. -/
theorem RegsIn.subset {l m : List Nat} {d e : Dev} (h : d.RegsIn l e) (hs : l ⊆ m) : d.RegsBut (· ∈ m) e := h.mono fun _ ha => hs ha

/-- Registers that interrupts and monitors change may change beside those of a list. -/
theorem RegsSig.of_signal {l : List Nat} (a : Nat) (h : signalReg a) : a ∈ l ∨ signalReg a := .inr h

/-! ### Signals leave the registers of another kind, and what else a command reads, as they are -/

section
variable {d e : Dev} (h : d.Signalled e)
include h

theorem Signalled.A : e.A = d.A := congrArg Fin.val h.anchor
theorem Signalled.g_tick (r : Region) : (e.g r).tick = (d.g r).tick := h.1 .tick (by decide) r
theorem Signalled.tick : e.tick = d.tick := by
  unfold Dev.tick
  rw [h.anchor, h.g_tick]
theorem Signalled.on {f : Fld} (ha : ¬ signalReg f.addr) : e.on f = d.on f := congrArg (· != 0) (h.fld ha)

end

section
variable (d : Dev)

/-- A chip register outside the monitors' is none that signals change. -/
theorem not_signalReg_chp {x : Nat} (hx : x < 2 ^ 20) (h : x < 0x20000 ∨ 0x30000 ≤ x) : ¬ signalReg (chpReg d.A x) := by
  rw [signalReg_chpReg d.A_lt hx]
  omega

/-- A region register outside sub-blocks 0 and 9 is none that signals change. -/
theorem not_signalReg_rgn (r : Region) {x : Nat} (hx : x < 2 ^ 24) (h : 0x100000 ≤ x) (h9 : x < 0x900000 ∨ 0xA00000 ≤ x) :
    ¬ signalReg (rgnReg r.val x) := by
  rw [signalReg_rgnReg r.isLt hx]
  omega

/-- An error bit that was just set is on. -/
theorem on_err {f : Fld} (h : f.lo + f.width ≤ 32) (hw : 0 < f.width) (hn : ¬ signalReg f.addr) (r : Region) (n : Nat) :
    (d.err f r n).on f = true := by
  rw [(err_frame d f r n).on hn]
  exact on_setFld_one _ _ h hw

/-- A register beside the error's is as before, unless signals change it. -/
theorem reg_err_ne {f : Fld} {a : Nat} (h : a ≠ f.addr) (hn : ¬ signalReg a) (r : Region) (n : Nat) : (d.err f r n).reg a = d.reg a := by
  rw [(err_frame d f r n).reg hn, reg_setFld_ne _ _ _ _ h]

/-- A field of a register beside the error's is as before, unless signals change it. -/
theorem fld_err_ne {f e : Fld} (h : e.addr ≠ f.addr) (hn : ¬ signalReg e.addr) (r : Region) (n : Nat) : (d.err f r n).fld e = d.fld e :=
  fld_congr e (d.reg_err_ne h hn r n)

theorem reg_setPair_ne {a b v x : Nat} (ha : x ≠ a) (hb : x ≠ b) : (d.setPair a b v).reg x = d.reg x := by
  unfold setPair
  rw [reg_setReg_ne _ _ _ _ hb, reg_setReg_ne _ _ _ _ ha]

theorem reg_setPair_lo {a b v : Nat} (h : a ≠ b) : (d.setPair a b v).reg a = BitVec.ofNat 32 v := by
  unfold setPair
  rw [reg_setReg_ne _ _ _ _ h, reg_setReg_same]

theorem reg_setPair_hi {a b v : Nat} : (d.setPair a b v).reg b = BitVec.ofNat 32 (v / 2 ^ 32) := reg_setReg_same ..

@[simp] theorem A_setPair {a b v : Nat} : (d.setPair a b v).A = d.A := (rfl)
@[simp] theorem anchorSt_setPair {a b v : Nat} : (d.setPair a b v).anchorSt = d.anchorSt := (rfl)

end

/-- A field written after changes that leave the register file alone. -/
theorem Wrote.of_regs {f : Fld} {v : Nat} {d d' e : Dev} (h : Wrote f v d' e) (hd : d'.regs = d.regs) : Wrote f v d e :=
  ⟨h.1, fun i hi => (h.2 i hi).trans (by simp [reg, hd])⟩

/-! ### Counting a command -/

/-- The part with the number of commands counted. It is a function of its own so that a read of it is rewritten, not computed. -/
def withFree (d : Dev) (n : Nat) : Dev := { d with free := n }

section
variable (d e : Dev) (n a : Nat) (f : Fld) (r : Region)

@[simp] theorem reg_withFree : (d.withFree n).reg a = d.reg a := (rfl)
@[simp] theorem fld_withFree : (d.withFree n).fld f = d.fld f := (rfl)
@[simp] theorem on_withFree : (d.withFree n).on f = d.on f := (rfl)
@[simp] theorem g_withFree : (d.withFree n).g r = d.g r := (rfl)
@[simp] theorem byte_withFree : (d.withFree n).byte a = d.byte a := (rfl)
@[simp] theorem mode_withFree : (d.withFree n).mode = d.mode := (rfl)
@[simp] theorem lastCommit_withFree : (d.withFree n).lastCommit = d.lastCommit := (rfl)
@[simp] theorem anchorSt_withFree : (d.withFree n).anchorSt = d.anchorSt := (rfl)
@[simp] theorem wire_withFree : (d.withFree n).wire = d.wire := (rfl)
@[simp] theorem anchor_withFree : (d.withFree n).anchor = d.anchor := (rfl)

@[simp] theorem regsIn_withFree {l : List Nat} : d.RegsIn l (e.withFree n) ↔ d.RegsIn l e := .rfl
@[simp] theorem regsSig_withFree {l : List Nat} : d.RegsSig l (e.withFree n) ↔ d.RegsSig l e := .rfl
@[simp] theorem wrote_withFree {v : Nat} : Wrote f v d (e.withFree n) ↔ Wrote f v d e := .rfl

end

end Dev

/-- A total command is carried out by what its effect makes of the part. -/
theorem Carried.of_run_eq {c : Instr} {s : State} {l : List Part} {P : Dev → Prop} {f : Dev → Dev} {d : Dev} (hx : exec c s = s.run f)
    (hf : f s.dev = d) (ho : s.dev.OnlyIn l d) (hp : P (d.withFree (s.dev.free + 1))) : Carried c s l P := by
  subst hf
  exact .run hx ho hp

/-- A total command is carried out. -/
theorem Carried.of_run {c : Instr} {s : State} {l : List Part} {P : Dev → Prop} {f : Dev → Dev} (hx : exec c s = s.run f)
    (ho : s.dev.OnlyIn l (f s.dev)) (hp : P ((f s.dev).withFree (s.dev.free + 1))) : Carried c s l P := .run hx ho hp

/-- A command whose effect answers a part is carried out. -/
theorem Carried.of_doing {c : Instr} {s : State} {l : List Part} {P : Dev → Prop} {f : Dev → Res} {d : Dev}
    (hx : exec c s = s.doing f) (hf : f s.dev = .next d) (ho : s.dev.OnlyIn l d) (hp : P (d.withFree (s.dev.free + 1))) :
    Carried c s l P := .doing hx hf ho hp

/-- A message in its turn is taken off the wire and acted on. -/
theorem Carried.of_deliver {c : Instr} {s : State} {l : List Part} {P : Dev → Prop} {src dst : Nat} {m : Msg} {f : Dev → Res} {d : Dev}
    (hx : exec c s = s.deliver src dst m f) (hm : s.dev.inTurn src dst m = true) (hf : f (s.dev.receive src dst m) = .next d)
    (ho : s.dev.OnlyIn l d) (hp : P (d.withFree (s.dev.free + 1))) : Carried c s l P :=
  .of_doing hx ((if_pos hm).trans hf) ho hp

/-- A message in its turn is taken off the wire and acted on by a total effect. -/
theorem Carried.of_deliverAll {c : Instr} {s : State} {l : List Part} {P : Dev → Prop} {src dst : Nat} {m : Msg} {f : Dev → Dev}
    (hx : exec c s = s.deliverAll src dst m f) (hm : s.dev.inTurn src dst m = true)
    (ho : s.dev.OnlyIn l (f (s.dev.receive src dst m))) (hp : P ((f (s.dev.receive src dst m)).withFree (s.dev.free + 1))) :
    Carried c s l P :=
  .of_deliver hx hm rfl ho hp

/-- A message in its turn is taken off the wire, and its effect makes of the part what is named. -/
theorem Carried.of_deliverAll_eq {c : Instr} {s : State} {l : List Part} {P : Dev → Prop} {src dst : Nat} {m : Msg} {f : Dev → Dev} {d : Dev}
    (hx : exec c s = s.deliverAll src dst m f) (hm : s.dev.inTurn src dst m = true) (hf : f (s.dev.receive src dst m) = d)
    (ho : s.dev.OnlyIn l d) (hp : P (d.withFree (s.dev.free + 1))) : Carried c s l P := by
  subst hf
  exact .of_deliverAll hx hm ho hp

end Sys2Proof.Machine

namespace Sys2Proof.Machine
namespace Dev

/-! ### A write of CHP_SHUTTER_CTL (R83, R86) -/

/-- What a write of CHP_SHUTTER_CTL does at any time: pps_edge and ptp_lock, and the state of the lock. -/
def shutterCtlBits (d : Dev) (v : Nat) : Dev :=
  let e := (d.setFld (CHP_SHUTTER_CTL_pps_edge d.A) (bitsOf v 5 5)).setFld (CHP_SHUTTER_CTL_ptp_lock d.A) (bitsOf v 4 4)
  if bitOf v 4 then e else ((e.clr (CHP_SHUTTER_STAT_locked d.A)).clr (CHP_SHUTTER_STAT_locking d.A)).modA fun x => { x with phase := 0 }

section
variable (d : Dev) (v : Nat)

/-- A write of CHP_SHUTTER_CTL is that of its two bits, and then of the period, which waits or is rejected. -/
theorem shutterCtlWrite_eq : d.shutterCtlWrite v = if (d.shutterCtlBits v).mode = .configure
    then (d.shutterCtlBits v).modA (fun x => { x with periodDue := some (v % 4) })
    else (d.shutterCtlBits v).setOn (CHP_COMMIT_ERR_period_rejected d.A) := rfl

theorem regsIn_shutterCtlBits : d.RegsIn [CHP_SHUTTER_CTL d.A, CHP_SHUTTER_STAT d.A] (d.shutterCtlBits v) := by
  unfold shutterCtlBits
  dsimp only
  split_ifs
  · exact ((RegsBut.refl _ d).setFld (by simp [CHP_SHUTTER_CTL_pps_edge])).setFld (by simp [CHP_SHUTTER_CTL_ptp_lock])
  · exact ((((RegsBut.refl _ d).setFld (by simp [CHP_SHUTTER_CTL_pps_edge])).setFld (by simp [CHP_SHUTTER_CTL_ptp_lock])).clr
      (by simp [CHP_SHUTTER_STAT_locked])).clr (by simp [CHP_SHUTTER_STAT_locking]) |>.modA

theorem periodDue_shutterCtlBits : (d.shutterCtlBits v).anchorSt.periodDue = d.anchorSt.periodDue := by
  unfold shutterCtlBits
  dsimp only
  split_ifs <;> simp only [clr_eq, anchorSt_modA, anchorSt_setFld]

theorem A_shutterCtlBits : (d.shutterCtlBits v).A = d.A := by
  unfold shutterCtlBits
  dsimp only
  split_ifs <;> simp [clr_eq]

theorem mode_shutterCtlBits : (d.shutterCtlBits v).mode = d.mode := by
  unfold mode
  rw [A_shutterCtlBits]
  exact congrArg _ ((regsIn_shutterCtlBits d v).fld (by simp [CHP_MODE_STAT_effective, CHP_MODE_STAT, CHP_SHUTTER_CTL, CHP_SHUTTER_STAT, chpReg_inj]))

theorem fld_shutterCtlBits :
    (d.shutterCtlBits v).fld (CHP_SHUTTER_CTL_pps_edge d.A) = bitsOf v 5 5
      ∧ (d.shutterCtlBits v).fld (CHP_SHUTTER_CTL_ptp_lock d.A) = bitsOf v 4 4
      ∧ (d.shutterCtlBits v).fld (CHP_SHUTTER_CTL_period d.A) = d.fld (CHP_SHUTTER_CTL_period d.A) := by
  unfold shutterCtlBits
  dsimp only
  split_ifs <;>
    simp [clr_eq, fld_setFld_ne, fld_setFld_beside, fld_setFld_same, CHP_SHUTTER_CTL_pps_edge, CHP_SHUTTER_CTL_period,
      CHP_SHUTTER_CTL, CHP_SHUTTER_STAT, CHP_SHUTTER_CTL_ptp_lock, CHP_SHUTTER_STAT_locked, CHP_SHUTTER_STAT_locking,
      chpReg_inj, bitsOf]

theorem lock_shutterCtlBits (h : bitOf v 4 = false) :
    (d.shutterCtlBits v).on (CHP_SHUTTER_STAT_locked d.A) = false ∧ (d.shutterCtlBits v).on (CHP_SHUTTER_STAT_locking d.A) = false := by
  simp [shutterCtlBits, h, on_eq_false, clr_eq, fld_setFld_beside, fld_setFld_same, CHP_SHUTTER_STAT_locked,
    CHP_SHUTTER_STAT_locking]

end
end Dev

/-- Settles O12: the bits of any time first, and then the period by the mode. -/
theorem shutterControlIsWritten : Obligations.ShutterControlIsWritten := by
  intro value s
  obtain ⟨hedge, hlock, hperiod⟩ := s.dev.fld_shutterCtlBits value.toNat
  have hregs := s.dev.regsIn_shutterCtlBits value.toNat
  refine .of_run (f := fun d => d.shutterCtlWrite value.toNat) rfl ((Dev.Kept.refl _ _).shutterCtlWrite fun _ => id).1 ?_
  rw [Dev.shutterCtlWrite_eq, Dev.mode_shutterCtlBits]
  by_cases hm : s.dev.mode = .configure
  · simp only [hm, if_true, Dev.fld_withFree, Dev.on_withFree, Dev.anchorSt_withFree, Dev.regsIn_withFree, Dev.fld_modA,
      Dev.on_modA, Dev.anchorSt_modA]
    exact ⟨hedge, hlock, hperiod, s.dev.lock_shutterCtlBits _, fun _ => ⟨trivial, hregs.regs rfl⟩, fun h => absurd rfl h⟩
  · simp only [hm, if_false, Dev.fld_withFree, Dev.on_withFree, Dev.anchorSt_withFree, Dev.regsIn_withFree]
    have hne : (CHP_COMMIT_ERR_period_rejected s.dev.A).addr ∉ [CHP_SHUTTER_CTL s.dev.A, CHP_SHUTTER_STAT s.dev.A] := by
      simp [CHP_COMMIT_ERR_period_rejected, CHP_COMMIT_ERR, CHP_SHUTTER_CTL, CHP_SHUTTER_STAT, chpReg_inj]
    have hctl (f : Fld) (hf : f.addr ∈ [CHP_SHUTTER_CTL s.dev.A, CHP_SHUTTER_STAT s.dev.A]) (e : Dev) :
        (e.setOn (CHP_COMMIT_ERR_period_rejected s.dev.A)).fld f = e.fld f := Dev.fld_setFld_ne _ _ _ _ fun h => hne (h ▸ hf)
    simp only [Dev.on_eq_false, Dev.on_eq_true]
    rw [hctl _ (by simp [CHP_SHUTTER_CTL_pps_edge]), hctl _ (by simp [CHP_SHUTTER_CTL_ptp_lock]),
      hctl _ (by simp [CHP_SHUTTER_CTL_period]), hctl _ (by simp [CHP_SHUTTER_STAT_locked]),
      hctl _ (by simp [CHP_SHUTTER_STAT_locking]), ← Dev.on_eq_false, ← Dev.on_eq_false, ← Dev.on_eq_true]
    refine ⟨hedge, hlock, hperiod, s.dev.lock_shutterCtlBits _, False.elim, fun _ => ⟨?_, ?_, ?_⟩⟩
    · rw [Dev.setOn_eq, Dev.anchorSt_setFld, Dev.periodDue_shutterCtlBits]
    · exact Dev.on_setFld_one _ _ (by simp [CHP_COMMIT_ERR_period_rejected]) (by simp [CHP_COMMIT_ERR_period_rejected])
    · exact (hregs.subset (by simp)).setOn (by simp [CHP_COMMIT_ERR_period_rejected])
end Sys2Proof.Machine

namespace Sys2Proof.Machine
namespace Dev

section
variable (d : Dev)

/-! ### PTP time (R711) -/

/-- The registers that show PTP time. -/
def ptpRegs (a : Nat) : List Nat :=
  [CHP_PTP_SEC_LO a, CHP_PTP_SEC_HI a, CHP_PTP_NS a, CHP_PTP_BASE_LO a, CHP_PTP_BASE_HI a, CHP_PTP_CTL a]

theorem regsBut_setPtpBase (tick : Nat) (ns : Int) : d.RegsBut (· ∈ ptpRegs d.A) (d.setPtpBase tick ns) := by
  unfold setPtpBase
  exact ((((RegsBut.refl _ d).modA.setPair (by simp [ptpRegs]) (by simp [ptpRegs])).setFld (by simp [ptpRegs, CHP_PTP_NS_ns])).setPair
    (by simp [ptpRegs]) (by simp [ptpRegs])).setOn (by simp [ptpRegs, CHP_PTP_CTL_valid])

theorem anchorSt_setPtpBase (tick : Nat) (ns : Int) : (d.setPtpBase tick ns).anchorSt
    = { d.anchorSt with ptpBase := (tick % 2 ^ 48, ns.toNat / 10 ^ 9 % 2 ^ 48, ns.toNat % 10 ^ 9) } := by
  simp only [setPtpBase, setOn_eq, anchorSt_setFld, anchorSt_setPair, anchorSt_modA]

/-- A chip register outside those of PTP time is as before. -/
theorem not_mem_ptpRegs {a x : Nat} (h : x < 0x30060 ∨ 0x30078 ≤ x) : chpReg a x ∉ ptpRegs a := by
  simp only [ptpRegs, CHP_PTP_SEC_LO, CHP_PTP_SEC_HI, CHP_PTP_NS, CHP_PTP_BASE_LO, CHP_PTP_BASE_HI, CHP_PTP_CTL, List.mem_cons,
    chpReg_inj, List.not_mem_nil, or_false]
  omega


end
end Dev

section
variable {s : State} {gap : Nat} {phase : Int}

/-- An edge that is not one second after the last is ignored. -/
theorem ppsEdge_invalid_carried (hs : s.dev.anchorSt.ppsSeen = true) (hg : gap + 10 ^ 6 < 10 ^ 12 ∨ 10 ^ 12 + 10 ^ 6 < gap) :
    Carried (.ppsEdge gap phase) s [] fun _ => True := by
  have hv : (!s.dev.anchorSt.ppsSeen || (10 ^ 12 ≤ gap + 10 ^ 6 && gap ≤ 10 ^ 12 + 10 ^ 6)) = false := by
    rw [hs]
    simp only [Bool.not_true, Bool.false_or, Bool.and_eq_false_iff, decide_eq_false_iff_not]
    omega
  have hx : exec (.ppsEdge gap phase) s = execPpsEdge gap phase s := rfl
  unfold execPpsEdge at hx
  refine .of_run hx ?_ trivial
  simp only [hv, Bool.not_false, if_true]
  exact .refl _ _

/-- The part after a valid edge is seen. -/
def Dev.withEdge (d : Dev) : Dev := (d.modA fun x => { x with ppsSeen := true }).cevent 0x306 0

theorem Dev.signalled_withEdge (d : Dev) : (d.modA fun x => { x with ppsSeen := true }).Signalled d.withEdge := signalled_cevent ..

/-- The part after the shutter of tick `t` is captured and dated with the whole second nearest to it. -/
def Dev.datedAt (d : Dev) (a t : Nat) : Dev :=
  let e := d.setPair (CHP_PPS_TICK_LO a) (CHP_PPS_TICK_HI a) t
  e.setPtpBase t ((e.ptpTime t + 5 * 10 ^ 8) / 10 ^ 9 * 10 ^ 9)

theorem Dev.anchorSt_datedAt (d : Dev) (a t : Nat) : (d.datedAt a t).anchorSt = { d.anchorSt with ptpBase := (t % 2 ^ 48,
    (((d.setPair (CHP_PPS_TICK_LO a) (CHP_PPS_TICK_HI a) t).ptpTime t + 5 * 10 ^ 8) / 10 ^ 9 * 10 ^ 9).toNat / 10 ^ 9 % 2 ^ 48,
    (((d.setPair (CHP_PPS_TICK_LO a) (CHP_PPS_TICK_HI a) t).ptpTime t + 5 * 10 ^ 8) / 10 ^ 9 * 10 ^ 9).toNat % 10 ^ 9) } := by
  unfold datedAt
  dsimp only
  rw [anchorSt_setPtpBase, anchorSt_setPair]

/-- Outside the registers of PTP time, only the captured tick is written. -/
theorem Dev.reg_datedAt (d : Dev) {a x : Nat} (t : Nat) (ha : d.A = a) (hx : x < 0x30060 ∨ 0x30078 ≤ x) : (d.datedAt a t).reg (chpReg a x)
    = (d.setPair (CHP_PPS_TICK_LO a) (CHP_PPS_TICK_HI a) t).reg (chpReg a x) := by
  unfold datedAt
  refine regsBut_setPtpBase _ t _ _ ?_
  rw [A_setPair, ha]
  exact not_mem_ptpRegs hx

/-- A valid edge while the part follows its PPS and is locked dates the PTP time. -/
theorem ppsEdge_locked_carried (hv : s.dev.anchorSt.ppsSeen = false ∨ (10 ^ 12 ≤ gap + 10 ^ 6 ∧ gap ≤ 10 ^ 12 + 10 ^ 6)) (hp : 0 ≤ phase)
    (hptp : s.dev.on (CHP_SHUTTER_CTL_ptp_lock s.dev.A) = true) (hlocked : s.dev.on (CHP_SHUTTER_STAT_locked s.dev.A) = true) :
    Carried (.ppsEdge gap phase) s [.regs, .wire, .ctxs, .anchorSt] fun e =>
      e.reg (CHP_PPS_TICK_LO s.dev.A) = BitVec.ofNat 32 s.dev.tick ∧ e.reg (CHP_PPS_TICK_HI s.dev.A) = BitVec.ofNat 32 (s.dev.tick / 2 ^ 32)
        ∧ e.anchorSt.ptpBase.1 = s.dev.tick % 2 ^ 48 ∧ e.anchorSt.ptpBase.2.2 = 0 ∧ e.anchorSt.ppsSeen = true
        ∧ e.on (CHP_SHUTTER_STAT_locked s.dev.A) = true := by
  have hv' : (!s.dev.anchorSt.ppsSeen || (10 ^ 12 ≤ gap + 10 ^ 6 && gap ≤ 10 ^ 12 + 10 ^ 6)) = true := by
    simpa using hv
  have hS := s.dev.signalled_withEdge
  have hA : s.dev.withEdge.A = s.dev.A := hS.A
  have hphase : ¬ phase < 0 := by omega
  have htick : s.dev.withEdge.tick = s.dev.tick := hS.tick
  have h1 : s.dev.withEdge.on (CHP_SHUTTER_CTL_ptp_lock s.dev.A) = true :=
    (hS.on (s.dev.not_signalReg_chp (by norm_num) (by norm_num))).trans hptp
  have h2 : s.dev.withEdge.on (CHP_SHUTTER_STAT_locked s.dev.A) = true :=
    (hS.on (s.dev.not_signalReg_chp (by norm_num) (by norm_num))).trans hlocked
  have hx : exec (.ppsEdge gap phase) s = execPpsEdge gap phase s := rfl
  unfold execPpsEdge at hx
  have ht : (s.dev.withEdge.modA fun x => { x with phase }).tick = s.dev.tick := htick
  refine .of_run_eq (d := (s.dev.withEdge.modA fun x => { x with phase }).datedAt s.dev.A s.dev.tick) hx ?_ ?_ ?_
  · refine (if_neg (not_bnot_eq_true hv')).trans ((if_neg (not_bnot_eq_true h1)).trans ((if_pos h2).trans ?_))
    rw [if_neg hphase]
    exact congrArg (fun t => ((s.dev.withEdge.modA fun x => { x with phase }).datedAt s.dev.A t)) ht
  · exact (((((Dev.Kept.refl _ _).modA (by decide)).cevent (by decide)).modA (by decide)).setPair (by decide)).setPtpBase (by decide) |>.1
  · have hreg (x : Nat) (hx : x < 0x30060 ∨ 0x30078 ≤ x) := Dev.reg_datedAt (s.dev.withEdge.modA fun x => { x with phase })
      s.dev.tick hA hx
    have hst := hS.anchorSt
    simp only [Dev.reg_withFree, Dev.anchorSt_withFree, Dev.on_withFree, Dev.anchorSt_datedAt, Dev.anchorSt_modA]
    refine ⟨?_, ?_, trivial, ?_, ?_, ?_⟩
    · rw [CHP_PPS_TICK_LO, hreg _ (by norm_num)]
      exact Dev.reg_setPair_lo _ (by simp [CHP_PPS_TICK_LO, CHP_PPS_TICK_HI, chpReg_inj])
    · rw [CHP_PPS_TICK_HI, hreg _ (by norm_num)]
      exact Dev.reg_setPair_hi _
    · omega
    · exact congrArg AnchorState.ppsSeen hst
    · rw [Dev.on_eq_true, Dev.fld_congr (e := s.dev.withEdge), ← Dev.on_eq_true]
      · exact h2
      · refine (hreg 0x30004 (by norm_num)).trans ((Dev.reg_setPair_ne _ ?_ ?_).trans (Dev.reg_modA _ _ _)) <;>
          simp [CHP_PPS_TICK_LO, CHP_PPS_TICK_HI, chpReg_inj]

/-- The part after the lock is lost, before the source of the loss arrives. -/
def Dev.unlocked (d : Dev) : Dev :=
  (((d.modA fun x => { x with ppsSeen := false, phase := 0 }).clr (CHP_SHUTTER_STAT_locked d.A)).clr
    (CHP_SHUTTER_STAT_locking d.A)).setOn (CHP_SHUTTER_STAT_lock_lost d.A)

theorem Dev.fld_unlocked (d : Dev) : d.unlocked.fld (CHP_SHUTTER_STAT_locked d.A) = 0
    ∧ d.unlocked.fld (CHP_SHUTTER_STAT_locking d.A) = 0 ∧ d.unlocked.fld (CHP_SHUTTER_STAT_lock_lost d.A) = 1 := by
  simp [unlocked, setOn_eq, clr_eq, fld_setFld_same, fld_setFld_beside, CHP_SHUTTER_STAT_locked, CHP_SHUTTER_STAT_locking,
    CHP_SHUTTER_STAT_lock_lost]

theorem Dev.anchorSt_unlocked (d : Dev) : d.unlocked.anchorSt = { d.anchorSt with ppsSeen := false, phase := 0 } := by
  simp only [unlocked, setOn_eq, clr_eq, anchorSt_setFld, anchorSt_modA]

theorem Dev.regsBut_unlocked (d : Dev) {own : Nat → Prop} (h : own (CHP_SHUTTER_STAT d.A)) : d.RegsBut own d.unlocked := by
  unfold unlocked
  exact (((RegsBut.refl _ d).modA.clr h).clr h).setOn h

/-- Losing the PPS while locked clears the lock. -/
theorem ppsLockLost_carried (hlocked : s.dev.on (CHP_SHUTTER_STAT_locked s.dev.A) = true) :
    Carried .ppsLockLost s [.regs, .wire, .ctxs, .anchorSt] fun e =>
      e.on (CHP_SHUTTER_STAT_locked s.dev.A) = false ∧ e.on (CHP_SHUTTER_STAT_locking s.dev.A) = false
        ∧ e.on (CHP_SHUTTER_STAT_lock_lost s.dev.A) = true ∧ e.anchorSt = { s.dev.anchorSt with ppsSeen := false, phase := 0 }
        ∧ s.dev.RegsSig [CHP_SHUTTER_STAT s.dev.A] e := by
  have hx : exec .ppsLockLost s = execPpsLockLost s := rfl
  unfold execPpsLockLost at hx
  have hS := Dev.signalled_raise s.dev.unlocked s.dev.anchor 0x3E3
  have hn : ¬ signalReg (CHP_SHUTTER_STAT s.dev.A) := s.dev.not_signalReg_chp (by norm_num) (by norm_num)
  obtain ⟨h1, h2, h3⟩ := s.dev.fld_unlocked
  refine .of_run_eq (d := s.dev.unlocked.raise s.dev.anchor 0x3E3) hx ?_ ?_ ?_
  · exact if_pos (Bool.or_eq_true _ _ ▸ .inl hlocked)
  · exact ((((Dev.Kept.refl _ _).modA (by decide)).clr (by decide)).clr (by decide)).setOn (by decide) |>.raise (by decide) |>.1
  · simp only [Dev.on_withFree, Dev.anchorSt_withFree, Dev.regsSig_withFree, Dev.on_eq_false, Dev.on_eq_true]
    rw [hS.fld hn, hS.fld hn, hS.fld hn, hS.anchorSt]
    exact ⟨h1, h2, h3 ▸ one_ne_zero, s.dev.anchorSt_unlocked,
      (s.dev.regsBut_unlocked (by simp)).signalled hS Dev.RegsSig.of_signal⟩

end

/-- Settles O14, clause by clause. -/
theorem ppsEdgesAndTheirLoss : Obligations.PpsEdgesAndTheirLoss :=
  ⟨fun _ _ _ => ppsEdge_invalid_carried, fun _ _ _ => ppsEdge_locked_carried, fun _ => ppsLockLost_carried⟩

end Sys2Proof.Machine

namespace Sys2Proof.Machine
namespace Dev

/-! ### Panes: sessions and rejections (R217–R220, R246, R248) -/

section
variable (d : Dev) (r : Region)

theorem front_modFront_same (h : FrontState → FrontState) : ((d.modFront r h).g r).front = h (d.g r).front := by
  rw [modFront, g_modR_same]

@[simp] theorem g_showSession (q : Region) : (d.showSession r).g q = d.g q := g_setFld ..

theorem RegsBut.showSession {own : Nat → Prop} {d0 d : Dev} {r : Region} (h : d0.RegsBut own d) (hr : own (RGN_PANE_WR r.val)) :
    d0.RegsBut own (d.showSession r) := h.setFld hr

/-- in_progress shows whether a session is open or a check code is computed. -/
theorem on_showSession : (d.showSession r).on (RGN_PANE_WR_in_progress r.val)
    = ((d.g r).front.session.isSome || (d.g r).front.codeBusy != []) := by
  rw [showSession, on, fld_setFld_same _ _ _ (by simp [RGN_PANE_WR_in_progress])]
  split_ifs with h <;> simp [h, RGN_PANE_WR_in_progress]

/-- The state of a pane stands where another register than RGN_PANE_STAT is written. -/
theorem paneState_setFld {f : Fld} (h : RGN_PANE_STAT r.val ≠ f.addr) (v p : Nat) :
    (d.setFld f v).paneState r.val p = d.paneState r.val p := by
  unfold paneState
  rw [fld_setFld_ne _ _ _ _ (by exact h), fld_setFld_ne _ _ _ _ (by exact h)]

theorem not_signalReg_prkRej : ¬ signalReg (RGN_PRK_REJ r.val) := not_signalReg_rgn r (by norm_num) (by norm_num) (by norm_num)
theorem not_signalReg_feErr : ¬ signalReg (RGN_FE_ERR r.val) := not_signalReg_rgn r (by norm_num) (by norm_num) (by norm_num)

/-- A rejection changes RGN_PRK_REJ and the error's register, beside what its source changes. -/
theorem regsSig_prkRej {f : Fld} (h : f.addr = RGN_FE_ERR r.val) (cause pane kind index : Nat) :
    d.RegsSig [RGN_PRK_REJ r.val, RGN_FE_ERR r.val] (d.prkRej r f cause pane kind index) :=
  ((RegsBut.refl _ d).setReg (by simp)).err (by simp [h]) RegsSig.of_signal

/-- What RGN_PRK_REJ holds after a rejection. -/
theorem reg_prkRej {f : Fld} (h : f.addr = RGN_FE_ERR r.val) (cause pane kind index : Nat) :
    (d.prkRej r f cause pane kind index).reg (RGN_PRK_REJ r.val)
      = BitVec.ofNat 32 (cause * 2 ^ 28 + pane % 2 * 2 ^ 16 + kind % 4 * 2 ^ 12 + index % 2 ^ 11) := by
  rw [prkRej, reg_err_ne _ (by simp [h, RGN_PRK_REJ, RGN_FE_ERR, rgnReg_inj]) (not_signalReg_prkRej r), reg_setReg_same]

theorem fld_prkRej {f : Fld} (h : f.addr = RGN_FE_ERR r.val) {cause pane kind index : Nat} (hc : cause < 16) :
    (d.prkRej r f cause pane kind index).fld (RGN_PRK_REJ_cause r.val) = cause
      ∧ (d.prkRej r f cause pane kind index).fld (RGN_PRK_REJ_kind r.val) = kind % 4
      ∧ (d.prkRej r f cause pane kind index).fld (RGN_PRK_REJ_index r.val) = index % 2 ^ 11 := by
  simp only [fld, RGN_PRK_REJ_cause, RGN_PRK_REJ_kind, RGN_PRK_REJ_index, reg_prkRej d r h, fieldOf, BitVec.toNat_ofNat]
  omega

theorem on_prkRej {f : Fld} (h : f.addr = RGN_FE_ERR r.val) (hl : f.lo + f.width ≤ 32) (hw : 0 < f.width) (cause pane kind index : Nat) :
    (d.prkRej r f cause pane kind index).on f = true :=
  on_err _ hl hw (h ▸ not_signalReg_feErr r) r _

end
end Dev

section
variable {s : State} {r : Region}

/-- A division in range and in its time waits for the shutter. -/
theorem clsDivWrite_carried {pane : Fin 2} {value : Word}
    (hv : 1 ≤ fieldOf value 0 4 ∧ fieldOf value 0 4 ≤ 8 ∧ fieldOf value 8 7 ≤ 93 ∧ 1 ≤ fieldOf value 15 5 ∧ fieldOf value 15 5 ≤ 16
      ∧ fieldOf value 20 6 ≤ 32 ∧ 1 + fieldOf value 0 4 + fieldOf value 8 7 + fieldOf value 15 5 + fieldOf value 20 6 ≤ 96)
    (hm : (s.dev.g r).mode = .configure) (hs : (s.dev.g r).front.session ≠ some pane.val)
    (hb : pane.val ∉ (s.dev.g r).front.codeBusy) : Carried (.clsDivWrite r pane value) s [.front] fun e =>
      (pane.val, value &&& 0x03FFFF0F#32) ∈ (e.g r).front.pendingDiv ∧ ∀ a, e.reg a = s.dev.reg a := by
  obtain ⟨h1, h2, h3, h4, h5, h6, h7⟩ := hv
  have hx : exec (.clsDivWrite r pane value) s = execClsDivWrite r pane value s := rfl
  refine .of_run_eq (d := s.dev.modFront r fun f =>
    { f with pendingDiv := f.pendingDiv.filter (·.1 != pane.val) ++ [(pane.val, value &&& 0x03FFFF0F#32)] }) hx ?_
    ((Dev.Kept.refl _ _).modFront fun _ => id).1 ⟨?_, fun a => ?_⟩
  · unfold Dev.divWrite
    exact congrArg Prod.fst (if_pos (by simp [h1, h2, h3, h4, h5, h6, h7, hm, hs, hb]))
  · rw [Dev.g_withFree, Dev.front_modFront_same]
    exact List.mem_append_right _ List.mem_cons_self
  · rw [Dev.reg_withFree, Dev.modFront, Dev.reg_modR]

/-- A session opens on a pane that may be written. -/
theorem paneWrOpen_carried {pane : Fin 2} (hs : (s.dev.g r).front.session = none) (hb : (s.dev.g r).front.codeBusy = [])
    (hw : s.dev.paneWritable r pane.val = true) (hn : s.dev.anchorSt.swapAt = none) :
    Carried (.paneWrOpen r pane) s [.regs, .front] fun e =>
      (e.g r).front = { (s.dev.g r).front with session := some pane.val } ∧ e.fld (RGN_PANE_WR_pane r.val) = pane.val
        ∧ e.on (RGN_PANE_WR_in_progress r.val) = true ∧ s.dev.RegsIn [RGN_PANE_WR r.val] e := by
  have hx : exec (.paneWrOpen r pane) s = execPaneWrOpen r pane s := rfl
  have hpane : (s.dev.setFld (RGN_PANE_WR_pane r.val) pane.val).fld (RGN_PANE_WR_pane r.val) = pane.val := by
    rw [Dev.fld_setFld_same _ _ _ (by simp [RGN_PANE_WR_pane])]
    exact Nat.mod_eq_of_lt pane.isLt
  have hshown : (s.dev.setFld (RGN_PANE_WR_pane r.val) pane.val).shownPane r = pane.val := by
    unfold Dev.shownPane
    rw [Dev.g_setFld, hs, hb]
    exact hpane
  have hw' : (s.dev.setFld (RGN_PANE_WR_pane r.val) pane.val).paneWritable r pane.val = true := by
    rw [Dev.paneWritable, Dev.paneState_setFld _ _ (by simp [RGN_PANE_WR_pane, RGN_PANE_WR, RGN_PANE_STAT, rgnReg_inj]), Dev.g_setFld]
    exact hw
  refine .of_run_eq (d := (((s.dev.setFld (RGN_PANE_WR_pane r.val) pane.val).modFront r fun f => { f with session := some pane.val }).showSession r))
    hx ?_ ((((Dev.Kept.refl _ _).setFld (by decide)).modFront (by decide)).showSession (by decide)).1 ?_
  · dsimp only
    rw [if_pos ⟨Option.isNone_iff_eq_none.2 hs, hb⟩, hshown, Dev.paneOpen, if_neg (by
      rw [hw', Dev.g_setFld, hs, Dev.anchorSt_setFld, hn]
      exact Bool.false_ne_true)]
  · rw [Dev.g_withFree, Dev.g_showSession, Dev.front_modFront_same, Dev.g_setFld, Dev.fld_withFree, Dev.on_withFree,
      Dev.on_showSession, Dev.front_modFront_same, Dev.regsIn_withFree]
    refine ⟨rfl, ?_, rfl, ((Dev.RegsBut.refl _ _).setFld (by simp [RGN_PANE_WR_pane])).modR.showSession (by simp)⟩
    rw [Dev.showSession, Dev.fld_setFld_beside _ _ _ _ (by simp [RGN_PANE_WR_in_progress]) (by simp [RGN_PANE_WR_in_progress, RGN_PANE_WR_pane]),
      Dev.modFront, Dev.fld_modR, hpane]

/-- A session closes where the pane passes its checks, and its check code is computed. -/
theorem paneWrClose_carried {pane : Nat} (hs : (s.dev.g r).front.session = some pane) (hp : s.dev.prickFails r.val pane = none)
    (hst : s.dev.storeFails r.val pane = none) : Carried (.paneWrClose r) s [.regs, .front] fun e =>
      (e.g r).front.session = none ∧ pane ∈ (e.g r).front.codeBusy ∧ e.on (RGN_PANE_WR_in_progress r.val) = true
        ∧ s.dev.RegsIn [RGN_PANE_WR r.val] e := by
  have hx : exec (.paneWrClose r) s = execPaneWrClose r s := rfl
  refine .of_run_eq (d := (s.dev.modFront r fun f => { f with session := none, saved := [] }).startCode r pane) hx ?_
    (((Dev.Kept.refl _ _).modFront (by decide)).startCode fun _ => id).1 ?_
  · simp only [Dev.paneClose, hs, hp, hst]
  · rw [Dev.g_withFree, Dev.on_withFree, Dev.startCode, Dev.g_showSession, Dev.on_showSession, Dev.front_modFront_same,
      Dev.front_modFront_same, Dev.regsIn_withFree]
    exact ⟨rfl, by simp, by simp, (Dev.RegsBut.refl _ _).modR.modR.showSession (by simp)⟩

/-- A session stays open where a node or the header of its pane fails, and RGN_PRK_REJ names it. -/
theorem paneWrClose_prick_carried {pane kind i : Nat} (hs : (s.dev.g r).front.session = some pane)
    (hp : s.dev.prickFails r.val pane = some (kind, i)) (hk : kind < 4) (hi : i < 2048) :
    Carried (.paneWrClose r) s [.regs, .wire, .ctxs] fun e =>
      e.on (RGN_FE_ERR_close_failed r.val) = true ∧ e.fld (RGN_PRK_REJ_cause r.val) = 3 ∧ e.fld (RGN_PRK_REJ_kind r.val) = kind
        ∧ e.fld (RGN_PRK_REJ_index r.val) = i ∧ s.dev.RegsSig [RGN_PRK_REJ r.val, RGN_FE_ERR r.val] e := by
  have hx : exec (.paneWrClose r) s = execPaneWrClose r s := rfl
  obtain ⟨hcause, hkind, hindex⟩ := s.dev.fld_prkRej r (f := RGN_FE_ERR_close_failed r.val) rfl (cause := 3) (pane := pane)
    (kind := kind) (index := i) (by norm_num)
  rw [Nat.mod_eq_of_lt hk] at hkind
  rw [Nat.mod_eq_of_lt (b := 2 ^ 11) hi] at hindex
  refine .of_run_eq (d := s.dev.prkRej r (RGN_FE_ERR_close_failed r.val) 3 pane kind i) hx (by simp only [Dev.paneClose, hs, hp])
    ((Dev.Kept.refl _ _).prkRej fun _ => id).1 ?_
  simp only [Dev.on_withFree, Dev.fld_withFree, Dev.regsSig_withFree]
  exact ⟨s.dev.on_prkRej r rfl (by simp [RGN_FE_ERR_close_failed]) (by simp [RGN_FE_ERR_close_failed]) .., hcause, hkind, hindex,
      s.dev.regsSig_prkRej r rfl _ _ _ _⟩

/-- A close without a session is rejected. -/
theorem paneWrClose_none_carried (hs : (s.dev.g r).front.session = none) : Carried (.paneWrClose r) s [.regs, .wire, .ctxs] fun e =>
    e.on (RGN_FE_ERR_write_rejected r.val) = true ∧ e.fld (RGN_PRK_REJ_cause r.val) = 6
      ∧ s.dev.RegsSig [RGN_PRK_REJ r.val, RGN_FE_ERR r.val] e := by
  have hx : exec (.paneWrClose r) s = execPaneWrClose r s := rfl
  refine .of_run_eq (d := s.dev.prkRej r (RGN_FE_ERR_write_rejected r.val) 6 (s.dev.shownPane r) 0 0) hx
    (by simp only [Dev.paneClose, hs]) ((Dev.Kept.refl _ _).prkRej fun _ => id).1 ?_
  simp only [Dev.on_withFree, Dev.fld_withFree, Dev.regsSig_withFree]
  exact ⟨s.dev.on_prkRej r rfl (by simp [RGN_FE_ERR_write_rejected]) (by simp [RGN_FE_ERR_write_rejected]) ..,
      (s.dev.fld_prkRej r (f := RGN_FE_ERR_write_rejected r.val) rfl (by norm_num)).1, s.dev.regsSig_prkRej r rfl _ _ _ _⟩

end

/-- Settles O21, clause by clause. -/
theorem panesAreDividedOpenedAndClosed : Obligations.PanesAreDividedOpenedAndClosed :=
  ⟨fun _ _ _ _ => clsDivWrite_carried, fun _ _ _ => paneWrOpen_carried, fun _ _ _ => paneWrClose_carried,
    fun _ _ _ _ _ => paneWrClose_prick_carried, fun _ _ => paneWrClose_none_carried⟩

end Sys2Proof.Machine

namespace Sys2Proof.Machine
namespace Dev

/-! ### Bytes written -/

theorem byte_setByte (d : Dev) (a x : Nat) (b : Byte) : (d.setByte a b).byte x = if x = a then b else d.byte x := Sparse.get_set ..

/-- Any byte, after bytes are written from an address upwards. -/
theorem byte_setBytes (d : Dev) (a x : Nat) (l : List Byte) :
    (d.setBytes a l).byte x = if a ≤ x ∧ x < a + l.length then l.getD (x - a) 0 else d.byte x := by
  induction l generalizing d a with
  | nil => simp [setBytes]
  | cons b t ih =>
    rw [setBytes, ih, byte_setByte, List.length_cons]
    by_cases hx : x = a
    · subst hx
      simp
    · by_cases h : a + 1 ≤ x ∧ x < a + 1 + t.length
      · rw [if_pos h, if_pos (by omega), show x - a = (x - (a + 1)) + 1 by omega, List.getD_cons_succ]
      · rw [if_neg h, if_neg hx, if_neg (by omega)]

@[simp] theorem g_setBytes (d : Dev) (a : Nat) (l : List Byte) (r : Region) : (d.setBytes a l).g r = d.g r := by
  induction l generalizing d a with
  | nil => rfl
  | cons b t ih => exact ih _ _

/-! ### Writes of pane windows (R218, R259–R261) -/

section
variable (d : Dev) (r : Region) (p : Nat)

theorem byte_paneBytes (a x : Nat) (l : List Byte) :
    (d.paneBytes r p a l).byte x = if a ≤ x ∧ x < a + l.length then l.getD (x - a) 0 else d.byte x := by
  unfold paneBytes when
  dsimp only
  rw [byte_setBytes]
  split_ifs <;> rfl

/-- What a write of pane bytes changes of the front end: what stood under them is saved, for the ACTIVE pane alone. -/
theorem front_paneBytes (a : Nat) (l : List Byte) (q : Region) :
    { ((d.paneBytes r p a l).g q).front with saved := (d.g q).front.saved } = (d.g q).front := by
  unfold paneBytes when
  dsimp only
  rw [g_setBytes]
  split_ifs
  · rw [modFront, g_modR]
    split_ifs with h
    · subst h; rfl
    · rfl
  · rfl

theorem g_paneBytes_of_ne (h : d.paneState r.val p ≠ 1) (a : Nat) (l : List Byte) (q : Region) : (d.paneBytes r p a l).g q = d.g q := by
  unfold paneBytes when
  dsimp only
  rw [g_setBytes, if_neg (by simpa using h)]

/-- The first offset of a pane's templates, and the offset behind the last. -/
def tmplFrom : Nat := 0x1000 * (1 + d.ruleUnits r.val p + d.asetUnits r.val p)
def tmplTo : Nat := 0x1000 * (1 + d.ruleUnits r.val p + d.asetUnits r.val p + d.tmplUnits r.val p)

/-- Every value of a template is defined. -/
theorem itemOk_tmpl (v : Nat) : itemOk true 5 v = true := rfl

/-- An offset inside the templates lies in an item of kind 5. -/
theorem storeItem_tmpl {off : Nat} (h : d.tmplFrom r p ≤ off) (k : off < d.tmplTo r p) : ∃ x, d.storeItem r.val p off = some (5, x) := by
  unfold tmplFrom at h
  unfold tmplTo at k
  unfold storeItem
  dsimp only
  rw [if_neg (by omega), if_neg (by omega), if_neg (by omega), if_neg (by omega), if_neg (by omega), if_pos (by omega)]
  exact ⟨_, rfl⟩

/-- An offset past the templates lies in no item. -/
theorem storeItem_past {off : Nat} (k : d.tmplTo r p ≤ off) : d.storeItem r.val p off = none := by
  unfold tmplTo at k
  unfold storeItem
  dsimp only
  rw [if_neg (by omega), if_neg (by omega), if_neg (by omega), if_neg (by omega), if_neg (by omega), if_neg (by omega)]

/-- The items of the templates that a write touches. -/
theorem items_tmpl {off n : Nat} (h : d.tmplFrom r p ≤ off) (k : off + n ≤ d.tmplTo r p) :
    ∀ x ∈ ((List.range n).map fun i => d.paneItem r.val p true (off + i)).dedup, ∃ y, x = some (5, y) := by
  intro x hx
  obtain ⟨i, hi, rfl⟩ := List.mem_map.1 (List.mem_dedup.1 hx)
  have := List.mem_range.1 hi
  exact d.storeItem_tmpl r p (by omega) (by omega)

/-- A write of nothing changes nothing. -/
theorem paneWrite_nil (off : Nat) : (d.paneWrite r p true off []).1 = d := rfl

/-- A write inside the templates of the pane of the open session is taken whole. -/
theorem paneWrite_tmpl {off : Nat} {data : List Byte} (hd : data ≠ []) (hs : (d.g r).front.session = some p)
    (hw : d.paneWritable r p = true) (h : d.tmplFrom r p ≤ off) (k : off + data.length ≤ d.tmplTo r p) :
    (d.paneWrite r p true off data).1 = d.paneBytes r p (paneBase r.val p + off) data := by
  have hall := d.items_tmpl r p h k
  unfold paneWrite
  dsimp only
  generalize hL : ((List.range data.length).map fun i => d.paneItem r.val p true (off + i)).dedup = L at hall ⊢
  have hnone : L.find? (·.isNone) = none := by
    rw [List.find?_eq_none]
    intro x hx
    obtain ⟨y, rfl⟩ := hall x hx
    simp
  have hne : L ≠ [] := by
    rw [← hL]
    simpa using hd
  have hkind : ∀ x ∈ L.filterMap id, x.1 = 5 := by
    intro x hx
    obtain ⟨z, hz, hzx⟩ := List.mem_filterMap.1 hx
    obtain ⟨y, rfl⟩ := hall z hz
    injection hzx with hzx
    rw [← hzx]
  rw [hnone]
  cases hF : L.filterMap id with
  | nil =>
    obtain ⟨x, t, rfl⟩ := List.exists_cons_of_ne_nil hne
    obtain ⟨y, rfl⟩ := hall x List.mem_cons_self
    simp at hF
  | cons first rest =>
    have hok : (first :: rest).find? (fun it => !itemOk true it.1
        ((d.paneBytes r p (paneBase r.val p + off) data).le (paneBase r.val p + it.2.2.1) it.2.2.2)) = none := by
      rw [List.find?_eq_none]
      intro x hx
      rw [hkind x (hF ▸ hx)]
      simp [itemOk_tmpl]
    simp [hs, hw, hok]

/-- A write that reaches past the templates is refused whole. -/
theorem paneWrite_past {off : Nat} {data : List Byte} (hd : data ≠ []) (k : d.tmplTo r p < off + data.length) :
    (d.paneWrite r p true off data).1 = d := by
  have hlast : none ∈ ((List.range data.length).map fun i => d.paneItem r.val p true (off + i)).dedup := by
    have := List.length_pos_of_ne_nil hd
    exact List.mem_dedup.2 (List.mem_map.2 ⟨data.length - 1, List.mem_range.2 (by omega), d.storeItem_past r p (by omega)⟩)
  unfold paneWrite
  dsimp only
  split
  · rfl
  · rename_i h _
    exact absurd (List.find?_eq_none.1 h none hlast) (by simp)
  · rename_i h _
    exact absurd (List.find?_eq_none.1 h none hlast) (by simp)

/-! ### Swaps (R127) -/

/-- A swap is rejected with its cause and the error bit. -/
theorem swapRejected_frame {cause : Nat} (hc : cause < 16) : (d.swapRejected cause).fld (CHP_PANE_STAT_reject_cause d.A) = cause
    ∧ (d.swapRejected cause).on (CHP_COMMIT_ERR_swap_rejected d.A) = true
    ∧ d.RegsSig [CHP_PANE_STAT d.A, CHP_COMMIT_ERR d.A] (d.swapRejected cause) := by
  unfold swapRejected
  refine ⟨?_, ?_, ?_⟩
  · rw [fld_err_ne _ (by simp [CHP_PANE_STAT_reject_cause, CHP_COMMIT_ERR_swap_rejected, CHP_PANE_STAT, CHP_COMMIT_ERR, chpReg_inj])
      (d.not_signalReg_chp (by norm_num) (by norm_num)), fld_setFld_same _ _ _ (by simp [CHP_PANE_STAT_reject_cause])]
    exact Nat.mod_eq_of_lt hc
  · exact on_err _ (by simp [CHP_COMMIT_ERR_swap_rejected]) (by simp [CHP_COMMIT_ERR_swap_rejected])
      (d.not_signalReg_chp (by norm_num) (by norm_num)) _ _
  · exact ((RegsBut.refl _ d).setFld (by simp [CHP_PANE_STAT_reject_cause])).err (by simp [CHP_COMMIT_ERR_swap_rejected]) RegsSig.of_signal

end
end Dev

section
variable {s : State} {r : Region} {pane : Fin 2} {off : Nat} {data : List Byte}

/-- A write inside the templates of the open session's pane writes its bytes. -/
theorem paneWindowWrite_carried (hs : (s.dev.g r).front.session = some pane.val) (hw : s.dev.paneWritable r pane.val = true)
    (h : s.dev.tmplFrom r pane.val ≤ off) (k : off + data.length ≤ s.dev.tmplTo r pane.val) :
    Carried (.paneWindowWrite r pane true off data) s [.mem, .front] fun e =>
      (∀ a, e.byte a = if paneBase r.val pane.val + off ≤ a ∧ a < paneBase r.val pane.val + off + data.length
          then data.getD (a - (paneBase r.val pane.val + off)) 0 else s.dev.byte a)
        ∧ (s.dev.paneState r.val pane.val ≠ 1 → (e.g r).front = (s.dev.g r).front)
        ∧ ∀ q, { (e.g q).front with saved := (s.dev.g q).front.saved } = (s.dev.g q).front := by
  have hx : exec (.paneWindowWrite r pane true off data) s = execPaneWindowWrite r pane true off data s := rfl
  by_cases hd : data = []
  · subst hd
    refine .of_run_eq (d := s.dev) hx (s.dev.paneWrite_nil r pane.val off) (.refl _ _) ⟨fun a => ?_, fun _ => rfl, fun _ => rfl⟩
    rw [Dev.byte_withFree, if_neg (by simp)]
  · refine .of_run_eq hx (s.dev.paneWrite_tmpl r pane.val hd hs hw h k) ((Dev.Kept.refl _ _).paneBytes fun _ => id).1
      ⟨fun a => ?_, fun hne => ?_, fun q => ?_⟩
    · rw [Dev.byte_withFree, Dev.byte_paneBytes]
    · rw [Dev.g_withFree, Dev.g_paneBytes_of_ne _ _ _ hne]
    · rw [Dev.g_withFree, Dev.front_paneBytes]

/-- A write that reaches past the templates changes nothing. -/
theorem paneWindowWrite_past_carried (hd : data ≠ []) (k : s.dev.tmplTo r pane.val < off + data.length) :
    Carried (.paneWindowWrite r pane true off data) s [] fun _ => True :=
  .of_run_eq (f := fun d => (d.paneWrite r pane.val true off data).1) rfl (s.dev.paneWrite_past r pane.val hd k) (.refl _ _) trivial

/-- The check code of a pane, when it is computed, stands in the pane's register. -/
theorem paneCodeDone_carried (h : pane.val ∈ (s.dev.g r).front.codeBusy) : Carried (.paneCodeDone r pane) s [.regs, .front] fun e =>
    e.reg (if pane = 0 then RGN_PANE_CODE0 r.val else RGN_PANE_CODE1 r.val) = BitVec.ofNat 32 (crc32cOf (s.dev.paneContents r.val pane.val))
      ∧ (e.g r).front = { (s.dev.g r).front with codeBusy := (s.dev.g r).front.codeBusy.filter (· != pane.val) }
      ∧ s.dev.RegsIn [RGN_PANE_CODE0 r.val, RGN_PANE_CODE1 r.val, RGN_PANE_WR r.val] e := by
  have hx : exec (.paneCodeDone r pane) s = execPaneCodeDone r pane s := rfl
  have hreg : (if pane.val = 0 then RGN_PANE_CODE0 r.val else RGN_PANE_CODE1 r.val) = if pane = 0 then RGN_PANE_CODE0 r.val else RGN_PANE_CODE1 r.val :=
    if_congr (by rw [Fin.ext_iff]; rfl) rfl rfl
  refine .of_run_eq hx (if_pos (List.contains_iff_mem.2 h))
    ((((Dev.Kept.refl _ _).setReg (by decide)).modFront (by decide)).showSession (by decide)).1 ?_
  dsimp only
  rw [Dev.reg_withFree, Dev.g_withFree, Dev.regsIn_withFree, hreg, Dev.g_showSession, Dev.front_modFront_same, Dev.g_setReg]
  refine ⟨?_, rfl, ?_⟩
  · rw [Dev.showSession, Dev.reg_setFld_ne, Dev.modFront, Dev.reg_modR, Dev.reg_setReg_same]
    split_ifs <;> simp [RGN_PANE_WR_in_progress, RGN_PANE_WR, RGN_PANE_CODE0, RGN_PANE_CODE1, rgnReg_inj]
  · refine ((Dev.RegsBut.refl _ _).setReg ?_).modR.showSession (by simp)
    split_ifs <;> simp

/-- A swap without a cause against it is scheduled. -/
theorem paneCtlSwap_carried (h : s.dev.swapCause (s.dev.pair (CHP_PANE_AT_LO s.dev.A) (CHP_PANE_AT_HI s.dev.A)) (s.dev.reg (CHP_PANE_CODE s.dev.A)) = 0) :
    Carried .paneCtlSwap s [.regs, .anchorSt] fun e =>
      e.anchorSt = { s.dev.anchorSt with swapAt := some (s.dev.pair (CHP_PANE_AT_LO s.dev.A) (CHP_PANE_AT_HI s.dev.A)) }
        ∧ s.dev.Wrote (CHP_PANE_STAT_pending s.dev.A) 1 e ∧ s.dev.RegsIn [CHP_PANE_STAT s.dev.A] e := by
  have hx : exec .paneCtlSwap s = execPaneCtlSwap s := rfl
  refine .of_run_eq hx (congrArg Prod.fst (if_pos h)) (((Dev.Kept.refl _ _).modA (by decide)).setOn (by decide)).1 ?_
  rw [Dev.anchorSt_withFree, Dev.wrote_withFree, Dev.regsIn_withFree, Dev.setOn_eq, Dev.anchorSt_setFld, Dev.anchorSt_modA]
  exact ⟨rfl, (Dev.wrote_setFld _ _ _ (by simp [CHP_PANE_STAT_pending]) (by simp [CHP_PANE_STAT_pending])).of_regs rfl,
    (Dev.RegsBut.refl _ _).modA.setFld (by simp [CHP_PANE_STAT_pending])⟩

/-- A swap is rejected while another is pending. -/
theorem paneCtlSwap_pending_carried (hm : s.dev.mode ≠ .load) (hc : s.dev.anchorSt.modeChange = none) (hp : s.dev.anchorSt.swapAt ≠ none) :
    Carried .paneCtlSwap s [.regs, .wire, .ctxs] fun e =>
      e.fld (CHP_PANE_STAT_reject_cause s.dev.A) = 5 ∧ e.on (CHP_COMMIT_ERR_swap_rejected s.dev.A) = true
        ∧ s.dev.RegsSig [CHP_PANE_STAT s.dev.A, CHP_COMMIT_ERR s.dev.A] e := by
  have hx : exec .paneCtlSwap s = execPaneCtlSwap s := rfl
  have hcause (at' : Nat) (code : Word) : s.dev.swapCause at' code = 5 := by
    simp [Dev.swapCause, hm, hc, Option.isSome_iff_ne_none.2 hp]
  refine .of_run_eq (d := s.dev.swapRejected 5) hx (by simp [Dev.swapRequest, hcause]) ((Dev.Kept.refl _ _).swapRejected fun _ => id).1 ?_
  rw [Dev.fld_withFree, Dev.on_withFree, Dev.regsSig_withFree]
  exact s.dev.swapRejected_frame (by norm_num)

/-- A forced freeing waits for the next shutter. -/
theorem paneCtlForceFree_carried : Carried .paneCtlForceFree s [.anchorSt] fun e =>
    e.anchorSt = { s.dev.anchorSt with freeAt := some ((s.dev.tick + 1) % 2 ^ 48) } :=
  .of_run (f := Dev.forceFree) rfl ((Dev.Kept.refl _ _).modA fun _ => id).1 rfl

end

/-- Settles O22, clause by clause. -/
theorem paneWindowsAndSwaps : Obligations.PaneWindowsAndSwaps :=
  ⟨fun _ _ _ _ _ => paneWindowWrite_carried, fun _ _ _ _ _ => paneWindowWrite_past_carried, fun _ _ _ => paneCodeDone_carried,
    fun _ => paneCtlSwap_carried, fun _ => paneCtlSwap_pending_carried, fun _ => paneCtlForceFree_carried⟩

end Sys2Proof.Machine

namespace Sys2Proof.Machine
namespace Dev

/-! ### Who stands in the part, by its registers -/

section
variable {own : Nat → Prop} {d e : Dev} (h : d.RegsBut own e) (hA : e.A = d.A)
include h hA

theorem RegsBut.present (hn : ¬ own (CHP_POPULATION d.A)) (q : Nat) : e.present q = d.present q := by
  unfold Dev.present
  rw [hA]
  exact congrArg (bitOf · q) (h.fld hn)

theorem RegsBut.guest (hn : ¬ own (CHP_POPULATION d.A)) (q : Nat) : e.guest q = d.guest q := by
  unfold Dev.guest
  rw [hA]
  exact congrArg (bitOf · q) (h.fld hn)

theorem RegsBut.mladus (hn : ¬ own (CHP_POPULATION d.A)) (q : Nat) : e.mladus q = d.mladus q := by
  unfold Dev.mladus
  rw [h.present hA hn, h.guest hA hn]

theorem RegsBut.fenced (hn : ¬ own (CHP_COMMIT_MEMBERS d.A)) (q : Nat) : e.fenced q = d.fenced q := by
  unfold Dev.fenced
  rw [hA]
  exact congrArg (bitOf · q) (h.fld hn)

theorem RegsBut.committing (hn : ¬ own (CHP_COMMIT_MEMBERS d.A)) (q : Nat) : e.committing q = d.committing q := by
  unfold Dev.committing
  rw [hA]
  exact congrArg (bitOf · q) (h.fld hn)

end

/-- A region's register outside its interrupt registers and a list is none of a chip register below the monitors'. -/
theorem chp_not_sig (d : Dev) {l : List Nat} {x : Nat} (hx : x < 2 ^ 20) (h : x < 0x20000 ∨ 0x30000 ≤ x) (hl : chpReg d.A x ∉ l) :
    ¬ (chpReg d.A x ∈ l ∨ signalReg (chpReg d.A x)) := fun k => k.elim hl (d.not_signalReg_chp hx h)

/-- A mladus region is present and no guest. -/
theorem mladus_iff {d : Dev} {q : Nat} : d.mladus q = true ↔ d.present q = true ∧ d.guest q = false := by
  simp [mladus]

/-! ### Routes depend on the registers and the anchor alone (R669–R671) -/

section
variable {d e : Dev} (hr : e.regs = d.regs) (ha : e.anchor = d.anchor)
include hr ha

theorem mladus_congr (q : Nat) : e.mladus q = d.mladus q :=
  RegsBut.mladus (own := fun _ => False) (.of_regs hr) (congrArg Fin.val ha) id q

theorem present_congr (q : Nat) : e.present q = d.present q :=
  RegsBut.present (own := fun _ => False) (.of_regs hr) (congrArg Fin.val ha) id q

theorem guest_congr (q : Nat) : e.guest q = d.guest q :=
  RegsBut.guest (own := fun _ => False) (.of_regs hr) (congrArg Fin.val ha) id q

theorem treeDistance_congr (edges n x : Nat) : e.treeDistance edges n x = d.treeDistance edges n x := by
  have hA : e.A = d.A := congrArg Fin.val ha
  induction n generalizing x with
  | zero => rw [treeDistance, treeDistance, hA]
  | succ n ih => simp only [treeDistance, ih, mladus_congr hr ha]

theorem degradedPath_congr (edges dst n : Nat) (down : Bool) (x : Nat) :
    e.degradedPath edges dst n down x = d.degradedPath edges dst n down x := by
  have hs : e.stepsUp = d.stepsUp := by
    funext edges a b
    simp only [stepsUp, treeDistance_congr hr ha]
  induction n generalizing down x with
  | zero => rfl
  | succ n ih => simp only [degradedPath, ih, hs, present_congr hr ha, guest_congr hr ha, mladus_congr hr ha]

theorem route_congr (r src dst : Nat) : e.route r src dst = d.route r src dst := by
  have hf (f : Fld) : e.fld f = d.fld f := fld_congr f (by rw [reg, reg, hr])
  simp only [route, routeOf, edgesUp, hf, degradedPath_congr hr ha, guest_congr hr ha, mladus_congr hr ha] <;> rfl

theorem children_congr (r : Region) : e.children r = d.children r := by
  have hA : e.A = d.A := congrArg Fin.val ha
  simp only [children, route_congr hr ha, present_congr hr ha, hA]

end

/-! ### Registers that events and journal entries write (R767–R770, R874–R877) -/

/-- The registers in which an endpoint's events are counted. -/
def eventRegs : List Nat := [HST_EV_STAT 0, HST_EV_STAT 1]

/-- The registers that an entry of a region's journal changes. -/
def journalRegs (r a : Nat) : List Nat := RGN_JNL_HEAD r :: RGN_JNL_STAT r :: CHP_FAULT_CTL a :: eventRegs

theorem mem_eventRegs (e : Endpoint) : HST_EV_STAT e.val ∈ eventRegs := by
  obtain ⟨n, hn⟩ := e
  interval_cases n <;> simp [eventRegs]

@[simp] theorem A_setBytes (d : Dev) (a : Nat) (l : List Byte) : (d.setBytes a l).A = d.A := by
  induction l generalizing d a with
  | nil => rfl
  | cons b t ih => exact ih (d.setByte a b) _

section
variable {own : Nat → Prop} {d0 d : Dev} (h : d0.RegsBut own d)
include h

theorem RegsBut.addSat {f : Fld} {n : Nat} (hf : own f.addr) : d0.RegsBut own (d.addSat f n) := h.setReg hf

theorem RegsBut.modEp {e : Endpoint} {f : EndpointState → EndpointState} : d0.RegsBut own (d.modEp e f) := h

theorem RegsBut.setBytes {a : Nat} {l : List Byte} : d0.RegsBut own (d.setBytes a l) := by
  induction l generalizing d a with
  | nil => exact h
  | cons b t ih => exact ih (d := d.setByte a b) h

theorem RegsBut.msix {e : Endpoint} {v : Nat} : d0.RegsBut own (d.msix e v) := by
  unfold Dev.msix
  split_ifs
  · exact h.modEp
  · exact h

section
variable (he : ∀ x ∈ eventRegs, own x)
include he

theorem RegsBut.eventWrite {e : Endpoint} {ring : EventRing} {code region word tick : Nat} {detail : List Byte} :
    d0.RegsBut own (d.eventWrite e ring code region word tick detail) := by
  unfold Dev.eventWrite
  dsimp only
  have hw {v : Nat} {a : Nat} {l : List Byte} : d0.RegsBut own ((d.setBytes a l).setFld (HST_EV_STAT_pi e.val) v) :=
    h.setBytes.setFld (he _ (mem_eventRegs e))
  exact hw.ite hw.modEp.msix

theorem RegsBut.postTo {e : Endpoint} {code region word : Nat} {detail : List Byte} : d0.RegsBut own (d.postTo e code region word detail) := by
  unfold Dev.postTo
  split
  · exact h
  · dsimp only
    exact .ite (.eventWrite (.ite (.modEp (h.eventWrite he)) h) he)
      (.modEp (.addSat (.ite (.modEp (h.eventWrite he)) h) (he _ (mem_eventRegs e))))

theorem RegsBut.post {code region word : Nat} {detail : List Byte} : d0.RegsBut own (d.post code region word detail) :=
  (h.postTo he).postTo he

end

section
variable {r : Region} (hj : ∀ x ∈ journalRegs r.val d.A, own x)
include hj

theorem RegsBut.jnlWrite {code level origin unit : Nat} {detail : List Byte} : d0.RegsBut own (d.jnlWrite r code level origin unit detail) := by
  unfold Dev.jnlWrite
  dsimp only
  have hhead (v : Nat) (a : Nat) (l : List Byte) (f : JournalState → JournalState) :
      d0.RegsBut own (((d.setBytes a l).setFld (RGN_JNL_HEAD_number r.val) v).modJnl r f) :=
    (h.setBytes.setFld (hj _ (by simp [journalRegs, RGN_JNL_HEAD_number]))).modR
  refine .post (.ite (.setOn (.setOn (hhead _ _ _ _) (hj _ ?_)) (hj _ ?_)) (hhead _ _ _ _)) fun x hx => hj x (by simp [journalRegs, hx])
  · simp [journalRegs, RGN_JNL_STAT_unacked]
  · simp [journalRegs, CHP_FAULT_CTL_fault_n, modJnl]

theorem RegsBut.journalAs {code level origin unit : Nat} {detail : List Byte} : d0.RegsBut own (d.journalAs r code level origin unit detail) := by
  unfold Dev.journalAs
  exact (h.jnlWrite hj).modR.ite (h.addSat (hj _ (by simp [journalRegs, RGN_JNL_STAT_suppressed]))).modR

end
end

/-- A register that a journal entry does not change. -/
theorem reg_journalAs (d : Dev) {r : Region} {a : Nat} (h : a ∉ journalRegs r.val d.A) (code level origin unit : Nat) (detail : List Byte) :
    (d.journalAs r code level origin unit detail).reg a = d.reg a :=
  ((RegsBut.refl (· ∈ journalRegs r.val d.A) d).journalAs fun _ hx => hx) a h

/-- A region register outside the journal's is none that a journal entry changes. -/
theorem rgnReg_not_mem_journalRegs (q : Region) {r a x : Nat} (hx : x < 0xD00000) : rgnReg q.val x ∉ journalRegs r a := by
  have := q.isLt
  simp only [journalRegs, eventRegs, RGN_JNL_HEAD, RGN_JNL_STAT, CHP_FAULT_CTL, HST_EV_STAT, List.mem_cons, List.not_mem_nil, or_false,
    rgnReg, chpReg, hstReg]
  omega

/-- A chip register below the fault control is none that a journal entry changes. -/
theorem chpReg_not_mem_journalRegs (d : Dev) {r a x : Nat} (hx : x < 0x50030) : chpReg d.A x ∉ journalRegs r a := by
  have := d.A_lt
  simp only [journalRegs, eventRegs, RGN_JNL_HEAD, RGN_JNL_STAT, CHP_FAULT_CTL, HST_EV_STAT, List.mem_cons, List.not_mem_nil, or_false,
    rgnReg, chpReg, hstReg]
  omega

/-! ### What messages and changes of a region's commit state leave as it was -/

section
variable (d : Dev) (a n : Nat) (f : Fld) (r q : Region) (m : Msg)

@[simp] theorem g_sendAll (l : List Region) : (d.sendAll n l m).g r = d.g r := (rfl)
@[simp] theorem wire_flood (via : Option (Fin 6)) : (d.flood r via m).wire = d.wire ++ (d.floodTo r.val via).map (fun p => ⟨r.val, p, m⟩) := (rfl)
@[simp] theorem g_flood (via : Option (Fin 6)) : (d.flood r via m).g q = d.g q := (rfl)
@[simp] theorem wire_send (p : Nat) : (d.send p n m).wire = d.wire ++ [⟨p, n, m⟩] := (rfl)
@[simp] theorem fld_receive (p : Nat) : (d.receive p n m).fld f = d.fld f := (rfl)
@[simp] theorem g_receive (p : Nat) : (d.receive p n m).g r = d.g r := (rfl)
@[simp] theorem A_receive (p : Nat) : (d.receive p n m).A = d.A := (rfl)
@[simp] theorem wire_receive (p : Nat) : (d.receive p n m).wire = d.wire.erase ⟨p, n, m⟩ := (rfl)
@[simp] theorem mladus_receive (p k : Nat) : (d.receive p n m).mladus k = d.mladus k := (rfl)
@[simp] theorem present_receive (p k : Nat) : (d.receive p n m).present k = d.present k := (rfl)
@[simp] theorem fenced_receive (p k : Nat) : (d.receive p n m).fenced k = d.fenced k := (rfl)
@[simp] theorem committing_receive (p k : Nat) : (d.receive p n m).committing k = d.committing k := (rfl)
@[simp] theorem floodTo_receive (p k : Nat) (via : Option (Fin 6)) : (d.receive p n m).floodTo k via = d.floodTo k via := (rfl)
@[simp] theorem anchorSt_receive (p : Nat) : (d.receive p n m).anchorSt = d.anchorSt := (rfl)
@[simp] theorem repairs_receive (p : Nat) : (d.receive p n m).repairs r = d.repairs r := (rfl)
@[simp] theorem lineBad_receive (p t l : Nat) : (d.receive p n m).lineBad r t l = d.lineBad r t l := (rfl)

@[simp] theorem fld_modCommit (h : CommitState → CommitState) : (d.modCommit r h).fld f = d.fld f := (rfl)
@[simp] theorem on_modCommit (h : CommitState → CommitState) : (d.modCommit r h).on f = d.on f := (rfl)
@[simp] theorem A_modCommit (h : CommitState → CommitState) : (d.modCommit r h).A = d.A := (rfl)
@[simp] theorem wire_modCommit (h : CommitState → CommitState) : (d.modCommit r h).wire = d.wire := (rfl)
@[simp] theorem mladus_modCommit (h : CommitState → CommitState) (k : Nat) : (d.modCommit r h).mladus k = d.mladus k := (rfl)
@[simp] theorem floodTo_modCommit (h : CommitState → CommitState) (k : Nat) (via : Option (Fin 6)) :
    (d.modCommit r h).floodTo k via = d.floodTo k via := (rfl)
@[simp] theorem floodTo_modR (h : Rgn → Rgn) (k : Nat) (via : Option (Fin 6)) : (d.modR r h).floodTo k via = d.floodTo k via := (rfl)
@[simp] theorem anchorSt_modCommit (h : CommitState → CommitState) : (d.modCommit r h).anchorSt = d.anchorSt := (rfl)

theorem commit_modCommit (h : CommitState → CommitState) :
    ((d.modCommit r h).g q).commit = if q = r then h (d.g r).commit else (d.g q).commit := by
  rw [modCommit, g_modR]
  split_ifs <;> rfl

@[simp] theorem commit_modCommit_same (h : CommitState → CommitState) : ((d.modCommit r h).g r).commit = h (d.g r).commit := by
  rw [commit_modCommit, if_pos rfl]

theorem commit_modCommit_ne (h : CommitState → CommitState) (hq : q ≠ r) : ((d.modCommit r h).g q).commit = (d.g q).commit := by
  rw [commit_modCommit, if_neg hq]

@[simp] theorem tick_modCommit (h : CommitState → CommitState) : ((d.modCommit r h).g q).tick = (d.g q).tick := by
  rw [modCommit, g_modR]
  split_ifs with hq
  · rw [hq]
  · rfl

end

/-- The commit state of a region is no signal's. -/
theorem Signalled.commit {d e : Dev} (h : d.Signalled e) (q : Region) : (e.g q).commit = (d.g q).commit := h.1 .commit (by decide) q

section
variable {own : Nat → Prop} {d0 d : Dev} (h : d0.RegsBut own d)
include h

theorem RegsBut.modCommit {r : Region} {f : CommitState → CommitState} : d0.RegsBut own (d.modCommit r f) := h
theorem RegsBut.receive {p n : Nat} {m : Msg} : d0.RegsBut own (d.receive p n m) := h
theorem RegsBut.send {p n : Nat} {m : Msg} : d0.RegsBut own (d.send p n m) := h
theorem RegsBut.sendAll {n : Nat} {l : List Region} {m : Msg} : d0.RegsBut own (d.sendAll n l m) := h
theorem RegsBut.flood {r : Region} {via : Option (Fin 6)} {m : Msg} : d0.RegsBut own (d.flood r via m) := h

end

end Dev
end Sys2Proof.Machine

namespace Sys2Proof.Machine
namespace Dev

/-! ### Staging a record (R98–R101) -/

section
variable (d : Dev) (r : Region) (m : Mut) (i : Issuer)

/-- The record as a region stages it: under its own number and in its slot. -/
def stagedAs : Staged := ⟨{ m with region := r.val, seq := (d.g r).commit.staged.length }, i⟩

variable {d r m i}

/-- Where a slot is left for a hardware record, it is staged at the end. -/
theorem stage_of_room (h : (d.g r).commit.staged.length + d.fld (RGN_COMMIT_CTL_host_reserve r.val) < 128) :
    (((d.stage r m i).1).g r).commit = { (d.g r).commit with staged := (d.g r).commit.staged ++ [d.stagedAs r m i] }
      ∧ d.RegsSig [RGN_STAGE_STAT r.val] (d.stage r m i).1 := by
  have hhw : ((d.g r).commit.staged.filter fun x => !x.mu.fromHost).length ≤ (d.g r).commit.staged.length := List.length_filter_le _ _
  have hS := signalled_event ((d.modCommit r fun c => { c with staged := c.staged ++ [d.stagedAs r m i] }).setFld
    (RGN_STAGE_STAT_staged r.val) ((d.g r).commit.staged.length + 1)) r 0x125 m.source 1
  have hreg : d.RegsSig [RGN_STAGE_STAT r.val] _ :=
    ((RegsBut.refl _ d).modCommit.setFld (by simp [RGN_STAGE_STAT_staged])).signalled hS RegsSig.of_signal
  unfold stage
  dsimp only
  rw [if_neg (by omega)]
  dsimp only
  refine ⟨?_, ?_⟩
  · have hc := hS.commit r
    rw [g_setFld, commit_modCommit_same] at hc
    split_ifs
    · exact hc
    · rw [g_sendAll]; exact hc
  · exact RegsBut.ite hreg hreg.sendAll

/-- Where a slot is left for a hardware record, the repair of a line is staged at the end. -/
theorem stageRepair_of_room {requester n line time : Nat}
    (h : (d.g r).commit.staged.length + d.fld (RGN_COMMIT_CTL_host_reserve r.val) < 128) :
    ∃ x : Staged, ((d.stageRepair r requester n line time).g r).commit = { (d.g r).commit with staged := (d.g r).commit.staged ++ [x] }
      ∧ (x.issuer = .repair ∧ x.mu.op = 7 ∧ x.mu.table = n ∧ x.mu.index = line ∧ x.mu.owner = requester ∧ x.mu.region = r.val
        ∧ x.mu.seq = (d.g r).commit.staged.length)
      ∧ d.RegsSig [RGN_STAGE_STAT r.val] (d.stageRepair r requester n line time) := by
  unfold stageRepair
  obtain ⟨hc, hr⟩ := stage_of_room (d := d) (r := r) (i := .repair) h
  exact ⟨_, hc, ⟨rfl, rfl, rfl, rfl, rfl, rfl, rfl⟩, hr⟩

/-- Without a staged EXPIRE a hit replaces no record. -/
theorem hitWins_of_no_expire {n slot : Nat} (h : ∀ x ∈ (d.g r).commit.staged, x.mu.op ≠ 6) : d.hitWins r n slot = d := by
  unfold hitWins
  dsimp only
  rw [List.find?_eq_none.2 fun x hx => by simp [h x hx]]

/-- Asking for a repair writes no register. -/
theorem fld_requestRepair (d : Dev) (r : Region) (t l : Nat) (f : Fld) : (d.requestRepair r t l).fld f = d.fld f :=
  fld_congr f (by rw [reg, ((Kept.refl [.wire] d).requestRepair fun _ => id).1 .regs (by decide), reg])

end
end Dev

section
variable {s : State} {r src : Region} {table line time : Nat}

/-- A repair request waits while the commit of the tick before is not applied. -/
theorem repairReq_waits_carried (hm : s.dev.inTurn src.val r.val (s.dev.repairSent r src table line) = true) (hr : s.dev.repairs r = true)
    (hb : s.dev.lineBad r table line = false) (hl : (s.dev.g r).commit.lastApplied ≠ ((s.dev.g r).tick + 2 ^ 48 - 1) % 2 ^ 48) :
    Carried (.repairReq r src table line time) s [.wire, .commit] fun e =>
      (e.g r).commit = { (s.dev.g r).commit with repairWait := (s.dev.g r).commit.repairWait ++ [(table, line, src.val)] }
        ∧ ∀ q, q ≠ r → (e.g q).commit = (s.dev.g q).commit := by
  have hx : exec (.repairReq r src table line time) s = execRepairReq r src table line time s := rfl
  refine .of_deliverAll_eq (d := (s.dev.receive src.val r.val (s.dev.repairSent r src table line)).modCommit r fun c =>
      { c with repairWait := c.repairWait ++ [(table, line, src.val)] }) hx hm ?_
    (((Dev.Kept.refl _ _).receive (by decide)).modCommit (by decide)).1 ?_
  · rw [Dev.repairs_receive, Dev.lineBad_receive, hr, hb, Dev.g_receive]
    exact (if_neg Bool.false_ne_true).trans (if_neg hl)
  · simp only [Dev.g_withFree, Dev.commit_modCommit_same, Dev.g_receive, true_and]
    exact fun q hq => Dev.commit_modCommit_ne _ _ _ _ hq

/-- A repair request is staged at once where the commit of the tick before is applied. -/
theorem repairReq_staged_carried (hm : s.dev.inTurn src.val r.val (s.dev.repairSent r src table line) = true) (hr : s.dev.repairs r = true)
    (hb : s.dev.lineBad r table line = false) (hl : (s.dev.g r).commit.lastApplied = ((s.dev.g r).tick + 2 ^ 48 - 1) % 2 ^ 48)
    (hroom : (s.dev.g r).commit.staged.length + s.dev.fld (RGN_COMMIT_CTL_host_reserve r.val) < 128) :
    Carried (.repairReq r src table line time) s [.regs, .wire, .ctxs, .commit] fun e =>
      (∃ x : Staged, (e.g r).commit.staged = (s.dev.g r).commit.staged ++ [x] ∧ x.issuer = .repair ∧ x.mu.op = 7 ∧ x.mu.table = table ∧ x.mu.index = line
          ∧ x.mu.owner = src.val ∧ x.mu.region = r.val ∧ x.mu.seq = (s.dev.g r).commit.staged.length)
        ∧ (e.g r).commit.repairWait = (s.dev.g r).commit.repairWait ∧ s.dev.RegsSig [RGN_STAGE_STAT r.val] e := by
  have hx : exec (.repairReq r src table line time) s = execRepairReq r src table line time s := rfl
  refine .of_deliverAll_eq (d := (s.dev.receive src.val r.val (s.dev.repairSent r src table line)).stageRepair r src.val table line time)
    hx hm ?_ (((Dev.Kept.refl _ _).receive (by decide)).stageRepair (by decide)).1 ?_
  · rw [Dev.repairs_receive, Dev.lineBad_receive, hr, hb, Dev.g_receive]
    exact (if_neg Bool.false_ne_true).trans (if_pos hl)
  · obtain ⟨x, hc, hx', hregs⟩ := Dev.stageRepair_of_room (d := s.dev.receive src.val r.val (s.dev.repairSent r src table line)) (r := r)
      (requester := src.val) (n := table) (line := line) (time := time) (by simpa using hroom)
    rw [Dev.regsSig_withFree, Dev.g_withFree, hc]
    rw [Dev.g_receive] at hx' ⊢
    exact ⟨⟨x, rfl, hx'⟩, rfl, (Dev.RegsBut.refl _ _).receive.trans hregs⟩

/-- A line that has stayed bad for 16 ticks is reported. -/
theorem repairStalled_carried {b : BadLine} (hb : (s.dev.g r).tables.bad.find? (fun b => b.table == table && b.line == line) = some b)
    (ht : 16 ≤ Dev.ticksAhead (s.dev.g r).tick b.since) :
    Carried (.repairStalled r table line) s [.regs, .mem, .wire, .line, .ctxs, .endpoints, .journal] fun e =>
      e.on (RGN_TBL_ERR_repair_stalled r.val) = true ∧ (e.g r).tables.bad = (s.dev.g r).tables.bad := by
  have hx : exec (.repairStalled r table line) s = execRepairStalled r table line s := rfl
  have ho : s.dev.OnlyIn [.regs, .mem, .wire, .line, .ctxs, .endpoints, .journal]
      (((s.dev.err (RGN_TBL_ERR_repair_stalled r.val) r 0x143).journal r 0x0301 (unitId 6 r.val table) (bytesLE 4 line)).requestRepair r table line) :=
    ((((Dev.Kept.refl _ _).err (by decide)).journal (by decide)).requestRepair (by decide)).1
  refine .of_run_eq hx (by simp only [hb, ht, if_true]) ho ⟨?_, ?_⟩
  · have hn : ¬ signalReg (RGN_TBL_ERR r.val) := Dev.not_signalReg_rgn r (by norm_num) (by norm_num) (by norm_num)
    rw [Dev.on_withFree, Dev.on_eq_true, Dev.fld_requestRepair, Dev.journal,
      Dev.fld_congr _ (Dev.reg_journalAs _ (Dev.rgnReg_not_mem_journalRegs r (by norm_num)) ..), ← Dev.on_eq_true]
    exact Dev.on_err _ (by simp [RGN_TBL_ERR_repair_stalled]) (by simp [RGN_TBL_ERR_repair_stalled]) hn _ _
  · rw [Dev.g_withFree, ho .tables (by decide) r]

/-- A line bad for fewer than 16 ticks is not reported. -/
theorem repairStalled_early_carried (h : ∀ b ∈ (s.dev.g r).tables.bad, b.table = table → b.line = line → Dev.ticksAhead (s.dev.g r).tick b.since < 16) :
    Carried (.repairStalled r table line) s [] fun _ => True := by
  have hx : exec (.repairStalled r table line) s = execRepairStalled r table line s := rfl
  refine .of_run_eq (d := s.dev) hx ?_ (.refl _ _) trivial
  split
  · rename_i b hb
    have hp := List.find?_some hb
    simp only [Bool.and_eq_true, beq_iff_eq] at hp
    exact if_neg (Nat.not_le.2 (h b (List.mem_of_find?_eq_some hb) hp.1 hp.2))
  · rfl

/-- A reconciliation record waits for the shutter and is acknowledged at its sender. -/
theorem recon_carried {tick : Nat} {m : Mut} (hm : s.dev.inTurn src.val r.val (.recon tick m) = true) :
    Carried (.recon r src tick m) s [.regs, .wire, .commit] fun e =>
      (e.g r).commit = { (s.dev.g r).commit with recon := (s.dev.g r).commit.recon ++ [⟨tick, m⟩] }
        ∧ (∀ q, q ≠ r → (e.g q).commit = (s.dev.g q).commit)
        ∧ s.dev.Wrote (RGN_RECON_STAT_backlog src.val) (s.dev.fld (RGN_RECON_STAT_backlog src.val) - 1) e
        ∧ s.dev.RegsIn [RGN_RECON_STAT src.val] e := by
  have hx : exec (.recon r src tick m) s = execRecon r src tick m s := rfl
  have hlt : s.dev.fld (RGN_RECON_STAT_backlog src.val) - 1 < 2 ^ (RGN_RECON_STAT_backlog src.val).width :=
    Nat.lt_of_le_of_lt (Nat.sub_le _ _) (s.dev.fld_lt _)
  refine .of_deliverAll hx hm ((((Dev.Kept.refl _ _).receive (by decide)).modCommit (by decide)).setFld (by decide)).1 ?_
  simp only [Dev.g_withFree, Dev.g_setFld, Dev.commit_modCommit_same, Dev.g_receive, Dev.wrote_withFree, Dev.regsIn_withFree,
    Dev.fld_receive, true_and]
  exact ⟨fun q hq => Dev.commit_modCommit_ne _ _ _ _ hq,
    (Dev.wrote_setFld _ _ _ (by simp [RGN_RECON_STAT_backlog]) hlt).of_regs rfl,
    (Dev.RegsBut.refl _ _).receive.modCommit.setFld (by simp [RGN_RECON_STAT_backlog])⟩

/-- A hit notice sets the hit bit of its slot, where the scanner has staged no EXPIRE. -/
theorem hitNotice_carried {slot quantum : Nat} (hm : s.dev.inTurn src.val r.val (.hitNotice table slot quantum) = true)
    (he : ∀ x ∈ (s.dev.g r).commit.staged, x.mu.op ≠ 6) : Carried (.hitNotice r src table slot quantum) s [.wire, .tables] fun e =>
      Sparse.get (fun _ => false) (e.g r).tables.hits (table * 2 ^ 32 + slot) = true
        ∧ ∀ k, k ≠ table * 2 ^ 32 + slot → Sparse.get (fun _ => false) (e.g r).tables.hits k = Sparse.get (fun _ => false) (s.dev.g r).tables.hits k := by
  have hx : exec (.hitNotice r src table slot quantum) s = execHitNotice r src table slot quantum s := rfl
  refine .of_deliverAll_eq (d := (s.dev.receive src.val r.val (.hitNotice table slot quantum)).modTables r fun t =>
      { t with hits := Sparse.set (fun _ => false) t.hits (table * 2 ^ 32 + slot) true }) hx hm ?_
    (((Dev.Kept.refl _ _).receive (by decide)).modTables (by decide)).1 ?_
  · exact Dev.hitWins_of_no_expire (by rw [Dev.modTables, Dev.g_modR_same]; exact he)
  · rw [Dev.g_withFree, Dev.modTables, Dev.g_modR_same, Dev.g_receive]
    dsimp only
    exact ⟨Sparse.get_set_same .., fun k hk => Sparse.get_set_ne _ _ _ _ _ hk⟩

end

/-- Settles O33, clause by clause. -/
theorem repairsNoticesAndReconciliation : Obligations.RepairsNoticesAndReconciliation :=
  ⟨fun _ _ _ _ _ _ => repairReq_waits_carried, fun _ _ _ _ _ _ => repairReq_staged_carried, fun _ _ _ _ _ => repairStalled_carried,
    fun _ _ _ _ => repairStalled_early_carried, fun _ _ _ _ _ => recon_carried, fun _ _ _ _ _ _ => hitNotice_carried⟩

end Sys2Proof.Machine

namespace Sys2Proof.Machine

/-- The correction of a timer is the offset, held to 0.25 ns either way. -/
theorem correction_eq (off : Int) : correction off = max (-250) (min 250 off) := by
  unfold correction
  split_ifs <;> omega

namespace Dev

/-! ### Following a marker (R91, R93) -/

section
variable (d : Dev) (r : Region) (tick anchor : Nat) (off : Int)

/-- The part after a region has heard a marker: its tick and its anchor are noted, and the timer is corrected. -/
def hearMarker : Dev :=
  d.modCommit r fun c => { c with markerTick := tick, heard := [tick], anchorSeen := anchor, timer := c.timer - correction off }

/-- The part after a region shows its offset: a guest whether it is aligned, and a Mladus region how far it is off. -/
def showOffset : Dev :=
  if d.guest r.val then d.setFld (RGN_GUEST_STAT_aligned r.val) (if off.natAbs ≤ 4000 then 1 else 0)
  else
    let e := d.setFld (RGN_SHUTTER_STAT_offset r.val) ((off % 2 ^ 16).toNat)
    if 4000 < off.natAbs then e.err (RGN_SHUTTER_STAT_misaligned r.val) r 0x3E0 else e

/-- A region hears a marker and shows its offset; then its tick is held against the marker's. -/
theorem followMarker_eq : d.followMarker r tick anchor off =
    let e := (d.hearMarker r tick anchor off).showOffset r off
    if tick = (e.g r).tick then e
    else if e.follows r && e.fenced r.val then e.modR r (fun g => { g with tick })
    else (e.when (e.mladus r.val) (·.err (RGN_SHUTTER_STAT_tick_mismatch r.val) r 0x3E1)).dueFence r 0x02 := rfl

variable {d r tick anchor off}

theorem Kept.showOffset {ps : List Part} {d0 : Dev} (h : d0.Kept ps d) (hs : ∀ p ∈ ([.regs, .wire, .ctxs] : List Part), p ∈ ps) :
    d0.Kept ps (d.showOffset r off) := by
  have h1 (f : Fld) (v : Nat) : d0.Kept ps (d.setFld f v) := h.setFld fun p hp => hs p (by simp at hp; simp [hp])
  unfold Dev.showOffset
  exact .ite (h1 _ _) (.ite ((h1 _ _).err hs) (h1 _ _))

/-- An aligned Mladus region shows its offset and changes nothing else. -/
theorem showOffset_aligned (hg : d.guest r.val = false) (h : off.natAbs ≤ 4000) :
    d.showOffset r off = d.setFld (RGN_SHUTTER_STAT_offset r.val) ((off % 2 ^ 16).toNat) := by
  rw [showOffset, hg]
  exact (if_neg Bool.false_ne_true).trans (if_neg (Nat.not_lt.2 h))

theorem regsSig_showOffset (hg : d.guest r.val = false) : d.RegsSig [RGN_SHUTTER_STAT r.val] (d.showOffset r off) := by
  have h := (RegsBut.refl (fun a => a ∈ [RGN_SHUTTER_STAT r.val] ∨ signalReg a) d).setFld (f := RGN_SHUTTER_STAT_offset r.val)
    (v := (off % 2 ^ 16).toNat) (by simp [RGN_SHUTTER_STAT_offset])
  rw [showOffset, hg]
  exact RegsBut.ite (c := 4000 < off.natAbs) (h.err (by simp [RGN_SHUTTER_STAT_misaligned]) RegsSig.of_signal) h

/-- The part after a region takes a marker off the wire and sends it on to the regions behind it, with the time that it stayed. -/
def passMarker (d : Dev) (r src : Region) (tick hops residence anchor : Nat) (m : Fin 6) : Dev :=
  (d.receive src.val r.val (.marker tick hops residence anchor)).sendAll r.val (d.children r) (.marker tick ((hops + 1) % 256)
    ((residence + d.freeNat 0 + d.fld (RGN_CF_DELAY_delay r.val m.val)) % 2 ^ 32) anchor)

variable {src : Region} {hops residence : Nat} {m : Fin 6}

theorem passMarker_kept : d.Kept [.wire] (d.passMarker r src tick hops residence anchor m) :=
  ((Kept.refl _ _).receive (by decide)).sendAll (by decide)

@[simp] theorem g_passMarker (q : Region) : (d.passMarker r src tick hops residence anchor m).g q = d.g q := (rfl)

theorem regsBut_passMarker {own : Nat → Prop} : d.RegsBut own (d.passMarker r src tick hops residence anchor m) :=
  (RegsBut.refl _ _).receive.sendAll

/-- The part after a Mladus region has passed a marker on, heard it and shown its offset. -/
def takeMarker (d : Dev) (r src : Region) (tick hops residence anchor : Nat) (m : Fin 6) (off : Int) : Dev :=
  ((d.passMarker r src tick hops residence anchor m).hearMarker r tick anchor off).showOffset r off

theorem takeMarker_kept : d.Kept [.regs, .wire, .ctxs, .commit] (d.takeMarker r src tick hops residence anchor m off) :=
  Kept.showOffset ((passMarker_kept.mono (by decide)).modCommit (by decide)) (by decide)

theorem A_takeMarker : (d.takeMarker r src tick hops residence anchor m off).A = d.A :=
  congrArg Fin.val (takeMarker_kept.1 .anchor (by decide))

theorem fenceDue_takeMarker : ((d.takeMarker r src tick hops residence anchor m off).g r).commit.fenceDue = (d.g r).commit.fenceDue := by
  rw [takeMarker, ((Kept.refl [.regs, .wire, .ctxs] _).showOffset fun _ => id).1 .commit (by decide) r, hearMarker, commit_modCommit_same,
    g_passMarker]

theorem tick_takeMarker (q : Region) : ((d.takeMarker r src tick hops residence anchor m off).g q).tick = (d.g q).tick :=
  takeMarker_kept.1 .tick (by decide) q

theorem regsSig_takeMarker (hg : d.guest r.val = false) :
    d.RegsSig [RGN_SHUTTER_STAT r.val] (d.takeMarker r src tick hops residence anchor m off) := by
  have hh {own : Nat → Prop} : d.RegsBut own ((d.passMarker r src tick hops residence anchor m).hearMarker r tick anchor off) :=
    regsBut_passMarker.modCommit
  exact hh.trans (regsSig_showOffset ((RegsBut.guest (own := fun _ => False) hh rfl id _).trans hg))

end
end Dev

section
variable {s : State} {r src : Region} {tick hops residence anchor : Nat} {m : Fin 6} {arrival : Int} {l : List Part} {P : Dev → Prop}

/-- A marker on the parent module of a region in service is passed on and followed. -/
theorem Carried.shutterMark (hm : s.dev.mladus r.val = true) (hf : s.dev.fenced r.val = false)
    (hp : m.val = s.dev.fld (RGN_SHUTTER_STAT_parent r.val)) {d : Dev}
    (hd : (s.dev.passMarker r src tick hops residence anchor m).followMarker r tick anchor (s.dev.shutterOffset r m.val residence arrival) = d)
    (ho : s.dev.OnlyIn l d) (hP : P (d.withFree (s.dev.free + 1))) :
    Carried (.shutterMark r src tick hops residence anchor m arrival) s l P := by
  have hx : exec (.shutterMark r src tick hops residence anchor m arrival) s
    = execShutterMark r src tick hops residence anchor m arrival s := rfl
  have hpr := (Dev.mladus_iff.1 hm).1
  refine .of_run_eq hx ?_ ho hP
  have hc (x : Bool) : (!s.dev.present r.val || (s.dev.mladus r.val && m.val != s.dev.fld (RGN_SHUTTER_STAT_parent r.val))
      || (s.dev.fenced r.val && x)) = false := by
    rw [hpr, hf, ← hp]
    simp
  have hr : (s.dev.receive src.val r.val (.marker tick hops residence anchor)).children r = s.dev.children r :=
    Dev.children_congr (d := s.dev) (e := s.dev.receive src.val r.val (.marker tick hops residence anchor)) rfl rfl r
  rw [← hd, Dev.passMarker, ← hr]
  dsimp only
  rw [if_neg (by rw [Dev.present_receive, Dev.mladus_receive, Dev.fenced_receive, Dev.fld_receive, hc]; exact Bool.false_ne_true),
    Dev.when, if_pos (by rw [Dev.mladus_receive, hm]), Dev.shutterOffset, Dev.shutterOffset, Dev.fld_receive]
  rfl

variable {off : Int}

/-- A marker with the region's tick and an offset within 4 ns corrects the timer and shows the offset. -/
theorem shutterMark_aligned_carried (hm : s.dev.mladus r.val = true) (hf : s.dev.fenced r.val = false)
    (hp : m.val = s.dev.fld (RGN_SHUTTER_STAT_parent r.val))
    (ho : off = residence + s.dev.fld (RGN_CF_DELAY_delay r.val m.val) - arrival) (ha : off.natAbs ≤ 4000) (ht : tick = (s.dev.g r).tick) :
    Carried (.shutterMark r src tick hops residence anchor m arrival) s [.regs, .wire, .commit] fun e =>
      (e.fld (RGN_SHUTTER_STAT_offset r.val) : Int) = off % 2 ^ 16 ∧ s.dev.RegsIn [RGN_SHUTTER_STAT r.val] e
        ∧ (e.g r).commit = { (s.dev.g r).commit with
            markerTick := tick, heard := [tick], anchorSeen := anchor, timer := (s.dev.g r).commit.timer - max (-250) (min 250 off) }
        ∧ (∀ q, q ≠ r → (e.g q).commit = (s.dev.g q).commit)
        ∧ e.wire = s.dev.wire.erase ⟨src.val, r.val, .marker tick hops residence anchor⟩
            ++ (s.dev.children r).map (fun q => ⟨r.val, q.val, .marker tick ((hops + 1) % 256)
                ((residence + s.dev.freeNat 0 + s.dev.fld (RGN_CF_DELAY_delay r.val m.val)) % 2 ^ 32) anchor⟩) := by
  have hg : ((s.dev.passMarker r src tick hops residence anchor m).hearMarker r tick anchor off).guest r.val = false := by
    rw [← (Dev.mladus_iff.1 hm).2]
    exact Dev.RegsBut.guest (own := fun _ => False) Dev.regsBut_passMarker.modCommit rfl id _
  have hoff : s.dev.shutterOffset r m.val residence arrival = off := ho.symm
  refine .shutterMark (d := ((s.dev.passMarker r src tick hops residence anchor m).hearMarker r tick anchor off).setFld
    (RGN_SHUTTER_STAT_offset r.val) ((off % 2 ^ 16).toNat)) hm hf hp ?_
    (((Dev.passMarker_kept.mono (by decide)).modCommit (by decide)).setFld (by decide)).1 ?_
  · rw [hoff, Dev.followMarker_eq, Dev.showOffset_aligned hg ha]
    dsimp only
    rw [Dev.g_setFld, Dev.hearMarker, Dev.tick_modCommit, Dev.g_passMarker, if_pos ht]
  · rw [Dev.fld_withFree, Dev.regsIn_withFree, Dev.g_withFree, Dev.wire_withFree, Dev.g_setFld, Dev.wire_setFld, Dev.hearMarker,
      Dev.commit_modCommit_same, Dev.g_passMarker, Dev.wire_modCommit, correction_eq,
      Dev.fld_setFld_same _ _ _ (by simp [RGN_SHUTTER_STAT_offset])]
    refine ⟨?_, (Dev.regsBut_passMarker.modCommit).setFld (by simp [RGN_SHUTTER_STAT_offset]), rfl, fun q hq => ?_, rfl⟩
    · simp only [RGN_SHUTTER_STAT_offset]
      omega
    · rw [Dev.g_withFree, Dev.g_setFld, Dev.commit_modCommit_ne _ _ _ _ hq, Dev.g_passMarker]

/-- A marker on another module than the parent is only taken off the wire. -/
theorem shutterMark_astray_carried (hm : s.dev.mladus r.val = true) (hp : m.val ≠ s.dev.fld (RGN_SHUTTER_STAT_parent r.val)) :
    Carried (.shutterMark r src tick hops residence anchor m arrival) s [.wire] fun e =>
      e.wire = s.dev.wire.erase ⟨src.val, r.val, .marker tick hops residence anchor⟩ := by
  have hx : exec (.shutterMark r src tick hops residence anchor m arrival) s
    = execShutterMark r src tick hops residence anchor m arrival s := rfl
  refine .of_run_eq (d := s.dev.receive src.val r.val (.marker tick hops residence anchor)) hx ?_
    ((Dev.Kept.refl _ _).receive fun _ => id).1 rfl
  exact if_pos (by rw [Dev.mladus_receive, Dev.fld_receive, hm]; simp [hp])

/-- A marker with another tick than the region's is a mismatch and makes a fence due. -/
theorem shutterMark_mismatch_carried (hm : s.dev.mladus r.val = true) (hf : s.dev.fenced r.val = false)
    (hp : m.val = s.dev.fld (RGN_SHUTTER_STAT_parent r.val)) (ht : tick ≠ (s.dev.g r).tick) (hd : (s.dev.g r).commit.fenceDue = 0) :
    Carried (.shutterMark r src tick hops residence anchor m arrival) s [.regs, .wire, .ctxs, .commit] fun e =>
      e.on (RGN_SHUTTER_STAT_tick_mismatch r.val) = true ∧ (e.g r).commit.fenceDue = 2 ∧ s.dev.RegsSig [RGN_SHUTTER_STAT r.val] e := by
  obtain ⟨off, hoff⟩ : ∃ off, s.dev.shutterOffset r m.val residence arrival = off := ⟨_, rfl⟩
  have hR := Dev.regsSig_takeMarker (src := src) (tick := tick) (hops := hops) (residence := residence) (anchor := anchor) (m := m) (off := off)
    (Dev.mladus_iff.1 hm).2
  have hnm : ¬ (CHP_COMMIT_MEMBERS s.dev.A ∈ [RGN_SHUTTER_STAT r.val] ∨ signalReg (CHP_COMMIT_MEMBERS s.dev.A)) :=
    Dev.chp_not_sig _ (by norm_num) (by norm_num) (by
      rw [List.mem_singleton]; exact chpReg_ne_rgnReg (by norm_num) (by norm_num))
  have hnp : ¬ (CHP_POPULATION s.dev.A ∈ [RGN_SHUTTER_STAT r.val] ∨ signalReg (CHP_POPULATION s.dev.A)) :=
    Dev.chp_not_sig _ (by norm_num) (by norm_num) (by
      rw [List.mem_singleton]; exact chpReg_ne_rgnReg (by norm_num) (by norm_num))
  have hfd : (s.dev.takeMarker r src tick hops residence anchor m off).fenced r.val = false :=
    (Dev.RegsBut.fenced hR Dev.A_takeMarker hnm r.val).trans hf
  have hmd : (s.dev.takeMarker r src tick hops residence anchor m off).mladus r.val = true :=
    (Dev.RegsBut.mladus hR Dev.A_takeMarker hnp r.val).trans hm
  refine .shutterMark (d := ((s.dev.takeMarker r src tick hops residence anchor m off).err (RGN_SHUTTER_STAT_tick_mismatch r.val) r 0x3E1).dueFence
    r 2) hm hf hp ?_ ((Dev.takeMarker_kept.err (by decide)).dueFence (by decide)).1 ?_
  · rw [hoff, Dev.followMarker_eq]
    refine (if_neg ?_).trans ((if_neg ?_).trans (congrArg (Dev.dueFence · r 2) (if_pos hmd)))
    · exact fun h => ht (h.trans (Dev.tick_takeMarker r))
    · exact fun h => Bool.false_ne_true (hfd.symm.trans (Bool.and_eq_true _ _ ▸ h).2)
  · rw [Dev.on_withFree, Dev.g_withFree, Dev.regsSig_withFree, Dev.dueFence, Dev.on_modCommit, Dev.commit_modCommit_same,
      (Dev.err_frame _ _ _ _).commit, Dev.g_setFld]
    refine ⟨Dev.on_err _ (by simp [RGN_SHUTTER_STAT_tick_mismatch]) (by simp [RGN_SHUTTER_STAT_tick_mismatch])
      (Dev.not_signalReg_rgn r (by norm_num) (by norm_num) (by norm_num)) _ _, ?_,
      (Dev.RegsBut.err hR (by simp [RGN_SHUTTER_STAT_tick_mismatch]) Dev.RegsSig.of_signal).modCommit⟩
    dsimp only
    rw [Dev.fenceDue_takeMarker, hd, if_pos rfl]

end

section
variable {s : State} {r : Region} {via : Option (Fin 6)}

/-- A new notice of the members is kept and flooded. -/
theorem member_carried {committing absent fenced recovering tick : Nat} (hm : s.dev.mladus r.val = true)
    (hn : (tick, ((committing * 256 + absent) * 256 + fenced) * 256 + recovering) ∉ (s.dev.g r).commit.notices) :
    Carried (.member r via committing absent fenced recovering tick) s [.wire, .commit] fun e =>
      (e.g r).commit = { (s.dev.g r).commit with
          heard := [(s.dev.g r).tick],
          notices := (s.dev.g r).commit.notices ++ [(tick, ((committing * 256 + absent) * 256 + fenced) * 256 + recovering)] }
        ∧ (∀ q, q ≠ r → (e.g q).commit = (s.dev.g q).commit)
        ∧ e.wire = s.dev.wire.erase ⟨s.dev.cameFrom r via, r.val, .member committing absent fenced recovering tick⟩
            ++ (s.dev.floodTo r.val via).map (fun p => ⟨r.val, p, .member committing absent fenced recovering tick⟩) := by
  have hx : exec (.member r via committing absent fenced recovering tick) s = execMember r via committing absent fenced recovering tick s := rfl
  refine .of_run_eq hx (if_neg ?_) (((((Dev.Kept.refl _ _).receive (by decide)).modCommit (by decide)).modCommit (by decide)).flood (by decide)).1 ?_
  · rw [Dev.commit_modCommit_same, Dev.g_receive, Dev.mladus_modCommit, Dev.mladus_receive, hm]
    simp [hn]
  · simp only [Dev.g_withFree, Dev.wire_withFree, Dev.g_flood, Dev.wire_flood, Dev.commit_modCommit_same, Dev.wire_modCommit,
      Dev.wire_receive, Dev.g_receive, Dev.floodTo_modCommit, Dev.floodTo_receive, true_and, and_true]
    exact fun q hq => by rw [Dev.commit_modCommit_ne _ _ _ _ hq, Dev.commit_modCommit_ne _ _ _ _ hq, Dev.g_receive]

/-- A new notice of the edges for a later shutter is kept and flooded. -/
theorem linkState_carried {edges tick : Nat} (hm : s.dev.mladus r.val = true) (hn : (edges, tick) ∉ (s.dev.g r).routeDue)
    (ht : Dev.tickAfter tick (s.dev.g r).tick = true) : Carried (.linkState r via edges tick) s [.wire, .routeDue] fun e =>
      (e.g r).routeDue = (s.dev.g r).routeDue ++ [(edges, tick)] ∧ (∀ q, q ≠ r → (e.g q).routeDue = (s.dev.g q).routeDue)
        ∧ e.wire = s.dev.wire.erase ⟨s.dev.cameFrom r via, r.val, .linkState edges tick⟩
            ++ (s.dev.floodTo r.val via).map (fun p => ⟨r.val, p, .linkState edges tick⟩) := by
  have hx : exec (.linkState r via edges tick) s = execLinkState r via edges tick s := rfl
  have hf : (s.dev.receive (s.dev.cameFrom r via) r.val (.linkState edges tick)).noteRoute r via edges tick
      = ((s.dev.receive (s.dev.cameFrom r via) r.val (.linkState edges tick)).modR r
          fun g => { g with routeDue := g.routeDue ++ [(edges, tick)] }).flood r via (.linkState edges tick) := by
    refine if_neg ?_
    rw [Dev.g_receive, Dev.mladus_receive, hm, ht]
    simp [hn]
  refine .of_run_eq hx hf (hf ▸ (((Dev.Kept.refl _ _).receive (by decide)).noteRoute fun _ => id).1) ?_
  simp only [Dev.g_withFree, Dev.wire_withFree, Dev.g_flood, Dev.wire_flood, Dev.g_modR_same, Dev.wire_modR,
    Dev.wire_receive, Dev.g_receive, Dev.floodTo_modR, Dev.floodTo_receive, true_and, and_true]
  exact fun q hq => by rw [Dev.g_modR_ne _ _ _ _ hq, Dev.g_receive]

variable {m : Fin 6} {x p time turn : Nat}

/-- An echo request is answered. -/
theorem echoReq_carried (hf : s.dev.facing r.val m.val = some (x, p)) : Carried (.echoReq r m time turn) s [.wire] fun e =>
    e.wire = s.dev.wire.erase ⟨p, r.val, .echoReq time⟩ ++ [⟨r.val, p, .echoRsp time turn⟩] := by
  have hx : exec (.echoReq r m time turn) s = execEchoReq r m time turn s := rfl
  exact .of_doing hx (d := (s.dev.receive p r.val (.echoReq time)).send r.val p (.echoRsp time turn)) (by simp only [hf])
    (((Dev.Kept.refl _ _).receive (by decide)).send (by decide)).1 rfl

/-- The answer to an echo measures the link. -/
theorem echoRsp_carried {now : Nat} (hf : s.dev.facing r.val m.val = some (x, p)) :
    Carried (.echoRsp r m time turn now) s [.regs, .wire] fun e =>
      e.fld (RGN_CF_DELAY_delay r.val m.val) = (now - time - turn) / 2 % 2 ^ (RGN_CF_DELAY_delay r.val m.val).width
        ∧ e.wire = s.dev.wire.erase ⟨p, r.val, .echoRsp time turn⟩ ∧ s.dev.RegsIn [RGN_CF_DELAY r.val m.val] e := by
  have hx : exec (.echoRsp r m time turn now) s = execEchoRsp r m time turn now s := rfl
  refine .of_doing hx (d := (s.dev.receive p r.val (.echoRsp time turn)).setFld (RGN_CF_DELAY_delay r.val m.val) ((now - time - turn) / 2))
    (by simp only [hf]) (((Dev.Kept.refl _ _).receive (by decide)).setFld (by decide)).1 ?_
  rw [Dev.fld_withFree, Dev.wire_withFree, Dev.regsIn_withFree, Dev.wire_setFld, Dev.fld_setFld_same _ _ _ (by simp [RGN_CF_DELAY_delay])]
  exact ⟨rfl, rfl, (Dev.RegsBut.refl _ _).receive.setFld (by simp [RGN_CF_DELAY_delay])⟩

/-- A new generation is noted in the mirror of the region that it reaches. -/
theorem genUpdate_carried {src : Region} {holder : Nat} (hm : s.dev.inTurn src.val r.val (.genUpdate holder) = true) :
    Carried (.genUpdate r src holder) s [.wire, .mirror] fun e =>
      Sparse.get (fun _ => 0) (e.g r).mirror (Dev.holderKey holder) = (bitsOf holder 30 24 + 128 - s.dev.holderBase holder) % 128
        ∧ (∀ k, k ≠ Dev.holderKey holder → Sparse.get (fun _ => 0) (e.g r).mirror k = Sparse.get (fun _ => 0) (s.dev.g r).mirror k)
        ∧ ∀ q, q ≠ r → (e.g q).mirror = (s.dev.g q).mirror := by
  have hx : exec (.genUpdate r src holder) s = execGenUpdate r src holder s := rfl
  refine .of_deliverAll hx hm (((Dev.Kept.refl _ _).receive (by decide)).setMirror (by decide)).1 ?_
  simp only [Dev.setMirror, Dev.g_withFree, Dev.g_modR_same, Dev.g_receive]
  refine ⟨Sparse.get_set_same .., fun k hk => Sparse.get_set_ne _ _ _ _ _ hk, fun q hq => ?_⟩
  rw [Dev.g_modR_ne _ _ _ _ hq, Dev.g_receive]

end

/-- Settles O29, clause by clause. -/
theorem markersMembersAndEchoesAreTaken : Obligations.MarkersMembersAndEchoesAreTaken :=
  ⟨fun _ _ _ _ _ _ _ _ _ _ => shutterMark_aligned_carried, fun _ _ _ _ _ _ _ _ _ => shutterMark_astray_carried,
    fun _ _ _ _ _ _ _ _ _ => shutterMark_mismatch_carried, fun _ _ _ _ _ _ _ _ => member_carried, fun _ _ _ _ _ => linkState_carried,
    fun _ _ _ _ _ _ _ => echoReq_carried, fun _ _ _ _ _ _ _ _ => echoRsp_carried, fun _ _ _ _ => genUpdate_carried⟩

end Sys2Proof.Machine

namespace Sys2Proof.Machine
namespace Dev

/-! ### Signals only add messages

What interrupts and monitor events do to the wire is to append to it, so a message that was sent before a signal is still in flight after it. -/

/-- An operation that takes no message off the wire. -/
def Sends (d e : Dev) : Prop := d.wire <+: e.wire

section
variable {d0 d e : Dev}

theorem Sends.refl (d : Dev) : d.Sends d := List.prefix_refl _
theorem Sends.trans (h : d0.Sends d) (k : d.Sends e) : d0.Sends e := List.IsPrefix.trans h k
theorem Sends.mem (h : d.Sends e) {f : Flight} (hf : f ∈ d.wire) : f ∈ e.wire := h.subset hf

/-- An operation that leaves the wire alone. -/
theorem Sends.of_kept {l : List Part} (h : d.Kept l e) (hl : Part.wire ∉ l) : d.Sends e := by
  rw [Sends, h.1 .wire hl]

variable (h : d0.Sends d)
include h

theorem Sends.kept {l : List Part} (k : d.Kept l e) (hl : Part.wire ∉ l) : d0.Sends e := h.trans (.of_kept k hl)
theorem Sends.setFld {f : Fld} {v : Nat} : d0.Sends (d.setFld f v) := h.kept (setFld_kept ..) (by decide)
theorem Sends.setOn {f : Fld} : d0.Sends (d.setOn f) := h.setFld
theorem Sends.clr {f : Fld} : d0.Sends (d.clr f) := h.setFld
theorem Sends.addSat {f : Fld} {n : Nat} : d0.Sends (d.addSat f n) := h.setFld
theorem Sends.wake {k : Nat} : d0.Sends (d.wake k) := h.kept ((Kept.refl [.ctxs] d).wake fun _ => id) (by decide)
theorem Sends.send {p q : Nat} {m : Msg} : d0.Sends (d.send p q m) := h.trans (List.prefix_append ..)
theorem Sends.flood {r : Region} {via : Option (Fin 6)} {m : Msg} : d0.Sends (d.flood r via m) := h.trans (List.prefix_append ..)
theorem Sends.modCommit {r : Region} {f : CommitState → CommitState} : d0.Sends (d.modCommit r f) := h

theorem Sends.ite {c : Prop} [Decidable c] (k : d0.Sends e) : d0.Sends (if c then d else e) := by
  split_ifs
  · exact h
  · exact k

theorem Sends.deliver {r : Region} {n : Nat} : d0.Sends (d.deliver r n) := by
  unfold Dev.deliver
  dsimp only
  exact .ite (.ite (.ite h.clr.send h.clr.send) (.ite (.ite h.wake h) (.ite h.clr.send h.clr.send))) h

theorem Sends.arrive {r : Region} {n : Nat} : d0.Sends (d.arrive r n).1 := by
  unfold Dev.arrive
  split_ifs
  · exact h.addSat.setOn
  · exact h.addSat.setOn
  · exact h.addSat.deliver
  · exact h

theorem Sends.monBank (base count hit : Nat) (region : Option Nat) (width sel qual n : Nat) (src : Signal) :
    d0.Sends (d.monBank base count hit region width sel qual n src).1 :=
  h.kept ((Kept.refl [.regs] d).monBank fun _ => id) (by decide)

theorem Sends.monRegion (r : Region) (sel qual n : Nat) : d0.Sends (d.monRegion r sel qual n).1 :=
  h.kept ((Kept.refl [.regs] d).monRegion fun _ => id) (by decide)

theorem Sends.signalOne {x : Signal} : d0.Sends (d.signalOne x).1 := by
  unfold Dev.signalOne
  cases x with
  | arrive r n => exact h.arrive
  | blockEvent r b sel qual n =>
    dsimp only
    exact (h.monBank ..).monRegion ..
  | regionEvent r sel qual n => exact h.monRegion ..
  | chipEvent sel qual n => exact h.monBank ..

theorem Sends.signals {n : Nat} {l : List Signal} : d0.Sends (signals n d l) := by
  induction n generalizing d l with
  | zero => cases l <;> exact h
  | succ n ih =>
    cases l with
    | nil => exact h
    | cons x t => exact ih h.signalOne

theorem Sends.raise {r : Region} {n : Nat} : d0.Sends (d.raise r n) := h.signals
theorem Sends.event {r : Region} {sel qual n : Nat} : d0.Sends (d.event r sel qual n) := h.signals
theorem Sends.cevent {sel qual : Nat} : d0.Sends (d.cevent sel qual) := h.signals

end

end Dev
end Sys2Proof.Machine

namespace Sys2Proof.Machine
namespace Dev

/-! ### The broadcast of a commit (R103, R105, R121) -/

/-- The commit of a tick, from the seals that the anchor holds for it. -/
def commitOf (d : Dev) (tick : Nat) : Commit := ⟨tick, d.lastCommit, (d.sealsFor tick).map fun x => ⟨x.region, x.count, x.code⟩⟩

/-- The anchor's account of a commit that it broadcasts. -/
def noteCommit (d : Dev) (c : Commit) : Dev :=
  (d.setPair (CHP_COMMIT_LAST_LO d.A) (CHP_COMMIT_LAST_HI d.A) c.tick).modA fun a =>
    { a with seals := a.seals.filter (·.tick != c.tick), takenOver := false,
             commits := (a.commits.filter (fun x => ticksAhead c.tick x.tick < 64)) ++ [c] }

/-- The report of a gap before a commit. -/
def noteGap (d : Dev) (gap : Bool) (c : Commit) : Dev :=
  d.when gap fun d => (d.setOn (CHP_COMMIT_ERR_commit_gap d.A)).journalChip 0x0407 d.A 0
    (bytesLE 6 ((c.last + 1) % 2 ^ 48) ++ bytesLE 6 ((c.tick + 2 ^ 48 - 1) % 2 ^ 48))

theorem broadcast_eq (d : Dev) (tick : Nat) :
    ∃ gap, d.broadcast tick = ((((d.noteCommit (d.commitOf tick)).noteGap gap (d.commitOf tick)).send
      ((d.noteCommit (d.commitOf tick)).noteGap gap (d.commitOf tick)).A
      ((d.noteCommit (d.commitOf tick)).noteGap gap (d.commitOf tick)).A (.commit (d.commitOf tick))).flood
      ((d.noteCommit (d.commitOf tick)).noteGap gap (d.commitOf tick)).anchor none (.commit (d.commitOf tick))).cevent 0x300 0 :=
  ⟨d.anchorSt.takenOver && (d.lastCommit + 1) % 2 ^ 48 != tick, rfl⟩

theorem RegsBut.journalChip {own : Nat → Prop} {d0 d : Dev} (h : d0.RegsBut own d) {code origin unit : Nat} {detail : List Byte}
    (hj : ∀ x ∈ journalRegs d.anchor.val d.A, own x) : d0.RegsBut own (d.journalChip code origin unit detail) := h.journalAs hj

@[simp] theorem anchor_setOn (d : Dev) (f : Fld) : (d.setOn f).anchor = d.anchor := (rfl)

section
variable {d : Dev} {c : Commit} {gap : Bool} {tick : Nat}

theorem Kept.noteGap {ps : List Part} {d0 : Dev} (h : d0.Kept ps d)
    (hs : ∀ p ∈ ([.regs, .mem, .line, .endpoints, .journal] : List Part), p ∈ ps) : d0.Kept ps (d.noteGap gap c) := by
  unfold Dev.noteGap
  exact h.when fun e => ((Kept.refl ps e).setOn fun p hp => hs p (by simp at hp; simp [hp])).journalChip hs

theorem anchor_noteGap : (d.noteGap gap c).anchor = d.anchor := ((Kept.refl _ d).noteGap fun _ => id).1 .anchor (by decide)
theorem A_noteGap : (d.noteGap gap c).A = d.A := congrArg Fin.val anchor_noteGap

theorem A_noteCommit : (d.noteCommit c).A = d.A := by
  rw [noteCommit, A_modA, A_setPair]

/-- The registers that are written once a commit is noted: those of the gap's report, and those of signals. -/
def reportRegs (d : Dev) : List Nat := CHP_COMMIT_ERR d.A :: journalRegs d.anchor.val d.A

theorem regsBut_noteGap : d.RegsBut (· ∈ d.reportRegs) (d.noteGap gap c) := by
  have h := (RegsBut.refl (· ∈ d.reportRegs) d).setOn (f := CHP_COMMIT_ERR_commit_gap d.A) (.head _)
  unfold noteGap
  refine (RegsBut.refl _ d).when (h.journalChip ?_)
  rw [A_setOn, anchor_setOn]
  exact fun x hx => .tail _ hx

theorem regsSig_broadcast : (d.noteCommit (d.commitOf tick)).RegsSig (d.noteCommit (d.commitOf tick)).reportRegs (d.broadcast tick) := by
  obtain ⟨gap, h⟩ := d.broadcast_eq tick
  rw [h]
  have hg : (d.noteCommit (d.commitOf tick)).RegsSig (d.noteCommit (d.commitOf tick)).reportRegs
      ((d.noteCommit (d.commitOf tick)).noteGap gap (d.commitOf tick)) := regsBut_noteGap.mono fun _ => .inl
  exact hg.send.flood.signalled (signalled_cevent _ _ _) RegsSig.of_signal

theorem A_broadcast : (d.broadcast tick).A = d.A :=
  congrArg Fin.val (((Kept.refl _ d).broadcast fun _ => id).1 .anchor (by decide))

theorem RegsBut.lastCommit {own : Nat → Prop} {e : Dev} (h : d.RegsBut own e) (hA : e.A = d.A) (hl : ¬ own (CHP_COMMIT_LAST_LO d.A))
    (hh : ¬ own (CHP_COMMIT_LAST_HI d.A)) : e.lastCommit = d.lastCommit := by
  unfold Dev.lastCommit pair
  rw [hA, h _ hl, h _ hh]

/-- A chip register below the fault control and outside the monitors' is none that the report of a gap changes. -/
theorem chp_not_report {x : Nat} (hx : x < 0x50030) (h : x < 0x20000 ∨ 0x30000 ≤ x) (he : x ≠ 0x30030) :
    ¬ (chpReg d.A x ∈ d.reportRegs ∨ signalReg (chpReg d.A x)) :=
  d.chp_not_sig (by omega) h (List.not_mem_cons_of_ne_of_not_mem (mt chpReg_inj.1 he) (d.chpReg_not_mem_journalRegs hx))

theorem lastCommit_noteCommit (h : c.tick < 2 ^ 64) : (d.noteCommit c).lastCommit = c.tick := by
  have hne : CHP_COMMIT_LAST_LO d.A ≠ CHP_COMMIT_LAST_HI d.A := mt chpReg_inj.1 (by norm_num)
  unfold lastCommit pair
  rw [A_noteCommit, noteCommit, reg_modA, reg_modA, reg_setPair_lo _ hne, reg_setPair_hi, BitVec.toNat_ofNat, BitVec.toNat_ofNat]
  omega

/-- The commit's tick is the last that was broadcast. -/
theorem lastCommit_broadcast (h : tick < 2 ^ 64) : (d.broadcast tick).lastCommit = tick :=
  (regsSig_broadcast.lastCommit (by rw [A_broadcast, A_noteCommit]) (chp_not_report (by norm_num) (by norm_num) (by norm_num))
    (chp_not_report (by norm_num) (by norm_num) (by norm_num))).trans (lastCommit_noteCommit h)

/-- The commit goes to the anchor's own region. -/
theorem mem_wire_broadcast : ⟨d.A, d.A, .commit (d.commitOf tick)⟩ ∈ (d.broadcast tick).wire := by
  obtain ⟨gap, h⟩ := d.broadcast_eq tick
  rw [h, A_noteGap, A_noteCommit]
  refine ((Sends.refl _).flood.cevent).mem ?_
  rw [wire_send]
  exact List.mem_append_right _ (.head _)

/-! ### Seals (R103, R104) -/

theorem RegsBut.absent {own : Nat → Prop} {e : Dev} (h : d.RegsBut own e) (hA : e.A = d.A) (hn : ¬ own (CHP_COMMIT_MEMBERS d.A)) (q : Nat) :
    e.absent q = d.absent q := by
  unfold Dev.absent
  rw [hA]
  exact congrArg (bitOf · q) (h.fld hn)

theorem RegsBut.sealers {own : Nat → Prop} {e : Dev} (h : d.RegsBut own e) (hA : e.A = d.A) (hn : ¬ own (CHP_COMMIT_MEMBERS d.A)) :
    e.sealers = d.sealers := by
  simp only [Dev.sealers, h.committing hA hn, h.absent hA hn, h.fenced hA hn]

/-- Every seal taken for a tick is one that is held. -/
theorem of_mem_sealsFor {x : SealRec} (h : x ∈ d.sealsFor tick) : x ∈ d.anchorSt.seals ∧ x.tick = tick := by
  obtain ⟨q, -, hq⟩ := List.mem_filterMap.1 h
  have hp := List.find?_some hq
  simp only [Bool.and_eq_true, beq_iff_eq] at hp
  exact ⟨List.mem_of_find?_eq_some hq, hp.2⟩

/-- A region is among the seals taken for a tick exactly where one of its seals is held. -/
theorem any_sealsFor (q : Region) :
    (d.sealsFor tick).any (·.region == q.val) = true ↔ ∃ x ∈ d.anchorSt.seals, x.region = q.val ∧ x.tick = tick := by
  rw [List.any_eq_true]
  constructor
  · rintro ⟨x, hx, hr⟩
    obtain ⟨hs, ht⟩ := of_mem_sealsFor hx
    exact ⟨x, hs, beq_iff_eq.1 hr, ht⟩
  · rintro ⟨x, hs, hr, ht⟩
    have hf : (d.anchorSt.seals.find? fun x => x.region == q.val && x.tick == tick).isSome = true :=
      List.find?_isSome.2 ⟨x, hs, by simp [hr, ht]⟩
    obtain ⟨y, hy⟩ := Option.isSome_iff_exists.1 hf
    have hp := List.find?_some hy
    simp only [Bool.and_eq_true] at hp
    exact ⟨y, List.mem_filterMap.2 ⟨q.val, List.mem_range.2 q.isLt, hy⟩, hp.1⟩

/-- The anchor's seals once a seal is held in the place of an earlier one of its region and tick. -/
def holdSeal (l : List SealRec) (x : SealRec) : List SealRec := l.filter (fun y => !(y.region == x.region && y.tick == x.tick)) ++ [x]

theorem find?_holdSeal (l : List SealRec) (x : SealRec) :
    (holdSeal l x).find? (fun y => y.region == x.region && y.tick == x.tick) = some x := by
  have hn : (l.filter fun y => !(y.region == x.region && y.tick == x.tick)).find? (fun y => y.region == x.region && y.tick == x.tick) = none :=
    List.find?_eq_none.2 fun y hy => by simpa [imp_iff_not_or] using (List.mem_filter.1 hy).2
  rw [holdSeal, List.find?_append, hn]
  simp

theorem mem_holdSeal_of_region_ne {l : List SealRec} {x y : SealRec} (h : y.region ≠ x.region) : y ∈ holdSeal l x ↔ y ∈ l := by
  have hx : y ≠ x := fun e => h (congrArg _ e)
  simp [holdSeal, h, hx]

/-- The anchor holds a seal, which ends its region's run of late ones. -/
def takeSeal (d : Dev) (src : Region) (x : SealRec) : Dev :=
  (d.modA fun a => { a with seals := holdSeal a.seals x, lateRuns := a.lateRuns.filter (·.1 != src.val) }).clr (RGN_STAGE_STAT_late_run src.val)

variable {src : Region} {x : SealRec}

theorem Kept.takeSeal {ps : List Part} {d0 : Dev} (h : d0.Kept ps d) (hs : ∀ p ∈ ([.regs, .anchorSt] : List Part), p ∈ ps) :
    d0.Kept ps (d.takeSeal src x) := by
  unfold Dev.takeSeal
  exact (h.modA fun p hp => hs p (by simp at hp; simp [hp])).clr fun p hp => hs p (by simp at hp; simp [hp])

theorem regsIn_takeSeal : d.RegsIn [RGN_STAGE_STAT src.val] (d.takeSeal src x) := by
  unfold takeSeal
  exact (RegsBut.refl _ d).modA.clr (by simp [RGN_STAGE_STAT_late_run])

theorem A_takeSeal : (d.takeSeal src x).A = d.A := by
  rw [takeSeal, A_clr, A_modA]

theorem seals_takeSeal : (d.takeSeal src x).anchorSt.seals = holdSeal d.anchorSt.seals x := by
  rw [takeSeal, clr_eq, anchorSt_setFld, anchorSt_modA]

theorem chp_not_mem_stageStat {y : Nat} (hy : y < 2 ^ 24) : chpReg d.A y ∉ [RGN_STAGE_STAT src.val] := by
  rw [List.mem_singleton]
  exact chpReg_ne_rgnReg hy (by norm_num)

theorem sealers_takeSeal : (d.takeSeal src x).sealers = d.sealers :=
  regsIn_takeSeal.sealers A_takeSeal (chp_not_mem_stageStat (by norm_num))

theorem lastCommit_takeSeal : (d.takeSeal src x).lastCommit = d.lastCommit :=
  regsIn_takeSeal.lastCommit A_takeSeal (chp_not_mem_stageStat (by norm_num)) (chp_not_mem_stageStat (by norm_num))

/-- Where a region's seal is missing, nothing is broadcast. -/
theorem broadcastIfWhole_of_missing {q : Region} (hq : q ∈ d.sealers) (h : ∀ x ∈ d.anchorSt.seals, ¬ (x.region = q.val ∧ x.tick = tick)) :
    d.broadcastIfWhole tick = d := by
  have hm : (d.sealsFor tick).any (·.region == q.val) ≠ true := by
    rw [Ne, any_sealsFor]
    exact fun ⟨x, hx, hp⟩ => h x hx hp
  have ha : (d.sealers.all fun q => (d.sealsFor tick).any (·.region == q.val)) ≠ true := fun h => hm (List.all_eq_true.1 h q hq)
  exact if_neg (by simp only [Bool.and_eq_true]; exact fun h => ha h.1)

/-- Where every awaited seal is held, the commit is broadcast. -/
theorem broadcastIfWhole_of_whole (h : ∀ q ∈ d.sealers, ∃ x ∈ d.anchorSt.seals, x.region = q.val ∧ x.tick = tick)
    (ht : tickAfter tick d.lastCommit = true) : d.broadcastIfWhole tick = d.broadcast tick := by
  have ha : (d.sealers.all fun q => (d.sealsFor tick).any (·.region == q.val)) = true :=
    List.all_eq_true.2 fun q hq => (any_sealsFor q).2 (h q hq)
  exact if_pos (by simp only [Bool.and_eq_true]; exact ⟨ha, ht⟩)

end

section
variable (d : Dev) (p n : Nat) (m : Msg)

@[simp] theorem anchorLive_receive : (d.receive p n m).anchorLive = d.anchorLive := (rfl)
@[simp] theorem lastCommit_receive : (d.receive p n m).lastCommit = d.lastCommit := (rfl)
@[simp] theorem sealers_receive : (d.receive p n m).sealers = d.sealers := (rfl)
@[simp] theorem absent_receive (k : Nat) : (d.receive p n m).absent k = d.absent k := (rfl)

end
end Dev

section
variable {s : State} {r src dst : Region} {tick count : Nat} {code : Word} {m : Mut}

/-- A record whose commit is not held yet is kept. -/
theorem mutRecord_carried (hm : s.dev.inTurn src.val r.val (.mutRecord tick m) = true) (hh : ∀ c ∈ (s.dev.g r).commit.held, c.tick ≠ tick) :
    Carried (.mutRecord r src tick m) s [.wire, .commit] fun e =>
      (e.g r).commit = { (s.dev.g r).commit with copies := (s.dev.g r).commit.copies ++ [⟨tick, m⟩] }
        ∧ (∀ q, q ≠ r → (e.g q).commit = (s.dev.g q).commit) ∧ e.wire = s.dev.wire.erase ⟨src.val, r.val, .mutRecord tick m⟩ := by
  have hx : exec (.mutRecord r src tick m) s = execMutRecord r src tick m s := rfl
  refine .of_deliverAll_eq (d := (s.dev.receive src.val r.val (.mutRecord tick m)).modCommit r fun c => { c with copies := c.copies ++ [⟨tick, m⟩] })
    hx hm ?_ (((Dev.Kept.refl _ _).receive (by decide)).modCommit (by decide)).1 ?_
  · have hn : (s.dev.g r).commit.held.find? (·.tick == tick) = none := List.find?_eq_none.2 fun c hc => by simp [hh c hc]
    simp only [Dev.commit_modCommit_same, Dev.g_receive, hn]
  · simp only [Dev.g_withFree, Dev.commit_modCommit_same, Dev.g_receive, Dev.wire_withFree, Dev.wire_modCommit, Dev.wire_receive, true_and, and_true]
    exact fun q hq => Dev.commit_modCommit_ne _ _ _ _ hq

/-- A seal that no commit awaits is only taken off the wire. -/
theorem seal_ignored_carried (hd : s.dev.sealTo src (.seal tick count code) = dst.val)
    (hm : s.dev.inTurn src.val dst.val (.seal tick count code) = true)
    (hi : s.dev.fenced src.val = true ∨ s.dev.committing src.val = false ∨ Dev.tickAfter tick s.dev.lastCommit = false ∨ dst.val ≠ s.dev.A) :
    Carried (.seal src tick count code) s [.wire] fun e => e.wire = s.dev.wire.erase ⟨src.val, dst.val, .seal tick count code⟩ := by
  have hx : exec (.seal src tick count code) s = execSeal src tick count code s := rfl
  unfold execSeal at hx
  rw [hd] at hx
  refine .of_deliverAll_eq (d := s.dev.receive src.val dst.val (.seal tick count code)) hx hm (if_pos ?_)
    ((Dev.Kept.refl _ _).receive (by decide)).1 ?_
  · rw [Dev.A_receive, Dev.fenced_receive, Dev.committing_receive, Dev.lastCommit_receive]
    rcases hi with h | h | h | h <;> simp [h]
  · rw [Dev.wire_withFree, Dev.wire_receive]

/-- The part after the anchor takes a seal off the wire and holds it. -/
def Dev.tookSeal (d : Dev) (src : Region) (tick count : Nat) (code : Word) : Dev :=
  (d.receive src.val d.A (.seal tick count code)).takeSeal src ⟨src.val, tick, count, code⟩

/-- A seal on time is held, and then its commit is broadcast if it is whole. -/
theorem seal_carried {l : List Part} {P : Dev → Prop} (hd : s.dev.sealTo src (.seal tick count code) = s.dev.A)
    (hm : s.dev.inTurn src.val s.dev.A (.seal tick count code) = true) (ha : s.dev.anchorLive = true) (hf : s.dev.fenced src.val = false)
    (hc : s.dev.committing src.val = true) (hb : s.dev.absent src.val = false) (ht : Dev.tickAfter tick s.dev.lastCommit = true)
    {d : Dev} (he : (s.dev.tookSeal src tick count code).broadcastIfWhole tick = d) (ho : s.dev.OnlyIn l d) (hp : P (d.withFree (s.dev.free + 1))) :
    Carried (.seal src tick count code) s l P := by
  have hx : exec (.seal src tick count code) s = execSeal src tick count code s := rfl
  unfold execSeal at hx
  rw [hd] at hx
  refine .of_deliverAll_eq hx hm ((if_neg ?_).trans ?_) ho hp
  · rw [Dev.A_receive, Dev.fenced_receive, Dev.committing_receive, Dev.lastCommit_receive, Dev.anchorLive_receive]
    simp [ha, hf, hc, ht]
  · rw [Dev.absent_receive, hb]
    exact he

section
variable {d : Dev}

theorem Dev.kept_tookSeal : d.Kept [.regs, .wire, .anchorSt] (d.tookSeal src tick count code) :=
  ((Dev.Kept.refl _ d).receive (by decide)).takeSeal (by decide)

theorem Dev.seals_tookSeal : (d.tookSeal src tick count code).anchorSt.seals = holdSeal d.anchorSt.seals ⟨src.val, tick, count, code⟩ := by
  rw [tookSeal, seals_takeSeal, anchorSt_receive]

theorem Dev.regsIn_tookSeal : d.RegsIn [RGN_STAGE_STAT src.val] (d.tookSeal src tick count code) :=
  (RegsBut.refl _ d).receive.trans regsIn_takeSeal

theorem Dev.lateRun_tookSeal : (d.tookSeal src tick count code).fld (RGN_STAGE_STAT_late_run src.val) = 0 := by
  rw [tookSeal, takeSeal, clr_eq, fld_setFld_same _ _ _ (by simp [RGN_STAGE_STAT_late_run]), Nat.zero_mod]

theorem Dev.sealers_tookSeal : (d.tookSeal src tick count code).sealers = d.sealers := by
  rw [tookSeal, sealers_takeSeal, sealers_receive]

theorem Dev.A_tookSeal : (d.tookSeal src tick count code).A = d.A := by
  rw [tookSeal, A_takeSeal, A_receive]

theorem Dev.lastCommit_tookSeal : (d.tookSeal src tick count code).lastCommit = d.lastCommit := by
  rw [tookSeal, lastCommit_takeSeal, lastCommit_receive]

/-- Once a seal is held, every sealer has one where every other had. -/
theorem Dev.sealed_tookSeal (h : ∀ q ∈ d.sealers, q ≠ src → ∃ x ∈ d.anchorSt.seals, x.region = q.val ∧ x.tick = tick) (q : Region)
    (hq : q ∈ d.sealers) : ∃ x ∈ (d.tookSeal src tick count code).anchorSt.seals, x.region = q.val ∧ x.tick = tick := by
  rw [seals_tookSeal]
  by_cases hs : q = src
  · exact ⟨_, List.mem_append_right _ (.head _), congrArg Fin.val hs.symm, rfl⟩
  · obtain ⟨x, hx, hr, ht⟩ := h q hq hs
    refine ⟨x, (mem_holdSeal_of_region_ne ?_).2 hx, hr, ht⟩
    rw [hr]
    exact fun e => hs (Fin.ext e)

/-- The seal just held counts for its commit. -/
theorem Dev.mem_sealsFor_tookSeal : ⟨src.val, tick, count, code⟩ ∈ (d.tookSeal src tick count code).sealsFor tick := by
  rw [sealsFor, seals_tookSeal]
  exact List.mem_filterMap.2 ⟨src.val, List.mem_range.2 src.isLt, find?_holdSeal d.anchorSt.seals ⟨src.val, tick, count, code⟩⟩

end

/-- A seal that is not the last awaited one is held. -/
theorem seal_held_carried {q : Region} (hm : s.dev.inTurn src.val s.dev.A (.seal tick count code) = true)
    (hd : s.dev.sealTo src (.seal tick count code) = s.dev.A) (ha : s.dev.anchorLive = true) (hf : s.dev.fenced src.val = false)
    (hc : s.dev.committing src.val = true) (hb : s.dev.absent src.val = false) (ht : Dev.tickAfter tick s.dev.lastCommit = true)
    (hq : q ∈ s.dev.sealers) (hne : q ≠ src) (hn : ∀ x ∈ s.dev.anchorSt.seals, ¬ (x.region = q.val ∧ x.tick = tick)) :
    Carried (.seal src tick count code) s [.regs, .wire, .anchorSt] fun e =>
      e.anchorSt.seals = s.dev.anchorSt.seals.filter (fun x => !(x.region == src.val && x.tick == tick)) ++ [⟨src.val, tick, count, code⟩]
        ∧ e.fld (RGN_STAGE_STAT_late_run src.val) = 0 ∧ s.dev.RegsIn [RGN_STAGE_STAT src.val] e := by
  refine seal_carried hd hm ha hf hc hb ht (Dev.broadcastIfWhole_of_missing (q := q) ?_ ?_) Dev.kept_tookSeal.1 ?_
  · rw [Dev.sealers_tookSeal]
    exact hq
  · rw [Dev.seals_tookSeal]
    intro x hx hp
    refine hn x ((Dev.mem_holdSeal_of_region_ne ?_).1 hx) hp
    rw [hp.1]
    exact fun e => hne (Fin.ext e)
  · rw [Dev.anchorSt_withFree, Dev.fld_withFree, Dev.regsIn_withFree]
    exact ⟨Dev.seals_tookSeal, Dev.lateRun_tookSeal, Dev.regsIn_tookSeal⟩

/-- The last awaited seal broadcasts its commit. -/
theorem seal_whole_carried (hm : s.dev.inTurn src.val s.dev.A (.seal tick count code) = true)
    (hd : s.dev.sealTo src (.seal tick count code) = s.dev.A) (ha : s.dev.anchorLive = true) (hf : s.dev.fenced src.val = false)
    (hc : s.dev.committing src.val = true) (hb : s.dev.absent src.val = false) (h48 : tick < 2 ^ 48)
    (ht : Dev.tickAfter tick s.dev.lastCommit = true)
    (hw : ∀ q ∈ s.dev.sealers, q ≠ src → ∃ x ∈ s.dev.anchorSt.seals, x.region = q.val ∧ x.tick = tick) :
    Carried (.seal src tick count code) s [.regs, .mem, .wire, .line, .anchorSt, .ctxs, .endpoints, .journal] fun e =>
      e.lastCommit = tick ∧ ∃ c : Commit, ⟨s.dev.A, s.dev.A, .commit c⟩ ∈ e.wire ∧ c.tick = tick ∧ c.last = s.dev.lastCommit
        ∧ ⟨src.val, count, code⟩ ∈ c.parts ∧ ∀ q ∈ s.dev.sealers, q.val ∈ c.parts.map (·.region) := by
  have hs := Dev.sealed_tookSeal (count := count) (code := code) hw
  refine seal_carried hd hm ha hf hc hb ht (Dev.broadcastIfWhole_of_whole ?_ ?_) ((Dev.kept_tookSeal.mono (by decide)).broadcast (by decide)).1 ?_
  · rw [Dev.sealers_tookSeal]
    exact hs
  · rw [Dev.lastCommit_tookSeal]
    exact ht
  · rw [Dev.lastCommit_withFree, Dev.wire_withFree]
    refine ⟨Dev.lastCommit_broadcast (h48.trans (by norm_num)), (s.dev.tookSeal src tick count code).commitOf tick, ?_, rfl, Dev.lastCommit_tookSeal, ?_, fun q hq => ?_⟩
    · rw [← Dev.A_tookSeal (d := s.dev) (src := src) (tick := tick) (count := count) (code := code)]
      exact Dev.mem_wire_broadcast
    · exact List.mem_map_of_mem (f := fun x : SealRec => (⟨x.region, x.count, x.code⟩ : Inclusion)) Dev.mem_sealsFor_tookSeal
    · obtain ⟨x, hx, hr⟩ := List.any_eq_true.1 ((Dev.any_sealsFor q).2 (hs q hq))
      exact List.mem_map.2 ⟨_, List.mem_map_of_mem hx, beq_iff_eq.1 hr⟩

end

/-! ### The seal deadline (R104, R113) -/

namespace Dev

/-- How many deadlines in a row a region's seal has missed, with this one. -/
def lateRun (d : Dev) (q : Region) : Nat := ((d.anchorSt.lateRuns.find? (·.1 == q.val)).map (·.2)).getD 0 + 1

/-- What is noted of a region whose seal is missing, before its run is looked at. -/
def lateNoted (d : Dev) (q : Region) : Dev :=
  ((d.modA fun a => { a with lateRuns := a.lateRuns.filter (·.1 != q.val) ++ [(q.val, d.lateRun q)] }).setOn
    (CHP_COMMIT_ERR_late_seal d.A)).cevent 0x301 q.val

/-- A region becomes absent. -/
def becomeAbsent (d : Dev) (q : Region) : Dev :=
  ((d.setFld (CHP_COMMIT_MEMBERS_absent d.A) (withBit (d.fld (CHP_COMMIT_MEMBERS_absent d.A)) q.val true)).err
    (CHP_COMMIT_ERR_region_absent d.A) d.anchor 0x3E5).cevent 0x302 q.val

/-- A region whose seal is missing at the deadline is reported, and after the second run of missing ones becomes absent. -/
def lateStep (d : Dev) (tick : Nat) (q : Region) : Dev :=
  if 2 ≤ d.lateRun q then
    if (((d.lateNoted q).becomeAbsent q).g q).commit.lastMode = .regional then
      ((d.lateNoted q).becomeAbsent q).modA fun a =>
        { a with missedFrom := a.missedFrom.filter (·.1 != q.val) ++ [(q.val, (tick + 2 ^ 48 - (d.lateRun q - 1)) % 2 ^ 48)] }
    else ((d.lateNoted q).becomeAbsent q).dueFence q 0x01
  else d.lateNoted q

/-- What the reports of late regions leave for the broadcast: the seals, the last commit, and the report of a late seal once it is made. -/
structure Late (d e : Dev) : Prop where
  A : e.A = d.A
  seals : e.anchorSt.seals = d.anchorSt.seals
  regs : d.RegsSig [CHP_COMMIT_ERR d.A, CHP_COMMIT_MEMBERS d.A] e
  late : d.on (CHP_COMMIT_ERR_late_seal d.A) = true → e.on (CHP_COMMIT_ERR_late_seal d.A) = true

theorem Late.refl (d : Dev) : d.Late d := ⟨rfl, rfl, RegsBut.refl _ d, id⟩

section
variable {d0 d e : Dev} {q : Region} {tick : Nat}

theorem Late.trans (h : d0.Late d) (k : d.Late e) : d0.Late e := by
  refine ⟨k.A.trans h.A, k.seals.trans h.seals, h.regs.trans ?_, fun hl => ?_⟩
  · have := k.regs
    rwa [h.A] at this
  · have := k.late
    rw [h.A] at this
    exact this (h.late hl)

theorem Late.signalled (h : d0.Late d) (k : d.Signalled e) : d0.Late e := by
  refine h.trans ⟨k.A, congrArg _ k.anchorSt, (RegsBut.refl _ d).signalled k RegsSig.of_signal, fun hl => ?_⟩
  rwa [k.on (d.not_signalReg_chp (by norm_num) (by norm_num))]

theorem Late.modA (h : d0.Late d) {f : AnchorState → AnchorState} (hf : ∀ a, (f a).seals = a.seals) : d0.Late (d.modA f) :=
  h.trans ⟨A_modA .., hf d.anchorSt, (RegsBut.refl _ d).modA, fun hl => by rwa [on_modA]⟩

theorem Late.modCommit (h : d0.Late d) {f : CommitState → CommitState} : d0.Late (d.modCommit q f) :=
  h.trans ⟨A_modCommit .., by rw [anchorSt_modCommit], (RegsBut.refl _ d).modCommit, fun hl => by rwa [on_modCommit]⟩

theorem Late.setOn_late (h : d0.Late d) {a : Nat} (ha : d.A = a) : d0.Late (d.setOn (CHP_COMMIT_ERR_late_seal a)) := by
  subst ha
  refine h.trans ⟨A_setOn .., by rw [setOn_eq, anchorSt_setFld], (RegsBut.refl _ d).setOn (by simp [CHP_COMMIT_ERR_late_seal]), fun _ => ?_⟩
  rw [setOn_eq]
  exact on_setFld_one _ _ (by simp [CHP_COMMIT_ERR_late_seal]) (by simp [CHP_COMMIT_ERR_late_seal])

theorem Late.setAbsent (h : d0.Late d) {v : Nat} : d0.Late (d.setFld (CHP_COMMIT_MEMBERS_absent d.A) v) := by
  refine h.trans ⟨A_setFld .., by rw [anchorSt_setFld], (RegsBut.refl _ d).setFld (by simp [CHP_COMMIT_MEMBERS_absent]), fun hl => ?_⟩
  rw [on_eq_true, fld_setFld_ne _ _ _ _ (mt chpReg_inj.1 (by norm_num)), ← on_eq_true]
  exact hl

theorem Late.setOn_absent (h : d0.Late d) {a : Nat} (ha : d.A = a) : d0.Late (d.setFld (CHP_COMMIT_ERR_region_absent a) 1) := by
  subst ha
  refine h.trans ⟨A_setFld .., by rw [anchorSt_setFld], (RegsBut.refl _ d).setFld (by simp [CHP_COMMIT_ERR_region_absent]), fun hl => ?_⟩
  rw [on_eq_true, fld_setFld_beside _ _ _ _ (by simp [CHP_COMMIT_ERR_region_absent])
    (by simp [CHP_COMMIT_ERR_region_absent, CHP_COMMIT_ERR_late_seal]), ← on_eq_true]
  exact hl

theorem late_lateNoted : d.Late (d.lateNoted q) := by
  unfold lateNoted
  refine Late.signalled ?_ (signalled_cevent _ 0x301 q.val)
  refine Late.setOn_late (Late.modA (.refl d) ?_) ?_
  · exact fun _ => rfl
  · exact A_modA ..

theorem on_lateNoted : (d.lateNoted q).on (CHP_COMMIT_ERR_late_seal d.A) = true := by
  rw [lateNoted, (signalled_cevent _ _ _).on (d.not_signalReg_chp (by norm_num) (by norm_num)), setOn_eq]
  exact on_setFld_one _ _ (by simp [CHP_COMMIT_ERR_late_seal]) (by simp [CHP_COMMIT_ERR_late_seal])

theorem Late.becomeAbsent (h : d0.Late d) : d0.Late (d.becomeAbsent q) := by
  have ha (v : Nat) : d0.Late ((d.setFld (CHP_COMMIT_MEMBERS_absent d.A) v).setFld (CHP_COMMIT_ERR_region_absent d.A) 1) :=
    h.setAbsent.setOn_absent (A_setFld ..)
  unfold Dev.becomeAbsent
  exact ((ha _).signalled (err_frame _ _ d.anchor 0x3E5)).signalled (signalled_cevent _ 0x302 q.val)

theorem lateNoted_late_lateStep : (d.lateNoted q).Late (d.lateStep tick q) := by
  have h := (Late.refl (d.lateNoted q)).becomeAbsent (q := q)
  unfold lateStep
  split_ifs
  · exact h.modA fun _ => rfl
  · exact h.modCommit
  · exact .refl _

theorem late_each {l : List Region} : d.Late (d.each l fun q d => d.lateStep tick q) := by
  unfold Dev.each
  induction l generalizing d with
  | nil => exact .refl d
  | cons q t ih => exact (late_lateNoted.trans lateNoted_late_lateStep).trans (ih (d := d.lateStep tick q))

/-- One region whose seal is missing is enough for the report. -/
theorem on_late_each {l : List Region} (h : l ≠ []) :
    (d.each l fun q d => d.lateStep tick q).on (CHP_COMMIT_ERR_late_seal d.A) = true := by
  obtain ⟨q, t, rfl⟩ := List.exists_cons_of_ne_nil h
  have hA := (late_lateNoted (d := d) (q := q)).A
  have hn := (lateNoted_late_lateStep (d := d) (q := q) (tick := tick)).trans (late_each (tick := tick) (l := t))
  have hl := hn.late
  rw [hA] at hl
  exact hl on_lateNoted

/-- The regions whose seals for a tick are missing. -/
def unsealed (d : Dev) (tick : Nat) : List Region := d.sealers.filter fun q => !(d.sealsFor tick).any (·.region == q.val)

/-- The reports of the regions whose seals are missing at the deadline. -/
def reportLate (d : Dev) (tick : Nat) : Dev := d.each (d.unsealed tick) fun q d => d.lateStep tick q

theorem late_reportLate : d.Late (d.reportLate tick) := late_each

theorem lastCommit_reportLate : (d.reportLate tick).lastCommit = d.lastCommit :=
  late_reportLate.regs.lastCommit late_reportLate.A
    (d.chp_not_sig (by norm_num) (by norm_num) (by simp [CHP_COMMIT_ERR, CHP_COMMIT_MEMBERS, chpReg_inj]))
    (d.chp_not_sig (by norm_num) (by norm_num) (by simp [CHP_COMMIT_ERR, CHP_COMMIT_MEMBERS, chpReg_inj]))

/-- A missing seal is reported. -/
theorem on_reportLate (hq : q ∈ d.sealers) (hn : ∀ x ∈ d.anchorSt.seals, ¬ (x.region = q.val ∧ x.tick = tick)) :
    (d.reportLate tick).on (CHP_COMMIT_ERR_late_seal d.A) = true := by
  have hm : (d.sealsFor tick).any (·.region == q.val) ≠ true := by
    rw [Ne, any_sealsFor]
    exact fun ⟨x, hx, hp⟩ => hn x hx hp
  exact on_late_each (List.ne_nil_of_mem (List.mem_filter.2 ⟨hq, by simpa using hm⟩))

/-- A journal entry leaves a chip field below the fault control as it is. -/
theorem fld_journalChip {f : Fld} {x code origin unit : Nat} {detail : List Byte} (hf : f.addr = chpReg d.A x) (hx : x < 0x50030) :
    (d.journalChip code origin unit detail).fld f = d.fld f := by
  refine ((RegsBut.refl (· ∈ journalRegs d.anchor.val d.A) d).journalChip fun _ => id).fld ?_
  rw [hf]
  exact d.chpReg_not_mem_journalRegs hx

theorem fld_late_noteGap {gap : Bool} {c : Commit} :
    (d.noteGap gap c).fld (CHP_COMMIT_ERR_late_seal d.A) = d.fld (CHP_COMMIT_ERR_late_seal d.A) := by
  unfold noteGap when
  split_ifs
  · refine (fld_journalChip (x := 0x30030) (by rw [A_setOn, CHP_COMMIT_ERR_late_seal, CHP_COMMIT_ERR]) (by norm_num)).trans ?_
    rw [setOn_eq]
    exact fld_setFld_beside _ _ _ _ (by simp [CHP_COMMIT_ERR_commit_gap]) (by simp [CHP_COMMIT_ERR_commit_gap, CHP_COMMIT_ERR_late_seal])
  · rfl

theorem fld_late_noteCommit {c : Commit} :
    (d.noteCommit c).fld (CHP_COMMIT_ERR_late_seal d.A) = d.fld (CHP_COMMIT_ERR_late_seal d.A) := by
  rw [noteCommit, fld_modA]
  exact fld_congr _ (reg_setPair_ne _ (mt chpReg_inj.1 (by norm_num)) (mt chpReg_inj.1 (by norm_num)))

/-- The broadcast leaves the report of a late seal as it is. -/
theorem on_late_broadcast : (d.broadcast tick).on (CHP_COMMIT_ERR_late_seal d.A) = d.on (CHP_COMMIT_ERR_late_seal d.A) := by
  obtain ⟨gap, h⟩ := d.broadcast_eq tick
  have hg := fld_late_noteGap (d := d.noteCommit (d.commitOf tick)) (gap := gap) (c := d.commitOf tick)
  rw [A_noteCommit, fld_late_noteCommit] at hg
  rw [h, (signalled_cevent _ _ _).on (d.not_signalReg_chp (by norm_num) (by norm_num)), on, on, ← hg]
  rfl

theorem Kept.lateNoted {ps : List Part} (h : d0.Kept ps d) (hs : ∀ p ∈ ([.regs, .wire, .ctxs, .anchorSt] : List Part), p ∈ ps) :
    d0.Kept ps (d.lateNoted q) := by
  unfold Dev.lateNoted
  exact ((h.modA fun p hp => hs p (by simp at hp; simp [hp])).setOn fun p hp => hs p (by simp at hp; simp [hp])).cevent
    fun p hp => hs p (by simp at hp; rcases hp with rfl | rfl | rfl <;> simp)

theorem Kept.becomeAbsent {ps : List Part} (h : d0.Kept ps d) (hs : ∀ p ∈ ([.regs, .wire, .ctxs] : List Part), p ∈ ps) :
    d0.Kept ps (d.becomeAbsent q) := by
  unfold Dev.becomeAbsent
  exact ((h.setFld fun p hp => hs p (by simp at hp; simp [hp])).err hs).cevent hs

theorem lateStep_kept (d : Dev) (tick : Nat) (q : Region) :
    d.Kept [.regs, .wire, .ctxs, .anchorSt, .commit] (d.lateStep tick q) := by
  have h := (Kept.refl [.regs, .wire, .ctxs, .anchorSt, .commit] d).lateNoted (q := q) (by decide)
  unfold lateStep
  exact .ite (.ite ((h.becomeAbsent (by decide)).modA (by decide)) ((h.becomeAbsent (by decide)).dueFence (by decide))) h

theorem reportLate_kept (d : Dev) : d.Kept [.regs, .mem, .wire, .line, .anchorSt, .ctxs, .endpoints, .commit, .journal] (d.reportLate tick) :=
  (Kept.refl _ _).each fun q e => (e.lateStep_kept tick q).mono (by decide)

end
end Dev

/-- At the seal deadline the commit of the tick before is broadcast from the seals that are held. -/
theorem sealDeadline_carried {s : State} (ha : s.dev.anchorLive = true) (hr : (s.dev.g s.dev.anchor).commit.lastMode.isRun = true)
    (h0 : 0 < s.dev.tick) (h48 : s.dev.tick < 2 ^ 48) (ht : Dev.tickAfter (s.dev.tick - 1) s.dev.lastCommit = true) :
    Carried .sealDeadline s [.regs, .mem, .wire, .line, .anchorSt, .ctxs, .endpoints, .commit, .journal] fun e =>
      e.lastCommit = s.dev.tick - 1
        ∧ (∃ c : Commit, ⟨s.dev.A, s.dev.A, .commit c⟩ ∈ e.wire ∧ c.tick = s.dev.tick - 1 ∧ c.last = s.dev.lastCommit
            ∧ ∀ p ∈ c.parts, ∃ x ∈ s.dev.anchorSt.seals, x.region = p.region ∧ x.tick = s.dev.tick - 1 ∧ x.count = p.count ∧ x.code = p.code)
        ∧ ((∃ q ∈ s.dev.sealers, ∀ x ∈ s.dev.anchorSt.seals, ¬ (x.region = q.val ∧ x.tick = s.dev.tick - 1)) →
            e.on (CHP_COMMIT_ERR_late_seal s.dev.A) = true) := by
  have hx : exec .sealDeadline s = execSealDeadline s := rfl
  have hk : (s.dev.tick + 2 ^ 48 - 1) % 2 ^ 48 = s.dev.tick - 1 := by omega
  refine .of_run_eq (d := (s.dev.reportLate (s.dev.tick - 1)).broadcast (s.dev.tick - 1)) hx ?_ ?_ ?_
  · dsimp only
    rw [hk, ha, hr, ht]
    rfl
  · exact (s.dev.reportLate_kept.broadcast (by decide)).1
  · rw [Dev.lastCommit_withFree, Dev.wire_withFree, Dev.on_withFree]
    refine ⟨Dev.lastCommit_broadcast (by omega), ⟨(s.dev.reportLate (s.dev.tick - 1)).commitOf (s.dev.tick - 1), ?_, rfl,
      Dev.lastCommit_reportLate, fun p hp => ?_⟩, fun ⟨q, hq, hn⟩ => ?_⟩
    · rw [← Dev.late_reportLate.A]
      exact Dev.mem_wire_broadcast
    · obtain ⟨x, hm, rfl⟩ := List.mem_map.1 hp
      obtain ⟨hs, ht⟩ := Dev.of_mem_sealsFor hm
      rw [Dev.late_reportLate.seals] at hs
      exact ⟨x, hs, rfl, ht, rfl, rfl⟩
    · rw [← Dev.late_reportLate.A, Dev.on_late_broadcast, Dev.late_reportLate.A]
      exact Dev.on_reportLate hq hn

/-- Settles O31: the commit that goes out names the seals that the anchor holds, and neither the reports before it nor those after it write
the registers of the last commit. -/
theorem recordsAndSealsAreGathered : Obligations.RecordsAndSealsAreGathered := by
  unfold Obligations.RecordsAndSealsAreGathered
  exact ⟨fun _ _ _ _ _ => mutRecord_carried,
    fun _ _ _ _ _ _ => seal_ignored_carried,
    fun _ _ _ _ _ _ => seal_held_carried,
    fun _ _ _ _ _ => seal_whole_carried,
    fun _ => sealDeadline_carried⟩

end Sys2Proof.Machine

namespace Sys2Proof.Machine
namespace Dev

/-! ### Applying a commit to a replica (R106–R112)

Records and their outcomes touch the commit state of their own region alone, and in it only the outcomes, the last writes and a fence that
becomes due; they take no message off the wire and leave the staging status as it is. -/

/-- What working through the records of a commit can do in region `r`. -/
structure Settles (r : Region) (d e : Dev) : Prop where
  other : ∀ q, q ≠ r → (e.g q).commit = (d.g q).commit
  own : ∃ o w f, (e.g r).commit = { (d.g r).commit with outcomes := o, written := w, fenceDue := f }
  sends : d.Sends e
  stat : d.RegsBut (· ≠ RGN_STAGE_STAT r.val) e

theorem Settles.refl (r : Region) (d : Dev) : Settles r d d := ⟨fun _ _ => rfl, ⟨_, _, _, rfl⟩, .refl d, RegsBut.refl _ d⟩

/-- Signals leave the staging status alone. -/
theorem ne_stageStat_of_signalReg (r : Region) (a : Nat) (h : signalReg a) : a ≠ RGN_STAGE_STAT r.val := fun ha =>
  not_signalReg_rgn r (x := 0xB00008) (by norm_num) (by norm_num) (by norm_num) (by
    rw [ha] at h
    exact h)

/-- An outcome noted and counted, before its error is looked at. -/
def noted (d : Dev) (r : Region) (i : Issuer) (code visible index : Nat) : Dev :=
  (d.modCommit r fun c => { c with outcomes := c.outcomes ++ [⟨i, code, visible, index⟩] }).event r 0x126 code

/-- A learned entry that found its table full is counted. -/
def countFull (d : Dev) (r : Region) (i : Issuer) (code : Nat) : Dev :=
  match i with
  | .learn p => if code = 8 then d.countLearn r (RGN_LEARN_FULL_count r.val (learnBlock p)) (some 0x148) else d
  | _ => d

theorem outcome_eq (d : Dev) (r : Region) (i : Issuer) (code visible index : Nat) :
    d.outcome r i code visible index =
      if code = 1 then ((d.noted r i code visible index).countFull r i code).err (RGN_COMMIT_ERR_superseded r.val) r 0x3E9
      else (d.noted r i code visible index).countFull r i code := by
  cases i <;> rfl

/-- The outcome of a record, at the region that staged it. -/
def outcomeOf (d : Dev) (r : Region) (m : Mut) (code visible index : Nat) : Dev :=
  if m.region = r.val then
    match d.issuerOf r m with
    | some i => d.outcome r i code visible index
    | none => d
  else d

section
variable {r : Region} {d0 d e : Dev}

theorem Settles.trans (h : Settles r d0 d) (k : Settles r d e) : Settles r d0 e := by
  obtain ⟨_, _, _, hd⟩ := h.own
  obtain ⟨o, w, f, he⟩ := k.own
  exact ⟨fun q hq => (k.other q hq).trans (h.other q hq), ⟨o, w, f, by rw [he, hd]⟩, h.sends.trans k.sends, h.stat.trans k.stat⟩

/-- What leaves every commit state alone. -/
theorem Settles.of_commit (hc : ∀ q, (e.g q).commit = (d.g q).commit) (hs : d.Sends e) (ht : d.RegsBut (· ≠ RGN_STAGE_STAT r.val) e) :
    Settles r d e := ⟨fun q _ => hc q, ⟨_, _, _, hc r⟩, hs, ht⟩

/-- A change of the region's commit state. -/
theorem Settles.of_modCommit {f : CommitState → CommitState}
    (hf : ∃ o w n, f (d.g r).commit = { (d.g r).commit with outcomes := o, written := w, fenceDue := n }) : Settles r d (d.modCommit r f) := by
  obtain ⟨o, w, n, hf⟩ := hf
  exact ⟨fun q hq => commit_modCommit_ne _ _ _ _ hq, ⟨o, w, n, by rw [commit_modCommit_same, hf]⟩, (Sends.refl d).modCommit,
    (RegsBut.refl _ d).modCommit⟩

theorem Settles.ite {c : Prop} [Decidable c] (h : Settles r d0 d) (k : Settles r d0 e) : Settles r d0 (if c then d else e) := by
  split_ifs
  · exact h
  · exact k

theorem Settles.foldl {α : Type} {f : Dev → α → Dev} {l : List α} (h : Settles r d0 d) (hf : ∀ (e : Dev) a, Settles r e (f e a)) :
    Settles r d0 (l.foldl f d) := by
  induction l generalizing d with
  | nil => exact h
  | cons a t ih => exact ih (h.trans (hf d a))

theorem Settles.each {α : Type} {f : α → Dev → Dev} {l : List α} (h : Settles r d0 d) (hf : ∀ a (e : Dev), Settles r e (f a e)) :
    Settles r d0 (d.each l f) := Settles.foldl (f := fun d a => f a d) h fun e a => hf a e

variable (h : Settles r d0 d)
include h

theorem Settles.signalled (hs : d.Signalled e) (hw : d.Sends e) : Settles r d0 e :=
  h.trans (.of_commit hs.commit hw ((RegsBut.refl _ d).signalled hs (ne_stageStat_of_signalReg r)))

theorem Settles.event {q : Region} {sel qual n : Nat} : Settles r d0 (d.event q sel qual n) :=
  h.signalled (signalled_event ..) (Sends.refl d).event

theorem Settles.raise {q : Region} {n : Nat} : Settles r d0 (d.raise q n) := h.signalled (signalled_raise ..) (Sends.refl d).raise

theorem Settles.setReg {a : Nat} {w : Word} (ha : a ≠ RGN_STAGE_STAT r.val) : Settles r d0 (d.setReg a w) :=
  h.trans (.of_commit (fun _ => by rw [g_setReg]) ((Sends.refl d).kept (setReg_kept ..) (by decide)) ((RegsBut.refl _ d).setReg ha))

theorem Settles.setFld {f : Fld} {v : Nat} (ha : f.addr ≠ RGN_STAGE_STAT r.val) : Settles r d0 (d.setFld f v) := h.setReg ha
theorem Settles.addSat {f : Fld} {n : Nat} (ha : f.addr ≠ RGN_STAGE_STAT r.val) : Settles r d0 (d.addSat f n) := h.setReg ha

theorem Settles.err {f : Fld} {q : Region} {n : Nat} (ha : f.addr ≠ RGN_STAGE_STAT r.val) : Settles r d0 (d.err f q n) :=
  (h.setFld (v := 1) ha).signalled (err_frame ..) (Sends.refl _).raise

theorem Settles.modTables {q : Region} {f : TableState → TableState} : Settles r d0 (d.modTables q f) :=
  h.trans (.of_commit (((Kept.refl [.tables] d).modTables fun _ => id).1 .commit (by decide))
    ((Sends.refl d).kept ((Kept.refl [.tables] d).modTables fun _ => id) (by decide)) (RegsBut.refl _ d).modR)

theorem Settles.markBad {n l : Nat} : Settles r d0 (d.markBad r n l) := by
  have h1 : Settles r d0 (((d.modTables r (fun t => { t with bad := t.bad ++ [⟨n, l, (d.g r).tick⟩] })).countBad r)) :=
    h.modTables.setFld (by simp [RGN_TBL_REPAIR_bad_lines, RGN_TBL_REPAIR, RGN_STAGE_STAT, rgnReg_inj])
  have h2 := ((h1.setReg (a := RGN_TBL_BADLINE r.val) (w := BitVec.ofNat 32 (l % 2 ^ 29)) (mt rgnReg_inj.1 (by norm_num))).setReg
    (a := RGN_TBL_BADTABLE r.val) (w := BitVec.ofNat 32 (n % 256)) (mt rgnReg_inj.1 (by norm_num))).err (f := RGN_TBL_ERR_parity r.val)
    (q := r) (n := 0x141) (mt rgnReg_inj.1 (by norm_num))
  exact .ite h (.ite h2.raise h2)

theorem Settles.requestRepair {n l : Nat} : Settles r d0 (d.requestRepair r n l) :=
  h.trans (.of_commit (((Kept.refl [.wire] d).requestRepair fun _ => id).1 .commit (by decide)) (by
    unfold Dev.requestRepair
    refine Sends.ite ?_ (.refl d)
    split
    · exact (Sends.refl d).send
    · exact .refl d) (.of_regs (((Kept.refl [.wire] d).requestRepair fun _ => id).1 .regs (by decide))))

theorem Settles.dueFence {n : Nat} : Settles r d0 (d.dueFence r n) := h.trans (.of_modCommit ⟨_, _, _, rfl⟩)
theorem Settles.noteWrite {tick : Nat} {m : Mut} : Settles r d0 (d.noteWrite r tick m) := h.trans (.of_modCommit ⟨_, _, _, rfl⟩)

theorem Settles.badRecord {m : Mut} : Settles r d0 (d.badRecord r m) :=
  .ite (h.foldl fun e _ => (Settles.refl r e).markBad.requestRepair) (h.err (mt rgnReg_inj.1 (by norm_num))).dueFence

theorem Settles.meetErrors {m : Mut} : Settles r d0 (d.meetErrors r m) := h.foldl fun e _ => (Settles.refl r e).markBad.requestRepair

theorem Settles.countLearn {f : Fld} {src : Option Nat} (ha : f.addr ≠ RGN_STAGE_STAT r.val) : Settles r d0 (d.countLearn r f src) := by
  unfold Dev.countLearn
  dsimp only
  split
  · exact .ite (h.addSat ha).raise (h.addSat ha)
  · exact h.addSat ha

theorem Settles.noted {i : Issuer} {code visible index : Nat} : Settles r d0 (d.noted r i code visible index) :=
  (h.trans (.of_modCommit ⟨_, _, _, rfl⟩)).event

theorem Settles.countFull {i : Issuer} {code : Nat} : Settles r d0 (d.countFull r i code) := by
  unfold Dev.countFull
  split
  · exact .ite (h.countLearn (mt rgnReg_inj.1 (by omega))) h
  · exact h

theorem Settles.outcome {i : Issuer} {code visible index : Nat} : Settles r d0 (d.outcome r i code visible index) := by
  rw [outcome_eq]
  exact .ite (h.noted.countFull.err (mt rgnReg_inj.1 (by norm_num))) h.noted.countFull

theorem Settles.outcomeOf {m : Mut} {code visible index : Nat} : Settles r d0 (d.outcomeOf r m code visible index) := by
  unfold Dev.outcomeOf
  refine .ite ?_ h
  split
  · exact h.outcome
  · exact h

theorem Settles.applyAll {tick visible : Nat} {w : Dev} {ops : List TabOp} {l : List Mut} :
    Settles r d0 (applyAll r tick visible d w ops l).1 := by
  induction l generalizing d w ops with
  | nil => exact h
  | cons m t ih =>
    have hm : Settles r d0 (d.meetErrors r m) := h.meetErrors
    unfold Dev.applyAll
    dsimp only
    refine ih ?_
    have hb (b : Bool) : Settles r d0 (if b = true then (d.meetErrors r m).badRecord r m else d.meetErrors r m) := .ite hm.badRecord hm
    exact (Settles.ite (hb _).noteWrite (hb _)).outcomeOf

/-- The records of a commit are worked through, and one overlay comes of them. -/
theorem Settles.applyList {tick : Nat} {l : List Mut} :
    ∃ e ops, Settles r d0 e ∧ d.applyList r tick l = e.modCommit r fun c => { c with overlays := c.overlays ++ [⟨(tick + 2) % 2 ^ 48, ops⟩] } := by
  have h1 : Settles r d0 (d.each (l.filter fun m => m.source == 3 && m.owner == r.val && d.lineBad r m.table m.index)
      fun _ d => d.addSat (RGN_TBL_REPAIR_repaired r.val) 1) :=
    h.each fun _ e => (Settles.refl r e).addSat (mt rgnReg_inj.1 (by norm_num))
  exact ⟨_, _, h1.applyAll.foldl fun e _ => (Settles.refl r e).outcomeOf, rfl⟩

end

/-! ### A commit applied (R106, R110) -/

section
variable {r : Region} {d : Dev} {c : Commit}

/-- Where no repair waits for the commit, applying it ends with the commit noted. -/
theorem applyCommit_eq (hw : (d.g r).commit.repairWait = []) :
    ∃ e ops, Settles r d e ∧ d.applyCommit r c = ((e.modCommit r fun x =>
        { x with overlays := x.overlays ++ [⟨(c.tick + 2) % 2 ^ 48, ops⟩] }).modCommit r fun x =>
        { x with lastApplied := c.tick, held := x.held.filter (·.tick != c.tick) }).modCommit r fun x => { x with repairWait := [] } := by
  obtain ⟨e, ops, he, hl⟩ := (Settles.refl r d).applyList (tick := c.tick) (l := d.merged r c)
  refine ⟨e, ops, he, ?_⟩
  have hwe : (e.g r).commit.repairWait = [] := by
    obtain ⟨_, _, _, ho⟩ := he.own
    rw [ho]
    exact hw
  unfold applyCommit stageWaiting
  dsimp only
  rw [hl, commit_modCommit_same, commit_modCommit_same, hwe]
  rfl

/-- What a region's commit state is once a commit is applied. -/
theorem commit_applyCommit (hw : (d.g r).commit.repairWait = []) :
    ∃ ops o w f, ((d.applyCommit r c).g r).commit = { (d.g r).commit with
      lastApplied := c.tick, held := (d.g r).commit.held.filter (·.tick != c.tick), repairWait := [],
      overlays := (d.g r).commit.overlays ++ [⟨(c.tick + 2) % 2 ^ 48, ops⟩], outcomes := o, written := w, fenceDue := f } := by
  obtain ⟨e, ops, he, hl⟩ := applyCommit_eq (c := c) hw
  obtain ⟨o, w, f, ho⟩ := he.own
  exact ⟨ops, o, w, f, by rw [hl, commit_modCommit_same, commit_modCommit_same, commit_modCommit_same, ho]⟩

theorem commit_applyCommit_ne (hw : (d.g r).commit.repairWait = []) {q : Region} (hq : q ≠ r) :
    ((d.applyCommit r c).g q).commit = (d.g q).commit := by
  obtain ⟨e, ops, he, hl⟩ := applyCommit_eq (c := c) hw
  rw [hl, commit_modCommit_ne _ _ _ _ hq, commit_modCommit_ne _ _ _ _ hq, commit_modCommit_ne _ _ _ _ hq, he.other q hq]

theorem sends_applyCommit (hw : (d.g r).commit.repairWait = []) : d.Sends (d.applyCommit r c) := by
  obtain ⟨e, ops, he, hl⟩ := applyCommit_eq (c := c) hw
  rw [hl]
  exact he.sends

theorem stageStat_applyCommit (hw : (d.g r).commit.repairWait = []) {f : Fld} (hf : f.addr = RGN_STAGE_STAT r.val) :
    (d.applyCommit r c).fld f = d.fld f := by
  obtain ⟨e, ops, he, hl⟩ := applyCommit_eq (c := c) hw
  rw [hl, fld_modCommit, fld_modCommit, fld_modCommit]
  exact he.stat.fld (not_not.2 hf)

/-! ### Outcomes for every staged record (R104, R112) -/

variable {i : Issuer} {tick code visible index : Nat}

theorem commit_noted : ((d.noted r i code visible index).g r).commit =
    { (d.g r).commit with outcomes := (d.g r).commit.outcomes ++ [⟨i, code, visible, index⟩] } := by
  rw [noted, (signalled_event ..).commit, commit_modCommit_same]

theorem commit_countFull : ((d.countFull r i code).g r).commit = (d.g r).commit := by
  unfold countFull
  split
  · split_ifs
    · exact ((Kept.refl _ d).countLearn fun _ => id).1 .commit (by decide) r
    · rfl
  · rfl

/-- An outcome is added to those of its region, and nothing else of its commit state changes. -/
theorem commit_outcome : ((d.outcome r i code visible index).g r).commit =
    { (d.g r).commit with outcomes := (d.g r).commit.outcomes ++ [⟨i, code, visible, index⟩] } := by
  rw [outcome_eq]
  split_ifs
  · rw [((Kept.refl _ ((d.noted r i code visible index).countFull r i code)).err fun _ => id).1 .commit (by decide) r, commit_countFull, commit_noted]
  · rw [commit_countFull, commit_noted]

/-- An outcome that is neither superseded nor a full table is an event and no more. -/
theorem outcome_of_plain (h1 : code ≠ 1) (h8 : code ≠ 8) : d.outcome r i code visible index = d.noted r i code visible index := by
  rw [outcome_eq, if_neg h1]
  unfold countFull
  split
  · exact if_neg h8
  · rfl

theorem commit_outcomes (l : List Staged) : ∃ o, ((l.foldl (fun e x => e.outcome r x.issuer code ((e.g r).tick + 1) 0) d).g r).commit =
    { (d.g r).commit with outcomes := o } := by
  induction l generalizing d with
  | nil => exact ⟨_, rfl⟩
  | cons x t ih =>
    obtain ⟨o, ho⟩ := ih (d := d.outcome r x.issuer code ((d.g r).tick + 1) 0)
    exact ⟨o, by rw [List.foldl_cons, ho, commit_outcome]⟩

theorem regsBut_outcomes (h1 : code ≠ 1) (h8 : code ≠ 8) (l : List Staged) (own : Nat → Prop) (ho : ∀ a, signalReg a → own a) :
    d.RegsBut own (l.foldl (fun e x => e.outcome r x.issuer code ((e.g r).tick + 1) 0) d) := by
  induction l generalizing d with
  | nil => exact RegsBut.refl own d
  | cons x t ih =>
    have hx : d.RegsBut own (d.outcome r x.issuer code ((d.g r).tick + 1) 0) := by
      rw [outcome_of_plain h1 h8]
      exact (RegsBut.refl own d).modCommit.signalled (signalled_event ..) ho
    exact hx.trans ih

/-- The reports for every staged record change only the outcomes. -/
theorem commit_outcomeAll : ∃ o, ((d.outcomeAll r tick code).g r).commit = { (d.g r).commit with outcomes := o } := by
  unfold outcomeAll
  exact commit_outcomes _

/-- The reports for every staged record change the registers of signals alone, where they count no superseded and no full one. -/
theorem regsBut_outcomeAll (h1 : code ≠ 1) (h8 : code ≠ 8) {own : Nat → Prop} (ho : ∀ a, signalReg a → own a) :
    d.RegsBut own (d.outcomeAll r tick code) := by
  unfold outcomeAll
  exact regsBut_outcomes h1 h8 _ own ho

end

/-! ### A commit taken off the wire (R105, R868) -/

/-- The part after a region takes a copy of a commit off the wire and notes that it heard of the anchor. -/
def heardCommit (d : Dev) (r : Region) (c : Commit) (via : Option (Fin 6)) : Dev :=
  (d.receive (d.cameFrom r via) r.val (.commit c)).modCommit r fun x => { x with heard := [(d.g r).tick] }

/-- The part after a region takes a commit that is new to it, and sends it on. -/
def seenCommit (d : Dev) (r : Region) (c : Commit) (via : Option (Fin 6)) : Dev :=
  ((d.heardCommit r c via).modCommit r fun x => { x with seen := x.seen ++ [c.tick] }).when
    ((d.heardCommit r c via).mladus r.val && via.isSome) (·.flood r via (.commit c))

section
variable {d : Dev} {r : Region} {c : Commit} {via : Option (Fin 6)}

theorem heardCommit_kept : d.Kept [.wire, .commit] (d.heardCommit r c via) := ((Kept.refl _ d).receive (by decide)).modCommit (by decide)

theorem seenCommit_kept : d.Kept [.wire, .commit] (d.seenCommit r c via) :=
  (heardCommit_kept.modCommit (by decide)).when fun e => (Kept.refl _ e).flood (by decide)

theorem commit_heardCommit (q : Region) : ((d.heardCommit r c via).g q).commit =
    if q = r then { (d.g r).commit with heard := [(d.g r).tick] } else (d.g q).commit := by
  rw [heardCommit, commit_modCommit, g_receive, g_receive]

theorem commit_seenCommit (q : Region) : ((d.seenCommit r c via).g q).commit =
    if q = r then { (d.g r).commit with heard := [(d.g r).tick], seen := (d.g r).commit.seen ++ [c.tick] } else (d.g q).commit := by
  have h : ((d.seenCommit r c via).g q).commit = (((d.heardCommit r c via).modCommit r fun x => { x with seen := x.seen ++ [c.tick] }).g q).commit := by
    unfold seenCommit when
    split_ifs
    · rw [g_flood]
    · rfl
  rw [h, commit_modCommit, commit_heardCommit, commit_heardCommit, if_pos rfl]
  split_ifs <;> rfl

/-- The commit goes on by every link but the one it came by. -/
theorem mem_wire_seenCommit (hm : d.mladus r.val = true) (hv : via.isSome = true) {p : Nat} (hp : p ∈ d.floodTo r.val via) :
    ⟨r.val, p, .commit c⟩ ∈ (d.seenCommit r c via).wire := by
  have hm' : (d.heardCommit r c via).mladus r.val = true := by
    rw [heardCommit, mladus_modCommit, mladus_receive, hm]
  rw [seenCommit, hm', hv, when, Bool.and_self, if_pos rfl, wire_flood]
  exact List.mem_append_right _ (List.mem_map_of_mem (f := fun p => (⟨r.val, p, .commit c⟩ : Flight)) hp)

theorem regs_seenCommit : (d.seenCommit r c via).regs = d.regs := seenCommit_kept.1 .regs (by decide)
theorem A_seenCommit : (d.seenCommit r c via).A = d.A := congrArg Fin.val (seenCommit_kept.1 .anchor (by decide))

end

end Dev

section
variable {s : State} {r : Region} {c : Commit} {bad : List (Nat × Nat)} {via : Option (Fin 6)}

/-- What a region does with a commit that it has seen, that it may apply and in which it stands. -/
def Dev.decideCommit (d : Dev) (r : Region) (c : Commit) : Dev :=
  if c.last ≠ (d.g r).commit.lastApplied ∧ d.replayed r c = false then
    ((d.outcomeAll r c.tick 0xB).modCommit r fun x => { x with previous := [] }).dueFence r 0x04
  else if d.holdsAll r c then d.applyCommit r c
  else d.modCommit r fun x => { x with held := x.held ++ [c] }

/-- A commit seen before is only taken off the wire, and heard. -/
theorem commit_seen_carried (hm : s.dev.inTurn (s.dev.cameFrom r via) r.val (.commit c) = true) (hs : c.tick ∈ (s.dev.g r).commit.seen) :
    Carried (.commit r c bad via) s [.wire, .commit] fun e =>
      (e.g r).commit = { (s.dev.g r).commit with heard := [(s.dev.g r).tick] } ∧ (∀ q, q ≠ r → (e.g q).commit = (s.dev.g q).commit)
        ∧ e.wire = s.dev.wire.erase ⟨s.dev.cameFrom r via, r.val, .commit c⟩ := by
  have hx : exec (.commit r c bad via) s = execCommit r c bad via s := rfl
  refine .of_deliverAll_eq (d := s.dev.heardCommit r c via) hx hm ?_ Dev.heardCommit_kept.1 ?_
  · dsimp only
    rw [Dev.commit_modCommit_same, Dev.g_receive]
    exact if_pos (by simp [hs])
  · simp only [Dev.g_withFree, Dev.wire_withFree, Dev.commit_heardCommit, if_true, true_and]
    exact ⟨fun q hq => if_neg hq, rfl⟩

theorem Dev.committing_seenCommit {d : Dev} (q : Nat) : (d.seenCommit r c via).committing q = d.committing q :=
  RegsBut.committing (own := fun _ => False) (.of_regs regs_seenCommit) A_seenCommit id q

theorem Dev.fenced_seenCommit {d : Dev} (q : Nat) : (d.seenCommit r c via).fenced q = d.fenced q :=
  RegsBut.fenced (own := fun _ => False) (.of_regs regs_seenCommit) A_seenCommit id q

/-- A commit that is new to a region is not dropped as one seen before. -/
theorem Dev.not_seen_heardCommit {d : Dev} (hs : c.tick ∉ (d.g r).commit.seen) (hp : d.present r.val = true) :
    ¬ (((d.heardCommit r c via).g r).commit.seen.contains c.tick || !(d.heardCommit r c via).present r.val) = true := by
  rw [commit_heardCommit, if_pos rfl, show (d.heardCommit r c via).present r.val = d.present r.val from rfl, hp]
  simp [hs]

/-- Whether a region leaves a commit that it has seen alone depends on its standing and on the deadlines that passed. -/
theorem Dev.leaves_seenCommit {d : Dev} {x : Nat} :
    (!(d.seenCommit r c via).committing r.val || (d.seenCommit r c via).fenced r.val || ((d.seenCommit r c via).g r).commit.lapsed.contains x) =
      (!d.committing r.val || d.fenced r.val || (d.g r).commit.lapsed.contains x) := by
  rw [committing_seenCommit, fenced_seenCommit, commit_seenCommit, if_pos rfl]

/-- A commit whose apply deadline has passed is only forwarded. -/
theorem commit_lapsed_carried (hm : s.dev.inTurn (s.dev.cameFrom r via) r.val (.commit c) = true) (hs : c.tick ∉ (s.dev.g r).commit.seen)
    (hp : s.dev.present r.val = true) (hl : c.tick ∈ (s.dev.g r).commit.lapsed) :
    Carried (.commit r c bad via) s [.wire, .commit] fun e =>
      (e.g r).commit = { (s.dev.g r).commit with heard := [(s.dev.g r).tick], seen := (s.dev.g r).commit.seen ++ [c.tick] }
        ∧ ∀ q, q ≠ r → (e.g q).commit = (s.dev.g q).commit := by
  have hx : exec (.commit r c bad via) s = execCommit r c bad via s := rfl
  refine .of_deliverAll_eq (d := s.dev.seenCommit r c via) hx hm ((if_neg (Dev.not_seen_heardCommit hs hp)).trans (if_pos ?_))
    Dev.seenCommit_kept.1 ?_
  · exact Dev.leaves_seenCommit.trans (by simp [hl])
  · simp only [Dev.g_withFree, Dev.commit_seenCommit, if_true, true_and]
    exact fun q hq => if_neg hq

/-- The part when a region decides on a commit that names it, which ends its run of late seals. -/
def Dev.newCommit (d : Dev) (r : Region) (c : Commit) (via : Option (Fin 6)) : Dev := (d.seenCommit r c via).clr (RGN_STAGE_STAT_late_run r.val)

section
variable {d : Dev}

theorem Dev.newCommit_kept : d.Kept [.regs, .wire, .commit] (d.newCommit r c via) :=
  (seenCommit_kept.mono (by decide)).clr (by decide)

theorem Dev.commit_newCommit (q : Region) : ((d.newCommit r c via).g q).commit =
    if q = r then { (d.g r).commit with heard := [(d.g r).tick], seen := (d.g r).commit.seen ++ [c.tick] } else (d.g q).commit := by
  rw [newCommit, clr_eq, g_setFld, commit_seenCommit]

theorem Dev.lateRun_newCommit : (d.newCommit r c via).fld (RGN_STAGE_STAT_late_run r.val) = 0 := by
  rw [newCommit, clr_eq, fld_setFld_same _ _ _ (by simp [RGN_STAGE_STAT_late_run]), Nat.zero_mod]

theorem Dev.wire_newCommit : (d.newCommit r c via).wire = (d.seenCommit r c via).wire := by
  rw [newCommit, clr_eq, wire_setFld]

theorem Dev.regsIn_newCommit : d.RegsIn [RGN_STAGE_STAT r.val] (d.newCommit r c via) := by
  have h : d.RegsIn [RGN_STAGE_STAT r.val] (d.seenCommit r c via) := RegsBut.of_regs regs_seenCommit
  rw [newCommit]
  exact h.clr (by simp [RGN_STAGE_STAT_late_run])

/-- Whether a region holds the records of a commit depends on its copies alone. -/
theorem Dev.holdsAll_congr {e : Dev} (h : (e.g r).commit.copies = (d.g r).commit.copies) : e.holdsAll r c = d.holdsAll r c := by
  unfold holdsAll copiesOf
  rw [h]

theorem Dev.holdsAll_newCommit : (d.newCommit r c via).holdsAll r c = d.holdsAll r c :=
  holdsAll_congr (by rw [commit_newCommit, if_pos rfl])

/-- A whole commit that follows the last one is applied. -/
theorem Dev.decideCommit_apply (hl : c.last = (d.g r).commit.lastApplied) (hh : d.holdsAll r c = true) : d.decideCommit r c = d.applyCommit r c :=
  (if_neg fun h => h.1 hl).trans (if_pos hh)

/-- A commit that follows the last one waits for its records. -/
theorem Dev.decideCommit_hold (hl : c.last = (d.g r).commit.lastApplied) (hh : d.holdsAll r c = false) :
    d.decideCommit r c = d.modCommit r fun x => { x with held := x.held ++ [c] } :=
  (if_neg fun h => h.1 hl).trans (if_neg (ne_true_of_eq_false hh))

/-- A commit that names another last one is a gap, outside REGIONAL. -/
theorem Dev.decideCommit_gap (hl : c.last ≠ (d.g r).commit.lastApplied) (hr : (d.g r).commit.lastMode ≠ .regional) :
    d.decideCommit r c = ((d.outcomeAll r c.tick 0xB).modCommit r fun x => { x with previous := [] }).dueFence r 0x04 := by
  have hn : d.replayed r c = false := by rw [replayed, beq_false_of_ne hr, Bool.false_and]
  unfold decideCommit
  exact if_pos ⟨hl, hn⟩

end

/-- A new commit in a committing region that it names is decided on. -/
theorem commit_new_carried {l : List Part} {P : Dev → Prop} {e : Dev} (hm : s.dev.inTurn (s.dev.cameFrom r via) r.val (.commit c) = true)
    (hs : c.tick ∉ (s.dev.g r).commit.seen) (hl : c.tick ∉ (s.dev.g r).commit.lapsed) (hp : s.dev.mladus r.val = true)
    (hc : s.dev.committing r.val = true) (hf : s.dev.fenced r.val = false) (hh : ∃ p ∈ c.parts, p.region = r.val)
    (he : (s.dev.newCommit r c via).decideCommit r c = e) (ho : s.dev.OnlyIn l e)
    (hP : P (e.withFree (s.dev.free + 1))) : Carried (.commit r c [] via) s l P := by
  have hx : exec (.commit r c [] via) s = execCommit r c [] via s := rfl
  have hany : (c.parts.any (·.region == r.val)) = true := by
    obtain ⟨p, hp, hr⟩ := hh
    exact List.any_eq_true.2 ⟨p, hp, by simp [hr]⟩
  refine .of_deliverAll_eq hx hm ((if_neg (Dev.not_seen_heardCommit hs (Dev.mladus_iff.1 hp).1)).trans ((if_neg ?_).trans ?_)) ho hP
  · have hv : (!s.dev.committing r.val || s.dev.fenced r.val || (s.dev.g r).commit.lapsed.contains c.tick) = false := by simp [hc, hf, hl]
    exact ne_true_of_eq_false (Dev.leaves_seenCommit.trans hv)
  · rw [hany]
    exact he

section
variable (hm : s.dev.inTurn (s.dev.cameFrom r via) r.val (.commit c) = true) (hs : c.tick ∉ (s.dev.g r).commit.seen)
  (hl : c.tick ∉ (s.dev.g r).commit.lapsed) (hp : s.dev.mladus r.val = true) (hc : s.dev.committing r.val = true)
  (hf : s.dev.fenced r.val = false) (hh : ∃ p ∈ c.parts, p.region = r.val)
include hm hs hl hp hc hf hh

/-- A new commit that is whole and follows the last one is applied. -/
theorem commit_applied_carried (hla : c.last = (s.dev.g r).commit.lastApplied) (hho : s.dev.holdsAll r c = true)
    (hw : (s.dev.g r).commit.repairWait = []) : Carried (.commit r c [] via) s [.regs, .wire, .ctxs, .commit, .tables] fun e =>
      (e.g r).commit.lastApplied = c.tick ∧ (e.g r).commit.seen = (s.dev.g r).commit.seen ++ [c.tick]
        ∧ (∃ ops, (e.g r).commit.overlays = (s.dev.g r).commit.overlays ++ [⟨(c.tick + 2) % 2 ^ 48, ops⟩])
        ∧ e.fld (RGN_STAGE_STAT_late_run r.val) = 0 ∧ (∀ p ∈ s.dev.floodTo r.val via, via.isSome = true → ⟨r.val, p, .commit c⟩ ∈ e.wire)
        ∧ ∀ q, q ≠ r → (e.g q).commit = (s.dev.g q).commit := by
  have hk := Dev.commit_newCommit (d := s.dev) (r := r) (c := c) (via := via)
  have hkr := hk r
  rw [if_pos rfl] at hkr
  have hwn : ((s.dev.newCommit r c via).g r).commit.repairWait = [] := by rw [hkr, hw]
  refine commit_new_carried hm hs hl hp hc hf hh (Dev.decideCommit_apply (by rw [hkr, hla]) (by rw [Dev.holdsAll_newCommit, hho]))
    ((Dev.newCommit_kept.mono (by decide)).applyCommit (by decide)).1 ?_
  obtain ⟨ops, o, w, f, he⟩ := Dev.commit_applyCommit (c := c) hwn
  simp only [Dev.g_withFree, Dev.fld_withFree, Dev.wire_withFree]
  rw [he, hkr, Dev.stageStat_applyCommit hwn (by rw [RGN_STAGE_STAT_late_run]), Dev.lateRun_newCommit]
  refine ⟨rfl, rfl, ⟨ops, rfl⟩, rfl, fun p hpf hv => (Dev.sends_applyCommit hwn).mem ?_, fun q hq => ?_⟩
  · rw [Dev.wire_newCommit]
    exact Dev.mem_wire_seenCommit hp hv hpf
  · rw [Dev.commit_applyCommit_ne hwn hq, hk, if_neg hq]

/-- A new commit that lacks records is held. -/
theorem commit_held_carried (hla : c.last = (s.dev.g r).commit.lastApplied) (hho : s.dev.holdsAll r c = false) :
    Carried (.commit r c [] via) s [.regs, .wire, .commit] fun e => (e.g r).commit = { (s.dev.g r).commit with
        heard := [(s.dev.g r).tick], seen := (s.dev.g r).commit.seen ++ [c.tick], held := (s.dev.g r).commit.held ++ [c] }
      ∧ s.dev.RegsIn [RGN_STAGE_STAT r.val] e := by
  have hkr := Dev.commit_newCommit (d := s.dev) (r := r) (c := c) (via := via) r
  rw [if_pos rfl] at hkr
  refine commit_new_carried hm hs hl hp hc hf hh (Dev.decideCommit_hold (by rw [hkr, hla]) (by rw [Dev.holdsAll_newCommit, hho]))
    (Dev.newCommit_kept.modCommit (by decide)).1 ?_
  have hregs := Dev.RegsBut.modCommit (r := r) (f := fun x => { x with held := x.held ++ [c] }) (Dev.regsIn_newCommit (d := s.dev) (r := r) (c := c) (via := via))
  rw [Dev.g_withFree, Dev.regsIn_withFree, Dev.commit_modCommit_same, hkr]
  exact ⟨rfl, hregs⟩

/-- A new commit that names another last one makes a fence due. -/
theorem commit_gap_carried (hla : c.last ≠ (s.dev.g r).commit.lastApplied) (hr : (s.dev.g r).commit.lastMode ≠ .regional)
    (hd : (s.dev.g r).commit.fenceDue = 0) : Carried (.commit r c [] via) s [.regs, .wire, .ctxs, .commit] fun e =>
      (e.g r).commit.fenceDue = 4 ∧ (e.g r).commit.lastApplied = (s.dev.g r).commit.lastApplied
        ∧ (e.g r).commit.overlays = (s.dev.g r).commit.overlays := by
  have hkr := Dev.commit_newCommit (d := s.dev) (r := r) (c := c) (via := via) r
  rw [if_pos rfl] at hkr
  refine commit_new_carried hm hs hl hp hc hf hh (Dev.decideCommit_gap (by rwa [hkr]) (by rwa [hkr]))
    ((((Dev.newCommit_kept.mono (by decide)).outcomeAll (by decide)).modCommit (by decide)).dueFence (by decide)).1 ?_
  obtain ⟨o, ho⟩ := Dev.commit_outcomeAll (d := s.dev.newCommit r c via) (r := r) (tick := c.tick) (code := 0xB)
  rw [Dev.g_withFree, Dev.dueFence, Dev.commit_modCommit_same, Dev.commit_modCommit_same, ho, hkr]
  exact ⟨if_pos hd, rfl, rfl⟩

end

end

/-! ### The apply deadline (R109, R111, R119, R120) -/

section
variable {s : State} {r : Region}

/-- The errors of a region's commits are no register that signals change. -/
theorem not_signalReg_commitErr : ¬ signalReg (RGN_COMMIT_ERR r.val) := Dev.not_signalReg_rgn r (by norm_num) (by norm_num) (by norm_num)

/-- A region that waits for the commit of the tick before looks for it among those it holds. -/
theorem Dev.awaits_eq_false {d : Dev} (hr : (d.g r).commit.lastMode.isRun = true) (hc : d.committing r.val = true)
    (hf : d.fenced r.val = false) {tick : Nat} (hl : (d.g r).commit.lastApplied ≠ tick) :
    ¬ (!(d.g r).commit.lastMode.isRun || !d.committing r.val || d.fenced r.val || (d.g r).commit.lastApplied == tick) = true := by
  simp [hr, hc, hf, hl]

/-- The part after a region found that a commit has not come. -/
def Dev.missCommit (d : Dev) (r : Region) (tick : Nat) : Dev :=
  ((d.err (RGN_COMMIT_ERR_commit_missing r.val) r 0x3E6).outcomeAll r tick 4).modCommit r fun x =>
    { x with previous := [], lapsed := x.lapsed ++ [tick] }

/-- The part after a region found that records of a commit have not come. -/
def Dev.missRecords (d : Dev) (r : Region) (tick : Nat) : Dev :=
  ((d.err (RGN_COMMIT_ERR_record_missing r.val) r 0x3E7).dueFence r 0x03).modCommit r fun x => { x with held := x.held.filter (·.tick != tick) }

section
variable {d : Dev} {tick : Nat}

theorem Dev.missCommit_kept : d.Kept [.regs, .wire, .ctxs, .commit] (d.missCommit r tick) :=
  (((Kept.refl _ d).err (by decide)).outcomeAll (by decide)).modCommit (by decide)

theorem Dev.missRecords_kept : d.Kept [.regs, .wire, .ctxs, .commit] (d.missRecords r tick) :=
  (((Kept.refl _ d).err (by decide)).dueFence (by decide)).modCommit (by decide)

theorem Dev.commit_err (f : Fld) (n : Nat) (q : Region) : ((d.err f r n).g q).commit = (d.g q).commit :=
  ((Kept.refl _ d).err fun _ => id).1 .commit (by decide) q

theorem Dev.commit_missCommit : ∃ o, ((d.missCommit r tick).g r).commit =
    { (d.g r).commit with outcomes := o, previous := [], lapsed := (d.g r).commit.lapsed ++ [tick] } := by
  obtain ⟨o, ho⟩ := commit_outcomeAll (d := d.err (RGN_COMMIT_ERR_commit_missing r.val) r 0x3E6) (r := r) (tick := tick) (code := 4)
  exact ⟨o, by rw [missCommit, commit_modCommit_same, ho, commit_err]⟩

theorem Dev.regsSig_missCommit : d.RegsSig [RGN_COMMIT_ERR r.val] (d.missCommit r tick) := by
  have h := (RegsBut.refl (fun a => a ∈ [RGN_COMMIT_ERR r.val] ∨ signalReg a) d).err (f := RGN_COMMIT_ERR_commit_missing r.val) (r := r) (n := 0x3E6)
    (by simp [RGN_COMMIT_ERR_commit_missing]) RegsSig.of_signal
  unfold missCommit
  exact (h.trans (regsBut_outcomeAll (by decide) (by decide) RegsSig.of_signal)).modCommit

theorem Dev.on_missCommit : (d.missCommit r tick).on (RGN_COMMIT_ERR_commit_missing r.val) = true := by
  have ho : (d.err (RGN_COMMIT_ERR_commit_missing r.val) r 0x3E6).RegsBut signalReg
      ((d.err (RGN_COMMIT_ERR_commit_missing r.val) r 0x3E6).outcomeAll r tick 4) := regsBut_outcomeAll (by decide) (by decide) fun _ => id
  rw [missCommit, on_modCommit, on_eq_true, ho.fld not_signalReg_commitErr, ← on_eq_true]
  exact on_err _ (by simp [RGN_COMMIT_ERR_commit_missing]) (by simp [RGN_COMMIT_ERR_commit_missing]) not_signalReg_commitErr _ _

theorem Dev.regsSig_missRecords : d.RegsSig [RGN_COMMIT_ERR r.val] (d.missRecords r tick) := by
  have h := (RegsBut.refl (fun a => a ∈ [RGN_COMMIT_ERR r.val] ∨ signalReg a) d).err (f := RGN_COMMIT_ERR_record_missing r.val) (r := r) (n := 0x3E7)
    (by simp [RGN_COMMIT_ERR_record_missing]) RegsSig.of_signal
  unfold missRecords dueFence
  exact h.modCommit.modCommit

theorem Dev.on_missRecords : (d.missRecords r tick).on (RGN_COMMIT_ERR_record_missing r.val) = true := by
  rw [missRecords, on_modCommit, dueFence, on_modCommit]
  exact on_err _ (by simp [RGN_COMMIT_ERR_record_missing]) (by simp [RGN_COMMIT_ERR_record_missing]) not_signalReg_commitErr _ _

theorem Dev.commit_missRecords (h : (d.g r).commit.fenceDue = 0) : ((d.missRecords r tick).g r).commit =
    { (d.g r).commit with fenceDue := 3, held := (d.g r).commit.held.filter (·.tick != tick) } := by
  rw [missRecords, commit_modCommit_same, dueFence, commit_modCommit_same, commit_err, h]
  rfl

end

variable (hr : (s.dev.g r).commit.lastMode.isRun = true) (hc : s.dev.committing r.val = true) (hf : s.dev.fenced r.val = false)
  (h0 : 0 < (s.dev.g r).tick) (h48 : (s.dev.g r).tick < 2 ^ 48) (hl : (s.dev.g r).commit.lastApplied ≠ (s.dev.g r).tick - 1)
include hr hc hf h0 h48 hl

/-- A region without the commit of the tick before applies nothing for that tick any more. -/
theorem applyDeadline_noCommit_carried (hh : ∀ c ∈ (s.dev.g r).commit.held, c.tick ≠ (s.dev.g r).tick - 1)
    (hs : (s.dev.g r).tick - 1 ∉ (s.dev.g r).commit.seen) : Carried (.applyDeadline r) s [.regs, .wire, .ctxs, .commit] fun e =>
      e.on (RGN_COMMIT_ERR_commit_missing r.val) = true ∧ (e.g r).commit.previous = []
        ∧ (e.g r).commit.lapsed = (s.dev.g r).commit.lapsed ++ [(s.dev.g r).tick - 1]
        ∧ (e.g r).commit.lastApplied = (s.dev.g r).commit.lastApplied
        ∧ (e.g r).commit.overlays = (s.dev.g r).commit.overlays ∧ s.dev.RegsSig [RGN_COMMIT_ERR r.val] e := by
  have hx : exec (.applyDeadline r) s = execApplyDeadline r s := rfl
  have hk : ((s.dev.g r).tick + 2 ^ 48 - 1) % 2 ^ 48 = (s.dev.g r).tick - 1 := by omega
  refine .of_run_eq (d := s.dev.missCommit r ((s.dev.g r).tick - 1)) hx ?_ Dev.missCommit_kept.1 ?_
  · have hn : (s.dev.g r).commit.held.find? (·.tick == (s.dev.g r).tick - 1) = none :=
      List.find?_eq_none.2 fun c hc => by simp [hh c hc]
    dsimp only
    rw [hk, if_neg (Dev.awaits_eq_false hr hc hf hl), hn]
    exact if_neg (by simpa using hs)
  · obtain ⟨o, ho⟩ := Dev.commit_missCommit (d := s.dev) (r := r) (tick := (s.dev.g r).tick - 1)
    rw [Dev.on_withFree, Dev.g_withFree, Dev.regsSig_withFree, ho]
    exact ⟨Dev.on_missCommit, rfl, rfl, rfl, rfl, Dev.regsSig_missCommit⟩

/-- A region that lacks records of the commit of the tick before is due for a fence. -/
theorem applyDeadline_noRecords_carried (hh : ∃ c ∈ (s.dev.g r).commit.held, c.tick = (s.dev.g r).tick - 1)
    (hn : ∀ c ∈ (s.dev.g r).commit.held, s.dev.holdsAll r c = false) (hd : (s.dev.g r).commit.fenceDue = 0) :
    Carried (.applyDeadline r) s [.regs, .wire, .ctxs, .commit] fun e =>
      e.on (RGN_COMMIT_ERR_record_missing r.val) = true ∧ (e.g r).commit.fenceDue = 3
        ∧ (∀ c ∈ (e.g r).commit.held, c.tick ≠ (s.dev.g r).tick - 1) ∧ s.dev.RegsSig [RGN_COMMIT_ERR r.val] e := by
  have hx : exec (.applyDeadline r) s = execApplyDeadline r s := rfl
  have hk : ((s.dev.g r).tick + 2 ^ 48 - 1) % 2 ^ 48 = (s.dev.g r).tick - 1 := by omega
  refine .of_run_eq (d := s.dev.missRecords r ((s.dev.g r).tick - 1)) hx ?_ Dev.missRecords_kept.1 ?_
  · obtain ⟨c, hm, ht⟩ := hh
    have hsome : ((s.dev.g r).commit.held.find? (·.tick == (s.dev.g r).tick - 1)).isSome = true :=
      List.find?_isSome.2 ⟨c, hm, by simp [ht]⟩
    obtain ⟨k, hk'⟩ := Option.isSome_iff_exists.1 hsome
    dsimp only
    rw [hk, if_neg (Dev.awaits_eq_false hr hc hf hl), hk']
    exact if_neg (ne_true_of_eq_false (hn k (List.mem_of_find?_eq_some hk')))
  · rw [Dev.on_withFree, Dev.g_withFree, Dev.regsSig_withFree, Dev.commit_missRecords hd]
    exact ⟨Dev.on_missRecords, rfl, fun c hm => by simpa using (List.mem_filter.1 hm).2, Dev.regsSig_missRecords⟩

end

/-- Settles O32: applying a commit writes only outcomes, last writes and a fence that falls due before the overlay and the tick are noted. -/
theorem commitsAreAppliedOrMissed : Obligations.CommitsAreAppliedOrMissed := by
  unfold Obligations.CommitsAreAppliedOrMissed
  exact ⟨fun _ _ _ _ _ => commit_seen_carried, fun _ _ _ _ => commit_applied_carried, fun _ _ _ _ _ => commit_lapsed_carried,
    fun _ _ _ _ => commit_held_carried, fun _ _ _ _ => commit_gap_carried, fun _ _ => applyDeadline_noCommit_carried,
    fun _ _ => applyDeadline_noRecords_carried⟩

end Sys2Proof.Machine

namespace Sys2Proof.Machine
namespace Dev

/-! ### Operations that leave the clocks alone (R84)

What runs between two counts of a shutter may change nearly everything; it leaves the tick counts, whether a region has had its first
shutter, and the anchor's position. -/

/-- The parts of the state that no clock lies in. -/
def unclocked : List Part :=
  [.free, .genBase, .regs, .pairs, .mem, .poison, .wire, .line, .ctxs, .cells, .blockCh, .regionCh, .chSpent, .packets, .nextPacket,
   .anchorSt, .endpoints, .chip, .thody, .mode, .drainedFrom, .tables, .inbox, .pool, .egress, .front, .dispatch, .mirror, .mpGeneration,
   .ledger, .journal, .requests, .nextTag, .hbm, .links, .routeDue, .due, .relays, .wipes]

/-- The clocks stand as they did. -/
structure Clocked (d e : Dev) : Prop where
  anchor : e.anchor = d.anchor
  tick : ∀ q, (e.g q).tick = (d.g q).tick
  started : ∀ q, (e.g q).commit.started = (d.g q).commit.started

theorem Clocked.refl (d : Dev) : d.Clocked d := ⟨rfl, fun _ => rfl, fun _ => rfl⟩

section
variable {d0 d e : Dev}

theorem Clocked.trans (h : d0.Clocked d) (k : d.Clocked e) : d0.Clocked e :=
  ⟨k.anchor.trans h.anchor, fun q => (k.tick q).trans (h.tick q), fun q => (k.started q).trans (h.started q)⟩

variable (h : d0.Clocked d)
include h

/-- Whatever changes none of the parts that the clocks lie in. -/
theorem Clocked.kept (k : d.Kept unclocked e) : d0.Clocked e :=
  h.trans ⟨k.1 .anchor (by decide), k.1 .tick (by decide), fun q => congrArg _ (k.1 .commit (by decide) q)⟩

theorem Clocked.modR {r : Region} {f : Rgn → Rgn} (hf : ∀ g, (f g).tick = g.tick ∧ (f g).commit.started = g.commit.started := by exact fun _ => ⟨rfl, rfl⟩) :
    d0.Clocked (d.modR r f) := by
  refine h.trans ⟨rfl, fun q => ?_, fun q => ?_⟩
  · rw [g_modR]
    split_ifs with hq
    · rw [(hf _).1, hq]
    · rfl
  · rw [g_modR]
    split_ifs with hq
    · rw [(hf _).2, hq]
    · rfl

theorem Clocked.modCommit {r : Region} {f : CommitState → CommitState} (hf : ∀ c, (f c).started = c.started := by exact fun _ => rfl) :
    d0.Clocked (d.modCommit r f) :=
  h.modR fun g => ⟨rfl, hf g.commit⟩

theorem Clocked.ite {c : Prop} [Decidable c] (k : d0.Clocked e) : d0.Clocked (if c then d else e) := by
  split_ifs
  · exact h
  · exact k

theorem Clocked.ite_fst {α : Type} {c : Prop} [Decidable c] {x : α} {y : Dev × α} (k : d0.Clocked y.1) :
    d0.Clocked (if c then (d, x) else y).1 := by
  split_ifs
  · exact h
  · exact k

theorem Clocked.foldl {α : Type} {f : Dev → α → Dev} {l : List α} (hf : ∀ (e : Dev) a, d0.Clocked e → d0.Clocked (f e a)) :
    d0.Clocked (l.foldl f d) := by
  induction l generalizing d with
  | nil => exact h
  | cons a t ih => exact ih (hf d a h)

theorem Clocked.each {α : Type} {f : α → Dev → Dev} {l : List α} (hf : ∀ a (e : Dev), d0.Clocked e → d0.Clocked (f a e)) :
    d0.Clocked (d.each l f) := Clocked.foldl (f := fun d a => f a d) h fun e a => hf a e

omit h in
theorem Clocked.of_fst {α : Type} {x : Dev × α} {a : α} (hx : x = (d, a)) (k : d0.Clocked x.1) : d0.Clocked d := by
  rw [hx] at k
  exact k

theorem Clocked.setReg {a : Nat} {w : Word} : d0.Clocked (d.setReg a w) := h.kept ((setReg_kept ..).mono (by decide))
theorem Clocked.setFld {f : Fld} {v : Nat} : d0.Clocked (d.setFld f v) := h.setReg
theorem Clocked.setOn {f : Fld} : d0.Clocked (d.setOn f) := h.setReg
theorem Clocked.clr {f : Fld} : d0.Clocked (d.clr f) := h.setReg
theorem Clocked.addSat {f : Fld} {n : Nat} : d0.Clocked (d.addSat f n) := h.setReg
theorem Clocked.zero {a n : Nat} : d0.Clocked (d.zero a n) := h.kept ((zero_kept ..).mono (by decide))
theorem Clocked.send {p q : Nat} {m : Msg} : d0.Clocked (d.send p q m) := h.kept ((send_kept ..).mono (by decide))
theorem Clocked.sendAll {p : Nat} {l : List Region} {m : Msg} : d0.Clocked (d.sendAll p l m) := h.kept ((sendAll_kept ..).mono (by decide))
theorem Clocked.flood {r : Region} {via : Option (Fin 6)} {m : Msg} : d0.Clocked (d.flood r via m) := h.kept ((flood_kept ..).mono (by decide))
theorem Clocked.modCtx {k : Nat} {f : Ctx → Ctx} : d0.Clocked (d.modCtx k f) := h.kept ((modCtx_kept ..).mono (by decide))
theorem Clocked.modA {f : AnchorState → AnchorState} : d0.Clocked (d.modA f) := h.kept ((Kept.refl _ d).modA (by decide))
theorem Clocked.modFront {r : Region} {f : FrontState → FrontState} : d0.Clocked (d.modFront r f) := h.kept ((Kept.refl _ d).modFront (by decide))
theorem Clocked.modEgress {r : Region} {f : EgressState → EgressState} : d0.Clocked (d.modEgress r f) := h.kept ((Kept.refl _ d).modEgress (by decide))
theorem Clocked.modTables {r : Region} {f : TableState → TableState} : d0.Clocked (d.modTables r f) := h.kept ((Kept.refl _ d).modTables (by decide))
theorem Clocked.raise {r : Region} {n : Nat} : d0.Clocked (d.raise r n) := h.kept ((Kept.refl _ d).raise (by decide))
theorem Clocked.event {r : Region} {sel qual n : Nat} : d0.Clocked (d.event r sel qual n) := h.kept ((Kept.refl _ d).event (by decide))
theorem Clocked.err {f : Fld} {r : Region} {n : Nat} : d0.Clocked (d.err f r n) := h.kept ((Kept.refl _ d).err (by decide))
theorem Clocked.post {code region word : Nat} {detail : List Byte} : d0.Clocked (d.post code region word detail) :=
  h.kept ((Kept.refl _ d).post (by decide))

/-! ### Commits and staging -/

theorem Clocked.outcome {r : Region} {i : Issuer} {code visible index : Nat} : d0.Clocked (d.outcome r i code visible index) := by
  have hn : d0.Clocked ((d.noted r i code visible index).countFull r i code) := by
    have h1 : d0.Clocked (d.noted r i code visible index) := by
      unfold noted
      exact h.modCommit.event
    unfold countFull
    split
    · exact .ite (h1.kept ((Kept.refl _ _).countLearn (by decide))) h1
    · exact h1
  rw [outcome_eq]
  exact .ite hn.err hn

theorem Clocked.stage {r : Region} {m : Mut} {i : Issuer} : d0.Clocked (d.stage r m i).1 := by
  unfold Dev.stage
  extract_lets st host hw m1 d1 d2
  have h2 : d0.Clocked d2 := h.modCommit.setFld.event
  have h3 : d0.Clocked (d2.sendAll r.val (d2.committers r) (.mutRecord (d2.g r).tick m1)) := h2.sendAll
  clear_value d2
  exact .ite_fst h.err (.ite h2 h3)

theorem Clocked.dueFence {r : Region} {cause : Nat} : d0.Clocked (d.dueFence r cause) := h.modCommit
theorem Clocked.noteWrite {r : Region} {tick : Nat} {m : Mut} : d0.Clocked (d.noteWrite r tick m) := h.modCommit

theorem Clocked.applyList {r : Region} {tick : Nat} {l : List Mut} : d0.Clocked (d.applyList r tick l) := by
  obtain ⟨e, ops, he, hl⟩ := (Settles.refl r d).applyList (tick := tick) (l := l)
  have hk : d.Kept [.regs, .wire, .ctxs, .commit, .tables] (d.applyList r tick l) := (Kept.refl _ d).applyList fun _ => id
  refine h.trans ⟨hk.1 .anchor (by decide), hk.1 .tick (by decide), fun q => ?_⟩
  rw [hl, commit_modCommit]
  split_ifs with hq
  · obtain ⟨o, w, f, ho⟩ := he.own
    rw [hq, ho]
  · rw [he.other q hq]

/-! ### Queues, drops and release lists -/

theorem Clocked.noteOutcome {r : Region} {x : Stamp} {copy outcome requester : Nat} : d0.Clocked (d.noteOutcome r x copy outcome requester) :=
  h.kept (((Kept.refl _ d).modCopyout (by decide)).settle (by decide))

theorem Clocked.reportOutcome {r : Region} {x : ReleaseRec} {outcome requester : Nat} : d0.Clocked (d.reportOutcome r x outcome requester) :=
  .ite h.noteOutcome h.send

theorem Clocked.refuse {r : Region} {x : ReleaseRec} {code : Nat} : d0.Clocked (d.refuse r x code) :=
  (h.kept ((Kept.refl _ d).dropCount (by decide))).reportOutcome

theorem Clocked.enqueueHost {r : Region} {x : ReleaseRec} : d0.Clocked (d.enqueueHost r x) := by
  unfold Dev.enqueueHost
  split
  · exact h.refuse
  · exact .ite h.refuse.raise (h.kept ((Kept.refl _ d).modEp (by decide))).reportOutcome

theorem Clocked.enqueue {r : Region} {x : ReleaseRec} : d0.Clocked (d.enqueue r x) := by
  have hq {e : Dev} (k : d0.Clocked e) (q : Nat) (l : List QueueEntry) : d0.Clocked (e.setQueue r q l) := k.kept ((Kept.refl _ e).setQueue (by decide))
  unfold Dev.enqueue
  refine .ite h.refuse (.ite (.ite h.reportOutcome h.refuse) (.ite h.enqueueHost (.ite h.setOn.refuse (.ite h.refuse ?_))))
  extract_lets n onchip wants room spill d1 entry d2 d3
  have h1 : d0.Clocked d1 := .ite h.err h
  have h2 : d0.Clocked d2 := (hq h1 _ _).event
  exact (Clocked.ite h2.modEgress.event h2).reportOutcome

theorem Clocked.closeList {r : Region} {k : Nat} : d0.Clocked (d.closeList r k) :=
  h.modEgress.setFld.each fun _ _ h => h.enqueue

theorem Clocked.releaseRecords {n : Nat} {x : Stamp} : d0.Clocked (d.releaseRecords n x) :=
  h.foldl fun _ _ h => h.modEgress.each fun _ _ h => h.enqueue

theorem Clocked.endDropped {n : Nat} {p : Packet} : d0.Clocked (d.endDropped n p) := by
  have h1 : d0.Clocked ((((d.sendMirrors n p true).leaveFlight (R p.region) p).freePkt (R p.region) p.head).freeOrig (R p.region) p |>.setPkt n none) :=
    h.kept (((((Kept.refl _ d).sendMirrors (by decide)).leaveFlight (by decide)).freePkt (by decide)).freeOrig (by decide) |>.setPkt (by decide))
  exact .ite h1 h1.releaseRecords

theorem Clocked.dropPacket {n code : Nat} : d0.Clocked (d.dropPacket n code) := by
  unfold Dev.dropPacket
  split
  · exact h
  · next p _ =>
    have h1 : d0.Clocked ((d.dropCount (R p.region) code).freeEntry n) :=
      h.kept (((Kept.refl _ d).dropCount (by decide)).freeEntry (by decide))
    dsimp only
    split
    · exact (h1.kept ((Kept.refl _ _).unqueue (by decide))).endDropped
    · exact h1.endDropped

theorem Clocked.dropQueued {r : Region} {q code : Nat} {x : QueueEntry} : d0.Clocked (d.dropQueued r q code x) := by
  have h1 : d0.Clocked (d.dropCount r code) := h.kept ((Kept.refl _ d).dropCount (by decide))
  exact .ite (h1.kept ((Kept.refl _ _).giveBack (by decide))) h1.reportOutcome

theorem Clocked.flushQueue {r : Region} {q code : Nat} : d0.Clocked (d.flushQueue r q code) :=
  (h.kept ((Kept.refl _ d).setQueue (by decide))).modEgress.each fun _ _ h => h.dropQueued

theorem Clocked.report {o : Outcome} : d0.Clocked (d.report o) := by
  unfold Dev.report
  split
  · exact h.kept ((Kept.refl _ d).urComplete (by decide))
  · exact .ite (h.kept ((Kept.refl _ d).modMail (by decide))) h
  · exact h

end
end Dev
end Sys2Proof.Machine

namespace Sys2Proof.Machine
namespace Dev
/-! ### What runs after the mode is taken leaves it in force (R837)

A region has the part's mode from step 7 on: nothing after it writes the mode of a region or the register of the part's. -/

/-- The modes stand as they did. -/
structure Steady (d e : Dev) : Prop where
  anchor : e.anchor = d.anchor
  mode : ∀ q, (e.g q).mode = (d.g q).mode
  stat : d.RegsBut (· ≠ CHP_MODE_STAT d.A) e

theorem Steady.refl (d : Dev) : d.Steady d := ⟨rfl, fun _ => rfl, RegsBut.refl _ d⟩

section
variable {d0 d e : Dev}

theorem Steady.trans (h : d0.Steady d) (k : d.Steady e) : d0.Steady e := by
  have hA : d.A = d0.A := congrArg Fin.val h.anchor
  refine ⟨k.anchor.trans h.anchor, fun q => (k.mode q).trans (h.mode q), h.stat.trans ?_⟩
  have := k.stat
  rwa [hA] at this

theorem Steady.mode_eq (h : d0.Steady d) : d.mode = d0.mode := by
  have hA : d.A = d0.A := congrArg Fin.val h.anchor
  unfold Dev.mode
  rw [hA, h.stat.fld (not_not.2 rfl)]

/-- What leaves the modes, the anchor and the registers alone. -/
theorem Steady.of_regs {l : List Part} (k : d.Kept l e) (hl : ∀ p ∈ [Part.anchor, .mode, .regs], p ∉ l := by decide) : d.Steady e :=
  ⟨k.1 .anchor (hl _ (by decide)), k.1 .mode (hl _ (by decide)), .of_regs (k.1 .regs (hl _ (by decide)))⟩

/-- Signals leave the register of the part's mode alone. -/
theorem ne_modeStat_of_signalReg (d : Dev) (a : Nat) (h : signalReg a) : a ≠ CHP_MODE_STAT d.A := fun ha =>
  d.not_signalReg_chp (x := 0x1000C) (by norm_num) (by norm_num) (by
    rw [ha] at h
    exact h)

/-- A region's register is none of the chip's. -/
theorem rgnReg_ne_modeStat (d : Dev) {q x : Nat} (hx : x < 2 ^ 24) : rgnReg q x ≠ CHP_MODE_STAT d.A :=
  (chpReg_ne_rgnReg (by norm_num) hx).symm

/-- A block's register of its lower half is none of the chip's below the fault control. -/
theorem blkReg_ne_chpReg {q b x a y : Nat} (hx : x < 0x100000) (hy : y < 0x100000) : blkReg q b x ≠ chpReg a y := by
  unfold blkReg chpReg
  omega

variable (h : d0.Steady d)
include h

theorem Steady.ite {c : Prop} [Decidable c] (k : d0.Steady e) : d0.Steady (if c then d else e) := by
  split_ifs
  · exact h
  · exact k

theorem Steady.ite_fst {α : Type} {c : Prop} [Decidable c] {x : α} {y : Dev × α} (k : d0.Steady y.1) : d0.Steady (if c then (d, x) else y).1 := by
  split_ifs
  · exact h
  · exact k

theorem Steady.each {α : Type} {f : α → Dev → Dev} {l : List α} (hf : ∀ a (e : Dev), d0.Steady e → d0.Steady (f a e)) :
    d0.Steady (d.each l f) := by
  unfold Dev.each
  induction l generalizing d with
  | nil => exact h
  | cons a t ih => exact ih (hf a d h)

omit h in
theorem Steady.of_fst {α : Type} {x : Dev × α} {a : α} (hx : x = (d, a)) (k : d0.Steady x.1) : d0.Steady d := by
  rw [hx] at k
  exact k

theorem Steady.setReg {a : Nat} {w : Word} (ha : a ≠ CHP_MODE_STAT d.A) : d0.Steady (d.setReg a w) :=
  h.trans ⟨rfl, fun _ => rfl, (RegsBut.refl _ d).setReg ha⟩

theorem Steady.setRgn {q x lo width v : Nat} (hx : x < 2 ^ 24) : d0.Steady (d.setFld ⟨rgnReg q x, lo, width⟩ v) :=
  h.setReg (d.rgnReg_ne_modeStat hx)

theorem Steady.signalled (k : d.Signalled e) : d0.Steady e :=
  h.trans ⟨k.anchor, k.1 .mode (by decide), (RegsBut.refl _ d).signalled k d.ne_modeStat_of_signalReg⟩

theorem Steady.raise {r : Region} {n : Nat} : d0.Steady (d.raise r n) := h.signalled (signalled_raise ..)
theorem Steady.event {r : Region} {sel qual n : Nat} : d0.Steady (d.event r sel qual n) := h.signalled (signalled_event ..)

theorem Steady.err {q x lo width : Nat} {r : Region} {n : Nat} (hx : x < 2 ^ 24) : d0.Steady (d.err ⟨rgnReg q x, lo, width⟩ r n) :=
  (h.setRgn (v := 1) hx).signalled (err_frame ..)

theorem Steady.modA {f : AnchorState → AnchorState} : d0.Steady (d.modA f) := h.trans (.of_regs ((Kept.refl [.anchorSt] d).modA fun _ => id))
theorem Steady.modFront {r : Region} {f : FrontState → FrontState} : d0.Steady (d.modFront r f) :=
  h.trans (.of_regs ((Kept.refl [.front] d).modFront fun _ => id))
theorem Steady.modTables {r : Region} {f : TableState → TableState} : d0.Steady (d.modTables r f) :=
  h.trans (.of_regs ((Kept.refl [.tables] d).modTables fun _ => id))
theorem Steady.modCommit {r : Region} {f : CommitState → CommitState} : d0.Steady (d.modCommit r f) :=
  h.trans (.of_regs ((Kept.refl [.commit] d).modCommit fun _ => id))
theorem Steady.send {p q : Nat} {m : Msg} : d0.Steady (d.send p q m) := h.trans (.of_regs (send_kept ..))
theorem Steady.sendAll {p : Nat} {l : List Region} {m : Msg} : d0.Steady (d.sendAll p l m) := h.trans (.of_regs (sendAll_kept ..))
theorem Steady.flood {r : Region} {via : Option (Fin 6)} {m : Msg} : d0.Steady (d.flood r via m) := h.trans (.of_regs (flood_kept ..))

/-! #### The power of blocks and stacks follows the mode (R840, R841) -/

theorem Steady.requestBlock {r : Region} {b : Nat} {on : Bool} : d0.Steady (d.requestBlock r b on) := by
  have hs {n : Nat} : d0.Steady (d.setBlockState r b n) := h.setReg (d.rgnReg_ne_modeStat (by norm_num))
  unfold Dev.requestBlock
  split
  · exact hs
  · exact hs
  · exact hs
  · exact hs
  · exact h

theorem Steady.noteRequest {r : Region} {kind i : Nat} : d0.Steady (d.noteRequest r kind i) :=
  h.trans (.of_regs ((Kept.refl [.thody, .ledger] d).noteRequest fun _ => id))

theorem Steady.requestRate {r : Region} {n : Nat} : d0.Steady (d.requestRate r n) :=
  .ite h (.ite (h.err (by norm_num)) (.ite ((h.setRgn (by norm_num)).setRgn (by norm_num)) ((h.setRgn (by norm_num)).setRgn (by norm_num))))

theorem Steady.refreshBudgets {r : Region} : d0.Steady (d.refreshBudgets r) :=
  h.each fun _ _ h => (h.setReg (blkReg_ne_chpReg (by norm_num) (by norm_num))).setReg (blkReg_ne_chpReg (by norm_num) (by norm_num))

theorem Steady.enterLean {r : Region} : d0.Steady (d.enterLean r) := (h.each fun _ _ h => h.requestBlock.noteRequest).requestRate
theorem Steady.leaveLean {r : Region} : d0.Steady (d.leaveLean r) := (h.each fun _ _ h => h.requestBlock.noteRequest).requestRate

/-! #### Steps 9 and 10, and the anchor's part -/

theorem Steady.stage {r : Region} {m : Mut} {i : Issuer} : d0.Steady (d.stage r m i).1 := by
  unfold Dev.stage
  extract_lets st host hw m1 d1 d2
  have h2 : d0.Steady d2 := (h.modCommit.setRgn (by norm_num)).event
  have h3 : d0.Steady (d2.sendAll r.val (d2.committers r) (.mutRecord (d2.g r).tick m1)) := h2.sendAll
  clear_value d2
  exact .ite_fst (h.err (by norm_num)) (.ite h2 h3)

theorem Steady.ageSlot {r : Region} {k n : Nat} {t : TableDesc} {slot : Nat} : d0.Steady (d.ageSlot r k n t slot) := by
  unfold Dev.ageSlot
  refine .ite h (.ite (.ite h.modTables ?_) (.ite h.stage h))
  dsimp only
  split
  next heq => exact (Steady.of_fst heq h.stage).modTables
  next heq => exact Steady.of_fst heq h.stage

theorem Steady.sweep {r : Region} {k n table slot : Nat} : d0.Steady (d.sweep r k n table slot).1 := by
  induction n generalizing d table slot with
  | zero => exact h
  | succ n ih =>
    unfold Dev.sweep
    split
    · exact h
    · exact ih h.ageSlot

theorem Steady.aging {r : Region} {k : Nat} : d0.Steady (d.aging r k) := by
  unfold Dev.aging
  extract_lets
  refine .ite h.modTables (.ite h ?_)
  split
  next heq =>
    have h := Steady.of_fst heq h.sweep
    extract_lets d1
    have h1 : d0.Steady d1 := .ite (h.err (by norm_num)) h
    split
    · exact h1.modTables
    · exact (h1.setRgn (by norm_num)).modTables

theorem Steady.requestRepairs {r : Region} : d0.Steady (d.requestRepairs r) :=
  h.trans (.of_regs ((Kept.refl [.wire] d).requestRepairs fun _ => id))

theorem Steady.sendSeal {r : Region} {k : Nat} : d0.Steady (d.sendSeal r k) := .ite h (h.send.setRgn (by norm_num))

theorem Steady.setChp {a x lo width v : Nat} (ha : d.A = a) (hx : x ≠ 0x1000C) : d0.Steady (d.setFld ⟨chpReg a x, lo, width⟩ v) := by
  subst ha
  exact h.setReg (mt chpReg_inj.1 hx)

theorem Steady.slewShutter : d0.Steady d.slewShutter := by
  have hl (f : AnchorState → AnchorState) : d0.Steady (((d.modA f).setFld (CHP_SHUTTER_STAT_locked d.A) 1).setFld (CHP_SHUTTER_STAT_locking d.A) 0) :=
    (h.modA.setChp (A_modA ..) (by norm_num)).setChp (by rw [A_setFld, A_modA]) (by norm_num)
  exact .ite (hl _) h.modA

theorem Steady.ppsOut {k : Nat} : d0.Steady (d.ppsOut k) := .ite (h.trans (.of_regs ((Kept.refl [.line] d).emit fun _ => id))) h
theorem Steady.noteConverged : d0.Steady d.noteConverged := .ite h.modA.raise h.modA
theorem Steady.anchorPart {k : Nat} : d0.Steady (d.anchorPart k) := h.sendAll.flood.slewShutter.ppsOut.noteConverged

theorem Steady.echoes {r : Region} {k : Nat} : d0.Steady (d.echoes r k) := by
  unfold Dev.echoes
  refine .ite h (h.each fun _ _ h => ?_)
  split
  · exact .ite h.send h
  · exact h

theorem Steady.drainEmpty {r : Region} : d0.Steady (d.drainEmpty r) := .ite h.modFront.raise h

end

/-- A region has the part's mode once it has taken it. -/
theorem mode_takeMode (d : Dev) (r : Region) : ((d.takeMode r).g r).mode = (d.takeMode r).mode := by
  unfold takeMode
  extract_lets was now d1 d2 d3
  split_ifs with hm
  · exact hm
  · have h2 : d1.Steady d2 := (Steady.refl d1).raise.modFront
    have h3 : d1.Steady (d3.refreshBudgets r) := Steady.refreshBudgets (.ite h2.enterLean (.ite h2.leaveLean h2))
    rw [h3.mode, h3.mode_eq]
    have h1 : (d1.g r).mode = now := congrArg Rgn.mode (g_modR_same ..)
    exact h1
end Dev
end Sys2Proof.Machine

namespace Sys2Proof.Machine
namespace Dev

/-! ### The steps of a shutter leave the clocks alone (R96)

Only step 1 moves the tick count on; each of the others is shown to leave it, in the order in which a shutter takes them. -/

section
variable {d0 d e : Dev} (h : d0.Clocked d)
include h

/-! #### Step 6: what was written takes effect, and the ledger -/

theorem Clocked.takeDue {r : Region} : d0.Clocked (d.takeDue r) := h.modR.each fun _ _ h => h.setReg

theorem Clocked.takeDivs {r : Region} : d0.Clocked (d.takeDivs r) :=
  h.modFront.each fun _ _ h => h.setReg.zero.zero.kept ((Kept.refl _ _).startCode (by decide))

theorem Clocked.takeDesc {r : Region} {n : Nat} : d0.Clocked (d.takeDesc r n) := by
  unfold Dev.takeDesc
  extract_lets t keep d1 d2
  have h2 : d0.Clocked d2 := h.modCommit.modTables
  exact Clocked.setFld (.ite h2 h2.zero)

theorem Clocked.takeDescs {r : Region} : d0.Clocked (d.takeDescs r) := h.modTables.each fun _ _ h => h.takeDesc

theorem Clocked.requestBlock {r : Region} {b : Nat} {on : Bool} : d0.Clocked (d.requestBlock r b on) :=
  h.kept ((Kept.refl _ d).requestBlock (by decide))

theorem Clocked.requestRate {r : Region} {n : Nat} : d0.Clocked (d.requestRate r n) := h.kept ((Kept.refl _ d).requestRate (by decide))

theorem Clocked.refreshBudgets {r : Region} : d0.Clocked (d.refreshBudgets r) := h.kept ((Kept.refl _ d).refreshBudgets (by decide))

theorem Clocked.parkRegion {r : Region} : d0.Clocked (d.parkRegion r) := by
  unfold Dev.parkRegion
  extract_lets d1 d2
  have h2 : d0.Clocked d2 := h.setFld.each fun _ _ h => h.requestBlock
  exact .ite h2.requestRate (.ite h2.setFld h2)

theorem Clocked.wakeRegion {r : Region} : d0.Clocked (d.wakeRegion r) := by
  unfold Dev.wakeRegion
  extract_lets d1 d2
  have h2 : d0.Clocked d2 := h.setFld.each fun _ _ h => h.requestBlock
  exact .ite h2 h2.requestRate

theorem Clocked.takePark {r : Region} : d0.Clocked (d.takePark r) := by
  unfold Dev.takePark
  split
  · exact h.parkRegion
  · exact h.wakeRegion
  · exact h

theorem Clocked.setLinkState {r m n : Nat} : d0.Clocked (d.setLinkState r m n) := h.kept ((Kept.refl _ d).setLinkState (by decide))

/-- The operation is opened as a constant, and what a module faces is named: the kernel is not asked to compute it. -/
theorem Clocked.downModule {r : Region} {m : Nat} : d0.Clocked (d.downModule r m) := by
  rw [show @Dev.downModule = _ by delta Dev.downModule; exact rfl]
  generalize Dev.facing = facing
  extract_lets d1
  have h1 : d0.Clocked d1 := h.setLinkState
  split
  · exact h1
  · exact .ite (h1.kept ((Kept.refl _ _).moveTraffic (by decide)))
      (.ite (h1.kept (((Kept.refl _ _).noteRoute (by decide)).discardLost (by decide))) h1)

theorem Clocked.takeLinks {r : Region} : d0.Clocked (d.takeLinks r) := by
  unfold Dev.takeLinks
  refine h.each fun _ _ h => ?_
  split
  · exact h.setLinkState
  · exact h
  · exact h.downModule
  · exact h

theorem Clocked.takeRoutes {r : Region} {k : Nat} : d0.Clocked (d.takeRoutes r k) := by
  unfold Dev.takeRoutes
  extract_lets l d1 edges whole mode d2 was now d3
  have h2 : d0.Clocked d2 := Clocked.setFld (.setFld (h.modR.kept ((Kept.refl _ _).discardLost (by decide))))
  have h3 : d0.Clocked d3 := .raise (h2.setFld.kept ((Kept.refl _ _).setParent (by decide)))
  exact .ite h (.ite (h3.each fun _ _ h => h.dueFence) h3)

theorem Clocked.takeFlush {r : Region} : d0.Clocked (d.takeFlush r) :=
  h.modEgress.each fun _ _ h => (h.each fun _ _ h => h.flushQueue).raise

theorem Clocked.portFalls {r : Region} {p : Nat} : d0.Clocked (d.portFalls r p) := .ite h.clr.clr.modEgress h

theorem Clocked.raiseUnit {r : Region} {kind i requested effective : Nat} : d0.Clocked (d.raiseUnit r kind i requested effective) :=
  .post (.addSat (.ite h.setReg h))

theorem Clocked.setUnit {r : Region} {kind i : Nat} {u : LedgerUnit} : d0.Clocked (d.setUnit r kind i u) := h.modR

theorem Clocked.updateUnit {r : Region} {k kind i : Nat} : d0.Clocked (d.updateUnit r k kind i) := by
  unfold Dev.updateUnit
  extract_lets u v q d1 passing n d2
  have h1 : d0.Clocked d1 := .ite h.portFalls h
  exact .ite h1.setUnit (.ite h1.setUnit.raiseUnit h1.setUnit)

theorem Clocked.unitJobs {r : Region} {k : Nat} : d0.Clocked (d.unitJobs r k) := by
  unfold Dev.unitJobs
  refine h.each fun _ e h => ?_
  have hj {n status detail : Nat} {result : List Byte} : d0.Clocked (e.endJob n status detail result) :=
    h.kept ((Kept.refl _ _).endJob (by decide))
  split
  · exact .ite h (.ite hj (.ite hj (.ite hj h)))
  · exact h

theorem Clocked.takeUnits {r : Region} {k : Nat} : d0.Clocked (d.takeUnits r k) := by
  unfold Dev.takeUnits
  extract_lets clk d1 d2 d3
  have h1 : d0.Clocked d1 := h.takeDue.takeDivs.takeDescs.kept ((Kept.refl _ _).takeSlots (by decide))
  have h2 : d0.Clocked d2 := .ite h1 h1.refreshBudgets
  have h3 : d0.Clocked d3 := h2.takePark.takeLinks.takeRoutes.takeFlush
  exact ((h3.each fun _ _ h => h.updateUnit).setFld).unitJobs

/-! #### Step 1: the tick begins -/

theorem Clocked.snapOne {a : Nat} : d0.Clocked (d.snapOne a) := h.setReg.setReg

theorem Clocked.signals {n : Nat} {l : List Signal} : d0.Clocked (Dev.signals n d l) := h.kept ((Kept.refl _ d).signals (by decide))

theorem Clocked.holdover {r : Region} {k : Nat} : d0.Clocked (d.holdover r k) := .ite h (.ite h.clr h.err)

theorem Clocked.snapRegion {r : Region} {k : Nat} : d0.Clocked (d.snapRegion r k) :=
  .ite ((h.each fun _ _ h => h.snapOne).each fun _ _ h => h.each fun _ _ h => h.snapOne).modA.send h

omit h in
theorem Clocked.foldl_fst {α β : Type} {f : Dev × β → α → Dev × β} {l : List α} {x : Dev × β} (hx : d0.Clocked x.1)
    (hf : ∀ (y : Dev × β) a, d0.Clocked y.1 → d0.Clocked (f y a).1) : d0.Clocked (l.foldl f x).1 := by
  induction l generalizing x with
  | nil => exact hx
  | cons a t ih => exact ih (hf x a hx)

theorem Clocked.shutterEvent {r : Region} : d0.Clocked (d.shutterEvent r) := by
  unfold Dev.shutterEvent
  split
  next heq => exact (Clocked.of_fst heq (Clocked.foldl_fst h fun _ _ h => h.kept ((Kept.refl _ _).monBank (by decide)))).signals

theorem Clocked.tickBank {base count hit : Nat} {region : Option Nat} {src : Signal} :
    d0.Clocked (d.tickBank base count hit region src).1 := by
  unfold Dev.tickBank
  refine Clocked.foldl_fst h fun y k h => ?_
  have h1 {n : Nat} : d0.Clocked (y.1.monAdd (base + k * 0x20) n).1 := h.kept ((Kept.refl _ _).monAdd (by decide))
  dsimp only
  exact .ite_fst (h1.kept ((Kept.refl _ _).setHit (by decide))) h1

theorem Clocked.tickMonitors {r : Region} : d0.Clocked (d.tickMonitors r) := by
  unfold Dev.tickMonitors
  split
  next heq =>
    have h := Clocked.of_fst heq (Clocked.foldl_fst h fun _ _ h => h.tickBank)
    split
    next heq =>
      have h := Clocked.of_fst heq h.tickBank
      split
      next heq => exact (Clocked.of_fst heq h.tickBank).signals

theorem Clocked.spareSlots {r : Region} : d0.Clocked (d.spareSlots r) := h.setFld

theorem Clocked.refillLearn {r : Region} : d0.Clocked (d.refillLearn r) := h.each fun _ _ h => h.kept ((Kept.refl _ _).setTokens (by decide))

/-- A region that rejoins may copy its sibling's replica, but not its clock. -/
theorem Clocked.copyReplica {q r : Region} : d0.Clocked (d.copyReplica q r) := by
  have hc {e w : Dev} (k : d0.Clocked e) (a b n : Nat) : d0.Clocked (e.copyRange w a b n) := k.kept ((Kept.refl _ e).copyRange (by decide))
  unfold Dev.copyReplica
  extract_lets w stored d1 d2 d3 before tables d4 d5
  have h1 : d0.Clocked d1 := h.each fun _ _ h => hc h ..
  have h2 : d0.Clocked d2 := h1.each fun _ _ h => hc (hc h ..) ..
  have h3 : d0.Clocked d3 := h2.kept ((Kept.refl _ _).copyRegs (by decide))
  have h4 : d0.Clocked d4 := h3.modTables.modCommit
  exact h4.modFront.each fun _ _ h => h.zero

theorem Clocked.rejoinSteps {r : Region} {k : Nat} : d0.Clocked (d.rejoinSteps r k) := by
  unfold Dev.rejoinSteps
  split
  · exact .ite h (.ite h.copyReplica (.ite (h.kept ((Kept.refl _ _).rejoinRecover (by decide))) h))
  · exact h

/-! #### Steps 2 and 3: windows and releases -/

theorem Clocked.leaveWorker {c n : Nat} : d0.Clocked (d.leaveWorker c n) := by
  unfold Dev.leaveWorker
  extract_lets held d1 rest
  have h1 : d0.Clocked d1 := .ite (h.kept ((Kept.refl _ _).endHeld (by decide))) h
  exact h1.modCtx

theorem Clocked.overrun {r : Region} {n : Nat} {p : Packet} : d0.Clocked (d.overrun r n p) := by
  unfold Dev.overrun
  split
  · exact (h.leaveWorker.addSat.raise.kept ((Kept.refl _ _).bevent (by decide))).dropPacket
  · exact h.dropPacket

theorem Clocked.modPkt {n : Nat} {f : Packet → Packet} : d0.Clocked (d.modPkt n f) := h.kept ((Kept.refl _ d).modPkt (by decide))

theorem Clocked.endPassOf {r : Region} {n : Nat} {p : Packet} : d0.Clocked (d.endPassOf r n p) := by
  have hm {entries : List Nat} {many : Bool} : d0.Clocked (d.makeHead r p entries many).1 := h.kept ((Kept.refl _ d).makeHead (by decide))
  unfold Dev.endPassOf
  extract_lets many plain bad
  refine .ite h.modPkt ?_
  split
  next heq => exact (Clocked.of_fst heq hm).dropPacket
  next heq =>
    have h1 := Clocked.of_fst heq hm
    exact Clocked.modPkt (.ite h1 (h1.kept ((Kept.refl _ _).freePkt (by decide))))

theorem Clocked.endWindows {r : Region} {k : Nat} : d0.Clocked (d.endWindows r k) :=
  (((h.each fun _ _ h => h.overrun).each fun _ _ h => h.endPassOf).each fun _ _ h => h.modCtx).kept ((Kept.refl _ _).modDsp (by decide))

theorem Clocked.releases {r : Region} {k : Nat} : d0.Clocked (d.releases r k) := by
  unfold Dev.releases
  extract_lets d1 d2 d3 off gone d4 dsts
  have h3 : d0.Clocked d3 := .setFld (h.modEgress.each fun _ _ h => h.kept ((Kept.refl _ _).leaveFlight (by decide)))
  have h4 : d0.Clocked d4 := h3.modEgress.each fun _ _ h => h.kept ((Kept.refl _ _).deref (by decide))
  exact .ite h4.closeList h4.sendAll

/-! #### Steps 4 and 5: mutations become visible, and the panes -/

theorem Clocked.applyOps {r : Region} {l : List TabOp} : d0.Clocked (d.applyOps r l) := h.kept ((Kept.refl _ d).applyOps (by decide))

theorem Clocked.performHeld {r : Region} {k : Nat} {m : Mut} {i : Option Issuer} : d0.Clocked (d.performHeld r k m i) := by
  unfold Dev.performHeld
  dsimp only
  split
  · exact h.applyOps.outcome
  · exact h.applyOps

theorem Clocked.showCommits {r : Region} {k : Nat} : d0.Clocked (d.showCommits r k) :=
  (h.modCommit.foldl fun _ _ h => h.applyOps).applyOps.each fun _ _ h => h.performHeld

theorem Clocked.applyLocal {r : Region} {k : Nat} : d0.Clocked (d.applyLocal r k) := by
  unfold Dev.applyLocal
  extract_lets before l d1 done d2 d3
  have h3 : d0.Clocked d3 := (h.applyList.foldl fun _ _ h => h.sendAll).addSat
  exact .ite h.addSat (.ite h3.clr h3.addSat)

theorem Clocked.applyRecon {r : Region} {x : Copy} : d0.Clocked (d.applyRecon r x) := by
  unfold Dev.applyRecon
  extract_lets v a ops d1
  have h1 : d0.Clocked d1 := h.applyOps.modCommit (by
    intro c
    split <;> rfl)
  exact .ite h (.ite h1.noteWrite h1)

theorem Clocked.applyRecons {r : Region} : d0.Clocked (d.applyRecons r) := h.modCommit.each fun _ _ h => h.applyRecon
theorem Clocked.reports {r : Region} {k : Nat} : d0.Clocked (d.reports r k) := h.modCommit.each fun _ _ h => h.report

theorem Clocked.setPaneState {r p n : Nat} : d0.Clocked (d.setPaneState r p n) := h.kept ((Kept.refl _ d).setPaneState (by decide))

theorem Clocked.swapHere {r : Region} {k : Nat} : d0.Clocked (d.swapHere r k) :=
  h.setPaneState.setPaneState.setFld.setFld.modFront.raise

theorem Clocked.retireHere {r : Region} {k : Nat} : d0.Clocked (d.retireHere r k) := by
  unfold Dev.retireHere
  split
  · exact h
  · extract_lets d1
    have h1 : d0.Clocked d1 := .ite h.modFront h
    exact .ite h1.setPaneState.raise (.ite h1.setPaneState.clr h1)

theorem Clocked.chipPanes {swapped : Bool} : d0.Clocked (d.chipPanes swapped) := by
  unfold Dev.chipPanes
  extract_lets a freed pane d1 act gen d2 d3
  have h1 : d0.Clocked d1 := h.setFld.setFld
  have h3 : d0.Clocked d3 := h1.setFld.setFld.clr.modA
  exact .ite (h3.kept ((Kept.refl _ _).cevent (by decide))).post (.ite h1.post h1)

theorem Clocked.panes {r : Region} {k : Nat} : d0.Clocked (d.panes r k) := by
  unfold Dev.panes
  extract_lets swap d1
  have h1 : d0.Clocked d1 := .ite h.swapHere h.retireHere
  exact .ite h1.chipPanes h1

/-! #### Step 7: the mode -/

theorem Clocked.mailModeDone {status detail : Nat} {result : List Byte} : d0.Clocked (d.mailModeDone status detail result) :=
  h.kept ((Kept.refl _ d).mailModeDone (by decide))

theorem Clocked.decideMode {k : Nat} : d0.Clocked (d.decideMode k) := by
  unfold Dev.decideMode
  split
  · exact h
  · extract_lets waits a cause d1 d2
    have h2 : d0.Clocked d2 := h.modA.clr.clr
    clear_value cause
    refine .ite h ?_
    split
    · exact (h2.kept ((Kept.refl _ _).modeRejected (by decide))).mailModeDone
    · exact h2.setFld.setFld.modA.mailModeDone

theorem Clocked.noteRequest {r : Region} {kind i : Nat} : d0.Clocked (d.noteRequest r kind i) := h.kept ((Kept.refl _ d).noteRequest (by decide))

theorem Clocked.enterLean {r : Region} : d0.Clocked (d.enterLean r) := (h.each fun _ _ h => h.requestBlock.noteRequest).requestRate
theorem Clocked.leaveLean {r : Region} : d0.Clocked (d.leaveLean r) := (h.each fun _ _ h => h.requestBlock.noteRequest).requestRate

theorem Clocked.takeMode {r : Region} : d0.Clocked (d.takeMode r) := by
  unfold Dev.takeMode
  extract_lets was now d1 d2 d3
  have h2 : d0.Clocked d2 := h.modR.raise.modFront
  have h3 : d0.Clocked d3 := .ite h2.enterLean (.ite h2.leaveLean h2)
  exact .ite h h3.refreshBudgets

/-! #### Steps 9 and 10, and the anchor's part -/

theorem Clocked.ageSlot {r : Region} {k n : Nat} {t : TableDesc} {slot : Nat} : d0.Clocked (d.ageSlot r k n t slot) := by
  unfold Dev.ageSlot
  refine .ite h (.ite (.ite h.modTables ?_) (.ite h.stage h))
  dsimp only
  split
  next heq => exact (Clocked.of_fst heq h.stage).modTables
  next heq => exact Clocked.of_fst heq h.stage

theorem Clocked.sweep {r : Region} {k n table slot : Nat} : d0.Clocked (d.sweep r k n table slot).1 := by
  induction n generalizing d table slot with
  | zero => exact h
  | succ n ih =>
    unfold Dev.sweep
    split
    · exact h
    · exact ih h.ageSlot

theorem Clocked.aging {r : Region} {k : Nat} : d0.Clocked (d.aging r k) := by
  unfold Dev.aging
  extract_lets
  refine .ite h.modTables (.ite h ?_)
  split
  next heq =>
    have h := Clocked.of_fst heq h.sweep
    extract_lets d1
    have h1 : d0.Clocked d1 := .ite h.err h
    split
    · exact h1.modTables
    · exact h1.setFld.modTables

theorem Clocked.requestRepairs {r : Region} : d0.Clocked (d.requestRepairs r) := h.kept ((Kept.refl _ d).requestRepairs (by decide))
theorem Clocked.sendSeal {r : Region} {k : Nat} : d0.Clocked (d.sendSeal r k) := .ite h h.send.setFld

theorem Clocked.slewShutter : d0.Clocked d.slewShutter := .ite h.modA.setOn.clr h.modA
theorem Clocked.ppsOut {k : Nat} : d0.Clocked (d.ppsOut k) := .ite (h.kept ((Kept.refl _ d).emit (by decide))) h
theorem Clocked.noteConverged : d0.Clocked d.noteConverged := .ite h.modA.raise h.modA
theorem Clocked.anchorPart {k : Nat} : d0.Clocked (d.anchorPart k) := h.sendAll.flood.slewShutter.ppsOut.noteConverged

theorem Clocked.echoes {r : Region} {k : Nat} : d0.Clocked (d.echoes r k) := by
  unfold Dev.echoes
  refine .ite h (h.each fun _ _ h => ?_)
  split
  · exact .ite h.send h
  · exact h

theorem Clocked.drainEmpty {r : Region} : d0.Clocked (d.drainEmpty r) := .ite h.modFront.raise h

end

/-! ### The opening of a shutter (R85)

Without a fence that is due and without a rejoin, what the anchor does as a shutter opens leaves every region where it stands. -/

/-- The regions stand as they did: which are there, which are guests, and which are fenced. -/
structure Seated (d e : Dev) : Prop where
  anchor : e.anchor = d.anchor
  population : e.reg (CHP_POPULATION d.A) = d.reg (CHP_POPULATION d.A)
  members : e.fld (CHP_COMMIT_MEMBERS_fenced d.A) = d.fld (CHP_COMMIT_MEMBERS_fenced d.A)

theorem Seated.refl (d : Dev) : d.Seated d := ⟨rfl, rfl, rfl⟩

/-- The registers that do not say where a region stands. -/
def Elsewhere (A a : Nat) : Prop := a ≠ CHP_POPULATION A ∧ a ≠ CHP_COMMIT_MEMBERS A

theorem elsewhere_of_signalReg (d : Dev) (a : Nat) (h : signalReg a) : Elsewhere d.A a := by
  refine ⟨fun ha => d.not_signalReg_chp (x := 4) (by norm_num) (by norm_num) ?_, fun ha => d.not_signalReg_chp (x := 0x30020) (by norm_num) (by norm_num) ?_⟩
  · rw [ha] at h
    exact h
  · rw [ha] at h
    exact h

theorem elsewhere_rgnReg {A q x : Nat} (hx : x < 2 ^ 24) : Elsewhere A (rgnReg q x) :=
  ⟨(chpReg_ne_rgnReg (by norm_num) hx).symm, (chpReg_ne_rgnReg (by norm_num) hx).symm⟩

theorem elsewhere_blkReg {A q b x : Nat} (hx : x < 0x100000) : Elsewhere A (blkReg q b x) :=
  ⟨blkReg_ne_chpReg hx (by norm_num), blkReg_ne_chpReg hx (by norm_num)⟩

theorem elsewhere_chpReg {A x : Nat} (h4 : x ≠ 4) (hm : x ≠ 0x30020) : Elsewhere A (chpReg A x) := ⟨mt chpReg_inj.1 h4, mt chpReg_inj.1 hm⟩

/-- The snapshot registers of the chip's counters say nothing of where a region stands. -/
theorem elsewhere_snapshot {A i x : Nat} (hx : x = 0x14 ∨ x = 0x18) : Elsewhere A (CHP_MON_CFG A i + x) := by
  unfold Elsewhere CHP_MON_CFG CHP_POPULATION CHP_COMMIT_MEMBERS chpReg
  omega

section
variable {d0 d e : Dev}

theorem Seated.of_regsBut (ha : e.anchor = d.anchor) (h : d.RegsBut (Elsewhere d.A) e) : d.Seated e :=
  ⟨ha, h _ fun k => k.1 rfl, h.fld fun k => k.2 rfl⟩

theorem Seated.A (h : d.Seated e) : e.A = d.A := congrArg Fin.val h.anchor

theorem Seated.trans (h : d0.Seated d) (k : d.Seated e) : d0.Seated e := by
  obtain ⟨ka, kp, km⟩ := k
  rw [h.A] at kp km
  exact ⟨ka.trans h.anchor, kp.trans h.population, km.trans h.members⟩

theorem Seated.fenced_eq (h : d.Seated e) (q : Nat) : e.fenced q = d.fenced q := by
  unfold Dev.fenced
  rw [h.A, h.members]

theorem Seated.guest_eq (h : d.Seated e) (q : Nat) : e.guest q = d.guest q := by
  unfold Dev.guest
  rw [h.A]
  exact congrArg (bitOf · q) (fld_congr _ h.population)

variable (h : d0.Seated d)
include h

theorem Seated.ite {c : Prop} [Decidable c] (k : d0.Seated e) : d0.Seated (if c then d else e) := by
  split_ifs
  · exact h
  · exact k

theorem Seated.each {α : Type} {f : α → Dev → Dev} {l : List α} (hf : ∀ a (e : Dev), d0.Seated e → d0.Seated (f a e)) :
    d0.Seated (d.each l f) := by
  unfold Dev.each
  induction l generalizing d with
  | nil => exact h
  | cons a t ih => exact ih (hf a d h)

/-- What leaves the anchor and the registers alone. -/
theorem Seated.kept {l : List Part} (k : d.Kept l e) (hl : ∀ p ∈ [Part.anchor, .regs], p ∉ l := by decide) : d0.Seated e :=
  h.trans (.of_regsBut (k.1 .anchor (hl _ (by decide))) (.of_regs (k.1 .regs (hl _ (by decide)))))

theorem Seated.setReg {a : Nat} {w : Word} (ha : Elsewhere d0.A a) : d0.Seated (d.setReg a w) := by
  rw [← h.A] at ha
  exact h.trans (.of_regsBut rfl ((RegsBut.refl _ d).setReg ha))

theorem Seated.setChp {x lo width v : Nat} (h4 : x ≠ 4) (hm : x ≠ 0x30020) : d0.Seated (d.setFld ⟨chpReg d0.A x, lo, width⟩ v) :=
  h.setReg (elsewhere_chpReg h4 hm)

theorem Seated.setRgn {q x lo width v : Nat} (hx : x < 2 ^ 24) : d0.Seated (d.setFld ⟨rgnReg q x, lo, width⟩ v) :=
  h.setReg (elsewhere_rgnReg hx)

/-- The members that commit stand beside those that are fenced. -/
theorem Seated.setCommitting {v : Nat} : d0.Seated (d.setFld (CHP_COMMIT_MEMBERS_committing d0.A) v) := by
  rw [← h.A]
  refine h.trans ⟨anchor_setFld .., reg_setFld_ne _ _ _ _ (mt chpReg_inj.1 (by norm_num)), ?_⟩
  exact fld_setFld_beside _ _ _ _ (by simp [CHP_COMMIT_MEMBERS_committing]) (by simp [CHP_COMMIT_MEMBERS_committing, CHP_COMMIT_MEMBERS_fenced])

theorem Seated.modA {f : AnchorState → AnchorState} : d0.Seated (d.modA f) := h.kept ((Kept.refl [.anchorSt] d).modA fun _ => id)
theorem Seated.modCommit {r : Region} {f : CommitState → CommitState} : d0.Seated (d.modCommit r f) :=
  h.kept ((Kept.refl [.commit] d).modCommit fun _ => id)

theorem Seated.raise {r : Region} {n : Nat} : d0.Seated (d.raise r n) :=
  h.trans (.of_regsBut (signalled_raise ..).anchor ((RegsBut.refl _ d).signalled (signalled_raise ..) d.elsewhere_of_signalReg))

theorem Seated.refreshBudgets {r : Region} : d0.Seated (d.refreshBudgets r) :=
  h.each fun _ _ h => (h.setReg (elsewhere_blkReg (by norm_num))).setReg (elsewhere_blkReg (by norm_num))

theorem Seated.snapOne {i : Nat} : d0.Seated (d.snapOne (CHP_MON_CFG d0.A i)) :=
  (h.setReg (elsewhere_snapshot (.inl rfl))).setReg (elsewhere_snapshot (.inr rfl))

theorem Seated.setChpReg {x : Nat} {w : Word} (h4 : x ≠ 4) (hm : x ≠ 0x30020) : d0.Seated (d.setReg (chpReg d0.A x) w) :=
  h.setReg (elsewhere_chpReg h4 hm)

theorem Seated.setPtpBase {t : Nat} {ns : Int} : d0.Seated (d.setPtpBase t ns) := by
  have ha := h.A
  unfold Dev.setPtpBase
  extract_lets n a d1 d2
  change a = d0.A at ha
  have h1 : d0.Seated d1 := h.modA
  clear_value d1 a
  subst ha
  have h2 : d0.Seated d2 :=
    ((h1.setChpReg (by norm_num) (by norm_num)).setChpReg (by norm_num) (by norm_num)).setChp (by norm_num) (by norm_num)
  clear_value d2
  exact ((h2.setChpReg (by norm_num) (by norm_num)).setChpReg (by norm_num) (by norm_num)).setChp (by norm_num) (by norm_num)

end

section
variable {d : Dev} {k : Nat}

theorem seated_openSnapshot : d.Seated (d.openSnapshot k) := by
  unfold openSnapshot
  extract_lets a late d1 l d2
  have h1 : d.Seated d1 := (Seated.refl d).modA.each fun _ _ h => (h.setChp (by norm_num) (by norm_num)).raise
  have h2 : d.Seated d2 := h1.each fun _ _ h => h.snapOne
  exact .ite (((h2.setChp (by norm_num) (by norm_num)).setChp (by norm_num) (by norm_num)).setChp (by norm_num) (by norm_num)).modA h1

theorem seated_openTime : d.Seated (d.openTime k) := by
  unfold openTime
  extract_lets a valid d1
  have h1 : d.Seated d1 := by
    unfold d1
    split
    · exact ((((Seated.refl d).setPtpBase.setChp (by norm_num) (by norm_num)).setChp (by norm_num) (by norm_num)).modA).each
        fun _ _ h => h.refreshBudgets
    · exact .refl d
  split
  · exact .ite h1.modA.setPtpBase h1
  · exact h1

theorem Seated.openTime {e : Dev} (h : d.Seated e) : d.Seated (e.openTime k) := h.trans seated_openTime

theorem Seated.openRoles {e : Dev} (h : d.Seated e) : d.Seated (e.openRoles k) := by
  unfold Dev.openRoles
  refine h.modA.each fun x f h => ?_
  rw [h.A]
  exact h.setCommitting.modCommit

theorem Seated.clearMissed {e : Dev} (h : d.Seated e) : d.Seated e.clearMissed := .ite h (h.setRgn (by norm_num))

theorem Seated.wakeSuccessor {e : Dev} (h : d.Seated e) : d.Seated e.wakeSuccessor := by
  unfold Dev.wakeSuccessor
  split
  · exact .ite ((h.setRgn (by norm_num)).kept ((Kept.refl [.thody, .ledger] _).noteRequest fun _ => id)) h
  · exact h

theorem Seated.chooseStandby {e : Dev} (h : d.Seated e) : d.Seated e.chooseStandby := by
  unfold Dev.chooseStandby
  rw [h.A]
  split
  · exact h.clearMissed.setChp (by norm_num) (by norm_num)
  · exact (h.clearMissed.setChp (by norm_num) (by norm_num)).wakeSuccessor

theorem openSnapshot_kept : d.Kept [.regs, .wire, .ctxs, .anchorSt] (d.openSnapshot k) := by
  have hs (a : Nat) (e : Dev) : e.Kept [.regs, .wire, .ctxs, .anchorSt] (e.snapOne a) :=
    ((Kept.refl _ e).setReg (by decide)).setReg (by decide)
  unfold openSnapshot
  extract_lets a late d1 l d2
  have h1 : d.Kept [.regs, .wire, .ctxs, .anchorSt] d1 :=
    ((Kept.refl _ d).modA (by decide)).each fun _ e => ((Kept.refl _ e).setFld (by decide)).raise (by decide)
  have h2 : d.Kept [.regs, .wire, .ctxs, .anchorSt] d2 := h1.each fun _ e => hs _ e
  exact .ite ((((h2.clr (by decide)).clr (by decide)).clr (by decide)).modA (by decide)) h1

/-- A snapshot does not touch a rejoin. -/
theorem rejoin_openSnapshot : (d.openSnapshot k).anchorSt.rejoin = d.anchorSt.rejoin := by
  unfold openSnapshot
  extract_lets a late d1 l d2
  have h1 : d1.anchorSt.rejoin = d.anchorSt.rejoin := by
    have hk := (Kept.refl [.regs, .wire, .ctxs] (d.modA fun x => { x with snapWaits := [] })).each (l := late)
      (f := fun q e => (e.setFld (CHP_MON_SNAP_STAT_missed a) (withBit (e.fld (CHP_MON_SNAP_STAT_missed a)) q true)).raise e.anchor 0x78)
      fun _ e => ((Kept.refl _ e).setFld (by decide)).raise (by decide)
    have hr : d1.anchorSt.rejoin = (d.modA fun x => { x with snapWaits := [] }).anchorSt.rejoin :=
      congrArg AnchorState.rejoin (hk.1 .anchorSt (by decide))
    rw [hr, anchorSt_modA]
  have h2 : d2.anchorSt = d1.anchorSt := ((Kept.refl [.regs] d1).each fun _ e => ((Kept.refl _ e).setReg (by decide)).setReg (by decide)).1
    .anchorSt (by decide)
  split_ifs
  · rw [anchorSt_modA, clr_eq, clr_eq, clr_eq, anchorSt_setFld, anchorSt_setFld, anchorSt_setFld]
    exact (congrArg AnchorState.rejoin h2).trans h1
  · exact h1

/-- Where no fence is due, none takes effect. -/
theorem openFences_eq (h : ∀ q, (d.g q).commit.fenceDue = 0) : d.openFences = d := by
  have hn : ((List.finRange 8).filter fun q => (d.g q).commit.fenceDue != 0) = [] := List.filter_eq_nil_iff.2 fun q _ => by simp [h q]
  unfold openFences
  rw [hn]
  rfl

/-- Where no region rejoins, no rejoin goes on. -/
theorem openRejoin_eq (h : d.anchorSt.rejoin = none) : d.openRejoin k = d := by
  unfold openRejoin
  rw [h]

theorem Clocked.openSnapshot {d0 : Dev} (h : d0.Clocked d) : d0.Clocked (d.openSnapshot k) := h.kept (openSnapshot_kept.mono (by decide))

theorem Clocked.openTime {d0 : Dev} (h : d0.Clocked d) : d0.Clocked (d.openTime k) := by
  have hp {e : Dev} (h : d0.Clocked e) {t : Nat} {ns : Int} : d0.Clocked (e.setPtpBase t ns) := h.kept ((Kept.refl _ e).setPtpBase (by decide))
  unfold Dev.openTime
  extract_lets a valid d1
  have h1 : d0.Clocked d1 := by
    unfold d1
    split
    · exact (hp h).setFld.setFld.modA.each fun _ _ h => h.refreshBudgets
    · exact h
  split
  · exact .ite (hp h1.modA) h1
  · exact h1

theorem Clocked.openRoles {d0 : Dev} (h : d0.Clocked d) : d0.Clocked (d.openRoles k) := h.modA.each fun _ _ h => h.setFld.modCommit

theorem Clocked.chooseStandby {d0 : Dev} (h : d0.Clocked d) : d0.Clocked d.chooseStandby := by
  have hc : d0.Clocked d.clearMissed := .ite h h.clr
  unfold Dev.chooseStandby
  split
  · exact hc.setFld
  · exact hc.setFld.kept ((Kept.refl _ _).wakeSuccessor (by decide))

variable (hf : ∀ q, (d.g q).commit.fenceDue = 0) (hr : d.anchorSt.rejoin = none)
include hf hr

/-- A shutter opens with the snapshot alone where no fence is due and no region rejoins. -/
theorem opened_eq : ((d.openSnapshot k).openFences).openRejoin k = d.openSnapshot k := by
  have hs (q : Region) : ((d.openSnapshot k).g q).commit.fenceDue = 0 := by
    rw [openSnapshot_kept.1 .commit (by decide) q]
    exact hf q
  rw [openFences_eq hs, openRejoin_eq (rejoin_openSnapshot.trans hr)]

theorem seated_openShutter : d.Seated (d.openShutter k) := by
  unfold openShutter
  extract_lets d1 d2 d3
  have h1 : d.Seated d1 := (Seated.refl d).modA
  have h3 : d.Seated d3 := by
    have h2 : d.Seated d2 := by
      unfold d2
      rw [opened_eq (d := d1) hf hr]
      exact (h1.trans seated_openSnapshot).openTime.openRoles
    exact .ite h2.chooseStandby h2
  refine .ite (.refl d) (.ite h1.modA ?_)
  split
  · exact .ite h3.modA h3
  · exact h3

theorem clocked_openShutter : d.Clocked (d.openShutter k) := by
  unfold openShutter
  extract_lets d1 d2 d3
  have h1 : d.Clocked d1 := (Clocked.refl d).modA
  have h3 : d.Clocked d3 := by
    have h2 : d.Clocked d2 := by
      unfold d2
      rw [opened_eq (d := d1) hf hr]
      exact h1.openSnapshot.openTime.openRoles
    exact .ite h2.chooseStandby h2
  refine .ite (.refl d) (.ite h1.modA ?_)
  split
  · exact .ite h3.modA h3
  · exact h3

end

/-! ### The count moves on in step 1 (R84, R96) -/

section
variable (d : Dev) (r q : Region) (k : Nat)

theorem tick_commitTick : ((d.commitTick r k).g q).tick = if q = r then k else (d.g q).tick := by
  unfold commitTick
  rw [tick_modCommit, g_modR]
  split_ifs <;> rfl

theorem started_commitTick : ((d.commitTick r k).g r).commit.started = true := by
  unfold commitTick
  rw [commit_modCommit_same]

theorem anchor_commitTick : (d.commitTick r k).anchor = d.anchor := (rfl)

/-- What else step 1 does leaves the new count. -/
theorem clocked_nextTick : (d.commitTick r k).Clocked (d.nextTick r k) := by
  unfold nextTick
  extract_lets d1 d2 d3 d4
  have h3 : (d.commitTick r k).Clocked d3 := (Clocked.refl _).clr.modEgress.spareSlots.modFront
  have h4 : (d.commitTick r k).Clocked d4 := h3.refillLearn.kept ((Kept.refl _ _).fillBuckets (by decide))
  split
  · exact h4.kept ((Kept.refl _ _).modEp (by decide))
  · exact h4

/-- What a region does at its shutter before the count moves on. -/
def beforeTick (d : Dev) (r : Region) (k : Nat) : Dev := (((d.tickMonitors r).snapRegion r k).shutterEvent r).rejoinSteps r k

theorem clocked_beforeTick : d.Clocked (d.beforeTick r k) := (Clocked.refl d).tickMonitors.snapRegion.shutterEvent.rejoinSteps

/-- After the count has moved on, nothing in a shutter moves it. -/
theorem clocked_shutterOf : ((d.beforeTick r k).commitTick r k).Clocked (d.shutterOf r k) := by
  unfold shutterOf
  extract_lets d1 d2 d3 d4 d5 d6 d7 d8 d9 d10 d11 d12
  have h2 : ((d.beforeTick r k).commitTick r k).Clocked d2 := clocked_nextTick ..
  have h6 : ((d.beforeTick r k).commitTick r k).Clocked d6 := h2.holdover.endWindows.releases.showCommits.applyLocal.applyRecons.reports
  have h7 : ((d.beforeTick r k).commitTick r k).Clocked d7 := .ite h6.panes h6
  have h11 : ((d.beforeTick r k).commitTick r k).Clocked d11 := h7.takeUnits.decideMode.takeMode.aging.requestRepairs.sendSeal
  have h12 : ((d.beforeTick r k).commitTick r k).Clocked d12 := .ite h11.anchorPart h11
  exact h12.echoes.drainEmpty

/-- A region leaves its shutter in the part's mode. -/
theorem mode_shutterOf : ((d.shutterOf r k).g r).mode = (d.shutterOf r k).mode := by
  unfold shutterOf
  extract_lets d1 d2 d3 d4 d5 d6 d7 d8 d9 d10 d11 d12
  have h11 : d9.Steady d11 := (Steady.refl d9).aging.requestRepairs.sendSeal
  have h12 : d9.Steady ((d12.echoes r k).drainEmpty r) := (Steady.ite h11.anchorPart h11).echoes.drainEmpty
  rw [h12.mode, h12.mode_eq]
  exact mode_takeMode ..

end

/-- At a region's shutter its count becomes the new one, and it has had a shutter. -/
theorem tick_shutterOf (d : Dev) (r q : Region) (k : Nat) : ((d.shutterOf r k).g q).tick = if q = r then k else (d.g q).tick := by
  rw [(d.clocked_shutterOf r k).tick, tick_commitTick, (d.clocked_beforeTick r k).tick]

theorem started_shutterOf (d : Dev) (r : Region) (k : Nat) : ((d.shutterOf r k).g r).commit.started = true := by
  rw [(d.clocked_shutterOf r k).started, started_commitTick]

theorem anchor_shutterOf (d : Dev) (r : Region) (k : Nat) : (d.shutterOf r k).anchor = d.anchor := by
  rw [(d.clocked_shutterOf r k).anchor, anchor_commitTick, (d.clocked_beforeTick r k).anchor]

end Dev

/-- The part after a region's shutter with nothing due for it: the shutter opens, and the ten steps follow. -/
def Dev.afterShutter (d : Dev) (r : Region) : Dev := (d.openShutter (d.nextShutter r)).shutterOf r (d.nextShutter r)

section
variable {r : Region} {s : State} (hp : s.dev.chip.phase = 0) (hm : s.dev.mladus r.val = true) (hf : s.dev.fenced r.val = false)
  (ht : s.dev.takesOver r = false) (hd : ∀ q, (s.dev.g q).commit.fenceDue = 0) (hr : s.dev.anchorSt.rejoin = none)

section
include hp hm hf ht hd hr

/-- The shutter of a Mladus region that is in force is carried out. -/
theorem exec_shutter : exec (.shutter r) s = .next { s with dev := (s.dev.afterShutter r).withFree (s.dev.free + 1) } := by
  have hs := Dev.seated_openShutter (k := s.dev.nextShutter r) hd hr
  obtain ⟨hpr, hg⟩ := Dev.mladus_iff.1 hm
  have hx : exec (.shutter r) s = execShutter r s := rfl
  refine hx.trans (State.doing_next ((if_neg ?_).trans ?_))
  · simp [hp, hpr, hf]
  · dsimp only
    rw [ht, if_neg Bool.false_ne_true, hs.fenced_eq, hf, if_neg Bool.false_ne_true, hs.guest_eq, hg, if_neg Bool.false_ne_true]
    rfl

end

section
include hd hr

theorem tick_afterShutter (q : Region) : ((s.dev.afterShutter r).g q).tick = if q = r then s.dev.nextShutter r else (s.dev.g q).tick := by
  rw [Dev.afterShutter, Dev.tick_shutterOf, (Dev.clocked_openShutter hd hr).tick]

theorem anchor_afterShutter : (s.dev.afterShutter r).anchor = s.dev.anchor := by
  rw [Dev.afterShutter, Dev.anchor_shutterOf, (Dev.clocked_openShutter hd hr).anchor]

end

include hp hm hf ht hd hr

/-- A region that counts goes on by one. -/
theorem shutter_advances (hs : (s.dev.g r).commit.started = true) : ∃ t, exec (.shutter r) s = .next t ∧ t.pending = s.pending
    ∧ (t.dev.g r).tick = ((s.dev.g r).tick + 1) % 2 ^ 48 ∧ (t.dev.g r).mode = t.dev.mode ∧ t.dev.anchor = s.dev.anchor
    ∧ ∀ q, q ≠ r → (t.dev.g q).tick = (s.dev.g q).tick := by
  refine ⟨_, exec_shutter hp hm hf ht hd hr, rfl, ?_⟩
  simp only [Dev.g_withFree, Dev.mode_withFree, Dev.anchor_withFree, tick_afterShutter hd hr, anchor_afterShutter hd hr, if_true, true_and]
  exact ⟨if_pos hs, Dev.mode_shutterOf .., fun q hq => if_neg hq⟩

/-- At its first shutter a region counts zero. -/
theorem shutter_begins (hs : (s.dev.g r).commit.started = false) : ∃ t, exec (.shutter r) s = .next t ∧ t.pending = s.pending
    ∧ (t.dev.g r).tick = 0 ∧ (t.dev.g r).commit.started = true ∧ (t.dev.g r).mode = t.dev.mode
    ∧ ∀ q, q ≠ r → (t.dev.g q).tick = (s.dev.g q).tick := by
  refine ⟨_, exec_shutter hp hm hf ht hd hr, rfl, ?_⟩
  simp only [Dev.g_withFree, Dev.mode_withFree, tick_afterShutter hd hr, if_true]
  exact ⟨if_neg (ne_true_of_eq_false hs), Dev.started_shutterOf .., Dev.mode_shutterOf .., fun q hq => if_neg hq⟩

end

/-- Settles O28: only step 1 moves a count, and nothing after step 7 writes a mode. -/
theorem shuttersAdvanceTheTick : Obligations.ShuttersAdvanceTheTick :=
  ⟨fun _ _ => shutter_advances, fun _ _ => shutter_begins⟩

end Sys2Proof.Machine

namespace Sys2Proof.Machine
namespace Dev

/-! ### Operations that take nothing off the lines

What an event or an entry of the journal does to the part's lines is to append to them. -/

/-- An operation that takes nothing off the lines. -/
def Puts (d e : Dev) : Prop := d.line <+: e.line

theorem Puts.refl (d : Dev) : d.Puts d := List.prefix_refl _

section
variable {d0 d e : Dev}

/-- An operation that leaves the lines alone. -/
theorem Puts.of_kept {l : List Part} (k : d.Kept l e) (hl : Part.line ∉ l) : d.Puts e := by
  rw [Puts, k.1 .line hl]

variable (h : d0.Puts d)
include h

theorem Puts.trans (k : d.Puts e) : d0.Puts e := List.IsPrefix.trans h k
theorem Puts.mem {x : LineOut} (hx : x ∈ d0.line) : x ∈ d.line := h.subset hx
theorem Puts.kept {l : List Part} (k : d.Kept l e) (hl : Part.line ∉ l := by decide) : d0.Puts e := h.trans (.of_kept k hl)
theorem Puts.setFld {f : Fld} {v : Nat} : d0.Puts (d.setFld f v) := h.kept (setFld_kept ..)
theorem Puts.modEp {e : Endpoint} {f : EndpointState → EndpointState} : d0.Puts (d.modEp e f) := h
theorem Puts.emit {o : LineOut} : d0.Puts (d.emit o) := h.trans (List.prefix_append ..)

theorem Puts.ite {c : Prop} [Decidable c] (k : d0.Puts e) : d0.Puts (if c then d else e) := by
  split_ifs
  · exact h
  · exact k

theorem Puts.msix {e : Endpoint} {v : Nat} : d0.Puts (d.msix e v) := .ite h.modEp (h.trans (List.prefix_append ..))

theorem Puts.eventWrite {e : Endpoint} {ring : EventRing} {code region word tick : Nat} {detail : List Byte} :
    d0.Puts (d.eventWrite e ring code region word tick detail) := by
  unfold Dev.eventWrite
  have hw {a v : Nat} {l : List Byte} : d0.Puts ((d.setBytes a l).setFld (HST_EV_STAT_pi e.val) v) := (h.kept (setBytes_kept ..)).setFld
  exact .ite hw hw.modEp.msix

theorem Puts.postTo {e : Endpoint} {code region word : Nat} {detail : List Byte} : d0.Puts (d.postTo e code region word detail) := by
  unfold Dev.postTo
  split
  · exact h
  · have hl {c : Prop} [Decidable c] {ring : EventRing} {k : Nat} {b : List Byte} {f : EndpointState → EndpointState} :
        d0.Puts (if c then (d.eventWrite e ring 0x000A 0xFF 0 k b).modEp e f else d) := .ite h.eventWrite.modEp h
    exact .ite hl.eventWrite (hl.kept ((Kept.refl _ _).eventLost fun _ => id))

theorem Puts.post {code region word : Nat} {detail : List Byte} : d0.Puts (d.post code region word detail) := h.postTo.postTo

theorem Puts.journalAs {r : Region} {code level origin unit : Nat} {detail : List Byte} : d0.Puts (d.journalAs r code level origin unit detail) := by
  unfold Dev.journalAs Dev.jnlWrite
  have hw {a v : Nat} {l : List Byte} : d0.Puts ((d.setBytes a l).setFld (RGN_JNL_HEAD_number r.val) v) := (h.kept (setBytes_kept ..)).setFld
  have hj {f : JournalState → JournalState} {e : Dev} (k : d0.Puts e) : d0.Puts (e.modJnl r f) := k
  exact .ite (hj (Puts.ite (hj hw).setFld.setFld (hj hw)).post) (hj h.setFld)

end

/-! ### What operations on chains can do (R565–R574, R592)

Every operation on a chain, from an allocation to a free that follows the links of shared chains, changes the pool and what reports on it:
of the egress side it changes only what is noted of the pause frames sent, it takes nothing off the lines, and it writes no register
outside `poolReg`. -/

/-- The registers that operations on chains write: those of the pool, of the pause frames that a port sent and of the errors of the
queues, of the journal and of the events that it posts, and those of interrupts and monitors. -/
def poolReg (a : Nat) : Prop :=
  signalReg a ∨ 2 ^ 48 ≤ a ∨ 0x90000100000 ≤ a % 2 ^ 44 ∧ a % 2 ^ 44 < 0x90000200000
    ∨ 0x90000511000 ≤ a % 2 ^ 44 ∧ a % 2 ^ 44 < 0x90000513000 ∨ 0x90000D00000 ≤ a % 2 ^ 44 ∧ a % 2 ^ 44 < 0x90000E00000
    ∨ 0xF0000050000 ≤ a % 2 ^ 44 ∧ a % 2 ^ 44 < 0xF0000060000

theorem poolReg_rgnReg {r x : Nat} (hr : r < 8) (hx : x < 2 ^ 24) : poolReg (rgnReg r x) ↔
    x < 0x200000 ∨ 0x511000 ≤ x ∧ x < 0x513000 ∨ 0x900000 ≤ x ∧ x < 0xA00000 ∨ 0xD00000 ≤ x ∧ x < 0xE00000 := by
  unfold poolReg
  rw [signalReg_rgnReg hr hx]
  unfold rgnReg
  omega

theorem poolReg_of_signalReg (a : Nat) (h : signalReg a) : poolReg a := .inl h

theorem poolReg_of_mem_journalRegs (d : Dev) (r : Region) : ∀ a ∈ journalRegs r.val d.A, poolReg a := by
  have := r.isLt
  have := d.A_lt
  simp only [journalRegs, eventRegs, RGN_JNL_HEAD, RGN_JNL_STAT, CHP_FAULT_CTL, HST_EV_STAT, List.forall_mem_cons, List.not_mem_nil,
    IsEmpty.forall_iff, implies_true, and_true, rgnReg, chpReg, hstReg, poolReg]
  omega

/-- The parts of the state that operations on chains can change. -/
def poolParts : List Part := [.regs, .mem, .wire, .line, .ctxs, .endpoints, .pool, .egress, .journal]

/-- What operations on chains can do at most. -/
structure Pooled (d e : Dev) : Prop where
  parts : d.OnlyIn poolParts e
  regs : d.RegsBut poolReg e
  egress : ∀ q, (e.g q).egress = { (d.g q).egress with pause := (e.g q).egress.pause }
  line : d.Puts e

theorem Pooled.refl (d : Dev) : d.Pooled d := ⟨.refl _ _, .refl _ _, fun _ => rfl, .refl _⟩

section
variable {d0 d e : Dev}

theorem Pooled.of_kept {l : List Part} (k : d.Kept l e) (hs : ∀ p ∈ l, p ∈ poolParts) (hn : ∀ p ∈ [Part.regs, .egress, .line], p ∉ l) :
    d.Pooled e :=
  ⟨k.1.mono hs, .of_regs (k.1 .regs (hn _ (by decide))), fun q => by rw [k.1 .egress (hn _ (by decide)) q], .of_kept k (hn _ (by decide))⟩

variable (h : d0.Pooled d)
include h

theorem Pooled.trans (k : d.Pooled e) : d0.Pooled e :=
  ⟨h.parts.trans k.parts, h.regs.trans k.regs, fun q => by rw [k.egress q, h.egress q], h.line.trans k.line⟩

theorem Pooled.kept {l : List Part} (k : d.Kept l e) (hs : ∀ p ∈ l, p ∈ poolParts := by decide)
    (hn : ∀ p ∈ [Part.regs, .egress, .line], p ∉ l := by decide) : d0.Pooled e := h.trans (.of_kept k hs hn)

theorem Pooled.setReg {a : Nat} {w : Word} (ha : poolReg a) : d0.Pooled (d.setReg a w) :=
  h.trans ⟨(setReg_kept ..).1.mono (by decide), regsBut_setReg _ _ _ ha, fun _ => rfl, .of_kept (setReg_kept ..) (by decide)⟩

/-- A register of the pool, of sub-block 1 of its region. -/
theorem Pooled.setRgn {r : Region} {x lo width v : Nat} (hx : x < 0x200000) : d0.Pooled (d.setFld ⟨rgnReg r.val x, lo, width⟩ v) :=
  h.setReg ((poolReg_rgnReg r.isLt (by omega)).2 (.inl hx))

theorem Pooled.signalled (k : d.Signalled e) : d0.Pooled e :=
  h.trans ⟨k.1.mono (by decide), k.2.mono poolReg_of_signalReg, fun q => by rw [k.1 .egress (by decide) q],
    by rw [Puts, k.line]⟩

theorem Pooled.event {r : Region} {sel qual n : Nat} : d0.Pooled (d.event r sel qual n) := h.signalled (signalled_event ..)
theorem Pooled.raise {r : Region} {n : Nat} : d0.Pooled (d.raise r n) := h.signalled (signalled_raise ..)
theorem Pooled.modPool {r : Region} {f : PoolState → PoolState} : d0.Pooled (d.modPool r f) := h.kept ((Kept.refl _ d).modPool fun _ => id)
theorem Pooled.setDesc {x : Nat} {s : StitchDesc} : d0.Pooled (d.setDesc x s) := h.kept ((Kept.refl _ d).setDesc fun _ => id)
theorem Pooled.popList {r : Region} {pool k : Nat} : d0.Pooled (d.popList r pool k) := h.kept ((Kept.refl _ d).popList fun _ => id)
theorem Pooled.pushList {r : Region} {pool i : Nat} : d0.Pooled (d.pushList r pool i) := h.kept ((Kept.refl _ d).pushList fun _ => id)
theorem Pooled.linkChain {r : Region} {l cls : Nat} {pools : List (Nat × Nat)} {sizes : List Nat} : d0.Pooled (d.linkChain r l cls pools sizes) :=
  h.kept ((Kept.refl _ d).linkChain fun _ => id)
theorem Pooled.writeChain {l : List Nat} {b : List Byte} : d0.Pooled (d.writeChain l b) := h.kept ((Kept.refl _ d).writeChain fun _ => id)

theorem Pooled.ite {c : Prop} [Decidable c] (k : d0.Pooled e) : d0.Pooled (if c then d else e) := by
  split_ifs
  · exact h
  · exact k

theorem Pooled.ite_fst {α : Type} {c : Prop} [Decidable c] {x : α} {y : Dev × α} (k : d0.Pooled y.1) : d0.Pooled (if c then (d, x) else y).1 := by
  split_ifs
  · exact h
  · exact k

theorem Pooled.foldl {α : Type} {f : Dev → α → Dev} {l : List α} (hf : ∀ (e : Dev) a, d0.Pooled e → d0.Pooled (f e a)) :
    d0.Pooled (l.foldl f d) := by
  induction l generalizing d with
  | nil => exact h
  | cons a t ih => exact ih (hf d a h)

theorem Pooled.setPause {r : Region} {p cls : Nat} {s : PauseState} : d0.Pooled (d.setPause r p cls s) := by
  refine h.trans ⟨((Kept.refl [.egress] d).setPause fun _ => id).1.mono (by decide), .of_regs rfl, fun q => ?_, .refl d⟩
  rw [Dev.setPause, Dev.modEgress, g_modR]
  split_ifs with hq
  · rw [hq]
  · rfl

theorem Pooled.emit {o : LineOut} : d0.Pooled (d.emit o) :=
  h.trans ⟨((Kept.refl [.line] d).emit fun _ => id).1.mono (by decide), .of_regs rfl, fun _ => rfl, (Puts.refl d).emit⟩

theorem Pooled.journalRegion {r : Region} {code : Nat} {detail : List Byte} : d0.Pooled (d.journalRegion r code detail) := by
  have k : d.Kept [.regs, .mem, .line, .endpoints, .journal] (d.journalRegion r code detail) := (Kept.refl _ d).journalRegion fun _ => id
  exact h.trans ⟨k.1.mono (by decide), (RegsBut.refl _ d).journalAs (poolReg_of_mem_journalRegs d r),
    fun q => by rw [k.1 .egress (by decide) q], (Puts.refl d).journalAs⟩

/-! ### Single operations -/

theorem Pooled.setPoolFree {r : Region} {pool n : Nat} : d0.Pooled (d.setPoolFree r pool n) := by
  unfold Dev.setPoolFree
  have hs : d0.Pooled (d.setFld (RGN_BPM_FREE_onchip_free r.val) n) := h.setRgn (by norm_num)
  exact .ite (.ite hs.raise hs) (h.setRgn (by norm_num))

/-- Only the requesters that have a quota are charged, and their registers lie in the pool's sub-block (R572, R601). -/
theorem Pooled.charge {r : Region} {l : Nat} {f : Nat → Nat} : d0.Pooled (d.charge r l f) := by
  unfold Dev.charge
  split_ifs with hl
  · refine h.setRgn ?_
    simp only [hasQuota, Bool.or_eq_true, decide_eq_true_eq, beq_iff_eq] at hl
    omega
  · exact h

theorem Pooled.abuse {r : Region} {kind requester x : Nat} : d0.Pooled (d.abuse r kind requester x) := by
  unfold Dev.abuse
  have hr {y : Nat} (hy : y < 0x200000) : poolReg (rgnReg r.val y) := (poolReg_rgnReg r.isLt (by omega)).2 (.inl hy)
  have h1 {v w : Word} : d0.Pooled ((d.setReg (RGN_BPM_ABUSE_LO r.val) v).setReg (RGN_BPM_ABUSE_HI r.val) w) :=
    (h.setReg (hr (by norm_num))).setReg (hr (by norm_num))
  have h2 {f : Fld} {v w : Word} (hf : f.addr = RGN_BPM_ABUSE_CNT r.val) :
      d0.Pooled (((d.setReg (RGN_BPM_ABUSE_LO r.val) v).setReg (RGN_BPM_ABUSE_HI r.val) w).addSat f 1) := h1.setReg (hf ▸ hr (by norm_num))
  refine (Pooled.setRgn (h2 ?_) (by norm_num)).event.raise.journalRegion
  split <;> rfl

theorem Pooled.pfcCheck {r : Region} {p cls : Nat} (hp : p < 8) : d0.Pooled (d.pfcCheck r p cls) := by
  unfold Dev.pfcCheck
  have hs {s : PauseState} {v : Nat} : d0.Pooled ((d.setPause r p cls s).setFld (RGN_EP_STAT_sent r.val p) v) :=
    h.setPause.setReg ((poolReg_rgnReg r.isLt (by omega)).2 (.inr (.inl (by omega))))
  exact .ite hs.emit (.ite hs.emit h)

/-! ### Allocation (R563, R565, R574) -/

theorem Pooled.setCache {r : Region} {l pool : Nat} {c : List Nat} (hl : l < 256) : d0.Pooled (d.setCache r l pool c) :=
  h.modPool.setRgn (by omega)

theorem Pooled.refillOne {r : Region} {l pool start : Nat} (hl : l < 256) : d0.Pooled (d.refillOne r l pool start) := by
  unfold Dev.refillOne
  refine .ite ?_ h
  split
  · split
    · exact h.popList.setCache hl
    · exact h
  · exact h

theorem Pooled.refill {r : Region} {l pool n : Nat} (hl : l < 256) : d0.Pooled (d.refill r l pool n) :=
  h.foldl fun _ _ h => h.refillOne hl

theorem Pooled.takeStitches {r : Region} {l pool n : Nat} {x : List Nat} (hl : l < 256) (he : d.takeStitches r l pool n = some (e, x)) :
    d0.Pooled e := by
  unfold Dev.takeStitches at he
  dsimp only at he
  split at he
  · cases he
  · cases he
    exact ((h.refill hl).setCache hl).setPoolFree

theorem Pooled.alloc {r : Region} {l pool cls : Nat} {sizes : List Nat} (hl : l < 256) : d0.Pooled (d.alloc r l pool cls sizes).1 := by
  unfold Dev.alloc
  refine .ite_fst h ?_
  split
  · exact h
  next hx => exact ((h.takeStitches hl hx).charge.linkChain).event

/-! ### References, owners and frees (R565, R568, R580) -/

theorem Pooled.freeWalk {r : Region} {issuer : Nat} {l : List Nat} : d0.Pooled (d.freeWalk r issuer l).1 := by
  induction l generalizing d with
  | nil => exact h
  | cons x t ih =>
    unfold Dev.freeWalk
    refine .ite_fst (h.abuse.setRgn (by norm_num)) ?_
    extract_lets pool d1 d2 d3
    have h2 : d0.Pooled d2 := h.setDesc.pushList.setPoolFree.charge.event
    have h3 : d0.Pooled d3 := by
      unfold d3
      split_ifs with hc
      · exact h2.pfcCheck hc
      · exact h2
    exact .ite_fst h3 (ih h3)

theorem Pooled.derefOne {issuer x : Nat} : d0.Pooled (d.derefOne issuer x).1 :=
  .ite_fst h.abuse (.ite_fst h.abuse (by
    dsimp only
    split_ifs
    · exact h.setDesc.freeWalk
    · exact h.setDesc))

theorem Pooled.derefs {n issuer x : Nat} : d0.Pooled (derefs n d issuer x) := by
  induction n generalizing d issuer x with
  | zero => exact h
  | succ n ih =>
    have h1 := h.derefOne (issuer := issuer) (x := x)
    unfold Dev.derefs
    split
    next hx => exact ih (by rwa [hx] at h1)
    next hx => rwa [hx] at h1

theorem Pooled.deref {issuer x : Nat} : d0.Pooled (d.deref issuer x) := h.derefs

theorem Pooled.free' {issuer x : Nat} : d0.Pooled (d.free' issuer x) := by
  have hw := h.freeWalk (r := R (handleRegion x)) (issuer := issuer) (l := d.chain 512 x)
  refine .ite h.abuse (.ite h.abuse (.ite h.abuse (.ite h.setDesc ?_)))
  unfold Dev.freeChain
  split
  next hx => rw [hx] at hw; exact hw.deref
  next hx => rwa [hx] at hw

theorem Pooled.freePkt {r : Region} {x : Nat} : d0.Pooled (d.freePkt r x) := h.free'
theorem Pooled.handover {issuer x dest : Nat} : d0.Pooled (d.handover issuer x dest) := .ite h.abuse (.ite h.abuse (.ite h.abuse h.setDesc))
theorem Pooled.addref {issuer x : Nat} : d0.Pooled (d.addref issuer x) := .ite h.abuse (.ite h.abuse (.ite h.abuse h.setDesc))

end

end Dev
end Sys2Proof.Machine

namespace Sys2Proof.Machine
namespace Dev

/-! ### Reading packets, copies and queues after an update -/

section
variable (d : Dev) (n m : Nat) (r q : Region) (x : Stamp) (k : Nat)

@[simp] theorem pkt_withFree : (d.withFree n).pkt m = d.pkt m := (rfl)
@[simp] theorem copyout_withFree : (d.withFree n).copyout r x k = d.copyout r x k := (rfl)
@[simp] theorem queue_withFree : (d.withFree n).queue r k = d.queue r k := (rfl)
@[simp] theorem sending_withFree : (d.withFree n).sending r k = d.sending r k := (rfl)
@[simp] theorem nextSeq_withFree : (d.withFree n).nextSeq r k = d.nextSeq r k := (rfl)
@[simp] theorem nextPacket_withFree : (d.withFree n).nextPacket = d.nextPacket := (rfl)

@[simp] theorem copyout_receive (a b : Nat) (msg : Msg) : (d.receive a b msg).copyout r x k = d.copyout r x k := (rfl)

theorem pkt_setPkt (p : Option Packet) : (d.setPkt n p).pkt m = if m = n then p else d.pkt m := Sparse.get_set ..
@[simp] theorem pkt_setPkt_same (p : Option Packet) : (d.setPkt n p).pkt n = p := Sparse.get_set_same ..
@[simp] theorem copyout_setPkt (p : Option Packet) : (d.setPkt n p).copyout r x k = d.copyout r x k := (rfl)

theorem egress_modEgress (f : EgressState → EgressState) :
    ((d.modEgress r f).g q).egress = if q = r then f (d.g r).egress else (d.g q).egress := by
  rw [modEgress, g_modR]
  split_ifs <;> rfl

@[simp] theorem egress_modEgress_same (f : EgressState → EgressState) : ((d.modEgress r f).g r).egress = f (d.g r).egress := by
  rw [egress_modEgress, if_pos rfl]

@[simp] theorem tick_modEgress (f : EgressState → EgressState) : ((d.modEgress r f).g q).tick = (d.g q).tick := by
  rw [modEgress, g_modR]
  split_ifs with hq
  · rw [hq]
  · rfl

end

/-- The egress side of a region settles what it finds by a copy's egress state alone. -/
theorem copyout_congr {d e : Dev} {r : Region} (h : (e.g r).egress.copies = (d.g r).egress.copies) (x : Stamp) (k : Nat) :
    e.copyout r x k = d.copyout r x k := by rw [copyout, copyout, h]

theorem pkt_congr {d e : Dev} (h : e.packets = d.packets) (n : Nat) : e.pkt n = d.pkt n := by rw [pkt, pkt, h]

/-- A copy that is changed and keeps its record is found again as it was changed. -/
theorem copyout_modCopyout_some (d : Dev) (r : Region) (x : Stamp) (k : Nat) (f : Copyout → Copyout) (hf : ∀ c, (f c).record = c.record) :
    (d.modCopyout r x k fun c => some (f c)).copyout r x k = (d.copyout r x k).map f := by
  simp only [copyout, modCopyout, egress_modEgress_same]
  induction (d.g r).egress.copies with
  | nil => rfl
  | cons c t ih =>
    by_cases hc : c.record.stamp = x ∧ c.record.copy = k
    · simp [hc, hf]
    · rw [List.filterMap_cons_some (by rw [if_neg hc]), List.find?_cons_of_neg (by simpa using hc), List.find?_cons_of_neg (by simpa using hc), ih]

/-- A copy that is removed is found no more. -/
theorem copyout_modCopyout_none (d : Dev) (r : Region) (x : Stamp) (k : Nat) : (d.modCopyout r x k fun _ => none).copyout r x k = none := by
  simp only [copyout, modCopyout, egress_modEgress_same, List.find?_eq_none, List.mem_filterMap]
  rintro c ⟨a, -, ha⟩
  split_ifs at ha with hc
  cases ha
  simpa using hc

/-! ### What is left alone by operations on chains -/

section
variable {d e : Dev} (h : d.Pooled e)
include h

theorem Pooled.pkt (n : Nat) : e.pkt n = d.pkt n := pkt_congr (h.parts .packets (by decide)) n
theorem Pooled.copyout (r : Region) (x : Stamp) (k : Nat) : e.copyout r x k = d.copyout r x k := copyout_congr (by rw [h.egress r]) x k
theorem Pooled.queue (r : Region) (q : Nat) : e.queue r q = d.queue r q := by rw [Dev.queue, h.egress r, Dev.queue]
theorem Pooled.sending (r : Region) (p : Nat) : e.sending r p = d.sending r p := by rw [Dev.sending, h.egress r, Dev.sending]

end

/-! ### Copies are settled (R578)

A copy that is settled leaves the copies of its holding region and is counted off its packet; what else changes is what operations on
chains change. -/

/-- What the settling of copies can do at most, beside the packets. -/
structure Settled (d e : Dev) : Prop where
  regs : d.RegsBut poolReg e
  egress : ∀ q, (e.g q).egress = { (d.g q).egress with pause := (e.g q).egress.pause, copies := (e.g q).egress.copies }

theorem Settled.refl (d : Dev) : d.Settled d := ⟨.refl _ _, fun _ => rfl⟩

section
variable {d0 d e : Dev} (h : d0.Settled d)
include h

theorem Settled.trans (k : d.Settled e) : d0.Settled e := ⟨h.regs.trans k.regs, fun q => by rw [k.egress q, h.egress q]⟩
theorem Settled.pooled (k : d.Pooled e) : d0.Settled e := h.trans ⟨k.regs, fun q => by rw [k.egress q]⟩
theorem Settled.setPkt {n : Nat} {p : Option Packet} : d0.Settled (d.setPkt n p) := ⟨h.regs, h.egress⟩
theorem Settled.send {p q : Nat} {m : Msg} : d0.Settled (d.send p q m) := ⟨h.regs, h.egress⟩

theorem Settled.modCopyout {r : Region} {x : Stamp} {k : Nat} {f : Copyout → Option Copyout} : d0.Settled (d.modCopyout r x k f) := by
  refine h.trans ⟨.of_regs rfl, fun q => ?_⟩
  rw [Dev.modCopyout, egress_modEgress]
  split_ifs with hq
  · rw [hq]
  · rfl

theorem Settled.ite {c : Prop} [Decidable c] (k : d0.Settled e) : d0.Settled (if c then d else e) := by
  split_ifs
  · exact h
  · exact k

end

/-- What remains of a packet that has one copy less: nothing after the last one. -/
def lessOne (p : Packet) : Option Packet := if p.copies ≤ 1 then none else some { p with copies := p.copies - 1 }

theorem pooled_freeOrig (d : Dev) (r : Region) (p : Packet) : d.Pooled (d.freeOrig r p) := by
  unfold Dev.freeOrig
  split
  · exact (Pooled.refl d).freePkt
  · exact .refl d

/-- With a copy that is done, its packet has one copy less, and its chains may be freed. -/
theorem copyDone_eq {d : Dev} {n : Nat} {p : Packet} (hp : d.pkt n = some p) (r : Region) :
    ∃ e, d.Pooled e ∧ d.copyDone r n = e.setPkt n (lessOne p) := by
  unfold copyDone lessOne
  simp only [hp]
  split_ifs
  · exact ⟨_, pooled_freeOrig .., rfl⟩
  · exact ⟨_, (Pooled.refl d).freePkt.trans (pooled_freeOrig ..), rfl⟩
  · exact ⟨d, .refl d, rfl⟩

theorem copyDone_eq_self {d : Dev} {n : Nat} (hp : d.pkt n = none) (r : Region) : d.copyDone r n = d := by
  unfold copyDone
  simp only [hp]

theorem Settled.copyDone {d0 d : Dev} (h : d0.Settled d) {r : Region} {n : Nat} : d0.Settled (d.copyDone r n) := by
  cases hp : d.pkt n with
  | none => rwa [copyDone_eq_self hp]
  | some p =>
    obtain ⟨e, he, hd⟩ := copyDone_eq hp r
    rw [hd]
    exact (h.pooled he).setPkt

section
variable {d0 d : Dev} (h : d0.Settled d)
include h

theorem Settled.settle {r : Region} {x : Stamp} {k requester : Nat} : d0.Settled (d.settle r x k requester) := by
  have hp {e : Dev} (k : d.Pooled e) : d0.Settled e := h.pooled k
  have ha := (Pooled.refl d)
  unfold Dev.settle
  split
  · exact h
  · dsimp only
    split
    · exact (hp ha.deref).modCopyout
    · exact h.modCopyout
    · exact (h.modCopyout.pooled (Pooled.refl _).freePkt).copyDone
    · exact h.modCopyout.copyDone
    · exact (Settled.ite (hp ha.addref.freePkt) (hp ha.handover)).modCopyout.copyDone
    · exact h

theorem Settled.noteOutcome {r : Region} {x : Stamp} {k outcome requester : Nat} : d0.Settled (d.noteOutcome r x k outcome requester) :=
  h.modCopyout.settle

theorem Settled.reportOutcome {r : Region} {x : ReleaseRec} {outcome requester : Nat} : d0.Settled (d.reportOutcome r x outcome requester) :=
  .ite h.noteOutcome h.send

end

/-- A copy without a head segment whose outcome is no refusal waits for its rewrite. -/
theorem settle_of_no_head {d : Dev} {r : Region} {x : Stamp} {k : Nat} {c : Copyout} (hc : d.copyout r x k = some c) (hm : c.mirror = false)
    (hh : c.head = none) (ho : c.outcome ≠ some 2) (requester : Nat) : d.settle r x k requester = d := by
  unfold settle
  simp only [hc, hm, hh]
  split <;> simp_all

/-- A copy whose outcome is not known waits for it. -/
theorem settle_of_no_outcome {d : Dev} {r : Region} {x : Stamp} {k : Nat} {c : Copyout} (hc : d.copyout r x k = some c)
    (ho : c.outcome = none) (requester : Nat) : d.settle r x k requester = d := by
  unfold settle
  simp only [hc, ho]

/-- A refused copy is counted off its packet: its head segment is freed where it has one. -/
theorem settle_of_refused {d : Dev} {r : Region} {x : Stamp} {k : Nat} {c : Copyout} (hc : d.copyout r x k = some c) (hm : c.mirror = false)
    (ho : c.outcome = some 2) (requester : Nat) :
    ∃ e, (d.modCopyout r x k fun _ => none).Pooled e ∧ d.settle r x k requester = e.copyDone r c.record.pkt := by
  unfold settle
  simp only [hc, hm, ho]
  cases c.head with
  | none => exact ⟨_, .refl _, rfl⟩
  | some h => exact ⟨_, (Pooled.refl _).freePkt, rfl⟩

/-- An accepted copy that is rewritten is handed to its requester and counted off its packet. -/
theorem settle_of_accepted {d : Dev} {r : Region} {x : Stamp} {k h o : Nat} {c : Copyout} (hc : d.copyout r x k = some c) (hm : c.mirror = false)
    (hh : c.head = some h) (ho : c.outcome = some o) (ho2 : o ≠ 2) (hhost : c.record.host = false) (requester : Nat) :
    d.settle r x k requester
      = ((d.handover (requesterId r.val reqPkt) h requester).modCopyout r x k fun _ => none).copyDone r c.record.pkt := by
  unfold settle
  simp only [hc, hm, hh, ho, hhost]
  split <;> simp_all

/-! ### Enqueueing leaves the release lists alone (R185) -/

/-- The release lists stand as they did. -/
def Listed (d e : Dev) : Prop :=
  ∀ q, (e.g q).egress.records = (d.g q).egress.records ∧ (e.g q).egress.closed = (d.g q).egress.closed

theorem Listed.refl (d : Dev) : d.Listed d := fun _ => ⟨rfl, rfl⟩

section
variable {d0 d e : Dev} (h : d0.Listed d)
include h

theorem Listed.trans (k : d.Listed e) : d0.Listed e := fun q => ⟨(k q).1.trans (h q).1, (k q).2.trans (h q).2⟩

theorem Listed.kept {l : List Part} (k : d.Kept l e) (hl : Part.egress ∉ l := by decide) : d0.Listed e :=
  h.trans fun q => by simp only [k.1 .egress hl q, and_self]

theorem Listed.settled (k : d.Settled e) : d0.Listed e := h.trans fun q => by
  rw [k.egress q]
  exact ⟨rfl, rfl⟩

theorem Listed.modEgress {r : Region} {f : EgressState → EgressState}
    (hf : ∀ x, (f x).records = x.records ∧ (f x).closed = x.closed := by exact fun _ => ⟨rfl, rfl⟩) : d0.Listed (d.modEgress r f) :=
  h.trans fun q => by
    rw [egress_modEgress]
    split_ifs with hq
    · rw [hq]; exact hf _
    · exact ⟨rfl, rfl⟩

theorem Listed.ite {c : Prop} [Decidable c] (k : d0.Listed e) : d0.Listed (if c then d else e) := by
  split_ifs
  · exact h
  · exact k

theorem Listed.each {α : Type} {f : α → Dev → Dev} {l : List α} (hf : ∀ a (e : Dev), d0.Listed e → d0.Listed (f a e)) :
    d0.Listed (d.each l f) := by
  unfold Dev.each
  induction l generalizing d with
  | nil => exact h
  | cons a t ih => exact ih (hf a d h)

theorem Listed.raise {r : Region} {n : Nat} : d0.Listed (d.raise r n) := h.kept ((Kept.refl _ d).raise fun _ => id)
theorem Listed.event {r : Region} {sel qual n : Nat} : d0.Listed (d.event r sel qual n) := h.kept ((Kept.refl _ d).event fun _ => id)
theorem Listed.err {f : Fld} {r : Region} {n : Nat} : d0.Listed (d.err f r n) := h.kept ((Kept.refl _ d).err fun _ => id)
theorem Listed.setFld {f : Fld} {v : Nat} : d0.Listed (d.setFld f v) := h.kept (setFld_kept ..)
theorem Listed.setQueue {r : Region} {q : Nat} {l : List QueueEntry} : d0.Listed (d.setQueue r q l) := h.modEgress.setFld.setFld

theorem Listed.reportOutcome {r : Region} {x : ReleaseRec} {outcome requester : Nat} : d0.Listed (d.reportOutcome r x outcome requester) :=
  h.settled (Settled.refl d).reportOutcome

theorem Listed.refuse {r : Region} {x : ReleaseRec} {code : Nat} : d0.Listed (d.refuse r x code) :=
  (h.kept ((Kept.refl _ d).dropCount fun _ => id)).reportOutcome

theorem Listed.enqueueHost {r : Region} {x : ReleaseRec} : d0.Listed (d.enqueueHost r x) := by
  unfold Dev.enqueueHost
  split
  · exact h.refuse
  · exact .ite h.refuse.raise (h.kept ((Kept.refl _ d).modEp fun _ => id)).reportOutcome

theorem Listed.enqueue {r : Region} {x : ReleaseRec} : d0.Listed (d.enqueue r x) := by
  unfold Dev.enqueue
  refine .ite h.refuse (.ite (.ite h.reportOutcome h.refuse) (.ite h.enqueueHost (.ite h.setFld.refuse (.ite h.refuse ?_))))
  extract_lets n onchip wants room spill d1 entry d2 d3
  have h1 : d0.Listed d1 := .ite h.err h
  have h2 : d0.Listed d2 := h1.setQueue.event
  exact (Listed.ite h2.modEgress.event h2).reportOutcome

end

/-- A list that closes for a shutter keeps the records of the other shutters. -/
theorem egress_closeList (d : Dev) (r : Region) (shutter : Nat) : ((d.closeList r shutter).g r).egress.closed = true
    ∧ ((d.closeList r shutter).g r).egress.records = (d.g r).egress.records.filter (fun x => releaseAt x != shutter) := by
  have hl : (d.modEgress r fun x => { x with closed := true, records := x.records.filter (fun x => releaseAt x != shutter) }).Listed
      (d.closeList r shutter) := (Listed.refl _).setFld.each fun _ _ h => h.enqueue
  rw [(hl r).1, (hl r).2, egress_modEgress_same]
  exact ⟨rfl, rfl⟩

/-! ### What a drop counts (R201) -/

theorem regsBut_dropCount (d : Dev) (r : Region) (code : Nat) : d.RegsSig [RGN_DROP_LO r.val code, RGN_DROP_HI r.val code] (d.dropCount r code) :=
  RegsBut.signalled (own := fun a => a ∈ _ ∨ signalReg a) (.setPair (.refl _ d) (.inl (by simp)) (.inl (by simp)))
    (signalled_event ..) RegsSig.of_signal

end Dev
end Sys2Proof.Machine

namespace Sys2Proof.Machine

namespace Dev

/-! ### Release markers (R183) -/

/-- What a marker of a shutter leaves noted: its sender, where the shutter is the present one. -/
def noteMarker (d : Dev) (r src : Region) (shutter : Nat) : Dev :=
  d.modEgress r fun e => { e with
    markers := if shutter = (d.g r).tick ∧ !e.markers.contains src.val then e.markers ++ [src.val] else e.markers }

/-- Whether every marker that a region's list waits for has come. -/
def wholeMarkers (d : Dev) (r : Region) : Bool := (d.others r).all fun q => d.fenced q.val || (d.g r).egress.markers.contains q.val

section
variable (d : Dev) (r src : Region) (shutter : Nat)

theorem noteMarker_kept : d.Kept [.egress] (d.noteMarker r src shutter) := (Kept.refl _ d).modEgress fun _ => id
@[simp] theorem others_noteMarker : (d.noteMarker r src shutter).others r = d.others r := (rfl)
@[simp] theorem fenced_noteMarker (q : Nat) : (d.noteMarker r src shutter).fenced q = d.fenced q := (rfl)
@[simp] theorem handed_receive (a b : Nat) (m : Msg) (f : ReleaseRec → Bool) : (d.receive a b m).handed r f = d.handed r f := (rfl)

@[simp] theorem tick_noteMarker : ((d.noteMarker r src shutter).g r).tick = (d.g r).tick := tick_modEgress ..

@[simp] theorem closed_noteMarker : ((d.noteMarker r src shutter).g r).egress.closed = (d.g r).egress.closed := by
  rw [noteMarker, egress_modEgress_same]

@[simp] theorem records_noteMarker : ((d.noteMarker r src shutter).g r).egress.records = (d.g r).egress.records := by
  rw [noteMarker, egress_modEgress_same]

variable {shutter}

theorem markers_noteMarker (h : shutter = (d.g r).tick) : ((d.noteMarker r src shutter).g r).egress.markers
    = if src.val ∈ (d.g r).egress.markers then (d.g r).egress.markers else (d.g r).egress.markers ++ [src.val] := by
  rw [noteMarker, egress_modEgress_same]
  by_cases hs : src.val ∈ (d.g r).egress.markers <;> simp [hs, h]

/-- A marker of another shutter leaves nothing noted. -/
theorem egress_noteMarker_of_ne (h : shutter ≠ (d.g r).tick) (q : Region) : ((d.noteMarker r src shutter).g q).egress = (d.g q).egress := by
  rw [noteMarker, egress_modEgress]
  by_cases hq : q = r
  · rw [if_pos hq, if_neg fun hc => h hc.1, hq]
  · rw [if_neg hq]

variable {d r src}

/-- A marker completes the list where it is the last one missing. -/
theorem wholeMarkers_noteMarker (h : shutter = (d.g r).tick) : (d.noteMarker r src shutter).wholeMarkers r = true ↔
    ∀ q ∈ d.others r, d.fenced q.val = false → q ≠ src → q.val ∈ (d.g r).egress.markers := by
  have hm (q : Region) : q.val ∈ ((d.noteMarker r src shutter).g r).egress.markers ↔ q.val ∈ (d.g r).egress.markers ∨ q = src := by
    rw [markers_noteMarker d r src h]
    split_ifs with hc
    · exact ⟨.inl, fun k => k.elim id fun k => k ▸ hc⟩
    · simp [Fin.ext_iff]
  simp only [wholeMarkers, others_noteMarker, fenced_noteMarker, List.all_eq_true, Bool.or_eq_true, List.contains_iff_mem, hm,
    ← Bool.not_eq_true]
  exact forall₂_congr fun q _ => by tauto

end

/-- No tick lies after itself (R84). -/
theorem ne_of_tickAfter {a b : Nat} (h : tickAfter a b = true) : a ≠ b := by
  rintro rfl
  have : ticksAhead a a = 0 := by
    unfold ticksAhead
    omega
  simp [tickAfter, this] at h

end Dev

section
variable {s : State} {r src : Region}

/-! ### Release lists (R182–R185) -/

/-- The record of a shutter that is still to come joins those of its region. -/
theorem releaseRec_carried {x : ReleaseRec} (ht : x.transit ≠ 0) (ha : Dev.tickAfter (Dev.releaseAt x) (s.dev.g r).tick = true)
    (hm : s.dev.inTurn src.val r.val (.releaseRec x) = true) : Carried (.releaseRec r src x) s [.regs, .wire, .egress] fun e =>
      (e.g r).egress.records = (s.dev.g r).egress.records ++ [x] ∧ e.wire = s.dev.wire.erase ⟨src.val, r.val, .releaseRec x⟩
        ∧ s.dev.RegsIn [RGN_INFLIGHT r.val] e := by
  have hx : exec (.releaseRec r src x) s = execReleaseRec r src x s := rfl
  have hd : Dev.releaseAt x ≠ (s.dev.g r).tick := Dev.ne_of_tickAfter ha
  let d := (s.dev.receive src.val r.val (.releaseRec x)).modEgress r fun e => { e with records := e.records ++ [x] }
  have hk : s.dev.Kept [.wire, .egress] d :=
    ((Dev.Kept.refl _ _).receive (by decide)).modEgress (by decide)
  refine .of_deliverAll_eq (d := d.setFld (RGN_INFLIGHT_count r.val) (d.fld (RGN_INFLIGHT_count r.val)
      + (d.handed r (fun y => Dev.releaseAt y == Dev.releaseAt x) - s.dev.handed r (fun y => Dev.releaseAt y == Dev.releaseAt x))))
    hx hm ?_ ((hk.mono (by decide)).setFld (by decide)).1 ⟨?_, ?_, ?_⟩
  · dsimp only
    rw [Dev.g_receive, if_neg ht, ha, Dev.tick_modEgress, Dev.g_receive, if_neg hd, Dev.handed_receive, if_neg (by simp)]
  · rw [Dev.g_withFree, Dev.g_setFld, Dev.egress_modEgress_same, Dev.g_receive]
  · rfl
  · rw [Dev.regsIn_withFree]
    exact (Dev.RegsBut.refl _ s.dev).receive.modR.setFld (by simp [RGN_INFLIGHT_count])

/-- The record of a list that has closed, or of a shutter that is past, is refused as late. -/
theorem releaseRec_late_carried {x : ReleaseRec} (ht : x.transit ≠ 0) (ha : Dev.tickAfter (Dev.releaseAt x) (s.dev.g r).tick = false)
    (hc : (s.dev.g r).egress.closed = true ∨ Dev.releaseAt x ≠ (s.dev.g r).tick)
    (hm : s.dev.inTurn src.val r.val (.releaseRec x) = true) :
    Carried (.releaseRec r src x) s [.regs, .mem, .wire, .line, .ctxs, .packets, .endpoints, .commit, .pool, .egress, .journal] fun e =>
      e.on (RGN_RELEASE_ERR_release_late r.val) = true ∧ (e.g r).egress.records = (s.dev.g r).egress.records := by
  have hx : exec (.releaseRec r src x) s = execReleaseRec r src x s := rfl
  let d := (s.dev.receive src.val r.val (.releaseRec x)).err (RGN_RELEASE_ERR_release_late r.val) r 0x2F0
  have hf : s.dev.Listed d := ((Dev.Listed.refl _).kept (Dev.receive_kept ..)).err
  refine .of_deliverAll_eq (d := d.refuse r x 0x08) hx hm ?_
    ((((Dev.Kept.refl _ _).receive (by decide)).err (by decide)).refuse (by decide)).1 ⟨?_, ?_⟩
  · dsimp only
    rw [Dev.g_receive, if_neg ht, ha, if_pos (by simpa using hc)]
  · have hn : ¬ signalReg (RGN_RELEASE_ERR r.val) := Dev.not_signalReg_rgn r (by norm_num) (by norm_num) (by norm_num)
    have hp : ¬ Dev.poolReg (RGN_RELEASE_ERR r.val) := by rw [RGN_RELEASE_ERR, Dev.poolReg_rgnReg r.isLt (by norm_num)]; norm_num
    have hdrop := (d.regsBut_dropCount r 0x08).fld (f := RGN_RELEASE_ERR_release_late r.val) (by
      simpa [RGN_RELEASE_ERR_release_late, RGN_RELEASE_ERR, RGN_DROP_LO, RGN_DROP_HI, rgnReg_inj] using hn)
    have hset := (Dev.Settled.refl (d.dropCount r 0x08)).reportOutcome (r := r) (x := x) (outcome := 2) (requester := 0) |>.regs.fld
      (f := RGN_RELEASE_ERR_release_late r.val) hp
    rw [Dev.on_withFree, Dev.on_eq_true, Dev.refuse, hset, hdrop, ← Dev.on_eq_true]
    exact Dev.on_err _ (by simp [RGN_RELEASE_ERR_release_late]) (by simp [RGN_RELEASE_ERR_release_late]) hn _ _
  · rw [Dev.g_withFree, (hf.refuse r).1]

/-- A marker that comes is noted, and closes the list where it is the last one missing. -/
theorem exec_releaseMark (r src : Region) (shutter : Nat) (s : State) :
    exec (.releaseMark r src shutter) s = s.deliverAll src.val r.val (.releaseMark shutter) fun d =>
      if shutter = ((d.noteMarker r src shutter).g r).tick ∧ !((d.noteMarker r src shutter).g r).egress.closed
        ∧ (d.noteMarker r src shutter).wholeMarkers r then (d.noteMarker r src shutter).closeList r shutter
      else d.noteMarker r src shutter := rfl

theorem markerCame_kept (s : State) (r src : Region) (shutter : Nat) :
    s.dev.Kept [.wire, .egress] ((s.dev.receive src.val r.val (.releaseMark shutter)).noteMarker r src shutter) :=
  ((Dev.receive_kept ..).mono (by decide)).then (Dev.noteMarker_kept ..) (by decide)

/-- A marker of the present shutter is noted, and the list waits for those still missing. -/
theorem releaseMark_waits_carried (hs : src.val ∉ (s.dev.g r).egress.markers)
    (hq : ∃ q ∈ s.dev.others r, s.dev.fenced q.val = false ∧ q ≠ src ∧ q.val ∉ (s.dev.g r).egress.markers)
    (hm : s.dev.inTurn src.val r.val (.releaseMark (s.dev.g r).tick) = true) :
    Carried (.releaseMark r src (s.dev.g r).tick) s [.wire, .egress] fun e =>
      (e.g r).egress.markers = (s.dev.g r).egress.markers ++ [src.val] ∧ (e.g r).egress.closed = (s.dev.g r).egress.closed
        ∧ e.wire = s.dev.wire.erase ⟨src.val, r.val, .releaseMark (s.dev.g r).tick⟩ := by
  obtain ⟨q, hqo, hqf, hqs, hqm⟩ := hq
  refine .of_deliverAll_eq (exec_releaseMark ..) hm (if_neg fun h => hqm ((Dev.wholeMarkers_noteMarker rfl).1 h.2.2 q hqo hqf hqs))
    (markerCame_kept ..).1 ⟨?_, ?_, rfl⟩
  · rw [Dev.g_withFree, Dev.markers_noteMarker _ _ _ (by rw [Dev.g_receive]), Dev.g_receive, if_neg hs]
  · rw [Dev.g_withFree, Dev.closed_noteMarker, Dev.g_receive]

/-- The last marker that was missing closes the list. -/
theorem releaseMark_closes_carried (hc : (s.dev.g r).egress.closed = false)
    (hq : ∀ q ∈ s.dev.others r, s.dev.fenced q.val = false → q ≠ src → q.val ∈ (s.dev.g r).egress.markers)
    (hm : s.dev.inTurn src.val r.val (.releaseMark (s.dev.g r).tick) = true) :
    Carried (.releaseMark r src (s.dev.g r).tick) s
      [.regs, .mem, .wire, .line, .ctxs, .packets, .endpoints, .commit, .pool, .egress, .journal] fun e =>
      (e.g r).egress.closed = true
        ∧ (e.g r).egress.records = (s.dev.g r).egress.records.filter (fun x => Dev.releaseAt x != (s.dev.g r).tick) := by
  refine .of_deliverAll_eq (exec_releaseMark ..) hm (if_pos ⟨(Dev.tick_noteMarker ..).symm, ?_, (Dev.wholeMarkers_noteMarker rfl).2 hq⟩)
    (((markerCame_kept ..).mono (by decide)).closeList (by decide)).1 ?_
  · have hl := Dev.egress_closeList ((s.dev.receive src.val r.val (.releaseMark (s.dev.g r).tick)).noteMarker r src (s.dev.g r).tick)
      r (s.dev.g r).tick
    rwa [Dev.records_noteMarker] at hl
  · rw [Dev.closed_noteMarker, Dev.g_receive, hc]
    rfl

/-- A marker of another shutter is taken off the wire and leaves nothing noted. -/
theorem releaseMark_other_carried {shutter : Nat} (ht : shutter ≠ (s.dev.g r).tick)
    (hm : s.dev.inTurn src.val r.val (.releaseMark shutter) = true) : Carried (.releaseMark r src shutter) s [.wire] fun e =>
      e.wire = s.dev.wire.erase ⟨src.val, r.val, .releaseMark shutter⟩ := by
  refine .of_deliverAll_eq (exec_releaseMark ..) hm (if_neg fun h => ht (h.1.trans (Dev.tick_noteMarker ..))) (fun p hp => ?_) rfl
  by_cases he : p = .egress
  · subst he
    exact Dev.egress_noteMarker_of_ne _ r src ht
  · exact (markerCame_kept s r src shutter).1 p (by simpa [he] using hp)

/-- The deadline closes a list that is open. -/
theorem releaseDeadline_carried :
    Carried (.releaseDeadline r) s [.regs, .mem, .wire, .line, .ctxs, .packets, .endpoints, .commit, .pool, .egress, .journal] fun e =>
      (e.g r).egress.closed = true ∧ (e.g r).egress.records = if (s.dev.g r).egress.closed then (s.dev.g r).egress.records
        else (s.dev.g r).egress.records.filter (fun x => Dev.releaseAt x != (s.dev.g r).tick) := by
  have hx : exec (.releaseDeadline r) s = execReleaseDeadline r s := rfl
  by_cases hc : (s.dev.g r).egress.closed = true
  · refine .of_run_eq (d := s.dev) hx (if_pos hc) (.refl _ _) ⟨hc, ?_⟩
    rw [if_pos hc, Dev.g_withFree]
  · refine .of_run_eq (d := s.dev.closeList r (s.dev.g r).tick) hx (if_neg hc) ((Dev.Kept.refl _ _).closeList (by decide)).1 ?_
    rw [if_neg hc]
    exact Dev.egress_closeList ..

end

end Sys2Proof.Machine

namespace Sys2Proof.Machine

namespace Dev

/-! ### Descriptors and their owners (R565) -/

theorem R_inj {m n : Nat} (hm : m < 8) (hn : n < 8) : R m = R n ↔ m = n := by
  rw [R, R, Fin.ext_iff, Fin.val_ofNat, Fin.val_ofNat, Nat.mod_eq_of_lt hm, Nat.mod_eq_of_lt hn]

theorem handleRegion_lt (x : Nat) : handleRegion x < 8 := Nat.mod_lt _ (by norm_num)

section
variable {d e : Dev}

/-- The stitches of a handle are described by the pool of its region. -/
theorem desc_congr (h : ∀ q, (e.g q).pool = (d.g q).pool) (x : Nat) : e.desc x = d.desc x := by rw [desc, desc, h]

theorem held_congr (h : ∀ q, (e.g q).pool = (d.g q).pool) (x : Nat) : e.held x = d.held x := by
  rw [held, held, desc_congr h, withdrawn, withdrawn, h]

end

section
variable (d : Dev) (r q : Region) (x k n : Nat)

theorem desc_setDesc (e : StitchDesc) :
    (d.setDesc x e).desc k = if handleRegion k = handleRegion x ∧ handleKey k = handleKey x then e else d.desc k := by
  by_cases hr : handleRegion k = handleRegion x
  · rw [setDesc, modPool, desc, g_modR, if_pos (by rw [hr]), desc, hr]
    simpa using Sparse.get_set ..
  · rw [setDesc, modPool, desc, g_modR, if_neg (fun h => hr ((R_inj (handleRegion_lt k) (handleRegion_lt x)).1 h)),
      if_neg fun h => hr h.1, desc]


theorem pool_modEgress (f : EgressState → EgressState) : ((d.modEgress r f).g q).pool = (d.g q).pool := by
  rw [modEgress, g_modR]
  split_ifs with hq
  · rw [hq]
  · rfl

@[simp] theorem desc_modCopyout (y : Stamp) (f : Copyout → Option Copyout) : (d.modCopyout r y n f).desc k = d.desc k :=
  desc_congr (fun _ => pool_modEgress ..) k

@[simp] theorem held_modCopyout (y : Stamp) (f : Copyout → Option Copyout) : (d.modCopyout r y n f).held k = d.held k :=
  held_congr (fun _ => pool_modEgress ..) k

@[simp] theorem pkt_modCopyout (y : Stamp) (f : Copyout → Option Copyout) : (d.modCopyout r y n f).pkt k = d.pkt k := (rfl)

end

theorem named_reqPkt (r : Region) : named (requesterId r.val reqPkt) = true := by
  revert r
  decide

/-- The owner of an allocated stitch hands it over. -/
theorem handover_of_owner {d : Dev} {issuer x : Nat} (hn : named issuer = true) (hh : d.held x = true) (ho : (d.desc x).owner = issuer) (dest : Nat) :
    d.handover issuer x dest = d.setDesc x { d.desc x with owner := dest } := by
  simp [handover, hn, hh, ho]

/-- With a copy that is done and is not the last, its packet has one copy less and is otherwise as it was. -/
theorem copyDone_of_more {d : Dev} {n : Nat} {p : Packet} (hp : d.pkt n = some p) (h : 1 < p.copies) (r : Region) :
    d.copyDone r n = d.setPkt n (some { p with copies := p.copies - 1 }) := by
  unfold copyDone
  simp only [hp]
  exact if_neg (by omega)

/-! ### Head segments (R191, R192) -/

theorem Pooled.makeHead {d0 d : Dev} (h : d0.Pooled d) {r : Region} {p : Packet} {l : List Nat} {many : Bool} :
    d0.Pooled (d.makeHead r p l many).1 := by
  have ha := h.alloc (r := r) (l := reqPkt) (pool := 0) (cls := p.stamp.tc)
    (sizes := stitchSizes (d.headSegment r p l many).length) (by decide)
  unfold Dev.makeHead
  dsimp only
  split
  next hx =>
    rw [hx] at ha
    split
    · exact ha.writeChain
    · exact ha.writeChain.setDesc.addref
    · exact ha.writeChain.setDesc.addref
    · exact ha.writeChain.setDesc.freeWalk
    · exact ha.writeChain.setDesc.freeWalk
  next hx =>
    rwa [hx] at ha

theorem modPkt_eq {d : Dev} {n : Nat} {p : Packet} (hp : d.pkt n = some p) (f : Packet → Packet) : d.modPkt n f = d.setPkt n (some (f p)) := by
  unfold modPkt
  simp only [hp]

section
variable (d : Dev) (e r : Region) (x : ReleaseRec) (head : Nat) (poisoned : Bool)

/-- The entry of a copy that may be sent lies in a queue, not among the copies. -/
theorem copyout_entryReady (y : Stamp) (k : Nat) : (d.entryReady e x head poisoned).copyout r y k = d.copyout r y k := by
  unfold entryReady
  dsimp only
  split
  · rfl
  · refine copyout_congr ?_ y k
    rw [egress_modEgress]
    split_ifs with hq
    · rw [hq]
    · rfl

theorem pkt_entryReady (n : Nat) : (d.entryReady e x head poisoned).pkt n = d.pkt n :=
  pkt_congr (((Kept.refl _ d).entryReady fun _ => id).1 .packets (by decide)) n

end

/-- The outcome that comes for a copy is noted with it. -/
theorem copyout_noteOutcome (d : Dev) {r : Region} {stamp : Stamp} {copy : Nat} {c : Copyout} (hc : d.copyout r stamp copy = some c)
    (src : Region) (requester outcome : Nat) :
    ((d.receive src.val r.val (.enqOutcome outcome stamp copy requester)).modCopyout r stamp copy
      fun c => some { c with outcome := some outcome }).copyout r stamp copy = some { c with outcome := some outcome } := by
  rw [copyout_modCopyout_some _ _ _ _ (fun c => { c with outcome := some outcome }) fun _ => rfl, copyout_receive, hc]
  rfl

end Dev

section
variable {s : State} {r src : Region} {stamp : Stamp} {copy requester h : Nat} {c : Copyout} {p : Packet}

/-! ### Copies (R191, R578) -/

/-- The copy that is next gets its head segment and waits for its outcome. -/
theorem rewriteComplete_carried {poisoned : Bool} (hc : s.dev.copyout r stamp copy = some c) (hp : s.dev.pkt c.record.pkt = some p)
    (ho : c.outcome = none) (hd : s.dev.rewriteDue r c = true) (hn : s.dev.rewriteNext r c = true)
    (hh : (s.dev.makeHead r p c.rewrite c.shared).2 = some h) :
    Carried (.rewriteComplete r stamp copy poisoned) s
      [.regs, .mem, .wire, .line, .ctxs, .packets, .endpoints, .commit, .pool, .egress, .journal] fun e =>
      e.copyout r stamp copy = some { c with head := some h }
        ∧ e.pkt c.record.pkt = some { p with consumed := p.consumed || (s.dev.plainHead p && !c.shared) }
        ∧ ∀ m, m ≠ c.record.pkt → e.pkt m = s.dev.pkt m := by
  have hx : exec (.rewriteComplete r stamp copy poisoned) s = execRewriteComplete r stamp copy poisoned s := rfl
  let d := (s.dev.makeHead r p c.rewrite c.shared).1
  have hmake : s.dev.makeHead r p c.rewrite c.shared = (d, some h) := Prod.ext rfl hh
  have hpool : s.dev.Pooled d := (Dev.Pooled.refl _).makeHead
  have hp' : d.pkt c.record.pkt = some p := (hpool.pkt _).trans hp
  let d1 := (d.setPkt c.record.pkt (some { p with consumed := p.consumed || (s.dev.plainHead p && !c.shared) })).modCopyout r stamp copy
    fun c => some { c with head := some h }
  let d2 := d1.entryReady (Dev.recordRegion c.record) c.record h (poisoned || s.dev.chainPoisoned p.head (min 512 p.length))
  have hcopy : d2.copyout r stamp copy = some { c with head := some h } := by
    rw [Dev.copyout_entryReady, Dev.copyout_modCopyout_some _ _ _ _ (fun c => { c with head := some h }) fun _ => rfl,
      Dev.copyout_setPkt, hpool.copyout, hc]
    rfl
  have hpkt (m : Nat) : d2.pkt m
      = if m = c.record.pkt then some { p with consumed := p.consumed || (s.dev.plainHead p && !c.shared) } else s.dev.pkt m := by
    rw [Dev.pkt_entryReady, Dev.pkt_modCopyout, Dev.pkt_setPkt, hpool.pkt]
  refine .of_doing (d := d2) hx ?_ ?_ ⟨hcopy, (hpkt _).trans (if_pos rfl), fun m hm => (hpkt m).trans (if_neg hm)⟩
  · simp only [hc, hp, hd, hn, hmake, Bool.true_eq_false, or_self, if_false, Dev.modPkt_eq hp']
    exact congrArg Host.Outcome.next (Dev.settle_of_no_outcome hcopy ho _)
  · exact (((((Dev.Kept.refl _ s.dev).makeHead (by decide)).setPkt (by decide)).modCopyout (by decide)).entryReady (by decide)).1

/-- The outcome of a copy that is not rewritten yet is noted with it. -/
theorem enqOutcome_noted_carried {outcome : Nat} (hc : s.dev.copyout r stamp copy = some c) (hm : c.mirror = false) (hh : c.head = none)
    (ho : outcome ≠ 2) (ht : s.dev.inTurn src.val r.val (.enqOutcome outcome stamp copy requester) = true) :
    Carried (.enqOutcome r src outcome stamp copy requester) s [.wire, .egress] fun e =>
      e.copyout r stamp copy = some { c with outcome := some outcome }
        ∧ e.wire = s.dev.wire.erase ⟨src.val, r.val, .enqOutcome outcome stamp copy requester⟩ := by
  have hx : exec (.enqOutcome r src outcome stamp copy requester) s = execEnqOutcome r src outcome stamp copy requester s := rfl
  have hnote := Dev.copyout_noteOutcome s.dev hc src requester outcome
  exact .of_deliverAll_eq hx ht (Dev.settle_of_no_head hnote hm hh (by simpa using ho) requester)
    (((Dev.Kept.refl _ _).receive (by decide)).modCopyout (by decide)).1 ⟨hnote, rfl⟩

/-- A refusal settles the copy and counts it off its packet. -/
theorem enqOutcome_refused_carried (hc : s.dev.copyout r stamp copy = some c) (hp : s.dev.pkt c.record.pkt = some p)
    (hm : c.mirror = false) (ht : s.dev.inTurn src.val r.val (.enqOutcome 2 stamp copy requester) = true) :
    Carried (.enqOutcome r src 2 stamp copy requester) s
      [.regs, .mem, .wire, .line, .ctxs, .packets, .endpoints, .commit, .pool, .egress, .journal] fun e =>
      e.copyout r stamp copy = none
        ∧ e.pkt c.record.pkt = if p.copies ≤ 1 then none else some { p with copies := p.copies - 1 } := by
  have hx : exec (.enqOutcome r src 2 stamp copy requester) s = execEnqOutcome r src 2 stamp copy requester s := rfl
  obtain ⟨e, he, hsettle⟩ := Dev.settle_of_refused (Dev.copyout_noteOutcome s.dev hc src requester 2) hm rfl requester
  obtain ⟨e', he', hdone⟩ := Dev.copyDone_eq (show e.pkt c.record.pkt = some p from (he.pkt _).trans hp) r
  refine .of_deliverAll_eq hx ht (hsettle.trans hdone) ?_ ⟨?_, ?_⟩
  · rw [← hdone, ← hsettle]
    exact (((Dev.Kept.refl _ _).receive (by decide)).noteOutcome (by decide)).1
  · rw [Dev.copyout_withFree, Dev.copyout_setPkt, he'.copyout, he.copyout]
    exact Dev.copyout_modCopyout_none ..
  · exact Dev.pkt_setPkt_same ..

/-- An accepted copy that is rewritten is handed to the requester named and counted off its packet. -/
theorem enqOutcome_accepted_carried {outcome : Nat} (hc : s.dev.copyout r stamp copy = some c) (hp : s.dev.pkt c.record.pkt = some p)
    (hm : c.mirror = false) (hh : c.head = some h) (ho : outcome ≠ 2) (hhost : c.record.host = false) (hmore : 1 < p.copies)
    (hheld : s.dev.held h = true) (hown : (s.dev.desc h).owner = requesterId r.val reqPkt)
    (ht : s.dev.inTurn src.val r.val (.enqOutcome outcome stamp copy requester) = true) :
    Carried (.enqOutcome r src outcome stamp copy requester) s [.wire, .egress, .packets, .pool] fun e =>
      e.copyout r stamp copy = none ∧ e.desc h = { s.dev.desc h with owner := requester }
        ∧ (∀ x, handleRegion x ≠ handleRegion h ∨ handleKey x ≠ handleKey h → e.desc x = s.dev.desc x)
        ∧ e.pkt c.record.pkt = some { p with copies := p.copies - 1 } := by
  have hx : exec (.enqOutcome r src outcome stamp copy requester) s = execEnqOutcome r src outcome stamp copy requester s := rfl
  let d := (s.dev.receive src.val r.val (.enqOutcome outcome stamp copy requester)).modCopyout r stamp copy
    fun c => some { c with outcome := some outcome }
  let d1 := (d.setDesc h { d.desc h with owner := requester }).modCopyout r stamp copy fun _ => none
  have hd (x : Nat) : d.desc x = s.dev.desc x := Dev.desc_modCopyout ..
  have hheld' : d.held h = true := (Dev.held_modCopyout ..).trans hheld
  have hown' : (d.desc h).owner = requesterId r.val reqPkt := by rw [hd, hown]
  have hhand := Dev.handover_of_owner (Dev.named_reqPkt r) hheld' hown' requester
  have hsettle := Dev.settle_of_accepted (Dev.copyout_noteOutcome s.dev hc src requester outcome) hm hh rfl ho hhost requester
  rw [hhand] at hsettle
  have hdesc (x : Nat) : d1.desc x
      = if handleRegion x = handleRegion h ∧ handleKey x = handleKey h then { s.dev.desc h with owner := requester } else s.dev.desc x := by
    rw [Dev.desc_modCopyout, Dev.desc_setDesc, hd, hd]
  refine .of_deliverAll_eq hx ht (hsettle.trans (Dev.copyDone_of_more (d := d1) (p := p) hp hmore r)) ?_ ⟨?_, ?_, ?_, ?_⟩
  · exact (((((Dev.Kept.refl _ _).receive (by decide)).modCopyout (by decide)).setDesc (by decide)).modCopyout (by decide)
      |>.setPkt (by decide)).1
  · exact Dev.copyout_modCopyout_none ..
  · exact (hdesc h).trans (if_pos ⟨rfl, rfl⟩)
  · exact fun x hne => (hdesc x).trans (if_neg (by tauto))
  · exact (Dev.pkt_withFree ..).trans (Dev.pkt_setPkt_same ..)

end

/-- Settles O46, command by command: what a command appends to or takes off the release lists and the copies is computed from its own
update; what it does beside that to chains and counters leaves the lists (`Dev.Listed`) and the copies (`Dev.Pooled`) alone. -/
theorem releaseListsCloseAndCopiesSettle : Obligations.ReleaseListsCloseAndCopiesSettle :=
  ⟨fun _ _ _ _ => releaseRec_carried, fun _ _ _ _ => releaseRec_late_carried, fun _ _ _ => releaseMark_waits_carried,
    fun _ _ _ => releaseMark_closes_carried, fun _ _ _ _ => releaseMark_other_carried, fun _ _ => releaseDeadline_carried,
    fun _ _ _ _ _ _ _ _ hc hp _ _ => rewriteComplete_carried hc hp, fun _ _ _ _ _ _ _ _ => enqOutcome_noted_carried,
    fun _ _ _ _ _ _ _ _ => enqOutcome_refused_carried, fun _ _ _ _ _ _ _ _ _ _ => enqOutcome_accepted_carried⟩

end Sys2Proof.Machine

namespace Sys2Proof.Machine

/-- `n` bytes spell a number. -/
theorem length_bytesLE (n v : Nat) : (bytesLE n v).length = n := by
  induction n generalizing v with
  | zero => rfl
  | succ n ih => rw [bytesLE, List.length_cons, ih]

/-- The last stitch of a chain is followed by none. -/
theorem follow_descOfWord_of_last {w : Nat} (h : bitOf w 62 = true) (x : Nat) : Dev.follow x (descOfWord w) = none := if_pos h

namespace Dev

/-! ### Queues and transmit units -/

section
variable (d : Dev) (e : Region) (p q k : Nat)

theorem sending_setSending (s : Option Sending) : (d.setSending e p s).sending e k = if k = p then s else d.sending e k := by
  rw [sending, setSending, egress_modEgress_same]
  exact Sparse.get_set ..

@[simp] theorem sending_setSending_same (s : Option Sending) : (d.setSending e p s).sending e p = s := by
  rw [sending_setSending, if_pos rfl]

@[simp] theorem g_send (src dst : Nat) (m : Msg) : (d.send src dst m).g e = d.g e := (rfl)

@[simp] theorem queue_setSending (s : Option Sending) : (d.setSending e p s).queue e k = d.queue e k := by
  rw [queue, setSending, egress_modEgress_same, queue]


theorem queue_setQueue (l : List QueueEntry) : (d.setQueue e q l).queue e k = if k = q then l else d.queue e k := by
  rw [queue, setQueue, g_setFld, g_setFld, egress_modEgress_same]
  exact Sparse.get_set ..

@[simp] theorem queue_setQueue_same (l : List QueueEntry) : (d.setQueue e q l).queue e q = l := by rw [queue_setQueue, if_pos rfl]

@[simp] theorem spillBacklog_setQueue (l : List QueueEntry) :
    ((d.setQueue e q l).g e).egress.spillBacklog = (d.g e).egress.spillBacklog := by
  rw [setQueue, g_setFld, g_setFld, egress_modEgress_same]

/-- A step that leaves the part alone for every element of a list leaves it alone. -/
theorem each_eq_self {α : Type} {d : Dev} {f : α → Dev → Dev} {l : List α} (h : ∀ a ∈ l, f a d = d) : d.each l f = d := by
  unfold each
  induction l with
  | nil => rfl
  | cons a t ih => rw [List.foldl_cons, h a (by simp), ih fun b hb => h b (by simp [hb])]

end

/-- The queues of every region, and what its transmit units send, stand as they did. -/
def Queued (d e : Dev) : Prop :=
  ∀ q, (e.g q).egress.queues = (d.g q).egress.queues ∧ (e.g q).egress.sending = (d.g q).egress.sending

theorem Queued.refl (d : Dev) : d.Queued d := fun _ => ⟨rfl, rfl⟩

section
variable {d0 d e : Dev} (h : d0.Queued d)
include h

theorem Queued.queue (r : Region) (q : Nat) : d.queue r q = d0.queue r q := by rw [Dev.queue, (h r).1, Dev.queue]
theorem Queued.sending (r : Region) (p : Nat) : d.sending r p = d0.sending r p := by rw [Dev.sending, (h r).2, Dev.sending]

theorem Queued.trans (k : d.Queued e) : d0.Queued e := fun q => ⟨(k q).1.trans (h q).1, (k q).2.trans (h q).2⟩

theorem Queued.kept {l : List Part} (k : d.Kept l e) (hl : Part.egress ∉ l := by decide) : d0.Queued e :=
  h.trans fun q => by simp only [k.1 .egress hl q, and_self]

theorem Queued.modEgress {r : Region} {f : EgressState → EgressState}
    (hf : ∀ x, (f x).queues = x.queues ∧ (f x).sending = x.sending := by exact fun _ => ⟨rfl, rfl⟩) : d0.Queued (d.modEgress r f) :=
  h.trans fun q => by
    rw [egress_modEgress]
    split_ifs with hq
    · rw [hq]; exact hf _
    · exact ⟨rfl, rfl⟩

theorem Queued.ite {c : Prop} [Decidable c] (k : d0.Queued e) : d0.Queued (if c then d else e) := by
  split_ifs
  · exact h
  · exact k

theorem Queued.spend {r : Region} {on : Fld} {k n : Nat} : d0.Queued (d.spend r on k n) := .ite h.modEgress h

theorem Queued.capture {r : Region} {p ns sec : Nat} {f : List Byte} : d0.Queued (d.capture r p f ns sec) := by
  have hr {e : Dev} (k : d0.Queued e) {n : Nat} : d0.Queued (e.raise r n) := k.kept ((Kept.refl _ e).raise fun _ => id)
  have hs {l : List PtsEntry} : d0.Queued (d.setPts r p l) := h.modEgress.kept (setFld_kept ..)
  unfold Dev.capture
  split
  · exact h
  · exact .ite h (.ite (hr (h.kept (addSat_kept ..))) (.ite (hr hs) hs))

/-! ### Scheduling (R588) -/

/-- A choice writes deficits alone. -/
theorem Queued.choose {r : Region} {l : List Member} {n : Nat} (hc : d.choose r l = some (e, n)) : d0.Queued e := by
  have hd {d : Dev} (h : d0.Queued d) (l : List Member) (k : Nat) :
      d0.Queued (d.each l fun m d => d.setDeficit r m.key (d.deficit r m.key + k * m.quantum)) := by
    unfold Dev.each
    induction l generalizing d with
    | nil => exact h
    | cons m t ih => exact ih h.modEgress
  unfold Dev.choose at hc
  dsimp only at hc
  split at hc
  · cases hc
  · split at hc
    · cases hc
    · cases hc
      exact (hd h _ _).modEgress

theorem Queued.chooseQueue {r : Region} {p g : Nat} {x : Nat × Nat} (hc : d.chooseQueue r p g = some (e, x)) : d0.Queued e := by
  unfold Dev.chooseQueue at hc
  dsimp only at hc
  split at hc
  next => cases hc
  next hx =>
    cases hc
    exact h.choose hx

theorem Queued.nextQueue {r : Region} {p q : Nat} (hc : d.nextQueue r p = some (e, q)) : d0.Queued e := by
  unfold Dev.nextQueue at hc
  dsimp only at hc
  split at hc
  next => cases hc
  next hx =>
    split at hc
    next => cases hc
    next hy =>
      cases hc
      exact (h.choose hx).chooseQueue hy

end

/-- A queue whose head is not poisoned drops nothing (R199). -/
theorem dropPoisoned_of_sound {d : Dev} {e : Region} {q : Nat} (h : ∀ y ∈ (d.queue e q).head?, y.record.poisoned = false) :
    d.dropPoisoned e q = d := by
  refine if_pos ?_
  cases hq : d.queue e q with
  | nil => rfl
  | cons x t => simp [h x (by simp [hq])]

/-! ### Body reads (R590, R662) -/

section
variable {d : Dev} {e : Region} {p n : Nat}

/-- Reading a body leaves the queues alone. -/
theorem queue_readBody (q : Nat) : (d.readBody e p n).queue e q = d.queue e q := by
  induction n generalizing d with
  | zero => rfl
  | succ n ih =>
    unfold readBody
    split
    · rfl
    · split
      · rfl
      · split_ifs
        · rw [ih, queue_setSending]
        · rw [queue, Dev.g_send, request, g_modR_same, queue]

/-- The transmit unit reads the body of the packet that it sends. -/
theorem sending_readBody {q : Nat} {x : QueueEntry} (h : ∃ y, d.sending e p = some y ∧ y.queue = q ∧ y.entry = x) :
    ∃ y, (d.readBody e p n).sending e p = some y ∧ y.queue = q ∧ y.entry = x := by
  induction n generalizing d with
  | zero => exact h
  | succ n ih =>
    obtain ⟨y, hy, hq, hx⟩ := h
    unfold readBody
    simp only [hy]
    split
    · exact ⟨y, hy, hq, hx⟩
    · split_ifs
      · exact ih ⟨_, sending_setSending_same .., hq, hx⟩
      · refine ⟨y, ?_, hq, hx⟩
        rw [sending, Dev.g_send, request, g_modR_same]
        exact hy

theorem readBody_of_read {x : Sending} (hs : d.sending e p = some x) (hx : x.next = none) : d.readBody e p n = d := by
  cases n with
  | zero => rfl
  | succ n =>
    unfold readBody
    simp only [hs, hx]

end

/-! ### Giving a chain back, and drops (R201, R578) -/

section
variable {d0 d : Dev} (h : d0.Pooled d)
include h

theorem Pooled.send {p q : Nat} {m : Msg} : d0.Pooled (d.send p q m) := h.signalled (signalled_send ..)

theorem Pooled.giveBack {r : Region} {q : Nat} {x : QueueEntry} : d0.Pooled (d.giveBack r q x) :=
  .ite (.ite h.deref h.free') (.ite h.send h.send)

theorem Pooled.queued : d0.Queued d := fun q => by
  rw [h.egress q]
  exact ⟨rfl, rfl⟩

end

theorem Settled.queued {d0 d : Dev} (h : d0.Settled d) : d0.Queued d := fun q => by
  rw [h.egress q]
  exact ⟨rfl, rfl⟩

theorem Queued.dropQueued {d0 d : Dev} (h : d0.Queued d) {r : Region} {q code : Nat} {x : QueueEntry} :
    d0.Queued (d.dropQueued r q code x) := by
  have hc : d0.Queued (d.dropCount r code) := h.kept ((Kept.refl _ d).dropCount fun _ => id)
  exact .ite (hc.trans (Pooled.refl _).giveBack.queued) (hc.trans (Settled.refl _).reportOutcome.queued)

theorem pair_setPair (d : Dev) {a b v : Nat} (hab : a ≠ b) (hv : v < 2 ^ 64) : (d.setPair a b v).pair a b = v := by
  rw [pair, reg_setPair_lo d hab, reg_setPair_hi, BitVec.toNat_ofNat, BitVec.toNat_ofNat]
  omega

theorem RegsBut.pair {own : Nat → Prop} {d e : Dev} (h : d.RegsBut own e) {a b : Nat} (ha : ¬ own a) (hb : ¬ own b) :
    e.pair a b = d.pair a b := by
  rw [Dev.pair, h a ha, h b hb, Dev.pair]

/-- The counters of drops are those of no other operation. -/
theorem not_poolReg_drop (r : Region) {code : Nat} (h : code < 0x1000) :
    ¬ poolReg (RGN_DROP_LO r.val code) ∧ ¬ poolReg (RGN_DROP_HI r.val code) := by
  rw [RGN_DROP_LO, RGN_DROP_HI, poolReg_rgnReg r.isLt (by omega), poolReg_rgnReg r.isLt (by omega)]
  omega

theorem pair_dropCount (d : Dev) (r : Region) {code : Nat} (h : code < 0x1000) :
    (d.dropCount r code).pair (RGN_DROP_LO r.val code) (RGN_DROP_HI r.val code)
      = min (2 ^ 48 - 1) (d.pair (RGN_DROP_LO r.val code) (RGN_DROP_HI r.val code) + 1) := by
  obtain ⟨hl, hh⟩ := not_poolReg_drop r h
  have hne : RGN_DROP_LO r.val code ≠ RGN_DROP_HI r.val code := by
    rw [RGN_DROP_LO, RGN_DROP_HI, Ne, rgnReg_inj]
    omega
  rw [dropCount, (signalled_event ..).2.pair (hl ∘ poolReg_of_signalReg _) (hh ∘ poolReg_of_signalReg _), pair_setPair _ hne (by omega)]

/-- A dropped entry is counted once under its code. -/
theorem pair_dropQueued (d : Dev) (r : Region) (q : Nat) (x : QueueEntry) {code : Nat} (h : code < 0x1000) :
    (d.dropQueued r q code x).pair (RGN_DROP_LO r.val code) (RGN_DROP_HI r.val code)
      = min (2 ^ 48 - 1) (d.pair (RGN_DROP_LO r.val code) (RGN_DROP_HI r.val code) + 1) := by
  obtain ⟨hl, hh⟩ := not_poolReg_drop r h
  have hreg : (d.dropCount r code).RegsBut poolReg (d.dropQueued r q code x) :=
    .ite (Pooled.refl _).giveBack.regs (Settled.refl _).reportOutcome.regs
  rw [hreg.pair hl hh, pair_dropCount d r h]

end Dev
end Sys2Proof.Machine

namespace Sys2Proof.Machine

/-- A request in its turn that its target can serve is taken off the wire and served. -/
theorem Carried.of_serveReq {c : Instr} {s : State} {l : List Part} {P : Dev → Prop} {r src : Region} {m : Msg} {waits : Dev → Bool}
    {f : Dev → Dev} {d : Dev} (hx : exec c s = s.serveReq r src m waits f) (hm : s.dev.inTurn src.val r.val m = true)
    (hw : waits s.dev = false) (hf : f (s.dev.receive src.val r.val m) = d) (ho : s.dev.OnlyIn l d)
    (hp : P (d.withFree (s.dev.free + 1))) : Carried c s l P := by
  have hn : s.dev.nextInOrder src.val r.val m = true := (Bool.and_eq_true_iff.1 hm).1
  refine .of_doing (hx.trans rfl) ?_ ho hp
  simp only [hn, hm, hw, hf, Bool.true_eq_false, Bool.false_eq_true, if_false]

namespace Dev

@[simp] theorem readStitch_receive (d : Dev) (a b h : Nat) (m : Msg) : (d.receive a b m).readStitch h = d.readStitch h := (rfl)

theorem readStitch_desc (d : Dev) (h : Nat) : (d.readStitch h).2.1 = d.desc h := by
  unfold readStitch
  dsimp only
  split_ifs <;> rfl

/-- The request that a response answers is taken off the outstanding ones. -/
theorem answered_of_find {d : Dev} {r : Region} {tag : Nat} {q : Request} (h : (d.g r).requests.find? (fun q => q.tag == tag) = some q) :
    d.answered r tag = some (d.modR r (fun g => { g with requests := g.requests.erase q }), q.purpose) := by
  unfold answered
  simp only [h]

@[simp] theorem requests_setSending (d : Dev) (r : Region) (p : Nat) (s : Option Sending) :
    ((d.setSending r p s).g r).requests = (d.g r).requests := by
  rw [setSending, modEgress, g_modR_same]

/-- The last stitch of a chain leaves none to be read. -/
theorem next_takeStitch_of_last {w : Nat} (h : bitOf w 62 = true) (x : Sending) (b : List Byte) :
    (takeStitch x .ok (descOfWord w) b).next = none := by
  unfold takeStitch
  dsimp only
  rw [follow_descOfWord_of_last h, ite_self]

/-- What is put in the place of an entry that a queue holds stands in the queue. -/
theorem mem_map_replace {l : List QueueEntry} {mine : QueueEntry → Bool} {x y : QueueEntry} (hx : x ∈ l) (hm : mine x = true) :
    y ∈ l.map fun z => if mine z then y else z :=
  List.mem_map.2 ⟨x, hx, if_pos hm⟩

/-- A queue of a port from which a packet is started holds the rest, and the transmit unit sends the packet. -/
theorem startSending_of_head {d : Dev} {r : Region} {p q : Nat} {x : QueueEntry} {t : List QueueEntry} (h : d.queue r q = x :: t) :
    (∀ k, (d.startSending r p q).queue r k = if k = q then t else d.queue r k)
      ∧ ∃ y, (d.startSending r p q).sending r p = some y ∧ y.queue = q ∧ y.entry = x := by
  unfold startSending
  simp only [h]
  refine ⟨fun k => ?_, sending_readBody ⟨_, sending_setSending_same .., rfl, rfl⟩⟩
  rw [queue_readBody, queue_setSending, queue_setQueue]
  exact if_congr Iff.rfl rfl ((Queued.refl d).spend.spend.spend.queue r k)

end Dev

section
variable {s : State} {r src : Region} {p : Port} {ns sec : Nat}

/-! ### Body reads (R569, R662) -/

/-- A body read is answered with the stitch at its handle. -/
theorem bodyRd_carried {handle tag : Nat} (ht : s.dev.inTurn src.val r.val (.bodyRd handle tag) = true)
    (hr : s.dev.rspRoom r src (.bodyData .ok tag 0 (List.replicate 256 0)) = true) :
    Carried (.bodyRd r src handle tag) s [.wire] fun e => e.wire = s.dev.wire.erase ⟨src.val, r.val, .bodyRd handle tag⟩
      ++ [⟨r.val, src.val, .bodyData (s.dev.readStitch handle).1 tag (s.dev.desc handle).word (s.dev.readStitch handle).2.2⟩] := by
  have hx : exec (.bodyRd r src handle tag) s = execBodyRd r src handle tag s := rfl
  refine .of_serveReq (d := (s.dev.receive src.val r.val (.bodyRd handle tag)).send r.val src.val _) hx ht (congrArg not hr) ?_
    (((Dev.Kept.refl _ _).receive (by decide)).send (by decide)).1 rfl
  dsimp only
  rw [Dev.readStitch_receive, Dev.readStitch_desc]
  rfl

/-- The last stitch is taken by the transmit unit that asked for it. -/
theorem bodyData_carried {tag descriptor dst p : Nat} {data : List Byte} {x : Sending}
    (hf : (s.dev.g r).requests.find? (fun q => q.tag == tag) = some ⟨tag, dst, .body p⟩) (hs : s.dev.sending r p = some x)
    (hl : bitOf descriptor 62 = true) (ht : s.dev.inTurn src.val r.val (.bodyData .ok tag descriptor data) = true) :
    Carried (.bodyData r src .ok tag descriptor data) s [.wire, .egress, .requests] fun e =>
      e.sending r p = some (Dev.takeStitch x .ok (descOfWord descriptor) data)
        ∧ (e.g r).requests = (s.dev.g r).requests.erase ⟨tag, dst, .body p⟩ ∧ ∀ k, k ≠ p → e.sending r k = s.dev.sending r k := by
  have hx : exec (.bodyData r src .ok tag descriptor data) s = execBodyData r src .ok tag descriptor data s := rfl
  let y := Dev.takeStitch x .ok (descOfWord descriptor) data
  let d := (s.dev.receive src.val r.val (.bodyData .ok tag descriptor data)).modR r
    fun g => { g with requests := g.requests.erase ⟨tag, dst, .body p⟩ }
  have hreq : (d.g r).requests = (s.dev.g r).requests.erase ⟨tag, dst, .body p⟩ := by rw [Dev.g_modR_same, Dev.g_receive]
  have hsend (k : Nat) : d.sending r k = s.dev.sending r k := by rw [Dev.sending, Dev.g_modR_same, Dev.g_receive, Dev.sending]
  have hans := Dev.answered_of_find (d := s.dev.receive src.val r.val (.bodyData .ok tag descriptor data)) hf
  have hread := Dev.readBody_of_read (n := 200) (Dev.sending_setSending_same d r p (some y)) (Dev.next_takeStitch_of_last hl x data)
  refine .of_deliverAll_eq (d := d.setSending r p (some y)) hx ht ?_ ?_ ⟨Dev.sending_setSending_same .., ?_, fun k hk => ?_⟩
  · simp only [hans]
    rw [hsend, hs]
    exact hread
  · exact ((Dev.Kept.answered hans ((Dev.Kept.refl _ _).receive (by decide)) (by decide)).setSending (by decide)).1
  · rw [Dev.g_withFree, Dev.requests_setSending, hreq]
  · rw [Dev.sending_withFree, Dev.sending_setSending, if_neg hk, hsend]

/-! ### Frames that have left their port (R198, R578) -/

/-- The transmit unit is free again, and the frame is on the line, padded. -/
theorem transmitComplete_carried {x : Sending} (hs : s.dev.sending r p.val = some x) (hn : x.next = none) (hb : x.bad = false) :
    Carried (.transmitComplete r p ns sec) s
      [.regs, .mem, .wire, .line, .ctxs, .packets, .endpoints, .commit, .pool, .egress, .journal] fun e =>
      e.sending r p.val = none ∧ ∃ pad : List Byte, pad.length = 60 - (x.got.take (Dev.sentLength x.entry)).length
        ∧ .frame r.val p.val (x.got.take (Dev.sentLength x.entry) ++ pad) ∈ e.line := by
  have hx : exec (.transmitComplete r p ns sec) s = execTransmitComplete r p ns sec s := rfl
  let d := s.dev.setSending r p.val none
  let pad := bytesLE (60 - (x.got.take (Dev.sentLength x.entry)).length) (d.freeNat 80)
  let f := x.got.take (Dev.sentLength x.entry) ++ pad
  let d1 := d.emit (.frame r.val p.val f)
  let d2 := d1.event r 0x141 p.val (Dev.wireLength x.entry)
  let d3 := d2.capture r p.val f ns sec
  have hpool : d3.Pooled (d3.giveBack r x.queue x.entry) := (Dev.Pooled.refl _).giveBack
  have hq : d.Queued d3 := (((Dev.Queued.refl d).kept ((Dev.Kept.refl [.line] d).emit (by decide))).kept
    ((Dev.Kept.refl [.regs, .wire, .ctxs] d1).event (by decide))).capture
  have hline : d1.Puts d3 := ((Dev.Puts.refl d1).kept ((Dev.Kept.refl [.regs, .wire, .ctxs] _).event (by decide))).kept
    ((Dev.Kept.refl [.regs, .wire, .ctxs, .egress] _).capture (by decide))
  refine .of_doing (d := d3.giveBack r x.queue x.entry) hx ?_ ?_ ⟨?_, pad, length_bytesLE .., ?_⟩
  · simp only [hs, hn, hb, Option.isSome_none, Bool.false_eq_true, if_false]
    rfl
  · exact (((((Dev.Kept.refl _ s.dev).setSending (by decide)).emit (by decide)).event (by decide)).capture (by decide)
      |>.giveBack (by decide)).1
  · rw [Dev.sending_withFree, hpool.sending, hq.sending, Dev.sending_setSending_same]
  · exact hpool.line.mem (hline.mem (List.mem_append_right _ (List.mem_singleton_self _)))

/-- A frame in error is dropped, and the transmit unit is free again. -/
theorem transmitComplete_bad_carried {x : Sending} (hs : s.dev.sending r p.val = some x) (hn : x.next = none) (hb : x.bad = true) :
    Carried (.transmitComplete r p ns sec) s
      [.regs, .mem, .wire, .line, .ctxs, .packets, .endpoints, .commit, .pool, .egress, .journal] fun e =>
      e.sending r p.val = none ∧ e.pair (RGN_DROP_LO r.val 0x0E) (RGN_DROP_HI r.val 0x0E)
        = min (2 ^ 48 - 1) (s.dev.pair (RGN_DROP_LO r.val 0x0E) (RGN_DROP_HI r.val 0x0E) + 1) := by
  have hx : exec (.transmitComplete r p ns sec) s = execTransmitComplete r p ns sec s := rfl
  refine .of_doing (d := (s.dev.setSending r p.val none).dropQueued r x.queue 0x0E x.entry) hx ?_ ?_ ⟨?_, ?_⟩
  · simp only [hs, hn, hb, Option.isSome_none, Bool.false_eq_true, if_false, if_true]
  · exact (((Dev.Kept.refl _ s.dev).setSending (by decide)).dropQueued (by decide)).1
  · rw [Dev.sending_withFree, (Dev.Queued.refl _).dropQueued.sending, Dev.sending_setSending_same]
  · exact Dev.pair_dropQueued _ r x.queue x.entry (by norm_num)

/-! ### Scheduling (R588) -/

/-- An idle port with its link up takes the head of the queue that is selected. -/
theorem scheduleDecision_carried {q : Nat} {x : QueueEntry} {t : List QueueEntry} (hi : s.dev.sending r p.val = none)
    (hu : (s.dev.unit r 1 p.val).effective ≠ 0) (hl : s.dev.linkUp r p.val = true) (hp : s.dev.portTrades r p.val = true)
    (hg : ∀ k ∈ s.dev.portQueues r p.val, ∀ y ∈ (s.dev.queue r k).head?, y.record.poisoned = false)
    (hn : (s.dev.nextQueue r p.val).map (·.2) = some q) (hq : s.dev.queue r q = x :: t) :
    Carried (.scheduleDecision r p) s [.regs, .wire, .egress, .requests, .nextTag] fun e =>
      e.queue r q = t ∧ (∃ y, e.sending r p.val = some y ∧ y.queue = q ∧ y.entry = x)
        ∧ ∀ k, k ≠ q → e.queue r k = s.dev.queue r k := by
  have hx : exec (.scheduleDecision r p) s = execScheduleDecision r p s := rfl
  obtain ⟨⟨d, q⟩, hnext, rfl⟩ := Option.map_eq_some_iff.1 hn
  have hsame : s.dev.Queued d := (Dev.Queued.refl _).nextQueue hnext
  obtain ⟨hqueue, hsend⟩ := Dev.startSending_of_head (p := p.val) ((hsame.queue r q).trans hq)
  have hdrop : (s.dev.each (s.dev.portQueues r p.val) fun q d => d.dropPoisoned r q) = s.dev :=
    Dev.each_eq_self fun k hk => Dev.dropPoisoned_of_sound (hg k hk)
  refine .of_run_eq (d := d.startSending r p.val q) hx ?_ ?_ ⟨?_, hsend, fun k hk => ?_⟩
  · dsimp only
    rw [hdrop, if_neg (by simp [hi, hu, hl, hp]), hnext]
  · exact ((Dev.Kept.nextQueue hnext (Dev.Kept.refl _ _) (by decide)).startSending (by decide)).1
  · exact (hqueue q).trans (if_pos rfl)
  · exact (hqueue k).trans ((if_neg hk).trans (hsame.queue r k))

/-! ### Spill copies (R587) -/

/-- The copy in deep stitches takes the place of the chain. -/
theorem spillCopyDone_carried {queue copy h : Nat} {stamp : Stamp} {x : QueueEntry}
    (hf : (s.dev.queue r queue).find? (fun x => (x.record.stamp == stamp && x.record.copy == copy) && x.spilling && x.ready) = some x)
    (ha : ((s.dev.modEgress r fun g => { g with spillBacklog := g.spillBacklog - x.stitches }).alloc r reqSpill 1
      (s.dev.fld (RGN_EQ_CFG_pfc_class r.val queue))
      (Dev.stitchSizes (min (Dev.sentLength x) (s.dev.chainBytes 512 x.head 0).1.length))).2 = .ok h) :
    Carried (.spillCopyDone r queue stamp copy) s [.regs, .mem, .wire, .line, .ctxs, .endpoints, .pool, .egress, .journal] fun e =>
      (∃ y ∈ e.queue r queue, y.head = h ∧ y.spilling = false ∧ y.bySpill = false ∧ y.record.stamp = stamp ∧ y.record.copy = copy)
        ∧ (e.g r).egress.spillBacklog = (s.dev.g r).egress.spillBacklog - x.stitches := by
  have hx : exec (.spillCopyDone r queue stamp copy) s = execSpillCopyDone r queue stamp copy s := rfl
  let mine (x : QueueEntry) : Bool := x.record.stamp == stamp && x.record.copy == copy
  obtain ⟨hcond, hmem⟩ := And.intro (List.find?_some hf) (List.mem_of_find?_eq_some hf)
  have hmine : mine x = true := (Bool.and_eq_true_iff.1 (Bool.and_eq_true_iff.1 hcond).1).1
  let b := (s.dev.chainBytes 512 x.head 0).1.take (Dev.sentLength x)
  have hb : b.length = min (Dev.sentLength x) (s.dev.chainBytes 512 x.head 0).1.length := List.length_take
  let d := s.dev.modEgress r fun g => { g with spillBacklog := g.spillBacklog - x.stitches }
  let sizes := Dev.stitchSizes b.length
  let d1 := (d.alloc r reqSpill 1 (d.fld (RGN_EQ_CFG_pfc_class r.val queue)) sizes).1
  have halloc : d.alloc r reqSpill 1 (d.fld (RGN_EQ_CFG_pfc_class r.val queue)) sizes = (d1, .ok h) := by
    refine Prod.ext rfl ?_
    rw [← ha, ← hb]
    rfl
  let d2 := (d1.writeChain (d1.chain 512 h) b).handover (requesterId r.val reqSpill) h (requesterId r.val (reqTx (d1.queuePort r queue)))
  let d3 := d2.giveBack r queue x
  have hpool : d.Pooled d3 := ((Dev.Pooled.refl d).alloc (by decide)).writeChain.handover.giveBack
  let y : QueueEntry := { x with
    head := h, spilling := false, bySpill := false, trunc := 0, stitches := (b.length + 255) / 256,
    record := { x.record with
      mirrorTail := false, poisoned := x.record.poisoned || (s.dev.chainBytes 512 x.head 0).2, length := b.length } }
  let l := (d3.queue r queue).map fun z => if mine z then y else z
  have hold : x ∈ d3.queue r queue := by
    rw [hpool.queue, Dev.queue, Dev.egress_modEgress_same]
    exact hmem
  have hyl : y ∈ l := Dev.mem_map_replace hold hmine
  obtain ⟨hstamp, hcopy⟩ := Bool.and_eq_true_iff.1 hmine
  refine .of_doing (d := d3.setQueue r queue l) hx ?_ ?_ ⟨⟨y, ?_, rfl, rfl, rfl, eq_of_beq hstamp, eq_of_beq hcopy⟩, ?_⟩
  · simp only [hf]
    rw [halloc]
  · exact (((Dev.Kept.refl Dev.poolParts s.dev).modEgress (by decide)).1.trans hpool.parts).trans
      ((Dev.Kept.refl _ d3).setQueue (by decide)).1
  · rw [Dev.queue_withFree, Dev.queue_setQueue_same]
    exact hyl
  · rw [Dev.g_withFree, Dev.spillBacklog_setQueue, hpool.egress, Dev.egress_modEgress_same]

end

/-- Settles O47, command by command. What a choice, a body read, a drop and a chain given back leave alone (`Dev.Queued`, `Dev.Pooled`)
carries what the command itself writes to the end. -/
theorem framesAreScheduledReadAndSent : Obligations.FramesAreScheduledReadAndSent :=
  ⟨fun _ _ _ _ _ _ _ => spillCopyDone_carried, fun _ _ _ _ _ _ => scheduleDecision_carried, fun _ _ _ _ _ _ => transmitComplete_carried,
    fun _ _ _ _ _ _ => transmitComplete_bad_carried, fun _ _ _ _ _ => bodyRd_carried, fun _ _ _ _ _ _ _ _ _ => bodyData_carried⟩

end Sys2Proof.Machine

namespace Sys2Proof.Machine

namespace Dev

/-! ### Counters that stop at their highest value (R25) -/

theorem fld_addSat_same (d : Dev) (f : Fld) (n : Nat) (h : f.lo + f.width ≤ 32) :
    (d.addSat f n).fld f = min (2 ^ f.width - 1) (d.fld f + n) := by
  rw [addSat, fld_setFld_same _ _ _ h, Nat.mod_eq_of_lt]
  have := Nat.two_pow_pos f.width
  omega

/-! ### What the MAC notes of a frame's FEC (R715) -/

/-- What a frame that arrives leaves noted of its FEC. -/
def fecNoted (d : Dev) (r : Region) (p : Nat) (bad : Bool) (corrected : Nat) : Dev :=
  let d := d.addSat (RGN_PORT_FEC_corrected r.val p) corrected
  if bad then (d.addSat (RGN_PORT_FEC_uncorrected r.val p) 1).raise r (0x380 + p * 4 + 1) else d

/-- The registers of a port are none of interrupts and monitors. -/
theorem not_signalReg_port (r : Region) {p x : Nat} (hp : p < 8) (hx : x < 0x40) : ¬ signalReg (rgnReg r.val (0x800000 + x + p * 0x40)) :=
  not_signalReg_rgn r (by omega) (by omega) (by omega)

section
variable (d : Dev) (r : Region) {p : Nat} (bad : Bool) (corrected : Nat)

theorem fecNoted_kept : d.Kept [.regs, .wire, .ctxs] (d.fecNoted r p bad corrected) := by
  have h : d.Kept [.regs, .wire, .ctxs] (d.addSat (RGN_PORT_FEC_corrected r.val p) corrected) := (addSat_kept ..).mono (by decide)
  unfold fecNoted
  cases bad with
  | false => exact h
  | true => exact (h.then (addSat_kept ..) (by decide)).raise (by decide)

theorem regsSig_fecNoted : d.RegsSig [RGN_PORT_FEC r.val p] (d.fecNoted r p bad corrected) := by
  have h : d.RegsSig [RGN_PORT_FEC r.val p] (d.addSat (RGN_PORT_FEC_corrected r.val p) corrected) :=
    (RegsBut.refl _ d).addSat (.inl (by simp [RGN_PORT_FEC_corrected]))
  exact .ite (.signalled (.addSat h (.inl (by simp [RGN_PORT_FEC_uncorrected]))) (signalled_raise ..) RegsSig.of_signal) h

variable (hp : p < 8)
include hp

/-- A register of the port beside that of its FEC. -/
theorem fld_fecNoted {x lo width : Nat} (hx : x < 0x40) (hne : x ≠ 0x10) :
    (d.fecNoted r p bad corrected).fld ⟨rgnReg r.val (0x800000 + x + p * 0x40), lo, width⟩
      = d.fld ⟨rgnReg r.val (0x800000 + x + p * 0x40), lo, width⟩ := by
  refine (d.regsSig_fecNoted r bad corrected).fld ?_
  rintro (hm | hs)
  · rw [List.mem_singleton, RGN_PORT_FEC, rgnReg_inj] at hm
    omega
  · exact not_signalReg_port r hp hx hs

theorem corrected_fecNoted : (d.fecNoted r p bad corrected).fld (RGN_PORT_FEC_corrected r.val p)
    = min 0xFFFF (d.fld (RGN_PORT_FEC_corrected r.val p) + corrected) := by
  have h := d.fld_addSat_same (RGN_PORT_FEC_corrected r.val p) corrected (by simp [RGN_PORT_FEC_corrected])
  unfold fecNoted
  cases bad with
  | false => exact h
  | true =>
    exact ((signalled_raise ..).fld (not_signalReg_port r hp (x := 0x10) (by norm_num))).trans
      ((fld_setFld_beside _ _ _ _ (by simp [RGN_PORT_FEC_uncorrected]) (.inl (by simp [RGN_PORT_FEC_corrected, RGN_PORT_FEC_uncorrected]))).trans h)

end

/-! ### The chain of a frame (R165, R561) -/

section
variable {d0 d e : Dev} (h : d0.Pooled d)
include h

theorem Pooled.deepRefused {r : Region} : d0.Pooled (d.err (RGN_EQ_ERR_deep_refused r.val) r 0x202) :=
  (h.setReg ((poolReg_rgnReg r.isLt (by norm_num)).2 (.inr (.inl (by norm_num))))).raise

theorem Pooled.takeFrame {r : Region} {l n : Nat} {x : List (Nat × Nat)} (hl : l < 256) (he : d.takeFrame r l n = some (e, x)) : d0.Pooled e := by
  unfold Dev.takeFrame at he
  extract_lets k at he
  split at he
  · cases he
  next d1 heads h1 =>
    have hd1 : d0.Pooled d1 := h.takeStitches hl h1
    dsimp only at he
    split_ifs at he
    · cases he
      exact hd1
    · split at he
      next h2 =>
        cases he
        exact hd1.takeStitches hl h2
      next =>
        obtain ⟨y, h2, hy⟩ := Option.map_eq_some_iff.1 he
        cases hy
        exact hd1.deepRefused.takeStitches hl h2

theorem Pooled.takeIn {r : Region} {l cls len : Nat} (hl : l < 256) : d0.Pooled (d.takeIn r l cls len).1 := by
  unfold Dev.takeIn
  refine .ite_fst h ?_
  split
  · exact h
  next hx => exact (h.takeFrame hl hx).charge.linkChain.event

theorem Pooled.generalPool (r : Region) : d.generalPool r = d0.generalPool r := by
  have hn : ¬ poolReg (RGN_DSP_CTL r.val) := by
    rw [RGN_DSP_CTL, poolReg_rgnReg r.isLt (by norm_num)]
    norm_num
  rw [Dev.generalPool, Dev.generalPool, h.regs.fld hn]

end

/-! ### The stamp (R160–R163) -/

/-- The next packet is stamped with its source port, its class, the port's sequence number, the tick and its time of arrival. -/
theorem stampPacket_stamps (d : Dev) (r : Region) (l port tc head len time ns sec : Nat) (reserved : Bool) :
    (d.stampPacket r l port tc head len time ns sec reserved).nextPacket = d.nextPacket + 1
      ∧ (∀ m, m ≠ d.nextPacket → (d.stampPacket r l port tc head len time ns sec reserved).pkt m = d.pkt m)
      ∧ (d.stampPacket r l port tc head len time ns sec reserved).nextSeq r port = d.nextSeq r port + 1
      ∧ ∃ q, (d.stampPacket r l port tc head len time ns sec reserved).pkt d.nextPacket = some q ∧ q.stage = .stamped ∧ q.length = len
        ∧ q.head = head ∧ q.stamp = ⟨port, tc, d.nextSeq r port, (d.g r).tick, time % 2 ^ 13⟩ := by
  unfold stampPacket
  extract_lets seq d1 d2 d3 stamp p d4 d5
  have h1 : d.Kept [.front] d1 := (Kept.refl _ d).modFront (by decide)
  have h2 : d1.Kept [.regs, .mem, .wire, .line, .ctxs, .endpoints, .pool, .journal, .dispatch] d2 := (Kept.refl _ d1).handover (by decide)
  have h3 : d1.Kept [.regs, .mem, .wire, .line, .ctxs, .endpoints, .pool, .journal, .dispatch] d3 := by
    unfold d3
    split_ifs
    · exact h2
    · exact (h2.modDsp (by decide)).pressure (by decide)
  have h5 {f : Fld} {v : Nat} : d5.Kept [.regs, .wire, .ctxs] ((d5.setFld f v).event r 0x100 l) :=
    ((Kept.refl _ d5).setFld (by decide)).event (by decide)
  have hnext : d3.nextPacket = d.nextPacket := (h3.1 .nextPacket (by decide)).trans (h1.1 .nextPacket (by decide))
  have hpkt (m : Nat) : d3.pkt m = d.pkt m := pkt_congr ((h3.1 .packets (by decide)).trans (h1.1 .packets (by decide))) m
  have htick : (d3.g r).tick = (d.g r).tick := (h3.1 .tick (by decide) r).trans (h1.1 .tick (by decide) r)
  have hfront : (d3.g r).front = (d1.g r).front := h3.1 .front (by decide) r
  have hseqs : (d1.g r).front.seqs = Sparse.set (fun _ => 0) (d.g r).front.seqs port (seq + 1) := by
    unfold d1 modFront
    rw [g_modR_same]
  have h4 (m : Nat) : d5.pkt m = if m = d.nextPacket then some p else d.pkt m := by
    have h5 : d5.pkt m = d4.pkt m := pkt_congr rfl m
    rw [h5, pkt_setPkt, hpkt, hnext]
  refine ⟨?_, fun m hm => ?_, ?_, p, ?_, rfl, rfl, rfl, ?_⟩
  · exact (h5.1 .nextPacket (by decide)).trans (congrArg (· + 1) hnext)
  · exact (pkt_congr (h5.1 .packets (by decide)) m).trans ((h4 m).trans (if_neg hm))
  · rw [nextSeq, h5.1 .front (by decide) r]
    change Sparse.get (fun _ => 0) (d3.g r).front.seqs port = _
    rw [hfront, hseqs]
    exact Sparse.get_set_same ..
  · exact (pkt_congr (h5.1 .packets (by decide)) _).trans ((h4 _).trans (if_pos rfl))
  · rw [← htick]

/-- A good frame for which the pool and the task store have room is admitted: after operations on its chain it is stamped. -/
theorem admitFrame_of_room {d : Dev} {r : Region} {p h time ns sec : Nat} {frame : List Byte} (hp : p < 8)
    (ha : (d.takeIn r p (d.frameClass r p frame) frame.length).2 = .ok h) (hb : (d.g r).dispatch.pressed = false)
    (hg : (d.g r).dispatch.general < d.generalPool r) :
    ∃ e, d.Pooled e ∧ d.admitFrame r p frame true time ns sec
      = e.stampPacket r p (r.val * 8 + p) (d.frameClass r p frame) h frame.length time ns sec false := by
  let d1 := (d.takeIn r p (d.frameClass r p frame) frame.length).1
  have htake : d.takeIn r p (d.frameClass r p frame) frame.length = (d1, .ok h) := Prod.ext rfl ha
  obtain ⟨e, hwritten⟩ : ∃ e, (d1.writeChain (d1.chain 512 h) frame).pfcCheck r p (d.frameClass r p frame) = e := ⟨_, rfl⟩
  have he : d.Pooled e := hwritten ▸ ((Pooled.refl d).takeIn (by omega)).writeChain.pfcCheck hp
  have hdsp : (e.g r).dispatch = (d.g r).dispatch := he.parts .dispatch (by decide) r
  have hroom : decide (e.generalPool r ≤ (d.g r).dispatch.general) = false := by
    rw [he.generalPool]
    exact decide_eq_false (not_le.2 hg)
  refine ⟨e, he, ?_⟩
  unfold admitFrame
  simp only [htake, hwritten, hdsp, hb, hroom, Bool.not_true, Bool.false_and, Bool.or_self, Bool.false_eq_true, if_false]

end Dev

section
variable {s : State} {r : Region} {p : Port} {frame : List Byte} {fcsOk fecBad : Bool} {corrected time ns sec : Nat}

/-! ### Frames that arrive (R160–R167, R706–R709) -/

/-- What becomes of a frame that arrives. -/
theorem exec_frameReceive (r : Region) (p : Port) (frame : List Byte) (fcsOk fecBad : Bool) (corrected time ns sec : Nat) (s : State) :
    exec (.frameReceive r p frame fcsOk fecBad corrected time ns sec) s = s.run fun d =>
      if !d.portTakes r p.val then d
      else
        let d := d.fecNoted r p.val fecBad corrected
        if frame.length < 60 || (Dev.macControl frame && !Dev.isPfc frame) then d.addSat (RGN_PORT_DISC_runt_ctl r.val p.val) 1
        else if d.fld (RGN_PORT_CFG_max_frame r.val p.val) < frame.length then d.addSat (RGN_PORT_DISC_oversize r.val p.val) 1
        else if Dev.isPfc frame && fcsOk && !fecBad then d
        else if (d.g r).mode = .drain then d.addSat (RGN_PORT_DRAIN_drained r.val p.val) 1
        else d.admitFrame r p.val frame (fcsOk && !fecBad) time ns sec := rfl

/-- A frame at a port that takes none changes nothing. -/
theorem frameReceive_shut_carried (ht : s.dev.portTakes r p.val = false) :
    Carried (.frameReceive r p frame fcsOk fecBad corrected time ns sec) s [] fun _ => True :=
  .of_run_eq (d := s.dev) (exec_frameReceive ..) (if_pos (congrArg not ht)) (.refl _ _) trivial

/-- A frame below 60 bytes is discarded and counted. -/
theorem frameReceive_runt_carried (ht : s.dev.portTakes r p.val = true) (hl : frame.length < 60) :
    Carried (.frameReceive r p frame fcsOk fecBad corrected time ns sec) s [.regs, .wire, .ctxs] fun e =>
      e.fld (RGN_PORT_DISC_runt_ctl r.val p.val) = min 0xFFFF (s.dev.fld (RGN_PORT_DISC_runt_ctl r.val p.val) + 1)
        ∧ e.fld (RGN_PORT_FEC_corrected r.val p.val) = min 0xFFFF (s.dev.fld (RGN_PORT_FEC_corrected r.val p.val) + corrected)
        ∧ s.dev.RegsSig [RGN_PORT_DISC r.val p.val, RGN_PORT_FEC r.val p.val] e := by
  let d := s.dev.fecNoted r p.val fecBad corrected
  have hold : d.fld (RGN_PORT_DISC_runt_ctl r.val p.val) = s.dev.fld (RGN_PORT_DISC_runt_ctl r.val p.val) :=
    s.dev.fld_fecNoted r fecBad corrected p.isLt (x := 0x14) (by norm_num) (by norm_num)
  have hreg : s.dev.RegsSig [RGN_PORT_DISC r.val p.val, RGN_PORT_FEC r.val p.val] d :=
    (s.dev.regsSig_fecNoted r fecBad corrected).mono fun a => by simp; tauto
  refine .of_run_eq (d := d.addSat (RGN_PORT_DISC_runt_ctl r.val p.val) 1) (exec_frameReceive ..) ?_ ?_ ⟨?_, ?_, ?_⟩
  · dsimp only
    rw [ht, if_neg (by decide), if_pos (by simp [hl])]
  · exact ((s.dev.fecNoted_kept r fecBad corrected).then (Dev.addSat_kept ..) (by decide)).1
  · exact (d.fld_addSat_same _ _ (by simp [RGN_PORT_DISC_runt_ctl])).trans (by rw [hold]; rfl)
  · refine (Dev.fld_setFld_ne _ _ _ _ ?_).trans (s.dev.corrected_fecNoted r fecBad corrected p.isLt)
    simp [RGN_PORT_FEC_corrected, RGN_PORT_DISC_runt_ctl, RGN_PORT_FEC, RGN_PORT_DISC, rgnReg_inj]
  · exact (Dev.regsSig_withFree ..).2 (hreg.addSat (.inl (by simp [RGN_PORT_DISC_runt_ctl])))

/-- A frame in the size range is counted and discarded in DRAIN. -/
theorem frameReceive_drain_carried (ht : s.dev.portTakes r p.val = true) (hl : 60 ≤ frame.length) (hm : Dev.macControl frame = false)
    (hs : frame.length ≤ s.dev.fld (RGN_PORT_CFG_max_frame r.val p.val)) (hd : (s.dev.g r).mode = .drain) :
    Carried (.frameReceive r p frame fcsOk fecBad corrected time ns sec) s [.regs, .wire, .ctxs] fun e =>
      e.fld (RGN_PORT_DRAIN_drained r.val p.val) = min 0xFFFFFFFF (s.dev.fld (RGN_PORT_DRAIN_drained r.val p.val) + 1)
        ∧ s.dev.RegsSig [RGN_PORT_DRAIN r.val p.val, RGN_PORT_FEC r.val p.val] e := by
  let d := s.dev.fecNoted r p.val fecBad corrected
  have hsize : frame.length ≤ d.fld (RGN_PORT_CFG_max_frame r.val p.val) :=
    hs.trans_eq (s.dev.fld_fecNoted r fecBad corrected p.isLt (x := 0) (by norm_num) (by norm_num)).symm
  have hold : d.fld (RGN_PORT_DRAIN_drained r.val p.val) = s.dev.fld (RGN_PORT_DRAIN_drained r.val p.val) :=
    s.dev.fld_fecNoted r fecBad corrected p.isLt (x := 0x28) (by norm_num) (by norm_num)
  have hmode : (d.g r).mode = .drain := ((s.dev.fecNoted_kept r fecBad corrected).1 .mode (by decide) r).trans hd
  have hreg : s.dev.RegsSig [RGN_PORT_DRAIN r.val p.val, RGN_PORT_FEC r.val p.val] d :=
    (s.dev.regsSig_fecNoted r fecBad corrected).mono fun a => by simp; tauto
  refine .of_run_eq (d := d.addSat (RGN_PORT_DRAIN_drained r.val p.val) 1) (exec_frameReceive ..) ?_ ?_ ⟨?_, ?_⟩
  · dsimp only
    rw [ht, if_neg (by decide), if_neg (by simp [hl, hm]), if_neg (not_lt.2 hsize), if_neg (by simp [Dev.isPfc, hm]), if_pos hmode]
  · exact ((s.dev.fecNoted_kept r fecBad corrected).then (Dev.addSat_kept ..) (by decide)).1
  · exact (d.fld_addSat_same _ _ (by simp [RGN_PORT_DRAIN_drained])).trans (by rw [hold]; rfl)
  · exact (Dev.regsSig_withFree ..).2 (hreg.addSat (.inl (by simp [RGN_PORT_DRAIN_drained])))

/-- A good frame that the pool and the task store take becomes the next packet. -/
theorem frameReceive_admits_carried {h : Nat} (ht : s.dev.portTakes r p.val = true) (hl : 60 ≤ frame.length) (hm : Dev.macControl frame = false)
    (hs : frame.length ≤ s.dev.fld (RGN_PORT_CFG_max_frame r.val p.val)) (hd : (s.dev.g r).mode ≠ .drain)
    (ha : (Dev.takeIn (s.dev.addSat (RGN_PORT_FEC_corrected r.val p.val) corrected) r p.val (s.dev.frameClass r p.val frame) frame.length).2 = .ok h)
    (hb : (s.dev.g r).dispatch.pressed = false) (hg : (s.dev.g r).dispatch.general < s.dev.generalPool r) :
    Carried (.frameReceive r p frame true false corrected time ns sec) s
      [.regs, .mem, .wire, .line, .ctxs, .packets, .nextPacket, .endpoints, .pool, .egress, .front, .dispatch, .journal] fun e =>
      e.nextPacket = s.dev.nextPacket + 1 ∧ (∀ m, m ≠ s.dev.nextPacket → e.pkt m = s.dev.pkt m)
        ∧ e.nextSeq r (r.val * 8 + p.val) = s.dev.nextSeq r (r.val * 8 + p.val) + 1
        ∧ ∃ q, e.pkt s.dev.nextPacket = some q ∧ q.stage = .stamped ∧ q.length = frame.length ∧ q.head = h
          ∧ q.stamp = ⟨r.val * 8 + p.val, s.dev.frameClass r p.val frame, s.dev.nextSeq r (r.val * 8 + p.val), (s.dev.g r).tick,
            time % 2 ^ 13⟩ := by
  let d := s.dev.fecNoted r p.val false corrected
  have hkept : s.dev.Kept [.regs, .wire, .ctxs] d := s.dev.fecNoted_kept r false corrected
  have hfld {x lo width : Nat} (hx : x < 0x40) (hne : x ≠ 0x10) :=
    s.dev.fld_fecNoted r false corrected p.isLt (lo := lo) (width := width) hx hne
  have hsize : frame.length ≤ d.fld (RGN_PORT_CFG_max_frame r.val p.val) := hs.trans_eq (hfld (x := 0) (by norm_num) (by norm_num)).symm
  have hclass : d.frameClass r p.val frame = s.dev.frameClass r p.val frame := by
    have hmap : d.fld (RGN_PORT_TC_pcp_map r.val p.val) = s.dev.fld (RGN_PORT_TC_pcp_map r.val p.val) :=
      hfld (x := 4) (by norm_num) (by norm_num)
    have htc : d.fld (RGN_PORT_TC_default_tc r.val p.val) = s.dev.fld (RGN_PORT_TC_default_tc r.val p.val) :=
      hfld (x := 4) (by norm_num) (by norm_num)
    rw [Dev.frameClass, Dev.frameClass, hmap, htc]
  have hmode : (d.g r).mode ≠ .drain := fun hc => hd ((hkept.1 .mode (by decide) r).symm.trans hc)
  have hdsp : (d.g r).dispatch = (s.dev.g r).dispatch := hkept.1 .dispatch (by decide) r
  have hpool : d.generalPool r = s.dev.generalPool r := by
    have hn : RGN_DSP_CTL r.val ∉ [RGN_PORT_FEC r.val p.val] := by
      rw [List.mem_singleton, RGN_DSP_CTL, RGN_PORT_FEC, rgnReg_inj]
      omega
    rw [Dev.generalPool, Dev.generalPool, (s.dev.regsSig_fecNoted r false corrected).fld
      (not_or.2 ⟨hn, Dev.not_signalReg_rgn r (by norm_num) (by norm_num) (by norm_num)⟩)]
  have htake : (d.takeIn r p.val (d.frameClass r p.val frame) frame.length).2 = .ok h := by
    rw [hclass]
    exact ha
  have hpressed : (d.g r).dispatch.pressed = false := by rw [hdsp, hb]
  have hroom : (d.g r).dispatch.general < d.generalPool r := by
    rw [hdsp, hpool]
    exact hg
  obtain ⟨e, he, hadm⟩ := Dev.admitFrame_of_room (time := time) (ns := ns) (sec := sec) p.isLt htake hpressed hroom
  obtain ⟨hnext, hothers, hseq, q, hq, hstage, hlen, hhead, hstamp⟩ := Dev.stampPacket_stamps e r p.val (r.val * 8 + p.val)
    (d.frameClass r p.val frame) h frame.length time ns sec false
  have hnum : e.nextPacket = s.dev.nextPacket := (he.parts .nextPacket (by decide)).trans (hkept.1 .nextPacket (by decide))
  have hpkts (m : Nat) : e.pkt m = s.dev.pkt m := (he.pkt m).trans (Dev.pkt_congr (hkept.1 .packets (by decide)) m)
  have hfront : e.nextSeq r (r.val * 8 + p.val) = s.dev.nextSeq r (r.val * 8 + p.val) := by
    rw [Dev.nextSeq, he.parts .front (by decide) r, hkept.1 .front (by decide) r, Dev.nextSeq]
  have htick : (e.g r).tick = (s.dev.g r).tick := (he.parts .tick (by decide) r).trans (hkept.1 .tick (by decide) r)
  refine .of_run_eq (exec_frameReceive ..) (d := d.admitFrame r p.val frame true time ns sec) ?_ ?_ ?_
  · dsimp only
    rw [ht, if_neg (by decide), if_neg (by simp [hl, hm]), if_neg (not_lt.2 hsize), if_neg (by simp [Dev.isPfc, hm]), if_neg hmode]
    rfl
  · exact ((hkept.mono (by decide)).admitFrame (by decide)).1
  · rw [hadm]
    rw [hnum] at hnext hothers hq
    rw [hfront] at hseq hstamp
    rw [hclass, htick] at hstamp
    simp only [Dev.nextPacket_withFree, Dev.pkt_withFree, Dev.nextSeq_withFree]
    exact ⟨hnext, fun m hm => (hothers m hm).trans (hpkts m), hseq, q, hq, hstage, hlen, hhead, hstamp⟩

end

/-- Settles O43: what the MAC notes of a frame's FEC leaves alone what decides on the frame, and of a frame that is admitted the operations
on its chain (`Dev.Pooled`) leave alone what its stamp is made of. -/
theorem framesAreCountedOrStamped : Obligations.FramesAreCountedOrStamped :=
  ⟨fun _ _ _ _ _ _ _ _ _ _ => frameReceive_shut_carried, fun _ _ _ _ _ _ _ _ _ _ => frameReceive_runt_carried,
    fun _ _ _ _ _ _ _ _ _ _ => frameReceive_drain_carried, fun _ _ _ _ _ _ _ _ _ => frameReceive_admits_carried⟩

end Sys2Proof.Machine

namespace Sys2Proof.Machine

/-! ### Region registers by their address -/

/-- A region register's address leads to its offset in the registers of its region (R75, R77). -/
theorem locOf_rgnReg {r off : Nat} (hr : r < 8) (ho : off < 0xE00000) : locOf (rgnReg r off) = .region r off := by
  have hq : rgnReg r off / 0x100000000000 = r := by unfold rgnReg; omega
  have hm : rgnReg r off % 0x100000000000 = 0x90000000000 + off := by unfold rgnReg; omega
  have hlt : rgnReg r off < 0x1000000000000 := by unfold rgnReg; omega
  unfold locOf
  rw [if_neg (by omega), if_neg (by omega)]
  simp only [hq, hm]
  rw [if_neg (by omega), if_pos (by omega), Nat.add_sub_cancel_left]

section
variable {a x off : Nat} (hl : locOf a = .region x off) {e : RegDesc}
include hl

/-- A region address announces the register whose offset it is, where the region has that row. -/
theorem announced_of_region (hf : (rgnRegs (off / 0x100000)).find? (·.holds off) = some e)
    (hat : announcedAt (.region x off) e = true) : announced a = some e := by
  have hd : descAt a = some e := by
    unfold descAt
    rw [hl]
    exact hf
  rw [announced, hd, hl, Option.filter_some, if_pos hat]

/-- A region register that is the lower one of no pair. -/
theorem upperOf_of_region_none (hp : (pairsOf (.region x off)).find? (·.1 == e.off) = none) : upperOf a e = none := by
  unfold upperOf
  rw [hl, hp]
  rfl

/-- A region register that is the upper one of no pair. -/
theorem lowerOf_of_region_none (hp : (pairsOf (.region x off)).find? (·.2 == e.off) = none) : lowerOf a e = none := by
  unfold lowerOf
  rw [hl, hp]
  rfl

end

/-- The modes of direct writes (R57). -/
theorem Mode.isOpen_iff {m : Mode} : m.isOpen = true ↔ m = .configure ∨ m = .test := by cases m <;> decide

namespace Dev

theorem R_val (r : Region) : R r.val = r := Fin.ext (Nat.mod_eq_of_lt r.isLt)

/-- A region register stands under its own address, whoever the anchor is. -/
theorem normal_rgnReg (d : Dev) (r : Region) {off : Nat} (ho : off < 0xE00000) : d.normal (rgnReg r.val off) = rgnReg r.val off := by
  have hr := r.isLt
  refine if_neg fun h => ?_
  unfold rgnReg at h
  omega

/-- A register of a Mladus region that belongs to no pair is written by its sub-block. -/
theorem writeReg_of_region {d : Dev} {r : Region} {a off : Nat} {e : RegDesc} (hl : locOf a = .region r.val off)
    (hm : d.mladus r.val = true) (he : announced a = some e) (hu : upperOf a e = none) (hlo : lowerOf a e = none) (v : Word) :
    d.writeReg a v.toNat = d.rgnWrite r off a e v.toNat := by
  obtain ⟨-, hg⟩ := mladus_iff.1 hm
  simp [writeReg, writeReg.go, writeAt, regThere, hl, hm, hg, he, hu, hlo, R_val, Nat.mod_eq_of_lt v.isLt]

/-! ### Writes that pass or are rejected as a whole -/

/-- A whole write that passes takes effect, and what follows it is done. -/
theorem thenIf_putIf_true (d : Dev) (a : Nat) (e : RegDesc) (v : Nat) (report f : Dev → Dev) :
    thenIf (putIf true d a e v report) f = (f (d.setReg a (e.writeWord [] v (d.reg a))), true) := (rfl)

/-- A whole write that does not pass is reported, and what would follow it is not done. -/
theorem thenIf_putIf_false (d : Dev) (a : Nat) (e : RegDesc) (v : Nat) (report f : Dev → Dev) :
    thenIf (putIf false d a e v report) f = (report d, false) := (rfl)

/-! ### RGN_FE_CTL (R243, R244) -/

section
variable (d : Dev) (r : Region) (v : Word)

/-- The part with the front-ends of a write of RGN_FE_CTL enabled and active. -/
def enableFrontEnds : Dev := (d.setFld (RGN_FE_CTL_fe_enable r.val) v.toNat).setFld (RGN_FE_STAT_fe_active r.val) (v.toNat % 16)

/-- The control and the status of the front-ends are two registers. -/
theorem feCtl_ne_feStat : RGN_FE_CTL r.val ≠ RGN_FE_STAT r.val := by simp [RGN_FE_CTL, RGN_FE_STAT, rgnReg_inj]

theorem fld_fe_enable_enableFrontEnds :
    (d.enableFrontEnds r v).fld (RGN_FE_CTL_fe_enable r.val) = v.toNat % 16 := by
  rw [enableFrontEnds, fld_setFld_ne _ _ _ _ (feCtl_ne_feStat r), fld_setFld_same _ _ _ (by simp [RGN_FE_CTL_fe_enable])]
  rfl

theorem fld_fe_active_enableFrontEnds :
    (d.enableFrontEnds r v).fld (RGN_FE_STAT_fe_active r.val) = v.toNat % 16 := by
  rw [enableFrontEnds, fld_setFld_same _ _ _ (by simp [RGN_FE_STAT_fe_active])]
  exact Nat.mod_mod _ 16

theorem regsIn_enableFrontEnds : d.RegsIn [RGN_FE_CTL r.val, RGN_FE_STAT r.val] (d.enableFrontEnds r v) :=
  ((RegsBut.refl _ d).setFld (by simp [RGN_FE_CTL_fe_enable])).setFld (by simp [RGN_FE_STAT_fe_active])

/-- RGN_FE_CTL is written in CONFIGURE and TEST with a mask that is not zero, and fe_active follows; any other write is rejected as a whole. -/
theorem feWrite_feCtl {e : RegDesc} (he : e.off = 0x300000) (a n : Nat) : (d.feWrite r a e n).1
    = if ((d.g r).mode = .configure ∨ (d.g r).mode = .test) ∧ n % 16 ≠ 0
      then (d.setReg a (e.writeWord [] n (d.reg a))).setFld (RGN_FE_STAT_fe_active r.val) (n % 16)
      else d.setOn (RGN_FE_ERR_fe_ctl_rejected r.val) := by
  have hb : ((d.g r).mode.isOpen && n % 16 != 0) = true ↔ ((d.g r).mode = .configure ∨ (d.g r).mode = .test) ∧ n % 16 ≠ 0 := by
    rw [Bool.and_eq_true, Mode.isOpen_iff, bne_iff_ne]
  simp only [feWrite, he]
  split_ifs with h
  · rw [hb.2 h, thenIf_putIf_true]
  · rw [Bool.eq_false_iff.2 (mt hb.1 h), thenIf_putIf_false]

/-- A write of RGN_FE_CTL enables front-ends in CONFIGURE and TEST with a mask that is not zero, and is rejected otherwise. -/
theorem writeReg_feCtl {d : Dev} {r : Region} (hm : d.mladus r.val = true) : (d.writeReg (RGN_FE_CTL r.val) v.toNat).1
    = if ((d.g r).mode = .configure ∨ (d.g r).mode = .test) ∧ v.toNat % 16 ≠ 0 then d.enableFrontEnds r v
      else d.setOn (RGN_FE_ERR_fe_ctl_rejected r.val) := by
  have hl : locOf (RGN_FE_CTL r.val) = .region r.val 0x300000 := locOf_rgnReg r.isLt (by decide)
  have he : announced (RGN_FE_CTL r.val) = some ⟨"RGN_FE_CTL", 0x300000, [], [⟨0, 4, .rw, 0xF, false⟩]⟩ :=
    announced_of_region hl rfl rfl
  rw [writeReg_of_region hl hm he (upperOf_of_region_none hl rfl) (lowerOf_of_region_none hl rfl)]
  refine (feWrite_feCtl d r rfl _ _).trans ?_
  rw [writeWord_rw]
  rfl

end
end Dev

/-- A register write is carried out by the write of the register. It is `Carried.registerWrite` with the count as `Dev.withFree`, so that
a read of the part afterwards is rewritten, not computed. -/
theorem Carried.of_registerWrite {s : State} {d : Dev} {l : List Part} {P : Dev → Prop} {addr : Nat} {value : Word}
    (hr : (s.dev.writeReg (s.dev.normal addr) value.toNat).1 = d) (ho : s.dev.OnlyIn l d) (hp : P (d.withFree (s.dev.free + 1))) :
    Carried (.registerWrite addr value) s l P := .registerWrite hr ho hp

section
variable {r : Region} {value : Word} {s : State}

/-- A mask that is not zero, written to RGN_FE_CTL in CONFIGURE or TEST, is taken. -/
theorem feCtl_taken_carried (hm : s.dev.mladus r.val = true) (ho : (s.dev.g r).mode = .configure ∨ (s.dev.g r).mode = .test)
    (hv : value.toNat % 16 ≠ 0) : Carried (.registerWrite (RGN_FE_CTL r.val) value) s [.regs] fun e =>
      e.fld (RGN_FE_CTL_fe_enable r.val) = value.toNat % 16 ∧ e.fld (RGN_FE_STAT_fe_active r.val) = value.toNat % 16
        ∧ s.dev.RegsIn [RGN_FE_CTL r.val, RGN_FE_STAT r.val] e := by
  have hn : s.dev.normal (RGN_FE_CTL r.val) = RGN_FE_CTL r.val := s.dev.normal_rgnReg r (by decide)
  refine .of_registerWrite (d := s.dev.enableFrontEnds r value) ?_ (((Dev.Kept.refl _ _).setFld (by decide)).setFld (by decide)).1 ?_
  · rw [hn, Dev.writeReg_feCtl value hm, if_pos ⟨ho, hv⟩]
  · rw [Dev.fld_withFree, Dev.fld_withFree, Dev.regsIn_withFree]
    exact ⟨s.dev.fld_fe_enable_enableFrontEnds r value, s.dev.fld_fe_active_enableFrontEnds r value, s.dev.regsIn_enableFrontEnds r value⟩

/-- A write of RGN_FE_CTL at any other time, or of zero, sets fe_ctl_rejected and nothing else. -/
theorem feCtl_rejected_carried (hm : s.dev.mladus r.val = true)
    (h : ¬ ((s.dev.g r).mode = .configure ∨ (s.dev.g r).mode = .test) ∨ value.toNat % 16 = 0) :
    Carried (.registerWrite (RGN_FE_CTL r.val) value) s [.regs] fun e =>
      s.dev.Wrote (RGN_FE_ERR_fe_ctl_rejected r.val) 1 e ∧ s.dev.RegsIn [RGN_FE_ERR r.val] e := by
  have hn : s.dev.normal (RGN_FE_CTL r.val) = RGN_FE_CTL r.val := s.dev.normal_rgnReg r (by decide)
  refine .of_registerWrite (d := s.dev.setOn (RGN_FE_ERR_fe_ctl_rejected r.val)) ?_ ((Dev.Kept.refl _ _).setOn (by decide)).1 ?_
  · rw [hn, Dev.writeReg_feCtl value hm, if_neg fun ⟨ho, hv⟩ => h.elim (· ho) hv]
  · rw [Dev.wrote_withFree, Dev.regsIn_withFree]
    exact ⟨Dev.wrote_setFld _ _ _ (by simp [RGN_FE_ERR_fe_ctl_rejected]) (by simp [RGN_FE_ERR_fe_ctl_rejected]),
      (Dev.RegsBut.refl _ _).setOn (by simp [RGN_FE_ERR_fe_ctl_rejected])⟩

end

/-- Settles O26: what a write of RGN_FE_CTL makes of the part, where it passes and where it is rejected (R243). -/
theorem frontEndsAreEnabledWhileOpen : Obligations.FrontEndsAreEnabledWhileOpen :=
  ⟨fun _ _ _ => feCtl_taken_carried, fun _ _ _ => feCtl_rejected_carried⟩

end Sys2Proof.Machine

namespace Sys2Proof.Machine
namespace Dev

/-! ### Divisions outside their ranges (R254, R294) -/

/-- Every field of a division word lies in its range, and the units of the pane are at most 96 (R254). -/
def DivInRange (v : Word) : Prop :=
  1 ≤ fieldOf v 0 4 ∧ fieldOf v 0 4 ≤ 8 ∧ fieldOf v 8 7 ≤ 93 ∧ 1 ≤ fieldOf v 15 5 ∧ fieldOf v 15 5 ≤ 16 ∧ fieldOf v 20 6 ≤ 32
    ∧ 1 + fieldOf v 0 4 + fieldOf v 8 7 + fieldOf v 15 5 + fieldOf v 20 6 ≤ 96

section
variable (d : Dev) (r : Region)

/-- The part with a division of a pane rejected. -/
def divRejected (p : Nat) : Dev := (d.clsRej r 4 p 6 0).err (RGN_CLS_ERR_div_rejected r.val) r 0x110

/-- A division outside its ranges is rejected, whatever the mode and whatever the pane's session and check code. -/
theorem divWrite_of_not_inRange {p : Nat} {v : Word} (hv : ¬ DivInRange v) : (d.divWrite r p v).1 = d.divRejected r p := by
  refine congrArg Prod.fst (if_neg fun h => hv ?_)
  obtain ⟨hquiet, -⟩ := Bool.and_eq_true_iff.1 h
  obtain ⟨hrange, -⟩ := Bool.and_eq_true_iff.1 hquiet
  simpa only [DivInRange, Bool.and_eq_true, decide_eq_true_eq, and_assoc] using hrange

/-- The cause and the pane that RGN_CLS_REJ names after a rejection. -/
theorem fld_clsRej {cause : Nat} (hc : cause < 16) (pane kind index : Nat) :
    (d.clsRej r cause pane kind index).fld (RGN_CLS_REJ_cause r.val) = cause
      ∧ (d.clsRej r cause pane kind index).fld (RGN_CLS_REJ_pane r.val) = pane % 2 := by
  simp only [clsRej, fld, RGN_CLS_REJ_cause, RGN_CLS_REJ_pane, reg_setReg_same, fieldOf, BitVec.toNat_ofNat]
  omega

/-- A field of RGN_CLS_REJ is left alone when the error bit is set and its source raised. -/
theorem fld_divRejected {f : Fld} (hf : f.addr = RGN_CLS_REJ r.val) (p : Nat) :
    (d.divRejected r p).fld f = (d.clsRej r 4 p 6 0).fld f :=
  fld_err_ne _ (by simp [hf, RGN_CLS_REJ, RGN_CLS_ERR_div_rejected, RGN_CLS_ERR, rgnReg_inj])
    (hf ▸ not_signalReg_rgn r (by norm_num) (by norm_num) (by norm_num)) r _

theorem on_divRejected (p : Nat) : (d.divRejected r p).on (RGN_CLS_ERR_div_rejected r.val) = true :=
  on_err _ (by simp [RGN_CLS_ERR_div_rejected]) (by simp [RGN_CLS_ERR_div_rejected])
    (not_signalReg_rgn r (by norm_num) (by norm_num) (by norm_num)) r _

theorem regsSig_divRejected (p : Nat) : d.RegsSig [RGN_CLS_REJ r.val, RGN_CLS_ERR r.val] (d.divRejected r p) :=
  ((RegsBut.refl _ d).setReg (by simp)).err (by simp [RGN_CLS_ERR_div_rejected]) RegsSig.of_signal

/-- A rejection leaves the divisions that wait for the shutter, and all else but registers and signals, as it was. -/
theorem onlyIn_divRejected (p : Nat) : d.OnlyIn [.regs, .wire, .ctxs] (d.divRejected r p) :=
  (((Kept.refl _ _).clsRej (by decide)).err (by decide)).1

end
end Dev

/-- Settles O20: a word outside the ranges takes the rejecting branch in every state, and that branch writes RGN_CLS_REJ and the error
bit. -/
theorem divisionOutsideItsRangesIsRejected : Obligations.DivisionOutsideItsRangesIsRejected := by
  intro r pane value s hv
  obtain ⟨hcause, hpane⟩ := s.dev.fld_clsRej r (cause := 4) (by norm_num) pane.val 6 0
  rw [Nat.mod_eq_of_lt pane.isLt] at hpane
  have hx : exec (.clsDivWrite r pane value) s = execClsDivWrite r pane value s := rfl
  refine .of_run_eq hx (s.dev.divWrite_of_not_inRange r hv) (s.dev.onlyIn_divRejected r _) ?_
  simp only [Dev.on_withFree, Dev.fld_withFree, Dev.regsSig_withFree]
  exact ⟨s.dev.on_divRejected r _, (s.dev.fld_divRejected r rfl _).trans hcause, (s.dev.fld_divRejected r rfl _).trans hpane,
    s.dev.regsSig_divRejected r _⟩

end Sys2Proof.Machine

namespace Sys2Proof.Machine

/-! ### Numbers in memory (R20) -/

theorem ofLE_bytesLE (n v : Nat) : ofLE (bytesLE n v) = v % 256 ^ n := by
  induction n generalizing v with
  | zero => simp [bytesLE, ofLE, Nat.mod_one]
  | succ n ih => rw [bytesLE, ofLE, ih, BitVec.toNat_ofNat, pow_succ' 256 n, Nat.mod_mul]

namespace Dev

theorem length_bytes (d : Dev) (a n : Nat) : (d.bytes a n).length = n := by simp [bytes]

/-- Bytes that read the same one by one read the same together. -/
theorem bytes_congr {d e : Dev} {a n : Nat} (h : ∀ i < n, e.byte (a + i) = d.byte (a + i)) : e.bytes a n = d.bytes a n :=
  List.map_congr_left fun i hi => h i (List.mem_range.1 hi)

/-- The bytes just written are read back. -/
theorem bytes_setBytes_same (d : Dev) (a : Nat) (l : List Byte) : (d.setBytes a l).bytes a l.length = l := by
  refine List.ext_getElem (length_bytes ..) fun i h _ => ?_
  rw [length_bytes] at h
  simp only [bytes, List.getElem_map, List.getElem_range]
  rw [byte_setBytes, if_pos (by omega), Nat.add_sub_cancel_left,
    List.getD_eq_getElem _ _ h]

/-- Bytes beside those written are as before. -/
theorem bytes_setBytes_of_disjoint (d : Dev) {a b n : Nat} {l : List Byte} (h : b + n ≤ a ∨ a + l.length ≤ b) :
    (d.setBytes a l).bytes b n = d.bytes b n :=
  bytes_congr fun i hi => by rw [byte_setBytes, if_neg (by omega)]

/-- The number just written is read back, as far as its bytes reach. -/
theorem le_setLE_same (d : Dev) (a n v : Nat) : (d.setLE a n v).le a n = v % 256 ^ n := by
  have h := d.bytes_setBytes_same a (bytesLE n v)
  rw [length_bytesLE] at h
  rw [le, setLE, h, ofLE_bytesLE]

/-- A number beside the one written is as before. -/
theorem le_setLE_of_disjoint (d : Dev) {a b n m v : Nat} (h : b + m ≤ a ∨ a + n ≤ b) : (d.setLE a n v).le b m = d.le b m := by
  rw [le, setLE, bytes_setBytes_of_disjoint _ (by rwa [length_bytesLE]), le]

/-- A byte beside a number that is written is as before. -/
theorem byte_setLE_of_ne (d : Dev) {a n v x : Nat} (h : x < a ∨ a + n ≤ x) : (d.setLE a n v).byte x = d.byte x := by
  rw [setLE, byte_setBytes, length_bytesLE, if_neg (by omega)]

/-! ### Meters (R309) -/

/-- A meter written is read back with its token counts and its tick, as far as their bytes reach. -/
theorem meterAt_setMeter (d : Dev) (a : Nat) (m : Meter) : (d.setMeter a m).meterAt a
    = { d.meterAt a with tc := m.tc % 2 ^ 32, tp := m.tp % 2 ^ 32, last := m.last % 2 ^ 32 } := by
  have htc : (d.setMeter a m).le (a + 16) 4 = m.tc % 2 ^ 32 := by
    rw [setMeter, le_setLE_of_disjoint _ (by omega), le_setLE_of_disjoint _ (by omega), le_setLE_same]
    norm_num
  have htp : (d.setMeter a m).le (a + 20) 4 = m.tp % 2 ^ 32 := by
    rw [setMeter, le_setLE_of_disjoint _ (by omega), le_setLE_same]
    norm_num
  have hlast : (d.setMeter a m).le (a + 24) 4 = m.last % 2 ^ 32 := by
    rw [setMeter, le_setLE_same]
    norm_num
  have hne {b n : Nat} (h : b + n ≤ a + 16 ∨ a + 28 ≤ b) : (d.setMeter a m).le b n = d.le b n := by
    rw [setMeter, le_setLE_of_disjoint _ (by omega), le_setLE_of_disjoint _ (by omega), le_setLE_of_disjoint _ (by omega)]
  simp only [meterAt, htc, htp, hlast, hne (show a + 4 ≤ a + 16 ∨ _ by omega), hne (show a + 4 + 4 ≤ a + 16 ∨ _ by omega),
    hne (show a + 8 + 4 ≤ a + 16 ∨ _ by omega), hne (show a + 12 + 4 ≤ a + 16 ∨ _ by omega),
    hne (show a + 28 + 1 ≤ a + 16 ∨ a + 28 ≤ a + 28 by omega)]

/-- A meter written leaves every byte outside its token counts and its tick as it was. -/
theorem byte_setMeter_of_ne (d : Dev) {a x : Nat} (m : Meter) (h : x < a + 16 ∨ a + 28 ≤ x) : (d.setMeter a m).byte x = d.byte x := by
  rw [setMeter, byte_setLE_of_ne _ (by omega), byte_setLE_of_ne _ (by omega), byte_setLE_of_ne _ (by omega)]

end Dev

/-- A refill changes the token counts and the tick alone. -/
theorem Meter.refill_eq (m : Meter) (tick : Nat) :
    ∃ tc tp, m.refill tick = { m with tc := tc, tp := tp, last := tick % 2 ^ 32 } := by
  unfold Meter.refill
  dsimp only
  split_ifs <;> exact ⟨_, _, rfl⟩

/-! ### Messages between MPs (R751) -/

/-- The kind of a message, its endpoint and its pair are read back from the info that names them. -/
theorem relayInfo_parts (kind : Nat) (e : Endpoint) (n : Fin 32) :
    Dev.relayInfo kind e n.val / 256 = kind ∧ (Fin.ofNat 2 (Dev.relayInfo kind e n.val / 32) : Endpoint) = e
      ∧ Dev.relayInfo kind e n.val % 32 = n.val := by
  have he := e.isLt
  have hn := n.isLt
  unfold Dev.relayInfo
  refine ⟨by omega, Fin.ext ?_, by omega⟩
  simp only [Fin.ofNat]
  omega

namespace Dev
variable (d : Dev) (r q : Region) (info k : Nat)

/-- What a region holds of frames under way, with the segments of one frame written. -/
def keepRelay (l : List Byte) : Dev := d.modR r fun g => { g with relays := Sparse.set (fun _ => []) g.relays info l }

/-- The frame of which a segment comes: the segments before it, none before the first, and its own bytes. -/
def relayFrame (b : List Byte) : List Byte :=
  (if ofBE (b.take 2) = 0 then [] else Sparse.get (fun _ => []) (d.g r).relays info) ++ b.drop 4

theorem relays_keepRelay (l : List Byte) :
    Sparse.get (fun _ => []) ((d.keepRelay r info l).g r).relays k = if k = info then l else Sparse.get (fun _ => []) (d.g r).relays k := by
  rw [keepRelay, g_modR_same]
  exact Sparse.get_set ..

theorem relays_keepRelay_ne (l : List Byte) (h : q ≠ r) : ((d.keepRelay r info l).g q).relays = (d.g q).relays := by
  rw [keepRelay, g_modR_ne _ _ _ _ h]

theorem Kept.keepRelay {ps : List Part} {d0 : Dev} {d : Dev} {r : Region} {info : Nat} {l : List Byte} (h : d0.Kept ps d)
    (hs : Part.relays ∈ ps) : d0.Kept ps (d.keepRelay r info l) :=
  h.then ((Kept.refl [.relays] d).modR fun _ p hp => by cases p <;> trivial)
    (by simpa using hs)

/-- A segment that is not the last is kept behind those before it. -/
theorem tookRelay_of_more {b : List Byte} (h : ofBE (b.take 2) + 1 < ofBE ((b.drop 2).take 2)) :
    d.tookRelay r info b = d.keepRelay r info (d.relayFrame r info b) := if_pos h

/-- The last segment completes the frame. -/
theorem tookRelay_of_last {b : List Byte} (h : ofBE ((b.drop 2).take 2) ≤ ofBE (b.take 2) + 1) :
    d.tookRelay r info b
      = (d.keepRelay r info []).tookFrame r (info / 256) (Fin.ofNat 2 (info / 32)) (info % 32) (d.relayFrame r info b) :=
  if_neg (by omega)

/-- The frame of a command reaches the primary where the pair waits for it. -/
theorem tookFrame_of_command {e : Endpoint} {n : Nat} {frame : List Byte} (hr : r.val = d.A) (hw : (d.mail e n).wait = .relay) :
    d.tookFrame r 1 e n frame = d.modMail e n fun x => { x with payload := frame.drop (if d.framesV1 then 64 else 32), wait := .fresh } :=
  if_pos ⟨rfl, hr, hw⟩

@[simp] theorem mail_withFree (n m : Nat) (e : Endpoint) : (d.withFree n).mail e m = d.mail e m := (rfl)
@[simp] theorem guest_receive (a b p : Nat) (m : Msg) : (d.receive a b m).guest p = d.guest p := (rfl)

theorem ep_modEp_same (e : Endpoint) (f : EndpointState → EndpointState) : (d.modEp e f).ep e = f (d.ep e) := by
  simp [modEp, ep]

theorem mail_modMail_same (e : Endpoint) (n : Nat) (f : MailPair → MailPair) : (d.modMail e n f).mail e n = f (d.mail e n) := by
  rw [mail, modMail, ep_modEp_same]
  exact Sparse.get_set_same ..

end Dev

section
variable {s : State} {r src : Region} {info : Nat} {payload : List Byte}

theorem exec_mgtMsg : exec (.mgtMsg r src info payload) s = s.deliverAll src.val r.val (.mgt info payload) fun d =>
    if 280 < payload.length ∨ 65536 ≤ info then d.protoErr r else if d.guest src.val then d else d.tookRelay r info payload := rfl

/-- A message of a Mladus region, of no more than a message holds, is taken as a segment of its frame. -/
theorem Carried.mgtMsg {l : List Part} {P : Dev → Prop} {d : Dev} (ht : s.dev.inTurn src.val r.val (.mgt info payload) = true)
    (hg : s.dev.guest src.val = false) (hl : payload.length ≤ 280) (hi : info < 65536)
    (hd : (s.dev.receive src.val r.val (.mgt info payload)).tookRelay r info payload = d) (ho : s.dev.OnlyIn l d)
    (hp : P (d.withFree (s.dev.free + 1))) : Carried (.mgtMsg r src info payload) s l P := by
  refine .of_deliverAll_eq exec_mgtMsg ht ?_ ho hp
  rw [if_neg (by omega), Dev.guest_receive, hg]
  exact hd

theorem mgtMsg_more_carried (ht : s.dev.inTurn src.val r.val (.mgt info payload) = true) (hg : s.dev.guest src.val = false)
    (hl : payload.length ≤ 280) (hi : info < 65536) (hm : ofBE (payload.take 2) + 1 < ofBE ((payload.drop 2).take 2)) :
    Carried (.mgtMsg r src info payload) s [.wire, .relays] fun e =>
      Sparse.get (fun _ => []) (e.g r).relays info
          = (if ofBE (payload.take 2) = 0 then [] else Sparse.get (fun _ => []) (s.dev.g r).relays info) ++ payload.drop 4
        ∧ (∀ k, k ≠ info → Sparse.get (fun _ => []) (e.g r).relays k = Sparse.get (fun _ => []) (s.dev.g r).relays k)
        ∧ (∀ q, q ≠ r → (e.g q).relays = (s.dev.g q).relays)
        ∧ e.wire = s.dev.wire.erase ⟨src.val, r.val, .mgt info payload⟩ := by
  refine .mgtMsg ht hg hl hi (Dev.tookRelay_of_more _ _ _ hm)
    (((Dev.Kept.refl _ _).receive (by decide)).keepRelay (by decide)).1 ⟨?_, fun k hk => ?_, fun q hq => ?_, ?_⟩
  · rw [Dev.g_withFree, Dev.relays_keepRelay, if_pos rfl, Dev.relayFrame, Dev.g_receive]
  · rw [Dev.g_withFree, Dev.relays_keepRelay, if_neg hk, Dev.g_receive]
  · rw [Dev.g_withFree, Dev.relays_keepRelay_ne _ _ _ _ _ hq, Dev.g_receive]
  · rw [Dev.wire_withFree, Dev.keepRelay, Dev.wire_modR, Dev.wire_receive]

theorem mgtMsg_command_carried {ep : Endpoint} {pair : Fin 32}
    (ht : s.dev.inTurn src.val r.val (.mgt (Dev.relayInfo 1 ep pair.val) payload) = true) (hg : s.dev.guest src.val = false)
    (hl : payload.length ≤ 280) (hm : ofBE ((payload.drop 2).take 2) ≤ ofBE (payload.take 2) + 1) (hr : r.val = s.dev.A)
    (hw : (s.dev.mail ep pair.val).wait = .relay) :
    Carried (.mgtMsg r src (Dev.relayInfo 1 ep pair.val) payload) s [.wire, .endpoints, .relays] fun e =>
      e.mail ep pair.val = { s.dev.mail ep pair.val with
          wait := .fresh,
          payload := ((if ofBE (payload.take 2) = 0 then [] else Sparse.get (fun _ => []) (s.dev.g r).relays (Dev.relayInfo 1 ep pair.val))
            ++ payload.drop 4).drop (if s.dev.framesV1 then 64 else 32) }
        ∧ Sparse.get (fun _ => []) (e.g r).relays (Dev.relayInfo 1 ep pair.val) = [] := by
  obtain ⟨hkind, hep, hpair⟩ := relayInfo_parts 1 ep pair
  let d := s.dev.receive src.val r.val (.mgt (Dev.relayInfo 1 ep pair.val) payload)
  have hi : Dev.relayInfo 1 ep pair.val < 65536 := by omega
  have hd : d.tookRelay r (Dev.relayInfo 1 ep pair.val) payload
      = (d.keepRelay r (Dev.relayInfo 1 ep pair.val) []).modMail ep pair.val fun x =>
        { x with payload := (d.relayFrame r (Dev.relayInfo 1 ep pair.val) payload).drop (if d.framesV1 then 64 else 32), wait := .fresh } := by
    rw [d.tookRelay_of_last r _ hm, hkind, hep, hpair]
    exact Dev.tookFrame_of_command _ r hr hw
  refine .mgtMsg ht hg hl hi hd ((((Dev.Kept.refl _ _).receive (by decide)).keepRelay (by decide)).modMail (by decide)).1 ⟨?_, ?_⟩
  · rw [Dev.mail_withFree, Dev.mail_modMail_same]
    rfl
  · exact (Dev.relays_keepRelay ..).trans (if_pos rfl)

theorem not_signalReg_cfErr : ¬ signalReg (RGN_CF_ERR r.val) := Dev.not_signalReg_rgn r (by norm_num) (by norm_num) (by norm_num)

/-- A protocol error sets its bit in RGN_CF_ERR, and no other register changes beside what its source changes. -/
theorem Dev.protoErr_sets (d : Dev) (r : Region) :
    (d.protoErr r).on (RGN_CF_ERR_protocol r.val) = true ∧ d.RegsSig [RGN_CF_ERR r.val] (d.protoErr r) :=
  ⟨d.on_err (by simp [RGN_CF_ERR_protocol]) (by simp [RGN_CF_ERR_protocol]) not_signalReg_cfErr _ _,
    (RegsBut.refl _ d).err (.inl (by simp [RGN_CF_ERR_protocol])) RegsSig.of_signal⟩

theorem mgtMsg_long_carried (ht : s.dev.inTurn src.val r.val (.mgt info payload) = true) (hl : 280 < payload.length) :
    Carried (.mgtMsg r src info payload) s [.regs, .wire, .ctxs] fun e =>
      e.on (RGN_CF_ERR_protocol r.val) = true ∧ s.dev.RegsSig [RGN_CF_ERR r.val] e := by
  obtain ⟨hon, hreg⟩ := (s.dev.receive src.val r.val (.mgt info payload)).protoErr_sets r
  exact .of_deliverAll_eq exec_mgtMsg ht (if_pos (.inl hl))
    (((Dev.Kept.refl _ _).receive (by decide)).protoErr (by decide)).1
    ⟨(Dev.on_withFree ..).trans hon, (Dev.regsSig_withFree ..).2 ((Dev.RegsBut.refl _ _).receive.trans hreg)⟩

end

/-! ### The refill pass (R309) -/

/-- A background pass refills the meter where its lines are good. -/
theorem meterRefillPass_carried {s : State} {r : Region} {table index : Nat} (hk : (s.dev.table r table).kind = 10)
    (hi : index < (s.dev.table r table).entries) (hm : s.dev.mladus r.val = true)
    (hb : s.dev.slotBad r table (s.dev.table r table) index = false)
    (hp : (s.dev.table r table).place = 1 → s.dev.stackFailed r.val = false) :
    Carried (.meterRefillPass r table index) s [.mem] fun e =>
      e.meterAt (Dev.tableAddr r (s.dev.table r table) (index * 32))
          = (let m := (s.dev.meterAt (Dev.tableAddr r (s.dev.table r table) (index * 32))).refill (s.dev.g r).tick
             { m with tc := m.tc % 2 ^ 32, tp := m.tp % 2 ^ 32 })
        ∧ ∀ a, a < Dev.tableAddr r (s.dev.table r table) (index * 32) + 16 ∨ Dev.tableAddr r (s.dev.table r table) (index * 32) + 28 ≤ a →
            e.byte a = s.dev.byte a := by
  have hx : exec (.meterRefillPass r table index) s = execMeterRefillPass r table index s := rfl
  let a := Dev.tableAddr r (s.dev.table r table) (index * 32)
  let m := (s.dev.meterAt a).refill (s.dev.g r).tick
  have hgood : (s.dev.slotBad r table (s.dev.table r table) index || ((s.dev.table r table).place == 1 && s.dev.stackFailed r.val)) = false := by
    simpa [hb] using hp
  refine .of_doing (d := s.dev.setMeter a m) hx ?_ ((Dev.Kept.refl _ _).setMeter fun _ => id).1
    ⟨(s.dev.meterAt_setMeter a m).trans ?_, fun x => s.dev.byte_setMeter_of_ne m⟩
  · simp only [hk, hm, hgood, Nat.not_le.2 hi]
    rfl
  · obtain ⟨tc, tp, hr⟩ := (s.dev.meterAt a).refill_eq (s.dev.g r).tick
    simp [m, hr, a]

/-! ### Reports of guests (R684, R699) -/

section
variable {s : State} {r src : Region} {code : Nat} {detail : List Byte}

theorem exec_errReport : exec (.errReport r src code detail) s = s.deliverAll src.val r.val (.errReport code detail) fun d =>
    if !d.guest src.val then d.protoErr r
    else
      (((d.setFld (RGN_CF_GERR_region r.val) src.val).setFld (RGN_CF_GERR_code r.val) code).err (RGN_CF_ERR_guest_err r.val) r 0x348).journal
        r 0x030B (unitId 4 src.val 0) (bytesLE 1 code ++ detail) := rfl

/-- A guest's report leaves its region and its code. -/
theorem errReport_guest_carried (ht : s.dev.inTurn src.val r.val (.errReport code detail) = true) (hg : s.dev.guest src.val = true)
    (hc : code < 256) : Carried (.errReport r src code detail) s [.regs, .mem, .wire, .line, .ctxs, .endpoints, .journal] fun e =>
      e.fld (RGN_CF_GERR_region r.val) = src.val ∧ e.fld (RGN_CF_GERR_code r.val) = code
        ∧ e.on (RGN_CF_ERR_guest_err r.val) = true := by
  let d := ((s.dev.receive src.val r.val (.errReport code detail)).setFld (RGN_CF_GERR_region r.val) src.val).setFld
    (RGN_CF_GERR_code r.val) code
  have hs := src.isLt
  have hreg : d.fld (RGN_CF_GERR_region r.val) = src.val := by
    rw [Dev.fld_setFld_beside _ _ _ _ (by simp [RGN_CF_GERR_code]) (by simp [RGN_CF_GERR_code, RGN_CF_GERR_region]),
      Dev.fld_setFld_same _ _ _ (by simp [RGN_CF_GERR_region])]
    exact Nat.mod_eq_of_lt hs
  have hcode : d.fld (RGN_CF_GERR_code r.val) = code :=
    (Dev.fld_setFld_same _ _ _ (by simp [RGN_CF_GERR_code])).trans (Nat.mod_eq_of_lt hc)
  have hjnl {f : Fld} {x : Nat} (hf : f.addr = rgnReg r.val x) (hx : x < 0xD00000) (e : Dev) :
      (e.journal r 0x030B (unitId 4 src.val 0) (bytesLE 1 code ++ detail)).fld f = e.fld f :=
    Dev.fld_congr f (Dev.reg_journalAs e (hf ▸ Dev.rgnReg_not_mem_journalRegs r hx) ..)
  have herr {f : Fld} (hf : f.addr = RGN_CF_GERR r.val) : (d.err (RGN_CF_ERR_guest_err r.val) r 0x348).fld f = d.fld f :=
    d.fld_err_ne (hf ▸ mt rgnReg_inj.1 (by norm_num)) (hf ▸ Dev.not_signalReg_rgn r (by norm_num) (by norm_num) (by norm_num)) ..
  refine .of_deliverAll_eq exec_errReport ht (if_neg (by rw [Dev.guest_receive, hg]; decide))
    ((((((Dev.Kept.refl _ _).receive (by decide)).setFld (by decide)).setFld (by decide)).err (by decide)).journal (by decide)).1 ⟨?_, ?_, ?_⟩
  · rw [Dev.fld_withFree, hjnl (x := 0x700114) rfl (by norm_num), herr rfl, hreg]
  · rw [Dev.fld_withFree, hjnl (x := 0x700114) rfl (by norm_num), herr rfl, hcode]
  · rw [Dev.on_withFree, Dev.on_eq_true, hjnl (x := 0x70010C) rfl (by norm_num), ← Dev.on_eq_true]
    exact d.on_err (by simp [RGN_CF_ERR_guest_err]) (by simp [RGN_CF_ERR_guest_err]) not_signalReg_cfErr _ _

/-- A report that comes from no guest is a protocol error. -/
theorem errReport_mladus_carried (ht : s.dev.inTurn src.val r.val (.errReport code detail) = true) (hg : s.dev.guest src.val = false) :
    Carried (.errReport r src code detail) s [.regs, .wire, .ctxs] fun e =>
      e.on (RGN_CF_ERR_protocol r.val) = true ∧ s.dev.RegsSig [RGN_CF_ERR r.val] e := by
  obtain ⟨hon, hreg⟩ := (s.dev.receive src.val r.val (.errReport code detail)).protoErr_sets r
  exact .of_deliverAll_eq exec_errReport ht (if_pos (by rw [Dev.guest_receive, hg]; rfl))
    (((Dev.Kept.refl _ _).receive (by decide)).protoErr (by decide)).1
    ⟨(Dev.on_withFree ..).trans hon, (Dev.regsSig_withFree ..).2 ((Dev.RegsBut.refl _ _).receive.trans hreg)⟩

end

/-- Settles O30, clause by clause. -/
theorem mpMessagesGuestReportsAndMeters : Obligations.MpMessagesGuestReportsAndMeters :=
  ⟨fun _ _ _ _ _ => mgtMsg_more_carried, fun _ _ _ _ _ _ => mgtMsg_command_carried, fun _ _ _ _ _ => mgtMsg_long_carried,
    fun _ _ _ _ => meterRefillPass_carried, fun _ _ _ _ _ => errReport_guest_carried, fun _ _ _ _ _ => errReport_mladus_carried⟩

end Sys2Proof.Machine

namespace Sys2Proof.Machine

/-- A context that has taken a trap (R360, R361). -/
def Ctx.trapped (c : Ctx) (cause : Nat) (tval : Word) : Ctx :=
  { c with mepc := c.pc, mcause := BitVec.ofNat 32 cause, mtval := tval, mpie := c.mie, mie := false, pc := c.mtvec &&& ~~~3#32, mode := .running }

namespace Dev

/-! ### One context, one packet -/

section
variable (d : Dev) (k j n m : Nat)

theorem ctx_modCtx (f : Ctx → Ctx) : (d.modCtx k f).ctx j = if j = k then f (d.ctx k) else d.ctx j := Sparse.get_set ..
@[simp] theorem ctx_modCtx_same (f : Ctx → Ctx) : (d.modCtx k f).ctx k = f (d.ctx k) := Sparse.get_set_same ..
theorem ctx_modCtx_ne (f : Ctx → Ctx) (h : j ≠ k) : (d.modCtx k f).ctx j = d.ctx j := by rw [ctx_modCtx, if_neg h]
@[simp] theorem ctx_withFree : (d.withFree n).ctx k = d.ctx k := (rfl)

theorem ctx_setX_ne (i : Nat) (v : Word) (h : j ≠ k) : (d.setX k i v).ctx j = d.ctx j := by
  unfold setX
  split_ifs
  · rfl
  · exact ctx_modCtx_ne _ _ _ _ h

/-- Only the integer registers of a context change with one of them. -/
theorem ctx_setX_same (i : Nat) (v : Word) : ∃ x, (d.setX k i v).ctx k = { d.ctx k with x := x } := by
  unfold setX
  split_ifs
  · exact ⟨_, rfl⟩
  · exact ⟨_, ctx_modCtx_same ..⟩

theorem takeTrap_eq (cause : Nat) (tval : Word) : d.takeTrap k cause tval = d.modCtx k (·.trapped cause tval) := rfl

theorem pkt_modPkt (f : Packet → Packet) : (d.modPkt n f).pkt m = if m = n then (d.pkt n).map f else d.pkt m := by
  unfold modPkt
  cases h : d.pkt n with
  | none =>
    split_ifs with hm
    · rw [hm, h]; rfl
    · rfl
  | some p => exact pkt_setPkt ..

@[simp] theorem pkt_modPkt_same (f : Packet → Packet) : (d.modPkt n f).pkt n = (d.pkt n).map f := by rw [pkt_modPkt, if_pos rfl]

end

theorem ctx_congr {d e : Dev} (h : e.ctxs = d.ctxs) (k : Nat) : e.ctx k = d.ctx k := by rw [ctx, ctx, h]

/-! ### What runs beside a program (R358, R399)

Interrupts and what they set off reach no worker; they trap a supervisor context that runs at most once, since the trap masks further ones,
and wake one that waits. What else goes on then - copies settled, chains freed, events counted - brings no packet back that is gone. -/

/-- What goes on beside the programs. -/
structure Calm (d e : Dev) : Prop where
  workers : ∀ j, j % 32 ≠ 16 → e.ctx j = d.ctx j
  lists : ∀ j, (e.ctx j).outstanding = (d.ctx j).outstanding ∧ (e.ctx j).placed = (d.ctx j).placed
  traps : ∀ j, (d.ctx j).mode = .running → e.ctx j = d.ctx j ∨ (d.ctx j).mie = true ∧ ∃ n, e.ctx j = (d.ctx j).trapped n 0
  gone : ∀ n, d.pkt n = none → e.pkt n = none

theorem Calm.refl (d : Dev) : d.Calm d := ⟨fun _ _ => rfl, fun _ => ⟨rfl, rfl⟩, fun _ _ => .inl rfl, fun _ => id⟩

section
variable {d0 d e : Dev}

theorem Calm.of_same (hc : ∀ j, e.ctx j = d.ctx j) (hp : ∀ n, d.pkt n = none → e.pkt n = none) : d.Calm e :=
  ⟨fun j _ => hc j, fun j => by rw [hc]; exact ⟨rfl, rfl⟩, fun j _ => .inl (hc j), hp⟩

theorem Calm.of_kept {l : List Part} (k : d.Kept l e) (hl : ∀ p ∈ [Part.ctxs, .packets], p ∉ l := by decide) : d.Calm e :=
  .of_same (ctx_congr (k.1 .ctxs (hl _ (by decide)))) fun n => by rw [pkt_congr (k.1 .packets (hl _ (by decide)))]; exact id

variable (h : d0.Calm d)
include h

theorem Calm.trans (k : d.Calm e) : d0.Calm e where
  workers j hj := (k.workers j hj).trans (h.workers j hj)
  lists j := ⟨(k.lists j).1.trans (h.lists j).1, (k.lists j).2.trans (h.lists j).2⟩
  traps j hj := by
    rcases h.traps j hj with h1 | ⟨hm, n, h1⟩
    · rw [← h1] at hj ⊢
      exact k.traps j hj
    · refine .inr ⟨hm, n, ?_⟩
      rcases k.traps j (by rw [h1]; rfl) with h2 | ⟨hm, -⟩
      · rw [h2, h1]
      · rw [h1] at hm
        cases hm
  gone n hn := k.gone n (h.gone n hn)

theorem Calm.kept {l : List Part} (k : d.Kept l e) (hl : ∀ p ∈ [Part.ctxs, .packets], p ∉ l := by decide) : d0.Calm e := h.trans (.of_kept k hl)

theorem Calm.ite {c : Prop} [Decidable c] (k : d0.Calm e) : d0.Calm (if c then d else e) := by
  split_ifs
  · exact h
  · exact k

theorem Calm.ite_fst {α : Type} {c : Prop} [Decidable c] {x : α} {y : Dev × α} (k : d0.Calm y.1) : d0.Calm (if c then (d, x) else y).1 := by
  split_ifs
  · exact h
  · exact k

theorem Calm.foldl {α : Type} {f : Dev → α → Dev} {l : List α} (hf : ∀ (e : Dev) a, d0.Calm e → d0.Calm (f e a)) : d0.Calm (l.foldl f d) := by
  induction l generalizing d with
  | nil => exact h
  | cons a t ih => exact ih (hf d a h)

theorem Calm.each {α : Type} {f : α → Dev → Dev} {l : List α} (hf : ∀ a (e : Dev), d0.Calm e → d0.Calm (f a e)) : d0.Calm (d.each l f) :=
  Calm.foldl (f := fun d a => f a d) h fun e a => hf a e

theorem Calm.setReg {a : Nat} {w : Word} : d0.Calm (d.setReg a w) := h.kept (setReg_kept ..)
theorem Calm.setFld {f : Fld} {v : Nat} : d0.Calm (d.setFld f v) := h.setReg
theorem Calm.setPair {a b v : Nat} : d0.Calm (d.setPair a b v) := h.setReg.setReg
theorem Calm.send {p q : Nat} {x : Msg} : d0.Calm (d.send p q x) := h.kept (send_kept ..)

/-- A supervisor context that does not run may go on otherwise, where it keeps its lists. -/
theorem Calm.supervisor {k : Nat} (hk : k % 32 = 16) (hm : (d.ctx k).mode ≠ .running) (he : ∀ j, j ≠ k → e.ctx j = d.ctx j)
    (hf : (e.ctx k).outstanding = (d.ctx k).outstanding ∧ (e.ctx k).placed = (d.ctx k).placed) (hp : e.packets = d.packets) : d0.Calm e := by
  refine h.trans ⟨fun j hj => he j fun hjk => hj (hjk ▸ hk), fun j => ?_, fun j hj => .inl (he j fun hjk => hm (hjk ▸ hj)), fun n => ?_⟩
  · by_cases hjk : j = k
    · rw [hjk]; exact hf
    · rw [he j hjk]; exact ⟨rfl, rfl⟩
  · rw [pkt_congr hp]; exact id

theorem Calm.trapFor {k pend : Nat} : d0.Calm (d.trapFor k pend) := by
  unfold Dev.trapFor
  dsimp only
  by_cases hc : k % 32 = 16 ∧ (d.ctx k).mie = true ∧ (d.ctx k).mode = .running ∧ pend &&& (d.ctx k).mieMask.toNat ≠ 0
  · rw [if_pos hc, takeTrap_eq]
    obtain ⟨hk, hm, hr, -⟩ := hc
    refine h.trans ⟨fun j hj => ctx_modCtx_ne _ _ _ _ fun hjk => hj (hjk ▸ hk), fun j => ?_, fun j hj => ?_, fun _ => id⟩
    · rcases eq_or_ne j k with rfl | hjk
      · rw [ctx_modCtx_same]; exact ⟨rfl, rfl⟩
      · rw [ctx_modCtx_ne _ _ _ _ hjk]; exact ⟨rfl, rfl⟩
    · rcases eq_or_ne j k with rfl | hjk
      · exact .inr ⟨hm, _, ctx_modCtx_same ..⟩
      · exact .inl (ctx_modCtx_ne _ _ _ _ hjk)
  · rw [if_neg hc]
    exact h

theorem Calm.wake {k : Nat} (hk : k % 32 = 16) : d0.Calm (d.wake k) := by
  unfold Dev.wake Dev.interruptTrap
  dsimp only
  split_ifs with hc
  · refine Calm.trapFor (h.supervisor hk (by rw [hc.1]; decide) (fun j hj => ?_) ?_ ?_)
    · rw [ctx_setX_ne _ _ _ _ _ hj, ctx_modCtx_ne _ _ _ _ hj]
    · obtain ⟨x, hx⟩ := ctx_setX_same (d.modCtx k fun c => { c with
        mode := .running, waitMask := 0, waitRd := 0,
        sticky := c.sticky - (c.sticky &&& ((d.events k &&& wakeBits k (d.ctx k).waitMask) &&& stickyMask)) })
        k (d.ctx k).waitRd (BitVec.ofNat 32 (d.events k &&& wakeBits k (d.ctx k).waitMask))
      rw [hx, ctx_modCtx_same]
      exact ⟨rfl, rfl⟩
    · exact ((setX_kept ..).1 .packets (by decide)).trans rfl
  · exact h.trapFor

/-! #### Signals -/

theorem Calm.deliver {r : Region} {n : Nat} : d0.Calm (d.deliver r n) := by
  unfold Dev.deliver
  refine .ite (.ite (.ite h.setFld.send h.setFld.send) (.ite ?_ (.ite h.setFld.send h.setFld.send))) h
  exact .ite (h.wake (by omega)) h

theorem Calm.arrive {r : Region} {n : Nat} : d0.Calm (d.arrive r n).1 := by
  unfold Dev.arrive
  split
  · exact .ite_fst h.setFld.setFld h.setFld.deliver
  · exact h

theorem Calm.signalOne {x : Signal} : d0.Calm (d.signalOne x).1 := by
  unfold Dev.signalOne
  split
  · exact h.arrive
  · dsimp only
    exact h.kept (l := [.regs]) (((Kept.refl _ d).monBank (by decide)).monRegion (by decide))
  · exact h.kept (l := [.regs]) ((Kept.refl _ d).monRegion (by decide))
  · exact h.kept (l := [.regs]) ((Kept.refl _ d).monBank (by decide))

theorem Calm.signals {n : Nat} {l : List Signal} : d0.Calm (signals n d l) := by
  induction n generalizing d l with
  | zero => cases l <;> exact h
  | succ n ih =>
    cases l with
    | nil => exact h
    | cons x t => exact ih h.signalOne

theorem Calm.raise {r : Region} {n : Nat} : d0.Calm (d.raise r n) := h.signals
theorem Calm.event {r : Region} {sel qual n : Nat} : d0.Calm (d.event r sel qual n) := h.signals
theorem Calm.bevent {r : Region} {b sel qual : Nat} : d0.Calm (d.bevent r b sel qual) := h.signals
theorem Calm.err {f : Fld} {r : Region} {n : Nat} : d0.Calm (d.err f r n) := h.setFld.raise

end

/-! ### What operations on chains and copies let stand (R565, R568, R578, R580)

Freeing a chain, returning a reference and settling a copy write registers of regions, raise sources and post journal entries, and may end a
packet. A property of the part that survives each of these survives them all. -/

/-- A property that survives what chains and copies do one thing at a time. -/
structure Survives (P : Dev → Prop) : Prop where
  kept {d e : Dev} {l : List Part} : P d → d.Kept l e → (∀ p ∈ [Part.regs, .ctxs, .packets, .endpoints], p ∉ l) → P e
  setReg {d : Dev} {a : Nat} {w : Word} : P d → a < 2 ^ 48 → P (d.setReg a w)
  raise {d : Dev} {r : Region} {n : Nat} : P d → P (d.raise r n)
  event {d : Dev} {r : Region} {sel qual n : Nat} : P d → P (d.event r sel qual n)
  journal {d : Dev} {r : Region} {code : Nat} {detail : List Byte} : P d → P (d.journalRegion r code detail)
  setPkt {d : Dev} {n : Nat} {p : Option Packet} : P d → (d.pkt n = none → p = none) → P (d.setPkt n p)

theorem rgnReg_lt {r : Region} {x : Nat} (hx : x < 0x10000000) : rgnReg r.val x < 2 ^ 48 := by
  have := r.isLt
  unfold rgnReg
  omega

section
variable {P : Dev → Prop} {d : Dev} (h : P d)
include h

theorem holds_ite {c : Prop} [Decidable c] {e : Dev} (k : P e) : P (if c then d else e) := by
  split_ifs
  · exact h
  · exact k

theorem holds_ite_fst {α : Type} {c : Prop} [Decidable c] {x : α} {y : Dev × α} (k : P y.1) : P (if c then (d, x) else y).1 := by
  split_ifs
  · exact h
  · exact k

end

section
variable {P : Dev → Prop} (hP : Survives P) {d : Dev} (h : P d)
include hP h

theorem Survives.setRgn {r : Region} {x lo width v : Nat} (hx : x < 0x10000000) : P (d.setFld ⟨rgnReg r.val x, lo, width⟩ v) :=
  hP.setReg h (rgnReg_lt hx)

theorem Survives.setPoolFree {r : Region} {pool n : Nat} : P (d.setPoolFree r pool n) := by
  have hs : P (d.setFld (RGN_BPM_FREE_onchip_free r.val) n) := hP.setRgn h (by norm_num)
  exact holds_ite (holds_ite (hP.raise hs) hs) (hP.setRgn h (by norm_num))

theorem Survives.charge {r : Region} {l : Nat} {f : Nat → Nat} : P (d.charge r l f) := by
  unfold Dev.charge
  split_ifs with hl
  · refine hP.setRgn h ?_
    simp only [hasQuota, Bool.or_eq_true, decide_eq_true_eq, beq_iff_eq] at hl
    omega
  · exact h

theorem Survives.pfcCheck {r : Region} {p cls : Nat} (hp : p < 8) : P (d.pfcCheck r p cls) := by
  unfold Dev.pfcCheck
  have hs {s : PauseState} {v : Nat} : P ((d.setPause r p cls s).setFld (RGN_EP_STAT_sent r.val p) v) :=
    hP.setRgn (hP.kept h ((Kept.refl [.egress] d).setPause fun _ => id) (by decide)) (by omega)
  have he {s : PauseState} {v : Nat} {o : LineOut} : P (((d.setPause r p cls s).setFld (RGN_EP_STAT_sent r.val p) v).emit o) :=
    hP.kept hs ((Kept.refl [.line] _).emit fun _ => id) (by decide)
  exact holds_ite he (holds_ite he h)

theorem Survives.abuse {r : Region} {kind requester x : Nat} : P (d.abuse r kind requester x) := by
  unfold Dev.abuse
  have h1 {v w : Word} : P ((d.setReg (RGN_BPM_ABUSE_LO r.val) v).setReg (RGN_BPM_ABUSE_HI r.val) w) :=
    hP.setReg (hP.setReg h (rgnReg_lt (by norm_num))) (rgnReg_lt (by norm_num))
  have h2 {f : Fld} {v w : Word} (hf : f.addr = RGN_BPM_ABUSE_CNT r.val) :
      P (((d.setReg (RGN_BPM_ABUSE_LO r.val) v).setReg (RGN_BPM_ABUSE_HI r.val) w).addSat f 1) :=
    hP.setReg h1 (hf ▸ rgnReg_lt (by norm_num))
  refine hP.journal (hP.raise (hP.event (hP.setRgn (h2 ?_) (by norm_num))))
  split <;> rfl

theorem Survives.setDesc {x : Nat} {s : StitchDesc} : P (d.setDesc x s) := hP.kept h ((Kept.refl [.pool] d).setDesc fun _ => id) (by decide)

theorem Survives.freeWalk {r : Region} {issuer : Nat} {l : List Nat} : P (d.freeWalk r issuer l).1 := by
  induction l generalizing d with
  | nil => exact h
  | cons x t ih =>
    unfold Dev.freeWalk
    refine holds_ite_fst (hP.setRgn (hP.abuse h) (by norm_num)) ?_
    extract_lets pool d1 d2 d3
    have h1 : P d1 := hP.kept (hP.setDesc h) ((Kept.refl [.mem, .pool] _).pushList fun _ => id) (by decide)
    have h2 : P d2 := hP.event (hP.charge (hP.setPoolFree h1))
    have h3 : P d3 := by
      unfold d3
      split_ifs with hc
      · exact hP.pfcCheck h2 hc
      · exact h2
    exact holds_ite_fst h3 (ih h3)

theorem Survives.derefOne {issuer x : Nat} : P (d.derefOne issuer x).1 :=
  holds_ite_fst (hP.abuse h) (holds_ite_fst (hP.abuse h) (by
    dsimp only
    split_ifs
    · exact hP.freeWalk (hP.setDesc h)
    · exact hP.setDesc h))

theorem Survives.derefs {n issuer x : Nat} : P (derefs n d issuer x) := by
  induction n generalizing d issuer x with
  | zero => exact h
  | succ n ih =>
    have h1 := hP.derefOne h (issuer := issuer) (x := x)
    unfold Dev.derefs
    split
    next hx => exact ih (by rwa [hx] at h1)
    next hx => rwa [hx] at h1

theorem Survives.deref {issuer x : Nat} : P (d.deref issuer x) := hP.derefs h

theorem Survives.free' {issuer x : Nat} : P (d.free' issuer x) := by
  have hw := hP.freeWalk h (r := R (handleRegion x)) (issuer := issuer) (l := d.chain 512 x)
  refine holds_ite (hP.abuse h) (holds_ite (hP.abuse h) (holds_ite (hP.abuse h) (holds_ite (hP.setDesc h) ?_)))
  unfold Dev.freeChain
  split
  next hx => rw [hx] at hw; exact hP.deref hw
  next hx => rwa [hx] at hw

theorem Survives.freePkt {r : Region} {x : Nat} : P (d.freePkt r x) := hP.free' h

theorem Survives.handover {issuer x dest : Nat} : P (d.handover issuer x dest) :=
  holds_ite (hP.abuse h) (holds_ite (hP.abuse h) (holds_ite (hP.abuse h) (hP.setDesc h)))

theorem Survives.addref {issuer x : Nat} : P (d.addref issuer x) :=
  holds_ite (hP.abuse h) (holds_ite (hP.abuse h) (holds_ite (hP.abuse h) (hP.setDesc h)))

theorem Survives.freeOrig {r : Region} {p : Packet} : P (d.freeOrig r p) := by
  unfold Dev.freeOrig
  split
  · exact hP.freePkt h
  · exact h

theorem Survives.copyDone {r : Region} {n : Nat} : P (d.copyDone r n) := by
  unfold Dev.copyDone
  split
  · exact h
  next p hp => exact holds_ite (hP.setPkt (hP.freeOrig (holds_ite h (hP.freePkt h))) fun _ => rfl) (hP.setPkt h fun hn => by rw [hn] at hp; cases hp)

theorem Survives.modCopyout {r : Region} {x : Stamp} {k : Nat} {f : Copyout → Option Copyout} : P (d.modCopyout r x k f) :=
  hP.kept h ((Kept.refl [.egress] d).modCopyout fun _ => id) (by decide)

theorem Survives.settle {r : Region} {x : Stamp} {k requester : Nat} : P (d.settle r x k requester) := by
  unfold Dev.settle
  split
  · exact h
  · dsimp only
    split
    · exact hP.modCopyout (hP.deref h)
    · exact hP.modCopyout h
    · exact hP.copyDone (hP.freePkt (hP.modCopyout h))
    · exact hP.copyDone (hP.modCopyout h)
    · exact hP.copyDone (hP.modCopyout (holds_ite (hP.freePkt (hP.addref h)) (hP.handover h)))
    · exact h

theorem Survives.reportOutcome {r : Region} {x : ReleaseRec} {outcome requester : Nat} : P (d.reportOutcome r x outcome requester) :=
  holds_ite (hP.settle (hP.modCopyout h)) (hP.kept h (send_kept ..) (by decide))

end

/-! ### What runs beside a program goes on beside it while chains and copies are dealt with -/

section
variable {d0 d e : Dev} (h : d0.Calm d)
include h

theorem Calm.modEgress {r : Region} {f : EgressState → EgressState} : d0.Calm (d.modEgress r f) := h.kept ((Kept.refl _ d).modEgress fun _ => id)
theorem Calm.modDsp {r : Region} {f : DispatchState → DispatchState} : d0.Calm (d.modDsp r f) := h.kept ((Kept.refl _ d).modDsp fun _ => id)

theorem Calm.setPkt {n : Nat} {p : Option Packet} (hp : d.pkt n = none → p = none) : d0.Calm (d.setPkt n p) :=
  h.trans (.of_same (fun _ => rfl) fun m hm => by
    rw [pkt_setPkt]
    split_ifs with hmn
    · exact hp (hmn ▸ hm)
    · exact hm)

theorem Calm.modPkt {n : Nat} {f : Packet → Packet} : d0.Calm (d.modPkt n f) := by
  unfold Dev.modPkt
  split
  next p hp => exact h.setPkt fun hn => by rw [hn] at hp; cases hp
  · exact h

omit h in
theorem Calm.survives : Survives d0.Calm where
  kept h k hl := h.kept k fun p hp => hl p (by revert p; decide)
  setReg h _ := h.setReg
  raise h := h.raise
  event h := h.event
  journal h := h.kept ((Kept.refl _ _).journalRegion fun _ => id)
  setPkt h := h.setPkt

theorem Calm.reportOutcome {r : Region} {x : ReleaseRec} {outcome requester : Nat} : d0.Calm (d.reportOutcome r x outcome requester) :=
  Calm.survives.reportOutcome h

theorem Calm.dropCount {r : Region} {code : Nat} : d0.Calm (d.dropCount r code) := h.setPair.event
theorem Calm.refuse {r : Region} {x : ReleaseRec} {code : Nat} : d0.Calm (d.refuse r x code) := h.dropCount.reportOutcome

theorem Calm.enqueueHost {r : Region} {x : ReleaseRec} : d0.Calm (d.enqueueHost r x) := by
  unfold Dev.enqueueHost
  split
  · exact h.refuse
  · exact .ite h.refuse.raise (h.kept ((Kept.refl _ d).modEp fun _ => id)).reportOutcome

theorem Calm.enqueue {r : Region} {x : ReleaseRec} : d0.Calm (d.enqueue r x) := by
  unfold Dev.enqueue
  refine .ite h.refuse (.ite (.ite h.reportOutcome h.refuse) (.ite h.enqueueHost (.ite h.setFld.refuse (.ite h.refuse ?_))))
  extract_lets n onchip wants room spill d1 entry d2 d3
  have h1 : d0.Calm d1 := .ite h.err h
  have h2 : d0.Calm d2 := (h1.kept ((Kept.refl _ d1).setQueue fun _ => id)).event
  exact (Calm.ite h2.modEgress.event h2).reportOutcome

theorem Calm.releaseRecords {n : Nat} {x : Stamp} : d0.Calm (d.releaseRecords n x) :=
  h.foldl fun _ _ h => h.modEgress.each fun _ _ h => h.enqueue

theorem Calm.unqueue {r : Region} {q n : Nat} : d0.Calm (d.unqueue r q n) := h.kept ((Kept.refl _ d).unqueue fun _ => id)

theorem Calm.pressure {r : Region} : d0.Calm (d.pressure r) := .ite h.modDsp.setReg.event.raise h.modDsp.setReg

theorem Calm.freeEntry {n : Nat} : d0.Calm (d.freeEntry n) := by
  unfold Dev.freeEntry
  split
  · exact .ite h.modPkt.modDsp.pressure h
  · exact h

/-! #### Lookups and learning (R305, R318, R334) -/

theorem Calm.markBad {r : Region} {table line : Nat} : d0.Calm (d.markBad r table line) := by
  unfold Dev.markBad
  refine .ite h ?_
  extract_lets d1 d2 d3
  have h1 : d0.Calm d1 := (h.kept ((Kept.refl _ d).modTables fun _ => id)).kept ((Kept.refl _ _).countBad fun _ => id)
  have h3 : d0.Calm d3 := h1.setReg.setReg.err
  exact .ite h3.raise h3

theorem Calm.searchErrors {r : Region} {n : Nat} {key : List Byte} {bad : List Nat} : d0.Calm (d.searchErrors r n key bad) :=
  h.foldl fun _ _ h => h.markBad.kept ((Kept.refl _ _).requestRepair fun _ => id)

theorem Calm.counterLookup {r : Region} {n i length : Nat} {t : TableDesc} : d0.Calm (d.counterLookup r n t i length).1 :=
  .ite_fst h (.ite_fst ((h.kept (zero_kept ..)).kept ((Kept.refl _ _).markGood fun _ => id)).err
    ((h.kept (setLE_kept ..)).kept (setLE_kept ..)))

theorem Calm.meterLookup {r : Region} {n i length : Nat} {t : TableDesc} {b : Bool} : d0.Calm (d.meterLookup r n t i length b).1 :=
  .ite_fst h (.ite_fst ((h.kept (zero_kept ..)).kept ((Kept.refl _ _).markGood fun _ => id)).err
    (h.kept ((Kept.refl _ _).setMeter fun _ => id)))

theorem Calm.lookup {r : Region} {n length : Nat} {key : List Byte} {b : Bool} : d0.Calm (d.lookup r n key length b).1 := by
  unfold Dev.lookup
  extract_lets t d1
  have h1 : d0.Calm d1 := h.event
  clear_value d1
  refine .ite_fst h1 (.ite_fst h1 ?_)
  have hx {x : Dev × LookupResult} (hx : d0.Calm x.1) : d0.Calm (if x.2.hit then x.1.event r 0x121 n else x.1) := .ite hx.event hx
  refine hx ?_
  split
  · exact .ite (h1.kept ((Kept.refl _ _).recordHit fun _ => id)) h1
  · exact h1
  · exact h1
  · split
    · exact .ite_fst h1 h1
    · exact h1
  · split
    · exact .ite_fst h1 h1
    · exact h1
  · split <;> exact h1
  · split <;> exact h1
  · exact .ite_fst h1 (.ite_fst h1 (.ite_fst h1 h1))
  · exact h1.counterLookup
  · exact h1.meterLookup

theorem Calm.hit {r : Region} {n slot : Nat} : d0.Calm (d.hit r n slot) := h.kept ((Kept.refl _ d).hit fun _ => id)

end

end Dev
end Sys2Proof.Machine

namespace Sys2Proof.Machine
namespace Dev

/-! ### A program's lookup is written to its context's memory (R317, R389, R390) -/

@[simp] theorem poisoned_withFree (d : Dev) (n a : Nat) : (d.withFree n).poisoned a = d.poisoned a := (rfl)

theorem poisoned_setPoison (d : Dev) (a x : Nat) (b : Bool) : (d.setPoison a b).poisoned x = if x / 32 = a / 32 then b else d.poisoned x :=
  Sparse.get_set ..

@[simp] theorem poisoned_setPoison_same (d : Dev) (a : Nat) (b : Bool) : (d.setPoison a b).poisoned a = b := by
  rw [poisoned_setPoison, if_pos rfl]

@[simp] theorem byte_setPoison (d : Dev) (a x : Nat) (b : Bool) : (d.setPoison a b).byte x = d.byte x := (rfl)

@[simp] theorem ctx_setPoison (d : Dev) (a k : Nat) (b : Bool) : (d.setPoison a b).ctx k = d.ctx k := (rfl)
@[simp] theorem ctx_setBytes (d : Dev) (a k : Nat) (l : List Byte) : (d.setBytes a l).ctx k = d.ctx k :=
  ctx_congr ((setBytes_kept ..).1 .ctxs (by decide)) k

theorem Signalled.poisoned {d e : Dev} (h : d.Signalled e) (a : Nat) : e.poisoned a = d.poisoned a := by
  rw [Dev.poisoned, Dev.poisoned, h.poison]

/-- The first byte of a result says that it is valid (R317). -/
theorem le_headD_bytes (x : LookupResult) : 128 ≤ (x.bytes.headD 0).toNat := by
  simp only [LookupResult.bytes, bytesLE, List.cons_append, List.headD_cons, BitVec.toNat_ofNat]
  split_ifs <;> norm_num

theorem bytes_ne_nil (x : LookupResult) : x.bytes ≠ [] := by simp [LookupResult.bytes, bytesLE]

/-- What completes a context's wait leaves its lists alone (R397). -/
theorem lists_wake (d : Dev) (k j : Nat) :
    ((d.wake k).ctx j).outstanding = (d.ctx j).outstanding ∧ ((d.wake k).ctx j).placed = (d.ctx j).placed := by
  have ht (e : Dev) (n : Nat) : ((e.trapFor k n).ctx j).outstanding = (e.ctx j).outstanding ∧ ((e.trapFor k n).ctx j).placed = (e.ctx j).placed :=
    (Calm.refl e).trapFor.lists j
  have hx (e : Dev) (i : Nat) (v : Word) : ((e.setX k i v).ctx j).outstanding = (e.ctx j).outstanding ∧ ((e.setX k i v).ctx j).placed = (e.ctx j).placed := by
    rcases eq_or_ne j k with rfl | hjk
    · obtain ⟨x, hx⟩ := ctx_setX_same e j i v
      rw [hx]
      exact ⟨rfl, rfl⟩
    · rw [ctx_setX_ne _ _ _ _ _ hjk]
      exact ⟨rfl, rfl⟩
  unfold Dev.wake Dev.interruptTrap
  dsimp only
  by_cases hc : (d.ctx k).mode = .waiting ∧ d.events k &&& wakeBits k (d.ctx k).waitMask ≠ 0
  · rw [if_pos hc, (ht _ _).1, (ht _ _).2, (hx _ _ _).1, (hx _ _ _).2, ctx_modCtx]
    split_ifs with hjk
    · rw [hjk]; exact ⟨rfl, rfl⟩
    · exact ⟨rfl, rfl⟩
  · rw [if_neg hc]
    exact ht _ _

theorem outstanding_setEvents (d : Dev) (k bits j : Nat) : ((d.setEvents k bits).ctx j).outstanding = (d.ctx j).outstanding := by
  rw [setEvents, (lists_wake _ _ _).1, ctx_modCtx]
  split_ifs with hjk
  · rw [hjk]
  · rfl

/-- A lookup of a live program ends in a result at its place, and takes nothing but itself off its context. -/
theorem programLookup_of_live {d : Dev} {k i table result length : Nat} {key : List Byte}
    (h : (d.ctx k).outstanding[i]? = some (.lookup table key result length true)) (r : Region) :
    ∃ (e : Dev) (x : LookupResult), (d.modCtx k fun c => { c with outstanding := c.outstanding.eraseIdx i }).Calm e
      ∧ d.programLookup k i r = ((e.setBytes (clmAddr (k / 32) result) x.bytes).setPoison (clmAddr (k / 32) result) false).setEvents k 1 := by
  unfold programLookup
  rw [h]
  refine ⟨_, _, Calm.ite ?_ ?_, rfl⟩
  · exact (Calm.refl _).lookup.hit
  · exact (Calm.refl _).lookup

end Dev

theorem lookupComplete_ctx_carried (r : Region) (u : CtxId) (i : Nat) (bad : List Nat) (table result length : Nat) (key : List Byte) (s : State)
    (h : (s.dev.ctx (Dev.ctxNo u)).outstanding[i]? = some (.lookup table key result length true)) :
    Carried (.lookupComplete r (.ctx u i) bad) s
      [.regs, .mem, .poison, .wire, .line, .ctxs, .packets, .endpoints, .commit, .tables, .pool, .egress, .dispatch, .journal]
      (fun e => (e.ctx (Dev.ctxNo u)).outstanding = (s.dev.ctx (Dev.ctxNo u)).outstanding.eraseIdx i
        ∧ e.poisoned (Dev.clmAddr (Dev.ctxNo u / 32) result) = false
        ∧ 128 ≤ (e.byte (Dev.clmAddr (Dev.ctxNo u / 32) result)).toNat) := by
  set k := Dev.ctxNo u
  set a := Dev.clmAddr (k / 32) result
  have hs : s.dev.Calm (s.dev.searchErrors r table key bad) := (Dev.Calm.refl _).searchErrors
  have hl := (hs.lists k).1
  obtain ⟨e, x, he, hp⟩ := Dev.programLookup_of_live (hl ▸ h : ((s.dev.searchErrors r table key bad).ctx k).outstanding[i]? = _) r
  have hsig := Dev.signalled_setEvents ((e.setBytes a x.bytes).setPoison a false) k 1
  have hx : exec (.lookupComplete r (.ctx u i) bad) s = execLookupComplete r (.ctx u i) bad s := rfl
  refine .of_doing (d := (s.dev.searchErrors r table key bad).programLookup k i r) hx ?_
    ((((Dev.Kept.refl _ _).searchErrors (by decide)).programLookup (by decide)).1) ⟨?_, ?_, ?_⟩
  · dsimp only
    rw [h]
  · rw [Dev.ctx_withFree, hp, Dev.outstanding_setEvents]
    refine (congrArg Ctx.outstanding ((e.setBytes a x.bytes).ctx_setPoison ..)).trans ?_
    rw [Dev.ctx_setBytes, (he.lists k).1, Dev.ctx_modCtx_same]
    exact congrArg (·.eraseIdx i) hl
  · rw [Dev.poisoned_withFree, hp, hsig.poisoned, Dev.poisoned_setPoison_same]
  · rw [Dev.byte_withFree, hp, hsig.byte, Dev.byte_setPoison, Dev.byte_setBytes,
      if_pos ⟨le_rfl, Nat.lt_add_of_pos_right (List.length_pos_of_ne_nil (Dev.bytes_ne_nil x))⟩, Nat.sub_self]
    exact Dev.le_headD_bytes x

namespace Dev

/-! ### A packet's window is written to its frame (R380, R381) -/

theorem length_padTo (n : Nat) (b : List Byte) : (padTo n b).length = n := by simp [padTo]

theorem length_windowBytes (d : Dev) (p : Packet) : (d.windowBytes p).length = 512 := by
  have h (l : List Nat) (f : Nat → List Byte) (hf : ∀ i, (f i).length = 32) : (l.flatMap f).length = 32 * l.length := by
    simp [List.length_flatMap, hf, Nat.mul_comm]
  simp only [windowBytes, List.length_append, length_padTo]
  rw [h _ _ fun _ => length_padTo .., List.length_range]

theorem find_map_ready {l : List Placed} {n : Nat} {x : Placed} (h : l.find? (·.pkt == n) = some x) :
    (l.map fun y => if y.pkt = n then { y with ready := true } else y).find? (·.pkt == n) = some { x with ready := true } := by
  induction l with
  | nil => cases h
  | cons y t ih =>
    by_cases hy : y.pkt = n
    · rw [List.find?_cons_of_pos (by simpa using hy)] at h
      cases h
      simp [hy]
    · rw [List.find?_cons_of_neg (by simpa using hy)] at h
      rw [List.map_cons, if_neg hy, List.find?_cons_of_neg (by simpa using hy)]
      exact ih h

/-- The worker that waits for its window goes on, or will once it is halted no longer (R382, R409). -/
def filled (n : Nat) (c : Ctx) : Ctx :=
  if c.held ≠ some n then c
  else if c.mode = .fillWait then { c with mode := .running }
  else if c.mode = .debugHalted ∧ c.haltedFrom = .fillWait then { c with haltedFrom := .running }
  else c

theorem placed_filled (n : Nat) (c : Ctx) : (filled n c).placed = c.placed := by
  unfold filled
  split_ifs <;> rfl

theorem mode_filled (n : Nat) (c : Ctx) : (filled n c).mode = if c.mode = .fillWait ∧ c.held = some n then .running else c.mode := by
  unfold filled
  split_ifs <;> simp_all

theorem haltedFrom_filled (n : Nat) (c : Ctx) : (filled n c).haltedFrom
    = if c.mode = .debugHalted ∧ c.held = some n ∧ c.haltedFrom = .fillWait then .running else c.haltedFrom := by
  unfold filled
  split_ifs <;> simp_all

/-- The lines of a frame that is written are clean. -/
def cleaned (d : Dev) (a : Nat) : Dev := d.each (List.range 16) (fun i d => d.setPoison (a + 32 * i) false)

theorem cleaned_kept (d : Dev) (a : Nat) : d.Kept [.poison] (d.cleaned a) := (Kept.refl _ d).each fun _ _ => setPoison_kept ..

/-- The part after a window is written. -/
def withWindow (d : Dev) (k n a : Nat) (b : List Byte) : Dev :=
  (((d.setBytes a b).cleaned a).modCtx k fun c => { c with
    placed := c.placed.map (fun y => if y.pkt = n then { y with ready := true } else y) }).modCtx k (filled n)

@[simp] theorem byte_modCtx (d : Dev) (k x : Nat) (f : Ctx → Ctx) : (d.modCtx k f).byte x = d.byte x := (rfl)

theorem withWindow_kept (d : Dev) (k n a : Nat) (b : List Byte) : d.Kept [.mem, .poison, .ctxs] (d.withWindow k n a b) := by
  unfold withWindow
  have h := ((setBytes_kept d a b).mono (ps := [.mem, .poison, .ctxs]) (by decide)).then (cleaned_kept _ a) (by decide)
  exact (h.modCtx (by decide)).modCtx (by decide)

theorem ctx_withWindow (d : Dev) (k n a : Nat) (b : List Byte) : (d.withWindow k n a b).ctx k
    = filled n { d.ctx k with placed := (d.ctx k).placed.map (fun y => if y.pkt = n then { y with ready := true } else y) } := by
  rw [withWindow, ctx_modCtx_same, ctx_modCtx_same, ctx_congr ((cleaned_kept ..).1 .ctxs (by decide)), ctx_setBytes]

theorem byte_withWindow (d : Dev) (k n a x : Nat) (b : List Byte) : (d.withWindow k n a b).byte x = (d.setBytes a b).byte x := by
  have h : ((d.setBytes a b).cleaned a).mem = (d.setBytes a b).mem := (cleaned_kept ..).1 .mem (by decide)
  unfold withWindow
  rw [byte_modCtx, byte_modCtx, byte, byte, h]

end Dev

theorem windowWrite_carried (n k : Nat) (p : Packet) (x : Placed) (s : State) (hp : s.dev.pkt n = some p) (hst : p.stage = .placed k)
    (hx : (s.dev.ctx k).placed.find? (·.pkt == n) = some x) (hr : x.ready = false) (hf : s.dev.frameFree k x = true) :
    Carried (.windowWrite n) s [.mem, .poison, .ctxs] (fun e =>
      (∀ a, e.byte a = if Dev.clmAddr (k / 32) (Dev.frameOff k x.number) ≤ a ∧ a < Dev.clmAddr (k / 32) (Dev.frameOff k x.number) + 512
          then (s.dev.windowBytes p).getD (a - Dev.clmAddr (k / 32) (Dev.frameOff k x.number)) 0 else s.dev.byte a)
        ∧ (e.ctx k).placed.find? (·.pkt == n) = some { x with ready := true }
        ∧ (e.ctx k).mode = (if (s.dev.ctx k).mode = .fillWait ∧ (s.dev.ctx k).held = some n then .running else (s.dev.ctx k).mode)
        ∧ (e.ctx k).haltedFrom = (if (s.dev.ctx k).mode = .debugHalted ∧ (s.dev.ctx k).held = some n ∧ (s.dev.ctx k).haltedFrom = .fillWait
            then .running else (s.dev.ctx k).haltedFrom)) := by
  set a := Dev.clmAddr (k / 32) (Dev.frameOff k x.number) with ha
  have hx' : exec (.windowWrite n) s = execWindowWrite n s := rfl
  refine .of_doing (d := s.dev.withWindow k n a (s.dev.windowBytes p)) hx' ?_ (Dev.withWindow_kept ..).1
    ⟨fun y => ?_, ?_, ?_, ?_⟩
  · simp only [hp, hst, hx, hr, hf, Bool.not_true, Bool.or_false, Bool.false_eq_true, if_false]
    rfl
  · rw [Dev.byte_withFree, Dev.byte_withWindow, Dev.byte_setBytes, Dev.length_windowBytes]
  all_goals rw [Dev.ctx_withFree, Dev.ctx_withWindow]
  · rw [Dev.placed_filled]
    exact Dev.find_map_ready hx
  · rw [Dev.mode_filled]
  · rw [Dev.haltedFrom_filled]

/-! ### A worker starts its next packet (R375, R384) -/

namespace Dev

/-- The context that starts a packet, as it is before its registers are set. -/
def startedCtx (d : Dev) (k : Nat) (x : Placed) (p : Packet) (c : Ctx) : Ctx := { c with
  mode := if x.ready then .running else .fillWait, held := some x.pkt, heldIndex := d.indexOf k x, heldNumber := x.number,
  used := 0, budget := d.fld (BLK_BUDGET_budget (R (ctxRegion k)).val (ctxBlock k)), pc := BitVec.ofNat 32 (p.entry * 4),
  sticky := c.sticky &&& 0x40000 }

theorem xreg_setX (d : Dev) (k i j : Nat) (v : Word) : (d.setX k i v).xreg k j = if j = i ∧ i ≠ 0 then v else d.xreg k j := by
  unfold xreg setX
  by_cases hi : i = 0
  · simp [hi]
  · rw [if_neg hi, ctx_modCtx_same, Sparse.get_set]
    by_cases hj : j = i <;> simp [hj, hi]

theorem xreg_congr {d e : Dev} {k : Nat} (h : e.ctx k = d.ctx k) (i : Nat) : e.xreg k i = d.xreg k i := by rw [xreg, xreg, h]

@[simp] theorem xreg_withFree (d : Dev) (n k i : Nat) : (d.withFree n).xreg k i = d.xreg k i := (rfl)

/-- A packet starts on a worker: its context is as the start leaves it, but for the registers x2, x10 and x11. -/
theorem startPacket_worker {d : Dev} {k : Nat} (hk : k % 32 ≠ 16) (x : Placed) (p : Packet) :
    (∃ regs, (d.startPacket k x p).ctx k = { d.startedCtx k x p (d.ctx k) with x := regs })
      ∧ (d.startPacket k x p).xreg k 2 = (d.ctx k).sp ∧ (d.startPacket k x p).xreg k 10 = BitVec.ofNat 32 (frameOff k x.number) := by
  set d1 := d.modCtx k (d.startedCtx k x p) with hd1
  set d2 := (d1.setX k 2 (d1.ctx k).sp).setX k 10 (BitVec.ofNat 32 (frameOff k x.number)) with hd2
  set d3 := d2.setX k 11 (d2.pktWord k) with hd3
  have hctx : (d.startPacket k x p).ctx k = d3.ctx k := by
    refine Calm.workers ?_ k hk
    exact .ite (Calm.refl _).bevent (Calm.refl _).bevent.bevent
  have hx (i : Nat) : (d.startPacket k x p).xreg k i = d3.xreg k i := xreg_congr hctx i
  refine ⟨?_, ?_, ?_⟩
  · obtain ⟨a, ha⟩ := ctx_setX_same d1 k 2 (d1.ctx k).sp
    obtain ⟨b, hb⟩ := ctx_setX_same (d1.setX k 2 (d1.ctx k).sp) k 10 (BitVec.ofNat 32 (frameOff k x.number))
    obtain ⟨c, hc⟩ := ctx_setX_same d2 k 11 (d2.pktWord k)
    exact ⟨c, by rw [hctx, hc, hb, ha, hd1, ctx_modCtx_same]⟩
  · rw [hx, xreg_setX, if_neg (by norm_num), xreg_setX, if_neg (by norm_num), xreg_setX, if_pos (by norm_num), hd1, ctx_modCtx_same]
    rfl
  · rw [hx, xreg_setX, if_neg (by norm_num), xreg_setX, if_pos (by norm_num)]

/-- A context's number tells its place (R76). -/
theorem ctxNo_mod (u : CtxId) : ctxNo u % 32 = u.ctx.val := by
  have := u.ctx.isLt
  unfold ctxNo
  omega

theorem ctxRegion_ctxNo (u : CtxId) : ctxRegion (ctxNo u) = u.region.val := by
  have := u.ctx.isLt
  have := u.cell.isLt
  have := u.block.isLt
  unfold ctxRegion ctxNo cellNo
  omega

theorem ctxBlock_ctxNo (u : CtxId) : ctxBlock (ctxNo u) = u.block.val := by
  have := u.ctx.isLt
  have := u.cell.isLt
  have := u.block.isLt
  unfold ctxBlock ctxNo cellNo
  omega

end Dev

theorem packetStart_carried (u : CtxId) (x : Placed) (p : Packet) (s : State) (hr : s.dev.ctxRuns (Dev.ctxNo u) = true) (hu : u.ctx.val ≠ 16)
    (hm : (s.dev.ctx (Dev.ctxNo u)).mode = .idle) (hh : (s.dev.ctx (Dev.ctxNo u)).held = none)
    (hx : s.dev.nextStart (Dev.ctxNo u) = some x) (hp : s.dev.pkt x.pkt = some p) :
    Carried (.packetStart u) s [.regs, .wire, .ctxs] (fun e => (e.ctx (Dev.ctxNo u)).held = some x.pkt
        ∧ (e.ctx (Dev.ctxNo u)).mode = (if x.ready then .running else .fillWait) ∧ (e.ctx (Dev.ctxNo u)).pc = BitVec.ofNat 32 (p.entry * 4)
        ∧ (e.ctx (Dev.ctxNo u)).budget = s.dev.fld (BLK_BUDGET_budget u.region.val u.block.val)
        ∧ e.xreg (Dev.ctxNo u) 2 = (s.dev.ctx (Dev.ctxNo u)).sp
        ∧ e.xreg (Dev.ctxNo u) 10 = BitVec.ofNat 32 (Dev.frameOff (Dev.ctxNo u) x.number)) := by
  have hk : Dev.ctxNo u % 32 ≠ 16 := by rwa [Dev.ctxNo_mod]
  obtain ⟨⟨regs, hc⟩, h2, h10⟩ := Dev.startPacket_worker (d := s.dev) hk x p
  have he : exec (.packetStart u) s = execPacketStart u s := rfl
  refine .of_doing (d := s.dev.startPacket (Dev.ctxNo u) x p) he ?_ ((Dev.Kept.refl _ _).startPacket fun _ => id).1 ?_
  · dsimp only
    rw [hr, hm, hh, hx]
    simp [hk, hp]
  · simp only [Dev.ctx_withFree, Dev.xreg_withFree, hc, h2, h10]
    refine ⟨rfl, rfl, rfl, ?_, trivial, trivial⟩
    rw [← Dev.ctxRegion_ctxNo u, ← Dev.ctxBlock_ctxNo u]
    have h8 : Dev.ctxRegion (Dev.ctxNo u) < 8 := by rw [Dev.ctxRegion_ctxNo]; exact u.region.isLt
    exact congrArg (fun q => s.dev.fld (BLK_BUDGET_budget q _)) (Nat.mod_eq_of_lt h8)

/-! ### A task is placed on a worker (R492, R501, R502) -/

namespace Dev

section
variable (d : Dev) (r q : Region)

theorem dispatch_modDsp (f : DispatchState → DispatchState) :
    ((d.modDsp r f).g q).dispatch = if q = r then f (d.g r).dispatch else (d.g q).dispatch := by
  rw [modDsp, g_modR]
  split_ifs <;> rfl

/-- A change of a dispatcher that keeps its placements. -/
theorem placements_modDsp {f : DispatchState → DispatchState} (hf : ∀ x, (f x).placements = x.placements) :
    ((d.modDsp r f).g q).dispatch.placements = (d.g q).dispatch.placements := by
  rw [dispatch_modDsp]
  split_ifs with h
  · rw [hf, h]
  · rfl

/-- What leaves the dispatchers alone leaves their placements. -/
theorem placements_kept {d e : Dev} {l : List Part} (k : d.Kept l e) (q : Region) (hl : Part.dispatch ∉ l := by decide) :
    (e.g q).dispatch.placements = (d.g q).dispatch.placements := by rw [k.1 .dispatch hl q]

theorem placements_pressure : ((d.pressure r).g q).dispatch.placements = (d.g q).dispatch.placements := by
  unfold pressure
  extract_lets x store high low now d1 d2
  have h1 : (d1.g q).dispatch.placements = (d.g q).dispatch.placements := placements_modDsp _ _ _ fun _ => rfl
  have h2 : (d2.g q).dispatch.placements = (d.g q).dispatch.placements := (placements_kept (setReg_kept ..) q).trans h1
  split_ifs
  · exact (placements_kept (((Kept.refl _ d2).event fun _ => id).raise fun _ => id) q).trans h2
  · exact h2

theorem placements_freeEntry (n : Nat) : ((d.freeEntry n).g q).dispatch.placements = (d.g q).dispatch.placements := by
  unfold freeEntry
  split
  next p _ =>
    refine (apply_ite (fun e : Dev => (e.g q).dispatch.placements) ..).trans (ite_eq_right_iff.2 fun _ => ?_)
    rw [placements_pressure]
    refine (placements_modDsp _ _ _ fun x => ?_).trans (placements_kept ((Kept.refl [.packets] d).modPkt fun _ => id) q)
    split_ifs <;> rfl
  · rfl

theorem placements_unqueue (k n : Nat) : ((d.unqueue r k n).g q).dispatch.placements = (d.g q).dispatch.placements := by
  unfold unqueue
  extract_lets d1 l
  have h1 : (d1.g q).dispatch.placements = (d.g q).dispatch.placements := placements_kept (maxFld_kept ..) q
  refine (placements_kept (setFld_kept ..) q).trans (Eq.trans ?_ h1)
  exact placements_modDsp d1 r q fun _ => rfl

/-- A packet whose entry is freed has none; the others are as before. -/
theorem pkt_freeEntry (n m : Nat) : (d.freeEntry n).pkt m = if m = n then (d.pkt n).map ({ · with task := false }) else d.pkt m := by
  unfold freeEntry
  cases hp : d.pkt n with
  | none =>
    split_ifs with hm
    · rw [hm, hp]; rfl
    · rfl
  | some p =>
    by_cases ht : p.task = true
    · have hk (e : Dev) (x : Region) (f : DispatchState → DispatchState) : ((e.modDsp x f).pressure x).pkt m = e.pkt m :=
        pkt_congr ((((Kept.refl [.regs, .wire, .ctxs, .dispatch] e).modDsp (by decide)).pressure (by decide)).1 .packets (by decide)) m
      dsimp only
      rw [if_pos ht, hk, pkt_modPkt, hp]
    · dsimp only
      rw [if_neg ht]
      split_ifs with hm
      · rw [hm, hp, Option.map_some]
        cases p
        simp_all
      · rfl

theorem pkt_unqueue (k n m : Nat) : (d.unqueue r k n).pkt m = d.pkt m := pkt_congr (((Kept.refl _ d).unqueue fun _ => id).1 .packets (by decide)) m

end

/-- The best of a list by any rule that takes the one or the other is of the list. -/
theorem foldl_choice_mem {α : Type} {f : Option α → α → Option α} (hf : ∀ o x, f o x = some x ∨ f o x = o) {l : List α} {o : Option α} {y : α}
    (h : l.foldl f o = some y) : y ∈ l ∨ o = some y := by
  induction l generalizing o with
  | nil => exact .inr h
  | cons x t ih =>
    rcases ih h with hy | hy
    · exact .inl (List.mem_cons_of_mem _ hy)
    · rcases hf o x with hx | hx
      · rw [hx] at hy
        exact .inl (by simp_all)
      · exact .inr (hx ▸ hy)

theorem leastLoaded_mem {d : Dev} {r : Region} {b s k : Nat} (h : d.leastLoaded r b s = some k) : k ∈ d.openSlots r b s := by
  refine (foldl_choice_mem (fun o x => ?_) h).resolve_right (by simp)
  cases o with
  | none => exact .inl rfl
  | some j =>
    dsimp only
    split_ifs
    · exact .inl rfl
    · exact .inr rfl
    · exact .inl rfl
    · exact .inr rfl

theorem mod_of_mem_blockWorkers {r b k : Nat} (h : k ∈ blockWorkers r b) : k % 32 < 16 := by
  simp only [blockWorkers, List.mem_map] at h
  obtain ⟨i, -, rfl⟩ := h
  omega

/-- The dispatcher places a packet on a worker (R500, R501). -/
theorem worker_of_nextPlacement {d : Dev} {r : Region} {b q n k : Nat} (h : d.nextPlacement r = some (b, q, n, k)) : k % 32 < 16 := by
  unfold nextPlacement at h
  obtain ⟨x, -, hx⟩ := List.exists_of_findSome?_eq_some h
  split at hx
  · cases hx
  · split at hx
    · cases hx
    · split at hx
      · cases hx
      · obtain ⟨j, hj, he⟩ := Option.map_eq_some_iff.1 hx
        cases he
        have hm := leastLoaded_mem hj
        unfold openSlots at hm
        split_ifs at hm
        · cases hm
        · exact mod_of_mem_blockWorkers (List.mem_of_mem_filter hm)

end Dev

theorem dispatchPlacement_carried (r : Region) (wait b q n k : Nat) (p : Packet) (s : State)
    (hn : s.dev.nextPlacement r = some (b, q, n, k)) (hp : s.dev.pkt n = some p) :
    Carried (.dispatchPlacement r wait) s [.regs, .wire, .ctxs, .packets, .dispatch] (fun e =>
      (e.ctx k).placed = (s.dev.ctx k).placed ++ [⟨n, (s.dev.ctx k).placedCount, p.target, false, false⟩]
        ∧ (e.pkt n).map (·.stage) = some (.placed k) ∧ (e.g r).dispatch.lastBlock = b
        ∧ (e.g r).dispatch.placements = (s.dev.g r).dispatch.placements ++ [(p.target, k)]
        ∧ ∀ m, m ≠ n → e.pkt m = s.dev.pkt m) := by
  set d1 := (s.dev.unqueue r q n).freeEntry n with hd1
  set d2 := d1.modCtx k fun c => { c with
    placed := c.placed ++ [⟨n, (d1.ctx k).placedCount, p.target, false, false⟩], placedCount := c.placedCount + 1 } with hd2
  set d3 := d2.modPkt n fun p => { p with stage := .placed k } with hd3
  set d4 := d3.modDsp r fun x => { x with
    lastBlock := b, lastQueue := Sparse.set (fun _ => 255) x.lastQueue b q, placements := x.placements ++ [(p.target, k)] } with hd4
  set d5 := ((d4.maxFld (RGN_DSP_QWAIT_wait_max r.val q) wait).event r 0x110 q).event r 0x110 (0x100 + b) with hd5
  have hk5 : d4.Kept [.regs, .wire, .ctxs] d5 := (((Dev.Kept.refl _ d4).maxFld (by decide)).event (by decide)).event (by decide)
  have hc5 : d4.Calm d5 := (Dev.Calm.refl _).setReg.event.event
  have hctx : d1.ctx k = s.dev.ctx k := ((Dev.Calm.refl _).unqueue.freeEntry).workers k (by have := Dev.worker_of_nextPlacement hn; omega)
  have hpk (m : Nat) : d4.pkt m = d3.pkt m := Dev.pkt_congr (((Dev.Kept.refl [.dispatch] d3).modDsp fun _ => id).1 .packets (by decide)) m
  have hk2 : d1.Kept [.ctxs] d2 := Dev.modCtx_kept ..
  have hx : exec (.dispatchPlacement r wait) s = execDispatchPlacement r wait s := rfl
  refine .of_run_eq (d := d5) hx ?_ ?_ ⟨?_, ?_, ?_, ?_, fun m hm => ?_⟩
  · rw [hn]
    dsimp only
    rw [Dev.place, hp]
  · have h1 : s.dev.Kept [.regs, .wire, .ctxs, .packets, .dispatch] d1 := ((Dev.Kept.refl _ _).unqueue (by decide)).freeEntry (by decide)
    exact ((((h1.then hk2 (by decide)).modPkt (by decide)).modDsp (by decide)).then hk5 (by decide)).1
  · rw [Dev.ctx_withFree, (hc5.lists k).2]
    have h3 : (d4.ctx k) = d2.ctx k := Dev.ctx_congr (((Dev.Kept.refl [.packets, .dispatch] d2).modPkt (by decide)).modDsp (by decide) |>.1 .ctxs (by decide)) k
    rw [h3, hd2, Dev.ctx_modCtx_same, hctx]
  · rw [Dev.pkt_withFree, Dev.pkt_congr (hk5.1 .packets (by decide)), hpk, hd3, Dev.pkt_modPkt_same, Dev.pkt_congr (hk2.1 .packets (by decide)),
      hd1, Dev.pkt_freeEntry, if_pos rfl, Dev.pkt_unqueue, hp]
    rfl
  · rw [Dev.g_withFree, hk5.1 .dispatch (by decide), hd4, Dev.dispatch_modDsp, if_pos rfl]
  · rw [Dev.g_withFree, hk5.1 .dispatch (by decide), hd4, Dev.dispatch_modDsp, if_pos rfl,
      Dev.placements_kept ((Dev.Kept.refl [.packets] d2).modPkt fun _ => id), Dev.placements_kept hk2, Dev.placements_freeEntry,
      Dev.placements_unqueue]
  · rw [Dev.pkt_withFree, Dev.pkt_congr (hk5.1 .packets (by decide)), hpk, hd3, Dev.pkt_modPkt, if_neg hm, Dev.pkt_congr (hk2.1 .packets (by decide)),
      hd1, Dev.pkt_freeEntry, if_neg hm, Dev.pkt_unqueue]

/-! ### Tasks past their window are removed (R503) -/

namespace Dev

/-- A task that is removed is unplaced; the other packets are as before. -/
theorem pkt_unplace (d : Dev) (r : Region) (q n wait m : Nat) : (d.unplace r q n wait).pkt m
    = if m = n then (d.pkt n).map ({ · with task := false, stage := .unplaced }) else d.pkt m := by
  have hk (e : Dev) (f g h : Fld) (v : Nat) :
      e.Kept [.regs, .wire, .ctxs] ((((e.addSat f 1).maxFld g wait).err h r 0x181).event r 0x111 v) :=
    ((((Kept.refl _ e).addSat (by decide)).maxFld (by decide)).err (by decide)).event (by decide)
  unfold unplace
  rw [pkt_congr ((hk _ _ _ _ _).1 .packets (by decide)), pkt_modPkt]
  simp only [pkt_freeEntry, pkt_unqueue, if_true, Option.map_map]
  split_ifs <;> rfl

/-- Where each member of a list leaves its own packet unplaced and the others as before, so do all in turn. -/
theorem pkt_each_unplaced {α : Type} {f : α → Dev → Dev} {n : α → Nat}
    (hf : ∀ x (d : Dev) m, (f x d).pkt m = if m = n x then (d.pkt m).map ({ · with task := false, stage := .unplaced }) else d.pkt m)
    (m : Nat) (l : List α) {d : Dev} {p : Packet} (hp : d.pkt m = some p) :
    if m ∈ l.map n then ((d.each l f).pkt m).map (·.stage) = some .unplaced else (d.each l f).pkt m = some p := by
  induction l generalizing d p with
  | nil => exact hp
  | cons x t ih =>
    have hx := hf x d m
    have hc : d.each (x :: t) f = (f x d).each t f := rfl
    rw [hp] at hx
    simp only [hc, List.map_cons, List.mem_cons]
    by_cases hm : m = n x
    · rw [if_pos hm] at hx
      have h := ih hx
      rw [if_pos (.inl hm)]
      split_ifs at h
      · exact h
      · exact congrArg (Option.map _) h
    · rw [if_neg hm] at hx
      simpa only [hm, false_or] using ih hx

/-- The tasks that are removed at the deadline of the next shutter, with their queues. -/
def overdue (d : Dev) (r : Region) : List (Nat × Nat) :=
  (d.g r).dispatch.ready.flatMap fun e => (e.2.filter fun n => match d.pkt n with
    | some p => (p.target + d.windowTicks r) % 2 ^ 48 == ((d.g r).tick + 1) % 2 ^ 48
    | none => false).map fun n => (e.1, n)

theorem mem_overdue {d : Dev} {r : Region} {n : Nat} {p : Packet} (hp : d.pkt n = some p) : n ∈ (d.overdue r).map (·.2)
    ↔ (p.target + d.windowTicks r) % 2 ^ 48 = ((d.g r).tick + 1) % 2 ^ 48 ∧ ∃ x ∈ (d.g r).dispatch.ready, n ∈ x.2 := by
  simp only [overdue, List.mem_map, List.mem_flatMap, List.mem_filter]
  constructor
  · rintro ⟨_, ⟨e, he, m, ⟨hm, hd⟩, rfl⟩, rfl⟩
    simp only [hp, beq_iff_eq] at hd
    exact ⟨hd, e, he, hm⟩
  · rintro ⟨hd, e, he, hm⟩
    exact ⟨(e.1, n), ⟨e, he, n, ⟨hm, by simpa only [hp, beq_iff_eq] using hd⟩, rfl⟩, rfl⟩

end Dev

theorem placementDeadline_carried (r : Region) (waits : List Nat) (s : State) :
    Carried (.placementDeadline r waits) s [.regs, .wire, .ctxs, .packets, .dispatch] (fun e => ∀ n p, s.dev.pkt n = some p →
        if (p.target + s.dev.windowTicks r) % 2 ^ 48 = ((s.dev.g r).tick + 1) % 2 ^ 48 ∧ (∃ x ∈ (s.dev.g r).dispatch.ready, n ∈ x.2)
        then (e.pkt n).map (·.stage) = some .unplaced else e.pkt n = some p) := by
  have hx : exec (.placementDeadline r waits) s = execPlacementDeadline r waits s := rfl
  refine .of_run_eq (d := s.dev.each (s.dev.overdue r).zipIdx fun x d => d.unplace r x.1.1 x.1.2 (waits.getD x.2 0)) hx rfl
    ((Dev.Kept.refl _ _).each fun _ e => (Dev.Kept.refl _ e).unplace fun _ => id).1 fun n p hp => ?_
  have h := Dev.pkt_each_unplaced (f := fun x d => d.unplace r x.1.1 x.1.2 (waits.getD x.2 0)) (n := fun x => x.1.2)
    (fun x d m => by
      rw [Dev.pkt_unplace]
      split_ifs with h
      · rw [h]
      · rfl) n (s.dev.overdue r).zipIdx hp
  have hm : (s.dev.overdue r).zipIdx.map (fun x => x.1.2) = (s.dev.overdue r).map (·.2) :=
    (List.map_map (f := Prod.fst) (g := Prod.snd)).symm.trans (by rw [List.zipIdx_map_fst])
  rw [hm] at h
  simpa only [Dev.pkt_withFree, ← Dev.mem_overdue hp] using h

/-! ### A packet's lookup completes (R317, R334, R910) -/

namespace Dev

/-- What handles one packet of a region: the packet keeps its stamp, its region and its lookups while it is there, and in a run mode every
other packet is as before. -/
structure Handles (n : Nat) (r : Region) (d e : Dev) : Prop where
  keeps : ∀ q, e.pkt n = some q → ∃ p, d.pkt n = some p ∧ q.stamp = p.stamp ∧ q.region = p.region ∧ q.lookups = p.lookups
  mode : (e.g r).mode = (d.g r).mode
  others : (d.g r).mode.isRun = true → ∀ m, m ≠ n → e.pkt m = d.pkt m

theorem Handles.refl (n : Nat) (r : Region) (d : Dev) : Handles n r d d := ⟨fun q hq => ⟨q, hq, rfl, rfl, rfl⟩, rfl, fun _ _ _ => rfl⟩

section
variable {n : Nat} {r : Region} {d0 d e : Dev} (h : Handles n r d0 d)
include h

theorem Handles.trans (k : Handles n r d e) : Handles n r d0 e where
  keeps q hq := by
    obtain ⟨p, hp, h1, h2, h3⟩ := k.keeps q hq
    obtain ⟨o, ho, g1, g2, g3⟩ := h.keeps p hp
    exact ⟨o, ho, h1.trans g1, h2.trans g2, h3.trans g3⟩
  mode := k.mode.trans h.mode
  others hr m hm := (k.others (h.mode ▸ hr) m hm).trans (h.others hr m hm)

theorem Handles.kept {l : List Part} (k : d.Kept l e) (hl : ∀ p ∈ [Part.packets, .mode], p ∉ l := by decide) : Handles n r d0 e :=
  have hp (m : Nat) : e.pkt m = d.pkt m := pkt_congr (k.1 .packets (hl _ (by decide))) m
  h.trans ⟨fun q hq => ⟨q, hp n ▸ hq, rfl, rfl, rfl⟩, k.1 .mode (hl _ (by decide)) r, fun _ m _ => hp m⟩

theorem Handles.ite {c : Prop} [Decidable c] (k : Handles n r d0 e) : Handles n r d0 (if c then d else e) := by
  split_ifs
  · exact h
  · exact k

theorem Handles.event {q : Region} {sel qual x : Nat} : Handles n r d0 (d.event q sel qual x) := h.kept ((Kept.refl _ d).event fun _ => id)
theorem Handles.err {f : Fld} {q : Region} {x : Nat} : Handles n r d0 (d.err f q x) := h.kept ((Kept.refl _ d).err fun _ => id)

theorem Handles.modPkt {f : Packet → Packet}
    (hf : ∀ p, (f p).stamp = p.stamp ∧ (f p).region = p.region ∧ (f p).lookups = p.lookups := by exact fun _ => ⟨rfl, rfl, rfl⟩) :
    Handles n r d0 (d.modPkt n f) := by
  refine h.trans ⟨fun q hq => ?_, (((Kept.refl [.packets] d).modPkt fun _ => id).1 .mode (by decide) r), fun _ m hm => ?_⟩
  · rw [pkt_modPkt_same] at hq
    obtain ⟨p, hp, rfl⟩ := Option.map_eq_some_iff.1 hq
    exact ⟨p, hp, hf p⟩
  · rw [pkt_modPkt, if_neg hm]

theorem Handles.gone : Handles n r d0 (d.setPkt n none) := by
  refine h.trans ⟨fun q hq => ?_, ((Kept.refl [.packets] d).setPkt fun _ => id).1 .mode (by decide) r, fun _ m hm => ?_⟩
  · rw [pkt_setPkt_same] at hq
    cases hq
  · rw [pkt_setPkt, if_neg hm]

theorem Handles.freeEntry : Handles n r d0 (d.freeEntry n) := by
  refine h.trans ⟨fun q hq => ?_, ((Kept.refl _ d).freeEntry fun _ => id).1 .mode (by decide) r, fun _ m hm => ?_⟩
  · rw [pkt_freeEntry, if_pos rfl] at hq
    obtain ⟨p, hp, rfl⟩ := Option.map_eq_some_iff.1 hq
    exact ⟨p, hp, rfl, rfl, rfl⟩
  · rw [pkt_freeEntry, if_neg hm]

/-- Outside the run modes the records of a packet that is gone may be enqueued at once, which brings it not back. -/
theorem Handles.endDropped {p : Packet} (hr : R p.region = r) : Handles n r d0 (d.endDropped n p) := by
  unfold Dev.endDropped
  extract_lets q d1 d2
  have hk : d.Kept [.regs, .mem, .wire, .line, .ctxs, .endpoints, .pool, .egress, .journal]
      (((d1.leaveFlight q p).freePkt q p.head).freeOrig q p) :=
    ((((Kept.refl _ d).sendMirrors (by decide)).leaveFlight (by decide)).freePkt (by decide)).freeOrig (by decide)
  have h2 : Handles n r d0 d2 := (h.kept hk).gone
  have hn : d2.pkt n = none := pkt_setPkt_same ..
  by_cases hm : (d2.g q).mode.isRun = true
  · rw [if_pos hm]
    exact h2
  · rw [if_neg hm]
    have hg : (d2.releaseRecords n p.stamp).pkt n = none := (Calm.refl d2).releaseRecords.gone n hn
    refine h2.trans ⟨fun x hx => ?_, ((Kept.refl _ d2).releaseRecords fun _ => id).1 .mode (by decide) r, fun hrun => ?_⟩
    · rw [hg] at hx
      cases hx
    · subst hr
      exact absurd hrun hm

theorem Handles.dropPacket {code : Nat} (hr : ∀ p, d.pkt n = some p → R p.region = r) : Handles n r d0 (d.dropPacket n code) := by
  unfold Dev.dropPacket
  split
  · exact h
  next p hp =>
    have h1 : Handles n r d0 ((d.dropCount (R p.region) code).freeEntry n) := (h.kept ((Kept.refl _ d).dropCount fun _ => id)).freeEntry
    dsimp only
    split
    · exact (h1.kept ((Kept.refl _ _).unqueue fun _ => id)).endDropped (hr p hp)
    · exact h1.endDropped (hr p hp)

theorem Handles.recirculate {l : List Nat} (hr : ∀ p, d.pkt n = some p → R p.region = r) : Handles n r d0 (d.recirculate n l) := by
  have hd {e : Dev} {code : Nat} (k : d.Kept [.regs, .wire, .ctxs] e) : Handles n r d0 (e.dropPacket n code) :=
    (h.kept k).dropPacket fun p hp => hr p (by rwa [pkt_congr (k.1 .packets (by decide))] at hp)
  unfold Dev.recirculate
  split
  · exact h
  · exact .ite (hd ((Kept.refl _ d).rewriteInvalid (by decide))) (.ite (hd (((Kept.refl _ d).addSat (by decide)).event (by decide)))
      (.ite (hd ((Kept.refl _ d).listFull (by decide))) h.freeEntry.modPkt))

theorem Handles.enqueueTask : Handles n r d0 (d.enqueueTask n) := by
  unfold Dev.enqueueTask
  split
  · exact h
  · extract_lets q named off d1 x l d2 d3
    have h1 : Handles n r d0 d1 := .ite h.err h
    have h2 : Handles n r d0 d2 := (h1.kept ((Kept.refl _ d1).modDsp fun _ => id)).modPkt
    have h3 : Handles n r d0 d3 := h2.kept ((((Kept.refl [.regs, .wire, .ctxs, .dispatch] d2).setFld (by decide)).maxFld (by decide)).pressure (by decide))
    exact .ite h3.event h3

theorem Handles.endPass (hr : ∀ p, d.pkt n = some p → R p.region = r) : Handles n r d0 (d.endPass n) := by
  unfold Dev.endPass
  split
  · exact h
  · exact .ite (h.dropPacket hr) (.ite (h.recirculate hr) h.enqueueTask)

end

/-- A packet that has no lookup left ends its pass (R910). -/
def passOn (d : Dev) (n : Nat) : Dev :=
  match d.pkt n with
  | some p => if p.lookups = [] then d.endPass n else d
  | none => d

theorem Handles.passOn {n : Nat} {r : Region} {d0 d : Dev} (h : Handles n r d0 d) (hr : ∀ p, d.pkt n = some p → R p.region = r) :
    Handles n r d0 (d.passOn n) := by
  unfold Dev.passOn
  split
  · exact .ite (h.endPass hr) h
  · exact h

/-- The result of a packet's lookup goes to its slot, and the packet goes on where it has no lookup left. -/
theorem primary_eq (d : Dev) (n : Nat) (r : Region) (p : Packet) (k : PrimaryLookup) :
    ∃ e b, Handles n r d e ∧ d.primary n p k = (e.setResult n k.slot k.table b).passOn n := by
  unfold primary
  extract_lets q t control
  dsimp -zeta only
  extract_lets d2 d3 floods drops d4 d5 d6
  have h1 : Handles n r d (d.lookup q k.table k.key p.length true).1 := (Handles.refl n r d).kept ((Kept.refl _ d).lookup fun _ => id)
  have h2 : Handles n r d d2 := .ite (h1.kept ((Kept.refl _ _).hit fun _ => id)) h1
  have h3 : Handles n r d d3 := (h2.kept ((Kept.refl _ d2).learn fun _ => id)).kept ((Kept.refl _ _).countOutcome fun _ => id)
  have h4 : Handles n r d d4 := .ite h3.modPkt h3
  have h5 : Handles n r d d5 := .ite h4.modPkt h4
  by_cases hc : t.kind = 3 ∧ (!(d.lookup q k.table k.key p.length true).2.errKey) = true
  · exact ⟨d5, _, h5, by rw [show d6 = _ from if_pos hc]; rfl⟩
  · exact ⟨d2, _, h2, by rw [show d6 = _ from if_neg hc]; rfl⟩

theorem pkt_setResult (d : Dev) (n slot table m : Nat) (b : List Byte) (hm : m ≠ n) : (d.setResult n slot table b).pkt m = d.pkt m := by
  rw [setResult, pkt_modPkt, if_neg hm]

/-- A packet whose lookup is answered has it no more. -/
theorem keeps_setResult {d : Dev} {n slot table : Nat} {b : List Byte} {q : Packet} (hq : (d.setResult n slot table b).pkt n = some q) :
    ∃ p, d.pkt n = some p ∧ q.stamp = p.stamp ∧ q.region = p.region ∧ ∀ k ∈ q.lookups, k.slot ≠ slot := by
  rw [setResult, pkt_modPkt_same] at hq
  obtain ⟨p, hp, rfl⟩ := Option.map_eq_some_iff.1 hq
  refine ⟨p, hp, rfl, rfl, fun k hk => ?_⟩
  simpa using (List.mem_filter.1 hk).2

/-- A lookup that is answered is off its packet, and in a run mode no other packet changes. -/
theorem primary_result {d : Dev} {n : Nat} {p : Packet} (hp : d.pkt n = some p) (k : PrimaryLookup) :
    (∀ q, (d.primary n p k).pkt n = some q → q.stamp = p.stamp ∧ ∀ j ∈ q.lookups, j.slot ≠ k.slot)
      ∧ ((d.g (R p.region)).mode.isRun = true → ∀ m, m ≠ n → (d.primary n p k).pkt m = d.pkt m) := by
  obtain ⟨e, b, he, hd⟩ := d.primary_eq n (R p.region) p k
  have hkeeps : ∀ q, (e.setResult n k.slot k.table b).pkt n = some q →
      q.stamp = p.stamp ∧ q.region = p.region ∧ ∀ j ∈ q.lookups, j.slot ≠ k.slot := fun q hq => by
    obtain ⟨o, ho, h1, h2, h3⟩ := keeps_setResult hq
    obtain ⟨p', hp', g1, g2, -⟩ := he.keeps o ho
    cases hp.symm.trans hp'
    exact ⟨h1.trans g1, h2.trans g2, h3⟩
  have hpass : Handles n (R p.region) (e.setResult n k.slot k.table b) (d.primary n p k) := by
    rw [hd]
    exact (Handles.refl _ _ _).passOn fun q hq => by rw [(hkeeps q hq).2.1]
  have hmode : ((e.setResult n k.slot k.table b).g (R p.region)).mode = (d.g (R p.region)).mode :=
    (((Kept.refl _ e).setResult fun _ => id).1 .mode (by decide) _).trans he.mode
  refine ⟨fun q hq => ?_, fun hrun m hm => ?_⟩
  · obtain ⟨o, ho, h1, -, h3⟩ := hpass.keeps q hq
    obtain ⟨g1, -, g3⟩ := hkeeps o ho
    exact ⟨h1.trans g1, h3 ▸ g3⟩
  · rw [hpass.others (hmode ▸ hrun) m hm, pkt_setResult _ _ _ _ _ _ hm, he.others hrun m hm]

end Dev

theorem lookupComplete_packet_carried (r : Region) (n slot : Nat) (bad : List Nat) (p : Packet) (s : State) (hp : s.dev.pkt n = some p)
    (hk : ∃ k ∈ p.lookups, k.slot = slot) :
    Carried (.lookupComplete r (.packet n slot) bad) s
      [.regs, .mem, .poison, .wire, .line, .ctxs, .packets, .endpoints, .commit, .tables, .pool, .egress, .dispatch, .journal] (fun e =>
        (∀ q, e.pkt n = some q → q.stamp = p.stamp ∧ ∀ k ∈ q.lookups, k.slot ≠ slot)
          ∧ ((s.dev.g (Dev.R p.region)).mode.isRun = true → ∀ m, m ≠ n → e.pkt m = s.dev.pkt m)) := by
  obtain ⟨k, hf⟩ : ∃ k, p.lookups.find? (·.slot == slot) = some k := by
    obtain ⟨j, hj, hs⟩ := hk
    exact Option.isSome_iff_exists.1 (List.find?_isSome.2 ⟨j, hj, by simp [hs]⟩)
  have hslot : k.slot = slot := by simpa using List.find?_some hf
  have hse : s.dev.Kept [.regs, .wire, .ctxs, .tables] (s.dev.searchErrors r k.table k.key bad) := (Dev.Kept.refl _ _).searchErrors fun _ => id
  have hpk (m : Nat) : (s.dev.searchErrors r k.table k.key bad).pkt m = s.dev.pkt m := Dev.pkt_congr (hse.1 .packets (by decide)) m
  obtain ⟨h1, h2⟩ := Dev.primary_result ((hpk n).trans hp) k
  have hx : exec (.lookupComplete r (.packet n slot) bad) s = execLookupComplete r (.packet n slot) bad s := rfl
  refine .of_doing (d := (s.dev.searchErrors r k.table k.key bad).primary n p k) hx ?_ ((hse.mono (by decide)).primary fun _ => id).1 ⟨?_, ?_⟩
  · simp only [hp, hf]
  · simpa only [Dev.pkt_withFree, hslot] using h1
  · intro hrun m hm
    rw [Dev.pkt_withFree, h2 (by rwa [hse.1 .mode (by decide)]) m hm, hpk]

/-- Settles O45, clause by clause. -/
theorem lookupsAndPlacementsReachTheirWorker : Obligations.LookupsAndPlacementsReachTheirWorker :=
  ⟨lookupComplete_ctx_carried, lookupComplete_packet_carried, dispatchPlacement_carried, placementDeadline_carried, windowWrite_carried,
    packetStart_carried⟩

end Sys2Proof.Machine

namespace Sys2Proof.Machine
namespace Dev

/-! ### What journal entries and events leave of the host's rings (R767–R770, R731) -/

/-- An endpoint after events were posted: its event ring and its pending bits may have changed. -/
def Posted (s t : EndpointState) : Prop := ∃ v b, t = { s with events := v, pba := b }

theorem Posted.refl (s : EndpointState) : Posted s s := ⟨_, _, rfl⟩

theorem Posted.trans {s t u : EndpointState} (h : Posted s t) (k : Posted t u) : Posted s u := by
  obtain ⟨_, _, rfl⟩ := h
  obtain ⟨_, _, rfl⟩ := k
  exact ⟨_, _, rfl⟩

theorem ep_modEp (d : Dev) (e x : Endpoint) (f : EndpointState → EndpointState) : (d.modEp e f).ep x = if x = e then f (d.ep e) else d.ep x := by
  split_ifs with h
  · rw [h, ep_modEp_same]
  · simp only [ep, modEp]
    exact Vector.getElem_set_ne _ _ fun he => h (Fin.ext he.symm)

theorem ep_congr {d e : Dev} (h : e.endpoints = d.endpoints) (x : Endpoint) : e.ep x = d.ep x := by rw [ep, ep, h]

@[simp] theorem ep_withFree (d : Dev) (n : Nat) (x : Endpoint) : (d.withFree n).ep x = d.ep x := (rfl)

/-- The host's rings stand: no register of theirs changes, and of the endpoints only their event rings and pending bits. -/
structure Aloof (d e : Dev) : Prop where
  regs : d.RegsBut (fun a => a < 2 ^ 48 ∨ a % 64 = 4) e
  eps : ∀ x, Posted (d.ep x) (e.ep x)

theorem Aloof.refl (d : Dev) : d.Aloof d := ⟨.refl _ _, fun _ => .refl _⟩

section
variable {d0 d e : Dev} (h : d0.Aloof d)
include h

theorem Aloof.trans (k : d.Aloof e) : d0.Aloof e := ⟨h.regs.trans k.regs, fun x => (h.eps x).trans (k.eps x)⟩

theorem Aloof.kept {l : List Part} (k : d.Kept l e) (hl : ∀ p ∈ [Part.regs, .endpoints], p ∉ l := by decide) : d0.Aloof e :=
  h.trans ⟨.of_regs (k.1 .regs (hl _ (by decide))), fun x => ep_congr (k.1 .endpoints (hl _ (by decide))) x ▸ .refl _⟩

theorem Aloof.setReg {a : Nat} {w : Word} (ha : a < 2 ^ 48 ∨ a % 64 = 4) : d0.Aloof (d.setReg a w) := ⟨h.regs.setReg ha, h.eps⟩

theorem Aloof.signalled (k : d.Signalled e) : d0.Aloof e :=
  h.trans ⟨k.2.mono fun a ha => .inl (lt_trans ha.1 (by norm_num)), fun x => ep_congr k.endpoints x ▸ .refl _⟩

theorem Aloof.modEp {x : Endpoint} {f : EndpointState → EndpointState} (hf : ∀ s, Posted s (f s) := by exact fun _ => ⟨_, _, rfl⟩) :
    d0.Aloof (d.modEp x f) :=
  h.trans ⟨.of_regs rfl, fun y => by
    rw [ep_modEp]
    split_ifs with hy
    · rw [hy]; exact hf _
    · exact .refl _⟩

theorem Aloof.ite {c : Prop} [Decidable c] (k : d0.Aloof e) : d0.Aloof (if c then d else e) := holds_ite h k

theorem Aloof.each {α : Type} {f : α → Dev → Dev} {l : List α} (hf : ∀ a (e : Dev), d0.Aloof e → d0.Aloof (f a e)) : d0.Aloof (d.each l f) := by
  unfold Dev.each
  induction l generalizing d with
  | nil => exact h
  | cons a t ih => exact ih (hf a d h)

theorem Aloof.msix {x : Endpoint} {v : Nat} : d0.Aloof (d.msix x v) := by
  unfold Dev.msix
  split_ifs
  · exact h.modEp
  · exact h.trans ⟨.of_regs rfl, fun _ => .refl _⟩

omit h in
/-- The register in which an endpoint's events are counted is none of its rings'. -/
theorem eventReg_beside (x : Endpoint) : HST_EV_STAT x.val < 2 ^ 48 ∨ HST_EV_STAT x.val % 64 = 4 := by
  simp only [HST_EV_STAT, hstReg]
  omega

theorem Aloof.eventWrite {x : Endpoint} {ring : EventRing} {code region word tick : Nat} {detail : List Byte} :
    d0.Aloof (d.eventWrite x ring code region word tick detail) := by
  unfold Dev.eventWrite
  have hw {a v : Nat} {l : List Byte} : d0.Aloof ((d.setBytes a l).setFld (HST_EV_STAT_pi x.val) v) :=
    (h.kept (setBytes_kept ..)).setReg (eventReg_beside x)
  exact hw.ite hw.modEp.msix

theorem Aloof.postTo {x : Endpoint} {code region word : Nat} {detail : List Byte} : d0.Aloof (d.postTo x code region word detail) := by
  unfold Dev.postTo
  split
  · exact h
  next ring _ =>
    extract_lets d1
    have h1 : d0.Aloof d1 := .ite h.eventWrite.modEp h
    exact h1.eventWrite.ite (h1.setReg (eventReg_beside x)).modEp

theorem Aloof.post {code region word : Nat} {detail : List Byte} : d0.Aloof (d.post code region word detail) := h.postTo.postTo

theorem Aloof.modJnl {r : Region} {f : JournalState → JournalState} : d0.Aloof (d.modJnl r f) := h.kept ((Kept.refl [.journal] d).modJnl fun _ => id)

theorem Aloof.setRgn {r : Region} {x lo width v : Nat} (hx : x < 0x10000000) : d0.Aloof (d.setFld ⟨rgnReg r.val x, lo, width⟩ v) :=
  h.setReg (.inl (rgnReg_lt hx))

theorem Aloof.journalRegion {r : Region} {code : Nat} {detail : List Byte} : d0.Aloof (d.journalRegion r code detail) := by
  unfold Dev.journalRegion Dev.journal Dev.journalAs
  refine .ite (.modJnl ?_) (h.setRgn (by norm_num)).modJnl
  unfold Dev.jnlWrite
  extract_lets j number d1 d2 d3
  have h2 : d0.Aloof d2 := ((h.kept (setBytes_kept ..)).setRgn (by norm_num)).modJnl
  have h3 : d0.Aloof d3 := .ite ((h2.setRgn (by norm_num)).setReg (.inl ?_)) h2
  · exact h3.post
  · have := d2.A_lt
    simp only [CHP_FAULT_CTL_fault_n, CHP_FAULT_CTL, chpReg]
    omega

omit h in
theorem Aloof.survives : Survives d0.Aloof where
  kept h k hl := h.kept k fun p hp => hl p (by revert p; decide)
  setReg h ha := h.setReg (.inl ha)
  raise h := h.signalled (signalled_raise ..)
  event h := h.signalled (signalled_event ..)
  journal h := h.journalRegion
  setPkt h _ := h.kept ((Kept.refl [.packets] _).setPkt fun _ => id)

theorem Aloof.dropCount {r : Region} {code : Nat} (hc : code < 0x1000) : d0.Aloof (d.dropCount r code) := by
  have ha : RGN_DROP_LO r.val code < 2 ^ 48 := rgnReg_lt (by omega)
  have hb : RGN_DROP_HI r.val code < 2 ^ 48 := rgnReg_lt (by omega)
  exact ((h.setReg (.inl ha)).setReg (.inl hb)).signalled (signalled_event ..)

theorem Aloof.rxGiveBack {x : Endpoint} {y : RxPkt} : d0.Aloof (d.rxGiveBack x y) :=
  .ite (Aloof.survives.reportOutcome h) (.ite (Aloof.survives.deref h) (h.kept (send_kept ..)))

theorem Aloof.dropRx {x : Endpoint} {code : Nat} (hc : code < 0x1000) {y : RxPkt} : d0.Aloof (d.dropRx x code y) := (h.dropCount hc).rxGiveBack

end

end Dev
/-! ### The link of an endpoint comes up (R724, R745) -/

/-- The registers of the host links lie behind those that signals change. -/
theorem not_signalReg_hst {e x : Nat} : ¬ signalReg (hstReg e x) := by
  unfold signalReg hstReg
  omega

theorem endpointLinkUp_carried (ep : Endpoint) (gen width : Nat) (s : State) (h1 : 1 ≤ gen) (h6 : gen ≤ 6) (hw : width ∈ [1, 2, 4, 8, 16]) :
    Carried (.endpointLinkUp ep gen width) s [.regs, .wire, .ctxs] (fun e => e.fld (HST_EP_STAT_gen ep.val) = gen
      ∧ e.fld (HST_EP_STAT_width ep.val) = width ∧ s.dev.RegsSig [HST_EP_STAT ep.val] e) := by
  set d1 := (s.dev.setFld (HST_EP_STAT_gen ep.val) gen).setFld (HST_EP_STAT_width ep.val) width with hd1
  have hs : d1.Signalled (d1.raise (endpointRegion ep) 0x3C0) := Dev.signalled_raise ..
  have hw' : width < 2 ^ 5 := by
    simp only [List.mem_cons, List.not_mem_nil, or_false] at hw
    omega
  have hx : exec (.endpointLinkUp ep gen width) s = execEndpointLinkUp ep gen width s := rfl
  refine .of_doing (d := d1.raise (endpointRegion ep) 0x3C0) hx ?_
    ((((Dev.Kept.refl _ _).setFld (by decide)).setFld (by decide)).raise fun _ => id).1 ⟨?_, ?_, ?_⟩
  · refine if_neg ?_
    have hc : [1, 2, 4, 8, 16].contains width = true := List.contains_iff_mem.2 hw
    rw [hc]
    simp only [Bool.not_true, Bool.false_eq_true, or_false]
    omega
  · rw [Dev.fld_withFree, hs.fld not_signalReg_hst, hd1, Dev.fld_setFld_beside _ (HST_EP_STAT_width ep.val) (HST_EP_STAT_gen ep.val) _
      (by norm_num [HST_EP_STAT_width]) (by norm_num [HST_EP_STAT_width, HST_EP_STAT_gen]),
      Dev.fld_setFld_same _ (HST_EP_STAT_gen ep.val) _ (by norm_num [HST_EP_STAT_gen])]
    exact Nat.mod_eq_of_lt (lt_of_le_of_lt h6 (by norm_num [HST_EP_STAT_gen]))
  · rw [Dev.fld_withFree, hs.fld not_signalReg_hst, hd1,
      Dev.fld_setFld_same _ (HST_EP_STAT_width ep.val) _ (by norm_num [HST_EP_STAT_width])]
    exact Nat.mod_eq_of_lt hw'
  · rw [Dev.regsSig_withFree]
    exact (((Dev.RegsBut.refl _ _).setFld (.inl (by simp [HST_EP_STAT_gen]))).setFld (.inl (by simp [HST_EP_STAT_width]))).signalled hs Dev.RegsSig.of_signal

/-! ### A pair's coalescing time passes (R739, R740) -/

theorem msixCoalesceExpiry_carried (ep : Endpoint) (q : Fin 512) (x : Nat × Nat) (s : State)
    (hf : (s.dev.ep ep).unsignalled.find? (·.1 == q.val) = some x)
    (ht : s.dev.fld (HST_QP_COAL_coalesce ep.val q.val) ≤ Dev.ticksAhead (s.dev.g (endpointRegion ep)).tick x.2) :
    Carried (.msixCoalesceExpiry ep q) s [.line, .endpoints] (fun e => let v := s.dev.fld (HST_QP_CFG_vector ep.val q.val)
      (e.ep ep).unsignalled = (s.dev.ep ep).unsignalled.filter (fun y => y.1 != q.val)
        ∧ if (Sparse.get msixDefault (s.dev.ep ep).msix (v * 4 + 3)).toNat % 2 = 1 then e.line = s.dev.line ∧ Sparse.get (fun _ => false) (e.ep ep).pba v = true
          else e.line = s.dev.line ++ [.msix ep.val v]) := by
  set d1 := s.dev.modEp ep fun x => { x with unsignalled := Sparse.drop x.unsignalled q.val } with hd1
  set v := s.dev.fld (HST_QP_CFG_vector ep.val q.val)
  have hep : d1.ep ep = { s.dev.ep ep with unsignalled := Sparse.drop (s.dev.ep ep).unsignalled q.val } := Dev.ep_modEp_same ..
  have hm : Sparse.get msixDefault (d1.ep ep).msix (v * 4 + 3) = Sparse.get msixDefault (s.dev.ep ep).msix (v * 4 + 3) := by rw [hep]
  have hx : exec (.msixCoalesceExpiry ep q) s = execMsixCoalesceExpiry ep q s := rfl
  refine .of_doing (d := d1.msix ep v) hx ?_ (((Dev.Kept.refl _ _).modEp (by decide)).msix fun _ => id).1 ⟨?_, ?_⟩
  · rw [hf]
    exact if_neg (Nat.not_lt.2 ht)
  · obtain ⟨_, _, h⟩ := ((Dev.Aloof.refl d1).msix (x := ep) (v := v)).eps ep
    rw [Dev.ep_withFree, h, hep]
    rfl
  · split_ifs with hc
    · have he : d1.msix ep v = _ := if_pos (hm ▸ hc)
      rw [Dev.ep_withFree, he, Dev.ep_modEp_same]
      exact ⟨rfl, Sparse.get_set_same (fun _ => false) (d1.ep ep).pba v true⟩
    · have he : d1.msix ep v = _ := if_neg (hm ▸ hc)
      rw [he]
      rfl

/-! ### A packet at the head of a receive queue waits in vain (R736) -/

namespace Dev

theorem rxQueue_congr {d e : Dev} {x : Endpoint} (h : (e.ep x).rxq = (d.ep x).rxq) (q : Nat) : e.rxQueue x q = d.rxQueue x q := by
  rw [rxQueue, rxQueue, h]

theorem Aloof.rxQueue {d e : Dev} (h : d.Aloof e) (x : Endpoint) (q : Nat) : e.rxQueue x q = d.rxQueue x q := by
  obtain ⟨_, _, hx⟩ := h.eps x
  exact rxQueue_congr (by rw [hx]) q

/-- The queue that is set holds the same records; the packet at its head waits from now on. -/
theorem records_setRxQueue (d : Dev) (x : Endpoint) (q : Nat) (l : List RxPkt) :
    ((d.setRxQueue x q l).rxQueue x q).map (·.record) = l.map (·.record) := by
  unfold setRxQueue rxQueue
  dsimp only
  rw [ep_modEp_same, Sparse.get_set_same]
  cases l <;> rfl

/-- What giving a host packet back changes of the registers. -/
theorem regs_rxGiveBack (d : Dev) (x : Endpoint) (y : RxPkt) : d.RegsBut poolReg (d.rxGiveBack x y) :=
  .ite (Settled.refl d).reportOutcome.regs (.ite (Pooled.refl d).deref.regs (.of_regs ((send_kept ..).1 .regs (by decide))))

@[simp] theorem pair_withFree (d : Dev) (n a b : Nat) : (d.withFree n).pair a b = d.pair a b := (rfl)
@[simp] theorem rxQueue_withFree (d : Dev) (n : Nat) (x : Endpoint) (q : Nat) : (d.withFree n).rxQueue x q = d.rxQueue x q := (rfl)

end Dev

theorem rxHoldExpiry_carried (ep : Endpoint) (q : Fin 512) (x : RxPkt) (t : List RxPkt) (s : State) (hq : s.dev.rxQueue ep q.val = x :: t)
    (hh : s.dev.rxHolds ep q.val x = false)
    (ht : s.dev.fld (HST_QP_COAL_rx_hold ep.val q.val) ≤ Dev.ticksAhead (s.dev.g (endpointRegion ep)).tick x.since) :
    Carried (.rxHoldExpiry ep q) s [.regs, .mem, .wire, .line, .ctxs, .packets, .endpoints, .commit, .pool, .egress, .journal] (fun e =>
      (e.rxQueue ep q.val).map (·.record) = t.map (·.record)
        ∧ e.pair (RGN_DROP_LO (endpointRegion ep).val 0x0A) (RGN_DROP_HI (endpointRegion ep).val 0x0A)
          = min (2 ^ 48 - 1) (s.dev.pair (RGN_DROP_LO (endpointRegion ep).val 0x0A) (RGN_DROP_HI (endpointRegion ep).val 0x0A) + 1)) := by
  set r := endpointRegion ep
  set d1 := s.dev.setRxQueue ep q.val t with hd1
  set d2 := d1.dropRx ep 0x0A x with hd2
  have hx : exec (.rxHoldExpiry ep q) s = execRxHoldExpiry ep q s := rfl
  refine .of_doing (d := d2.raise r 0x3C5) hx ?_ ((((Dev.Kept.refl _ _).setRxQueue (by decide)).dropRx (by decide)).raise (by decide)).1 ⟨?_, ?_⟩
  · rw [hq]
    refine if_neg ?_
    rw [hh]
    simpa using ht
  · have ha : d1.Aloof (d2.raise r 0x3C5) := ((Dev.Aloof.refl d1).dropRx (by norm_num)).signalled (Dev.signalled_raise ..)
    rw [Dev.rxQueue_withFree, ha.rxQueue, hd1, Dev.records_setRxQueue]
  · obtain ⟨hl, hh⟩ := Dev.not_poolReg_drop r (code := 0x0A) (by norm_num)
    have hreg : (d1.dropCount r 0x0A).RegsBut Dev.poolReg (d2.raise r 0x3C5) :=
      ((d1.dropCount r 0x0A).regs_rxGiveBack ep x).signalled (Dev.signalled_raise ..) Dev.poolReg_of_signalReg
    have h1 : s.dev.RegsBut (fun _ => False) d1 := .of_regs (((Dev.Kept.refl [.endpoints] s.dev).setRxQueue fun _ => id).1 .regs (by decide))
    refine (Dev.pair_withFree ..).trans ?_
    rw [hreg.pair hl hh, Dev.pair_dropCount _ _ (by norm_num), h1.pair not_false not_false]

theorem updateRingTake_idle_carried (ep : Endpoint) (time : Nat) (s : State)
    (h : (s.dev.g (endpointRegion ep)).mode.isRun = false ∨ s.dev.fenced (endpointRegion ep).val = true) :
    Carried (.updateRingTake ep time) s [] (fun _ => True) := by
  have hx : exec (.updateRingTake ep time) s = execUpdateRingTake ep time s := rfl
  refine .of_run_eq (d := s.dev) hx (if_pos ?_) (.refl _ _) trivial
  rcases h with h | h <;> simp [h]

/-! ### A packet is written to its receive descriptors (R733, R736) -/

namespace Dev

/-- A packet fills descriptors one after another. -/
theorem map_fst_rxPlan {d : Dev} {e : Endpoint} {q n i len : Nat} {plan : List (Nat × Nat)} (h : d.rxPlan e q n i len = some plan) :
    plan.map (·.1) = List.range' i plan.length := by
  induction n generalizing i len plan with
  | zero =>
    cases len with
    | zero => cases h; rfl
    | succ m => cases h
  | succ n ih =>
    cases len with
    | zero => cases h; rfl
    | succ m =>
      obtain ⟨t, ht, rfl⟩ := Option.map_eq_some_iff.1 h
      rw [List.map_cons, ih ht, List.length_cons, List.range'_succ]

/-- No descriptor takes more bytes than its size says. -/
theorem le_size_of_mem_rxPlan {d : Dev} {e : Endpoint} {q n i len : Nat} {plan : List (Nat × Nat)} (h : d.rxPlan e q n i len = some plan)
    {x : Nat × Nat} (hx : x ∈ plan) : x.2 ≤ d.le (d.rxDesc e q x.1 + 8) 2 := by
  induction n generalizing i len plan with
  | zero =>
    cases len with
    | zero => cases h; cases hx
    | succ m => cases h
  | succ n ih =>
    cases len with
    | zero => cases h; cases hx
    | succ m =>
      obtain ⟨t, ht, rfl⟩ := Option.map_eq_some_iff.1 h
      rcases List.mem_cons.1 hx with rfl | hx
      · exact Nat.min_le_left ..
      · exact ih ht hx

/-- Each descriptor moves the consumer index behind itself. -/
theorem rxWrite_cons (d : Dev) (e : Endpoint) (q : Nat) (x : RxPkt) (first : Bool) (y : Nat × Nat) (t : List (Nat × Nat)) (b : List Byte) :
    ∃ (d' : Dev) (f' : Bool) (b' : List Byte), d.rxWrite e q x first (y :: t) b = (d'.setFld (HST_QP_CI_rx_ci e.val q) (y.1 + 1)).rxWrite e q x f' t b' := by
  rw [rxWrite]
  by_cases hz : d.le (d.rxDesc e q y.1 + 8) 2 = 0
  · exact ⟨_, _, _, if_pos hz⟩
  · exact ⟨_, _, _, if_neg hz⟩

/-- The consumer index moves over the descriptors that a packet fills. -/
theorem fld_rxWrite (d : Dev) (e : Endpoint) (q : Nat) (x : RxPkt) (first : Bool) {plan : List (Nat × Nat)} (b : List Byte) {c : Nat}
    (hp : plan.map (·.1) = List.range' c plan.length) (hc : d.fld (HST_QP_CI_rx_ci e.val q) = c % 2 ^ 16) :
    (d.rxWrite e q x first plan b).fld (HST_QP_CI_rx_ci e.val q) = (c + plan.length) % 2 ^ 16 := by
  induction plan generalizing d first b c with
  | nil => exact hc
  | cons y t ih =>
    rw [List.map_cons, List.length_cons, List.range'_succ, List.cons.injEq] at hp
    obtain ⟨hy, ht⟩ := hp
    obtain ⟨d', f', b', h⟩ := d.rxWrite_cons e q x first y t b
    rw [h, List.length_cons, ← Nat.add_assoc, Nat.add_right_comm, hy]
    exact ih _ f' b' ht (fld_setFld_same _ (HST_QP_CI_rx_ci e.val q) _ (by norm_num [HST_QP_CI_rx_ci]))

theorem byte_congr {d e : Dev} (h : e.mem = d.mem) (a : Nat) : e.byte a = d.byte a := by rw [byte, byte, h]

theorem le_congr {d e : Dev} (h : e.mem = d.mem) (a n : Nat) : e.le a n = d.le a n := by
  rw [le, le, bytes_congr fun i _ => byte_congr h (a + i)]

@[simp] theorem le_withFree (d : Dev) (n a k : Nat) : (d.withFree n).le a k = d.le a k := (rfl)

theorem ofLE_lt (l : List Byte) : ofLE l < 256 ^ l.length := by
  induction l with
  | nil => exact Nat.one_pos
  | cons b t ih =>
    have := b.isLt
    rw [ofLE, List.length_cons, Nat.pow_succ]
    omega

theorem le_lt (d : Dev) (a n : Nat) : d.le a n < 256 ^ n := by
  have := ofLE_lt (d.bytes a n)
  rwa [length_bytes] at this

/-- A number at the front of the bytes written is read back. -/
theorem le_setBytes_append (d : Dev) (a n v : Nat) (l : List Byte) : (d.setBytes a (bytesLE n v ++ l)).le a n = v % 256 ^ n := by
  have h := (d.setBytes a (bytesLE n v ++ l)).length_bytes a n
  have hb : (d.setBytes a (bytesLE n v ++ l)).bytes a n = bytesLE n v := by
    refine List.ext_getElem (by rw [h, length_bytesLE]) fun i hi hi' => ?_
    rw [length_bytesLE] at hi'
    simp only [bytes, List.getElem_map, List.getElem_range]
    rw [byte_setBytes, if_pos (by rw [List.length_append, length_bytesLE]; omega), Nat.add_sub_cancel_left, List.getD_append _ _ _ _ (by rwa [length_bytesLE]),
      List.getD_eq_getElem _ _ (by rwa [length_bytesLE])]
  rw [le, hb, ofLE_bytesLE]

/-- A descriptor that is filled tells the bytes that it holds, and its last byte that it is done (R733). -/
theorem rxWrite_one {d : Dev} {e : Endpoint} {q i n : Nat} {x : RxPkt} {first : Bool} {b : List Byte}
    (hz : d.le (d.rxDesc e q i + 8) 2 ≠ 0) (hn : n < 2 ^ 16) :
    (d.rxWrite e q x first [(i, n)] b).le (d.rxDesc e q i + 16) 2 = n ∧ (d.rxWrite e q x first [(i, n)] b).byte (d.rxDesc e q i + 31) = 0x80 := by
  have hw : ∃ (d' : Dev) (l : List Byte), l.length = 12 ∧ d.rxWrite e q x first [(i, n)] b
      = (d'.setBytes (d.rxDesc e q i + 16) (bytesLE 2 n ++ (bytesLE 1 x.record.stamp.port ++ (l ++ bytesLE 1 0x80)))).setFld
        (HST_QP_CI_rx_ci e.val q) (i + 1) := by
    rw [rxWrite, if_neg hz]
    extract_lets more d1 flags d2
    refine ⟨d1, bytesLE 1 flags ++ (bytesLE 4 x.meta0 ++ (bytesLE 4 (if first then x.tsNs % 2 ^ 30 else 0)
      ++ (bytesLE 2 (if first then x.tsSec else 0) ++ bytesLE 1 0))), by simp [length_bytesLE], ?_⟩
    simp only [rxWrite, d2, List.append_assoc]
  obtain ⟨d', l, hl, hw⟩ := hw
  rw [hw]
  constructor
  · rw [le_congr (setFld_mem ..), le_setBytes_append]
    exact Nat.mod_eq_of_lt (by simpa using hn)
  · rw [byte_congr (setFld_mem ..), byte_setBytes, if_pos (by simp only [List.length_append, length_bytesLE, hl]; omega), Nat.add_sub_add_left,
      List.getD_append_right _ _ _ _ (by simp [length_bytesLE]), List.getD_append_right _ _ _ _ (by simp [length_bytesLE]),
      List.getD_append_right _ _ _ _ (by simp [length_bytesLE, hl])]
    simp [hl, bytesLE]

theorem rxq_signalPair (d : Dev) (e : Endpoint) (q k : Nat) : (d.signalPair e q).rxQueue e k = d.rxQueue e k := by
  unfold signalPair
  split_ifs
  · exact ((Aloof.refl d).msix).rxQueue e k
  · exact rxQueue_congr (by rw [ep_modEp_same]) k

/-- A register of the host's rings is none that is counted in beside them. -/
theorem Aloof.fld {d e : Dev} (h : d.Aloof e) {f : Fld} (hf : ¬ (f.addr < 2 ^ 48 ∨ f.addr % 64 = 4)) : e.fld f = d.fld f := h.regs.fld hf

end Dev

theorem rxPacketDeliver_carried (ep : Endpoint) (q : Fin 512) (x : RxPkt) (t : List RxPkt) (plan : List (Nat × Nat)) (s : State)
    (hq : s.dev.rxQueue ep q.val = x :: t) (hr : x.ready = true) (hon : s.dev.on (HST_QP_CFG_rx_en ep.val q.val) = true)
    (hbad : (s.dev.chainBytes 512 x.record.head 0).2 = false) (hpo : x.record.poisoned = false)
    (hplan : s.dev.rxPlan ep q.val (s.dev.rxWork ep q.val) (s.dev.fld (HST_QP_CI_rx_ci ep.val q.val))
      ((s.dev.chainBytes 512 x.record.head 0).1.take x.record.length).length = some plan) :
    Carried (.rxPacketDeliver ep q) s [.regs, .mem, .wire, .line, .ctxs, .packets, .endpoints, .commit, .pool, .egress, .journal] (fun e =>
      (e.rxQueue ep q.val).map (·.record) = t.map (·.record)
        ∧ e.fld (HST_QP_CI_rx_ci ep.val q.val) = (s.dev.fld (HST_QP_CI_rx_ci ep.val q.val) + plan.length) % 2 ^ 16
        ∧ ∀ i n, plan = [(i, n)] → n ≠ 0 → handleRegion x.record.head ≠ (endpointRegion ep).val →
            e.le (s.dev.rxDesc ep q.val i + 16) 2 = n ∧ e.byte (s.dev.rxDesc ep q.val i + 31) = 0x80) := by
  set d1 := s.dev.setRxQueue ep q.val t with hd1
  set d2 := d1.rxWrite ep q.val x true plan ((s.dev.chainBytes 512 x.record.head 0).1.take x.record.length) with hd2
  set d3 := d2.rxGiveBack ep x with hd3
  have hk1 : s.dev.Kept [.endpoints] d1 := (Dev.Kept.refl _ _).setRxQueue fun _ => id
  have hk2 : d1.Kept [.regs, .mem, .wire, .ctxs] d2 := (Dev.Kept.refl _ _).rxWrite fun _ => id
  have hk4 : d3.Kept [.line, .endpoints] (d3.signalPair ep q.val) := (Dev.Kept.refl _ _).signalPair fun _ => id
  have ha3 : d2.Aloof d3 := (Dev.Aloof.refl d2).rxGiveBack
  have hx : exec (.rxPacketDeliver ep q) s = execRxPacketDeliver ep q s := rfl
  refine .of_doing (d := d3.signalPair ep q.val) hx ?_
    ((((hk1.mono (by decide)).then hk2 (by decide)).rxGiveBack (by decide)).then hk4 (by decide)).1 ⟨?_, ?_, fun i n hp hn hh => ?_⟩
  · rw [hq]
    dsimp only
    rw [hr, hon, hbad, hpo]
    simp only [Bool.not_true, Bool.or_false, Bool.false_eq_true, if_false, hplan]
    rfl
  · rw [Dev.rxQueue_withFree, Dev.rxq_signalPair, ha3.rxQueue, Dev.rxQueue_congr (congrArg EndpointState.rxq (Dev.ep_congr (hk2.1 .endpoints (by decide)) ep)),
      hd1, Dev.records_setRxQueue]
  · have hf {d e : Dev} (h : e.regs = d.regs) : e.fld (HST_QP_CI_rx_ci ep.val q.val) = d.fld (HST_QP_CI_rx_ci ep.val q.val) :=
      Dev.fld_congr _ (by rw [Dev.reg, Dev.reg, h])
    have h1 := hf (hk1.1 .regs (by decide))
    rw [Dev.fld_withFree, hf (hk4.1 .regs (by decide)), ha3.fld (by simp only [HST_QP_CI_rx_ci, HST_QP_CI, hstReg]; omega), hd2]
    exact Dev.fld_rxWrite _ _ _ _ _ _ (Dev.map_fst_rxPlan hplan) (by rw [h1]; exact (Nat.mod_eq_of_lt (Dev.fld_lt ..)).symm)
  · have hm : (d3.signalPair ep q.val).mem = d2.mem := by
      rw [hk4.1 .mem (by decide), hd3, Dev.rxGiveBack, hr]
      simp only [Bool.not_true, Bool.false_eq_true, if_false, if_neg hh]
      rfl
    have hsize : n ≤ s.dev.le (s.dev.rxDesc ep q.val i + 8) 2 := Dev.le_size_of_mem_rxPlan hplan (x := (i, n)) (by simp [hp])
    have hlt : s.dev.le (s.dev.rxDesc ep q.val i + 8) 2 < 2 ^ 16 := Dev.le_lt ..
    have hdesc : d1.rxDesc ep q.val i = s.dev.rxDesc ep q.val i := rfl
    have hle : d1.le (s.dev.rxDesc ep q.val i + 8) 2 = s.dev.le (s.dev.rxDesc ep q.val i + 8) 2 := Dev.le_congr (hk1.1 .mem (by decide)) ..
    have h := Dev.rxWrite_one (d := d1) (e := ep) (q := q.val) (i := i) (n := n) (x := x) (first := true)
      (b := (s.dev.chainBytes 512 x.record.head 0).1.take x.record.length) (by rw [hdesc, hle]; omega) (by omega)
    rw [Dev.byte_withFree, Dev.byte_congr hm, Dev.le_withFree, Dev.le_congr hm, hd2, hp]
    exact h

/-! ### An update ring's entry is taken (R332, R333, R738) -/

namespace Dev

section
variable {d0 d : Dev} (h : d0.Aloof d)
include h

theorem Aloof.event {r : Region} {sel qual n : Nat} : d0.Aloof (d.event r sel qual n) := h.signalled (signalled_event ..)

theorem Aloof.err {r : Region} {x lo width n : Nat} {q : Region} (hx : x < 0x10000000) : d0.Aloof (d.err ⟨rgnReg r.val x, lo, width⟩ q n) :=
  (h.setRgn (v := 1) hx).signalled (err_frame ..)

theorem Aloof.outcome {r : Region} {i : Issuer} {code visible index : Nat} : d0.Aloof (d.outcome r i code visible index) := by
  unfold Dev.outcome
  extract_lets d1 d2 d3
  have h2 : d0.Aloof d2 := (h.kept ((Kept.refl [.commit] d).modCommit fun _ => id)).event
  have h3 : d0.Aloof d3 := by
    unfold d3
    split
    next p =>
      refine holds_ite ?_ h2
      have hb : learnBlock p < 9 := by
        unfold learnBlock
        split_ifs <;> omega
      have hl : d0.Aloof (d2.addSat (RGN_LEARN_FULL_count r.val (learnBlock p)) 1) := h2.setReg (.inl (rgnReg_lt (by omega)))
      exact holds_ite (hl.signalled (signalled_raise ..)) hl
    · exact h2
  exact (h3.err (by norm_num)).ite h3

theorem Aloof.stage {r : Region} {m : Mut} {i : Issuer} : d0.Aloof (d.stage r m i).1 := by
  unfold Dev.stage
  extract_lets st host hw m1 d1 d2
  have h2 : d0.Aloof d2 := ((h.kept ((Kept.refl [.commit] d).modCommit fun _ => id)).setRgn (by norm_num)).event
  have h3 : d0.Aloof (d2.sendAll r.val (d2.committers r) (.mutRecord (d2.g r).tick m1)) := h2.kept (sendAll_kept ..)
  clear_value d2
  exact holds_ite_fst (h.err (by norm_num)) (holds_ite h2 h3)

end

/-- Whether a record finds a slot depends on what its region has staged alone (R98). -/
theorem stage_snd (d : Dev) (r : Region) (m : Mut) (i : Issuer) : (d.stage r m i).2
    = if 128 ≤ (d.g r).commit.staged.length ∨ (!m.fromHost) = true
        ∧ 128 - d.fld (RGN_COMMIT_CTL_host_reserve r.val) ≤ ((d.g r).commit.staged.filter (fun x => !x.mu.fromHost)).length
      then false else true := apply_ite Prod.snd ..

/-- The next entry of a ring in turn: the ring after it is next. -/
def turned (d : Dev) (e : Endpoint) (k : Nat) : Dev := d.modEp e fun s => { s with urTurn := k + 1 }

theorem urTurn_turned (d : Dev) (e : Endpoint) (k : Nat) : ((d.turned e k).ep e).urTurn = k + 1 := by rw [turned, ep_modEp_same]

theorem stage_snd_turned (d : Dev) (e : Endpoint) (k : Nat) (r : Region) (m : Mut) (i : Issuer) :
    ((d.turned e k).stage r m i).2 = (d.stage r m i).2 := by
  have hg : (d.turned e k).g r = d.g r := rfl
  have hf (f : Fld) : (d.turned e k).fld f = d.fld f := rfl
  rw [stage_snd, stage_snd, hg, hf]

theorem ci_setFld (d : Dev) (e k i : Nat) : (d.setFld (HST_UR_CI_ci e k) (i + 1)).fld (HST_UR_CI_ci e k) = (i + 1) % 2 ^ 16 :=
  fld_setFld_same _ (HST_UR_CI_ci e k) _ (by norm_num [HST_UR_CI_ci])

theorem Aloof.ci {d e : Dev} (h : d.Aloof e) (x k : Nat) : e.fld (HST_UR_CI_ci x k) = d.fld (HST_UR_CI_ci x k) :=
  h.fld (by simp only [HST_UR_CI_ci, HST_UR_CI, hstReg]; omega)

/-- The entry that a ring is to give next, and its record as host software issues it. -/
def nextEntry (d : Dev) (e : Endpoint) (k : Nat) : List Byte := d.bytes (d.urEntry e k (d.fld (HST_UR_CI_ci e.val k))) 96
def nextRecord (d : Dev) (e : Endpoint) (k time : Nat) : Mut := hostRecord (d.nextEntry e k) 4 (0x40 + e.val) time

/-- An entry is taken: the ring after it is next in turn, and the consumer index moves over it. -/
def Taken (e : Endpoint) (k : Nat) (d d' : Dev) : Prop :=
  (d'.ep e).urTurn = k + 1 ∧ d'.fld (HST_UR_CI_ci e.val k) = (d.fld (HST_UR_CI_ci e.val k) + 1) % 2 ^ 16

/-- An entry that finds no slot stays, and its ring is blocked (R333). -/
def Blocked (e : Endpoint) (k : Nat) (d d' : Dev) : Prop :=
  (d'.ep e).urTurn = k + 1 ∧ d'.fld (HST_UR_CI_ci e.val k) = d.fld (HST_UR_CI_ci e.val k) ∧ Sparse.get (fun _ => false) (d'.ep e).urBlocked k = true

theorem taken_of_aloof {d d1 d' : Dev} {e : Endpoint} {k : Nat} (h : (d.turned e k).Aloof d1)
    (h' : (d1.setFld (HST_UR_CI_ci e.val k) (d.fld (HST_UR_CI_ci e.val k) + 1)).Aloof d') : Taken e k d d' := by
  refine ⟨?_, by rw [h'.ci, ci_setFld]⟩
  obtain ⟨_, _, h1⟩ := h.eps e
  obtain ⟨_, _, h2⟩ := h'.eps e
  have h3 : (d1.setFld (HST_UR_CI_ci e.val k) (d.fld (HST_UR_CI_ci e.val k) + 1)).ep e = d1.ep e :=
    ep_congr ((setFld_kept ..).1 .endpoints (by decide)) e
  rw [h2, h3, h1]
  exact urTurn_turned ..

/-- What becomes of an entry that is staged or finds no slot, by the answer of the staging. -/
def afterStage (e : Endpoint) (k i : Nat) (x : Dev × Bool) : Dev :=
  if x.2 then x.1.setFld (HST_UR_CI_ci e.val k) (i + 1)
  else x.1.modEp e fun s => { s with urBlocked := Sparse.set (fun _ => false) s.urBlocked k true }

/-- What becomes of an entry that is a NOP or invalid: it completes with a code (R333). -/
def completed (d : Dev) (e : Endpoint) (k i code : Nat) : Dev :=
  (d.setFld (HST_UR_CI_ci e.val k) (i + 1)).outcome (endpointRegion e) (.ring e.val k i) code ((d.g (endpointRegion e)).tick + 1) 0

theorem takeUpdate_eq (d : Dev) (e : Endpoint) (k time : Nat) : d.takeUpdate e k time
    = if (d.nextRecord e k time).op = 0 then (d.turned e k).completed e k (d.fld (HST_UR_CI_ci e.val k)) 0xA
      else if !(d.turned e k).recordOk (endpointRegion e) (d.nextRecord e k time) (Mut.reservedOf (d.nextEntry e k)) then
        (d.turned e k).completed e k (d.fld (HST_UR_CI_ci e.val k)) 9
      else afterStage e k (d.fld (HST_UR_CI_ci e.val k)) ((d.turned e k).stage (endpointRegion e) (d.nextRecord e k time)
        (.ring e.val k (d.fld (HST_UR_CI_ci e.val k)))) := by
  have h (i : Nat) (x : Dev × Bool) : (match x with
      | (d, true) => d.setFld (HST_UR_CI_ci e.val k) (i + 1)
      | (d, false) => d.modEp e fun s => { s with urBlocked := Sparse.set (fun _ => false) s.urBlocked k true }) = afterStage e k i x := by
    rcases x with ⟨_, _ | _⟩ <;> rfl
  unfold takeUpdate
  dsimp only
  rw [← h]
  rfl

theorem takeUpdate_result (d : Dev) (e : Endpoint) (k time : Nat) :
    if (d.nextRecord e k time).op = 0 ∨ d.recordOk (endpointRegion e) (d.nextRecord e k time) (Mut.reservedOf (d.nextEntry e k)) = false
        ∨ (d.stage (endpointRegion e) (d.nextRecord e k time) (.ring e.val k (d.fld (HST_UR_CI_ci e.val k)))).2 = true
      then Taken e k d (d.takeUpdate e k time) else Blocked e k d (d.takeUpdate e k time) := by
  have hs := d.stage_snd_turned e k (endpointRegion e) (d.nextRecord e k time) (.ring e.val k (d.fld (HST_UR_CI_ci e.val k)))
  have ht : (d.turned e k).Aloof ((d.turned e k).stage (endpointRegion e) (d.nextRecord e k time) (.ring e.val k (d.fld (HST_UR_CI_ci e.val k)))).1 :=
    (Aloof.refl _).stage
  have ho : (d.turned e k).recordOk (endpointRegion e) (d.nextRecord e k time) (Mut.reservedOf (d.nextEntry e k))
    = d.recordOk (endpointRegion e) (d.nextRecord e k time) (Mut.reservedOf (d.nextEntry e k)) := rfl
  have hc {code : Nat} : Taken e k d ((d.turned e k).completed e k (d.fld (HST_UR_CI_ci e.val k)) code) :=
    taken_of_aloof (.refl _) (Aloof.refl _).outcome
  rw [takeUpdate_eq]
  by_cases h0 : (d.nextRecord e k time).op = 0
  · rw [if_pos (Or.inl h0), if_pos h0]
    exact hc
  by_cases h1 : d.recordOk (endpointRegion e) (d.nextRecord e k time) (Mut.reservedOf (d.nextEntry e k)) = false
  · rw [if_pos (Or.inr (Or.inl h1)), if_neg h0, if_pos (by rw [ho, h1]; rfl)]
    exact hc
  have h1' : ¬ (!(d.turned e k).recordOk (endpointRegion e) (d.nextRecord e k time) (Mut.reservedOf (d.nextEntry e k))) = true := by
    rw [ho]
    simpa using h1
  rw [if_neg h0, if_neg h1']
  unfold afterStage
  rw [hs]
  by_cases h2 : (d.stage (endpointRegion e) (d.nextRecord e k time) (.ring e.val k (d.fld (HST_UR_CI_ci e.val k)))).2 = true
  · rw [if_pos (Or.inr (Or.inr h2)), if_pos h2]
    exact taken_of_aloof ht (.refl _)
  · rw [if_neg (fun h => h.elim h0 fun h => h.elim h1 h2), if_neg h2]
    obtain ⟨_, _, h⟩ := ht.eps e
    refine ⟨?_, ?_, ?_⟩
    · rw [ep_modEp_same, h]
      exact urTurn_turned ..
    · exact (ht.ci e.val k)
    · rw [ep_modEp_same]
      exact Sparse.get_set_same (fun _ => false) _ k true

end Dev

theorem updateRingTake_carried (ep : Endpoint) (time k : Nat) (s : State) (hrun : (s.dev.g (endpointRegion ep)).mode.isRun = true)
    (hf : s.dev.fenced (endpointRegion ep).val = false)
    (hk : Dev.ringTurn (s.dev.ep ep).urTurn ((s.dev.enabledRings ep).filter
      (fun x => s.dev.urWork ep x != 0 && !Sparse.get (fun _ => false) (s.dev.ep ep).urBlocked x)) = some k) :
    Carried (.updateRingTake ep time) s [.regs, .wire, .ctxs, .endpoints, .commit] (fun e =>
      let b := s.dev.bytes (s.dev.urEntry ep k (s.dev.fld (HST_UR_CI_ci ep.val k))) 96
      let m := Dev.hostRecord b 4 (0x40 + ep.val) time
      (e.ep ep).urTurn = k + 1
        ∧ if m.op = 0 ∨ s.dev.recordOk (endpointRegion ep) m (Mut.reservedOf b) = false
            ∨ (s.dev.stage (endpointRegion ep) m (.ring ep.val k (s.dev.fld (HST_UR_CI_ci ep.val k)))).2 = true
          then e.fld (HST_UR_CI_ci ep.val k) = (s.dev.fld (HST_UR_CI_ci ep.val k) + 1) % 2 ^ 16
          else e.fld (HST_UR_CI_ci ep.val k) = s.dev.fld (HST_UR_CI_ci ep.val k) ∧ Sparse.get (fun _ => false) (e.ep ep).urBlocked k = true) := by
  have hx : exec (.updateRingTake ep time) s = execUpdateRingTake ep time s := rfl
  refine .of_run_eq (d := s.dev.takeUpdate ep k time) hx ?_ ((Dev.Kept.refl _ _).takeUpdate fun _ => id).1 ?_
  · dsimp only
    rw [hk, hrun, hf]
    rfl
  · have h := s.dev.takeUpdate_result ep k time
    dsimp only
    rw [Dev.ep_withFree, Dev.fld_withFree]
    change _ ∧ if (s.dev.nextRecord ep k time).op = 0 ∨ s.dev.recordOk (endpointRegion ep) (s.dev.nextRecord ep k time) (Mut.reservedOf (s.dev.nextEntry ep k)) = false
      ∨ (s.dev.stage (endpointRegion ep) (s.dev.nextRecord ep k time) (.ring ep.val k (s.dev.fld (HST_UR_CI_ci ep.val k)))).2 = true then _ else _
    split_ifs at h ⊢
    · exact h
    · exact h

/-! ### An endpoint is reset (R725) -/

/-- A key that is not listed reads as it does before it is written. -/
theorem Sparse.get_of_not_mem {α : Type} {f : Nat → α} {m : List (Nat × α)} {k : Nat} (h : k ∉ m.map (·.1)) : Sparse.get f m k = f k := by
  induction m with
  | nil => rfl
  | cons x t ih =>
    rw [List.map_cons, List.mem_cons, not_or] at h
    rw [Sparse.get, if_neg h.1, ih h.2]

theorem locOf_hstReg {e off : Nat} (he : e < 2) (ho : off < 0x10000000) : locOf (hstReg e off) = .bar0 e off := by
  have h1 : (hstReg e off - 0x1000000000000) / 0x10000000 = e := by unfold hstReg; omega
  have h2 : hstReg e off % 0x10000000 = off := by unfold hstReg; omega
  have h3 : 0x1000000000000 ≤ hstReg e off := by unfold hstReg; omega
  have h4 : hstReg e off < 0x10000000000000 := by unfold hstReg; omega
  unfold locOf
  rw [if_neg (by omega), if_pos h3, h1, h2]

theorem find_qpCfg {q : Nat} (hq : q < 512) : bar0Regs.find? (·.holds (0x800010 + q * 0x40)) = bar0Regs[4]? := by
  rw [bar0Regs]
  rw [List.find?_cons_of_neg (by simp only [RegDesc.holds, Bool.and_eq_true, beq_iff_eq, decide_eq_true_eq]; omega),
    List.find?_cons_of_neg (by simp only [RegDesc.holds, Bool.and_eq_true, beq_iff_eq, decide_eq_true_eq]; omega),
    List.find?_cons_of_neg (by simp only [RegDesc.holds, Bool.and_eq_true, beq_iff_eq, decide_eq_true_eq]; omega),
    List.find?_cons_of_neg (by simp only [RegDesc.holds, Bool.and_eq_true, beq_iff_eq, decide_eq_true_eq]; omega),
    List.find?_cons_of_pos (by simp only [RegDesc.holds, Bool.and_eq_true, beq_iff_eq, decide_eq_true_eq]; omega)]
  rfl

/-- No register of the host links has a reset value by its index. -/
theorem indexedReset_bar0 (e off : Nat) (x : RegDesc) : indexedReset (.bar0 e off) x = none := by cases x; rfl

theorem regDefault_of_desc {a : Nat} {x : RegDesc} {l : Loc} (hd : descAt a = some x) (hl : locOf a = l) (hi : indexedReset l x = none) :
    regDefault a = BitVec.ofNat 32 x.resetWord := by
  unfold regDefault
  rw [hd, hl]
  dsimp only
  rw [hi]

/-- A queue pair is disabled when the part powers up (R745). -/
theorem regDefault_qpCfg {e q : Nat} (he : e < 2) (hq : q < 512) : regDefault (HST_QP_CFG e q) = 0 := by
  have hl : locOf (HST_QP_CFG e q) = .bar0 e (0x800010 + q * 0x40) := locOf_hstReg he (by omega)
  have hd : descAt (HST_QP_CFG e q) = bar0Regs[4]? := by
    unfold descAt
    rw [hl]
    exact find_qpCfg hq
  exact (regDefault_of_desc hd hl (indexedReset_bar0 ..)).trans rfl

namespace Dev

/-- Registers written in turn hold what was written last, the others what they held. -/
theorem reg_each_setReg (g : Word → Word) (a : Nat) (l : List (Nat × Word)) (d : Dev) :
    (∃ w, (d.each l fun x d => d.setReg x.1 (g x.2)).reg a = g w)
      ∨ a ∉ l.map (·.1) ∧ (d.each l fun x d => d.setReg x.1 (g x.2)).reg a = d.reg a := by
  induction l generalizing d with
  | nil => exact .inr ⟨by simp, rfl⟩
  | cons x t ih =>
    rcases ih (d.setReg x.1 (g x.2)) with h | ⟨hn, h⟩
    · exact .inl h
    · by_cases ha : a = x.1
      · refine .inl ⟨x.2, h.trans ?_⟩
        rw [ha, reg_setReg, if_pos rfl]
      · refine .inr ⟨by simpa [ha] using hn, h.trans ?_⟩
        rw [reg_setReg_ne _ _ _ _ ha]

/-- The pairs of an endpoint with both directions disabled. -/
def Disabled (e : Endpoint) (d : Dev) : Prop := ∀ q < 512, d.on (HST_QP_CFG_tx_en e.val q) = false ∧ d.on (HST_QP_CFG_rx_en e.val q) = false

theorem enables_of_low {w : Word} (h : w.toNat < 2 ^ 30) : fieldOf w 31 1 = 0 ∧ fieldOf w 30 1 = 0 := by
  unfold fieldOf
  omega

theorem disabled_of_low {e : Endpoint} {d : Dev} (h : ∀ q < 512, (d.reg (HST_QP_CFG e.val q)).toNat < 2 ^ 30) : Disabled e d := fun q hq =>
  have ⟨h1, h2⟩ := enables_of_low (h q hq)
  ⟨on_eq_false.2 h1, on_eq_false.2 h2⟩

/-- Clearing the enables of every listed pair disables them all, since an unlisted one is disabled. -/
theorem disabled_pairs (e : Endpoint) (d : Dev) : Disabled e (d.each (d.regs.filter (fun x => HST_QP_CFG e.val 0 ≤ x.1 && x.1 < HST_QP_CFG e.val 512
    && (x.1 - HST_QP_CFG e.val 0) % 0x40 == 0)) fun x d => d.setReg x.1 (withField x.2 30 2 0)) := by
  refine disabled_of_low fun q hq => ?_
  rcases d.reg_each_setReg (fun w => withField w 30 2 0) (HST_QP_CFG e.val q) (d.regs.filter (fun x => HST_QP_CFG e.val 0 ≤ x.1
    && x.1 < HST_QP_CFG e.val 512 && (x.1 - HST_QP_CFG e.val 0) % 0x40 == 0)) with ⟨w, hw⟩ | ⟨hn, h⟩
  · rw [hw, withField_toNat _ _ _ _ (by norm_num)]
    have := w.isLt
    omega
  · have hm : HST_QP_CFG e.val q ∉ d.regs.map (·.1) := fun hm => by
      obtain ⟨x, hx, ha⟩ := List.mem_map.1 hm
      refine hn (List.mem_map.2 ⟨x, List.mem_filter.2 ⟨hx, ?_⟩, ha⟩)
      have ha' : x.1 = HST_QP_CFG e.val q := ha
      simp only [ha', HST_QP_CFG, hstReg, Bool.and_eq_true, decide_eq_true_eq, beq_iff_eq]
      omega
    rw [h, reg, Sparse.get_of_not_mem hm, regDefault_qpCfg e.isLt hq]
    decide

theorem on_clr_ring (d : Dev) (e : Endpoint) (k j : Nat) :
    (d.clr (HST_UR_CFG_enable e.val k)).on (HST_UR_CFG_enable e.val j) = if j = k then false else d.on (HST_UR_CFG_enable e.val j) := by
  split_ifs with h
  · rw [h]
    exact on_eq_false.2 ((fld_setFld_same _ (HST_UR_CFG_enable e.val k) _ (by norm_num [HST_UR_CFG_enable])).trans (Nat.zero_mod _))
  · refine congrArg (· != 0) (fld_setFld_ne _ _ _ _ fun ha => h ?_)
    simp only [HST_UR_CFG_enable, HST_UR_CFG, hstReg] at ha
    omega

theorem on_clr_rings (e : Endpoint) (j : Nat) (l : List Nat) (d : Dev) :
    (d.each l fun k d => d.clr (HST_UR_CFG_enable e.val k)).on (HST_UR_CFG_enable e.val j) = if j ∈ l then false else d.on (HST_UR_CFG_enable e.val j) := by
  induction l generalizing d with
  | nil => simp [Dev.each]
  | cons k t ih =>
    refine (ih _).trans ?_
    rw [on_clr_ring]
    by_cases hj : j = k <;> simp [hj]

/-- No update ring of an endpoint is enabled. -/
def Unringed (e : Endpoint) (d : Dev) : Prop := ∀ k < 16, d.on (HST_UR_CFG_enable e.val k) = false

theorem Unringed.enabledRings {e : Endpoint} {d : Dev} (h : Unringed e d) : d.enabledRings e = [] :=
  List.filter_eq_nil_iff.2 fun k hk => by simp [h k (List.mem_range.1 hk)]

/-- Clearing the enables of every ring that is enabled leaves none enabled. -/
theorem rings_disabled (e : Endpoint) (d : Dev) : Unringed e (d.each (d.enabledRings e) fun k d => d.clr (HST_UR_CFG_enable e.val k)) := fun k hk => by
  rw [on_clr_rings]
  split_ifs with h
  · rfl
  · simpa [Dev.enabledRings, hk] using h

/-- The registers that configure the pairs and the rings: every other register of the host links may change. -/
def cfgReg (a : Nat) : Prop := 2 ^ 48 ≤ a ∧ (a % 64 = 8 ∨ a % 64 = 16)

theorem Disabled.keeps {e : Endpoint} {d d' : Dev} {own : Nat → Prop} (h : Disabled e d) (k : d.RegsBut own d')
    (ho : ∀ a, 2 ^ 48 ≤ a → a % 64 = 16 → ¬ own a) : Disabled e d' := fun q hq => by
  have hc : ¬ own (HST_QP_CFG e.val q) := ho _ (by simp only [HST_QP_CFG, hstReg]; omega) (by simp only [HST_QP_CFG, hstReg]; omega)
  obtain ⟨h1, h2⟩ := h q hq
  exact ⟨(congrArg (· != 0) (k.fld hc)).trans h1, (congrArg (· != 0) (k.fld hc)).trans h2⟩

theorem Unringed.keeps {e : Endpoint} {d d' : Dev} (h : Unringed e d) (k : d.RegsBut (¬ cfgReg ·) d') : Unringed e d' := fun j hj => by
  have hc : ¬ ¬ cfgReg (HST_UR_CFG e.val j) := by
    simp only [cfgReg, HST_UR_CFG, hstReg, not_not]
    omega
  exact (congrArg (· != 0) (k.fld hc)).trans (h j hj)

theorem Aloof.config {d e : Dev} (h : d.Aloof e) : d.RegsBut (¬ cfgReg ·) e := h.regs.mono fun a ha hc => by
  unfold cfgReg at hc
  omega

theorem RegsBut.each {own : Nat → Prop} {d0 d : Dev} {α : Type} {f : α → Dev → Dev} {l : List α} (h : d0.RegsBut own d)
    (hf : ∀ a (e : Dev), d0.RegsBut own e → d0.RegsBut own (f a e)) : d0.RegsBut own (d.each l f) := by
  unfold Dev.each
  induction l generalizing d with
  | nil => exact h
  | cons a t ih => exact ih (hf a d h)

theorem Aloof.dropReserve {d0 d : Dev} (h : d0.Aloof d) {r : Region} : d0.Aloof (d.dropReserve r) := by
  unfold Dev.dropReserve Dev.pressure
  extract_lets x store high low now d1 d2
  have h2 : d0.Aloof d2 := ((h.kept ((Kept.refl [.dispatch] _).modDsp fun _ => id)).kept ((Kept.refl [.dispatch] _).modDsp fun _ => id)).setReg
    (.inl (rgnReg_lt (by norm_num)))
  exact (h2.event.signalled (signalled_raise ..)).ite h2

/-- An endpoint with nothing queued, busy or waiting to be signalled. -/
def Emptied (e : Endpoint) (d : Dev) : Prop := (d.ep e).txBusy = [] ∧ (d.ep e).rxq = [] ∧ (d.ep e).unsignalled = []

theorem Emptied.keeps {e : Endpoint} {d d' : Dev} (h : Emptied e d) (k : d.Aloof d') : Emptied e d' := by
  obtain ⟨_, _, hx⟩ := k.eps e
  unfold Emptied
  rw [hx]
  exact h

/-- A reset endpoint has no pair and no ring enabled, and holds nothing. -/
theorem resetEndpoint_done (d : Dev) (e : Endpoint) :
    Disabled e (d.resetEndpoint e) ∧ Unringed e (d.resetEndpoint e) ∧ Emptied e (d.resetEndpoint e) := by
  unfold resetEndpoint
  extract_lets r qs d1 d2 d3 held d4
  have h12 : d1.RegsBut (· % 64 = 8) d2 := (RegsBut.refl _ _).each fun k e' h => h.setFld (by
    simp only [HST_UR_CFG_enable, HST_UR_CFG, hstReg]
    omega)
  have h23 : d2.RegsBut (¬ cfgReg ·) d3 := (RegsBut.refl _ _).each fun x e' h => (h.trans ((Aloof.refl e').dropReserve).config).setFld (by
    simp only [HST_QP_STAT_busy, HST_QP_STAT, hstReg, cfgReg]
    omega)
  have h45 : d4.Aloof (d4.each held fun x d => d.dropRx e 0x0A x) := (Aloof.refl _).each fun _ _ h => h.dropRx (by norm_num)
  have h25 : d2.RegsBut (¬ cfgReg ·) (d4.each held fun x d => d.dropRx e 0x0A x) := (h23.modEp).trans h45.config
  have h1 : Disabled e d1 := disabled_pairs e d
  have h2 : Unringed e d2 := rings_disabled e d1
  have h4 : Emptied e d4 := by
    unfold Emptied d4
    rw [ep_modEp_same]
    exact ⟨rfl, rfl, rfl⟩
  refine ⟨(h1.keeps h12 fun a _ ha => ?_).keeps h25 fun a hb ha => not_not.2 ⟨hb, .inr ha⟩, h2.keeps h25, h4.keeps h45⟩
  omega

end Dev

namespace Dev

/-- What the end of a reset changes: the state of the link, and what its sources signal. -/
theorem Disabled.of_link {e : Endpoint} {d d' : Dev} (hd : Disabled e d) (hu : Unringed e d) (he : Emptied e d)
    (k : d.RegsBut (¬ cfgReg ·) d') (hep : Posted (d.ep e) (d'.ep e)) : Disabled e d' ∧ Unringed e d' ∧ Emptied e d' := by
  obtain ⟨_, _, hx⟩ := hep
  refine ⟨hd.keeps k fun a hb ha => not_not.2 ⟨hb, .inr ha⟩, hu.keeps k, ?_⟩
  unfold Emptied
  rw [hx]
  exact he

/-- The link of an endpoint is down. -/
def unlinked (d : Dev) (e : Endpoint) : Dev := (d.setFld (HST_EP_STAT_gen e.val) 0).setFld (HST_EP_STAT_width e.val) 0

theorem fld_unlinked (d : Dev) (e : Endpoint) : (d.unlinked e).fld (HST_EP_STAT_gen e.val) = 0 ∧ (d.unlinked e).fld (HST_EP_STAT_width e.val) = 0 := by
  unfold unlinked
  rw [fld_setFld_beside _ (HST_EP_STAT_width e.val) (HST_EP_STAT_gen e.val) _ (by norm_num [HST_EP_STAT_width])
    (by norm_num [HST_EP_STAT_width, HST_EP_STAT_gen]), fld_setFld_same _ (HST_EP_STAT_gen e.val) _ (by norm_num [HST_EP_STAT_gen]),
    fld_setFld_same _ (HST_EP_STAT_width e.val) _ (by norm_num [HST_EP_STAT_width])]
  exact ⟨Nat.zero_mod _, Nat.zero_mod _⟩

theorem regs_unlinked (d : Dev) (e : Endpoint) : d.RegsBut (¬ cfgReg ·) (d.unlinked e) := by
  have hs : ¬ cfgReg (HST_EP_STAT e.val) := by
    simp only [HST_EP_STAT, hstReg, cfgReg]
    omega
  exact ((RegsBut.refl _ d).setFld hs).setFld hs

theorem unlinked_kept (d : Dev) (e : Endpoint) : d.Kept [.regs] (d.unlinked e) := (setFld_kept ..).then (setFld_kept ..) (by decide)

theorem ep_unlinked (d : Dev) (e x : Endpoint) : (d.unlinked e).ep x = d.ep x :=
  have h : (d.unlinked e).endpoints = d.endpoints := (d.unlinked_kept e).1 .endpoints (by decide)
  ep_congr h x

end Dev

theorem endpointReset_carried (ep : Endpoint) (down : Bool) (s : State) :
    Carried (.endpointReset ep down) s [.regs, .mem, .wire, .line, .ctxs, .packets, .endpoints, .commit, .pool, .egress, .dispatch, .journal] (fun e =>
      (e.ep ep).txBusy = [] ∧ (e.ep ep).rxq = [] ∧ (e.ep ep).unsignalled = [] ∧ e.enabledRings ep = []
        ∧ (∀ q < 512, e.on (HST_QP_CFG_tx_en ep.val q) = false ∧ e.on (HST_QP_CFG_rx_en ep.val q) = false)
        ∧ (down = true → e.fld (HST_EP_STAT_gen ep.val) = 0 ∧ e.fld (HST_EP_STAT_width ep.val) = 0)) := by
  set r := endpointRegion ep
  set d1 := (s.dev.resetEndpoint ep).raise r 0x3C1 with hd1
  obtain ⟨hp, hr, he⟩ := s.dev.resetEndpoint_done ep
  have ha1 : (s.dev.resetEndpoint ep).Aloof d1 := (Dev.Aloof.refl _).signalled (Dev.signalled_raise ..)
  have hk1 : s.dev.Kept [.regs, .mem, .wire, .line, .ctxs, .packets, .endpoints, .commit, .pool, .egress, .dispatch, .journal] d1 :=
    ((Dev.Kept.refl _ _).resetEndpoint fun _ => id).raise (by decide)
  have hx : exec (.endpointReset ep down) s = execEndpointReset ep down s := rfl
  have hdone {d : Dev} (n : Nat) (h : Dev.Disabled ep d ∧ Dev.Unringed ep d ∧ Dev.Emptied ep d) :
      ((d.withFree n).ep ep).txBusy = [] ∧ ((d.withFree n).ep ep).rxq = [] ∧ ((d.withFree n).ep ep).unsignalled = [] ∧ (d.withFree n).enabledRings ep = []
        ∧ (∀ q < 512, (d.withFree n).on (HST_QP_CFG_tx_en ep.val q) = false ∧ (d.withFree n).on (HST_QP_CFG_rx_en ep.val q) = false) := by
    obtain ⟨h1, h2, h3, h4, h5⟩ := h
    simp only [Dev.ep_withFree, Dev.on_withFree]
    exact ⟨h3, h4, h5, (Dev.Unringed.enabledRings (d := d.withFree n) fun k hk => (Dev.on_withFree ..).trans (h2 k hk)), h1⟩
  cases down with
  | false =>
    refine .of_run_eq (d := d1) hx (if_neg Bool.false_ne_true) hk1.1 ?_
    have h := hdone (s.dev.free + 1) (hp.of_link hr he ha1.config (ha1.eps ep))
    exact ⟨h.1, h.2.1, h.2.2.1, h.2.2.2.1, h.2.2.2.2, fun hf => by cases hf⟩
  | true =>
    have hs : (d1.unlinked ep).Signalled ((d1.unlinked ep).raise r 0x3C0) := Dev.signalled_raise ..
    have ha2 : (d1.unlinked ep).Aloof ((d1.unlinked ep).raise r 0x3C0) := (Dev.Aloof.refl _).signalled hs
    have hreg : (s.dev.resetEndpoint ep).RegsBut (¬ Dev.cfgReg ·) ((d1.unlinked ep).raise r 0x3C0) :=
      (ha1.config.trans (d1.regs_unlinked ep)).trans ha2.config
    have hep : Dev.Posted ((s.dev.resetEndpoint ep).ep ep) (((d1.unlinked ep).raise r 0x3C0).ep ep) :=
      (ha1.eps ep).trans (by rw [← d1.ep_unlinked ep ep]; exact ha2.eps ep)
    refine .of_run_eq (d := (d1.unlinked ep).raise r 0x3C0) hx (if_pos rfl) ((hk1.then (d1.unlinked_kept ep) (by decide)).raise (by decide)).1 ?_
    have h := hdone (s.dev.free + 1) (hp.of_link hr he hreg hep)
    obtain ⟨hg, hw⟩ := d1.fld_unlinked ep
    refine ⟨h.1, h.2.1, h.2.2.1, h.2.2.2.1, h.2.2.2.2, fun _ => ⟨?_, ?_⟩⟩
    · rw [Dev.fld_withFree, hs.fld not_signalReg_hst, hg]
    · rw [Dev.fld_withFree, hs.fld not_signalReg_hst, hw]

/-- Settles O51, clause by clause. -/
theorem receiveUpdateAndEndpointRings : Obligations.ReceiveUpdateAndEndpointRings :=
  ⟨rxPacketDeliver_carried, rxHoldExpiry_carried, updateRingTake_idle_carried, updateRingTake_carried, msixCoalesceExpiry_carried,
    endpointReset_carried, endpointLinkUp_carried⟩

end Sys2Proof.Machine

namespace Sys2Proof.Machine

/-! ### A verdict that leaves no trace (R393, R432, R505)

The registers of the ready queues lie 16 bytes apart in their region, so a queue number large enough makes the status register of a queue of
region 0 the core error register of a block of region 7. The statement leaves open at which stage the packet is that a worker holds: where it
is one queued there, its drop writes the queue's depth over the error just noted. -/

namespace LostVerdict

/-- A worker of the last block of region 7. -/
def worker : CtxId := ⟨7, 15, 7, 15⟩

/-- RETIRE with its verdict in register 5. -/
def word : Word := 0x3862A00B

/-- The ready queue of region 0 whose status register has the address of the worker's BLK_CORE_ERR. -/
def queue : Nat := (BLK_CORE_ERR 7 15 - RGN_DSP_QSTAT 0 0) / 16

/-- The packet that the worker holds. -/
def packet : Packet := {
  region := 0, stamp := ⟨56, 0, 0, 0, 0⟩, localPort := 0, head := 0, length := 60, rxTime := 0, rxSec := 0, stage := .queued queue, pass := 0,
  paneKnown := false, pane := 0, paneGen := 0, profile := 0, transit := 1, maxPasses := 1, narrowed := false, flowHash := 0, parse := [],
  cls := [], front := [], results := [], lookups := [], flooded := [], learnDrop := false, mirrorA := none, mirrorB := none, mirrors := [],
  rewrite := [], poisoned := false, target := 0, entry := 0, sendBack := false, task := false, reserve := false, copies := 1,
  consumed := false, orig := none }

/-- The part after reset, but for the packet, and the worker's cell at the RETIRE with a verdict that counts 17 rewrite entries. -/
def start : State where
  pending := []
  dev := (((State.reset.dev.setPkt 0 (some packet)).setFld (BLK_CELL_RUN_run 7 15) 0x80).modCell 1023 fun c =>
    { c with icache := [(0, bytesLE 4 word.toNat)] }).modCtx (Dev.ctxNo worker) fun c =>
      { c with mode := .running, held := some 0, x := [(5, 0x10000011)] }

theorem start_issues : start.dev.Issues worker word ∧ (insnOf word).op = .retire ∧ (start.dev.ctx (Dev.ctxNo worker)).held = some 0
    ∧ start.dev.pkt 0 = some packet ∧ 16 < (start.dev.xreg (Dev.ctxNo worker) (insnOf word).rs1).toNat % 32 := by
  decide +kernel

/-- Whether the worker's block holds an invalid verdict after a command that is carried out. -/
def noted : Out → Bool
  | .next t => t.dev.on (BLK_CORE_ERR_verdict_invalid 7 15)
  | _ => false

theorem not_noted : noted (exec (.retire worker word 0) start) = false := by decide +kernel

end LostVerdict

/-- Refutes O60: an invalid verdict that ends a packet queued in region 0, at a queue whose status register is the worker's BLK_CORE_ERR,
leaves verdict_invalid clear. -/
theorem not_packetInstructionsAndTheCoprocessor : ¬ Obligations.PacketInstructionsAndTheCoprocessor := by
  unfold Obligations.PacketInstructionsAndTheCoprocessor
  rintro ⟨-, invalid, -⟩
  obtain ⟨hi, hop, hheld, hp, hcount⟩ := LostVerdict.start_issues
  obtain ⟨t, ht, -, -, -, -, -, hon⟩ := invalid _ _ _ _ 0 _ hi hop (by decide) hheld hp (.inr (.inr (.inr hcount)))
  have hlost := LostVerdict.not_noted
  rw [ht] at hlost
  exact Bool.false_ne_true (hlost.symm.trans hon)

end Sys2Proof.Machine
